-- ==== Sys2Proof/Machine/Sparse.lean ====
section
/-! DEFINITION. Machine/Sparse.lean: finite maps from natural-number keys as sorted lists of pairs, the one
form in which the state holds memory, register windows, scratchpads, tiles and tables of units. A map with
a default value lists no entry equal to it, so equal maps are equal lists. -/

namespace Sys2Proof.Machine

/-- A map from keys to values: keys strictly rising. -/
abbrev Map (α : Type) := List (Nat × α)

/-- The value listed at key `k`. -/
def mfind {α : Type} (m : Map α) (k : Nat) : Option α :=
  match m with
  | [] => none
  | (j, x) :: t => if j = k then some x else mfind t k

/-- List `x` at key `k`. -/
def mput {α : Type} (m : Map α) (k : Nat) (x : α) : Map α :=
  match m with
  | [] => [(k, x)]
  | (j, y) :: t =>
    if k < j then (k, x) :: (j, y) :: t
    else if j = k then (k, x) :: t
    else (j, y) :: mput t k x

/-- List nothing at key `k`. -/
def mdel {α : Type} (m : Map α) (k : Nat) : Map α :=
  match m with
  | [] => []
  | (j, y) :: t => if j = k then mdel t k else (j, y) :: mdel t k

/-- Read with a default for unlisted keys. -/
def mget {α : Type} (dflt : α) (m : Map α) (k : Nat) : α := (mfind m k).getD dflt

/-- Write with a default: writing the default removes the entry. -/
def mset {α : Type} [DecidableEq α] (dflt : α) (m : Map α) (k : Nat) (x : α) : Map α :=
  if x = dflt then mdel m k else mput m k x

/-- Change the value listed at `k`, if one is. -/
def mupd {α : Type} (m : Map α) (k : Nat) (f : α → α) : Map α :=
  match m with
  | [] => []
  | (j, y) :: t => if j = k then (j, f y) :: t else (j, y) :: mupd t k f

/-- Keys strictly rising from above `lo`. -/
def mrising {α : Type} (lo : Nat) : Map α → Bool
  | [] => true
  | (j, _) :: t => decide (lo < j) && mrising j t

/-- The canonical form: keys strictly rising and no entry equal to the default. -/
def mwf {α : Type} [DecidableEq α] (dflt : α) (m : Map α) : Bool :=
  (match m with
    | [] => true
    | (j, _) :: t => mrising j t)
  && m.all (fun e => decide (e.2 ≠ dflt))

/-- Write `xs` at consecutive keys from `k`. -/
def msets {α : Type} [DecidableEq α] (dflt : α) (m : Map α) (k : Nat) : List α → Map α
  | [] => m
  | x :: xs => msets dflt (mset dflt m k x) (k + 1) xs

/-- Read `n` consecutive keys from `k`. -/
def mgets {α : Type} (dflt : α) (m : Map α) (k : Nat) : Nat → List α
  | 0 => []
  | n + 1 => mget dflt m k :: mgets dflt m (k + 1) n

/-- The little-endian number held in a list of bytes. -/
def leNat : List Byte → Nat
  | [] => 0
  | b :: bs => b.toNat + 256 * leNat bs

/-- `n` little-endian bytes of `x`. -/
def leBytes : Nat → Nat → List Byte
  | 0, _ => []
  | n + 1, x => BitVec.ofNat 8 x :: leBytes n (x / 256)

/-- Lanes of a 32-bit mask, in ascending order. -/
def lanesOf (m : Word) : List Nat := (List.range 32).filter (fun l => m.getLsbD l)

/-- The mask with the one bit `l`. -/
def laneBit (l : Nat) : Word := BitVec.ofNat 32 (2 ^ (l % 32))

/-- The mask of the lanes in a list. -/
def maskOf : List Nat → Word
  | [] => 0
  | l :: ls => laneBit l ||| maskOf ls

/-- The mask of the lanes for which `f` holds. -/
def maskWhere (f : Nat → Bool) : Word := maskOf ((List.range 32).filter f)

/-- The lowest lane of a mask; 0 for the empty mask. -/
def lowestLane (m : Word) : Nat := (lanesOf m).headD 0

/-- How many lanes a mask holds. -/
def popMask (m : Word) : Nat := (lanesOf m).length

/-- Apply `f` to each element with its position, counted from `i`. -/
def mapFrom {α β : Type} (f : Nat → α → β) (i : Nat) : List α → List β
  | [] => []
  | x :: xs => f i x :: mapFrom f (i + 1) xs

/-- Change the element at position `i`. -/
def setAt {α : Type} (f : α → α) : Nat → List α → List α
  | _, [] => []
  | 0, x :: xs => f x :: xs
  | n + 1, x :: xs => x :: setAt f n xs

/-- Drop the first element for which `p` holds. -/
def eraseFirst {α : Type} (p : α → Bool) : List α → List α
  | [] => []
  | x :: xs => if p x then xs else x :: eraseFirst p xs

/-- Insert in a list kept in rising order of `key`, after equal keys. -/
def insertBy {α : Type} (key : α → Nat) (x : α) : List α → List α
  | [] => [x]
  | y :: ys => if key x < key y then x :: y :: ys else y :: insertBy key x ys

end Sys2Proof.Machine
end

