-- ==== Sys2Proof/Syntax.lean ====
section
/-! DEFINITION. Syntax.lean: the instructions and the device events of spec/opcode_table.json, one
constructor of `Instr` per row: the 162 opcodes of R109 with their operands and modifiers as data, and the
101 events (95_what_each_step_holds.md) with the parameters that say where each comes about. -/

namespace Sys2Proof

/-- A register operand (R105): vector, scalar, `z`, or an inline constant −32..31. -/
inductive Opnd
  | v (k : Nat)
  | s (k : Nat)
  | z
  | c (n : Int)
  deriving DecidableEq, Repr

/-- The guard (R103): none, or a predicate p0–p14, perhaps negated. -/
inductive Guard
  | all
  | pred (p : Nat) (neg : Bool)
  deriving DecidableEq, Repr

/-- The guard and the scheduling byte of a word (R103, R104). -/
structure Hdr where
  guard : Guard
  keep : Nat
  uni : Bool
  yld : Bool
  stall : Nat
  deriving DecidableEq, Repr

/-- Type modifiers (R124). -/
inductive Ty
  | b32 | u32 | s32 | f32 | b64 | u64 | s64 | f64 | b16 | u16 | s16 | f16 | bf16
  | b8 | u8 | s8 | u4 | s4 | e4m3 | e5m2 | e3m2 | e2m3 | e2m1 | e8m0 | b128
  deriving DecidableEq, Repr

/-- Rounding modifiers (R89, R125). -/
inductive Rnd
  | rn | rz | rm | rp
  deriving DecidableEq, Repr

/-- Compare conditions of ICMP and FCMP (R126). -/
inductive Cmp
  | eq | ne | lt | le | gt | ge | num | nan
  deriving DecidableEq, Repr

/-- Operations of GRED and GSCAN (R126). -/
inductive RedOp
  | add | min | max | and | or | xor
  deriving DecidableEq, Repr

/-- VOTE sub-operations (R126). -/
inductive VoteOp
  | all | any | eq | ballot
  deriving DecidableEq, Repr

/-- LXCH modes (R126). -/
inductive LxMode
  | abs | rot | xor
  deriving DecidableEq, Repr

/-- QSWP partners (R126). -/
inductive QsK
  | x1 | x2 | x3
  deriving DecidableEq, Repr

/-- MATCH modes (R126). -/
inductive MatchOp
  | any | all
  deriving DecidableEq, Repr

/-- Atomic operations (R125, AOP). -/
inductive AOp
  | add | min | max | and | or | xor | exch
  deriving DecidableEq, Repr

/-- Scopes (R125). -/
inductive Scope
  | device | team | cluster | domain | system
  deriving DecidableEq, Repr

/-- Ordering modifiers (R69, R125). -/
inductive Ord
  | none | acq | rel | ar
  deriving DecidableEq, Repr

/-- Cache hints (R125). -/
inductive CacheH
  | ca | cg | nt
  deriving DecidableEq, Repr

/-- Core selection of the queued matrix operations (R125, R279). -/
inductive CoreSel
  | all | core0 | core1 | core2 | core3
  deriving DecidableEq, Repr

/-- Source type of CCVT, EXT[1:0] (R283). -/
inductive CSrc
  | f32 | s32 | f64
  deriving DecidableEq, Repr

/-- Destination of VOTE: a predicate, or a vector register for `.ballot` (R183). -/
inductive VoteDst
  | pred (p : Nat)
  | reg (r : Opnd)
  deriving DecidableEq, Repr

/-- Special registers (R141, Table 9-3). -/
inductive SReg
  | laneid | quadid | groupid | teamid | gangx | gangy | gangz | ngangx | ngangy | ngangz
  | active | clock | regtime | ctime | fpflags | cstack | args | regs | coreid | clusterid
  | ctxid | trapinfo
  deriving DecidableEq, Repr

/-- Who waits in a matrix-engine wait: a lane group, or the sequencer of a gang (R270, R276). -/
inductive Who
  | grp (gid : Nat)
  | seq (gang : Nat)
  deriving DecidableEq, Repr

/-- The cluster and the cores (one per team) the scheduler gives a gang (R26, R33). -/
structure Place where
  cluster : Nat
  cores : List Nat
  deriving DecidableEq, Repr

/-- Wake tags of a replay queue (Table 15-1). -/
inductive WakeTag
  | close | recall | xfer | order
  deriving DecidableEq, Repr

/-- What befell a copy chunk on its way, outside the model's own checks (R299). -/
inductive LinkFate
  | ok | uncorrectable | linkDown | storageError
  deriving DecidableEq, Repr

/-- Outcome of one unit's test at a bring-up stage (R367). (DESIGN CHOICE, log 70) -/
structure StageResult where
  stage : Nat
  unit : Nat
  code : Nat
  pass : Bool
  ceilingsHold : Bool
  deriving DecidableEq, Repr

/-- Commands a lease may permit (Table 23-8). -/
inductive NvmeOp
  | flush | write | read | writeZeroes | dsm | other
  deriving DecidableEq, Repr

/-- A command of a lessee's NVMe submission ring (R362, R363). (DESIGN CHOICE, log 47) -/
structure NvmeCmd where
  op : NvmeOp
  cid : Nat
  lba : Nat
  count : Nat
  buf : Nat
  bytes : Nat
  deriving DecidableEq, Repr

/-- The part of an SPDM request that its answer depends on (R366). -/
structure SpdmReq where
  slot : Nat
  index : Nat
  nonce : Nat
  offset : Nat
  length : Nat
  algOk : Bool
  deriving DecidableEq, Repr

/-- A copy request record's program-written fields (Table 19-1). -/
structure CopyRec where
  src : Nat
  dst : Nat
  len : Nat
  rows : Nat
  sstride : Nat
  dstride : Nat
  bobj : Nat
  fmt : Nat
  rop : Nat
  mig : Bool
  bo : Bool
  cls : Nat
  chan : Nat
  dkind : Nat
  skind : Nat
  ddev : Nat
  sdev : Nat
  reserved : Nat
  deriving DecidableEq, Repr

/-- One constructor per row of spec/opcode_table.json. -/
inductive Instr
  /-- NOP (R113), opcode 0x000. -/
  | nop (h : Hdr)
  /-- IADD (R148), opcode 0x001. -/
  | iadd (h : Hdr) (ty : Ty) (sat : Bool) (z : Bool) (d : Opnd) (a : Opnd) (b : Opnd)
  /-- ISUB (R148), opcode 0x002. -/
  | isub (h : Hdr) (ty : Ty) (sat : Bool) (z : Bool) (d : Opnd) (a : Opnd) (b : Opnd)
  /-- IADD3 (R148), opcode 0x003. -/
  | iadd3 (h : Hdr) (ty : Ty) (sat : Bool) (z : Bool) (d : Opnd) (a : Opnd) (b : Opnd) (c : Opnd)
  /-- IADDC (R149), opcode 0x004. -/
  | iaddc (h : Hdr) (ty : Ty) (z : Bool) (d : Opnd) (a : Opnd) (b : Opnd) (cin : Nat) (cout : Nat)
  /-- IMUL (R148), opcode 0x005. -/
  | imul (h : Hdr) (ty : Ty) (z : Bool) (d : Opnd) (a : Opnd) (b : Opnd)
  /-- IMULH (R148), opcode 0x006. -/
  | imulh (h : Hdr) (ty : Ty) (z : Bool) (d : Opnd) (a : Opnd) (b : Opnd)
  /-- IMAD (R148), opcode 0x007. -/
  | imad (h : Hdr) (ty : Ty) (sat : Bool) (z : Bool) (d : Opnd) (a : Opnd) (b : Opnd) (c : Opnd)
  /-- IMADW (R148), opcode 0x008. -/
  | imadw (h : Hdr) (ty : Ty) (z : Bool) (d : Opnd) (a : Opnd) (b : Opnd) (c : Opnd)
  /-- IDIV (R150), opcode 0x009. -/
  | idiv (h : Hdr) (ty : Ty) (z : Bool) (d : Opnd) (a : Opnd) (b : Opnd)
  /-- IREM (R150), opcode 0x00A. -/
  | irem (h : Hdr) (ty : Ty) (z : Bool) (d : Opnd) (a : Opnd) (b : Opnd)
  /-- IMIN (R150), opcode 0x00B. -/
  | imin (h : Hdr) (ty : Ty) (z : Bool) (d : Opnd) (a : Opnd) (b : Opnd)
  /-- IMAX (R150), opcode 0x00C. -/
  | imax (h : Hdr) (ty : Ty) (z : Bool) (d : Opnd) (a : Opnd) (b : Opnd)
  /-- IABS (R150), opcode 0x00D. -/
  | iabs (h : Hdr) (ty : Ty) (sat : Bool) (z : Bool) (d : Opnd) (a : Opnd)
  /-- INEG (R150), opcode 0x00E. -/
  | ineg (h : Hdr) (ty : Ty) (sat : Bool) (z : Bool) (d : Opnd) (a : Opnd)
  /-- ISAD (R150), opcode 0x00F. -/
  | isad (h : Hdr) (ty : Ty) (z : Bool) (d : Opnd) (a : Opnd) (b : Opnd) (c : Opnd)
  /-- AND (R151), opcode 0x010. -/
  | andB (h : Hdr) (ty : Ty) (z : Bool) (d : Opnd) (a : Opnd) (b : Opnd)
  /-- OR (R151), opcode 0x011. -/
  | orB (h : Hdr) (ty : Ty) (z : Bool) (d : Opnd) (a : Opnd) (b : Opnd)
  /-- XOR (R151), opcode 0x012. -/
  | xorB (h : Hdr) (ty : Ty) (z : Bool) (d : Opnd) (a : Opnd) (b : Opnd)
  /-- NOT (R151), opcode 0x013. -/
  | notB (h : Hdr) (ty : Ty) (z : Bool) (d : Opnd) (a : Opnd)
  /-- LOGT (R151), opcode 0x014. -/
  | logt (h : Hdr) (ty : Ty) (z : Bool) (d : Opnd) (a : Opnd) (b : Opnd) (c : Opnd) (tt : Nat)
  /-- SHL (R152), opcode 0x015. -/
  | shl (h : Hdr) (ty : Ty) (z : Bool) (d : Opnd) (a : Opnd) (b : Opnd)
  /-- SHR (R152), opcode 0x016. -/
  | shr (h : Hdr) (ty : Ty) (z : Bool) (d : Opnd) (a : Opnd) (b : Opnd)
  /-- ROT (R152), opcode 0x017. -/
  | rot (h : Hdr) (ty : Ty) (z : Bool) (d : Opnd) (a : Opnd) (b : Opnd)
  /-- CATSH (R152), opcode 0x018. -/
  | catsh (h : Hdr) (z : Bool) (d : Opnd) (a : Opnd) (b : Opnd) (c : Opnd)
  /-- BFX (R153), opcode 0x019. -/
  | bfx (h : Hdr) (ty : Ty) (z : Bool) (d : Opnd) (a : Opnd) (b : Opnd)
  /-- BFI (R153), opcode 0x01A. -/
  | bfi (h : Hdr) (z : Bool) (d : Opnd) (a : Opnd) (b : Opnd) (c : Opnd)
  /-- POPC (R154), opcode 0x01B. -/
  | popc (h : Hdr) (ty : Ty) (z : Bool) (d : Opnd) (a : Opnd)
  /-- CLZ (R154), opcode 0x01C. -/
  | clz (h : Hdr) (ty : Ty) (z : Bool) (d : Opnd) (a : Opnd)
  /-- BREV (R154), opcode 0x01D. -/
  | brev (h : Hdr) (ty : Ty) (z : Bool) (d : Opnd) (a : Opnd)
  /-- FFS (R154), opcode 0x01E. -/
  | ffs (h : Hdr) (ty : Ty) (z : Bool) (d : Opnd) (a : Opnd)
  /-- ICMP (R155), opcode 0x01F. -/
  | icmp (h : Hdr) (cc : Cmp) (ty : Ty) (pd : Nat) (a : Opnd) (b : Opnd)
  /-- ISEL (R155), opcode 0x020. -/
  | isel (h : Hdr) (ty : Ty) (z : Bool) (d : Opnd) (a : Opnd) (b : Opnd) (pc : Nat)
  /-- LEA (R156), opcode 0x021. -/
  | lea (h : Hdr) (ty : Ty) (z : Bool) (d : Opnd) (a : Opnd) (b : Opnd) (sh : Nat)
  /-- MOVI (R140), opcode 0x022. -/
  | movi (h : Hdr) (d : Opnd) (imm : BitVec 32)
  /-- MOV (R140), opcode 0x023. -/
  | mov (h : Hdr) (ty : Ty) (z : Bool) (d : Opnd) (a : Opnd)
  /-- FADD (R158), opcode 0x040. -/
  | fadd (h : Hdr) (ty : Ty) (rnd : Rnd) (ftz : Bool) (z : Bool) (d : Opnd) (a : Opnd) (b : Opnd)
  /-- FSUB (R158), opcode 0x041. -/
  | fsub (h : Hdr) (ty : Ty) (rnd : Rnd) (ftz : Bool) (z : Bool) (d : Opnd) (a : Opnd) (b : Opnd)
  /-- FMUL (R158), opcode 0x042. -/
  | fmul (h : Hdr) (ty : Ty) (rnd : Rnd) (ftz : Bool) (z : Bool) (d : Opnd) (a : Opnd) (b : Opnd)
  /-- FFMA (R158), opcode 0x043. -/
  | ffma (h : Hdr) (ty : Ty) (rnd : Rnd) (ftz : Bool) (z : Bool) (d : Opnd) (a : Opnd) (b : Opnd) (c : Opnd)
  /-- FMIN (R159), opcode 0x044. -/
  | fmin (h : Hdr) (ty : Ty) (ftz : Bool) (z : Bool) (d : Opnd) (a : Opnd) (b : Opnd)
  /-- FMAX (R159), opcode 0x045. -/
  | fmax (h : Hdr) (ty : Ty) (ftz : Bool) (z : Bool) (d : Opnd) (a : Opnd) (b : Opnd)
  /-- FCMP (R160), opcode 0x046. -/
  | fcmp (h : Hdr) (cc : Cmp) (ty : Ty) (ftz : Bool) (pd : Nat) (a : Opnd) (b : Opnd)
  /-- FDIV (R161), opcode 0x047. -/
  | fdiv (h : Hdr) (ty : Ty) (rnd : Rnd) (ftz : Bool) (z : Bool) (d : Opnd) (a : Opnd) (b : Opnd)
  /-- FSQRT (R161), opcode 0x048. -/
  | fsqrt (h : Hdr) (ty : Ty) (rnd : Rnd) (ftz : Bool) (z : Bool) (d : Opnd) (a : Opnd)
  /-- FRCP (R161), opcode 0x049. -/
  | frcp (h : Hdr) (ty : Ty) (rnd : Rnd) (ftz : Bool) (z : Bool) (alt : Bool) (d : Opnd) (a : Opnd)
  /-- FRSQ (R161), opcode 0x04A. -/
  | frsq (h : Hdr) (ty : Ty) (rnd : Rnd) (ftz : Bool) (z : Bool) (alt : Bool) (d : Opnd) (a : Opnd)
  /-- FEXP2 (R162), opcode 0x04B. -/
  | fexp2 (h : Hdr) (ftz : Bool) (z : Bool) (d : Opnd) (a : Opnd)
  /-- FLOG2 (R162), opcode 0x04C. -/
  | flog2 (h : Hdr) (ftz : Bool) (z : Bool) (d : Opnd) (a : Opnd)
  /-- FSIN (R162), opcode 0x04D. -/
  | fsin (h : Hdr) (ftz : Bool) (z : Bool) (d : Opnd) (a : Opnd)
  /-- FCOS (R162), opcode 0x04E. -/
  | fcos (h : Hdr) (ftz : Bool) (z : Bool) (d : Opnd) (a : Opnd)
  /-- FTANH (R162), opcode 0x04F. -/
  | ftanh (h : Hdr) (ftz : Bool) (z : Bool) (d : Opnd) (a : Opnd)
  /-- FRND (R163), opcode 0x050. -/
  | frnd (h : Hdr) (ty : Ty) (rnd : Rnd) (ftz : Bool) (z : Bool) (d : Opnd) (a : Opnd)
  /-- FCLASS (R163), opcode 0x051. -/
  | fclass (h : Hdr) (ty : Ty) (z : Bool) (d : Opnd) (a : Opnd)
  /-- FSCALE (R163), opcode 0x052. -/
  | fscale (h : Hdr) (ty : Ty) (rnd : Rnd) (ftz : Bool) (z : Bool) (d : Opnd) (a : Opnd) (b : Opnd)
  /-- FDOT2 (R164), opcode 0x053. -/
  | fdot2 (h : Hdr) (ty : Ty) (rnd : Rnd) (z : Bool) (d : Opnd) (a : Opnd) (b : Opnd) (c : Opnd)
  /-- CVT (R166), opcode 0x080. -/
  | cvt (h : Hdr) (dty : Ty) (sty : Ty) (rnd : Rnd) (sat : Bool) (z : Bool) (nan : Bool) (d : Opnd) (di : Nat) (a : Opnd) (si : Nat)
  /-- PACK (R168), opcode 0x081. -/
  | pack (h : Hdr) (dty : Ty) (sty : Ty) (rnd : Rnd) (sat : Bool) (z : Bool) (nan : Bool) (d : Opnd) (a : Opnd) (b : Opnd) (j : Nat)
  /-- UNPK (R168), opcode 0x082. -/
  | unpk (h : Hdr) (dty : Ty) (sty : Ty) (z : Bool) (d : Opnd) (a : Opnd) (j : Nat)
  /-- QPACK (R169), opcode 0x083. -/
  | qpack (h : Hdr) (dty : Ty) (sty : Ty) (rnd : Rnd) (sat : Bool) (z : Bool) (nan : Bool) (d : Opnd) (a : Opnd) (hh : Nat)
  /-- QUNPK (R169), opcode 0x084. -/
  | qunpk (h : Hdr) (dty : Ty) (sty : Ty) (z : Bool) (d : Opnd) (a : Opnd) (hh : Nat)
  /-- DOT4 (R170), opcode 0x085. -/
  | dot4 (h : Hdr) (ty : Ty) (sat : Bool) (z : Bool) (d : Opnd) (a : Opnd) (b : Opnd) (c : Opnd)
  /-- DOT8 (R170), opcode 0x086. -/
  | dot8 (h : Hdr) (ty : Ty) (sat : Bool) (z : Bool) (d : Opnd) (a : Opnd) (b : Opnd) (c : Opnd)
  /-- DOTS (R171), opcode 0x087. -/
  | dots (h : Hdr) (ty : Ty) (z : Bool) (d : Opnd) (a : Opnd) (b : Opnd) (c : Opnd) (sa : Nat) (sb : Nat)
  /-- PRMB (R172), opcode 0x088. -/
  | prmb (h : Hdr) (z : Bool) (d : Opnd) (a : Opnd) (b : Opnd) (c : Opnd)
  /-- LXCH (R185), opcode 0x0A0. -/
  | lxch (h : Hdr) (m : LxMode) (ty : Ty) (z : Bool) (d : Opnd) (a : Opnd) (b : Opnd)
  /-- QSWP (R185), opcode 0x0A1. -/
  | qswp (h : Hdr) (k : QsK) (ty : Ty) (z : Bool) (d : Opnd) (a : Opnd)
  /-- QBCST (R185), opcode 0x0A2. -/
  | qbcst (h : Hdr) (ty : Ty) (z : Bool) (d : Opnd) (a : Opnd) (k : Nat)
  /-- QHELP (R187), opcode 0x0A3. -/
  | qhelp (h : Hdr) (on : Bool)
  /-- VOTE (R185), opcode 0x0A4. -/
  | vote (h : Hdr) (m : VoteOp) (z : Bool) (d : VoteDst) (pa : Nat)
  /-- GRED (R186), opcode 0x0A5. -/
  | gred (h : Hdr) (op : RedOp) (ty : Ty) (z : Bool) (d : Opnd) (a : Opnd)
  /-- GSCAN (R186), opcode 0x0A6. -/
  | gscan (h : Hdr) (op : RedOp) (ty : Ty) (z : Bool) (excl : Bool) (d : Opnd) (a : Opnd)
  /-- MATCH (R185), opcode 0x0A7. -/
  | matchLanes (h : Hdr) (m : MatchOp) (ty : Ty) (z : Bool) (d : Opnd) (a : Opnd)
  /-- RDLANE (R185), opcode 0x0A8. -/
  | rdlane (h : Hdr) (ty : Ty) (z : Bool) (d : Opnd) (a : Opnd) (b : Opnd)
  /-- WRLANE (R185), opcode 0x0A9. -/
  | wrlane (h : Hdr) (ty : Ty) (d : Opnd) (a : Opnd) (b : Opnd)
  /-- BRA (R175), opcode 0x0C0. -/
  | bra (h : Hdr) (imm : BitVec 32)
  /-- BRX (R175), opcode 0x0C1. -/
  | brx (h : Hdr) (a : Opnd)
  /-- CALL (R177), opcode 0x0C2. -/
  | call (h : Hdr) (imm : BitVec 32)
  /-- CALLX (R177), opcode 0x0C3. -/
  | callx (h : Hdr) (a : Opnd)
  /-- RET (R177), opcode 0x0C4. -/
  | ret (h : Hdr)
  /-- ENROL (R179), opcode 0x0C5. -/
  | enrol (h : Hdr) (bn : Nat)
  /-- REJOIN (R179), opcode 0x0C6. -/
  | rejoin (h : Hdr) (bn : Nat)
  /-- LEAVE (R179), opcode 0x0C7. -/
  | leave (h : Hdr) (bn : Nat)
  /-- EXIT (R180), opcode 0x0C8. -/
  | exit (h : Hdr)
  /-- YIELD (R180), opcode 0x0C9. -/
  | yield (h : Hdr)
  /-- TBAR (R181), opcode 0x0CA. -/
  | tbar (h : Hdr)
  /-- TBARA (R181), opcode 0x0CB. -/
  | tbara (h : Hdr)
  /-- LNCH (R182), opcode 0x0CC. -/
  | lnch (h : Hdr) (pd : Nat) (a : Opnd) (q : Nat)
  /-- TRAP (R188), opcode 0x0D0. -/
  | trap (h : Hdr) (imm : BitVec 32)
  /-- BRK (R188), opcode 0x0D1. -/
  | brk (h : Hdr) (imm : BitVec 32)
  /-- TRET (R191), opcode 0x0D2. -/
  | tret (h : Hdr) (skip : Bool)
  /-- TQRD (R193), opcode 0x0D3. -/
  | tqrd (h : Hdr) (d : Opnd)
  /-- GROW (R130), opcode 0x0E0. -/
  | grow (h : Hdr) (must : Bool) (pd : Nat) (imm : BitVec 32)
  /-- SHRINK (R130), opcode 0x0E1. -/
  | shrink (h : Hdr) (imm : BitVec 32)
  /-- RDSR (R141), opcode 0x0E2. -/
  | rdsr (h : Hdr) (d : Opnd) (sr : SReg)
  /-- WRSR (R141), opcode 0x0E3. -/
  | wrsr (h : Hdr) (a : Opnd) (sr : SReg)
  /-- PSET (R136), opcode 0x0E4. -/
  | pset (h : Hdr) (pd : Nat) (a : Opnd) (b : Opnd)
  /-- PMOV (R137), opcode 0x0E5. -/
  | pmov (h : Hdr) (toP : Bool) (p : Nat) (r : Opnd)
  /-- XGET (R133), opcode 0x0E6. -/
  | xget (h : Hdr) (d : Opnd) (a : Opnd) (b : Opnd)
  /-- XPUT (R133), opcode 0x0E7. -/
  | xput (h : Hdr) (a : Opnd) (b : Opnd) (c : Opnd)
  /-- LD (R199), opcode 0x100. -/
  | ld (h : Hdr) (w64 : Bool) (ty : Ty) (sc : Scope) (ord : Ord) (chint : CacheH) (d : Opnd) (a : Opnd) (off : BitVec 24)
  /-- ST (R200), opcode 0x101. -/
  | st (h : Hdr) (w64 : Bool) (ty : Ty) (sc : Scope) (ord : Ord) (chint : CacheH) (a : Opnd) (b : Opnd) (off : BitVec 24)
  /-- LDS (R199), opcode 0x102. -/
  | lds (h : Hdr) (ty : Ty) (d : Opnd) (a : Opnd) (off : BitVec 24)
  /-- STS (R200), opcode 0x103. -/
  | sts (h : Hdr) (ty : Ty) (a : Opnd) (b : Opnd) (off : BitVec 24)
  /-- ATOM (R202), opcode 0x104. -/
  | atom (h : Hdr) (w64 : Bool) (op : AOp) (ty : Ty) (sc : Scope) (ord : Ord) (d : Opnd) (a : Opnd) (b : Opnd) (off : BitVec 24)
  /-- ATOMS (R202), opcode 0x105. -/
  | atoms (h : Hdr) (op : AOp) (ty : Ty) (d : Opnd) (a : Opnd) (b : Opnd) (off : BitVec 24)
  /-- CAS (R202), opcode 0x106. -/
  | cas (h : Hdr) (w64 : Bool) (ty : Ty) (sc : Scope) (ord : Ord) (d : Opnd) (a : Opnd) (b : Opnd) (off : BitVec 24)
  /-- RED (R202), opcode 0x107. -/
  | red (h : Hdr) (w64 : Bool) (op : AOp) (ty : Ty) (sc : Scope) (ord : Ord) (a : Opnd) (b : Opnd) (off : BitVec 24)
  /-- FENCE (R205), opcode 0x108. -/
  | fence (h : Hdr) (sc : Scope)
  /-- WAIT (R205), opcode 0x109. -/
  | wait (h : Hdr) (nld : Nat) (nst : Nat) (ncp : Nat) (nmx : Nat) (nmt : Nat)
  /-- MONARM (R206), opcode 0x10A. -/
  | monarm (h : Hdr) (w64 : Bool) (a : Opnd) (off : BitVec 24)
  /-- MWAIT (R207), opcode 0x10B. -/
  | mwait (h : Hdr) (pd : Nat) (a : Opnd)
  /-- PREF (R208), opcode 0x10C. -/
  | pref (h : Hdr) (w64 : Bool) (chint : CacheH) (a : Opnd) (off : BitVec 24)
  /-- CWB (R209), opcode 0x10D. -/
  | cwb (h : Hdr) (w64 : Bool) (sc : Scope) (a : Opnd) (off : BitVec 24)
  /-- CINV (R210), opcode 0x10E. -/
  | cinv (h : Hdr) (w64 : Bool) (sc : Scope) (a : Opnd) (off : BitVec 24)
  /-- LBLRD (R239), opcode 0x110. -/
  | lblrd (h : Hdr) (w64 : Bool) (d : Opnd) (a : Opnd) (off : BitVec 24)
  /-- LBLSET (R239), opcode 0x111. -/
  | lblset (h : Hdr) (w64 : Bool) (lock : Bool) (a : Opnd) (b : Opnd) (off : BitVec 24)
  /-- LBLCLR (R239), opcode 0x112. -/
  | lblclr (h : Hdr) (w64 : Bool) (a : Opnd) (off : BitVec 24)
  /-- QENQ (R253), opcode 0x140. -/
  | qenq (h : Hdr) (pd : Nat) (a : Opnd) (b : Opnd)
  /-- QDEQ (R254), opcode 0x141. -/
  | qdeq (h : Hdr) (d : Opnd) (a : Opnd) (pc : Nat)
  /-- QSTAT (R255), opcode 0x142. -/
  | qstat (h : Hdr) (d : Opnd) (a : Opnd)
  /-- AMSG (R256), opcode 0x143. -/
  | amsg (h : Hdr) (pd : Nat) (a : Opnd) (b : Opnd) (hn : Nat)
  /-- AMDONE (R258), opcode 0x144. -/
  | amdone (h : Hdr)
  /-- CPY (R298), opcode 0x160. -/
  | cpy (h : Hdr) (a : Opnd) (off : BitVec 24)
  /-- CPYR (R298), opcode 0x161. -/
  | cpyr (h : Hdr) (a : Opnd) (off : BitVec 24)
  /-- BOINIT (R302), opcode 0x162. -/
  | boinit (h : Hdr) (a : Opnd) (b : Opnd) (off : BitVec 24)
  /-- BOWAIT (R302), opcode 0x163. -/
  | bowait (h : Hdr) (pd : Nat) (a : Opnd) (b : Opnd) (off : BitVec 24)
  /-- MJOIN (R310), opcode 0x164. -/
  | mjoin (h : Hdr) (d : Opnd) (a : Opnd) (b : Opnd)
  /-- MCONT (R311), opcode 0x165. -/
  | mcont (h : Hdr) (d : Opnd) (a : Opnd) (b : Opnd) (c : Opnd)
  /-- MRSLT (R313), opcode 0x166. -/
  | mrslt (h : Hdr) (d : Opnd) (a : Opnd) (b : Opnd) (c : Opnd)
  /-- MLEAVE (R314), opcode 0x167. -/
  | mleave (h : Hdr) (d : Opnd) (a : Opnd) (b : Opnd)
  /-- MSTAT (R314), opcode 0x168. -/
  | mstat (h : Hdr) (d : Opnd) (a : Opnd) (b : Opnd)
  /-- TOPEN (R273), opcode 0x180. -/
  | topen (h : Hdr) (t : Nat)
  /-- TWR (R274), opcode 0x181. -/
  | twr (h : Hdr) (t : Nat) (a : Opnd) (b : Opnd)
  /-- TSEAL (R273), opcode 0x182. -/
  | tseal (h : Hdr) (t : Nat)
  /-- TDRAIN (R273), opcode 0x183. -/
  | tdrain (h : Hdr) (t : Nat)
  /-- TRD (R274), opcode 0x184. -/
  | trd (h : Hdr) (d : Opnd) (t : Nat) (b : Opnd)
  /-- TFREE (R273), opcode 0x185. -/
  | tfree (h : Hdr) (t : Nat)
  /-- TSTAT (R275), opcode 0x186. -/
  | tstat (h : Hdr) (d : Opnd) (t : Nat) (team : Nat)
  /-- MMAB16 (R281), opcode 0x190. -/
  | mmab16 (h : Hdr) (core : CoreSel) (tc : Nat) (ta : Nat) (tb : Nat)
  /-- MMAH16 (R281), opcode 0x191. -/
  | mmah16 (h : Hdr) (core : CoreSel) (tc : Nat) (ta : Nat) (tb : Nat)
  /-- MMAF8A (R281), opcode 0x192. -/
  | mmaf8a (h : Hdr) (core : CoreSel) (tc : Nat) (ta : Nat) (tb : Nat)
  /-- MMAF8B (R281), opcode 0x193. -/
  | mmaf8b (h : Hdr) (core : CoreSel) (tc : Nat) (ta : Nat) (tb : Nat)
  /-- MMAF6A (R281), opcode 0x194. -/
  | mmaf6a (h : Hdr) (core : CoreSel) (tc : Nat) (ta : Nat) (tb : Nat)
  /-- MMAF6B (R281), opcode 0x195. -/
  | mmaf6b (h : Hdr) (core : CoreSel) (tc : Nat) (ta : Nat) (tb : Nat)
  /-- MMAF4 (R281), opcode 0x196. -/
  | mmaf4 (h : Hdr) (core : CoreSel) (tc : Nat) (ta : Nat) (tb : Nat)
  /-- MMAI8 (R281), opcode 0x197. -/
  | mmai8 (h : Hdr) (core : CoreSel) (tc : Nat) (ta : Nat) (tb : Nat)
  /-- MMAF32 (R281), opcode 0x198. -/
  | mmaf32 (h : Hdr) (core : CoreSel) (tc : Nat) (ta : Nat) (tb : Nat)
  /-- MMAD64 (R281), opcode 0x199. -/
  | mmad64 (h : Hdr) (core : CoreSel) (tc : Nat) (ta : Nat) (tb : Nat)
  /-- LUTBLD (R282), opcode 0x19A. -/
  | lutbld (h : Hdr) (core : CoreSel) (td : Nat) (ta : Nat)
  /-- LUTMM (R282), opcode 0x19B. -/
  | lutmm (h : Hdr) (wb : Nat) (core : CoreSel) (tc : Nat) (ta : Nat) (tb : Nat)
  /-- CZERO (R283), opcode 0x19C. -/
  | czero (h : Hdr) (core : CoreSel) (tc : Nat)
  /-- CCVT (R283), opcode 0x19D. -/
  | ccvt (h : Hdr) (sat : Bool) (dty : Ty) (core : CoreSel) (td : Nat) (tc : Nat) (cst : CSrc)
  /-- TSCL (R284), opcode 0x19E. -/
  | tscl (h : Hdr) (off : Bool) (t : Nat) (sel : Nat)
  /-- TPERM (R284), opcode 0x19F. -/
  | tperm (h : Hdr) (off : Bool) (t : Nat) (sel : Nat)
  /-- TWAIT (R285), opcode 0x1A0. -/
  | twait (h : Hdr) (t : Nat) (s : Nat) (sel : Nat)
  /-- SQSIG (R276), opcode 0x1A1. -/
  | sqsig (h : Hdr) (n : Nat) (a : Opnd)
  /-- SQWAIT (R276), opcode 0x1A2. -/
  | sqwait (h : Hdr) (n : Nat) (a : Opnd) (cap : Option Nat)
  /-- GCALL (R330), opcode 0x1B0. -/
  | gcall (h : Hdr) (k : Nat) (g : Nat)
  /-- GRET (R335), opcode 0x1B1. -/
  | gret (h : Hdr)
  /-- SYSC (R339), opcode 0x1B2. -/
  | sysc (h : Hdr) (k : Nat) (g : Nat)
  /-- TRMARK (R379), opcode 0x1C0. -/
  | trmark (h : Hdr) (a : Opnd) (imm : BitVec 32)
  /-- GROW_GRANT (R131): Freed granules let the oldest blocked GROW be granted. -/
  | growGrant (core : Nat)
  /-- GROW_TIMEOUT (R131): A blocked GROW.try is refused after 65,536 clk. -/
  | growTimeout (gid : Nat)
  /-- LOAD_DATA_ARRIVAL (R17): Load or atomic data arrives, writes the destination and is reported via the reorder window. -/
  | loadDataArrival (op : Nat)
  /-- STORE_COMMIT_REPORT (R204): A store's T_c returns, raising %ctime and reporting to the st counter. -/
  | storeCommitReport (op : Nat)
  /-- FENCE_COMPLETE (R68): A blocked FENCE or acquire/release fence completes once its conditions hold. -/
  | fenceComplete (gid : Nat)
  /-- WAIT_RETURN (R17): A blocked WAIT returns when counters fall to their bounds. -/
  | waitReturn (gid : Nat)
  /-- WALK_END (R211): A page walk finishes and lanes advance, park or trap. -/
  | walkEnd (gid : Nat)
  /-- OPERAND_LOG_REISSUE (R214): A resolved operand-log entry re-issues its instruction for the parked lanes. -/
  | operandLogReissue (gid : Nat) (entry : Nat)
  /-- LABEL_VERDICT (R216): Home slice accepts or refuses each lane's access on a LOCKOK page. -/
  | labelVerdict (gid : Nat)
  /-- TRAP_DELIVERY (R190): The head trap is delivered, entering handler mode at the trap entry. -/
  | trapDelivery (gid : Nat)
  /-- MWAIT_TIMEOUT (R207): An MWAIT's tick count expires and P[D] is cleared. -/
  | mwaitTimeout (gid : Nat)
  /-- BOWAIT_RETURN (R302): A barrier object's count reaches zero; BOWAIT returns and raises %ctime. -/
  | bowaitReturn (gid : Nat)
  /-- BOWAIT_TIMEOUT (R302): A BOWAIT's timeout passes and P[D] is cleared. -/
  | bowaitTimeout (gid : Nat)
  /-- SQSIG_ADD (R276): After mx drains, SQSIG adds to the signal counter. -/
  | sqsigAdd (who : Who)
  /-- SQWAIT_RETURN (R276): A signal counter reaches the threshold and SQWAIT returns. -/
  | sqwaitReturn (who : Who)
  /-- SQWAIT_TIMEOUT (R276): An SQWAIT waits 2^24 clk and raises TILE_WAIT or a sequencer fault. -/
  | sqwaitTimeout (who : Who)
  /-- TILE_STATE_REACHED (R270): A waiting tile instruction issues once its tile reaches the needed state. -/
  | tileStateReached (who : Who)
  /-- TILE_WAIT (R270): A tile-state wait of 2^24 clk raises TILE_WAIT or a sequencer fault. -/
  | tileWait (who : Who)
  /-- SEQ_OP_EXECUTE (R279): A queued matrix operation reaches the head of a core queue and runs. -/
  | seqOpExecute (core : Nat)
  /-- SEQ_OP_COMPLETE (R279): A queued operation finishes on every selected core and reports to mx. -/
  | seqOpComplete (gang : Nat) (op : Nat)
  /-- LAUNCH_RECORD_DEQUEUE (R31): Scheduler reads the next record of a queue up to the observed tail. -/
  | launchRecordDequeue (q : Nat)
  /-- DEPENDENCE_MET (R32): An acquire read finds a dependence event word at its threshold. -/
  | dependenceMet (q : Nat) (which : Nat)
  /-- GANG_ADMIT (R33): A gang, or a whole cooperative grid, is placed when resources fit. -/
  | gangAdmit (q : Nat) (places : List Place)
  /-- LNCH_APPEND (R182): After the release wait the scheduler appends the record and writes the predicate. -/
  | lnchAppend (op : Nat)
  /-- GROUP_END (R36): A group whose lanes exited ends once its counters drain. -/
  | groupEnd (gid : Nat)
  /-- LAUNCH_COMPLETE (R36): After every push is performed the status and completion words are written. -/
  | launchComplete (launch : Nat)
  /-- GROUP_SWAP (R38): A blocked active group is swapped with a ready pending group. -/
  | groupSwap (gout : Nat) (gin : Nat)
  /-- PENDING_DISPLACE (R40): A pending group ready for 4,096 clk displaces the oldest active group. -/
  | pendingDisplace (gid : Nat)
  /-- STARVATION_GUARD (R42): A run that has waited 224 issues is issued instead of the lowest-PC run. -/
  | starvationGuard (gid : Nat)
  /-- PREEMPT_SAVE (R45): After the drain the save records are written and resources freed. -/
  | preemptSave (ctx : Nat)
  /-- CONTEXT_RESTORE (R45): A saved context is restored to cores of the scheduler's choice. -/
  | contextRestore (ctx : Nat) (places : List Place)
  /-- DELTA_PUSH (R71): Eviction or a conflicting access pushes a cluster's combining deltas home. -/
  | deltaPush (cluster : Nat) (line : Nat)
  /-- OWNERSHIP_TRANSFER (R63): A host granule's transfer completes and waiting accesses proceed. -/
  | ownershipTransfer (granule : Nat)
  /-- DOMAIN_JOIN (R64): A device's Regulator copies are stepped or held to domain time on joining. -/
  | domainJoin (time : Nat)
  /-- HOME_REQUEST (R232): A request reaches its home slice, is counted, classified and performed or parked. -/
  | homeRequest (op : Nat) (lane : Nat)
  /-- REOPEN (R234): Once old copies have ended the new label is recorded and parked requests replay. -/
  | reopen (region : Nat)
  /-- INVALIDATION_ACK (R228): A holder's invalidation acknowledgement reaches home. -/
  | invalidationAck (line : Nat) (agent : Nat)
  /-- RECALL_RETURN (R229): An owner cache writes back dirty bytes and returns a recalled delegation. -/
  | recallReturn (line : Nat)
  /-- LEASE_EXTENSION (R230): Every H/4 ticks the slice sends lease extensions to PC consumers. -/
  | leaseExtension (region : Nat)
  /-- EXTENSION_ACK (R230): A consumer's extension acknowledgement arrives, possibly deregistering it. -/
  | extensionAck (region : Nat) (agent : Nat)
  /-- TIMED_UPDATE (R230): A consumer applies a timed update or extension in home-instant order. -/
  | timedUpdate (agent : Nat) (slice : Nat)
  /-- REPLAY_WAKE (R245): A wake tag fires and its parked requests re-enter the pipeline. -/
  | replayWake (slice : Nat) (tag : WakeTag)
  /-- OVERFLOW_FETCH (R246): The slice fetches an overflowed privileged request back from its ring. -/
  | overflowFetch (slice : Nat)
  /-- AM_DISPATCH (R256): The slice dispatches a batch of active messages as a handler group. -/
  | amDispatch (slice : Nat) (q : Nat)
  /-- COPY_START (R298): At its channel head, after the release wait, the engine starts a request. -/
  | copyStart (core : Nat) (chan : Nat)
  /-- CHUNK_ARBITRATION (R303): At a chunk boundary the engine grants a channel by class and round-robin. -/
  | chunkArbitration (core : Nat)
  /-- CHUNK_REPORT (R299): A chunk is acknowledged or refused and counted on its barrier object. -/
  | chunkReport (core : Nat) (chan : Nat) (link : LinkFate)
  /-- CONTRIBUTION_ARRIVAL (R311): An admitted stream's last chunk is acknowledged and recorded in its round. -/
  | contributionArrival (rec : Nat) (member : Nat)
  /-- MEMBER_DEATH (R315): A departure marks a member ABSENT and taints its cut-short stream. -/
  | memberDeath (rec : Nat) (member : Nat)
  /-- K_WRITE (R316): A device-scope store to K takes effect and may end a stall or close a round. -/
  | kWrite (rec : Nat) (k : Nat)
  /-- GATE_ENTER (R332): When GCALL's waits end the call is performed in one step. -/
  | gateEnter (gid : Nat)
  /-- GATE_RETURN (R335): All entered lanes arrived and drained; results copied and caller restored. -/
  | gateReturn (gid : Nat)
  /-- GATE_DEADLINE (R338): A gate frame's deadline passes and forces an unwind with TIMEOUT. -/
  | gateDeadline (gid : Nat)
  /-- CTX_LOAD (R353): Checks and installs a context descriptor. -/
  | ctxLoad (port : Nat)
  /-- TLB_INVAL (R353): Drops translations of a range and waits for accesses through them. -/
  | tlbInval (port : Nat)
  /-- HARVEST (R242): Turns dirty-frame records into dirty bits over a virtual range. -/
  | harvest (port : Nat)
  /-- CTX_PREEMPT (R353): Pre-empts a context and completes when its save is written. -/
  | ctxPreempt (port : Nat)
  /-- CTX_RESUME (R353): Makes a pre-empted context eligible for restore. -/
  | ctxResume (port : Nat)
  /-- CTX_KILL (R353): Kills a context, reporting items and writing launches KILLED. -/
  | ctxKill (port : Nat)
  /-- GROUP_RELEASE (R353): Releases a held group with retry, skip or end. -/
  | groupRelease (port : Nat)
  /-- FAULT_DONE (R353): Marks an operand-log entry resolved for re-issue or unresolvable. -/
  | faultDone (port : Nat)
  /-- SYSC_DONE (R357): Writes system-call results and releases the group. -/
  | syscDone (port : Nat)
  /-- LQ_SET (R353): Assigns and configures a launch queue for a context. -/
  | lqSet (port : Nat)
  /-- LQ_RESET (R353): Restarts a stopped launch queue. -/
  | lqReset (port : Nat)
  /-- ICACHE_INVAL (R353): Drops instruction-cache copies of a range for a context. -/
  | icacheInval (port : Nat)
  /-- UNKNOWN_COMMAND (R353): A command code not listed completes at once with ACCESS_DENIED. -/
  | unknownCommand (port : Nat)
  /-- SL_DIRPA_WRITE (R352): Looks up a region's directory entry and sets INDEX or MISS. -/
  | slDirpaWrite (slice : Nat) (value : Nat)
  /-- SL_DIRIDX_WRITE (R352): Selects a directory entry and clears the latch. -/
  | slDiridxWrite (slice : Nat) (value : Nat)
  /-- SL_DIRENT0_READ (R352): Latches the whole selected directory entry. -/
  | slDirent0Read (slice : Nat)
  /-- HUB_REGISTER_WRITE (R349): Write to a hub-window register without behaviour of its own, refused ones counted. -/
  | hubRegisterWrite (off : Nat) (bytes : Nat) (value : Nat)
  /-- HOST_HOT_RESET (R358): A host hot reset resets compute or only the host function by mode. -/
  | hostHotReset
  /-- HOST_LINK_TIMEOUT (R358): The host link stays down 100 ms and waiting host-memory accesses fail. -/
  | hostLinkTimeout
  /-- DEVICE_LOST (R360): No route to a device for 10 ms declares it lost. -/
  | deviceLost (dev : Nat)
  /-- DEVICE_RESET (R3): A full device reset, the only way the mode and record change. -/
  | deviceReset
  /-- POWER_GOOD (R367): Bring-up runs its stages from power-good. -/
  | powerGood (bist : List StageResult)
  /-- FULL_SERVICE_MOVE (R368): Reduced service moves to full service, rehoming memory. -/
  | fullServiceMove
  /-- ISLAND_CLOCK_SET (R369): The management controller changes an island's clock. -/
  | islandClockSet (island : Nat) (mhz : Nat)
  /-- NVME_SUBMISSION (R363): The bound I/O core checks a leased command and forwards it to the drive. -/
  | nvmeSubmission (lease : Nat) (cmd : NvmeCmd)
  /-- NVME_COMPLETION (R363): A drive completion is posted to the lessee's completion ring. -/
  | nvmeCompletion (lease : Nat)
  /-- FLASH_REQUEST (R364): The flash controller takes a request from a leased ring. -/
  | flashRequest (ring : Nat)
  /-- FLASH_COMPLETION (R364): The controller writes a request's STATUS with release. -/
  | flashCompletion (ring : Nat) (entry : Nat)
  /-- ETHERNET_FRAME (R361): A frame passes through a bound receive or transmit ring. -/
  | ethernetFrame (port : Nat) (ring : Nat) (tx : Bool) (frame : List (BitVec 8))
  /-- GET_VERSION (R366): SPDM request answered with supported versions. -/
  | getVersion (req : SpdmReq)
  /-- GET_CAPABILITIES (R366): SPDM request answered with capabilities. -/
  | getCapabilities (req : SpdmReq)
  /-- NEGOTIATE_ALGORITHMS (R366): SPDM algorithm negotiation, ECDSA P-256 and SHA-256 only. -/
  | negotiateAlgorithms (req : SpdmReq)
  /-- GET_DIGESTS (R366): SPDM request for certificate chain digests. -/
  | getDigests (req : SpdmReq)
  /-- GET_CERTIFICATE (R366): SPDM request for the certificate chain. -/
  | getCertificate (req : SpdmReq)
  /-- CHALLENGE (R366): SPDM challenge signed with the identity key. -/
  | challenge (req : SpdmReq)
  /-- GET_MEASUREMENTS (R366): SPDM request for measurement indices 1-5. -/
  | getMeasurements (req : SpdmReq)
  /-- TRACE_GAP_WRITE (R380): After drops a GAP record is written once space exists. -/
  | traceGapWrite (core : Nat)
  /-- GRANULE_HOLD_EXPIRY (R63): The 4,096-tick minimum hold of a host granule by its new owner runs out, and an opposing request that waited out the remainder starts its transfer. -/
  | granuleHoldExpiry (granule : Nat)
  /-- LINK_RETRAIN (R358): The host link finishes retraining after a hot reset, so waiting host-memory accesses proceed and the HOSTRESET notification reports the width and rate. -/
  | linkRetrain (width : Nat) (rate : Nat)
  /-- FABRIC_LINK_FAILURE (R360): A fabric link fails, so the fabric routes around it and, where no route to a device remains, the 10 ms count toward declaring it lost begins. -/
  | fabricLinkFailure (link : Nat) (noRoute : List Nat)
  /-- MIGRATION_REQUEST (R292): System software issues a migration-class copy request to a core's copy engine through the hub. -/
  | migrationRequest (core : Nat) (ctx : Nat) (rec : CopyRec)
  /-- FENCE_RW_RW (R347): A RISC-V FENCE rw,rw on a system core completes once the core's accesses have their instants, the guard has passed and host-link writes are acknowledged. -/
  | fenceRwRw (sysCore : Nat)
  /-- MONARM_COMPLETE (R206): MONARM completes and unblocks its run once the watcher is recorded and the core's Regulator reads at least T_a + G. -/
  | monarmComplete (gid : Nat)
  /-- CINV_COMPLETE (R210): CINV finishes its write-backs, delta pushes and instruction-cache invalidations and releases the blocked run. -/
  | cinvComplete (gid : Nat)
  /-- MEETING_STATUS_RETURN (R309): The Chime unit's status for MJOIN, MLEAVE, MSTAT, a refused MCONT or a closed-round MRSLT reaches the group, writes D and reports to mt. -/
  | meetingStatusReturn (op : Nat)
  /-- TILE_OPERATION_COMPLETE (R274): A lane-side tile instruction (TWR bytes written, TRD data arrived, TSEAL after earlier TWRs, state recorded) completes and reports to the group's mx counter. -/
  | tileOperationComplete (op : Nat)
  /-- DBG_TRSEL_WRITE (R376): A write of DBG_TRSEL ends the current full-detail selection, and the core selects the next matching group. -/
  | dbgTrselWrite (core : Nat) (value : Nat)
  /-- MCTP_FAILURE_REPORT (R367): In the lantern state, an MCTP message over SMBus or PCIe VDM is answered with the failure report. -/
  | mctpFailureReport (bus : Nat)
  deriving DecidableEq, Repr

/-- Width of a type in 32-bit registers (R107, R144). -/
def Ty.regs : Ty → Nat
  | .b64 | .u64 | .s64 | .f64 => 2
  | .b128 => 4
  | _ => 1

/-- Width of a type in bits (R84, R86, R88). -/
def Ty.width : Ty → Nat
  | .b32 | .u32 | .s32 | .f32 => 32
  | .b64 | .u64 | .s64 | .f64 => 64
  | .b16 | .u16 | .s16 | .f16 | .bf16 => 16
  | .b8 | .u8 | .s8 | .e4m3 | .e5m2 | .e8m0 => 8
  | .e3m2 | .e2m3 => 6
  | .u4 | .s4 | .e2m1 => 4
  | .b128 => 128

/-- Elements of a type in one lane register (Table 5-3); 1 for 32-bit and 64-bit types (R165). -/
def Ty.perReg (t : Ty) : Nat :=
  match t.width with
  | 4 => 8
  | 6 | 8 => 4
  | 16 => 2
  | _ => 1

/-- Bits from one packed element to the next (Table 5-3). -/
def Ty.pitch (t : Ty) : Nat := if t.width = 6 then 8 else t.width

/-- A signed integer type. -/
def Ty.signed : Ty → Bool
  | .s32 | .s64 | .s16 | .s8 | .s4 => true
  | _ => false

/-- An unsigned or signed integer type, a type that takes `.sat` (R147). -/
def Ty.isUS : Ty → Bool
  | .u32 | .s32 | .u64 | .s64 | .u16 | .s16 | .u8 | .s8 | .u4 | .s4 => true
  | _ => false

/-- A floating-point format of Table 5-1. -/
def Ty.isFloat : Ty → Bool
  | .f32 | .f64 | .f16 | .bf16 | .e4m3 | .e5m2 | .e3m2 | .e2m3 | .e2m1 => true
  | _ => false

/-- Special registers read or written as a pair (Table 9-3). -/
def SReg.words : SReg → Nat
  | .clock | .regtime | .ctime | .cstack | .args => 2
  | _ => 1

/-- Lane-scope special registers (Table 9-3). -/
def SReg.laneScope : SReg → Bool
  | .laneid | .quadid => true
  | _ => false

/-- RW special registers (Table 9-3). -/
def SReg.writable : SReg → Bool
  | .fpflags | .cstack => true
  | _ => false

/-- The field an operand stands in (R100). -/
inductive Pos
  | d | a | b | c
  deriving DecidableEq, Repr

/-- What an operand field accepts. -/
inductive OpClass
  | any     -- any operand of R105
  | vec     -- a vector register; as a destination also `z`
  | vreg    -- a vector register and nothing else (R193, R251, R272, R309)
  | scal    -- a scalar register
  | scalc   -- a scalar register, `z` or an inline constant
  | base    -- an address base: a vector or scalar register (R195)
  | tst     -- TSTAT's destination: vector in lane code, scalar in sequencer code (R272)
  deriving DecidableEq, Repr

/-- One register operand of an instruction: where it stands, how many registers it spans, and whether it
is written or read. -/
structure OpUse where
  pos : Pos
  o : Opnd
  w : Nat
  cls : OpClass
  dst : Bool
  src : Bool
  deriving DecidableEq, Repr

/-- Guard and scheduling byte of an instruction word; none for an event. -/
def Instr.hdr : Instr → Option Hdr
  | .nop h => some h
  | .iadd h _ _ _ _ _ _ => some h
  | .isub h _ _ _ _ _ _ => some h
  | .iadd3 h _ _ _ _ _ _ _ => some h
  | .iaddc h _ _ _ _ _ _ _ => some h
  | .imul h _ _ _ _ _ => some h
  | .imulh h _ _ _ _ _ => some h
  | .imad h _ _ _ _ _ _ _ => some h
  | .imadw h _ _ _ _ _ _ => some h
  | .idiv h _ _ _ _ _ => some h
  | .irem h _ _ _ _ _ => some h
  | .imin h _ _ _ _ _ => some h
  | .imax h _ _ _ _ _ => some h
  | .iabs h _ _ _ _ _ => some h
  | .ineg h _ _ _ _ _ => some h
  | .isad h _ _ _ _ _ _ => some h
  | .andB h _ _ _ _ _ => some h
  | .orB h _ _ _ _ _ => some h
  | .xorB h _ _ _ _ _ => some h
  | .notB h _ _ _ _ => some h
  | .logt h _ _ _ _ _ _ _ => some h
  | .shl h _ _ _ _ _ => some h
  | .shr h _ _ _ _ _ => some h
  | .rot h _ _ _ _ _ => some h
  | .catsh h _ _ _ _ _ => some h
  | .bfx h _ _ _ _ _ => some h
  | .bfi h _ _ _ _ _ => some h
  | .popc h _ _ _ _ => some h
  | .clz h _ _ _ _ => some h
  | .brev h _ _ _ _ => some h
  | .ffs h _ _ _ _ => some h
  | .icmp h _ _ _ _ _ => some h
  | .isel h _ _ _ _ _ _ => some h
  | .lea h _ _ _ _ _ _ => some h
  | .movi h _ _ => some h
  | .mov h _ _ _ _ => some h
  | .fadd h _ _ _ _ _ _ _ => some h
  | .fsub h _ _ _ _ _ _ _ => some h
  | .fmul h _ _ _ _ _ _ _ => some h
  | .ffma h _ _ _ _ _ _ _ _ => some h
  | .fmin h _ _ _ _ _ _ => some h
  | .fmax h _ _ _ _ _ _ => some h
  | .fcmp h _ _ _ _ _ _ => some h
  | .fdiv h _ _ _ _ _ _ _ => some h
  | .fsqrt h _ _ _ _ _ _ => some h
  | .frcp h _ _ _ _ _ _ _ => some h
  | .frsq h _ _ _ _ _ _ _ => some h
  | .fexp2 h _ _ _ _ => some h
  | .flog2 h _ _ _ _ => some h
  | .fsin h _ _ _ _ => some h
  | .fcos h _ _ _ _ => some h
  | .ftanh h _ _ _ _ => some h
  | .frnd h _ _ _ _ _ _ => some h
  | .fclass h _ _ _ _ => some h
  | .fscale h _ _ _ _ _ _ _ => some h
  | .fdot2 h _ _ _ _ _ _ _ => some h
  | .cvt h _ _ _ _ _ _ _ _ _ _ => some h
  | .pack h _ _ _ _ _ _ _ _ _ _ => some h
  | .unpk h _ _ _ _ _ _ => some h
  | .qpack h _ _ _ _ _ _ _ _ _ => some h
  | .qunpk h _ _ _ _ _ _ => some h
  | .dot4 h _ _ _ _ _ _ _ => some h
  | .dot8 h _ _ _ _ _ _ _ => some h
  | .dots h _ _ _ _ _ _ _ _ => some h
  | .prmb h _ _ _ _ _ => some h
  | .lxch h _ _ _ _ _ _ => some h
  | .qswp h _ _ _ _ _ => some h
  | .qbcst h _ _ _ _ _ => some h
  | .qhelp h _ => some h
  | .vote h _ _ _ _ => some h
  | .gred h _ _ _ _ _ => some h
  | .gscan h _ _ _ _ _ _ => some h
  | .matchLanes h _ _ _ _ _ => some h
  | .rdlane h _ _ _ _ _ => some h
  | .wrlane h _ _ _ _ => some h
  | .bra h _ => some h
  | .brx h _ => some h
  | .call h _ => some h
  | .callx h _ => some h
  | .ret h => some h
  | .enrol h _ => some h
  | .rejoin h _ => some h
  | .leave h _ => some h
  | .exit h => some h
  | .yield h => some h
  | .tbar h => some h
  | .tbara h => some h
  | .lnch h _ _ _ => some h
  | .trap h _ => some h
  | .brk h _ => some h
  | .tret h _ => some h
  | .tqrd h _ => some h
  | .grow h _ _ _ => some h
  | .shrink h _ => some h
  | .rdsr h _ _ => some h
  | .wrsr h _ _ => some h
  | .pset h _ _ _ => some h
  | .pmov h _ _ _ => some h
  | .xget h _ _ _ => some h
  | .xput h _ _ _ => some h
  | .ld h _ _ _ _ _ _ _ _ => some h
  | .st h _ _ _ _ _ _ _ _ => some h
  | .lds h _ _ _ _ => some h
  | .sts h _ _ _ _ => some h
  | .atom h _ _ _ _ _ _ _ _ _ => some h
  | .atoms h _ _ _ _ _ _ => some h
  | .cas h _ _ _ _ _ _ _ _ => some h
  | .red h _ _ _ _ _ _ _ _ => some h
  | .fence h _ => some h
  | .wait h _ _ _ _ _ => some h
  | .monarm h _ _ _ => some h
  | .mwait h _ _ => some h
  | .pref h _ _ _ _ => some h
  | .cwb h _ _ _ _ => some h
  | .cinv h _ _ _ _ => some h
  | .lblrd h _ _ _ _ => some h
  | .lblset h _ _ _ _ _ => some h
  | .lblclr h _ _ _ => some h
  | .qenq h _ _ _ => some h
  | .qdeq h _ _ _ => some h
  | .qstat h _ _ => some h
  | .amsg h _ _ _ _ => some h
  | .amdone h => some h
  | .cpy h _ _ => some h
  | .cpyr h _ _ => some h
  | .boinit h _ _ _ => some h
  | .bowait h _ _ _ _ => some h
  | .mjoin h _ _ _ => some h
  | .mcont h _ _ _ _ => some h
  | .mrslt h _ _ _ _ => some h
  | .mleave h _ _ _ => some h
  | .mstat h _ _ _ => some h
  | .topen h _ => some h
  | .twr h _ _ _ => some h
  | .tseal h _ => some h
  | .tdrain h _ => some h
  | .trd h _ _ _ => some h
  | .tfree h _ => some h
  | .tstat h _ _ _ => some h
  | .mmab16 h _ _ _ _ => some h
  | .mmah16 h _ _ _ _ => some h
  | .mmaf8a h _ _ _ _ => some h
  | .mmaf8b h _ _ _ _ => some h
  | .mmaf6a h _ _ _ _ => some h
  | .mmaf6b h _ _ _ _ => some h
  | .mmaf4 h _ _ _ _ => some h
  | .mmai8 h _ _ _ _ => some h
  | .mmaf32 h _ _ _ _ => some h
  | .mmad64 h _ _ _ _ => some h
  | .lutbld h _ _ _ => some h
  | .lutmm h _ _ _ _ _ => some h
  | .czero h _ _ => some h
  | .ccvt h _ _ _ _ _ _ => some h
  | .tscl h _ _ _ => some h
  | .tperm h _ _ _ => some h
  | .twait h _ _ _ => some h
  | .sqsig h _ _ => some h
  | .sqwait h _ _ _ => some h
  | .gcall h _ _ => some h
  | .gret h => some h
  | .sysc h _ _ => some h
  | .trmark h _ _ => some h
  | .growGrant _ => none
  | .growTimeout _ => none
  | .loadDataArrival _ => none
  | .storeCommitReport _ => none
  | .fenceComplete _ => none
  | .waitReturn _ => none
  | .walkEnd _ => none
  | .operandLogReissue _ _ => none
  | .labelVerdict _ => none
  | .trapDelivery _ => none
  | .mwaitTimeout _ => none
  | .bowaitReturn _ => none
  | .bowaitTimeout _ => none
  | .sqsigAdd _ => none
  | .sqwaitReturn _ => none
  | .sqwaitTimeout _ => none
  | .tileStateReached _ => none
  | .tileWait _ => none
  | .seqOpExecute _ => none
  | .seqOpComplete _ _ => none
  | .launchRecordDequeue _ => none
  | .dependenceMet _ _ => none
  | .gangAdmit _ _ => none
  | .lnchAppend _ => none
  | .groupEnd _ => none
  | .launchComplete _ => none
  | .groupSwap _ _ => none
  | .pendingDisplace _ => none
  | .starvationGuard _ => none
  | .preemptSave _ => none
  | .contextRestore _ _ => none
  | .deltaPush _ _ => none
  | .ownershipTransfer _ => none
  | .domainJoin _ => none
  | .homeRequest _ _ => none
  | .reopen _ => none
  | .invalidationAck _ _ => none
  | .recallReturn _ => none
  | .leaseExtension _ => none
  | .extensionAck _ _ => none
  | .timedUpdate _ _ => none
  | .replayWake _ _ => none
  | .overflowFetch _ => none
  | .amDispatch _ _ => none
  | .copyStart _ _ => none
  | .chunkArbitration _ => none
  | .chunkReport _ _ _ => none
  | .contributionArrival _ _ => none
  | .memberDeath _ _ => none
  | .kWrite _ _ => none
  | .gateEnter _ => none
  | .gateReturn _ => none
  | .gateDeadline _ => none
  | .ctxLoad _ => none
  | .tlbInval _ => none
  | .harvest _ => none
  | .ctxPreempt _ => none
  | .ctxResume _ => none
  | .ctxKill _ => none
  | .groupRelease _ => none
  | .faultDone _ => none
  | .syscDone _ => none
  | .lqSet _ => none
  | .lqReset _ => none
  | .icacheInval _ => none
  | .unknownCommand _ => none
  | .slDirpaWrite _ _ => none
  | .slDiridxWrite _ _ => none
  | .slDirent0Read _ => none
  | .hubRegisterWrite _ _ _ => none
  | .hostHotReset  => none
  | .hostLinkTimeout  => none
  | .deviceLost _ => none
  | .deviceReset  => none
  | .powerGood _ => none
  | .fullServiceMove  => none
  | .islandClockSet _ _ => none
  | .nvmeSubmission _ _ => none
  | .nvmeCompletion _ => none
  | .flashRequest _ => none
  | .flashCompletion _ _ => none
  | .ethernetFrame _ _ _ _ => none
  | .getVersion _ => none
  | .getCapabilities _ => none
  | .negotiateAlgorithms _ => none
  | .getDigests _ => none
  | .getCertificate _ => none
  | .challenge _ => none
  | .getMeasurements _ => none
  | .traceGapWrite _ => none
  | .granuleHoldExpiry _ => none
  | .linkRetrain _ _ => none
  | .fabricLinkFailure _ _ => none
  | .migrationRequest _ _ _ => none
  | .fenceRwRw _ => none
  | .monarmComplete _ => none
  | .cinvComplete _ => none
  | .meetingStatusReturn _ => none
  | .tileOperationComplete _ => none
  | .dbgTrselWrite _ _ => none
  | .mctpFailureReport _ => none

/-- The register operands of an instruction, in the order D, A, B, C (R107). -/
def Instr.opers : Instr → List OpUse
  | .nop _ => []
  | .iadd _ ty _ _ d a b => [⟨.d, d, ty.regs, .any, true, false⟩, ⟨.a, a, ty.regs, .any, false, true⟩, ⟨.b, b, ty.regs, .any, false, true⟩]
  | .isub _ ty _ _ d a b => [⟨.d, d, ty.regs, .any, true, false⟩, ⟨.a, a, ty.regs, .any, false, true⟩, ⟨.b, b, ty.regs, .any, false, true⟩]
  | .iadd3 _ ty _ _ d a b c => [⟨.d, d, ty.regs, .any, true, false⟩, ⟨.a, a, ty.regs, .any, false, true⟩, ⟨.b, b, ty.regs, .any, false, true⟩, ⟨.c, c, ty.regs, .any, false, true⟩]
  | .iaddc _ _ _ d a b _ _ => [⟨.d, d, 1, .any, true, false⟩, ⟨.a, a, 1, .any, false, true⟩, ⟨.b, b, 1, .any, false, true⟩]
  | .imul _ ty _ d a b => [⟨.d, d, ty.regs, .any, true, false⟩, ⟨.a, a, ty.regs, .any, false, true⟩, ⟨.b, b, ty.regs, .any, false, true⟩]
  | .imulh _ ty _ d a b => [⟨.d, d, ty.regs, .any, true, false⟩, ⟨.a, a, ty.regs, .any, false, true⟩, ⟨.b, b, ty.regs, .any, false, true⟩]
  | .imad _ ty _ _ d a b c => [⟨.d, d, ty.regs, .any, true, false⟩, ⟨.a, a, ty.regs, .any, false, true⟩, ⟨.b, b, ty.regs, .any, false, true⟩, ⟨.c, c, ty.regs, .any, false, true⟩]
  | .imadw _ _ _ d a b c => [⟨.d, d, 2, .any, true, false⟩, ⟨.a, a, 1, .any, false, true⟩, ⟨.b, b, 1, .any, false, true⟩, ⟨.c, c, 2, .any, false, true⟩]
  | .idiv _ ty _ d a b => [⟨.d, d, ty.regs, .any, true, false⟩, ⟨.a, a, ty.regs, .any, false, true⟩, ⟨.b, b, ty.regs, .any, false, true⟩]
  | .irem _ ty _ d a b => [⟨.d, d, ty.regs, .any, true, false⟩, ⟨.a, a, ty.regs, .any, false, true⟩, ⟨.b, b, ty.regs, .any, false, true⟩]
  | .imin _ ty _ d a b => [⟨.d, d, ty.regs, .any, true, false⟩, ⟨.a, a, ty.regs, .any, false, true⟩, ⟨.b, b, ty.regs, .any, false, true⟩]
  | .imax _ ty _ d a b => [⟨.d, d, ty.regs, .any, true, false⟩, ⟨.a, a, ty.regs, .any, false, true⟩, ⟨.b, b, ty.regs, .any, false, true⟩]
  | .iabs _ ty _ _ d a => [⟨.d, d, ty.regs, .any, true, false⟩, ⟨.a, a, ty.regs, .any, false, true⟩]
  | .ineg _ ty _ _ d a => [⟨.d, d, ty.regs, .any, true, false⟩, ⟨.a, a, ty.regs, .any, false, true⟩]
  | .isad _ _ _ d a b c => [⟨.d, d, 1, .any, true, false⟩, ⟨.a, a, 1, .any, false, true⟩, ⟨.b, b, 1, .any, false, true⟩, ⟨.c, c, 1, .any, false, true⟩]
  | .andB _ ty _ d a b => [⟨.d, d, ty.regs, .any, true, false⟩, ⟨.a, a, ty.regs, .any, false, true⟩, ⟨.b, b, ty.regs, .any, false, true⟩]
  | .orB _ ty _ d a b => [⟨.d, d, ty.regs, .any, true, false⟩, ⟨.a, a, ty.regs, .any, false, true⟩, ⟨.b, b, ty.regs, .any, false, true⟩]
  | .xorB _ ty _ d a b => [⟨.d, d, ty.regs, .any, true, false⟩, ⟨.a, a, ty.regs, .any, false, true⟩, ⟨.b, b, ty.regs, .any, false, true⟩]
  | .notB _ ty _ d a => [⟨.d, d, ty.regs, .any, true, false⟩, ⟨.a, a, ty.regs, .any, false, true⟩]
  | .logt _ ty _ d a b c _ => [⟨.d, d, ty.regs, .any, true, false⟩, ⟨.a, a, ty.regs, .any, false, true⟩, ⟨.b, b, ty.regs, .any, false, true⟩, ⟨.c, c, ty.regs, .any, false, true⟩]
  | .shl _ ty _ d a b => [⟨.d, d, ty.regs, .any, true, false⟩, ⟨.a, a, ty.regs, .any, false, true⟩, ⟨.b, b, 1, .any, false, true⟩]
  | .shr _ ty _ d a b => [⟨.d, d, ty.regs, .any, true, false⟩, ⟨.a, a, ty.regs, .any, false, true⟩, ⟨.b, b, 1, .any, false, true⟩]
  | .rot _ ty _ d a b => [⟨.d, d, ty.regs, .any, true, false⟩, ⟨.a, a, ty.regs, .any, false, true⟩, ⟨.b, b, 1, .any, false, true⟩]
  | .catsh _ _ d a b c => [⟨.d, d, 1, .any, true, false⟩, ⟨.a, a, 1, .any, false, true⟩, ⟨.b, b, 1, .any, false, true⟩, ⟨.c, c, 1, .any, false, true⟩]
  | .bfx _ _ _ d a b => [⟨.d, d, 1, .any, true, false⟩, ⟨.a, a, 1, .any, false, true⟩, ⟨.b, b, 1, .any, false, true⟩]
  | .bfi _ _ d a b c => [⟨.d, d, 1, .any, true, false⟩, ⟨.a, a, 1, .any, false, true⟩, ⟨.b, b, 1, .any, false, true⟩, ⟨.c, c, 1, .any, false, true⟩]
  | .popc _ ty _ d a => [⟨.d, d, 1, .any, true, false⟩, ⟨.a, a, ty.regs, .any, false, true⟩]
  | .clz _ ty _ d a => [⟨.d, d, 1, .any, true, false⟩, ⟨.a, a, ty.regs, .any, false, true⟩]
  | .brev _ ty _ d a => [⟨.d, d, ty.regs, .any, true, false⟩, ⟨.a, a, ty.regs, .any, false, true⟩]
  | .ffs _ ty _ d a => [⟨.d, d, 1, .any, true, false⟩, ⟨.a, a, ty.regs, .any, false, true⟩]
  | .icmp _ _ ty _ a b => [⟨.a, a, ty.regs, .any, false, true⟩, ⟨.b, b, ty.regs, .any, false, true⟩]
  | .isel _ ty _ d a b _ => [⟨.d, d, ty.regs, .any, true, false⟩, ⟨.a, a, ty.regs, .any, false, true⟩, ⟨.b, b, ty.regs, .any, false, true⟩]
  | .lea _ ty _ d a b _ => [⟨.d, d, ty.regs, .any, true, false⟩, ⟨.a, a, ty.regs, .any, false, true⟩, ⟨.b, b, 1, .any, false, true⟩]
  | .movi _ d _ => [⟨.d, d, 1, .any, true, false⟩]
  | .mov _ ty _ d a => [⟨.d, d, ty.regs, .any, true, false⟩, ⟨.a, a, ty.regs, .any, false, true⟩]
  | .fadd _ ty _ _ _ d a b => [⟨.d, d, ty.regs, .any, true, false⟩, ⟨.a, a, ty.regs, .any, false, true⟩, ⟨.b, b, ty.regs, .any, false, true⟩]
  | .fsub _ ty _ _ _ d a b => [⟨.d, d, ty.regs, .any, true, false⟩, ⟨.a, a, ty.regs, .any, false, true⟩, ⟨.b, b, ty.regs, .any, false, true⟩]
  | .fmul _ ty _ _ _ d a b => [⟨.d, d, ty.regs, .any, true, false⟩, ⟨.a, a, ty.regs, .any, false, true⟩, ⟨.b, b, ty.regs, .any, false, true⟩]
  | .ffma _ ty _ _ _ d a b c => [⟨.d, d, ty.regs, .any, true, false⟩, ⟨.a, a, ty.regs, .any, false, true⟩, ⟨.b, b, ty.regs, .any, false, true⟩, ⟨.c, c, ty.regs, .any, false, true⟩]
  | .fmin _ ty _ _ d a b => [⟨.d, d, ty.regs, .any, true, false⟩, ⟨.a, a, ty.regs, .any, false, true⟩, ⟨.b, b, ty.regs, .any, false, true⟩]
  | .fmax _ ty _ _ d a b => [⟨.d, d, ty.regs, .any, true, false⟩, ⟨.a, a, ty.regs, .any, false, true⟩, ⟨.b, b, ty.regs, .any, false, true⟩]
  | .fcmp _ _ ty _ _ a b => [⟨.a, a, ty.regs, .any, false, true⟩, ⟨.b, b, ty.regs, .any, false, true⟩]
  | .fdiv _ ty _ _ _ d a b => [⟨.d, d, ty.regs, .any, true, false⟩, ⟨.a, a, ty.regs, .any, false, true⟩, ⟨.b, b, ty.regs, .any, false, true⟩]
  | .fsqrt _ ty _ _ _ d a => [⟨.d, d, ty.regs, .any, true, false⟩, ⟨.a, a, ty.regs, .any, false, true⟩]
  | .frcp _ ty _ _ _ _ d a => [⟨.d, d, ty.regs, .any, true, false⟩, ⟨.a, a, ty.regs, .any, false, true⟩]
  | .frsq _ ty _ _ _ _ d a => [⟨.d, d, ty.regs, .any, true, false⟩, ⟨.a, a, ty.regs, .any, false, true⟩]
  | .fexp2 _ _ _ d a => [⟨.d, d, 1, .any, true, false⟩, ⟨.a, a, 1, .any, false, true⟩]
  | .flog2 _ _ _ d a => [⟨.d, d, 1, .any, true, false⟩, ⟨.a, a, 1, .any, false, true⟩]
  | .fsin _ _ _ d a => [⟨.d, d, 1, .any, true, false⟩, ⟨.a, a, 1, .any, false, true⟩]
  | .fcos _ _ _ d a => [⟨.d, d, 1, .any, true, false⟩, ⟨.a, a, 1, .any, false, true⟩]
  | .ftanh _ _ _ d a => [⟨.d, d, 1, .any, true, false⟩, ⟨.a, a, 1, .any, false, true⟩]
  | .frnd _ ty _ _ _ d a => [⟨.d, d, ty.regs, .any, true, false⟩, ⟨.a, a, ty.regs, .any, false, true⟩]
  | .fclass _ ty _ d a => [⟨.d, d, 1, .any, true, false⟩, ⟨.a, a, ty.regs, .any, false, true⟩]
  | .fscale _ ty _ _ _ d a b => [⟨.d, d, ty.regs, .any, true, false⟩, ⟨.a, a, ty.regs, .any, false, true⟩, ⟨.b, b, 1, .any, false, true⟩]
  | .fdot2 _ _ _ _ d a b c => [⟨.d, d, 1, .any, true, false⟩, ⟨.a, a, 1, .any, false, true⟩, ⟨.b, b, 1, .any, false, true⟩, ⟨.c, c, 1, .any, false, true⟩]
  | .cvt _ dty sty _ _ _ _ d _ a _ => [⟨.d, d, dty.regs, .any, true, false⟩, ⟨.a, a, sty.regs, .any, false, true⟩]
  | .pack _ _ _ _ _ _ _ d a b _ => [⟨.d, d, 1, .any, true, false⟩, ⟨.a, a, 1, .any, false, true⟩, ⟨.b, b, 1, .any, false, true⟩]
  | .unpk _ _ _ _ d a _ => [⟨.d, d, 2, .any, true, false⟩, ⟨.a, a, 1, .any, false, true⟩]
  | .qpack _ _ _ _ _ _ _ d a _ => [⟨.d, d, 1, .any, true, false⟩, ⟨.a, a, 1, .any, false, true⟩]
  | .qunpk _ _ _ _ d a _ => [⟨.d, d, 1, .any, true, false⟩, ⟨.a, a, 1, .any, false, true⟩]
  | .dot4 _ _ _ _ d a b c => [⟨.d, d, 1, .any, true, false⟩, ⟨.a, a, 1, .any, false, true⟩, ⟨.b, b, 1, .any, false, true⟩, ⟨.c, c, 1, .any, false, true⟩]
  | .dot8 _ _ _ _ d a b c => [⟨.d, d, 1, .any, true, false⟩, ⟨.a, a, 1, .any, false, true⟩, ⟨.b, b, 1, .any, false, true⟩, ⟨.c, c, 1, .any, false, true⟩]
  | .dots _ _ _ d a b c _ _ => [⟨.d, d, 1, .any, true, true⟩, ⟨.a, a, 1, .any, false, true⟩, ⟨.b, b, 1, .any, false, true⟩, ⟨.c, c, 1, .any, false, true⟩]
  | .prmb _ _ d a b c => [⟨.d, d, 1, .any, true, false⟩, ⟨.a, a, 1, .any, false, true⟩, ⟨.b, b, 1, .any, false, true⟩, ⟨.c, c, 1, .any, false, true⟩]
  | .lxch _ _ ty _ d a b => [⟨.d, d, ty.regs, .vec, true, false⟩, ⟨.a, a, ty.regs, .any, false, true⟩, ⟨.b, b, 1, .any, false, true⟩]
  | .qswp _ _ ty _ d a => [⟨.d, d, ty.regs, .vec, true, false⟩, ⟨.a, a, ty.regs, .any, false, true⟩]
  | .qbcst _ ty _ d a _ => [⟨.d, d, ty.regs, .vec, true, false⟩, ⟨.a, a, ty.regs, .any, false, true⟩]
  | .qhelp _ _ => []
  | .vote _ _ _ d _ => match d with | .reg r => [⟨.d, r, 1, .vec, true, false⟩] | .pred _ => []
  | .gred _ _ ty _ d a => [⟨.d, d, ty.regs, .vec, true, false⟩, ⟨.a, a, ty.regs, .any, false, true⟩]
  | .gscan _ _ ty _ _ d a => [⟨.d, d, ty.regs, .vec, true, false⟩, ⟨.a, a, ty.regs, .any, false, true⟩]
  | .matchLanes _ _ ty _ d a => [⟨.d, d, 1, .vec, true, false⟩, ⟨.a, a, ty.regs, .any, false, true⟩]
  | .rdlane _ ty _ d a b => [⟨.d, d, ty.regs, .vec, true, false⟩, ⟨.a, a, ty.regs, .any, false, true⟩, ⟨.b, b, 1, .scalc, false, true⟩]
  | .wrlane _ ty d a b => [⟨.d, d, ty.regs, .vec, true, false⟩, ⟨.a, a, ty.regs, .any, false, true⟩, ⟨.b, b, 1, .scalc, false, true⟩]
  | .bra _ _ => []
  | .brx _ a => [⟨.a, a, 2, .any, false, true⟩]
  | .call _ _ => []
  | .callx _ a => [⟨.a, a, 2, .any, false, true⟩]
  | .ret _ => []
  | .enrol _ _ => []
  | .rejoin _ _ => []
  | .leave _ _ => []
  | .exit _ => []
  | .yield _ => []
  | .tbar _ => []
  | .tbara _ => []
  | .lnch _ _ a _ => [⟨.a, a, 1, .scal, false, true⟩]
  | .trap _ _ => []
  | .brk _ _ => []
  | .tret _ _ => []
  | .tqrd _ d => [⟨.d, d, 1, .vreg, true, false⟩]
  | .grow _ _ _ _ => []
  | .shrink _ _ => []
  | .rdsr _ d sr => [⟨.d, d, sr.words, .any, true, false⟩]
  | .wrsr _ a sr => [⟨.a, a, sr.words, .scalc, false, true⟩]
  | .pset _ _ a b => [⟨.a, a, 1, .any, false, true⟩, ⟨.b, b, 1, .any, false, true⟩]
  | .pmov _ toP _ r => if toP then [⟨.a, r, 1, .any, false, true⟩] else [⟨.d, r, 1, .any, true, false⟩]
  | .xget _ d a b => [⟨.d, d, 1, .vec, true, false⟩, ⟨.a, a, 1, .any, false, true⟩, ⟨.b, b, 1, .any, false, true⟩]
  | .xput _ a b c => [⟨.a, a, 1, .any, false, true⟩, ⟨.b, b, 1, .any, false, true⟩, ⟨.c, c, 1, .any, false, true⟩]
  | .ld _ w64 ty _ _ _ d a _ => [⟨.d, d, ty.regs, .any, true, false⟩, ⟨.a, a, if w64 then 2 else 1, .base, false, true⟩]
  | .st _ w64 ty _ _ _ a b _ => [⟨.a, a, if w64 then 2 else 1, .base, false, true⟩, ⟨.b, b, ty.regs, .any, false, true⟩]
  | .lds _ ty d a _ => [⟨.d, d, ty.regs, .any, true, false⟩, ⟨.a, a, 1, .base, false, true⟩]
  | .sts _ ty a b _ => [⟨.a, a, 1, .base, false, true⟩, ⟨.b, b, ty.regs, .any, false, true⟩]
  | .atom _ w64 _ ty _ _ d a b _ => [⟨.d, d, ty.regs, .any, true, false⟩, ⟨.a, a, if w64 then 2 else 1, .base, false, true⟩, ⟨.b, b, ty.regs, .any, false, true⟩]
  | .atoms _ _ ty d a b _ => [⟨.d, d, ty.regs, .any, true, false⟩, ⟨.a, a, 1, .base, false, true⟩, ⟨.b, b, ty.regs, .any, false, true⟩]
  | .cas _ w64 ty _ _ d a b _ => [⟨.d, d, ty.regs, .any, true, false⟩, ⟨.a, a, if w64 then 2 else 1, .base, false, true⟩, ⟨.b, b, 2 * ty.regs, .any, false, true⟩]
  | .red _ w64 _ ty _ _ a b _ => [⟨.a, a, if w64 then 2 else 1, .base, false, true⟩, ⟨.b, b, ty.regs, .any, false, true⟩]
  | .fence _ _ => []
  | .wait _ _ _ _ _ _ => []
  | .monarm _ w64 a _ => [⟨.a, a, if w64 then 2 else 1, .base, false, true⟩]
  | .mwait _ _ a => [⟨.a, a, 1, .scalc, false, true⟩]
  | .pref _ w64 _ a _ => [⟨.a, a, if w64 then 2 else 1, .base, false, true⟩]
  | .cwb _ w64 _ a _ => [⟨.a, a, if w64 then 2 else 1, .base, false, true⟩]
  | .cinv _ w64 _ a _ => [⟨.a, a, if w64 then 2 else 1, .base, false, true⟩]
  | .lblrd _ w64 d a _ => [⟨.d, d, 1, .vec, true, false⟩, ⟨.a, a, if w64 then 2 else 1, .base, false, true⟩]
  | .lblset _ w64 _ a b _ => [⟨.a, a, if w64 then 2 else 1, .base, false, true⟩, ⟨.b, b, 1, .any, false, true⟩]
  | .lblclr _ w64 a _ => [⟨.a, a, if w64 then 2 else 1, .base, false, true⟩]
  | .qenq _ _ a b => [⟨.a, a, 1, .scal, false, true⟩, ⟨.b, b, 4, .vec, false, true⟩]
  | .qdeq _ d a _ => [⟨.d, d, 4, .vreg, true, false⟩, ⟨.a, a, 1, .scal, false, true⟩]
  | .qstat _ d a => [⟨.d, d, 4, .vreg, true, false⟩, ⟨.a, a, 1, .scal, false, true⟩]
  | .amsg _ _ a b _ => [⟨.a, a, 1, .scal, false, true⟩, ⟨.b, b, 4, .vec, false, true⟩]
  | .amdone _ => []
  | .cpy _ a _ => [⟨.a, a, 1, .scal, false, true⟩]
  | .cpyr _ a _ => [⟨.a, a, 1, .scal, false, true⟩]
  | .boinit _ a b _ => [⟨.a, a, 1, .scal, false, true⟩, ⟨.b, b, 1, .scalc, false, true⟩]
  | .bowait _ _ a b _ => [⟨.a, a, 1, .scal, false, true⟩, ⟨.b, b, 1, .scalc, false, true⟩]
  | .mjoin _ d a b => [⟨.d, d, 1, .vreg, true, false⟩, ⟨.a, a, 2, .scal, false, true⟩, ⟨.b, b, 1, .scalc, false, true⟩]
  | .mcont _ d a b c => [⟨.d, d, 1, .vreg, true, false⟩, ⟨.a, a, 2, .scal, false, true⟩, ⟨.b, b, 2, .scal, false, true⟩, ⟨.c, c, 2, .scal, false, true⟩]
  | .mrslt _ d a b c => [⟨.d, d, 1, .vreg, true, false⟩, ⟨.a, a, 2, .scal, false, true⟩, ⟨.b, b, 2, .scal, false, true⟩, ⟨.c, c, 2, .scal, false, true⟩]
  | .mleave _ d a b => [⟨.d, d, 1, .vreg, true, false⟩, ⟨.a, a, 2, .scal, false, true⟩, ⟨.b, b, 1, .scalc, false, true⟩]
  | .mstat _ d a b => [⟨.d, d, 4, .vreg, true, false⟩, ⟨.a, a, 2, .scal, false, true⟩, ⟨.b, b, 1, .scalc, false, true⟩]
  | .topen _ _ => []
  | .twr _ _ a b => [⟨.a, a, 1, .base, false, true⟩, ⟨.b, b, 4, .vec, false, true⟩]
  | .tseal _ _ => []
  | .tdrain _ _ => []
  | .trd _ d _ b => [⟨.d, d, 4, .vreg, true, false⟩, ⟨.b, b, 1, .base, false, true⟩]
  | .tfree _ _ => []
  | .tstat _ d _ _ => [⟨.d, d, 1, .tst, true, false⟩]
  | .mmab16 _ _ _ _ _ => []
  | .mmah16 _ _ _ _ _ => []
  | .mmaf8a _ _ _ _ _ => []
  | .mmaf8b _ _ _ _ _ => []
  | .mmaf6a _ _ _ _ _ => []
  | .mmaf6b _ _ _ _ _ => []
  | .mmaf4 _ _ _ _ _ => []
  | .mmai8 _ _ _ _ _ => []
  | .mmaf32 _ _ _ _ _ => []
  | .mmad64 _ _ _ _ _ => []
  | .lutbld _ _ _ _ => []
  | .lutmm _ _ _ _ _ _ => []
  | .czero _ _ _ => []
  | .ccvt _ _ _ _ _ _ _ => []
  | .tscl _ _ _ _ => []
  | .tperm _ _ _ _ => []
  | .twait _ _ _ _ => []
  | .sqsig _ _ a => [⟨.a, a, 1, .scalc, false, true⟩]
  | .sqwait _ _ a _ => [⟨.a, a, 1, .scalc, false, true⟩]
  | .gcall _ _ _ => []
  | .gret _ => []
  | .sysc _ _ _ => []
  | .trmark _ a _ => [⟨.a, a, 1, .scalc, false, true⟩]
  | .growGrant _ => []
  | .growTimeout _ => []
  | .loadDataArrival _ => []
  | .storeCommitReport _ => []
  | .fenceComplete _ => []
  | .waitReturn _ => []
  | .walkEnd _ => []
  | .operandLogReissue _ _ => []
  | .labelVerdict _ => []
  | .trapDelivery _ => []
  | .mwaitTimeout _ => []
  | .bowaitReturn _ => []
  | .bowaitTimeout _ => []
  | .sqsigAdd _ => []
  | .sqwaitReturn _ => []
  | .sqwaitTimeout _ => []
  | .tileStateReached _ => []
  | .tileWait _ => []
  | .seqOpExecute _ => []
  | .seqOpComplete _ _ => []
  | .launchRecordDequeue _ => []
  | .dependenceMet _ _ => []
  | .gangAdmit _ _ => []
  | .lnchAppend _ => []
  | .groupEnd _ => []
  | .launchComplete _ => []
  | .groupSwap _ _ => []
  | .pendingDisplace _ => []
  | .starvationGuard _ => []
  | .preemptSave _ => []
  | .contextRestore _ _ => []
  | .deltaPush _ _ => []
  | .ownershipTransfer _ => []
  | .domainJoin _ => []
  | .homeRequest _ _ => []
  | .reopen _ => []
  | .invalidationAck _ _ => []
  | .recallReturn _ => []
  | .leaseExtension _ => []
  | .extensionAck _ _ => []
  | .timedUpdate _ _ => []
  | .replayWake _ _ => []
  | .overflowFetch _ => []
  | .amDispatch _ _ => []
  | .copyStart _ _ => []
  | .chunkArbitration _ => []
  | .chunkReport _ _ _ => []
  | .contributionArrival _ _ => []
  | .memberDeath _ _ => []
  | .kWrite _ _ => []
  | .gateEnter _ => []
  | .gateReturn _ => []
  | .gateDeadline _ => []
  | .ctxLoad _ => []
  | .tlbInval _ => []
  | .harvest _ => []
  | .ctxPreempt _ => []
  | .ctxResume _ => []
  | .ctxKill _ => []
  | .groupRelease _ => []
  | .faultDone _ => []
  | .syscDone _ => []
  | .lqSet _ => []
  | .lqReset _ => []
  | .icacheInval _ => []
  | .unknownCommand _ => []
  | .slDirpaWrite _ _ => []
  | .slDiridxWrite _ _ => []
  | .slDirent0Read _ => []
  | .hubRegisterWrite _ _ _ => []
  | .hostHotReset  => []
  | .hostLinkTimeout  => []
  | .deviceLost _ => []
  | .deviceReset  => []
  | .powerGood _ => []
  | .fullServiceMove  => []
  | .islandClockSet _ _ => []
  | .nvmeSubmission _ _ => []
  | .nvmeCompletion _ => []
  | .flashRequest _ => []
  | .flashCompletion _ _ => []
  | .ethernetFrame _ _ _ _ => []
  | .getVersion _ => []
  | .getCapabilities _ => []
  | .negotiateAlgorithms _ => []
  | .getDigests _ => []
  | .getCertificate _ => []
  | .challenge _ => []
  | .getMeasurements _ => []
  | .traceGapWrite _ => []
  | .granuleHoldExpiry _ => []
  | .linkRetrain _ _ => []
  | .fabricLinkFailure _ _ => []
  | .migrationRequest _ _ _ => []
  | .fenceRwRw _ => []
  | .monarmComplete _ => []
  | .cinvComplete _ => []
  | .meetingStatusReturn _ => []
  | .tileOperationComplete _ => []
  | .dbgTrselWrite _ _ => []
  | .mctpFailureReport _ => []

/-- The predicate fields of an instruction, with `true` for a destination (R106). -/
def Instr.predUses : Instr → List (Nat × Bool)
  | .iaddc _ _ _ _ _ _ cin cout => [(cin, false), (cout, true)]
  | .icmp _ _ _ pd _ _ => [(pd, true)]
  | .isel _ _ _ _ _ _ pc => [(pc, false)]
  | .fcmp _ _ _ _ pd _ _ => [(pd, true)]
  | .vote _ _ _ d pa => (match d with | .pred p => [(p, true)] | .reg _ => []) ++ [(pa, false)]
  | .lnch _ pd _ _ => [(pd, true)]
  | .grow _ _ pd _ => [(pd, true)]
  | .pset _ pd _ _ => [(pd, true)]
  | .pmov _ toP p _ => [(p, toP)]
  | .mwait _ pd _ => [(pd, true)]
  | .qenq _ pd _ _ => [(pd, true)]
  | .qdeq _ _ _ pc => [(pc, true)]
  | .amsg _ pd _ _ _ => [(pd, true)]
  | .bowait _ pd _ _ _ => [(pd, true)]
  | _ => []

/-- Opcodes on which UNI may be set (R104, R145). -/
def Instr.uniAllowed : Instr → Bool
  | .nop _ => true
  | .iadd _ _ _ _ _ _ _ => true
  | .isub _ _ _ _ _ _ _ => true
  | .iadd3 _ _ _ _ _ _ _ _ => true
  | .iaddc _ _ _ _ _ _ _ _ => true
  | .imul _ _ _ _ _ _ => true
  | .imulh _ _ _ _ _ _ => true
  | .imad _ _ _ _ _ _ _ _ => true
  | .imadw _ _ _ _ _ _ _ => true
  | .idiv _ _ _ _ _ _ => true
  | .irem _ _ _ _ _ _ => true
  | .imin _ _ _ _ _ _ => true
  | .imax _ _ _ _ _ _ => true
  | .iabs _ _ _ _ _ _ => true
  | .ineg _ _ _ _ _ _ => true
  | .isad _ _ _ _ _ _ _ => true
  | .andB _ _ _ _ _ _ => true
  | .orB _ _ _ _ _ _ => true
  | .xorB _ _ _ _ _ _ => true
  | .notB _ _ _ _ _ => true
  | .logt _ _ _ _ _ _ _ _ => true
  | .shl _ _ _ _ _ _ => true
  | .shr _ _ _ _ _ _ => true
  | .rot _ _ _ _ _ _ => true
  | .catsh _ _ _ _ _ _ => true
  | .bfx _ _ _ _ _ _ => true
  | .bfi _ _ _ _ _ _ => true
  | .popc _ _ _ _ _ => true
  | .clz _ _ _ _ _ => true
  | .brev _ _ _ _ _ => true
  | .ffs _ _ _ _ _ => true
  | .icmp _ _ _ _ _ _ => true
  | .isel _ _ _ _ _ _ _ => true
  | .lea _ _ _ _ _ _ _ => true
  | .movi _ _ _ => true
  | .mov _ _ _ _ _ => true
  | .fadd _ _ _ _ _ _ _ _ => true
  | .fsub _ _ _ _ _ _ _ _ => true
  | .fmul _ _ _ _ _ _ _ _ => true
  | .ffma _ _ _ _ _ _ _ _ _ => true
  | .fmin _ _ _ _ _ _ _ => true
  | .fmax _ _ _ _ _ _ _ => true
  | .fcmp _ _ _ _ _ _ _ => true
  | .fdiv _ _ _ _ _ _ _ _ => true
  | .fsqrt _ _ _ _ _ _ _ => true
  | .frcp _ _ _ _ _ _ _ _ => true
  | .frsq _ _ _ _ _ _ _ _ => true
  | .fexp2 _ _ _ _ _ => true
  | .flog2 _ _ _ _ _ => true
  | .fsin _ _ _ _ _ => true
  | .fcos _ _ _ _ _ => true
  | .ftanh _ _ _ _ _ => true
  | .frnd _ _ _ _ _ _ _ => true
  | .fclass _ _ _ _ _ => true
  | .fscale _ _ _ _ _ _ _ _ => true
  | .fdot2 _ _ _ _ _ _ _ _ => true
  | .cvt _ _ _ _ _ _ _ _ _ _ _ => true
  | .pack _ _ _ _ _ _ _ _ _ _ _ => true
  | .unpk _ _ _ _ _ _ _ => true
  | .dot4 _ _ _ _ _ _ _ _ => true
  | .dot8 _ _ _ _ _ _ _ _ => true
  | .prmb _ _ _ _ _ _ => true
  | .rdsr _ _ _ => true
  | .wrsr _ _ _ => true
  | .pset _ _ _ _ => true
  | .pmov _ _ _ _ => true
  | .ld _ _ _ _ _ _ _ _ _ => true
  | .st _ _ _ _ _ _ _ _ _ => true
  | .atom _ _ _ _ _ _ _ _ _ _ => true
  | .cas _ _ _ _ _ _ _ _ _ => true
  | _ => false

/-- Opcodes that sequencer code may use (Table 6-6). -/
def Instr.inSeq : Instr → Bool
  | .iadd _ _ _ _ _ _ _ => true
  | .isub _ _ _ _ _ _ _ => true
  | .iadd3 _ _ _ _ _ _ _ _ => true
  | .iaddc _ _ _ _ _ _ _ _ => true
  | .imul _ _ _ _ _ _ => true
  | .imulh _ _ _ _ _ _ => true
  | .imad _ _ _ _ _ _ _ _ => true
  | .imadw _ _ _ _ _ _ _ => true
  | .idiv _ _ _ _ _ _ => true
  | .irem _ _ _ _ _ _ => true
  | .imin _ _ _ _ _ _ => true
  | .imax _ _ _ _ _ _ => true
  | .iabs _ _ _ _ _ _ => true
  | .ineg _ _ _ _ _ _ => true
  | .isad _ _ _ _ _ _ _ => true
  | .andB _ _ _ _ _ _ => true
  | .orB _ _ _ _ _ _ => true
  | .xorB _ _ _ _ _ _ => true
  | .notB _ _ _ _ _ => true
  | .logt _ _ _ _ _ _ _ _ => true
  | .shl _ _ _ _ _ _ => true
  | .shr _ _ _ _ _ _ => true
  | .rot _ _ _ _ _ _ => true
  | .catsh _ _ _ _ _ _ => true
  | .bfx _ _ _ _ _ _ => true
  | .bfi _ _ _ _ _ _ => true
  | .popc _ _ _ _ _ => true
  | .clz _ _ _ _ _ => true
  | .brev _ _ _ _ _ => true
  | .ffs _ _ _ _ _ => true
  | .icmp _ _ _ _ _ _ => true
  | .isel _ _ _ _ _ _ _ => true
  | .lea _ _ _ _ _ _ _ => true
  | .movi _ _ _ => true
  | .mov _ _ _ _ _ => true
  | .bra _ _ => true
  | .call _ _ => true
  | .ret _ => true
  | .exit _ => true
  | .wait _ _ _ _ _ _ => true
  | .tstat _ _ _ _ => true
  | .mmab16 _ _ _ _ _ => true
  | .mmah16 _ _ _ _ _ => true
  | .mmaf8a _ _ _ _ _ => true
  | .mmaf8b _ _ _ _ _ => true
  | .mmaf6a _ _ _ _ _ => true
  | .mmaf6b _ _ _ _ _ => true
  | .mmaf4 _ _ _ _ _ => true
  | .mmai8 _ _ _ _ _ => true
  | .mmaf32 _ _ _ _ _ => true
  | .mmad64 _ _ _ _ _ => true
  | .lutbld _ _ _ _ => true
  | .lutmm _ _ _ _ _ _ => true
  | .czero _ _ _ => true
  | .ccvt _ _ _ _ _ _ _ => true
  | .tscl _ _ _ _ => true
  | .tperm _ _ _ _ => true
  | .twait _ _ _ _ => true
  | .sqsig _ _ _ => true
  | .sqwait _ _ _ _ => true
  | .trmark _ _ _ => true
  | _ => false

/-- Opcodes that only sequencer code may use: 0x190–0x1A0 (R110). -/
def Instr.seqOnly : Instr → Bool
  | .mmab16 _ _ _ _ _ => true
  | .mmah16 _ _ _ _ _ => true
  | .mmaf8a _ _ _ _ _ => true
  | .mmaf8b _ _ _ _ _ => true
  | .mmaf6a _ _ _ _ _ => true
  | .mmaf6b _ _ _ _ _ => true
  | .mmaf4 _ _ _ _ _ => true
  | .mmai8 _ _ _ _ _ => true
  | .mmaf32 _ _ _ _ _ => true
  | .mmad64 _ _ _ _ _ => true
  | .lutbld _ _ _ _ => true
  | .lutmm _ _ _ _ _ _ => true
  | .czero _ _ _ => true
  | .ccvt _ _ _ _ _ _ _ => true
  | .tscl _ _ _ _ => true
  | .tperm _ _ _ _ => true
  | .twait _ _ _ _ => true
  | _ => false

end Sys2Proof
end

