-- ==== Sys2Proof/WellFormed.lean ====
section
/-! DEFINITION. WellFormed.lean: which instructions are legal encodings, check 4 of R112: guards (R103),
operand kinds and ranges (R105–R107), modifiers (R123–R126 and each chapter's table), UNI (R104), and the
restrictions of sequencer code (R111). -/

namespace Sys2Proof

/-- Codes of the sub-operations of R126 (their order there). -/
def Cmp.code : Cmp → Nat
  | .eq => 0 | .ne => 1 | .lt => 2 | .le => 3 | .gt => 4 | .ge => 5 | .num => 6 | .nan => 7

/-- GRED and GSCAN sub-operation codes (R126). -/
def RedOp.code : RedOp → Nat
  | .add => 0 | .min => 1 | .max => 2 | .and => 3 | .or => 4 | .xor => 5

/-- The operand names a register that exists, or a constant from −32 to 31 (Table 6-4). -/
def Opnd.inRange : Opnd → Bool
  | .v k => k < 512
  | .s k => k < 384
  | .z => true
  | .c n => decide (-32 ≤ n) && decide (n ≤ 31)

/-- The operand is a vector register. -/
def Opnd.isV : Opnd → Bool
  | .v _ => true
  | _ => false

/-- The operand is a scalar register. -/
def Opnd.isS : Opnd → Bool
  | .s _ => true
  | _ => false

/-- The base of a pair or quad is a multiple of its width (R107). -/
def Opnd.aligned (w : Nat) : Opnd → Bool
  | .v k | .s k => k % w == 0
  | _ => true

/-- The field accepts this kind of operand. -/
def OpClass.accepts (seq dst : Bool) : OpClass → Opnd → Bool
  | .any, .c _ => !dst
  | .any, _ => true
  | .vec, .v _ => true
  | .vec, .z => dst
  | .vec, _ => false
  | .vreg, o => o.isV
  | .scal, o => o.isS
  | .scalc, o => !o.isV
  | .base, o => o.isV || o.isS
  | .tst, .v _ => !seq
  | .tst, .s _ => seq
  | .tst, .z | .tst, .c _ => false

/-- One operand use is legal: range, kind, alignment, no vector under UNI or in sequencer code, no scalar
destination of a lane instruction without UNI (R104), scalars up to s63 in sequencer code (R111). -/
def OpUse.ok (seq uni : Bool) (u : OpUse) : Bool :=
  u.o.inRange && u.cls.accepts seq u.dst u.o && u.o.aligned u.w
    && !((uni || seq) && u.o.isV)
    && !(u.dst && u.o.isS && !uni && !seq)
    && !(seq && (match u.o with | .s k => decide (64 < k + u.w) | _ => false))

/-- Predicate fields name p0–p14 or pt (15); p0–p3 or pt in sequencer code (R106, R111). -/
def predOk (seq : Bool) (p : Nat) : Bool :=
  if seq then p < 4 || p == 15 else p < 16

/-- Guard and scheduling byte (R103, R104, R111). -/
def Hdr.ok (seq uniAllowed : Bool) (h : Hdr) : Bool :=
  decide (h.keep < 4) && decide (h.stall < 16)
    && (match h.guard with | .all => true | .pred p _ => if seq then p < 4 else p < 15)
    && (seq || !h.uni || uniAllowed)

/-- Types a CVT, PACK or QPACK accepts: no `.b` type, no `.b128` (R165). -/
def Ty.converts : Ty → Bool
  | .b32 | .b64 | .b16 | .b8 | .b128 => false
  | _ => true

/-- The 8-bit, 6-bit and 4-bit float element formats of the OCP (R84, R91). -/
def Ty.isOcp : Ty → Bool
  | .e4m3 | .e5m2 | .e3m2 | .e2m3 | .e2m1 => true
  | _ => false

/-- Fraction bits, minimum-normal exponent and maximum exponent of a float format (Table 5-1); the last
number counts the fraction codes at the top exponent that are finite values. -/
def Ty.fmt : Ty → Nat × Int × Int
  | .f64 => (52, -1022, 1023)
  | .f32 => (23, -126, 127)
  | .f16 => (10, -14, 15)
  | .bf16 => (7, -126, 127)
  | .e4m3 => (3, -6, 8)
  | .e5m2 => (2, -14, 15)
  | .e3m2 => (2, -2, 4)
  | .e2m3 => (3, 0, 2)
  | .e2m1 => (1, 0, 2)
  | _ => (0, 0, 0)

/-- Every value of float type `st` is a value of float type `dt` ("wider or equal precision", R166). -/
def Ty.widens (dt st : Ty) : Bool :=
  let (md, ed, xd) := dt.fmt
  let (ms, es, xs) := st.fmt
  decide (ms ≤ md) && decide (ed - md ≤ es - ms) && decide (xs ≤ xd)

/-- Overflow modifiers of a conversion into a float format: at most one; one required for the OCP formats;
`.nan` refused for FP6 and FP4, which have no NaN (R91). -/
def overflowOk (dt : Ty) (sat nan : Bool) : Bool :=
  !(sat && nan)
    && (!dt.isOcp || sat || nan)
    && !(nan && decide (dt ∈ [.e3m2, .e2m3, .e2m1]))

/-- Type pairs and modifiers of CVT (Table 10-6, R165–R167). -/
def cvtOk (dt st : Ty) (rnd : Rnd) (sat nan : Bool) : Bool :=
  dt.converts && st.converts && decide (dt ≠ st) &&
  (if dt = .e8m0 then
    decide (st ∈ [.f32, .f64, .f16, .bf16]) && sat && !nan && decide (rnd ∈ [.rz, .rp])
  else if st = .e8m0 then
    dt.isFloat && overflowOk dt sat nan
  else if dt.isFloat && st.isFloat then
    if dt.widens st then decide (rnd = .rn) && !sat && !nan else overflowOk dt sat nan
  else if st.isFloat then !sat && !nan
  else if dt.isFloat then overflowOk dt sat nan
  else decide (rnd = .rn) && !nan)

/-- Packed element types of PACK and UNPK (R168). -/
def Ty.packed : Ty → Bool
  | .f16 | .bf16 | .u16 | .s16 | .e4m3 | .e5m2 | .u8 | .s8 | .e3m2 | .e2m3 | .e2m1 | .u4 | .s4 => true
  | _ => false

/-- PACK (R168). -/
def packOk (dt st : Ty) (rnd : Rnd) (sat nan : Bool) : Bool :=
  decide (st ∈ [.f32, .u32, .s32]) && dt.packed && cvtOk dt st rnd sat nan

/-- UNPK (R168). -/
def unpkOk (dt st : Ty) : Bool :=
  st.packed && (if st.isFloat then decide (dt = .f32) else decide (dt ∈ [.u32, .s32]))

/-- QPACK: 8-bit, FP6 or 4-bit destination elements (R169). -/
def qpackOk (dt st : Ty) (rnd : Rnd) (sat nan : Bool) : Bool :=
  decide (dt.width ≤ 8) && packOk dt st rnd sat nan

/-- QUNPK: the types of QPACK with the roles exchanged, each element to a type of its own kind as UNPK does (R169). (DESIGN CHOICE, log 96) -/
def qunpkOk (dt st : Ty) : Bool :=
  decide (st.width ≤ 8) && unpkOk dt st

/-- VOTE's destination agrees with its mode, and `.z` needs a vector destination (R125, R183). -/
def voteOk (m : VoteOp) (z : Bool) : VoteDst → Bool
  | .pred _ => decide (m ≠ .ballot) && !z
  | .reg _ => decide (m = .ballot)

/-- GROW and SHRINK counts: a multiple of 8 from 8 to 512 (R130). -/
def growOk (imm : BitVec 32) : Bool :=
  decide (imm.toNat % 8 = 0) && decide (8 ≤ imm.toNat) && decide (imm.toNat ≤ 512)

/-- LD takes `.acq` only, and a scope only with it (R69, R125). -/
def ldOrd (ord : Ord) (sc : Scope) : Bool :=
  decide (ord = .acq) || (decide (ord = .none) && decide (sc = .device))

/-- ST takes `.rel` only, and a scope only with it (R69, R125). -/
def stOrd (ord : Ord) (sc : Scope) : Bool :=
  decide (ord = .rel) || (decide (ord = .none) && decide (sc = .device))

/-- Types of the atomic operations (Table 12-2). -/
def atomTy (op : AOp) (ty : Ty) : Bool :=
  match op with
  | .add | .min | .max => decide (ty ∈ [.u32, .s32, .u64, .s64, .f32, .f64])
  | .and | .or | .xor | .exch => decide (ty ∈ [.b32, .b64])

/-- CCVT's conversions (Table 17-12). -/
def ccvtOk (st : CSrc) (dt : Ty) (sat : Bool) : Bool :=
  match st with
  | .f32 => decide (dt ∈ [.bf16, .f16, .e4m3, .e5m2]) || (sat && decide (dt ∈ [.e3m2, .e2m3, .e2m1]))
  | .s32 => decide (dt ∈ [.s8, .bf16, .f16])
  | .f64 => decide (dt = .f32)

/-- Modifiers, small-number fields and extension fields of each opcode. Events are not words. `.z` is accepted, without effect, where D is a
scalar register or `z` (DESIGN CHOICE, log 97). -/
def Instr.modsOk : Instr → Bool
  | .nop _ => true
  | .iadd _ ty sat _ _ _ _ => (decide (ty ∈ [.b32, .u32, .s32, .b64, .u64, .s64]) && (!sat || ty.isUS))
  | .isub _ ty sat _ _ _ _ => (decide (ty ∈ [.b32, .u32, .s32, .b64, .u64, .s64]) && (!sat || ty.isUS))
  | .iadd3 _ ty sat _ _ _ _ _ => (decide (ty ∈ [.b32, .u32, .s32, .b64, .u64, .s64]) && (!sat || ty.isUS))
  | .iaddc _ ty _ _ _ _ cin cout => decide (ty ∈ [.b32, .u32]) && cin < 16 && cout < 16
  | .imul _ ty _ _ _ _ => decide (ty ∈ [.b32, .u32, .s32, .b64, .u64, .s64])
  | .imulh _ ty _ _ _ _ => decide (ty ∈ [.u32, .s32, .u64, .s64])
  | .imad _ ty sat _ _ _ _ _ => (decide (ty ∈ [.b32, .u32, .s32, .b64, .u64, .s64]) && (!sat || ty.isUS))
  | .imadw _ ty _ _ _ _ _ => decide (ty ∈ [.u32, .s32])
  | .idiv _ ty _ _ _ _ => decide (ty ∈ [.u32, .s32, .u64, .s64])
  | .irem _ ty _ _ _ _ => decide (ty ∈ [.u32, .s32, .u64, .s64])
  | .imin _ ty _ _ _ _ => decide (ty ∈ [.u32, .s32, .u64, .s64])
  | .imax _ ty _ _ _ _ => decide (ty ∈ [.u32, .s32, .u64, .s64])
  | .iabs _ ty _ _ _ _ => decide (ty ∈ [.s32, .s64])
  | .ineg _ ty _ _ _ _ => decide (ty ∈ [.s32, .s64])
  | .isad _ ty _ _ _ _ _ => decide (ty ∈ [.u32, .s32])
  | .andB _ ty _ _ _ _ => decide (ty ∈ [.b32, .b64])
  | .orB _ ty _ _ _ _ => decide (ty ∈ [.b32, .b64])
  | .xorB _ ty _ _ _ _ => decide (ty ∈ [.b32, .b64])
  | .notB _ ty _ _ _ => decide (ty ∈ [.b32, .b64])
  | .logt _ ty _ _ _ _ _ tt => decide (ty ∈ [.b32, .b64]) && tt < 256
  | .shl _ ty _ _ _ _ => decide (ty ∈ [.b32, .u32, .s32, .b64, .u64, .s64])
  | .shr _ ty _ _ _ _ => decide (ty ∈ [.b32, .u32, .s32, .b64, .u64, .s64])
  | .rot _ ty _ _ _ _ => decide (ty ∈ [.b32, .b64])
  | .catsh _ _ _ _ _ _ => true
  | .bfx _ ty _ _ _ _ => decide (ty ∈ [.u32, .s32])
  | .bfi _ _ _ _ _ _ => true
  | .popc _ ty _ _ _ => decide (ty ∈ [.b32, .b64])
  | .clz _ ty _ _ _ => decide (ty ∈ [.b32, .b64])
  | .brev _ ty _ _ _ => decide (ty ∈ [.b32, .b64])
  | .ffs _ ty _ _ _ => decide (ty ∈ [.b32, .b64])
  | .icmp _ cc ty pd _ _ => ((decide (ty ∈ [.u32, .s32, .u64, .s64]) && cc.code < 6) || (decide (ty ∈ [.b32, .b64]) && cc.code < 2)) && pd < 16
  | .isel _ ty _ _ _ _ pc => decide (ty ∈ [.b32, .b64]) && pc < 16
  | .lea _ ty _ _ _ _ sh => ((decide (ty = .u32) && sh < 32) || decide (ty ∈ [.u64, .s64])) && sh < 64
  | .movi _ _ _ => true
  | .mov _ ty _ _ _ => decide (ty ∈ [.b32, .b64, .b128])
  | .fadd _ ty _ ftz _ _ _ _ => (decide (ty ∈ [.f32, .f64]) && (!ftz || decide (ty = .f32)))
  | .fsub _ ty _ ftz _ _ _ _ => (decide (ty ∈ [.f32, .f64]) && (!ftz || decide (ty = .f32)))
  | .fmul _ ty _ ftz _ _ _ _ => (decide (ty ∈ [.f32, .f64]) && (!ftz || decide (ty = .f32)))
  | .ffma _ ty _ ftz _ _ _ _ _ => (decide (ty ∈ [.f32, .f64]) && (!ftz || decide (ty = .f32)))
  | .fmin _ ty ftz _ _ _ _ => (decide (ty ∈ [.f32, .f64]) && (!ftz || decide (ty = .f32)))
  | .fmax _ ty ftz _ _ _ _ => (decide (ty ∈ [.f32, .f64]) && (!ftz || decide (ty = .f32)))
  | .fcmp _ _ ty ftz pd _ _ => (decide (ty ∈ [.f32, .f64]) && (!ftz || decide (ty = .f32))) && pd < 16
  | .fdiv _ ty _ ftz _ _ _ _ => (decide (ty ∈ [.f32, .f64]) && (!ftz || decide (ty = .f32)))
  | .fsqrt _ ty _ ftz _ _ _ => (decide (ty ∈ [.f32, .f64]) && (!ftz || decide (ty = .f32)))
  | .frcp _ ty rnd ftz _ alt _ _ => (decide (ty ∈ [.f32, .f64]) && (!ftz || decide (ty = .f32)) && (!alt || (decide (ty = .f32) && decide (rnd = .rn))))
  | .frsq _ ty rnd ftz _ alt _ _ => (decide (ty ∈ [.f32, .f64]) && (!ftz || decide (ty = .f32)) && (!alt || (decide (ty = .f32) && decide (rnd = .rn))))
  | .fexp2 _ _ _ _ _ => true
  | .flog2 _ _ _ _ _ => true
  | .fsin _ _ _ _ _ => true
  | .fcos _ _ _ _ _ => true
  | .ftanh _ _ _ _ _ => true
  | .frnd _ ty _ ftz _ _ _ => (decide (ty ∈ [.f32, .f64]) && (!ftz || decide (ty = .f32)))
  | .fclass _ ty _ _ _ => decide (ty ∈ [.f32, .f64])
  | .fscale _ ty _ ftz _ _ _ _ => (decide (ty ∈ [.f32, .f64]) && (!ftz || decide (ty = .f32)))
  | .fdot2 _ ty _ _ _ _ _ _ => decide (ty ∈ [.f16, .bf16])
  | .cvt _ dty sty rnd sat _ nan _ di _ si => cvtOk dty sty rnd sat nan && di < dty.perReg && si < sty.perReg && di < 8 && si < 8
  | .pack _ dty sty rnd sat _ nan _ _ _ j => packOk dty sty rnd sat nan && 2 * j + 1 < dty.perReg && j < 4
  | .unpk _ dty sty _ _ _ j => unpkOk dty sty && 2 * j + 1 < sty.perReg && j < 4
  | .qpack _ dty sty rnd sat _ nan _ _ hh => qpackOk dty sty rnd sat nan && 4 * hh + 3 < dty.perReg && hh < 2
  | .qunpk _ dty sty _ _ _ hh => qunpkOk dty sty && 4 * hh + 3 < sty.perReg && hh < 2
  | .dot4 _ ty _ _ _ _ _ _ => decide (ty ∈ [.s8, .u8])
  | .dot8 _ ty _ _ _ _ _ _ => decide (ty ∈ [.s4, .u4])
  | .dots _ ty _ _ _ _ _ sa sb => decide (ty ∈ [.e2m1, .e4m3, .e5m2]) && sa < 4 && sb < 4
  | .prmb _ _ _ _ _ _ => true
  | .lxch _ _ ty _ _ _ _ => decide (ty ∈ [.b32, .b64])
  | .qswp _ _ ty _ _ _ => decide (ty ∈ [.b32, .b64])
  | .qbcst _ ty _ _ _ k => decide (ty ∈ [.b32, .b64]) && k < 4
  | .qhelp _ _ => true
  | .vote _ m z d pa => voteOk m z d && pa < 16
  | .gred _ op ty _ _ _ => ((decide (ty ∈ [.u32, .s32, .u64, .s64, .f32, .f64]) && op.code < 3) || (decide (ty ∈ [.b32, .b64]) && 3 ≤ op.code))
  | .gscan _ op ty _ _ _ _ => ((decide (ty ∈ [.u32, .s32, .u64, .s64, .f32, .f64]) && op.code < 3) || (decide (ty ∈ [.b32, .b64]) && 3 ≤ op.code))
  | .matchLanes _ _ ty _ _ _ => decide (ty ∈ [.b32, .b64])
  | .rdlane _ ty _ _ _ _ => decide (ty ∈ [.b32, .b64])
  | .wrlane _ ty _ _ _ => decide (ty ∈ [.b32, .b64])
  | .bra _ _ => true
  | .brx _ _ => true
  | .call _ _ => true
  | .callx _ _ => true
  | .ret _ => true
  | .enrol _ bn => bn < 16
  | .rejoin _ bn => bn < 16
  | .leave _ bn => bn < 16
  | .exit _ => true
  | .yield _ => true
  | .tbar _ => true
  | .tbara _ => true
  | .lnch _ pd _ q => q < 64 && pd < 16
  | .trap _ _ => true
  | .brk _ _ => true
  | .tret _ _ => true
  | .tqrd _ _ => true
  | .grow _ _ pd imm => growOk imm && pd < 16
  | .shrink _ imm => growOk imm
  | .rdsr h _ sr => !(h.uni && sr.laneScope)
  | .wrsr h _ sr => h.uni && sr.writable
  | .pset _ pd _ _ => pd < 16
  | .pmov _ _ p _ => p < 16
  | .xget _ _ _ _ => true
  | .xput _ _ _ _ => true
  | .ld _ _ ty sc ord _ _ _ _ => decide (ty ∈ [.b8, .u8, .s8, .b16, .u16, .s16, .b32, .b64, .b128]) && ldOrd ord sc
  | .st _ _ ty sc ord _ _ _ _ => decide (ty ∈ [.b8, .b16, .b32, .b64, .b128]) && stOrd ord sc
  | .lds _ ty _ _ _ => decide (ty ∈ [.b8, .u8, .s8, .b16, .u16, .s16, .b32, .b64, .b128])
  | .sts _ ty _ _ _ => decide (ty ∈ [.b8, .b16, .b32, .b64, .b128])
  | .atom _ _ op ty _ _ _ _ _ _ => atomTy op ty
  | .atoms _ op ty _ _ _ _ => atomTy op ty
  | .cas _ _ ty _ _ _ _ _ _ => decide (ty ∈ [.b32, .b64])
  | .red _ _ op ty _ ord _ _ _ => atomTy op ty && decide (op ≠ .exch) && decide (ord ∈ [.none, .rel])
  | .fence _ _ => true
  | .wait _ nld nst ncp nmx nmt => nld < 64 && nst < 64 && ncp < 64 && nmx < 64 && nmt < 64
  | .monarm _ _ _ _ => true
  | .mwait _ pd _ => pd < 16
  | .pref _ _ _ _ _ => true
  | .cwb _ _ sc _ _ => decide (sc ≠ .team)
  | .cinv _ _ sc _ _ => decide (sc ∈ [.device, .cluster])
  | .lblrd _ _ _ _ _ => true
  | .lblset _ _ _ _ _ _ => true
  | .lblclr _ _ _ _ => true
  | .qenq _ pd _ _ => pd < 16
  | .qdeq _ _ _ pc => pc < 16
  | .qstat _ _ _ => true
  | .amsg _ pd _ _ hn => hn < 256 && pd < 16
  | .amdone _ => true
  | .cpy _ _ _ => true
  | .cpyr _ _ _ => true
  | .boinit _ _ _ _ => true
  | .bowait _ pd _ _ _ => pd < 16
  | .mjoin _ _ _ _ => true
  | .mcont _ _ _ _ _ => true
  | .mrslt _ _ _ _ _ => true
  | .mleave _ _ _ _ => true
  | .mstat _ _ _ _ => true
  | .topen _ t => t < 56
  | .twr _ t _ _ => t < 56
  | .tseal _ t => t < 56
  | .tdrain _ t => t < 56
  | .trd _ _ t _ => t < 56
  | .tfree _ t => t < 56
  | .tstat _ _ t team => t < 56 && team < 1024
  | .mmab16 _ _ tc ta tb => tc < 56 && ta < 56 && tb < 56
  | .mmah16 _ _ tc ta tb => tc < 56 && ta < 56 && tb < 56
  | .mmaf8a _ _ tc ta tb => tc < 56 && ta < 56 && tb < 56
  | .mmaf8b _ _ tc ta tb => tc < 56 && ta < 56 && tb < 56
  | .mmaf6a _ _ tc ta tb => tc < 56 && ta < 56 && tb < 56
  | .mmaf6b _ _ tc ta tb => tc < 56 && ta < 56 && tb < 56
  | .mmaf4 _ _ tc ta tb => tc < 56 && ta < 56 && tb < 56
  | .mmai8 _ _ tc ta tb => tc < 56 && ta < 56 && tb < 56
  | .mmaf32 _ _ tc ta tb => tc < 56 && ta < 56 && tb < 56
  | .mmad64 _ _ tc ta tb => tc < 56 && ta < 56 && tb < 56
  | .lutbld _ _ td ta => td < 56 && ta < 56
  | .lutmm _ wb _ tc ta tb => tc < 56 && ta < 56 && tb < 56 && wb < 4
  | .czero _ _ tc => tc < 56
  | .ccvt _ sat dty _ td tc cst => td < 56 && tc < 56 && ccvtOk cst dty sat
  | .tscl _ off t sel => (t < 56 && sel ≤ 4 && (!off || t == 0))
  | .tperm _ off t sel => (t < 56 && sel ≤ 4 && (!off || t == 0))
  | .twait _ t s sel => t < 56 && s < 4 && sel ≤ 4
  | .sqsig _ n _ => n < 8
  | .sqwait _ n _ cap => n < 8 && (cap.all (· < 64))
  | .gcall _ k g => k < 384 && g < 4096
  | .gret _ => true
  | .sysc _ k g => k < 384 && g < 4096
  | .trmark _ _ _ => true
  | .growGrant _ => false
  | .growTimeout _ => false
  | .loadDataArrival _ => false
  | .storeCommitReport _ => false
  | .fenceComplete _ => false
  | .waitReturn _ => false
  | .walkEnd _ => false
  | .operandLogReissue _ _ => false
  | .labelVerdict _ => false
  | .trapDelivery _ => false
  | .mwaitTimeout _ => false
  | .bowaitReturn _ => false
  | .bowaitTimeout _ => false
  | .sqsigAdd _ => false
  | .sqwaitReturn _ => false
  | .sqwaitTimeout _ => false
  | .tileStateReached _ => false
  | .tileWait _ => false
  | .seqOpExecute _ => false
  | .seqOpComplete _ _ => false
  | .launchRecordDequeue _ => false
  | .dependenceMet _ _ => false
  | .gangAdmit _ _ => false
  | .lnchAppend _ => false
  | .groupEnd _ => false
  | .launchComplete _ => false
  | .groupSwap _ _ => false
  | .pendingDisplace _ => false
  | .starvationGuard _ => false
  | .preemptSave _ => false
  | .contextRestore _ _ => false
  | .deltaPush _ _ => false
  | .ownershipTransfer _ => false
  | .domainJoin _ => false
  | .homeRequest _ _ => false
  | .reopen _ => false
  | .invalidationAck _ _ => false
  | .recallReturn _ => false
  | .leaseExtension _ => false
  | .extensionAck _ _ => false
  | .timedUpdate _ _ => false
  | .replayWake _ _ => false
  | .overflowFetch _ => false
  | .amDispatch _ _ => false
  | .copyStart _ _ => false
  | .chunkArbitration _ => false
  | .chunkReport _ _ _ => false
  | .contributionArrival _ _ => false
  | .memberDeath _ _ => false
  | .kWrite _ _ => false
  | .gateEnter _ => false
  | .gateReturn _ => false
  | .gateDeadline _ => false
  | .ctxLoad _ => false
  | .tlbInval _ => false
  | .harvest _ => false
  | .ctxPreempt _ => false
  | .ctxResume _ => false
  | .ctxKill _ => false
  | .groupRelease _ => false
  | .faultDone _ => false
  | .syscDone _ => false
  | .lqSet _ => false
  | .lqReset _ => false
  | .icacheInval _ => false
  | .unknownCommand _ => false
  | .slDirpaWrite _ _ => false
  | .slDiridxWrite _ _ => false
  | .slDirent0Read _ => false
  | .hubRegisterWrite _ _ _ => false
  | .hostHotReset  => false
  | .hostLinkTimeout  => false
  | .deviceLost _ => false
  | .deviceReset  => false
  | .powerGood _ => false
  | .fullServiceMove  => false
  | .islandClockSet _ _ => false
  | .nvmeSubmission _ _ => false
  | .nvmeCompletion _ => false
  | .flashRequest _ => false
  | .flashCompletion _ _ => false
  | .ethernetFrame _ _ _ _ => false
  | .getVersion _ => false
  | .getCapabilities _ => false
  | .negotiateAlgorithms _ => false
  | .getDigests _ => false
  | .getCertificate _ => false
  | .challenge _ => false
  | .getMeasurements _ => false
  | .traceGapWrite _ => false
  | .granuleHoldExpiry _ => false
  | .linkRetrain _ _ => false
  | .fabricLinkFailure _ _ => false
  | .migrationRequest _ _ _ => false
  | .fenceRwRw _ => false
  | .monarmComplete _ => false
  | .cinvComplete _ => false
  | .meetingStatusReturn _ => false
  | .tileOperationComplete _ => false
  | .dbgTrselWrite _ _ => false
  | .mctpFailureReport _ => false

/-- What an opcode requires differently in lane and in sequencer code (R111, R195, R272, R276). -/
def Instr.unitOk (seq : Bool) : Instr → Bool
  | .wait _ nld nst ncp _ nmt => !seq || (nld == 0 && nst == 0 && ncp == 0 && nmt == 0)
  | .tstat _ _ _ team => if seq then team < 4 else team == 0
  | .sqwait _ _ _ cap => seq || cap.isNone
  | _ => true

/-- Check 4 of R112 on an instruction of lane (`seq = false`) or sequencer code. (DEDUCED, log 77) -/
def Instr.wf (seq : Bool) (i : Instr) : Bool :=
  match i.hdr with
  | none => false
  | some h =>
    h.ok seq i.uniAllowed && i.modsOk && i.unitOk seq
      && i.opers.all (OpUse.ok seq h.uni)
      && i.predUses.all (fun p => predOk seq p.1)

/-- Check 3 of R112: the opcode is legal in this kind of code (R110, R111). -/
def Instr.unitAllows (seq : Bool) (i : Instr) : Bool :=
  if seq then i.inSeq else !i.seqOnly

end Sys2Proof
end

