-- ==== Sys2Proof/Machine/Float.lean ====
section
/-! DEFINITION. Machine/Float.lean: the number formats of 05 and their exact arithmetic. A value of a
floating-point format is a NaN, an infinity or a sign, an integer and a power of two; operations are exact and
one function rounds. -/

namespace Sys2Proof.Machine

/-- Sticky flags of %fpflags (Table 5-4). -/
abbrev Flags := BitVec 6
def fNV : Flags := 1
def fDZ : Flags := 2
def fOF : Flags := 4
def fUF : Flags := 8
def fNX : Flags := 16
def fSAT : Flags := 32

/-- A floating-point value: `fin neg m e` is (−1)^neg · m · 2^e. -/
inductive FVal
  | nan (signalling : Bool)
  | inf (neg : Bool)
  | fin (neg : Bool) (m : Nat) (e : Int)
  deriving DecidableEq, Repr

/-- A value with the flags its computation raised. -/
abbrev FRes := FVal × Flags
/-- The bits of a result with the flags its computation raised. -/
abbrev Bits := Nat × Flags

/-- Fraction bits of a format (Table 5-1). -/
def Ty.mant (t : Ty) : Nat := t.fmt.1
/-- Exponent of the least normal value (Table 5-1). -/
def Ty.emin (t : Ty) : Int := t.fmt.2.1
/-- Exponent of the greatest finite value (Table 5-1). -/
def Ty.emax (t : Ty) : Int := t.fmt.2.2
/-- Bits of the exponent field. -/
def Ty.ebits (t : Ty) : Nat := t.width - 1 - Ty.mant t
/-- IEEE infinities and NaNs (all but E4M3, FP6 and FP4, Table 5-1). -/
def Ty.ieee : Ty → Bool
  | .f64 | .f32 | .f16 | .bf16 | .e5m2 => true
  | _ => false
/-- Code of the greatest finite magnitude (Table 5-1). -/
def Ty.maxCode (t : Ty) : Nat :=
  if Ty.ieee t then (2 ^ Ty.ebits t - 1) * 2 ^ Ty.mant t - 1
  else if t = .e4m3 then 0x7E
  else 2 ^ (t.width - 1) - 1
/-- The canonical NaN; FP6 and FP4 have none and take +0 (R87, Table 5-5). -/
def Ty.canonNaN (t : Ty) : Nat :=
  if Ty.ieee t then (2 ^ Ty.ebits t - 1) * 2 ^ Ty.mant t + 2 ^ (Ty.mant t - 1)
  else if t = .e4m3 then 0x7F
  else 0
/-- The sign bit of a format. -/
def Ty.signBit (t : Ty) (neg : Bool) : Nat := if neg then 2 ^ (t.width - 1) else 0

/-- The value of the low bits of `x` in format `t` (R84). -/
def fval (t : Ty) (x : Nat) : FVal :=
  let neg := bitAt x (t.width - 1)
  let e := bits x (Ty.mant t) (Ty.ebits t)
  let f := bits x 0 (Ty.mant t)
  if Ty.ieee t && e == 2 ^ Ty.ebits t - 1 then
    if f = 0 then .inf neg
    else .nan (!t.isOcp && f < 2 ^ (Ty.mant t - 1))
  else if t = .e4m3 ∧ e = 15 ∧ f = 7 then .nan false
  else if e = 0 then .fin neg f (Ty.emin t - Ty.mant t)
  else .fin neg (2 ^ Ty.mant t + f) ((e : Int) - 1 + Ty.emin t - Ty.mant t)

/-- A subnormal code of format `t`. -/
def isSubnormal (t : Ty) (x : Nat) : Bool :=
  bits x (Ty.mant t) (Ty.ebits t) == 0 && bits x 0 (Ty.mant t) != 0

/-- An operand as `.ftz` reads it: subnormals become zeros of their sign (R89). -/
def fvalZ (ftz : Bool) (t : Ty) (x : Nat) : FVal :=
  if ftz && isSubnormal t x then .fin (bitAt x (t.width - 1)) 0 0 else fval t x

/-- Whether the integer quotient is raised by one, from its parity, twice the remainder against the divisor,
and the sign (R89). -/
def roundUp (rnd : Rnd) (neg odd : Bool) (rem half2 : Nat) : Bool :=
  match rnd with
  | .rn => 2 * rem > half2 || (2 * rem == half2 && odd)
  | .rz => false
  | .rm => neg && rem != 0
  | .rp => !neg && rem != 0

/-- `m · 2^-sh` rounded to an integer, and whether it was inexact. -/
def shiftRound (rnd : Rnd) (neg : Bool) (m : Nat) (sh : Int) : Nat × Bool :=
  if sh ≤ 0 then (m * 2 ^ (-sh).toNat, false)
  else
    let d := 2 ^ sh.toNat
    let q := m / d
    let r := m % d
    (if roundUp rnd neg (q % 2 == 1) r d then q + 1 else q, r != 0)

/-- Where a rounded value beyond the greatest finite one goes (Table 5-5). -/
inductive Ovf
  | sat | nan
  deriving DecidableEq, Repr

/-- The result of a magnitude beyond the greatest finite one (R91). -/
def overflowBits (t : Ty) (rnd : Rnd) (ovf : Ovf) (neg : Bool) : Bits :=
  let max := Ty.signBit t neg + Ty.maxCode t
  match ovf with
  | .sat => (max, fSAT ||| fOF ||| fNX)
  | .nan =>
    let toInf := match rnd with | .rn => true | .rz => false | .rm => neg | .rp => !neg
    (if toInf then (if Ty.ieee t then Ty.signBit t neg + (Ty.maxCode t + 1) else Ty.canonNaN t) else max, fOF ||| fNX)

/-- The exact non-zero magnitude `m · 2^e` rounded into format `t` (R89, R91). -/
def roundMag (t : Ty) (rnd : Rnd) (ovf : Ovf) (neg : Bool) (m : Nat) (e : Int) : Bits :=
  let top : Int := (Nat.log2 m : Int) + e
  if top > Ty.emax t then overflowBits t rnd ovf neg
  else
    let least : Int := Ty.emin t - Ty.mant t
    let q : Int := max least (top - Ty.mant t)
    let (k, inexact) := shiftRound rnd neg m (q - e)
    let code := k + (q - least).toNat * 2 ^ Ty.mant t
    if code > Ty.maxCode t then overflowBits t rnd ovf neg
    else
      -- tiny after rounding with an unbounded exponent (R89)
      let (ku, _) := shiftRound rnd neg m (top - Ty.mant t - e)
      let tiny := top < Ty.emin t && !(top + 1 == Ty.emin t && ku == 2 ^ (Ty.mant t + 1))
      (Ty.signBit t neg + code,
        if inexact then (if tiny then fUF ||| fNX else fNX) else 0)

/-- A value written into format `t` (R87, R91). Under `.sat` a NaN input sets NV in every format (Table 5-5;
DEDUCED, log 9). -/
def roundTo (t : Ty) (rnd : Rnd) (ovf : Ovf) : FVal → Bits
  | .nan _ => (Ty.canonNaN t, if ovf = .sat then fNV else 0)
  | .inf neg =>
    match ovf with
    | .sat => (Ty.signBit t neg + Ty.maxCode t, fSAT)
    | .nan => (if Ty.ieee t then Ty.signBit t neg + (Ty.maxCode t + 1) else Ty.canonNaN t, 0)
  | .fin neg m e => if m = 0 then (Ty.signBit t neg, 0) else roundMag t rnd ovf neg m e

/-- The result of an FP32 or FP64 operation: rounded, and flushed under `.ftz` (R158). -/
def fresult (t : Ty) (rnd : Rnd) (ftz : Bool) (r : FRes) : Bits :=
  let (x, fl) := roundTo t rnd .nan r.1
  if ftz && isSubnormal t x then (Ty.signBit t (bitAt x (t.width - 1)), r.2 ||| fl ||| fUF ||| fNX)
  else (x, r.2 ||| fl)

/-- NV for a signalling NaN (R87). -/
def snanFlag : FVal → Flags
  | .nan true => fNV
  | _ => 0

def FVal.isNaN : FVal → Bool
  | .nan _ => true
  | _ => false

def FVal.neg : FVal → FVal
  | .fin n m e => .fin (!n) m e
  | .inf n => .inf (!n)
  | x => x

/-- The exact product (R158). -/
def fmulV (a b : FVal) : FRes :=
  match a, b with
  | .nan s, .nan t => (.nan false, if s || t then fNV else 0)
  | .nan s, _ => (.nan false, if s then fNV else 0)
  | _, .nan s => (.nan false, if s then fNV else 0)
  | .inf n, .inf k => (.inf (n != k), 0)
  | .inf n, .fin k m _ => if m = 0 then (.nan false, fNV) else (.inf (n != k), 0)
  | .fin k m _, .inf n => if m = 0 then (.nan false, fNV) else (.inf (n != k), 0)
  | .fin n m e, .fin k m' e' => (.fin (n != k) (m * m') (e + e'), 0)

/-- The signed integer of a finite value in units of `2^g`, for `g` at most its exponent. -/
def scaled (g : Int) : FVal → Int
  | .fin n m e => let x : Int := ((m * 2 ^ (e - g).toNat : Nat) : Int); if n then -x else x
  | _ => 0

/-- The least exponent among finite non-zero terms. -/
def leastExp : List FVal → Int → Int
  | [], g => g
  | .fin _ m e :: xs, g => leastExp xs (if m = 0 then g else min e g)
  | _ :: xs, g => leastExp xs g

/-- Greatest exponent among finite terms, the starting point of `leastExp`. -/
def someExp : List FVal → Int
  | [] => 0
  | .fin _ m e :: xs => if m = 0 then someExp xs else e
  | _ :: xs => someExp xs

/-- A zero's sign, or that of a non-zero value. -/
def FVal.isNeg : FVal → Bool
  | .fin n _ _ => n
  | .inf n => n
  | .nan _ => false

/-- The exact sum of the terms (R87, R158): NaN and infinities as IEEE 754-2019, an exact zero negative only
when every term is a negative zero, or in `.rm` unless every term is a positive zero. -/
def fsumV (rnd : Rnd) (xs : List FVal) : FRes :=
  if xs.any FVal.isNaN then (.nan false, if xs.any (fun x => x = .nan true) then fNV else 0)
  else
    let pos := xs.any (fun x => x = .inf false)
    let neg := xs.any (fun x => x = .inf true)
    if pos && neg then (.nan false, fNV)
    else if pos then (.inf false, 0)
    else if neg then (.inf true, 0)
    else
      let g := leastExp xs (someExp xs)
      let s := xs.foldl (fun a x => a + scaled g x) 0
      if s = 0 then
        let allNeg := xs.all FVal.isNeg
        let allPos := xs.all (fun x => !x.isNeg)
        (.fin (if allNeg then true else if allPos then false else rnd = .rm) 0 0, 0)
      else (.fin (s < 0) s.natAbs g, 0)

/-- FFMA's exact value: an invalid product is invalid whatever the addend (R158). -/
def ffmaV (rnd : Rnd) (a b c : FVal) : FRes :=
  let (p, fl) := fmulV a b
  let (s, fl') := fsumV rnd [p, c]
  (s, fl ||| fl')

/-- Bits of a non-zero quotient or root kept before rounding: enough for any mode, the last bit sticky. -/
def stickyQuot (n d : Nat) : Nat := 2 * (n / d) + (if n % d = 0 then 0 else 1)

/-- The exact quotient, with a sticky last bit (R95, R161). -/
def fdivV (t : Ty) (a b : FVal) : FRes :=
  match a, b with
  | .nan s, .nan u => (.nan false, if s || u then fNV else 0)
  | .nan s, _ => (.nan false, if s then fNV else 0)
  | _, .nan s => (.nan false, if s then fNV else 0)
  | .inf _, .inf _ => (.nan false, fNV)
  | .inf n, .fin k _ _ => (.inf (n != k), 0)
  | .fin n _ _, .inf k => (.fin (n != k) 0 0, 0)
  | .fin n m e, .fin k d f =>
    if d = 0 then (if m = 0 then (.nan false, fNV) else (.inf (n != k), fDZ))
    else if m = 0 then (.fin (n != k) 0 0, 0)
    else
      let sh := Ty.mant t + 4 + Nat.log2 d
      (.fin (n != k) (stickyQuot (m * 2 ^ sh) d) (e - f - sh - 1), 0)

/-- Bit-by-bit integer square root: `k` bits of the root remain to be tried. -/
def isqrtGo (n : Nat) : Nat → Nat → Nat
  | 0, r => r
  | k + 1, r =>
    let c := r + 2 ^ k
    isqrtGo n k (if c * c ≤ n then c else r)

/-- floor(√n). -/
def isqrt (n : Nat) : Nat := isqrtGo n (Nat.log2 n / 2 + 1) 0

/-- The exact root, with a sticky last bit (R161). -/
def fsqrtV (t : Ty) : FVal → FRes
  | .nan s => (.nan false, if s then fNV else 0)
  | .inf n => if n then (.nan false, fNV) else (.inf false, 0)
  | .fin n m e =>
    if m = 0 then (.fin n 0 0, 0)
    else if n then (.nan false, fNV)
    else
      let k := Ty.mant t + 4
      let odd := e % 2 ≠ 0
      let x := (if odd then 2 * m else m) * 2 ^ (2 * k)
      let e' := (if odd then e - 1 else e) / 2 - k
      let s := isqrt x
      (.fin false (2 * s + (if s * s = x then 0 else 1)) (e' - 1), 0)

/-- 1/x: DZ for zeros (Table 5-8). -/
def frcpV (t : Ty) (a : FVal) : FRes := fdivV t (.fin false 1 0) a

/-- 1/√x, with a sticky last bit (Table 5-8, R161). -/
def frsqV (t : Ty) : FVal → FRes
  | .nan s => (.nan false, if s then fNV else 0)
  | .inf n => if n then (.nan false, fNV) else (.fin false 0 0, 0)
  | .fin n m e =>
    if m = 0 then (.inf n, fDZ)
    else if n then (.nan false, fNV)
    else
      let odd := e % 2 ≠ 0
      let d := if odd then 2 * m else m
      let e' := (if odd then e - 1 else e) / 2
      let k := Ty.mant t + 5 + Nat.log2 d
      let s := isqrt (2 ^ (2 * k) / d)
      (.fin false (2 * s + (if s * s * d = 2 ^ (2 * k) then 0 else 1)) (-e' - k - 1), 0)

/-- Comparison of two values that are no NaN: −1, 0 or 1; zeros are equal. -/
def fcmpV (a b : FVal) : Int :=
  match a, b with
  | .inf n, .inf k => if n = k then 0 else if n then -1 else 1
  | .inf n, _ => if n then -1 else 1
  | _, .inf k => if k then 1 else -1
  | a, b =>
    let g := leastExp [a, b] (someExp [a, b])
    let d := scaled g a - scaled g b
    if d < 0 then -1 else if d = 0 then 0 else 1

/-- FMIN and FMAX (R159): IEEE 754-2019 minimumNumber and maximumNumber of two codes, −0 below +0. -/
def fminmax (t : Ty) (ftz isMax : Bool) (x y : Nat) : Bits :=
  let a := fvalZ ftz t x
  let b := fvalZ ftz t y
  let fl := snanFlag a ||| snanFlag b
  let out (v : FVal) (raw : Nat) : Nat :=
    if ftz && isSubnormal t raw then Ty.signBit t v.isNeg else raw % 2 ^ t.width
  if a.isNaN && b.isNaN then (Ty.canonNaN t, fl)
  else if a.isNaN then (out b y, fl)
  else if b.isNaN then (out a x, fl)
  else
    let c := fcmpV a b
    let less := c < 0 || (c == 0 && a.isNeg && !b.isNeg)
    (if less != isMax then out a x else out b y, fl)

/-- FCMP's condition (R126, R160). -/
def fcond (cc : Cmp) (a b : FVal) : Bool × Flags :=
  let un := a.isNaN || b.isNaN
  let sn := snanFlag a ||| snanFlag b
  let c := fcmpV a b
  match cc with
  | .eq => (!un && c == 0, sn)
  | .ne => (un || c != 0, sn)
  | .num => (!un, sn)
  | .nan => (un, sn)
  | .lt => (!un && c < 0, if un then fNV else 0)
  | .le => (!un && c ≤ 0, if un then fNV else 0)
  | .gt => (!un && c > 0, if un then fNV else 0)
  | .ge => (!un && c ≥ 0, if un then fNV else 0)

/-- FRND (R163): rounds to an integral value of the same sign, and raises no NX. -/
def frndBits (t : Ty) (rnd : Rnd) (v : FVal) : Bits :=
  match v with
  | .nan s => (Ty.canonNaN t, if s then fNV else 0)
  | .inf n => (Ty.signBit t n + (Ty.maxCode t + 1), 0)
  | .fin n m e =>
    if m = 0 then (Ty.signBit t n, 0)
    else
      let k := (shiftRound rnd n m (if e < -4200 then 4200 else -e)).1
      if k = 0 then (Ty.signBit t n, 0)
      else ((roundMag t rnd .nan n k 0).1, 0)

/-- FSCALE (R163): the exact A · 2^B; a B beyond ±4,200 acts as that end, past every finite result. -/
def fscaleV (v : FVal) (b : Int) : FRes :=
  match v with
  | .nan s => (.nan false, if s then fNV else 0)
  | .inf n => (.inf n, 0)
  | .fin n m e => (.fin n m (e + max (-4200) (min 4200 b)), 0)

/-- FCLASS (Table 10-5). -/
def fclassBits (t : Ty) (x : Nat) : Nat :=
  match fval t x with
  | .nan s => if s then 2 ^ 0 else 2 ^ 1
  | .inf n => if n then 2 ^ 2 else 2 ^ 9
  | .fin n m _ =>
    if m = 0 then (if n then 2 ^ 5 else 2 ^ 6)
    else if isSubnormal t x then (if n then 2 ^ 4 else 2 ^ 7)
    else (if n then 2 ^ 3 else 2 ^ 8)

/-! ### Conversions (R91, R92, R166, R167) -/

/-- The range of an integer type (R88). -/
def intMin (t : Ty) : Int := if t.signed then -((2 ^ (t.width - 1) : Nat) : Int) else 0
def intMax (t : Ty) : Int :=
  if t.signed then ((2 ^ (t.width - 1) : Nat) : Int) - 1 else ((2 ^ t.width : Nat) : Int) - 1

/-- The integer that the low bits of `x` hold in type `t` (R88). -/
def intVal (t : Ty) (x : Nat) : Int := if t.signed then toSigned t.width x else ((x % 2 ^ t.width : Nat) : Int)

/-- An exact integer written in type `t`: clamped with SAT where `.sat` is set, else its low bits. -/
def putInt (t : Ty) (sat : Bool) (x : Int) : Bits :=
  if sat && x < intMin t then (wrap t.width (intMin t), fSAT)
  else if sat && x > intMax t then (wrap t.width (intMax t), fSAT)
  else (wrap t.width x, 0)

/-- Float to integer (R92). -/
def fToInt (t : Ty) (rnd : Rnd) : FVal → Bits
  | .nan _ => (0, fNV)
  | .inf n => (wrap t.width (if n then intMin t else intMax t), fNV)
  | .fin n m e =>
    if m ≠ 0 ∧ (Nat.log2 m : Int) + e > 64 then (wrap t.width (if n then intMin t else intMax t), fNV)
    else
      let (k, inexact) := shiftRound rnd n m (-e)
      let x : Int := if n then -(k : Int) else k
      if x < intMin t then (wrap t.width (intMin t), fNV)
      else if x > intMax t then (wrap t.width (intMax t), fNV)
      else (wrap t.width x, if inexact then fNX else 0)

/-- Integer to float (R92). -/
def intToF (t : Ty) (rnd : Rnd) (ovf : Ovf) (x : Int) : Bits := roundTo t rnd ovf (.fin (x < 0) x.natAbs 0)

/-- The value of an E8M0 code (R86). -/
def e8m0Val (x : Nat) : FVal := if x % 256 = 255 then .nan false else .fin false 1 ((x % 256 : Nat) - 127 : Int)

/-- Float to E8M0 (R167, Table 10-7). -/
def toE8m0 (rnd : Rnd) : FVal → Bits
  | .nan _ => (0xFF, fNV)
  | .inf _ => (0xFE, fSAT)
  | .fin _ m e =>
    if m = 0 then (0, fSAT)
    else
      let lg := Nat.log2 m
      let up := rnd = .rp && m != 2 ^ lg
      let x : Int := (lg : Int) + e + 127 + (if up then 1 else 0)
      if x < 0 then (0, fSAT) else if x > 254 then (254, fSAT) else (x.toNat, 0)

/-- One conversion from type `st` to type `dt` (Table 10-6): NaN results are canonical, and a signalling NaN of an
IEEE format sets NV (R87). -/
def convert (dt st : Ty) (rnd : Rnd) (sat : Bool) (x : Nat) : Bits :=
  let ovf : Ovf := if sat then .sat else .nan
  if dt = .e8m0 then toE8m0 rnd (fval st x)
  else if st = .e8m0 then roundTo dt rnd ovf (e8m0Val x)
  else if st.isFloat then
    if dt.isFloat then
      let v := fval st x
      let (y, fl) := roundTo dt rnd ovf v
      (y, fl ||| snanFlag v)
    else fToInt dt rnd (fval st x)
  else if dt.isFloat then intToF dt rnd ovf (intVal st x)
  else putInt dt sat (intVal st x)

end Sys2Proof.Machine
end

