-- ==== Sys2Proof/Config.lean ====
section
/-! DEFINITION. Config.lean: the fixed figures of the part (Table 0-1), what this model fixes where the manual
leaves it open (named in the assumption log), and the free values, opaque constants of which nothing can be
proved. -/

namespace Sys2Proof.Config

/-- Dies, clusters, cores, partitions and home slices of the part (Table 0-1, R10). -/
def nClusters : Nat := 48
/-- Cores of the device (Table 0-1). -/
def nCores : Nat := 192
/-- Home slices of the device (Table 0-1, R11). -/
def nSlices : Nat := 96
/-- Bytes of the store that register windows and scratchpads may fill (R33, R128). -/
def storeBytes : Nat := 917504
/-- First byte above device HBM available to contexts: the label-store carve-out (R56). -/
def labelBase : Nat := 0x8FB8000000
/-- First byte above device HBM (R56). -/
def hbmEnd : Nat := 0x9000000000
/-- Base of the host memory window (R56). -/
def hostBase : Nat := 0x800000000000
/-- Directory entries of a slice (R225). -/
def dirEntries : Nat := 32768
/-- Watchers a watch table holds (R72). -/
def watchEntries : Nat := 4096
/-- Replay entries of a slice (R245). -/
def replayEntries : Nat := 512
/-- Frame counters of a slice (R243). -/
def migEntries : Nat := 1024

/-- The special functions FEXP2, FLOG2, FSIN, FCOS, FTANH, FRCP.approx and FRSQ.approx: a fixed function of the
input bits and of `.ftz` that the manual does not publish (R95). Free. (DESIGN CHOICE, log 10) -/
opaque special (fn : Nat) (ftz : Bool) (x : Nat) : Nat

/-- A choice among `n` outcomes the manual leaves open (order of lanes, R70 and R203; an old or a new code block,
R55; an old or a new translation, R61), at the `k`-th such choice. Free. (DESIGN CHOICE, log 75) -/
opaque choice (k n : Nat) : Nat

/-- What an inline constant supplies where the operand's type has no such value (R105): the type's width (0 for
E8M0) and the constant. Free. (DESIGN CHOICE, log 11) -/
opaque inlineConst (width : Nat) (n : Int) : Nat

/-- An entry of the PC table of a group save record: its code address, the parked and barrier-wait flags and the wait age
(R46 names them and gives no bits). Free. -/
opaque pcEntry (pc : Nat) (parked waiting : Bool) (age : Nat) : Nat

/-- Data that the manual does not define after an uncorrectable storage error (R286, R299), at the `k`-th such
value. Free. (DESIGN CHOICE, log 74) -/
opaque undefinedData (k i : Nat) : Nat

/-- Where a place in a slice's table of directory entries shows through the slice's directory window (R352 names an index and
no order). Free. (DESIGN CHOICE, log 61) -/
opaque dirIndex (slice : Nat) : Equiv.Perm (Fin 32768)

/-- The unit and the 16-bit code that the failure report gives for a refused configuration record (R365, R367). Free. -/
opaque recordFailure : Nat × Nat

/-- The measurement at an index of Table 23-10, of the images and the record with a SEQ (R366). Free. -/
opaque measurement (index seq : Nat) : List (BitVec 8)

/-- The certificate chain held in flash, and the digest (SHA-256) and the ECDSA P-256 signature by the identity key, which the
manual names and does not define (R365, R366). Free. -/
opaque certChain : List (BitVec 8)
opaque digest (bytes : List (BitVec 8)) : List (BitVec 8)
opaque signature (nonce : Nat) (bytes : List (BitVec 8)) : List (BitVec 8)

end Sys2Proof.Config
end

