-- ==== Sys2Proof/Machine/State.lean ====
section
/-! DEFINITION. Machine/State.lean: everything the manual gives the machine as plain data, the reasons a step can
stop, and the machine right after reset. Keys of devices other than this one: byte `pa` of remote device `d`
is listed at `(d + 1) * 2 ^ 52 + pa`. -/

namespace Sys2Proof.Machine

/-- Reasons a step stops with a fault. -/
inductive Fault
  /-- Raised by the meaning of a lane instruction run with no issue in progress (`State.cur` empty). `step` never
  does so: it sets `cur` before it runs a lane instruction. Safe. -/
  | noIssuer
  deriving DecidableEq, Repr

/-- Reasons a step is refused. -/
inductive Refusal
  /-- Raised by an arm of `exec` whose instruction has no meaning yet. Safe. -/
  | notModelled (mnemonic : String)
  deriving DecidableEq, Repr

/-! ### Lanes and groups (02, 09, 11, 12, 21) -/

/-- Where a lane stands (R42, R46). -/
inductive LaneSt
  /-- A candidate for issue, unless its trap mask holds it. -/
  | run
  /-- Ended by EXIT (R180). -/
  | exited
  /-- Parked on a fault in operand-log entry `e` (R212). -/
  | parked (e : Nat)
  /-- Waiting at a REJOIN of barrier `b` (R179). -/
  | rejoin (b : Nat)
  /-- Waiting at a TBAR (R181). -/
  | tbar
  /-- Waiting at a GRET (R335). -/
  | gret
  /-- Outside the gate call in progress (R332). -/
  | outside
  /-- Held by the fence of a re-issued acquire or release (R214). -/
  | fence
  deriving DecidableEq, Repr

/-- One lane's PC, state, starvation wait and call stack (R42, R176). -/
structure Lane where
  pc : DWord := 0
  st : LaneSt := .run
  wait : Nat := 0
  depth : Nat := 0
  /-- The on-chip entries, newest first, at most four (R176). -/
  stack : List DWord := []
  deriving DecidableEq, Repr

/-- Counter classes (R16). -/
inductive Cls
  | ld | st | cp | mx | mt
  deriving DecidableEq, Repr

/-- An outstanding-operation counter and its reorder window (R16, R17). Bit `i` of `win` says that the
`i`-th oldest outstanding operation has completed; `base` counts the operations reported. -/
structure Counter where
  n : BitVec 6 := 0
  win : DWord := 0
  base : Nat := 0
  deriving DecidableEq, Repr

/-- The five counters of a group (R16). -/
structure Counters where
  ld : Counter := {}
  st : Counter := {}
  cp : Counter := {}
  mx : Counter := {}
  mt : Counter := {}
  deriving DecidableEq, Repr

/-- Poison of a register: the address whose data failed, and the status code (R217, R358). -/
structure Poison where
  addr : DWord
  code : Nat
  deriving DecidableEq, Repr

/-- The monitor of a group (R72, R206): the armed line by its key, and the wake. -/
structure Monitor where
  line : Nat := 0
  armed : Bool := false
  wake : Bool := false
  deriving DecidableEq, Repr

/-- A trap record (Table 11-7). INFO is `cause` and `depth`. -/
structure TrapRec where
  cause : Nat
  depth : Nat := 0
  mask : Word
  pc : DWord
  addr : DWord := 0
  regt : DWord := 0
  code : Word := 0
  word0 : Word := 0
  run : Word
  detail : Word := 0
  deriving DecidableEq, Repr

/-- One lane's slot of an operand-log entry (Table 12-5). -/
structure LogLane where
  out : BitVec 3
  res : Bool := false
  va : BitVec 57
  data : BitVec 128 := 0
  deriving DecidableEq, Repr

/-- An operand-log entry: the slots of its parked lanes, whether the lanes were issued under UNI
(their address is then in the lowest lane's slot, R212), and bits 31:0 of the word that parked, for its trap (R188). -/
structure LogEntry where
  lanes : Map LogLane := []
  uni : Bool := false
  word0 : Word := 0
  deriving DecidableEq, Repr

/-! ### Memory operations (12, 14) -/

/-- What an access does at the unit that performs it. -/
inductive MemKind
  | load | store
  | atom (op : AOp) | cas | red (op : AOp)
  /-- A copy engine's combining write of `FMT` and `ROP`: its second datum counts the elements (R301). -/
  | comb (fmt rop : Nat)
  | cwb | lblrd | lblset (lock : Bool) | lblclr | monarm | cinv
  /-- PREF (R208): into L1, or into the cluster cache alone; `nt` marks the copy first to evict. -/
  | pref (l1 nt : Bool)
  deriving DecidableEq, Repr

/-- How far one lane's access has come. -/
inductive AccSt
  /-- Its translation is still walked (R211). -/
  | walk
  /-- Translated and on its way. -/
  | wait
  /-- In the replay queue of its home slice, waiting for the tag (R245). -/
  | replay (tag : WakeTag)
  /-- In its home slice's overflow ring (R246). -/
  | over
  /-- Waiting for the instant of a timed update (R230). -/
  | timed
  /-- Performed. -/
  | done
  /-- Failed with a status code of Table 1-4 (R217). -/
  | failed (code : Nat)
  /-- Refused by a locked label whose record is `label` (R216). -/
  | refused (label : Nat)
  /-- Parked, trapped or dropped: reported for the instruction (R18). -/
  | off
  deriving DecidableEq, Repr

/-- One lane's access: its virtual address, the memory key it translates to, the data it carries, how far it has
come, the value it obtained and its instant. -/
structure Acc where
  lane : Nat
  va : DWord
  key : Nat := 0
  lockok : Bool := false
  mig : Bool := false
  data : Nat := 0
  data2 : Nat := 0
  st : AccSt := .walk
  res : Nat := 0
  tc : Nat := 0
  /-- Arrival at the replay queue, and whether the request was judged before it was parked (R232, R245). -/
  arr : Nat := 0
  judged : Bool := false
  /-- Held for a credit, both queues being full, and counted so (R246). -/
  credit : Bool := false
  deriving DecidableEq, Repr

/-- A memory instruction as its accesses need it. `width` is in bytes; `dst` the destination of a load or
atomic (`none` where it has none or names z). -/
structure MemDesc where
  kind : MemKind
  ty : Ty
  width : Nat
  scope : Scope := .device
  ord : Ord := .none
  dst : Option Opnd := none
  uni : Bool := false
  cls : Option Cls := none
  pc : DWord := 0
  word0 : Word := 0
  /-- The issuing run and Active. -/
  run : Word := 0
  act : Word := 0
  /-- Helper lanes among Active (R187). -/
  helpers : Word := 0
  /-- The operand-log entry that this operation re-issues (R214). -/
  reissue : Option Nat := none
  /-- Where a load places its line: L1 too, or the cluster cache alone, marked first to evict (R201). -/
  l1 : Bool := false
  nt : Bool := false
  deriving DecidableEq, Repr

/-- Matrix multiply formats (Table 17-11). -/
inductive MmaK
  | b16 | h16 | f8a | f8b | f6a | f6b | f4 | i8 | f32 | d64
  deriving DecidableEq, Repr

/-- A queued matrix operation by its tiles (R281–R284). -/
inductive MOp
  | mma (k : MmaK) (c a b : Nat)
  | lutbld (d a : Nat)
  | lutmm (wb c a b : Nat)
  | czero (c : Nat)
  | ccvt (dty : Ty) (src : CSrc) (sat : Bool) (d c : Nat)
  | tscl (t : Option Nat)
  | tperm (t : Option Nat)
  deriving DecidableEq, Repr

/-- A lane-side tile instruction with the data it has read (R273, R274): offsets and quads of TWR, lanes and offsets of
TRD. -/
inductive TileOp
  | topen
  | twr (ws : List (Nat × Nat))
  | tseal
  | tdrain
  | trd (d : Opnd) (rs : List (Nat × Nat))
  | tfree
  deriving DecidableEq, Repr

/-- How far a contribution has come (R311, R317). -/
inductive StreamSt
  /-- Held until lower-numbered members have arrived. -/
  | waiting
  /-- Its reduce-copy runs. -/
  | running
  /-- Its last chunk has been reported: the status of its first failed chunk (0 for none), its failed chunks and its
  saturated elements. -/
  | ended (status failed sat : Nat)
  deriving DecidableEq, Repr

/-- A contribution (R311): its meeting by the record's key, member, tag, payload, the round whose slot it goes to, and
the exponent of its weight. -/
structure Stream where
  meet : Nat
  member : Nat
  tag : Nat
  buf : DWord
  round : Nat := 0
  folded : Bool := false
  wexp : Nat := 0
  lockok : Bool := false
  st : StreamSt := .waiting
  deriving DecidableEq, Repr

/-- A queue instruction (R252–R256). -/
inductive QKind
  | enq
  | msg (handler : Nat)
  | deq
  | stat
  deriving DecidableEq, Repr

/-- A queue instruction at its slice (R252): its handle, destination and predicate, the lanes of Active, whether the slice has begun it and
when it recorded it, the lanes still to be served with their payloads, and the lanes served with their entries. -/
structure QueueOp where
  kind : QKind
  handle : Nat
  dst : Option Opnd := none
  pd : Nat := 15
  run : Word := 0
  act : Word := 0
  begun : Bool := false
  at_ : Nat := 0
  todo : List (Nat × Nat) := []
  served : List (Nat × Nat) := []
  deriving DecidableEq, Repr

/-- What an outstanding operation is. -/
inductive OpKind
  | mem (m : MemDesc) (accs : List Acc)
  /-- LNCH (R182): its predicate, the launch queue, and the record it copied at issue. -/
  | lnch (pd q : Nat) (record : List Byte)
  /-- An operation that its unit has performed or refused, not yet reported: the destination and its words by lane, the
  predicate with the lanes written and their bits, and the instant reported, if any. -/
  | reply (d : Option Opnd) (w : Nat) (vals : List (Nat × Nat)) (pd : Option (Nat × Word × Word)) (tc : Option Nat)
  /-- A queue instruction on its way to its slice, or there (R252). -/
  | queue (q : QueueOp)
  /-- A lane-side tile instruction on tile `t` (R274). -/
  | tile (t : Nat) (k : TileOp)
  /-- A matrix operation queued at some cores (R279). -/
  | seqop (cores : List Nat)
  /-- A copy request by its record's scratchpad address (R298). -/
  | copy (addr : Nat)
  /-- MCONT (R311): its destination, its lanes and its stream. -/
  | mcont (d : Opnd) (lanes : Word) (m : Stream)
  /-- MRSLT (R313): its destination, its lanes, the meeting, member, tag and buffer; the status with which it will be answered once its
  result has been written. -/
  | mrslt (d : Opnd) (lanes : Word) (meet member tag : Nat) (buf : DWord) (serving : Option Nat := none)
  deriving DecidableEq, Repr

/-- A request that a unit makes for itself and waits for: its agent, the context it acts for, and the access (R224, R250). -/
structure Ask where
  /-- The event that makes the request: its kind and its subject. -/
  tag : Nat × Nat
  agent : Nat
  ctx : Nat := 0
  key : Nat
  width : Nat
  kind : MemKind
  ty : Ty := .b32
  data : Nat := 0
  data2 : Nat := 0
  lockok : Bool := false
  mig : Bool := true
  deriving DecidableEq, Repr

/-- What an operation of memory accesses is made for. -/
inductive Job
  /-- An instruction of its group. -/
  | instr
  /-- A request that a unit waits for. -/
  | unit (a : Ask)
  /-- A write that a slice's unit makes for the meeting or queue `tag` and does not wait for (R224). -/
  | own (tag : Nat)
  /-- A pushed delta; the groups that its instants are reported to (R67, R68), and the launch whose team's end pushed it (R36). -/
  | push (reports : List Nat) (launch : Option Nat)
  /-- A write to host memory on its way over the host link, until it is acknowledged (R68). -/
  | link
  /-- A call-stack spill or refill (R177). -/
  | stack
  /-- The reads, or the writes, of a copy chunk (R299). -/
  | chunk
  /-- The record of a write grant in the dirty-frame bitmap, for a region (R242). -/
  | dirty (region : Nat)
  /-- The trace record of a core in a slot (R380). -/
  | trace (core slot : Nat)
  /-- A prefetch, which no instruction waits for (R208). -/
  | outside
  /-- An access of a system core (R347). -/
  | sys (core : Nat)
  /-- A request of the host to device memory (R359). -/
  | host
  /-- The entry that the hub writes in slot `slot` of a notification or system-call ring (R355). -/
  | entry (ring slot : Nat)
  /-- The result of a meeting, written for the MRSLT `op` (R313). -/
  | result (op : Nat)
  deriving DecidableEq, Repr

/-- An outstanding operation (R15–R18): its group (0: no group's), its class and its position there. -/
structure Op where
  gid : Nat
  cls : Option Cls := none
  pos : Nat := 0
  ctx : Nat := 0
  cluster : Nat := 0
  core : Nat := 0
  kind : OpKind
  job : Job := .instr
  /-- Of the migration class of copy requests (R246). -/
  migClass : Bool := false
  /-- Not answered before a slice's own writes sent earlier than this one have been performed (R311, R321). -/
  after : Nat := 0
  deriving DecidableEq, Repr

/-! ### Blocking (R39, Tables 2-4 and 2-8) -/

/-- A gate entry as GCALL and SYSC read it (Table 21-2). -/
structure GateEnt where
  entry : DWord := 0
  tctx : Nat := 0
  timeout : Nat := 0
  ress : Nat := 0
  resv : Nat := 0
  args : Nat := 0
  argv : Nat := 0
  scnt : Nat := 0
  vgran : Nat := 0
  valid : Bool := false
  alllanes : Bool := false
  nest : Bool := false
  preempt : Bool := false
  mayfault : Bool := false
  scratchKib : Nat := 0
  trapent : DWord := 0
  callers : DWord := 0
  targs : DWord := 0
  tcstack : DWord := 0
  /-- The reserved bits, in order (must be zero). -/
  reserved : Nat := 0
  deriving DecidableEq, Repr

/-- GCALL or SYSC (`kern`) of gate `g` waiting for the gate unit since `since`: its status register, its entry and its
lanes (R331, R339). What issues meanwhile is read from R331 (DEDUCED, log 53). -/
structure GateWait where
  k : Nat
  g : Nat
  kern : Bool
  e : GateEnt
  lanes : Word
  since : Nat
  deriving DecidableEq, Repr

/-- The condition on which a group, or a sequencer, is blocked, whole (DEDUCED, log 35). -/
inductive Block
  | none
  /-- Page walks of the operation's lanes (R211). -/
  | walk (op : Nat)
  /-- Label verdict of the operation's lanes (R216). -/
  | verdict (op : Nat)
  /-- FENCE, or the fence that follows an acquire (R69, R205): `lanes` advance at its end. -/
  | fence (sc : Scope) (lanes : Word)
  /-- The fence before a release, and the access that follows it (R69). -/
  | release (sc : Scope) (m : MemDesc) (accs : List Acc)
  | wait (ld st cp mx mt : Nat) (lanes : Word)
  /-- CALL or RET until its spills are accepted or its refills have come: the lanes that wait, as they will be (R177). -/
  | stack (op : Nat) (to_ : List (Nat × Lane))
  /-- MONARM until its core's copy reads `till` (R206). -/
  | monarm (op : Nat) (till : Nat) (lanes : Word)
  | mwait (pd : Nat) (till : Nat) (lanes : Word)
  | cinv (op : Nat) (lanes : Word)
  /-- A queue instruction until its slice has performed or refused it (R252). -/
  | queue (op : Nat)
  /-- BOWAIT at scratchpad address `addr`; `till` is none for no limit reached in 64 bits (R302). -/
  | bowait (pd : Nat) (addr : Nat) (till : Nat) (lanes : Word)
  | grow (n : Nat) (must : Bool) (pd : Nat) (lanes : Word) (since : Nat)
  /-- A lane-side tile instruction that waits for the state of tile `t` (R270). -/
  | tile (t : Nat) (k : TileOp) (since : Nat) (run act : Word)
  /-- A sequencer's operation that waits for tile states or a queue slot on the cores that `sel` selects; `since` is none while only slots
  are missing (R279). -/
  | seqop (m : MOp) (sel : Nat) (since : Option Nat)
  /-- TWAIT until tile `t` is in state `st` on some cores (R285). -/
  | twait (op t st : Nat) (cores : List Nat) (since : Nat)
  /-- SQWAIT (R276); `met` once the counter has reached the threshold. -/
  | sqwait (n : Nat) (a : Word) (cap : Option Nat) (since : Nat) (met : Bool) (run act : Word)
  | sqsig (n : Nat) (a : Word) (lanes : Word)
  /-- MRSLT waiting for its answer (R313). -/
  | meet (op : Nat) (lanes : Word)
  /-- AMDONE waiting for its fence (R258). -/
  | amdone (run act : Word)
  /-- Parked in a kernel gate (R339). -/
  | sysc
  /-- Every entered lane has arrived at GRET; the fence that ends the call has started (R335). -/
  | gret
  /-- A forced unwind of the frame at depth `depth`, with its status and cause, until the counters have drained; `fenced`
  once its fence has started (R338). -/
  | unwind (depth status cause : Nat) (fenced : Bool := false)
  deriving DecidableEq, Repr

/-- A gate frame (Table 21-4), the fields of its gate entry that the call goes on to need, the service scratch, and the
caller's block and register window (R332, R334, R340). -/
structure Frame where
  retpc : DWord := 0
  /-- `none`: no deadline. -/
  deadline : Option Nat := none
  caller : Nat := 0
  entered : Word := 0
  kern : Bool := false
  gate : Nat := 0
  sdest : Nat := 0
  tctx : Nat := 0
  cbase : Nat := 0
  xbase : Nat := 0
  xkib : Nat := 0
  trapent : DWord := 0
  resv : Nat := 0
  ress : Nat := 0
  nest : Bool := false
  preempt : Bool := false
  mayfault : Bool := false
  /-- The request id of a kernel gate's call, 0 until its request has been posted (R339, R355). -/
  req : Nat := 0
  /-- The scalars of a kernel gate's request block and its words by lane: ARG_S and ARG_V of its gate (R357). -/
  argn : Nat := 0
  argv : Nat := 0
  /-- The core whose service area holds the request block. -/
  bcore : Nat := 0
  /-- Service scratch (R333). -/
  scratch : Map Byte := []
  /-- The caller's lanes, registers and block. -/
  lanes : List Lane := []
  v : Map Word := []
  sc : Map Word := []
  p : Map Word := []
  b : Map Word := []
  nregs : Nat := 8
  sregs : Nat := 1
  /-- The caller's granule map (R332). -/
  gmap : List Nat := []
  cstack : DWord := 0
  args : DWord := 0
  fpflags : BitVec 6 := 0
  helper : Word := 0
  mon : Monitor := {}
  poison : Map Poison := []
  deriving DecidableEq, Repr

/-- A lane group (R23, R35, R46), or the sequencer of a gang (R278), which is held as a group of one lane whose
scalars are s0–s63 and whose predicates are read at lane 0 (DESIGN CHOICE, log 76). -/
structure Group where
  isSeq : Bool := false
  /-- The context that launched the group, and the current context (%ctxid). -/
  ctx0 : Nat := 0
  ctx : Nat := 0
  launch : Nat := 0
  gang : Nat := 0
  team : Nat := 0
  grp : Nat := 0
  cluster : Nat := 0
  core : Nat := 0
  lanes : List Lane := List.replicate 32 {}
  /-- Register `vk` of lane `l` at key `32 * k + l` (R129). -/
  v : Map Word := []
  /-- Scalar registers (R134). -/
  sc : Map Word := []
  /-- Predicates p0–p14 (R135). -/
  p : Map Word := []
  /-- Rejoin barriers b0–b15 (R179). -/
  b : Map Word := []
  nregs : Nat := 8
  sregs : Nat := 1
  /-- The granule map: entry `j` is the granule of the core's store that holds v(8j) to v(8j + 7) (R129). -/
  gmap : List Nat := []
  ctime : DWord := 0
  fpflags : BitVec 6 := 0
  cstack : DWord := 0
  args : DWord := 0
  cnt : Counters := {}
  mon : Monitor := {}
  helper : Word := 0
  trapq : List TrapRec := []
  hmode : Bool := false
  log : Map LogEntry := []
  /-- The resolved entry that issues next (R214). -/
  reissue : Option Nat := none
  frames : List Frame := []
  block : Block := .none
  /-- Lanes that a fence of a re-issued acquire or release holds, its scope, and the accesses that follow it (R214). -/
  fences : List (Word × Scope × Option (MemDesc × List Acc)) := []
  /-- Where the group's save record lies while it is switched out (R46). -/
  saved : Nat := 0
  /-- A gate call that waits; only the group's parked lanes and its trap handler issue meanwhile (R331). -/
  gcall : Option GateWait := none
  /-- Held under R192. -/
  held : Bool := false
  /-- Held by the debug unit (R375). -/
  dbgHeld : Bool := false
  /-- The comparator that does not stop the next issue at a PC (R191): breakpoints 0–3, watchpoints 4–7. -/
  once : Option (Nat × DWord) := none
  /-- Poisoned registers (key as in `v`; a scalar's at 32·(512 + k)) (R217). -/
  poison : Map Poison := []
  /-- Scheduling (R38, R40): in the active set, since when ready, since when active. -/
  active : Bool := true
  readyAt : Nat := 0
  /-- It has issued since it became ready (R40). -/
  served : Bool := false
  activeAt : Nat := 0
  /-- Bits 31:0 of the word issued last, for traps raised while the group is blocked. -/
  word0 : Word := 0
  /-- The PC of the run that the starvation guard issues next (R42). -/
  pick : Option DWord := none
  /-- Issues, parks, traps and blocked clocks since the last SUMMARY record (R376). -/
  trIssues : Nat := 0
  trParks : Nat := 0
  trTraps : Nat := 0
  trBlocked : Nat := 0
  /-- A handler group's queue (slice and number) and the lanes whose messages are not done (R257). -/
  am : Option (Nat × Nat × Word) := none
  /-- The context killed or storage-error stop: the group issues nothing more. -/
  dead : Bool := false
  deriving DecidableEq, Repr

/-- A team (R23, R34). -/
structure Team where
  core : Nat := 0
  scratch : Nat := 0
  /-- The granules of the core's store that hold the scratchpad (R128). -/
  grans : List Nat := []
  sp : Map Byte := []
  barMask : BitVec 16 := 0
  barGen : Bool := false
  live : Bool := true
  /-- Its exit-fired copy is being performed (R304). -/
  copying : Bool := false
  status : Nat := 0
  deriving DecidableEq, Repr

/-- A gang (R23, R26, R276). -/
structure Gang where
  ctx : Nat := 0
  launch : Nat := 0
  idx : Nat := 0
  gx : Nat := 0
  gy : Nat := 0
  gz : Nat := 0
  cluster : Nat := 0
  sigs : Map Word := []
  seq : Option Nat := none
  teams : List Team := []
  /-- Memberships: meeting key, member, and the context that joined (R310, R315). -/
  meets : List (Nat × Nat × Nat) := []
  /-- A handler gang of the owner context (R257). -/
  am : Bool := false
  deriving DecidableEq, Repr

/-- A launch record (Table 2-2). -/
structure LRec where
  code : DWord := 0
  seqcode : DWord := 0
  args : DWord := 0
  ngx : Nat := 1
  ngy : Nat := 1
  ngz : Nat := 1
  teams : Nat := 1
  groups : Nat := 1
  vregs : Nat := 8
  sregs : Nat := 1
  coop : Bool := false
  scratch : Nat := 0
  wtiles : Nat := 0
  atiles : Nat := 0
  ctiles : Nat := 0
  prio : Nat := 0
  dep0 : DWord := 0
  dep0v : DWord := 0
  dep1 : DWord := 0
  dep1v : DWord := 0
  done : DWord := 0
  status : DWord := 0
  xtmpl : DWord := 0
  xstride : DWord := 0
  /-- The reserved fields, in order (must be zero). -/
  reserved : Nat := 0
  deriving DecidableEq, Repr

/-- A launch queue (R29): its context and local number, its ring, its words, the scheduler's count of taken records,
and the launch it has taken and not wholly started. -/
structure LQ where
  ctx : Nat := 0
  num : Nat := 0
  ring : DWord := 0
  slots : Nat := 16
  ceil : Nat := 0
  headVa : DWord := 0
  tailVa : DWord := 0
  head : Nat := 0
  cur : Option Nat := none
  stopped : Bool := false
  deriving DecidableEq, Repr

/-- A launch taken from a queue (R27–R37). -/
structure Launch where
  ctx : Nat := 0
  queue : Nat := 0
  lseq : Nat := 0
  lr : LRec := {}
  met0 : Bool := false
  met1 : Bool := false
  started : Nat := 0
  ended : Nat := 0
  badTeams : Nat := 0
  worst : Nat := 0
  /-- Outcome of Table 2-3; a rejected launch runs no gang. -/
  outcome : Nat := 0
  /-- XCOPY_TMPL as read at admission: none where absent, `some none` where malformed (R304). -/
  tmpl : Option (Option CopyRec) := none
  /-- The template combines as CPYR does (log 41). -/
  reduce : Bool := false
  /-- When the status word of a finished launch was written, or found not to be writable (R36). -/
  told : Option Nat := none
  /-- Effective priority (R31). -/
  prio : Nat := 0
  deriving DecidableEq, Repr

/-! ### Home slices and copies (03, 14, 15) -/

/-- Sharing labels, by their codes (Table 14-3): 0 UNCL, 1 PRIV, 2 RO, 3 MIGR, 4 PC, 5 CONT. -/
inductive Label
  | uncl | priv | ro | migr | pc | cont
  deriving DecidableEq, Repr

/-- A reclassification in progress (R234): the label it records, and the LBLSET, if any, that started it (its
assertion and lock). `evict` frees the entry instead (R225). -/
structure Close where
  label : Label
  owner : Nat
  evict : Bool := false
  /-- Started by an LBLSET, not by the classifier (R239). -/
  assertion : Bool := false
  deriving DecidableEq, Repr

/-- A directory entry (Table 14-2). ATOMC is the number of agents in `atoms`; `cons` counts the readers of PC
without a copy; `uses` is the owner cache's use count under MIGR (R229). -/
structure Dir where
  gb : Bool := false
  rag : Nat := 0
  wsp : Bool := false
  label : Label := .uncl
  asrt : Bool := false
  lock : Bool := false
  owner : Nat := 0
  seq : BitVec 8 := 0
  rdr : List Nat := []
  rovf : Bool := false
  wrt : List Nat := []
  wovf : Bool := false
  run : Nat := 0
  short : Bool := false
  atoms : List Nat := []
  wcnt : Nat := 0
  wst : Bool := false
  cons : Nat := 0
  vbnd : Nat := 0
  uses : Nat := 0
  /-- A consumer other than the producer read in this window (Table 14-5, PC). -/
  conread : Bool := false
  /-- Instant of the last lease extension (R230). -/
  extAt : Nat := 0
  /-- Age for eviction (R225). -/
  used : Nat := 0
  closing : Option Close := none
  /-- Where the entry lies in its slice's table (R352). -/
  slot : Nat := 0
  deriving DecidableEq, Repr

/-- A timed update or an extension (`ext`) on its way to a holder: the bound it carries, and its place among the messages sent (R230). -/
structure CtlMsg where
  bound : Nat
  ext : Bool := false
  seq : Nat := 0
  deriving DecidableEq, Repr

/-- A copy of a line granted by its home to an agent (R227): `bound = none` is ∞. `held`: the cluster cache still holds
it; an agent that has dropped it keeps its place with the home until the bound or an invalidation ends it. `nt`: first to
evict (R201). Its data are those of memory at its holder's reading of the Regulator (DEDUCED, log 14). `read` and
`idle` serve the extensions of R230; `inval` is an invalidation sent and not acknowledged; `msgs` are messages on their way,
oldest first, and `acks` counts extensions applied and not acknowledged (R230). -/
structure Copy where
  line : Nat
  agent : Nat
  bound : Option Nat := none
  held : Bool := true
  nt : Bool := false
  read : Bool := false
  idle : Nat := 0
  inval : Bool := false
  msgs : List CtlMsg := []
  acks : Nat := 0
  deriving DecidableEq, Repr

/-- A line delegated to the owner's cluster cache, with or without the write grant (R229). -/
structure Deleg where
  line : Nat
  cluster : Nat
  write : Bool := false
  /-- A recall has been sent (R229). -/
  recalled : Bool := false
  deriving DecidableEq, Repr

/-- A combining entry of a cluster cache (R71): the operation, its type, the base bytes of the line, the delta at
each word's offset, and the context whose team pushed last. -/
structure Delta where
  cluster : Nat
  line : Nat
  op : AOp
  ty : Ty
  base : List Byte
  cells : Map Nat := []
  ctx : Nat := 0
  lockok : Bool := false
  mig : Bool := false
  deriving DecidableEq, Repr

/-- A write of a PC region whose instant T_c lies ahead (R230), and the access that waits for it. -/
structure Timed where
  tc : Nat
  key : Nat
  width : Nat
  kind : MemKind
  ty : Ty
  data : Nat
  data2 : Nat := 0
  who : Option (Nat × Nat) := none
  deriving DecidableEq, Repr

/-- What a timed write has replaced, kept while a Regulator copy may still read an earlier instant (R64, R227). -/
structure Past where
  tc : Nat
  key : Nat
  bytes : List Byte
  deriving DecidableEq, Repr

/-- A watcher of a slice's watch table (R72), oldest first. -/
structure Watch where
  line : Nat
  gid : Nat
  deriving DecidableEq, Repr

/-- A frame's migration counters (R243). -/
structure MigCnt where
  frame : Nat
  loc : BitVec 16 := 0
  far : BitVec 16 := 0
  last : Nat := 0
  deriving DecidableEq, Repr

/-- A queue descriptor (Table 15-3), with the last error of its items (R255). -/
structure QDesc where
  stall : Bool := false
  logcap : Nat := 0
  open_ : Bool := false
  am : Bool := false
  en : Bool := false
  owner : Nat := 0
  ring : DWord := 0
  wake : DWord := 0
  htab : DWord := 0
  maxg : Nat := 0
  cluster : Nat := 0
  core : Nat := 0
  head : Nat := 0
  tail : Nat := 0
  done : Nat := 0
  lasterr : Nat := 0
  deriving DecidableEq, Repr

/-- The registers of a slice (Tables 14-4, 15-2, R352), its queues and its counters. -/
structure Slice where
  lease : Nat := 2048
  win : Nat := 16
  amiss : Word := 0
  lbrk : Word := 0
  migth : Nat := 256
  ovfbase : Nat := 0
  ovfsize : Nat := 0
  ovfhold : Word := 0
  /-- Overflowed privileged requests in arrival order (R246): operation and lane; the entries ever written to the ring. -/
  ovf : List (Nat × Nat) := []
  ovfTail : Nat := 0
  qd : Map QDesc := []
  mig : List MigCnt := []
  /-- SL_DIRIDX; SL_DIRPA with its MISS bit; the latched entry (R352). -/
  diridx : Nat := 0
  dirpa : Nat := 0
  dirmiss : Bool := false
  latch : Option Nat := none
  deriving DecidableEq, Repr

/-! ### The hub and host memory (03, 23) -/

/-- A 64-byte notification or system-call entry (Table 23-6): KIND, the context, and the fields from byte 0x08 on,
each a width in bytes and a value. The places beyond KIND and the context are the model's (DESIGN CHOICE, log 21). -/
structure Notice where
  kind : Nat
  ctx : Nat
  body : List (Nat × Nat) := []
  deriving DecidableEq, Repr

/-- A notification or system-call ring (Table 23-14). -/
structure Ring where
  base : Nat := 0
  en : Bool := false
  log2 : Nat := 0
  head : Nat := 0
  tail : Nat := 0
  deriving DecidableEq, Repr

/-- A queued hub command (R353). -/
structure Command where
  code : Nat
  tag : Nat
  args : List Nat
  /-- The number of the first operation sent after its issue: its core's stores before that come first (R353). -/
  seq : Nat := 0
  deriving DecidableEq, Repr

/-- A command port (R353): argument registers, HC_STAT's TAG and status, and the queued commands, oldest
first. -/
structure Port where
  args : Map Nat := []
  tag : Nat := 0
  code : Nat := 0
  queue : List Command := []
  /-- Commands held while sixteen are queued. -/
  held : List Command := []
  /-- HARVEST, CTX_PREEMPT or CTX_KILL performed as far as their waits allow. -/
  busy : Bool := false
  /-- How far the HARVEST at the head has come, and the latest instant of its atomics (R242). -/
  pos : Option Nat := none
  tc : Nat := 0
  deriving DecidableEq, Repr

/-- The hub's registers and queues (R349–R355). -/
structure Hub where
  ctxtab : Nat := 0
  dirtyBase : Nat := 0
  dirtyEn : Bool := false
  hlt : Nat := 0
  hltsz : Nat := 0
  mode : Nat := 0
  svc : Nat := 0
  errcnt : Word := 0
  /-- The device error record: refused writes of slice registers, as offset and value (R231). -/
  devErrs : List (Nat × Nat) := []
  ports : Map Port := []
  rings : Map Ring := []
  /-- Entries held for a full or disabled ring, oldest first, with their ring (R355). -/
  heldNotes : List (Nat × Notice) := []
  binds : Map Nat := []
  deriving DecidableEq, Repr

/-- A 2 MiB granule of host memory (R63): whether the device owns it, since when, and a transfer in progress (to
the device or away from it). -/
structure Gran where
  dev : Bool := false
  since : Nat := 0
  xfer : Option Bool := none
  /-- The side that does not own it waits for the hold to run out. -/
  want : Bool := false
  deriving DecidableEq, Repr

/-- The host link (R358, R359) and the granules (R63); how they stand after reset is the model's (DESIGN CHOICE, log 4). -/
structure HostLink where
  up : Bool := true
  width : Nat := 16
  rate : Nat := 64
  downAt : Nat := 0
  /-- Cut by a hot reset since; host accesses are held (R358). -/
  reset : Bool := false
  /-- Requests of the host that have failed with HOST_LINK_RESET since the reset (R358). -/
  failed : Nat := 0
  grans : Map Gran := []
  deriving DecidableEq, Repr


/-! ### The matrix engine (17) -/

/-- Tile states (R271). -/
inductive TileSt
  | empty | filling | ready | draining
  deriving DecidableEq, Repr

/-- Stamps of a tile's use, as Regulator readings (Table 24-4). -/
structure Stamps where
  fill : Option Nat := none
  fillEnd : Option Nat := none
  wait : Option Nat := none
  cstart : Option Nat := none
  cend : Option Nat := none
  outEnd : Option Nat := none
  deriving DecidableEq, Repr

/-- A tile of a core (R265, R271): the gang and team it is allocated to, its state and flags, its contents (bytes not
listed are zero), the bytes in uncorrectable error, and its stamps. -/
structure Tile where
  team : Option (Nat × Nat) := none
  st : TileSt := .empty
  sat : Bool := false
  err : Bool := false
  data : Map Byte := []
  bad : List Nat := []
  stamps : Stamps := {}
  deriving DecidableEq, Repr

/-- An entry of a core's matrix queue (R279): its operation, its gang, the scale tile in force at its place, and, once started, the clock
at which it ends, what it will have written to its destinations (with whether an element clamped) and a tile found in error; `noted`: its
writes have been made. -/
structure QEnt where
  op : Nat
  gang : Nat
  m : MOp
  scale : Option Nat := none
  till : Option Nat := none
  out : List (Nat × List Byte × Bool) := []
  bad : Option Nat := none
  noted : Bool := false
  deriving DecidableEq, Repr

/-- The tiles and bindings of a saved team (R48). -/
structure SavedTiles where
  gang : Nat
  team : Nat
  tiles : Map Tile := []
  scale : Option Nat := none
  perm : Option (List Nat) := none
  deriving DecidableEq, Repr

/-! ### Debug and trace (24) -/

/-- A gap in a trace buffer (R380): the slot to be tried next, the first slot not written, the records dropped, the
pages skipped, the reading at the first drop and the first page that failed. -/
structure Gap where
  pos : Nat
  first : Nat
  dropped : Nat := 1
  pages : Nat := 0
  regt : Nat := 0
  va : Nat := 0
  deriving DecidableEq, Repr

/-- The debug and trace unit of a core (Table 24-1). -/
structure Dbg where
  nq : Nat := 0
  claim : Nat := 0
  bp : List DWord := [0, 0, 0, 0]
  bpctl : Nat := 0
  wplo : List DWord := [0, 0, 0, 0]
  wphi : List DWord := [0, 0, 0, 0]
  wpctl : Nat := 0
  trctl : Nat := 0
  trsel : Nat := 0
  trbase : Nat := 0
  trsize : Nat := 0
  trhead : Nat := 0
  trtail : Nat := 0
  trdrop : Nat := 0
  gap : Option Gap := none
  /-- The group selected for full detail (R376). -/
  sel : Option Nat := none
  deriving DecidableEq, Repr

/-! ### Copy engines (19) -/

/-- Whose work a copy request is (R292, R311). -/
inductive CopyFor
  /-- CPY or CPYR: the operation. -/
  | op (id : Nat)
  /-- The exit-fired copy of a team (R304). -/
  | exit (gang team : Nat)
  /-- A migration request of system software. -/
  | mig
  /-- The stream of an MCONT: the operation, the accumulator's memory key, its weight's exponent, and whether locked labels
  may refuse it. -/
  | meet (id key wexp : Nat) (lockok : Bool)
  deriving DecidableEq, Repr

/-- Where one side of a piece lies: a memory key with whether locks apply and migration counts, or a tile and an offset. -/
inductive Place1
  | key (k : Nat) (lockok mig : Bool)
  | tile (t o : Nat)
  deriving DecidableEq, Repr

/-- A piece of a chunk: bytes of one row that cross no 128-byte line on either side (R292). -/
structure Piece where
  src : Place1
  dst : Place1
  n : Nat
  deriving DecidableEq, Repr

/-- How far a chunk has come: on its way, reading its source, writing its destination, or acknowledged or refused (R299). -/
inductive Stage
  | sent | reading | writing | over
  deriving DecidableEq, Repr

/-- What became of a chunk on its way: its status, the latest instant of its writes and its saturated elements (R299). -/
structure ChunkRes where
  status : Nat := 0
  tc : Nat := 0
  sat : Nat := 0
  deriving DecidableEq, Repr

/-- A chunk in flight: its pieces, once placed, with the values read, and the operations that read or write them. -/
structure Flight where
  chunk : Nat
  stage : Stage := .sent
  ps : List Piece := []
  vals : List Nat := []
  ops : List Nat := []
  res : ChunkRes := {}
  deriving DecidableEq, Repr

/-- A copy request at an engine (R292–R301): its group, its record's scratchpad address, whether it combines, the release wait of R298 by
the group's operations before it and its %ctime; the chunks issued and reported, those in flight, and its status
fields. -/
structure CopyReq where
  who : CopyFor
  gid : Nat := 0
  ctx : Nat := 0
  cluster : Nat := 0
  gang : Nat := 0
  team : Nat := 0
  addr : Nat := 0
  reduce : Bool := false
  r : CopyRec
  before : List Nat := []
  ctime : Nat := 0
  started : Bool := false
  issued : Nat := 0
  reported : Nat := 0
  flight : List Flight := []
  fstat : Nat := 0
  fcount : Nat := 0
  ffirst : Nat := 0
  satcnt : Nat := 0
  bytes : Nat := 0
  deriving DecidableEq, Repr

/-- A channel of a copy engine: its requests, oldest first, and the grants it has waited through (R303). -/
structure Chan where
  reqs : List CopyReq := []
  waited : Nat := 0
  deriving DecidableEq, Repr

/-- A line that a core's L1 holds (R201): it carries the bound of its cluster's copy, or lasts while the line is delegated to the
cluster (R227, R229). -/
structure L1Line where
  line : Nat
  /-- The granule of the unified store that holds it (R128). -/
  gran : Nat
  deriving DecidableEq, Repr

/-- What a core holds besides its groups: the tile table and buffers, the matrix queue with its bindings, the copy
engine's channels with the channel served last, the gate unit's service area as system cores write it, and the debug
unit. -/
structure CoreSt where
  /-- Lines in L1, the latest first. -/
  l1 : List L1Line := []
  tiles : Map Tile := []
  queue : List QEnt := []
  scale : Option Nat := none
  perm : Option (List Nat) := none
  chans : Map Chan := []
  lastChan : Nat := 15
  svc : Map Byte := []
  dbg : Dbg := {}
  deriving DecidableEq, Repr

/-! ### Meetings (19) -/

/-- A meeting that a Chime unit holds while it is active (R306): the fields read at activation, and those it writes
back. -/
structure Meet where
  n : Nat
  k : Nat
  l : Nat
  fmt : Nat
  op : Nat
  lag : Nat
  late : Nat
  ord : Bool
  cls : Nat
  chan : Nat
  open_ : Nat
  live : Nat
  stall : Bool
  disc : Nat
  /-- K has been written and its effects are due at that instant (R316). -/
  kNew : Bool := false
  /-- Own-tag arrivals of the rounds not yet closed: round and member (R317). -/
  mine : List (Nat × Nat) := []
  deriving DecidableEq, Repr

/-- A departure (R315): the meeting's key, the member, and the context and gang, or the device, that it left with. -/
structure Depart where
  meet : Nat
  member : Nat
  ctx : Nat := 0
  gang : Nat := 0
  dev : Option Nat := none
  deriving DecidableEq, Repr

/-! ### Host devices and the management controller (23) -/

/-- An NVMe lease (Table 23-8) with the commands in the drive, each with the frames its data pointers pin, and the
completions posted: command id and status. None at reset (PRESUMED, log 5). -/
structure Lease where
  ctx : Nat := 0
  nsid : Nat := 0
  lo : Nat := 0
  hi : Nat := 0
  ops : List NvmeOp := []
  sq : Nat := 0
  cq : Nat := 0
  depth : Nat := 0
  queue : Nat := 256
  revoked : Bool := false
  drive : List (NvmeCmd × List Nat) := []
  posted : List (Nat × Nat) := []
  /-- The data of the drive's oldest read are being moved; the place of its free bytes. -/
  moving : Option Nat := none
  deriving DecidableEq, Repr

/-- A flash request that the controller holds (Table 23-9): its slot and its fields. -/
structure FlashReq where
  slot : Nat
  /-- The I/O core whose local memory holds the entry (R364). -/
  core : Nat := 0
  op : Nat
  count : Nat
  lba : Nat
  buf : Nat
  status : Nat := 0
  deriving DecidableEq, Repr

/-- A leased flash ring (R364). -/
structure FlashRing where
  ctx : Nat := 0
  lo : Nat := 0
  hi : Nat := 0
  ops : List NvmeOp := []
  ring : Nat := 0
  slots : Nat := 16
  headVa : Nat := 0
  tailVa : Nat := 0
  head : Nat := 0
  taken : List FlashReq := []
  stopped : Bool := false
  deriving DecidableEq, Repr

/-- An Ethernet ring (R361): the frames that have passed through it. -/
structure EthRing where
  frames : List (List Byte) := []
  deriving DecidableEq, Repr

/-- A system core as the device sees it (R347): the latest instant of its accesses, the value its last read obtained, and its fences
rw,rw completed. -/
structure SysCore where
  last : Nat := 0
  got : Nat := 0
  fences : Nat := 0
  deriving DecidableEq, Repr

/-- The configuration record in force (R365), with bitmaps of disabled units (DESIGN CHOICE, log 3: before POWER_GOOD). -/
structure Cfg where
  seq : Nat := 0
  mode : Nat := 0
  flash : Bool := false
  devnum : Nat := 0
  clusters : Nat := 0
  cores : Nat := 0
  slices : Nat := 0
  hbm : Nat := 0
  links : Nat := 0
  clock : Nat := 1300
  power : Nat := 2400
  deriving DecidableEq, Repr

/-- An SPDM answer (R366): the request's code, a result, and the data it carries. -/
structure SpdmAns where
  code : Nat
  ok : Bool
  data : List Byte := []
  deriving DecidableEq, Repr

/-- The management controller (R365–R369): the record in force, the stored record and whether its signature verifies, the
highest SEQ accepted, the stage reached, the move to full service in progress, the lantern report (stage, unit, code), the units
disabled for this bring-up, the islands' clocks in MHz, the measurements, whether algorithms are negotiated, the answers sent,
and the failure reports sent (stage, unit, code, SEQ). -/
structure Mgmt where
  cfg : Cfg := {}
  stored : Cfg := {}
  signed : Bool := true
  maxSeq : Nat := 0
  stage : Nat := 0
  moving : Bool := false
  lantern : Option (Nat × Nat × Nat) := none
  badUnits : List Nat := []
  clocks : Map Nat := []
  measures : Map (List Byte) := []
  agreed : Bool := false
  answers : List SpdmAns := []
  reports : List (Nat × Nat × Nat × Nat) := []
  deriving DecidableEq, Repr
/-! ### Contexts (03, 21, 23) -/

/-- What an entry of a context's error record carries (R356). -/
inductive ErrRec
  /-- A trap that was not delivered (R180, R192). -/
  | trap (gid : Nat) (t : TrapRec)
  /-- A gang error record (Table 17-10). -/
  | gang (idx team tile cause status : Nat) (seqpc : DWord) (regt : Nat) (detail : Nat)
  /-- The status of an item that no group could be told of (R20, R217). -/
  | item (addr : DWord) (code : Nat)
  /-- A copy chunk entry (R299). -/
  | chunk (rec : Nat) (index : Nat) (code : Nat)
  /-- A launch-queue condition (R29): the queue, and the address and walk outcome, or an overrun. -/
  | queue (q : Nat) (addr : DWord) (outcome : Nat)
  /-- A completion word that could not be written (R36). -/
  | completion (addr : DWord) (outcome : Nat)
  /-- A refused context descriptor (R57). -/
  | descriptor
  /-- A TAINT entry beyond the 56 of a round record (R308): the meeting's key and the entry. -/
  | taint (meet entry : Nat)
  deriving DecidableEq, Repr

/-- An entry of an error ring, with the Regulator reading (R356). -/
structure ErrEntry where
  what : ErrRec
  regt : Nat
  deriving DecidableEq, Repr

/-- A context: its descriptor (Tables 3-3, 21-1, 23-5) and where it stands. -/
structure Ctx where
  root : Nat := 0
  hwBase : Nat := 0
  hwLimit : Nat := 0
  hwOffset : Nat := 0
  hwPerm : BitVec 3 := 0
  gtBase : Nat := 0
  gtSize : Nat := 0
  gclass : Nat := 0
  trapent : DWord := 0
  errBase : Nat := 0
  errSlots : Nat := 64
  errLost : Nat := 0
  notifyq : Nat := 0
  syscq : Nat := 0
  saveBase : Nat := 0
  /-- The context exists: it was loaded and its kill, if any, is not complete (R353). -/
  loaded : Bool := false
  /-- Loaded, and no kill of it has been issued: a gate target (R330). -/
  live : Bool := false
  /-- A pre-emption has been asked for (R45). -/
  stopping : Bool := false
  /-- A kill has been issued (R353). -/
  killing : Bool := false
  /-- May be restored (CTX_RESUME, or a pre-emption by the scheduler). -/
  eligible : Bool := false
  /-- When a record of the context was last admitted (R44). -/
  admitted : Nat := 0
  /-- When it was switched out (R340). -/
  outAt : Nat := 0
  /-- Switched out by a pre-emption, until restored (R45, R50). -/
  out : Bool := false
  /-- Entries of the error ring, oldest first (R356). -/
  errs : List ErrEntry := []
  deriving DecidableEq, Repr

/-! ### Translation and fetch (03) -/

/-- A translation held by a die's TLB (R61): `size` bytes from `va` lie at memory key `key`. -/
structure TlbEnt where
  die : Nat
  ctx : Nat
  va : Nat
  size : Nat
  key : Nat
  r : Bool
  w : Bool
  x : Bool
  lockok : Bool
  /-- Counted by the migration counters: neither PIN nor NOMIG (R243). -/
  mig : Bool
  deriving DecidableEq, Repr

/-- A 64-byte block held by a cluster's instruction cache (R55). -/
structure IcEnt where
  cluster : Nat
  ctx : Nat
  va : Nat
  /-- The memory key the block was read from. -/
  key : Nat
  bytes : List Byte
  deriving DecidableEq, Repr

/-! ### The device -/

/-- The model's own schedule: what happens next. -/
inductive Action
  /-- An event of the opcode table, or any instruction as `exec` gives it. -/
  | event (i : Instr)
  /-- Group or sequencer `gid` issues its next instruction, if it can. -/
  | issue (gid : Nat)
  /-- Ticks of the Regulator and arithmetic clocks pass. -/
  | pass (ticks clks : Nat)
  /-- A copy of the Regulator slews to a lag: a cluster's (0), a slice's (1) or the hub's engines' (2) (R64). -/
  | slew (kind unit lag : Nat)
  /-- System core `core` accesses device, remote or host memory at physical address `key` (R347). -/
  | sysAccess (core : Nat) (kind : MemKind) (key width data data2 : Nat)
  /-- System core `core` reads `bytes` bytes at offset `off` of the hub window (R349). -/
  | hubRead (core off bytes : Nat)
  /-- The host accesses device memory (R359). -/
  | hostAccess (kind : MemKind) (key width data data2 : Nat)
  /-- A route to device `dev` exists again, or the device rejoins its domain (R360). -/
  | routeBack (dev : Nat)
  deriving DecidableEq, Repr

/-- The issue in progress: the model's own field, set by `step` for the instruction it runs. -/
structure Cur where
  gid : Nat
  run : Word
  pc : DWord
  word0 : Word := 0
  /-- The operand-log entry whose lanes re-issue (R214). -/
  reissue : Option Nat := none
  deriving DecidableEq, Repr

/-- The machine. `agenda`, `cur`, `nextId` and `freeCtr` are the model's own (DESIGN CHOICE, log 6); bytes come to be in error from
outside (DESIGN CHOICE, log 36). -/
structure State where
  now : Nat := 0
  lagCl : Map Nat := []
  /-- Ticks by which the copies of slices, with their Chime units, and of the hub's engines lag (R64). -/
  lagSl : Map Nat := []
  lagHub : Nat := 0
  /-- Ticks for which the copies are still held, having read ahead of domain time when the device joined (R64). -/
  hold : Nat := 0
  clk : Nat := 0
  mem : Map Byte := []
  /-- This device's number in its domain (R360). -/
  devNo : Nat := 0
  /-- Remote devices declared lost (R360). -/
  lost : List Nat := []
  /-- Bytes in uncorrectable error (R217). -/
  badBytes : List Nat := []
  tlb : List TlbEnt := []
  icache : List IcEnt := []
  /-- Directory entries by region (memory key div 1,024), of every slice (R225). -/
  dir : Map Dir := []
  copies : List Copy := []
  deleg : List Deleg := []
  deltas : List Delta := []
  timed : List Timed := []
  past : List Past := []
  watch : List Watch := []
  slices : Map Slice := []
  cores : Map CoreSt := []
  /-- DBG_NAME (Table 24-1): process and thread id by context. -/
  dbgNames : Map Nat := []
  hub : Hub := {}
  host : HostLink := {}
  /-- Fabric links that have failed, and since when no route to a device has existed (R360). -/
  badLinks : List Nat := []
  noRoute : Map Nat := []
  sys : Map SysCore := []
  /-- The local memories of the I/O cores (R348). -/
  ioMem : Map (Map Byte) := []
  leases : Map Lease := []
  flashRings : Map FlashRing := []
  /-- Contents of the flash, by byte. -/
  flash : Map Byte := []
  eth : Map EthRing := []
  mgmt : Mgmt := {}
  /-- Active meetings by the memory key of their records (R306). -/
  meets : Map Meet := []
  /-- Departures on their way to Chime units (R315). -/
  departs : List Depart := []
  ops : Map Op := []
  ctxs : Map Ctx := []
  lqs : Map LQ := []
  /-- The queue served last at each priority (R31). -/
  lastLq : Map Nat := []
  launches : Map Launch := []
  gangs : Map Gang := []
  groups : Map Group := []
  savedTiles : List SavedTiles := []
  agenda : List Action := []
  cur : Option Cur := none
  nextId : Nat := 1
  freeCtr : Nat := 0
  deriving DecidableEq, Repr

/-- The machine right after reset. Where the spec gives no reset value the model names one (DESIGN CHOICE, log 1). -/
def State.reset : State := {}

end Sys2Proof.Machine
end

