-- ==== Sys2Proof/Machine/Ops.lean ====
section
/-! DEFINITION. Machine/Ops.lean: the named operations over groups, lanes, counters and memory, and taking a trap
and returning from one (R188–R192). -/

namespace Sys2Proof.Machine

/-- The outcome of a step. -/
abbrev Out := Host.Outcome State Fault Refusal

/-! ### Code addresses (R108) -/

/-- Slot number of a code address. -/
def slotOf (a : Nat) : Nat := a / 64 * 5 + a % 64 / 12
/-- Address of slot `n`, modulo 2^64. -/
def addrOf (n : Int) : DWord := BitVec.ofInt 64 (n / 5 * 64 + 12 * (n % 5))
/-- A valid code address: low six bits 0, 12, 24, 36 or 48. -/
def validCode (a : DWord) : Bool := a.toNat % 64 % 12 == 0 && a.toNat % 64 < 60
/-- The following slot. -/
def nextPc (pc : DWord) : DWord := addrOf ((slotOf pc.toNat : Int) + 1)
/-- The target of a form-J branch. -/
def branchPc (pc : DWord) (imm : BitVec 32) : DWord := addrOf ((slotOf pc.toNat : Int) + imm.toInt)

/-- The signed byte offset OFF24 modulo 2^64 (R101, R197). -/
def offOf (off : BitVec 24) : Nat := (off.signExtend 64).toNat

/-! ### Groups and lanes -/

/-- The group, or the sequencer held as one, with key `gid`. -/
def State.grp? (s : State) (gid : Nat) : Option Group := mfind s.groups gid
/-- Change group `gid`. -/
def State.updGrp (s : State) (gid : Nat) (f : Group → Group) : State := { s with groups := mupd s.groups gid f }

/-- Lane `l` of a group. -/
def Group.lane (g : Group) (l : Nat) : Lane := g.lanes.getD l {}
/-- The lanes for which `f` holds. -/
def Group.lanesWhere (g : Group) (f : Lane → Bool) : Word := maskWhere (fun l => f (g.lane l))
/-- Change every lane. -/
def Group.mapLanes (g : Group) (f : Nat → Lane → Lane) : Group := { g with lanes := mapFrom f 0 g.lanes }
/-- Change the lanes of a mask. -/
def Group.onLanes (g : Group) (m : Word) (f : Lane → Lane) : Group :=
  g.mapLanes (fun l x => if m.getLsbD l then f x else x)

/-- Lanes that have not exited. -/
def Group.live (g : Group) : Word := g.lanesWhere (fun x => decide (x.st ≠ .exited))
/-- Lanes held for traps in the queue (R188), or for the handler in progress (R190). -/
def Group.heldLanes (g : Group) : Word :=
  match g.hmode, g.trapq with
  | true, t :: _ => ~~~t.run
  | _, q => q.foldl (fun m t => m ||| t.run) 0
/-- The candidate lanes (R42). -/
def Group.candidates (g : Group) : Word := g.lanesWhere (fun x => decide (x.st = .run)) &&& ~~~g.heldLanes

/-- Advance the lanes of a mask by one slot (R103). -/
def Group.advance (g : Group) (m : Word) : Group := g.onLanes m (fun x => { x with pc := nextPc x.pc })
/-- Make lanes candidates again; their wait starts anew (R42). -/
def Group.resume (g : Group) (m : Word) : Group := g.onLanes m (fun x => { x with st := .run, wait := 0 })

/-- The Regulator copy that group `g`'s core reads (R64). -/
def State.regtime (s : State) (g : Group) : Nat := s.now - mget 0 s.lagCl g.cluster
/-- Raise %ctime to a reported instant (R67). -/
def Group.raiseCtime (g : Group) (t : Nat) : Group :=
  { g with ctime := if g.ctime.toNat < t then BitVec.ofNat 64 t else g.ctime }

/-! ### Outstanding-operation counters (R16–R18) -/

def Counters.get (c : Counters) : Cls → Counter
  | .ld => c.ld | .st => c.st | .cp => c.cp | .mx => c.mx | .mt => c.mt
def Counters.set (c : Counters) (k : Cls) (x : Counter) : Counters :=
  match k with
  | .ld => { c with ld := x } | .st => { c with st := x } | .cp => { c with cp := x }
  | .mx => { c with mx := x } | .mt => { c with mt := x }

/-- Position of the next operation to be counted. -/
def Counter.next (c : Counter) : Nat := c.base + c.n.toNat
/-- Count one more operation. -/
def Counter.issue (c : Counter) : Counter := { c with n := c.n + 1 }
/-- Report completed operations in issue order: the oldest leaves while its bit is set (R17). -/
def Counter.drain (c : Counter) : Nat → Counter
  | 0 => c
  | k + 1 =>
    if c.win.getLsbD 0 && c.n != 0 then Counter.drain { n := c.n - 1, win := c.win >>> 1, base := c.base + 1 } k
    else c
/-- The operation at position `pos` has completed (R17). -/
def Counter.finish (c : Counter) (pos : Nat) : Counter :=
  if pos < c.base then c
  else Counter.drain { c with win := c.win ||| BitVec.ofNat 64 (2 ^ (pos - c.base)) } 64

def Group.count (g : Group) (k : Cls) : Group := { g with cnt := g.cnt.set k (g.cnt.get k).issue }
def Group.finish (g : Group) (k : Cls) (pos : Nat) : Group := { g with cnt := g.cnt.set k ((g.cnt.get k).finish pos) }
/-- All five counters zero (R19, R180). -/
def Group.drained (g : Group) : Bool :=
  g.cnt.ld.n == 0 && g.cnt.st.n == 0 && g.cnt.cp.n == 0 && g.cnt.mx.n == 0 && g.cnt.mt.n == 0

/-- A new outstanding operation of a group, counted on its class (R15, R16). -/
def State.addOp (s : State) (gid : Nat) (cls : Option Cls) (kind : OpKind) : State :=
  match s.grp? gid with
  | none => s
  | some g =>
    let pos := match cls with | none => 0 | some k => (g.cnt.get k).next
    let s := { s with nextId := s.nextId + 1,
                      ops := mput s.ops s.nextId { gid := gid, cls := cls, pos := pos, ctx := g.ctx, cluster := g.cluster,
                                                   core := g.core, kind := kind } }
    match cls with
    | none => s
    | some k => s.updGrp gid (fun g => g.count k)

/-- An operation has been reported: it leaves its counter in issue order (R17). -/
def State.endOp (s : State) (id : Nat) : State :=
  match mfind s.ops id with
  | none => s
  | some o =>
    let s := { s with ops := mdel s.ops id }
    match o.cls with
    | none => s
    | some k => s.updGrp o.gid (fun g => g.finish k o.pos)

/-! ### Cores -/

def State.core (s : State) (k : Nat) : CoreSt := mget {} s.cores k
def State.updCore (s : State) (k : Nat) (f : CoreSt → CoreSt) : State := { s with cores := mput s.cores k (f (s.core k)) }

/-- The group is resident: its context is not switched out (R45). -/
def State.resident (s : State) (g : Group) : Bool := !(mget {} s.ctxs g.ctx0).out

/-- A pre-emption or a kill of the group's context has stopped the group: none of its gate calls must be waited for (R45,
R340). -/
def State.stopped (s : State) (g : Group) : Bool :=
  let c := mget {} s.ctxs g.ctx0
  (c.stopping && g.frames.all (fun f => f.kern || f.preempt)) || (c.killing && g.frames.all (fun f => f.kern || f.deadline.isNone))

/-! ### Free values -/

/-- Bytes that the manual leaves undefined, at the `k`-th such place. -/
def undefinedBytes (k n : Nat) : List Byte := (List.range n).map (fun i => BitVec.ofNat 8 (Config.undefinedData k i))

/-- The next free choice among `n` outcomes. -/
def State.choose (s : State) (n : Nat) : Nat × State :=
  (Config.choice s.freeCtr n % n, { s with freeCtr := s.freeCtr + 1 })

/-! ### Memory (R11, R56) -/

/-- What a byte reads as that nothing has written (DESIGN CHOICE, log 2). -/
def byteZero : Byte := 0
/-- One byte of memory. -/
def State.readByte (s : State) (a : Nat) : Byte := mget byteZero s.mem a
/-- `n` bytes of memory, little-endian. -/
def State.readMem (s : State) (a n : Nat) : Nat := leNat (mgets byteZero s.mem a n)
/-- Write `n` little-endian bytes. -/
def State.writeMem (s : State) (a n x : Nat) : State := { s with mem := msets byteZero s.mem a (leBytes n x) }
/-- Memory is in canonical form. -/
def State.memWf (s : State) : Bool := mwf byteZero s.mem

/-- The hash of R11. (DEDUCED, log 46) -/
def homeHash (pa : Nat) : Nat := bits pa 10 12 ^^^ bits pa 22 12 ^^^ bits pa 34 12

/-- The HBM stack that holds the regions homed at a slice of this device (R11). -/
def homeStack (slice : Nat) : Nat := 3 * (slice / 24) + slice % 24 / 8

/-- The home slice of a memory key (R11): slice `k` of remote device `d` is numbered 96·(d + 1) + k. In reduced service this
device's memory is homed on die 0 (R368). -/
def State.homeSlice (s : State) (key : Nat) : Nat :=
  let dev := key / 2 ^ 52
  homeHash (key % 2 ^ 52) % (if dev = 0 ∧ s.hub.svc = 1 then 24 else 96) + 96 * dev
/-- Key of physical address `pa` at remote device `d`. (DESIGN CHOICE, log 38) -/
def remoteKey (d pa : Nat) : Nat := (d + 1) * 2 ^ 52 + pa
/-- The remote device of a key, if it is not this device. -/
def keyDev (key : Nat) : Option Nat := if key < 2 ^ 52 then none else some (key / 2 ^ 52 - 1)
/-- A byte of the host window (R56). -/
def isHost (key : Nat) : Bool := Config.hostBase ≤ key && key < 2 ^ 52

/-- The hub and the slices' own units (Table 14-1). -/
def hubAgent : Nat := 48

/-- Send an operation of accesses that no instruction of a group counts. -/
def State.sendOp (s : State) (o : Op) : State := { s with nextId := s.nextId + 1, ops := mput s.ops s.nextId o }

/-- One write that the hub or a slice's unit makes as agent 48 and does not wait for (R224). -/
def State.sendWrite (s : State) (job : Job) (kind : MemKind) (key width data : Nat) : State :=
  s.sendOp { gid := 0, cluster := hubAgent, job := job,
             kind := .mem { kind := kind, ty := .b32, width := width } [{ lane := 0, va := 0, key := key, mig := true, data := data, st := .wait }] }

/-- Accesses that a slice's unit makes as agent 48 and does not wait for (R224). -/
def State.sendOwn (s : State) (tag : Nat) (m : MemDesc) (as : List Acc) : State :=
  s.sendOp { gid := 0, cluster := hubAgent, job := .own tag, kind := .mem m as }

/-! ### Notifications (R355) -/

/-- Consecutive little-endian fields. -/
def packFields : List (Nat × Nat) → List Byte
  | [] => []
  | (w, x) :: fs => leBytes w x ++ packFields fs

/-- `n` consecutive words of a map, as bytes. -/
def wordBytes (m : Map Word) (n : Nat) : List Byte := (List.range n).flatMap (fun k => leBytes 4 (mget 0 m k).toNat)

/-- The 64 bytes of an entry: KIND, the context, the fields from 0x08 on, then zeros (R355). -/
def Notice.bytes (n : Notice) : List Byte :=
  (leBytes 4 n.kind ++ leBytes 4 n.ctx ++ packFields n.body ++ List.replicate 64 0).take 64

/-- A ring accepts an entry: enabled and not full (R351, R355). -/
def Ring.room (r : Ring) : Bool := r.en && r.tail - r.head < 2 ^ r.log2

/-- Send one entry for the next slot of ring `k`, a write of agent 48. NR_TAIL moves past it once it has been written whole
(`State.ringTail`). -/
def State.ringPut (s : State) (k : Nat) (n : Notice) : State :=
  let r := mget {} s.hub.rings k
  let s := s.sendWrite (.entry k r.tail) .store (r.base + 64 * (r.tail % 2 ^ r.log2)) 64 (leNat n.bytes)
  { s with hub := { s.hub with rings := mput s.hub.rings k { r with tail := r.tail + 1 } } }

/-- NR_TAIL (Table 23-14): the entries of ring `k` written whole, up to the first one that is still on its way. -/
def State.ringTail (s : State) (k : Nat) : Nat :=
  s.ops.foldl (fun n e => match e.2.job with | .entry r i => if r = k then min n i else n | _ => n) (mget {} s.hub.rings k).tail

/-- Post an entry to ring `k`: written, or held while the ring is full or disabled; a MIGRATE entry is then dropped
(R355). Entries held for the ring go first. -/
def State.post (s : State) (k : Nat) (n : Notice) : State :=
  if (mget {} s.hub.rings k).room && !(s.hub.heldNotes.any (fun e => e.1 == k)) then s.ringPut k n
  else if n.kind = 2 then s
  else { s with hub := { s.hub with heldNotes := s.hub.heldNotes ++ [(k, n)] } }

/-- Write the entries held for ring `k` while it has room (R355). -/
def State.flushRing (s : State) (k : Nat) : List (Nat × Notice) → State
  | [] => s
  | e :: es =>
    if e.1 == k && (mget {} s.hub.rings k).room then
      State.flushRing { (s.ringPut k e.2) with hub := { (s.ringPut k e.2).hub with
        heldNotes := eraseFirst (fun o => o == e) s.hub.heldNotes } } k es
    else s.flushRing k es

/-- Post to a context's notification queue (R354). -/
def State.notify (s : State) (n : Notice) : State := s.post (mget {} s.ctxs n.ctx).notifyq n

/-! ### Error records (R356) -/

/-- The job number of the entries of a context's error ring. -/
def errRing (ctx : Nat) : Nat := 256 + ctx

/-- The next slot of a context's error ring is free: never used, or cleared by software. The manual gives no head of the ring: software
frees a slot by writing 0 to its first word. (DESIGN CHOICE, log 20) -/
def State.errRoom (s : State) (ctx : Nat) (c : Ctx) : Bool :=
  let n := c.errs.length
  n < c.errSlots || (s.readMem (c.errBase + 64 * (n % c.errSlots)) 4 == 0 && !(s.ops.any (fun e => e.2.job == .entry (errRing ctx) (n - c.errSlots))))

/-- Write a record to a context's error ring; a full ring drops it and counts it in ERR_LOST of the descriptor. The manual gives no layout
of the entry: its bytes are free, but for a first word that is not 0. (DESIGN CHOICE, log 20) -/
def State.addErr (s : State) (ctx : Nat) (e : ErrRec) : State :=
  match mfind s.ctxs ctx with
  | none => s
  | some c =>
    if s.errRoom ctx c then
      { (s.sendWrite (.entry (errRing ctx) c.errs.length) .store (c.errBase + 64 * (c.errs.length % c.errSlots)) 64
          (leNat (undefinedBytes s.freeCtr 64) ||| 1)) with
        ctxs := mput s.ctxs ctx { c with errs := c.errs ++ [{ what := e, regt := s.now }] }, freeCtr := s.freeCtr + 1 }
    else
      { (s.sendWrite (.own 0) (.red .add) (s.hub.ctxtab + 256 * ctx + 0x4C) 4 1) with ctxs := mput s.ctxs ctx { c with errLost := c.errLost + 1 } }

/-! ### Traps (R188–R192) -/

/-- A sequencer fault (R280): the sequencer issues nothing more and a gang error record is written. -/
def State.seqFault (s : State) (gid : Nat) (cause tile detail : Nat) : State :=
  match s.grp? gid with
  | none => s
  | some g =>
    let idx := (mget {} s.gangs g.gang).idx
    (s.updGrp gid (fun g => { g with dead := true, block := .none })).addErr g.ctx
      (.gang idx 0 tile cause 0 (g.lane 0).pc (s.regtime g) detail)

/-- The frame of the innermost gate callee that the group runs; a kernel gate runs none (R334, R339). -/
def Group.callee? (g : Group) : Option Frame := g.frames.find? (fun f => !f.kern)
/-- The group runs a gate callee. -/
def Group.inCallee (g : Group) : Bool := g.callee?.isSome

/-- A forced unwind is under way (R338). -/
def Group.unwinding (g : Group) : Bool := match g.block with | .unwind _ _ _ _ => true | _ => false
/-- Block the group, or end its block; a forced unwind stands. -/
def Group.setBlock (g : Group) (b : Block) : Group := if g.unwinding then g else { g with block := b }

/-- Start a forced unwind of the frame at a depth, and of those above it (R338). -/
def Group.unwindTo (g : Group) (depth status cause : Nat) : Group :=
  { g with block := .unwind depth status cause, gcall := none, held := false, dbgHeld := false }

/-- Start a forced unwind of the innermost callee's frame; a kernel gate's frame above it goes with it (R337). -/
def Group.startUnwind (g : Group) (status cause : Nat) : Group :=
  g.unwindTo (g.frames.length - (g.frames.takeWhile (fun f => f.kern)).length) status cause

/-- A trap whose lanes belong to the handler in progress (R192). (DEDUCED, log 25) -/
def Group.doubleTrap (g : Group) (t : TrapRec) : Bool :=
  match g.hmode, g.trapq with
  | true, h :: _ => t.run &&& h.run != 0
  | _, _ => false

/-- Queue a trap (R188). A trap raised by a handler holds the group and goes to the error record (R192), and in a gate
callee forces its unwind (R337). While
eight are queued no further one is taken: its lanes stand at their instruction and meet the fault again. (DEDUCED, log 18) -/
def State.queueTrap (s : State) (gid : Nat) (t : TrapRec) : State :=
  match s.grp? gid with
  | none => s
  | some g =>
    if g.isSeq then s.seqFault gid t.cause 0xFF t.detail.toNat
    else if g.doubleTrap t then
      (s.updGrp gid (fun g => if g.inCallee then g.startUnwind 9 t.cause else { g with held := true })).addErr g.ctx (.trap gid t)
    else if g.trapq.length ≥ 8 then s
    else s.updGrp gid (fun g => { g with trapq := g.trapq ++ [{ t with depth := g.trapq.length + 1 }], trTraps := g.trTraps + 1 })

/-- The trap entry of the group's current context, or of the gate callee it runs (R190). -/
def State.trapEntry (s : State) (g : Group) : DWord :=
  match g.callee? with
  | some f => f.trapent
  | none => (mget {} s.ctxs g.ctx).trapent

/-- The STOP notification of a debug stop (Table 23-6). -/
def State.stopNotice (s : State) (g : Group) (t : TrapRec) : Notice :=
  let nm := mget 0 s.dbgNames g.ctx0
  { kind := 7, ctx := g.ctx,
    body := [(4, t.cause), (4, t.mask.toNat), (4, nm / 2 ^ 32), (4, nm % 2 ^ 32),
             (4, (mget {} s.gangs g.gang).idx), (4, g.team * 16 + g.grp), (8, t.pc.toNat), (4, t.detail.toNat)] }

/-- TAKING A TRAP (R190): the head trap is delivered. The group enters handler mode, its RUN lanes move to the
trap entry, and every other live lane is held where it stands (`Group.heldLanes`). With a trap entry of 0 the
trap is undeliverable: the group is held and the record goes to the error record (R192), or the gate callee is
unwound (R337). A breakpoint or watchpoint
trap on a context that the debug unit has claimed holds the group and posts STOP instead (R375). -/
def State.takeTrap (s : State) (gid : Nat) : State :=
  match s.grp? gid with
  | none => s
  | some g =>
    if g.held || g.dbgHeld then s
    else match g.hmode, g.trapq with
    | false, t :: _ =>
      let e := s.trapEntry g
      let dbg := (mget {} s.cores g.core).dbg
      if (t.cause = 2 ∨ t.cause = 3) ∧ dbg.claim ≠ 0 ∧ dbg.claim = g.ctx then
        (s.updGrp gid (fun g => { g with dbgHeld := true })).post dbg.nq (s.stopNotice g t)
      else if e = 0 then
        (s.updGrp gid (fun g => if g.inCallee then g.startUnwind 9 t.cause else { g with held := true })).addErr g.ctx (.trap gid t)
      else s.updGrp gid (fun g => { (g.onLanes t.run (fun x => { x with pc := e, wait := 0 })) with hmode := true })
    | _, _ => s

/-- How the RUN lanes of a handled trap go on (R191, R192). -/
inductive After
  | retry | skip | stay | exit
  deriving DecidableEq, Repr

/-- The comparator that a retried debug trap does not stop at once more (R191): breakpoints 0–3, watchpoints
4–7. -/
def onceOf (t : TrapRec) : Option (Nat × DWord) :=
  if t.cause = 2 ∧ t.detail.toNat < 4 then some (t.detail.toNat, t.pc)
  else if t.cause = 3 then some (4 + t.detail.toNat, t.pc)
  else none

/-- RETURNING FROM A TRAP (R191, R192): the head record is removed, its RUN lanes return to its PC, to the
following slot, or stay, handler mode ends, and the held lanes become candidates again. -/
def Group.returnTrap (g : Group) (how : After) : Group :=
  match g.trapq with
  | [] => g
  | t :: rest =>
    let back := fun (x : Lane) =>
      if x.st = .exited || x.st = .gret then x
      else match how with
        | .retry => { x with pc := t.pc, st := .run, wait := 0 }
        | .skip => { x with pc := nextPc t.pc, st := .run, wait := 0 }
        | .stay => x
        | .exit => { x with st := if g.inCallee then .gret else .exited }
    let g := g.onLanes t.run back
    let g := g.mapLanes (fun _ x => { x with wait := 0 })
    { g with trapq := rest, hmode := false, held := false, dbgHeld := false, once := if how = .retry then onceOf t else none }

end Sys2Proof.Machine
end

