-- ==== Sys2Proof/Machine/Operands.lean ====
section
/-! DEFINITION. Machine/Operands.lean: how operands, predicates and guards are read and written (R103–R107,
R139, R144, R145). -/

namespace Sys2Proof.Machine

/-- `w` registers from `k` of lane `l`, the lowest holding bits 31:0 (R88). -/
def regsAt (m : Map Word) (k l : Nat) : Nat → Nat
  | 0 => 0
  | w + 1 => (mget 0 m (32 * k + l)).toNat + 2 ^ 32 * regsAt m (k + 1) l w
/-- Write `w` registers from `k` of lane `l`. -/
def putRegs (m : Map Word) (k l : Nat) : Nat → Nat → Map Word
  | 0, _ => m
  | w + 1, x => putRegs (mset 0 m (32 * k + l) (BitVec.ofNat 32 x)) (k + 1) l w (x / 2 ^ 32)
/-- `w` scalars from `k`. -/
def scalarsAt (m : Map Word) (k : Nat) : Nat → Nat
  | 0 => 0
  | w + 1 => (mget 0 m k).toNat + 2 ^ 32 * scalarsAt m (k + 1) w
/-- Write `w` scalars from `k`. -/
def putScalars (m : Map Word) (k : Nat) : Nat → Nat → Map Word
  | 0, _ => m
  | w + 1, x => putScalars (mset 0 m k (BitVec.ofNat 32 x)) (k + 1) w (x / 2 ^ 32)

/-- An integer operand of `w` registers as lane `l` reads it (R105, R144). -/
def Group.opnd (g : Group) (o : Opnd) (w l : Nat) : Nat :=
  match o with
  | .v k => regsAt g.v k l w
  | .s k => scalarsAt g.sc k w
  | .z => 0
  | .c n => wrap (32 * w) n

/-- The code of the exact value `n` in type `ty`. A type that has no such value leaves the operand unstated: a
free value (log 11). -/
def constCode (ty : Ty) (n : Int) : Nat :=
  if ty.isFloat then
    let r := roundTo ty .rn .sat (.fin (n < 0) n.natAbs 0)
    if r.2 = 0 then r.1 else Config.inlineConst (ty.width) n
  else if ty = .e8m0 then
    if n > 0 && n.toNat == 2 ^ Nat.log2 n.toNat then Nat.log2 n.toNat + 127 else Config.inlineConst 0 n
  else if n < intMin ty || n > intMax ty then Config.inlineConst (ty.width) n
  else wrap ty.width n

/-- An operand of a floating-point operation or a conversion: an inline constant is the exact value in the type
(R105). -/
def Group.opndT (g : Group) (ty : Ty) (o : Opnd) (l : Nat) : Nat :=
  match o with
  | .c n => constCode ty n
  | o => g.opnd o ty.regs l

/-- Element `i` of a packed register (Table 5-3). -/
def element (ty : Ty) (x i : Nat) : Nat := bits x (ty.pitch * i) ty.width
/-- Replace element `i`; the two spare bits of an FP6 element are written zero (Table 5-3). -/
def setElement (ty : Ty) (x i e : Nat) : Nat :=
  let p := 2 ^ ty.pitch
  let lo := x % 2 ^ (ty.pitch * i)
  let hi := x / 2 ^ (ty.pitch * i) / p
  lo + 2 ^ (ty.pitch * i) * (e % 2 ^ ty.width + p * hi)

/-- The mask of predicate `k`; pt reads 1 in every lane (R106, R135). -/
def Group.pred (g : Group) (k : Nat) : Word := if k ≥ 15 then BitVec.allOnes 32 else mget 0 g.p k
/-- Write the bits of `m` in predicate `k`; pt discards the write. -/
def Group.setPredBits (g : Group) (k : Nat) (m val : Word) : Group :=
  if k ≥ 15 then g else { g with p := mset 0 g.p k ((g.pred k &&& ~~~m) ||| (val &&& m)) }
/-- Write all 32 bits of predicate `k` alike (R135). -/
def Group.setPredAll (g : Group) (k : Nat) (v : Bool) : Group :=
  g.setPredBits k (BitVec.allOnes 32) (if v then BitVec.allOnes 32 else 0)

/-- Lanes whose guard holds (R103). -/
def Group.guardMask (g : Group) : Guard → Word
  | .all => BitVec.allOnes 32
  | .pred p neg => if neg then ~~~g.pred p else g.pred p

/-- An instruction about to have its effect: its group as it stands, its run, Active, and whether it executes once
(under UNI or in a sequencer). `lead` is the lowest lane of the run. -/
structure Issue where
  gid : Nat
  g : Group
  run : Word
  act : Word
  once : Bool
  lead : Nat
  pc : DWord
  word0 : Word
  reissue : Option Nat
  deriving DecidableEq, Repr

/-- Every lane of each quad that has a lane in `m`. -/
def quadsOf (m : Word) : Word := maskWhere (fun l => (List.range 4).any (fun k => m.getLsbD (4 * (l / 4) + k)))

/-- Helper lanes that join a lane-wise instruction of a run (R187). -/
def Group.helpersIn (g : Group) (h : Hdr) (run : Word) : Word :=
  if g.helper = 0 then 0 else g.helper &&& quadsOf run &&& g.guardMask h.guard &&& ~~~run

/-- Active (R103): under UNI, or in a sequencer, all of the run or nothing, as the guard holds for its lowest
lane. -/
def activeMask (g : Group) (h : Hdr) (run : Word) (helpers : Bool) : Word :=
  if h.uni || g.isSeq then (if (g.guardMask h.guard).getLsbD (lowestLane run) then run else 0)
  else (run &&& g.guardMask h.guard) ||| (if helpers then g.helpersIn h run else 0)

/-- The first operand beyond the group's registers, in the order D, A, B, C (R107): `k` for vk, `512 + k` for
sk, at the operand's highest register. -/
def Group.rangeFail (g : Group) : List OpUse → Option Nat
  | [] => none
  | u :: us =>
    match u.o with
    | .v k => if k + u.w > g.nregs then some (k + u.w - 1) else g.rangeFail us
    | .s k => if k + u.w > g.sregs then some (512 + k + u.w - 1) else g.rangeFail us
    | _ => g.rangeFail us

/-- Key of register `k`'s poison in lane `l`; a scalar's is held at 512 + k, lane 0 (R217). -/
def poisonKey (o : Opnd) (i l : Nat) : Option Nat :=
  match o with
  | .v k => some (32 * (k + i) + l)
  | .s k => some (32 * (512 + k + i))
  | _ => none

/-- The poison that lane `l` meets in one source (R217). -/
def Group.poisonOf (g : Group) (o : Opnd) (l : Nat) : Nat → Option Poison
  | 0 => none
  | w + 1 => match (poisonKey o w l).bind (mfind g.poison) with | some a => some a | none => g.poisonOf o l w

/-- The poison that lane `l` meets in any source of an instruction. -/
def Group.poisonRead (g : Group) (us : List OpUse) (l : Nat) : Option Poison :=
  us.findSome? (fun u => if u.src then g.poisonOf u.o l u.w else none)

/-- A write to registers clears their poison (R217). -/
def clearPoison (m : Map Poison) (o : Opnd) (l : Nat) : Nat → Map Poison
  | 0 => m
  | w + 1 => clearPoison (match poisonKey o w l with | some k => mdel m k | none => m) o l w

/-- What becomes of an instruction that a run issues. -/
inductive IssueRes
  | noIssuer
  | trap (gid : Nat) (t : TrapRec)
  | go (x : Issue)
  deriving DecidableEq, Repr

/-- A trap record of this issue. (DEDUCED, log 19) -/
def Issue.trap (x : Issue) (s : State) (cause : Nat) (mask run : Word) (addr : DWord := 0) (code : Nat := 0)
    (detail : Nat := 0) : TrapRec :=
  { cause := cause, mask := mask, pc := x.pc, addr := addr, regt := BitVec.ofNat 64 (s.regtime x.g),
    code := BitVec.ofNat 32 code, word0 := x.word0, run := run, detail := BitVec.ofNat 32 detail }

/-- Global memory instructions and label instructions: those that a re-issue performs with the addresses and data of its operand-log entry
(R213). -/
def isGlobal : Instr → Bool
  | .ld _ _ _ _ _ _ _ _ _ | .st _ _ _ _ _ _ _ _ _ | .atom _ _ _ _ _ _ _ _ _ _ | .cas _ _ _ _ _ _ _ _ _ | .red _ _ _ _ _ _ _ _ _
  | .monarm _ _ _ _ | .pref _ _ _ _ _ | .cwb _ _ _ _ _ | .cinv _ _ _ _ _ | .lblrd _ _ _ _ _ | .lblset _ _ _ _ _ _ | .lblclr _ _ _ _ => true
  | _ => false

/-- The issue in progress of instruction `i`, after check 5 of R112 and the poison check of R217: lanes that read
a poisoned register are trapped and the run stands. A re-issue is for its parked lanes alone (R214): a global memory or label instruction
takes addresses and data from the entry, any other word is performed as at a normal issue (R213). -/
def State.issueOf (s : State) (i : Instr) (helpers : Bool := true) : IssueRes :=
  match s.cur with
  | none => .noIssuer
  | some c =>
    match s.grp? c.gid with
    | none => .noIssuer
    | some g =>
      let h := i.hdr.getD ⟨.all, 0, false, false, 0⟩
      let logged := c.reissue.isSome && isGlobal i
      let act := if logged then c.run else activeMask g h c.run helpers
      let x : Issue :=
        { gid := c.gid, g := g, run := c.run, act := act, once := (h.uni || g.isSeq),
          lead := lowestLane c.run, pc := c.pc, word0 := c.word0, reissue := c.reissue }
      match g.rangeFail i.opers with
      | some k => .trap c.gid (x.trap s 0x08 c.run c.run 0 k)
      | none =>
        let pm := if g.poison.isEmpty || logged then 0 else act &&& c.run &&& maskWhere (fun l => (g.poisonRead i.opers l).isSome)
        if pm = 0 then .go x
        else
          let q := (g.poisonRead i.opers (lowestLane pm)).getD ⟨0, 3⟩
          .trap c.gid (x.trap s 0x16 pm pm q.addr 0 q.code)

/-- A lane instruction: its effect on the issue in progress, or the trap of a failed check. (DEDUCED, log 28) -/
def laneInstr (i : Instr) (helpers : Bool) (s : State) (eff : Issue → State → State) : Out :=
  match s.issueOf i helpers with
  | .noIssuer => .fault .noIssuer
  | .trap gid t => .next (s.queueTrap gid t)
  | .go x => .next (eff x s)

/-- Write `w` registers of vector destination `k` in the lanes of Active; `.z` writes zero in every other lane
(R139). -/
def writeLanes (m : Map Word) (k w : Nat) (act : Word) (z : Bool) (f : Nat → Nat) : List Nat → Map Word
  | [] => m
  | l :: ls =>
    writeLanes (if act.getLsbD l then putRegs m k l w (f l) else if z then putRegs m k l w 0 else m) k w act z f ls

/-- Write a destination: per lane, or once to a scalar; `z` discards it; an empty Active writes nothing (R103,
R139). -/
def Group.writeD (g : Group) (x : Issue) (d : Opnd) (w : Nat) (z : Bool) (f : Nat → Nat) : Group :=
  if x.act = 0 then g
  else match d with
    | .v k => { g with
        v := writeLanes g.v k w x.act z f (List.range 32),
        poison := if g.poison.isEmpty then g.poison
          else (List.range 32).foldl (fun m l => if x.act.getLsbD l || z then clearPoison m d l w else m) g.poison }
    | .s k => { g with
        sc := putScalars g.sc k w (f x.lead),
        poison := if g.poison.isEmpty then g.poison else clearPoison g.poison d 0 w }
    | _ => g

/-- Write a predicate: bits of Active, or all bits alike under UNI (R135, R145). -/
def Group.writeP (g : Group) (x : Issue) (k : Nat) (f : Nat → Bool) : Group :=
  if x.act = 0 then g
  else if x.once then g.setPredAll k (f x.lead)
  else g.setPredBits k x.act (maskWhere f)

/-- A predicate source as lane `l` reads it: under UNI the bit of the run's lowest lane (R145). -/
def Issue.predBit (x : Issue) (k l : Nat) : Bool := (x.g.pred k).getLsbD (if x.once then x.lead else l)

/-- Apply a change to the issuing group and advance the run by one slot. -/
def Issue.done (x : Issue) (s : State) (f : Group → Group) : State :=
  s.updGrp x.gid (fun g => (f g).advance x.run)

end Sys2Proof.Machine
end

