-- ==== Sys2Proof/Machine/Beacon.lean ====
section
/-! DEFINITION. Machine/Beacon.lean: how a home slice judges and performs requests (14): directory entries, windows,
the classifier, closes, copies and their bounds, delegation, timed updates, label instructions, dirty records and
migration counters. Copies hold bounds and no data: a valid copy reads what memory held at
its holder's reading of the Regulator (log 14). -/

namespace Sys2Proof.Machine

/-- Region and line numbers of a memory key. -/
def regionOf (key : Nat) : Nat := key / 1024
def lineOf (key : Nat) : Nat := key / 128

/-- The Regulator's copy at the home slice of a key (R64). -/
def State.homeNow (s : State) (key : Nat) : Nat := s.now - mget 0 s.lagSl (s.homeSlice key)

/-- The accesses of a memory operation. -/
def Op.accs (o : Op) : List Acc := match o.kind with | .mem _ as => as | _ => []
def Op.desc? (o : Op) : Option MemDesc := match o.kind with | .mem m _ => some m | _ => none

/-- The access is held at its home slice: in the replay queue or the overflow ring (R245, R246). -/
def Acc.queued (a : Acc) : Bool := match a.st with | .replay _ | .over => true | _ => false
/-- The access holds an entry of the replay queue. -/
def Acc.inReplay (a : Acc) : Bool := match a.st with | .replay _ => true | _ => false

/-- The requests that a slice holds, in its replay queue or its overflow ring. -/
def State.parkedAccs (s : State) (slice : Nat) : List (Nat × Acc) :=
  s.ops.flatMap (fun e => (e.2.accs.filter (fun a => a.queued && s.homeSlice a.key == slice)).map (fun a => (e.1, a)))

/-- A request to the region is held, one that arrived before `arr` (R245). -/
def State.regionParked (s : State) (region arr : Nat) : Bool :=
  (s.parkedAccs (s.homeSlice (1024 * region))).any (fun e => regionOf e.2.key == region && e.2.arr < arr)
/-- Entries of a slice's replay queue in use (SL_RPLY.OCC, R247). -/
def State.replayOcc (s : State) (slice : Nat) : Nat := ((s.parkedAccs slice).filter (fun e => e.2.inReplay)).length

def State.slice (s : State) (k : Nat) : Slice := mget {} s.slices k
def State.updSlice (s : State) (k : Nat) (f : Slice → Slice) : State :=
  { s with slices := mput s.slices k (f (s.slice k)) }
/-- The slice of a region. -/
def State.regionSlice (s : State) (r : Nat) : Nat := s.homeSlice (1024 * r)

def Label.code : Label → Nat
  | .uncl => 0 | .priv => 1 | .ro => 2 | .migr => 3 | .pc => 4 | .cont => 5
def Label.ofCode : Nat → Option Label
  | 0 => some .uncl | 1 => some .priv | 2 => some .ro | 3 => some .migr | 4 => some .pc | 5 => some .cont | _ => none

/-! ### Atomic operations (R202) -/

/-- Op of an atomic of type `ty` (R202): integer adds wrap; float operations round to nearest even, give canonical
NaNs and set no flag. -/
def atomOp (op : AOp) (ty : Ty) (old x : Nat) : Nat :=
  match op with
  | .add =>
    if ty.isFloat then (fresult ty .rn false (fsumV .rn [fval ty old, fval ty x])).1
    else (old + x) % 2 ^ ty.width
  | .min =>
    if ty.isFloat then (fminmax ty false false old x).1
    else if intVal ty old ≤ intVal ty x then old else x % 2 ^ ty.width
  | .max =>
    if ty.isFloat then (fminmax ty false true old x).1
    else if intVal ty x ≤ intVal ty old then old else x % 2 ^ ty.width
  | .and => old &&& x
  | .or => old ||| x
  | .xor => old ^^^ x
  | .exch => x

/-- Element type of FMT (Table 19-1). -/
def fmtTy : Nat → Ty
  | 0 => .f32 | 1 => .bf16 | 2 => .f16 | _ => .s32

/-- An infinite input of a sum acts as the greatest finite value of its sign (R93). -/
def finiteOf (ty : Ty) (v : FVal) : FVal :=
  match v with
  | .inf n => fval ty (Ty.signBit ty n + Ty.maxCode ty)
  | v => v

/-- One element of a reduction (R93): operation `rop` (0 sum, 1 min, 2 max) of two codes, and whether it counts as
saturated. -/
def reduceElem (ty : Ty) (rop a b : Nat) : Nat × Bool :=
  if ty.isFloat then
    let x := fval ty a
    let y := fval ty b
    if x.isNaN || y.isNaN then (Ty.canonNaN ty, true)
    else if rop = 0 then
      let r := roundTo ty .rn .sat (fsumV .rn [finiteOf ty x, finiteOf ty y]).1
      let inf := x == .inf false || x == .inf true || y == .inf false || y == .inf true
      (r.1, inf || r.2 &&& fSAT != 0)
    else ((fminmax ty false (rop == 2) a b).1, false)
  else
    let x := intVal ty a
    let y := intVal ty b
    if rop = 0 then
      let r := putInt ty true (x + y)
      (r.1, r.2 != 0)
    else (if (x ≤ y) == (rop == 1) then a else b, false)

/-- `n` elements of two packed numbers combined: the packed result and the saturated elements (R93, R301). -/
def reduceElems (ty : Ty) (rop : Nat) : Nat → Nat → Nat → Nat × Nat
  | 0, _, _ => (0, 0)
  | n + 1, a, b =>
    let w := 2 ^ ty.width
    let r := reduceElem ty rop (a % w) (b % w)
    let rest := reduceElems ty rop n (a / w) (b / w)
    (r.1 % w + w * rest.1, b2n r.2 + rest.2)

/-- What an access leaves in memory over `old`, if it writes (R202): a failed compare-and-swap is a load. -/
def newValue (k : MemKind) (ty : Ty) (old data data2 : Nat) : Option Nat :=
  match k with
  | .store => some data
  | .atom op | .red op => some (atomOp op ty old data)
  | .cas => if old = data ∧ data2 ≠ old then some data2 else none
  | .comb fmt rop => some (reduceElems (fmtTy fmt) rop data2 old data).1
  | _ => none

def MemKind.isWrite : MemKind → Bool
  | .store | .atom _ | .cas | .red _ | .comb _ _ => true
  | _ => false
/-- A prefetch, which no lock refuses (R240). -/
def MemKind.isPref : MemKind → Bool
  | .pref _ _ => true
  | _ => false
def MemKind.isAtomic : MemKind → Bool
  | .atom _ | .cas | .red _ | .comb _ _ => true
  | _ => false

/-- An access has come to its end. -/
def Acc.final (a : Acc) : Bool :=
  match a.st with
  | .done | .failed _ | .refused _ | .off => true
  | _ => false

/-! ### Effects of a performed write -/

/-- A monitor armed on a line takes its wake. -/
def Monitor.fire (m : Monitor) (line : Nat) : Monitor := if m.armed && m.line == line then { m with wake := true } else m

/-- A write to `line` wakes the group's monitors on it: an MWAIT it waits in returns with P[D] = 1 and disarms it (R207); a
monitor saved by a gate call takes the wake (Table 21-8). -/
def Group.wakeUp (line : Nat) (g : Group) : Group :=
  let g := { g with frames := g.frames.map (fun f => { f with mon := f.mon.fire line }) }
  if g.mon.armed && g.mon.line == line then
    match g.block with
    | .mwait pd _ lanes => { ((g.setPredAll pd true).advance lanes) with block := .none, mon := {} }
    | _ => { g with mon := { g.mon with wake := true } }
  else g

/-- A monitor of the group, or one saved by a gate call, is armed on a line. -/
def Group.watches (g : Group) (line : Nat) : Bool :=
  (g.mon.armed && g.mon.line == line) || g.frames.any (fun f => f.mon.armed && f.mon.line == line)

/-- Drop the watchers of a group that none of its monitors needs any more. -/
def State.trimWatch (s : State) (gid : Nat) : State :=
  { s with watch := s.watch.filter (fun w => w.gid != gid || (match s.grp? gid with | some g => g.watches w.line | none => false)) }

/-- The wake of a watcher of `line`: a resident group wakes; for a group that is switched out the wake is set in its saved watch
record, which the slice writes as agent 48 (R50, R72). -/
def State.wakeGroup (s : State) (line gid : Nat) : State :=
  match s.grp? gid with
  | none => s
  | some g =>
    if s.resident g then s.updGrp gid (Group.wakeUp line)
    else
      let hit := g.mon.armed && g.mon.line == line
      let s := s.updGrp gid (fun g => { g with mon := g.mon.fire line, frames := g.frames.map (fun f => { f with mon := f.mon.fire line }) })
      if hit then s.sendOwn gid { kind := .red .or, ty := .b32, width := 4 } [{ lane := 0, va := 0, key := g.saved + 0x38, data := 2, mig := true, st := .wait }]
      else s

/-- A write performed at home fires the wake of every watcher of its line (R72). -/
def State.fireWake (s : State) (line : Nat) : State :=
  if s.watch.any (fun w => w.line == line) then
    let hit := s.watch.filter (fun w => w.line == line)
    let s := { s with watch := s.watch.filter (fun w => w.line != line) }
    hit.foldl (fun s w => s.wakeGroup line w.gid) s
  else s

/-- Record a write grant (R242): the slice sends an atomic OR to the dirty-frame bitmap as agent 48. GB is set when it has been
performed; one at a time is on its way for a region. -/
def State.recordDirty (s : State) (region : Nat) : State :=
  match mfind s.dir region with
  | none => s
  | some d =>
    if s.hub.dirtyEn && !d.gb && 1024 * region < Config.hbmEnd && !(s.ops.any (fun e => e.2.job == .dirty region)) then
      let bit := region / 4
      s.sendOp { gid := 0, cluster := hubAgent, job := .dirty region,
                 kind := .mem { kind := .red .or, ty := .b8, width := 1 }
                   [{ lane := 0, va := 0, key := s.hub.dirtyBase + bit / 8, mig := true, data := 2 ^ (bit % 8), st := .wait }] }
    else s

/-- A write to K of an active meeting takes effect at its instant; values outside 1 … N are ignored (R316). Its consequences follow in the
same step (`State.settleK`). -/
def State.watchK (s : State) (key width : Nat) : State :=
  if s.meets.isEmpty then s
  else { s with meets := s.meets.map (fun e =>
    if key < e.1 + 8 && e.1 + 4 < key + width then
      let k := s.readMem (e.1 + 4) 4
      (e.1, if 1 ≤ k && k ≤ e.2.n then { e.2 with k := k, kNew := true } else e.2)
    else e) }

/-- Perform an access on memory now: the value read, and the write with its wakes and its dirty record (R66). -/
def State.perform (s : State) (key width : Nat) (k : MemKind) (ty : Ty) (data data2 : Nat) : Nat × State :=
  let old := s.readMem key width
  match newValue k ty old data data2 with
  | none => (old, s)
  | some x =>
    let s := s.writeMem key width x
    -- the bytes a store writes are no longer in error (R217)
    let s := if s.badBytes.isEmpty then s else { s with badBytes := s.badBytes.filter (fun b => b < key || key + width ≤ b) }
    (old, ((s.watchK key width).fireWake (lineOf key)).recordDirty (regionOf key))

/-! ### Windows and the classifier (R232, R233) -/

/-- Record a reader (R232). Agent 48 holds no copy: under PC it is counted and takes no slot, and under UNCL its slot serves the
window's tests alone. (DEDUCED, log 80) -/
def Dir.noteReader (d : Dir) (agent : Nat) : Dir :=
  if d.rdr.contains agent || (agent == 48 && d.label == .pc) then d
  else if d.rdr.length < 8 then { d with rdr := d.rdr ++ [agent] } else { d with rovf := true }

/-- Record a request in the window (R232). -/
def Dir.note (d : Dir) (agent : Nat) (wr atomic : Bool) : Dir :=
  let d := if d.rag = agent ∧ d.run > 0 then { d with run := min 127 (d.run + 1) } else { d with rag := agent, run := 1 }
  let d := if atomic && !(d.atoms.contains agent) && d.atoms.length < 2 then { d with atoms := d.atoms ++ [agent] } else d
  let d := { d with wcnt := d.wcnt + 1, conread := d.conread || (!wr && agent != d.owner) }
  if wr then
    if d.wrt.contains agent then d
    else if d.wrt.length < 2 then { d with wrt := d.wrt ++ [agent] } else { d with wovf := true }
  else d.noteReader agent

/-- What the classifier decides for a request (Table 14-5). -/
inductive Verdict
  | stay
  /-- A reclassification (R234). -/
  | reclass (l : Label) (owner : Nat)
  /-- An ownership move within MIGR, which needs only a recall; `short` is set with it. -/
  | move (owner : Nat) (short : Bool)
  deriving DecidableEq, Repr

/-- The row of Table 14-5 for a request by `agent`, before it is noted. -/
def Dir.judge (d : Dir) (agent : Nat) (wr atomic : Bool) : Verdict :=
  if d.lock then .stay
  else if atomic && !(d.atoms.contains agent) && d.atoms.length = 1 && d.label ≠ .cont then .reclass .cont 0
  else match d.label with
    | .priv =>
      if agent = d.owner then .stay
      else if wr then .reclass .migr agent
      else if !d.wst && !d.wsp then .reclass .ro 0 else .reclass .pc d.owner
    | .ro =>
      if !wr then .stay
      else if d.wrt.any (fun a => a != agent) then .reclass .cont 0
      else if !(d.rdr.any (fun a => a != agent)) && !d.rovf then .reclass .priv agent
      else .reclass .pc agent
    | .pc =>
      if !wr || agent = d.owner then .stay
      else if d.rag = agent ∧ d.run ≥ 4 then .reclass .migr agent else .reclass .cont 0
    | .migr =>
      if !wr || agent = d.owner then .stay
      else if d.uses ≥ 4 then .move agent false
      else if !d.short then .move agent true
      else .reclass .cont 0
    | .cont | .uncl => .stay

/-- Agents recorded in the window, readers then writers, each once. -/
def Dir.seen (d : Dir) : List Nat := d.rdr ++ d.wrt.filter (fun a => !(d.rdr.contains a))

/-- The end-of-window tests (Table 14-5). -/
def Dir.windowTest (d : Dir) : Verdict :=
  if d.lock then .stay
  else match d.label with
    | .pc => if d.conread then .stay else .reclass .priv d.owner
    | .cont | .uncl =>
      match d.seen, d.rovf || d.wovf with
      | [a], false => .reclass .priv a
      | _, _ =>
        if d.wrt.isEmpty && !d.wovf then .reclass .ro 0
        else match d.wrt, d.wovf with
          | [w], false => .reclass .pc w
          | _, _ => .stay
    | _ => .stay

/-- Clear the window's records (R232). -/
def Dir.endWindow (d : Dir) : Dir :=
  { d with rovf := false, wrt := [], wovf := false, atoms := [], short := false, wcnt := 0, wsp := d.wst, wst := false,
           conread := false, rdr := if d.label = .uncl ∨ d.label = .pc then d.rdr.filter (fun a => a != 48) else [] }

/-- Step 3 of R234: the new label, owner and sequence number, and the records it clears (R232). An assertion that
the classifier leaves is cleared (R239). -/
def Dir.relabel (d : Dir) (l : Label) (owner : Nat) : Dir :=
  let d := { d with label := l, owner := if l = .priv ∨ l = .migr ∨ l = .pc then owner else 0, seq := d.seq + 1,
                    closing := none, cons := 0, uses := 0 }
  match l with
  | .cont | .uncl =>
    { d with rdr := [], rovf := false, wrt := [], wovf := false, atoms := [], short := false, wcnt := 0, wst := false,
             wsp := false, conread := false }
  | .pc => { d with rdr := [], rovf := false }
  | _ => d

/-! ### Directory entries (R225, R237) -/

/-- Address of a region's label-store half-word, for device HBM; of its half-word in the host label table; or none
(R237); a region of a remote device has its half-word there. -/
def State.labelAddr (s : State) (region : Nat) : Option Nat :=
  if 1024 * region % 2 ^ 52 < Config.hbmEnd then
    some (1024 * region / 2 ^ 52 * 2 ^ 52 + Config.labelBase + 2 * (1024 * region % 2 ^ 52 / 1024))
  else if isHost (1024 * region) then
    let k := region - Config.hostBase / 1024
    if k < s.hub.hltsz then some (s.hub.hlt + 2 * k) else none
  else none

/-- The half-word stored for a region. -/
def State.labelHalf (s : State) (region : Nat) : Nat :=
  match s.labelAddr region with
  | some a => s.readMem a 2
  | none => 0

/-- The LBLRD record of an entry (R239). -/
def Dir.record (d : Dir) (conscnt : Nat) : Nat :=
  let own := if d.label = .priv ∨ d.label = .migr ∨ d.label = .pc then d.owner else 0
  conscnt % 256 * 2 ^ 24 + d.seq.toNat * 2 ^ 16 + own * 2 ^ 6 + b2n d.lock * 2 ^ 5 + b2n d.asrt * 2 ^ 4 + d.label.code

/-- CONS (R239): consumers and uncached readers under PC, holders under UNCL. -/
def Dir.consCount (d : Dir) : Nat :=
  match d.label with
  | .pc => min 255 (d.rdr.length + d.cons)
  | .uncl => min 255 d.rdr.length
  | _ => 0

/-- The lowest number from `i` on that is not in `used`. -/
def firstFree (used : List Nat) : Nat → Nat → Nat
  | 0, i => i
  | fuel + 1, i => if used.contains i then firstFree used fuel (i + 1) else i

/-- A free place in the table of slice `k`. -/
def State.dirSlot (s : State) (k : Nat) : Nat :=
  let used := (s.dir.filter (fun e => s.regionSlice e.1 == k)).map (fun e => e.2.slot)
  firstFree used used.length 0

/-- A fresh entry for an untracked region: from a non-zero half-word, else `dflt` with its owner (R225). -/
def State.freshDir (s : State) (region : Nat) (dflt : Label) (owner : Nat) : Dir :=
  let h := s.labelHalf region
  let slot := s.dirSlot (s.regionSlice region)
  if h ≠ 0 then
    { label := (Label.ofCode (h % 16)).getD .uncl, asrt := bitAt h 4, lock := bitAt h 5, owner := bits h 6 10, used := s.now, slot := slot }
  else { label := dflt, owner := if dflt = .priv then owner else 0, used := s.now, slot := slot }

/-- Copies and delegations of a region. -/
def State.regionCopies (s : State) (region : Nat) : List Copy := s.copies.filter (fun c => c.line / 8 == region)
def State.regionDeleg (s : State) (region : Nat) : List Deleg := s.deleg.filter (fun c => c.line / 8 == region)

/-- Lines leave the L1s of cores. -/
def State.dropL1 (s : State) (p : Nat → Nat → Bool) : State :=
  { s with cores := s.cores.map (fun e => (e.1, { e.2 with l1 := e.2.l1.filter (fun x => !(p e.1 x.line)) })) }

/-- Every copy and delegation of a region ends, in L1s too. -/
def State.dropRegion (s : State) (region : Nat) : State :=
  ({ s with copies := s.copies.filter (fun c => c.line / 8 != region),
            deleg := s.deleg.filter (fun c => c.line / 8 != region) }).dropL1 (fun _ line => line / 8 == region)

/-- Step 2 of R234 is done: nothing of the old label's copies is left (Table 14-6). -/
def State.closeEnded (s : State) (region : Nat) (d : Dir) : Bool :=
  match d.label with
  | .uncl => (s.regionCopies region).all (fun c => c.agent ≥ 49 && d.vbnd ≤ s.homeNow (1024 * region))
  | .priv | .migr => (s.regionDeleg region).isEmpty
  | .ro => d.vbnd ≤ s.homeNow (1024 * region)
  | .pc => d.vbnd ≤ s.homeNow (1024 * region) && !(s.timed.any (fun t => regionOf t.key == region))
  | .cont => true

/-- Start a close (R234): invalidations go to the holders of UNCL, recalls to a delegated owner. -/
def State.startClose (s : State) (region : Nat) (c : Close) : State :=
  { s with dir := mupd s.dir region (fun d => { d with closing := some c }),
           copies := s.copies.map (fun k => if k.line / 8 == region then { k with inval := true } else k),
           deleg := s.deleg.map (fun k => if k.line / 8 == region then { k with recalled := true } else k) }

/-- Write an entry back to the label store: its fields when asserted or locked, else zero (R237). -/
def State.storeLabel (s : State) (region : Nat) (d : Dir) : State :=
  match s.labelAddr region with
  | none => s
  | some a => s.writeMem a 2 (if d.asrt || d.lock then d.record 0 % 2 ^ 16 else 0)

/-- End a close: record the new label, or free an evicted entry (R225, R234). -/
def State.finishClose (s : State) (region : Nat) : State :=
  match mfind s.dir region with
  | none => s
  | some d =>
    match d.closing with
    | none => s
    | some c =>
      let s := s.dropRegion region
      if c.evict then { (s.storeLabel region d) with dir := mdel (s.storeLabel region d).dir region }
      else
        let miss := d.asrt && !c.assertion && (c.label ≠ d.label || (c.owner ≠ d.owner && c.label ≠ .ro && c.label ≠ .cont && c.label ≠ .uncl))
        let s := if miss then s.updSlice (s.regionSlice region) (fun x => { x with amiss := if x.amiss = BitVec.allOnes 32 then x.amiss else x.amiss + 1 }) else s
        { s with dir := mupd s.dir region (fun d => { (d.relabel c.label c.owner) with asrt := d.asrt && !miss }) }

/-- Entries a slice holds. -/
def State.dirCount (s : State) (k : Nat) : Nat := (s.dir.filter (fun e => s.regionSlice e.1 == k)).length

/-- The entry a full slice evicts first (R225): an RO entry whose bound has passed, else the least recently used. One that
is closing or holds parked requests is not evicted (R244). -/
def State.dirVictim (s : State) (k : Nat) : Option Nat :=
  let busy := (s.parkedAccs k).map (fun e => regionOf e.2.key)
  let es := s.dir.filter (fun e => s.regionSlice e.1 == k && e.2.closing.isNone && !(busy.contains e.1))
  match es.find? (fun e => e.2.label == .ro && e.2.vbnd ≤ s.homeNow (1024 * e.1)) with
  | some e => some e.1
  | none => (es.foldl (fun (m : Option (Nat × Nat)) e =>
      match m with
      | none => some (e.2.used, e.1)
      | some b => if e.2.used < b.1 then some (e.2.used, e.1) else m) none).map (·.2)

/-- The slice is evicting an entry. -/
def State.evicting (s : State) (k : Nat) : Bool :=
  s.dir.any (fun e => s.regionSlice e.1 == k && (match e.2.closing with | some c => c.evict | none => false))

/-- Make room for one entry: `none` while an eviction must first end copies (R225). -/
def State.dirRoom (s : State) (region : Nat) : Option State × State :=
  let k := s.regionSlice region
  if s.dirCount k < Config.dirEntries then (some s, s)
  else if s.evicting k then (none, s)
  else match s.dirVictim k with
    | none => (none, s)
    | some r =>
      let s := s.startClose r { label := .uncl, owner := 0, evict := true }
      match mfind s.dir r with
      | some d => if s.closeEnded r d then (some (s.finishClose r), s.finishClose r) else (none, s)
      | none => (none, s)

/-! ### Migration counters (R243) -/

/-- Count a request on its 4 KiB frame; a frame that reaches its threshold is proposed for migration. -/
def State.countFrame (s : State) (key agent ctx : Nat) (counted : Bool) : State :=
  if !counted || key ≥ 2 ^ 52 then s
  else
    let k := s.homeSlice key
    let sl := s.slice k
    let frame := key / 4096
    let host := isHost key
    let e := (sl.mig.find? (fun m => m.frame == frame)).getD { frame := frame }
    let far := !host && agent ≥ 49
    let e := if far then { e with far := e.far + 1, last := agent } else { e with loc := e.loc + 1 }
    let rest := sl.mig.filter (fun m => m.frame != frame)
    let hit := if host then e.loc.toNat ≥ sl.migth else e.far.toNat ≥ sl.migth && e.far.toNat > 2 * e.loc.toNat
    let s := s.updSlice k (fun x => { x with mig := if hit then rest else (rest ++ [e]).drop ((rest.length + 1) - Config.migEntries) })
    if hit then
      s.notify { kind := 2, ctx := ctx, body := [(8, frame * 4096), (4, b2n host), (4, e.loc.toNat), (4, e.far.toNat)] }
    else s

/-! ### Requests at home -/

/-- A request as its home slice sees it. -/
structure Req where
  agent : Nat
  ctx : Nat := 0
  key : Nat
  width : Nat
  kind : MemKind
  ty : Ty := .b32
  data : Nat := 0
  data2 : Nat := 0
  lockok : Bool := false
  mig : Bool := false
  nt : Bool := false
  /-- The operation and lane that wait for it, and whether it was judged before a close (R232). -/
  who : Option (Nat × Nat) := none
  judged : Bool := false
  deriving DecidableEq, Repr

/-- What becomes of a request at home. -/
inductive ReqRes
  /-- Performed: the value read and the instant. -/
  | done (v tc : Nat)
  /-- To be performed at a timed instant (R230). -/
  | timed (tc : Nat)
  /-- Parked under a tag; `judged` when it started the close it waits for. -/
  | park (tag : WakeTag) (judged : Bool)
  /-- Refused by a locked label, with its record (R240). -/
  | refused (rec : Nat)
  /-- Not taken now: no directory entry or replay entry is free. -/
  | later
  deriving DecidableEq, Repr

/-- A locked label refuses the request (Table 14-12). -/
def Dir.refuses (d : Dir) (agent : Nat) (wr : Bool) : Bool :=
  d.lock && match d.label with
    | .priv => agent != d.owner
    | .ro => wr
    | .pc => wr && agent != d.owner
    | _ => false

/-- H of a PC region (R230). -/
def Dir.lag (d : Dir) : Nat := if d.rdr.any (fun a => a ≥ 512) then 2048 else 512

/-- Grant, or renew, a copy of a line to an agent. The bound of one that the agent has dropped stands with the home. -/
def State.grantCopy (s : State) (line agent : Nat) (bound : Option Nat) (nt : Bool) : State :=
  { s with copies := { line := line, agent := agent, bound := bound, nt := nt } ::
      s.copies.filter (fun c => !(c.line == line && c.agent == agent)) }

/-- A load performed at home under the region's label (Table 14-3): the copy it grants. Agent 48 keeps no copy. The first consumer
registered starts the count of H/4 ticks to the first extension (R230). -/
def State.serveLoad (s : State) (d : Dir) (r : Req) : State :=
  let region := regionOf r.key
  let line := lineOf r.key
  let now := s.homeNow r.key
  let lease := (s.slice (s.homeSlice r.key)).lease
  let bump (b : Nat) : State := { s with dir := mupd s.dir region (fun d => { d with vbnd := max d.vbnd b }) }
  match d.label with
  | .uncl =>
    if !(d.rdr.contains r.agent) || r.agent = hubAgent then s
    else if r.agent < 48 then s.grantCopy line r.agent none r.nt
    else (bump (now + lease)).grantCopy line r.agent (some (now + lease)) r.nt
  | .priv | .migr =>
    if r.agent = d.owner && r.agent < 48 then
      let s := { s with dir := mupd s.dir region (fun d => { d with uses := min 7 (d.uses + 1) }) }
      if s.deleg.any (fun x => x.line == line) then s
      else { s with deleg := { line := line, cluster := r.agent } :: s.deleg }
    else s
  | .ro => if r.agent = hubAgent then s else (bump (now + lease)).grantCopy line r.agent (some (now + lease)) r.nt
  | .pc =>
    if d.rdr.contains r.agent then
      let first := (s.regionCopies region).isEmpty
      let s := (bump (now + d.lag)).grantCopy line r.agent (some (now + d.lag)) r.nt
      if first then { s with dir := mupd s.dir region (fun d => { d with extAt := now }) } else s
    else { s with dir := mupd s.dir region (fun d => { d with cons := min 255 (d.cons + 1) }) }
  | .cont => s

/-- A write performed, timed or parked under the region's label (Table 14-3, R229, R230). -/
def State.serveWrite (s : State) (d : Dir) (r : Req) : ReqRes × State :=
  let region := regionOf r.key
  let line := lineOf r.key
  let now (s : State) : ReqRes × State :=
    let (v, s) := s.perform r.key r.width r.kind r.ty r.data r.data2
    (.done v (s.homeNow r.key), s)
  let wrote (s : State) : State := { s with dir := mupd s.dir region (fun d => { d with wst := true }) }
  match d.label with
  | .uncl =>
    let held := s.copies.filter (fun c => c.line == line && !(c.bound.any (fun b => b ≤ s.homeNow r.key)))
    if held.isEmpty then
      now { s with copies := s.copies.filter (fun c => c.line != line) }
    else (.park .recall true, { s with copies := s.copies.map (fun c => if c.line == line then { c with inval := true } else c) })
  | .priv | .migr =>
    if r.agent = d.owner && r.agent < 48 then
      let s := wrote s
      let rest := s.deleg.filter (fun x => x.line != line)
      -- a watched line's store is performed at home, and the owner cache has no part in it (R229)
      if s.watch.any (fun w => w.line == line) then
        now { s with deleg := { line := line, cluster := r.agent } :: rest }
      else
        let s := { s with deleg := { line := line, cluster := r.agent, write := true } :: rest,
                          dir := mupd s.dir region (fun d => { d with uses := min 7 (d.uses + 1) }) }
        now (s.recordDirty region)
    else if r.agent = d.owner then now (wrote s)
    else if s.deleg.any (fun x => x.line == line) then
      (.park .recall true, { s with deleg := s.deleg.map (fun x => if x.line == line then { x with recalled := true } else x) })
    else now s
  | .pc =>
    let s := if r.agent = d.owner then wrote s else s
    if d.rdr.isEmpty then now s
    else
      let tc := s.homeNow r.key + d.lag
      let s := { s with nextId := s.nextId + 1, timed := s.timed ++ [{ tc := tc, key := r.key, width := r.width, kind := r.kind, ty := r.ty, data := r.data, data2 := r.data2, who := r.who }],
                        dir := mupd s.dir region (fun d => { d with vbnd := max d.vbnd tc }),
                        copies := s.copies.map (fun c => if c.line == line then { c with msgs := c.msgs ++ [{ bound := tc, seq := s.nextId }] } else c) }
      (.timed tc, s)
  | .ro | .cont => now s

/-- Perform a request under the label that stands, after it was counted. -/
def State.serve (s : State) (d : Dir) (r : Req) : ReqRes × State :=
  if r.kind.isWrite then s.serveWrite d r
  else
    let s := s.serveLoad d r
    (.done (s.readMem r.key r.width) (s.homeNow r.key), s)

/-- Start what a verdict asks for: a close, or the recall that an ownership move needs. -/
def State.reclassify (s : State) (region : Nat) (l : Label) (owner : Nat) : State :=
  s.startClose region { label := l, owner := owner }

/-- Count, perform and record a request that keeps its label; the window may end with it, and its tests then run (R232). -/
def State.countReq (s : State) (region : Nat) (noted : Dir) (r : Req) : ReqRes × State :=
  let s := ({ s with dir := mput s.dir region { noted with used := s.now } }).countFrame r.key r.agent r.ctx r.mig
  let (res, s) := s.serve { noted with used := s.now } r
  if noted.wcnt ≥ (s.slice (s.homeSlice r.key)).win then
    match mfind s.dir region with
    | none => (res, s)
    | some d' =>
      let v := d'.windowTest
      let s := { s with dir := mput s.dir region d'.endWindow }
      match v with
      | .reclass l o => (res, s.reclassify region l o)
      | _ => (res, s)
  else (res, s)

/-- A write by another agent than the owner of a MIGR region, where nothing else decides: the owner's lines are recalled first, and
the use count that it then reports decides (R229, R233). -/
def Dir.needsRecall (d : Dir) (agent : Nat) (wr atomic : Bool) : Bool :=
  d.label == .migr && wr && agent != d.owner && !d.lock && !(atomic && !(d.atoms.contains agent) && d.atoms.length = 1)

/-- Judge, count and perform a request to a region that is tracked and not closing (R232, R233). -/
def State.judgeReq (s : State) (d : Dir) (r : Req) : ReqRes × State :=
  let region := regionOf r.key
  let wr := r.kind.isWrite
  if r.judged then
    -- counted already; a copy that it takes under UNCL or PC is recorded as it is performed
    if wr || (d.label != .uncl && d.label != .pc) then s.serve d r
    else
      let d := d.noteReader r.agent
      ({ s with dir := mput s.dir region d }).serve d r
  else if d.needsRecall r.agent wr r.kind.isAtomic && !(s.regionDeleg region).isEmpty then
    (.park .recall false, { s with deleg := s.deleg.map (fun x => if x.line / 8 == region then { x with recalled := true } else x) })
  else
    let noted := d.note r.agent wr r.kind.isAtomic
    match d.judge r.agent wr r.kind.isAtomic with
    | .reclass l o =>
      -- counted once, when it starts the close; the window may end with it (R232)
      let noted := if noted.wcnt ≥ (s.slice (s.homeSlice r.key)).win then noted.endWindow else noted
      let s := ({ s with dir := mput s.dir region { noted with used := s.now } }).countFrame r.key r.agent r.ctx r.mig
      (.park .close true, s.reclassify region l o)
    | .move o short => s.countReq region { noted with owner := o, short := noted.short || short, uses := 0 } r
    | .stay => s.countReq region noted r

/-- A request at its home slice (R225, R232–R241): the entry is found or made, a closing region parks it, and a
lock refuses it or is broken. -/
def State.request (s : State) (r : Req) : ReqRes × State :=
  let region := regionOf r.key
  let go (s : State) (d : Dir) : ReqRes × State :=
    if d.closing.isSome then (.park .close false, s)
    else if d.refuses r.agent r.kind.isWrite && !r.kind.isPref then
      if r.lockok then (.refused (d.record d.consCount), s)
      else
        let s := s.updSlice (s.homeSlice r.key) (fun x => { x with lbrk := if x.lbrk = BitVec.allOnes 32 then x.lbrk else x.lbrk + 1 })
        let d := { d with lock := false, asrt := false }
        ({ s with dir := mput s.dir region d }).judgeReq d r
    else s.judgeReq d r
  match mfind s.dir region with
  | some d => go s d
  | none =>
    match s.dirRoom region with
    | (none, s) => (.later, s)
    | (some s, _) =>
      let d := s.freshDir region (if isHost r.key then .uncl else .priv) r.agent
      go { s with dir := mput s.dir region d } d

/-- The number by which the model tells a remote slice's own unit from this device's agent 48. -/
def remoteUnit : Nat := 2048
/-- The agent as which a home slice sees this device's agent `a`: a remote one sees the whole device, but its own units as its agent 48
(R224). -/
def State.agentAt (s : State) (a key : Nat) : Nat := if a = remoteUnit then hubAgent else if key ≥ 2 ^ 52 then 512 + s.devNo else a

/-- What the label of a region is, tracked or only stored (R225, R237). -/
def State.labelOf (s : State) (region : Nat) : Option Dir :=
  match mfind s.dir region with
  | some d => some d
  | none => if s.labelHalf region = 0 then none else some (s.freshDir region .uncl 0)

/-- A locked label refuses an access by an agent (R240), whether the region is tracked or not. -/
def State.lockRefusesKey (s : State) (agent key : Nat) (wr : Bool) : Bool :=
  match s.labelOf (regionOf key) with
  | some d => d.refuses (s.agentAt agent key) wr
  | none => false

/-! ### Label instructions (R237–R239) -/

/-- The layout of an LBLSET request value (Table 14-11): the label and the owner it asks for. -/
def lblRequest (b agent : Nat) : Option (Label × Nat) :=
  match Label.ofCode (b % 16) with
  | none => none
  | some l =>
    let ag := bits b 6 10
    if bits b 16 16 ≠ 0 ∨ bits b 4 2 ≠ 0 then none
    else match l with
      | .priv | .migr | .pc =>
        if ag = 511 then some (l, agent) else if ag < 50 ∨ ag ≥ 512 then some (l, ag) else none
      | _ => if ag = 0 then some (l, 0) else none

/-- A label instruction on a tracked region (R239): it waits for any close, and starts one when the label or the
owner changes. -/
def State.labelOn (s : State) (d : Dir) (r : Req) : ReqRes × State :=
  let region := regionOf r.key
  if d.closing.isSome then (.park .close false, s)
  else match r.kind with
    | .lblset lk =>
      match lblRequest r.data r.agent with
      | none => (.refused (d.record d.consCount), s)
      | some (l, o) =>
        if (s.labelAddr region).isNone then (.refused (d.record d.consCount), s)
        else if d.label = l ∧ (d.owner = o ∨ l = .uncl ∨ l = .ro ∨ l = .cont) then
          (.done 0 (s.homeNow r.key), { s with dir := mput s.dir region { d with asrt := true, lock := lk } })
        else (.park .close false, s.startClose region { label := l, owner := o, assertion := true })
    | .lblclr => (.done 0 (s.homeNow r.key), { s with dir := mput s.dir region { d with asrt := false, lock := false } })
    | _ => (.done (d.record d.consCount) (s.homeNow r.key), s)

/-- A label instruction at the home slice (R225, R239): LBLSET and LBLCLR make an entry without counting in a
window; LBLRD of an untracked region reads the label store. -/
def State.labelReq (s : State) (r : Req) : ReqRes × State :=
  let region := regionOf r.key
  match mfind s.dir region, r.kind with
  | none, .lblrd =>
    (.done ({ (s.freshDir region .uncl 0) with seq := 0 }.record 0 * b2n (s.labelHalf region != 0)) (s.homeNow r.key), s)
  | none, _ =>
    match s.dirRoom region with
    | (none, s) => (.later, s)
    | (some s, _) =>
      let d := s.freshDir region .uncl 0
      ({ s with dir := mput s.dir region d }).labelOn d r
  | some d, _ => s.labelOn d r

/-! ### Timed updates (R230) -/

/-- Give an outstanding access its value and instant. -/
def Op.setAcc (o : Op) (lane : Nat) (f : Acc → Acc) : Op :=
  match o.kind with
  | .mem m accs => { o with kind := .mem m (accs.map (fun a => if a.lane = lane then f a else a)) }
  | _ => o

/-- An operation that no group and no unit waits for ends once its accesses have: the record of a write grant sets GB (R242). -/
def State.closeOp (s : State) (id : Nat) : State :=
  match mfind s.ops id with
  | none => s
  | some o =>
    if o.accs.all Acc.final then
      match o.job with
      | .dirty region => { s with ops := mdel s.ops id, dir := mupd s.dir region (fun d => { d with gb := true }) }
      | .own _ | .trace _ _ | .outside | .entry _ _ => { s with ops := mdel s.ops id }
      | .sys core =>
        { s with ops := mdel s.ops id,
                 sys := mput s.sys core (o.accs.foldl (fun (c : SysCore) a => { c with last := max c.last a.tc, got := a.res }) (mget {} s.sys core)) }
      | .host => { s with ops := mdel s.ops id }
      | _ => s
    else s

/-- The lowest reading that a Regulator copy of this device may show (R64). -/
def State.oldestNow (s : State) : Nat := s.now - 2

/-- Perform the timed write `t` at its instant. What it replaces is kept while a copy may still be read before that instant
(R227). -/
def State.applyTimed (s : State) (t : Timed) : State :=
  let was := mgets byteZero s.mem t.key t.width
  let (v, s) := s.perform t.key t.width t.kind t.ty t.data t.data2
  let s := { s with past := { tc := t.tc, key := t.key, bytes := was } :: s.past.filter (fun p => p.tc > s.oldestNow) }
  match t.who with
  | none => s
  | some (op, lane) =>
    ({ s with ops := mupd s.ops op (fun o => o.setAcc lane (fun a => { a with st := .done, res := v, tc := t.tc })) }).closeOp op

/-- Memory as it stood at a reading of the Regulator: the timed writes of later instants undone (R227). -/
def State.readAt (s : State) (reading key n : Nat) : Nat :=
  if s.past.isEmpty then s.readMem key n
  else leNat (mgets byteZero ((s.past.filter (fun p => p.tc > reading)).foldl (fun m p => msets byteZero m p.key p.bytes) s.mem) key n)

/-- Perform every timed write whose instant has come, in the order of their instants. -/
def State.applyDue (s : State) : List Timed → State
  | [] => s
  | t :: ts => if t.tc ≤ s.homeNow t.key then (s.applyTimed t).applyDue ts else s.applyDue ts

/-- Let the Regulator and the clock move on (R64); timed updates take effect at their instants. Copies that are held still since the device
joined its domain go on once domain time has reached them. -/
def State.pass (s : State) (ticks clks : Nat) : State :=
  let s := { s with now := s.now + (ticks - s.hold), hold := s.hold - ticks, clk := s.clk + clks }
  if s.timed.isEmpty then s
  else
    let due := s.timed.foldl (fun l t => insertBy (·.tc) t l) []
    let s := { s with timed := s.timed.filter (fun t => t.tc > s.homeNow t.key) }
    s.applyDue due

end Sys2Proof.Machine
end

