-- ==== Sys2Proof/Machine/Translate.lean ====
section
/-! DEFINITION. Machine/Translate.lean: canonical addresses, the heap window, the five-level walk and the TLB (R52,
R57–R62). -/

namespace Sys2Proof.Machine

/-- What an access needs of a translation. -/
inductive Need
  | r | w | x
  deriving DecidableEq, Repr

/-- A leaf found by a walk: the page holds `size` bytes at memory key `key`. -/
structure Leaf where
  base : Nat
  size : Nat
  key : Nat
  r : Bool
  w : Bool
  x : Bool
  lockok : Bool
  nomig : Bool
  pin : Bool
  mt : Nat
  dev : Nat
  /-- Memory addresses of the entry and of its companion word. -/
  pte : Nat
  comp : Nat
  deriving DecidableEq, Repr

/-- Outcomes of a walk (Table 3-6), with their level where the manual gives one. -/
inductive WalkRes
  | notPresent
  | badEntry (level : Nat)
  | denied
  | leaf (l : Leaf)
  deriving DecidableEq, Repr

/-- Canonical: bits 63:57 all equal bit 56 (R52). -/
def canonical (va : DWord) : Bool :=
  let top := va.toNat / 2 ^ 56
  top == 0 || top == 255

/-- A page-frame address inside the label carve-out or a reserved range (R56). -/
def badFrame (pa : Nat) : Bool := (Config.labelBase ≤ pa && pa < Config.hostBase)

/-- A level of the walk: its number as a trap reports it, where its index lies, and the bytes a leaf maps. -/
structure Level where
  no : Nat
  lo : Nat
  w : Nat
  /-- Companion words lie this far behind the entries. -/
  comp : Nat
  deriving DecidableEq, Repr

def level4 : Level := ⟨4, 48, 9, 4096⟩
def level3 : Level := ⟨3, 39, 9, 4096⟩
def level2 : Level := ⟨2, 30, 9, 4096⟩
def level1 : Level := ⟨1, 21, 9, 4096⟩
def level0 : Level := ⟨0, 12, 9, 4096⟩
/-- The 64 KiB table, level 5 in a trap record (R60). -/
def level64 : Level := ⟨5, 16, 5, 256⟩

/-- The entry's malformed cases at level `v` (row 2 of Table 3-6). A leaf whose page reaches into the carve-out or the reserved
range is among them, since neither is ever mapped to a context (R56). (DEDUCED, log 79) -/
def badPte (v : Level) (e : Nat) : Bool :=
  let leaf := bitAt e 1
  let t64 := bitAt e 11
  let mt := bits e 8 2
  let dev := bits e 52 9
  let pa := bits e 12 40 * 2 ^ 12
  (leaf && (v.no == 3 || v.no == 4)) || (!leaf && (v.no == 0 || v.no == 5))
  || (t64 && (leaf || v.no != 1))
  || (leaf && pa % 2 ^ v.lo != 0)
  || (leaf && (mt == 3 || (dev != 0 && mt != 2)))
  || bits e 61 2 != 0
  || (if leaf then decide (Config.labelBase < pa + 2 ^ v.lo ∧ pa < Config.hostBase) else badFrame pa)

/-- The leaf of entry `e` at `addr`, for address `va` at level `v`. -/
def leafOf (v : Level) (e addr va : Nat) : Leaf :=
  let pa := bits e 12 40 * 2 ^ 12
  let mt := bits e 8 2
  let dev := bits e 52 9
  { base := va / 2 ^ v.lo * 2 ^ v.lo, size := 2 ^ v.lo, key := if mt = 2 then remoteKey dev pa else pa,
    r := bitAt e 2, w := bitAt e 3, x := bitAt e 4, lockok := bitAt e 5, nomig := bitAt e 63, pin := bitAt e 10,
    mt := mt, dev := dev, pte := addr, comp := addr + v.comp }

def Leaf.permits (l : Leaf) : Need → Bool
  | .r => l.r | .w => l.w | .x => l.x

/-- The leaf for an address, from the entry of level `v` in the table at `table`; the levels below it follow in order (R60). -/
def State.leafFrom (s : State) (va : Nat) : Nat → Level → List Level → WalkRes
  | table, v, below =>
    let addr := table + 8 * bits va v.lo v.w
    let e := s.readMem addr 8
    if !bitAt e 0 then .notPresent
    else if badPte v e then .badEntry v.no
    else if bitAt e 1 then .leaf (leafOf v e addr va)
    else
      let pa := bits e 12 40 * 2 ^ 12
      match below with
      | [] => .badEntry v.no
      | n :: rest =>
        if bitAt e 11 then
          -- a 64 KiB table, under a level-1 entry (R58)
          let addr := pa + 8 * bits va level64.lo level64.w
          let e := s.readMem addr 8
          if !bitAt e 0 then .notPresent
          else if badPte level64 e then .badEntry level64.no
          else .leaf (leafOf level64 e addr va)
        else s.leafFrom va pa n rest
termination_by structural _ _ below => below

/-- The walk: a leaf that does not permit the access is denied (R60). -/
def State.walkFrom (s : State) (va : Nat) (need : Need) (table : Nat) (v : Level) (below : List Level) : WalkRes :=
  match s.leafFrom va table v below with
  | .leaf l => if l.permits need then .leaf l else .denied
  | r => r

/-- The walk of a context's tables for a canonical address (R58–R60). -/
def State.walk (s : State) (ctx : Nat) (va : DWord) (need : Need) : WalkRes :=
  s.walkFrom va.toNat need (mget {} s.ctxs ctx).root level4 [level3, level2, level1, level0]

/-- Install a leaf in a die's TLB; the walker sets A and the companion bit (R62). -/
def State.install (s : State) (die ctx : Nat) (l : Leaf) : State :=
  let s := if bitAt (s.readMem l.pte 8) 6 then s else s.writeMem l.pte 8 (s.readMem l.pte 8 + 64)
  let k := if l.mt = 2 then 4 + l.dev % 60 else die
  let c := s.readMem l.comp 8
  let s := if bitAt c k then s else s.writeMem l.comp 8 (c + 2 ^ k)
  let t : TlbEnt := { die := die, ctx := ctx, va := l.base, size := l.size, key := l.key, r := l.r, w := l.w, x := l.x,
                      lockok := l.lockok, mig := !l.pin && !l.nomig }
  { s with tlb := t :: s.tlb.filter (fun o => !(o.die == die && o.ctx == ctx && o.va == l.base && o.size == l.size)) }

/-- A translation: the memory key, whether locked labels are permitted there, and whether migration counts it. -/
inductive Trans
  | hit (key : Nat) (lockok mig : Bool)
  /-- The heap window denies the access (R57). -/
  | windowDenied
  | nonCanonical
  /-- Nothing usable in the TLB: a walk is needed. -/
  | miss
  deriving DecidableEq, Repr

/-- An address in the context's heap window (R57). -/
def Ctx.inWindow (c : Ctx) (va : Nat) : Bool := c.hwLimit != 0 && c.hwBase ≤ va && va < c.hwBase + c.hwLimit

def Ctx.windowPermits (c : Ctx) : Need → Bool
  | .r => c.hwPerm.getLsbD 0 | .w => c.hwPerm.getLsbD 1 | .x => c.hwPerm.getLsbD 2

def TlbEnt.permits (t : TlbEnt) : Need → Bool
  | .r => t.r | .w => t.w | .x => t.x

/-- The die's TLB entry for an address. A denied permission needs a fresh walk (R61). -/
def State.tlbFind (s : State) (die ctx va : Nat) (need : Need) : Option TlbEnt :=
  s.tlb.find? (fun t => t.die == die && t.ctx == ctx && t.va ≤ va && va < t.va + t.size && t.permits need)

/-- Translate by the heap window or the TLB, without a walk (R57, R61). -/
def State.lookup (s : State) (die ctx : Nat) (va : DWord) (need : Need) : Trans :=
  if !canonical va then .nonCanonical
  else
    let c := mget {} s.ctxs ctx
    if c.inWindow va.toNat then
      if c.windowPermits need then .hit ((va.toNat + c.hwOffset) % 2 ^ 52) false false else .windowDenied
    else match s.tlbFind die ctx va.toNat need with
      | some t => .hit (t.key + (va.toNat - t.va)) t.lockok t.mig
      | none => .miss

/-- A cached translation that a fresh walk would contradict may have been dropped or not (R61): a free choice. -/
def State.lookupFresh (s : State) (die ctx : Nat) (va : DWord) (need : Need) : Trans × State :=
  match s.lookup die ctx va need with
  | .hit key lk mg =>
    if (mget {} s.ctxs ctx).inWindow va.toNat then (.hit key lk mg, s)
    else
      let same := match s.walk ctx va need with
        | .leaf l => l.key + (va.toNat - l.base) == key && l.lockok == lk
        | _ => false
      if same then (.hit key lk mg, s)
      else
        let (k, s) := s.choose 2
        if k = 0 then (.hit key lk mg, s) else (.miss, s)
  | t => (t, s)

/-- How a full translation ends: a key, or the walk outcome and level of R60 with its trap codes. -/
inductive TransEnd
  | ok (key : Nat) (lockok mig : Bool)
  | windowDenied
  | nonCanonical
  | notPresent
  | denied
  | badEntry (level : Nat)
  deriving DecidableEq, Repr

/-- Translate, walking at once where the TLB has nothing (fetch, spills and the hub's own accesses). -/
def State.translate (s : State) (die ctx : Nat) (va : DWord) (need : Need) : TransEnd × State :=
  match s.lookupFresh die ctx va need with
  | (.hit key lk mg, s) => (.ok key lk mg, s)
  | (.windowDenied, s) => (.windowDenied, s)
  | (.nonCanonical, s) => (.nonCanonical, s)
  | (.miss, s) =>
    match s.walk ctx va need with
    | .notPresent => (.notPresent, s)
    | .badEntry v => (.badEntry v, s)
    | .denied => (.denied, s)
    | .leaf l => (.ok (l.key + (va.toNat - l.base)) l.lockok (!l.pin && !l.nomig), s.install die ctx l)

/-- The walk outcome code of FETCH_FAULT and of the error records (Table 11-9): 0 for success. -/
def TransEnd.code : TransEnd → Nat
  | .ok _ _ _ => 0 | .notPresent => 1 | .denied => 2 | .windowDenied => 2 | .badEntry _ => 3 | .nonCanonical => 4

end Sys2Proof.Machine
end

