-- ==== Sys2Proof/Machine/Park.lean ====
section
/-! DEFINITION. Machine/Park.lean: traps of some lanes of an instruction (R112, R215), parking in the operand log
(R212, R213), and the translation of spills and refills (R178). -/

namespace Sys2Proof.Machine

/-- The die of a cluster (R10). -/
def dieOf (cluster : Nat) : Nat := cluster / 12

/-- A lane that failed, with its cause, address and DETAIL. -/
structure Fail where
  lane : Nat
  cause : Nat
  addr : DWord := 0
  detail : Nat := 0
  deriving DecidableEq, Repr

/-- The causes of a list of failures, each once, in order of first appearance. -/
def causesOf : List Fail → List Nat → List Nat
  | [], acc => acc.reverse
  | f :: fs, acc => causesOf fs (if acc.contains f.cause then acc else f.cause :: acc)

/-- Queue one trap for each cause: MASK and RUN are its lanes (all of Active where the instruction executes once),
ADDR and DETAIL those of its lowest lane (R112, R215). -/
def Issue.failAll (x : Issue) (s : State) (fails : List Fail) : State :=
  (causesOf fails []).foldl (fun s c =>
    let fs := fails.filter (fun f => f.cause == c)
    let m := if x.once then x.act else maskOf (fs.map (·.lane))
    let f := fs.headD ⟨0, 0, 0, 0⟩
    s.queueTrap x.gid (x.trap s c m m f.addr 0 f.detail)) s

/-- Lanes of a list of failures. -/
def failMask (x : Issue) (fails : List Fail) : Word :=
  if fails.isEmpty then 0 else if x.once then x.act else maskOf (fails.map (·.lane))

/-- The operand-log entry that an issue may park in: its own when it re-issues one, else the lowest free one
(R212, R214). -/
def Group.parkEntry (g : Group) (reissue : Option Nat) : Option Nat :=
  match reissue with
  | some e => some e
  | none => [0, 1, 2, 3].find? (fun e => (mfind g.log e).isNone)

/-- Bits 56:0 of an address, made canonical. -/
def canonicalOf (va : BitVec 57) : DWord := va.signExtend 64

/-- Park lanes in an operand-log entry and post the FAULT notification (R212). `lanes` are the lanes that stop;
`slots` their slots, the lowest first. -/
def State.parkIn (s : State) (gid e : Nat) (uni : Bool) (word0 lanes : Word) (slots : List (Nat × LogLane)) : State :=
  match s.grp? gid with
  | none => s
  | some g =>
    let s := s.updGrp gid (fun g =>
      { (g.onLanes lanes (fun x => { x with st := .parked e })) with
          log := mput g.log e { lanes := slots, uni := uni, word0 := word0 }, trParks := g.trParks + 1 })
    let a : Nat := ((slots.map (fun p => (canonicalOf p.2.va).toNat)).headD 0)
    s.notify { kind := 1, ctx := g.ctx, body := [(4, (mget {} s.gangs g.gang).idx), (4, g.team * 16 + g.grp), (8, e), (8, a)] }

/-- The slot of a lane that parks with outcome 1 NOT_PRESENT or 2 PROTECTION (Table 12-5). -/
def parkSlot (out : Nat) (va : DWord) (data : Nat) : LogLane :=
  { out := BitVec.ofNat 3 out, va := va.setWidth 57, data := BitVec.ofNat 128 data }

/-- How the translation of a spill or refill ends for a lane (R178). -/
inductive NowRes
  | key (k : Nat) (lockok mig : Bool)
  | park (out : Nat)
  | fail (cause detail : Nat)
  deriving DecidableEq, Repr

/-- The record of a region's label, as LBLRD returns it (R239). -/
def State.labelRecord (s : State) (region : Nat) : Nat :=
  match mfind s.dir region with
  | some d => d.record d.consCount
  | none => 0

/-- Faults that could be resolved park lanes, but not in a gate callee without MAYFAULT (R337). -/
def Group.mayPark (g : Group) : Bool :=
  match g.callee? with
  | some f => f.mayfault
  | none => true

/-- Translate a spill or refill of group `g`, walking at once. Only NOT_PRESENT and PROTECTION from a walk park (R178, R212). -/
def State.stackKey (s : State) (g : Group) (va : DWord) (wr : Bool) : NowRes × State :=
  let (t, s) := s.translate (dieOf g.cluster) g.ctx va (if wr then .w else .r)
  match t with
  | .ok key lk mg => (.key key lk mg, s)
  | .windowDenied => (.fail 0x0F 0, s)
  | .nonCanonical => (.fail 0x0D 0, s)
  | .badEntry v => (.fail 0x10 v, s)
  | .notPresent => (if g.mayPark then .park 1 else .fail 0x11 0, s)
  | .denied => (if g.mayPark then .park 2 else .fail 0x0F 0, s)

end Sys2Proof.Machine
end

