-- ==== Sys2Proof/Machine/Store.lean ====
section
/-! DEFINITION. Machine/Store.lean: the unified store of a core: its granules, and the L1 part (R128, R129). -/

namespace Sys2Proof.Machine

/-- The lane groups resident on a core. -/
def State.coreGroups (s : State) (core : Nat) : List (Nat × Group) :=
  s.groups.filter (fun e => e.2.core == core && !e.2.isSeq && s.resident e.2)

/-- Registers held for a group: its window and the callers' windows below it (R332). -/
def Group.windowRegs (g : Group) : Nat := g.frames.foldl (fun n f => if f.kern then n else n + f.nregs) g.nregs

/-- Scratchpad bytes of the teams on a core. -/
def State.coreScratch (s : State) (core : Nat) : Nat :=
  s.gangs.foldl (fun n k =>
    if (mget {} s.ctxs k.2.ctx).out then n
    else k.2.teams.foldl (fun n t => if t.core == core then n + t.scratch else n) n) 0

/-- Granules of the core's store that are free (R131): not allocated, and not among the 128 that stay L1. -/
def State.freeGranules (s : State) (core : Nat) : Nat :=
  896 - ((s.coreGroups core).foldl (fun n e => n + e.2.windowRegs / 8) 0 + s.coreScratch core / 1024)

/-- Granules of a core's store that hold registers or scratchpads (R128, R129). -/
def State.takenGrans (s : State) (core : Nat) : List Nat :=
  (s.coreGroups core).flatMap (fun e => e.2.gmap ++ e.2.frames.flatMap (fun f => if f.kern then [] else f.gmap))
  ++ s.gangs.flatMap (fun k => if (mget {} s.ctxs k.2.ctx).out then []
      else k.2.teams.flatMap (fun t => if t.core == core then t.grans else []))

/-- `n` granules for registers or a scratchpad: the lowest that are L1's (R129 leaves their placement to the core). (DESIGN CHOICE, log 81) -/
def State.freshGrans (s : State) (core n : Nat) : List Nat :=
  let taken := s.takenGrans core
  ((List.range 1024).filter (fun g => !(taken.contains g))).take n

/-- Granules pass from L1 to registers or a scratchpad: the lines they held are dropped (R128). -/
def State.takeGrans (s : State) (core : Nat) (gs : List Nat) : State :=
  s.updCore core (fun c => { c with l1 := c.l1.filter (fun x => !(gs.contains x.gran)) })

/-- The bank and row of the unified store that hold byte `b` of granule `g` (R128). -/
def storePlace (g b : Nat) : Nat × Nat := (b / 16 % 32, 2 * g + b / 512)
/-- The granule of a group's map, and the byte in it, that hold vector register `k` of lane `l` (R129). -/
def Group.regPlace (g : Group) (k l : Nat) : Option (Nat × Nat) := (g.gmap[k / 8]?).map (fun e => (e, 128 * (k % 8) + 4 * l))

/-- The granule that a new L1 line takes: the lowest of L1 with room for one of its eight lines. -/
def State.l1Gran (s : State) (core : Nat) : Option Nat :=
  let taken := s.takenGrans core
  let l1 := (mget {} s.cores core).l1
  (List.range 1024).find? (fun g => !(taken.contains g) && (l1.filter (fun x => x.gran == g)).length < 8)

/-- A line is placed in a core's L1 (R201); a full L1 drops its oldest line. (DESIGN CHOICE, log 81) -/
def State.fillL1 (s : State) (core line : Nat) : State :=
  s.updCore core (fun c =>
    let rest := c.l1.filter (fun x => x.line != line)
    match s.l1Gran core, rest.getLast? with
    | some g, _ => { c with l1 := { line := line, gran := g } :: rest }
    | none, some x => { c with l1 := { line := line, gran := x.gran } :: rest.dropLast }
    | none, none => c)

/-! ### Clusters and cores (R1, R10, R33, R368) -/

/-- Clusters that the level of service lets run, none during the move to full service (R368, R369). Table 0-1's 48 clusters are all
there: the units that the configuration record disables are among none of them, and have no number (R1). -/
def State.clustersUp (s : State) : List Nat :=
  List.range (if s.hub.svc = 0 ∨ s.mgmt.moving then 0 else if s.hub.svc = 1 then 12 else Config.nClusters)

/-- The cores of a cluster (R10). -/
def coresOf (c : Nat) : List Nat := (List.range 4).map (fun i => 4 * c + i)

/-- Resident groups of a partition (R33). -/
def State.partGroups (s : State) (core p : Nat) : Nat := ((s.coreGroups core).filter (fun e => e.2.grp % 4 == p)).length

/-- A trap record raised for a group at the PC of the lowest of its lanes `m`, outside an issue. -/
def State.lateTrap (s : State) (g : Group) (cause : Nat) (m : Word) (addr : DWord := 0) (detail : Nat := 0) : TrapRec :=
  { cause := cause, mask := m, pc := (g.lane (lowestLane m)).pc, addr := addr,
    regt := BitVec.ofNat 64 (s.regtime g), word0 := g.word0, run := m, detail := BitVec.ofNat 32 detail }

end Sys2Proof.Machine
end

