-- ==== Sys2Proof/Machine/Access.lean ====
section
/-! DEFINITION. Machine/Access.lean: how the accesses of a memory instruction are translated, parked, sent, performed at
home or in the issuing cluster's cache, and reported; combining deltas; fences (R66–R72, R199–R217, R228–R246). -/

namespace Sys2Proof.Machine

/-! ### What an access needs -/

/-- The permission an access needs (R59, R238). (DEDUCED, log 32) -/
def MemKind.need : MemKind → Need
  | .load | .lblrd | .monarm | .cwb | .cinv | .pref _ _ => .r
  | _ => .w
/-- Accesses whose run waits for a label verdict on a LOCKOK page (R216). -/
def MemKind.isData : MemKind → Bool
  | .load | .store | .atom _ | .cas | .red _ => true
  | _ => false
def MemKind.isLabel : MemKind → Bool
  | .lblrd | .lblset _ | .lblclr => true
  | _ => false
/-- Accesses that report an instant to %ctime (Table 12-4, R239). -/
def MemKind.reports : MemKind → Bool
  | .store | .atom _ | .cas | .red _ | .cwb | .lblset _ | .lblclr => true
  | _ => false

/-- An atomic that is combined in the cluster cache (R71). -/
def MemDesc.combines (m : MemDesc) : Option AOp :=
  match m.kind with
  | .atom op | .red op =>
    if m.scope = .cluster && m.ty.isUS && (op = .add || op = .min || op = .max) then some op else none
  | _ => none

/-- The issue of a memory instruction, as its traps need it. -/
def MemDesc.issue (m : MemDesc) (gid : Nat) (g : Group) : Issue :=
  { gid := gid, g := g, run := m.run, act := m.act, once := m.uni, lead := lowestLane m.run, pc := m.pc,
    word0 := m.word0, reissue := m.reissue }

/-- The home slice has accepted or refused an access (R216). -/
def Acc.decided (a : Acc) : Bool := a.final || (match a.st with | .timed => true | _ => false)

/-- Replace the accesses of operation `id`. -/
def State.setAccs (s : State) (id : Nat) (as : List Acc) : State :=
  { s with ops := mupd s.ops id (fun o => match o.kind with | .mem m _ => { o with kind := .mem m as } | _ => o) }

/-! ### Combining deltas (R71) -/

/-- Push one delta entry home (R71): one device-scope atomic for each of its words is sent. The instants are reported to the groups
`report` (R67); the end of launch `launch`, a team of which has ended, waits for them (R36). An
entry's words are pushed at once (DESIGN CHOICE, log 27). -/
def State.pushDelta (s : State) (report : List Nat) (launch : Option Nat) (d : Delta) : State :=
  ({ s with deltas := s.deltas.filter (fun e => e != d) }).sendOp
    { gid := 0, ctx := d.ctx, cluster := d.cluster, job := .push report launch,
      kind := .mem { kind := .red d.op, ty := d.ty, width := d.ty.width / 8 }
        (d.cells.map (fun (c : Nat × Nat) =>
          { lane := c.1, va := BitVec.ofNat 64 (128 * d.line + c.1), key := 128 * d.line + c.1, lockok := d.lockok, mig := d.mig,
            data := c.2, st := .wait })) }

/-- A pushed delta on its way. -/
def Op.isPush (o : Op) : Bool := match o.job with | .push _ _ => true | _ => false
/-- A push reports to a group too. -/
def Op.reportTo (o : Op) (gid : Nat) : Op :=
  match o.job with
  | .push rs l => { o with job := .push (if rs.contains gid then rs else gid :: rs) l }
  | _ => o

/-- Push every delta entry that satisfies `p`. -/
def State.pushWhere (s : State) (report : List Nat) (launch : Option Nat) (p : Delta → Bool) : State :=
  (s.deltas.filter p).foldl (fun s d => s.pushDelta report launch d) s

/-- A push of a line of the cluster is on its way. -/
def State.pushing (s : State) (cluster line : Nat) : Bool :=
  s.ops.any (fun e => e.2.cluster == cluster && e.2.isPush &&
    e.2.accs.any (fun a => lineOf a.key == line && !a.final))

/-- The delta entry of a line in a cluster cache. -/
def State.deltaAt (s : State) (cluster line : Nat) : Option Delta := s.deltas.find? (fun d => d.cluster == cluster && d.line == line)

/-- A combining operation in the cluster cache: its old value, and the cache's new delta. A new entry takes the line's bytes as its base,
read at home for it (R71). -/
def State.combineAt (s : State) (cluster ctx key : Nat) (op : AOp) (ty : Ty) (x : Nat) (lk mg : Bool) : Nat × State :=
  let line := lineOf key
  let off := key % 128
  let n := ty.width / 8
  let d := (s.deltaAt cluster line).getD
    { cluster := cluster, line := line, op := op, ty := ty, base := mgets byteZero s.mem (128 * line) 128, lockok := lk, mig := mg }
  let base := leNat ((d.base.drop off).take n)
  let (old, dl) := match mfind d.cells off with
    | some p => (atomOp op ty base p, atomOp op ty p x)
    | none => (base, x % 2 ^ ty.width)
  let rest := s.deltas.filter (fun e => !(e.cluster == cluster && e.line == line))
  (old, { s with deltas := { d with cells := mput d.cells off dl, ctx := ctx } :: rest })

/-! ### Performing an access (R66, R201, R229, R232) -/

/-- The Regulator's copy of a cluster (R64). -/
def State.clusterNow (s : State) (cluster : Nat) : Nat := s.now - mget 0 s.lagCl cluster

/-- The bound of the cluster's copy of a line has not passed on its Regulator (R227). -/
def State.boundValid (s : State) (cluster line : Nat) (p : Copy → Bool) : Bool :=
  s.copies.any (fun c => c.line == line && c.agent == s.agentAt cluster (128 * line) && p c && !(c.bound.any (fun b => b ≤ s.clusterNow cluster)))

/-- The cluster cache holds a copy that it may load from (R227). -/
def State.copyValid (s : State) (cluster line : Nat) : Bool := s.boundValid cluster line (fun c => c.held)

/-- A line is delegated to a cluster (R229). -/
def State.delegated (s : State) (cluster line : Nat) : Bool := s.deleg.any (fun d => d.line == line && d.cluster == cluster)

/-- A core's L1 holds a line that it may load from: while the bound of its cluster's copy stands, or the line is delegated (R227). -/
def State.l1Valid (s : State) (cluster core line : Nat) : Bool :=
  (s.core core).l1.any (fun x => x.line == line) && (s.boundValid cluster line (fun _ => true) || s.delegated cluster line)

/-- The access is performed in the issuing cluster, not at home: a load from a valid copy or a delegated line, a write to
a line delegated for write (R201, R229). -/
def State.isLocal (s : State) (cluster core : Nat) (m : MemDesc) (key : Nat) : Bool :=
  let line := lineOf key
  if m.combines.isSome then (s.deltaAt cluster line).isSome
  else match m.kind with
  | .load | .pref _ _ => s.copyValid cluster line || s.l1Valid cluster core line || s.delegated cluster line
  | .store | .atom _ | .cas | .red _ | .comb _ _ => s.deleg.any (fun d => d.line == line && d.cluster == cluster && d.write)
  | .cwb => true
  | _ => false

/-- Bytes of an access are in uncorrectable error (R217). -/
def State.isBad (s : State) (key n : Nat) : Bool := s.badBytes.any (fun b => key ≤ b && b < key + n)

/-- An access that the owner cache performs counts for it (R229); one that a copy serves marks it read (R230). -/
def State.countUse (s : State) (cluster key : Nat) : State :=
  if s.delegated cluster (lineOf key) then
    { s with dir := mupd s.dir (regionOf key) (fun d => { d with uses := min 7 (d.uses + 1) }) }
  else { s with copies := s.copies.map (fun c => if c.line == lineOf key && c.agent == s.agentAt cluster key then { c with read := true } else c) }

/-- The granule of a host address. -/
def granuleOf (key : Nat) : Nat := (key - Config.hostBase) / 2 ^ 21
def State.gran (s : State) (k : Nat) : Gran := mget {} s.host.grans k
def State.setGran (s : State) (k : Nat) (g : Gran) : State := { s with host := { s.host with grans := mput s.host.grans k g } }

/-- The device asks for a host granule that PROCESSOR owns: the transfer starts, or waits out the hold (R63). -/
def State.askGranule (s : State) (k : Nat) : State :=
  let g := s.gran k
  if g.dev || g.xfer.isSome then s
  else if g.since ≠ 0 ∧ s.now < g.since + 4096 then s.setGran k { g with want := true }
  else s.setGran k { g with xfer := some true, want := false }

/-- Tracked regions of a granule. -/
def State.granRegions (s : State) (k : Nat) : List (Nat × Dir) :=
  s.dir.filter (fun e => isHost (1024 * e.1) && granuleOf (1024 * e.1) == k)

/-- Start the eviction close of every region of a granule that no close holds already (R63, R234). -/
def State.closeGranule (s : State) (k : Nat) : State :=
  (s.granRegions k).foldl (fun (s : State) e => if e.2.closing.isNone then s.startClose e.1 { label := .uncl, owner := 0, evict := true } else s) s

/-- PROCESSOR asks for a granule that the device owns: the device closes its regions there, once the hold has run out
(R63). -/
def State.askHost (s : State) (k : Nat) : State :=
  let g := s.gran k
  if g.since ≠ 0 ∧ s.now < g.since + 4096 then s.setGran k { g with want := true }
  else
    (s.closeGranule k).setGran k { g with xfer := some false, want := false }

/-- Arm a group's monitor at the line's home slice (R72, R206): a full watch table wakes its oldest watcher, and a
write grant of the line is recalled. -/
def State.armMonitor (s : State) (gid line : Nat) (wake : Bool) : State :=
  let s := (s.updGrp gid (fun g => { g with mon := {} })).trimWatch gid
  let s : State := { s with deleg := s.deleg.map (fun d => if d.line == line then { d with write := false } else d) }
  let slice := s.homeSlice (128 * line)
  let mine := s.watch.filter (fun w => s.homeSlice (128 * w.line) == slice)
  let s := match mine with
    | [] => s
    | w :: _ =>
      if mine.length ≥ Config.watchEntries then
        State.wakeGroup { s with watch := eraseFirst (fun o => o == w) s.watch } w.line w.gid
      else s
  let s := { s with watch := s.watch ++ [({ line := line, gid := gid } : Watch)] }
  s.updGrp gid (fun g => { g with mon := { line := line, armed := true, wake := wake } })

/-- The request that an access makes at home. -/
def State.accReq (s : State) (o : Op) (id : Nat) (m : MemDesc) (a : Acc) : Req :=
  { agent := s.agentAt o.cluster a.key, ctx := o.ctx, key := a.key, width := m.width, kind := m.kind, ty := m.ty, data := a.data,
    data2 := a.data2, lockok := a.lockok, mig := a.mig, nt := m.nt, who := some (id, a.lane), judged := a.judged }

/-- A privileged source: the hub, the host link, or a copy request of the migration class (R246). -/
def Op.privileged (o : Op) : Bool := o.cluster == hubAgent || o.cluster == remoteUnit || o.cluster == 49 || o.migClass

/-- A saturating count of 32 bits. -/
def satInc (x : Word) : Word := if x = BitVec.allOnes 32 then x else x + 1

/-- Put an access in the overflow ring of its slice (R246): the manual gives no layout of the ring's 64-byte entry, which
holds free bytes here. (DESIGN CHOICE, log 37) -/
def State.overflow (s : State) (id : Nat) (a : Acc) : Acc × State :=
  let k := s.homeSlice a.key
  let sl := s.slice k
  if sl.ovf.length < sl.ovfsize then
    let x := leNat (undefinedBytes s.freeCtr 64)
    let n := s.nextId
    let s := ({ s with freeCtr := s.freeCtr + 1, nextId := n + 1 }).writeMem (sl.ovfbase + 64 * (sl.ovfTail % sl.ovfsize)) 64 x
    ({ a with st := .over, arr := n }, s.updSlice k (fun y => { y with ovf := y.ovf ++ [(id, a.lane)], ovfTail := y.ovfTail + 1 }))
  else if a.credit then (a, s)
  else ({ a with credit := true }, s.updSlice k (fun y => { y with ovfhold := satInc y.ovfhold }))

/-- Hold an access at its slice: in the replay queue while it has a free entry. Without one, an ordinary source waits for a credit, as it
is, and a privileged one overflows (R245, R246). -/
def State.parkAcc (s : State) (id : Nat) (o : Op) (a : Acc) (tag : WakeTag) (judged : Bool) : Acc × State :=
  let a := { a with judged := a.judged || judged }
  match a.st with
  | .replay _ => ({ a with st := .replay tag }, s)
  | st =>
    if s.replayOcc (s.homeSlice a.key) < Config.replayEntries then
      if st = .over then ({ a with st := .replay tag, credit := false }, s)
      else ({ a with st := .replay tag, arr := s.nextId, credit := false }, { s with nextId := s.nextId + 1 })
    else if st = .over then (a, s)
    else if o.privileged then s.overflow id a
    else (a, s)

/-- One request at its home slice (R232): performed, timed, parked or refused, as an access of kind `m`. -/
def State.atHome (s : State) (id : Nat) (o : Op) (m : MemDesc) (a : Acc) : Acc × State :=
  let arr := if a.queued then a.arr else s.nextId
  if s.regionParked (regionOf a.key) arr then s.parkAcc id o a .order false
  else
    match (if m.kind.isLabel then s.labelReq (s.accReq o id m a) else s.request (s.accReq o id m a)) with
    | (.done v tc, s) =>
      if s.isBad a.key m.width && !m.kind.isLabel && m.kind ≠ .store then ({ a with st := .failed 3 }, s)
      else ({ a with st := .done, res := v, tc := tc }, s)
    | (.timed tc, s) => ({ a with st := .timed, tc := tc }, s)
    | (.park tag j, s) => s.parkAcc id o a tag j
    | (.refused l, s) => ({ a with st := .refused l }, s)
    | (.later, s) => (a, s)

/-- A load or prefetch places its line: in L1 too, or in the cluster cache alone (R201, R208). -/
def State.placeLine (s : State) (o : Op) (m : MemDesc) (key : Nat) : State :=
  let l1 := match m.kind with | .load => m.l1 | .pref l1 _ => l1 | _ => false
  if l1 && o.cluster < 48 && (s.copyValid o.cluster (lineOf key) || s.delegated o.cluster (lineOf key)) then s.fillL1 o.core (lineOf key) else s

/-- Perform an access in the issuing cluster: a copy gives what memory held at the cluster's reading, and an uncorrectable error of
what a clean copy stands for is not met (R217, R227). -/
def State.performLocal (s : State) (o : Op) (m : MemDesc) (a : Acc) : Acc × State :=
  let s := s.countUse o.cluster a.key
  if s.delegated o.cluster (lineOf a.key) then
    let (v, s) := s.perform a.key m.width m.kind m.ty a.data a.data2
    if m.kind = .load && s.isBad a.key m.width then ({ a with st := .failed 3 }, s)
    else ({ a with st := .done, res := v, tc := s.clusterNow o.cluster }, s)
  else ({ a with st := .done, res := s.readAt (s.clusterNow o.cluster) a.key m.width, tc := s.clusterNow o.cluster }, s)

/-- Deltas that an access pushes first: those of another operation on its line (R71), or all of its line. -/
def State.pushFirst (s : State) (o : Op) (m : MemDesc) (line : Nat) : State :=
  let mine := fun (d : Delta) => d.cluster == o.cluster && d.line == line
  match m.combines, m.kind with
  | some op, _ => s.pushWhere [] none (fun d => mine d && !(d.op == op && d.ty == m.ty))
  | none, .cwb => s.pushWhere [o.gid] none mine
  | none, .lblrd | none, .lblset _ | none, .lblclr | none, .monarm | none, .pref _ _ => s
  | none, _ => match o.job with | .push _ _ => s | _ => s.pushWhere [] none mine

/-- The access must wait for a push of its line by its cluster (R71). -/
def State.waitsPush (s : State) (o : Op) (m : MemDesc) (line : Nat) : Bool :=
  match o.job, m.kind with
  | .push _ _, _ | _, .lblrd | _, .lblset _ | _, .lblclr | _, .monarm | _, .pref _ _ => false
  | _, _ => s.pushing o.cluster line

/-- Perform an access that has been translated: in the cluster's cache, or at its home slice, here or at a
remote device (R66, R201); a lost device fails it with LINK_DOWN (R360). A
read-modify-write that would read uncorrectable data is not performed (R217). The first combining operation on a line reads its home
value as a load does (R71). -/
def State.performAcc (s : State) (id : Nat) (o : Op) (m : MemDesc) (a : Acc) : Acc × State :=
  let line := lineOf a.key
  let s := s.pushFirst o m line
  let gran := s.gran (granuleOf a.key)
  if (keyDev a.key).any (fun d => s.lost.contains d) then ({ a with st := .failed 5 }, s)
  else if s.waitsPush o m line then (a, s)
  else if m.kind = .cwb then ({ a with st := .done, tc := 0 }, s)
  else if m.kind = .monarm then
    ({ a with st := .done, tc := s.homeNow a.key }, s.armMonitor o.gid line (isHost a.key && !gran.dev))
  else if isHost a.key && o.cluster ≠ 49 && (!gran.dev || gran.xfer.isSome) then
    let (a, s) := s.parkAcc id o a .xfer false
    (a, s.askGranule (granuleOf a.key))
  else if isHost a.key && o.cluster = 49 then
    -- the host reaches its own memory itself, and asks for a granule that the device owns (R63)
    if gran.dev || gran.xfer.isSome then
      let (a, s) := s.parkAcc id o a .xfer false
      (a, if gran.xfer.isSome then s else s.askHost (granuleOf a.key))
    else
      let (v, s) := s.perform a.key m.width m.kind m.ty a.data a.data2
      ({ a with st := .done, res := v, tc := s.now }, s)
  else if m.kind.isAtomic && s.isBad a.key m.width then ({ a with st := .failed 3 }, s)
  else match m.combines with
  | some op =>
    let (b, s) := if s.isLocal o.cluster o.core m a.key then ({ a with st := .done }, s) else s.atHome id o { m with kind := .load } a
    match b.st with
    | .done =>
      let (v, s) := s.combineAt o.cluster o.ctx a.key op m.ty a.data a.lockok a.mig
      ({ b with res := v, tc := s.clusterNow o.cluster }, s)
    | _ => (b, s)
  | none =>
    let (b, s) := if s.isLocal o.cluster o.core m a.key then s.performLocal o m a else s.atHome id o m a
    match b.st with
    | .done => (b, s.placeLine o m a.key)
    | _ => (b, s)

/-- An older access of the same lane that overlaps this one has not taken effect (R70). Spills and refills are among them (R177). -/
def State.overlapOlder (s : State) (id : Nat) (o : Op) (m : MemDesc) (a : Acc) : Bool :=
  o.gid ≠ 0 && s.ops.any (fun e => e.1 < id && e.2.gid == o.gid && (match e.2.desc? with
    | none => false
    | some m' => m'.kind.isData && m.kind.isData &&
        e.2.accs.any (fun b => (b.lane == a.lane || m.uni || m'.uni) && !b.final && b.st != .walk &&
          b.key < a.key + m.width && a.key < b.key + m'.width)))

/-! ### What goes first to a slice (R14, R245, R249) -/

/-- A queue handle (Table 15-4): the remote device, the slice as this device numbers it, and the queue. -/
structure Handle where
  dev : Option Nat
  slice : Nat
  q : Nat
  deriving DecidableEq, Repr

/-- Read a handle; `none` for non-zero reserved bits, a slice above 95, or a device outside the domain. -/
def State.handle? (s : State) (x : Nat) : Option Handle :=
  let rem := bitAt x 25
  let dev := bits x 16 9
  let sl := bits x 8 7
  if bits x 26 6 ≠ 0 ∨ bitAt x 15 ∨ sl ≥ 96 ∨ (!rem && dev ≠ 0) ∨ (rem && s.lost.contains dev) then none
  else if rem && dev ≠ s.devNo then some { dev := some dev, slice := 96 * (dev + 1) + sl, q := bits x 0 8 }
  else some { dev := none, slice := sl, q := bits x 0 8 }

/-- The slice to which a queue instruction is still to be sent (R252). -/
def State.queueSlice (s : State) (o : Op) : Option Nat :=
  match o.kind with
  | .queue q => if q.begun then none else (s.handle? q.handle).map (fun h => h.slice)
  | _ => none

/-- An older request of the operation's cluster to the slice has not been sent: requests of one source to one slice arrive in the order
they were sent (R14). -/
def State.sentOlder (s : State) (id : Nat) (o : Op) (slice : Nat) : Bool :=
  s.ops.any (fun e => e.1 < id && e.2.cluster == o.cluster && (s.queueSlice e.2 == some slice || (match e.2.desc? with
    | none => false
    | some m' => e.2.accs.any (fun b => b.st == .wait && s.homeSlice b.key == slice && !s.isLocal o.cluster e.2.core m' b.key))))

/-- A slice whose replay queue is full takes no request of an ordinary source (R245). -/
def State.noCredit (s : State) (o : Op) (slice : Nat) : Bool := !o.privileged && decide (Config.replayEntries ≤ s.replayOcc slice)

/-- A system core's access (R347). -/
def Op.ofSys (o : Op) : Bool := match o.job with | .sys _ => true | _ => false

/-- A write of a group, or of a system core, that is performed on host memory goes over the host link too, and is acknowledged there (R68,
R347). (DEDUCED, log 82) -/
def State.sendLink (s : State) (o : Op) (m : MemDesc) (a : Acc) : State :=
  if isHost a.key && (o.gid ≠ 0 || o.ofSys) && m.kind.isWrite && (a.st == .done || a.st == .timed) then
    s.sendOp { gid := o.gid, ctx := o.ctx, cluster := o.cluster, core := o.core, job := .link, kind := .reply none 0 [] none none }
  else s

/-- HOME_REQUEST (R232): the access of lane `lane` of operation `id` reaches the unit that performs it, unless an older
one that must come first has not, or its slice grants no credit. (DESIGN CHOICE, log 34) -/
def State.homeRequest (s : State) (id lane : Nat) : State :=
  match mfind s.ops id with
  | none => s
  | some o =>
    match o.desc?, o.accs.find? (fun a => a.lane == lane) with
    | some m, some a =>
      if a.st ≠ .wait ∨ m.kind = .cinv then s
      else if s.overlapOlder id o m a then s
      else if !(s.isLocal o.cluster o.core m a.key) && (s.sentOlder id o (s.homeSlice a.key) || s.noCredit o (s.homeSlice a.key)) then s
      else
        let (a, s) := s.performAcc id o m a
        (({ s with ops := mupd s.ops id (fun o => o.setAcc lane (fun _ => a)) }).closeOp id).sendLink o m a
    | _, _ => s

/-! ### Requests that a unit waits for (R224, R250) -/

/-- What a unit's request comes to. -/
inductive UnitRes
  | done (v tc : Nat)
  /-- A locked label refuses it (R240). -/
  | refused
  /-- It failed with a status code. -/
  | failed (code : Nat)
  /-- It waits at home, or for its instant. -/
  | wait
  deriving DecidableEq, Repr

/-- The operation that carries a unit's request. -/
def Ask.op (q : Ask) : Op :=
  { gid := 0, ctx := q.ctx, cluster := q.agent, job := .unit q,
    kind := .mem { kind := q.kind, ty := q.ty, width := q.width }
      [{ lane := 0, va := BitVec.ofNat 64 q.key, key := q.key, lockok := q.lockok, mig := q.mig, data := q.data, data2 := q.data2, st := .wait }] }

/-- The answer to a unit's request, once it has come. -/
def State.answer (s : State) (id : Nat) : UnitRes :=
  match (mfind s.ops id).map (·.accs) with
  | some [a] =>
    match a.st with
    | .done => .done a.res a.tc
    | .failed c => .failed c
    | .refused _ => .refused
    | _ => .wait
  | _ => .wait

/-- A unit makes a request: it is sent, and performed at once where nothing holds it. The same event that asks again finds the request,
waiting or answered, until the event is over (`State.forget`) (DESIGN CHOICE, log 15). -/
def State.ask (s : State) (q : Ask) : UnitRes × State :=
  match s.ops.find? (fun e => e.2.job == .unit q) with
  | some e => (s.answer e.1, s)
  | none =>
    let id := s.nextId
    let s := (s.sendOp q.op).homeRequest id 0
    (s.answer id, s)

/-- An operation is a request of the event `tag`. -/
def Op.askOf (o : Op) (tag : Nat × Nat) : Bool := match o.job with | .unit q => q.tag == tag | _ => false
/-- A request of the event has no answer yet. -/
def State.asking (s : State) (tag : Nat × Nat) : Bool := s.ops.any (fun e => e.2.askOf tag && !(e.2.accs.all Acc.final))
/-- The event is over: its requests are forgotten. -/
def State.forget (s : State) (tag : Nat × Nat) : State := { s with ops := s.ops.filter (fun e => !(e.2.askOf tag)) }
/-- After an event's attempt: it is over unless one of its requests still waits. -/
def State.overIf (s : State) (tag : Nat × Nat) : State := if s.asking tag then s else s.forget tag

/-! ### What a fence starts (R68) -/

/-- Scopes whose fence pushes the cluster's deltas (R68). -/
def wideScope : Scope → Bool
  | .device | .domain | .system => true
  | _ => false

/-- A fence issues: for .device and wider every delta entry of the cluster is pushed home, and pushes already on their way report to
the group too (R68). -/
def State.startFence (s : State) (gid : Nat) (sc : Scope) : State :=
  match s.grp? gid with
  | none => s
  | some g =>
    if wideScope sc then
      let s : State := if s.ops.any (fun e => e.2.cluster == g.cluster && e.2.isPush) then
          { s with ops := s.ops.map (fun e => if e.2.cluster == g.cluster then (e.1, e.2.reportTo gid) else e) }
        else s
      s.pushWhere [gid] none (fun d => d.cluster == g.cluster)
    else s

/-! ### Translation, parking and the run (R211–R216) -/

/-- The operand-log entry that a re-issue came from is free once no lane is parked in it (R214). -/
def State.freeEntry (s : State) (gid : Nat) (e : Option Nat) : State :=
  match e with
  | none => s
  | some e => s.updGrp gid (fun g =>
      if g.lanes.any (fun l => l.st == .parked e) then g else { g with log := mdel g.log e })

/-- Lanes of a memory operation that stay at the instruction: parked, trapped or refused. -/
def staying (m : MemDesc) (as : List Acc) : Word :=
  let l := maskOf ((as.filter (fun a => a.st == .off)).map (·.lane))
  if m.uni then (if l = 0 then 0 else m.act) else l

/-- The run's lanes go on, and the instruction's own waiting starts: an acquire's fence, a MONARM, a CINV
(R69, R206, R210). -/
def State.passOn (s : State) (id : Nat) : State :=
  match mfind s.ops id with
  | none => s
  | some o =>
    match o.desc? with
    | none => s
    | some m =>
      let as := o.accs
      let go := m.run &&& ~~~staying m as
      let some_ := as.any (fun a => a.st != .off)
      let s := s.freeEntry o.gid m.reissue
      if some_ && m.kind = .monarm then s.updGrp o.gid (fun g => g.setBlock (.monarm id 0 go))
      else if some_ && m.kind = .cinv then s.updGrp o.gid (fun g => g.setBlock (.cinv id go))
      else
        let acq := some_ && m.kind.isData && (m.ord = .acq || m.ord = .ar)
        let s := s.updGrp o.gid (fun g =>
          let g := (g.advance go).setBlock (if acq && m.reissue.isNone then .fence m.scope 0 else .none)
          -- the fence of a re-issue holds its lanes alone (R214)
          if acq && m.reissue.isSome && go ≠ 0 then
            { (g.onLanes go (fun x => { x with st := .fence })) with fences := g.fences ++ [(go, m.scope, none)] }
          else g)
        if acq then s.startFence o.gid m.scope
        else if !some_ && m.cls.isNone then { s with ops := mdel s.ops id }
        else s

/-- Every lane's translation has ended: the run goes on, or is held for the label verdict (R211, R216). -/
def State.settle (s : State) (id : Nat) : State :=
  match mfind s.ops id with
  | none => s
  | some o =>
    match o.desc? with
    | none => s
    | some m =>
      let judged := fun (a : Acc) => !a.final && ((a.lockok && m.kind.isData) || (match m.kind with | .lblset _ => true | _ => false))
      let held := match s.grp? o.gid with | some g => !g.unwinding | none => false
      if o.accs.any judged && held then s.updGrp o.gid (fun g => { g with block := .verdict id }) else s.passOn id

/-- A store drops its line from the issuing core's L1 when it is sent and, where the line is not delegated to its cluster for write,
from the cluster cache's clean copies; the home still counts the cluster as a holder until the bound or an invalidation ends it
(R201, R228). -/
def State.dropCopies (s : State) (cluster core : Nat) (m : MemDesc) (key : Nat) : State :=
  let line := lineOf key
  if m.kind.isWrite && m.combines.isNone then
    let s := if s.cores.any (fun e => e.1 == core && e.2.l1.any (fun x => x.line == line)) then s.dropL1 (fun c l => c == core && l == line) else s
    if s.delegated cluster line then s
    else { s with copies := s.copies.map (fun c => if c.line == line && c.agent == s.agentAt cluster key then { c with held := false } else c) }
  else s

/-- A translated access: `.lock` without LOCKOK traps PROTECTION (R238). -/
def translated (m : MemDesc) (a : Acc) (key : Nat) (lk mg : Bool) : Acc × Option Fail :=
  match m.kind with
  | .lblset true =>
    if lk then ({ a with st := .wait, key := key, lockok := lk, mig := mg }, none)
    else ({ a with st := .off }, some { lane := a.lane, cause := 0x0F, addr := a.va })
  | _ => ({ a with st := .wait, key := key, lockok := lk, mig := mg }, none)

/-- A lane that failed translation: a helper lane receives 0 (R187), any other is trapped (R215). -/
def failLane (m : MemDesc) (a : Acc) (cause detail : Nat) : Acc × Option Fail :=
  if m.helpers.getLsbD a.lane then ({ a with st := .done, res := 0 }, none)
  else ({ a with st := .off }, some { lane := a.lane, cause := cause, addr := a.va, detail := detail })

/-- Translate each access by the heap window or the TLB; the others are to be walked. -/
def State.lookupAccs (s : State) (g : Group) (m : MemDesc) : List Acc → List Acc × List Fail × State
  | [] => ([], [], s)
  | a :: as =>
    if a.st ≠ .walk then
      let (rs, fs, s) := s.lookupAccs g m as
      (a :: rs, fs, s)
    else
      let (t, s) := s.lookupFresh (dieOf g.cluster) g.ctx a.va m.kind.need
      let (a, f, s) := match t with
        | .hit key lk mg => let p := translated m a key lk mg; (p.1, p.2, s.dropCopies g.cluster g.core m key)
        | .windowDenied => let p := failLane m a 0x0F 0; (p.1, p.2, s)
        | .nonCanonical => let p := failLane m a 0x0D 0; (p.1, p.2, s)
        | .miss => (a, none, s)
      let (rs, fs, s) := s.lookupAccs g m as
      (a :: rs, f.toList ++ fs, s)

/-- Walk for each access that needs it: its new state, its trap, or its slot in the operand log. -/
def State.walkAccs (s : State) (g : Group) (m : MemDesc) : List Acc → List Acc × List Fail × List (Nat × LogLane) × State
  | [] => ([], [], [], s)
  | a :: as =>
    if a.st ≠ .walk then
      let (rs, fs, ps, s) := s.walkAccs g m as
      (a :: rs, fs, ps, s)
    else
      let park (o c : Nat) : Acc × Option Fail × List (Nat × LogLane) :=
        if g.mayPark && !m.helpers.getLsbD a.lane then
          let data := match m.kind with | .cas => a.data + 2 ^ (8 * m.width) * a.data2 | _ => a.data
          ({ a with st := .off }, none, [(a.lane, parkSlot o a.va data)])
        else let p := failLane m a c 0; (p.1, p.2, [])
      let ((a, f, p), s) := match s.walk g.ctx a.va m.kind.need with
        | .notPresent => (park 1 0x11, s)
        | .denied => (park 2 0x0F, s)
        | .badEntry v => let p := failLane m a 0x10 v; ((p.1, p.2, []), s)
        | .leaf l =>
          let key := l.key + (a.va.toNat - l.base)
          let p := translated m a key l.lockok (!l.pin && !l.nomig)
          ((p.1, p.2, []), (s.install (dieOf g.cluster) g.ctx l).dropCopies g.cluster g.core m key)
      let (rs, fs, ps, s) := s.walkAccs g m as
      (a :: rs, f.toList ++ fs, p ++ ps, s)

/-- Send the accesses of a memory instruction whose own checks have passed: the operation is counted and its lanes are
translated; the run stays while one of them is walked (R211). -/
def State.sendMem (s : State) (gid : Nat) (m : MemDesc) (as : List Acc) : State :=
  match s.grp? gid with
  | none => s
  | some g =>
    let id := s.nextId
    let (as, fs, s) := s.lookupAccs g m as
    let s := s.addOp gid m.cls (.mem m as)
    let s := (m.issue gid g).failAll s fs
    if as.any (fun a => a.st == .walk) then
      if (match s.grp? gid with | some g => g.unwinding | none => true) then
        (s.setAccs id (as.map (fun a => if a.st == .walk then { a with st := .off } else a))).settle id
      else s.updGrp gid (fun g => { g with block := .walk id })
    else s.settle id

/-- WALK_END (R211–R215): the walks of the group's held instruction finish; its lanes advance, park or trap. -/
def State.walkEnd (s : State) (gid : Nat) : State :=
  match s.grp? gid with
  | none => s
  | some g =>
    match g.block with
    | .walk id =>
      match (mfind s.ops id).bind (fun o => o.desc?.map (fun m => (m, o.accs))) with
      | none => s
      | some (m, as) =>
        let (as, fs, ps, s) := s.walkAccs g m as
        let s := s.setAccs id as
        let s := (m.issue gid g).failAll s fs
        let s := match ps, g.parkEntry m.reissue with
          | [], _ => s
          | ps, some e => s.parkIn gid e m.uni m.word0 (if m.uni then m.act else maskOf (ps.map (fun (p : Nat × LogLane) => p.1))) ps
          | _, none => s
        s.settle id
    | _ => s

/-- LABEL_VERDICT (R216): the home slices have accepted or refused every lane; the refused ones trap and the rest go
on. -/
def State.labelVerdict (s : State) (gid : Nat) : State :=
  match s.grp? gid with
  | none => s
  | some g =>
    match g.block with
    | .verdict id =>
      match (mfind s.ops id).bind (fun o => o.desc?.map (fun m => (m, o.accs))) with
      | none => s
      | some (m, as) =>
        if as.all Acc.decided then
          -- a helper lane receives 0 (R187), any other refused lane is trapped
          let no := as.filterMap (fun a => match a.st with
            | .refused r => if m.helpers.getLsbD a.lane then none else some ({ lane := a.lane, cause := 0x13, addr := a.va, detail := r } : Fail)
            | _ => none)
          let as := as.map (fun a => match a.st with
            | .refused _ => if m.helpers.getLsbD a.lane then { a with st := AccSt.done, res := 0 } else { a with st := AccSt.off }
            | _ => a)
          ((m.issue gid g).failAll (s.setAccs id as) no).passOn id
        else s
    | _ => s

/-! ### Replay (R234, R245) -/

/-- A parked request may re-enter the slice pipeline: the condition of its tag has ended. -/
def State.wakeable (s : State) (a : Acc) (tag : WakeTag) : Bool :=
  let region := regionOf a.key
  match tag with
  | .close => (match mfind s.dir region with | some d => d.closing.isNone | none => true)
  | .recall =>
    !(s.copies.any (fun c => c.line == lineOf a.key && c.inval && !(c.agent ≥ 49 && c.bound.any (fun b => b ≤ s.homeNow a.key)))) &&
      !(s.deleg.any (fun d => d.line == lineOf a.key && d.recalled))
  | .xfer => (s.gran (granuleOf a.key)).xfer.isNone
  | .order => !s.regionParked region a.arr

/-- Retry parked requests in arrival order. -/
def State.retry (s : State) (tag : WakeTag) : List (Nat × Acc) → State
  | [] => s
  | (id, a) :: rest =>
    match mfind s.ops id with
    | none => s.retry tag rest
    | some o =>
      match o.desc? with
      | none => s.retry tag rest
      | some m =>
        if s.wakeable a tag then
          let (a', s) := s.performAcc id o m a
          ((({ s with ops := mupd s.ops id (fun o => o.setAcc a.lane (fun _ => a')) }).closeOp id).sendLink o m a').retry tag rest
        else s.retry tag rest

/-- REPLAY_WAKE (R245): a tag fires and its parked requests re-enter the pipeline in arrival order. -/
def State.replayWake (s : State) (slice : Nat) (tag : WakeTag) : State :=
  let ps := (s.parkedAccs slice).filter (fun e => e.2.st == .replay tag)
  s.retry tag (ps.foldl (fun l e => insertBy (·.2.arr) e l) [])

/-! ### Reports (R17, R199, R204, R217) -/

/-- The register contents that a load of type `ty` leaves over `old` (R199): narrow types keep the other bits, `.u`
and `.s` extend. -/
def loadValue (ty : Ty) (old v : Nat) : Nat :=
  match ty with
  | .b8 | .b16 => old / 2 ^ ty.width * 2 ^ ty.width + v % 2 ^ ty.width
  | .s8 | .s16 => wrap 32 (toSigned ty.width v)
  | _ => v

/-- Write one lane's result to a destination, if it still lies within the window. -/
def Group.putLane (g : Group) (d : Opnd) (w l x : Nat) : Group :=
  match d with
  | .v k => if k + w ≤ g.nregs then
      { g with v := putRegs g.v k l w x, poison := if g.poison.isEmpty then g.poison else clearPoison g.poison d l w } else g
  | .s k => if k + w ≤ g.sregs then
      { g with sc := putScalars g.sc k w x, poison := if g.poison.isEmpty then g.poison else clearPoison g.poison d 0 w } else g
  | _ => g

/-- Poison `w` registers of a destination in lane `l` (R217). -/
def Group.poisonLane (g : Group) (d : Opnd) (l : Nat) (p : Poison) : Nat → Group
  | 0 => g
  | w + 1 => (match poisonKey d w l with | some k => { g with poison := mput g.poison k p } | none => g).poisonLane d l p w

/-- Registers of a memory destination. -/
def MemDesc.dstRegs (m : MemDesc) : Nat := match m.kind with | .lblrd => 1 | _ => m.ty.regs

/-- One lane's data reach the destination, or poison it. -/
def Group.deliver (g : Group) (m : MemDesc) (d : Opnd) (a : Acc) : Group :=
  let w := m.dstRegs
  match a.st with
  | .done =>
    let old := g.opnd d w a.lane
    g.putLane d w a.lane (match m.kind with | .load => loadValue m.ty old a.res | _ => a.res)
  | .failed c => g.poisonLane d a.lane ⟨a.va, c⟩ w
  | _ => g

/-- The latest reported instant of some accesses. -/
def latest (as : List Acc) : Nat := as.foldl (fun t a => if a.st == .done then max t a.tc else t) 0

/-- Reports of failed accesses that have no destination (R217, R358). -/
def State.reportFails (s : State) (ctx : Nat) (as : List Acc) : State :=
  as.foldl (fun s a => match a.st with | .failed c => s.addErr ctx (.item a.va c) | _ => s) s

/-- Words put in a destination by lane. -/
def Group.putVals (g : Group) (d : Opnd) (w : Nat) (vals : List (Nat × Nat)) : Group :=
  vals.foldl (fun g (v : Nat × Nat) => g.putLane d w v.1 v.2) g

/-- An operation that its unit has performed is reported: destination, predicate and instant, then its counter (R17,
R252). -/
def State.deliverReply (s : State) (id : Nat) : State :=
  match mfind s.ops id with
  | none => s
  | some o =>
    match o.kind with
    | .reply d w vals pd tc =>
      (s.updGrp o.gid (fun g =>
        let g := match d with | none => g | some d => g.putVals d w vals
        let g := match pd with | none => g | some (k, m, b) => g.setPredBits k m b
        match tc with | none => g | some t => g.raiseCtime t)).endOp id
    | _ => s

/-- The operation's group waits for its label verdict: nothing of it is reported before (R216). -/
def State.judging (s : State) (gid id : Nat) : Bool :=
  match s.grp? gid with
  | some g => g.block == .verdict id
  | none => false

/-- The operation's group waits for its spills or refills (R177). -/
def State.stackHeld (s : State) (gid id : Nat) : Bool :=
  match s.grp? gid with
  | some g => (match g.block with | .stack k _ => k == id | _ => false)
  | none => false

/-- LOAD_DATA_ARRIVAL (R17, R199): every lane's data have come; they are written to the destination and the operation is
reported to ld. -/
def State.loadArrival (s : State) (id : Nat) : State :=
  match mfind s.ops id with
  | none => s
  | some o =>
    match o.kind, o.cls with
    | .mem m as, some .ld =>
      if as.all Acc.final && !(s.judging o.gid id) then
        let s := s.updGrp o.gid (fun g =>
          let g := match m.dst with | none => g | some d => as.foldl (fun g a => g.deliver m d a) g
          if m.kind.reports then g.raiseCtime (latest as) else g)
        let s := if m.dst.isNone then s.reportFails o.ctx as else s
        s.endOp id
      else s
    | .reply _ _ _ _ _, some .ld => s.deliverReply id
    | _, _ => s

/-- A pushed delta has been performed (R67, R217, R240): its instant raises the %ctime of the groups it is reported to; a word that was
refused or failed goes to the error record of the context whose team pushed it. -/
def State.pushReport (s : State) (id : Nat) (o : Op) (report : List Nat) : State :=
  let s := report.foldl (fun s g => s.updGrp g (fun g => g.raiseCtime (latest o.accs))) s
  let s := o.accs.foldl (fun s a => match a.st with
    | .refused _ => s.addErr o.ctx (.item a.va 2)
    | .failed c => s.addErr o.ctx (.item a.va c)
    | _ => s) s
  { s with ops := mdel s.ops id }

/-- STORE_COMMIT_REPORT (R204): every lane has its T_c; %ctime is raised and the operation is reported to st. The same event reports a
pushed delta, and ends a spill that has been performed. -/
def State.storeReport (s : State) (id : Nat) : State :=
  match mfind s.ops id with
  | none => s
  | some o =>
    match o.kind, o.cls with
    | .mem m as, none =>
      if as.all Acc.final then
        match o.job with
        | .push report _ => s.pushReport id o report
        | .stack => if m.kind == .store && !(s.stackHeld o.gid id) then { (s.reportFails o.ctx as) with ops := mdel s.ops id } else s
        | _ => s
      else s
    | .mem m as, some .st =>
      if as.all Acc.final && !(s.judging o.gid id) then
        let s := if m.kind.reports then s.updGrp o.gid (fun g => g.raiseCtime (latest as)) else s
        (s.reportFails o.ctx as).endOp id
      else s
    | .reply _ _ _ _ _, some .st => s.deliverReply id
    | .reply _ _ _ _ _, none => if o.job == .link && s.host.up then { s with ops := mdel s.ops id } else s
    | _, _ => s

/-! ### Fences (R68, R69) -/

/-- G of a fence scope (Table 3-9). -/
def guardTicks : Scope → Nat
  | .team | .cluster => 0
  | .device => 2
  | .domain => 16
  | .system => 64

/-- A push that reports to group `gid` has not been reported, or, for .system, a host-link write of the group has not been acknowledged
(R68). -/
def State.fenceWaits (s : State) (gid : Nat) (sc : Scope) : Bool :=
  s.ops.any (fun e => match e.2.job with
    | .push rs _ => rs.contains gid
    | .link => sc == .system && e.2.gid == gid
    | _ => false)

/-- The conditions of a fence hold (R68). -/
def State.fenceReady (s : State) (gid : Nat) (g : Group) (sc : Scope) : Bool :=
  g.cnt.ld.n == 0 && g.cnt.st.n == 0 && !(s.fenceWaits gid sc) && g.ctime.toNat + guardTicks sc ≤ s.regtime g

/-- The fences that hold re-issued lanes complete (R214): the lanes go on, or their release's accesses are sent, once the group is not
blocked otherwise. -/
def State.laneFences (s : State) (gid : Nat) : List (Word × Scope × Option (MemDesc × List Acc)) → State
  | [] => s
  | f :: fs =>
    match s.grp? gid with
    | none => s
    | some g =>
      if !(s.fenceReady gid g f.2.1) then s.laneFences gid fs
      else
        let drop (g : Group) : Group := { (g.resume f.1) with fences := eraseFirst (fun o => o == f) g.fences }
        match f.2.2 with
        | none => (s.updGrp gid drop).laneFences gid fs
        | some (m, as) =>
          if g.block = .none then ((s.updGrp gid drop).sendMem gid m as).laneFences gid fs else s.laneFences gid fs

/-- FENCE_COMPLETE (R68, R69): a blocked fence completes once its conditions hold; a release's access follows. -/
def State.fenceComplete (s : State) (gid : Nat) : State :=
  match s.grp? gid with
  | none => s
  | some g =>
    match g.block with
    | .fence sc lanes =>
      if s.fenceReady gid g sc then s.updGrp gid (fun g => { (g.advance lanes) with block := .none }) else s
    | .release sc m as =>
      if s.fenceReady gid g sc then (s.updGrp gid (fun g => { g with block := .none })).sendMem gid m as else s
    | _ => s.laneFences gid g.fences

end Sys2Proof.Machine
end

