-- ==== Sys2Proof/Machine/Grow.lean ====
section
/-! DEFINITION. Machine/Grow.lean: the service area of the gate unit, blocked requests for granules and for the area, and the
register-deadlock check (R130–R132, R331). -/

namespace Sys2Proof.Machine

/-! ### The service area (R331, R334) -/

/-- Ranges of a core's service area in use, in KiB: the caller block and the service scratch of each resident frame, and the request block
of a kernel gate's call once it has been posted (R357). -/
def State.svcUsed (s : State) (core : Nat) : List (Nat × Nat) :=
  (s.coreGroups core).flatMap (fun e => (e.2.frames.filter (fun f => !f.kern)).flatMap (fun f => [(f.cbase, 4), (f.xbase, f.xkib)]))
  ++ s.groups.flatMap (fun e => (e.2.frames.filter (fun f => f.kern && f.req != 0 && f.bcore == core)).map (fun f => (f.cbase, 4)))

/-- KiB of a core's service area that are free. -/
def State.svcFree (s : State) (core : Nat) : Nat := 64 - (s.svcUsed core).foldl (fun n u => n + u.2) 0

/-- The lowest place for `n` KiB in the 64 KiB of a service area. -/
def firstFit (used : List (Nat × Nat)) (n : Nat) : Option Nat :=
  (List.range (65 - n)).find? (fun b => used.all (fun u => u.1 + u.2 ≤ b || b + n ≤ u.1))

/-- Places for a caller block and `kib` KiB of service scratch. (DEDUCED, log 48) -/
def placeFrame (used : List (Nat × Nat)) (kib : Nat) : Option (Nat × Nat) :=
  match firstFit used 4 with
  | none => none
  | some c => (firstFit ((c, 4) :: used) kib).map (fun x => (c, x))

/-- Give frames their places in a service area, if they fit; a kernel gate's block stays where the system side was told. -/
def placeFrames (used : List (Nat × Nat)) : List Frame → Option (List Frame)
  | [] => some []
  | f :: fs =>
    if f.kern then (placeFrames used fs).map (fun r => f :: r)
    else match placeFrame used f.xkib with
      | none => none
      | some (c, x) => (placeFrames ((c, 4) :: (x, f.xkib) :: used) fs).map (fun r => { f with cbase := c, xbase := x } :: r)

/-- Move the frames of some groups of a core together, so that the free part of its service area is one piece. -/
def State.packGroups (s : State) (used : List (Nat × Nat)) : List Nat → Option State
  | [] => some s
  | gid :: gs =>
    match s.grp? gid with
    | none => s.packGroups used gs
    | some g =>
      match placeFrames used g.frames with
      | none => none
      | some fs =>
        (s.updGrp gid (fun g => { g with frames := fs })).packGroups
          (fs.flatMap (fun f => if f.kern then [] else [(f.cbase, 4), (f.xbase, f.xkib)]) ++ used) gs

/-- Places for a new frame: where it fits, or after the others have been moved together (R331 asks for free room, in one piece or not).
(DEDUCED, log 48) -/
def State.findPlace (s : State) (core kib : Nat) : Option ((Nat × Nat) × State) :=
  match placeFrame (s.svcUsed core) kib with
  | some p => some (p, s)
  | none =>
    let kern := s.groups.flatMap (fun e => (e.2.frames.filter (fun f => f.kern && f.req != 0 && f.bcore == core)).map (fun f => (f.cbase, 4)))
    (s.packGroups kern ((s.coreGroups core).map (·.1))).bind (fun s => (placeFrame (s.svcUsed core) kib).map (fun p => (p, s)))

/-! ### Blocked requests (R131, R331) -/

/-- The group has nothing outstanding, parked or trapped, so that a call may start or end (R331, R335). -/
def Group.quiet (g : Group) : Bool :=
  g.drained && g.log.isEmpty && g.reissue.isNone && g.fences.isEmpty && g.trapq.isEmpty && !g.hmode && !g.held && !g.dbgHeld

/-- A waiting gate call has all that it waits for but granules and room in the service area (R331). -/
def State.callReady (s : State) (gid : Nat) (g : Group) : Bool :=
  g.gcall.isSome && g.block == .none && g.quiet && s.fenceReady gid g .device

/-- What a blocked group asks for: its granules, its KiB of the service area, and since when (R131, R331). A gate call asks once all else
that it waits for has come. (DEDUCED, log 48) -/
def State.wants (s : State) (gid : Nat) (g : Group) : Option (Nat × Nat × Nat) :=
  match g.gcall with
  | some w => if w.kern || !(s.callReady gid g) then none else some (w.e.vgran, w.e.scratchKib + 4, w.since)
  | none =>
    match g.block with
    | .grow n _ _ _ since => some ((n - g.nregs) / 8, 0, since)
    | _ => none

/-- The blocked requests of a core: the group, its granules, its KiB and its age, in the order of the groups' keys. -/
def State.growWaits (s : State) (core : Nat) : List (Nat × Nat × Nat × Nat) :=
  (s.coreGroups core).filterMap (fun e => (s.wants e.1 e.2).map (fun w => (e.1, w)))

/-- The oldest of some blocked requests; of two of one age, the one of the group created first. (DESIGN CHOICE, log 84) -/
def oldest : List (Nat × Nat × Nat × Nat) → Option (Nat × Nat × Nat × Nat)
  | [] => none
  | e :: es => match oldest es with | some o => if o.2.2.2 < e.2.2.2 then some o else some e | none => some e

/-- The youngest of some blocked requests; of two of one age, the one of the group created last. (DESIGN CHOICE, log 84) -/
def youngest : List (Nat × Nat × Nat × Nat) → Option (Nat × Nat × Nat × Nat)
  | [] => none
  | e :: es => match youngest es with | some o => if e.2.2.2 ≤ o.2.2.2 then some o else some e | none => some e

/-- What a request asks for is free (R131, R331). -/
def State.grantable (s : State) (core : Nat) (e : Nat × Nat × Nat × Nat) : Bool :=
  e.2.1 ≤ s.freeGranules core && e.2.2.1 ≤ s.svcFree core

/-- A GROW is blocked on the core: the scheduler admits no new team there (R131). -/
def State.growBlocked (s : State) (core : Nat) : Bool := !(s.growWaits core).isEmpty

/-! ### Granting and refusing (R130–R132) -/

/-- Grant a GROW: the window grows by the granules `gs`, its new registers read zero, and P[D] becomes all ones (R130). -/
def Group.growTo (g : Group) (n pd : Nat) (lanes : Word) (gs : List Nat) : Group :=
  (({ g with nregs := max g.nregs n, gmap := g.gmap ++ gs, block := .none }).setPredAll pd true).advance lanes

/-- Grant a GROW of group `gid` (R130): granules that were L1's lose their lines (R128, R143). -/
def State.growTo (s : State) (gid n pd : Nat) (lanes : Word) : State :=
  match s.grp? gid with
  | none => s
  | some g =>
    let gs := s.freshGrans g.core ((n - g.nregs) / 8)
    (s.takeGrans g.core gs).updGrp gid (fun g => g.growTo n pd lanes gs)

/-- Every lane of the group that has not exited waits in TBAR. -/
def Group.inTbar (g : Group) : Bool := g.live != 0 && g.live &&& ~~~(g.lanesWhere (fun x => x.st == .tbar)) == 0

/-- Refuse a blocked request (R132): a `.try` clears its predicate and goes on, a `.must` or a GCALL traps REGISTER_DEADLOCK where it
stands. R132 raises it "for the group": MASK and RUN name the run that issued the GROW, or the lanes of the GCALL. (DESIGN CHOICE, log 84) -/
def State.refuseGrow (s : State) (gid : Nat) : State :=
  match s.grp? gid with
  | none => s
  | some g =>
    match g.gcall with
    | some w => (s.updGrp gid (fun g => { g with gcall := none })).queueTrap gid (s.lateTrap g 0x09 w.lanes)
    | none =>
    match g.block with
    | .grow _ false pd lanes _ =>
      s.updGrp gid (fun g => (({ g with block := .none }).setPredAll pd false).advance lanes)
    | .grow _ true _ lanes _ =>
      (s.updGrp gid (fun g => { g with block := .none })).queueTrap gid (s.lateTrap g 0x09 lanes)
    | _ => s

/-- The register-deadlock check of a core, repeated after each refusal (R132): every group is blocked in GROW, or in a GCALL that waits as
one (R331), or waits in TBAR, and the oldest request cannot be granted. -/
def State.deadlockCheck (s : State) (core : Nat) : Nat → State
  | 0 => s
  | fuel + 1 =>
    let gs := (s.coreGroups core).filter (fun e => e.2.live != 0)
    let ws := s.growWaits core
    if gs.all (fun e => (s.wants e.1 e.2).isSome || e.2.inTbar) then
      match oldest ws, youngest ws with
      | some o, some y => if s.grantable core o then s else (s.refuseGrow y.1).deadlockCheck core fuel
      | _, _ => s
    else s

end Sys2Proof.Machine
end

