-- ==== Sys2Proof/Decode.lean ====
section
/-! DEFINITION. Decode.lean: the 96-bit word (R100, R101), decoding total on any word and refusing by name,
and the encoder from the same tables. A word decodes to an instruction only when re-encoding that
instruction gives the word back, so every field or bit the form and the opcode do not use is zero (R102). -/

namespace Sys2Proof

/-- The fields of the word (Table 6-1). -/
structure Fields where
  opc : Nat
  gp : Nat
  gn : Bool
  d : Nat
  a : Nat
  b : Nat
  c : Nat
  mod : Nat
  ext : Nat
  sch : Nat
  deriving DecidableEq, Repr

/-- Table 6-1: the fields of a 96-bit word. -/
def Fields.ofWord (w : Nat) : Fields :=
  { opc := bits w 0 9, gp := bits w 9 4, gn := bitAt w 13, d := bits w 14 10, a := bits w 24 10,
    b := bits w 34 10, c := bits w 44 10, mod := bits w 54 16, ext := bits w 70 18, sch := bits w 88 8 }

/-- Table 6-1: the word of given fields. -/
def Fields.toWord (f : Fields) : Nat :=
  f.opc + f.gp * 2 ^ 9 + b2n f.gn * 2 ^ 13 + f.d * 2 ^ 14 + f.a * 2 ^ 24 + f.b * 2 ^ 34 + f.c * 2 ^ 44
    + f.mod * 2 ^ 54 + f.ext * 2 ^ 70 + f.sch * 2 ^ 88

/-- Table 6-3: the scheduling byte, and R103: the guard. -/
def Fields.hdr (f : Fields) : Hdr :=
  { guard := if f.gp = 15 && !f.gn then .all else .pred f.gp f.gn,
    keep := bits f.sch 6 2, uni := bitAt f.sch 5, yld := bitAt f.sch 4, stall := bits f.sch 0 4 }

/-- IMM32 of forms I and J (Table 6-2). -/
def Fields.imm (f : Fields) : BitVec 32 :=
  BitVec.ofNat 32 (f.b + f.c * 2 ^ 10 + bits f.ext 0 12 * 2 ^ 20)

/-- OFF24 of form M (Table 6-2). -/
def Fields.off (f : Fields) : BitVec 24 :=
  BitVec.ofNat 24 (f.c + bits f.ext 0 14 * 2 ^ 10)

/-- Table 6-4, from field value to operand; 897–959 give constants outside −32..31, which are not well formed. -/
def Opnd.ofCode (n : Nat) : Opnd :=
  if n < 512 then .v n else if n < 896 then .s (n - 512) else if n = 896 then .z else .c ((n : Int) - 992)

/-- Table 6-4, from operand to field value. -/
def Opnd.code : Opnd → Nat
  | .v k => k
  | .s k => 512 + k
  | .z => 896
  | .c n => (n + 992).toNat

/-- Table 8-13. -/
def Ty.code : Ty → Nat
  | .b32 => 0 | .u32 => 1 | .s32 => 2 | .f32 => 3 | .b64 => 4 | .u64 => 5 | .s64 => 6 | .f64 => 7
  | .b16 => 8 | .u16 => 9 | .s16 => 10 | .f16 => 11 | .bf16 => 12 | .b8 => 13 | .u8 => 14 | .s8 => 15
  | .u4 => 16 | .s4 => 17 | .e4m3 => 18 | .e5m2 => 19 | .e3m2 => 20 | .e2m3 => 21 | .e2m1 => 22
  | .e8m0 => 23 | .b128 => 24

/-- Table 8-13. -/
def Ty.ofCode (n : Nat) : Ty :=
  match n with
  | 0 => .b32 | 1 => .u32 | 2 => .s32 | 3 => .f32 | 4 => .b64 | 5 => .u64 | 6 => .s64 | 7 => .f64
  | 8 => .b16 | 9 => .u16 | 10 => .s16 | 11 => .f16 | 12 => .bf16 | 13 => .b8 | 14 => .u8 | 15 => .s8
  | 16 => .u4 | 17 => .s4 | 18 => .e4m3 | 19 => .e5m2 | 20 => .e3m2 | 21 => .e2m3 | 22 => .e2m1
  | 23 => .e8m0 | _ => .b128

/-- Type codes on 0x040–0x053 and 0x080–0x084, where code 0 is `.f32` and code 3 is illegal (R124). -/
def Ty.codeF : Ty → Nat
  | .f32 => 0
  | .b32 => 3
  | t => t.code

/-- The inverse of `Ty.codeF`; code 3 gives `.b32`, which none of those opcodes accepts. -/
def Ty.ofCodeF (n : Nat) : Ty :=
  match n with
  | 0 => .f32
  | 3 => .b32
  | n => Ty.ofCode n

/-- Rounding codes (R125). -/
def Rnd.code : Rnd → Nat
  | .rn => 0 | .rz => 1 | .rm => 2 | .rp => 3

/-- Rounding codes (R125). -/
def Rnd.ofCode (n : Nat) : Rnd :=
  match n with | 0 => .rn | 1 => .rz | 2 => .rm | _ => .rp

/-- R126. -/
def Cmp.ofCode (n : Nat) : Cmp :=
  match n with
  | 0 => .eq | 1 => .ne | 2 => .lt | 3 => .le | 4 => .gt | 5 => .ge | 6 => .num | _ => .nan

/-- R126. -/
def RedOp.ofCode (n : Nat) : RedOp :=
  match n with | 0 => .add | 1 => .min | 2 => .max | 3 => .and | 4 => .or | _ => .xor

/-- R126. -/
def VoteOp.code : VoteOp → Nat
  | .all => 0 | .any => 1 | .eq => 2 | .ballot => 3

/-- R126. -/
def VoteOp.ofCode (n : Nat) : VoteOp :=
  match n with | 0 => .all | 1 => .any | 2 => .eq | _ => .ballot

/-- R126. -/
def LxMode.code : LxMode → Nat
  | .abs => 0 | .rot => 1 | .xor => 2

/-- R126. -/
def LxMode.ofCode (n : Nat) : LxMode :=
  match n with | 0 => .abs | 1 => .rot | _ => .xor

/-- R126. -/
def QsK.code : QsK → Nat
  | .x1 => 0 | .x2 => 1 | .x3 => 2

/-- R126. -/
def QsK.ofCode (n : Nat) : QsK :=
  match n with | 0 => .x1 | 1 => .x2 | _ => .x3

/-- R126. -/
def MatchOp.code : MatchOp → Nat
  | .any => 0 | .all => 1

/-- R126. -/
def MatchOp.ofCode (n : Nat) : MatchOp :=
  match n with | 0 => .any | _ => .all

/-- R125, AOP. -/
def AOp.code : AOp → Nat
  | .add => 0 | .min => 1 | .max => 2 | .and => 3 | .or => 4 | .xor => 5 | .exch => 6

/-- R125, AOP. -/
def AOp.ofCode (n : Nat) : AOp :=
  match n with | 0 => .add | 1 => .min | 2 => .max | 3 => .and | 4 => .or | 5 => .xor | _ => .exch

/-- R125, SCOPE. -/
def Scope.code : Scope → Nat
  | .device => 0 | .team => 1 | .cluster => 2 | .domain => 3 | .system => 4

/-- R125, SCOPE. -/
def Scope.ofCode (n : Nat) : Scope :=
  match n with | 0 => .device | 1 => .team | 2 => .cluster | 3 => .domain | _ => .system

/-- R125, ORD. -/
def Ord.code : Ord → Nat
  | .none => 0 | .acq => 1 | .rel => 2 | .ar => 3

/-- R125, ORD. -/
def Ord.ofCode (n : Nat) : Ord :=
  match n with | 0 => .none | 1 => .acq | 2 => .rel | _ => .ar

/-- R125, CACHE. -/
def CacheH.code : CacheH → Nat
  | .ca => 0 | .cg => 1 | .nt => 2

/-- R125, CACHE. -/
def CacheH.ofCode (n : Nat) : CacheH :=
  match n with | 0 => .ca | 1 => .cg | _ => .nt

/-- R125, CORE. -/
def CoreSel.code : CoreSel → Nat
  | .all => 0 | .core0 => 1 | .core1 => 2 | .core2 => 3 | .core3 => 4

/-- R125, CORE. -/
def CoreSel.ofCode (n : Nat) : CoreSel :=
  match n with | 0 => .all | 1 => .core0 | 2 => .core1 | 3 => .core2 | _ => .core3

/-- R283, EXT[1:0] of CCVT. -/
def CSrc.code : CSrc → Nat
  | .f32 => 0 | .s32 => 1 | .f64 => 2

/-- R283, EXT[1:0] of CCVT. -/
def CSrc.ofCode (n : Nat) : CSrc :=
  match n with | 0 => .f32 | 1 => .s32 | _ => .f64

/-- Table 9-3. -/
def SReg.code : SReg → Nat
  | .laneid => 0 | .quadid => 1 | .groupid => 2 | .teamid => 3 | .gangx => 4 | .gangy => 5 | .gangz => 6
  | .ngangx => 7 | .ngangy => 8 | .ngangz => 9 | .active => 10 | .clock => 11 | .regtime => 12
  | .ctime => 13 | .fpflags => 14 | .cstack => 15 | .args => 16 | .regs => 17 | .coreid => 18
  | .clusterid => 19 | .ctxid => 20 | .trapinfo => 21

/-- Table 9-3. -/
def SReg.ofCode (n : Nat) : SReg :=
  match n with
  | 0 => .laneid | 1 => .quadid | 2 => .groupid | 3 => .teamid | 4 => .gangx | 5 => .gangy | 6 => .gangz
  | 7 => .ngangx | 8 => .ngangy | 9 => .ngangz | 10 => .active | 11 => .clock | 12 => .regtime
  | 13 => .ctime | 14 => .fpflags | 15 => .cstack | 16 => .args | 17 => .regs | 18 => .coreid
  | 19 => .clusterid | 20 => .ctxid | _ => .trapinfo

/-- VOTE's D field. -/
def VoteDst.code : VoteDst → Nat
  | .pred p => p
  | .reg r => r.code

/-- VOTE's D field, read by the mode. -/
def VoteDst.ofCode (m d : Nat) : VoteDst :=
  match VoteOp.ofCode m with
  | .ballot => .reg (Opnd.ofCode d)
  | _ => .pred d

/-- SQWAIT's C field (R276). -/
def capCode : Option Nat → Nat
  | none => 0
  | some k => 64 + k

/-- SQWAIT's C field (R276). -/
def capOf (n : Nat) : Option Nat := if n < 64 then none else some (n - 64)

/-- Fields shared by every word: guard, scheduling byte, opcode. -/
def mkF (h : Hdr) (opc d a b c mod ext : Nat) : Fields :=
  { opc := opc,
    gp := match h.guard with | .all => 15 | .pred p _ => p,
    gn := match h.guard with | .all => false | .pred _ n => n,
    d := d, a := a, b := b, c := c, mod := mod, ext := ext,
    sch := h.keep * 64 + b2n h.uni * 32 + b2n h.yld * 16 + h.stall }

/-- An event has no word; 511 is a reserved opcode (R110). -/
def eventF : Fields :=
  { opc := 511, gp := 0, gn := false, d := 0, a := 0, b := 0, c := 0, mod := 0, ext := 0, sch := 0 }

/-- The fields of an instruction, from the encoding tables of chapters 06, 08–12, 14, 15, 17, 19, 21, 24. -/
def Instr.fields : Instr → Fields
  | .nop h => mkF h 0x000 0 0 0 0 (0) (0)
  | .iadd h ty sat z d a b => mkF h 0x001 d.code a.code b.code 0 (ty.code * 128 + b2n sat * 8 + b2n z * 4) (0)
  | .isub h ty sat z d a b => mkF h 0x002 d.code a.code b.code 0 (ty.code * 128 + b2n sat * 8 + b2n z * 4) (0)
  | .iadd3 h ty sat z d a b c => mkF h 0x003 d.code a.code b.code c.code (ty.code * 128 + b2n sat * 8 + b2n z * 4) (0)
  | .iaddc h ty z d a b cin cout => mkF h 0x004 d.code a.code b.code 0 (ty.code * 128 + b2n z * 4) (cin * 1 + cout * 16)
  | .imul h ty z d a b => mkF h 0x005 d.code a.code b.code 0 (ty.code * 128 + b2n z * 4) (0)
  | .imulh h ty z d a b => mkF h 0x006 d.code a.code b.code 0 (ty.code * 128 + b2n z * 4) (0)
  | .imad h ty sat z d a b c => mkF h 0x007 d.code a.code b.code c.code (ty.code * 128 + b2n sat * 8 + b2n z * 4) (0)
  | .imadw h ty z d a b c => mkF h 0x008 d.code a.code b.code c.code (ty.code * 128 + b2n z * 4) (0)
  | .idiv h ty z d a b => mkF h 0x009 d.code a.code b.code 0 (ty.code * 128 + b2n z * 4) (0)
  | .irem h ty z d a b => mkF h 0x00A d.code a.code b.code 0 (ty.code * 128 + b2n z * 4) (0)
  | .imin h ty z d a b => mkF h 0x00B d.code a.code b.code 0 (ty.code * 128 + b2n z * 4) (0)
  | .imax h ty z d a b => mkF h 0x00C d.code a.code b.code 0 (ty.code * 128 + b2n z * 4) (0)
  | .iabs h ty sat z d a => mkF h 0x00D d.code a.code 0 0 (ty.code * 128 + b2n sat * 8 + b2n z * 4) (0)
  | .ineg h ty sat z d a => mkF h 0x00E d.code a.code 0 0 (ty.code * 128 + b2n sat * 8 + b2n z * 4) (0)
  | .isad h ty z d a b c => mkF h 0x00F d.code a.code b.code c.code (ty.code * 128 + b2n z * 4) (0)
  | .andB h ty z d a b => mkF h 0x010 d.code a.code b.code 0 (ty.code * 128 + b2n z * 4) (0)
  | .orB h ty z d a b => mkF h 0x011 d.code a.code b.code 0 (ty.code * 128 + b2n z * 4) (0)
  | .xorB h ty z d a b => mkF h 0x012 d.code a.code b.code 0 (ty.code * 128 + b2n z * 4) (0)
  | .notB h ty z d a => mkF h 0x013 d.code a.code 0 0 (ty.code * 128 + b2n z * 4) (0)
  | .logt h ty z d a b c tt => mkF h 0x014 d.code a.code b.code c.code (ty.code * 128 + b2n z * 4) (tt * 1)
  | .shl h ty z d a b => mkF h 0x015 d.code a.code b.code 0 (ty.code * 128 + b2n z * 4) (0)
  | .shr h ty z d a b => mkF h 0x016 d.code a.code b.code 0 (ty.code * 128 + b2n z * 4) (0)
  | .rot h ty z d a b => mkF h 0x017 d.code a.code b.code 0 (ty.code * 128 + b2n z * 4) (0)
  | .catsh h z d a b c => mkF h 0x018 d.code a.code b.code c.code (b2n z * 4) (0)
  | .bfx h ty z d a b => mkF h 0x019 d.code a.code b.code 0 (ty.code * 128 + b2n z * 4) (0)
  | .bfi h z d a b c => mkF h 0x01A d.code a.code b.code c.code (b2n z * 4) (0)
  | .popc h ty z d a => mkF h 0x01B d.code a.code 0 0 (ty.code * 128 + b2n z * 4) (0)
  | .clz h ty z d a => mkF h 0x01C d.code a.code 0 0 (ty.code * 128 + b2n z * 4) (0)
  | .brev h ty z d a => mkF h 0x01D d.code a.code 0 0 (ty.code * 128 + b2n z * 4) (0)
  | .ffs h ty z d a => mkF h 0x01E d.code a.code 0 0 (ty.code * 128 + b2n z * 4) (0)
  | .icmp h cc ty pd a b => mkF h 0x01F pd a.code b.code 0 (cc.code * 4096 + ty.code * 128) (0)
  | .isel h ty z d a b pc => mkF h 0x020 d.code a.code b.code pc (ty.code * 128 + b2n z * 4) (0)
  | .lea h ty z d a b sh => mkF h 0x021 d.code a.code b.code 0 (ty.code * 128 + b2n z * 4) (sh * 1)
  | .movi h d imm => mkF h 0x022 d.code 0 (bits imm.toNat 0 10) (bits imm.toNat 10 10) (0) (bits imm.toNat 20 12)
  | .mov h ty z d a => mkF h 0x023 d.code a.code 0 0 (ty.code * 128 + b2n z * 4) (0)
  | .fadd h ty rnd ftz z d a b => mkF h 0x040 d.code a.code b.code 0 (ty.codeF * 128 + rnd.code * 32 + b2n ftz * 16 + b2n z * 4) (0)
  | .fsub h ty rnd ftz z d a b => mkF h 0x041 d.code a.code b.code 0 (ty.codeF * 128 + rnd.code * 32 + b2n ftz * 16 + b2n z * 4) (0)
  | .fmul h ty rnd ftz z d a b => mkF h 0x042 d.code a.code b.code 0 (ty.codeF * 128 + rnd.code * 32 + b2n ftz * 16 + b2n z * 4) (0)
  | .ffma h ty rnd ftz z d a b c => mkF h 0x043 d.code a.code b.code c.code (ty.codeF * 128 + rnd.code * 32 + b2n ftz * 16 + b2n z * 4) (0)
  | .fmin h ty ftz z d a b => mkF h 0x044 d.code a.code b.code 0 (ty.codeF * 128 + b2n ftz * 16 + b2n z * 4) (0)
  | .fmax h ty ftz z d a b => mkF h 0x045 d.code a.code b.code 0 (ty.codeF * 128 + b2n ftz * 16 + b2n z * 4) (0)
  | .fcmp h cc ty ftz pd a b => mkF h 0x046 pd a.code b.code 0 (cc.code * 4096 + ty.codeF * 128 + b2n ftz * 16) (0)
  | .fdiv h ty rnd ftz z d a b => mkF h 0x047 d.code a.code b.code 0 (ty.codeF * 128 + rnd.code * 32 + b2n ftz * 16 + b2n z * 4) (0)
  | .fsqrt h ty rnd ftz z d a => mkF h 0x048 d.code a.code 0 0 (ty.codeF * 128 + rnd.code * 32 + b2n ftz * 16 + b2n z * 4) (0)
  | .frcp h ty rnd ftz z alt d a => mkF h 0x049 d.code a.code 0 0 (ty.codeF * 128 + rnd.code * 32 + b2n ftz * 16 + b2n z * 4 + b2n alt * 2) (0)
  | .frsq h ty rnd ftz z alt d a => mkF h 0x04A d.code a.code 0 0 (ty.codeF * 128 + rnd.code * 32 + b2n ftz * 16 + b2n z * 4 + b2n alt * 2) (0)
  | .fexp2 h ftz z d a => mkF h 0x04B d.code a.code 0 0 (b2n ftz * 16 + b2n z * 4) (0)
  | .flog2 h ftz z d a => mkF h 0x04C d.code a.code 0 0 (b2n ftz * 16 + b2n z * 4) (0)
  | .fsin h ftz z d a => mkF h 0x04D d.code a.code 0 0 (b2n ftz * 16 + b2n z * 4) (0)
  | .fcos h ftz z d a => mkF h 0x04E d.code a.code 0 0 (b2n ftz * 16 + b2n z * 4) (0)
  | .ftanh h ftz z d a => mkF h 0x04F d.code a.code 0 0 (b2n ftz * 16 + b2n z * 4) (0)
  | .frnd h ty rnd ftz z d a => mkF h 0x050 d.code a.code 0 0 (ty.codeF * 128 + rnd.code * 32 + b2n ftz * 16 + b2n z * 4) (0)
  | .fclass h ty z d a => mkF h 0x051 d.code a.code 0 0 (ty.codeF * 128 + b2n z * 4) (0)
  | .fscale h ty rnd ftz z d a b => mkF h 0x052 d.code a.code b.code 0 (ty.codeF * 128 + rnd.code * 32 + b2n ftz * 16 + b2n z * 4) (0)
  | .fdot2 h ty rnd z d a b c => mkF h 0x053 d.code a.code b.code c.code (ty.codeF * 128 + rnd.code * 32 + b2n z * 4) (0)
  | .cvt h dty sty rnd sat z nan d di a si => mkF h 0x080 d.code a.code 0 0 (dty.codeF * 2048 + sty.codeF * 64 + rnd.code * 16 + b2n sat * 8 + b2n z * 4 + b2n nan * 2) (di * 1 + si * 8)
  | .pack h dty sty rnd sat z nan d a b j => mkF h 0x081 d.code a.code b.code 0 (dty.codeF * 2048 + sty.codeF * 64 + rnd.code * 16 + b2n sat * 8 + b2n z * 4 + b2n nan * 2) (j * 1)
  | .unpk h dty sty z d a j => mkF h 0x082 d.code a.code 0 0 (dty.codeF * 2048 + sty.codeF * 64 + b2n z * 4) (j * 1)
  | .qpack h dty sty rnd sat z nan d a hh => mkF h 0x083 d.code a.code 0 0 (dty.codeF * 2048 + sty.codeF * 64 + rnd.code * 16 + b2n sat * 8 + b2n z * 4 + b2n nan * 2) (hh * 1)
  | .qunpk h dty sty z d a hh => mkF h 0x084 d.code a.code 0 0 (dty.codeF * 2048 + sty.codeF * 64 + b2n z * 4) (hh * 1)
  | .dot4 h ty sat z d a b c => mkF h 0x085 d.code a.code b.code c.code (ty.code * 128 + b2n sat * 8 + b2n z * 4) (0)
  | .dot8 h ty sat z d a b c => mkF h 0x086 d.code a.code b.code c.code (ty.code * 128 + b2n sat * 8 + b2n z * 4) (0)
  | .dots h ty z d a b c sa sb => mkF h 0x087 d.code a.code b.code c.code (ty.code * 128 + b2n z * 4) (sa * 1 + sb * 4)
  | .prmb h z d a b c => mkF h 0x088 d.code a.code b.code c.code (b2n z * 4) (0)
  | .lxch h m ty z d a b => mkF h 0x0A0 d.code a.code b.code 0 (m.code * 4096 + ty.code * 128 + b2n z * 4) (0)
  | .qswp h k ty z d a => mkF h 0x0A1 d.code a.code 0 0 (k.code * 4096 + ty.code * 128 + b2n z * 4) (0)
  | .qbcst h ty z d a k => mkF h 0x0A2 d.code a.code 0 0 (ty.code * 128 + b2n z * 4) (k * 1)
  | .qhelp h on => mkF h 0x0A3 0 0 0 0 (0) (b2n on * 1)
  | .vote h m z d pa => mkF h 0x0A4 d.code pa 0 0 (m.code * 4096 + b2n z * 4) (0)
  | .gred h op ty z d a => mkF h 0x0A5 d.code a.code 0 0 (op.code * 4096 + ty.code * 128 + b2n z * 4) (0)
  | .gscan h op ty z excl d a => mkF h 0x0A6 d.code a.code 0 0 (op.code * 4096 + ty.code * 128 + b2n z * 4 + b2n excl * 2) (0)
  | .matchLanes h m ty z d a => mkF h 0x0A7 d.code a.code 0 0 (m.code * 4096 + ty.code * 128 + b2n z * 4) (0)
  | .rdlane h ty z d a b => mkF h 0x0A8 d.code a.code b.code 0 (ty.code * 128 + b2n z * 4) (0)
  | .wrlane h ty d a b => mkF h 0x0A9 d.code a.code b.code 0 (ty.code * 128) (0)
  | .bra h imm => mkF h 0x0C0 0 0 (bits imm.toNat 0 10) (bits imm.toNat 10 10) (0) (bits imm.toNat 20 12)
  | .brx h a => mkF h 0x0C1 0 a.code 0 0 (0) (0)
  | .call h imm => mkF h 0x0C2 0 0 (bits imm.toNat 0 10) (bits imm.toNat 10 10) (0) (bits imm.toNat 20 12)
  | .callx h a => mkF h 0x0C3 0 a.code 0 0 (0) (0)
  | .ret h => mkF h 0x0C4 0 0 0 0 (0) (0)
  | .enrol h bn => mkF h 0x0C5 bn 0 0 0 (0) (0)
  | .rejoin h bn => mkF h 0x0C6 bn 0 0 0 (0) (0)
  | .leave h bn => mkF h 0x0C7 bn 0 0 0 (0) (0)
  | .exit h => mkF h 0x0C8 0 0 0 0 (0) (0)
  | .yield h => mkF h 0x0C9 0 0 0 0 (0) (0)
  | .tbar h => mkF h 0x0CA 0 0 0 0 (0) (0)
  | .tbara h => mkF h 0x0CB 0 0 0 0 (0) (0)
  | .lnch h pd a q => mkF h 0x0CC pd a.code q 0 (0) (0)
  | .trap h imm => mkF h 0x0D0 0 0 (bits imm.toNat 0 10) (bits imm.toNat 10 10) (0) (bits imm.toNat 20 12)
  | .brk h imm => mkF h 0x0D1 0 0 (bits imm.toNat 0 10) (bits imm.toNat 10 10) (0) (bits imm.toNat 20 12)
  | .tret h skip => mkF h 0x0D2 0 0 0 0 (0) (b2n skip * 1)
  | .tqrd h d => mkF h 0x0D3 d.code 0 0 0 (0) (0)
  | .grow h must pd imm => mkF h 0x0E0 pd 0 (bits imm.toNat 0 10) (bits imm.toNat 10 10) (b2n must * 1) (bits imm.toNat 20 12)
  | .shrink h imm => mkF h 0x0E1 0 0 (bits imm.toNat 0 10) (bits imm.toNat 10 10) (0) (bits imm.toNat 20 12)
  | .rdsr h d sr => mkF h 0x0E2 d.code 0 sr.code 0 (0) (0)
  | .wrsr h a sr => mkF h 0x0E3 0 a.code sr.code 0 (0) (0)
  | .pset h pd a b => mkF h 0x0E4 pd a.code b.code 0 (0) (0)
  | .pmov h toP p r => mkF h 0x0E5 (if toP then p else r.code) (if toP then r.code else p) 0 0 (0) (b2n toP * 1)
  | .xget h d a b => mkF h 0x0E6 d.code a.code b.code 0 (0) (0)
  | .xput h a b c => mkF h 0x0E7 0 a.code b.code c.code (0) (0)
  | .ld h w64 ty sc ord chint d a off => mkF h 0x100 d.code a.code 0 (bits off.toNat 0 10) (b2n w64 * 32768 + ty.code * 128 + sc.code * 16 + ord.code * 4 + chint.code) (bits off.toNat 10 14)
  | .st h w64 ty sc ord chint a b off => mkF h 0x101 0 a.code b.code (bits off.toNat 0 10) (b2n w64 * 32768 + ty.code * 128 + sc.code * 16 + ord.code * 4 + chint.code) (bits off.toNat 10 14)
  | .lds h ty d a off => mkF h 0x102 d.code a.code 0 (bits off.toNat 0 10) (ty.code * 128) (bits off.toNat 10 14)
  | .sts h ty a b off => mkF h 0x103 0 a.code b.code (bits off.toNat 0 10) (ty.code * 128) (bits off.toNat 10 14)
  | .atom h w64 op ty sc ord d a b off => mkF h 0x104 d.code a.code b.code (bits off.toNat 0 10) (b2n w64 * 32768 + op.code * 4096 + ty.code * 128 + sc.code * 16 + ord.code * 4) (bits off.toNat 10 14)
  | .atoms h op ty d a b off => mkF h 0x105 d.code a.code b.code (bits off.toNat 0 10) (op.code * 4096 + ty.code * 128) (bits off.toNat 10 14)
  | .cas h w64 ty sc ord d a b off => mkF h 0x106 d.code a.code b.code (bits off.toNat 0 10) (b2n w64 * 32768 + ty.code * 128 + sc.code * 16 + ord.code * 4) (bits off.toNat 10 14)
  | .red h w64 op ty sc ord a b off => mkF h 0x107 0 a.code b.code (bits off.toNat 0 10) (b2n w64 * 32768 + op.code * 4096 + ty.code * 128 + sc.code * 16 + ord.code * 4) (bits off.toNat 10 14)
  | .fence h sc => mkF h 0x108 0 0 0 0 (sc.code * 16) (0)
  | .wait h nld nst ncp nmx nmt => mkF h 0x109 nld nst ncp nmx (0) (nmt * 1)
  | .monarm h w64 a off => mkF h 0x10A 0 a.code 0 (bits off.toNat 0 10) (b2n w64 * 32768) (bits off.toNat 10 14)
  | .mwait h pd a => mkF h 0x10B pd a.code 0 0 (0) (0)
  | .pref h w64 chint a off => mkF h 0x10C 0 a.code 0 (bits off.toNat 0 10) (b2n w64 * 32768 + chint.code) (bits off.toNat 10 14)
  | .cwb h w64 sc a off => mkF h 0x10D 0 a.code 0 (bits off.toNat 0 10) (b2n w64 * 32768 + sc.code * 16) (bits off.toNat 10 14)
  | .cinv h w64 sc a off => mkF h 0x10E 0 a.code 0 (bits off.toNat 0 10) (b2n w64 * 32768 + sc.code * 16) (bits off.toNat 10 14)
  | .lblrd h w64 d a off => mkF h 0x110 d.code a.code 0 (bits off.toNat 0 10) (b2n w64 * 32768) (bits off.toNat 10 14)
  | .lblset h w64 lock a b off => mkF h 0x111 0 a.code b.code (bits off.toNat 0 10) (b2n w64 * 32768 + b2n lock * 4096) (bits off.toNat 10 14)
  | .lblclr h w64 a off => mkF h 0x112 0 a.code 0 (bits off.toNat 0 10) (b2n w64 * 32768) (bits off.toNat 10 14)
  | .qenq h pd a b => mkF h 0x140 pd a.code b.code 0 (0) (0)
  | .qdeq h d a pc => mkF h 0x141 d.code a.code 0 pc (0) (0)
  | .qstat h d a => mkF h 0x142 d.code a.code 0 0 (0) (0)
  | .amsg h pd a b hn => mkF h 0x143 pd a.code b.code hn (0) (0)
  | .amdone h => mkF h 0x144 0 0 0 0 (0) (0)
  | .cpy h a off => mkF h 0x160 0 a.code 0 (bits off.toNat 0 10) (0) (bits off.toNat 10 14)
  | .cpyr h a off => mkF h 0x161 0 a.code 0 (bits off.toNat 0 10) (0) (bits off.toNat 10 14)
  | .boinit h a b off => mkF h 0x162 0 a.code b.code (bits off.toNat 0 10) (0) (bits off.toNat 10 14)
  | .bowait h pd a b off => mkF h 0x163 pd a.code b.code (bits off.toNat 0 10) (0) (bits off.toNat 10 14)
  | .mjoin h d a b => mkF h 0x164 d.code a.code b.code 0 (0) (0)
  | .mcont h d a b c => mkF h 0x165 d.code a.code b.code c.code (0) (0)
  | .mrslt h d a b c => mkF h 0x166 d.code a.code b.code c.code (0) (0)
  | .mleave h d a b => mkF h 0x167 d.code a.code b.code 0 (0) (0)
  | .mstat h d a b => mkF h 0x168 d.code a.code b.code 0 (0) (0)
  | .topen h t => mkF h 0x180 t 0 0 0 (0) (0)
  | .twr h t a b => mkF h 0x181 t a.code b.code 0 (0) (0)
  | .tseal h t => mkF h 0x182 t 0 0 0 (0) (0)
  | .tdrain h t => mkF h 0x183 t 0 0 0 (0) (0)
  | .trd h d t b => mkF h 0x184 d.code t b.code 0 (0) (0)
  | .tfree h t => mkF h 0x185 t 0 0 0 (0) (0)
  | .tstat h d t team => mkF h 0x186 d.code t team 0 (0) (0)
  | .mmab16 h core tc ta tb => mkF h 0x190 tc ta tb 0 (core.code) (0)
  | .mmah16 h core tc ta tb => mkF h 0x191 tc ta tb 0 (core.code) (0)
  | .mmaf8a h core tc ta tb => mkF h 0x192 tc ta tb 0 (core.code) (0)
  | .mmaf8b h core tc ta tb => mkF h 0x193 tc ta tb 0 (core.code) (0)
  | .mmaf6a h core tc ta tb => mkF h 0x194 tc ta tb 0 (core.code) (0)
  | .mmaf6b h core tc ta tb => mkF h 0x195 tc ta tb 0 (core.code) (0)
  | .mmaf4 h core tc ta tb => mkF h 0x196 tc ta tb 0 (core.code) (0)
  | .mmai8 h core tc ta tb => mkF h 0x197 tc ta tb 0 (core.code) (0)
  | .mmaf32 h core tc ta tb => mkF h 0x198 tc ta tb 0 (core.code) (0)
  | .mmad64 h core tc ta tb => mkF h 0x199 tc ta tb 0 (core.code) (0)
  | .lutbld h core td ta => mkF h 0x19A td ta 0 0 (core.code) (0)
  | .lutmm h wb core tc ta tb => mkF h 0x19B tc ta tb 0 (wb * 8 + core.code) (0)
  | .czero h core tc => mkF h 0x19C tc 0 0 0 (core.code) (0)
  | .ccvt h sat dty core td tc cst => mkF h 0x19D td tc 0 0 (b2n sat * 1024 + dty.code * 32 + core.code) (cst.code)
  | .tscl h off t sel => mkF h 0x19E t 0 sel 0 (0) (b2n off * 1)
  | .tperm h off t sel => mkF h 0x19F t 0 sel 0 (0) (b2n off * 1)
  | .twait h t s sel => mkF h 0x1A0 t s sel 0 (0) (0)
  | .sqsig h n a => mkF h 0x1A1 n a.code 0 0 (0) (0)
  | .sqwait h n a cap => mkF h 0x1A2 n a.code 0 (capCode cap) (0) (0)
  | .gcall h k g => mkF h 0x1B0 k 0 0 0 (0) (g * 1)
  | .gret h => mkF h 0x1B1 0 0 0 0 (0) (0)
  | .sysc h k g => mkF h 0x1B2 k 0 0 0 (0) (g * 1)
  | .trmark h a imm => mkF h 0x1C0 0 a.code (bits imm.toNat 0 10) (bits imm.toNat 10 10) (0) (bits imm.toNat 20 12)
  | .growGrant _ => eventF
  | .growTimeout _ => eventF
  | .loadDataArrival _ => eventF
  | .storeCommitReport _ => eventF
  | .fenceComplete _ => eventF
  | .waitReturn _ => eventF
  | .walkEnd _ => eventF
  | .operandLogReissue _ _ => eventF
  | .labelVerdict _ => eventF
  | .trapDelivery _ => eventF
  | .mwaitTimeout _ => eventF
  | .bowaitReturn _ => eventF
  | .bowaitTimeout _ => eventF
  | .sqsigAdd _ => eventF
  | .sqwaitReturn _ => eventF
  | .sqwaitTimeout _ => eventF
  | .tileStateReached _ => eventF
  | .tileWait _ => eventF
  | .seqOpExecute _ => eventF
  | .seqOpComplete _ _ => eventF
  | .launchRecordDequeue _ => eventF
  | .dependenceMet _ _ => eventF
  | .gangAdmit _ _ => eventF
  | .lnchAppend _ => eventF
  | .groupEnd _ => eventF
  | .launchComplete _ => eventF
  | .groupSwap _ _ => eventF
  | .pendingDisplace _ => eventF
  | .starvationGuard _ => eventF
  | .preemptSave _ => eventF
  | .contextRestore _ _ => eventF
  | .deltaPush _ _ => eventF
  | .ownershipTransfer _ => eventF
  | .domainJoin _ => eventF
  | .homeRequest _ _ => eventF
  | .reopen _ => eventF
  | .invalidationAck _ _ => eventF
  | .recallReturn _ => eventF
  | .leaseExtension _ => eventF
  | .extensionAck _ _ => eventF
  | .timedUpdate _ _ => eventF
  | .replayWake _ _ => eventF
  | .overflowFetch _ => eventF
  | .amDispatch _ _ => eventF
  | .copyStart _ _ => eventF
  | .chunkArbitration _ => eventF
  | .chunkReport _ _ _ => eventF
  | .contributionArrival _ _ => eventF
  | .memberDeath _ _ => eventF
  | .kWrite _ _ => eventF
  | .gateEnter _ => eventF
  | .gateReturn _ => eventF
  | .gateDeadline _ => eventF
  | .ctxLoad _ => eventF
  | .tlbInval _ => eventF
  | .harvest _ => eventF
  | .ctxPreempt _ => eventF
  | .ctxResume _ => eventF
  | .ctxKill _ => eventF
  | .groupRelease _ => eventF
  | .faultDone _ => eventF
  | .syscDone _ => eventF
  | .lqSet _ => eventF
  | .lqReset _ => eventF
  | .icacheInval _ => eventF
  | .unknownCommand _ => eventF
  | .slDirpaWrite _ _ => eventF
  | .slDiridxWrite _ _ => eventF
  | .slDirent0Read _ => eventF
  | .hubRegisterWrite _ _ _ => eventF
  | .hostHotReset  => eventF
  | .hostLinkTimeout  => eventF
  | .deviceLost _ => eventF
  | .deviceReset  => eventF
  | .powerGood _ => eventF
  | .fullServiceMove  => eventF
  | .islandClockSet _ _ => eventF
  | .nvmeSubmission _ _ => eventF
  | .nvmeCompletion _ => eventF
  | .flashRequest _ => eventF
  | .flashCompletion _ _ => eventF
  | .ethernetFrame _ _ _ _ => eventF
  | .getVersion _ => eventF
  | .getCapabilities _ => eventF
  | .negotiateAlgorithms _ => eventF
  | .getDigests _ => eventF
  | .getCertificate _ => eventF
  | .challenge _ => eventF
  | .getMeasurements _ => eventF
  | .traceGapWrite _ => eventF
  | .granuleHoldExpiry _ => eventF
  | .linkRetrain _ _ => eventF
  | .fabricLinkFailure _ _ => eventF
  | .migrationRequest _ _ _ => eventF
  | .fenceRwRw _ => eventF
  | .monarmComplete _ => eventF
  | .cinvComplete _ => eventF
  | .meetingStatusReturn _ => eventF
  | .tileOperationComplete _ => eventF
  | .dbgTrselWrite _ _ => eventF
  | .mctpFailureReport _ => eventF

/-- The instruction an opcode's fields stand for, before its checks (R109). -/
def Fields.instr (f : Fields) : Instr :=
  match f.opc with
  | 0x000 => .nop f.hdr
  | 0x001 => .iadd f.hdr (Ty.ofCode (bits f.mod 7 5)) (bitAt f.mod 3) (bitAt f.mod 2) (Opnd.ofCode f.d) (Opnd.ofCode f.a) (Opnd.ofCode f.b)
  | 0x002 => .isub f.hdr (Ty.ofCode (bits f.mod 7 5)) (bitAt f.mod 3) (bitAt f.mod 2) (Opnd.ofCode f.d) (Opnd.ofCode f.a) (Opnd.ofCode f.b)
  | 0x003 => .iadd3 f.hdr (Ty.ofCode (bits f.mod 7 5)) (bitAt f.mod 3) (bitAt f.mod 2) (Opnd.ofCode f.d) (Opnd.ofCode f.a) (Opnd.ofCode f.b) (Opnd.ofCode f.c)
  | 0x004 => .iaddc f.hdr (Ty.ofCode (bits f.mod 7 5)) (bitAt f.mod 2) (Opnd.ofCode f.d) (Opnd.ofCode f.a) (Opnd.ofCode f.b) (bits f.ext 0 4) (bits f.ext 4 4)
  | 0x005 => .imul f.hdr (Ty.ofCode (bits f.mod 7 5)) (bitAt f.mod 2) (Opnd.ofCode f.d) (Opnd.ofCode f.a) (Opnd.ofCode f.b)
  | 0x006 => .imulh f.hdr (Ty.ofCode (bits f.mod 7 5)) (bitAt f.mod 2) (Opnd.ofCode f.d) (Opnd.ofCode f.a) (Opnd.ofCode f.b)
  | 0x007 => .imad f.hdr (Ty.ofCode (bits f.mod 7 5)) (bitAt f.mod 3) (bitAt f.mod 2) (Opnd.ofCode f.d) (Opnd.ofCode f.a) (Opnd.ofCode f.b) (Opnd.ofCode f.c)
  | 0x008 => .imadw f.hdr (Ty.ofCode (bits f.mod 7 5)) (bitAt f.mod 2) (Opnd.ofCode f.d) (Opnd.ofCode f.a) (Opnd.ofCode f.b) (Opnd.ofCode f.c)
  | 0x009 => .idiv f.hdr (Ty.ofCode (bits f.mod 7 5)) (bitAt f.mod 2) (Opnd.ofCode f.d) (Opnd.ofCode f.a) (Opnd.ofCode f.b)
  | 0x00A => .irem f.hdr (Ty.ofCode (bits f.mod 7 5)) (bitAt f.mod 2) (Opnd.ofCode f.d) (Opnd.ofCode f.a) (Opnd.ofCode f.b)
  | 0x00B => .imin f.hdr (Ty.ofCode (bits f.mod 7 5)) (bitAt f.mod 2) (Opnd.ofCode f.d) (Opnd.ofCode f.a) (Opnd.ofCode f.b)
  | 0x00C => .imax f.hdr (Ty.ofCode (bits f.mod 7 5)) (bitAt f.mod 2) (Opnd.ofCode f.d) (Opnd.ofCode f.a) (Opnd.ofCode f.b)
  | 0x00D => .iabs f.hdr (Ty.ofCode (bits f.mod 7 5)) (bitAt f.mod 3) (bitAt f.mod 2) (Opnd.ofCode f.d) (Opnd.ofCode f.a)
  | 0x00E => .ineg f.hdr (Ty.ofCode (bits f.mod 7 5)) (bitAt f.mod 3) (bitAt f.mod 2) (Opnd.ofCode f.d) (Opnd.ofCode f.a)
  | 0x00F => .isad f.hdr (Ty.ofCode (bits f.mod 7 5)) (bitAt f.mod 2) (Opnd.ofCode f.d) (Opnd.ofCode f.a) (Opnd.ofCode f.b) (Opnd.ofCode f.c)
  | 0x010 => .andB f.hdr (Ty.ofCode (bits f.mod 7 5)) (bitAt f.mod 2) (Opnd.ofCode f.d) (Opnd.ofCode f.a) (Opnd.ofCode f.b)
  | 0x011 => .orB f.hdr (Ty.ofCode (bits f.mod 7 5)) (bitAt f.mod 2) (Opnd.ofCode f.d) (Opnd.ofCode f.a) (Opnd.ofCode f.b)
  | 0x012 => .xorB f.hdr (Ty.ofCode (bits f.mod 7 5)) (bitAt f.mod 2) (Opnd.ofCode f.d) (Opnd.ofCode f.a) (Opnd.ofCode f.b)
  | 0x013 => .notB f.hdr (Ty.ofCode (bits f.mod 7 5)) (bitAt f.mod 2) (Opnd.ofCode f.d) (Opnd.ofCode f.a)
  | 0x014 => .logt f.hdr (Ty.ofCode (bits f.mod 7 5)) (bitAt f.mod 2) (Opnd.ofCode f.d) (Opnd.ofCode f.a) (Opnd.ofCode f.b) (Opnd.ofCode f.c) (bits f.ext 0 8)
  | 0x015 => .shl f.hdr (Ty.ofCode (bits f.mod 7 5)) (bitAt f.mod 2) (Opnd.ofCode f.d) (Opnd.ofCode f.a) (Opnd.ofCode f.b)
  | 0x016 => .shr f.hdr (Ty.ofCode (bits f.mod 7 5)) (bitAt f.mod 2) (Opnd.ofCode f.d) (Opnd.ofCode f.a) (Opnd.ofCode f.b)
  | 0x017 => .rot f.hdr (Ty.ofCode (bits f.mod 7 5)) (bitAt f.mod 2) (Opnd.ofCode f.d) (Opnd.ofCode f.a) (Opnd.ofCode f.b)
  | 0x018 => .catsh f.hdr (bitAt f.mod 2) (Opnd.ofCode f.d) (Opnd.ofCode f.a) (Opnd.ofCode f.b) (Opnd.ofCode f.c)
  | 0x019 => .bfx f.hdr (Ty.ofCode (bits f.mod 7 5)) (bitAt f.mod 2) (Opnd.ofCode f.d) (Opnd.ofCode f.a) (Opnd.ofCode f.b)
  | 0x01A => .bfi f.hdr (bitAt f.mod 2) (Opnd.ofCode f.d) (Opnd.ofCode f.a) (Opnd.ofCode f.b) (Opnd.ofCode f.c)
  | 0x01B => .popc f.hdr (Ty.ofCode (bits f.mod 7 5)) (bitAt f.mod 2) (Opnd.ofCode f.d) (Opnd.ofCode f.a)
  | 0x01C => .clz f.hdr (Ty.ofCode (bits f.mod 7 5)) (bitAt f.mod 2) (Opnd.ofCode f.d) (Opnd.ofCode f.a)
  | 0x01D => .brev f.hdr (Ty.ofCode (bits f.mod 7 5)) (bitAt f.mod 2) (Opnd.ofCode f.d) (Opnd.ofCode f.a)
  | 0x01E => .ffs f.hdr (Ty.ofCode (bits f.mod 7 5)) (bitAt f.mod 2) (Opnd.ofCode f.d) (Opnd.ofCode f.a)
  | 0x01F => .icmp f.hdr (Cmp.ofCode (bits f.mod 12 4)) (Ty.ofCode (bits f.mod 7 5)) f.d (Opnd.ofCode f.a) (Opnd.ofCode f.b)
  | 0x020 => .isel f.hdr (Ty.ofCode (bits f.mod 7 5)) (bitAt f.mod 2) (Opnd.ofCode f.d) (Opnd.ofCode f.a) (Opnd.ofCode f.b) f.c
  | 0x021 => .lea f.hdr (Ty.ofCode (bits f.mod 7 5)) (bitAt f.mod 2) (Opnd.ofCode f.d) (Opnd.ofCode f.a) (Opnd.ofCode f.b) (bits f.ext 0 6)
  | 0x022 => .movi f.hdr (Opnd.ofCode f.d) f.imm
  | 0x023 => .mov f.hdr (Ty.ofCode (bits f.mod 7 5)) (bitAt f.mod 2) (Opnd.ofCode f.d) (Opnd.ofCode f.a)
  | 0x040 => .fadd f.hdr (Ty.ofCodeF (bits f.mod 7 5)) (Rnd.ofCode (bits f.mod 5 2)) (bitAt f.mod 4) (bitAt f.mod 2) (Opnd.ofCode f.d) (Opnd.ofCode f.a) (Opnd.ofCode f.b)
  | 0x041 => .fsub f.hdr (Ty.ofCodeF (bits f.mod 7 5)) (Rnd.ofCode (bits f.mod 5 2)) (bitAt f.mod 4) (bitAt f.mod 2) (Opnd.ofCode f.d) (Opnd.ofCode f.a) (Opnd.ofCode f.b)
  | 0x042 => .fmul f.hdr (Ty.ofCodeF (bits f.mod 7 5)) (Rnd.ofCode (bits f.mod 5 2)) (bitAt f.mod 4) (bitAt f.mod 2) (Opnd.ofCode f.d) (Opnd.ofCode f.a) (Opnd.ofCode f.b)
  | 0x043 => .ffma f.hdr (Ty.ofCodeF (bits f.mod 7 5)) (Rnd.ofCode (bits f.mod 5 2)) (bitAt f.mod 4) (bitAt f.mod 2) (Opnd.ofCode f.d) (Opnd.ofCode f.a) (Opnd.ofCode f.b) (Opnd.ofCode f.c)
  | 0x044 => .fmin f.hdr (Ty.ofCodeF (bits f.mod 7 5)) (bitAt f.mod 4) (bitAt f.mod 2) (Opnd.ofCode f.d) (Opnd.ofCode f.a) (Opnd.ofCode f.b)
  | 0x045 => .fmax f.hdr (Ty.ofCodeF (bits f.mod 7 5)) (bitAt f.mod 4) (bitAt f.mod 2) (Opnd.ofCode f.d) (Opnd.ofCode f.a) (Opnd.ofCode f.b)
  | 0x046 => .fcmp f.hdr (Cmp.ofCode (bits f.mod 12 4)) (Ty.ofCodeF (bits f.mod 7 5)) (bitAt f.mod 4) f.d (Opnd.ofCode f.a) (Opnd.ofCode f.b)
  | 0x047 => .fdiv f.hdr (Ty.ofCodeF (bits f.mod 7 5)) (Rnd.ofCode (bits f.mod 5 2)) (bitAt f.mod 4) (bitAt f.mod 2) (Opnd.ofCode f.d) (Opnd.ofCode f.a) (Opnd.ofCode f.b)
  | 0x048 => .fsqrt f.hdr (Ty.ofCodeF (bits f.mod 7 5)) (Rnd.ofCode (bits f.mod 5 2)) (bitAt f.mod 4) (bitAt f.mod 2) (Opnd.ofCode f.d) (Opnd.ofCode f.a)
  | 0x049 => .frcp f.hdr (Ty.ofCodeF (bits f.mod 7 5)) (Rnd.ofCode (bits f.mod 5 2)) (bitAt f.mod 4) (bitAt f.mod 2) (bitAt f.mod 1) (Opnd.ofCode f.d) (Opnd.ofCode f.a)
  | 0x04A => .frsq f.hdr (Ty.ofCodeF (bits f.mod 7 5)) (Rnd.ofCode (bits f.mod 5 2)) (bitAt f.mod 4) (bitAt f.mod 2) (bitAt f.mod 1) (Opnd.ofCode f.d) (Opnd.ofCode f.a)
  | 0x04B => .fexp2 f.hdr (bitAt f.mod 4) (bitAt f.mod 2) (Opnd.ofCode f.d) (Opnd.ofCode f.a)
  | 0x04C => .flog2 f.hdr (bitAt f.mod 4) (bitAt f.mod 2) (Opnd.ofCode f.d) (Opnd.ofCode f.a)
  | 0x04D => .fsin f.hdr (bitAt f.mod 4) (bitAt f.mod 2) (Opnd.ofCode f.d) (Opnd.ofCode f.a)
  | 0x04E => .fcos f.hdr (bitAt f.mod 4) (bitAt f.mod 2) (Opnd.ofCode f.d) (Opnd.ofCode f.a)
  | 0x04F => .ftanh f.hdr (bitAt f.mod 4) (bitAt f.mod 2) (Opnd.ofCode f.d) (Opnd.ofCode f.a)
  | 0x050 => .frnd f.hdr (Ty.ofCodeF (bits f.mod 7 5)) (Rnd.ofCode (bits f.mod 5 2)) (bitAt f.mod 4) (bitAt f.mod 2) (Opnd.ofCode f.d) (Opnd.ofCode f.a)
  | 0x051 => .fclass f.hdr (Ty.ofCodeF (bits f.mod 7 5)) (bitAt f.mod 2) (Opnd.ofCode f.d) (Opnd.ofCode f.a)
  | 0x052 => .fscale f.hdr (Ty.ofCodeF (bits f.mod 7 5)) (Rnd.ofCode (bits f.mod 5 2)) (bitAt f.mod 4) (bitAt f.mod 2) (Opnd.ofCode f.d) (Opnd.ofCode f.a) (Opnd.ofCode f.b)
  | 0x053 => .fdot2 f.hdr (Ty.ofCodeF (bits f.mod 7 5)) (Rnd.ofCode (bits f.mod 5 2)) (bitAt f.mod 2) (Opnd.ofCode f.d) (Opnd.ofCode f.a) (Opnd.ofCode f.b) (Opnd.ofCode f.c)
  | 0x080 => .cvt f.hdr (Ty.ofCodeF (bits f.mod 11 5)) (Ty.ofCodeF (bits f.mod 6 5)) (Rnd.ofCode (bits f.mod 4 2)) (bitAt f.mod 3) (bitAt f.mod 2) (bitAt f.mod 1) (Opnd.ofCode f.d) (bits f.ext 0 3) (Opnd.ofCode f.a) (bits f.ext 3 3)
  | 0x081 => .pack f.hdr (Ty.ofCodeF (bits f.mod 11 5)) (Ty.ofCodeF (bits f.mod 6 5)) (Rnd.ofCode (bits f.mod 4 2)) (bitAt f.mod 3) (bitAt f.mod 2) (bitAt f.mod 1) (Opnd.ofCode f.d) (Opnd.ofCode f.a) (Opnd.ofCode f.b) (bits f.ext 0 2)
  | 0x082 => .unpk f.hdr (Ty.ofCodeF (bits f.mod 11 5)) (Ty.ofCodeF (bits f.mod 6 5)) (bitAt f.mod 2) (Opnd.ofCode f.d) (Opnd.ofCode f.a) (bits f.ext 0 2)
  | 0x083 => .qpack f.hdr (Ty.ofCodeF (bits f.mod 11 5)) (Ty.ofCodeF (bits f.mod 6 5)) (Rnd.ofCode (bits f.mod 4 2)) (bitAt f.mod 3) (bitAt f.mod 2) (bitAt f.mod 1) (Opnd.ofCode f.d) (Opnd.ofCode f.a) (bits f.ext 0 1)
  | 0x084 => .qunpk f.hdr (Ty.ofCodeF (bits f.mod 11 5)) (Ty.ofCodeF (bits f.mod 6 5)) (bitAt f.mod 2) (Opnd.ofCode f.d) (Opnd.ofCode f.a) (bits f.ext 0 1)
  | 0x085 => .dot4 f.hdr (Ty.ofCode (bits f.mod 7 5)) (bitAt f.mod 3) (bitAt f.mod 2) (Opnd.ofCode f.d) (Opnd.ofCode f.a) (Opnd.ofCode f.b) (Opnd.ofCode f.c)
  | 0x086 => .dot8 f.hdr (Ty.ofCode (bits f.mod 7 5)) (bitAt f.mod 3) (bitAt f.mod 2) (Opnd.ofCode f.d) (Opnd.ofCode f.a) (Opnd.ofCode f.b) (Opnd.ofCode f.c)
  | 0x087 => .dots f.hdr (Ty.ofCode (bits f.mod 7 5)) (bitAt f.mod 2) (Opnd.ofCode f.d) (Opnd.ofCode f.a) (Opnd.ofCode f.b) (Opnd.ofCode f.c) (bits f.ext 0 2) (bits f.ext 2 2)
  | 0x088 => .prmb f.hdr (bitAt f.mod 2) (Opnd.ofCode f.d) (Opnd.ofCode f.a) (Opnd.ofCode f.b) (Opnd.ofCode f.c)
  | 0x0A0 => .lxch f.hdr (LxMode.ofCode (bits f.mod 12 4)) (Ty.ofCode (bits f.mod 7 5)) (bitAt f.mod 2) (Opnd.ofCode f.d) (Opnd.ofCode f.a) (Opnd.ofCode f.b)
  | 0x0A1 => .qswp f.hdr (QsK.ofCode (bits f.mod 12 4)) (Ty.ofCode (bits f.mod 7 5)) (bitAt f.mod 2) (Opnd.ofCode f.d) (Opnd.ofCode f.a)
  | 0x0A2 => .qbcst f.hdr (Ty.ofCode (bits f.mod 7 5)) (bitAt f.mod 2) (Opnd.ofCode f.d) (Opnd.ofCode f.a) (bits f.ext 0 2)
  | 0x0A3 => .qhelp f.hdr (bitAt f.ext 0)
  | 0x0A4 => .vote f.hdr (VoteOp.ofCode (bits f.mod 12 4)) (bitAt f.mod 2) (VoteDst.ofCode (bits f.mod 12 4) f.d) f.a
  | 0x0A5 => .gred f.hdr (RedOp.ofCode (bits f.mod 12 4)) (Ty.ofCode (bits f.mod 7 5)) (bitAt f.mod 2) (Opnd.ofCode f.d) (Opnd.ofCode f.a)
  | 0x0A6 => .gscan f.hdr (RedOp.ofCode (bits f.mod 12 4)) (Ty.ofCode (bits f.mod 7 5)) (bitAt f.mod 2) (bitAt f.mod 1) (Opnd.ofCode f.d) (Opnd.ofCode f.a)
  | 0x0A7 => .matchLanes f.hdr (MatchOp.ofCode (bits f.mod 12 4)) (Ty.ofCode (bits f.mod 7 5)) (bitAt f.mod 2) (Opnd.ofCode f.d) (Opnd.ofCode f.a)
  | 0x0A8 => .rdlane f.hdr (Ty.ofCode (bits f.mod 7 5)) (bitAt f.mod 2) (Opnd.ofCode f.d) (Opnd.ofCode f.a) (Opnd.ofCode f.b)
  | 0x0A9 => .wrlane f.hdr (Ty.ofCode (bits f.mod 7 5)) (Opnd.ofCode f.d) (Opnd.ofCode f.a) (Opnd.ofCode f.b)
  | 0x0C0 => .bra f.hdr f.imm
  | 0x0C1 => .brx f.hdr (Opnd.ofCode f.a)
  | 0x0C2 => .call f.hdr f.imm
  | 0x0C3 => .callx f.hdr (Opnd.ofCode f.a)
  | 0x0C4 => .ret f.hdr
  | 0x0C5 => .enrol f.hdr f.d
  | 0x0C6 => .rejoin f.hdr f.d
  | 0x0C7 => .leave f.hdr f.d
  | 0x0C8 => .exit f.hdr
  | 0x0C9 => .yield f.hdr
  | 0x0CA => .tbar f.hdr
  | 0x0CB => .tbara f.hdr
  | 0x0CC => .lnch f.hdr f.d (Opnd.ofCode f.a) f.b
  | 0x0D0 => .trap f.hdr f.imm
  | 0x0D1 => .brk f.hdr f.imm
  | 0x0D2 => .tret f.hdr (bitAt f.ext 0)
  | 0x0D3 => .tqrd f.hdr (Opnd.ofCode f.d)
  | 0x0E0 => .grow f.hdr (bitAt f.mod 0) f.d f.imm
  | 0x0E1 => .shrink f.hdr f.imm
  | 0x0E2 => .rdsr f.hdr (Opnd.ofCode f.d) (SReg.ofCode f.imm.toNat)
  | 0x0E3 => .wrsr f.hdr (Opnd.ofCode f.a) (SReg.ofCode f.imm.toNat)
  | 0x0E4 => .pset f.hdr f.d (Opnd.ofCode f.a) (Opnd.ofCode f.b)
  | 0x0E5 => .pmov f.hdr (bitAt f.ext 0) (if bitAt f.ext 0 then f.d else f.a) (Opnd.ofCode (if bitAt f.ext 0 then f.a else f.d))
  | 0x0E6 => .xget f.hdr (Opnd.ofCode f.d) (Opnd.ofCode f.a) (Opnd.ofCode f.b)
  | 0x0E7 => .xput f.hdr (Opnd.ofCode f.a) (Opnd.ofCode f.b) (Opnd.ofCode f.c)
  | 0x100 => .ld f.hdr (bitAt f.mod 15) (Ty.ofCode (bits f.mod 7 5)) (Scope.ofCode (bits f.mod 4 3)) (Ord.ofCode (bits f.mod 2 2)) (CacheH.ofCode (bits f.mod 0 2)) (Opnd.ofCode f.d) (Opnd.ofCode f.a) f.off
  | 0x101 => .st f.hdr (bitAt f.mod 15) (Ty.ofCode (bits f.mod 7 5)) (Scope.ofCode (bits f.mod 4 3)) (Ord.ofCode (bits f.mod 2 2)) (CacheH.ofCode (bits f.mod 0 2)) (Opnd.ofCode f.a) (Opnd.ofCode f.b) f.off
  | 0x102 => .lds f.hdr (Ty.ofCode (bits f.mod 7 5)) (Opnd.ofCode f.d) (Opnd.ofCode f.a) f.off
  | 0x103 => .sts f.hdr (Ty.ofCode (bits f.mod 7 5)) (Opnd.ofCode f.a) (Opnd.ofCode f.b) f.off
  | 0x104 => .atom f.hdr (bitAt f.mod 15) (AOp.ofCode (bits f.mod 12 3)) (Ty.ofCode (bits f.mod 7 5)) (Scope.ofCode (bits f.mod 4 3)) (Ord.ofCode (bits f.mod 2 2)) (Opnd.ofCode f.d) (Opnd.ofCode f.a) (Opnd.ofCode f.b) f.off
  | 0x105 => .atoms f.hdr (AOp.ofCode (bits f.mod 12 3)) (Ty.ofCode (bits f.mod 7 5)) (Opnd.ofCode f.d) (Opnd.ofCode f.a) (Opnd.ofCode f.b) f.off
  | 0x106 => .cas f.hdr (bitAt f.mod 15) (Ty.ofCode (bits f.mod 7 5)) (Scope.ofCode (bits f.mod 4 3)) (Ord.ofCode (bits f.mod 2 2)) (Opnd.ofCode f.d) (Opnd.ofCode f.a) (Opnd.ofCode f.b) f.off
  | 0x107 => .red f.hdr (bitAt f.mod 15) (AOp.ofCode (bits f.mod 12 3)) (Ty.ofCode (bits f.mod 7 5)) (Scope.ofCode (bits f.mod 4 3)) (Ord.ofCode (bits f.mod 2 2)) (Opnd.ofCode f.a) (Opnd.ofCode f.b) f.off
  | 0x108 => .fence f.hdr (Scope.ofCode (bits f.mod 4 3))
  | 0x109 => .wait f.hdr f.d f.a f.b f.c (bits f.ext 0 6)
  | 0x10A => .monarm f.hdr (bitAt f.mod 15) (Opnd.ofCode f.a) f.off
  | 0x10B => .mwait f.hdr f.d (Opnd.ofCode f.a)
  | 0x10C => .pref f.hdr (bitAt f.mod 15) (CacheH.ofCode (bits f.mod 0 2)) (Opnd.ofCode f.a) f.off
  | 0x10D => .cwb f.hdr (bitAt f.mod 15) (Scope.ofCode (bits f.mod 4 3)) (Opnd.ofCode f.a) f.off
  | 0x10E => .cinv f.hdr (bitAt f.mod 15) (Scope.ofCode (bits f.mod 4 3)) (Opnd.ofCode f.a) f.off
  | 0x110 => .lblrd f.hdr (bitAt f.mod 15) (Opnd.ofCode f.d) (Opnd.ofCode f.a) f.off
  | 0x111 => .lblset f.hdr (bitAt f.mod 15) (bitAt f.mod 12) (Opnd.ofCode f.a) (Opnd.ofCode f.b) f.off
  | 0x112 => .lblclr f.hdr (bitAt f.mod 15) (Opnd.ofCode f.a) f.off
  | 0x140 => .qenq f.hdr f.d (Opnd.ofCode f.a) (Opnd.ofCode f.b)
  | 0x141 => .qdeq f.hdr (Opnd.ofCode f.d) (Opnd.ofCode f.a) f.c
  | 0x142 => .qstat f.hdr (Opnd.ofCode f.d) (Opnd.ofCode f.a)
  | 0x143 => .amsg f.hdr f.d (Opnd.ofCode f.a) (Opnd.ofCode f.b) f.c
  | 0x144 => .amdone f.hdr
  | 0x160 => .cpy f.hdr (Opnd.ofCode f.a) f.off
  | 0x161 => .cpyr f.hdr (Opnd.ofCode f.a) f.off
  | 0x162 => .boinit f.hdr (Opnd.ofCode f.a) (Opnd.ofCode f.b) f.off
  | 0x163 => .bowait f.hdr f.d (Opnd.ofCode f.a) (Opnd.ofCode f.b) f.off
  | 0x164 => .mjoin f.hdr (Opnd.ofCode f.d) (Opnd.ofCode f.a) (Opnd.ofCode f.b)
  | 0x165 => .mcont f.hdr (Opnd.ofCode f.d) (Opnd.ofCode f.a) (Opnd.ofCode f.b) (Opnd.ofCode f.c)
  | 0x166 => .mrslt f.hdr (Opnd.ofCode f.d) (Opnd.ofCode f.a) (Opnd.ofCode f.b) (Opnd.ofCode f.c)
  | 0x167 => .mleave f.hdr (Opnd.ofCode f.d) (Opnd.ofCode f.a) (Opnd.ofCode f.b)
  | 0x168 => .mstat f.hdr (Opnd.ofCode f.d) (Opnd.ofCode f.a) (Opnd.ofCode f.b)
  | 0x180 => .topen f.hdr f.d
  | 0x181 => .twr f.hdr f.d (Opnd.ofCode f.a) (Opnd.ofCode f.b)
  | 0x182 => .tseal f.hdr f.d
  | 0x183 => .tdrain f.hdr f.d
  | 0x184 => .trd f.hdr (Opnd.ofCode f.d) f.a (Opnd.ofCode f.b)
  | 0x185 => .tfree f.hdr f.d
  | 0x186 => .tstat f.hdr (Opnd.ofCode f.d) f.a f.b
  | 0x190 => .mmab16 f.hdr (CoreSel.ofCode (bits f.mod 0 3)) f.d f.a f.b
  | 0x191 => .mmah16 f.hdr (CoreSel.ofCode (bits f.mod 0 3)) f.d f.a f.b
  | 0x192 => .mmaf8a f.hdr (CoreSel.ofCode (bits f.mod 0 3)) f.d f.a f.b
  | 0x193 => .mmaf8b f.hdr (CoreSel.ofCode (bits f.mod 0 3)) f.d f.a f.b
  | 0x194 => .mmaf6a f.hdr (CoreSel.ofCode (bits f.mod 0 3)) f.d f.a f.b
  | 0x195 => .mmaf6b f.hdr (CoreSel.ofCode (bits f.mod 0 3)) f.d f.a f.b
  | 0x196 => .mmaf4 f.hdr (CoreSel.ofCode (bits f.mod 0 3)) f.d f.a f.b
  | 0x197 => .mmai8 f.hdr (CoreSel.ofCode (bits f.mod 0 3)) f.d f.a f.b
  | 0x198 => .mmaf32 f.hdr (CoreSel.ofCode (bits f.mod 0 3)) f.d f.a f.b
  | 0x199 => .mmad64 f.hdr (CoreSel.ofCode (bits f.mod 0 3)) f.d f.a f.b
  | 0x19A => .lutbld f.hdr (CoreSel.ofCode (bits f.mod 0 3)) f.d f.a
  | 0x19B => .lutmm f.hdr (bits f.mod 3 2) (CoreSel.ofCode (bits f.mod 0 3)) f.d f.a f.b
  | 0x19C => .czero f.hdr (CoreSel.ofCode (bits f.mod 0 3)) f.d
  | 0x19D => .ccvt f.hdr (bitAt f.mod 10) (Ty.ofCode (bits f.mod 5 5)) (CoreSel.ofCode (bits f.mod 0 3)) f.d f.a (CSrc.ofCode (bits f.ext 0 2))
  | 0x19E => .tscl f.hdr (bitAt f.ext 0) f.d f.b
  | 0x19F => .tperm f.hdr (bitAt f.ext 0) f.d f.b
  | 0x1A0 => .twait f.hdr f.d f.a f.b
  | 0x1A1 => .sqsig f.hdr f.d (Opnd.ofCode f.a)
  | 0x1A2 => .sqwait f.hdr f.d (Opnd.ofCode f.a) (capOf f.c)
  | 0x1B0 => .gcall f.hdr f.d (bits f.ext 0 12)
  | 0x1B1 => .gret f.hdr
  | 0x1B2 => .sysc f.hdr f.d (bits f.ext 0 12)
  | 0x1C0 => .trmark f.hdr (Opnd.ofCode f.a) f.imm
  | _ => .nop f.hdr

/-- Assigned opcodes (R109); every other value is reserved (R110). -/
def assigned (opc : Nat) : Bool :=
  opc ≤ 0x023 || (0x040 ≤ opc && opc ≤ 0x053) || (0x080 ≤ opc && opc ≤ 0x088)
    || (0x0A0 ≤ opc && opc ≤ 0x0A9) || (0x0C0 ≤ opc && opc ≤ 0x0CC) || (0x0D0 ≤ opc && opc ≤ 0x0D3)
    || (0x0E0 ≤ opc && opc ≤ 0x0E7) || (0x100 ≤ opc && opc ≤ 0x10E) || (0x110 ≤ opc && opc ≤ 0x112)
    || (0x140 ≤ opc && opc ≤ 0x144) || (0x160 ≤ opc && opc ≤ 0x168) || (0x180 ≤ opc && opc ≤ 0x186)
    || (0x190 ≤ opc && opc ≤ 0x1A2) || (0x1B0 ≤ opc && opc ≤ 0x1B2) || opc == 0x1C0

/-- Why a word is no instruction; each is cause ILLEGAL_INSTRUCTION (Table 6-7). -/
inductive DecodeError
  | reservedOpcode   -- check 3, R110
  | wrongUnit        -- check 3, R110, R111
  | reservedBits     -- check 4, R102
  | illFormed        -- check 4, R103–R107
  deriving DecidableEq, Repr

/-- Checks 3 and 4 of R112 on a word of lane (`seq = false`) or sequencer code. -/
def decode (seq : Bool) (w : Nat) : Except DecodeError Instr :=
  let f := Fields.ofWord w
  if !assigned f.opc then .error .reservedOpcode
  else
    let i := f.instr
    if !i.unitAllows seq then .error .wrongUnit
    else if i.fields ≠ f then .error .reservedBits
    else if !i.wf seq then .error .illFormed
    else .ok i

/-- The 96-bit word of an instruction. -/
def encode (i : Instr) : Nat := i.fields.toWord

/-- The word whose bytes, lowest address first, are `bs` (R100: little-endian). -/
def wordOfBytes : List Byte → Nat
  | [] => 0
  | b :: bs => b.toNat + 256 * wordOfBytes bs

/-- `n` bytes of `w`, lowest address first. -/
def bytesOf : Nat → Nat → List Byte
  | 0, _ => []
  | n + 1, w => BitVec.ofNat 8 w :: bytesOf n (w / 256)

/-- Decode as lane code, or else as sequencer code (the opcodes of R110 that only a sequencer runs). -/
def decodeAny (w : Nat) : Option (Bool × Instr) :=
  match decode false w with
  | .ok i => some (false, i)
  | .error _ =>
    match decode true w with
    | .ok i => some (true, i)
    | .error _ => none

/-- The instruction this decoder reads from a word numbered as spec/opcode_table.json numbers it: the 96-bit
word laid out little-endian (R100) and read back. -/
def decodeTableWord (nbits w : Nat) : Option Instr :=
  (decodeAny (wordOfBytes (bytesOf 12 (w % 2 ^ nbits)))).map (·.2)

end Sys2Proof
end

