-- ==== Sys2Proof/Machine/Flags.lean ====
section
/-! DEFINITION. Machine/Flags.lean: the sticky flags of %fpflags (R90) and the one shape of an arithmetic
instruction: per-lane results with the flags they raise. -/

namespace Sys2Proof.Machine

/-- The lanes for which an instruction is evaluated: Active, or once. -/
def Issue.evalLanes (x : Issue) : List Nat :=
  if x.act = 0 then [] else if x.once then [x.lead] else lanesOf x.act

/-- The flags that the executing lanes raise (R90). -/
def orFlags (f : Nat → Flags) : List Nat → Flags
  | [] => 0
  | l :: ls => f l ||| orFlags f ls

/-- Raise sticky flags (R90). -/
def Group.raise (g : Group) (fl : Flags) : Group := { g with fpflags := g.fpflags ||| fl }

/-- An arithmetic instruction that writes a register of `w` words: `f` gives lane `l`'s result and flags. -/
def alu (d : Opnd) (w : Nat) (z : Bool) (f : Group → Nat → Bits) (x : Issue) (s : State) : State :=
  x.done s (fun g => (g.writeD x d w z (fun l => (f x.g l).1)).raise (orFlags (fun l => (f x.g l).2) x.evalLanes))

/-- An arithmetic instruction that raises no flag. -/
def alu0 (d : Opnd) (w : Nat) (z : Bool) (f : Group → Nat → Nat) (x : Issue) (s : State) : State :=
  x.done s (fun g => g.writeD x d w z (f x.g))

/-- A compare: `f` gives lane `l`'s predicate bit and flags (R155, R160). -/
def cmpOp (pd : Nat) (f : Group → Nat → Bool × Flags) (x : Issue) (s : State) : State :=
  x.done s (fun g => (g.writeP x pd (fun l => (f x.g l).1)).raise (orFlags (fun l => (f x.g l).2) x.evalLanes))

end Sys2Proof.Machine
end

