-- ==== Sys2Proof/Machine/Control.lean ====
section
/-! DEFINITION. Machine/Control.lean: branches, calls and the call stack, rejoin barriers, the end of lanes, the team
barrier, LNCH, and the trap instructions (R174–R182, R188–R193). -/

namespace Sys2Proof.Machine

/-! ### Branches, calls and returns (R175–R178) -/

/-- What a control transfer does for one lane. -/
inductive Jump
  | goto (t : DWord)
  | call (t : DWord)
  | ret
  deriving DecidableEq, Repr

/-- What one lane's transfer comes to: done with its new lane state; a spill or refill to be made, with the lane as it will be; a trap, or
parked with its address. -/
inductive JumpRes
  | done (x : Lane)
  | mem (a : Acc) (x : Lane)
  | fail (f : Fail)
  | park (out : Nat) (va : DWord)
  deriving DecidableEq, Repr

/-- Depth at which CALL overflows: 516, or 8 in the sequencer (R176, R278). -/
def Group.maxDepth (g : Group) : Nat := if g.isSeq then 8 else 516
/-- Call-stack entries held on chip (R176); the sequencer's stack is wholly on chip (R278). -/
def Group.onChip (g : Group) : Nat := if g.isSeq then 8 else 4

/-- The spill address of entry `i` of lane `l` (R176). -/
def Group.spillVa (g : Group) (l i : Nat) : DWord := BitVec.ofNat 64 (g.cstack.toNat + 4096 * l + 8 * i)

/-- One lane's spill or refill, translated (R177, R178). -/
def State.jumpMem (s : State) (g : Group) (l i : Nat) (store : Option DWord) (x : Lane) : JumpRes × State :=
  let va := g.spillVa l i
  match s.stackKey g va store.isSome with
  | (.key k lk mg, s) => (.mem { lane := l, va := va, key := k, lockok := lk, mig := mg, data := (store.getD 0).toNat, st := .wait } x, s)
  | (.park o, s) => (.park o va, s)
  | (.fail c d, s) => (.fail { lane := l, cause := c, addr := va, detail := d }, s)

/-- One lane's transfer (R175, R177): the target is tested first; a call may spill and a return refill. -/
def State.jumpLane (s : State) (g : Group) (pc : DWord) (l : Nat) (j : Jump) : JumpRes × State :=
  let x := g.lane l
  match j with
  | .goto t => (if validCode t then .done { x with pc := t } else .fail { lane := l, cause := 0x07, addr := t }, s)
  | .call t =>
    if !validCode t then (.fail { lane := l, cause := 0x07, addr := t }, s)
    else if x.depth ≥ g.maxDepth then (.fail { lane := l, cause := 0x0B }, s)
    else
      let x' : Lane := { x with pc := t, depth := x.depth + 1, stack := (nextPc pc :: x.stack).take g.onChip }
      if x.depth < g.onChip then (.done x', s) else s.jumpMem g l (x.depth - 4) (some (x.stack.getLastD 0)) x'
  | .ret =>
    match x.stack with
    | [] => (.fail { lane := l, cause := 0x0C }, s)
    | t :: rest =>
      let x' : Lane := { x with pc := t, depth := x.depth - 1, stack := rest }
      if !validCode t then (.fail { lane := l, cause := 0x07, addr := t }, s)
      else if x.depth ≤ g.onChip then (.done x', s) else s.jumpMem g l (x.depth - 5) none x'

/-- Every lane's transfer in turn. -/
def State.jumpLanes (s : State) (g : Group) (pc : DWord) (j : Nat → Jump) : List Nat → List (Nat × JumpRes) × State
  | [] => ([], s)
  | l :: ls =>
    let (r, s) := s.jumpLane g pc l (j l)
    let (rs, s) := s.jumpLanes g pc j ls
    ((l, r) :: rs, s)

/-- The failures of a list of transfers. -/
def jumpFails : List (Nat × JumpRes) → List Fail
  | [] => []
  | (_, .fail f) :: rs => f :: jumpFails rs
  | _ :: rs => jumpFails rs

/-- The parked lanes of a list of transfers, with empty DATA (R213). -/
def jumpParks : List (Nat × JumpRes) → List (Nat × LogLane)
  | [] => []
  | (l, .park o va) :: rs => (l, parkSlot o va 0) :: jumpParks rs
  | _ :: rs => jumpParks rs

/-- The spills or refills of a list of transfers, and the lanes as they will be. -/
def jumpAccs : List (Nat × JumpRes) → List (Acc × Lane)
  | [] => []
  | (_, .mem a x) :: rs => (a, x) :: jumpAccs rs
  | _ :: rs => jumpAccs rs

/-- The lane states of a list of transfers that were done. -/
def jumpMoves (g : Group) : List (Nat × JumpRes) → Group
  | [] => g
  | (l, .done x) :: rs => jumpMoves (g.onLanes (laneBit l) (fun _ => x)) rs
  | _ :: rs => jumpMoves g rs

/-- Lanes take the states given for them. -/
def Group.moveLanes (g : Group) (ms : List (Nat × Lane)) : Group := ms.foldl (fun g m => g.onLanes (laneBit m.1) (fun _ => m.2)) g

/-- Send spills or refills through L1, on no counter (R177). A spill is done as L1 accepts it; refills, and spills that a locked label may
refuse (R216), hold the run until they are decided. -/
def State.sendStack (s : State) (x : Issue) (spill : Bool) (as : List (Acc × Lane)) : State :=
  if as.isEmpty then s
  else
    let m : MemDesc := { kind := if spill then .store else .load, ty := .b64, width := 8, pc := x.pc, word0 := x.word0, run := x.run, act := x.act, l1 := true }
    let s := as.foldl (fun s a => s.dropCopies x.g.cluster x.g.core m a.1.key) s
    let moves := as.map (fun a => (a.1.lane, a.2))
    let id := s.nextId
    let s := s.sendOp { gid := x.gid, ctx := x.g.ctx, cluster := x.g.cluster, core := x.g.core, job := .stack, kind := .mem m (as.map (·.1)) }
    if spill && !(as.any (fun a => a.1.lockok)) then s.updGrp x.gid (fun g => g.moveLanes moves)
    else s.updGrp x.gid (fun g => g.setBlock (.stack id moves))

/-- STACK: spills or refills that hold a run have been decided: each lane has its refilled entry and goes on; a refused lane traps
LABEL_VIOLATION (R216), and one whose refill failed traps MEMORY_ERROR at its return. (DESIGN CHOICE, log 83) -/
def State.stackEnd (s : State) (id : Nat) : State :=
  match mfind s.ops id with
  | none => s
  | some o =>
    match o.desc?, s.grp? o.gid with
    | some m, some g =>
      match g.block with
      | .stack k moves =>
        if k ≠ id ∨ !(o.accs.all (fun a => a.final || (m.kind == .store && a.decided))) then s
        else
          let fate := fun (p : Nat × Lane) => (o.accs.find? (fun a => a.lane == p.1)).map (fun a => (a, p.2))
          let ends := moves.filterMap fate
          let go := ends.filterMap (fun (e : Acc × Lane) => match e.1.st with
            | .refused _ => none
            | .failed _ => if m.kind = .store then some (e.1.lane, e.2) else none
            | _ => some (e.1.lane, if m.kind = .store then e.2 else { e.2 with stack := e.2.stack ++ [BitVec.ofNat 64 e.1.res] }))
          let bad := ends.filterMap (fun (e : Acc × Lane) => match e.1.st with
            | .refused r => some ({ lane := e.1.lane, cause := 0x13, addr := e.1.va, detail := r } : Fail)
            | .failed c => if m.kind = .store then none else some { lane := e.1.lane, cause := 0x16, addr := e.1.va, detail := c }
            | _ => none)
          let s := s.updGrp o.gid (fun g => { (g.moveLanes go) with block := .none })
          let s := (m.issue o.gid g).failAll s bad
          if m.kind = .store then s else { s with ops := mdel s.ops id }
      | _ => if m.kind ≠ .store && o.accs.all Acc.final then { s with ops := mdel s.ops id } else s
    | _, _ => s

/-- BRA, BRX, CALL, CALLX and RET (R175, R177, R178): lanes of Active go to their targets, fault or park; the rest of
the run advances one slot. -/
def jump (j : Group → Nat → Jump) (x : Issue) (s : State) : State :=
  let (rs, s) := s.jumpLanes x.g x.pc (j x.g) (lanesOf x.act)
  let s := s.updGrp x.gid (fun g => (jumpMoves g rs).advance (x.run &&& ~~~x.act))
  let s := x.failAll s (jumpFails rs)
  let s := match jumpParks rs, x.g.parkEntry x.reissue with
    | [], _ => s
    | ps, some e => s.parkIn x.gid e false x.word0 (maskOf (ps.map (fun (q : Nat × LogLane) => q.1))) ps
    | _, none => s
  s.sendStack x (match j x.g (lowestLane x.act) with | .ret => false | _ => true) (jumpAccs rs)

/-- A code address held in a register pair. -/
def Group.pair (g : Group) (a : Opnd) (l : Nat) : DWord := BitVec.ofNat 64 (g.opnd a 2 l)

/-- Lanes of Active of a CALL or RET that would spill or refill (R176–R178). -/
def Group.spills (g : Group) (i : Instr) (run : Word) (pc : DWord) : Bool :=
  let act := fun (h : Hdr) => lanesOf (activeMask g h run false)
  let calls := fun (h : Hdr) (t : Nat → DWord) =>
    (act h).any (fun l => decide (4 ≤ (g.lane l).depth ∧ (g.lane l).depth < g.maxDepth) && validCode (t l))
  match i with
  | .call h imm => !g.isSeq && calls h (fun _ => branchPc pc imm)
  | .callx h a => !g.isSeq && calls h (g.pair a)
  | .ret h => !g.isSeq && (act h).any (fun l => decide (4 < (g.lane l).depth) && validCode ((g.lane l).stack.headD 0))
  | _ => false

/-- BRA (R175). -/
def execBra (h : Hdr) (imm : BitVec 32) (s : State) : Out :=
  laneInstr (.bra h imm) false s (fun x s => jump (fun _ _ => .goto (branchPc x.pc imm)) x s)

/-- BRX (R175). -/
def execBrx (h : Hdr) (a : Opnd) (s : State) : Out :=
  laneInstr (.brx h a) false s (jump (fun g l => .goto (g.pair a l)))

/-- CALL (R177). -/
def execCall (h : Hdr) (imm : BitVec 32) (s : State) : Out :=
  laneInstr (.call h imm) false s (fun x s => jump (fun _ _ => .call (branchPc x.pc imm)) x s)

/-- CALLX (R177). -/
def execCallx (h : Hdr) (a : Opnd) (s : State) : Out :=
  laneInstr (.callx h a) false s (jump (fun g l => .call (g.pair a l)))

/-- RET (R177). -/
def execRet (h : Hdr) (s : State) : Out := laneInstr (.ret h) false s (jump (fun _ _ => .ret))

/-! ### Rejoin barriers (R179) -/

/-- Every lane of the enrolment mask waits at a REJOIN of barrier `n`. -/
def Group.allWaiting (g : Group) (n : Nat) (e : Word) : Bool := e &&& ~~~(g.lanesWhere (fun x => x.st == .rejoin n)) == 0

/-- The release test of barrier `n`. -/
def Group.releaseTest (g : Group) (n : Nat) : Group :=
  let e := mget 0 g.b n
  if e ≠ 0 ∧ g.allWaiting n e then ({ g with b := mdel g.b n }).resume e else g

/-- ENROL (R179). -/
def execEnrol (h : Hdr) (bn : Nat) (s : State) : Out :=
  laneInstr (.enrol h bn) false s (fun x s => x.done s (fun g => { g with b := mset 0 g.b bn (mget 0 g.b bn ||| x.act) }))

/-- LEAVE (R179). -/
def execLeave (h : Hdr) (bn : Nat) (s : State) : Out :=
  laneInstr (.leave h bn) false s (fun x s =>
    s.updGrp x.gid (fun g =>
      (({ g with b := mset 0 g.b bn (mget 0 g.b bn &&& ~~~x.act) }).advance x.run).releaseTest bn))

/-- REJOIN (R179). -/
def execRejoin (h : Hdr) (bn : Nat) (s : State) : Out :=
  laneInstr (.rejoin h bn) false s (fun x s =>
    s.updGrp x.gid (fun g =>
      let w := x.act &&& mget 0 g.b bn
      ((g.advance (x.run &&& ~~~w)).onLanes w (fun l => { l with st := .rejoin bn })).releaseTest bn))

/-! ### The team barrier and the end of lanes (R180, R181) -/

/-- The groups of a team, with their keys. -/
def State.teamGroups (s : State) (gang team : Nat) : List (Nat × Group) :=
  s.groups.filter (fun e => e.2.gang == gang && e.2.team == team && !e.2.isSeq)

/-- Change team `t` of gang `k`. -/
def State.updTeam (s : State) (k t : Nat) (f : Team → Team) : State :=
  { s with gangs := mupd s.gangs k (fun g => { g with teams := setAt f t g.teams }) }

/-- Team `t` of gang `k`. -/
def State.team (s : State) (k t : Nat) : Team := (mget {} s.gangs k).teams.getD t {}

/-- Every lane waiting at a TBAR advances one slot and is a candidate again. -/
def Group.passTbar (g : Group) : Group :=
  g.mapLanes (fun _ x => if x.st = .tbar then { x with pc := nextPc x.pc, st := .run, wait := 0 } else x)

/-- A group of the team holds the barrier back: a lane of it has not exited, and it has not arrived, or runs a gate
callee, for which it counts as not arrived (R181, R333). -/
def holdsBack (mask : BitVec 16) (g : Group) : Bool := g.live != 0 && (!mask.getLsbD g.grp || g.inCallee)

/-- The completion test of a team barrier (R181). -/
def State.tbarTest (s : State) (gang team : Nat) : State :=
  let t := s.team gang team
  let gs := s.teamGroups gang team
  if t.barMask = 0 ∨ gs.any (fun e => holdsBack t.barMask e.2) then s
  else
    let s := s.updTeam gang team (fun t => { t with barMask := 0, barGen := !t.barGen })
    gs.foldl (fun s e => s.updGrp e.1 Group.passTbar) s

/-- Group `gid` arrives at its team's barrier, once in a generation (R181). -/
def State.arrive (s : State) (g : Group) : State :=
  (s.updTeam g.gang g.team (fun t => { t with barMask := t.barMask ||| BitVec.ofNat 16 (2 ^ g.grp) })).tbarTest g.gang g.team

/-- TBARA (R181): in a gate callee the barrier is the group's own and completes at once (R333). -/
def execTbara (h : Hdr) (s : State) : Out :=
  laneInstr (.tbara h) false s (fun x s =>
    let s := s.updGrp x.gid (fun g => g.advance x.run)
    if x.act = 0 || x.g.inCallee then s else s.arrive x.g)

/-- TBAR (R181): with an empty Active the run advances. A wait in it may complete a register deadlock (R132). -/
def execTbar (h : Hdr) (s : State) : Out :=
  laneInstr (.tbar h) false s (fun x s =>
    if x.g.inCallee then s.updGrp x.gid (fun g => g.advance x.run)
    else
      let s := s.updGrp x.gid (fun g => (g.advance (x.run &&& ~~~x.act)).onLanes x.act (fun l => { l with st := .tbar }))
      if x.act = 0 then s else (s.arrive x.g).deadlockCheck x.g.core 64)

/-- End the lanes of `m` as EXIT does (R180): they leave every rejoin barrier. In a gate callee they have arrived at
GRET instead (R335). -/
def Group.endLanes (g : Group) (m : Word) : Group :=
  let g := g.onLanes m (fun l => { l with st := if g.inCallee then .gret else .exited })
  let g := { g with b := (g.b.map (fun e => (e.1, e.2 &&& ~~~m))).filter (fun e => e.2 != 0) }
  (List.range 16).foldl Group.releaseTest g

/-- No RUN lane of the handler in progress goes on: the handler ends as a TRET skip in which no lane returns
(R191). -/
def Group.handlerDone (g : Group) : Bool :=
  match g.hmode, g.trapq with
  | true, t :: _ => (List.range 32).all (fun l => !t.run.getLsbD l || (g.lane l).st == .exited || (g.lane l).st == .gret)
  | _, _ => false

/-- The messages of lanes `m` of a handler group count as done when their lanes end (R257). -/
def State.amCount (s : State) (gid : Nat) (m : Word) : State :=
  match s.grp? gid with
  | none => s
  | some g =>
    match g.am with
    | none => s
    | some (sl, q, left) =>
      let ended := left &&& m &&& g.lanesWhere (fun x => x.st == .exited)
      if ended = 0 then s
      else
        let s := s.updGrp gid (fun g => { g with am := some (sl, q, left &&& ~~~ended) })
        let x := mget {} s.slices sl
        let d : QDesc := mget {} x.qd q
        { s with slices := mput s.slices sl { x with qd := mput x.qd q { d with done := d.done + popMask ended } } }

/-- End the lanes of `m` of group `gid`, with the tests that follow (R132, R180, R181, R191, R257). -/
def State.endLanes (s : State) (gid : Nat) (m : Word) : State :=
  let s := s.updGrp gid (fun g => let g := g.endLanes m; if g.handlerDone then g.returnTrap .skip else g)
  let s := s.amCount gid m
  match s.grp? gid with
  | none => s
  | some g => if g.isSeq then s else (s.tbarTest g.gang g.team).deadlockCheck g.core 64

/-- The end of an AMDONE whose fence has completed (R258): it counts on st, the rest of the run advances, and the lanes of
Active end as by EXIT. -/
def State.amdoneEnd (s : State) (gid : Nat) (run act : Word) : State :=
  let s := s.updGrp gid (fun g => { (g.advance (run &&& ~~~act)) with block := .none })
  (s.addOp gid (some .st) (.reply none 0 [] none none)).endLanes gid act

/-- EXIT (R180). -/
def execExit (h : Hdr) (s : State) : Out :=
  laneInstr (.exit h) false s (fun x s =>
    let s := s.updGrp x.gid (fun g => g.advance (x.run &&& ~~~x.act))
    if x.act = 0 then s else s.endLanes x.gid x.act)

/-- YIELD (R180): the group's ready age is reset, so that every other ready group of its set issues before it. -/
def execYield (h : Hdr) (s : State) : Out :=
  laneInstr (.yield h) false s (fun x s => x.done s (fun g => if x.act = 0 then g else { g with readyAt := s.clk + 1 }))

/-! ### LNCH (R182) -/

/-- The scratchpad that a group's code reaches: its size in bytes and its contents (R53, R333). -/
def State.scratch (s : State) (g : Group) : Nat × Map Byte :=
  match g.callee? with
  | some f => (1024 * f.xkib, f.scratch)
  | none => let t := s.team g.gang g.team; (t.scratch, t.sp)

/-- Queue `q` of a context, by its local number. -/
def State.localQueue (s : State) (ctx q : Nat) : Option Nat :=
  (s.lqs.find? (fun e => e.2.ctx == ctx && e.2.num == q)).map (·.1)

/-- LNCH (R182): the queue and the record address are checked, then the record is copied; LNCH_APPEND appends it. -/
def execLnch (h : Hdr) (pd : Nat) (a : Opnd) (q : Nat) (s : State) : Out :=
  laneInstr (.lnch h pd a q) false s (fun x s =>
    if x.act = 0 then x.done s id
    else
      let addr := x.g.opnd a 1 x.lead
      let (size, sp) := s.scratch x.g
      match s.localQueue x.g.ctx q with
      | none => s.queueTrap x.gid (x.trap s 0x15 x.act x.act 0 0 q)
      | some k =>
        if addr % 128 ≠ 0 ∨ addr + 128 > size then
          s.queueTrap x.gid (x.trap s 0x0E x.act x.act (BitVec.ofNat 64 addr))
        else x.done (s.addOp x.gid (some .st) (.lnch pd k (mgets byteZero sp addr 128))) id)

/-! ### Traps (R188–R193) -/

/-- A trap taken by an instruction for the lanes of Active; the rest of the run advances (R188). -/
def softTrap (cause code detail : Nat) (x : Issue) (s : State) : State :=
  let s := s.updGrp x.gid (fun g => g.advance (x.run &&& ~~~x.act))
  if x.act = 0 then s else s.queueTrap x.gid (x.trap s cause x.act x.act 0 code detail)

/-- TRAP (R188). -/
def execTrap (h : Hdr) (imm : BitVec 32) (s : State) : Out :=
  laneInstr (.trap h imm) false s (softTrap 0x01 imm.toNat 0)

/-- BRK (R188, Table 11-9). -/
def execBrk (h : Hdr) (imm : BitVec 32) (s : State) : Out :=
  laneInstr (.brk h imm) false s (softTrap 0x02 imm.toNat 0xFFFFFFFF)

/-- TRET (R191): outside a handler it is illegal; with an empty Active it does nothing. -/
def execTret (h : Hdr) (skip : Bool) (s : State) : Out :=
  laneInstr (.tret h skip) false s (fun x s =>
    if x.act = 0 then x.done s id
    else if x.g.hmode then s.updGrp x.gid (fun g => g.returnTrap (if skip then .skip else .retry))
    else s.queueTrap x.gid (x.trap s 0x04 x.act x.act))

/-- The sixteen words of a trap record (Table 11-7). -/
def TrapRec.words (t : TrapRec) : List Nat :=
  [t.depth * 256 + t.cause, t.mask.toNat, t.pc.toNat % 2 ^ 32, t.pc.toNat / 2 ^ 32, t.addr.toNat % 2 ^ 32, t.addr.toNat / 2 ^ 32,
   t.regt.toNat % 2 ^ 32, t.regt.toNat / 2 ^ 32, t.code.toNat, t.word0.toNat, t.run.toNat, t.detail.toNat, 0, 0, 0, 0]

/-- TQRD (R193). -/
def execTqrd (h : Hdr) (d : Opnd) (s : State) : Out :=
  laneInstr (.tqrd h d) false s (fun x s => x.done s (fun g =>
    let ws := match x.g.trapq with | [] => [] | t :: _ => t.words
    g.writeD x d 1 false (fun l => ws.getD (l % 16) 0)))

end Sys2Proof.Machine
end

