-- ==== Sys2Proof/Machine/Memory.lean ====
section
/-! DEFINITION. Machine/Memory.lean: the memory and label instructions (R195–R210, R238) and the events by which their
accesses and waits end. -/

namespace Sys2Proof.Machine

/-! ### Forming and checking addresses (R197, R198, R218) -/

/-- A memory instruction at issue. -/
def Issue.desc (x : Issue) (kind : MemKind) (ty : Ty) (width : Nat) (cls : Option Cls) (dst : Option Opnd) (sc : Scope) (ord : Ord) : MemDesc :=
  { kind := kind, ty := ty, width := width, scope := sc, ord := ord, dst := dst, uni := x.once || kind == .monarm, cls := cls,
    pc := x.pc, word0 := x.word0, run := x.run, act := x.act, helpers := x.act &&& ~~~x.run, reissue := x.reissue }

/-- Where a load or a prefetch places its line (R201, R208). -/
def MemDesc.placed (m : MemDesc) (c : CacheH) : MemDesc := { m with l1 := c == .ca, nt := c == .nt }

/-- A destination, or none for z. -/
def dest (d : Opnd) : Option Opnd := match d with | .z => none | d => some d

/-- The lanes that form addresses: one under UNI, and one for MONARM (R197, R206). -/
def Issue.addrLanes (x : Issue) (m : MemDesc) : List Nat := if m.uni then [lowestLane x.act] else lanesOf x.act

/-- The accesses of a global instruction: its addresses and data, or those of the operand-log entry that re-issues
(R197, R213). -/
def Issue.accsOf (x : Issue) (m : MemDesc) (base : Opnd) (w64 : Bool) (off : Nat) (dat : Nat → Nat × Nat) : List Acc :=
  match x.reissue.bind (mfind x.g.log) with
  | some e =>
    (x.addrLanes m).map (fun l =>
      let slot := match mfind e.lanes l with
        | some p => p
        | none => ((e.lanes.map (fun (p : Nat × LogLane) => p.2)).headD { out := 0, va := 0 })
      let d := slot.data.toNat
      { lane := l, va := canonicalOf slot.va, data := d % 2 ^ (8 * m.width), data2 := d / 2 ^ (8 * m.width) % 2 ^ (8 * m.width) })
  | none =>
    (x.addrLanes m).map (fun l =>
      { lane := l, va := BitVec.ofNat 64 (x.g.opnd base (if w64 then 2 else 1) l + off), data := (dat l).1, data2 := (dat l).2 })

/-- Kinds that a watchpoint selects (DBG_WPCTL bits 1–4); label, prefetch and cache instructions are not tested
(R218). -/
def MemKind.wpBit : MemKind → Option Nat
  | .load => some 1
  | .store => some 2
  | .atom _ | .cas | .red _ => some 3
  | .monarm => some 4
  | _ => none

/-- The lowest comparator that an address hits (R218, Table 24-1). (DEDUCED, log 26) -/
def Dbg.wpHit (d : Dbg) (bit : Nat) (spm : Bool) (once : Option (Nat × DWord)) (pc : DWord) (a : Nat) : Option Nat :=
  (List.range 4).find? (fun n =>
    let c := bits d.wpctl (8 * n) 6
    bitAt c 0 && bitAt c bit && bitAt c 5 == spm && decide ((d.wplo.getD n 0).toNat ≤ a ∧ a < (d.wphi.getD n 0).toNat) &&
      once != some (4 + n, pc))

/-- The watchpoint hits of some addresses. -/
def State.wpHits (s : State) (x : Issue) (kind : MemKind) (spm : Bool) (as : List (Nat × Nat)) : List (Nat × Nat × Nat) :=
  match kind.wpBit with
  | none => []
  | some b =>
    let d := (mget {} s.cores x.g.core).dbg
    if d.wpctl = 0 then [] else as.filterMap (fun p => (d.wpHit b spm x.g.once x.pc p.2).map (fun n => (p.1, p.2, n)))

/-- A trap of a check at which no lane of the instruction is performed: MASK the failing lanes, RUN all of Active
(Table 12-3). -/
def Issue.noLane (x : Issue) (s : State) (cause : Nat) (lanes : List Nat) (addr detail : Nat) : State :=
  let run := x.act &&& x.run
  s.queueTrap x.gid (x.trap s cause (if x.once then run else maskOf lanes) run (BitVec.ofNat 64 addr) 0 detail)

/-- Lanes and addresses that fail a check, without the helper lanes. -/
def failing (x : Issue) (as : List (Nat × Nat)) (p : Nat → Bool) : List (Nat × Nat) :=
  as.filter (fun a => p a.2 && x.run.getLsbD a.1)

/-- Checks 1 to 3 of R198 in order: the trap of the first that fails, or `none`. -/
def State.checkAddrs (s : State) (x : Issue) (kind : MemKind) (spm : Bool) (bad1 : Nat → Bool) (cause1 align : Nat)
    (as : List (Nat × Nat)) : Option State :=
  match failing x as bad1 with
  | a :: r => some (x.noLane s cause1 ((a :: r).map (·.1)) a.2 0)
  | [] =>
    match failing x as (fun v => v % align != 0) with
    | a :: r => some (x.noLane s 0x12 ((a :: r).map (·.1)) a.2 0)
    | [] =>
      match (s.wpHits x kind spm as).filter (fun h => x.run.getLsbD h.1) with
      | h :: r => some (x.noLane s 0x03 ((h :: r).map (·.1)) h.2.1 ((h :: r).foldl (fun n p => min n p.2.2) 3))
      | [] => none

/-- Issue a global memory instruction (R197–R199, R211): its checks, the fence of a release (R69), then its accesses. A
helper lane that would fail a check receives 0 (R187). -/
def State.memIssue (s : State) (x : Issue) (m : MemDesc) (align : Nat) (as : List Acc) : State :=
  if x.act = 0 then s.updGrp x.gid (fun g => g.advance x.run)
  else
    let va := as.map (fun a => (a.lane, a.va.toNat))
    match s.checkAddrs x m.kind false (fun v => !canonical (BitVec.ofNat 64 v)) 0x0D align va with
    | some s => s.freeEntry x.gid x.reissue
    | none =>
      let hits := (s.wpHits x m.kind false va).map (·.1)
      let as := as.map (fun a =>
        if x.run.getLsbD a.lane then a
        else if !canonical a.va || a.va.toNat % align != 0 || hits.contains a.lane then { a with st := .done, res := 0 } else a)
      if m.ord = .rel ∨ m.ord = .ar then
        let s := s.startFence x.gid m.scope
        match s.grp? x.gid with
        | none => s
        | some g =>
          if s.fenceReady x.gid g m.scope then s.sendMem x.gid m as
          else if m.reissue.isSome then
            -- the fence of a re-issue holds its lanes alone (R214)
            s.updGrp x.gid (fun g => { (g.onLanes x.act (fun l => { l with st := .fence })) with fences := g.fences ++ [(x.act, m.scope, some (m, as))] })
          else s.updGrp x.gid (fun g => { g with block := .release m.scope m as })
      else s.sendMem x.gid m as

/-- Operand data of `w` registers; an inline constant of a float type is its value in the type (R105). -/
def Group.datum (g : Group) (ty : Ty) (o : Opnd) (l : Nat) : Nat :=
  (if ty.isFloat then g.opndT ty o l else g.opnd o ty.regs l) % 2 ^ ty.width

/-! ### Loads, stores and atomics of global memory (R199–R203) -/

/-- LD (R199). -/
def execLd (h : Hdr) (w64 : Bool) (ty : Ty) (sc : Scope) (ord : Ord) (chint : CacheH) (d a : Opnd) (off : BitVec 24) (s : State) : Out :=
  laneInstr (.ld h w64 ty sc ord chint d a off) true s (fun x s =>
    let m := (x.desc .load ty (ty.width / 8) (some .ld) (dest d) sc ord).placed chint
    s.memIssue x m m.width (x.accsOf m a w64 (offOf off) (fun _ => (0, 0))))

/-- ST (R200). -/
def execSt (h : Hdr) (w64 : Bool) (ty : Ty) (sc : Scope) (ord : Ord) (chint : CacheH) (a b : Opnd) (off : BitVec 24) (s : State) : Out :=
  laneInstr (.st h w64 ty sc ord chint a b off) false s (fun x s =>
    let m := x.desc .store ty (ty.width / 8) (some .st) none sc ord
    s.memIssue x m m.width (x.accsOf m a w64 (offOf off) (fun l => (x.g.datum ty b l, 0))))

/-- The class of an atomic: st where its result is discarded (R15). -/
def atomCls (d : Opnd) : Cls := if d = .z then .st else .ld

/-- ATOM (R202). -/
def execAtom (h : Hdr) (w64 : Bool) (op : AOp) (ty : Ty) (sc : Scope) (ord : Ord) (d a b : Opnd) (off : BitVec 24) (s : State) : Out :=
  laneInstr (.atom h w64 op ty sc ord d a b off) false s (fun x s =>
    let m := x.desc (.atom op) ty (ty.width / 8) (some (atomCls d)) (dest d) sc ord
    s.memIssue x m m.width (x.accsOf m a w64 (offOf off) (fun l => (x.g.datum ty b l, 0))))

/-- Compare value and new value of CAS: the halves of a pair or quad (R195). -/
def casData (g : Group) (ty : Ty) (b : Opnd) (l : Nat) : Nat × Nat :=
  let v := g.opnd b (2 * ty.regs) l
  (v % 2 ^ ty.width, v / 2 ^ ty.width % 2 ^ ty.width)

/-- CAS (R202). -/
def execCas (h : Hdr) (w64 : Bool) (ty : Ty) (sc : Scope) (ord : Ord) (d a b : Opnd) (off : BitVec 24) (s : State) : Out :=
  laneInstr (.cas h w64 ty sc ord d a b off) false s (fun x s =>
    let m := x.desc .cas ty (ty.width / 8) (some .ld) (dest d) sc ord
    s.memIssue x m m.width (x.accsOf m a w64 (offOf off) (casData x.g ty b)))

/-- RED (R202). -/
def execRed (h : Hdr) (w64 : Bool) (op : AOp) (ty : Ty) (sc : Scope) (ord : Ord) (a b : Opnd) (off : BitVec 24) (s : State) : Out :=
  laneInstr (.red h w64 op ty sc ord a b off) false s (fun x s =>
    let m := x.desc (.red op) ty (ty.width / 8) (some .st) none sc ord
    s.memIssue x m m.width (x.accsOf m a w64 (offOf off) (fun l => (x.g.datum ty b l, 0))))

/-! ### Scratchpad (R53, R199–R203, R333) -/

/-- First byte of the register alias (R53). -/
def aliasBase : Nat := 0x01000000

/-- A scratchpad address that reaches the team's scratchpad (or the gate's service scratch), or the register
alias. -/
def State.spOk (s : State) (g : Group) (a : Nat) : Bool :=
  a < (s.scratch g).1 || (aliasBase ≤ a && a < aliasBase + 128 * g.nregs)

/-- Read `n` bytes of the register alias: byte `4·i` is the word at key `i` of the window. -/
def aliasRead (v : Map Word) (off : Nat) : Nat → List Byte
  | 0 => []
  | n + 1 => BitVec.ofNat 8 (bits (mget 0 v (off / 4)).toNat (8 * (off % 4)) 8) :: aliasRead v (off + 1) n

/-- Write bytes through the register alias; the registers are no longer poisoned (R217). -/
def aliasWrite (g : Group) (off : Nat) : List Byte → Group
  | [] => g
  | b :: bs =>
    let w := (mget 0 g.v (off / 4)).toNat
    let k := 8 * (off % 4)
    let w := w % 2 ^ k + 2 ^ k * (b.toNat + 256 * (w / 2 ^ (k + 8)))
    aliasWrite { g with v := mset 0 g.v (off / 4) (BitVec.ofNat 32 w),
                        poison := if g.poison.isEmpty then g.poison else mdel g.poison (off / 4) } (off + 1) bs

/-- Read the scratchpad as group `gid` reaches it. -/
def State.spRead (s : State) (gid a n : Nat) : Nat :=
  match s.grp? gid with
  | none => 0
  | some g => if a ≥ aliasBase then leNat (aliasRead g.v (a - aliasBase) n) else leNat (mgets byteZero (s.scratch g).2 a n)

/-- Write the scratchpad as group `gid` reaches it. -/
def State.spWrite (s : State) (gid a n x : Nat) : State :=
  match s.grp? gid with
  | none => s
  | some g =>
    if a ≥ aliasBase then s.updGrp gid (fun g => aliasWrite g (a - aliasBase) (leBytes n x))
    else match g.frames with
      | f :: fs =>
        if f.kern then s.updTeam g.gang g.team (fun t => { t with sp := msets byteZero t.sp a (leBytes n x) })
        else s.updGrp gid (fun g => { g with frames := { f with scratch := msets byteZero f.scratch a (leBytes n x) } :: fs })
      | [] => s.updTeam g.gang g.team (fun t => { t with sp := msets byteZero t.sp a (leBytes n x) })

/-- Put a list in an order that the manual leaves open (R70, R203): a free choice at each place. -/
def State.anyOrder (s : State) : Nat → List Acc → List Acc × State
  | 0, as => (as, s)
  | k + 1, as =>
    match as with
    | [] => ([], s)
    | a :: t =>
      let (i, s) := s.choose as.length
      let p := as.getD i a
      let (r, s) := s.anyOrder k (eraseFirst (fun o => o == p) (a :: t))
      (p :: r, s)

/-- Two lanes name one address. -/
def sharedAddr : List Acc → Bool
  | [] => false
  | a :: as => as.any (fun b => b.va == a.va) || sharedAddr as

/-- Perform scratchpad accesses one after another. -/
def State.spPerform (s : State) (gid : Nat) (m : MemDesc) : List Acc → List Acc × State
  | [] => ([], s)
  | a :: as =>
    if a.st = .done then
      let (r, s) := s.spPerform gid m as
      (a :: r, s)
    else
      let old := s.spRead gid a.va.toNat m.width
      let s := match newValue m.kind m.ty old a.data a.data2 with
        | some x => s.spWrite gid a.va.toNat m.width x
        | none => s
      let t := match s.grp? gid with | some g => s.regtime g | none => s.now
      let (r, s) := s.spPerform gid m as
      ({ a with st := .done, res := old, tc := t } :: r, s)

/-- LDS, STS and ATOMS (R197–R204): checked, performed at the unified store, and counted until reported. (DEDUCED, log 23) -/
def State.spIssue (s : State) (x : Issue) (m : MemDesc) (noAlias : Bool) (base : Opnd) (off : Nat) (dat : Nat → Nat) : State :=
  if x.act = 0 then s.updGrp x.gid (fun g => g.advance x.run)
  else
    let as : List Acc := (lanesOf x.act).map (fun l =>
      { lane := l, va := BitVec.ofNat 64 ((x.g.opnd base 1 l + off) % 2 ^ 32), data := dat l })
    let va := as.map (fun a => (a.lane, a.va.toNat))
    let bad := fun v => !(s.spOk x.g v) || (noAlias && v ≥ aliasBase)
    match s.checkAddrs x m.kind true bad 0x0E m.width va with
    | some s => s
    | none =>
      let poisoned := if m.kind = .store ∨ x.g.poison.isEmpty then []
        else as.filter (fun a => x.run.getLsbD a.lane && a.va.toNat ≥ aliasBase &&
          (List.range ((m.width + 3) / 4)).any (fun i => (mfind x.g.poison ((a.va.toNat - aliasBase) / 4 + i)).isSome))
      match poisoned with
      | a :: r =>
        let k := maskOf ((a :: r).map (·.lane))
        let q := ((List.range ((m.width + 3) / 4)).findSome? (fun i => mfind x.g.poison ((a.va.toNat - aliasBase) / 4 + i))).getD ⟨0, 3⟩
        s.queueTrap x.gid (x.trap s 0x16 k k q.addr 0 q.code)
      | [] =>
        let hits := (s.wpHits x m.kind true va).map (·.1)
        let as := as.map (fun a =>
          if x.run.getLsbD a.lane then a
          else if bad a.va.toNat || a.va.toNat % m.width != 0 || hits.contains a.lane then { a with st := .done, res := 0 } else a)
        let (as, s) := if m.kind.isWrite && sharedAddr as then s.anyOrder as.length as else (as, s)
        let (as, s) := s.spPerform x.gid m as
        let s := s.addOp x.gid m.cls (.mem m as)
        s.updGrp x.gid (fun g => g.advance x.run)

/-- LDS (R199). -/
def execLds (h : Hdr) (ty : Ty) (d a : Opnd) (off : BitVec 24) (s : State) : Out :=
  laneInstr (.lds h ty d a off) true s (fun x s =>
    s.spIssue x (x.desc .load ty (ty.width / 8) (some .ld) (dest d) .team .none) false a (offOf off) (fun _ => 0))

/-- STS (R200). -/
def execSts (h : Hdr) (ty : Ty) (a b : Opnd) (off : BitVec 24) (s : State) : Out :=
  laneInstr (.sts h ty a b off) false s (fun x s =>
    s.spIssue x (x.desc .store ty (ty.width / 8) (some .st) none .team .none) false a (offOf off) (x.g.datum ty b))

/-- ATOMS (R202): the register alias is invalid for it (R198). -/
def execAtoms (h : Hdr) (op : AOp) (ty : Ty) (d a b : Opnd) (off : BitVec 24) (s : State) : Out :=
  laneInstr (.atoms h op ty d a b off) false s (fun x s =>
    s.spIssue x (x.desc (.atom op) ty (ty.width / 8) (some (atomCls d)) (dest d) .team .none) true a (offOf off) (x.g.datum ty b))

/-! ### Fences and waits (R205–R207) -/

/-- FENCE (R205). -/
def execFence (h : Hdr) (sc : Scope) (s : State) : Out :=
  laneInstr (.fence h sc) false s (fun x s =>
    if x.act = 0 then x.done s id
    else
      let s := s.startFence x.gid sc
      match s.grp? x.gid with
      | none => s
      | some g =>
        if s.fenceReady x.gid g sc then x.done s id
        else s.updGrp x.gid (fun g => { g with block := .fence sc x.run }))

/-- Every counter reads at most its bound (R17). -/
def Counters.within (c : Counters) (ld st cp mx mt : Nat) : Bool :=
  c.ld.n.toNat ≤ ld && c.st.n.toNat ≤ st && c.cp.n.toNat ≤ cp && c.mx.n.toNat ≤ mx && c.mt.n.toNat ≤ mt

/-- WAIT (R17, R205). -/
def execWait (h : Hdr) (nld nst ncp nmx nmt : Nat) (s : State) : Out :=
  laneInstr (.wait h nld nst ncp nmx nmt) false s (fun x s =>
    if x.act = 0 ∨ x.g.cnt.within nld nst ncp nmx nmt then x.done s id
    else s.updGrp x.gid (fun g => { g with block := .wait nld nst ncp nmx nmt x.run }))

/-- WAIT_RETURN (R17). -/
def execWaitReturn (gid : Nat) (s : State) : Out :=
  .next (match s.grp? gid with
    | none => s
    | some g =>
      match g.block with
      | .wait a b c d e lanes =>
        if g.cnt.within a b c d e then s.updGrp gid (fun g => { (g.advance lanes) with block := .none }) else s
      | _ => s)

/-- FENCE_COMPLETE (R68): the fence of a FENCE, an acquire, a release or an AMDONE. -/
def execFenceComplete (gid : Nat) (s : State) : Out :=
  .next (match s.grp? gid with
    | none => s
    | some g =>
      match g.block with
      | .amdone run act => if s.fenceReady gid g .device then s.amdoneEnd gid run act else s
      | _ => s.fenceComplete gid)

/-- MONARM (R206). (DEDUCED, log 29) -/
def execMonarm (h : Hdr) (w64 : Bool) (a : Opnd) (off : BitVec 24) (s : State) : Out :=
  laneInstr (.monarm h w64 a off) false s (fun x s =>
    let m := x.desc .monarm .b8 1 none none .device .none
    s.memIssue x m 1 (x.accsOf m a w64 (offOf off) (fun _ => (0, 0))))

/-- G at the scope of a monitored line (R206). -/
def lineGuard (key : Nat) : Nat :=
  if key ≥ 2 ^ 52 then guardTicks .domain else if isHost key then guardTicks .system else guardTicks .device

/-- MONARM_COMPLETE (R206): the watcher is recorded and the core's Regulator reads at least T_a + G. -/
def execMonarmComplete (gid : Nat) (s : State) : Out :=
  .next (match s.grp? gid with
    | none => s
    | some g =>
      match g.block with
      | .monarm id _ lanes =>
        match (mfind s.ops id).map (·.accs) with
        | some (a :: _) =>
          let gone : State := { (s.updGrp gid (fun g => { (g.advance lanes) with block := .none })) with ops := mdel s.ops id }
          match a.st with
          -- an arm that fails (R360) is reported in the error record (R20)
          | .failed c => gone.addErr g.ctx (.item a.va c)
          | _ => if a.final && decide (a.tc + lineGuard a.key ≤ s.regtime g) then gone else s
        | _ => s
      | _ => s)

/-- Disarm a group's monitor (R207). -/
def State.disarm (s : State) (gid : Nat) : State :=
  (s.updGrp gid (fun g => { g with mon := {} })).trimWatch gid

/-- MWAIT (R207): it returns at once with no monitor armed, with the wake fired, or for A = 0. -/
def execMwait (h : Hdr) (pd : Nat) (a : Opnd) (s : State) : Out :=
  laneInstr (.mwait h pd a) false s (fun x s =>
    let n := x.g.opnd a 1 x.lead
    let mon := x.g.mon
    if x.act = 0 then x.done s id
    else if !mon.armed || mon.wake then x.done (s.disarm x.gid) (fun g => g.setPredAll pd true)
    else if n = 0 then x.done (s.disarm x.gid) (fun g => g.setPredAll pd false)
    else s.updGrp x.gid (fun g => { g with block := .mwait pd (s.regtime x.g + n) x.run }))

/-- MWAIT_TIMEOUT (R207). -/
def execMwaitTimeout (gid : Nat) (s : State) : Out :=
  .next (match s.grp? gid with
    | none => s
    | some g =>
      match g.block with
      | .mwait pd till lanes =>
        if s.resident g && decide (till ≤ s.regtime g) then
          (s.disarm gid).updGrp gid (fun g => { ((g.setPredAll pd false).advance lanes) with block := .none })
        else s
      | _ => s)

/-! ### Prefetch, write-back, invalidation (R208–R210) -/

/-- A prefetch is sent for the lanes whose address passes every check; a walk that it starts installs its translation (R62, R208). -/
def State.prefIssue (s : State) (x : Issue) (m : MemDesc) (as : List Acc) : State :=
  let as := as.filter (fun a => canonical a.va)
  let (as, s) := as.foldl (fun (p : List Acc × State) a =>
    let (t, s) := p.2.translate (dieOf x.g.cluster) x.g.ctx a.va .r
    match t with
    | .ok k lk mg => (p.1 ++ [{ a with key := k, lockok := lk, mig := mg, st := .wait }], s)
    | _ => (p.1, s)) ([], s)
  if as.isEmpty then s
  else s.sendOp { gid := 0, ctx := x.g.ctx, cluster := x.g.cluster, core := x.g.core, job := .outside, kind := .mem m as }

/-- PREF (R208): it changes no value, counter or instant and completes at issue; the line comes to L1 or to the cluster cache as a load of
no group. (DEDUCED, log 22) -/
def execPref (h : Hdr) (w64 : Bool) (chint : CacheH) (a : Opnd) (off : BitVec 24) (s : State) : Out :=
  laneInstr (.pref h w64 chint a off) false s (fun x s =>
    let m := x.desc (.pref (chint == .ca) (chint == .nt)) .b8 1 none none .device .none
    x.done ((s.prefIssue x m (x.accsOf m a w64 (offOf off) (fun _ => (0, 0)))).freeEntry x.gid x.reissue) id)

/-- CWB (R209). -/
def execCwb (h : Hdr) (w64 : Bool) (sc : Scope) (a : Opnd) (off : BitVec 24) (s : State) : Out :=
  laneInstr (.cwb h w64 sc a off) false s (fun x s =>
    let m := x.desc .cwb .b8 1 (some .st) none sc .none
    s.memIssue x m 1 (x.accsOf m a w64 (offOf off) (fun _ => (0, 0))))

/-- CINV (R210). -/
def execCinv (h : Hdr) (w64 : Bool) (sc : Scope) (a : Opnd) (off : BitVec 24) (s : State) : Out :=
  laneInstr (.cinv h w64 sc a off) false s (fun x s =>
    let m := x.desc .cinv .b8 1 none none sc .none
    s.memIssue x m 1 (x.accsOf m a w64 (offOf off) (fun _ => (0, 0))))

/-- The cluster runs a gang of the context (R210, R353). -/
def State.runsCtx (s : State) (ctx cluster : Nat) : Bool :=
  s.gangs.any (fun k => k.2.cluster == cluster && k.2.ctx == ctx)

/-- CINV drops a line from the L1s and the cache of the issuing cluster, where it may be owned: the owned line is written back and its
delegation returned (R210, R229). The home's bounds stand. -/
def State.cinvLine (s : State) (g : Group) (sc : Scope) (key : Nat) : State :=
  let line := lineOf key
  let s := s.dropL1 (fun core l => core / 4 == g.cluster && l == line)
  { s with copies := s.copies.map (fun c => if c.line == line && c.agent == s.agentAt g.cluster key then { c with held := false } else c),
           deleg := s.deleg.filter (fun d => !(d.line == line && d.cluster == g.cluster)),
           icache := s.icache.filter (fun e =>
             !(lineOf e.key == line && (e.cluster == g.cluster || (sc == .device && s.runsCtx g.ctx e.cluster)))) }

/-- CINV_COMPLETE (R210): the lines' deltas are pushed home first, then everything is dropped and the run goes on. -/
def execCinvComplete (gid : Nat) (s : State) : Out :=
  .next (match s.grp? gid with
    | none => s
    | some g =>
      match g.block with
      | .cinv id lanes =>
        match mfind s.ops id with
        | none => s
        | some o =>
          let sc := match o.desc? with | some m => m.scope | none => .cluster
          let as := o.accs.filter (fun a => a.st != .off)
          let s := s.pushWhere [] none (fun d => d.cluster == g.cluster && as.any (fun a => lineOf a.key == d.line))
          if as.any (fun a => s.pushing g.cluster (lineOf a.key)) then s
          else
            let s := as.foldl (fun s a => s.cinvLine g sc a.key) s
            { (s.updGrp gid (fun g => { (g.advance lanes) with block := .none })) with ops := mdel s.ops id }
      | _ => s)

/-! ### Label instructions (R238, R239) -/

/-- LBLRD. -/
def execLblrd (h : Hdr) (w64 : Bool) (d a : Opnd) (off : BitVec 24) (s : State) : Out :=
  laneInstr (.lblrd h w64 d a off) false s (fun x s =>
    let m := x.desc .lblrd .b32 1 (some .ld) (dest d) .device .none
    s.memIssue x m 1 (x.accsOf m a w64 (offOf off) (fun _ => (0, 0))))

/-- LBLSET: its data is the request value of Table 14-11. -/
def execLblset (h : Hdr) (w64 lock : Bool) (a b : Opnd) (off : BitVec 24) (s : State) : Out :=
  laneInstr (.lblset h w64 lock a b off) false s (fun x s =>
    let m := x.desc (.lblset lock) .b32 4 (some .st) none .device .none
    s.memIssue x m 1 (x.accsOf m a w64 (offOf off) (fun l => (x.g.opnd b 1 l, 0))))

/-- LBLCLR. -/
def execLblclr (h : Hdr) (w64 : Bool) (a : Opnd) (off : BitVec 24) (s : State) : Out :=
  laneInstr (.lblclr h w64 a off) false s (fun x s =>
    let m := x.desc .lblclr .b32 1 (some .st) none .device .none
    s.memIssue x m 1 (x.accsOf m a w64 (offOf off) (fun _ => (0, 0))))

/-! ### Events of accesses -/

/-- LOAD_DATA_ARRIVAL (R17, R177). -/
def execLoadDataArrival (op : Nat) (s : State) : Out :=
  .next (match (mfind s.ops op).map (fun (o : Op) => o.job) with
    | some .stack => s.stackEnd op
    | _ => s.loadArrival op)

/-- STORE_COMMIT_REPORT (R204). -/
def execStoreCommitReport (op : Nat) (s : State) : Out := .next (s.storeReport op)

/-- WALK_END (R211). (DESIGN CHOICE, log 17) -/
def execWalkEnd (gid : Nat) (s : State) : Out := .next (s.walkEnd gid)

/-- LABEL_VERDICT (R216), of a spill too. -/
def execLabelVerdict (gid : Nat) (s : State) : Out :=
  .next (match (s.grp? gid).map (fun (g : Group) => g.block) with
    | some (.stack op _) => s.stackEnd op
    | _ => s.labelVerdict gid)

/-- REPLAY_WAKE (R245). -/
def execReplayWake (slice : Nat) (tag : WakeTag) (s : State) : Out := .next (s.replayWake slice tag)

/-- DELTA_PUSH (R71): an entry is evicted; nothing is reported to a group. -/
def execDeltaPush (cluster line : Nat) (s : State) : Out :=
  .next (s.pushWhere [] none (fun d => d.cluster == cluster && d.line == line))

/-- OPERAND_LOG_REISSUE (R214): a resolved entry issues next, for its parked lanes alone. -/
def execOperandLogReissue (gid entry : Nat) (s : State) : Out :=
  .next (match s.grp? gid with
    | none => s
    | some g =>
      match mfind g.log entry with
      | some e => if s.resident g && !s.stopped g && g.reissue.isNone && e.lanes.any (fun l => l.2.res) then s.updGrp gid (fun g => { g with reissue := some entry }) else s
      | none => s)

/-- TRAP_DELIVERY (R190). -/
def execTrapDelivery (gid : Nat) (s : State) : Out := .next (s.takeTrap gid)

end Sys2Proof.Machine
end

