-- ==== Sys2Proof/Machine/Regs.lean ====
section
/-! DEFINITION. Machine/Regs.lean: the register window of a group (GROW, SHRINK, XGET, XPUT), predicates (PSET, PMOV)
and special registers (RDSR, WRSR) (R128–R142). -/

namespace Sys2Proof.Machine

/-! ### GROW and SHRINK (R130, R131) -/

/-- GROW (R130–R132): granted within the issue where the granules are free and no older request waits for them; else
the group blocks and the deadlock check runs. (DEDUCED, log 33) -/
def execGrow (h : Hdr) (must : Bool) (pd : Nat) (imm : BitVec 32) (s : State) : Out :=
  laneInstr (.grow h must pd imm) false s (fun x s =>
    let n := imm.toNat
    if x.act = 0 then x.done s id
    else if n ≤ x.g.nregs ∨ (s.growWaits x.g.core).foldl (fun k e => k + e.2.1) ((n - x.g.nregs) / 8) ≤ s.freeGranules x.g.core then
      s.growTo x.gid n pd x.run
    else
      (s.updGrp x.gid (fun g => { g with block := .grow n must pd x.run s.clk })).deadlockCheck x.g.core 64)

/-- SHRINK (R130): the contents of v(n) upward are lost. -/
def execShrink (h : Hdr) (imm : BitVec 32) (s : State) : Out :=
  laneInstr (.shrink h imm) false s (fun x s => x.done s (fun g =>
    let n := imm.toNat
    if x.act = 0 ∨ n ≥ g.nregs then g
    else { g with nregs := n, gmap := g.gmap.take (n / 8), v := g.v.filter (fun e => e.1 < 32 * n),
                  poison := g.poison.filter (fun e => e.1 < 32 * n || e.1 ≥ 32 * 512) }))

/-- GROW_GRANT (R131): granules have become free, and the oldest blocked GROW of the core takes them, all or
nothing. -/
def execGrowGrant (core : Nat) (s : State) : Out :=
  .next (match oldest (s.growWaits core) with
    | none => s
    | some e =>
      match s.grp? e.1 with
      | none => s
      | some g =>
        match g.block with
        | .grow n _ pd lanes _ => if s.grantable core e then s.growTo e.1 n pd lanes else s
        | _ => s)

/-- GROW_TIMEOUT (R131): a GROW.try that has waited 65,536 clk is refused. -/
def execGrowTimeout (gid : Nat) (s : State) : Out :=
  .next (match s.grp? gid with
    | none => s
    | some g =>
      match g.block with
      | .grow _ false _ _ since => if s.resident g && decide (s.clk ≥ since + 65536) then s.refuseGrow gid else s
      | _ => s)

/-! ### Special registers (R141, R142) -/

/-- Layout of %trapinfo (Table 11-8). -/
def Group.trapinfo (g : Group) : Nat :=
  let cause := match g.hmode, g.trapq with | true, t :: _ => t.cause | _, _ => 0
  256 * g.trapq.length + cause

/-- The value of a special register for lane `l` (Table 9-3). -/
def State.sreg (s : State) (x : Issue) (l : Nat) (r : SReg) : Nat :=
  let g := x.g
  let gang : Gang := mget {} s.gangs g.gang
  let lr := (mget {} s.launches g.launch).lr
  match r with
  | .laneid => l
  | .quadid => l / 4
  | .groupid => g.grp
  | .teamid => g.team
  | .gangx => gang.gx
  | .gangy => gang.gy
  | .gangz => gang.gz
  | .ngangx => lr.ngx
  | .ngangy => lr.ngy
  | .ngangz => lr.ngz
  | .active => x.act.toNat
  | .clock => s.clk
  | .regtime => s.regtime g
  | .ctime => g.ctime.toNat
  | .fpflags => g.fpflags.toNat
  | .cstack => g.cstack.toNat
  | .args => g.args.toNat
  | .regs => g.nregs
  | .coreid => g.core
  | .clusterid => g.cluster
  | .ctxid => g.ctx
  | .trapinfo => g.trapinfo

/-- RDSR (R141). -/
def execRdsr (h : Hdr) (d : Opnd) (sr : SReg) (s : State) : Out :=
  laneInstr (.rdsr h d sr) false s (fun x s => x.done s (fun g => g.writeD x d (SReg.words sr) false (fun l => s.sreg x l sr)))

/-- WRSR (R141, R142): %fpflags or %cstack, which is refused while entries are spilled. -/
def execWrsr (h : Hdr) (a : Opnd) (sr : SReg) (s : State) : Out :=
  laneInstr (.wrsr h a sr) false s (fun x s =>
    if x.act = 0 then x.done s id
    else match sr with
    | .cstack =>
      if x.g.lanes.any (fun l => decide (l.depth > 4)) then s.queueTrap x.gid (x.trap s 0x0A x.act x.act)
      else x.done s (fun g => { g with cstack := BitVec.ofNat 64 (x.g.opnd a 2 x.lead / 8 * 8) })
    | _ => x.done s (fun g => { g with fpflags := BitVec.ofNat 6 (x.g.opnd a 1 x.lead) }))

/-! ### Predicates (R135–R137) -/

/-- PSET (R136). -/
def execPset (h : Hdr) (pd : Nat) (a b : Opnd) (s : State) : Out :=
  laneInstr (.pset h pd a b) false s (fun x s =>
    x.done s (fun g => g.writeP x pd (fun l => (x.g.opnd a 1 l &&& x.g.opnd b 1 l) != 0)))

/-- PMOV (R137). -/
def execPmov (h : Hdr) (toP : Bool) (p : Nat) (r : Opnd) (s : State) : Out :=
  laneInstr (.pmov h toP p r) false s (fun x s => x.done s (fun g =>
    if !toP then g.writeD x r 1 false (fun _ => (x.g.pred p).toNat)
    else if x.act = 0 then g
    else if x.once then g.setPredBits p (BitVec.allOnes 32) (BitVec.ofNat 32 (x.g.opnd r 1 x.lead))
    else g.setPredBits p x.act (maskWhere (fun l => bitAt (x.g.opnd r 1 l) l))))

/-! ### Indexed registers (R133) -/

/-- Each lane's index. -/
def xIdx (x : Issue) (a b : Opnd) (l : Nat) : Nat := (x.g.opnd a 1 l + x.g.opnd b 1 l) % 2 ^ 32

/-- Lanes of Active whose index lies beyond the window; helper lanes do not fault (R187). -/
def xBad (x : Issue) (a b : Opnd) : List Nat :=
  (lanesOf x.act).filter (fun l => decide (xIdx x a b l ≥ x.g.nregs) && x.run.getLsbD l)

/-- The trap of an index out of range: no lane of Active is performed (R133). -/
def xTrap (x : Issue) (a b : Opnd) (bad : Nat) (s : State) : State :=
  s.queueTrap x.gid (x.trap s 0x08 (x.act &&& x.run) (x.act &&& x.run) 0 (xIdx x a b bad))

/-- Lanes of Active whose indexed register is poisoned (R217). -/
def xPoison (x : Issue) (a b : Opnd) : List Nat :=
  if x.g.poison.isEmpty then []
  else (lanesOf (x.act &&& x.run)).filter (fun l => (mfind x.g.poison (32 * xIdx x a b l + l)).isSome)

/-- XGET (R133): a poisoned register that it reads traps (R217). -/
def execXget (h : Hdr) (d a b : Opnd) (s : State) : Out :=
  laneInstr (.xget h d a b) true s (fun x s =>
    match xBad x a b, xPoison x a b with
    | l :: _, _ => xTrap x a b l s
    | [], l :: ls =>
      let m := maskOf (l :: ls)
      let q := mget ⟨0, 3⟩ x.g.poison (32 * xIdx x a b l + l)
      s.queueTrap x.gid (x.trap s 0x16 m m q.addr 0 q.code)
    | [], [] => x.done s (fun g => g.writeD x d 1 false (fun l =>
        if xIdx x a b l < x.g.nregs then regsAt x.g.v (xIdx x a b l) l 1 else 0)))

/-- XPUT (R133). -/
def execXput (h : Hdr) (a b c : Opnd) (s : State) : Out :=
  laneInstr (.xput h a b c) true s (fun x s =>
    match xBad x a b with
    | l :: _ => xTrap x a b l s
    | [] => x.done s (fun g => (lanesOf x.act).foldl (fun g l =>
        if xIdx x a b l < x.g.nregs then
          { g with v := putRegs g.v (xIdx x a b l) l 1 (x.g.opnd c 1 l),
                   poison := if g.poison.isEmpty then g.poison else mdel g.poison (32 * xIdx x a b l + l) }
        else g) g))

end Sys2Proof.Machine
end

