-- ==== Sys2Proof/Machine/Trace.lean ====
section
/-! DEFINITION. Machine/Trace.lean: the trace unit of a core (R376–R380) and TRMARK. -/

namespace Sys2Proof.Machine

def State.updDbg (s : State) (k : Nat) (f : Dbg → Dbg) : State := s.updCore k (fun c => { c with dbg := f c.dbg })

/-- Fields of DBG_TRCTL (Table 24-1). -/
def Dbg.traceOn (d : Dbg) : Bool := bitAt d.trctl 63
def Dbg.traceSum (d : Dbg) : Bool := bitAt d.trctl 62
def Dbg.traceTile (d : Dbg) : Bool := bitAt d.trctl 61
def Dbg.traceCtx (d : Dbg) : Nat := d.trctl % 2 ^ 32
/-- Record slots of the buffer (R380). -/
def Dbg.slots (d : Dbg) : Nat := 64 * d.trsize

/-- Who a record speaks of (Table 24-2). -/
structure TraceId where
  kind : Nat
  cluster : Nat
  core : Nat
  ctx : Nat
  regt : Nat
  name : Nat
  gang : Nat
  team : Nat
  grp : Nat
  deriving DecidableEq, Repr

/-- The identity of a group's records: PID and TID are those of the context that launched it (R371); a sequencer names
group 0xF (R379). -/
def State.traceId (s : State) (g : Group) (kind : Nat) : TraceId :=
  { kind := kind, cluster := g.cluster, core := g.core, ctx := g.ctx, regt := s.regtime g, name := mget 0 s.dbgNames g.ctx0,
    gang := (mget {} s.gangs g.gang).idx, team := g.team, grp := if g.isSeq then 15 else g.grp }

/-- The 64 bytes of a record (Tables 24-2 and 24-3), as one little-endian number. -/
def traceWord (h : TraceId) (b0 b1lo b1hi b2 b3 : Nat) : Nat :=
  leNat (packFields [(1, h.kind), (1, h.core % 256), (1, h.cluster), (1, 0), (4, h.ctx), (8, h.regt), (4, h.name / 2 ^ 32), (4, h.name % 2 ^ 32),
    (4, h.gang), (4, h.team * 16 + h.grp), (8, b0), (4, b1lo), (4, b1hi), (8, b2), (8, b3)])

/-- Address of a record slot. -/
def Dbg.slotVa (d : Dbg) (i : Nat) : Nat := d.trbase + 64 * (i % d.slots)

/-- The memory key of a record slot, if its page does not fail (R380). -/
def State.slotKey (s : State) (d : Dbg) (i : Nat) : Option (Nat × Leaf) :=
  match s.walk d.traceCtx (BitVec.ofNat 64 (d.slotVa i)) .w with
  | .leaf l => if l.pin && l.mt == 0 then some (l.key + (d.slotVa i - l.base), l) else none
  | _ => none

/-- Store a record in a slot as the core's cluster, and move the tail past it. The store goes home as the cluster's own. -/
def State.putRecord (s : State) (k : Nat) (d : Dbg) (slot key : Nat) (l : Leaf) (w : Nat) : State :=
  let s := s.install (dieOf (k / 4)) d.traceCtx l
  let m : MemDesc := { kind := .store, ty := .b128, width := 64 }
  let s := s.dropCopies (k / 4) k m key
  let s := s.sendOp { gid := 0, ctx := d.traceCtx, cluster := k / 4, core := k, job := .trace k slot,
                      kind := .mem m [{ lane := 0, va := BitVec.ofNat 64 (d.slotVa slot), key := key, data := w, mig := !l.nomig && !l.pin, st := .wait }] }
  s.updDbg k (fun d => { d with trtail := slot + 1 })

/-- DBG_TRTAIL as it reads: every slot below it holds its record (R380). -/
def State.trtail (s : State) (k : Nat) : Nat :=
  s.ops.foldl (fun n e => match e.2.job with | .trace c slot => if c = k then min n slot else n | _ => n) (s.core k).dbg.trtail

/-- Count a dropped record. -/
def Dbg.drop (d : Dbg) (regt : Nat) (pos pages va : Nat) : Dbg :=
  let n := if d.trdrop ≥ 2 ^ 32 - 1 then d.trdrop else d.trdrop + 1
  match d.gap with
  | some g => { d with trdrop := n, gap := some { g with dropped := g.dropped + 1 } }
  | none => { d with trdrop := n, gap := some { pos := pos, first := d.trtail, pages := pages, regt := regt, va := va } }

/-- Write the GAP record if space exists: the next page is tried, and a page that fails is skipped (R380). -/
def State.writeGap (s : State) (k : Nat) : State :=
  let d := (s.core k).dbg
  match d.gap with
  | none => s
  | some g =>
    if d.slots = 0 ∨ g.pos - d.trhead ≥ d.slots then s
    else match s.slotKey d g.pos with
    | none =>
      let va := if g.pages = 0 then d.slotVa g.pos / 4096 * 4096 else g.va
      s.updDbg k (fun d => { d with gap := some { g with pos := (g.pos / 64 + 1) * 64, pages := g.pages + 1, va := va } })
    | some (key, l) =>
      let h : TraceId := { kind := 5, cluster := k / 4, core := k, ctx := d.traceCtx, regt := s.now - mget 0 s.lagCl (k / 4),
                           name := mget 0 s.dbgNames d.traceCtx, gang := 0, team := 0, grp := 0 }
      (s.putRecord k d g.pos key l (traceWord h g.dropped g.first g.pages g.regt g.va)).updDbg k (fun d => { d with gap := none })

/-- Write one record, or drop and count it (R380). -/
def State.trace (s : State) (k : Nat) (w : Nat) : State :=
  let s := s.writeGap k
  let d := (s.core k).dbg
  let regt := s.now - mget 0 s.lagCl (k / 4)
  if d.gap.isSome || d.slots = 0 || d.trtail - d.trhead ≥ d.slots then s.updDbg k (fun d => d.drop regt d.trtail 0 0)
  else match s.slotKey d d.trtail with
    | some (key, l) => s.putRecord k d d.trtail key l w
    | none => s.updDbg k (fun d => d.drop regt ((d.trtail / 64 + 1) * 64) 1 (d.slotVa d.trtail / 4096 * 4096))

/-- The group's context is traced on its core (R376). -/
def State.traced (s : State) (g : Group) : Bool :=
  let d := (s.core g.core).dbg
  d.traceOn && g.ctx == d.traceCtx

/-- The group matches DBG_TRSEL (Table 24-1). -/
def State.selMatch (s : State) (d : Dbg) (g : Group) : Bool :=
  g.ctx == d.traceCtx && !g.isSeq
  && (bitAt d.trsel 62 || (mget {} s.launches g.launch).queue == bits d.trsel 48 10)
  && (bitAt d.trsel 61 || (mget {} s.gangs g.gang).idx == bits d.trsel 16 32)
  && (bitAt d.trsel 60 || g.team == bits d.trsel 4 2)
  && (bitAt d.trsel 59 || g.grp == bits d.trsel 0 4)

/-- The oldest resident group of a core that matches (groups are numbered in the order of their creation). -/
def State.selectGroup (s : State) (k : Nat) : Option Nat :=
  let d := (s.core k).dbg
  if d.traceOn then (s.groups.find? (fun e => e.2.core == k && s.selMatch d e.2 && !(mget {} s.ctxs e.2.ctx0).out)).map (·.1) else none

/-- Select a group when the selected one has ended (R376). -/
def State.reselect (s : State) (k : Nat) : State :=
  if (s.core k).dbg.sel.any (fun g => (s.grp? g).isSome) then s
  else
    let sel := s.selectGroup k
    s.updDbg k (fun d => { d with sel := sel })

/-- A SUMMARY record of a group, which starts its counts anew (Table 24-3). -/
def State.traceSummary (s : State) (gid : Nat) : State :=
  match s.grp? gid with
  | none => s
  | some g =>
    if s.traced g && (s.core g.core).dbg.traceSum && (s.core g.core).dbg.sel != some gid then
      (s.trace g.core (traceWord (s.traceId g 2) g.trIssues g.trParks g.trTraps g.trBlocked 0)).updGrp gid
        (fun g => { g with trIssues := 0, trParks := 0, trTraps := 0, trBlocked := 0 })
    else s

/-- The SUMMARY record of a group's start (R376). -/
def State.traceStart (s : State) (gid : Nat) : State :=
  match s.grp? gid with
  | none => s
  | some g => if s.traced g && !g.isSeq then (s.reselect g.core).traceSummary gid else s

/-- The records of one issue (R376): ISSUE for the selected group, SUMMARY at every 65,536th of another. -/
def State.traceIssue (s : State) (gid : Nat) (pc : DWord) (word0 act : Word) (uni paired : Bool) : State :=
  match s.grp? gid with
  | none => s
  | some g =>
    if g.isSeq || !(s.traced g) then s
    else
      let s := s.reselect g.core
      if (s.core g.core).dbg.sel = some gid then
        let parked := g.lanes.any (fun l => match l.st with | .parked _ => true | _ => false)
        s.trace g.core (traceWord (s.traceId g 1) pc.toNat act.toNat word0.toNat s.clk (b2n paired + 2 * b2n parked + 4 * b2n uni))
      else
        let s := s.updGrp gid (fun g => { g with trIssues := g.trIssues + 1 })
        if g.trIssues + 1 ≥ 65536 then s.traceSummary gid else s

/-- TRMARK (R379). -/
def execTrmark (h : Hdr) (a : Opnd) (imm : BitVec 32) (s : State) : Out :=
  laneInstr (.trmark h a imm) false s (fun x s =>
    let s := if x.act ≠ 0 && s.traced x.g then
        s.trace x.g.core (traceWord (s.traceId x.g 3) x.pc.toNat imm.toNat (x.g.opnd a 1 x.lead) x.act.toNat 0)
      else s
    x.done s id)

/-- TRACE_GAP_WRITE (R380). -/
def execTraceGapWrite (core : Nat) (s : State) : Out := .next (s.writeGap core)

/-- A write of DBG_TRSEL: the selection ends and the next matching group is selected (R376). -/
def State.writeTrsel (s : State) (core value : Nat) : State :=
  (s.updDbg core (fun d => { d with trsel := bits value 59 4 * 2 ^ 59 + bits value 16 42 * 2 ^ 16 + value % 64, sel := none })).reselect core

/-- DBG_TRSEL_WRITE (R376). -/
def execDbgTrselWrite (core value : Nat) (s : State) : Out := .next (s.writeTrsel core value)

end Sys2Proof.Machine
end

