-- ==== Sys2Proof/Machine/Issue.lean ====
section
/-! DEFINITION. Machine/Issue.lean: how a group or a sequencer issues: the run it picks (R42), the breakpoint test
(R374), the fetch of its block (R55), the decoding checks (R112), the interlocks that hold an issue (R16, R17, R43,
R212), and what follows an issue. -/

namespace Sys2Proof.Machine

/-! ### The run (R42, R214) -/

/-- The lowest PC among the lanes of a mask. -/
def Group.lowestPc (g : Group) (m : Word) : DWord :=
  (lanesOf m).foldl (fun p l => if (g.lane l).pc.toNat < p.toNat then (g.lane l).pc else p) (g.lane (lowestLane m)).pc

/-- Candidate lanes that have waited 224 issues (R42). -/
def Group.starved (g : Group) : Word := g.candidates &&& g.lanesWhere (fun x => decide (x.wait ≥ 224))

/-- The run of the candidate lanes that issues next. One that has waited 224 issues goes before the lowest one, once the
starvation guard has picked it (R42). -/
def Group.lowestRun (g : Group) : Option (Word × DWord × Option Nat) :=
  let c := g.candidates
  if c = 0 then none
  else
    let at_ := fun (p : DWord) => c &&& g.lanesWhere (fun x => x.pc == p)
    match g.pick with
    | some p => if at_ p = 0 then some (at_ (g.lowestPc c), g.lowestPc c, none) else some (at_ p, p, none)
    | none => if g.starved ≠ 0 then none else some (at_ (g.lowestPc c), g.lowestPc c, none)

/-- The run that issues next: its lanes, its PC, and the operand-log entry that re-issues, unless a handler in progress holds its
lanes (R190, R214). While a gate call waits, only a re-issue and a handler go on (R331). -/
def Group.nextRun (g : Group) : Option (Word × DWord × Option Nat) :=
  let low := if g.gcall.isNone || g.hmode then g.lowestRun else none
  match g.reissue with
  | some e =>
    let m := g.lanesWhere (fun x => x.st == .parked e)
    if m = 0 ∨ m &&& g.heldLanes ≠ 0 then low else some (m, (g.lane (lowestLane m)).pc, some e)
  | none => low

/-- The group may issue: it is resident and active, neither blocked nor held, and its trap queue has room outside a
handler (R38, R39, R188, R192). While a gate call waits, only a re-issue and a handler go on (R331). -/
def State.mayIssue (s : State) (g : Group) : Bool :=
  s.resident g && !s.stopped g && g.active && !g.dead && g.block == .none && (g.gcall.isNone || g.reissue.isSome || g.hmode) && !g.held && !g.dbgHeld && (g.hmode || g.trapq.length < 8)

/-! ### Breakpoints and fetch (R55, R374) -/

/-- The lowest breakpoint that matches an issue at `pc` (R374). -/
def State.bpMatch (s : State) (g : Group) (pc : DWord) : Option Nat :=
  let d := (s.core g.core).dbg
  if g.isSeq || d.bpctl = 0 || !(d.claim == 0 || d.claim == g.ctx) then none
  else (List.range 4).find? (fun n => bitAt d.bpctl (4 * n) && d.bp.getD n 0 == pc && g.once != some (n, pc))

/-- The 64-byte block that holds `pc`, as the cluster's instruction cache gives it; a stale block may still be read, as a
whole (R55). (DEDUCED, log 40) -/
def State.fetchBlock (s : State) (g : Group) (pc : DWord) : Except Nat (List Byte) × State :=
  let va := pc.toNat / 64 * 64
  match s.translate (dieOf g.cluster) g.ctx (BitVec.ofNat 64 va) .x with
  | (.ok key _ _, s) =>
    let fresh := mgets byteZero s.mem key 64
    let mine := fun (e : IcEnt) => e.cluster == g.cluster && e.ctx == g.ctx && e.va == va
    let keep (s : State) : Except Nat (List Byte) × State :=
      (.ok fresh, { s with icache := { cluster := g.cluster, ctx := g.ctx, va := va, key := key, bytes := fresh } ::
                                       s.icache.filter (fun e => !(mine e)) })
    match s.icache.find? mine with
    | some e =>
      if e.bytes = fresh then (.ok fresh, s)
      else
        let (k, s) := s.choose 2
        if k = 0 then (.ok e.bytes, s) else keep s
    | none => keep s
  | (t, s) => (.error t.code, s)

/-! ### Interlocks -/

/-- Registers that an outstanding operation is still to write (R17). -/
def OpKind.writes : OpKind → List OpUse
  | .mem m _ => match m.dst with | some d => [⟨.d, d, m.dstRegs, .any, true, false⟩] | none => []
  | .reply d w _ _ _ => match d with | some d => [⟨.d, d, w, .any, true, false⟩] | none => []
  | .tile _ (.trd d _) => [⟨.d, d, 4, .any, true, false⟩]
  | .mcont d _ _ => [⟨.d, d, 1, .any, true, false⟩]
  | .mrslt d _ _ _ _ _ _ => [⟨.d, d, 1, .any, true, false⟩]
  | .queue q => match q.dst with | some d => [⟨.d, d, 4, .any, true, false⟩] | none => []
  | .lnch _ _ _ | .tile _ _ | .seqop _ | .copy _ => []
/-- Predicates that an outstanding operation is still to write. -/
def OpKind.predWrites : OpKind → List Nat
  | .lnch pd _ _ => [pd]
  | .reply _ _ _ pd _ => pd.toList.map (·.1)
  | .queue q => [q.pd]
  | _ => []

/-- Two operands share a register. -/
def usesMeet (u v : OpUse) : Bool :=
  match u.o, v.o with
  | .v i, .v j => i < j + v.w && j < i + u.w
  | .s i, .s j => i < j + v.w && j < i + u.w
  | _, _ => false

/-- A vector register. -/
def isVec : Opnd → Bool
  | .v _ => true
  | _ => false

/-- Instructions that may read any register of the window by an index or an address (R53, R133). -/
def usesIndex : Instr → Bool
  | .xget _ _ _ _ | .xput _ _ _ _ | .lds _ _ _ _ _ | .sts _ _ _ _ _ => true
  | _ => false

/-- The class on which an instruction counts (R15). -/
def countsOn : Instr → Option Cls
  | .ld _ _ _ _ _ _ _ _ _ | .lds _ _ _ _ _ | .cas _ _ _ _ _ _ _ _ _ | .lblrd _ _ _ _ _ | .qdeq _ _ _ _ | .qstat _ _ _ => some .ld
  | .atom _ _ _ _ _ _ d _ _ _ | .atoms _ _ _ d _ _ _ => some (atomCls d)
  | .st _ _ _ _ _ _ _ _ _ | .sts _ _ _ _ _ | .red _ _ _ _ _ _ _ _ _ | .cwb _ _ _ _ _ | .lblset _ _ _ _ _ _ | .lblclr _ _ _ _
  | .lnch _ _ _ _ | .qenq _ _ _ _ | .amsg _ _ _ _ _ | .amdone _ => some .st
  | .cpy _ _ _ | .cpyr _ _ _ => some .cp
  | .mjoin _ _ _ _ | .mcont _ _ _ _ _ | .mleave _ _ _ _ => some .mt
  | .topen _ _ | .twr _ _ _ _ | .tseal _ _ | .tdrain _ _ | .trd _ _ _ _ | .tfree _ _ => some .mx
  | i => if i.seqOnly then some .mx else none

/-- Memory and label instructions, none of which issues while the operand log is full (R212). -/
def isMemory : Instr → Bool
  | .lds _ _ _ _ _ | .sts _ _ _ _ _ | .atoms _ _ _ _ _ _ _ | .fence _ _ | .wait _ _ _ _ _ _ | .mwait _ _ _ => true
  | i => isGlobal i

/-- Cross-lane instructions, the implicit rejoin points of R43. -/
def isCrossLane : Instr → Bool
  | .lxch _ _ _ _ _ _ _ | .qswp _ _ _ _ _ _ | .qbcst _ _ _ _ _ _ | .qhelp _ _ | .vote _ _ _ _ _ | .gred _ _ _ _ _ _
  | .gscan _ _ _ _ _ _ _ | .matchLanes _ _ _ _ _ _ | .rdlane _ _ _ _ _ _ | .wrlane _ _ _ _ _ | .qpack _ _ _ _ _ _ _ _ _ _
  | .dots _ _ _ _ _ _ _ _ _ | .tbar _ | .tbara _ | .grow _ _ _ _ | .shrink _ _ | .gcall _ _ _ => true
  | .rdsr h _ sr => h.uni && sr == .active
  | .pmov h toP _ _ => h.uni && !toP
  | _ => false

/-- A lane at a lower PC is parked, or held for a trap that is queued and not yet handled (R43). In handler mode only
the handler's RUN lanes count. -/
def Group.heldBack (g : Group) (pc : DWord) : Bool :=
  let waiting := match g.hmode, g.trapq with
    | true, t :: _ => g.lanesWhere (fun x => match x.st with | .parked _ => true | _ => false) &&& t.run
    | _, q => g.lanesWhere (fun x => match x.st with | .parked _ => true | _ => false) ||| q.foldl (fun m t => m ||| t.run) 0
  (lanesOf (waiting &&& g.live)).any (fun l => (g.lane l).pc.toNat < pc.toNat)

/-- Operations outstanding for a group. -/
def State.opsOf (s : State) (gid : Nat) : List Op := (s.ops.filter (fun e => e.2.gid == gid)).map (·.2)

/-- Something holds the issue of instruction `i` back: a register or predicate that an older operation is to write, a
counter at 63, lanes it must wait for, an mt counter that MLEAVE waits for, or a full operand log (R16, R17, R43, R212, R314). -/
def State.interlock (s : State) (gid : Nat) (g : Group) (i : Instr) (run : Word) (pc : DWord) (re : Option Nat) : Bool :=
  let os := s.opsOf gid
  let ws := os.flatMap (fun o => o.kind.writes)
  let ps := os.flatMap (fun o => o.kind.predWrites)
  let guard := match i.hdr.map (·.guard) with | some (.pred p _) => [p] | _ => []
  ws.any (fun u => i.opers.any (fun v => usesMeet u v))
  || (usesIndex i && ws.any (fun u => isVec u.o))
  || (guard ++ i.predUses.map (·.1)).any (fun p => p < 15 && ps.contains p)
  || (match countsOn i with | some k => (g.cnt.get k).n == 63 | none => false)
  || (match i with | .mleave _ _ _ _ => g.cnt.mt.n != 0 | _ => false)
  || (isCrossLane i && g.heldBack pc)
  || (re.isNone && g.log.length ≥ 4 && (isMemory i || g.spills i run pc))

/-! ### Issue -/

/-- What an attempt to issue comes to. -/
inductive Attempt
  /-- Nothing issues. -/
  | wait
  /-- A check fails: its trap is queued (R112, R374). -/
  | stopped (s : State)
  /-- Instruction `i` issues, with `State.cur` set. -/
  | go (i : Instr) (s : State)
  deriving DecidableEq, Repr

/-- A trap of the whole run before its instruction is known to be legal. -/
def State.runTrap (s : State) (gid : Nat) (g : Group) (cause : Nat) (run : Word) (pc : DWord) (addr : DWord) (word0 : Word) (detail : Nat) :
    State :=
  s.queueTrap gid { cause := cause, mask := run, pc := pc, addr := addr, regt := BitVec.ofNat 64 (s.regtime g), word0 := word0,
                    run := run, detail := BitVec.ofNat 32 detail }

/-- The lanes of a re-issued operand-log entry are parked no more (R214). -/
def State.unpark (s : State) (gid : Nat) (run : Word) (re : Option Nat) : State :=
  match re with
  | none => s
  | some _ => s.updGrp gid (fun g => g.resume run)

/-- A re-issue that a check has stopped: its entry is freed as the trap is queued (R215). -/
def State.dropReissue (s : State) (gid : Nat) (re : Option Nat) : State :=
  match re with
  | none => s
  | some e => s.updGrp gid (fun g => { g with reissue := none, log := mdel g.log e })

/-- What a group's attempt to issue comes to, were it its turn: the breakpoint test, then checks 1 to 4 of R112, then the interlocks
(DEDUCED, log 73). Where no word was fetched, at a breakpoint comparator or a FETCH_FAULT, WORD0 of the record is 0. (DESIGN CHOICE, log 86) -/
def State.attemptOf (s : State) (gid : Nat) : Attempt :=
  match s.grp? gid with
  | none => .wait
  | some g =>
    if !(s.mayIssue g) then .wait
    else match g.nextRun with
    | none => .wait
    | some (run, pc, re) =>
      let stop (s : State) (cause : Nat) (addr : DWord) (w0 : Word) (detail : Nat) : Attempt :=
        .stopped ((((s.unpark gid run re).runTrap gid g cause run pc addr w0 detail)).dropReissue gid re)
      match s.bpMatch g pc with
      | some n => stop s 0x02 0 0 n
      | none =>
        match s.fetchBlock g pc with
        | (.error d, s) => stop s 0x06 pc 0 d
        | (.ok block, s) =>
          let word := leNat ((block.drop (pc.toNat % 64)).take 12)
          let w0 := BitVec.ofNat 32 word
          if leNat ((block.drop 60).take 4) ≠ 0 then stop s 0x05 0 w0 0
          else match decode g.isSeq word with
          | .error _ => stop s 0x04 0 w0 0
          | .ok i =>
            if s.interlock gid g i run pc re then .wait
            else .go i { (s.unpark gid run re) with cur := some { gid := gid, run := run, pc := pc, word0 := w0, reissue := re } }

/-! ### Whose turn it is (R38–R41) -/

/-- A group could issue if it were in the active set (R39). (DEDUCED, log 58) -/
def State.couldIssue (s : State) (gid : Nat) : Bool :=
  match (s.updGrp gid (fun g => { g with active := true })).attemptOf gid with
  | .wait => false
  | _ => true

/-- The group is ready (R39, R40): resident, not blocked or held, with a run whose next instruction waits for nothing. -/
def State.isReady (s : State) (gid : Nat) (g : Group) : Bool :=
  s.mayIssue { g with active := true } && g.nextRun.isSome && (((s.opsOf gid).isEmpty && g.log.isEmpty) || s.couldIssue gid)

/-- Two groups of one partition (R38). -/
def samePart (g h : Group) : Bool := g.core == h.core && g.grp % 4 == h.grp % 4 && !g.isSeq && !h.isSeq

/-- A ready group must issue soon, within 16,384 clk of becoming ready (R40). -/
def State.owed (s : State) (g : Group) : Bool := !g.served && decide (g.readyAt + 12288 ≤ s.clk)

/-- Another ready group of the active set goes before the group: the one ready for longest (R40), but one that has not issued for so long that
it must issue soon before all others. (DEDUCED, log 85) -/
def State.turnOfOther (s : State) (gid : Nat) (g : Group) : Bool :=
  s.groups.any (fun e => e.1 != gid && samePart e.2 g && e.2.active &&
    (let o := s.owed e.2
     let m := s.owed g
     (o && !m) || (o == m && (decide (e.2.readyAt < g.readyAt) || (e.2.readyAt == g.readyAt && decide (e.1 < gid))))) &&
    s.isReady e.1 e.2)

/-- A group attempts to issue, where it is its turn (R40). -/
def State.attempt (s : State) (gid : Nat) : Attempt :=
  match s.grp? gid with
  | none => .wait
  | some g => if s.turnOfOther gid g then .wait else s.attemptOf gid

/-- Instructions that may issue for two groups at once (R41): the integer, floating-point and conversion instructions, opcodes 0x001 to 0x088. -/
def pairable (i : Instr) : Bool :=
  let f := i.fields
  1 ≤ f.opc && f.opc ≤ 0x88 && !(i.hdr.any (fun h => h.uni))

/-- Active of an issue, with its helper lanes left out. -/
def State.actOf (s : State) (c : Cur) (i : Instr) : Word :=
  match s.grp? c.gid, i.hdr with
  | some g, some h => if c.reissue.isSome && isGlobal i then c.run else activeMask g h c.run false
  | _, _ => 0

/-- The group that is paired with an issue `c` of instruction `i` (R41): of the same launch and partition, at the same PC, with disjoint
masks of at most 16 lanes each. -/
def State.partner (s : State) (c : Cur) (i : Instr) : Option Nat :=
  match s.grp? c.gid with
  | none => none
  | some g =>
    let act := s.actOf c i
    if !(pairable i) || g.isSeq || decide (popMask act > 16) then none
    else (s.groups.find? (fun e => e.1 != c.gid && samePart e.2 g && e.2.launch == g.launch && e.2.active &&
      (match s.attemptOf e.1 with
       | .go j t => (match t.cur with
          | some k => j == i && k.pc == c.pc && popMask (t.actOf k j) ≤ 16 && t.actOf k j &&& act == 0
          | none => false)
       | _ => false))).map (·.1)

/-- The lanes' waits after an issue: those that issued start anew, every other candidate has waited one issue more
(R42). -/
def Group.countWaits (g : Group) (run cands : Word) : Group :=
  g.mapLanes (fun l x => if run.getLsbD l then { x with wait := 0 } else if cands.getLsbD l then { x with wait := x.wait + 1 } else x)

/-- The re-issue's entry is still needed by the group's block, or holds parked lanes again (R214). -/
def State.entryBusy (s : State) (g : Group) (e : Nat) : Bool :=
  match g.block with
  | .walk id | .verdict id => ((mfind s.ops id).bind (fun o => o.desc?.bind (fun m => m.reissue))) == some e
  | .release _ m _ => m.reissue == some e
  | _ => false

/-- After an issue of an instruction by `c`: the waits, the trace records, and the end of the issue. `cands` are the candidates before it. What a
failed check of R112 stops counts as an issue for R42 and R376 where the word has been decoded (checks 5 and 6), and not before (checks 1 to 4).
(DESIGN CHOICE, log 87) -/
def State.issued (s : State) (c : Cur) (cands : Word) (act : Word) (uni paired : Bool) : State :=
  let s := s.updGrp c.gid (fun g =>
    { (g.countWaits c.run cands) with
      pick := none, reissue := none, served := decide (g.readyAt ≤ s.clk), word0 := c.word0,
      once := match g.once with | some (n, p) => if p = c.pc then none else some (n, p) | none => none })
  let s := match s.grp? c.gid, c.reissue with
    | some g, some e => if s.entryBusy g e then s else s.freeEntry c.gid (some e)
    | _, _ => s
  { (s.traceIssue c.gid c.pc c.word0 act uni paired) with cur := none }

end Sys2Proof.Machine
end

