-- ==== Sys2Proof/Machine/Service.lean ====
section
/-! DEFINITION. Machine/Service.lean: accesses that the hub, the launch scheduler and the slices' own units make for a
context, as agent 48, here or at a remote device (R224, R250). They go home as any access does; the event that makes one waits for it
(log 15). -/

namespace Sys2Proof.Machine

/-- The device as unit `dev` sees it, this one or a remote one: its own memory at its own addresses. -/
def State.viewOf (s : State) (dev : Option Nat) : State :=
  match dev with
  | none => s
  | some d =>
    let base := (d + 1) * 2 ^ 52
    { s with mem := (s.mem.filter (fun e => e.1 / 2 ^ 52 == d + 1)).map (fun e => (e.1 - base, e.2)) }

/-- Key of a context's descriptor: those of a remote device are listed apart. -/
def ctxKey (dev : Option Nat) (ctx : Nat) : Nat := match dev with | none => ctx | some d => 4096 * (d + 1) + ctx

/-- A key that device `dev` found, as this device numbers it. -/
def State.keyFrom (s : State) (dev : Option Nat) (key : Nat) : Nat :=
  match dev with
  | none => key
  | some d => if key < 2 ^ 52 then remoteKey d key else if key / 2 ^ 52 = s.devNo + 1 then key % 2 ^ 52 else key

/-- A translation for a context by the hub or a remote device: the heap window, or a fresh walk; nothing is installed
(DEDUCED, log 24). The key, LOCKOK and whether migration counts the page; else the walk outcome. -/
def State.svcTrans (s : State) (dev : Option Nat) (ctx : Nat) (va : DWord) (need : Need) : Except Nat (Nat × Bool × Bool) :=
  if !canonical va then .error 4
  else
    let c := mget {} s.ctxs (ctxKey dev ctx)
    if c.inWindow va.toNat then
      if c.windowPermits need then .ok (s.keyFrom dev ((va.toNat + c.hwOffset) % 2 ^ 52), false, false) else .error 2
    else match (s.viewOf dev).walkFrom va.toNat need c.root level4 [level3, level2, level1, level0] with
      | .notPresent => .error 1
      | .denied => .error 2
      | .badEntry _ => .error 3
      | .leaf l => .ok (s.keyFrom dev (l.key + (va.toNat - l.base)), l.lockok, !l.pin && !l.nomig)

/-- What an access for a context comes to. -/
inductive SvcRes
  /-- The value read and the instant. -/
  | ok (v tc : Nat)
  /-- It waits at its home slice, or for its instant. -/
  | wait
  /-- The walk's outcome; a locked label refuses as PROTECTION does (2), and a request that fails gives 16 and its status code. -/
  | fail (outcome : Nat)
  deriving DecidableEq, Repr

/-- A request to memory as agent 48, or as a unit of the remote device `dev`, made by the event `tag` (R224, R250). -/
def State.svcAsk (s : State) (tag : Nat × Nat) (dev : Option Nat) (ctx : Nat) (va : DWord) (n : Nat) (kind : MemKind) (data : Nat) : SvcRes × State :=
  match s.svcTrans dev ctx va (if kind.isWrite then .w else .r) with
  | .error o => (.fail o, s)
  | .ok (key, lk, mg) =>
    match s.ask { tag := tag, agent := if dev.isSome then remoteUnit else hubAgent, ctx := ctx, key := key, width := n, kind := kind, ty := .b64,
                  lockok := lk, mig := mg, data := data } with
    | (.done v tc, s) => (.ok v tc, s)
    | (.refused, s) => (.fail 2, s)
    | (.failed c, s) => (.fail (16 + c), s)
    | (.wait, s) => (.wait, s)

/-- Read, or write, `n` bytes for a context. -/
def State.svcAccess (s : State) (tag : Nat × Nat) (dev : Option Nat) (ctx : Nat) (va : DWord) (n : Nat) (store : Option Nat) : SvcRes × State :=
  match store with
  | some x => s.svcAsk tag dev ctx va n .store x
  | none => s.svcAsk tag dev ctx va n .load 0

/-- The status code of an outcome (Table 1-4): PAGE_ABSENT for NOT_PRESENT, else ACCESS_DENIED, or the code that a request failed with. -/
def outcomeStatus (o : Nat) : Nat := if o ≥ 16 then o - 16 else if o = 1 then 1 else 2

/-- Read through a context's tables as system software left them in physical memory. -/
def fieldAt (x off w : Nat) : Nat := bits x (8 * off) (8 * w)

end Sys2Proof.Machine
end

