-- ==== Sys2Proof/Machine/Gate.lean ====
section
/-! DEFINITION. Machine/Gate.lean: gates (21): GCALL, SYSC and GRET, the gate unit's service area, the entry and the end
of a call, forced unwinds and kernel gates. -/

namespace Sys2Proof.Machine

/-! ### Gate entries (R327) -/

/-- A gate entry read from its 64 bytes (Table 21-2). -/
def parseGate (x : Nat) : GateEnt :=
  let c := fieldAt x 0x10 4
  let r := fieldAt x 0x14 4
  let f := fieldAt x 0x18 4
  { entry := BitVec.ofNat 64 (fieldAt x 0 8), tctx := fieldAt x 8 4, timeout := fieldAt x 0xC 4,
    ress := bits c 15 5, resv := bits c 10 5, args := bits c 5 5, argv := bits c 0 5,
    scnt := bits r 16 9, vgran := bits r 0 7,
    valid := bitAt f 31, alllanes := bitAt f 11, nest := bitAt f 10, preempt := bitAt f 9, mayfault := bitAt f 8, scratchKib := bits f 0 5,
    trapent := BitVec.ofNat 64 (fieldAt x 0x20 8), callers := BitVec.ofNat 64 (fieldAt x 0x28 8),
    targs := BitVec.ofNat 64 (fieldAt x 0x30 8), tcstack := BitVec.ofNat 64 (fieldAt x 0x38 8),
    reserved := bits c 20 12 + bits r 25 7 + bits r 7 9 + bits f 12 19 + bits f 5 3 + fieldAt x 0x1C 4 }

/-- Every field lies within its limits and every reserved bit is zero; of a kernel gate only the named fields may be
non-zero (R327). -/
def GateEnt.ok (e : GateEnt) : Bool :=
  e.reserved == 0 && e.ress ≤ 16 && e.resv ≤ 16 && e.args ≤ 16 && e.argv ≤ 16 &&
  (if e.tctx = 0 then
    e.entry == 0 && e.scnt == 0 && e.vgran == 0 && !e.alllanes && !e.nest && !e.preempt && !e.mayfault && e.scratchKib == 0 &&
      e.trapent == 0 && e.targs == 0 && e.tcstack == 0
  else
    validCode e.entry && 16 ≤ e.scnt && e.scnt ≤ 384 && 2 ≤ e.vgran && e.vgran ≤ 64 && e.scratchKib ≤ 16 &&
      (e.trapent == 0 || validCode e.trapent) && (e.timeout != 0 || e.preempt))

/-! ### GCALL and SYSC (R330, R331, R339) -/

/-- The checks of R330 in order: the gate's entry, or `none` for the first that fails. -/
def State.gateCheck (s : State) (x : Issue) (kern : Bool) (k gi : Nat) : Option GateEnt :=
  let g := x.g
  let c := mget {} s.ctxs g.ctx
  let nested := match g.frames with | [] => true | f :: _ => f.nest
  if g.hmode || g.frames.length ≥ 4 || !nested || gi ≥ c.gtSize then none
  else
    let e := parseGate (s.readMem (c.gtBase + 64 * gi) 64)
    let target := if kern then e.tctx == 0 else e.tctx != 0 && e.tctx < 4096 && (mget {} s.ctxs e.tctx).live
    let counts := e.argv ≤ g.nregs && e.resv ≤ g.nregs && e.args ≤ g.sregs && e.ress ≤ g.sregs && k < g.sregs &&
      (kern || (e.argv ≤ 8 * e.vgran && e.resv ≤ 8 * e.vgran && e.args ≤ e.scnt && e.ress ≤ e.scnt))
    if e.valid && e.ok && e.callers.getLsbD c.gclass && target && !(e.alllanes && g.live &&& ~~~x.act != 0) && counts then some e
    else none

/-- GCALL and SYSC at issue: the checks, then the fence starts and the group waits for the gate unit; a GCALL's wait may
complete a register deadlock (R331). -/
def gateIssue (kern : Bool) (k gi : Nat) (x : Issue) (s : State) : State :=
  if x.act = 0 then x.done s id
  else match s.gateCheck x kern k gi with
    | none => s.queueTrap x.gid (x.trap s 0x17 x.act x.act 0 0 gi)
    | some e =>
      let w : GateWait := { k := k, g := gi, kern := kern, e := e, lanes := x.act, since := s.clk }
      let s := (s.startFence x.gid .device).updGrp x.gid (fun g => { g with gcall := some w })
      if kern then s else s.deadlockCheck x.g.core 64

/-- GCALL (R330, R331). -/
def execGcall (h : Hdr) (k g : Nat) (s : State) : Out := laneInstr (.gcall h k g) false s (gateIssue false k g)

/-- SYSC (R339). -/
def execSysc (h : Hdr) (k g : Nat) (s : State) : Out := laneInstr (.sysc h k g) false s (gateIssue true k g)

/-- GRET (R335): illegal outside a callee and in handler mode; lanes that execute it wait there. -/
def execGret (h : Hdr) (s : State) : Out :=
  laneInstr (.gret h) false s (fun x s =>
    if x.act = 0 then x.done s id
    else if !x.g.inCallee || x.g.hmode then s.queueTrap x.gid (x.trap s 0x04 x.act x.act)
    else s.updGrp x.gid (fun g => (g.advance (x.run &&& ~~~x.act)).onLanes x.act (fun l => { l with st := .gret })))

/-! ### Entering a gate (R332, R339) -/

/-- Registers `v0` to `v(n − 1)` of some lanes, of a map keyed as the vector window. -/
def lanesBelow {α : Type} (m : Map α) (n : Nat) (lanes : Word) : Map α :=
  m.filter (fun e => e.1 < 32 * n && lanes.getLsbD (e.1 % 32))

/-- Poison of the first `v` vector and `sc` scalar registers. -/
def poisonBelow (m : Map Poison) (v sc : Nat) (lanes : Word) : Map Poison :=
  m.filter (fun e => (e.1 < 32 * v && lanes.getLsbD (e.1 % 32)) || (e.1 ≥ 32 * 512 && e.1 < 32 * (512 + sc)))

/-- The frame that a call pushes: it saves the caller whole. -/
def Group.frameFor (g : Group) (t : Nat) (w : GateWait) (place : Nat × Nat) : Frame :=
  { retpc := nextPc (g.lane (lowestLane w.lanes)).pc, deadline := if w.e.timeout = 0 then none else some (t + w.e.timeout),
    caller := g.ctx, entered := w.lanes, kern := w.kern, gate := w.g, sdest := w.k, tctx := w.e.tctx, cbase := place.1, xbase := place.2,
    xkib := w.e.scratchKib, trapent := w.e.trapent, resv := w.e.resv, ress := w.e.ress, nest := w.e.nest, preempt := w.e.preempt,
    mayfault := w.e.mayfault, argn := w.e.args, argv := w.e.argv, bcore := g.core, gmap := g.gmap, lanes := g.lanes, v := g.v, sc := g.sc, p := g.p, b := g.b, nregs := g.nregs, sregs := g.sregs,
    cstack := g.cstack, args := g.args, fpflags := g.fpflags, helper := g.helper, mon := g.mon, poison := g.poison }

/-- THE CALL, in one step (R332): the caller's registers are set aside and the entered lanes start in a zeroed window, in the granules
`gs`, in the callee's context. (DEDUCED, log 54) -/
def Group.enter (g : Group) (w : GateWait) (f : Frame) (gs : List Nat) : Group :=
  let g := g.mapLanes (fun l x =>
    if w.lanes.getLsbD l then { pc := w.e.entry } else { x with st := if x.st = .exited then .exited else .outside, wait := 0, depth := 0, stack := [] })
  { g with v := lanesBelow g.v w.e.argv w.lanes, sc := g.sc.filter (fun e => e.1 < w.e.args), p := [], b := [], helper := 0, mon := {},
           fpflags := 0, ctx := w.e.tctx, args := w.e.targs, cstack := w.e.tcstack, nregs := 8 * w.e.vgran, sregs := w.e.scnt, gmap := gs,
           poison := poisonBelow g.poison w.e.argv w.e.args w.lanes, frames := f :: g.frames, gcall := none }

/-- Words of a request or result block: scalars, then for each entered lane its vector registers (R357). -/
def blockBytes (g : Group) (lanes : Word) (nv ns : Nat) : List Byte :=
  ((List.range ns).flatMap (fun k => leBytes 4 (g.opnd (.s k) 1 0))) ++
    (lanesOf lanes).flatMap (fun l => (List.range nv).flatMap (fun k => leBytes 4 (g.opnd (.v k) 1 l)))

/-- First byte of the hub window, and of the service area of a core in it (R347, R349). -/
def hubBase : Nat := 0x9000000000
def svcBase (core : Nat) : Nat := hubBase + 0x4000000 + 0x10000 * core

/-- A kernel gate's call (R339): the frame is pushed and the group parks; its request is still to be posted. -/
def Group.enterKernel (g : Group) (t : Nat) (w : GateWait) : Group :=
  { g with frames := g.frameFor t w (0, 0) :: g.frames, gcall := none, block := .sysc }

/-- The group's joined name (R371): process and thread id of the context that launched it, gang, team and group. -/
def State.joinedName (s : State) (g : Group) : List (Nat × Nat) :=
  let nm := mget 0 s.dbgNames g.ctx0
  [(4, nm / 2 ^ 32), (4, nm % 2 ^ 32), (4, (mget {} s.gangs g.gang).idx), (4, g.team * 16 + g.grp)]

/-- The request of a parked kernel call joins the system-call queue, once the service area has room for its block (R339, R357): the
manual lists no place in the entry for the joined name, which follows the listed fields. (DESIGN CHOICE, log 88) -/
def State.postSysc (s : State) (gid : Nat) : State :=
  match s.grp? gid with
  | none => s
  | some g =>
    match g.block, g.frames with
    | .sysc, f :: fs =>
      if f.req ≠ 0 then s
      else match firstFit (s.svcUsed g.core) 4 with
        | none => s
        | some b =>
          let id := s.nextId
          let s := ({ s with nextId := id + 1 }).updGrp gid (fun g => { g with frames := { f with req := id, cbase := b, bcore := g.core } :: fs })
          let s := s.updCore g.core (fun c => { c with svc := msets byteZero c.svc (1024 * b) (blockBytes g f.entered f.argv f.argn) })
          s.post (mget ({} : Ctx) s.ctxs g.ctx).syscq
            { kind := 4, ctx := g.ctx,
              body := [(8, id), (4, f.gate), (4, f.entered.toNat), (8, svcBase g.core + 1024 * b)] ++ s.joinedName g }
    | _, _ => s

/-- THE CALL of a group whose wait has ended: granules that were L1's lose their lines (R128, R332). -/
def State.enterGate (s : State) (gid : Nat) (g : Group) (w : GateWait) (place : Nat × Nat) : State :=
  let gs := s.freshGrans g.core w.e.vgran
  ((s.takeGrans g.core gs).updGrp gid (fun g => g.enter w (g.frameFor (s.regtime g) w place) gs)).trimWatch gid

/-- GATE_ENTER (R331, R332, R339): a waiting GCALL or SYSC has all that it waits for. Of the requests blocked on the core's granules or
its service area the oldest is granted first; where it cannot be, the register-deadlock check runs (R132). A SYSC waits for no room: its
request, or one held for room, is posted when there is some. -/
def execGateEnter (gid : Nat) (s : State) : Out :=
  .next (match s.grp? gid with
    | none => s
    | some g =>
      if !(s.resident g) || g.dead then s
      else match g.gcall with
      | none => s.postSysc gid
      | some w =>
        if s.stopped g || !(s.callReady gid g) then s
        else if w.kern then (s.updGrp gid (fun g => g.enterKernel (s.regtime g) w)).postSysc gid
        else match oldest (s.growWaits g.core) with
          | none => s
          | some e =>
            if !(s.grantable g.core e) then s.deadlockCheck g.core 64
            else if e.1 ≠ gid then s
            else match s.findPlace g.core w.e.scratchKib with
              | none => s
              | some (place, s) => s.enterGate gid g w place)

/-! ### The end of a call (R335, R336, R338) -/

/-- THE RETURN FROM A CALL (R335): the innermost frame is popped and its caller comes back as it left, with the results
when `results` holds, then the status word. -/
def Group.leave (g : Group) (results : Bool) (status cause : Nat) : Group :=
  match g.frames with
  | [] => g
  | f :: fs =>
    let back := fun (g : Group) => { g.onLanes f.entered (fun x => { x with pc := f.retpc, st := .run, wait := 0 }) with frames := fs, block := .none, gcall := none }
    let putStatus := fun (g : Group) => g.putLane (.s f.sdest) 1 0 (status + 256 * cause)
    if f.kern then putStatus (back g)
    else
      let nv := if results then f.resv else 0
      let ns := if results then f.ress else 0
      let keep {α : Type} (m : Map α) : Map α := m.filter (fun e => !(e.1 < 32 * nv && f.entered.getLsbD (e.1 % 32)))
      let keepP := fun (m : Map Poison) => (keep m).filter (fun e => !(e.1 ≥ 32 * 512 && e.1 < 32 * (512 + ns)))
      let merge {α : Type} (m n : Map α) : Map α := n.foldr (fun e m => mput m e.1 e.2) m
      putStatus (back
        { g with lanes := f.lanes, v := merge (keep f.v) (lanesBelow g.v nv f.entered),
                 sc := merge (f.sc.filter (fun e => e.1 ≥ ns)) (g.sc.filter (fun e => e.1 < ns)), p := f.p, b := f.b, helper := f.helper,
                 mon := f.mon, fpflags := f.fpflags, ctx := f.caller, args := f.args, cstack := f.cstack, nregs := f.nregs, sregs := f.sregs,
                 gmap := f.gmap,
                 poison := merge (keepP f.poison) (poisonBelow g.poison nv ns f.entered) })

/-- The innermost call of a group ends: its watchers, and its team's barrier, for which the group counts again (R333). -/
def State.endCall (s : State) (gid : Nat) (results : Bool) (status cause : Nat) : State :=
  let s := (s.updGrp gid (fun g => g.leave results status cause)).trimWatch gid
  match s.grp? gid with
  | none => s
  | some g => if g.inCallee then s else s.tbarTest g.gang g.team

/-- GATE_RETURN (R335): every entered lane has arrived at GRET; the group drains and fences, and the call ends. -/
def execGateReturn (gid : Nat) (s : State) : Out :=
  .next (match s.grp? gid with
    | none => s
    | some g =>
      match g.frames with
      | [] => s
      | f :: _ =>
        let arrived := f.entered &&& ~~~(g.lanesWhere (fun x => x.st == .gret)) == 0
        if f.kern || !(s.resident g) || g.gcall.isSome || !arrived || !g.quiet then s
        else match g.block with
          | .none =>
            let s := s.startFence gid .device
            match s.grp? gid with
            | none => s
            | some g => if s.fenceReady gid g .device then s.endCall gid true 0 0 else s.updGrp gid (fun g => { g with block := .gret })
          | .gret => if s.fenceReady gid g .device then s.endCall gid true 0 0 else s
          | _ => s)

/-! ### Forced unwinds (R338) -/

/-- A withdrawn system call's notice that is still held is dropped (R339). -/
def State.withdraw (s : State) (f : Frame) : State :=
  if f.kern then
    { s with hub := { s.hub with heldNotes := s.hub.heldNotes.filter (fun e => !(e.2.kind == 4 && e.2.body.head? == some (8, f.req) && f.req != 0)) } }
  else s

/-- What a block waits for is given up: an operation that no counter counts is forgotten. -/
def State.dropWait (s : State) (g : Group) : State :=
  match g.block with
  | .monarm id _ _ | .cinv id _ | .meet id _ => { s with ops := mdel s.ops id }
  | _ => s

/-- The last steps of a forced unwind (R338): parked items are reported CANCELLED, the trap queue is emptied, the frames
above go without results, and the frame ends with its status. -/
def State.performUnwind (s : State) (gid depth status cause : Nat) : State :=
  match s.grp? gid with
  | none => s
  | some g =>
    let s := g.log.foldl (fun s e => e.2.lanes.foldl (fun s l => s.addErr g.ctx (.item (l.2.va.signExtend 64) 0xC)) s) s
    let s := (g.frames.take (g.frames.length - depth)).foldl (fun s f => s.withdraw f) s
    -- an inner frame's caller is the frame below it: only the outermost one's saved caller is restored
    let s := s.updGrp gid (fun g =>
      { g with frames := g.frames.drop (g.frames.length - depth), log := [], trapq := [], hmode := false, reissue := none, fences := [],
               once := none })
    s.endCall gid false status cause

/-- Start the forced unwind of the frame at `depth` of a group, with its status and cause: a kernel gate's request is withdrawn at
once; an issue in progress (a walk, a label verdict, spills, a queue instruction at its slice) is waited for, since the lanes stop at
their next issue slot (R338, R339). -/
def State.unwindFrame (s : State) (gid depth status cause : Nat) : State :=
  match s.grp? gid with
  | none => s
  | some g =>
    match g.block, g.frames with
    | .walk _, _ | .verdict _, _ | .stack _ _, _ | .queue _, _ => s
    | .unwind d _ _ _, _ => if depth < d then s.updGrp gid (fun g => g.unwindTo depth status cause) else s
    | _, [] => s
    | _, f :: fs =>
      if f.kern ∧ depth = fs.length + 1 then (s.withdraw f).endCall gid false status cause
      else (s.dropWait g).updGrp gid (fun g => g.unwindTo depth status cause)

/-- The depth of the outermost frame that satisfies `p`. -/
def Group.outermost (g : Group) (p : Frame → Bool) : Option Nat :=
  (g.frames.reverse.findIdx? p).map (· + 1)

/-- A forced unwind under way ends once the counters have drained and its fence is satisfied (R338). -/
def State.unwindStep (s : State) (gid : Nat) (g : Group) (depth status cause : Nat) (fenced : Bool) : State :=
  if !g.drained then s
  else if fenced then (if s.fenceReady gid g .device then s.performUnwind gid depth status cause else s)
  else
    let s := s.startFence gid .device
    match s.grp? gid with
    | none => s
    | some g =>
      if s.fenceReady gid g .device then s.performUnwind gid depth status cause
      else s.updGrp gid (fun g => { g with block := .unwind depth status cause true })

/-- GATE_DEADLINE (R338): the deadline of a frame has passed, and its unwind with TIMEOUT starts; or an unwind under way, of any
cause, ends. (DEDUCED, log 55) -/
def execGateDeadline (gid : Nat) (s : State) : Out :=
  .next (match s.grp? gid with
    | none => s
    | some g =>
      if !(s.resident g) then s
      else
        let due := g.outermost (fun f => f.deadline.any (fun t => t ≤ s.regtime g))
        match g.block, due with
        | .unwind d st c f, some k => if k < d then s.unwindFrame gid k 8 0 else s.unwindStep gid g d st c f
        | .unwind d st c f, none => s.unwindStep gid g d st c f
        | _, some k => s.unwindFrame gid k 8 0
        | _, none => s)

/-! ### The end of a system call (R339, R357) -/

/-- The group that waits in a system call with request `req`. -/
def State.syscGroup (s : State) (req : Nat) : Option (Nat × Group) :=
  s.groups.find? (fun e => match e.2.frames with | f :: _ => e.2.block == .sysc && f.kern && f.req != 0 && f.req == req | [] => false)

/-- The caller block of a frame (R332), its parts in the order that R332 names them. (DESIGN CHOICE, log 89) -/
def Frame.callerBlock (f : Frame) : List Byte :=
  (wordBytes f.sc 384 ++ wordBytes f.p 15 ++ leBytes 4 0 ++ wordBytes f.b 16
    ++ f.lanes.flatMap (fun (x : Lane) => (List.range 4).flatMap (fun i => leBytes 8 ((x.stack.getD i 0).toNat)))
    ++ f.lanes.flatMap (fun (x : Lane) => leBytes 2 x.depth)
    ++ packFields [(8, f.cstack.toNat), (4, f.fpflags.toNat), (4, f.helper.toNat), (8, 128 * f.mon.line), (8, b2n f.mon.armed + 2 * b2n f.mon.wake)]
    ++ (List.range 64).flatMap (fun i => leBytes 2 (f.gmap.getD i 0xFFFF)) ++ List.replicate 4096 0).take 4096

/-- One byte of a core's service area (R331, R332, R334): a caller block, the service scratch of a callee, or what system cores and the
gate unit have put there. -/
def State.svcByte (s : State) (core o : Nat) : Byte :=
  let fs := (s.coreGroups core).flatMap (fun e => e.2.frames.filter (fun f => !f.kern))
  match fs.find? (fun f => 1024 * f.cbase ≤ o && o < 1024 * (f.cbase + 4)),
        fs.find? (fun f => 1024 * f.xbase ≤ o && o < 1024 * (f.xbase + f.xkib)) with
  | some f, _ => f.callerBlock.getD (o - 1024 * f.cbase) 0
  | none, some f => mget byteZero f.scratch (o - 1024 * f.xbase)
  | none, none => mget byteZero (mget {} s.cores core).svc o

/-- One byte at a physical address as the hub sees it: a core's service area in the hub window, else memory. -/
def State.hubByte (s : State) (a : Nat) : Byte :=
  if svcBase 0 ≤ a ∧ a < svcBase Config.nCores then
    s.svcByte ((a - svcBase 0) / 0x10000) ((a - svcBase 0) % 0x10000)
  else s.readByte a

/-- Word `i` of the block at `a`. -/
def State.blockWord (s : State) (a i : Nat) : Nat := leNat ((List.range 4).map (fun k => s.hubByte (a + 4 * i + k)))

/-- SYSC_DONE's effect on the group (R357): the results and the status word are written, and the group goes on. -/
def State.syscRelease (s : State) (gid a status : Nat) : State :=
  match s.grp? gid with
  | none => s
  | some g =>
    match g.frames with
    | [] => s
    | f :: fs =>
      let g := (List.range f.ress).foldl (fun (g : Group) k => g.putLane (.s k) 1 0 (s.blockWord a k)) g
      let pairs := mapFrom (fun i l => (i, l)) 0 (lanesOf f.entered)
      let g := pairs.foldl (fun (g : Group) (p : Nat × Nat) =>
        (List.range f.resv).foldl (fun (g : Group) k => g.putLane (.v k) 1 p.2 (s.blockWord a (f.ress + f.resv * p.1 + k))) g) g
      let g := { g with frames := fs, block := .none }
      let g := g.onLanes f.entered (fun x => { x with pc := f.retpc, st := .run, wait := 0 })
      s.updGrp gid (fun _ => g.putLane (.s f.sdest) 1 0 (status % 2 ^ 32))

end Sys2Proof.Machine
end

