-- ==== Sys2Proof/Machine/Convert.lean ====
section
/-! DEFINITION. Machine/Convert.lean: the meanings of the conversions, the packed moves and the narrow dot products
(R165–R172). -/

namespace Sys2Proof.Machine

/-- Element `i` of a conversion's source: an inline constant is the source type's value whatever the index
(R105; DEDUCED, log 13). -/
def Group.srcElem (g : Group) (ty : Ty) (o : Opnd) (i l : Nat) : Nat :=
  match o with
  | .c n => constCode ty n
  | o => if ty.width ≥ 32 then g.opnd o ty.regs l else element ty (g.opnd o 1 l) i

/-- A converted value put in element `i` of D, or in the whole of D for 32-bit and 64-bit types (R166). -/
def putElem (ty : Ty) (old i e : Nat) : Nat := if ty.width ≥ 32 then e else setElement ty old i e

/-- CVT (R166). -/
def execCvt (h : Hdr) (dty sty : Ty) (rnd : Rnd) (sat z nan : Bool) (d : Opnd) (di : Nat) (a : Opnd) (si : Nat)
    (s : State) : Out :=
  laneInstr (.cvt h dty sty rnd sat z nan d di a si) true s
    (alu d dty.regs z (fun g l =>
      let r := convert dty sty rnd sat (g.srcElem sty a si l)
      (putElem dty (g.opnd d 1 l) di r.1, r.2)))

/-- PACK (R168): A and B into elements 2j and 2j + 1. -/
def execPack (h : Hdr) (dty sty : Ty) (rnd : Rnd) (sat z nan : Bool) (d a b : Opnd) (j : Nat) (s : State) : Out :=
  laneInstr (.pack h dty sty rnd sat z nan d a b j) true s
    (alu d 1 z (fun g l =>
      let ra := convert dty sty rnd sat (g.srcElem sty a 0 l)
      let rb := convert dty sty rnd sat (g.srcElem sty b 0 l)
      (setElement dty (setElement dty (g.opnd d 1 l) (2 * j) ra.1) (2 * j + 1) rb.1, ra.2 ||| rb.2)))

/-- The exact widening of UNPK and QUNPK: floats to f32, integers to 32 bits by the source's signedness (R168). -/
def widen (sty : Ty) (x : Nat) : Bits :=
  if sty.isFloat then convert .f32 sty .rn false x else (wrap 32 (intVal sty x), 0)

/-- UNPK (R168): elements 2j and 2j + 1 of A into D and D + 1. -/
def execUnpk (h : Hdr) (dty sty : Ty) (z : Bool) (d a : Opnd) (j : Nat) (s : State) : Out :=
  laneInstr (.unpk h dty sty z d a j) true s
    (alu d 2 z (fun g l =>
      let r0 := widen sty (g.srcElem sty a (2 * j) l)
      let r1 := widen sty (g.srcElem sty a (2 * j + 1) l)
      (r0.1 + 2 ^ 32 * r1.1, r0.2 ||| r1.2)))

/-- The elements of QPACK: lane 4q + k gives element k + 4h, whatever its state (R169). -/
def qpackBits (g : Group) (dty sty : Ty) (rnd : Rnd) (sat : Bool) (a : Opnd) (hh q : Nat) : Nat → Nat → Bits
  | 0, old => (old, 0)
  | n + 1, old =>
    let k := 3 - n
    let r := convert dty sty rnd sat (g.srcElem sty a 0 (4 * q + k))
    let t := qpackBits g dty sty rnd sat a hh q n (setElement dty old (k + 4 * hh) r.1)
    (t.1, r.2 ||| t.2)

/-- QPACK (R169). -/
def execQpack (h : Hdr) (dty sty : Ty) (rnd : Rnd) (sat z nan : Bool) (d a : Opnd) (hh : Nat) (s : State) : Out :=
  laneInstr (.qpack h dty sty rnd sat z nan d a hh) true s
    (alu d 1 z (fun g l => qpackBits g dty sty rnd sat a hh (l / 4) 4 (g.opnd d 1 l)))

/-- QUNPK (R169): lane l widens element (l mod 4) + 4h of its own A. -/
def execQunpk (h : Hdr) (dty sty : Ty) (z : Bool) (d a : Opnd) (hh : Nat) (s : State) : Out :=
  laneInstr (.qunpk h dty sty z d a hh) true s
    (alu d 1 z (fun g l => widen sty (g.srcElem sty a (l % 4 + 4 * hh) l)))

/-- Σ of the products of the low `n` elements (R170). -/
def dotSum (ty : Ty) (a b : Nat) : Nat → Int
  | 0 => 0
  | n + 1 => intVal ty (element ty a n) * intVal ty (element ty b n) + dotSum ty a b n

/-- DOT4 and DOT8 (R170): the accumulator is s32 for a signed type and u32 for an unsigned one. -/
def dotBits (ty : Ty) (sat : Bool) (a b c : Nat) : Bits :=
  let acc : Ty := if ty.signed then .s32 else .u32
  putInt acc sat (intVal acc c + dotSum ty a b ty.perReg)

/-- DOT4 (R170). -/
def execDot4 (h : Hdr) (ty : Ty) (sat z : Bool) (d a b c : Opnd) (s : State) : Out :=
  laneInstr (.dot4 h ty sat z d a b c) true s
    (alu d 1 z (fun g l => dotBits ty sat (g.opnd a 1 l) (g.opnd b 1 l) (g.opnd c 1 l)))

/-- DOT8 (R170). -/
def execDot8 (h : Hdr) (ty : Ty) (sat z : Bool) (d a b c : Opnd) (s : State) : Out :=
  laneInstr (.dot8 h ty sat z d a b c) true s
    (alu d 1 z (fun g l => dotBits ty sat (g.opnd a 1 l) (g.opnd b 1 l) (g.opnd c 1 l)))

/-- The exact products of the low `n` elements (R171). -/
def dotTerms (ty : Ty) (a b : Nat) : Nat → List FRes
  | 0 => []
  | n + 1 => dotTerms ty a b n ++ [fmulV (fval ty (element ty a n)) (fval ty (element ty b n))]

/-- A value times 2^k. -/
def FVal.scale (v : FVal) (k : Int) : FVal :=
  match v with
  | .fin n m e => .fin n m (e + k)
  | v => v

/-- DOTS (R171): block scales `ea` and `eb`, accumulator `acc`. A NaN element, a NaN scale or an invalid sum sets
NV. -/
def dotsBits (ty : Ty) (a b ea eb acc : Nat) : Bits :=
  let ts := dotTerms ty a b ty.perReg
  let p := fsumV .rn (ts.map (·.1))
  if ea = 0xFF || eb = 0xFF || p.1.isNaN then (Ty.canonNaN .f32, fNV)
  else fresult .f32 .rn false (fsumV .rn [fval .f32 acc, p.1.scale ((ea : Int) - 127 + ((eb : Int) - 127))])

/-- The lane that supplies the scales of lane `l`'s block (Table 5-10). -/
def scaleLane (ty : Ty) (l : Nat) : Nat := if ty = .e2m1 then 4 * (l / 4) else 8 * (l / 8)

/-- DOTS (R98, R171). -/
def execDots (h : Hdr) (ty : Ty) (z : Bool) (d a b c : Opnd) (sa sb : Nat) (s : State) : Out :=
  laneInstr (.dots h ty z d a b c sa sb) true s
    (alu d 1 z (fun g l =>
      let sc := g.opnd c 1 (scaleLane ty l)
      dotsBits ty (g.opnd a 1 l) (g.opnd b 1 l) (bits sc (8 * sa) 8) (bits sc (8 * sb) 8) (g.opnd d 1 l)))

/-- The low `n` result bytes of PRMB (R172). -/
def prmbBytes (src sel : Nat) : Nat → Nat
  | 0 => 0
  | n + 1 =>
    let k := sel % 16
    (if k ≥ 8 then 0 else bits src (8 * k) 8) + 256 * prmbBytes src (sel / 16) n

/-- PRMB (R172). -/
def execPrmb (h : Hdr) (z : Bool) (d a b c : Opnd) (s : State) : Out :=
  laneInstr (.prmb h z d a b c) true s
    (alu0 d 1 z (fun g l => prmbBytes (g.opnd a 1 l + 2 ^ 32 * g.opnd b 1 l) (g.opnd c 1 l) 4))

end Sys2Proof.Machine
end

