-- ==== Sys2Proof/Machine/Tile.lean ====
section
/-! DEFINITION. Machine/Tile.lean: the tile table and typed buffers, the lane-side tile instructions, and the gang signal
counters (R265–R277, R286). -/

namespace Sys2Proof.Machine

/-! ### Tiles (R265, R271) -/

def State.tile (s : State) (core t : Nat) : Tile := mget {} (s.core core).tiles t
def State.updTile (s : State) (core t : Nat) (f : Tile → Tile) : State :=
  s.updCore core (fun c => { c with tiles := mput c.tiles t (f (mget {} c.tiles t)) })

/-- The three buffers (R265). -/
inductive Buf
  | w | a | c
  deriving DecidableEq, Repr

def bufOf (t : Nat) : Buf := if t < 32 then .w else if t < 48 then .a else .c
/-- Bytes of a tile. -/
def tileSize (t : Nat) : Nat := if t < 48 then 16384 else 65536

/-- Consecutive bytes of a sparse map from key `k`. -/
def dense (k : Nat) : Nat → Map Byte → List Byte
  | 0, _ => []
  | n + 1, [] => 0 :: dense (k + 1) n []
  | n + 1, (j, b) :: t => if j = k then b :: dense (k + 1) n t else 0 :: dense (k + 1) n ((j, b) :: t)
/-- The sparse map of consecutive bytes from key `k`. -/
def sparse (k : Nat) : List Byte → Map Byte
  | [] => []
  | b :: bs => if b = 0 then sparse (k + 1) bs else (k, b) :: sparse (k + 1) bs

/-- The whole contents of a tile. -/
def Tile.bytes (x : Tile) (t : Nat) : List Byte := dense 0 (tileSize t) x.data

/-- Formats that use a bound scale tile (Table 17-11). -/
def MmaK.scaled : MmaK → Bool
  | .f8a | .f8b | .f6a | .f6b | .f4 | .i8 => true
  | _ => false

/-- A tiles that a CCVT writes (Table 17-12). -/
def ccvtTiles (dty : Ty) : Nat := if dty = .bf16 ∨ dty = .f16 ∨ dty = .f32 then 2 else 1

/-- Every tile that a queued operation names (R270). -/
def QEnt.names (e : QEnt) : List Nat :=
  match e.m with
  | .mma k c a b => [c, a, b] ++ (if k.scaled then e.scale.toList else [])
  | .lutbld d a => a :: (List.range 8).map (d + ·)
  | .lutmm _ c a b => [c, b] ++ (List.range 8).map (a + ·)
  | .czero c => [c]
  | .ccvt dty _ _ d c => c :: (List.range (ccvtTiles dty)).map (d + ·)
  | .tscl t | .tperm t => t.toList

/-- Entries of a core's queue that have not ended. -/
def State.seqLive (s : State) (core : Nat) : List QEnt :=
  (s.core core).queue.filter (fun e => !(e.till.any (fun t => t ≤ s.clk)))

/-- Queued or running operations that name a tile. -/
def State.queuedOn (s : State) (core t : Nat) : Nat := ((s.seqLive core).filter (fun e => e.names.contains t)).length

def TileSt.code : TileSt → Nat
  | .empty => 0 | .filling => 1 | .ready => 2 | .draining => 3

/-- The status word of TSTAT (Table 17-4). -/
def State.tileStatus (s : State) (core t : Nat) : Nat :=
  let x := s.tile core t
  min 15 (s.queuedOn core t) * 2 ^ 16 + b2n x.err * 2 ^ 5 + b2n x.sat * 2 ^ 4 + b2n ((s.core core).scale == some t) * 2 ^ 3
    + b2n x.team.isSome * 2 ^ 2 + x.st.code

/-- A Regulator reading in a core's cluster. -/
def State.coreTime (s : State) (core : Nat) : Nat := s.now - mget 0 s.lagCl (core / 4)

/-! ### The end of a tile's use (R273, R378) -/

/-- A stamp as an offset from FILL_START (Table 24-4). -/
def stampOff (fill : Nat) : Option Nat → Nat
  | none => 0xFFFFFFFF
  | some t => min (t - fill) 0xFFFFFFFE

/-- The TILE record of a tile that becomes EMPTY (R378). -/
def State.tileRecord (s : State) (core t status : Nat) : State :=
  let d := (s.core core).dbg
  let x := s.tile core t
  match x.team with
  | none => s
  | some (gang, team) =>
    let k : Gang := mget {} s.gangs gang
    if !(d.traceOn && d.traceTile && d.traceCtx == k.ctx) then s
    else
      let nm := mget 0 s.dbgNames k.ctx
      let fill := x.stamps.fill.getD (s.coreTime core)
      s.trace core (leNat (packFields [(1, 4), (1, core % 256), (1, t), (1, status), (4, k.idx), (4, k.ctx), (4, team % 4),
        (4, nm / 2 ^ 32), (4, nm % 2 ^ 32), (8, fill), (4, stampOff fill x.stamps.fillEnd), (4, stampOff fill x.stamps.wait),
        (4, stampOff fill x.stamps.cstart), (4, stampOff fill x.stamps.cend), (4, stampOff fill x.stamps.outEnd), (12, 0)]))

/-- A tile becomes EMPTY: its binding ends and its flags clear; the contents stay (R273). -/
def State.freeTile (s : State) (core t status : Nat) : State :=
  let s := s.tileRecord core t (if status = 0 && (s.tile core t).err then 6 else status)
  let s := s.updTile core t (fun x => { x with st := .empty, sat := false, err := false })
  s.updCore core (fun c => { c with scale := if c.scale = some t then none else c.scale })

/-- What a dead group's block still holds: an issue in progress, whose counted operation is yet to be sent or performed. -/
def Block.inIssue : Block → Bool
  | .walk _ | .verdict _ | .stack _ _ | .queue _ => true
  | _ => false

/-- An uncorrectable error in a typed buffer (R286): ERR is set, a gang error record is written, the sequencer and the
gang's groups stop, and its teams end with MATRIX_STORAGE_ERROR. Queued operations run to completion (R280); copy chunks not issued are
reported CANCELLED as their turn comes (`execChunkArbitration`). -/
def State.storageError (s : State) (core t : Nat) : State :=
  match (s.tile core t).team with
  | none => s
  | some (gang, team) =>
    let k : Gang := mget {} s.gangs gang
    let s := s.updTile core t (fun x => { x with err := true })
    let s := s.addErr k.ctx (.gang k.idx team t 0 6 0 (s.coreTime core) 0)
    let stop := fun (g : Group) => { g with dead := true, block := if g.block.inIssue then g.block else .none, gcall := none }
    { s with groups := s.groups.map (fun e => if e.2.gang == gang then (e.1, stop e.2) else e),
             gangs := mupd s.gangs gang (fun k => { k with teams := k.teams.map (fun x => if x.live then { x with status := max 6 x.status } else x) }) }

/-! ### The end of a queued operation (R270, R279, R378) -/

def MOp.dests : MOp → List Nat
  | .mma _ _ _ _ | .lutmm _ _ _ _ | .tscl _ | .tperm _ => []
  | .lutbld d _ => (List.range 8).map (d + ·)
  | .czero c => [c]
  | .ccvt dty _ _ d _ => (List.range (ccvtTiles dty)).map (d + ·)

/-- Tiles an operation reads, the accumulator among them, without a bound scale tile. -/
def MOp.inputs : MOp → List Nat
  | .mma _ c a b => [c, a, b]
  | .lutbld _ a => [a]
  | .lutmm _ c a b => [c, b] ++ (List.range 8).map (a + ·)
  | .czero _ => []
  | .ccvt _ _ _ _ c => [c]
  | .tscl t | .tperm t => t.toList

/-- Stamps of tiles. -/
def State.stamp (s : State) (core : Nat) (ts : List Nat) (f : Stamps → Nat → Stamps) : State :=
  let now := s.coreTime core
  ts.foldl (fun s t => s.updTile core t (fun x => { x with stamps := f x.stamps now })) s

/-- A first stamp stays. -/
def first (o : Option Nat) (t : Nat) : Option Nat := match o with | some x => some x | none => some t

/-- The new contents of a tile. -/
def State.fillTile (s : State) (core t : Nat) (bs : List Byte) (sat : Bool) : State :=
  s.updTile core t (fun x => { x with data := sparse 0 bs, bad := [], sat := x.sat || sat })

/-- The writes and the stamps of an operation that has ended (R279, R378). -/
def State.mxEnded (s : State) (core : Nat) (e : QEnt) : State :=
  let s := e.out.foldl (fun s r => s.fillTile core r.1 r.2.1 r.2.2) s
  let s := s.stamp core (e.m.inputs ++ e.scale.toList) (fun x t => { x with cend := some t })
  let s := s.stamp core e.m.dests (fun x t => { x with fillEnd := first x.fillEnd t })
  let s := match e.m with
    | .ccvt _ _ _ _ c => s.stamp core [c] (fun x t => { x with outEnd := some t })
    | _ => s
  match e.bad with | some t => s.storageError core t | none => s

/-- An entry's operation is over. -/
def State.over (s : State) (e : QEnt) : Bool := e.till.any (fun t => t ≤ s.clk)

/-- Note the ends of a core's operations: their writes are made now at the latest. Until then a tile that has been drained may still show
older bytes, for the wait for the queue orders no contents (R270, R277, R291). -/
def State.noteEnds (s : State) (core : Nat) : State :=
  let es := (s.core core).queue.filter (fun e => s.over e && !e.noted)
  let s := es.foldl (fun s e => s.mxEnded core e) s
  s.updCore core (fun c => { c with queue := c.queue.map (fun e => if s.over e then { e with noted := true } else e) })

/-! ### Lane-side tile instructions (R270, R272–R275) -/

/-- The state a lane-side instruction needs (Table 17-3). -/
def State.tileReady (s : State) (core t : Nat) (k : TileOp) : Bool :=
  let st := (s.tile core t).st
  match k with
  | .topen => st == .empty
  | .twr _ | .tseal => st == .filling
  | .tdrain => st == .ready && s.queuedOn core t == 0
  | .trd _ _ => st == .draining
  | .tfree => (st == .ready || st == .draining) && s.queuedOn core t == 0

/-- Offsets of a TWR or TRD, by lane. -/
def TileOp.offsets (k : TileOp) (act : Word) : List (Nat × Nat) :=
  match k with
  | .twr ws => (lanesOf act).zip (ws.map (·.1))
  | .trd _ rs => rs
  | _ => []

/-- A lane-side instruction whose tile is in the needed state issues: its offsets are checked, the new state is recorded,
it counts on mx, and the run advances. -/
def State.tileGo (s : State) (gid : Nat) (t : Nat) (k : TileOp) (run act : Word) : State :=
  match s.grp? gid with
  | none => s
  | some g =>
    let now := s.coreTime g.core
    let bad := (k.offsets act).filter (fun p => p.2 % 16 != 0 || p.2 ≥ tileSize t)
    match bad with
    | b :: _ =>
      -- ADDR is the smallest failing offset (R274)
      s.queueTrap gid { (s.lateTrap g 0x12 act (BitVec.ofNat 64 (bad.foldl (fun n p => min n p.2) b.2))) with mask := maskOf (bad.map (·.1)) }
    | [] =>
      let s := match k with
        | .topen => s.updTile g.core t (fun x => { x with st := .filling, stamps := { fill := some now } })
        | .tseal => s.updTile g.core t (fun x => { x with st := .ready, stamps := { x.stamps with fillEnd := some now } })
        | .tdrain => s.updTile g.core t (fun x => { x with st := .draining })
        | .tfree => (s.noteEnds g.core).freeTile g.core t 0
        | _ => s
      (s.addOp gid (some .mx) (.tile t k)).updGrp gid (fun g => g.advance run)

/-- Issue a lane-side tile instruction: a tile not allocated to the team is illegal (R265); an unmet state holds the run
(R270). (DEDUCED, log 45) -/
def tileOp (t : Nat) (k : Issue → TileOp) (x : Issue) (s : State) : State :=
  if x.act = 0 then x.done s id
  else if (s.tile x.g.core t).team ≠ some (x.g.gang, x.g.team) then s.queueTrap x.gid (x.trap s 0x04 x.act x.act)
  else
    -- a trap of the offset check reports the word being issued
    let s := s.updGrp x.gid (fun g => { g with word0 := x.word0 })
    if s.tileReady x.g.core t (k x) then s.tileGo x.gid t (k x) x.run x.act
    else s.updGrp x.gid (fun g => { g with block := .tile t (k x) s.clk x.run x.act })

/-- TOPEN. -/
def execTopen (h : Hdr) (t : Nat) (s : State) : Out := laneInstr (.topen h t) false s (tileOp t (fun _ => .topen))
/-- TWR (R274). -/
def execTwr (h : Hdr) (t : Nat) (a b : Opnd) (s : State) : Out :=
  laneInstr (.twr h t a b) false s (tileOp t (fun x => .twr ((lanesOf x.act).map (fun l => (x.g.opnd a 1 l, x.g.opnd b 4 l)))))
/-- TSEAL. -/
def execTseal (h : Hdr) (t : Nat) (s : State) : Out := laneInstr (.tseal h t) false s (tileOp t (fun _ => .tseal))
/-- TDRAIN. -/
def execTdrain (h : Hdr) (t : Nat) (s : State) : Out := laneInstr (.tdrain h t) false s (tileOp t (fun _ => .tdrain))
/-- TRD (R274). -/
def execTrd (h : Hdr) (d : Opnd) (t : Nat) (b : Opnd) (s : State) : Out :=
  laneInstr (.trd h d t b) false s (tileOp t (fun x => .trd d ((lanesOf x.act).map (fun l => (l, x.g.opnd b 1 l)))))
/-- TFREE. -/
def execTfree (h : Hdr) (t : Nat) (s : State) : Out := laneInstr (.tfree h t) false s (tileOp t (fun _ => .tfree))

/-- The core of team `k` of a sequencer's gang, if the team exists and lives (R279). -/
def State.teamCore (s : State) (gang k : Nat) : Option Nat :=
  match (mget {} s.gangs gang).teams[k]? with
  | some t => if t.live then some t.core else none
  | none => none

/-- TSTAT (R275, R279): a lane reads its own core's tile, a sequencer that of one team's core. -/
def execTstat (h : Hdr) (d : Opnd) (t team : Nat) (s : State) : Out :=
  laneInstr (.tstat h d t team) false s (fun x s =>
    if x.g.isSeq then
      if x.act = 0 then x.done s id
      else match s.teamCore x.g.gang team with
        | none => s.seqFault x.gid 0x04 t 0
        | some core => x.done s (fun g => g.writeD x d 1 false (fun _ => s.tileStatus core t))
    else x.done s (fun g => g.writeD x d 1 false (fun _ => s.tileStatus x.g.core t)))

/-- Write 16 bytes at an offset; where several lanes write there, each byte takes one lane's value, a free choice
(R274). -/
def State.landQuad (s : State) (core t o : Nat) (ds : List Nat) : State :=
  match ds with
  | [] => s
  | [x] => s.updTile core t (fun y => { y with data := msets byteZero y.data o (leBytes 16 x), bad := y.bad.filter (fun b => b < o || o + 16 ≤ b) })
  | x :: xs =>
    let p := (List.range 16).foldl (fun (p : List Byte × State) i =>
      let (k, s) := p.2.choose (x :: xs).length
      (p.1 ++ [BitVec.ofNat 8 (bits ((x :: xs).getD k x) (8 * i) 8)], s)) ([], s)
    p.2.updTile core t (fun y => { y with data := msets byteZero y.data o p.1, bad := y.bad.filter (fun b => b < o || o + 16 ≤ b) })

/-- The distinct offsets of some writes. -/
def offsetsOf : List (Nat × Nat) → List Nat → List Nat
  | [], acc => acc.reverse
  | (o, _) :: ws, acc => offsetsOf ws (if acc.contains o then acc else o :: acc)

/-- TILE_OPERATION_COMPLETE (R273, R274): TWR's bytes are written, TRD's data arrive, a TSEAL waits for the group's earlier
TWRs to the tile; the operation is reported to mx. -/
def execTileOperationComplete (op : Nat) (s : State) : Out :=
  .next (match mfind s.ops op with
    | none => s
    | some o =>
      match o.kind with
      | .tile t k =>
        match k with
        | .twr ws => (((offsetsOf ws []).foldl (fun s off => s.landQuad o.core t off ((ws.filter (fun w => w.1 == off)).map (·.2))) s)).endOp op
        | .trd d rs =>
          let x := s.tile o.core t
          let bytes := fun (off : Nat) => leNat (mgets byteZero x.data off 16)
          let hit := rs.any (fun r => x.bad.any (fun b => r.2 ≤ b && b < r.2 + 16))
          let undef := hit || x.err
          let vals := if undef then rs.map (fun r => (r.1, leNat (undefinedBytes (s.freeCtr + r.1) 16))) else rs.map (fun r => (r.1, bytes r.2))
          let s := if undef then { s with freeCtr := s.freeCtr + 32 } else s
          let s := (s.updGrp o.gid (fun g => g.putVals d 4 vals)).updTile o.core t (fun x =>
            { x with stamps := { x.stamps with outEnd := some (s.coreTime o.core) } })
          let s := s.endOp op
          if hit then s.storageError o.core t else s
        | .tseal =>
          if s.ops.any (fun e => e.1 < op && e.2.gid == o.gid && (match e.2.kind with | .tile t' (.twr _) => t' == t | _ => false)) then s
          else s.endOp op
        | _ => s.endOp op
      | _ => s)

/-! ### Gang signal counters (R276) -/

/-- The group, or the sequencer, that a matrix-engine wait belongs to; while it is switched out it waits on (R45, R47). -/
def State.whoId (s : State) (w : Who) : Option Nat :=
  (match w with
    | .grp gid => some gid
    | .seq gang => (mget ({} : Gang) s.gangs gang).seq).filter (fun gid => (s.grp? gid).any (fun g => s.resident g))

def State.signal (s : State) (gang n : Nat) : Word := mget 0 (mget {} s.gangs gang).sigs n

/-- The waits of an SQSIG have ended: mx is zero, and in lane code the fence of FENCE.cluster holds (R276). -/
def State.sqsigReady (s : State) (gid : Nat) (g : Group) : Bool := g.cnt.mx.n == 0 && (g.isSeq || s.fenceReady gid g .cluster)

/-- Add to a signal counter of a gang. -/
def State.signalAdd (s : State) (gang n : Nat) (a : Word) : State :=
  { s with gangs := mupd s.gangs gang (fun k => { k with sigs := mset 0 k.sigs n (mget 0 k.sigs n + a) }) }

/-- SQSIG (R276). -/
def execSqsig (h : Hdr) (n : Nat) (a : Opnd) (s : State) : Out :=
  laneInstr (.sqsig h n a) false s (fun x s =>
    let v := BitVec.ofNat 32 (x.g.opnd a 1 x.lead)
    if x.act = 0 then x.done s id
    else if s.sqsigReady x.gid x.g then x.done (s.signalAdd x.g.gang n v) id
    else s.updGrp x.gid (fun g => { g with block := .sqsig n v x.run }))

/-- SQSIG_ADD (R276). -/
def execSqsigAdd (who : Who) (s : State) : Out :=
  .next (match s.whoId who with
    | none => s
    | some gid =>
      match s.grp? gid with
      | none => s
      | some g =>
        match g.block with
        | .sqsig n a lanes =>
          if s.sqsigReady gid g then (s.signalAdd g.gang n a).updGrp gid (fun g => { (g.advance lanes) with block := .none }) else s
        | _ => s)

/-- The counter has reached a threshold (R276). -/
def reached (c a : Word) : Bool := decide ((c - a).toInt ≥ 0)

/-- An SQWAIT looks at its counter: once the threshold is reached the value may be captured, and in lane code FENCE.cluster
follows (R276). -/
def State.sqwaitTry (s : State) (gid : Nat) : State :=
  match s.grp? gid with
  | none => s
  | some g =>
    match g.block with
    | .sqwait n a cap since met run act =>
      let c := s.signal g.gang n
      if !met && !(reached c a) then s
      else
        let take := fun (g : Group) => if met then g else match cap with | some k => { g with sc := mset 0 g.sc k c } | none => g
        if g.isSeq || s.fenceReady gid g .cluster then s.updGrp gid (fun g => { ((take g).advance run) with block := .none })
        else s.updGrp gid (fun g => { (take g) with block := .sqwait n a cap since true run act })
    | _ => s

/-- SQWAIT (R276). -/
def execSqwait (h : Hdr) (n : Nat) (a : Opnd) (cap : Option Nat) (s : State) : Out :=
  laneInstr (.sqwait h n a cap) false s (fun x s =>
    if x.act = 0 then x.done s id
    else
      let v := BitVec.ofNat 32 (x.g.opnd a 1 x.lead)
      (s.updGrp x.gid (fun g => { g with block := .sqwait n v cap s.clk false x.run x.act })).sqwaitTry x.gid)

/-- SQWAIT_RETURN (R276). -/
def execSqwaitReturn (who : Who) (s : State) : Out :=
  .next (match s.whoId who with
    | none => s
    | some gid => s.sqwaitTry gid)

/-- SQWAIT_TIMEOUT (R276): after 2^24 clk a trap TILE_WAIT, or a sequencer fault, with detail 0x100 + n. -/
def execSqwaitTimeout (who : Who) (s : State) : Out :=
  .next (match s.whoId who with
    | none => s
    | some gid =>
      match s.grp? gid with
      | none => s
      | some g =>
        match g.block with
        | .sqwait n _ _ since false _ act =>
          if s.clk < since + 2 ^ 24 then s
          else if g.isSeq then s.seqFault gid 0x14 0xFF (0x100 + n)
          else (s.updGrp gid (fun g => { g with block := .none })).queueTrap gid (s.lateTrap g 0x14 act 0 (0x100 + n))
        | _ => s)

end Sys2Proof.Machine
end

