-- ==== Sys2Proof/Machine/Matrix.lean ====
section
/-! DEFINITION. Machine/Matrix.lean: the sequencer's matrix operations: their checks and issue, the execution of a core's
queue, and the exact arithmetic of R96, R97 and R99 (R268–R286). -/

namespace Sys2Proof.Machine

/-! ### Tile layouts (R268) -/

/-- `n` rows of `stride` bytes, each one little-endian number. -/
def rowsOf (stride : Nat) : Nat → List Byte → List Nat
  | 0, _ => []
  | n + 1, bs => leNat (bs.take stride) :: rowsOf stride n (bs.drop stride)

/-- Element `k` of `w` bits of a row. -/
def elem (w x k : Nat) : Nat := bits x (w * k) w

/-- One row from its elements. -/
def packRow (w : Nat) : List Nat → Nat
  | [] => 0
  | x :: xs => x % 2 ^ w + 2 ^ w * packRow w xs

/-- Element type of a multiply (Table 17-11). -/
def MmaK.ty : MmaK → Ty
  | .b16 => .bf16 | .h16 => .f16 | .f8a => .e4m3 | .f8b => .e5m2 | .f6a => .e3m2 | .f6b => .e2m3 | .f4 => .e2m1
  | .i8 => .s8 | .f32 => .f32 | .d64 => .f64
/-- K per operation (Table 17-2). -/
def MmaK.kt : MmaK → Nat
  | .f4 => 256 | .b16 | .h16 => 64 | .f32 => 32 | .d64 => 16 | _ => 128
/-- Columns (Table 17-2). -/
def MmaK.n : MmaK → Nat
  | .d64 => 64 | _ => 128
/-- Bytes from one row of a W tile to the next (Table 17-2). -/
def MmaK.wStride : MmaK → Nat
  | .f4 => 64 | .b16 | .h16 => 256 | .f32 | .d64 => 512 | _ => 128
/-- Clocks per operation (Table 17-2). -/
def MmaK.clocks : MmaK → Nat
  | .f6a | .f6b => 64 | .f32 | .d64 => 512 | _ => 128
/-- K-group size (Table 5-9). -/
def MmaK.group : MmaK → Nat
  | .f32 | .d64 => 1 | .b16 | .h16 => 16 | _ => 32
/-- Accumulator of the floating-point forms (Table 17-11). -/
def MmaK.acc : MmaK → Ty
  | .d64 => .f64 | _ => .f32

/-! ### The sums (R96, R97) -/

/-- Value of an element: that of MXINT8 is its integer times 2^-6 (Table 5-9). -/
def MmaK.val (k : MmaK) (x : Nat) : FVal :=
  match k with
  | .i8 => let v := toSigned 8 x; .fin (v < 0) v.natAbs (-6)
  | k => fval k.ty x

/-- The exact products of two rows of elements. -/
def products : List FVal → List FVal → List FVal
  | a :: as, b :: bs => (fmulV a b).1 :: products as bs
  | _, _ => []

/-- A zero sum is +0, however its products were signed (R96). -/
def plusZero : FVal → FVal
  | .fin n m e => if m = 0 then .fin false 0 0 else .fin n m e
  | v => v

/-- A K-group's sum with its scales, 2^0 each where none is bound; a scale 0xFF makes it NaN (R96). -/
def groupSum (as bs : List FVal) (sc : Option (Nat × Nat)) : FVal :=
  let p := plusZero (fsumV .rn (products as bs)).1
  match sc with
  | none => p
  | some (x, y) => if x = 0xFF ∨ y = 0xFF then .nan false else p.scale ((x : Int) - 127 + ((y : Int) - 127))

/-- C[i][j] of a floating-point form: its K-groups in increasing K, one rounding each (R96). -/
def mmaFloat (k : MmaK) (as bs : List FVal) (sc : Nat → Option (Nat × Nat)) (c : Nat) : Nat :=
  (List.range (k.kt / k.group)).foldl (fun acc q =>
    let xs := (as.drop (k.group * q)).take k.group
    let ys := (bs.drop (k.group * q)).take k.group
    (fresult k.acc .rn false
      (if k.group = 1 then ffmaV .rn (xs.headD (.fin false 0 0)) (ys.headD (.fin false 0 0)) (fval k.acc acc)
       else fsumV .rn [fval k.acc acc, groupSum xs ys (sc q)])).1) c

/-- An INT32 accumulation, clamped: the code and whether it clamped (R96). -/
def sumInt32 (c : Nat) (s : Int) : Nat × Bool :=
  let r := putInt .s32 true (toSigned 32 c + s)
  (r.1, r.2 != 0)

/-- The exact sum of integer products. -/
def dotInt : List Nat → List Nat → Int
  | a :: as, b :: bs => toSigned 8 a * toSigned 8 b + dotInt as bs
  | _, _ => 0

/-- π: the bound permutation or the identity (R99). -/
def permOf (perm : Option (List Nat)) (k : Nat) : Nat :=
  match perm with
  | none => k
  | some p => p.getD k k

/-- Each row of C in turn, from its number and its elements of A; an element is its code and whether it clamped. -/
def mmaRows (cw n : Nat) (cell : Nat → Nat → Nat → Nat × Bool) : Nat → List Nat → List Nat × Bool
  | _, [] => ([], false)
  | i, c :: cs =>
    let xs := (List.range n).map (fun j => cell i j (elem cw c j))
    let r := mmaRows cw n cell (i + 1) cs
    (packRow cw (xs.map (·.1)) :: r.1, xs.any (·.2) || r.2)

/-- C := C + A·B on one core (R96): the contents of the C tile and whether an INT32 accumulator clamped. -/
def mmaTile (k : MmaK) (perm : Option (List Nat)) (scale : Option (List Byte)) (a b c : List Byte) : List Byte × Bool :=
  let ks := (List.range k.kt).map (permOf perm)
  let w := k.ty.width
  let as := (rowsOf 128 128 a).map (fun r => ks.map (elem w r))
  let rows := rowsOf k.wStride k.kt b
  let bs := (List.range k.n).map (fun j => ks.map (fun t => elem w (rows.getD t 0) j))
  let int := k == .i8 && scale.isNone
  let af := if int then [] else as.map (fun r => r.map k.val)
  let bf := if int then [] else bs.map (fun r => r.map k.val)
  let nb := k.kt / 32
  let sc := fun (i j q : Nat) => scale.map (fun t => ((t.getD (nb * i + q) 0).toNat, (t.getD (8192 + 128 * q + j) 0).toNat))
  let cell := fun (i j c : Nat) =>
    if int then sumInt32 c (dotInt (as.getD i []) (bs.getD j []))
    else (mmaFloat k (af.getD i []) (bf.getD j []) (sc i j) c, false)
  let r := mmaRows k.acc.width k.n cell 0 (rowsOf 512 128 c)
  (r.1.flatMap (leBytes 512), r.2)

/-- The subset sum of mask `m` over four activations (R97). -/
def subsetSum (m : Nat) : Nat → List Nat → Int
  | _, [] => 0
  | n, x :: xs => (if bitAt m n then toSigned 8 x else 0) + subsetSum m (n + 1) xs

/-- The subset-sum tables of an A tile (R97, R269). -/
def lutTables (a : List Byte) : List Byte :=
  (rowsOf 128 128 a).flatMap (fun r => (List.range 32).flatMap (fun g => (List.range 16).flatMap (fun m =>
    leBytes 2 (wrap 16 (subsetSum m 0 ((List.range 4).map (fun n => elem 8 r (4 * g + n))))))))

/-- Weight of plane `m` of `b` (R97). -/
def planeWeight (b m : Nat) : Int := if m + 1 = b then -((2 ^ m : Nat) : Int) else ((2 ^ m : Nat) : Int)

/-- C := C + x·w by table look-up with `b`-bit weights (R97, R282). -/
def lutTile (b : Nat) (tables w c : List Byte) : List Byte × Bool :=
  let ts := rowsOf 1024 128 tables
  let planes := (List.range b).map (fun m => rowsOf 16 128 (w.drop (2048 * m)))
  let mask := fun (m g j : Nat) =>
    (List.range 4).foldl (fun x n => x + b2n (bitAt ((planes.getD m []).getD (4 * g + n) 0) j) * 2 ^ n) 0
  let masks := (List.range 128).map (fun j => (List.range b).map (fun m => (List.range 32).map (fun g => mask m g j)))
  let cell := fun (i j c : Nat) =>
    let t := ts.getD i 0
    sumInt32 c ((List.range b).foldl (fun s m =>
      s + planeWeight b m * (List.range 32).foldl (fun s g =>
        s + toSigned 16 (elem 16 t (16 * g + ((((masks.getD j []).getD m []).getD g 0))))) 0) 0)
  let r := mmaRows 32 128 cell 0 (rowsOf 512 128 c)
  (r.1.flatMap (leBytes 512), r.2)

def CSrc.ty : CSrc → Ty
  | .f32 => .f32 | .s32 => .s32 | .f64 => .f64

/-- Bytes of a destination row of a CCVT (Table 17-12). -/
def ccvtRow (dty : Ty) : Nat := if ccvtTiles dty = 2 then 256 else if dty = .e2m1 then 64 else 128

/-- One row converted: its bytes and whether an element clamped (R283). -/
def ccvtBytes (dty : Ty) (src : CSrc) (sat : Bool) (r : Nat) : List Byte × Bool :=
  let w := (CSrc.ty src).width
  let xs := (List.range (4096 / w)).map (fun j => convert dty (CSrc.ty src) .rn sat (elem w r j))
  (leBytes (ccvtRow dty) (packRow dty.width (xs.map (·.1))), xs.any (fun x => x.2 &&& fSAT != 0))

/-- Cut a list into tiles of 16 KiB, `n` of them, filled with zeros. -/
def cutTiles : Nat → List Byte → List (List Byte)
  | 0, _ => []
  | n + 1, bs => (bs.take 16384 ++ List.replicate (16384 - bs.length) 0) :: cutTiles n (bs.drop 16384)

/-- Clocks of an operation (Table 17-2, R282–R284). -/
def MOp.clocks : MOp → Nat
  | .mma k _ _ _ => k.clocks
  | .lutbld _ _ => 16
  | .lutmm wb _ _ _ => 16 * (wb + 1)
  | .czero _ => 32
  | .ccvt dty _ _ _ _ => 64 * ccvtTiles dty
  | .tscl _ => 1
  | .tperm _ => 4

/-- The tile operands of an operation in order, and whether each is of the kind it accepts (R265, R281–R284). -/
def MOp.kinds : MOp → List (Nat × Bool)
  | .mma _ c a b => [(c, bufOf c == .c), (a, bufOf a == .a), (b, bufOf b == .w)]
  | .lutbld d a => [(d, bufOf d == .a && bufOf (d + 7) == .a), (a, bufOf a == .a && !(d ≤ a && a < d + 8))]
  | .lutmm _ c a b => [(c, bufOf c == .c), (a, bufOf a == .a && bufOf (a + 7) == .a), (b, bufOf b == .w)]
  | .czero c => [(c, bufOf c == .c)]
  | .ccvt dty _ _ d c => [(d, bufOf d == .a && bufOf (d + ccvtTiles dty - 1) == .a), (c, bufOf c == .c)]
  | .tscl t | .tperm t => t.toList.map (fun t => (t, bufOf t != .c))

/-- The scale tile bound after everything queued on a core. -/
def State.scaleNow (s : State) (core : Nat) : Option Nat :=
  (s.core core).queue.foldl (fun b e => match e.m, e.till with | .tscl t, none => t | _, _ => b) (s.core core).scale

/-- The permutation bound after everything queued on a core. -/
def State.permNow (s : State) (core : Nat) : Option (List Nat) :=
  (s.core core).queue.foldl (fun b e => match e.m, e.till with
    | .tperm t, none => t.map (fun t => ((s.tile core t).bytes t).take 256 |>.map BitVec.toNat)
    | _, _ => b) (s.core core).perm

/-- The first `kt` entries of a table are a permutation of 0 … kt − 1 (R281). -/
def isPerm (kt : Nat) (p : List Nat) : Bool := (List.range kt).all (fun k => (p.take kt).contains k)

/-- The bound scale tile that an operation issued now would use. -/
def State.scaleFor (s : State) (core : Nat) (m : MOp) : Option Nat :=
  match m with
  | .mma k _ _ _ => if k.scaled then s.scaleNow core else none
  | _ => none

/-! ### Issue (R279) -/

/-- The cores that a selection names, each with its team: 0–3 one team, 4 every live team; `none` for a team that does not
exist or has ended. -/
def State.selCores (s : State) (gang sel : Nat) : Option (List (Nat × Nat)) :=
  let ts := mapFrom (fun i (t : Team) => (i, t)) 0 (mget {} s.gangs gang).teams
  if sel ≥ 4 then some ((ts.filter (fun t => t.2.live)).map (fun t => (t.1, t.2.core)))
  else (s.teamCore gang sel).map (fun core => [(sel, core)])

/-- Check 1 of R279 on one core: the tile at fault, 0xFF for a permutation that is none. -/
def State.mxFault (s : State) (gang : Nat) (m : MOp) (team core : Nat) : Option Nat :=
  match (m.dests ++ m.inputs).find? (fun t => (s.tile core t).team != some (gang, team)) with
  | some t => some t
  | none =>
    match m.kinds.find? (fun k => !k.2) with
    | some k => some k.1
    | none => match m with
      | .mma k _ _ _ => match s.permNow core with | some p => if isPerm k.kt p then none else some 0xFF | none => none
      | _ => none

/-- Check 2: the first tile that is not in the state that Table 17-3 asks for. -/
def State.mxUnmet (s : State) (m : MOp) (core : Nat) : Option Nat :=
  match m.dests.find? (fun t => (s.tile core t).st != .empty) with
  | some t => some t
  | none => (m.inputs ++ (s.scaleFor core m).toList).find? (fun t => (s.tile core t).st != .ready)

/-- What the checks of R279 say. -/
inductive MxTest
  | fault (tile : Nat)
  /-- A tile is not in its needed state. -/
  | states (tile : Nat)
  | full
  | go (cores : List Nat)
  deriving DecidableEq, Repr

def State.mxTest (s : State) (gang sel : Nat) (m : MOp) : MxTest :=
  match s.selCores gang sel with
  | none => .fault 0xFF
  | some cs =>
    match cs.findSome? (fun c => s.mxFault gang m c.1 c.2) with
    | some t => .fault t
    | none =>
      match cs.findSome? (fun c => s.mxUnmet m c.2) with
      | some t => .states t
      | none => if !(cs.all (fun c => decide ((s.seqLive c.2).length < 8))) then .full
      else .go (cs.map (·.2))

/-- Enter an operation in one core's queue and apply its state changes (R270, R279). -/
def State.enterQueue (s : State) (gang op : Nat) (m : MOp) (core : Nat) : State :=
  let sc := s.scaleFor core m
  let s := s.stamp core (m.inputs ++ sc.toList) (fun x t => { x with wait := first x.wait t })
  let s := m.dests.foldl (fun s t => s.updTile core t (fun x => { x with st := .ready, sat := false, stamps := {} })) s
  s.updCore core (fun c => { c with queue := c.queue ++ [{ op := op, gang := gang, m := m, scale := sc }] })

/-- A sequencer's operation is tried: a fault, a wait, or its issue on every selected core; with no core it completes at
once (R279). -/
def State.mxTry (s : State) (gid : Nat) (m : MOp) (sel : Nat) (since : Option Nat) : State :=
  match s.grp? gid with
  | none => s
  | some g =>
    match s.mxTest g.gang sel m with
    | .fault t => s.seqFault gid 0x04 t 0
    | .states _ => s.updGrp gid (fun g => { g with block := .seqop m sel (first since s.clk) })
    | .full => s.updGrp gid (fun g => { g with block := .seqop m sel none })
    | .go cores =>
      let id := s.nextId
      let s := s.addOp gid (some .mx) (.seqop cores)
      let s := cores.foldl (fun s c => s.enterQueue g.gang id m c) s
      let s := s.updGrp gid (fun g => { (g.advance 1) with block := .none })
      if cores.isEmpty then s.endOp id else s

/-- Issue of a queued operation. -/
def mxOp (sel : Nat) (m : MOp) (x : Issue) (s : State) : State :=
  if x.act = 0 then x.done s id else s.mxTry x.gid m sel none

def coreSel : CoreSel → Nat
  | .all => 4 | .core0 => 0 | .core1 => 1 | .core2 => 2 | .core3 => 3

/-- MMAB16 (R281). -/
def execMmab16 (h : Hdr) (core : CoreSel) (tc ta tb : Nat) (s : State) : Out :=
  laneInstr (.mmab16 h core tc ta tb) false s (mxOp (coreSel core) (.mma .b16 tc ta tb))
/-- MMAH16 (R281). -/
def execMmah16 (h : Hdr) (core : CoreSel) (tc ta tb : Nat) (s : State) : Out :=
  laneInstr (.mmah16 h core tc ta tb) false s (mxOp (coreSel core) (.mma .h16 tc ta tb))
/-- MMAF8A (R281). -/
def execMmaf8a (h : Hdr) (core : CoreSel) (tc ta tb : Nat) (s : State) : Out :=
  laneInstr (.mmaf8a h core tc ta tb) false s (mxOp (coreSel core) (.mma .f8a tc ta tb))
/-- MMAF8B (R281). -/
def execMmaf8b (h : Hdr) (core : CoreSel) (tc ta tb : Nat) (s : State) : Out :=
  laneInstr (.mmaf8b h core tc ta tb) false s (mxOp (coreSel core) (.mma .f8b tc ta tb))
/-- MMAF6A (R281). -/
def execMmaf6a (h : Hdr) (core : CoreSel) (tc ta tb : Nat) (s : State) : Out :=
  laneInstr (.mmaf6a h core tc ta tb) false s (mxOp (coreSel core) (.mma .f6a tc ta tb))
/-- MMAF6B (R281). -/
def execMmaf6b (h : Hdr) (core : CoreSel) (tc ta tb : Nat) (s : State) : Out :=
  laneInstr (.mmaf6b h core tc ta tb) false s (mxOp (coreSel core) (.mma .f6b tc ta tb))
/-- MMAF4 (R281). -/
def execMmaf4 (h : Hdr) (core : CoreSel) (tc ta tb : Nat) (s : State) : Out :=
  laneInstr (.mmaf4 h core tc ta tb) false s (mxOp (coreSel core) (.mma .f4 tc ta tb))
/-- MMAI8 (R281). -/
def execMmai8 (h : Hdr) (core : CoreSel) (tc ta tb : Nat) (s : State) : Out :=
  laneInstr (.mmai8 h core tc ta tb) false s (mxOp (coreSel core) (.mma .i8 tc ta tb))
/-- MMAF32 (R281). -/
def execMmaf32 (h : Hdr) (core : CoreSel) (tc ta tb : Nat) (s : State) : Out :=
  laneInstr (.mmaf32 h core tc ta tb) false s (mxOp (coreSel core) (.mma .f32 tc ta tb))
/-- MMAD64 (R281). -/
def execMmad64 (h : Hdr) (core : CoreSel) (tc ta tb : Nat) (s : State) : Out :=
  laneInstr (.mmad64 h core tc ta tb) false s (mxOp (coreSel core) (.mma .d64 tc ta tb))
/-- LUTBLD (R282). -/
def execLutbld (h : Hdr) (core : CoreSel) (td ta : Nat) (s : State) : Out :=
  laneInstr (.lutbld h core td ta) false s (mxOp (coreSel core) (.lutbld td ta))
/-- LUTMM (R282). -/
def execLutmm (h : Hdr) (wb : Nat) (core : CoreSel) (tc ta tb : Nat) (s : State) : Out :=
  laneInstr (.lutmm h wb core tc ta tb) false s (mxOp (coreSel core) (.lutmm wb tc ta tb))
/-- CZERO (R283). -/
def execCzero (h : Hdr) (core : CoreSel) (tc : Nat) (s : State) : Out :=
  laneInstr (.czero h core tc) false s (mxOp (coreSel core) (.czero tc))
/-- CCVT (R283). -/
def execCcvt (h : Hdr) (sat : Bool) (dty : Ty) (core : CoreSel) (td tc : Nat) (cst : CSrc) (s : State) : Out :=
  laneInstr (.ccvt h sat dty core td tc cst) false s (mxOp (coreSel core) (.ccvt dty cst sat td tc))
/-- TSCL (R284). -/
def execTscl (h : Hdr) (off : Bool) (t sel : Nat) (s : State) : Out :=
  laneInstr (.tscl h off t sel) false s (mxOp sel (.tscl (if off then none else some t)))
/-- TPERM (R284). -/
def execTperm (h : Hdr) (off : Bool) (t sel : Nat) (s : State) : Out :=
  laneInstr (.tperm h off t sel) false s (mxOp sel (.tperm (if off then none else some t)))

/-! ### TWAIT and the waits for tile states (R270, R285) -/

/-- Tile `t` is in state `st` on every selected core. -/
def State.allIn (s : State) (t st : Nat) (cores : List Nat) : Bool := cores.all (fun c => (s.tile c t).st.code == st)

/-- TWAIT (R285): counted on mx, and complete when it returns. -/
def execTwait (h : Hdr) (t st sel : Nat) (s : State) : Out :=
  laneInstr (.twait h t st sel) false s (fun x s =>
    if x.act = 0 then x.done s id
    else match s.selCores x.g.gang sel with
      | none => s.seqFault x.gid 0x04 t 0
      | some cs =>
        if cs.any (fun c => (s.tile c.2 t).team != some (x.g.gang, c.1)) then s.seqFault x.gid 0x04 t 0
        else
          let cores := cs.map (·.2)
          let id := s.nextId
          let s := s.addOp x.gid (some .mx) (.seqop [])
          if s.allIn t st cores then x.done (s.endOp id) (fun g => g)
          else s.updGrp x.gid (fun g => { g with block := .twait id t st cores s.clk }))

/-- TILE_STATE_REACHED (R270): a blocked instruction looks again at what it waits for; its checks are made anew. -/
def execTileStateReached (who : Who) (s : State) : Out :=
  .next (match s.whoId who with
    | none => s
    | some gid =>
      match s.grp? gid with
      | none => s
      | some g =>
        match g.block with
        | .tile t k _ run act =>
          if s.tileReady g.core t k then (s.updGrp gid (fun g => { g with block := .none })).tileGo gid t k run act else s
        | .seqop m sel since => s.mxTry gid m sel since
        | .twait op t st cores _ =>
          if s.allIn t st cores then (s.endOp op).updGrp gid (fun g => { (g.advance 1) with block := .none }) else s
        | _ => s)

/-- TILE_WAIT (R270): a wait for a tile state has lasted 2^24 clk: a trap of the run, or a sequencer fault. -/
def execTileWait (who : Who) (s : State) : Out :=
  .next (match s.whoId who with
    | none => s
    | some gid =>
      match s.grp? gid with
      | none => s
      | some g =>
        match g.block with
        | .tile t k since _ act =>
          if s.clk < since + 2 ^ 24 || s.tileReady g.core t k then s
          else (s.updGrp gid (fun g => { g with block := .none })).queueTrap gid (s.lateTrap g 0x14 act 0 t)
        | .seqop m sel (some since) =>
          if s.clk < since + 2 ^ 24 then s
          else match s.mxTest g.gang sel m with
            | .states t => s.seqFault gid 0x14 t t
            | _ => s
        | .twait op t st cores since =>
          if s.clk < since + 2 ^ 24 || s.allIn t st cores then s else (s.endOp op).seqFault gid 0x14 t t
        | _ => s)

/-! ### Execution on a core (R279, R281–R284) -/

/-- What an operation writes: each destination with its contents and whether an element clamped. -/
def State.mxResult (s : State) (core : Nat) (e : QEnt) : List (Nat × List Byte × Bool) :=
  let at_ := fun t => (s.tile core t).bytes t
  match e.m with
  | .mma k c a b =>
    let r := mmaTile k (s.core core).perm (if k.scaled then e.scale.map at_ else none) (at_ a) (at_ b) (at_ c)
    [(c, r.1, r.2)]
  | .lutbld d a => mapFrom (fun i bs => (d + i, bs, false)) 0 (cutTiles 8 (lutTables (at_ a)))
  | .lutmm wb c a b =>
    let r := lutTile (wb + 1) ((List.range 8).flatMap (fun i => at_ (a + i))) (at_ b) (at_ c)
    [(c, r.1, r.2)]
  | .czero c => [(c, [], false)]
  | .ccvt dty src sat d c =>
    let rs := (rowsOf 512 128 (at_ c)).map (ccvtBytes dty src sat)
    let per := if ccvtTiles dty = 2 then 64 else 128
    mapFrom (fun i bs => (d + i, bs, ((rs.drop (per * i)).take per).any (·.2))) 0 (cutTiles (ccvtTiles dty) (rs.flatMap (·.1)))
  | .tscl _ | .tperm _ => []

/-- The permutation that TPERM binds (R284), of bytes that are not defined where one is in uncorrectable error. -/
def State.readPerm (s : State) (core t : Nat) : List Nat :=
  let x := s.tile core t
  (if x.bad.any (fun b => b < 256) then undefinedBytes s.freeCtr 256 else (x.bytes t).take 256).map BitVec.toNat

/-- A tile with a byte in uncorrectable error that an array, LUTBLD, LUTMM or CCVT reads (R286). -/
def State.mxBad (s : State) (core : Nat) (e : QEnt) : Option Nat :=
  match e.m with
  | .tscl _ | .tperm _ => none
  | _ => (e.m.inputs ++ e.scale.toList).find? (fun t => !(s.tile core t).bad.isEmpty)

/-- The head of a core's queue starts (R279): its inputs are read; a binding takes effect at its place. What it writes where it reads a
byte in uncorrectable error is not defined (R286). (DESIGN CHOICE, log 44) -/
def State.mxStart (s : State) (core : Nat) (e : QEnt) : State × QEnt :=
  let s := s.stamp core (e.m.inputs ++ e.scale.toList) (fun x t => { x with cstart := first x.cstart t })
  let s := s.stamp core e.m.dests (fun x t => { x with fill := first x.fill t })
  let s := match e.m with
    | .tscl t => s.updCore core (fun c => { c with scale := t })
    | .tperm t => { (s.updCore core (fun c => { c with perm := t.map (s.readPerm core) })) with freeCtr := s.freeCtr + 1 }
    | _ => s
  let bad := s.mxBad core e
  let out := match bad with
    | none => s.mxResult core e
    | some _ => (s.mxResult core e).map (fun r => (r.1, undefinedBytes (s.freeCtr + r.1) (tileSize r.1), r.2.2))
  ({ s with freeCtr := s.freeCtr + 64 }, { e with till := some (s.clk + e.m.clocks), out := out, bad := bad })

/-- SEQ_OP_EXECUTE (R279): the head of a core's queue runs, one operation at a time. -/
def execSeqOpExecute (core : Nat) (s : State) : Out :=
  .next (match s.seqLive core with
    | [] => s
    | e :: _ =>
      if e.till.isSome then s
      else
        let (s, e) := (s.noteEnds core).mxStart core e
        s.updCore core (fun c => { c with queue := c.queue.map (fun q => if q.op = e.op ∧ q.till.isNone then e else q) }))

/-- Free the tiles of an ended team that no operation names any more; their contents are zeroed and they are allocated to
no team (R36, R286, R287). -/
def State.freeTeamTiles (s : State) (core gang team status : Nat) : State :=
  let s := s.noteEnds core
  ((s.core core).tiles.filter (fun e => e.2.team == some (gang, team))).foldl (fun s e =>
    if s.queuedOn core e.1 ≠ 0 then s
    else
      let s := if e.2.st == .empty then s else s.freeTile core e.1 status
      s.updCore core (fun c => { c with tiles := mdel c.tiles e.1 })) s

/-- SEQ_OP_COMPLETE (R17, R278, R279): an operation has finished on every selected core; it is reported to mx. Tiles of teams
that have ended are then freed. -/
def execSeqOpComplete (gang op : Nat) (s : State) : Out :=
  .next (match mfind s.ops op with
    | none => s
    | some o =>
      match o.kind with
      | .seqop cores =>
        let mine := fun (e : QEnt) => e.op == op && e.gang == gang
        if cores.isEmpty then
          -- a TWAIT whose wait was cut short
          match s.grp? o.gid with
          | none => s.endOp op
          | some g =>
            match g.block with
            | .twait _ _ _ _ _ => s
            | _ => s.endOp op
        else if !(cores.all (fun c => (s.core c).queue.any mine && (s.core c).queue.all (fun e => !(mine e) || s.over e))) then s
        else
          let s := cores.foldl (fun s c => s.noteEnds c) s
          let s := cores.foldl (fun s c => s.updCore c (fun x => { x with queue := x.queue.filter (fun e => !(mine e)) })) s
          let s := s.endOp op
          let ts := mapFrom (fun i (t : Team) => (i, t)) 0 (mget {} s.gangs gang).teams
          ts.foldl (fun s t => if t.2.live || t.2.copying then s else s.freeTeamTiles t.2.core gang t.1 0) s
      | _ => s)

end Sys2Proof.Machine
end

