-- ==== Sys2Proof/Machine/Queue.lean ====
section
/-! DEFINITION. Machine/Queue.lean: slice-resident queues and active messages (R248–R260). A queue instruction is a request to its slice:
the run is held until the slice has performed or refused it. -/

namespace Sys2Proof.Machine

/-! ### Handles and descriptors (R248, R249, R252) -/

def State.qdesc (s : State) (h : Handle) : QDesc := mget {} (s.slice h.slice).qd h.q
def State.updQd (s : State) (h : Handle) (f : QDesc → QDesc) : State :=
  s.updSlice h.slice (fun x => { x with qd := mput x.qd h.q (f (mget {} x.qd h.q)) })

/-- Entries of a queue, and the size of one. -/
def QDesc.cap (d : QDesc) : Nat := 2 ^ (d.logcap + 4)
def QDesc.size (d : QDesc) : Nat := if d.am then 32 else 16
/-- Address of entry `i`. -/
def QDesc.entryVa (d : QDesc) (i : Nat) : DWord := d.ring + BitVec.ofNat 64 (d.size * (i % d.cap))

/-- The handle value that names a queue. -/
def Handle.value (h : Handle) : Nat :=
  (match h.dev with | none => 0 | some d => 2 ^ 25 + d * 2 ^ 16) + h.slice % 96 * 2 ^ 8 + h.q

/-- The handle checks of R252. `enq`: QENQ or AMSG; `am`: what the queue must be, where it matters. -/
def State.queueOf (s : State) (ctx : Nat) (x : Nat) (enq : Bool) (am : Option Bool) : Option Handle :=
  match s.handle? x with
  | none => none
  | some h =>
    let d := s.qdesc h
    if d.en && (d.owner == ctx || (enq && d.open_)) && !(am.any (fun b => b != d.am)) then some h else none

/-- A ring or wake-word access failed (R250): the item fails, STALL is set and QSTALL is posted. -/
def State.queueStall (s : State) (h : Handle) (va : DWord) (outcome : Nat) : State :=
  let s := s.updQd h (fun d => { d with stall := true, lasterr := outcomeStatus outcome })
  match h.dev with
  | some _ => s
  | none => s.notify { kind := 3, ctx := (s.qdesc h).owner, body := [(4, h.value), (8, va.toNat)] }

/-! ### At the slice (R252–R255) -/

/-- The event of a queue instruction's own accesses: operation `id`. -/
def queueTag (id : Nat) : Nat × Nat := (4, id)

/-- Replace the queue instruction that an operation carries. -/
def State.setQueue (s : State) (id : Nat) (q : QueueOp) : State := { s with ops := mupd s.ops id (fun o => { o with kind := .queue q }) }

/-- Another operation is being performed on the queue (R252): operations on one queue are totally ordered. -/
def State.queueBusy (s : State) (id : Nat) (h : Handle) : Bool :=
  s.ops.any (fun e => e.1 != id && (match e.2.kind with | .queue q => q.begun && s.handle? q.handle == some h | _ => false))

/-- The slice refuses a handle: the operation is over and traps PROTECTION with the handle, for Active alone (R252). -/
def State.queueRefuse (s : State) (id : Nat) (o : Op) (q : QueueOp) : State :=
  let s := s.endOp id
  match s.grp? o.gid with
  | none => s
  | some g =>
    if g.block = .queue id then
      (s.updGrp o.gid (fun g => { g with block := .none })).queueTrap o.gid (s.lateTrap g 0x0F q.act (BitVec.ofNat 64 q.handle))
    else s

/-- The slice has performed a queue instruction: its results are to be reported, and the held run goes on (R252). -/
def State.queueDone (s : State) (id : Nat) (o : Op) (q : QueueOp) : State :=
  let got := maskOf (q.served.map (fun (e : Nat × Nat) => e.1))
  let reply : OpKind := match q.kind with
    | .enq | .msg _ => .reply none 0 [] (some (q.pd, q.act, got)) (some q.at_)
    | .deq => .reply q.dst 4 q.served (some (q.pd, q.act, got)) none
    | .stat => .reply q.dst 4 q.served none none
  let s := { s with ops := mupd s.ops id (fun o => { o with kind := reply }) }.forget (queueTag id)
  s.updGrp o.gid (fun g => if g.block = .queue id then { (g.advance q.run) with block := .none } else g)

/-- The wake word takes TAIL when an entry was added (R253), and the operation is done. -/
def State.queueWake (s : State) (id : Nat) (o : Op) (q : QueueOp) (h : Handle) : State :=
  let d := s.qdesc h
  let adds := match q.kind with | .enq | .msg _ => !q.served.isEmpty | _ => false
  if !adds || d.wake = 0 then s.queueDone id o q
  else match s.svcAccess (queueTag id) h.dev d.owner d.wake 8 (some d.tail) with
    | (.ok _ _, s) => s.queueDone id o q
    | (.wait, s) => s.setQueue id q
    | (.fail r, s) => (s.queueStall h d.wake r).queueDone id o q

/-- Serve the lanes of a queue instruction that are left, in ascending order: each appends or removes one entry, or gets 0 where the queue
is full, empty or stalled (R253, R254). An appended entry counts once its write has its instant. Of a queue whose owner has been killed
the items that are left fail with CANCELLED (R260). -/
def State.serveQueue (s : State) (id : Nat) (o : Op) (h : Handle) (q : QueueOp) : List (Nat × Nat) → State
  | [] => s.queueWake id o { q with todo := [] } h
  | (l, x) :: rest =>
    let d := s.qdesc h
    let deq := q.kind == .deq
    if !d.en && h.dev.isNone && !(mget {} s.ctxs d.owner).live then
      (s.updQd h (fun d => { d with lasterr := 0xC })).queueDone id o { q with todo := [] }
    else if d.stall || (if deq then decide (d.tail ≤ d.head) else decide (d.tail - d.head ≥ d.cap)) then s.serveQueue id o h q rest
    else
      let va := d.entryVa (if deq then d.head else d.tail)
      match s.svcAccess (queueTag id) h.dev d.owner va (if q.kind = .enq then 16 else d.size) (if deq then none else some x) with
      | (.wait, s) => s.setQueue id { q with todo := (l, x) :: rest }
      | (.fail r, s) => ((s.forget (queueTag id)).queueStall h va r).serveQueue id o h q rest
      | (.ok v _, s) =>
        let s := (s.forget (queueTag id)).updQd h (fun d => if deq then { d with head := d.head + 1 } else { d with tail := d.tail + 1 })
        s.serveQueue id o h { q with served := q.served ++ [(l, if deq then v else 0)] } rest

/-- The four words of QSTAT (R255). -/
def QDesc.statWords (d : QDesc) : Nat :=
  let infl := if d.am then min 65535 (d.head - d.done) else 0
  let w1 := infl * 2 ^ 16 + d.lasterr * 2 ^ 8 + d.logcap * 2 ^ 4 + b2n d.stall * 2 ^ 2 + b2n d.am * 2 + 1
  (d.tail - d.head) % 2 ^ 32 + w1 * 2 ^ 32 + (if d.am then d.done % 2 ^ 64 * 2 ^ 64 else 0)

/-- The header of an active message (Table 15-11). -/
def amHeader (agent lane hn ctx t : Nat) : Nat :=
  (agent * 2 ^ 16 + lane * 2 ^ 8 + hn) + ctx % 2 ^ 32 * 2 ^ 32 + t % 2 ^ 64 * 2 ^ 64

/-- The entry of one lane, as the slice completes it: a message gets its header with the instant recorded (R256). -/
def State.queueEntry (s : State) (o : Op) (h : Handle) (q : QueueOp) (t : Nat) (e : Nat × Nat) : Nat × Nat :=
  match q.kind with
  | .msg hn => (e.1, e.2 + 2 ^ 128 * amHeader (if h.dev.isSome then 512 + s.devNo else o.cluster) e.1 hn o.ctx t)
  | _ => e

/-- The slice records a queue instruction and performs it as far as its accesses go (R252). QSTAT reads the descriptor at that instant
(R255). -/
def State.beginQueue (s : State) (id : Nat) (o : Op) (h : Handle) (q : QueueOp) : State :=
  let t := s.now - mget 0 s.lagSl h.slice
  let q := { q with begun := true, at_ := t }
  match q.kind with
  | .stat => s.queueDone id o { q with served := q.todo.map (fun (e : Nat × Nat) => (e.1, (s.qdesc h).statWords)), todo := [] }
  | _ =>
    let q := { q with todo := q.todo.map (s.queueEntry o h q t) }
    (s.setQueue id q).serveQueue id o h q q.todo

/-- A queue instruction reaches its slice, after the older requests of its cluster to that slice and where the slice grants a credit
(R14, R245); its handle is checked, and it waits for the operation in progress on the queue (R252). -/
def State.queueStep (s : State) (id : Nat) (o : Op) (q : QueueOp) : State :=
  match s.handle? q.handle with
  | none => s.queueRefuse id o q
  | some h =>
    if q.begun then s.serveQueue id o h q q.todo
    else if s.sentOlder id o h.slice || s.noCredit o h.slice || s.queueBusy id h then s
    else
      let enq := match q.kind with | .enq | .msg _ => true | _ => false
      let am := match q.kind with | .deq => some false | .msg _ => some true | .enq | .stat => none
      match s.queueOf o.ctx q.handle enq am with
      | none => s.queueRefuse id o q
      | some h => s.beginQueue id o h q

/-- HOME_REQUEST (R232, R252): an access, or a queue instruction, reaches its slice. -/
def execHomeRequest (op lane : Nat) (s : State) : Out :=
  .next (match mfind s.ops op with
    | none => s
    | some o =>
      match o.kind with
      | .queue q => s.queueStep op o q
      | _ => s.homeRequest op lane)

/-! ### The queue instructions (R251–R256) -/

/-- Send a queue instruction to its slice and hold the run (R252). -/
def queueOp (kind : QKind) (dst : Option Opnd) (pd : Nat) (a : Opnd) (cls : Cls) (entry : Issue → Nat → Nat) (x : Issue) (s : State) : State :=
  if x.act = 0 then x.done s id
  else
    let q : QueueOp := { kind := kind, handle := x.g.opnd a 1 x.lead, dst := dst, pd := pd, run := x.run, act := x.act,
                         todo := (lanesOf x.act).map (fun l => (l, entry x l)) }
    (s.addOp x.gid (some cls) (.queue q)).updGrp x.gid (fun g => { g with block := .queue s.nextId })

/-- QENQ (R253). R252 does not refuse it on an AM queue: there it writes the 16 bytes of its quad, and the header bytes of the entry stay as they
are. (DEDUCED, log 43) -/
def execQenq (h : Hdr) (pd : Nat) (a b : Opnd) (s : State) : Out :=
  laneInstr (.qenq h pd a b) false s (queueOp .enq none pd a .st (fun x l => x.g.opnd b 4 l))

/-- QDEQ (R254). -/
def execQdeq (h : Hdr) (d a : Opnd) (pc : Nat) (s : State) : Out :=
  laneInstr (.qdeq h d a pc) false s (queueOp .deq (some d) pc a .ld (fun _ _ => 0))

/-- QSTAT (R255). -/
def execQstat (h : Hdr) (d a : Opnd) (s : State) : Out :=
  laneInstr (.qstat h d a) false s (queueOp .stat (some d) 15 a .ld (fun _ _ => 0))

/-- AMSG (R256). -/
def execAmsg (h : Hdr) (pd : Nat) (a b : Opnd) (hn : Nat) (s : State) : Out :=
  laneInstr (.amsg h pd a b hn) false s (queueOp (.msg hn) none pd a .st (fun x l => x.g.opnd b 4 l))

/-! ### Active messages (R256–R258) -/

/-- AMDONE (R258): illegal outside a handler group. -/
def execAmdone (h : Hdr) (s : State) : Out :=
  laneInstr (.amdone h) false s (fun x s =>
    if x.act = 0 then x.done s id
    else if x.g.am.isNone then s.queueTrap x.gid (x.trap s 0x04 x.act x.act)
    else
      let s := s.startFence x.gid .device
      match s.grp? x.gid with
      | none => s
      | some g =>
        if s.fenceReady x.gid g .device then s.amdoneEnd x.gid x.run x.act
        else s.updGrp x.gid (fun g => { g with block := .amdone x.run x.act }))

/-- The event of a queue's dispatch. -/
def dispatchTag (h : Handle) : Nat × Nat := (5, 256 * h.slice + h.q)

/-- What the slice finds at the head of an AM queue. -/
inductive Batch
  | some (entries : List Nat)
  /-- A read has not been answered. -/
  | wait
  /-- The first entry cannot be read: its address and the outcome. -/
  | fail (outcome : Nat)
  deriving DecidableEq, Repr

/-- The entries from the head of an AM queue on that name one handler, at most `n` (R256). -/
def State.amBatch (s : State) (h : Handle) (want : Option Nat) (i : Nat) : Nat → Batch × State
  | 0 => (.some [], s)
  | n + 1 =>
    let d := s.qdesc h
    if decide (d.tail ≤ d.head + i) then (.some [], s)
    else match s.svcAccess (dispatchTag h) h.dev d.owner (d.entryVa (d.head + i)) 32 none with
      | (.wait, s) => (.wait, s)
      | (.fail o, s) => (if i = 0 then .fail o else .some [], s)
      | (.ok v _, s) =>
        let hn := bits v 128 8
        if want.any (fun k => k != hn) then (.some [], s)
        else match s.amBatch h (some hn) (i + 1) n with
          | (.some vs, s) => (.some (v :: vs), s)
          | r => r

/-- A handler table entry: CODE, ARGS, VREGS and SREGS, if it is well formed (R256). -/
def amHandler (x : Nat) : Option (Nat × Nat × Nat × Nat) :=
  let code := fieldAt x 0 8
  let v := fieldAt x 0x10 2
  let sr := fieldAt x 0x12 2
  if validCode (BitVec.ofNat 64 code) && 8 ≤ v && v ≤ 512 && v % 8 == 0 && 1 ≤ sr && sr ≤ 384 && x / 2 ^ 160 == 0 then
    some (code, fieldAt x 8 8, v, sr)
  else none

/-- Start a handler group with its messages in its lanes, in granules that were L1's (R128, R257). -/
def State.startHandler (s : State) (h : Handle) (core ctx : Nat) (hd : Nat × Nat × Nat × Nat) (ms : List Nat) : State :=
  let (code, args, vr, sr) := hd
  let n := s.nextId
  let cluster := core / 4
  let put := fun (m : Map Word) (p : Nat × Nat) => putRegs m 0 p.1 8 p.2
  let pairs := mapFrom (fun l v => (l, v)) 0 ms
  let gs := s.freshGrans core (vr / 8)
  let g : Group :=
    { ctx0 := ctx, ctx := ctx, gang := n, cluster := cluster, core := core, nregs := vr, sregs := sr, args := BitVec.ofNat 64 args, gmap := gs,
      lanes := (List.range 32).map (fun l => if l < ms.length then { pc := BitVec.ofNat 64 code } else { pc := BitVec.ofNat 64 code, st := .exited }),
      v := pairs.foldl put [], am := some (h.slice, h.q, maskOf (List.range ms.length)), readyAt := s.clk, activeAt := s.clk,
      active := decide ((((s.coreGroups core).filter (fun e => e.2.grp % 4 == 0 && e.2.active)).length) < 8) }
  let s := s.takeGrans core gs
  ({ s with nextId := n + 2,
            gangs := mput s.gangs n { ctx := ctx, cluster := cluster, am := true, teams := [{ core := core }] },
            groups := mput s.groups (n + 1) g }).traceStart (n + 1)

/-- The core could take a handler group of an AM queue, were its window small enough: fewer than MAXG of its groups run, the owner is
resident, and the core starts groups and has a slot for one (R33, R131, R256). -/
def State.amRoom (s : State) (h : Handle) : Bool :=
  let d := s.qdesc h
  let core := 4 * d.cluster + d.core
  let running := (s.groups.filter (fun e => match e.2.am with | some (a, b, _) => a == h.slice && b == h.q | none => false)).length
  let c := mget {} s.ctxs d.owner
  running < d.maxg && c.live && !c.out && !c.stopping && s.clustersUp.contains d.cluster && !(s.growBlocked core) && decide (s.partGroups core 0 < 16)

/-- AM_DISPATCH (R256, R257): a batch at the head starts as a handler group when the queue may run another, the core has
room and the owner is resident; a batch whose handler entry is malformed or unreadable is discarded. -/
def execAmDispatch (slice q : Nat) (s : State) : Out :=
  .next (
    let h : Handle := { dev := none, slice := slice, q := q }
    let tag := dispatchTag h
    let d := s.qdesc h
    if !d.en || !d.am || d.stall || decide (d.tail ≤ d.head) || !(s.amRoom h) then s
    else match s.amBatch h none 0 32 with
      | (.wait, s) => s
      | (.fail o, s) => (s.forget tag).queueStall h (d.entryVa d.head) o
      | (.some ms, s) =>
        let n := ms.length
        let drop := fun (s : State) (e : Nat) => (s.forget tag).updQd h (fun d => { d with head := d.head + n, done := d.done + n, lasterr := e })
        match s.svcAccess tag none d.owner (d.htab + BitVec.ofNat 64 (64 * bits (ms.headD 0) 128 8)) 64 none with
        | (.wait, s) => s
        | (.fail o, s) => drop s (outcomeStatus o)
        | (.ok t _, s) =>
          match amHandler t with
          | none => drop s 2
          | some hd =>
            let core := 4 * d.cluster + d.core
            -- what has been read is kept while the store has no room (R33)
            if decide (hd.2.2.1 / 8 ≤ s.freeGranules core) then
              ((s.forget tag).updQd h (fun d => { d with head := d.head + n })).startHandler h core d.owner hd ms
            else s)

end Sys2Proof.Machine
end

