-- ==== Sys2Proof/Machine/Copy.lean ====
section
/-! DEFINITION. Machine/Copy.lean: copy requests, barrier objects, channels and their chunks, and the end of exit-fired
copies (R292–R304). A channel's head is its oldest request until every chunk of that is reported (log 30). -/

namespace Sys2Proof.Machine

/-! ### The request record (R293, R295) -/

/-- The program's fields of a record of 64 bytes (Table 19-1). -/
def parseCopy (x : Nat) : CopyRec :=
  let f := fieldAt x
  let w14 := f 0x14 4
  let w24 := f 0x24 4
  let w28 := f 0x28 4
  { src := f 0 8, dst := f 8 8, len := f 0x10 4, rows := w14 % 2 ^ 17, sstride := f 0x18 4, dstride := f 0x1C 4, bobj := f 0x20 4,
    fmt := bits w24 22 2, rop := bits w24 20 2, mig := bitAt w24 19, bo := bitAt w24 18, cls := bits w24 16 2, chan := bits w24 12 4,
    dkind := bits w24 2 2, skind := bits w24 0 2, ddev := bits w28 16 9, sdev := bits w28 0 9,
    reserved := bits w14 17 15 + bits w24 24 8 + bits w24 4 8 + bits w28 25 7 + bits w28 9 7 }

/-- LEN and ROWS are within their limits. -/
def copySized (r : CopyRec) : Bool := 1 ≤ r.len && r.len ≤ 2 ^ 31 && 1 ≤ r.rows && r.rows ≤ 65536
/-- Bytes of the sequence, and its chunks (R292). -/
def copyTotal (r : CopyRec) : Nat := r.len * r.rows
def copyChunks (r : CopyRec) : Nat := ((copyTotal r) + 65535) / 65536

/-- A tile address that obeys Table 19-2: its tile of the wanted buffers, aligned rows, every one inside the tile. -/
def tileAddrOk (a len rows stride : Nat) (ok : Nat → Bool) : Bool :=
  let t := bits a 16 8
  let o := a % 65536
  a / 2 ^ 24 == 0 && t < 56 && ok t && o % 16 == 0 && len % 16 == 0 && stride % 16 == 0 &&
    decide (o + (rows - 1) * stride + len ≤ tileSize t)

/-- The request is malformed (R295). `hub`: it came through the hub. (DESIGN CHOICE, log 49) -/
def copyBad (r : CopyRec) (reduce hub : Bool) : Bool :=
  let n := (fmtTy r.fmt).width / 8
  !copySized r || r.reserved != 0 || r.skind == 3 || r.dkind == 3 || (r.skind != 2 && r.sdev != 0) || (r.dkind != 2 && r.ddev != 0)
  || (r.bo && r.bobj % 16 != 0)
  || (r.skind == 1 && !tileAddrOk r.src r.len r.rows r.sstride (fun t => bufOf t == .c))
  || (r.dkind == 1 && !tileAddrOk r.dst r.len r.rows r.dstride (fun t => bufOf t != .c))
  || (r.mig && !hub)
  || (!reduce && (r.fmt != 0 || r.rop != 0))
  || (reduce && (r.rop == 3 || r.dkind == 1 || r.src % n != 0 || r.dst % n != 0 || r.len % n != 0 || r.sstride % n != 0 || r.dstride % n != 0))

/-! ### Channels -/

def State.chan (s : State) (core ch : Nat) : Chan := mget {} (s.core core).chans ch
def State.updChan (s : State) (core ch : Nat) (f : Chan → Chan) : State :=
  s.updCore core (fun c => { c with chans := mput c.chans ch (f (mget {} c.chans ch)) })
/-- The request at the head of a channel. (DEDUCED, log 30) -/
def State.chanHead (s : State) (core ch : Nat) : Option CopyReq := (s.chan core ch).reqs.head?
/-- Change the request at the head of a channel. -/
def State.updHead (s : State) (core ch : Nat) (f : CopyReq → CopyReq) : State :=
  s.updChan core ch (fun c => match c.reqs with | [] => c | r :: rs => { c with reqs := f r :: rs })
/-- Append a request to its channel. -/
def State.addReq (s : State) (core : Nat) (r : CopyReq) : State := s.updChan core r.r.chan (fun c => { c with reqs := c.reqs ++ [r] })

/-! ### CPY, CPYR, BOINIT and BOWAIT (R297, R298, R302) -/

/-- A scratchpad address of form M (R297). -/
def Issue.spAddr (x : Issue) (a : Opnd) (off : BitVec 24) : Nat := (x.g.opnd a 1 x.lead + offOf off) % 2 ^ 32

/-- Stores, atomics and label instructions, whose completion a copy request waits for (R298). -/
def holdsCopy (o : Op) : Bool :=
  match o.desc? with
  | some m => m.kind.isWrite || m.kind.isLabel
  | none => false

/-- CPY and CPYR (R298). -/
def copyOp (reduce : Bool) (a : Opnd) (off : BitVec 24) (x : Issue) (s : State) : State :=
  if x.act = 0 then x.done s id
  else
    let addr := x.spAddr a off
    let (size, sp) := s.scratch x.g
    if addr % 64 ≠ 0 ∨ addr + 63 ≥ size then s.queueTrap x.gid (x.trap s 0x0E x.act x.act (BitVec.ofNat 64 addr))
    else
      let r := parseCopy (leNat (mgets byteZero sp addr 64))
      let before := (s.ops.filter (fun e => e.2.gid == x.gid && holdsCopy e.2)).map (·.1)
      let req : CopyReq := { who := .op s.nextId, gid := x.gid, ctx := x.g.ctx, cluster := x.g.cluster, gang := x.g.gang, team := x.g.team,
                             addr := addr, reduce := reduce, r := r, before := before }
      x.done ((s.addOp x.gid (some .cp) (.copy addr)).addReq x.g.core req) id

/-- CPY. -/
def execCpy (h : Hdr) (a : Opnd) (off : BitVec 24) (s : State) : Out := laneInstr (.cpy h a off) false s (copyOp false a off)
/-- CPYR. -/
def execCpyr (h : Hdr) (a : Opnd) (off : BitVec 24) (s : State) : Out := laneInstr (.cpyr h a off) false s (copyOp true a off)

/-- The address checks of a barrier object (R302): outside the scratchpad, then not a multiple of 16. -/
def State.boCheck (s : State) (x : Issue) (addr : Nat) : Option State :=
  if addr ≥ (s.scratch x.g).1 then some (s.queueTrap x.gid (x.trap s 0x0E x.act x.act (BitVec.ofNat 64 addr)))
  else if addr % 16 ≠ 0 then some (s.queueTrap x.gid (x.trap s 0x12 x.act x.act (BitVec.ofNat 64 addr)))
  else none

/-- BOINIT (R302). -/
def execBoinit (h : Hdr) (a b : Opnd) (off : BitVec 24) (s : State) : Out :=
  laneInstr (.boinit h a b off) false s (fun x s =>
    if x.act = 0 then x.done s id
    else
      let addr := x.spAddr a off
      match s.boCheck x addr with
      | some s => s
      | none => x.done (s.spWrite x.gid addr 16 (2 ^ 64 * x.g.opnd b 1 x.lead)) id)

/-- REMAIN of a barrier object is at most 0, and its LAST (R302). -/
def State.boDone (s : State) (gid addr : Nat) : Option Nat :=
  let v := s.spRead gid addr 16
  if toSigned 48 (v / 2 ^ 64) ≤ 0 then some (v % 2 ^ 64) else none

/-- BOWAIT returns by its count (R75, R302). -/
def Group.boReturn (g : Group) (pd last : Nat) (lanes : Word) : Group :=
  { (((g.setPredAll pd true).raiseCtime last).advance lanes) with block := .none }

/-- BOWAIT (R302). -/
def execBowait (h : Hdr) (pd : Nat) (a b : Opnd) (off : BitVec 24) (s : State) : Out :=
  laneInstr (.bowait h pd a b off) false s (fun x s =>
    if x.act = 0 then x.done s id
    else
      let addr := x.spAddr a off
      let n := x.g.opnd b 1 x.lead
      match s.boCheck x addr with
      | some s => s
      | none =>
        match s.boDone x.gid addr with
        | some t => s.updGrp x.gid (fun g => g.boReturn pd t x.run)
        | none =>
          if n = 0 then x.done s (fun g => g.setPredAll pd false)
          else s.updGrp x.gid (fun g => { g with block := .bowait pd addr (s.regtime x.g + n) x.run }))

/-- BOWAIT_RETURN (R302). -/
def execBowaitReturn (gid : Nat) (s : State) : Out :=
  .next (match s.grp? gid with
    | none => s
    | some g =>
      match g.block with
      | .bowait pd addr _ lanes =>
        match (if s.resident g then s.boDone gid addr else none) with
        | some t => s.updGrp gid (fun g => g.boReturn pd t lanes)
        | none => s
      | _ => s)

/-- BOWAIT_TIMEOUT (R302); a group that is switched out waits only for the ticks still to run after its restore (R47). -/
def execBowaitTimeout (gid : Nat) (s : State) : Out :=
  .next (match s.grp? gid with
    | none => s
    | some g =>
      match g.block with
      | .bowait pd addr till lanes =>
        if s.resident g && till ≤ s.regtime g && (s.boDone gid addr).isNone then
          s.updGrp gid (fun g => { ((g.setPredAll pd false).advance lanes) with block := .none })
        else s
      | _ => s)

/-! ### The pieces of a chunk (R292) -/

/-- How a side of a request is reached: through the issuing core, a tile, a device, or an accumulator's key. -/
inductive Side
  | local_
  | tile
  | dev (d : Nat)
  | key (k : Nat) (lockok : Bool)
  deriving DecidableEq, Repr

def sideOf (kind dev : Nat) : Side := if kind = 1 then .tile else if kind = 2 then .dev dev else .local_

/-- Bytes left in the line of an address. -/
def lineLeft (a : Nat) : Nat := 128 - a % 128

/-- Cut `n` bytes at sequence position `p` into source addresses, destination addresses and lengths. -/
def cutPieces (r : CopyRec) : Nat → Nat → Nat → List (Nat × Nat × Nat)
  | 0, _, _ => []
  | fuel + 1, p, n =>
    if n = 0 then []
    else
      let row := p / r.len
      let col := p % r.len
      let a := (r.src + row * r.sstride + col) % 2 ^ 64
      let b := (r.dst + row * r.dstride + col) % 2 ^ 64
      let k := min (min n (r.len - col)) (min (lineLeft a) (lineLeft b))
      (a, b, k) :: cutPieces r fuel (p + k) (n - k)

/-- The pieces of chunk `c`: each byte at most one piece. -/
def chunkPieces (r : CopyRec) (c : Nat) : List (Nat × Nat × Nat) :=
  let n := min 65536 ((copyTotal r) - 65536 * c)
  cutPieces r n (65536 * c) n

/-- Bytes of chunk `c`. -/
def chunkLen (r : CopyRec) (c : Nat) : Nat := min 65536 ((copyTotal r) - 65536 * c)

/-- Where a byte address of one side lies, or the status that refuses it (R294, R299). A piece on a lost device fails as it is read or
written; one that cannot be placed there fails with LINK_DOWN (R360). -/
def State.sidePlace (s : State) (q : CopyReq) (side : Side) (base a : Nat) (need : Need) : Except Nat Place1 × State :=
  match side with
  | .tile => (.ok (.tile (bits a 16 8) (a % 65536)), s)
  | .key k lk => (.ok (.key (k + (a - base)) lk false), s)
  | .local_ =>
    match s.translate (dieOf q.cluster) q.ctx (BitVec.ofNat 64 a) need with
    | (.ok key lk mg, s) => (.ok (.key key lk mg), s)
    | (t, s) => (.error (outcomeStatus t.code), s)
  | .dev d =>
    match s.svcTrans (if d = s.devNo then none else some d) q.ctx (BitVec.ofNat 64 a) need with
    | .ok (key, lk, mg) => (.ok (.key key lk mg), s)
    | .error o => (.error (if s.lost.contains d then 5 else outcomeStatus o), s)

/-- A locked label refuses the access, whether its region is tracked or its lock lies in the label store (R240). -/
def State.lockRefuses (s : State) (cluster : Nat) (p : Place1) (wr : Bool) : Bool :=
  match p with
  | .key k lk _ => lk && s.lockRefusesKey cluster k wr
  | .tile _ _ => false

/-- A tile is in the state that a copy needs (R266). -/
def State.tileFit (s : State) (core : Nat) (q : CopyReq) (p : Place1) (need : TileSt) : Bool :=
  match p with
  | .tile t _ => (s.tile core t).st == need && (s.tile core t).team == some (q.gang, q.team)
  | .key _ _ _ => true

/-- A side of a piece refuses its chunk: a locked label, or a tile in the wrong state (R266, R299). -/
def State.sideRefuses (s : State) (core : Nat) (q : CopyReq) (p : Place1) (wr : Bool) : Bool :=
  s.lockRefuses q.cluster p wr || !(s.tileFit core q p (if wr then .filling else .draining))

/-- Place every piece of a chunk: the first refusal of any of them refuses the chunk whole (R299). -/
def State.placePieces (s : State) (core : Nat) (q : CopyReq) (ss ds : Side) : List (Nat × Nat × Nat) → Except Nat (List Piece) × State
  | [] => (.ok [], s)
  | (a, b, n) :: ps =>
    match s.sidePlace q ss q.r.src a .r with
    | (.error e, s) => (.error e, s)
    | (.ok x, s) =>
      match s.sidePlace q ds q.r.dst b .w with
      | (.error e, s) => (.error e, s)
      | (.ok y, s) =>
        if s.sideRefuses core q x false || s.sideRefuses core q y true then (.error 2, s)
        else match s.placePieces core q ss ds ps with
          | (.error e, s) => (.error e, s)
          | (.ok rest, s) => (.ok ({ src := x, dst := y, n := n } :: rest), s)

/-! ### Performing a chunk (R299–R301)

The engine reads every piece and then writes them: each is an access of the cluster that goes home as any other (R300). The writes of a
channel's chunks are sent in the order of the chunks (R14). -/

def CopyReq.srcSide (q : CopyReq) : Side := sideOf q.r.skind q.r.sdev
def CopyReq.dstSide (q : CopyReq) : Side := match q.who with | .meet _ k _ lk => .key k lk | _ => sideOf q.r.dkind q.r.ddev

/-- One access of a chunk: its number, its address, its place and length, and the bytes it writes. -/
structure Part where
  i : Nat
  va : Nat
  at_ : Place1
  n : Nat
  data : Nat := 0
  deriving DecidableEq, Repr

/-- The distinct lengths of some accesses. -/
def partSizes (ps : List Part) : List Nat := ps.foldl (fun l p => if l.contains p.n then l else l ++ [p.n]) []

/-- Send the accesses of a chunk, those of one length in one operation: the operations sent. -/
def State.sendParts (s : State) (core : Nat) (q : CopyReq) (kind : MemKind) (elems : Nat → Nat) (ps : List Part) : List Nat × State :=
  (partSizes ps).foldl (fun r n =>
    let accs := (ps.filter (fun p => p.n == n)).filterMap (fun p => match p.at_ with
      | .key k lk mg => some ({ lane := p.i, va := BitVec.ofNat 64 p.va, key := k, lockok := lk, mig := mg, data := p.data, data2 := elems n, st := .wait } : Acc)
      | .tile _ _ => none)
    (r.1 ++ [r.2.nextId], r.2.sendOp { gid := 0, ctx := q.ctx, cluster := q.cluster, core := core, job := .chunk, migClass := q.r.mig,
                                       kind := .mem { kind := kind, ty := .b8, width := n } accs })) ([], s)

/-- The accesses of a chunk in flight. -/
def State.flightAccs (s : State) (f : Flight) : List Acc := f.ops.flatMap (fun id => match mfind s.ops id with | some o => o.accs | none => [])
/-- The chunk's operations are over. -/
def State.dropFlight (s : State) (f : Flight) : State := { s with ops := f.ops.foldl (fun m id => mdel m id) s.ops }

/-- A chunk in flight whose request is cut short: what it has not sent is not sent; what it has sent goes on to its end. -/
def State.abandonFlight (s : State) (f : Flight) : State :=
  { s with ops := f.ops.foldl (fun m id => mupd m id (fun o => match o.kind with
      | .mem d as => { o with job := .own 0, kind := .mem d (as.map (fun a => if a.st = .wait then { a with st := .off } else a)) }
      | _ => o)) s.ops }

/-- The status of the first of some accesses that failed or was refused (R299). -/
def accStatus (as : List Acc) : Nat :=
  as.foldl (fun n a => if n ≠ 0 then n else match a.st with | .failed c => c | .refused _ => 2 | _ => 0) 0

/-- Read a piece of a tile: its bytes, and whether one is in uncorrectable error. -/
def State.tileRead (s : State) (core : Nat) (p : Piece) : Nat × Bool :=
  match p.src with
  | .tile t o =>
    let x := s.tile core t
    (leNat (mgets byteZero x.data o p.n), x.bad.any (fun b => o ≤ b && b < o + p.n))
  | .key _ _ _ => (0, false)

/-- Scale an element by 2^-w with one rounding (R93). The manual does not order the weight of a late stream and the replacement of an
infinite element by the greatest finite one: here an infinity keeps its value through the scaling and is replaced, at full weight, as it is
added (`reduceElem`). (DESIGN CHOICE, log 90) -/
def scaleElem (ty : Ty) (w x : Nat) : Nat :=
  if w = 0 || !ty.isFloat then x
  else match fval ty x with
    | .fin n m e => (roundTo ty .rn .sat (.fin n m (e - w))).1
    | _ => x

/-- Scale packed elements. -/
def scaleElems (ty : Ty) (w : Nat) : Nat → Nat → Nat
  | 0, _ => 0
  | n + 1, x => scaleElem ty w (x % 2 ^ ty.width) % 2 ^ ty.width + 2 ^ ty.width * scaleElems ty w n (x / 2 ^ ty.width)

/-- Exponent of a stream's weight. -/
def CopyReq.wexp (q : CopyReq) : Nat := match q.who with | .meet _ _ w _ => w | _ => 0

/-- What a chunk writes, in order: contiguous bytes of one line go together, for the elements of a line are combined at one instant
(R301). -/
def mergeParts : List Part → List Part
  | [] => []
  | p :: ps =>
    match mergeParts ps with
    | [] => [p]
    | r :: rs =>
      match p.at_, r.at_ with
      | .key k lk mg, .key k' lk' mg' =>
        if k + p.n = k' ∧ lineOf k = lineOf k' ∧ lk = lk' ∧ mg = mg' then { p with n := p.n + r.n, data := p.data + 2 ^ (8 * p.n) * r.data } :: rs
        else p :: r :: rs
      | _, _ => p :: r :: rs

/-- Bytes of pieces that an error on the way leaves undefined (R299): free values. -/
def State.spoil (s : State) (core : Nat) : List Piece → State
  | [] => s
  | p :: ps =>
    let v := leNat (undefinedBytes s.freeCtr p.n)
    let s := { s with freeCtr := s.freeCtr + 1 }
    let s := match p.dst with
      | .tile t o => s.updTile core t (fun x => { x with data := msets byteZero x.data o (leBytes p.n v) })
      | .key k _ _ => (s.perform k p.n .store .b8 v 0).2
    s.spoil core ps

/-- A chunk comes to its end with a status; the bytes that an error has reached are not defined. -/
def State.endFlight (s : State) (core : Nat) (f : Flight) (r : ChunkRes) : Flight × State :=
  let s := s.dropFlight f
  ({ f with stage := .over, ops := [], vals := [], res := r }, if r.status = 3 || r.status = 5 || r.status = 6 then s.spoil core f.ps else s)

/-- A chunk reaches its source: refused whole, or its reads are sent; a tile is read at once (R286, R299, R378). -/
def State.startReads (s : State) (core : Nat) (q : CopyReq) (f : Flight) : Flight × State :=
  let cs := chunkPieces q.r f.chunk
  match s.placePieces core q q.srcSide q.dstSide cs with
  | (.error e, s) => ({ f with stage := .over, res := { status := e } }, s)
  | (.ok ps, s) =>
    let f := { f with ps := ps, stage := .reading }
    if q.srcSide = .tile then
      let vs := ps.map (s.tileRead core)
      let ts := (ps.filterMap (fun p => match p.src with | .tile t _ => some t | _ => none)).take 1
      let s := s.stamp core ts (fun x t => { x with outEnd := some t })
      if vs.any (·.2) then (ts.foldl (fun s t => s.storageError core t) s).endFlight core f { status := 6 }
      else ({ f with vals := vs.map (·.1) }, s)
    else
      let (ops, s) := s.sendParts core q .load (fun _ => 0) (mapFrom (fun i (x : (Nat × Nat × Nat) × Piece) => { i := i, va := x.1.1, at_ := x.2.src, n := x.2.n }) 0 (cs.zip ps))
      ({ f with ops := ops }, s)

/-- Every byte of a chunk has been read: unless the destination refuses it now (R266, R299), its writes are sent; a tile is written at
once. -/
def State.startWrites (s : State) (core : Nat) (q : CopyReq) (f : Flight) : Flight × State :=
  let as := s.flightAccs f
  let st := accStatus as
  let vals := if q.srcSide = .tile then f.vals else mapFrom (fun i (_ : Piece) => match as.find? (fun a => a.lane == i) with | some a => a.res | none => 0) 0 f.ps
  let s := s.dropFlight f
  if st ≠ 0 then s.endFlight core { f with ops := [] } { status := st }
  else if f.ps.any (fun p => s.sideRefuses core q p.dst true) then ({ f with stage := .over, ops := [], vals := [], res := { status := 2 } }, s)
  else
    let ty := fmtTy q.r.fmt
    let elems := fun (n : Nat) => n / (ty.width / 8)
    let parts := mapFrom (fun i (x : (Nat × Nat × Nat) × Piece × Nat) =>
      ({ i := i, va := x.1.2.1, at_ := x.2.1.dst, n := x.2.1.n, data := if q.reduce then scaleElems ty q.wexp (elems x.2.1.n) x.2.2 else x.2.2 } : Part)) 0
      ((chunkPieces q.r f.chunk).zip (f.ps.zip vals))
    if q.dstSide = .tile then
      let s := parts.foldl (fun s p => match p.at_ with
        | .tile t o => s.updTile core t (fun x => { x with data := msets byteZero x.data o (leBytes p.n p.data), bad := x.bad.filter (fun b => b < o || o + p.n ≤ b) })
        | .key _ _ _ => s) s
      ({ f with stage := .over, ops := [], vals := [] }, s)
    else
      let (ops, s) := s.sendParts core q (if q.reduce then .comb q.r.fmt q.r.rop else .store) elems (mergeParts parts)
      ({ f with stage := .writing, ops := ops, vals := [] }, s)

/-- Every write of a chunk has been acknowledged: the latest instant, and the saturated elements as each line was combined (R93, R301). -/
def State.endWrites (s : State) (core : Nat) (q : CopyReq) (f : Flight) : Flight × State :=
  let as := s.flightAccs f
  let ty := fmtTy q.r.fmt
  let sat := if q.reduce then as.foldl (fun n a => n + (reduceElems ty q.r.rop a.data2 a.res a.data).2) 0 else 0
  s.endFlight core f { status := accStatus as, tc := as.foldl (fun n a => max n a.tc) 0, sat := sat }

/-- A chunk in flight goes on by one stage, if it can; `ahead`: the chunks issued before it have sent their writes. -/
def State.advanceFlight (s : State) (core : Nat) (q : CopyReq) (ahead : Bool) (f : Flight) : Flight × State :=
  match f.stage with
  | .sent => s.startReads core q f
  | .reading => if ahead && (s.flightAccs f).all Acc.final then s.startWrites core q f else (f, s)
  | .writing => if (s.flightAccs f).all Acc.final then s.endWrites core q f else (f, s)
  | .over => (f, s)

/-- The chunks in flight go on, in the order of their issue (R300). -/
def State.advanceFlights (s : State) (core : Nat) (q : CopyReq) : Bool → List Flight → List Flight × State
  | _, [] => ([], s)
  | ahead, f :: fs =>
    let (f, s) := s.advanceFlight core q ahead f
    let (rest, s) := s.advanceFlights core q (ahead && (f.stage == .writing || f.stage == .over)) fs
    (f :: rest, s)

/-! ### Completion (R296, R298) -/

/-- Count failed chunks of a request in the error record: those the ring has room for are written, the others counted
(R299, R356). -/
def State.chunkErrs (s : State) (ctx rec_ first n code : Nat) : State :=
  match mfind s.ctxs ctx with
  | none => s
  | some c =>
    let most := min n c.errSlots
    let s := (List.range most).foldl (fun s i => s.addErr ctx (.chunk rec_ (first + i) code)) s
    if n = most then s
    else
      { (s.sendWrite (.own 0) (.red .add) (s.hub.ctxtab + 256 * ctx + 0x4C) 4 (n - most)) with
        ctxs := mupd s.ctxs ctx (fun c => { c with errLost := c.errLost + (n - most) }) }

/-- One update of a barrier object (R296): bytes reported, failed chunks, the instant of those that completed. (DEDUCED, log 50) -/
def State.boCount (s : State) (q : CopyReq) (bytes failed tc : Nat) : State :=
  if !q.r.bo || q.r.bobj % 16 != 0 || (match s.grp? q.gid with | some g => decide (q.r.bobj + 16 > (s.scratch g).1) | none => true) then s
  else
    let v := s.spRead q.gid q.r.bobj 16
    let last := max (v % 2 ^ 64) tc
    let rem := (v / 2 ^ 64 % 2 ^ 48 + 2 ^ 48 - bytes % 2 ^ 48) % 2 ^ 48
    let fl := min 65535 (v / 2 ^ 112 + failed)
    s.spWrite q.gid q.r.bobj 16 (last + 2 ^ 64 * rem + 2 ^ 112 * fl)

/-- The status words of a record (Table 19-1). -/
def CopyReq.statusWords (q : CopyReq) : Nat :=
  2 ^ 31 + q.fstat * 2 ^ 16 + min 65535 q.fcount + 2 ^ 32 * (if q.fcount = 0 then 0xFFFFFFFF else q.ffirst) + 2 ^ 64 * (q.satcnt % 2 ^ 32)
    + 2 ^ 96 * (q.bytes % 2 ^ 64)

/-- The departures of a gang that ends (R315). -/
def State.sendDepartures (s : State) (k : Gang) : State :=
  { s with departs := s.departs ++ k.meets.map (fun p => { meet := p.1, member := p.2.1, ctx := p.2.2, gang := k.idx }) }

/-- A gang ends when its teams and its sequencer have ended; its launch counts it, with the statuses of its teams (R36,
R37). -/
def State.gangEnd (s : State) (gang : Nat) : State :=
  match mfind s.gangs gang with
  | none => s
  | some k =>
    if k.teams.any (fun t => t.live || t.copying) || k.seq.any (fun q => (s.grp? q).isSome) then s
    else
      let s := s.sendDepartures k
      { s with gangs := mdel s.gangs gang,
               launches := mupd s.launches k.launch (fun l =>
                 { l with ended := l.ended + 1, badTeams := l.badTeams + (k.teams.filter (fun t => t.status != 0)).length,
                          worst := k.teams.foldl (fun n t => max n t.status) l.worst }) }

/-- A team's scratchpad and tiles are freed (R36, R304), and its gang may end with it. -/
def State.teamFreed (s : State) (gang team status : Nat) : State :=
  let t := s.team gang team
  let s := s.updTeam gang team (fun t => { t with copying := false, sp := [], scratch := 0, grans := [], status := if t.status = 0 then status else t.status })
  (s.freeTeamTiles t.core gang team (if status = 0xC then 0xC else 0)).gangEnd gang

/-- A request has been reported whole: its status words are written and, `last` applied after them, it is reported (R296, R298,
R304, R311). -/
def State.copyEnd (s : State) (core ch : Nat) (q : CopyReq) (last : State → State) : State :=
  let s := s.updChan core ch (fun c => { c with reqs := c.reqs.drop 1 })
  match q.who with
  | .op id => (last (s.spWrite q.gid (q.addr + 0x2C) 20 q.statusWords)).endOp id
  | .exit gang team => s.teamFreed gang team q.fstat
  | .mig => s
  | .meet id _ _ _ =>
    { s with ops := mupd s.ops id (fun o => match o.kind with
      | .mcont d lanes m => { o with kind := .mcont d lanes { m with st := .ended q.fstat q.fcount q.satcnt } }
      | _ => o) }

/-- COPY_START (R298): at the head of its channel a request waits for the group's earlier stores, atomics and label instructions,
then for the Regulator to pass the group's %ctime by 2. A malformed one completes at once (R295). -/
def execCopyStart (core ch : Nat) (s : State) : Out :=
  .next (match s.chanHead core ch with
    | none => s
    | some q =>
      let ctime := match q.who, s.grp? q.gid with | .op _, some g => g.ctime.toNat + 2 | _, _ => 0
      if q.started || q.before.any (fun id => (mfind s.ops id).isSome) || decide (s.coreTime core < ctime) then s
      else if copyBad q.r q.reduce (q.who == .mig) then
        if (copySized q.r) then
          let q := { q with fcount := (copyChunks q.r), fstat := 2, ffirst := 0 }
          (s.chunkErrs q.ctx q.addr 0 (copyChunks q.r) 2).copyEnd core ch q (fun s => s.boCount q (copyTotal q.r) (copyChunks q.r) 0)
        else s.copyEnd core ch (match q.who with | .exit _ _ => { q with fstat := 2 } | _ => q) id
      else s.updHead core ch (fun q => { q with started := true }))

/-- Channels with a chunk to issue, in round-robin order from the one after `last`. -/
def State.readyChans (s : State) (core : Nat) : List (Nat × CopyReq) :=
  ((List.range 16).map (fun i => ((s.core core).lastChan + 1 + i) % 16)).filterMap (fun ch =>
    match s.chanHead core ch with
    | some q => if q.started && decide (q.issued < (copyChunks q.r)) then some (ch, q) else none
    | none => none)

/-- The channel granted (R303): one that has waited through 64 grants, else the highest CLASS, equal ones in turn. -/
def State.grantChan (s : State) (core : Nat) : Option (Nat × CopyReq) :=
  let rs := s.readyChans core
  match rs.find? (fun c => decide ((s.chan core c.1).waited ≥ 64)) with
  | some c => some c
  | none =>
    let top := rs.foldl (fun n c => max n c.2.r.cls) 0
    rs.find? (fun c => c.2.r.cls == top)

/-- CHUNK_ARBITRATION (R303): the granted channel's next chunk is on its way; one of a gang that a storage error has stopped is not started
and is reported CANCELLED (R286). -/
def execChunkArbitration (core : Nat) (s : State) : Out :=
  .next (match s.grantChan core with
    | none => s
    | some (ch, q) =>
      let others := (s.readyChans core).filter (fun c => c.1 != ch)
      let s := others.foldl (fun s c => s.updChan core c.1 (fun x => { x with waited := x.waited + 1 })) s
      let s := s.updChan core ch (fun c => { c with waited := 0 })
      let s := s.updCore core (fun c => { c with lastChan := ch })
      let stop := (s.grp? q.gid).any (fun g => g.dead)
      let f : Flight := if stop then { chunk := q.issued, stage := .over, res := { status := 0xC } } else { chunk := q.issued }
      s.updHead core ch (fun q' => { q' with issued := q.issued + 1, flight := q'.flight ++ [f] }))

/-- The status that a chunk meets on its way (R299). -/
def LinkFate.status : LinkFate → Nat
  | .ok => 0 | .uncorrectable => 3 | .linkDown => 5 | .storageError => 6

/-- Report chunk `c` with its result (R299): counts, the error record, a notification for an absent page, the barrier object, and
with the last chunk the request's completion. -/
def State.reportChunk (s : State) (core ch : Nat) (q : CopyReq) (c : Nat) (r : ChunkRes) : State :=
  let n := chunkLen q.r c
  let bad := r.status != 0
  let lowest := bad && (q.fcount == 0 || decide (c < q.ffirst))
  let q := { q with reported := q.reported + 1, satcnt := q.satcnt + (if bad then 0 else r.sat), bytes := q.bytes + (if bad then 0 else n),
                    fcount := q.fcount + b2n bad, fstat := if lowest then r.status else q.fstat, ffirst := if lowest then c else q.ffirst }
  let s := s.updHead core ch (fun _ => q)
  let s := if bad then s.addErr q.ctx (.chunk q.addr c r.status) else s
  let s := if r.status = 1 then s.notify { kind := 5, ctx := q.ctx, body := [(8, q.addr), (4, c), (4, r.status)] } else s
  let count := fun (s : State) => s.boCount q n (b2n bad) (if bad then 0 else r.tc)
  if q.reported = (copyChunks q.r) then s.copyEnd core ch q count else count s

/-- CHUNK_REPORT (R299): the chunks in flight go on as far as their accesses have come; one of those that have been acknowledged or
refused, any of them, is reported, with what became of it on its link. -/
def execChunkReport (core ch : Nat) (link : LinkFate) (s : State) : Out :=
  .next (match s.chanHead core ch with
    | none => s
    | some q =>
      let (fl, s) := s.advanceFlights core q true q.flight
      let q := { q with flight := fl }
      let s := s.updHead core ch (fun _ => q)
      let ready := fl.filter (fun f => f.stage == .over)
      let (k, s) := if ready.length ≤ 1 then (0, s) else s.choose ready.length
      match ready[k]? with
      | none => s
      | some f =>
        let q := { q with flight := eraseFirst (fun x => x.chunk == f.chunk) fl }
        let s := s.updHead core ch (fun _ => q)
        if f.res.status = 0 ∧ link ≠ .ok then (s.spoil core f.ps).reportChunk core ch q f.chunk { f.res with status := LinkFate.status link }
        else s.reportChunk core ch q f.chunk f.res)

/-- MIGRATION_REQUEST (R292): a request of system software through the hub. -/
def execMigrationRequest (core ctx : Nat) (r : CopyRec) (s : State) : Out :=
  .next (s.addReq core { who := .mig, ctx := ctx, cluster := core / 4, r := r })

end Sys2Proof.Machine
end

