-- ==== Sys2Proof/Machine/Meeting.lean ====
section
/-! DEFINITION. Machine/Meeting.lean: Chime meetings (R306–R319): the header that the unit holds, member entries and round
records in memory, admission, strikes, results, death and quorum. A meeting's record is found by the memory key of its
first byte and lies in memory from there on (log 31). -/

namespace Sys2Proof.Machine

/-! ### The record (R306–R308) -/

/-- Raise to a multiple of 4,096. -/
def up4k (x : Nat) : Nat := (x + 4095) / 4096 * 4096

/-- λ, the slots, an element's bytes, and the places of slots (R308). -/
def Meet.lam (m : Meet) : Nat := max m.lag 1
def Meet.slots (m : Meet) : Nat := m.lam + 2
def Meet.esize (m : Meet) : Nat := if m.fmt = 1 then 2 else 4
def Meet.slotSize (m : Meet) : Nat := up4k (1024 + m.l * m.esize)
def Meet.slotOff (m : Meet) (r : Nat) : Nat := up4k (256 + 32 * m.n) + r % m.slots * m.slotSize

/-- FMT as CPYR numbers it (Table 19-1). -/
def Meet.cfmt (m : Meet) : Nat := if m.fmt = 2 then 3 else m.fmt

/-- The identity of the operation (R312). -/
def Meet.identity (m : Meet) : Nat :=
  let ty := fmtTy m.cfmt
  if m.op = 0 then 0
  else if ty.isFloat then Ty.signBit ty (m.op == 2) + (Ty.maxCode ty + 1)
  else if m.op = 1 then 0x7FFFFFFF else 0x80000000

/-- The header of a record of 256 bytes; `none` where it is malformed (R306, R310). -/
def parseMeet (x : Nat) : Option Meet :=
  let f := fieldAt x
  let w18 := f 0x18 4
  let m : Meet :=
    { n := f 0 4, k := f 4 4, l := f 8 4, fmt := f 0xC 1, op := f 0xD 1, lag := f 0xE 1, late := f 0xF 1, open_ := f 0x10 4, live := 0,
      stall := false, disc := f 0x20 8, ord := bitAt w18 8, cls := bits w18 4 2, chan := bits w18 0 4 }
  if 1 ≤ m.n && m.n ≤ 4096 && 1 ≤ m.k && m.k ≤ m.n && 1 ≤ m.l && m.l ≤ 16777216 && m.fmt ≤ 2 && m.op ≤ 2 && m.lag ≤ 7 && m.late ≤ 2
    && !(m.late == 1 && (m.op != 0 || m.fmt == 2)) && m.open_ ≤ 0xFFFFFFF0
    && f 0x16 2 == 0 && bits w18 10 22 == 0 && bits w18 6 2 == 0 && f 0x1C 4 == 0 && x / 2 ^ (8 * 0x28) == 0 then some m
  else none

/-- The unit whose agent a meeting's home Chime unit acts as: that of its own device (R224). -/
def chimeUnit (mk : Nat) : Nat := if (keyDev mk).isSome then remoteUnit else hubAgent

/-- A device-scope store of the Chime unit of meeting `mk` (R306): it goes home as any access does, and the unit does not wait for it. -/
def State.put48 (s : State) (mk key n x : Nat) : State :=
  let id := s.nextId
  (s.sendOp { gid := 0, cluster := chimeUnit mk, job := .own mk,
              kind := .mem { kind := .store, ty := .b64, width := n } [{ lane := 0, va := 0, key := key, data := x, st := .wait }] }).homeRequest id 0

/-- Stores of the Chime unit over a range, line by line. -/
def State.put48s (s : State) (mk : Nat) : Nat → Nat → List Byte → State
  | 0, _, _ => s
  | fuel + 1, key, bs =>
    match bs with
    | [] => s
    | b :: rest =>
      let n := lineLeft key
      (s.put48 mk key (min n (b :: rest).length) (leNat ((b :: rest).take n))).put48s mk fuel (key + n) ((b :: rest).drop n)

/-- Memory as the Chime unit of meeting `mk` sees it: with its own stores that are still on their way. -/
def State.chime (s : State) (mk a n : Nat) : Nat :=
  leNat (mgets byteZero (s.ops.foldl (fun m e => match e.2.job, e.2.desc? with
    | .own k, some d => if k = mk then e.2.accs.foldl (fun m x => if x.final then m else msets byteZero m x.key (leBytes d.width x.data)) m else m
    | _, _ => m) s.mem) a n)

/-- Stores of the Chime unit that are still on their way. -/
def State.chimeOps (s : State) (mk : Nat) : List Nat := (s.ops.filter (fun e => e.2.job == .own mk)).map (·.1)

/-- Key of a member's entry (R307), and its fields. -/
def memberKey (key m : Nat) : Nat := key + 0x100 + 32 * m
def State.memberState (s : State) (key m : Nat) : Nat := s.chime key (memberKey key m) 1
def State.memberTag (s : State) (key m : Nat) : Nat := s.chime key (memberKey key m + 4) 4
def State.memberCtx (s : State) (key m : Nat) : Nat := s.chime key (memberKey key m + 8) 4
def State.memberGang (s : State) (key m : Nat) : Nat := s.chime key (memberKey key m + 0xC) 4
def State.memberHave (s : State) (key m : Nat) : Bool := bitAt (s.chime key (memberKey key m + 0x10) 4) 16
def State.setMemberState (s : State) (key m st : Nat) : State := s.put48 key (memberKey key m) 1 st
/-- LASTTAG and HAVE (R311). -/
def State.setMemberTag (s : State) (key m r : Nat) : State :=
  (s.put48 key (memberKey key m + 4) 4 r).put48 key (memberKey key m + 0x12) 1 1
/-- One more discarded contribution of a member. -/
def State.memberDisc (s : State) (key m : Nat) : State :=
  let d := s.chime key (memberKey key m + 0x14) 4
  s.put48 key (memberKey key m + 0x14) 4 (min (d + 1) 0xFFFFFFFF)

/-- Write OPEN, LIVE, STALL and DISC back to the record; the other bits there are left as software wrote them (R306). -/
def State.writeHeader (s : State) (key : Nat) : State :=
  match mfind s.meets key with
  | none => s
  | some m =>
    let w := s.chime key (key + 0x19) 1
    let s := s.put48 key (key + 0x10) 8 (m.open_ + 2 ^ 32 * m.live)
    let s := s.put48 key (key + 0x19) 1 (w / 4 * 4 + 2 * b2n m.stall + w % 2)
    s.put48 key (key + 0x20) 8 (min m.disc (2 ^ 64 - 1))

def State.updMeet (s : State) (key : Nat) (f : Meet → Meet) : State := { s with meets := mupd s.meets key f }

/-- `n` copies of an element. -/
def fillElems (n size x : Nat) : List Byte := (List.replicate n (leBytes size x)).flatten

/-- The slot of round `r` starts anew: a cleared round record, and the identity in its accumulator (R306, R312). -/
def State.clearSlot (s : State) (key r : Nat) : State :=
  match mfind s.meets key with
  | none => s
  | some m =>
    let base := key + m.slotOff r
    let s := s.put48s key 1024 base (List.replicate 1024 0)
    let bs := fillElems m.l m.esize m.identity
    (s.put48s key bs.length (base + 0x400) bs).updMeet key (fun m => { m with mine := m.mine.filter (fun p => p.1 % m.slots != r % m.slots) })

/-! ### Streams and results in progress -/

/-- The streams of a meeting, with their operations, oldest first. -/
def State.streams (s : State) (key : Nat) : List (Nat × Op × Opnd × Word × Stream) :=
  s.ops.filterMap (fun e => match e.2.kind with
    | .mcont d lanes m => if m.meet == key then some (e.1, e.2, d, lanes, m) else none
    | _ => none)

/-- Give an operation its answer: `v` reaches `d` in each of the lanes when its status returns, after the Chime unit's stores that come
before the report (R306, R321). -/
def State.reply (s : State) (id : Nat) (d : Opnd) (w : Nat) (lanes : Word) (v : Nat) (tc : Option Nat) : State :=
  { s with ops := mupd s.ops id (fun o => { o with kind := .reply (some d) w ((lanesOf lanes).map (fun l => (l, v))) none tc, after := s.nextId }) }

/-- Addresses and lengths of the lines of `n` bytes from `va`. -/
def linesOf : Nat → Nat → Nat → List (Nat × Nat)
  | 0, _, _ => []
  | fuel + 1, va, n => if n = 0 then [] else (va, min n (lineLeft va)) :: linesOf fuel (va + lineLeft va) (n - lineLeft va)

/-- Translate every line of a result buffer for the issuer: the keys, or the status of the first that fails (R313). -/
def State.bufKeys (s : State) (mk cluster ctx : Nat) : List (Nat × Nat) → Except Nat (List (Nat × Nat × Bool × Bool)) × State
  | [] => (.ok [], s)
  | (va, n) :: rest =>
    match s.translate (dieOf cluster) ctx (BitVec.ofNat 64 va) .w with
    | (.ok key lk mg, s) =>
      if lk && s.lockRefusesKey (chimeUnit mk) key true then (.error 2, s)
      else match s.bufKeys mk cluster ctx rest with
        | (.ok ks, s) => (.ok ((key, n, lk, mg) :: ks), s)
        | (.error e, s) => (.error e, s)
    | (t, s) => (.error (outcomeStatus t.code), s)

/-- Send the stores of a result to translated lines, as the Chime unit's agent through the issuer's translations (R313). -/
def State.putResult (s : State) (mk op ctx : Nat) : List (Nat × Nat × Bool × Bool) → List Byte → State
  | [], _ => s
  | (key, n, lk, mg) :: ks, bs =>
    let id := s.nextId
    ((s.sendOp { gid := 0, ctx := ctx, cluster := chimeUnit mk, job := .result op,
                 kind := .mem { kind := .store, ty := .b64, width := n }
                   [{ lane := 0, va := 0, key := key, lockok := lk, mig := mg, data := leNat (bs.take n), st := .wait }] }).homeRequest id 0).putResult
      mk op ctx ks (bs.drop n)

/-- Serve an MRSLT from a closed round's slot (R313, R321): its stores are sent, and its status goes out once they have their instants.
(DEDUCED, log 51) -/
def State.serveResult (s : State) (id : Nat) : State :=
  match mfind s.ops id with
  | none => s
  | some o =>
    match o.kind with
    | .mrslt d lanes key mem tag buf _ =>
      match mfind s.meets key with
      | none => s
      | some m =>
        let n := 1024 + m.l * m.esize
        let slot := key + m.slotOff tag
        if buf.toNat % 128 ≠ 0 then s.reply id d 1 lanes 2 none
        else match s.bufKeys key o.cluster o.ctx (linesOf n buf.toNat n) with
          | (.error e, s) => s.reply id d 1 lanes e none
          | (.ok ks, s) =>
            let st := s.chime key (slot + 0x14) 1
            let bs := leBytes n (s.chime key slot n)
            let s := { s with ops := mupd s.ops id (fun o => { o with kind := .mrslt d lanes key mem tag buf (some st), after := s.nextId }) }
            s.putResult key id o.ctx ks bs
    | _ => s

/-- The MRSLTs of a meeting that wait, all or those of one tag. -/
def State.waiters (s : State) (key : Nat) (tag : Option Nat) : List (Nat × Opnd × Word) :=
  s.ops.filterMap (fun e => match e.2.kind with
    | .mrslt d lanes k _ r _ none => if k == key && tag.all (fun t => t == r) then some (e.1, d, lanes) else none
    | _ => none)

/-! ### Strikes and quorum (R312, R316) -/

/-- Close the open round, and the next one, while their arrivals meet K and none of their streams is incomplete (R312). -/
def State.closeRounds (s : State) (key : Nat) : Nat → State
  | 0 => s
  | fuel + 1 =>
    match mfind s.meets key with
    | none => s
    | some m =>
      let r := m.open_
      let slot := key + m.slotOff r
      if r = 0xFFFFFFFF || s.chime key (slot + 4) 4 < m.k || (s.streams key).any (fun e => e.2.2.2.2.round == r && e.2.2.2.2.st != .waiting) then s
      else
        let s := (s.put48 key slot 4 r).put48 key (slot + 0x18) 8 (s.homeNow key)
        let s := (s.updMeet key (fun m => { m with open_ := r + 1 })).writeHeader key
        let s := s.clearSlot key (r + 2)
        let s := (s.waiters key (some r)).foldl (fun s w => s.serveResult w.1) s
        s.closeRounds key fuel

/-- An admitted stream goes to its core's copy engine (R311), after the Chime unit's stores that cleared its slot. -/
def State.startStream (s : State) (id : Nat) (o : Op) (key : Nat) (st : Stream) : State :=
  match mfind s.meets key with
  | none => s
  | some m =>
    let r : CopyRec := { src := st.buf.toNat, dst := 0, len := m.l * m.esize, rows := 1, sstride := 0, dstride := 0, bobj := 0, fmt := m.cfmt,
                         rop := m.op, mig := false, bo := false, cls := m.cls, chan := m.chan, dkind := 0, skind := 0, ddev := 0, sdev := 0,
                         reserved := 0 }
    let w := if m.op = 0 then st.wexp else 0
    let s := s.addReq o.core { who := .meet id (key + m.slotOff st.round + 0x400) w st.lockok, gid := o.gid, ctx := o.ctx, cluster := o.cluster,
                               reduce := true, r := r, before := s.chimeOps key }
    { s with ops := mupd s.ops id (fun o => match o.kind with
      | .mcont d l _ => { o with kind := .mcont d l { st with st := .running } }
      | _ => o) }

/-- Every lower-numbered JOINED member has arrived for round `r` (R317). -/
def State.lowerArrived (s : State) (key : Nat) (m : Meet) (member r : Nat) : Bool :=
  (List.range member).all (fun j => s.memberState key j != 1 || m.mine.contains (r, j))

/-- STALL from LIVE and K; a stall answers the waiting MRSLTs, and rounds whose arrivals meet K close (R312, R316). -/
def State.strike (s : State) (key : Nat) : State :=
  match mfind s.meets key with
  | none => s
  | some m =>
    let stall := decide (m.live < m.k)
    let s := if stall = m.stall then s else (s.updMeet key (fun m => { m with stall := stall })).writeHeader key
    let s := if stall then (s.waiters key none).foldl (fun s w => s.reply w.1 w.2.1 1 w.2.2 7 none) s else s
    s.closeRounds key 3

/-- A change of LIVE, written back before any report that depends on it (R306). -/
def State.changeLive (s : State) (key : Nat) (f : Nat → Nat) : State :=
  ((s.updMeet key (fun m => { m with live := f m.live, stall := decide (f m.live < m.k) })).writeHeader key).strike key

/-- What the Chime unit makes of an MCONT (R311). -/
inductive Admission
  | status (v : Nat)
  /-- Late under DROP. -/
  | drop
  /-- Beyond the lag. -/
  | lapse
  | stream (round : Nat) (folded : Bool) (wexp : Nat)
  deriving DecidableEq, Repr

/-- The judgement of R311, in its order. -/
def State.judgeMeet (s : State) (key ctx m r : Nat) : Admission :=
  match mfind s.meets key with
  | none => if bitAt (s.chime key (key + 0x18) 4) 9 then .status 7 else .status 2
  | some mt =>
    let d := toSigned 32 (r + 2 ^ 32 - mt.open_)
    if mt.stall then .status 7
    else if m ≥ mt.n || s.memberState key m != 1 || s.memberCtx key m != ctx || (s.memberHave key m && decide (r ≤ s.memberTag key m)) || decide (d > 1)
    then .status 2
    else if d ≥ 0 then .stream r false 0
    else if d ≥ -(mt.lag : Int) then
      if mt.late = 2 then .drop else .stream mt.open_ true (if mt.late = 1 then d.natAbs else 0)
    else .lapse

/-- The Chime unit judges the contribution that operation `id` offers (R311). With ORD = 1 the admission of an own-tag stream waits until
the lower-numbered members have arrived for its round (R317): it is then judged anew. -/
def State.admitStream (s : State) (key id : Nat) : State :=
  match mfind s.ops id with
  | none => s
  | some o =>
    match o.kind with
    | .mcont d lanes st =>
      let m := st.member
      if st.st ≠ .waiting then s
      else match s.judgeMeet key o.ctx m st.tag with
        | .status v => s.reply id d 1 lanes v none
        | .drop =>
          let s := (((s.updMeet key (fun mt => { mt with disc := mt.disc + 1 })).memberDisc key m).setMemberTag key m st.tag).writeHeader key
          s.reply id d 1 lanes 0x0B none
        | .lapse =>
          let s := ((s.updMeet key (fun mt => { mt with disc := mt.disc + 1 })).memberDisc key m).setMemberState key m 2
          (s.changeLive key (fun n => n - 1)).reply id d 1 lanes 0x0B none
        | .stream round folded w =>
          let held := (mfind s.meets key).any (fun mt => mt.ord && !folded && !(s.lowerArrived key mt m round))
          if held then s
          else (s.setMemberTag key m st.tag).startStream id o key { st with round := round, folded := folded, wexp := w }
    | _ => s

/-- Judge the contributions that are held, oldest first (R317). -/
def State.pump (s : State) (key : Nat) : State :=
  ((s.streams key).filter (fun e => e.2.2.2.2.st == .waiting)).foldl (fun s e => s.admitStream key e.1) s

/-- The consequences of arrivals and of changes of LIVE or K (R312, R316, R317). -/
def State.quorum (s : State) (key : Nat) : State := (s.strike key).pump key

/-- Writes to K take effect at their instants (R316): the meetings whose K was written. -/
def State.settleK (s : State) : State :=
  if s.meets.any (fun e => e.2.kNew) then
    (s.meets.filter (fun e => e.2.kNew)).foldl (fun s e => (s.updMeet e.1 (fun m => { m with kNew := false })).quorum e.1) s
  else s

/-- A meeting with no member JOINED or LAPSED is no longer active (R306). -/
def State.idleMeet (s : State) (key : Nat) : State :=
  match mfind s.meets key with
  | none => s
  | some m =>
    if (List.range m.n).any (fun j => let t := s.memberState key j; t == 1 || t == 2) then s else { s with meets := mdel s.meets key }

/-! ### The instructions (R309–R314) -/

/-- A record as the issuing core reaches it: its key, whether locks apply, and whether it lies in pinned device HBM. (DEDUCED, log 31) -/
structure MeetRef where
  va : Nat
  key : Nat
  lockok : Bool
  pinned : Bool
  deriving DecidableEq, Repr

/-- Translate a record address (R309): the reference, or a status. (DEDUCED, log 52) -/
def State.meetRef (s : State) (g : Group) (va : DWord) (need : Need) : Except Nat MeetRef × State :=
  match s.translate (dieOf g.cluster) g.ctx va need with
  | (.ok key lk _, s) =>
    let hbm := decide (key % 2 ^ 52 < Config.hbmEnd)
    let pin := if (mget {} s.ctxs g.ctx).inWindow va.toNat then true
      else match s.walk g.ctx va need with
        | .leaf l => l.pin
        | _ => false
    (.ok { va := va.toNat, key := key, lockok := lk, pinned := hbm && pin }, s)
  | (t, s) => (.error (outcomeStatus t.code), s)

/-- The two traps of a record address (R309). -/
def Issue.meetTrap (x : Issue) (s : State) (va : DWord) : Option State :=
  if !canonical va then some (s.queueTrap x.gid (x.trap s 0x0D x.act x.act va))
  else if va.toNat % 4096 ≠ 0 then some (s.queueTrap x.gid (x.trap s 0x12 x.act x.act va))
  else none

/-- Issue of a meeting instruction: an empty Active does nothing; then the traps, the translation, and `eff` at the Chime
unit. -/
def meetOp (a : Opnd) (need : Need) (fail : Issue → Nat → State → State) (eff : Issue → MeetRef → State → State) (x : Issue) (s : State) : State :=
  if x.act = 0 then x.done s id
  else
    let va := BitVec.ofNat 64 (x.g.opnd a 2 x.lead)
    match x.meetTrap s va with
    | some s => s
    | none =>
      match s.meetRef x.g va need with
      | (.error e, s) => fail x e s
      | (.ok m, s) => eff x m s

/-- A counted status on its way to D (R309). -/
def Issue.statusOp (x : Issue) (d : Opnd) (cls : Option Cls) (v : Nat) (s : State) : State :=
  let id := s.nextId
  let s := s.addOp x.gid cls (.reply (some d) 1 ((lanesOf x.act).map (fun l => (l, v))) none none)
  x.done { s with ops := mupd s.ops id (fun o => { o with after := id }) } (fun g => g)

/-- The run is held until operation `id` has been answered (R15). -/
def Issue.hold (x : Issue) (id : Nat) (s : State) : State := s.updGrp x.gid (fun g => { g with block := .meet id x.run })

/-- A status, uncounted, for which the run is held: words `v` for `w` registers of D. -/
def Issue.heldOp (x : Issue) (d : Opnd) (w v : Nat) (s : State) : State :=
  x.hold s.nextId (s.addOp x.gid none (.reply (some d) w ((lanesOf x.act).map (fun l => (l, v))) none none))

/-- Make an idle meeting active with its first member to come (R306): `none` for a malformed record or a 65th meeting. -/
def State.activate (s : State) (ref : MeetRef) : Option State :=
  match parseMeet (s.chime ref.key ref.key 256) with
  | none => none
  | some m =>
    if ((s.meets.filter (fun e => s.homeSlice e.1 == s.homeSlice ref.key)).length) ≥ 64 then none
    else some { s with meets := mput s.meets ref.key m }

/-- MJOIN at the Chime unit (R310): the status. -/
def State.join (s : State) (x : Issue) (ref : MeetRef) (m : Nat) : Nat × State :=
  let key := ref.key
  let fresh := (mfind s.meets key).isNone
  let k : Gang := mget {} s.gangs x.g.gang
  match (if !ref.pinned then none else if fresh then s.activate ref else some s) with
  | none => (2, s)
  | some t =>
    match mfind t.meets key with
    | none => (2, s)
    | some mt =>
      let held := (k.meets.map (·.1)).foldl (fun l e => if l.contains e then l else e :: l) []
      if m ≥ mt.n || (!fresh && s.memberState key m == 1) || held.length ≥ 4 then (2, s)
      else
        let t := if fresh then (t.clearSlot key mt.open_).clearSlot key (mt.open_ + 1) else t
        let t := t.setMemberState key m 1
        let t := (t.put48 key (memberKey key m + 8) 8 (x.g.ctx + 2 ^ 32 * k.idx)).put48 key (memberKey key m + 0x10) 2 t.devNo
        let t := { t with gangs := mupd t.gangs x.g.gang (fun (k : Gang) =>
          { k with meets := k.meets.filter (fun (p : Nat × Nat × Nat) => !(p.1 == key && p.2.1 == m)) ++ [(key, m, x.g.ctx)] }) }
        (0, (t.changeLive key (fun n => if fresh then 1 else n + 1)).pump key)

/-- MJOIN (R310). -/
def execMjoin (h : Hdr) (d a b : Opnd) (s : State) : Out :=
  laneInstr (.mjoin h d a b) false s (meetOp a .w (fun x e s => x.statusOp d (some .mt) e s) (fun x ref s =>
    let (st, s) := s.join x ref (x.g.opnd b 1 x.lead)
    x.statusOp d (some .mt) st s))

/-- MCONT (R311): B holds the tag and the member, C the payload. -/
def execMcont (h : Hdr) (d a b c : Opnd) (s : State) : Out :=
  laneInstr (.mcont h d a b c) false s (meetOp a .w (fun x e s => x.statusOp d (some .mt) e s) (fun x ref s =>
    let p := x.g.opnd b 2 x.lead
    let id := s.nextId
    let st : Stream := { meet := ref.key, member := p / 2 ^ 32, tag := p % 2 ^ 32, buf := BitVec.ofNat 64 (x.g.opnd c 2 x.lead), lockok := ref.lockok }
    x.done (((s.addOp x.gid (some .mt) (.mcont d x.act st)).admitStream ref.key id).pump ref.key) (fun g => g)))

/-- MRSLT at the Chime unit (R313), for the operation `id` that has been entered. -/
def State.result (s : State) (id : Nat) (d : Opnd) (lanes : Word) (key m r : Nat) : State :=
  match mfind s.meets key with
  | none => s.reply id d 1 lanes 2 none
  | some mt =>
    let e := toSigned 32 (r + 2 ^ 32 - mt.open_)
    let st := s.memberState key m
    if m ≥ mt.n || (st != 1 && st != 2) || decide (e > 1) then s.reply id d 1 lanes 2 none
    else if e < -(mt.lam : Int) then s.reply id d 1 lanes 0x0B none
    else if e < 0 then s.serveResult id
    else if mt.stall then s.reply id d 1 lanes 7 none
    else s

/-- MRSLT (R313): the run is held until its status returns. -/
def execMrslt (h : Hdr) (d a b c : Opnd) (s : State) : Out :=
  laneInstr (.mrslt h d a b c) false s (meetOp a .w (fun x e s => x.heldOp d 1 e s) (fun x ref s =>
    let p := x.g.opnd b 2 x.lead
    let id := s.nextId
    let s := s.addOp x.gid none (.mrslt d x.act ref.key (p / 2 ^ 32) (p % 2 ^ 32) (BitVec.ofNat 64 (x.g.opnd c 2 x.lead)))
    x.hold id (s.result id d x.act ref.key (p / 2 ^ 32) (p % 2 ^ 32))))

/-- MLEAVE at the Chime unit (R314): the status. -/
def State.depart (s : State) (x : Issue) (key m : Nat) : Nat × State :=
  match mfind s.meets key with
  | none => (2, s)
  | some mt =>
    let st := s.memberState key m
    if m ≥ mt.n || (st != 1 && st != 2) || s.memberCtx key m != x.g.ctx then (2, s)
    else
      let s := s.setMemberState key m 4
      let s := { s with gangs := mupd s.gangs x.g.gang (fun (k : Gang) => { k with meets := k.meets.filter (fun (p : Nat × Nat × Nat) => !(p.1 == key && p.2.1 == m)) }) }
      let s := if st = 1 then (s.changeLive key (fun n => n - 1)).pump key else s
      (0, s.idleMeet key)

/-- MLEAVE (R314): it issues once the group's mt counter is zero. -/
def execMleave (h : Hdr) (d a b : Opnd) (s : State) : Out :=
  laneInstr (.mleave h d a b) false s (fun x s =>
    if x.act ≠ 0 ∧ x.g.cnt.mt.n ≠ 0 then s
    else meetOp a .w (fun x e s => x.statusOp d (some .mt) e s) (fun x ref s =>
      let (st, s) := s.depart x ref.key (x.g.opnd b 1 x.lead)
      x.statusOp d (some .mt) st s) x s)

/-- A register above a vector operand. -/
def Opnd.up (d : Opnd) (k : Nat) : Opnd := match d with | .v i => .v (i + k) | d => d

/-- MSTAT (R314): the run is held until the words have come (R15). -/
def execMstat (h : Hdr) (d a b : Opnd) (s : State) : Out :=
  laneInstr (.mstat h d a b) false s (meetOp a .r (fun x e s => x.heldOp (Opnd.up d 2) 1 (e * 2 ^ 24) s) (fun x ref s =>
    let key := ref.key
    let m := x.g.opnd b 1 x.lead
    let (n, k, op, live, stall) := match mfind s.meets key with
      | some mt => (mt.n, mt.k, mt.open_, mt.live, mt.stall)
      | none => (s.chime key key 4, s.chime key (key + 4) 4, s.chime key (key + 0x10) 4, s.chime key (key + 0x14) 2, bitAt (s.chime key (key + 0x18) 4) 9)
    if m ≥ n then x.heldOp (Opnd.up d 2) 1 0x02000000 s
    else
      x.heldOp d 4 (op + 2 ^ 32 * ((k * 2 ^ 16 + live) % 2 ^ 32) + 2 ^ 64 * (b2n stall * 2 ^ 8 + s.memberState key m) + 2 ^ 96 * s.memberTag key m) s))

/-- A store of a slice's unit that comes before an operation's answer is still on its way (R306, R321). -/
def State.ownBefore (s : State) (o : Op) : Bool := s.ops.any (fun e => e.1 < o.after && (match e.2.job with | .own _ => true | _ => false))

/-- The accesses that write the result of an MRSLT. -/
def State.resultAccs (s : State) (op : Nat) : List Acc := (s.ops.filter (fun e => e.2.job == .result op)).flatMap (fun e => e.2.accs)

/-- An MRSLT's result has been written: its status is that of the round, or of the first store that was refused or failed (R313); its
instants raise %ctime (R76). -/
def State.endResult (s : State) (op : Nat) (d : Opnd) (lanes : Word) (st : Nat) : State :=
  let as := s.resultAccs op
  let bad := accStatus as
  let s : State := { s with ops := s.ops.filter (fun e => !(e.2.job == .result op)) }
  s.reply op d 1 lanes (if bad = 0 then st else bad) (some (latest as))

/-- An answer reaches its group (R309, R313): the run of an MRSLT or MSTAT goes on. -/
def State.statusReturn (s : State) (op : Nat) (o : Op) : State :=
  match o.kind, o.cls with
  | .reply _ _ vals _ _, some .mt =>
    -- a report that can no longer reach its group (R20)
    let s := if (s.grp? o.gid).isNone then s.addErr o.ctx (.item 0 ((vals.headD (0, 0)).2)) else s
    s.deliverReply op
  | .reply _ _ _ _ _, none =>
    (s.deliverReply op).updGrp o.gid (fun g => match g.block with
      | .meet id lanes => if id = op then { (g.advance lanes) with block := .none } else g
      | _ => g)
  | _, _ => s

/-- MEETING_STATUS_RETURN (R309, R313): a status reaches its group, after the stores of the Chime unit that come before it (R306); that of
a served MRSLT once its result has been written. -/
def execMeetingStatusReturn (op : Nat) (s : State) : Out :=
  .next (match mfind s.ops op with
    | none => s
    | some o =>
      if s.ownBefore o then s
      else match o.kind with
        | .mrslt d lanes _ _ _ _ (some st) =>
          if (s.resultAccs op).all Acc.final then
            let s := s.endResult op d lanes st
            match mfind s.ops op with | some o => s.statusReturn op o | none => s
          else s
        | _ => s.statusReturn op o)

/-! ### Arrivals, deaths and writes to K (R311, R315, R316) -/

/-- Add to a saturating field of a round record. -/
def State.bump (s : State) (mk key n by_ : Nat) : State := s.put48 mk key n (min (s.chime mk key n + by_) (2 ^ (8 * n) - 1))

/-- A stream taints its round (R308, R315): its chunks added and its chunks. -/
def State.taint (s : State) (key ctx : Nat) (st : Stream) (added chunks : Nat) : State :=
  match mfind s.meets key with
  | none => s
  | some m =>
    let slot := key + m.slotOff st.round
    let n := s.chime key (slot + 0x16) 2
    let s := (s.bump key (slot + 0x16) 2 1).put48 key (slot + 0x14) 1 0x0A
    let e := st.member * 2 ^ 48 + added % 2 ^ 24 * 2 ^ 24 + chunks % 2 ^ 24
    if n < 56 then s.put48 key (slot + 0x240 + 8 * n) 8 e else s.addErr ctx (.taint key e)

/-- Chunks of a stream of a meeting. -/
def Meet.streamChunks (m : Meet) : Nat := (m.l * m.esize + 65535) / 65536

/-- CONTRIBUTION_ARRIVAL (R311): a member's stream has had its last chunk reported. It is recorded in its round, or taints it; the
round may strike; then its status goes out (R321). -/
def execContributionArrival (key member : Nat) (s : State) : Out :=
  .next (match (s.streams key).find? (fun e => e.2.2.2.2.member == member && (match e.2.2.2.2.st with | .ended _ _ _ => true | _ => false)), mfind s.meets key with
    | some (id, o, d, lanes, st), some m =>
      match st.st with
      | .ended status failed sat =>
        let slot := key + m.slotOff st.round
        let s := if failed ≠ 0 then s.taint key o.ctx st (m.streamChunks - failed) m.streamChunks
          else
            let c := slot + 0x40 + st.member / 8
            let b := s.chime key c 1
            let s := if bitAt b (st.member % 8) then s else s.put48 key c 1 (b + 2 ^ (st.member % 8))
            let w := (roundTo .f32 .rn .sat (.fin false 1 (-(st.wexp : Int)))).1
            let s := if m.op = 0 then s.put48 key (slot + 0x10) 4 (reduceElem .f32 0 (s.chime key (slot + 0x10) 4) w).1 else s
            let s := s.bump key (slot + 0xC) 4 sat
            if st.folded then s.bump key (slot + 8) 4 1
            else (s.bump key (slot + 4) 4 1).updMeet key (fun m => { m with mine := (st.round, st.member) :: m.mine })
        let s := s.reply id d 1 lanes status none
        s.quorum key
      | _ => s
    | some (id, _, d, lanes, st), none => s.reply id d 1 lanes (match st.st with | .ended status _ _ => status | _ => 0) none
    | _, _ => s)

/-- A stream that a death cuts short (R315): its request leaves its channel, its round is tainted, its operation is dropped. -/
def State.cutStream (s : State) (key : Nat) (e : Nat × Op × Opnd × Word × Stream) : State :=
  match mfind s.meets key with
  | none => s
  | some m =>
    let mine := fun (q : CopyReq) => match q.who with | .meet id _ _ _ => id == e.1 | _ => false
    let qs := (s.core e.2.1.core).chans.flatMap (fun c => c.2.reqs.filter mine)
    -- chunks acknowledged, reported or not
    let written := fun (f : Flight) => f.res.status == 0 && (f.stage == .over || (f.stage == .writing && (s.flightAccs f).all Acc.final && accStatus (s.flightAccs f) == 0))
    let added := match qs, e.2.2.2.2.st with
      | q :: _, _ => q.reported - q.fcount + (q.flight.filter written).length
      | [], .ended _ f _ => m.streamChunks - f
      | [], _ => 0
    let s := qs.foldl (fun s q => q.flight.foldl (fun s f => s.abandonFlight f) s) s
    let s := s.updCore e.2.1.core (fun c => { c with chans := c.chans.map (fun p => (p.1, { p.2 with reqs := p.2.reqs.filter (fun q => !(mine q)) })) })
    let s := if (s.grp? e.2.1.gid).isNone then s.addErr e.2.1.ctx (.item e.2.2.2.2.buf 0xC) else s
    -- one that has not been admitted has no part in a round (R317)
    (if e.2.2.2.2.st = .waiting then s else s.taint key e.2.1.ctx e.2.2.2.2 added m.streamChunks).endOp e.1

/-- MEMBER_DEATH (R315): a departure reaches the Chime unit. A member that is JOINED as it left becomes ABSENT. (DESIGN CHOICE, log 39) -/
def execMemberDeath (key member : Nat) (s : State) : Out :=
  .next (match s.departs.find? (fun d => d.meet == key && d.member == member) with
    | none => s
    | some d =>
      let s := { s with departs := eraseFirst (fun e => e == d) s.departs }
      let mine := match d.dev with
        | some v => s.chime key (memberKey key member + 0x10) 2 == v
        | none => s.memberCtx key member == d.ctx && s.memberGang key member == d.gang
      if (mfind s.meets key).isNone || s.memberState key member != 1 || !mine then s
      else
        let s := s.setMemberState key member 3
        let s := ((s.streams key).filter (fun e => e.2.2.2.2.member == member)).foldl (fun s e => s.cutStream key e) s
        ((s.changeLive key (fun n => n - 1)).pump key).idleMeet key)

/-- K_WRITE (R316): a device-scope store to K, at whose instant the unit takes the value; a stall may end and rounds may
close. -/
def execKWrite (key k : Nat) (s : State) : Out :=
  .next (
    let s := if s.chime key (key + 4) 4 = k % 2 ^ 32 then s else s.put48 key (key + 4) 4 (k % 2 ^ 32)
    s.quorum key)

end Sys2Proof.Machine
end

