-- ==== Sys2Proof/Machine/Admit.lean ====
section
/-! DEFINITION. Machine/Admit.lean: launch queues, launch records, admission, the end of groups, teams and launches, and LNCH's
append (R23–R37, R180, R182, R304). -/

namespace Sys2Proof.Machine

/-! ### Launch records (R27, R28) -/

/-- A launch record read from its 128 bytes (Table 2-2). -/
def parseLRec (x : Nat) : LRec :=
  let d := fun (off : Nat) => BitVec.ofNat 64 (fieldAt x off 8)
  { code := d 0, seqcode := d 8, args := d 0x10, ngx := fieldAt x 0x18 4, ngy := fieldAt x 0x1C 4, ngz := fieldAt x 0x20 4,
    teams := fieldAt x 0x24 1, groups := fieldAt x 0x25 1, vregs := fieldAt x 0x26 2, sregs := fieldAt x 0x28 2, coop := bitAt (fieldAt x 0x2A 2) 0,
    scratch := fieldAt x 0x2C 4, wtiles := fieldAt x 0x30 1, atiles := fieldAt x 0x31 1, ctiles := fieldAt x 0x32 1, prio := fieldAt x 0x33 1,
    dep0 := d 0x38, dep0v := d 0x40, dep1 := d 0x48, dep1v := d 0x50, done := d 0x58, status := d 0x60, xtmpl := d 0x68, xstride := d 0x70,
    reserved := fieldAt x 0x2A 2 / 2 + fieldAt x 0x34 4 + fieldAt x 0x78 8 }

/-- A record is well formed (R28). -/
def LRec.ok (r : LRec) : Bool :=
  let dim := fun (n : Nat) => decide (1 ≤ n ∧ n ≤ 65535)
  r.reserved == 0 && validCode r.code && (r.seqcode == 0 || validCode r.seqcode) &&
  dim r.ngx && dim r.ngy && dim r.ngz && r.ngx * r.ngy * r.ngz ≤ 2 ^ 31 && 1 ≤ r.teams && r.teams ≤ 4 && 1 ≤ r.groups && r.groups ≤ 16 &&
  8 ≤ r.vregs && r.vregs ≤ 512 && r.vregs % 8 == 0 && 1 ≤ r.sregs && r.sregs ≤ 384 && r.scratch ≤ 262144 && r.scratch % 1024 == 0 &&
  r.wtiles ≤ 32 && r.atiles ≤ 16 && r.ctiles ≤ 8 && r.prio ≤ 7 &&
  !(r.seqcode == 0 && (r.wtiles != 0 || r.atiles != 0 || r.ctiles != 0)) &&
  r.dep0.toNat % 8 == 0 && r.dep1.toNat % 8 == 0 && r.done.toNat % 8 == 0 && r.status.toNat % 4 == 0 && r.xtmpl.toNat % 64 == 0

/-- Gangs of a launch (R26). -/
def LRec.total (r : LRec) : Nat := r.ngx * r.ngy * r.ngz
/-- Groups of a team on partition `p` (R24). -/
def LRec.onPart (r : LRec) (p : Nat) : Nat := ((List.range r.groups).filter (fun g => g % 4 == p)).length
/-- Granules that a team needs (R33). -/
def LRec.granules (r : LRec) : Nat := r.groups * (r.vregs / 8) + r.scratch / 1024

/-! ### Resources (R25, R33) -/

/-- A gang is resident. -/
def State.gangHere (s : State) (k : Gang) : Bool := !(mget {} s.ctxs k.ctx).out

/-- Gangs of launches on a cluster, and whether one of them has a sequencer (R25). -/
def State.gangsOn (s : State) (c : Nat) : List Gang := (s.gangs.filter (fun e => e.2.cluster == c && !e.2.am && s.gangHere e.2)).map (·.2)
def State.seqOn (s : State) (c : Nat) : Bool := (s.gangsOn c).any (fun k => k.seq.isSome)

/-- Tiles of a core's buffers that are allocated to a resident team. -/
def State.tilesUsed (s : State) (core : Nat) (b : Buf) : Nat :=
  ((s.core core).tiles.filter (fun e => bufOf e.1 == b && match e.2.team with
    | some (k, _) => (match mfind s.gangs k with | some g => s.gangHere g | none => true)
    | none => false)).length

/-- How many teams of a record a core can take (R33), none while a GROW is blocked there (R131). -/
def State.coreTakes (s : State) (r : LRec) (core : Nat) : Nat :=
  if s.growBlocked core then 0
  else
    let free := s.freeGranules core
    let fits := fun (n : Nat) =>
      n * r.granules ≤ free && (List.range 4).all (fun p => s.partGroups core p + n * r.onPart p ≤ 16) &&
      (r.wtiles == 0 || s.tilesUsed core .w + n * r.wtiles ≤ 32) && (r.atiles == 0 || s.tilesUsed core .a + n * r.atiles ≤ 16) &&
      (r.ctiles == 0 || s.tilesUsed core .c + n * r.ctiles ≤ 8)
    (((List.range 9).filter fits).foldl max 0)

/-- How many gangs of a record a cluster can take at once (R25, R33). -/
def State.clusterTakes (s : State) (r : LRec) (c : Nat) : Nat :=
  let room := 8 - (s.gangsOn c).length
  let room := if r.seqcode = 0 then room else if s.seqOn c then 0 else min 1 room
  let ks := (coresOf c).map (s.coreTakes r)
  (((List.range (room + 1)).filter (fun m => m * r.teams ≤ (ks.map (fun k => min k m)).foldl (· + ·) 0)).foldl max 0)

/-- What a launch still has to place at once: every gang of a cooperative launch, else one. -/
def Launch.wants (l : Launch) : Nat := if l.lr.coop then l.lr.total else 1

/-- `n` gangs of a record fit on some clusters. -/
def State.fitsOn (s : State) (r : LRec) (n : Nat) : List Nat → Bool
  | [] => n == 0
  | c :: cs => n == 0 || s.fitsOn r (n - s.clusterTakes r c) cs

/-- The launch fits now. -/
def State.fitsNow (s : State) (l : Launch) : Bool := s.fitsOn l.lr l.wants s.clustersUp

/-- The empty device under full service. -/
def State.emptied (s : State) : State :=
  { s with groups := [], gangs := [], cores := s.cores.map (fun e => (e.1, { e.2 with tiles := [] })), hub := { s.hub with svc := 2 },
           mgmt := { s.mgmt with moving := false } }

/-- The record can never fit (R33, R368). (DEDUCED, log 56) -/
def State.neverFits (s : State) (l : Launch) : Bool := !(s.emptied.fitsNow l)

/-! ### Queues (R29–R31) -/

/-- Stop a queue and write the condition to the error record; outcome 0 is an overrun (R29). -/
def State.stopQueue (s : State) (q : Nat) (lq : LQ) (va outcome : Nat) : State :=
  ({ s with lqs := mupd s.lqs q (fun l => { l with stopped := true }) }).addErr lq.ctx (.queue q (BitVec.ofNat 64 va) outcome)

/-- Address of a ring slot. -/
def LQ.slotVa (q : LQ) (i : Nat) : DWord := q.ring + BitVec.ofNat 64 (128 * (i % q.slots))

/-- The running launches of a context, and its highest effective priority (R44). -/
def State.ctxPrio (s : State) (ctx : Nat) : Nat :=
  s.launches.foldl (fun n e => if e.2.ctx == ctx && e.2.started > e.2.ended then max n e.2.prio else n) 0

/-- A context is on the device: live, with a resident gang, and neither stopping nor being killed. -/
def State.ctxRuns (s : State) (e : Nat × Ctx) : Bool :=
  e.2.live && !e.2.out && !e.2.stopping && !e.2.killing && s.gangs.any (fun k => k.2.ctx == e.1)

/-- The victim of a pre-emption for priority `p` of context `ctx` (R44). -/
def State.victim (s : State) (ctx p : Nat) : Option Nat :=
  (s.ctxs.foldl (fun (m : Option (Nat × Nat × Nat)) e =>
    let v := s.ctxPrio e.1
    if !(s.ctxRuns e) || e.1 == ctx || decide (v ≥ p) then m
    else match m with
      | none => some (v, e.2.admitted, e.1)
      | some b => if v < b.1 ∨ (v = b.1 ∧ e.2.admitted > b.2.1) then some (v, e.2.admitted, e.1) else m) none).map (fun b => b.2.2)

/-- The device as it will be once the contexts now stopping are out. -/
def State.afterStops (s : State) : State :=
  { s with ctxs := s.ctxs.map (fun e => (e.1, if e.2.stopping then { e.2 with out := true } else e.2)) }

/-- Pre-empt victims until the launch fits or none remains (R44); they may be restored later without a command (R45). -/
def State.makeRoom (s : State) (l : Launch) : Nat → State
  | 0 => s
  | fuel + 1 =>
    if s.afterStops.fitsNow l then s
    else match s.victim l.ctx l.prio with
      | none => s
      | some v => ({ s with ctxs := mupd s.ctxs v (fun c => { c with stopping := true, eligible := true }) }).makeRoom l fuel

/-- The launch at the head of a queue has both dependences met. -/
def Launch.ready (l : Launch) : Bool := l.outcome == 0 && l.met0 && l.met1 && l.started < l.lr.total

/-- A record of priority 6 or 7 that is ready and does not fit pre-empts (R44). -/
def State.priorityPreempt (s : State) (id : Nat) : State :=
  match mfind s.launches id with
  | none => s
  | some l => if l.ready && l.prio ≥ 6 then s.makeRoom l 4096 else s

/-! The scheduler's own reads and writes are accesses of agent 48 that may wait at home (R224): the event of a queue or launch that makes
one is tried again, and finds the answers that have come, until it is over. -/

/-- The events of a launch queue's head, of its dependence words, and of a launch's end. -/
def takeTag (q : Nat) : Nat × Nat := (1, q)
def depTag (q which : Nat) : Nat × Nat := (2, 2 * q + which)
def endTag (launch : Nat) : Nat × Nat := (3, launch)
/-- The event of a launch's template, and that of an LNCH's append. -/
def tmplTag (launch : Nat) : Nat × Nat := (6, launch)
def lnchTag (op : Nat) : Nat × Nat := (7, op)

/-- A queue's access failed: the event is over, and the queue stops. -/
def State.stopOn (s : State) (tag : Nat × Nat) (q : Nat) (lq : LQ) (va : DWord) (outcome : Nat) : State :=
  (s.forget tag).stopQueue q lq va.toNat outcome

/-- LAUNCH_RECORD_DEQUEUE (R29, R31): the next record of a queue is read and taken, or rejected. -/
def execLaunchRecordDequeue (q : Nat) (s : State) : Out :=
  .next (match mfind s.lqs q with
    | none => s
    | some lq =>
      let c := mget {} s.ctxs lq.ctx
      if lq.ctx = 0 ∨ lq.stopped ∨ lq.cur.isSome ∨ !c.live ∨ c.killing then s
      else match s.svcAccess (takeTag q) none lq.ctx lq.tailVa 8 none with
        | (.wait, s) => s
        | (.fail o, s) => s.stopOn (takeTag q) q lq lq.tailVa o
        | (.ok tail _, s) =>
          let n := (tail + 2 ^ 64 - lq.head % 2 ^ 64) % 2 ^ 64
          if n = 0 then s.forget (takeTag q)
          else if n > lq.slots then s.stopOn (takeTag q) q lq 0 0
          else match s.svcAccess (takeTag q) none lq.ctx (lq.slotVa lq.head) 128 none with
            | (.wait, s) => s
            | (.fail o, s) => s.stopOn (takeTag q) q lq (lq.slotVa lq.head) o
            | (.ok x _, s) =>
              match s.svcAccess (takeTag q) none lq.ctx lq.headVa 8 (some ((lq.head + 1) % 2 ^ 64)) with
              | (.wait, s) => s
              | (.fail o, s) => s.stopOn (takeTag q) q lq lq.headVa o
              | (.ok _ _, s) =>
                let s := s.forget (takeTag q)
                let r := parseLRec x
                let l : Launch := { ctx := lq.ctx, queue := q, lseq := lq.head, lr := r, met0 := r.dep0 == 0, met1 := r.dep1 == 0,
                                    prio := min r.prio lq.ceil }
                let l := if !r.ok then { l with outcome := 1 } else if s.neverFits l then { l with outcome := 2 } else l
                let id := s.nextId
                let s : State := { s with nextId := id + 1, launches := mput s.launches id l }
                let s := { s with lqs := mput s.lqs q { lq with head := lq.head + 1, cur := if l.outcome = 0 then some id else none } }
                s.priorityPreempt id)

/-- A rejected launch leaves the head of its queue. -/
def State.reject (s : State) (q id outcome : Nat) : State :=
  { s with launches := mupd s.launches id (fun l => { l with outcome := outcome }), lqs := mupd s.lqs q (fun x => { x with cur := none }) }

/-- DEPENDENCE_MET (R32): a system-scope acquire read of an event word finds it at its threshold; an unmapped or denied word
rejects the record. -/
def execDependenceMet (q which : Nat) (s : State) : Out :=
  .next (match (mfind s.lqs q).bind (fun l => l.cur) with
    | none => s
    | some id =>
      match mfind s.launches id with
      | none => s
      | some l =>
        let (va, val, met) := if which = 0 then (l.lr.dep0, l.lr.dep0v, l.met0) else (l.lr.dep1, l.lr.dep1v, l.met1)
        if met then s
        else match s.svcAccess (depTag q which) none l.ctx va 8 none with
          | (.wait, s) => s
          | (.fail _, s) => (s.forget (depTag q which)).reject q id 3
          | (.ok v _, s) =>
            let s := s.forget (depTag q which)
            if v < val.toNat then s
            else
              let s := { s with launches := mupd s.launches id (fun l => if which = 0 then { l with met0 := true } else { l with met1 := true }) }
              s.priorityPreempt id)

/-! ### Admission (R26, R31, R33–R35) -/

/-- The queue's head launch could be admitted now. -/
def State.admissible (s : State) (lq : LQ) : Option Launch :=
  match lq.cur.bind (mfind s.launches) with
  | none => none
  | some l =>
    let c := mget {} s.ctxs l.ctx
    if l.ready && s.hold = 0 && c.live && !c.out && !c.stopping && !c.killing && s.fitsNow l then some l else none

/-- Queue `q` is the one that the scheduler serves next: no admissible record of a higher priority, none of its own before it in
round-robin order, and no context of its priority or above waiting for its restore (R31, R45). -/
def State.servedNext (s : State) (q : Nat) (l : Launch) : Bool :=
  let last := mget 0 s.lastLq l.prio
  let rank := fun (k : Nat) => (k + 1024 - (last + 1) % 1024) % 1024
  !(s.lqs.any (fun e => e.1 != q && match s.admissible e.2 with
    | some m => m.prio > l.prio || (m.prio == l.prio && rank e.1 < rank q)
    | none => false)) &&
  !(s.ctxs.any (fun e => e.2.out && e.2.eligible && e.2.live && decide (s.ctxPrio e.1 ≥ l.prio)))

/-- A tile name of a team's allocation (R265). -/
def LRec.tileNames (r : LRec) : List Nat :=
  List.range r.wtiles ++ (List.range r.atiles).map (· + 32) ++ (List.range r.ctiles).map (· + 48)

/-- A group of a new gang (R35), with the granules of its window (R129). -/
def newGroup (l : Launch) (id gang team grp core : Nat) (clk : Nat) (gs : List Nat) : Group :=
  { ctx0 := l.ctx, ctx := l.ctx, launch := id, gang := gang, team := team, grp := grp, cluster := core / 4, core := core,
    lanes := List.replicate 32 { pc := l.lr.code }, nregs := l.lr.vregs, sregs := l.lr.sregs, args := l.lr.args, gmap := gs, readyAt := clk, activeAt := clk }

/-- Add a group; it is active while its partition has fewer than 8 active ones (R38). -/
def State.addGroup (s : State) (g : Group) : State :=
  let act := decide (((s.coreGroups g.core).filter (fun e => e.2.grp % 4 == g.grp % 4 && e.2.active)).length < 8)
  ({ s with nextId := s.nextId + 1, groups := mput s.groups s.nextId { g with active := g.isSeq || act } }).traceStart s.nextId

/-- Add a group of a team, in granules that were L1's (R128). -/
def State.addTeamGroup (s : State) (l : Launch) (id gang team core grp : Nat) : State :=
  let gs := s.freshGrans core (l.lr.vregs / 8)
  (s.takeGrans core gs).addGroup (newGroup l id gang team grp core s.clk gs)

/-- A team's scratchpad takes granules that were L1's (R128). -/
def State.placeScratch (s : State) (gang team core : Nat) (l : Launch) : State :=
  let gs := s.freshGrans core (l.lr.scratch / 1024)
  (s.takeGrans core gs).updTeam gang team (fun t => { t with grans := gs })

/-- Start one gang of a launch at a place: its teams, groups and sequencer, with zeroed scratchpads and tiles (R33–R35). -/
def State.startGang (s : State) (id : Nat) (l : Launch) (p : Place) : State :=
  let n := s.nextId
  let idx := l.started
  let sq := if l.lr.seqcode = 0 then none else some (n + 1)
  let k : Gang :=
    { ctx := l.ctx, launch := id, idx := idx, gx := idx % l.lr.ngx, gy := idx / l.lr.ngx % l.lr.ngy, gz := idx / (l.lr.ngx * l.lr.ngy),
      cluster := p.cluster, seq := sq, teams := p.cores.map (fun c => { core := c, scratch := l.lr.scratch }) }
  let s : State := { s with nextId := n + 1, gangs := mput s.gangs n k, launches := mupd s.launches id (fun l => { l with started := l.started + 1 }),
                            icache := s.icache.filter (fun e => !(e.cluster == p.cluster && e.ctx == l.ctx)) }
  let s := match sq with
    | none => s
    | some _ => s.addGroup
        { isSeq := true, ctx0 := l.ctx, ctx := l.ctx, launch := id, gang := n, cluster := p.cluster, core := 4 * p.cluster, sregs := 64,
          args := l.lr.args, lanes := { pc := l.lr.seqcode } :: List.replicate 31 { st := .exited }, readyAt := s.clk, activeAt := s.clk }
  let teams := mapFrom (fun t c => (t, c)) 0 p.cores
  teams.foldl (fun s (t : Nat × Nat) =>
    let s := s.placeScratch n t.1 t.2 l
    let s := (List.range l.lr.groups).foldl (fun s g => s.addTeamGroup l id n t.1 t.2 g) s
    if l.lr.tileNames.isEmpty then s
    else s.updCore t.2 (fun c => { c with
      scale := none, perm := none,
      tiles := l.lr.tileNames.foldl (fun m i => mput m i { team := some (n, t.1) }) c.tiles })) s

/-- A place is one for a gang of the record: distinct cores of a cluster that can each take a team. -/
def State.placeOk (s : State) (r : LRec) (p : Place) : Bool :=
  s.clustersUp.contains p.cluster && p.cores.length == r.teams && decide (p.cores.Nodup) &&
  p.cores.all (fun c => (coresOf p.cluster).contains c && decide (1 ≤ s.coreTakes r c)) && decide (1 ≤ s.clusterTakes r p.cluster)

/-- Start gangs at their places, one after another; `none` when one does not fit. -/
def State.startGangs (s : State) (id : Nat) : List Place → Option State
  | [] => some s
  | p :: ps =>
    match mfind s.launches id with
    | none => none
    | some l => if s.placeOk l.lr p then (s.startGang id l p).startGangs id ps else none

/-- Read the exit-fired copy template of a launch at its admission (R304): an unreadable or malformed one fails every team. Whether one
with zero FMT and ROP combines is left open, a free choice (DESIGN CHOICE, log 41). The answer says whether it has been read. -/
def State.readTemplate (s : State) (id : Nat) (l : Launch) : Bool × State :=
  if l.lr.xtmpl = 0 ∨ l.tmpl.isSome then (true, s)
  else
    let put (s : State) (t : Option CopyRec) (b : Bool) : Bool × State :=
      (true, { (s.forget (tmplTag id)) with launches := mupd s.launches id (fun l => { l with tmpl := some t, reduce := b }) })
    match s.svcAccess (tmplTag id) none l.ctx l.lr.xtmpl 64 none with
    | (.wait, s) => (false, s)
    | (.fail _, s) => put s none false
    | (.ok x _, s) =>
      let r := parseCopy x
      let (b, s) := if r.fmt ≠ 0 ∨ r.rop ≠ 0 then (true, s) else let (k, s) := s.choose 2; (k == 1, s)
      put s (if r.bo || r.mig || copyBad r b false then none else some r) b

/-- GANG_ADMIT (R31, R33, R34): the next gang of the queue's head launch, or every gang of a cooperative one, is placed where the
scheduler chooses and it fits. -/
def execGangAdmit (q : Nat) (places : List Place) (s : State) : Out :=
  .next (match mfind s.lqs q with
    | none => s
    | some lq =>
      match s.admissible lq, lq.cur with
      | some l, some id =>
        if places.length ≠ l.wants ∨ !(s.servedNext q l) then s
        else
          match s.readTemplate id l with
          | (false, s) => s
          | (true, s) =>
          match s.startGangs id places with
          | none => s
          | some s =>
            let s := { s with ctxs := mupd s.ctxs l.ctx (fun c => { c with admitted := s.now }), lastLq := mput s.lastLq l.prio q }
            match mfind s.launches id with
            | some l => if l.started ≥ l.lr.total then { s with lqs := mupd s.lqs q (fun x => { x with cur := none }) } else s
            | none => s
      | none, some id => s.priorityPreempt id
      | _, none => s)

/-! ### The end of groups, teams and launches (R36, R37, R180) -/

/-- A team ends: the deltas of its cluster's cache are pushed, its exit-fired copy is issued, and without one its scratchpad and
tiles are freed (R36, R304). `status` is 0, or CANCELLED for a kill, which fires no copy. (DEDUCED, log 57) -/
def State.teamEnd (s : State) (gang team status : Nat) : State :=
  match mfind s.gangs gang with
  | none => s
  | some k =>
    let t := s.team gang team
    if !t.live then s
    else
      let s := (s.updTeam gang team (fun t => { t with live := false })).pushWhere [] (some k.launch) (fun d => d.cluster == k.cluster)
      let l : Launch := mget {} s.launches k.launch
      match (if status = 0 then l.tmpl else none) with
      | none => s.teamFreed gang team status
      | some none => s.teamFreed gang team 2
      | some (some r) =>
        let dst := (r.dst + k.idx * l.lr.xstride.toNat) % 2 ^ 64
        (s.updTeam gang team (fun t => { t with copying := true })).addReq t.core
          { who := .exit gang team, ctx := k.ctx, cluster := k.cluster, gang := gang, team := team, addr := l.lr.xtmpl.toNat, reduce := l.reduce,
            r := { r with dst := dst } }

/-- The pending group of a partition that has been ready for longest joins the active set while that has room (R38). -/
def State.promote (s : State) (core p : Nat) : State :=
  let gs := (s.coreGroups core).filter (fun e => e.2.grp % 4 == p)
  if (gs.filter (fun e => e.2.active)).length ≥ 8 then s
  else
    match (gs.filter (fun e => !e.2.active)).foldl (fun (m : Option (Nat × Nat)) e => match m with
        | some b => if e.2.readyAt < b.2 then some (e.1, e.2.readyAt) else m
        | none => some (e.1, e.2.readyAt)) none with
    | some (j, _) => s.updGrp j (fun x => { x with active := true, activeAt := s.clk })
    | none => s

/-- A contribution on its way: it outlives its group, until its member's death cuts it short (R315). -/
def Op.isStream (o : Op) : Bool := match o.kind with | .mcont _ _ _ => true | _ => false

/-- An operation that outlives its group: a contribution, a spill that has been sent (R177), a write on the host link, or a prefetch. -/
def Op.outlives (o : Op) : Bool :=
  o.isStream || (match o.job with | .stack => o.desc?.any (fun m => m.kind == .store) | .link | .outside => true | _ => false)

/-- Take a group out of the device: its operations but for those that outlive it, and its watchers, go with it; a pending group takes
its place. -/
def State.dropGroup (s : State) (gid : Nat) : State :=
  match s.grp? gid with
  | none => s
  | some g =>
    let s := { s with groups := mdel s.groups gid, ops := s.ops.filter (fun e => e.2.gid != gid || e.2.outlives), watch := s.watch.filter (fun w => w.gid != gid) }
    if g.isSeq then s else s.promote g.core (g.grp % 4)

/-- The group's work is over: every lane has exited, or it has been stopped, and its counters have drained (R180, R280, R286). -/
def Group.over (g : Group) : Bool := (g.live == 0 || g.dead) && g.drained && g.gcall.isNone

/-- A group, or a sequencer, leaves the device, and what ends with it (R36). -/
def State.groupGone (s : State) (gid status : Nat) : State :=
  match s.grp? gid with
  | none => s
  | some g =>
    let s := g.log.foldl (fun s e => e.2.lanes.foldl (fun s l => s.addErr g.ctx (.item (l.2.va.signExtend 64) 0xC)) s) s
    let s := g.trapq.foldl (fun s t => s.addErr g.ctx (.trap gid t)) s
    let s := g.frames.foldl (fun s f => s.withdraw f) s
    let s := (s.traceSummary gid).dropGroup gid
    if g.isSeq then s.gangEnd g.gang
    else
      let s := if (s.teamGroups g.gang g.team).isEmpty then s.teamEnd g.gang g.team status else s.tbarTest g.gang g.team
      -- the groups that are left on the core may all be blocked now (R132)
      s.deadlockCheck g.core 64

/-- GROUP_END (R36, R180). -/
def execGroupEnd (gid : Nat) (s : State) : Out :=
  .next (match s.grp? gid with
    | none => s
    | some g => if s.resident g && g.over then s.groupGone gid 0 else s)

/-- The launch status word (Table 2-3). -/
def Launch.statusWord (l : Launch) : Nat := min 65535 l.badTeams * 2 ^ 16 + l.outcome * 2 ^ 8 + l.worst

/-- A finished launch's status word is written, or found not to be writable: the instant is kept. -/
def State.tellStatus (s : State) (id : Nat) (tc : Nat) : State :=
  { s with launches := mupd s.launches id (fun l => { l with told := some tc }) }

/-- The end of a launch in its two steps: its status word is written; then, by a system-scope release (R68), 1 is added to its completion
event word. A word that cannot be written is noted in the error record, and the other step is taken (R36). R28 has a malformed record
complete likewise and does not say what becomes of a STATUS_ADDR or DONE_ADDR that is itself misaligned: the word at that address is
accessed like any other. (DESIGN CHOICE, log 91) -/
def State.launchDone (s : State) (id : Nat) (l : Launch) : State :=
  let tag := endTag id
  match l.told with
  | none =>
    if l.lr.status = 0 then s.tellStatus id s.now
    else match s.svcAccess tag none l.ctx l.lr.status 4 (some l.statusWord) with
      | (.wait, s) => s
      | (.ok _ tc, s) => s.tellStatus id tc
      | (.fail o, s) => (s.addErr l.ctx (.completion l.lr.status o)).tellStatus id s.now
  | some t =>
    let finish (s : State) : State := { (s.forget tag) with launches := mdel s.launches id }
    if l.lr.done = 0 then finish s
    else if s.now < t + guardTicks .system then s
    else match s.svcAsk tag none l.ctx l.lr.done 8 (.red .add) 1 with
      | (.wait, s) => s
      | (.ok _ _, s) => finish s
      | (.fail o, s) => finish (s.addErr l.ctx (.completion l.lr.done o))

/-- A push started at the end of one of the launch's teams has not reported its instant (R36). -/
def State.pushesOf (s : State) (launch : Nat) : Bool :=
  s.ops.any (fun e => match e.2.job with | .push _ l => l == some launch | _ => false)

/-- LAUNCH_COMPLETE (R36): every gang of a launch has ended and the pushes at its teams' ends have been performed, or it was rejected; it
completes, step by step. -/
def execLaunchComplete (launch : Nat) (s : State) : Out :=
  .next (match mfind s.launches launch with
    | none => s
    | some l =>
      let queued := s.lqs.any (fun e => e.2.cur == some launch)
      if !queued && decide (l.ended ≥ l.started) && (l.outcome != 0 || decide (l.started ≥ l.lr.total)) && !(s.pushesOf launch) then
        s.launchDone launch l
      else s)

/-! ### LNCH's append (R30, R182) -/

/-- LNCH ends: its predicate, its instant, and its report to st. -/
def State.lnchEnd (s : State) (id : Nat) (o : Op) (pd : Nat) (tc : Option Nat) : State :=
  (s.updGrp o.gid (fun g =>
    let g := g.setPredAll pd tc.isSome
    match tc with | some t => g.raiseCtime t | none => g)).endOp id

/-- Another append to queue `q` is under way. -/
def State.appending (s : State) (op q : Nat) : Bool :=
  s.ops.any (fun e => match e.2.job with
    | .unit a => a.tag.1 == 7 && a.tag.2 != op && (match (mfind s.ops a.tag.2).map (·.kind) with | some (OpKind.lnch _ k _) => k == q | _ => false)
    | _ => false)

/-- LNCH_APPEND (R182): once the group's earlier accesses have their instants and the guard has passed, the scheduler appends the record
or finds that it cannot. -/
def execLnchAppend (op : Nat) (s : State) : Out :=
  .next (match mfind s.ops op with
    | none => s
    | some o =>
      match o.kind, s.grp? o.gid with
      | .lnch pd q bytes, some g =>
        let older := s.ops.any (fun e => e.1 < op && e.2.gid == o.gid && (e.2.cls == some .ld || e.2.cls == some .st))
        let s := s.startFence o.gid .device
        let ctime := match s.grp? o.gid with | some g => g.ctime.toNat | none => 0
        let tag := lnchTag op
        let end_ (s : State) (tc : Option Nat) : State := (s.forget tag).lnchEnd op o pd tc
        if older || s.fenceWaits o.gid .device || decide (s.regtime g < ctime + 2) || s.appending op q then s
        else match mfind s.lqs q with
          | none => end_ s none
          | some lq =>
            let stop (s : State) (va : DWord) (e : Nat) : State := end_ (s.stopQueue q lq va.toNat e) none
            if lq.stopped || lq.ctx != o.ctx then end_ s none
            else match s.svcAccess tag none o.ctx lq.headVa 8 none with
              | (.wait, s) => s
              | (.fail e, s) => stop s lq.headVa e
              | (.ok head _, s) =>
                match s.svcAccess tag none o.ctx lq.tailVa 8 none with
                | (.wait, s) => s
                | (.fail e, s) => stop s lq.tailVa e
                | (.ok tail _, s) =>
                  if (tail + 2 ^ 64 - head) % 2 ^ 64 ≥ lq.slots then end_ s none
                  else match s.svcAccess tag none o.ctx (lq.slotVa tail) 128 (some (leNat bytes)) with
                    | (.wait, s) => s
                    | (.fail e, s) => stop s (lq.slotVa tail) e
                    | (.ok _ _, s) =>
                      match s.svcAccess tag none o.ctx lq.tailVa 8 (some ((tail + 1) % 2 ^ 64)) with
                      | (.wait, s) => s
                      | (.fail e, s) => stop s lq.tailVa e
                      | (.ok _ tc, s) => end_ s (some tc)
      | _, _ => s)

end Sys2Proof.Machine
end

