-- ==== Sys2Proof/Machine/Exchange.lean ====
section
/-! DEFINITION. Machine/Exchange.lean: the exchange instructions (R183–R187). Every source is read in all lanes, as the
registers stand at issue, before any destination is written. -/

namespace Sys2Proof.Machine

/-- The lane that an index names. -/
def laneOf (n : Nat) : Nat := n % 32

/-- The lane whose operand lane `l` receives under LXCH (Table 11-6). -/
def lxchFrom (m : LxMode) (l b : Nat) : Nat :=
  match m with
  | .abs => laneOf b
  | .rot => laneOf (l + b)
  | .xor => l ^^^ laneOf b

/-- LXCH (R185). -/
def execLxch (h : Hdr) (m : LxMode) (ty : Ty) (z : Bool) (d a b : Opnd) (s : State) : Out :=
  laneInstr (.lxch h m ty z d a b) true s
    (alu0 d ty.regs z (fun g l => g.opnd a ty.regs (lxchFrom m l (g.opnd b 1 l))))

/-- The distance of QSWP. -/
def qsDist : QsK → Nat
  | .x1 => 1 | .x2 => 2 | .x3 => 3

/-- QSWP (R185). -/
def execQswp (h : Hdr) (k : QsK) (ty : Ty) (z : Bool) (d a : Opnd) (s : State) : Out :=
  laneInstr (.qswp h k ty z d a) true s (alu0 d ty.regs z (fun g l => g.opnd a ty.regs (l ^^^ qsDist k)))

/-- QBCST (R185). -/
def execQbcst (h : Hdr) (ty : Ty) (z : Bool) (d a : Opnd) (k : Nat) (s : State) : Out :=
  laneInstr (.qbcst h ty z d a k) true s (alu0 d ty.regs z (fun g l => g.opnd a ty.regs (4 * (l / 4) + k)))

/-- QHELP (R187): with an empty Active it does nothing. -/
def execQhelp (h : Hdr) (on : Bool) (s : State) : Out :=
  laneInstr (.qhelp h on) true s (fun x s => x.done s (fun g =>
    if x.act = 0 then g else { g with helper := if on then quadsOf x.act &&& ~~~g.live else 0 }))

/-- Lanes of Active whose bit of predicate `pa` is set. -/
def voteMask (x : Issue) (pa : Nat) : Word := x.act &&& x.g.pred pa

/-- The verdict of VOTE.all, .any and .eq; the ballot has none. -/
def voteHolds (m : VoteOp) (x : Issue) (pa : Nat) : Bool :=
  let v := voteMask x pa
  match m with
  | .all => v == x.act
  | .any => v != 0
  | .eq => v == x.act || v == 0
  | .ballot => v != 0

/-- VOTE (R185). -/
def execVote (h : Hdr) (m : VoteOp) (z : Bool) (d : VoteDst) (pa : Nat) (s : State) : Out :=
  laneInstr (.vote h m z d pa) true s (fun x s => x.done s (fun g =>
    match d with
    | .pred k => g.writeP x k (fun _ => voteHolds m x pa)
    | .reg r => g.writeD x r 1 z (fun _ => (voteMask x pa).toNat)))

/-- Combine of GRED and GSCAN (R186). -/
def combine (op : RedOp) (ty : Ty) (x y : Nat) : Bits :=
  match op with
  | .add =>
    if ty.isFloat then fresult ty .rn false (fsumV .rn [fval ty x, fval ty y]) else ((x + y) % 2 ^ ty.width, 0)
  | .min =>
    if ty.isFloat then fminmax ty false false x y else (if intVal ty x ≤ intVal ty y then x else y, 0)
  | .max =>
    if ty.isFloat then fminmax ty false true x y else (if intVal ty y ≤ intVal ty x then x else y, 0)
  | .and => (x &&& y, 0)
  | .or => (x ||| y, 0)
  | .xor => (x ^^^ y, 0)

/-- Combine with ABSENT, which gives the other value. -/
def combineO (op : RedOp) (ty : Ty) : Option Bits → Option Bits → Option Bits
  | none, y => y
  | x, none => x
  | some x, some y => let r := combine op ty x.1 y.1; some (r.1, x.2 ||| y.2 ||| r.2)

/-- One level of GRED's tree: neighbours combine in pairs. -/
def gredLevel (op : RedOp) (ty : Ty) : List (Option Bits) → List (Option Bits)
  | x :: y :: t => combineO op ty x y :: gredLevel op ty t
  | t => t

/-- GRED's result and the flags of its combinations. -/
def gredTree (op : RedOp) (ty : Ty) (xs : List (Option Bits)) : Option Bits :=
  let f := gredLevel op ty
  ((f (f (f (f (f xs))))).headD none)

/-- GRED (R186). -/
def execGred (h : Hdr) (op : RedOp) (ty : Ty) (z : Bool) (d a : Opnd) (s : State) : Out :=
  laneInstr (.gred h op ty z d a) true s (fun x s =>
    let val := fun l => if ty.isFloat then x.g.opndT ty a l else x.g.opnd a ty.regs l
    let r := (gredTree op ty ((List.range 32).map (fun l => if x.act.getLsbD l then some (val l, 0) else none))).getD (0, 0)
    x.done s (fun g => (g.writeD x d ty.regs z (fun _ => r.1)).raise r.2))

/-- The identity that an exclusive scan gives a lane with no lane before it. -/
def identity (op : RedOp) (ty : Ty) : Nat :=
  match op with
  | .add | .or | .xor => 0
  | .and => 2 ^ ty.width - 1
  | .min => if ty.isFloat then (roundTo ty .rn .nan (.inf false)).1 else wrap ty.width (intMax ty)
  | .max => if ty.isFloat then (roundTo ty .rn .nan (.inf true)).1 else wrap ty.width (intMin ty)

/-- GSCAN over the lanes of Active in increasing order: each lane's result, and the flags raised. -/
def scanLanes (op : RedOp) (ty : Ty) (excl : Bool) (val : Nat → Nat) : Option Nat → Flags → List Nat → List (Nat × Nat) × Flags
  | _, fl, [] => ([], fl)
  | acc, fl, l :: ls =>
    match acc with
    | none =>
      let (rest, fl) := scanLanes op ty excl val (some (val l)) fl ls
      ((l, if excl then identity op ty else val l) :: rest, fl)
    | some p =>
      if excl && ls.isEmpty then ([(l, p)], fl)
      else
        let r := combine op ty p (val l)
        let (rest, fl) := scanLanes op ty excl val (some r.1) (fl ||| r.2) ls
        ((l, if excl then p else r.1) :: rest, fl)

/-- GSCAN (R186). -/
def execGscan (h : Hdr) (op : RedOp) (ty : Ty) (z excl : Bool) (d a : Opnd) (s : State) : Out :=
  laneInstr (.gscan h op ty z excl d a) true s (fun x s =>
    let val := fun l => if ty.isFloat then x.g.opndT ty a l else x.g.opnd a ty.regs l
    let (rs, fl) := scanLanes op ty excl val none 0 (lanesOf x.act)
    x.done s (fun g => (g.writeD x d ty.regs z (fun l => ((rs.find? (fun r => r.1 == l)).map (·.2)).getD 0)).raise fl))

/-- The lanes of Active whose operand equals lane `l`'s, or all of Active when every lane holds one value
(Table 11-6). -/
def matchMask (m : MatchOp) (x : Issue) (val : Nat → Nat) (l : Nat) : Word :=
  let same := x.act &&& maskWhere (fun k => val k == val l)
  match m with
  | .any => same
  | .all => if same = x.act then x.act else 0

/-- MATCH (R185). -/
def execMatchLanes (h : Hdr) (m : MatchOp) (ty : Ty) (z : Bool) (d a : Opnd) (s : State) : Out :=
  laneInstr (.matchLanes h m ty z d a) true s (fun x s =>
    x.done s (fun g => g.writeD x d 1 z (fun l => (matchMask m x (fun k => x.g.opnd a ty.regs k) l).toNat)))

/-- RDLANE (R185). -/
def execRdlane (h : Hdr) (ty : Ty) (z : Bool) (d a b : Opnd) (s : State) : Out :=
  laneInstr (.rdlane h ty z d a b) true s
    (alu0 d ty.regs z (fun g l => g.opnd a ty.regs (laneOf (g.opnd b 1 l))))

/-- WRLANE (R185): the A of the lowest lane of Active goes into lane k of D, and no other lane of D changes. -/
def execWrlane (h : Hdr) (ty : Ty) (d a b : Opnd) (s : State) : Out :=
  laneInstr (.wrlane h ty d a b) true s (fun x s =>
    let k := laneOf (x.g.opnd b 1 0)
    let one := { x with act := laneBit k }
    x.done s (fun g =>
      if x.act = 0 then g
      else g.writeD one d ty.regs false (fun _ => x.g.opnd a ty.regs (lowestLane x.act))))

end Sys2Proof.Machine
end

