-- ==== Sys2Proof/Machine/Special.lean ====
section
/-! DEFINITION. Machine/Special.lean: the special functions of R95, R161 and R162. Exact cases and special
inputs are fixed; every other result is the free value `Config.special` where it lies within the bound of Table
5-8, judged against a fixed-point value whose relative error is far below what FP32 can tell apart (log 10, log 78). -/

namespace Sys2Proof.Machine

/-- Fraction bits of the fixed-point values here. -/
def fxBits : Nat := 128
def fxOne : Int := 2 ^ 128
/-- π · 2^128. -/
def fxPi : Int := 1069028584064966747859680373161870783300
/-- ln 2 · 2^128. -/
def fxLn2 : Int := 235865763225513294137944142764154484399
/-- log₂ e · 2^128. -/
def fxLog2e : Int := 490923683258796565746369346286093237521

/-- Product of fixed-point values. -/
def fxMul (a b : Int) : Int := a * b / fxOne

/-- Σ of `t`, `t·x/(k·(k+s))`, …: the Taylor sums of exp (`s = none`) and of sin and cos. -/
def fxTaylor (x : Int) (pairs neg : Bool) : Nat → Int → Int → Int → Int
  | 0, _, _, acc => acc
  | n + 1, k, t, acc =>
    let d := if pairs then k * (k + 1) else k
    let t' := (if neg then -(fxMul t x) else fxMul t x) / d
    fxTaylor x pairs neg n (if pairs then k + 2 else k + 1) t' (acc + t')

/-- 2^f for 0 ≤ f < 1. -/
def fxExp2 (f : Int) : Int := fxTaylor (fxMul f fxLn2) false false 40 1 fxOne fxOne
/-- sin of a fixed-point angle at most π in magnitude. -/
def fxSin (x : Int) : Int := fxTaylor (fxMul x x) true true 24 2 x x
/-- cos of a fixed-point angle at most π in magnitude. -/
def fxCos (x : Int) : Int := fxTaylor (fxMul x x) true true 24 1 fxOne fxOne

/-- Σ z^(2k+1) / (2k+1). -/
def fxAtanh (z2 : Int) : Nat → Int → Int → Int → Int
  | 0, _, _, acc => acc
  | n + 1, k, t, acc =>
    let t' := fxMul t z2
    fxAtanh z2 n (k + 2) t' (acc + t' / k)

/-- log₂ t for the fixed-point 1 ≤ t < 2. -/
def fxLog2 (t : Int) : Int :=
  let z := (t - fxOne) * fxOne / (t + fxOne)
  fxMul (2 * fxAtanh (fxMul z z) 44 3 z z) fxLog2e

/-- A finite value in fixed point, rounded down. -/
def toFx (m : Nat) (e : Int) : Int :=
  let s := e + fxBits
  if s ≥ 0 then ((m * 2 ^ s.toNat : Nat) : Int) else ((m / 2 ^ (-s).toNat : Nat) : Int)

/-- A dyadic from a fixed-point value times `2^k`. -/
def ofFx (x : Int) (k : Int) : FVal := .fin (x < 0) x.natAbs (k - fxBits)

/-- The five functions of R162 and the two `.approx` forms. -/
inductive SpFn
  | exp2 | log2 | sin | cos | tanh | rcp | rsq
  deriving DecidableEq, Repr

def SpFn.code : SpFn → Nat
  | .exp2 => 0 | .log2 => 1 | .sin => 2 | .cos => 3 | .tanh => 4 | .rcp => 5 | .rsq => 6

/-- An angle reduced by the nearest multiple of 2π. -/
def fxReduce (x : Int) : Int :=
  let n := (x + fxPi) / (2 * fxPi)
  x - n * (2 * fxPi)

/-- 2^x for a finite x between −200 and 200. -/
def exp2V (neg : Bool) (m : Nat) (e : Int) : FVal :=
  let x := if neg then -(toFx m e) else toFx m e
  let n := x / fxOne
  ofFx (fxExp2 (x - n * fxOne)) n

/-- A magnitude just below `m · 2^e`, by one part in more than 2^200: the side on which a result lies that no nearer value tells apart. -/
def below (neg : Bool) (m : Nat) (e : Int) : FVal := .fin neg (m * 2 ^ 200 - 1) (e - 200)

/-- The function's value at a finite non-zero input that is no exact case, on the right side of every power of two: |tanh x| and |sin x| lie
below |x|, |cos x| and |tanh x| below 1, and 2^x below 1 for a negative x. (UNVERIFIED, log 78) -/
def spApprox (fn : SpFn) (neg : Bool) (m : Nat) (e : Int) : FVal :=
  let top : Int := (Nat.log2 m : Int) + e
  let x := if neg then -(toFx m e) else toFx m e
  match fn with
  | .exp2 =>
    if top ≥ 8 then (if neg then .fin false 1 (-300) else .fin false 1 300)
    else if top < -100 then (if neg then below false 1 0 else .fin false (2 ^ 200 + 1) (-200))
    else exp2V neg m e
  | .log2 =>
    let lg := Nat.log2 m
    let t := toFx m (-(lg : Int))
    ofFx (((lg : Int) + e) * fxOne + fxLog2 t) 0
  | .sin => if top < -40 then below neg m e else ofFx (fxSin (fxReduce x)) 0
  | .cos => if top < -40 then below false 1 0 else ofFx (fxCos (fxReduce x)) 0
  | .tanh =>
    if top < -40 then below neg m e
    else if top ≥ 4 then below neg 1 0
    else
      let y := fxMul (2 * toFx m e) fxLog2e
      let n := y / fxOne
      let ex := fxExp2 (y - n * fxOne) * 2 ^ n.toNat
      let t := (ex - fxOne) * fxOne / (ex + fxOne)
      ofFx (if neg then -t else t) 0
  | .rcp => .fin neg (2 ^ 200 / m) (-e - 200)
  | .rsq =>
    let odd := e % 2 = 1
    .fin false (isqrt (2 ^ 400 / (if odd then 2 * m else m))) (-((if odd then e - 1 else e) / 2) - 200)

/-- `|a − b| ≤ k · 2^u` for finite values. -/
def within (a b : FVal) (k : Nat) (u : Int) : Bool :=
  let g := leastExp [a, b, .fin false 1 u] u
  (scaled g a - scaled g b).natAbs ≤ k * 2 ^ (u - g).toNat

/-- The code read as a value, an infinity as 2^128 of its sign (the value one step above max finite). -/
def edgeVal (c : Nat) : Option FVal :=
  match fval .f32 c with
  | .nan _ => none
  | .inf n => some (.fin n 1 128)
  | v => some v

/-- Unit in the last place of an FP32 result (R95). -/
def ulpExp (y : FVal) : Int :=
  match y with
  | .fin _ m e => if m = 0 then -149 else max (-126) ((Nat.log2 m : Int) + e) - 23
  | _ => 105

/-- Whether the code `c` is a result the manual allows for the value `y` (Table 5-8): `ulps` units in the last
place, 2⁻²¹ absolute for FSIN and FCOS beyond π, any value of [−1, 1] from 2^15 on. -/
def spAllowed (fn : SpFn) (m : Nat) (e : Int) (y : FVal) (c : Nat) : Bool :=
  match edgeVal c with
  | none => false
  | some v =>
    match fn with
    | .sin | .cos =>
      if (Nat.log2 m : Int) + e ≥ 15 then within v (.fin false 0 0) 1 0
      else if toFx m e > fxPi then within v y 1 (-21)
      else within v y 2 (ulpExp y)
    | .rcp | .rsq => within v y 1 (ulpExp y)
    | _ => within v y 2 (ulpExp y)

/-- Exact cases of a finite input (R161, R162). -/
def spExact (fn : SpFn) (neg : Bool) (m : Nat) (e : Int) : Option FVal :=
  let lg : Nat := Nat.log2 m
  let pow : Bool := m == 2 ^ lg
  match fn with
  | .sin | .tanh => if m = 0 then some (.fin neg 0 0) else none
  | .cos => if m = 0 then some (.fin false 1 0) else none
  | .exp2 =>
    if m = 0 then some (.fin false 1 0)
    else
      -- an integer n with 2^n representable in FP32
      let k := (shiftRound .rz neg m (if e < -40 then 40 else -e))
      let n : Int := if neg then -(k.1 : Int) else k.1
      if (lg : Int) + e < 9 && !k.2 && e ≥ -40 && n ≥ -149 && n ≤ 127 then some (.fin false 1 n) else none
  | .log2 =>
    if m ≠ 0 && pow && !neg then
      let n : Int := (lg : Int) + e
      some (.fin (n < 0) n.natAbs 0)
    else none
  | .rcp =>
    let n : Int := -((lg : Int) + e)
    if m ≠ 0 && pow && n ≥ -149 && n ≤ 127 then some (.fin neg 1 n) else none
  | .rsq =>
    let n : Int := (lg : Int) + e
    if m ≠ 0 && pow && !neg && n % 2 = 0 then some (.fin false 1 (-n / 2)) else none

/-- Special inputs (Table 5-8, R95, R161, R162). -/
def spSpecial (fn : SpFn) : FVal → Option FRes
  | .nan s => some (.nan false, if s then fNV else 0)
  | .inf n =>
    match fn with
    | .exp2 => some (if n then .fin false 0 0 else .inf false, 0)
    | .log2 | .rsq =>
      if n then some (.nan false, fNV)
      else some (if fn = .log2 then .inf false else .fin false 0 0, 0)
    | .sin | .cos => some (.nan false, fNV)
    | .tanh => some (.fin n 1 0, 0)
    | .rcp => some (.fin n 0 0, 0)
  | .fin n m _ =>
    match fn with
    | .log2 => if m = 0 then some (.inf true, fDZ) else if n then some (.nan false, fNV) else none
    | .rcp => if m = 0 then some (.inf n, fDZ) else none
    | .rsq => if m = 0 then some (.inf n, fDZ) else if n then some (.nan false, fNV) else none
    | _ => none

/-- Flags of an inexact result (R161, R162): NX; OF with an infinite result; UF with a tiny one. -/
def spFlags (c : Nat) : Flags :=
  match fval .f32 c with
  | .inf _ => fOF ||| fNX
  | .fin _ m e => if m = 0 || (Nat.log2 m : Int) + e < -126 then fUF ||| fNX else fNX
  | .nan _ => fNX

/-- A special function of an FP32 operand: special inputs, exact cases, or a free value within the bound. FRCP of
an input whose reciprocal overflows gives the mode's overflow result, as any result beyond max finite does. -/
def special (fn : SpFn) (ftz : Bool) (x : Nat) : Bits :=
  let v := fvalZ ftz .f32 x
  match spSpecial fn v with
  | some r => fresult .f32 .rn ftz r
  | none =>
    match v with
    | .fin n m e =>
      match spExact fn n m e with
      | some y => fresult .f32 .rn ftz (y, 0)
      | none =>
        let y := spApprox fn n m e
        let c := Config.special fn.code ftz x % 2 ^ 32
        let near := (roundTo .f32 .rn .nan y).1
        let r := if fn = .rcp && (ulpExp y > 104) then near
          else if spAllowed fn m e y c then c else near
        let fl := spFlags r
        if ftz && isSubnormal .f32 r then (Ty.signBit .f32 (bitAt r 31), fl ||| fUF ||| fNX) else (r, fl)
    | _ => (Ty.canonNaN .f32, 0)

end Sys2Proof.Machine
end

