-- ==== Sys2Proof/Machine/FloatAlu.lean ====
section
/-! DEFINITION. Machine/FloatAlu.lean: the meanings of the floating-point instructions (R157–R164). -/

namespace Sys2Proof.Machine

/-- A floating-point operand as its operation reads it (R89, R105). -/
def Group.fp (g : Group) (ty : Ty) (ftz : Bool) (o : Opnd) (l : Nat) : FVal := fvalZ ftz ty (g.opndT ty o l)

/-- FADD (R158). -/
def execFadd (h : Hdr) (ty : Ty) (rnd : Rnd) (ftz z : Bool) (d a b : Opnd) (s : State) : Out :=
  laneInstr (.fadd h ty rnd ftz z d a b) true s
    (alu d ty.regs z (fun g l => fresult ty rnd ftz (fsumV rnd [g.fp ty ftz a l, g.fp ty ftz b l])))

/-- FSUB (R158). -/
def execFsub (h : Hdr) (ty : Ty) (rnd : Rnd) (ftz z : Bool) (d a b : Opnd) (s : State) : Out :=
  laneInstr (.fsub h ty rnd ftz z d a b) true s
    (alu d ty.regs z (fun g l => fresult ty rnd ftz (fsumV rnd [g.fp ty ftz a l, (g.fp ty ftz b l).neg])))

/-- FMUL (R158). -/
def execFmul (h : Hdr) (ty : Ty) (rnd : Rnd) (ftz z : Bool) (d a b : Opnd) (s : State) : Out :=
  laneInstr (.fmul h ty rnd ftz z d a b) true s
    (alu d ty.regs z (fun g l => fresult ty rnd ftz (fmulV (g.fp ty ftz a l) (g.fp ty ftz b l))))

/-- FFMA (R158): the product is not rounded. -/
def execFfma (h : Hdr) (ty : Ty) (rnd : Rnd) (ftz z : Bool) (d a b c : Opnd) (s : State) : Out :=
  laneInstr (.ffma h ty rnd ftz z d a b c) true s
    (alu d ty.regs z (fun g l =>
      fresult ty rnd ftz (ffmaV rnd (g.fp ty ftz a l) (g.fp ty ftz b l) (g.fp ty ftz c l))))

/-- FMIN (R159). -/
def execFmin (h : Hdr) (ty : Ty) (ftz z : Bool) (d a b : Opnd) (s : State) : Out :=
  laneInstr (.fmin h ty ftz z d a b) true s
    (alu d ty.regs z (fun g l => fminmax ty ftz false (g.opndT ty a l) (g.opndT ty b l)))

/-- FMAX (R159). -/
def execFmax (h : Hdr) (ty : Ty) (ftz z : Bool) (d a b : Opnd) (s : State) : Out :=
  laneInstr (.fmax h ty ftz z d a b) true s
    (alu d ty.regs z (fun g l => fminmax ty ftz true (g.opndT ty a l) (g.opndT ty b l)))

/-- FCMP (R160). -/
def execFcmp (h : Hdr) (cc : Cmp) (ty : Ty) (ftz : Bool) (pd : Nat) (a b : Opnd) (s : State) : Out :=
  laneInstr (.fcmp h cc ty ftz pd a b) true s (cmpOp pd (fun g l => fcond cc (g.fp ty ftz a l) (g.fp ty ftz b l)))

/-- FDIV (R161). -/
def execFdiv (h : Hdr) (ty : Ty) (rnd : Rnd) (ftz z : Bool) (d a b : Opnd) (s : State) : Out :=
  laneInstr (.fdiv h ty rnd ftz z d a b) true s
    (alu d ty.regs z (fun g l => fresult ty rnd ftz (fdivV ty (g.fp ty ftz a l) (g.fp ty ftz b l))))

/-- FSQRT (R161). -/
def execFsqrt (h : Hdr) (ty : Ty) (rnd : Rnd) (ftz z : Bool) (d a : Opnd) (s : State) : Out :=
  laneInstr (.fsqrt h ty rnd ftz z d a) true s
    (alu d ty.regs z (fun g l => fresult ty rnd ftz (fsqrtV ty (g.fp ty ftz a l))))

/-- FRCP (R161): correctly rounded, or `.approx` within 1 ulp. -/
def execFrcp (h : Hdr) (ty : Ty) (rnd : Rnd) (ftz z alt : Bool) (d a : Opnd) (s : State) : Out :=
  laneInstr (.frcp h ty rnd ftz z alt d a) true s
    (alu d ty.regs z (fun g l =>
      if alt then special .rcp ftz (g.opndT ty a l) else fresult ty rnd ftz (frcpV ty (g.fp ty ftz a l))))

/-- FRSQ (R161): correctly rounded, or `.approx` within 1 ulp. -/
def execFrsq (h : Hdr) (ty : Ty) (rnd : Rnd) (ftz z alt : Bool) (d a : Opnd) (s : State) : Out :=
  laneInstr (.frsq h ty rnd ftz z alt d a) true s
    (alu d ty.regs z (fun g l =>
      if alt then special .rsq ftz (g.opndT ty a l) else fresult ty rnd ftz (frsqV ty (g.fp ty ftz a l))))

/-- FEXP2 (R162). -/
def execFexp2 (h : Hdr) (ftz z : Bool) (d a : Opnd) (s : State) : Out :=
  laneInstr (.fexp2 h ftz z d a) true s (alu d 1 z (fun g l => special .exp2 ftz (g.opndT .f32 a l)))

/-- FLOG2 (R162). -/
def execFlog2 (h : Hdr) (ftz z : Bool) (d a : Opnd) (s : State) : Out :=
  laneInstr (.flog2 h ftz z d a) true s (alu d 1 z (fun g l => special .log2 ftz (g.opndT .f32 a l)))

/-- FSIN (R162). -/
def execFsin (h : Hdr) (ftz z : Bool) (d a : Opnd) (s : State) : Out :=
  laneInstr (.fsin h ftz z d a) true s (alu d 1 z (fun g l => special .sin ftz (g.opndT .f32 a l)))

/-- FCOS (R162). -/
def execFcos (h : Hdr) (ftz z : Bool) (d a : Opnd) (s : State) : Out :=
  laneInstr (.fcos h ftz z d a) true s (alu d 1 z (fun g l => special .cos ftz (g.opndT .f32 a l)))

/-- FTANH (R162). -/
def execFtanh (h : Hdr) (ftz z : Bool) (d a : Opnd) (s : State) : Out :=
  laneInstr (.ftanh h ftz z d a) true s (alu d 1 z (fun g l => special .tanh ftz (g.opndT .f32 a l)))

/-- FRND (R163). -/
def execFrnd (h : Hdr) (ty : Ty) (rnd : Rnd) (ftz z : Bool) (d a : Opnd) (s : State) : Out :=
  laneInstr (.frnd h ty rnd ftz z d a) true s (alu d ty.regs z (fun g l => frndBits ty rnd (g.fp ty ftz a l)))

/-- FCLASS (R163): D is one 32-bit register for either type (DEDUCED, log 12). -/
def execFclass (h : Hdr) (ty : Ty) (z : Bool) (d a : Opnd) (s : State) : Out :=
  laneInstr (.fclass h ty z d a) true s (alu0 d 1 z (fun g l => fclassBits ty (g.opndT ty a l)))

/-- FSCALE (R163). -/
def execFscale (h : Hdr) (ty : Ty) (rnd : Rnd) (ftz z : Bool) (d a b : Opnd) (s : State) : Out :=
  laneInstr (.fscale h ty rnd ftz z d a b) true s
    (alu d ty.regs z (fun g l => fresult ty rnd ftz (fscaleV (g.fp ty ftz a l) (toSigned 32 (g.opnd b 1 l)))))

/-- FDOT2 (R164): the exact sum of two products and C, rounded once. -/
def fdot2Bits (ty : Ty) (rnd : Rnd) (a b c : Nat) : Bits :=
  let p0 := fmulV (fval ty (element ty a 0)) (fval ty (element ty b 0))
  let p1 := fmulV (fval ty (element ty a 1)) (fval ty (element ty b 1))
  let r := fsumV rnd [p0.1, p1.1, fval .f32 c]
  fresult .f32 rnd false (r.1, p0.2 ||| p1.2 ||| r.2)

/-- FDOT2 (R164). -/
def execFdot2 (h : Hdr) (ty : Ty) (rnd : Rnd) (z : Bool) (d a b c : Opnd) (s : State) : Out :=
  laneInstr (.fdot2 h ty rnd z d a b c) true s
    (alu d 1 z (fun g l => fdot2Bits ty rnd (g.opnd a 1 l) (g.opnd b 1 l) (g.opndT .f32 c l)))

end Sys2Proof.Machine
end

