-- ==== Sys2Proof/Machine/Home.lean ====
section
/-! DEFINITION. Machine/Home.lean: events at home slices and at holders of copies: reopening, acknowledgements, recalls,
leases, timed updates, overflowed requests, and host granules (R63, R228–R235, R245, R246). -/

namespace Sys2Proof.Machine

/-- REOPEN (R234): the old label's copies have ended, so the new label is recorded and the parked requests of the region
are performed in arrival order. -/
def execReopen (region : Nat) (s : State) : Out :=
  .next (match mfind s.dir region with
    | none => s
    | some d =>
      if d.closing.isSome && s.closeEnded region d then
        let s := s.finishClose region
        let ps := (s.parkedAccs (s.regionSlice region)).filter (fun e => e.2.st == .replay .close && regionOf e.2.key == region)
        s.retry .close (ps.foldl (fun l e => insertBy (·.2.arr) e l) [])
      else s)

/-- Lines of an agent leave the L1s of its cores. -/
def State.dropAgentL1 (s : State) (agent line : Nat) : State :=
  if agent < 48 then s.dropL1 (fun core l => core / 4 == agent && l == line) else s

/-- INVALIDATION_ACK (R228): the holder's copy is gone, and its reader slot with the last of its copies of the
region. -/
def execInvalidationAck (line agent : Nat) (s : State) : Out :=
  .next (
    if s.copies.any (fun c => c.line == line && c.agent == agent && c.inval) then
      let s := { s with copies := s.copies.filter (fun c => !(c.line == line && c.agent == agent)) }.dropAgentL1 agent line
      let region := line / 8
      if (s.regionCopies region).any (fun c => c.agent == agent) then s
      else { s with dir := mupd s.dir region (fun d =>
        if d.label = .uncl then { d with rdr := d.rdr.filter (fun a => a != agent) } else d) }
    else s)

/-- RECALL_RETURN (R229): the owner cache writes back the line, drops its copies and returns the delegation. -/
def execRecallReturn (line : Nat) (s : State) : Out :=
  .next (match s.deleg.find? (fun d => d.line == line && d.recalled) with
    | none => s
    | some d => { s with deleg := s.deleg.filter (fun d => d.line != line) }.dropAgentL1 d.cluster line)

/-- LEASE_EXTENSION (R230): every H/4 ticks each registered consumer of a PC region is sent B := e + H; none is sent
during a close (R234). -/
def execLeaseExtension (region : Nat) (s : State) : Out :=
  .next (match mfind s.dir region with
    | none => s
    | some d =>
      let now := s.homeNow (1024 * region)
      if d.label = .pc ∧ d.closing.isNone ∧ d.extAt + d.lag / 4 ≤ now then
        let b := now + d.lag
        let reg := fun (c : Copy) => c.line / 8 == region && d.rdr.contains c.agent
        if s.copies.any reg then
          { s with copies := s.copies.map (fun c => if reg c then { c with msgs := c.msgs ++ [{ bound := b, ext := true, seq := s.nextId }] } else c),
                   nextId := s.nextId + 1, dir := mupd s.dir region (fun d => { d with extAt := now, vbnd := max d.vbnd b }) }
        else { s with dir := mupd s.dir region (fun d => { d with extAt := now }) }
      else s)

/-- EXTENSION_ACK (R230): the acknowledgement reports whether the consumer read its copy; a second report in a row
without a read deregisters it. -/
def execExtensionAck (region agent : Nat) (s : State) : Out :=
  .next (
    let mine := fun (c : Copy) => c.line / 8 == region && c.agent == agent
    if s.copies.any (fun c => mine c && c.acks > 0) then
      if s.copies.any (fun c => mine c && c.read) then
        { s with copies := s.copies.map (fun c => if mine c then { c with read := false, idle := 0, acks := c.acks - 1 } else c),
                 dir := mupd s.dir region (fun d => { d with conread := d.conread || agent != d.owner }) }
      else if s.copies.any (fun c => mine c && c.idle ≥ 1) then
        { s with copies := s.copies.filter (fun c => !(mine c)),
                 dir := mupd s.dir region (fun d => { d with rdr := d.rdr.filter (fun a => a != agent) }) }
      else { s with copies := s.copies.map (fun c => if mine c then { c with idle := c.idle + 1, acks := c.acks - 1 } else c) }
    else s)

/-- The copy whose message to an agent from a slice was sent first (R14, R230). -/
def State.nextMsg (s : State) (agent slice : Nat) : Option Copy :=
  s.copies.foldl (fun m c =>
    if c.agent == agent && s.homeSlice (128 * c.line) == slice then
      match c.msgs, m with
      | x :: _, some (o : Copy) => if x.seq < ((o.msgs.head?).map (fun (y : CtlMsg) => y.seq)).getD 0 then some c else m
      | _ :: _, none => some c
      | [], m => m
    else m) none

/-- TIMED_UPDATE (R230): a consumer applies the oldest update or extension on its way to it. -/
def execTimedUpdate (agent slice : Nat) (s : State) : Out :=
  .next (match s.nextMsg agent slice with
    | none => s
    | some c =>
      { s with copies := s.copies.map (fun k =>
          if k.line == c.line && k.agent == c.agent then
            match k.msgs with
            | x :: rest => { k with bound := some x.bound, msgs := rest, acks := if x.ext then k.acks + 1 else k.acks }
            | [] => k
          else k) })

/-- OVERFLOW_FETCH (R246): the oldest overflowed request re-enters the pipeline, or waits in the ring for a replay entry. -/
def execOverflowFetch (slice : Nat) (s : State) : Out :=
  .next (match (s.slice slice).ovf with
    | [] => s
    | (op, lane) :: rest =>
      let gone := s.updSlice slice (fun x => { x with ovf := rest })
      match mfind s.ops op with
      | none => gone
      | some o =>
        match o.desc?, o.accs.find? (fun a => a.lane == lane && a.st == .over) with
        | some m, some a =>
          let (a, s) := s.performAcc op o m a
          let s := (({ s with ops := mupd s.ops op (fun o => o.setAcc lane (fun _ => a)) }).closeOp op).sendLink o m a
          if a.st = .over then s else s.updSlice slice (fun x => { x with ovf := rest })
        | _, _ => gone)

/-! ### Host granules (R63) -/

/-- OWNERSHIP_TRANSFER (R63): the transfer of a granule completes; a granule with none in progress that the device owns
is asked for by the host. A transfer to PROCESSOR needs every region of the granule closed, and wakes the monitors armed
there; one to the device needs the host link. -/
def execOwnershipTransfer (granule : Nat) (s : State) : Out :=
  .next (
    let g := s.gran granule
    match g.xfer with
    | some true =>
      if s.host.up then s.setGran granule { dev := true, since := s.now, xfer := none, want := false } else s
    | some false =>
      let s := s.closeGranule granule
      let rs := s.granRegions granule
      if rs.all (fun e => (match e.2.closing with | some c => c.evict | none => false) && s.closeEnded e.1 e.2) then
        let s := rs.foldl (fun s e => s.finishClose e.1) s
        let lines := s.watch.filter (fun w => isHost (128 * w.line) && granuleOf (128 * w.line) == granule)
        let s := lines.foldl (fun s w => s.fireWake w.line) s
        s.setGran granule { dev := false, since := s.now, xfer := none, want := false }
      else s
    | none => if g.dev then s.askHost granule else s)

/-- GRANULE_HOLD_EXPIRY (R63): the hold of 4,096 ticks has run out, and the opposing request starts its transfer. -/
def execGranuleHoldExpiry (granule : Nat) (s : State) : Out :=
  .next (
    let g := s.gran granule
    if g.want && g.xfer.isNone && decide (g.since + 4096 ≤ s.now) then
      if g.dev then s.askHost granule else s.askGranule granule
    else s)

end Sys2Proof.Machine
end

