-- ==== Sys2Proof/Machine/Preempt.lean ====
section
/-! DEFINITION. Machine/Preempt.lean: the sets of a partition (R38–R40), the starvation guard (R42), pre-emption, the save records
and the restore (R44–R50, R340), and joining a domain (R64). -/

namespace Sys2Proof.Machine

/-! ### Active and pending groups (R38–R40) -/

/-- An active group leaves the active set for a pending one. -/
def State.swapGroups (s : State) (out inn : Nat) : State :=
  (s.updGrp out (fun g => { g with active := false })).updGrp inn (fun g => { g with active := true, activeAt := s.clk })

/-- GROUP_SWAP (R38, R39): an active group that is blocked is swapped with a pending group that is ready. -/
def execGroupSwap (gout gin : Nat) (s : State) : Out :=
  .next (match s.grp? gout, s.grp? gin with
    | some a, some b =>
      if samePart a b && s.resident a && s.resident b && a.active && !b.active && !(s.isReady gout a) && s.isReady gin b then s.swapGroups gout gin
      else s
    | _, _ => s)

/-- PENDING_DISPLACE (R40): a pending group that has been ready for 4,096 clk displaces the group that has been in the active set for
longest. -/
def execPendingDisplace (gid : Nat) (s : State) : Out :=
  .next (match s.grp? gid with
    | none => s
    | some b =>
      if b.active || b.isSeq || !(s.resident b) || decide (s.clk < b.readyAt + 4096) || !(s.isReady gid b) then s
      else
        match ((s.coreGroups b.core).filter (fun e => samePart e.2 b && e.2.active)).foldl
            (fun (m : Option (Nat × Nat)) e => match m with
              | some o => if e.2.activeAt < o.2 then some (e.1, e.2.activeAt) else m
              | none => some (e.1, e.2.activeAt)) none with
        | some (j, _) => s.swapGroups j gid
        | none => s.updGrp gid (fun g => { g with active := true, activeAt := s.clk }))

/-- The PC of the candidate run that has waited longest, the lower PC among equal waits (R42). -/
def Group.longestWait (g : Group) : Option DWord :=
  ((lanesOf g.starved).foldl (fun (m : Option (Nat × DWord)) l =>
    let x := g.lane l
    match m with
    | none => some (x.wait, x.pc)
    | some b => if x.wait > b.1 ∨ (x.wait = b.1 ∧ x.pc.toNat < b.2.toNat) then some (x.wait, x.pc) else m) none).map (·.2)

/-- STARVATION_GUARD (R42): a run whose lanes have waited 224 issues is issued next. -/
def execStarvationGuard (gid : Nat) (s : State) : Out :=
  .next (match s.grp? gid with
    | none => s
    | some g =>
      match g.pick, g.longestWait with
      | none, some p => s.updGrp gid (fun g => { g with pick := some p })
      | _, _ => s)

/-! ### Save records (R46, R47, R213, R334) -/

/-- The state that a lane-side tile instruction needs (Table 17-3), as the save record names it. A TFREE accepts READY or DRAINING and the
record has room for one state: READY is named. (DESIGN CHOICE, log 92) -/
def TileOp.needs : TileOp → Nat
  | .topen => 0 | .twr _ => 1 | .tseal => 1 | .tdrain => 2 | .trd _ _ => 3 | .tfree => 2

/-- WKIND and WARG of a group (Table 2-8). -/
def State.waitWords (s : State) (g : Group) : Nat × Nat :=
  if g.gcall.isSome then (7, 0)
  else match g.block with
    | .grow n must pd _ _ => (1, n + b2n must * 2 ^ 16 + pd * 2 ^ 20)
    | .tile t k _ _ _ => (2, t + k.needs * 2 ^ 8)
    | .sqwait n a _ _ _ _ _ => (3, n + a.toNat * 2 ^ 32)
    | .mwait _ till _ => (4, till - s.regtime g)
    | .bowait _ _ till _ => (5, till - s.regtime g)
    | .meet op _ =>
      match mfind s.ops op with
      | some o => (6, match o.kind with | .mrslt _ _ _ _ tag _ _ => tag | _ => 0)
      | none => (6, 0)
    | .sysc => (8, 0)
    | _ => (if g.inTbar then 9 else 0, 0)

/-- The 256-byte header (Table 2-8). R47 does not say whether MONLINE is a virtual or a physical address: it is the physical address of the
line. (DESIGN CHOICE, log 93) -/
def State.saveHeader (s : State) (g : Group) : List Byte :=
  let l := mget {} s.launches g.launch
  let w := s.waitWords g
  packFields
    ([(4, (mget {} s.gangs g.gang).idx), (1, g.team), (1, g.grp), (2, l.queue), (8, l.lseq), (2, g.nregs), (2, g.sregs), (4, g.live.toNat),
      (8, g.ctime.toNat), (4, g.fpflags.toNat), (4, 0), (8, 0), (8, if g.mon.armed then 128 * g.mon.line else 0),
      (4, b2n g.mon.armed + 2 * b2n g.mon.wake), (4, g.frames.length), (8, g.cstack.toNat), (4, g.helper.toNat),
      (4, b2n g.hmode + 2 * b2n g.held + 4 * b2n g.dbgHeld), (4, (g.trapq.foldl (fun m t => m ||| t.run) (0 : Word)).toNat), (4, w.1), (8, w.2),
      (32, 0)] ++ g.lanes.map (fun x => (2, x.depth)) ++ [(64, 0)])

/-- An operand-log entry (Table 12-5). -/
def LogEntry.bytes (e : LogEntry) : List Byte :=
  let at_ := fun (l : Nat) => mfind e.lanes l
  packFields ((List.range 32).map (fun l => (8, match at_ l with
      | some x => 2 ^ 63 + x.out.toNat * 2 ^ 60 + b2n x.res * 2 ^ 59 + x.va.toNat
      | none => 0)) ++ (List.range 32).map (fun l => (16, match at_ l with | some x => x.data.toNat | none => 0)))

/-- A gate frame (Table 21-4). -/
def Frame.bytes (f : Frame) : List Byte :=
  packFields [(8, f.retpc.toNat), (8, match f.deadline with | some t => t | none => 2 ^ 64 - 1), (4, f.caller), (4, f.entered.toNat),
    (4, f.sdest * 2 ^ 23 + b2n f.kern * 2 ^ 12 + f.gate), (4, f.cbase * 2 ^ 16 + f.xbase * 2 ^ 8 + f.xkib), (96, 0)]

/-- A group save record (Table 2-6): the PC table's bits are not given and are free (log 42). The on-chip call-stack entries, whose order R46
leaves open, lie with the newest first (DESIGN CHOICE, log 94). Each frame's caller block, service scratch and caller window follow the
register window, innermost last (R340). -/
def State.saveRecord (s : State) (g : Group) : List Byte :=
  let parked := fun (x : Lane) => match x.st with | .parked _ => true | _ => false
  let waits := fun (x : Lane) => match x.st with | .rejoin _ | .tbar => true | _ => false
  s.saveHeader g
  ++ g.lanes.flatMap (fun x => leBytes 8 (Config.pcEntry x.pc.toNat (parked x) (waits x) x.wait))
  ++ g.lanes.flatMap (fun x => (List.range 4).flatMap (fun i => leBytes 8 ((x.stack.getD i 0).toNat)))
  ++ wordBytes g.p 15 ++ leBytes 4 0 ++ wordBytes g.b 16 ++ wordBytes g.sc 384
  ++ (List.range 4).flatMap (fun e => LogEntry.bytes (mget {} g.log e))
  ++ (List.range 8).flatMap (fun i => match g.trapq[i]? with
      | some t => packFields (t.words.map (fun w => (4, w)))
      | none => leBytes 64 0)
  ++ (List.range 4).flatMap (fun i => match g.frames.reverse[i]? with | some f => f.bytes | none => leBytes 128 0)
  ++ leBytes 896 0 ++ wordBytes g.v (32 * g.nregs)
  ++ g.frames.reverse.flatMap (fun f => f.callerBlock ++ mgets byteZero f.scratch 0 (1024 * f.xkib) ++ wordBytes f.v (32 * f.nregs))

/-- Zero bytes up to the next line. -/
def lineFull (bs : List Byte) : List Byte := bs ++ List.replicate (127 - (bs.length + 127) % 128) 0

/-- What a team saves besides its groups (R48): its scratchpad and its barrier's arrivals; under a sequencer its allocated tiles too, in
the order of their names. -/
def State.teamRecord (s : State) (gk : Nat) (k : Gang) (i : Nat) (t : Team) : List Byte :=
  let tiles := (s.core t.core).tiles.filter (fun e => e.2.team == some (gk, i))
  mgets byteZero t.sp 0 t.scratch ++ lineFull (packFields [(2, t.barMask.toNat), (2, b2n t.barGen)])
  ++ (if k.seq.isSome then tiles.flatMap (fun e => e.2.bytes e.1) ++ lineFull ((List.range 56).flatMap (fun n => leBytes 4 (s.tileStatus t.core n))) else [])

/-- What a gang saves besides its teams (R48): its signal counters, and its sequencer's PC, scalars and predicates. -/
def State.gangRecord (s : State) (k : Gang) : List Byte :=
  let seq := match k.seq.bind s.grp? with
    | some q => leBytes 8 (q.lane 0).pc.toNat ++ wordBytes q.sc 64 ++ wordBytes q.p 15
    | none => []
  lineFull (wordBytes k.sigs 8 ++ seq)

/-- Everything that a gang saves besides its groups. -/
def State.gangBytes (s : State) (e : Nat × Gang) : List Byte :=
  (mapFrom (fun i (t : Team) => (i, t)) 0 e.2.teams).flatMap (fun p => s.teamRecord e.1 e.2 p.1 p.2) ++ s.gangRecord e.2

/-- The number by which the writes of a context's save area are known. -/
def saveTag (ctx : Nat) : Nat := 2 ^ 60 + ctx

/-- Write bytes of a context's save area, line by line, as agent 48 (R224). (DESIGN CHOICE, log 42) -/
def State.saveBytes (s : State) (ctx a : Nat) (bs : List Byte) : State :=
  s.sendOwn (saveTag ctx) { kind := .store, ty := .b64, width := 128 }
    ((List.range (bs.length / 128)).map (fun i =>
      { lane := i, va := 0, key := a + 128 * i, data := leNat ((bs.drop (128 * i)).take 128), mig := true, st := .wait }))

/-- A context's save is on its way to memory. -/
def State.saving (s : State) (ctx : Nat) : Bool := s.ops.any (fun e => e.2.job == .own (saveTag ctx))

/-- Write the records of some groups one after another (DESIGN CHOICE, log 42). -/
def State.writeGroups (s : State) (ctx : Nat) : Nat → List (Nat × Group) → Nat × State
  | a, [] => (a, s)
  | a, e :: es =>
    let bs := s.saveRecord e.2
    ((s.saveBytes ctx a bs).updGrp e.1 (fun g => { g with saved := a })).writeGroups ctx (a + bs.length) es

/-- Write what some gangs save besides. -/
def State.writeGangs (s : State) (ctx : Nat) : Nat → List (Nat × Gang) → State
  | _, [] => s
  | a, e :: es =>
    let bs := s.gangBytes e
    (s.saveBytes ctx a bs).writeGangs ctx (a + bs.length) es

/-! ### PREEMPT_SAVE (R45, R48, R217, R340) -/

/-- Groups and sequencers that a context launched. -/
def State.groupsFor (s : State) (ctx : Nat) : List (Nat × Group) := s.groups.filter (fun e => e.2.ctx0 == ctx)

/-- A group's condition is one that is saved with it (Table 2-8), or none. (DEDUCED, log 60) -/
def Block.saved : Block → Bool
  | .none | .grow _ _ _ _ _ | .tile _ _ _ _ _ | .seqop _ _ _ | .twait _ _ _ _ _ | .sqwait _ _ _ _ _ _ _ | .mwait _ _ _ | .bowait _ _ _ _
  | .meet _ _ | .sysc => true
  | _ => false

/-- The operation of a wait that is taken back at the save and made again after the restore: a TWAIT, or an MRSLT that has no answer
(R47). -/
def State.ownWait (s : State) (g : Group) : Option Nat :=
  match g.block with
  | .twait op _ _ _ _ => some op
  | .meet op _ => if (mfind s.ops op).any (fun o => match o.kind with | .mrslt _ _ _ _ _ _ none => true | _ => false) then some op else none
  | _ => none

/-- A group has stopped and drained (R45): nothing of it is outstanding but its own wait, a prefetch, or an acknowledgement of the host
link. -/
def State.saveReady (s : State) (e : Nat × Group) : Bool :=
  s.stopped e.2 && e.2.block.saved && e.2.fences.isEmpty && !(s.fenceWaits e.1 .device) &&
  s.ops.all (fun o => o.2.gid != e.1 || s.ownWait e.2 == some o.1 || o.2.job == .link || o.2.job == .outside)

/-- The first poisoned register of a live lane not yet read. -/
def Group.firstPoison (g : Group) : Option (Nat × Poison) :=
  g.poison.find? (fun e => if e.1 < 32 * 512 then (g.lane (e.1 % 32)).st != .exited else g.live != 0)

/-- At a save every poisoned register not yet read raises its MEMORY_ERROR, at its lane's current PC: one trap for the lanes at one PC in
which one register is poisoned (R217). -/
def State.raisePoison (s : State) (gid : Nat) : Nat → State
  | 0 => s
  | fuel + 1 =>
    match s.grp? gid with
    | none => s
    | some g =>
      match g.firstPoison with
      | none => s
      | some (k, p) =>
        if g.trapq.length ≥ 8 then s
        else
          let vec := decide (k < 32 * 512)
          let pc := (g.lane (if vec then k % 32 else lowestLane g.live)).pc
          let here := g.live &&& g.lanesWhere (fun x => x.pc == pc)
          let at_ := if vec then here &&& maskWhere (fun l => (mfind g.poison (k / 32 * 32 + l)).isSome) else here
          let mine := fun (j : Nat) => if vec then j / 32 == k / 32 && at_.getLsbD (j % 32) else j == k
          let s := s.updGrp gid (fun g => { g with poison := g.poison.filter (fun e => !(mine e.1)) })
          let t : TrapRec := { cause := 0x16, mask := at_, pc := pc, addr := p.addr, regt := BitVec.ofNat 64 (s.regtime g), word0 := g.word0,
                               run := at_, detail := BitVec.ofNat 32 p.code }
          let s := if g.inCallee then (s.addErr g.ctx (.trap gid t)).updGrp gid (fun g => g.startUnwind 9 0x16) else s.queueTrap gid t
          s.raisePoison gid fuel

/-- A group whose record is written: the wait that it makes again is taken back, and so is a re-issue that has not been made (R214, R219). -/
def State.stowGroup (s : State) (gid : Nat) : State :=
  match s.grp? gid with
  | none => s
  | some g =>
    let s := match s.ownWait g with | some op => s.endOp op | none => s
    s.updGrp gid (fun g => { g with reissue := none })

/-- Tiles of a context's teams leave their cores (R48). -/
def State.stowTiles (s : State) (ctx : Nat) : State :=
  (s.gangs.filter (fun e => e.2.ctx == ctx)).foldl (fun s e =>
    (mapFrom (fun i (t : Team) => (i, t)) 0 e.2.teams).foldl (fun s (t : Nat × Team) =>
      let mine := fun (x : Nat × Tile) => x.2.team == some (e.1, t.1)
      let c := s.core t.2.core
      if c.tiles.any mine then
        { (s.updCore t.2.core (fun c => { c with tiles := c.tiles.filter (fun x => !(mine x)), scale := none, perm := none })) with
          savedTiles := s.savedTiles ++ [{ gang := e.1, team := t.1, tiles := c.tiles.filter mine, scale := c.scale, perm := c.perm }] }
      else s) s) s

/-- PREEMPT_SAVE (R45): every group of the context has stopped and drained; its records are written and its resources are free. -/
def execPreemptSave (ctx : Nat) (s : State) : Out :=
  .next (
    let c := mget {} s.ctxs ctx
    let gs := s.groupsFor ctx
    if !c.stopping || c.out || c.killing || !(gs.all s.saveReady) || s.gangs.any (fun k => k.2.ctx == ctx && k.2.teams.any (fun t => t.copying)) then s
    else
      let s := gs.foldl (fun s e => s.raisePoison e.1 (32 * 1024)) s
      if (s.groupsFor ctx).any (fun e => e.2.unwinding) then s
      else
        let (a, s) := s.writeGroups ctx c.saveBase ((s.groupsFor ctx).filter (fun e => !e.2.isSeq))
        let s := s.writeGangs ctx a (s.gangs.filter (fun e => e.2.ctx == ctx))
        let s := (gs.foldl (fun s e => s.stowGroup e.1) s).stowTiles ctx
        let s := { s with ctxs := mupd s.ctxs ctx (fun c => { c with stopping := false, out := true, outAt := s.now }) }
        gs.foldl (fun s e => if e.2.isSeq then s else s.promote e.2.core (e.2.grp % 4)) s)

/-- A group that is switched out has changed: its record is written anew (R50, R214, R339, R340). -/
def State.refreshRecord (s : State) (gid : Nat) : State :=
  match s.grp? gid with
  | none => s
  | some g => if s.resident g || g.isSeq then s else s.saveBytes g.ctx0 g.saved (s.saveRecord g)

/-! ### CONTEXT_RESTORE (R45, R50, R340) -/

/-- A wait is made again after the restore: its clocks start anew, its ticks go on (R47). -/
def Block.again (b : Block) (clk d : Nat) (core : Nat → Nat) : Block :=
  match b with
  | .grow n m pd l _ => .grow n m pd l clk
  | .tile t k _ r a => .tile t k clk r a
  | .seqop m sel since => .seqop m sel (since.map (fun _ => clk))
  | .twait op t st cs _ => .twait op t st (cs.map core) clk
  | .sqwait n a cap _ met r act => .sqwait n a cap clk met r act
  | .mwait pd till l => .mwait pd (till + d) l
  | .bowait pd a till l => .bowait pd a (till + d) l
  | b => b

/-- An MWAIT whose wake came while its group was switched out returns with P[D] = 1; an MRSLT is issued again (R47, R50). -/
def Group.awake (g : Group) : Group :=
  match g.block with
  | .mwait pd _ lanes => if g.mon.wake then { ((g.setPredAll pd true).advance lanes) with block := .none, mon := {} } else g
  | .meet _ _ => { g with block := .none }
  | _ => g

/-- Granules for a group's window and for its callers' windows below it, which were L1's (R128, R129). -/
def State.regrant (s : State) (gid : Nat) : State :=
  match s.grp? gid with
  | none => s
  | some g =>
    let gs := s.freshGrans g.core (g.windowRegs / 8)
    let cut := fun (n : Nat) (f : Frame) => if f.kern then (n, f) else (n + f.nregs / 8, { f with gmap := (gs.drop n).take (f.nregs / 8) })
    let fs := g.frames.foldl (fun (r : Nat × List Frame) f => let c := cut r.1 f; (c.1, r.2 ++ [c.2])) (g.nregs / 8, [])
    (s.takeGrans g.core gs).updGrp gid (fun g => { g with gmap := gs.take (g.nregs / 8), frames := fs.2 })

/-- A TWAIT that waits is made again: it counts on mx (R47, R285). -/
def State.rewait (s : State) (gid : Nat) : State :=
  match s.grp? gid with
  | none => s
  | some g =>
    match g.block with
    | .twait _ t st cs since => (s.addOp gid (some .mx) (.seqop [])).updGrp gid (fun g => { g with block := .twait s.nextId t st cs since })
    | _ => s

/-- Bring back one group at its new core; `none` when its core has no room. -/
def State.restoreGroup (s : State) (gid cluster core d : Nat) (move : Nat → Nat) : Option State :=
  match s.grp? gid with
  | none => none
  | some g =>
    let back (g : Group) (fs : List Frame) : Group :=
      { g with cluster := cluster, core := core, frames := fs.map (fun f => { f with deadline := f.deadline.map (· + d) }), readyAt := s.clk, served := false,
               activeAt := s.clk, block := g.block.again s.clk d move, gcall := g.gcall.map (fun w => { w with since := s.clk }), saved := 0 }
    if g.isSeq then some ((s.updGrp gid (fun g => back g [])).rewait gid)
    else if s.freeGranules core < g.windowRegs / 8 ∨ s.partGroups core (g.grp % 4) ≥ 16 then none
    else match placeFrames (s.svcUsed core) g.frames with
      | none => none
      | some fs =>
        let act := decide (((s.coreGroups core).filter (fun e => e.2.grp % 4 == g.grp % 4 && e.2.active)).length < 8)
        some ((s.updGrp gid (fun g => ({ (back g fs) with active := act }).awake)).regrant gid)

/-- Bring back several groups. -/
def State.restoreGroups (s : State) (cluster d : Nat) (coreOf move : Nat → Nat) : List (Nat × Group) → Option State
  | [] => some s
  | e :: es =>
    match s.restoreGroup e.1 cluster (if e.2.isSeq then 4 * cluster else coreOf e.2.team) d move with
    | none => none
    | some s => s.restoreGroups cluster d coreOf move es

/-- Bring back the saved tiles of a gang. -/
def State.restoreTiles (s : State) (gang : Nat) (coreOf : Nat → Nat) : List SavedTiles → Option State
  | [] => some s
  | x :: xs =>
    if x.gang ≠ gang then s.restoreTiles gang coreOf xs
    else
      let core := coreOf x.team
      if (s.core core).tiles.any (fun e => e.2.team.isSome) then none
      else
        ({ (s.updCore core (fun c => { c with tiles := x.tiles, scale := x.scale, perm := x.perm })) with
          savedTiles := eraseFirst (fun o => o == x) s.savedTiles }).restoreTiles gang coreOf xs

/-- Bring back one gang, as it was saved, at a place. -/
def State.restoreGang (s : State) (gk : Nat) (k : Gang) (d : Nat) (p : Place) : Option State :=
  let coreOf := fun (t : Nat) => p.cores.getD t 0
  let olds := k.teams.map (·.core)
  let move := fun (c : Nat) => match olds.findIdx? (fun o => o == c) with | some i => coreOf i | none => c
  let ok := s.clustersUp.contains p.cluster && p.cores.length == k.teams.length && decide (p.cores.Nodup) &&
    p.cores.all (fun c => (coresOf p.cluster).contains c) && (k.am || decide ((s.gangsOn p.cluster).length < 8)) && !(k.seq.isSome && s.seqOn p.cluster)
  let scr := (mapFrom (fun i (t : Team) => (coreOf i, t.scratch / 1024)) 0 k.teams).all (fun (q : Nat × Nat) => q.2 ≤ s.freeGranules q.1)
  if !ok || !scr then none
  else
    let mine := s.groups.filter (fun e => e.2.gang == gk)
    let s := { s with gangs := mput s.gangs gk { k with cluster := p.cluster, teams := mapFrom (fun i (t : Team) => { t with core := coreOf i }) 0 k.teams } }
    let s := (mapFrom (fun i (t : Team) => (i, t)) 0 k.teams).foldl (fun s (t : Nat × Team) =>
      let gs := s.freshGrans (coreOf t.1) (t.2.scratch / 1024)
      (s.takeGrans (coreOf t.1) gs).updTeam gk t.1 (fun x => { x with grans := gs })) s
    (s.restoreGroups p.cluster d coreOf move mine).bind (fun s => s.restoreTiles gk coreOf s.savedTiles)

/-- Bring back the gangs of a context at their places. -/
def State.restoreGangs (s : State) (d : Nat) : List (Nat × Gang) → List Place → Option State
  | [], [] => some s
  | g :: gs, p :: ps => (s.restoreGang g.1 g.2 d p).bind (fun s => s.restoreGangs d gs ps)
  | _, _ => none

/-- A core number that no core has: a context being restored holds nothing until its gangs are placed. -/
def nowhere : Nat := 1000000

/-- A group of the context is in a gate call that its kill waits for (R340). -/
def State.killHolds (s : State) (ctx : Nat) : Bool := s.groups.any (fun e => e.2.ctx0 == ctx && !e.2.frames.isEmpty)

/-- CONTEXT_RESTORE (R45): every gang of a saved and eligible context is placed where the scheduler chooses and it fits, in one step. A
context that is being killed comes back where its kill waits for a gate call to end (R340). (DEDUCED, log 65) -/
def execContextRestore (ctx : Nat) (places : List Place) (s : State) : Out :=
  .next (
    let c := mget {} s.ctxs ctx
    if !c.out || s.saving ctx || s.hold ≠ 0 || !(if c.killing then s.killHolds ctx else c.eligible && c.live) then s
    else
      let mine := s.gangs.filter (fun e => e.2.ctx == ctx)
      let off := fun (e : Nat × Group) =>
        if e.2.ctx0 == ctx then (e.1, { e.2 with core := nowhere, cluster := nowhere, gmap := [], frames := e.2.frames.map (fun f => { f with gmap := [] }) })
        else e
      let offG := fun (e : Nat × Gang) =>
        if e.2.ctx == ctx then (e.1, { e.2 with cluster := nowhere, teams := e.2.teams.map (fun x => { x with core := nowhere, grans := [] }) }) else e
      let t : State := { s with ctxs := mupd s.ctxs ctx (fun c => { c with out := false, eligible := false }),
                                groups := s.groups.map off, gangs := s.gangs.map offG }
      match t.restoreGangs (s.now - c.outAt) mine places with
      | none => s
      | some t => (places.flatMap (fun (p : Place) => p.cores)).foldl (fun (t : State) k => t.deadlockCheck k 64) t)

/-! ### Joining a domain (R64) -/

/-- DOMAIN_JOIN (R64, R360): before any context is admitted the copies are stepped forward to domain time; copies that read ahead are held
still until domain time reaches them (`State.pass`). -/
def execDomainJoin (time : Nat) (s : State) : Out :=
  .next (
    if !s.groups.isEmpty then s
    else if s.now < time then { (s.pass (time - s.now) 0) with lagCl := [], lagSl := [], lagHub := 0, hold := 0 }
    else { s with hold := s.now - time })

end Sys2Proof.Machine
end

