-- ==== Sys2Proof/Machine/Hub.lean ====
section
/-! DEFINITION. Machine/Hub.lean: the hub's commands, the registers of the hub window and the directory window (R231, R242,
R247, R248, R349–R357, R372, R373). -/

namespace Sys2Proof.Machine

/-! ### Command ports (R353) -/

def State.port (s : State) (p : Nat) : Port := mget {} s.hub.ports p
def State.updPort (s : State) (p : Nat) (f : Port → Port) : State :=
  { s with hub := { s.hub with ports := mput s.hub.ports p (f (s.port p)) } }
def Command.arg (c : Command) (i : Nat) : Nat := c.args.getD i 0

/-- A command joins the queue of its port: it is issued, and the context that a CTX_KILL names is no gate target from now on (R330, R353). -/
def State.issueCmd (s : State) (p : Nat) (c : Command) : State :=
  let s : State := ({ s with nextId := s.nextId + 1 }).updPort p (fun x => { x with queue := x.queue ++ [{ c with seq := s.nextId }] })
  if c.code = 0x06 then { s with ctxs := mupd s.ctxs (c.arg 0) (fun k => { k with live := false }) } else s

/-- A write of HC_OP that waits for a free slot of the port's queue takes it (R353). -/
def State.issueHeld (s : State) (p : Nat) : State :=
  match (s.port p).held with
  | c :: rest => if (s.port p).queue.length < 16 then (s.updPort p (fun x => { x with held := rest })).issueCmd p c else s
  | [] => s

/-- The oldest command of a port is complete: HC_STAT takes its TAG and status. -/
def State.cmdDone (s : State) (p status : Nat) : State :=
  (s.updPort p (fun x => match x.queue with
    | c :: rest => { x with queue := rest, tag := c.tag, code := status, busy := false, pos := none, tc := 0 }
    | [] => x)).issueHeld p

/-- A store of a system core sent before the command's issue has no instant yet (R353): the register write that issues a command does not
name its core, and the stores of all of them are waited for. (DESIGN CHOICE, log 67) -/
def State.cmdWaits (s : State) (c : Command) : Bool :=
  s.ops.any (fun e => e.1 < c.seq && e.2.ofSys && e.2.desc?.any (fun m => m.kind.isWrite))

/-- Perform the oldest command of a port when it has this code, once it may act as a release; commands of one port complete in issue
order. -/
def hubCmd (code p : Nat) (f : Command → State → State) (s : State) : Out :=
  .next (match (s.port p).queue with
    | c :: _ => if c.code == code && !(s.cmdWaits c) then f c s else s
    | [] => s)

/-- The event of a port's oldest command. -/
def cmdTag (p : Nat) : Nat × Nat := (8, p)

/-- The context that a command names, if it exists. -/
def State.loaded? (s : State) (id : Nat) : Option Ctx := (mfind s.ctxs id).filter (fun c => c.loaded)

/-- A command on a context: ACCESS_DENIED, with no change, where it does not exist. -/
def hubCtxCmd (code p : Nat) (f : Command → Nat → Ctx → State → State) (s : State) : Out :=
  hubCmd code p (fun c s => match s.loaded? (c.arg 0) with
    | some x => f c (c.arg 0) x s
    | none => s.cmdDone p 2) s

/-! ### CTX_LOAD (R57, R326, R354) -/

/-- A context descriptor read from its 256 bytes (Tables 3-3, 21-1, 23-5). (DESIGN CHOICE, log 62) -/
def parseCtx (x : Nat) : Ctx :=
  let f := fieldAt x
  { root := f 0 8, hwBase := f 8 8, hwLimit := f 0x10 8, hwOffset := f 0x18 8, hwPerm := BitVec.ofNat 3 (f 0x20 4),
    gtBase := f 0x28 8, gtSize := f 0x30 4, gclass := f 0x34 4, trapent := BitVec.ofNat 64 (f 0x38 8), errBase := f 0x40 8,
    errSlots := f 0x48 4, errLost := f 0x4C 4, notifyq := f 0x50 4, syscq := f 0x54 4, saveBase := f 0x58 8 }

/-- The last byte of the device HBM that contexts may reach (R56). -/
def inCtxHbm (a : Nat) : Bool := a < Config.labelBase

/-- The heap window's limits (Table 3-3). -/
def Ctx.windowOk (c : Ctx) : Bool :=
  canonical (BitVec.ofNat 64 c.hwBase) && c.hwBase % 65536 == 0 && c.hwLimit % 65536 == 0 && c.hwLimit ≤ 2 ^ 40 &&
  (c.hwLimit == 0 || (inCtxHbm ((c.hwBase + c.hwOffset) % 2 ^ 52) && inCtxHbm ((c.hwBase + c.hwLimit - 1 + c.hwOffset) % 2 ^ 52)))

/-- The descriptor `x` passes the check (R354); `c` is `x` as parsed. -/
def Ctx.ok (c : Ctx) (x : Nat) : Bool :=
  c.root % 8192 == 0 && c.root < 2 ^ 52 && c.windowOk && fieldAt x 0x20 4 < 8 && fieldAt x 0x24 4 == 0 &&
  c.gtBase % 64 == 0 && inCtxHbm c.gtBase && c.gtSize ≤ 4096 && c.gclass ≤ 63 && (c.trapent == 0 || validCode c.trapent) &&
  c.errBase % 64 == 0 && inCtxHbm c.errBase && decide (64 ≤ c.errSlots ∧ c.errSlots ≤ 65536) && decide (65536 % c.errSlots = 0) &&
  c.notifyq ≤ 255 && c.syscq ≤ 255 && fieldAt x 0x60 160 == 0

/-- A CTX_KILL of the context that was issued after command `c` is still queued (R330). -/
def State.killAfter (s : State) (ctx : Nat) (c : Command) : Bool :=
  s.hub.ports.any (fun p => p.2.queue.any (fun k => k.code == 0x06 && k.arg 0 == ctx && decide (c.seq < k.seq)))

/-- CTX_LOAD (R353, R354): the descriptor is checked and installed; one that is refused installs nothing and is noted in the
context's error record (R57). The id of a context being killed is loaded once that kill is complete. -/
def execCtxLoad (port : Nat) (s : State) : Out :=
  hubCmd 0x01 port (fun c s =>
    let id := c.arg 0
    if id = 0 ∨ id ≥ 4096 then s.cmdDone port 2
    else
      let old : Ctx := mget {} s.ctxs id
      if old.killing then s
      else
        let x := s.readMem (s.hub.ctxtab + 256 * id) 256
        let k := parseCtx x
        if k.ok x then
          let k := { k with loaded := true, live := !(s.killAfter id c), stopping := old.stopping, eligible := old.eligible, admitted := old.admitted,
                            out := old.out, outAt := old.outAt, errs := old.errs }
          ({ s with ctxs := mput s.ctxs id k }).cmdDone port 0
        else (s.addErr id .descriptor).cmdDone port 2) s

/-! ### TLB_INVAL (R61, R71) -/

/-- A companion mask marks the die, or the remote device's group, of a translation to `key` held by `die` (Table 3-7). -/
def maskMarks (mask die key : Nat) : Bool :=
  match keyDev key with
  | none => bitAt mask die
  | some d => bitAt mask (4 + d % 60)

/-- Two ranges share a byte. -/
def rangesMeet (a n b m : Nat) : Bool := a < b + m && b < a + n

/-- The translations of a context that an invalidation drops. -/
def State.invalSet (s : State) (ctx va n mask : Nat) : List TlbEnt :=
  s.tlb.filter (fun t => t.ctx == ctx && rangesMeet t.va t.size va n && maskMarks mask t.die t.key)

/-- Drop the marked translations, and push the deltas built through them (R353). -/
def State.invalidate (s : State) (ctx va n mask : Nat) : State :=
  let ts := s.invalSet ctx va n mask
  let s : State := { s with tlb := s.tlb.filter (fun t => !(ts.contains t)) }
  s.pushWhere [] none (fun d => ts.any (fun t => t.die == dieOf d.cluster && rangesMeet (128 * d.line) 128 t.key t.size))

/-- An access translated in the range by a marked die has not yet been performed, parked or accepted: an instruction's or a spill's, a
copy chunk's that has been placed, or a delta's that is being pushed. -/
def State.invalWaits (s : State) (ctx va n mask : Nat) : Bool :=
  s.ops.any (fun e => (e.2.isPush && bitAt mask (dieOf e.2.cluster) && e.2.accs.any (fun a => a.st == .wait)) ||
    (e.2.ctx == ctx && (match e.2.desc? with
    | none => false
    | some m => e.2.accs.any (fun a => a.st == .wait && rangesMeet a.va.toNat m.width va n && maskMarks mask (dieOf e.2.cluster) a.key))))
  || s.cores.any (fun c => c.2.chans.any (fun h => h.2.reqs.any (fun q => q.ctx == ctx && bitAt mask (dieOf q.cluster) &&
      q.flight.any (fun f => f.stage == .reading && (chunkPieces q.r f.chunk).any (fun p => rangesMeet p.2.1 p.2.2 va n)))))

/-- TLB_INVAL (R353). (DEDUCED, log 63) -/
def execTlbInval (port : Nat) (s : State) : Out :=
  hubCtxCmd 0x02 port (fun c id _ s =>
    let s := if (s.port port).busy then s
      else (s.invalidate id (c.arg 1) (c.arg 2) (c.arg 3)).updPort port (fun p => { p with busy := true })
    if s.invalWaits id (c.arg 1) (c.arg 2) (c.arg 3) then s else s.cmdDone port 0) s

/-! ### HARVEST (R242) -/

/-- What a step of HARVEST comes to. -/
inductive HarvestRes
  /-- It waits for an atomic at home. -/
  | wait
  /-- Done; the latest instant of its atomics. -/
  | done (tc : Nat)
  deriving DecidableEq, Repr

/-- The 64-bit words of the bitmap that hold frames `lo` to `hi - 1`. -/
def dirtyWords (lo hi : Nat) : List Nat := (List.range ((hi + 63) / 64 - lo / 64)).map (fun i => lo / 64 + i)
/-- The bits of word `w` for frames `lo` to `hi - 1`. -/
def dirtyMask (lo hi w : Nat) : Nat := (List.range 64).foldl (fun m i => if lo ≤ 64 * w + i ∧ 64 * w + i < hi then m + 2 ^ i else m) 0

/-- Test and clear the bitmap bits of frames `lo` to `hi - 1`, by device-scope atomics on its words, as agent 48 (R242): whether a bit was set
and the latest instant, or none while one of them waits at home. -/
def State.clearBits (s : State) (p lo hi : Nat) : List Nat → Option (Bool × Nat) × State
  | [] => (some (false, 0), s)
  | w :: ws =>
    let m := dirtyMask lo hi w
    match s.ask { tag := cmdTag p, agent := hubAgent, key := s.hub.dirtyBase + 8 * w, width := 8, kind := .atom .and, ty := .b64, data := 2 ^ 64 - 1 - m } with
    | (.done v tc, s) =>
      let (r, s) := s.clearBits p lo hi ws
      (r.map (fun x => (x.1 || v &&& m != 0, max x.2 tc)), s)
    | (.wait, s) => (none, (s.clearBits p lo hi ws).2)
    -- a word that cannot be read counts as set
    | (_, s) =>
      let (r, s) := s.clearBits p lo hi ws
      (r.map (fun x => (true, x.2)), s)

/-- The steps of R242 for one leaf with MT = 0: write parts of delegations are revoked and GB is cleared, once; then the bitmap bits of its
frames are tested and cleared, and the leaf takes D where one was set. -/
def State.harvestLeaf (s : State) (p : Nat) (l : Leaf) : HarvestRes × State :=
  let inside := fun (a : Nat) => l.key ≤ a && a < l.key + l.size
  let s : State := if s.ops.any (fun e => e.2.askOf (cmdTag p)) then s
    else { s with deleg := s.deleg.map (fun d => if inside (128 * d.line) then { d with write := false } else d),
                  dir := s.dir.map (fun e => if inside (1024 * e.1) then (e.1, { e.2 with gb := false }) else e) }
  let lo := l.key / 4096
  let hi := lo + l.size / 4096
  match s.clearBits p lo hi (dirtyWords lo hi) with
  | (none, s) => (.wait, s)
  | (some (false, tc), s) => (.done tc, s)
  | (some (true, tc), s) =>
    match s.ask { tag := cmdTag p, agent := hubAgent, key := l.pte, width := 8, kind := .atom .or, ty := .b64, data := 128 } with
    | (.done _ t, s) => (.done (max tc t), s)
    | (.wait, s) => (.wait, s)
    | (_, s) => (.done tc, s)

/-- Every valid leaf of a table from `va` to `till`, as far as the atomics come; whether the range is done. -/
def State.harvestRange (s : State) (p root till : Nat) : Nat → Nat → Bool × State
  | 0, _ => (true, s)
  | fuel + 1, va =>
    if va ≥ till then (true, s)
    else match s.leafFrom va root level4 [level3, level2, level1, level0] with
      | .leaf l =>
        match (if l.mt = 0 then s.harvestLeaf p l else (.done 0, s)) with
        | (.wait, s) => (false, s.updPort p (fun x => { x with pos := some va }))
        | (.done tc, s) => ((s.forget (cmdTag p)).updPort p (fun x => { x with tc := max x.tc tc })).harvestRange p root till fuel (l.base + l.size)
      | _ => s.harvestRange p root till fuel (va / 4096 * 4096 + 4096)

/-- HARVEST (R242, R353): the range's records become dirty bits; then, as a system-scope release, 1 is stored to the completion word.
(DEDUCED, log 64) -/
def execHarvest (port : Nat) (s : State) : Out :=
  hubCmd 0x03 port (fun c s =>
    let till := c.arg 1 + c.arg 2
    match (if (s.port port).busy then (true, s) else s.harvestRange port (c.arg 0) till (c.arg 2 / 4096 + 2) ((s.port port).pos.getD (c.arg 1))) with
    | (false, s) => s
    | (true, s) =>
      let s := s.updPort port (fun x => { x with busy := true })
      if s.now < (s.port port).tc + guardTicks .system then s
      else match s.ask { tag := cmdTag port, agent := hubAgent, key := c.arg 3, width := 8, kind := .store, ty := .b64, data := 1 } with
        | (.wait, s) => s
        | (_, s) => (s.forget (cmdTag port)).cmdDone port 0) s

/-! ### CTX_PREEMPT and CTX_RESUME (R45) -/

/-- CTX_PREEMPT: the context's groups stop at their next issue slot; the command completes when the save is written. -/
def execCtxPreempt (port : Nat) (s : State) : Out :=
  hubCtxCmd 0x04 port (fun _ id c s =>
    let s := if (s.port port).busy then s
      else ({ s with ctxs := mupd s.ctxs id (fun c => { c with stopping := !c.out, eligible := false }) }).updPort port
        (fun p => { p with busy := true })
    if c.out && !(s.saving id) then s.cmdDone port 0 else s) s

/-- CTX_RESUME: the context is eligible for restore. -/
def execCtxResume (port : Nat) (s : State) : Out :=
  hubCtxCmd 0x05 port (fun _ id _ s =>
    ({ s with ctxs := mupd s.ctxs id (fun c => { c with eligible := true }) }).cmdDone port 0) s

/-! ### CTX_KILL (R20, R37, R338, R340) -/

/-- Unwind a call for a kill; a group that is switched out has nothing outstanding, and its unwind is done at once, in its record too
(R338, R340). -/
def State.killFrame (s : State) (gid : Nat) (g : Group) (depth : Nat) : State :=
  if s.resident g then s.unwindFrame gid depth 9 0
  else (s.performUnwind gid depth 9 0).refreshRecord gid

/-- A kill of context `id` starts the forced unwinds that it asks for: calls into the context, and for the context's own groups
the frames with no deadline; a system call is withdrawn. Frames above an unwound one go with it (R338). -/
def State.killFrames (s : State) (id : Nat) : State :=
  s.groups.foldl (fun s e =>
    let own := e.2.ctx0 == id
    match e.2.outermost (fun f => !f.kern && (f.tctx == id || (own && f.deadline.isNone))) with
    | some d => s.killFrame e.1 e.2 d
    | none =>
      match own, e.2.frames with
      | true, f :: _ => if f.kern then s.killFrame e.1 e.2 e.2.frames.length else s
      | _, _ => s) s

/-- A gate wait of the kill has not ended (R340): one of a group that is switched out is waited for too, and the group comes back for it. -/
def State.killWaits (s : State) (id : Nat) : Bool :=
  s.groups.any (fun e => (e.2.ctx0 == id && !e.2.frames.isEmpty) || e.2.frames.any (fun f => !f.kern && f.tctx == id))

/-- How one access of a killed context is reported: a performed or accepted one as completed, one not started as CANCELLED. -/
def Acc.killCode (a : Acc) : Option Nat :=
  match a.st with
  | .done | .timed => some 0
  | .failed c => some c
  | .refused _ => some 2
  | .walk | .wait | .replay _ | .over => some 0xC
  | .off => none

/-- Report the items of an operation of a killed group in the error record (R20). -/
def State.cancelOp (s : State) (id : Nat) (o : Op) : State :=
  match o.kind with
  | .mem _ as => as.foldl (fun s a => match a.killCode with | some c => s.addErr o.ctx (.item a.va c) | none => s) s
  | .lnch _ _ _ => s.addErr o.ctx (.item 0 0xC)
  -- the state change of the other lane-side instructions was made as they issued (R273)
  | .tile _ (.twr _) | .tile _ (.trd _ _) => s.addErr o.ctx (.item 0 0xC)
  | .tile _ _ => s.addErr o.ctx (.item 0 0)
  -- a status that was on its way to its group is the item's own
  | .reply _ _ vals _ _ => s.addErr o.ctx (.item 0 (if o.cls = some .mt then (vals.headD (0, 0)).2 else 0))
  | .queue q => q.todo.foldl (fun s _ => s.addErr o.ctx (.item 0 0xC)) (q.served.foldl (fun s _ => s.addErr o.ctx (.item 0 0)) s)
  | .seqop cores =>
    s.addErr o.ctx (.item 0 (if cores.any (fun k => (s.core k).queue.any (fun e => e.op == id && e.till.isNone)) then 0xC else 0))
  | .copy _ | .mcont _ _ _ | .mrslt _ _ _ _ _ _ _ => s

/-- How a chunk in flight of a killed context is reported: one that has arrived, or whose writes have all been sent, as it ended; any other
as CANCELLED (R20, R299). -/
def State.flightCode (s : State) (f : Flight) : Nat :=
  match f.stage with
  | .over => f.res.status
  | .writing => if (s.flightAccs f).all (fun a => a.st != .wait) then accStatus (s.flightAccs f) else 0xC
  | _ => 0xC

/-- Report the chunks of a cancelled request: those that have arrived as they ended, the others CANCELLED. What has been sent goes on to its
end. A contribution's stream ends with its chunks so reported, and taints its round (R311, R315). -/
def State.cancelReq (s : State) (q : CopyReq) : State :=
  let codes := q.flight.map s.flightCode
  let s := (q.flight.zip codes).foldl (fun s f => (s.addErr q.ctx (.chunk q.addr f.1.chunk f.2)).abandonFlight f.1) s
  let left := copyChunks q.r - q.issued
  let s := if copySized q.r then s.chunkErrs q.ctx q.addr q.issued left 0xC else s
  match q.who with
  | .meet id _ _ _ =>
    let bad := (codes.filter (fun c => c != 0)).length + left
    { s with ops := mupd s.ops id (fun o => match o.kind with
      | .mcont d lanes m => { o with kind := .mcont d lanes { m with st := .ended (if q.fcount = 0 ∧ bad ≠ 0 then 0xC else q.fstat) (q.fcount + bad) q.satcnt } }
      | _ => o) }
  | _ => s

/-- Take the requests that satisfy `p` out of every channel. -/
def State.cancelReqs (s : State) (p : CopyReq → Bool) : State :=
  let s := s.cores.foldl (fun s e => e.2.chans.foldl (fun s c => (c.2.reqs.filter p).foldl (fun s q => s.cancelReq q) s) s) s
  { s with cores := s.cores.map (fun e => (e.1, { e.2 with chans := e.2.chans.map (fun c =>
      (c.1, { c.2 with reqs := c.2.reqs.filter (fun q => !(p q)) })) })) }

/-- A group of a killed context ends: its handler's messages count as done (R257), its team ends with CANCELLED (R37). -/
def State.killGroup (s : State) (gid : Nat) : State :=
  let s := s.updGrp gid (fun g => g.mapLanes (fun _ x => { x with st := .exited }))
  (s.amCount gid (BitVec.allOnes 32)).groupGone gid 0xC

/-- A launch of a killed context has outcome KILLED (R37); one already rejected keeps its own. It is then completed (R36). -/
def State.killLaunch (s : State) (id : Nat) : State :=
  { s with lqs := s.lqs.map (fun e => (e.1, if e.2.cur = some id then { e.2 with cur := none } else e.2)),
           launches := mupd s.launches id (fun l => { l with outcome := if l.outcome = 0 then 4 else l.outcome }) }

/-- The queues of a killed context are disabled: what waits to be read or dispatched for them is forgotten (R260). -/
def State.killQueues (s : State) (id : Nat) : State :=
  let hs := s.slices.flatMap (fun x => (x.2.qd.filter (fun q => q.2.owner == id && x.1 < 96)).map (fun q => ({ dev := none, slice := x.1, q := q.1 } : Handle)))
  hs.foldl (fun s h => (s.forget (dispatchTag h)).updQd h (fun d => { d with en := false })) s

/-- THE KILL of a context whose gate waits have ended (R20, R37, R260, R353): its operations and chunks are reported, its groups end, and its
launches are marked. -/
def State.performKill (s : State) (id : Nat) : State :=
  let gs := s.groupsFor id
  let mine := fun (gid : Nat) => gs.any (fun e => e.1 == gid)
  let ks := s.gangs.filter (fun e => e.2.ctx == id)
  let s := (s.ops.filter (fun (e : Nat × Op) => mine e.2.gid)).foldl (fun (s : State) e => s.cancelOp e.1 e.2) s
  let s := s.cancelReqs (fun q => match q.who with
    | .op _ | .meet _ _ _ _ => mine q.gid
    | .exit k _ => ks.any (fun e => e.1 == k)
    | .mig => q.ctx == id)
  let s : State := { s with cores := s.cores.map (fun e => (e.1, { e.2 with queue := e.2.queue.filter (fun q => !(ks.any (fun k => k.1 == q.gang))) })) }
  let s := gs.foldl (fun (s : State) e => s.killGroup e.1) s
  -- teams whose exit-fired copy was under way
  let s := ks.foldl (fun (s : State) e => (mapFrom (fun i (t : Team) => (i, t)) 0 e.2.teams).foldl (fun s (t : Nat × Team) =>
    if t.2.copying then s.teamFreed e.1 t.1 0xC else s) s) s
  let s := (s.launches.filter (fun (e : Nat × Launch) => e.2.ctx == id && e.2.told.isNone)).foldl (fun (s : State) e => s.killLaunch e.1) s
  ({ s with savedTiles := s.savedTiles.filter (fun x => (mfind s.gangs x.gang).isSome) }).killQueues id

/-- The context of a kill that is complete exists no more (R353). -/
def State.endCtx (s : State) (id : Nat) : State :=
  { s with ctxs := mupd s.ctxs id (fun c =>
      { c with loaded := false, live := false, killing := false, stopping := false, out := false, eligible := false }) }

/-- Complete the launches of a killed context, as far as their words can be written now (R36, R37). -/
def State.endLaunches (s : State) (id : Nat) : State :=
  (s.launches.filter (fun (e : Nat × Launch) => e.2.ctx == id)).foldl (fun (s : State) e => match execLaunchComplete e.1 s with | .next s => s | _ => s) s

/-- CTX_KILL (R353): the context has been no gate target since its issue; it ends once its gate waits have, and the command completes when its
launches are written. (DEDUCED, log 65) -/
def execCtxKill (port : Nat) (s : State) : Out :=
  hubCtxCmd 0x06 port (fun _ id _ s =>
    let s := { s with ctxs := mupd s.ctxs id (fun c => { c with killing := true, live := false }) }
    let s := s.killFrames id
    if s.killWaits id then s
    else
      let s := (s.performKill id).endLaunches id
      if s.launches.any (fun e => e.2.ctx == id) then s else (s.endCtx id).cmdDone port 0) s

/-! ### GROUP_RELEASE, FAULT_DONE, SYSC_DONE -/

/-- The group of a context that gang·2^8 + team·2^4 + group names, and that satisfies `p`. (DESIGN CHOICE, log 59) -/
def State.groupNamed (s : State) (ctx a : Nat) (p : Group → Bool) : Option (Nat × Group) :=
  s.groups.find? (fun e => !e.2.isSeq && e.2.ctx == ctx && (mget {} s.gangs e.2.gang).idx * 2 ^ 8 + e.2.team * 2 ^ 4 + e.2.grp == a && p e.2)

/-- GROUP_RELEASE (R192, R353, R375): a held group leaves handler mode, its RUN lanes by retry, skip or end. (DEDUCED, log 66) -/
def execGroupRelease (port : Nat) (s : State) : Out :=
  hubCtxCmd 0x07 port (fun c id _ s =>
    match s.groupNamed id (c.arg 1) (fun g => (g.held || g.dbgHeld) && !g.trapq.isEmpty), c.arg 2 with
    | some (gid, _), 0 => (s.updGrp gid (fun g => g.returnTrap .retry)).cmdDone port 0
    | some (gid, _), 1 => (s.updGrp gid (fun g => g.returnTrap .skip)).cmdDone port 0
    | some (gid, g), 2 =>
      let run := match g.trapq with | t :: _ => t.run | [] => 0
      ((s.updGrp gid (fun g => g.returnTrap .exit)).endLanes gid run).cmdDone port 0
    | _, _ => s.cmdDone port 2) s

/-- Lanes of an operand-log entry with outcome `out`: those of its slots, all its lanes where it was issued under UNI. -/
def Group.logLanes (g : Group) (e : Nat) (x : LogEntry) (out : Nat) : Word :=
  let ls := maskOf ((x.lanes.filter (fun l => l.2.out.toNat == out)).map (·.1))
  if x.uni then (if ls = 0 then 0 else g.lanesWhere (fun l => l.st == .parked e)) else ls

/-- An entry declared unresolvable: its lanes trap where they stand, with the word that parked, and it is freed (R188, R215). -/
def State.unresolvable (s : State) (gid e : Nat) (g : Group) (x : LogEntry) : State :=
  let all := g.lanesWhere (fun l => l.st == .parked e)
  let s := s.updGrp gid (fun g => { (g.resume all) with log := mdel g.log e })
  let put := fun (s : State) (p : Nat × Nat) =>
    let m := g.logLanes e x p.1
    let va := match x.lanes.find? (fun l => l.2.out.toNat == p.1) with | some l => l.2.va.signExtend 64 | none => 0
    if m = 0 then s else s.queueTrap gid { (s.lateTrap g p.2 m va) with word0 := x.word0 }
  ([(1, 0x11), (2, 0x0F)].foldl put s).refreshRecord gid

/-- FAULT_DONE (R214, R215, R219, R353): the entry is marked for re-issue, or trapped; in the saved record too where the group is switched
out. -/
def execFaultDone (port : Nat) (s : State) : Out :=
  hubCtxCmd 0x08 port (fun c id _ s =>
    let e := c.arg 2
    match s.groupNamed id (c.arg 1) (fun g => e < 4 && (mfind g.log e).isSome) with
    | none => s.cmdDone port 2
    | some (gid, g) =>
      let x : LogEntry := mget {} g.log e
      match c.arg 3 with
      | 0 =>
        ((s.updGrp gid (fun g => { g with log := mupd g.log e (fun x => { x with lanes := x.lanes.map (fun l => (l.1, { l.2 with res := true })) }) })).refreshRecord gid).cmdDone
          port 0
      | 1 => if g.reissue = some e then s.cmdDone port 2 else (s.unresolvable gid e g x).cmdDone port 0
      | _ => s.cmdDone port 2) s

/-- SYSC_DONE (R339, R357): results and status are written and the group is released; a request already withdrawn completes with
TIMEOUT. -/
def execSyscDone (port : Nat) (s : State) : Out :=
  hubCmd 0x09 port (fun c s =>
    match s.syscGroup (c.arg 0) with
    | some (gid, _) => ((s.syscRelease gid (c.arg 1) (c.arg 2)).refreshRecord gid).cmdDone port 0
    | none => s.cmdDone port 8) s

/-! ### LQ_SET, LQ_RESET, ICACHE_INVAL (R29, R55) -/

/-- Local numbers of queues that a context has, but for queue `q`. -/
def State.numsOf (s : State) (ctx q : Nat) : List Nat := (s.lqs.filter (fun e => e.2.ctx == ctx && e.1 != q)).map (fun e => e.2.num)

/-- LQ_SET: a queue is assigned with the lowest local number free, the one it has where it is the context's already, or unassigned; the
scheduler's count starts at the head word, whose failure stops the queue (R29). A queue whose record has not wholly started waits for that
(R31). -/
def execLqSet (port : Nat) (s : State) : Out :=
  hubCmd 0x0A port (fun c s =>
    let q := c.arg 0
    let ctx := c.arg 1
    let slots := bits (c.arg 3) 0 16
    let old : LQ := mget {} s.lqs q
    if q ≥ 1024 then s.cmdDone port 2
    else if old.cur.isSome then s
    else if ctx = 0 then ({ (s.forget (takeTag q)) with lqs := mdel s.lqs q }).cmdDone port 0
    else
      let num := if old.ctx = ctx then old.num else firstFree (s.numsOf ctx q) 64 0
      if (s.loaded? ctx).isNone ∨ num ≥ 64 ∨ slots < 16 ∨ slots > 4096 ∨ 4096 % slots ≠ 0 then s.cmdDone port 2
      else
        let l : LQ := { ctx := ctx, num := num, ring := BitVec.ofNat 64 (c.arg 2), slots := slots, ceil := bits (c.arg 3) 16 3,
                        headVa := BitVec.ofNat 64 (c.arg 4), tailVa := BitVec.ofNat 64 (c.arg 5) }
        let put (s : State) (l : LQ) : State := { (s.forget (takeTag q)) with lqs := mput s.lqs q l }.forget (cmdTag port)
        match s.svcAccess (cmdTag port) none ctx l.headVa 8 none with
        | (.wait, s) => s
        | (.ok h _, s) => (put s { l with head := h }).cmdDone port 0
        | (.fail o, s) => ((put s l).stopQueue q l l.headVa.toNat o).cmdDone port 0) s

/-- LQ_RESET: a stopped queue restarts with head := the tail then observed (R29). -/
def execLqReset (port : Nat) (s : State) : Out :=
  hubCmd 0x0B port (fun c s =>
    match mfind s.lqs (c.arg 0) with
    | none => s.cmdDone port 2
    | some lq =>
      let stop (s : State) (va : DWord) (o : Nat) : State := ((s.forget (cmdTag port)).stopQueue (c.arg 0) lq va.toNat o).cmdDone port 0
      if !lq.stopped then s.cmdDone port 2
      else match s.svcAccess (cmdTag port) none lq.ctx lq.tailVa 8 none with
        | (.wait, s) => s
        | (.fail o, s) => stop s lq.tailVa o
        | (.ok tail _, s) =>
          match s.svcAccess (cmdTag port) none lq.ctx lq.headVa 8 (some tail) with
          | (.wait, s) => s
          | (.fail o, s) => stop s lq.headVa o
          | (.ok _ _, s) =>
            ({ (s.forget (cmdTag port)) with lqs := mupd s.lqs (c.arg 0) (fun l => { l with head := tail, stopped := false }) }).cmdDone port 0) s

/-- ICACHE_INVAL: the clusters that run a gang of the context drop the range's blocks (R55). -/
def execIcacheInval (port : Nat) (s : State) : Out :=
  hubCtxCmd 0x0C port (fun c id _ s =>
    let runs := fun (cl : Nat) => s.gangs.any (fun k => k.2.ctx == id && k.2.cluster == cl)
    ({ s with icache := s.icache.filter (fun e => !(e.ctx == id && runs e.cluster && rangesMeet e.va 64 (c.arg 1) (c.arg 2))) }).cmdDone
      port 0) s

/-- UNKNOWN_COMMAND: a code not listed completes at once with ACCESS_DENIED. -/
def execUnknownCommand (port : Nat) (s : State) : Out :=
  .next (match (s.port port).queue with
    | c :: _ => if c.code = 0 ∨ c.code > 0x0C then s.cmdDone port 2 else s
    | [] => s)

/-! ### The directory window (R226, R352) -/

/-- The directory entry that shows at an index of a slice. -/
def State.dirAt (s : State) (slice index : Nat) : Option (Nat × Dir) :=
  let slot := ((Config.dirIndex slice).symm (Fin.ofNat 32768 index)).val
  s.dir.find? (fun e => s.regionSlice e.1 == slice && e.2.slot == slot)

/-- Slots of 10 bits, the first lowest. -/
def slots10 : List Nat → Nat
  | [] => 0
  | a :: as => a % 1024 + 1024 * slots10 as

/-- The 256 bits of an entry (Table 14-2); slots without an agent read zero. -/
def Dir.word (d : Dir) (region : Nat) : Nat :=
  b2n d.gb * 2 ^ 238 + d.rag % 1024 * 2 ^ 228 + b2n d.wsp * 2 ^ 227 + region % 2 ^ 42 * 2 ^ 185 + d.label.code * 2 ^ 181 + b2n d.asrt * 2 ^ 180
  + b2n d.lock * 2 ^ 179 + d.owner % 1024 * 2 ^ 169 + d.seq.toNat * 2 ^ 161 + slots10 (d.rdr.take 8) * 2 ^ 81 + b2n d.rovf * 2 ^ 80
  + slots10 (d.wrt.take 2) * 2 ^ 60 + b2n d.wovf * 2 ^ 59 + d.run % 128 * 2 ^ 52 + b2n d.short * 2 ^ 50 + min 2 d.atoms.length * 2 ^ 48
  + d.wcnt % 128 * 2 ^ 41 + b2n d.wst * 2 ^ 40 + d.consCount * 2 ^ 32 + d.vbnd % 2 ^ 32

/-- A write of SL_DIRIDX selects an entry and clears the latch. -/
def State.writeDirIdx (s : State) (slice v : Nat) : State :=
  s.updSlice slice (fun x => { x with diridx := v % 32768, latch := none })

/-- A write of SL_DIRPA looks up a region: INDEX is its entry, or MISS is set; the latch is cleared. -/
def State.writeDirPa (s : State) (slice v : Nat) : State :=
  let pa := bits v 10 42 * 2 ^ 10
  let region := pa / 1024
  match (if s.regionSlice region = slice then mfind s.dir region else none) with
  | some d => s.updSlice slice (fun x =>
      { x with dirpa := pa, dirmiss := false, latch := none, diridx := (Config.dirIndex slice (Fin.ofNat 32768 d.slot)).val })
  | none => s.updSlice slice (fun x => { x with dirpa := pa, dirmiss := true, latch := none })

/-- SL_DIRPA_WRITE (R352). -/
def execSlDirpaWrite (slice value : Nat) (s : State) : Out := .next (if slice < 96 then s.writeDirPa slice value else s)

/-- SL_DIRIDX_WRITE (R352). -/
def execSlDiridxWrite (slice value : Nat) (s : State) : Out := .next (if slice < 96 then s.writeDirIdx slice value else s)

/-- SL_DIRENT0_READ (R352): the whole selected entry is latched; an entry not in use latches zeros. -/
def execSlDirent0Read (slice : Nat) (s : State) : Out :=
  .next (
    if slice < 96 then
      let w := match s.dirAt slice (s.slice slice).diridx with | some e => e.2.word e.1 | none => 0
      s.updSlice slice (fun x => { x with latch := some w })
    else s)

/-! ### Register writes (R231, R247, R248, R349–R351, R373) -/

/-- A refused hub-window access is counted (R349). -/
def State.refuseReg (s : State) : State :=
  { s with hub := { s.hub with errcnt := satInc s.hub.errcnt } }

/-- A refused write of a slice register goes to the device error record (R231). -/
def State.deviceErr (s : State) (off v : Nat) : State := { s with hub := { s.hub with devErrs := s.hub.devErrs ++ [(off, v)] } }

/-- Hub global registers (Table 23-2); HUB_MODE, HUB_SVC and reserved words take no write. A context table outside device HBM is refused.
(DEDUCED, log 68) -/
def State.writeGlobal (s : State) (r v : Nat) : State :=
  let h := s.hub
  let base := bits v 12 40 * 2 ^ 12
  if r = 0x00 then (if base < Config.hbmEnd then { s with hub := { h with ctxtab := base } } else s.refuseReg)
  else if r = 0x08 then { s with hub := { h with dirtyBase := base, dirtyEn := bitAt v 0 } }
  else if r = 0x10 then { s with hub := { h with hlt := base } }
  else if r = 0x18 then { s with hub := { h with hltsz := v % 2 ^ 36 } }
  else if r = 0x30 then { s with hub := { h with errcnt := BitVec.ofNat 32 v } }
  else s

/-- Command port registers (R353): HC_OP issues a command with the arguments as they stand; a seventeenth waits for a slot. -/
def State.writePort (s : State) (p r v : Nat) : State :=
  if r < 0x30 then s.updPort p (fun x => { x with args := mput x.args (r / 8) v })
  else if r = 0x30 then
    let x := s.port p
    let c : Command := { code := v % 256, tag := bits v 8 24, args := (List.range 6).map (fun i => mget 0 x.args i) }
    if x.queue.length ≥ 16 then s.updPort p (fun x => { x with held := x.held ++ [c] }) else s.issueCmd p c
  else s

/-- Ring registers (Table 23-14): NR_BASE, which lies in device HBM, and LOG2ENT change only while EN = 0; entries held for the ring
follow. -/
def State.writeRing (s : State) (k r v : Nat) : State :=
  let x : Ring := mget {} s.hub.rings k
  let put (x : Ring) : State :=
    let s := { s with hub := { s.hub with rings := mput s.hub.rings k x } }
    s.flushRing k s.hub.heldNotes
  if r = 0x00 then
    let base := bits v 12 40 * 2 ^ 12
    (if x.en || decide (base ≥ Config.hbmEnd) then s.refuseReg else put { x with base := base })
  else if r = 0x08 then
    let n := v % 32
    if (if x.en then n != x.log2 else decide (n < 6 ∨ n > 16)) then s.refuseReg else put { x with en := bitAt v 63, log2 := n }
  else if r = 0x10 then put { x with head := v }
  else s

/-- A queue descriptor's ring obeys its limits. -/
def QDesc.ringOk (d : QDesc) : Bool := canonical d.ring && d.ring.toNat % (d.size * d.cap) == 0

/-- Queue descriptor registers (Table 15-3): fields change only while EN = 0; with EN set a write of the first word clears STALL
and EN. -/
def State.writeQd (s : State) (k q r off v : Nat) : State :=
  let d : QDesc := mget {} (s.slice k).qd q
  let put (d : QDesc) : State := s.updSlice k (fun x => { x with qd := mput x.qd q d })
  let bad := s.deviceErr off v
  if r = 0x00 then
    let stall := d.stall && !bitAt v 8
    if d.en then
      let s := put { d with stall := stall, en := bitAt v 0 }
      -- a queue that is disabled reads and dispatches nothing more
      if bitAt v 0 then s else s.forget (dispatchTag { dev := none, slice := k, q := q })
    else
      let d := { d with stall := stall, logcap := bits v 4 4, open_ := bitAt v 2, am := bitAt v 1, en := bitAt v 0, owner := bits v 32 32 }
      if d.logcap ≥ 13 ∨ (d.en && !d.ringOk) then bad else put d
  else if d.en then s
  else if r = 0x08 then (if canonical (BitVec.ofNat 64 v) then put { d with ring := BitVec.ofNat 64 v } else bad)
  else if r = 0x10 then (if v % 8 = 0 then put { d with wake := BitVec.ofNat 64 v } else bad)
  else if r = 0x18 then (if v % 64 = 0 then put { d with htab := BitVec.ofNat 64 v } else bad)
  else if r = 0x20 then
    let d := { d with maxg := bits v 8 5, cluster := bits v 2 6, core := v % 4 }
    if 1 ≤ d.maxg ∧ d.maxg ≤ 16 ∧ d.cluster < 48 then put d else bad
  else s

/-- A slice's register space (Tables 14-4, 15-2, 15-3, 23-16). -/
def State.writeSlice (s : State) (k r off v : Nat) : State :=
  let put (ok : Bool) (f : Slice → Slice) : State := if ok then s.updSlice k f else s.deviceErr off v
  let w := BitVec.ofNat 32 v
  if r = 0x000 then let n := v % 2 ^ 15; put (256 ≤ n && n ≤ 16384) (fun x => { x with lease := n })
  else if r = 0x008 then let n := v % 2 ^ 7; put (8 ≤ n && n ≤ 64) (fun x => { x with win := n })
  else if r = 0x010 then put true (fun x => { x with amiss := w })
  else if r = 0x018 then put true (fun x => { x with lbrk := w })
  else if r = 0x020 then let n := v % 2 ^ 16; put (16 ≤ n) (fun x => { x with migth := n })
  else if r = 0x108 then let n := bits v 16 48 * 2 ^ 16; put (decide (n < Config.hbmEnd)) (fun x => { x with ovfbase := n })
  else if r = 0x110 then
    let n := v % 2 ^ 17
    put (n == 0 || (decide (1024 ≤ n) && 65536 % n == 0)) (fun x => { x with ovfsize := n })
  else if r = 0x118 then put true (fun x => { x with ovfhold := w })
  else if r = 0x8000 then s.writeDirIdx k v
  else if r = 0x8008 then s.writeDirPa k v
  else if 0x1000 ≤ r ∧ r < 0x5000 then s.writeQd k ((r - 0x1000) / 0x40) (r % 0x40) off v
  else s

/-- A core's debug registers (Table 24-1). -/
def State.writeDbg (s : State) (k r v : Nat) : State :=
  let put (f : Dbg → Dbg) : State := s.updDbg k f
  let w := BitVec.ofNat 64 v
  if r = 0x000 then put (fun d => { d with nq := bits v 32 8, claim := v % 2 ^ 32 })
  else if 0x008 ≤ r ∧ r < 0x028 then put (fun d => { d with bp := setAt (fun _ => w) ((r - 8) / 8) d.bp })
  else if r = 0x028 then put (fun d => { d with bpctl := v &&& 0x1111 })
  else if 0x030 ≤ r ∧ r < 0x070 then
    (if r % 16 = 0 then put (fun d => { d with wplo := setAt (fun _ => w) ((r - 0x30) / 16) d.wplo })
     else put (fun d => { d with wphi := setAt (fun _ => w) ((r - 0x30) / 16) d.wphi }))
  else if r = 0x070 then put (fun d => { d with wpctl := v &&& 0x3F3F3F3F })
  else if r = 0x078 then put (fun d => { d with trctl := bits v 61 3 * 2 ^ 61 + v % 2 ^ 32, sel := none })
  else if r = 0x080 then s.writeTrsel k v
  else if r = 0x090 then put (fun d => { d with trbase := bits v 12 52 * 2 ^ 12 })
  else if r = 0x098 then (let n := v % 2 ^ 17; if 1 ≤ n ∧ n ≤ 65536 then put (fun d => { d with trsize := n }) else s.refuseReg)
  else if r = 0x0A0 then put (fun d => { d with trhead := v })
  else s

/-- The queue that a binding word names exists (Table 23-15). -/
def validQueue (n : Nat) : Bool := n < 1664

/-- A write of one naturally aligned word at an offset of the hub window. (DEDUCED, log 68) -/
def State.writeWord (s : State) (off v : Nat) : State :=
  if off < 0x1000 then s.writeGlobal off v
  else if off < 0x1800 then s.writePort ((off - 0x1000) / 0x100) (off % 0x100) v
  else if 0x2000 ≤ off ∧ off < 0x4000 then s.writeRing ((off - 0x2000) / 0x20) (off % 0x20) v
  else if 0x1000000 ≤ off ∧ off < 0x1600000 then s.writeSlice ((off - 0x1000000) / 0x10000) (off % 0x10000) off v
  else if 0x2000000 ≤ off ∧ off < 0x3000000 then
    let n := (off - 0x2000000) / 8
    if validQueue n then { s with hub := { s.hub with binds := mset 0 s.hub.binds n (bits v 63 1 * 2 ^ 63 + v % 64) } } else s
  else if 0x3000000 ≤ off ∧ off < 0x3010000 then
    let i := (off - 0x3000000) / 8
    if i < 4096 then { s with dbgNames := mset 0 s.dbgNames i v } else s
  else if 0x3010000 ≤ off ∧ off < 0x3028000 then s.writeDbg ((off - 0x3010000) / 0x200) (off % 0x200) v
  else if 0x4000000 ≤ off ∧ off < 0x4C00000 then
    s.updCore ((off - 0x4000000) / 0x10000) (fun c => { c with svc := msets byteZero c.svc (off % 0x10000) (leBytes 8 v) })
  else s.refuseReg

/-- HUB_REGISTER_WRITE (R349–R351): any access but a naturally aligned one of 8 bytes in a range is discarded and counted. -/
def execHubRegisterWrite (off bytes value : Nat) (s : State) : Out :=
  .next (if bytes = 8 ∧ off % 8 = 0 then s.writeWord off (value % 2 ^ 64) else s.refuseReg)

/-! ### Register reads (R226, R247, R248, R349–R352, R373) -/

/-- HC_STAT (R353): BUSY while a command of the port is queued, then the TAG and status of the one that completed last. -/
def Port.stat (p : Port) : Nat := b2n (!p.queue.isEmpty) * 2 ^ 63 + p.tag * 2 ^ 32 + p.code

/-- Words of a queue descriptor (Table 15-3). -/
def QDesc.word (d : QDesc) (r : Nat) : Nat :=
  if r = 0x00 then b2n d.stall * 2 ^ 8 + d.logcap * 2 ^ 4 + b2n d.open_ * 4 + b2n d.am * 2 + b2n d.en + d.owner * 2 ^ 32
  else if r = 0x08 then d.ring.toNat
  else if r = 0x10 then d.wake.toNat
  else if r = 0x18 then d.htab.toNat
  else if r = 0x20 then d.maxg * 2 ^ 8 + d.cluster * 2 ^ 2 + d.core
  else if r = 0x28 then d.head
  else if r = 0x30 then d.tail
  else if r = 0x38 then d.done
  else 0

/-- A slice's registers; reserved words read zero. -/
def State.sliceWord (s : State) (k r : Nat) : Nat :=
  let x := s.slice k
  if r = 0x000 then x.lease
  else if r = 0x008 then x.win
  else if r = 0x010 then x.amiss.toNat
  else if r = 0x018 then x.lbrk.toNat
  else if r = 0x020 then x.migth
  else if r = 0x100 then s.replayOcc k
  else if r = 0x108 then x.ovfbase
  else if r = 0x110 then x.ovfsize
  else if r = 0x118 then x.ovfhold.toNat
  else if r = 0x8000 then x.diridx
  else if r = 0x8008 then x.dirpa + b2n x.dirmiss * 2 ^ 63
  else if r = 0x8010 then b2n (s.dirAt k x.diridx).isSome
  else if 0x8020 ≤ r ∧ r < 0x8040 then bits (x.latch.getD 0) (8 * (r - 0x8020)) 64
  else if 0x1000 ≤ r ∧ r < 0x5000 then (mget ({} : QDesc) x.qd ((r - 0x1000) / 0x40)).word (r % 0x40)
  else 0

/-- Hub global registers. -/
def Hub.word (h : Hub) (r : Nat) : Nat :=
  if r = 0x00 then h.ctxtab
  else if r = 0x08 then h.dirtyBase + b2n h.dirtyEn
  else if r = 0x10 then h.hlt
  else if r = 0x18 then h.hltsz
  else if r = 0x20 then h.mode
  else if r = 0x28 then h.svc
  else if r = 0x30 then h.errcnt.toNat
  else 0

/-- A ring's registers: NR_TAIL counts the entries written whole (R355). -/
def State.ringWord (s : State) (k r : Nat) : Nat :=
  let x : Ring := mget {} s.hub.rings k
  if r = 0x00 then x.base
  else if r = 0x08 then b2n x.en * 2 ^ 63 + x.log2
  else if r = 0x10 then x.head
  else s.ringTail k

/-- A command port's registers; HC_OP, which a write issues, reads zero. (DEDUCED, log 68) -/
def Port.word (p : Port) (r : Nat) : Nat :=
  if r < 0x30 then mget 0 p.args (r / 8) else if r = 0x38 then p.stat else 0

/-- A core's debug registers (Table 24-1). -/
def Dbg.word (d : Dbg) (r : Nat) : Nat :=
  if r = 0x000 then d.nq * 2 ^ 32 + d.claim
  else if 0x008 ≤ r ∧ r < 0x028 then (d.bp.getD ((r - 8) / 8) 0).toNat
  else if r = 0x028 then d.bpctl
  else if 0x030 ≤ r ∧ r < 0x070 then ((if r % 16 = 0 then d.wplo else d.wphi).getD ((r - 0x30) / 16) 0).toNat
  else if r = 0x070 then d.wpctl
  else if r = 0x078 then d.trctl
  else if r = 0x080 then d.trsel
  else if r = 0x090 then d.trbase
  else if r = 0x098 then d.trsize
  else if r = 0x0A0 then d.trhead
  else if r = 0x0A8 then d.trtail
  else if r = 0x0B0 then d.trdrop
  else 0

/-- The word at an offset of the hub window, if it lies in a range of Table 23-1. -/
def State.windowWord (s : State) (off : Nat) : Option Nat :=
  if off < 0x1000 then some (s.hub.word off)
  else if off < 0x1800 then some ((s.port ((off - 0x1000) / 0x100)).word (off % 0x100))
  else if 0x2000 ≤ off ∧ off < 0x4000 then some (s.ringWord ((off - 0x2000) / 0x20) (off % 0x20))
  else if 0x1000000 ≤ off ∧ off < 0x1600000 then some (s.sliceWord ((off - 0x1000000) / 0x10000) (off % 0x10000))
  else if 0x2000000 ≤ off ∧ off < 0x3000000 then some (mget 0 s.hub.binds ((off - 0x2000000) / 8))
  else if 0x3000000 ≤ off ∧ off < 0x3010000 then some (mget 0 s.dbgNames ((off - 0x3000000) / 8))
  else if 0x3010000 ≤ off ∧ off < 0x3028000 then some ((s.core ((off - 0x3010000) / 0x200)).dbg.word (off % 0x200))
  else if 0x4000000 ≤ off ∧ off < 0x4C00000 then some (leNat ((List.range 8).map (fun i => s.hubByte (hubBase + off + i))))
  else none

/-- A read of the hub window (R349): any access but a naturally aligned one of 8 bytes in a range returns all ones and is counted. A read of
SL_DIRENT0 latches the whole entry (R352). -/
def State.readWindow (s : State) (off bytes : Nat) : Nat × State :=
  if bytes = 8 ∧ off % 8 = 0 then
    let s := if 0x1000000 ≤ off ∧ off < 0x1600000 ∧ off % 0x10000 = 0x8020 then
        match execSlDirent0Read ((off - 0x1000000) / 0x10000) s with | .next t => t | _ => s
      else s
    match s.windowWord off with
    | some v => (v, s)
    | none => (2 ^ 64 - 1, s.refuseReg)
  else (2 ^ (8 * bytes) - 1, s.refuseReg)

end Sys2Proof.Machine
end

