-- ==== Sys2Proof/Machine/IntAlu.lean ====
section
/-! DEFINITION. Machine/IntAlu.lean: the meanings of NOP, the integer and address instructions, MOVI and MOV (R113,
R140, R147–R156). -/

namespace Sys2Proof.Machine

/-- Operand `o` read by integer type `ty` (R144). -/
def Group.int (g : Group) (ty : Ty) (o : Opnd) (l : Nat) : Int := intVal ty (g.opnd o ty.regs l)
/-- A 32-bit operand, read unsigned. -/
def Group.u32 (g : Group) (o : Opnd) (l : Nat) : Nat := g.opnd o 1 l
/-- A bit operand of the width of `ty`. -/
def Group.raw (g : Group) (ty : Ty) (o : Opnd) (l : Nat) : Nat := g.opnd o ty.regs l

/-- NOP changes no state except the PCs of its run (R113). -/
def execNop (h : Hdr) (s : State) : Out := laneInstr (.nop h) false s (fun x s => x.done s id)

/-- IADD (R148). -/
def execIadd (h : Hdr) (ty : Ty) (sat z : Bool) (d a b : Opnd) (s : State) : Out :=
  laneInstr (.iadd h ty sat z d a b) true s (alu d ty.regs z (fun g l => putInt ty sat (g.int ty a l + g.int ty b l)))

/-- ISUB (R148). -/
def execIsub (h : Hdr) (ty : Ty) (sat z : Bool) (d a b : Opnd) (s : State) : Out :=
  laneInstr (.isub h ty sat z d a b) true s (alu d ty.regs z (fun g l => putInt ty sat (g.int ty a l - g.int ty b l)))

/-- IADD3 (R148). -/
def execIadd3 (h : Hdr) (ty : Ty) (sat z : Bool) (d a b c : Opnd) (s : State) : Out :=
  laneInstr (.iadd3 h ty sat z d a b c) true s
    (alu d ty.regs z (fun g l => putInt ty sat (g.int ty a l + g.int ty b l + g.int ty c l)))

/-- The carry-in of IADDC: predicate `cin`, or 0 for 15 (R149). -/
def carryIn (x : Issue) (cin l : Nat) : Nat := if cin = 15 then 0 else b2n (x.predBit cin l)

/-- IADDC (R149): the carry-in is read before the carry-out is written. -/
def execIaddc (h : Hdr) (ty : Ty) (z : Bool) (d a b : Opnd) (cin cout : Nat) (s : State) : Out :=
  laneInstr (.iaddc h ty z d a b cin cout) true s (fun x s =>
    let sum := fun l => x.g.u32 a l + x.g.u32 b l + carryIn x cin l
    x.done s (fun g =>
      let g := g.writeD x d 1 z (fun l => sum l % 2 ^ 32)
      if cout = 15 then g else g.writeP x cout (fun l => decide (sum l ≥ 2 ^ 32))))

/-- IMUL (R148): the low half. -/
def execImul (h : Hdr) (ty : Ty) (z : Bool) (d a b : Opnd) (s : State) : Out :=
  laneInstr (.imul h ty z d a b) true s
    (alu0 d ty.regs z (fun g l => wrap ty.width (g.int ty a l * g.int ty b l)))

/-- IMULH (R148): the high half of the exact product. -/
def execImulh (h : Hdr) (ty : Ty) (z : Bool) (d a b : Opnd) (s : State) : Out :=
  laneInstr (.imulh h ty z d a b) true s
    (alu0 d ty.regs z (fun g l => wrap ty.width (g.int ty a l * g.int ty b l / ((2 ^ ty.width : Nat) : Int))))

/-- IMAD (R148). -/
def execImad (h : Hdr) (ty : Ty) (sat z : Bool) (d a b c : Opnd) (s : State) : Out :=
  laneInstr (.imad h ty sat z d a b c) true s
    (alu d ty.regs z (fun g l => putInt ty sat (g.int ty a l * g.int ty b l + g.int ty c l)))

/-- IMADW (R148): 32-bit factors, a 64-bit addend and result. -/
def execImadw (h : Hdr) (ty : Ty) (z : Bool) (d a b c : Opnd) (s : State) : Out :=
  laneInstr (.imadw h ty z d a b c) true s
    (alu0 d 2 z (fun g l => wrap 64 (intVal ty (g.opnd a 1 l) * intVal ty (g.opnd b 1 l) + (g.opnd c 2 l : Int))))

/-- Quotient truncated toward zero, with the corners of Table 5-7. -/
def divInt (ty : Ty) (a b : Int) : Nat := if b = 0 then wrap ty.width (-1) else wrap ty.width (Int.tdiv a b)
/-- Remainder with the sign of the dividend, with the corners of Table 5-7. -/
def remInt (ty : Ty) (a b : Int) : Nat := if b = 0 then wrap ty.width a else wrap ty.width (Int.tmod a b)

/-- IDIV (R94, R150). -/
def execIdiv (h : Hdr) (ty : Ty) (z : Bool) (d a b : Opnd) (s : State) : Out :=
  laneInstr (.idiv h ty z d a b) true s (alu0 d ty.regs z (fun g l => divInt ty (g.int ty a l) (g.int ty b l)))

/-- IREM (R94, R150). -/
def execIrem (h : Hdr) (ty : Ty) (z : Bool) (d a b : Opnd) (s : State) : Out :=
  laneInstr (.irem h ty z d a b) true s (alu0 d ty.regs z (fun g l => remInt ty (g.int ty a l) (g.int ty b l)))

/-- IMIN (R150). -/
def execImin (h : Hdr) (ty : Ty) (z : Bool) (d a b : Opnd) (s : State) : Out :=
  laneInstr (.imin h ty z d a b) true s
    (alu0 d ty.regs z (fun g l => wrap ty.width (min (g.int ty a l) (g.int ty b l))))

/-- IMAX (R150). -/
def execImax (h : Hdr) (ty : Ty) (z : Bool) (d a b : Opnd) (s : State) : Out :=
  laneInstr (.imax h ty z d a b) true s
    (alu0 d ty.regs z (fun g l => wrap ty.width (max (g.int ty a l) (g.int ty b l))))

/-- IABS (R150): INT_MIN stays, or clamps under `.sat`. -/
def execIabs (h : Hdr) (ty : Ty) (sat z : Bool) (d a : Opnd) (s : State) : Out :=
  laneInstr (.iabs h ty sat z d a) true s (alu d ty.regs z (fun g l => putInt ty sat ((g.int ty a l).natAbs : Int)))

/-- INEG (R150). -/
def execIneg (h : Hdr) (ty : Ty) (sat z : Bool) (d a : Opnd) (s : State) : Out :=
  laneInstr (.ineg h ty sat z d a) true s (alu d ty.regs z (fun g l => putInt ty sat (-(g.int ty a l))))

/-- ISAD (R150): the exact absolute difference plus C. -/
def execIsad (h : Hdr) (ty : Ty) (z : Bool) (d a b c : Opnd) (s : State) : Out :=
  laneInstr (.isad h ty z d a b c) true s
    (alu0 d 1 z (fun g l => ((g.int ty a l - g.int ty b l).natAbs + g.u32 c l) % 2 ^ 32))

/-- AND (R151). -/
def execAnd (h : Hdr) (ty : Ty) (z : Bool) (d a b : Opnd) (s : State) : Out :=
  laneInstr (.andB h ty z d a b) true s (alu0 d ty.regs z (fun g l => g.raw ty a l &&& g.raw ty b l))

/-- OR (R151). -/
def execOr (h : Hdr) (ty : Ty) (z : Bool) (d a b : Opnd) (s : State) : Out :=
  laneInstr (.orB h ty z d a b) true s (alu0 d ty.regs z (fun g l => g.raw ty a l ||| g.raw ty b l))

/-- XOR (R151). -/
def execXor (h : Hdr) (ty : Ty) (z : Bool) (d a b : Opnd) (s : State) : Out :=
  laneInstr (.xorB h ty z d a b) true s (alu0 d ty.regs z (fun g l => g.raw ty a l ^^^ g.raw ty b l))

/-- The complement of `w` bits. -/
def compl (w x : Nat) : Nat := 2 ^ w - 1 - x % 2 ^ w

/-- NOT (R151). -/
def execNot (h : Hdr) (ty : Ty) (z : Bool) (d a : Opnd) (s : State) : Out :=
  laneInstr (.notB h ty z d a) true s (alu0 d ty.regs z (fun g l => compl ty.width (g.raw ty a l)))

/-- The LOGT function of `w` bits: bit `n` is bit `A[n] + 2·B[n] + 4·C[n]` of the truth table (R151). -/
def logtBits (tt a b c : Nat) : Nat → Nat
  | 0 => 0
  | w + 1 => b2n (bitAt tt (b2n (bitAt a 0) + 2 * b2n (bitAt b 0) + 4 * b2n (bitAt c 0)))
      + 2 * logtBits tt (a / 2) (b / 2) (c / 2) w

/-- LOGT (R151). -/
def execLogt (h : Hdr) (ty : Ty) (z : Bool) (d a b c : Opnd) (tt : Nat) (s : State) : Out :=
  laneInstr (.logt h ty z d a b c tt) true s
    (alu0 d ty.regs z (fun g l => logtBits tt (g.raw ty a l) (g.raw ty b l) (g.raw ty c l) ty.width))

/-- SHL (Table 10-2). -/
def shlBits (w a n : Nat) : Nat := if n ≥ w then 0 else a * 2 ^ n % 2 ^ w
/-- SHR (Table 10-2): arithmetic for the signed types. -/
def shrBits (ty : Ty) (a n : Nat) : Nat :=
  if ty.signed then wrap ty.width (intVal ty a / ((2 ^ min n (ty.width - 1) : Nat) : Int))
  else if n ≥ ty.width then 0 else a / 2 ^ n
/-- ROT (Table 10-2). -/
def rotBits (w a n : Nat) : Nat := let k := n % w; a * 2 ^ k % 2 ^ w + a / 2 ^ (w - k)
/-- CATSH (Table 10-2). -/
def catshBits (a b c : Nat) : Nat :=
  let n := c % 64
  let x := a * 2 ^ 32 + b
  if n ≤ 32 then x / 2 ^ n % 2 ^ 32 else rotBits 64 x (64 - n) % 2 ^ 32

/-- SHL (R152). -/
def execShl (h : Hdr) (ty : Ty) (z : Bool) (d a b : Opnd) (s : State) : Out :=
  laneInstr (.shl h ty z d a b) true s (alu0 d ty.regs z (fun g l => shlBits ty.width (g.raw ty a l) (g.u32 b l)))

/-- SHR (R152). -/
def execShr (h : Hdr) (ty : Ty) (z : Bool) (d a b : Opnd) (s : State) : Out :=
  laneInstr (.shr h ty z d a b) true s (alu0 d ty.regs z (fun g l => shrBits ty (g.raw ty a l) (g.u32 b l)))

/-- ROT (R152). -/
def execRot (h : Hdr) (ty : Ty) (z : Bool) (d a b : Opnd) (s : State) : Out :=
  laneInstr (.rot h ty z d a b) true s (alu0 d ty.regs z (fun g l => rotBits ty.width (g.raw ty a l) (g.u32 b l)))

/-- CATSH (R152). -/
def execCatsh (h : Hdr) (z : Bool) (d a b c : Opnd) (s : State) : Out :=
  laneInstr (.catsh h z d a b c) true s (alu0 d 1 z (fun g l => catshBits (g.u32 a l) (g.u32 b l) (g.u32 c l)))

/-- BFX (R153). -/
def bfxBits (sgn : Bool) (a ctl : Nat) : Nat :=
  let pos := ctl % 256
  let len := min (ctl / 256 % 256) 32
  if len = 0 then 0
  else if sgn then
    let f := wrap len (toSigned 32 a / ((2 ^ pos : Nat) : Int))
    wrap 32 (toSigned len f)
  else a / 2 ^ pos % 2 ^ len

/-- BFI (R153). -/
def bfiBits (a ctl c : Nat) : Nat :=
  let pos := ctl % 256
  let len := min (ctl / 256 % 256) 32
  if pos ≥ 32 || len = 0 then c
  else
    let top := min (pos + len) 32
    c % 2 ^ pos + 2 ^ pos * (a % 2 ^ (top - pos)) + 2 ^ top * (c / 2 ^ top)

/-- BFX (R153). -/
def execBfx (h : Hdr) (ty : Ty) (z : Bool) (d a b : Opnd) (s : State) : Out :=
  laneInstr (.bfx h ty z d a b) true s (alu0 d 1 z (fun g l => bfxBits ty.signed (g.u32 a l) (g.u32 b l)))

/-- BFI (R153). -/
def execBfi (h : Hdr) (z : Bool) (d a b c : Opnd) (s : State) : Out :=
  laneInstr (.bfi h z d a b c) true s (alu0 d 1 z (fun g l => bfiBits (g.u32 a l) (g.u32 b l) (g.u32 c l)))

/-- How many of the low `w` bits are one. -/
def popBits : Nat → Nat → Nat
  | 0, _ => 0
  | w + 1, x => x % 2 + popBits w (x / 2)
/-- The low `w` bits reversed. -/
def revBits : Nat → Nat → Nat
  | 0, _ => 0
  | w + 1, x => (x % 2) * 2 ^ w + revBits w (x / 2)
/-- Zero bits above the highest one of a `w`-bit number. -/
def clzBits (w x : Nat) : Nat := if x = 0 then w else w - 1 - Nat.log2 x
/-- Index of the lowest one bit, counted from `i`; all ones when there is none. -/
def ffsBits : Nat → Nat → Nat → Nat
  | 0, _, _ => 0xFFFFFFFF
  | w + 1, i, x => if x % 2 = 1 then i else ffsBits w (i + 1) (x / 2)

/-- POPC (R154). -/
def execPopc (h : Hdr) (ty : Ty) (z : Bool) (d a : Opnd) (s : State) : Out :=
  laneInstr (.popc h ty z d a) true s (alu0 d 1 z (fun g l => popBits ty.width (g.raw ty a l)))

/-- CLZ (R154). -/
def execClz (h : Hdr) (ty : Ty) (z : Bool) (d a : Opnd) (s : State) : Out :=
  laneInstr (.clz h ty z d a) true s (alu0 d 1 z (fun g l => clzBits ty.width (g.raw ty a l)))

/-- BREV (R154). -/
def execBrev (h : Hdr) (ty : Ty) (z : Bool) (d a : Opnd) (s : State) : Out :=
  laneInstr (.brev h ty z d a) true s (alu0 d ty.regs z (fun g l => revBits ty.width (g.raw ty a l)))

/-- FFS (R154). -/
def execFfs (h : Hdr) (ty : Ty) (z : Bool) (d a : Opnd) (s : State) : Out :=
  laneInstr (.ffs h ty z d a) true s (alu0 d 1 z (fun g l => ffsBits ty.width 0 (g.raw ty a l)))

/-- The condition of an integer compare (R126, R155). -/
def icond (cc : Cmp) (a b : Int) : Bool :=
  match cc with
  | .eq => decide (a = b) | .ne => decide (a ≠ b) | .lt => decide (a < b)
  | .le => decide (a ≤ b) | .gt => decide (b < a) | .ge => decide (b ≤ a)
  | .num => true | .nan => false

/-- ICMP (R155). -/
def execIcmp (h : Hdr) (cc : Cmp) (ty : Ty) (pd : Nat) (a b : Opnd) (s : State) : Out :=
  laneInstr (.icmp h cc ty pd a b) true s (cmpOp pd (fun g l => (icond cc (g.int ty a l) (g.int ty b l), 0)))

/-- ISEL (R155). -/
def execIsel (h : Hdr) (ty : Ty) (z : Bool) (d a b : Opnd) (pc : Nat) (s : State) : Out :=
  laneInstr (.isel h ty z d a b pc) true s (fun x s =>
    alu0 d ty.regs z (fun g l => if x.predBit pc l then g.raw ty a l else g.raw ty b l) x s)

/-- LEA (R156): A and D of the type's width, B a single register extended by its signedness. -/
def execLea (h : Hdr) (ty : Ty) (z : Bool) (d a b : Opnd) (sh : Nat) (s : State) : Out :=
  laneInstr (.lea h ty z d a b sh) true s
    (alu0 d ty.regs z (fun g l =>
      let off : Int := if ty.signed then toSigned 32 (g.u32 b l) else (g.u32 b l : Int)
      wrap ty.width ((g.raw ty a l : Int) + off * ((2 ^ sh : Nat) : Int))))

/-- MOVI (R140). -/
def execMovi (h : Hdr) (d : Opnd) (imm : BitVec 32) (s : State) : Out :=
  laneInstr (.movi h d imm) true s (alu0 d 1 false (fun _ _ => imm.toNat))

/-- MOV (R140). -/
def execMov (h : Hdr) (ty : Ty) (z : Bool) (d a : Opnd) (s : State) : Out :=
  laneInstr (.mov h ty z d a) true s (alu0 d ty.regs z (fun g l => g.raw ty a l))

end Sys2Proof.Machine
end

