-- ==== Sys2Proof/Machine/System.lean ====
section
/-! DEFINITION. Machine/System.lean: bring-up, resets, the host link, the fabric, storage, Ethernet, attestation, clocks, and the
system cores' fence (R3, R4, R347, R358–R369). -/

namespace Sys2Proof.Machine

/-! ### Resets (R3, R4, R358, R370) -/

/-- Engines, slices and launch queues in their reset state, the cores with their debug units among them, and device memory not preserved: it
reads as memory that nothing has written (R358, log 2). (DEDUCED, log 69) -/
def State.resetEngines (s : State) : State :=
  { s with mem := s.mem.filter (fun e => Config.hbmEnd ≤ e.1), badBytes := [], tlb := [], icache := [], dir := [], copies := [], deleg := [],
           deltas := [], timed := [], past := [], watch := [], slices := [], cores := [], dbgNames := [],
           meets := [], departs := [], ops := [], lqs := [], lastLq := [], launches := [], gangs := [], groups := [], savedTiles := [] }

/-- The host link goes down for a reset: a granule's transfer to ACCELERATOR fails (R370). -/
def State.cutLink (s : State) : State :=
  { s with host := { s.host with
      up := false, reset := true, downAt := s.now, failed := 0,
      grans := s.host.grans.map (fun e => (e.1, if e.2.xfer = some true then { e.2 with xfer := none } else e.2)) } }

/-- A request of the host (R359). -/
def Op.ofHost (o : Op) : Bool := match o.job with | .host => true | _ => false

/-- The host's requests in flight fail with HOST_LINK_RESET, and are counted (R358). -/
def State.failHost (s : State) : State :=
  { s with ops := s.ops.filter (fun e => !(e.2.ofHost)),
           host := { s.host with failed := s.host.failed + (s.ops.filter (fun e => e.2.ofHost)).length } }

/-- HOST_HOT_RESET (R358): in attached mode every context is killed, its launches are written KILLED, and compute is reset; in self-hosted
mode the host's requests in flight fail, and contexts, slices and queues stand. Either way the link retrains. -/
def execHostHotReset (s : State) : Out :=
  .next (
    if s.hub.mode = 0 then
      let ids := (s.ctxs.filter (fun e => e.2.loaded)).map (·.1)
      (((ids.foldl (fun s c => ((s.performKill c).endLaunches c).endCtx c) s).resetEngines).cutLink)
    else s.cutLink.failHost)

/-- Accesses that wait for a granule of host memory (R245, R358). -/
def Acc.waitsHost (a : Acc) : Bool := a.st == .replay .xfer

/-- Change the accesses of every operation; those that no unit waits for may end with it. -/
def State.mapAccs (s : State) (f : Acc → Acc) : State :=
  let s : State := { s with ops := s.ops.map (fun (e : Nat × Op) => (e.1, match e.2.kind with | .mem m as => { e.2 with kind := .mem m (as.map f) } | _ => e.2)) }
  s.ops.foldl (fun (s : State) (e : Nat × Op) => s.closeOp e.1) s

/-- The accesses that wait for the link fail with HOST_LINK_RESET once it has been down for 100 ms (R358). -/
def State.linkTimeout (s : State) : State :=
  if s.host.downAt + 100000000 ≤ s.now then s.mapAccs (fun a => if a.waitsHost then { a with st := .failed 4 } else a) else s

/-- HOST_LINK_TIMEOUT (R358): the link has been down for 100 ms. -/
def execHostLinkTimeout (s : State) : Out := .next (if s.host.up then s else s.linkTimeout)

/-- LINK_RETRAIN (R358): the link is up with its width and rate; the accesses that have waited for less than 100 ms ask for their granules
again, and in self-hosted mode a hot reset is notified on queue 0, with the requests of the host that failed. -/
def execLinkRetrain (width rate : Nat) (s : State) : Out :=
  .next (
    if s.host.up then s
    else
      let s := s.linkTimeout
      let was := s.host
      let s := { s with host := { s.host with up := true, reset := false, width := width, rate := rate, failed := 0 } }
      let gs := s.ops.flatMap (fun e => (e.2.accs.filter (fun a => a.waitsHost)).map (fun a => granuleOf a.key))
      let s := gs.foldl (fun s k => if (s.gran k).dev then s else s.askGranule k) s
      if was.reset && s.hub.mode == 1 then
        s.post 0 { kind := 6, ctx := 0, body := [(8, was.downAt), (4, was.failed), (1, width), (1, rate)] }
      else s)

/-- DEVICE_RESET (R3, R370): the whole device resets; what is kept is in flash, with the management controller, or outside the
device. Bring-up starts anew from POWER_GOOD. -/
def execDeviceReset (s : State) : Out :=
  .next { State.reset with
    mem := s.mem.filter (fun e => Config.hbmEnd ≤ e.1), flash := s.flash, agenda := s.agenda, freeCtr := s.freeCtr, nextId := s.nextId,
    mgmt := { stored := s.mgmt.stored, signed := s.mgmt.signed, maxSeq := s.mgmt.maxSeq } }

/-! ### Bring-up (R362, R365, R367, R368) -/

/-- The first failure of a stage. -/
def stageFail (bist : List StageResult) (k : Nat) : Option StageResult := bist.find? (fun r => r.stage == k && !r.pass)

/-- The lantern state (R367): compute is held in reset and the failure is kept for the report. -/
def State.toLantern (s : State) (stage unit code : Nat) : State :=
  { s with hub := { s.hub with svc := 0 }, mgmt := { s.mgmt with stage := stage, lantern := some (stage, unit, code % 2 ^ 16) } }

/-- Islands of compute die 0: its partitions (R369). -/
def reducedClocks : Map Nat := (List.range 192).map (fun i => (i, 650))

/-- The record is accepted and reduced service begins (R365, R368): mode, device number and storage path come from it. -/
def State.acceptRecord (s : State) : State :=
  let c := s.mgmt.stored
  { s with devNo := c.devnum % 512, hub := { s.hub with mode := c.mode % 2, svc := 1 },
           mgmt := { s.mgmt with cfg := c, maxSeq := max s.mgmt.maxSeq c.seq, stage := 4, clocks := reducedClocks,
                                 measures := (List.range 5).map (fun i => (i + 1, Config.measurement (i + 1) c.seq)) } }

/-- POWER_GOOD (R367): the stages in order, with the outcomes of their tests. A unit that fails stage 5 is disabled while the
record's ceilings hold; full service follows by FULL_SERVICE_MOVE. (DESIGN CHOICE, log 72) -/
def execPowerGood (bist : List StageResult) (s : State) : Out :=
  .next (
    if s.mgmt.stage ≠ 0 then s
    else match stageFail bist 1 with
    | some r => s.toLantern 1 r.unit r.code
    | none =>
      if !s.mgmt.signed || decide (s.mgmt.stored.seq < s.mgmt.maxSeq) then s.toLantern 2 Config.recordFailure.1 Config.recordFailure.2
      else match stageFail bist 2 with
      | some r => s.toLantern 2 r.unit r.code
      | none =>
        match stageFail bist 3 with
        | some r => s.toLantern 3 r.unit r.code
        | none =>
          let s := s.acceptRecord
          let bad := bist.filter (fun r => r.stage == 5 && !r.pass)
          match bad.find? (fun r => !r.ceilingsHold) with
          | some r => s.toLantern 5 r.unit r.code
          | none => { s with mgmt := { s.mgmt with stage := 5, badUnits := bad.map (fun r => r.unit) } })

/-- Directory entries are evicted for the rehoming: their labels go to the label store (R225, R237, R368). (DEDUCED, log 71) -/
def State.rehome (s : State) : State :=
  let s := s.dir.foldl (fun s e => s.storeLabel e.1 e.2) s
  { s with dir := [], copies := [], deleg := [] }

/-- FULL_SERVICE_MOVE (R368): every context is pre-empted; once all are saved the memory is rehomed under R11, full service is in
force, and they may be restored. -/
def execFullServiceMove (s : State) : Out :=
  .next (
    if s.hub.svc ≠ 1 ∨ s.mgmt.stage < 5 then s
    else
      let runs := fun (e : Nat × Ctx) => !e.2.out && s.groups.any (fun g => g.2.ctx0 == e.1)
      let s := if s.mgmt.moving then s
        else { s with
          mgmt := { s.mgmt with moving := true },
          ctxs := s.ctxs.map (fun e => (e.1, if runs e then { e.2 with stopping := true, eligible := true } else e.2)) }
      if s.ctxs.any runs then s
      else
        let s := s.rehome
        { s with hub := { s.hub with svc := 2 }, mgmt := { s.mgmt with stage := 6, moving := false } })

/-- ISLAND_CLOCK_SET (R369): within 1.3 GHz for compute islands and the record's ceiling; a partition's clock stops only while it
holds no resident group. Timing alone changes. -/
def execIslandClockSet (island mhz : Nat) (s : State) : Out :=
  .next (
    let compute := decide (island < 816)
    let busy := s.groups.any (fun e => decide (island < 768) && !e.2.isSeq && e.2.core == island / 4 && e.2.grp % 4 == island % 4 && s.resident e.2)
    if island ≥ 1024 ∨ (compute ∧ mhz > 1300) ∨ mhz > s.mgmt.cfg.clock ∨ (mhz = 0 ∧ (island ≥ 768 ∨ busy)) then s
    else { s with mgmt := { s.mgmt with clocks := mput s.mgmt.clocks island mhz } })

/-- MCTP_FAILURE_REPORT (R367): over SMBus (0) or PCIe VDM (1), in the lantern state. -/
def execMctpFailureReport (bus : Nat) (s : State) : Out :=
  .next (match s.mgmt.lantern with
    | some (stage, unit, code) =>
      if bus < 2 then { s with mgmt := { s.mgmt with reports := s.mgmt.reports ++ [(stage, unit, code, s.mgmt.stored.seq)] } } else s
    | none => s)

/-! ### Fabric (R360) -/

/-- FABRIC_LINK_FAILURE (R360): the fabric routes around a failed link; for devices left without a route the 10 ms begin. -/
def execFabricLinkFailure (link : Nat) (noRoute : List Nat) (s : State) : Out :=
  .next (
    if link ≥ 18 ∨ s.badLinks.contains link then s
    else
      { s with badLinks := s.badLinks ++ [link],
               noRoute := noRoute.foldl (fun m d => if (mfind m d).isSome then m else mput m d s.now) s.noRoute })

/-- A route to a device exists again: the 10 ms end, and a device that was lost rejoins its domain (R360). -/
def State.routeBack (s : State) (dev : Nat) : State := { s with noRoute := mdel s.noRoute dev, lost := s.lost.filter (fun d => d != dev) }

/-- An access to a lost device fails with LINK_DOWN. -/
def Acc.lose (dev : Nat) (a : Acc) : Acc := if keyDev a.key = some dev && !a.final && a.st != .walk then { a with st := .failed 5 } else a

/-- Members of active meetings that are gangs of a device. -/
def State.membersOn (s : State) (dev : Nat) : List Depart :=
  s.meets.flatMap (fun e => ((List.range e.2.n).filter (fun j => s.memberState e.1 j == 1 && s.readMem (memberKey e.1 j + 0x10) 2 == dev)).map
    (fun j => { meet := e.1, member := j, dev := some dev }))

/-- DEVICE_LOST (R360): no route to a device has existed for 10 ms; items to it fail, its members die, and timed writes on their
way to it are lost with it. -/
def execDeviceLost (dev : Nat) (s : State) : Out :=
  .next (match mfind s.noRoute dev with
    | none => s
    | some t =>
      if s.lost.contains dev || decide (s.now < t + 10000000) then s
      else
        let s := s.mapAccs (fun a => a.lose dev)
        { s with lost := s.lost ++ [dev], timed := s.timed.filter (fun t => keyDev t.key != some dev), departs := s.departs ++ s.membersOn dev })

/-! ### I/O cores: bindings, Ethernet and storage (R348, R361–R364) -/

/-- A queue is served: its binding is enabled (R348, Table 23-1). -/
def State.bound (s : State) (n : Nat) : Bool := bitAt (mget 0 s.hub.binds n) 63
/-- The I/O core to which a queue is bound. -/
def State.ioCore (s : State) (n : Nat) : Nat := mget 0 s.hub.binds n % 64

/-- ETHERNET_FRAME (R361). -/
def execEthernetFrame (port ring : Nat) (tx : Bool) (frame : List (BitVec 8)) (s : State) : Out :=
  .next (
    let n := 1536 + 32 * port + 2 * ring + b2n tx
    if port < 4 ∧ ring < 16 ∧ s.bound n then
      { s with eth := mput s.eth n { frames := (mget {} s.eth n).frames ++ [frame] } }
    else s)

/-- Memory keys of the 4 KiB frames of a buffer, or the walk outcome of the first that fails. -/
def State.frames (s : State) (ctx : Nat) (need : Need) : List Nat → Except (Nat × Nat) (List Nat)
  | [] => .ok []
  | va :: vs =>
    match s.svcTrans none ctx (BitVec.ofNat 64 va) need with
    | .error o => .error (o, va)
    | .ok (key, _, _) => (s.frames ctx need vs).map (fun ks => key / 4096 * 4096 :: ks)

/-- Addresses of the frames that `n` bytes from `va` touch. -/
def pagesOf (va n : Nat) : List Nat := (List.range ((va % 4096 + n + 4095) / 4096)).map (fun i => va / 4096 * 4096 + 4096 * i)

/-- The lines of `n` bytes from byte `off` of the first of some frames: keys and lengths. -/
def frameLines : List Nat → Nat → Nat → List (Nat × Nat)
  | [], _, _ => []
  | k :: ks, off, n => linesOf (min n (4096 - off)) (k + off) (min n (4096 - off)) ++ frameLines ks 0 (n - (4096 - off))

/-- Cut bytes into the data of some lines. -/
def lineData : List (Nat × Nat) → List Byte → List (Nat × Nat × Nat)
  | [], _ => []
  | (k, n) :: ls, bs => (k, n, leNat (bs.take n)) :: lineData ls (bs.drop n)

/-- Accesses to lines as agent 48, all under way at once: their values and the first status other than 0, or none while one of them waits at
home. -/
def State.dma (s : State) (tag : Nat × Nat) (kind : MemKind) : List (Nat × Nat × Nat) → Option (List Byte × Nat) × State
  | [] => (some ([], 0), s)
  | (k, n, x) :: ls =>
    match s.ask { tag := tag, agent := hubAgent, key := k, width := n, kind := kind, ty := .b64, data := x } with
    | (.wait, s) => (none, (s.dma tag kind ls).2)
    | (r, s) =>
      let (v, st) := match r with | .done v _ => (v, 0) | .failed c => (0, c) | _ => (0, 2)
      let (o, s) := s.dma tag kind ls
      (o.map (fun p => (leBytes n v ++ p.1, if st ≠ 0 then st else p.2)), s)

/-- A lease permits a command's blocks. -/
def inLease (lo hi lba count : Nat) : Bool := decide (1 ≤ count) && decide (lo ≤ lba) && decide (lba + count - 1 ≤ hi)

/-- Post a completion of a lease: command id and status. -/
def State.nvmePost (s : State) (lease cid status : Nat) : State :=
  { s with leases := mupd s.leases lease (fun l => { l with posted := l.posted ++ [(cid, status)] }) }

/-- A command moves data through its buffer. -/
def nvmeMoves : NvmeOp → Bool
  | .read | .write => true
  | _ => false

/-- A command names blocks. -/
def nvmeRanged : NvmeOp → Bool
  | .flush => false
  | _ => true

/-- NVME_SUBMISSION (R363): the bound I/O core checks a leased command, translates and pins its pages, and forwards it. A revoked
lease takes no more commands (R370). -/
def execNvmeSubmission (lease : Nat) (cmd : NvmeCmd) (s : State) : Out :=
  .next (match mfind s.leases lease with
    | none => s
    | some l =>
      if s.mgmt.cfg.flash || l.revoked || !(s.bound l.queue) then s
      else if !(l.ops.contains cmd.op) then s.nvmePost lease cmd.cid 0x01
      else if nvmeRanged cmd.op && !(inLease l.lo l.hi cmd.lba cmd.count) then s.nvmePost lease cmd.cid 0x80
      else match s.frames l.ctx (if cmd.op == .read then .w else .r) (if nvmeMoves cmd.op then pagesOf cmd.buf cmd.bytes else []) with
        | .error (_, va) =>
          (s.nvmePost lease cmd.cid 0x04).notify { kind := 1, ctx := l.ctx, body := [(4, 0), (4, 0), (8, 0), (8, va)] }
        | .ok ks => { s with leases := mupd s.leases lease (fun l => { l with drive := l.drive ++ [(cmd, ks)] }) })

/-- The event of a lease's oldest completion, and those of a flash ring's next request and of a request's completion. -/
def nvmeTag (lease : Nat) : Nat × Nat := (10, lease)
def flashTag (ring : Nat) : Nat × Nat := (11, ring)
def flashEndTag (ring slot : Nat) : Nat × Nat := (12 + ring, slot)

/-- NVME_COMPLETION (R363, R370): the data of the drive's oldest command of a lease have been moved, its completion is posted, and its pages
are no longer pinned. What a drive holds is outside the device: the bytes of a read are free values. -/
def execNvmeCompletion (lease : Nat) (s : State) : Out :=
  .next (match mfind s.leases lease with
    | none => s
    | some l =>
      match l.drive with
      | [] => s
      | (cmd, ks) :: rest =>
        let post (s : State) : State :=
          ({ (s.forget (nvmeTag lease)) with leases := mupd s.leases lease (fun l => { l with drive := rest, moving := none }) }).nvmePost lease cmd.cid 0
        if cmd.op ≠ .read then post s
        else
          let (k, s) := match l.moving with
            | some k => (k, s)
            | none => (s.freeCtr, { s with freeCtr := s.freeCtr + 1, leases := mupd s.leases lease (fun l => { l with moving := some s.freeCtr }) })
          let ls := frameLines ks (cmd.buf % 4096) cmd.bytes
          match s.dma (nvmeTag lease) .store (lineData ls (undefinedBytes k cmd.bytes)) with
          | (none, s) => s
          | (some _, s) => post s)

/-! ### Flash (R364) -/

/-- The lease's name for a flash operation. -/
def flashOp : Nat → NvmeOp
  | 0 => .read | 1 => .write | 2 => .dsm | 3 => .flush | _ => .other

/-- Address of a request slot. -/
def FlashRing.slotVa (r : FlashRing) (i : Nat) : Nat := (r.ring + 64 * (i % r.slots)) % 2 ^ 64

/-- Stop a flash ring as a launch queue is stopped (R29, R364). -/
def State.stopFlash (s : State) (k ctx va outcome : Nat) : State :=
  ({ s with flashRings := mupd s.flashRings k (fun r => { r with stopped := true }) }).addErr ctx (.queue (1280 + k) (BitVec.ofNat 64 va) outcome)

/-- A request read from its slot, with ACCESS_DENIED where it breaks Table 23-9 or the lease; the I/O core that is bound to the ring holds
it. -/
def parseFlash (r : FlashRing) (core slot x : Nat) : FlashReq :=
  let op := fieldAt x 0 4
  let q : FlashReq := { slot := slot, core := core, op := op, count := fieldAt x 4 4, lba := fieldAt x 8 8, buf := fieldAt x 0x10 8 }
  let ok := r.ops.contains (flashOp op) && op ≤ 3 && q.buf % 4096 == 0 && fieldAt x 0x1C 36 == 0 &&
    (op == 3 || (decide (q.count ≤ 256) && inLease r.lo r.hi q.lba q.count))
  { q with status := if ok then 0 else 2 }

/-- An I/O core holds an entry in its local memory (R348): the place is its firmware's. (DESIGN CHOICE, log 95) -/
def State.ioHold (s : State) (core slot x : Nat) : State :=
  { s with ioMem := mput s.ioMem core (msets byteZero (mget [] s.ioMem core) (64 * (slot % 1024)) (leBytes 64 x)) }

/-- FLASH_REQUEST (R364): the controller takes the next request of a leased ring, which advances as a launch queue does. -/
def execFlashRequest (ring : Nat) (s : State) : Out :=
  .next (match mfind s.flashRings ring with
    | none => s
    | some r =>
      if !s.mgmt.cfg.flash || r.stopped || !(s.bound (1280 + ring)) then s
      else
        let tag := flashTag ring
        let stop (s : State) (va o : Nat) : State := (s.forget tag).stopFlash ring r.ctx va o
        match s.svcAccess tag none r.ctx (BitVec.ofNat 64 r.tailVa) 8 none with
        | (.wait, s) => s
        | (.fail o, s) => stop s r.tailVa o
        | (.ok tail _, s) =>
          let n := (tail + 2 ^ 64 - r.head % 2 ^ 64) % 2 ^ 64
          if n = 0 then s.forget tag
          else if n > r.slots then stop s 0 0
          else match s.svcAccess tag none r.ctx (BitVec.ofNat 64 (r.slotVa r.head)) 64 none with
            | (.wait, s) => s
            | (.fail o, s) => stop s (r.slotVa r.head) o
            | (.ok x _, s) =>
              match s.svcAccess tag none r.ctx (BitVec.ofNat 64 r.headVa) 8 (some ((r.head + 1) % 2 ^ 64)) with
              | (.wait, s) => s
              | (.fail o, s) => stop s r.headVa o
              | (.ok _ _, s) =>
                let core := s.ioCore (1280 + ring)
                { ((s.forget tag).ioHold core r.head x) with
                  flashRings := mupd s.flashRings ring (fun r => { r with head := r.head + 1, taken := r.taken ++ [parseFlash r core r.head x] }) })

/-- Do a request: its status, once its data have been moved. -/
def State.flashDo (s : State) (tag : Nat × Nat) (ctx : Nat) (q : FlashReq) : Option Nat × State :=
  let pages := (List.range q.count).map (fun i => (q.buf + 4096 * i) % 2 ^ 64)
  let base := 4096 * q.lba
  let n := 4096 * q.count
  match q.op with
  | 0 =>
    match s.frames ctx .w pages with
    | .error (o, _) => (some (outcomeStatus o), s)
    | .ok ks =>
      match s.dma tag .store (lineData (frameLines ks 0 n) (mgets byteZero s.flash base n)) with
      | (none, s) => (none, s)
      | (some (_, st), s) => (some st, s)
  | 1 =>
    match s.frames ctx .r pages with
    | .error (o, _) => (some (outcomeStatus o), s)
    | .ok ks =>
      match s.dma tag .load ((frameLines ks 0 n).map (fun l => (l.1, l.2, 0))) with
      | (none, s) => (none, s)
      | (some (bs, st), s) => (some st, if st = 0 then { s with flash := msets byteZero s.flash base bs } else s)
  | 2 => (some 0, { s with flash := s.flash.filter (fun e => e.1 < base || base + n ≤ e.1) })
  | _ => (some 0, s)

/-- FLASH_COMPLETION (R364): a request, any of those taken, completes and its STATUS is written with a release; a flush waits for
every earlier write of its ring. -/
def execFlashCompletion (ring entry : Nat) (s : State) : Out :=
  .next (match mfind s.flashRings ring with
    | none => s
    | some r =>
      match r.taken.find? (fun q => q.slot == entry) with
      | none => s
      | some q =>
        let tag := flashEndTag ring entry
        if q.op = 3 ∧ r.taken.any (fun o => o.op == 1 && o.slot < entry) then s
        else match (if q.status = 0 then s.flashDo tag r.ctx q else (some q.status, s)) with
          | (none, s) => s
          | (some st, s) =>
            let va := BitVec.ofNat 64 (r.slotVa entry + 0x18)
            let finish (s : State) : State :=
              { (s.forget tag) with flashRings := mupd s.flashRings ring (fun r => { r with taken := r.taken.filter (fun o => o.slot != entry) }) }
            match s.svcAccess tag none r.ctx va 4 (some (2 ^ 31 + st)) with
            | (.wait, s) => s
            | (.ok _ _, s) => finish s
            | (.fail o, s) => finish (s.addErr r.ctx (.completion va o)))

/-! ### Attestation (R366) -/

/-- Send an answer. -/
def State.spdm (s : State) (code : Nat) (ok : Bool) (data : List Byte) : State :=
  { s with mgmt := { s.mgmt with answers := s.mgmt.answers ++ [{ code := code, ok := ok, data := if ok then data else [] }] } }

/-- Requests after the negotiation name the one certificate slot (log 5). -/
def State.spdmReady (s : State) (r : SpdmReq) : Bool := s.mgmt.agreed && r.slot == 0

/-- GET_VERSION: SPDM 1.3. -/
def execGetVersion (_ : SpdmReq) (s : State) : Out := .next (s.spdm 0x84 true [0x13])

/-- GET_CAPABILITIES: the requests that the device supports, by their codes. -/
def execGetCapabilities (_ : SpdmReq) (s : State) : Out := .next (s.spdm 0xE1 true [0x84, 0xE1, 0xE3, 0x81, 0x82, 0x83, 0xE0])

/-- NEGOTIATE_ALGORITHMS: ECDSA P-256 and SHA-256 only. -/
def execNegotiateAlgorithms (req : SpdmReq) (s : State) : Out :=
  .next (let s := s.spdm 0xE3 req.algOk []
         { s with mgmt := { s.mgmt with agreed := s.mgmt.agreed || req.algOk } })

/-- GET_DIGESTS: the digest of the certificate chain. -/
def execGetDigests (req : SpdmReq) (s : State) : Out := .next (s.spdm 0x81 (s.spdmReady { req with slot := 0 }) (Config.digest Config.certChain))

/-- GET_CERTIFICATE: a portion of the chain. -/
def execGetCertificate (req : SpdmReq) (s : State) : Out :=
  .next (s.spdm 0x82 (s.spdmReady req) ((Config.certChain.drop req.offset).take req.length))

/-- CHALLENGE: the chain's digest signed with the identity key and the nonce. -/
def execChallenge (req : SpdmReq) (s : State) : Out :=
  .next (s.spdm 0x83 (s.spdmReady req) (Config.signature req.nonce (Config.digest Config.certChain)))

/-- GET_MEASUREMENTS: indices 1 to 5 of Table 23-10. -/
def execGetMeasurements (req : SpdmReq) (s : State) : Out :=
  .next (s.spdm 0xE0 (s.spdmReady req && decide (1 ≤ req.index ∧ req.index ≤ 5)) (mget [] s.mgmt.measures req.index))

/-! ### System cores and the host (R347, R349, R359) -/

/-- Type of a plain access of `n` bytes by a system core or the host. -/
def plainTy (n : Nat) : Ty := if n = 1 then .b8 else if n = 2 then .b16 else if n = 4 then .u32 else .u64

/-- A system core's access to the physical map (R347): a request of agent 48, or an access of the hub window. -/
def State.sysAccess (s : State) (core : Nat) (kind : MemKind) (key width data data2 : Nat) : State :=
  if core ≥ 8 then s
  else if hubBase ≤ key ∧ key < hubBase + 2 ^ 32 then
    match kind with
    | .load =>
      let (v, s) := s.readWindow (key - hubBase) width
      { s with sys := mput s.sys core { (mget ({} : SysCore) s.sys core) with got := v } }
    | .store => if width = 8 ∧ key % 8 = 0 then s.writeWord (key - hubBase) (data % 2 ^ 64) else s.refuseReg
    | _ => s.refuseReg
  else
    s.sendOp { gid := 0, cluster := hubAgent, core := core, job := .sys core,
               kind := .mem { kind := kind, ty := plainTy width, width := width }
                 [{ lane := 0, va := BitVec.ofNat 64 key, key := key, mig := true, data := data, data2 := data2, st := .wait }] }

/-- The host's access to device or host memory: a request of agent 49 (R359), for which the link must be up. -/
def State.hostAccess (s : State) (kind : MemKind) (key width data data2 : Nat) : State :=
  if !s.host.up then s
  else
    s.sendOp { gid := 0, cluster := 49, job := .host,
               kind := .mem { kind := kind, ty := plainTy width, width := width }
                 [{ lane := 0, va := BitVec.ofNat 64 key, key := key, mig := true, data := data, data2 := data2, st := .wait }] }

/-- A system core has an access without its instant, or a write that the host link has not acknowledged. -/
def State.sysWaits (s : State) (core : Nat) : Bool :=
  s.ops.any (fun e => match e.2.job with
    | .sys c => c == core
    | .link => e.2.gid == 0 && e.2.cluster == hubAgent && e.2.core == core
    | _ => false)

/-- FENCE_RW_RW (R347): complete once the core's accesses have their instants, the guard of R68 has passed, and its writes to host
memory are acknowledged. -/
def execFenceRwRw (sysCore : Nat) (s : State) : Out :=
  .next (
    let c : SysCore := mget {} s.sys sysCore
    if sysCore ≥ 8 ∨ s.sysWaits sysCore ∨ s.now - s.lagHub < c.last + 2 then s
    else { s with sys := mput s.sys sysCore { c with fences := c.fences + 1 } })

end Sys2Proof.Machine
end

