-- ==== Sys2Proof/Machine/Dispatch.lean ====
section
/-! DEFINITION. Machine/Dispatch.lean: one arm per instruction, each a direct call of its meaning. -/

namespace Sys2Proof.Machine

/-- The meaning of an instruction or event. -/
def exec (i : Instr) (s : State) : Host.Outcome State Fault Refusal :=
  match i with
  | .nop h => Sys2Proof.Machine.execNop h s
  | .iadd h ty sat z d a b => Sys2Proof.Machine.execIadd h ty sat z d a b s
  | .isub h ty sat z d a b => Sys2Proof.Machine.execIsub h ty sat z d a b s
  | .iadd3 h ty sat z d a b c => Sys2Proof.Machine.execIadd3 h ty sat z d a b c s
  | .iaddc h ty z d a b cin cout => Sys2Proof.Machine.execIaddc h ty z d a b cin cout s
  | .imul h ty z d a b => Sys2Proof.Machine.execImul h ty z d a b s
  | .imulh h ty z d a b => Sys2Proof.Machine.execImulh h ty z d a b s
  | .imad h ty sat z d a b c => Sys2Proof.Machine.execImad h ty sat z d a b c s
  | .imadw h ty z d a b c => Sys2Proof.Machine.execImadw h ty z d a b c s
  | .idiv h ty z d a b => Sys2Proof.Machine.execIdiv h ty z d a b s
  | .irem h ty z d a b => Sys2Proof.Machine.execIrem h ty z d a b s
  | .imin h ty z d a b => Sys2Proof.Machine.execImin h ty z d a b s
  | .imax h ty z d a b => Sys2Proof.Machine.execImax h ty z d a b s
  | .iabs h ty sat z d a => Sys2Proof.Machine.execIabs h ty sat z d a s
  | .ineg h ty sat z d a => Sys2Proof.Machine.execIneg h ty sat z d a s
  | .isad h ty z d a b c => Sys2Proof.Machine.execIsad h ty z d a b c s
  | .andB h ty z d a b => Sys2Proof.Machine.execAnd h ty z d a b s
  | .orB h ty z d a b => Sys2Proof.Machine.execOr h ty z d a b s
  | .xorB h ty z d a b => Sys2Proof.Machine.execXor h ty z d a b s
  | .notB h ty z d a => Sys2Proof.Machine.execNot h ty z d a s
  | .logt h ty z d a b c tt => Sys2Proof.Machine.execLogt h ty z d a b c tt s
  | .shl h ty z d a b => Sys2Proof.Machine.execShl h ty z d a b s
  | .shr h ty z d a b => Sys2Proof.Machine.execShr h ty z d a b s
  | .rot h ty z d a b => Sys2Proof.Machine.execRot h ty z d a b s
  | .catsh h z d a b c => Sys2Proof.Machine.execCatsh h z d a b c s
  | .bfx h ty z d a b => Sys2Proof.Machine.execBfx h ty z d a b s
  | .bfi h z d a b c => Sys2Proof.Machine.execBfi h z d a b c s
  | .popc h ty z d a => Sys2Proof.Machine.execPopc h ty z d a s
  | .clz h ty z d a => Sys2Proof.Machine.execClz h ty z d a s
  | .brev h ty z d a => Sys2Proof.Machine.execBrev h ty z d a s
  | .ffs h ty z d a => Sys2Proof.Machine.execFfs h ty z d a s
  | .icmp h cc ty pd a b => Sys2Proof.Machine.execIcmp h cc ty pd a b s
  | .isel h ty z d a b pc => Sys2Proof.Machine.execIsel h ty z d a b pc s
  | .lea h ty z d a b sh => Sys2Proof.Machine.execLea h ty z d a b sh s
  | .movi h d imm => Sys2Proof.Machine.execMovi h d imm s
  | .mov h ty z d a => Sys2Proof.Machine.execMov h ty z d a s
  | .fadd h ty rnd ftz z d a b => Sys2Proof.Machine.execFadd h ty rnd ftz z d a b s
  | .fsub h ty rnd ftz z d a b => Sys2Proof.Machine.execFsub h ty rnd ftz z d a b s
  | .fmul h ty rnd ftz z d a b => Sys2Proof.Machine.execFmul h ty rnd ftz z d a b s
  | .ffma h ty rnd ftz z d a b c => Sys2Proof.Machine.execFfma h ty rnd ftz z d a b c s
  | .fmin h ty ftz z d a b => Sys2Proof.Machine.execFmin h ty ftz z d a b s
  | .fmax h ty ftz z d a b => Sys2Proof.Machine.execFmax h ty ftz z d a b s
  | .fcmp h cc ty ftz pd a b => Sys2Proof.Machine.execFcmp h cc ty ftz pd a b s
  | .fdiv h ty rnd ftz z d a b => Sys2Proof.Machine.execFdiv h ty rnd ftz z d a b s
  | .fsqrt h ty rnd ftz z d a => Sys2Proof.Machine.execFsqrt h ty rnd ftz z d a s
  | .frcp h ty rnd ftz z alt d a => Sys2Proof.Machine.execFrcp h ty rnd ftz z alt d a s
  | .frsq h ty rnd ftz z alt d a => Sys2Proof.Machine.execFrsq h ty rnd ftz z alt d a s
  | .fexp2 h ftz z d a => Sys2Proof.Machine.execFexp2 h ftz z d a s
  | .flog2 h ftz z d a => Sys2Proof.Machine.execFlog2 h ftz z d a s
  | .fsin h ftz z d a => Sys2Proof.Machine.execFsin h ftz z d a s
  | .fcos h ftz z d a => Sys2Proof.Machine.execFcos h ftz z d a s
  | .ftanh h ftz z d a => Sys2Proof.Machine.execFtanh h ftz z d a s
  | .frnd h ty rnd ftz z d a => Sys2Proof.Machine.execFrnd h ty rnd ftz z d a s
  | .fclass h ty z d a => Sys2Proof.Machine.execFclass h ty z d a s
  | .fscale h ty rnd ftz z d a b => Sys2Proof.Machine.execFscale h ty rnd ftz z d a b s
  | .fdot2 h ty rnd z d a b c => Sys2Proof.Machine.execFdot2 h ty rnd z d a b c s
  | .cvt h dty sty rnd sat z nan d di a si => Sys2Proof.Machine.execCvt h dty sty rnd sat z nan d di a si s
  | .pack h dty sty rnd sat z nan d a b j => Sys2Proof.Machine.execPack h dty sty rnd sat z nan d a b j s
  | .unpk h dty sty z d a j => Sys2Proof.Machine.execUnpk h dty sty z d a j s
  | .qpack h dty sty rnd sat z nan d a hh => Sys2Proof.Machine.execQpack h dty sty rnd sat z nan d a hh s
  | .qunpk h dty sty z d a hh => Sys2Proof.Machine.execQunpk h dty sty z d a hh s
  | .dot4 h ty sat z d a b c => Sys2Proof.Machine.execDot4 h ty sat z d a b c s
  | .dot8 h ty sat z d a b c => Sys2Proof.Machine.execDot8 h ty sat z d a b c s
  | .dots h ty z d a b c sa sb => Sys2Proof.Machine.execDots h ty z d a b c sa sb s
  | .prmb h z d a b c => Sys2Proof.Machine.execPrmb h z d a b c s
  | .lxch h m ty z d a b => Sys2Proof.Machine.execLxch h m ty z d a b s
  | .qswp h k ty z d a => Sys2Proof.Machine.execQswp h k ty z d a s
  | .qbcst h ty z d a k => Sys2Proof.Machine.execQbcst h ty z d a k s
  | .qhelp h on => Sys2Proof.Machine.execQhelp h on s
  | .vote h m z d pa => Sys2Proof.Machine.execVote h m z d pa s
  | .gred h op ty z d a => Sys2Proof.Machine.execGred h op ty z d a s
  | .gscan h op ty z excl d a => Sys2Proof.Machine.execGscan h op ty z excl d a s
  | .matchLanes h m ty z d a => Sys2Proof.Machine.execMatchLanes h m ty z d a s
  | .rdlane h ty z d a b => Sys2Proof.Machine.execRdlane h ty z d a b s
  | .wrlane h ty d a b => Sys2Proof.Machine.execWrlane h ty d a b s
  | .bra h imm => Sys2Proof.Machine.execBra h imm s
  | .brx h a => Sys2Proof.Machine.execBrx h a s
  | .call h imm => Sys2Proof.Machine.execCall h imm s
  | .callx h a => Sys2Proof.Machine.execCallx h a s
  | .ret h => Sys2Proof.Machine.execRet h s
  | .enrol h bn => Sys2Proof.Machine.execEnrol h bn s
  | .rejoin h bn => Sys2Proof.Machine.execRejoin h bn s
  | .leave h bn => Sys2Proof.Machine.execLeave h bn s
  | .exit h => Sys2Proof.Machine.execExit h s
  | .yield h => Sys2Proof.Machine.execYield h s
  | .tbar h => Sys2Proof.Machine.execTbar h s
  | .tbara h => Sys2Proof.Machine.execTbara h s
  | .lnch h pd a q => Sys2Proof.Machine.execLnch h pd a q s
  | .trap h imm => Sys2Proof.Machine.execTrap h imm s
  | .brk h imm => Sys2Proof.Machine.execBrk h imm s
  | .tret h skip => Sys2Proof.Machine.execTret h skip s
  | .tqrd h d => Sys2Proof.Machine.execTqrd h d s
  | .grow h must pd imm => Sys2Proof.Machine.execGrow h must pd imm s
  | .shrink h imm => Sys2Proof.Machine.execShrink h imm s
  | .rdsr h d sr => Sys2Proof.Machine.execRdsr h d sr s
  | .wrsr h a sr => Sys2Proof.Machine.execWrsr h a sr s
  | .pset h pd a b => Sys2Proof.Machine.execPset h pd a b s
  | .pmov h toP p r => Sys2Proof.Machine.execPmov h toP p r s
  | .xget h d a b => Sys2Proof.Machine.execXget h d a b s
  | .xput h a b c => Sys2Proof.Machine.execXput h a b c s
  | .ld h w64 ty sc ord chint d a off => Sys2Proof.Machine.execLd h w64 ty sc ord chint d a off s
  | .st h w64 ty sc ord chint a b off => Sys2Proof.Machine.execSt h w64 ty sc ord chint a b off s
  | .lds h ty d a off => Sys2Proof.Machine.execLds h ty d a off s
  | .sts h ty a b off => Sys2Proof.Machine.execSts h ty a b off s
  | .atom h w64 op ty sc ord d a b off => Sys2Proof.Machine.execAtom h w64 op ty sc ord d a b off s
  | .atoms h op ty d a b off => Sys2Proof.Machine.execAtoms h op ty d a b off s
  | .cas h w64 ty sc ord d a b off => Sys2Proof.Machine.execCas h w64 ty sc ord d a b off s
  | .red h w64 op ty sc ord a b off => Sys2Proof.Machine.execRed h w64 op ty sc ord a b off s
  | .fence h sc => Sys2Proof.Machine.execFence h sc s
  | .wait h nld nst ncp nmx nmt => Sys2Proof.Machine.execWait h nld nst ncp nmx nmt s
  | .monarm h w64 a off => Sys2Proof.Machine.execMonarm h w64 a off s
  | .mwait h pd a => Sys2Proof.Machine.execMwait h pd a s
  | .pref h w64 chint a off => Sys2Proof.Machine.execPref h w64 chint a off s
  | .cwb h w64 sc a off => Sys2Proof.Machine.execCwb h w64 sc a off s
  | .cinv h w64 sc a off => Sys2Proof.Machine.execCinv h w64 sc a off s
  | .lblrd h w64 d a off => Sys2Proof.Machine.execLblrd h w64 d a off s
  | .lblset h w64 lock a b off => Sys2Proof.Machine.execLblset h w64 lock a b off s
  | .lblclr h w64 a off => Sys2Proof.Machine.execLblclr h w64 a off s
  | .qenq h pd a b => Sys2Proof.Machine.execQenq h pd a b s
  | .qdeq h d a pc => Sys2Proof.Machine.execQdeq h d a pc s
  | .qstat h d a => Sys2Proof.Machine.execQstat h d a s
  | .amsg h pd a b hn => Sys2Proof.Machine.execAmsg h pd a b hn s
  | .amdone h => Sys2Proof.Machine.execAmdone h s
  | .cpy h a off => Sys2Proof.Machine.execCpy h a off s
  | .cpyr h a off => Sys2Proof.Machine.execCpyr h a off s
  | .boinit h a b off => Sys2Proof.Machine.execBoinit h a b off s
  | .bowait h pd a b off => Sys2Proof.Machine.execBowait h pd a b off s
  | .mjoin h d a b => Sys2Proof.Machine.execMjoin h d a b s
  | .mcont h d a b c => Sys2Proof.Machine.execMcont h d a b c s
  | .mrslt h d a b c => Sys2Proof.Machine.execMrslt h d a b c s
  | .mleave h d a b => Sys2Proof.Machine.execMleave h d a b s
  | .mstat h d a b => Sys2Proof.Machine.execMstat h d a b s
  | .topen h t => Sys2Proof.Machine.execTopen h t s
  | .twr h t a b => Sys2Proof.Machine.execTwr h t a b s
  | .tseal h t => Sys2Proof.Machine.execTseal h t s
  | .tdrain h t => Sys2Proof.Machine.execTdrain h t s
  | .trd h d t b => Sys2Proof.Machine.execTrd h d t b s
  | .tfree h t => Sys2Proof.Machine.execTfree h t s
  | .tstat h d t team => Sys2Proof.Machine.execTstat h d t team s
  | .mmab16 h core tc ta tb => Sys2Proof.Machine.execMmab16 h core tc ta tb s
  | .mmah16 h core tc ta tb => Sys2Proof.Machine.execMmah16 h core tc ta tb s
  | .mmaf8a h core tc ta tb => Sys2Proof.Machine.execMmaf8a h core tc ta tb s
  | .mmaf8b h core tc ta tb => Sys2Proof.Machine.execMmaf8b h core tc ta tb s
  | .mmaf6a h core tc ta tb => Sys2Proof.Machine.execMmaf6a h core tc ta tb s
  | .mmaf6b h core tc ta tb => Sys2Proof.Machine.execMmaf6b h core tc ta tb s
  | .mmaf4 h core tc ta tb => Sys2Proof.Machine.execMmaf4 h core tc ta tb s
  | .mmai8 h core tc ta tb => Sys2Proof.Machine.execMmai8 h core tc ta tb s
  | .mmaf32 h core tc ta tb => Sys2Proof.Machine.execMmaf32 h core tc ta tb s
  | .mmad64 h core tc ta tb => Sys2Proof.Machine.execMmad64 h core tc ta tb s
  | .lutbld h core td ta => Sys2Proof.Machine.execLutbld h core td ta s
  | .lutmm h wb core tc ta tb => Sys2Proof.Machine.execLutmm h wb core tc ta tb s
  | .czero h core tc => Sys2Proof.Machine.execCzero h core tc s
  | .ccvt h sat dty core td tc cst => Sys2Proof.Machine.execCcvt h sat dty core td tc cst s
  | .tscl h off t sel => Sys2Proof.Machine.execTscl h off t sel s
  | .tperm h off t sel => Sys2Proof.Machine.execTperm h off t sel s
  | .twait h t st sel => Sys2Proof.Machine.execTwait h t st sel s
  | .sqsig h n a => Sys2Proof.Machine.execSqsig h n a s
  | .sqwait h n a cap => Sys2Proof.Machine.execSqwait h n a cap s
  | .gcall h k g => Sys2Proof.Machine.execGcall h k g s
  | .gret h => Sys2Proof.Machine.execGret h s
  | .sysc h k g => Sys2Proof.Machine.execSysc h k g s
  | .trmark h a imm => Sys2Proof.Machine.execTrmark h a imm s
  | .growGrant core => Sys2Proof.Machine.execGrowGrant core s
  | .growTimeout gid => Sys2Proof.Machine.execGrowTimeout gid s
  | .loadDataArrival op => Sys2Proof.Machine.execLoadDataArrival op s
  | .storeCommitReport op => Sys2Proof.Machine.execStoreCommitReport op s
  | .fenceComplete gid => Sys2Proof.Machine.execFenceComplete gid s
  | .waitReturn gid => Sys2Proof.Machine.execWaitReturn gid s
  | .walkEnd gid => Sys2Proof.Machine.execWalkEnd gid s
  | .operandLogReissue gid entry => Sys2Proof.Machine.execOperandLogReissue gid entry s
  | .labelVerdict gid => Sys2Proof.Machine.execLabelVerdict gid s
  | .trapDelivery gid => Sys2Proof.Machine.execTrapDelivery gid s
  | .mwaitTimeout gid => Sys2Proof.Machine.execMwaitTimeout gid s
  | .bowaitReturn gid => Sys2Proof.Machine.execBowaitReturn gid s
  | .bowaitTimeout gid => Sys2Proof.Machine.execBowaitTimeout gid s
  | .sqsigAdd who => Sys2Proof.Machine.execSqsigAdd who s
  | .sqwaitReturn who => Sys2Proof.Machine.execSqwaitReturn who s
  | .sqwaitTimeout who => Sys2Proof.Machine.execSqwaitTimeout who s
  | .tileStateReached who => Sys2Proof.Machine.execTileStateReached who s
  | .tileWait who => Sys2Proof.Machine.execTileWait who s
  | .seqOpExecute core => Sys2Proof.Machine.execSeqOpExecute core s
  | .seqOpComplete gang op => Sys2Proof.Machine.execSeqOpComplete gang op s
  | .launchRecordDequeue q => Sys2Proof.Machine.execLaunchRecordDequeue q s
  | .dependenceMet q which => Sys2Proof.Machine.execDependenceMet q which s
  | .gangAdmit q places => Sys2Proof.Machine.execGangAdmit q places s
  | .lnchAppend op => Sys2Proof.Machine.execLnchAppend op s
  | .groupEnd gid => Sys2Proof.Machine.execGroupEnd gid s
  | .launchComplete launch => Sys2Proof.Machine.execLaunchComplete launch s
  | .groupSwap gout gin => Sys2Proof.Machine.execGroupSwap gout gin s
  | .pendingDisplace gid => Sys2Proof.Machine.execPendingDisplace gid s
  | .starvationGuard gid => Sys2Proof.Machine.execStarvationGuard gid s
  | .preemptSave ctx => Sys2Proof.Machine.execPreemptSave ctx s
  | .contextRestore ctx places => Sys2Proof.Machine.execContextRestore ctx places s
  | .deltaPush cluster line => Sys2Proof.Machine.execDeltaPush cluster line s
  | .ownershipTransfer granule => Sys2Proof.Machine.execOwnershipTransfer granule s
  | .domainJoin time => Sys2Proof.Machine.execDomainJoin time s
  | .homeRequest op lane => Sys2Proof.Machine.execHomeRequest op lane s
  | .reopen region => Sys2Proof.Machine.execReopen region s
  | .invalidationAck line agent => Sys2Proof.Machine.execInvalidationAck line agent s
  | .recallReturn line => Sys2Proof.Machine.execRecallReturn line s
  | .leaseExtension region => Sys2Proof.Machine.execLeaseExtension region s
  | .extensionAck region agent => Sys2Proof.Machine.execExtensionAck region agent s
  | .timedUpdate agent slice => Sys2Proof.Machine.execTimedUpdate agent slice s
  | .replayWake slice tag => Sys2Proof.Machine.execReplayWake slice tag s
  | .overflowFetch slice => Sys2Proof.Machine.execOverflowFetch slice s
  | .amDispatch slice q => Sys2Proof.Machine.execAmDispatch slice q s
  | .copyStart core chan => Sys2Proof.Machine.execCopyStart core chan s
  | .chunkArbitration core => Sys2Proof.Machine.execChunkArbitration core s
  | .chunkReport core chan link => Sys2Proof.Machine.execChunkReport core chan link s
  | .contributionArrival rec member => Sys2Proof.Machine.execContributionArrival rec member s
  | .memberDeath rec member => Sys2Proof.Machine.execMemberDeath rec member s
  | .kWrite rec k => Sys2Proof.Machine.execKWrite rec k s
  | .gateEnter gid => Sys2Proof.Machine.execGateEnter gid s
  | .gateReturn gid => Sys2Proof.Machine.execGateReturn gid s
  | .gateDeadline gid => Sys2Proof.Machine.execGateDeadline gid s
  | .ctxLoad port => Sys2Proof.Machine.execCtxLoad port s
  | .tlbInval port => Sys2Proof.Machine.execTlbInval port s
  | .harvest port => Sys2Proof.Machine.execHarvest port s
  | .ctxPreempt port => Sys2Proof.Machine.execCtxPreempt port s
  | .ctxResume port => Sys2Proof.Machine.execCtxResume port s
  | .ctxKill port => Sys2Proof.Machine.execCtxKill port s
  | .groupRelease port => Sys2Proof.Machine.execGroupRelease port s
  | .faultDone port => Sys2Proof.Machine.execFaultDone port s
  | .syscDone port => Sys2Proof.Machine.execSyscDone port s
  | .lqSet port => Sys2Proof.Machine.execLqSet port s
  | .lqReset port => Sys2Proof.Machine.execLqReset port s
  | .icacheInval port => Sys2Proof.Machine.execIcacheInval port s
  | .unknownCommand port => Sys2Proof.Machine.execUnknownCommand port s
  | .slDirpaWrite slice value => Sys2Proof.Machine.execSlDirpaWrite slice value s
  | .slDiridxWrite slice value => Sys2Proof.Machine.execSlDiridxWrite slice value s
  | .slDirent0Read slice => Sys2Proof.Machine.execSlDirent0Read slice s
  | .hubRegisterWrite off bytes value => Sys2Proof.Machine.execHubRegisterWrite off bytes value s
  | .hostHotReset => Sys2Proof.Machine.execHostHotReset s
  | .hostLinkTimeout => Sys2Proof.Machine.execHostLinkTimeout s
  | .deviceLost dev => Sys2Proof.Machine.execDeviceLost dev s
  | .deviceReset => Sys2Proof.Machine.execDeviceReset s
  | .powerGood bist => Sys2Proof.Machine.execPowerGood bist s
  | .fullServiceMove => Sys2Proof.Machine.execFullServiceMove s
  | .islandClockSet island mhz => Sys2Proof.Machine.execIslandClockSet island mhz s
  | .nvmeSubmission lease cmd => Sys2Proof.Machine.execNvmeSubmission lease cmd s
  | .nvmeCompletion lease => Sys2Proof.Machine.execNvmeCompletion lease s
  | .flashRequest ring => Sys2Proof.Machine.execFlashRequest ring s
  | .flashCompletion ring entry => Sys2Proof.Machine.execFlashCompletion ring entry s
  | .ethernetFrame port ring tx frame => Sys2Proof.Machine.execEthernetFrame port ring tx frame s
  | .getVersion req => Sys2Proof.Machine.execGetVersion req s
  | .getCapabilities req => Sys2Proof.Machine.execGetCapabilities req s
  | .negotiateAlgorithms req => Sys2Proof.Machine.execNegotiateAlgorithms req s
  | .getDigests req => Sys2Proof.Machine.execGetDigests req s
  | .getCertificate req => Sys2Proof.Machine.execGetCertificate req s
  | .challenge req => Sys2Proof.Machine.execChallenge req s
  | .getMeasurements req => Sys2Proof.Machine.execGetMeasurements req s
  | .traceGapWrite core => Sys2Proof.Machine.execTraceGapWrite core s
  | .granuleHoldExpiry granule => Sys2Proof.Machine.execGranuleHoldExpiry granule s
  | .linkRetrain width rate => Sys2Proof.Machine.execLinkRetrain width rate s
  | .fabricLinkFailure link noRoute => Sys2Proof.Machine.execFabricLinkFailure link noRoute s
  | .migrationRequest core ctx rec => Sys2Proof.Machine.execMigrationRequest core ctx rec s
  | .fenceRwRw sysCore => Sys2Proof.Machine.execFenceRwRw sysCore s
  | .monarmComplete gid => Sys2Proof.Machine.execMonarmComplete gid s
  | .cinvComplete gid => Sys2Proof.Machine.execCinvComplete gid s
  | .meetingStatusReturn op => Sys2Proof.Machine.execMeetingStatusReturn op s
  | .tileOperationComplete op => Sys2Proof.Machine.execTileOperationComplete op s
  | .dbgTrselWrite core value => Sys2Proof.Machine.execDbgTrselWrite core value s
  | .mctpFailureReport bus => Sys2Proof.Machine.execMctpFailureReport bus s

end Sys2Proof.Machine
end

