-- ==== Sys2Proof/Machine/Run.lean ====
section
/-! DEFINITION. Machine/Run.lean: what a step does next. The state's agenda says it; with an empty agenda the machine
goes on by a fixed rule (log 7): what is pending completes first, then the group that has been ready for longest issues.
The passing of time, and where a word is placed so that the next step runs it. -/

namespace Sys2Proof.Machine

/-! ### The copies of the Regulator (R64) -/

/-- A copy of the Regulator slews: that of a cluster, of a slice with its Chime unit (from 96 on in the slices of other devices), or of
the hub's engines. It lags by at most 2 ticks in the device and 16 in the domain, and never reads less than before. (DESIGN CHOICE, log 16) -/
def State.slew (s : State) (kind unit lag : Nat) : State :=
  let lag := min lag (if kind = 1 ∧ unit ≥ 96 then 16 else 2)
  match kind with
  | 0 => { s with lagCl := mput s.lagCl unit (min lag (mget 0 s.lagCl unit + 1)) }
  | 1 => { s with lagSl := mput s.lagSl unit (min lag (mget 0 s.lagSl unit + 1)) }
  | _ => { s with lagHub := min lag (s.lagHub + 1) }

/-- Arithmetic clocks that can pass before a ready group of an active set must have issued (R40). -/
def State.clkRoom (s : State) (c : Nat) : Nat :=
  s.groups.foldl (fun c e => if !e.2.served && s.isReady e.1 e.2 then min c (e.2.readyAt + 16384 - s.clk) else c) c

/-! ### Actions -/

/-- Issue instruction `i`, with its trace records. (R41, R376) -/
def State.runIssue (s : State) (i : Instr) (paired : Bool) : Out :=
  match s.cur with
  | none => .next s
  | some c =>
    let cands := match s.grp? c.gid with | some g => g.candidates | none => 0
    match exec i s with
    | .next t => .next (t.issued c cands (s.actOf c i) (match i.hdr with | some h => h.uni | none => false) paired)
    | o => o

/-- The group that shares the slot of an issue issues the same instruction (R41). -/
def pairUp (o : Out) (other : Option Nat) : Out :=
  match o, other with
  | .next t, some gid =>
    match t.attemptOf gid with
    | .go j t => t.runIssue j true
    | _ => .next t
  | o, _ => o

/-- Perform one action of the schedule. A lane instruction comes about only by an issue. (DESIGN CHOICE, log 7) -/
def State.act (s : State) (a : Action) : Out :=
  match a with
  | .pass t c => .next (s.pass t (s.clkRoom c))
  | .event i => if i.hdr.isSome then .next s else exec i s
  | .slew k u lag => .next (s.slew k u lag)
  | .sysAccess core kind key width data data2 => .next (s.sysAccess core kind key width data data2)
  | .hubRead core off bytes => .next (s.sysAccess core .load (hubBase + off) bytes 0 0)
  | .hostAccess kind key width data data2 => .next (s.hostAccess kind key width data data2)
  | .routeBack dev => .next (s.routeBack dev)
  | .issue gid =>
    match s.attempt gid with
    | .wait => .next s
    | .stopped s => .next s
    | .go i s =>
      let other := s.cur.bind (fun c => s.partner c i)
      pairUp (s.runIssue i other.isSome) other

/-! ### The rule of an empty agenda -/

/-- Groups in the order in which they became ready (R40). -/
def State.byAge (s : State) : List Nat :=
  (s.groups.foldl (fun l e => insertBy (fun (p : Nat × Nat) => p.1) (e.2.readyAt, e.1) l) []).map (·.2)

/-- What may happen to an outstanding operation. -/
def opSteps (e : Nat × Op) : List (State → Out) :=
  match e.2.kind with
  | .mem _ as => as.map (fun a => execHomeRequest e.1 a.lane) ++ [execLoadDataArrival e.1, execStoreCommitReport e.1]
  | .queue _ => [execHomeRequest e.1 0]
  | .reply _ _ _ _ _ => [execLoadDataArrival e.1, execStoreCommitReport e.1, execMeetingStatusReturn e.1]
  | .lnch _ _ _ => [execLnchAppend e.1]
  | .tile _ _ => [execTileOperationComplete e.1]
  | .seqop _ => [fun s => execSeqOpComplete (match s.grp? e.2.gid with | some g => g.gang | none => 0) e.1 s]
  | .mcont _ _ m => [execContributionArrival m.meet m.member]
  | .mrslt _ _ _ _ _ _ (some _) => [execMeetingStatusReturn e.1]
  | .copy _ | .mrslt _ _ _ _ _ _ none => []

/-- A group or sequencer as the waits of the matrix engine name it. -/
def whoOf (e : Nat × Group) : Who := if e.2.isSeq then .seq e.2.gang else .grp e.1

/-- What may end a group's block. -/
def blockSteps (e : Nat × Group) : List (State → Out) :=
  match e.2.block with
  | .none | .gret | .queue _ => []
  | .sysc => if e.2.frames.any (fun f => f.kern && f.req == 0) then [execGateEnter e.1] else []
  | .walk _ => [execWalkEnd e.1]
  | .verdict _ => [execLabelVerdict e.1]
  | .stack op _ => [execLoadDataArrival op, execLabelVerdict e.1]
  | .fence _ _ | .release _ _ _ | .amdone _ _ => [execFenceComplete e.1]
  | .wait _ _ _ _ _ _ => [execWaitReturn e.1]
  | .monarm _ _ _ => [execMonarmComplete e.1]
  | .mwait _ _ _ => [execMwaitTimeout e.1]
  | .cinv _ _ => [execCinvComplete e.1]
  | .bowait _ _ _ _ => [execBowaitReturn e.1, execBowaitTimeout e.1]
  | .grow _ _ _ _ _ => [execGrowGrant e.2.core, execGrowTimeout e.1]
  | .tile _ _ _ _ _ | .seqop _ _ _ | .twait _ _ _ _ _ => [execTileStateReached (whoOf e), execTileWait (whoOf e)]
  | .sqwait _ _ _ _ _ _ _ => [execSqwaitReturn (whoOf e), execSqwaitTimeout (whoOf e)]
  | .sqsig _ _ _ => [execSqsigAdd (whoOf e)]
  | .meet op _ => [execMeetingStatusReturn op]
  | .unwind _ _ _ _ => [execGateDeadline e.1]

/-- What may happen to a group besides its issues. -/
def groupSteps (e : Nat × Group) : List (State → Out) :=
  blockSteps e
  ++ (if e.2.fences.isEmpty then [] else [execFenceComplete e.1])
  ++ (if e.2.frames.isEmpty then [] else [execGateReturn e.1, execGateDeadline e.1])
  ++ (if e.2.gcall.isSome then [execGateEnter e.1] else [])
  ++ (if e.2.trapq.isEmpty then [] else [execTrapDelivery e.1])
  ++ e.2.log.map (fun x => execOperandLogReissue e.1 x.1)
  ++ (if e.2.over then [execGroupEnd e.1] else [])
  ++ (if e.2.starved = 0 then [] else [execStarvationGuard e.1])
  ++ (if e.2.active then [] else [execPendingDisplace e.1])

/-- Pending groups change places with blocked ones (R38). -/
def State.swapSteps (s : State) : List (State → Out) :=
  (s.groups.filter (fun e => !e.2.active)).flatMap (fun b =>
    (s.groups.filter (fun a => a.2.active && samePart a.2 b.2)).map (fun a => execGroupSwap a.1 b.1))

/-- What may happen at a core. -/
def coreSteps (e : Nat × CoreSt) : List (State → Out) :=
  (if e.2.queue.isEmpty then [] else [execSeqOpExecute e.1])
  ++ e.2.chans.flatMap (fun c => if c.2.reqs.isEmpty then [] else [execCopyStart e.1 c.1, execChunkReport e.1 c.1 .ok])
  ++ (if e.2.chans.any (fun c => !c.2.reqs.isEmpty) then [execChunkArbitration e.1] else [])
  ++ (if e.2.dbg.gap.isSome then [execTraceGapWrite e.1] else [])

/-- What may happen to copies, delegations, closing regions, parked requests and granules. -/
def State.homeSteps (s : State) : List (State → Out) :=
  s.copies.flatMap (fun c => (if c.inval then [execInvalidationAck c.line c.agent] else [])
    ++ (if c.msgs.isEmpty then [] else [execTimedUpdate c.agent (s.homeSlice (128 * c.line))])
    ++ (if c.acks = 0 then [] else [execExtensionAck (c.line / 8) c.agent]))
  ++ (s.deleg.filter (fun d => d.recalled)).map (fun d => execRecallReturn d.line)
  ++ (s.dir.filter (fun e => e.2.closing.isSome)).map (fun e => execReopen e.1)
  ++ s.ops.flatMap (fun e => e.2.accs.flatMap (fun a => match a.st with | .replay t => [execReplayWake (s.homeSlice a.key) t] | _ => []))
  ++ s.host.grans.flatMap (fun g => (if g.2.xfer.isSome then [execOwnershipTransfer g.1] else []) ++ (if g.2.want then [execGranuleHoldExpiry g.1] else []))
  ++ s.slices.flatMap (fun x => (if x.2.ovf.isEmpty then [] else [execOverflowFetch x.1])
    ++ (x.2.qd.filter (fun q => q.2.en && q.2.am)).map (fun q => execAmDispatch x.1 q.1))
  ++ (s.dir.filter (fun e => e.2.label == .pc)).map (fun e => execLeaseExtension e.1)

/-- What may happen on the links: accesses over a link that stays down fail. -/
def State.linkSteps (s : State) : List (State → Out) :=
  (if s.host.up then [] else [execHostLinkTimeout]) ++ s.noRoute.map (fun e => execDeviceLost e.1)

/-- The commands of a port. -/
def portSteps (p : Nat) : List (State → Out) :=
  [execCtxLoad p, execTlbInval p, execHarvest p, execCtxPreempt p, execCtxResume p, execCtxKill p, execGroupRelease p, execFaultDone p,
   execSyscDone p, execLqSet p, execLqReset p, execIcacheInval p, execUnknownCommand p]

/-- A place for a gang: the first cluster that takes one, and the first of its cores that take a team. -/
def State.onePlace (s : State) (r : LRec) : Option Place :=
  (s.clustersUp.find? (fun c => decide (1 ≤ s.clusterTakes r c))).map (fun c =>
    { cluster := c, cores := ((coresOf c).filter (fun k => decide (1 ≤ s.coreTakes r k))).take r.teams })

/-- Places for some gangs of a launch, one after another. -/
def State.somePlaces (s : State) (id : Nat) : Nat → List Place
  | 0 => []
  | n + 1 =>
    match mfind s.launches id with
    | none => []
    | some l =>
      match s.onePlace l.lr with
      | none => []
      | some p => p :: (s.startGang id l p).somePlaces id n

/-- A read of a queue or event word by the scheduler, which looks again from time to time. -/
def scheduled (tag : Nat × Nat) (f : State → Out) (s : State) : Out :=
  if s.ops.any (fun e => e.2.askOf tag) ∨ s.clk % 2048 = (512 * tag.1 + tag.2) % 2048 then f s else .next s

/-- What may happen to launch queues, launches and contexts. A context is restored where it was. -/
def State.launchSteps (s : State) : List (State → Out) :=
  s.lqs.flatMap (fun e => match e.2.cur with
    | none => [scheduled (takeTag e.1) (execLaunchRecordDequeue e.1)]
    | some id => [scheduled (depTag e.1 0) (execDependenceMet e.1 0), scheduled (depTag e.1 1) (execDependenceMet e.1 1),
        fun s => execGangAdmit e.1 (match mfind s.launches id with | some l => s.somePlaces id l.wants | none => []) s])
  ++ s.launches.map (fun e => execLaunchComplete e.1)
  ++ s.departs.map (fun d => execMemberDeath d.meet d.member)
  ++ (s.ctxs.filter (fun c => c.2.stopping)).map (fun c => execPreemptSave c.1)
  ++ (s.ctxs.filter (fun c => c.2.out && (c.2.eligible || c.2.killing))).map (fun c => fun s => execContextRestore c.1
      ((s.gangs.filter (fun k => k.2.ctx == c.1)).map (fun k => { cluster := k.2.cluster, cores := k.2.teams.map (fun t => t.core) })) s)
  ++ (if s.mgmt.moving then [execFullServiceMove] else [])

/-- What is pending with an empty agenda: the events of operations, groups, cores, home slices, links, command ports and launches, then
the issues. -/
def State.pending (s : State) : List (State → Out) :=
  s.ops.flatMap opSteps ++ s.groups.flatMap groupSteps ++ s.cores.flatMap coreSteps ++ s.homeSteps ++ s.linkSteps
  ++ (s.hub.ports.filter (fun p => !p.2.queue.isEmpty)).flatMap (fun p => portSteps p.1) ++ s.launchSteps
  ++ s.byAge.map (fun gid s => s.act (.issue gid)) ++ s.swapSteps

/-- The first pending step that changes the machine. -/
def State.firstOf (s : State) : List (State → Out) → Out
  | [] => .next s
  | f :: fs =>
    match f s with
    | .next t => if t = s then s.firstOf fs else .next t
    | o => o

/-! ### A step -/

/-- One clock of blocking is counted for the groups of traced contexts (R376). -/
def State.countBlocked (s : State) : State :=
  if s.cores.isEmpty then s
  else { s with groups := s.groups.map (fun e =>
    if s.traced e.2 && decide (e.2.block ≠ .none) then (e.1, { e.2 with trBlocked := e.2.trBlocked + 1 }) else e) }

/-- Groups that are not ready are ready from the next clock on at the earliest (R40). -/
def State.ageReady (s : State) : State :=
  { s with groups := s.groups.map (fun e =>
      if e.2.isSeq || s.isReady e.1 e.2 then e else (e.1, { e.2 with readyAt := s.clk + 1, served := false })) }

/-- What comes with a step: meetings see a K that the step has written (R316), and a tick of the Regulator and a clock pass (R64).
(DESIGN CHOICE, log 16) -/
def State.afterStep (s : State) : State :=
  let s := s.settleK.ageReady.countBlocked
  s.pass 1 (s.clkRoom 1)

/-- A step's outcome with what comes with a step. -/
def tick (o : Out) : Out :=
  match o with
  | .next s => .next s.afterStep
  | o => o

/-- What the next step does. -/
def State.stepOut (s : State) : Out :=
  match s.agenda with
  | a :: rest => tick (({ s with agenda := rest }).act a)
  | [] => tick (s.firstOf s.pending)

/-! ### Placing a word for the next step -/

/-- The address at which `withFetchWord` places its word. -/
def placePc : DWord := 0x1000

/-- The 64 bytes of a code block whose first slot holds a word. -/
def placeBlock (w : Nat) : List Byte := bytesOf 12 w ++ List.replicate 52 0

/-- A context, a launch, a gang and a group of 32 lanes (or a sequencer) that issue the word at `placePc` in the next
step: the context's heap window maps the first 2^39 bytes to themselves, no other group of the partition is active, and no breakpoint of
the core is enabled. -/
def State.placed (s : State) (w : Nat) : State :=
  let n := s.nextId
  let seq := match decodeAny w with | some (q, _) => q | none => false
  let g : Group := { isSeq := seq, ctx0 := 1, ctx := 1, launch := n, gang := n + 1, nregs := 512, sregs := if seq then 64 else 384,
                     gmap := List.range 64, readyAt := s.clk, activeAt := s.clk,
                     lanes := if seq then { pc := placePc } :: List.replicate 31 { st := .exited } else List.replicate 32 { pc := placePc } }
  let s := if (s.core 0).dbg.bpctl = 0 then s else s.updCore 0 (fun c => { c with dbg := { c.dbg with bpctl := 0 } })
  { s with
    mem := msets byteZero s.mem placePc.toNat (placeBlock w),
    icache := s.icache.filter (fun e => !(e.cluster == 0 && e.ctx == 1 && e.va == placePc.toNat)),
    ctxs := mput s.ctxs 1 { (mget {} s.ctxs 1) with hwBase := 0, hwLimit := 2 ^ 39, hwOffset := 0, hwPerm := 7, out := false, stopping := false, killing := false },
    launches := mput s.launches n { ctx := 1 },
    gangs := mput s.gangs (n + 1) { launch := n, teams := [{ scratch := 65536, grans := (List.range 64).map (· + 64) }], seq := if seq then some (n + 2) else none },
    groups := mput (s.groups.map (fun e => if samePart e.2 g then (e.1, { e.2 with active := false }) else e)) (n + 2) g,
    agenda := .issue (n + 2) :: s.agenda,
    nextId := n + 3 }

end Sys2Proof.Machine
end

