-- ==== Sys2Proof/Machine/Step.lean ====
section
/-! DEFINITION. Machine/Step.lean: one step of the machine, and a state whose next step runs a given word. -/

namespace Sys2Proof.Machine

/-- One step: the next action of the schedule, and one tick. -/
def step (s : State) : Host.Outcome State Fault Refusal := s.stepOut

/-- The state with an instruction of `nbits` bits stored where the next step fetches and runs it (DESIGN CHOICE, log 8). -/
def State.withFetchWord (s : State) (nbits w : Nat) : State := s.placed (w % 2 ^ nbits)

end Sys2Proof.Machine
end

