-- ==== Sys2Proof/Safety.lean ====
section
/-! DEFINITION. Safety.lean: the terms in which claims are stated: a sound state, what an instruction writes in its group, and
what a step leaves unchanged. -/

namespace Sys2Proof

open Machine

/-- Memory lists its bytes in rising order, none of them equal to what an unlisted byte reads as. -/
def Sound (s : State) : Prop := s.memWf = true

/-! ### Registers -/

/-- Register `vk` of lane `l` (R129). -/
def vReg (g : Group) (k l : Nat) : Word := mget 0 g.v (32 * k + l)
/-- Scalar register `sk` (R134). -/
def sReg (g : Group) (k : Nat) : Word := mget 0 g.sc k
/-- Bit of lane `l` of predicate `k`; pt reads 1 (R135). -/
def pBit (g : Group) (k l : Nat) : Bool := (g.pred k).getLsbD l
/-- Word `j` of a result of several registers, the lowest first (R88). -/
def wordOf (r j : Nat) : Word := BitVec.ofNat 32 (r / 2 ^ (32 * j))

/-- The number that a finite floating-point value is. -/
def ratOf : FVal → ℚ
  | .fin neg m e => (if neg then -1 else 1) * m * 2 ^ e
  | _ => 0

/-! ### Rounding (R84, R89–R91) -/

/-- The magnitude of code `k` of format `ty`, its sign bit clear. -/
def magOf (ty : Ty) (k : Nat) : ℚ := ratOf (fval ty k)

/-- Whether mode `rnd` takes a magnitude of sign `neg` to the next one away from zero (R89). -/
def upward (rnd : Rnd) (neg : Bool) : Bool :=
  match rnd with
  | .rm => neg
  | .rp => !neg
  | _ => false

/-- Code `k` is what mode `rnd` makes of magnitude `v` of sign `neg`, among the finite codes of format `ty` (R89): the nearest, the even
one of two that are equally near, under .rn; else the nearest that does not lie on the other side. -/
def Nearest (ty : Ty) (rnd : Rnd) (neg : Bool) (v : ℝ) (k : Nat) : Prop :=
  if rnd = .rn then
    ∀ j, j ≤ Ty.maxCode ty → |v - magOf ty k| ≤ |v - magOf ty j| ∧ (|v - magOf ty k| = |v - magOf ty j| → j ≠ k → k % 2 = 0)
  else if upward rnd neg then v ≤ magOf ty k ∧ ∀ j, j ≤ Ty.maxCode ty → v ≤ magOf ty j → magOf ty k ≤ magOf ty j
  else magOf ty k ≤ v ∧ ∀ j, j ≤ Ty.maxCode ty → (magOf ty j : ℝ) ≤ v → magOf ty j ≤ magOf ty k

/-- Integer `j` is what mode `rnd` makes of magnitude `v` of sign `neg` (R89, R92, R163). -/
def NearestInt (rnd : Rnd) (neg : Bool) (v : ℚ) (j : Nat) : Prop :=
  if rnd = .rn then ∀ k : Nat, |v - j| ≤ |v - k| ∧ (|v - j| = |v - k| → k ≠ j → j % 2 = 0)
  else if upward rnd neg then v ≤ j ∧ ∀ k : Nat, v ≤ k → j ≤ k
  else (j : ℚ) ≤ v ∧ ∀ k : Nat, (k : ℚ) ≤ v → k ≤ j

/-- Magnitude `v` of sign `neg`, rounded with an unbounded exponent, lies beyond the greatest finite one of format `ty` (Table 5-4, OF). -/
def Beyond (ty : Ty) (rnd : Rnd) (neg : Bool) (v : ℝ) : Prop :=
  let max : ℝ := magOf ty (Ty.maxCode ty)
  let step : ℝ := 2 ^ (Ty.emax ty - Ty.mant ty)
  if rnd = .rn then (if Ty.maxCode ty % 2 = 0 then max + step / 2 < v else max + step / 2 ≤ v)
  else if upward rnd neg then max < v else max + step ≤ v

/-- Magnitude `v` of sign `neg`, rounded with an unbounded exponent, lies below the least normal value: tininess after rounding (R89). -/
def Tiny (ty : Ty) (rnd : Rnd) (neg : Bool) (v : ℝ) : Prop :=
  let least : ℝ := 2 ^ Ty.emin ty
  let step : ℝ := 2 ^ (Ty.emin ty - 1 - Ty.mant ty)
  if rnd = .rn then v < least - step / 2 else if upward rnd neg then v ≤ least - step else v < least

/-- `r` is the value of sign `neg` and magnitude `v` rounded once into format `ty`, and the flags of that (R89, R90, Table 5-5): beyond the
greatest finite value the result of the mode or of .sat, else the code that the mode chooses, with NX when it is inexact and UF when it is
tiny as well. -/
structure Rounded (ty : Ty) (rnd : Rnd) (ovf : Ovf) (neg : Bool) (v : ℝ) (r : Bits) : Prop where
  beyond : Beyond ty rnd neg v → r = match ovf with
    | .sat => (Ty.signBit ty neg + Ty.maxCode ty, fSAT ||| fOF ||| fNX)
    | .nan => (if rnd = .rn ∨ upward rnd neg = true then (if ty = .e4m3 then 0x7F else Ty.signBit ty neg + (Ty.maxCode ty + 1))
               else Ty.signBit ty neg + Ty.maxCode ty, fOF ||| fNX)
  within : ¬ Beyond ty rnd neg v → ∃ k, k ≤ Ty.maxCode ty ∧ r.1 = Ty.signBit ty neg + k ∧ Nearest ty rnd neg v k ∧
    ((magOf ty k : ℝ) = v → r.2 = 0) ∧
    ((magOf ty k : ℝ) ≠ v → (Tiny ty rnd neg v → r.2 = fUF ||| fNX) ∧ (¬ Tiny ty rnd neg v → r.2 = fNX))

/-- The result of an FP32 or FP64 operation: rounded as above, and a subnormal one flushed to the zero of its sign under .ftz, which sets
UF and NX (R89, R158). -/
def Flushed (ty : Ty) (rnd : Rnd) (ftz neg : Bool) (v : ℝ) (r : Bits) : Prop :=
  ∃ x : Bits, Rounded ty rnd .nan neg v x ∧
    if ftz = true ∧ isSubnormal ty x.1 = true then r = (Ty.signBit ty neg, x.2 ||| fUF ||| fNX) else r = x

/-! ### What one instruction writes -/

/-- The lanes an instruction executes for: those of Active, or once for the run's lowest lane (R103). -/
def Executes (x : Issue) (l : Nat) : Prop := x.act ≠ 0 ∧ if x.once then l = x.lead else x.act.getLsbD l

/-- Register `vk` of lane `l` after destination `d` of `w` words took result `f` (R103, R139): lanes of Active take it, `.z` writes
zero in the others, and an empty Active writes nothing. -/
def vAfter (x : Issue) (d : Opnd) (w : Nat) (z : Bool) (f : Nat → Nat) (k l : Nat) : Word :=
  match d with
  | .v b =>
    if x.act ≠ 0 ∧ b ≤ k ∧ k < b + w then
      if x.act.getLsbD l then wordOf (f l) (k - b) else if z then 0 else vReg x.g k l
    else vReg x.g k l
  | _ => vReg x.g k l

/-- Scalar `sk` after destination `d` took result `f` of the run's lowest lane (R103). -/
def sAfter (x : Issue) (d : Opnd) (w : Nat) (f : Nat → Nat) (k : Nat) : Word :=
  match d with
  | .s b => if x.act ≠ 0 ∧ b ≤ k ∧ k < b + w then wordOf (f x.lead) (k - b) else sReg x.g k
  | _ => sReg x.g k

/-- Predicate `k` at lane `l` after predicate `pd` took bits `b`: those of Active, or all alike where the instruction executes
once (R135, R145). pt discards the write. -/
def pAfter (x : Issue) (pd : Nat) (b : Nat → Bool) (k l : Nat) : Bool :=
  if k = pd ∧ pd < 15 ∧ x.act ≠ 0 then
    if x.once then b x.lead else if x.act.getLsbD l then b l else pBit x.g k l
  else pBit x.g k l

/-- The poison keys that a write of destination `d` clears (R217). -/
def Cleared (x : Issue) (d : Opnd) (w : Nat) (z : Bool) (key : Nat) : Prop :=
  match d with
  | .v b => x.act ≠ 0 ∧ ∃ j l, j < w ∧ l < 32 ∧ key = 32 * (b + j) + l ∧ (x.act.getLsbD l = true ∨ z = true)
  | .s b => x.act ≠ 0 ∧ ∃ j, j < w ∧ key = 32 * (512 + b + j)
  | _ => False

/-- The run has advanced by one slot and no other lane has moved (R103). -/
structure Stepped (g g' : Group) (run : Word) : Prop where
  length : g'.lanes.length = g.lanes.length
  lane : ∀ l, l < g.lanes.length →
    g'.lane l = if run.getLsbD l then { g.lane l with pc := nextPc (g.lane l).pc } else g.lane l

/-- The lanes of Active have become `f`, the other lanes of the run have advanced by one slot, and nothing else of the group has changed. -/
structure Moved (x : Issue) (g' : Group) (f : Nat → Lane) : Prop where
  length : g'.lanes.length = x.g.lanes.length
  lane : ∀ l, l < x.g.lanes.length → g'.lane l =
    if x.act.getLsbD l then f l else if x.run.getLsbD l then { x.g.lane l with pc := nextPc (x.g.lane l).pc } else x.g.lane l
  rest : { g' with lanes := x.g.lanes } = x.g

/-- All that an instruction which writes result `f` to `d`, bits `b` to predicate `pd` and flags `fl` does to its group. -/
structure Effect (x : Issue) (g' : Group) (d : Opnd) (w : Nat) (z : Bool) (f : Nat → Nat) (pd : Nat) (b : Nat → Bool)
    (fl : Nat → Flags) : Prop where
  vregs : ∀ k l, l < 32 → vReg g' k l = vAfter x d w z f k l
  sregs : ∀ k, sReg g' k = sAfter x d w f k
  preds : ∀ k l, l < 32 → pBit g' k l = pAfter x pd b k l
  flags : ∀ n, g'.fpflags.getLsbD n = true ↔ x.g.fpflags.getLsbD n = true ∨ ∃ l, Executes x l ∧ (fl l).getLsbD n = true
  cleared : ∀ key, Cleared x d w z key → mfind g'.poison key = none
  poison : ∀ key, ¬ Cleared x d w z key → mfind g'.poison key = mfind x.g.poison key
  stepped : Stepped x.g g' x.run
  rest : { g' with v := x.g.v, sc := x.g.sc, p := x.g.p, fpflags := x.g.fpflags, poison := x.g.poison, lanes := x.g.lanes } = x.g

/-- Between `s` and `t` group `gid` has become `g'` and nothing else has changed: no other group, no byte of memory and no other
piece of state. -/
structure OnlyGroup (s t : State) (gid : Nat) (g' : Group) : Prop where
  rest : { t with groups := s.groups } = s
  group : t.grp? gid = some g'
  others : ∀ j, j ≠ gid → t.grp? j = s.grp? j

/-- Instruction `i` executes: wherever its checks let it (`State.issueOf`), it answers a next state in which its group alone has
changed, by the writes given: result `f` in `d`, and flags `fl`. -/
def Writes (i : Instr) (helpers : Bool) (d : Opnd) (w : Nat) (z : Bool) (f : State → Issue → Nat → Nat)
    (fl : Issue → Nat → Flags) : Prop :=
  ∀ s x, s.issueOf i helpers = .go x →
    ∃ t g', exec i s = .next t ∧ OnlyGroup s t x.gid g' ∧ Effect x g' d w z (f s x) 15 (fun _ => false) (fl x)

/-- The same for an instruction that raises no flag. -/
abbrev WritesOnly (i : Instr) (helpers : Bool) (d : Opnd) (w : Nat) (z : Bool) (f : State → Issue → Nat → Nat) : Prop :=
  Writes i helpers d w z f (fun _ _ => 0)

/-- The same for an instruction that writes predicate `pd`. -/
def WritesPred (i : Instr) (helpers : Bool) (pd : Nat) (b : Issue → Nat → Bool) (fl : Issue → Nat → Flags) : Prop :=
  ∀ s x, s.issueOf i helpers = .go x →
    ∃ t g', exec i s = .next t ∧ OnlyGroup s t x.gid g' ∧ Effect x g' .z 0 false (fun _ => 0) pd (b x) (fl x)

/-- The window of group `gid`, which was `g`, has grown to at least `n` registers by the granules `gs` (R130, R131): predicate `p` is all
ones, lanes `lanes` have advanced, and the group is not blocked. The granules were free, the lines of L1 that stood in them are dropped
(R128), and registers that held nothing read zero. -/
structure Grown (s t : State) (gid : Nat) (g : Group) (n p : Nat) (lanes : Word) (g' : Group) (gs : List Nat) : Prop where
  rest : { t with groups := s.groups, cores := s.cores } = s
  group : t.grp? gid = some g'
  others : ∀ j, j ≠ gid → t.grp? j = s.grp? j
  cores : ∀ c, t.core c = { s.core c with l1 := if c = g.core then (s.core c).l1.filter (fun x => !(gs.contains x.gran)) else (s.core c).l1 }
  fresh : gs.Nodup ∧ ∀ e ∈ gs, e < 1024 ∧ e ∉ s.takenGrans g.core
  amount : gs.length ≤ (n - g.nregs) / 8 ∧ ((n - g.nregs) / 8 + (s.takenGrans g.core).length ≤ 1024 → gs.length = (n - g.nregs) / 8)
  nregs : g'.nregs = max g.nregs n
  gmap : g'.gmap = g.gmap ++ gs
  block : g'.block = .none
  preds : ∀ k l, l < 32 → pBit g' k l = if k = p ∧ p < 15 then true else pBit g k l
  stepped : Stepped g g' lanes
  zero : (∀ k l, g.nregs ≤ k → vReg g k l = 0) → ∀ k l, g.nregs ≤ k → vReg g' k l = 0
  group_rest : { g' with nregs := g.nregs, gmap := g.gmap, p := g.p, block := g.block, lanes := g.lanes } = g

/-! ### Memory accesses (R57–R61, R197–R211) -/

/-- Address `va` translates for group `g` without a walk, to memory key `key`: by the heap window, or by a cached translation that
the tables still give (R57, R61). -/
def Translates (s : State) (g : Group) (va : DWord) (need : Need) (key : Nat) (lk mg : Bool) : Prop :=
  s.lookup (dieOf g.cluster) g.ctx va need = .hit key lk mg ∧
    ((mget {} s.ctxs g.ctx).inWindow va.toNat = true ∨
      ∃ l, s.walk g.ctx va need = .leaf l ∧ l.key + (va.toNat - l.base) = key ∧ l.lockok = lk)

/-- What an instruction of a kind leaves its group waiting for once its accesses have been sent: `lk` says whether a lane's page
permits locked labels (R206, R210, R216); an acquire then waits for its fence, past its instruction (R69). -/
def blockAfter (m : MemDesc) (lk : Bool) (id : Nat) (run : Word) : Block :=
  match m.kind with
  | .monarm => .monarm id 0 run
  | .cinv => .cinv id run
  | .lblset _ => .verdict id
  | k => if k.isData && lk then .verdict id else if k.isData && (m.ord = .acq || m.ord = .ar) then .fence m.scope 0 else .none

/-- No delta of a cluster waits in its cache or is on its way home (R68, R71). -/
def NoDeltas (s : State) (cluster : Nat) : Prop :=
  (∀ d ∈ s.deltas, d.cluster ≠ cluster) ∧ ∀ e ∈ s.ops, e.2.cluster = cluster → e.2.isPush = false

/-- A group has sent a memory instruction: operation `s.nextId` holds its accesses, counted on its class (R15, R16); the run has
advanced unless the group waits at the instruction. Nothing else has changed but the issuing core's L1 and the cluster's clean copies of
lines that are written, which are dropped (R201). -/
structure Sent (s t : State) (x : Issue) (m : MemDesc) (as : List Acc) (b : Block) (g' : Group) : Prop where
  op : mfind t.ops s.nextId = some { gid := x.gid, cls := m.cls, pos := (match m.cls with | none => 0 | some k => (x.g.cnt.get k).next),
                                     ctx := x.g.ctx, cluster := x.g.cluster, core := x.g.core, kind := .mem m as }
  ops : ∀ k, k ≠ s.nextId → mfind t.ops k = mfind s.ops k
  next : t.nextId = s.nextId + 1
  rest : { t with groups := s.groups, ops := s.ops, nextId := s.nextId, copies := s.copies, cores := s.cores } = s
  kept : m.kind.isWrite = false ∨ m.combines.isSome = true → t.copies = s.copies ∧ t.cores = s.cores
  copies : t.copies.map (fun c => { c with held := false }) = s.copies.map (fun c => { c with held := false })
  cores : ∀ c, { t.core c with l1 := (s.core c).l1 } = s.core c ∧ (c ≠ x.g.core → t.core c = s.core c) ∧
    ∀ y, y ∈ (t.core c).l1 ↔ y ∈ (s.core c).l1 ∧
      ¬ (c = x.g.core ∧ m.kind.isWrite = true ∧ m.combines = none ∧ ∃ a ∈ as, lineOf a.key = y.line)
  group : t.grp? x.gid = some g'
  others : ∀ j, j ≠ x.gid → t.grp? j = s.grp? j
  block : g'.block = b
  count : g'.cnt = match m.cls with | none => x.g.cnt | some k => x.g.cnt.set k (x.g.cnt.get k).issue
  stepped : if b = .none ∨ b = .fence m.scope 0 then Stepped x.g g' x.run else g'.lanes = x.g.lanes
  group_rest : { g' with lanes := x.g.lanes, cnt := x.g.cnt, block := x.g.block } = x.g

/-- Instruction `i` sends its accesses: wherever its checks let it and its addresses are canonical, aligned to `align`, translated
without a walk and not watched, it answers a next state with the operation that holds one access for each of `lanes`: address
`va`, key `key` and data as given. A release's fence has nothing to wait for. -/
def Sends (i : Instr) (helpers : Bool) (m : Issue → MemDesc) (align : Nat) (base : Opnd) (w64 : Bool) (off : Nat)
    (dat : Issue → Nat → Nat × Nat) : Prop :=
  ∀ (s : State) (x : Issue) (key : Nat → Nat) (lk mg : Nat → Bool), s.issueOf i helpers = .go x → x.act ≠ 0 → x.reissue = none →
    x.g.block = .none → (mget {} s.cores x.g.core).dbg.wpctl = 0 →
    let lanes := if (m x).uni then [lowestLane x.act] else lanesOf x.act
    let va := fun (l : Nat) => BitVec.ofNat 64 (x.g.opnd base (if w64 then 2 else 1) l + off)
    (∀ l ∈ lanes, canonical (va l) = true ∧ (va l).toNat % align = 0 ∧ Translates s x.g (va l) (m x).kind.need (key l) (lk l) (mg l)) →
    ((m x).kind = .lblset true → ∀ l ∈ lanes, lk l = true) →
    ((m x).ord = .none ∨ NoDeltas s x.g.cluster) →
    ((m x).ord = .rel ∨ (m x).ord = .ar → s.fenceReady x.gid x.g (m x).scope = true) →
    ∃ t g', exec i s = .next t ∧
      Sent s t x (m x) (lanes.map (fun l => { lane := l, va := va l, key := key l, lockok := lk l, mig := mg l,
                                              data := (dat x l).1, data2 := (dat x l).2, st := .wait }))
        (blockAfter (m x) (lanes.any lk) s.nextId x.run) g'

/-- An operation of a group has been issued: operation `s.nextId` holds it, counted on class `k` (R15, R16); the run has advanced, and
nothing else has changed. -/
structure Counted (s t : State) (x : Issue) (k : Cls) (kind : OpKind) (g' : Group) : Prop where
  op : mfind t.ops s.nextId = some { gid := x.gid, cls := some k, pos := (x.g.cnt.get k).next, ctx := x.g.ctx, cluster := x.g.cluster,
                                     core := x.g.core, kind := kind }
  ops : ∀ j, j ≠ s.nextId → mfind t.ops j = mfind s.ops j
  next : t.nextId = s.nextId + 1
  rest : { t with groups := s.groups, ops := s.ops, nextId := s.nextId } = s
  group : t.grp? x.gid = some g'
  others : ∀ j, j ≠ x.gid → t.grp? j = s.grp? j
  count : g'.cnt = x.g.cnt.set k (x.g.cnt.get k).issue
  stepped : Stepped x.g g' x.run
  group_rest : { g' with lanes := x.g.lanes, cnt := x.g.cnt } = x.g

end Sys2Proof
end

