-- ==== Sys2Proof/Certificates/Slice0/Obligations.lean ====
section
/-! DEFINITION. Certificates/Slice0/Obligations.lean: the statements for the provers, from the numbered rules of spec/. -/

section Slice0

open Sys2Proof Sys2Proof.Machine

/-! ### Reading operands and the checks of an issue -/

/-- R105, R107, R144: what an operand supplies to lane `l`: lane `l`'s vector registers, the same scalars in every lane, zero, or the
constant; a pair has its lowest register in its low word. R88, R144: the integer that `w` bits hold is congruent to them and lies in the
range of its type.
Choices of the model that it takes part in: log 11. -/
def Obligations.OperandValues : Prop :=
  (∀ (g : Group) (k w l : Nat) (n : Int),
    g.opnd (.v k) 1 l = (vReg g k l).toNat ∧
    g.opnd (.v k) 2 l = (vReg g k l).toNat + 2 ^ 32 * (vReg g (k + 1) l).toNat ∧
    g.opnd (.s k) 1 l = (sReg g k).toNat ∧
    g.opnd (.s k) 2 l = (sReg g k).toNat + 2 ^ 32 * (sReg g (k + 1)).toNat ∧
    g.opnd .z w l = 0 ∧
    ((g.opnd (.c n) w l : Int) - n) % 2 ^ (32 * w) = 0 ∧ g.opnd (.c n) w l < 2 ^ (32 * w)) ∧
  (∀ (ty : Ty) (x : Nat), intMin ty ≤ intVal ty x ∧ intVal ty x ≤ intMax ty ∧ (intVal ty x - x) % 2 ^ ty.width = 0 ∧
    (ty.signed = true → intMin ty = -2 ^ (ty.width - 1) ∧ intMax ty = 2 ^ (ty.width - 1) - 1) ∧
    (ty.signed = false → intMin ty = 0 ∧ intMax ty = 2 ^ ty.width - 1))

/-- R103, R107, R112, R217: when the instruction of an issue executes, and for which lanes. The first operand that reaches beyond the
group's registers traps the run; else lanes of Active that read a poisoned register trap and nothing executes; else the instruction
executes with the Active that the guard gives: all of the run or none of it when it executes once. -/
def Obligations.IssueChecks : Prop :=
  ∀ (s : State) (c : Cur) (g : Group) (i : Instr) (h : Hdr) (helpers : Bool),
    s.cur = some c → s.grp? c.gid = some g → i.hdr = some h → c.reissue = none → (helpers = true → g.helper = 0) →
    let once := h.uni || g.isSeq
    let act := if once then (if (g.guardMask h.guard).getLsbD (lowestLane c.run) then c.run else 0) else c.run &&& g.guardMask h.guard
    let x : Issue := { gid := c.gid, g := g, run := c.run, act := act, once := once, lead := lowestLane c.run, pc := c.pc, word0 := c.word0,
                       reissue := none }
    ((∀ u ∈ i.opers, (∀ k, u.o = .v k → k + u.w ≤ g.nregs) ∧ (∀ k, u.o = .s k → k + u.w ≤ g.sregs)) →
      (∀ l, act.getLsbD l = true → c.run.getLsbD l = true → g.poisonRead i.opers l = none) → s.issueOf i helpers = .go x) ∧
    (∀ us u vs, i.opers = us ++ u :: vs →
      (∀ v ∈ us, (∀ k, v.o = .v k → k + v.w ≤ g.nregs) ∧ (∀ k, v.o = .s k → k + v.w ≤ g.sregs)) →
      (∀ k, u.o = .v k → k + u.w > g.nregs → s.issueOf i helpers = .trap c.gid (x.trap s 0x08 c.run c.run 0 (k + u.w - 1))) ∧
      (∀ k, u.o = .s k → k + u.w > g.sregs → s.issueOf i helpers = .trap c.gid (x.trap s 0x08 c.run c.run 0 (512 + k + u.w - 1)))) ∧
    ((∀ u ∈ i.opers, (∀ k, u.o = .v k → k + u.w ≤ g.nregs) ∧ (∀ k, u.o = .s k → k + u.w ≤ g.sregs)) →
      (∃ l, l < 32 ∧ act.getLsbD l = true ∧ c.run.getLsbD l = true ∧ g.poisonRead i.opers l ≠ none) →
      ∃ t, s.issueOf i helpers = .trap c.gid t ∧ t.cause = 0x16 ∧ t.pc = c.pc ∧ t.run = t.mask ∧
        ∀ l, l < 32 → (t.mask.getLsbD l = true ↔ act.getLsbD l = true ∧ c.run.getLsbD l = true ∧ g.poisonRead i.opers l ≠ none))

/-! ### Integer arithmetic (R147–R156) -/

/-- R148: the add and multiply-add family forms an exact integer and writes it modulo 2^w, or clamped with SAT. -/
def Obligations.AddAndMultiply : Prop :=
  ∀ (h : Hdr) (ty : Ty) (sat z : Bool) (d a b c : Opnd),
    let put := fun (v : Int) => wrap ty.width (if sat then max (intMin ty) (min (intMax ty) v) else v)
    let flag := fun (v : Int) => if sat = true ∧ (v < intMin ty ∨ intMax ty < v) then fSAT else 0
    let A := fun (x : Issue) l => x.g.int ty a l
    let B := fun (x : Issue) l => x.g.int ty b l
    let C := fun (x : Issue) l => x.g.int ty c l
    Writes (.iadd h ty sat z d a b) true d ty.regs z (fun _ x l => put (A x l + B x l)) (fun x l => flag (A x l + B x l)) ∧
    Writes (.isub h ty sat z d a b) true d ty.regs z (fun _ x l => put (A x l - B x l)) (fun x l => flag (A x l - B x l)) ∧
    Writes (.iadd3 h ty sat z d a b c) true d ty.regs z (fun _ x l => put (A x l + B x l + C x l))
      (fun x l => flag (A x l + B x l + C x l)) ∧
    Writes (.imad h ty sat z d a b c) true d ty.regs z (fun _ x l => put (A x l * B x l + C x l))
      (fun x l => flag (A x l * B x l + C x l)) ∧
    WritesOnly (.imul h ty z d a b) true d ty.regs z (fun _ x l => wrap ty.width (A x l * B x l)) ∧
    WritesOnly (.imulh h ty z d a b) true d ty.regs z (fun _ x l => wrap ty.width (A x l * B x l / 2 ^ ty.width)) ∧
    WritesOnly (.imadw h ty z d a b c) true d 2 z
      (fun _ x l => wrap 64 (intVal ty (x.g.opnd a 1 l) * intVal ty (x.g.opnd b 1 l) + (x.g.opnd c 2 l : Int)))

/-- R149: IADDC writes the low word of A + B + carry-in to D and whether it reaches 2^32 to the carry-out, the carry-in read first. R155:
ICMP writes whether its condition holds, and ISEL selects by its predicate. -/
def Obligations.CarriesAndConditions : Prop :=
  (∀ (h : Hdr) (ty : Ty) (z : Bool) (d a b : Opnd) (cin cout : Nat) (s : State) (x : Issue),
    s.issueOf (.iaddc h ty z d a b cin cout) true = .go x →
    let carry := fun l => if cin ≠ 15 ∧ pBit x.g cin (if x.once then x.lead else l) = true then 1 else 0
    let sum := fun l => x.g.opnd a 1 l + x.g.opnd b 1 l + carry l
    ∃ t g', exec (.iaddc h ty z d a b cin cout) s = .next t ∧ OnlyGroup s t x.gid g' ∧
      Effect x g' d 1 z (fun l => sum l % 2 ^ 32) cout (fun l => decide (2 ^ 32 ≤ sum l)) (fun _ => 0)) ∧
  (∀ (h : Hdr) (cc : Cmp) (ty : Ty) (z : Bool) (d a b : Opnd) (p : Nat),
    WritesPred (.icmp h cc ty p a b) true p (fun x l => icond cc (x.g.int ty a l) (x.g.int ty b l)) (fun _ _ => 0) ∧
    WritesOnly (.isel h ty z d a b p) true d ty.regs z
      (fun _ x l => if pBit x.g p (if x.once then x.lead else l) then x.g.opnd a ty.regs l else x.g.opnd b ty.regs l) ∧
    ∀ (u v : Int), (icond .eq u v = true ↔ u = v) ∧ (icond .ne u v = true ↔ u ≠ v) ∧ (icond .lt u v = true ↔ u < v) ∧
      (icond .le u v = true ↔ u ≤ v) ∧ (icond .gt u v = true ↔ u > v) ∧ (icond .ge u v = true ↔ u ≥ v))

/-- R150, Table 5-7: quotient and remainder truncate toward zero, with their results for a zero divisor; the smaller and the larger by the
type's signedness; magnitude and negation, clamped with SAT under .sat; the exact absolute difference plus C. -/
def Obligations.DivideAndCompare : Prop :=
  ∀ (h : Hdr) (ty : Ty) (sat z : Bool) (d a b c : Opnd),
    let put := fun (v : Int) => wrap ty.width (if sat then max (intMin ty) (min (intMax ty) v) else v)
    let flag := fun (v : Int) => if sat = true ∧ (v < intMin ty ∨ intMax ty < v) then fSAT else 0
    let A := fun (x : Issue) l => x.g.int ty a l
    let B := fun (x : Issue) l => x.g.int ty b l
    WritesOnly (.idiv h ty z d a b) true d ty.regs z
      (fun _ x l => if B x l = 0 then 2 ^ ty.width - 1 else wrap ty.width (Int.tdiv (A x l) (B x l))) ∧
    WritesOnly (.irem h ty z d a b) true d ty.regs z
      (fun _ x l => if B x l = 0 then wrap ty.width (A x l) else wrap ty.width (Int.tmod (A x l) (B x l))) ∧
    WritesOnly (.imin h ty z d a b) true d ty.regs z (fun _ x l => wrap ty.width (if A x l ≤ B x l then A x l else B x l)) ∧
    WritesOnly (.imax h ty z d a b) true d ty.regs z (fun _ x l => wrap ty.width (if A x l ≤ B x l then B x l else A x l)) ∧
    Writes (.iabs h ty sat z d a) true d ty.regs z (fun _ x l => put |A x l|) (fun x l => flag |A x l|) ∧
    Writes (.ineg h ty sat z d a) true d ty.regs z (fun _ x l => put (-A x l)) (fun x l => flag (-A x l)) ∧
    WritesOnly (.isad h ty z d a b c) true d 1 z (fun _ x l => wrap 32 (|A x l - B x l| + (x.g.opnd c 1 l : Int)))

/-- R151: the logical instructions act bit by bit, LOGT by its truth table. R154: POPC counts the one bits, CLZ the zero bits above the
highest one (all w of them for 0), FFS gives the index of the lowest one bit (0xFFFFFFFF for 0), and BREV reverses. -/
def Obligations.BitwiseOperations : Prop :=
  ((∀ (h : Hdr) (ty : Ty) (z : Bool) (d a b c : Opnd) (tt : Nat),
    let A := fun (x : Issue) l => x.g.opnd a ty.regs l
    let B := fun (x : Issue) l => x.g.opnd b ty.regs l
    let C := fun (x : Issue) l => x.g.opnd c ty.regs l
    WritesOnly (.andB h ty z d a b) true d ty.regs z (fun _ x l => A x l &&& B x l) ∧
    WritesOnly (.orB h ty z d a b) true d ty.regs z (fun _ x l => A x l ||| B x l) ∧
    WritesOnly (.xorB h ty z d a b) true d ty.regs z (fun _ x l => A x l ^^^ B x l) ∧
    WritesOnly (.notB h ty z d a) true d ty.regs z (fun _ x l => Machine.compl ty.width (A x l)) ∧
    WritesOnly (.logt h ty z d a b c tt) true d ty.regs z (fun _ x l => logtBits tt (A x l) (B x l) (C x l) ty.width)) ∧
  (∀ (w x n : Nat), (Machine.compl w x).testBit n = (decide (n < w) && !x.testBit n)) ∧
  (∀ (tt a b c w n : Nat), (logtBits tt a b c w).testBit n =
    (decide (n < w) && tt.testBit ((a.testBit n).toNat + 2 * (b.testBit n).toNat + 4 * (c.testBit n).toNat)))) ∧
  ((∀ (h : Hdr) (ty : Ty) (z : Bool) (d a : Opnd),
    let A := fun (x : Issue) l => x.g.opnd a ty.regs l
    WritesOnly (.popc h ty z d a) true d 1 z (fun _ x l => popBits ty.width (A x l)) ∧
    WritesOnly (.clz h ty z d a) true d 1 z (fun _ x l => clzBits ty.width (A x l)) ∧
    WritesOnly (.ffs h ty z d a) true d 1 z (fun _ x l => ffsBits ty.width 0 (A x l)) ∧
    WritesOnly (.brev h ty z d a) true d ty.regs z (fun _ x l => revBits ty.width (A x l))) ∧
  (∀ (w x : Nat), popBits w x = ((List.range w).filter (fun n => x.testBit n)).length) ∧
  (∀ (w x : Nat), x < 2 ^ w → clzBits w 0 = w ∧ clzBits w x ≤ w ∧ (∀ n, w - clzBits w x ≤ n → x.testBit n = false) ∧
    (x ≠ 0 → x.testBit (w - 1 - clzBits w x) = true)) ∧
  (∀ (w x : Nat), (∀ n, n < w → x.testBit n = true → (∀ k, k < n → x.testBit k = false) → ffsBits w 0 x = n) ∧
    ((∀ n, n < w → x.testBit n = false) → ffsBits w 0 x = 0xFFFFFFFF)) ∧
  (∀ (w x n : Nat), (revBits w x).testBit n = (decide (n < w) && x.testBit (w - 1 - n))))

/-- R152, Table 10-2: shifts, rotation and the funnel shift, by the place of each bit. R153: bit-field extraction and insertion, by the
place of each bit. -/
def Obligations.ShiftsAndFields : Prop :=
  ((∀ (h : Hdr) (ty : Ty) (z : Bool) (d a b c : Opnd),
    let A := fun (x : Issue) l => x.g.opnd a ty.regs l
    let N := fun (x : Issue) l => x.g.opnd b 1 l
    WritesOnly (.shl h ty z d a b) true d ty.regs z (fun _ x l => A x l * 2 ^ N x l % 2 ^ ty.width) ∧
    (ty.signed = false → WritesOnly (.shr h ty z d a b) true d ty.regs z
      (fun _ x l => if N x l ≥ ty.width then 0 else A x l / 2 ^ N x l)) ∧
    (ty.signed = true → WritesOnly (.shr h ty z d a b) true d ty.regs z
      (fun _ x l => wrap ty.width (x.g.int ty a l / 2 ^ min (N x l) (ty.width - 1)))) ∧
    WritesOnly (.rot h ty z d a b) true d ty.regs z (fun _ x l => rotBits ty.width (A x l) (N x l)) ∧
    WritesOnly (.catsh h z d a b c) true d 1 z (fun _ x l => catshBits (x.g.opnd a 1 l) (x.g.opnd b 1 l) (x.g.opnd c 1 l))) ∧
  (∀ (w a n i : Nat), a < 2 ^ w → i < w → (rotBits w a n).testBit ((i + n) % w) = a.testBit i ∧ rotBits w a n < 2 ^ w) ∧
  (∀ (a b c k : Nat), a < 2 ^ 32 → b < 2 ^ 32 → k < 32 →
    (catshBits a b c).testBit k = (a * 2 ^ 32 + b).testBit ((c % 64 + k) % 64) ∧ catshBits a b c < 2 ^ 32)) ∧
  ((∀ (h : Hdr) (ty : Ty) (z : Bool) (d a b c : Opnd),
    WritesOnly (.bfx h ty z d a b) true d 1 z (fun _ x l => bfxBits ty.signed (x.g.opnd a 1 l) (x.g.opnd b 1 l)) ∧
    WritesOnly (.bfi h z d a b c) true d 1 z (fun _ x l => bfiBits (x.g.opnd a 1 l) (x.g.opnd b 1 l) (x.g.opnd c 1 l))) ∧
  (∀ (a ctl c n : Nat), a < 2 ^ 32 → c < 2 ^ 32 → n < 32 →
    let pos := ctl % 256
    let len := min (ctl / 256 % 256) 32
    (len = 0 → bfxBits true a ctl = 0 ∧ bfxBits false a ctl = 0 ∧ bfiBits a ctl c = c) ∧
    (0 < len → (bfxBits false a ctl).testBit n = (decide (n < len) && a.testBit (pos + n)) ∧
      (bfxBits true a ctl).testBit n = a.testBit (min 31 (pos + min n (len - 1))) ∧
      (bfiBits a ctl c).testBit n = if pos ≤ n ∧ n < pos + len then a.testBit (n - pos) else c.testBit n)))

/-- R140, R156, R172: an address formed from a base and a scaled index, a constant, a copy, and a permutation of bytes. -/
def Obligations.AddressesAndMoves : Prop :=
  (∀ (h : Hdr) (ty : Ty) (z : Bool) (d a b c : Opnd) (sh : Nat) (imm : BitVec 32),
    WritesOnly (.lea h ty z d a b sh) true d ty.regs z (fun _ x l => wrap ty.width ((x.g.opnd a ty.regs l : Int) +
      (if ty.signed then toSigned 32 (x.g.opnd b 1 l) else (x.g.opnd b 1 l : Int)) * 2 ^ sh)) ∧
    WritesOnly (.movi h d imm) true d 1 false (fun _ _ _ => imm.toNat) ∧
    WritesOnly (.mov h ty z d a) true d ty.regs z (fun _ x l => x.g.opnd a ty.regs l) ∧
    WritesOnly (.prmb h z d a b c) true d 1 z
      (fun _ x l => prmbBytes (x.g.opnd a 1 l + 2 ^ 32 * x.g.opnd b 1 l) (x.g.opnd c 1 l) 4)) ∧
  (∀ (src sel n : Nat), n < 4 → bits (prmbBytes src sel 4) (8 * n) 8 =
    if (bits sel (4 * n) 4).testBit 3 then 0 else bits src (8 * (bits sel (4 * n) 4 % 8)) 8)

/-! ### Floating point (R84–R95, R157–R164) -/

/-- R84, R87–R90, R158: FADD, FSUB, FMUL and FFMA form the exact sum, difference, product or product plus addend of their operands' numbers
and round it once in the selected mode, with the flags of that rounding, a subnormal result flushed under .ftz; an exact zero has the sign
IEEE 754 gives it. Infinities follow IEEE 754; ∞ − ∞, 0 · ∞ and a signalling NaN give the canonical NaN with NV, a quiet NaN operand gives
it without. The integer that a magnitude is rounded to is the mode's. -/
def Obligations.RoundedArithmetic : Prop :=
  (∀ (h : Hdr) (ty : Ty) (rnd : Rnd) (ftz z : Bool) (d a b c : Opnd),
    let A := fun (x : Issue) l => x.g.fp ty ftz a l
    let B := fun (x : Issue) l => x.g.fp ty ftz b l
    let C := fun (x : Issue) l => x.g.fp ty ftz c l
    Writes (.fadd h ty rnd ftz z d a b) true d ty.regs z (fun _ x l => (fresult ty rnd ftz (fsumV rnd [A x l, B x l])).1)
      (fun x l => (fresult ty rnd ftz (fsumV rnd [A x l, B x l])).2) ∧
    Writes (.fsub h ty rnd ftz z d a b) true d ty.regs z (fun _ x l => (fresult ty rnd ftz (fsumV rnd [A x l, (B x l).neg])).1)
      (fun x l => (fresult ty rnd ftz (fsumV rnd [A x l, (B x l).neg])).2) ∧
    Writes (.fmul h ty rnd ftz z d a b) true d ty.regs z (fun _ x l => (fresult ty rnd ftz (fmulV (A x l) (B x l))).1)
      (fun x l => (fresult ty rnd ftz (fmulV (A x l) (B x l))).2) ∧
    Writes (.ffma h ty rnd ftz z d a b c) true d ty.regs z (fun _ x l => (fresult ty rnd ftz (ffmaV rnd (A x l) (B x l) (C x l))).1)
      (fun x l => (fresult ty rnd ftz (ffmaV rnd (A x l) (B x l) (C x l))).2)) ∧
  -- finite operands: one rounding of the exact value, or an exact zero with its sign
  (∀ (ty : Ty) (rnd : Rnd) (ftz n m k : Bool) (a b c : Nat) (e f g : Int), ty = .f32 ∨ ty = .f64 →
    let A := FVal.fin n a e
    let B := FVal.fin m b f
    let C := FVal.fin k c g
    let is := fun (w : ℚ) (zero : Bool) (r : Bits) => (w = 0 → r = (Ty.signBit ty zero, 0)) ∧
      ∀ (neg : Bool) (v : ℝ), 0 < v → (w : ℝ) = (if neg then -v else v) → Flushed ty rnd ftz neg v r
    let zero := fun (p q : Bool) => if p = q then p else decide (rnd = .rm)
    is (ratOf A + ratOf B) (zero n m) (fresult ty rnd ftz (fsumV rnd [A, B])) ∧
    is (ratOf A - ratOf B) (zero n (!m)) (fresult ty rnd ftz (fsumV rnd [A, B.neg])) ∧
    is (ratOf A * ratOf B) (n != m) (fresult ty rnd ftz (fmulV A B)) ∧
    is (ratOf A * ratOf B + ratOf C) (zero (n != m) k) (fresult ty rnd ftz (ffmaV rnd A B C))) ∧
  -- infinities and NaNs
  (∀ (ty : Ty) (rnd : Rnd) (ftz : Bool) (n : Bool) (fl : Flags), ty = .f32 ∨ ty = .f64 →
    fresult ty rnd ftz (.inf n, fl) = (Ty.signBit ty n + (if ty = .f32 then 0x7F800000 else 0x7FF0000000000000), fl) ∧
    fresult ty rnd ftz (.nan n, fl) = (if ty = .f32 then 0x7FC00000 else 0x7FF8000000000000, fl)) ∧
  (∀ (rnd : Rnd) (n k : Bool) (a : Nat) (e : Int) (x y z : FVal),
    let quiet := fun (bad : Prop) (r : FRes) => r.1 = .nan false ∧ (bad → r.2 = fNV) ∧ (¬ bad → r.2 = 0)
    fsumV rnd [.inf n, .fin k a e] = (.inf n, 0) ∧ fsumV rnd [.fin k a e, .inf n] = (.inf n, 0) ∧ fsumV rnd [.inf n, .inf n] = (.inf n, 0) ∧
    fsumV rnd [.inf n, .inf (!n)] = (.nan false, fNV) ∧
    fmulV (.inf n) (.inf k) = (.inf (n != k), 0) ∧
    (a ≠ 0 → fmulV (.inf n) (.fin k a e) = (.inf (n != k), 0) ∧ fmulV (.fin k a e) (.inf n) = (.inf (n != k), 0)) ∧
    fmulV (.inf n) (.fin k 0 e) = (.nan false, fNV) ∧ fmulV (.fin k 0 e) (.inf n) = (.nan false, fNV) ∧
    (x.isNaN = true ∨ y.isNaN = true → quiet (x = .nan true ∨ y = .nan true) (fsumV rnd [x, y]) ∧
      quiet (x = .nan true ∨ y = .nan true) (fmulV x y)) ∧
    ffmaV rnd x y z = ((fsumV rnd [(fmulV x y).1, z]).1, (fmulV x y).2 ||| (fsumV rnd [(fmulV x y).1, z]).2)) ∧
  -- a magnitude rounded to an integer
  (∀ (neg : Bool) (m sh : Nat), 0 < sh →
    let d := 2 ^ sh
    (∀ rnd, ((shiftRound rnd neg m sh).2 = true ↔ m % d ≠ 0) ∧ (m % d = 0 → (shiftRound rnd neg m sh).1 = m / d)) ∧
    (shiftRound .rz neg m sh).1 = m / d ∧
    (m % d ≠ 0 → (shiftRound .rm neg m sh).1 = (if neg then m / d + 1 else m / d) ∧
      (shiftRound .rp neg m sh).1 = (if neg then m / d else m / d + 1)) ∧
    (∀ k : Nat, |2 * ((shiftRound .rn neg m sh).1 * d - m : Int)| ≤ |2 * (k * d - m : Int)|) ∧
    (2 * (m % d) = d → (shiftRound .rn neg m sh).1 % 2 = 0))

/-- R126, R159, R160: FMIN and FMAX copy the smaller or the larger operand, pass over one NaN, and order −0 below +0; FCMP's conditions,
false for a NaN operand but .ne and .nan, with NV for any NaN in an ordering and for a signalling one elsewhere; .ftz reads a subnormal operand as
the zero of its sign. -/
def Obligations.FloatCompare : Prop :=
  (∀ (h : Hdr) (cc : Cmp) (ty : Ty) (ftz z : Bool) (d a b : Opnd) (p : Nat),
    Writes (.fmin h ty ftz z d a b) true d ty.regs z (fun _ x l => (fminmax ty ftz false (x.g.opndT ty a l) (x.g.opndT ty b l)).1)
      (fun x l => (fminmax ty ftz false (x.g.opndT ty a l) (x.g.opndT ty b l)).2) ∧
    Writes (.fmax h ty ftz z d a b) true d ty.regs z (fun _ x l => (fminmax ty ftz true (x.g.opndT ty a l) (x.g.opndT ty b l)).1)
      (fun x l => (fminmax ty ftz true (x.g.opndT ty a l) (x.g.opndT ty b l)).2) ∧
    WritesPred (.fcmp h cc ty ftz p a b) true p (fun x l => (fcond cc (x.g.fp ty ftz a l) (x.g.fp ty ftz b l)).1)
      (fun x l => (fcond cc (x.g.fp ty ftz a l) (x.g.fp ty ftz b l)).2)) ∧
  (∀ (ty : Ty) (mx : Bool) (x y : Nat),
    let a := fval ty x
    let b := fval ty y
    let r := fminmax ty false mx x y
    (a.isNaN = true → b.isNaN = true → r.1 = Ty.canonNaN ty) ∧
    (a.isNaN = true → b.isNaN = false → r.1 = y % 2 ^ ty.width) ∧ (a.isNaN = false → b.isNaN = true → r.1 = x % 2 ^ ty.width) ∧
    (a.isNaN = false → b.isNaN = false → fcmpV a b < 0 → r.1 = (if mx then y else x) % 2 ^ ty.width) ∧
    (a.isNaN = false → b.isNaN = false → fcmpV a b > 0 → r.1 = (if mx then x else y) % 2 ^ ty.width) ∧
    (a.isNaN = false → b.isNaN = false → fcmpV a b = 0 → a.isNeg = true → b.isNeg = false → r.1 = (if mx then y else x) % 2 ^ ty.width) ∧
    (r.2 = fNV ↔ a = .nan true ∨ b = .nan true)) ∧
  (∀ (n m : Bool) (a b : Nat) (e f : Int),
    fcmpV (.fin n a e) (.fin m b f) = SignType.sign (ratOf (.fin n a e) - ratOf (.fin m b f)) ∧
    fcmpV (.inf n) (.fin m b f) = (if n then -1 else 1) ∧ fcmpV (.fin m b f) (.inf n) = (if n then 1 else -1) ∧
    fcmpV (.inf n) (.inf n) = 0 ∧ fcmpV (.inf true) (.inf false) = -1 ∧ fcmpV (.inf false) (.inf true) = 1) ∧
  (∀ (a b : FVal),
    (a.isNaN = false → b.isNaN = false →
      fcond .eq a b = (decide (fcmpV a b = 0), 0) ∧ fcond .ne a b = (decide (fcmpV a b ≠ 0), 0) ∧ fcond .lt a b = (decide (fcmpV a b < 0), 0) ∧
      fcond .le a b = (decide (fcmpV a b ≤ 0), 0) ∧ fcond .gt a b = (decide (fcmpV a b > 0), 0) ∧ fcond .ge a b = (decide (fcmpV a b ≥ 0), 0) ∧
      fcond .num a b = (true, 0) ∧ fcond .nan a b = (false, 0)) ∧
    (a.isNaN = true ∨ b.isNaN = true →
      (fcond .eq a b).1 = false ∧ (fcond .ne a b).1 = true ∧ (fcond .num a b).1 = false ∧ (fcond .nan a b).1 = true ∧
      fcond .lt a b = (false, fNV) ∧ fcond .le a b = (false, fNV) ∧ fcond .gt a b = (false, fNV) ∧ fcond .ge a b = (false, fNV) ∧
      ∀ cc, cc = .eq ∨ cc = .ne ∨ cc = .num ∨ cc = .nan → ((fcond cc a b).2 = fNV ↔ a = .nan true ∨ b = .nan true))) ∧
  (∀ (g : Group) (ty : Ty) (o : Opnd) (l : Nat),
    let x := g.opndT ty o l
    g.fp ty false o l = fval ty x ∧ (isSubnormal ty x = false → g.fp ty true o l = fval ty x) ∧
    (isSubnormal ty x = true → g.fp ty true o l = .fin (bitAt x (ty.width - 1)) 0 0))

/-- R161, R163, R164: FDIV, FSQRT, FRCP and FRSQ round the exact quotient, root or reciprocal once, with DZ and NV as Table 5-8 says; FRND
rounds to an integral value of the same sign; FSCALE rounds A · 2^B once; FCLASS writes its class's bit; FDOT2 rounds the exact sum of two
products and C once. R95, R161, R162: FEXP2, FLOG2, FSIN, FCOS, FTANH and the .approx reciprocals write one function of the operand and of
.ftz. It has the stated values at zeros, infinities and NaNs and the exact cases; elsewhere it is a value within the bound of Table 5-8
(for the reciprocals, of the exact value; for the other five, of the model's own approximation, log 10 and 78: which value, the manual does
not publish), with NX, OF for an infinity and UF for a tiny result.
Choices of the model that it takes part in: log 10, 12, 78. -/
def Obligations.FloatingFunctions : Prop :=
  (∀ (h : Hdr) (ty : Ty) (rnd : Rnd) (ftz z : Bool) (d a b c : Opnd),
    let A := fun (x : Issue) l => x.g.fp ty ftz a l
    let B := fun (x : Issue) l => x.g.fp ty ftz b l
    let R := fun (fn : SpFn) (x : Issue) l => special fn ftz (x.g.opndT .f32 a l)
    Writes (.fdiv h ty rnd ftz z d a b) true d ty.regs z (fun _ x l => (fresult ty rnd ftz (fdivV ty (A x l) (B x l))).1)
      (fun x l => (fresult ty rnd ftz (fdivV ty (A x l) (B x l))).2) ∧
    Writes (.fsqrt h ty rnd ftz z d a) true d ty.regs z (fun _ x l => (fresult ty rnd ftz (fsqrtV ty (A x l))).1)
      (fun x l => (fresult ty rnd ftz (fsqrtV ty (A x l))).2) ∧
    Writes (.frcp h ty rnd ftz z false d a) true d ty.regs z (fun _ x l => (fresult ty rnd ftz (frcpV ty (A x l))).1)
      (fun x l => (fresult ty rnd ftz (frcpV ty (A x l))).2) ∧
    Writes (.frsq h ty rnd ftz z false d a) true d ty.regs z (fun _ x l => (fresult ty rnd ftz (frsqV ty (A x l))).1)
      (fun x l => (fresult ty rnd ftz (frsqV ty (A x l))).2) ∧
    Writes (.frnd h ty rnd ftz z d a) true d ty.regs z (fun _ x l => (frndBits ty rnd (A x l)).1) (fun x l => (frndBits ty rnd (A x l)).2) ∧
    Writes (.fscale h ty rnd ftz z d a b) true d ty.regs z
      (fun _ x l => (fresult ty rnd ftz (fscaleV (A x l) (toSigned 32 (x.g.opnd b 1 l)))).1)
      (fun x l => (fresult ty rnd ftz (fscaleV (A x l) (toSigned 32 (x.g.opnd b 1 l)))).2) ∧
    WritesOnly (.fclass h ty z d a) true d 1 z (fun _ x l => fclassBits ty (x.g.opndT ty a l)) ∧
    Writes (.fdot2 h ty rnd z d a b c) true d 1 z
      (fun _ x l => (fdot2Bits ty rnd (x.g.opnd a 1 l) (x.g.opnd b 1 l) (x.g.opndT .f32 c l)).1)
      (fun x l => (fdot2Bits ty rnd (x.g.opnd a 1 l) (x.g.opnd b 1 l) (x.g.opndT .f32 c l)).2) ∧
    Writes (.fexp2 h ftz z d a) true d 1 z (fun _ x l => (R .exp2 x l).1) (fun x l => (R .exp2 x l).2) ∧
    Writes (.flog2 h ftz z d a) true d 1 z (fun _ x l => (R .log2 x l).1) (fun x l => (R .log2 x l).2) ∧
    Writes (.fsin h ftz z d a) true d 1 z (fun _ x l => (R .sin x l).1) (fun x l => (R .sin x l).2) ∧
    Writes (.fcos h ftz z d a) true d 1 z (fun _ x l => (R .cos x l).1) (fun x l => (R .cos x l).2) ∧
    Writes (.ftanh h ftz z d a) true d 1 z (fun _ x l => (R .tanh x l).1) (fun x l => (R .tanh x l).2) ∧
    Writes (.frcp h .f32 rnd ftz z true d a) true d 1 z (fun _ x l => (R .rcp x l).1) (fun x l => (R .rcp x l).2) ∧
    Writes (.frsq h .f32 rnd ftz z true d a) true d 1 z (fun _ x l => (R .rsq x l).1) (fun x l => (R .rsq x l).2)) ∧
  -- quotients, roots and reciprocals
  (∀ (ty : Ty) (rnd : Rnd) (ftz n k s u : Bool) (a b : Nat) (e f : Int), ty = .f32 ∨ ty = .f64 → a ≠ 0 → b ≠ 0 →
    let A : ℝ := a * 2 ^ e
    let B : ℝ := b * 2 ^ f
    let out := fresult ty rnd ftz
    Flushed ty rnd ftz (n != k) (A / B) (out (fdivV ty (.fin n a e) (.fin k b f))) ∧
    Flushed ty rnd ftz false (Real.sqrt A) (out (fsqrtV ty (.fin false a e))) ∧
    Flushed ty rnd ftz n (1 / A) (out (frcpV ty (.fin n a e))) ∧
    Flushed ty rnd ftz false (1 / Real.sqrt A) (out (frsqV ty (.fin false a e))) ∧
    fdivV ty (.fin n 0 e) (.fin k b f) = (.fin (n != k) 0 0, 0) ∧ fdivV ty (.fin n a e) (.fin k 0 f) = (.inf (n != k), fDZ) ∧
    fdivV ty (.fin n 0 e) (.fin k 0 f) = (.nan false, fNV) ∧ fdivV ty (.inf n) (.inf k) = (.nan false, fNV) ∧
    fdivV ty (.inf n) (.fin k b f) = (.inf (n != k), 0) ∧ fdivV ty (.fin n a e) (.inf k) = (.fin (n != k) 0 0, 0) ∧
    fdivV ty (.nan s) (.fin k b f) = (.nan false, if s then fNV else 0) ∧ fdivV ty (.fin n a e) (.nan s) = (.nan false, if s then fNV else 0) ∧
    fdivV ty (.nan s) (.nan u) = (.nan false, if s || u then fNV else 0) ∧
    fsqrtV ty (.fin n 0 e) = (.fin n 0 0, 0) ∧ fsqrtV ty (.fin true a e) = (.nan false, fNV) ∧ fsqrtV ty (.inf true) = (.nan false, fNV) ∧
    fsqrtV ty (.inf false) = (.inf false, 0) ∧ fsqrtV ty (.nan s) = (.nan false, if s then fNV else 0) ∧
    frcpV ty (.fin n 0 e) = (.inf n, fDZ) ∧ frcpV ty (.inf n) = (.fin n 0 0, 0) ∧ frcpV ty (.nan s) = (.nan false, if s then fNV else 0) ∧
    frsqV ty (.fin n 0 e) = (.inf n, fDZ) ∧ frsqV ty (.fin true a e) = (.nan false, fNV) ∧ frsqV ty (.inf true) = (.nan false, fNV) ∧
    frsqV ty (.inf false) = (.fin false 0 0, 0) ∧ frsqV ty (.nan s) = (.nan false, if s then fNV else 0)) ∧
  -- FRND, FSCALE and FCLASS
  (∀ (ty : Ty) (rnd : Rnd) (ftz : Bool) (x : Nat) (b : Int), ty = .f32 ∨ ty = .f64 →
    let neg := bitAt x (ty.width - 1)
    (∀ n m e, fvalZ ftz ty x = .fin n m e → n = neg ∧
      (∃ j i : Nat, frndBits ty rnd (.fin n m e) = (Ty.signBit ty neg + i, 0) ∧ i ≤ Ty.maxCode ty ∧ magOf ty i = j ∧
        NearestInt rnd neg (m * 2 ^ e) j) ∧
      (m = 0 → fresult ty rnd ftz (fscaleV (.fin n m e) b) = (Ty.signBit ty neg, 0)) ∧
      (m ≠ 0 → Flushed ty rnd ftz neg (m * 2 ^ (e + b)) (fresult ty rnd ftz (fscaleV (.fin n m e) b)))) ∧
    (∀ n, fval ty x = .inf n → frndBits ty rnd (.inf n) = (x % 2 ^ ty.width, 0)) ∧
    (∀ n s, fscaleV (.inf n) b = (.inf n, 0) ∧ fscaleV (.nan s) b = (.nan false, if s then fNV else 0) ∧
      frndBits ty rnd (.nan s) = (Ty.canonNaN ty, if s then fNV else 0)) ∧
    fclassBits ty x = match fval ty x with
      | .nan true => 1 | .nan false => 2 | .inf true => 2 ^ 2 | .inf false => 2 ^ 9
      | .fin n m _ => if m = 0 then (if n then 2 ^ 5 else 2 ^ 6) else if m < 2 ^ Ty.mant ty then (if n then 2 ^ 4 else 2 ^ 7)
          else (if n then 2 ^ 3 else 2 ^ 8)) ∧
  -- FDOT2: element e of A and B is at bits 16e + 15 : 16e
  (∀ (ty : Ty) (rnd : Rnd) (a b c : Nat), ty = .f16 ∨ ty = .bf16 →
    let el := fun (r i : Nat) => fval ty (r / 2 ^ (16 * i) % 2 ^ 16)
    (∀ n0 n1 k0 k1 n m0 m1 j0 j1 m e0 e1 f0 f1 e, el a 0 = .fin n0 m0 e0 → el a 1 = .fin n1 m1 e1 → el b 0 = .fin k0 j0 f0 → el b 1 = .fin k1 j1 f1 →
      fval .f32 c = .fin n m e →
      let w : ℚ := ratOf (el a 0) * ratOf (el b 0) + ratOf (el a 1) * ratOf (el b 1) + ratOf (fval .f32 c)
      ∀ (neg : Bool) (v : ℝ), 0 < v → (w : ℝ) = (if neg then -v else v) → Rounded .f32 rnd .nan neg v (fdot2Bits ty rnd a b c)) ∧
    ((el a 0).isNaN = true ∨ (el a 1).isNaN = true ∨ (el b 0).isNaN = true ∨ (el b 1).isNaN = true ∨ (fval .f32 c).isNaN = true →
      (fdot2Bits ty rnd a b c).1 = 0x7FC00000)) ∧
  -- the special functions: fixed values
  (∀ ftz, special .sin ftz 0 = (0, 0) ∧ special .sin ftz 0x80000000 = (0x80000000, 0) ∧ special .cos ftz 0 = (0x3F800000, 0) ∧
    special .cos ftz 0x80000000 = (0x3F800000, 0) ∧ special .tanh ftz 0 = (0, 0) ∧ special .tanh ftz 0x80000000 = (0x80000000, 0) ∧
    special .tanh ftz 0x7F800000 = (0x3F800000, 0) ∧ special .tanh ftz 0xFF800000 = (0xBF800000, 0) ∧
    special .sin ftz 0x7F800000 = (0x7FC00000, fNV) ∧ special .sin ftz 0xFF800000 = (0x7FC00000, fNV) ∧
    special .cos ftz 0x7F800000 = (0x7FC00000, fNV) ∧ special .cos ftz 0xFF800000 = (0x7FC00000, fNV) ∧
    special .log2 ftz 0 = (0xFF800000, fDZ) ∧ special .log2 ftz 0x80000000 = (0xFF800000, fDZ) ∧ special .log2 ftz 0x7F800000 = (0x7F800000, 0) ∧
    special .exp2 ftz 0xFF800000 = (0, 0) ∧ special .exp2 ftz 0x7F800000 = (0x7F800000, 0) ∧
    special .rcp ftz 0 = (0x7F800000, fDZ) ∧ special .rcp ftz 0x80000000 = (0xFF800000, fDZ) ∧
    special .rsq ftz 0 = (0x7F800000, fDZ) ∧ special .rsq ftz 0x80000000 = (0xFF800000, fDZ) ∧ special .rsq ftz 0x7F800000 = (0, 0)) ∧
  (∀ (fn : SpFn) (ftz s : Bool) (x : Nat), fval .f32 x = .nan s → special fn ftz x = (0x7FC00000, if s then fNV else 0)) ∧
  (∀ (ftz : Bool) (x m : Nat) (e : Int), fvalZ ftz .f32 x = .fin true m e → m ≠ 0 →
    special .log2 ftz x = (0x7FC00000, fNV) ∧ special .rsq ftz x = (0x7FC00000, fNV)) ∧
  -- exact cases
  (∀ (x : Nat) (n : Bool) (m k : Nat) (e : Int), fval .f32 x = .fin n m e →
    (∀ i : Int, ratOf (.fin n m e) = i → -149 ≤ i → i ≤ 127 → Rounded .f32 .rn .nan false (2 ^ i) (special .exp2 false x) ∧ (special .exp2 false x).2 = 0) ∧
    (m = 2 ^ k → n = false → ratOf (fval .f32 (special .log2 false x).1) = k + e ∧ (special .log2 false x).2 = 0) ∧
    (m = 2 ^ k → -149 ≤ -(k + e) → -(k + e) ≤ 127 → Rounded .f32 .rn .nan n (2 ^ (-(k + e))) (special .rcp false x) ∧ (special .rcp false x).2 = 0) ∧
    (m = 2 ^ k → n = false → (k + e) % 2 = 0 → Rounded .f32 .rn .nan false (2 ^ (-((k + e) / 2))) (special .rsq false x) ∧ (special .rsq false x).2 = 0)) ∧
  -- every other result: within the bound, with NX, OF for an infinity and UF for a tiny one
  (∀ (fn : SpFn) (x m : Nat) (n : Bool) (e : Int), fval .f32 x = .fin n m e → spSpecial fn (.fin n m e) = none → spExact fn n m e = none →
    let r := special fn false x
    r.2 = (match fval .f32 r.1 with
      | .inf _ => fOF ||| fNX
      | .fin _ m _ => if m < 2 ^ 23 then fUF ||| fNX else fNX
      | .nan _ => fNX) ∧
    (fn = .rcp → 2 ^ (-128 : Int) < (m : ℝ) * 2 ^ e → ∃ k, k ≤ 0x7F800000 ∧ r.1 = Ty.signBit .f32 n + k ∧
      |((if k = 0x7F800000 then (2 : ℝ) ^ 128 else (magOf .f32 k : ℝ)) - 1 / (m * 2 ^ e))| ≤ 2 ^ (max (-126) (Int.log 2 ((1 : ℝ) / (m * 2 ^ e))) - 23)) ∧
    (fn = .rsq → ∃ k, k < 0x7F800000 ∧ r.1 = k ∧ |((magOf .f32 k : ℝ) - 1 / Real.sqrt (m * 2 ^ e))| ≤
      2 ^ (max (-126) (Int.log 2 (1 / Real.sqrt (m * 2 ^ e))) - 23)) ∧
    (spAllowed fn m e (spApprox fn n m e) r.1 = true ∨ r.1 = (roundTo .f32 .rn .nan (spApprox fn n m e)).1))

/-! ### Conversions and narrow formats (R165–R171) -/

/-- R139, R165, R166, R168, R169, Table 5-3: CVT, PACK, UNPK, QPACK and QUNPK convert elements of registers: an element that is written is
read back, every other element keeps its bits, and QPACK takes its elements from the four lanes of the quad. R91, R92, R166, R167: the
conversion itself, for each kind of source and destination: one rounding into the format with its overflow modifier, a saturating rounding
to an integer, an exact integer rounded into the format or cut or clamped to another, and the exponent of a block scale.
Choices of the model that it takes part in: log 9, 13. -/
def Obligations.Conversions : Prop :=
  (∀ (h : Hdr) (dty sty : Ty) (rnd : Rnd) (sat z nan : Bool) (d a b : Opnd) (i j : Nat),
    let cv := fun (x : Issue) (o : Opnd) k l => convert dty sty rnd sat (x.g.srcElem sty o k l)
    Writes (.cvt h dty sty rnd sat z nan d i a j) true d dty.regs z
      (fun _ x l => if dty.width ≥ 32 then (cv x a j l).1 else setElement dty (x.g.opnd d 1 l) i (cv x a j l).1) (fun x l => (cv x a j l).2) ∧
    Writes (.pack h dty sty rnd sat z nan d a b j) true d 1 z
      (fun _ x l => setElement dty (setElement dty (x.g.opnd d 1 l) (2 * j) (cv x a 0 l).1) (2 * j + 1) (cv x b 0 l).1)
      (fun x l => (cv x a 0 l).2 ||| (cv x b 0 l).2) ∧
    Writes (.unpk h dty sty z d a j) true d 2 z
      (fun _ x l => (widen sty (x.g.srcElem sty a (2 * j) l)).1 + 2 ^ 32 * (widen sty (x.g.srcElem sty a (2 * j + 1) l)).1)
      (fun x l => (widen sty (x.g.srcElem sty a (2 * j) l)).2 ||| (widen sty (x.g.srcElem sty a (2 * j + 1) l)).2) ∧
    Writes (.qpack h dty sty rnd sat z nan d a i) true d 1 z
      (fun _ x l => setElement dty (setElement dty (setElement dty (setElement dty (x.g.opnd d 1 l) (0 + 4 * i) (cv x a 0 (4 * (l / 4) + 0)).1)
        (1 + 4 * i) (cv x a 0 (4 * (l / 4) + 1)).1) (2 + 4 * i) (cv x a 0 (4 * (l / 4) + 2)).1) (3 + 4 * i) (cv x a 0 (4 * (l / 4) + 3)).1)
      (fun x l => (cv x a 0 (4 * (l / 4) + 0)).2 ||| ((cv x a 0 (4 * (l / 4) + 1)).2 ||| ((cv x a 0 (4 * (l / 4) + 2)).2 |||
        ((cv x a 0 (4 * (l / 4) + 3)).2 ||| 0)))) ∧
    Writes (.qunpk h dty sty z d a i) true d 1 z (fun _ x l => (widen sty (x.g.srcElem sty a (l % 4 + 4 * i) l)).1)
      (fun x l => (widen sty (x.g.srcElem sty a (l % 4 + 4 * i) l)).2)) ∧
  -- elements of a register
  (∀ (ty : Ty) (r i j e : Nat), ty.width < 32 →
    element ty (setElement ty r i e) i = e % 2 ^ ty.width ∧ (i ≠ j → element ty (setElement ty r i e) j = element ty r j) ∧
    (i < ty.perReg → r < 2 ^ 32 → setElement ty r i e < 2 ^ 32)) ∧
  (∀ (g : Group) (ty : Ty) (k i l : Nat), ty.width < 32 →
    g.srcElem ty (.v k) i l = (vReg g k l).toNat / 2 ^ (ty.pitch * i) % 2 ^ ty.width ∧
    g.srcElem ty (.s k) i l = (sReg g k).toNat / 2 ^ (ty.pitch * i) % 2 ^ ty.width) ∧
  -- a floating-point, integer or block-scale source into a floating-point format
  (∀ (dty sty : Ty) (rnd : Rnd) (sat : Bool) (x : Nat), dty.isFloat = true → sat = true ∨ Ty.ieee dty = true ∨ dty = .e4m3 →
    let ovf : Ovf := if sat then .sat else .nan
    let out := convert dty sty rnd sat x
    (sty.isFloat = true → match fval sty x with
      | .fin n m e => (m = 0 → out = (Ty.signBit dty n, 0)) ∧ (m ≠ 0 → Rounded dty rnd ovf n (m * 2 ^ e) out)
      | .inf n => out = if sat then (Ty.signBit dty n + Ty.maxCode dty, fSAT)
          else (if dty = .e4m3 then 0x7F else Ty.signBit dty n + (Ty.maxCode dty + 1), 0)
      | .nan s => out = (Ty.canonNaN dty, if sat || s then fNV else 0)) ∧
    (sty.isFloat = false → sty ≠ .e8m0 → (intVal sty x = 0 → out = (0, 0)) ∧
      (intVal sty x ≠ 0 → Rounded dty rnd ovf (decide (intVal sty x < 0)) |(intVal sty x : ℝ)| out)) ∧
    (sty = .e8m0 → (x % 256 ≠ 255 → Rounded dty rnd ovf false (2 ^ ((x % 256 : Nat) - 127 : Int)) out) ∧
      (x % 256 = 255 → out = (Ty.canonNaN dty, if sat then fNV else 0)))) ∧
  -- a floating-point or integer source into an integer
  (∀ (dty sty : Ty) (rnd : Rnd) (sat : Bool) (x : Nat), dty.isUS = true →
    let out := convert dty sty rnd sat x
    let near := fun (n : Bool) => wrap dty.width (if n then intMin dty else intMax dty)
    (sty.isFloat = true → match fval sty x with
      | .fin n m e => ∃ j, NearestInt rnd n (m * 2 ^ e) j ∧
          let v : Int := if n then -(j : Int) else j
          (intMin dty ≤ v → v ≤ intMax dty → out = (wrap dty.width v, if (j : ℚ) = m * 2 ^ e then 0 else fNX)) ∧
          (v < intMin dty ∨ intMax dty < v → out = (near n, fNV))
      | .inf n => out = (near n, fNV)
      | .nan _ => out = (0, fNV)) ∧
    (sty.isUS = true →
      let v := intVal sty x
      (sat = true → v < intMin dty ∨ intMax dty < v → out = (near (decide (v < 0)), fSAT)) ∧
      (sat = false ∨ intMin dty ≤ v ∧ v ≤ intMax dty → out = (wrap dty.width v, 0)))) ∧
  -- into a block scale, and the exact widening
  (∀ (sty : Ty) (rnd : Rnd) (x : Nat), sty.isFloat = true →
    let out := convert .e8m0 sty rnd true x
    match fval sty x with
    | .nan _ => out = (0xFF, fNV)
    | .inf _ => out = (0xFE, fSAT)
    | .fin _ m e => (m = 0 → out = (0, fSAT)) ∧ (m ≠ 0 → ∃ k : Int,
        (if rnd = .rp then (2 : ℚ) ^ (k - 1) < m * 2 ^ e ∧ (m : ℚ) * 2 ^ e ≤ 2 ^ k else (2 : ℚ) ^ k ≤ m * 2 ^ e ∧ (m : ℚ) * 2 ^ e < 2 ^ (k + 1)) ∧
        out = if k + 127 < 0 then (0, fSAT) else if 254 < k + 127 then (254, fSAT) else ((k + 127).toNat, 0))) ∧
  (∀ (sty : Ty) (x : Nat),
    (sty.isUS = true → widen sty x = (wrap 32 (intVal sty x), 0)) ∧
    (sty.isFloat = true → sty ≠ .f64 → match fval sty x with
      | .nan s => widen sty x = (0x7FC00000, if s then fNV else 0)
      | .inf n => widen sty x = (Ty.signBit .f32 n + 0x7F800000, 0)
      | .fin n m e => (widen sty x).2 = 0 ∧ ∃ m' e', fval .f32 (widen sty x).1 = .fin n m' e' ∧ (m' : ℚ) * 2 ^ e' = m * 2 ^ e))

/-- R98, R170, R171, Table 5-10: the narrow dot products. DOT4 and DOT8 add the exact products of the elements to C, wrapped or clamped
with SAT; DOTS takes its block scales from the scale lane and adds the scaled exact sum of its products to D with one rounding; a NaN scale
or element gives the canonical NaN with NV, and an infinite or NaN D follows R158. -/
def Obligations.DotProducts : Prop :=
  (∀ (h : Hdr) (ty : Ty) (sat z : Bool) (d a b c : Opnd) (sa sb : Nat),
    let acc : Ty := if ty.signed then .s32 else .u32
    let sum := fun (x : Issue) l => intVal acc (x.g.opnd c 1 l) + dotSum ty (x.g.opnd a 1 l) (x.g.opnd b 1 l) ty.perReg
    let put := fun (v : Int) => wrap 32 (if sat then max (intMin acc) (min (intMax acc) v) else v)
    let flag := fun (v : Int) => if sat = true ∧ (v < intMin acc ∨ intMax acc < v) then fSAT else 0
    Writes (.dot4 h ty sat z d a b c) true d 1 z (fun _ x l => put (sum x l)) (fun x l => flag (sum x l)) ∧
    Writes (.dot8 h ty sat z d a b c) true d 1 z (fun _ x l => put (sum x l)) (fun x l => flag (sum x l)) ∧
    let lane := fun l => if ty = .e2m1 then 4 * (l / 4) else 8 * (l / 8)
    let R := fun (x : Issue) l => dotsBits ty (x.g.opnd a 1 l) (x.g.opnd b 1 l) (bits (x.g.opnd c 1 (lane l)) (8 * sa) 8)
      (bits (x.g.opnd c 1 (lane l)) (8 * sb) 8) (x.g.opnd d 1 l)
    Writes (.dots h ty z d a b c sa sb) true d 1 z (fun _ x l => (R x l).1) (fun x l => (R x l).2)) ∧
  (∀ (ty : Ty) (a b n : Nat), dotSum ty a b n = ∑ i ∈ Finset.range n, intVal ty (element ty a i) * intVal ty (element ty b i)) ∧
  (∀ (ty : Ty) (a b ea eb acc : Nat), ty = .e2m1 ∨ ty = .e4m3 ∨ ty = .e5m2 →
    let el := fun (r i : Nat) => fval ty (element ty r i)
    let r := dotsBits ty a b ea eb acc
    (ea = 0xFF ∨ eb = 0xFF ∨ (∃ i, i < ty.perReg ∧ ((el a i).isNaN = true ∨ (el b i).isNaN = true)) → r = (0x7FC00000, fNV)) ∧
    (ea ≠ 0xFF → eb ≠ 0xFF → (∀ i, i < ty.perReg → (∃ n m e, el a i = .fin n m e) ∧ ∃ n m e, el b i = .fin n m e) →
      let p : ℚ := ∑ i ∈ Finset.range ty.perReg, ratOf (el a i) * ratOf (el b i)
      let w : ℚ := ratOf (fval .f32 acc) + p * 2 ^ ((ea : Int) - 127 + ((eb : Int) - 127))
      (∀ n m e, fval .f32 acc = .fin n m e → (w = 0 → (r.1 = 0 ∨ r.1 = 0x80000000) ∧ r.2 = 0) ∧
        ∀ (neg : Bool) (v : ℝ), 0 < v → (w : ℝ) = (if neg then -v else v) → Rounded .f32 .rn .nan neg v r) ∧
      (∀ n, fval .f32 acc = .inf n → r = (Ty.signBit .f32 n + 0x7F800000, 0)) ∧
      (∀ q, fval .f32 acc = .nan q → r = (0x7FC00000, if q then fNV else 0))))

/-! ### Exchanges (R183–R187) -/

/-- R185, R187, Table 11-6: the exchange instructions read other lanes' registers as they stand at issue, before any is written. R133,
R217: XGET and XPUT read and write the register that each lane's index names; an index beyond the window traps REGISTER_RANGE before any
lane has effect, and lanes whose indexed register is poisoned trap.
Choices of the model that it takes part in: log 19. -/
def Obligations.ExchangesAndIndexes : Prop :=
  (∀ (h : Hdr) (ty : Ty) (z : Bool) (d a b : Opnd) (k : Nat),
    let A := fun (x : Issue) l => x.g.opnd a ty.regs l
    let B := fun (x : Issue) l => x.g.opnd b 1 l
    WritesOnly (.lxch h .abs ty z d a b) true d ty.regs z (fun _ x l => A x (B x l % 32)) ∧
    WritesOnly (.lxch h .rot ty z d a b) true d ty.regs z (fun _ x l => A x ((l + B x l) % 32)) ∧
    WritesOnly (.lxch h .xor ty z d a b) true d ty.regs z (fun _ x l => A x (l ^^^ (B x l % 32))) ∧
    WritesOnly (.qswp h .x1 ty z d a) true d ty.regs z (fun _ x l => A x (l ^^^ 1)) ∧
    WritesOnly (.qswp h .x2 ty z d a) true d ty.regs z (fun _ x l => A x (l ^^^ 2)) ∧
    WritesOnly (.qswp h .x3 ty z d a) true d ty.regs z (fun _ x l => A x (l ^^^ 3)) ∧
    WritesOnly (.qbcst h ty z d a k) true d ty.regs z (fun _ x l => A x (4 * (l / 4) + k)) ∧
    WritesOnly (.rdlane h ty z d a b) true d ty.regs z (fun _ x l => A x (B x l % 32)) ∧
    (∀ s x, s.issueOf (.wrlane h ty d a b) true = .go x → ∃ t g', exec (.wrlane h ty d a b) s = .next t ∧ OnlyGroup s t x.gid g' ∧
      (∀ j l, l < 32 → vReg g' j l = match d with
        | .v r => if x.act ≠ 0 ∧ r ≤ j ∧ j < r + ty.regs ∧ l = B x 0 % 32 then wordOf (A x (lowestLane x.act)) (j - r) else vReg x.g j l
        | _ => vReg x.g j l) ∧
      Stepped x.g g' x.run ∧ (∀ r, d = .v r → { g' with v := x.g.v, poison := x.g.poison, lanes := x.g.lanes } = x.g ∧
        ∀ key, ((x.act ≠ 0 ∧ ∃ j, j < ty.regs ∧ key = 32 * (r + j) + B x 0 % 32) → mfind g'.poison key = none) ∧
          ((x.act = 0 ∨ ∀ j, j < ty.regs → key ≠ 32 * (r + j) + B x 0 % 32) → mfind g'.poison key = mfind x.g.poison key)))) ∧
  (∀ (h : Hdr) (d a b c : Opnd) (s : State) (x : Issue),
    let idx := fun l => (x.g.opnd a 1 l + x.g.opnd b 1 l) % 2 ^ 32
    let inside := ∀ l, l < 32 → x.act.getLsbD l = true → x.run.getLsbD l = true → idx l < x.g.nregs
    (s.issueOf (.xget h d a b) true = .go x → inside →
      (∀ l, l < 32 → x.act.getLsbD l = true → x.run.getLsbD l = true → mfind x.g.poison (32 * idx l + l) = none) →
      ∃ t g', exec (.xget h d a b) s = .next t ∧ OnlyGroup s t x.gid g' ∧
        Effect x g' d 1 false (fun l => if idx l < x.g.nregs then (vReg x.g (idx l) l).toNat else 0) 15 (fun _ => false) (fun _ => 0)) ∧
    (s.issueOf (.xput h a b c) true = .go x → inside →
      ∃ t g', exec (.xput h a b c) s = .next t ∧ OnlyGroup s t x.gid g' ∧ Stepped x.g g' x.run ∧
        (∀ k l, l < 32 → vReg g' k l = if x.act.getLsbD l = true ∧ k = idx l ∧ k < x.g.nregs then wordOf (x.g.opnd c 1 l) 0 else vReg x.g k l) ∧
        (∀ key, ((∃ l, l < 32 ∧ x.act.getLsbD l = true ∧ key = 32 * idx l + l ∧ idx l < x.g.nregs) → mfind g'.poison key = none) ∧
          ((∀ l, l < 32 → x.act.getLsbD l = true → key = 32 * idx l + l → ¬ idx l < x.g.nregs) → mfind g'.poison key = mfind x.g.poison key)) ∧
        { g' with v := x.g.v, poison := x.g.poison, lanes := x.g.lanes } = x.g) ∧
    (s.issueOf (.xget h d a b) true = .go x → inside →
      (∃ l, l < 32 ∧ x.act.getLsbD l = true ∧ x.run.getLsbD l = true ∧ mfind x.g.poison (32 * idx l + l) ≠ none) →
      ∃ t, exec (.xget h d a b) s = .next (s.queueTrap x.gid t) ∧ t.cause = 0x16 ∧ t.pc = x.pc ∧ t.run = t.mask ∧
        ∀ l, l < 32 → (t.mask.getLsbD l = true ↔ x.act.getLsbD l = true ∧ x.run.getLsbD l = true ∧ mfind x.g.poison (32 * idx l + l) ≠ none)) ∧
    (∀ l, l < 32 → x.act.getLsbD l = true → x.run.getLsbD l = true → idx l ≥ x.g.nregs →
      (∀ k, k < l → x.act.getLsbD k = true → x.run.getLsbD k = true → idx k < x.g.nregs) →
      let trap := Host.Outcome.next (s.queueTrap x.gid (x.trap s 0x08 (x.act &&& x.run) (x.act &&& x.run) 0 (idx l)))
      (s.issueOf (.xget h d a b) true = .go x → exec (.xget h d a b) s = trap) ∧
      (s.issueOf (.xput h a b c) true = .go x → exec (.xput h a b c) s = trap)))

/-- R185, Table 11-6: VOTE's verdicts and ballot, and MATCH's masks. R186: GRED writes to every lane of Active the value that a tree of five
levels combines from Active's operands, and GSCAN the running combination in lane order, with the identity for an .excl lane that has none
before it; Combine is the sum (rounded to nearest even for a float), the smaller, the larger, or the bitwise operation. -/
def Obligations.VotesAndReductions : Prop :=
  (∀ (h : Hdr) (m : VoteOp) (ty : Ty) (z : Bool) (d a : Opnd) (p q : Nat),
    WritesOnly (.vote h m z (.reg d) p) true d 1 z (fun _ x _ => (x.act &&& x.g.pred p).toNat) ∧
    (∀ s x, s.issueOf (.vote h m z (.pred q) p) true = .go x →
      ∃ t g', exec (.vote h m z (.pred q) p) s = .next t ∧ OnlyGroup s t x.gid g' ∧ ∃ v : Bool,
        Effect x g' .z 0 false (fun _ => 0) q (fun _ => v) (fun _ => 0) ∧
        (m = .all → (v = true ↔ ∀ l, l < 32 → x.act.getLsbD l = true → pBit x.g p l = true)) ∧
        (m = .any → (v = true ↔ ∃ l, l < 32 ∧ x.act.getLsbD l = true ∧ pBit x.g p l = true)) ∧
        (m = .eq → (v = true ↔ ∀ k l, k < 32 → l < 32 → x.act.getLsbD k = true → x.act.getLsbD l = true → pBit x.g p k = pBit x.g p l))) ∧
    (∀ s x, s.issueOf (.matchLanes h .any ty z d a) true = .go x → ∃ t g' f, exec (.matchLanes h .any ty z d a) s = .next t ∧
      OnlyGroup s t x.gid g' ∧ Effect x g' d 1 z f 15 (fun _ => false) (fun _ => 0) ∧
      ∀ l k, k < 32 → (f l).testBit k = (x.act.getLsbD k && x.g.opnd a ty.regs k == x.g.opnd a ty.regs l)) ∧
    (∀ s x, s.issueOf (.matchLanes h .all ty z d a) true = .go x → ∃ t g' f, exec (.matchLanes h .all ty z d a) s = .next t ∧
      OnlyGroup s t x.gid g' ∧ Effect x g' d 1 z f 15 (fun _ => false) (fun _ => 0) ∧
      ∀ l, ((∀ k, k < 32 → x.act.getLsbD k = true → x.g.opnd a ty.regs k = x.g.opnd a ty.regs l) → f l = x.act.toNat) ∧
        ((∃ k, k < 32 ∧ x.act.getLsbD k = true ∧ x.g.opnd a ty.regs k ≠ x.g.opnd a ty.regs l) → f l = 0))) ∧
  (∀ (h : Hdr) (op : RedOp) (ty : Ty) (z excl : Bool) (d a : Opnd),
    let val := fun (x : Issue) l => if ty.isFloat then x.g.opndT ty a l else x.g.opnd a ty.regs l
    let tree := fun (x : Issue) =>
      (gredTree op ty ((List.range 32).map (fun l => if x.act.getLsbD l then some (val x l, 0) else none))).getD (0, 0)
    let scan := fun (x : Issue) => scanLanes op ty excl (val x) none 0 (lanesOf x.act)
    Writes (.gred h op ty z d a) true d ty.regs z (fun _ x _ => (tree x).1) (fun x _ => (tree x).2) ∧
    Writes (.gscan h op ty z excl d a) true d ty.regs z (fun _ x l => (((scan x).1.find? (fun e => e.1 == l)).map (·.2)).getD 0)
      (fun x _ => (scan x).2)) ∧
  -- Combine
  (∀ (ty : Ty) (x y : Nat),
    (ty.isFloat = false → combine .add ty x y = ((x + y) % 2 ^ ty.width, 0) ∧
      combine .min ty x y = (if intVal ty x ≤ intVal ty y then x else y, 0) ∧ combine .max ty x y = (if intVal ty y ≤ intVal ty x then x else y, 0)) ∧
    (ty.isFloat = true → combine .add ty x y = fresult ty .rn false (fsumV .rn [fval ty x, fval ty y]) ∧
      combine .min ty x y = fminmax ty false false x y ∧ combine .max ty x y = fminmax ty false true x y) ∧
    combine .and ty x y = (x &&& y, 0) ∧ combine .or ty x y = (x ||| y, 0) ∧ combine .xor ty x y = (x ^^^ y, 0)) ∧
  -- the tree: at each level lane l combines with lane l + 2^i, an absent one giving the other
  (∀ (op : RedOp) (ty : Ty) (lvl : Nat → Nat → Option Bits),
    (∀ i l, lvl (i + 1) l = match lvl i l, lvl i (l + 2 ^ i) with
      | none, y => y
      | x, none => x
      | some x, some y => some ((combine op ty x.1 y.1).1, x.2 ||| y.2 ||| (combine op ty x.1 y.1).2)) →
    gredTree op ty ((List.range 32).map (lvl 0)) = lvl 5 0) ∧
  -- the scan: the running combination acc, and the flags of the combinations made
  (∀ (op : RedOp) (ty : Ty) (excl : Bool) (val acc : Nat → Nat) (ls : List Nat),
    acc 0 = val (ls.getD 0 0) → (∀ i, acc (i + 1) = (combine op ty (acc i) (val (ls.getD (i + 1) 0))).1) →
    (scanLanes op ty excl val none 0 ls).1.length = ls.length ∧
    (∀ i, i < ls.length → (scanLanes op ty excl val none 0 ls).1.getD i (0, 0) = (ls.getD i 0,
      if excl then (if i = 0 then identity op ty else acc (i - 1)) else acc i)) ∧
    ∀ n, (scanLanes op ty excl val none 0 ls).2.getLsbD n = true ↔
      ∃ i, i + 1 < ls.length ∧ (excl = true → i + 2 < ls.length) ∧ (combine op ty (acc i) (val (ls.getD (i + 1) 0))).2.getLsbD n = true) ∧
  (∀ ty : Ty, identity .add ty = 0 ∧ identity .or ty = 0 ∧ identity .xor ty = 0 ∧ identity .and ty = 2 ^ ty.width - 1) ∧
  identity .min .f32 = 0x7F800000 ∧ identity .max .f32 = 0xFF800000 ∧ identity .min .f64 = 0x7FF0000000000000 ∧
  identity .max .f64 = 0xFFF0000000000000 ∧ identity .min .u32 = 0xFFFFFFFF ∧ identity .max .u32 = 0 ∧ identity .min .s32 = 0x7FFFFFFF ∧
  identity .max .s32 = 0x80000000 ∧ identity .min .u64 = 2 ^ 64 - 1 ∧ identity .max .u64 = 0 ∧ identity .min .s64 = 2 ^ 63 - 1 ∧
  identity .max .s64 = 2 ^ 63

/-! ### Registers (R113, R128–R142, R180, R187, R193, R208) -/

/-- R113, R180, R187, R208: NOP advances the run; PREF advances it, counts nothing, and sends one prefetch of no group for the lanes of
Active whose addresses translate; YIELD makes the group as if it had become ready after the instruction; QHELP makes the ended lanes of
Active's quads helpers, or clears them. R136, R137: PSET tests bits into a predicate, and PMOV copies between a predicate and a register. -/
def Obligations.HintsAndPredicates : Prop :=
  (∀ (h : Hdr) (w64 on : Bool) (hint : CacheH) (a : Opnd) (off : BitVec 24),
    WritesOnly (.nop h) false .z 0 false (fun _ _ _ => 0) ∧
    (∀ (s : State) (x : Issue) (key : Nat → Nat) (lk mg : Nat → Bool), s.issueOf (.pref h w64 hint a off) false = .go x → x.reissue = none →
      (x.act = 0 → ∃ t g', exec (.pref h w64 hint a off) s = .next t ∧ OnlyGroup s t x.gid g' ∧ Stepped x.g g' x.run ∧
        { g' with lanes := x.g.lanes } = x.g) ∧
      (x.act ≠ 0 →
        let m := x.desc (.pref (hint == .ca) (hint == .nt)) .b8 1 none none .device .none
        let lanes := if m.uni then [lowestLane x.act] else lanesOf x.act
        let va := fun (l : Nat) => BitVec.ofNat 64 (x.g.opnd a (if w64 then 2 else 1) l + offOf off)
        (∀ l ∈ lanes, canonical (va l) = true ∧ Translates s x.g (va l) .r (key l) (lk l) (mg l)) →
        ∃ t g', exec (.pref h w64 hint a off) s = .next t ∧ t.grp? x.gid = some g' ∧ (∀ j, j ≠ x.gid → t.grp? j = s.grp? j) ∧
          Stepped x.g g' x.run ∧ { g' with lanes := x.g.lanes } = x.g ∧ t.nextId = s.nextId + 1 ∧
          (let accs : List Acc := lanes.map (fun l => { lane := l, va := va l, key := key l, lockok := lk l, mig := mg l, st := .wait })
           mfind t.ops s.nextId = some { gid := 0, ctx := x.g.ctx, cluster := x.g.cluster, core := x.g.core, job := .outside, kind := .mem m accs }) ∧
          (∀ k, k ≠ s.nextId → mfind t.ops k = mfind s.ops k) ∧ { t with groups := s.groups, ops := s.ops, nextId := s.nextId } = s)) ∧
    (∀ s x, s.issueOf (.yield h) false = .go x → ∃ t g', exec (.yield h) s = .next t ∧ OnlyGroup s t x.gid g' ∧ Stepped x.g g' x.run ∧
      g'.readyAt = (if x.act = 0 then x.g.readyAt else s.clk + 1) ∧ { g' with readyAt := x.g.readyAt, lanes := x.g.lanes } = x.g) ∧
    (∀ s x, s.issueOf (.qhelp h on) true = .go x → ∃ t g', exec (.qhelp h on) s = .next t ∧ OnlyGroup s t x.gid g' ∧ Stepped x.g g' x.run ∧
      { g' with helper := x.g.helper, lanes := x.g.lanes } = x.g ∧
      ∀ l, l < 32 → (g'.helper.getLsbD l = true ↔
        if x.act = 0 then x.g.helper.getLsbD l = true
        else on = true ∧ (x.g.lane l).st = .exited ∧ ∃ k, k < 4 ∧ x.act.getLsbD (4 * (l / 4) + k) = true))) ∧
  (∀ (h : Hdr) (p : Nat) (a b r : Opnd),
    WritesPred (.pset h p a b) false p (fun x l => decide (x.g.opnd a 1 l &&& x.g.opnd b 1 l ≠ 0)) (fun _ _ => 0) ∧
    WritesOnly (.pmov h false p r) false r 1 false (fun _ x _ => (x.g.pred p).toNat) ∧
    (∀ s x, s.issueOf (.pmov h true p r) false = .go x → ∃ t g', exec (.pmov h true p r) s = .next t ∧ OnlyGroup s t x.gid g' ∧
      Stepped x.g g' x.run ∧ { g' with p := x.g.p, lanes := x.g.lanes } = x.g ∧
      ∀ k l, l < 32 → pBit g' k l = if k = p ∧ p < 15 ∧ x.act ≠ 0 then
          (if x.once then (x.g.opnd r 1 x.lead).testBit l else if x.act.getLsbD l then (x.g.opnd r 1 l).testBit l else pBit x.g k l)
        else pBit x.g k l))

/-- R141, Table 9-3: RDSR writes the special register's value, lane by lane where it has one value a lane; %regtime is the core's copy of the Regulator. R142, R193, Table 11-7: WRSR
writes %fpflags and, unless entries are spilled, %cstack; TQRD reads the record at the head of the trap queue, word by word. -/
def Obligations.SpecialRegisters : Prop :=
  (∀ (h : Hdr) (d : Opnd),
    let reads := fun (r : SReg) (w : Nat) (f : State → Issue → Nat → Nat) => WritesOnly (.rdsr h d r) false d w false f
    reads .laneid 1 (fun _ _ l => l) ∧ reads .quadid 1 (fun _ _ l => l / 4) ∧ reads .groupid 1 (fun _ x _ => x.g.grp) ∧
    reads .teamid 1 (fun _ x _ => x.g.team) ∧ reads .gangx 1 (fun s x _ => (mget ({} : Gang) s.gangs x.g.gang).gx) ∧
    reads .gangy 1 (fun s x _ => (mget ({} : Gang) s.gangs x.g.gang).gy) ∧ reads .gangz 1 (fun s x _ => (mget ({} : Gang) s.gangs x.g.gang).gz) ∧
    reads .ngangx 1 (fun s x _ => (mget ({} : Launch) s.launches x.g.launch).lr.ngx) ∧
    reads .ngangy 1 (fun s x _ => (mget ({} : Launch) s.launches x.g.launch).lr.ngy) ∧
    reads .ngangz 1 (fun s x _ => (mget ({} : Launch) s.launches x.g.launch).lr.ngz) ∧
    reads .active 1 (fun _ x _ => x.act.toNat) ∧ reads .clock 2 (fun s _ _ => s.clk) ∧ reads .regtime 2 (fun s x _ => s.regtime x.g) ∧
    reads .ctime 2 (fun _ x _ => x.g.ctime.toNat) ∧ reads .fpflags 1 (fun _ x _ => x.g.fpflags.toNat) ∧
    reads .cstack 2 (fun _ x _ => x.g.cstack.toNat) ∧ reads .args 2 (fun _ x _ => x.g.args.toNat) ∧ reads .regs 1 (fun _ x _ => x.g.nregs) ∧
    reads .coreid 1 (fun _ x _ => x.g.core) ∧ reads .clusterid 1 (fun _ x _ => x.g.cluster) ∧ reads .ctxid 1 (fun _ x _ => x.g.ctx) ∧
    (∀ (s : State) (g : Group), s.regtime g = s.now - mget 0 s.lagCl g.cluster) ∧
    reads .trapinfo 1 (fun _ x _ => 256 * x.g.trapq.length + (if x.g.hmode then (x.g.trapq.headD { cause := 0, mask := 0, pc := 0, run := 0 }).cause else 0))) ∧
  (∀ (h : Hdr) (a d : Opnd) (s : State) (x : Issue),
    (s.issueOf (.wrsr h a .fpflags) false = .go x → ∃ t g', exec (.wrsr h a .fpflags) s = .next t ∧ OnlyGroup s t x.gid g' ∧ Stepped x.g g' x.run ∧
      { g' with fpflags := x.g.fpflags, lanes := x.g.lanes } = x.g ∧
      g'.fpflags.toNat = if x.act = 0 then x.g.fpflags.toNat else x.g.opnd a 1 x.lead % 64) ∧
    (s.issueOf (.wrsr h a .cstack) false = .go x → (x.act ≠ 0 → ∀ l ∈ x.g.lanes, l.depth ≤ 4) →
      ∃ t g', exec (.wrsr h a .cstack) s = .next t ∧ OnlyGroup s t x.gid g' ∧ Stepped x.g g' x.run ∧
      { g' with cstack := x.g.cstack, lanes := x.g.lanes } = x.g ∧
      (x.act = 0 → g'.cstack = x.g.cstack) ∧ (x.act ≠ 0 → g'.cstack = BitVec.ofNat 64 (8 * (x.g.opnd a 2 x.lead / 8)))) ∧
    (s.issueOf (.wrsr h a .cstack) false = .go x → x.act ≠ 0 → (∃ l ∈ x.g.lanes, l.depth > 4) →
      exec (.wrsr h a .cstack) s = .next (s.queueTrap x.gid (x.trap s 0x0A x.act x.act))) ∧
    WritesOnly (.tqrd h d) false d 1 false (fun _ x l => match x.g.trapq with
      | [] => 0
      | t :: _ => match l % 16 with
        | 0 => 256 * t.depth + t.cause | 1 => t.mask.toNat | 2 => t.pc.toNat % 2 ^ 32 | 3 => t.pc.toNat / 2 ^ 32
        | 4 => t.addr.toNat % 2 ^ 32 | 5 => t.addr.toNat / 2 ^ 32 | 6 => t.regt.toNat % 2 ^ 32 | 7 => t.regt.toNat / 2 ^ 32
        | 8 => t.code.toNat | 9 => t.word0.toNat | 10 => t.run.toNat | 11 => t.detail.toNat | _ => 0))

/-! ### Control flow (R175–R182) -/

/-- R175, R177: BRA and BRX move each lane of Active to its target; CALL and CALLX also push the following slot and RET pops; the rest of
the run advances one slot and nothing else changes. R177: a CALL of four entries or more spills the oldest one to the lane's call-stack
memory as it moves; a RET from more than four refills one, and its run is held until the value has come. R175, R177: the traps of control
transfers, in which the failing lanes stay where they stand: a target that is no code address, a call stack that is full, a return from an
empty one. Choices of the model that it takes part in: log 83. -/
def Obligations.Branches : Prop :=
  (∀ (h : Hdr) (imm : BitVec 32) (a : Opnd) (s : State) (x : Issue),
    let calls := fun (l : Nat) (t : DWord) => ({ x.g.lane l with pc := t, depth := (x.g.lane l).depth + 1, stack := (nextPc x.pc :: (x.g.lane l).stack).take x.g.onChip } : Lane)
    let rets := fun (l : Nat) => ({ x.g.lane l with pc := (x.g.lane l).stack.headD 0, depth := (x.g.lane l).depth - 1, stack := (x.g.lane l).stack.tail } : Lane)
    let shallow := ∀ l, l < 32 → x.act.getLsbD l = true → (x.g.lane l).depth < x.g.onChip
    let valid := ∀ l, l < 32 → x.act.getLsbD l = true → validCode (BitVec.ofNat 64 (x.g.opnd a 2 l)) = true
    let returns := ∀ l, l < 32 → x.act.getLsbD l = true → ∃ t r, (x.g.lane l).stack = t :: r ∧ validCode t = true
    (s.issueOf (.bra h imm) false = .go x →
      ∃ t g', exec (.bra h imm) s = .next t ∧ OnlyGroup s t x.gid g' ∧ Moved x g' (fun l => { x.g.lane l with pc := branchPc x.pc imm })) ∧
    (s.issueOf (.brx h a) false = .go x → valid →
      ∃ t g', exec (.brx h a) s = .next t ∧ OnlyGroup s t x.gid g' ∧
        Moved x g' (fun l => { x.g.lane l with pc := BitVec.ofNat 64 (x.g.opnd a 2 l) })) ∧
    (s.issueOf (.call h imm) false = .go x → shallow →
      ∃ t g', exec (.call h imm) s = .next t ∧ OnlyGroup s t x.gid g' ∧ Moved x g' (fun l => calls l (branchPc x.pc imm))) ∧
    (s.issueOf (.callx h a) false = .go x → valid → shallow →
      ∃ t g', exec (.callx h a) s = .next t ∧ OnlyGroup s t x.gid g' ∧ Moved x g' (fun l => calls l (BitVec.ofNat 64 (x.g.opnd a 2 l)))) ∧
    (s.issueOf (.ret h) false = .go x → returns → (∀ l, l < 32 → x.act.getLsbD l = true → (x.g.lane l).depth ≤ x.g.onChip) →
      ∃ t g', exec (.ret h) s = .next t ∧ OnlyGroup s t x.gid g' ∧ Moved x g' rets) ∧
    (∀ (key : Nat → Nat) (mg : Nat → Bool), x.g.isSeq = false → x.act ≠ 0 →
      let entry := fun (l : Nat) (n : Nat) => BitVec.ofNat 64 (x.g.cstack.toNat + 4096 * l + 8 * n)
      let sent := fun (t : State) (kind : MemKind) (acc : Nat → Acc) =>
        { t with groups := s.groups, ops := s.ops, nextId := s.nextId, copies := s.copies, cores := s.cores } = s ∧
        (∀ j, j ≠ x.gid → t.grp? j = s.grp? j) ∧ (∀ j, j ≠ s.nextId → mfind t.ops j = mfind s.ops j) ∧
        ∃ o m, mfind t.ops s.nextId = some o ∧ o.gid = x.gid ∧ o.cls = none ∧ o.ctx = x.g.ctx ∧ o.cluster = x.g.cluster ∧
          o.job = .stack ∧ m.kind = kind ∧ m.width = 8 ∧ m.act = x.act ∧ o.kind = .mem m ((lanesOf x.act).map acc)
      (s.issueOf (.call h imm) false = .go x →
        (∀ l ∈ lanesOf x.act, 4 ≤ (x.g.lane l).depth ∧ (x.g.lane l).depth < 516 ∧
          (x.g.lane l).stack.length = 4 ∧ Translates s x.g (entry l ((x.g.lane l).depth - 4)) .w (key l) false (mg l)) →
        ∃ t g', exec (.call h imm) s = .next t ∧ t.grp? x.gid = some g' ∧ Moved x g' (fun l => calls l (branchPc x.pc imm)) ∧
          sent t .store (fun l => { lane := l, va := entry l ((x.g.lane l).depth - 4), key := key l, mig := mg l,
                                    data := ((x.g.lane l).stack.getD 3 0).toNat, st := .wait })) ∧
      (s.issueOf (.ret h) false = .go x → returns → x.g.block = .none →
        (∀ l ∈ lanesOf x.act, 4 < (x.g.lane l).depth ∧
          Translates s x.g (entry l ((x.g.lane l).depth - 5)) .r (key l) false (mg l)) →
        ∃ t g', exec (.ret h) s = .next t ∧ t.grp? x.gid = some g' ∧
          g'.block = .stack s.nextId ((lanesOf x.act).map (fun l => (l, rets l))) ∧
          (∀ l, l < x.g.lanes.length → g'.lane l = if (x.run &&& ~~~x.act).getLsbD l then { x.g.lane l with pc := nextPc (x.g.lane l).pc } else x.g.lane l) ∧
          sent t .load (fun l => { lane := l, va := entry l ((x.g.lane l).depth - 5), key := key l, mig := mg l, st := .wait })))) ∧
  (∀ (s : State) (id : Nat) (o : Op) (m : MemDesc) (g : Group) (moves : List (Nat × Lane)) (val : Nat → Nat),
    mfind s.ops id = some o → o.desc? = some m → m.kind = .load → s.grp? o.gid = some g → g.block = .stack id moves →
    o.accs.map (fun a => a.lane) = moves.map (fun e => e.1) → (moves.map (fun e => e.1)).Nodup →
    (∀ a ∈ o.accs, a.st = .done ∧ a.res = val a.lane) →
    ∃ g', (s.stackEnd id).grp? o.gid = some g' ∧ g'.block = .none ∧ mfind (s.stackEnd id).ops id = none ∧
      ∀ e ∈ moves, e.1 < 32 → e.1 < g.lanes.length → g'.lane e.1 = { e.2 with stack := e.2.stack ++ [BitVec.ofNat 64 (val e.1)] }) ∧
  (∀ (h : Hdr) (imm : BitVec 32) (a : Opnd) (s : State) (x : Issue), x.act ≠ 0 →
    let fails := fun (cause : Nat) (addr : DWord) =>
      Host.Outcome.next ((s.updGrp x.gid (fun g => g.advance (x.run &&& ~~~x.act))).queueTrap x.gid (x.trap s cause x.act x.act addr))
    (∀ t, validCode t = false → (∀ l, l < 32 → x.act.getLsbD l = true → BitVec.ofNat 64 (x.g.opnd a 2 l) = t) →
      (s.issueOf (.brx h a) false = .go x → exec (.brx h a) s = fails 0x07 t) ∧
      (s.issueOf (.callx h a) false = .go x → exec (.callx h a) s = fails 0x07 t)) ∧
    (s.issueOf (.call h imm) false = .go x →
      (∀ l, l < 32 → x.act.getLsbD l = true → (x.g.lane l).depth ≥ x.g.maxDepth) → exec (.call h imm) s = fails 0x0B 0) ∧
    (s.issueOf (.ret h) false = .go x → (∀ l, l < 32 → x.act.getLsbD l = true → (x.g.lane l).stack = []) →
      exec (.ret h) s = fails 0x0C 0))

/-- R179: ENROL, LEAVE and REJOIN change one barrier's mask and the lanes that wait at it; the release test lets all of them go when the
last enrolled lane has arrived. -/
def Obligations.RejoinBarriers : Prop :=
  (∀ (h : Hdr) (n : Nat) (s : State) (x : Issue),
    (s.issueOf (.enrol h n) false = .go x → ∃ t g', exec (.enrol h n) s = .next t ∧ OnlyGroup s t x.gid g' ∧ Stepped x.g g' x.run ∧
      (∀ k, mget 0 g'.b k = if k = n then mget 0 x.g.b k ||| x.act else mget 0 x.g.b k) ∧ { g' with b := x.g.b, lanes := x.g.lanes } = x.g) ∧
    (s.issueOf (.leave h n) false = .go x → ∃ t, ∃ g' : Group, exec (.leave h n) s = .next t ∧ OnlyGroup s t x.gid (g'.releaseTest n) ∧
      Stepped x.g g' x.run ∧ (∀ k, mget 0 g'.b k = if k = n then mget 0 x.g.b k &&& ~~~x.act else mget 0 x.g.b k) ∧
      { g' with b := x.g.b, lanes := x.g.lanes } = x.g) ∧
    (s.issueOf (.rejoin h n) false = .go x → ∃ t, ∃ g' : Group, exec (.rejoin h n) s = .next t ∧ OnlyGroup s t x.gid (g'.releaseTest n) ∧
      g'.lanes.length = x.g.lanes.length ∧
      (∀ l, l < x.g.lanes.length → g'.lane l =
        if (x.act &&& mget 0 x.g.b n).getLsbD l then { x.g.lane l with st := .rejoin n }
        else if x.run.getLsbD l then { x.g.lane l with pc := nextPc (x.g.lane l).pc } else x.g.lane l) ∧
      { g' with lanes := x.g.lanes } = x.g)) ∧
  (∀ (g : Group) (n : Nat),
    let waits := ∀ l, l < 32 → (mget 0 g.b n).getLsbD l = true → (g.lane l).st = .rejoin n
    (mget 0 g.b n ≠ 0 → waits → (∀ k, mget 0 (g.releaseTest n).b k = if k = n then 0 else mget 0 g.b k) ∧
      (∀ l, l < g.lanes.length → (g.releaseTest n).lane l =
        if (mget 0 g.b n).getLsbD l then { g.lane l with st := .run, wait := 0 } else g.lane l)) ∧
    (mget 0 g.b n = 0 ∨ ¬ waits → g.releaseTest n = g))

/-- R180: EXIT ends the lanes of Active and the rest of the run goes on at the following slot; the ended lanes leave every rejoin barrier,
and a barrier whose remaining lanes all wait lets them go; registers and memory keep their contents. With an empty Active it only advances
the run. -/
def Obligations.LaneEnds : Prop :=
  ∀ (h : Hdr) (s : State) (x : Issue), s.issueOf (.exit h) false = .go x →
    (x.act = 0 → ∃ t g', exec (.exit h) s = .next t ∧ OnlyGroup s t x.gid g' ∧ Stepped x.g g' x.run ∧ { g' with lanes := x.g.lanes } = x.g) ∧
    (x.act ≠ 0 → x.g.inCallee = false → x.g.block = .none → x.g.gcall = none → x.g.lanes.length = 32 →
      (∀ n, 16 ≤ n → mget 0 x.g.b n = 0) →
      ∃ t g', exec (.exit h) s = .next t ∧ t.grp? x.gid = some g' ∧ t.mem = s.mem ∧ g'.v = x.g.v ∧ g'.sc = x.g.sc ∧ g'.p = x.g.p ∧
        g'.lanes.length = 32 ∧
        (∀ l, l < 32 → x.act.getLsbD l = true → (g'.lane l).st = .exited) ∧
        (∀ l, l < 32 → x.run.getLsbD l = true → x.act.getLsbD l = false → (x.g.lane l).st = .run →
          (g'.lane l).st = .run ∧ (g'.lane l).pc = nextPc (x.g.lane l).pc) ∧
        ∀ n, n < 16 →
          let left := mget 0 x.g.b n &&& ~~~x.act
          let waits := ∀ l, l < 32 → left.getLsbD l = true → (x.g.lane l).st = .rejoin n
          (left = 0 ∨ ¬ waits → mget 0 g'.b n = left) ∧
          (left ≠ 0 → waits → mget 0 g'.b n = 0 ∧ ∀ l, l < 32 → left.getLsbD l = true → (g'.lane l).st = .run))

/-- R181: TBAR and TBARA arrive at the team's barrier. It completes when no group holds it back: the mask clears, the generation flips and
every waiting lane advances; else the arrival is noted and TBAR's lanes wait, after which the core checks for a register deadlock (R132).
With an empty Active neither does anything but advance the run. In a gate callee the barrier is the group's own (R333). -/
def Obligations.TeamBarrier : Prop :=
  (∀ (h : Hdr) (s : State) (x : Issue), x.act ≠ 0 → x.g.inCallee = false →
    (s.issueOf (.tbara h) false = .go x → exec (.tbara h) s = .next ((s.updGrp x.gid (fun g => g.advance x.run)).arrive x.g)) ∧
    (s.issueOf (.tbar h) false = .go x → exec (.tbar h) s = .next (((s.updGrp x.gid (fun g =>
      (g.advance (x.run &&& ~~~x.act)).onLanes x.act (fun l => { l with st := .tbar }))).arrive x.g).deadlockCheck x.g.core 64))) ∧
  (∀ (h : Hdr) (s : State) (x : Issue), x.act = 0 ∨ x.g.inCallee = true →
    (s.issueOf (.tbara h) false = .go x → ∃ t g', exec (.tbara h) s = .next t ∧ OnlyGroup s t x.gid g' ∧ Stepped x.g g' x.run ∧
      { g' with lanes := x.g.lanes } = x.g) ∧
    (s.issueOf (.tbar h) false = .go x → ∃ t g', exec (.tbar h) s = .next t ∧ OnlyGroup s t x.gid g' ∧ Stepped x.g g' x.run ∧
      { g' with lanes := x.g.lanes } = x.g)) ∧
  (∀ (s : State) (g : Group),
    let mask := (s.team g.gang g.team).barMask ||| BitVec.ofNat 16 (2 ^ g.grp)
    let inTeam := fun (q : Group) => q.gang = g.gang ∧ q.team = g.team ∧ q.isSeq = false
    let held := ∃ e ∈ s.groups, inTeam e.2 ∧ e.2.live ≠ 0 ∧ (mask.getLsbD e.2.grp = false ∨ e.2.inCallee = true)
    let there := g.grp < 16 ∧ g.team < (mget ({} : Gang) s.gangs g.gang).teams.length
    let passed := fun (q : Group) => { q with lanes := q.lanes.map (fun x => if x.st = .tbar then { x with pc := nextPc x.pc, st := .run, wait := 0 } else x) }
    (there → held → s.arrive g = s.updTeam g.gang g.team (fun t => { t with barMask := mask })) ∧
    (there → ¬ held → (s.arrive g).mem = s.mem ∧ ((s.arrive g).team g.gang g.team).barMask = 0 ∧
      ((s.arrive g).team g.gang g.team).barGen = !(s.team g.gang g.team).barGen ∧
      ∀ k q, s.grp? k = some q → (s.groups.map (fun e => e.1)).Nodup →
        (inTeam q → (s.arrive g).grp? k = some (passed q)) ∧ (¬ inTeam q → (s.arrive g).grp? k = some q)))

/-- R130, R131: GROW raises the window within the issue when the granules are free beyond those that blocked requests still need, its
predicate becomes all ones and its new registers read zero; else the group blocks. SHRINK lowers the window, and what stood above is lost.
R131: GROW_GRANT serves the oldest blocked request once its granules are free, and GROW_TIMEOUT refuses a GROW.try after 65,536 clk. R132:
when every group of the core is blocked in GROW or waits in TBAR and the oldest request cannot be granted, the youngest is refused: a .try
clears its predicate and goes on, a .must traps REGISTER_DEADLOCK where it stands.
Choices of the model that it takes part in: log 33, 81, 84. -/
def Obligations.RegisterWindow : Prop :=
  (∀ (h : Hdr) (must : Bool) (p : Nat) (imm : BitVec 32) (s : State) (x : Issue),
    (s.issueOf (.grow h must p imm) false = .go x →
      let need := (imm.toNat - x.g.nregs) / 8
      let older := ((s.growWaits x.g.core).map (fun e => e.2.1)).sum
      (x.act = 0 → ∃ t g', exec (.grow h must p imm) s = .next t ∧ OnlyGroup s t x.gid g' ∧ Stepped x.g g' x.run ∧ { g' with lanes := x.g.lanes } = x.g) ∧
      (x.act ≠ 0 → imm.toNat ≤ x.g.nregs ∨ need + older ≤ s.freeGranules x.g.core →
        ∃ t g' gs, exec (.grow h must p imm) s = .next t ∧ Grown s t x.gid x.g imm.toNat p x.run g' gs) ∧
      (x.act ≠ 0 → imm.toNat > x.g.nregs → s.freeGranules x.g.core < need + older →
        exec (.grow h must p imm) s =
          .next ((s.updGrp x.gid (fun g => { g with block := .grow imm.toNat must p x.run s.clk })).deadlockCheck x.g.core 64))) ∧
    (s.issueOf (.shrink h imm) false = .go x →
      ∃ t g', exec (.shrink h imm) s = .next t ∧ OnlyGroup s t x.gid g' ∧ Stepped x.g g' x.run ∧
        (if x.act = 0 ∨ imm.toNat ≥ x.g.nregs then { g' with lanes := x.g.lanes } = x.g
         else g'.nregs = imm.toNat ∧ g'.gmap = x.g.gmap.take (imm.toNat / 8) ∧ (∀ k l, l < 32 → vReg g' k l = if k < imm.toNat then vReg x.g k l else 0) ∧
           { g' with nregs := x.g.nregs, gmap := x.g.gmap, v := x.g.v, poison := x.g.poison, lanes := x.g.lanes } = x.g))) ∧
  (∀ (s : State) (core gid n p : Nat) (g : Group) (must : Bool) (lanes : Word) (since : Nat),
    s.grp? gid = some g → g.block = .grow n must p lanes since → g.gcall = none →
    (g.core = core → oldest (s.growWaits core) = some (gid, (n - g.nregs) / 8, 0, since) → (n - g.nregs) / 8 ≤ s.freeGranules core →
      ∃ t g' gs, exec (.growGrant core) s = .next t ∧ Grown s t gid g n p lanes g' gs) ∧
    (must = false → s.resident g = true → s.clk ≥ since + 65536 →
      exec (.growTimeout gid) s = .next (s.refuseGrow gid)) ∧
    (must = false → ∃ g', OnlyGroup s (s.refuseGrow gid) gid g' ∧ Stepped g g' lanes ∧ g'.block = .none ∧
        (∀ k l, l < 32 → pBit g' k l = if k = p ∧ p < 15 then false else pBit g k l) ∧
        { g' with p := g.p, block := g.block, lanes := g.lanes } = g) ∧
    (must = true → ∃ t, s.refuseGrow gid = (s.updGrp gid (fun g => { g with block := .none })).queueTrap gid t ∧
      t.cause = 0x09 ∧ t.mask = lanes ∧ t.run = lanes ∧ t.pc = (g.lane (lowestLane lanes)).pc)) ∧
  (∀ (s : State) (core n : Nat),
    let stuck := ∀ e ∈ s.groups, e.2.core = core → e.2.isSeq = false → s.resident e.2 = true → e.2.live ≠ 0 →
      (s.wants e.1 e.2).isSome = true ∨ ∀ l, l < 32 → (e.2.lane l).st = .exited ∨ (e.2.lane l).st = .tbar
    (¬ stuck → s.deadlockCheck core n = s) ∧ (s.growWaits core = [] → s.deadlockCheck core n = s) ∧
    (∀ o, oldest (s.growWaits core) = some o → s.grantable core o = true → s.deadlockCheck core n = s) ∧
    (∀ o y, stuck → oldest (s.growWaits core) = some o → youngest (s.growWaits core) = some y → s.grantable core o = false →
      s.deadlockCheck core (n + 1) = (s.refuseGrow y.1).deadlockCheck core n) ∧
    (∀ ws e, oldest ws = some e → e ∈ ws ∧ ∀ w ∈ ws, e.2.2.2 ≤ w.2.2.2) ∧
    (∀ ws e, youngest ws = some e → e ∈ ws ∧ ∀ w ∈ ws, w.2.2.2 ≤ e.2.2.2))

/-! ### Traps (R188–R193) -/

/-- R188: TRAP and BRK queue a trap for the lanes of Active, which stay where they stand, and the rest of the run advances. A queued
record takes its depth from its place; beyond eight none is taken. R192: a trap of lanes that run a handler holds the group and goes to
the context's error ring. Choices of the model that it takes part in: log 18, 25. -/
def Obligations.SoftwareTraps : Prop :=
  (∀ (h : Hdr) (imm : BitVec 32) (s : State) (x : Issue), x.act ≠ 0 →
    let fails := fun (cause detail : Nat) =>
      Host.Outcome.next ((s.updGrp x.gid (fun g => g.advance (x.run &&& ~~~x.act))).queueTrap x.gid
        { cause := cause, mask := x.act, pc := x.pc, addr := 0, regt := BitVec.ofNat 64 (s.regtime x.g), code := imm, word0 := x.word0,
          run := x.act, detail := BitVec.ofNat 32 detail })
    (s.issueOf (.trap h imm) false = .go x → exec (.trap h imm) s = fails 0x01 0) ∧
    (s.issueOf (.brk h imm) false = .go x → exec (.brk h imm) s = fails 0x02 0xFFFFFFFF)) ∧
  (∀ (h : Hdr) (imm : BitVec 32) (s : State) (x : Issue), x.act = 0 →
    (s.issueOf (.trap h imm) false = .go x → exec (.trap h imm) s = .next (s.updGrp x.gid (fun g => g.advance x.run))) ∧
    (s.issueOf (.brk h imm) false = .go x → exec (.brk h imm) s = .next (s.updGrp x.gid (fun g => g.advance x.run)))) ∧
  (∀ (s : State) (gid : Nat) (g : Group) (t : TrapRec), s.grp? gid = some g → g.isSeq = false →
    let handled := g.hmode = true ∧ ∃ h q, g.trapq = h :: q ∧ t.run &&& h.run ≠ 0
    (handled → g.frames = [] → s.queueTrap gid t = (s.updGrp gid (fun g => { g with held := true })).addErr g.ctx (.trap gid t)) ∧
    (¬ handled → g.trapq.length < 8 → OnlyGroup s (s.queueTrap gid t) gid
      { g with trapq := g.trapq ++ [{ t with depth := g.trapq.length + 1 }], trTraps := g.trTraps + 1 }) ∧
    (¬ handled → g.trapq.length ≥ 8 → s.queueTrap gid t = s))

/-- R190, R192: a trap is delivered to a group that is not in handler mode: its RUN lanes go to the context's trap entry and the group
enters handler mode. With no trap entry the group is held and the record goes to the context's error ring. R191: TRET ends the handler:
the head record leaves the queue, its RUN lanes that have not ended return to its PC or to the following slot, and handler mode ends.
Outside a handler it is illegal. R356: an error record takes the next slot of its context's ring, or is dropped and counted.
Choices of the model that it takes part in: log 20, 25. -/
def Obligations.TrapHandlers : Prop :=
  (∀ (s : State) (gid : Nat) (g : Group) (t : TrapRec) (q : List TrapRec),
    s.grp? gid = some g → g.trapq = t :: q → g.hmode = false → g.held = false → g.dbgHeld = false → g.frames = [] →
    ¬ ((t.cause = 2 ∨ t.cause = 3) ∧ (mget {} s.cores g.core).dbg.claim ≠ 0 ∧ (mget {} s.cores g.core).dbg.claim = g.ctx) →
    ((mget {} s.ctxs g.ctx).trapent ≠ 0 → ∃ s' g', exec (.trapDelivery gid) s = .next s' ∧ OnlyGroup s s' gid g' ∧ g'.hmode = true ∧
      g'.lanes.length = g.lanes.length ∧
      (∀ l, l < g.lanes.length → g'.lane l =
        if t.run.getLsbD l then { g.lane l with pc := (mget {} s.ctxs g.ctx).trapent, wait := 0 } else g.lane l) ∧
      { g' with hmode := false, lanes := g.lanes } = g) ∧
    ((mget {} s.ctxs g.ctx).trapent = 0 → exec (.trapDelivery gid) s =
      .next ((s.updGrp gid (fun g => { g with held := true })).addErr g.ctx (.trap gid t)))) ∧
  (∀ (h : Hdr) (skip : Bool) (s : State) (x : Issue) (t : TrapRec) (q : List TrapRec),
    s.issueOf (.tret h skip) false = .go x → x.act ≠ 0 →
    (x.g.hmode = true → x.g.trapq = t :: q → ∃ s' g', exec (.tret h skip) s = .next s' ∧ OnlyGroup s s' x.gid g' ∧ g'.hmode = false ∧ g'.trapq = q ∧
      g'.held = false ∧ g'.lanes.length = x.g.lanes.length ∧
      (∀ l, l < x.g.lanes.length → t.run.getLsbD l = true → (x.g.lane l).st ≠ .exited → (x.g.lane l).st ≠ .gret →
        g'.lane l = { x.g.lane l with pc := if skip then nextPc t.pc else t.pc, st := .run, wait := 0 }) ∧
      (∀ l, l < x.g.lanes.length → t.run.getLsbD l = false → g'.lane l = { x.g.lane l with wait := 0 }) ∧
      g'.v = x.g.v ∧ g'.sc = x.g.sc ∧ g'.p = x.g.p ∧ g'.fpflags = x.g.fpflags) ∧
    (x.g.hmode = false → exec (.tret h skip) s = .next (s.queueTrap x.gid (x.trap s 0x04 x.act x.act)))) ∧
  (∀ (s : State) (ctx : Nat) (c : Ctx) (e : ErrRec), mfind s.ctxs ctx = some c →
    (s.errRoom ctx c = true → ∃ c', mfind (s.addErr ctx e).ctxs ctx = some c' ∧
      c'.errs = c.errs ++ [{ what := e, regt := s.now }] ∧ { c' with errs := c.errs } = c ∧ ∃ o, mfind (s.addErr ctx e).ops s.nextId = some o ∧
        ∃ m a, o.kind = .mem m [a] ∧ m.kind = .store ∧ m.width = 64 ∧ a.key = c.errBase + 64 * (c.errs.length % c.errSlots)) ∧
    (s.errRoom ctx c = false → mfind (s.addErr ctx e).ctxs ctx = some { c with errLost := c.errLost + 1 }))

/-! ### Global memory (R195–R216) -/

/-- R197, R199–R202, R206, R209, R210, R238: what each instruction on global memory sends: its address is `[A]` or `[A:A+1]` plus the
signed offset, aligned to the width of its type, and its data come from B; MONARM makes one access for its run. R69: a release
waits for its fence first (AccessChecks), an acquire after.
Choices of the model that it takes part in: log 29, 32. -/
def Obligations.AccessesSent : Prop :=
  (∀ (h : Hdr) (w64 : Bool) (ty : Ty) (sc : Scope) (ord : Ord) (ch : CacheH) (d a : Opnd) (off : BitVec 24),
    Sends (.ld h w64 ty sc ord ch d a off) true (fun x => (x.desc .load ty (ty.width / 8) (some .ld) (dest d) sc ord).placed ch) (ty.width / 8) a w64
      (offOf off) (fun _ _ => (0, 0)) ∧
    Sends (.st h w64 ty sc ord ch d a off) false (fun x => x.desc .store ty (ty.width / 8) (some .st) none sc ord) (ty.width / 8) d w64
      (offOf off) (fun x l => (x.g.datum ty a l, 0))) ∧
  (∀ (h : Hdr) (w64 : Bool) (op : AOp) (ty : Ty) (sc : Scope) (ord : Ord) (d a b : Opnd) (off : BitVec 24),
    Sends (.atom h w64 op ty sc ord d a b off) false
      (fun x => x.desc (.atom op) ty (ty.width / 8) (some (if d = .z then .st else .ld)) (dest d) sc ord) (ty.width / 8) a w64 (offOf off)
      (fun x l => (x.g.datum ty b l, 0)) ∧
    Sends (.red h w64 op ty sc ord a b off) false (fun x => x.desc (.red op) ty (ty.width / 8) (some .st) none sc ord) (ty.width / 8) a w64
      (offOf off) (fun x l => (x.g.datum ty b l, 0)) ∧
    Sends (.cas h w64 ty sc ord d a b off) false (fun x => x.desc .cas ty (ty.width / 8) (some .ld) (dest d) sc ord) (ty.width / 8) a w64
      (offOf off) (fun x l => (x.g.opnd b (2 * ty.regs) l % 2 ^ ty.width, x.g.opnd b (2 * ty.regs) l / 2 ^ ty.width % 2 ^ ty.width))) ∧
  (∀ (h : Hdr) (w64 lock : Bool) (sc : Scope) (d a b : Opnd) (off : BitVec 24),
    Sends (.cwb h w64 sc a off) false (fun x => x.desc .cwb .b8 1 (some .st) none sc .none) 1 a w64 (offOf off) (fun _ _ => (0, 0)) ∧
    Sends (.cinv h w64 sc a off) false (fun x => x.desc .cinv .b8 1 none none sc .none) 1 a w64 (offOf off) (fun _ _ => (0, 0)) ∧
    Sends (.monarm h w64 a off) false (fun x => x.desc .monarm .b8 1 none none .device .none) 1 a w64 (offOf off) (fun _ _ => (0, 0)) ∧
    Sends (.lblrd h w64 d a off) false (fun x => x.desc .lblrd .b32 1 (some .ld) (dest d) .device .none) 1 a w64 (offOf off) (fun _ _ => (0, 0)) ∧
    Sends (.lblset h w64 lock a b off) false (fun x => x.desc (.lblset lock) .b32 4 (some .st) none .device .none) 1 a w64 (offOf off)
      (fun x l => (x.g.opnd b 1 l, 0)) ∧
    Sends (.lblclr h w64 a off) false (fun x => x.desc .lblclr .b32 1 (some .st) none .device .none) 1 a w64 (offOf off) (fun _ _ => (0, 0)))

/-- R69, R198, R218: the checks of a memory instruction come in order: canonical addresses (0x0D), alignment (0x12), watchpoints (0x03);
the first that fails traps and no lane is performed. A release then waits for its fence; any other access is sent. With an empty Active
the run advances.
Choices of the model that it takes part in: log 19, 26. -/
def Obligations.AccessChecks : Prop :=
  ∀ (s : State) (x : Issue) (m : MemDesc) (align : Nat) (as : List Acc),
    let own := as.filter (fun a => x.run.getLsbD a.lane)
    let fails := fun (cause : Nat) (lanes : List Nat) (addr : DWord) =>
      (s.queueTrap x.gid (x.trap s cause (if x.once then x.act &&& x.run else maskOf lanes) (x.act &&& x.run) addr)).freeEntry x.gid x.reissue
    let bad := own.filter (fun a => !canonical a.va)
    let off := own.filter (fun a => a.va.toNat % align != 0)
    (x.act = 0 → s.memIssue x m align as = s.updGrp x.gid (fun g => g.advance x.run)) ∧
    (x.act ≠ 0 → ∀ a r, bad = a :: r → s.memIssue x m align as = fails 0x0D (bad.map (·.lane)) a.va) ∧
    (x.act ≠ 0 → bad = [] → ∀ a r, off = a :: r → s.memIssue x m align as = fails 0x12 (off.map (·.lane)) a.va) ∧
    (x.act ≠ 0 → (∀ a ∈ as, canonical a.va = true ∧ a.va.toNat % align = 0) →
      let d := (mget {} s.cores x.g.core).dbg
      let watched := fun (a : Acc) (n : Nat) =>
        let c := bits d.wpctl (8 * n) 6
        bitAt c 0 = true ∧ (∃ b, m.kind.wpBit = some b ∧ bitAt c b = true) ∧ bitAt c 5 = false ∧
          (d.wplo.getD n 0).toNat ≤ a.va.toNat ∧ a.va.toNat < (d.wphi.getD n 0).toNat ∧ x.g.once ≠ some (4 + n, x.pc)
      let hit := fun (a : Acc) => ∃ n, n < 4 ∧ watched a n
      ((∃ a ∈ own, hit a) → ∃ t us a vs, s.memIssue x m align as = (s.queueTrap x.gid t).freeEntry x.gid x.reissue ∧
        own = us ++ a :: vs ∧ (∀ b ∈ us, ¬ hit b) ∧ hit a ∧ t.cause = 0x03 ∧ t.pc = x.pc ∧ t.addr = a.va ∧ t.run = x.act &&& x.run ∧
        (x.once = false → ∀ l, l < 32 → (t.mask.getLsbD l = true ↔ ∃ b ∈ own, b.lane = l ∧ hit b)) ∧
        t.detail.toNat < 4 ∧ (∃ b ∈ own, watched b t.detail.toNat) ∧ ∀ n, n < t.detail.toNat → ∀ b ∈ own, ¬ watched b n) ∧
      ((∀ a ∈ as, ¬ hit a) →
        (m.ord ≠ .rel → m.ord ≠ .ar → s.memIssue x m align as = s.sendMem x.gid m as) ∧
        (m.ord = .rel ∨ m.ord = .ar → s.grp? x.gid = some x.g → NoDeltas s x.g.cluster →
          (s.fenceReady x.gid x.g m.scope = true → s.memIssue x m align as = s.sendMem x.gid m as) ∧
          (s.fenceReady x.gid x.g m.scope = false → m.reissue = none →
            s.memIssue x m align as = s.updGrp x.gid (fun g => { g with block := .release m.scope m as })))))

/-- R66, R202: performing an access reads the old value and writes the new one, byte by byte, and no other byte: a store its data, an
atomic `op(old, data)`, a CAS its new value where the old one is equal. R202: the operation of an atomic on integers and on floats (its sum
and its order are those of RoundedArithmetic and FloatCompare).
Choices of the model that it takes part in: log 14. -/
def Obligations.AccessesPerform : Prop :=
  (∀ (s : State) (key width : Nat) (k : MemKind) (ty : Ty) (data data2 : Nat), s.hub.dirtyEn = false →
    let r := s.perform key width k ty data data2
    let old := s.readMem key width
    let new : Option Nat :=
      match k with
      | .store => some data
      | .atom op => some (atomOp op ty old data)
      | .red op => some (atomOp op ty old data)
      | .cas => if old = data ∧ data2 ≠ old then some data2 else none
      | .comb fmt rop => some (reduceElems (fmtTy fmt) rop data2 old data).1
      | _ => none
    r.1 = old ∧
    (∀ a, r.2.readByte a =
      match new with
      | some v => if key ≤ a ∧ a < key + width then BitVec.ofNat 8 (v / 2 ^ (8 * (a - key))) else s.readByte a
      | none => s.readByte a) ∧
    (new = none → r.2 = s)) ∧
  (∀ (ty : Ty) (old x : Nat), old < 2 ^ ty.width → x < 2 ^ ty.width →
    (ty.isFloat = false → atomOp .add ty old x = (old + x) % 2 ^ ty.width ∧
      atomOp .min ty old x = (if intVal ty old ≤ intVal ty x then old else x) ∧
      atomOp .max ty old x = (if intVal ty old ≤ intVal ty x then x else old)) ∧
    (ty.isFloat = true → atomOp .add ty old x = (fresult ty .rn false (fsumV .rn [fval ty old, fval ty x])).1 ∧
      atomOp .min ty old x = (fminmax ty false false old x).1 ∧ atomOp .max ty old x = (fminmax ty false true old x).1) ∧
    atomOp .exch ty old x = x ∧
    ∀ n, (atomOp .and ty old x).testBit n = (old.testBit n && x.testBit n) ∧ (atomOp .or ty old x).testBit n = (old.testBit n || x.testBit n) ∧
      (atomOp .xor ty old x).testBit n = (old.testBit n != x.testBit n))

/-- R70, R201, R229, R232, R245: HOME_REQUEST performs the access of one lane: in the issuing cluster where it has a valid copy or the line
is delegated to it, else at its home slice, whose request performs it, times it, parks it or refuses it; behind a parked request to its
region it parks too.
Choices of the model that it takes part in: log 14, 34. -/
def Obligations.HomeRequests : Prop :=
  ∀ (s : State) (id : Nat) (o : Op) (m : MemDesc) (a : Acc), mfind s.ops id = some o → id < s.nextId → o.job = .instr → o.kind = .mem m [a] →
    a.st = .wait → m.kind.isData = true → m.combines = none → NoDeltas s o.cluster → s.badBytes = [] → a.key < Config.hostBase →
    s.overlapOlder id o m a = false →
    let put := fun (ops : Map Op) (b : Acc) => mupd ops id (fun _ => { o with kind := .mem m [b] })
    (s.isLocal o.cluster o.core m a.key = true → ∃ t, exec (.homeRequest id a.lane) s = .next t ∧
      (s.delegated o.cluster (lineOf a.key) = true → t.mem = (s.perform a.key m.width m.kind m.ty a.data a.data2).2.mem ∧
        mfind t.ops id = some { o with kind := .mem m [{ a with st := .done, res := s.readMem a.key m.width, tc := s.now - mget 0 s.lagCl o.cluster }] }) ∧
      (s.delegated o.cluster (lineOf a.key) = false → t.mem = s.mem ∧ t.ops = put s.ops
        { a with st := .done, res := s.readAt (s.now - mget 0 s.lagCl o.cluster) a.key m.width, tc := s.now - mget 0 s.lagCl o.cluster })) ∧
    (s.past = [] → ∀ t, s.readAt t a.key m.width = s.readMem a.key m.width) ∧
    (s.isLocal o.cluster o.core m a.key = false → s.sentOlder id o (s.homeSlice a.key) = false → s.noCredit o (s.homeSlice a.key) = false →
      ∃ t, exec (.homeRequest id a.lane) s = .next t ∧
      (s.regionParked (regionOf a.key) s.nextId = true → s.replayOcc (s.homeSlice a.key) < Config.replayEntries →
        t = { s with ops := put s.ops { a with st := .replay .order, arr := s.nextId, credit := false }, nextId := s.nextId + 1 }) ∧
      (s.regionParked (regionOf a.key) s.nextId = false → ∀ s' : State,
        let holds := mfind s'.ops id = some o ∧ s'.badBytes = []
        (∀ v tc, s.request (s.accReq o id m a) = (.done v tc, s') → holds →
          { t with cores := s'.cores } = { s' with ops := put s'.ops { a with st := .done, res := v, tc := tc } } ∧
          (m.kind ≠ .load → t.cores = s'.cores)) ∧
        (∀ tc, s.request (s.accReq o id m a) = (.timed tc, s') → holds → t = { s' with ops := put s'.ops { a with st := .timed, tc := tc } }) ∧
        (∀ r, s.request (s.accReq o id m a) = (.refused r, s') → holds → t = { s' with ops := put s'.ops { a with st := .refused r } }) ∧
        (∀ tag j, s.request (s.accReq o id m a) = (.park tag j, s') → holds → s'.replayOcc (s'.homeSlice a.key) < Config.replayEntries →
          t = { s' with ops := put s'.ops { a with st := .replay tag, arr := s'.nextId, credit := false, judged := a.judged || j }, nextId := s'.nextId + 1 })))

/-- R225, R229, R230, R232–R234, R240: what a home slice does with a request to a tracked region, by the region's label: a closing region
parks it; a locked label refuses it; CONT performs it and grants nothing; RO grants a copy until a bound, and parks a write behind a close;
PRIV delegates the line to its owner, for write when it writes; MIGR recalls the owner's lines before another agent writes; UNCL performs a
store once no copy is left; PC with registered consumers performs a store of its owner H ticks later.
Choices of the model that it takes part in: log 14. -/
def Obligations.LabelsDecide : Prop :=
  ∀ (s : State) (r : Req) (d : Dir), mfind s.dir (regionOf r.key) = some d → r.judged = false → r.mig = false → r.key < 2 ^ 52 →
    d.wcnt + 1 < (s.slice (s.homeSlice r.key)).win → s.hub.dirtyEn = false →
    let line := lineOf r.key
    let now := s.now - mget 0 s.lagSl (s.homeSlice r.key)
    let bound := now + (s.slice (s.homeSlice r.key)).lease
    let done := ReqRes.done (s.readMem r.key r.width) now
    let written := (s.perform r.key r.width r.kind r.ty r.data r.data2).2.mem
    (d.closing ≠ none → s.request r = (.park .close false, s)) ∧
    (d.closing = none → d.lock = true → d.label = .ro → r.kind.isWrite = true → r.lockok = true →
      s.request r = (.refused (d.record d.consCount), s)) ∧
    (d.closing = none → d.lock = false →
      (d.label = .cont → r.kind = .load → ∃ t, s.request r = (done, t) ∧ t.mem = s.mem ∧ t.copies = s.copies ∧ t.deleg = s.deleg) ∧
      (d.label = .cont → r.kind.isWrite = true → ∃ t, s.request r = (done, t) ∧ t.mem = written ∧ t.copies = s.copies ∧ t.deleg = s.deleg) ∧
      (d.label = .ro → r.kind = .load → r.agent ≠ hubAgent → ∃ t d', s.request r = (done, t) ∧
        t.mem = s.mem ∧ mfind t.dir (regionOf r.key) = some d' ∧ d'.label = .ro ∧ d'.vbnd = max d.vbnd bound ∧
        t.copies = { line := line, agent := r.agent, bound := some bound, nt := r.nt } ::
          s.copies.filter (fun c => !(c.line == line && c.agent == r.agent))) ∧
      (d.label = .ro → r.kind.isWrite = true → ∃ t d', s.request r = (.park .close true, t) ∧ t.mem = s.mem ∧
        mfind t.dir (regionOf r.key) = some d' ∧ d'.label = .ro ∧ d'.closing ≠ none) ∧
      (d.label = .priv → d.owner = r.agent → r.agent < 48 →
        (r.kind = .load → (∀ x ∈ s.deleg, x.line ≠ line) →
          ∃ t, s.request r = (done, t) ∧ t.mem = s.mem ∧ t.deleg = { line := line, cluster := r.agent } :: s.deleg ∧ t.copies = s.copies) ∧
        (r.kind = .store → (∀ w ∈ s.watch, w.line ≠ line) →
          ∃ t, s.request r = (done, t) ∧ t.mem = written ∧ t.copies = s.copies ∧
            t.deleg = { line := line, cluster := r.agent, write := true } :: s.deleg.filter (fun x => x.line != line))) ∧
      (d.label = .migr → r.kind = .store → r.agent ≠ d.owner → (∃ x ∈ s.deleg, x.line / 8 = regionOf r.key) →
        s.request r = (.park .recall false, { s with deleg := s.deleg.map (fun x => if x.line / 8 == regionOf r.key then { x with recalled := true } else x) })) ∧
      (d.label = .uncl → r.kind = .store →
        ((∀ c ∈ s.copies, c.line ≠ line) → ∃ t, s.request r = (done, t) ∧ t.mem = written) ∧
        ((∃ c ∈ s.copies, c.line = line ∧ c.bound = none) → ∃ t, s.request r = (.park .recall true, t) ∧ t.mem = s.mem ∧
          ∀ c ∈ t.copies, c.line = line → c.inval = true)) ∧
      (d.label = .pc → r.kind = .store → d.owner = r.agent → d.rdr ≠ [] →
        let at_ := now + (if d.rdr.any (fun a => a ≥ 512) then 2048 else 512)
        ∃ t, s.request r = (.timed at_, t) ∧ t.mem = s.mem ∧
          t.timed = s.timed ++ [{ tc := at_, key := r.key, width := r.width, kind := .store, ty := r.ty, data := r.data, data2 := r.data2, who := r.who }]))

/-- R17, R199, R202, R204, R217, R239: LOAD_DATA_ARRIVAL writes each lane's value to the destination of a load, an atomic, a
compare-and-swap or an LBLRD (a load's narrow types keep the register's other bits, `.s` extends), poisons the registers of a lane whose
read failed, raises %ctime where the instruction reports an instant, and reports to ld; STORE_COMMIT_REPORT raises %ctime to the latest
instant and reports to st. Nothing else of the group changes, and no byte of memory. -/
def Obligations.AccessReports : Prop :=
  (∀ (s : State) (id k : Nat) (o : Op) (m : MemDesc) (as : List Acc) (g : Group),
    mfind s.ops id = some o → o.kind = .mem m as → o.cls = some .ld → o.job = .instr →
    (m.kind = .load ∨ (∃ op, m.kind = .atom op) ∨ m.kind = .cas ∨ m.kind = .lblrd) → m.dst = some (.v k) → s.grp? o.gid = some g →
    g.block ≠ .verdict id → (∀ a ∈ as, a.final = true ∧ a.lane < 32 ∧ a.tc < 2 ^ 64) → (as.map (·.lane)).Nodup →
    let w := if m.kind = .lblrd then 1 else m.ty.regs
    k + w ≤ g.nregs →
    let value := fun (old v : Nat) =>
      if m.kind = .load then
        match m.ty with
        | .b8 => old / 256 * 256 + v % 256
        | .b16 => old / 65536 * 65536 + v % 65536
        | .s8 => wrap 32 (toSigned 8 v)
        | .s16 => wrap 32 (toSigned 16 v)
        | _ => v
      else v
    ∃ t g', exec (.loadDataArrival id) s = .next t ∧ t.grp? o.gid = some g' ∧ (∀ j, j ≠ o.gid → t.grp? j = s.grp? j) ∧
      { t with groups := s.groups, ops := s.ops } = s ∧ mfind t.ops id = none ∧ (∀ j, j ≠ id → mfind t.ops j = mfind s.ops j) ∧
      { g' with v := g.v, poison := g.poison, cnt := g.cnt, ctime := g.ctime } = g ∧ g'.cnt = g.cnt.set .ld ((g.cnt.get .ld).finish o.pos) ∧
      g'.ctime.toNat = as.foldl (fun c a => if a.st = .done ∧ m.kind ≠ .load ∧ m.kind ≠ .lblrd then max c a.tc else c) g.ctime.toNat ∧
      (∀ a ∈ as, a.st = .done → ∀ j, j < w → vReg g' (k + j) a.lane = wordOf (value (g.opnd (.v k) w a.lane) a.res) j) ∧
      (∀ a ∈ as, ∀ c, a.st = .failed c → ∀ j, j < w → mfind g'.poison (32 * (k + j) + a.lane) = some ⟨a.va, c⟩) ∧
      (∀ j l, l < 32 → ¬ (k ≤ j ∧ j < k + w ∧ ∃ a ∈ as, a.lane = l ∧ a.st = .done) → vReg g' j l = vReg g j l)) ∧
  (∀ (s : State) (id : Nat) (o : Op) (m : MemDesc) (as : List Acc) (g : Group),
    mfind s.ops id = some o → o.kind = .mem m as → o.cls = some .st → m.kind.reports = true → s.grp? o.gid = some g → g.block ≠ .verdict id →
    (∀ a ∈ as, a.st = .done ∧ a.tc < 2 ^ 64) →
    ∃ t g', exec (.storeCommitReport id) s = .next t ∧ t.grp? o.gid = some g' ∧ (∀ j, j ≠ o.gid → t.grp? j = s.grp? j) ∧
      { t with groups := s.groups, ops := s.ops } = s ∧ mfind t.ops id = none ∧
      { g' with ctime := g.ctime, cnt := g.cnt } = g ∧ g'.cnt = g.cnt.set .st ((g.cnt.get .st).finish o.pos) ∧
      g'.ctime.toNat = as.foldl (fun c a => max c a.tc) g.ctime.toNat)

/-! ### The scratchpad (R53, R197–R203) -/

/-- R53, R199, R200, R202: LDS, STS and ATOMS on the scratchpad that the group's code reaches: when every address lies within it and is
aligned, each lane's bytes take its data (STS) or `op(old, data)` (ATOMS), every other byte keeps its value, the old values are held for the
destination, the operation is counted and the run advances. Through the register alias LDS and STS reach the bytes of the group's vector
registers. R198: the first check that fails traps, SCRATCH_RANGE before MISALIGNED_ACCESS, and no lane is performed. Global memory does
not change.
Choices of the model that it takes part in: log 23. -/
def Obligations.ScratchpadAccesses : Prop :=
  ∀ (h : Hdr) (ty : Ty) (op : AOp) (d a b : Opnd) (off : BitVec 24) (s : State) (x : Issue),
    let w := ty.width / 8
    let va := fun (l : Nat) => (x.g.opnd a 1 l + offOf off) % 2 ^ 32
    let size := (s.scratch x.g).1
    let sp := (s.scratch x.g).2
    let here := (x.g.frames = [] ∧ x.g.team < (mget ({} : Gang) s.gangs x.g.gang).teams.length) ∨ ∃ f fs, x.g.frames = f :: fs ∧ f.kern = false
    let quiet := x.act ≠ 0 ∧ here ∧ (mget {} s.cores x.g.core).dbg.wpctl = 0 ∧ size ≤ aliasBase
    let inside := ∀ l, x.act.getLsbD l = true → va l < size ∧ va l % w = 0
    let alias_ := x.g.poison = [] ∧ ∀ l, x.act.getLsbD l = true → aliasBase ≤ va l ∧ va l < aliasBase + 128 * x.g.nregs ∧ va l % w = 0
    let old := fun (l : Nat) => leNat (mgets byteZero sp (va l) w)
    let regByte := fun (g : Group) (p : Nat) => bits (vReg g (p / 128) (p % 128 / 4)).toNat (8 * (p % 4)) 8
    let oldReg := fun (l : Nat) => leNat ((List.range w).map (fun j => BitVec.ofNat 8 (regByte x.g (va l - aliasBase + j))))
    let accs := fun (dat : Nat → Nat) (res : Nat → Nat) => (lanesOf x.act).map (fun l =>
      ({ lane := l, va := BitVec.ofNat 64 (va l), data := dat l, st := .done, res := res l, tc := s.regtime x.g } : Acc))
    let counted := fun (t : State) (g' : Group) (m : MemDesc) (k : Cls) (dat : Nat → Nat) (res : Nat → Nat) =>
      t.grp? x.gid = some g' ∧ (∀ j, j ≠ x.gid → t.grp? j = s.grp? j) ∧ Stepped x.g g' x.run ∧
        g'.cnt = x.g.cnt.set k (x.g.cnt.get k).issue ∧
        { g' with lanes := x.g.lanes, cnt := x.g.cnt, frames := x.g.frames, v := x.g.v } = x.g ∧
        { t with groups := s.groups, ops := s.ops, nextId := s.nextId, gangs := s.gangs } = s ∧
        (∀ i j, i ≠ x.g.gang ∨ j ≠ x.g.team → t.team i j = s.team i j) ∧
        { t.team x.g.gang x.g.team with sp := (s.team x.g.gang x.g.team).sp } = s.team x.g.gang x.g.team ∧
        mfind t.ops s.nextId = some { gid := x.gid, cls := some k, pos := (x.g.cnt.get k).next, ctx := x.g.ctx, cluster := x.g.cluster,
                                      core := x.g.core, kind := .mem m (accs dat res) }
    let writes := fun (t : State) (g' : Group) (new : Nat → Nat) => g'.v = x.g.v ∧ (t.scratch g').1 = size ∧
      (∀ l, x.act.getLsbD l = true → ∀ j, j < w → mget byteZero (t.scratch g').2 (va l + j) = BitVec.ofNat 8 (new l / 2 ^ (8 * j))) ∧
      ∀ p, (∀ l, x.act.getLsbD l = true → p < va l ∨ va l + w ≤ p) → mget byteZero (t.scratch g').2 p = mget byteZero sp p
    let same := fun (t : State) (g' : Group) => t.gangs = s.gangs ∧ g'.frames = x.g.frames ∧ g'.v = x.g.v
    let apart := ∀ l k, x.act.getLsbD l = true → x.act.getLsbD k = true → va l = va k → l = k
    let ld := x.desc .load ty w (some .ld) (dest d) .team .none
    let st := x.desc .store ty w (some .st) none .team .none
    let k := if d = .z then Cls.st else Cls.ld
    let own := lanesOf (x.act &&& x.run)
    let traps := fun (out : Out) (cause : Nat) (bad : Nat → Prop) => ∃ t : TrapRec, out = .next (s.queueTrap x.gid t) ∧ t.cause = cause ∧ t.pc = x.pc ∧
      t.run = x.act &&& x.run ∧ (x.once = false → ∀ l, l < 32 → (t.mask.getLsbD l = true ↔ l ∈ own ∧ bad l))
    let out := fun (noAlias : Bool) (l : Nat) => size ≤ va l ∧ ¬ (noAlias = false ∧ aliasBase ≤ va l ∧ va l < aliasBase + 128 * x.g.nregs)
    let checks := fun (e : Out) (noAlias : Bool) => size ≤ aliasBase → x.act ≠ 0 →
      ((∃ l ∈ own, out noAlias l) → traps e 0x0E (out noAlias)) ∧
      ((∀ l ∈ own, ¬ out noAlias l) → (∃ l ∈ own, va l % w ≠ 0) → traps e 0x12 (fun l => va l % w ≠ 0))
    (s.issueOf (.lds h ty d a off) true = .go x →
      (quiet → inside → ∃ t g', exec (.lds h ty d a off) s = .next t ∧ counted t g' ld .ld (fun _ => 0) old ∧ same t g') ∧
      (quiet → alias_ → ∃ t g', exec (.lds h ty d a off) s = .next t ∧ counted t g' ld .ld (fun _ => 0) oldReg ∧ same t g') ∧
      checks (exec (.lds h ty d a off) s) false) ∧
    (s.issueOf (.sts h ty a b off) false = .go x →
      (quiet → inside → apart → ∃ t g', exec (.sts h ty a b off) s = .next t ∧ counted t g' st .st (x.g.datum ty b) old ∧ writes t g' (x.g.datum ty b)) ∧
      (quiet → alias_ → apart → ∃ t g', exec (.sts h ty a b off) s = .next t ∧ counted t g' st .st (x.g.datum ty b) oldReg ∧ t.gangs = s.gangs ∧
        g'.frames = x.g.frames ∧
        (∀ l, x.act.getLsbD l = true → ∀ j, j < w → regByte g' (va l - aliasBase + j) = bits (x.g.datum ty b l) (8 * j) 8) ∧
        ∀ p, (∀ l, x.act.getLsbD l = true → p < va l - aliasBase ∨ va l - aliasBase + w ≤ p) → regByte g' p = regByte x.g p) ∧
      checks (exec (.sts h ty a b off) s) false) ∧
    (s.issueOf (.atoms h op ty d a b off) false = .go x →
      (quiet → inside → apart → ∃ t g', exec (.atoms h op ty d a b off) s = .next t ∧
        counted t g' (x.desc (.atom op) ty w (some k) (dest d) .team .none) k (x.g.datum ty b) old ∧
        writes t g' (fun l => atomOp op ty (old l) (x.g.datum ty b l))) ∧
      checks (exec (.atoms h op ty d a b off) s) true)

/-! ### Fences, waits and monitors (R17, R68, R69, R205–R207, R210) -/

/-- R17, R68, R69, R71, R205: a fence of .device and wider pushes the cluster's deltas home as atomics that report to the group; it
completes once no load and no store is outstanding, those pushes have reported, a .system fence's host-link writes are acknowledged, and the
core's Regulator reads at least %ctime plus the guard of its scope; until then FENCE, an acquire or a release blocks the group. WAIT goes on
once every counter is within its bound.
Choices of the model that it takes part in: log 35, 82. -/
def Obligations.FencesAndWaits : Prop :=
  (∀ (s : State) (gid : Nat) (g : Group) (sc : Scope), s.fenceReady gid g sc = true ↔
    g.cnt.ld.n = 0 ∧ g.cnt.st.n = 0 ∧ (∀ e ∈ s.ops, ∀ rs l, e.2.job = .push rs l → gid ∉ rs) ∧
      (sc = .system → ∀ e ∈ s.ops, e.2.job = .link → e.2.gid ≠ gid) ∧
      g.ctime.toNat + (match sc with | .team => 0 | .cluster => 0 | .device => 2 | .domain => 16 | .system => 64) ≤ s.regtime g) ∧
  (∀ (s : State) (gid : Nat) (g : Group) (sc : Scope), s.grp? gid = some g →
    let t := s.startFence gid sc
    (sc = .team ∨ sc = .cluster ∨ NoDeltas s g.cluster → t = s) ∧
    (sc ≠ .team → sc ≠ .cluster → t.deltas = s.deltas.filter (fun d => d.cluster != g.cluster) ∧
      { t with deltas := s.deltas, ops := s.ops, nextId := s.nextId } = s ∧
      ((∀ e ∈ s.ops, e.1 < s.nextId) → ∀ d ∈ s.deltas, d.cluster = g.cluster → ∃ e ∈ t.ops, e.2.job = .push [gid] none ∧ e.2.cluster = d.cluster ∧
        ∃ m as, e.2.kind = .mem m as ∧ m.kind = .red d.op ∧ m.ty = d.ty ∧
          as.map (fun a => (a.key, a.data, a.st)) = d.cells.map (fun c => (128 * d.line + c.1, c.2, .wait))))) ∧
  (∀ (h : Hdr) (sc : Scope) (s : State) (x : Issue), s.issueOf (.fence h sc) false = .go x →
    let s1 := s.startFence x.gid sc
    (x.act = 0 → ∃ t g', exec (.fence h sc) s = .next t ∧ OnlyGroup s t x.gid g' ∧ Stepped x.g g' x.run ∧ { g' with lanes := x.g.lanes } = x.g) ∧
    (x.act ≠ 0 → s1.fenceReady x.gid x.g sc = true → ∃ t g', exec (.fence h sc) s = .next t ∧ OnlyGroup s1 t x.gid g' ∧ Stepped x.g g' x.run ∧
      { g' with lanes := x.g.lanes } = x.g) ∧
    (x.act ≠ 0 → s1.fenceReady x.gid x.g sc = false →
      exec (.fence h sc) s = .next (s1.updGrp x.gid (fun g => { g with block := .fence sc x.run })))) ∧
  (∀ (h : Hdr) (ld st cp mx mt : Nat) (s : State) (x : Issue), s.issueOf (.wait h ld st cp mx mt) false = .go x →
    let within := x.g.cnt.ld.n.toNat ≤ ld ∧ x.g.cnt.st.n.toNat ≤ st ∧ x.g.cnt.cp.n.toNat ≤ cp ∧ x.g.cnt.mx.n.toNat ≤ mx ∧ x.g.cnt.mt.n.toNat ≤ mt
    (x.act = 0 ∨ within → ∃ t g', exec (.wait h ld st cp mx mt) s = .next t ∧ OnlyGroup s t x.gid g' ∧
      Stepped x.g g' x.run ∧ { g' with lanes := x.g.lanes } = x.g) ∧
    (x.act ≠ 0 → ¬ within →
      exec (.wait h ld st cp mx mt) s = .next (s.updGrp x.gid (fun g => { g with block := .wait ld st cp mx mt x.run })))) ∧
  (∀ (s : State) (gid : Nat) (g : Group), s.grp? gid = some g →
    (∀ ld st cp mx mt lanes, g.block = .wait ld st cp mx mt lanes → g.cnt.ld.n.toNat ≤ ld → g.cnt.st.n.toNat ≤ st → g.cnt.cp.n.toNat ≤ cp →
      g.cnt.mx.n.toNat ≤ mx → g.cnt.mt.n.toNat ≤ mt → ∃ t g', exec (.waitReturn gid) s = .next t ∧ OnlyGroup s t gid g' ∧ Stepped g g' lanes ∧
        { g' with lanes := g.lanes, block := g.block } = g ∧ g'.block = .none) ∧
    (∀ sc lanes, g.block = .fence sc lanes → s.fenceReady gid g sc = true → ∃ t g', exec (.fenceComplete gid) s = .next t ∧ OnlyGroup s t gid g' ∧
        Stepped g g' lanes ∧ { g' with lanes := g.lanes, block := g.block } = g ∧ g'.block = .none) ∧
    (∀ sc m as, g.block = .release sc m as → s.fenceReady gid g sc = true →
      exec (.fenceComplete gid) s = .next ((s.updGrp gid (fun g => { g with block := .none })).sendMem gid m as)) ∧
    (∀ sc lanes, g.block = .fence sc lanes → s.fenceReady gid g sc = false → exec (.fenceComplete gid) s = .next s))

/-- R72, R206, R207: MWAIT returns at once with P[D] true where no monitor is armed or the wake has fired, with false for a limit of 0,
and otherwise waits; a write to the monitored line wakes its watcher, which ends the wait with true, and its limit ends it with false; either
way the monitor is disarmed. R206: MONARM_COMPLETE lets the waiting run go on once the core's Regulator reads the arm's instant plus the
guard. R210: CINV_COMPLETE drops the line from the issuing cluster's caches and the L1s of its cores, and its run goes on.
Choices of the model that it takes part in: log 29. -/
def Obligations.Monitors : Prop :=
  (∀ (h : Hdr) (p : Nat) (a : Opnd) (s : State) (x : Issue), s.issueOf (.mwait h p a) false = .go x →
    let n := x.g.opnd a 1 x.lead
    let returns := fun (b : Bool) => ∃ t g', exec (.mwait h p a) s = .next t ∧ { t with groups := s.groups, watch := s.watch } = s ∧
      t.grp? x.gid = some g' ∧ (∀ j, j ≠ x.gid → t.grp? j = s.grp? j) ∧
      Stepped x.g g' x.run ∧ g'.mon = {} ∧ (∀ k l, l < 32 → pBit g' k l = if k = p ∧ p < 15 then b else pBit x.g k l) ∧
      { g' with lanes := x.g.lanes, mon := x.g.mon, p := x.g.p } = x.g
    (x.act = 0 → ∃ t g', exec (.mwait h p a) s = .next t ∧ OnlyGroup s t x.gid g' ∧ Stepped x.g g' x.run ∧ { g' with lanes := x.g.lanes } = x.g) ∧
    (x.act ≠ 0 → x.g.mon.armed = false ∨ x.g.mon.wake = true → returns true) ∧
    (x.act ≠ 0 → x.g.mon.armed = true → x.g.mon.wake = false → n = 0 → returns false) ∧
    (x.act ≠ 0 → x.g.mon.armed = true → x.g.mon.wake = false → n ≠ 0 → exec (.mwait h p a) s =
      .next (s.updGrp x.gid (fun g => { g with block := .mwait p (s.regtime x.g + n) x.run })))) ∧
  (∀ (s : State) (gid p till : Nat) (lanes : Word) (g : Group), s.grp? gid = some g → g.block = .mwait p till lanes → g.frames = [] →
    (s.resident g = true → till ≤ s.regtime g → ∃ t g', exec (.mwaitTimeout gid) s = .next t ∧ { t with groups := s.groups, watch := s.watch } = s ∧
      t.grp? gid = some g' ∧ (∀ j, j ≠ gid → t.grp? j = s.grp? j) ∧ Stepped g g' lanes ∧
      g'.block = .none ∧ g'.mon = {} ∧ ∀ k l, l < 32 → pBit g' k l = if k = p ∧ p < 15 then false else pBit g k l) ∧
    (g.mon.armed = true → Stepped g (g.wakeUp g.mon.line) lanes ∧ (g.wakeUp g.mon.line).block = .none ∧ (g.wakeUp g.mon.line).mon = {} ∧
      ∀ k l, l < 32 → pBit (g.wakeUp g.mon.line) k l = if k = p ∧ p < 15 then true else pBit g k l) ∧
    (∀ line, line ≠ g.mon.line → g.wakeUp line = g) ∧
    (∀ (key width : Nat) (k : MemKind) (ty : Ty) (data data2 : Nat), newValue k ty (s.readMem key width) data data2 ≠ none →
      s.hub.dirtyEn = false → s.resident g = true → s.watch.filter (fun w => w.line == lineOf key) = [{ line := lineOf key, gid := gid }] →
      (s.perform key width k ty data data2).2.grp? gid = some (g.wakeUp (lineOf key)))) ∧
  (∀ (s : State) (gid id till : Nat) (lanes : Word) (g : Group) (o : Op) (m : MemDesc) (a : Acc), s.grp? gid = some g → mfind s.ops id = some o →
    o.kind = .mem m [a] →
    (g.block = .monarm id till lanes → a.st = .done →
      a.tc + (if a.key ≥ 2 ^ 52 then 16 else if isHost a.key then 64 else 2) ≤ s.regtime g →
      ∃ t g', exec (.monarmComplete gid) s = .next t ∧ { t with groups := s.groups, ops := s.ops } = s ∧ t.grp? gid = some g' ∧
        mfind t.ops id = none ∧ Stepped g g' lanes ∧ { g' with lanes := g.lanes, block := g.block } = g ∧ g'.block = .none) ∧
    (g.block = .cinv id lanes → NoDeltas s g.cluster → a.st ≠ .off →
      ∃ t g', exec (.cinvComplete gid) s = .next t ∧
        { t with groups := s.groups, ops := s.ops, copies := s.copies, deleg := s.deleg, cores := s.cores, icache := s.icache } = s ∧
        t.grp? gid = some g' ∧ mfind t.ops id = none ∧ Stepped g g' lanes ∧
        { g' with lanes := g.lanes, block := g.block } = g ∧ g'.block = .none ∧
        (∀ c ∈ t.copies, c.line = lineOf a.key → c.agent = s.agentAt g.cluster a.key → c.held = false) ∧
        (∀ d ∈ t.deleg, ¬ (d.line = lineOf a.key ∧ d.cluster = g.cluster)) ∧
        (∀ e ∈ t.cores, e.1 / 4 = g.cluster → ∀ y ∈ e.2.l1, y.line ≠ lineOf a.key) ∧
        ∀ e ∈ t.icache, lineOf e.key = lineOf a.key → e.cluster ≠ g.cluster))

/-! ### Translation, the operand log, coherence events -/

/-- R58, R60: the walk of five levels. An entry with V = 0 is NOT_PRESENT and one that Table 3-6 calls malformed is a bad entry of its level;
table entries lead on, and a leaf maps its page of 1 GiB, 2 MiB, 64 KiB or 4 KiB when it permits the access, and denies it otherwise. -/
def Obligations.PageWalks : Prop :=
  ∀ (s : State) (ctx : Nat) (va : DWord) (need : Need) (e4 e3 e2 e1 : Nat),
    let i := fun (lo : Nat) => va.toNat / 2 ^ lo % 512
    let pa := fun (e : Nat) => e / 2 ^ 12 % 2 ^ 40 * 2 ^ 12
    let a4 := (mget {} s.ctxs ctx).root + 8 * i 48
    let a3 := pa e4 + 8 * i 39
    let a2 := pa e3 + 8 * i 30
    let a1 := pa e2 + 8 * i 21
    let table := fun (v : Level) (e : Nat) => bitAt e 0 = true ∧ bitAt e 1 = false ∧ badPte v e = false
    let ends := fun (v : Level) (lo : Nat) (e : Nat) =>
      (bitAt e 0 = false → s.walk ctx va need = .notPresent) ∧
      (bitAt e 0 = true → badPte v e = true → s.walk ctx va need = .badEntry v.no) ∧
      (bitAt e 0 = true → badPte v e = false → bitAt e 1 = true →
        if (match need with | .r => bitAt e 2 | .w => bitAt e 3 | .x => bitAt e 4) = true then
          ∃ l, s.walk ctx va need = .leaf l ∧ l.base = va.toNat / 2 ^ lo * 2 ^ lo ∧ l.size = 2 ^ lo ∧
            l.key = (if e / 2 ^ 8 % 4 = 2 then (e / 2 ^ 52 % 512 + 1) * 2 ^ 52 + pa e else pa e) ∧ l.lockok = bitAt e 5
        else s.walk ctx va need = .denied)
    ends level4 48 (s.readMem a4 8) ∧
    (s.readMem a4 8 = e4 → table level4 e4 → ends level3 39 (s.readMem a3 8) ∧
      (s.readMem a3 8 = e3 → table level3 e3 → ends level2 30 (s.readMem a2 8) ∧
        (s.readMem a2 8 = e2 → table level2 e2 → ends level1 21 (s.readMem a1 8) ∧
          (s.readMem a1 8 = e1 → table level1 e1 →
            (bitAt e1 11 = false → ends level0 12 (s.readMem (pa e1 + 8 * i 12) 8)) ∧
            (bitAt e1 11 = true → ends level64 16 (s.readMem (pa e1 + 8 * (va.toNat / 2 ^ 16 % 32)) 8))))))

/-- R211–R216: WALK_END for a load of one lane that was walked: the access goes on to the key found and the run advances; or the lane
parks in the operand log with its address; or it traps MALFORMED_TABLE. LABEL_VERDICT lets an accepted lane go on and traps a refused one.
OPERAND_LOG_REISSUE lets an entry with a resolved lane issue next.
Choices of the model that it takes part in: log 73. -/
def Obligations.WalksAndVerdicts : Prop :=
  (∀ (s : State) (gid id : Nat) (g : Group) (o : Op) (m : MemDesc) (a : Acc), s.grp? gid = some g → mfind s.ops id = some o → o.gid = gid →
    o.kind = .mem m [a] → m.kind = .load → m.ord = .none → m.uni = false → m.reissue = none → m.cls = some .ld → a.lane < 32 →
    m.helpers.getLsbD a.lane = false → g.isSeq = false → g.hmode = false →
    (g.block = .walk id → a.st = .walk →
      (∀ l, s.walk g.ctx a.va .r = .leaf l → l.lockok = false → ∃ t g', exec (.walkEnd gid) s = .next t ∧ t.grp? gid = some g' ∧
        Stepped g g' m.run ∧ { g' with lanes := g.lanes, block := g.block } = g ∧ g'.block = .none ∧
        ∃ mg, mfind t.ops id = some { o with kind := .mem m [{ a with st := .wait, key := l.key + (a.va.toNat - l.base), lockok := false, mig := mg }] }) ∧
      (∀ e, s.walk g.ctx a.va .r = .notPresent → g.frames = [] → g.parkEntry none = some e →
        ∃ t g', exec (.walkEnd gid) s = .next t ∧ t.grp? gid = some g' ∧ g'.block = .none ∧
          mfind g'.log e = some { lanes := [(a.lane, { out := 1, va := a.va.setWidth 57, data := BitVec.ofNat 128 a.data })], uni := false, word0 := m.word0 } ∧
          ∀ l, l < g.lanes.length → g'.lane l = if l = a.lane then { g.lane l with st := .parked e }
            else if m.run.getLsbD l then { g.lane l with pc := nextPc (g.lane l).pc } else g.lane l) ∧
      (∀ v, s.walk g.ctx a.va .r = .badEntry v → g.trapq.length < 8 →
        ∃ t g' tr, exec (.walkEnd gid) s = .next t ∧ t.grp? gid = some g' ∧ g'.block = .none ∧ t.mem = s.mem ∧ g'.trapq = g.trapq ++ [tr] ∧
          tr.cause = 0x10 ∧ tr.addr = a.va ∧ tr.pc = m.pc ∧ tr.detail = BitVec.ofNat 32 v ∧ tr.mask = laneBit a.lane ∧
          ∀ l, l < g.lanes.length → g'.lane l = if l ≠ a.lane ∧ m.run.getLsbD l then { g.lane l with pc := nextPc (g.lane l).pc } else g.lane l)) ∧
    (g.block = .verdict id →
      (a.st = .done ∨ a.st = .timed → ∃ t g', exec (.labelVerdict gid) s = .next t ∧ t.grp? gid = some g' ∧ Stepped g g' m.run ∧
        { g' with lanes := g.lanes, block := g.block } = g ∧ g'.block = .none ∧ t.mem = s.mem) ∧
      (∀ r, a.st = .refused r → g.trapq.length < 8 → ∃ t g' tr, exec (.labelVerdict gid) s = .next t ∧ t.grp? gid = some g' ∧
        g'.block = .none ∧ t.mem = s.mem ∧ g'.trapq = g.trapq ++ [tr] ∧ tr.cause = 0x13 ∧ tr.addr = a.va ∧ tr.detail = BitVec.ofNat 32 r))) ∧
  (∀ (s : State) (gid e : Nat) (g : Group) (x : LogEntry), s.grp? gid = some g → mfind g.log e = some x → g.reissue = none → s.resident g = true → s.stopped g = false →
    (∃ l ∈ x.lanes, l.2.res = true) → exec (.operandLogReissue gid e) s = .next (s.updGrp gid (fun g => { g with reissue := some e })))

/-- R71, R228–R230, R234, R245, R246: the events of copies. A holder's acknowledgement and an owner's return drop the line's copy or
delegation, in the L1s of its cores too; an extension sends every registered consumer a bound H ahead, which reaches it in the order of
sending and is acknowledged; a second report in a row without a read deregisters a consumer; a close that has ended records its new label; a
parked or an overflowed request is performed again; a pushed delta leaves its cluster as atomics. R63: host granules. A transfer to the
device completes while the link is up and starts the hold; an opposing request waits out 4,096 ticks and then starts; the host asks for a
granule that the device owns.
Choices of the model that it takes part in: log 27, 37. -/
def Obligations.HomeEvents : Prop :=
  ((∀ (s : State) (region : Nat) (d : Dir) (c : Close), mfind s.dir region = some d → d.closing = some c → c.evict = false → d.asrt = false →
    s.closeEnded region d = true → s.ops = [] →
    ∃ t d', exec (.reopen region) s = .next t ∧ mfind t.dir region = some d' ∧ d'.label = c.label ∧ d'.closing = none ∧ d'.seq = d.seq + 1 ∧
      (∀ k, k ≠ region → mfind t.dir k = mfind s.dir k) ∧ t.mem = s.mem ∧
      t.copies = s.copies.filter (fun k => k.line / 8 != region) ∧ t.deleg = s.deleg.filter (fun k => k.line / 8 != region)) ∧
  (∀ (s : State) (line agent : Nat), (∃ c ∈ s.copies, c.line = line ∧ c.agent = agent ∧ c.inval = true) →
    ∃ t, exec (.invalidationAck line agent) s = .next t ∧ t.copies = s.copies.filter (fun c => !(c.line == line && c.agent == agent)) ∧
      { t with copies := s.copies, dir := s.dir, cores := s.cores } = s ∧
      (agent < 48 → ∀ e ∈ t.cores, e.1 / 4 = agent → ∀ y ∈ e.2.l1, y.line ≠ line)) ∧
  (∀ (s : State) (line cluster : Nat), (∃ d ∈ s.deleg, d.line = line ∧ d.recalled = true) → (∀ d ∈ s.deleg, d.line = line → d.cluster = cluster) →
    ∃ t, exec (.recallReturn line) s = .next t ∧ t.deleg = s.deleg.filter (fun d => d.line != line) ∧
      { t with deleg := s.deleg, cores := s.cores } = s ∧ (cluster < 48 → ∀ e ∈ t.cores, e.1 / 4 = cluster → ∀ y ∈ e.2.l1, y.line ≠ line)) ∧
  (∀ (s : State) (region : Nat) (d : Dir), mfind s.dir region = some d → d.label = .pc → d.closing = none →
    let H := if d.rdr.any (fun a => a ≥ 512) then 2048 else 512
    let now := s.now - mget 0 s.lagSl (s.homeSlice (1024 * region))
    d.extAt + H / 4 ≤ now → (∃ c ∈ s.copies, c.line / 8 = region ∧ c.agent ∈ d.rdr) →
    ∃ t d', exec (.leaseExtension region) s = .next t ∧
      t.copies = s.copies.map (fun c => if c.line / 8 = region ∧ c.agent ∈ d.rdr then
        { c with msgs := c.msgs ++ [{ bound := now + H, ext := true, seq := s.nextId }] } else c) ∧
      mfind t.dir region = some d' ∧ d'.extAt = now ∧ d'.vbnd = max d.vbnd (now + H) ∧
      { t with copies := s.copies, dir := s.dir, nextId := s.nextId } = s) ∧
  (∀ (s : State) (region agent : Nat) (d : Dir), mfind s.dir region = some d → let mine := fun (c : Copy) => c.line / 8 == region && c.agent == agent
    (∃ c ∈ s.copies, mine c = true ∧ c.acks > 0) → ∃ t d', exec (.extensionAck region agent) s = .next t ∧ { t with copies := s.copies, dir := s.dir } = s ∧
      mfind t.dir region = some d' ∧
      ((∃ c ∈ s.copies, mine c = true ∧ c.read = true) → d'.rdr = d.rdr ∧
        t.copies = s.copies.map (fun c => if mine c then { c with read := false, idle := 0, acks := c.acks - 1 } else c)) ∧
      ((∀ c ∈ s.copies, mine c = true → c.read = false) →
        ((∃ c ∈ s.copies, mine c = true ∧ c.idle ≥ 1) → t.copies = s.copies.filter (fun c => !(mine c)) ∧
          d'.rdr = d.rdr.filter (fun a => a != agent)) ∧
        ((∀ c ∈ s.copies, mine c = true → c.idle = 0) → d' = d ∧
          t.copies = s.copies.map (fun c => if mine c then { c with idle := c.idle + 1, acks := c.acks - 1 } else c)))) ∧
  (∀ (s : State) (agent slice : Nat) (c : Copy), s.nextMsg agent slice = some c →
    (c ∈ s.copies ∧ c.agent = agent ∧ s.homeSlice (128 * c.line) = slice ∧ ∃ x r, c.msgs = x :: r ∧
      ∀ k ∈ s.copies, k.agent = agent → s.homeSlice (128 * k.line) = slice → ∀ y r, k.msgs = y :: r → x.seq ≤ y.seq) ∧
    exec (.timedUpdate agent slice) s = .next { s with copies := s.copies.map (fun k =>
      if k.line = c.line ∧ k.agent = c.agent then
        (match k.msgs with
          | x :: rest => { k with bound := some x.bound, msgs := rest, acks := if x.ext then k.acks + 1 else k.acks }
          | [] => k)
      else k) }) ∧
  (∀ (s : State) (slice id : Nat) (tag : WakeTag) (o : Op) (m : MemDesc) (a : Acc), o.kind = .mem m [a] → o.job = .instr →
    a.key < Config.hostBase → s.homeSlice a.key = slice →
    let again := { (s.performAcc id o m a).2 with
      ops := mupd (s.performAcc id o m a).2.ops id (fun o => o.setAcc a.lane (fun _ => (s.performAcc id o m a).1)) }
    (s.ops = [(id, o)] → a.st = .replay tag → s.wakeable a tag = true → exec (.replayWake slice tag) s = .next again) ∧
    (∀ rest, mfind s.ops id = some o → a.st = .over → (s.slice slice).ovf = (id, a.lane) :: rest →
      exec (.overflowFetch slice) s = .next (if (s.performAcc id o m a).1.st = .over then again else again.updSlice slice (fun x => { x with ovf := rest })))) ∧
  (∀ (s : State) (d : Delta), s.deltas = [d] → ∃ t o m as, exec (.deltaPush d.cluster d.line) s = .next t ∧
    { t with deltas := s.deltas, ops := s.ops, nextId := s.nextId } = s ∧ t.deltas = [] ∧ mfind t.ops s.nextId = some o ∧ o.cluster = d.cluster ∧
    o.job = .push [] none ∧ o.kind = .mem m as ∧ m.kind = .red d.op ∧ m.ty = d.ty ∧
    as.map (fun a => (a.key, a.data, a.st)) = d.cells.map (fun c => (128 * d.line + c.1, c.2, .wait)))) ∧
  (∀ (s : State) (k : Nat), let g := s.gran k
    (g.xfer = some true → s.host.up = true →
      exec (.ownershipTransfer k) s = .next (s.setGran k { dev := true, since := s.now, xfer := none, want := false })) ∧
    (g.xfer = some false → s.granRegions k = [] → s.watch = [] →
      exec (.ownershipTransfer k) s = .next (s.setGran k { dev := false, since := s.now, xfer := none, want := false })) ∧
    (g.xfer = none → g.dev = true → g.since ≠ 0 → s.now < g.since + 4096 → exec (.ownershipTransfer k) s = .next (s.setGran k { g with want := true })) ∧
    (g.xfer = none → g.dev = true → g.since = 0 ∨ g.since + 4096 ≤ s.now → s.granRegions k = [] →
      exec (.ownershipTransfer k) s = .next (s.setGran k { g with xfer := some false, want := false })) ∧
    (g.want = true → g.xfer = none → g.since + 4096 ≤ s.now →
      (g.dev = false → exec (.granuleHoldExpiry k) s = .next (s.setGran k { g with xfer := some true, want := false })) ∧
      (g.dev = true → s.granRegions k = [] → exec (.granuleHoldExpiry k) s = .next (s.setGran k { g with xfer := some false, want := false }))) ∧
    (∀ g' j, (s.setGran k g').gran j = if j = k then g' else s.gran j))

/-! ### Counters, launches, queues, copies (R15–R18, R182, R252–R258, R292–R303) -/

/-- R15–R17: an instruction that issues an operation counts it on its class and advances; an operation leaves its counter in the order of
issue, however its operations complete. -/
def Obligations.OperationsCounted : Prop :=
  (∀ (s : State) (x : Issue) (k : Cls) (kind : OpKind), s.grp? x.gid = some x.g →
    ∃ g', Counted s (x.done (s.addOp x.gid (some k) kind) id) x k kind g') ∧
  (∀ (c : Counter), c.win = 0 → c.n ≠ 0 →
    ((c.finish c.base).n = c.n - 1 ∧ (c.finish c.base).base = c.base + 1 ∧ (c.finish c.base).win = 0) ∧
    (∀ p, c.base < p → p < c.base + 63 → (c.finish p).n = c.n ∧ (c.finish p).base = c.base) ∧
    (c.n ≠ 1 → ((c.finish (c.base + 1)).finish c.base).n = c.n - 2 ∧ ((c.finish (c.base + 1)).finish c.base).base = c.base + 2))

/-- R182: LNCH copies a record of 128 bytes from an aligned scratchpad address and counts on st; an unknown queue traps 0x15, a bad
address 0x0E; with an empty Active it only advances the run. LNCH_APPEND, once the guard has passed, appends the record to a ring with room,
moves its tail and sets P[D]; a full or stopped queue clears P[D]; a word that cannot be reached stops the queue and clears P[D]. -/
def Obligations.LaunchAppends : Prop :=
  (∀ (h : Hdr) (p q : Nat) (a : Opnd) (s : State) (x : Issue), s.issueOf (.lnch h p a q) false = .go x →
    let addr := x.g.opnd a 1 x.lead
    (x.act = 0 → ∃ t g', exec (.lnch h p a q) s = .next t ∧ OnlyGroup s t x.gid g' ∧ Stepped x.g g' x.run ∧ { g' with lanes := x.g.lanes } = x.g) ∧
    (x.act ≠ 0 →
      (∀ k, s.localQueue x.g.ctx q = some k → addr % 128 = 0 → addr + 128 ≤ (s.scratch x.g).1 →
        ∃ t g', exec (.lnch h p a q) s = .next t ∧ Counted s t x .st (.lnch p k (mgets byteZero (s.scratch x.g).2 addr 128)) g') ∧
      (s.localQueue x.g.ctx q = none → exec (.lnch h p a q) s = .next (s.queueTrap x.gid (x.trap s 0x15 x.act x.act 0 0 q))) ∧
      (∀ k, s.localQueue x.g.ctx q = some k → (addr % 128 ≠ 0 ∨ addr + 128 > (s.scratch x.g).1) →
        exec (.lnch h p a q) s = .next (s.queueTrap x.gid (x.trap s 0x0E x.act x.act (BitVec.ofNat 64 addr)))))) ∧
  (∀ (s : State) (id p q : Nat) (bytes : List Byte) (o : Op) (g : Group) (lq : LQ), mfind s.ops id = some o → o.kind = .lnch p q bytes →
    s.grp? o.gid = some g → NoDeltas s g.cluster → s.fenceWaits o.gid .device = false → g.ctime.toNat + 2 ≤ s.regtime g →
    (∀ e ∈ s.ops, e.1 < id → e.2.gid = o.gid → e.2.cls ≠ some .ld ∧ e.2.cls ≠ some .st) → s.appending id q = false →
    mfind s.lqs q = some lq →
    let tag := lnchTag id
    let ends := fun (u : State) (f : Group → Group) => exec (.lnchAppend id) s = .next (((u.forget tag).updGrp o.gid f).endOp id)
    let no := fun (u : State) => ends u (fun g => g.setPredAll p false)
    (lq.stopped = true ∨ lq.ctx ≠ o.ctx → no s) ∧
    (lq.stopped = false → lq.ctx = o.ctx →
      (∀ r s1, s.svcAccess tag none o.ctx lq.headVa 8 none = (.fail r, s1) → no (s1.stopQueue q lq lq.headVa.toNat r)) ∧
      (∀ head tail t1 t2 s1 s2, s.svcAccess tag none o.ctx lq.headVa 8 none = (.ok head t1, s1) →
        s1.svcAccess tag none o.ctx lq.tailVa 8 none = (.ok tail t2, s2) →
        ((tail + 2 ^ 64 - head) % 2 ^ 64 ≥ lq.slots → no s2) ∧
        ((tail + 2 ^ 64 - head) % 2 ^ 64 < lq.slots → ∀ v3 t3 v4 tc s3 s4,
          s2.svcAccess tag none o.ctx (lq.ring + BitVec.ofNat 64 (128 * (tail % lq.slots))) 128 (some (leNat bytes)) = (.ok v3 t3, s3) →
          s3.svcAccess tag none o.ctx lq.tailVa 8 (some ((tail + 1) % 2 ^ 64)) = (.ok v4 tc, s4) →
          ends s4 (fun g => (g.setPredAll p true).raiseCtime tc)))))

/-- R252–R258: QENQ, AMSG, QDEQ and QSTAT are sent to the queue's slice and hold their run. R252: HOME_REQUEST brings one to the slice,
behind the older requests of its cluster and the operation in progress on the queue; a handle that the checks refuse ends it with the trap
PROTECTION. R253–R256: QENQ and AMSG append one entry for a lane, QDEQ removes one, none where the queue is full, empty or stalled; QSTAT
reads the queue's words; then the run goes on and the results are to be reported. R250: the slice reaches the ring as agent 48. R258: AMDONE
waits for its fence, counts its messages and ends its lanes. R256, R257: AM_DISPATCH starts a batch that names one handler as a handler
group, and discards one whose handler entry is malformed.
Choices of the model that it takes part in: log 43. -/
def Obligations.Queues : Prop :=
  (∀ (h : Hdr) (p hn : Nat) (d a b : Opnd) (s : State) (x : Issue),
    let sent := fun (i : Instr) (k : QKind) (dst : Option Opnd) (pd : Nat) (cls : Cls) (entry : Nat → Nat) => s.issueOf i false = .go x →
      (x.act = 0 → ∃ t g', exec i s = .next t ∧ OnlyGroup s t x.gid g' ∧ Stepped x.g g' x.run ∧ { g' with lanes := x.g.lanes } = x.g) ∧
      (x.act ≠ 0 → ∃ t g', exec i s = .next t ∧ { t with groups := s.groups, ops := s.ops, nextId := s.nextId } = s ∧ t.grp? x.gid = some g' ∧
        (∀ j, j ≠ x.gid → t.grp? j = s.grp? j) ∧ g' = { x.g with block := .queue s.nextId, cnt := x.g.cnt.set cls (x.g.cnt.get cls).issue } ∧
        (∀ j, j ≠ s.nextId → mfind t.ops j = mfind s.ops j) ∧
        let q : QueueOp := { kind := k, handle := x.g.opnd a 1 x.lead, dst := dst, pd := pd, run := x.run, act := x.act,
                             todo := (lanesOf x.act).map (fun l => (l, entry l)) }
        mfind t.ops s.nextId = some { gid := x.gid, cls := some cls, pos := (x.g.cnt.get cls).next, ctx := x.g.ctx, cluster := x.g.cluster,
                                      core := x.g.core, kind := .queue q })
    sent (.qenq h p a b) .enq none p .st (fun l => x.g.opnd b 4 l) ∧
    sent (.amsg h p a b hn) (.msg hn) none p .st (fun l => x.g.opnd b 4 l) ∧
    sent (.qdeq h d a p) .deq (some d) p .ld (fun _ => 0) ∧
    sent (.qstat h d a) .stat (some d) 15 .ld (fun _ => 0)) ∧
  (∀ (s : State) (id : Nat) (o : Op) (q : QueueOp) (g : Group), mfind s.ops id = some o → o.kind = .queue q → o.job = .instr → q.begun = false → q.served = [] →
    s.grp? o.gid = some g → g.block = .queue id →
    let enq := decide (q.kind = .enq) || (match q.kind with | .msg _ => true | _ => false)
    let am := match q.kind with | .deq => some false | .msg _ => some true | .enq | .stat => none
    let refused := ∃ tr : TrapRec, exec (.homeRequest id 0) s =
        .next (((s.endOp id).updGrp o.gid (fun g => { g with block := .none })).queueTrap o.gid tr) ∧
      tr.cause = 0x0F ∧ tr.mask = q.act ∧ tr.run = q.act ∧ tr.addr = BitVec.ofNat 64 q.handle
    (s.handle? q.handle = none → refused) ∧
    ∀ h : Handle, s.handle? q.handle = some h →
      (s.sentOlder id o h.slice = true ∨ s.noCredit o h.slice = true ∨ s.queueBusy id h = true → exec (.homeRequest id 0) s = .next s) ∧
      (s.sentOlder id o h.slice = false → s.noCredit o h.slice = false → s.queueBusy id h = false →
        let d := s.qdesc h
        let now := s.now - mget 0 s.lagSl h.slice
        let open_ := d.en = true ∧ (d.owner = o.ctx ∨ enq = true ∧ d.open_ = true) ∧ ∀ b, am = some b → d.am = b
        let ended := fun (t u : State) (k : OpKind) => ∃ g', { t with groups := u.groups, ops := u.ops } = u ∧ t.grp? o.gid = some g' ∧
          Stepped g g' q.run ∧ g'.block = .none ∧ mfind t.ops id = some { o with kind := k }
        let s0 := s.setQueue id { q with begun := true, at_ := now, todo := q.todo.map (s.queueEntry o h { q with begun := true, at_ := now } now) }
        (¬ open_ → refused) ∧
        (open_ → q.kind = .stat → ∃ t, exec (.homeRequest id 0) s = .next t ∧
          ended t s (.reply q.dst 4 (q.todo.map (fun e => (e.1, d.statWords))) none none)) ∧
        (∀ l v, open_ → d.en = true → q.kind ≠ .stat → q.todo = [(l, v)] →
          let x := (s.queueEntry o h { q with begun := true, at_ := now } now (l, v)).2
          let reply := fun (got : List (Nat × Nat)) => if enq then OpKind.reply none 0 [] (some (q.pd, q.act, maskOf (got.map (fun e => e.1)))) (some now)
            else OpKind.reply q.dst 4 got (some (q.pd, q.act, maskOf (got.map (fun e => e.1)))) none
          (d.stall = true ∨ (if enq then d.tail - d.head ≥ d.cap else d.tail ≤ d.head) →
            ∃ t, exec (.homeRequest id 0) s = .next t ∧ ended t s (reply [])) ∧
          (d.stall = false → enq = false → d.head < d.tail → ∀ r tc s1,
            s0.svcAccess (queueTag id) h.dev d.owner (d.entryVa d.head) d.size none = (.ok r tc, s1) → s1.grp? o.gid = some g →
            (∃ o1, mfind s1.ops id = some o1 ∧ { o1 with kind := o.kind } = o) → s1.qdesc h = d →
            ∃ t, exec (.homeRequest id 0) s = .next t ∧ t.qdesc h = { d with head := d.head + 1 } ∧ t.mem = s1.mem ∧
              ended t (s1.updQd h (fun d => { d with head := d.head + 1 })) (reply [(l, r)])) ∧
          (d.stall = false → enq = true → d.tail - d.head < d.cap → ∀ r tc s1,
            s0.svcAccess (queueTag id) h.dev d.owner (d.entryVa d.tail) (if q.kind = .enq then 16 else d.size) (some x) = (.ok r tc, s1) → s1.grp? o.gid = some g →
            (∃ o1, mfind s1.ops id = some o1 ∧ { o1 with kind := o.kind } = o) → s1.qdesc h = d → d.wake = 0 →
            ∃ t, exec (.homeRequest id 0) s = .next t ∧ t.qdesc h = { d with tail := d.tail + 1 } ∧ t.mem = s1.mem ∧
              ended t (s1.updQd h (fun d => { d with tail := d.tail + 1 })) (reply [(l, 0)]))))) ∧
  (∀ (s : State) (o : Op) (h : Handle) (q : QueueOp) (t l v hn : Nat),
    s.queueEntry o h { q with kind := .enq } t (l, v) = (l, v) ∧
    s.queueEntry o h { q with kind := .msg hn } t (l, v) = (l, v + 2 ^ 128 * (((if h.dev.isSome then 512 + s.devNo else o.cluster) * 2 ^ 16 + l * 2 ^ 8 + hn) +
      o.ctx % 2 ^ 32 * 2 ^ 32 + t % 2 ^ 64 * 2 ^ 64))) ∧
  (∀ (s : State) (tag : Nat × Nat) (ctx n x key : Nat) (va : DWord) (lk mg : Bool), s.svcTrans none ctx va .w = .ok (key, lk, mg) →
    let ask : Ask := { tag := tag, agent := 48, ctx := ctx, key := key, width := n, kind := .store, ty := .b64, lockok := lk, mig := mg, data := x }
    (∀ e ∈ s.ops, e.2.job ≠ .unit ask) → ∀ o a,
    let t := (s.sendOp ask.op).homeRequest s.nextId 0
    mfind t.ops s.nextId = some o → o.accs = [a] →
    (a.st = .done → s.svcAccess tag none ctx va n (some x) = (.ok a.res a.tc, t)) ∧
    ((∃ r, a.st = .refused r) → s.svcAccess tag none ctx va n (some x) = (.fail 2, t)) ∧
    (a.st = .wait ∨ a.st = .timed ∨ (∃ g, a.st = .replay g) → s.svcAccess tag none ctx va n (some x) = (.wait, t))) ∧
  (∀ (h : Hdr) (s : State) (x : Issue), s.issueOf (.amdone h) false = .go x →
    let s1 := s.startFence x.gid .device
    (x.act = 0 → ∃ t g', exec (.amdone h) s = .next t ∧ OnlyGroup s t x.gid g' ∧ Stepped x.g g' x.run ∧ { g' with lanes := x.g.lanes } = x.g) ∧
    (x.act ≠ 0 → x.g.am = none → exec (.amdone h) s = .next (s.queueTrap x.gid (x.trap s 0x04 x.act x.act))) ∧
    (∀ sl q left, x.act ≠ 0 → x.g.am = some (sl, q, left) →
      (s1.fenceReady x.gid x.g .device = false → exec (.amdone h) s = .next (s1.updGrp x.gid (fun g => { g with block := .amdone x.run x.act }))) ∧
      (s1.fenceReady x.gid x.g .device = true → x.g.inCallee = false → x.g.gcall = none → x.g.isSeq = false → x.g.lanes.length = 32 →
        ∃ t g', exec (.amdone h) s = .next t ∧ t.grp? x.gid = some g' ∧ t.mem = s1.mem ∧ g'.v = x.g.v ∧ g'.sc = x.g.sc ∧ g'.block = .none ∧
          (∀ l, l < 32 → x.act.getLsbD l = true → (g'.lane l).st = .exited) ∧ g'.cnt = x.g.cnt.set .st (x.g.cnt.get .st).issue ∧
          (mget {} (t.slice sl).qd q).done = (mget {} (s1.slice sl).qd q).done + popMask (left &&& x.act)))) ∧
  (∀ (s s1 s2 : State) (slice q m e t2 : Nat) (ms : List Nat),
    let h : Handle := { dev := none, slice := slice, q := q }
    let d := s.qdesc h
    d.en = true → d.am = true → d.stall = false → d.head < d.tail → s.amRoom h = true → s.amBatch h none 0 32 = (.some (m :: ms), s1) →
    s1.svcAccess (dispatchTag h) none d.owner (d.htab + BitVec.ofNat 64 (64 * bits m 128 8)) 64 none = (.ok e t2, s2) →
    let s3 := s2.forget (dispatchTag h)
    (amHandler e = none → exec (.amDispatch slice q) s =
      .next (s3.updQd h (fun d => { d with head := d.head + (ms.length + 1), done := d.done + (ms.length + 1), lasterr := 2 }))) ∧
    (∀ code args vr sr, amHandler e = some (code, args, vr, sr) → vr / 8 ≤ s2.freeGranules (4 * d.cluster + d.core) → ms.length < 32 →
      ∃ t g', exec (.amDispatch slice q) s = .next t ∧ t.grp? (s2.nextId + 1) = some g' ∧ t.qdesc h = { s2.qdesc h with head := (s2.qdesc h).head + (ms.length + 1) } ∧
        g'.core = 4 * d.cluster + d.core ∧ g'.ctx = d.owner ∧ g'.nregs = vr ∧ g'.sregs = sr ∧ g'.args = BitVec.ofNat 64 args ∧
        g'.am = some (slice, q, maskOf (List.range (ms.length + 1))) ∧ g'.lanes.length = 32 ∧
        (∀ l, l < 32 → (g'.lane l).pc = BitVec.ofNat 64 code ∧ ((g'.lane l).st = if l ≤ ms.length then .run else .exited)) ∧
        ∀ l, l ≤ ms.length → ∀ k, k < 8 → vReg g' k l = wordOf ((m :: ms).getD l 0) k)) ∧
  (∀ (s : State) (h : Handle) (v tc : Nat) (s1 : State), let d := s.qdesc h
    d.tail = d.head + 1 → s.svcAccess (dispatchTag h) h.dev d.owner (d.entryVa d.head) 32 none = (.ok v tc, s1) → s1.qdesc h = d →
    s.amBatch h none 0 32 = (.some [v], s1))

/-- R293, R298: CPY and CPYR read a record of 64 bytes, count a request on cp and append it to its channel; a record address that is not
aligned or reaches beyond the scratchpad traps 0x0E. R298, R303: a request starts at the head of its channel, and arbitration sends a chunk
of one that has waited through 64 grants, else of the highest class. R299, R300: a chunk whose bytes have been read sends them to its
destination; its report counts its bytes, or its failure in the error record; the last one writes the request's status words and leaves cp.
R75, R296, R302: a barrier object. BOINIT writes 16 bytes with REMAIN = B and the rest zero; BOWAIT returns P[D] = 1 and raises %ctime to
LAST once REMAIN is at most 0, else waits until its limit, which clears P[D]; an address beyond the scratchpad traps 0x0E, a misaligned one
0x12. A chunk's report subtracts its bytes from REMAIN, counts its failures and raises LAST.
Choices of the model that it takes part in: log 30, 49, 50. -/
def Obligations.CopiesAndBarriers : Prop :=
  ((∀ (h : Hdr) (a : Opnd) (off : BitVec 24) (s : State) (x : Issue),
    let addr := (x.g.opnd a 1 x.lead + offOf off) % 2 ^ 32
    let good := addr % 64 = 0 ∧ addr + 63 < (s.scratch x.g).1
    let sent := fun (i : Instr) (reduce : Bool) => s.issueOf i false = .go x →
      let req : CopyReq := { who := .op s.nextId, gid := x.gid, ctx := x.g.ctx, cluster := x.g.cluster, gang := x.g.gang, team := x.g.team,
                             addr := addr, reduce := reduce, r := parseCopy (leNat (mgets byteZero (s.scratch x.g).2 addr 64)),
                             before := (s.ops.filter (fun e => e.2.gid == x.gid && holdsCopy e.2)).map (·.1) }
      (x.act = 0 → ∃ t g', exec i s = .next t ∧ OnlyGroup s t x.gid g' ∧ Stepped x.g g' x.run ∧ { g' with lanes := x.g.lanes } = x.g) ∧
      (x.act ≠ 0 → good → ∃ t g', exec i s = .next t ∧ Counted s { t with cores := s.cores } x .cp (.copy addr) g' ∧
        (∀ k, k ≠ x.g.core → t.core k = s.core k) ∧ { t.core x.g.core with chans := (s.core x.g.core).chans } = s.core x.g.core ∧
        ∀ ch, t.chan x.g.core ch = if ch = req.r.chan then { s.chan x.g.core ch with reqs := (s.chan x.g.core ch).reqs ++ [req] } else s.chan x.g.core ch) ∧
      (x.act ≠ 0 → ¬ good → exec i s = .next (s.queueTrap x.gid (x.trap s 0x0E x.act x.act (BitVec.ofNat 64 addr))))
    sent (.cpy h a off) false ∧ sent (.cpyr h a off) true) ∧
  (∀ (x : Nat), let r := parseCopy x
    r.src = bits x 0 64 ∧ r.dst = bits x 64 64 ∧ r.len = bits x 128 32 ∧ r.rows = bits x 160 17 ∧ r.sstride = bits x 192 32 ∧ r.dstride = bits x 224 32 ∧
    r.bobj = bits x 256 32 ∧ r.skind = bits x 288 2 ∧ r.dkind = bits x 290 2 ∧ r.chan = bits x 300 4 ∧ r.cls = bits x 304 2 ∧ r.bo = bitAt x 306 ∧
    r.mig = bitAt x 307 ∧ r.rop = bits x 308 2 ∧ r.fmt = bits x 310 2 ∧ r.sdev = bits x 320 9 ∧ r.ddev = bits x 336 9) ∧
  (∀ (s : State) (core ch : Nat) (q : CopyReq), s.chanHead core ch = some q → q.started = false → q.before = [] → (∃ id, q.who = .op id) →
    copyBad q.r q.reduce false = false → (∀ g, s.grp? q.gid = some g → g.ctime.toNat + 2 ≤ s.coreTime core) →
    exec (.copyStart core ch) s = .next (s.updHead core ch (fun q => { q with started := true }))) ∧
  (∀ (s : State) (core ch : Nat) (q : CopyReq),
    (s.grantChan core = some (ch, q) → (ch, q) ∈ s.readyChans core ∧
      ((∃ c ∈ s.readyChans core, (s.chan core c.1).waited ≥ 64) → (s.chan core ch).waited ≥ 64) ∧
      ((∀ c ∈ s.readyChans core, (s.chan core c.1).waited < 64) → ∀ c ∈ s.readyChans core, c.2.r.cls ≤ q.r.cls)) ∧
    (s.readyChans core = [(ch, q)] → (∀ g, s.grp? q.gid = some g → g.dead = false) → exec (.chunkArbitration core) s =
      .next ((((s.updChan core ch (fun c => { c with waited := 0 })).updCore core (fun c => { c with lastChan := ch })).updHead core ch
        (fun q' => { q' with issued := q.issued + 1, flight := q'.flight ++ [{ chunk := q.issued }] }))))) ∧
  (∀ (s : State) (core k key sa da n : Nat) (q : CopyReq) (f : Flight) (o : Op) (a : Acc) (p : Piece) (lk mg : Bool),
    f.ops = [k] → k < s.nextId → mfind s.ops k = some o → o.accs = [a] → a.st = .done → a.lane = 0 →
    (f.stage = .reading → f.ps = [p] → p.dst = .key key lk mg → p.n = n → chunkPieces q.r f.chunk = [(sa, da, n)] → q.reduce = false →
      q.srcSide ≠ .tile → q.dstSide ≠ .tile → s.sideRefuses core q p.dst true = false →
      ∃ f' t o' m a', s.advanceFlight core q true f = (f', t) ∧ f'.stage = .writing ∧ f'.ops = [s.nextId] ∧ t.mem = s.mem ∧
        mfind t.ops s.nextId = some o' ∧ o'.cluster = q.cluster ∧ o'.kind = .mem m [a'] ∧ m.kind = .store ∧ m.width = n ∧ a'.key = key ∧
        a'.data = a.res ∧ a'.st = .wait) ∧
    (f.stage = .writing → q.reduce = false → ∃ f' t, s.advanceFlight core q true f = (f', t) ∧ f'.stage = .over ∧ t.mem = s.mem ∧
      f'.res = { status := 0, tc := a.tc, sat := 0 } ∧ mfind t.ops k = none)) ∧
  (∀ (s : State) (core ch : Nat) (q : CopyReq) (f : Flight), s.chanHead core ch = some q → q.flight = [f] → f.stage = .over →
    exec (.chunkReport core ch .ok) s =
      .next (((s.updHead core ch (fun _ => q)).updHead core ch (fun _ => { q with flight := [] })).reportChunk core ch { q with flight := [] } f.chunk f.res)) ∧
  (∀ (s : State) (core ch c : Nat) (q : CopyReq) (r : ChunkRes),
    let n := chunkLen q.r c
    let ok := { q with reported := q.reported + 1, satcnt := q.satcnt + r.sat, bytes := q.bytes + n }
    let lower := q.fcount = 0 ∨ c < q.ffirst
    let bad := { q with reported := q.reported + 1, fcount := q.fcount + 1, fstat := if lower then r.status else q.fstat,
                        ffirst := if lower then c else q.ffirst }
    (r.status = 0 → q.reported + 1 ≠ copyChunks q.r → s.reportChunk core ch q c r = (s.updHead core ch (fun _ => ok)).boCount ok n 0 r.tc) ∧
    (1 < r.status → q.reported + 1 ≠ copyChunks q.r →
      s.reportChunk core ch q c r = ((s.updHead core ch (fun _ => bad)).addErr q.ctx (.chunk q.addr c r.status)).boCount bad n 1 0) ∧
    (∀ id, r.status = 0 → q.reported + 1 = copyChunks q.r → q.who = .op id → s.reportChunk core ch q c r =
      (((((s.updHead core ch (fun _ => ok)).updChan core ch (fun x => { x with reqs := x.reqs.drop 1 })).spWrite q.gid (q.addr + 0x2C) 20
        ok.statusWords).boCount ok n 0 r.tc).endOp id))) ∧
  (∀ (s : State) (core ctx : Nat) (r : CopyRec), exec (.migrationRequest core ctx r) s =
    .next (s.addReq core { who := .mig, ctx := ctx, cluster := core / 4, r := r }))) ∧
  ((∀ (h : Hdr) (p : Nat) (a b : Opnd) (off : BitVec 24) (s : State) (x : Issue),
    let addr := (x.g.opnd a 1 x.lead + offOf off) % 2 ^ 32
    let n := x.g.opnd b 1 x.lead
    let v := s.spRead x.gid addr 16
    let traps := fun (e : Out) =>
      (addr ≥ (s.scratch x.g).1 → e = .next (s.queueTrap x.gid (x.trap s 0x0E x.act x.act (BitVec.ofNat 64 addr)))) ∧
      (addr < (s.scratch x.g).1 → addr % 16 ≠ 0 → e = .next (s.queueTrap x.gid (x.trap s 0x12 x.act x.act (BitVec.ofNat 64 addr))))
    let idle := fun (e : Out) => ∃ t g', e = .next t ∧ OnlyGroup s t x.gid g' ∧ Stepped x.g g' x.run ∧ { g' with lanes := x.g.lanes } = x.g
    (s.issueOf (.boinit h a b off) false = .go x →
      (x.act = 0 → idle (exec (.boinit h a b off) s)) ∧ (x.act ≠ 0 → traps (exec (.boinit h a b off) s)) ∧
      (x.act ≠ 0 → addr < (s.scratch x.g).1 → addr % 16 = 0 → exec (.boinit h a b off) s = .next (x.done (s.spWrite x.gid addr 16 (2 ^ 64 * n)) id))) ∧
    (s.issueOf (.bowait h p a b off) false = .go x →
      (x.act = 0 → idle (exec (.bowait h p a b off) s)) ∧ (x.act ≠ 0 → traps (exec (.bowait h p a b off) s)) ∧
      (x.act ≠ 0 → addr < (s.scratch x.g).1 → addr % 16 = 0 →
      (toSigned 48 (v / 2 ^ 64) ≤ 0 → ∃ t g', exec (.bowait h p a b off) s = .next t ∧ OnlyGroup s t x.gid g' ∧ Stepped x.g g' x.run ∧
        g'.ctime.toNat = max x.g.ctime.toNat (v % 2 ^ 64) ∧ (∀ k l, l < 32 → pBit g' k l = if k = p ∧ p < 15 then true else pBit x.g k l) ∧
        { g' with lanes := x.g.lanes, ctime := x.g.ctime, p := x.g.p, block := x.g.block } = x.g) ∧
      (¬ toSigned 48 (v / 2 ^ 64) ≤ 0 → n = 0 → ∃ t g', exec (.bowait h p a b off) s = .next t ∧ OnlyGroup s t x.gid g' ∧
        Stepped x.g g' x.run ∧ (∀ k l, l < 32 → pBit g' k l = if k = p ∧ p < 15 then false else pBit x.g k l) ∧
        { g' with lanes := x.g.lanes, p := x.g.p } = x.g) ∧
      (¬ toSigned 48 (v / 2 ^ 64) ≤ 0 → n ≠ 0 → exec (.bowait h p a b off) s =
        .next (s.updGrp x.gid (fun g => { g with block := .bowait p addr (s.regtime x.g + n) x.run })))))) ∧
  (∀ (s : State) (gid p addr till : Nat) (lanes : Word) (g : Group), s.grp? gid = some g → g.block = .bowait p addr till lanes → s.resident g = true →
    let v := s.spRead gid addr 16
    (toSigned 48 (v / 2 ^ 64) ≤ 0 → ∃ t g', exec (.bowaitReturn gid) s = .next t ∧ OnlyGroup s t gid g' ∧ Stepped g g' lanes ∧ g'.block = .none ∧
      g'.ctime.toNat = max g.ctime.toNat (v % 2 ^ 64) ∧ ∀ k l, l < 32 → pBit g' k l = if k = p ∧ p < 15 then true else pBit g k l) ∧
    (¬ toSigned 48 (v / 2 ^ 64) ≤ 0 → till ≤ s.regtime g → ∃ t g', exec (.bowaitTimeout gid) s = .next t ∧ OnlyGroup s t gid g' ∧
      Stepped g g' lanes ∧ g'.block = .none ∧ ∀ k l, l < 32 → pBit g' k l = if k = p ∧ p < 15 then false else pBit g k l)) ∧
  (∀ (s : State) (q : CopyReq) (g : Group) (bytes failed tc : Nat), s.grp? q.gid = some g → q.r.bo = true → q.r.bobj % 16 = 0 →
    q.r.bobj + 16 ≤ (s.scratch g).1 →
    let v := s.spRead q.gid q.r.bobj 16
    s.boCount q bytes failed tc = s.spWrite q.gid q.r.bobj 16
      (max (v % 2 ^ 64) tc + 2 ^ 64 * ((v / 2 ^ 64 % 2 ^ 48 + 2 ^ 48 - bytes % 2 ^ 48) % 2 ^ 48) + 2 ^ 112 * min 65535 (v / 2 ^ 112 + failed))) ∧
  (∀ (s : State) (gid addr v : Nat) (g : Group), s.grp? gid = some g → g.frames = [] → g.team < (mget ({} : Gang) s.gangs g.gang).teams.length →
    addr + 16 ≤ aliasBase → v < 2 ^ 128 →
    (s.spWrite gid addr 16 v).spRead gid addr 16 = v ∧ (s.spWrite gid addr 16 v).mem = s.mem ∧
    ∀ p, p < aliasBase → p < addr ∨ addr + 16 ≤ p → (s.spWrite gid addr 16 v).spRead gid p 1 = s.spRead gid p 1))

/-! ### Tiles, matrix operations, signals (R265–R286) -/

/-- R270, R272–R275: the lane-side tile instructions. Each needs its tile in the state of Table 17-3 and leaves it in the next one with its
contents kept, counts on mx and advances; an empty Active only advances the run; a tile of another team traps 0x04, an offset that is no
multiple of 16 inside the tile traps 0x12, and an unmet state holds the run. TSTAT reads the status word. TILE_OPERATION_COMPLETE writes the
bytes of a TWR, delivers those of a TRD, and reports the others.
Choices of the model that it takes part in: log 45. -/
def Obligations.TileStates : Prop :=
  (∀ (h : Hdr) (n : Nat) (a b d : Opnd) (s : State) (x : Issue),
    let tl := s.tile x.g.core n
    let now := s.coreTime x.g.core
    let free := s.queuedOn x.g.core n = 0
    let u := s.updGrp x.gid (fun g => { g with word0 := x.word0 })
    let does := fun (i : Instr) (k : TileOp) (need : Prop) (tl' : Tile) => s.issueOf i false = .go x →
      let wrong := fun (p : Nat × Nat) => p.2 % 16 ≠ 0 ∨ tileSize n ≤ p.2
      (x.act = 0 → ∃ t g', exec i s = .next t ∧ OnlyGroup s t x.gid g' ∧ Stepped x.g g' x.run ∧ { g' with lanes := x.g.lanes } = x.g) ∧
      (x.act ≠ 0 → tl.team ≠ some (x.g.gang, x.g.team) → exec i s = .next (s.queueTrap x.gid (x.trap s 0x04 x.act x.act))) ∧
      (x.act ≠ 0 → tl.team = some (x.g.gang, x.g.team) → need → (∀ p ∈ k.offsets x.act, ¬ wrong p) →
        ∃ t g', exec i s = .next t ∧ t.grp? x.gid = some g' ∧ (∀ j, j ≠ x.gid → t.grp? j = s.grp? j) ∧ t.mem = s.mem ∧
          Stepped x.g g' x.run ∧ g'.cnt = x.g.cnt.set .mx (x.g.cnt.get .mx).issue ∧
          { g' with lanes := x.g.lanes, cnt := x.g.cnt } = { x.g with word0 := x.word0 } ∧
          (∃ o, mfind t.ops s.nextId = some o ∧ o.kind = .tile n k ∧ o.cls = some .mx ∧ o.gid = x.gid) ∧
          t.tile x.g.core n = tl' ∧ ∀ c j, c ≠ x.g.core ∨ j ≠ n → t.tile c j = s.tile c j) ∧
      (∀ p ∈ k.offsets x.act, x.act ≠ 0 → tl.team = some (x.g.gang, x.g.team) → need → wrong p →
        (∀ q ∈ k.offsets x.act, wrong q → p.2 ≤ q.2) → ∃ m, (∀ l, l < 32 → (m.getLsbD l = true ↔ ∃ q ∈ k.offsets x.act, wrong q ∧ q.1 % 32 = l)) ∧
        exec i s = .next (u.queueTrap x.gid { (u.lateTrap { x.g with word0 := x.word0 } 0x12 x.act (BitVec.ofNat 64 p.2)) with mask := m })) ∧
      (x.act ≠ 0 → tl.team = some (x.g.gang, x.g.team) → ¬ need → exec i s =
        .next (u.updGrp x.gid (fun g => { g with block := .tile n k s.clk x.run x.act })))
    does (.topen h n) .topen (tl.st = .empty) { tl with st := .filling, stamps := { fill := some now } } ∧
    does (.twr h n a b) (.twr ((lanesOf x.act).map (fun l => (x.g.opnd a 1 l, x.g.opnd b 4 l)))) (tl.st = .filling) tl ∧
    does (.tseal h n) .tseal (tl.st = .filling) { tl with st := .ready, stamps := { tl.stamps with fillEnd := some now } } ∧
    does (.tdrain h n) .tdrain (tl.st = .ready ∧ free) { tl with st := .draining } ∧
    does (.trd h d n b) (.trd d ((lanesOf x.act).map (fun l => (l, x.g.opnd b 1 l)))) (tl.st = .draining) tl ∧
    ((s.core x.g.core).dbg.traceOn = false → (∀ e ∈ (s.core x.g.core).queue, s.over e = true → e.noted = true) →
      does (.tfree h n) .tfree ((tl.st = .ready ∨ tl.st = .draining) ∧ free) { tl with st := .empty, sat := false, err := false })) ∧
  (∀ (h : Hdr) (d : Opnd) (n team : Nat) (s : State) (x : Issue) (core : Nat), s.issueOf (.tstat h d n team) false = .go x →
    (x.g.isSeq = true → s.teamCore x.g.gang team = some core) → (x.g.isSeq = false → core = x.g.core) →
    let tl := s.tile core n
    let st := match tl.st with | .empty => 0 | .filling => 1 | .ready => 2 | .draining => 3
    ∃ t g', exec (.tstat h d n team) s = .next t ∧ OnlyGroup s t x.gid g' ∧
      Effect x g' d 1 false (fun _ => min 15 (s.queuedOn core n) * 2 ^ 16 + (if tl.err then 32 else 0) + (if tl.sat then 16 else 0) +
        (if (s.core core).scale = some n then 8 else 0) + (if tl.team ≠ none then 4 else 0) + st) 15 (fun _ => false) (fun _ => 0)) ∧
  (∀ (h : Hdr) (d : Opnd) (n team : Nat) (s : State) (x : Issue), s.issueOf (.tstat h d n team) false = .go x → x.act ≠ 0 →
    x.g.isSeq = true → s.teamCore x.g.gang team = none → exec (.tstat h d n team) s = .next (s.seqFault x.gid 0x04 n 0)) ∧
  (∀ (s : State) (id n : Nat) (o : Op), mfind s.ops id = some o →
    let byte := fun (u : State) (j : Nat) => mget byteZero (u.tile o.core n).data j
    (∀ ws, o.kind = .tile n (.twr ws) → (∀ w ∈ ws, w.1 % 16 = 0) → ∃ t, exec (.tileOperationComplete id) s = .next t ∧
      mfind t.ops id = none ∧ t.mem = s.mem ∧
      (∀ w ∈ ws, ∀ j, j < 16 → ∃ v ∈ ws, v.1 = w.1 ∧ byte t (w.1 + j) = BitVec.ofNat 8 (v.2 / 2 ^ (8 * j))) ∧
      (∀ j, (∀ w ∈ ws, j < w.1 ∨ w.1 + 16 ≤ j) → byte t j = byte s j) ∧ ∀ c j, c ≠ o.core ∨ j ≠ n → t.tile c j = s.tile c j) ∧
    (∀ (g : Group) (k : Nat) (rs : List (Nat × Nat)), o.kind = .tile n (.trd (.v k) rs) → s.grp? o.gid = some g → k + 4 ≤ g.nregs →
      (rs.map (fun r => r.1)).Nodup → (∀ r ∈ rs, r.1 < 32) → (s.tile o.core n).bad = [] → (s.tile o.core n).err = false →
      ∃ t g', exec (.tileOperationComplete id) s = .next t ∧ mfind t.ops id = none ∧ t.mem = s.mem ∧ t.grp? o.gid = some g' ∧
        (∀ r ∈ rs, ∀ j, j < 4 → vReg g' (k + j) r.1 = wordOf (leNat (mgets byteZero (s.tile o.core n).data r.2 16)) j) ∧
        (∀ j l, l < 32 → (j < k ∨ k + 4 ≤ j ∨ ∀ r ∈ rs, r.1 ≠ l) → vReg g' j l = vReg g j l) ∧ ∀ j, byte t j = byte s j) ∧
    (o.kind = .tile n .topen ∨ o.kind = .tile n .tdrain ∨ o.kind = .tile n .tfree ∨ (o.kind = .tile n .tseal ∧
      ∀ e ∈ s.ops, e.1 < id → e.2.gid = o.gid → ∀ ws, e.2.kind ≠ .tile n (.twr ws)) →
      exec (.tileOperationComplete id) s = .next (s.endOp id)))

/-- R270, R278, R279, R285: the sequencer's matrix operations. When every tile is of the team, of the right buffer and in its needed state and
every selected core's queue has room, the operation enters those queues, its destinations become READY, it counts on mx and the sequencer goes
on; a bad operand is a sequencer fault, an unmet state or a full queue holds the sequencer, an unmet state for no longer than 2^24 clk. TWAIT
waits for a tile state.
Choices of the model that it takes part in: log 45. -/
def Obligations.MatrixIssue : Prop :=
  (∀ (h : Hdr) (cs : CoreSel) (tc ta tb wb sel : Nat) (sat off : Bool) (dty : Ty) (src : CSrc) (s : State) (x : Issue) (ks : List (Nat × Nat)),
    (ks.map (fun k => k.2)).Nodup → ks ≠ [] →
    let pick := match cs with | .all => 4 | .core0 => 0 | .core1 => 1 | .core2 => 2 | .core3 => 3
    let does := fun (i : Instr) (sel : Nat) (m : MOp) (kinds : Prop) (dests inputs : List Nat) => s.issueOf i false = .go x →
      let perms := ∀ k ∈ ks, ∀ f c a b p, m = .mma f c a b → s.permNow k.2 = some p → ∀ j, j < f.kt → j ∈ p.take f.kt
      let legal := kinds ∧ (∀ k ∈ ks, ∀ n ∈ dests ++ inputs, (s.tile k.2 n).team = some (x.g.gang, k.1)) ∧ perms
      let ready := ∀ k ∈ ks, (∀ n ∈ dests, (s.tile k.2 n).st = .empty) ∧ ∀ n ∈ inputs ++ (s.scaleFor k.2 m).toList, (s.tile k.2 n).st = .ready
      let room := ∀ k ∈ ks, (s.seqLive k.2).length < 8
      (x.act = 0 → ∃ t g', exec i s = .next t ∧ OnlyGroup s t x.gid g' ∧ Stepped x.g g' x.run ∧ { g' with lanes := x.g.lanes } = x.g) ∧
      (x.act ≠ 0 → s.selCores x.g.gang sel = none → exec i s = .next (s.seqFault x.gid 0x04 0xFF 0)) ∧
      (x.act ≠ 0 → s.selCores x.g.gang sel = some ks →
        (legal → ready → room → ∃ t g', exec i s = .next t ∧ t.grp? x.gid = some g' ∧
          (∀ j, j ≠ x.gid → t.grp? j = s.grp? j) ∧ t.mem = s.mem ∧ Stepped x.g g' 1 ∧ g'.block = .none ∧
          g'.cnt = x.g.cnt.set .mx (x.g.cnt.get .mx).issue ∧ { g' with lanes := x.g.lanes, cnt := x.g.cnt, block := x.g.block } = x.g ∧
          (∃ o, mfind t.ops s.nextId = some o ∧ o.kind = .seqop (ks.map (fun k => k.2)) ∧ o.cls = some .mx ∧ o.gid = x.gid) ∧
          (∀ k ∈ ks, (t.core k.2).queue = (s.core k.2).queue ++ [{ op := s.nextId, gang := x.g.gang, m := m, scale := s.scaleFor k.2 m }] ∧
            ∀ n ∈ dests, (t.tile k.2 n).st = .ready ∧ (t.tile k.2 n).sat = false) ∧
          (∀ c, (∀ k ∈ ks, k.2 ≠ c) → t.core c = s.core c) ∧ ∀ c n, (t.tile c n).data = (s.tile c n).data) ∧
        (¬ legal → ∃ n, (n ∈ dests ++ inputs ∨ n = 0xFF) ∧ exec i s = .next (s.seqFault x.gid 0x04 n 0)) ∧
        (legal → ¬ ready → exec i s = .next (s.updGrp x.gid (fun g => { g with block := .seqop m sel (some s.clk) }))) ∧
        (legal → ready → ¬ room → exec i s = .next (s.updGrp x.gid (fun g => { g with block := .seqop m sel none }))))
    let w := fun (n : Nat) => n < 32
    let a := fun (n : Nat) => 32 ≤ n ∧ n < 48
    let c := fun (n : Nat) => 48 ≤ n
    let mma := fun (i : Instr) (k : MmaK) => does i pick (.mma k tc ta tb) (c tc ∧ a ta ∧ w tb) [] [tc, ta, tb]
    let out := if dty = .bf16 ∨ dty = .f16 ∨ dty = .f32 then [ta, ta + 1] else [ta]
    mma (.mmab16 h cs tc ta tb) .b16 ∧ mma (.mmah16 h cs tc ta tb) .h16 ∧ mma (.mmaf8a h cs tc ta tb) .f8a ∧
    mma (.mmaf8b h cs tc ta tb) .f8b ∧ mma (.mmaf6a h cs tc ta tb) .f6a ∧ mma (.mmaf6b h cs tc ta tb) .f6b ∧
    mma (.mmaf4 h cs tc ta tb) .f4 ∧ mma (.mmai8 h cs tc ta tb) .i8 ∧ mma (.mmaf32 h cs tc ta tb) .f32 ∧ mma (.mmad64 h cs tc ta tb) .d64 ∧
    does (.lutbld h cs tb ta) pick (.lutbld tb ta) (a tb ∧ a (tb + 7) ∧ a ta ∧ (ta < tb ∨ tb + 8 ≤ ta)) ((List.range 8).map (tb + ·)) [ta] ∧
    does (.lutmm h wb cs tc ta tb) pick (.lutmm wb tc ta tb) (c tc ∧ a ta ∧ a (ta + 7) ∧ w tb) [] ([tc, tb] ++ (List.range 8).map (ta + ·)) ∧
    does (.czero h cs tc) pick (.czero tc) (c tc) [tc] [] ∧
    does (.ccvt h sat dty cs ta tc src) pick (.ccvt dty src sat ta tc) ((∀ n ∈ out, a n) ∧ c tc) out [tc] ∧
    does (.tscl h off tb sel) sel (.tscl (if off then none else some tb)) (off = true ∨ tb < 48) [] (if off then [] else [tb]) ∧
    does (.tperm h off tb sel) sel (.tperm (if off then none else some tb)) (off = true ∨ tb < 48) [] (if off then [] else [tb])) ∧
  (∀ (h : Hdr) (n st sel : Nat) (s : State) (x : Issue), s.issueOf (.twait h n st sel) false = .go x →
    (x.act = 0 → ∃ t g', exec (.twait h n st sel) s = .next t ∧ OnlyGroup s t x.gid g' ∧ Stepped x.g g' x.run ∧ { g' with lanes := x.g.lanes } = x.g) ∧
    (x.act ≠ 0 → s.selCores x.g.gang sel = none → exec (.twait h n st sel) s = .next (s.seqFault x.gid 0x04 n 0)) ∧
    (∀ cs, x.act ≠ 0 → s.selCores x.g.gang sel = some cs →
      let code := fun (c : Nat) => match (s.tile c n).st with | .empty => 0 | .filling => 1 | .ready => 2 | .draining => 3
      ((∃ c ∈ cs, (s.tile c.2 n).team ≠ some (x.g.gang, c.1)) → exec (.twait h n st sel) s = .next (s.seqFault x.gid 0x04 n 0)) ∧
      ((∀ c ∈ cs, (s.tile c.2 n).team = some (x.g.gang, c.1)) →
        ((∀ c ∈ cs, code c.2 = st) → ∃ t g', exec (.twait h n st sel) s = .next t ∧ t.grp? x.gid = some g' ∧ t.mem = s.mem ∧
          (∀ j, j ≠ x.gid → t.grp? j = s.grp? j) ∧ t.cores = s.cores ∧ (∀ k, k ≠ s.nextId → mfind t.ops k = mfind s.ops k) ∧
          Stepped x.g g' x.run ∧ { g' with lanes := x.g.lanes, cnt := x.g.cnt } = x.g) ∧
        ((∃ c ∈ cs, code c.2 ≠ st) → exec (.twait h n st sel) s = .next ((s.addOp x.gid (some .mx) (.seqop [])).updGrp x.gid
          (fun g => { g with block := .twait s.nextId n st (cs.map (·.2)) s.clk })))))) ∧
  (∀ (s : State) (who : Who) (gid n st op since : Nat) (cores : List Nat) (g : Group), s.whoId who = some gid → s.grp? gid = some g →
    g.block = .twait op n st cores since →
    ((∀ c ∈ cores, (s.tile c n).st.code = st) → exec (.tileStateReached who) s =
      .next ((s.endOp op).updGrp gid (fun g => { (g.advance 1) with block := .none }))) ∧
    ((∃ c ∈ cores, (s.tile c n).st.code ≠ st) → s.clk ≥ since + 2 ^ 24 → exec (.tileWait who) s =
      .next ((s.endOp op).seqFault gid 0x14 n n))) ∧
  (∀ (s : State) (who : Who) (gid sel since t : Nat) (m : MOp) (g : Group), s.whoId who = some gid → s.grp? gid = some g →
    g.block = .seqop m sel (some since) → s.clk ≥ since + 2 ^ 24 → s.mxTest g.gang sel m = .states t →
    exec (.tileWait who) s = .next (s.seqFault gid 0x14 t t)) ∧
  (∀ (s : State) (who : Who) (gid n since : Nat) (k : TileOp) (run act : Word) (g : Group), s.whoId who = some gid → s.grp? gid = some g →
    g.block = .tile n k since run act →
    (s.tileReady g.core n k = true → exec (.tileStateReached who) s =
      .next ((s.updGrp gid (fun g => { g with block := .none })).tileGo gid n k run act)) ∧
    (s.tileReady g.core n k = false → s.clk ≥ since + 2 ^ 24 → exec (.tileWait who) s =
      .next ((s.updGrp gid (fun g => { g with block := .none })).queueTrap gid (s.lateTrap g 0x14 act 0 n))))

/-- R278, R279, R281–R284: a core executes its queue's oldest operation once it has not started: its inputs are read, a TSCL or TPERM binds,
what it will write stands with its entry, and it ends after its clocks; no tile's contents change before. An operation that has ended on its
core is reported: its results are in its destination tiles, it leaves the queue and its counter.
Choices of the model that it takes part in: log 44. -/
def Obligations.MatrixExecution : Prop :=
  (∀ (s : State) (core : Nat) (e : QEnt) (rest : List QEnt), s.seqLive core = e :: rest → e.till = none →
    (∀ q ∈ (s.core core).queue, s.over q = true → q.noted = true) → (∀ q ∈ rest, q.op ≠ e.op) →
    (∀ n ∈ e.m.inputs ++ e.scale.toList, (s.tile core n).bad = []) →
    let bytes := fun (n : Nat) => (s.tile core n).bytes n
    ∃ t e', exec (.seqOpExecute core) s = .next t ∧ t.mem = s.mem ∧ t.groups = s.groups ∧ t.ops = s.ops ∧
      (∀ c n, (t.tile c n).data = (s.tile c n).data ∧ (t.tile c n).st = (s.tile c n).st) ∧ (∀ c, c ≠ core → t.core c = s.core c) ∧
      t.seqLive core = e' :: rest ∧ { e' with out := e.out } = { e with till := some (s.clk + e.m.clocks), bad := none } ∧
      (t.core core).scale = (match e.m with | .tscl n => n | _ => (s.core core).scale) ∧
      (t.core core).perm = (match e.m with | .tperm n => n.map (fun n => ((bytes n).take 256).map BitVec.toNat) | _ => (s.core core).perm) ∧
      e'.out = match e.m with
        | .mma k c a b =>
          let r := mmaTile k (s.core core).perm (if k.scaled then e.scale.map bytes else none) (bytes a) (bytes b) (bytes c)
          [(c, r.1, r.2)]
        | .lutbld d a => (List.range 8).map (fun i => (d + i, (cutTiles 8 (lutTables (bytes a))).getD i [], false))
        | .lutmm wb c a b =>
          let r := lutTile (wb + 1) ((List.range 8).flatMap (fun i => bytes (a + i))) (bytes b) (bytes c)
          [(c, r.1, r.2)]
        | .czero c => [(c, [], false)]
        | .ccvt dty src sat d c =>
          let rs := (rowsOf 512 128 (bytes c)).map (ccvtBytes dty src sat)
          let per := if ccvtTiles dty = 2 then 64 else 128
          (List.range (ccvtTiles dty)).map (fun i => (d + i, (cutTiles (ccvtTiles dty) (rs.flatMap (·.1))).getD i [], ((rs.drop (per * i)).take per).any (·.2)))
        | .tscl _ | .tperm _ => []) ∧
  (∀ (s : State) (gang id core : Nat) (e : QEnt) (rest : List QEnt) (o : Op), mfind s.ops id = some o → o.kind = .seqop [core] →
    (s.core core).queue = e :: rest → e.op = id → e.gang = gang → e.bad = none → e.noted = false → (∀ q ∈ rest, q.op ≠ id ∧ s.over q = false) →
    (e.out.map (fun r => r.1)).Nodup → (∀ k ∈ (mget ({} : Gang) s.gangs gang).teams, k.live = true) →
    (s.over e = false → exec (.seqOpComplete gang id) s = .next s) ∧
    (s.over e = true → ∃ t, exec (.seqOpComplete gang id) s = .next t ∧ mfind t.ops id = none ∧ (t.core core).queue = rest ∧ t.mem = s.mem ∧
      (∀ r ∈ e.out, (∀ j, mget byteZero (t.tile core r.1).data j = r.2.1.getD j 0) ∧
        (t.tile core r.1).sat = ((s.tile core r.1).sat || r.2.2) ∧ (t.tile core r.1).bad = []) ∧
      (∀ n, (∀ r ∈ e.out, r.1 ≠ n) → (t.tile core n).data = (s.tile core n).data) ∧ (∀ n, (t.tile core n).st = (s.tile core n).st) ∧
      ∀ c, c ≠ core → t.core c = s.core c))

/-- R96: the product of one operation, element by element: `C[i][j]` of the result is `C[i][j]` accumulated with row `i` of A and column
`j` of B, as an exact clamped sum of integer products for INT8 without scales, else group by group with one rounding each. -/
def Obligations.MatrixProduct : Prop :=
  ∀ (k : MmaK) (a b c : List Byte) (i j : Nat), i < 128 → j < k.n → a.length = 16384 → b.length = 16384 → c.length = 65536 →
    let w := k.ty.width
    let row := (List.range k.kt).map (fun p => elem w ((rowsOf 128 128 a).getD i 0) p)
    let col := (List.range k.kt).map (fun p => elem w ((rowsOf k.wStride k.kt b).getD p 0) j)
    let old := elem k.acc.width ((rowsOf 512 128 c).getD i 0) j
    elem k.acc.width ((rowsOf 512 128 (mmaTile k none none a b c).1).getD i 0) j =
      (if k = .i8 then (sumInt32 old (dotInt row col)).1
       else mmaFloat k (row.map k.val) (col.map k.val) (fun _ => none) old) % 2 ^ k.acc.width

/-- R276: gang signal counters. SQSIG adds once the group's tile operations and its fence have ended; SQWAIT returns once the counter has
reached its threshold, with the value captured where it asks for it, and times out after 2^24 clk. -/
def Obligations.GangSignals : Prop :=
  (∀ (h : Hdr) (n : Nat) (a : Opnd) (cap : Option Nat) (s : State) (x : Issue),
    let v := BitVec.ofNat 32 (x.g.opnd a 1 x.lead)
    let ready := x.g.isSeq = true ∨ s.fenceReady x.gid x.g .cluster = true
    let only := fun (i : Instr) => ∃ t g', exec i s = .next t ∧ OnlyGroup s t x.gid g' ∧ Stepped x.g g' x.run ∧ { g' with lanes := x.g.lanes } = x.g
    (s.issueOf (.sqsig h n a) false = .go x → (x.act = 0 → only (.sqsig h n a)) ∧
      (x.act ≠ 0 → x.g.cnt.mx.n = 0 → ready → (∃ k, mfind s.gangs x.g.gang = some k) → ∃ t g', exec (.sqsig h n a) s = .next t ∧ t.grp? x.gid = some g' ∧
        (∀ j, j ≠ x.gid → t.grp? j = s.grp? j) ∧ { t with groups := s.groups, gangs := s.gangs } = s ∧ Stepped x.g g' x.run ∧
        { g' with lanes := x.g.lanes } = x.g ∧
        ∀ k, t.signal x.g.gang k = if k = n then s.signal x.g.gang k + v else s.signal x.g.gang k) ∧
      (x.act ≠ 0 → x.g.cnt.mx.n ≠ 0 ∨ ¬ ready → exec (.sqsig h n a) s = .next (s.updGrp x.gid (fun g => { g with block := .sqsig n v x.run })))) ∧
    (s.issueOf (.sqwait h n a cap) false = .go x → (x.act = 0 → only (.sqwait h n a cap)) ∧
      (x.act ≠ 0 → (s.signal x.g.gang n - v).toInt ≥ 0 → ready → ∃ t g', exec (.sqwait h n a cap) s = .next t ∧ OnlyGroup s t x.gid g' ∧
        Stepped x.g g' x.run ∧ g'.block = .none ∧ (∀ k, sReg g' k = if cap = some k then s.signal x.g.gang n else sReg x.g k) ∧
        { g' with lanes := x.g.lanes, sc := x.g.sc, block := x.g.block } = x.g) ∧
      (x.act ≠ 0 → (s.signal x.g.gang n - v).toInt < 0 → exec (.sqwait h n a cap) s =
        .next (s.updGrp x.gid (fun g => { g with block := .sqwait n v cap s.clk false x.run x.act }))))) ∧
  (∀ (s : State) (who : Who) (gid n since : Nat) (a run act : Word) (cap : Option Nat) (g : Group), s.whoId who = some gid → s.grp? gid = some g →
    (g.block = .sqsig n a run → g.cnt.mx.n = 0 → g.isSeq = true ∨ s.fenceReady gid g .cluster = true → exec (.sqsigAdd who) s =
      .next ((s.signalAdd g.gang n a).updGrp gid (fun g => { (g.advance run) with block := .none }))) ∧
    (g.block = .sqwait n a cap since false run act →
      ((s.signal g.gang n - a).toInt ≥ 0 → g.isSeq = true ∨ s.fenceReady gid g .cluster = true → ∃ t g', exec (.sqwaitReturn who) s = .next t ∧
        OnlyGroup s t gid g' ∧ Stepped g g' run ∧ g'.block = .none ∧ { g' with lanes := g.lanes, sc := g.sc, block := g.block } = g ∧
        ∀ k, sReg g' k = if cap = some k then s.signal g.gang n else sReg g k) ∧
      (s.clk ≥ since + 2 ^ 24 → g.isSeq = false → exec (.sqwaitTimeout who) s =
        .next ((s.updGrp gid (fun g => { g with block := .none })).queueTrap gid (s.lateTrap g 0x14 act 0 (0x100 + n)))) ∧
      (s.clk ≥ since + 2 ^ 24 → g.isSeq = true → exec (.sqwaitTimeout who) s = .next (s.seqFault gid 0x14 0xFF (0x100 + n)))))

/-! ### Gates (R327–R340) -/

/-- R330–R332, R335, R338, R339: GCALL and SYSC make their checks (0x17 when one fails), their fence starts and the group waits for the gate
unit. GATE_ENTER pushes the frame and starts the entered lanes at the gate's entry in the callee's context and window, or parks a kernel
call's group and posts its request; GRET's lanes wait, and when all have arrived GATE_RETURN brings the caller back at the following slot with
its results and status 0. GATE_DEADLINE starts a forced unwind once a frame's deadline has passed, and ends one whose waits are over.
Choices of the model that it takes part in: log 48, 53, 54, 55, 88. -/
def Obligations.GateCalls : Prop :=
  (∀ (h : Hdr) (k gi : Nat) (s : State) (x : Issue),
    let waits := fun (e : GateEnt) (kern : Bool) => (s.startFence x.gid .device).updGrp x.gid (fun g =>
      { g with gcall := some { k := k, g := gi, kern := kern, e := e, lanes := x.act, since := s.clk } })
    let fails := Host.Outcome.next (s.queueTrap x.gid (x.trap s 0x17 x.act x.act 0 0 gi))
    let only := fun (i : Instr) => ∃ t g', exec i s = .next t ∧ OnlyGroup s t x.gid g' ∧ Stepped x.g g' x.run ∧ { g' with lanes := x.g.lanes } = x.g
    (s.issueOf (.gcall h k gi) false = .go x → (x.act = 0 → only (.gcall h k gi)) ∧
      (x.act ≠ 0 → s.gateCheck x false k gi = none → exec (.gcall h k gi) s = fails) ∧
      ∀ e, x.act ≠ 0 → s.gateCheck x false k gi = some e → exec (.gcall h k gi) s = .next ((waits e false).deadlockCheck x.g.core 64)) ∧
    (s.issueOf (.sysc h k gi) false = .go x → (x.act = 0 → only (.sysc h k gi)) ∧
      (x.act ≠ 0 → s.gateCheck x true k gi = none → exec (.sysc h k gi) s = fails) ∧
      ∀ e, x.act ≠ 0 → s.gateCheck x true k gi = some e → exec (.sysc h k gi) s = .next (waits e true)) ∧
    (s.issueOf (.gret h) false = .go x → (x.act = 0 → only (.gret h)) ∧
      (x.act ≠ 0 → x.g.inCallee = false ∨ x.g.hmode = true → exec (.gret h) s = .next (s.queueTrap x.gid (x.trap s 0x04 x.act x.act))) ∧
      (x.act ≠ 0 → x.g.inCallee = true → x.g.hmode = false → ∃ t g', exec (.gret h) s = .next t ∧ OnlyGroup s t x.gid g' ∧
        Moved x g' (fun l => { x.g.lane l with st := .gret }))) ∧
    (∀ kern e, s.gateCheck x kern k gi = some e ↔
      let c := mget ({} : Ctx) s.ctxs x.g.ctx
      x.g.hmode = false ∧ x.g.frames.length < 4 ∧ (∀ f fs, x.g.frames = f :: fs → f.nest = true) ∧ gi < c.gtSize ∧
        e = parseGate (s.readMem (c.gtBase + 64 * gi) 64) ∧ e.valid = true ∧ e.ok = true ∧ e.callers.getLsbD c.gclass = true ∧
        (if kern then e.tctx = 0 else e.tctx ≠ 0 ∧ e.tctx < 4096 ∧ (mget ({} : Ctx) s.ctxs e.tctx).live = true) ∧
        (e.alllanes = true → x.g.live &&& ~~~x.act = 0) ∧
        e.argv ≤ x.g.nregs ∧ e.resv ≤ x.g.nregs ∧ e.args ≤ x.g.sregs ∧ e.ress ≤ x.g.sregs ∧ k < x.g.sregs ∧
        (kern = false → e.argv ≤ 8 * e.vgran ∧ e.resv ≤ 8 * e.vgran ∧ e.args ≤ e.scnt ∧ e.ress ≤ e.scnt))) ∧
  (∀ (s : State) (gid : Nat) (g : Group) (w : GateWait), s.grp? gid = some g → g.gcall = some w → s.resident g = true → s.stopped g = false →
    g.dead = false → g.block = .none → g.quiet = true → s.fenceReady gid g .device = true →
    let dead := if w.e.timeout = 0 then none else some (s.regtime g + w.e.timeout)
    (∀ place since, w.kern = false → oldest (s.growWaits g.core) = some (gid, w.e.vgran, w.e.scratchKib + 4, since) →
      w.e.vgran ≤ s.freeGranules g.core → w.e.scratchKib + 4 ≤ s.svcFree g.core → placeFrame (s.svcUsed g.core) w.e.scratchKib = some place →
      ∃ t g' f, exec (.gateEnter gid) s = .next t ∧ t.grp? gid = some g' ∧ (∀ j, j ≠ gid → t.grp? j = s.grp? j) ∧ t.mem = s.mem ∧
        g'.frames = f :: g.frames ∧ g'.gcall = none ∧ g'.block = .none ∧
        g'.ctx = w.e.tctx ∧ g'.nregs = 8 * w.e.vgran ∧ g'.sregs = w.e.scnt ∧ g'.args = w.e.targs ∧ g'.cstack = w.e.tcstack ∧
        g'.fpflags = 0 ∧ g'.p = [] ∧ g'.b = [] ∧ g'.helper = 0 ∧ g'.mon = {} ∧
        f.v = g.v ∧ f.sc = g.sc ∧ f.p = g.p ∧ f.lanes = g.lanes ∧ f.caller = g.ctx ∧ f.entered = w.lanes ∧ f.cbase = place.1 ∧ f.xbase = place.2 ∧
        f.retpc = nextPc (g.lane (lowestLane w.lanes)).pc ∧ f.deadline = dead ∧
        (∀ k l, l < 32 → vReg g' k l = if k < w.e.argv ∧ w.lanes.getLsbD l then vReg g k l else 0) ∧
        (∀ k, sReg g' k = if k < w.e.args then sReg g k else 0) ∧
        g'.lanes.length = g.lanes.length ∧
        ∀ l, l < g.lanes.length → (w.lanes.getLsbD l = true → g'.lane l = { pc := w.e.entry }) ∧
          (w.lanes.getLsbD l = false → (g'.lane l).st = if (g.lane l).st = .exited then .exited else .outside)) ∧
    (∀ b, w.kern = true → firstFit (s.svcUsed g.core) 4 = some b →
      ∃ t g' f, exec (.gateEnter gid) s = .next t ∧ t.grp? gid = some g' ∧ (∀ j, j ≠ gid → t.grp? j = s.grp? j) ∧ t.mem = s.mem ∧
        g'.frames = f :: g.frames ∧ { g' with frames := g.frames, gcall := g.gcall, block := g.block } = g ∧ g'.gcall = none ∧ g'.block = .sysc ∧
        f.kern = true ∧ f.req = s.nextId ∧ f.gate = w.g ∧ f.sdest = w.k ∧ f.entered = w.lanes ∧ f.cbase = b ∧ f.deadline = dead ∧
        f.retpc = nextPc (g.lane (lowestLane w.lanes)).pc)) ∧
  (∀ (s : State) (gid : Nat) (g : Group) (f : Frame) (fs : List Frame), s.grp? gid = some g → g.frames = f :: fs → f.kern = false →
    s.resident g = true → g.gcall = none → (∀ l, l < 32 → f.entered.getLsbD l = true → (g.lane l).st = .gret) → g.quiet = true →
    g.block = .none →
    let s1 := s.startFence gid .device
    (s1.fenceReady gid g .device = true → exec (.gateReturn gid) s = .next (s1.endCall gid true 0 0)) ∧
    (s1.fenceReady gid g .device = false → exec (.gateReturn gid) s = .next (s1.updGrp gid (fun g => { g with block := .gret })))) ∧
  (∀ (g : Group) (f : Frame) (fs : List Frame) (status cause : Nat), g.frames = f :: fs →
    let g' := g.leave true status cause
    let word := BitVec.ofNat 32 (status + 256 * cause)
    (f.kern = false → g'.frames = fs ∧ g'.ctx = f.caller ∧ g'.nregs = f.nregs ∧ g'.sregs = f.sregs ∧ g'.gmap = f.gmap ∧ g'.p = f.p ∧ g'.b = f.b ∧
      g'.fpflags = f.fpflags ∧ g'.args = f.args ∧ g'.cstack = f.cstack ∧ g'.helper = f.helper ∧ g'.mon = f.mon ∧ g'.block = .none ∧
      g'.lanes.length = f.lanes.length ∧
      (∀ l, l < f.lanes.length → g'.lane l =
        if f.entered.getLsbD l then { f.lanes.getD l {} with pc := f.retpc, st := .run, wait := 0 } else f.lanes.getD l {}) ∧
      (∀ k l, l < 32 → vReg g' k l = if k < f.resv ∧ f.entered.getLsbD l then vReg g k l else mget 0 f.v (32 * k + l)) ∧
      (∀ k, sReg g' k = if k = f.sdest ∧ k < f.sregs then word else if k < f.ress then sReg g k else mget 0 f.sc k)) ∧
    (f.kern = true → g'.frames = fs ∧ g'.block = .none ∧ (∀ k, sReg g' k = if k = f.sdest ∧ k < g.sregs then word else sReg g k) ∧ g'.v = g.v ∧
      ∀ l, l < g.lanes.length → g'.lane l = if f.entered.getLsbD l then { g.lane l with pc := f.retpc, st := .run, wait := 0 } else g.lane l)) ∧
  (∀ (s : State) (gid till : Nat) (g : Group) (f : Frame), s.grp? gid = some g → s.resident g = true → g.frames = [f] →
    f.deadline = some till → till ≤ s.regtime g →
    (f.kern = false → g.block = .none → exec (.gateDeadline gid) s = .next (s.updGrp gid (fun g => g.unwindTo 1 8 0))) ∧
    (f.kern = true → g.block = .sysc → exec (.gateDeadline gid) s = .next ((s.withdraw f).endCall gid false 8 0))) ∧
  (∀ (s : State) (gid d st c : Nat) (g : Group), s.grp? gid = some g → s.resident g = true → (∀ f ∈ g.frames, f.deadline = none) →
    g.block = .unwind d st c true → g.drained = true → s.fenceReady gid g .device = true →
    exec (.gateDeadline gid) s = .next (s.performUnwind gid d st c))

/-! ### Meetings (R306–R316) -/

/-- R306, R309–R317: the meeting instructions hand their work to the meeting's home unit: MJOIN, MCONT and MLEAVE count their status on mt,
MRSLT and MSTAT hold their run until the answer returns; a record address that is not canonical or not aligned to 4 KiB traps, and one that
does not translate gives a status. The unit judges joins, contributions, results and departures, and takes in arrivals, deaths and writes
to K; a status reaches its group after the unit's stores that come before it.
Choices of the model that it takes part in: log 31, 39, 51, 52. -/
def Obligations.Meetings : Prop :=
  (∀ (h : Hdr) (d a b c : Opnd) (s s1 : State) (x : Issue),
    let va := BitVec.ofNat 64 (x.g.opnd a 2 x.lead)
    let m := x.g.opnd b 1 x.lead
    let tag := x.g.opnd b 2 x.lead % 2 ^ 32
    let mem := x.g.opnd b 2 x.lead / 2 ^ 32
    let buf := BitVec.ofNat 64 (x.g.opnd c 2 x.lead)
    let joins := s.issueOf (.mjoin h d a b) false = .go x
    let conts := s.issueOf (.mcont h d a b c) false = .go x
    let rslts := s.issueOf (.mrslt h d a b c) false = .go x
    let leaves := s.issueOf (.mleave h d a b) false = .go x
    let stats := s.issueOf (.mstat h d a b) false = .go x
    (∀ i, (joins ∧ i = .mjoin h d a b) ∨ (conts ∧ i = .mcont h d a b c) ∨ (rslts ∧ i = .mrslt h d a b c) ∨
        (leaves ∧ i = .mleave h d a b ∧ (x.act ≠ 0 → x.g.cnt.mt.n = 0)) ∨ (stats ∧ i = .mstat h d a b) →
      (x.act = 0 → ∃ t g', exec i s = .next t ∧ OnlyGroup s t x.gid g' ∧ Stepped x.g g' x.run ∧ { g' with lanes := x.g.lanes } = x.g) ∧
      (x.act ≠ 0 → canonical va = false → exec i s = .next (s.queueTrap x.gid (x.trap s 0x0D x.act x.act va))) ∧
      (x.act ≠ 0 → canonical va = true → va.toNat % 4096 ≠ 0 → exec i s = .next (s.queueTrap x.gid (x.trap s 0x12 x.act x.act va)))) ∧
    (x.act ≠ 0 → canonical va = true → va.toNat % 4096 = 0 →
      (∀ e, s.meetRef x.g va .w = (.error e, s1) →
        (joins → exec (.mjoin h d a b) s = .next (x.statusOp d (some .mt) e s1)) ∧
        (conts → exec (.mcont h d a b c) s = .next (x.statusOp d (some .mt) e s1)) ∧
        (rslts → exec (.mrslt h d a b c) s = .next (x.heldOp d 1 e s1)) ∧
        (leaves → x.g.cnt.mt.n = 0 → exec (.mleave h d a b) s = .next (x.statusOp d (some .mt) e s1))) ∧
      (∀ ref, s.meetRef x.g va .w = (.ok ref, s1) →
        (joins → exec (.mjoin h d a b) s = .next (x.statusOp d (some .mt) (s1.join x ref m).1 (s1.join x ref m).2)) ∧
        (conts → exec (.mcont h d a b c) s = .next (x.done (((s1.addOp x.gid (some .mt) (.mcont d x.act
          { meet := ref.key, member := mem, tag := tag, buf := buf, lockok := ref.lockok })).admitStream ref.key s1.nextId).pump ref.key) (fun g => g))) ∧
        (rslts → exec (.mrslt h d a b c) s = .next (x.hold s1.nextId
          ((s1.addOp x.gid none (.mrslt d x.act ref.key mem tag buf)).result s1.nextId d x.act ref.key mem tag))) ∧
        (leaves → x.g.cnt.mt.n = 0 →
          exec (.mleave h d a b) s = .next (x.statusOp d (some .mt) (s1.depart x ref.key m).1 (s1.depart x ref.key m).2))) ∧
      (∀ e, stats → s.meetRef x.g va .r = (.error e, s1) → exec (.mstat h d a b) s = .next (x.heldOp (Opnd.up d 2) 1 (e * 2 ^ 24) s1)) ∧
      (∀ ref mt, stats → s.meetRef x.g va .r = (.ok ref, s1) → mfind s1.meets ref.key = some mt →
        (m < mt.n → exec (.mstat h d a b) s = .next (x.heldOp d 4 (mt.open_ + 2 ^ 32 * ((mt.k * 2 ^ 16 + mt.live) % 2 ^ 32) +
          2 ^ 64 * ((if mt.stall then 2 ^ 8 else 0) + s1.memberState ref.key m) + 2 ^ 96 * s1.memberTag ref.key m) s1)) ∧
        (mt.n ≤ m → exec (.mstat h d a b) s = .next (x.heldOp (Opnd.up d 2) 1 0x02000000 s1))) ∧
      (∀ ref, stats → s.meetRef x.g va .r = (.ok ref, s1) → mfind s1.meets ref.key = none →
        let w := fun (off n : Nat) => s1.chime ref.key (ref.key + off) n
        m < w 0 4 → exec (.mstat h d a b) s = .next (x.heldOp d 4 (w 0x10 4 + 2 ^ 32 * ((w 4 4 * 2 ^ 16 + w 0x14 2) % 2 ^ 32) +
          2 ^ 64 * ((if bitAt (w 0x18 4) 9 then 2 ^ 8 else 0) + s1.memberState ref.key m) + 2 ^ 96 * s1.memberTag ref.key m) s1))) ∧
    (∀ need key lk mg, Translates s x.g va need key lk mg →
      ∃ ref, s.meetRef x.g va need = (.ok ref, s) ∧ ref.key = key ∧ ref.lockok = lk ∧ ref.va = va.toNat)) ∧
  (∀ (s : State) (x : Issue) (d : Opnd) (w v : Nat), s.grp? x.gid = some x.g →
    let word := (lanesOf x.act).map (fun l => (l, v))
    (∃ g' o, (x.statusOp d (some .mt) v s).grp? x.gid = some g' ∧ Stepped x.g g' x.run ∧ g'.cnt = x.g.cnt.set .mt (x.g.cnt.get .mt).issue ∧
      { g' with lanes := x.g.lanes, cnt := x.g.cnt } = x.g ∧ mfind (x.statusOp d (some .mt) v s).ops s.nextId = some o ∧ o.cls = some .mt ∧
      o.gid = x.gid ∧ o.kind = .reply (some d) 1 word none none) ∧
    (∃ g' o, (x.heldOp d w v s).grp? x.gid = some g' ∧ { g' with block := x.g.block } = x.g ∧ g'.block = .meet s.nextId x.run ∧
      mfind (x.heldOp d w v s).ops s.nextId = some o ∧ o.cls = none ∧ o.gid = x.gid ∧ o.kind = .reply (some d) w word none none)) ∧
  (∀ (s : State) (x : Issue) (ref : MeetRef) (m : Nat) (mt : Meet), mfind s.meets ref.key = some mt →
    let gang := mget ({} : Gang) s.gangs x.g.gang
    let st := s.memberState ref.key m
    let few := ((gang.meets.map (fun e => e.1)).dedup).length < 4
    (ref.pinned = false ∨ mt.n ≤ m ∨ st = 1 ∨ ¬ few → s.join x ref m = (2, s)) ∧
    (ref.pinned = true → m < mt.n → st ≠ 1 → few → (s.join x ref m).1 = 0) ∧
    (mt.n ≤ m ∨ (st ≠ 1 ∧ st ≠ 2) ∨ s.memberCtx ref.key m ≠ x.g.ctx → s.depart x ref.key m = (2, s)) ∧
    (m < mt.n → st = 1 ∨ st = 2 → s.memberCtx ref.key m = x.g.ctx → (s.depart x ref.key m).1 = 0)) ∧
  (∀ (s : State) (key ctx m r : Nat) (mt : Meet), mfind s.meets key = some mt →
    let d := toSigned 32 (r + 2 ^ 32 - mt.open_)
    (mt.stall = true → s.judgeMeet key ctx m r = .status 7) ∧
    (mt.stall = false → mt.n ≤ m ∨ s.memberState key m ≠ 1 ∨ s.memberCtx key m ≠ ctx ∨ (s.memberHave key m = true ∧ r ≤ s.memberTag key m) ∨ d > 1 →
      s.judgeMeet key ctx m r = .status 2) ∧
    (mt.stall = false → m < mt.n → s.memberState key m = 1 → s.memberCtx key m = ctx → (s.memberHave key m = true → s.memberTag key m < r) →
      (d = 0 ∨ d = 1 → s.judgeMeet key ctx m r = .stream r false 0) ∧
      (d < 0 → d ≥ -(mt.lag : Int) → s.judgeMeet key ctx m r =
        if mt.late = 2 then .drop else .stream mt.open_ true (if mt.late = 1 then d.natAbs else 0)) ∧
      (d < -(mt.lag : Int) → s.judgeMeet key ctx m r = .lapse))) ∧
  (∀ (s : State) (key id : Nat) (o : Op) (d : Opnd) (lanes : Word) (st : Stream) (mt : Meet), mfind s.ops id = some o → o.kind = .mcont d lanes st →
    st.st = .waiting → mfind s.meets key = some mt →
    (∀ v, s.judgeMeet key o.ctx st.member st.tag = .status v → s.admitStream key id = s.reply id d 1 lanes v none) ∧
    (∀ round folded w, s.judgeMeet key o.ctx st.member st.tag = .stream round folded w →
      let held := mt.ord = true ∧ folded = false ∧ ∃ j, j < st.member ∧ s.memberState key j = 1 ∧ (round, j) ∉ mt.mine
      (held → s.admitStream key id = s) ∧
      (¬ held → s.admitStream key id =
        (s.setMemberTag key st.member st.tag).startStream id o key { st with round := round, folded := folded, wexp := w }))) ∧
  (∀ (s : State) (id key m r : Nat) (d : Opnd) (lanes : Word) (mt : Meet), mfind s.meets key = some mt →
    let e := toSigned 32 (r + 2 ^ 32 - mt.open_)
    let member := m < mt.n ∧ (s.memberState key m = 1 ∨ s.memberState key m = 2)
    (¬ member ∨ e > 1 → s.result id d lanes key m r = s.reply id d 1 lanes 2 none) ∧
    (member → e < -((max mt.lag 1 : Nat) : Int) → s.result id d lanes key m r = s.reply id d 1 lanes 0x0B none) ∧
    (member → e < 0 → e ≥ -((max mt.lag 1 : Nat) : Int) → s.result id d lanes key m r = s.serveResult id) ∧
    (member → 0 ≤ e → e ≤ 1 → s.result id d lanes key m r = if mt.stall then s.reply id d 1 lanes 7 none else s)) ∧
  (∀ (s : State) (id : Nat) (o : Op) (d : Opnd) (lanes : Word) (g : Group), mfind s.ops id = some o → s.grp? o.gid = some g → o.job = .instr →
    (∀ e ∈ s.ops, e.1 < o.after → ∀ k, e.2.job ≠ .own k) →
    (∀ w vals, o.kind = .reply (some d) w vals none none →
      (o.cls = some .mt → exec (.meetingStatusReturn id) s = .next ((s.updGrp o.gid (fun g => g.putVals d w vals)).endOp id)) ∧
      (o.cls = none → g.block = .meet id lanes → ∃ t g', exec (.meetingStatusReturn id) s = .next t ∧ t.grp? o.gid = some g' ∧
        mfind t.ops id = none ∧ Stepped (g.putVals d w vals) g' lanes ∧ g'.block = .none)) ∧
    (∀ own key m tag buf st, o.kind = .mrslt d own key m tag buf (some st) → o.cls = none → g.block = .meet id lanes →
      let as := s.resultAccs id
      (as.all Acc.final = false → exec (.meetingStatusReturn id) s = .next s) ∧
      (as.all Acc.final = true → ∃ t g', exec (.meetingStatusReturn id) s = .next t ∧ t.grp? o.gid = some g' ∧ mfind t.ops id = none ∧
        Stepped ((g.putVals d 1 ((lanesOf own).map (fun l => (l, if accStatus as = 0 then st else accStatus as)))).raiseCtime (latest as)) g' lanes ∧
        g'.block = .none))) ∧
  (∀ (s : State) (key member : Nat),
    ((∀ d ∈ s.departs, ¬ (d.meet = key ∧ d.member = member)) → exec (.memberDeath key member) s = .next s) ∧
    (∀ d, s.departs = [d] → d.meet = key → d.member = member → d.dev = none → (mfind s.meets key).isSome = true → s.memberState key member = 1 →
      s.memberCtx key member = d.ctx → s.memberGang key member = d.gang →
      let s1 := ({ s with departs := [] }).setMemberState key member 3
      exec (.memberDeath key member) s = .next (((((s1.streams key).filter (fun e => e.2.2.2.2.member == member)).foldl
        (fun s e => s.cutStream key e) s1).changeLive key (fun n => n - 1)).pump key |>.idleMeet key))) ∧
  (∀ (s : State) (key k : Nat), (s.chime key (key + 4) 4 = k % 2 ^ 32 → exec (.kWrite key k) s = .next (s.quorum key)) ∧
    (s.chime key (key + 4) 4 ≠ k % 2 ^ 32 → exec (.kWrite key k) s = .next ((s.put48 key (key + 4) 4 (k % 2 ^ 32)).quorum key))) ∧
  (∀ (s : State) (key id : Nat) (o : Op) (d : Opnd) (lanes : Word) (st : Stream) (m : Meet) (status failed sat : Nat),
    s.streams key = [(id, o, d, lanes, st)] → mfind s.meets key = some m → st.st = .ended status failed sat →
    let slot := key + m.slotOff st.round
    let c := slot + 0x40 + st.member / 8
    let b := s.chime key c 1
    let s1 := (if bitAt b (st.member % 8) then s else s.put48 key c 1 (b + 2 ^ (st.member % 8))).bump key (slot + 0xC) 4 sat
    let s2 := if st.folded then s1.bump key (slot + 8) 4 1
      else (s1.bump key (slot + 4) 4 1).updMeet key (fun m => { m with mine := (st.round, st.member) :: m.mine })
    (failed ≠ 0 → exec (.contributionArrival key st.member) s =
      .next (((s.taint key o.ctx st (m.streamChunks - failed) m.streamChunks).reply id d 1 lanes status none).quorum key)) ∧
    (failed = 0 → m.op ≠ 0 → exec (.contributionArrival key st.member) s = .next ((s2.reply id d 1 lanes status none).quorum key))) ∧
  (∀ (s : State) (key n : Nat) (m : Meet), mfind s.meets key = some m →
    let r := m.open_
    let slot := key + m.slotOff r
    let full := r ≠ 0xFFFFFFFF ∧ m.k ≤ s.chime key (slot + 4) 4 ∧ ∀ e ∈ s.streams key, e.2.2.2.2.round = r → e.2.2.2.2.st = .waiting
    let s1 := ((((s.put48 key slot 4 r).put48 key (slot + 0x18) 8 (s.homeNow key)).updMeet key
      (fun m => { m with open_ := r + 1 })).writeHeader key).clearSlot key (r + 2)
    (¬ full → s.closeRounds key (n + 1) = s) ∧
    (full → s.closeRounds key (n + 1) = ((s1.waiters key (some r)).foldl (fun s w => s.serveResult w.1) s1).closeRounds key n))

/-! ### Scheduling of groups and launches (R25–R50) -/

/-- R36, R38–R40, R42, R180: the sets of a partition: a blocked active group changes places with a ready pending one; one that has been ready
for 4,096 clk displaces the one that has been active longest; of the runs that have waited 224 issues the one that has waited longest is
picked. A group whose lanes have exited and whose counters have drained ends; the last of its team ends the team, else the team's barrier is
tested, and the core checks for a register deadlock.
Choices of the model that it takes part in: log 58. -/
def Obligations.GroupSets : Prop :=
  (∀ (s : State) (i j : Nat) (a b : Group), s.grp? i = some a → s.grp? j = some b → a.core = b.core → a.grp % 4 = b.grp % 4 → a.isSeq = false →
    b.isSeq = false → s.resident a = true → s.resident b = true → a.active = true → b.active = false → s.isReady i a = false → s.isReady j b = true →
    ∃ t, exec (.groupSwap i j) s = .next t ∧ { t with groups := s.groups } = s ∧ t.grp? i = some { a with active := false } ∧
      t.grp? j = some { b with active := true, activeAt := s.clk } ∧ ∀ k, k ≠ i → k ≠ j → t.grp? k = s.grp? k) ∧
  (∀ (s : State) (gid j : Nat) (b e : Group), s.grp? gid = some b → b.active = false → b.isSeq = false → s.resident b = true →
    let rivals := s.groups.filter (fun e => samePart e.2 b && s.resident e.2 && e.2.active)
    (b.readyAt + 4096 ≤ s.clk → s.isReady gid b = true → (j, e) ∈ rivals → (∀ p ∈ rivals, p ≠ (j, e) → e.activeAt < p.2.activeAt) →
      exec (.pendingDisplace gid) s =
        .next ((s.updGrp j (fun g => { g with active := false })).updGrp gid (fun g => { g with active := true, activeAt := s.clk }))) ∧
    (s.clk < b.readyAt + 4096 ∨ s.isReady gid b = false → exec (.pendingDisplace gid) s = .next s)) ∧
  (∀ (s : State) (gid : Nat) (g : Group), s.grp? gid = some g → g.pick = none →
    (g.starved = 0 → exec (.starvationGuard gid) s = .next s) ∧
    (∀ l, g.starved.getLsbD l = true → (∀ k, g.starved.getLsbD k = true → (g.lane k).wait < (g.lane l).wait ∨
        ((g.lane k).wait = (g.lane l).wait ∧ (g.lane l).pc.toNat ≤ (g.lane k).pc.toNat)) →
      exec (.starvationGuard gid) s = .next (s.updGrp gid (fun g' => { g' with pick := some (g.lane l).pc })))) ∧
  (∀ (g : Group) (l : Nat), l < 32 → (g.starved.getLsbD l = true ↔ g.candidates.getLsbD l = true ∧ (g.lane l).wait ≥ 224)) ∧
  (∀ (s : State) (gid : Nat) (g : Group), s.grp? gid = some g → s.resident g = true →
    ((g.live ≠ 0 ∧ g.dead = false) ∨ g.drained = false ∨ g.gcall ≠ none → exec (.groupEnd gid) s = .next s) ∧
    (g.live = 0 ∨ g.dead = true → g.drained = true → g.gcall = none → g.log = [] → g.trapq = [] → g.frames = [] → s.traced g = false →
      let t := s.dropGroup gid
      t.grp? gid = none ∧ t.mem = s.mem ∧
      (∀ j, j ≠ gid → t.grp? j = s.grp? j ∨ ∃ x, s.grp? j = some x ∧ t.grp? j = some { x with active := true, activeAt := s.clk }) ∧
      (g.isSeq = true → exec (.groupEnd gid) s = .next (t.gangEnd g.gang)) ∧
      (g.isSeq = false → t.teamGroups g.gang g.team ≠ [] →
        exec (.groupEnd gid) s = .next ((t.tbarTest g.gang g.team).deadlockCheck g.core 64)) ∧
      (g.isSeq = false → t.teamGroups g.gang g.team = [] →
        exec (.groupEnd gid) s = .next ((t.teamEnd g.gang g.team 0).deadlockCheck g.core 64)))) ∧
  (∀ (s : State) (gang team : Nat) (k : Gang), mfind s.gangs gang = some k → team < k.teams.length → (s.team gang team).live = true →
    (mget ({} : Launch) s.launches k.launch).tmpl = none → NoDeltas s k.cluster →
    s.teamEnd gang team 0 = (s.updTeam gang team (fun t => { t with live := false })).teamFreed gang team 0)

/-- R28, R29, R31–R37: a record is dequeued when the tail is ahead of the head, taken if it is well formed and could ever fit, rejected else; a
word that cannot be reached stops the queue; dependences are met when their event words have reached their thresholds; gangs are admitted at
the places chosen, with R35's initial state; a launch whose gangs have all ended and whose pushes have been performed writes its status and
then advances its event word.
Choices of the model that it takes part in: log 56, 85, 91. -/
def Obligations.Launches : Prop :=
  (∀ (s s1 : State) (q : Nat) (lq : LQ), mfind s.lqs q = some lq → lq.ctx ≠ 0 → lq.stopped = false → lq.cur = none →
    (mget {} s.ctxs lq.ctx).live = true → (mget {} s.ctxs lq.ctx).killing = false →
    let tag := takeTag q
    let stops := fun (u : State) (va o : Nat) => exec (.launchRecordDequeue q) s = .next ((u.forget tag).stopQueue q lq va o)
    (s.svcAccess tag none lq.ctx lq.tailVa 8 none = (.wait, s1) → exec (.launchRecordDequeue q) s = .next s1) ∧
    (∀ o, s.svcAccess tag none lq.ctx lq.tailVa 8 none = (.fail o, s1) → stops s1 lq.tailVa.toNat o) ∧
    (∀ tail t1, s.svcAccess tag none lq.ctx lq.tailVa 8 none = (.ok tail t1, s1) →
      let n := (tail + 2 ^ 64 - lq.head % 2 ^ 64) % 2 ^ 64
      (n = 0 → exec (.launchRecordDequeue q) s = .next (s1.forget tag)) ∧
      (n > lq.slots → stops s1 0 0) ∧
      (∀ rec2 t2 v3 t3 s2 s3, n ≠ 0 → n ≤ lq.slots → s1.svcAccess tag none lq.ctx (lq.slotVa lq.head) 128 none = (.ok rec2 t2, s2) →
        s2.svcAccess tag none lq.ctx lq.headVa 8 (some ((lq.head + 1) % 2 ^ 64)) = (.ok v3 t3, s3) →
        let r := parseLRec rec2
        let l : Launch := { ctx := lq.ctx, queue := q, lseq := lq.head, lr := r, met0 := r.dep0 == 0, met1 := r.dep1 == 0, prio := min r.prio lq.ceil }
        let s4 := s3.forget tag
        let puts := fun (l : Launch) (cur : Option Nat) => ∃ t lq', exec (.launchRecordDequeue q) s = .next t ∧ mfind t.launches s4.nextId = some l ∧
          mfind t.lqs q = some lq' ∧ lq'.cur = cur ∧ lq'.head = lq.head + 1
        (r.ok = false → puts { l with outcome := 1 } none) ∧
        (r.ok = true → s4.neverFits l = true → puts { l with outcome := 2 } none) ∧
        (r.ok = true → s4.neverFits l = false → puts l (some s4.nextId))))) ∧
  (∀ (s s1 : State) (q which id : Nat) (lq : LQ) (l : Launch), mfind s.lqs q = some lq → lq.cur = some id → mfind s.launches id = some l →
    let va := if which = 0 then l.lr.dep0 else l.lr.dep1
    let need := if which = 0 then l.lr.dep0v else l.lr.dep1v
    let met := fun (l : Launch) => if which = 0 then { l with met0 := true } else { l with met1 := true }
    let tag := depTag q which
    (if which = 0 then l.met0 else l.met1) = false →
    (s.svcAccess tag none l.ctx va 8 none = (.wait, s1) → exec (.dependenceMet q which) s = .next s1) ∧
    (∀ o, s.svcAccess tag none l.ctx va 8 none = (.fail o, s1) → exec (.dependenceMet q which) s = .next ((s1.forget tag).reject q id 3)) ∧
    (∀ v t1, s.svcAccess tag none l.ctx va 8 none = (.ok v t1, s1) →
      (v < need.toNat → exec (.dependenceMet q which) s = .next (s1.forget tag)) ∧
      (need.toNat ≤ v → exec (.dependenceMet q which) s =
        .next (({ (s1.forget tag) with launches := mupd (s1.forget tag).launches id met }).priorityPreempt id)))) ∧
  (∀ (s s1 : State) (q id : Nat) (lq : LQ) (l : Launch) (places : List Place), mfind s.lqs q = some lq → s.admissible lq = some l →
    lq.cur = some id → places.length = l.wants → s.servedNext q l = true → l.lr.xtmpl = 0 →
    (s.startGangs id places = some s1 →
      ∃ t, exec (.gangAdmit q places) s = .next t ∧ t.groups = s1.groups ∧ t.gangs = s1.gangs ∧ t.launches = s1.launches ∧ t.mem = s1.mem) ∧
    (s.startGangs id places = none → exec (.gangAdmit q places) s = .next s)) ∧
  (∀ (s : State) (id core : Nat) (l : Launch) (p : Place), l.lr.seqcode = 0 → l.lr.groups = 1 → l.lr.wtiles = 0 → l.lr.atiles = 0 → l.lr.ctiles = 0 →
    p.cores = [core] → (s.core core).dbg.traceOn = false →
    ∃ g k, (s.startGang id l p).grp? (s.nextId + 1) = some g ∧ mfind (s.startGang id l p).gangs s.nextId = some k ∧
      g.lanes = List.replicate 32 { pc := l.lr.code } ∧ g.ctx = l.ctx ∧ g.core = core ∧ g.nregs = l.lr.vregs ∧ g.sregs = l.lr.sregs ∧ g.args = l.lr.args ∧
      g.v = [] ∧ g.sc = [] ∧ g.p = [] ∧ g.fpflags = 0 ∧ g.ctime = 0 ∧
      k.gx = l.started % l.lr.ngx ∧ k.gy = l.started / l.lr.ngx % l.lr.ngy ∧ k.gz = l.started / (l.lr.ngx * l.lr.ngy) ∧ k.cluster = p.cluster ∧
      (s.startGang id l p).mem = s.mem) ∧
  (∀ (s : State) (id : Nat) (l : Launch), mfind s.launches id = some l →
    let tag := endTag id
    let ended := (∀ e ∈ s.lqs, e.2.cur ≠ some id) ∧ l.started ≤ l.ended ∧ (l.outcome ≠ 0 ∨ l.lr.total ≤ l.started) ∧
      ∀ e ∈ s.ops, ∀ rs, e.2.job ≠ .push rs (some id)
    let told := fun (u : State) (tc : Nat) => Host.Outcome.next { u with launches := mupd u.launches id (fun l => { l with told := some tc }) }
    let gone := fun (u : State) => Host.Outcome.next { (u.forget tag) with launches := mdel (u.forget tag).launches id }
    let word := min 65535 l.badTeams * 2 ^ 16 + l.outcome * 2 ^ 8 + l.worst
    (¬ ended → exec (.launchComplete id) s = .next s) ∧
    (ended → l.told = none → l.lr.status = 0 → exec (.launchComplete id) s = told s s.now) ∧
    (ended → l.told = none → l.lr.status ≠ 0 → ∀ r s1, s.svcAccess tag none l.ctx l.lr.status 4 (some word) = (r, s1) →
      exec (.launchComplete id) s = match r with
        | .wait => .next s1
        | .ok _ tc => told s1 tc
        | .fail o => told (s1.addErr l.ctx (.completion l.lr.status o)) s1.now) ∧
    (∀ t, ended → l.told = some t → l.lr.done = 0 → exec (.launchComplete id) s = gone s) ∧
    (∀ t, ended → l.told = some t → l.lr.done ≠ 0 → s.now < t + 64 → exec (.launchComplete id) s = .next s) ∧
    (∀ t, ended → l.told = some t → l.lr.done ≠ 0 → t + 64 ≤ s.now → ∀ r s1, s.svcAsk tag none l.ctx l.lr.done 8 (.red .add) 1 = (r, s1) →
      exec (.launchComplete id) s = match r with
        | .wait => .next s1
        | .ok _ _ => gone s1
        | .fail o => gone (s1.addErr l.ctx (.completion l.lr.done o))))

/-- R45–R48, R64: once every group of a pre-empted context has stopped and drained, its records are sent to the save area, from SAVE_BASE on,
and it leaves the device; a restore waits for those writes, places its gangs where the scheduler chooses, and leaves all as it was where one
does not fit; joining a domain, which needs an empty device, steps the time forward or holds it still until domain time reaches it.
Choices of the model that it takes part in: log 16, 42, 60, 65. -/
def Obligations.Preemption : Prop :=
  (∀ (s : State) (ctx : Nat) (c : Ctx), mfind s.ctxs ctx = some c → c.stopping = true → c.out = false → c.killing = false →
    (∀ k ∈ s.gangs, k.2.ctx = ctx → ∀ t ∈ k.2.teams, t.copying = false) →
    ((∃ e ∈ s.groupsFor ctx, s.saveReady e = false) → exec (.preemptSave ctx) s = .next s) ∧
    ((∀ e ∈ s.groupsFor ctx, s.saveReady e = true ∧ e.2.poison = [] ∧ s.ownWait e.2 = none) →
      ∃ t c', exec (.preemptSave ctx) s = .next t ∧ t.mem = s.mem ∧ t.gangs = s.gangs ∧ mfind t.ctxs ctx = some c' ∧
        c' = { c with stopping := false, out := true, outAt := s.now } ∧
        ∀ gid g rest, (s.groupsFor ctx).filter (fun e => !e.2.isSeq) = (gid, g) :: rest → s.grp? gid = some g →
          (t.grp? gid).map (fun g => g.saved) = some c.saveBase ∧
          ∃ o m as, mfind t.ops s.nextId = some o ∧ o.job = .own (saveTag ctx) ∧ o.cluster = hubAgent ∧ o.kind = .mem m as ∧ m.kind = .store ∧
            let bs := s.saveRecord g
            as.map (fun a => (a.key, a.data, a.st)) = (List.range (bs.length / 128)).map (fun i =>
              (c.saveBase + 128 * i, leNat ((bs.drop (128 * i)).take 128), .wait)))) ∧
  (∀ (s : State) (ctx : Nat) (places : List Place),
    let c : Ctx := mget {} s.ctxs ctx
    let mine := s.gangs.filter (fun e => e.2.ctx == ctx)
    let offG := fun (g : Group) => { g with core := nowhere, cluster := nowhere, gmap := [], frames := g.frames.map (fun f => { f with gmap := [] }) }
    let t : State := { s with ctxs := mupd s.ctxs ctx (fun c => { c with out := false, eligible := false }),
                              groups := s.groups.map (fun e => if e.2.ctx0 = ctx then (e.1, offG e.2) else e),
                              gangs := s.gangs.map (fun e => if e.2.ctx = ctx then
                                (e.1, { e.2 with cluster := nowhere, teams := e.2.teams.map (fun x => { x with core := nowhere, grans := [] }) }) else e) }
    let may := c.out = true ∧ s.saving ctx = false ∧ s.hold = 0 ∧
      (if c.killing then s.killHolds ctx = true else c.eligible = true ∧ c.live = true)
    (¬ may → exec (.contextRestore ctx places) s = .next s) ∧
    (may → t.restoreGangs (s.now - c.outAt) mine places = none → exec (.contextRestore ctx places) s = .next s) ∧
    ∀ u, may → t.restoreGangs (s.now - c.outAt) mine places = some u → exec (.contextRestore ctx places) s =
      .next ((places.flatMap (fun (p : Place) => p.cores)).foldl (fun (t : State) k => t.deadlockCheck k 64) u)) ∧
  (∀ (s : State) (time : Nat),
    (s.groups ≠ [] → exec (.domainJoin time) s = .next s) ∧
    (s.groups = [] → s.timed = [] → s.hold = 0 → s.now < time →
      exec (.domainJoin time) s = .next { s with now := time, lagCl := [], lagSl := [], lagHub := 0 }) ∧
    (s.groups = [] → time ≤ s.now → exec (.domainJoin time) s = .next { s with hold := s.now - time }))

/-! ### The hub (R242, R248, R349–R357) -/

/-- R353: the hub performs the oldest command of a port, once the stores of system cores before it have their instants, and reports its TAG
and status; a context that does not exist gives ACCESS_DENIED and changes nothing else. R29, R45, R55, R57, R61, R242, R339, R340: what each
command does.
Choices of the model that it takes part in: log 59, 62, 63, 64, 65, 66, 67. -/
def Obligations.HubCommands : Prop :=
  (∀ (s : State) (p : Nat) (c : Command) (rest : List Command), (s.port p).queue = c :: rest → s.cmdWaits c = false →
    let reports := fun (t : State) (status : Nat) => Host.Outcome.next (t.cmdDone p status)
    let id := c.arg 0
    let busy := fun (t : State) => if (s.port p).busy then s else t.updPort p (fun x => { x with busy := true })
    (c.code = 1 →
      let x := s.readMem (s.hub.ctxtab + 256 * id) 256
      let d := parseCtx x
      (id = 0 ∨ 4096 ≤ id → exec (.ctxLoad p) s = reports s 2) ∧
      (1 ≤ id → id < 4096 → (mget {} s.ctxs id).killing = true → exec (.ctxLoad p) s = .next s) ∧
      (1 ≤ id → id < 4096 → (mget {} s.ctxs id).killing = false →
        (d.ok x = false → exec (.ctxLoad p) s = reports (s.addErr id .descriptor) 2) ∧
        (d.ok x = true → ∃ t k, exec (.ctxLoad p) s = reports t 0 ∧ mfind t.ctxs id = some k ∧ (∀ j, j ≠ id → mfind t.ctxs j = mfind s.ctxs j) ∧
          { t with ctxs := s.ctxs } = s ∧ k.loaded = true ∧ k.live = !(s.killAfter id c) ∧ k.root = d.root ∧ k.hwBase = d.hwBase ∧
          k.hwLimit = d.hwLimit ∧ k.hwOffset = d.hwOffset ∧ k.hwPerm = d.hwPerm ∧ k.trapent = d.trapent ∧ k.gtBase = d.gtBase ∧
          k.gtSize = d.gtSize ∧ k.gclass = d.gclass ∧ k.notifyq = d.notifyq ∧ k.syscq = d.syscq ∧ k.saveBase = d.saveBase))) ∧
    (c.code = 3 → ∀ done t,
      (if (s.port p).busy then (true, s) else s.harvestRange p id (c.arg 1 + c.arg 2) (c.arg 2 / 4096 + 2) ((s.port p).pos.getD (c.arg 1))) = (done, t) →
      let u := t.updPort p (fun x => { x with busy := true })
      (done = false → exec (.harvest p) s = .next t) ∧
      (done = true → u.now < (u.port p).tc + 64 → exec (.harvest p) s = .next u) ∧
      (done = true → (u.port p).tc + 64 ≤ u.now → ∀ r v,
        u.ask { tag := cmdTag p, agent := hubAgent, key := c.arg 3, width := 8, kind := .store, ty := .b64, data := 1 } = (r, v) →
        (r = .wait → exec (.harvest p) s = .next v) ∧ (r ≠ .wait → exec (.harvest p) s = reports (v.forget (cmdTag p)) 0))) ∧
    (s.loaded? id = none →
      (c.code = 2 → exec (.tlbInval p) s = reports s 2) ∧ (c.code = 4 → exec (.ctxPreempt p) s = reports s 2) ∧
      (c.code = 5 → exec (.ctxResume p) s = reports s 2) ∧ (c.code = 6 → exec (.ctxKill p) s = reports s 2) ∧
      (c.code = 7 → exec (.groupRelease p) s = reports s 2) ∧ (c.code = 8 → exec (.faultDone p) s = reports s 2) ∧
      (c.code = 0x0C → exec (.icacheInval p) s = reports s 2)) ∧
    (∀ x, s.loaded? id = some x →
      (c.code = 2 →
        let u := busy (s.invalidate id (c.arg 1) (c.arg 2) (c.arg 3))
        exec (.tlbInval p) s = if u.invalWaits id (c.arg 1) (c.arg 2) (c.arg 3) then .next u else reports u 0) ∧
      (c.code = 4 →
        let u := busy { s with ctxs := mupd s.ctxs id (fun c => { c with stopping := !c.out, eligible := false }) }
        exec (.ctxPreempt p) s = if x.out && !(u.saving id) then reports u 0 else .next u) ∧
      (c.code = 5 → exec (.ctxResume p) s = reports { s with ctxs := mupd s.ctxs id (fun c => { c with eligible := true }) } 0) ∧
      (c.code = 6 →
        let u := ({ s with ctxs := mupd s.ctxs id (fun c => { c with killing := true, live := false }) }).killFrames id
        let v := (u.performKill id).endLaunches id
        (u.killWaits id = true → exec (.ctxKill p) s = .next u) ∧
        (u.killWaits id = false → (∃ e ∈ v.launches, e.2.ctx = id) → exec (.ctxKill p) s = .next v) ∧
        (u.killWaits id = false → (∀ e ∈ v.launches, e.2.ctx ≠ id) → exec (.ctxKill p) s = reports (v.endCtx id) 0)) ∧
      (c.code = 7 →
        let who := s.groupNamed id (c.arg 1) (fun g => (g.held || g.dbgHeld) && !g.trapq.isEmpty)
        (who = none ∨ 2 < c.arg 2 → exec (.groupRelease p) s = reports s 2) ∧
        ∀ gid g, who = some (gid, g) →
          (c.arg 2 = 0 → exec (.groupRelease p) s = reports (s.updGrp gid (fun g => g.returnTrap .retry)) 0) ∧
          (c.arg 2 = 1 → exec (.groupRelease p) s = reports (s.updGrp gid (fun g => g.returnTrap .skip)) 0) ∧
          (∀ t ts, c.arg 2 = 2 → g.trapq = t :: ts →
            exec (.groupRelease p) s = reports ((s.updGrp gid (fun g => g.returnTrap .exit)).endLanes gid t.run) 0)) ∧
      (c.code = 8 →
        let who := s.groupNamed id (c.arg 1) (fun g => c.arg 2 < 4 && (mfind g.log (c.arg 2)).isSome)
        (who = none ∨ 1 < c.arg 3 → exec (.faultDone p) s = reports s 2) ∧
        ∀ gid g, who = some (gid, g) →
          (c.arg 3 = 0 → exec (.faultDone p) s = reports ((s.updGrp gid (fun g =>
            { g with log := mupd g.log (c.arg 2) (fun x => { x with lanes := x.lanes.map (fun l => (l.1, { l.2 with res := true })) }) })).refreshRecord gid) 0) ∧
          (c.arg 3 = 1 → g.reissue ≠ some (c.arg 2) →
            exec (.faultDone p) s = reports (s.unresolvable gid (c.arg 2) g (mget {} g.log (c.arg 2))) 0)) ∧
      (c.code = 0x0C → exec (.icacheInval p) s = reports { s with icache := s.icache.filter (fun e => !(e.ctx == id &&
        s.gangs.any (fun k => k.2.ctx == id && k.2.cluster == e.cluster) && rangesMeet e.va 64 (c.arg 1) (c.arg 2))) } 0)) ∧
    (c.code = 9 → (s.syscGroup id = none → exec (.syscDone p) s = reports s 8) ∧
      ∀ gid g, s.syscGroup id = some (gid, g) →
        exec (.syscDone p) s = reports ((s.syscRelease gid (c.arg 1) (c.arg 2)).refreshRecord gid) 0) ∧
    (c.code = 0x0A →
      let ctx := c.arg 1
      let slots := c.arg 3 % 2 ^ 16
      let old : LQ := mget {} s.lqs id
      let num := if old.ctx = ctx then old.num else firstFree (s.numsOf ctx id) 64 0
      let legal := (s.loaded? ctx).isSome = true ∧ num < 64 ∧ 16 ≤ slots ∧ slots ≤ 4096 ∧ 4096 % slots = 0
      let l : LQ := { ctx := ctx, num := num, ring := BitVec.ofNat 64 (c.arg 2), slots := slots, ceil := c.arg 3 / 2 ^ 16 % 8,
                      headVa := BitVec.ofNat 64 (c.arg 4), tailVa := BitVec.ofNat 64 (c.arg 5) }
      let put := fun (u : State) (l : LQ) => ({ (u.forget (takeTag id)) with lqs := mput u.lqs id l }).forget (cmdTag p)
      (1024 ≤ id → exec (.lqSet p) s = reports s 2) ∧
      (id < 1024 → old.cur ≠ none → exec (.lqSet p) s = .next s) ∧
      (id < 1024 → old.cur = none → ctx = 0 → exec (.lqSet p) s = reports { (s.forget (takeTag id)) with lqs := mdel s.lqs id } 0) ∧
      (id < 1024 → old.cur = none → ctx ≠ 0 → ¬ legal → exec (.lqSet p) s = reports s 2) ∧
      (id < 1024 → old.cur = none → ctx ≠ 0 → legal → ∀ r u, s.svcAccess (cmdTag p) none ctx l.headVa 8 none = (r, u) → exec (.lqSet p) s = match r with
        | .wait => .next u
        | .ok h _ => reports (put u { l with head := h }) 0
        | .fail o => reports ((put u l).stopQueue id l l.headVa.toNat o) 0)) ∧
    (c.code = 0x0B → (mfind s.lqs id = none → exec (.lqReset p) s = reports s 2) ∧ ∀ lq, mfind s.lqs id = some lq →
      (lq.stopped = false → exec (.lqReset p) s = reports s 2) ∧
      (lq.stopped = true → ∀ tail t1 v t2 s1 s2, s.svcAccess (cmdTag p) none lq.ctx lq.tailVa 8 none = (.ok tail t1, s1) →
        s1.svcAccess (cmdTag p) none lq.ctx lq.headVa 8 (some tail) = (.ok v t2, s2) →
        exec (.lqReset p) s =
          reports { (s2.forget (cmdTag p)) with lqs := mupd s2.lqs id (fun l => { l with head := tail, stopped := false }) } 0)) ∧
    (c.code = 0 ∨ c.code > 0x0C → exec (.unknownCommand p) s = reports s 2)) ∧
  (∀ (s : State) (p k : Nat) (c : Command) (rest : List Command), (s.port p).queue = c :: rest → rest.length < 16 →
    let t := s.cmdDone p k
    (t.port p).tag = c.tag ∧ (t.port p).code = k ∧ (t.port p).busy = false ∧ (t.port p).args = (s.port p).args ∧
    (∀ q, q ≠ p → t.port q = s.port q) ∧ t.mem = s.mem ∧ t.groups = s.groups ∧ t.ops = s.ops ∧
    ((s.port p).held = [] → (t.port p).queue = rest ∧ t.ctxs = s.ctxs) ∧
    (∀ h hs, (s.port p).held = h :: hs → (t.port p).held = hs ∧ (t.port p).queue = rest ++ [{ h with seq := s.nextId }]))

/-- R226, R349–R352, R376, R379, R380: a read or write of the hub window that is not an aligned word of 8 bytes in a range is counted, a write
discarded, and a read returns all ones; HUB_CTXTAB, HUB_HLTSZ, HUB_ERRCNT and DBG_CTL take their words; the directory window looks up, selects and latches entries;
a write of DBG_TRSEL selects a new group; TRMARK writes a record where its context is traced; a GAP record is written only where one
waits and a slot is free, and skips a page that fails.
Choices of the model that it takes part in: log 61, 68. -/
def Obligations.HubRegisters : Prop :=
  (∀ (s : State) (off n v : Nat),
    let counted := { s with hub := { s.hub with errcnt := if s.hub.errcnt = BitVec.allOnes 32 then s.hub.errcnt else s.hub.errcnt + 1 } }
    (n ≠ 8 ∨ off % 8 ≠ 0 → exec (.hubRegisterWrite off n v) s = .next counted) ∧
    (0x4C00000 ≤ off → exec (.hubRegisterWrite off n v) s = .next counted) ∧
    (let base := v % 2 ^ 64 / 2 ^ 12 % 2 ^ 40 * 2 ^ 12
     exec (.hubRegisterWrite 0x00 8 v) s = .next (if base < Config.hbmEnd then { s with hub := { s.hub with ctxtab := base } } else counted)) ∧
    exec (.hubRegisterWrite 0x18 8 v) s = .next { s with hub := { s.hub with hltsz := v % 2 ^ 64 % 2 ^ 36 } } ∧
    exec (.hubRegisterWrite 0x30 8 v) s = .next { s with hub := { s.hub with errcnt := BitVec.ofNat 32 (v % 2 ^ 64) } } ∧
    (∀ k, k < 192 → exec (.hubRegisterWrite (0x3010000 + 0x200 * k) 8 v) s =
      .next (s.updDbg k (fun d => { d with nq := v % 2 ^ 64 / 2 ^ 32 % 2 ^ 8, claim := v % 2 ^ 64 % 2 ^ 32 })))) ∧
  (∀ (s : State) (off n : Nat), s.readWindow off n =
    if n = 8 ∧ off % 8 = 0 then
      let u := if 0x1000000 ≤ off ∧ off < 0x1600000 ∧ off % 0x10000 = 0x8020 then
          (let k := (off - 0x1000000) / 0x10000
           s.updSlice k (fun x => { x with latch := some (match s.dirAt k (s.slice k).diridx with | some e => e.2.word e.1 | none => 0) }))
        else s
      match u.windowWord off with
      | some v => (v, u)
      | none => (2 ^ 64 - 1, u.refuseReg)
    else (2 ^ (8 * n) - 1, s.refuseReg)) ∧
  (∀ (s : State) (k v : Nat), k < 96 →
    exec (.slDiridxWrite k v) s = .next (s.updSlice k (fun x => { x with diridx := v % 32768, latch := none })) ∧
    (let pa := v / 2 ^ 10 % 2 ^ 42 * 2 ^ 10
     (s.regionSlice (pa / 1024) ≠ k ∨ mfind s.dir (pa / 1024) = none →
       exec (.slDirpaWrite k v) s = .next (s.updSlice k (fun x => { x with dirpa := pa, dirmiss := true, latch := none }))) ∧
     (∀ d, s.regionSlice (pa / 1024) = k → mfind s.dir (pa / 1024) = some d → exec (.slDirpaWrite k v) s =
       .next (s.updSlice k (fun x => { x with dirpa := pa, dirmiss := false, latch := none,
                                              diridx := (Config.dirIndex k (Fin.ofNat 32768 d.slot)).val })))) ∧
    (s.dirAt k (s.slice k).diridx = none → exec (.slDirent0Read k) s = .next (s.updSlice k (fun x => { x with latch := some 0 }))) ∧
    (∀ r d, s.dirAt k (s.slice k).diridx = some (r, d) → exec (.slDirent0Read k) s = .next (s.updSlice k (fun x => { x with latch := some (d.word r) })))) ∧
  (∀ (s : State) (core v : Nat),
    let u := s.updDbg core (fun d => { d with trsel := v / 2 ^ 59 % 2 ^ 4 * 2 ^ 59 + v / 2 ^ 16 % 2 ^ 42 * 2 ^ 16 + v % 64, sel := none })
    exec (.dbgTrselWrite core v) s = .next (u.updDbg core (fun d => { d with sel := u.selectGroup core })) ∧
    ((u.core core).dbg.traceOn = false → u.selectGroup core = none) ∧
    ∀ gid g, u.groups = [(gid, g)] → (u.core core).dbg.traceOn = true → g.core = core → (mget ({} : Ctx) u.ctxs g.ctx0).out = false →
      u.selMatch (u.core core).dbg g = true → u.selectGroup core = some gid) ∧
  (∀ (h : Hdr) (a : Opnd) (imm : BitVec 32) (s : State) (x : Issue), s.issueOf (.trmark h a imm) false = .go x →
    (x.act = 0 ∨ s.traced x.g = false → ∃ t g', exec (.trmark h a imm) s = .next t ∧ OnlyGroup s t x.gid g' ∧ Stepped x.g g' x.run ∧
      { g' with lanes := x.g.lanes } = x.g) ∧
    (x.act ≠ 0 → s.traced x.g = true → exec (.trmark h a imm) s =
      .next (x.done (s.trace x.g.core (traceWord (s.traceId x.g 3) x.pc.toNat imm.toNat (x.g.opnd a 1 x.lead) x.act.toNat 0)) id))) ∧
  (∀ (s : State) (core : Nat),
    ((s.core core).dbg.gap = none → exec (.traceGapWrite core) s = .next s) ∧
    (∀ g, (s.core core).dbg.gap = some g → (s.core core).dbg.slots = 0 ∨ g.pos - (s.core core).dbg.trhead ≥ (s.core core).dbg.slots →
      exec (.traceGapWrite core) s = .next s) ∧
    (∀ g, (s.core core).dbg.gap = some g → (s.core core).dbg.slots ≠ 0 → g.pos - (s.core core).dbg.trhead < (s.core core).dbg.slots →
      let d := (s.core core).dbg
      (s.slotKey d g.pos = none → exec (.traceGapWrite core) s = .next (s.updDbg core (fun d => { d with gap := some { g with
        pos := (g.pos / 64 + 1) * 64, pages := g.pages + 1, va := if g.pages = 0 then d.slotVa g.pos / 4096 * 4096 else g.va } }))) ∧
      (∀ key l, s.slotKey d g.pos = some (key, l) →
        let h : TraceId := { kind := 5, cluster := core / 4, core := core, ctx := d.traceCtx, regt := s.now - mget 0 s.lagCl (core / 4),
                             name := mget 0 s.dbgNames d.traceCtx, gang := 0, team := 0, grp := 0 }
        exec (.traceGapWrite core) s =
          .next ((s.putRecord core d g.pos key l (traceWord h g.dropped g.first g.pages g.regt g.va)).updDbg core (fun d => { d with gap := none })))))

/-! ### The system around the device (R3, R347, R358–R370) -/

/-- R3, R4, R347, R358, R360, R365–R370: bring-up runs its stages and stops in the lantern state at the first failure, keeping it for the report;
the move to full service ends once every context is saved; clocks obey their ceilings; resets clear the engines, and keep the flash; in
self-hosted mode a hot reset of the host fails the host's requests and nothing else, and the retrained link reports how many; a device is lost
10 ms after its last route; the host link's reset times out after 100 ms; a system core's fence waits for its accesses.
Choices of the model that it takes part in: log 16, 69, 70, 71, 72. -/
def Obligations.BringUpAndResets : Prop :=
  (∀ (s : State) (bist : List StageResult),
    (s.mgmt.stage ≠ 0 → exec (.powerGood bist) s = .next s) ∧
    (s.mgmt.stage = 0 →
      (∀ r, stageFail bist 1 = some r → ∃ t, exec (.powerGood bist) s = .next t ∧ t.hub.svc = 0 ∧ t.mgmt.lantern = some (1, r.unit, r.code % 2 ^ 16)) ∧
      (stageFail bist 1 = none → s.mgmt.signed = false ∨ s.mgmt.stored.seq < s.mgmt.maxSeq → ∃ t, exec (.powerGood bist) s = .next t ∧ t.hub.svc = 0 ∧
        t.mgmt.lantern ≠ none ∧ t.mgmt.cfg = s.mgmt.cfg) ∧
      ((∀ r ∈ bist, r.pass = true) → s.mgmt.signed = true → s.mgmt.maxSeq ≤ s.mgmt.stored.seq → ∃ t, exec (.powerGood bist) s = .next t ∧
        t.hub.svc = 1 ∧ t.mgmt.stage = 5 ∧ t.mgmt.cfg = s.mgmt.stored ∧ t.mgmt.maxSeq = s.mgmt.stored.seq ∧ t.devNo = s.mgmt.stored.devnum % 512 ∧
        t.hub.mode = s.mgmt.stored.mode % 2 ∧ t.mem = s.mem))) ∧
  (∀ (s : State), s.hub.svc = 1 → s.mgmt.stage ≥ 5 →
    ((∀ e ∈ s.ctxs, e.2.out = true ∨ ∀ g ∈ s.groups, g.2.ctx0 ≠ e.1) →
      ∃ t, exec .fullServiceMove s = .next t ∧ t.hub.svc = 2 ∧ t.mgmt.stage = 6 ∧ t.mgmt.moving = false ∧ (s.dir = [] → t.mem = s.mem)) ∧
    ((∃ e ∈ s.ctxs, e.2.out = false ∧ ∃ g ∈ s.groups, g.2.ctx0 = e.1) → ∃ t, exec .fullServiceMove s = .next t ∧ t.hub.svc = 1 ∧ t.mgmt.moving = true)) ∧
  (∀ (s : State) (i mhz : Nat),
    let set := Host.Outcome.next { s with mgmt := { s.mgmt with clocks := mput s.mgmt.clocks i mhz } }
    (i ≥ 1024 ∨ (i < 816 ∧ mhz > 1300) ∨ mhz > s.mgmt.cfg.clock → exec (.islandClockSet i mhz) s = .next s) ∧
    (i < 1024 → (i < 816 → mhz ≤ 1300) → mhz ≤ s.mgmt.cfg.clock → mhz ≠ 0 → exec (.islandClockSet i mhz) s = set) ∧
    (i < 768 → (∀ e ∈ s.groups, e.2.isSeq = false → s.resident e.2 = true → ¬ (e.2.core = i / 4 ∧ e.2.grp % 4 = i % 4)) →
      exec (.islandClockSet i 0) s = .next { s with mgmt := { s.mgmt with clocks := mput s.mgmt.clocks i 0 } })) ∧
  (∀ (s : State) (bus : Nat),
    (s.mgmt.lantern = none ∨ 2 ≤ bus → exec (.mctpFailureReport bus) s = .next s) ∧
    ∀ stage unit code, s.mgmt.lantern = some (stage, unit, code) → bus < 2 → exec (.mctpFailureReport bus) s =
      .next { s with mgmt := { s.mgmt with reports := s.mgmt.reports ++ [(stage, unit, code, s.mgmt.stored.seq)] } }) ∧
  (∀ (s : State), ∃ t, exec .deviceReset s = .next t ∧ t.flash = s.flash ∧ t.mgmt.stored = s.mgmt.stored ∧ t.mgmt.stage = 0 ∧ t.groups = [] ∧
    t.ctxs = [] ∧ t.ops = [] ∧ (∀ a, a < Config.hbmEnd → t.readByte a = byteZero) ∧ ∀ a, Config.hbmEnd ≤ a → t.readByte a = s.readByte a) ∧
  (∀ (s : State), ∃ t, exec .hostHotReset s = .next t ∧ t.host.up = false ∧ t.host.reset = true ∧
    (s.hub.mode ≠ 0 → t.host.downAt = s.now ∧ t.ops = s.ops.filter (fun e => e.2.job != .host) ∧
      t.host.failed = (s.ops.filter (fun e => e.2.job == .host)).length ∧ { t with host := s.host, ops := s.ops } = s) ∧
    (s.hub.mode = 0 → t.groups = [] ∧ t.ops = [] ∧ t.dir = [] ∧ t.cores = [] ∧ ∀ a, a < Config.hbmEnd → t.readByte a = byteZero)) ∧
  (∀ (s : State), s.host.up = false →
    (s.now < s.host.downAt + 100000000 → exec .hostLinkTimeout s = .next s) ∧
    (s.host.downAt + 100000000 ≤ s.now → exec .hostLinkTimeout s =
      .next (s.mapAccs (fun a => if a.waitsHost then { a with st := .failed 4 } else a)))) ∧
  (∀ (s : State) (w r : Nat), (s.host.up = true → exec (.linkRetrain w r) s = .next s) ∧
    (s.host.up = false →
      let u := s.linkTimeout
      let v := { u with host := { u.host with up := true, reset := false, width := w, rate := r, failed := 0 } }
      (∀ e ∈ u.ops, ∀ a ∈ e.2.accs, a.waitsHost = false) →
      (u.host.reset = false ∨ v.hub.mode ≠ 1 → exec (.linkRetrain w r) s = .next v) ∧
      (u.host.reset = true → v.hub.mode = 1 → exec (.linkRetrain w r) s =
        .next (v.post 0 { kind := 6, ctx := 0, body := [(8, u.host.downAt), (4, u.host.failed), (1, w), (1, r)] })))) ∧
  (∀ (s : State) (link : Nat) (gone : List Nat),
    (18 ≤ link ∨ link ∈ s.badLinks → exec (.fabricLinkFailure link gone) s = .next s) ∧
    (link < 18 → link ∉ s.badLinks → ∃ t, exec (.fabricLinkFailure link gone) s = .next t ∧ t.badLinks = s.badLinks ++ [link] ∧
      { t with badLinks := s.badLinks, noRoute := s.noRoute } = s ∧
      ∀ d, mfind t.noRoute d = match mfind s.noRoute d with | some x => some x | none => if d ∈ gone then some s.now else none)) ∧
  (∀ (s : State) (dev since : Nat), mfind s.noRoute dev = some since →
    (dev ∈ s.lost ∨ s.now < since + 10000000 → exec (.deviceLost dev) s = .next s) ∧
    (dev ∉ s.lost → since + 10000000 ≤ s.now →
      let u := s.mapAccs (fun a => if keyDev a.key = some dev ∧ a.final = false ∧ a.st ≠ .walk then { a with st := .failed 5 } else a)
      exec (.deviceLost dev) s = .next { u with lost := u.lost ++ [dev], timed := u.timed.filter (fun t => keyDev t.key != some dev),
                                                departs := u.departs ++ u.membersOn dev })) ∧
  (∀ (s : State) (c : Nat), c < 8 →
    let waits := ∃ e ∈ s.ops, e.2.job = .sys c ∨ (e.2.job = .link ∧ e.2.gid = 0 ∧ e.2.cluster = 48 ∧ e.2.core = c)
    let k : SysCore := mget {} s.sys c
    (waits ∨ s.now - s.lagHub < k.last + 2 → exec (.fenceRwRw c) s = .next s) ∧
    (¬ waits → k.last + 2 ≤ s.now - s.lagHub → exec (.fenceRwRw c) s = .next { s with sys := mput s.sys c { k with fences := k.fences + 1 } }))

/-- R348, R361, R363, R364, R366, R370: a leased NVMe command is checked against its lease and forwarded with its frames, or answered with
its status; its completion is posted, a read's once its data are in the buffer. A flash ring's next request is held by the I/O core of its
binding and its STATUS is written when it has been done, a flush's after every older write; a request that fails stops the ring or is
reported. Ethernet frames pass through bound rings. An attestation request is answered by its code, with its data once the algorithms are
agreed.
Choices of the model that it takes part in: log 5, 47, 72, 95. -/
def Obligations.StorageNetworkAttestation : Prop :=
  (∀ (s : State) (k : Nat) (c : NvmeCmd),
    (mfind s.leases k = none → exec (.nvmeSubmission k c) s = .next s) ∧
    ∀ l : Lease, mfind s.leases k = some l →
      (s.mgmt.cfg.flash = true ∨ l.revoked = true ∨ s.bound l.queue = false → exec (.nvmeSubmission k c) s = .next s) ∧
      (s.mgmt.cfg.flash = false → l.revoked = false → s.bound l.queue = true →
        let inRange := c.op = .flush ∨ (1 ≤ c.count ∧ l.lo ≤ c.lba ∧ c.lba + c.count - 1 ≤ l.hi)
        let need : Need := if c.op = .read then .w else .r
        let pages := if c.op = .read ∨ c.op = .write then pagesOf c.buf c.bytes else []
        (c.op ∉ l.ops → exec (.nvmeSubmission k c) s = .next (s.nvmePost k c.cid 0x01)) ∧
        (c.op ∈ l.ops → ¬ inRange → exec (.nvmeSubmission k c) s = .next (s.nvmePost k c.cid 0x80)) ∧
        (c.op ∈ l.ops → inRange → ∀ ks, s.frames l.ctx need pages = .ok ks →
          exec (.nvmeSubmission k c) s = .next { s with leases := mupd s.leases k (fun l => { l with drive := l.drive ++ [(c, ks)] }) }) ∧
        (c.op ∈ l.ops → inRange → ∀ o va, s.frames l.ctx need pages = .error (o, va) →
          exec (.nvmeSubmission k c) s =
            .next ((s.nvmePost k c.cid 0x04).notify { kind := 1, ctx := l.ctx, body := [(4, 0), (4, 0), (8, 0), (8, va)] })))) ∧
  (∀ (s : State) (k : Nat) (l : Lease) (c : NvmeCmd) (ks : List Nat) (rest : List (NvmeCmd × List Nat)), mfind s.leases k = some l →
    l.drive = (c, ks) :: rest →
    let post := fun (u : State) =>
      ({ (u.forget (nvmeTag k)) with leases := mupd u.leases k (fun l => { l with drive := rest, moving := none }) }).nvmePost k c.cid 0
    (c.op ≠ .read → exec (.nvmeCompletion k) s = .next (post s)) ∧
    (c.op = .read → ∀ (v : List Byte × Nat) (u : State) (n : Nat), l.moving = some n →
      let moved := s.dma (nvmeTag k) .store (lineData (frameLines ks (c.buf % 4096) c.bytes) (undefinedBytes n c.bytes))
      (moved = (some v, u) → exec (.nvmeCompletion k) s = .next (post u)) ∧ (moved = (none, u) → exec (.nvmeCompletion k) s = .next u)) ∧
    (c.op = .read → l.moving = none → exec (.nvmeCompletion k) s = exec (.nvmeCompletion k)
      { s with freeCtr := s.freeCtr + 1, leases := mupd s.leases k (fun l => { l with moving := some s.freeCtr }) })) ∧
  (∀ (s : State) (k : Nat) (r : FlashRing), mfind s.flashRings k = some r →
    (s.mgmt.cfg.flash = false ∨ r.stopped = true ∨ s.bound (1280 + k) = false → exec (.flashRequest k) s = .next s) ∧
    (s.mgmt.cfg.flash = true → r.stopped = false → s.bound (1280 + k) = true →
      let tag := flashTag k
      ∀ (v1 : SvcRes) (s1 : State), s.svcAccess tag none r.ctx (BitVec.ofNat 64 r.tailVa) 8 none = (v1, s1) →
        (v1 = .wait → exec (.flashRequest k) s = .next s1) ∧
        (∀ o, v1 = .fail o → exec (.flashRequest k) s = .next ((s1.forget tag).stopFlash k r.ctx r.tailVa o)) ∧
        ∀ tail t1, v1 = .ok tail t1 →
          let n := (tail + 2 ^ 64 - r.head % 2 ^ 64) % 2 ^ 64
          (n = 0 → exec (.flashRequest k) s = .next (s1.forget tag)) ∧
          (n > r.slots → exec (.flashRequest k) s = .next ((s1.forget tag).stopFlash k r.ctx 0 0)) ∧
          (n ≠ 0 → n ≤ r.slots → ∀ (v2 : SvcRes) (s2 : State), s1.svcAccess tag none r.ctx (BitVec.ofNat 64 (r.slotVa r.head)) 64 none = (v2, s2) →
            (v2 = .wait → exec (.flashRequest k) s = .next s2) ∧
            (∀ o, v2 = .fail o → exec (.flashRequest k) s = .next ((s2.forget tag).stopFlash k r.ctx (r.slotVa r.head) o)) ∧
            ∀ x t2, v2 = .ok x t2 → ∀ (v3 : SvcRes) (s3 : State),
              s2.svcAccess tag none r.ctx (BitVec.ofNat 64 r.headVa) 8 (some ((r.head + 1) % 2 ^ 64)) = (v3, s3) →
              (v3 = .wait → exec (.flashRequest k) s = .next s3) ∧
              (∀ o, v3 = .fail o → exec (.flashRequest k) s = .next ((s3.forget tag).stopFlash k r.ctx r.headVa o)) ∧
              ∀ v t3, v3 = .ok v t3 → let core := s3.ioCore (1280 + k)
                exec (.flashRequest k) s = .next { ((s3.forget tag).ioHold core r.head x) with
                  flashRings := mupd s3.flashRings k (fun r => { r with head := r.head + 1, taken := r.taken ++ [parseFlash r core r.head x] }) }))) ∧
  (∀ (r : FlashRing) (core slot x : Nat),
    let q := parseFlash r core slot x
    q.slot = slot ∧ q.core = core ∧ q.op = x % 2 ^ 32 ∧ q.count = x / 2 ^ 32 % 2 ^ 32 ∧ q.lba = x / 2 ^ 64 % 2 ^ 64 ∧ q.buf = x / 2 ^ 128 % 2 ^ 64 ∧
    (q.status = 0 ∨ q.status = 2) ∧
    (q.status = 0 ↔ flashOp q.op ∈ r.ops ∧ q.op ≤ 3 ∧ q.buf % 4096 = 0 ∧ x / 2 ^ 224 % 2 ^ 288 = 0 ∧
      (q.op = 3 ∨ (q.count ≤ 256 ∧ 1 ≤ q.count ∧ r.lo ≤ q.lba ∧ q.lba + q.count - 1 ≤ r.hi)))) ∧
  (∀ (s : State) (k slot : Nat) (r : FlashRing) (q : FlashReq), mfind s.flashRings k = some r →
    r.taken.find? (fun q => q.slot == slot) = some q →
    let tag := flashEndTag k slot
    let older := q.op = 3 ∧ ∃ o ∈ r.taken, o.op = 1 ∧ o.slot < slot
    (older → exec (.flashCompletion k slot) s = .next s) ∧
    (¬ older → ∀ (u : State) (st : Option Nat), (q.status ≠ 0 → u = s ∧ st = some q.status) → (q.status = 0 → s.flashDo tag r.ctx q = (st, u)) →
      (st = none → exec (.flashCompletion k slot) s = .next u) ∧
      ∀ n, st = some n → ∀ (v : SvcRes) (w : State),
        u.svcAccess tag none r.ctx (BitVec.ofNat 64 (r.slotVa slot + 0x18)) 4 (some (2 ^ 31 + n)) = (v, w) →
        let finish := fun (w : State) =>
          { (w.forget tag) with flashRings := mupd w.flashRings k (fun r => { r with taken := r.taken.filter (fun o => o.slot != slot) }) }
        (v = .wait → exec (.flashCompletion k slot) s = .next w) ∧
        (∀ x tc, v = .ok x tc → exec (.flashCompletion k slot) s = .next (finish w)) ∧
        (∀ o, v = .fail o → exec (.flashCompletion k slot) s =
          .next (finish (w.addErr r.ctx (.completion (BitVec.ofNat 64 (r.slotVa slot + 0x18)) o)))))) ∧
  (∀ (s : State) (tag : Nat × Nat) (ctx : Nat) (q : FlashReq),
    let pages := (List.range q.count).map (fun i => (q.buf + 4096 * i) % 2 ^ 64)
    (q.op = 2 → s.flashDo tag ctx q =
      (some 0, { s with flash := s.flash.filter (fun e => e.1 < 4096 * q.lba || 4096 * q.lba + 4096 * q.count ≤ e.1) })) ∧
    (q.op = 3 → s.flashDo tag ctx q = (some 0, s)) ∧
    (∀ ks bs u, q.op = 1 → s.frames ctx .r pages = .ok ks →
      s.dma tag .load ((frameLines ks 0 (4096 * q.count)).map (fun l => (l.1, l.2, 0))) = (some (bs, 0), u) →
      s.flashDo tag ctx q = (some 0, { u with flash := msets byteZero u.flash (4096 * q.lba) bs })) ∧
    (∀ ks v u, q.op = 0 → s.frames ctx .w pages = .ok ks →
      s.dma tag .store (lineData (frameLines ks 0 (4096 * q.count)) (mgets byteZero s.flash (4096 * q.lba) (4096 * q.count))) = (some (v, 0), u) →
      s.flashDo tag ctx q = (some 0, u)) ∧
    (∀ o va, (q.op = 0 ∧ s.frames ctx .w pages = .error (o, va) ∨ q.op = 1 ∧ s.frames ctx .r pages = .error (o, va)) →
      s.flashDo tag ctx q = (some (outcomeStatus o), s))) ∧
  (∀ (s : State) (port ring : Nat) (tx : Bool) (f : List (BitVec 8)),
    let n := 1536 + 32 * port + 2 * ring + (if tx then 1 else 0)
    (port < 4 → ring < 16 → s.bound n = true → exec (.ethernetFrame port ring tx f) s =
      .next { s with eth := mput s.eth n { frames := (mget {} s.eth n).frames ++ [f] } }) ∧
    (¬ (port < 4 ∧ ring < 16 ∧ s.bound n = true) → exec (.ethernetFrame port ring tx f) s = .next s)) ∧
  (∀ (s : State) (r : SpdmReq),
    let answer := fun (code : Nat) (ok : Bool) (data : List Byte) =>
      { s with mgmt := { s.mgmt with answers := s.mgmt.answers ++ [{ code := code, ok := ok, data := if ok then data else [] }] } }
    exec (.getVersion r) s = .next (answer 0x84 true [0x13]) ∧
    exec (.getCapabilities r) s = .next (answer 0xE1 true [0x84, 0xE1, 0xE3, 0x81, 0x82, 0x83, 0xE0]) ∧
    (∃ t, exec (.negotiateAlgorithms r) s = .next t ∧ t.mgmt.agreed = (s.mgmt.agreed || r.algOk) ∧ t.mgmt.answers = (answer 0xE3 r.algOk []).mgmt.answers) ∧
    exec (.getDigests r) s = .next (answer 0x81 s.mgmt.agreed (Config.digest Config.certChain)) ∧
    exec (.getCertificate r) s = .next (answer 0x82 (s.mgmt.agreed && r.slot == 0) ((Config.certChain.drop r.offset).take r.length)) ∧
    exec (.challenge r) s = .next (answer 0x83 (s.mgmt.agreed && r.slot == 0) (Config.signature r.nonce (Config.digest Config.certChain))) ∧
    exec (.getMeasurements r) s = .next (answer 0xE0 (s.mgmt.agreed && r.slot == 0 && decide (1 ≤ r.index ∧ r.index ≤ 5)) (mget [] s.mgmt.measures r.index)))
/-! ### Steps, encodings and invariants (R42, R55, R100–R112) -/

/-- R41, R42, R55, R100, R112: where a step issues for a group that may issue, no other ready group of its partition comes first, its lowest
run is at `pc`, no breakpoint matches, the block that holds `pc` is fetched, its last word is zero, the word at `pc` decodes to `i` and
nothing holds the issue back, the step is exec of `i` with the issue in progress, and then the end of the issue and what comes with a step;
where another group issues the same instruction in the same slot, its issue follows. A block that no instruction cache holds is fetched
from the 64 bytes of memory at its address's translation. An event of the agenda is exec of it.
Choices of the model that it takes part in: log 7, 16, 73, 75, 85, 87. -/
def Obligations.StepRunsDecoded : Prop :=
  (∀ (s s1 : State) (gid : Nat) (rest : List Action) (g : Group) (run : Word) (pc : DWord) (block : List Byte) (i : Instr),
    let s0 : State := { s with agenda := rest }
    let word := leNat ((block.drop (pc.toNat % 64)).take 12)
    let c : Cur := { gid := gid, run := run, pc := pc, word0 := BitVec.ofNat 32 word, reissue := none }
    let s2 : State := { s1 with cur := some c }
    let cands := match s2.grp? gid with | some g => g.candidates | none => 0
    let uni := match i.hdr with | some h => h.uni | none => false
    s.agenda = .issue gid :: rest → s0.grp? gid = some g → s0.turnOfOther gid g = false → s0.mayIssue g = true → g.nextRun = some (run, pc, none) →
    s0.bpMatch g pc = none → s0.fetchBlock g pc = (.ok block, s1) → leNat ((block.drop 60).take 4) = 0 → decode g.isSeq word = .ok i →
    s1.interlock gid g i run pc none = false → ∀ t : State, exec i s2 = .next t →
    (s2.partner c i = none → step s = .next (t.issued c cands (s2.actOf c i) uni false).afterStep) ∧
    (∀ gid2, s2.partner c i = some gid2 →
      let u := t.issued c cands (s2.actOf c i) uni true
      (∀ j v, u.attemptOf gid2 = .go j v → ∀ w, v.runIssue j true = .next w → step s = .next w.afterStep) ∧
      ((∀ j v, u.attemptOf gid2 ≠ .go j v) → step s = .next u.afterStep))) ∧
  (∀ (s : State) (g : Group) (pc : DWord) (key : Nat) (lk mg : Bool),
    let va := pc.toNat / 64 * 64
    Translates s g (BitVec.ofNat 64 va) .x key lk mg →
    (∀ e ∈ s.icache, ¬ (e.cluster = g.cluster ∧ e.ctx = g.ctx ∧ e.va = va)) →
    ∃ t, s.fetchBlock g pc = (.ok (mgets byteZero s.mem key 64), t) ∧ { t with icache := s.icache } = s) ∧
  (∀ (s : State) (e : Instr) (rest : List Action), e.hdr = none → s.agenda = .event e :: rest →
    ∀ t : State, exec e { s with agenda := rest } = .next t → step s = .next t.afterStep) ∧
  (∀ s : State, s.timed = [] → s.meets = [] → s.afterStep.now = s.now + (1 - s.hold) ∧ s.afterStep.mem = s.mem)
/-- Every event answers a next state, a lane instruction stops only where no group is issuing it (log 8), and every step answers a next
state: this is the model's reading of the spec, in which whatever cannot happen leaves the machine as it was.
Choices of the model that it takes part in: log 7, 8. -/
def Obligations.StepsAnswer : Prop :=
  (∀ (i : Instr) (s : State), i.hdr = none → ∃ t, exec i s = .next t) ∧
  (∀ (i : Instr) (s : State), i.hdr ≠ none → s.cur = none → exec i s = .fault .noIssuer) ∧
  (∀ (i : Instr) (s : State) (c : Cur) (g : Group), s.cur = some c → s.grp? c.gid = some g → ∃ t, exec i s = .next t) ∧
  (∀ s : State, ∃ t, step s = .next t)

/-- R100–R107: an instruction of lane or sequencer code that passes checks 3 and 4 of R112 decodes from its own word; a word that decodes
is the word of its instruction. -/
def Obligations.DecodeOfEncode : Prop :=
  (∀ (seq : Bool) (i : Instr), i.unitAllows seq = true → i.wf seq = true → decode seq (encode i) = .ok i ∧ encode i < 2 ^ 96) ∧
  (∀ (seq : Bool) (w : Nat) (i : Instr), w < 2 ^ 96 → decode seq w = .ok i → encode i = w ∧ i.wf seq = true ∧ i.unitAllows seq = true)

/-- R2, R107 and log 2: memory lists its bytes in rising order and lists none that reads as an unlisted byte does; every step keeps that.
-/
def Obligations.MemoryFormKept : Prop :=
  ∀ s t : State, Sound s → step s = .next t → Sound t

/-- R100–R110: words worked out in the spec from the fields of Tables 6-1 and 6-2 decode to the instructions they stand for, in every
family, and the variants of Table 6-8 are refused by name. -/
def Obligations.SampleWords : Prop :=
  let h : Hdr := ⟨.all, 0, false, false, 0⟩
  let u : Hdr := ⟨.all, 0, true, false, 0⟩
  decode false 0x00001E00 = .ok (.nop h) ∧
  decode false 0 = .ok (.nop ⟨.pred 0 false, 0, false, false, 0⟩) ∧
  decode false 0x0103FFC0003FFFE4000024C0 = .ok (.bra ⟨.pred 2 true, 0, false, false, 1⟩ 0xFFFFFFF9) ∧
  decode false 0x200048C0001159E000815E22 = .ok (.movi u (.s 5) 0x12345678) ∧
  decode false 0x0000000000000F8803025EE6 = .ok (.xget h (.v 9) (.v 3) (.c 2)) ∧
  decode false 0x00000000004001000003DEE0 = .ok (.grow h true 15 64) ∧
  decode false 0x000000004000000C02011E01 = .ok (.iadd h .s32 false false (.v 4) (.v 2) (.v 3)) ∧
  decode false 0x000000000800701805021E43 = .ok (.ffma h .f32 .rz false false (.v 8) (.v 5) (.v 6) (.v 7)) ∧
  decode false 0x00003A000000300801025E14 = .ok (.logt h .b32 false (.v 9) (.v 1) (.v 2) (.v 3) 0xE8) ∧
  decode false 0x00000024020000000200DE80 = .ok (.cvt h .e4m3 .f32 .rn true false false (.v 3) 0 (.v 2) 0) ∧
  decode false 0x00000000208000000200DEA6 = .ok (.gscan h .add .u32 false true (.v 3) (.v 2)) ∧
  decode false 0x000000008000002406019EA0 = .ok (.lxch h .abs .b64 false (.v 6) (.v 6) (.v 9)) ∧
  decode false 0x00000000000000000A001EC3 = .ok (.callx h (.v 10)) ∧
  decode false 0x0000DEC5 = .ok (.enrol h 3) ∧
  decode false 0x000000000000001628009ECC = .ok (.lnch h 2 (.s 40) 5) ∧
  decode false 0x00000000000000A800001ED0 = .ok (.trap h 0x2A) ∧
  decode false 0x000000200201000604001F01 = .ok (.st h true .b32 .device .rel .ca (.s 4) (.v 1) 16) ∧
  decode false 0x000000200300802802019F06 = .ok (.cas h true .b32 .device .ar (.v 6) (.v 2) (.v 10) 8) ∧
  decode false 0x00000FC00003F0FC3F005F09 = .ok (.wait h 1 63 63 63 63) ∧
  decode false 0x000000000400000000001F08 = .ok (.fence h .team) ∧
  decode false 0x200000202000483A04E01F04 = .ok (.atom u true .add .u32 .device .none .z (.s 4) (.s 14) 4) ∧
  decode false 0x000000240000001604000111 = .ok (.lblset ⟨.pred 0 false, 0, false, false, 0⟩ true true (.s 4) (.v 5) 0) ∧
  decode false 0x000000000000704208005F43 = .ok (.amsg h 1 (.s 8) (.v 16) 7) ∧
  decode false 0x0000000000000F7E0803DF63 = .ok (.bowait h 15 (.s 8) (.c (-1)) 0) ∧
  decode false 0x000000000020A86A04011F65 = .ok (.mcont h (.v 4) (.s 4) (.s 26) (.s 10)) ∧
  decode false 0x000000000000004014081F81 = .ok (.twr h 32 (.v 20) (.v 16)) ∧
  decode false 0x000001C00000000000009FB2 = .ok (.sysc h 2 7) ∧
  decode true 0x0000000000800004210C1F92 = .ok (.mmaf8a h .core1 48 33 1) ∧
  decode true 0x0000000002000000200C1F9B = .ok (.lutmm h 1 .all 48 32 0) ∧
  decode true 0x000000006000000030089F9D = .ok (.ccvt h false .bf16 .all 34 48 .f32) ∧
  decode true 0x0000000000000003E1001FA1 = .ok (.sqsig h 0 (.c 1)) ∧
  decode false 0x000048C0001159E000815E22 = .error .illFormed ∧
  decode false 0x200448C0001159E000815E22 = .error .reservedBits ∧
  decode false 0x200048C0001159E000F01E22 = .error .illFormed ∧
  decode false 0x0103FFC0003FFFE400003EC0 = .error .illFormed ∧
  decode false 0x0103FFC0003FFFE4000024CD = .error .reservedOpcode ∧
  decode false 0x0000000000800004210C1F92 = .error .wrongUnit

/-- R3, R64, R231, R350–R353, R373: after reset the Regulator and the clock read 0 with no copy behind, the device is in the lantern
state, and the registers of the slices, of the hub, of its ports and rings, and of the debug units hold their reset values; nothing runs.
Memory lists no byte, and every byte reads 0x00 (the model's choice, log 2).
Choices of the model that it takes part in: log 1, 3. -/
def Obligations.ResetState : Prop :=
  let s := State.reset
  Sound s ∧ s.now = 0 ∧ s.lagCl = [] ∧ s.lagSl = [] ∧ s.lagHub = 0 ∧ s.hold = 0 ∧ s.clk = 0 ∧ s.hub.svc = 0 ∧ s.groups = [] ∧ s.launches = [] ∧ s.gangs = [] ∧ s.ops = [] ∧ s.ctxs = [] ∧
  s.dir = [] ∧ s.copies = [] ∧ s.deleg = [] ∧ s.deltas = [] ∧ s.timed = [] ∧ s.meets = [] ∧ s.tlb = [] ∧ s.icache = [] ∧ (∀ a, s.readByte a = 0x00) ∧
  s.hub.ctxtab = 0 ∧ s.hub.dirtyBase = 0 ∧ s.hub.dirtyEn = false ∧ s.hub.hlt = 0 ∧ s.hub.hltsz = 0 ∧ s.hub.errcnt = 0 ∧
  (∀ p i, mget 0 (s.port p).args i = 0 ∧ (s.port p).queue = [] ∧ (s.port p).held = []) ∧
  (∀ r, (mget {} s.hub.rings r).base = 0 ∧ (mget {} s.hub.rings r).en = false ∧ (mget {} s.hub.rings r).head = 0 ∧ (mget {} s.hub.rings r).tail = 0) ∧
  (∀ k, (s.slice k).lease = 2048 ∧ (s.slice k).win = 16 ∧ (s.slice k).amiss = 0 ∧ (s.slice k).lbrk = 0 ∧ (s.slice k).migth = 256 ∧
    (s.slice k).ovfbase = 0 ∧ (s.slice k).ovfsize = 0 ∧ (s.slice k).ovfhold = 0 ∧ (s.slice k).diridx = 0 ∧ (s.slice k).dirpa = 0 ∧
    (s.slice k).dirmiss = false ∧ ∀ q, mget {} (s.slice k).qd q = ({} : QDesc)) ∧
  (∀ k, (s.core k).l1 = [] ∧ (s.core k).queue = []) ∧
  (∀ k, let d := (s.core k).dbg
    d.nq = 0 ∧ d.claim = 0 ∧ (∀ n, n < 4 → d.bp.getD n 0 = 0 ∧ d.wplo.getD n 0 = 0 ∧ d.wphi.getD n 0 = 0) ∧ d.bpctl = 0 ∧ d.wpctl = 0 ∧ d.trctl = 0 ∧
    d.trsel = 0 ∧ d.trbase = 0 ∧ d.trhead = 0 ∧ d.trtail = 0 ∧ d.trdrop = 0) ∧
  (∀ i, mget 0 s.dbgNames i = 0)

end Slice0
end

