-- ==== Sys2Proof/Laws/Sparse.lean ====
section
/-! SUPPORT. Laws/Sparse.lean: what reads of a sparse map give after a write, that writes keep the canonical form, and that
little-endian bytes give back the number they were cut from. -/

namespace Sys2Proof.Machine

variable {α : Type}

/-! ### Reads after writes -/

@[simp] theorem mfind_nil (k : Nat) : mfind ([] : Map α) k = none := rfl
@[simp] theorem mget_nil (d : α) (k : Nat) : mget d ([] : Map α) k = d := rfl

theorem mfind_mput (m : Map α) (k j : Nat) (x : α) : mfind (mput m k x) j = if k = j then some x else mfind m j := by
  induction m with
  | nil => simp [mput, mfind]
  | cons e t ih =>
    obtain ⟨i, y⟩ := e
    simp only [mput]
    split
    · simp [mfind]
    · split
      · subst_vars; simp only [mfind]; split <;> rfl
      · simp only [mfind, ih]; split <;> split <;> simp_all

@[simp] theorem mfind_mput_same (m : Map α) (k : Nat) (x : α) : mfind (mput m k x) k = some x := by simp [mfind_mput]
theorem mfind_mput_other (m : Map α) {k j : Nat} (x : α) (h : k ≠ j) : mfind (mput m k x) j = mfind m j := by simp [mfind_mput, h]

theorem mfind_mdel (m : Map α) (k j : Nat) : mfind (mdel m k) j = if k = j then none else mfind m j := by
  induction m with
  | nil => simp [mdel]
  | cons e t ih =>
    obtain ⟨i, y⟩ := e
    simp only [mdel]
    split
    · subst_vars; rw [ih]; simp only [mfind]; split <;> rfl
    · simp only [mfind, ih]; split <;> split <;> simp_all

theorem mfind_mupd (m : Map α) (k j : Nat) (f : α → α) : mfind (mupd m k f) j = if k = j then (mfind m j).map f else mfind m j := by
  induction m with
  | nil => simp [mupd]
  | cons e t ih =>
    obtain ⟨i, y⟩ := e
    simp only [mupd]
    split
    · subst_vars; simp only [mfind]; split <;> simp_all
    · simp only [mfind, ih]; split <;> split <;> simp_all

theorem mget_mset [DecidableEq α] (d : α) (m : Map α) (k j : Nat) (x : α) :
    mget d (mset d m k x) j = if k = j then x else mget d m j := by
  unfold mget mset
  split
  · rw [mfind_mdel]; split <;> simp_all
  · rw [mfind_mput]; split <;> simp

@[simp] theorem mget_mset_same [DecidableEq α] (d : α) (m : Map α) (k : Nat) (x : α) : mget d (mset d m k x) k = x := by
  simp [mget_mset]

theorem mget_mput (d : α) (m : Map α) (k j : Nat) (x : α) : mget d (mput m k x) j = if k = j then x else mget d m j := by
  unfold mget; rw [mfind_mput]; split <;> simp

theorem mget_msets [DecidableEq α] (d : α) (xs : List α) (m : Map α) (k j : Nat) :
    mget d (msets d m k xs) j = if k ≤ j ∧ j < k + xs.length then xs.getD (j - k) d else mget d m j := by
  induction xs generalizing m k with
  | nil => simp [msets]
  | cons x xs ih =>
    simp only [msets, ih, mget_mset, List.length_cons]
    by_cases h : k = j
    · subst h; simp
    · by_cases h2 : k + 1 ≤ j ∧ j < k + 1 + xs.length
      · have h3 : k ≤ j ∧ j < k + (xs.length + 1) := by omega
        rw [if_pos h2, if_pos h3, show j - k = (j - (k + 1)) + 1 by omega]
        simp
      · have h3 : ¬ (k ≤ j ∧ j < k + (xs.length + 1)) := by omega
        rw [if_neg h2, if_neg h3, if_neg h]

/-- A write elsewhere leaves a range as it was. -/
theorem mgets_msets_apart [DecidableEq α] (d : α) (xs : List α) (m : Map α) (k j n : Nat) (h : j + n ≤ k ∨ k + xs.length ≤ j) :
    mgets d (msets d m k xs) j n = mgets d m j n := by
  induction n generalizing j with
  | zero => rfl
  | succ n ih =>
    simp only [mgets]
    rw [ih (j + 1) (by omega), mget_msets, if_neg (by omega)]

/-- Reading what was written gives it back. -/
theorem mgets_msets [DecidableEq α] (d : α) (xs : List α) (m : Map α) (k : Nat) : mgets d (msets d m k xs) k xs.length = xs := by
  induction xs generalizing m k with
  | nil => rfl
  | cons x xs ih =>
    simp only [List.length_cons, mgets, msets]
    rw [ih, mget_msets, if_neg (by omega), mget_mset_same]

/-! ### The canonical form -/

theorem mrising_mono {lo lo' : Nat} (m : Map α) (h : lo' ≤ lo) (hm : mrising lo m = true) : mrising lo' m = true := by
  cases m with
  | nil => rfl
  | cons e t => obtain ⟨j, y⟩ := e; simp only [mrising, Bool.and_eq_true, decide_eq_true_eq] at *; exact ⟨by omega, hm.2⟩

theorem mrising_iff (lo : Nat) (m : Map α) :
    mrising lo m = true ↔ (∀ e ∈ m, lo < e.1) ∧ m.Pairwise (fun a b => a.1 < b.1) := by
  induction m generalizing lo with
  | nil => simp [mrising]
  | cons e t ih =>
    obtain ⟨j, y⟩ := e
    simp only [mrising, Bool.and_eq_true, decide_eq_true_eq, ih, List.mem_cons, List.pairwise_cons, forall_eq_or_imp]
    constructor
    · rintro ⟨h, h1, h2⟩; exact ⟨⟨h, fun e he => lt_trans h (h1 e he)⟩, h1, h2⟩
    · rintro ⟨⟨h, _⟩, h1, h2⟩; exact ⟨h, h1, h2⟩

/-- The canonical form: keys strictly rising, no entry equal to the default. -/
theorem mwf_iff [DecidableEq α] (d : α) (m : Map α) :
    mwf d m = true ↔ m.Pairwise (fun a b => a.1 < b.1) ∧ ∀ e ∈ m, e.2 ≠ d := by
  cases m with
  | nil => simp [mwf]
  | cons e t =>
    obtain ⟨j, y⟩ := e
    simp only [mwf, Bool.and_eq_true, mrising_iff, List.pairwise_cons, List.all_eq_true, decide_eq_true_eq]

theorem pairwise_mput {m : Map α} (k : Nat) (x : α) (h : m.Pairwise (fun a b => a.1 < b.1)) :
    (mput m k x).Pairwise (fun a b => a.1 < b.1) ∧ ∀ e ∈ mput m k x, e = (k, x) ∨ e ∈ m := by
  induction m with
  | nil => simp [mput]
  | cons e t ih =>
    obtain ⟨j, y⟩ := e
    obtain ⟨h1, h2⟩ := List.pairwise_cons.1 h
    simp only [mput]
    split
    · rename_i hk
      refine ⟨List.pairwise_cons.2 ⟨?_, h⟩, by simp⟩
      intro b hb
      rcases List.mem_cons.1 hb with rfl | hb
      · exact hk
      · exact lt_trans hk (h1 b hb)
    · split
      · subst_vars
        refine ⟨List.pairwise_cons.2 ⟨h1, h2⟩, ?_⟩
        intro b hb
        rcases List.mem_cons.1 hb with rfl | hb
        · exact .inl rfl
        · exact .inr (List.mem_cons_of_mem _ hb)
      · obtain ⟨i1, i2⟩ := ih h2
        refine ⟨List.pairwise_cons.2 ⟨?_, i1⟩, ?_⟩
        · intro b hb
          rcases i2 b hb with rfl | hb
          · simp only; omega
          · exact h1 b hb
        · intro b hb
          rcases List.mem_cons.1 hb with rfl | hb
          · exact .inr List.mem_cons_self
          · rcases i2 b hb with rfl | hb
            · exact .inl rfl
            · exact .inr (List.mem_cons_of_mem _ hb)

theorem mdel_eq_filter (m : Map α) (k : Nat) : mdel m k = m.filter (fun e => decide (e.1 ≠ k)) := by
  induction m with
  | nil => rfl
  | cons e t ih =>
    obtain ⟨j, y⟩ := e
    simp only [mdel, List.filter_cons]
    split <;> simp_all

theorem mwf_filter [DecidableEq α] (d : α) (m : Map α) (p : Nat × α → Bool) (h : mwf d m = true) : mwf d (m.filter p) = true := by
  rw [mwf_iff] at *
  exact ⟨h.1.filter _, fun e he => h.2 e (List.mem_filter.1 he).1⟩

theorem mwf_mset [DecidableEq α] (d : α) (m : Map α) (k : Nat) (x : α) (h : mwf d m = true) : mwf d (mset d m k x) = true := by
  unfold mset
  split
  · rw [mdel_eq_filter]; exact mwf_filter d m _ h
  · rw [mwf_iff] at *
    refine ⟨(pairwise_mput k x h.1).1, fun e he => ?_⟩
    rcases (pairwise_mput k x h.1).2 e he with rfl | he
    · assumption
    · exact h.2 e he

theorem mwf_msets [DecidableEq α] (d : α) (xs : List α) (m : Map α) (k : Nat) (h : mwf d m = true) : mwf d (msets d m k xs) = true := by
  induction xs generalizing m k with
  | nil => exact h
  | cons x xs ih => exact ih _ _ (mwf_mset d m k x h)

/-- Equal reads of canonical maps are equal maps. -/
theorem mwf_ext [DecidableEq α] (d : α) {m n : Map α} (hm : mwf d m = true) (hn : mwf d n = true)
    (h : ∀ k, mget d m k = mget d n k) : m = n := by
  rw [mwf_iff] at hm hn
  obtain ⟨hm1, hm2⟩ := hm
  obtain ⟨hn1, hn2⟩ := hn
  have find_lt : ∀ (l : Map α) (i : Nat), (∀ e ∈ l, i < e.1) → mfind l i = none := by
    intro l i hl
    induction l with
    | nil => rfl
    | cons e t ih =>
      obtain ⟨j, y⟩ := e
      have := hl (j, y) List.mem_cons_self
      simp only [mfind]
      rw [if_neg (by simp only at this; omega)]
      exact ih (fun e he => hl e (List.mem_cons_of_mem _ he))
  induction m generalizing n with
  | nil =>
    cases n with
    | nil => rfl
    | cons e t =>
      obtain ⟨j, y⟩ := e
      have := h j
      simp [mget, mfind] at this
      exact absurd this.symm (hn2 (j, y) List.mem_cons_self)
  | cons e t ih =>
    obtain ⟨j, y⟩ := e
    obtain ⟨a1, a2⟩ := List.pairwise_cons.1 hm1
    cases n with
    | nil =>
      have := h j
      simp [mget, mfind] at this
      exact absurd this (hm2 (j, y) List.mem_cons_self)
    | cons f u =>
      obtain ⟨i, z⟩ := f
      obtain ⟨b1, b2⟩ := List.pairwise_cons.1 hn1
      have hy := hm2 (j, y) List.mem_cons_self
      have hz := hn2 (i, z) List.mem_cons_self
      have hji : j = i := by
        rcases Nat.lt_trichotomy j i with hlt | heq | hgt
        · have h0 := h j
          have : mfind ((i, z) :: u) j = none := find_lt _ _ (by
            intro e he; rcases List.mem_cons.1 he with rfl | he
            · exact hlt
            · exact lt_trans hlt (b1 e he))
          simp [mget, this] at h0; simp [mfind] at h0; exact absurd h0 hy
        · exact heq
        · have h0 := h i
          have : mfind ((j, y) :: t) i = none := find_lt _ _ (by
            intro e he; rcases List.mem_cons.1 he with rfl | he
            · exact hgt
            · exact lt_trans hgt (a1 e he))
          simp [mget, this] at h0; simp [mfind] at h0; exact absurd h0.symm hz
      subst hji
      have hyz : y = z := by have h0 := h j; simpa [mget, mfind] using h0
      subst hyz
      congr 1
      refine ih ?_ a2 (fun e he => hm2 e (List.mem_cons_of_mem _ he)) b2 (fun e he => hn2 e (List.mem_cons_of_mem _ he))
      intro k
      by_cases hk : j = k
      · subst hk; simp [mget, find_lt t j a1, find_lt u j b1]
      · have h0 := h k; simpa [mget, mfind, hk] using h0

/-! ### Little-endian numbers -/

@[simp] theorem leBytes_length (n x : Nat) : (leBytes n x).length = n := by
  induction n generalizing x with
  | zero => rfl
  | succ n ih => simp [leBytes, ih]

theorem leNat_leBytes (n x : Nat) : leNat (leBytes n x) = x % 256 ^ n := by
  induction n generalizing x with
  | zero => simp [leBytes, leNat, Nat.mod_one]
  | succ n ih =>
    simp only [leBytes, leNat, ih, BitVec.toNat_ofNat]
    rw [show (2 : Nat) ^ 8 = 256 by norm_num, pow_succ, Nat.mul_comm (256 ^ n) 256, Nat.mod_mul]

@[simp] theorem mgets_length (d : α) (m : Map α) (k n : Nat) : (mgets d m k n).length = n := by
  induction n generalizing k with
  | zero => rfl
  | succ n ih => simp [mgets, ih]

end Sys2Proof.Machine
end

