-- ==== Sys2Proof/Laws/State.lean ====
section
/-! SUPPORT. Laws/State.lean: each named update of the state, and of a group, leaves every field but its own as it was. -/

namespace Sys2Proof.Machine

@[simp] theorem State.updGrp_now (s : State) (k : Nat) (f : Group → Group) : (s.updGrp k f).now = s.now := rfl
@[simp] theorem State.updGrp_lagCl (s : State) (k : Nat) (f : Group → Group) : (s.updGrp k f).lagCl = s.lagCl := rfl
@[simp] theorem State.updGrp_lagSl (s : State) (k : Nat) (f : Group → Group) : (s.updGrp k f).lagSl = s.lagSl := rfl
@[simp] theorem State.updGrp_lagHub (s : State) (k : Nat) (f : Group → Group) : (s.updGrp k f).lagHub = s.lagHub := rfl
@[simp] theorem State.updGrp_hold (s : State) (k : Nat) (f : Group → Group) : (s.updGrp k f).hold = s.hold := rfl
@[simp] theorem State.updGrp_clk (s : State) (k : Nat) (f : Group → Group) : (s.updGrp k f).clk = s.clk := rfl
@[simp] theorem State.updGrp_mem (s : State) (k : Nat) (f : Group → Group) : (s.updGrp k f).mem = s.mem := rfl
@[simp] theorem State.updGrp_devNo (s : State) (k : Nat) (f : Group → Group) : (s.updGrp k f).devNo = s.devNo := rfl
@[simp] theorem State.updGrp_lost (s : State) (k : Nat) (f : Group → Group) : (s.updGrp k f).lost = s.lost := rfl
@[simp] theorem State.updGrp_badBytes (s : State) (k : Nat) (f : Group → Group) : (s.updGrp k f).badBytes = s.badBytes := rfl
@[simp] theorem State.updGrp_tlb (s : State) (k : Nat) (f : Group → Group) : (s.updGrp k f).tlb = s.tlb := rfl
@[simp] theorem State.updGrp_icache (s : State) (k : Nat) (f : Group → Group) : (s.updGrp k f).icache = s.icache := rfl
@[simp] theorem State.updGrp_dir (s : State) (k : Nat) (f : Group → Group) : (s.updGrp k f).dir = s.dir := rfl
@[simp] theorem State.updGrp_copies (s : State) (k : Nat) (f : Group → Group) : (s.updGrp k f).copies = s.copies := rfl
@[simp] theorem State.updGrp_deleg (s : State) (k : Nat) (f : Group → Group) : (s.updGrp k f).deleg = s.deleg := rfl
@[simp] theorem State.updGrp_deltas (s : State) (k : Nat) (f : Group → Group) : (s.updGrp k f).deltas = s.deltas := rfl
@[simp] theorem State.updGrp_timed (s : State) (k : Nat) (f : Group → Group) : (s.updGrp k f).timed = s.timed := rfl
@[simp] theorem State.updGrp_past (s : State) (k : Nat) (f : Group → Group) : (s.updGrp k f).past = s.past := rfl
@[simp] theorem State.updGrp_watch (s : State) (k : Nat) (f : Group → Group) : (s.updGrp k f).watch = s.watch := rfl
@[simp] theorem State.updGrp_slices (s : State) (k : Nat) (f : Group → Group) : (s.updGrp k f).slices = s.slices := rfl
@[simp] theorem State.updGrp_cores (s : State) (k : Nat) (f : Group → Group) : (s.updGrp k f).cores = s.cores := rfl
@[simp] theorem State.updGrp_dbgNames (s : State) (k : Nat) (f : Group → Group) : (s.updGrp k f).dbgNames = s.dbgNames := rfl
@[simp] theorem State.updGrp_hub (s : State) (k : Nat) (f : Group → Group) : (s.updGrp k f).hub = s.hub := rfl
@[simp] theorem State.updGrp_host (s : State) (k : Nat) (f : Group → Group) : (s.updGrp k f).host = s.host := rfl
@[simp] theorem State.updGrp_badLinks (s : State) (k : Nat) (f : Group → Group) : (s.updGrp k f).badLinks = s.badLinks := rfl
@[simp] theorem State.updGrp_noRoute (s : State) (k : Nat) (f : Group → Group) : (s.updGrp k f).noRoute = s.noRoute := rfl
@[simp] theorem State.updGrp_sys (s : State) (k : Nat) (f : Group → Group) : (s.updGrp k f).sys = s.sys := rfl
@[simp] theorem State.updGrp_ioMem (s : State) (k : Nat) (f : Group → Group) : (s.updGrp k f).ioMem = s.ioMem := rfl
@[simp] theorem State.updGrp_leases (s : State) (k : Nat) (f : Group → Group) : (s.updGrp k f).leases = s.leases := rfl
@[simp] theorem State.updGrp_flashRings (s : State) (k : Nat) (f : Group → Group) : (s.updGrp k f).flashRings = s.flashRings := rfl
@[simp] theorem State.updGrp_flash (s : State) (k : Nat) (f : Group → Group) : (s.updGrp k f).flash = s.flash := rfl
@[simp] theorem State.updGrp_eth (s : State) (k : Nat) (f : Group → Group) : (s.updGrp k f).eth = s.eth := rfl
@[simp] theorem State.updGrp_mgmt (s : State) (k : Nat) (f : Group → Group) : (s.updGrp k f).mgmt = s.mgmt := rfl
@[simp] theorem State.updGrp_meets (s : State) (k : Nat) (f : Group → Group) : (s.updGrp k f).meets = s.meets := rfl
@[simp] theorem State.updGrp_departs (s : State) (k : Nat) (f : Group → Group) : (s.updGrp k f).departs = s.departs := rfl
@[simp] theorem State.updGrp_ops (s : State) (k : Nat) (f : Group → Group) : (s.updGrp k f).ops = s.ops := rfl
@[simp] theorem State.updGrp_ctxs (s : State) (k : Nat) (f : Group → Group) : (s.updGrp k f).ctxs = s.ctxs := rfl
@[simp] theorem State.updGrp_lqs (s : State) (k : Nat) (f : Group → Group) : (s.updGrp k f).lqs = s.lqs := rfl
@[simp] theorem State.updGrp_lastLq (s : State) (k : Nat) (f : Group → Group) : (s.updGrp k f).lastLq = s.lastLq := rfl
@[simp] theorem State.updGrp_launches (s : State) (k : Nat) (f : Group → Group) : (s.updGrp k f).launches = s.launches := rfl
@[simp] theorem State.updGrp_gangs (s : State) (k : Nat) (f : Group → Group) : (s.updGrp k f).gangs = s.gangs := rfl
@[simp] theorem State.updGrp_savedTiles (s : State) (k : Nat) (f : Group → Group) : (s.updGrp k f).savedTiles = s.savedTiles := rfl
@[simp] theorem State.updGrp_agenda (s : State) (k : Nat) (f : Group → Group) : (s.updGrp k f).agenda = s.agenda := rfl
@[simp] theorem State.updGrp_cur (s : State) (k : Nat) (f : Group → Group) : (s.updGrp k f).cur = s.cur := rfl
@[simp] theorem State.updGrp_nextId (s : State) (k : Nat) (f : Group → Group) : (s.updGrp k f).nextId = s.nextId := rfl
@[simp] theorem State.updGrp_freeCtr (s : State) (k : Nat) (f : Group → Group) : (s.updGrp k f).freeCtr = s.freeCtr := rfl
@[simp] theorem State.writeMem_now (s : State) (a n x : Nat) : (s.writeMem a n x).now = s.now := rfl
@[simp] theorem State.writeMem_lagCl (s : State) (a n x : Nat) : (s.writeMem a n x).lagCl = s.lagCl := rfl
@[simp] theorem State.writeMem_lagSl (s : State) (a n x : Nat) : (s.writeMem a n x).lagSl = s.lagSl := rfl
@[simp] theorem State.writeMem_lagHub (s : State) (a n x : Nat) : (s.writeMem a n x).lagHub = s.lagHub := rfl
@[simp] theorem State.writeMem_hold (s : State) (a n x : Nat) : (s.writeMem a n x).hold = s.hold := rfl
@[simp] theorem State.writeMem_clk (s : State) (a n x : Nat) : (s.writeMem a n x).clk = s.clk := rfl
@[simp] theorem State.writeMem_devNo (s : State) (a n x : Nat) : (s.writeMem a n x).devNo = s.devNo := rfl
@[simp] theorem State.writeMem_lost (s : State) (a n x : Nat) : (s.writeMem a n x).lost = s.lost := rfl
@[simp] theorem State.writeMem_badBytes (s : State) (a n x : Nat) : (s.writeMem a n x).badBytes = s.badBytes := rfl
@[simp] theorem State.writeMem_tlb (s : State) (a n x : Nat) : (s.writeMem a n x).tlb = s.tlb := rfl
@[simp] theorem State.writeMem_icache (s : State) (a n x : Nat) : (s.writeMem a n x).icache = s.icache := rfl
@[simp] theorem State.writeMem_dir (s : State) (a n x : Nat) : (s.writeMem a n x).dir = s.dir := rfl
@[simp] theorem State.writeMem_copies (s : State) (a n x : Nat) : (s.writeMem a n x).copies = s.copies := rfl
@[simp] theorem State.writeMem_deleg (s : State) (a n x : Nat) : (s.writeMem a n x).deleg = s.deleg := rfl
@[simp] theorem State.writeMem_deltas (s : State) (a n x : Nat) : (s.writeMem a n x).deltas = s.deltas := rfl
@[simp] theorem State.writeMem_timed (s : State) (a n x : Nat) : (s.writeMem a n x).timed = s.timed := rfl
@[simp] theorem State.writeMem_past (s : State) (a n x : Nat) : (s.writeMem a n x).past = s.past := rfl
@[simp] theorem State.writeMem_watch (s : State) (a n x : Nat) : (s.writeMem a n x).watch = s.watch := rfl
@[simp] theorem State.writeMem_slices (s : State) (a n x : Nat) : (s.writeMem a n x).slices = s.slices := rfl
@[simp] theorem State.writeMem_cores (s : State) (a n x : Nat) : (s.writeMem a n x).cores = s.cores := rfl
@[simp] theorem State.writeMem_dbgNames (s : State) (a n x : Nat) : (s.writeMem a n x).dbgNames = s.dbgNames := rfl
@[simp] theorem State.writeMem_hub (s : State) (a n x : Nat) : (s.writeMem a n x).hub = s.hub := rfl
@[simp] theorem State.writeMem_host (s : State) (a n x : Nat) : (s.writeMem a n x).host = s.host := rfl
@[simp] theorem State.writeMem_badLinks (s : State) (a n x : Nat) : (s.writeMem a n x).badLinks = s.badLinks := rfl
@[simp] theorem State.writeMem_noRoute (s : State) (a n x : Nat) : (s.writeMem a n x).noRoute = s.noRoute := rfl
@[simp] theorem State.writeMem_sys (s : State) (a n x : Nat) : (s.writeMem a n x).sys = s.sys := rfl
@[simp] theorem State.writeMem_ioMem (s : State) (a n x : Nat) : (s.writeMem a n x).ioMem = s.ioMem := rfl
@[simp] theorem State.writeMem_leases (s : State) (a n x : Nat) : (s.writeMem a n x).leases = s.leases := rfl
@[simp] theorem State.writeMem_flashRings (s : State) (a n x : Nat) : (s.writeMem a n x).flashRings = s.flashRings := rfl
@[simp] theorem State.writeMem_flash (s : State) (a n x : Nat) : (s.writeMem a n x).flash = s.flash := rfl
@[simp] theorem State.writeMem_eth (s : State) (a n x : Nat) : (s.writeMem a n x).eth = s.eth := rfl
@[simp] theorem State.writeMem_mgmt (s : State) (a n x : Nat) : (s.writeMem a n x).mgmt = s.mgmt := rfl
@[simp] theorem State.writeMem_meets (s : State) (a n x : Nat) : (s.writeMem a n x).meets = s.meets := rfl
@[simp] theorem State.writeMem_departs (s : State) (a n x : Nat) : (s.writeMem a n x).departs = s.departs := rfl
@[simp] theorem State.writeMem_ops (s : State) (a n x : Nat) : (s.writeMem a n x).ops = s.ops := rfl
@[simp] theorem State.writeMem_ctxs (s : State) (a n x : Nat) : (s.writeMem a n x).ctxs = s.ctxs := rfl
@[simp] theorem State.writeMem_lqs (s : State) (a n x : Nat) : (s.writeMem a n x).lqs = s.lqs := rfl
@[simp] theorem State.writeMem_lastLq (s : State) (a n x : Nat) : (s.writeMem a n x).lastLq = s.lastLq := rfl
@[simp] theorem State.writeMem_launches (s : State) (a n x : Nat) : (s.writeMem a n x).launches = s.launches := rfl
@[simp] theorem State.writeMem_gangs (s : State) (a n x : Nat) : (s.writeMem a n x).gangs = s.gangs := rfl
@[simp] theorem State.writeMem_groups (s : State) (a n x : Nat) : (s.writeMem a n x).groups = s.groups := rfl
@[simp] theorem State.writeMem_savedTiles (s : State) (a n x : Nat) : (s.writeMem a n x).savedTiles = s.savedTiles := rfl
@[simp] theorem State.writeMem_agenda (s : State) (a n x : Nat) : (s.writeMem a n x).agenda = s.agenda := rfl
@[simp] theorem State.writeMem_cur (s : State) (a n x : Nat) : (s.writeMem a n x).cur = s.cur := rfl
@[simp] theorem State.writeMem_nextId (s : State) (a n x : Nat) : (s.writeMem a n x).nextId = s.nextId := rfl
@[simp] theorem State.writeMem_freeCtr (s : State) (a n x : Nat) : (s.writeMem a n x).freeCtr = s.freeCtr := rfl
@[simp] theorem State.updSlice_now (s : State) (k : Nat) (f : Slice → Slice) : (s.updSlice k f).now = s.now := rfl
@[simp] theorem State.updSlice_lagCl (s : State) (k : Nat) (f : Slice → Slice) : (s.updSlice k f).lagCl = s.lagCl := rfl
@[simp] theorem State.updSlice_lagSl (s : State) (k : Nat) (f : Slice → Slice) : (s.updSlice k f).lagSl = s.lagSl := rfl
@[simp] theorem State.updSlice_lagHub (s : State) (k : Nat) (f : Slice → Slice) : (s.updSlice k f).lagHub = s.lagHub := rfl
@[simp] theorem State.updSlice_hold (s : State) (k : Nat) (f : Slice → Slice) : (s.updSlice k f).hold = s.hold := rfl
@[simp] theorem State.updSlice_clk (s : State) (k : Nat) (f : Slice → Slice) : (s.updSlice k f).clk = s.clk := rfl
@[simp] theorem State.updSlice_mem (s : State) (k : Nat) (f : Slice → Slice) : (s.updSlice k f).mem = s.mem := rfl
@[simp] theorem State.updSlice_devNo (s : State) (k : Nat) (f : Slice → Slice) : (s.updSlice k f).devNo = s.devNo := rfl
@[simp] theorem State.updSlice_lost (s : State) (k : Nat) (f : Slice → Slice) : (s.updSlice k f).lost = s.lost := rfl
@[simp] theorem State.updSlice_badBytes (s : State) (k : Nat) (f : Slice → Slice) : (s.updSlice k f).badBytes = s.badBytes := rfl
@[simp] theorem State.updSlice_tlb (s : State) (k : Nat) (f : Slice → Slice) : (s.updSlice k f).tlb = s.tlb := rfl
@[simp] theorem State.updSlice_icache (s : State) (k : Nat) (f : Slice → Slice) : (s.updSlice k f).icache = s.icache := rfl
@[simp] theorem State.updSlice_dir (s : State) (k : Nat) (f : Slice → Slice) : (s.updSlice k f).dir = s.dir := rfl
@[simp] theorem State.updSlice_copies (s : State) (k : Nat) (f : Slice → Slice) : (s.updSlice k f).copies = s.copies := rfl
@[simp] theorem State.updSlice_deleg (s : State) (k : Nat) (f : Slice → Slice) : (s.updSlice k f).deleg = s.deleg := rfl
@[simp] theorem State.updSlice_deltas (s : State) (k : Nat) (f : Slice → Slice) : (s.updSlice k f).deltas = s.deltas := rfl
@[simp] theorem State.updSlice_timed (s : State) (k : Nat) (f : Slice → Slice) : (s.updSlice k f).timed = s.timed := rfl
@[simp] theorem State.updSlice_past (s : State) (k : Nat) (f : Slice → Slice) : (s.updSlice k f).past = s.past := rfl
@[simp] theorem State.updSlice_watch (s : State) (k : Nat) (f : Slice → Slice) : (s.updSlice k f).watch = s.watch := rfl
@[simp] theorem State.updSlice_cores (s : State) (k : Nat) (f : Slice → Slice) : (s.updSlice k f).cores = s.cores := rfl
@[simp] theorem State.updSlice_dbgNames (s : State) (k : Nat) (f : Slice → Slice) : (s.updSlice k f).dbgNames = s.dbgNames := rfl
@[simp] theorem State.updSlice_hub (s : State) (k : Nat) (f : Slice → Slice) : (s.updSlice k f).hub = s.hub := rfl
@[simp] theorem State.updSlice_host (s : State) (k : Nat) (f : Slice → Slice) : (s.updSlice k f).host = s.host := rfl
@[simp] theorem State.updSlice_badLinks (s : State) (k : Nat) (f : Slice → Slice) : (s.updSlice k f).badLinks = s.badLinks := rfl
@[simp] theorem State.updSlice_noRoute (s : State) (k : Nat) (f : Slice → Slice) : (s.updSlice k f).noRoute = s.noRoute := rfl
@[simp] theorem State.updSlice_sys (s : State) (k : Nat) (f : Slice → Slice) : (s.updSlice k f).sys = s.sys := rfl
@[simp] theorem State.updSlice_ioMem (s : State) (k : Nat) (f : Slice → Slice) : (s.updSlice k f).ioMem = s.ioMem := rfl
@[simp] theorem State.updSlice_leases (s : State) (k : Nat) (f : Slice → Slice) : (s.updSlice k f).leases = s.leases := rfl
@[simp] theorem State.updSlice_flashRings (s : State) (k : Nat) (f : Slice → Slice) : (s.updSlice k f).flashRings = s.flashRings := rfl
@[simp] theorem State.updSlice_flash (s : State) (k : Nat) (f : Slice → Slice) : (s.updSlice k f).flash = s.flash := rfl
@[simp] theorem State.updSlice_eth (s : State) (k : Nat) (f : Slice → Slice) : (s.updSlice k f).eth = s.eth := rfl
@[simp] theorem State.updSlice_mgmt (s : State) (k : Nat) (f : Slice → Slice) : (s.updSlice k f).mgmt = s.mgmt := rfl
@[simp] theorem State.updSlice_meets (s : State) (k : Nat) (f : Slice → Slice) : (s.updSlice k f).meets = s.meets := rfl
@[simp] theorem State.updSlice_departs (s : State) (k : Nat) (f : Slice → Slice) : (s.updSlice k f).departs = s.departs := rfl
@[simp] theorem State.updSlice_ops (s : State) (k : Nat) (f : Slice → Slice) : (s.updSlice k f).ops = s.ops := rfl
@[simp] theorem State.updSlice_ctxs (s : State) (k : Nat) (f : Slice → Slice) : (s.updSlice k f).ctxs = s.ctxs := rfl
@[simp] theorem State.updSlice_lqs (s : State) (k : Nat) (f : Slice → Slice) : (s.updSlice k f).lqs = s.lqs := rfl
@[simp] theorem State.updSlice_lastLq (s : State) (k : Nat) (f : Slice → Slice) : (s.updSlice k f).lastLq = s.lastLq := rfl
@[simp] theorem State.updSlice_launches (s : State) (k : Nat) (f : Slice → Slice) : (s.updSlice k f).launches = s.launches := rfl
@[simp] theorem State.updSlice_gangs (s : State) (k : Nat) (f : Slice → Slice) : (s.updSlice k f).gangs = s.gangs := rfl
@[simp] theorem State.updSlice_groups (s : State) (k : Nat) (f : Slice → Slice) : (s.updSlice k f).groups = s.groups := rfl
@[simp] theorem State.updSlice_savedTiles (s : State) (k : Nat) (f : Slice → Slice) : (s.updSlice k f).savedTiles = s.savedTiles := rfl
@[simp] theorem State.updSlice_agenda (s : State) (k : Nat) (f : Slice → Slice) : (s.updSlice k f).agenda = s.agenda := rfl
@[simp] theorem State.updSlice_cur (s : State) (k : Nat) (f : Slice → Slice) : (s.updSlice k f).cur = s.cur := rfl
@[simp] theorem State.updSlice_nextId (s : State) (k : Nat) (f : Slice → Slice) : (s.updSlice k f).nextId = s.nextId := rfl
@[simp] theorem State.updSlice_freeCtr (s : State) (k : Nat) (f : Slice → Slice) : (s.updSlice k f).freeCtr = s.freeCtr := rfl
@[simp] theorem State.updCore_now (s : State) (k : Nat) (f : CoreSt → CoreSt) : (s.updCore k f).now = s.now := rfl
@[simp] theorem State.updCore_lagCl (s : State) (k : Nat) (f : CoreSt → CoreSt) : (s.updCore k f).lagCl = s.lagCl := rfl
@[simp] theorem State.updCore_lagSl (s : State) (k : Nat) (f : CoreSt → CoreSt) : (s.updCore k f).lagSl = s.lagSl := rfl
@[simp] theorem State.updCore_lagHub (s : State) (k : Nat) (f : CoreSt → CoreSt) : (s.updCore k f).lagHub = s.lagHub := rfl
@[simp] theorem State.updCore_hold (s : State) (k : Nat) (f : CoreSt → CoreSt) : (s.updCore k f).hold = s.hold := rfl
@[simp] theorem State.updCore_clk (s : State) (k : Nat) (f : CoreSt → CoreSt) : (s.updCore k f).clk = s.clk := rfl
@[simp] theorem State.updCore_mem (s : State) (k : Nat) (f : CoreSt → CoreSt) : (s.updCore k f).mem = s.mem := rfl
@[simp] theorem State.updCore_devNo (s : State) (k : Nat) (f : CoreSt → CoreSt) : (s.updCore k f).devNo = s.devNo := rfl
@[simp] theorem State.updCore_lost (s : State) (k : Nat) (f : CoreSt → CoreSt) : (s.updCore k f).lost = s.lost := rfl
@[simp] theorem State.updCore_badBytes (s : State) (k : Nat) (f : CoreSt → CoreSt) : (s.updCore k f).badBytes = s.badBytes := rfl
@[simp] theorem State.updCore_tlb (s : State) (k : Nat) (f : CoreSt → CoreSt) : (s.updCore k f).tlb = s.tlb := rfl
@[simp] theorem State.updCore_icache (s : State) (k : Nat) (f : CoreSt → CoreSt) : (s.updCore k f).icache = s.icache := rfl
@[simp] theorem State.updCore_dir (s : State) (k : Nat) (f : CoreSt → CoreSt) : (s.updCore k f).dir = s.dir := rfl
@[simp] theorem State.updCore_copies (s : State) (k : Nat) (f : CoreSt → CoreSt) : (s.updCore k f).copies = s.copies := rfl
@[simp] theorem State.updCore_deleg (s : State) (k : Nat) (f : CoreSt → CoreSt) : (s.updCore k f).deleg = s.deleg := rfl
@[simp] theorem State.updCore_deltas (s : State) (k : Nat) (f : CoreSt → CoreSt) : (s.updCore k f).deltas = s.deltas := rfl
@[simp] theorem State.updCore_timed (s : State) (k : Nat) (f : CoreSt → CoreSt) : (s.updCore k f).timed = s.timed := rfl
@[simp] theorem State.updCore_past (s : State) (k : Nat) (f : CoreSt → CoreSt) : (s.updCore k f).past = s.past := rfl
@[simp] theorem State.updCore_watch (s : State) (k : Nat) (f : CoreSt → CoreSt) : (s.updCore k f).watch = s.watch := rfl
@[simp] theorem State.updCore_slices (s : State) (k : Nat) (f : CoreSt → CoreSt) : (s.updCore k f).slices = s.slices := rfl
@[simp] theorem State.updCore_dbgNames (s : State) (k : Nat) (f : CoreSt → CoreSt) : (s.updCore k f).dbgNames = s.dbgNames := rfl
@[simp] theorem State.updCore_hub (s : State) (k : Nat) (f : CoreSt → CoreSt) : (s.updCore k f).hub = s.hub := rfl
@[simp] theorem State.updCore_host (s : State) (k : Nat) (f : CoreSt → CoreSt) : (s.updCore k f).host = s.host := rfl
@[simp] theorem State.updCore_badLinks (s : State) (k : Nat) (f : CoreSt → CoreSt) : (s.updCore k f).badLinks = s.badLinks := rfl
@[simp] theorem State.updCore_noRoute (s : State) (k : Nat) (f : CoreSt → CoreSt) : (s.updCore k f).noRoute = s.noRoute := rfl
@[simp] theorem State.updCore_sys (s : State) (k : Nat) (f : CoreSt → CoreSt) : (s.updCore k f).sys = s.sys := rfl
@[simp] theorem State.updCore_ioMem (s : State) (k : Nat) (f : CoreSt → CoreSt) : (s.updCore k f).ioMem = s.ioMem := rfl
@[simp] theorem State.updCore_leases (s : State) (k : Nat) (f : CoreSt → CoreSt) : (s.updCore k f).leases = s.leases := rfl
@[simp] theorem State.updCore_flashRings (s : State) (k : Nat) (f : CoreSt → CoreSt) : (s.updCore k f).flashRings = s.flashRings := rfl
@[simp] theorem State.updCore_flash (s : State) (k : Nat) (f : CoreSt → CoreSt) : (s.updCore k f).flash = s.flash := rfl
@[simp] theorem State.updCore_eth (s : State) (k : Nat) (f : CoreSt → CoreSt) : (s.updCore k f).eth = s.eth := rfl
@[simp] theorem State.updCore_mgmt (s : State) (k : Nat) (f : CoreSt → CoreSt) : (s.updCore k f).mgmt = s.mgmt := rfl
@[simp] theorem State.updCore_meets (s : State) (k : Nat) (f : CoreSt → CoreSt) : (s.updCore k f).meets = s.meets := rfl
@[simp] theorem State.updCore_departs (s : State) (k : Nat) (f : CoreSt → CoreSt) : (s.updCore k f).departs = s.departs := rfl
@[simp] theorem State.updCore_ops (s : State) (k : Nat) (f : CoreSt → CoreSt) : (s.updCore k f).ops = s.ops := rfl
@[simp] theorem State.updCore_ctxs (s : State) (k : Nat) (f : CoreSt → CoreSt) : (s.updCore k f).ctxs = s.ctxs := rfl
@[simp] theorem State.updCore_lqs (s : State) (k : Nat) (f : CoreSt → CoreSt) : (s.updCore k f).lqs = s.lqs := rfl
@[simp] theorem State.updCore_lastLq (s : State) (k : Nat) (f : CoreSt → CoreSt) : (s.updCore k f).lastLq = s.lastLq := rfl
@[simp] theorem State.updCore_launches (s : State) (k : Nat) (f : CoreSt → CoreSt) : (s.updCore k f).launches = s.launches := rfl
@[simp] theorem State.updCore_gangs (s : State) (k : Nat) (f : CoreSt → CoreSt) : (s.updCore k f).gangs = s.gangs := rfl
@[simp] theorem State.updCore_groups (s : State) (k : Nat) (f : CoreSt → CoreSt) : (s.updCore k f).groups = s.groups := rfl
@[simp] theorem State.updCore_savedTiles (s : State) (k : Nat) (f : CoreSt → CoreSt) : (s.updCore k f).savedTiles = s.savedTiles := rfl
@[simp] theorem State.updCore_agenda (s : State) (k : Nat) (f : CoreSt → CoreSt) : (s.updCore k f).agenda = s.agenda := rfl
@[simp] theorem State.updCore_cur (s : State) (k : Nat) (f : CoreSt → CoreSt) : (s.updCore k f).cur = s.cur := rfl
@[simp] theorem State.updCore_nextId (s : State) (k : Nat) (f : CoreSt → CoreSt) : (s.updCore k f).nextId = s.nextId := rfl
@[simp] theorem State.updCore_freeCtr (s : State) (k : Nat) (f : CoreSt → CoreSt) : (s.updCore k f).freeCtr = s.freeCtr := rfl
@[simp] theorem State.updTeam_now (s : State) (k t : Nat) (f : Team → Team) : (s.updTeam k t f).now = s.now := rfl
@[simp] theorem State.updTeam_lagCl (s : State) (k t : Nat) (f : Team → Team) : (s.updTeam k t f).lagCl = s.lagCl := rfl
@[simp] theorem State.updTeam_lagSl (s : State) (k t : Nat) (f : Team → Team) : (s.updTeam k t f).lagSl = s.lagSl := rfl
@[simp] theorem State.updTeam_lagHub (s : State) (k t : Nat) (f : Team → Team) : (s.updTeam k t f).lagHub = s.lagHub := rfl
@[simp] theorem State.updTeam_hold (s : State) (k t : Nat) (f : Team → Team) : (s.updTeam k t f).hold = s.hold := rfl
@[simp] theorem State.updTeam_clk (s : State) (k t : Nat) (f : Team → Team) : (s.updTeam k t f).clk = s.clk := rfl
@[simp] theorem State.updTeam_mem (s : State) (k t : Nat) (f : Team → Team) : (s.updTeam k t f).mem = s.mem := rfl
@[simp] theorem State.updTeam_devNo (s : State) (k t : Nat) (f : Team → Team) : (s.updTeam k t f).devNo = s.devNo := rfl
@[simp] theorem State.updTeam_lost (s : State) (k t : Nat) (f : Team → Team) : (s.updTeam k t f).lost = s.lost := rfl
@[simp] theorem State.updTeam_badBytes (s : State) (k t : Nat) (f : Team → Team) : (s.updTeam k t f).badBytes = s.badBytes := rfl
@[simp] theorem State.updTeam_tlb (s : State) (k t : Nat) (f : Team → Team) : (s.updTeam k t f).tlb = s.tlb := rfl
@[simp] theorem State.updTeam_icache (s : State) (k t : Nat) (f : Team → Team) : (s.updTeam k t f).icache = s.icache := rfl
@[simp] theorem State.updTeam_dir (s : State) (k t : Nat) (f : Team → Team) : (s.updTeam k t f).dir = s.dir := rfl
@[simp] theorem State.updTeam_copies (s : State) (k t : Nat) (f : Team → Team) : (s.updTeam k t f).copies = s.copies := rfl
@[simp] theorem State.updTeam_deleg (s : State) (k t : Nat) (f : Team → Team) : (s.updTeam k t f).deleg = s.deleg := rfl
@[simp] theorem State.updTeam_deltas (s : State) (k t : Nat) (f : Team → Team) : (s.updTeam k t f).deltas = s.deltas := rfl
@[simp] theorem State.updTeam_timed (s : State) (k t : Nat) (f : Team → Team) : (s.updTeam k t f).timed = s.timed := rfl
@[simp] theorem State.updTeam_past (s : State) (k t : Nat) (f : Team → Team) : (s.updTeam k t f).past = s.past := rfl
@[simp] theorem State.updTeam_watch (s : State) (k t : Nat) (f : Team → Team) : (s.updTeam k t f).watch = s.watch := rfl
@[simp] theorem State.updTeam_slices (s : State) (k t : Nat) (f : Team → Team) : (s.updTeam k t f).slices = s.slices := rfl
@[simp] theorem State.updTeam_cores (s : State) (k t : Nat) (f : Team → Team) : (s.updTeam k t f).cores = s.cores := rfl
@[simp] theorem State.updTeam_dbgNames (s : State) (k t : Nat) (f : Team → Team) : (s.updTeam k t f).dbgNames = s.dbgNames := rfl
@[simp] theorem State.updTeam_hub (s : State) (k t : Nat) (f : Team → Team) : (s.updTeam k t f).hub = s.hub := rfl
@[simp] theorem State.updTeam_host (s : State) (k t : Nat) (f : Team → Team) : (s.updTeam k t f).host = s.host := rfl
@[simp] theorem State.updTeam_badLinks (s : State) (k t : Nat) (f : Team → Team) : (s.updTeam k t f).badLinks = s.badLinks := rfl
@[simp] theorem State.updTeam_noRoute (s : State) (k t : Nat) (f : Team → Team) : (s.updTeam k t f).noRoute = s.noRoute := rfl
@[simp] theorem State.updTeam_sys (s : State) (k t : Nat) (f : Team → Team) : (s.updTeam k t f).sys = s.sys := rfl
@[simp] theorem State.updTeam_ioMem (s : State) (k t : Nat) (f : Team → Team) : (s.updTeam k t f).ioMem = s.ioMem := rfl
@[simp] theorem State.updTeam_leases (s : State) (k t : Nat) (f : Team → Team) : (s.updTeam k t f).leases = s.leases := rfl
@[simp] theorem State.updTeam_flashRings (s : State) (k t : Nat) (f : Team → Team) : (s.updTeam k t f).flashRings = s.flashRings := rfl
@[simp] theorem State.updTeam_flash (s : State) (k t : Nat) (f : Team → Team) : (s.updTeam k t f).flash = s.flash := rfl
@[simp] theorem State.updTeam_eth (s : State) (k t : Nat) (f : Team → Team) : (s.updTeam k t f).eth = s.eth := rfl
@[simp] theorem State.updTeam_mgmt (s : State) (k t : Nat) (f : Team → Team) : (s.updTeam k t f).mgmt = s.mgmt := rfl
@[simp] theorem State.updTeam_meets (s : State) (k t : Nat) (f : Team → Team) : (s.updTeam k t f).meets = s.meets := rfl
@[simp] theorem State.updTeam_departs (s : State) (k t : Nat) (f : Team → Team) : (s.updTeam k t f).departs = s.departs := rfl
@[simp] theorem State.updTeam_ops (s : State) (k t : Nat) (f : Team → Team) : (s.updTeam k t f).ops = s.ops := rfl
@[simp] theorem State.updTeam_ctxs (s : State) (k t : Nat) (f : Team → Team) : (s.updTeam k t f).ctxs = s.ctxs := rfl
@[simp] theorem State.updTeam_lqs (s : State) (k t : Nat) (f : Team → Team) : (s.updTeam k t f).lqs = s.lqs := rfl
@[simp] theorem State.updTeam_lastLq (s : State) (k t : Nat) (f : Team → Team) : (s.updTeam k t f).lastLq = s.lastLq := rfl
@[simp] theorem State.updTeam_launches (s : State) (k t : Nat) (f : Team → Team) : (s.updTeam k t f).launches = s.launches := rfl
@[simp] theorem State.updTeam_groups (s : State) (k t : Nat) (f : Team → Team) : (s.updTeam k t f).groups = s.groups := rfl
@[simp] theorem State.updTeam_savedTiles (s : State) (k t : Nat) (f : Team → Team) : (s.updTeam k t f).savedTiles = s.savedTiles := rfl
@[simp] theorem State.updTeam_agenda (s : State) (k t : Nat) (f : Team → Team) : (s.updTeam k t f).agenda = s.agenda := rfl
@[simp] theorem State.updTeam_cur (s : State) (k t : Nat) (f : Team → Team) : (s.updTeam k t f).cur = s.cur := rfl
@[simp] theorem State.updTeam_nextId (s : State) (k t : Nat) (f : Team → Team) : (s.updTeam k t f).nextId = s.nextId := rfl
@[simp] theorem State.updTeam_freeCtr (s : State) (k t : Nat) (f : Team → Team) : (s.updTeam k t f).freeCtr = s.freeCtr := rfl
@[simp] theorem State.setAccs_now (s : State) (id : Nat) (as : List Acc) : (s.setAccs id as).now = s.now := rfl
@[simp] theorem State.setAccs_lagCl (s : State) (id : Nat) (as : List Acc) : (s.setAccs id as).lagCl = s.lagCl := rfl
@[simp] theorem State.setAccs_lagSl (s : State) (id : Nat) (as : List Acc) : (s.setAccs id as).lagSl = s.lagSl := rfl
@[simp] theorem State.setAccs_lagHub (s : State) (id : Nat) (as : List Acc) : (s.setAccs id as).lagHub = s.lagHub := rfl
@[simp] theorem State.setAccs_hold (s : State) (id : Nat) (as : List Acc) : (s.setAccs id as).hold = s.hold := rfl
@[simp] theorem State.setAccs_clk (s : State) (id : Nat) (as : List Acc) : (s.setAccs id as).clk = s.clk := rfl
@[simp] theorem State.setAccs_mem (s : State) (id : Nat) (as : List Acc) : (s.setAccs id as).mem = s.mem := rfl
@[simp] theorem State.setAccs_devNo (s : State) (id : Nat) (as : List Acc) : (s.setAccs id as).devNo = s.devNo := rfl
@[simp] theorem State.setAccs_lost (s : State) (id : Nat) (as : List Acc) : (s.setAccs id as).lost = s.lost := rfl
@[simp] theorem State.setAccs_badBytes (s : State) (id : Nat) (as : List Acc) : (s.setAccs id as).badBytes = s.badBytes := rfl
@[simp] theorem State.setAccs_tlb (s : State) (id : Nat) (as : List Acc) : (s.setAccs id as).tlb = s.tlb := rfl
@[simp] theorem State.setAccs_icache (s : State) (id : Nat) (as : List Acc) : (s.setAccs id as).icache = s.icache := rfl
@[simp] theorem State.setAccs_dir (s : State) (id : Nat) (as : List Acc) : (s.setAccs id as).dir = s.dir := rfl
@[simp] theorem State.setAccs_copies (s : State) (id : Nat) (as : List Acc) : (s.setAccs id as).copies = s.copies := rfl
@[simp] theorem State.setAccs_deleg (s : State) (id : Nat) (as : List Acc) : (s.setAccs id as).deleg = s.deleg := rfl
@[simp] theorem State.setAccs_deltas (s : State) (id : Nat) (as : List Acc) : (s.setAccs id as).deltas = s.deltas := rfl
@[simp] theorem State.setAccs_timed (s : State) (id : Nat) (as : List Acc) : (s.setAccs id as).timed = s.timed := rfl
@[simp] theorem State.setAccs_past (s : State) (id : Nat) (as : List Acc) : (s.setAccs id as).past = s.past := rfl
@[simp] theorem State.setAccs_watch (s : State) (id : Nat) (as : List Acc) : (s.setAccs id as).watch = s.watch := rfl
@[simp] theorem State.setAccs_slices (s : State) (id : Nat) (as : List Acc) : (s.setAccs id as).slices = s.slices := rfl
@[simp] theorem State.setAccs_cores (s : State) (id : Nat) (as : List Acc) : (s.setAccs id as).cores = s.cores := rfl
@[simp] theorem State.setAccs_dbgNames (s : State) (id : Nat) (as : List Acc) : (s.setAccs id as).dbgNames = s.dbgNames := rfl
@[simp] theorem State.setAccs_hub (s : State) (id : Nat) (as : List Acc) : (s.setAccs id as).hub = s.hub := rfl
@[simp] theorem State.setAccs_host (s : State) (id : Nat) (as : List Acc) : (s.setAccs id as).host = s.host := rfl
@[simp] theorem State.setAccs_badLinks (s : State) (id : Nat) (as : List Acc) : (s.setAccs id as).badLinks = s.badLinks := rfl
@[simp] theorem State.setAccs_noRoute (s : State) (id : Nat) (as : List Acc) : (s.setAccs id as).noRoute = s.noRoute := rfl
@[simp] theorem State.setAccs_sys (s : State) (id : Nat) (as : List Acc) : (s.setAccs id as).sys = s.sys := rfl
@[simp] theorem State.setAccs_ioMem (s : State) (id : Nat) (as : List Acc) : (s.setAccs id as).ioMem = s.ioMem := rfl
@[simp] theorem State.setAccs_leases (s : State) (id : Nat) (as : List Acc) : (s.setAccs id as).leases = s.leases := rfl
@[simp] theorem State.setAccs_flashRings (s : State) (id : Nat) (as : List Acc) : (s.setAccs id as).flashRings = s.flashRings := rfl
@[simp] theorem State.setAccs_flash (s : State) (id : Nat) (as : List Acc) : (s.setAccs id as).flash = s.flash := rfl
@[simp] theorem State.setAccs_eth (s : State) (id : Nat) (as : List Acc) : (s.setAccs id as).eth = s.eth := rfl
@[simp] theorem State.setAccs_mgmt (s : State) (id : Nat) (as : List Acc) : (s.setAccs id as).mgmt = s.mgmt := rfl
@[simp] theorem State.setAccs_meets (s : State) (id : Nat) (as : List Acc) : (s.setAccs id as).meets = s.meets := rfl
@[simp] theorem State.setAccs_departs (s : State) (id : Nat) (as : List Acc) : (s.setAccs id as).departs = s.departs := rfl
@[simp] theorem State.setAccs_ctxs (s : State) (id : Nat) (as : List Acc) : (s.setAccs id as).ctxs = s.ctxs := rfl
@[simp] theorem State.setAccs_lqs (s : State) (id : Nat) (as : List Acc) : (s.setAccs id as).lqs = s.lqs := rfl
@[simp] theorem State.setAccs_lastLq (s : State) (id : Nat) (as : List Acc) : (s.setAccs id as).lastLq = s.lastLq := rfl
@[simp] theorem State.setAccs_launches (s : State) (id : Nat) (as : List Acc) : (s.setAccs id as).launches = s.launches := rfl
@[simp] theorem State.setAccs_gangs (s : State) (id : Nat) (as : List Acc) : (s.setAccs id as).gangs = s.gangs := rfl
@[simp] theorem State.setAccs_groups (s : State) (id : Nat) (as : List Acc) : (s.setAccs id as).groups = s.groups := rfl
@[simp] theorem State.setAccs_savedTiles (s : State) (id : Nat) (as : List Acc) : (s.setAccs id as).savedTiles = s.savedTiles := rfl
@[simp] theorem State.setAccs_agenda (s : State) (id : Nat) (as : List Acc) : (s.setAccs id as).agenda = s.agenda := rfl
@[simp] theorem State.setAccs_cur (s : State) (id : Nat) (as : List Acc) : (s.setAccs id as).cur = s.cur := rfl
@[simp] theorem State.setAccs_nextId (s : State) (id : Nat) (as : List Acc) : (s.setAccs id as).nextId = s.nextId := rfl
@[simp] theorem State.setAccs_freeCtr (s : State) (id : Nat) (as : List Acc) : (s.setAccs id as).freeCtr = s.freeCtr := rfl
@[simp] theorem State.setGran_now (s : State) (k : Nat) (g : Gran) : (s.setGran k g).now = s.now := rfl
@[simp] theorem State.setGran_lagCl (s : State) (k : Nat) (g : Gran) : (s.setGran k g).lagCl = s.lagCl := rfl
@[simp] theorem State.setGran_lagSl (s : State) (k : Nat) (g : Gran) : (s.setGran k g).lagSl = s.lagSl := rfl
@[simp] theorem State.setGran_lagHub (s : State) (k : Nat) (g : Gran) : (s.setGran k g).lagHub = s.lagHub := rfl
@[simp] theorem State.setGran_hold (s : State) (k : Nat) (g : Gran) : (s.setGran k g).hold = s.hold := rfl
@[simp] theorem State.setGran_clk (s : State) (k : Nat) (g : Gran) : (s.setGran k g).clk = s.clk := rfl
@[simp] theorem State.setGran_mem (s : State) (k : Nat) (g : Gran) : (s.setGran k g).mem = s.mem := rfl
@[simp] theorem State.setGran_devNo (s : State) (k : Nat) (g : Gran) : (s.setGran k g).devNo = s.devNo := rfl
@[simp] theorem State.setGran_lost (s : State) (k : Nat) (g : Gran) : (s.setGran k g).lost = s.lost := rfl
@[simp] theorem State.setGran_badBytes (s : State) (k : Nat) (g : Gran) : (s.setGran k g).badBytes = s.badBytes := rfl
@[simp] theorem State.setGran_tlb (s : State) (k : Nat) (g : Gran) : (s.setGran k g).tlb = s.tlb := rfl
@[simp] theorem State.setGran_icache (s : State) (k : Nat) (g : Gran) : (s.setGran k g).icache = s.icache := rfl
@[simp] theorem State.setGran_dir (s : State) (k : Nat) (g : Gran) : (s.setGran k g).dir = s.dir := rfl
@[simp] theorem State.setGran_copies (s : State) (k : Nat) (g : Gran) : (s.setGran k g).copies = s.copies := rfl
@[simp] theorem State.setGran_deleg (s : State) (k : Nat) (g : Gran) : (s.setGran k g).deleg = s.deleg := rfl
@[simp] theorem State.setGran_deltas (s : State) (k : Nat) (g : Gran) : (s.setGran k g).deltas = s.deltas := rfl
@[simp] theorem State.setGran_timed (s : State) (k : Nat) (g : Gran) : (s.setGran k g).timed = s.timed := rfl
@[simp] theorem State.setGran_past (s : State) (k : Nat) (g : Gran) : (s.setGran k g).past = s.past := rfl
@[simp] theorem State.setGran_watch (s : State) (k : Nat) (g : Gran) : (s.setGran k g).watch = s.watch := rfl
@[simp] theorem State.setGran_slices (s : State) (k : Nat) (g : Gran) : (s.setGran k g).slices = s.slices := rfl
@[simp] theorem State.setGran_cores (s : State) (k : Nat) (g : Gran) : (s.setGran k g).cores = s.cores := rfl
@[simp] theorem State.setGran_dbgNames (s : State) (k : Nat) (g : Gran) : (s.setGran k g).dbgNames = s.dbgNames := rfl
@[simp] theorem State.setGran_hub (s : State) (k : Nat) (g : Gran) : (s.setGran k g).hub = s.hub := rfl
@[simp] theorem State.setGran_badLinks (s : State) (k : Nat) (g : Gran) : (s.setGran k g).badLinks = s.badLinks := rfl
@[simp] theorem State.setGran_noRoute (s : State) (k : Nat) (g : Gran) : (s.setGran k g).noRoute = s.noRoute := rfl
@[simp] theorem State.setGran_sys (s : State) (k : Nat) (g : Gran) : (s.setGran k g).sys = s.sys := rfl
@[simp] theorem State.setGran_ioMem (s : State) (k : Nat) (g : Gran) : (s.setGran k g).ioMem = s.ioMem := rfl
@[simp] theorem State.setGran_leases (s : State) (k : Nat) (g : Gran) : (s.setGran k g).leases = s.leases := rfl
@[simp] theorem State.setGran_flashRings (s : State) (k : Nat) (g : Gran) : (s.setGran k g).flashRings = s.flashRings := rfl
@[simp] theorem State.setGran_flash (s : State) (k : Nat) (g : Gran) : (s.setGran k g).flash = s.flash := rfl
@[simp] theorem State.setGran_eth (s : State) (k : Nat) (g : Gran) : (s.setGran k g).eth = s.eth := rfl
@[simp] theorem State.setGran_mgmt (s : State) (k : Nat) (g : Gran) : (s.setGran k g).mgmt = s.mgmt := rfl
@[simp] theorem State.setGran_meets (s : State) (k : Nat) (g : Gran) : (s.setGran k g).meets = s.meets := rfl
@[simp] theorem State.setGran_departs (s : State) (k : Nat) (g : Gran) : (s.setGran k g).departs = s.departs := rfl
@[simp] theorem State.setGran_ops (s : State) (k : Nat) (g : Gran) : (s.setGran k g).ops = s.ops := rfl
@[simp] theorem State.setGran_ctxs (s : State) (k : Nat) (g : Gran) : (s.setGran k g).ctxs = s.ctxs := rfl
@[simp] theorem State.setGran_lqs (s : State) (k : Nat) (g : Gran) : (s.setGran k g).lqs = s.lqs := rfl
@[simp] theorem State.setGran_lastLq (s : State) (k : Nat) (g : Gran) : (s.setGran k g).lastLq = s.lastLq := rfl
@[simp] theorem State.setGran_launches (s : State) (k : Nat) (g : Gran) : (s.setGran k g).launches = s.launches := rfl
@[simp] theorem State.setGran_gangs (s : State) (k : Nat) (g : Gran) : (s.setGran k g).gangs = s.gangs := rfl
@[simp] theorem State.setGran_groups (s : State) (k : Nat) (g : Gran) : (s.setGran k g).groups = s.groups := rfl
@[simp] theorem State.setGran_savedTiles (s : State) (k : Nat) (g : Gran) : (s.setGran k g).savedTiles = s.savedTiles := rfl
@[simp] theorem State.setGran_agenda (s : State) (k : Nat) (g : Gran) : (s.setGran k g).agenda = s.agenda := rfl
@[simp] theorem State.setGran_cur (s : State) (k : Nat) (g : Gran) : (s.setGran k g).cur = s.cur := rfl
@[simp] theorem State.setGran_nextId (s : State) (k : Nat) (g : Gran) : (s.setGran k g).nextId = s.nextId := rfl
@[simp] theorem State.setGran_freeCtr (s : State) (k : Nat) (g : Gran) : (s.setGran k g).freeCtr = s.freeCtr := rfl
@[simp] theorem State.ringPut_now (s : State) (k : Nat) (n : Notice) : (s.ringPut k n).now = s.now := rfl
@[simp] theorem State.ringPut_lagCl (s : State) (k : Nat) (n : Notice) : (s.ringPut k n).lagCl = s.lagCl := rfl
@[simp] theorem State.ringPut_lagSl (s : State) (k : Nat) (n : Notice) : (s.ringPut k n).lagSl = s.lagSl := rfl
@[simp] theorem State.ringPut_lagHub (s : State) (k : Nat) (n : Notice) : (s.ringPut k n).lagHub = s.lagHub := rfl
@[simp] theorem State.ringPut_hold (s : State) (k : Nat) (n : Notice) : (s.ringPut k n).hold = s.hold := rfl
@[simp] theorem State.ringPut_clk (s : State) (k : Nat) (n : Notice) : (s.ringPut k n).clk = s.clk := rfl
@[simp] theorem State.ringPut_mem (s : State) (k : Nat) (n : Notice) : (s.ringPut k n).mem = s.mem := rfl
@[simp] theorem State.ringPut_devNo (s : State) (k : Nat) (n : Notice) : (s.ringPut k n).devNo = s.devNo := rfl
@[simp] theorem State.ringPut_lost (s : State) (k : Nat) (n : Notice) : (s.ringPut k n).lost = s.lost := rfl
@[simp] theorem State.ringPut_badBytes (s : State) (k : Nat) (n : Notice) : (s.ringPut k n).badBytes = s.badBytes := rfl
@[simp] theorem State.ringPut_tlb (s : State) (k : Nat) (n : Notice) : (s.ringPut k n).tlb = s.tlb := rfl
@[simp] theorem State.ringPut_icache (s : State) (k : Nat) (n : Notice) : (s.ringPut k n).icache = s.icache := rfl
@[simp] theorem State.ringPut_dir (s : State) (k : Nat) (n : Notice) : (s.ringPut k n).dir = s.dir := rfl
@[simp] theorem State.ringPut_copies (s : State) (k : Nat) (n : Notice) : (s.ringPut k n).copies = s.copies := rfl
@[simp] theorem State.ringPut_deleg (s : State) (k : Nat) (n : Notice) : (s.ringPut k n).deleg = s.deleg := rfl
@[simp] theorem State.ringPut_deltas (s : State) (k : Nat) (n : Notice) : (s.ringPut k n).deltas = s.deltas := rfl
@[simp] theorem State.ringPut_timed (s : State) (k : Nat) (n : Notice) : (s.ringPut k n).timed = s.timed := rfl
@[simp] theorem State.ringPut_past (s : State) (k : Nat) (n : Notice) : (s.ringPut k n).past = s.past := rfl
@[simp] theorem State.ringPut_watch (s : State) (k : Nat) (n : Notice) : (s.ringPut k n).watch = s.watch := rfl
@[simp] theorem State.ringPut_slices (s : State) (k : Nat) (n : Notice) : (s.ringPut k n).slices = s.slices := rfl
@[simp] theorem State.ringPut_cores (s : State) (k : Nat) (n : Notice) : (s.ringPut k n).cores = s.cores := rfl
@[simp] theorem State.ringPut_dbgNames (s : State) (k : Nat) (n : Notice) : (s.ringPut k n).dbgNames = s.dbgNames := rfl
@[simp] theorem State.ringPut_host (s : State) (k : Nat) (n : Notice) : (s.ringPut k n).host = s.host := rfl
@[simp] theorem State.ringPut_badLinks (s : State) (k : Nat) (n : Notice) : (s.ringPut k n).badLinks = s.badLinks := rfl
@[simp] theorem State.ringPut_noRoute (s : State) (k : Nat) (n : Notice) : (s.ringPut k n).noRoute = s.noRoute := rfl
@[simp] theorem State.ringPut_sys (s : State) (k : Nat) (n : Notice) : (s.ringPut k n).sys = s.sys := rfl
@[simp] theorem State.ringPut_ioMem (s : State) (k : Nat) (n : Notice) : (s.ringPut k n).ioMem = s.ioMem := rfl
@[simp] theorem State.ringPut_leases (s : State) (k : Nat) (n : Notice) : (s.ringPut k n).leases = s.leases := rfl
@[simp] theorem State.ringPut_flashRings (s : State) (k : Nat) (n : Notice) : (s.ringPut k n).flashRings = s.flashRings := rfl
@[simp] theorem State.ringPut_flash (s : State) (k : Nat) (n : Notice) : (s.ringPut k n).flash = s.flash := rfl
@[simp] theorem State.ringPut_eth (s : State) (k : Nat) (n : Notice) : (s.ringPut k n).eth = s.eth := rfl
@[simp] theorem State.ringPut_mgmt (s : State) (k : Nat) (n : Notice) : (s.ringPut k n).mgmt = s.mgmt := rfl
@[simp] theorem State.ringPut_meets (s : State) (k : Nat) (n : Notice) : (s.ringPut k n).meets = s.meets := rfl
@[simp] theorem State.ringPut_departs (s : State) (k : Nat) (n : Notice) : (s.ringPut k n).departs = s.departs := rfl
@[simp] theorem State.ringPut_ctxs (s : State) (k : Nat) (n : Notice) : (s.ringPut k n).ctxs = s.ctxs := rfl
@[simp] theorem State.ringPut_lqs (s : State) (k : Nat) (n : Notice) : (s.ringPut k n).lqs = s.lqs := rfl
@[simp] theorem State.ringPut_lastLq (s : State) (k : Nat) (n : Notice) : (s.ringPut k n).lastLq = s.lastLq := rfl
@[simp] theorem State.ringPut_launches (s : State) (k : Nat) (n : Notice) : (s.ringPut k n).launches = s.launches := rfl
@[simp] theorem State.ringPut_gangs (s : State) (k : Nat) (n : Notice) : (s.ringPut k n).gangs = s.gangs := rfl
@[simp] theorem State.ringPut_groups (s : State) (k : Nat) (n : Notice) : (s.ringPut k n).groups = s.groups := rfl
@[simp] theorem State.ringPut_savedTiles (s : State) (k : Nat) (n : Notice) : (s.ringPut k n).savedTiles = s.savedTiles := rfl
@[simp] theorem State.ringPut_agenda (s : State) (k : Nat) (n : Notice) : (s.ringPut k n).agenda = s.agenda := rfl
@[simp] theorem State.ringPut_cur (s : State) (k : Nat) (n : Notice) : (s.ringPut k n).cur = s.cur := rfl
@[simp] theorem State.ringPut_freeCtr (s : State) (k : Nat) (n : Notice) : (s.ringPut k n).freeCtr = s.freeCtr := rfl
@[simp] theorem State.sendOp_now (s : State) (o : Op) : (s.sendOp o).now = s.now := rfl
@[simp] theorem State.sendOp_lagCl (s : State) (o : Op) : (s.sendOp o).lagCl = s.lagCl := rfl
@[simp] theorem State.sendOp_lagSl (s : State) (o : Op) : (s.sendOp o).lagSl = s.lagSl := rfl
@[simp] theorem State.sendOp_lagHub (s : State) (o : Op) : (s.sendOp o).lagHub = s.lagHub := rfl
@[simp] theorem State.sendOp_hold (s : State) (o : Op) : (s.sendOp o).hold = s.hold := rfl
@[simp] theorem State.sendOp_clk (s : State) (o : Op) : (s.sendOp o).clk = s.clk := rfl
@[simp] theorem State.sendOp_mem (s : State) (o : Op) : (s.sendOp o).mem = s.mem := rfl
@[simp] theorem State.sendOp_devNo (s : State) (o : Op) : (s.sendOp o).devNo = s.devNo := rfl
@[simp] theorem State.sendOp_lost (s : State) (o : Op) : (s.sendOp o).lost = s.lost := rfl
@[simp] theorem State.sendOp_badBytes (s : State) (o : Op) : (s.sendOp o).badBytes = s.badBytes := rfl
@[simp] theorem State.sendOp_tlb (s : State) (o : Op) : (s.sendOp o).tlb = s.tlb := rfl
@[simp] theorem State.sendOp_icache (s : State) (o : Op) : (s.sendOp o).icache = s.icache := rfl
@[simp] theorem State.sendOp_dir (s : State) (o : Op) : (s.sendOp o).dir = s.dir := rfl
@[simp] theorem State.sendOp_copies (s : State) (o : Op) : (s.sendOp o).copies = s.copies := rfl
@[simp] theorem State.sendOp_deleg (s : State) (o : Op) : (s.sendOp o).deleg = s.deleg := rfl
@[simp] theorem State.sendOp_deltas (s : State) (o : Op) : (s.sendOp o).deltas = s.deltas := rfl
@[simp] theorem State.sendOp_timed (s : State) (o : Op) : (s.sendOp o).timed = s.timed := rfl
@[simp] theorem State.sendOp_past (s : State) (o : Op) : (s.sendOp o).past = s.past := rfl
@[simp] theorem State.sendOp_watch (s : State) (o : Op) : (s.sendOp o).watch = s.watch := rfl
@[simp] theorem State.sendOp_slices (s : State) (o : Op) : (s.sendOp o).slices = s.slices := rfl
@[simp] theorem State.sendOp_cores (s : State) (o : Op) : (s.sendOp o).cores = s.cores := rfl
@[simp] theorem State.sendOp_dbgNames (s : State) (o : Op) : (s.sendOp o).dbgNames = s.dbgNames := rfl
@[simp] theorem State.sendOp_hub (s : State) (o : Op) : (s.sendOp o).hub = s.hub := rfl
@[simp] theorem State.sendOp_host (s : State) (o : Op) : (s.sendOp o).host = s.host := rfl
@[simp] theorem State.sendOp_badLinks (s : State) (o : Op) : (s.sendOp o).badLinks = s.badLinks := rfl
@[simp] theorem State.sendOp_noRoute (s : State) (o : Op) : (s.sendOp o).noRoute = s.noRoute := rfl
@[simp] theorem State.sendOp_sys (s : State) (o : Op) : (s.sendOp o).sys = s.sys := rfl
@[simp] theorem State.sendOp_ioMem (s : State) (o : Op) : (s.sendOp o).ioMem = s.ioMem := rfl
@[simp] theorem State.sendOp_leases (s : State) (o : Op) : (s.sendOp o).leases = s.leases := rfl
@[simp] theorem State.sendOp_flashRings (s : State) (o : Op) : (s.sendOp o).flashRings = s.flashRings := rfl
@[simp] theorem State.sendOp_flash (s : State) (o : Op) : (s.sendOp o).flash = s.flash := rfl
@[simp] theorem State.sendOp_eth (s : State) (o : Op) : (s.sendOp o).eth = s.eth := rfl
@[simp] theorem State.sendOp_mgmt (s : State) (o : Op) : (s.sendOp o).mgmt = s.mgmt := rfl
@[simp] theorem State.sendOp_meets (s : State) (o : Op) : (s.sendOp o).meets = s.meets := rfl
@[simp] theorem State.sendOp_departs (s : State) (o : Op) : (s.sendOp o).departs = s.departs := rfl
@[simp] theorem State.sendOp_ctxs (s : State) (o : Op) : (s.sendOp o).ctxs = s.ctxs := rfl
@[simp] theorem State.sendOp_lqs (s : State) (o : Op) : (s.sendOp o).lqs = s.lqs := rfl
@[simp] theorem State.sendOp_lastLq (s : State) (o : Op) : (s.sendOp o).lastLq = s.lastLq := rfl
@[simp] theorem State.sendOp_launches (s : State) (o : Op) : (s.sendOp o).launches = s.launches := rfl
@[simp] theorem State.sendOp_gangs (s : State) (o : Op) : (s.sendOp o).gangs = s.gangs := rfl
@[simp] theorem State.sendOp_groups (s : State) (o : Op) : (s.sendOp o).groups = s.groups := rfl
@[simp] theorem State.sendOp_savedTiles (s : State) (o : Op) : (s.sendOp o).savedTiles = s.savedTiles := rfl
@[simp] theorem State.sendOp_agenda (s : State) (o : Op) : (s.sendOp o).agenda = s.agenda := rfl
@[simp] theorem State.sendOp_cur (s : State) (o : Op) : (s.sendOp o).cur = s.cur := rfl
@[simp] theorem State.sendOp_freeCtr (s : State) (o : Op) : (s.sendOp o).freeCtr = s.freeCtr := rfl
@[simp] theorem State.forget_now (s : State) (t : Nat × Nat) : (s.forget t).now = s.now := rfl
@[simp] theorem State.forget_lagCl (s : State) (t : Nat × Nat) : (s.forget t).lagCl = s.lagCl := rfl
@[simp] theorem State.forget_lagSl (s : State) (t : Nat × Nat) : (s.forget t).lagSl = s.lagSl := rfl
@[simp] theorem State.forget_lagHub (s : State) (t : Nat × Nat) : (s.forget t).lagHub = s.lagHub := rfl
@[simp] theorem State.forget_hold (s : State) (t : Nat × Nat) : (s.forget t).hold = s.hold := rfl
@[simp] theorem State.forget_clk (s : State) (t : Nat × Nat) : (s.forget t).clk = s.clk := rfl
@[simp] theorem State.forget_mem (s : State) (t : Nat × Nat) : (s.forget t).mem = s.mem := rfl
@[simp] theorem State.forget_devNo (s : State) (t : Nat × Nat) : (s.forget t).devNo = s.devNo := rfl
@[simp] theorem State.forget_lost (s : State) (t : Nat × Nat) : (s.forget t).lost = s.lost := rfl
@[simp] theorem State.forget_badBytes (s : State) (t : Nat × Nat) : (s.forget t).badBytes = s.badBytes := rfl
@[simp] theorem State.forget_tlb (s : State) (t : Nat × Nat) : (s.forget t).tlb = s.tlb := rfl
@[simp] theorem State.forget_icache (s : State) (t : Nat × Nat) : (s.forget t).icache = s.icache := rfl
@[simp] theorem State.forget_dir (s : State) (t : Nat × Nat) : (s.forget t).dir = s.dir := rfl
@[simp] theorem State.forget_copies (s : State) (t : Nat × Nat) : (s.forget t).copies = s.copies := rfl
@[simp] theorem State.forget_deleg (s : State) (t : Nat × Nat) : (s.forget t).deleg = s.deleg := rfl
@[simp] theorem State.forget_deltas (s : State) (t : Nat × Nat) : (s.forget t).deltas = s.deltas := rfl
@[simp] theorem State.forget_timed (s : State) (t : Nat × Nat) : (s.forget t).timed = s.timed := rfl
@[simp] theorem State.forget_past (s : State) (t : Nat × Nat) : (s.forget t).past = s.past := rfl
@[simp] theorem State.forget_watch (s : State) (t : Nat × Nat) : (s.forget t).watch = s.watch := rfl
@[simp] theorem State.forget_slices (s : State) (t : Nat × Nat) : (s.forget t).slices = s.slices := rfl
@[simp] theorem State.forget_cores (s : State) (t : Nat × Nat) : (s.forget t).cores = s.cores := rfl
@[simp] theorem State.forget_dbgNames (s : State) (t : Nat × Nat) : (s.forget t).dbgNames = s.dbgNames := rfl
@[simp] theorem State.forget_hub (s : State) (t : Nat × Nat) : (s.forget t).hub = s.hub := rfl
@[simp] theorem State.forget_host (s : State) (t : Nat × Nat) : (s.forget t).host = s.host := rfl
@[simp] theorem State.forget_badLinks (s : State) (t : Nat × Nat) : (s.forget t).badLinks = s.badLinks := rfl
@[simp] theorem State.forget_noRoute (s : State) (t : Nat × Nat) : (s.forget t).noRoute = s.noRoute := rfl
@[simp] theorem State.forget_sys (s : State) (t : Nat × Nat) : (s.forget t).sys = s.sys := rfl
@[simp] theorem State.forget_ioMem (s : State) (t : Nat × Nat) : (s.forget t).ioMem = s.ioMem := rfl
@[simp] theorem State.forget_leases (s : State) (t : Nat × Nat) : (s.forget t).leases = s.leases := rfl
@[simp] theorem State.forget_flashRings (s : State) (t : Nat × Nat) : (s.forget t).flashRings = s.flashRings := rfl
@[simp] theorem State.forget_flash (s : State) (t : Nat × Nat) : (s.forget t).flash = s.flash := rfl
@[simp] theorem State.forget_eth (s : State) (t : Nat × Nat) : (s.forget t).eth = s.eth := rfl
@[simp] theorem State.forget_mgmt (s : State) (t : Nat × Nat) : (s.forget t).mgmt = s.mgmt := rfl
@[simp] theorem State.forget_meets (s : State) (t : Nat × Nat) : (s.forget t).meets = s.meets := rfl
@[simp] theorem State.forget_departs (s : State) (t : Nat × Nat) : (s.forget t).departs = s.departs := rfl
@[simp] theorem State.forget_ctxs (s : State) (t : Nat × Nat) : (s.forget t).ctxs = s.ctxs := rfl
@[simp] theorem State.forget_lqs (s : State) (t : Nat × Nat) : (s.forget t).lqs = s.lqs := rfl
@[simp] theorem State.forget_lastLq (s : State) (t : Nat × Nat) : (s.forget t).lastLq = s.lastLq := rfl
@[simp] theorem State.forget_launches (s : State) (t : Nat × Nat) : (s.forget t).launches = s.launches := rfl
@[simp] theorem State.forget_gangs (s : State) (t : Nat × Nat) : (s.forget t).gangs = s.gangs := rfl
@[simp] theorem State.forget_groups (s : State) (t : Nat × Nat) : (s.forget t).groups = s.groups := rfl
@[simp] theorem State.forget_savedTiles (s : State) (t : Nat × Nat) : (s.forget t).savedTiles = s.savedTiles := rfl
@[simp] theorem State.forget_agenda (s : State) (t : Nat × Nat) : (s.forget t).agenda = s.agenda := rfl
@[simp] theorem State.forget_cur (s : State) (t : Nat × Nat) : (s.forget t).cur = s.cur := rfl
@[simp] theorem State.forget_nextId (s : State) (t : Nat × Nat) : (s.forget t).nextId = s.nextId := rfl
@[simp] theorem State.forget_freeCtr (s : State) (t : Nat × Nat) : (s.forget t).freeCtr = s.freeCtr := rfl
@[simp] theorem State.addErr_now (s : State) (c : Nat) (e : ErrRec) : (s.addErr c e).now = s.now := by unfold State.addErr; split; rfl; split <;> rfl
@[simp] theorem State.addErr_lagCl (s : State) (c : Nat) (e : ErrRec) : (s.addErr c e).lagCl = s.lagCl := by unfold State.addErr; split; rfl; split <;> rfl
@[simp] theorem State.addErr_lagSl (s : State) (c : Nat) (e : ErrRec) : (s.addErr c e).lagSl = s.lagSl := by unfold State.addErr; split; rfl; split <;> rfl
@[simp] theorem State.addErr_lagHub (s : State) (c : Nat) (e : ErrRec) : (s.addErr c e).lagHub = s.lagHub := by unfold State.addErr; split; rfl; split <;> rfl
@[simp] theorem State.addErr_hold (s : State) (c : Nat) (e : ErrRec) : (s.addErr c e).hold = s.hold := by unfold State.addErr; split; rfl; split <;> rfl
@[simp] theorem State.addErr_clk (s : State) (c : Nat) (e : ErrRec) : (s.addErr c e).clk = s.clk := by unfold State.addErr; split; rfl; split <;> rfl
@[simp] theorem State.addErr_mem (s : State) (c : Nat) (e : ErrRec) : (s.addErr c e).mem = s.mem := by unfold State.addErr; split; rfl; split <;> rfl
@[simp] theorem State.addErr_devNo (s : State) (c : Nat) (e : ErrRec) : (s.addErr c e).devNo = s.devNo := by unfold State.addErr; split; rfl; split <;> rfl
@[simp] theorem State.addErr_lost (s : State) (c : Nat) (e : ErrRec) : (s.addErr c e).lost = s.lost := by unfold State.addErr; split; rfl; split <;> rfl
@[simp] theorem State.addErr_badBytes (s : State) (c : Nat) (e : ErrRec) : (s.addErr c e).badBytes = s.badBytes := by unfold State.addErr; split; rfl; split <;> rfl
@[simp] theorem State.addErr_tlb (s : State) (c : Nat) (e : ErrRec) : (s.addErr c e).tlb = s.tlb := by unfold State.addErr; split; rfl; split <;> rfl
@[simp] theorem State.addErr_icache (s : State) (c : Nat) (e : ErrRec) : (s.addErr c e).icache = s.icache := by unfold State.addErr; split; rfl; split <;> rfl
@[simp] theorem State.addErr_dir (s : State) (c : Nat) (e : ErrRec) : (s.addErr c e).dir = s.dir := by unfold State.addErr; split; rfl; split <;> rfl
@[simp] theorem State.addErr_copies (s : State) (c : Nat) (e : ErrRec) : (s.addErr c e).copies = s.copies := by unfold State.addErr; split; rfl; split <;> rfl
@[simp] theorem State.addErr_deleg (s : State) (c : Nat) (e : ErrRec) : (s.addErr c e).deleg = s.deleg := by unfold State.addErr; split; rfl; split <;> rfl
@[simp] theorem State.addErr_deltas (s : State) (c : Nat) (e : ErrRec) : (s.addErr c e).deltas = s.deltas := by unfold State.addErr; split; rfl; split <;> rfl
@[simp] theorem State.addErr_timed (s : State) (c : Nat) (e : ErrRec) : (s.addErr c e).timed = s.timed := by unfold State.addErr; split; rfl; split <;> rfl
@[simp] theorem State.addErr_past (s : State) (c : Nat) (e : ErrRec) : (s.addErr c e).past = s.past := by unfold State.addErr; split; rfl; split <;> rfl
@[simp] theorem State.addErr_watch (s : State) (c : Nat) (e : ErrRec) : (s.addErr c e).watch = s.watch := by unfold State.addErr; split; rfl; split <;> rfl
@[simp] theorem State.addErr_slices (s : State) (c : Nat) (e : ErrRec) : (s.addErr c e).slices = s.slices := by unfold State.addErr; split; rfl; split <;> rfl
@[simp] theorem State.addErr_cores (s : State) (c : Nat) (e : ErrRec) : (s.addErr c e).cores = s.cores := by unfold State.addErr; split; rfl; split <;> rfl
@[simp] theorem State.addErr_dbgNames (s : State) (c : Nat) (e : ErrRec) : (s.addErr c e).dbgNames = s.dbgNames := by unfold State.addErr; split; rfl; split <;> rfl
@[simp] theorem State.addErr_hub (s : State) (c : Nat) (e : ErrRec) : (s.addErr c e).hub = s.hub := by unfold State.addErr; split; rfl; split <;> rfl
@[simp] theorem State.addErr_host (s : State) (c : Nat) (e : ErrRec) : (s.addErr c e).host = s.host := by unfold State.addErr; split; rfl; split <;> rfl
@[simp] theorem State.addErr_badLinks (s : State) (c : Nat) (e : ErrRec) : (s.addErr c e).badLinks = s.badLinks := by unfold State.addErr; split; rfl; split <;> rfl
@[simp] theorem State.addErr_noRoute (s : State) (c : Nat) (e : ErrRec) : (s.addErr c e).noRoute = s.noRoute := by unfold State.addErr; split; rfl; split <;> rfl
@[simp] theorem State.addErr_sys (s : State) (c : Nat) (e : ErrRec) : (s.addErr c e).sys = s.sys := by unfold State.addErr; split; rfl; split <;> rfl
@[simp] theorem State.addErr_ioMem (s : State) (c : Nat) (e : ErrRec) : (s.addErr c e).ioMem = s.ioMem := by unfold State.addErr; split; rfl; split <;> rfl
@[simp] theorem State.addErr_leases (s : State) (c : Nat) (e : ErrRec) : (s.addErr c e).leases = s.leases := by unfold State.addErr; split; rfl; split <;> rfl
@[simp] theorem State.addErr_flashRings (s : State) (c : Nat) (e : ErrRec) : (s.addErr c e).flashRings = s.flashRings := by unfold State.addErr; split; rfl; split <;> rfl
@[simp] theorem State.addErr_flash (s : State) (c : Nat) (e : ErrRec) : (s.addErr c e).flash = s.flash := by unfold State.addErr; split; rfl; split <;> rfl
@[simp] theorem State.addErr_eth (s : State) (c : Nat) (e : ErrRec) : (s.addErr c e).eth = s.eth := by unfold State.addErr; split; rfl; split <;> rfl
@[simp] theorem State.addErr_mgmt (s : State) (c : Nat) (e : ErrRec) : (s.addErr c e).mgmt = s.mgmt := by unfold State.addErr; split; rfl; split <;> rfl
@[simp] theorem State.addErr_meets (s : State) (c : Nat) (e : ErrRec) : (s.addErr c e).meets = s.meets := by unfold State.addErr; split; rfl; split <;> rfl
@[simp] theorem State.addErr_departs (s : State) (c : Nat) (e : ErrRec) : (s.addErr c e).departs = s.departs := by unfold State.addErr; split; rfl; split <;> rfl
@[simp] theorem State.addErr_lqs (s : State) (c : Nat) (e : ErrRec) : (s.addErr c e).lqs = s.lqs := by unfold State.addErr; split; rfl; split <;> rfl
@[simp] theorem State.addErr_lastLq (s : State) (c : Nat) (e : ErrRec) : (s.addErr c e).lastLq = s.lastLq := by unfold State.addErr; split; rfl; split <;> rfl
@[simp] theorem State.addErr_launches (s : State) (c : Nat) (e : ErrRec) : (s.addErr c e).launches = s.launches := by unfold State.addErr; split; rfl; split <;> rfl
@[simp] theorem State.addErr_gangs (s : State) (c : Nat) (e : ErrRec) : (s.addErr c e).gangs = s.gangs := by unfold State.addErr; split; rfl; split <;> rfl
@[simp] theorem State.addErr_groups (s : State) (c : Nat) (e : ErrRec) : (s.addErr c e).groups = s.groups := by unfold State.addErr; split; rfl; split <;> rfl
@[simp] theorem State.addErr_savedTiles (s : State) (c : Nat) (e : ErrRec) : (s.addErr c e).savedTiles = s.savedTiles := by unfold State.addErr; split; rfl; split <;> rfl
@[simp] theorem State.addErr_agenda (s : State) (c : Nat) (e : ErrRec) : (s.addErr c e).agenda = s.agenda := by unfold State.addErr; split; rfl; split <;> rfl
@[simp] theorem State.addErr_cur (s : State) (c : Nat) (e : ErrRec) : (s.addErr c e).cur = s.cur := by unfold State.addErr; split; rfl; split <;> rfl
@[simp] theorem Group.mapLanes_isSeq (g : Group) (f : Nat → Lane → Lane) : (g.mapLanes f).isSeq = g.isSeq := rfl
@[simp] theorem Group.mapLanes_ctx0 (g : Group) (f : Nat → Lane → Lane) : (g.mapLanes f).ctx0 = g.ctx0 := rfl
@[simp] theorem Group.mapLanes_ctx (g : Group) (f : Nat → Lane → Lane) : (g.mapLanes f).ctx = g.ctx := rfl
@[simp] theorem Group.mapLanes_launch (g : Group) (f : Nat → Lane → Lane) : (g.mapLanes f).launch = g.launch := rfl
@[simp] theorem Group.mapLanes_gang (g : Group) (f : Nat → Lane → Lane) : (g.mapLanes f).gang = g.gang := rfl
@[simp] theorem Group.mapLanes_team (g : Group) (f : Nat → Lane → Lane) : (g.mapLanes f).team = g.team := rfl
@[simp] theorem Group.mapLanes_grp (g : Group) (f : Nat → Lane → Lane) : (g.mapLanes f).grp = g.grp := rfl
@[simp] theorem Group.mapLanes_cluster (g : Group) (f : Nat → Lane → Lane) : (g.mapLanes f).cluster = g.cluster := rfl
@[simp] theorem Group.mapLanes_core (g : Group) (f : Nat → Lane → Lane) : (g.mapLanes f).core = g.core := rfl
@[simp] theorem Group.mapLanes_v (g : Group) (f : Nat → Lane → Lane) : (g.mapLanes f).v = g.v := rfl
@[simp] theorem Group.mapLanes_sc (g : Group) (f : Nat → Lane → Lane) : (g.mapLanes f).sc = g.sc := rfl
@[simp] theorem Group.mapLanes_p (g : Group) (f : Nat → Lane → Lane) : (g.mapLanes f).p = g.p := rfl
@[simp] theorem Group.mapLanes_b (g : Group) (f : Nat → Lane → Lane) : (g.mapLanes f).b = g.b := rfl
@[simp] theorem Group.mapLanes_nregs (g : Group) (f : Nat → Lane → Lane) : (g.mapLanes f).nregs = g.nregs := rfl
@[simp] theorem Group.mapLanes_sregs (g : Group) (f : Nat → Lane → Lane) : (g.mapLanes f).sregs = g.sregs := rfl
@[simp] theorem Group.mapLanes_gmap (g : Group) (f : Nat → Lane → Lane) : (g.mapLanes f).gmap = g.gmap := rfl
@[simp] theorem Group.mapLanes_ctime (g : Group) (f : Nat → Lane → Lane) : (g.mapLanes f).ctime = g.ctime := rfl
@[simp] theorem Group.mapLanes_fpflags (g : Group) (f : Nat → Lane → Lane) : (g.mapLanes f).fpflags = g.fpflags := rfl
@[simp] theorem Group.mapLanes_cstack (g : Group) (f : Nat → Lane → Lane) : (g.mapLanes f).cstack = g.cstack := rfl
@[simp] theorem Group.mapLanes_args (g : Group) (f : Nat → Lane → Lane) : (g.mapLanes f).args = g.args := rfl
@[simp] theorem Group.mapLanes_cnt (g : Group) (f : Nat → Lane → Lane) : (g.mapLanes f).cnt = g.cnt := rfl
@[simp] theorem Group.mapLanes_mon (g : Group) (f : Nat → Lane → Lane) : (g.mapLanes f).mon = g.mon := rfl
@[simp] theorem Group.mapLanes_helper (g : Group) (f : Nat → Lane → Lane) : (g.mapLanes f).helper = g.helper := rfl
@[simp] theorem Group.mapLanes_trapq (g : Group) (f : Nat → Lane → Lane) : (g.mapLanes f).trapq = g.trapq := rfl
@[simp] theorem Group.mapLanes_hmode (g : Group) (f : Nat → Lane → Lane) : (g.mapLanes f).hmode = g.hmode := rfl
@[simp] theorem Group.mapLanes_log (g : Group) (f : Nat → Lane → Lane) : (g.mapLanes f).log = g.log := rfl
@[simp] theorem Group.mapLanes_reissue (g : Group) (f : Nat → Lane → Lane) : (g.mapLanes f).reissue = g.reissue := rfl
@[simp] theorem Group.mapLanes_frames (g : Group) (f : Nat → Lane → Lane) : (g.mapLanes f).frames = g.frames := rfl
@[simp] theorem Group.mapLanes_block (g : Group) (f : Nat → Lane → Lane) : (g.mapLanes f).block = g.block := rfl
@[simp] theorem Group.mapLanes_fences (g : Group) (f : Nat → Lane → Lane) : (g.mapLanes f).fences = g.fences := rfl
@[simp] theorem Group.mapLanes_saved (g : Group) (f : Nat → Lane → Lane) : (g.mapLanes f).saved = g.saved := rfl
@[simp] theorem Group.mapLanes_gcall (g : Group) (f : Nat → Lane → Lane) : (g.mapLanes f).gcall = g.gcall := rfl
@[simp] theorem Group.mapLanes_held (g : Group) (f : Nat → Lane → Lane) : (g.mapLanes f).held = g.held := rfl
@[simp] theorem Group.mapLanes_dbgHeld (g : Group) (f : Nat → Lane → Lane) : (g.mapLanes f).dbgHeld = g.dbgHeld := rfl
@[simp] theorem Group.mapLanes_once (g : Group) (f : Nat → Lane → Lane) : (g.mapLanes f).once = g.once := rfl
@[simp] theorem Group.mapLanes_poison (g : Group) (f : Nat → Lane → Lane) : (g.mapLanes f).poison = g.poison := rfl
@[simp] theorem Group.mapLanes_active (g : Group) (f : Nat → Lane → Lane) : (g.mapLanes f).active = g.active := rfl
@[simp] theorem Group.mapLanes_readyAt (g : Group) (f : Nat → Lane → Lane) : (g.mapLanes f).readyAt = g.readyAt := rfl
@[simp] theorem Group.mapLanes_served (g : Group) (f : Nat → Lane → Lane) : (g.mapLanes f).served = g.served := rfl
@[simp] theorem Group.mapLanes_activeAt (g : Group) (f : Nat → Lane → Lane) : (g.mapLanes f).activeAt = g.activeAt := rfl
@[simp] theorem Group.mapLanes_word0 (g : Group) (f : Nat → Lane → Lane) : (g.mapLanes f).word0 = g.word0 := rfl
@[simp] theorem Group.mapLanes_pick (g : Group) (f : Nat → Lane → Lane) : (g.mapLanes f).pick = g.pick := rfl
@[simp] theorem Group.mapLanes_trIssues (g : Group) (f : Nat → Lane → Lane) : (g.mapLanes f).trIssues = g.trIssues := rfl
@[simp] theorem Group.mapLanes_trParks (g : Group) (f : Nat → Lane → Lane) : (g.mapLanes f).trParks = g.trParks := rfl
@[simp] theorem Group.mapLanes_trTraps (g : Group) (f : Nat → Lane → Lane) : (g.mapLanes f).trTraps = g.trTraps := rfl
@[simp] theorem Group.mapLanes_trBlocked (g : Group) (f : Nat → Lane → Lane) : (g.mapLanes f).trBlocked = g.trBlocked := rfl
@[simp] theorem Group.mapLanes_am (g : Group) (f : Nat → Lane → Lane) : (g.mapLanes f).am = g.am := rfl
@[simp] theorem Group.mapLanes_dead (g : Group) (f : Nat → Lane → Lane) : (g.mapLanes f).dead = g.dead := rfl
@[simp] theorem Group.onLanes_isSeq (g : Group) (m : Word) (f : Lane → Lane) : (g.onLanes m f).isSeq = g.isSeq := rfl
@[simp] theorem Group.onLanes_ctx0 (g : Group) (m : Word) (f : Lane → Lane) : (g.onLanes m f).ctx0 = g.ctx0 := rfl
@[simp] theorem Group.onLanes_ctx (g : Group) (m : Word) (f : Lane → Lane) : (g.onLanes m f).ctx = g.ctx := rfl
@[simp] theorem Group.onLanes_launch (g : Group) (m : Word) (f : Lane → Lane) : (g.onLanes m f).launch = g.launch := rfl
@[simp] theorem Group.onLanes_gang (g : Group) (m : Word) (f : Lane → Lane) : (g.onLanes m f).gang = g.gang := rfl
@[simp] theorem Group.onLanes_team (g : Group) (m : Word) (f : Lane → Lane) : (g.onLanes m f).team = g.team := rfl
@[simp] theorem Group.onLanes_grp (g : Group) (m : Word) (f : Lane → Lane) : (g.onLanes m f).grp = g.grp := rfl
@[simp] theorem Group.onLanes_cluster (g : Group) (m : Word) (f : Lane → Lane) : (g.onLanes m f).cluster = g.cluster := rfl
@[simp] theorem Group.onLanes_core (g : Group) (m : Word) (f : Lane → Lane) : (g.onLanes m f).core = g.core := rfl
@[simp] theorem Group.onLanes_v (g : Group) (m : Word) (f : Lane → Lane) : (g.onLanes m f).v = g.v := rfl
@[simp] theorem Group.onLanes_sc (g : Group) (m : Word) (f : Lane → Lane) : (g.onLanes m f).sc = g.sc := rfl
@[simp] theorem Group.onLanes_p (g : Group) (m : Word) (f : Lane → Lane) : (g.onLanes m f).p = g.p := rfl
@[simp] theorem Group.onLanes_b (g : Group) (m : Word) (f : Lane → Lane) : (g.onLanes m f).b = g.b := rfl
@[simp] theorem Group.onLanes_nregs (g : Group) (m : Word) (f : Lane → Lane) : (g.onLanes m f).nregs = g.nregs := rfl
@[simp] theorem Group.onLanes_sregs (g : Group) (m : Word) (f : Lane → Lane) : (g.onLanes m f).sregs = g.sregs := rfl
@[simp] theorem Group.onLanes_gmap (g : Group) (m : Word) (f : Lane → Lane) : (g.onLanes m f).gmap = g.gmap := rfl
@[simp] theorem Group.onLanes_ctime (g : Group) (m : Word) (f : Lane → Lane) : (g.onLanes m f).ctime = g.ctime := rfl
@[simp] theorem Group.onLanes_fpflags (g : Group) (m : Word) (f : Lane → Lane) : (g.onLanes m f).fpflags = g.fpflags := rfl
@[simp] theorem Group.onLanes_cstack (g : Group) (m : Word) (f : Lane → Lane) : (g.onLanes m f).cstack = g.cstack := rfl
@[simp] theorem Group.onLanes_args (g : Group) (m : Word) (f : Lane → Lane) : (g.onLanes m f).args = g.args := rfl
@[simp] theorem Group.onLanes_cnt (g : Group) (m : Word) (f : Lane → Lane) : (g.onLanes m f).cnt = g.cnt := rfl
@[simp] theorem Group.onLanes_mon (g : Group) (m : Word) (f : Lane → Lane) : (g.onLanes m f).mon = g.mon := rfl
@[simp] theorem Group.onLanes_helper (g : Group) (m : Word) (f : Lane → Lane) : (g.onLanes m f).helper = g.helper := rfl
@[simp] theorem Group.onLanes_trapq (g : Group) (m : Word) (f : Lane → Lane) : (g.onLanes m f).trapq = g.trapq := rfl
@[simp] theorem Group.onLanes_hmode (g : Group) (m : Word) (f : Lane → Lane) : (g.onLanes m f).hmode = g.hmode := rfl
@[simp] theorem Group.onLanes_log (g : Group) (m : Word) (f : Lane → Lane) : (g.onLanes m f).log = g.log := rfl
@[simp] theorem Group.onLanes_reissue (g : Group) (m : Word) (f : Lane → Lane) : (g.onLanes m f).reissue = g.reissue := rfl
@[simp] theorem Group.onLanes_frames (g : Group) (m : Word) (f : Lane → Lane) : (g.onLanes m f).frames = g.frames := rfl
@[simp] theorem Group.onLanes_block (g : Group) (m : Word) (f : Lane → Lane) : (g.onLanes m f).block = g.block := rfl
@[simp] theorem Group.onLanes_fences (g : Group) (m : Word) (f : Lane → Lane) : (g.onLanes m f).fences = g.fences := rfl
@[simp] theorem Group.onLanes_saved (g : Group) (m : Word) (f : Lane → Lane) : (g.onLanes m f).saved = g.saved := rfl
@[simp] theorem Group.onLanes_gcall (g : Group) (m : Word) (f : Lane → Lane) : (g.onLanes m f).gcall = g.gcall := rfl
@[simp] theorem Group.onLanes_held (g : Group) (m : Word) (f : Lane → Lane) : (g.onLanes m f).held = g.held := rfl
@[simp] theorem Group.onLanes_dbgHeld (g : Group) (m : Word) (f : Lane → Lane) : (g.onLanes m f).dbgHeld = g.dbgHeld := rfl
@[simp] theorem Group.onLanes_once (g : Group) (m : Word) (f : Lane → Lane) : (g.onLanes m f).once = g.once := rfl
@[simp] theorem Group.onLanes_poison (g : Group) (m : Word) (f : Lane → Lane) : (g.onLanes m f).poison = g.poison := rfl
@[simp] theorem Group.onLanes_active (g : Group) (m : Word) (f : Lane → Lane) : (g.onLanes m f).active = g.active := rfl
@[simp] theorem Group.onLanes_readyAt (g : Group) (m : Word) (f : Lane → Lane) : (g.onLanes m f).readyAt = g.readyAt := rfl
@[simp] theorem Group.onLanes_served (g : Group) (m : Word) (f : Lane → Lane) : (g.onLanes m f).served = g.served := rfl
@[simp] theorem Group.onLanes_activeAt (g : Group) (m : Word) (f : Lane → Lane) : (g.onLanes m f).activeAt = g.activeAt := rfl
@[simp] theorem Group.onLanes_word0 (g : Group) (m : Word) (f : Lane → Lane) : (g.onLanes m f).word0 = g.word0 := rfl
@[simp] theorem Group.onLanes_pick (g : Group) (m : Word) (f : Lane → Lane) : (g.onLanes m f).pick = g.pick := rfl
@[simp] theorem Group.onLanes_trIssues (g : Group) (m : Word) (f : Lane → Lane) : (g.onLanes m f).trIssues = g.trIssues := rfl
@[simp] theorem Group.onLanes_trParks (g : Group) (m : Word) (f : Lane → Lane) : (g.onLanes m f).trParks = g.trParks := rfl
@[simp] theorem Group.onLanes_trTraps (g : Group) (m : Word) (f : Lane → Lane) : (g.onLanes m f).trTraps = g.trTraps := rfl
@[simp] theorem Group.onLanes_trBlocked (g : Group) (m : Word) (f : Lane → Lane) : (g.onLanes m f).trBlocked = g.trBlocked := rfl
@[simp] theorem Group.onLanes_am (g : Group) (m : Word) (f : Lane → Lane) : (g.onLanes m f).am = g.am := rfl
@[simp] theorem Group.onLanes_dead (g : Group) (m : Word) (f : Lane → Lane) : (g.onLanes m f).dead = g.dead := rfl
@[simp] theorem Group.advance_isSeq (g : Group) (m : Word) : (g.advance m).isSeq = g.isSeq := rfl
@[simp] theorem Group.advance_ctx0 (g : Group) (m : Word) : (g.advance m).ctx0 = g.ctx0 := rfl
@[simp] theorem Group.advance_ctx (g : Group) (m : Word) : (g.advance m).ctx = g.ctx := rfl
@[simp] theorem Group.advance_launch (g : Group) (m : Word) : (g.advance m).launch = g.launch := rfl
@[simp] theorem Group.advance_gang (g : Group) (m : Word) : (g.advance m).gang = g.gang := rfl
@[simp] theorem Group.advance_team (g : Group) (m : Word) : (g.advance m).team = g.team := rfl
@[simp] theorem Group.advance_grp (g : Group) (m : Word) : (g.advance m).grp = g.grp := rfl
@[simp] theorem Group.advance_cluster (g : Group) (m : Word) : (g.advance m).cluster = g.cluster := rfl
@[simp] theorem Group.advance_core (g : Group) (m : Word) : (g.advance m).core = g.core := rfl
@[simp] theorem Group.advance_v (g : Group) (m : Word) : (g.advance m).v = g.v := rfl
@[simp] theorem Group.advance_sc (g : Group) (m : Word) : (g.advance m).sc = g.sc := rfl
@[simp] theorem Group.advance_p (g : Group) (m : Word) : (g.advance m).p = g.p := rfl
@[simp] theorem Group.advance_b (g : Group) (m : Word) : (g.advance m).b = g.b := rfl
@[simp] theorem Group.advance_nregs (g : Group) (m : Word) : (g.advance m).nregs = g.nregs := rfl
@[simp] theorem Group.advance_sregs (g : Group) (m : Word) : (g.advance m).sregs = g.sregs := rfl
@[simp] theorem Group.advance_gmap (g : Group) (m : Word) : (g.advance m).gmap = g.gmap := rfl
@[simp] theorem Group.advance_ctime (g : Group) (m : Word) : (g.advance m).ctime = g.ctime := rfl
@[simp] theorem Group.advance_fpflags (g : Group) (m : Word) : (g.advance m).fpflags = g.fpflags := rfl
@[simp] theorem Group.advance_cstack (g : Group) (m : Word) : (g.advance m).cstack = g.cstack := rfl
@[simp] theorem Group.advance_args (g : Group) (m : Word) : (g.advance m).args = g.args := rfl
@[simp] theorem Group.advance_cnt (g : Group) (m : Word) : (g.advance m).cnt = g.cnt := rfl
@[simp] theorem Group.advance_mon (g : Group) (m : Word) : (g.advance m).mon = g.mon := rfl
@[simp] theorem Group.advance_helper (g : Group) (m : Word) : (g.advance m).helper = g.helper := rfl
@[simp] theorem Group.advance_trapq (g : Group) (m : Word) : (g.advance m).trapq = g.trapq := rfl
@[simp] theorem Group.advance_hmode (g : Group) (m : Word) : (g.advance m).hmode = g.hmode := rfl
@[simp] theorem Group.advance_log (g : Group) (m : Word) : (g.advance m).log = g.log := rfl
@[simp] theorem Group.advance_reissue (g : Group) (m : Word) : (g.advance m).reissue = g.reissue := rfl
@[simp] theorem Group.advance_frames (g : Group) (m : Word) : (g.advance m).frames = g.frames := rfl
@[simp] theorem Group.advance_block (g : Group) (m : Word) : (g.advance m).block = g.block := rfl
@[simp] theorem Group.advance_fences (g : Group) (m : Word) : (g.advance m).fences = g.fences := rfl
@[simp] theorem Group.advance_saved (g : Group) (m : Word) : (g.advance m).saved = g.saved := rfl
@[simp] theorem Group.advance_gcall (g : Group) (m : Word) : (g.advance m).gcall = g.gcall := rfl
@[simp] theorem Group.advance_held (g : Group) (m : Word) : (g.advance m).held = g.held := rfl
@[simp] theorem Group.advance_dbgHeld (g : Group) (m : Word) : (g.advance m).dbgHeld = g.dbgHeld := rfl
@[simp] theorem Group.advance_once (g : Group) (m : Word) : (g.advance m).once = g.once := rfl
@[simp] theorem Group.advance_poison (g : Group) (m : Word) : (g.advance m).poison = g.poison := rfl
@[simp] theorem Group.advance_active (g : Group) (m : Word) : (g.advance m).active = g.active := rfl
@[simp] theorem Group.advance_readyAt (g : Group) (m : Word) : (g.advance m).readyAt = g.readyAt := rfl
@[simp] theorem Group.advance_served (g : Group) (m : Word) : (g.advance m).served = g.served := rfl
@[simp] theorem Group.advance_activeAt (g : Group) (m : Word) : (g.advance m).activeAt = g.activeAt := rfl
@[simp] theorem Group.advance_word0 (g : Group) (m : Word) : (g.advance m).word0 = g.word0 := rfl
@[simp] theorem Group.advance_pick (g : Group) (m : Word) : (g.advance m).pick = g.pick := rfl
@[simp] theorem Group.advance_trIssues (g : Group) (m : Word) : (g.advance m).trIssues = g.trIssues := rfl
@[simp] theorem Group.advance_trParks (g : Group) (m : Word) : (g.advance m).trParks = g.trParks := rfl
@[simp] theorem Group.advance_trTraps (g : Group) (m : Word) : (g.advance m).trTraps = g.trTraps := rfl
@[simp] theorem Group.advance_trBlocked (g : Group) (m : Word) : (g.advance m).trBlocked = g.trBlocked := rfl
@[simp] theorem Group.advance_am (g : Group) (m : Word) : (g.advance m).am = g.am := rfl
@[simp] theorem Group.advance_dead (g : Group) (m : Word) : (g.advance m).dead = g.dead := rfl
@[simp] theorem Group.resume_isSeq (g : Group) (m : Word) : (g.resume m).isSeq = g.isSeq := rfl
@[simp] theorem Group.resume_ctx0 (g : Group) (m : Word) : (g.resume m).ctx0 = g.ctx0 := rfl
@[simp] theorem Group.resume_ctx (g : Group) (m : Word) : (g.resume m).ctx = g.ctx := rfl
@[simp] theorem Group.resume_launch (g : Group) (m : Word) : (g.resume m).launch = g.launch := rfl
@[simp] theorem Group.resume_gang (g : Group) (m : Word) : (g.resume m).gang = g.gang := rfl
@[simp] theorem Group.resume_team (g : Group) (m : Word) : (g.resume m).team = g.team := rfl
@[simp] theorem Group.resume_grp (g : Group) (m : Word) : (g.resume m).grp = g.grp := rfl
@[simp] theorem Group.resume_cluster (g : Group) (m : Word) : (g.resume m).cluster = g.cluster := rfl
@[simp] theorem Group.resume_core (g : Group) (m : Word) : (g.resume m).core = g.core := rfl
@[simp] theorem Group.resume_v (g : Group) (m : Word) : (g.resume m).v = g.v := rfl
@[simp] theorem Group.resume_sc (g : Group) (m : Word) : (g.resume m).sc = g.sc := rfl
@[simp] theorem Group.resume_p (g : Group) (m : Word) : (g.resume m).p = g.p := rfl
@[simp] theorem Group.resume_b (g : Group) (m : Word) : (g.resume m).b = g.b := rfl
@[simp] theorem Group.resume_nregs (g : Group) (m : Word) : (g.resume m).nregs = g.nregs := rfl
@[simp] theorem Group.resume_sregs (g : Group) (m : Word) : (g.resume m).sregs = g.sregs := rfl
@[simp] theorem Group.resume_gmap (g : Group) (m : Word) : (g.resume m).gmap = g.gmap := rfl
@[simp] theorem Group.resume_ctime (g : Group) (m : Word) : (g.resume m).ctime = g.ctime := rfl
@[simp] theorem Group.resume_fpflags (g : Group) (m : Word) : (g.resume m).fpflags = g.fpflags := rfl
@[simp] theorem Group.resume_cstack (g : Group) (m : Word) : (g.resume m).cstack = g.cstack := rfl
@[simp] theorem Group.resume_args (g : Group) (m : Word) : (g.resume m).args = g.args := rfl
@[simp] theorem Group.resume_cnt (g : Group) (m : Word) : (g.resume m).cnt = g.cnt := rfl
@[simp] theorem Group.resume_mon (g : Group) (m : Word) : (g.resume m).mon = g.mon := rfl
@[simp] theorem Group.resume_helper (g : Group) (m : Word) : (g.resume m).helper = g.helper := rfl
@[simp] theorem Group.resume_trapq (g : Group) (m : Word) : (g.resume m).trapq = g.trapq := rfl
@[simp] theorem Group.resume_hmode (g : Group) (m : Word) : (g.resume m).hmode = g.hmode := rfl
@[simp] theorem Group.resume_log (g : Group) (m : Word) : (g.resume m).log = g.log := rfl
@[simp] theorem Group.resume_reissue (g : Group) (m : Word) : (g.resume m).reissue = g.reissue := rfl
@[simp] theorem Group.resume_frames (g : Group) (m : Word) : (g.resume m).frames = g.frames := rfl
@[simp] theorem Group.resume_block (g : Group) (m : Word) : (g.resume m).block = g.block := rfl
@[simp] theorem Group.resume_fences (g : Group) (m : Word) : (g.resume m).fences = g.fences := rfl
@[simp] theorem Group.resume_saved (g : Group) (m : Word) : (g.resume m).saved = g.saved := rfl
@[simp] theorem Group.resume_gcall (g : Group) (m : Word) : (g.resume m).gcall = g.gcall := rfl
@[simp] theorem Group.resume_held (g : Group) (m : Word) : (g.resume m).held = g.held := rfl
@[simp] theorem Group.resume_dbgHeld (g : Group) (m : Word) : (g.resume m).dbgHeld = g.dbgHeld := rfl
@[simp] theorem Group.resume_once (g : Group) (m : Word) : (g.resume m).once = g.once := rfl
@[simp] theorem Group.resume_poison (g : Group) (m : Word) : (g.resume m).poison = g.poison := rfl
@[simp] theorem Group.resume_active (g : Group) (m : Word) : (g.resume m).active = g.active := rfl
@[simp] theorem Group.resume_readyAt (g : Group) (m : Word) : (g.resume m).readyAt = g.readyAt := rfl
@[simp] theorem Group.resume_served (g : Group) (m : Word) : (g.resume m).served = g.served := rfl
@[simp] theorem Group.resume_activeAt (g : Group) (m : Word) : (g.resume m).activeAt = g.activeAt := rfl
@[simp] theorem Group.resume_word0 (g : Group) (m : Word) : (g.resume m).word0 = g.word0 := rfl
@[simp] theorem Group.resume_pick (g : Group) (m : Word) : (g.resume m).pick = g.pick := rfl
@[simp] theorem Group.resume_trIssues (g : Group) (m : Word) : (g.resume m).trIssues = g.trIssues := rfl
@[simp] theorem Group.resume_trParks (g : Group) (m : Word) : (g.resume m).trParks = g.trParks := rfl
@[simp] theorem Group.resume_trTraps (g : Group) (m : Word) : (g.resume m).trTraps = g.trTraps := rfl
@[simp] theorem Group.resume_trBlocked (g : Group) (m : Word) : (g.resume m).trBlocked = g.trBlocked := rfl
@[simp] theorem Group.resume_am (g : Group) (m : Word) : (g.resume m).am = g.am := rfl
@[simp] theorem Group.resume_dead (g : Group) (m : Word) : (g.resume m).dead = g.dead := rfl
@[simp] theorem Group.raiseCtime_isSeq (g : Group) (t : Nat) : (g.raiseCtime t).isSeq = g.isSeq := rfl
@[simp] theorem Group.raiseCtime_ctx0 (g : Group) (t : Nat) : (g.raiseCtime t).ctx0 = g.ctx0 := rfl
@[simp] theorem Group.raiseCtime_ctx (g : Group) (t : Nat) : (g.raiseCtime t).ctx = g.ctx := rfl
@[simp] theorem Group.raiseCtime_launch (g : Group) (t : Nat) : (g.raiseCtime t).launch = g.launch := rfl
@[simp] theorem Group.raiseCtime_gang (g : Group) (t : Nat) : (g.raiseCtime t).gang = g.gang := rfl
@[simp] theorem Group.raiseCtime_team (g : Group) (t : Nat) : (g.raiseCtime t).team = g.team := rfl
@[simp] theorem Group.raiseCtime_grp (g : Group) (t : Nat) : (g.raiseCtime t).grp = g.grp := rfl
@[simp] theorem Group.raiseCtime_cluster (g : Group) (t : Nat) : (g.raiseCtime t).cluster = g.cluster := rfl
@[simp] theorem Group.raiseCtime_core (g : Group) (t : Nat) : (g.raiseCtime t).core = g.core := rfl
@[simp] theorem Group.raiseCtime_lanes (g : Group) (t : Nat) : (g.raiseCtime t).lanes = g.lanes := rfl
@[simp] theorem Group.raiseCtime_v (g : Group) (t : Nat) : (g.raiseCtime t).v = g.v := rfl
@[simp] theorem Group.raiseCtime_sc (g : Group) (t : Nat) : (g.raiseCtime t).sc = g.sc := rfl
@[simp] theorem Group.raiseCtime_p (g : Group) (t : Nat) : (g.raiseCtime t).p = g.p := rfl
@[simp] theorem Group.raiseCtime_b (g : Group) (t : Nat) : (g.raiseCtime t).b = g.b := rfl
@[simp] theorem Group.raiseCtime_nregs (g : Group) (t : Nat) : (g.raiseCtime t).nregs = g.nregs := rfl
@[simp] theorem Group.raiseCtime_sregs (g : Group) (t : Nat) : (g.raiseCtime t).sregs = g.sregs := rfl
@[simp] theorem Group.raiseCtime_gmap (g : Group) (t : Nat) : (g.raiseCtime t).gmap = g.gmap := rfl
@[simp] theorem Group.raiseCtime_fpflags (g : Group) (t : Nat) : (g.raiseCtime t).fpflags = g.fpflags := rfl
@[simp] theorem Group.raiseCtime_cstack (g : Group) (t : Nat) : (g.raiseCtime t).cstack = g.cstack := rfl
@[simp] theorem Group.raiseCtime_args (g : Group) (t : Nat) : (g.raiseCtime t).args = g.args := rfl
@[simp] theorem Group.raiseCtime_cnt (g : Group) (t : Nat) : (g.raiseCtime t).cnt = g.cnt := rfl
@[simp] theorem Group.raiseCtime_mon (g : Group) (t : Nat) : (g.raiseCtime t).mon = g.mon := rfl
@[simp] theorem Group.raiseCtime_helper (g : Group) (t : Nat) : (g.raiseCtime t).helper = g.helper := rfl
@[simp] theorem Group.raiseCtime_trapq (g : Group) (t : Nat) : (g.raiseCtime t).trapq = g.trapq := rfl
@[simp] theorem Group.raiseCtime_hmode (g : Group) (t : Nat) : (g.raiseCtime t).hmode = g.hmode := rfl
@[simp] theorem Group.raiseCtime_log (g : Group) (t : Nat) : (g.raiseCtime t).log = g.log := rfl
@[simp] theorem Group.raiseCtime_reissue (g : Group) (t : Nat) : (g.raiseCtime t).reissue = g.reissue := rfl
@[simp] theorem Group.raiseCtime_frames (g : Group) (t : Nat) : (g.raiseCtime t).frames = g.frames := rfl
@[simp] theorem Group.raiseCtime_block (g : Group) (t : Nat) : (g.raiseCtime t).block = g.block := rfl
@[simp] theorem Group.raiseCtime_fences (g : Group) (t : Nat) : (g.raiseCtime t).fences = g.fences := rfl
@[simp] theorem Group.raiseCtime_saved (g : Group) (t : Nat) : (g.raiseCtime t).saved = g.saved := rfl
@[simp] theorem Group.raiseCtime_gcall (g : Group) (t : Nat) : (g.raiseCtime t).gcall = g.gcall := rfl
@[simp] theorem Group.raiseCtime_held (g : Group) (t : Nat) : (g.raiseCtime t).held = g.held := rfl
@[simp] theorem Group.raiseCtime_dbgHeld (g : Group) (t : Nat) : (g.raiseCtime t).dbgHeld = g.dbgHeld := rfl
@[simp] theorem Group.raiseCtime_once (g : Group) (t : Nat) : (g.raiseCtime t).once = g.once := rfl
@[simp] theorem Group.raiseCtime_poison (g : Group) (t : Nat) : (g.raiseCtime t).poison = g.poison := rfl
@[simp] theorem Group.raiseCtime_active (g : Group) (t : Nat) : (g.raiseCtime t).active = g.active := rfl
@[simp] theorem Group.raiseCtime_readyAt (g : Group) (t : Nat) : (g.raiseCtime t).readyAt = g.readyAt := rfl
@[simp] theorem Group.raiseCtime_served (g : Group) (t : Nat) : (g.raiseCtime t).served = g.served := rfl
@[simp] theorem Group.raiseCtime_activeAt (g : Group) (t : Nat) : (g.raiseCtime t).activeAt = g.activeAt := rfl
@[simp] theorem Group.raiseCtime_word0 (g : Group) (t : Nat) : (g.raiseCtime t).word0 = g.word0 := rfl
@[simp] theorem Group.raiseCtime_pick (g : Group) (t : Nat) : (g.raiseCtime t).pick = g.pick := rfl
@[simp] theorem Group.raiseCtime_trIssues (g : Group) (t : Nat) : (g.raiseCtime t).trIssues = g.trIssues := rfl
@[simp] theorem Group.raiseCtime_trParks (g : Group) (t : Nat) : (g.raiseCtime t).trParks = g.trParks := rfl
@[simp] theorem Group.raiseCtime_trTraps (g : Group) (t : Nat) : (g.raiseCtime t).trTraps = g.trTraps := rfl
@[simp] theorem Group.raiseCtime_trBlocked (g : Group) (t : Nat) : (g.raiseCtime t).trBlocked = g.trBlocked := rfl
@[simp] theorem Group.raiseCtime_am (g : Group) (t : Nat) : (g.raiseCtime t).am = g.am := rfl
@[simp] theorem Group.raiseCtime_dead (g : Group) (t : Nat) : (g.raiseCtime t).dead = g.dead := rfl
@[simp] theorem Group.raise_isSeq (g : Group) (fl : Flags) : (g.raise fl).isSeq = g.isSeq := rfl
@[simp] theorem Group.raise_ctx0 (g : Group) (fl : Flags) : (g.raise fl).ctx0 = g.ctx0 := rfl
@[simp] theorem Group.raise_ctx (g : Group) (fl : Flags) : (g.raise fl).ctx = g.ctx := rfl
@[simp] theorem Group.raise_launch (g : Group) (fl : Flags) : (g.raise fl).launch = g.launch := rfl
@[simp] theorem Group.raise_gang (g : Group) (fl : Flags) : (g.raise fl).gang = g.gang := rfl
@[simp] theorem Group.raise_team (g : Group) (fl : Flags) : (g.raise fl).team = g.team := rfl
@[simp] theorem Group.raise_grp (g : Group) (fl : Flags) : (g.raise fl).grp = g.grp := rfl
@[simp] theorem Group.raise_cluster (g : Group) (fl : Flags) : (g.raise fl).cluster = g.cluster := rfl
@[simp] theorem Group.raise_core (g : Group) (fl : Flags) : (g.raise fl).core = g.core := rfl
@[simp] theorem Group.raise_lanes (g : Group) (fl : Flags) : (g.raise fl).lanes = g.lanes := rfl
@[simp] theorem Group.raise_v (g : Group) (fl : Flags) : (g.raise fl).v = g.v := rfl
@[simp] theorem Group.raise_sc (g : Group) (fl : Flags) : (g.raise fl).sc = g.sc := rfl
@[simp] theorem Group.raise_p (g : Group) (fl : Flags) : (g.raise fl).p = g.p := rfl
@[simp] theorem Group.raise_b (g : Group) (fl : Flags) : (g.raise fl).b = g.b := rfl
@[simp] theorem Group.raise_nregs (g : Group) (fl : Flags) : (g.raise fl).nregs = g.nregs := rfl
@[simp] theorem Group.raise_sregs (g : Group) (fl : Flags) : (g.raise fl).sregs = g.sregs := rfl
@[simp] theorem Group.raise_gmap (g : Group) (fl : Flags) : (g.raise fl).gmap = g.gmap := rfl
@[simp] theorem Group.raise_ctime (g : Group) (fl : Flags) : (g.raise fl).ctime = g.ctime := rfl
@[simp] theorem Group.raise_cstack (g : Group) (fl : Flags) : (g.raise fl).cstack = g.cstack := rfl
@[simp] theorem Group.raise_args (g : Group) (fl : Flags) : (g.raise fl).args = g.args := rfl
@[simp] theorem Group.raise_cnt (g : Group) (fl : Flags) : (g.raise fl).cnt = g.cnt := rfl
@[simp] theorem Group.raise_mon (g : Group) (fl : Flags) : (g.raise fl).mon = g.mon := rfl
@[simp] theorem Group.raise_helper (g : Group) (fl : Flags) : (g.raise fl).helper = g.helper := rfl
@[simp] theorem Group.raise_trapq (g : Group) (fl : Flags) : (g.raise fl).trapq = g.trapq := rfl
@[simp] theorem Group.raise_hmode (g : Group) (fl : Flags) : (g.raise fl).hmode = g.hmode := rfl
@[simp] theorem Group.raise_log (g : Group) (fl : Flags) : (g.raise fl).log = g.log := rfl
@[simp] theorem Group.raise_reissue (g : Group) (fl : Flags) : (g.raise fl).reissue = g.reissue := rfl
@[simp] theorem Group.raise_frames (g : Group) (fl : Flags) : (g.raise fl).frames = g.frames := rfl
@[simp] theorem Group.raise_block (g : Group) (fl : Flags) : (g.raise fl).block = g.block := rfl
@[simp] theorem Group.raise_fences (g : Group) (fl : Flags) : (g.raise fl).fences = g.fences := rfl
@[simp] theorem Group.raise_saved (g : Group) (fl : Flags) : (g.raise fl).saved = g.saved := rfl
@[simp] theorem Group.raise_gcall (g : Group) (fl : Flags) : (g.raise fl).gcall = g.gcall := rfl
@[simp] theorem Group.raise_held (g : Group) (fl : Flags) : (g.raise fl).held = g.held := rfl
@[simp] theorem Group.raise_dbgHeld (g : Group) (fl : Flags) : (g.raise fl).dbgHeld = g.dbgHeld := rfl
@[simp] theorem Group.raise_once (g : Group) (fl : Flags) : (g.raise fl).once = g.once := rfl
@[simp] theorem Group.raise_poison (g : Group) (fl : Flags) : (g.raise fl).poison = g.poison := rfl
@[simp] theorem Group.raise_active (g : Group) (fl : Flags) : (g.raise fl).active = g.active := rfl
@[simp] theorem Group.raise_readyAt (g : Group) (fl : Flags) : (g.raise fl).readyAt = g.readyAt := rfl
@[simp] theorem Group.raise_served (g : Group) (fl : Flags) : (g.raise fl).served = g.served := rfl
@[simp] theorem Group.raise_activeAt (g : Group) (fl : Flags) : (g.raise fl).activeAt = g.activeAt := rfl
@[simp] theorem Group.raise_word0 (g : Group) (fl : Flags) : (g.raise fl).word0 = g.word0 := rfl
@[simp] theorem Group.raise_pick (g : Group) (fl : Flags) : (g.raise fl).pick = g.pick := rfl
@[simp] theorem Group.raise_trIssues (g : Group) (fl : Flags) : (g.raise fl).trIssues = g.trIssues := rfl
@[simp] theorem Group.raise_trParks (g : Group) (fl : Flags) : (g.raise fl).trParks = g.trParks := rfl
@[simp] theorem Group.raise_trTraps (g : Group) (fl : Flags) : (g.raise fl).trTraps = g.trTraps := rfl
@[simp] theorem Group.raise_trBlocked (g : Group) (fl : Flags) : (g.raise fl).trBlocked = g.trBlocked := rfl
@[simp] theorem Group.raise_am (g : Group) (fl : Flags) : (g.raise fl).am = g.am := rfl
@[simp] theorem Group.raise_dead (g : Group) (fl : Flags) : (g.raise fl).dead = g.dead := rfl
@[simp] theorem Group.count_isSeq (g : Group) (k : Cls) : (g.count k).isSeq = g.isSeq := rfl
@[simp] theorem Group.count_ctx0 (g : Group) (k : Cls) : (g.count k).ctx0 = g.ctx0 := rfl
@[simp] theorem Group.count_ctx (g : Group) (k : Cls) : (g.count k).ctx = g.ctx := rfl
@[simp] theorem Group.count_launch (g : Group) (k : Cls) : (g.count k).launch = g.launch := rfl
@[simp] theorem Group.count_gang (g : Group) (k : Cls) : (g.count k).gang = g.gang := rfl
@[simp] theorem Group.count_team (g : Group) (k : Cls) : (g.count k).team = g.team := rfl
@[simp] theorem Group.count_grp (g : Group) (k : Cls) : (g.count k).grp = g.grp := rfl
@[simp] theorem Group.count_cluster (g : Group) (k : Cls) : (g.count k).cluster = g.cluster := rfl
@[simp] theorem Group.count_core (g : Group) (k : Cls) : (g.count k).core = g.core := rfl
@[simp] theorem Group.count_lanes (g : Group) (k : Cls) : (g.count k).lanes = g.lanes := rfl
@[simp] theorem Group.count_v (g : Group) (k : Cls) : (g.count k).v = g.v := rfl
@[simp] theorem Group.count_sc (g : Group) (k : Cls) : (g.count k).sc = g.sc := rfl
@[simp] theorem Group.count_p (g : Group) (k : Cls) : (g.count k).p = g.p := rfl
@[simp] theorem Group.count_b (g : Group) (k : Cls) : (g.count k).b = g.b := rfl
@[simp] theorem Group.count_nregs (g : Group) (k : Cls) : (g.count k).nregs = g.nregs := rfl
@[simp] theorem Group.count_sregs (g : Group) (k : Cls) : (g.count k).sregs = g.sregs := rfl
@[simp] theorem Group.count_gmap (g : Group) (k : Cls) : (g.count k).gmap = g.gmap := rfl
@[simp] theorem Group.count_ctime (g : Group) (k : Cls) : (g.count k).ctime = g.ctime := rfl
@[simp] theorem Group.count_fpflags (g : Group) (k : Cls) : (g.count k).fpflags = g.fpflags := rfl
@[simp] theorem Group.count_cstack (g : Group) (k : Cls) : (g.count k).cstack = g.cstack := rfl
@[simp] theorem Group.count_args (g : Group) (k : Cls) : (g.count k).args = g.args := rfl
@[simp] theorem Group.count_mon (g : Group) (k : Cls) : (g.count k).mon = g.mon := rfl
@[simp] theorem Group.count_helper (g : Group) (k : Cls) : (g.count k).helper = g.helper := rfl
@[simp] theorem Group.count_trapq (g : Group) (k : Cls) : (g.count k).trapq = g.trapq := rfl
@[simp] theorem Group.count_hmode (g : Group) (k : Cls) : (g.count k).hmode = g.hmode := rfl
@[simp] theorem Group.count_log (g : Group) (k : Cls) : (g.count k).log = g.log := rfl
@[simp] theorem Group.count_reissue (g : Group) (k : Cls) : (g.count k).reissue = g.reissue := rfl
@[simp] theorem Group.count_frames (g : Group) (k : Cls) : (g.count k).frames = g.frames := rfl
@[simp] theorem Group.count_block (g : Group) (k : Cls) : (g.count k).block = g.block := rfl
@[simp] theorem Group.count_fences (g : Group) (k : Cls) : (g.count k).fences = g.fences := rfl
@[simp] theorem Group.count_saved (g : Group) (k : Cls) : (g.count k).saved = g.saved := rfl
@[simp] theorem Group.count_gcall (g : Group) (k : Cls) : (g.count k).gcall = g.gcall := rfl
@[simp] theorem Group.count_held (g : Group) (k : Cls) : (g.count k).held = g.held := rfl
@[simp] theorem Group.count_dbgHeld (g : Group) (k : Cls) : (g.count k).dbgHeld = g.dbgHeld := rfl
@[simp] theorem Group.count_once (g : Group) (k : Cls) : (g.count k).once = g.once := rfl
@[simp] theorem Group.count_poison (g : Group) (k : Cls) : (g.count k).poison = g.poison := rfl
@[simp] theorem Group.count_active (g : Group) (k : Cls) : (g.count k).active = g.active := rfl
@[simp] theorem Group.count_readyAt (g : Group) (k : Cls) : (g.count k).readyAt = g.readyAt := rfl
@[simp] theorem Group.count_served (g : Group) (k : Cls) : (g.count k).served = g.served := rfl
@[simp] theorem Group.count_activeAt (g : Group) (k : Cls) : (g.count k).activeAt = g.activeAt := rfl
@[simp] theorem Group.count_word0 (g : Group) (k : Cls) : (g.count k).word0 = g.word0 := rfl
@[simp] theorem Group.count_pick (g : Group) (k : Cls) : (g.count k).pick = g.pick := rfl
@[simp] theorem Group.count_trIssues (g : Group) (k : Cls) : (g.count k).trIssues = g.trIssues := rfl
@[simp] theorem Group.count_trParks (g : Group) (k : Cls) : (g.count k).trParks = g.trParks := rfl
@[simp] theorem Group.count_trTraps (g : Group) (k : Cls) : (g.count k).trTraps = g.trTraps := rfl
@[simp] theorem Group.count_trBlocked (g : Group) (k : Cls) : (g.count k).trBlocked = g.trBlocked := rfl
@[simp] theorem Group.count_am (g : Group) (k : Cls) : (g.count k).am = g.am := rfl
@[simp] theorem Group.count_dead (g : Group) (k : Cls) : (g.count k).dead = g.dead := rfl
@[simp] theorem Group.finish_isSeq (g : Group) (k : Cls) (p : Nat) : (g.finish k p).isSeq = g.isSeq := rfl
@[simp] theorem Group.finish_ctx0 (g : Group) (k : Cls) (p : Nat) : (g.finish k p).ctx0 = g.ctx0 := rfl
@[simp] theorem Group.finish_ctx (g : Group) (k : Cls) (p : Nat) : (g.finish k p).ctx = g.ctx := rfl
@[simp] theorem Group.finish_launch (g : Group) (k : Cls) (p : Nat) : (g.finish k p).launch = g.launch := rfl
@[simp] theorem Group.finish_gang (g : Group) (k : Cls) (p : Nat) : (g.finish k p).gang = g.gang := rfl
@[simp] theorem Group.finish_team (g : Group) (k : Cls) (p : Nat) : (g.finish k p).team = g.team := rfl
@[simp] theorem Group.finish_grp (g : Group) (k : Cls) (p : Nat) : (g.finish k p).grp = g.grp := rfl
@[simp] theorem Group.finish_cluster (g : Group) (k : Cls) (p : Nat) : (g.finish k p).cluster = g.cluster := rfl
@[simp] theorem Group.finish_core (g : Group) (k : Cls) (p : Nat) : (g.finish k p).core = g.core := rfl
@[simp] theorem Group.finish_lanes (g : Group) (k : Cls) (p : Nat) : (g.finish k p).lanes = g.lanes := rfl
@[simp] theorem Group.finish_v (g : Group) (k : Cls) (p : Nat) : (g.finish k p).v = g.v := rfl
@[simp] theorem Group.finish_sc (g : Group) (k : Cls) (p : Nat) : (g.finish k p).sc = g.sc := rfl
@[simp] theorem Group.finish_p (g : Group) (k : Cls) (p : Nat) : (g.finish k p).p = g.p := rfl
@[simp] theorem Group.finish_b (g : Group) (k : Cls) (p : Nat) : (g.finish k p).b = g.b := rfl
@[simp] theorem Group.finish_nregs (g : Group) (k : Cls) (p : Nat) : (g.finish k p).nregs = g.nregs := rfl
@[simp] theorem Group.finish_sregs (g : Group) (k : Cls) (p : Nat) : (g.finish k p).sregs = g.sregs := rfl
@[simp] theorem Group.finish_gmap (g : Group) (k : Cls) (p : Nat) : (g.finish k p).gmap = g.gmap := rfl
@[simp] theorem Group.finish_ctime (g : Group) (k : Cls) (p : Nat) : (g.finish k p).ctime = g.ctime := rfl
@[simp] theorem Group.finish_fpflags (g : Group) (k : Cls) (p : Nat) : (g.finish k p).fpflags = g.fpflags := rfl
@[simp] theorem Group.finish_cstack (g : Group) (k : Cls) (p : Nat) : (g.finish k p).cstack = g.cstack := rfl
@[simp] theorem Group.finish_args (g : Group) (k : Cls) (p : Nat) : (g.finish k p).args = g.args := rfl
@[simp] theorem Group.finish_mon (g : Group) (k : Cls) (p : Nat) : (g.finish k p).mon = g.mon := rfl
@[simp] theorem Group.finish_helper (g : Group) (k : Cls) (p : Nat) : (g.finish k p).helper = g.helper := rfl
@[simp] theorem Group.finish_trapq (g : Group) (k : Cls) (p : Nat) : (g.finish k p).trapq = g.trapq := rfl
@[simp] theorem Group.finish_hmode (g : Group) (k : Cls) (p : Nat) : (g.finish k p).hmode = g.hmode := rfl
@[simp] theorem Group.finish_log (g : Group) (k : Cls) (p : Nat) : (g.finish k p).log = g.log := rfl
@[simp] theorem Group.finish_reissue (g : Group) (k : Cls) (p : Nat) : (g.finish k p).reissue = g.reissue := rfl
@[simp] theorem Group.finish_frames (g : Group) (k : Cls) (p : Nat) : (g.finish k p).frames = g.frames := rfl
@[simp] theorem Group.finish_block (g : Group) (k : Cls) (p : Nat) : (g.finish k p).block = g.block := rfl
@[simp] theorem Group.finish_fences (g : Group) (k : Cls) (p : Nat) : (g.finish k p).fences = g.fences := rfl
@[simp] theorem Group.finish_saved (g : Group) (k : Cls) (p : Nat) : (g.finish k p).saved = g.saved := rfl
@[simp] theorem Group.finish_gcall (g : Group) (k : Cls) (p : Nat) : (g.finish k p).gcall = g.gcall := rfl
@[simp] theorem Group.finish_held (g : Group) (k : Cls) (p : Nat) : (g.finish k p).held = g.held := rfl
@[simp] theorem Group.finish_dbgHeld (g : Group) (k : Cls) (p : Nat) : (g.finish k p).dbgHeld = g.dbgHeld := rfl
@[simp] theorem Group.finish_once (g : Group) (k : Cls) (p : Nat) : (g.finish k p).once = g.once := rfl
@[simp] theorem Group.finish_poison (g : Group) (k : Cls) (p : Nat) : (g.finish k p).poison = g.poison := rfl
@[simp] theorem Group.finish_active (g : Group) (k : Cls) (p : Nat) : (g.finish k p).active = g.active := rfl
@[simp] theorem Group.finish_readyAt (g : Group) (k : Cls) (p : Nat) : (g.finish k p).readyAt = g.readyAt := rfl
@[simp] theorem Group.finish_served (g : Group) (k : Cls) (p : Nat) : (g.finish k p).served = g.served := rfl
@[simp] theorem Group.finish_activeAt (g : Group) (k : Cls) (p : Nat) : (g.finish k p).activeAt = g.activeAt := rfl
@[simp] theorem Group.finish_word0 (g : Group) (k : Cls) (p : Nat) : (g.finish k p).word0 = g.word0 := rfl
@[simp] theorem Group.finish_pick (g : Group) (k : Cls) (p : Nat) : (g.finish k p).pick = g.pick := rfl
@[simp] theorem Group.finish_trIssues (g : Group) (k : Cls) (p : Nat) : (g.finish k p).trIssues = g.trIssues := rfl
@[simp] theorem Group.finish_trParks (g : Group) (k : Cls) (p : Nat) : (g.finish k p).trParks = g.trParks := rfl
@[simp] theorem Group.finish_trTraps (g : Group) (k : Cls) (p : Nat) : (g.finish k p).trTraps = g.trTraps := rfl
@[simp] theorem Group.finish_trBlocked (g : Group) (k : Cls) (p : Nat) : (g.finish k p).trBlocked = g.trBlocked := rfl
@[simp] theorem Group.finish_am (g : Group) (k : Cls) (p : Nat) : (g.finish k p).am = g.am := rfl
@[simp] theorem Group.finish_dead (g : Group) (k : Cls) (p : Nat) : (g.finish k p).dead = g.dead := rfl

/-! ### The changed field -/

theorem State.grp?_updGrp (s : State) (k j : Nat) (f : Group → Group) :
    (s.updGrp k f).grp? j = if k = j then (s.grp? j).map f else s.grp? j := mfind_mupd s.groups k j f

theorem State.grp?_updGrp_same {s : State} {k : Nat} {g : Group} (h : s.grp? k = some g) (f : Group → Group) :
    (s.updGrp k f).grp? k = some (f g) := by simp [State.grp?_updGrp, h]

theorem State.grp?_updGrp_other {s : State} {k j : Nat} (h : k ≠ j) (f : Group → Group) : (s.updGrp k f).grp? j = s.grp? j := by
  simp [State.grp?_updGrp, h]

@[simp] theorem State.updGrp_groups (s : State) (k : Nat) (f : Group → Group) : (s.updGrp k f).groups = mupd s.groups k f := rfl

/-- Every byte that a store does not write reads as before, and a byte that it writes reads as written. -/
theorem State.readByte_writeMem (s : State) (a n x b : Nat) :
    (s.writeMem a n x).readByte b = if a ≤ b ∧ b < a + n then (leBytes n x).getD (b - a) byteZero else s.readByte b := by
  unfold State.readByte State.writeMem
  simp only
  rw [mget_msets, leBytes_length]

theorem State.writeMem_memWf (s : State) (a n x : Nat) (h : s.memWf = true) : (s.writeMem a n x).memWf = true := mwf_msets _ _ _ _ h

end Sys2Proof.Machine
end

