-- ==== Sys2Proof/Laws/Memory.lean ====
section
/-! SUPPORT. Laws/Memory.lean: every operation that writes the bytes of memory keeps their canonical form, and a code address that is
counted in slots is a valid one. -/

namespace Sys2Proof.Machine

theorem State.reset_memWf : State.reset.memWf = true := by decide

theorem State.placed_memWf (s : State) (w : Nat) (h : s.memWf = true) : (s.placed w).memWf = true := by
  have key : ∀ (u : State) (bs : List Byte), u.memWf = true → mwf byteZero (msets byteZero u.mem placePc.toNat bs) = true :=
    fun u bs hu => mwf_msets _ _ _ _ hu
  unfold State.placed State.memWf
  generalize placeBlock w = bs
  dsimp only
  refine key _ _ ?_
  split
  · exact h
  · exact h

theorem State.withFetchWord_memWf (s : State) (n w : Nat) (h : s.memWf = true) : (s.withFetchWord n w).memWf = true :=
  State.placed_memWf _ _ h

theorem State.resetEngines_memWf (s : State) (h : s.memWf = true) : s.resetEngines.memWf = true := mwf_filter _ _ _ h

theorem validCode_addrOf (n : Int) : validCode (addrOf n) = true := by
  unfold validCode addrOf
  simp only [BitVec.toNat_ofInt, Bool.and_eq_true, beq_iff_eq, decide_eq_true_eq]
  have h1 := Int.emod_nonneg n (show (5 : Int) ≠ 0 by decide)
  have h2 := Int.emod_lt_of_pos n (show (0 : Int) < 5 by decide)
  generalize n / 5 = q at *
  generalize n % 5 = r at *
  obtain ⟨r', rfl⟩ := Int.eq_ofNat_of_zero_le h1
  have h : ((q * 64 + 12 * (r' : Int)) % ((2 ^ 64 : Nat) : Int)).toNat % 64 = 12 * r' := by norm_num; omega
  rw [h]
  omega

/-- The target of BRA and CALL is always a code address (R108, R175). -/
theorem validCode_branchPc (pc : DWord) (imm : BitVec 32) : validCode (branchPc pc imm) = true := validCode_addrOf _

end Sys2Proof.Machine
end

