-- ==== Sys2Proof/Laws/Operands.lean ====
section
/-! SUPPORT. Laws/Operands.lean: what writing a destination, a predicate and flags does, once for every instruction that does no
more (R103, R135, R139, R217). -/

namespace Sys2Proof.Machine

/-! ### Register words -/

theorem mget_putRegs (m : Map Word) (b l w r k i : Nat) (hl : l < 32) (hi : i < 32) :
    mget 0 (putRegs m b l w r) (32 * k + i) = if i = l ∧ b ≤ k ∧ k < b + w then wordOf r (k - b) else mget 0 m (32 * k + i) := by
  induction w generalizing m b r with
  | zero => rw [if_neg (by omega)]; rfl
  | succ w ih =>
    simp only [putRegs, ih, mget_mset]
    by_cases h1 : i = l ∧ b + 1 ≤ k ∧ k < b + 1 + w
    · rw [if_pos h1, if_pos ⟨h1.1, by omega, by omega⟩]
      unfold wordOf
      rw [Nat.div_div_eq_div_mul, show k - b = (k - (b + 1)) + 1 by omega, show 32 * (k - (b + 1) + 1) = 32 + 32 * (k - (b + 1)) by ring,
        pow_add]
    · rw [if_neg h1]
      by_cases h2 : 32 * b + l = 32 * k + i
      · have hk : k = b := by omega
        have hil : i = l := by omega
        subst hk hil
        rw [if_pos rfl, if_pos ⟨rfl, by omega, by omega⟩]; simp [wordOf]
      · rw [if_neg h2, if_neg (by rintro ⟨rfl, h3, h4⟩; apply h1; exact ⟨rfl, by omega, by omega⟩)]

theorem mget_putScalars (m : Map Word) (b w r k : Nat) :
    mget 0 (putScalars m b w r) k = if b ≤ k ∧ k < b + w then wordOf r (k - b) else mget 0 m k := by
  induction w generalizing m b r with
  | zero => rw [if_neg (by omega)]; rfl
  | succ w ih =>
    simp only [putScalars, ih, mget_mset]
    by_cases h1 : b + 1 ≤ k ∧ k < b + 1 + w
    · rw [if_pos h1, if_pos ⟨by omega, by omega⟩]
      unfold wordOf
      rw [Nat.div_div_eq_div_mul, show k - b = (k - (b + 1)) + 1 by omega, show 32 * (k - (b + 1) + 1) = 32 + 32 * (k - (b + 1)) by ring,
        pow_add]
    · rw [if_neg h1]
      by_cases h2 : b = k
      · subst h2; rw [if_pos rfl, if_pos ⟨by omega, by omega⟩]; simp [wordOf]
      · rw [if_neg h2, if_neg (by omega)]

theorem mget_writeLanes (m : Map Word) (b w : Nat) (act : Word) (z : Bool) (f : Nat → Nat) (ls : List Nat) (k i : Nat)
    (hls : ∀ l ∈ ls, l < 32) (hi : i < 32) :
    mget 0 (writeLanes m b w act z f ls) (32 * k + i) =
      if i ∈ ls ∧ b ≤ k ∧ k < b + w then
        (if act.getLsbD i then wordOf (f i) (k - b) else if z then 0 else mget 0 m (32 * k + i))
      else mget 0 m (32 * k + i) := by
  induction ls generalizing m with
  | nil => simp [writeLanes]
  | cons l ls ih =>
    have hl : l < 32 := hls l (by simp)
    have hw : ∀ j, wordOf 0 j = 0 := by intro j; simp [wordOf]
    have key : mget 0 (if act.getLsbD l then putRegs m b l w (f l) else if z then putRegs m b l w 0 else m) (32 * k + i) =
        if i = l ∧ b ≤ k ∧ k < b + w then
          (if act.getLsbD i then wordOf (f i) (k - b) else if z then 0 else mget 0 m (32 * k + i))
        else mget 0 m (32 * k + i) := by
      by_cases ha : act.getLsbD l = true
      · rw [if_pos ha, mget_putRegs _ _ _ _ _ _ _ hl hi]
        by_cases hc : i = l ∧ b ≤ k ∧ k < b + w
        · obtain ⟨rfl, h2⟩ := hc; simp [ha, h2]
        · rw [if_neg hc, if_neg hc]
      · rw [if_neg ha]
        by_cases hz : z = true
        · rw [if_pos hz, mget_putRegs _ _ _ _ _ _ _ hl hi]
          by_cases hc : i = l ∧ b ≤ k ∧ k < b + w
          · obtain ⟨rfl, h2⟩ := hc; simp [ha, h2, hz, hw]
          · rw [if_neg hc, if_neg hc]
        · rw [if_neg hz]
          by_cases hc : i = l ∧ b ≤ k ∧ k < b + w
          · obtain ⟨rfl, h2⟩ := hc; simp [ha, h2, hz]
          · rw [if_neg hc]
    simp only [writeLanes]
    rw [ih _ (fun j hj => hls j (by simp [hj])), key]
    by_cases hr : b ≤ k ∧ k < b + w
    · by_cases hil : i = l
      · subst hil
        by_cases ha : act.getLsbD i = true
        · simp [hr, ha]
        · by_cases hz : z = true <;> simp [hr, ha, hz]
      · simp [hr, hil]
    · simp [hr]

theorem mfind_clearPoison_v (m : Map Poison) (b l w key : Nat) :
    mfind (clearPoison m (.v b) l w) key = if ∃ j, j < w ∧ key = 32 * (b + j) + l then none else mfind m key := by
  induction w generalizing m with
  | zero => simp [clearPoison]
  | succ w ih =>
    simp only [clearPoison, poisonKey, ih, mfind_mdel]
    by_cases h : ∃ j, j < w ∧ key = 32 * (b + j) + l
    · obtain ⟨j, hj, hk⟩ := h
      rw [if_pos ⟨j, hj, hk⟩, if_pos ⟨j, by omega, hk⟩]
    · rw [if_neg h]
      by_cases hw : 32 * (b + w) + l = key
      · rw [if_pos hw, if_pos ⟨w, by omega, hw.symm⟩]
      · rw [if_neg hw, if_neg]
        rintro ⟨j, hj, hk⟩
        rcases Nat.lt_succ_iff_lt_or_eq.1 hj with hj | rfl
        · exact h ⟨j, hj, hk⟩
        · exact hw hk.symm

theorem mfind_clearPoison_s (m : Map Poison) (b l w key : Nat) :
    mfind (clearPoison m (.s b) l w) key = if ∃ j, j < w ∧ key = 32 * (512 + b + j) then none else mfind m key := by
  induction w generalizing m with
  | zero => simp [clearPoison]
  | succ w ih =>
    simp only [clearPoison, poisonKey, ih, mfind_mdel]
    by_cases h : ∃ j, j < w ∧ key = 32 * (512 + b + j)
    · obtain ⟨j, hj, hk⟩ := h
      rw [if_pos ⟨j, hj, hk⟩, if_pos ⟨j, by omega, hk⟩]
    · rw [if_neg h]
      by_cases hw : 32 * (512 + b + w) = key
      · rw [if_pos hw, if_pos ⟨w, by omega, hw.symm⟩]
      · rw [if_neg hw, if_neg]
        rintro ⟨j, hj, hk⟩
        rcases Nat.lt_succ_iff_lt_or_eq.1 hj with hj | rfl
        · exact h ⟨j, hj, hk⟩
        · exact hw hk.symm

open Classical in
theorem mfind_clearLanes (b w : Nat) (act : Word) (z : Bool) (ls : List Nat) (m : Map Poison) (key : Nat) :
    mfind (ls.foldl (fun m l => if act.getLsbD l || z then clearPoison m (.v b) l w else m) m) key =
      if ∃ j l, j < w ∧ l ∈ ls ∧ key = 32 * (b + j) + l ∧ (act.getLsbD l = true ∨ z = true) then none else mfind m key := by
  induction ls generalizing m with
  | nil => simp
  | cons a ls ih =>
    rw [List.foldl_cons, ih]
    by_cases h : ∃ j l, j < w ∧ l ∈ ls ∧ key = 32 * (b + j) + l ∧ (act.getLsbD l = true ∨ z = true)
    · obtain ⟨j, l, h1, h2, h3⟩ := h
      rw [if_pos ⟨j, l, h1, h2, h3⟩, if_pos ⟨j, l, h1, by simp [h2], h3⟩]
    · rw [if_neg h]
      by_cases ha : act.getLsbD a = true ∨ z = true
      · rw [if_pos (by simpa using ha), mfind_clearPoison_v]
        by_cases hk : ∃ j, j < w ∧ key = 32 * (b + j) + a
        · obtain ⟨j, h1, h2⟩ := hk
          rw [if_pos ⟨j, h1, h2⟩, if_pos ⟨j, a, h1, by simp, h2, ha⟩]
        · rw [if_neg hk, if_neg]
          rintro ⟨j, l, h1, h2, h3, h4⟩
          rcases List.mem_cons.1 h2 with rfl | h2
          · exact hk ⟨j, h1, h3⟩
          · exact h ⟨j, l, h1, h2, h3, h4⟩
      · rw [if_neg (by simpa using ha), if_neg]
        rintro ⟨j, l, h1, h2, h3, h4⟩
        rcases List.mem_cons.1 h2 with rfl | h2
        · exact ha h4
        · exact h ⟨j, l, h1, h2, h3, h4⟩

/-! ### Writing a destination (R103, R139, R217) -/

theorem vReg_writeD (x : Issue) (d : Opnd) (w : Nat) (z : Bool) (f : Nat → Nat) (k l : Nat) (hl : l < 32) :
    vReg (x.g.writeD x d w z f) k l = vAfter x d w z f k l := by
  unfold Group.writeD
  by_cases ha : x.act = 0
  · rw [if_pos ha]; unfold vAfter; cases d <;> simp [ha]
  · rw [if_neg ha]
    cases d with
    | v b =>
      simp only [vReg, vAfter]
      rw [mget_writeLanes _ _ _ _ _ _ _ _ _ (by simp) hl]
      simp only [List.mem_range, hl, true_and, ne_eq, ha, not_false_eq_true]
    | _ => rfl

theorem sReg_writeD (x : Issue) (d : Opnd) (w : Nat) (z : Bool) (f : Nat → Nat) (k : Nat) :
    sReg (x.g.writeD x d w z f) k = sAfter x d w f k := by
  unfold Group.writeD
  by_cases ha : x.act = 0
  · rw [if_pos ha]; unfold sAfter; cases d <;> simp [ha]
  · rw [if_neg ha]
    cases d with
    | s b => simp only [sReg, sAfter, mget_putScalars, ne_eq, ha, not_false_eq_true, true_and]
    | _ => rfl

theorem poison_writeD (x : Issue) (d : Opnd) (w : Nat) (z : Bool) (f : Nat → Nat) (key : Nat) :
    (Cleared x d w z key → mfind (x.g.writeD x d w z f).poison key = none) ∧
    (¬ Cleared x d w z key → mfind (x.g.writeD x d w z f).poison key = mfind x.g.poison key) := by
  unfold Group.writeD
  by_cases ha : x.act = 0
  · rw [if_pos ha]; unfold Cleared; cases d <;> simp [ha]
  · rw [if_neg ha]
    cases d with
    | v b =>
      simp only [Cleared]
      by_cases he : x.g.poison.isEmpty = true
      · rw [if_pos he]; rw [List.isEmpty_iff] at he; rw [he]; exact ⟨fun _ => rfl, fun _ => rfl⟩
      · rw [if_neg he, mfind_clearLanes]
        exact ⟨fun h => if_pos (by simpa using h.2), fun h => if_neg (fun h' => h ⟨ha, by simpa using h'⟩)⟩
    | s b =>
      simp only [Cleared]
      by_cases he : x.g.poison.isEmpty = true
      · rw [if_pos he]; rw [List.isEmpty_iff] at he; rw [he]; exact ⟨fun _ => rfl, fun _ => rfl⟩
      · rw [if_neg he, mfind_clearPoison_s]
        exact ⟨fun h => if_pos h.2, fun h => if_neg (fun h' => h ⟨ha, h'⟩)⟩
    | _ => simp [Cleared]

theorem writeD_rest (g : Group) (x : Issue) (d : Opnd) (w : Nat) (z : Bool) (f : Nat → Nat) :
    g.writeD x d w z f = { g with v := (g.writeD x d w z f).v, sc := (g.writeD x d w z f).sc,
                                  poison := (g.writeD x d w z f).poison } := by
  unfold Group.writeD
  split
  · rfl
  · cases d <;> rfl

/-! ### Predicates (R135, R145) -/

theorem mem_maskOf (ls : List Nat) (l : Nat) (hl : l < 32) : (maskOf ls).getLsbD l = true ↔ ∃ k ∈ ls, k % 32 = l := by
  induction ls with
  | nil => simp [maskOf]
  | cons a ls ih =>
    simp only [maskOf, BitVec.getLsbD_or, Bool.or_eq_true, ih, List.mem_cons, exists_eq_or_imp, laneBit,
      BitVec.getLsbD_ofNat, Nat.testBit_two_pow, hl, decide_true, Bool.true_and, decide_eq_true_eq]

theorem getLsbD_maskWhere (f : Nat → Bool) (l : Nat) (hl : l < 32) : (maskWhere f).getLsbD l = f l := by
  rw [Bool.eq_iff_iff, maskWhere, mem_maskOf _ _ hl]
  simp only [List.mem_filter, List.mem_range]
  constructor
  · rintro ⟨k, ⟨hk, hf⟩, h⟩; rw [Nat.mod_eq_of_lt hk] at h; exact h ▸ hf
  · intro h; exact ⟨l, ⟨hl, h⟩, Nat.mod_eq_of_lt hl⟩

theorem mem_lanesOf (m : Word) (l : Nat) : l ∈ lanesOf m ↔ m.getLsbD l = true := by
  simp only [lanesOf, List.mem_filter, List.mem_range]
  exact ⟨fun h => h.2, fun h => ⟨by by_contra hl; simp [BitVec.getLsbD_of_ge _ _ (Nat.le_of_not_lt hl)] at h, h⟩⟩

theorem pBit_setPredBits (g : Group) (k j : Nat) (m val : Word) (l : Nat) (hl : l < 32) :
    pBit (g.setPredBits k m val) j l = if j = k ∧ k < 15 ∧ m.getLsbD l = true then val.getLsbD l else pBit g j l := by
  unfold Group.setPredBits
  by_cases hk : k ≥ 15
  · rw [if_pos hk, if_neg (by omega)]
  · rw [if_neg hk]
    simp only [pBit, Group.pred]
    by_cases hj : j ≥ 15
    · rw [if_pos hj, if_pos hj, if_neg (by omega)]
    · rw [if_neg hj, if_neg hj, mget_mset]
      by_cases h : k = j
      · subst h
        rw [if_pos rfl, if_neg hk]
        cases hm : m.getLsbD l
        · simp [hl]; rw [BitVec.getLsbD_eq_getElem hl] at hm; simp [hm]
        · rw [if_pos ⟨rfl, by omega, rfl⟩]; simp [hl]; rw [BitVec.getLsbD_eq_getElem hl] at hm; simp [hm]
      · rw [if_neg h, if_neg (by rintro ⟨rfl, -⟩; exact h rfl)]

theorem pBit_writeP (x : Issue) (k : Nat) (b : Nat → Bool) (j l : Nat) (hl : l < 32) :
    pBit (x.g.writeP x k b) j l = pAfter x k b j l := by
  unfold Group.writeP pAfter
  by_cases ha : x.act = 0
  · simp [ha]
  · rw [if_neg ha]
    by_cases ho : x.once = true
    · rw [if_pos ho, Group.setPredAll, pBit_setPredBits _ _ _ _ _ _ hl]
      simp only [ho, if_true]
      by_cases hk : j = k ∧ k < 15
      · have ho1 : (BitVec.allOnes 32).getLsbD l = true := by rw [BitVec.getLsbD_allOnes]; simpa using hl
        have hc : j = k ∧ k < 15 ∧ x.act ≠ 0 := ⟨hk.1, hk.2, ha⟩
        rw [if_pos ⟨hk.1, hk.2, ho1⟩, if_pos hc]
        cases b x.lead
        · exact BitVec.getLsbD_zero
        · exact ho1
      · rw [if_neg (fun h => hk ⟨h.1, h.2.1⟩), if_neg (fun h => hk ⟨h.1, h.2.1⟩)]
    · rw [if_neg ho, pBit_setPredBits _ _ _ _ _ _ hl]
      simp only [ho]
      by_cases hk : j = k ∧ k < 15
      · by_cases hact : x.act.getLsbD l = true
        · rw [if_pos ⟨hk.1, hk.2, hact⟩, if_pos ⟨hk.1, hk.2, ha⟩, getLsbD_maskWhere _ _ hl]; simp [hact]
        · rw [if_neg (fun h => hact h.2.2)]; simp [hact]
      · rw [if_neg (fun h => hk ⟨h.1, h.2.1⟩), if_neg (fun h => hk ⟨h.1, h.2.1⟩)]

theorem writeP_rest (g : Group) (x : Issue) (k : Nat) (b : Nat → Bool) :
    g.writeP x k b = { g with p := (g.writeP x k b).p } := by
  unfold Group.writeP Group.setPredAll Group.setPredBits
  split
  · rfl
  · split <;> split <;> rfl

/-! ### Flags (R90) -/

theorem getLsbD_orFlags (f : Nat → Flags) (ls : List Nat) (n : Nat) :
    (orFlags f ls).getLsbD n = true ↔ ∃ l ∈ ls, (f l).getLsbD n = true := by
  induction ls with
  | nil => simp [orFlags]
  | cons a ls ih => simp [orFlags, ih]

theorem mem_evalLanes (x : Issue) (l : Nat) : l ∈ x.evalLanes ↔ Executes x l := by
  unfold Issue.evalLanes Executes
  split
  · simp_all
  · split <;> simp_all [mem_lanesOf]

/-! ### The run (R103) -/

theorem length_mapFrom {α β : Type} (f : Nat → α → β) (i : Nat) (xs : List α) : (mapFrom f i xs).length = xs.length := by
  induction xs generalizing i with
  | nil => rfl
  | cons x xs ih => simp [mapFrom, ih]

theorem getD_mapFrom {α β : Type} (f : Nat → α → β) (i : Nat) (xs : List α) (k : Nat) (d : α) (e : β) (hk : k < xs.length) :
    (mapFrom f i xs).getD k e = f (i + k) (xs.getD k d) := by
  induction xs generalizing i k with
  | nil => simp at hk
  | cons x xs ih =>
    cases k with
    | zero => simp [mapFrom]
    | succ k =>
      simp only [mapFrom, List.getD_cons_succ]
      rw [ih (i + 1) k (by simpa using hk)]
      congr 1; omega

theorem lane_mapLanes (g : Group) (f : Nat → Lane → Lane) (l : Nat) (hl : l < g.lanes.length) :
    (g.mapLanes f).lane l = f l (g.lane l) := by
  simp only [Group.lane, Group.mapLanes]
  rw [getD_mapFrom f 0 g.lanes l {} {} hl, Nat.zero_add]

theorem stepped_advance (g : Group) (run : Word) : Stepped g (g.advance run) run :=
  ⟨by simp [Group.advance, Group.onLanes, Group.mapLanes, length_mapFrom],
   fun l hl => by rw [Group.advance, Group.onLanes, lane_mapLanes _ _ _ hl]⟩

/-! ### One group (R103) -/

theorem onlyGroup_updGrp (s : State) (gid : Nat) (g : Group) (f : Group → Group) (h : s.grp? gid = some g) :
    OnlyGroup s (s.updGrp gid f) gid (f g) :=
  ⟨rfl, State.grp?_updGrp_same h f, fun _ hj => State.grp?_updGrp_other (Ne.symm hj) f⟩

/-- What follows from the checks of an issue: the issuing group is as the state holds it. -/
theorem grp_of_issueOf {s : State} {i : Instr} {b : Bool} {x : Issue} (h : s.issueOf i b = .go x) : s.grp? x.gid = some x.g := by
  unfold State.issueOf at h
  split at h
  · cases h
  · split at h
    · cases h
    · rename_i hg
      dsimp only at h
      split at h
      · cases h
      · split_ifs at h <;> (injection h with h; subst h; exact hg)

/-- A lane instruction that executes answers its effect. -/
theorem laneInstr_go {i : Instr} {b : Bool} {s : State} {x : Issue} (eff : Issue → State → State) (h : s.issueOf i b = .go x) :
    laneInstr i b s eff = .next (eff x s) := by simp [laneInstr, h]

/-- Every effect that writes a destination, a predicate and flags, and advances the run. -/
theorem effect_done (x : Issue) (d : Opnd) (w : Nat) (z : Bool) (f : Nat → Nat) (pd : Nat) (b : Nat → Bool) (fl : Nat → Flags) :
    Effect x (((((x.g.writeD x d w z f).writeP x pd b).raise (orFlags fl x.evalLanes))).advance x.run) d w z f pd b fl := by
  have hw := writeD_rest x.g x d w z f
  have hp := writeP_rest (x.g.writeD x d w z f) x pd b
  have hp' := writeP_rest x.g x pd b
  refine ⟨fun k l hl => ?_, fun k => ?_, fun k l hl => ?_, fun n => ?_, fun key h => ?_, fun key h => ?_, ?_, ?_⟩
  · rw [← vReg_writeD x d w z f k l hl]
    unfold vReg Group.advance Group.onLanes Group.mapLanes Group.raise
    rw [hp]
  · rw [← sReg_writeD x d w z f k]
    unfold sReg Group.advance Group.onLanes Group.mapLanes Group.raise
    rw [hp]
  · rw [← pBit_writeP x pd b k l hl]
    have : ((x.g.writeD x d w z f).writeP x pd b).p = (x.g.writeP x pd b).p := by
      rw [hw]; unfold Group.writeP Group.setPredAll Group.setPredBits Group.pred
      split
      · rfl
      · split <;> split <;> rfl
    unfold pBit Group.pred Group.advance Group.onLanes Group.mapLanes Group.raise
    simp only [this]
  · have : ((x.g.writeD x d w z f).writeP x pd b).fpflags = x.g.fpflags := by rw [hp, hw]
    simp [Group.advance, Group.onLanes, Group.mapLanes, Group.raise, this, getLsbD_orFlags, mem_evalLanes]
  · rw [← (poison_writeD x d w z f key).1 h]
    unfold Group.advance Group.onLanes Group.mapLanes Group.raise
    rw [hp]
  · rw [← (poison_writeD x d w z f key).2 h]
    unfold Group.advance Group.onLanes Group.mapLanes Group.raise
    rw [hp]
  · have : ((x.g.writeD x d w z f).writeP x pd b).lanes = x.g.lanes := by rw [hp, hw]
    obtain ⟨h1, h2⟩ := stepped_advance (((x.g.writeD x d w z f).writeP x pd b).raise (orFlags fl x.evalLanes)) x.run
    unfold Group.raise at *
    refine ⟨by simpa [this] using h1, fun l hl => ?_⟩
    have := h2 l (by simpa [this] using hl)
    rw [this]; simp only [Group.lane, ‹Group.lanes _ = _›]
  · have key : ∀ (g1 g2 : Group) (fs : Flags) (V : Map Word) (S : Map Word) (P : Map Word) (Q : Map Poison),
        g1 = { x.g with v := V, sc := S, poison := Q } → g2 = { g1 with p := P } →
        { ((g2.raise fs).advance x.run) with v := x.g.v, sc := x.g.sc, p := x.g.p, fpflags := x.g.fpflags, poison := x.g.poison,
                                             lanes := x.g.lanes } = x.g := by
      rintro _ _ fs V S P Q rfl rfl; rfl
    exact key _ _ _ _ _ _ _ hw hp

/-- `effect_done` without a predicate. -/
theorem effect_alu (x : Issue) (d : Opnd) (w : Nat) (z : Bool) (f : Nat → Nat) (b : Nat → Bool) (fl : Nat → Flags) :
    Effect x (((x.g.writeD x d w z f).raise (orFlags fl x.evalLanes)).advance x.run) d w z f 15 b fl := by
  have h := effect_done x d w z f 15 b fl
  have e : (x.g.writeD x d w z f).writeP x 15 b = x.g.writeD x d w z f := by
    unfold Group.writeP Group.setPredAll Group.setPredBits; split
    · rfl
    · split <;> rfl
  rwa [e] at h

theorem orFlags_zero (ls : List Nat) : orFlags (fun _ => 0) ls = 0 := by
  induction ls with
  | nil => rfl
  | cons a ls ih => rw [orFlags, ih]; rfl

theorem raise_zero (g : Group) : g.raise 0 = g := by simp [Group.raise]

/-- `effect_done` without a predicate and without flags. -/
theorem effect_alu0 (x : Issue) (d : Opnd) (w : Nat) (z : Bool) (f : Nat → Nat) (b : Nat → Bool) :
    Effect x ((x.g.writeD x d w z f).advance x.run) d w z f 15 b (fun _ => 0) := by
  have h := effect_alu x d w z f b (fun _ => 0)
  rwa [orFlags_zero, raise_zero] at h

/-- `effect_done` without a destination. -/
theorem effect_cmp (x : Issue) (pd : Nat) (b : Nat → Bool) (fl : Nat → Flags) :
    Effect x (((x.g.writeP x pd b).raise (orFlags fl x.evalLanes)).advance x.run) .z 0 false (fun _ => 0) pd b fl := by
  have h := effect_done x .z 0 false (fun _ => 0) pd b fl
  have e : x.g.writeD x .z 0 false (fun _ => 0) = x.g := by unfold Group.writeD; split <;> rfl
  rwa [e] at h

/-- Applying a change and advancing the run changes the issuing group alone. -/
theorem onlyGroup_done {s : State} {x : Issue} (h : s.grp? x.gid = some x.g) (f : Group → Group) :
    OnlyGroup s (x.done s f) x.gid ((f x.g).advance x.run) := onlyGroup_updGrp s x.gid x.g _ h

theorem writes_alu {i : Instr} {hp : Bool} {d : Opnd} {w : Nat} {z : Bool} {f : Group → Nat → Bits}
    (h : ∀ s, exec i s = laneInstr i hp s (alu d w z f)) :
    Writes i hp d w z (fun _ x l => (f x.g l).1) (fun x l => (f x.g l).2) := fun s x hx =>
  ⟨_, _, by rw [h, laneInstr_go _ hx]; rfl, onlyGroup_done (grp_of_issueOf hx) (fun g => (g.writeD x d w z (fun l => (f x.g l).1)).raise (orFlags (fun l => (f x.g l).2) x.evalLanes)), effect_alu x d w z _ _ _⟩

theorem writes_alu0 {i : Instr} {hp : Bool} {d : Opnd} {w : Nat} {z : Bool} {f : Group → Nat → Nat}
    (h : ∀ s, exec i s = laneInstr i hp s (alu0 d w z f)) :
    WritesOnly i hp d w z (fun _ x l => f x.g l) := fun s x hx =>
  ⟨_, _, by rw [h, laneInstr_go _ hx]; rfl, onlyGroup_done (grp_of_issueOf hx) (fun g => g.writeD x d w z (f x.g)), effect_alu0 x d w z _ _⟩

theorem writes_cmp {i : Instr} {hp : Bool} {pd : Nat} {f : Group → Nat → Bool × Flags}
    (h : ∀ s, exec i s = laneInstr i hp s (cmpOp pd f)) :
    WritesPred i hp pd (fun x l => (f x.g l).1) (fun x l => (f x.g l).2) := fun s x hx =>
  ⟨_, _, by rw [h, laneInstr_go _ hx]; rfl, onlyGroup_done (grp_of_issueOf hx) (fun g => (g.writeP x pd (fun l => (f x.g l).1)).raise (orFlags (fun l => (f x.g l).2) x.evalLanes)), effect_cmp x pd _ _⟩

/-- Any instruction whose effect is one write of a destination. -/
theorem writes_done {i : Instr} {hp : Bool} {d : Opnd} {w : Nat} {z : Bool} {f : State → Issue → Nat → Nat}
    {eff : Issue → State → State} (h : ∀ s, exec i s = laneInstr i hp s eff)
    (he : ∀ s x, eff x s = x.done s (fun g => g.writeD x d w z (f s x))) : WritesOnly i hp d w z f := fun s x hx =>
  ⟨_, _, by rw [h, laneInstr_go _ hx, he], onlyGroup_done (grp_of_issueOf hx) _, effect_alu0 x d w z _ _⟩

end Sys2Proof.Machine
end

