-- ==== Sys2Proof/Laws/PerInstr.lean ====
section
/-! SUPPORT. Laws/PerInstr.lean: each instruction's fields fit the word and are read back as the instruction (R100–R107, Tables 6-1 and 6-2): one
lemma per constructor, over the lemmas of the fields' places. -/
namespace Sys2Proof

/-- Every field fits its place in the word (Table 6-1). -/
def Fields.fits (f : Fields) : Prop :=
  f.opc < 512 ∧ f.gp < 16 ∧ f.d < 1024 ∧ f.a < 1024 ∧ f.b < 1024 ∧ f.c < 1024 ∧ f.mod < 65536 ∧ f.ext < 262144 ∧ f.sch < 256

theorem b2n_le (b : Bool) : b2n b ≤ 1 := by cases b <;> simp [b2n]
theorem bitAt_of {n i : Nat} {b : Bool} (h : n / 2 ^ i % 2 = b2n b) : bitAt n i = b := by
  unfold bitAt; rw [h]; cases b <;> rfl

theorem Fields.ofWord_toWord {f : Fields} (h : f.fits) : Fields.ofWord f.toWord = f := by
  obtain ⟨opc, gp, gn, d, a, b, c, mod, ext, sch⟩ := f
  obtain ⟨h1, h2, h3, h4, h5, h6, h7, h8, h9⟩ := h
  dsimp only at *
  have hg := b2n_le gn
  simp only [Fields.ofWord, Fields.mk.injEq, bits, Fields.toWord]
  refine ⟨?_, ?_, bitAt_of ?_, ?_, ?_, ?_, ?_, ?_, ?_, ?_⟩ <;> omega

theorem Opnd.code_lt {o : Opnd} (h : o.inRange = true) : o.code < 1024 := by
  cases o <;> simp [Opnd.inRange, Opnd.code] at * <;> omega
theorem Opnd.ofCode_code {o : Opnd} (h : o.inRange = true) : Opnd.ofCode o.code = o := by
  cases o with
  | v k =>
    have h : k < 512 := by simpa [Opnd.inRange] using h
    show (if k < 512 then Opnd.v k else _) = _
    rw [if_pos h]
  | s k =>
    have h : k < 384 := by simpa [Opnd.inRange] using h
    show (if 512 + k < 512 then _ else if 512 + k < 896 then Opnd.s (512 + k - 512) else _) = _
    rw [if_neg (by omega), if_pos (by omega), Nat.add_sub_cancel_left]
  | z => rfl
  | c n =>
    have h : -32 ≤ n ∧ n ≤ 31 := by simpa [Opnd.inRange] using h
    show (if (n + 992).toNat < 512 then _ else if (n + 992).toNat < 896 then _ else if (n + 992).toNat = 896 then _
      else Opnd.c (((n + 992).toNat : Int) - 992)) = _
    rw [if_neg (by omega), if_neg (by omega), if_neg (by omega)]; congr 1; omega
theorem Ty.code_lt (t : Ty) : t.code < 32 := by cases t <;> decide
theorem Ty.ofCode_code (t : Ty) : Ty.ofCode t.code = t := by cases t <;> rfl
theorem Ty.codeF_lt (t : Ty) : t.codeF < 32 := by cases t <;> decide
theorem Ty.ofCodeF_codeF (t : Ty) : Ty.ofCodeF t.codeF = t := by cases t <;> rfl
theorem Rnd.code_lt (t : Rnd) : t.code < 4 := by cases t <;> decide
theorem Rnd.ofCode_code (t : Rnd) : Rnd.ofCode t.code = t := by cases t <;> rfl
theorem Cmp.code_lt (t : Cmp) : t.code < 8 := by cases t <;> decide
theorem Cmp.ofCode_code (t : Cmp) : Cmp.ofCode t.code = t := by cases t <;> rfl
theorem RedOp.code_lt (t : RedOp) : t.code < 8 := by cases t <;> decide
theorem RedOp.ofCode_code (t : RedOp) : RedOp.ofCode t.code = t := by cases t <;> rfl
theorem VoteOp.code_lt (t : VoteOp) : t.code < 4 := by cases t <;> decide
theorem VoteOp.ofCode_code (t : VoteOp) : VoteOp.ofCode t.code = t := by cases t <;> rfl
theorem LxMode.code_lt (t : LxMode) : t.code < 4 := by cases t <;> decide
theorem LxMode.ofCode_code (t : LxMode) : LxMode.ofCode t.code = t := by cases t <;> rfl
theorem QsK.code_lt (t : QsK) : t.code < 4 := by cases t <;> decide
theorem QsK.ofCode_code (t : QsK) : QsK.ofCode t.code = t := by cases t <;> rfl
theorem MatchOp.code_lt (t : MatchOp) : t.code < 4 := by cases t <;> decide
theorem MatchOp.ofCode_code (t : MatchOp) : MatchOp.ofCode t.code = t := by cases t <;> rfl
theorem AOp.code_lt (t : AOp) : t.code < 8 := by cases t <;> decide
theorem AOp.ofCode_code (t : AOp) : AOp.ofCode t.code = t := by cases t <;> rfl
theorem Scope.code_lt (t : Scope) : t.code < 8 := by cases t <;> decide
theorem Scope.ofCode_code (t : Scope) : Scope.ofCode t.code = t := by cases t <;> rfl
theorem Ord.code_lt (t : Ord) : t.code < 4 := by cases t <;> decide
theorem Ord.ofCode_code (t : Ord) : Ord.ofCode t.code = t := by cases t <;> rfl
theorem CacheH.code_lt (t : CacheH) : t.code < 4 := by cases t <;> decide
theorem CacheH.ofCode_code (t : CacheH) : CacheH.ofCode t.code = t := by cases t <;> rfl
theorem CoreSel.code_lt (t : CoreSel) : t.code < 8 := by cases t <;> decide
theorem CoreSel.ofCode_code (t : CoreSel) : CoreSel.ofCode t.code = t := by cases t <;> rfl
theorem CSrc.code_lt (t : CSrc) : t.code < 4 := by cases t <;> decide
theorem CSrc.ofCode_code (t : CSrc) : CSrc.ofCode t.code = t := by cases t <;> rfl
theorem SReg.code_lt (t : SReg) : t.code < 1024 := by cases t <;> decide
theorem SReg.ofCode_code (t : SReg) : SReg.ofCode t.code = t := by cases t <;> rfl

theorem bits_of {n lo w x : Nat} (h : n / 2 ^ lo % 2 ^ w = x) : bits n lo w = x := h
/-- A 32-bit immediate comes back from its three pieces (forms I and J). -/
theorem imm_pieces (x : BitVec 32) :
    BitVec.ofNat 32 (bits x.toNat 0 10 + bits x.toNat 10 10 * 2 ^ 10 + bits (bits x.toNat 20 12) 0 12 * 2 ^ 20) = x := by
  apply BitVec.eq_of_toNat_eq
  have := x.isLt
  simp only [bits, BitVec.toNat_ofNat]; omega
theorem off_pieces (x : BitVec 24) :
    BitVec.ofNat 24 (bits x.toNat 0 10 + bits (bits x.toNat 10 14) 0 14 * 2 ^ 10) = x := by
  apply BitVec.eq_of_toNat_eq
  have := x.isLt
  simp only [bits, BitVec.toNat_ofNat]; omega
theorem bits_lt (n lo w : Nat) : bits n lo w < 2 ^ w := Nat.mod_lt _ (Nat.two_pow_pos w)

/-- The guard and scheduling byte of a word. -/
structure HdrFits (h : Hdr) : Prop where
  keep : h.keep < 4
  stall : h.stall < 16
  guard : ∀ p n, h.guard = .pred p n → p < 15

theorem hdr_mk {h : Hdr} (hh : HdrFits h) (opc d a b c m e : Nat) : (mkF h opc d a b c m e).hdr = h := by
  obtain ⟨g, k, u, y, s⟩ := h
  obtain ⟨h1, h2, h3⟩ := hh
  dsimp only at *
  have hu := b2n_le u; have hy := b2n_le y
  have e1 : bits (k * 64 + b2n u * 32 + b2n y * 16 + s) 6 2 = k := bits_of (by omega)
  have e2 : bitAt (k * 64 + b2n u * 32 + b2n y * 16 + s) 5 = u := bitAt_of (by omega)
  have e3 : bitAt (k * 64 + b2n u * 32 + b2n y * 16 + s) 4 = y := bitAt_of (by omega)
  have e4 : bits (k * 64 + b2n u * 32 + b2n y * 16 + s) 0 4 = s := bits_of (by omega)
  simp only [mkF, Fields.hdr, e1, e2, e3, e4, Hdr.mk.injEq, and_true]
  cases g with
  | all => rfl
  | pred p n =>
    have := h3 p n rfl
    show (if (decide (p = 15) && !n) = true then Guard.all else Guard.pred p n) = Guard.pred p n
    rw [if_neg]; simp; omega

theorem fits_mk {h : Hdr} (hh : HdrFits h) {opc d a b c m e : Nat} (h0 : opc < 512) (h1 : d < 1024) (h2 : a < 1024) (h3 : b < 1024)
    (h4 : c < 1024) (h5 : m < 65536) (h6 : e < 262144) : (mkF h opc d a b c m e).fits := by
  obtain ⟨g, k, u, y, s⟩ := h
  obtain ⟨k1, k2, k3⟩ := hh
  dsimp only at *
  have hu := b2n_le u; have hy := b2n_le y
  refine ⟨h0, ?_, h1, h2, h3, h4, h5, h6, ?_⟩
  · cases g with
    | all => simp [mkF]
    | pred p n => have := k3 p n rfl; simp only [mkF]; omega
  · simp only [mkF]; omega

theorem wf_parts {seq : Bool} {i : Instr} (hw : i.wf seq = true) :
    ∃ h, i.hdr = some h ∧ HdrFits h ∧ i.modsOk = true ∧ i.unitOk seq = true ∧ (∀ u ∈ i.opers, u.o.inRange = true) ∧ (∀ p ∈ i.predUses, p.1 < 16) := by
  unfold Instr.wf at hw
  cases hi : i.hdr with
  | none => simp [hi] at hw
  | some h =>
    simp only [hi, Bool.and_eq_true, List.all_eq_true] at hw
    obtain ⟨⟨⟨⟨h1, h2⟩, h3⟩, h4⟩, h5⟩ := hw
    refine ⟨h, rfl, ?_, h2, h3, fun u hu => ?_, fun p hp => ?_⟩
    · simp only [Hdr.ok, Bool.and_eq_true, decide_eq_true_eq] at h1
      obtain ⟨⟨⟨k1, k2⟩, k3⟩, k4⟩ := h1
      refine ⟨k1, k2, fun p n hg => ?_⟩
      rw [hg] at k3
      cases seq <;> simp at k3 <;> omega
    · have := h4 u hu
      simp only [OpUse.ok, Bool.and_eq_true] at this
      exact this.1.1.1.1.1
    · have := h5 p hp
      simp only [predOk] at this
      cases seq <;> simp at this <;> omega

theorem sreg_piece {h : Hdr} {opc d a : Nat} (sr : SReg) : SReg.ofCode (mkF h opc d a sr.code 0 0 0).imm.toNat = sr := by
  have e : (mkF h opc d a sr.code 0 0 0).imm.toNat = sr.code := by
    have := SReg.code_lt sr
    show (BitVec.ofNat 32 (sr.code + 0 * 2 ^ 10 + bits 0 0 12 * 2 ^ 20)).toNat = sr.code
    rw [BitVec.toNat_ofNat]; simp only [bits]; omega
  rw [e, SReg.ofCode_code]
theorem capOf_capCode (c : Option Nat) : capOf (capCode c) = c := by
  cases c with
  | none => rfl
  | some k =>
    show (if 64 + k < 64 then none else some (64 + k - 64)) = _
    rw [if_neg (by omega), Nat.add_sub_cancel_left]

theorem place0 (ty : Ty) (sat : Bool) (z : Bool) : Ty.ofCode (bits ((ty.code * 128 + b2n sat * 8 + b2n z * 4)) 7 5) = ty := by
  have := Ty.code_lt ty; have := b2n_le sat; have := b2n_le z
  rw [bits_of (x := ty.code) (by omega), Ty.ofCode_code]

theorem place1 (ty : Ty) (sat : Bool) (z : Bool) : bitAt ((ty.code * 128 + b2n sat * 8 + b2n z * 4)) 3 = sat := by
  have := Ty.code_lt ty; have := b2n_le sat; have := b2n_le z
  exact bitAt_of (by omega)

theorem place2 (ty : Ty) (sat : Bool) (z : Bool) : bitAt ((ty.code * 128 + b2n sat * 8 + b2n z * 4)) 2 = z := by
  have := Ty.code_lt ty; have := b2n_le sat; have := b2n_le z
  exact bitAt_of (by omega)

theorem place3 (ty : Ty) (sat : Bool) (z : Bool) : (ty.code * 128 + b2n sat * 8 + b2n z * 4) < 65536 := by
  have := Ty.code_lt ty; have := b2n_le sat; have := b2n_le z
  omega

theorem place4 (ty : Ty) (z : Bool) : Ty.ofCode (bits ((ty.code * 128 + b2n z * 4)) 7 5) = ty := by
  have := Ty.code_lt ty; have := b2n_le z
  rw [bits_of (x := ty.code) (by omega), Ty.ofCode_code]

theorem place5 (ty : Ty) (z : Bool) : bitAt ((ty.code * 128 + b2n z * 4)) 2 = z := by
  have := Ty.code_lt ty; have := b2n_le z
  exact bitAt_of (by omega)

theorem place6 (ty : Ty) (z : Bool) : (ty.code * 128 + b2n z * 4) < 65536 := by
  have := Ty.code_lt ty; have := b2n_le z
  omega

theorem place7 (z : Bool) : bitAt ((b2n z * 4)) 2 = z := by
  have := b2n_le z
  exact bitAt_of (by omega)

theorem place8 (z : Bool) : (b2n z * 4) < 65536 := by
  have := b2n_le z
  omega

theorem place9 (cc : Cmp) (ty : Ty) : Cmp.ofCode (bits ((cc.code * 4096 + ty.code * 128)) 12 4) = cc := by
  have := Cmp.code_lt cc; have := Ty.code_lt ty
  rw [bits_of (x := cc.code) (by omega), Cmp.ofCode_code]

theorem place10 (cc : Cmp) (ty : Ty) : Ty.ofCode (bits ((cc.code * 4096 + ty.code * 128)) 7 5) = ty := by
  have := Cmp.code_lt cc; have := Ty.code_lt ty
  rw [bits_of (x := ty.code) (by omega), Ty.ofCode_code]

theorem place11 (cc : Cmp) (ty : Ty) : (cc.code * 4096 + ty.code * 128) < 65536 := by
  have := Cmp.code_lt cc; have := Ty.code_lt ty
  omega

theorem place12 (ty : Ty) (rnd : Rnd) (ftz : Bool) (z : Bool) : Ty.ofCodeF (bits ((ty.codeF * 128 + rnd.code * 32 + b2n ftz * 16 + b2n z * 4)) 7 5) = ty := by
  have := Ty.codeF_lt ty; have := Rnd.code_lt rnd; have := b2n_le ftz; have := b2n_le z
  rw [bits_of (x := ty.codeF) (by omega), Ty.ofCodeF_codeF]

theorem place13 (ty : Ty) (rnd : Rnd) (ftz : Bool) (z : Bool) : Rnd.ofCode (bits ((ty.codeF * 128 + rnd.code * 32 + b2n ftz * 16 + b2n z * 4)) 5 2) = rnd := by
  have := Ty.codeF_lt ty; have := Rnd.code_lt rnd; have := b2n_le ftz; have := b2n_le z
  rw [bits_of (x := rnd.code) (by omega), Rnd.ofCode_code]

theorem place14 (ty : Ty) (rnd : Rnd) (ftz : Bool) (z : Bool) : bitAt ((ty.codeF * 128 + rnd.code * 32 + b2n ftz * 16 + b2n z * 4)) 4 = ftz := by
  have := Ty.codeF_lt ty; have := Rnd.code_lt rnd; have := b2n_le ftz; have := b2n_le z
  exact bitAt_of (by omega)

theorem place15 (ty : Ty) (rnd : Rnd) (ftz : Bool) (z : Bool) : bitAt ((ty.codeF * 128 + rnd.code * 32 + b2n ftz * 16 + b2n z * 4)) 2 = z := by
  have := Ty.codeF_lt ty; have := Rnd.code_lt rnd; have := b2n_le ftz; have := b2n_le z
  exact bitAt_of (by omega)

theorem place16 (ty : Ty) (rnd : Rnd) (ftz : Bool) (z : Bool) : (ty.codeF * 128 + rnd.code * 32 + b2n ftz * 16 + b2n z * 4) < 65536 := by
  have := Ty.codeF_lt ty; have := Rnd.code_lt rnd; have := b2n_le ftz; have := b2n_le z
  omega

theorem place17 (ty : Ty) (ftz : Bool) (z : Bool) : Ty.ofCodeF (bits ((ty.codeF * 128 + b2n ftz * 16 + b2n z * 4)) 7 5) = ty := by
  have := Ty.codeF_lt ty; have := b2n_le ftz; have := b2n_le z
  rw [bits_of (x := ty.codeF) (by omega), Ty.ofCodeF_codeF]

theorem place18 (ty : Ty) (ftz : Bool) (z : Bool) : bitAt ((ty.codeF * 128 + b2n ftz * 16 + b2n z * 4)) 4 = ftz := by
  have := Ty.codeF_lt ty; have := b2n_le ftz; have := b2n_le z
  exact bitAt_of (by omega)

theorem place19 (ty : Ty) (ftz : Bool) (z : Bool) : bitAt ((ty.codeF * 128 + b2n ftz * 16 + b2n z * 4)) 2 = z := by
  have := Ty.codeF_lt ty; have := b2n_le ftz; have := b2n_le z
  exact bitAt_of (by omega)

theorem place20 (ty : Ty) (ftz : Bool) (z : Bool) : (ty.codeF * 128 + b2n ftz * 16 + b2n z * 4) < 65536 := by
  have := Ty.codeF_lt ty; have := b2n_le ftz; have := b2n_le z
  omega

theorem place21 (cc : Cmp) (ty : Ty) (ftz : Bool) : Cmp.ofCode (bits ((cc.code * 4096 + ty.codeF * 128 + b2n ftz * 16)) 12 4) = cc := by
  have := Cmp.code_lt cc; have := Ty.codeF_lt ty; have := b2n_le ftz
  rw [bits_of (x := cc.code) (by omega), Cmp.ofCode_code]

theorem place22 (cc : Cmp) (ty : Ty) (ftz : Bool) : Ty.ofCodeF (bits ((cc.code * 4096 + ty.codeF * 128 + b2n ftz * 16)) 7 5) = ty := by
  have := Cmp.code_lt cc; have := Ty.codeF_lt ty; have := b2n_le ftz
  rw [bits_of (x := ty.codeF) (by omega), Ty.ofCodeF_codeF]

theorem place23 (cc : Cmp) (ty : Ty) (ftz : Bool) : bitAt ((cc.code * 4096 + ty.codeF * 128 + b2n ftz * 16)) 4 = ftz := by
  have := Cmp.code_lt cc; have := Ty.codeF_lt ty; have := b2n_le ftz
  exact bitAt_of (by omega)

theorem place24 (cc : Cmp) (ty : Ty) (ftz : Bool) : (cc.code * 4096 + ty.codeF * 128 + b2n ftz * 16) < 65536 := by
  have := Cmp.code_lt cc; have := Ty.codeF_lt ty; have := b2n_le ftz
  omega

theorem place25 (ty : Ty) (rnd : Rnd) (ftz : Bool) (z : Bool) (alt : Bool) : Ty.ofCodeF (bits ((ty.codeF * 128 + rnd.code * 32 + b2n ftz * 16 + b2n z * 4 + b2n alt * 2)) 7 5) = ty := by
  have := Ty.codeF_lt ty; have := Rnd.code_lt rnd; have := b2n_le ftz; have := b2n_le z; have := b2n_le alt
  rw [bits_of (x := ty.codeF) (by omega), Ty.ofCodeF_codeF]

theorem place26 (ty : Ty) (rnd : Rnd) (ftz : Bool) (z : Bool) (alt : Bool) : Rnd.ofCode (bits ((ty.codeF * 128 + rnd.code * 32 + b2n ftz * 16 + b2n z * 4 + b2n alt * 2)) 5 2) = rnd := by
  have := Ty.codeF_lt ty; have := Rnd.code_lt rnd; have := b2n_le ftz; have := b2n_le z; have := b2n_le alt
  rw [bits_of (x := rnd.code) (by omega), Rnd.ofCode_code]

theorem place27 (ty : Ty) (rnd : Rnd) (ftz : Bool) (z : Bool) (alt : Bool) : bitAt ((ty.codeF * 128 + rnd.code * 32 + b2n ftz * 16 + b2n z * 4 + b2n alt * 2)) 4 = ftz := by
  have := Ty.codeF_lt ty; have := Rnd.code_lt rnd; have := b2n_le ftz; have := b2n_le z; have := b2n_le alt
  exact bitAt_of (by omega)

theorem place28 (ty : Ty) (rnd : Rnd) (ftz : Bool) (z : Bool) (alt : Bool) : bitAt ((ty.codeF * 128 + rnd.code * 32 + b2n ftz * 16 + b2n z * 4 + b2n alt * 2)) 2 = z := by
  have := Ty.codeF_lt ty; have := Rnd.code_lt rnd; have := b2n_le ftz; have := b2n_le z; have := b2n_le alt
  exact bitAt_of (by omega)

theorem place29 (ty : Ty) (rnd : Rnd) (ftz : Bool) (z : Bool) (alt : Bool) : bitAt ((ty.codeF * 128 + rnd.code * 32 + b2n ftz * 16 + b2n z * 4 + b2n alt * 2)) 1 = alt := by
  have := Ty.codeF_lt ty; have := Rnd.code_lt rnd; have := b2n_le ftz; have := b2n_le z; have := b2n_le alt
  exact bitAt_of (by omega)

theorem place30 (ty : Ty) (rnd : Rnd) (ftz : Bool) (z : Bool) (alt : Bool) : (ty.codeF * 128 + rnd.code * 32 + b2n ftz * 16 + b2n z * 4 + b2n alt * 2) < 65536 := by
  have := Ty.codeF_lt ty; have := Rnd.code_lt rnd; have := b2n_le ftz; have := b2n_le z; have := b2n_le alt
  omega

theorem place31 (ftz : Bool) (z : Bool) : bitAt ((b2n ftz * 16 + b2n z * 4)) 4 = ftz := by
  have := b2n_le ftz; have := b2n_le z
  exact bitAt_of (by omega)

theorem place32 (ftz : Bool) (z : Bool) : bitAt ((b2n ftz * 16 + b2n z * 4)) 2 = z := by
  have := b2n_le ftz; have := b2n_le z
  exact bitAt_of (by omega)

theorem place33 (ftz : Bool) (z : Bool) : (b2n ftz * 16 + b2n z * 4) < 65536 := by
  have := b2n_le ftz; have := b2n_le z
  omega

theorem place34 (ty : Ty) (z : Bool) : Ty.ofCodeF (bits ((ty.codeF * 128 + b2n z * 4)) 7 5) = ty := by
  have := Ty.codeF_lt ty; have := b2n_le z
  rw [bits_of (x := ty.codeF) (by omega), Ty.ofCodeF_codeF]

theorem place35 (ty : Ty) (z : Bool) : bitAt ((ty.codeF * 128 + b2n z * 4)) 2 = z := by
  have := Ty.codeF_lt ty; have := b2n_le z
  exact bitAt_of (by omega)

theorem place36 (ty : Ty) (z : Bool) : (ty.codeF * 128 + b2n z * 4) < 65536 := by
  have := Ty.codeF_lt ty; have := b2n_le z
  omega

theorem place37 (ty : Ty) (rnd : Rnd) (z : Bool) : Ty.ofCodeF (bits ((ty.codeF * 128 + rnd.code * 32 + b2n z * 4)) 7 5) = ty := by
  have := Ty.codeF_lt ty; have := Rnd.code_lt rnd; have := b2n_le z
  rw [bits_of (x := ty.codeF) (by omega), Ty.ofCodeF_codeF]

theorem place38 (ty : Ty) (rnd : Rnd) (z : Bool) : Rnd.ofCode (bits ((ty.codeF * 128 + rnd.code * 32 + b2n z * 4)) 5 2) = rnd := by
  have := Ty.codeF_lt ty; have := Rnd.code_lt rnd; have := b2n_le z
  rw [bits_of (x := rnd.code) (by omega), Rnd.ofCode_code]

theorem place39 (ty : Ty) (rnd : Rnd) (z : Bool) : bitAt ((ty.codeF * 128 + rnd.code * 32 + b2n z * 4)) 2 = z := by
  have := Ty.codeF_lt ty; have := Rnd.code_lt rnd; have := b2n_le z
  exact bitAt_of (by omega)

theorem place40 (ty : Ty) (rnd : Rnd) (z : Bool) : (ty.codeF * 128 + rnd.code * 32 + b2n z * 4) < 65536 := by
  have := Ty.codeF_lt ty; have := Rnd.code_lt rnd; have := b2n_le z
  omega

theorem place41 (dty : Ty) (sty : Ty) (rnd : Rnd) (sat : Bool) (z : Bool) (nan : Bool) : Ty.ofCodeF (bits ((dty.codeF * 2048 + sty.codeF * 64 + rnd.code * 16 + b2n sat * 8 + b2n z * 4 + b2n nan * 2)) 11 5) = dty := by
  have := Ty.codeF_lt dty; have := Ty.codeF_lt sty; have := Rnd.code_lt rnd; have := b2n_le sat; have := b2n_le z; have := b2n_le nan
  rw [bits_of (x := dty.codeF) (by omega), Ty.ofCodeF_codeF]

theorem place42 (dty : Ty) (sty : Ty) (rnd : Rnd) (sat : Bool) (z : Bool) (nan : Bool) : Ty.ofCodeF (bits ((dty.codeF * 2048 + sty.codeF * 64 + rnd.code * 16 + b2n sat * 8 + b2n z * 4 + b2n nan * 2)) 6 5) = sty := by
  have := Ty.codeF_lt dty; have := Ty.codeF_lt sty; have := Rnd.code_lt rnd; have := b2n_le sat; have := b2n_le z; have := b2n_le nan
  rw [bits_of (x := sty.codeF) (by omega), Ty.ofCodeF_codeF]

theorem place43 (dty : Ty) (sty : Ty) (rnd : Rnd) (sat : Bool) (z : Bool) (nan : Bool) : Rnd.ofCode (bits ((dty.codeF * 2048 + sty.codeF * 64 + rnd.code * 16 + b2n sat * 8 + b2n z * 4 + b2n nan * 2)) 4 2) = rnd := by
  have := Ty.codeF_lt dty; have := Ty.codeF_lt sty; have := Rnd.code_lt rnd; have := b2n_le sat; have := b2n_le z; have := b2n_le nan
  rw [bits_of (x := rnd.code) (by omega), Rnd.ofCode_code]

theorem place44 (dty : Ty) (sty : Ty) (rnd : Rnd) (sat : Bool) (z : Bool) (nan : Bool) : bitAt ((dty.codeF * 2048 + sty.codeF * 64 + rnd.code * 16 + b2n sat * 8 + b2n z * 4 + b2n nan * 2)) 3 = sat := by
  have := Ty.codeF_lt dty; have := Ty.codeF_lt sty; have := Rnd.code_lt rnd; have := b2n_le sat; have := b2n_le z; have := b2n_le nan
  exact bitAt_of (by omega)

theorem place45 (dty : Ty) (sty : Ty) (rnd : Rnd) (sat : Bool) (z : Bool) (nan : Bool) : bitAt ((dty.codeF * 2048 + sty.codeF * 64 + rnd.code * 16 + b2n sat * 8 + b2n z * 4 + b2n nan * 2)) 2 = z := by
  have := Ty.codeF_lt dty; have := Ty.codeF_lt sty; have := Rnd.code_lt rnd; have := b2n_le sat; have := b2n_le z; have := b2n_le nan
  exact bitAt_of (by omega)

theorem place46 (dty : Ty) (sty : Ty) (rnd : Rnd) (sat : Bool) (z : Bool) (nan : Bool) : bitAt ((dty.codeF * 2048 + sty.codeF * 64 + rnd.code * 16 + b2n sat * 8 + b2n z * 4 + b2n nan * 2)) 1 = nan := by
  have := Ty.codeF_lt dty; have := Ty.codeF_lt sty; have := Rnd.code_lt rnd; have := b2n_le sat; have := b2n_le z; have := b2n_le nan
  exact bitAt_of (by omega)

theorem place47 (dty : Ty) (sty : Ty) (rnd : Rnd) (sat : Bool) (z : Bool) (nan : Bool) : (dty.codeF * 2048 + sty.codeF * 64 + rnd.code * 16 + b2n sat * 8 + b2n z * 4 + b2n nan * 2) < 65536 := by
  have := Ty.codeF_lt dty; have := Ty.codeF_lt sty; have := Rnd.code_lt rnd; have := b2n_le sat; have := b2n_le z; have := b2n_le nan
  omega

theorem place48 (dty : Ty) (sty : Ty) (z : Bool) : Ty.ofCodeF (bits ((dty.codeF * 2048 + sty.codeF * 64 + b2n z * 4)) 11 5) = dty := by
  have := Ty.codeF_lt dty; have := Ty.codeF_lt sty; have := b2n_le z
  rw [bits_of (x := dty.codeF) (by omega), Ty.ofCodeF_codeF]

theorem place49 (dty : Ty) (sty : Ty) (z : Bool) : Ty.ofCodeF (bits ((dty.codeF * 2048 + sty.codeF * 64 + b2n z * 4)) 6 5) = sty := by
  have := Ty.codeF_lt dty; have := Ty.codeF_lt sty; have := b2n_le z
  rw [bits_of (x := sty.codeF) (by omega), Ty.ofCodeF_codeF]

theorem place50 (dty : Ty) (sty : Ty) (z : Bool) : bitAt ((dty.codeF * 2048 + sty.codeF * 64 + b2n z * 4)) 2 = z := by
  have := Ty.codeF_lt dty; have := Ty.codeF_lt sty; have := b2n_le z
  exact bitAt_of (by omega)

theorem place51 (dty : Ty) (sty : Ty) (z : Bool) : (dty.codeF * 2048 + sty.codeF * 64 + b2n z * 4) < 65536 := by
  have := Ty.codeF_lt dty; have := Ty.codeF_lt sty; have := b2n_le z
  omega

theorem place52 (m : LxMode) (ty : Ty) (z : Bool) : LxMode.ofCode (bits ((m.code * 4096 + ty.code * 128 + b2n z * 4)) 12 4) = m := by
  have := LxMode.code_lt m; have := Ty.code_lt ty; have := b2n_le z
  rw [bits_of (x := m.code) (by omega), LxMode.ofCode_code]

theorem place53 (m : LxMode) (ty : Ty) (z : Bool) : Ty.ofCode (bits ((m.code * 4096 + ty.code * 128 + b2n z * 4)) 7 5) = ty := by
  have := LxMode.code_lt m; have := Ty.code_lt ty; have := b2n_le z
  rw [bits_of (x := ty.code) (by omega), Ty.ofCode_code]

theorem place54 (m : LxMode) (ty : Ty) (z : Bool) : bitAt ((m.code * 4096 + ty.code * 128 + b2n z * 4)) 2 = z := by
  have := LxMode.code_lt m; have := Ty.code_lt ty; have := b2n_le z
  exact bitAt_of (by omega)

theorem place55 (m : LxMode) (ty : Ty) (z : Bool) : (m.code * 4096 + ty.code * 128 + b2n z * 4) < 65536 := by
  have := LxMode.code_lt m; have := Ty.code_lt ty; have := b2n_le z
  omega

theorem place56 (k : QsK) (ty : Ty) (z : Bool) : QsK.ofCode (bits ((k.code * 4096 + ty.code * 128 + b2n z * 4)) 12 4) = k := by
  have := QsK.code_lt k; have := Ty.code_lt ty; have := b2n_le z
  rw [bits_of (x := k.code) (by omega), QsK.ofCode_code]

theorem place57 (k : QsK) (ty : Ty) (z : Bool) : Ty.ofCode (bits ((k.code * 4096 + ty.code * 128 + b2n z * 4)) 7 5) = ty := by
  have := QsK.code_lt k; have := Ty.code_lt ty; have := b2n_le z
  rw [bits_of (x := ty.code) (by omega), Ty.ofCode_code]

theorem place58 (k : QsK) (ty : Ty) (z : Bool) : bitAt ((k.code * 4096 + ty.code * 128 + b2n z * 4)) 2 = z := by
  have := QsK.code_lt k; have := Ty.code_lt ty; have := b2n_le z
  exact bitAt_of (by omega)

theorem place59 (k : QsK) (ty : Ty) (z : Bool) : (k.code * 4096 + ty.code * 128 + b2n z * 4) < 65536 := by
  have := QsK.code_lt k; have := Ty.code_lt ty; have := b2n_le z
  omega

theorem place60 (on : Bool) : bitAt ((b2n on * 1)) 0 = on := by
  have := b2n_le on
  exact bitAt_of (by omega)

theorem place61 (on : Bool) : (b2n on * 1) < 262144 := by
  have := b2n_le on
  omega

theorem place62 (m : VoteOp) (z : Bool) : VoteOp.ofCode (bits ((m.code * 4096 + b2n z * 4)) 12 4) = m := by
  have := VoteOp.code_lt m; have := b2n_le z
  rw [bits_of (x := m.code) (by omega), VoteOp.ofCode_code]

theorem place63 (m : VoteOp) (z : Bool) : bitAt ((m.code * 4096 + b2n z * 4)) 2 = z := by
  have := VoteOp.code_lt m; have := b2n_le z
  exact bitAt_of (by omega)

theorem place64 (m : VoteOp) (z : Bool) : (m.code * 4096 + b2n z * 4) < 65536 := by
  have := VoteOp.code_lt m; have := b2n_le z
  omega

theorem place65 (op : RedOp) (ty : Ty) (z : Bool) : RedOp.ofCode (bits ((op.code * 4096 + ty.code * 128 + b2n z * 4)) 12 4) = op := by
  have := RedOp.code_lt op; have := Ty.code_lt ty; have := b2n_le z
  rw [bits_of (x := op.code) (by omega), RedOp.ofCode_code]

theorem place66 (op : RedOp) (ty : Ty) (z : Bool) : Ty.ofCode (bits ((op.code * 4096 + ty.code * 128 + b2n z * 4)) 7 5) = ty := by
  have := RedOp.code_lt op; have := Ty.code_lt ty; have := b2n_le z
  rw [bits_of (x := ty.code) (by omega), Ty.ofCode_code]

theorem place67 (op : RedOp) (ty : Ty) (z : Bool) : bitAt ((op.code * 4096 + ty.code * 128 + b2n z * 4)) 2 = z := by
  have := RedOp.code_lt op; have := Ty.code_lt ty; have := b2n_le z
  exact bitAt_of (by omega)

theorem place68 (op : RedOp) (ty : Ty) (z : Bool) : (op.code * 4096 + ty.code * 128 + b2n z * 4) < 65536 := by
  have := RedOp.code_lt op; have := Ty.code_lt ty; have := b2n_le z
  omega

theorem place69 (op : RedOp) (ty : Ty) (z : Bool) (excl : Bool) : RedOp.ofCode (bits ((op.code * 4096 + ty.code * 128 + b2n z * 4 + b2n excl * 2)) 12 4) = op := by
  have := RedOp.code_lt op; have := Ty.code_lt ty; have := b2n_le z; have := b2n_le excl
  rw [bits_of (x := op.code) (by omega), RedOp.ofCode_code]

theorem place70 (op : RedOp) (ty : Ty) (z : Bool) (excl : Bool) : Ty.ofCode (bits ((op.code * 4096 + ty.code * 128 + b2n z * 4 + b2n excl * 2)) 7 5) = ty := by
  have := RedOp.code_lt op; have := Ty.code_lt ty; have := b2n_le z; have := b2n_le excl
  rw [bits_of (x := ty.code) (by omega), Ty.ofCode_code]

theorem place71 (op : RedOp) (ty : Ty) (z : Bool) (excl : Bool) : bitAt ((op.code * 4096 + ty.code * 128 + b2n z * 4 + b2n excl * 2)) 2 = z := by
  have := RedOp.code_lt op; have := Ty.code_lt ty; have := b2n_le z; have := b2n_le excl
  exact bitAt_of (by omega)

theorem place72 (op : RedOp) (ty : Ty) (z : Bool) (excl : Bool) : bitAt ((op.code * 4096 + ty.code * 128 + b2n z * 4 + b2n excl * 2)) 1 = excl := by
  have := RedOp.code_lt op; have := Ty.code_lt ty; have := b2n_le z; have := b2n_le excl
  exact bitAt_of (by omega)

theorem place73 (op : RedOp) (ty : Ty) (z : Bool) (excl : Bool) : (op.code * 4096 + ty.code * 128 + b2n z * 4 + b2n excl * 2) < 65536 := by
  have := RedOp.code_lt op; have := Ty.code_lt ty; have := b2n_le z; have := b2n_le excl
  omega

theorem place74 (m : MatchOp) (ty : Ty) (z : Bool) : MatchOp.ofCode (bits ((m.code * 4096 + ty.code * 128 + b2n z * 4)) 12 4) = m := by
  have := MatchOp.code_lt m; have := Ty.code_lt ty; have := b2n_le z
  rw [bits_of (x := m.code) (by omega), MatchOp.ofCode_code]

theorem place75 (m : MatchOp) (ty : Ty) (z : Bool) : Ty.ofCode (bits ((m.code * 4096 + ty.code * 128 + b2n z * 4)) 7 5) = ty := by
  have := MatchOp.code_lt m; have := Ty.code_lt ty; have := b2n_le z
  rw [bits_of (x := ty.code) (by omega), Ty.ofCode_code]

theorem place76 (m : MatchOp) (ty : Ty) (z : Bool) : bitAt ((m.code * 4096 + ty.code * 128 + b2n z * 4)) 2 = z := by
  have := MatchOp.code_lt m; have := Ty.code_lt ty; have := b2n_le z
  exact bitAt_of (by omega)

theorem place77 (m : MatchOp) (ty : Ty) (z : Bool) : (m.code * 4096 + ty.code * 128 + b2n z * 4) < 65536 := by
  have := MatchOp.code_lt m; have := Ty.code_lt ty; have := b2n_le z
  omega

theorem place78 (ty : Ty) : Ty.ofCode (bits ((ty.code * 128)) 7 5) = ty := by
  have := Ty.code_lt ty
  rw [bits_of (x := ty.code) (by omega), Ty.ofCode_code]

theorem place79 (ty : Ty) : (ty.code * 128) < 65536 := by
  have := Ty.code_lt ty
  omega

theorem place80 (skip : Bool) : bitAt ((b2n skip * 1)) 0 = skip := by
  have := b2n_le skip
  exact bitAt_of (by omega)

theorem place81 (skip : Bool) : (b2n skip * 1) < 262144 := by
  have := b2n_le skip
  omega

theorem place82 (must : Bool) : bitAt ((b2n must * 1)) 0 = must := by
  have := b2n_le must
  exact bitAt_of (by omega)

theorem place83 (must : Bool) : (b2n must * 1) < 65536 := by
  have := b2n_le must
  omega

theorem place84 (toP : Bool) : bitAt ((b2n toP * 1)) 0 = toP := by
  have := b2n_le toP
  exact bitAt_of (by omega)

theorem place85 (toP : Bool) : (b2n toP * 1) < 262144 := by
  have := b2n_le toP
  omega

theorem place86 (w64 : Bool) (ty : Ty) (sc : Scope) (ord : Ord) (chint : CacheH) : bitAt ((b2n w64 * 32768 + ty.code * 128 + sc.code * 16 + ord.code * 4 + chint.code)) 15 = w64 := by
  have := b2n_le w64; have := Ty.code_lt ty; have := Scope.code_lt sc; have := Ord.code_lt ord; have := CacheH.code_lt chint
  exact bitAt_of (by omega)

theorem place87 (w64 : Bool) (ty : Ty) (sc : Scope) (ord : Ord) (chint : CacheH) : Ty.ofCode (bits ((b2n w64 * 32768 + ty.code * 128 + sc.code * 16 + ord.code * 4 + chint.code)) 7 5) = ty := by
  have := b2n_le w64; have := Ty.code_lt ty; have := Scope.code_lt sc; have := Ord.code_lt ord; have := CacheH.code_lt chint
  rw [bits_of (x := ty.code) (by omega), Ty.ofCode_code]

theorem place88 (w64 : Bool) (ty : Ty) (sc : Scope) (ord : Ord) (chint : CacheH) : Scope.ofCode (bits ((b2n w64 * 32768 + ty.code * 128 + sc.code * 16 + ord.code * 4 + chint.code)) 4 3) = sc := by
  have := b2n_le w64; have := Ty.code_lt ty; have := Scope.code_lt sc; have := Ord.code_lt ord; have := CacheH.code_lt chint
  rw [bits_of (x := sc.code) (by omega), Scope.ofCode_code]

theorem place89 (w64 : Bool) (ty : Ty) (sc : Scope) (ord : Ord) (chint : CacheH) : Ord.ofCode (bits ((b2n w64 * 32768 + ty.code * 128 + sc.code * 16 + ord.code * 4 + chint.code)) 2 2) = ord := by
  have := b2n_le w64; have := Ty.code_lt ty; have := Scope.code_lt sc; have := Ord.code_lt ord; have := CacheH.code_lt chint
  rw [bits_of (x := ord.code) (by omega), Ord.ofCode_code]

theorem place90 (w64 : Bool) (ty : Ty) (sc : Scope) (ord : Ord) (chint : CacheH) : CacheH.ofCode (bits ((b2n w64 * 32768 + ty.code * 128 + sc.code * 16 + ord.code * 4 + chint.code)) 0 2) = chint := by
  have := b2n_le w64; have := Ty.code_lt ty; have := Scope.code_lt sc; have := Ord.code_lt ord; have := CacheH.code_lt chint
  rw [bits_of (x := chint.code) (by omega), CacheH.ofCode_code]

theorem place91 (w64 : Bool) (ty : Ty) (sc : Scope) (ord : Ord) (chint : CacheH) : (b2n w64 * 32768 + ty.code * 128 + sc.code * 16 + ord.code * 4 + chint.code) < 65536 := by
  have := b2n_le w64; have := Ty.code_lt ty; have := Scope.code_lt sc; have := Ord.code_lt ord; have := CacheH.code_lt chint
  omega

theorem place92 (w64 : Bool) (op : AOp) (ty : Ty) (sc : Scope) (ord : Ord) : bitAt ((b2n w64 * 32768 + op.code * 4096 + ty.code * 128 + sc.code * 16 + ord.code * 4)) 15 = w64 := by
  have := b2n_le w64; have := AOp.code_lt op; have := Ty.code_lt ty; have := Scope.code_lt sc; have := Ord.code_lt ord
  exact bitAt_of (by omega)

theorem place93 (w64 : Bool) (op : AOp) (ty : Ty) (sc : Scope) (ord : Ord) : AOp.ofCode (bits ((b2n w64 * 32768 + op.code * 4096 + ty.code * 128 + sc.code * 16 + ord.code * 4)) 12 3) = op := by
  have := b2n_le w64; have := AOp.code_lt op; have := Ty.code_lt ty; have := Scope.code_lt sc; have := Ord.code_lt ord
  rw [bits_of (x := op.code) (by omega), AOp.ofCode_code]

theorem place94 (w64 : Bool) (op : AOp) (ty : Ty) (sc : Scope) (ord : Ord) : Ty.ofCode (bits ((b2n w64 * 32768 + op.code * 4096 + ty.code * 128 + sc.code * 16 + ord.code * 4)) 7 5) = ty := by
  have := b2n_le w64; have := AOp.code_lt op; have := Ty.code_lt ty; have := Scope.code_lt sc; have := Ord.code_lt ord
  rw [bits_of (x := ty.code) (by omega), Ty.ofCode_code]

theorem place95 (w64 : Bool) (op : AOp) (ty : Ty) (sc : Scope) (ord : Ord) : Scope.ofCode (bits ((b2n w64 * 32768 + op.code * 4096 + ty.code * 128 + sc.code * 16 + ord.code * 4)) 4 3) = sc := by
  have := b2n_le w64; have := AOp.code_lt op; have := Ty.code_lt ty; have := Scope.code_lt sc; have := Ord.code_lt ord
  rw [bits_of (x := sc.code) (by omega), Scope.ofCode_code]

theorem place96 (w64 : Bool) (op : AOp) (ty : Ty) (sc : Scope) (ord : Ord) : Ord.ofCode (bits ((b2n w64 * 32768 + op.code * 4096 + ty.code * 128 + sc.code * 16 + ord.code * 4)) 2 2) = ord := by
  have := b2n_le w64; have := AOp.code_lt op; have := Ty.code_lt ty; have := Scope.code_lt sc; have := Ord.code_lt ord
  rw [bits_of (x := ord.code) (by omega), Ord.ofCode_code]

theorem place97 (w64 : Bool) (op : AOp) (ty : Ty) (sc : Scope) (ord : Ord) : (b2n w64 * 32768 + op.code * 4096 + ty.code * 128 + sc.code * 16 + ord.code * 4) < 65536 := by
  have := b2n_le w64; have := AOp.code_lt op; have := Ty.code_lt ty; have := Scope.code_lt sc; have := Ord.code_lt ord
  omega

theorem place98 (op : AOp) (ty : Ty) : AOp.ofCode (bits ((op.code * 4096 + ty.code * 128)) 12 3) = op := by
  have := AOp.code_lt op; have := Ty.code_lt ty
  rw [bits_of (x := op.code) (by omega), AOp.ofCode_code]

theorem place99 (op : AOp) (ty : Ty) : Ty.ofCode (bits ((op.code * 4096 + ty.code * 128)) 7 5) = ty := by
  have := AOp.code_lt op; have := Ty.code_lt ty
  rw [bits_of (x := ty.code) (by omega), Ty.ofCode_code]

theorem place100 (op : AOp) (ty : Ty) : (op.code * 4096 + ty.code * 128) < 65536 := by
  have := AOp.code_lt op; have := Ty.code_lt ty
  omega

theorem place101 (w64 : Bool) (ty : Ty) (sc : Scope) (ord : Ord) : bitAt ((b2n w64 * 32768 + ty.code * 128 + sc.code * 16 + ord.code * 4)) 15 = w64 := by
  have := b2n_le w64; have := Ty.code_lt ty; have := Scope.code_lt sc; have := Ord.code_lt ord
  exact bitAt_of (by omega)

theorem place102 (w64 : Bool) (ty : Ty) (sc : Scope) (ord : Ord) : Ty.ofCode (bits ((b2n w64 * 32768 + ty.code * 128 + sc.code * 16 + ord.code * 4)) 7 5) = ty := by
  have := b2n_le w64; have := Ty.code_lt ty; have := Scope.code_lt sc; have := Ord.code_lt ord
  rw [bits_of (x := ty.code) (by omega), Ty.ofCode_code]

theorem place103 (w64 : Bool) (ty : Ty) (sc : Scope) (ord : Ord) : Scope.ofCode (bits ((b2n w64 * 32768 + ty.code * 128 + sc.code * 16 + ord.code * 4)) 4 3) = sc := by
  have := b2n_le w64; have := Ty.code_lt ty; have := Scope.code_lt sc; have := Ord.code_lt ord
  rw [bits_of (x := sc.code) (by omega), Scope.ofCode_code]

theorem place104 (w64 : Bool) (ty : Ty) (sc : Scope) (ord : Ord) : Ord.ofCode (bits ((b2n w64 * 32768 + ty.code * 128 + sc.code * 16 + ord.code * 4)) 2 2) = ord := by
  have := b2n_le w64; have := Ty.code_lt ty; have := Scope.code_lt sc; have := Ord.code_lt ord
  rw [bits_of (x := ord.code) (by omega), Ord.ofCode_code]

theorem place105 (w64 : Bool) (ty : Ty) (sc : Scope) (ord : Ord) : (b2n w64 * 32768 + ty.code * 128 + sc.code * 16 + ord.code * 4) < 65536 := by
  have := b2n_le w64; have := Ty.code_lt ty; have := Scope.code_lt sc; have := Ord.code_lt ord
  omega

theorem place106 (sc : Scope) : Scope.ofCode (bits ((sc.code * 16)) 4 3) = sc := by
  have := Scope.code_lt sc
  rw [bits_of (x := sc.code) (by omega), Scope.ofCode_code]

theorem place107 (sc : Scope) : (sc.code * 16) < 65536 := by
  have := Scope.code_lt sc
  omega

theorem place108 (w64 : Bool) : bitAt ((b2n w64 * 32768)) 15 = w64 := by
  have := b2n_le w64
  exact bitAt_of (by omega)

theorem place109 (w64 : Bool) : (b2n w64 * 32768) < 65536 := by
  have := b2n_le w64
  omega

theorem place110 (w64 : Bool) (chint : CacheH) : bitAt ((b2n w64 * 32768 + chint.code)) 15 = w64 := by
  have := b2n_le w64; have := CacheH.code_lt chint
  exact bitAt_of (by omega)

theorem place111 (w64 : Bool) (chint : CacheH) : CacheH.ofCode (bits ((b2n w64 * 32768 + chint.code)) 0 2) = chint := by
  have := b2n_le w64; have := CacheH.code_lt chint
  rw [bits_of (x := chint.code) (by omega), CacheH.ofCode_code]

theorem place112 (w64 : Bool) (chint : CacheH) : (b2n w64 * 32768 + chint.code) < 65536 := by
  have := b2n_le w64; have := CacheH.code_lt chint
  omega

theorem place113 (w64 : Bool) (sc : Scope) : bitAt ((b2n w64 * 32768 + sc.code * 16)) 15 = w64 := by
  have := b2n_le w64; have := Scope.code_lt sc
  exact bitAt_of (by omega)

theorem place114 (w64 : Bool) (sc : Scope) : Scope.ofCode (bits ((b2n w64 * 32768 + sc.code * 16)) 4 3) = sc := by
  have := b2n_le w64; have := Scope.code_lt sc
  rw [bits_of (x := sc.code) (by omega), Scope.ofCode_code]

theorem place115 (w64 : Bool) (sc : Scope) : (b2n w64 * 32768 + sc.code * 16) < 65536 := by
  have := b2n_le w64; have := Scope.code_lt sc
  omega

theorem place116 (w64 : Bool) (lock : Bool) : bitAt ((b2n w64 * 32768 + b2n lock * 4096)) 15 = w64 := by
  have := b2n_le w64; have := b2n_le lock
  exact bitAt_of (by omega)

theorem place117 (w64 : Bool) (lock : Bool) : bitAt ((b2n w64 * 32768 + b2n lock * 4096)) 12 = lock := by
  have := b2n_le w64; have := b2n_le lock
  exact bitAt_of (by omega)

theorem place118 (w64 : Bool) (lock : Bool) : (b2n w64 * 32768 + b2n lock * 4096) < 65536 := by
  have := b2n_le w64; have := b2n_le lock
  omega

theorem place119 (core : CoreSel) : CoreSel.ofCode (bits ((core.code)) 0 3) = core := by
  have := CoreSel.code_lt core
  rw [bits_of (x := core.code) (by omega), CoreSel.ofCode_code]

theorem place120 (core : CoreSel) : (core.code) < 65536 := by
  have := CoreSel.code_lt core
  omega

theorem place121 (sat : Bool) (dty : Ty) (core : CoreSel) : bitAt ((b2n sat * 1024 + dty.code * 32 + core.code)) 10 = sat := by
  have := b2n_le sat; have := Ty.code_lt dty; have := CoreSel.code_lt core
  exact bitAt_of (by omega)

theorem place122 (sat : Bool) (dty : Ty) (core : CoreSel) : Ty.ofCode (bits ((b2n sat * 1024 + dty.code * 32 + core.code)) 5 5) = dty := by
  have := b2n_le sat; have := Ty.code_lt dty; have := CoreSel.code_lt core
  rw [bits_of (x := dty.code) (by omega), Ty.ofCode_code]

theorem place123 (sat : Bool) (dty : Ty) (core : CoreSel) : CoreSel.ofCode (bits ((b2n sat * 1024 + dty.code * 32 + core.code)) 0 3) = core := by
  have := b2n_le sat; have := Ty.code_lt dty; have := CoreSel.code_lt core
  rw [bits_of (x := core.code) (by omega), CoreSel.ofCode_code]

theorem place124 (cst : CSrc) : CSrc.ofCode (bits ((cst.code)) 0 2) = cst := by
  have := CSrc.code_lt cst
  rw [bits_of (x := cst.code) (by omega), CSrc.ofCode_code]

theorem place125 (sat : Bool) (dty : Ty) (core : CoreSel) : (b2n sat * 1024 + dty.code * 32 + core.code) < 65536 := by
  have := b2n_le sat; have := Ty.code_lt dty; have := CoreSel.code_lt core
  omega

theorem place126 (cst : CSrc) : (cst.code) < 262144 := by
  have := CSrc.code_lt cst
  omega

theorem place127 (off : Bool) : bitAt ((b2n off * 1)) 0 = off := by
  have := b2n_le off
  exact bitAt_of (by omega)

theorem place128 (off : Bool) : (b2n off * 1) < 262144 := by
  have := b2n_le off
  omega
end Sys2Proof

namespace Sys2Proof.Laws.Coded

/-- Its fields fit the word (Table 6-1), name an assigned opcode, and are read back as the instruction itself. -/
def Statement (i : Instr) : Prop :=
  ∀ seq, i.wf seq = true → i.fields.instr = i ∧ i.fields.fits ∧ assigned i.fields.opc = true

theorem nop h : Statement (.nop h) := by
  intro seq hw
  obtain ⟨_, e, hF, hm, -, ho, hp⟩ := wf_parts hw
  cases e
  refine ⟨?_, fits_mk (opc := 0x000) (d := 0) (a := 0) (b := 0) (c := 0) (m := (0)) (e := (0)) hF (by decide) (Nat.zero_lt_succ _) (Nat.zero_lt_succ _) (Nat.zero_lt_succ _) (Nat.zero_lt_succ _) (Nat.zero_lt_succ _) (Nat.zero_lt_succ _), rfl⟩
  show Instr.nop (mkF h 0x000 0 0 0 0 (0) (0)).hdr = _
  rw [Instr.nop.injEq]
  exact hdr_mk hF ..

theorem iadd h ty sat z d a b : Statement (.iadd h ty sat z d a b) := by
  intro seq hw
  obtain ⟨_, e, hF, hm, -, ho, hp⟩ := wf_parts hw
  cases e
  have ho0 : d.inRange = true := ho _ (List.getElem_mem (l := Instr.opers (.iadd h ty sat z d a b)) (n := 0) (by show 0 < 3; decide))
  have ho1 : a.inRange = true := ho _ (List.getElem_mem (l := Instr.opers (.iadd h ty sat z d a b)) (n := 1) (by show 1 < 3; decide))
  have ho2 : b.inRange = true := ho _ (List.getElem_mem (l := Instr.opers (.iadd h ty sat z d a b)) (n := 2) (by show 2 < 3; decide))
  refine ⟨?_, fits_mk (opc := 0x001) (d := d.code) (a := a.code) (b := b.code) (c := 0) (m := (ty.code * 128 + b2n sat * 8 + b2n z * 4)) (e := (0)) hF (by decide) (Opnd.code_lt ho0) (Opnd.code_lt ho1) (Opnd.code_lt ho2) (Nat.zero_lt_succ _) (place3 ..) (Nat.zero_lt_succ _), rfl⟩
  show Instr.iadd (mkF h 0x001 d.code a.code b.code 0 (ty.code * 128 + b2n sat * 8 + b2n z * 4) (0)).hdr (Ty.ofCode (bits ((ty.code * 128 + b2n sat * 8 + b2n z * 4)) 7 5)) (bitAt ((ty.code * 128 + b2n sat * 8 + b2n z * 4)) 3) (bitAt ((ty.code * 128 + b2n sat * 8 + b2n z * 4)) 2) (Opnd.ofCode (d.code)) (Opnd.ofCode (a.code)) (Opnd.ofCode (b.code)) = _
  rw [Instr.iadd.injEq]
  exact ⟨hdr_mk hF .., place0 .., place1 .., place2 .., Opnd.ofCode_code ho0, Opnd.ofCode_code ho1, Opnd.ofCode_code ho2⟩

theorem isub h ty sat z d a b : Statement (.isub h ty sat z d a b) := by
  intro seq hw
  obtain ⟨_, e, hF, hm, -, ho, hp⟩ := wf_parts hw
  cases e
  have ho0 : d.inRange = true := ho _ (List.getElem_mem (l := Instr.opers (.isub h ty sat z d a b)) (n := 0) (by show 0 < 3; decide))
  have ho1 : a.inRange = true := ho _ (List.getElem_mem (l := Instr.opers (.isub h ty sat z d a b)) (n := 1) (by show 1 < 3; decide))
  have ho2 : b.inRange = true := ho _ (List.getElem_mem (l := Instr.opers (.isub h ty sat z d a b)) (n := 2) (by show 2 < 3; decide))
  refine ⟨?_, fits_mk (opc := 0x002) (d := d.code) (a := a.code) (b := b.code) (c := 0) (m := (ty.code * 128 + b2n sat * 8 + b2n z * 4)) (e := (0)) hF (by decide) (Opnd.code_lt ho0) (Opnd.code_lt ho1) (Opnd.code_lt ho2) (Nat.zero_lt_succ _) (place3 ..) (Nat.zero_lt_succ _), rfl⟩
  show Instr.isub (mkF h 0x002 d.code a.code b.code 0 (ty.code * 128 + b2n sat * 8 + b2n z * 4) (0)).hdr (Ty.ofCode (bits ((ty.code * 128 + b2n sat * 8 + b2n z * 4)) 7 5)) (bitAt ((ty.code * 128 + b2n sat * 8 + b2n z * 4)) 3) (bitAt ((ty.code * 128 + b2n sat * 8 + b2n z * 4)) 2) (Opnd.ofCode (d.code)) (Opnd.ofCode (a.code)) (Opnd.ofCode (b.code)) = _
  rw [Instr.isub.injEq]
  exact ⟨hdr_mk hF .., place0 .., place1 .., place2 .., Opnd.ofCode_code ho0, Opnd.ofCode_code ho1, Opnd.ofCode_code ho2⟩

theorem iadd3 h ty sat z d a b c : Statement (.iadd3 h ty sat z d a b c) := by
  intro seq hw
  obtain ⟨_, e, hF, hm, -, ho, hp⟩ := wf_parts hw
  cases e
  have ho0 : d.inRange = true := ho _ (List.getElem_mem (l := Instr.opers (.iadd3 h ty sat z d a b c)) (n := 0) (by show 0 < 4; decide))
  have ho1 : a.inRange = true := ho _ (List.getElem_mem (l := Instr.opers (.iadd3 h ty sat z d a b c)) (n := 1) (by show 1 < 4; decide))
  have ho2 : b.inRange = true := ho _ (List.getElem_mem (l := Instr.opers (.iadd3 h ty sat z d a b c)) (n := 2) (by show 2 < 4; decide))
  have ho3 : c.inRange = true := ho _ (List.getElem_mem (l := Instr.opers (.iadd3 h ty sat z d a b c)) (n := 3) (by show 3 < 4; decide))
  refine ⟨?_, fits_mk (opc := 0x003) (d := d.code) (a := a.code) (b := b.code) (c := c.code) (m := (ty.code * 128 + b2n sat * 8 + b2n z * 4)) (e := (0)) hF (by decide) (Opnd.code_lt ho0) (Opnd.code_lt ho1) (Opnd.code_lt ho2) (Opnd.code_lt ho3) (place3 ..) (Nat.zero_lt_succ _), rfl⟩
  show Instr.iadd3 (mkF h 0x003 d.code a.code b.code c.code (ty.code * 128 + b2n sat * 8 + b2n z * 4) (0)).hdr (Ty.ofCode (bits ((ty.code * 128 + b2n sat * 8 + b2n z * 4)) 7 5)) (bitAt ((ty.code * 128 + b2n sat * 8 + b2n z * 4)) 3) (bitAt ((ty.code * 128 + b2n sat * 8 + b2n z * 4)) 2) (Opnd.ofCode (d.code)) (Opnd.ofCode (a.code)) (Opnd.ofCode (b.code)) (Opnd.ofCode (c.code)) = _
  rw [Instr.iadd3.injEq]
  exact ⟨hdr_mk hF .., place0 .., place1 .., place2 .., Opnd.ofCode_code ho0, Opnd.ofCode_code ho1, Opnd.ofCode_code ho2, Opnd.ofCode_code ho3⟩

theorem iaddc h ty z d a b cin cout : Statement (.iaddc h ty z d a b cin cout) := by
  intro seq hw
  obtain ⟨_, e, hF, hm, -, ho, hp⟩ := wf_parts hw
  cases e
  have ho0 : d.inRange = true := ho _ (List.getElem_mem (l := Instr.opers (.iaddc h ty z d a b cin cout)) (n := 0) (by show 0 < 3; decide))
  have ho1 : a.inRange = true := ho _ (List.getElem_mem (l := Instr.opers (.iaddc h ty z d a b cin cout)) (n := 1) (by show 1 < 3; decide))
  have ho2 : b.inRange = true := ho _ (List.getElem_mem (l := Instr.opers (.iaddc h ty z d a b cin cout)) (n := 2) (by show 2 < 3; decide))
  replace hm : ((decide (ty ∈ [.b32, .u32]) && cin < 16 && cout < 16 : Bool)) = true := hm
  simp only [Bool.and_eq_true, decide_eq_true_eq] at hm
  simp only [Instr.predUses, List.mem_cons, List.not_mem_nil, or_false, forall_eq_or_imp, forall_eq] at hp
  refine ⟨?_, fits_mk (opc := 0x004) (d := d.code) (a := a.code) (b := b.code) (c := 0) (m := (ty.code * 128 + b2n z * 4)) (e := (cin * 1 + cout * 16)) hF (by decide) (Opnd.code_lt ho0) (Opnd.code_lt ho1) (Opnd.code_lt ho2) (Nat.zero_lt_succ _) (place6 ..) (by omega), rfl⟩
  show Instr.iaddc (mkF h 0x004 d.code a.code b.code 0 (ty.code * 128 + b2n z * 4) (cin * 1 + cout * 16)).hdr (Ty.ofCode (bits ((ty.code * 128 + b2n z * 4)) 7 5)) (bitAt ((ty.code * 128 + b2n z * 4)) 2) (Opnd.ofCode (d.code)) (Opnd.ofCode (a.code)) (Opnd.ofCode (b.code)) (bits ((cin * 1 + cout * 16)) 0 4) (bits ((cin * 1 + cout * 16)) 4 4) = _
  rw [Instr.iaddc.injEq]
  exact ⟨hdr_mk hF .., place4 .., place5 .., Opnd.ofCode_code ho0, Opnd.ofCode_code ho1, Opnd.ofCode_code ho2, bits_of (by omega), bits_of (by omega)⟩

theorem imul h ty z d a b : Statement (.imul h ty z d a b) := by
  intro seq hw
  obtain ⟨_, e, hF, hm, -, ho, hp⟩ := wf_parts hw
  cases e
  have ho0 : d.inRange = true := ho _ (List.getElem_mem (l := Instr.opers (.imul h ty z d a b)) (n := 0) (by show 0 < 3; decide))
  have ho1 : a.inRange = true := ho _ (List.getElem_mem (l := Instr.opers (.imul h ty z d a b)) (n := 1) (by show 1 < 3; decide))
  have ho2 : b.inRange = true := ho _ (List.getElem_mem (l := Instr.opers (.imul h ty z d a b)) (n := 2) (by show 2 < 3; decide))
  refine ⟨?_, fits_mk (opc := 0x005) (d := d.code) (a := a.code) (b := b.code) (c := 0) (m := (ty.code * 128 + b2n z * 4)) (e := (0)) hF (by decide) (Opnd.code_lt ho0) (Opnd.code_lt ho1) (Opnd.code_lt ho2) (Nat.zero_lt_succ _) (place6 ..) (Nat.zero_lt_succ _), rfl⟩
  show Instr.imul (mkF h 0x005 d.code a.code b.code 0 (ty.code * 128 + b2n z * 4) (0)).hdr (Ty.ofCode (bits ((ty.code * 128 + b2n z * 4)) 7 5)) (bitAt ((ty.code * 128 + b2n z * 4)) 2) (Opnd.ofCode (d.code)) (Opnd.ofCode (a.code)) (Opnd.ofCode (b.code)) = _
  rw [Instr.imul.injEq]
  exact ⟨hdr_mk hF .., place4 .., place5 .., Opnd.ofCode_code ho0, Opnd.ofCode_code ho1, Opnd.ofCode_code ho2⟩

theorem imulh h ty z d a b : Statement (.imulh h ty z d a b) := by
  intro seq hw
  obtain ⟨_, e, hF, hm, -, ho, hp⟩ := wf_parts hw
  cases e
  have ho0 : d.inRange = true := ho _ (List.getElem_mem (l := Instr.opers (.imulh h ty z d a b)) (n := 0) (by show 0 < 3; decide))
  have ho1 : a.inRange = true := ho _ (List.getElem_mem (l := Instr.opers (.imulh h ty z d a b)) (n := 1) (by show 1 < 3; decide))
  have ho2 : b.inRange = true := ho _ (List.getElem_mem (l := Instr.opers (.imulh h ty z d a b)) (n := 2) (by show 2 < 3; decide))
  refine ⟨?_, fits_mk (opc := 0x006) (d := d.code) (a := a.code) (b := b.code) (c := 0) (m := (ty.code * 128 + b2n z * 4)) (e := (0)) hF (by decide) (Opnd.code_lt ho0) (Opnd.code_lt ho1) (Opnd.code_lt ho2) (Nat.zero_lt_succ _) (place6 ..) (Nat.zero_lt_succ _), rfl⟩
  show Instr.imulh (mkF h 0x006 d.code a.code b.code 0 (ty.code * 128 + b2n z * 4) (0)).hdr (Ty.ofCode (bits ((ty.code * 128 + b2n z * 4)) 7 5)) (bitAt ((ty.code * 128 + b2n z * 4)) 2) (Opnd.ofCode (d.code)) (Opnd.ofCode (a.code)) (Opnd.ofCode (b.code)) = _
  rw [Instr.imulh.injEq]
  exact ⟨hdr_mk hF .., place4 .., place5 .., Opnd.ofCode_code ho0, Opnd.ofCode_code ho1, Opnd.ofCode_code ho2⟩

theorem imad h ty sat z d a b c : Statement (.imad h ty sat z d a b c) := by
  intro seq hw
  obtain ⟨_, e, hF, hm, -, ho, hp⟩ := wf_parts hw
  cases e
  have ho0 : d.inRange = true := ho _ (List.getElem_mem (l := Instr.opers (.imad h ty sat z d a b c)) (n := 0) (by show 0 < 4; decide))
  have ho1 : a.inRange = true := ho _ (List.getElem_mem (l := Instr.opers (.imad h ty sat z d a b c)) (n := 1) (by show 1 < 4; decide))
  have ho2 : b.inRange = true := ho _ (List.getElem_mem (l := Instr.opers (.imad h ty sat z d a b c)) (n := 2) (by show 2 < 4; decide))
  have ho3 : c.inRange = true := ho _ (List.getElem_mem (l := Instr.opers (.imad h ty sat z d a b c)) (n := 3) (by show 3 < 4; decide))
  refine ⟨?_, fits_mk (opc := 0x007) (d := d.code) (a := a.code) (b := b.code) (c := c.code) (m := (ty.code * 128 + b2n sat * 8 + b2n z * 4)) (e := (0)) hF (by decide) (Opnd.code_lt ho0) (Opnd.code_lt ho1) (Opnd.code_lt ho2) (Opnd.code_lt ho3) (place3 ..) (Nat.zero_lt_succ _), rfl⟩
  show Instr.imad (mkF h 0x007 d.code a.code b.code c.code (ty.code * 128 + b2n sat * 8 + b2n z * 4) (0)).hdr (Ty.ofCode (bits ((ty.code * 128 + b2n sat * 8 + b2n z * 4)) 7 5)) (bitAt ((ty.code * 128 + b2n sat * 8 + b2n z * 4)) 3) (bitAt ((ty.code * 128 + b2n sat * 8 + b2n z * 4)) 2) (Opnd.ofCode (d.code)) (Opnd.ofCode (a.code)) (Opnd.ofCode (b.code)) (Opnd.ofCode (c.code)) = _
  rw [Instr.imad.injEq]
  exact ⟨hdr_mk hF .., place0 .., place1 .., place2 .., Opnd.ofCode_code ho0, Opnd.ofCode_code ho1, Opnd.ofCode_code ho2, Opnd.ofCode_code ho3⟩

theorem imadw h ty z d a b c : Statement (.imadw h ty z d a b c) := by
  intro seq hw
  obtain ⟨_, e, hF, hm, -, ho, hp⟩ := wf_parts hw
  cases e
  have ho0 : d.inRange = true := ho _ (List.getElem_mem (l := Instr.opers (.imadw h ty z d a b c)) (n := 0) (by show 0 < 4; decide))
  have ho1 : a.inRange = true := ho _ (List.getElem_mem (l := Instr.opers (.imadw h ty z d a b c)) (n := 1) (by show 1 < 4; decide))
  have ho2 : b.inRange = true := ho _ (List.getElem_mem (l := Instr.opers (.imadw h ty z d a b c)) (n := 2) (by show 2 < 4; decide))
  have ho3 : c.inRange = true := ho _ (List.getElem_mem (l := Instr.opers (.imadw h ty z d a b c)) (n := 3) (by show 3 < 4; decide))
  refine ⟨?_, fits_mk (opc := 0x008) (d := d.code) (a := a.code) (b := b.code) (c := c.code) (m := (ty.code * 128 + b2n z * 4)) (e := (0)) hF (by decide) (Opnd.code_lt ho0) (Opnd.code_lt ho1) (Opnd.code_lt ho2) (Opnd.code_lt ho3) (place6 ..) (Nat.zero_lt_succ _), rfl⟩
  show Instr.imadw (mkF h 0x008 d.code a.code b.code c.code (ty.code * 128 + b2n z * 4) (0)).hdr (Ty.ofCode (bits ((ty.code * 128 + b2n z * 4)) 7 5)) (bitAt ((ty.code * 128 + b2n z * 4)) 2) (Opnd.ofCode (d.code)) (Opnd.ofCode (a.code)) (Opnd.ofCode (b.code)) (Opnd.ofCode (c.code)) = _
  rw [Instr.imadw.injEq]
  exact ⟨hdr_mk hF .., place4 .., place5 .., Opnd.ofCode_code ho0, Opnd.ofCode_code ho1, Opnd.ofCode_code ho2, Opnd.ofCode_code ho3⟩

theorem idiv h ty z d a b : Statement (.idiv h ty z d a b) := by
  intro seq hw
  obtain ⟨_, e, hF, hm, -, ho, hp⟩ := wf_parts hw
  cases e
  have ho0 : d.inRange = true := ho _ (List.getElem_mem (l := Instr.opers (.idiv h ty z d a b)) (n := 0) (by show 0 < 3; decide))
  have ho1 : a.inRange = true := ho _ (List.getElem_mem (l := Instr.opers (.idiv h ty z d a b)) (n := 1) (by show 1 < 3; decide))
  have ho2 : b.inRange = true := ho _ (List.getElem_mem (l := Instr.opers (.idiv h ty z d a b)) (n := 2) (by show 2 < 3; decide))
  refine ⟨?_, fits_mk (opc := 0x009) (d := d.code) (a := a.code) (b := b.code) (c := 0) (m := (ty.code * 128 + b2n z * 4)) (e := (0)) hF (by decide) (Opnd.code_lt ho0) (Opnd.code_lt ho1) (Opnd.code_lt ho2) (Nat.zero_lt_succ _) (place6 ..) (Nat.zero_lt_succ _), rfl⟩
  show Instr.idiv (mkF h 0x009 d.code a.code b.code 0 (ty.code * 128 + b2n z * 4) (0)).hdr (Ty.ofCode (bits ((ty.code * 128 + b2n z * 4)) 7 5)) (bitAt ((ty.code * 128 + b2n z * 4)) 2) (Opnd.ofCode (d.code)) (Opnd.ofCode (a.code)) (Opnd.ofCode (b.code)) = _
  rw [Instr.idiv.injEq]
  exact ⟨hdr_mk hF .., place4 .., place5 .., Opnd.ofCode_code ho0, Opnd.ofCode_code ho1, Opnd.ofCode_code ho2⟩

theorem irem h ty z d a b : Statement (.irem h ty z d a b) := by
  intro seq hw
  obtain ⟨_, e, hF, hm, -, ho, hp⟩ := wf_parts hw
  cases e
  have ho0 : d.inRange = true := ho _ (List.getElem_mem (l := Instr.opers (.irem h ty z d a b)) (n := 0) (by show 0 < 3; decide))
  have ho1 : a.inRange = true := ho _ (List.getElem_mem (l := Instr.opers (.irem h ty z d a b)) (n := 1) (by show 1 < 3; decide))
  have ho2 : b.inRange = true := ho _ (List.getElem_mem (l := Instr.opers (.irem h ty z d a b)) (n := 2) (by show 2 < 3; decide))
  refine ⟨?_, fits_mk (opc := 0x00A) (d := d.code) (a := a.code) (b := b.code) (c := 0) (m := (ty.code * 128 + b2n z * 4)) (e := (0)) hF (by decide) (Opnd.code_lt ho0) (Opnd.code_lt ho1) (Opnd.code_lt ho2) (Nat.zero_lt_succ _) (place6 ..) (Nat.zero_lt_succ _), rfl⟩
  show Instr.irem (mkF h 0x00A d.code a.code b.code 0 (ty.code * 128 + b2n z * 4) (0)).hdr (Ty.ofCode (bits ((ty.code * 128 + b2n z * 4)) 7 5)) (bitAt ((ty.code * 128 + b2n z * 4)) 2) (Opnd.ofCode (d.code)) (Opnd.ofCode (a.code)) (Opnd.ofCode (b.code)) = _
  rw [Instr.irem.injEq]
  exact ⟨hdr_mk hF .., place4 .., place5 .., Opnd.ofCode_code ho0, Opnd.ofCode_code ho1, Opnd.ofCode_code ho2⟩

theorem imin h ty z d a b : Statement (.imin h ty z d a b) := by
  intro seq hw
  obtain ⟨_, e, hF, hm, -, ho, hp⟩ := wf_parts hw
  cases e
  have ho0 : d.inRange = true := ho _ (List.getElem_mem (l := Instr.opers (.imin h ty z d a b)) (n := 0) (by show 0 < 3; decide))
  have ho1 : a.inRange = true := ho _ (List.getElem_mem (l := Instr.opers (.imin h ty z d a b)) (n := 1) (by show 1 < 3; decide))
  have ho2 : b.inRange = true := ho _ (List.getElem_mem (l := Instr.opers (.imin h ty z d a b)) (n := 2) (by show 2 < 3; decide))
  refine ⟨?_, fits_mk (opc := 0x00B) (d := d.code) (a := a.code) (b := b.code) (c := 0) (m := (ty.code * 128 + b2n z * 4)) (e := (0)) hF (by decide) (Opnd.code_lt ho0) (Opnd.code_lt ho1) (Opnd.code_lt ho2) (Nat.zero_lt_succ _) (place6 ..) (Nat.zero_lt_succ _), rfl⟩
  show Instr.imin (mkF h 0x00B d.code a.code b.code 0 (ty.code * 128 + b2n z * 4) (0)).hdr (Ty.ofCode (bits ((ty.code * 128 + b2n z * 4)) 7 5)) (bitAt ((ty.code * 128 + b2n z * 4)) 2) (Opnd.ofCode (d.code)) (Opnd.ofCode (a.code)) (Opnd.ofCode (b.code)) = _
  rw [Instr.imin.injEq]
  exact ⟨hdr_mk hF .., place4 .., place5 .., Opnd.ofCode_code ho0, Opnd.ofCode_code ho1, Opnd.ofCode_code ho2⟩

theorem imax h ty z d a b : Statement (.imax h ty z d a b) := by
  intro seq hw
  obtain ⟨_, e, hF, hm, -, ho, hp⟩ := wf_parts hw
  cases e
  have ho0 : d.inRange = true := ho _ (List.getElem_mem (l := Instr.opers (.imax h ty z d a b)) (n := 0) (by show 0 < 3; decide))
  have ho1 : a.inRange = true := ho _ (List.getElem_mem (l := Instr.opers (.imax h ty z d a b)) (n := 1) (by show 1 < 3; decide))
  have ho2 : b.inRange = true := ho _ (List.getElem_mem (l := Instr.opers (.imax h ty z d a b)) (n := 2) (by show 2 < 3; decide))
  refine ⟨?_, fits_mk (opc := 0x00C) (d := d.code) (a := a.code) (b := b.code) (c := 0) (m := (ty.code * 128 + b2n z * 4)) (e := (0)) hF (by decide) (Opnd.code_lt ho0) (Opnd.code_lt ho1) (Opnd.code_lt ho2) (Nat.zero_lt_succ _) (place6 ..) (Nat.zero_lt_succ _), rfl⟩
  show Instr.imax (mkF h 0x00C d.code a.code b.code 0 (ty.code * 128 + b2n z * 4) (0)).hdr (Ty.ofCode (bits ((ty.code * 128 + b2n z * 4)) 7 5)) (bitAt ((ty.code * 128 + b2n z * 4)) 2) (Opnd.ofCode (d.code)) (Opnd.ofCode (a.code)) (Opnd.ofCode (b.code)) = _
  rw [Instr.imax.injEq]
  exact ⟨hdr_mk hF .., place4 .., place5 .., Opnd.ofCode_code ho0, Opnd.ofCode_code ho1, Opnd.ofCode_code ho2⟩

theorem iabs h ty sat z d a : Statement (.iabs h ty sat z d a) := by
  intro seq hw
  obtain ⟨_, e, hF, hm, -, ho, hp⟩ := wf_parts hw
  cases e
  have ho0 : d.inRange = true := ho _ (List.getElem_mem (l := Instr.opers (.iabs h ty sat z d a)) (n := 0) (by show 0 < 2; decide))
  have ho1 : a.inRange = true := ho _ (List.getElem_mem (l := Instr.opers (.iabs h ty sat z d a)) (n := 1) (by show 1 < 2; decide))
  refine ⟨?_, fits_mk (opc := 0x00D) (d := d.code) (a := a.code) (b := 0) (c := 0) (m := (ty.code * 128 + b2n sat * 8 + b2n z * 4)) (e := (0)) hF (by decide) (Opnd.code_lt ho0) (Opnd.code_lt ho1) (Nat.zero_lt_succ _) (Nat.zero_lt_succ _) (place3 ..) (Nat.zero_lt_succ _), rfl⟩
  show Instr.iabs (mkF h 0x00D d.code a.code 0 0 (ty.code * 128 + b2n sat * 8 + b2n z * 4) (0)).hdr (Ty.ofCode (bits ((ty.code * 128 + b2n sat * 8 + b2n z * 4)) 7 5)) (bitAt ((ty.code * 128 + b2n sat * 8 + b2n z * 4)) 3) (bitAt ((ty.code * 128 + b2n sat * 8 + b2n z * 4)) 2) (Opnd.ofCode (d.code)) (Opnd.ofCode (a.code)) = _
  rw [Instr.iabs.injEq]
  exact ⟨hdr_mk hF .., place0 .., place1 .., place2 .., Opnd.ofCode_code ho0, Opnd.ofCode_code ho1⟩

theorem ineg h ty sat z d a : Statement (.ineg h ty sat z d a) := by
  intro seq hw
  obtain ⟨_, e, hF, hm, -, ho, hp⟩ := wf_parts hw
  cases e
  have ho0 : d.inRange = true := ho _ (List.getElem_mem (l := Instr.opers (.ineg h ty sat z d a)) (n := 0) (by show 0 < 2; decide))
  have ho1 : a.inRange = true := ho _ (List.getElem_mem (l := Instr.opers (.ineg h ty sat z d a)) (n := 1) (by show 1 < 2; decide))
  refine ⟨?_, fits_mk (opc := 0x00E) (d := d.code) (a := a.code) (b := 0) (c := 0) (m := (ty.code * 128 + b2n sat * 8 + b2n z * 4)) (e := (0)) hF (by decide) (Opnd.code_lt ho0) (Opnd.code_lt ho1) (Nat.zero_lt_succ _) (Nat.zero_lt_succ _) (place3 ..) (Nat.zero_lt_succ _), rfl⟩
  show Instr.ineg (mkF h 0x00E d.code a.code 0 0 (ty.code * 128 + b2n sat * 8 + b2n z * 4) (0)).hdr (Ty.ofCode (bits ((ty.code * 128 + b2n sat * 8 + b2n z * 4)) 7 5)) (bitAt ((ty.code * 128 + b2n sat * 8 + b2n z * 4)) 3) (bitAt ((ty.code * 128 + b2n sat * 8 + b2n z * 4)) 2) (Opnd.ofCode (d.code)) (Opnd.ofCode (a.code)) = _
  rw [Instr.ineg.injEq]
  exact ⟨hdr_mk hF .., place0 .., place1 .., place2 .., Opnd.ofCode_code ho0, Opnd.ofCode_code ho1⟩

theorem isad h ty z d a b c : Statement (.isad h ty z d a b c) := by
  intro seq hw
  obtain ⟨_, e, hF, hm, -, ho, hp⟩ := wf_parts hw
  cases e
  have ho0 : d.inRange = true := ho _ (List.getElem_mem (l := Instr.opers (.isad h ty z d a b c)) (n := 0) (by show 0 < 4; decide))
  have ho1 : a.inRange = true := ho _ (List.getElem_mem (l := Instr.opers (.isad h ty z d a b c)) (n := 1) (by show 1 < 4; decide))
  have ho2 : b.inRange = true := ho _ (List.getElem_mem (l := Instr.opers (.isad h ty z d a b c)) (n := 2) (by show 2 < 4; decide))
  have ho3 : c.inRange = true := ho _ (List.getElem_mem (l := Instr.opers (.isad h ty z d a b c)) (n := 3) (by show 3 < 4; decide))
  refine ⟨?_, fits_mk (opc := 0x00F) (d := d.code) (a := a.code) (b := b.code) (c := c.code) (m := (ty.code * 128 + b2n z * 4)) (e := (0)) hF (by decide) (Opnd.code_lt ho0) (Opnd.code_lt ho1) (Opnd.code_lt ho2) (Opnd.code_lt ho3) (place6 ..) (Nat.zero_lt_succ _), rfl⟩
  show Instr.isad (mkF h 0x00F d.code a.code b.code c.code (ty.code * 128 + b2n z * 4) (0)).hdr (Ty.ofCode (bits ((ty.code * 128 + b2n z * 4)) 7 5)) (bitAt ((ty.code * 128 + b2n z * 4)) 2) (Opnd.ofCode (d.code)) (Opnd.ofCode (a.code)) (Opnd.ofCode (b.code)) (Opnd.ofCode (c.code)) = _
  rw [Instr.isad.injEq]
  exact ⟨hdr_mk hF .., place4 .., place5 .., Opnd.ofCode_code ho0, Opnd.ofCode_code ho1, Opnd.ofCode_code ho2, Opnd.ofCode_code ho3⟩

theorem andB h ty z d a b : Statement (.andB h ty z d a b) := by
  intro seq hw
  obtain ⟨_, e, hF, hm, -, ho, hp⟩ := wf_parts hw
  cases e
  have ho0 : d.inRange = true := ho _ (List.getElem_mem (l := Instr.opers (.andB h ty z d a b)) (n := 0) (by show 0 < 3; decide))
  have ho1 : a.inRange = true := ho _ (List.getElem_mem (l := Instr.opers (.andB h ty z d a b)) (n := 1) (by show 1 < 3; decide))
  have ho2 : b.inRange = true := ho _ (List.getElem_mem (l := Instr.opers (.andB h ty z d a b)) (n := 2) (by show 2 < 3; decide))
  refine ⟨?_, fits_mk (opc := 0x010) (d := d.code) (a := a.code) (b := b.code) (c := 0) (m := (ty.code * 128 + b2n z * 4)) (e := (0)) hF (by decide) (Opnd.code_lt ho0) (Opnd.code_lt ho1) (Opnd.code_lt ho2) (Nat.zero_lt_succ _) (place6 ..) (Nat.zero_lt_succ _), rfl⟩
  show Instr.andB (mkF h 0x010 d.code a.code b.code 0 (ty.code * 128 + b2n z * 4) (0)).hdr (Ty.ofCode (bits ((ty.code * 128 + b2n z * 4)) 7 5)) (bitAt ((ty.code * 128 + b2n z * 4)) 2) (Opnd.ofCode (d.code)) (Opnd.ofCode (a.code)) (Opnd.ofCode (b.code)) = _
  rw [Instr.andB.injEq]
  exact ⟨hdr_mk hF .., place4 .., place5 .., Opnd.ofCode_code ho0, Opnd.ofCode_code ho1, Opnd.ofCode_code ho2⟩

theorem orB h ty z d a b : Statement (.orB h ty z d a b) := by
  intro seq hw
  obtain ⟨_, e, hF, hm, -, ho, hp⟩ := wf_parts hw
  cases e
  have ho0 : d.inRange = true := ho _ (List.getElem_mem (l := Instr.opers (.orB h ty z d a b)) (n := 0) (by show 0 < 3; decide))
  have ho1 : a.inRange = true := ho _ (List.getElem_mem (l := Instr.opers (.orB h ty z d a b)) (n := 1) (by show 1 < 3; decide))
  have ho2 : b.inRange = true := ho _ (List.getElem_mem (l := Instr.opers (.orB h ty z d a b)) (n := 2) (by show 2 < 3; decide))
  refine ⟨?_, fits_mk (opc := 0x011) (d := d.code) (a := a.code) (b := b.code) (c := 0) (m := (ty.code * 128 + b2n z * 4)) (e := (0)) hF (by decide) (Opnd.code_lt ho0) (Opnd.code_lt ho1) (Opnd.code_lt ho2) (Nat.zero_lt_succ _) (place6 ..) (Nat.zero_lt_succ _), rfl⟩
  show Instr.orB (mkF h 0x011 d.code a.code b.code 0 (ty.code * 128 + b2n z * 4) (0)).hdr (Ty.ofCode (bits ((ty.code * 128 + b2n z * 4)) 7 5)) (bitAt ((ty.code * 128 + b2n z * 4)) 2) (Opnd.ofCode (d.code)) (Opnd.ofCode (a.code)) (Opnd.ofCode (b.code)) = _
  rw [Instr.orB.injEq]
  exact ⟨hdr_mk hF .., place4 .., place5 .., Opnd.ofCode_code ho0, Opnd.ofCode_code ho1, Opnd.ofCode_code ho2⟩

theorem xorB h ty z d a b : Statement (.xorB h ty z d a b) := by
  intro seq hw
  obtain ⟨_, e, hF, hm, -, ho, hp⟩ := wf_parts hw
  cases e
  have ho0 : d.inRange = true := ho _ (List.getElem_mem (l := Instr.opers (.xorB h ty z d a b)) (n := 0) (by show 0 < 3; decide))
  have ho1 : a.inRange = true := ho _ (List.getElem_mem (l := Instr.opers (.xorB h ty z d a b)) (n := 1) (by show 1 < 3; decide))
  have ho2 : b.inRange = true := ho _ (List.getElem_mem (l := Instr.opers (.xorB h ty z d a b)) (n := 2) (by show 2 < 3; decide))
  refine ⟨?_, fits_mk (opc := 0x012) (d := d.code) (a := a.code) (b := b.code) (c := 0) (m := (ty.code * 128 + b2n z * 4)) (e := (0)) hF (by decide) (Opnd.code_lt ho0) (Opnd.code_lt ho1) (Opnd.code_lt ho2) (Nat.zero_lt_succ _) (place6 ..) (Nat.zero_lt_succ _), rfl⟩
  show Instr.xorB (mkF h 0x012 d.code a.code b.code 0 (ty.code * 128 + b2n z * 4) (0)).hdr (Ty.ofCode (bits ((ty.code * 128 + b2n z * 4)) 7 5)) (bitAt ((ty.code * 128 + b2n z * 4)) 2) (Opnd.ofCode (d.code)) (Opnd.ofCode (a.code)) (Opnd.ofCode (b.code)) = _
  rw [Instr.xorB.injEq]
  exact ⟨hdr_mk hF .., place4 .., place5 .., Opnd.ofCode_code ho0, Opnd.ofCode_code ho1, Opnd.ofCode_code ho2⟩

theorem notB h ty z d a : Statement (.notB h ty z d a) := by
  intro seq hw
  obtain ⟨_, e, hF, hm, -, ho, hp⟩ := wf_parts hw
  cases e
  have ho0 : d.inRange = true := ho _ (List.getElem_mem (l := Instr.opers (.notB h ty z d a)) (n := 0) (by show 0 < 2; decide))
  have ho1 : a.inRange = true := ho _ (List.getElem_mem (l := Instr.opers (.notB h ty z d a)) (n := 1) (by show 1 < 2; decide))
  refine ⟨?_, fits_mk (opc := 0x013) (d := d.code) (a := a.code) (b := 0) (c := 0) (m := (ty.code * 128 + b2n z * 4)) (e := (0)) hF (by decide) (Opnd.code_lt ho0) (Opnd.code_lt ho1) (Nat.zero_lt_succ _) (Nat.zero_lt_succ _) (place6 ..) (Nat.zero_lt_succ _), rfl⟩
  show Instr.notB (mkF h 0x013 d.code a.code 0 0 (ty.code * 128 + b2n z * 4) (0)).hdr (Ty.ofCode (bits ((ty.code * 128 + b2n z * 4)) 7 5)) (bitAt ((ty.code * 128 + b2n z * 4)) 2) (Opnd.ofCode (d.code)) (Opnd.ofCode (a.code)) = _
  rw [Instr.notB.injEq]
  exact ⟨hdr_mk hF .., place4 .., place5 .., Opnd.ofCode_code ho0, Opnd.ofCode_code ho1⟩

theorem logt h ty z d a b c tt : Statement (.logt h ty z d a b c tt) := by
  intro seq hw
  obtain ⟨_, e, hF, hm, -, ho, hp⟩ := wf_parts hw
  cases e
  have ho0 : d.inRange = true := ho _ (List.getElem_mem (l := Instr.opers (.logt h ty z d a b c tt)) (n := 0) (by show 0 < 4; decide))
  have ho1 : a.inRange = true := ho _ (List.getElem_mem (l := Instr.opers (.logt h ty z d a b c tt)) (n := 1) (by show 1 < 4; decide))
  have ho2 : b.inRange = true := ho _ (List.getElem_mem (l := Instr.opers (.logt h ty z d a b c tt)) (n := 2) (by show 2 < 4; decide))
  have ho3 : c.inRange = true := ho _ (List.getElem_mem (l := Instr.opers (.logt h ty z d a b c tt)) (n := 3) (by show 3 < 4; decide))
  replace hm : ((decide (ty ∈ [.b32, .b64]) && tt < 256 : Bool)) = true := hm
  simp only [Bool.and_eq_true, decide_eq_true_eq] at hm
  refine ⟨?_, fits_mk (opc := 0x014) (d := d.code) (a := a.code) (b := b.code) (c := c.code) (m := (ty.code * 128 + b2n z * 4)) (e := (tt * 1)) hF (by decide) (Opnd.code_lt ho0) (Opnd.code_lt ho1) (Opnd.code_lt ho2) (Opnd.code_lt ho3) (place6 ..) (by omega), rfl⟩
  show Instr.logt (mkF h 0x014 d.code a.code b.code c.code (ty.code * 128 + b2n z * 4) (tt * 1)).hdr (Ty.ofCode (bits ((ty.code * 128 + b2n z * 4)) 7 5)) (bitAt ((ty.code * 128 + b2n z * 4)) 2) (Opnd.ofCode (d.code)) (Opnd.ofCode (a.code)) (Opnd.ofCode (b.code)) (Opnd.ofCode (c.code)) (bits ((tt * 1)) 0 8) = _
  rw [Instr.logt.injEq]
  exact ⟨hdr_mk hF .., place4 .., place5 .., Opnd.ofCode_code ho0, Opnd.ofCode_code ho1, Opnd.ofCode_code ho2, Opnd.ofCode_code ho3, bits_of (by omega)⟩

theorem shl h ty z d a b : Statement (.shl h ty z d a b) := by
  intro seq hw
  obtain ⟨_, e, hF, hm, -, ho, hp⟩ := wf_parts hw
  cases e
  have ho0 : d.inRange = true := ho _ (List.getElem_mem (l := Instr.opers (.shl h ty z d a b)) (n := 0) (by show 0 < 3; decide))
  have ho1 : a.inRange = true := ho _ (List.getElem_mem (l := Instr.opers (.shl h ty z d a b)) (n := 1) (by show 1 < 3; decide))
  have ho2 : b.inRange = true := ho _ (List.getElem_mem (l := Instr.opers (.shl h ty z d a b)) (n := 2) (by show 2 < 3; decide))
  refine ⟨?_, fits_mk (opc := 0x015) (d := d.code) (a := a.code) (b := b.code) (c := 0) (m := (ty.code * 128 + b2n z * 4)) (e := (0)) hF (by decide) (Opnd.code_lt ho0) (Opnd.code_lt ho1) (Opnd.code_lt ho2) (Nat.zero_lt_succ _) (place6 ..) (Nat.zero_lt_succ _), rfl⟩
  show Instr.shl (mkF h 0x015 d.code a.code b.code 0 (ty.code * 128 + b2n z * 4) (0)).hdr (Ty.ofCode (bits ((ty.code * 128 + b2n z * 4)) 7 5)) (bitAt ((ty.code * 128 + b2n z * 4)) 2) (Opnd.ofCode (d.code)) (Opnd.ofCode (a.code)) (Opnd.ofCode (b.code)) = _
  rw [Instr.shl.injEq]
  exact ⟨hdr_mk hF .., place4 .., place5 .., Opnd.ofCode_code ho0, Opnd.ofCode_code ho1, Opnd.ofCode_code ho2⟩

theorem shr h ty z d a b : Statement (.shr h ty z d a b) := by
  intro seq hw
  obtain ⟨_, e, hF, hm, -, ho, hp⟩ := wf_parts hw
  cases e
  have ho0 : d.inRange = true := ho _ (List.getElem_mem (l := Instr.opers (.shr h ty z d a b)) (n := 0) (by show 0 < 3; decide))
  have ho1 : a.inRange = true := ho _ (List.getElem_mem (l := Instr.opers (.shr h ty z d a b)) (n := 1) (by show 1 < 3; decide))
  have ho2 : b.inRange = true := ho _ (List.getElem_mem (l := Instr.opers (.shr h ty z d a b)) (n := 2) (by show 2 < 3; decide))
  refine ⟨?_, fits_mk (opc := 0x016) (d := d.code) (a := a.code) (b := b.code) (c := 0) (m := (ty.code * 128 + b2n z * 4)) (e := (0)) hF (by decide) (Opnd.code_lt ho0) (Opnd.code_lt ho1) (Opnd.code_lt ho2) (Nat.zero_lt_succ _) (place6 ..) (Nat.zero_lt_succ _), rfl⟩
  show Instr.shr (mkF h 0x016 d.code a.code b.code 0 (ty.code * 128 + b2n z * 4) (0)).hdr (Ty.ofCode (bits ((ty.code * 128 + b2n z * 4)) 7 5)) (bitAt ((ty.code * 128 + b2n z * 4)) 2) (Opnd.ofCode (d.code)) (Opnd.ofCode (a.code)) (Opnd.ofCode (b.code)) = _
  rw [Instr.shr.injEq]
  exact ⟨hdr_mk hF .., place4 .., place5 .., Opnd.ofCode_code ho0, Opnd.ofCode_code ho1, Opnd.ofCode_code ho2⟩

theorem rot h ty z d a b : Statement (.rot h ty z d a b) := by
  intro seq hw
  obtain ⟨_, e, hF, hm, -, ho, hp⟩ := wf_parts hw
  cases e
  have ho0 : d.inRange = true := ho _ (List.getElem_mem (l := Instr.opers (.rot h ty z d a b)) (n := 0) (by show 0 < 3; decide))
  have ho1 : a.inRange = true := ho _ (List.getElem_mem (l := Instr.opers (.rot h ty z d a b)) (n := 1) (by show 1 < 3; decide))
  have ho2 : b.inRange = true := ho _ (List.getElem_mem (l := Instr.opers (.rot h ty z d a b)) (n := 2) (by show 2 < 3; decide))
  refine ⟨?_, fits_mk (opc := 0x017) (d := d.code) (a := a.code) (b := b.code) (c := 0) (m := (ty.code * 128 + b2n z * 4)) (e := (0)) hF (by decide) (Opnd.code_lt ho0) (Opnd.code_lt ho1) (Opnd.code_lt ho2) (Nat.zero_lt_succ _) (place6 ..) (Nat.zero_lt_succ _), rfl⟩
  show Instr.rot (mkF h 0x017 d.code a.code b.code 0 (ty.code * 128 + b2n z * 4) (0)).hdr (Ty.ofCode (bits ((ty.code * 128 + b2n z * 4)) 7 5)) (bitAt ((ty.code * 128 + b2n z * 4)) 2) (Opnd.ofCode (d.code)) (Opnd.ofCode (a.code)) (Opnd.ofCode (b.code)) = _
  rw [Instr.rot.injEq]
  exact ⟨hdr_mk hF .., place4 .., place5 .., Opnd.ofCode_code ho0, Opnd.ofCode_code ho1, Opnd.ofCode_code ho2⟩

theorem catsh h z d a b c : Statement (.catsh h z d a b c) := by
  intro seq hw
  obtain ⟨_, e, hF, hm, -, ho, hp⟩ := wf_parts hw
  cases e
  have ho0 : d.inRange = true := ho _ (List.getElem_mem (l := Instr.opers (.catsh h z d a b c)) (n := 0) (by show 0 < 4; decide))
  have ho1 : a.inRange = true := ho _ (List.getElem_mem (l := Instr.opers (.catsh h z d a b c)) (n := 1) (by show 1 < 4; decide))
  have ho2 : b.inRange = true := ho _ (List.getElem_mem (l := Instr.opers (.catsh h z d a b c)) (n := 2) (by show 2 < 4; decide))
  have ho3 : c.inRange = true := ho _ (List.getElem_mem (l := Instr.opers (.catsh h z d a b c)) (n := 3) (by show 3 < 4; decide))
  refine ⟨?_, fits_mk (opc := 0x018) (d := d.code) (a := a.code) (b := b.code) (c := c.code) (m := (b2n z * 4)) (e := (0)) hF (by decide) (Opnd.code_lt ho0) (Opnd.code_lt ho1) (Opnd.code_lt ho2) (Opnd.code_lt ho3) (place8 ..) (Nat.zero_lt_succ _), rfl⟩
  show Instr.catsh (mkF h 0x018 d.code a.code b.code c.code (b2n z * 4) (0)).hdr (bitAt ((b2n z * 4)) 2) (Opnd.ofCode (d.code)) (Opnd.ofCode (a.code)) (Opnd.ofCode (b.code)) (Opnd.ofCode (c.code)) = _
  rw [Instr.catsh.injEq]
  exact ⟨hdr_mk hF .., place7 .., Opnd.ofCode_code ho0, Opnd.ofCode_code ho1, Opnd.ofCode_code ho2, Opnd.ofCode_code ho3⟩

theorem bfx h ty z d a b : Statement (.bfx h ty z d a b) := by
  intro seq hw
  obtain ⟨_, e, hF, hm, -, ho, hp⟩ := wf_parts hw
  cases e
  have ho0 : d.inRange = true := ho _ (List.getElem_mem (l := Instr.opers (.bfx h ty z d a b)) (n := 0) (by show 0 < 3; decide))
  have ho1 : a.inRange = true := ho _ (List.getElem_mem (l := Instr.opers (.bfx h ty z d a b)) (n := 1) (by show 1 < 3; decide))
  have ho2 : b.inRange = true := ho _ (List.getElem_mem (l := Instr.opers (.bfx h ty z d a b)) (n := 2) (by show 2 < 3; decide))
  refine ⟨?_, fits_mk (opc := 0x019) (d := d.code) (a := a.code) (b := b.code) (c := 0) (m := (ty.code * 128 + b2n z * 4)) (e := (0)) hF (by decide) (Opnd.code_lt ho0) (Opnd.code_lt ho1) (Opnd.code_lt ho2) (Nat.zero_lt_succ _) (place6 ..) (Nat.zero_lt_succ _), rfl⟩
  show Instr.bfx (mkF h 0x019 d.code a.code b.code 0 (ty.code * 128 + b2n z * 4) (0)).hdr (Ty.ofCode (bits ((ty.code * 128 + b2n z * 4)) 7 5)) (bitAt ((ty.code * 128 + b2n z * 4)) 2) (Opnd.ofCode (d.code)) (Opnd.ofCode (a.code)) (Opnd.ofCode (b.code)) = _
  rw [Instr.bfx.injEq]
  exact ⟨hdr_mk hF .., place4 .., place5 .., Opnd.ofCode_code ho0, Opnd.ofCode_code ho1, Opnd.ofCode_code ho2⟩

theorem bfi h z d a b c : Statement (.bfi h z d a b c) := by
  intro seq hw
  obtain ⟨_, e, hF, hm, -, ho, hp⟩ := wf_parts hw
  cases e
  have ho0 : d.inRange = true := ho _ (List.getElem_mem (l := Instr.opers (.bfi h z d a b c)) (n := 0) (by show 0 < 4; decide))
  have ho1 : a.inRange = true := ho _ (List.getElem_mem (l := Instr.opers (.bfi h z d a b c)) (n := 1) (by show 1 < 4; decide))
  have ho2 : b.inRange = true := ho _ (List.getElem_mem (l := Instr.opers (.bfi h z d a b c)) (n := 2) (by show 2 < 4; decide))
  have ho3 : c.inRange = true := ho _ (List.getElem_mem (l := Instr.opers (.bfi h z d a b c)) (n := 3) (by show 3 < 4; decide))
  refine ⟨?_, fits_mk (opc := 0x01A) (d := d.code) (a := a.code) (b := b.code) (c := c.code) (m := (b2n z * 4)) (e := (0)) hF (by decide) (Opnd.code_lt ho0) (Opnd.code_lt ho1) (Opnd.code_lt ho2) (Opnd.code_lt ho3) (place8 ..) (Nat.zero_lt_succ _), rfl⟩
  show Instr.bfi (mkF h 0x01A d.code a.code b.code c.code (b2n z * 4) (0)).hdr (bitAt ((b2n z * 4)) 2) (Opnd.ofCode (d.code)) (Opnd.ofCode (a.code)) (Opnd.ofCode (b.code)) (Opnd.ofCode (c.code)) = _
  rw [Instr.bfi.injEq]
  exact ⟨hdr_mk hF .., place7 .., Opnd.ofCode_code ho0, Opnd.ofCode_code ho1, Opnd.ofCode_code ho2, Opnd.ofCode_code ho3⟩

theorem popc h ty z d a : Statement (.popc h ty z d a) := by
  intro seq hw
  obtain ⟨_, e, hF, hm, -, ho, hp⟩ := wf_parts hw
  cases e
  have ho0 : d.inRange = true := ho _ (List.getElem_mem (l := Instr.opers (.popc h ty z d a)) (n := 0) (by show 0 < 2; decide))
  have ho1 : a.inRange = true := ho _ (List.getElem_mem (l := Instr.opers (.popc h ty z d a)) (n := 1) (by show 1 < 2; decide))
  refine ⟨?_, fits_mk (opc := 0x01B) (d := d.code) (a := a.code) (b := 0) (c := 0) (m := (ty.code * 128 + b2n z * 4)) (e := (0)) hF (by decide) (Opnd.code_lt ho0) (Opnd.code_lt ho1) (Nat.zero_lt_succ _) (Nat.zero_lt_succ _) (place6 ..) (Nat.zero_lt_succ _), rfl⟩
  show Instr.popc (mkF h 0x01B d.code a.code 0 0 (ty.code * 128 + b2n z * 4) (0)).hdr (Ty.ofCode (bits ((ty.code * 128 + b2n z * 4)) 7 5)) (bitAt ((ty.code * 128 + b2n z * 4)) 2) (Opnd.ofCode (d.code)) (Opnd.ofCode (a.code)) = _
  rw [Instr.popc.injEq]
  exact ⟨hdr_mk hF .., place4 .., place5 .., Opnd.ofCode_code ho0, Opnd.ofCode_code ho1⟩

theorem clz h ty z d a : Statement (.clz h ty z d a) := by
  intro seq hw
  obtain ⟨_, e, hF, hm, -, ho, hp⟩ := wf_parts hw
  cases e
  have ho0 : d.inRange = true := ho _ (List.getElem_mem (l := Instr.opers (.clz h ty z d a)) (n := 0) (by show 0 < 2; decide))
  have ho1 : a.inRange = true := ho _ (List.getElem_mem (l := Instr.opers (.clz h ty z d a)) (n := 1) (by show 1 < 2; decide))
  refine ⟨?_, fits_mk (opc := 0x01C) (d := d.code) (a := a.code) (b := 0) (c := 0) (m := (ty.code * 128 + b2n z * 4)) (e := (0)) hF (by decide) (Opnd.code_lt ho0) (Opnd.code_lt ho1) (Nat.zero_lt_succ _) (Nat.zero_lt_succ _) (place6 ..) (Nat.zero_lt_succ _), rfl⟩
  show Instr.clz (mkF h 0x01C d.code a.code 0 0 (ty.code * 128 + b2n z * 4) (0)).hdr (Ty.ofCode (bits ((ty.code * 128 + b2n z * 4)) 7 5)) (bitAt ((ty.code * 128 + b2n z * 4)) 2) (Opnd.ofCode (d.code)) (Opnd.ofCode (a.code)) = _
  rw [Instr.clz.injEq]
  exact ⟨hdr_mk hF .., place4 .., place5 .., Opnd.ofCode_code ho0, Opnd.ofCode_code ho1⟩

theorem brev h ty z d a : Statement (.brev h ty z d a) := by
  intro seq hw
  obtain ⟨_, e, hF, hm, -, ho, hp⟩ := wf_parts hw
  cases e
  have ho0 : d.inRange = true := ho _ (List.getElem_mem (l := Instr.opers (.brev h ty z d a)) (n := 0) (by show 0 < 2; decide))
  have ho1 : a.inRange = true := ho _ (List.getElem_mem (l := Instr.opers (.brev h ty z d a)) (n := 1) (by show 1 < 2; decide))
  refine ⟨?_, fits_mk (opc := 0x01D) (d := d.code) (a := a.code) (b := 0) (c := 0) (m := (ty.code * 128 + b2n z * 4)) (e := (0)) hF (by decide) (Opnd.code_lt ho0) (Opnd.code_lt ho1) (Nat.zero_lt_succ _) (Nat.zero_lt_succ _) (place6 ..) (Nat.zero_lt_succ _), rfl⟩
  show Instr.brev (mkF h 0x01D d.code a.code 0 0 (ty.code * 128 + b2n z * 4) (0)).hdr (Ty.ofCode (bits ((ty.code * 128 + b2n z * 4)) 7 5)) (bitAt ((ty.code * 128 + b2n z * 4)) 2) (Opnd.ofCode (d.code)) (Opnd.ofCode (a.code)) = _
  rw [Instr.brev.injEq]
  exact ⟨hdr_mk hF .., place4 .., place5 .., Opnd.ofCode_code ho0, Opnd.ofCode_code ho1⟩

theorem ffs h ty z d a : Statement (.ffs h ty z d a) := by
  intro seq hw
  obtain ⟨_, e, hF, hm, -, ho, hp⟩ := wf_parts hw
  cases e
  have ho0 : d.inRange = true := ho _ (List.getElem_mem (l := Instr.opers (.ffs h ty z d a)) (n := 0) (by show 0 < 2; decide))
  have ho1 : a.inRange = true := ho _ (List.getElem_mem (l := Instr.opers (.ffs h ty z d a)) (n := 1) (by show 1 < 2; decide))
  refine ⟨?_, fits_mk (opc := 0x01E) (d := d.code) (a := a.code) (b := 0) (c := 0) (m := (ty.code * 128 + b2n z * 4)) (e := (0)) hF (by decide) (Opnd.code_lt ho0) (Opnd.code_lt ho1) (Nat.zero_lt_succ _) (Nat.zero_lt_succ _) (place6 ..) (Nat.zero_lt_succ _), rfl⟩
  show Instr.ffs (mkF h 0x01E d.code a.code 0 0 (ty.code * 128 + b2n z * 4) (0)).hdr (Ty.ofCode (bits ((ty.code * 128 + b2n z * 4)) 7 5)) (bitAt ((ty.code * 128 + b2n z * 4)) 2) (Opnd.ofCode (d.code)) (Opnd.ofCode (a.code)) = _
  rw [Instr.ffs.injEq]
  exact ⟨hdr_mk hF .., place4 .., place5 .., Opnd.ofCode_code ho0, Opnd.ofCode_code ho1⟩

theorem icmp h cc ty pd a b : Statement (.icmp h cc ty pd a b) := by
  intro seq hw
  obtain ⟨_, e, hF, hm, -, ho, hp⟩ := wf_parts hw
  cases e
  have ho0 : a.inRange = true := ho _ (List.getElem_mem (l := Instr.opers (.icmp h cc ty pd a b)) (n := 0) (by show 0 < 2; decide))
  have ho1 : b.inRange = true := ho _ (List.getElem_mem (l := Instr.opers (.icmp h cc ty pd a b)) (n := 1) (by show 1 < 2; decide))
  replace hm : ((((decide (ty ∈ [.u32, .s32, .u64, .s64]) && cc.code < 6) || (decide (ty ∈ [.b32, .b64]) && cc.code < 2)) && pd < 16 : Bool)) = true := hm
  simp only [Bool.and_eq_true, decide_eq_true_eq] at hm
  simp only [Instr.predUses, List.mem_cons, List.not_mem_nil, or_false, forall_eq_or_imp, forall_eq] at hp
  refine ⟨?_, fits_mk (opc := 0x01F) (d := pd) (a := a.code) (b := b.code) (c := 0) (m := (cc.code * 4096 + ty.code * 128)) (e := (0)) hF (by decide) (by omega) (Opnd.code_lt ho0) (Opnd.code_lt ho1) (Nat.zero_lt_succ _) (place11 ..) (Nat.zero_lt_succ _), rfl⟩
  show Instr.icmp (mkF h 0x01F pd a.code b.code 0 (cc.code * 4096 + ty.code * 128) (0)).hdr (Cmp.ofCode (bits ((cc.code * 4096 + ty.code * 128)) 12 4)) (Ty.ofCode (bits ((cc.code * 4096 + ty.code * 128)) 7 5)) (pd) (Opnd.ofCode (a.code)) (Opnd.ofCode (b.code)) = _
  rw [Instr.icmp.injEq]
  exact ⟨hdr_mk hF .., place9 .., place10 .., rfl, Opnd.ofCode_code ho0, Opnd.ofCode_code ho1⟩

theorem isel h ty z d a b pc : Statement (.isel h ty z d a b pc) := by
  intro seq hw
  obtain ⟨_, e, hF, hm, -, ho, hp⟩ := wf_parts hw
  cases e
  have ho0 : d.inRange = true := ho _ (List.getElem_mem (l := Instr.opers (.isel h ty z d a b pc)) (n := 0) (by show 0 < 3; decide))
  have ho1 : a.inRange = true := ho _ (List.getElem_mem (l := Instr.opers (.isel h ty z d a b pc)) (n := 1) (by show 1 < 3; decide))
  have ho2 : b.inRange = true := ho _ (List.getElem_mem (l := Instr.opers (.isel h ty z d a b pc)) (n := 2) (by show 2 < 3; decide))
  replace hm : ((decide (ty ∈ [.b32, .b64]) && pc < 16 : Bool)) = true := hm
  simp only [Bool.and_eq_true, decide_eq_true_eq] at hm
  simp only [Instr.predUses, List.mem_cons, List.not_mem_nil, or_false, forall_eq_or_imp, forall_eq] at hp
  refine ⟨?_, fits_mk (opc := 0x020) (d := d.code) (a := a.code) (b := b.code) (c := pc) (m := (ty.code * 128 + b2n z * 4)) (e := (0)) hF (by decide) (Opnd.code_lt ho0) (Opnd.code_lt ho1) (Opnd.code_lt ho2) (by omega) (place6 ..) (Nat.zero_lt_succ _), rfl⟩
  show Instr.isel (mkF h 0x020 d.code a.code b.code pc (ty.code * 128 + b2n z * 4) (0)).hdr (Ty.ofCode (bits ((ty.code * 128 + b2n z * 4)) 7 5)) (bitAt ((ty.code * 128 + b2n z * 4)) 2) (Opnd.ofCode (d.code)) (Opnd.ofCode (a.code)) (Opnd.ofCode (b.code)) (pc) = _
  rw [Instr.isel.injEq]
  exact ⟨hdr_mk hF .., place4 .., place5 .., Opnd.ofCode_code ho0, Opnd.ofCode_code ho1, Opnd.ofCode_code ho2, rfl⟩

theorem lea h ty z d a b sh : Statement (.lea h ty z d a b sh) := by
  intro seq hw
  obtain ⟨_, e, hF, hm, -, ho, hp⟩ := wf_parts hw
  cases e
  have ho0 : d.inRange = true := ho _ (List.getElem_mem (l := Instr.opers (.lea h ty z d a b sh)) (n := 0) (by show 0 < 3; decide))
  have ho1 : a.inRange = true := ho _ (List.getElem_mem (l := Instr.opers (.lea h ty z d a b sh)) (n := 1) (by show 1 < 3; decide))
  have ho2 : b.inRange = true := ho _ (List.getElem_mem (l := Instr.opers (.lea h ty z d a b sh)) (n := 2) (by show 2 < 3; decide))
  replace hm : ((((decide (ty = .u32) && sh < 32) || decide (ty ∈ [.u64, .s64])) && sh < 64 : Bool)) = true := hm
  simp only [Bool.and_eq_true, decide_eq_true_eq] at hm
  refine ⟨?_, fits_mk (opc := 0x021) (d := d.code) (a := a.code) (b := b.code) (c := 0) (m := (ty.code * 128 + b2n z * 4)) (e := (sh * 1)) hF (by decide) (Opnd.code_lt ho0) (Opnd.code_lt ho1) (Opnd.code_lt ho2) (Nat.zero_lt_succ _) (place6 ..) (by omega), rfl⟩
  show Instr.lea (mkF h 0x021 d.code a.code b.code 0 (ty.code * 128 + b2n z * 4) (sh * 1)).hdr (Ty.ofCode (bits ((ty.code * 128 + b2n z * 4)) 7 5)) (bitAt ((ty.code * 128 + b2n z * 4)) 2) (Opnd.ofCode (d.code)) (Opnd.ofCode (a.code)) (Opnd.ofCode (b.code)) (bits ((sh * 1)) 0 6) = _
  rw [Instr.lea.injEq]
  exact ⟨hdr_mk hF .., place4 .., place5 .., Opnd.ofCode_code ho0, Opnd.ofCode_code ho1, Opnd.ofCode_code ho2, bits_of (by omega)⟩

theorem movi h d imm : Statement (.movi h d imm) := by
  intro seq hw
  obtain ⟨_, e, hF, hm, -, ho, hp⟩ := wf_parts hw
  cases e
  have ho0 : d.inRange = true := ho _ (List.getElem_mem (l := Instr.opers (.movi h d imm)) (n := 0) (by show 0 < 1; decide))
  refine ⟨?_, fits_mk (opc := 0x022) (d := d.code) (a := 0) (b := (bits imm.toNat 0 10)) (c := (bits imm.toNat 10 10)) (m := (0)) (e := (bits imm.toNat 20 12)) hF (by decide) (Opnd.code_lt ho0) (Nat.zero_lt_succ _) (bits_lt ..) (bits_lt ..) (Nat.zero_lt_succ _) (Nat.lt_trans (bits_lt ..) (by decide)), rfl⟩
  show Instr.movi (mkF h 0x022 d.code 0 (bits imm.toNat 0 10) (bits imm.toNat 10 10) (0) (bits imm.toNat 20 12)).hdr (Opnd.ofCode (d.code)) (mkF h 0x022 d.code 0 (bits imm.toNat 0 10) (bits imm.toNat 10 10) (0) (bits imm.toNat 20 12)).imm = _
  rw [Instr.movi.injEq]
  exact ⟨hdr_mk hF .., Opnd.ofCode_code ho0, imm_pieces _⟩

theorem mov h ty z d a : Statement (.mov h ty z d a) := by
  intro seq hw
  obtain ⟨_, e, hF, hm, -, ho, hp⟩ := wf_parts hw
  cases e
  have ho0 : d.inRange = true := ho _ (List.getElem_mem (l := Instr.opers (.mov h ty z d a)) (n := 0) (by show 0 < 2; decide))
  have ho1 : a.inRange = true := ho _ (List.getElem_mem (l := Instr.opers (.mov h ty z d a)) (n := 1) (by show 1 < 2; decide))
  refine ⟨?_, fits_mk (opc := 0x023) (d := d.code) (a := a.code) (b := 0) (c := 0) (m := (ty.code * 128 + b2n z * 4)) (e := (0)) hF (by decide) (Opnd.code_lt ho0) (Opnd.code_lt ho1) (Nat.zero_lt_succ _) (Nat.zero_lt_succ _) (place6 ..) (Nat.zero_lt_succ _), rfl⟩
  show Instr.mov (mkF h 0x023 d.code a.code 0 0 (ty.code * 128 + b2n z * 4) (0)).hdr (Ty.ofCode (bits ((ty.code * 128 + b2n z * 4)) 7 5)) (bitAt ((ty.code * 128 + b2n z * 4)) 2) (Opnd.ofCode (d.code)) (Opnd.ofCode (a.code)) = _
  rw [Instr.mov.injEq]
  exact ⟨hdr_mk hF .., place4 .., place5 .., Opnd.ofCode_code ho0, Opnd.ofCode_code ho1⟩

theorem fadd h ty rnd ftz z d a b : Statement (.fadd h ty rnd ftz z d a b) := by
  intro seq hw
  obtain ⟨_, e, hF, hm, -, ho, hp⟩ := wf_parts hw
  cases e
  have ho0 : d.inRange = true := ho _ (List.getElem_mem (l := Instr.opers (.fadd h ty rnd ftz z d a b)) (n := 0) (by show 0 < 3; decide))
  have ho1 : a.inRange = true := ho _ (List.getElem_mem (l := Instr.opers (.fadd h ty rnd ftz z d a b)) (n := 1) (by show 1 < 3; decide))
  have ho2 : b.inRange = true := ho _ (List.getElem_mem (l := Instr.opers (.fadd h ty rnd ftz z d a b)) (n := 2) (by show 2 < 3; decide))
  refine ⟨?_, fits_mk (opc := 0x040) (d := d.code) (a := a.code) (b := b.code) (c := 0) (m := (ty.codeF * 128 + rnd.code * 32 + b2n ftz * 16 + b2n z * 4)) (e := (0)) hF (by decide) (Opnd.code_lt ho0) (Opnd.code_lt ho1) (Opnd.code_lt ho2) (Nat.zero_lt_succ _) (place16 ..) (Nat.zero_lt_succ _), rfl⟩
  show Instr.fadd (mkF h 0x040 d.code a.code b.code 0 (ty.codeF * 128 + rnd.code * 32 + b2n ftz * 16 + b2n z * 4) (0)).hdr (Ty.ofCodeF (bits ((ty.codeF * 128 + rnd.code * 32 + b2n ftz * 16 + b2n z * 4)) 7 5)) (Rnd.ofCode (bits ((ty.codeF * 128 + rnd.code * 32 + b2n ftz * 16 + b2n z * 4)) 5 2)) (bitAt ((ty.codeF * 128 + rnd.code * 32 + b2n ftz * 16 + b2n z * 4)) 4) (bitAt ((ty.codeF * 128 + rnd.code * 32 + b2n ftz * 16 + b2n z * 4)) 2) (Opnd.ofCode (d.code)) (Opnd.ofCode (a.code)) (Opnd.ofCode (b.code)) = _
  rw [Instr.fadd.injEq]
  exact ⟨hdr_mk hF .., place12 .., place13 .., place14 .., place15 .., Opnd.ofCode_code ho0, Opnd.ofCode_code ho1, Opnd.ofCode_code ho2⟩

theorem fsub h ty rnd ftz z d a b : Statement (.fsub h ty rnd ftz z d a b) := by
  intro seq hw
  obtain ⟨_, e, hF, hm, -, ho, hp⟩ := wf_parts hw
  cases e
  have ho0 : d.inRange = true := ho _ (List.getElem_mem (l := Instr.opers (.fsub h ty rnd ftz z d a b)) (n := 0) (by show 0 < 3; decide))
  have ho1 : a.inRange = true := ho _ (List.getElem_mem (l := Instr.opers (.fsub h ty rnd ftz z d a b)) (n := 1) (by show 1 < 3; decide))
  have ho2 : b.inRange = true := ho _ (List.getElem_mem (l := Instr.opers (.fsub h ty rnd ftz z d a b)) (n := 2) (by show 2 < 3; decide))
  refine ⟨?_, fits_mk (opc := 0x041) (d := d.code) (a := a.code) (b := b.code) (c := 0) (m := (ty.codeF * 128 + rnd.code * 32 + b2n ftz * 16 + b2n z * 4)) (e := (0)) hF (by decide) (Opnd.code_lt ho0) (Opnd.code_lt ho1) (Opnd.code_lt ho2) (Nat.zero_lt_succ _) (place16 ..) (Nat.zero_lt_succ _), rfl⟩
  show Instr.fsub (mkF h 0x041 d.code a.code b.code 0 (ty.codeF * 128 + rnd.code * 32 + b2n ftz * 16 + b2n z * 4) (0)).hdr (Ty.ofCodeF (bits ((ty.codeF * 128 + rnd.code * 32 + b2n ftz * 16 + b2n z * 4)) 7 5)) (Rnd.ofCode (bits ((ty.codeF * 128 + rnd.code * 32 + b2n ftz * 16 + b2n z * 4)) 5 2)) (bitAt ((ty.codeF * 128 + rnd.code * 32 + b2n ftz * 16 + b2n z * 4)) 4) (bitAt ((ty.codeF * 128 + rnd.code * 32 + b2n ftz * 16 + b2n z * 4)) 2) (Opnd.ofCode (d.code)) (Opnd.ofCode (a.code)) (Opnd.ofCode (b.code)) = _
  rw [Instr.fsub.injEq]
  exact ⟨hdr_mk hF .., place12 .., place13 .., place14 .., place15 .., Opnd.ofCode_code ho0, Opnd.ofCode_code ho1, Opnd.ofCode_code ho2⟩

theorem fmul h ty rnd ftz z d a b : Statement (.fmul h ty rnd ftz z d a b) := by
  intro seq hw
  obtain ⟨_, e, hF, hm, -, ho, hp⟩ := wf_parts hw
  cases e
  have ho0 : d.inRange = true := ho _ (List.getElem_mem (l := Instr.opers (.fmul h ty rnd ftz z d a b)) (n := 0) (by show 0 < 3; decide))
  have ho1 : a.inRange = true := ho _ (List.getElem_mem (l := Instr.opers (.fmul h ty rnd ftz z d a b)) (n := 1) (by show 1 < 3; decide))
  have ho2 : b.inRange = true := ho _ (List.getElem_mem (l := Instr.opers (.fmul h ty rnd ftz z d a b)) (n := 2) (by show 2 < 3; decide))
  refine ⟨?_, fits_mk (opc := 0x042) (d := d.code) (a := a.code) (b := b.code) (c := 0) (m := (ty.codeF * 128 + rnd.code * 32 + b2n ftz * 16 + b2n z * 4)) (e := (0)) hF (by decide) (Opnd.code_lt ho0) (Opnd.code_lt ho1) (Opnd.code_lt ho2) (Nat.zero_lt_succ _) (place16 ..) (Nat.zero_lt_succ _), rfl⟩
  show Instr.fmul (mkF h 0x042 d.code a.code b.code 0 (ty.codeF * 128 + rnd.code * 32 + b2n ftz * 16 + b2n z * 4) (0)).hdr (Ty.ofCodeF (bits ((ty.codeF * 128 + rnd.code * 32 + b2n ftz * 16 + b2n z * 4)) 7 5)) (Rnd.ofCode (bits ((ty.codeF * 128 + rnd.code * 32 + b2n ftz * 16 + b2n z * 4)) 5 2)) (bitAt ((ty.codeF * 128 + rnd.code * 32 + b2n ftz * 16 + b2n z * 4)) 4) (bitAt ((ty.codeF * 128 + rnd.code * 32 + b2n ftz * 16 + b2n z * 4)) 2) (Opnd.ofCode (d.code)) (Opnd.ofCode (a.code)) (Opnd.ofCode (b.code)) = _
  rw [Instr.fmul.injEq]
  exact ⟨hdr_mk hF .., place12 .., place13 .., place14 .., place15 .., Opnd.ofCode_code ho0, Opnd.ofCode_code ho1, Opnd.ofCode_code ho2⟩

theorem ffma h ty rnd ftz z d a b c : Statement (.ffma h ty rnd ftz z d a b c) := by
  intro seq hw
  obtain ⟨_, e, hF, hm, -, ho, hp⟩ := wf_parts hw
  cases e
  have ho0 : d.inRange = true := ho _ (List.getElem_mem (l := Instr.opers (.ffma h ty rnd ftz z d a b c)) (n := 0) (by show 0 < 4; decide))
  have ho1 : a.inRange = true := ho _ (List.getElem_mem (l := Instr.opers (.ffma h ty rnd ftz z d a b c)) (n := 1) (by show 1 < 4; decide))
  have ho2 : b.inRange = true := ho _ (List.getElem_mem (l := Instr.opers (.ffma h ty rnd ftz z d a b c)) (n := 2) (by show 2 < 4; decide))
  have ho3 : c.inRange = true := ho _ (List.getElem_mem (l := Instr.opers (.ffma h ty rnd ftz z d a b c)) (n := 3) (by show 3 < 4; decide))
  refine ⟨?_, fits_mk (opc := 0x043) (d := d.code) (a := a.code) (b := b.code) (c := c.code) (m := (ty.codeF * 128 + rnd.code * 32 + b2n ftz * 16 + b2n z * 4)) (e := (0)) hF (by decide) (Opnd.code_lt ho0) (Opnd.code_lt ho1) (Opnd.code_lt ho2) (Opnd.code_lt ho3) (place16 ..) (Nat.zero_lt_succ _), rfl⟩
  show Instr.ffma (mkF h 0x043 d.code a.code b.code c.code (ty.codeF * 128 + rnd.code * 32 + b2n ftz * 16 + b2n z * 4) (0)).hdr (Ty.ofCodeF (bits ((ty.codeF * 128 + rnd.code * 32 + b2n ftz * 16 + b2n z * 4)) 7 5)) (Rnd.ofCode (bits ((ty.codeF * 128 + rnd.code * 32 + b2n ftz * 16 + b2n z * 4)) 5 2)) (bitAt ((ty.codeF * 128 + rnd.code * 32 + b2n ftz * 16 + b2n z * 4)) 4) (bitAt ((ty.codeF * 128 + rnd.code * 32 + b2n ftz * 16 + b2n z * 4)) 2) (Opnd.ofCode (d.code)) (Opnd.ofCode (a.code)) (Opnd.ofCode (b.code)) (Opnd.ofCode (c.code)) = _
  rw [Instr.ffma.injEq]
  exact ⟨hdr_mk hF .., place12 .., place13 .., place14 .., place15 .., Opnd.ofCode_code ho0, Opnd.ofCode_code ho1, Opnd.ofCode_code ho2, Opnd.ofCode_code ho3⟩

theorem fmin h ty ftz z d a b : Statement (.fmin h ty ftz z d a b) := by
  intro seq hw
  obtain ⟨_, e, hF, hm, -, ho, hp⟩ := wf_parts hw
  cases e
  have ho0 : d.inRange = true := ho _ (List.getElem_mem (l := Instr.opers (.fmin h ty ftz z d a b)) (n := 0) (by show 0 < 3; decide))
  have ho1 : a.inRange = true := ho _ (List.getElem_mem (l := Instr.opers (.fmin h ty ftz z d a b)) (n := 1) (by show 1 < 3; decide))
  have ho2 : b.inRange = true := ho _ (List.getElem_mem (l := Instr.opers (.fmin h ty ftz z d a b)) (n := 2) (by show 2 < 3; decide))
  refine ⟨?_, fits_mk (opc := 0x044) (d := d.code) (a := a.code) (b := b.code) (c := 0) (m := (ty.codeF * 128 + b2n ftz * 16 + b2n z * 4)) (e := (0)) hF (by decide) (Opnd.code_lt ho0) (Opnd.code_lt ho1) (Opnd.code_lt ho2) (Nat.zero_lt_succ _) (place20 ..) (Nat.zero_lt_succ _), rfl⟩
  show Instr.fmin (mkF h 0x044 d.code a.code b.code 0 (ty.codeF * 128 + b2n ftz * 16 + b2n z * 4) (0)).hdr (Ty.ofCodeF (bits ((ty.codeF * 128 + b2n ftz * 16 + b2n z * 4)) 7 5)) (bitAt ((ty.codeF * 128 + b2n ftz * 16 + b2n z * 4)) 4) (bitAt ((ty.codeF * 128 + b2n ftz * 16 + b2n z * 4)) 2) (Opnd.ofCode (d.code)) (Opnd.ofCode (a.code)) (Opnd.ofCode (b.code)) = _
  rw [Instr.fmin.injEq]
  exact ⟨hdr_mk hF .., place17 .., place18 .., place19 .., Opnd.ofCode_code ho0, Opnd.ofCode_code ho1, Opnd.ofCode_code ho2⟩

theorem fmax h ty ftz z d a b : Statement (.fmax h ty ftz z d a b) := by
  intro seq hw
  obtain ⟨_, e, hF, hm, -, ho, hp⟩ := wf_parts hw
  cases e
  have ho0 : d.inRange = true := ho _ (List.getElem_mem (l := Instr.opers (.fmax h ty ftz z d a b)) (n := 0) (by show 0 < 3; decide))
  have ho1 : a.inRange = true := ho _ (List.getElem_mem (l := Instr.opers (.fmax h ty ftz z d a b)) (n := 1) (by show 1 < 3; decide))
  have ho2 : b.inRange = true := ho _ (List.getElem_mem (l := Instr.opers (.fmax h ty ftz z d a b)) (n := 2) (by show 2 < 3; decide))
  refine ⟨?_, fits_mk (opc := 0x045) (d := d.code) (a := a.code) (b := b.code) (c := 0) (m := (ty.codeF * 128 + b2n ftz * 16 + b2n z * 4)) (e := (0)) hF (by decide) (Opnd.code_lt ho0) (Opnd.code_lt ho1) (Opnd.code_lt ho2) (Nat.zero_lt_succ _) (place20 ..) (Nat.zero_lt_succ _), rfl⟩
  show Instr.fmax (mkF h 0x045 d.code a.code b.code 0 (ty.codeF * 128 + b2n ftz * 16 + b2n z * 4) (0)).hdr (Ty.ofCodeF (bits ((ty.codeF * 128 + b2n ftz * 16 + b2n z * 4)) 7 5)) (bitAt ((ty.codeF * 128 + b2n ftz * 16 + b2n z * 4)) 4) (bitAt ((ty.codeF * 128 + b2n ftz * 16 + b2n z * 4)) 2) (Opnd.ofCode (d.code)) (Opnd.ofCode (a.code)) (Opnd.ofCode (b.code)) = _
  rw [Instr.fmax.injEq]
  exact ⟨hdr_mk hF .., place17 .., place18 .., place19 .., Opnd.ofCode_code ho0, Opnd.ofCode_code ho1, Opnd.ofCode_code ho2⟩

theorem fcmp h cc ty ftz pd a b : Statement (.fcmp h cc ty ftz pd a b) := by
  intro seq hw
  obtain ⟨_, e, hF, hm, -, ho, hp⟩ := wf_parts hw
  cases e
  have ho0 : a.inRange = true := ho _ (List.getElem_mem (l := Instr.opers (.fcmp h cc ty ftz pd a b)) (n := 0) (by show 0 < 2; decide))
  have ho1 : b.inRange = true := ho _ (List.getElem_mem (l := Instr.opers (.fcmp h cc ty ftz pd a b)) (n := 1) (by show 1 < 2; decide))
  replace hm : (((decide (ty ∈ [.f32, .f64]) && (!ftz || decide (ty = .f32))) && pd < 16 : Bool)) = true := hm
  simp only [Bool.and_eq_true, decide_eq_true_eq] at hm
  simp only [Instr.predUses, List.mem_cons, List.not_mem_nil, or_false, forall_eq_or_imp, forall_eq] at hp
  refine ⟨?_, fits_mk (opc := 0x046) (d := pd) (a := a.code) (b := b.code) (c := 0) (m := (cc.code * 4096 + ty.codeF * 128 + b2n ftz * 16)) (e := (0)) hF (by decide) (by omega) (Opnd.code_lt ho0) (Opnd.code_lt ho1) (Nat.zero_lt_succ _) (place24 ..) (Nat.zero_lt_succ _), rfl⟩
  show Instr.fcmp (mkF h 0x046 pd a.code b.code 0 (cc.code * 4096 + ty.codeF * 128 + b2n ftz * 16) (0)).hdr (Cmp.ofCode (bits ((cc.code * 4096 + ty.codeF * 128 + b2n ftz * 16)) 12 4)) (Ty.ofCodeF (bits ((cc.code * 4096 + ty.codeF * 128 + b2n ftz * 16)) 7 5)) (bitAt ((cc.code * 4096 + ty.codeF * 128 + b2n ftz * 16)) 4) (pd) (Opnd.ofCode (a.code)) (Opnd.ofCode (b.code)) = _
  rw [Instr.fcmp.injEq]
  exact ⟨hdr_mk hF .., place21 .., place22 .., place23 .., rfl, Opnd.ofCode_code ho0, Opnd.ofCode_code ho1⟩

theorem fdiv h ty rnd ftz z d a b : Statement (.fdiv h ty rnd ftz z d a b) := by
  intro seq hw
  obtain ⟨_, e, hF, hm, -, ho, hp⟩ := wf_parts hw
  cases e
  have ho0 : d.inRange = true := ho _ (List.getElem_mem (l := Instr.opers (.fdiv h ty rnd ftz z d a b)) (n := 0) (by show 0 < 3; decide))
  have ho1 : a.inRange = true := ho _ (List.getElem_mem (l := Instr.opers (.fdiv h ty rnd ftz z d a b)) (n := 1) (by show 1 < 3; decide))
  have ho2 : b.inRange = true := ho _ (List.getElem_mem (l := Instr.opers (.fdiv h ty rnd ftz z d a b)) (n := 2) (by show 2 < 3; decide))
  refine ⟨?_, fits_mk (opc := 0x047) (d := d.code) (a := a.code) (b := b.code) (c := 0) (m := (ty.codeF * 128 + rnd.code * 32 + b2n ftz * 16 + b2n z * 4)) (e := (0)) hF (by decide) (Opnd.code_lt ho0) (Opnd.code_lt ho1) (Opnd.code_lt ho2) (Nat.zero_lt_succ _) (place16 ..) (Nat.zero_lt_succ _), rfl⟩
  show Instr.fdiv (mkF h 0x047 d.code a.code b.code 0 (ty.codeF * 128 + rnd.code * 32 + b2n ftz * 16 + b2n z * 4) (0)).hdr (Ty.ofCodeF (bits ((ty.codeF * 128 + rnd.code * 32 + b2n ftz * 16 + b2n z * 4)) 7 5)) (Rnd.ofCode (bits ((ty.codeF * 128 + rnd.code * 32 + b2n ftz * 16 + b2n z * 4)) 5 2)) (bitAt ((ty.codeF * 128 + rnd.code * 32 + b2n ftz * 16 + b2n z * 4)) 4) (bitAt ((ty.codeF * 128 + rnd.code * 32 + b2n ftz * 16 + b2n z * 4)) 2) (Opnd.ofCode (d.code)) (Opnd.ofCode (a.code)) (Opnd.ofCode (b.code)) = _
  rw [Instr.fdiv.injEq]
  exact ⟨hdr_mk hF .., place12 .., place13 .., place14 .., place15 .., Opnd.ofCode_code ho0, Opnd.ofCode_code ho1, Opnd.ofCode_code ho2⟩

theorem fsqrt h ty rnd ftz z d a : Statement (.fsqrt h ty rnd ftz z d a) := by
  intro seq hw
  obtain ⟨_, e, hF, hm, -, ho, hp⟩ := wf_parts hw
  cases e
  have ho0 : d.inRange = true := ho _ (List.getElem_mem (l := Instr.opers (.fsqrt h ty rnd ftz z d a)) (n := 0) (by show 0 < 2; decide))
  have ho1 : a.inRange = true := ho _ (List.getElem_mem (l := Instr.opers (.fsqrt h ty rnd ftz z d a)) (n := 1) (by show 1 < 2; decide))
  refine ⟨?_, fits_mk (opc := 0x048) (d := d.code) (a := a.code) (b := 0) (c := 0) (m := (ty.codeF * 128 + rnd.code * 32 + b2n ftz * 16 + b2n z * 4)) (e := (0)) hF (by decide) (Opnd.code_lt ho0) (Opnd.code_lt ho1) (Nat.zero_lt_succ _) (Nat.zero_lt_succ _) (place16 ..) (Nat.zero_lt_succ _), rfl⟩
  show Instr.fsqrt (mkF h 0x048 d.code a.code 0 0 (ty.codeF * 128 + rnd.code * 32 + b2n ftz * 16 + b2n z * 4) (0)).hdr (Ty.ofCodeF (bits ((ty.codeF * 128 + rnd.code * 32 + b2n ftz * 16 + b2n z * 4)) 7 5)) (Rnd.ofCode (bits ((ty.codeF * 128 + rnd.code * 32 + b2n ftz * 16 + b2n z * 4)) 5 2)) (bitAt ((ty.codeF * 128 + rnd.code * 32 + b2n ftz * 16 + b2n z * 4)) 4) (bitAt ((ty.codeF * 128 + rnd.code * 32 + b2n ftz * 16 + b2n z * 4)) 2) (Opnd.ofCode (d.code)) (Opnd.ofCode (a.code)) = _
  rw [Instr.fsqrt.injEq]
  exact ⟨hdr_mk hF .., place12 .., place13 .., place14 .., place15 .., Opnd.ofCode_code ho0, Opnd.ofCode_code ho1⟩

theorem frcp h ty rnd ftz z alt d a : Statement (.frcp h ty rnd ftz z alt d a) := by
  intro seq hw
  obtain ⟨_, e, hF, hm, -, ho, hp⟩ := wf_parts hw
  cases e
  have ho0 : d.inRange = true := ho _ (List.getElem_mem (l := Instr.opers (.frcp h ty rnd ftz z alt d a)) (n := 0) (by show 0 < 2; decide))
  have ho1 : a.inRange = true := ho _ (List.getElem_mem (l := Instr.opers (.frcp h ty rnd ftz z alt d a)) (n := 1) (by show 1 < 2; decide))
  refine ⟨?_, fits_mk (opc := 0x049) (d := d.code) (a := a.code) (b := 0) (c := 0) (m := (ty.codeF * 128 + rnd.code * 32 + b2n ftz * 16 + b2n z * 4 + b2n alt * 2)) (e := (0)) hF (by decide) (Opnd.code_lt ho0) (Opnd.code_lt ho1) (Nat.zero_lt_succ _) (Nat.zero_lt_succ _) (place30 ..) (Nat.zero_lt_succ _), rfl⟩
  show Instr.frcp (mkF h 0x049 d.code a.code 0 0 (ty.codeF * 128 + rnd.code * 32 + b2n ftz * 16 + b2n z * 4 + b2n alt * 2) (0)).hdr (Ty.ofCodeF (bits ((ty.codeF * 128 + rnd.code * 32 + b2n ftz * 16 + b2n z * 4 + b2n alt * 2)) 7 5)) (Rnd.ofCode (bits ((ty.codeF * 128 + rnd.code * 32 + b2n ftz * 16 + b2n z * 4 + b2n alt * 2)) 5 2)) (bitAt ((ty.codeF * 128 + rnd.code * 32 + b2n ftz * 16 + b2n z * 4 + b2n alt * 2)) 4) (bitAt ((ty.codeF * 128 + rnd.code * 32 + b2n ftz * 16 + b2n z * 4 + b2n alt * 2)) 2) (bitAt ((ty.codeF * 128 + rnd.code * 32 + b2n ftz * 16 + b2n z * 4 + b2n alt * 2)) 1) (Opnd.ofCode (d.code)) (Opnd.ofCode (a.code)) = _
  rw [Instr.frcp.injEq]
  exact ⟨hdr_mk hF .., place25 .., place26 .., place27 .., place28 .., place29 .., Opnd.ofCode_code ho0, Opnd.ofCode_code ho1⟩

theorem frsq h ty rnd ftz z alt d a : Statement (.frsq h ty rnd ftz z alt d a) := by
  intro seq hw
  obtain ⟨_, e, hF, hm, -, ho, hp⟩ := wf_parts hw
  cases e
  have ho0 : d.inRange = true := ho _ (List.getElem_mem (l := Instr.opers (.frsq h ty rnd ftz z alt d a)) (n := 0) (by show 0 < 2; decide))
  have ho1 : a.inRange = true := ho _ (List.getElem_mem (l := Instr.opers (.frsq h ty rnd ftz z alt d a)) (n := 1) (by show 1 < 2; decide))
  refine ⟨?_, fits_mk (opc := 0x04A) (d := d.code) (a := a.code) (b := 0) (c := 0) (m := (ty.codeF * 128 + rnd.code * 32 + b2n ftz * 16 + b2n z * 4 + b2n alt * 2)) (e := (0)) hF (by decide) (Opnd.code_lt ho0) (Opnd.code_lt ho1) (Nat.zero_lt_succ _) (Nat.zero_lt_succ _) (place30 ..) (Nat.zero_lt_succ _), rfl⟩
  show Instr.frsq (mkF h 0x04A d.code a.code 0 0 (ty.codeF * 128 + rnd.code * 32 + b2n ftz * 16 + b2n z * 4 + b2n alt * 2) (0)).hdr (Ty.ofCodeF (bits ((ty.codeF * 128 + rnd.code * 32 + b2n ftz * 16 + b2n z * 4 + b2n alt * 2)) 7 5)) (Rnd.ofCode (bits ((ty.codeF * 128 + rnd.code * 32 + b2n ftz * 16 + b2n z * 4 + b2n alt * 2)) 5 2)) (bitAt ((ty.codeF * 128 + rnd.code * 32 + b2n ftz * 16 + b2n z * 4 + b2n alt * 2)) 4) (bitAt ((ty.codeF * 128 + rnd.code * 32 + b2n ftz * 16 + b2n z * 4 + b2n alt * 2)) 2) (bitAt ((ty.codeF * 128 + rnd.code * 32 + b2n ftz * 16 + b2n z * 4 + b2n alt * 2)) 1) (Opnd.ofCode (d.code)) (Opnd.ofCode (a.code)) = _
  rw [Instr.frsq.injEq]
  exact ⟨hdr_mk hF .., place25 .., place26 .., place27 .., place28 .., place29 .., Opnd.ofCode_code ho0, Opnd.ofCode_code ho1⟩

theorem fexp2 h ftz z d a : Statement (.fexp2 h ftz z d a) := by
  intro seq hw
  obtain ⟨_, e, hF, hm, -, ho, hp⟩ := wf_parts hw
  cases e
  have ho0 : d.inRange = true := ho _ (List.getElem_mem (l := Instr.opers (.fexp2 h ftz z d a)) (n := 0) (by show 0 < 2; decide))
  have ho1 : a.inRange = true := ho _ (List.getElem_mem (l := Instr.opers (.fexp2 h ftz z d a)) (n := 1) (by show 1 < 2; decide))
  refine ⟨?_, fits_mk (opc := 0x04B) (d := d.code) (a := a.code) (b := 0) (c := 0) (m := (b2n ftz * 16 + b2n z * 4)) (e := (0)) hF (by decide) (Opnd.code_lt ho0) (Opnd.code_lt ho1) (Nat.zero_lt_succ _) (Nat.zero_lt_succ _) (place33 ..) (Nat.zero_lt_succ _), rfl⟩
  show Instr.fexp2 (mkF h 0x04B d.code a.code 0 0 (b2n ftz * 16 + b2n z * 4) (0)).hdr (bitAt ((b2n ftz * 16 + b2n z * 4)) 4) (bitAt ((b2n ftz * 16 + b2n z * 4)) 2) (Opnd.ofCode (d.code)) (Opnd.ofCode (a.code)) = _
  rw [Instr.fexp2.injEq]
  exact ⟨hdr_mk hF .., place31 .., place32 .., Opnd.ofCode_code ho0, Opnd.ofCode_code ho1⟩

theorem flog2 h ftz z d a : Statement (.flog2 h ftz z d a) := by
  intro seq hw
  obtain ⟨_, e, hF, hm, -, ho, hp⟩ := wf_parts hw
  cases e
  have ho0 : d.inRange = true := ho _ (List.getElem_mem (l := Instr.opers (.flog2 h ftz z d a)) (n := 0) (by show 0 < 2; decide))
  have ho1 : a.inRange = true := ho _ (List.getElem_mem (l := Instr.opers (.flog2 h ftz z d a)) (n := 1) (by show 1 < 2; decide))
  refine ⟨?_, fits_mk (opc := 0x04C) (d := d.code) (a := a.code) (b := 0) (c := 0) (m := (b2n ftz * 16 + b2n z * 4)) (e := (0)) hF (by decide) (Opnd.code_lt ho0) (Opnd.code_lt ho1) (Nat.zero_lt_succ _) (Nat.zero_lt_succ _) (place33 ..) (Nat.zero_lt_succ _), rfl⟩
  show Instr.flog2 (mkF h 0x04C d.code a.code 0 0 (b2n ftz * 16 + b2n z * 4) (0)).hdr (bitAt ((b2n ftz * 16 + b2n z * 4)) 4) (bitAt ((b2n ftz * 16 + b2n z * 4)) 2) (Opnd.ofCode (d.code)) (Opnd.ofCode (a.code)) = _
  rw [Instr.flog2.injEq]
  exact ⟨hdr_mk hF .., place31 .., place32 .., Opnd.ofCode_code ho0, Opnd.ofCode_code ho1⟩

theorem fsin h ftz z d a : Statement (.fsin h ftz z d a) := by
  intro seq hw
  obtain ⟨_, e, hF, hm, -, ho, hp⟩ := wf_parts hw
  cases e
  have ho0 : d.inRange = true := ho _ (List.getElem_mem (l := Instr.opers (.fsin h ftz z d a)) (n := 0) (by show 0 < 2; decide))
  have ho1 : a.inRange = true := ho _ (List.getElem_mem (l := Instr.opers (.fsin h ftz z d a)) (n := 1) (by show 1 < 2; decide))
  refine ⟨?_, fits_mk (opc := 0x04D) (d := d.code) (a := a.code) (b := 0) (c := 0) (m := (b2n ftz * 16 + b2n z * 4)) (e := (0)) hF (by decide) (Opnd.code_lt ho0) (Opnd.code_lt ho1) (Nat.zero_lt_succ _) (Nat.zero_lt_succ _) (place33 ..) (Nat.zero_lt_succ _), rfl⟩
  show Instr.fsin (mkF h 0x04D d.code a.code 0 0 (b2n ftz * 16 + b2n z * 4) (0)).hdr (bitAt ((b2n ftz * 16 + b2n z * 4)) 4) (bitAt ((b2n ftz * 16 + b2n z * 4)) 2) (Opnd.ofCode (d.code)) (Opnd.ofCode (a.code)) = _
  rw [Instr.fsin.injEq]
  exact ⟨hdr_mk hF .., place31 .., place32 .., Opnd.ofCode_code ho0, Opnd.ofCode_code ho1⟩

theorem fcos h ftz z d a : Statement (.fcos h ftz z d a) := by
  intro seq hw
  obtain ⟨_, e, hF, hm, -, ho, hp⟩ := wf_parts hw
  cases e
  have ho0 : d.inRange = true := ho _ (List.getElem_mem (l := Instr.opers (.fcos h ftz z d a)) (n := 0) (by show 0 < 2; decide))
  have ho1 : a.inRange = true := ho _ (List.getElem_mem (l := Instr.opers (.fcos h ftz z d a)) (n := 1) (by show 1 < 2; decide))
  refine ⟨?_, fits_mk (opc := 0x04E) (d := d.code) (a := a.code) (b := 0) (c := 0) (m := (b2n ftz * 16 + b2n z * 4)) (e := (0)) hF (by decide) (Opnd.code_lt ho0) (Opnd.code_lt ho1) (Nat.zero_lt_succ _) (Nat.zero_lt_succ _) (place33 ..) (Nat.zero_lt_succ _), rfl⟩
  show Instr.fcos (mkF h 0x04E d.code a.code 0 0 (b2n ftz * 16 + b2n z * 4) (0)).hdr (bitAt ((b2n ftz * 16 + b2n z * 4)) 4) (bitAt ((b2n ftz * 16 + b2n z * 4)) 2) (Opnd.ofCode (d.code)) (Opnd.ofCode (a.code)) = _
  rw [Instr.fcos.injEq]
  exact ⟨hdr_mk hF .., place31 .., place32 .., Opnd.ofCode_code ho0, Opnd.ofCode_code ho1⟩

theorem ftanh h ftz z d a : Statement (.ftanh h ftz z d a) := by
  intro seq hw
  obtain ⟨_, e, hF, hm, -, ho, hp⟩ := wf_parts hw
  cases e
  have ho0 : d.inRange = true := ho _ (List.getElem_mem (l := Instr.opers (.ftanh h ftz z d a)) (n := 0) (by show 0 < 2; decide))
  have ho1 : a.inRange = true := ho _ (List.getElem_mem (l := Instr.opers (.ftanh h ftz z d a)) (n := 1) (by show 1 < 2; decide))
  refine ⟨?_, fits_mk (opc := 0x04F) (d := d.code) (a := a.code) (b := 0) (c := 0) (m := (b2n ftz * 16 + b2n z * 4)) (e := (0)) hF (by decide) (Opnd.code_lt ho0) (Opnd.code_lt ho1) (Nat.zero_lt_succ _) (Nat.zero_lt_succ _) (place33 ..) (Nat.zero_lt_succ _), rfl⟩
  show Instr.ftanh (mkF h 0x04F d.code a.code 0 0 (b2n ftz * 16 + b2n z * 4) (0)).hdr (bitAt ((b2n ftz * 16 + b2n z * 4)) 4) (bitAt ((b2n ftz * 16 + b2n z * 4)) 2) (Opnd.ofCode (d.code)) (Opnd.ofCode (a.code)) = _
  rw [Instr.ftanh.injEq]
  exact ⟨hdr_mk hF .., place31 .., place32 .., Opnd.ofCode_code ho0, Opnd.ofCode_code ho1⟩

theorem frnd h ty rnd ftz z d a : Statement (.frnd h ty rnd ftz z d a) := by
  intro seq hw
  obtain ⟨_, e, hF, hm, -, ho, hp⟩ := wf_parts hw
  cases e
  have ho0 : d.inRange = true := ho _ (List.getElem_mem (l := Instr.opers (.frnd h ty rnd ftz z d a)) (n := 0) (by show 0 < 2; decide))
  have ho1 : a.inRange = true := ho _ (List.getElem_mem (l := Instr.opers (.frnd h ty rnd ftz z d a)) (n := 1) (by show 1 < 2; decide))
  refine ⟨?_, fits_mk (opc := 0x050) (d := d.code) (a := a.code) (b := 0) (c := 0) (m := (ty.codeF * 128 + rnd.code * 32 + b2n ftz * 16 + b2n z * 4)) (e := (0)) hF (by decide) (Opnd.code_lt ho0) (Opnd.code_lt ho1) (Nat.zero_lt_succ _) (Nat.zero_lt_succ _) (place16 ..) (Nat.zero_lt_succ _), rfl⟩
  show Instr.frnd (mkF h 0x050 d.code a.code 0 0 (ty.codeF * 128 + rnd.code * 32 + b2n ftz * 16 + b2n z * 4) (0)).hdr (Ty.ofCodeF (bits ((ty.codeF * 128 + rnd.code * 32 + b2n ftz * 16 + b2n z * 4)) 7 5)) (Rnd.ofCode (bits ((ty.codeF * 128 + rnd.code * 32 + b2n ftz * 16 + b2n z * 4)) 5 2)) (bitAt ((ty.codeF * 128 + rnd.code * 32 + b2n ftz * 16 + b2n z * 4)) 4) (bitAt ((ty.codeF * 128 + rnd.code * 32 + b2n ftz * 16 + b2n z * 4)) 2) (Opnd.ofCode (d.code)) (Opnd.ofCode (a.code)) = _
  rw [Instr.frnd.injEq]
  exact ⟨hdr_mk hF .., place12 .., place13 .., place14 .., place15 .., Opnd.ofCode_code ho0, Opnd.ofCode_code ho1⟩

theorem fclass h ty z d a : Statement (.fclass h ty z d a) := by
  intro seq hw
  obtain ⟨_, e, hF, hm, -, ho, hp⟩ := wf_parts hw
  cases e
  have ho0 : d.inRange = true := ho _ (List.getElem_mem (l := Instr.opers (.fclass h ty z d a)) (n := 0) (by show 0 < 2; decide))
  have ho1 : a.inRange = true := ho _ (List.getElem_mem (l := Instr.opers (.fclass h ty z d a)) (n := 1) (by show 1 < 2; decide))
  refine ⟨?_, fits_mk (opc := 0x051) (d := d.code) (a := a.code) (b := 0) (c := 0) (m := (ty.codeF * 128 + b2n z * 4)) (e := (0)) hF (by decide) (Opnd.code_lt ho0) (Opnd.code_lt ho1) (Nat.zero_lt_succ _) (Nat.zero_lt_succ _) (place36 ..) (Nat.zero_lt_succ _), rfl⟩
  show Instr.fclass (mkF h 0x051 d.code a.code 0 0 (ty.codeF * 128 + b2n z * 4) (0)).hdr (Ty.ofCodeF (bits ((ty.codeF * 128 + b2n z * 4)) 7 5)) (bitAt ((ty.codeF * 128 + b2n z * 4)) 2) (Opnd.ofCode (d.code)) (Opnd.ofCode (a.code)) = _
  rw [Instr.fclass.injEq]
  exact ⟨hdr_mk hF .., place34 .., place35 .., Opnd.ofCode_code ho0, Opnd.ofCode_code ho1⟩

theorem fscale h ty rnd ftz z d a b : Statement (.fscale h ty rnd ftz z d a b) := by
  intro seq hw
  obtain ⟨_, e, hF, hm, -, ho, hp⟩ := wf_parts hw
  cases e
  have ho0 : d.inRange = true := ho _ (List.getElem_mem (l := Instr.opers (.fscale h ty rnd ftz z d a b)) (n := 0) (by show 0 < 3; decide))
  have ho1 : a.inRange = true := ho _ (List.getElem_mem (l := Instr.opers (.fscale h ty rnd ftz z d a b)) (n := 1) (by show 1 < 3; decide))
  have ho2 : b.inRange = true := ho _ (List.getElem_mem (l := Instr.opers (.fscale h ty rnd ftz z d a b)) (n := 2) (by show 2 < 3; decide))
  refine ⟨?_, fits_mk (opc := 0x052) (d := d.code) (a := a.code) (b := b.code) (c := 0) (m := (ty.codeF * 128 + rnd.code * 32 + b2n ftz * 16 + b2n z * 4)) (e := (0)) hF (by decide) (Opnd.code_lt ho0) (Opnd.code_lt ho1) (Opnd.code_lt ho2) (Nat.zero_lt_succ _) (place16 ..) (Nat.zero_lt_succ _), rfl⟩
  show Instr.fscale (mkF h 0x052 d.code a.code b.code 0 (ty.codeF * 128 + rnd.code * 32 + b2n ftz * 16 + b2n z * 4) (0)).hdr (Ty.ofCodeF (bits ((ty.codeF * 128 + rnd.code * 32 + b2n ftz * 16 + b2n z * 4)) 7 5)) (Rnd.ofCode (bits ((ty.codeF * 128 + rnd.code * 32 + b2n ftz * 16 + b2n z * 4)) 5 2)) (bitAt ((ty.codeF * 128 + rnd.code * 32 + b2n ftz * 16 + b2n z * 4)) 4) (bitAt ((ty.codeF * 128 + rnd.code * 32 + b2n ftz * 16 + b2n z * 4)) 2) (Opnd.ofCode (d.code)) (Opnd.ofCode (a.code)) (Opnd.ofCode (b.code)) = _
  rw [Instr.fscale.injEq]
  exact ⟨hdr_mk hF .., place12 .., place13 .., place14 .., place15 .., Opnd.ofCode_code ho0, Opnd.ofCode_code ho1, Opnd.ofCode_code ho2⟩

theorem fdot2 h ty rnd z d a b c : Statement (.fdot2 h ty rnd z d a b c) := by
  intro seq hw
  obtain ⟨_, e, hF, hm, -, ho, hp⟩ := wf_parts hw
  cases e
  have ho0 : d.inRange = true := ho _ (List.getElem_mem (l := Instr.opers (.fdot2 h ty rnd z d a b c)) (n := 0) (by show 0 < 4; decide))
  have ho1 : a.inRange = true := ho _ (List.getElem_mem (l := Instr.opers (.fdot2 h ty rnd z d a b c)) (n := 1) (by show 1 < 4; decide))
  have ho2 : b.inRange = true := ho _ (List.getElem_mem (l := Instr.opers (.fdot2 h ty rnd z d a b c)) (n := 2) (by show 2 < 4; decide))
  have ho3 : c.inRange = true := ho _ (List.getElem_mem (l := Instr.opers (.fdot2 h ty rnd z d a b c)) (n := 3) (by show 3 < 4; decide))
  refine ⟨?_, fits_mk (opc := 0x053) (d := d.code) (a := a.code) (b := b.code) (c := c.code) (m := (ty.codeF * 128 + rnd.code * 32 + b2n z * 4)) (e := (0)) hF (by decide) (Opnd.code_lt ho0) (Opnd.code_lt ho1) (Opnd.code_lt ho2) (Opnd.code_lt ho3) (place40 ..) (Nat.zero_lt_succ _), rfl⟩
  show Instr.fdot2 (mkF h 0x053 d.code a.code b.code c.code (ty.codeF * 128 + rnd.code * 32 + b2n z * 4) (0)).hdr (Ty.ofCodeF (bits ((ty.codeF * 128 + rnd.code * 32 + b2n z * 4)) 7 5)) (Rnd.ofCode (bits ((ty.codeF * 128 + rnd.code * 32 + b2n z * 4)) 5 2)) (bitAt ((ty.codeF * 128 + rnd.code * 32 + b2n z * 4)) 2) (Opnd.ofCode (d.code)) (Opnd.ofCode (a.code)) (Opnd.ofCode (b.code)) (Opnd.ofCode (c.code)) = _
  rw [Instr.fdot2.injEq]
  exact ⟨hdr_mk hF .., place37 .., place38 .., place39 .., Opnd.ofCode_code ho0, Opnd.ofCode_code ho1, Opnd.ofCode_code ho2, Opnd.ofCode_code ho3⟩

theorem cvt h dty sty rnd sat z nan d di a si : Statement (.cvt h dty sty rnd sat z nan d di a si) := by
  intro seq hw
  obtain ⟨_, e, hF, hm, -, ho, hp⟩ := wf_parts hw
  cases e
  have ho0 : d.inRange = true := ho _ (List.getElem_mem (l := Instr.opers (.cvt h dty sty rnd sat z nan d di a si)) (n := 0) (by show 0 < 2; decide))
  have ho1 : a.inRange = true := ho _ (List.getElem_mem (l := Instr.opers (.cvt h dty sty rnd sat z nan d di a si)) (n := 1) (by show 1 < 2; decide))
  replace hm : ((cvtOk dty sty rnd sat nan && di < dty.perReg && si < sty.perReg && di < 8 && si < 8 : Bool)) = true := hm
  simp only [Bool.and_eq_true, decide_eq_true_eq] at hm
  refine ⟨?_, fits_mk (opc := 0x080) (d := d.code) (a := a.code) (b := 0) (c := 0) (m := (dty.codeF * 2048 + sty.codeF * 64 + rnd.code * 16 + b2n sat * 8 + b2n z * 4 + b2n nan * 2)) (e := (di * 1 + si * 8)) hF (by decide) (Opnd.code_lt ho0) (Opnd.code_lt ho1) (Nat.zero_lt_succ _) (Nat.zero_lt_succ _) (place47 ..) (by omega), rfl⟩
  show Instr.cvt (mkF h 0x080 d.code a.code 0 0 (dty.codeF * 2048 + sty.codeF * 64 + rnd.code * 16 + b2n sat * 8 + b2n z * 4 + b2n nan * 2) (di * 1 + si * 8)).hdr (Ty.ofCodeF (bits ((dty.codeF * 2048 + sty.codeF * 64 + rnd.code * 16 + b2n sat * 8 + b2n z * 4 + b2n nan * 2)) 11 5)) (Ty.ofCodeF (bits ((dty.codeF * 2048 + sty.codeF * 64 + rnd.code * 16 + b2n sat * 8 + b2n z * 4 + b2n nan * 2)) 6 5)) (Rnd.ofCode (bits ((dty.codeF * 2048 + sty.codeF * 64 + rnd.code * 16 + b2n sat * 8 + b2n z * 4 + b2n nan * 2)) 4 2)) (bitAt ((dty.codeF * 2048 + sty.codeF * 64 + rnd.code * 16 + b2n sat * 8 + b2n z * 4 + b2n nan * 2)) 3) (bitAt ((dty.codeF * 2048 + sty.codeF * 64 + rnd.code * 16 + b2n sat * 8 + b2n z * 4 + b2n nan * 2)) 2) (bitAt ((dty.codeF * 2048 + sty.codeF * 64 + rnd.code * 16 + b2n sat * 8 + b2n z * 4 + b2n nan * 2)) 1) (Opnd.ofCode (d.code)) (bits ((di * 1 + si * 8)) 0 3) (Opnd.ofCode (a.code)) (bits ((di * 1 + si * 8)) 3 3) = _
  rw [Instr.cvt.injEq]
  exact ⟨hdr_mk hF .., place41 .., place42 .., place43 .., place44 .., place45 .., place46 .., Opnd.ofCode_code ho0, bits_of (by omega), Opnd.ofCode_code ho1, bits_of (by omega)⟩

theorem pack h dty sty rnd sat z nan d a b j : Statement (.pack h dty sty rnd sat z nan d a b j) := by
  intro seq hw
  obtain ⟨_, e, hF, hm, -, ho, hp⟩ := wf_parts hw
  cases e
  have ho0 : d.inRange = true := ho _ (List.getElem_mem (l := Instr.opers (.pack h dty sty rnd sat z nan d a b j)) (n := 0) (by show 0 < 3; decide))
  have ho1 : a.inRange = true := ho _ (List.getElem_mem (l := Instr.opers (.pack h dty sty rnd sat z nan d a b j)) (n := 1) (by show 1 < 3; decide))
  have ho2 : b.inRange = true := ho _ (List.getElem_mem (l := Instr.opers (.pack h dty sty rnd sat z nan d a b j)) (n := 2) (by show 2 < 3; decide))
  replace hm : ((packOk dty sty rnd sat nan && 2 * j + 1 < dty.perReg && j < 4 : Bool)) = true := hm
  simp only [Bool.and_eq_true, decide_eq_true_eq] at hm
  refine ⟨?_, fits_mk (opc := 0x081) (d := d.code) (a := a.code) (b := b.code) (c := 0) (m := (dty.codeF * 2048 + sty.codeF * 64 + rnd.code * 16 + b2n sat * 8 + b2n z * 4 + b2n nan * 2)) (e := (j * 1)) hF (by decide) (Opnd.code_lt ho0) (Opnd.code_lt ho1) (Opnd.code_lt ho2) (Nat.zero_lt_succ _) (place47 ..) (by omega), rfl⟩
  show Instr.pack (mkF h 0x081 d.code a.code b.code 0 (dty.codeF * 2048 + sty.codeF * 64 + rnd.code * 16 + b2n sat * 8 + b2n z * 4 + b2n nan * 2) (j * 1)).hdr (Ty.ofCodeF (bits ((dty.codeF * 2048 + sty.codeF * 64 + rnd.code * 16 + b2n sat * 8 + b2n z * 4 + b2n nan * 2)) 11 5)) (Ty.ofCodeF (bits ((dty.codeF * 2048 + sty.codeF * 64 + rnd.code * 16 + b2n sat * 8 + b2n z * 4 + b2n nan * 2)) 6 5)) (Rnd.ofCode (bits ((dty.codeF * 2048 + sty.codeF * 64 + rnd.code * 16 + b2n sat * 8 + b2n z * 4 + b2n nan * 2)) 4 2)) (bitAt ((dty.codeF * 2048 + sty.codeF * 64 + rnd.code * 16 + b2n sat * 8 + b2n z * 4 + b2n nan * 2)) 3) (bitAt ((dty.codeF * 2048 + sty.codeF * 64 + rnd.code * 16 + b2n sat * 8 + b2n z * 4 + b2n nan * 2)) 2) (bitAt ((dty.codeF * 2048 + sty.codeF * 64 + rnd.code * 16 + b2n sat * 8 + b2n z * 4 + b2n nan * 2)) 1) (Opnd.ofCode (d.code)) (Opnd.ofCode (a.code)) (Opnd.ofCode (b.code)) (bits ((j * 1)) 0 2) = _
  rw [Instr.pack.injEq]
  exact ⟨hdr_mk hF .., place41 .., place42 .., place43 .., place44 .., place45 .., place46 .., Opnd.ofCode_code ho0, Opnd.ofCode_code ho1, Opnd.ofCode_code ho2, bits_of (by omega)⟩

theorem unpk h dty sty z d a j : Statement (.unpk h dty sty z d a j) := by
  intro seq hw
  obtain ⟨_, e, hF, hm, -, ho, hp⟩ := wf_parts hw
  cases e
  have ho0 : d.inRange = true := ho _ (List.getElem_mem (l := Instr.opers (.unpk h dty sty z d a j)) (n := 0) (by show 0 < 2; decide))
  have ho1 : a.inRange = true := ho _ (List.getElem_mem (l := Instr.opers (.unpk h dty sty z d a j)) (n := 1) (by show 1 < 2; decide))
  replace hm : ((unpkOk dty sty && 2 * j + 1 < sty.perReg && j < 4 : Bool)) = true := hm
  simp only [Bool.and_eq_true, decide_eq_true_eq] at hm
  refine ⟨?_, fits_mk (opc := 0x082) (d := d.code) (a := a.code) (b := 0) (c := 0) (m := (dty.codeF * 2048 + sty.codeF * 64 + b2n z * 4)) (e := (j * 1)) hF (by decide) (Opnd.code_lt ho0) (Opnd.code_lt ho1) (Nat.zero_lt_succ _) (Nat.zero_lt_succ _) (place51 ..) (by omega), rfl⟩
  show Instr.unpk (mkF h 0x082 d.code a.code 0 0 (dty.codeF * 2048 + sty.codeF * 64 + b2n z * 4) (j * 1)).hdr (Ty.ofCodeF (bits ((dty.codeF * 2048 + sty.codeF * 64 + b2n z * 4)) 11 5)) (Ty.ofCodeF (bits ((dty.codeF * 2048 + sty.codeF * 64 + b2n z * 4)) 6 5)) (bitAt ((dty.codeF * 2048 + sty.codeF * 64 + b2n z * 4)) 2) (Opnd.ofCode (d.code)) (Opnd.ofCode (a.code)) (bits ((j * 1)) 0 2) = _
  rw [Instr.unpk.injEq]
  exact ⟨hdr_mk hF .., place48 .., place49 .., place50 .., Opnd.ofCode_code ho0, Opnd.ofCode_code ho1, bits_of (by omega)⟩

theorem qpack h dty sty rnd sat z nan d a hh : Statement (.qpack h dty sty rnd sat z nan d a hh) := by
  intro seq hw
  obtain ⟨_, e, hF, hm, -, ho, hp⟩ := wf_parts hw
  cases e
  have ho0 : d.inRange = true := ho _ (List.getElem_mem (l := Instr.opers (.qpack h dty sty rnd sat z nan d a hh)) (n := 0) (by show 0 < 2; decide))
  have ho1 : a.inRange = true := ho _ (List.getElem_mem (l := Instr.opers (.qpack h dty sty rnd sat z nan d a hh)) (n := 1) (by show 1 < 2; decide))
  replace hm : ((qpackOk dty sty rnd sat nan && 4 * hh + 3 < dty.perReg && hh < 2 : Bool)) = true := hm
  simp only [Bool.and_eq_true, decide_eq_true_eq] at hm
  refine ⟨?_, fits_mk (opc := 0x083) (d := d.code) (a := a.code) (b := 0) (c := 0) (m := (dty.codeF * 2048 + sty.codeF * 64 + rnd.code * 16 + b2n sat * 8 + b2n z * 4 + b2n nan * 2)) (e := (hh * 1)) hF (by decide) (Opnd.code_lt ho0) (Opnd.code_lt ho1) (Nat.zero_lt_succ _) (Nat.zero_lt_succ _) (place47 ..) (by omega), rfl⟩
  show Instr.qpack (mkF h 0x083 d.code a.code 0 0 (dty.codeF * 2048 + sty.codeF * 64 + rnd.code * 16 + b2n sat * 8 + b2n z * 4 + b2n nan * 2) (hh * 1)).hdr (Ty.ofCodeF (bits ((dty.codeF * 2048 + sty.codeF * 64 + rnd.code * 16 + b2n sat * 8 + b2n z * 4 + b2n nan * 2)) 11 5)) (Ty.ofCodeF (bits ((dty.codeF * 2048 + sty.codeF * 64 + rnd.code * 16 + b2n sat * 8 + b2n z * 4 + b2n nan * 2)) 6 5)) (Rnd.ofCode (bits ((dty.codeF * 2048 + sty.codeF * 64 + rnd.code * 16 + b2n sat * 8 + b2n z * 4 + b2n nan * 2)) 4 2)) (bitAt ((dty.codeF * 2048 + sty.codeF * 64 + rnd.code * 16 + b2n sat * 8 + b2n z * 4 + b2n nan * 2)) 3) (bitAt ((dty.codeF * 2048 + sty.codeF * 64 + rnd.code * 16 + b2n sat * 8 + b2n z * 4 + b2n nan * 2)) 2) (bitAt ((dty.codeF * 2048 + sty.codeF * 64 + rnd.code * 16 + b2n sat * 8 + b2n z * 4 + b2n nan * 2)) 1) (Opnd.ofCode (d.code)) (Opnd.ofCode (a.code)) (bits ((hh * 1)) 0 1) = _
  rw [Instr.qpack.injEq]
  exact ⟨hdr_mk hF .., place41 .., place42 .., place43 .., place44 .., place45 .., place46 .., Opnd.ofCode_code ho0, Opnd.ofCode_code ho1, bits_of (by omega)⟩

theorem qunpk h dty sty z d a hh : Statement (.qunpk h dty sty z d a hh) := by
  intro seq hw
  obtain ⟨_, e, hF, hm, -, ho, hp⟩ := wf_parts hw
  cases e
  have ho0 : d.inRange = true := ho _ (List.getElem_mem (l := Instr.opers (.qunpk h dty sty z d a hh)) (n := 0) (by show 0 < 2; decide))
  have ho1 : a.inRange = true := ho _ (List.getElem_mem (l := Instr.opers (.qunpk h dty sty z d a hh)) (n := 1) (by show 1 < 2; decide))
  replace hm : ((qunpkOk dty sty && 4 * hh + 3 < sty.perReg && hh < 2 : Bool)) = true := hm
  simp only [Bool.and_eq_true, decide_eq_true_eq] at hm
  refine ⟨?_, fits_mk (opc := 0x084) (d := d.code) (a := a.code) (b := 0) (c := 0) (m := (dty.codeF * 2048 + sty.codeF * 64 + b2n z * 4)) (e := (hh * 1)) hF (by decide) (Opnd.code_lt ho0) (Opnd.code_lt ho1) (Nat.zero_lt_succ _) (Nat.zero_lt_succ _) (place51 ..) (by omega), rfl⟩
  show Instr.qunpk (mkF h 0x084 d.code a.code 0 0 (dty.codeF * 2048 + sty.codeF * 64 + b2n z * 4) (hh * 1)).hdr (Ty.ofCodeF (bits ((dty.codeF * 2048 + sty.codeF * 64 + b2n z * 4)) 11 5)) (Ty.ofCodeF (bits ((dty.codeF * 2048 + sty.codeF * 64 + b2n z * 4)) 6 5)) (bitAt ((dty.codeF * 2048 + sty.codeF * 64 + b2n z * 4)) 2) (Opnd.ofCode (d.code)) (Opnd.ofCode (a.code)) (bits ((hh * 1)) 0 1) = _
  rw [Instr.qunpk.injEq]
  exact ⟨hdr_mk hF .., place48 .., place49 .., place50 .., Opnd.ofCode_code ho0, Opnd.ofCode_code ho1, bits_of (by omega)⟩

theorem dot4 h ty sat z d a b c : Statement (.dot4 h ty sat z d a b c) := by
  intro seq hw
  obtain ⟨_, e, hF, hm, -, ho, hp⟩ := wf_parts hw
  cases e
  have ho0 : d.inRange = true := ho _ (List.getElem_mem (l := Instr.opers (.dot4 h ty sat z d a b c)) (n := 0) (by show 0 < 4; decide))
  have ho1 : a.inRange = true := ho _ (List.getElem_mem (l := Instr.opers (.dot4 h ty sat z d a b c)) (n := 1) (by show 1 < 4; decide))
  have ho2 : b.inRange = true := ho _ (List.getElem_mem (l := Instr.opers (.dot4 h ty sat z d a b c)) (n := 2) (by show 2 < 4; decide))
  have ho3 : c.inRange = true := ho _ (List.getElem_mem (l := Instr.opers (.dot4 h ty sat z d a b c)) (n := 3) (by show 3 < 4; decide))
  refine ⟨?_, fits_mk (opc := 0x085) (d := d.code) (a := a.code) (b := b.code) (c := c.code) (m := (ty.code * 128 + b2n sat * 8 + b2n z * 4)) (e := (0)) hF (by decide) (Opnd.code_lt ho0) (Opnd.code_lt ho1) (Opnd.code_lt ho2) (Opnd.code_lt ho3) (place3 ..) (Nat.zero_lt_succ _), rfl⟩
  show Instr.dot4 (mkF h 0x085 d.code a.code b.code c.code (ty.code * 128 + b2n sat * 8 + b2n z * 4) (0)).hdr (Ty.ofCode (bits ((ty.code * 128 + b2n sat * 8 + b2n z * 4)) 7 5)) (bitAt ((ty.code * 128 + b2n sat * 8 + b2n z * 4)) 3) (bitAt ((ty.code * 128 + b2n sat * 8 + b2n z * 4)) 2) (Opnd.ofCode (d.code)) (Opnd.ofCode (a.code)) (Opnd.ofCode (b.code)) (Opnd.ofCode (c.code)) = _
  rw [Instr.dot4.injEq]
  exact ⟨hdr_mk hF .., place0 .., place1 .., place2 .., Opnd.ofCode_code ho0, Opnd.ofCode_code ho1, Opnd.ofCode_code ho2, Opnd.ofCode_code ho3⟩

theorem dot8 h ty sat z d a b c : Statement (.dot8 h ty sat z d a b c) := by
  intro seq hw
  obtain ⟨_, e, hF, hm, -, ho, hp⟩ := wf_parts hw
  cases e
  have ho0 : d.inRange = true := ho _ (List.getElem_mem (l := Instr.opers (.dot8 h ty sat z d a b c)) (n := 0) (by show 0 < 4; decide))
  have ho1 : a.inRange = true := ho _ (List.getElem_mem (l := Instr.opers (.dot8 h ty sat z d a b c)) (n := 1) (by show 1 < 4; decide))
  have ho2 : b.inRange = true := ho _ (List.getElem_mem (l := Instr.opers (.dot8 h ty sat z d a b c)) (n := 2) (by show 2 < 4; decide))
  have ho3 : c.inRange = true := ho _ (List.getElem_mem (l := Instr.opers (.dot8 h ty sat z d a b c)) (n := 3) (by show 3 < 4; decide))
  refine ⟨?_, fits_mk (opc := 0x086) (d := d.code) (a := a.code) (b := b.code) (c := c.code) (m := (ty.code * 128 + b2n sat * 8 + b2n z * 4)) (e := (0)) hF (by decide) (Opnd.code_lt ho0) (Opnd.code_lt ho1) (Opnd.code_lt ho2) (Opnd.code_lt ho3) (place3 ..) (Nat.zero_lt_succ _), rfl⟩
  show Instr.dot8 (mkF h 0x086 d.code a.code b.code c.code (ty.code * 128 + b2n sat * 8 + b2n z * 4) (0)).hdr (Ty.ofCode (bits ((ty.code * 128 + b2n sat * 8 + b2n z * 4)) 7 5)) (bitAt ((ty.code * 128 + b2n sat * 8 + b2n z * 4)) 3) (bitAt ((ty.code * 128 + b2n sat * 8 + b2n z * 4)) 2) (Opnd.ofCode (d.code)) (Opnd.ofCode (a.code)) (Opnd.ofCode (b.code)) (Opnd.ofCode (c.code)) = _
  rw [Instr.dot8.injEq]
  exact ⟨hdr_mk hF .., place0 .., place1 .., place2 .., Opnd.ofCode_code ho0, Opnd.ofCode_code ho1, Opnd.ofCode_code ho2, Opnd.ofCode_code ho3⟩

theorem dots h ty z d a b c sa sb : Statement (.dots h ty z d a b c sa sb) := by
  intro seq hw
  obtain ⟨_, e, hF, hm, -, ho, hp⟩ := wf_parts hw
  cases e
  have ho0 : d.inRange = true := ho _ (List.getElem_mem (l := Instr.opers (.dots h ty z d a b c sa sb)) (n := 0) (by show 0 < 4; decide))
  have ho1 : a.inRange = true := ho _ (List.getElem_mem (l := Instr.opers (.dots h ty z d a b c sa sb)) (n := 1) (by show 1 < 4; decide))
  have ho2 : b.inRange = true := ho _ (List.getElem_mem (l := Instr.opers (.dots h ty z d a b c sa sb)) (n := 2) (by show 2 < 4; decide))
  have ho3 : c.inRange = true := ho _ (List.getElem_mem (l := Instr.opers (.dots h ty z d a b c sa sb)) (n := 3) (by show 3 < 4; decide))
  replace hm : ((decide (ty ∈ [.e2m1, .e4m3, .e5m2]) && sa < 4 && sb < 4 : Bool)) = true := hm
  simp only [Bool.and_eq_true, decide_eq_true_eq] at hm
  refine ⟨?_, fits_mk (opc := 0x087) (d := d.code) (a := a.code) (b := b.code) (c := c.code) (m := (ty.code * 128 + b2n z * 4)) (e := (sa * 1 + sb * 4)) hF (by decide) (Opnd.code_lt ho0) (Opnd.code_lt ho1) (Opnd.code_lt ho2) (Opnd.code_lt ho3) (place6 ..) (by omega), rfl⟩
  show Instr.dots (mkF h 0x087 d.code a.code b.code c.code (ty.code * 128 + b2n z * 4) (sa * 1 + sb * 4)).hdr (Ty.ofCode (bits ((ty.code * 128 + b2n z * 4)) 7 5)) (bitAt ((ty.code * 128 + b2n z * 4)) 2) (Opnd.ofCode (d.code)) (Opnd.ofCode (a.code)) (Opnd.ofCode (b.code)) (Opnd.ofCode (c.code)) (bits ((sa * 1 + sb * 4)) 0 2) (bits ((sa * 1 + sb * 4)) 2 2) = _
  rw [Instr.dots.injEq]
  exact ⟨hdr_mk hF .., place4 .., place5 .., Opnd.ofCode_code ho0, Opnd.ofCode_code ho1, Opnd.ofCode_code ho2, Opnd.ofCode_code ho3, bits_of (by omega), bits_of (by omega)⟩

theorem prmb h z d a b c : Statement (.prmb h z d a b c) := by
  intro seq hw
  obtain ⟨_, e, hF, hm, -, ho, hp⟩ := wf_parts hw
  cases e
  have ho0 : d.inRange = true := ho _ (List.getElem_mem (l := Instr.opers (.prmb h z d a b c)) (n := 0) (by show 0 < 4; decide))
  have ho1 : a.inRange = true := ho _ (List.getElem_mem (l := Instr.opers (.prmb h z d a b c)) (n := 1) (by show 1 < 4; decide))
  have ho2 : b.inRange = true := ho _ (List.getElem_mem (l := Instr.opers (.prmb h z d a b c)) (n := 2) (by show 2 < 4; decide))
  have ho3 : c.inRange = true := ho _ (List.getElem_mem (l := Instr.opers (.prmb h z d a b c)) (n := 3) (by show 3 < 4; decide))
  refine ⟨?_, fits_mk (opc := 0x088) (d := d.code) (a := a.code) (b := b.code) (c := c.code) (m := (b2n z * 4)) (e := (0)) hF (by decide) (Opnd.code_lt ho0) (Opnd.code_lt ho1) (Opnd.code_lt ho2) (Opnd.code_lt ho3) (place8 ..) (Nat.zero_lt_succ _), rfl⟩
  show Instr.prmb (mkF h 0x088 d.code a.code b.code c.code (b2n z * 4) (0)).hdr (bitAt ((b2n z * 4)) 2) (Opnd.ofCode (d.code)) (Opnd.ofCode (a.code)) (Opnd.ofCode (b.code)) (Opnd.ofCode (c.code)) = _
  rw [Instr.prmb.injEq]
  exact ⟨hdr_mk hF .., place7 .., Opnd.ofCode_code ho0, Opnd.ofCode_code ho1, Opnd.ofCode_code ho2, Opnd.ofCode_code ho3⟩

theorem lxch h m ty z d a b : Statement (.lxch h m ty z d a b) := by
  intro seq hw
  obtain ⟨_, e, hF, hm, -, ho, hp⟩ := wf_parts hw
  cases e
  have ho0 : d.inRange = true := ho _ (List.getElem_mem (l := Instr.opers (.lxch h m ty z d a b)) (n := 0) (by show 0 < 3; decide))
  have ho1 : a.inRange = true := ho _ (List.getElem_mem (l := Instr.opers (.lxch h m ty z d a b)) (n := 1) (by show 1 < 3; decide))
  have ho2 : b.inRange = true := ho _ (List.getElem_mem (l := Instr.opers (.lxch h m ty z d a b)) (n := 2) (by show 2 < 3; decide))
  refine ⟨?_, fits_mk (opc := 0x0A0) (d := d.code) (a := a.code) (b := b.code) (c := 0) (m := (m.code * 4096 + ty.code * 128 + b2n z * 4)) (e := (0)) hF (by decide) (Opnd.code_lt ho0) (Opnd.code_lt ho1) (Opnd.code_lt ho2) (Nat.zero_lt_succ _) (place55 ..) (Nat.zero_lt_succ _), rfl⟩
  show Instr.lxch (mkF h 0x0A0 d.code a.code b.code 0 (m.code * 4096 + ty.code * 128 + b2n z * 4) (0)).hdr (LxMode.ofCode (bits ((m.code * 4096 + ty.code * 128 + b2n z * 4)) 12 4)) (Ty.ofCode (bits ((m.code * 4096 + ty.code * 128 + b2n z * 4)) 7 5)) (bitAt ((m.code * 4096 + ty.code * 128 + b2n z * 4)) 2) (Opnd.ofCode (d.code)) (Opnd.ofCode (a.code)) (Opnd.ofCode (b.code)) = _
  rw [Instr.lxch.injEq]
  exact ⟨hdr_mk hF .., place52 .., place53 .., place54 .., Opnd.ofCode_code ho0, Opnd.ofCode_code ho1, Opnd.ofCode_code ho2⟩

theorem qswp h k ty z d a : Statement (.qswp h k ty z d a) := by
  intro seq hw
  obtain ⟨_, e, hF, hm, -, ho, hp⟩ := wf_parts hw
  cases e
  have ho0 : d.inRange = true := ho _ (List.getElem_mem (l := Instr.opers (.qswp h k ty z d a)) (n := 0) (by show 0 < 2; decide))
  have ho1 : a.inRange = true := ho _ (List.getElem_mem (l := Instr.opers (.qswp h k ty z d a)) (n := 1) (by show 1 < 2; decide))
  refine ⟨?_, fits_mk (opc := 0x0A1) (d := d.code) (a := a.code) (b := 0) (c := 0) (m := (k.code * 4096 + ty.code * 128 + b2n z * 4)) (e := (0)) hF (by decide) (Opnd.code_lt ho0) (Opnd.code_lt ho1) (Nat.zero_lt_succ _) (Nat.zero_lt_succ _) (place59 ..) (Nat.zero_lt_succ _), rfl⟩
  show Instr.qswp (mkF h 0x0A1 d.code a.code 0 0 (k.code * 4096 + ty.code * 128 + b2n z * 4) (0)).hdr (QsK.ofCode (bits ((k.code * 4096 + ty.code * 128 + b2n z * 4)) 12 4)) (Ty.ofCode (bits ((k.code * 4096 + ty.code * 128 + b2n z * 4)) 7 5)) (bitAt ((k.code * 4096 + ty.code * 128 + b2n z * 4)) 2) (Opnd.ofCode (d.code)) (Opnd.ofCode (a.code)) = _
  rw [Instr.qswp.injEq]
  exact ⟨hdr_mk hF .., place56 .., place57 .., place58 .., Opnd.ofCode_code ho0, Opnd.ofCode_code ho1⟩

theorem qbcst h ty z d a k : Statement (.qbcst h ty z d a k) := by
  intro seq hw
  obtain ⟨_, e, hF, hm, -, ho, hp⟩ := wf_parts hw
  cases e
  have ho0 : d.inRange = true := ho _ (List.getElem_mem (l := Instr.opers (.qbcst h ty z d a k)) (n := 0) (by show 0 < 2; decide))
  have ho1 : a.inRange = true := ho _ (List.getElem_mem (l := Instr.opers (.qbcst h ty z d a k)) (n := 1) (by show 1 < 2; decide))
  replace hm : ((decide (ty ∈ [.b32, .b64]) && k < 4 : Bool)) = true := hm
  simp only [Bool.and_eq_true, decide_eq_true_eq] at hm
  refine ⟨?_, fits_mk (opc := 0x0A2) (d := d.code) (a := a.code) (b := 0) (c := 0) (m := (ty.code * 128 + b2n z * 4)) (e := (k * 1)) hF (by decide) (Opnd.code_lt ho0) (Opnd.code_lt ho1) (Nat.zero_lt_succ _) (Nat.zero_lt_succ _) (place6 ..) (by omega), rfl⟩
  show Instr.qbcst (mkF h 0x0A2 d.code a.code 0 0 (ty.code * 128 + b2n z * 4) (k * 1)).hdr (Ty.ofCode (bits ((ty.code * 128 + b2n z * 4)) 7 5)) (bitAt ((ty.code * 128 + b2n z * 4)) 2) (Opnd.ofCode (d.code)) (Opnd.ofCode (a.code)) (bits ((k * 1)) 0 2) = _
  rw [Instr.qbcst.injEq]
  exact ⟨hdr_mk hF .., place4 .., place5 .., Opnd.ofCode_code ho0, Opnd.ofCode_code ho1, bits_of (by omega)⟩

theorem qhelp h on : Statement (.qhelp h on) := by
  intro seq hw
  obtain ⟨_, e, hF, hm, -, ho, hp⟩ := wf_parts hw
  cases e
  refine ⟨?_, fits_mk (opc := 0x0A3) (d := 0) (a := 0) (b := 0) (c := 0) (m := (0)) (e := (b2n on * 1)) hF (by decide) (Nat.zero_lt_succ _) (Nat.zero_lt_succ _) (Nat.zero_lt_succ _) (Nat.zero_lt_succ _) (Nat.zero_lt_succ _) (place61 ..), rfl⟩
  show Instr.qhelp (mkF h 0x0A3 0 0 0 0 (0) (b2n on * 1)).hdr (bitAt ((b2n on * 1)) 0) = _
  rw [Instr.qhelp.injEq]
  exact ⟨hdr_mk hF .., place60 ..⟩

theorem vote h m z d pa : Statement (.vote h m z d pa) := by
  intro seq hw
  obtain ⟨_, e, hF, hm, -, ho, hp⟩ := wf_parts hw
  cases e
  replace hm : (voteOk m z d && pa < 16) = true := hm
  simp only [Bool.and_eq_true, decide_eq_true_eq] at hm
  have h1 := VoteOp.code_lt m; have h2 := b2n_le z; have h3 : bits (m.code * 4096 + b2n z * 4) 12 4 = m.code := bits_of (by omega)
  have h4 : d.code < 1024 ∧ VoteDst.ofCode m.code d.code = d := by
    unfold VoteDst.ofCode; rw [VoteOp.ofCode_code]
    cases d with
    | pred p => cases m <;> first | exact ⟨Nat.lt_trans (hp (p, true) (by simp [Instr.predUses])) (by decide), rfl⟩ | simp [voteOk] at hm
    | reg r =>
      have hr := ho _ (List.getElem_mem (l := Instr.opers (.vote h m z (.reg r) pa)) (n := 0) (by show 0 < 1; decide))
      cases m <;> first | exact ⟨Opnd.code_lt hr, congrArg VoteDst.reg (Opnd.ofCode_code hr)⟩ | simp [voteOk] at hm
  refine ⟨?_, fits_mk hF (by decide) h4.1 (by omega) (by decide) (by decide) (by omega) (by decide), rfl⟩
  show Instr.vote (mkF h 0x0A4 d.code pa 0 0 (m.code * 4096 + b2n z * 4) (0)).hdr (VoteOp.ofCode (bits ((m.code * 4096 + b2n z * 4)) 12 4)) (bitAt ((m.code * 4096 + b2n z * 4)) 2) (VoteDst.ofCode (bits ((m.code * 4096 + b2n z * 4)) 12 4) (d.code)) (pa) = _
  rw [h3, VoteOp.ofCode_code, h4.2, hdr_mk hF, bitAt_of (b := z) (by omega)]

theorem gred h op ty z d a : Statement (.gred h op ty z d a) := by
  intro seq hw
  obtain ⟨_, e, hF, hm, -, ho, hp⟩ := wf_parts hw
  cases e
  have ho0 : d.inRange = true := ho _ (List.getElem_mem (l := Instr.opers (.gred h op ty z d a)) (n := 0) (by show 0 < 2; decide))
  have ho1 : a.inRange = true := ho _ (List.getElem_mem (l := Instr.opers (.gred h op ty z d a)) (n := 1) (by show 1 < 2; decide))
  refine ⟨?_, fits_mk (opc := 0x0A5) (d := d.code) (a := a.code) (b := 0) (c := 0) (m := (op.code * 4096 + ty.code * 128 + b2n z * 4)) (e := (0)) hF (by decide) (Opnd.code_lt ho0) (Opnd.code_lt ho1) (Nat.zero_lt_succ _) (Nat.zero_lt_succ _) (place68 ..) (Nat.zero_lt_succ _), rfl⟩
  show Instr.gred (mkF h 0x0A5 d.code a.code 0 0 (op.code * 4096 + ty.code * 128 + b2n z * 4) (0)).hdr (RedOp.ofCode (bits ((op.code * 4096 + ty.code * 128 + b2n z * 4)) 12 4)) (Ty.ofCode (bits ((op.code * 4096 + ty.code * 128 + b2n z * 4)) 7 5)) (bitAt ((op.code * 4096 + ty.code * 128 + b2n z * 4)) 2) (Opnd.ofCode (d.code)) (Opnd.ofCode (a.code)) = _
  rw [Instr.gred.injEq]
  exact ⟨hdr_mk hF .., place65 .., place66 .., place67 .., Opnd.ofCode_code ho0, Opnd.ofCode_code ho1⟩

theorem gscan h op ty z excl d a : Statement (.gscan h op ty z excl d a) := by
  intro seq hw
  obtain ⟨_, e, hF, hm, -, ho, hp⟩ := wf_parts hw
  cases e
  have ho0 : d.inRange = true := ho _ (List.getElem_mem (l := Instr.opers (.gscan h op ty z excl d a)) (n := 0) (by show 0 < 2; decide))
  have ho1 : a.inRange = true := ho _ (List.getElem_mem (l := Instr.opers (.gscan h op ty z excl d a)) (n := 1) (by show 1 < 2; decide))
  refine ⟨?_, fits_mk (opc := 0x0A6) (d := d.code) (a := a.code) (b := 0) (c := 0) (m := (op.code * 4096 + ty.code * 128 + b2n z * 4 + b2n excl * 2)) (e := (0)) hF (by decide) (Opnd.code_lt ho0) (Opnd.code_lt ho1) (Nat.zero_lt_succ _) (Nat.zero_lt_succ _) (place73 ..) (Nat.zero_lt_succ _), rfl⟩
  show Instr.gscan (mkF h 0x0A6 d.code a.code 0 0 (op.code * 4096 + ty.code * 128 + b2n z * 4 + b2n excl * 2) (0)).hdr (RedOp.ofCode (bits ((op.code * 4096 + ty.code * 128 + b2n z * 4 + b2n excl * 2)) 12 4)) (Ty.ofCode (bits ((op.code * 4096 + ty.code * 128 + b2n z * 4 + b2n excl * 2)) 7 5)) (bitAt ((op.code * 4096 + ty.code * 128 + b2n z * 4 + b2n excl * 2)) 2) (bitAt ((op.code * 4096 + ty.code * 128 + b2n z * 4 + b2n excl * 2)) 1) (Opnd.ofCode (d.code)) (Opnd.ofCode (a.code)) = _
  rw [Instr.gscan.injEq]
  exact ⟨hdr_mk hF .., place69 .., place70 .., place71 .., place72 .., Opnd.ofCode_code ho0, Opnd.ofCode_code ho1⟩

theorem matchLanes h m ty z d a : Statement (.matchLanes h m ty z d a) := by
  intro seq hw
  obtain ⟨_, e, hF, hm, -, ho, hp⟩ := wf_parts hw
  cases e
  have ho0 : d.inRange = true := ho _ (List.getElem_mem (l := Instr.opers (.matchLanes h m ty z d a)) (n := 0) (by show 0 < 2; decide))
  have ho1 : a.inRange = true := ho _ (List.getElem_mem (l := Instr.opers (.matchLanes h m ty z d a)) (n := 1) (by show 1 < 2; decide))
  refine ⟨?_, fits_mk (opc := 0x0A7) (d := d.code) (a := a.code) (b := 0) (c := 0) (m := (m.code * 4096 + ty.code * 128 + b2n z * 4)) (e := (0)) hF (by decide) (Opnd.code_lt ho0) (Opnd.code_lt ho1) (Nat.zero_lt_succ _) (Nat.zero_lt_succ _) (place77 ..) (Nat.zero_lt_succ _), rfl⟩
  show Instr.matchLanes (mkF h 0x0A7 d.code a.code 0 0 (m.code * 4096 + ty.code * 128 + b2n z * 4) (0)).hdr (MatchOp.ofCode (bits ((m.code * 4096 + ty.code * 128 + b2n z * 4)) 12 4)) (Ty.ofCode (bits ((m.code * 4096 + ty.code * 128 + b2n z * 4)) 7 5)) (bitAt ((m.code * 4096 + ty.code * 128 + b2n z * 4)) 2) (Opnd.ofCode (d.code)) (Opnd.ofCode (a.code)) = _
  rw [Instr.matchLanes.injEq]
  exact ⟨hdr_mk hF .., place74 .., place75 .., place76 .., Opnd.ofCode_code ho0, Opnd.ofCode_code ho1⟩

theorem rdlane h ty z d a b : Statement (.rdlane h ty z d a b) := by
  intro seq hw
  obtain ⟨_, e, hF, hm, -, ho, hp⟩ := wf_parts hw
  cases e
  have ho0 : d.inRange = true := ho _ (List.getElem_mem (l := Instr.opers (.rdlane h ty z d a b)) (n := 0) (by show 0 < 3; decide))
  have ho1 : a.inRange = true := ho _ (List.getElem_mem (l := Instr.opers (.rdlane h ty z d a b)) (n := 1) (by show 1 < 3; decide))
  have ho2 : b.inRange = true := ho _ (List.getElem_mem (l := Instr.opers (.rdlane h ty z d a b)) (n := 2) (by show 2 < 3; decide))
  refine ⟨?_, fits_mk (opc := 0x0A8) (d := d.code) (a := a.code) (b := b.code) (c := 0) (m := (ty.code * 128 + b2n z * 4)) (e := (0)) hF (by decide) (Opnd.code_lt ho0) (Opnd.code_lt ho1) (Opnd.code_lt ho2) (Nat.zero_lt_succ _) (place6 ..) (Nat.zero_lt_succ _), rfl⟩
  show Instr.rdlane (mkF h 0x0A8 d.code a.code b.code 0 (ty.code * 128 + b2n z * 4) (0)).hdr (Ty.ofCode (bits ((ty.code * 128 + b2n z * 4)) 7 5)) (bitAt ((ty.code * 128 + b2n z * 4)) 2) (Opnd.ofCode (d.code)) (Opnd.ofCode (a.code)) (Opnd.ofCode (b.code)) = _
  rw [Instr.rdlane.injEq]
  exact ⟨hdr_mk hF .., place4 .., place5 .., Opnd.ofCode_code ho0, Opnd.ofCode_code ho1, Opnd.ofCode_code ho2⟩

theorem wrlane h ty d a b : Statement (.wrlane h ty d a b) := by
  intro seq hw
  obtain ⟨_, e, hF, hm, -, ho, hp⟩ := wf_parts hw
  cases e
  have ho0 : d.inRange = true := ho _ (List.getElem_mem (l := Instr.opers (.wrlane h ty d a b)) (n := 0) (by show 0 < 3; decide))
  have ho1 : a.inRange = true := ho _ (List.getElem_mem (l := Instr.opers (.wrlane h ty d a b)) (n := 1) (by show 1 < 3; decide))
  have ho2 : b.inRange = true := ho _ (List.getElem_mem (l := Instr.opers (.wrlane h ty d a b)) (n := 2) (by show 2 < 3; decide))
  refine ⟨?_, fits_mk (opc := 0x0A9) (d := d.code) (a := a.code) (b := b.code) (c := 0) (m := (ty.code * 128)) (e := (0)) hF (by decide) (Opnd.code_lt ho0) (Opnd.code_lt ho1) (Opnd.code_lt ho2) (Nat.zero_lt_succ _) (place79 ..) (Nat.zero_lt_succ _), rfl⟩
  show Instr.wrlane (mkF h 0x0A9 d.code a.code b.code 0 (ty.code * 128) (0)).hdr (Ty.ofCode (bits ((ty.code * 128)) 7 5)) (Opnd.ofCode (d.code)) (Opnd.ofCode (a.code)) (Opnd.ofCode (b.code)) = _
  rw [Instr.wrlane.injEq]
  exact ⟨hdr_mk hF .., place78 .., Opnd.ofCode_code ho0, Opnd.ofCode_code ho1, Opnd.ofCode_code ho2⟩

theorem bra h imm : Statement (.bra h imm) := by
  intro seq hw
  obtain ⟨_, e, hF, hm, -, ho, hp⟩ := wf_parts hw
  cases e
  refine ⟨?_, fits_mk (opc := 0x0C0) (d := 0) (a := 0) (b := (bits imm.toNat 0 10)) (c := (bits imm.toNat 10 10)) (m := (0)) (e := (bits imm.toNat 20 12)) hF (by decide) (Nat.zero_lt_succ _) (Nat.zero_lt_succ _) (bits_lt ..) (bits_lt ..) (Nat.zero_lt_succ _) (Nat.lt_trans (bits_lt ..) (by decide)), rfl⟩
  show Instr.bra (mkF h 0x0C0 0 0 (bits imm.toNat 0 10) (bits imm.toNat 10 10) (0) (bits imm.toNat 20 12)).hdr (mkF h 0x0C0 0 0 (bits imm.toNat 0 10) (bits imm.toNat 10 10) (0) (bits imm.toNat 20 12)).imm = _
  rw [Instr.bra.injEq]
  exact ⟨hdr_mk hF .., imm_pieces _⟩

theorem brx h a : Statement (.brx h a) := by
  intro seq hw
  obtain ⟨_, e, hF, hm, -, ho, hp⟩ := wf_parts hw
  cases e
  have ho0 : a.inRange = true := ho _ (List.getElem_mem (l := Instr.opers (.brx h a)) (n := 0) (by show 0 < 1; decide))
  refine ⟨?_, fits_mk (opc := 0x0C1) (d := 0) (a := a.code) (b := 0) (c := 0) (m := (0)) (e := (0)) hF (by decide) (Nat.zero_lt_succ _) (Opnd.code_lt ho0) (Nat.zero_lt_succ _) (Nat.zero_lt_succ _) (Nat.zero_lt_succ _) (Nat.zero_lt_succ _), rfl⟩
  show Instr.brx (mkF h 0x0C1 0 a.code 0 0 (0) (0)).hdr (Opnd.ofCode (a.code)) = _
  rw [Instr.brx.injEq]
  exact ⟨hdr_mk hF .., Opnd.ofCode_code ho0⟩

theorem call h imm : Statement (.call h imm) := by
  intro seq hw
  obtain ⟨_, e, hF, hm, -, ho, hp⟩ := wf_parts hw
  cases e
  refine ⟨?_, fits_mk (opc := 0x0C2) (d := 0) (a := 0) (b := (bits imm.toNat 0 10)) (c := (bits imm.toNat 10 10)) (m := (0)) (e := (bits imm.toNat 20 12)) hF (by decide) (Nat.zero_lt_succ _) (Nat.zero_lt_succ _) (bits_lt ..) (bits_lt ..) (Nat.zero_lt_succ _) (Nat.lt_trans (bits_lt ..) (by decide)), rfl⟩
  show Instr.call (mkF h 0x0C2 0 0 (bits imm.toNat 0 10) (bits imm.toNat 10 10) (0) (bits imm.toNat 20 12)).hdr (mkF h 0x0C2 0 0 (bits imm.toNat 0 10) (bits imm.toNat 10 10) (0) (bits imm.toNat 20 12)).imm = _
  rw [Instr.call.injEq]
  exact ⟨hdr_mk hF .., imm_pieces _⟩

theorem callx h a : Statement (.callx h a) := by
  intro seq hw
  obtain ⟨_, e, hF, hm, -, ho, hp⟩ := wf_parts hw
  cases e
  have ho0 : a.inRange = true := ho _ (List.getElem_mem (l := Instr.opers (.callx h a)) (n := 0) (by show 0 < 1; decide))
  refine ⟨?_, fits_mk (opc := 0x0C3) (d := 0) (a := a.code) (b := 0) (c := 0) (m := (0)) (e := (0)) hF (by decide) (Nat.zero_lt_succ _) (Opnd.code_lt ho0) (Nat.zero_lt_succ _) (Nat.zero_lt_succ _) (Nat.zero_lt_succ _) (Nat.zero_lt_succ _), rfl⟩
  show Instr.callx (mkF h 0x0C3 0 a.code 0 0 (0) (0)).hdr (Opnd.ofCode (a.code)) = _
  rw [Instr.callx.injEq]
  exact ⟨hdr_mk hF .., Opnd.ofCode_code ho0⟩

theorem ret h : Statement (.ret h) := by
  intro seq hw
  obtain ⟨_, e, hF, hm, -, ho, hp⟩ := wf_parts hw
  cases e
  refine ⟨?_, fits_mk (opc := 0x0C4) (d := 0) (a := 0) (b := 0) (c := 0) (m := (0)) (e := (0)) hF (by decide) (Nat.zero_lt_succ _) (Nat.zero_lt_succ _) (Nat.zero_lt_succ _) (Nat.zero_lt_succ _) (Nat.zero_lt_succ _) (Nat.zero_lt_succ _), rfl⟩
  show Instr.ret (mkF h 0x0C4 0 0 0 0 (0) (0)).hdr = _
  rw [Instr.ret.injEq]
  exact hdr_mk hF ..

theorem enrol h bn : Statement (.enrol h bn) := by
  intro seq hw
  obtain ⟨_, e, hF, hm, -, ho, hp⟩ := wf_parts hw
  cases e
  replace hm : ((bn < 16 : Bool)) = true := hm
  replace hm := of_decide_eq_true hm
  refine ⟨?_, fits_mk (opc := 0x0C5) (d := bn) (a := 0) (b := 0) (c := 0) (m := (0)) (e := (0)) hF (by decide) (by omega) (Nat.zero_lt_succ _) (Nat.zero_lt_succ _) (Nat.zero_lt_succ _) (Nat.zero_lt_succ _) (Nat.zero_lt_succ _), rfl⟩
  show Instr.enrol (mkF h 0x0C5 bn 0 0 0 (0) (0)).hdr (bn) = _
  rw [Instr.enrol.injEq]
  exact ⟨hdr_mk hF .., rfl⟩

theorem rejoin h bn : Statement (.rejoin h bn) := by
  intro seq hw
  obtain ⟨_, e, hF, hm, -, ho, hp⟩ := wf_parts hw
  cases e
  replace hm : ((bn < 16 : Bool)) = true := hm
  replace hm := of_decide_eq_true hm
  refine ⟨?_, fits_mk (opc := 0x0C6) (d := bn) (a := 0) (b := 0) (c := 0) (m := (0)) (e := (0)) hF (by decide) (by omega) (Nat.zero_lt_succ _) (Nat.zero_lt_succ _) (Nat.zero_lt_succ _) (Nat.zero_lt_succ _) (Nat.zero_lt_succ _), rfl⟩
  show Instr.rejoin (mkF h 0x0C6 bn 0 0 0 (0) (0)).hdr (bn) = _
  rw [Instr.rejoin.injEq]
  exact ⟨hdr_mk hF .., rfl⟩

theorem leave h bn : Statement (.leave h bn) := by
  intro seq hw
  obtain ⟨_, e, hF, hm, -, ho, hp⟩ := wf_parts hw
  cases e
  replace hm : ((bn < 16 : Bool)) = true := hm
  replace hm := of_decide_eq_true hm
  refine ⟨?_, fits_mk (opc := 0x0C7) (d := bn) (a := 0) (b := 0) (c := 0) (m := (0)) (e := (0)) hF (by decide) (by omega) (Nat.zero_lt_succ _) (Nat.zero_lt_succ _) (Nat.zero_lt_succ _) (Nat.zero_lt_succ _) (Nat.zero_lt_succ _), rfl⟩
  show Instr.leave (mkF h 0x0C7 bn 0 0 0 (0) (0)).hdr (bn) = _
  rw [Instr.leave.injEq]
  exact ⟨hdr_mk hF .., rfl⟩

theorem exit h : Statement (.exit h) := by
  intro seq hw
  obtain ⟨_, e, hF, hm, -, ho, hp⟩ := wf_parts hw
  cases e
  refine ⟨?_, fits_mk (opc := 0x0C8) (d := 0) (a := 0) (b := 0) (c := 0) (m := (0)) (e := (0)) hF (by decide) (Nat.zero_lt_succ _) (Nat.zero_lt_succ _) (Nat.zero_lt_succ _) (Nat.zero_lt_succ _) (Nat.zero_lt_succ _) (Nat.zero_lt_succ _), rfl⟩
  show Instr.exit (mkF h 0x0C8 0 0 0 0 (0) (0)).hdr = _
  rw [Instr.exit.injEq]
  exact hdr_mk hF ..

theorem yield h : Statement (.yield h) := by
  intro seq hw
  obtain ⟨_, e, hF, hm, -, ho, hp⟩ := wf_parts hw
  cases e
  refine ⟨?_, fits_mk (opc := 0x0C9) (d := 0) (a := 0) (b := 0) (c := 0) (m := (0)) (e := (0)) hF (by decide) (Nat.zero_lt_succ _) (Nat.zero_lt_succ _) (Nat.zero_lt_succ _) (Nat.zero_lt_succ _) (Nat.zero_lt_succ _) (Nat.zero_lt_succ _), rfl⟩
  show Instr.yield (mkF h 0x0C9 0 0 0 0 (0) (0)).hdr = _
  rw [Instr.yield.injEq]
  exact hdr_mk hF ..

theorem tbar h : Statement (.tbar h) := by
  intro seq hw
  obtain ⟨_, e, hF, hm, -, ho, hp⟩ := wf_parts hw
  cases e
  refine ⟨?_, fits_mk (opc := 0x0CA) (d := 0) (a := 0) (b := 0) (c := 0) (m := (0)) (e := (0)) hF (by decide) (Nat.zero_lt_succ _) (Nat.zero_lt_succ _) (Nat.zero_lt_succ _) (Nat.zero_lt_succ _) (Nat.zero_lt_succ _) (Nat.zero_lt_succ _), rfl⟩
  show Instr.tbar (mkF h 0x0CA 0 0 0 0 (0) (0)).hdr = _
  rw [Instr.tbar.injEq]
  exact hdr_mk hF ..

theorem tbara h : Statement (.tbara h) := by
  intro seq hw
  obtain ⟨_, e, hF, hm, -, ho, hp⟩ := wf_parts hw
  cases e
  refine ⟨?_, fits_mk (opc := 0x0CB) (d := 0) (a := 0) (b := 0) (c := 0) (m := (0)) (e := (0)) hF (by decide) (Nat.zero_lt_succ _) (Nat.zero_lt_succ _) (Nat.zero_lt_succ _) (Nat.zero_lt_succ _) (Nat.zero_lt_succ _) (Nat.zero_lt_succ _), rfl⟩
  show Instr.tbara (mkF h 0x0CB 0 0 0 0 (0) (0)).hdr = _
  rw [Instr.tbara.injEq]
  exact hdr_mk hF ..

theorem lnch h pd a q : Statement (.lnch h pd a q) := by
  intro seq hw
  obtain ⟨_, e, hF, hm, -, ho, hp⟩ := wf_parts hw
  cases e
  have ho0 : a.inRange = true := ho _ (List.getElem_mem (l := Instr.opers (.lnch h pd a q)) (n := 0) (by show 0 < 1; decide))
  replace hm : ((q < 64 && pd < 16 : Bool)) = true := hm
  simp only [Bool.and_eq_true, decide_eq_true_eq] at hm
  simp only [Instr.predUses, List.mem_cons, List.not_mem_nil, or_false, forall_eq_or_imp, forall_eq] at hp
  refine ⟨?_, fits_mk (opc := 0x0CC) (d := pd) (a := a.code) (b := q) (c := 0) (m := (0)) (e := (0)) hF (by decide) (by omega) (Opnd.code_lt ho0) (by omega) (Nat.zero_lt_succ _) (Nat.zero_lt_succ _) (Nat.zero_lt_succ _), rfl⟩
  show Instr.lnch (mkF h 0x0CC pd a.code q 0 (0) (0)).hdr (pd) (Opnd.ofCode (a.code)) (q) = _
  rw [Instr.lnch.injEq]
  exact ⟨hdr_mk hF .., rfl, Opnd.ofCode_code ho0, rfl⟩

theorem trap h imm : Statement (.trap h imm) := by
  intro seq hw
  obtain ⟨_, e, hF, hm, -, ho, hp⟩ := wf_parts hw
  cases e
  refine ⟨?_, fits_mk (opc := 0x0D0) (d := 0) (a := 0) (b := (bits imm.toNat 0 10)) (c := (bits imm.toNat 10 10)) (m := (0)) (e := (bits imm.toNat 20 12)) hF (by decide) (Nat.zero_lt_succ _) (Nat.zero_lt_succ _) (bits_lt ..) (bits_lt ..) (Nat.zero_lt_succ _) (Nat.lt_trans (bits_lt ..) (by decide)), rfl⟩
  show Instr.trap (mkF h 0x0D0 0 0 (bits imm.toNat 0 10) (bits imm.toNat 10 10) (0) (bits imm.toNat 20 12)).hdr (mkF h 0x0D0 0 0 (bits imm.toNat 0 10) (bits imm.toNat 10 10) (0) (bits imm.toNat 20 12)).imm = _
  rw [Instr.trap.injEq]
  exact ⟨hdr_mk hF .., imm_pieces _⟩

theorem brk h imm : Statement (.brk h imm) := by
  intro seq hw
  obtain ⟨_, e, hF, hm, -, ho, hp⟩ := wf_parts hw
  cases e
  refine ⟨?_, fits_mk (opc := 0x0D1) (d := 0) (a := 0) (b := (bits imm.toNat 0 10)) (c := (bits imm.toNat 10 10)) (m := (0)) (e := (bits imm.toNat 20 12)) hF (by decide) (Nat.zero_lt_succ _) (Nat.zero_lt_succ _) (bits_lt ..) (bits_lt ..) (Nat.zero_lt_succ _) (Nat.lt_trans (bits_lt ..) (by decide)), rfl⟩
  show Instr.brk (mkF h 0x0D1 0 0 (bits imm.toNat 0 10) (bits imm.toNat 10 10) (0) (bits imm.toNat 20 12)).hdr (mkF h 0x0D1 0 0 (bits imm.toNat 0 10) (bits imm.toNat 10 10) (0) (bits imm.toNat 20 12)).imm = _
  rw [Instr.brk.injEq]
  exact ⟨hdr_mk hF .., imm_pieces _⟩

theorem tret h skip : Statement (.tret h skip) := by
  intro seq hw
  obtain ⟨_, e, hF, hm, -, ho, hp⟩ := wf_parts hw
  cases e
  refine ⟨?_, fits_mk (opc := 0x0D2) (d := 0) (a := 0) (b := 0) (c := 0) (m := (0)) (e := (b2n skip * 1)) hF (by decide) (Nat.zero_lt_succ _) (Nat.zero_lt_succ _) (Nat.zero_lt_succ _) (Nat.zero_lt_succ _) (Nat.zero_lt_succ _) (place81 ..), rfl⟩
  show Instr.tret (mkF h 0x0D2 0 0 0 0 (0) (b2n skip * 1)).hdr (bitAt ((b2n skip * 1)) 0) = _
  rw [Instr.tret.injEq]
  exact ⟨hdr_mk hF .., place80 ..⟩

theorem tqrd h d : Statement (.tqrd h d) := by
  intro seq hw
  obtain ⟨_, e, hF, hm, -, ho, hp⟩ := wf_parts hw
  cases e
  have ho0 : d.inRange = true := ho _ (List.getElem_mem (l := Instr.opers (.tqrd h d)) (n := 0) (by show 0 < 1; decide))
  refine ⟨?_, fits_mk (opc := 0x0D3) (d := d.code) (a := 0) (b := 0) (c := 0) (m := (0)) (e := (0)) hF (by decide) (Opnd.code_lt ho0) (Nat.zero_lt_succ _) (Nat.zero_lt_succ _) (Nat.zero_lt_succ _) (Nat.zero_lt_succ _) (Nat.zero_lt_succ _), rfl⟩
  show Instr.tqrd (mkF h 0x0D3 d.code 0 0 0 (0) (0)).hdr (Opnd.ofCode (d.code)) = _
  rw [Instr.tqrd.injEq]
  exact ⟨hdr_mk hF .., Opnd.ofCode_code ho0⟩

theorem grow h must pd imm : Statement (.grow h must pd imm) := by
  intro seq hw
  obtain ⟨_, e, hF, hm, -, ho, hp⟩ := wf_parts hw
  cases e
  replace hm : ((growOk imm && pd < 16 : Bool)) = true := hm
  simp only [Bool.and_eq_true, decide_eq_true_eq] at hm
  simp only [Instr.predUses, List.mem_cons, List.not_mem_nil, or_false, forall_eq_or_imp, forall_eq] at hp
  refine ⟨?_, fits_mk (opc := 0x0E0) (d := pd) (a := 0) (b := (bits imm.toNat 0 10)) (c := (bits imm.toNat 10 10)) (m := (b2n must * 1)) (e := (bits imm.toNat 20 12)) hF (by decide) (by omega) (Nat.zero_lt_succ _) (bits_lt ..) (bits_lt ..) (place83 ..) (Nat.lt_trans (bits_lt ..) (by decide)), rfl⟩
  show Instr.grow (mkF h 0x0E0 pd 0 (bits imm.toNat 0 10) (bits imm.toNat 10 10) (b2n must * 1) (bits imm.toNat 20 12)).hdr (bitAt ((b2n must * 1)) 0) (pd) (mkF h 0x0E0 pd 0 (bits imm.toNat 0 10) (bits imm.toNat 10 10) (b2n must * 1) (bits imm.toNat 20 12)).imm = _
  rw [Instr.grow.injEq]
  exact ⟨hdr_mk hF .., place82 .., rfl, imm_pieces _⟩

theorem shrink h imm : Statement (.shrink h imm) := by
  intro seq hw
  obtain ⟨_, e, hF, hm, -, ho, hp⟩ := wf_parts hw
  cases e
  refine ⟨?_, fits_mk (opc := 0x0E1) (d := 0) (a := 0) (b := (bits imm.toNat 0 10)) (c := (bits imm.toNat 10 10)) (m := (0)) (e := (bits imm.toNat 20 12)) hF (by decide) (Nat.zero_lt_succ _) (Nat.zero_lt_succ _) (bits_lt ..) (bits_lt ..) (Nat.zero_lt_succ _) (Nat.lt_trans (bits_lt ..) (by decide)), rfl⟩
  show Instr.shrink (mkF h 0x0E1 0 0 (bits imm.toNat 0 10) (bits imm.toNat 10 10) (0) (bits imm.toNat 20 12)).hdr (mkF h 0x0E1 0 0 (bits imm.toNat 0 10) (bits imm.toNat 10 10) (0) (bits imm.toNat 20 12)).imm = _
  rw [Instr.shrink.injEq]
  exact ⟨hdr_mk hF .., imm_pieces _⟩

theorem rdsr h d sr : Statement (.rdsr h d sr) := by
  intro seq hw
  obtain ⟨_, e, hF, hm, -, ho, hp⟩ := wf_parts hw
  cases e
  have ho0 : d.inRange = true := ho _ (List.getElem_mem (l := Instr.opers (.rdsr h d sr)) (n := 0) (by show 0 < 1; decide))
  refine ⟨?_, fits_mk (opc := 0x0E2) (d := d.code) (a := 0) (b := sr.code) (c := 0) (m := (0)) (e := (0)) hF (by decide) (Opnd.code_lt ho0) (Nat.zero_lt_succ _) (SReg.code_lt _) (Nat.zero_lt_succ _) (Nat.zero_lt_succ _) (Nat.zero_lt_succ _), rfl⟩
  show Instr.rdsr (mkF h 0x0E2 d.code 0 sr.code 0 (0) (0)).hdr (Opnd.ofCode (d.code)) (SReg.ofCode (mkF h 0x0E2 d.code 0 sr.code 0 (0) (0)).imm.toNat) = _
  rw [Instr.rdsr.injEq]
  exact ⟨hdr_mk hF .., Opnd.ofCode_code ho0, sreg_piece _⟩

theorem wrsr h a sr : Statement (.wrsr h a sr) := by
  intro seq hw
  obtain ⟨_, e, hF, hm, -, ho, hp⟩ := wf_parts hw
  cases e
  have ho0 : a.inRange = true := ho _ (List.getElem_mem (l := Instr.opers (.wrsr h a sr)) (n := 0) (by show 0 < 1; decide))
  refine ⟨?_, fits_mk (opc := 0x0E3) (d := 0) (a := a.code) (b := sr.code) (c := 0) (m := (0)) (e := (0)) hF (by decide) (Nat.zero_lt_succ _) (Opnd.code_lt ho0) (SReg.code_lt _) (Nat.zero_lt_succ _) (Nat.zero_lt_succ _) (Nat.zero_lt_succ _), rfl⟩
  show Instr.wrsr (mkF h 0x0E3 0 a.code sr.code 0 (0) (0)).hdr (Opnd.ofCode (a.code)) (SReg.ofCode (mkF h 0x0E3 0 a.code sr.code 0 (0) (0)).imm.toNat) = _
  rw [Instr.wrsr.injEq]
  exact ⟨hdr_mk hF .., Opnd.ofCode_code ho0, sreg_piece _⟩

theorem pset h pd a b : Statement (.pset h pd a b) := by
  intro seq hw
  obtain ⟨_, e, hF, hm, -, ho, hp⟩ := wf_parts hw
  cases e
  have ho0 : a.inRange = true := ho _ (List.getElem_mem (l := Instr.opers (.pset h pd a b)) (n := 0) (by show 0 < 2; decide))
  have ho1 : b.inRange = true := ho _ (List.getElem_mem (l := Instr.opers (.pset h pd a b)) (n := 1) (by show 1 < 2; decide))
  replace hm : ((pd < 16 : Bool)) = true := hm
  replace hm := of_decide_eq_true hm
  simp only [Instr.predUses, List.mem_cons, List.not_mem_nil, or_false, forall_eq_or_imp, forall_eq] at hp
  refine ⟨?_, fits_mk (opc := 0x0E4) (d := pd) (a := a.code) (b := b.code) (c := 0) (m := (0)) (e := (0)) hF (by decide) (by omega) (Opnd.code_lt ho0) (Opnd.code_lt ho1) (Nat.zero_lt_succ _) (Nat.zero_lt_succ _) (Nat.zero_lt_succ _), rfl⟩
  show Instr.pset (mkF h 0x0E4 pd a.code b.code 0 (0) (0)).hdr (pd) (Opnd.ofCode (a.code)) (Opnd.ofCode (b.code)) = _
  rw [Instr.pset.injEq]
  exact ⟨hdr_mk hF .., rfl, Opnd.ofCode_code ho0, Opnd.ofCode_code ho1⟩

theorem pmov h toP p r : Statement (.pmov h toP p r) := by
  intro seq hw
  obtain ⟨_, e, hF, hm, -, ho, hp⟩ := wf_parts hw
  cases e
  have hp' : p < 16 := hp (p, toP) (by simp [Instr.predUses])
  have hr : r.inRange = true := by
    cases toP
    · exact ho _ (List.getElem_mem (l := Instr.opers (.pmov h false p r)) (n := 0) (by show 0 < 1; decide))
    · exact ho _ (List.getElem_mem (l := Instr.opers (.pmov h true p r)) (n := 0) (by show 0 < 1; decide))
  have hc := Opnd.code_lt hr
  cases toP
  · refine ⟨?_, fits_mk hF (by decide) hc (by show p < 1024; omega) (by decide) (by decide) (by decide) (by decide), rfl⟩
    show Instr.pmov (Instr.pmov h false p r).fields.hdr (bitAt 0 0) (if bitAt 0 0 = true then r.code else p)
      (Opnd.ofCode (if bitAt 0 0 = true then p else r.code)) = _
    rw [if_neg (by decide), if_neg (by decide), Opnd.ofCode_code hr]
    exact congrArg (fun x => Instr.pmov x false p r) (hdr_mk hF ..)
  · refine ⟨?_, fits_mk hF (by decide) (by show p < 1024; omega) hc (by decide) (by decide) (by decide) (by decide), rfl⟩
    show Instr.pmov (Instr.pmov h true p r).fields.hdr (bitAt 1 0) (if bitAt 1 0 = true then p else r.code)
      (Opnd.ofCode (if bitAt 1 0 = true then r.code else p)) = _
    rw [if_pos (by decide), if_pos (by decide), Opnd.ofCode_code hr]
    exact congrArg (fun x => Instr.pmov x true p r) (hdr_mk hF ..)

theorem xget h d a b : Statement (.xget h d a b) := by
  intro seq hw
  obtain ⟨_, e, hF, hm, -, ho, hp⟩ := wf_parts hw
  cases e
  have ho0 : d.inRange = true := ho _ (List.getElem_mem (l := Instr.opers (.xget h d a b)) (n := 0) (by show 0 < 3; decide))
  have ho1 : a.inRange = true := ho _ (List.getElem_mem (l := Instr.opers (.xget h d a b)) (n := 1) (by show 1 < 3; decide))
  have ho2 : b.inRange = true := ho _ (List.getElem_mem (l := Instr.opers (.xget h d a b)) (n := 2) (by show 2 < 3; decide))
  refine ⟨?_, fits_mk (opc := 0x0E6) (d := d.code) (a := a.code) (b := b.code) (c := 0) (m := (0)) (e := (0)) hF (by decide) (Opnd.code_lt ho0) (Opnd.code_lt ho1) (Opnd.code_lt ho2) (Nat.zero_lt_succ _) (Nat.zero_lt_succ _) (Nat.zero_lt_succ _), rfl⟩
  show Instr.xget (mkF h 0x0E6 d.code a.code b.code 0 (0) (0)).hdr (Opnd.ofCode (d.code)) (Opnd.ofCode (a.code)) (Opnd.ofCode (b.code)) = _
  rw [Instr.xget.injEq]
  exact ⟨hdr_mk hF .., Opnd.ofCode_code ho0, Opnd.ofCode_code ho1, Opnd.ofCode_code ho2⟩

theorem xput h a b c : Statement (.xput h a b c) := by
  intro seq hw
  obtain ⟨_, e, hF, hm, -, ho, hp⟩ := wf_parts hw
  cases e
  have ho0 : a.inRange = true := ho _ (List.getElem_mem (l := Instr.opers (.xput h a b c)) (n := 0) (by show 0 < 3; decide))
  have ho1 : b.inRange = true := ho _ (List.getElem_mem (l := Instr.opers (.xput h a b c)) (n := 1) (by show 1 < 3; decide))
  have ho2 : c.inRange = true := ho _ (List.getElem_mem (l := Instr.opers (.xput h a b c)) (n := 2) (by show 2 < 3; decide))
  refine ⟨?_, fits_mk (opc := 0x0E7) (d := 0) (a := a.code) (b := b.code) (c := c.code) (m := (0)) (e := (0)) hF (by decide) (Nat.zero_lt_succ _) (Opnd.code_lt ho0) (Opnd.code_lt ho1) (Opnd.code_lt ho2) (Nat.zero_lt_succ _) (Nat.zero_lt_succ _), rfl⟩
  show Instr.xput (mkF h 0x0E7 0 a.code b.code c.code (0) (0)).hdr (Opnd.ofCode (a.code)) (Opnd.ofCode (b.code)) (Opnd.ofCode (c.code)) = _
  rw [Instr.xput.injEq]
  exact ⟨hdr_mk hF .., Opnd.ofCode_code ho0, Opnd.ofCode_code ho1, Opnd.ofCode_code ho2⟩

theorem ld h w64 ty sc ord chint d a off : Statement (.ld h w64 ty sc ord chint d a off) := by
  intro seq hw
  obtain ⟨_, e, hF, hm, -, ho, hp⟩ := wf_parts hw
  cases e
  have ho0 : d.inRange = true := ho _ (List.getElem_mem (l := Instr.opers (.ld h w64 ty sc ord chint d a off)) (n := 0) (by show 0 < 2; decide))
  have ho1 : a.inRange = true := ho _ (List.getElem_mem (l := Instr.opers (.ld h w64 ty sc ord chint d a off)) (n := 1) (by show 1 < 2; decide))
  refine ⟨?_, fits_mk (opc := 0x100) (d := d.code) (a := a.code) (b := 0) (c := (bits off.toNat 0 10)) (m := (b2n w64 * 32768 + ty.code * 128 + sc.code * 16 + ord.code * 4 + chint.code)) (e := (bits off.toNat 10 14)) hF (by decide) (Opnd.code_lt ho0) (Opnd.code_lt ho1) (Nat.zero_lt_succ _) (bits_lt ..) (place91 ..) (Nat.lt_trans (bits_lt ..) (by decide)), rfl⟩
  show Instr.ld (mkF h 0x100 d.code a.code 0 (bits off.toNat 0 10) (b2n w64 * 32768 + ty.code * 128 + sc.code * 16 + ord.code * 4 + chint.code) (bits off.toNat 10 14)).hdr (bitAt ((b2n w64 * 32768 + ty.code * 128 + sc.code * 16 + ord.code * 4 + chint.code)) 15) (Ty.ofCode (bits ((b2n w64 * 32768 + ty.code * 128 + sc.code * 16 + ord.code * 4 + chint.code)) 7 5)) (Scope.ofCode (bits ((b2n w64 * 32768 + ty.code * 128 + sc.code * 16 + ord.code * 4 + chint.code)) 4 3)) (Ord.ofCode (bits ((b2n w64 * 32768 + ty.code * 128 + sc.code * 16 + ord.code * 4 + chint.code)) 2 2)) (CacheH.ofCode (bits ((b2n w64 * 32768 + ty.code * 128 + sc.code * 16 + ord.code * 4 + chint.code)) 0 2)) (Opnd.ofCode (d.code)) (Opnd.ofCode (a.code)) (mkF h 0x100 d.code a.code 0 (bits off.toNat 0 10) (b2n w64 * 32768 + ty.code * 128 + sc.code * 16 + ord.code * 4 + chint.code) (bits off.toNat 10 14)).off = _
  rw [Instr.ld.injEq]
  exact ⟨hdr_mk hF .., place86 .., place87 .., place88 .., place89 .., place90 .., Opnd.ofCode_code ho0, Opnd.ofCode_code ho1, off_pieces _⟩

theorem st h w64 ty sc ord chint a b off : Statement (.st h w64 ty sc ord chint a b off) := by
  intro seq hw
  obtain ⟨_, e, hF, hm, -, ho, hp⟩ := wf_parts hw
  cases e
  have ho0 : a.inRange = true := ho _ (List.getElem_mem (l := Instr.opers (.st h w64 ty sc ord chint a b off)) (n := 0) (by show 0 < 2; decide))
  have ho1 : b.inRange = true := ho _ (List.getElem_mem (l := Instr.opers (.st h w64 ty sc ord chint a b off)) (n := 1) (by show 1 < 2; decide))
  refine ⟨?_, fits_mk (opc := 0x101) (d := 0) (a := a.code) (b := b.code) (c := (bits off.toNat 0 10)) (m := (b2n w64 * 32768 + ty.code * 128 + sc.code * 16 + ord.code * 4 + chint.code)) (e := (bits off.toNat 10 14)) hF (by decide) (Nat.zero_lt_succ _) (Opnd.code_lt ho0) (Opnd.code_lt ho1) (bits_lt ..) (place91 ..) (Nat.lt_trans (bits_lt ..) (by decide)), rfl⟩
  show Instr.st (mkF h 0x101 0 a.code b.code (bits off.toNat 0 10) (b2n w64 * 32768 + ty.code * 128 + sc.code * 16 + ord.code * 4 + chint.code) (bits off.toNat 10 14)).hdr (bitAt ((b2n w64 * 32768 + ty.code * 128 + sc.code * 16 + ord.code * 4 + chint.code)) 15) (Ty.ofCode (bits ((b2n w64 * 32768 + ty.code * 128 + sc.code * 16 + ord.code * 4 + chint.code)) 7 5)) (Scope.ofCode (bits ((b2n w64 * 32768 + ty.code * 128 + sc.code * 16 + ord.code * 4 + chint.code)) 4 3)) (Ord.ofCode (bits ((b2n w64 * 32768 + ty.code * 128 + sc.code * 16 + ord.code * 4 + chint.code)) 2 2)) (CacheH.ofCode (bits ((b2n w64 * 32768 + ty.code * 128 + sc.code * 16 + ord.code * 4 + chint.code)) 0 2)) (Opnd.ofCode (a.code)) (Opnd.ofCode (b.code)) (mkF h 0x101 0 a.code b.code (bits off.toNat 0 10) (b2n w64 * 32768 + ty.code * 128 + sc.code * 16 + ord.code * 4 + chint.code) (bits off.toNat 10 14)).off = _
  rw [Instr.st.injEq]
  exact ⟨hdr_mk hF .., place86 .., place87 .., place88 .., place89 .., place90 .., Opnd.ofCode_code ho0, Opnd.ofCode_code ho1, off_pieces _⟩

theorem lds h ty d a off : Statement (.lds h ty d a off) := by
  intro seq hw
  obtain ⟨_, e, hF, hm, -, ho, hp⟩ := wf_parts hw
  cases e
  have ho0 : d.inRange = true := ho _ (List.getElem_mem (l := Instr.opers (.lds h ty d a off)) (n := 0) (by show 0 < 2; decide))
  have ho1 : a.inRange = true := ho _ (List.getElem_mem (l := Instr.opers (.lds h ty d a off)) (n := 1) (by show 1 < 2; decide))
  refine ⟨?_, fits_mk (opc := 0x102) (d := d.code) (a := a.code) (b := 0) (c := (bits off.toNat 0 10)) (m := (ty.code * 128)) (e := (bits off.toNat 10 14)) hF (by decide) (Opnd.code_lt ho0) (Opnd.code_lt ho1) (Nat.zero_lt_succ _) (bits_lt ..) (place79 ..) (Nat.lt_trans (bits_lt ..) (by decide)), rfl⟩
  show Instr.lds (mkF h 0x102 d.code a.code 0 (bits off.toNat 0 10) (ty.code * 128) (bits off.toNat 10 14)).hdr (Ty.ofCode (bits ((ty.code * 128)) 7 5)) (Opnd.ofCode (d.code)) (Opnd.ofCode (a.code)) (mkF h 0x102 d.code a.code 0 (bits off.toNat 0 10) (ty.code * 128) (bits off.toNat 10 14)).off = _
  rw [Instr.lds.injEq]
  exact ⟨hdr_mk hF .., place78 .., Opnd.ofCode_code ho0, Opnd.ofCode_code ho1, off_pieces _⟩

theorem sts h ty a b off : Statement (.sts h ty a b off) := by
  intro seq hw
  obtain ⟨_, e, hF, hm, -, ho, hp⟩ := wf_parts hw
  cases e
  have ho0 : a.inRange = true := ho _ (List.getElem_mem (l := Instr.opers (.sts h ty a b off)) (n := 0) (by show 0 < 2; decide))
  have ho1 : b.inRange = true := ho _ (List.getElem_mem (l := Instr.opers (.sts h ty a b off)) (n := 1) (by show 1 < 2; decide))
  refine ⟨?_, fits_mk (opc := 0x103) (d := 0) (a := a.code) (b := b.code) (c := (bits off.toNat 0 10)) (m := (ty.code * 128)) (e := (bits off.toNat 10 14)) hF (by decide) (Nat.zero_lt_succ _) (Opnd.code_lt ho0) (Opnd.code_lt ho1) (bits_lt ..) (place79 ..) (Nat.lt_trans (bits_lt ..) (by decide)), rfl⟩
  show Instr.sts (mkF h 0x103 0 a.code b.code (bits off.toNat 0 10) (ty.code * 128) (bits off.toNat 10 14)).hdr (Ty.ofCode (bits ((ty.code * 128)) 7 5)) (Opnd.ofCode (a.code)) (Opnd.ofCode (b.code)) (mkF h 0x103 0 a.code b.code (bits off.toNat 0 10) (ty.code * 128) (bits off.toNat 10 14)).off = _
  rw [Instr.sts.injEq]
  exact ⟨hdr_mk hF .., place78 .., Opnd.ofCode_code ho0, Opnd.ofCode_code ho1, off_pieces _⟩

theorem atom h w64 op ty sc ord d a b off : Statement (.atom h w64 op ty sc ord d a b off) := by
  intro seq hw
  obtain ⟨_, e, hF, hm, -, ho, hp⟩ := wf_parts hw
  cases e
  have ho0 : d.inRange = true := ho _ (List.getElem_mem (l := Instr.opers (.atom h w64 op ty sc ord d a b off)) (n := 0) (by show 0 < 3; decide))
  have ho1 : a.inRange = true := ho _ (List.getElem_mem (l := Instr.opers (.atom h w64 op ty sc ord d a b off)) (n := 1) (by show 1 < 3; decide))
  have ho2 : b.inRange = true := ho _ (List.getElem_mem (l := Instr.opers (.atom h w64 op ty sc ord d a b off)) (n := 2) (by show 2 < 3; decide))
  refine ⟨?_, fits_mk (opc := 0x104) (d := d.code) (a := a.code) (b := b.code) (c := (bits off.toNat 0 10)) (m := (b2n w64 * 32768 + op.code * 4096 + ty.code * 128 + sc.code * 16 + ord.code * 4)) (e := (bits off.toNat 10 14)) hF (by decide) (Opnd.code_lt ho0) (Opnd.code_lt ho1) (Opnd.code_lt ho2) (bits_lt ..) (place97 ..) (Nat.lt_trans (bits_lt ..) (by decide)), rfl⟩
  show Instr.atom (mkF h 0x104 d.code a.code b.code (bits off.toNat 0 10) (b2n w64 * 32768 + op.code * 4096 + ty.code * 128 + sc.code * 16 + ord.code * 4) (bits off.toNat 10 14)).hdr (bitAt ((b2n w64 * 32768 + op.code * 4096 + ty.code * 128 + sc.code * 16 + ord.code * 4)) 15) (AOp.ofCode (bits ((b2n w64 * 32768 + op.code * 4096 + ty.code * 128 + sc.code * 16 + ord.code * 4)) 12 3)) (Ty.ofCode (bits ((b2n w64 * 32768 + op.code * 4096 + ty.code * 128 + sc.code * 16 + ord.code * 4)) 7 5)) (Scope.ofCode (bits ((b2n w64 * 32768 + op.code * 4096 + ty.code * 128 + sc.code * 16 + ord.code * 4)) 4 3)) (Ord.ofCode (bits ((b2n w64 * 32768 + op.code * 4096 + ty.code * 128 + sc.code * 16 + ord.code * 4)) 2 2)) (Opnd.ofCode (d.code)) (Opnd.ofCode (a.code)) (Opnd.ofCode (b.code)) (mkF h 0x104 d.code a.code b.code (bits off.toNat 0 10) (b2n w64 * 32768 + op.code * 4096 + ty.code * 128 + sc.code * 16 + ord.code * 4) (bits off.toNat 10 14)).off = _
  rw [Instr.atom.injEq]
  exact ⟨hdr_mk hF .., place92 .., place93 .., place94 .., place95 .., place96 .., Opnd.ofCode_code ho0, Opnd.ofCode_code ho1, Opnd.ofCode_code ho2, off_pieces _⟩

theorem atoms h op ty d a b off : Statement (.atoms h op ty d a b off) := by
  intro seq hw
  obtain ⟨_, e, hF, hm, -, ho, hp⟩ := wf_parts hw
  cases e
  have ho0 : d.inRange = true := ho _ (List.getElem_mem (l := Instr.opers (.atoms h op ty d a b off)) (n := 0) (by show 0 < 3; decide))
  have ho1 : a.inRange = true := ho _ (List.getElem_mem (l := Instr.opers (.atoms h op ty d a b off)) (n := 1) (by show 1 < 3; decide))
  have ho2 : b.inRange = true := ho _ (List.getElem_mem (l := Instr.opers (.atoms h op ty d a b off)) (n := 2) (by show 2 < 3; decide))
  refine ⟨?_, fits_mk (opc := 0x105) (d := d.code) (a := a.code) (b := b.code) (c := (bits off.toNat 0 10)) (m := (op.code * 4096 + ty.code * 128)) (e := (bits off.toNat 10 14)) hF (by decide) (Opnd.code_lt ho0) (Opnd.code_lt ho1) (Opnd.code_lt ho2) (bits_lt ..) (place100 ..) (Nat.lt_trans (bits_lt ..) (by decide)), rfl⟩
  show Instr.atoms (mkF h 0x105 d.code a.code b.code (bits off.toNat 0 10) (op.code * 4096 + ty.code * 128) (bits off.toNat 10 14)).hdr (AOp.ofCode (bits ((op.code * 4096 + ty.code * 128)) 12 3)) (Ty.ofCode (bits ((op.code * 4096 + ty.code * 128)) 7 5)) (Opnd.ofCode (d.code)) (Opnd.ofCode (a.code)) (Opnd.ofCode (b.code)) (mkF h 0x105 d.code a.code b.code (bits off.toNat 0 10) (op.code * 4096 + ty.code * 128) (bits off.toNat 10 14)).off = _
  rw [Instr.atoms.injEq]
  exact ⟨hdr_mk hF .., place98 .., place99 .., Opnd.ofCode_code ho0, Opnd.ofCode_code ho1, Opnd.ofCode_code ho2, off_pieces _⟩

theorem cas h w64 ty sc ord d a b off : Statement (.cas h w64 ty sc ord d a b off) := by
  intro seq hw
  obtain ⟨_, e, hF, hm, -, ho, hp⟩ := wf_parts hw
  cases e
  have ho0 : d.inRange = true := ho _ (List.getElem_mem (l := Instr.opers (.cas h w64 ty sc ord d a b off)) (n := 0) (by show 0 < 3; decide))
  have ho1 : a.inRange = true := ho _ (List.getElem_mem (l := Instr.opers (.cas h w64 ty sc ord d a b off)) (n := 1) (by show 1 < 3; decide))
  have ho2 : b.inRange = true := ho _ (List.getElem_mem (l := Instr.opers (.cas h w64 ty sc ord d a b off)) (n := 2) (by show 2 < 3; decide))
  refine ⟨?_, fits_mk (opc := 0x106) (d := d.code) (a := a.code) (b := b.code) (c := (bits off.toNat 0 10)) (m := (b2n w64 * 32768 + ty.code * 128 + sc.code * 16 + ord.code * 4)) (e := (bits off.toNat 10 14)) hF (by decide) (Opnd.code_lt ho0) (Opnd.code_lt ho1) (Opnd.code_lt ho2) (bits_lt ..) (place105 ..) (Nat.lt_trans (bits_lt ..) (by decide)), rfl⟩
  show Instr.cas (mkF h 0x106 d.code a.code b.code (bits off.toNat 0 10) (b2n w64 * 32768 + ty.code * 128 + sc.code * 16 + ord.code * 4) (bits off.toNat 10 14)).hdr (bitAt ((b2n w64 * 32768 + ty.code * 128 + sc.code * 16 + ord.code * 4)) 15) (Ty.ofCode (bits ((b2n w64 * 32768 + ty.code * 128 + sc.code * 16 + ord.code * 4)) 7 5)) (Scope.ofCode (bits ((b2n w64 * 32768 + ty.code * 128 + sc.code * 16 + ord.code * 4)) 4 3)) (Ord.ofCode (bits ((b2n w64 * 32768 + ty.code * 128 + sc.code * 16 + ord.code * 4)) 2 2)) (Opnd.ofCode (d.code)) (Opnd.ofCode (a.code)) (Opnd.ofCode (b.code)) (mkF h 0x106 d.code a.code b.code (bits off.toNat 0 10) (b2n w64 * 32768 + ty.code * 128 + sc.code * 16 + ord.code * 4) (bits off.toNat 10 14)).off = _
  rw [Instr.cas.injEq]
  exact ⟨hdr_mk hF .., place101 .., place102 .., place103 .., place104 .., Opnd.ofCode_code ho0, Opnd.ofCode_code ho1, Opnd.ofCode_code ho2, off_pieces _⟩

theorem red h w64 op ty sc ord a b off : Statement (.red h w64 op ty sc ord a b off) := by
  intro seq hw
  obtain ⟨_, e, hF, hm, -, ho, hp⟩ := wf_parts hw
  cases e
  have ho0 : a.inRange = true := ho _ (List.getElem_mem (l := Instr.opers (.red h w64 op ty sc ord a b off)) (n := 0) (by show 0 < 2; decide))
  have ho1 : b.inRange = true := ho _ (List.getElem_mem (l := Instr.opers (.red h w64 op ty sc ord a b off)) (n := 1) (by show 1 < 2; decide))
  refine ⟨?_, fits_mk (opc := 0x107) (d := 0) (a := a.code) (b := b.code) (c := (bits off.toNat 0 10)) (m := (b2n w64 * 32768 + op.code * 4096 + ty.code * 128 + sc.code * 16 + ord.code * 4)) (e := (bits off.toNat 10 14)) hF (by decide) (Nat.zero_lt_succ _) (Opnd.code_lt ho0) (Opnd.code_lt ho1) (bits_lt ..) (place97 ..) (Nat.lt_trans (bits_lt ..) (by decide)), rfl⟩
  show Instr.red (mkF h 0x107 0 a.code b.code (bits off.toNat 0 10) (b2n w64 * 32768 + op.code * 4096 + ty.code * 128 + sc.code * 16 + ord.code * 4) (bits off.toNat 10 14)).hdr (bitAt ((b2n w64 * 32768 + op.code * 4096 + ty.code * 128 + sc.code * 16 + ord.code * 4)) 15) (AOp.ofCode (bits ((b2n w64 * 32768 + op.code * 4096 + ty.code * 128 + sc.code * 16 + ord.code * 4)) 12 3)) (Ty.ofCode (bits ((b2n w64 * 32768 + op.code * 4096 + ty.code * 128 + sc.code * 16 + ord.code * 4)) 7 5)) (Scope.ofCode (bits ((b2n w64 * 32768 + op.code * 4096 + ty.code * 128 + sc.code * 16 + ord.code * 4)) 4 3)) (Ord.ofCode (bits ((b2n w64 * 32768 + op.code * 4096 + ty.code * 128 + sc.code * 16 + ord.code * 4)) 2 2)) (Opnd.ofCode (a.code)) (Opnd.ofCode (b.code)) (mkF h 0x107 0 a.code b.code (bits off.toNat 0 10) (b2n w64 * 32768 + op.code * 4096 + ty.code * 128 + sc.code * 16 + ord.code * 4) (bits off.toNat 10 14)).off = _
  rw [Instr.red.injEq]
  exact ⟨hdr_mk hF .., place92 .., place93 .., place94 .., place95 .., place96 .., Opnd.ofCode_code ho0, Opnd.ofCode_code ho1, off_pieces _⟩

theorem fence h sc : Statement (.fence h sc) := by
  intro seq hw
  obtain ⟨_, e, hF, hm, -, ho, hp⟩ := wf_parts hw
  cases e
  refine ⟨?_, fits_mk (opc := 0x108) (d := 0) (a := 0) (b := 0) (c := 0) (m := (sc.code * 16)) (e := (0)) hF (by decide) (Nat.zero_lt_succ _) (Nat.zero_lt_succ _) (Nat.zero_lt_succ _) (Nat.zero_lt_succ _) (place107 ..) (Nat.zero_lt_succ _), rfl⟩
  show Instr.fence (mkF h 0x108 0 0 0 0 (sc.code * 16) (0)).hdr (Scope.ofCode (bits ((sc.code * 16)) 4 3)) = _
  rw [Instr.fence.injEq]
  exact ⟨hdr_mk hF .., place106 ..⟩

theorem wait h nld nst ncp nmx nmt : Statement (.wait h nld nst ncp nmx nmt) := by
  intro seq hw
  obtain ⟨_, e, hF, hm, -, ho, hp⟩ := wf_parts hw
  cases e
  replace hm : ((nld < 64 && nst < 64 && ncp < 64 && nmx < 64 && nmt < 64 : Bool)) = true := hm
  simp only [Bool.and_eq_true, decide_eq_true_eq] at hm
  refine ⟨?_, fits_mk (opc := 0x109) (d := nld) (a := nst) (b := ncp) (c := nmx) (m := (0)) (e := (nmt * 1)) hF (by decide) (by omega) (by omega) (by omega) (by omega) (Nat.zero_lt_succ _) (by omega), rfl⟩
  show Instr.wait (mkF h 0x109 nld nst ncp nmx (0) (nmt * 1)).hdr (nld) (nst) (ncp) (nmx) (bits ((nmt * 1)) 0 6) = _
  rw [Instr.wait.injEq]
  exact ⟨hdr_mk hF .., rfl, rfl, rfl, rfl, bits_of (by omega)⟩

theorem monarm h w64 a off : Statement (.monarm h w64 a off) := by
  intro seq hw
  obtain ⟨_, e, hF, hm, -, ho, hp⟩ := wf_parts hw
  cases e
  have ho0 : a.inRange = true := ho _ (List.getElem_mem (l := Instr.opers (.monarm h w64 a off)) (n := 0) (by show 0 < 1; decide))
  refine ⟨?_, fits_mk (opc := 0x10A) (d := 0) (a := a.code) (b := 0) (c := (bits off.toNat 0 10)) (m := (b2n w64 * 32768)) (e := (bits off.toNat 10 14)) hF (by decide) (Nat.zero_lt_succ _) (Opnd.code_lt ho0) (Nat.zero_lt_succ _) (bits_lt ..) (place109 ..) (Nat.lt_trans (bits_lt ..) (by decide)), rfl⟩
  show Instr.monarm (mkF h 0x10A 0 a.code 0 (bits off.toNat 0 10) (b2n w64 * 32768) (bits off.toNat 10 14)).hdr (bitAt ((b2n w64 * 32768)) 15) (Opnd.ofCode (a.code)) (mkF h 0x10A 0 a.code 0 (bits off.toNat 0 10) (b2n w64 * 32768) (bits off.toNat 10 14)).off = _
  rw [Instr.monarm.injEq]
  exact ⟨hdr_mk hF .., place108 .., Opnd.ofCode_code ho0, off_pieces _⟩

theorem mwait h pd a : Statement (.mwait h pd a) := by
  intro seq hw
  obtain ⟨_, e, hF, hm, -, ho, hp⟩ := wf_parts hw
  cases e
  have ho0 : a.inRange = true := ho _ (List.getElem_mem (l := Instr.opers (.mwait h pd a)) (n := 0) (by show 0 < 1; decide))
  replace hm : ((pd < 16 : Bool)) = true := hm
  replace hm := of_decide_eq_true hm
  simp only [Instr.predUses, List.mem_cons, List.not_mem_nil, or_false, forall_eq_or_imp, forall_eq] at hp
  refine ⟨?_, fits_mk (opc := 0x10B) (d := pd) (a := a.code) (b := 0) (c := 0) (m := (0)) (e := (0)) hF (by decide) (by omega) (Opnd.code_lt ho0) (Nat.zero_lt_succ _) (Nat.zero_lt_succ _) (Nat.zero_lt_succ _) (Nat.zero_lt_succ _), rfl⟩
  show Instr.mwait (mkF h 0x10B pd a.code 0 0 (0) (0)).hdr (pd) (Opnd.ofCode (a.code)) = _
  rw [Instr.mwait.injEq]
  exact ⟨hdr_mk hF .., rfl, Opnd.ofCode_code ho0⟩

theorem pref h w64 chint a off : Statement (.pref h w64 chint a off) := by
  intro seq hw
  obtain ⟨_, e, hF, hm, -, ho, hp⟩ := wf_parts hw
  cases e
  have ho0 : a.inRange = true := ho _ (List.getElem_mem (l := Instr.opers (.pref h w64 chint a off)) (n := 0) (by show 0 < 1; decide))
  refine ⟨?_, fits_mk (opc := 0x10C) (d := 0) (a := a.code) (b := 0) (c := (bits off.toNat 0 10)) (m := (b2n w64 * 32768 + chint.code)) (e := (bits off.toNat 10 14)) hF (by decide) (Nat.zero_lt_succ _) (Opnd.code_lt ho0) (Nat.zero_lt_succ _) (bits_lt ..) (place112 ..) (Nat.lt_trans (bits_lt ..) (by decide)), rfl⟩
  show Instr.pref (mkF h 0x10C 0 a.code 0 (bits off.toNat 0 10) (b2n w64 * 32768 + chint.code) (bits off.toNat 10 14)).hdr (bitAt ((b2n w64 * 32768 + chint.code)) 15) (CacheH.ofCode (bits ((b2n w64 * 32768 + chint.code)) 0 2)) (Opnd.ofCode (a.code)) (mkF h 0x10C 0 a.code 0 (bits off.toNat 0 10) (b2n w64 * 32768 + chint.code) (bits off.toNat 10 14)).off = _
  rw [Instr.pref.injEq]
  exact ⟨hdr_mk hF .., place110 .., place111 .., Opnd.ofCode_code ho0, off_pieces _⟩

theorem cwb h w64 sc a off : Statement (.cwb h w64 sc a off) := by
  intro seq hw
  obtain ⟨_, e, hF, hm, -, ho, hp⟩ := wf_parts hw
  cases e
  have ho0 : a.inRange = true := ho _ (List.getElem_mem (l := Instr.opers (.cwb h w64 sc a off)) (n := 0) (by show 0 < 1; decide))
  refine ⟨?_, fits_mk (opc := 0x10D) (d := 0) (a := a.code) (b := 0) (c := (bits off.toNat 0 10)) (m := (b2n w64 * 32768 + sc.code * 16)) (e := (bits off.toNat 10 14)) hF (by decide) (Nat.zero_lt_succ _) (Opnd.code_lt ho0) (Nat.zero_lt_succ _) (bits_lt ..) (place115 ..) (Nat.lt_trans (bits_lt ..) (by decide)), rfl⟩
  show Instr.cwb (mkF h 0x10D 0 a.code 0 (bits off.toNat 0 10) (b2n w64 * 32768 + sc.code * 16) (bits off.toNat 10 14)).hdr (bitAt ((b2n w64 * 32768 + sc.code * 16)) 15) (Scope.ofCode (bits ((b2n w64 * 32768 + sc.code * 16)) 4 3)) (Opnd.ofCode (a.code)) (mkF h 0x10D 0 a.code 0 (bits off.toNat 0 10) (b2n w64 * 32768 + sc.code * 16) (bits off.toNat 10 14)).off = _
  rw [Instr.cwb.injEq]
  exact ⟨hdr_mk hF .., place113 .., place114 .., Opnd.ofCode_code ho0, off_pieces _⟩

theorem cinv h w64 sc a off : Statement (.cinv h w64 sc a off) := by
  intro seq hw
  obtain ⟨_, e, hF, hm, -, ho, hp⟩ := wf_parts hw
  cases e
  have ho0 : a.inRange = true := ho _ (List.getElem_mem (l := Instr.opers (.cinv h w64 sc a off)) (n := 0) (by show 0 < 1; decide))
  refine ⟨?_, fits_mk (opc := 0x10E) (d := 0) (a := a.code) (b := 0) (c := (bits off.toNat 0 10)) (m := (b2n w64 * 32768 + sc.code * 16)) (e := (bits off.toNat 10 14)) hF (by decide) (Nat.zero_lt_succ _) (Opnd.code_lt ho0) (Nat.zero_lt_succ _) (bits_lt ..) (place115 ..) (Nat.lt_trans (bits_lt ..) (by decide)), rfl⟩
  show Instr.cinv (mkF h 0x10E 0 a.code 0 (bits off.toNat 0 10) (b2n w64 * 32768 + sc.code * 16) (bits off.toNat 10 14)).hdr (bitAt ((b2n w64 * 32768 + sc.code * 16)) 15) (Scope.ofCode (bits ((b2n w64 * 32768 + sc.code * 16)) 4 3)) (Opnd.ofCode (a.code)) (mkF h 0x10E 0 a.code 0 (bits off.toNat 0 10) (b2n w64 * 32768 + sc.code * 16) (bits off.toNat 10 14)).off = _
  rw [Instr.cinv.injEq]
  exact ⟨hdr_mk hF .., place113 .., place114 .., Opnd.ofCode_code ho0, off_pieces _⟩

theorem lblrd h w64 d a off : Statement (.lblrd h w64 d a off) := by
  intro seq hw
  obtain ⟨_, e, hF, hm, -, ho, hp⟩ := wf_parts hw
  cases e
  have ho0 : d.inRange = true := ho _ (List.getElem_mem (l := Instr.opers (.lblrd h w64 d a off)) (n := 0) (by show 0 < 2; decide))
  have ho1 : a.inRange = true := ho _ (List.getElem_mem (l := Instr.opers (.lblrd h w64 d a off)) (n := 1) (by show 1 < 2; decide))
  refine ⟨?_, fits_mk (opc := 0x110) (d := d.code) (a := a.code) (b := 0) (c := (bits off.toNat 0 10)) (m := (b2n w64 * 32768)) (e := (bits off.toNat 10 14)) hF (by decide) (Opnd.code_lt ho0) (Opnd.code_lt ho1) (Nat.zero_lt_succ _) (bits_lt ..) (place109 ..) (Nat.lt_trans (bits_lt ..) (by decide)), rfl⟩
  show Instr.lblrd (mkF h 0x110 d.code a.code 0 (bits off.toNat 0 10) (b2n w64 * 32768) (bits off.toNat 10 14)).hdr (bitAt ((b2n w64 * 32768)) 15) (Opnd.ofCode (d.code)) (Opnd.ofCode (a.code)) (mkF h 0x110 d.code a.code 0 (bits off.toNat 0 10) (b2n w64 * 32768) (bits off.toNat 10 14)).off = _
  rw [Instr.lblrd.injEq]
  exact ⟨hdr_mk hF .., place108 .., Opnd.ofCode_code ho0, Opnd.ofCode_code ho1, off_pieces _⟩

theorem lblset h w64 lock a b off : Statement (.lblset h w64 lock a b off) := by
  intro seq hw
  obtain ⟨_, e, hF, hm, -, ho, hp⟩ := wf_parts hw
  cases e
  have ho0 : a.inRange = true := ho _ (List.getElem_mem (l := Instr.opers (.lblset h w64 lock a b off)) (n := 0) (by show 0 < 2; decide))
  have ho1 : b.inRange = true := ho _ (List.getElem_mem (l := Instr.opers (.lblset h w64 lock a b off)) (n := 1) (by show 1 < 2; decide))
  refine ⟨?_, fits_mk (opc := 0x111) (d := 0) (a := a.code) (b := b.code) (c := (bits off.toNat 0 10)) (m := (b2n w64 * 32768 + b2n lock * 4096)) (e := (bits off.toNat 10 14)) hF (by decide) (Nat.zero_lt_succ _) (Opnd.code_lt ho0) (Opnd.code_lt ho1) (bits_lt ..) (place118 ..) (Nat.lt_trans (bits_lt ..) (by decide)), rfl⟩
  show Instr.lblset (mkF h 0x111 0 a.code b.code (bits off.toNat 0 10) (b2n w64 * 32768 + b2n lock * 4096) (bits off.toNat 10 14)).hdr (bitAt ((b2n w64 * 32768 + b2n lock * 4096)) 15) (bitAt ((b2n w64 * 32768 + b2n lock * 4096)) 12) (Opnd.ofCode (a.code)) (Opnd.ofCode (b.code)) (mkF h 0x111 0 a.code b.code (bits off.toNat 0 10) (b2n w64 * 32768 + b2n lock * 4096) (bits off.toNat 10 14)).off = _
  rw [Instr.lblset.injEq]
  exact ⟨hdr_mk hF .., place116 .., place117 .., Opnd.ofCode_code ho0, Opnd.ofCode_code ho1, off_pieces _⟩

theorem lblclr h w64 a off : Statement (.lblclr h w64 a off) := by
  intro seq hw
  obtain ⟨_, e, hF, hm, -, ho, hp⟩ := wf_parts hw
  cases e
  have ho0 : a.inRange = true := ho _ (List.getElem_mem (l := Instr.opers (.lblclr h w64 a off)) (n := 0) (by show 0 < 1; decide))
  refine ⟨?_, fits_mk (opc := 0x112) (d := 0) (a := a.code) (b := 0) (c := (bits off.toNat 0 10)) (m := (b2n w64 * 32768)) (e := (bits off.toNat 10 14)) hF (by decide) (Nat.zero_lt_succ _) (Opnd.code_lt ho0) (Nat.zero_lt_succ _) (bits_lt ..) (place109 ..) (Nat.lt_trans (bits_lt ..) (by decide)), rfl⟩
  show Instr.lblclr (mkF h 0x112 0 a.code 0 (bits off.toNat 0 10) (b2n w64 * 32768) (bits off.toNat 10 14)).hdr (bitAt ((b2n w64 * 32768)) 15) (Opnd.ofCode (a.code)) (mkF h 0x112 0 a.code 0 (bits off.toNat 0 10) (b2n w64 * 32768) (bits off.toNat 10 14)).off = _
  rw [Instr.lblclr.injEq]
  exact ⟨hdr_mk hF .., place108 .., Opnd.ofCode_code ho0, off_pieces _⟩

theorem qenq h pd a b : Statement (.qenq h pd a b) := by
  intro seq hw
  obtain ⟨_, e, hF, hm, -, ho, hp⟩ := wf_parts hw
  cases e
  have ho0 : a.inRange = true := ho _ (List.getElem_mem (l := Instr.opers (.qenq h pd a b)) (n := 0) (by show 0 < 2; decide))
  have ho1 : b.inRange = true := ho _ (List.getElem_mem (l := Instr.opers (.qenq h pd a b)) (n := 1) (by show 1 < 2; decide))
  replace hm : ((pd < 16 : Bool)) = true := hm
  replace hm := of_decide_eq_true hm
  simp only [Instr.predUses, List.mem_cons, List.not_mem_nil, or_false, forall_eq_or_imp, forall_eq] at hp
  refine ⟨?_, fits_mk (opc := 0x140) (d := pd) (a := a.code) (b := b.code) (c := 0) (m := (0)) (e := (0)) hF (by decide) (by omega) (Opnd.code_lt ho0) (Opnd.code_lt ho1) (Nat.zero_lt_succ _) (Nat.zero_lt_succ _) (Nat.zero_lt_succ _), rfl⟩
  show Instr.qenq (mkF h 0x140 pd a.code b.code 0 (0) (0)).hdr (pd) (Opnd.ofCode (a.code)) (Opnd.ofCode (b.code)) = _
  rw [Instr.qenq.injEq]
  exact ⟨hdr_mk hF .., rfl, Opnd.ofCode_code ho0, Opnd.ofCode_code ho1⟩

theorem qdeq h d a pc : Statement (.qdeq h d a pc) := by
  intro seq hw
  obtain ⟨_, e, hF, hm, -, ho, hp⟩ := wf_parts hw
  cases e
  have ho0 : d.inRange = true := ho _ (List.getElem_mem (l := Instr.opers (.qdeq h d a pc)) (n := 0) (by show 0 < 2; decide))
  have ho1 : a.inRange = true := ho _ (List.getElem_mem (l := Instr.opers (.qdeq h d a pc)) (n := 1) (by show 1 < 2; decide))
  replace hm : ((pc < 16 : Bool)) = true := hm
  replace hm := of_decide_eq_true hm
  simp only [Instr.predUses, List.mem_cons, List.not_mem_nil, or_false, forall_eq_or_imp, forall_eq] at hp
  refine ⟨?_, fits_mk (opc := 0x141) (d := d.code) (a := a.code) (b := 0) (c := pc) (m := (0)) (e := (0)) hF (by decide) (Opnd.code_lt ho0) (Opnd.code_lt ho1) (Nat.zero_lt_succ _) (by omega) (Nat.zero_lt_succ _) (Nat.zero_lt_succ _), rfl⟩
  show Instr.qdeq (mkF h 0x141 d.code a.code 0 pc (0) (0)).hdr (Opnd.ofCode (d.code)) (Opnd.ofCode (a.code)) (pc) = _
  rw [Instr.qdeq.injEq]
  exact ⟨hdr_mk hF .., Opnd.ofCode_code ho0, Opnd.ofCode_code ho1, rfl⟩

theorem qstat h d a : Statement (.qstat h d a) := by
  intro seq hw
  obtain ⟨_, e, hF, hm, -, ho, hp⟩ := wf_parts hw
  cases e
  have ho0 : d.inRange = true := ho _ (List.getElem_mem (l := Instr.opers (.qstat h d a)) (n := 0) (by show 0 < 2; decide))
  have ho1 : a.inRange = true := ho _ (List.getElem_mem (l := Instr.opers (.qstat h d a)) (n := 1) (by show 1 < 2; decide))
  refine ⟨?_, fits_mk (opc := 0x142) (d := d.code) (a := a.code) (b := 0) (c := 0) (m := (0)) (e := (0)) hF (by decide) (Opnd.code_lt ho0) (Opnd.code_lt ho1) (Nat.zero_lt_succ _) (Nat.zero_lt_succ _) (Nat.zero_lt_succ _) (Nat.zero_lt_succ _), rfl⟩
  show Instr.qstat (mkF h 0x142 d.code a.code 0 0 (0) (0)).hdr (Opnd.ofCode (d.code)) (Opnd.ofCode (a.code)) = _
  rw [Instr.qstat.injEq]
  exact ⟨hdr_mk hF .., Opnd.ofCode_code ho0, Opnd.ofCode_code ho1⟩

theorem amsg h pd a b hn : Statement (.amsg h pd a b hn) := by
  intro seq hw
  obtain ⟨_, e, hF, hm, -, ho, hp⟩ := wf_parts hw
  cases e
  have ho0 : a.inRange = true := ho _ (List.getElem_mem (l := Instr.opers (.amsg h pd a b hn)) (n := 0) (by show 0 < 2; decide))
  have ho1 : b.inRange = true := ho _ (List.getElem_mem (l := Instr.opers (.amsg h pd a b hn)) (n := 1) (by show 1 < 2; decide))
  replace hm : ((hn < 256 && pd < 16 : Bool)) = true := hm
  simp only [Bool.and_eq_true, decide_eq_true_eq] at hm
  simp only [Instr.predUses, List.mem_cons, List.not_mem_nil, or_false, forall_eq_or_imp, forall_eq] at hp
  refine ⟨?_, fits_mk (opc := 0x143) (d := pd) (a := a.code) (b := b.code) (c := hn) (m := (0)) (e := (0)) hF (by decide) (by omega) (Opnd.code_lt ho0) (Opnd.code_lt ho1) (by omega) (Nat.zero_lt_succ _) (Nat.zero_lt_succ _), rfl⟩
  show Instr.amsg (mkF h 0x143 pd a.code b.code hn (0) (0)).hdr (pd) (Opnd.ofCode (a.code)) (Opnd.ofCode (b.code)) (hn) = _
  rw [Instr.amsg.injEq]
  exact ⟨hdr_mk hF .., rfl, Opnd.ofCode_code ho0, Opnd.ofCode_code ho1, rfl⟩

theorem amdone h : Statement (.amdone h) := by
  intro seq hw
  obtain ⟨_, e, hF, hm, -, ho, hp⟩ := wf_parts hw
  cases e
  refine ⟨?_, fits_mk (opc := 0x144) (d := 0) (a := 0) (b := 0) (c := 0) (m := (0)) (e := (0)) hF (by decide) (Nat.zero_lt_succ _) (Nat.zero_lt_succ _) (Nat.zero_lt_succ _) (Nat.zero_lt_succ _) (Nat.zero_lt_succ _) (Nat.zero_lt_succ _), rfl⟩
  show Instr.amdone (mkF h 0x144 0 0 0 0 (0) (0)).hdr = _
  rw [Instr.amdone.injEq]
  exact hdr_mk hF ..

theorem cpy h a off : Statement (.cpy h a off) := by
  intro seq hw
  obtain ⟨_, e, hF, hm, -, ho, hp⟩ := wf_parts hw
  cases e
  have ho0 : a.inRange = true := ho _ (List.getElem_mem (l := Instr.opers (.cpy h a off)) (n := 0) (by show 0 < 1; decide))
  refine ⟨?_, fits_mk (opc := 0x160) (d := 0) (a := a.code) (b := 0) (c := (bits off.toNat 0 10)) (m := (0)) (e := (bits off.toNat 10 14)) hF (by decide) (Nat.zero_lt_succ _) (Opnd.code_lt ho0) (Nat.zero_lt_succ _) (bits_lt ..) (Nat.zero_lt_succ _) (Nat.lt_trans (bits_lt ..) (by decide)), rfl⟩
  show Instr.cpy (mkF h 0x160 0 a.code 0 (bits off.toNat 0 10) (0) (bits off.toNat 10 14)).hdr (Opnd.ofCode (a.code)) (mkF h 0x160 0 a.code 0 (bits off.toNat 0 10) (0) (bits off.toNat 10 14)).off = _
  rw [Instr.cpy.injEq]
  exact ⟨hdr_mk hF .., Opnd.ofCode_code ho0, off_pieces _⟩

theorem cpyr h a off : Statement (.cpyr h a off) := by
  intro seq hw
  obtain ⟨_, e, hF, hm, -, ho, hp⟩ := wf_parts hw
  cases e
  have ho0 : a.inRange = true := ho _ (List.getElem_mem (l := Instr.opers (.cpyr h a off)) (n := 0) (by show 0 < 1; decide))
  refine ⟨?_, fits_mk (opc := 0x161) (d := 0) (a := a.code) (b := 0) (c := (bits off.toNat 0 10)) (m := (0)) (e := (bits off.toNat 10 14)) hF (by decide) (Nat.zero_lt_succ _) (Opnd.code_lt ho0) (Nat.zero_lt_succ _) (bits_lt ..) (Nat.zero_lt_succ _) (Nat.lt_trans (bits_lt ..) (by decide)), rfl⟩
  show Instr.cpyr (mkF h 0x161 0 a.code 0 (bits off.toNat 0 10) (0) (bits off.toNat 10 14)).hdr (Opnd.ofCode (a.code)) (mkF h 0x161 0 a.code 0 (bits off.toNat 0 10) (0) (bits off.toNat 10 14)).off = _
  rw [Instr.cpyr.injEq]
  exact ⟨hdr_mk hF .., Opnd.ofCode_code ho0, off_pieces _⟩

theorem boinit h a b off : Statement (.boinit h a b off) := by
  intro seq hw
  obtain ⟨_, e, hF, hm, -, ho, hp⟩ := wf_parts hw
  cases e
  have ho0 : a.inRange = true := ho _ (List.getElem_mem (l := Instr.opers (.boinit h a b off)) (n := 0) (by show 0 < 2; decide))
  have ho1 : b.inRange = true := ho _ (List.getElem_mem (l := Instr.opers (.boinit h a b off)) (n := 1) (by show 1 < 2; decide))
  refine ⟨?_, fits_mk (opc := 0x162) (d := 0) (a := a.code) (b := b.code) (c := (bits off.toNat 0 10)) (m := (0)) (e := (bits off.toNat 10 14)) hF (by decide) (Nat.zero_lt_succ _) (Opnd.code_lt ho0) (Opnd.code_lt ho1) (bits_lt ..) (Nat.zero_lt_succ _) (Nat.lt_trans (bits_lt ..) (by decide)), rfl⟩
  show Instr.boinit (mkF h 0x162 0 a.code b.code (bits off.toNat 0 10) (0) (bits off.toNat 10 14)).hdr (Opnd.ofCode (a.code)) (Opnd.ofCode (b.code)) (mkF h 0x162 0 a.code b.code (bits off.toNat 0 10) (0) (bits off.toNat 10 14)).off = _
  rw [Instr.boinit.injEq]
  exact ⟨hdr_mk hF .., Opnd.ofCode_code ho0, Opnd.ofCode_code ho1, off_pieces _⟩

theorem bowait h pd a b off : Statement (.bowait h pd a b off) := by
  intro seq hw
  obtain ⟨_, e, hF, hm, -, ho, hp⟩ := wf_parts hw
  cases e
  have ho0 : a.inRange = true := ho _ (List.getElem_mem (l := Instr.opers (.bowait h pd a b off)) (n := 0) (by show 0 < 2; decide))
  have ho1 : b.inRange = true := ho _ (List.getElem_mem (l := Instr.opers (.bowait h pd a b off)) (n := 1) (by show 1 < 2; decide))
  replace hm : ((pd < 16 : Bool)) = true := hm
  replace hm := of_decide_eq_true hm
  simp only [Instr.predUses, List.mem_cons, List.not_mem_nil, or_false, forall_eq_or_imp, forall_eq] at hp
  refine ⟨?_, fits_mk (opc := 0x163) (d := pd) (a := a.code) (b := b.code) (c := (bits off.toNat 0 10)) (m := (0)) (e := (bits off.toNat 10 14)) hF (by decide) (by omega) (Opnd.code_lt ho0) (Opnd.code_lt ho1) (bits_lt ..) (Nat.zero_lt_succ _) (Nat.lt_trans (bits_lt ..) (by decide)), rfl⟩
  show Instr.bowait (mkF h 0x163 pd a.code b.code (bits off.toNat 0 10) (0) (bits off.toNat 10 14)).hdr (pd) (Opnd.ofCode (a.code)) (Opnd.ofCode (b.code)) (mkF h 0x163 pd a.code b.code (bits off.toNat 0 10) (0) (bits off.toNat 10 14)).off = _
  rw [Instr.bowait.injEq]
  exact ⟨hdr_mk hF .., rfl, Opnd.ofCode_code ho0, Opnd.ofCode_code ho1, off_pieces _⟩

theorem mjoin h d a b : Statement (.mjoin h d a b) := by
  intro seq hw
  obtain ⟨_, e, hF, hm, -, ho, hp⟩ := wf_parts hw
  cases e
  have ho0 : d.inRange = true := ho _ (List.getElem_mem (l := Instr.opers (.mjoin h d a b)) (n := 0) (by show 0 < 3; decide))
  have ho1 : a.inRange = true := ho _ (List.getElem_mem (l := Instr.opers (.mjoin h d a b)) (n := 1) (by show 1 < 3; decide))
  have ho2 : b.inRange = true := ho _ (List.getElem_mem (l := Instr.opers (.mjoin h d a b)) (n := 2) (by show 2 < 3; decide))
  refine ⟨?_, fits_mk (opc := 0x164) (d := d.code) (a := a.code) (b := b.code) (c := 0) (m := (0)) (e := (0)) hF (by decide) (Opnd.code_lt ho0) (Opnd.code_lt ho1) (Opnd.code_lt ho2) (Nat.zero_lt_succ _) (Nat.zero_lt_succ _) (Nat.zero_lt_succ _), rfl⟩
  show Instr.mjoin (mkF h 0x164 d.code a.code b.code 0 (0) (0)).hdr (Opnd.ofCode (d.code)) (Opnd.ofCode (a.code)) (Opnd.ofCode (b.code)) = _
  rw [Instr.mjoin.injEq]
  exact ⟨hdr_mk hF .., Opnd.ofCode_code ho0, Opnd.ofCode_code ho1, Opnd.ofCode_code ho2⟩

theorem mcont h d a b c : Statement (.mcont h d a b c) := by
  intro seq hw
  obtain ⟨_, e, hF, hm, -, ho, hp⟩ := wf_parts hw
  cases e
  have ho0 : d.inRange = true := ho _ (List.getElem_mem (l := Instr.opers (.mcont h d a b c)) (n := 0) (by show 0 < 4; decide))
  have ho1 : a.inRange = true := ho _ (List.getElem_mem (l := Instr.opers (.mcont h d a b c)) (n := 1) (by show 1 < 4; decide))
  have ho2 : b.inRange = true := ho _ (List.getElem_mem (l := Instr.opers (.mcont h d a b c)) (n := 2) (by show 2 < 4; decide))
  have ho3 : c.inRange = true := ho _ (List.getElem_mem (l := Instr.opers (.mcont h d a b c)) (n := 3) (by show 3 < 4; decide))
  refine ⟨?_, fits_mk (opc := 0x165) (d := d.code) (a := a.code) (b := b.code) (c := c.code) (m := (0)) (e := (0)) hF (by decide) (Opnd.code_lt ho0) (Opnd.code_lt ho1) (Opnd.code_lt ho2) (Opnd.code_lt ho3) (Nat.zero_lt_succ _) (Nat.zero_lt_succ _), rfl⟩
  show Instr.mcont (mkF h 0x165 d.code a.code b.code c.code (0) (0)).hdr (Opnd.ofCode (d.code)) (Opnd.ofCode (a.code)) (Opnd.ofCode (b.code)) (Opnd.ofCode (c.code)) = _
  rw [Instr.mcont.injEq]
  exact ⟨hdr_mk hF .., Opnd.ofCode_code ho0, Opnd.ofCode_code ho1, Opnd.ofCode_code ho2, Opnd.ofCode_code ho3⟩

theorem mrslt h d a b c : Statement (.mrslt h d a b c) := by
  intro seq hw
  obtain ⟨_, e, hF, hm, -, ho, hp⟩ := wf_parts hw
  cases e
  have ho0 : d.inRange = true := ho _ (List.getElem_mem (l := Instr.opers (.mrslt h d a b c)) (n := 0) (by show 0 < 4; decide))
  have ho1 : a.inRange = true := ho _ (List.getElem_mem (l := Instr.opers (.mrslt h d a b c)) (n := 1) (by show 1 < 4; decide))
  have ho2 : b.inRange = true := ho _ (List.getElem_mem (l := Instr.opers (.mrslt h d a b c)) (n := 2) (by show 2 < 4; decide))
  have ho3 : c.inRange = true := ho _ (List.getElem_mem (l := Instr.opers (.mrslt h d a b c)) (n := 3) (by show 3 < 4; decide))
  refine ⟨?_, fits_mk (opc := 0x166) (d := d.code) (a := a.code) (b := b.code) (c := c.code) (m := (0)) (e := (0)) hF (by decide) (Opnd.code_lt ho0) (Opnd.code_lt ho1) (Opnd.code_lt ho2) (Opnd.code_lt ho3) (Nat.zero_lt_succ _) (Nat.zero_lt_succ _), rfl⟩
  show Instr.mrslt (mkF h 0x166 d.code a.code b.code c.code (0) (0)).hdr (Opnd.ofCode (d.code)) (Opnd.ofCode (a.code)) (Opnd.ofCode (b.code)) (Opnd.ofCode (c.code)) = _
  rw [Instr.mrslt.injEq]
  exact ⟨hdr_mk hF .., Opnd.ofCode_code ho0, Opnd.ofCode_code ho1, Opnd.ofCode_code ho2, Opnd.ofCode_code ho3⟩

theorem mleave h d a b : Statement (.mleave h d a b) := by
  intro seq hw
  obtain ⟨_, e, hF, hm, -, ho, hp⟩ := wf_parts hw
  cases e
  have ho0 : d.inRange = true := ho _ (List.getElem_mem (l := Instr.opers (.mleave h d a b)) (n := 0) (by show 0 < 3; decide))
  have ho1 : a.inRange = true := ho _ (List.getElem_mem (l := Instr.opers (.mleave h d a b)) (n := 1) (by show 1 < 3; decide))
  have ho2 : b.inRange = true := ho _ (List.getElem_mem (l := Instr.opers (.mleave h d a b)) (n := 2) (by show 2 < 3; decide))
  refine ⟨?_, fits_mk (opc := 0x167) (d := d.code) (a := a.code) (b := b.code) (c := 0) (m := (0)) (e := (0)) hF (by decide) (Opnd.code_lt ho0) (Opnd.code_lt ho1) (Opnd.code_lt ho2) (Nat.zero_lt_succ _) (Nat.zero_lt_succ _) (Nat.zero_lt_succ _), rfl⟩
  show Instr.mleave (mkF h 0x167 d.code a.code b.code 0 (0) (0)).hdr (Opnd.ofCode (d.code)) (Opnd.ofCode (a.code)) (Opnd.ofCode (b.code)) = _
  rw [Instr.mleave.injEq]
  exact ⟨hdr_mk hF .., Opnd.ofCode_code ho0, Opnd.ofCode_code ho1, Opnd.ofCode_code ho2⟩

theorem mstat h d a b : Statement (.mstat h d a b) := by
  intro seq hw
  obtain ⟨_, e, hF, hm, -, ho, hp⟩ := wf_parts hw
  cases e
  have ho0 : d.inRange = true := ho _ (List.getElem_mem (l := Instr.opers (.mstat h d a b)) (n := 0) (by show 0 < 3; decide))
  have ho1 : a.inRange = true := ho _ (List.getElem_mem (l := Instr.opers (.mstat h d a b)) (n := 1) (by show 1 < 3; decide))
  have ho2 : b.inRange = true := ho _ (List.getElem_mem (l := Instr.opers (.mstat h d a b)) (n := 2) (by show 2 < 3; decide))
  refine ⟨?_, fits_mk (opc := 0x168) (d := d.code) (a := a.code) (b := b.code) (c := 0) (m := (0)) (e := (0)) hF (by decide) (Opnd.code_lt ho0) (Opnd.code_lt ho1) (Opnd.code_lt ho2) (Nat.zero_lt_succ _) (Nat.zero_lt_succ _) (Nat.zero_lt_succ _), rfl⟩
  show Instr.mstat (mkF h 0x168 d.code a.code b.code 0 (0) (0)).hdr (Opnd.ofCode (d.code)) (Opnd.ofCode (a.code)) (Opnd.ofCode (b.code)) = _
  rw [Instr.mstat.injEq]
  exact ⟨hdr_mk hF .., Opnd.ofCode_code ho0, Opnd.ofCode_code ho1, Opnd.ofCode_code ho2⟩

theorem topen h t : Statement (.topen h t) := by
  intro seq hw
  obtain ⟨_, e, hF, hm, -, ho, hp⟩ := wf_parts hw
  cases e
  replace hm : ((t < 56 : Bool)) = true := hm
  replace hm := of_decide_eq_true hm
  refine ⟨?_, fits_mk (opc := 0x180) (d := t) (a := 0) (b := 0) (c := 0) (m := (0)) (e := (0)) hF (by decide) (by omega) (Nat.zero_lt_succ _) (Nat.zero_lt_succ _) (Nat.zero_lt_succ _) (Nat.zero_lt_succ _) (Nat.zero_lt_succ _), rfl⟩
  show Instr.topen (mkF h 0x180 t 0 0 0 (0) (0)).hdr (t) = _
  rw [Instr.topen.injEq]
  exact ⟨hdr_mk hF .., rfl⟩

theorem twr h t a b : Statement (.twr h t a b) := by
  intro seq hw
  obtain ⟨_, e, hF, hm, -, ho, hp⟩ := wf_parts hw
  cases e
  have ho0 : a.inRange = true := ho _ (List.getElem_mem (l := Instr.opers (.twr h t a b)) (n := 0) (by show 0 < 2; decide))
  have ho1 : b.inRange = true := ho _ (List.getElem_mem (l := Instr.opers (.twr h t a b)) (n := 1) (by show 1 < 2; decide))
  replace hm : ((t < 56 : Bool)) = true := hm
  replace hm := of_decide_eq_true hm
  refine ⟨?_, fits_mk (opc := 0x181) (d := t) (a := a.code) (b := b.code) (c := 0) (m := (0)) (e := (0)) hF (by decide) (by omega) (Opnd.code_lt ho0) (Opnd.code_lt ho1) (Nat.zero_lt_succ _) (Nat.zero_lt_succ _) (Nat.zero_lt_succ _), rfl⟩
  show Instr.twr (mkF h 0x181 t a.code b.code 0 (0) (0)).hdr (t) (Opnd.ofCode (a.code)) (Opnd.ofCode (b.code)) = _
  rw [Instr.twr.injEq]
  exact ⟨hdr_mk hF .., rfl, Opnd.ofCode_code ho0, Opnd.ofCode_code ho1⟩

theorem tseal h t : Statement (.tseal h t) := by
  intro seq hw
  obtain ⟨_, e, hF, hm, -, ho, hp⟩ := wf_parts hw
  cases e
  replace hm : ((t < 56 : Bool)) = true := hm
  replace hm := of_decide_eq_true hm
  refine ⟨?_, fits_mk (opc := 0x182) (d := t) (a := 0) (b := 0) (c := 0) (m := (0)) (e := (0)) hF (by decide) (by omega) (Nat.zero_lt_succ _) (Nat.zero_lt_succ _) (Nat.zero_lt_succ _) (Nat.zero_lt_succ _) (Nat.zero_lt_succ _), rfl⟩
  show Instr.tseal (mkF h 0x182 t 0 0 0 (0) (0)).hdr (t) = _
  rw [Instr.tseal.injEq]
  exact ⟨hdr_mk hF .., rfl⟩

theorem tdrain h t : Statement (.tdrain h t) := by
  intro seq hw
  obtain ⟨_, e, hF, hm, -, ho, hp⟩ := wf_parts hw
  cases e
  replace hm : ((t < 56 : Bool)) = true := hm
  replace hm := of_decide_eq_true hm
  refine ⟨?_, fits_mk (opc := 0x183) (d := t) (a := 0) (b := 0) (c := 0) (m := (0)) (e := (0)) hF (by decide) (by omega) (Nat.zero_lt_succ _) (Nat.zero_lt_succ _) (Nat.zero_lt_succ _) (Nat.zero_lt_succ _) (Nat.zero_lt_succ _), rfl⟩
  show Instr.tdrain (mkF h 0x183 t 0 0 0 (0) (0)).hdr (t) = _
  rw [Instr.tdrain.injEq]
  exact ⟨hdr_mk hF .., rfl⟩

theorem trd h d t b : Statement (.trd h d t b) := by
  intro seq hw
  obtain ⟨_, e, hF, hm, -, ho, hp⟩ := wf_parts hw
  cases e
  have ho0 : d.inRange = true := ho _ (List.getElem_mem (l := Instr.opers (.trd h d t b)) (n := 0) (by show 0 < 2; decide))
  have ho1 : b.inRange = true := ho _ (List.getElem_mem (l := Instr.opers (.trd h d t b)) (n := 1) (by show 1 < 2; decide))
  replace hm : ((t < 56 : Bool)) = true := hm
  replace hm := of_decide_eq_true hm
  refine ⟨?_, fits_mk (opc := 0x184) (d := d.code) (a := t) (b := b.code) (c := 0) (m := (0)) (e := (0)) hF (by decide) (Opnd.code_lt ho0) (by omega) (Opnd.code_lt ho1) (Nat.zero_lt_succ _) (Nat.zero_lt_succ _) (Nat.zero_lt_succ _), rfl⟩
  show Instr.trd (mkF h 0x184 d.code t b.code 0 (0) (0)).hdr (Opnd.ofCode (d.code)) (t) (Opnd.ofCode (b.code)) = _
  rw [Instr.trd.injEq]
  exact ⟨hdr_mk hF .., Opnd.ofCode_code ho0, rfl, Opnd.ofCode_code ho1⟩

theorem tfree h t : Statement (.tfree h t) := by
  intro seq hw
  obtain ⟨_, e, hF, hm, -, ho, hp⟩ := wf_parts hw
  cases e
  replace hm : ((t < 56 : Bool)) = true := hm
  replace hm := of_decide_eq_true hm
  refine ⟨?_, fits_mk (opc := 0x185) (d := t) (a := 0) (b := 0) (c := 0) (m := (0)) (e := (0)) hF (by decide) (by omega) (Nat.zero_lt_succ _) (Nat.zero_lt_succ _) (Nat.zero_lt_succ _) (Nat.zero_lt_succ _) (Nat.zero_lt_succ _), rfl⟩
  show Instr.tfree (mkF h 0x185 t 0 0 0 (0) (0)).hdr (t) = _
  rw [Instr.tfree.injEq]
  exact ⟨hdr_mk hF .., rfl⟩

theorem tstat h d t team : Statement (.tstat h d t team) := by
  intro seq hw
  obtain ⟨_, e, hF, hm, -, ho, hp⟩ := wf_parts hw
  cases e
  have ho0 : d.inRange = true := ho _ (List.getElem_mem (l := Instr.opers (.tstat h d t team)) (n := 0) (by show 0 < 1; decide))
  replace hm : ((t < 56 && team < 1024 : Bool)) = true := hm
  simp only [Bool.and_eq_true, decide_eq_true_eq] at hm
  refine ⟨?_, fits_mk (opc := 0x186) (d := d.code) (a := t) (b := team) (c := 0) (m := (0)) (e := (0)) hF (by decide) (Opnd.code_lt ho0) (by omega) (by omega) (Nat.zero_lt_succ _) (Nat.zero_lt_succ _) (Nat.zero_lt_succ _), rfl⟩
  show Instr.tstat (mkF h 0x186 d.code t team 0 (0) (0)).hdr (Opnd.ofCode (d.code)) (t) (team) = _
  rw [Instr.tstat.injEq]
  exact ⟨hdr_mk hF .., Opnd.ofCode_code ho0, rfl, rfl⟩

theorem mmab16 h core tc ta tb : Statement (.mmab16 h core tc ta tb) := by
  intro seq hw
  obtain ⟨_, e, hF, hm, -, ho, hp⟩ := wf_parts hw
  cases e
  replace hm : ((tc < 56 && ta < 56 && tb < 56 : Bool)) = true := hm
  simp only [Bool.and_eq_true, decide_eq_true_eq] at hm
  refine ⟨?_, fits_mk (opc := 0x190) (d := tc) (a := ta) (b := tb) (c := 0) (m := (core.code)) (e := (0)) hF (by decide) (by omega) (by omega) (by omega) (Nat.zero_lt_succ _) (place120 ..) (Nat.zero_lt_succ _), rfl⟩
  show Instr.mmab16 (mkF h 0x190 tc ta tb 0 (core.code) (0)).hdr (CoreSel.ofCode (bits ((core.code)) 0 3)) (tc) (ta) (tb) = _
  rw [Instr.mmab16.injEq]
  exact ⟨hdr_mk hF .., place119 .., rfl, rfl, rfl⟩

theorem mmah16 h core tc ta tb : Statement (.mmah16 h core tc ta tb) := by
  intro seq hw
  obtain ⟨_, e, hF, hm, -, ho, hp⟩ := wf_parts hw
  cases e
  replace hm : ((tc < 56 && ta < 56 && tb < 56 : Bool)) = true := hm
  simp only [Bool.and_eq_true, decide_eq_true_eq] at hm
  refine ⟨?_, fits_mk (opc := 0x191) (d := tc) (a := ta) (b := tb) (c := 0) (m := (core.code)) (e := (0)) hF (by decide) (by omega) (by omega) (by omega) (Nat.zero_lt_succ _) (place120 ..) (Nat.zero_lt_succ _), rfl⟩
  show Instr.mmah16 (mkF h 0x191 tc ta tb 0 (core.code) (0)).hdr (CoreSel.ofCode (bits ((core.code)) 0 3)) (tc) (ta) (tb) = _
  rw [Instr.mmah16.injEq]
  exact ⟨hdr_mk hF .., place119 .., rfl, rfl, rfl⟩

theorem mmaf8a h core tc ta tb : Statement (.mmaf8a h core tc ta tb) := by
  intro seq hw
  obtain ⟨_, e, hF, hm, -, ho, hp⟩ := wf_parts hw
  cases e
  replace hm : ((tc < 56 && ta < 56 && tb < 56 : Bool)) = true := hm
  simp only [Bool.and_eq_true, decide_eq_true_eq] at hm
  refine ⟨?_, fits_mk (opc := 0x192) (d := tc) (a := ta) (b := tb) (c := 0) (m := (core.code)) (e := (0)) hF (by decide) (by omega) (by omega) (by omega) (Nat.zero_lt_succ _) (place120 ..) (Nat.zero_lt_succ _), rfl⟩
  show Instr.mmaf8a (mkF h 0x192 tc ta tb 0 (core.code) (0)).hdr (CoreSel.ofCode (bits ((core.code)) 0 3)) (tc) (ta) (tb) = _
  rw [Instr.mmaf8a.injEq]
  exact ⟨hdr_mk hF .., place119 .., rfl, rfl, rfl⟩

theorem mmaf8b h core tc ta tb : Statement (.mmaf8b h core tc ta tb) := by
  intro seq hw
  obtain ⟨_, e, hF, hm, -, ho, hp⟩ := wf_parts hw
  cases e
  replace hm : ((tc < 56 && ta < 56 && tb < 56 : Bool)) = true := hm
  simp only [Bool.and_eq_true, decide_eq_true_eq] at hm
  refine ⟨?_, fits_mk (opc := 0x193) (d := tc) (a := ta) (b := tb) (c := 0) (m := (core.code)) (e := (0)) hF (by decide) (by omega) (by omega) (by omega) (Nat.zero_lt_succ _) (place120 ..) (Nat.zero_lt_succ _), rfl⟩
  show Instr.mmaf8b (mkF h 0x193 tc ta tb 0 (core.code) (0)).hdr (CoreSel.ofCode (bits ((core.code)) 0 3)) (tc) (ta) (tb) = _
  rw [Instr.mmaf8b.injEq]
  exact ⟨hdr_mk hF .., place119 .., rfl, rfl, rfl⟩

theorem mmaf6a h core tc ta tb : Statement (.mmaf6a h core tc ta tb) := by
  intro seq hw
  obtain ⟨_, e, hF, hm, -, ho, hp⟩ := wf_parts hw
  cases e
  replace hm : ((tc < 56 && ta < 56 && tb < 56 : Bool)) = true := hm
  simp only [Bool.and_eq_true, decide_eq_true_eq] at hm
  refine ⟨?_, fits_mk (opc := 0x194) (d := tc) (a := ta) (b := tb) (c := 0) (m := (core.code)) (e := (0)) hF (by decide) (by omega) (by omega) (by omega) (Nat.zero_lt_succ _) (place120 ..) (Nat.zero_lt_succ _), rfl⟩
  show Instr.mmaf6a (mkF h 0x194 tc ta tb 0 (core.code) (0)).hdr (CoreSel.ofCode (bits ((core.code)) 0 3)) (tc) (ta) (tb) = _
  rw [Instr.mmaf6a.injEq]
  exact ⟨hdr_mk hF .., place119 .., rfl, rfl, rfl⟩

theorem mmaf6b h core tc ta tb : Statement (.mmaf6b h core tc ta tb) := by
  intro seq hw
  obtain ⟨_, e, hF, hm, -, ho, hp⟩ := wf_parts hw
  cases e
  replace hm : ((tc < 56 && ta < 56 && tb < 56 : Bool)) = true := hm
  simp only [Bool.and_eq_true, decide_eq_true_eq] at hm
  refine ⟨?_, fits_mk (opc := 0x195) (d := tc) (a := ta) (b := tb) (c := 0) (m := (core.code)) (e := (0)) hF (by decide) (by omega) (by omega) (by omega) (Nat.zero_lt_succ _) (place120 ..) (Nat.zero_lt_succ _), rfl⟩
  show Instr.mmaf6b (mkF h 0x195 tc ta tb 0 (core.code) (0)).hdr (CoreSel.ofCode (bits ((core.code)) 0 3)) (tc) (ta) (tb) = _
  rw [Instr.mmaf6b.injEq]
  exact ⟨hdr_mk hF .., place119 .., rfl, rfl, rfl⟩

theorem mmaf4 h core tc ta tb : Statement (.mmaf4 h core tc ta tb) := by
  intro seq hw
  obtain ⟨_, e, hF, hm, -, ho, hp⟩ := wf_parts hw
  cases e
  replace hm : ((tc < 56 && ta < 56 && tb < 56 : Bool)) = true := hm
  simp only [Bool.and_eq_true, decide_eq_true_eq] at hm
  refine ⟨?_, fits_mk (opc := 0x196) (d := tc) (a := ta) (b := tb) (c := 0) (m := (core.code)) (e := (0)) hF (by decide) (by omega) (by omega) (by omega) (Nat.zero_lt_succ _) (place120 ..) (Nat.zero_lt_succ _), rfl⟩
  show Instr.mmaf4 (mkF h 0x196 tc ta tb 0 (core.code) (0)).hdr (CoreSel.ofCode (bits ((core.code)) 0 3)) (tc) (ta) (tb) = _
  rw [Instr.mmaf4.injEq]
  exact ⟨hdr_mk hF .., place119 .., rfl, rfl, rfl⟩

theorem mmai8 h core tc ta tb : Statement (.mmai8 h core tc ta tb) := by
  intro seq hw
  obtain ⟨_, e, hF, hm, -, ho, hp⟩ := wf_parts hw
  cases e
  replace hm : ((tc < 56 && ta < 56 && tb < 56 : Bool)) = true := hm
  simp only [Bool.and_eq_true, decide_eq_true_eq] at hm
  refine ⟨?_, fits_mk (opc := 0x197) (d := tc) (a := ta) (b := tb) (c := 0) (m := (core.code)) (e := (0)) hF (by decide) (by omega) (by omega) (by omega) (Nat.zero_lt_succ _) (place120 ..) (Nat.zero_lt_succ _), rfl⟩
  show Instr.mmai8 (mkF h 0x197 tc ta tb 0 (core.code) (0)).hdr (CoreSel.ofCode (bits ((core.code)) 0 3)) (tc) (ta) (tb) = _
  rw [Instr.mmai8.injEq]
  exact ⟨hdr_mk hF .., place119 .., rfl, rfl, rfl⟩

theorem mmaf32 h core tc ta tb : Statement (.mmaf32 h core tc ta tb) := by
  intro seq hw
  obtain ⟨_, e, hF, hm, -, ho, hp⟩ := wf_parts hw
  cases e
  replace hm : ((tc < 56 && ta < 56 && tb < 56 : Bool)) = true := hm
  simp only [Bool.and_eq_true, decide_eq_true_eq] at hm
  refine ⟨?_, fits_mk (opc := 0x198) (d := tc) (a := ta) (b := tb) (c := 0) (m := (core.code)) (e := (0)) hF (by decide) (by omega) (by omega) (by omega) (Nat.zero_lt_succ _) (place120 ..) (Nat.zero_lt_succ _), rfl⟩
  show Instr.mmaf32 (mkF h 0x198 tc ta tb 0 (core.code) (0)).hdr (CoreSel.ofCode (bits ((core.code)) 0 3)) (tc) (ta) (tb) = _
  rw [Instr.mmaf32.injEq]
  exact ⟨hdr_mk hF .., place119 .., rfl, rfl, rfl⟩

theorem mmad64 h core tc ta tb : Statement (.mmad64 h core tc ta tb) := by
  intro seq hw
  obtain ⟨_, e, hF, hm, -, ho, hp⟩ := wf_parts hw
  cases e
  replace hm : ((tc < 56 && ta < 56 && tb < 56 : Bool)) = true := hm
  simp only [Bool.and_eq_true, decide_eq_true_eq] at hm
  refine ⟨?_, fits_mk (opc := 0x199) (d := tc) (a := ta) (b := tb) (c := 0) (m := (core.code)) (e := (0)) hF (by decide) (by omega) (by omega) (by omega) (Nat.zero_lt_succ _) (place120 ..) (Nat.zero_lt_succ _), rfl⟩
  show Instr.mmad64 (mkF h 0x199 tc ta tb 0 (core.code) (0)).hdr (CoreSel.ofCode (bits ((core.code)) 0 3)) (tc) (ta) (tb) = _
  rw [Instr.mmad64.injEq]
  exact ⟨hdr_mk hF .., place119 .., rfl, rfl, rfl⟩

theorem lutbld h core td ta : Statement (.lutbld h core td ta) := by
  intro seq hw
  obtain ⟨_, e, hF, hm, -, ho, hp⟩ := wf_parts hw
  cases e
  replace hm : ((td < 56 && ta < 56 : Bool)) = true := hm
  simp only [Bool.and_eq_true, decide_eq_true_eq] at hm
  refine ⟨?_, fits_mk (opc := 0x19A) (d := td) (a := ta) (b := 0) (c := 0) (m := (core.code)) (e := (0)) hF (by decide) (by omega) (by omega) (Nat.zero_lt_succ _) (Nat.zero_lt_succ _) (place120 ..) (Nat.zero_lt_succ _), rfl⟩
  show Instr.lutbld (mkF h 0x19A td ta 0 0 (core.code) (0)).hdr (CoreSel.ofCode (bits ((core.code)) 0 3)) (td) (ta) = _
  rw [Instr.lutbld.injEq]
  exact ⟨hdr_mk hF .., place119 .., rfl, rfl⟩

theorem lutmm h wb core tc ta tb : Statement (.lutmm h wb core tc ta tb) := by
  intro seq hw
  obtain ⟨_, e, hF, hm, -, ho, hp⟩ := wf_parts hw
  cases e
  replace hm : ((tc < 56 && ta < 56 && tb < 56 && wb < 4 : Bool)) = true := hm
  simp only [Bool.and_eq_true, decide_eq_true_eq] at hm
  have := CoreSel.code_lt core
  have e_core : (CoreSel.ofCode (bits ((wb * 8 + core.code)) 0 3)) = core := by rw [bits_of (x := core.code) (by omega), CoreSel.ofCode_code]
  refine ⟨?_, fits_mk (opc := 0x19B) (d := tc) (a := ta) (b := tb) (c := 0) (m := (wb * 8 + core.code)) (e := (0)) hF (by decide) (by omega) (by omega) (by omega) (Nat.zero_lt_succ _) (by omega) (Nat.zero_lt_succ _), rfl⟩
  show Instr.lutmm (mkF h 0x19B tc ta tb 0 (wb * 8 + core.code) (0)).hdr (bits ((wb * 8 + core.code)) 3 2) (CoreSel.ofCode (bits ((wb * 8 + core.code)) 0 3)) (tc) (ta) (tb) = _
  rw [Instr.lutmm.injEq]
  exact ⟨hdr_mk hF .., bits_of (by omega), e_core, rfl, rfl, rfl⟩

theorem czero h core tc : Statement (.czero h core tc) := by
  intro seq hw
  obtain ⟨_, e, hF, hm, -, ho, hp⟩ := wf_parts hw
  cases e
  replace hm : ((tc < 56 : Bool)) = true := hm
  replace hm := of_decide_eq_true hm
  refine ⟨?_, fits_mk (opc := 0x19C) (d := tc) (a := 0) (b := 0) (c := 0) (m := (core.code)) (e := (0)) hF (by decide) (by omega) (Nat.zero_lt_succ _) (Nat.zero_lt_succ _) (Nat.zero_lt_succ _) (place120 ..) (Nat.zero_lt_succ _), rfl⟩
  show Instr.czero (mkF h 0x19C tc 0 0 0 (core.code) (0)).hdr (CoreSel.ofCode (bits ((core.code)) 0 3)) (tc) = _
  rw [Instr.czero.injEq]
  exact ⟨hdr_mk hF .., place119 .., rfl⟩

theorem ccvt h sat dty core td tc cst : Statement (.ccvt h sat dty core td tc cst) := by
  intro seq hw
  obtain ⟨_, e, hF, hm, -, ho, hp⟩ := wf_parts hw
  cases e
  replace hm : ((td < 56 && tc < 56 && ccvtOk cst dty sat : Bool)) = true := hm
  simp only [Bool.and_eq_true, decide_eq_true_eq] at hm
  refine ⟨?_, fits_mk (opc := 0x19D) (d := td) (a := tc) (b := 0) (c := 0) (m := (b2n sat * 1024 + dty.code * 32 + core.code)) (e := (cst.code)) hF (by decide) (by omega) (by omega) (Nat.zero_lt_succ _) (Nat.zero_lt_succ _) (place125 ..) (place126 ..), rfl⟩
  show Instr.ccvt (mkF h 0x19D td tc 0 0 (b2n sat * 1024 + dty.code * 32 + core.code) (cst.code)).hdr (bitAt ((b2n sat * 1024 + dty.code * 32 + core.code)) 10) (Ty.ofCode (bits ((b2n sat * 1024 + dty.code * 32 + core.code)) 5 5)) (CoreSel.ofCode (bits ((b2n sat * 1024 + dty.code * 32 + core.code)) 0 3)) (td) (tc) (CSrc.ofCode (bits ((cst.code)) 0 2)) = _
  rw [Instr.ccvt.injEq]
  exact ⟨hdr_mk hF .., place121 .., place122 .., place123 .., rfl, rfl, place124 ..⟩

theorem tscl h off t sel : Statement (.tscl h off t sel) := by
  intro seq hw
  obtain ⟨_, e, hF, hm, -, ho, hp⟩ := wf_parts hw
  cases e
  replace hm : (((t < 56 && sel ≤ 4 && (!off || t == 0)) : Bool)) = true := hm
  simp only [Bool.and_eq_true, decide_eq_true_eq] at hm
  refine ⟨?_, fits_mk (opc := 0x19E) (d := t) (a := 0) (b := sel) (c := 0) (m := (0)) (e := (b2n off * 1)) hF (by decide) (by omega) (Nat.zero_lt_succ _) (by omega) (Nat.zero_lt_succ _) (Nat.zero_lt_succ _) (place128 ..), rfl⟩
  show Instr.tscl (mkF h 0x19E t 0 sel 0 (0) (b2n off * 1)).hdr (bitAt ((b2n off * 1)) 0) (t) (sel) = _
  rw [Instr.tscl.injEq]
  exact ⟨hdr_mk hF .., place127 .., rfl, rfl⟩

theorem tperm h off t sel : Statement (.tperm h off t sel) := by
  intro seq hw
  obtain ⟨_, e, hF, hm, -, ho, hp⟩ := wf_parts hw
  cases e
  replace hm : (((t < 56 && sel ≤ 4 && (!off || t == 0)) : Bool)) = true := hm
  simp only [Bool.and_eq_true, decide_eq_true_eq] at hm
  refine ⟨?_, fits_mk (opc := 0x19F) (d := t) (a := 0) (b := sel) (c := 0) (m := (0)) (e := (b2n off * 1)) hF (by decide) (by omega) (Nat.zero_lt_succ _) (by omega) (Nat.zero_lt_succ _) (Nat.zero_lt_succ _) (place128 ..), rfl⟩
  show Instr.tperm (mkF h 0x19F t 0 sel 0 (0) (b2n off * 1)).hdr (bitAt ((b2n off * 1)) 0) (t) (sel) = _
  rw [Instr.tperm.injEq]
  exact ⟨hdr_mk hF .., place127 .., rfl, rfl⟩

theorem twait h t s sel : Statement (.twait h t s sel) := by
  intro seq hw
  obtain ⟨_, e, hF, hm, -, ho, hp⟩ := wf_parts hw
  cases e
  replace hm : ((t < 56 && s < 4 && sel ≤ 4 : Bool)) = true := hm
  simp only [Bool.and_eq_true, decide_eq_true_eq] at hm
  refine ⟨?_, fits_mk (opc := 0x1A0) (d := t) (a := s) (b := sel) (c := 0) (m := (0)) (e := (0)) hF (by decide) (by omega) (by omega) (by omega) (Nat.zero_lt_succ _) (Nat.zero_lt_succ _) (Nat.zero_lt_succ _), rfl⟩
  show Instr.twait (mkF h 0x1A0 t s sel 0 (0) (0)).hdr (t) (s) (sel) = _
  rw [Instr.twait.injEq]
  exact ⟨hdr_mk hF .., rfl, rfl, rfl⟩

theorem sqsig h n a : Statement (.sqsig h n a) := by
  intro seq hw
  obtain ⟨_, e, hF, hm, -, ho, hp⟩ := wf_parts hw
  cases e
  have ho0 : a.inRange = true := ho _ (List.getElem_mem (l := Instr.opers (.sqsig h n a)) (n := 0) (by show 0 < 1; decide))
  replace hm : ((n < 8 : Bool)) = true := hm
  replace hm := of_decide_eq_true hm
  refine ⟨?_, fits_mk (opc := 0x1A1) (d := n) (a := a.code) (b := 0) (c := 0) (m := (0)) (e := (0)) hF (by decide) (by omega) (Opnd.code_lt ho0) (Nat.zero_lt_succ _) (Nat.zero_lt_succ _) (Nat.zero_lt_succ _) (Nat.zero_lt_succ _), rfl⟩
  show Instr.sqsig (mkF h 0x1A1 n a.code 0 0 (0) (0)).hdr (n) (Opnd.ofCode (a.code)) = _
  rw [Instr.sqsig.injEq]
  exact ⟨hdr_mk hF .., rfl, Opnd.ofCode_code ho0⟩

theorem sqwait h n a cap : Statement (.sqwait h n a cap) := by
  intro seq hw
  obtain ⟨_, e, hF, hm, -, ho, hp⟩ := wf_parts hw
  cases e
  have ho0 : a.inRange = true := ho _ (List.getElem_mem (l := Instr.opers (.sqwait h n a cap)) (n := 0) (by show 0 < 1; decide))
  replace hm : ((n < 8 && (cap.all (· < 64)) : Bool)) = true := hm
  simp only [Bool.and_eq_true, decide_eq_true_eq] at hm
  have hcap : capCode cap < 1024 := by
    cases cap with
    | none => decide
    | some n => simp at hm; show 64 + n < 1024; omega
  refine ⟨?_, fits_mk (opc := 0x1A2) (d := n) (a := a.code) (b := 0) (c := (capCode cap)) (m := (0)) (e := (0)) hF (by decide) (by omega) (Opnd.code_lt ho0) (Nat.zero_lt_succ _) (by omega) (Nat.zero_lt_succ _) (Nat.zero_lt_succ _), rfl⟩
  show Instr.sqwait (mkF h 0x1A2 n a.code 0 (capCode cap) (0) (0)).hdr (n) (Opnd.ofCode (a.code)) (capOf ((capCode cap))) = _
  rw [Instr.sqwait.injEq]
  exact ⟨hdr_mk hF .., rfl, Opnd.ofCode_code ho0, capOf_capCode _⟩

theorem gcall h k g : Statement (.gcall h k g) := by
  intro seq hw
  obtain ⟨_, e, hF, hm, -, ho, hp⟩ := wf_parts hw
  cases e
  replace hm : ((k < 384 && g < 4096 : Bool)) = true := hm
  simp only [Bool.and_eq_true, decide_eq_true_eq] at hm
  refine ⟨?_, fits_mk (opc := 0x1B0) (d := k) (a := 0) (b := 0) (c := 0) (m := (0)) (e := (g * 1)) hF (by decide) (by omega) (Nat.zero_lt_succ _) (Nat.zero_lt_succ _) (Nat.zero_lt_succ _) (Nat.zero_lt_succ _) (by omega), rfl⟩
  show Instr.gcall (mkF h 0x1B0 k 0 0 0 (0) (g * 1)).hdr (k) (bits ((g * 1)) 0 12) = _
  rw [Instr.gcall.injEq]
  exact ⟨hdr_mk hF .., rfl, bits_of (by omega)⟩

theorem gret h : Statement (.gret h) := by
  intro seq hw
  obtain ⟨_, e, hF, hm, -, ho, hp⟩ := wf_parts hw
  cases e
  refine ⟨?_, fits_mk (opc := 0x1B1) (d := 0) (a := 0) (b := 0) (c := 0) (m := (0)) (e := (0)) hF (by decide) (Nat.zero_lt_succ _) (Nat.zero_lt_succ _) (Nat.zero_lt_succ _) (Nat.zero_lt_succ _) (Nat.zero_lt_succ _) (Nat.zero_lt_succ _), rfl⟩
  show Instr.gret (mkF h 0x1B1 0 0 0 0 (0) (0)).hdr = _
  rw [Instr.gret.injEq]
  exact hdr_mk hF ..

theorem sysc h k g : Statement (.sysc h k g) := by
  intro seq hw
  obtain ⟨_, e, hF, hm, -, ho, hp⟩ := wf_parts hw
  cases e
  replace hm : ((k < 384 && g < 4096 : Bool)) = true := hm
  simp only [Bool.and_eq_true, decide_eq_true_eq] at hm
  refine ⟨?_, fits_mk (opc := 0x1B2) (d := k) (a := 0) (b := 0) (c := 0) (m := (0)) (e := (g * 1)) hF (by decide) (by omega) (Nat.zero_lt_succ _) (Nat.zero_lt_succ _) (Nat.zero_lt_succ _) (Nat.zero_lt_succ _) (by omega), rfl⟩
  show Instr.sysc (mkF h 0x1B2 k 0 0 0 (0) (g * 1)).hdr (k) (bits ((g * 1)) 0 12) = _
  rw [Instr.sysc.injEq]
  exact ⟨hdr_mk hF .., rfl, bits_of (by omega)⟩

theorem trmark h a imm : Statement (.trmark h a imm) := by
  intro seq hw
  obtain ⟨_, e, hF, hm, -, ho, hp⟩ := wf_parts hw
  cases e
  have ho0 : a.inRange = true := ho _ (List.getElem_mem (l := Instr.opers (.trmark h a imm)) (n := 0) (by show 0 < 1; decide))
  refine ⟨?_, fits_mk (opc := 0x1C0) (d := 0) (a := a.code) (b := (bits imm.toNat 0 10)) (c := (bits imm.toNat 10 10)) (m := (0)) (e := (bits imm.toNat 20 12)) hF (by decide) (Nat.zero_lt_succ _) (Opnd.code_lt ho0) (bits_lt ..) (bits_lt ..) (Nat.zero_lt_succ _) (Nat.lt_trans (bits_lt ..) (by decide)), rfl⟩
  show Instr.trmark (mkF h 0x1C0 0 a.code (bits imm.toNat 0 10) (bits imm.toNat 10 10) (0) (bits imm.toNat 20 12)).hdr (Opnd.ofCode (a.code)) (mkF h 0x1C0 0 a.code (bits imm.toNat 0 10) (bits imm.toNat 10 10) (0) (bits imm.toNat 20 12)).imm = _
  rw [Instr.trmark.injEq]
  exact ⟨hdr_mk hF .., Opnd.ofCode_code ho0, imm_pieces _⟩

theorem growGrant a0 : Statement (.growGrant a0) := by intro seq hw; cases hw

theorem growTimeout a0 : Statement (.growTimeout a0) := by intro seq hw; cases hw

theorem loadDataArrival a0 : Statement (.loadDataArrival a0) := by intro seq hw; cases hw

theorem storeCommitReport a0 : Statement (.storeCommitReport a0) := by intro seq hw; cases hw

theorem fenceComplete a0 : Statement (.fenceComplete a0) := by intro seq hw; cases hw

theorem waitReturn a0 : Statement (.waitReturn a0) := by intro seq hw; cases hw

theorem walkEnd a0 : Statement (.walkEnd a0) := by intro seq hw; cases hw

theorem operandLogReissue a0 a1 : Statement (.operandLogReissue a0 a1) := by intro seq hw; cases hw

theorem labelVerdict a0 : Statement (.labelVerdict a0) := by intro seq hw; cases hw

theorem trapDelivery a0 : Statement (.trapDelivery a0) := by intro seq hw; cases hw

theorem mwaitTimeout a0 : Statement (.mwaitTimeout a0) := by intro seq hw; cases hw

theorem bowaitReturn a0 : Statement (.bowaitReturn a0) := by intro seq hw; cases hw

theorem bowaitTimeout a0 : Statement (.bowaitTimeout a0) := by intro seq hw; cases hw

theorem sqsigAdd a0 : Statement (.sqsigAdd a0) := by intro seq hw; cases hw

theorem sqwaitReturn a0 : Statement (.sqwaitReturn a0) := by intro seq hw; cases hw

theorem sqwaitTimeout a0 : Statement (.sqwaitTimeout a0) := by intro seq hw; cases hw

theorem tileStateReached a0 : Statement (.tileStateReached a0) := by intro seq hw; cases hw

theorem tileWait a0 : Statement (.tileWait a0) := by intro seq hw; cases hw

theorem seqOpExecute a0 : Statement (.seqOpExecute a0) := by intro seq hw; cases hw

theorem seqOpComplete a0 a1 : Statement (.seqOpComplete a0 a1) := by intro seq hw; cases hw

theorem launchRecordDequeue a0 : Statement (.launchRecordDequeue a0) := by intro seq hw; cases hw

theorem dependenceMet a0 a1 : Statement (.dependenceMet a0 a1) := by intro seq hw; cases hw

theorem gangAdmit a0 a1 : Statement (.gangAdmit a0 a1) := by intro seq hw; cases hw

theorem lnchAppend a0 : Statement (.lnchAppend a0) := by intro seq hw; cases hw

theorem groupEnd a0 : Statement (.groupEnd a0) := by intro seq hw; cases hw

theorem launchComplete a0 : Statement (.launchComplete a0) := by intro seq hw; cases hw

theorem groupSwap a0 a1 : Statement (.groupSwap a0 a1) := by intro seq hw; cases hw

theorem pendingDisplace a0 : Statement (.pendingDisplace a0) := by intro seq hw; cases hw

theorem starvationGuard a0 : Statement (.starvationGuard a0) := by intro seq hw; cases hw

theorem preemptSave a0 : Statement (.preemptSave a0) := by intro seq hw; cases hw

theorem contextRestore a0 a1 : Statement (.contextRestore a0 a1) := by intro seq hw; cases hw

theorem deltaPush a0 a1 : Statement (.deltaPush a0 a1) := by intro seq hw; cases hw

theorem ownershipTransfer a0 : Statement (.ownershipTransfer a0) := by intro seq hw; cases hw

theorem domainJoin a0 : Statement (.domainJoin a0) := by intro seq hw; cases hw

theorem homeRequest a0 a1 : Statement (.homeRequest a0 a1) := by intro seq hw; cases hw

theorem reopen a0 : Statement (.reopen a0) := by intro seq hw; cases hw

theorem invalidationAck a0 a1 : Statement (.invalidationAck a0 a1) := by intro seq hw; cases hw

theorem recallReturn a0 : Statement (.recallReturn a0) := by intro seq hw; cases hw

theorem leaseExtension a0 : Statement (.leaseExtension a0) := by intro seq hw; cases hw

theorem extensionAck a0 a1 : Statement (.extensionAck a0 a1) := by intro seq hw; cases hw

theorem timedUpdate a0 a1 : Statement (.timedUpdate a0 a1) := by intro seq hw; cases hw

theorem replayWake a0 a1 : Statement (.replayWake a0 a1) := by intro seq hw; cases hw

theorem overflowFetch a0 : Statement (.overflowFetch a0) := by intro seq hw; cases hw

theorem amDispatch a0 a1 : Statement (.amDispatch a0 a1) := by intro seq hw; cases hw

theorem copyStart a0 a1 : Statement (.copyStart a0 a1) := by intro seq hw; cases hw

theorem chunkArbitration a0 : Statement (.chunkArbitration a0) := by intro seq hw; cases hw

theorem chunkReport a0 a1 a2 : Statement (.chunkReport a0 a1 a2) := by intro seq hw; cases hw

theorem contributionArrival a0 a1 : Statement (.contributionArrival a0 a1) := by intro seq hw; cases hw

theorem memberDeath a0 a1 : Statement (.memberDeath a0 a1) := by intro seq hw; cases hw

theorem kWrite a0 a1 : Statement (.kWrite a0 a1) := by intro seq hw; cases hw

theorem gateEnter a0 : Statement (.gateEnter a0) := by intro seq hw; cases hw

theorem gateReturn a0 : Statement (.gateReturn a0) := by intro seq hw; cases hw

theorem gateDeadline a0 : Statement (.gateDeadline a0) := by intro seq hw; cases hw

theorem ctxLoad a0 : Statement (.ctxLoad a0) := by intro seq hw; cases hw

theorem tlbInval a0 : Statement (.tlbInval a0) := by intro seq hw; cases hw

theorem harvest a0 : Statement (.harvest a0) := by intro seq hw; cases hw

theorem ctxPreempt a0 : Statement (.ctxPreempt a0) := by intro seq hw; cases hw

theorem ctxResume a0 : Statement (.ctxResume a0) := by intro seq hw; cases hw

theorem ctxKill a0 : Statement (.ctxKill a0) := by intro seq hw; cases hw

theorem groupRelease a0 : Statement (.groupRelease a0) := by intro seq hw; cases hw

theorem faultDone a0 : Statement (.faultDone a0) := by intro seq hw; cases hw

theorem syscDone a0 : Statement (.syscDone a0) := by intro seq hw; cases hw

theorem lqSet a0 : Statement (.lqSet a0) := by intro seq hw; cases hw

theorem lqReset a0 : Statement (.lqReset a0) := by intro seq hw; cases hw

theorem icacheInval a0 : Statement (.icacheInval a0) := by intro seq hw; cases hw

theorem unknownCommand a0 : Statement (.unknownCommand a0) := by intro seq hw; cases hw

theorem slDirpaWrite a0 a1 : Statement (.slDirpaWrite a0 a1) := by intro seq hw; cases hw

theorem slDiridxWrite a0 a1 : Statement (.slDiridxWrite a0 a1) := by intro seq hw; cases hw

theorem slDirent0Read a0 : Statement (.slDirent0Read a0) := by intro seq hw; cases hw

theorem hubRegisterWrite a0 a1 a2 : Statement (.hubRegisterWrite a0 a1 a2) := by intro seq hw; cases hw

theorem hostHotReset : Statement .hostHotReset := by intro seq hw; cases hw

theorem hostLinkTimeout : Statement .hostLinkTimeout := by intro seq hw; cases hw

theorem deviceLost a0 : Statement (.deviceLost a0) := by intro seq hw; cases hw

theorem deviceReset : Statement .deviceReset := by intro seq hw; cases hw

theorem powerGood a0 : Statement (.powerGood a0) := by intro seq hw; cases hw

theorem fullServiceMove : Statement .fullServiceMove := by intro seq hw; cases hw

theorem islandClockSet a0 a1 : Statement (.islandClockSet a0 a1) := by intro seq hw; cases hw

theorem nvmeSubmission a0 a1 : Statement (.nvmeSubmission a0 a1) := by intro seq hw; cases hw

theorem nvmeCompletion a0 : Statement (.nvmeCompletion a0) := by intro seq hw; cases hw

theorem flashRequest a0 : Statement (.flashRequest a0) := by intro seq hw; cases hw

theorem flashCompletion a0 a1 : Statement (.flashCompletion a0 a1) := by intro seq hw; cases hw

theorem ethernetFrame a0 a1 a2 a3 : Statement (.ethernetFrame a0 a1 a2 a3) := by intro seq hw; cases hw

theorem getVersion a0 : Statement (.getVersion a0) := by intro seq hw; cases hw

theorem getCapabilities a0 : Statement (.getCapabilities a0) := by intro seq hw; cases hw

theorem negotiateAlgorithms a0 : Statement (.negotiateAlgorithms a0) := by intro seq hw; cases hw

theorem getDigests a0 : Statement (.getDigests a0) := by intro seq hw; cases hw

theorem getCertificate a0 : Statement (.getCertificate a0) := by intro seq hw; cases hw

theorem challenge a0 : Statement (.challenge a0) := by intro seq hw; cases hw

theorem getMeasurements a0 : Statement (.getMeasurements a0) := by intro seq hw; cases hw

theorem traceGapWrite a0 : Statement (.traceGapWrite a0) := by intro seq hw; cases hw

theorem granuleHoldExpiry a0 : Statement (.granuleHoldExpiry a0) := by intro seq hw; cases hw

theorem linkRetrain a0 a1 : Statement (.linkRetrain a0 a1) := by intro seq hw; cases hw

theorem fabricLinkFailure a0 a1 : Statement (.fabricLinkFailure a0 a1) := by intro seq hw; cases hw

theorem migrationRequest a0 a1 a2 : Statement (.migrationRequest a0 a1 a2) := by intro seq hw; cases hw

theorem fenceRwRw a0 : Statement (.fenceRwRw a0) := by intro seq hw; cases hw

theorem monarmComplete a0 : Statement (.monarmComplete a0) := by intro seq hw; cases hw

theorem cinvComplete a0 : Statement (.cinvComplete a0) := by intro seq hw; cases hw

theorem meetingStatusReturn a0 : Statement (.meetingStatusReturn a0) := by intro seq hw; cases hw

theorem tileOperationComplete a0 : Statement (.tileOperationComplete a0) := by intro seq hw; cases hw

theorem dbgTrselWrite a0 a1 : Statement (.dbgTrselWrite a0 a1) := by intro seq hw; cases hw

theorem mctpFailureReport a0 : Statement (.mctpFailureReport a0) := by intro seq hw; cases hw

end Sys2Proof.Laws.Coded
end

