-- ==== Sys2Proof/Laws/Values.lean ====
section
/-! SUPPORT. Laws/Values.lean: what the shared value functions compute (bit by bit, or as exact numbers), and what a jump, a reduction and
an index register do over all lanes at once. -/

namespace Sys2Proof.Machine

theorem width_pos (ty : Ty) : 0 < ty.width := by cases ty <;> decide

theorem putInt_eq (ty : Ty) (sat : Bool) (v : Int) :
    putInt ty sat v = (wrap ty.width (if sat then max (intMin ty) (min (intMax ty) v) else v),
      if sat = true ∧ (v < intMin ty ∨ intMax ty < v) then fSAT else 0) := by
  have hle : intMin ty ≤ intMax ty := by cases ty <;> decide
  unfold putInt
  cases sat
  · simp
  · simp only [Bool.true_and, decide_eq_true_eq, if_true, true_and]
    split_ifs with h1 h2 h3 h4 h5 <;> first | omega | (simp only [Prod.mk.injEq]; refine ⟨?_, trivial⟩; congr 1; omega)

theorem put1 {i : Instr} {d : Opnd} {w z} (ty : Ty) (sat : Bool) (v : Group → Nat → Int)
    (h : ∀ s, exec i s = laneInstr i true s (alu d w z (fun g l => putInt ty sat (v g l)))) :
    Writes i true d w z (fun _ x l => wrap ty.width (if sat then max (intMin ty) (min (intMax ty) (v x.g l)) else v x.g l))
      (fun x l => if sat = true ∧ (v x.g l < intMin ty ∨ intMax ty < v x.g l) then fSAT else 0) := by
  have := writes_alu h
  simpa only [putInt_eq] using this

theorem wrap_wrap (w : Nat) (v : Int) : ((wrap w v : Nat) : Int) = v % 2 ^ w := by
  unfold wrap
  have hp : (0 : Int) < ((2 ^ w : Nat) : Int) := by positivity
  rw [Int.toNat_of_nonneg (Int.emod_nonneg _ hp.ne')]; push_cast; rfl

theorem wrap_neg_one (w : Nat) : wrap w (-1) = 2 ^ w - 1 := by
  have h := wrap_wrap w (-1)
  have hp : 0 < 2 ^ w := by positivity
  have : (-1 : Int) % 2 ^ w = 2 ^ w - 1 := by
    rw [show (-1 : Int) = (2 ^ w - 1) + (2 ^ w) * (-1) by ring, Int.add_mul_emod_self_left]
    apply Int.emod_eq_of_lt
    · have : (1 : Int) ≤ 2 ^ w := by exact_mod_cast hp
      omega
    · omega
  rw [this] at h
  have : ((2 ^ w - 1 : Nat) : Int) = 2 ^ w - 1 := by push_cast [Nat.cast_sub hp]; rfl
  rw [← this] at h; exact_mod_cast h

theorem compl_testBit (w x n : Nat) : (Machine.compl w x).testBit n = (decide (n < w) && !x.testBit n) := by
  unfold Machine.compl
  have := Nat.testBit_two_pow_sub_succ (x := x % 2 ^ w) (n := w) (Nat.mod_lt _ (by positivity)) n
  rw [show 2 ^ w - 1 - x % 2 ^ w = 2 ^ w - (x % 2 ^ w + 1) by omega, this]
  simp only [Nat.testBit_mod_two_pow]
  by_cases h : n < w <;> simp [h]

theorem bitAt_zero (x : Nat) : b2n (bitAt x 0) = (x.testBit 0).toNat := by
  unfold b2n bitAt; simp [Nat.testBit_zero]
  rcases Nat.mod_two_eq_zero_or_one x with h | h <;> simp [h]

theorem bitAt_eq (x n : Nat) : bitAt x n = x.testBit n := by
  rw [Nat.testBit_eq_decide_div_mod_eq]; rfl

theorem logt_testBit (tt a b c w n : Nat) : (logtBits tt a b c w).testBit n =
    (decide (n < w) && tt.testBit ((a.testBit n).toNat + 2 * (b.testBit n).toNat + 4 * (c.testBit n).toNat)) := by
  induction w generalizing a b c n with
  | zero => simp [logtBits]
  | succ w ih =>
    simp only [logtBits, bitAt_eq]
    cases n with
    | zero =>
      have e : ∀ (v : Bool), b2n v = v.toNat := by intro v; cases v <;> rfl
      simp only [e]
      cases tt.testBit ((a.testBit 0).toNat + 2 * (b.testBit 0).toNat + 4 * (c.testBit 0).toNat) <;>
        simp [Nat.testBit_zero]
    | succ n =>
      have e : ∀ v y, (b2n v + 2 * y).testBit (n + 1) = y.testBit n := by
        intro v y
        rw [Nat.testBit_succ]; congr 1; cases v <;> (simp [b2n]; try omega)
      rw [e, ih]
      simp only [Nat.testBit_succ, Nat.add_lt_add_iff_right]

theorem testBit_rot (w a n i : Nat) (ha : a < 2 ^ w) (hi : i < w) :
    (rotBits w a n).testBit ((i + n) % w) = a.testBit i ∧ rotBits w a n < 2 ^ w := by
  unfold rotBits
  have hw : 0 < w := by omega
  have hk : n % w < w := Nat.mod_lt _ hw
  dsimp only
  generalize hkk : n % w = k at *
  have e1 : (i + n) % w = if i + k < w then i + k else i + k - w := by
    rw [Nat.add_mod, hkk, Nat.mod_eq_of_lt hi]
    split
    · exact Nat.mod_eq_of_lt ‹_›
    · rw [Nat.mod_eq_sub_mod (by omega)]; exact Nat.mod_eq_of_lt (by omega)
  have hlow : a / 2 ^ (w - k) < 2 ^ k := by
    rw [Nat.div_lt_iff_lt_mul (by positivity), ← pow_add]; rwa [show k + (w - k) = w by omega]
  have e2 : a * 2 ^ k % 2 ^ w = 2 ^ k * (a % 2 ^ (w - k)) := by
    rw [Nat.mul_comm, show 2 ^ w = 2 ^ k * 2 ^ (w - k) by rw [← pow_add]; congr 1; omega, Nat.mul_mod_mul_left]
  rw [e2, e1]
  constructor
  · rw [Nat.testBit_two_pow_mul_add _ hlow]
    split_ifs with h1 h2 h2
    · omega
    · rw [Nat.add_sub_cancel, Nat.testBit_mod_two_pow]; simp; omega
    · rw [Nat.testBit_div_two_pow]; congr 1; omega
    · omega
  · have : a % 2 ^ (w - k) < 2 ^ (w - k) := Nat.mod_lt _ (by positivity)
    calc _ < 2 ^ k * (a % 2 ^ (w - k)) + 2 ^ k := by omega
      _ = 2 ^ k * (a % 2 ^ (w - k) + 1) := by ring
      _ ≤ 2 ^ k * 2 ^ (w - k) := Nat.mul_le_mul_left _ this
      _ = 2 ^ w := by rw [← pow_add]; congr 1; omega

theorem testBit_catsh (a b c k : Nat) (ha : a < 2 ^ 32) (hb : b < 2 ^ 32) (hk : k < 32) :
    (catshBits a b c).testBit k = (a * 2 ^ 32 + b).testBit ((c % 64 + k) % 64) ∧ catshBits a b c < 2 ^ 32 := by
  unfold catshBits
  have hx : a * 2 ^ 32 + b < 2 ^ 64 := by omega
  generalize a * 2 ^ 32 + b = x at *
  have hn : c % 64 < 64 := Nat.mod_lt _ (by norm_num)
  generalize c % 64 = n at *
  dsimp only
  split
  · refine ⟨?_, Nat.mod_lt _ (by norm_num)⟩
    rw [Nat.testBit_mod_two_pow, Nat.testBit_div_two_pow, Nat.mod_eq_of_lt (by omega), Nat.add_comm]
    simp [hk]
  · refine ⟨?_, Nat.mod_lt _ (by norm_num)⟩
    rw [Nat.testBit_mod_two_pow]
    have := (testBit_rot 64 x (64 - n) ((n + k) % 64) hx (Nat.mod_lt _ (by norm_num))).1
    rw [show ((n + k) % 64 + (64 - n)) % 64 = k by omega] at this
    rw [this]; simp [hk]

theorem wrap_testBit (w : Nat) (v : Int) (n : Nat) : (wrap w v).testBit n = (decide (n < w) && (v / 2 ^ n % 2 == 1)) := by
  have hw := wrap_wrap w v
  have hlt : wrap w v < 2 ^ w := by
    have := Int.emod_lt_of_pos v (show (0 : Int) < 2 ^ w by positivity)
    rw [← hw] at this; exact_mod_cast this
  by_cases h : n < w
  · rw [Nat.testBit_eq_decide_div_mod_eq]
    simp only [h, decide_true, Bool.true_and]
    have : ((wrap w v / 2 ^ n % 2 : Nat) : Int) = v / 2 ^ n % 2 := by
      push_cast; rw [hw]
      have e : v = v % 2 ^ w + 2 ^ n * (2 * (2 ^ (w - n - 1) * (v / 2 ^ w))) := by
        have h1 := Int.emod_add_mul_ediv v (2 ^ w)
        have : (2 : Int) ^ w = 2 ^ n * (2 * 2 ^ (w - n - 1)) := by rw [← pow_succ', ← pow_add]; congr 1; omega
        calc v = v % 2 ^ w + 2 ^ w * (v / 2 ^ w) := h1.symm
          _ = _ := by rw [show (2 : Int) ^ w * (v / 2 ^ w) = 2 ^ n * (2 * 2 ^ (w - n - 1)) * (v / 2 ^ w) by rw [← this]]; ring
      conv_rhs => rw [e]
      rw [Int.add_mul_ediv_left _ _ (by positivity), Int.add_mul_emod_self_left]
    have : (wrap w v / 2 ^ n % 2 = 1) ↔ (v / 2 ^ n % 2 = 1) := by omega
    simp only [this]; rfl
  · rw [Nat.testBit_lt_two_pow (lt_of_lt_of_le hlt (Nat.pow_le_pow_right (by norm_num) (by omega)))]
    simp [h]

theorem toSigned_bit (w x n : Nat) (hw : 0 < w) : (toSigned w x / 2 ^ n % 2 == 1) = x.testBit (min n (w - 1)) := by
  have hm : x % 2 ^ w < 2 ^ w := Nat.mod_lt _ (by positivity)
  have hb : ∀ k, k < w → (x % 2 ^ w).testBit k = x.testBit k := by intro k hk; rw [Nat.testBit_mod_two_pow]; simp [hk]
  have htop : (x % 2 ^ w).testBit (w - 1) = decide (2 ^ w ≤ 2 * (x % 2 ^ w)) := by
    rw [Nat.testBit_eq_decide_div_mod_eq]
    have e : 2 ^ w = 2 * 2 ^ (w - 1) := by rw [← pow_succ']; congr 1; omega
    generalize x % 2 ^ w = m at *
    have : m / 2 ^ (w - 1) < 2 := by rw [Nat.div_lt_iff_lt_mul (by positivity)]; omega
    have h1 : (m / 2 ^ (w - 1) = 1) ↔ 2 ^ w ≤ 2 * m := by
      constructor
      · intro h; have := Nat.div_add_mod m (2 ^ (w-1)); rw [h] at this; omega
      · intro h
        have : 1 ≤ m / 2 ^ (w - 1) := by rw [Nat.le_div_iff_mul_le (by positivity)]; omega
        omega
    rw [Nat.mod_eq_of_lt this]; simp only [h1]
  have hd : ∀ k, ((((x % 2 ^ w : Nat) : Int) / 2 ^ k) % 2 == 1) = (x % 2 ^ w).testBit k := by
    intro k
    rw [Nat.testBit_eq_decide_div_mod_eq]
    have : (((x % 2 ^ w / 2 ^ k % 2 : Nat)) : Int) = ((x % 2 ^ w : Nat) : Int) / 2 ^ k % 2 := by push_cast; rfl
    rw [← this]
    rcases Nat.mod_two_eq_zero_or_one (x % 2 ^ w / 2 ^ k) with h | h <;> rw [h] <;> rfl
  unfold toSigned
  dsimp only
  by_cases hn : n < w
  · rw [show min n (w - 1) = n by omega, ← hb n hn]
    split
    · exact hd n
    · rw [← hd n]
      have : (((2 : Nat) ^ w : Nat) : Int) = 2 ^ n * (2 * 2 ^ (w - n - 1)) := by
        push_cast; rw [← pow_succ', ← pow_add]; congr 1; omega
      rw [this, show ((x % 2 ^ w : Nat) : Int) - 2 ^ n * (2 * 2 ^ (w - n - 1)) = ((x % 2 ^ w : Nat) : Int) + 2 ^ n * (2 * (-2 ^ (w - n - 1))) by ring,
        Int.add_mul_ediv_left _ _ (by positivity), Int.add_mul_emod_self_left]
  · rw [show min n (w - 1) = w - 1 by omega, ← hb _ (by omega), htop]
    have hpn : (2 : Int) ^ w ≤ 2 ^ n := by exact_mod_cast Nat.pow_le_pow_right (by norm_num) (by omega : w ≤ n)
    have hmi : ((x % 2 ^ w : Nat) : Int) < 2 ^ w := by exact_mod_cast hm
    have h0 : (0 : Int) ≤ ((x % 2 ^ w : Nat) : Int) := by positivity
    split
    · rw [Int.ediv_eq_zero_of_lt h0 (by linarith)]
      rename_i h; simp; omega
    · rename_i h
      have : (((x % 2 ^ w : Nat) : Int) - ((2 ^ w : Nat) : Int)) / 2 ^ n = -1 := by
        rw [Int.ediv_eq_iff_of_pos (by positivity)] <;> push_cast <;> constructor <;> linarith
      rw [this]; simp; omega

theorem popBits_eq (w x : Nat) : popBits w x = ((List.range w).filter (fun n => x.testBit n)).length := by
  induction w generalizing x with
  | zero => rfl
  | succ w ih =>
    rw [popBits, ih, List.range_succ_eq_map, List.filter_cons, List.filter_map, apply_ite List.length]
    have e : ((fun n => x.testBit n) ∘ Nat.succ) = (fun n => (x / 2).testBit n) := by
      funext n; simp [Nat.testBit_succ]
    rw [e]
    have : x.testBit 0 = true ↔ x % 2 = 1 := by simp [Nat.testBit_zero]
    split_ifs with h1
    · rw [this.1 h1]; simp [Nat.add_comm]
    · have : x % 2 = 0 := by rcases Nat.mod_two_eq_zero_or_one x with h | h
                             · exact h
                             · exact absurd (this.2 h) h1
      rw [this]; simp

theorem clz_eq (w x : Nat) (hx : x < 2 ^ w) : clzBits w x ≤ w ∧ (∀ n, w - clzBits w x ≤ n → x.testBit n = false) ∧
    (x ≠ 0 → x.testBit (w - 1 - clzBits w x) = true) := by
  unfold clzBits
  split
  · rename_i h; simp [h]
  · rename_i h
    have hl : Nat.log2 x < w := (Nat.log2_lt h).2 hx
    refine ⟨by omega, fun n hn => ?_, fun _ => ?_⟩
    · apply Nat.testBit_lt_two_pow
      have := Nat.lt_log2_self (n := x)
      exact lt_of_lt_of_le this (Nat.pow_le_pow_right (by norm_num) (by omega))
    · rw [show w - 1 - (w - 1 - Nat.log2 x) = Nat.log2 x by omega]
      exact Nat.testBit_log2 h

theorem ffs_eq (w i x : Nat) : (∀ n, n < w → x.testBit n = true → (∀ k, k < n → x.testBit k = false) → ffsBits w i x = i + n) ∧
    ((∀ n, n < w → x.testBit n = false) → ffsBits w i x = 0xFFFFFFFF) := by
  induction w generalizing i x with
  | zero => exact ⟨fun n h => by omega, fun _ => rfl⟩
  | succ w ih =>
    have h0 : x.testBit 0 = true ↔ x % 2 = 1 := by simp [Nat.testBit_zero]
    refine ⟨fun n hn h1 h2 => ?_, fun h => ?_⟩
    · cases n with
      | zero => simp [ffsBits, h0.1 h1]
      | succ n =>
        have : ¬ x % 2 = 1 := by rw [← h0]; simp [h2 0 (by omega)]
        rw [ffsBits, if_neg this, (ih (i + 1) (x / 2)).1 n (by omega) (by rwa [Nat.testBit_succ] at h1) (fun k hk => by
          rw [← Nat.testBit_succ]; exact h2 _ (by omega))]
        omega
    · have : ¬ x % 2 = 1 := by rw [← h0]; simp [h 0 (by omega)]
      rw [ffsBits, if_neg this]
      exact (ih (i + 1) (x / 2)).2 (fun n hn => by rw [← Nat.testBit_succ]; exact h _ (by omega))

theorem rev_eq (w x : Nat) : revBits w x < 2 ^ w ∧ ∀ n, (revBits w x).testBit n = (decide (n < w) && x.testBit (w - 1 - n)) := by
  induction w generalizing x with
  | zero => simp [revBits]
  | succ w ih =>
    obtain ⟨h1, h2⟩ := ih (x / 2)
    have hx : x % 2 < 2 := Nat.mod_lt _ (by norm_num)
    rw [revBits, Nat.mul_comm]
    refine ⟨by rw [pow_succ]; rcases Nat.mod_two_eq_zero_or_one x with h | h <;> rw [h] <;> omega, fun n => ?_⟩
    rw [Nat.testBit_two_pow_mul_add _ h1]
    split
    · rw [h2, ← Nat.testBit_succ]; rename_i hn
      rw [show (w - 1 - n).succ = w + 1 - 1 - n by omega]; simp [hn]; omega
    · rename_i hn
      by_cases hw : n = w
      · subst hw; rw [Nat.sub_self, Nat.testBit_zero]; simp [Nat.testBit_zero]
      · rw [Nat.testBit_lt_two_pow (x := x % 2) (lt_of_lt_of_le hx (by
          calc 2 = 2 ^ 1 := rfl
            _ ≤ 2 ^ (n - w) := Nat.pow_le_pow_right (by norm_num) (by omega)))]
        simp; omega

theorem prmb_eq (src sel n m : Nat) (hn : n < m) : bits (prmbBytes src sel m) (8 * n) 8 =
    if (bits sel (4 * n) 4).testBit 3 then 0 else bits src (8 * (bits sel (4 * n) 4 % 8)) 8 := by
  induction m generalizing sel n with
  | zero => omega
  | succ m ih =>
    have hb : (if sel % 16 ≥ 8 then 0 else bits src (8 * (sel % 16)) 8) < 256 := by
      split
      · norm_num
      · unfold bits; exact Nat.mod_lt _ (by norm_num)
    rw [prmbBytes]
    cases n with
    | zero =>
      have : ∀ a b : Nat, a < 256 → bits (a + 256 * b) (8 * 0) 8 = a := by intro a b h; unfold bits; simp; omega
      rw [this _ _ hb]
      have e : bits sel (4 * 0) 4 = sel % 16 := by simp [bits]
      rw [e]
      have hs : sel % 16 < 16 := Nat.mod_lt _ (by norm_num)
      generalize sel % 16 = k at *
      have ht : k.testBit 3 = true ↔ k ≥ 8 := by
        clear hb; interval_cases k <;> decide
      by_cases h8 : k ≥ 8
      · rw [if_pos h8, if_pos (ht.2 h8)]
      · rw [if_neg h8, if_neg (fun h => h8 (ht.1 h)), Nat.mod_eq_of_lt (by omega)]
    | succ n =>
      have : ∀ a b : Nat, a < 256 → bits (a + 256 * b) (8 * (n + 1)) 8 = bits b (8 * n) 8 := by
        intro a b h; unfold bits
        rw [show 8 * (n + 1) = 8 + 8 * n by ring, pow_add, ← Nat.div_div_eq_div_mul]; congr 2; omega
      rw [this _ _ hb, ih _ _ (by omega)]
      have e : bits sel (4 * (n + 1)) 4 = bits (sel / 16) (4 * n) 4 := by
        unfold bits; rw [show 4 * (n + 1) = 4 + 4 * n by ring, pow_add, ← Nat.div_div_eq_div_mul]; rfl
      rw [e]

theorem rangeFail_none (g : Group) (us : List OpUse)
    (h : ∀ u ∈ us, (∀ k, u.o = .v k → k + u.w ≤ g.nregs) ∧ (∀ k, u.o = .s k → k + u.w ≤ g.sregs)) : g.rangeFail us = none := by
  induction us with
  | nil => rfl
  | cons u us ih =>
    have h1 := h u (by simp)
    have h2 := ih (fun v hv => h v (by simp [hv]))
    unfold Group.rangeFail
    split
    · rename_i k hk; rw [if_neg (by have := h1.1 k hk; omega), h2]
    · rename_i k hk; rw [if_neg (by have := h1.2 k hk; omega), h2]
    · exact h2

theorem rangeFail_some (g : Group) (us vs : List OpUse) (u : OpUse)
    (h : ∀ u ∈ us, (∀ k, u.o = .v k → k + u.w ≤ g.nregs) ∧ (∀ k, u.o = .s k → k + u.w ≤ g.sregs)) :
    (∀ k, u.o = .v k → k + u.w > g.nregs → g.rangeFail (us ++ u :: vs) = some (k + u.w - 1)) ∧
    (∀ k, u.o = .s k → k + u.w > g.sregs → g.rangeFail (us ++ u :: vs) = some (512 + k + u.w - 1)) := by
  induction us with
  | nil =>
    refine ⟨fun k hk hb => ?_, fun k hk hb => ?_⟩ <;> (simp only [List.nil_append, Group.rangeFail, hk]; rw [if_pos hb])
  | cons w us ih =>
    have h1 := h w (by simp)
    have h2 := ih (fun v hv => h v (by simp [hv]))
    have e : g.rangeFail (w :: (us ++ u :: vs)) = g.rangeFail (us ++ u :: vs) := by
      rw [Group.rangeFail]
      split
      · rename_i k hk; rw [if_neg (by have := h1.1 k hk; omega)]
      · rename_i k hk; rw [if_neg (by have := h1.2 k hk; omega)]
      · rfl
    rw [List.cons_append, e]; exact h2

theorem poisonOf_empty (g : Group) (o : Opnd) (l w : Nat) (h : g.poison = []) : g.poisonOf o l w = none := by
  induction w with
  | zero => rfl
  | succ w ih => simp [Group.poisonOf, h, ih]; cases poisonKey o w l <;> simp [mfind]

theorem poisonRead_empty (g : Group) (us : List OpUse) (l : Nat) (h : g.poison = []) : g.poisonRead us l = none := by
  simp [Group.poisonRead, List.findSome?_eq_none_iff, poisonOf_empty g _ _ _ h]

theorem scaled_rat (g : Int) (n : Bool) (m : Nat) (e : Int) (h : m = 0 ∨ g ≤ e) : ((scaled g (.fin n m e) : Int) : ℚ) * 2 ^ g = ratOf (.fin n m e) := by
  unfold scaled ratOf
  rcases h with rfl | h
  · simp
  · dsimp only
    have : ((2:ℚ) ^ (e - g).toNat) * 2 ^ g = 2 ^ e := by
      rw [← zpow_natCast, ← zpow_add₀ (by norm_num)]; congr 1; omega
    cases n
    · simp; rw [mul_assoc, this]
    · simp; rw [mul_assoc, this]

theorem leastExp_two (n m : Bool) (a b : Nat) (e f : Int) : let xs : List FVal := [.fin n a e, .fin m b f]
    (a = 0 ∨ leastExp xs (someExp xs) ≤ e) ∧ (b = 0 ∨ leastExp xs (someExp xs) ≤ f) := by
  dsimp only
  simp only [leastExp, someExp]
  by_cases ha : a = 0 <;> by_cases hb : b = 0 <;> simp [ha, hb]

theorem fsum_rat (rnd : Rnd) (n m : Bool) (a b : Nat) (e f : Int) :
    ∃ r, fsumV rnd [.fin n a e, .fin m b f] = (r, 0) ∧ ratOf r = ratOf (.fin n a e) + ratOf (.fin m b f) ∧ ∃ n' a' e', r = .fin n' a' e' := by
  have h := leastExp_two n m a b e f
  dsimp only at h
  unfold fsumV
  simp only [List.any_cons, FVal.isNaN, List.any_nil, Bool.or_false, Bool.false_eq_true, if_false, decide_false, reduceCtorEq, Bool.and_false]
  generalize leastExp _ _ = g at *
  have e1 := scaled_rat g n a e h.1
  have e2 := scaled_rat g m b f h.2
  simp only [List.foldl_cons, List.foldl_nil, zero_add]
  generalize scaled g (.fin n a e) = u at *
  generalize scaled g (.fin m b f) = v at *
  split
  · rename_i h0
    refine ⟨_, rfl, ?_, _, _, _, rfl⟩
    rw [← e1, ← e2, ← add_mul]
    have : (u : ℚ) + v = 0 := by exact_mod_cast h0
    rw [this]; simp [ratOf]
  · refine ⟨_, rfl, ?_, _, _, _, rfl⟩
    rw [← e1, ← e2, ← add_mul]
    simp only [ratOf]
    congr 1
    have : ((u + v).natAbs : ℚ) = |((u + v : Int) : ℚ)| := by rw [← Int.cast_abs, ← Int.natCast_natAbs]; rfl
    rw [this]
    push_cast
    by_cases hn : u + v < 0
    · have : (u : ℚ) + v < 0 := by exact_mod_cast hn
      simp [hn, abs_of_neg this]
    · have : 0 ≤ (u : ℚ) + v := by exact_mod_cast (not_lt.1 hn)
      simp [hn, abs_of_nonneg this]

theorem fmul_rat (n m : Bool) (a b : Nat) (e f : Int) :
    fmulV (.fin n a e) (.fin m b f) = (.fin (n != m) (a * b) (e + f), 0) ∧ ratOf (.fin (n != m) (a * b) (e + f)) = ratOf (.fin n a e) * ratOf (.fin m b f) := by
  refine ⟨rfl, ?_⟩
  simp only [ratOf]
  rw [zpow_add₀ (by norm_num : (2:ℚ) ≠ 0)]
  cases n <;> cases m <;> simp <;> ring

theorem fcmp_rat (n m : Bool) (a b : Nat) (e f : Int) : fcmpV (.fin n a e) (.fin m b f) = SignType.sign (ratOf (.fin n a e) - ratOf (.fin m b f)) := by
  have h := leastExp_two n m a b e f
  dsimp only at h
  simp only [fcmpV]
  generalize leastExp _ _ = g at *
  have e1 := scaled_rat g n a e h.1
  have e2 := scaled_rat g m b f h.2
  generalize scaled g (.fin n a e) = u at *
  generalize scaled g (.fin m b f) = v at *
  rw [← e1, ← e2, ← sub_mul]
  have hp : (0 : ℚ) < 2 ^ g := by positivity
  rw [sign_mul, sign_pos hp, mul_one]
  have : (u : ℚ) - v = ((u - v : Int) : ℚ) := by push_cast; rfl
  rw [this]
  split
  · rename_i h; rw [sign_neg (by exact_mod_cast h)]; rfl
  · split
    · rename_i h; rw [h]; simp
    · rw [sign_pos (by exact_mod_cast (by omega : 0 < u - v))]; rfl

theorem snan_iff (v : FVal) : snanFlag v = fNV ↔ v = .nan true := by
  cases v with
  | nan s => cases s <;> simp [snanFlag, fNV]
  | _ => simp [snanFlag, fNV]

theorem snan_cases (v : FVal) : snanFlag v = fNV ∨ snanFlag v = 0 := by
  cases v with
  | nan s => cases s <;> simp [snanFlag]
  | _ => simp [snanFlag]

theorem snan_or (a b : FVal) : snanFlag a ||| snanFlag b = fNV ↔ a = .nan true ∨ b = .nan true := by
  rw [← snan_iff, ← snan_iff]
  rcases snan_cases a with h | h <;> rcases snan_cases b with h' | h' <;> rw [h, h'] <;> decide

theorem isNaN_snan (a : FVal) (h : a.isNaN = false) : snanFlag a = 0 := by
  cases a <;> simp_all [FVal.isNaN, snanFlag]

theorem element_bit (ty : Ty) (x i n : Nat) : (element ty x i).testBit n = (decide (n < ty.width) && x.testBit (ty.pitch * i + n)) := by
  unfold element bits; rw [Nat.testBit_mod_two_pow, Nat.testBit_div_two_pow, Nat.add_comm]

theorem setElement_bit (ty : Ty) (r i e n : Nat) : (setElement ty r i e).testBit n =
    if ty.pitch * i ≤ n ∧ n < ty.pitch * i + ty.pitch then (decide (n - ty.pitch * i < ty.width) && e.testBit (n - ty.pitch * i)) else r.testBit n := by
  have hp : ty.width ≤ ty.pitch := by unfold Ty.pitch; split <;> omega
  unfold setElement
  dsimp only
  generalize ty.pitch = q at *
  generalize ty.width = w at *
  have he : e % 2 ^ w < 2 ^ q := lt_of_lt_of_le (Nat.mod_lt _ (by positivity)) (Nat.pow_le_pow_right (by norm_num) hp)
  have hlo : r % 2 ^ (q * i) < 2 ^ (q * i) := Nat.mod_lt _ (by positivity)
  rw [Nat.add_comm, Nat.testBit_two_pow_mul_add _ hlo, Nat.add_comm (e % 2 ^ w), Nat.testBit_two_pow_mul_add _ he]
  by_cases h1 : n < q * i
  · rw [if_pos h1, if_neg (by omega), Nat.testBit_mod_two_pow]; simp [h1]
  · rw [if_neg h1]
    by_cases h2 : n - q * i < q
    · rw [if_pos h2, if_pos (by omega), Nat.testBit_mod_two_pow]
    · rw [if_neg h2, if_neg (by omega), Nat.testBit_div_two_pow, Nat.testBit_div_two_pow]; congr 1; omega

theorem el_get (ty : Ty) (r i j e : Nat) (hw : ty.width < 32) :
    element ty (setElement ty r i e) i = e % 2 ^ ty.width ∧ (i ≠ j → element ty (setElement ty r i e) j = element ty r j) ∧
    (i < ty.perReg → r < 2 ^ 32 → setElement ty r i e < 2 ^ 32) := by
  have hp : ty.width ≤ ty.pitch := by unfold Ty.pitch; split <;> omega
  have hpr : ty.width < 32 → ty.perReg * ty.pitch = 32 := by cases ty <;> decide
  have hpr := hpr hw
  refine ⟨?_, fun hij => ?_, fun hi hr => ?_⟩
  · apply Nat.eq_of_testBit_eq; intro n
    rw [element_bit, setElement_bit, Nat.testBit_mod_two_pow]
    by_cases hn : n < ty.width
    · rw [if_pos (by omega)]; simp [hn]
    · simp [hn]
  · apply Nat.eq_of_testBit_eq; intro n
    rw [element_bit, setElement_bit, element_bit]
    by_cases hn : n < ty.width
    · rw [if_neg]
      rintro ⟨h1, h2⟩
      rcases Nat.lt_or_gt_of_ne hij with h | h
      · have := Nat.mul_le_mul_left ty.pitch (Nat.succ_le_of_lt h); rw [Nat.mul_succ] at this; omega
      · have := Nat.mul_le_mul_left ty.pitch (Nat.succ_le_of_lt h); rw [Nat.mul_succ] at this; omega
    · simp [hn]
  · apply Nat.lt_pow_two_of_testBit; intro n hn
    rw [setElement_bit, if_neg]
    · exact Nat.testBit_lt_two_pow (lt_of_lt_of_le hr (Nat.pow_le_pow_right (by norm_num) hn))
    · have := Nat.mul_le_mul_right ty.pitch (Nat.succ_le_of_lt hi)
      rw [Nat.succ_mul, Nat.mul_comm i] at this; omega

theorem dotBits_eq (ty : Ty) (sat : Bool) (a b c : Nat) : dotBits ty sat a b c =
    (wrap 32 (if sat then max (intMin (if ty.signed then .s32 else .u32)) (min (intMax (if ty.signed then .s32 else .u32)) (intVal (if ty.signed then .s32 else .u32) c + dotSum ty a b ty.perReg)) else (intVal (if ty.signed then .s32 else .u32) c + dotSum ty a b ty.perReg)),
     if sat = true ∧ ((intVal (if ty.signed then .s32 else .u32) c + dotSum ty a b ty.perReg) < intMin (if ty.signed then .s32 else .u32) ∨ intMax (if ty.signed then .s32 else .u32) < (intVal (if ty.signed then .s32 else .u32) c + dotSum ty a b ty.perReg)) then fSAT else 0) := by
  unfold dotBits; dsimp only; rw [putInt_eq]
  have : (if ty.signed = true then Ty.s32 else .u32).width = 32 := by split <;> rfl
  rw [this]

theorem writeD_lanes (g : Group) (x : Issue) (d : Opnd) (w : Nat) (z : Bool) (f : Nat → Nat) : (g.writeD x d w z f).lanes = g.lanes :=
  (congrArg Group.lanes (writeD_rest g x d w z f)).trans rfl

theorem stepped_of (g g' : Group) (run : Word) (h : g'.lanes = g.lanes) : Stepped g (g'.advance run) run := by
  obtain ⟨h1, h2⟩ := stepped_advance g' run
  refine ⟨by rw [h1, h], fun l hl => ?_⟩
  rw [h2 l (by rw [h]; exact hl)]; simp only [Group.lane, h]

theorem word_ext (u v : Word) : (∀ l, l < 32 → u.getLsbD l = v.getLsbD l) → u = v := fun h => BitVec.eq_of_getLsbD_eq h

/-- sum of the values present -/
def osum (xs : List (Option Bits)) : Nat := (xs.map (fun o => (o.map (·.1)).getD 0)).sum

theorem osum_level (ty : Ty) (hf : ty.isFloat = false) (xs : List (Option Bits)) : osum (gredLevel .add ty xs) % 2 ^ ty.width = osum xs % 2 ^ ty.width := by
  induction xs using gredLevel.induct with
  | case1 x y t ih =>
    unfold gredLevel
    simp only [osum, List.map_cons, List.sum_cons] at ih ⊢
    rw [Nat.add_mod, ih, ← Nat.add_mod]
    have : ((combineO .add ty x y).map (·.1)).getD 0 % 2 ^ ty.width = ((x.map (·.1)).getD 0 + (y.map (·.1)).getD 0) % 2 ^ ty.width := by
      cases x <;> cases y <;> simp [combineO, combine, hf]
    rw [Nat.add_mod, this, ← Nat.add_mod, Nat.add_assoc]
  | case2 t ht => unfold gredLevel; split <;> simp_all

theorem gredLevel_length (op : RedOp) (ty : Ty) (n : Nat) (xs : List (Option Bits)) (h : xs.length = 2 * n) : (gredLevel op ty xs).length = n := by
  induction n generalizing xs with
  | zero => have : xs = [] := by simpa using h
            subst this; rfl
  | succ n ih =>
    match xs, h with
    | x :: y :: t, h => simp only [gredLevel, List.length_cons]; rw [ih t (by simp at h; omega)]

theorem scan_sum (ty : Ty) (hf : ty.isFloat = false) (val : Nat → Nat) (ls ks : List Nat) (l : Nat) (acc : Option Nat) (fl : Flags) :
    ((scanLanes .add ty false val acc fl (ls ++ l :: ks)).1.getD ls.length (0, 0)).1 = l ∧
    ((scanLanes .add ty false val acc fl (ls ++ l :: ks)).1.getD ls.length (0, 0)).2 % 2 ^ ty.width = (acc.getD 0 + ((ls ++ [l]).map val).sum) % 2 ^ ty.width := by
  induction ls generalizing acc fl with
  | nil =>
    cases acc with
    | none => simp [scanLanes]
    | some p => simp [scanLanes, combine, hf]
  | cons k ls ih =>
    cases acc with
    | none =>
      simp only [List.cons_append, scanLanes, Bool.false_eq_true, if_false]
      have := ih (some (val k)) fl
      simpa using this
    | some p =>
      simp only [List.cons_append, scanLanes, Bool.false_and, Bool.false_eq_true, if_false]
      have := ih (some (combine .add ty p (val k)).1) (fl ||| (combine .add ty p (val k)).2)
      refine ⟨by simpa using this.1, ?_⟩
      have h2 := this.2
      simp only [Option.getD_some] at h2 ⊢
      simp only [List.length_cons, List.getD_cons_succ] 
      rw [h2]
      simp only [combine, hf, Bool.false_eq_true, if_false, List.map_cons, List.sum_cons]
      rw [Nat.mod_add_mod]; congr 1; ring

theorem osum_map (act : Word) (val : Nat → Nat) (rs : List Nat) :
    osum (rs.map (fun l => if act.getLsbD l then some (val l, (0 : Flags)) else none)) = ((rs.filter (fun l => act.getLsbD l)).map val).sum := by
  induction rs with
  | nil => rfl
  | cons r rs ih =>
    unfold osum at ih ⊢
    simp only [List.map_cons, List.sum_cons, List.filter_cons]
    rw [ih]; cases act.getLsbD r <;> simp

theorem tree_sum (ty : Ty) (hf : ty.isFloat = false) (xs : List (Option Bits)) (l0 : xs.length = 32) :
    ((gredTree .add ty xs).getD (0, 0)).1 % 2 ^ ty.width = osum xs % 2 ^ ty.width := by
  unfold gredTree
  dsimp only
  have e := osum_level ty hf
  have len : ∀ n ys, ys.length = 2 * n → (gredLevel .add ty ys).length = n := fun n ys h => gredLevel_length _ _ n ys h
  have l5 := len 1 _ (len 2 _ (len 4 _ (len 8 _ (len 16 xs l0))))
  rw [← e xs, ← e (gredLevel .add ty xs), ← e (gredLevel .add ty (gredLevel .add ty xs)), ← e (gredLevel .add ty (gredLevel .add ty (gredLevel .add ty xs))), ← e (gredLevel .add ty (gredLevel .add ty (gredLevel .add ty (gredLevel .add ty xs))))]
  generalize gredLevel .add ty (gredLevel .add ty (gredLevel .add ty (gredLevel .add ty (gredLevel .add ty xs)))) = ys at *
  match ys, l5 with
  | [y], _ => cases y <;> simp [osum]

theorem exec_gscan (h op ty z excl d a) (s : State) (x : Issue) (hx : s.issueOf (.gscan h op ty z excl d a) true = .go x) :
    exec (.gscan h op ty z excl d a) s = .next (x.done s (fun g => (g.writeD x d ty.regs z (fun l => (((scanLanes op ty excl (fun l => if ty.isFloat then x.g.opndT ty a l else x.g.opnd a ty.regs l) none 0 (lanesOf x.act)).1.find? (fun e => e.1 == l)).map (·.2)).getD 0)).raise
      (scanLanes op ty excl (fun l => if ty.isFloat then x.g.opndT ty a l else x.g.opnd a ty.regs l) none 0 (lanesOf x.act)).2)) := by
  simp only [exec, execGscan]; rw [laneInstr_go _ hx]

theorem mem_lanesWhere (g : Group) (f : Lane → Bool) (l : Nat) (hl : l < 32) : (g.lanesWhere f).getLsbD l = f (g.lane l) := getLsbD_maskWhere _ _ hl

theorem quads_bit (m : Word) (l : Nat) (hl : l < 32) : (quadsOf m).getLsbD l = true ↔ ∃ k, k < 4 ∧ m.getLsbD (4 * (l / 4) + k) = true := by
  unfold quadsOf; rw [getLsbD_maskWhere _ _ hl]; simp

theorem xBad_nil (x : Issue) (a b : Opnd) (h : ∀ l, l < 32 → x.act.getLsbD l = true → x.run.getLsbD l = true → xIdx x a b l < x.g.nregs) : xBad x a b = [] := by
  unfold xBad; rw [List.filter_eq_nil_iff]; intro l hl; rw [mem_lanesOf] at hl
  have hl32 : l < 32 := by by_contra hc; rw [BitVec.getLsbD_of_ge _ _ (Nat.le_of_not_lt hc)] at hl; exact absurd hl (by decide)
  intro hc; simp only [Bool.and_eq_true, decide_eq_true_eq] at hc
  exact absurd (h l hl32 hl hc.2) (by omega)

theorem lanesOf_sorted (m : Word) : (lanesOf m).Pairwise (· < ·) := (List.pairwise_lt_range).filter _

theorem xBad_head (x : Issue) (a b : Opnd) (l : Nat) (hl : l < 32) (h1 : x.act.getLsbD l = true) (h2 : x.run.getLsbD l = true) (h3 : xIdx x a b l ≥ x.g.nregs)
    (h4 : ∀ k, k < l → x.act.getLsbD k = true → x.run.getLsbD k = true → xIdx x a b k < x.g.nregs) : ∃ ls, xBad x a b = l :: ls := by
  have hm : l ∈ xBad x a b := by unfold xBad; rw [List.mem_filter, mem_lanesOf]; exact ⟨h1, by simp [h2, h3]⟩
  have hs : (xBad x a b).Pairwise (· < ·) := (lanesOf_sorted _).filter _
  cases hb : xBad x a b with
  | nil => rw [hb] at hm; simp at hm
  | cons k ks =>
    rw [hb] at hm hs
    rcases List.mem_cons.1 hm with rfl | hm
    · exact ⟨ks, rfl⟩
    · have hkl := (List.pairwise_cons.1 hs).1 l hm
      have hk : k ∈ xBad x a b := by rw [hb]; simp
      unfold xBad at hk; rw [List.mem_filter, mem_lanesOf] at hk
      simp only [Bool.and_eq_true, decide_eq_true_eq] at hk
      exact absurd (h4 k hkl hk.1 hk.2.2) (by omega)

theorem xput_fold (x : Issue) (idx : Nat → Nat) (c : Nat → Nat) (ls : List Nat) (g : Group) (hls : ∀ l ∈ ls, l < 32) (k l : Nat) (hl : l < 32) :
    let g' := ls.foldl (fun g l => if idx l < x.g.nregs then { g with v := putRegs g.v (idx l) l 1 (c l), poison := if g.poison.isEmpty then g.poison else mdel g.poison (32 * idx l + l) } else g) g
    (vReg g' k l = if l ∈ ls ∧ k = idx l ∧ k < x.g.nregs then wordOf (c l) 0 else vReg g k l) ∧ g'.lanes = g.lanes ∧ { g' with v := g.v, poison := g.poison } = g := by
  induction ls generalizing g with
  | nil => exact ⟨by simp, rfl, rfl⟩
  | cons j js ih =>
    rw [List.foldl_cons]
    have hj := hls j (by simp)
    obtain ⟨h1, h2, h3⟩ := ih (if idx j < x.g.nregs then { g with v := putRegs g.v (idx j) j 1 (c j), poison := if g.poison.isEmpty then g.poison else mdel g.poison (32 * idx j + j) } else g) (fun l hl => hls l (by simp [hl]))
    dsimp only at h1 h2 h3 ⊢
    refine ⟨?_, ?_, ?_⟩
    · rw [h1]
      by_cases hi : idx j < x.g.nregs
      · rw [if_pos hi]
        have : vReg { g with v := putRegs g.v (idx j) j 1 (c j), poison := if g.poison.isEmpty then g.poison else mdel g.poison (32 * idx j + j) } k l = if l = j ∧ idx j ≤ k ∧ k < idx j + 1 then wordOf (c j) (k - idx j) else vReg g k l := mget_putRegs _ _ _ _ _ _ _ hj hl
        rw [this]
        by_cases hlj : l = j
        · subst hlj
          by_cases hk : k = idx l
          · subst hk; simp [hi]
          · have : ¬ (idx l ≤ k ∧ k < idx l + 1) := by omega
            have h1 : ¬ (l ∈ js ∧ k = idx l ∧ k < x.g.nregs) := fun h => hk h.2.1
            have h2 : ¬ (l ∈ l :: js ∧ k = idx l ∧ k < x.g.nregs) := fun h => hk h.2.1
            have h3 : ¬ (l = l ∧ idx l ≤ k ∧ k < idx l + 1) := fun h => this h.2
            rw [if_neg h1, if_neg h2, if_neg h3]
        · simp [hlj]
      · rw [if_neg hi]
        by_cases hlj : l = j
        · subst hlj
          have : ¬ (k = idx l ∧ k < x.g.nregs) := by rintro ⟨rfl, h⟩; exact hi h
          simp [this]
        · simp [hlj]
    · rw [h2]; split <;> rfl
    · have e : ∀ (q r : Group), { q with v := r.v, poison := r.poison } = r → { q with v := g.v, poison := g.poison } = { r with v := g.v, poison := g.poison } := by
        intro q r h; rw [← h]
      rw [e _ _ h3]; split <;> rfl

theorem jumpLanes_done (s : State) (g : Group) (pc : DWord) (j : Nat → Jump) (f : Nat → Lane) (ls : List Nat)
    (h : ∀ l ∈ ls, s.jumpLane g pc l (j l) = (.done (f l), s)) : s.jumpLanes g pc j ls = (ls.map (fun l => (l, .done (f l))), s) := by
  induction ls with
  | nil => rfl
  | cons l ls ih =>
    simp only [State.jumpLanes, h l (by simp), ih (fun l hl => h l (by simp [hl])), List.map_cons]

theorem jumpFails_done (f : Nat → Lane) (ls : List Nat) : jumpFails (ls.map (fun l => (l, JumpRes.done (f l)))) = [] := by
  induction ls with
  | nil => rfl
  | cons l ls ih => simpa [jumpFails] using ih

theorem jumpParks_done (f : Nat → Lane) (ls : List Nat) : jumpParks (ls.map (fun l => (l, JumpRes.done (f l)))) = [] := by
  induction ls with
  | nil => rfl
  | cons l ls ih => simpa [jumpParks] using ih

theorem jumpAccs_done (f : Nat → Lane) (ls : List Nat) : jumpAccs (ls.map (fun l => (l, JumpRes.done (f l)))) = [] := by
  induction ls with
  | nil => rfl
  | cons l ls ih => simpa [jumpAccs] using ih

theorem jumpAccs_fail (f : Nat → Fail) (ls : List Nat) : jumpAccs (ls.map (fun l => (l, JumpRes.fail (f l)))) = [] := by
  induction ls with
  | nil => rfl
  | cons l ls ih => simpa [jumpAccs] using ih

theorem sendStack_nil (s : State) (x : Issue) (b : Bool) : s.sendStack x b [] = s := rfl

theorem laneBit_bit (k l : Nat) (hk : k < 32) : (laneBit k).getLsbD l = decide (l = k) := by
  by_cases hl : l < 32
  · unfold laneBit; rw [BitVec.getLsbD_ofNat, Nat.testBit_two_pow]; simp [hl, Nat.mod_eq_of_lt hk, eq_comm]
  · rw [BitVec.getLsbD_of_ge _ _ (Nat.le_of_not_lt hl)]; simp; omega

theorem onLanes_lanes_length (g : Group) (m : Word) (f) : (g.onLanes m f).lanes.length = g.lanes.length := by
  simp [Group.onLanes, Group.mapLanes, length_mapFrom]

theorem onLanes_lane (g : Group) (m : Word) (f : Lane → Lane) (l : Nat) (hl : l < g.lanes.length) :
    (g.onLanes m f).lane l = if m.getLsbD l then f (g.lane l) else g.lane l := by
  rw [Group.onLanes, lane_mapLanes _ _ _ hl]

theorem jumpMoves_done (g : Group) (f : Nat → Lane) (ls : List Nat) (hls : ∀ l ∈ ls, l < 32) :
    let g' := jumpMoves g (ls.map (fun l => (l, JumpRes.done (f l))))
    g'.lanes.length = g.lanes.length ∧ (∀ l, l < g.lanes.length → g'.lane l = if l ∈ ls then f l else g.lane l) ∧ { g' with lanes := g.lanes } = g := by
  induction ls generalizing g with
  | nil => simp [jumpMoves]
  | cons k ks ih =>
    obtain ⟨h1, h2, h3⟩ := ih (g.onLanes (laneBit k) (fun _ => f k)) (fun l hl => hls l (by simp [hl]))
    dsimp only at *
    simp only [List.map_cons, jumpMoves]
    rw [onLanes_lanes_length] at h1 h2
    refine ⟨h1, fun l hl => ?_, ?_⟩
    · rw [h2 l hl, onLanes_lane _ _ _ _ hl, laneBit_bit k l (hls k (by simp))]
      by_cases hlk : l = k
      · subst hlk; simp
      · simp [hlk]
    · have e : ∀ (q r : Group), { q with lanes := r.lanes } = r → { q with lanes := g.lanes } = { r with lanes := g.lanes } := by
        intro q r h; rw [← h]
      rw [e _ _ h3]; rfl

theorem jump_done (s : State) (x : Issue) (hx : s.grp? x.gid = some x.g) (j : Group → Nat → Jump) (f : Nat → Lane)
    (h : ∀ l, l < 32 → x.act.getLsbD l = true → s.jumpLane x.g x.pc l (j x.g l) = (.done (f l), s)) :
    ∃ g', OnlyGroup s (jump j x s) x.gid g' ∧ Moved x g' f := by
  have hl32 : ∀ l ∈ lanesOf x.act, l < 32 := by
    intro l hl; rw [mem_lanesOf] at hl; by_contra hc; rw [BitVec.getLsbD_of_ge _ _ (Nat.le_of_not_lt hc)] at hl; exact absurd hl (by decide)
  have hj := jumpLanes_done s x.g x.pc (j x.g) f (lanesOf x.act) (fun l hl => h l (hl32 l hl) ((mem_lanesOf _ _).1 hl))
  have e : jump j x s = s.updGrp x.gid (fun g => (jumpMoves g ((lanesOf x.act).map (fun l => (l, JumpRes.done (f l))))).advance (x.run &&& ~~~x.act)) := by
    unfold jump; rw [hj]; simp only [jumpFails_done, jumpParks_done, jumpAccs_done, sendStack_nil]; rfl
  obtain ⟨h1, h2, h3⟩ := jumpMoves_done x.g f (lanesOf x.act) hl32
  refine ⟨_, e ▸ onlyGroup_updGrp s x.gid x.g _ hx, ?_, fun l hl => ?_, ?_⟩
  · unfold Group.advance; rw [onLanes_lanes_length]; exact h1
  · unfold Group.advance; rw [onLanes_lane _ _ _ _ (by rw [h1]; exact hl), h2 l hl]
    simp only [mem_lanesOf, BitVec.getLsbD_and, BitVec.getLsbD_not]
    by_cases ha : x.act.getLsbD l = true
    · simp [ha]
    · have ha' : x.act.getLsbD l = false := by simpa using ha
      have hm : (x.run.getLsbD l && (decide (l < 32) && !x.act.getLsbD l)) = x.run.getLsbD l := by
        rw [ha']
        by_cases hl' : l < 32
        · simp only [decide_eq_true hl', Bool.not_false, Bool.and_self, Bool.and_true]
        · rw [BitVec.getLsbD_of_ge x.run l (Nat.le_of_not_lt hl')]; rfl
      rw [hm, ha']; rfl
  · exact h3

theorem jumpLanes_fail (s : State) (g : Group) (pc : DWord) (j : Nat → Jump) (f : Nat → Fail) (ls : List Nat)
    (h : ∀ l ∈ ls, s.jumpLane g pc l (j l) = (.fail (f l), s)) : s.jumpLanes g pc j ls = (ls.map (fun l => (l, .fail (f l))), s) := by
  induction ls with
  | nil => rfl
  | cons l ls ih =>
    simp only [State.jumpLanes, h l (by simp), ih (fun l hl => h l (by simp [hl])), List.map_cons]

theorem jumpFails_fail (f : Nat → Fail) (ls : List Nat) : jumpFails (ls.map (fun l => (l, JumpRes.fail (f l)))) = ls.map f := by
  induction ls with
  | nil => rfl
  | cons l ls ih => simpa [jumpFails] using ih

theorem jumpParks_fail (f : Nat → Fail) (ls : List Nat) : jumpParks (ls.map (fun l => (l, JumpRes.fail (f l)))) = [] := by
  induction ls with
  | nil => rfl
  | cons l ls ih => simpa [jumpParks] using ih

theorem jumpMoves_fail (g : Group) (f : Nat → Fail) (ls : List Nat) : jumpMoves g (ls.map (fun l => (l, JumpRes.fail (f l)))) = g := by
  induction ls with
  | nil => rfl
  | cons l ls ih => simpa [jumpMoves] using ih

theorem causes_const (c : Nat) (fs : List Fail) (h : ∀ f ∈ fs, f.cause = c) (acc : List Nat) (ha : acc = [] ∨ acc = [c]) :
    causesOf fs acc = if fs = [] then acc else [c] := by
  induction fs generalizing acc with
  | nil => rcases ha with rfl | rfl <;> rfl
  | cons f fs ih =>
    have hf := h f (by simp)
    simp only [causesOf, hf]
    rcases ha with rfl | rfl
    · rw [if_neg (by simp), ih (fun f hf => h f (by simp [hf])) _ (Or.inr rfl)]; simp
    · rw [if_pos (by simp), ih (fun f hf => h f (by simp [hf])) _ (Or.inr rfl)]; simp

theorem maskOf_lanesOf (m : Word) : maskOf (lanesOf m) = m := by
  apply BitVec.eq_of_getLsbD_eq; intro l hl
  rw [Bool.eq_iff_iff, mem_maskOf _ _ hl]
  constructor
  · rintro ⟨k, hk, h⟩
    rw [mem_lanesOf] at hk
    have : k < 32 := by by_contra hc; rw [BitVec.getLsbD_of_ge _ _ (Nat.le_of_not_lt hc)] at hk; exact absurd hk (by decide)
    rw [Nat.mod_eq_of_lt this] at h; exact h ▸ hk
  · intro h; exact ⟨l, (mem_lanesOf _ _).2 h, Nat.mod_eq_of_lt hl⟩

theorem lanesOf_ne (m : Word) (h : m ≠ 0) : lanesOf m ≠ [] := by
  intro e; apply h; rw [← maskOf_lanesOf m, e]; rfl

theorem jump_fail (s : State) (x : Issue) (ha : x.act ≠ 0) (j : Group → Nat → Jump) (cause : Nat) (addr : DWord)
    (h : ∀ l, l < 32 → x.act.getLsbD l = true → s.jumpLane x.g x.pc l (j x.g l) = (.fail { lane := l, cause := cause, addr := addr }, s)) :
    jump j x s = (s.updGrp x.gid (fun g => g.advance (x.run &&& ~~~x.act))).queueTrap x.gid (x.trap s cause x.act x.act addr) := by
  have hl32 : ∀ l ∈ lanesOf x.act, l < 32 := by
    intro l hl; rw [mem_lanesOf] at hl; by_contra hc; rw [BitVec.getLsbD_of_ge _ _ (Nat.le_of_not_lt hc)] at hl; exact absurd hl (by decide)
  have hj := jumpLanes_fail s x.g x.pc (j x.g) (fun l => { lane := l, cause := cause, addr := addr }) (lanesOf x.act) (fun l hl => h l (hl32 l hl) ((mem_lanesOf _ _).1 hl))
  unfold jump; rw [hj]
  simp only [jumpFails_fail, jumpParks_fail, jumpMoves_fail, jumpAccs_fail, sendStack_nil]
  have hne := lanesOf_ne _ ha
  have hmne : (lanesOf x.act).map (fun l => ({ lane := l, cause := cause, addr := addr } : Fail)) ≠ [] := by simpa using hne
  unfold Issue.failAll
  rw [causes_const cause _ (by simp) [] (Or.inl rfl), if_neg hmne]
  simp only [List.foldl_cons, List.foldl_nil]
  have hf : ((lanesOf x.act).map (fun l => ({ lane := l, cause := cause, addr := addr } : Fail))).filter (fun f => f.cause == cause) = (lanesOf x.act).map (fun l => ({ lane := l, cause := cause, addr := addr } : Fail)) := by
    rw [List.filter_eq_self]; simp
  rw [hf]
  have hm : maskOf (((lanesOf x.act).map (fun l => ({ lane := l, cause := cause, addr := addr } : Fail))).map (·.lane)) = x.act := by
    rw [List.map_map]
    have : ((fun (f : Fail) => f.lane) ∘ fun l => ({ lane := l, cause := cause, addr := addr } : Fail)) = id := rfl
    rw [this, List.map_id, maskOf_lanesOf]
  rw [hm, ite_self]
  have hh : (((lanesOf x.act).map (fun l => ({ lane := l, cause := cause, addr := addr } : Fail))).headD ⟨0, 0, 0, 0⟩).addr = addr ∧
      (((lanesOf x.act).map (fun l => ({ lane := l, cause := cause, addr := addr } : Fail))).headD ⟨0, 0, 0, 0⟩).detail = 0 := by
    cases hl : lanesOf x.act with
    | nil => exact absurd hl hne
    | cons a b => simp
  rw [hh.1, hh.2]; rfl

theorem allWaiting_iff (g : Group) (n : Nat) : g.allWaiting n (mget 0 g.b n) = true ↔
    ∀ l, l < 32 → (mget 0 g.b n).getLsbD l = true → (g.lane l).st = .rejoin n := by
  unfold Group.allWaiting Group.lanesWhere
  rw [beq_iff_eq]
  constructor
  · intro h l hl hb
    have := congrArg (fun (w : Word) => w.getLsbD l) h
    simp only [BitVec.getLsbD_and, BitVec.getLsbD_not, hb, getLsbD_maskWhere _ _ hl, decide_eq_true hl, Bool.true_and] at this
    simpa using this
  · intro h
    apply BitVec.eq_of_getLsbD_eq; intro l hl
    rw [BitVec.getLsbD_and, BitVec.getLsbD_not, getLsbD_maskWhere _ _ hl]
    cases hb : (mget 0 g.b n).getLsbD l
    · simp
    · simp [h l hl hb]

end Sys2Proof.Machine
end

