-- ==== Sys2Proof/Tests/Slice0.lean ====
section
/-! SUPPORT. Tests/Slice0.lean: small tests of decoding, of single steps and of well-formedness, with expected results worked out by hand
from the manual, and for each statement of Certificates/Slice0 states and operands that meet its hypotheses. -/

namespace Sys2Proof.Tests

open Machine

/-! ### A small machine -/

def h : Hdr := ⟨.all, 0, false, false, 0⟩
def hu : Hdr := ⟨.all, 0, true, false, 0⟩
/-- Context 1: a heap window that maps its first 512 GiB to the same keys. -/
def ctx1 : Ctx := { hwLimit := 2 ^ 39, hwPerm := 7, loaded := true, live := true, trapent := 0x4000 }
/-- A group of 32 lanes at 0x1000. -/
def grp1 : Group := { ctx0 := 1, ctx := 1, launch := 1, gang := 2, lanes := List.replicate 32 { pc := 0x1000 }, nregs := 64, sregs := 64,
                      v := [(64, 0xFFFFFFFF), (65, 5), (96, 1), (97, 7)], sc := [(4, 0x1000), (8, 0x80)], p := [(2, 0x3)] }
/-- A sequencer at 0x2000. -/
def seq1 : Group := { isSeq := true, ctx0 := 1, ctx := 1, launch := 1, gang := 2, lanes := [{ pc := 0x2000 }], nregs := 0, sregs := 64 }
/-- Group 3 of one team, and the sequencer of its gang as group 4. -/
def base : State :=
  { now := 100, clk := 50, ctxs := [(1, ctx1)], launches := [(1, { ctx := 1, started := 1 })],
    gangs := [(2, { ctx := 1, launch := 1, seq := some 4, teams := [{ scratch := 65536 }] })],
    groups := [(3, grp1), (4, seq1)], nextId := 10 }
/-- `base` with group 3 changed by `f`, all its lanes issuing. -/
def lanesAt (f : Group → Group) : State :=
  { base.updGrp 3 f with cur := some { gid := 3, run := BitVec.allOnes 32, pc := 0x1000, word0 := 0x1E00 } }
def demo : State := lanesAt id
/-- `base` with the sequencer issuing. -/
def demoSeq : State := { base with cur := some { gid := 4, run := 1, pc := 0x2000 } }
/-- Instruction `i` passes the checks of its issue, which meets `p`. -/
def go (s : State) (i : Instr) (helpers : Bool) (p : Issue → Bool := fun _ => true) : Bool :=
  match s.issueOf i helpers with
  | .go x => p x
  | _ => false
/-- The state after instruction `i`, or after a stop the state before it. -/
def after (s : State) (i : Instr) : State :=
  match exec i s with
  | .next t => t
  | _ => s
/-- Register `vk` of lane `l` of group 3. -/
def rv (s : State) (k l : Nat) : Word := ((s.grp? 3).map (fun g => vReg g k l)).getD 0xDEAD
/-- Group 3, or the sequencer. -/
def g3 (s : State) : Group := (s.grp? 3).getD {}
def gOfId (s : State) (k : Nat) : Group := (s.grp? k).getD {}
def g4 (s : State) : Group := (s.grp? 4).getD {}
def translatesB (s : State) (g : Group) (va : DWord) (need : Need) (key : Nat) (lk mg : Bool) : Bool :=
  s.lookup (dieOf g.cluster) g.ctx va need == .hit key lk mg &&
    ((mget {} s.ctxs g.ctx).inWindow va.toNat || (match s.walk g.ctx va need with | .leaf l => l.key + (va.toNat - l.base) == key && l.lockok == lk | _ => false))
def loadDesc : MemDesc := { kind := .load, ty := .b32, width := 4, dst := some (.v 4), cls := some .ld, pc := 0x1000, run := BitVec.allOnes 32, act := 1 }
def loadOp (a : Acc) : Op := { gid := 3, cls := some .ld, ctx := 1, kind := .mem loadDesc [a] }
def storeDesc : MemDesc := { kind := .store, ty := .b32, width := 4, cls := some .st, pc := 0x1000, run := BitVec.allOnes 32, act := 1 }
def storeOp (a : Acc) : Op := { gid := 3, cls := some .st, ctx := 1, kind := .mem storeDesc [a] }

/-- A unit's read and write for context 1 that are performed at once, and one that fails. -/
def reading (s : State) (tag : Nat × Nat) (va : DWord) (n : Nat) : Option (Nat × State) :=
  match s.svcAccess tag none 1 va n none with
  | (.ok v _, t) => some (v, t)
  | _ => none
def writing (s : State) (tag : Nat × Nat) (va : DWord) (n v : Nat) : Option State :=
  match s.svcAccess tag none 1 va n (some v) with
  | (.ok _ _, t) => some t
  | _ => none
def failing? (s : State) (tag : Nat × Nat) (va : DWord) (n : Nat) : Bool :=
  match s.svcAccess tag none 1 va n none with
  | (.fail _, _) => true
  | _ => false
/-! ### Words written out from Tables 6-1 to 6-4: SCH, EXT, MOD, C, B, A, D, GN, GP, opcode -/

theorem test_decode_lane_arithmetic :
    decode false 0b00000000_000000000000000000_0010000010000000_0000000000_1111011111_0000000101_0000000010_1_0011_000011111 =
      .ok (.icmp ⟨.pred 3 true, 0, false, false, 0⟩ .lt .u32 2 (.v 5) (.c (-1))) ∧
    decode false 0b00000000_000000000000000000_0000001111100000_0000000000_0000000100_0000000010_0000000110_0_1111_001000000 =
      .ok (.fadd h .f64 .rp false false (.v 6) (.v 2) (.v 4)) ∧
    decode false 0b00000000_000000000000000000_0000011110001000_0000000100_0000000011_0000000010_0000000001_0_1111_010000101 =
      .ok (.dot4 h .s8 true false (.v 1) (.v 2) (.v 3) (.v 4)) := by decide

theorem test_decode_lane_control :
    decode false 0b00000000_000000000000000000_0001000000000100_0000000000_0000000000_0000000010_0000000001_0_1111_010100001 =
      .ok (.qswp h .x2 .b32 true (.v 1) (.v 2)) ∧
    decode false 0b00000000_000000111111111111_0000000000000000_1111111111_1111111110_0000000000_0000000000_0_1111_011000010 =
      .ok (.call h 0xFFFFFFFE) ∧
    decode false 0b00000000_000000000000000000_0000000000000000_0000000000_0000010000_0000000000_0000000000_0_1111_011100001 =
      .ok (.shrink h 16) ∧
    decode false 0b00100000_000000000000000000_0000000000000000_0000000000_0000001011_0000000000_1000000010_0_1111_011100010 =
      .ok (.rdsr hu (.s 2) .clock) := by decide

theorem test_decode_memory :
    decode false 0b00000000_000011111111111111_0000001000000000_1111111000_0000001000_0000000111_0000000000_0_1111_100000011 =
      .ok (.sts h .b64 (.v 7) (.v 8) 0xFFFFF8) ∧
    decode false 0b00000000_000000000000000001_1000000000000000_0000000000_0000000000_1000000110_0000000011_0_1111_100010000 =
      .ok (.lblrd h true (.v 3) (.s 6) 0x400) ∧
    decode false 0b00000000_000000000000000000_0000000000000000_0000000000_0000010000_1000001000_0000000100_0_1111_101000000 =
      .ok (.qenq h 4 (.s 8) (.v 16)) ∧
    decode false 0b00000000_000000000000000000_0000000000000000_0001000000_0000000000_1000001001_0000000000_0_1111_101100000 =
      .ok (.cpy h (.s 9) 64) ∧
    decode false 0b00000000_000000000000000000_0000000000000000_1000001000_1000000110_1000000100_0000000010_0_1111_101100110 =
      .ok (.mrslt h (.v 2) (.s 4) (.s 6) (.s 8)) := by decide

theorem test_decode_tiles_gates_trace :
    decode false 0b00000000_000000000000000000_0000000000000000_0000000000_0000000000_0000000000_0000110111_0_1111_110000000 =
      .ok (.topen h 55) ∧
    decode false 0b00000000_000000111111111111_0000000000000000_0000000000_0000000000_0000000000_0101111111_0_1111_110110000 =
      .ok (.gcall h 383 4095) ∧
    decode false 0b00000000_000000100000000000_0000000000000000_0000000000_0000000001_1000000011_0000000000_0_1111_111000000 =
      .ok (.trmark h (.s 3) 0x80000001) := by decide

theorem test_decode_sequencer :
    decode true 0b00000000_000000000000000000_0000000000000100_0000000000_0000101000_0000100000_0000110000_0_1111_110010111 =
      .ok (.mmai8 h .core3 48 32 40) ∧
    decode true 0b00000000_000000000000000000_0000000000000000_0000000000_0000000100_0000000010_0000110000_0_1111_110100000 =
      .ok (.twait h 48 2 4) ∧
    decode true 0b00000000_000000000000000000_0000000000000000_0001111111_0000000000_1000000001_0000000111_0_1111_110100010 =
      .ok (.sqwait h 7 (.s 1) (some 63)) := by decide


/-! ### Ill-formed terms, one for each check of WellFormed.lean -/

/-- Register ranges (Table 6-4), constants, and the alignment of pairs and quads (R105, R107). -/
theorem test_refuses_operands : ([.iadd h .u32 false false (.v 512) (.v 1) (.v 2), .iadd h .u32 false false (.v 1) (.s 384) (.v 2),
    .iadd h .u32 false false (.v 1) (.v 1) (.c 32), .iadd h .u32 false false (.v 1) (.v 1) (.c (-33)),
    .iadd h .u64 false false (.v 1) (.v 2) (.v 4), .qstat h (.v 2) (.s 4), .iadd h .u32 false false (.c 1) (.v 1) (.v 2),
    .movi h (.c 1) 0, .qenq h 0 (.v 2) (.v 4), .ld h false .b32 .device .none .ca (.v 1) .z 0,
    .iadd h .u32 false false (.s 1) (.v 1) (.v 2)] : List Instr).all (fun i => !i.wf false) = true := by decide
/-- Predicates, guards and the scheduling byte (R103, R104, R106). -/
theorem test_refuses_headers : ([.icmp h .eq .u32 16 (.v 1) (.v 2), .nop ⟨.pred 15 true, 0, false, false, 0⟩, .nop ⟨.all, 4, false, false, 0⟩,
    .nop ⟨.all, 0, false, false, 16⟩, .bra hu 0, .iadd hu .u32 false false (.s 1) (.v 1) (.s 2)] : List Instr).all (fun i => !i.wf false) = true := by
  decide
/-- Modifiers (R91, R123–R126, R165–R169, R195–R203, R285). -/
theorem test_refuses_modifiers : ([.iadd h .f32 false false (.v 1) (.v 2) (.v 3), .icmp h .num .u32 0 (.v 1) (.v 2),
    .fadd h .e4m3 .rn false false (.v 1) (.v 2) (.v 3), .cvt h .f32 .f32 .rn false false false (.v 1) 0 (.v 2) 0,
    .cvt h .e4m3 .f32 .rn false false false (.v 1) 0 (.v 2) 0, .cvt h .e2m1 .f32 .rn false false true (.v 1) 0 (.v 2) 0,
    .cvt h .e8m0 .f32 .rn true false false (.v 1) 0 (.v 2) 0, .cvt h .f16 .f32 .rn false false false (.v 1) 2 (.v 2) 0,
    .pack h .f32 .f32 .rn false false false (.v 1) (.v 2) (.v 3) 0, .qpack h .f16 .f32 .rn false false false (.v 1) (.v 2) 0,
    .dot8 h .s8 false false (.v 1) (.v 2) (.v 3) (.v 4), .vote h .ballot false (.pred 1) 2, .enrol h 16, .grow h true 0 12, .grow h true 0 520,
    .ld h false .b32 .device .rel .ca (.v 1) (.v 2) 0, .st h false .b32 .device .acq .ca (.v 1) (.v 2) 0,
    .ld h false .b32 .cluster .none .ca (.v 1) (.v 2) 0, .atom h false .min .b32 .device .none (.v 1) (.v 2) (.v 3) 0, .wait h 64 0 0 0 0,
    .tstat h (.v 1) 56 0, .gcall h 0 4096, .ccvt h true .f32 .all 0 48 .f32] : List Instr).all (fun i => !i.wf false) = true := by decide
/-- What sequencer code may not hold (R111), and what only it may (R110). -/
theorem test_refuses_units : ([.iadd h .u32 false false (.v 1) (.s 1) (.s 2), .iadd h .u32 false false (.s 64) (.s 1) (.s 2),
    .icmp h .eq .u32 4 (.s 1) (.s 2), .nop ⟨.pred 4 false, 0, false, false, 0⟩, .wait h 1 0 0 0 0, .tstat h (.s 1) 0 4] : List Instr).all
      (fun i => !i.wf true) = true ∧
    (Instr.sqwait h 0 (.v 1) (some 2)).wf false = false ∧ (Instr.tstat h (.v 1) 0 1).wf false = false ∧
    (Instr.czero h .all 48).unitAllows false = false ∧ (Instr.exit h).unitAllows true = (Instr.exit h).inSeq ∧
    (Instr.ld h false .b32 .device .none .ca (.v 1) (.v 2) 0).unitAllows true = false ∧ (Instr.deviceReset).wf false = false := by decide

/-! ### Witnesses: states and operands that meet the hypotheses of the statements -/

/-- All of `is` pass the checks of their issue, with lanes in Active. -/
def allGo (s : State) (helpers : Bool) (is : List Instr) : Bool := is.all (fun i => go s i helpers (fun x => x.act != 0))

/-- IssueChecks: a group and an instruction whose operands fit its 64 vector and 64 scalar registers, at the last one. -/
theorem witness_IssueChecks_fits :
    let i : Instr := .iadd ⟨.pred 2 false, 0, false, false, 0⟩ .u32 false false (.v 63) (.v 63) (.s 63)
    demo.cur = some { gid := 3, run := BitVec.allOnes 32, pc := 0x1000, word0 := 0x1E00 } ∧ demo.grp? 3 = some grp1 ∧
    i.hdr = some ⟨.pred 2 false, 0, false, false, 0⟩ ∧ grp1.helper = 0 ∧
    i.opers.all (fun u => match u.o with | .v k => decide (k + u.w ≤ grp1.nregs) | .s k => decide (k + u.w ≤ grp1.sregs) | _ => true) = true ∧
    (List.range 32).all (fun l => (grp1.poisonRead i.opers l).isNone) = true := by decide
/-- IssueChecks: the second operand is the first beyond the registers, of either kind. -/
theorem witness_IssueChecks_range :
    (Instr.iadd h .u32 false false (.v 63) (.v 64) (.v 99)).opers =
      [⟨.d, .v 63, 1, .any, true, false⟩] ++ ⟨.a, .v 64, 1, .any, false, true⟩ :: [⟨.b, .v 99, 1, .any, false, true⟩] ∧
    (Instr.iadd h .u32 false false (.v 63) (.s 64) (.v 99)).opers =
      [⟨.d, .v 63, 1, .any, true, false⟩] ++ ⟨.a, .s 64, 1, .any, false, true⟩ :: [⟨.b, .v 99, 1, .any, false, true⟩] ∧
    63 + 1 ≤ grp1.nregs ∧ 64 + 1 > grp1.nregs ∧ 64 + 1 > grp1.sregs := by decide
/-- IssueChecks: lane 31 reads a poisoned register. -/
def poisoned : State := lanesAt (fun g => { g with poison := [(32 * 2 + 31, ⟨0x5000, 3⟩)] })
theorem witness_IssueChecks_poison :
    ((g3 poisoned).poisonRead (Instr.iadd h .u32 false false (.v 4) (.v 2) (.v 3)).opers 31).isSome = true ∧
    (match poisoned.issueOf (.iadd h .u32 false false (.v 4) (.v 2) (.v 3)) true with | .trap g t => g == 3 && t.mask == 0x80000000 | _ => false) = true := by
  decide

/-- The instructions of chapters 10 that write a register execute in `demo`, and those of sequencer code in `demoSeq`. -/
theorem witness_AddAndMultiply :
    allGo demo true [.iadd h .s32 true true (.v 4) (.v 2) (.v 3), .isub h .u32 true false (.v 4) (.v 2) (.s 4), .iadd3 h .s64 true false (.v 4) (.v 2) (.v 2) (.c (-1)),
      .imad h .s32 true false (.v 4) (.v 2) (.v 3) (.v 63), .imul h .u64 false (.v 4) (.v 2) (.v 2), .imulh h .s32 true (.v 4) (.v 2) (.v 3),
      .imadw h .s32 false (.v 4) (.v 2) (.v 3) (.v 6)] = true ∧
    allGo demoSeq true [.iadd h .u32 false false (.s 0) (.s 63) (.c 31)] = true := by decide
theorem witness_CarriesAndConditions :
    allGo demo true [.iaddc h .u32 false (.v 4) (.v 2) (.v 3) 2 14, .iaddc hu .u32 false (.s 4) (.s 5) (.s 6) 15 15, .icmp h .ge .s64 14 (.v 2) (.v 4),
      .isel h .b32 true (.v 4) (.v 2) (.v 3) 15] = true := by decide
theorem witness_DivideAndCompare :
    allGo demo true [.idiv h .s32 false (.v 4) (.v 2) .z, .irem h .u32 false (.v 4) (.v 2) (.v 3), .imin h .s32 false (.v 4) (.v 2) (.v 3),
      .imax h .u64 false (.v 4) (.v 2) (.v 2), .iabs h .s32 true false (.v 4) (.v 2), .ineg h .s32 true false (.v 4) (.v 2),
      .isad h .u32 false (.v 4) (.v 2) (.v 3) (.c 5)] = true := by decide
theorem witness_BitwiseOperations :
    allGo demo true [.andB h .b32 false (.v 4) (.v 2) (.v 3), .orB h .b64 false (.v 4) (.v 2) (.v 2), .xorB h .b32 true (.v 4) (.v 2) (.v 3),
      .notB h .b32 false (.v 4) (.v 2), .logt h .b32 false (.v 4) (.v 2) (.v 3) (.s 1) 0xE8, .popc h .b64 false (.v 4) (.v 2), .clz h .b32 false (.v 4) .z,
      .ffs h .b32 false (.v 4) (.v 2), .brev h .b64 false (.v 4) (.v 2)] = true ∧
    (0xFFFFFFFF < 2 ^ 32 ∧ (0xFFFFFFFF : Nat) ≠ 0 ∧ (0x80000000 : Nat).testBit 31 = true ∧ ∀ k, k < 31 → (0x80000000 : Nat).testBit k = false) := by
  decide
theorem witness_ShiftsAndFields :
    allGo demo true [.shl h .u32 false (.v 4) (.v 2) (.c 31), .shr h .u32 false (.v 4) (.v 2) (.v 3), .shr h .s64 false (.v 4) (.v 2) (.v 3),
      .rot h .b32 false (.v 4) (.v 2) (.v 3), .catsh h false (.v 4) (.v 2) (.v 3) (.c 31), .bfx h .s32 false (.v 4) (.v 2) (.v 3),
      .bfi h false (.v 4) (.v 2) (.v 3) (.v 5)] = true ∧
    Ty.u32.signed = false ∧ Ty.s64.signed = true ∧ 31 < 32 ∧ (2 ^ 32 - 1 < 2 ^ 32) ∧ min (0x2000 / 256 % 256) 32 = 32 ∧ min (0x1F / 256 % 256) 32 = 0 := by decide
theorem witness_AddressesAndMoves :
    allGo demo true [.lea h .u64 false (.v 4) (.v 2) (.v 3) 31, .movi h (.v 4) 0xFFFFFFFF, .mov h .b64 true (.v 4) (.v 2),
      .prmb h false (.v 4) (.v 2) (.v 3) (.v 5)] = true := by decide

theorem witness_RoundedArithmetic :
    allGo demo true [.fadd h .f32 .rm true false (.v 4) (.v 2) (.v 3), .fsub h .f64 .rp false false (.v 4) (.v 2) (.v 2), .fmul h .f16 .rz false true (.v 4) (.v 2) (.v 3),
      .ffma h .f32 .rn false false (.v 4) (.v 2) (.v 3) (.c 1)] = true ∧
    (0 < 1 ∧ 3 % 2 ^ 1 ≠ 0 ∧ 4 % 2 ^ 1 = 0 ∧ 2 * (3 % 2 ^ 1) = 2 ^ 1) ∧ (fval .f32 0x7FC00000).isNaN = true ∧ fval .f32 0x7F800001 = .nan true := by decide
/-- 3 − 1 is a positive number and 1 − 3 a negative one. -/
theorem witness_RoundedArithmetic_sums :
    (∃ v : ℝ, 0 < v ∧ ((ratOf (.fin false 3 0) + ratOf (.fin true 1 0) : ℚ) : ℝ) = (if false then -v else v)) ∧
    (∃ v : ℝ, 0 < v ∧ ((ratOf (.fin false 1 0) - ratOf (.fin false 3 0) : ℚ) : ℝ) = (if true then -v else v)) ∧
    ratOf (.fin false 3 0) + ratOf (.fin true 3 0) = 0 := by
  refine ⟨⟨2, ?_, ?_⟩, ⟨2, ?_, ?_⟩, ?_⟩ <;> norm_num [ratOf]
theorem witness_FloatCompare :
    allGo demo true [.fmin h .f32 false false (.v 4) (.v 2) (.v 3), .fmax h .f64 false true (.v 4) (.v 2) (.v 2), .fcmp h .nan .f32 true 14 (.v 2) (.v 3)] = true ∧
    ((fval .f32 0x7FC00000).isNaN = true ∧ (fval .f32 0x3F800000).isNaN = false ∧ fval .f32 0x7F800001 = .nan true ∧
      fcmpV (fval .f32 0x3F800000) (fval .f32 0x40000000) < 0 ∧ fcmpV (fval .f32 0x80000000) (fval .f32 0) = 0 ∧
      (fval .f32 0x80000000).isNeg = true ∧ (fval .f32 0).isNeg = false) := by decide
theorem witness_FloatCompare_flush : isSubnormal .f32 (grp1.opndT .f32 (.v 3) 0) = true ∧ isSubnormal .f32 (grp1.opndT .f32 (.c 1) 0) = false := by decide
theorem witness_FloatingFunctions :
    allGo demo true [.fdiv h .f32 .rn false false (.v 4) (.v 2) (.v 3), .fsqrt h .f64 .rn false false (.v 4) (.v 2), .frcp h .f32 .rn false false false (.v 4) (.v 2),
      .frsq h .f32 .rn false false true (.v 4) (.v 2), .frnd h .f32 .rp false false (.v 4) (.v 2), .fscale h .f32 .rn false false (.v 4) (.v 2) (.v 3),
      .fclass h .bf16 false (.v 4) (.v 2), .fdot2 h .f16 .rn false (.v 4) (.v 2) (.v 3) (.v 5), .fexp2 h true false (.v 4) (.v 2), .flog2 h false false (.v 4) (.v 2),
      .fsin h false false (.v 4) (.v 2), .fcos h false true (.v 4) (.v 2), .ftanh h false false (.v 4) (.v 2)] = true ∧
    (fval .f32 0x3FC00000 = .fin false 0xC00000 (-23) ∧ [SpFn.exp2, .log2, .sin, .cos, .tanh, .rcp, .rsq].all (fun fn =>
      (spSpecial fn (.fin false 0xC00000 (-23))).isNone && (spExact fn false 0xC00000 (-23)).isNone) = true) ∧
    (fvalZ false .f32 0xBFC00000 = .fin true 0xC00000 (-23) ∧ fval .f32 0xFF800000 = .inf true ∧ fval .f32 0x7F800001 = .nan true) ∧
    (fval .f16 (0x3C00BC00 / 2 ^ (16 * 0) % 2 ^ 16) = .fin true 1024 (-10) ∧ fval .f16 (0x3C00BC00 / 2 ^ (16 * 1) % 2 ^ 16) = .fin false 1024 (-10) ∧
      (fval .f16 (0x7E00 / 2 ^ (16 * 0) % 2 ^ 16)).isNaN = true) ∧
    (fval .f32 0x40800000 = .fin false (2 ^ 23) (-21) ∧ (23 + (-21 : Int)) % 2 = 0 ∧ -149 ≤ -((23 : Int) + -21) ∧ -((23 : Int) + -21) ≤ 127) := by decide
/-- An operand of EXP2 that is an integer, one of RCP.approx whose reciprocal is finite, and a dot product that is not 0. -/
theorem witness_FloatingFunctions_numbers :
    ratOf (.fin false (2 ^ 23) (-21)) = ((4 : Int) : ℚ) ∧ (2 : ℝ) ^ (-128 : Int) < ((0xC00000 : Nat) : ℝ) * 2 ^ (-23 : Int) ∧
    ratOf (.fin true 1024 (-10)) * ratOf (.fin true 1024 (-10)) + ratOf (.fin false 1024 (-10)) * ratOf (.fin false 1024 (-10)) = 2 := by
  refine ⟨?_, ?_, ?_⟩ <;> norm_num [ratOf, zpow_neg]
theorem witness_Conversions :
    allGo demo true [.cvt h .e4m3 .f32 .rn true false false (.v 4) 3 (.v 2) 0, .cvt h .f64 .f32 .rn false false false (.v 4) 0 (.v 2) 0,
      .pack h .bf16 .f32 .rn false false false (.v 4) (.v 2) (.v 3) 0, .unpk h .f32 .e2m1 false (.v 4) (.v 2) 3,
      .qpack h .e2m1 .f32 .rn true false false (.v 4) (.v 2) 1, .qunpk h .s32 .s4 true (.v 4) (.v 2) 1] = true ∧
    (Ty.e3m2.width < 32 ∧ 3 < Ty.e3m2.perReg ∧ (0 : Nat) ≠ 3) ∧
    (Ty.bf16.isFloat = true ∧ Ty.ieee .bf16 = true ∧ Ty.e2m1.isFloat = true ∧ Ty.s32.isFloat = false ∧ Ty.s32 ≠ .e8m0) ∧
    (fval .f32 0x3FC00000 = .fin false 0xC00000 (-23) ∧ fval .f32 0x80000000 = .fin true 0 (-149) ∧ fval .f32 0xFF800000 = .inf true ∧ fval .f32 0x7F800001 = .nan true) ∧
    (intVal .s32 0 = 0 ∧ intVal .s32 0xFFFFFFFF ≠ 0 ∧ intVal .s32 300 > intMax .u8 ∧ intVal .s32 0xFFFFFFFF < intMin .u8 ∧
      intMin .u8 ≤ intVal .s32 255 ∧ intVal .s32 255 ≤ intMax .u8 ∧ 0xFE % 256 ≠ 255 ∧ 0xFF % 256 = 255) ∧
    (Ty.u8.isUS = true ∧ Ty.s32.isUS = true ∧ Ty.e4m3.isFloat = true ∧ Ty.e4m3 ≠ .f64) := by decide
theorem witness_DotProducts :
    allGo demo true [.dot4 h .s8 true false (.v 4) (.v 2) (.v 3) (.v 5), .dot8 h .u4 false true (.v 4) (.v 2) (.v 3) (.s 5),
      .dots h .e2m1 false (.v 4) (.v 2) (.v 3) (.v 5) 3 0, .dots h .e4m3 false (.v 4) (.v 2) (.v 3) (.v 5) 0 3] = true ∧
    ((List.range 4).all (fun i => fval .e4m3 (element .e4m3 0x38383838 i) == .fin false 8 (-3)) = true ∧ (fval .e4m3 (element .e4m3 0x7F000000 3)).isNaN = true ∧
      3 < Ty.e4m3.perReg ∧ (0xFE : Nat) ≠ 0xFF ∧ fval .f32 0x3F800000 = .fin false 0x800000 (-23) ∧ fval .f32 0x7F800000 = .inf false ∧
      fval .f32 0x7F800001 = .nan true) := by decide

/-- ExchangesAndIndexes: indexes inside the window of 64 at its last register, and lane 5 the first beyond it. -/
def indexed : State := lanesAt (fun g => { g with v := (List.range 5).map (fun l => (64 + l, 63)) ++ [(69, 64)] })
/-- Every lane's index is 5, and v5 of lane 31 is poisoned. -/
def indexedPoison : State := lanesAt (fun g => { g with poison := [(32 * 5 + 31, ⟨0x5000, 3⟩)] })
theorem witness_ExchangesAndIndexes :
    allGo demo true [.lxch h .abs .b32 false (.v 4) (.v 2) (.v 3), .lxch h .rot .b64 false (.v 4) (.v 2) (.v 3), .lxch h .xor .b32 true (.v 4) (.v 2) (.c 5),
      .qswp h .x1 .b32 false (.v 4) (.v 2), .qswp h .x2 .b64 false (.v 4) (.v 2), .qswp h .x3 .b32 true (.v 4) (.v 2), .qbcst h .b32 false (.v 4) (.v 2) 3,
      .rdlane h .b32 false (.v 4) (.v 2) (.c 31), .wrlane h .b64 (.v 4) (.v 2) (.s 5)] = true ∧
    go demo (.xget h (.v 4) (.c 31) (.c 31)) true (fun x => (List.range 32).all (fun l => decide ((x.g.opnd (.c 31) 1 l + x.g.opnd (.c 31) 1 l) % 2 ^ 32 < x.g.nregs) &&
      (mfind x.g.poison (32 * 62 + l)).isNone)) = true ∧
    go demo (.xput h (.c 31) (.c 31) (.v 2)) true = true ∧
    go indexedPoison (.xget h (.v 4) (.c 5) .z) true (fun x => x.act.getLsbD 31 && x.run.getLsbD 31 && (mfind x.g.poison (32 * 5 + 31)).isSome &&
      decide ((x.g.opnd (.c 5) 1 31 + x.g.opnd .z 1 31) % 2 ^ 32 = 5 ∧ 5 < x.g.nregs)) = true ∧
    [Instr.xget h (.v 4) (.v 2) .z, .xput h (.v 2) .z (.v 3)].all (fun i => go indexed i true (fun x =>
      (List.range 5).all (fun l => decide (x.g.opnd (.v 2) 1 l < x.g.nregs)) && decide (x.g.opnd (.v 2) 1 5 ≥ x.g.nregs) && x.act.getLsbD 5 && x.run.getLsbD 5)) = true := by
  decide
theorem witness_VotesAndReductions :
    allGo demo true [.vote h .ballot true (.reg (.v 4)) 2, .vote h .all false (.pred 14) 2, .vote h .any false (.pred 1) 15, .vote h .eq false (.pred 1) 2,
      .matchLanes h .any .b32 false (.v 4) (.v 2), .matchLanes h .all .b64 true (.v 4) (.v 2), .gred h .add .u32 true (.v 4) (.v 2),
      .gred h .min .f32 false (.v 4) (.v 2), .gscan h .add .s64 false true (.v 4) (.v 2), .gscan h .max .f32 false false (.v 4) (.v 2)] = true ∧
    Ty.u64.isFloat = false := by decide

theorem witness_HintsAndPredicates :
    allGo demo false [.nop h, .pref h false .cg (.v 2) 0xFFFFFF, .yield h, .pset h 14 (.v 2) (.v 3), .pmov h false 2 (.v 4), .pmov h true 14 (.v 4)] = true ∧
    go demo (.yield ⟨.pred 3 false, 0, false, false, 0⟩) false (fun x => x.act == 0) = true ∧
    allGo (lanesAt (fun g => g.onLanes 0x8 (fun l => { l with st := .exited }))) true [.qhelp h true, .qhelp h false] = true ∧
    allGo demo false [.pmov hu true 1 (.s 4), .pmov hu false 15 (.s 4), .pset hu 1 (.s 1) (.s 2)] = true := by decide
/-- Lane 31 has a call stack deeper than its on-chip entries. -/
def deep : State := lanesAt (fun g => g.onLanes 0x80000000 (fun l => { l with depth := 5, stack := [0x1000, 0x1000, 0x1000, 0x1000] }))
theorem witness_SpecialRegisters :
    allGo demo false ([SReg.laneid, .quadid, .groupid, .teamid, .gangx, .gangy, .gangz, .ngangx, .ngangy, .ngangz, .active, .clock, .regtime, .ctime, .fpflags,
      .cstack, .args, .regs, .coreid, .clusterid, .ctxid, .trapinfo].map (fun r => Instr.rdsr h (.v 4) r)) = true ∧
    allGo demo false [.wrsr h (.s 4) .fpflags, .tqrd h (.v 4)] = true ∧
    go demo (.wrsr h (.s 4) .cstack) false (fun x => x.act != 0 && x.g.lanes.all (fun l => decide (l.depth ≤ 4))) = true ∧
    go deep (.wrsr h (.s 4) .cstack) false (fun x => x.act != 0 && x.g.lanes.any (fun l => decide (l.depth > 4))) = true ∧
    go (lanesAt (fun g => { g with trapq := [{ cause := 1, mask := 1, pc := 0x1000, run := 1 }] })) (.tqrd h (.v 4)) false = true := by decide

/-- Branches: stacks with a return address on chip, full stacks, and an address that is no code address. -/
def nested : State := lanesAt (fun g => g.onLanes (BitVec.allOnes 32) (fun l => { l with depth := 3, stack := [0x2000, 0x1000, 0x1000] }))
def full : State := lanesAt (fun g => g.onLanes (BitVec.allOnes 32) (fun l => { l with depth := 516, stack := [0x2000, 0x1000, 0x1000, 0x1000] }))
theorem witness_Branches :
    let all (x : Issue) (p : Nat → Bool) : Bool := x.act != 0 && (lanesOf x.act).all p
    go demo (.bra h 0xFFFFFFFF) false = true ∧
    [Instr.brx h (.s 4), .callx h (.s 4)].all (fun i => go demo i false (fun x => all x (fun l => validCode (BitVec.ofNat 64 (x.g.opnd (.s 4) 2 l)) &&
      decide ((x.g.lane l).depth < x.g.onChip)))) = true ∧
    [Instr.brx h (.s 8), .callx h (.s 8)].all (fun i => go (lanesAt (fun g => { g with sc := [(8, 0x1001)] })) i false (fun x =>
      !validCode 0x1001 && all x (fun l => BitVec.ofNat 64 (x.g.opnd (.s 8) 2 l) == 0x1001))) = true ∧
    go nested (.call h 5) false (fun x => all x (fun l => decide ((x.g.lane l).depth < x.g.onChip))) = true ∧
    go nested (.ret h) false (fun x => all x (fun l => decide ((x.g.lane l).depth ≤ x.g.onChip) && (x.g.lane l).stack == [0x2000, 0x1000, 0x1000] &&
      validCode 0x2000)) = true ∧
    go full (.call h 5) false (fun x => all x (fun l => decide ((x.g.lane l).depth ≥ x.g.maxDepth))) = true ∧
    go demo (.ret h) false (fun x => all x (fun l => (x.g.lane l).stack == [])) = true := by decide
/-- Spills and refills: lane 31 alone issues, its stack at its four on-chip entries and deeper; and a refill whose value has come. -/
def stackAt (depth : Nat) (b : Block := .none) : State :=
  lanesAt (fun g => { (g.onLanes 0x80000000 (fun l => { l with depth := depth, stack := [0x2000, 0x1000, 0x1000, 0x1000] })) with p := [(2, 0x80000000)], block := b })
def lane31 : Hdr := ⟨.pred 2 false, 0, false, false, 0⟩
theorem witness_Branches_spills :
    let entry (g : Group) (n : Nat) : DWord := BitVec.ofNat 64 (g.cstack.toNat + 4096 * 31 + 8 * n)
    let at_ (s : State) (x : Issue) (n : Nat) (need : Need) : Bool := translatesB s x.g (entry x.g n) need (4096 * 31 + 8 * n) false false
    [4, 515].all (fun d => go (stackAt d) (.call lane31 5) false (fun x => x.act == 0x80000000 && !x.g.isSeq && (x.g.lane 31).stack.length == 4 &&
      (x.g.lane 31).depth == d && at_ (stackAt d) x (d - 4) .w)) = true ∧
    [5, 516].all (fun d => go (stackAt d) (.ret lane31) false (fun x => x.act == 0x80000000 && !x.g.isSeq && x.g.block == .none &&
      (x.g.lane 31).depth == d && validCode 0x2000 && at_ (stackAt d) x (d - 5) .r)) = true := by decide
theorem witness_Branches_refilled :
    let m : MemDesc := { loadDesc with ty := .b64, width := 8, cls := none, dst := none }
    let o : Op := { gid := 3, cls := none, ctx := 1, kind := .mem m [{ lane := 31, va := 0x1F000, st := .done, res := 0x1000 }] }
    let s : State := { stackAt 5 (.stack 9 [(31, { pc := 0x2000 })]) with ops := [(9, o)] }
    mfind s.ops 9 = some o ∧ o.desc? = some m ∧ m.kind = .load ∧ (g3 s).block = .stack 9 [(31, { pc := 0x2000 })] ∧ (g3 s).lanes.length = 32 := by decide

/-- RejoinBarriers: lanes 0 and 1 enrolled and waiting at barrier 15; lane 2 enrolled at barrier 0 and running. -/
def rejoining : State := lanesAt (fun g => { (g.onLanes 0x3 (fun l => { l with st := .rejoin 15 })) with b := [(0, 0x4), (15, 0x3)] })
theorem witness_RejoinBarriers :
    allGo demo false [.enrol h 15, .leave h 0, .rejoin h 15] = true ∧ mget 0 (g3 rejoining).b 15 ≠ 0 ∧
    (List.range 32).all (fun l => !(mget 0 (g3 rejoining).b 15).getLsbD l || ((g3 rejoining).lane l).st == .rejoin 15) = true ∧
    mget 0 (g3 rejoining).b 0 ≠ 0 ∧ ((mget 0 (g3 rejoining).b 0).getLsbD 2 = true ∧ ((g3 rejoining).lane 2).st ≠ .rejoin 0) ∧
    mget 0 (g3 rejoining).b 7 = 0 := by decide

/-- LaneEnds: with lanes in Active, with none, and in the sequencer. -/
theorem witness_LaneEnds :
    go demo (.exit ⟨.pred 3 false, 0, false, false, 0⟩) false (fun x => x.act == 0) = true ∧
    go rejoining (.exit ⟨.pred 2 false, 0, false, false, 0⟩) false (fun x => x.act != 0 && !x.g.inCallee) = true ∧
    go demoSeq (.exit h) false (fun x => x.act != 0 && !x.g.inCallee) = true ∧
    ((g3 rejoining).block = .none ∧ (g3 rejoining).gcall = none ∧ (g3 rejoining).lanes.length = 32 ∧ (g3 rejoining).b.all (fun e => decide (e.1 < 16)) = true ∧
      mget 0 (g3 rejoining).b 15 &&& ~~~0x3 = 0 ∧ mget 0 (g3 rejoining).b 0 &&& ~~~0x3 ≠ 0) := by decide
/-- TeamBarrier: a team of one group, one of two where the other has not arrived, and a group in a gate callee. -/
def twoGroups : State := { demo with groups := [(3, grp1), (4, seq1), (5, { grp1 with grp := 15 })] }
def inGate : State := lanesAt (fun g => { g with frames := [{ tctx := 1 }] })
theorem witness_TeamBarrier :
    let held (s : State) (g : Group) : Bool := s.groups.any (fun e => e.2.gang == g.gang && e.2.team == g.team && !e.2.isSeq && e.2.live != 0 &&
      (!((s.team g.gang g.team).barMask ||| BitVec.ofNat 16 (2 ^ g.grp)).getLsbD e.2.grp || e.2.inCallee))
    [Instr.tbar h, .tbara h].all (fun i => go demo i false (fun x => x.act != 0 && !x.g.inCallee)) = true ∧
    [Instr.tbar h, .tbara h].all (fun i => go inGate i false (fun x => x.g.inCallee)) = true ∧
    [Instr.tbar ⟨.pred 3 false, 0, false, false, 0⟩, .tbara ⟨.pred 3 false, 0, false, false, 0⟩].all (fun i => go demo i false (fun x => x.act == 0)) = true ∧
    held demo grp1 = false ∧ held twoGroups grp1 = true ∧ grp1.grp < 16 ∧ grp1.team < (mget ({} : Gang) demo.gangs grp1.gang).teams.length := by decide
/-- RegisterWindow: 824 granules are free in `demo`; in `crowded`, thirteen more groups of 512 registers hold them. -/
def crowded : State := { demo with groups := [(3, grp1), (4, seq1)] ++ (List.range 13).map (fun k => (k + 5, { grp1 with grp := k + 1, nregs := 512 })) }
def growing : State := lanesAt (fun g => { g with block := .grow 72 false 14 (BitVec.allOnes 32) 0 })
def growingLate : State := { growing with clk := 65536 }
theorem witness_RegisterWindow :
    allGo demo false [.grow h true 14 8, .grow h false 15 512, .shrink h 8] = true ∧ demo.growWaits 0 = [] ∧ (512 - 64) / 8 ≤ demo.freeGranules 0 ∧
    go crowded (.grow h false 14 512) false (fun x => x.act != 0 && decide (512 > x.g.nregs) && decide (crowded.freeGranules x.g.core < (512 - x.g.nregs) / 8)) = true ∧
    (oldest (growing.growWaits 0) = some (3, (72 - 64) / 8, 0, 0) ∧ (g3 growing).nregs = 64 ∧ (72 - (g3 growing).nregs) / 8 ≤ growing.freeGranules 0) ∧
    (growingLate.clk ≥ 0 + 65536 ∧ (g3 growingLate).gcall = none ∧ growingLate.resident (g3 growingLate) = true) := by decide
/-- Every group of the core waits: group 3 in GROW, the others at their team's barrier, so that no granule will come free. -/
def deadlocked (must : Bool) : State :=
  { crowded with groups := crowded.groups.map (fun e => if e.1 = 3 then (3, { grp1 with block := .grow 72 must 14 (BitVec.allOnes 32) 0 })
                                                        else (e.1, { e.2 with lanes := e.2.lanes.map (fun l => { l with st := .tbar }) })) }
theorem witness_RegisterWindow_deadlock :
    (deadlocked true).groups.all (fun e => e.2.core != 0 || e.2.isSeq || !((deadlocked true).resident e.2) || e.2.live == 0 ||
      ((deadlocked true).wants e.1 e.2).isSome || (List.range 32).all (fun l => (e.2.lane l).st == .exited || (e.2.lane l).st == .tbar)) = true ∧
    oldest ((deadlocked true).growWaits 0) = some (3, 1, 0, 0) ∧ youngest ((deadlocked true).growWaits 0) = some (3, 1, 0, 0) ∧
    (deadlocked true).grantable 0 (3, 1, 0, 0) = false ∧ growing.grantable 0 (3, 1, 0, 0) = true ∧ (g3 (deadlocked false)).block = .grow 72 false 14 (BitVec.allOnes 32) 0 := by
  decide
def aTrap : TrapRec := { cause := 1, mask := 0x3, pc := 0x1000, run := 0x3 }
def trapped (g : Group) : Group := { g with trapq := [aTrap] }
theorem witness_SoftwareTraps :
    allGo demo false [.trap h 0xFFFFFFFF, .brk h 0] = true ∧
    [Instr.trap ⟨.pred 3 false, 0, false, false, 0⟩ 1, .brk ⟨.pred 3 false, 0, false, false, 0⟩ 1].all (fun i => go demo i false (fun x => x.act == 0)) = true ∧
    (g3 demo).trapq.length < 8 ∧ (g3 demo).hmode = false ∧
    (g3 (lanesAt (fun g => { g with trapq := List.replicate 8 aTrap }))).trapq.length ≥ 8 := by decide
/-- TrapHandlers: a queued trap with and without a trap entry, and a handler that returns. -/
def noHandler : State := { lanesAt trapped with ctxs := [(1, { ctx1 with trapent := 0 })] }
def handling : State := { lanesAt (fun g => { trapped g with hmode := true }) with cur := some { gid := 3, run := 0x3, pc := 0x4000 } }
theorem witness_TrapHandlers :
    ([lanesAt trapped, noHandler].all (fun s => (g3 s).trapq == [aTrap] && !(g3 s).hmode && !(g3 s).held && !(g3 s).dbgHeld && (g3 s).frames == [])) = true ∧
    (mget {} (lanesAt trapped).ctxs 1).trapent ≠ 0 ∧ (mget {} noHandler.ctxs 1).trapent = 0 ∧ aTrap.cause ≠ 2 ∧ aTrap.cause ≠ 3 ∧
    [Instr.tret h true, .tret h false].all (fun i => go handling i false (fun x => x.act != 0 && x.g.hmode && x.g.trapq == [aTrap])) = true ∧
    aTrap.run.getLsbD 1 = true ∧ ((g3 handling).lane 1).st = .run ∧ aTrap.run.getLsbD 31 = false ∧
    (base.errRoom 1 { ctx1 with errSlots := 64 } = true ∧ (base.writeMem 0 4 1).errRoom 1 { ctx1 with errSlots := 0 } = false ∧ (mfind base.ctxs 1).isSome = true) ∧
    go demo (.tret h true) false (fun x => x.act != 0 && !x.g.hmode) = true := by decide

/-! Memory: a page of 4 KiB at 0x5000, mapped to key 0x20000 by five levels of tables from 0x10000; entry 6 of the last table is empty,
entry 7 is malformed, and entry 8 permits no write. -/
def ctxPaged : Ctx := { root := 0x10000, loaded := true, live := true, trapent := 0x4000 }
def tables (s : State) : State :=
  ((((((s.writeMem 0x10000 8 0x11001).writeMem 0x11000 8 0x12001).writeMem 0x12000 8 0x13001).writeMem 0x13000 8 0x14001).writeMem 0x14028 8
    0x2003F).writeMem 0x14038 8 0x21001).writeMem 0x14040 8 0x22007
def paged (f : Group → Group) : State :=
  { tables (lanesAt f) with ctxs := [(1, ctxPaged)], tlb := [{ die := 0, ctx := 1, va := 0x5000, size := 4096, key := 0x20000, r := true, w := true, x := true,
                                                                lockok := true, mig := true }] }
/-- s4 and the pair s8:s9 hold 0x5000. -/
def at5000 : State := paged (fun g => { g with sc := [(4, 0x5000), (8, 0x5000)] })
/-- The hypotheses of `Sends` hold, every lane's address being `va` at key `key`. -/
def sends (s : State) (i : Instr) (helpers : Bool) (need : Need) (va : DWord) (align key : Nat) (lk mg : Bool) : Bool :=
  go s i helpers (fun x => x.act != 0 && x.reissue.isNone && x.g.block == .none && (mget {} s.cores x.g.core).dbg.wpctl == 0 && canonical va &&
    va.toNat % align == 0 && translatesB s x.g va need key lk mg)
theorem witness_AccessesSent :
    [Instr.ld h false .b128 .device .none .ca (.v 4) (.s 4) 0, .lblrd h true (.v 4) (.s 8) 0].all
      (fun i => sends at5000 i true .r 0x5000 16 0x20000 true true || sends at5000 i false .r 0x5000 16 0x20000 true true) = true ∧
    [Instr.st h true .b8 .device .none .nt (.s 8) (.v 2) 0, .atom h false .add .u32 .device .none .z (.s 4) (.v 2) 0,
      .atom h false .exch .b64 .system .none (.v 4) (.s 4) (.v 2) 0, .red h false .max .f32 .device .none (.s 4) (.v 2) 0,
      .cas h false .b64 .device .none (.v 4) (.s 4) (.v 8) 0, .lblset h false true (.s 4) (.v 2) 0, .lblset h false false (.s 4) (.v 2) 0,
      .lblclr h false (.s 4) 0].all (fun i => sends at5000 i false .w 0x5000 8 0x20000 true true) = true ∧
    [Instr.cwb h false .device (.s 4) 0, .cinv h false .system (.s 4) 0, .monarm h true (.s 8) 0].all
      (fun i => sends at5000 i false .r 0x5000 1 0x20000 true true) = true ∧
    sends demo (.ld h false .b32 .device .none .ca (.v 4) (.s 4) 0) true .r 0x1000 4 0x1000 false false = true := by decide

/-- An acquire and a release in `at5000`. -/
theorem witness_AccessesSent_ordered :
    sends at5000 (.ld h false .b128 .device .acq .ca (.v 4) (.s 4) 0) true .r 0x5000 16 0x20000 true true = true ∧
    sends at5000 (.st h true .b8 .device .rel .nt (.s 8) (.v 2) 0) false .w 0x5000 1 0x20000 true true = true ∧
    sends at5000 (.cas h false .b64 .system .ar (.v 4) (.s 4) (.v 8) 0) false .w 0x5000 8 0x20000 true true = true ∧
    at5000.deltas = [] ∧ at5000.ops = [] ∧ at5000.fenceReady 3 (g3 at5000) .system = true := by decide
def anIssue : Issue := { gid := 3, g := grp1, run := BitVec.allOnes 32, act := 1, once := false, lead := 0, pc := 0x1000, word0 := 0, reissue := none }
theorem witness_AccessChecks :
    let bad (as : List Acc) := (as.filter (fun a => anIssue.run.getLsbD a.lane)).filter (fun a => !canonical a.va)
    let off (as : List Acc) := (as.filter (fun a => anIssue.run.getLsbD a.lane)).filter (fun a => a.va.toNat % 4 != 0)
    anIssue.act ≠ 0 ∧ bad [{ lane := 0, va := 0x0100000000000000 }] = { lane := 0, va := 0x0100000000000000 } :: [] ∧
    bad [{ lane := 0, va := 0x1002 }] = [] ∧ off [{ lane := 0, va := 0x1002 }] = { lane := 0, va := 0x1002 } :: [] ∧
    (canonical 0x00FFFFFFFFFFFFFC = true ∧ canonical 0xFF00000000000000 = true ∧ (0x00FFFFFFFFFFFFFC : DWord).toNat % 4 = 0) ∧
    (mget {} demo.cores 0).dbg.wpctl = 0 ∧ loadDesc.ord ≠ .rel ∧ demo.grp? 3 = some anIssue.g ∧ demo.deltas = [] ∧
    demo.fenceReady 3 grp1 .system = true ∧ demo.fenceReady 3 { grp1 with cnt := { st := { n := 1 } } } .device = false ∧
    (let s : State := demo.updDbg 0 (fun d => { d with wpctl := 0x17, wplo := [0x1000], wphi := [0x2000] })
     let d := (mget {} s.cores 0).dbg
     bitAt (bits d.wpctl 0 6) 0 = true ∧ loadDesc.kind.wpBit = some 1 ∧ bitAt (bits d.wpctl 0 6) 1 = true ∧ bitAt (bits d.wpctl 0 6) 5 = false ∧
       (d.wplo.getD 0 0).toNat ≤ 0x1000 ∧ 0x1FFC < (d.wphi.getD 0 0).toNat ∧ (g3 s).once = none) := by decide
theorem witness_AccessesPerform : demo.hub.dirtyEn = false := by decide

/-- HomeRequests: a load whose line the cluster holds, and one that goes to its home. -/
def waiting (o : Acc → Op) : State := { demo with nextId := 10, ops := [(9, o { lane := 0, va := 0x1000, key := 0x1000, st := .wait })] }
/-- Lane 0's line is delegated to its cluster; another access to its region stands in the replay queue. -/
def owned : State := { waiting storeOp with deleg := [{ line := 32, cluster := 0, write := true }] }
def behind : State :=
  let s := waiting loadOp
  { s with now := 200, ops := s.ops ++ [(8, { storeOp { lane := 0, va := 0x1080, key := 0x1080, st := .replay .close, arr := 8 } with cluster := 3 })] }
def held : State := { waiting loadOp with copies := [{ line := 32, agent := 0, bound := some 101 }] }
def labelled (l : Label) (lk : Bool) : State := { waiting storeOp with dir := [(4, { label := l, lock := lk, owner := 0, rdr := [7] })] }
theorem witness_HomeRequests :
    let a : Acc := { lane := 0, va := 0x1000, key := 0x1000, st := .wait }
    let ok (s : State) (o : Op) (m : MemDesc) : Bool := mfind s.ops 9 == some o && o.kind == .mem m [a] && m.kind.isData && m.combines.isNone && s.deltas == [] &&
      s.badBytes == [] && decide (a.key < Config.hostBase) && decide (9 < s.nextId) && o.job == .instr && a.st == .wait && !s.overlapOlder 9 o m a &&
      !s.sentOlder 9 o (s.homeSlice a.key) && !s.noCredit o (s.homeSlice a.key)
    (ok owned (storeOp a) storeDesc = true ∧ owned.isLocal 0 0 storeDesc 0x1000 = true ∧ owned.delegated 0 32 = true) ∧
    (ok behind (loadOp a) loadDesc = true ∧ behind.isLocal 0 0 loadDesc 0x1000 = false ∧ behind.regionParked 4 behind.nextId = true ∧
      behind.replayOcc (behind.homeSlice 0x1000) < Config.replayEntries) ∧
    let answers (s : State) (p : ReqRes → Bool) : Bool := match s.request (s.accReq (storeOp a) 9 storeDesc a) with
      | (r, t) => p r && mfind t.ops 9 == some (storeOp a) && t.badBytes == [] && decide (t.replayOcc (t.homeSlice a.key) < Config.replayEntries)
    (ok held (loadOp a) loadDesc = true ∧ held.isLocal 0 0 loadDesc 0x1000 = true ∧ held.delegated 0 32 = false) ∧
    (ok (waiting loadOp) (loadOp a) loadDesc = true ∧ (waiting loadOp).isLocal 0 0 loadDesc 0x1000 = false ∧ (waiting loadOp).regionParked 4 10 = false) ∧
    [labelled .cont false, labelled .pc false, labelled .ro true].all (fun s => ok s (storeOp a) storeDesc && !s.isLocal 0 0 storeDesc 0x1000 && !s.regionParked 4 10) = true ∧
    answers (labelled .cont false) (fun r => match r with | .done _ _ => true | _ => false) = true ∧
    answers (labelled .pc false) (fun r => match r with | .timed _ => true | _ => false) = true ∧
    answers (labelled .ro false) (fun r => match r with | .park _ _ => true | _ => false) = true ∧
    ((match (labelled .ro true).request ((labelled .ro true).accReq (storeOp { a with lockok := true }) 9 storeDesc { a with lockok := true }) with
      | (.refused _, _) => true | _ => false) = true) := by decide
theorem witness_LabelsDecide :
    let s := labelled .cont false
    let r : Req := { agent := 0, ctx := 1, key := 0x1000, width := 4, kind := .store, lockok := true }
    let d : Dir := { label := .cont, owner := 0, rdr := [7] }
    mfind s.dir (regionOf r.key) = some d ∧ r.judged = false ∧ r.mig = false ∧ r.key < 2 ^ 52 ∧ d.wcnt + 1 < (s.slice (s.homeSlice r.key)).win ∧
    ({ d with wcnt := 14 } : Dir).wcnt + 1 < (s.slice (s.homeSlice r.key)).win ∧ d.closing = none ∧ d.lock = false ∧ s.hub.dirtyEn = false ∧
    r.kind.isWrite = true ∧ r.agent ≠ hubAgent ∧ r.agent < 48 ∧ d.owner = r.agent ∧ d.rdr ≠ [] ∧ s.deleg = [] ∧ (labelled .ro true).dir ≠ [] := by decide

/-- A region of each label: owned by cluster 0, with a reader 7 or none, and lines delegated or copied. -/
theorem witness_LabelsDecide_each :
    let s (l : Label) (cs : List Copy) (ds : List Deleg) : State := { labelled l false with copies := cs, deleg := ds }
    let has (s : State) (p : Dir → Bool) : Bool := match mfind s.dir 4 with | some d => d.closing.isNone && !d.lock && p d | none => false
    let none_ : List Deleg := []
    [Label.cont, .ro, .uncl].all (fun l => has (s l [] []) (fun d => d.label == l)) = true ∧
    has (s .priv [] []) (fun d => d.label == .priv && d.owner == 0) = true ∧ (∀ x ∈ none_, x.line ≠ 32) ∧ (s .priv [] []).watch = [] ∧
    (has (s .migr [] [{ line := 39, cluster := 5 }]) (fun d => d.label == .migr && d.owner != 3) = true ∧ (39 : Nat) / 8 = 4) ∧
    (∃ c ∈ (s .uncl [{ line := 32, agent := 7 }] []).copies, c.line = 32 ∧ c.bound = none) ∧
    has (s .pc [] []) (fun d => d.label == .pc && d.owner == 0 && d.rdr != []) = true ∧
    (match mfind ({ labelled .cont false with dir := [(4, { closing := some { label := .ro, owner := 0 } })] } : State).dir 4 with
      | some d => d.closing.isSome | none => false) = true := by decide

/-- AccessReports: a load of one lane that has been performed, one that failed, and a store. -/
def loaded (st : AccSt) : State := { demo with ops := [(9, loadOp { lane := 31, va := 0x1000, key := 0x1000, st := st, res := 0x55 })] }
def stored : State := { demo with ops := [(9, storeOp { lane := 0, va := 0x1000, st := .done, tc := 2 ^ 64 - 1 })] }
theorem witness_AccessReports :
    ([loaded .done, loaded (.failed 3)].all (fun s => match mfind s.ops 9 with
      | some o => o.cls == some .ld && loadDesc.kind == .load && loadDesc.dst == some (.v 4) && s.grp? 3 == some grp1 && grp1.block != .verdict 9 &&
          o.accs.all (fun a => a.final && decide (a.lane < 32)) && decide ((o.accs.map (·.lane)).Nodup) && decide (4 + loadDesc.ty.regs ≤ grp1.nregs)
      | none => false)) = true ∧
    (∃ o, mfind stored.ops 9 = some o ∧ o.cls = some .st ∧ storeDesc.kind.reports = true ∧ o.accs.all (fun a => a.st == .done && decide (a.tc < 2 ^ 64)) = true) := by
  refine ⟨by decide, _, rfl, by decide⟩

/-- ScratchpadAccesses: lanes 0 and 1 at the last words of the scratchpad. -/
def scratchEnd : State := lanesAt (fun g => { g with v := [(64, 65532), (65, 65528)] })
theorem witness_ScratchpadAccesses :
    let m : Hdr := ⟨.pred 2 false, 0, false, false, 0⟩
    let ok (x : Issue) : Bool := x.act != 0 && x.g.frames == [] && (mget {} scratchEnd.cores x.g.core).dbg.wpctl == 0 &&
      decide (x.g.team < (mget ({} : Gang) scratchEnd.gangs x.g.gang).teams.length) && decide ((scratchEnd.team x.g.gang x.g.team).scratch ≤ aliasBase) &&
      (lanesOf x.act).all (fun l => decide (x.g.opnd (.v 2) 1 l < (scratchEnd.team x.g.gang x.g.team).scratch) && x.g.opnd (.v 2) 1 l % 4 == 0) &&
      (lanesOf x.act).all (fun l => (lanesOf x.act).all (fun k => x.g.opnd (.v 2) 1 l != x.g.opnd (.v 2) 1 k || l == k))
    go scratchEnd (.lds m .b32 (.v 4) (.v 2) 0) true ok = true ∧
    [Instr.sts m .u32 (.v 2) (.v 3) 0, .atoms m .add .u32 .z (.v 2) (.v 3) 0, .atoms m .max .f32 (.v 4) (.v 2) (.v 3) 0].all (fun i => go scratchEnd i false ok) = true := by
  decide

/-- Lane 0 reaches v63 of its own registers through the alias, then a byte past them, and the scratchpad's first byte beyond its end. -/
def aliasAt (a : Nat) : State := lanesAt (fun g => { g with v := [(64, BitVec.ofNat 32 a)], p := [(2, 1)] })
theorem witness_ScratchpadAccesses_alias :
    let at_ (a : Nat) (p : Issue → Nat → Bool) : Bool := [(Instr.lds lane31 .b32 (.v 4) (.v 2) 0, true), (.sts lane31 .u32 (.v 2) (.v 3) 0, false)].all
      (fun e => go (aliasAt a) e.1 e.2 (fun x => x.act == 1 && x.run.getLsbD 0 && x.g.poison == [] && x.g.frames == [] && p x (x.g.opnd (.v 2) 1 0)))
    at_ (aliasBase + 128 * 63 + 124) (fun x a => decide (aliasBase ≤ a ∧ a < aliasBase + 128 * x.g.nregs ∧ a % 4 = 0)) = true ∧
    at_ (aliasBase + 128 * 64) (fun x a => decide (65536 ≤ a ∧ ¬ (a < aliasBase + 128 * x.g.nregs))) = true ∧
    at_ 65536 (fun _ a => decide (65536 ≤ a ∧ a < aliasBase)) = true ∧ at_ 65534 (fun _ a => decide (a < 65536 ∧ a % 4 ≠ 0)) = true ∧
    go (aliasAt aliasBase) (.atoms lane31 .add .u32 .z (.v 2) (.v 3) 0) false (fun x => decide (x.g.opnd (.v 2) 1 0 = aliasBase)) = true := by decide

/-- FencesAndWaits: with nothing outstanding, and with one store outstanding or a %ctime ahead. -/
def outstanding : State := lanesAt (fun g => { g with cnt := { ld := { n := 63 }, st := { n := 1 } } })
def blockedOn (b : Block) (cnt : Counters := {}) : State := lanesAt (fun g => { g with block := b, cnt := cnt })
theorem witness_FencesAndWaits :
    demo.deltas = [] ∧
    go demo (.fence h .system) false (fun x => x.act != 0 && demo.fenceReady x.gid x.g .system) = true ∧
    go outstanding (.fence h .team) false (fun x => x.act != 0 && !outstanding.fenceReady x.gid x.g .team) = true ∧
    go outstanding (.wait h 63 1 0 0 0) false (fun x => x.act != 0 && x.g.cnt.within 63 1 0 0 0) = true ∧
    go outstanding (.wait h 62 63 63 63 63) false (fun x => x.act != 0 && !x.g.cnt.within 62 63 63 63 63) = true ∧
    (g3 (blockedOn (.wait 0 0 0 0 0 1))).block = .wait 0 0 0 0 0 1 ∧ (g3 (blockedOn (.fence .device 1))).block = .fence .device 1 ∧
    (blockedOn (.fence .device 1)).fenceReady 3 (g3 (blockedOn (.fence .device 1))) .device = true ∧
    (blockedOn (.release .device storeDesc []) ).fenceReady 3 (g3 (blockedOn (.release .device storeDesc []))) .device = true ∧
    (blockedOn (.fence .device 1) { st := { n := 1 } }).fenceReady 3 (g3 (blockedOn (.fence .device 1) { st := { n := 1 } })) .device = false := by decide

def armed (w : Bool) : State := { (lanesAt (fun g => { g with mon := { line := 32, armed := true, wake := w } })) with watch := [{ line := 32, gid := 3 }] }
def mwaiting (till : Nat) : State := (armed false).updGrp 3 (fun g => { g with block := .mwait 14 till 0xFFFFFFFF })
def oneAcc (k : MemKind) (b : Block) : State :=
  { demo with groups := [(3, { grp1 with block := b })], ops := [(9, { gid := 3, ctx := 1, kind := .mem { loadDesc with kind := k }
                                                                                [{ lane := 0, va := 0x1000, key := 0x1000, st := .done, tc := 98 }] })],
              copies := [{ line := 32, agent := 0 }] }
theorem witness_Monitors :
    [demo, armed true].all (fun s => go s (.mwait h 14 (.c 5)) false (fun x => x.act != 0 && (!x.g.mon.armed || x.g.mon.wake))) = true ∧
    go (armed false) (.mwait h 15 .z) false (fun x => x.g.mon.armed && !x.g.mon.wake && x.g.opnd .z 1 x.lead == 0) = true ∧
    go (armed false) (.mwait h 0 (.c (-1))) false (fun x => x.g.mon.armed && !x.g.mon.wake && x.g.opnd (.c (-1)) 1 x.lead != 0) = true ∧
    ((g3 (mwaiting 100)).block = .mwait 14 100 0xFFFFFFFF ∧ (g3 (mwaiting 100)).frames = [] ∧ 100 ≤ (mwaiting 100).regtime (g3 (mwaiting 100)) ∧
      (g3 (mwaiting 100)).mon.armed = true ∧ 33 ≠ (g3 (mwaiting 100)).mon.line) ∧
    (98 + 2 ≤ (oneAcc .monarm (.monarm 9 0 1)).regtime (g3 (oneAcc .monarm (.monarm 9 0 1))) ∧ (g3 (oneAcc .monarm (.monarm 9 0 1))).block = .monarm 9 0 1) ∧
    ((g3 (oneAcc .cinv (.cinv 9 1))).block = .cinv 9 1 ∧ (oneAcc .cinv (.cinv 9 1)).deltas = [] ∧ AccSt.done ≠ .off) ∧
    ((armed false).watch.filter (fun w => w.line == lineOf 0x1000) = [{ line := lineOf 0x1000, gid := 3 }] ∧ newValue .store .b32 0 5 0 ≠ none ∧
      (armed false).hub.dirtyEn = false ∧ (armed false).resident (g3 (armed false)) = true) := by decide

/-- PageWalks, WalksAndVerdicts: a load of lane 5 that is walked, its group blocked on the walk or on the label verdict. -/
def walking (va : DWord) : State :=
  (({ tables demo with ctxs := [(1, ctxPaged)],
                       ops := [(9, { gid := 3, cls := some .ld, ctx := 1, kind := .mem loadDesc [{ lane := 5, va := va }] })] } : State)).updGrp 3
    (fun g => { g with block := .walk 9 })
def judging (st : AccSt) : State :=
  { (walking 0x5000).updGrp 3 (fun g => { g with block := .verdict 9 }) with
    ops := [(9, { gid := 3, cls := some .ld, ctx := 1, kind := .mem loadDesc [{ lane := 31, va := 0x5004, key := 0x20004, st := st }] })] }
theorem witness_PageWalks :
    let s := walking 0x5000
    let table (v : Level) (e : Nat) : Bool := bitAt e 0 && !bitAt e 1 && !badPte v e
    ((mget {} s.ctxs 1).root = 0x10000 ∧ s.readMem 0x10000 8 = 0x11001 ∧ s.readMem 0x11000 8 = 0x12001 ∧ s.readMem 0x12000 8 = 0x13001 ∧
      s.readMem 0x13000 8 = 0x14001 ∧ (table level4 0x11001 && table level3 0x12001 && table level2 0x13001 && table level1 0x14001) = true ∧
      bitAt 0x14001 11 = false) ∧
    bitAt (s.readMem (0x10000 + 8 * 511) 8) 0 = false ∧ bitAt (s.readMem 0x14030 8) 0 = false ∧
    (bitAt (s.readMem 0x14038 8) 0 = true ∧ badPte level0 (s.readMem 0x14038 8) = true) ∧
    (let e := s.readMem 0x14028 8; bitAt e 0 = true ∧ badPte level0 e = false ∧ bitAt e 1 = true ∧ bitAt e 4 = true) ∧
    (let e := s.readMem 0x14040 8; bitAt e 0 = true ∧ badPte level0 e = false ∧ bitAt e 1 = true ∧ bitAt e 3 = false) := by decide
theorem witness_WalksAndVerdicts :
    let ok (s : State) (b : Block) : Bool := (g3 s).block == b && (g3 s).frames == [] && !(g3 s).isSeq && !(g3 s).hmode && decide ((g3 s).trapq.length < 8)
    ok (walking 0x8FFC) (.walk 9) = true ∧ ok (judging (.refused 7)) (.verdict 9) = true ∧
    (match (walking 0x8FFC).walk 1 0x8FFC .r with | .leaf l => !l.lockok | _ => false) = true ∧
    (walking 0x6000).walk 1 0x6000 .r = .notPresent ∧ (g3 (walking 0x6000)).parkEntry none = some 0 ∧
    (walking 0x7004).walk 1 0x7004 .r = .badEntry 0 ∧
    loadDesc.helpers.getLsbD 31 = false ∧ loadDesc.reissue = none ∧ loadDesc.uni = false ∧
    (∃ l ∈ ({ lanes := [(0, { out := 1, va := 0 }), (31, { out := 1, res := true, va := 0 })] } : LogEntry).lanes, l.2.res = true) ∧ grp1.reissue = none := by
  decide

/-- HomeEvents. -/
def regionOf4 (d : Dir) (cs : List Copy) (ds : List Deleg := []) : State := { demo with now := 600, dir := [(3, {}), (4, d)], copies := cs, deleg := ds }
def closeEnding : State := regionOf4 { label := .pc, closing := some { label := .cont, owner := 0 } } [{ line := 40, agent := 3 }]
def twoReaders : List Copy := [{ line := 32, agent := 7, msgs := [{ bound := 300, ext := true }] }, { line := 39, agent := 9, acks := 2, read := true }, { line := 40, agent := 9 }]
def extending : State := regionOf4 { label := .pc, rdr := [7, 9], extAt := 88 } twoReaders
def extendingFar : State := regionOf4 { label := .pc, rdr := [7, 512], extAt := 88 } twoReaders
def acked (idle : Nat) : State := regionOf4 { label := .pc, rdr := [7] } [{ line := 32, agent := 7, acks := 1, idle := idle }]
def replaying (tag : WakeTag) : State := { waiting loadOp with ops := [(9, loadOp { lane := 0, va := 0x1000, key := 0x1000, st := .replay tag })] }
def aDelta : Delta := { cluster := 0, line := 32, ctx := 1, op := .add, ty := .u32, cells := [(124, 5)], base := [] }
theorem witness_HomeEvents :
    (∃ d c, mfind closeEnding.dir 4 = some d ∧ d.closing = some c ∧ c.evict = false ∧ d.asrt = false ∧ closeEnding.closeEnded 4 d = true ∧ closeEnding.ops = []) ∧
    (∃ c ∈ [({ line := 32, agent := 7, inval := true } : Copy)], c.line = 32 ∧ c.agent = 7 ∧ c.inval = true) ∧
    (∃ d ∈ [({ line := 32, cluster := 0, recalled := true } : Deleg)], d.line = 32 ∧ d.recalled = true) ∧
    (∃ d, mfind extending.dir 4 = some d ∧ d.label = .pc ∧ d.closing = none ∧ d.rdr.any (fun a => a ≥ 512) = false ∧ d.extAt + 512 / 4 ≤ extending.now ∧
      ∃ c ∈ extending.copies, c.line / 8 = 4 ∧ c.agent ∈ d.rdr) ∧
    (∃ d, mfind extendingFar.dir 4 = some d ∧ d.label = .pc ∧ d.closing = none ∧ d.rdr.any (fun a => a ≥ 512) = true ∧ d.extAt + 2048 / 4 ≤ extendingFar.now ∧
      ∃ c ∈ extendingFar.copies, c.line / 8 = 4 ∧ c.agent ∈ d.rdr) ∧
    (∃ c ∈ extending.copies, (c.line / 8 == 4 && c.agent == 9) = true ∧ c.acks > 0 ∧ c.read = true) ∧
    (∃ c ∈ (acked 1).copies, (c.line / 8 == 4 && c.agent == 7) = true ∧ c.acks > 0 ∧ c.read = false ∧ c.idle ≥ 1) ∧
    (∃ c ∈ (acked 0).copies, (c.line / 8 == 4 && c.agent == 7) = true ∧ c.acks > 0 ∧ c.read = false ∧ c.idle = 0) ∧
    (extending.nextMsg 7 (extending.homeSlice 0x1000)).isSome = true ∧
    [WakeTag.close, .recall, .order].all (fun t => (replaying t).wakeable { lane := 0, va := 0x1000, key := 0x1000, st := .replay t } t) = true ∧
    (let a : Acc := { lane := 0, va := 0x1000, key := 0x1000, st := .over }
     let s : State := { demo with ops := [(9, loadOp a)] }
     ((s.updSlice (s.homeSlice 0x1000) (fun x => { x with ovf := [(9, 0)] })).slice (s.homeSlice 0x1000)).ovf = (9, 0) :: [] ∧ mfind s.ops 9 = some (loadOp a) ∧
       a.key < Config.hostBase) ∧
    ({ demo with deltas := [aDelta] } : State).deltas = [aDelta] := by
  refine ⟨⟨_, _, rfl, rfl, by decide⟩, by decide, by decide, ⟨_, rfl, by decide⟩, ⟨_, rfl, by decide⟩, by decide, by decide,
    by decide, by decide, by decide, by decide, by decide⟩
theorem witness_HostGranules :
    let since (k n : Nat) (x : Option Bool) (d w : Bool) : State := ({ demo with now := n } : State).setGran k { dev := d, since := 1, xfer := x, want := w }
    (since 7 100 (some true) false false).host.up = true ∧ (since 7 100 (some false) true false).granRegions 7 = [] ∧ demo.watch = [] ∧
    ((since 7 4096 none true false).gran 7).since ≠ 0 ∧ 4096 < ((since 7 4096 none true false).gran 7).since + 4096 ∧
    ((since 7 4097 none true true).gran 7).since + 4096 ≤ (since 7 4097 none true true).now := by decide

/-- Counters, launches, queues: launch queue 5 of context 1 is its number 2; slice 3 holds queues 1 (of 16-byte entries) and 2 (of active
messages), and context 1 runs handler 6. -/
theorem witness_OperationsCounted :
    demo.grp? anIssue.gid = some anIssue.g ∧ ({ n := 1 } : Counter).n ≠ 0 ∧ ({ n := 2, base := 7 } : Counter).n ≠ 1 ∧
    ({ n := 63 } : Counter).win = 0 := by decide
def queued (s : State) (head tail : Nat) (stopped : Bool) : State :=
  { (s.writeMem 0x8000 8 head).writeMem 0x8008 8 tail with
    lqs := [(5, { ctx := 1, num := 2, ring := 0x9000, slots := 16, headVa := 0x8000, tailVa := 0x8008, stopped := stopped })] }
def launching (va : Nat) : State := queued (lanesAt (fun g => { g with sc := [(4, BitVec.ofNat 32 va)] })) 0 0 false
def appending (head tail : Nat) (stopped : Bool) : State :=
  { queued demo head tail stopped with ops := [(9, { gid := 3, cls := some .st, ctx := 1, kind := .lnch 2 5 (List.replicate 128 7) })] }
theorem witness_LaunchAppends :
    let at_ (s : State) (q : Nat) (p : Nat → Bool) : Bool :=
      go s (.lnch h 2 (.s 4) q) false (fun x => x.act != 0 && p (x.g.opnd (.s 4) 1 x.lead) && (s.scratch x.g).1 == 65536)
    (at_ (launching (65536 - 128)) 2 (fun a => a % 128 == 0 && decide (a + 128 ≤ 65536)) = true ∧ (launching 0).localQueue 1 2 = some 5) ∧
    (at_ (launching 0) 15 (fun _ => true) = true ∧ (launching 0).localQueue 1 15 = none) ∧
    at_ (launching 64) 2 (fun a => a % 128 != 0) = true ∧ at_ (launching 65536) 2 (fun a => decide (a + 128 > 65536)) = true ∧
    (let ready (s : State) (g : Group) : Bool := s.deltas == [] && !s.fenceWaits 3 .device && !s.appending 9 5 && decide (g.ctime.toNat + 2 ≤ s.regtime g) && decide (s.ops.length = 1)
     [appending 0 0 false, appending 3 18 false, appending 3 19 false, appending 0 0 true].all (fun s => ready s (g3 s)) = true) := by decide
set_option maxRecDepth 20000 in
theorem witness_AppendReads :
    (let reads (s : State) (head tail : Nat) : Bool := ((reading s (lnchTag 9) 0x8000 8).bind (fun (r : Nat × State) =>
        if r.1 = head then (reading r.2 (lnchTag 9) 0x8008 8).bind (fun (r : Nat × State) =>
          if r.1 = tail then (writing r.2 (lnchTag 9) (0x9000 + BitVec.ofNat 64 (128 * (tail % 16))) 128 7).bind (fun (t : State) =>
            writing t (lnchTag 9) 0x8008 8 ((tail + 1) % 2 ^ 64)) else none) else none)).isSome
     reads (appending 3 18 false) 3 18 = true ∧ reads (appending (2 ^ 64 - 1) 14 false) (2 ^ 64 - 1) 14 = true) ∧
    (((reading (appending 3 19 false) (lnchTag 9) 0x8000 8).bind (fun (r : Nat × State) => reading r.2 (lnchTag 9) 0x8008 8)).map (·.1) = some 19 ∧
      (19 + 2 ^ 64 - 3) % 2 ^ 64 ≥ 16) ∧
    failing? ({ appending 0 0 false with ctxs := [(1, ctxPaged)] }) (lnchTag 9) 0x8000 8 = true := by decide

def queuesOf (n tail : Nat) (stall : Bool) : State :=
  (lanesAt (fun g => { g with sc := [(4, 0x301), (5, 0x302), (6, 0x303)], p := [(2, 0x80000001)] })).updSlice 3 (fun x => { x with qd :=
    [(1, { en := true, owner := 1, ring := 0xA000, head := n, tail := tail, stall := stall }),
     (2, { en := true, am := true, owner := 1, ring := 0xB000, htab := 0xC000, maxg := 1, head := n, tail := tail, stall := stall })] })
/-- Group 3 waits for a queue instruction of lane 31, which is on its way to the slice. -/
def queueOp (k : QKind) (handle : Nat) : QueueOp := { kind := k, handle := handle, dst := some (.v 8), pd := 2, run := 0x80000000, act := 0x80000000, todo := [(31, 9)] }
def asking (k : QKind) (handle n tail : Nat) (stall : Bool := false) : State :=
  { (queuesOf n tail stall).updGrp 3 (fun g => { g with block := .queue 9 }) with ops := [(9, { gid := 3, cls := some .st, ctx := 1, kind := .queue (queueOp k handle) })] }
theorem witness_Queues :
    let s := queuesOf 0 4 false
    let with_ (i : Instr) (v : Nat) : Bool := go s i false (fun x => x.act != 0 && x.g.opnd (.s (v - 0x301 + 4)) 1 x.lead == v && x.g.ctx == 1)
    [Instr.qenq h 15 (.s 4) (.v 8), .qdeq h (.v 8) (.s 4) 0, .qstat h (.v 8) (.s 4)].all (fun i => with_ i 0x301) = true ∧
    [Instr.amsg h 14 (.s 5) (.v 8) 255, .qenq h 0 (.s 5) (.v 8), .qdeq h (.v 8) (.s 5) 15].all (fun i => with_ i 0x302) = true ∧
    [Instr.amsg h 2 (.s 6) (.v 8) 0, .qstat h (.v 8) (.s 6)].all (fun i => with_ i 0x303) = true := by decide
theorem witness_QueueRequests :
    let ok (s : State) (p : QDesc → Bool) : Bool := match mfind s.ops 9 with
      | some ({ kind := .queue q, .. } : Op) => (g3 s).block == .queue 9 && !q.begun && (match s.handle? q.handle with
        | some k => (s.ops.all (fun e => !s.sentOlder 9 e.2 k.slice && !s.noCredit e.2 k.slice)) && !s.queueBusy 9 k && p (s.qdesc k)
        | none => false)
      | _ => false
    let open_ (am : Option Bool) (d : QDesc) : Bool := d.en && d.owner == 1 && (match am with | some b => d.am == b | none => true)
    ok (asking .enq 0x301 5 20) (fun d => open_ none d && !d.stall && decide (d.tail - d.head < d.cap) && d.wake == 0) = true ∧
    ok (asking .enq 0x302 5 21) (fun d => open_ none d && decide (d.tail - d.head ≥ d.cap)) = true ∧
    ok (asking (.msg 255) 0x302 5 20) (fun d => open_ (some true) d && !d.stall && decide (d.tail - d.head < d.cap)) = true ∧
    ok (asking .deq 0x301 5 6) (fun d => open_ (some false) d && !d.stall && decide (d.head < d.tail)) = true ∧
    ok (asking .deq 0x301 6 6) (fun d => open_ (some false) d && decide (d.tail ≤ d.head)) = true ∧
    ok (asking .deq 0x301 5 6 true) (fun d => open_ (some false) d && d.stall) = true ∧
    ok (asking .stat 0x301 5 6) (open_ none) = true ∧
    [asking (.msg 0) 0x301 5 6, asking .deq 0x302 5 6, asking .stat 0x303 5 6].all (fun s => ok s (fun d => !d.en || d.am == false || d.am == true)) = true ∧
    (asking .enq 0 0 0).handle? 0x10000 = none := by decide
set_option maxRecDepth 20000 in
theorem witness_QueueAccesses :
    let at_ (s : State) (k : Nat) : QDesc := s.qdesc { dev := none, slice := 3, q := k }
    (match writing (asking .enq 0x301 5 20) (queueTag 9) ((at_ (asking .enq 0x301 5 20) 1).entryVa 20) 16 9 with
      | some t => g3 t == g3 (asking .enq 0x301 5 20) && (mfind t.ops 9).isSome && at_ t 1 == at_ (asking .enq 0x301 5 20) 1
      | none => false) = true ∧
    (match reading (asking .deq 0x301 5 6) (queueTag 9) ((at_ (asking .deq 0x301 5 6) 1).entryVa 5) 16 with
      | some t => g3 t.2 == g3 (asking .deq 0x301 5 6) && (mfind t.2.ops 9).isSome && at_ t.2 1 == at_ (asking .deq 0x301 5 6) 1
      | none => false) = true ∧
    (queuesOf 0 0 false).svcTrans none 1 0xA000 .w = .ok (0xA000, false, false) := by decide
theorem witness_HandlersEnd :
    go demo (.amdone h) false (fun x => x.act != 0 && x.g.am == none) = true ∧
    [outstanding, demo].all (fun s => go (s.updGrp 3 (fun g => { g with am := some (3, 2, 1) })) (.amdone h) false (fun x => x.act != 0 && x.g.am != none &&
      !x.g.inCallee && x.g.gcall.isNone && !x.g.isSeq && x.g.lanes.length == 32)) = true ∧
    outstanding.fenceReady 3 (g3 outstanding) .device = false ∧ demo.fenceReady 3 (g3 demo) .device = true := by decide
/-- One message for handler `n` of context 1; handler 6 has 8 registers of each kind. -/
def messages (n : Nat) : State :=
  { ((queuesOf 0 1 false).writeMem 0xB010 4 n).writeMem (0xC000 + 64 * 6) 20 (0x4000 + 2 ^ 64 * 0x77 + 2 ^ 128 * 8 + 2 ^ 144) with
    hub := { base.hub with svc := 2 } }
set_option maxRecDepth 20000 in
theorem witness_Dispatch :
    let k : Handle := { dev := none, slice := 3, q := 2 }
    let ok (s : State) (p : Nat → State → Bool) : Bool := (s.qdesc k).en && (s.qdesc k).am && !(s.qdesc k).stall && decide ((s.qdesc k).tail = (s.qdesc k).head + 1) &&
      s.amRoom k && (match s.amBatch k none 0 32 with
        | (.some [m], s1) => (match reading s1 (dispatchTag k) (0xC000 + BitVec.ofNat 64 (64 * bits m 128 8)) 64 with
          | some r => p r.1 r.2
          | none => false)
        | _ => false)
    ok (messages 6) (fun e s2 => amHandler e == some (0x4000, 0x77, 8, 1) && decide (8 / 8 ≤ s2.freeGranules 0)) = true ∧
    ok (messages 7) (fun e _ => amHandler e == none) = true := by decide

/-- CopiesAndBarriers: copy records and barrier objects in team 0's scratchpad; channel 15 of core 0 holds a request. -/
def scratchWith (f : Group → Group) (sp : Map Byte) : State :=
  { lanesAt f with gangs := [(2, { ctx := 1, launch := 1, seq := some 4, teams := [{ scratch := 65536, sp := sp }] })] }
def aCopy : CopyRec := { src := 0x8000, dst := 0x9000, len := 70000, rows := 1, sstride := 0, dstride := 0, bobj := 0, fmt := 0, rop := 0, mig := false,
                         bo := false, cls := 0, chan := 15, dkind := 0, skind := 0, ddev := 0, sdev := 0, reserved := 0 }
def request : CopyReq := { who := .op 9, gid := 3, ctx := 1, r := aCopy, addr := 0x40 }
def channel (q : CopyReq) : State :=
  { (demo.addReq 0 q) with ops := [(9, { gid := 3, cls := some .cp, ctx := 1, kind := .copy 0x40 })] }
theorem witness_Copies :
    let good (a : Nat) : Bool := a % 64 == 0 && decide (a + 63 < 65536)
    let ok (s : State) (off : BitVec 24) (p : Nat → Bool) : Bool := [Instr.cpy h (.s 4) off, .cpyr h (.s 4) off].all
      (fun i => go s i false (fun x => x.act != 0 && (s.scratch x.g).1 == 65536 && p ((x.g.opnd (.s 4) 1 x.lead + offOf off) % 2 ^ 32)))
    (ok (lanesAt (fun g => { g with sc := [(4, 65472)] })) 0 good && ok (lanesAt (fun g => { g with sc := [(4, 64)] })) (-64) good) = true ∧
    ok (lanesAt (fun g => { g with sc := [(4, 65536)] })) 0 (fun a => !good a) = true ∧ ok demo (-1) (fun a => !good a) = true ∧
    ((channel request).chanHead 0 15 = some request ∧ request.started = false ∧ request.before = [] ∧ request.who = .op 9 ∧
      copyBad request.r request.reduce false = false ∧ grp1.ctime.toNat + 2 ≤ (channel request).coreTime 0) ∧
    (channel { request with started := true, issued := 1 }).readyChans 0 = [(15, { request with started := true, issued := 1 })] ∧
    ((channel { request with started := true, issued := 1 }).chan 0 15).waited < 64 ∧
    ({ request with flight := [{ chunk := 1, stage := .over }] } : CopyReq).flight = [{ chunk := 1, stage := .over }] ∧ ({ tc := 5 } : ChunkRes).status = 0 ∧
    request.reported + 1 ≠ copyChunks request.r ∧ ({ request with reported := 1 } : CopyReq).reported + 1 = copyChunks request.r := by decide
/-- A chunk of 128 bytes whose read has ended, and one whose write has. -/
theorem witness_CopyChunks :
    let q : CopyReq := { request with r := { aCopy with len := 128 } }
    let p : Piece := { src := .key 0x8000 false false, dst := .key 0x9000 false false, n := 128 }
    let f (st : Stage) : Flight := { chunk := 0, stage := st, ps := [p], ops := [8] }
    let s : State := { channel q with ops := [(8, loadOp { lane := 0, va := 0x8000, key := 0x8000, st := .done, tc := 99 })] }
    (∃ o a, mfind s.ops 8 = some o ∧ o.accs = [a] ∧ a.st = .done ∧ a.lane = 0) ∧ 8 < s.nextId ∧ chunkPieces q.r 0 = [(0x8000, 0x9000, 128)] ∧ q.reduce = false ∧
    q.srcSide ≠ .tile ∧ q.dstSide ≠ .tile ∧ s.sideRefuses 0 q p.dst true = false ∧ (f .reading).stage = .reading ∧ (f .writing).ops = [8] := by
  exact ⟨⟨_, _, rfl, rfl, rfl, rfl⟩, by decide, by decide, by decide, by decide, by decide, by decide, by decide, by decide⟩
theorem witness_BarrierObjects :
    let ok (a : Nat) (i : Instr) (p : Nat → Nat → Bool) : Bool := go (scratchWith (fun g => { g with sc := [(4, BitVec.ofNat 32 a)] }) [(65528, 1)]) i false
      (fun x => x.act != 0 && x.g.frames == [] && ((scratchWith id []).scratch x.g).1 == 65536 && x.g.opnd (.s 4) 1 x.lead == a &&
        p a ((scratchWith id [(65528, 1)]).spRead x.gid a 16))
    let fits (a : Nat) : Bool := decide (a < 65536) && a % 16 == 0
    ok 65520 (.boinit h (.s 4) (.v 3) 0) (fun a _ => fits a) = true ∧
    [Instr.boinit h (.s 4) (.v 3) 0].all (fun i => ok 65536 i (fun a _ => decide (a ≥ 65536)) && ok 65535 i (fun a _ => decide (a < 65536) && a % 16 != 0)) = true ∧
    ok 0 (.bowait h 14 (.s 4) .z 0) (fun a v => fits a && decide (toSigned 48 (v / 2 ^ 64) ≤ 0)) = true ∧
    [Instr.bowait h 14 (.s 4) .z 0, .bowait h 15 (.s 4) (.c (-1)) 0].all (fun i => ok 65520 i (fun a v => fits a && decide (¬ toSigned 48 (v / 2 ^ 64) ≤ 0))) = true ∧
    (let s (sp : Map Byte) : State := scratchWith (fun g => { g with block := .bowait 2 64 100 1 }) sp
     (g3 (s [])).block = .bowait 2 64 100 1 ∧ toSigned 48 ((s [(79, 1)]).spRead 3 64 16 / 2 ^ 64) ≤ 0 ∧
       ¬ toSigned 48 ((s [(72, 1)]).spRead 3 64 16 / 2 ^ 64) ≤ 0 ∧ 100 ≤ (s []).regtime (g3 (s [])) ∧ (s []).resident (g3 (s [])) = true) ∧
    (let q : CopyReq := { request with r := { aCopy with bo := true, bobj := 65520 } }
     q.r.bo = true ∧ q.r.bobj % 16 = 0 ∧ q.r.bobj + 16 ≤ ((scratchWith id []).scratch grp1).1 ∧ (scratchWith id []).grp? q.gid = some grp1) := by decide

/-- Tiles of core 0: one of each state belongs to the team of group 3; tile 5 belongs to another. -/
def tiled (f : Group → Group) : State :=
  (lanesAt f).updCore 0 (fun c => { c with tiles :=
    [(0, { team := some (2, 0), st := .ready, data := [(0, 3)] }), (1, { team := some (2, 0) }), (2, { team := some (2, 0), st := .filling }),
     (3, { team := some (2, 0), st := .draining, data := [(16368, 7), (16384, 9)] }), (5, { team := some (9, 1), st := .ready }),
     (32, { team := some (2, 0), st := .ready, data := [(0, 2)] }), (40, { team := some (2, 0) }),
     (48, { team := some (2, 0), st := .ready, data := [(0, 5)] }), (49, { team := some (2, 0) })] })
theorem witness_TileStates :
    let s := tiled (fun g => { g with v := [(64, 16368)] })
    let ok (i : Instr) (n : Nat) (team : Bool) (st : TileSt) (ops : Issue → TileOp) : Bool := go s i false (fun x =>
      x.act != 0 && !(s.core x.g.core).dbg.traceOn && ((s.tile x.g.core n).team == some (x.g.gang, x.g.team)) == team && (s.tile x.g.core n).st == st &&
        s.queuedOn x.g.core n == 0 && ((ops x).offsets x.act).all (fun p => p.2 % 16 == 0 && decide (p.2 < tileSize n)))
    let twr (x : Issue) : TileOp := .twr ((lanesOf x.act).map (fun l => (x.g.opnd (.v 2) 1 l, x.g.opnd (.v 4) 4 l)))
    let trd (x : Issue) : TileOp := .trd (.v 4) ((lanesOf x.act).map (fun l => (l, x.g.opnd (.v 2) 1 l)))
    (ok (.topen h 1) 1 true .empty (fun _ => .topen) && ok (.twr h 2 (.v 2) (.v 4)) 2 true .filling twr && ok (.tseal h 2) 2 true .filling (fun _ => .tseal) &&
      ok (.tdrain h 48) 48 true .ready (fun _ => .tdrain) && ok (.trd h (.v 4) 3 (.v 2)) 3 true .draining trd && ok (.tfree h 3) 3 true .draining (fun _ => .tfree) &&
      ok (.tfree h 0) 0 true .ready (fun _ => .tfree)) = true ∧
    [Instr.topen h 5, .twr h 5 (.v 2) (.v 4), .tseal h 5, .tdrain h 5, .trd h (.v 4) 5 (.v 2), .tfree h 5].all (fun i => ok i 5 false .ready (fun _ => .topen)) = true ∧
    [Instr.topen h 2, .tdrain h 2, .trd h (.v 4) 2 (.v 2), .tfree h 2].all (fun i => ok i 2 true .filling (fun _ => .topen)) = true ∧
    [Instr.twr h 49 (.v 2) (.v 4), .tseal h 49].all (fun i => ok i 49 true .empty (fun _ => .topen)) = true ∧
    go s (.tstat h (.v 4) 48 0) false (fun x => x.act != 0 && !x.g.isSeq && x.g.core == 0) = true ∧
    go { s with cur := some { gid := 4, run := 1, pc := 0x2000 } } (.tstat h (.s 4) 55 0) false
      (fun x => x.act != 0 && x.g.isSeq && s.teamCore x.g.gang 0 == some 0) = true := by decide
def tileOps (k : TileOp) (n : Nat) : State := { tiled id with ops := [(9, { gid := 3, cls := some .mx, ctx := 1, kind := .tile n k })] }
theorem witness_TileOperations :
    (∃ o, mfind (tileOps (.twr [(16368, 2 ^ 128 - 1)]) 2).ops 9 = some o ∧ o.kind = .tile 2 (.twr [(16368, 2 ^ 128 - 1)])) ∧
    (∃ o, mfind (tileOps (.trd (.v 60) [(31, 16368)]) 3).ops 9 = some o ∧ o.kind = .tile 3 (.trd (.v 60) [(31, 16368)]) ∧
      (tileOps (.trd (.v 60) [(31, 16368)]) 3).grp? o.gid = some grp1 ∧ 60 + 4 ≤ grp1.nregs ∧
      ((tileOps (.trd (.v 60) [(31, 16368)]) 3).tile o.core 3).bad = []) := by
  refine ⟨⟨_, rfl, rfl⟩, _, rfl, rfl, ?_⟩
  decide

/-- MatrixIssue: the sequencer of that team; `extra` entries stand in the queue. -/
def sequenced (extra : List QEnt) (seqBlock : Block := .none) : State :=
  ({ tiled id with cur := some { gid := 4, run := 1, pc := 0x2000 } } : State).updCore 0 (fun c => { c with queue := extra })
    |>.updGrp 4 (fun g => { g with block := seqBlock })
def fullQueue : List QEnt := List.replicate 8 { op := 1, gang := 2, m := .czero 55 }
def lutTiles : State :=
  let at_ (st : TileSt) (n : Nat) : Nat × Tile := (n, { team := some (2, 0), st := st })
  (sequenced []).updCore 0 (fun c => { c with tiles := at_ .ready 0 :: ((List.range 8).map (fun i => at_ .ready (32 + i)) ++
                                         (List.range 8).map (fun i => at_ .empty (40 + i)) ++ [at_ .ready 48]) })
theorem witness_MatrixIssue :
    let mma (cs : CoreSel) (tc ta tb : Nat) : List (Instr × Nat × MOp) :=
      let p := match cs with | .all => 4 | .core1 => 1 | _ => 0
      [(.mmab16 h cs tc ta tb, p, .mma .b16 tc ta tb), (.mmah16 h cs tc ta tb, p, .mma .h16 tc ta tb), (.mmaf8a h cs tc ta tb, p, .mma .f8a tc ta tb),
       (.mmaf8b h cs tc ta tb, p, .mma .f8b tc ta tb), (.mmaf6a h cs tc ta tb, p, .mma .f6a tc ta tb), (.mmaf6b h cs tc ta tb, p, .mma .f6b tc ta tb),
       (.mmaf4 h cs tc ta tb, p, .mma .f4 tc ta tb), (.mmai8 h cs tc ta tb, p, .mma .i8 tc ta tb), (.mmaf32 h cs tc ta tb, p, .mma .f32 tc ta tb),
       (.mmad64 h cs tc ta tb, p, .mma .d64 tc ta tb)]
    let rest (td n t tc : Nat) : List (Instr × Nat × MOp) :=
      [(.czero h .all n, 4, .czero n), (.ccvt h false .s8 .all td tc .s32, 4, .ccvt .s8 .s32 false td tc), (.tscl h false t 4, 4, .tscl (some t)),
       (.tperm h false t 0, 0, .tperm (some t))]
    let off : List (Instr × Nat × MOp) := [(.tscl h true 0 4, 4, .tscl none), (.tperm h true 0 4, 4, .tperm none)]
    let lut (wb : Nat) : List (Instr × Nat × MOp) := [(.lutbld h .all 40 32, 4, .lutbld 40 32), (.lutmm h wb .all 48 32 0, 4, .lutmm wb 48 32 0)]
    let ok (s : State) (want : MxTest → Bool) (e : Instr × Nat × MOp) : Bool := go s e.1 false (fun x => x.act != 0 && want (s.mxTest x.g.gang e.2.1 e.2.2))
    let goes (t : MxTest) : Bool := t == .go [0]
    let faults (t : MxTest) : Bool := match t with | .fault _ => true | _ => false
    (mma .core0 48 32 0 ++ mma .all 48 32 0 ++ rest 40 49 0 48 ++ off).all
      (ok (sequenced []) goes) = true ∧
    (lut 7).all (ok lutTiles goes) = true ∧
    (mma .core1 48 32 0 ++ mma .all 48 32 5 ++ rest 41 50 4 51 ++ lut 0).all
      (ok (sequenced []) faults) = true := by decide
theorem witness_MatrixWaits :
    let ok (s : State) (want : MxTest → Bool) (i : Instr) (m : MOp) : Bool := go s i false (fun x => x.act != 0 && want (s.mxTest x.g.gang 4 m))
    let unmet (t : MxTest) : Bool := match t with | .states _ => true | _ => false
    [(Instr.mmab16 h .all 49 32 0, MOp.mma .b16 49 32 0), (.mmah16 h .all 48 40 0, .mma .h16 48 40 0), (.mmaf8a h .all 48 32 1, .mma .f8a 48 32 1),
     (.mmaf8b h .all 49 32 0, .mma .f8b 49 32 0), (.mmaf6a h .all 49 32 0, .mma .f6a 49 32 0), (.mmaf6b h .all 49 32 0, .mma .f6b 49 32 0),
     (.mmaf4 h .all 49 32 0, .mma .f4 49 32 0), (.mmai8 h .all 49 32 0, .mma .i8 49 32 0), (.mmaf32 h .all 49 32 0, .mma .f32 49 32 0),
     (.mmad64 h .all 49 32 0, .mma .d64 49 32 0), (.czero h .all 48, .czero 48), (.ccvt h true .s8 .all 32 48 .s32, .ccvt .s8 .s32 true 32 48),
     (.tscl h false 2 4, .tscl (some 2)), (.tperm h false 3 4, .tperm (some 3))].all (fun e => ok (sequenced []) unmet e.1 e.2) = true ∧
    [(Instr.mmab16 h .all 48 32 0, MOp.mma .b16 48 32 0), (.mmah16 h .all 48 32 0, .mma .h16 48 32 0), (.mmaf8a h .all 48 32 0, .mma .f8a 48 32 0),
     (.mmaf8b h .all 48 32 0, .mma .f8b 48 32 0), (.mmaf6a h .all 48 32 0, .mma .f6a 48 32 0), (.mmaf6b h .all 48 32 0, .mma .f6b 48 32 0),
     (.mmaf4 h .all 48 32 0, .mma .f4 48 32 0), (.mmai8 h .all 48 32 0, .mma .i8 48 32 0), (.mmaf32 h .all 48 32 0, .mma .f32 48 32 0),
     (.mmad64 h .all 48 32 0, .mma .d64 48 32 0), (.czero h .all 49, .czero 49), (.ccvt h true .s8 .all 40 48 .s32, .ccvt .s8 .s32 true 40 48),
     (.tscl h true 2 4, .tscl none), (.tperm h false 0 4, .tperm (some 0))].all (fun e => ok (sequenced fullQueue) (fun t => t == .full) e.1 e.2) = true ∧
    (let twait (st : Nat) (p : Bool) : Bool := go (sequenced []) (.twait h 48 st 0) false (fun x => x.act != 0 && (sequenced []).selCores x.g.gang 0 == some [(0, 0)] &&
       ((sequenced []).tile 0 48).team == some (x.g.gang, 0) && (((sequenced []).tile 0 48).st.code == st) == p)
     twait 2 true = true ∧ twait 0 false = true) ∧
    (g4 (sequenced [] (.twait 9 48 2 [0] 0))).block = .twait 9 48 2 [0] 0 ∧
    ((sequenced []).tileReady 0 2 .tseal = true ∧ (sequenced []).tileReady 0 2 .topen = false) ∧
    (∃ n : Nat, ({ sequenced [] with clk := 5 + 2 ^ 24 } : State).clk ≥ n + 2 ^ 24) := by
  refine ⟨by decide, by decide, by decide, by decide, by decide, 5, by decide⟩

/-- MatrixExecution: a queue of two entries, and one whose only entry has ended. -/
def running (m : MOp) : State := sequenced [{ op := 8, gang := 2, m := m }, { op := 9, gang := 2, m := .tscl none }]
def ended : State :=
  { sequenced [{ op := 8, gang := 2, m := .czero 49, till := some 50, out := [(49, [], false)] }] with ops := [(8, { gid := 4, cls := some .mx, ctx := 1, kind := .seqop [0] })] }
theorem witness_MatrixExecution :
    [MOp.czero 49, .mma .b16 48 32 0, .tscl (some 0), .ccvt .s8 .s32 true 40 48].all (fun m => match (running m).seqLive 0 with
      | e :: [q] => e.m == m && e.till == none && q.till == none && q.op != e.op && ((running m).core 0).queue == [e, q] &&
          (m.inputs ++ e.scale.toList).all (fun n => ((running m).tile 0 n).bad == [])
      | _ => false) = true ∧
    MmaK.b16.scaled = false ∧ 0 ∉ (MOp.czero 49).dests ∧
    (ended.core 0).queue = [{ op := 8, gang := 2, m := .czero 49, till := some 50, out := [(49, [], false)] }] ∧
    ended.over { op := 8, gang := 2, m := .czero 49, till := some 50 } = true ∧ ended.over { op := 8, gang := 2, m := .czero 49, till := some 51 } = false ∧
    (∀ k ∈ (mget ({} : Gang) ended.gangs 2).teams, k.live = true) := by decide
theorem witness_MatrixProduct : 127 < 128 ∧ 127 < MmaK.i8.n ∧ 63 < MmaK.d64.n ∧ (List.replicate 16384 (255 : Byte)).length = 16384 ∧
    (List.replicate 65536 (128 : Byte)).length = 65536 :=
  ⟨by decide, by decide, by decide, List.length_replicate, List.length_replicate⟩

/-- GangSignals: counter 7 holds 9. -/
def signals (s : State) (c : Word) : State := { s with gangs := mupd s.gangs 2 (fun k => { k with sigs := [(7, c)] }) }
theorem witness_GangSignals :
    let s := signals demo 9
    let q := signals demoSeq 9
    (go s (.sqsig h 31 (.v 2)) false (fun x => x.act != 0 && x.g.cnt.mx.n == 0 && s.fenceReady x.gid x.g .cluster && (mfind s.gangs x.g.gang).isSome) &&
      go q (.sqsig h 0 .z) false (fun x => x.act != 0 && x.g.cnt.mx.n == 0 && x.g.isSeq) &&
      go (lanesAt (fun g => { g with cnt := { mx := { n := 1 } } })) (.sqsig h 7 .z) false (fun x => x.act != 0 && x.g.cnt.mx.n != 0) &&
      go outstanding (.sqsig h 7 .z) false (fun x => x.act != 0 && !x.g.isSeq && !outstanding.fenceReady x.gid x.g .cluster)) = true ∧
    (go s (.sqwait h 7 (.c 9) (some 63)) false (fun x => x.act != 0 && decide ((s.signal x.g.gang 7 - 9).toInt ≥ 0) && s.fenceReady x.gid x.g .cluster) &&
      go q (.sqwait h 7 (.c 9) none) false (fun x => x.act != 0 && decide ((q.signal x.g.gang 7 - 9).toInt ≥ 0) && x.g.isSeq) &&
      go s (.sqwait h 7 (.c 10) (some 63)) false (fun x => x.act != 0 && decide ((s.signal x.g.gang 7 - 10).toInt < 0)) &&
      go q (.sqwait h 7 (.c 10) none) false (fun x => x.act != 0 && decide ((q.signal x.g.gang 7 - 10).toInt < 0))) = true ∧
    ((g3 (blockedOn (.sqsig 7 1 3))).cnt.mx.n = 0 ∧ (blockedOn (.sqsig 7 1 3)).fenceReady 3 (g3 (blockedOn (.sqsig 7 1 3))) .cluster = true ∧ (g3 (blockedOn (.sqsig 7 1 3))).block = .sqsig 7 1 3) ∧
    (let s := signals (blockedOn (.sqwait 7 9 (some 5) 0 false 3 1)) 9
     (g3 s).block = .sqwait 7 9 (some 5) 0 false 3 1 ∧ (s.signal 2 7 - 9).toInt ≥ 0 ∧ s.fenceReady 3 (g3 s) .cluster = true ∧
       ({ s with clk := 2 ^ 24 } : State).clk ≥ 0 + 2 ^ 24 ∧ (g3 s).isSeq = false ∧ (g4 s).isSeq = true) := by decide

/-- Gate calls: context 1 has a table of three gates at 0x30000; gate 1 leads to context 2 at 0x6000, gate 2 to the kernel, gate 0 is not
valid. -/
def ctxGates : Ctx := { ctx1 with gtBase := 0x30000, gtSize := 3 }
def gated (f : Group → Group) : State :=
  let s : State := { lanesAt f with ctxs := [(1, ctxGates), (2, { ctx1 with trapent := 0x5000 })] }
  (((((s.writeMem 0x30040 16 (0x6000 + 2 ^ 64 * 2 + 2 ^ 96 * 500)).writeMem 0x30050 8 (2 ^ 15 * 1 + 2 ^ 10 * 1 + 2 ^ 5 * 2 + 1 + 2 ^ 32 * (2 ^ 16 * 16 + 2))).writeMem
    0x30058 4 (2 ^ 31 + 2 ^ 9)).writeMem 0x30068 8 (2 ^ 64 - 1)).writeMem 0x30098 4 (2 ^ 31)).writeMem 0x300A8 8 1
def gateOne : GateEnt := ((gated id).gateCheck { gid := 3, g := grp1, run := 1, act := 1, once := false, lead := 0, pc := 0, word0 := 0, reissue := none } false 5 1).getD {}
def atGate (kern : Bool) (cnt : Counters := {}) : State :=
  gated (fun g => { g with gcall := some { k := 5, g := 1, kern := kern, e := gateOne, lanes := 0x80000001, since := 0 }, cnt := cnt,
                           lanes := { st := .exited } :: List.replicate 31 { pc := 0x1000 } })
def atGret (blk : Block) (cnt : Counters) : State :=
  lanesAt (fun g => { g with ctx := 2, frames := [{ retpc := 0x100C, caller := 1, entered := 1, sdest := 5, tctx := 2, resv := 1, ress := 1, nregs := 64, sregs := 64,
                                                     deadline := some 100, preempt := true, lanes := List.replicate 32 { pc := 0x1000 }, v := [(33, 7)], sc := [(5, 9)] }],
                             lanes := { pc := 0x6000, st := .gret } :: List.replicate 31 { st := .outside }, v := [(0, 4)], sc := [(0, 6)], block := blk, cnt := cnt })
set_option maxRecDepth 20000 in
set_option exponentiation.threshold 4096 in
theorem witness_GateCalls :
    let s := gated id
    let callee := lanesAt (fun g => { g with frames := [{}] })
    let ok (s : State) (i : Instr) (p : Issue → Bool) : Bool := go s i false (fun x => x.act != 0 && s.deltas == [] && p x)
    (ok s (.gcall h 5 1) (fun x => (s.gateCheck x false 5 1).isSome) && ok s (.sysc h 63 2) (fun x => (s.gateCheck x true 63 2).isSome) &&
      [Instr.gcall h 5 0, .gcall h 5 2, .gcall h 64 1, .gcall h 5 3].all (fun i => ok s i (fun x => (s.gateCheck x false (match i with | .gcall _ k _ => k | _ => 0)
        (match i with | .gcall _ _ n => n | _ => 0)).isNone)) && ok s (.sysc h 5 1) (fun x => (s.gateCheck x true 5 1).isNone)) = true ∧
    (ok s (.gret h) (fun x => !x.g.inCallee) && ok callee (.gret h) (fun x => x.g.inCallee && !x.g.hmode)) = true ∧
    (let s := atGate false
     let g := g3 s
     (match g.gcall with
      | some w => !w.kern && s.resident g && !s.stopped g && !g.dead && g.block == .none && g.quiet && s.fenceReady 3 g .device &&
          oldest (s.growWaits g.core) == some (3, w.e.vgran, w.e.scratchKib + 4, 0) && decide (w.e.vgran ≤ s.freeGranules g.core) &&
          decide (w.e.scratchKib + 4 ≤ s.svcFree g.core) && (placeFrame (s.svcUsed g.core) w.e.scratchKib).isSome &&
          w.e.tctx == 2 && w.e.argv == 1 && w.e.args == 2
      | none => false) = true) ∧
    (let s := atGate true
     let g := g3 s
     (match g.gcall with
      | some w => w.kern && s.resident g && g.block == .none && g.quiet && s.fenceReady 3 g .device && (firstFit (s.svcUsed g.core) 4).isSome
      | none => false) = true) := by decide
theorem witness_GateReturns :
    let back (s : State) (fenced : Bool) : Bool := let g := g3 s
      (match g.frames with | [f] => !f.kern && (List.range 32).all (fun l => !f.entered.getLsbD l || (g.lane l).st == .gret) && decide (f.sdest < f.sregs) &&
          f.deadline == some 100 | _ => false) &&
        s.resident g && g.gcall.isNone && g.quiet && g.block == .none && s.fenceReady 3 g .device == fenced && decide (100 ≤ s.regtime g)
    let ahead := (atGret .none {}).updGrp 3 (fun g => { g with ctime := 99 })
    back (atGret .none {}) true = true ∧ back ahead false = true ∧
    (let s := (atGret (.unwind 1 8 0 true) {}).updGrp 3 (fun g => { g with frames := g.frames.map (fun f => { f with deadline := none }) })
     (g3 s).block = .unwind 1 8 0 true ∧ (g3 s).drained = true ∧ s.fenceReady 3 (g3 s) .device = true ∧ s.resident (g3 s) = true ∧
       ∀ f ∈ (g3 s).frames, f.deadline = none) ∧
    (let s := lanesAt (fun g => { g with frames := [{ kern := true, deadline := some 100, sdest := 5, entered := 1 }], block := .sysc })
     s.resident (g3 s) = true ∧ (g3 s).frames = [{ kern := true, deadline := some 100, sdest := 5, entered := 1 }] ∧ (g3 s).block = .sysc ∧ 100 ≤ s.regtime (g3 s)) := by decide

/-- Meetings: an idle record at 0x40000 and an active meeting at 0x50000 whose members 0 and 1 are joined, member 1 of group 3's gang; the
pairs s8:s9, s10:s11 and s12:s13 hold the record's address, a tag with a member, and a buffer. -/
def meet1 : Meet := { n := 4, k := 2, l := 4, fmt := 0, op := 0, lag := 2, late := 0, ord := false, cls := 0, chan := 0, open_ := 5, live := 2, stall := false, disc := 0 }
def meeting (va tag member : Nat) (m : Meet := meet1) : State :=
  let s := lanesAt (fun g => { g with sc := [(8, BitVec.ofNat 32 va), (10, BitVec.ofNat 32 tag), (11, BitVec.ofNat 32 member), (12, 0x60000)] })
  { ((((s.writeMem 0x40000 12 (4 + 2 ^ 32 * 2 + 2 ^ 64 * 4)).writeMem 0x50000 12 (4 + 2 ^ 32 * 2 + 2 ^ 64 * 4)).writeMem 0x50100 1 1).writeMem 0x50120 1 1).writeMem
      0x50128 4 1 with meets := [(0x50000, m)] }
def refOk (s : State) (g : Group) (va key : Nat) (need : Need) : Bool := match s.meetRef g (BitVec.ofNat 64 va) need with
  | (.ok ref, _) => ref.key == key && ref.pinned
  | _ => false
theorem witness_Meetings :
    let ok (s : State) (i : Instr) (va : Nat) (need : Need) (key : Option Nat) : Bool := go s i false (fun x => x.act != 0 && x.g.opnd (.s 8) 2 x.lead == va &&
      canonical (BitVec.ofNat 64 va) && va % 4096 == 0 && x.g.cnt.mt.n == 0 && (match key with
        | some k => refOk s x.g va k need
        | none => (match s.meetRef x.g (BitVec.ofNat 64 va) need with | (.error 1, _) => true | _ => false)))
    let s := meeting 0x50000 5 1
    (ok (meeting 0x40000 0 0) (.mjoin h (.v 4) (.s 8) (.c 3)) 0x40000 .w (some 0x40000) && ok s (.mjoin h (.v 4) (.s 8) (.c 2)) 0x50000 .w (some 0x50000) &&
      ok s (.mcont h (.v 4) (.s 8) (.s 10) (.s 12)) 0x50000 .w (some 0x50000) && ok s (.mrslt h (.v 4) (.s 8) (.s 10) (.s 12)) 0x50000 .w (some 0x50000) &&
      ok s (.mleave h (.v 4) (.s 8) (.c 1)) 0x50000 .w (some 0x50000)) = true ∧
    (let s := { paged (fun g => { g with sc := [(8, 0x6000)] }) with meets := [] }
     ok s (.mjoin h .z (.s 8) (.c 0)) 0x6000 .w none = true) ∧
    ([(0x01000000, 0x8, 0x0D), (0x50001, 0, 0x12)].all (fun (e : Nat × Nat × Nat) =>
      go (lanesAt (fun g => { g with sc := [(8, BitVec.ofNat 32 e.1), (9, BitVec.ofNat 32 (e.2.1 * 2 ^ 25))] })) (.mjoin h .z (.s 8) .z) false (fun x =>
        x.act != 0 && (let va := BitVec.ofNat 64 (x.g.opnd (.s 8) 2 x.lead)
          if e.2.2 = 0x0D then !canonical va else canonical va && va.toNat % 4096 != 0))) = true) := by decide
theorem witness_MeetingStates :
    let s := meeting 0x50000 5 1
    (go s (.mstat h (.v 4) (.s 8) (.c 3)) false (fun x => x.act != 0 && (match s.meetRef x.g 0x50000 .r with
      | (.ok ref, s1) => (match mfind (s1.quorum ref.key).meets ref.key with | some mt => decide (3 < mt.n) && mt.live == 2 | none => false)
      | _ => false)) = true) ∧
    (mfind s.meets 0x50000 = some meet1 ∧ 1 < meet1.n ∧ s.memberState 0x50000 1 = 1 ∧ s.memberCtx 0x50000 1 = 1 ∧ s.memberHave 0x50000 1 = false) ∧
    (let d (r : Nat) : Int := toSigned 32 (r + 2 ^ 32 - 5)
     d 5 = 0 ∧ d 6 = 1 ∧ (d 4 < 0 ∧ d 3 ≥ -2) ∧ d 2 < -2) ∧
    (mfind (meeting 0 0 0 { meet1 with late := 2 }).meets 0x50000).map (·.late) = some 2 ∧ (mfind (meeting 0 0 0 { meet1 with late := 1 }).meets 0x50000).map (·.late) = some 1 ∧
    (mfind (meeting 0 0 0 { meet1 with stall := true }).meets 0x50000).map (·.stall) = some true := by decide
theorem witness_MeetingEvents :
    let s := meeting 0x50000 5 1
    let reply : OpKind := .reply (some (.v 4)) 1 [(0, 0), (31, 0)] none none
    let s1 : State := { s.updGrp 3 (fun g => { g with block := .meet 8 3 }) with ops := [(8, { gid := 3, ctx := 1, kind := reply })] }
    ((mfind s1.ops 8).map (fun o => (o.kind, o.cls)) = some (reply, none) ∧ (g3 s1).block = .meet 8 3) ∧
    (let s2 : State := { s with departs := [{ meet := 0x50000, member := 1, ctx := 1, gang := 0 }] }
     s2.memberState 0x50000 1 = 1 ∧ s2.memberCtx 0x50000 1 = 1 ∧ s2.memberGang 0x50000 1 = 0 ∧ (mfind s2.meets 0x50000).isSome = true ∧
       (({ s2 with departs := [] } : State).setMemberState 0x50000 1 3).streams 0x50000 = []) ∧
    (s.readMem 0x50004 4 = 2 % 2 ^ 32 ∧ s.readMem 0x50004 4 ≠ 3 % 2 ^ 32) ∧
    (let st : Stream := { meet := 0x50000, member := 1, tag := 5, buf := 0x60000, round := 5, st := .ended 3 1 0 }
     let o : Op := { gid := 3, cls := some .mt, ctx := 1, kind := .mcont (.v 4) 1 st }
     ({ s with ops := [(9, o)] } : State).streams 0x50000 = [(9, o, .v 4, 1, st)]) ∧
    (let m : Meet := { meet1 with live := 1, stall := true }
     m.live < m.k ∧ m.stall = true ∧ s.ops = [] ∧ s.readMem (0x50000 + m.slotOff m.open_ + 4) 4 < m.k) := by decide

/-- Groups and launches: groups 5 and 6 share group 3's partition and 6 is pending; lane 31 of group 3 has waited. -/
def crowd (b : Block) : State :=
  { demo with clk := 5000, cur := none,
              groups := [(3, { grp1 with grp := 4, block := b, lanes := List.replicate 31 { pc := 0x1000, wait := 223 } ++ [{ pc := 0x2000, wait := 224 }] }),
                         (6, { grp1 with grp := 8, active := false, readyAt := 904 })] }
/-- All lanes of group 3 have exited; group 7 of its team has not, where `other` says so. -/
def leaving (other : Bool) : State :=
  { base with groups := (3, { grp1 with lanes := List.replicate 32 { st := .exited } }) :: (if other then [(7, grp1)] else []) }
set_option maxRecDepth 20000 in
theorem witness_GroupSets :
    let s := crowd (.wait 0 0 0 0 0 1)
    ((g3 s).core = (gOfId s 6).core ∧ (g3 s).grp % 4 = (gOfId s 6).grp % 4 ∧ s.resident (g3 s) = true ∧ (g3 s).active = true ∧ (gOfId s 6).active = false ∧
      s.isReady 3 (g3 s) = false ∧ s.isReady 6 (gOfId s 6) = true ∧ (gOfId s 6).readyAt + 4096 ≤ s.clk ∧
      (s.groups.filter (fun e => samePart e.2 (gOfId s 6) && s.resident e.2 && e.2.active)) = [(3, g3 s)]) ∧
    ((g3 s).pick = none ∧ (g3 s).starved = laneBit 31 ∧ (gOfId s 6).starved = 0) ∧
    ((g3 base).live ≠ 0 ∧ (g3 base).dead = false) ∧
    ((mfind base.gangs 2).isSome = true ∧ 0 < (mget ({} : Gang) base.gangs 2).teams.length ∧ (base.team 2 0).live = true ∧
      (mget ({} : Launch) base.launches 1).tmpl = none) ∧
    (let ok (s : State) (last : Bool) : Bool := let g := g3 s
       g.live == 0 && g.drained && g.gcall.isNone && g.log == [] && g.trapq == [] && g.frames == [] && !s.traced g && !g.isSeq && s.resident g &&
         ((s.dropGroup 3).teamGroups g.gang g.team == []) == last
     ok (leaving false) true = true ∧ ok (leaving true) false = true) := by decide

/-- Launch queue 5 with `n` records, the first of them with its code at `code` and one team of one group. -/
def launchQueue (code n : Nat) (cur : Option Nat) : State :=
  let s := queued { base with cur := none, gangs := [], groups := [], launches := [] } 0 n false
  { (((s.writeMem 0x9000 8 code).writeMem 0x9018 20 (1 + 2 ^ 32 + 2 ^ 64 + 2 ^ 96 * (1 + 2 ^ 8 + 2 ^ 16 * 8) + 2 ^ 128 * 4)).writeMem 0x7000 8 9) with
    lqs := s.lqs.map (fun e => (e.1, { e.2 with cur := cur })) }
def oneRec : LRec := { code := 0x1000, teams := 1, groups := 1, vregs := 8, sregs := 4, dep0 := 0x7000, dep0v := 9 }
def waitingLaunch (dep : DWord) : State :=
  { launchQueue 0x1000 1 (some 9) with launches := [(9, { ctx := 1, queue := 5, lr := { oneRec with dep0v := dep } })] }
def readyLaunch : State :=
  { launchQueue 0x1000 1 (some 9) with launches := [(9, { ctx := 1, queue := 5, lr := oneRec, met0 := true, met1 := true })],
                                       hub := { base.hub with svc := 2 } }
set_option maxRecDepth 20000 in
theorem witness_Launches :
    let tail (s : State) : Nat := ((reading s (takeTag 5) 0x8008 8).map (·.1)).getD 99
    let ready (s : State) : Bool := match mfind s.lqs 5 with
      | some lq => lq.ctx != 0 && !lq.stopped && lq.cur.isNone && (mget {} s.ctxs 1).live && !(mget {} s.ctxs 1).killing && lq.slots == 16
      | none => false
    (ready (launchQueue 0x1000 0 none) = true ∧ tail (launchQueue 0x1000 0 none) = 0 ∧ tail (launchQueue 0x1000 17 none) = 17 ∧
      tail (launchQueue 0x1000 16 none) = 16) ∧
    (let dep (s : State) : Nat := ((reading s (depTag 5 0) 0x7000 8).map (·.1)).getD 99
     dep (waitingLaunch 10) = 9 ∧ dep (waitingLaunch 9) = 9 ∧ (mfind (waitingLaunch 9).lqs 5).bind (·.cur) = some 9) ∧
    ((mfind readyLaunch.lqs 5).bind (fun lq => readyLaunch.admissible lq)).isSome = true ∧
    (match mfind readyLaunch.launches 9 with
      | some l => l.wants == 1 && readyLaunch.servedNext 5 l && l.lr.xtmpl == 0 && (readyLaunch.startGangs 9 [{ cluster := 0, cores := [3] }]).isSome
      | none => false) = true ∧
    (oneRec.seqcode = 0 ∧ oneRec.groups = 1 ∧ oneRec.wtiles = 0 ∧ (base.core 3).dbg.traceOn = false) := by
  refine ⟨by decide, by decide, by decide, by decide, by decide⟩
set_option maxRecDepth 20000 in
set_option exponentiation.threshold 4096 in
theorem witness_LaunchRecords :
    let taken (s : State) (p : State → Launch → Bool) : Bool := match reading s (takeTag 5) 0x9000 128 with
      | some (x, s2) => (match writing s2 (takeTag 5) 0x8000 8 1 with
        | some s3 => p (s3.forget (takeTag 5)) { ctx := 1, queue := 5, lseq := 0, lr := parseLRec x, met0 := (parseLRec x).dep0 == 0,
                                                 met1 := (parseLRec x).dep1 == 0, prio := min (parseLRec x).prio 0 }
        | none => false)
      | none => false
    taken (launchQueue 0x1000 1 none) (fun s l => l.lr.ok && !s.neverFits l && decide (l.prio < 6)) = true ∧
    taken (launchQueue 0x1004 1 none) (fun _ l => !l.lr.ok) = true := by decide
theorem witness_LaunchEnds :
    let l (status : DWord) : Launch := { ctx := 1, lr := { oneRec with status := status }, started := 1, ended := 1, badTeams := 2, worst := 12 }
    let s (status : DWord) : State := { base with launches := [(1, l status)] }
    (∀ e ∈ (s 0).lqs, e.2.cur ≠ some 1) ∧ ({ l 0 with told := some 36, lr := { oneRec with done := 0x7008 } } : Launch).told = some 36 ∧ 36 + 64 ≤ base.now ∧ (l 0).ended ≥ (l 0).started ∧ (l 0).started ≥ (l 0).lr.total ∧
    (writing ({ s 0x7004 with launches := [] } : State) (endTag 1) 0x7004 4 (2 * 2 ^ 16 + 12)).isSome = true ∧ (s 0).ops = [] := by decide

/-- Pre-emption: context 1 with its one group, stopping, and saved. -/
def preempted (c : Ctx) : State := { base with ctxs := [(1, c)], gangs := [], groups := [(3, { grp1 with nregs := 8, v := [], sc := [] })] }
def savedGang : State :=
  { base with ctxs := [(1, { ctx1 with out := true, eligible := true, outAt := 40 })], gangs := [(2, { ctx := 1, teams := [{ }] })], groups := [(3, grp1)],
              hub := { base.hub with svc := 2 } }
theorem witness_Preemption :
    (let s := preempted { ctx1 with stopping := true, saveBase := 0x70000 }
     (mget {} s.ctxs 1).stopping = true ∧ s.groupsFor 1 = [(3, g3 s)] ∧ s.saveReady (3, g3 s) = true ∧ (g3 s).poison = [] ∧ s.gangs = [] ∧ s.ownWait (g3 s) = none) ∧
    (let c : Ctx := mget {} savedGang.ctxs 1
     let t : State := { savedGang with ctxs := mupd savedGang.ctxs 1 (fun c => { c with out := false, eligible := false }),
                                       groups := savedGang.groups.map (fun e => (e.1, { e.2 with core := nowhere, cluster := nowhere })),
                                       gangs := savedGang.gangs.map (fun e => (e.1, { e.2 with cluster := nowhere, teams := [{ core := nowhere }] })) }
     (c.out && c.eligible && c.live && !c.killing && !savedGang.saving 1 && savedGang.hold == 0) = true ∧ (t.restoreGangs (100 - 40) savedGang.gangs [{ cluster := 1, cores := [7] }]).isSome = true ∧
       t.restoreGangs (100 - 40) savedGang.gangs [] = none) ∧
    (State.reset.groups = [] ∧ State.reset.timed = [] ∧ State.reset.hold = 0 ∧ 1 > State.reset.now) ∧ (base.groups ≠ [] ∧ (0 : Nat) ≤ State.reset.now) := by decide

/-- Hub commands: port 0 with one command. -/
def hubState (code : Nat) (args : List Nat) (busy : Bool) : State :=
  let s := queued { base with cur := none } 2 3 true
  { s with hub := { base.hub with ports := [(0, { queue := [{ code := code, tag := 77, args := args }], busy := busy })] } }
/-- A descriptor of context 3 that passes the check: 64 error slots. -/
def described (slots : Nat) : State := (hubState 1 [3] false).writeMem (256 * 3 + 0x48) 4 slots
set_option maxRecDepth 20000 in
set_option exponentiation.threshold 4096 in
theorem witness_HubCommands :
    let c (code : Nat) (args : List Nat) (busy : Bool) : Bool := ((hubState code args busy).port 0).queue == [{ code := code, tag := 77, args := args }] &&
      ((hubState code args busy).port 0).busy == busy
    (c 1 [3] false && c 2 [1, 0x5000, 4096, 1] true && c 3 [1, 0x5000, 4096, 8] false && c 4 [1] false && c 4 [4095] true && c 6 [9] false && c 0 [] false && c 255 [] false) = true ∧
    (let ok (s : State) : Bool := (parseCtx (s.readMem (s.hub.ctxtab + 256 * 3) 256)).ok (s.readMem (s.hub.ctxtab + 256 * 3) 256)
     ok (described 64) = true ∧ ok (described 0) = false) ∧
    ((hubState 2 [1, 0x5000, 4096, 1] true).invalWaits 1 0x5000 4096 1 = false ∧ ((hubState 2 [1] true).loaded? 1).isSome = true ∧ (hubState 2 [9] false).loaded? 9 = none) ∧
    (let held : State := (hubState 7 [1, 0] false).updGrp 3 (fun g => { g with held := true, trapq := [{ cause := 2, mask := 1, pc := 0, run := 1 }] })
     (held.groupNamed 1 0 (fun g => (g.held || g.dbgHeld) && !g.trapq.isEmpty)).isSome = true) ∧
    (let faulted : State := (hubState 8 [1, 0, 3, 0] false).updGrp 3 (fun g => { g with log := [(3, {})] })
     (faulted.groupNamed 1 0 (fun g => 3 < 4 && (mfind g.log 3).isSome)).isSome = true) ∧
    ((hubState 9 [5] false).syscGroup 5 = none ∧
      (((hubState 9 [5] false).updGrp 3 (fun g => { g with frames := [{ kern := true, req := 5 }], block := .sysc })).syscGroup 5).isSome = true) ∧
    ((mget {} (hubState 0x0A [1023] false).lqs 1023 : LQ).cur = none ∧ firstFree ((hubState 0x0A [1023] false).numsOf 1 1023) 64 0 < 64) ∧
    ((mfind (hubState 0x0B [5] false).lqs 5).map (·.stopped) = some true) := by decide

/-- HubRegisters: slice 4 holds the entry of region 4 in slot 0; group 3's context is traced. -/
def traced (on : Bool) : State := demo.updDbg 0 (fun d => { d with trctl := if on then 2 ^ 63 + 1 else 0 })
def gapped (size : Nat) : State := demo.updDbg 7 (fun d => { d with trsize := size, gap := some { pos := 64, first := 64 } })
theorem witness_HubRegisters :
    ((8 : Nat) % 8 = 0 ∧ (0x4C00000 : Nat) ≤ 0x4C00000 ∧ (0x4C00000 : Nat) % 8 = 0) ∧
    (extending.regionSlice 4 = 4 ∧ (mfind extending.dir 4).isSome = true ∧ mfind demo.dir 4 = none ∧ extending.regionSlice 5 ≠ 4) ∧
    (extending.dir.find? (fun e => extending.regionSlice e.1 == 4 && e.2.slot == 0)).isSome = true ∧
    ((traced false).core 0).dbg.traceOn = false ∧
    (go (traced false) (.trmark h (.v 2) 5) false (fun x => x.act != 0 && !(traced false).traced x.g) &&
      go (traced true) (.trmark h (.v 2) 5) false (fun x => x.act != 0 && (traced true).traced x.g)) = true ∧
    (demo.core 7).dbg.gap = none ∧ ((gapped 0).core 7).dbg.slots = 0 ∧ 64 - ((gapped 1).core 7).dbg.trhead ≥ ((gapped 1).core 7).dbg.slots ∧
    (((gapped 65536).core 7).dbg.slots ≠ 0 ∧ 64 - ((gapped 65536).core 7).dbg.trhead < ((gapped 65536).core 7).dbg.slots) := by decide
theorem witness_HubRegisters_select :
    let u : State := (traced true).updDbg 0 (fun d => { d with trsel := 2 ^ 63 })
    let one : State := { traced true with groups := [(3, grp1)] }
    (u.core 0).dbg.traceOn = true ∧ one.groups = [(3, grp1)] ∧ (one.core 0).dbg.traceOn = true ∧ grp1.core = 0 ∧ (mget ({} : Ctx) one.ctxs 1).out = false ∧
    one.selMatch (one.core 0).dbg grp1 = true := by decide

/-- Bring-up, resets and the links. -/
def failing : List StageResult := [{ stage := 1, unit := 7, code := 0x12345, pass := false, ceilingsHold := true }]
def passing : List StageResult := [{ stage := 5, unit := 7, code := 0, pass := true, ceilingsHold := true }]
theorem witness_BringUpAndResets :
    State.reset.mgmt.stage = 0 ∧ (stageFail failing 1).isSome = true ∧ stageFail passing 1 = none ∧ (∀ r ∈ passing, r.pass = true) ∧
    (State.reset.mgmt.signed = true ∧ State.reset.mgmt.maxSeq ≤ State.reset.mgmt.stored.seq) ∧
    (let s (out : Bool) : State := { base with ctxs := [(1, { ctx1 with out := out })], hub := { base.hub with svc := 1 }, mgmt := { base.mgmt with stage := 5 } }
     (s true).hub.svc = 1 ∧ (s true).mgmt.stage ≥ 5 ∧ (∀ e ∈ (s true).ctxs, e.2.out = true) ∧ (s true).dir = [] ∧
       (∃ e ∈ (s false).ctxs, e.2.out = false ∧ ∃ g ∈ (s false).groups, g.2.ctx0 = e.1)) ∧
    (let c : Cfg := base.mgmt.cfg
     c.clock = 1300 ∧ (815 : Nat) < 816 ∧ (1301 : Nat) > 1300 ∧ (1023 : Nat) < 1024 ∧ (1300 : Nat) ≤ c.clock) ∧
    (({ base with host := { base.host with up := false } } : State).host.downAt + 100000000 ≤ ({ base with now := 100000000 } : State).now) ∧
    (17 : Nat) ∉ base.badLinks ∧ (mfind ({ base with noRoute := [(3, 5)] } : State).noRoute 3 = some 5 ∧ 3 ∉ base.lost) ∧
    (base.ops = [] ∧ (mget ({} : SysCore) base.sys 7).last + 2 ≤ base.now - base.lagHub) := by
  refine ⟨by decide, by decide, by decide, by decide, by decide, ?_, by decide, by decide, by decide, by decide, by decide⟩
  exact ⟨rfl, by decide, by decide, rfl, ⟨_, List.mem_singleton_self _, rfl, ⟨_, List.mem_cons_self, rfl⟩⟩⟩

/-- Storage: lease 2 of context 1 for blocks 10 to 20, served by queue 256; flash ring 1; Ethernet ring 1663. -/
def stored2 (flash : Bool) : State :=
  { base with mgmt := { base.mgmt with cfg := { flash := flash } }, hub := { base.hub with binds := [(256, 2 ^ 63), (1281, 2 ^ 63), (1663, 2 ^ 63)] },
              leases := [(2, { ctx := 1, lo := 10, hi := 20, ops := [.write, .flush] })],
              flashRings := [(1, { ctx := 1, ring := 0x7000, headVa := 0x7800, tailVa := 0x7808, ops := [.write] })] }
def drivenLease : State := { stored2 false with leases := [(2, { ctx := 1, drive := [({ op := .write, cid := 4, lba := 10, count := 11, buf := 0x5000, bytes := 5632 }, [0x5000])] })] }
theorem witness_StorageNetworkAttestation :
    let s := stored2 false
    ((mfind s.leases 2).map (fun l => (l.revoked, s.bound l.queue)) = some (false, true) ∧ s.mgmt.cfg.flash = false ∧
      NvmeOp.read ∉ [NvmeOp.write, .flush] ∧ nvmeRanged .write = true ∧ (10 + 11 - 1 : Nat) ≤ 20 ∧ (10 + 12 - 1 : Nat) > 20 ∧ (9 : Nat) < 10 ∧
      (s.frames 1 .r (pagesOf 0x5000 5632)).toOption = some [0x5000, 0x6000]) ∧
    ((mfind drivenLease.leases 2).map (fun l => l.drive.length) = some 1) ∧
    (let ring (tail : Nat) : State := (stored2 true).writeMem 0x7808 8 tail
     let tail (s : State) : Nat := ((reading s (flashTag 1) 0x7808 8).map (·.1)).getD 99
     tail (ring 0) = 0 ∧ tail (ring 16) = 16 ∧ (ring 0).bound (1280 + 1) = true ∧
       ((reading (ring 16) (flashTag 1) 0x7000 64).bind (fun (r : Nat × State) => writing r.2 (flashTag 1) 0x7800 8 1)).isSome = true) ∧
    (writing (stored2 true) (flashEndTag 1 0) 0x7018 4 (2 ^ 31)).isSome = true ∧
    (s.bound (1536 + 32 * 3 + 2 * 15 + 1) = true ∧ s.bound 1536 = false) := by decide

/-- Steps: a NOP at 0x1000 of group 3, fetched through the heap window with no block cached, and an event. -/
def stepping : State := { (base.writeMem 0x1000 12 0x1E00) with agenda := [.issue 3] }
set_option maxRecDepth 20000 in
theorem witness_StepRunsDecoded :
    let s0 : State := { stepping with agenda := [] }
    (s0.mayIssue grp1 = true ∧ grp1.nextRun = some (0xFFFFFFFF, 0x1000, none) ∧ s0.bpMatch grp1 0x1000 = none) ∧
    (match s0.fetchBlock grp1 0x1000 with
      | (.ok block, s1) => leNat ((block.drop 60).take 4) == 0 && decode false (leNat ((block.drop 0).take 12)) == .ok (.nop h) &&
          !(s1.interlock 3 grp1 (.nop h) 0xFFFFFFFF 0x1000 none) && (match exec (.nop h) { s1 with cur := some { gid := 3, run := 0xFFFFFFFF, pc := 0x1000, word0 := 0x1E00, reissue := none } } with
            | .next _ => true
            | _ => false)
      | _ => false) = true ∧
    (s0.icache = [] ∧ (0x1000 : DWord).toNat / 64 * 64 = 0x1000 ∧ translatesB s0 grp1 0x1000 .x 0x1000 false false = true) ∧
    (Instr.fullServiceMove.hdr = none ∧ s0.turnOfOther 3 grp1 = false) := by decide
/-- Two groups at one instruction with at most 16 lanes each: the second issues in the slot of the first. -/
def together (m : Word) : State :=
  let i : Instr := .iadd lane31 .u32 false false (.v 4) (.v 2) (.v 3)
  { (base.writeMem 0x1000 12 (encode i)) with groups := [(3, grp1), (4, seq1), (5, { grp1 with grp := 4, p := [(2, m)] })] }
set_option maxRecDepth 20000 in
theorem witness_StepRunsDecoded_pairs :
    let i : Instr := .iadd lane31 .u32 false false (.v 4) (.v 2) (.v 3)
    let c : Cur := { gid := 3, run := 0xFFFFFFFF, pc := 0x1000, word0 := 0x1E00 }
    (together 0xC).partner c i = some 5 ∧ (together 0x2).partner c i = none := by decide
theorem witness_StepsAnswer : (∃ c g, demo.cur = some c ∧ demo.grp? c.gid = some g) ∧ (Instr.nop h).hdr ≠ none ∧ base.cur = none ∧ Instr.fullServiceMove.hdr = none :=
  ⟨⟨_, _, rfl, rfl⟩, by decide, rfl, rfl⟩
theorem witness_DecodeOfEncode :
    [(false, Instr.nop h), (true, .iadd h .s32 false false (.s 63) (.s 0) (.c (-1)))].all (fun e => e.2.unitAllows e.1 && e.2.wf e.1) = true ∧
    (0x1E00 : Nat) < 2 ^ 96 ∧ decode false 0x1E00 = .ok (.nop h) := by decide
def passing1 : State := { stepping with agenda := [.pass 1 1] }
theorem witness_MemoryFormKept : Sound passing1 ∧ ∃ t, step passing1 = .next t := ⟨show passing1.memWf = true by decide, _, rfl⟩
/-! ### Single steps, with results worked out by hand from the manual's own examples and tables -/

/-- `demo` with lane 0 of v2, v3, v4 set. -/
def vals (a b c : Word) : State := lanesAt (fun g => { g with v := [(64, a), (96, b), (128, c)] })
/-- Lane 0 of v8 after instruction `i` on those values. -/
def out8 (i : Instr) (a b c : Word) : Word := rv (after (vals a b c) i) 8 0
/-- The group after it. -/
def grp8 (i : Instr) (a b c : Word) : Group := g3 (after (vals a b c) i)

-- 0xFFFFFFFF + 1 wraps and 5 + 7 = 12 (R148); the pc moves past one 12-byte word.
theorem test_iadd_wraps : rv (after demo (.iadd h .u32 false false (.v 4) (.v 2) (.v 3))) 4 0 = 0 ∧
    rv (after demo (.iadd h .u32 false false (.v 4) (.v 2) (.v 3))) 4 1 = 12 ∧
    ((g3 (after demo (.iadd h .u32 false false (.v 4) (.v 2) (.v 3)))).lane 5).pc = 0x100C := by decide
-- IMULH of 0x8000_0000 twice, and of −1 and 2 (R148's examples).
theorem test_imulh_signs : out8 (.imulh h .s32 false (.v 8) (.v 2) (.v 3)) 0x80000000 0x80000000 0 = 0x40000000 ∧
    out8 (.imulh h .s32 false (.v 8) (.v 2) (.v 3)) 0xFFFFFFFF 2 0 = 0xFFFFFFFF ∧
    out8 (.imulh h .u32 false (.v 8) (.v 2) (.v 3)) 0xFFFFFFFF 2 0 = 1 := by decide
-- Table 10-6: IMAD.s32.sat of 0x4000_0000, 2 and 0.
theorem test_imad_saturates : out8 (.imad h .s32 true false (.v 8) (.v 2) (.v 3) (.v 4)) 0x40000000 2 0 = 0x7FFFFFFF := by decide
-- IMADW.s32 of −1, 2 and the pair 0: −2 sign-extended (R148).
theorem test_imadw_sign_extends : out8 (.imadw h .s32 false (.v 8) (.v 2) (.v 3) .z) 0xFFFFFFFF 2 0 = 0xFFFFFFFE ∧
    rv (after (vals 0xFFFFFFFF 2 0) (.imadw h .s32 false (.v 8) (.v 2) (.v 3) .z)) 9 0 = 0xFFFFFFFF := by decide +kernel
-- R149's example: 0xFFFF_FFFF + 1 with no carry in gives 0 and p5 := 1.
theorem test_iaddc_carries : out8 (.iaddc h .u32 false (.v 8) (.v 2) (.v 3) 15 5) 0xFFFFFFFF 1 0 = 0 ∧
    pBit (grp8 (.iaddc h .u32 false (.v 8) (.v 2) (.v 3) 15 5) 0xFFFFFFFF 1 0) 5 0 = true := by decide
-- A source that is the destination, and a subtraction below zero.
theorem test_isub_in_place : rv (after (vals 3 5 0) (.isub h .u32 false false (.v 2) (.v 2) (.v 3))) 2 0 = 0xFFFFFFFE := by decide
-- −7 / 2 = −3 and its remainder −1 (R94); a division by 0 gives −1 (Table 10-6).
theorem test_idiv_truncates : out8 (.idiv h .s32 false (.v 8) (.v 2) (.v 3)) 0xFFFFFFF9 2 0 = 0xFFFFFFFD ∧
    out8 (.irem h .s32 false (.v 8) (.v 2) (.v 3)) 0xFFFFFFF9 2 0 = 0xFFFFFFFF ∧
    out8 (.idiv h .s32 false (.v 8) (.v 2) (.v 3)) 9 0 0 = 0xFFFFFFFF := by decide
-- R150's example of ISAD, with C = 1: 0xFFFF_FFFF + 1.
theorem test_isad_exact_difference : out8 (.isad h .s32 false (.v 8) (.v 2) (.v 3) (.c 1)) 0x7FFFFFFF 0x80000000 0 = 0 := by decide
theorem test_iabs_min : out8 (.iabs h .s32 false false (.v 8) (.v 2)) 0x80000000 0 0 = 0x80000000 ∧
    out8 (.iabs h .s32 true false (.v 8) (.v 2)) 0x80000000 0 0 = 0x7FFFFFFF := by decide
-- The truth tables of R151: 0xAC is A where C is 1 and B where C is 0; 0x22 is A AND NOT B.
theorem test_logt_tables : out8 (.logt h .b32 false (.v 8) (.v 2) (.v 3) (.v 4) 0xAC) 0x12345678 0x9ABCDEF0 0xFFFF0000 = 0x1234DEF0 ∧
    out8 (.logt h .b32 false (.v 8) (.v 2) (.v 3) (.v 4) 0x22) 0xFF 0x0F 0 = 0xF0 := by decide +kernel
-- Table 10-2: shifts by 32 and by a count above the width.
theorem test_shifts_by_the_width : out8 (.shl h .b32 false (.v 8) (.v 2) (.c (-1))) 1 0 0 = 0 ∧
    out8 (.shr h .s32 false (.v 8) (.v 2) (.v 3)) 0x80000000 32 0 = 0xFFFFFFFF ∧
    out8 (.shr h .u32 false (.v 8) (.v 2) (.v 3)) 0x80000000 32 0 = 0 ∧
    out8 (.rot h .b32 false (.v 8) (.v 2) (.v 3)) 0x80000001 33 0 = 3 := by decide
-- CATSH: C = 0 gives B, C = 32 gives A, and C = 8 the window that starts at bit 8.
theorem test_catsh_windows : out8 (.catsh h false (.v 8) (.v 2) (.v 3) (.c 0)) 0x11223344 0x55667788 0 = 0x55667788 ∧
    out8 (.catsh h false (.v 8) (.v 2) (.v 3) (.v 4)) 0x11223344 0x55667788 32 = 0x11223344 ∧
    out8 (.catsh h false (.v 8) (.v 2) (.v 3) (.c 8)) 0x11223344 0x55667788 0 = 0x44556677 := by decide
-- pos 4, len 8: the field 0x56 of 0x1234_8567 is 0x56; a field whose top bit is 1 is sign-extended for .s32 (R153).
theorem test_bfx_extends : out8 (.bfx h .u32 false (.v 8) (.v 2) (.v 3)) 0x12348567 0x0804 0 = 0x56 ∧
    out8 (.bfx h .s32 false (.v 8) (.v 2) (.v 3)) 0x12348967 0x0804 0 = 0xFFFFFF96 := by decide
theorem test_bfi_clips : out8 (.bfi h false (.v 8) (.v 2) (.v 3) (.v 4)) 0xFF 0x081C 0x01234567 = 0xF1234567 := by decide
theorem test_bit_counts : out8 (.clz h .u32 false (.v 8) (.v 2)) 0 0 0 = 32 ∧ out8 (.ffs h .b32 false (.v 8) (.v 2)) 0 0 0 = 0xFFFFFFFF ∧
    out8 (.popc h .b32 false (.v 8) (.v 2)) 0xF00F 0 0 = 8 ∧ out8 (.brev h .b32 false (.v 8) (.v 2)) 1 0 0 = 0x80000000 := by decide
-- −1 < 1 for .s32 and not for .u32 (R155).
theorem test_icmp_signedness : pBit (grp8 (.icmp h .lt .s32 7 (.v 2) (.v 3)) 0xFFFFFFFF 1 0) 7 0 = true ∧
    pBit (grp8 (.icmp h .lt .u32 7 (.v 2) (.v 3)) 0xFFFFFFFF 1 0) 7 0 = false := by decide
-- LEA.u32 of 0x1000 and 3 with sh = 2.
theorem test_lea : out8 (.lea h .u32 false (.v 8) (.v 2) (.v 3) 2) 0x1000 3 0 = 0x100C := by decide
-- FFMA of 1 + 2⁻²³, 1 − 2⁻²³ and −1 is −2⁻⁴⁶ exactly (R158): 1 − 2⁻²³ is 0x3F7FFFFE, and −2⁻⁴⁶ has exponent field 127 − 46 = 81.
theorem test_ffma_rounds_once :
    out8 (.ffma h .f32 .rn false false (.v 8) (.v 2) (.v 3) (.v 4)) 0x3F800001 0x3F7FFFFE 0xBF800000 = 0xA8800000 := by decide
-- 1.0 + 2⁻²⁴ is halfway: even is 1.0, up is 1 + 2⁻²³ (R89).
theorem test_fadd_rounding_modes : out8 (.fadd h .f32 .rn false false (.v 8) (.v 2) (.v 3)) 0x3F800000 0x33800000 0 = 0x3F800000 ∧
    out8 (.fadd h .f32 .rp false false (.v 8) (.v 2) (.v 3)) 0x3F800000 0x33800000 0 = 0x3F800001 := by decide
-- The clamp idiom of R159: 3.0 becomes 1.0, and a quiet NaN becomes 1.0.
theorem test_fmin_clamps : out8 (.fmin h .f32 false false (.v 8) (.v 2) (.v 3)) 0x40400000 0x3F800000 0 = 0x3F800000 ∧
    out8 (.fmin h .f32 false false (.v 8) (.v 2) (.v 3)) 0x7FC00000 0x3F800000 0 = 0x3F800000 := by decide
-- FSQRT(−0) is −0 (R161), and 2.25 has the root 1.5.
theorem test_fsqrt : out8 (.fsqrt h .f32 .rn false false (.v 8) (.v 2)) 0x80000000 0 0 = 0x80000000 ∧
    out8 (.fsqrt h .f32 .rn false false (.v 8) (.v 2)) 0x40100000 0 0 = 0x3FC00000 := by decide +kernel
-- FRND.rm(−0.5) is −1.0 and FRND.rz(−0.5) is −0 (R163).
theorem test_frnd_half : out8 (.frnd h .f32 .rm false false (.v 8) (.v 2)) 0xBF000000 0 0 = 0xBF800000 ∧
    out8 (.frnd h .f32 .rz false false (.v 8) (.v 2)) 0xBF000000 0 0 = 0x80000000 := by decide
-- 2⁵ and log₂ 32 are exact (R162).
theorem test_fexp2_exact : out8 (.fexp2 h false false (.v 8) (.v 2)) 0x40A00000 0 0 = 0x42000000 ∧
    out8 (.flog2 h false false (.v 8) (.v 2)) 0x42000000 0 0 = 0x40A00000 := by decide
-- +0 and −0 compare equal (R160).
theorem test_fcmp_zeros : pBit (grp8 (.fcmp h .eq .f32 false 7 (.v 2) .z) 0x80000000 0 0) 7 0 = true := by decide
-- −1.5 to s32: toward zero −1, down −2 (R166).
theorem test_cvt_to_integer : out8 (.cvt h .s32 .f32 .rz false false false (.v 8) 0 (.v 2) 0) 0xBFC00000 0 0 = 0xFFFFFFFF ∧
    out8 (.cvt h .s32 .f32 .rm false false false (.v 8) 0 (.v 2) 0) 0xBFC00000 0 0 = 0xFFFFFFFE := by decide
-- (1)(4) + (2)(3) + (3)(2) + (4)(1) + 10 = 30; as .s8 the byte 0xFF is −1 (R170).
theorem test_dot4 : out8 (.dot4 h .u8 false false (.v 8) (.v 2) (.v 3) (.v 4)) 0x04030201 0x01020304 10 = 30 ∧
    out8 (.dot4 h .s8 false false (.v 8) (.v 2) (.v 3) (.v 4)) 0x000000FF 0x00000002 1 = 0xFFFFFFFF := by decide
theorem test_movi : rv (after demo (.movi h (.v 9) 0xDEADBEEF)) 9 31 = 0xDEADBEEF := by decide
theorem test_wrlane_leaves_others : rv (after demo (.wrlane h .b32 (.v 2) (.c 9) (.c 1))) 2 1 = 9 ∧
    rv (after demo (.wrlane h .b32 (.v 2) (.c 9) (.c 1))) 2 0 = 0xFFFFFFFF := by decide
-- A GRED over u32: every lane gets the sum 1 + 7 (the other lanes of v3 hold 0).
theorem test_gred_adds : rv (after demo (.gred h .add .u32 false (.v 9) (.v 3))) 9 30 = 8 := by decide
-- BRA moves six slots on from slot 0 of the line at 0x1000: slot 1 of the next line; the line's fifth slot is its last (R108, R175).
theorem test_bra_skips_padding : ((g3 (after demo (.bra h 6))).lane 3).pc = 0x104C ∧
    ((g3 (after demo (.bra h 5))).lane 3).pc = 0x1040 := by decide
-- A BRX to 0x…3C, no slot of a line, queues MISALIGNED_TARGET (cause 7) for lane 0; the other lanes go to address 0 (R175).
theorem test_brx_misaligned : let g := grp8 (.brx h (.v 2)) 0x103C 0 0
    g.trapq.map (fun t => (t.cause, t.mask, t.pc, t.addr)) = [(7, 1, 0x1000, 0x103C)] := by decide
theorem test_call_pushes : (((g3 (after demo (.call h 10))).lane 0).pc, ((g3 (after demo (.call h 10))).lane 0).stack) = (0x1080, [0x100C]) := by decide
-- p2 is set in lanes 0 and 1 only.
theorem test_vote_ballot : rv (after demo (.vote h .ballot false (.reg (.v 9)) 2)) 9 17 = 3 := by decide
-- Lane 0 reads lane 1 and lane 31 lane 0: a rotation by 1 (R185).
theorem test_lxch_rotates : rv (after demo (.lxch h .rot .b32 false (.v 9) (.v 2) (.c 1))) 9 0 = 5 ∧
    rv (after demo (.lxch h .rot .b32 false (.v 9) (.v 2) (.c 1))) 9 31 = 0xFFFFFFFF := by decide
-- TRAP 0x2A queues one record for all 32 lanes (R188, Table 11-8: code 0x2A, depth 1).
theorem test_trap_queues : (g3 (after demo (.trap h 0x2A))).trapq.map (fun t => (t.code, t.depth, t.mask, t.pc)) =
    [(0x2A, 1, 0xFFFFFFFF, 0x1000)] := by decide
theorem test_rdsr_laneid : rv (after demo (.rdsr h (.v 9) .laneid)) 9 13 = 13 := by decide
-- v2 holds −1 in lane 0 and 5 in lane 1; bit 1 is tested.
theorem test_pset : pBit (g3 (after demo (.pset h 6 (.v 2) (.c 2)))) 6 0 = true ∧ pBit (g3 (after demo (.pset h 6 (.v 2) (.c 2)))) 6 1 = false := by decide
theorem test_pmov_mask : rv (after demo (.pmov h false 2 (.v 9))) 9 4 = 3 := by decide

end Sys2Proof.Tests
end

section
/-! The proof of `Obligations.DivideAndCompare` (R94, R150, Table 5-7). -/

namespace Sys2Proof.Machine

/-! ### The values of integer division, comparison and absolute difference -/

/-- Table 5-7: a zero divisor gives all ones. -/
theorem divInt_eq (ty : Ty) (a b : Int) :
    divInt ty a b = if b = 0 then 2 ^ ty.width - 1 else wrap ty.width (Int.tdiv a b) := by
  rw [divInt, wrap_neg_one]

theorem wrap_natCast (w n : Nat) : wrap w (n : Int) = n % 2 ^ w := by
  rw [wrap, ← Int.natCast_emod, Int.toNat_natCast]

/-- The model sums ISAD's magnitude and addend as naturals; R150 states the sum over the integers. -/
theorem natAbs_add_mod_eq_wrap (w c : Nat) (v : Int) : (v.natAbs + c) % 2 ^ w = wrap w (|v| + (c : Int)) := by
  rw [← wrap_natCast, Int.natCast_add, Int.natCast_natAbs]

/-! ### What each instruction writes -/

section
variable (h : Hdr) (ty : Ty) (sat z : Bool) (d a b c : Opnd)

theorem writes_idiv : WritesOnly (.idiv h ty z d a b) true d ty.regs z (fun _ x l =>
    if x.g.int ty b l = 0 then 2 ^ ty.width - 1 else wrap ty.width (Int.tdiv (x.g.int ty a l) (x.g.int ty b l))) := by
  have hexec : ∀ s, exec (.idiv h ty z d a b) s = execIdiv h ty z d a b s := fun _ => rfl
  simpa only [divInt_eq] using writes_alu0 hexec

theorem writes_irem : WritesOnly (.irem h ty z d a b) true d ty.regs z (fun _ x l =>
    if x.g.int ty b l = 0 then wrap ty.width (x.g.int ty a l)
    else wrap ty.width (Int.tmod (x.g.int ty a l) (x.g.int ty b l))) := by
  have hexec : ∀ s, exec (.irem h ty z d a b) s = execIrem h ty z d a b s := fun _ => rfl
  simpa only [remInt] using writes_alu0 hexec

theorem writes_imin : WritesOnly (.imin h ty z d a b) true d ty.regs z (fun _ x l =>
    wrap ty.width (if x.g.int ty a l ≤ x.g.int ty b l then x.g.int ty a l else x.g.int ty b l)) := by
  have hexec : ∀ s, exec (.imin h ty z d a b) s = execImin h ty z d a b s := fun _ => rfl
  simpa only [min_def] using writes_alu0 hexec

theorem writes_imax : WritesOnly (.imax h ty z d a b) true d ty.regs z (fun _ x l =>
    wrap ty.width (if x.g.int ty a l ≤ x.g.int ty b l then x.g.int ty b l else x.g.int ty a l)) := by
  have hexec : ∀ s, exec (.imax h ty z d a b) s = execImax h ty z d a b s := fun _ => rfl
  simpa only [max_def] using writes_alu0 hexec

theorem writes_iabs : Writes (.iabs h ty sat z d a) true d ty.regs z
    (fun _ x l => wrap ty.width
      (if sat then max (intMin ty) (min (intMax ty) |x.g.int ty a l|) else |x.g.int ty a l|))
    (fun x l => if sat = true ∧ (|x.g.int ty a l| < intMin ty ∨ intMax ty < |x.g.int ty a l|) then fSAT else 0) := by
  have hexec : ∀ s, exec (.iabs h ty sat z d a) s = execIabs h ty sat z d a s := fun _ => rfl
  simpa only [Int.natCast_natAbs] using put1 ty sat _ hexec

theorem writes_ineg : Writes (.ineg h ty sat z d a) true d ty.regs z
    (fun _ x l => wrap ty.width
      (if sat then max (intMin ty) (min (intMax ty) (-x.g.int ty a l)) else -x.g.int ty a l))
    (fun x l => if sat = true ∧ (-x.g.int ty a l < intMin ty ∨ intMax ty < -x.g.int ty a l) then fSAT else 0) :=
  put1 ty sat (fun g l => -g.int ty a l) (fun _ => rfl)

theorem writes_isad : WritesOnly (.isad h ty z d a b c) true d 1 z (fun _ x l =>
    wrap 32 (|x.g.int ty a l - x.g.int ty b l| + (x.g.opnd c 1 l : Int))) := by
  have hexec : ∀ s, exec (.isad h ty z d a b c) s = execIsad h ty z d a b c s := fun _ => rfl
  simpa only [natAbs_add_mod_eq_wrap, Group.u32] using writes_alu0 hexec

end

/-- Settles O5, instruction by instruction. -/
theorem divideAndCompare : Obligations.DivideAndCompare := by
  unfold Obligations.DivideAndCompare
  intro h ty sat z d a b c
  exact ⟨writes_idiv h ty z d a b, writes_irem h ty z d a b, writes_imin h ty z d a b, writes_imax h ty z d a b,
    writes_iabs h ty sat z d a, writes_ineg h ty sat z d a, writes_isad h ty z d a b c⟩

end Sys2Proof.Machine
end

section
/-! The proof of `Obligations.AddAndMultiply` (R148). -/

namespace Sys2Proof.Machine

/-- R148: the high half of the exact product is its quotient by 2^w, rounded down. -/
theorem writes_imulh (h : Hdr) (ty : Ty) (z : Bool) (d a b : Opnd) : WritesOnly (.imulh h ty z d a b) true d ty.regs z
    (fun _ x l => wrap ty.width (x.g.int ty a l * x.g.int ty b l / 2 ^ ty.width)) := by
  have hexec : ∀ s, exec (.imulh h ty z d a b) s = execImulh h ty z d a b s := fun _ => rfl
  simpa only [Nat.cast_pow, Nat.cast_ofNat] using writes_alu0 hexec

/-- Settles O3: each instruction writes its exact integer by the rule for `putInt` or, without `.sat`, by the rule for a result that
raises no flag. -/
theorem addAndMultiply : Obligations.AddAndMultiply := by
  unfold Obligations.AddAndMultiply
  intro h ty sat z d a b c
  refine ⟨?iadd, ?isub, ?iadd3, ?imad, ?imul, writes_imulh h ty z d a b, ?imadw⟩
  case iadd => exact put1 ty sat (fun g l => g.int ty a l + g.int ty b l) fun _ => rfl
  case isub => exact put1 ty sat (fun g l => g.int ty a l - g.int ty b l) fun _ => rfl
  case iadd3 => exact put1 ty sat (fun g l => g.int ty a l + g.int ty b l + g.int ty c l) fun _ => rfl
  case imad => exact put1 ty sat (fun g l => g.int ty a l * g.int ty b l + g.int ty c l) fun _ => rfl
  case imul => exact writes_alu0 (f := fun g l => wrap ty.width (g.int ty a l * g.int ty b l)) fun _ => rfl
  case imadw =>
    exact writes_alu0
      (f := fun g l => wrap 64 (intVal ty (g.opnd a 1 l) * intVal ty (g.opnd b 1 l) + (g.opnd c 2 l : Int))) fun _ => rfl

end Sys2Proof.Machine
end

section
/-! The proof of `Obligations.BitwiseOperations` (R151, R154). -/

namespace Sys2Proof.Machine

/-- Settles O6: each instruction writes its value function, and the laws of the value functions say what their bits are. -/
theorem bitwiseOperations : Obligations.BitwiseOperations := by
  unfold Obligations.BitwiseOperations
  refine ⟨⟨fun h ty z d a b c tt => ⟨?and, ?or, ?xor, ?not, ?logt⟩, compl_testBit, logt_testBit⟩,
    fun h ty z d a => ⟨?popc, ?clz, ?ffs, ?brev⟩, popBits_eq, fun w x hx => ⟨rfl, clz_eq w x hx⟩, fun w x => ?ffs_value,
    fun w x => (rev_eq w x).2⟩
  case and => exact writes_alu0 (f := fun g l => g.raw ty a l &&& g.raw ty b l) fun _ => rfl
  case or => exact writes_alu0 (f := fun g l => g.raw ty a l ||| g.raw ty b l) fun _ => rfl
  case xor => exact writes_alu0 (f := fun g l => g.raw ty a l ^^^ g.raw ty b l) fun _ => rfl
  case not => exact writes_alu0 (f := fun g l => compl ty.width (g.raw ty a l)) fun _ => rfl
  case logt =>
    exact writes_alu0 (f := fun g l => logtBits tt (g.raw ty a l) (g.raw ty b l) (g.raw ty c l) ty.width) fun _ => rfl
  case popc => exact writes_alu0 (f := fun g l => popBits ty.width (g.raw ty a l)) fun _ => rfl
  case clz => exact writes_alu0 (f := fun g l => clzBits ty.width (g.raw ty a l)) fun _ => rfl
  case ffs => exact writes_alu0 (f := fun g l => ffsBits ty.width 0 (g.raw ty a l)) fun _ => rfl
  case brev => exact writes_alu0 (f := fun g l => revBits ty.width (g.raw ty a l)) fun _ => rfl
  case ffs_value => simpa only [Nat.zero_add] using ffs_eq w 0 x

end Sys2Proof.Machine
end

section
/-! The proof of `Obligations.ShiftsAndFields` (R152, R153, Table 10-2). -/

namespace Sys2Proof.Machine

/-! ### The values of the shifts -/

/-- The model tests the count against the width first; a shift by that much or more leaves a multiple of 2^w. -/
theorem shlBits_eq (w a n : Nat) : shlBits w a n = a * 2 ^ n % 2 ^ w := by
  unfold shlBits
  split
  case isTrue hn => exact (Nat.mod_eq_zero_of_dvd (Dvd.dvd.mul_left (pow_dvd_pow 2 hn) a)).symm
  case isFalse => rfl

theorem shrBits_unsigned {ty : Ty} (hty : ty.signed = false) (a n : Nat) :
    shrBits ty a n = if n ≥ ty.width then 0 else a / 2 ^ n := by
  simp [shrBits, hty]

theorem shrBits_signed {ty : Ty} (hty : ty.signed = true) (a n : Nat) :
    shrBits ty a n = wrap ty.width (intVal ty a / 2 ^ min n (ty.width - 1)) := by
  simp [shrBits, hty]

/-! ### The bits of a field (R153) -/

/-- The length of a field: bits 15:8 of the control operand, at most 32. -/
def fieldLen (ctl : Nat) : Nat := min (ctl / 256 % 256) 32

theorem bfxBits_eq (sgn : Bool) (a ctl : Nat) : bfxBits sgn a ctl =
    if fieldLen ctl = 0 then 0
    else if sgn then wrap 32 (toSigned (fieldLen ctl) (wrap (fieldLen ctl) (toSigned 32 a / 2 ^ (ctl % 256))))
    else a / 2 ^ (ctl % 256) % 2 ^ fieldLen ctl := by
  simp only [bfxBits, Nat.cast_pow, Nat.cast_ofNat]
  rfl

/-- C below the field, then the low bits of A, then C above the field, which ends at bit 31 at the latest. -/
theorem bfiBits_eq (a ctl c : Nat) : bfiBits a ctl c =
    if 32 ≤ ctl % 256 ∨ fieldLen ctl = 0 then c
    else c % 2 ^ (ctl % 256) + 2 ^ (ctl % 256) * (a % 2 ^ (min (ctl % 256 + fieldLen ctl) 32 - ctl % 256))
      + 2 ^ min (ctl % 256 + fieldLen ctl) 32 * (c / 2 ^ min (ctl % 256 + fieldLen ctl) 32) := by
  simp only [bfiBits, Bool.or_eq_true, decide_eq_true_eq]
  rfl

theorem bfxBits_empty (sgn : Bool) (a : Nat) {ctl : Nat} (hlen : fieldLen ctl = 0) : bfxBits sgn a ctl = 0 := by
  rw [bfxBits_eq, if_pos hlen]

theorem bfiBits_empty (a c : Nat) {ctl : Nat} (hlen : fieldLen ctl = 0) : bfiBits a ctl c = c := by
  rw [bfiBits_eq, if_pos (.inr hlen)]

theorem testBit_bfxBits_unsigned (a n : Nat) {ctl : Nat} (hlen : 0 < fieldLen ctl) :
    (bfxBits false a ctl).testBit n = (decide (n < fieldLen ctl) && a.testBit (ctl % 256 + n)) := by
  rw [bfxBits_eq, if_neg hlen.ne', if_neg Bool.false_ne_true, Nat.testBit_mod_two_pow, Nat.testBit_div_two_pow, Nat.add_comm]

/-- Bits of the field come from A, sign-extended past its bit 31; bits above the field repeat the field's highest. -/
theorem testBit_bfxBits_signed (a : Nat) {n ctl : Nat} (hn : n < 32) (hlen : 0 < fieldLen ctl) :
    (bfxBits true a ctl).testBit n = a.testBit (min 31 (ctl % 256 + min n (fieldLen ctl - 1))) := by
  have hin : min n (fieldLen ctl - 1) < fieldLen ctl := by omega
  rw [bfxBits_eq, if_neg hlen.ne', if_pos rfl, wrap_testBit, toSigned_bit _ _ _ hlen, wrap_testBit,
    Int.ediv_ediv_of_nonneg (by positivity), ← pow_add, toSigned_bit 32 a _ (by norm_num), min_comm 31]
  simp only [hn, hin, decide_true, Bool.true_and, Nat.reduceSub]

/-- The bits of a number put together from `c` below `pos`, `a` up to `top` and `c` again from there. -/
theorem testBit_insert (a c n : Nat) {pos top : Nat} (h : pos ≤ top) :
    (c % 2 ^ pos + 2 ^ pos * (a % 2 ^ (top - pos)) + 2 ^ top * (c / 2 ^ top)).testBit n =
      if pos ≤ n ∧ n < top then a.testBit (n - pos) else c.testBit n := by
  have hlow : c % 2 ^ pos < 2 ^ pos := Nat.mod_lt _ (by positivity)
  have hmid : 2 ^ pos * (a % 2 ^ (top - pos)) + c % 2 ^ pos < 2 ^ top := by
    have hfield : a % 2 ^ (top - pos) < 2 ^ (top - pos) := Nat.mod_lt _ (by positivity)
    calc 2 ^ pos * (a % 2 ^ (top - pos)) + c % 2 ^ pos
        < 2 ^ pos * (a % 2 ^ (top - pos) + 1) := by rw [Nat.mul_succ]; omega
      _ ≤ 2 ^ pos * 2 ^ (top - pos) := Nat.mul_le_mul_left _ hfield
      _ = 2 ^ top := by rw [← pow_add, Nat.add_sub_cancel' h]
  rw [Nat.add_comm, Nat.add_comm (c % 2 ^ pos), Nat.testBit_two_pow_mul_add _ hmid, Nat.testBit_two_pow_mul_add _ hlow]
  rcases lt_or_ge n pos with hn | hn
  · rw [if_pos (by omega), if_pos hn, if_neg (by omega), Nat.testBit_mod_two_pow, decide_eq_true hn, Bool.true_and]
  rcases lt_or_ge n top with hn' | hn'
  · rw [if_pos hn', if_neg (by omega), if_pos ⟨hn, hn'⟩, Nat.testBit_mod_two_pow, decide_eq_true (by omega), Bool.true_and]
  · rw [if_neg (by omega), if_neg (by omega), Nat.testBit_div_two_pow, Nat.sub_add_cancel hn']

theorem testBit_bfiBits (a c : Nat) {n ctl : Nat} (hn : n < 32) (hlen : 0 < fieldLen ctl) : (bfiBits a ctl c).testBit n =
    if ctl % 256 ≤ n ∧ n < ctl % 256 + fieldLen ctl then a.testBit (n - ctl % 256) else c.testBit n := by
  rw [bfiBits_eq]
  split
  case isTrue hout => rw [if_neg (by omega)]
  case isFalse =>
    rw [testBit_insert a c n (by omega)]
    simp only [lt_min_iff, hn, and_true]

/-! ### What each instruction writes -/

section
variable (h : Hdr) (ty : Ty) (z : Bool) (d a b : Opnd)

theorem writes_shl : WritesOnly (.shl h ty z d a b) true d ty.regs z
    (fun _ x l => x.g.opnd a ty.regs l * 2 ^ x.g.opnd b 1 l % 2 ^ ty.width) := by
  have hexec : ∀ s, exec (.shl h ty z d a b) s = execShl h ty z d a b s := fun _ => rfl
  simpa only [shlBits_eq, Group.raw, Group.u32] using writes_alu0 hexec

theorem writes_shr_unsigned (hty : ty.signed = false) : WritesOnly (.shr h ty z d a b) true d ty.regs z
    (fun _ x l => if x.g.opnd b 1 l ≥ ty.width then 0 else x.g.opnd a ty.regs l / 2 ^ x.g.opnd b 1 l) := by
  have hexec : ∀ s, exec (.shr h ty z d a b) s = execShr h ty z d a b s := fun _ => rfl
  simpa only [shrBits_unsigned hty, Group.raw, Group.u32] using writes_alu0 hexec

theorem writes_shr_signed (hty : ty.signed = true) : WritesOnly (.shr h ty z d a b) true d ty.regs z
    (fun _ x l => wrap ty.width (x.g.int ty a l / 2 ^ min (x.g.opnd b 1 l) (ty.width - 1))) := by
  have hexec : ∀ s, exec (.shr h ty z d a b) s = execShr h ty z d a b s := fun _ => rfl
  simpa only [shrBits_signed hty, Group.raw, Group.u32, Group.int] using writes_alu0 hexec

end

/-- Settles O7: each instruction writes its value function, and the laws of the value functions say where each bit goes. -/
theorem shiftsAndFields : Obligations.ShiftsAndFields := by
  unfold Obligations.ShiftsAndFields
  refine ⟨⟨fun h ty z d a b c => ⟨writes_shl h ty z d a b, writes_shr_unsigned h ty z d a b, writes_shr_signed h ty z d a b,
      ?rot, ?catsh⟩, testBit_rot, testBit_catsh⟩,
    fun h ty z d a b c => ⟨?bfx, ?bfi⟩, fun a ctl c n _ _ hn => ⟨fun hlen => ?empty, fun hlen => ?field⟩⟩
  case rot => exact writes_alu0 (f := fun g l => rotBits ty.width (g.raw ty a l) (g.u32 b l)) fun _ => rfl
  case catsh => exact writes_alu0 (f := fun g l => catshBits (g.u32 a l) (g.u32 b l) (g.u32 c l)) fun _ => rfl
  case bfx => exact writes_alu0 (f := fun g l => bfxBits ty.signed (g.u32 a l) (g.u32 b l)) fun _ => rfl
  case bfi => exact writes_alu0 (f := fun g l => bfiBits (g.u32 a l) (g.u32 b l) (g.u32 c l)) fun _ => rfl
  case empty => exact ⟨bfxBits_empty true a hlen, bfxBits_empty false a hlen, bfiBits_empty a c hlen⟩
  case field =>
    exact ⟨testBit_bfxBits_unsigned a n hlen, testBit_bfxBits_signed a hn hlen, testBit_bfiBits a c hn hlen⟩

end Sys2Proof.Machine
end

section
/-! The proof of `Obligations.FloatCompare` (R126, R159, R160). -/

namespace Sys2Proof.Machine

/-! ### Operands under .ftz (R89) -/

theorem fvalZ_of_not_subnormal (ftz : Bool) {ty : Ty} {x : Nat} (h : isSubnormal ty x = false) :
    fvalZ ftz ty x = fval ty x := by
  simp [fvalZ, h]

theorem fvalZ_of_subnormal {ty : Ty} {x : Nat} (h : isSubnormal ty x = true) :
    fvalZ true ty x = .fin (bitAt x (ty.width - 1)) 0 0 := by
  simp [fvalZ, h]

/-! ### FMIN and FMAX (R159) -/

/-- The order of two numbers in which −0 lies below +0. -/
def FVal.below (a b : FVal) : Bool := decide (fcmpV a b < 0) || fcmpV a b == 0 && a.isNeg && !b.isNeg

theorem FVal.below_iff (a b : FVal) :
    a.below b = true ↔ fcmpV a b < 0 ∨ fcmpV a b = 0 ∧ a.isNeg = true ∧ b.isNeg = false := by
  simp [FVal.below, and_assoc]

section
variable {ty : Ty} (mx : Bool) {x y : Nat}

/-- What is left of FMIN and FMAX without .ftz. -/
theorem fminmax_kept : fminmax ty false mx x y =
    let a := fval ty x
    let b := fval ty y
    let fl := snanFlag a ||| snanFlag b
    if a.isNaN && b.isNaN then (Ty.canonNaN ty, fl)
    else if a.isNaN then (y % 2 ^ ty.width, fl)
    else if b.isNaN then (x % 2 ^ ty.width, fl)
    else (if a.below b != mx then x % 2 ^ ty.width else y % 2 ^ ty.width, fl) := rfl

theorem fminmax_flags : (fminmax ty false mx x y).2 = snanFlag (fval ty x) ||| snanFlag (fval ty y) := by
  simp only [fminmax_kept, apply_ite Prod.snd, ite_self]

theorem fminmax_both_nan (hx : (fval ty x).isNaN = true) (hy : (fval ty y).isNaN = true) :
    (fminmax ty false mx x y).1 = Ty.canonNaN ty := by
  simp [fminmax_kept, hx, hy]

theorem fminmax_left_nan (hx : (fval ty x).isNaN = true) (hy : (fval ty y).isNaN = false) :
    (fminmax ty false mx x y).1 = y % 2 ^ ty.width := by
  simp [fminmax_kept, hx, hy]

theorem fminmax_right_nan (hx : (fval ty x).isNaN = false) (hy : (fval ty y).isNaN = true) :
    (fminmax ty false mx x y).1 = x % 2 ^ ty.width := by
  simp [fminmax_kept, hx, hy]

/-- The minimum of two numbers is the first when it lies below the second, and else the second; the maximum is the other. -/
theorem fminmax_numbers (hx : (fval ty x).isNaN = false) (hy : (fval ty y).isNaN = false) : (fminmax ty false mx x y).1 =
    (if (fval ty x).below (fval ty y) != mx then x else y) % 2 ^ ty.width := by
  simp only [fminmax_kept, hx, hy, Bool.and_self, Bool.false_eq_true, if_false, apply_ite (· % 2 ^ ty.width)]

theorem fminmax_of_below (hx : (fval ty x).isNaN = false) (hy : (fval ty y).isNaN = false)
    (h : fcmpV (fval ty x) (fval ty y) < 0 ∨
      fcmpV (fval ty x) (fval ty y) = 0 ∧ (fval ty x).isNeg = true ∧ (fval ty y).isNeg = false) :
    (fminmax ty false mx x y).1 = (if mx then y else x) % 2 ^ ty.width := by
  rw [fminmax_numbers mx hx hy, (FVal.below_iff _ _).2 h]
  cases mx <;> rfl

theorem fminmax_of_above (hx : (fval ty x).isNaN = false) (hy : (fval ty y).isNaN = false)
    (h : fcmpV (fval ty x) (fval ty y) > 0) : (fminmax ty false mx x y).1 = (if mx then x else y) % 2 ^ ty.width := by
  have hnot : (fval ty x).below (fval ty y) = false := by
    rw [Bool.eq_false_iff, ne_eq, FVal.below_iff]
    omega
  rw [fminmax_numbers mx hx hy, hnot]
  cases mx <;> rfl

end

/-! ### FCMP (R126, R160) -/

section
variable {a b : FVal}

/-- Two numbers meet the condition that their order meets, and raise no flag. -/
theorem fcond_numbers (ha : a.isNaN = false) (hb : b.isNaN = false) :
    fcond .eq a b = (decide (fcmpV a b = 0), 0) ∧ fcond .ne a b = (decide (fcmpV a b ≠ 0), 0) ∧
    fcond .lt a b = (decide (fcmpV a b < 0), 0) ∧ fcond .le a b = (decide (fcmpV a b ≤ 0), 0) ∧
    fcond .gt a b = (decide (fcmpV a b > 0), 0) ∧ fcond .ge a b = (decide (fcmpV a b ≥ 0), 0) ∧
    fcond .num a b = (true, 0) ∧ fcond .nan a b = (false, 0) := by
  simp [fcond, ha, hb, isNaN_snan a ha, isNaN_snan b hb, beq_eq_decide, bne]

/-- A NaN operand meets .ne and .nan alone, and raises NV in an ordering. -/
theorem fcond_nan (h : a.isNaN = true ∨ b.isNaN = true) :
    (fcond .eq a b).1 = false ∧ (fcond .ne a b).1 = true ∧ (fcond .num a b).1 = false ∧ (fcond .nan a b).1 = true ∧
    fcond .lt a b = (false, fNV) ∧ fcond .le a b = (false, fNV) ∧ fcond .gt a b = (false, fNV) ∧
    fcond .ge a b = (false, fNV) := by
  have hun : (a.isNaN || b.isNaN) = true := by simpa using h
  simp [fcond, hun]

/-- The conditions that do not order raise NV for a signalling NaN alone. -/
theorem fcond_flag_iff {cc : Cmp} (hcc : cc = .eq ∨ cc = .ne ∨ cc = .num ∨ cc = .nan) :
    (fcond cc a b).2 = fNV ↔ a = .nan true ∨ b = .nan true := by
  rcases hcc with rfl | rfl | rfl | rfl <;> exact snan_or a b

end

/-- Settles O10: the three instructions write their value functions; the order of numbers is that of the rationals, and the cases of
each value function follow the operands that are NaNs. -/
theorem floatCompare : Obligations.FloatCompare := by
  unfold Obligations.FloatCompare
  refine ⟨fun h cc ty ftz z d a b p => ⟨?fmin, ?fmax, ?fcmp⟩, fun ty mx x y => ?minmax, fun n m a b e f => ?order,
    fun a b => ⟨fcond_numbers, fun hnan => ?nan⟩,
    fun g ty o l => ⟨rfl, fvalZ_of_not_subnormal true, fvalZ_of_subnormal⟩⟩
  case fmin => exact writes_alu (f := fun g l => fminmax ty ftz false (g.opndT ty a l) (g.opndT ty b l)) fun _ => rfl
  case fmax => exact writes_alu (f := fun g l => fminmax ty ftz true (g.opndT ty a l) (g.opndT ty b l)) fun _ => rfl
  case fcmp => exact writes_cmp (f := fun g l => fcond cc (g.fp ty ftz a l) (g.fp ty ftz b l)) fun _ => rfl
  case minmax =>
    refine ⟨fminmax_both_nan mx, fminmax_left_nan mx, fminmax_right_nan mx, fun hx hy hlt => ?_, fminmax_of_above mx,
      fun hx hy heq hneg hpos => ?_, ?_⟩
    · exact fminmax_of_below mx hx hy (.inl hlt)
    · exact fminmax_of_below mx hx hy (.inr ⟨heq, hneg, hpos⟩)
    · rw [fminmax_flags, snan_or]
  case order =>
    refine ⟨fcmp_rat n m a b e f, rfl, rfl, ?_, rfl, rfl⟩
    exact if_pos rfl
  case nan =>
    obtain ⟨heq, hne, hnum, hisnan, hlt, hle, hgt, hge⟩ := fcond_nan hnan
    exact ⟨heq, hne, hnum, hisnan, hlt, hle, hgt, hge, fun _ => fcond_flag_iff⟩

end Sys2Proof.Machine
end

section
/-! The proof of `Obligations.DecodeOfEncode` (R100–R107). -/

namespace Sys2Proof.Laws.Coded

/-- The round trip of every constructor. -/
theorem statement (i : Instr) : Statement i :=
  match i with
  | .nop .. => nop _ | .iadd .. => iadd _ _ _ _ _ _ _ | .isub .. => isub _ _ _ _ _ _ _ | .iadd3 .. => iadd3 _ _ _ _ _ _ _ _
  | .iaddc .. => iaddc _ _ _ _ _ _ _ _ | .imul .. => imul _ _ _ _ _ _ | .imulh .. => imulh _ _ _ _ _ _
  | .imad .. => imad _ _ _ _ _ _ _ _ | .imadw .. => imadw _ _ _ _ _ _ _ | .idiv .. => idiv _ _ _ _ _ _
  | .irem .. => irem _ _ _ _ _ _ | .imin .. => imin _ _ _ _ _ _ | .imax .. => imax _ _ _ _ _ _ | .iabs .. => iabs _ _ _ _ _ _
  | .ineg .. => ineg _ _ _ _ _ _ | .isad .. => isad _ _ _ _ _ _ _ | .andB .. => andB _ _ _ _ _ _ | .orB .. => orB _ _ _ _ _ _
  | .xorB .. => xorB _ _ _ _ _ _ | .notB .. => notB _ _ _ _ _ | .logt .. => logt _ _ _ _ _ _ _ _ | .shl .. => shl _ _ _ _ _ _
  | .shr .. => shr _ _ _ _ _ _ | .rot .. => rot _ _ _ _ _ _ | .catsh .. => catsh _ _ _ _ _ _ | .bfx .. => bfx _ _ _ _ _ _
  | .bfi .. => bfi _ _ _ _ _ _ | .popc .. => popc _ _ _ _ _ | .clz .. => clz _ _ _ _ _ | .brev .. => brev _ _ _ _ _
  | .ffs .. => ffs _ _ _ _ _ | .icmp .. => icmp _ _ _ _ _ _ | .isel .. => isel _ _ _ _ _ _ _ | .lea .. => lea _ _ _ _ _ _ _
  | .movi .. => movi _ _ _ | .mov .. => mov _ _ _ _ _ | .fadd .. => fadd _ _ _ _ _ _ _ _ | .fsub .. => fsub _ _ _ _ _ _ _ _
  | .fmul .. => fmul _ _ _ _ _ _ _ _ | .ffma .. => ffma _ _ _ _ _ _ _ _ _ | .fmin .. => fmin _ _ _ _ _ _ _
  | .fmax .. => fmax _ _ _ _ _ _ _ | .fcmp .. => fcmp _ _ _ _ _ _ _ | .fdiv .. => fdiv _ _ _ _ _ _ _ _
  | .fsqrt .. => fsqrt _ _ _ _ _ _ _ | .frcp .. => frcp _ _ _ _ _ _ _ _ | .frsq .. => frsq _ _ _ _ _ _ _ _
  | .fexp2 .. => fexp2 _ _ _ _ _ | .flog2 .. => flog2 _ _ _ _ _ | .fsin .. => fsin _ _ _ _ _ | .fcos .. => fcos _ _ _ _ _
  | .ftanh .. => ftanh _ _ _ _ _ | .frnd .. => frnd _ _ _ _ _ _ _ | .fclass .. => fclass _ _ _ _ _
  | .fscale .. => fscale _ _ _ _ _ _ _ _ | .fdot2 .. => fdot2 _ _ _ _ _ _ _ _ | .cvt .. => cvt _ _ _ _ _ _ _ _ _ _ _
  | .pack .. => pack _ _ _ _ _ _ _ _ _ _ _ | .unpk .. => unpk _ _ _ _ _ _ _ | .qpack .. => qpack _ _ _ _ _ _ _ _ _ _
  | .qunpk .. => qunpk _ _ _ _ _ _ _ | .dot4 .. => dot4 _ _ _ _ _ _ _ _ | .dot8 .. => dot8 _ _ _ _ _ _ _ _
  | .dots .. => dots _ _ _ _ _ _ _ _ _ | .prmb .. => prmb _ _ _ _ _ _ | .lxch .. => lxch _ _ _ _ _ _ _
  | .qswp .. => qswp _ _ _ _ _ _ | .qbcst .. => qbcst _ _ _ _ _ _ | .qhelp .. => qhelp _ _ | .vote .. => vote _ _ _ _ _
  | .gred .. => gred _ _ _ _ _ _ | .gscan .. => gscan _ _ _ _ _ _ _ | .matchLanes .. => matchLanes _ _ _ _ _ _
  | .rdlane .. => rdlane _ _ _ _ _ _ | .wrlane .. => wrlane _ _ _ _ _ | .bra .. => bra _ _ | .brx .. => brx _ _
  | .call .. => call _ _ | .callx .. => callx _ _ | .ret .. => ret _ | .enrol .. => enrol _ _ | .rejoin .. => rejoin _ _
  | .leave .. => leave _ _ | .exit .. => exit _ | .yield .. => yield _ | .tbar .. => tbar _ | .tbara .. => tbara _
  | .lnch .. => lnch _ _ _ _ | .trap .. => trap _ _ | .brk .. => brk _ _ | .tret .. => tret _ _ | .tqrd .. => tqrd _ _
  | .grow .. => grow _ _ _ _ | .shrink .. => shrink _ _ | .rdsr .. => rdsr _ _ _ | .wrsr .. => wrsr _ _ _
  | .pset .. => pset _ _ _ _ | .pmov .. => pmov _ _ _ _ | .xget .. => xget _ _ _ _ | .xput .. => xput _ _ _ _
  | .ld .. => ld _ _ _ _ _ _ _ _ _ | .st .. => st _ _ _ _ _ _ _ _ _ | .lds .. => lds _ _ _ _ _ | .sts .. => sts _ _ _ _ _
  | .atom .. => atom _ _ _ _ _ _ _ _ _ _ | .atoms .. => atoms _ _ _ _ _ _ _ | .cas .. => cas _ _ _ _ _ _ _ _ _
  | .red .. => red _ _ _ _ _ _ _ _ _ | .fence .. => fence _ _ | .wait .. => wait _ _ _ _ _ _ | .monarm .. => monarm _ _ _ _
  | .mwait .. => mwait _ _ _ | .pref .. => pref _ _ _ _ _ | .cwb .. => cwb _ _ _ _ _ | .cinv .. => cinv _ _ _ _ _
  | .lblrd .. => lblrd _ _ _ _ _ | .lblset .. => lblset _ _ _ _ _ _ | .lblclr .. => lblclr _ _ _ _ | .qenq .. => qenq _ _ _ _
  | .qdeq .. => qdeq _ _ _ _ | .qstat .. => qstat _ _ _ | .amsg .. => amsg _ _ _ _ _ | .amdone .. => amdone _
  | .cpy .. => cpy _ _ _ | .cpyr .. => cpyr _ _ _ | .boinit .. => boinit _ _ _ _ | .bowait .. => bowait _ _ _ _ _
  | .mjoin .. => mjoin _ _ _ _ | .mcont .. => mcont _ _ _ _ _ | .mrslt .. => mrslt _ _ _ _ _ | .mleave .. => mleave _ _ _ _
  | .mstat .. => mstat _ _ _ _ | .topen .. => topen _ _ | .twr .. => twr _ _ _ _ | .tseal .. => tseal _ _
  | .tdrain .. => tdrain _ _ | .trd .. => trd _ _ _ _ | .tfree .. => tfree _ _ | .tstat .. => tstat _ _ _ _
  | .mmab16 .. => mmab16 _ _ _ _ _ | .mmah16 .. => mmah16 _ _ _ _ _ | .mmaf8a .. => mmaf8a _ _ _ _ _
  | .mmaf8b .. => mmaf8b _ _ _ _ _ | .mmaf6a .. => mmaf6a _ _ _ _ _ | .mmaf6b .. => mmaf6b _ _ _ _ _
  | .mmaf4 .. => mmaf4 _ _ _ _ _ | .mmai8 .. => mmai8 _ _ _ _ _ | .mmaf32 .. => mmaf32 _ _ _ _ _ | .mmad64 .. => mmad64 _ _ _ _ _
  | .lutbld .. => lutbld _ _ _ _ | .lutmm .. => lutmm _ _ _ _ _ _ | .czero .. => czero _ _ _ | .ccvt .. => ccvt _ _ _ _ _ _ _
  | .tscl .. => tscl _ _ _ _ | .tperm .. => tperm _ _ _ _ | .twait .. => twait _ _ _ _ | .sqsig .. => sqsig _ _ _
  | .sqwait .. => sqwait _ _ _ _ | .gcall .. => gcall _ _ _ | .gret .. => gret _ | .sysc .. => sysc _ _ _
  | .trmark .. => trmark _ _ _ | .growGrant .. => growGrant _ | .growTimeout .. => growTimeout _
  | .loadDataArrival .. => loadDataArrival _ | .storeCommitReport .. => storeCommitReport _
  | .fenceComplete .. => fenceComplete _ | .waitReturn .. => waitReturn _ | .walkEnd .. => walkEnd _
  | .operandLogReissue .. => operandLogReissue _ _ | .labelVerdict .. => labelVerdict _ | .trapDelivery .. => trapDelivery _
  | .mwaitTimeout .. => mwaitTimeout _ | .bowaitReturn .. => bowaitReturn _ | .bowaitTimeout .. => bowaitTimeout _
  | .sqsigAdd .. => sqsigAdd _ | .sqwaitReturn .. => sqwaitReturn _ | .sqwaitTimeout .. => sqwaitTimeout _
  | .tileStateReached .. => tileStateReached _ | .tileWait .. => tileWait _ | .seqOpExecute .. => seqOpExecute _
  | .seqOpComplete .. => seqOpComplete _ _ | .launchRecordDequeue .. => launchRecordDequeue _
  | .dependenceMet .. => dependenceMet _ _ | .gangAdmit .. => gangAdmit _ _ | .lnchAppend .. => lnchAppend _
  | .groupEnd .. => groupEnd _ | .launchComplete .. => launchComplete _ | .groupSwap .. => groupSwap _ _
  | .pendingDisplace .. => pendingDisplace _ | .starvationGuard .. => starvationGuard _ | .preemptSave .. => preemptSave _
  | .contextRestore .. => contextRestore _ _ | .deltaPush .. => deltaPush _ _ | .ownershipTransfer .. => ownershipTransfer _
  | .domainJoin .. => domainJoin _ | .homeRequest .. => homeRequest _ _ | .reopen .. => reopen _
  | .invalidationAck .. => invalidationAck _ _ | .recallReturn .. => recallReturn _ | .leaseExtension .. => leaseExtension _
  | .extensionAck .. => extensionAck _ _ | .timedUpdate .. => timedUpdate _ _ | .replayWake .. => replayWake _ _
  | .overflowFetch .. => overflowFetch _ | .amDispatch .. => amDispatch _ _ | .copyStart .. => copyStart _ _
  | .chunkArbitration .. => chunkArbitration _ | .chunkReport .. => chunkReport _ _ _
  | .contributionArrival .. => contributionArrival _ _ | .memberDeath .. => memberDeath _ _ | .kWrite .. => kWrite _ _
  | .gateEnter .. => gateEnter _ | .gateReturn .. => gateReturn _ | .gateDeadline .. => gateDeadline _ | .ctxLoad .. => ctxLoad _
  | .tlbInval .. => tlbInval _ | .harvest .. => harvest _ | .ctxPreempt .. => ctxPreempt _ | .ctxResume .. => ctxResume _
  | .ctxKill .. => ctxKill _ | .groupRelease .. => groupRelease _ | .faultDone .. => faultDone _ | .syscDone .. => syscDone _
  | .lqSet .. => lqSet _ | .lqReset .. => lqReset _ | .icacheInval .. => icacheInval _ | .unknownCommand .. => unknownCommand _
  | .slDirpaWrite .. => slDirpaWrite _ _ | .slDiridxWrite .. => slDiridxWrite _ _ | .slDirent0Read .. => slDirent0Read _
  | .hubRegisterWrite .. => hubRegisterWrite _ _ _ | .hostHotReset => hostHotReset | .hostLinkTimeout => hostLinkTimeout
  | .deviceLost .. => deviceLost _ | .deviceReset => deviceReset | .powerGood .. => powerGood _
  | .fullServiceMove => fullServiceMove | .islandClockSet .. => islandClockSet _ _ | .nvmeSubmission .. => nvmeSubmission _ _
  | .nvmeCompletion .. => nvmeCompletion _ | .flashRequest .. => flashRequest _ | .flashCompletion .. => flashCompletion _ _
  | .ethernetFrame .. => ethernetFrame _ _ _ _ | .getVersion .. => getVersion _ | .getCapabilities .. => getCapabilities _
  | .negotiateAlgorithms .. => negotiateAlgorithms _ | .getDigests .. => getDigests _ | .getCertificate .. => getCertificate _
  | .challenge .. => challenge _ | .getMeasurements .. => getMeasurements _ | .traceGapWrite .. => traceGapWrite _
  | .granuleHoldExpiry .. => granuleHoldExpiry _ | .linkRetrain .. => linkRetrain _ _
  | .fabricLinkFailure .. => fabricLinkFailure _ _ | .migrationRequest .. => migrationRequest _ _ _
  | .fenceRwRw .. => fenceRwRw _ | .monarmComplete .. => monarmComplete _ | .cinvComplete .. => cinvComplete _
  | .meetingStatusReturn .. => meetingStatusReturn _ | .tileOperationComplete .. => tileOperationComplete _
  | .dbgTrselWrite .. => dbgTrselWrite _ _ | .mctpFailureReport .. => mctpFailureReport _

end Sys2Proof.Laws.Coded

namespace Sys2Proof

/-! ### A word and its fields (Table 6-1) -/

theorem b2n_bitAt (n i : Nat) : b2n (bitAt n i) = n / 2 ^ i % 2 := by
  rcases Nat.mod_two_eq_zero_or_one (n / 2 ^ i) with h | h <;> simp [bitAt, b2n, h]

theorem Fields.toWord_ofWord {w : Nat} (h : w < 2 ^ 96) : (Fields.ofWord w).toWord = w := by
  simp only [Fields.toWord, Fields.ofWord, b2n_bitAt, bits]
  omega

theorem Fields.toWord_lt {f : Fields} (h : f.fits) : f.toWord < 2 ^ 96 := by
  obtain ⟨hopc, hgp, hd, ha, hb, hc, hmod, hext, hsch⟩ := h
  have := b2n_le f.gn
  simp only [Fields.toWord]
  omega

/-! ### Decoding and encoding -/

/-- What the four checks of `decode` establish together. -/
theorem decode_ok_iff {seq : Bool} {w : Nat} {i : Instr} : decode seq w = .ok i ↔
    assigned (Fields.ofWord w).opc = true ∧ (Fields.ofWord w).instr = i ∧ i.unitAllows seq = true ∧ i.fields = Fields.ofWord w ∧
      i.wf seq = true := by
  unfold decode
  constructor
  · intro h
    dsimp only at h
    split at h
    · cases h
    split at h
    · cases h
    split at h
    · cases h
    split at h
    · cases h
    cases h
    simp_all
  · rintro ⟨hopc, rfl, hunit, hfields, hwf⟩
    simp [hopc, hunit, hfields, hwf]

/-- An instruction that passes checks 3 and 4 decodes from its word. -/
theorem decode_encode {seq : Bool} {i : Instr} (hunit : i.unitAllows seq = true) (hwf : i.wf seq = true) :
    decode seq (encode i) = .ok i ∧ encode i < 2 ^ 96 := by
  obtain ⟨hinstr, hfits, hopc⟩ := Laws.Coded.statement i seq hwf
  refine ⟨decode_ok_iff.2 ?_, Fields.toWord_lt hfits⟩
  rw [encode, Fields.ofWord_toWord hfits]
  exact ⟨hopc, hinstr, hunit, rfl, hwf⟩

/-- Settles O57: a word that decodes has the fields of its instruction, and the fields make up the word. -/
theorem decodeOfEncode : Obligations.DecodeOfEncode := by
  unfold Obligations.DecodeOfEncode
  refine ⟨fun seq i => decode_encode, fun seq w i hw hdec => ?_⟩
  obtain ⟨-, -, hunit, hfields, hwf⟩ := decode_ok_iff.1 hdec
  exact ⟨by rw [encode, hfields, Fields.toWord_ofWord hw], hwf, hunit⟩

end Sys2Proof
end

section
/-! Rules that the proofs of several statements share: what a lane instruction answers, and the lanes of a mask. -/

namespace Sys2Proof.Machine

/-! ### What a lane instruction answers (R103, R112) -/

/-- An instruction that is a lane instruction by definition answers its effect wherever its checks let it. -/
theorem exec_of_go {i : Instr} {helpers : Bool} {s : State} {x : Issue} {eff : Issue → State → State}
    (hgo : s.issueOf i helpers = .go x) (hexec : exec i s = laneInstr i helpers s eff) : exec i s = .next (eff x s) :=
  hexec.trans (laneInstr_go eff hgo)

/-- An instruction that changes its group by `f` and advances the run does that wherever its checks let it. -/
theorem done_of_go {i : Instr} {helpers : Bool} {s : State} {x : Issue} {f : State → Issue → Group → Group} {P : Group → Prop}
    (hgo : s.issueOf i helpers = .go x) (hexec : exec i s = laneInstr i helpers s (fun x s => x.done s (f s x)))
    (hgroup : P ((f s x x.g).advance x.run)) : ∃ t g', exec i s = .next t ∧ OnlyGroup s t x.gid g' ∧ P g' :=
  ⟨_, _, exec_of_go hgo hexec, onlyGroup_done (grp_of_issueOf hgo) _, hgroup⟩

/-- An instruction that changes its group by `f` alone does that wherever its checks let it. -/
theorem upd_of_go {i : Instr} {helpers : Bool} {s : State} {x : Issue} {f : State → Issue → Group → Group}
    (hgo : s.issueOf i helpers = .go x) (hexec : exec i s = laneInstr i helpers s (fun x s => s.updGrp x.gid (f s x))) :
    exec i s = .next (s.updGrp x.gid (f s x)) ∧ OnlyGroup s (s.updGrp x.gid (f s x)) x.gid (f s x x.g) :=
  ⟨exec_of_go hgo hexec, onlyGroup_updGrp s x.gid x.g _ (grp_of_issueOf hgo)⟩

/-- The same, with the next state left open. -/
theorem group_of_go {i : Instr} {helpers : Bool} {s : State} {x : Issue} {f : State → Issue → Group → Group}
    (hgo : s.issueOf i helpers = .go x) (hexec : exec i s = laneInstr i helpers s (fun x s => s.updGrp x.gid (f s x))) :
    ∃ t, exec i s = .next t ∧ OnlyGroup s t x.gid (f s x x.g) := ⟨_, upd_of_go hgo hexec⟩

/-- A change of a listed value depends on what it makes of the value as it stands. -/
theorem mupd_congr {α : Type} {m : Map α} {k : Nat} {f f' : α → α} (h : ∀ x, mfind m k = some x → f x = f' x) :
    mupd m k f = mupd m k f' := by
  induction m with
  | nil => rfl
  | cons e m ih =>
    unfold mfind at h
    unfold mupd
    split at h
    next hk => rw [if_pos hk, if_pos hk, h e.2 rfl]
    next hk => rw [if_neg hk, if_neg hk, ih h]

/-- A change of a group depends on what it makes of the group as it stands. -/
theorem updGrp_congr {s : State} {gid : Nat} {g : Group} {f f' : Group → Group} (hg : s.grp? gid = some g) (h : f g = f' g) :
    s.updGrp gid f = s.updGrp gid f' := by
  refine congrArg (fun groups => { s with groups := groups }) (mupd_congr fun x hx => ?_)
  obtain rfl : g = x := Option.some.inj (hg.symm.trans hx)
  exact h

/-- An instruction whose effect is one write of a predicate. -/
theorem writesPred_done {i : Instr} {helpers : Bool} {pd : Nat} {b : Issue → Nat → Bool}
    (hexec : ∀ s, exec i s = laneInstr i helpers s (fun x s => x.done s (fun g => g.writeP x pd (b x)))) :
    WritesPred i helpers pd b (fun _ _ => 0) := by
  intro s x hx
  have heffect := effect_cmp x pd (b x) (fun _ => 0)
  rw [orFlags_zero, raise_zero] at heffect
  exact done_of_go hx (hexec s) heffect

/-- pt discards a write (R135). -/
theorem writeP_pt (g : Group) (x : Issue) (b : Nat → Bool) : g.writeP x 15 b = g := by
  simp [Group.writeP, Group.setPredAll, Group.setPredBits]

/-- z discards a write (R105). -/
theorem writeD_z (g : Group) (x : Issue) (w : Nat) (z : Bool) (f : Nat → Nat) : g.writeD x .z w z f = g := by
  unfold Group.writeD
  split <;> rfl

/-- An empty Active leaves the whole run to advance. -/
theorem and_not_zero (m : Word) : m &&& ~~~(0 : Word) = m := BitVec.and_allOnes

/-- Lanes `w` of a run change by `f` where they stand, and the rest of the run advances. -/
theorem lane_onLanes_advance (g : Group) (run w : Word) (f : Lane → Lane) (l : Nat) (hl : l < g.lanes.length) :
    ((g.advance (run &&& ~~~w)).onLanes w f).lane l =
      if w.getLsbD l then f (g.lane l) else if run.getLsbD l then { g.lane l with pc := nextPc (g.lane l).pc } else g.lane l := by
  rw [onLanes_lane _ _ _ _ (by rwa [Group.advance, onLanes_lanes_length]), Group.advance, onLanes_lane _ _ _ _ hl,
    BitVec.getLsbD_and, BitVec.getLsbD_not]
  cases hw : w.getLsbD l with
  | true => simp
  | false =>
    cases hrun : run.getLsbD l with
    | false => simp
    | true => simp [BitVec.lt_of_getLsbD hrun]

/-- Such a change keeps the number of lanes. -/
theorem length_onLanes_advance (g : Group) (run w : Word) (f : Lane → Lane) :
    ((g.advance run).onLanes w f).lanes.length = g.lanes.length := by
  rw [onLanes_lanes_length, Group.advance, onLanes_lanes_length]

/-! ### The lanes of a mask -/

theorem lt_of_mem_lanesOf {m : Word} {l : Nat} (h : l ∈ lanesOf m) : l < 32 := BitVec.lt_of_getLsbD ((mem_lanesOf m l).1 h)

/-- The lanes of a mask that is put together from lanes below 32. -/
theorem mem_maskOf_lt {ls : List Nat} (hls : ∀ l ∈ ls, l < 32) {l : Nat} (hl : l < 32) : (maskOf ls).getLsbD l = true ↔ l ∈ ls := by
  rw [mem_maskOf ls l hl]
  constructor
  · rintro ⟨k, hk, rfl⟩
    rwa [Nat.mod_eq_of_lt (hls k hk)]
  · exact fun h => ⟨l, h, Nat.mod_eq_of_lt hl⟩

/-- A mask is empty when no lane is in it. -/
theorem word_eq_zero_iff (m : Word) : m = 0 ↔ ∀ l, m.getLsbD l = false := by
  constructor
  · rintro rfl l
    exact BitVec.getLsbD_zero
  · exact fun h => word_ext _ _ fun l _ => (h l).trans BitVec.getLsbD_zero.symm

end Sys2Proof.Machine
end

section
/-! The proof of `Obligations.OperandValues` (R88, R105, R107, R144). -/

namespace Sys2Proof.Machine

/-! ### What an operand supplies -/

section
variable (g : Group) (k w l : Nat) (n : Int)

theorem opnd_vector : g.opnd (.v k) 1 l = (vReg g k l).toNat := by
  simp [Group.opnd, regsAt, vReg]

theorem opnd_vector_pair : g.opnd (.v k) 2 l = (vReg g k l).toNat + 2 ^ 32 * (vReg g (k + 1) l).toNat := by
  simp [Group.opnd, regsAt, vReg]

theorem opnd_scalar : g.opnd (.s k) 1 l = (sReg g k).toNat := by
  simp [Group.opnd, scalarsAt, sReg]

theorem opnd_scalar_pair : g.opnd (.s k) 2 l = (sReg g k).toNat + 2 ^ 32 * (sReg g (k + 1)).toNat := by
  simp [Group.opnd, scalarsAt, sReg]

theorem wrap_lt (w : Nat) (v : Int) : wrap w v < 2 ^ w := by
  have hlt : ((wrap w v : Nat) : Int) < 2 ^ w := by
    rw [wrap_wrap]
    exact Int.emod_lt_of_pos v (by positivity)
  exact_mod_cast hlt

/-- A number taken modulo 2^w is congruent to it. -/
theorem wrap_sub_emod (w : Nat) (v : Int) : ((wrap w v : Int) - v) % 2 ^ w = 0 := by
  rw [wrap_wrap]
  simp

theorem opnd_const : ((g.opnd (.c n) w l : Int) - n) % 2 ^ (32 * w) = 0 ∧ g.opnd (.c n) w l < 2 ^ (32 * w) :=
  ⟨wrap_sub_emod (32 * w) n, wrap_lt (32 * w) n⟩

end

/-! ### The integer that bits stand for (R88) -/

theorem toSigned_bounds {w : Nat} (hw : 0 < w) (x : Nat) :
    -2 ^ (w - 1) ≤ toSigned w x ∧ toSigned w x ≤ 2 ^ (w - 1) - 1 := by
  obtain ⟨k, rfl⟩ : ∃ k, w = k + 1 := ⟨w - 1, by omega⟩
  have hx : x % 2 ^ (k + 1) < 2 ^ (k + 1) := Nat.mod_lt _ (by positivity)
  have hpow : (2 : Int) ^ k = ((2 ^ k : Nat) : Int) := by push_cast; rfl
  rw [Nat.add_sub_cancel, hpow, toSigned]
  rw [pow_succ] at hx ⊢
  split <;> omega

theorem toSigned_sub_emod (w x : Nat) : (toSigned w x - x) % 2 ^ w = 0 := by
  have hmod : ((x % 2 ^ w : Nat) : Int) = x % 2 ^ w := by push_cast; rfl
  have hsub : ((x : Int) % 2 ^ w - x) % 2 ^ w = 0 := by simp
  unfold toSigned
  dsimp only
  split
  · rw [hmod, hsub]
  · rw [hmod, sub_right_comm, Nat.cast_pow, Nat.cast_ofNat, Int.sub_emod_right, hsub]

theorem intVal_bounds (ty : Ty) (x : Nat) : intMin ty ≤ intVal ty x ∧ intVal ty x ≤ intMax ty := by
  unfold intMin intMax intVal
  split
  · simpa using toSigned_bounds (width_pos ty) x
  · have : x % 2 ^ ty.width < 2 ^ ty.width := Nat.mod_lt _ (by positivity)
    omega

theorem intVal_sub_emod (ty : Ty) (x : Nat) : (intVal ty x - x) % 2 ^ ty.width = 0 := by
  unfold intVal
  split
  · exact toSigned_sub_emod _ _
  · simp

/-- Settles O1. -/
theorem operandValues : Obligations.OperandValues := by
  unfold Obligations.OperandValues
  refine ⟨fun g k w l n => ⟨opnd_vector g k l, opnd_vector_pair g k l, opnd_scalar g k l, opnd_scalar_pair g k l, rfl,
    opnd_const g w l n⟩, fun ty x => ⟨(intVal_bounds ty x).1, (intVal_bounds ty x).2, intVal_sub_emod ty x, fun hs => ?_, fun hs => ?_⟩⟩
  · simp [intMin, intMax, hs]
  · simp [intMin, intMax, hs]

end Sys2Proof.Machine
end

section
/-! The proof of `Obligations.IssueChecks` (R103, R107, R112, R217). -/

namespace Sys2Proof.Machine

/-! ### The run, Active and the poisoned lanes of an issue -/

/-- The issue in progress as the checks of an instruction with header `h` see it, helper lanes aside (R103). -/
def issueAt (c : Cur) (g : Group) (h : Hdr) : Issue :=
  { gid := c.gid, g := g, run := c.run, once := h.uni || g.isSeq, lead := lowestLane c.run, pc := c.pc, word0 := c.word0, reissue := none,
    act := if h.uni || g.isSeq then (if (g.guardMask h.guard).getLsbD (lowestLane c.run) then c.run else 0)
           else c.run &&& g.guardMask h.guard }

/-- The lanes of Active in the run that read a poisoned register (R217). -/
def poisonedLanes (x : Issue) (us : List OpUse) : Word :=
  if x.g.poison.isEmpty then 0 else x.act &&& x.run &&& maskWhere (fun l => (x.g.poisonRead us l).isSome)

theorem mem_poisonedLanes (x : Issue) (us : List OpUse) {l : Nat} (hl : l < 32) :
    (poisonedLanes x us).getLsbD l = true ↔ x.act.getLsbD l = true ∧ x.run.getLsbD l = true ∧ x.g.poisonRead us l ≠ none := by
  unfold poisonedLanes
  split
  case isTrue he => simp [poisonRead_empty x.g us l (List.isEmpty_iff.1 he)]
  case isFalse => simp [getLsbD_maskWhere _ l hl, Option.isSome_iff_ne_none, and_assoc]

theorem poisonedLanes_eq_zero_iff (x : Issue) (us : List OpUse) : poisonedLanes x us = 0 ↔
    ∀ l, x.act.getLsbD l = true → x.run.getLsbD l = true → x.g.poisonRead us l = none := by
  constructor
  · intro h0 l ha hr
    by_contra hne
    have := (mem_poisonedLanes x us (BitVec.lt_of_getLsbD ha)).2 ⟨ha, hr, hne⟩
    simp [h0] at this
  · intro h
    refine word_ext _ _ fun l hl => ?_
    rw [show (0 : Word).getLsbD l = false from BitVec.getLsbD_zero, Bool.eq_false_iff, ne_eq, mem_poisonedLanes x us hl]
    rintro ⟨ha, hr, hne⟩
    exact hne (h l ha hr)

theorem activeMask_no_helpers {g : Group} {helpers : Bool} (c : Cur) {h : Hdr} (hh : helpers = true → g.helper = 0) :
    activeMask g h c.run helpers = (issueAt c g h).act := by
  have hnone : (if helpers then g.helpersIn h c.run else 0) = 0 := by
    split
    case isTrue ht => exact if_pos (hh ht)
    case isFalse => rfl
  rw [activeMask, hnone]
  exact congrArg (ite _ _) (BitVec.or_zero)

/-- Check 5 of R112 and then the poison of R217, for an issue that is no re-issue and that no helper lane joins. -/
theorem issueOf_eq {s : State} {c : Cur} {g : Group} {i : Instr} {h : Hdr} {helpers : Bool} (hc : s.cur = some c)
    (hg : s.grp? c.gid = some g) (hi : i.hdr = some h) (hre : c.reissue = none) (hh : helpers = true → g.helper = 0) :
    s.issueOf i helpers = match g.rangeFail i.opers with
      | some k => .trap c.gid ((issueAt c g h).trap s 0x08 c.run c.run 0 k)
      | none =>
        if poisonedLanes (issueAt c g h) i.opers = 0 then .go (issueAt c g h)
        else
          let q := (g.poisonRead i.opers (lowestLane (poisonedLanes (issueAt c g h) i.opers))).getD ⟨0, 3⟩
          .trap c.gid ((issueAt c g h).trap s 0x16 (poisonedLanes (issueAt c g h) i.opers) (poisonedLanes (issueAt c g h) i.opers)
            q.addr 0 q.code) := by
  have hact : activeMask g h c.run helpers = (issueAt c g h).act := activeMask_no_helpers c hh
  simp only [State.issueOf, hc, hg, hi, hre, Option.getD_some, Option.isSome_none, Bool.false_and, Bool.false_eq_true, if_false, hact,
    Bool.or_false]
  rfl

/-- Settles O2: the issue follows the first operand out of range, and else the poisoned lanes. -/
theorem issueChecks : Obligations.IssueChecks := by
  unfold Obligations.IssueChecks
  intro s c g i h helpers hc hg hi hre hh
  have hissue := issueOf_eq hc hg hi hre hh
  refine ⟨fun hrange hpoison => ?executes, fun us u vs hus hbefore => ?range, fun hrange hpoison => ?poison⟩
  case executes =>
    rw [hissue, rangeFail_none g _ hrange]
    exact if_pos ((poisonedLanes_eq_zero_iff (issueAt c g h) i.opers).2 hpoison)
  case range =>
    obtain ⟨hvector, hscalar⟩ := rangeFail_some g us vs u hbefore
    rw [← hus] at hvector hscalar
    refine ⟨fun k hk hout => ?_, fun k hk hout => ?_⟩
    · rw [hissue, hvector k hk hout]
      rfl
    · rw [hissue, hscalar k hk hout]
      rfl
  case poison =>
    obtain ⟨l, -, ha, hr, hne⟩ := hpoison
    have hsome : poisonedLanes (issueAt c g h) i.opers ≠ 0 := fun h0 =>
      hne ((poisonedLanes_eq_zero_iff (issueAt c g h) i.opers).1 h0 l ha hr)
    rw [hissue, rangeFail_none g _ hrange]
    exact ⟨_, if_neg hsome, rfl, rfl, rfl, fun l hl => mem_poisonedLanes (issueAt c g h) i.opers hl⟩

end Sys2Proof.Machine
end

section
/-! The proof of `Obligations.CarriesAndConditions` (R149, R155). -/

namespace Sys2Proof.Machine

/-- R149: the carry-in is predicate `cin`, and 0 for pt. -/
theorem carryIn_eq (x : Issue) (cin l : Nat) :
    carryIn x cin l = if cin ≠ 15 ∧ pBit x.g cin (if x.once then x.lead else l) = true then 1 else 0 := by
  by_cases h : cin = 15
  · simp [carryIn, h]
  · simp only [carryIn, h, Issue.predBit, pBit, b2n, if_false, ne_eq, not_false_eq_true, true_and]
    rfl

/-- Settles O4. -/
theorem carriesAndConditions : Obligations.CarriesAndConditions := by
  unfold Obligations.CarriesAndConditions
  refine ⟨fun h ty z d a b cin cout s x hx => ?iaddc, fun h cc ty z d a b p => ⟨?icmp, ?isel, fun u v => ?conditions⟩⟩
  case iaddc =>
    dsimp only
    simp only [← carryIn_eq]
    have hexec : exec (.iaddc h ty z d a b cin cout) s = execIaddc h ty z d a b cin cout s := rfl
    refine done_of_go hx hexec ?_
    have heffect := effect_done x d 1 z (fun l => (x.g.opnd a 1 l + x.g.opnd b 1 l + carryIn x cin l) % 2 ^ 32) cout
      (fun l => decide (2 ^ 32 ≤ x.g.opnd a 1 l + x.g.opnd b 1 l + carryIn x cin l)) (fun _ => 0)
    rw [orFlags_zero, raise_zero] at heffect
    by_cases hcout : cout = 15
    · subst hcout
      rw [writeP_pt] at heffect
      exact heffect
    · simp only [if_neg hcout]
      exact heffect
  case icmp => exact writes_cmp (f := fun g l => (icond cc (g.int ty a l) (g.int ty b l), 0)) fun _ => rfl
  case isel => exact writes_done (fun _ => rfl) fun _ _ => rfl
  case conditions => simp [icond]

end Sys2Proof.Machine
end

section
/-! The proof of `Obligations.AddressesAndMoves` (R140, R156, R172). -/

namespace Sys2Proof.Machine

/-- R156: a base plus an index scaled by a power of two, the index extended by its signedness. -/
theorem writes_lea (h : Hdr) (ty : Ty) (z : Bool) (d a b : Opnd) (sh : Nat) : WritesOnly (.lea h ty z d a b sh) true d ty.regs z
    (fun _ x l => wrap ty.width ((x.g.opnd a ty.regs l : Int) +
      (if ty.signed then toSigned 32 (x.g.opnd b 1 l) else (x.g.opnd b 1 l : Int)) * 2 ^ sh)) := by
  have hexec : ∀ s, exec (.lea h ty z d a b sh) s = execLea h ty z d a b sh s := fun _ => rfl
  simpa only [Nat.cast_pow, Nat.cast_ofNat, Group.raw, Group.u32] using writes_alu0 hexec

/-- Settles O8. -/
theorem addressesAndMoves : Obligations.AddressesAndMoves := by
  unfold Obligations.AddressesAndMoves
  refine ⟨fun h ty z d a b c sh imm => ⟨writes_lea h ty z d a b sh, ?movi, ?mov, ?prmb⟩, fun src sel n hn => prmb_eq src sel n 4 hn⟩
  case movi => exact writes_alu0 (f := fun _ _ => imm.toNat) fun _ => rfl
  case mov => exact writes_alu0 (f := fun g l => g.raw ty a l) fun _ => rfl
  case prmb =>
    exact writes_alu0 (f := fun g l => prmbBytes (g.opnd a 1 l + 2 ^ 32 * g.opnd b 1 l) (g.opnd c 1 l) 4) fun _ => rfl

end Sys2Proof.Machine
end

section
/-! Rounding into a floating-point format (R89–R91): the magnitudes of a format in the order of their codes, the integer that a magnitude
is cut to, and one rounding of a real number into the format. -/

namespace Sys2Proof.Machine

/-! ### The magnitudes of a format -/

/-- Bits of the fraction, as a number of codes in one binade. -/
def binade (ty : Ty) : Nat := 2 ^ Ty.mant ty

theorem binade_pos (ty : Ty) : 0 < binade ty := Nat.two_pow_pos _

/-- The magnitude that code `c` would have if the format had no greatest exponent. -/
noncomputable def gridMag (ty : Ty) (c : Nat) : ℝ :=
  if c < binade ty then c * 2 ^ (Ty.emin ty - Ty.mant ty)
  else (binade ty + c % binade ty : Nat) * 2 ^ (((c / binade ty : Nat) : Int) - 1 + Ty.emin ty - Ty.mant ty)

/-- Code `k + b · 2^mant` stands for `k` units of binade `b`, of which the last one is the first of the next binade. -/
theorem gridMag_binade (ty : Ty) {b k : Nat} (hk : b = 0 ∨ binade ty ≤ k) (hle : k ≤ 2 * binade ty) :
    gridMag ty (k + b * binade ty) = k * 2 ^ ((b : Int) + Ty.emin ty - Ty.mant ty) := by
  have hpos := binade_pos ty
  unfold gridMag
  by_cases hsub : k + b * binade ty < binade ty
  · have hb : b = 0 := by
      rcases hk with h | h
      · exact h
      · omega
    subst hb
    rw [if_pos hsub]
    simp
  · rw [if_neg hsub]
    rcases Nat.lt_or_ge k (2 * binade ty) with hlt | hge
    · have hk' : binade ty ≤ k := by
        rcases hk with h | h
        · subst h; omega
        · exact h
      obtain ⟨r, rfl⟩ := Nat.exists_eq_add_of_le hk'
      have hr : r < binade ty := by omega
      have hdiv : (binade ty + r + b * binade ty) / binade ty = b + 1 := by
        rw [show binade ty + r + b * binade ty = r + binade ty * (b + 1) by ring, Nat.add_mul_div_left _ _ hpos, Nat.div_eq_of_lt hr, Nat.zero_add]
      have hmod : (binade ty + r + b * binade ty) % binade ty = r := by
        rw [show binade ty + r + b * binade ty = r + binade ty * (b + 1) by ring, Nat.add_mul_mod_self_left, Nat.mod_eq_of_lt hr]
      rw [hdiv, hmod]
      congr 2
      push_cast
      ring
    · obtain rfl : k = 2 * binade ty := le_antisymm hle hge
      have hdiv : (2 * binade ty + b * binade ty) / binade ty = b + 2 := by
        rw [← Nat.add_mul, Nat.mul_div_cancel _ hpos, Nat.add_comm]
      have hmod : (2 * binade ty + b * binade ty) % binade ty = 0 := by
        rw [← Nat.add_mul, Nat.mul_mod_left]
      rw [hdiv, hmod]
      push_cast
      rw [show (b : Int) + 2 - 1 + Ty.emin ty - Ty.mant ty = 1 + (b + Ty.emin ty - Ty.mant ty) by ring,
        zpow_add₀ (two_ne_zero), zpow_one]
      ring

/-- Every code lies in some binade. -/
theorem exists_binade (ty : Ty) (c : Nat) : ∃ b k, c = k + b * binade ty ∧ (b = 0 ∨ binade ty ≤ k) ∧ k < 2 * binade ty := by
  have hpos := binade_pos ty
  by_cases hsub : c < 2 * binade ty
  · exact ⟨0, c, by simp, .inl rfl, hsub⟩
  · refine ⟨c / binade ty - 1, c % binade ty + binade ty, ?_, .inr (Nat.le_add_left _ _), ?_⟩
    · have hdiv : 2 ≤ c / binade ty := (Nat.le_div_iff_mul_le hpos).2 (by omega)
      obtain ⟨b, hb⟩ := Nat.exists_eq_add_of_le hdiv
      have := Nat.div_add_mod c (binade ty)
      rw [hb] at this ⊢
      rw [show 2 + b - 1 = b + 1 by omega]
      calc c = binade ty * (2 + b) + c % binade ty := this.symm
        _ = _ := by ring
    · have := Nat.mod_lt c hpos
      omega

/-- The magnitudes rise with their codes. -/
theorem gridMag_strictMono (ty : Ty) : StrictMono (gridMag ty) := by
  refine strictMono_nat_of_lt_succ fun c => ?_
  obtain ⟨b, k, rfl, hk, hlt⟩ := exists_binade ty c
  rw [show k + b * binade ty + 1 = (k + 1) + b * binade ty by ring, gridMag_binade ty hk hlt.le,
    gridMag_binade ty (hk.imp_right fun h => h.trans (Nat.le_succ k)) hlt]
  have := zpow_pos (two_pos (α := ℝ)) ((b : Int) + Ty.emin ty - Ty.mant ty)
  push_cast
  nlinarith

theorem maxCode_lt {ty : Ty} (hty : ty.isFloat = true) : Ty.maxCode ty < 2 ^ (ty.width - 1) := by
  revert hty
  cases ty <;> decide

theorem width_sub_one {ty : Ty} (hty : ty.isFloat = true) : ty.width - 1 = Ty.mant ty + Ty.ebits ty := by
  revert hty
  cases ty <;> decide

/-- The exponent field of a finite code of an IEEE format is not all ones. -/
theorem expField_ne_of_le_maxCode {ty : Ty} {c : Nat} (hieee : Ty.ieee ty = true) (hc : c ≤ Ty.maxCode ty) :
    c / binade ty ≠ 2 ^ Ty.ebits ty - 1 := by
  rw [Ty.maxCode, if_pos hieee] at hc
  have htop : 0 < (2 ^ Ty.ebits ty - 1) * 2 ^ Ty.mant ty := by
    clear hc
    revert hieee
    cases ty <;> decide
  refine Nat.ne_of_lt ((Nat.div_lt_iff_lt_mul (binade_pos ty)).2 ?_)
  unfold binade
  omega

/-- The codes up to the greatest finite one, with a sign, stand for the magnitudes of their fields. -/
theorem fval_signBit_add {ty : Ty} (hty : ty.isFloat = true) (neg : Bool) {c : Nat} (hc : c ≤ Ty.maxCode ty) :
    fval ty (Ty.signBit ty neg + c) =
      if c < binade ty then .fin neg c (Ty.emin ty - Ty.mant ty)
      else .fin neg (binade ty + c % binade ty) (((c / binade ty : Nat) : Int) - 1 + Ty.emin ty - Ty.mant ty) := by
  have hpos := binade_pos ty
  have hlt : c < 2 ^ (ty.width - 1) := hc.trans_lt (maxCode_lt hty)
  have hsign : bitAt (Ty.signBit ty neg + c) (ty.width - 1) = neg := by
    rw [bitAt_eq, Ty.signBit]
    cases neg with
    | false => rw [if_neg Bool.false_ne_true, Nat.zero_add, Nat.testBit_lt_two_pow hlt]
    | true => rw [if_pos rfl, Nat.testBit_two_pow_add_eq, Nat.testBit_lt_two_pow hlt]; rfl
  have hfields : ∃ n, Ty.signBit ty neg = binade ty * (2 ^ Ty.ebits ty * n) := by
    unfold Ty.signBit
    cases neg with
    | false => exact ⟨0, rfl⟩
    | true => exact ⟨1, by rw [if_pos rfl, width_sub_one hty, Nat.pow_add, Nat.mul_one]; rfl⟩
  obtain ⟨n, hn⟩ := hfields
  have hexp : bits (Ty.signBit ty neg + c) (Ty.mant ty) (Ty.ebits ty) = c / binade ty := by
    rw [width_sub_one hty, Nat.pow_add] at hlt
    rw [hn, bits, show (2 : Nat) ^ Ty.mant ty = binade ty from rfl, Nat.mul_add_div hpos, Nat.mul_add_mod]
    exact Nat.mod_eq_of_lt (Nat.div_lt_of_lt_mul hlt)
  have hfrac : bits (Ty.signBit ty neg + c) 0 (Ty.mant ty) = c % binade ty := by
    rw [hn, bits, pow_zero, Nat.div_one, show (2 : Nat) ^ Ty.mant ty = binade ty from rfl, Nat.mul_add_mod]
  have hfinite : (Ty.ieee ty && c / binade ty == 2 ^ Ty.ebits ty - 1) = false := by
    cases hieee : Ty.ieee ty with
    | false => rfl
    | true => simpa using expField_ne_of_le_maxCode hieee hc
  have hnan : ¬ (ty = .e4m3 ∧ c / binade ty = 15 ∧ c % binade ty = 7) := by
    rintro ⟨rfl, hdiv, hmod⟩
    have := Nat.div_add_mod c (binade .e4m3)
    have hmax : Ty.maxCode .e4m3 = 126 := rfl
    have hbin : binade .e4m3 = 8 := rfl
    rw [hdiv, hmod] at this
    omega
  unfold fval
  dsimp only
  rw [hsign, hexp, hfrac, hfinite, if_neg Bool.false_ne_true, if_neg hnan]
  have hzero : c / binade ty = 0 ↔ c < binade ty := Nat.div_eq_zero_iff_lt hpos
  by_cases hsub : c < binade ty
  · rw [if_pos (hzero.2 hsub), if_pos hsub, Nat.mod_eq_of_lt hsub]
  · rw [if_neg (mt hzero.1 hsub), if_neg hsub]
    rfl

/-- A finite code with a sign is a number of that sign and of the code's magnitude. -/
theorem fval_signBit_add_fin {ty : Ty} (hty : ty.isFloat = true) (neg : Bool) {c : Nat} (hc : c ≤ Ty.maxCode ty) :
    ∃ m e, fval ty (Ty.signBit ty neg + c) = .fin neg m e ∧ (m : ℝ) * 2 ^ e = gridMag ty c := by
  rw [fval_signBit_add hty neg hc, gridMag]
  split
  · exact ⟨_, _, rfl, rfl⟩
  · exact ⟨_, _, rfl, rfl⟩

theorem magOf_eq_gridMag {ty : Ty} (hty : ty.isFloat = true) {c : Nat} (hc : c ≤ Ty.maxCode ty) : ((magOf ty c : ℚ) : ℝ) = gridMag ty c := by
  obtain ⟨m, e, hval, hmag⟩ := fval_signBit_add_fin hty false hc
  rw [Ty.signBit, if_neg Bool.false_ne_true, Nat.zero_add] at hval
  rw [magOf, hval, ← hmag]
  simp [ratOf]

/-- The fields of a finite code bound the magnitude that it stands for. -/
theorem fval_fin_bounds {ty : Ty} (hty : ty.isFloat = true) {x m : Nat} {n : Bool} {e : Int} (hx : fval ty x = .fin n m e) :
    n = bitAt x (ty.width - 1) ∧ m < 2 * binade ty ∧ Ty.emin ty - Ty.mant ty ≤ e ∧ e ≤ Ty.emax ty - Ty.mant ty := by
  have hpos := binade_pos ty
  have hfrac : bits x 0 (Ty.mant ty) < binade ty := Nat.mod_lt _ hpos
  have hexp : bits x (Ty.mant ty) (Ty.ebits ty) < 2 ^ Ty.ebits ty := Nat.mod_lt _ (Nat.two_pow_pos _)
  have htop : (if Ty.ieee ty then (2 : Int) ^ Ty.ebits ty - 2 else 2 ^ Ty.ebits ty - 1) - 1 + Ty.emin ty ≤ Ty.emax ty ∧ Ty.emin ty ≤ Ty.emax ty := by
    revert hty
    clear hx hfrac hexp
    cases ty <;> decide
  obtain ⟨htop, hrange⟩ := htop
  unfold fval at hx
  dsimp only at hx
  split at hx
  next => split at hx <;> cases hx
  next hspecial =>
    split at hx
    next => cases hx
    next =>
      split at hx
      next =>
        cases hx
        exact ⟨rfl, by omega, le_rfl, by omega⟩
      next hnormal =>
        cases hx
        refine ⟨rfl, by unfold binade at *; omega, by omega, ?_⟩
        have hfield : ((bits x (Ty.mant ty) (Ty.ebits ty) : Nat) : Int) ≤ if Ty.ieee ty then (2 : Int) ^ Ty.ebits ty - 2 else 2 ^ Ty.ebits ty - 1 := by
          have hcast : ((2 ^ Ty.ebits ty : Nat) : Int) = (2 : Int) ^ Ty.ebits ty := by push_cast; rfl
          rw [← hcast]
          split
          next hieee =>
            simp only [hieee, Bool.true_and, beq_iff_eq] at hspecial
            omega
          next => omega
        omega

/-! ### Cutting a number to an integer (R89) -/

/-- Whether mode `rnd` takes a number `y` of sign `neg`, which lies between the integers `k` and `k + 1`, to the upper one. -/
def GoesUp (rnd : Rnd) (neg : Bool) (k : Nat) (y : ℝ) : Prop :=
  match rnd with
  | .rn => (k : ℝ) + 1 / 2 < y ∨ y = k + 1 / 2 ∧ k % 2 = 1
  | .rz => False
  | .rm => neg = true ∧ y ≠ k
  | .rp => neg = false ∧ y ≠ k

/-- The integer `j` is what mode `rnd` makes of the number `y ≥ 0` of sign `neg`. -/
def CutTo (rnd : Rnd) (neg : Bool) (y : ℝ) (j : Nat) : Prop :=
  ∃ k : Nat, (k : ℝ) ≤ y ∧ y < k + 1 ∧ ((GoesUp rnd neg k y ∧ j = k + 1) ∨ (¬ GoesUp rnd neg k y ∧ j = k))

/-- An integer `m` stands for a number `x`: it is that number, or it is odd and the number lies strictly between the even integers at its
two sides, as where the last bit of a quotient or a root is kept sticky. -/
def StandsFor (m : Nat) (x : ℝ) : Prop := x = m ∨ m % 2 = 1 ∧ (m : ℝ) - 1 < x ∧ x < m + 1

/-- An integer is not cut. -/
theorem cutTo_natCast (rnd : Rnd) (neg : Bool) (k : Nat) : CutTo rnd neg k k := by
  refine ⟨k, le_rfl, lt_add_one _, .inr ⟨?_, rfl⟩⟩
  cases rnd with
  | rn =>
    rintro (h | ⟨h, -⟩)
    · linarith
    · linarith
  | rz => exact id
  | rm => exact fun h => h.2 rfl
  | rp => exact fun h => h.2 rfl

/-- Where a number lies between two integers, by the remainder of the integer that stands for it. -/
structure Placed (q r d : Nat) (y : ℝ) : Prop where
  low : (q : ℝ) ≤ y
  high : y < q + 1
  above : (q : ℝ) + 1 / 2 < y ↔ d < 2 * r
  half : y = q + 1 / 2 ↔ 2 * r = d
  exact_ : y = q ↔ r = 0

theorem placed_of_eq {m d : Nat} (hd : 0 < d) : Placed (m / d) (m % d) d ((m : ℝ) / d) := by
  have hd' : (0 : ℝ) < d := by exact_mod_cast hd
  have hlt : ((m % d : Nat) : ℝ) < d := by exact_mod_cast Nat.mod_lt m hd
  have hy : (m : ℝ) / d = (m / d : Nat) + (m % d : Nat) / d := by
    rw [div_eq_iff hd'.ne', add_mul, div_mul_cancel₀ _ hd'.ne']
    exact_mod_cast (Nat.div_add_mod' m d).symm
  have hfrac : ((m % d : Nat) : ℝ) / d < 1 := (div_lt_one hd').2 hlt
  have hnonneg : (0 : ℝ) ≤ (m % d : Nat) / d := by positivity
  rw [hy]
  refine ⟨by linarith, by linarith, ?_, ?_, ?_⟩
  · rw [add_lt_add_iff_left, lt_div_iff₀ hd', one_div, inv_mul_lt_iff₀ two_pos]
    exact_mod_cast Iff.rfl
  · rw [add_right_inj, div_eq_div_iff hd'.ne' two_ne_zero, one_mul, mul_comm]
    exact_mod_cast Iff.rfl
  · rw [add_eq_left, div_eq_zero_iff]
    simp [hd'.ne']

theorem placed_of_sticky {m d : Nat} {x : ℝ} (hd : 0 < d) (hodd : m % 2 = 1) (hlow : (m : ℝ) - 1 < x) (hhigh : x < m + 1) :
    Placed (m / (4 * d)) (m % (4 * d)) (4 * d) (x / (4 * d : Nat)) := by
  have hd' : (0 : ℝ) < (4 * d : Nat) := by exact_mod_cast Nat.mul_pos four_pos hd
  obtain ⟨t, ht⟩ : ∃ t, x = (m / (4 * d) : Nat) * (4 * d : Nat) + t := ⟨x - (m / (4 * d) : Nat) * (4 * d : Nat), by ring⟩
  have hsplit : (m : ℝ) = (m / (4 * d) : Nat) * (4 * d : Nat) + (m % (4 * d) : Nat) := by exact_mod_cast (Nat.div_add_mod' m (4 * d)).symm
  have hr : m % (4 * d) < 4 * d := Nat.mod_lt _ (by omega)
  have hrodd : m % (4 * d) % 2 = 1 := by rw [Nat.mod_mod_of_dvd _ ⟨2 * d, by ring⟩, hodd]
  have htl : ((m % (4 * d) : Nat) : ℝ) - 1 < t := by linarith
  have hth : t < (m % (4 * d) : Nat) + 1 := by linarith
  have hy : x / (4 * d : Nat) = (m / (4 * d) : Nat) + t / (4 * d : Nat) := by
    rw [ht, add_div, mul_div_cancel_right₀ _ hd'.ne']
  generalize m % (4 * d) = r at *
  have hr1 : (1 : ℝ) ≤ r := by exact_mod_cast (by omega : 1 ≤ r)
  have hr2 : (r : ℝ) + 1 ≤ (4 * d : Nat) := by exact_mod_cast (by omega : r + 1 ≤ 4 * d)
  have hpos : 0 < t / (4 * d : Nat) := div_pos (by linarith) hd'
  have hone : t / (4 * d : Nat) < 1 := (div_lt_one hd').2 (by linarith)
  rw [hy]
  have hcast : ((4 * d : Nat) : ℝ) = 4 * d := by push_cast; ring
  rcases Nat.lt_or_ge r (2 * d) with hbelow | habove
  · have : (r : ℝ) + 1 ≤ 2 * d := by exact_mod_cast (by omega : r + 1 ≤ 2 * d)
    have hhalf : t / (4 * d : Nat) < 1 / 2 := by
      rw [div_lt_div_iff₀ hd' two_pos, hcast]
      linarith
    exact ⟨by linarith, by linarith, ⟨fun h => by linarith, fun h => by omega⟩, ⟨fun h => by linarith, fun h => by omega⟩,
      ⟨fun h => by linarith, fun h => by omega⟩⟩
  · have : (2 : ℝ) * d + 1 ≤ r := by exact_mod_cast (by omega : 2 * d + 1 ≤ r)
    have hhalf : 1 / 2 < t / (4 * d : Nat) := by
      rw [div_lt_div_iff₀ two_pos hd', hcast]
      linarith
    exact ⟨by linarith, by linarith, ⟨fun h => by omega, fun h => by linarith⟩, ⟨fun h => by linarith, fun h => by omega⟩,
      ⟨fun h => by linarith, fun h => by omega⟩⟩

/-- The mode's choice, by the remainder. -/
theorem roundUp_iff {q r d : Nat} {y : ℝ} (hy : Placed q r d y) (rnd : Rnd) (neg : Bool) :
    roundUp rnd neg (q % 2 == 1) r d = true ↔ GoesUp rnd neg q y := by
  cases rnd with
  | rn =>
    simp only [roundUp, GoesUp, hy.above, hy.half]
    simp
  | rz => simp [roundUp, GoesUp]
  | rm => simp [roundUp, GoesUp, hy.exact_]
  | rp => simp [roundUp, GoesUp, hy.exact_]

/-- A number is an integer when its lower neighbour is that number. -/
theorem Placed.eq_natCast_iff {q r d : Nat} {y : ℝ} (hy : Placed q r d y) : (∀ k : Nat, y ≠ k) ↔ r ≠ 0 := by
  refine ⟨fun h hr => h q (hy.exact_.2 hr), fun hr k hk => hr (hy.exact_.1 ?_)⟩
  have hlow := hy.low
  have hhigh := hy.high
  rw [hk] at hlow hhigh
  have hkq : k = q := le_antisymm (Nat.lt_succ_iff.1 (by exact_mod_cast hhigh)) (by exact_mod_cast hlow)
  rw [hk, hkq]

/-- An integer that stands for a number is cut as the number is, by two bits or more unless it is the number itself. -/
theorem shiftRound_cutTo {m : Nat} {x : ℝ} (hx : StandsFor m x) {sh : Int} (hsh : x = m ∨ 2 ≤ sh) (rnd : Rnd) (neg : Bool) :
    CutTo rnd neg (x / 2 ^ sh) (shiftRound rnd neg m sh).1 ∧
      ((shiftRound rnd neg m sh).2 = true ↔ ∀ k : Nat, x / 2 ^ sh ≠ k) := by
  unfold shiftRound
  split
  next hle =>
    obtain rfl : x = m := hsh.resolve_right (by omega)
    have hy : (m : ℝ) / 2 ^ sh = (m * 2 ^ (-sh).toNat : Nat) := by
      rw [div_eq_mul_inv, ← zpow_neg]
      push_cast
      rw [← zpow_natCast, Int.toNat_of_nonneg (by omega)]
    rw [hy]
    exact ⟨cutTo_natCast rnd neg _, fun h => absurd h Bool.false_ne_true, fun h => absurd rfl (h _)⟩
  next hpos =>
    have hpow : (2 : ℝ) ^ sh = ((2 ^ sh.toNat : Nat) : ℝ) := by
      push_cast
      rw [← zpow_natCast, Int.toNat_of_nonneg (by omega)]
    have hplaced : Placed (m / 2 ^ sh.toNat) (m % 2 ^ sh.toNat) (2 ^ sh.toNat) (x / (2 ^ sh.toNat : Nat)) := by
      rcases hx with rfl | ⟨hodd, hlow, hhigh⟩
      · exact placed_of_eq (Nat.two_pow_pos _)
      · rcases hsh with rfl | htwo
        · exact placed_of_eq (Nat.two_pow_pos _)
        · rw [show 2 ^ sh.toNat = 4 * 2 ^ (sh.toNat - 2) by
            rw [show (4 : Nat) = 2 ^ 2 by rfl, ← pow_add]
            congr 1
            omega]
          exact placed_of_sticky (Nat.two_pow_pos _) hodd hlow hhigh
    rw [hpow]
    dsimp only
    refine ⟨⟨m / 2 ^ sh.toNat, hplaced.low, hplaced.high, ?_⟩, ?_⟩
    · have hup := roundUp_iff hplaced rnd neg
      by_cases h : roundUp rnd neg (m / 2 ^ sh.toNat % 2 == 1) (m % 2 ^ sh.toNat) (2 ^ sh.toNat) = true
      · exact .inl ⟨hup.1 h, if_pos h⟩
      · exact .inr ⟨mt hup.2 h, if_neg h⟩
    · rw [hplaced.eq_natCast_iff, bne_iff_ne]

end Sys2Proof.Machine
end

section
/-! Rounding into a format, from the integer that its units are cut to (R89–R91). -/

namespace Sys2Proof.Machine

/-! ### The code that a magnitude is rounded to -/

/-- Whether mode `rnd` takes a magnitude `v` of sign `neg` between the codes `c` and `c + 1` to the upper one. -/
def GridUp (ty : Ty) (rnd : Rnd) (neg : Bool) (v : ℝ) (c : Nat) : Prop :=
  match rnd with
  | .rn => gridMag ty c + gridMag ty (c + 1) < 2 * v ∨ 2 * v = gridMag ty c + gridMag ty (c + 1) ∧ c % 2 = 1
  | .rz => False
  | .rm => neg = true ∧ v ≠ gridMag ty c
  | .rp => neg = false ∧ v ≠ gridMag ty c

/-- Mode `rnd` takes a magnitude `v` of sign `neg` to code `r`, in the format without a greatest exponent. -/
def GridCut (ty : Ty) (rnd : Rnd) (neg : Bool) (v : ℝ) (r : Nat) : Prop :=
  ∃ c, gridMag ty c ≤ v ∧ v < gridMag ty (c + 1) ∧ ((GridUp ty rnd neg v c ∧ r = c + 1) ∨ (¬ GridUp ty rnd neg v c ∧ r = c))

/-- The modes that never go up, and the one that goes up from every magnitude that is no code's. -/
theorem gridUp_directed {ty : Ty} {rnd : Rnd} {neg : Bool} {v : ℝ} {c : Nat} (hrn : rnd ≠ .rn) :
    GridUp ty rnd neg v c ↔ upward rnd neg = true ∧ v ≠ gridMag ty c := by
  cases rnd with
  | rn => exact absurd rfl hrn
  | rz => simp [GridUp, upward]
  | rm => simp [GridUp, upward]
  | rp => simp [GridUp, upward]

/-- A number is an integer exactly when it is the one that it is cut to. -/
theorem CutTo.eq_iff {rnd : Rnd} {neg : Bool} {y : ℝ} {j : Nat} (h : CutTo rnd neg y j) : (∀ k : Nat, y ≠ k) ↔ y ≠ j := by
  refine ⟨fun hne => hne j, fun hne k hk => ?_⟩
  obtain ⟨c, hlow, hhigh, hcase⟩ := h
  have hkc : k = c := by
    rw [hk] at hlow hhigh
    exact le_antisymm (Nat.lt_succ_iff.1 (by exact_mod_cast hhigh)) (by exact_mod_cast hlow)
  subst hkc
  rcases hcase with ⟨hup, -⟩ | ⟨-, rfl⟩
  · cases rnd with
    | rn => rcases hup with h | ⟨h, -⟩ <;> linarith
    | rz => exact hup
    | rm => exact hup.2 hk
    | rp => exact hup.2 hk
  · exact hne hk

theorem binade_even {ty : Ty} (hty : ty.isFloat = true) : binade ty % 2 = 0 := by
  revert hty
  cases ty <;> decide

section
variable {ty : Ty} {rnd : Rnd} {neg : Bool} {v : ℝ}

/-- Units of a binade that are cut to an integer are cut to the code of that integer. -/
theorem gridCut_of_cutTo (hty : ty.isFloat = true) {b j : Nat}
    (hlow : b = 0 ∨ (binade ty : ℝ) ≤ v / 2 ^ ((b : Int) + Ty.emin ty - Ty.mant ty))
    (hhigh : v / 2 ^ ((b : Int) + Ty.emin ty - Ty.mant ty) < 2 * binade ty)
    (hcut : CutTo rnd neg (v / 2 ^ ((b : Int) + Ty.emin ty - Ty.mant ty)) j) :
    GridCut ty rnd neg v (j + b * binade ty) ∧
      (v = gridMag ty (j + b * binade ty) ↔ v / 2 ^ ((b : Int) + Ty.emin ty - Ty.mant ty) = j) := by
  obtain ⟨k, hk, hk', hcase⟩ := hcut
  have hu := zpow_pos (two_pos (α := ℝ)) ((b : Int) + Ty.emin ty - Ty.mant ty)
  generalize hunit : (2 : ℝ) ^ ((b : Int) + Ty.emin ty - Ty.mant ty) = u at *
  have hklt : k < 2 * binade ty := by exact_mod_cast hk.trans_lt hhigh
  have hkge : b = 0 ∨ binade ty ≤ k := by
    refine hlow.imp_right fun h => Nat.lt_succ_iff.1 ?_
    exact_mod_cast h.trans_lt hk'
  have hc : gridMag ty (k + b * binade ty) = k * u := by rw [gridMag_binade ty hkge hklt.le, hunit]
  have hc' : gridMag ty (k + b * binade ty + 1) = (k + 1) * u := by
    rw [show k + b * binade ty + 1 = (k + 1) + b * binade ty by ring,
      gridMag_binade ty (hkge.imp_right fun h => h.trans (Nat.le_succ k)) hklt, hunit]
    push_cast
    rfl
  have hv : v = v / u * u := (div_mul_cancel₀ v hu.ne').symm
  generalize v / u = y at *
  subst hv
  have hparity : (k + b * binade ty) % 2 = k % 2 := by
    have heven : b * binade ty % 2 = 0 := by rw [Nat.mul_mod, binade_even hty, Nat.mul_zero, Nat.zero_mod]
    omega
  have hup : GridUp ty rnd neg (y * u) (k + b * binade ty) ↔ GoesUp rnd neg k y := by
    have hne : y * u ≠ k * u ↔ y ≠ k := not_congr (mul_left_inj' hu.ne')
    cases rnd with
    | rn =>
      simp only [GridUp, GoesUp, hc, hc', hparity]
      refine or_congr ⟨fun h => ?_, fun h => ?_⟩ (and_congr_left' ⟨fun h => ?_, fun h => ?_⟩)
      · by_contra hle
        nlinarith
      · nlinarith
      · have : (2 * y - (2 * k + 1)) * u = 0 := by linarith
        rcases mul_eq_zero.1 this with h' | h'
        · linarith
        · exact absurd h' hu.ne'
      · rw [h]; ring
    | rz => rfl
    | rm => simp only [GridUp, GoesUp, hc, hne]
    | rp => simp only [GridUp, GoesUp, hc, hne]
  constructor
  · refine ⟨k + b * binade ty, ?_, ?_, ?_⟩
    · rw [hc]
      exact mul_le_mul_of_nonneg_right hk hu.le
    · rw [hc']
      exact mul_lt_mul_of_pos_right hk' hu
    · rw [hup]
      rcases hcase with ⟨h, rfl⟩ | ⟨h, rfl⟩
      · exact .inl ⟨h, by ring⟩
      · exact .inr ⟨h, rfl⟩
  · rcases hcase with ⟨-, rfl⟩ | ⟨-, rfl⟩
    · rw [show k + 1 + b * binade ty = k + b * binade ty + 1 by ring, hc', mul_left_inj' hu.ne']
      push_cast
      rfl
    · rw [hc, mul_left_inj' hu.ne']

/-! ### Where the greatest finite value ends (Table 5-4, Table 5-5) -/

/-- The greatest finite code lies in the last binade. -/
theorem maxCode_binade (hty : ty.isFloat = true) :
    Ty.maxCode ty = (Ty.maxCode ty - (Ty.emax ty - Ty.emin ty).toNat * binade ty) + (Ty.emax ty - Ty.emin ty).toNat * binade ty ∧
      binade ty ≤ Ty.maxCode ty - (Ty.emax ty - Ty.emin ty).toNat * binade ty ∧
      Ty.maxCode ty - (Ty.emax ty - Ty.emin ty).toNat * binade ty < 2 * binade ty ∧ Ty.emin ty ≤ Ty.emax ty := by
  revert hty
  cases ty <;> decide

/-- The magnitude that would follow the greatest finite one is a step of the last binade beyond it. -/
theorem gridMag_succ_maxCode (hty : ty.isFloat = true) :
    gridMag ty (Ty.maxCode ty + 1) = gridMag ty (Ty.maxCode ty) + 2 ^ (Ty.emax ty - Ty.mant ty) ∧
      gridMag ty (Ty.maxCode ty + 1) ≤ 2 ^ (Ty.emax ty + 1) := by
  obtain ⟨hcode, hge, hlt, hexp⟩ := maxCode_binade hty
  generalize hk : Ty.maxCode ty - (Ty.emax ty - Ty.emin ty).toNat * binade ty = k at *
  have hb : (((Ty.emax ty - Ty.emin ty).toNat : Nat) : Int) + Ty.emin ty - Ty.mant ty = Ty.emax ty - Ty.mant ty := by omega
  rw [hcode, show k + (Ty.emax ty - Ty.emin ty).toNat * binade ty + 1 = (k + 1) + (Ty.emax ty - Ty.emin ty).toNat * binade ty by ring,
    gridMag_binade ty (.inr hge) hlt.le, gridMag_binade ty (.inr (hge.trans (Nat.le_succ k))) hlt, hb]
  have hu := zpow_pos (two_pos (α := ℝ)) (Ty.emax ty - Ty.mant ty)
  constructor
  · push_cast
    ring
  · have htop : (2 : ℝ) ^ (Ty.emax ty + 1) = 2 * binade ty * 2 ^ (Ty.emax ty - Ty.mant ty) := by
      rw [show Ty.emax ty + 1 = 1 + (Ty.mant ty : Int) + (Ty.emax ty - Ty.mant ty) by ring, zpow_add₀ two_ne_zero, zpow_add₀ two_ne_zero,
        zpow_one, zpow_natCast]
      simp [binade]
    rw [htop]
    exact mul_le_mul_of_nonneg_right (by exact_mod_cast hlt) hu.le

/-- A magnitude a whole step beyond the greatest finite one is beyond it in every mode. -/
theorem beyond_of_le (hty : ty.isFloat = true) (hv : gridMag ty (Ty.maxCode ty + 1) ≤ v) : Beyond ty rnd neg v := by
  have hmax : ((magOf ty (Ty.maxCode ty) : ℚ) : ℝ) = gridMag ty (Ty.maxCode ty) := magOf_eq_gridMag hty le_rfl
  have hu := zpow_pos (two_pos (α := ℝ)) (Ty.emax ty - Ty.mant ty)
  rw [(gridMag_succ_maxCode hty).1] at hv
  unfold Beyond
  simp only [hmax]
  split
  · split <;> linarith
  · split <;> linarith

/-- A magnitude goes beyond the greatest finite one when its code does. -/
theorem GridCut.beyond_iff (hty : ty.isFloat = true) {r : Nat} (h : GridCut ty rnd neg v r) : Beyond ty rnd neg v ↔ Ty.maxCode ty < r := by
  obtain ⟨c, hlow, hhigh, hcase⟩ := h
  obtain ⟨hstep, -⟩ := gridMag_succ_maxCode hty
  have hmax : ((magOf ty (Ty.maxCode ty) : ℚ) : ℝ) = gridMag ty (Ty.maxCode ty) := magOf_eq_gridMag hty le_rfl
  have hu := zpow_pos (two_pos (α := ℝ)) (Ty.emax ty - Ty.mant ty)
  have hmono := (gridMag_strictMono ty).monotone
  have hr : Ty.maxCode ty < r ↔ Ty.maxCode ty < c ∨ c = Ty.maxCode ty ∧ GridUp ty rnd neg v c := by
    rcases hcase with ⟨hup, rfl⟩ | ⟨hup, rfl⟩
    · simp only [hup, and_true]
      omega
    · simp only [hup, and_false, or_false]
  rw [hr]
  unfold Beyond
  simp only [hmax]
  rcases lt_trichotomy c (Ty.maxCode ty) with hc | hc | hc
  · have hv : v < gridMag ty (Ty.maxCode ty) := hhigh.trans_le (hmono hc)
    simp only [not_lt.2 hc.le, hc.ne, false_and, or_self, iff_false]
    split
    · split <;> linarith
    · split <;> linarith
  · subst hc
    simp only [lt_irrefl, false_or, true_and]
    split
    next hrn =>
      subst hrn
      simp only [GridUp, hstep]
      split
      next heven =>
        simp only [heven, Nat.zero_ne_one, and_false, or_false]
        constructor <;> intro h <;> linarith
      next hodd =>
        simp only [show Ty.maxCode ty % 2 = 1 by omega, and_true]
        refine ⟨fun h => ?_, ?_⟩
        · rcases h.lt_or_eq with h | h
          · exact .inl (by linarith)
          · exact .inr (by linarith)
        · rintro (h | h) <;> linarith
    next hrn =>
      rw [gridUp_directed hrn]
      split
      next hup => exact ⟨fun h => ⟨hup, h.ne'⟩, fun h => lt_of_le_of_ne hlow (Ne.symm h.2)⟩
      next hup => exact ⟨fun h => by linarith, fun h => absurd h.1 hup⟩
  · have hv : gridMag ty (Ty.maxCode ty) + 2 ^ (Ty.emax ty - Ty.mant ty) ≤ v := by
      rw [← hstep]
      exact (hmono hc).trans hlow
    simp only [hc, true_or, iff_true]
    split
    · split <;> linarith
    · split <;> linarith

/-- The code that a magnitude is cut to is the one that the mode chooses among the finite codes. -/
theorem GridCut.nearest (hty : ty.isFloat = true) {r : Nat} (h : GridCut ty rnd neg v r) (hr : r ≤ Ty.maxCode ty) :
    Nearest ty rnd neg v r := by
  obtain ⟨c, hlow, hhigh, hcase⟩ := h
  have hmono := gridMag_strictMono ty
  unfold Nearest
  split
  next hrn =>
    subst hrn
    intro j hj
    rw [magOf_eq_gridMag hty hr, magOf_eq_gridMag hty hj]
    have hside : (j ≤ c ∧ gridMag ty j ≤ gridMag ty c) ∨ (c + 1 ≤ j ∧ gridMag ty (c + 1) ≤ gridMag ty j) :=
      (Nat.lt_or_ge c j).symm.imp (fun h => ⟨h, hmono.monotone h⟩) (fun h => ⟨h, hmono.monotone h⟩)
    have hlo : |v - gridMag ty c| = v - gridMag ty c := abs_of_nonneg (by linarith)
    have hhi : |v - gridMag ty (c + 1)| = gridMag ty (c + 1) - v := by rw [abs_sub_comm]; exact abs_of_nonneg (by linarith)
    rcases hcase with ⟨hup, rfl⟩ | ⟨hup, rfl⟩
    · have hmid : gridMag ty c + gridMag ty (c + 1) ≤ 2 * v := by rcases hup with h | ⟨h, -⟩ <;> linarith
      rw [hhi]
      rcases hside with ⟨hjc, hgj⟩ | ⟨hjc, hgj⟩
      · rw [abs_of_nonneg (by linarith : 0 ≤ v - gridMag ty j)]
        refine ⟨by linarith, fun heq _ => ?_⟩
        rcases hup with h | ⟨-, h⟩
        · exact absurd heq (by linarith)
        · omega
      · rw [abs_sub_comm, abs_of_nonneg (by linarith : 0 ≤ gridMag ty j - v)]
        refine ⟨by linarith, fun heq hne => ?_⟩
        exact absurd (hmono.injective (by linarith : gridMag ty j = gridMag ty (c + 1))) hne
    · have hmid : 2 * v ≤ gridMag ty r + gridMag ty (r + 1) := by
        by_contra h
        exact hup (.inl (not_le.1 h))
      rw [hlo]
      rcases hside with ⟨hjc, hgj⟩ | ⟨hjc, hgj⟩
      · rw [abs_of_nonneg (by linarith : 0 ≤ v - gridMag ty j)]
        refine ⟨by linarith, fun heq hne => ?_⟩
        exact absurd (hmono.injective (by linarith : gridMag ty j = gridMag ty r)) hne
      · rw [abs_sub_comm, abs_of_nonneg (by linarith : 0 ≤ gridMag ty j - v)]
        refine ⟨by linarith, fun heq _ => ?_⟩
        by_contra hodd
        exact hup (.inr ⟨by linarith, by omega⟩)
  next hrn =>
    rw [gridUp_directed hrn] at hcase
    split
    next hup =>
      simp only [hup, true_and] at hcase
      rw [magOf_eq_gridMag hty hr]
      rcases hcase with ⟨hne, rfl⟩ | ⟨heq, rfl⟩
      · refine ⟨hhigh.le, fun j hj hvj => ?_⟩
        rw [magOf_eq_gridMag hty hj] at hvj
        have hcj : c + 1 ≤ j := hmono.lt_iff_lt.1 ((lt_of_le_of_ne hlow (Ne.symm hne)).trans_le hvj)
        exact_mod_cast (magOf_eq_gridMag hty hr).trans_le ((hmono.monotone hcj).trans (magOf_eq_gridMag hty hj).ge)
      · rw [not_not] at heq
        refine ⟨heq.le, fun j hj hvj => ?_⟩
        rw [heq, ← magOf_eq_gridMag hty hr] at hvj
        exact_mod_cast hvj
    next hup =>
      simp only [hup, false_and, not_false_eq_true, true_and, Bool.false_eq_true, false_or] at hcase
      subst hcase
      rw [magOf_eq_gridMag hty hr]
      refine ⟨hlow, fun j hj hjv => ?_⟩
      rw [magOf_eq_gridMag hty hj] at hjv
      have hjr : j ≤ r := Nat.lt_succ_iff.1 (hmono.lt_iff_lt.1 (hjv.trans_lt hhigh))
      exact_mod_cast (magOf_eq_gridMag hty hj).trans_le ((hmono.monotone hjr).trans (magOf_eq_gridMag hty hr).ge)

/-! ### Tininess (R89) -/

/-- With an unbounded exponent, a magnitude whose binade begins at `2 ^ top` is tiny when it begins below the least normal value, unless it
is cut up to that value. -/
theorem tiny_iff {top : Int} (hlow : (2 : ℝ) ^ top ≤ v) (hhigh : v < 2 ^ (top + 1)) {j : Nat}
    (hcut : CutTo rnd neg (v / 2 ^ (top - Ty.mant ty)) j) :
    Tiny ty rnd neg v ↔ top < Ty.emin ty ∧ ¬ (top + 1 = Ty.emin ty ∧ j = 2 * binade ty) := by
  have hbin : (2 : ℝ) ^ Ty.emin ty = 2 * binade ty * 2 ^ (Ty.emin ty - 1 - Ty.mant ty) := by
    rw [show Ty.emin ty = 1 + (Ty.mant ty : Int) + (Ty.emin ty - 1 - Ty.mant ty) by ring, zpow_add₀ two_ne_zero, zpow_add₀ two_ne_zero,
      zpow_one, zpow_natCast]
    simp [binade]
  have hone : (1 : ℝ) ≤ binade ty := by exact_mod_cast binade_pos ty
  have hu := zpow_pos (two_pos (α := ℝ)) (Ty.emin ty - 1 - Ty.mant ty)
  unfold Tiny
  simp only [hbin]
  rcases lt_trichotomy (top + 1) (Ty.emin ty) with htop | htop | htop
  · have hv : v < binade ty * 2 ^ (Ty.emin ty - 1 - Ty.mant ty) := by
      refine hhigh.trans_le ?_
      have hmono : (2 : ℝ) ^ (top + 1) ≤ 2 ^ (Ty.emin ty - 1) := zpow_le_zpow_right₀ one_le_two (by omega)
      refine hmono.trans_eq ?_
      rw [show Ty.emin ty - 1 = (Ty.mant ty : Int) + (Ty.emin ty - 1 - Ty.mant ty) by ring, zpow_add₀ two_ne_zero, zpow_natCast]
      simp [binade]
    simp only [show top < Ty.emin ty by omega, htop.ne, false_and, not_false_eq_true, and_self, iff_true]
    split
    · nlinarith
    · split <;> nlinarith
  · simp only [htop, show top < Ty.emin ty by omega, true_and]
    rw [show top - Ty.mant ty = Ty.emin ty - 1 - Ty.mant ty by omega] at hcut
    have hv2 : v < 2 * binade ty * 2 ^ (Ty.emin ty - 1 - Ty.mant ty) := by rwa [← hbin, ← htop]
    generalize (2 : ℝ) ^ (Ty.emin ty - 1 - Ty.mant ty) = u at *
    have hv : v = v / u * u := (div_mul_cancel₀ v hu.ne').symm
    generalize v / u = y at *
    subst hv
    have hy : y < 2 * binade ty := lt_of_mul_lt_mul_right hv2 hu.le
    obtain ⟨k, hk, hk', hcase⟩ := hcut
    have hklt : k < 2 * binade ty := by exact_mod_cast hk.trans_lt hy
    have hj : j = 2 * binade ty ↔ k + 1 = 2 * binade ty ∧ GoesUp rnd neg k y := by
      rcases hcase with ⟨hup, rfl⟩ | ⟨hup, rfl⟩
      · simp [hup]
      · simp only [hup, and_false, iff_false]
        exact hklt.ne
    have hlast : k + 1 = 2 * binade ty ↔ 2 * (binade ty : ℝ) - 1 ≤ y := by
      refine ⟨fun h => ?_, fun h => ?_⟩
      · have : (k : ℝ) + 1 = 2 * binade ty := by exact_mod_cast h
        linarith
      · have : 2 * binade ty < k + 1 + 1 := by
          have : (2 : ℝ) * binade ty < k + 1 + 1 := by linarith
          exact_mod_cast this
        omega
    rw [hj]
    split
    next hrn =>
      subst hrn
      have hle : 2 * (binade ty : ℝ) * u - u / 2 = (2 * binade ty - 1 / 2) * u := by ring
      rw [hle, mul_lt_mul_iff_left₀ hu, ← not_le, not_iff_not]
      refine ⟨fun h => ?_, fun ⟨hk1, hup⟩ => ?_⟩
      · have hk1 := hlast.2 (by linarith)
        have hcast : (k : ℝ) + 1 = 2 * binade ty := by exact_mod_cast hk1
        rcases h.lt_or_eq with h | h
        · exact ⟨hk1, .inl (by linarith)⟩
        · exact ⟨hk1, .inr ⟨by linarith, by omega⟩⟩
      · have hcast : (k : ℝ) + 1 = 2 * binade ty := by exact_mod_cast hk1
        rcases hup with h | ⟨h, -⟩ <;> linarith
    next hrn =>
      have hdir : GoesUp rnd neg k y ↔ upward rnd neg = true ∧ y ≠ k := by
        cases rnd with
        | rn => exact absurd rfl hrn
        | rz => simp [GoesUp, upward]
        | rm => simp [GoesUp, upward]
        | rp => simp [GoesUp, upward]
      rw [hdir]
      split
      next hup =>
        have hle : 2 * (binade ty : ℝ) * u - u = (2 * binade ty - 1) * u := by ring
        rw [hle, mul_le_mul_iff_left₀ hu, ← not_lt, not_iff_not]
        simp only [hup, true_and]
        refine ⟨fun h => ?_, fun ⟨hk1, hne⟩ => ?_⟩
        · have hk1 := hlast.2 h.le
          have hcast : (k : ℝ) + 1 = 2 * binade ty := by exact_mod_cast hk1
          exact ⟨hk1, fun heq => by linarith⟩
        · have hcast : (k : ℝ) + 1 = 2 * binade ty := by exact_mod_cast hk1
          rcases hk.lt_or_eq with h | h
          · linarith
          · exact absurd h.symm hne
      next hup =>
        simp only [hup, false_and, Bool.false_eq_true, and_false, not_false_eq_true, iff_true]
        exact hv2
  · have hv : 2 * (binade ty : ℝ) * 2 ^ (Ty.emin ty - 1 - Ty.mant ty) ≤ v := by
      rw [← hbin]
      exact (zpow_le_zpow_right₀ one_le_two (by omega)).trans hlow
    simp only [show ¬ top < Ty.emin ty by omega, false_and, iff_false]
    split
    · linarith
    · split <;> linarith

end

/-! ### One rounding (R89, R91) -/

/-- An integer of `log2 m + 1` bits that stands for a number leaves the number in its binade. -/
theorem StandsFor.binade {m : Nat} {x : ℝ} (hx : StandsFor m x) (hm : m ≠ 0) (hprec : x = m ∨ 2 ≤ Nat.log2 m) :
    (2 : ℝ) ^ Nat.log2 m ≤ x ∧ x < 2 ^ (Nat.log2 m + 1) := by
  have hlow : 2 ^ Nat.log2 m ≤ m := Nat.log2_self_le hm
  have hhigh : m < 2 ^ (Nat.log2 m + 1) := Nat.lt_log2_self
  rcases hx with rfl | ⟨hodd, hl, hh⟩
  · exact ⟨by exact_mod_cast hlow, by exact_mod_cast hhigh⟩
  · rcases hprec with rfl | htwo
    · exact ⟨by exact_mod_cast hlow, by exact_mod_cast hhigh⟩
    · have heven : 2 ^ Nat.log2 m % 2 = 0 := by
        obtain ⟨n, hn⟩ := Nat.exists_eq_add_of_le htwo
        rw [hn, show 2 + n = (1 + n) + 1 by ring, pow_succ, Nat.mul_mod_left]
      have hlow' : ((2 ^ Nat.log2 m : Nat) : ℝ) + 1 ≤ m := by exact_mod_cast (by omega : 2 ^ Nat.log2 m + 1 ≤ m)
      have hhigh' : (m : ℝ) + 1 ≤ (2 ^ (Nat.log2 m + 1) : Nat) := by exact_mod_cast hhigh
      push_cast at hlow' hhigh'
      exact ⟨by linarith, by linarith⟩

/-- The result of a magnitude beyond the greatest finite one is what Table 5-5 says. -/
theorem overflowBits_eq (ty : Ty) (rnd : Rnd) (ovf : Ovf) (neg : Bool) : ovf = .sat ∨ Ty.ieee ty = true ∨ ty = .e4m3 →
    overflowBits ty rnd ovf neg = match ovf with
      | .sat => (Ty.signBit ty neg + Ty.maxCode ty, fSAT ||| fOF ||| fNX)
      | .nan => (if rnd = .rn ∨ upward rnd neg = true then (if ty = .e4m3 then 0x7F else Ty.signBit ty neg + (Ty.maxCode ty + 1))
                 else Ty.signBit ty neg + Ty.maxCode ty, fOF ||| fNX) := by
  intro hovf
  cases ovf with
  | sat => rfl
  | nan =>
    have hinf : (if Ty.ieee ty = true then Ty.signBit ty neg + (Ty.maxCode ty + 1) else Ty.canonNaN ty) =
        if ty = .e4m3 then 0x7F else Ty.signBit ty neg + (Ty.maxCode ty + 1) := by
      rcases hovf with h | h | rfl
      · cases h
      · rw [if_pos h, if_neg (by rintro rfl; cases h)]
      · rfl
    unfold overflowBits
    dsimp only
    rw [hinf]
    cases rnd <;> cases neg <;> rfl

/-- The binade in which a magnitude is cut: its own, or the least one of the format. -/
theorem unit_binade (ty : Ty) (top : Int) :
    max (Ty.emin ty - Ty.mant ty) (top - Ty.mant ty) =
      (((max (Ty.emin ty - Ty.mant ty) (top - Ty.mant ty) - (Ty.emin ty - Ty.mant ty)).toNat : Nat) : Int) + Ty.emin ty - Ty.mant ty := by
  omega

/-- A number is rounded once into a format through any integer that stands for it with two bits to spare. -/
theorem rounded_roundMag {ty : Ty} (hty : ty.isFloat = true) {rnd : Rnd} {ovf : Ovf} {neg : Bool}
    (hovf : ovf = .sat ∨ Ty.ieee ty = true ∨ ty = .e4m3) {m : Nat} {x : ℝ} (hx : StandsFor m x) (hm : m ≠ 0)
    (hprec : x = m ∨ Ty.mant ty + 2 ≤ Nat.log2 m) (e : Int) : Rounded ty rnd ovf neg (x * 2 ^ e) (roundMag ty rnd ovf neg m e) := by
  obtain ⟨hxlow, hxhigh⟩ := hx.binade hm (hprec.imp_right fun h => by omega)
  have he := zpow_pos (two_pos (α := ℝ)) e
  have hlow : (2 : ℝ) ^ ((Nat.log2 m : Int) + e) ≤ x * 2 ^ e := by
    rw [zpow_add₀ two_ne_zero, zpow_natCast]
    exact mul_le_mul_of_nonneg_right hxlow he.le
  have hhigh : x * 2 ^ e < (2 : ℝ) ^ ((Nat.log2 m : Int) + e + 1) := by
    rw [show (Nat.log2 m : Int) + e + 1 = ((Nat.log2 m + 1 : Nat) : Int) + e by push_cast; ring, zpow_add₀ two_ne_zero, zpow_natCast]
    exact mul_lt_mul_of_pos_right hxhigh he
  have hscale : ∀ q : Int, x * 2 ^ e / 2 ^ q = x / 2 ^ (q - e) := fun q => by
    rw [zpow_sub₀ two_ne_zero]
    field_simp
  unfold roundMag
  dsimp only
  generalize htop : (Nat.log2 m : Int) + e = top at *
  split
  next hover =>
    have hbeyond : Beyond ty rnd neg (x * 2 ^ e) := beyond_of_le hty
      ((gridMag_succ_maxCode hty).2.trans ((zpow_le_zpow_right₀ one_le_two (by omega)).trans hlow))
    exact ⟨fun _ => overflowBits_eq ty rnd ovf neg hovf, fun h => absurd hbeyond h⟩
  next hunder =>
    have hq := unit_binade ty top
    generalize hb : (max (Ty.emin ty - Ty.mant ty) (top - Ty.mant ty) - (Ty.emin ty - Ty.mant ty)).toNat = b at *
    generalize hmax : max (Ty.emin ty - Ty.mant ty) (top - Ty.mant ty) = q at *
    have hbits : x = m ∨ 2 ≤ q - e := hprec.imp_right fun h => by omega
    have htiny : x = m ∨ 2 ≤ top - Ty.mant ty - e := hprec.imp_right fun h => by omega
    obtain ⟨hcut, hinexact⟩ := shiftRound_cutTo hx hbits rnd neg
    obtain ⟨hcutTiny, -⟩ := shiftRound_cutTo hx htiny rnd neg
    rw [hcut.eq_iff] at hinexact
    rw [← hscale] at hcut hinexact hcutTiny
    have hunit : b = 0 ∨ (binade ty : ℝ) ≤ x * 2 ^ e / 2 ^ q := by
      by_cases hb0 : b = 0
      · exact .inl hb0
      · refine .inr ((le_div_iff₀ (zpow_pos two_pos q)).2 (le_trans (le_of_eq ?_) hlow))
        rw [show top = (Ty.mant ty : Int) + q by omega, zpow_add₀ two_ne_zero, zpow_natCast]
        simp [binade]
    have hfull : x * 2 ^ e / 2 ^ q < 2 * binade ty := by
      refine (div_lt_iff₀ (zpow_pos two_pos q)).2 (hhigh.trans_le ?_)
      have hle : (2 : ℝ) ^ (top + 1) ≤ 2 ^ (1 + (Ty.mant ty : Int) + q) := zpow_le_zpow_right₀ one_le_two (by omega)
      refine hle.trans_eq ?_
      rw [zpow_add₀ two_ne_zero, zpow_add₀ two_ne_zero, zpow_natCast, zpow_one]
      simp [binade]
    rw [hq] at hunit hfull hcut hinexact
    obtain ⟨hgrid, hexact⟩ := gridCut_of_cutTo hty hunit hfull hcut
    have hbeyond := hgrid.beyond_iff hty
    rw [← hq] at hcut hinexact hexact hgrid hbeyond
    rw [show (2 : Nat) ^ Ty.mant ty = binade ty from rfl]
    split
    next hover => exact ⟨fun _ => overflowBits_eq ty rnd ovf neg hovf, fun h => absurd (hbeyond.2 hover) h⟩
    next hle =>
      refine ⟨fun h => absurd (hbeyond.1 h) hle, fun _ => ⟨_, not_lt.1 hle, rfl, hgrid.nearest hty (not_lt.1 hle), fun heq => ?_, fun hne => ?_⟩⟩
      · rw [magOf_eq_gridMag hty (not_lt.1 hle)] at heq
        exact if_neg fun h => (hinexact.1 h) (hexact.1 heq.symm)
      · rw [magOf_eq_gridMag hty (not_lt.1 hle)] at hne
        rw [if_pos (hinexact.2 (mt hexact.2 (Ne.symm hne))), tiny_iff hlow hhigh hcutTiny]
        have hflag : (decide (top < Ty.emin ty) && !(top + 1 == Ty.emin ty && (shiftRound rnd neg m (top - ↑(Ty.mant ty) - e)).1 == 2 ^ (Ty.mant ty + 1))) =
            true ↔ top < Ty.emin ty ∧ ¬ (top + 1 = Ty.emin ty ∧ (shiftRound rnd neg m (top - ↑(Ty.mant ty) - e)).1 = 2 * binade ty) := by
          simp [binade, pow_succ, mul_comm, imp_iff_not_or]
        rw [← hflag]
        exact ⟨fun h => if_pos h, fun h => if_neg h⟩

/-- A finite non-zero value is rounded once. -/
theorem rounded_roundTo {ty : Ty} (hty : ty.isFloat = true) {rnd : Rnd} {ovf : Ovf} {neg : Bool}
    (hovf : ovf = .sat ∨ Ty.ieee ty = true ∨ ty = .e4m3) {m : Nat} (hm : m ≠ 0) (e : Int) :
    Rounded ty rnd ovf neg (m * 2 ^ e) (roundTo ty rnd ovf (.fin neg m e)) := by
  have hround := rounded_roundMag hty (rnd := rnd) (neg := neg) hovf (m := m) (x := m) (.inl rfl) hm (.inl rfl) e
  rwa [roundTo, if_neg hm]

/-- An exact zero keeps its sign. -/
theorem roundTo_zero (ty : Ty) (rnd : Rnd) (ovf : Ovf) (neg : Bool) (e : Int) : roundTo ty rnd ovf (.fin neg 0 e) = (Ty.signBit ty neg, 0) := by
  rw [roundTo, if_pos rfl]

/-! ### Magnitudes that the format has -/

/-- The greatest finite value of an IEEE format has all its fraction bits. -/
theorem gridMag_maxCode {ty : Ty} (hieee : Ty.ieee ty = true) :
    gridMag ty (Ty.maxCode ty) = (2 * binade ty - 1) * 2 ^ (Ty.emax ty - Ty.mant ty) := by
  have hcode : Ty.maxCode ty = (2 * binade ty - 1) + (Ty.emax ty - Ty.emin ty).toNat * binade ty ∧ Ty.emin ty ≤ Ty.emax ty := by
    revert hieee
    cases ty <;> decide
  have hpos := binade_pos ty
  rw [hcode.1, gridMag_binade ty (.inr (by omega)) (by omega), show (((Ty.emax ty - Ty.emin ty).toNat : Nat) : Int) + Ty.emin ty - Ty.mant ty =
    Ty.emax ty - Ty.mant ty by omega, Nat.cast_sub (by omega)]
  push_cast
  rfl

/-- A magnitude with no more bits than the format has, between its least and its greatest ones, is one of the format's. -/
theorem exists_code {ty : Ty} (hieee : Ty.ieee ty = true) {m : Nat} {e : Int} (hm : m ≠ 0) (hlt : m < 2 * binade ty)
    (hlow : Ty.emin ty - Ty.mant ty ≤ e) (hhigh : (Nat.log2 m : Int) + e ≤ Ty.emax ty) : ∃ c, c ≤ Ty.maxCode ty ∧ gridMag ty c = m * 2 ^ e := by
  have hlog : Nat.log2 m ≤ Ty.mant ty := by
    rw [Nat.log2_eq_log_two]
    refine Nat.lt_succ_iff.1 (Nat.log_lt_of_lt_pow hm ?_)
    rw [pow_succ, mul_comm]
    exact hlt
  have hq := unit_binade ty ((Nat.log2 m : Int) + e)
  generalize hb : (max (Ty.emin ty - Ty.mant ty) ((Nat.log2 m : Int) + e - Ty.mant ty) - (Ty.emin ty - Ty.mant ty)).toNat = b at *
  generalize hmax : max (Ty.emin ty - Ty.mant ty) ((Nat.log2 m : Int) + e - Ty.mant ty) = q at *
  have hqe : q ≤ e := by omega
  have hunits : ((m * 2 ^ (e - q).toNat : Nat) : ℝ) * 2 ^ q = m * 2 ^ e := by
    push_cast
    rw [mul_assoc, ← zpow_natCast, Int.toNat_of_nonneg (by omega), ← zpow_add₀ two_ne_zero, sub_add_cancel]
  have hlog1 : 2 ^ Nat.log2 m ≤ m := Nat.log2_self_le hm
  have hlog2 : m < 2 ^ (Nat.log2 m + 1) := Nat.lt_log2_self
  have hshift : (e - q).toNat + Nat.log2 m ≤ Ty.mant ty := by omega
  have hupper : m * 2 ^ (e - q).toNat ≤ 2 * binade ty := by
    calc m * 2 ^ (e - q).toNat ≤ 2 ^ (Nat.log2 m + 1) * 2 ^ (e - q).toNat := Nat.mul_le_mul_right _ hlog2.le
      _ = 2 ^ (Nat.log2 m + 1 + (e - q).toNat) := (pow_add ..).symm
      _ ≤ 2 ^ (Ty.mant ty + 1) := Nat.pow_le_pow_right two_pos (by omega)
      _ = 2 * binade ty := by rw [pow_succ, mul_comm]; rfl
  have hlower : b = 0 ∨ binade ty ≤ m * 2 ^ (e - q).toNat := by
    by_cases hb0 : b = 0
    · exact .inl hb0
    · refine .inr ?_
      calc binade ty = 2 ^ (Nat.log2 m + (e - q).toNat) := by rw [binade]; congr 1; omega
        _ = 2 ^ Nat.log2 m * 2 ^ (e - q).toNat := pow_add ..
        _ ≤ m * 2 ^ (e - q).toNat := Nat.mul_le_mul_right _ hlog1
  have hcode := gridMag_binade ty hlower hupper
  rw [← hq, hunits] at hcode
  refine ⟨_, (gridMag_strictMono ty).le_iff_le.1 ?_, hcode⟩
  rw [hcode, gridMag_maxCode hieee]
  have hm' : (m : ℝ) ≤ 2 ^ (Nat.log2 m + 1) - 1 := by
    have : (m : ℝ) + 1 ≤ 2 ^ (Nat.log2 m + 1) := by exact_mod_cast hlog2
    linarith
  have hunit : (1 : ℝ) ≤ 2 ^ (Ty.mant ty - Nat.log2 m) := one_le_pow₀ one_le_two
  calc (m : ℝ) * 2 ^ e ≤ (2 ^ (Nat.log2 m + 1) - 1) * 2 ^ e := mul_le_mul_of_nonneg_right hm' (zpow_pos two_pos e).le
    _ ≤ (2 ^ (Nat.log2 m + 1) - 1) * 2 ^ (Ty.emax ty - Nat.log2 m) := by
        refine mul_le_mul_of_nonneg_left (zpow_le_zpow_right₀ one_le_two (by omega)) ?_
        have : (1 : ℝ) ≤ 2 ^ (Nat.log2 m + 1) := one_le_pow₀ one_le_two
        linarith
    _ = (2 * binade ty - 2 ^ (Ty.mant ty - Nat.log2 m)) * 2 ^ (Ty.emax ty - Ty.mant ty) := by
        rw [show Ty.emax ty - (Nat.log2 m : Int) = ((Ty.mant ty - Nat.log2 m : Nat) : Int) + (Ty.emax ty - Ty.mant ty) by omega,
          zpow_add₀ two_ne_zero, zpow_natCast, ← mul_assoc, sub_mul, ← pow_add, one_mul,
          show Nat.log2 m + 1 + (Ty.mant ty - Nat.log2 m) = Ty.mant ty + 1 by omega, pow_succ, mul_comm]
        simp [binade, mul_comm]
    _ ≤ (2 * binade ty - 1) * 2 ^ (Ty.emax ty - Ty.mant ty) := mul_le_mul_of_nonneg_right (by linarith) (zpow_pos two_pos _).le

/-- A magnitude of the format is rounded to its own code, without a flag. -/
theorem rounded_of_code {ty : Ty} (hty : ty.isFloat = true) {rnd : Rnd} {ovf : Ovf} {neg : Bool} {c : Nat} {r : Bits}
    (hc : c ≤ Ty.maxCode ty) (hr : Rounded ty rnd ovf neg (gridMag ty c) r) : r = (Ty.signBit ty neg + c, 0) := by
  have hmono := gridMag_strictMono ty
  have hcut : GridCut ty rnd neg (gridMag ty c) c := by
    have hnext := hmono (Nat.lt_succ_self c)
    refine ⟨c, le_rfl, hnext, .inr ⟨?_, rfl⟩⟩
    cases rnd with
    | rn =>
      rintro (h | ⟨h, -⟩)
      · linarith
      · linarith
    | rz => exact id
    | rm => exact fun h => h.2 rfl
    | rp => exact fun h => h.2 rfl
  obtain ⟨k, hk, hcode, hnear, hexact, -⟩ := hr.within (mt (hcut.beyond_iff hty).1 (not_lt.2 hc))
  have hkc : gridMag ty k = gridMag ty c := by
    unfold Nearest at hnear
    split at hnear
    next =>
      obtain ⟨hle, -⟩ := hnear c hc
      rw [magOf_eq_gridMag hty hc, magOf_eq_gridMag hty hk, sub_self, abs_zero] at hle
      linarith [abs_nonpos_iff.1 hle]
    next =>
      rw [magOf_eq_gridMag hty hk] at hnear
      split at hnear
      next =>
        have hle := hnear.2 c hc (by rw [magOf_eq_gridMag hty hc])
        have hle' : ((magOf ty k : ℚ) : ℝ) ≤ magOf ty c := by exact_mod_cast hle
        rw [magOf_eq_gridMag hty hc, magOf_eq_gridMag hty hk] at hle'
        exact le_antisymm hle' hnear.1
      next =>
        have hle := hnear.2 c hc (by rw [magOf_eq_gridMag hty hc])
        have hle' : ((magOf ty c : ℚ) : ℝ) ≤ magOf ty k := by exact_mod_cast hle
        rw [magOf_eq_gridMag hty hc, magOf_eq_gridMag hty hk] at hle'
        exact le_antisymm hnear.1 hle'
  have hflags : r.2 = 0 := hexact (by rw [magOf_eq_gridMag hty hk, hkc])
  rw [hmono.injective hkc] at hcode
  exact Prod.ext hcode hflags

/-! ### The nearest integer -/

/-- The integer that a number is cut to is the one that its mode chooses. -/
theorem CutTo.nearestInt {rnd : Rnd} {neg : Bool} {v : ℚ} {j : Nat} (h : CutTo rnd neg (v : ℝ) j) : NearestInt rnd neg v j := by
  obtain ⟨c, hlow, hhigh, hcase⟩ := h
  have hlow : (c : ℚ) ≤ v := by exact_mod_cast hlow
  have hhigh : v < c + 1 := by exact_mod_cast hhigh
  unfold NearestInt
  split
  next hrn =>
    subst hrn
    have hup : GoesUp .rn neg c (v : ℝ) ↔ (c : ℚ) + 1 / 2 < v ∨ v = c + 1 / 2 ∧ c % 2 = 1 := by
      refine or_congr ?_ (and_congr_left' ?_)
      · rw [← Rat.cast_lt (K := ℝ)]
        push_cast
        rfl
      · rw [← Rat.cast_inj (α := ℝ)]
        push_cast
        rfl
    rw [hup] at hcase
    intro k
    have hside : (k ≤ c ∧ (k : ℚ) ≤ c) ∨ (c + 1 ≤ k ∧ (c : ℚ) + 1 ≤ k) :=
      (Nat.lt_or_ge c k).symm.imp (fun h => ⟨h, by exact_mod_cast h⟩) (fun h => ⟨h, by exact_mod_cast h⟩)
    rcases hcase with ⟨hup, rfl⟩ | ⟨hup, rfl⟩
    · push_cast
      have hmid : (c : ℚ) + 1 / 2 ≤ v := by rcases hup with h | ⟨h, -⟩ <;> linarith
      rw [show |v - ((c : ℚ) + 1)| = c + 1 - v by rw [abs_sub_comm]; exact abs_of_nonneg (by linarith)]
      rcases hside with ⟨hkc, hk⟩ | ⟨hkc, hk⟩
      · rw [abs_of_nonneg (by linarith : 0 ≤ v - k)]
        refine ⟨by linarith, fun heq _ => ?_⟩
        rcases hup with h | ⟨-, h⟩
        · exact absurd heq (by linarith)
        · omega
      · rw [abs_sub_comm, abs_of_nonneg (by linarith : 0 ≤ (k : ℚ) - v)]
        refine ⟨by linarith, fun heq hne => absurd ?_ hne⟩
        have : (k : ℚ) = (c + 1 : Nat) := by push_cast; linarith
        exact_mod_cast this
    · have hmid : v ≤ j + 1 / 2 := by
        by_contra h
        exact hup (.inl (not_le.1 h))
      rw [abs_of_nonneg (by linarith : 0 ≤ v - j)]
      rcases hside with ⟨hkc, hk⟩ | ⟨hkc, hk⟩
      · rw [abs_of_nonneg (by linarith : 0 ≤ v - k)]
        refine ⟨by linarith, fun heq hne => absurd ?_ hne⟩
        have : (k : ℚ) = j := by linarith
        exact_mod_cast this
      · rw [abs_sub_comm, abs_of_nonneg (by linarith : 0 ≤ (k : ℚ) - v)]
        refine ⟨by linarith, fun heq _ => ?_⟩
        by_contra hodd
        exact hup (.inr ⟨by linarith, by omega⟩)
  next hrn =>
    have hdir : GoesUp rnd neg c (v : ℝ) ↔ upward rnd neg = true ∧ v ≠ c := by
      have hcast : (v : ℝ) = c ↔ v = c := by exact_mod_cast Iff.rfl
      cases rnd with
      | rn => exact absurd rfl hrn
      | rz => simp [GoesUp, upward]
      | rm => simp [GoesUp, upward, hcast]
      | rp => simp [GoesUp, upward, hcast]
    rw [hdir] at hcase
    split
    next hup =>
      simp only [hup, true_and] at hcase
      rcases hcase with ⟨hne, rfl⟩ | ⟨heq, rfl⟩
      · refine ⟨by push_cast; exact hhigh.le, fun k hvk => ?_⟩
        have : (c : ℚ) < k := (lt_of_le_of_ne hlow (Ne.symm hne)).trans_le hvk
        exact_mod_cast this
      · rw [not_not] at heq
        refine ⟨heq.le, fun k hvk => ?_⟩
        rw [heq] at hvk
        exact_mod_cast hvk
    next hup =>
      simp only [hup, false_and, not_false_eq_true, true_and, Bool.false_eq_true, false_or] at hcase
      subst hcase
      refine ⟨hlow, fun k hkv => ?_⟩
      have : (k : ℚ) < j + 1 := hkv.trans_lt hhigh
      exact Nat.lt_succ_iff.1 (by exact_mod_cast this)

/-- An integer in units of a power of two, cut to an integer. -/
theorem shiftRound_nearestInt (rnd : Rnd) (neg : Bool) (m : Nat) (e : Int) :
    NearestInt rnd neg (m * 2 ^ e) (shiftRound rnd neg m (-e)).1 ∧
      ((shiftRound rnd neg m (-e)).2 = true ↔ ((shiftRound rnd neg m (-e)).1 : ℚ) ≠ m * 2 ^ e) := by
  obtain ⟨hcut, hinexact⟩ := shiftRound_cutTo (m := m) (x := m) (.inl rfl) (sh := -e) (.inl rfl) rnd neg
  rw [hcut.eq_iff] at hinexact
  have hcast : (m : ℝ) / 2 ^ (-e) = ((m * 2 ^ e : ℚ) : ℝ) := by
    rw [zpow_neg, div_inv_eq_mul]
    push_cast
    rfl
  rw [hcast] at hcut hinexact
  refine ⟨hcut.nearestInt, hinexact.trans (not_congr ?_)⟩
  rw [eq_comm]
  exact_mod_cast Iff.rfl

/-! ### The result of an operation (R89, R158) -/

/-- No flag added. -/
theorem zero_or_flags (fl : Flags) : (0 : Flags) ||| fl = fl := BitVec.zero_or

/-- The sign bit of a code is its sign. -/
theorem bitAt_signBit_add (ty : Ty) (neg : Bool) {k : Nat} (hk : k < 2 ^ (ty.width - 1)) : bitAt (Ty.signBit ty neg + k) (ty.width - 1) = neg := by
  rw [bitAt_eq, Ty.signBit]
  cases neg with
  | false => rw [if_neg Bool.false_ne_true, Nat.zero_add, Nat.testBit_lt_two_pow hk]
  | true => rw [if_pos rfl, Nat.testBit_two_pow_add_eq, Nat.testBit_lt_two_pow hk]; rfl

section
variable {ty : Ty} (hty : ty = .f32 ∨ ty = .f64)
include hty

theorem isFloat_of_lane : ty.isFloat = true := by rcases hty with rfl | rfl <;> rfl
theorem ieee_of_lane : Ty.ieee ty = true := by rcases hty with rfl | rfl <;> rfl
theorem succ_maxCode_lt : Ty.maxCode ty + 1 < 2 ^ (ty.width - 1) := by rcases hty with rfl | rfl <;> decide

/-- A rounded result has the sign of its magnitude. -/
theorem sign_of_rounded {rnd : Rnd} {neg : Bool} {v : ℝ} {r : Bits} (h : Rounded ty rnd .nan neg v r) : bitAt r.1 (ty.width - 1) = neg := by
  have hmax := succ_maxCode_lt hty
  by_cases hb : Beyond ty rnd neg v
  · have hne : ty ≠ .e4m3 := by rintro rfl; rcases hty with h | h <;> cases h
    rw [h.beyond hb]
    dsimp only
    rw [if_neg hne]
    split
    · exact bitAt_signBit_add ty neg hmax
    · exact bitAt_signBit_add ty neg (by omega)
  · obtain ⟨k, hk, hr, -⟩ := h.within hb
    rw [hr]
    exact bitAt_signBit_add ty neg (by omega)

/-- An operation whose value is finite and not zero rounds it once and flushes a subnormal result under `.ftz`. -/
theorem flushed_fresult {rnd : Rnd} {ftz neg : Bool} {v : ℝ} {m : Nat} {e : Int}
    (h : Rounded ty rnd .nan neg v (roundTo ty rnd .nan (.fin neg m e))) : Flushed ty rnd ftz neg v (fresult ty rnd ftz (.fin neg m e, 0)) := by
  refine ⟨_, h, ?_⟩
  unfold fresult
  dsimp only
  have hsign := sign_of_rounded hty h
  by_cases hflush : ftz = true ∧ isSubnormal ty (roundTo ty rnd .nan (.fin neg m e)).1 = true
  · rw [if_pos hflush, if_pos (by simpa using hflush), hsign, zero_or_flags]
  · rw [if_neg hflush, if_neg (by simpa using hflush), zero_or_flags]

theorem isSubnormal_signBit (neg : Bool) : isSubnormal ty (Ty.signBit ty neg) = false := by
  rcases hty with rfl | rfl <;> cases neg <;> decide

/-- An operation whose value is an exact zero gives the zero of its sign. -/
theorem fresult_zero (rnd : Rnd) (ftz neg : Bool) (e : Int) : fresult ty rnd ftz (.fin neg 0 e, 0) = (Ty.signBit ty neg, 0) := by
  unfold fresult
  rw [roundTo_zero]
  dsimp only
  rw [isSubnormal_signBit hty, Bool.and_false]
  rfl

/-- Infinities and NaNs pass as they are, with the flags of the operation. -/
theorem fresult_inf (rnd : Rnd) (ftz neg : Bool) (fl : Flags) :
    fresult ty rnd ftz (.inf neg, fl) = (Ty.signBit ty neg + (if ty = .f32 then 0x7F800000 else 0x7FF0000000000000), fl) := by
  unfold fresult
  rcases hty with rfl | rfl
  · cases neg <;> cases ftz <;> simp [roundTo, isSubnormal, Ty.ieee, Ty.maxCode, Ty.signBit, Ty.mant, Ty.ebits, Ty.fmt, Ty.width, bits]
  · cases neg <;> cases ftz <;> simp [roundTo, isSubnormal, Ty.ieee, Ty.maxCode, Ty.signBit, Ty.mant, Ty.ebits, Ty.fmt, Ty.width, bits]

theorem fresult_nan (rnd : Rnd) (ftz s : Bool) (fl : Flags) :
    fresult ty rnd ftz (.nan s, fl) = (if ty = .f32 then 0x7FC00000 else 0x7FF8000000000000, fl) := by
  unfold fresult
  rcases hty with rfl | rfl
  · cases ftz <;> simp [roundTo, isSubnormal, Ty.ieee, Ty.canonNaN, Ty.mant, Ty.ebits, Ty.fmt, Ty.width, bits]
  · cases ftz <;> simp [roundTo, isSubnormal, Ty.ieee, Ty.canonNaN, Ty.mant, Ty.ebits, Ty.fmt, Ty.width, bits]

end

end Sys2Proof.Machine
end

section
/-! The proof of `Obligations.RoundedArithmetic` (R84, R87–R90, R158). -/

namespace Sys2Proof.Machine

/-! ### The exact sum -/

theorem leastExp_le_start (xs : List FVal) (g : Int) : leastExp xs g ≤ g := by
  induction xs generalizing g with
  | nil => exact le_rfl
  | cons x xs ih =>
    cases x with
    | nan s => exact ih g
    | inf n => exact ih g
    | fin n m e =>
      refine (ih _).trans ?_
      split
      · exact le_rfl
      · exact min_le_right e g

/-- No term that is not zero has an exponent below the least one. -/
theorem leastExp_le_of_mem {xs : List FVal} {n : Bool} {m : Nat} {e : Int} (hmem : FVal.fin n m e ∈ xs) (g : Int) :
    m = 0 ∨ leastExp xs g ≤ e := by
  induction xs generalizing g with
  | nil => cases hmem
  | cons x xs ih =>
    rcases List.mem_cons.1 hmem with rfl | hrest
    · rw [leastExp]
      by_cases hm : m = 0
      · exact .inl hm
      · rw [if_neg hm]
        exact .inr ((leastExp_le_start xs _).trans (min_le_left e g))
    · cases x with
      | nan s => exact ih hrest g
      | inf n => exact ih hrest g
      | fin n' m' e' => exact ih hrest _

/-- Finite values as integers of a common unit add up to their sum. -/
theorem foldl_scaled {g : Int} {xs : List FVal} (hfin : ∀ x ∈ xs, ∃ n m e, x = FVal.fin n m e ∧ (m = 0 ∨ g ≤ e)) (a : Int) :
    ((xs.foldl (fun a x => a + scaled g x) a : Int) : ℚ) * 2 ^ g = a * 2 ^ g + (xs.map ratOf).sum := by
  induction xs generalizing a with
  | nil => simp
  | cons x xs ih =>
    obtain ⟨n, m, e, rfl, hm⟩ := hfin x List.mem_cons_self
    rw [List.foldl_cons, ih fun x hx => hfin x (List.mem_cons_of_mem _ hx), List.map_cons, List.sum_cons, ← scaled_rat g n m e hm]
    push_cast
    ring

/-- The sign of an exact zero (R87). -/
def zeroSign (rnd : Rnd) (xs : List FVal) : Bool :=
  if xs.all FVal.isNeg then true else if xs.all (fun x => !x.isNeg) then false else decide (rnd = .rm)

/-- The sum of finite values is exact, and an exact zero has the sign of R87. -/
theorem fsumV_finite (rnd : Rnd) {xs : List FVal} (hfin : ∀ x ∈ xs, ∃ n m e, x = FVal.fin n m e) :
    ∃ n m e, fsumV rnd xs = (.fin n m e, 0) ∧ ratOf (.fin n m e) = (xs.map ratOf).sum ∧
      ((xs.map ratOf).sum = 0 → m = 0 ∧ n = zeroSign rnd xs) := by
  have hnan : xs.any FVal.isNaN = false := by
    rw [List.any_eq_false]
    intro x hx
    obtain ⟨n, m, e, rfl⟩ := hfin x hx
    exact Bool.false_ne_true
  have hinf : ∀ n, xs.any (fun x => decide (x = .inf n)) = false := by
    intro n
    rw [List.any_eq_false]
    intro x hx
    obtain ⟨n', m, e, rfl⟩ := hfin x hx
    simp
  have hsum := foldl_scaled (g := leastExp xs (someExp xs)) (xs := xs) (fun x hx => by
    obtain ⟨n, m, e, rfl⟩ := hfin x hx
    exact ⟨n, m, e, rfl, leastExp_le_of_mem hx _⟩) 0
  rw [Int.cast_zero, zero_mul, zero_add] at hsum
  have hu : (2 : ℚ) ^ leastExp xs (someExp xs) ≠ 0 := zpow_ne_zero _ two_ne_zero
  unfold fsumV
  rw [hnan, hinf, hinf]
  simp only [Bool.false_eq_true, if_false, Bool.and_self]
  generalize xs.foldl (fun a x => a + scaled (leastExp xs (someExp xs)) x) 0 = total at *
  by_cases htotal : total = 0
  · rw [if_pos htotal]
    rw [htotal, Int.cast_zero, zero_mul] at hsum
    exact ⟨zeroSign rnd xs, 0, 0, rfl, by rw [← hsum]; simp [ratOf], fun _ => ⟨rfl, rfl⟩⟩
  · rw [if_neg htotal]
    refine ⟨_, _, _, rfl, ?_, fun hzero => absurd ?_ htotal⟩
    · rw [← hsum, ratOf]
      congr 1
      by_cases hneg : total < 0
      · rw [if_pos (decide_eq_true hneg), Nat.cast_natAbs, abs_of_neg hneg]
        push_cast
        ring
      · rw [if_neg (by simpa using hneg), Nat.cast_natAbs, abs_of_nonneg (not_lt.1 hneg), one_mul]
    · rw [← hsum] at hzero
      exact_mod_cast (mul_eq_zero.1 hzero).resolve_right hu

theorem zeroSign_pair (rnd : Rnd) (n m : Bool) (a b : Nat) (e f : Int) :
    zeroSign rnd [.fin n a e, .fin m b f] = if n = m then n else decide (rnd = .rm) := by
  cases n <;> cases m <;> simp [zeroSign, FVal.isNeg]

/-! ### Infinities and NaNs (R87, R158) -/

/-- A NaN among the terms makes the sum a quiet NaN, with NV where one of them signals. -/
theorem fsumV_nan {rnd : Rnd} {x y : FVal} (h : x.isNaN = true ∨ y.isNaN = true) :
    (fsumV rnd [x, y]).1 = .nan false ∧ ((x = .nan true ∨ y = .nan true) → (fsumV rnd [x, y]).2 = fNV) ∧
      (¬ (x = .nan true ∨ y = .nan true) → (fsumV rnd [x, y]).2 = 0) := by
  have hany : [x, y].any FVal.isNaN = true := by simpa using h
  have hsignal : ([x, y].any fun x => decide (x = .nan true)) = true ↔ x = .nan true ∨ y = .nan true := by simp
  unfold fsumV
  rw [if_pos hany]
  exact ⟨rfl, fun hbad => if_pos (hsignal.2 hbad), fun hbad => if_neg (mt hsignal.1 hbad)⟩

/-- A NaN operand makes the product a quiet NaN, with NV where one of them signals. -/
theorem fmulV_nan {x y : FVal} (h : x.isNaN = true ∨ y.isNaN = true) :
    (fmulV x y).1 = .nan false ∧ ((x = .nan true ∨ y = .nan true) → (fmulV x y).2 = fNV) ∧
      (¬ (x = .nan true ∨ y = .nan true) → (fmulV x y).2 = 0) := by
  cases x with
  | nan s => cases y with
    | nan t => cases s <;> cases t <;> simp [fmulV]
    | inf n => cases s <;> simp [fmulV]
    | fin n m e => cases s <;> simp [fmulV]
  | inf n => cases y with
    | nan t => cases t <;> simp [fmulV]
    | inf n => simp [FVal.isNaN] at h
    | fin n m e => simp [FVal.isNaN] at h
  | fin n m e => cases y with
    | nan t => cases t <;> simp [fmulV]
    | inf n => simp [FVal.isNaN] at h
    | fin n m e => simp [FVal.isNaN] at h

/-- An infinity and a number add up to the infinity. -/
theorem fsumV_inf_fin (rnd : Rnd) (n k : Bool) (a : Nat) (e : Int) :
    fsumV rnd [.inf n, .fin k a e] = (.inf n, 0) ∧ fsumV rnd [.fin k a e, .inf n] = (.inf n, 0) := by
  cases n <;> simp [fsumV, FVal.isNaN]

/-! ### The value of an operation, rounded -/

/-- A value that is a sign and a magnitude has that sign and that magnitude. -/
theorem fin_of_ratOf {n neg : Bool} {m : Nat} {e : Int} {v : ℝ} (hv : 0 < v)
    (h : ((ratOf (.fin n m e) : ℚ) : ℝ) = if neg then -v else v) : m ≠ 0 ∧ n = neg ∧ v = m * 2 ^ e := by
  have hu := zpow_pos (two_pos (α := ℝ)) e
  have hm : (0 : ℝ) ≤ m := Nat.cast_nonneg m
  have hmag : (0 : ℝ) ≤ m * 2 ^ e := by positivity
  have hrat : ((ratOf (.fin n m e) : ℚ) : ℝ) = (if n then -1 else 1) * (m * 2 ^ e) := by
    simp only [ratOf]
    push_cast
    cases n <;> simp
  rw [hrat] at h
  have hne : m ≠ 0 := by
    rintro rfl
    cases neg <;> simp at h <;> linarith
  cases n with
  | false =>
    cases neg with
    | false => exact ⟨hne, rfl, by simpa using h.symm⟩
    | true => simp at h; linarith
  | true =>
    cases neg with
    | false => simp at h; linarith
    | true => exact ⟨hne, rfl, by simpa using h.symm⟩

/-- What R158 says of an operation of exact value `w` that is a number: an exact zero of the sign given, or `w` rounded once. -/
def RoundsTo (ty : Ty) (rnd : Rnd) (ftz : Bool) (w : ℚ) (zero : Bool) (r : Bits) : Prop :=
  (w = 0 → r = (Ty.signBit ty zero, 0)) ∧
    ∀ (neg : Bool) (v : ℝ), 0 < v → (w : ℝ) = (if neg then -v else v) → Flushed ty rnd ftz neg v r

theorem roundsTo_fresult {ty : Ty} (hty : ty = .f32 ∨ ty = .f64) {rnd : Rnd} {ftz n zero : Bool} {m : Nat} {e : Int} {w : ℚ}
    (hw : ratOf (.fin n m e) = w) (hzero : w = 0 → m = 0 ∧ n = zero) : RoundsTo ty rnd ftz w zero (fresult ty rnd ftz (.fin n m e, 0)) := by
  refine ⟨fun h => ?_, fun neg v hv h => ?_⟩
  · obtain ⟨rfl, rfl⟩ := hzero h
    exact fresult_zero hty rnd ftz n e
  · rw [← hw] at h
    obtain ⟨hm, rfl, rfl⟩ := fin_of_ratOf hv h
    exact flushed_fresult hty (rounded_roundTo (isFloat_of_lane hty) (.inr (.inl (ieee_of_lane hty))) hm e)

theorem roundsTo_sum {ty : Ty} (hty : ty = .f32 ∨ ty = .f64) (rnd : Rnd) (ftz n m : Bool) (a b : Nat) (e f : Int) :
    RoundsTo ty rnd ftz (ratOf (.fin n a e) + ratOf (.fin m b f)) (if n = m then n else decide (rnd = .rm))
      (fresult ty rnd ftz (fsumV rnd [.fin n a e, .fin m b f])) := by
  obtain ⟨n', m', e', hsum, hrat, hzero⟩ := fsumV_finite rnd (xs := [.fin n a e, .fin m b f]) (by simp)
  rw [zeroSign_pair] at hzero
  rw [show ([FVal.fin n a e, .fin m b f].map ratOf).sum = ratOf (.fin n a e) + ratOf (.fin m b f) by simp] at hrat hzero
  rw [hsum]
  exact roundsTo_fresult hty hrat hzero

theorem ratOf_neg (n : Bool) (m : Nat) (e : Int) : ratOf (.fin (!n) m e) = - ratOf (.fin n m e) := by
  cases n <;> simp [ratOf]

theorem ratOf_eq_zero_iff (n : Bool) (m : Nat) (e : Int) : ratOf (.fin n m e) = 0 ↔ m = 0 := by
  have hu : (2 : ℚ) ^ e ≠ 0 := zpow_ne_zero _ two_ne_zero
  cases n <;> simp [ratOf, hu]

/-! ### The integer that a magnitude is rounded to (R89) -/

section
variable (neg : Bool) (m : Nat) {sh : Nat} (hsh : 0 < sh)
include hsh

/-- A magnitude of `sh` bits below the point. -/
theorem shiftRound_pos (rnd : Rnd) : shiftRound rnd neg m sh =
    (if roundUp rnd neg (m / 2 ^ sh % 2 == 1) (m % 2 ^ sh) (2 ^ sh) then m / 2 ^ sh + 1 else m / 2 ^ sh, m % 2 ^ sh != 0) := by
  unfold shiftRound
  rw [if_neg (by omega)]
  rfl

theorem shiftRound_exact (rnd : Rnd) (h : m % 2 ^ sh = 0) : (shiftRound rnd neg m sh).1 = m / 2 ^ sh := by
  have hpos : 0 < 2 ^ sh := Nat.two_pow_pos sh
  rw [shiftRound_pos neg m hsh, h]
  cases rnd <;> simp [roundUp, hpos.ne]

/-- The nearest integer is chosen. -/
theorem shiftRound_nearest (k : Nat) : |2 * ((shiftRound .rn neg m sh).1 * (2 ^ sh : Nat) - m : Int)| ≤ |2 * (k * (2 ^ sh : Nat) - m : Int)| := by
  rw [shiftRound_pos neg m hsh]
  have hpos : 0 < 2 ^ sh := Nat.two_pow_pos sh
  have hmod := Nat.mod_lt m hpos
  have hm := Nat.div_add_mod m (2 ^ sh)
  generalize m / 2 ^ sh = q at *
  generalize m % 2 ^ sh = r at *
  generalize 2 ^ sh = d at *
  have hkd : (k : Int) ≤ q ∧ (k : Int) * d ≤ q * d ∨ (q : Int) + 1 ≤ k ∧ (q + 1) * (d : Int) ≤ k * d := by
    rcases le_or_gt k q with h | h
    · exact .inl ⟨by exact_mod_cast h, by exact_mod_cast Nat.mul_le_mul_right d h⟩
    · exact .inr ⟨by exact_mod_cast h, by exact_mod_cast Nat.mul_le_mul_right d h⟩
  have hm' : (m : Int) = q * d + r := by rw [← hm]; push_cast; ring
  rw [hm']
  by_cases hup : roundUp .rn neg (q % 2 == 1) r d = true
  · have hhalf : (d : Int) ≤ 2 * r := by
      simp only [roundUp, Bool.or_eq_true, Bool.and_eq_true, decide_eq_true_eq, beq_iff_eq] at hup
      omega
    rw [if_pos hup]
    push_cast
    rw [show 2 * (((q : Int) + 1) * d - (q * d + r)) = 2 * (d - r) by ring, abs_of_nonneg (by omega), le_abs]
    rcases hkd with ⟨-, h⟩ | ⟨-, h⟩
    · exact .inr (by linarith)
    · exact .inl (by linarith)
  · have hhalf : 2 * (r : Int) ≤ d := by
      simp only [roundUp, Bool.or_eq_true, Bool.and_eq_true, decide_eq_true_eq, beq_iff_eq, not_or] at hup
      omega
    rw [if_neg hup, show 2 * ((q : Int) * d - (q * d + r)) = -(2 * r) by ring, abs_neg, abs_of_nonneg (by omega), le_abs]
    rcases hkd with ⟨-, h⟩ | ⟨-, h⟩
    · exact .inr (by linarith)
    · exact .inl (by linarith)

/-- Of two that are equally near, the even one. -/
theorem shiftRound_tie (h : 2 * (m % 2 ^ sh) = 2 ^ sh) : (shiftRound .rn neg m sh).1 % 2 = 0 := by
  rw [shiftRound_pos neg m hsh]
  simp only [roundUp, h, gt_iff_lt, lt_irrefl, decide_false, Bool.false_or, beq_self_eq_true, Bool.true_and, beq_iff_eq]
  split <;> omega

end

/-! ### The statement -/

/-- Settles O9: each operation's value is exact, and one rounding of an exact value is what R89 says. -/
theorem roundedArithmetic : Obligations.RoundedArithmetic := by
  unfold Obligations.RoundedArithmetic
  refine ⟨fun h ty rnd ftz z d a b c => ⟨?_, ?_, ?_, ?_⟩, fun ty rnd ftz n m k a b c e f g hty => ⟨?_, ?_, ?_, ?_⟩,
    fun ty rnd ftz n fl hty => ⟨fresult_inf hty rnd ftz n fl, fresult_nan hty rnd ftz n fl⟩, fun rnd n k a e x y z => ?_,
    fun neg m sh hsh => ⟨fun rnd => ⟨?_, shiftRound_exact neg m hsh rnd⟩, ?_, fun hne => ⟨?_, ?_⟩, shiftRound_nearest neg m hsh,
      shiftRound_tie neg m hsh⟩⟩
  · exact writes_alu (f := fun g l => fresult ty rnd ftz (fsumV rnd [g.fp ty ftz a l, g.fp ty ftz b l])) fun _ => rfl
  · exact writes_alu (f := fun g l => fresult ty rnd ftz (fsumV rnd [g.fp ty ftz a l, (g.fp ty ftz b l).neg])) fun _ => rfl
  · exact writes_alu (f := fun g l => fresult ty rnd ftz (fmulV (g.fp ty ftz a l) (g.fp ty ftz b l))) fun _ => rfl
  · exact writes_alu (f := fun g l => fresult ty rnd ftz (ffmaV rnd (g.fp ty ftz a l) (g.fp ty ftz b l) (g.fp ty ftz c l))) fun _ => rfl
  · exact roundsTo_sum hty rnd ftz n m a b e f
  · have hsub := roundsTo_sum hty rnd ftz n (!m) a b e f
    rwa [ratOf_neg, ← sub_eq_add_neg] at hsub
  · obtain ⟨hmul, hrat⟩ := fmul_rat n m a b e f
    rw [hmul]
    refine roundsTo_fresult hty hrat fun hzero => ⟨?_, rfl⟩
    rwa [← hrat, ratOf_eq_zero_iff] at hzero
  · obtain ⟨hmul, hrat⟩ := fmul_rat n m a b e f
    have hsum := roundsTo_sum hty rnd ftz (n != m) k (a * b) c (e + f) g
    rw [hrat] at hsum
    unfold ffmaV
    rw [hmul]
    dsimp only
    rw [zero_or_flags]
    exact hsum
  · obtain ⟨hleft, hright⟩ := fsumV_inf_fin rnd n k a e
    refine ⟨hleft, hright, ?_, ?_, rfl, fun ha => ⟨if_neg ha, if_neg ha⟩, rfl, rfl, fun hnan => ⟨fsumV_nan hnan, fmulV_nan hnan⟩, rfl⟩
    · cases n <;> rfl
    · cases n <;> rfl
  · rw [shiftRound_pos neg m hsh]
    simp
  · rw [shiftRound_pos neg m hsh]
    simp [roundUp]
  · rw [shiftRound_pos neg m hsh]
    cases neg <;> simp [roundUp, hne]
  · rw [shiftRound_pos neg m hsh]
    cases neg <;> simp [roundUp, hne]

end Sys2Proof.Machine
end

section
/-! The proof of `Obligations.Conversions` (R91, R92, R139, R165–R169). -/

namespace Sys2Proof.Machine

/-! ### The instructions (R166, R168, R169) -/

section
variable (h : Hdr) (dty sty : Ty) (rnd : Rnd) (sat z nan : Bool) (d a b : Opnd) (i j : Nat)

theorem writes_cvt : Writes (.cvt h dty sty rnd sat z nan d i a j) true d dty.regs z
    (fun _ x l => if dty.width ≥ 32 then (convert dty sty rnd sat (x.g.srcElem sty a j l)).1
      else setElement dty (x.g.opnd d 1 l) i (convert dty sty rnd sat (x.g.srcElem sty a j l)).1)
    (fun x l => (convert dty sty rnd sat (x.g.srcElem sty a j l)).2) :=
  writes_alu (f := fun g l => (putElem dty (g.opnd d 1 l) i (convert dty sty rnd sat (g.srcElem sty a j l)).1,
    (convert dty sty rnd sat (g.srcElem sty a j l)).2)) fun _ => rfl

theorem writes_pack : Writes (.pack h dty sty rnd sat z nan d a b j) true d 1 z
    (fun _ x l => setElement dty (setElement dty (x.g.opnd d 1 l) (2 * j) (convert dty sty rnd sat (x.g.srcElem sty a 0 l)).1) (2 * j + 1)
      (convert dty sty rnd sat (x.g.srcElem sty b 0 l)).1)
    (fun x l => (convert dty sty rnd sat (x.g.srcElem sty a 0 l)).2 ||| (convert dty sty rnd sat (x.g.srcElem sty b 0 l)).2) :=
  writes_alu (f := fun g l => (setElement dty (setElement dty (g.opnd d 1 l) (2 * j) (convert dty sty rnd sat (g.srcElem sty a 0 l)).1)
      (2 * j + 1) (convert dty sty rnd sat (g.srcElem sty b 0 l)).1,
    (convert dty sty rnd sat (g.srcElem sty a 0 l)).2 ||| (convert dty sty rnd sat (g.srcElem sty b 0 l)).2)) fun _ => rfl

theorem writes_unpk : Writes (.unpk h dty sty z d a j) true d 2 z
    (fun _ x l => (widen sty (x.g.srcElem sty a (2 * j) l)).1 + 2 ^ 32 * (widen sty (x.g.srcElem sty a (2 * j + 1) l)).1)
    (fun x l => (widen sty (x.g.srcElem sty a (2 * j) l)).2 ||| (widen sty (x.g.srcElem sty a (2 * j + 1) l)).2) :=
  writes_alu (f := fun g l => ((widen sty (g.srcElem sty a (2 * j) l)).1 + 2 ^ 32 * (widen sty (g.srcElem sty a (2 * j + 1) l)).1,
    (widen sty (g.srcElem sty a (2 * j) l)).2 ||| (widen sty (g.srcElem sty a (2 * j + 1) l)).2)) fun _ => rfl

theorem writes_qpack : Writes (.qpack h dty sty rnd sat z nan d a i) true d 1 z
    (fun _ x l => (qpackBits x.g dty sty rnd sat a i (l / 4) 4 (x.g.opnd d 1 l)).1)
    (fun x l => (qpackBits x.g dty sty rnd sat a i (l / 4) 4 (x.g.opnd d 1 l)).2) :=
  writes_alu (f := fun g l => qpackBits g dty sty rnd sat a i (l / 4) 4 (g.opnd d 1 l)) fun _ => rfl

theorem writes_qunpk : Writes (.qunpk h dty sty z d a i) true d 1 z (fun _ x l => (widen sty (x.g.srcElem sty a (l % 4 + 4 * i) l)).1)
    (fun x l => (widen sty (x.g.srcElem sty a (l % 4 + 4 * i) l)).2) :=
  writes_alu (f := fun g l => widen sty (g.srcElem sty a (l % 4 + 4 * i) l)) fun _ => rfl

end

/-- A narrow element of a register. -/
theorem srcElem_reg (g : Group) (ty : Ty) (k i l : Nat) (hw : ty.width < 32) :
    g.srcElem ty (.v k) i l = (vReg g k l).toNat / 2 ^ (ty.pitch * i) % 2 ^ ty.width ∧
      g.srcElem ty (.s k) i l = (sReg g k).toNat / 2 ^ (ty.pitch * i) % 2 ^ ty.width := by
  constructor
  · simp [Group.srcElem, Nat.not_le.2 hw, Group.opnd, regsAt, element, bits, vReg]
  · simp [Group.srcElem, Nat.not_le.2 hw, Group.opnd, scalarsAt, element, bits, sReg]

/-! ### Into a floating-point format (R91, R92, R166) -/

theorem isFloat_ne_e8m0 {ty : Ty} (hty : ty.isFloat = true) : ty ≠ .e8m0 := by
  rintro rfl
  cases hty

section
variable {dty sty : Ty} {rnd : Rnd} {sat : Bool} {x : Nat} (hd : dty.isFloat = true)
include hd

/-- From a floating-point format. -/
theorem convert_float (hs : sty.isFloat = true) : convert dty sty rnd sat x =
    ((roundTo dty rnd (if sat then .sat else .nan) (fval sty x)).1,
      (roundTo dty rnd (if sat then .sat else .nan) (fval sty x)).2 ||| snanFlag (fval sty x)) := by
  unfold convert
  simp only [if_neg (isFloat_ne_e8m0 hd), if_neg (isFloat_ne_e8m0 hs), hs, hd, if_true]

/-- From an integer. -/
theorem convert_int (hs : sty.isFloat = false) (hne : sty ≠ .e8m0) : convert dty sty rnd sat x =
    roundTo dty rnd (if sat then .sat else .nan) (.fin (decide (intVal sty x < 0)) (intVal sty x).natAbs 0) := by
  unfold convert intToF
  simp only [if_neg (isFloat_ne_e8m0 hd), if_neg hne, hs, hd, if_true, Bool.false_eq_true, if_false]

/-- From a block scale. -/
theorem convert_scale : convert dty .e8m0 rnd sat x = roundTo dty rnd (if sat then .sat else .nan) (e8m0Val x) := by
  unfold convert
  simp only [if_neg (isFloat_ne_e8m0 hd), if_true]

end

theorem snanFlag_fin (n : Bool) (m : Nat) (e : Int) : snanFlag (.fin n m e) = 0 := rfl
theorem snanFlag_inf (n : Bool) : snanFlag (.inf n) = 0 := rfl

theorem flags_or_zero (fl : Flags) : fl ||| (0 : Flags) = fl := BitVec.or_zero

section
variable {dty : Ty} {rnd : Rnd} {sat : Bool} (hovf : sat = true ∨ Ty.ieee dty = true ∨ dty = .e4m3) (hd : dty.isFloat = true)
include hovf

/-- The overflow modifier that a conversion takes. -/
theorem convert_ovf : (if sat then Ovf.sat else .nan) = .sat ∨ Ty.ieee dty = true ∨ dty = .e4m3 :=
  hovf.imp_left fun h => by rw [h, if_pos rfl]

include hd

theorem convert_float_spec {sty : Ty} (hs : sty.isFloat = true) (x : Nat) : match fval sty x with
    | .fin n m e => (m = 0 → convert dty sty rnd sat x = (Ty.signBit dty n, 0)) ∧
        (m ≠ 0 → Rounded dty rnd (if sat then .sat else .nan) n (m * 2 ^ e) (convert dty sty rnd sat x))
    | .inf n => convert dty sty rnd sat x = if sat then (Ty.signBit dty n + Ty.maxCode dty, fSAT)
        else (if dty = .e4m3 then 0x7F else Ty.signBit dty n + (Ty.maxCode dty + 1), 0)
    | .nan s => convert dty sty rnd sat x = (Ty.canonNaN dty, if sat || s then fNV else 0) := by
  rw [convert_float hd hs]
  cases hval : fval sty x with
  | fin n m e =>
    have hflags : ∀ r : Bits, (r.1, r.2 ||| snanFlag (.fin n m e)) = r := fun r => by
      rw [snanFlag_fin, flags_or_zero]
    dsimp only
    rw [hflags]
    refine ⟨fun hm => ?_, fun hm => rounded_roundTo hd (convert_ovf hovf) hm e⟩
    rw [hm, roundTo_zero]
  | inf n =>
    dsimp only
    rw [snanFlag_inf, flags_or_zero]
    cases sat with
    | true => rfl
    | false =>
      rcases hovf with h | h | rfl
      · cases h
      · have hne : dty ≠ .e4m3 := by
          rintro rfl
          cases h
        simp [roundTo, h, hne]
      · rfl
  | nan s =>
    dsimp only
    cases sat <;> cases s <;> simp [roundTo, snanFlag]

theorem convert_int_spec {sty : Ty} (hs : sty.isFloat = false) (hne : sty ≠ .e8m0) (x : Nat) :
    (intVal sty x = 0 → convert dty sty rnd sat x = (0, 0)) ∧ (intVal sty x ≠ 0 →
      Rounded dty rnd (if sat then .sat else .nan) (decide (intVal sty x < 0)) |(intVal sty x : ℝ)| (convert dty sty rnd sat x)) := by
  rw [convert_int hd hs hne]
  refine ⟨fun h => ?_, fun h => ?_⟩
  · rw [h, Int.natAbs_zero, roundTo_zero]
    rfl
  · have hround := rounded_roundTo hd (rnd := rnd) (neg := decide (intVal sty x < 0)) (convert_ovf hovf) (Int.natAbs_ne_zero.2 h) 0
    rwa [zpow_zero, mul_one, Nat.cast_natAbs, Int.cast_abs] at hround

theorem convert_scale_spec (x : Nat) :
    (x % 256 ≠ 255 → Rounded dty rnd (if sat then .sat else .nan) false (2 ^ ((x % 256 : Nat) - 127 : Int)) (convert dty .e8m0 rnd sat x)) ∧
      (x % 256 = 255 → convert dty .e8m0 rnd sat x = (Ty.canonNaN dty, if sat then fNV else 0)) := by
  rw [convert_scale hd, e8m0Val]
  refine ⟨fun h => ?_, fun h => ?_⟩
  · have hround := rounded_roundTo hd (rnd := rnd) (neg := false) (convert_ovf hovf) one_ne_zero ((x % 256 : Nat) - 127 : Int)
    rw [if_neg h]
    rwa [Nat.cast_one, one_mul] at hround
  · rw [if_pos h]
    cases sat <;> simp [roundTo]

end

/-! ### Into an integer (R92, R166) -/

/-- The power of two at or below a magnitude, in binary digits. -/
theorem two_pow_log2 {m : Nat} (hm : m ≠ 0) (e : Int) :
    (2 : ℚ) ^ ((Nat.log2 m : Int) + e) ≤ m * 2 ^ e ∧ (m : ℚ) * 2 ^ e < 2 ^ ((Nat.log2 m : Int) + e + 1) ∧
      (m = 2 ^ Nat.log2 m ↔ (m : ℚ) * 2 ^ e = 2 ^ ((Nat.log2 m : Int) + e)) := by
  have he := zpow_pos (two_pos (α := ℚ)) e
  have hlow : ((2 ^ Nat.log2 m : Nat) : ℚ) ≤ m := by exact_mod_cast Nat.log2_self_le hm
  have hhigh : (m : ℚ) < (2 ^ (Nat.log2 m + 1) : Nat) := by exact_mod_cast Nat.lt_log2_self
  push_cast at hlow hhigh
  rw [show (Nat.log2 m : Int) + e + 1 = ((Nat.log2 m + 1 : Nat) : Int) + e by push_cast; ring, zpow_add₀ two_ne_zero, zpow_add₀ two_ne_zero,
    zpow_natCast, zpow_natCast]
  refine ⟨mul_le_mul_of_nonneg_right hlow he.le, mul_lt_mul_of_pos_right hhigh he, ?_⟩
  rw [mul_left_inj' he.ne']
  exact_mod_cast Iff.rfl

/-- The integer of a sign and a magnitude. -/
def signed (n : Bool) (j : Nat) : Int := if n then -(j : Int) else j

/-- A magnitude beyond 2^64 is cut to an integer beyond it. -/
theorem two_pow_le_of_nearestInt {rnd : Rnd} {n : Bool} {m j : Nat} {e : Int} (hnear : NearestInt rnd n (m * 2 ^ e) j) (hm : m ≠ 0)
    (hlarge : 64 ≤ (Nat.log2 m : Int) + e) : 2 ^ 64 ≤ j := by
  have hlow : ((2 ^ 64 : Nat) : ℚ) ≤ m * 2 ^ e := by
    refine le_trans ?_ (two_pow_log2 hm e).1
    rw [Nat.cast_pow, Nat.cast_two, ← zpow_natCast]
    exact zpow_le_zpow_right₀ one_le_two hlarge
  unfold NearestInt at hnear
  split at hnear
  next =>
    by_contra hj
    obtain ⟨hle, -⟩ := hnear (2 ^ 64)
    have hj' : (j : ℚ) < (2 ^ 64 : Nat) := by exact_mod_cast not_le.1 hj
    rw [abs_of_nonneg (by linarith), abs_of_nonneg (by linarith)] at hle
    linarith
  next =>
    split at hnear
    next => exact_mod_cast hlow.trans hnear.1
    next => exact hnear.2 _ hlow

theorem isUS_facts {ty : Ty} (h : ty.isUS = true) : ty.isFloat = false ∧ ty ≠ .e8m0 := by
  revert h
  cases ty <;> decide

/-- The range of an integer type. -/
theorem intRange {ty : Ty} (h : ty.isUS = true) : intMin ty ≤ 0 ∧ 0 ≤ intMax ty ∧ -2 ^ 64 < intMin ty ∧ intMax ty < 2 ^ 64 := by
  revert h
  cases ty <;> decide

section
variable {dty sty : Ty} {rnd : Rnd} {sat : Bool} {x : Nat} (hd : dty.isUS = true)
include hd

theorem convert_toInt (hs : sty.isFloat = true) : convert dty sty rnd sat x = fToInt dty rnd (fval sty x) := by
  obtain ⟨hfloat, hne⟩ := isUS_facts hd
  unfold convert
  simp only [if_neg hne, if_neg (isFloat_ne_e8m0 hs), hs, hfloat, if_true, Bool.false_eq_true, if_false]

theorem convert_intToInt (hs : sty.isUS = true) : convert dty sty rnd sat x = putInt dty sat (intVal sty x) := by
  obtain ⟨hfloat, hne⟩ := isUS_facts hd
  obtain ⟨hfloat', hne'⟩ := isUS_facts hs
  unfold convert
  simp only [if_neg hne, if_neg hne', hfloat, hfloat', Bool.false_eq_true, if_false]

/-- What a finite value becomes, by the integer that it is cut to. -/
theorem fToInt_fin (n : Bool) (m : Nat) (e : Int) : ∃ j, NearestInt rnd n (m * 2 ^ e) j ∧
    (intMin dty ≤ signed n j → signed n j ≤ intMax dty →
      fToInt dty rnd (.fin n m e) = (wrap dty.width (signed n j), if (j : ℚ) = m * 2 ^ e then 0 else fNX)) ∧
    (signed n j < intMin dty ∨ intMax dty < signed n j →
      fToInt dty rnd (.fin n m e) = (wrap dty.width (if n then intMin dty else intMax dty), fNV)) := by
  obtain ⟨hnear, hinexact⟩ := shiftRound_nearestInt rnd n m e
  obtain ⟨hmin, hmax, hmin64, hmax64⟩ := intRange hd
  refine ⟨(shiftRound rnd n m (-e)).1, hnear, ?_⟩
  by_cases hlarge : m ≠ 0 ∧ (Nat.log2 m : Int) + e > 64
  · have hout : fToInt dty rnd (.fin n m e) = (wrap dty.width (if n then intMin dty else intMax dty), fNV) := if_pos hlarge
    have hj := two_pow_le_of_nearestInt hnear hlarge.1 (by omega)
    refine ⟨fun h1 h2 => ?_, fun _ => hout⟩
    unfold signed at h1 h2
    cases n
    · simp only [Bool.false_eq_true, if_false] at h2
      omega
    · simp only [if_true] at h1
      omega
  · have hout : fToInt dty rnd (.fin n m e) =
        if signed n (shiftRound rnd n m (-e)).1 < intMin dty then (wrap dty.width (intMin dty), fNV)
        else if signed n (shiftRound rnd n m (-e)).1 > intMax dty then (wrap dty.width (intMax dty), fNV)
        else (wrap dty.width (signed n (shiftRound rnd n m (-e)).1), if (shiftRound rnd n m (-e)).2 then fNX else 0) := if_neg hlarge
    rw [hout]
    generalize hj : (shiftRound rnd n m (-e)).1 = j at *
    refine ⟨fun h1 h2 => ?_, fun h => ?_⟩
    · rw [if_neg (not_lt.2 h1), if_neg (not_lt.2 h2)]
      congr 1
      by_cases heq : (j : ℚ) = m * 2 ^ e
      · rw [if_pos heq, if_neg fun h => hinexact.1 h heq]
      · rw [if_neg heq, if_pos (hinexact.2 heq)]
    · unfold signed at h ⊢
      cases n
      · simp only [Bool.false_eq_true, if_false] at h ⊢
        rw [if_neg (by omega), if_pos (by omega)]
      · simp only [if_true] at h ⊢
        rw [if_pos (by omega)]

theorem putInt_spec (v : Int) :
    (sat = true → v < intMin dty ∨ intMax dty < v →
      putInt dty sat v = (wrap dty.width (if decide (v < 0) then intMin dty else intMax dty), fSAT)) ∧
    (sat = false ∨ intMin dty ≤ v ∧ v ≤ intMax dty → putInt dty sat v = (wrap dty.width v, 0)) := by
  obtain ⟨hmin, hmax, -, -⟩ := intRange hd
  rw [putInt_eq]
  refine ⟨fun hsat hout => ?_, fun hin => ?_⟩
  · rw [if_pos hsat, if_pos ⟨hsat, hout⟩]
    congr 2
    by_cases hneg : v < 0
    · rw [if_pos (decide_eq_true hneg)]
      omega
    · rw [if_neg (by simpa using hneg)]
      omega
  · have hflag : ¬ (sat = true ∧ (v < intMin dty ∨ intMax dty < v)) := by
      rintro ⟨hsat, hout⟩
      rcases hin with h | h
      · rw [h] at hsat
        cases hsat
      · omega
    rw [if_neg hflag]
    congr 2
    rcases hin with h | h
    · rw [h, if_neg Bool.false_ne_true]
    · split
      · omega
      · rfl

end

/-! ### Into a block scale (R167) -/

/-- The code of a block scale, held within its range (Table 10-7). -/
def scaleCode (x : Int) : Bits := if x < 0 then (0, fSAT) else if x > 254 then (254, fSAT) else (x.toNat, 0)

/-- The exponent of a block scale is the one at or below the magnitude, or under .rp the one at or above it. -/
theorem toE8m0_fin (rnd : Rnd) (n : Bool) {m : Nat} (hm : m ≠ 0) (e : Int) : ∃ k : Int,
    (if rnd = .rp then (2 : ℚ) ^ (k - 1) < m * 2 ^ e ∧ (m : ℚ) * 2 ^ e ≤ 2 ^ k else (2 : ℚ) ^ k ≤ m * 2 ^ e ∧ (m : ℚ) * 2 ^ e < 2 ^ (k + 1)) ∧
      toE8m0 rnd (.fin n m e) = if k + 127 < 0 then (0, fSAT) else if 254 < k + 127 then (254, fSAT) else ((k + 127).toNat, 0) := by
  obtain ⟨hlow, hhigh, hpow⟩ := two_pow_log2 hm e
  have hout : toE8m0 rnd (.fin n m e) =
      scaleCode ((Nat.log2 m : Int) + e + 127 + (if (decide (rnd = .rp) && m != 2 ^ Nat.log2 m) = true then 1 else 0)) := if_neg hm
  rw [hout]
  by_cases hup : (decide (rnd = .rp) && m != 2 ^ Nat.log2 m) = true
  · obtain ⟨hrp, hinexact⟩ : rnd = .rp ∧ m ≠ 2 ^ Nat.log2 m := by simpa using hup
    refine ⟨(Nat.log2 m : Int) + e + 1, ?_, ?_⟩
    · rw [if_pos hrp, add_sub_cancel_right]
      exact ⟨lt_of_le_of_ne hlow fun h => hinexact (hpow.2 h.symm), hhigh.le⟩
    · rw [if_pos hup, show (Nat.log2 m : Int) + e + 127 + 1 = (Nat.log2 m : Int) + e + 1 + 127 by ring]
      rfl
  · refine ⟨(Nat.log2 m : Int) + e, ?_, ?_⟩
    · by_cases hrp : rnd = .rp
      · have hexact : m = 2 ^ Nat.log2 m := by simpa [hrp] using hup
        rw [if_pos hrp, hpow.1 hexact]
        exact ⟨zpow_lt_zpow_right₀ one_lt_two (by omega), le_rfl⟩
      · rw [if_neg hrp]
        exact ⟨hlow, hhigh⟩
    · rw [if_neg hup, add_zero]
      rfl

/-! ### The exact widening (R168) -/

/-- A format narrower than FP64 is a part of FP32. -/
theorem narrow_facts {ty : Ty} (hty : ty.isFloat = true) (hne : ty ≠ .f64) :
    binade ty ≤ binade .f32 ∧ Ty.emin .f32 - Ty.mant .f32 ≤ Ty.emin ty - Ty.mant ty ∧ Ty.emax ty ≤ Ty.emax .f32 ∧
      Ty.emin ty - Ty.mant ty ≤ 0 := by
  revert hty hne
  cases ty <;> decide

theorem widen_fin {sty : Ty} (hs : sty.isFloat = true) (hne : sty ≠ .f64) {x m : Nat} {n : Bool} {e : Int} (hx : fval sty x = .fin n m e) :
    (widen sty x).2 = 0 ∧ ∃ m' e', fval .f32 (widen sty x).1 = .fin n m' e' ∧ (m' : ℚ) * 2 ^ e' = m * 2 ^ e := by
  have hwiden : widen sty x = convert .f32 sty .rn false x := if_pos hs
  have hspec := convert_float_spec (dty := .f32) (rnd := .rn) (sat := false) (.inr (.inl rfl)) rfl hs x
  rw [hx] at hspec
  obtain ⟨hzero, hround⟩ := hspec
  obtain ⟨-, hm, hlow, hhigh⟩ := fval_fin_bounds hs hx
  obtain ⟨hbin, hmin, hmax, -⟩ := narrow_facts hs hne
  rw [hwiden]
  have hcode : ∃ c, c ≤ Ty.maxCode .f32 ∧ convert .f32 sty .rn false x = (Ty.signBit .f32 n + c, 0) ∧ gridMag .f32 c = m * 2 ^ e := by
    by_cases hm0 : m = 0
    · refine ⟨0, Nat.zero_le _, hzero hm0, ?_⟩
      rw [hm0, gridMag, if_pos (binade_pos _)]
      simp
    · have hlog : Nat.log2 m ≤ Ty.mant sty := by
        rw [Nat.log2_eq_log_two]
        refine Nat.lt_succ_iff.1 (Nat.log_lt_of_lt_pow hm0 ?_)
        rw [pow_succ, mul_comm]
        exact hm
      obtain ⟨c, hc, hmag⟩ := exists_code (ty := .f32) rfl hm0 (by omega) (hmin.trans hlow) (e := e) (by omega)
      have hr := hround hm0
      rw [← hmag] at hr
      exact ⟨c, hc, rounded_of_code rfl hc hr, hmag⟩
  obtain ⟨c, hc, hout, hmag⟩ := hcode
  obtain ⟨m', e', hval, hmag'⟩ := fval_signBit_add_fin (ty := .f32) rfl n hc
  rw [hout]
  refine ⟨rfl, m', e', hval, ?_⟩
  have hreal : (((m' : ℚ) * 2 ^ e' : ℚ) : ℝ) = ((m * 2 ^ e : ℚ) : ℝ) := by
    push_cast
    exact hmag'.trans hmag
  exact Rat.cast_injective hreal

/-- Settles O12: each instruction by its elements, each conversion by the kinds of its two types. -/
theorem conversions : Obligations.Conversions := by
  unfold Obligations.Conversions
  refine ⟨fun h dty sty rnd sat z nan d a b i j => ⟨writes_cvt h dty sty rnd sat z nan d a i j, writes_pack h dty sty rnd sat z nan d a b j,
      writes_unpk h dty sty z d a j, writes_qpack h dty sty rnd sat z nan d a i, writes_qunpk h dty sty z d a i⟩,
    fun ty r i j e hw => el_get ty r i j e hw, fun g ty k i l hw => srcElem_reg g ty k i l hw,
    fun dty sty rnd sat x hd hovf => ⟨fun hs => convert_float_spec hovf hd hs x, fun hs hne => convert_int_spec hovf hd hs hne x, ?_⟩,
    fun dty sty rnd sat x hd => ?_, fun sty rnd x hs => ?_, fun sty x => ?_⟩
  · rintro rfl
    exact convert_scale_spec hovf hd x
  · refine ⟨fun hs => ?_, fun hs => ?_⟩
    · rw [convert_toInt hd hs]
      cases fval sty x with
      | nan s => rfl
      | inf n => rfl
      | fin n m e => exact fToInt_fin hd n m e
    · rw [convert_intToInt hd hs]
      exact putInt_spec hd _
  · have hscale : convert .e8m0 sty rnd true x = toE8m0 rnd (fval sty x) := by
      unfold convert
      simp only [if_true]
    rw [hscale]
    cases fval sty x with
    | nan s => rfl
    | inf n => rfl
    | fin n m e => exact ⟨fun hm => if_pos hm, fun hm => toE8m0_fin rnd n hm e⟩
  · refine ⟨fun hs => if_neg (by rw [(isUS_facts hs).1]; exact Bool.false_ne_true), fun hs hne => ?_⟩
    have hwiden : widen sty x = convert .f32 sty .rn false x := if_pos hs
    have hspec := convert_float_spec (dty := .f32) (rnd := .rn) (sat := false) (.inr (.inl rfl)) rfl hs x
    cases hx : fval sty x with
    | nan s =>
      rw [hx] at hspec
      rw [hwiden]
      exact hspec
    | inf n =>
      rw [hx] at hspec
      rw [hwiden]
      exact hspec
    | fin n m e => exact widen_fin hs hne hx

end Sys2Proof.Machine
end

section
/-! The proof of `Obligations.DotProducts` (R98, R170, R171). -/

namespace Sys2Proof.Machine

/-! ### DOT4 and DOT8 (R170) -/

theorem dotSum_eq (ty : Ty) (a b n : Nat) :
    dotSum ty a b n = ∑ i ∈ Finset.range n, intVal ty (element ty a i) * intVal ty (element ty b i) := by
  induction n with
  | zero => rfl
  | succ n ih => rw [dotSum, ih, Finset.sum_range_succ, add_comm]

/-! ### The block products of DOTS (R171) -/

section
variable {ty : Ty} {a b : Nat}

/-- The products of the low `n` elements, none of them infinite. -/
theorem dotTerms_finite {n : Nat}
    (hfin : ∀ i, i < n → (∃ s m e, fval ty (element ty a i) = .fin s m e) ∧ ∃ s m e, fval ty (element ty b i) = .fin s m e) :
    (∀ x ∈ (dotTerms ty a b n).map (·.1), ∃ s m e, x = FVal.fin s m e) ∧
      (((dotTerms ty a b n).map (·.1)).map ratOf).sum =
        ∑ i ∈ Finset.range n, ratOf (fval ty (element ty a i)) * ratOf (fval ty (element ty b i)) := by
  induction n with
  | zero => exact ⟨fun x hx => absurd hx List.not_mem_nil, rfl⟩
  | succ n ih =>
    obtain ⟨hterms, hsum⟩ := ih fun i hi => hfin i (Nat.lt_succ_of_lt hi)
    obtain ⟨⟨s, m, e, ha⟩, s', m', e', hb⟩ := hfin n (Nat.lt_succ_self n)
    obtain ⟨hmul, hrat⟩ := fmul_rat s s' m m' e e'
    have hlist : (dotTerms ty a b (n + 1)).map (·.1) = (dotTerms ty a b n).map (·.1) ++ [.fin (s != s') (m * m') (e + e')] := by
      rw [dotTerms, ha, hb, hmul, List.map_append]
      rfl
    rw [hlist, List.map_append, List.sum_append, hsum, Finset.sum_range_succ, ha, hb]
    refine ⟨fun x hx => ?_, ?_⟩
    · rcases List.mem_append.1 hx with hx | hx
      · exact hterms x hx
      · exact ⟨_, _, _, List.mem_singleton.1 hx⟩
    · simp only [List.map_cons, List.map_nil, List.sum_singleton, hrat]

/-- A NaN element makes its product a NaN. -/
theorem exists_nan_dotTerms {n i : Nat} (hi : i < n)
    (hnan : (fval ty (element ty a i)).isNaN = true ∨ (fval ty (element ty b i)).isNaN = true) :
    ((dotTerms ty a b n).map (·.1)).any FVal.isNaN = true := by
  induction n with
  | zero => exact absurd hi (Nat.not_lt_zero i)
  | succ n ih =>
    rw [dotTerms, List.map_append, List.any_append, Bool.or_eq_true]
    rcases Nat.lt_succ_iff_lt_or_eq.1 hi with hlt | rfl
    · exact .inl (ih hlt)
    · refine .inr ?_
      simp only [List.map_cons, List.map_nil, List.any_cons, List.any_nil, Bool.or_false, (fmulV_nan hnan).1]
      rfl

end

/-- A NaN among the terms makes the sum a NaN. -/
theorem fsumV_isNaN {rnd : Rnd} {xs : List FVal} (h : xs.any FVal.isNaN = true) : (fsumV rnd xs).1.isNaN = true := by
  unfold fsumV
  rw [if_pos h]
  rfl

theorem dotsBits_nan {ty : Ty} {a b ea eb acc : Nat}
    (h : ea = 0xFF ∨ eb = 0xFF ∨ (fsumV .rn ((dotTerms ty a b ty.perReg).map (·.1))).1.isNaN = true) :
    dotsBits ty a b ea eb acc = (0x7FC00000, fNV) := by
  unfold dotsBits
  dsimp only
  rw [if_pos (by simpa [or_assoc] using h)]
  rfl

/-- A scaled value. -/
theorem ratOf_scale (n : Bool) (m : Nat) (e k : Int) : ratOf ((FVal.fin n m e).scale k) = ratOf (.fin n m e) * 2 ^ k := by
  simp only [FVal.scale, ratOf]
  rw [zpow_add₀ two_ne_zero]
  ring

/-- With numbers for elements and scales, the block adds its scaled exact sum to the accumulator. -/
theorem dotsBits_finite {ty : Ty} {a b ea eb acc : Nat} (hea : ea ≠ 0xFF) (heb : eb ≠ 0xFF)
    (hfin : ∀ i, i < ty.perReg → (∃ s m e, fval ty (element ty a i) = .fin s m e) ∧ ∃ s m e, fval ty (element ty b i) = .fin s m e) :
    ∃ n m e, dotsBits ty a b ea eb acc = fresult .f32 .rn false (fsumV .rn [fval .f32 acc, .fin n m e]) ∧
      ratOf (.fin n m e) = (∑ i ∈ Finset.range ty.perReg, ratOf (fval ty (element ty a i)) * ratOf (fval ty (element ty b i))) *
        2 ^ ((ea : Int) - 127 + ((eb : Int) - 127)) := by
  obtain ⟨hterms, hrat⟩ := dotTerms_finite hfin
  obtain ⟨n, m, e, hsum, hsumRat, -⟩ := fsumV_finite .rn hterms
  refine ⟨n, m, e + ((ea : Int) - 127 + ((eb : Int) - 127)), ?_, ?_⟩
  · unfold dotsBits
    dsimp only
    rw [hsum, if_neg (by simp [hea, heb, FVal.isNaN])]
    rfl
  · rw [← hrat, ← hsumRat]
    exact ratOf_scale n m e _

/-- Settles O13: the integer dot products from their sums, the scaled ones from the exact sum of their terms. -/
theorem dotProducts : Obligations.DotProducts := by
  unfold Obligations.DotProducts
  refine ⟨fun h ty sat z d a b c sa sb => ⟨?_, ?_, ?_⟩, dotSum_eq, fun ty a b ea eb acc hty => ⟨fun hnan => dotsBits_nan ?_, fun hea heb hfin => ?_⟩⟩
  · have hdot := writes_alu (i := .dot4 h ty sat z d a b c) (d := d) (w := 1) (z := z)
      (f := fun g l => dotBits ty sat (g.opnd a 1 l) (g.opnd b 1 l) (g.opnd c 1 l)) fun _ => rfl
    simpa only [dotBits_eq] using hdot
  · have hdot := writes_alu (i := .dot8 h ty sat z d a b c) (d := d) (w := 1) (z := z)
      (f := fun g l => dotBits ty sat (g.opnd a 1 l) (g.opnd b 1 l) (g.opnd c 1 l)) fun _ => rfl
    simpa only [dotBits_eq] using hdot
  · exact writes_alu (f := fun g l => dotsBits ty (g.opnd a 1 l) (g.opnd b 1 l) (bits (g.opnd c 1 (scaleLane ty l)) (8 * sa) 8)
      (bits (g.opnd c 1 (scaleLane ty l)) (8 * sb) 8) (g.opnd d 1 l)) fun _ => rfl
  · rcases hnan with h | h | ⟨i, hi, h⟩
    · exact .inl h
    · exact .inr (.inl h)
    · exact .inr (.inr (fsumV_isNaN (exists_nan_dotTerms hi h)))
  · obtain ⟨n, m, e, hdots, hrat⟩ := dotsBits_finite (acc := acc) hea heb hfin
    simp only [hdots]
    refine ⟨fun n' m' e' hacc => ?_, fun n' hacc => ?_, fun q hacc => ?_⟩
    · have hround := roundsTo_sum (.inl rfl : Ty.f32 = .f32 ∨ Ty.f32 = .f64) .rn false n' n m' m e' e
      rw [hrat] at hround
      rw [hacc]
      obtain ⟨hzero, hnonzero⟩ := hround
      refine ⟨fun hw => ?_, fun neg v hv hw => ?_⟩
      · rw [hzero hw]
        refine ⟨?_, rfl⟩
        generalize (if n' = n then n' else decide (Rnd.rn = Rnd.rm)) = s
        cases s
        · exact .inl rfl
        · exact .inr rfl
      · obtain ⟨r, hr, heq⟩ := hnonzero neg v hv hw
        rw [if_neg (by simp)] at heq
        rwa [heq]
    · rw [hacc, (fsumV_inf_fin .rn n' n m e).1, fresult_inf (.inl rfl)]
      rfl
    · rw [hacc]
      have hsum : fsumV .rn [.nan q, .fin n m e] = (.nan false, if q then fNV else 0) := by
        cases q <;> simp [fsumV, FVal.isNaN]
      rw [hsum, fresult_nan (.inl rfl)]
      rfl

end Sys2Proof.Machine
end

section
/-! The proof of `Obligations.ExchangesAndIndexes` (R133, R185, R187, R217, Table 11-6). -/

namespace Sys2Proof.Machine

/-! ### WRLANE (R185) -/

/-- A group as WRLANE writes it: register `r` of lane `k`, from the value `v`. -/
def wroteLane (x : Issue) (d : Opnd) (w k v : Nat) : Group :=
  if x.act = 0 then x.g else x.g.writeD { x with act := laneBit k } d w false (fun _ => v)

theorem laneBit_ne_zero {k : Nat} (hk : k < 32) : laneBit k ≠ 0 := by
  intro h0
  have hbit := laneBit_bit k k hk
  rw [h0] at hbit
  simp at hbit

section
variable {x : Issue} {k : Nat} (w v : Nat)

theorem wroteLane_lanes (d : Opnd) : (wroteLane x d w k v).lanes = x.g.lanes := by
  unfold wroteLane
  split
  · rfl
  · exact writeD_lanes ..

theorem vReg_wroteLane (hk : k < 32) (d : Opnd) (j l : Nat) (hl : l < 32) : vReg (wroteLane x d w k v) j l = match d with
    | .v r => if x.act ≠ 0 ∧ r ≤ j ∧ j < r + w ∧ l = k then wordOf v (j - r) else vReg x.g j l
    | _ => vReg x.g j l := by
  unfold wroteLane
  split
  case isTrue h0 => cases d <;> simp [h0]
  case isFalse h0 =>
    have hw := vReg_writeD { x with act := laneBit k } d w false (fun _ => v) j l hl
    refine hw.trans ?_
    cases d <;> simp only [vAfter]
    case v r =>
      simp only [laneBit_bit k l hk, laneBit_ne_zero hk, h0, ne_eq, not_false_eq_true, true_and, decide_eq_true_eq]
      by_cases hlk : l = k <;> simp [hlk]

theorem poison_wroteLane (hk : k < 32) (r key : Nat) :
    ((x.act ≠ 0 ∧ ∃ j, j < w ∧ key = 32 * (r + j) + k) → mfind (wroteLane x (.v r) w k v).poison key = none) ∧
    ((x.act = 0 ∨ ∀ j, j < w → key ≠ 32 * (r + j) + k) → mfind (wroteLane x (.v r) w k v).poison key = mfind x.g.poison key) := by
  unfold wroteLane
  split
  case isTrue h0 => simp [h0]
  case isFalse h0 =>
    have hcleared : Cleared { x with act := laneBit k } (.v r) w false key ↔ ∃ j, j < w ∧ key = 32 * (r + j) + k := by
      simp only [Cleared, laneBit_ne_zero hk, laneBit_bit k _ hk, ne_eq, not_false_eq_true, true_and, decide_eq_true_eq, Bool.false_eq_true,
        or_false]
      constructor
      · rintro ⟨j, _, hj, -, hkey, rfl⟩
        exact ⟨j, hj, hkey⟩
      · rintro ⟨j, hj, hkey⟩
        exact ⟨j, k, hj, hk, hkey, rfl⟩
    obtain ⟨hnone, hsame⟩ := poison_writeD { x with act := laneBit k } (.v r) w false (fun _ => v) key
    rw [hcleared] at hnone hsame
    refine ⟨fun ⟨_, h⟩ => hnone h, fun h => hsame ?_⟩
    rintro ⟨j, hj, hkey⟩
    rcases h with h | h
    · exact h0 h
    · exact h j hj hkey

theorem wroteLane_rest (r : Nat) :
    { (wroteLane x (.v r) w k v).advance x.run with v := x.g.v, poison := x.g.poison, lanes := x.g.lanes } = x.g := by
  unfold wroteLane
  split
  · rfl
  · unfold Group.writeD
    split <;> rfl

end

/-! ### XGET and XPUT (R133) -/

theorem mem_xPoison (x : Issue) (a b : Opnd) (l : Nat) : l ∈ xPoison x a b ↔
    x.act.getLsbD l = true ∧ x.run.getLsbD l = true ∧ mfind x.g.poison (32 * xIdx x a b l + l) ≠ none := by
  unfold xPoison
  split
  case isTrue he => simp [List.isEmpty_iff.1 he]
  case isFalse => simp [List.mem_filter, mem_lanesOf, Option.isSome_iff_ne_none, and_assoc]

/-- One lane's write of XPUT: register `k` of lane `l`, which loses its poison. -/
def putIndexed (nregs k l v : Nat) (g : Group) : Group :=
  if k < nregs then
    { g with v := putRegs g.v k l 1 v, poison := if g.poison.isEmpty then g.poison else mdel g.poison (32 * k + l) }
  else g

theorem mfind_poison_putIndexed (nregs k l v key : Nat) (g : Group) : mfind (putIndexed nregs k l v g).poison key =
    if key = 32 * k + l ∧ k < nregs then none else mfind g.poison key := by
  unfold putIndexed
  by_cases hk : k < nregs
  · rw [if_pos hk]
    by_cases he : g.poison = []
    · simp only [he, List.isEmpty_nil, if_true, mfind_nil, ite_self]
    · simp [he, mfind_mdel, hk, @eq_comm _ key]
  · simp [hk]

theorem mfind_poison_putLanes (nregs : Nat) (idx v : Nat → Nat) (key : Nat) (ls : List Nat) (g : Group) :
    ((∃ l ∈ ls, key = 32 * idx l + l ∧ idx l < nregs) →
      mfind (ls.foldl (fun g l => putIndexed nregs (idx l) l (v l) g) g).poison key = none) ∧
    ((∀ l ∈ ls, key = 32 * idx l + l → ¬ idx l < nregs) →
      mfind (ls.foldl (fun g l => putIndexed nregs (idx l) l (v l) g) g).poison key = mfind g.poison key) := by
  induction ls generalizing g with
  | nil => simp
  | cons k ks ih =>
    obtain ⟨hnone, hsame⟩ := ih (putIndexed nregs (idx k) k (v k) g)
    rw [mfind_poison_putIndexed] at hsame
    rw [List.foldl_cons]
    by_cases hks : ∃ l ∈ ks, key = 32 * idx l + l ∧ idx l < nregs
    · refine ⟨fun _ => hnone hks, fun h => ?_⟩
      obtain ⟨l, hl, hkey, hlt⟩ := hks
      exact absurd hlt (h l (List.mem_cons_of_mem k hl) hkey)
    · replace hsame := hsame fun l hl hkey hlt => hks ⟨l, hl, hkey, hlt⟩
      rw [hsame]
      constructor
      · rintro ⟨l, hl, hkey⟩
        rcases List.mem_cons.1 hl with rfl | hl
        · exact if_pos hkey
        · exact absurd ⟨l, hl, hkey⟩ hks
      · exact fun h => if_neg fun ⟨hkey, hlt⟩ => h k List.mem_cons_self hkey hlt

section
variable {h : Hdr} {a b c d : Opnd} {s : State} {x : Issue}

/-- XGET where every index lies in the window and no register that it names is poisoned. -/
theorem exec_xget_inside (hgo : s.issueOf (.xget h d a b) true = .go x) (hbad : xBad x a b = [])
    (hpoison : xPoison x a b = []) : exec (.xget h d a b) s = .next (x.done s (fun g => g.writeD x d 1 false (fun l =>
      if xIdx x a b l < x.g.nregs then (vReg x.g (xIdx x a b l) l).toNat else 0))) := by
  have hexec : exec (.xget h d a b) s = execXget h d a b s := rfl
  rw [hexec, execXget, laneInstr_go _ hgo]
  simp only [hbad, hpoison, regsAt, vReg, Nat.mul_zero, Nat.add_zero]

theorem exec_xget_poisoned {l : Nat} {ls : List Nat} (hgo : s.issueOf (.xget h d a b) true = .go x) (hbad : xBad x a b = [])
    (hpoison : xPoison x a b = l :: ls) : ∃ q : Poison, exec (.xget h d a b) s =
      .next (s.queueTrap x.gid (x.trap s 0x16 (maskOf (l :: ls)) (maskOf (l :: ls)) q.addr 0 q.code)) := by
  have hexec : exec (.xget h d a b) s = execXget h d a b s := rfl
  refine ⟨mget ⟨0, 3⟩ x.g.poison (32 * xIdx x a b l + l), ?_⟩
  rw [hexec, execXget, laneInstr_go _ hgo]
  simp only [hbad, hpoison]

theorem exec_xget_outside {l : Nat} {ls : List Nat} (hgo : s.issueOf (.xget h d a b) true = .go x) (hbad : xBad x a b = l :: ls) :
    exec (.xget h d a b) s = .next (xTrap x a b l s) := by
  have hexec : exec (.xget h d a b) s = execXget h d a b s := rfl
  rw [hexec, execXget, laneInstr_go _ hgo]
  simp only [hbad]

theorem exec_xput_inside (hgo : s.issueOf (.xput h a b c) true = .go x) (hbad : xBad x a b = []) : exec (.xput h a b c) s =
    .next (x.done s (fun g => (lanesOf x.act).foldl
      (fun g l => putIndexed x.g.nregs (xIdx x a b l) l (x.g.opnd c 1 l) g) g)) := by
  have hexec : exec (.xput h a b c) s = execXput h a b c s := rfl
  rw [hexec, execXput, laneInstr_go _ hgo]
  simp only [hbad]
  rfl

theorem exec_xput_outside {l : Nat} {ls : List Nat} (hgo : s.issueOf (.xput h a b c) true = .go x) (hbad : xBad x a b = l :: ls) :
    exec (.xput h a b c) s = .next (xTrap x a b l s) := by
  have hexec : exec (.xput h a b c) s = execXput h a b c s := rfl
  rw [hexec, execXput, laneInstr_go _ hgo]
  simp only [hbad]

end

/-- Settles O14: each exchange writes what it reads of the registers at issue; an indexed access follows the lanes whose index lies beyond
the window, then those whose register is poisoned. -/
theorem exchangesAndIndexes : Obligations.ExchangesAndIndexes := by
  unfold Obligations.ExchangesAndIndexes
  refine ⟨fun h ty z d a b k => ⟨?abs, ?rot, ?xor, ?x1, ?x2, ?x3, ?qbcst, ?rdlane, fun s x hx => ?wrlane⟩,
    fun h d a b c s x => ⟨fun hx hin hclean => ?xget, fun hx hin => ?xput, fun hx hin hpois => ?poisoned, fun l hl ha hr hout hfirst => ?outside⟩⟩
  case abs => exact writes_alu0 (f := fun g l => g.opnd a ty.regs (lxchFrom .abs l (g.opnd b 1 l))) fun _ => rfl
  case rot => exact writes_alu0 (f := fun g l => g.opnd a ty.regs (lxchFrom .rot l (g.opnd b 1 l))) fun _ => rfl
  case xor => exact writes_alu0 (f := fun g l => g.opnd a ty.regs (lxchFrom .xor l (g.opnd b 1 l))) fun _ => rfl
  case x1 => exact writes_alu0 (f := fun g l => g.opnd a ty.regs (l ^^^ 1)) fun _ => rfl
  case x2 => exact writes_alu0 (f := fun g l => g.opnd a ty.regs (l ^^^ 2)) fun _ => rfl
  case x3 => exact writes_alu0 (f := fun g l => g.opnd a ty.regs (l ^^^ 3)) fun _ => rfl
  case qbcst => exact writes_alu0 (f := fun g l => g.opnd a ty.regs (4 * (l / 4) + k)) fun _ => rfl
  case rdlane => exact writes_alu0 (f := fun g l => g.opnd a ty.regs (laneOf (g.opnd b 1 l))) fun _ => rfl
  case wrlane =>
    have hk : x.g.opnd b 1 0 % 32 < 32 := Nat.mod_lt _ (by norm_num)
    have hexec : exec (.wrlane h ty d a b) s = execWrlane h ty d a b s := rfl
    refine done_of_go hx hexec ⟨fun j l hl => ?_, stepped_of _ _ _ (wroteLane_lanes (w := ty.regs) (k := x.g.opnd b 1 0 % 32)
      (v := x.g.opnd a ty.regs (lowestLane x.act)) d), ?_⟩
    · cases d <;> exact vReg_wroteLane _ _ hk _ j l hl
    · rintro r rfl
      exact ⟨wroteLane_rest .., poison_wroteLane _ _ hk r⟩
  case xget =>
    have hpoison : xPoison x a b = [] := List.eq_nil_iff_forall_not_mem.2 fun l hl => by
      obtain ⟨ha, hr, hne⟩ := (mem_xPoison x a b l).1 hl
      exact hne (hclean l (BitVec.lt_of_getLsbD ha) ha hr)
    exact ⟨_, _, exec_xget_inside hx (xBad_nil x a b hin) hpoison, onlyGroup_done (grp_of_issueOf hx) _, effect_alu0 x d 1 false _ _⟩
  case xput =>
    have hwrites := fun k l => xput_fold x (xIdx x a b) (x.g.opnd c 1) (lanesOf x.act) x.g (fun l => lt_of_mem_lanesOf) k l
    obtain ⟨-, hlanes, hrest⟩ := hwrites 0 0 (by norm_num)
    refine ⟨_, _, exec_xput_inside hx (xBad_nil x a b hin), onlyGroup_done (grp_of_issueOf hx) _, stepped_of _ _ _ hlanes,
      fun k l hl => ?_, fun key => ?_, ?_⟩
    · have hreg := (hwrites k l hl).1
      simp only [mem_lanesOf] at hreg
      exact hreg
    · obtain ⟨hnone, hsame⟩ := mfind_poison_putLanes x.g.nregs (xIdx x a b) (x.g.opnd c 1) key (lanesOf x.act) x.g
      refine ⟨fun ⟨l, _, ha, hkey⟩ => hnone ⟨l, (mem_lanesOf _ l).2 ha, hkey⟩, fun hout => hsame fun l hl => ?_⟩
      exact hout l (lt_of_mem_lanesOf hl) ((mem_lanesOf _ l).1 hl)
    · exact congrArg (fun g : Group => { g with lanes := x.g.lanes }) hrest
  case poisoned =>
    obtain ⟨l, -, ha, hr, hne⟩ := hpois
    cases hp : xPoison x a b with
    | nil => exact absurd ((mem_xPoison x a b l).2 ⟨ha, hr, hne⟩) (hp ▸ List.not_mem_nil)
    | cons k ks =>
      obtain ⟨q, hexec⟩ := exec_xget_poisoned hx (xBad_nil x a b hin) hp
      refine ⟨_, hexec, rfl, rfl, rfl, fun j hj => ?_⟩
      have hlt : ∀ i ∈ k :: ks, i < 32 := fun i hi => BitVec.lt_of_getLsbD ((mem_xPoison x a b i).1 (hp ▸ hi)).1
      exact (mem_maskOf_lt hlt hj).trans (hp ▸ mem_xPoison x a b j)
  case outside =>
    obtain ⟨ls, hbad⟩ := xBad_head x a b l hl ha hr hout hfirst
    exact ⟨fun hx => exec_xget_outside hx hbad, fun hx => exec_xput_outside hx hbad⟩

end Sys2Proof.Machine
end

section
/-! The proof of `Obligations.VotesAndReductions`: the verdicts of VOTE and the masks of MATCH, GRED's tree level by level, and GSCAN's
running combination along the lanes of Active. -/

namespace Sys2Proof.Machine

/-! ### Flags that every lane raises alike -/

/-- An instruction that executes for some lane executes for its run's lowest lane or for a lane of Active. -/
theorem evalLanes_ne_nil {x : Issue} (hact : x.act ≠ 0) : x.evalLanes ≠ [] := by
  unfold Issue.evalLanes
  rw [if_neg hact]
  split
  · exact List.cons_ne_nil _ _
  · exact lanesOf_ne _ hact

/-- Flags that do not depend on the lane are raised as they are, where an empty Active has none. -/
theorem orFlags_const (x : Issue) (c : Flags) (hempty : x.act = 0 → c = 0) : orFlags (fun _ => c) x.evalLanes = c := by
  by_cases hact : x.act = 0
  · rw [hempty hact, orFlags_zero]
  · refine BitVec.eq_of_getLsbD_eq fun n _ => ?_
    obtain ⟨l, hl⟩ := List.exists_mem_of_ne_nil _ (evalLanes_ne_nil hact)
    rw [Bool.eq_iff_iff, getLsbD_orFlags]
    exact ⟨fun ⟨_, _, h⟩ => h, fun h => ⟨l, hl, h⟩⟩

/-- An instruction that writes one destination and raises the same flags for every lane. -/
theorem writes_uniformFlags {i : Instr} {helpers : Bool} {d : Opnd} {w : Nat} {z : Bool} {f : Issue → Nat → Nat} {c : Issue → Flags}
    (hexec : ∀ s, exec i s = laneInstr i helpers s (fun x s => x.done s (fun g => (g.writeD x d w z (f x)).raise (c x))))
    (hempty : ∀ x, x.act = 0 → c x = 0) : Writes i helpers d w z (fun _ x => f x) (fun x _ => c x) := by
  intro s x hx
  have heffect := effect_alu x d w z (f x) (fun _ => false) (fun _ => c x)
  rw [orFlags_const x (c x) (hempty x)] at heffect
  exact done_of_go (f := fun _ x g => (g.writeD x d w z (f x)).raise (c x)) hx (hexec s) heffect

/-! ### VOTE and MATCH (R185) -/

theorem getLsbD_voteMask (x : Issue) (p l : Nat) : (voteMask x p).getLsbD l = (x.act.getLsbD l && pBit x.g p l) :=
  BitVec.getLsbD_and

theorem voteMask_eq_act_iff (x : Issue) (p : Nat) :
    voteMask x p = x.act ↔ ∀ l, l < 32 → x.act.getLsbD l = true → pBit x.g p l = true := by
  constructor
  · intro heq l _ hl
    have := getLsbD_voteMask x p l
    rw [heq, hl] at this
    exact this.symm
  · intro h
    refine word_ext _ _ fun l hl => ?_
    rw [getLsbD_voteMask]
    cases hact : x.act.getLsbD l with
    | false => rfl
    | true => rw [h l hl hact]; rfl

theorem voteMask_ne_zero_iff (x : Issue) (p : Nat) :
    voteMask x p ≠ 0 ↔ ∃ l, l < 32 ∧ x.act.getLsbD l = true ∧ pBit x.g p l = true := by
  rw [Ne, word_eq_zero_iff]
  simp only [getLsbD_voteMask, not_forall, Bool.not_eq_false, Bool.and_eq_true]
  exact ⟨fun ⟨l, ha, hp⟩ => ⟨l, BitVec.lt_of_getLsbD ha, ha, hp⟩, fun ⟨l, _, h⟩ => ⟨l, h⟩⟩

theorem voteHolds_all_iff (x : Issue) (p : Nat) :
    voteHolds .all x p = true ↔ ∀ l, l < 32 → x.act.getLsbD l = true → pBit x.g p l = true :=
  beq_iff_eq.trans (voteMask_eq_act_iff x p)

theorem voteHolds_any_iff (x : Issue) (p : Nat) :
    voteHolds .any x p = true ↔ ∃ l, l < 32 ∧ x.act.getLsbD l = true ∧ pBit x.g p l = true :=
  bne_iff_ne.trans (voteMask_ne_zero_iff x p)

/-- The predicate has one value in Active when it is set in all of its lanes or in none. -/
theorem voteHolds_eq_iff (x : Issue) (p : Nat) : voteHolds .eq x p = true ↔
    ∀ k l, k < 32 → l < 32 → x.act.getLsbD k = true → x.act.getLsbD l = true → pBit x.g p k = pBit x.g p l := by
  have hverdict : voteHolds .eq x p = true ↔ voteMask x p = x.act ∨ voteMask x p = 0 := by simp [voteHolds]
  rw [hverdict]
  constructor
  · rintro (hall | hnone) k l hk hl hak hal
    · rw [voteMask_eq_act_iff] at hall
      rw [hall k hk hak, hall l hl hal]
    · rw [word_eq_zero_iff] at hnone
      have hclear : ∀ j, x.act.getLsbD j = true → pBit x.g p j = false := fun j hj => by
        simpa [getLsbD_voteMask, hj] using hnone j
      rw [hclear k hak, hclear l hal]
  · intro heq
    by_cases hnone : voteMask x p = 0
    · exact .inr hnone
    · obtain ⟨k, hk, hak, hpk⟩ := (voteMask_ne_zero_iff x p).1 hnone
      exact .inl ((voteMask_eq_act_iff x p).2 fun l hl hal => (heq l k hl hk hal hak).trans hpk)

theorem testBit_matchMask_any (x : Issue) (val : Nat → Nat) (l k : Nat) (hk : k < 32) :
    (matchMask .any x val l).toNat.testBit k = (x.act.getLsbD k && val k == val l) := by
  change (x.act &&& maskWhere fun k => val k == val l).getLsbD k = _
  rw [BitVec.getLsbD_and, getLsbD_maskWhere _ _ hk]

theorem matchMask_all (x : Issue) (val : Nat → Nat) (l : Nat) : matchMask .all x val l =
    if x.act &&& maskWhere (fun k => val k == val l) = x.act then x.act else 0 := rfl

/-- All lanes of Active hold lane `l`'s value exactly when the lanes with that value are all of Active. -/
theorem and_maskWhere_eq_act_iff (x : Issue) (val : Nat → Nat) (l : Nat) :
    x.act &&& maskWhere (fun k => val k == val l) = x.act ↔ ∀ k, k < 32 → x.act.getLsbD k = true → val k = val l := by
  constructor
  · intro heq k hk hact
    have := testBit_matchMask_any x val l k hk
    rw [show (matchMask .any x val l).toNat.testBit k = x.act.getLsbD k from congrArg (·.getLsbD k) heq, hact] at this
    exact beq_iff_eq.1 this.symm
  · intro h
    refine word_ext _ _ fun k hk => ?_
    rw [BitVec.getLsbD_and, getLsbD_maskWhere _ _ hk]
    cases hact : x.act.getLsbD k with
    | false => rfl
    | true => rw [h k hk hact, beq_self_eq_true]; rfl

/-! ### GRED's tree (R186) -/

/-- One level of the tree over values that are listed by place. -/
theorem gredLevel_map_range (op : RedOp) (ty : Ty) (f : Nat → Option Bits) (n : Nat) :
    gredLevel op ty ((List.range (2 * n)).map f) = (List.range n).map fun j => combineO op ty (f (2 * j)) (f (2 * j + 1)) := by
  induction n generalizing f with
  | zero => rfl
  | succ n ih =>
    rw [show 2 * (n + 1) = 2 * n + 1 + 1 from rfl, List.range_succ_eq_map, List.range_succ_eq_map, List.range_succ_eq_map]
    simp only [List.map_cons, List.map_map, gredLevel]
    exact congrArg _ (ih fun j => f (j + 2))

/-- The result of five levels over 32 values, from the values that each level leaves at every lane. -/
theorem gredTree_levels (op : RedOp) (ty : Ty) (lvl : Nat → Nat → Option Bits)
    (hlvl : ∀ i l, lvl (i + 1) l = combineO op ty (lvl i l) (lvl i (l + 2 ^ i))) :
    gredTree op ty ((List.range 32).map (lvl 0)) = lvl 5 0 := by
  have hstep : ∀ i n, gredLevel op ty ((List.range (2 * n)).map fun j => lvl i (2 ^ i * j)) =
      (List.range n).map fun j => lvl (i + 1) (2 ^ (i + 1) * j) := fun i n => by
    rw [gredLevel_map_range]
    refine List.map_congr_left fun j _ => ?_
    rw [hlvl, show 2 ^ i * (2 * j) = 2 ^ (i + 1) * j by ring, show 2 ^ i * (2 * j + 1) = 2 ^ (i + 1) * j + 2 ^ i by ring]
  have hstart : (List.range 32).map (lvl 0) = (List.range (2 * 16)).map fun j => lvl 0 (2 ^ 0 * j) :=
    List.map_congr_left fun j _ => by rw [pow_zero, one_mul]
  unfold gredTree
  dsimp only
  rw [hstart, hstep 0 16, hstep 1 8, hstep 2 4, hstep 3 2, hstep 4 1]
  rfl

/-- With no value present the tree has none. -/
theorem gredTree_absent (op : RedOp) (ty : Ty) : gredTree op ty ((List.range 32).map fun _ => none) = none :=
  gredTree_levels op ty (fun _ _ => none) fun _ _ => rfl

/-! ### GSCAN's running combination (R186) -/

section
variable (op : RedOp) (ty : Ty) (excl : Bool) (val : Nat → Nat)

/-- The running combination along `ls`: `acc i` is what stands before the `i`-th of them. -/
def RunsAlong (acc : Nat → Nat) (ls : List Nat) : Prop :=
  ∀ i, i < ls.length → acc (i + 1) = (combine op ty (acc i) (val (ls.getD i 0))).1

variable {op ty val} in
/-- What a running combination leaves for the lanes after the first. -/
theorem RunsAlong.tail {acc : Nat → Nat} {l : Nat} {ls : List Nat} (h : RunsAlong op ty val acc (l :: ls)) :
    RunsAlong op ty val (fun i => acc (i + 1)) ls := fun i hi => h (i + 1) (Nat.succ_lt_succ hi)

/-- A lane that has one before it. -/
theorem scanLanes_some_cons (p : Nat) (fl : Flags) (l : Nat) (ls : List Nat) :
    scanLanes op ty excl val (some p) fl (l :: ls) =
      if excl = true ∧ ls = [] then ([(l, p)], fl)
      else ((l, if excl then p else (combine op ty p (val l)).1) ::
          (scanLanes op ty excl val (some (combine op ty p (val l)).1) (fl ||| (combine op ty p (val l)).2) ls).1,
        (scanLanes op ty excl val (some (combine op ty p (val l)).1) (fl ||| (combine op ty p (val l)).2) ls).2) := by
  cases ls <;> cases excl <;> rfl

theorem scanLanes_length (acc : Option Nat) (fl : Flags) (ls : List Nat) :
    (scanLanes op ty excl val acc fl ls).1.length = ls.length := by
  induction ls generalizing acc fl with
  | nil => rfl
  | cons l ls ih =>
    cases acc with
    | none => exact congrArg (· + 1) (ih _ _)
    | some p =>
      rw [scanLanes_some_cons]
      split
      next h => rw [h.2]; rfl
      next => exact congrArg (· + 1) (ih _ _)

theorem scanLanes_some_getD (acc : Nat → Nat) (fl : Flags) (ls : List Nat) (hacc : RunsAlong op ty val acc ls) (i : Nat)
    (hi : i < ls.length) : (scanLanes op ty excl val (some (acc 0)) fl ls).1.getD i (0, 0) =
      (ls.getD i 0, if excl then acc i else acc (i + 1)) := by
  induction ls generalizing acc fl i with
  | nil => exact absurd hi (Nat.not_lt_zero _)
  | cons l ls ih =>
    have hfirst : (combine op ty (acc 0) (val l)).1 = acc 1 := (hacc 0 (Nat.zero_lt_succ _)).symm
    rw [scanLanes_some_cons, hfirst]
    split
    next h =>
      obtain ⟨rfl, rfl⟩ := h
      obtain rfl : i = 0 := Nat.lt_one_iff.1 hi
      rfl
    next =>
      cases i with
      | zero => rfl
      | succ i => exact ih (fun i => acc (i + 1)) _ hacc.tail i (Nat.lt_of_succ_lt_succ hi)

theorem scanLanes_some_flags (acc : Nat → Nat) (fl : Flags) (ls : List Nat) (hacc : RunsAlong op ty val acc ls) (n : Nat) :
    (scanLanes op ty excl val (some (acc 0)) fl ls).2.getLsbD n = true ↔ fl.getLsbD n = true ∨
      ∃ i, i < ls.length ∧ (excl = true → i + 1 < ls.length) ∧ (combine op ty (acc i) (val (ls.getD i 0))).2.getLsbD n = true := by
  induction ls generalizing acc fl with
  | nil => exact ⟨.inl, fun h => h.elim id fun ⟨i, hi, _⟩ => absurd hi (Nat.not_lt_zero _)⟩
  | cons l ls ih =>
    have hfirst : (combine op ty (acc 0) (val l)).1 = acc 1 := (hacc 0 (Nat.zero_lt_succ _)).symm
    rw [scanLanes_some_cons, hfirst]
    split
    next h =>
      obtain ⟨hexcl, rfl⟩ := h
      refine ⟨.inl, fun h => h.elim id fun ⟨i, _, hnot, _⟩ => absurd (hnot hexcl) ?_⟩
      exact Nat.not_lt.2 (Nat.succ_le_succ (Nat.zero_le i))
    next hnot =>
      have hone : excl = true → 0 < ls.length := fun he => List.length_pos_of_ne_nil fun hn => hnot ⟨he, hn⟩
      rw [ih (fun i => acc (i + 1)) _ hacc.tail, BitVec.getLsbD_or, Bool.or_eq_true, or_assoc]
      refine or_congr_right ⟨?_, ?_⟩
      · rintro (h | ⟨i, hi, hexcl, h⟩)
        · exact ⟨0, Nat.zero_lt_succ _, fun he => Nat.succ_lt_succ (hone he), h⟩
        · exact ⟨i + 1, Nat.succ_lt_succ hi, fun he => Nat.succ_lt_succ (hexcl he), h⟩
      · rintro ⟨i, hi, hexcl, h⟩
        cases i with
        | zero => exact .inl h
        | succ i => exact .inr ⟨i, Nat.lt_of_succ_lt_succ hi, fun he => Nat.lt_of_succ_lt_succ (hexcl he), h⟩

end

/-- The scan of the lanes of Active: each one's result, and the flags of the combinations that were made. -/
theorem scanLanes_none_spec (op : RedOp) (ty : Ty) (excl : Bool) (val acc : Nat → Nat) (ls : List Nat)
    (hzero : acc 0 = val (ls.getD 0 0)) (hsucc : ∀ i, acc (i + 1) = (combine op ty (acc i) (val (ls.getD (i + 1) 0))).1) :
    (∀ i, i < ls.length → (scanLanes op ty excl val none 0 ls).1.getD i (0, 0) = (ls.getD i 0,
      if excl then (if i = 0 then identity op ty else acc (i - 1)) else acc i)) ∧
    ∀ n, (scanLanes op ty excl val none 0 ls).2.getLsbD n = true ↔
      ∃ i, i + 1 < ls.length ∧ (excl = true → i + 2 < ls.length) ∧ (combine op ty (acc i) (val (ls.getD (i + 1) 0))).2.getLsbD n = true := by
  cases ls with
  | nil =>
    refine ⟨fun i hi => absurd hi (Nat.not_lt_zero _), fun n => ⟨fun h => ?_, fun ⟨i, hi, _⟩ => absurd hi (Nat.not_lt_zero _)⟩⟩
    exact absurd (h.symm.trans BitVec.getLsbD_zero) (by decide)
  | cons l ls =>
    have hruns : RunsAlong op ty val acc ls := fun i _ => hsucc i
    have hscan : scanLanes op ty excl val none 0 (l :: ls) =
        ((l, if excl then identity op ty else acc 0) :: (scanLanes op ty excl val (some (acc 0)) 0 ls).1,
          (scanLanes op ty excl val (some (acc 0)) 0 ls).2) := by
      rw [hzero]; rfl
    rw [hscan]
    refine ⟨fun i hi => ?_, fun n => ?_⟩
    · cases i with
      | zero => rfl
      | succ i => exact scanLanes_some_getD op ty excl val acc 0 ls hruns i (Nat.lt_of_succ_lt_succ hi)
    · rw [scanLanes_some_flags op ty excl val acc 0 ls hruns n]
      simp [Nat.succ_le_iff]

/-! ### The statement -/

theorem vote_writes (h : Hdr) (m : VoteOp) (z : Bool) (d : Opnd) (p : Nat) :
    WritesOnly (.vote h m z (.reg d) p) true d 1 z (fun _ x _ => (x.act &&& x.g.pred p).toNat) := by
  have hexec : ∀ s, exec (.vote h m z (.reg d) p) s = execVote h m z (.reg d) p s := fun _ => rfl
  exact writes_done hexec fun _ _ => rfl

/-- VOTE into a predicate writes its verdict to every lane. -/
theorem vote_verdict (h : Hdr) (m : VoteOp) (z : Bool) (q p : Nat) :
    WritesPred (.vote h m z (.pred q) p) true q (fun x _ => voteHolds m x p) (fun _ _ => 0) :=
  writesPred_done fun _ => rfl

/-- MATCH writes its mask to every lane of Active. -/
theorem match_writes (h : Hdr) (m : MatchOp) (ty : Ty) (z : Bool) (d a : Opnd) :
    WritesOnly (.matchLanes h m ty z d a) true d 1 z (fun _ x l => (matchMask m x (fun k => x.g.opnd a ty.regs k) l).toNat) := by
  have hexec : ∀ s, exec (.matchLanes h m ty z d a) s = execMatchLanes h m ty z d a s := fun _ => rfl
  exact writes_done hexec fun _ _ => rfl

/-- The tree of GRED has no result where Active is empty. -/
theorem gredTree_empty (op : RedOp) (ty : Ty) (val : Nat → Nat) (act : Word) (hact : act = 0) :
    gredTree op ty ((List.range 32).map fun l => if act.getLsbD l then some (val l, (0 : Flags)) else none) = none := by
  subst hact
  simpa using gredTree_absent op ty

/-- Settles O15: VOTE and MATCH lane by lane, GRED by the levels of its tree, and GSCAN by induction on the lanes of Active. -/
theorem votesAndReductions : Obligations.VotesAndReductions := by
  unfold Obligations.VotesAndReductions
  refine ⟨fun h m ty z d a p q => ⟨vote_writes h m z d p, fun s x hx => ?_, fun s x hx => ?_, fun s x hx => ?_⟩,
    fun h op ty z excl d a => ⟨writes_uniformFlags (fun _ => rfl) fun x hact => ?_, writes_uniformFlags (fun _ => rfl) fun x hact => ?_⟩,
    fun ty x y => ⟨fun hint => ?_, fun hfloat => ?_, rfl, rfl, rfl⟩,
    fun op ty lvl hlvl => gredTree_levels op ty lvl fun i l => ?_,
    fun op ty excl val acc ls hzero hsucc => ⟨scanLanes_length op ty excl val none 0 ls, scanLanes_none_spec op ty excl val acc ls hzero hsucc⟩,
    fun ty => ⟨rfl, rfl, rfl, rfl⟩, by decide⟩
  · obtain ⟨t, g', hexec, honly, heffect⟩ := vote_verdict h m z q p s x hx
    refine ⟨t, g', hexec, honly, _, heffect, ?_, ?_, ?_⟩
    · rintro rfl
      exact voteHolds_all_iff x p
    · rintro rfl
      exact voteHolds_any_iff x p
    · rintro rfl
      exact voteHolds_eq_iff x p
  · obtain ⟨t, g', hexec, honly, heffect⟩ := match_writes h .any ty z d a s x hx
    exact ⟨t, g', _, hexec, honly, heffect, fun l k hk => testBit_matchMask_any x _ l k hk⟩
  · obtain ⟨t, g', hexec, honly, heffect⟩ := match_writes h .all ty z d a s x hx
    refine ⟨t, g', _, hexec, honly, heffect, fun l => ⟨fun hall => ?_, fun ⟨k, hk, hact, hne⟩ => ?_⟩⟩
    · refine congrArg BitVec.toNat (?_ : matchMask .all x _ l = x.act)
      rw [matchMask_all, if_pos ((and_maskWhere_eq_act_iff x _ l).2 hall)]
    · refine congrArg BitVec.toNat (?_ : matchMask .all x _ l = 0)
      rw [matchMask_all, if_neg fun heq => hne ((and_maskWhere_eq_act_iff x _ l).1 heq k hk hact)]
  · exact congrArg (fun r => (r.getD (0, 0)).2) (gredTree_empty op ty _ x.act hact)
  · dsimp only
    rw [hact]
    rfl
  · simp [combine, hint]
  · simp [combine, hfloat]
  · rw [hlvl]
    cases lvl i l <;> cases lvl i (l + 2 ^ i) <;> rfl

end Sys2Proof.Machine
end

section
/-! The refutation of `Obligations.HintsAndPredicates` (R103, R208). -/

namespace Sys2Proof.Machine

/-- PREF under UNI, guarded by a predicate that is false in every lane. -/
def prefetchFalseGuard : Instr := .pref ⟨.pred 0 false, 0, true, false, 0⟩ true .ca .z 0

/-- A group of 32 lanes that issues, in a context whose heap window maps address 0. -/
def prefetchState : State :=
  { ctxs := [(1, { hwLimit := 2 ^ 39, hwPerm := 7 })], groups := [(1, { ctx0 := 1, ctx := 1 })], nextId := 2,
    cur := some { gid := 1, run := BitVec.allOnes 32, pc := 0, word0 := 0 } }

/-- The issue of `prefetchFalseGuard`: its Active is empty. -/
def prefetchIssue : Issue :=
  { gid := 1, g := { ctx0 := 1, ctx := 1 }, run := BitVec.allOnes 32, act := 0, once := true, lead := 0, pc := 0, word0 := 0, reissue := none }

theorem issueOf_prefetchFalseGuard : prefetchState.issueOf prefetchFalseGuard false = .go prefetchIssue := by decide

/-- The prefetch of lane 0 is sent all the same: an operation is added under key 2. -/
theorem exec_prefetchFalseGuard : ∀ t, exec prefetchFalseGuard prefetchState = .next t → t.nextId = 3 := by
  have hnext : (match exec prefetchFalseGuard prefetchState with | .next t => t.nextId | _ => 3) = 3 := by decide
  intro t ht
  rwa [ht] at hnext

/-- Refutes O16: a PREF under UNI whose guard fails forms the address of lane 0, which is the lowest lane of its empty Active as the model
takes it, and sends a prefetch there; the statement says that it changes its group alone. -/
theorem not_hintsAndPredicates : ¬ Obligations.HintsAndPredicates := by
  unfold Obligations.HintsAndPredicates
  rintro ⟨hints, -⟩
  obtain ⟨-, pref, -⟩ := hints ⟨.pred 0 false, 0, true, false, 0⟩ true true .ca .z 0
  obtain ⟨empty, -⟩ := pref prefetchState prefetchIssue (fun _ => 0) (fun _ => false) (fun _ => false) issueOf_prefetchFalseGuard rfl
  obtain ⟨t, g', hexec, honly, -⟩ := empty rfl
  have hsame : t.nextId = 2 := congrArg State.nextId honly.rest
  have hsent : t.nextId = 3 := exec_prefetchFalseGuard t hexec
  omega

end Sys2Proof.Machine
end

section
/-! The proof of `Obligations.SpecialRegisters` (R141, R142, R193, Tables 9-3, 11-7 and 11-8). -/

namespace Sys2Proof.Machine

/-! ### What RDSR and TQRD write -/

theorem writes_rdsr (h : Hdr) (d : Opnd) (r : SReg) : WritesOnly (.rdsr h d r) false d r.words false (fun s x l => s.sreg x l r) := by
  have hexec : ∀ s, exec (.rdsr h d r) s = execRdsr h d r s := fun _ => rfl
  exact writes_done hexec fun _ _ => rfl

/-- Table 11-8: the number of queued traps, and the cause of the one that a handler runs for. -/
theorem trapinfo_eq (g : Group) : g.trapinfo = 256 * g.trapq.length +
    (if g.hmode then (g.trapq.headD { cause := 0, mask := 0, pc := 0, run := 0 }).cause else 0) := by
  unfold Group.trapinfo
  cases g.hmode <;> cases g.trapq <;> rfl

/-- Table 11-7: the words of a trap record. -/
theorem words_getD (t : TrapRec) (l : Nat) : t.words.getD (l % 16) 0 = match l % 16 with
    | 0 => 256 * t.depth + t.cause | 1 => t.mask.toNat | 2 => t.pc.toNat % 2 ^ 32 | 3 => t.pc.toNat / 2 ^ 32
    | 4 => t.addr.toNat % 2 ^ 32 | 5 => t.addr.toNat / 2 ^ 32 | 6 => t.regt.toNat % 2 ^ 32 | 7 => t.regt.toNat / 2 ^ 32
    | 8 => t.code.toNat | 9 => t.word0.toNat | 10 => t.run.toNat | 11 => t.detail.toNat | _ => 0 := by
  have hlt : l % 16 < 16 := Nat.mod_lt _ (by norm_num)
  rw [TrapRec.words, Nat.mul_comm t.depth]
  generalize l % 16 = k at hlt ⊢
  interval_cases k <;> rfl

theorem writes_tqrd (h : Hdr) (d : Opnd) : WritesOnly (.tqrd h d) false d 1 false (fun _ x l => match x.g.trapq with
    | [] => 0
    | t :: _ => match l % 16 with
      | 0 => 256 * t.depth + t.cause | 1 => t.mask.toNat | 2 => t.pc.toNat % 2 ^ 32 | 3 => t.pc.toNat / 2 ^ 32
      | 4 => t.addr.toNat % 2 ^ 32 | 5 => t.addr.toNat / 2 ^ 32 | 6 => t.regt.toNat % 2 ^ 32 | 7 => t.regt.toNat / 2 ^ 32
      | 8 => t.code.toNat | 9 => t.word0.toNat | 10 => t.run.toNat | 11 => t.detail.toNat | _ => 0) := by
  have hexec : ∀ s, exec (.tqrd h d) s = execTqrd h d s := fun _ => rfl
  refine writes_done hexec fun s x => congrArg (x.done s) (funext fun g => congrArg (g.writeD x d 1 false) (funext fun l => ?_))
  cases x.g.trapq with
  | nil => rfl
  | cons t _ => exact words_getD t l

/-! ### WRSR -/

section
variable {h : Hdr} {a : Opnd} {s : State} {x : Issue}

theorem exec_wrsr_empty {r : SReg} (hgo : s.issueOf (.wrsr h a r) false = .go x) (hact : x.act = 0) :
    exec (.wrsr h a r) s = .next (x.done s id) := by
  have hexec : exec (.wrsr h a r) s = execWrsr h a r s := rfl
  rw [exec_of_go hgo hexec, if_pos hact]

theorem exec_wrsr_fpflags (hgo : s.issueOf (.wrsr h a .fpflags) false = .go x) (hact : x.act ≠ 0) :
    exec (.wrsr h a .fpflags) s = .next (x.done s (fun g => { g with fpflags := BitVec.ofNat 6 (x.g.opnd a 1 x.lead) })) := by
  have hexec : exec (.wrsr h a .fpflags) s = execWrsr h a .fpflags s := rfl
  rw [exec_of_go hgo hexec, if_neg hact]

theorem exec_wrsr_cstack (hgo : s.issueOf (.wrsr h a .cstack) false = .go x) (hact : x.act ≠ 0) :
    exec (.wrsr h a .cstack) s = .next (if x.g.lanes.any (fun l => decide (l.depth > 4)) then s.queueTrap x.gid (x.trap s 0x0A x.act x.act)
      else x.done s (fun g => { g with cstack := BitVec.ofNat 64 (x.g.opnd a 2 x.lead / 8 * 8) })) := by
  have hexec : exec (.wrsr h a .cstack) s = execWrsr h a .cstack s := rfl
  rw [exec_of_go hgo hexec, if_neg hact]

end

/-- Settles O17: each register by its row of Table 9-3; WRSR by its register, Active and the depth of the call stacks. -/
theorem specialRegisters : Obligations.SpecialRegisters := by
  unfold Obligations.SpecialRegisters
  refine ⟨fun h d => ?reads, fun h a d s x => ⟨fun hgo => ?fpflags, fun hgo hshallow => ?cstack, fun hgo hact hdeep => ?spilled, writes_tqrd h d⟩⟩
  case reads =>
    have hreads := writes_rdsr h d
    refine ⟨hreads .laneid, hreads .quadid, hreads .groupid, hreads .teamid, hreads .gangx, hreads .gangy, hreads .gangz, hreads .ngangx,
      hreads .ngangy, hreads .ngangz, hreads .active, hreads .clock, hreads .regtime, hreads .ctime, hreads .fpflags, hreads .cstack,
      hreads .args, hreads .regs, hreads .coreid, hreads .clusterid, hreads .ctxid, fun _ _ => rfl, ?_⟩
    have htrapinfo := hreads .trapinfo
    simp only [State.sreg, trapinfo_eq] at htrapinfo
    exact htrapinfo
  case fpflags =>
    by_cases hact : x.act = 0
    · refine ⟨_, _, exec_wrsr_empty hgo hact, onlyGroup_done (grp_of_issueOf hgo) _, stepped_of _ _ _ rfl, rfl, ?_⟩
      rw [if_pos hact]
      rfl
    · refine ⟨_, _, exec_wrsr_fpflags hgo hact, onlyGroup_done (grp_of_issueOf hgo) _, stepped_of _ _ _ rfl, rfl, ?_⟩
      rw [if_neg hact]
      exact BitVec.toNat_ofNat _ _
  case cstack =>
    by_cases hact : x.act = 0
    · exact ⟨_, _, exec_wrsr_empty hgo hact, onlyGroup_done (grp_of_issueOf hgo) _, stepped_of _ _ _ rfl, rfl, fun _ => rfl,
        fun h => absurd hact h⟩
    · have hany : ¬ x.g.lanes.any (fun l => decide (l.depth > 4)) = true := by simpa using hshallow hact
      have hexec := exec_wrsr_cstack hgo hact
      rw [if_neg hany, Nat.mul_comm] at hexec
      exact ⟨_, _, hexec, onlyGroup_done (grp_of_issueOf hgo) _, stepped_of _ _ _ rfl, rfl, fun h => absurd h hact, fun _ => rfl⟩
  case spilled =>
    have hany : x.g.lanes.any (fun l => decide (l.depth > 4)) = true := by simpa using hdeep
    rw [exec_wrsr_cstack hgo hact, if_pos hany]

end Sys2Proof.Machine
end

section
/-! The refutation of `Obligations.Branches` (R177). -/

namespace Sys2Proof.Machine

/-- A refill of lane 0 to code address 0 and one of lane 32 to code address 12. -/
def aliasedMoves : List (Nat × Lane) := [(0, {}), (32, { pc := 12 })]

/-- The operation that holds the two refills, both done. -/
def aliasedRefill : Op :=
  { gid := 1, kind := .mem { kind := .load, ty := .b64, width := 8 } [{ lane := 0, va := 0, st := .done }, { lane := 32, va := 0, st := .done }] }

/-- The group whose run the refills hold. -/
def aliasedGroup : Group := { lanes := List.replicate 32 {}, block := .stack 2 aliasedMoves }

/-- The state in which the refills have come. -/
def aliasedState : State := { groups := [(1, aliasedGroup)], ops := [(2, aliasedRefill)], nextId := 3 }

/-- The end of the refills: lane 0 stands where the refill of lane 32 returns to. -/
theorem stackEnd_aliased : ((aliasedState.stackEnd 2).grp? aliasedRefill.gid).map (fun g => (g.lane 0).pc) = some 12 := by decide

/-- Refutes O18: the clause on the end of refills speaks of any moves with different lanes, and lane 32 takes the place of lane 0 in a mask
of 32 lanes: the move of lane 32 overwrites that of lane 0. -/
theorem not_branches : ¬ Obligations.Branches := by
  unfold Obligations.Branches
  rintro ⟨-, refills, -⟩
  obtain ⟨g, hg, -, -, hlanes⟩ := refills aliasedState 2 aliasedRefill { kind := .load, ty := .b64, width := 8 } aliasedGroup aliasedMoves
    (fun _ => 0) rfl rfl rfl rfl rfl rfl (by decide) (by decide)
  have hzero : g.lane 0 = { ({} : Lane) with stack := [0] } := hlanes (0, {}) (by decide) (by decide) (by decide)
  have hpc := stackEnd_aliased
  rw [hg, Option.map_some, hzero] at hpc
  exact absurd hpc (by decide)

end Sys2Proof.Machine
end

section
/-! The proof of `Obligations.RejoinBarriers` (R179). -/

namespace Sys2Proof.Machine

/-- A release test that finds every enrolled lane waiting lets them go and clears the mask. -/
theorem releaseTest_of_waiting {g : Group} {n : Nat} (henrolled : mget 0 g.b n ≠ 0) (hwaits : g.allWaiting n (mget 0 g.b n) = true) :
    g.releaseTest n = ({ g with b := mdel g.b n }).resume (mget 0 g.b n) := if_pos ⟨henrolled, hwaits⟩

/-- A release test of an empty barrier, or of one that a lane has not reached, changes nothing. -/
theorem releaseTest_of_not_waiting {g : Group} {n : Nat} (h : mget 0 g.b n = 0 ∨ g.allWaiting n (mget 0 g.b n) = false) :
    g.releaseTest n = g := by
  refine if_neg fun ⟨hne, hwaits⟩ => ?_
  rcases h with hempty | hnot
  · exact hne hempty
  · rw [hwaits] at hnot
    cases hnot

/-- A barrier's mask after one of them has been written. -/
theorem barrier_mset (b : Map Word) (n : Nat) (m : Word → Word) (k : Nat) :
    mget 0 (mset 0 b n (m (mget 0 b n))) k = if k = n then m (mget 0 b k) else mget 0 b k := by
  rw [mget_mset]
  by_cases hk : k = n
  · rw [if_pos hk.symm, if_pos hk, hk]
  · rw [if_neg (Ne.symm hk), if_neg hk]

/-- Settles O19, instruction by instruction, and the release test by its two outcomes. -/
theorem rejoinBarriers : Obligations.RejoinBarriers := by
  unfold Obligations.RejoinBarriers
  refine ⟨fun h n s x => ⟨fun hx => ?_, fun hx => ?_, fun hx => ?_⟩, fun g n => ⟨fun hne hwaits => ?_, fun hnot => ?_⟩⟩
  · have hexec : exec (.enrol h n) s = execEnrol h n s := rfl
    exact done_of_go (f := fun _ x g => { g with b := mset 0 g.b n (mget 0 g.b n ||| x.act) }) hx hexec
      ⟨stepped_of _ _ _ rfl, barrier_mset x.g.b n (· ||| x.act), rfl⟩
  · have hexec : exec (.leave h n) s = laneInstr (.leave h n) false s (fun x s => s.updGrp x.gid fun g =>
        (({ g with b := mset 0 g.b n (mget 0 g.b n &&& ~~~x.act) }).advance x.run).releaseTest n) := rfl
    obtain ⟨t, ht, honly⟩ := group_of_go hx hexec
    exact ⟨t, _, ht, honly, stepped_of _ _ _ rfl, barrier_mset x.g.b n (· &&& ~~~x.act), rfl⟩
  · have hexec : exec (.rejoin h n) s = execRejoin h n s := rfl
    obtain ⟨t, ht, honly⟩ := group_of_go (f := fun _ x g => ((g.advance (x.run &&& ~~~(x.act &&& mget 0 g.b n))).onLanes
      (x.act &&& mget 0 g.b n) fun l => { l with st := .rejoin n }).releaseTest n) hx hexec
    exact ⟨t, _, ht, honly, length_onLanes_advance _ _ _ _, fun l hl => lane_onLanes_advance _ _ _ _ l hl, rfl⟩
  · rw [releaseTest_of_waiting hne ((allWaiting_iff g n).2 hwaits)]
    refine ⟨fun k => ?_, fun l hl => onLanes_lane _ _ _ _ hl⟩
    have hdel := congrArg (Option.getD · 0) (mfind_mdel g.b n k)
    by_cases hk : k = n
    · rw [if_pos hk]
      rwa [if_pos hk.symm] at hdel
    · rw [if_neg hk]
      rwa [if_neg (Ne.symm hk)] at hdel
  · refine releaseTest_of_not_waiting (hnot.imp_right fun hnot => ?_)
    rw [← Bool.not_eq_true, allWaiting_iff]
    exact hnot

end Sys2Proof.Machine
end

section
/-! The refutation of `Obligations.LaneEnds` (R180). -/

namespace Sys2Proof.Machine

/-- A group of 32 lanes whose barriers list barrier 0 twice: lane 0 is enrolled in the entry that is read, lane 1 in the other. -/
def twiceEnrolled : Group := { b := [(0, 1), (0, 2)], lanes := List.replicate 32 {} }

/-- EXIT of lane 0 of that group. -/
def exitLane : Instr := .exit ⟨.all, 0, false, false, 0⟩

/-- The state in which lane 0 issues it. -/
def exitState : State := { groups := [(1, twiceEnrolled)], nextId := 2, cur := some { gid := 1, run := 1, pc := 0, word0 := 0 } }

/-- That issue. -/
def exitIssue : Issue :=
  { gid := 1, g := twiceEnrolled, run := 1, act := 1, once := false, lead := 0, pc := 0, word0 := 0, reissue := none }

theorem issueOf_exitLane : exitState.issueOf exitLane false = .go exitIssue := by decide

set_option maxRecDepth 20000 in
theorem exec_exitLane_barrier : (match exec exitLane exitState with
    | .next t => (t.grp? 1).all fun g => mget 0 g.b 0 == 2
    | _ => false) = true := by
  decide

/-- The entry that lane 0 leaves goes, and the one behind it is read in its place. -/
theorem exec_exitLane {t : State} (ht : exec exitLane exitState = .next t) {g : Group} (hg : t.grp? 1 = some g) : mget 0 g.b 0 = 2 := by
  have hleft := exec_exitLane_barrier
  rw [ht] at hleft
  exact beq_iff_eq.1 ((Option.all_some ..).symm.trans ((congrArg (Option.all fun g : Group => mget 0 g.b 0 == 2) hg).symm.trans hleft))

/-- Refutes O20: the statement asks nothing of the order or the keys of the group's barriers. Where barrier 0 is listed twice, the EXIT of
the one lane of its first entry leaves the second entry, and the barrier reads as that one, not as empty. -/
theorem not_laneEnds : ¬ Obligations.LaneEnds := by
  unfold Obligations.LaneEnds
  intro h
  obtain ⟨-, ends⟩ := h ⟨.all, 0, false, false, 0⟩ exitState exitIssue issueOf_exitLane
  have hbeyond : ∀ n, 16 ≤ n → mget 0 exitIssue.g.b n = 0 := fun n hn => by
    obtain ⟨n, rfl⟩ := Nat.exists_eq_add_of_le' hn
    rfl
  obtain ⟨t, g, ht, hg, -, -, -, -, -, -, -, barriers⟩ := ends (by decide) rfl rfl rfl rfl hbeyond
  obtain ⟨hempty, -⟩ := barriers 0 (by decide)
  have hzero : mget 0 g.b 0 = 0 := hempty (.inl (by decide))
  rw [exec_exitLane ht hg] at hzero
  exact absurd hzero (by decide)

end Sys2Proof.Machine
end

section
/-! The proof of `Obligations.TeamBarrier` (R181, R333). -/

namespace Sys2Proof.Machine

/-! ### Teams -/

theorem getD_setAt {α : Type} (f : α → α) (k : Nat) (xs : List α) (d : α) (hk : k < xs.length) :
    (setAt f k xs).getD k d = f (xs.getD k d) := by
  induction xs generalizing k with
  | nil => exact absurd hk (Nat.not_lt_zero _)
  | cons x xs ih =>
    cases k with
    | zero => rfl
    | succ k => exact ih k (Nat.lt_of_succ_lt_succ hk)

/-- A team that exists reads as it has been changed. -/
theorem team_updTeam {s : State} {k t : Nat} (ht : t < (mget ({} : Gang) s.gangs k).teams.length) (f : Team → Team) :
    (s.updTeam k t f).team k t = f (s.team k t) := by
  unfold State.team State.updTeam mget
  unfold mget at ht
  rw [mfind_mupd, if_pos rfl]
  cases hgang : mfind s.gangs k with
  | none =>
    rw [hgang] at ht
    exact absurd ht (Nat.not_lt_zero _)
  | some gang =>
    rw [hgang] at ht
    exact getD_setAt f t gang.teams {} ht

theorem length_setAt {α : Type} (f : α → α) (k : Nat) (xs : List α) : (setAt f k xs).length = xs.length := by
  induction xs generalizing k with
  | nil => cases k <;> rfl
  | cons x xs ih =>
    cases k with
    | zero => rfl
    | succ k => exact congrArg (· + 1) (ih k)

/-- Changing a team keeps the number of teams. -/
theorem length_teams_updTeam (s : State) (k t : Nat) (f : Team → Team) :
    (mget ({} : Gang) (s.updTeam k t f).gangs k).teams.length = (mget ({} : Gang) s.gangs k).teams.length := by
  unfold State.updTeam mget
  rw [mfind_mupd, if_pos rfl]
  cases mfind s.gangs k with
  | none => rfl
  | some gang => exact length_setAt f t gang.teams

theorem setAt_congr {α : Type} {f f' : α → α} {k : Nat} {xs : List α} (d : α) (h : f (xs.getD k d) = f' (xs.getD k d)) :
    setAt f k xs = setAt f' k xs := by
  induction xs generalizing k with
  | nil => cases k <;> rfl
  | cons x xs ih =>
    cases k with
    | zero => exact congrArg (· :: xs) h
    | succ k => exact congrArg (x :: ·) (ih h)

/-- A change of a team depends on what it makes of the team as it stands. -/
theorem updTeam_congr {s : State} {k t : Nat} {f f' : Team → Team} (h : f (s.team k t) = f' (s.team k t)) :
    s.updTeam k t f = s.updTeam k t f' := by
  refine congrArg (fun gangs => { s with gangs := gangs }) (mupd_congr fun gang hgang => ?_)
  refine congrArg (fun teams => { gang with teams := teams }) (setAt_congr {} ?_)
  rwa [State.team, mget, hgang] at h

/-- Changing a team changes no group. -/
theorem teamGroups_updTeam (s : State) (k t : Nat) (f : Team → Team) (gang team : Nat) :
    (s.updTeam k t f).teamGroups gang team = s.teamGroups gang team := rfl

/-- The groups of a team. -/
theorem mem_teamGroups {s : State} {gang team : Nat} {e : Nat × Group} :
    e ∈ s.teamGroups gang team ↔ e ∈ s.groups ∧ e.2.gang = gang ∧ e.2.team = team ∧ e.2.isSeq = false := by
  simp [State.teamGroups, and_assoc]

/-- What is found at a key is listed there. -/
theorem mem_of_mfind {α : Type} {m : Map α} {k : Nat} {x : α} (h : mfind m k = some x) : (k, x) ∈ m := by
  induction m with
  | nil => cases h
  | cons e m ih =>
    unfold mfind at h
    split at h
    next hk =>
      obtain rfl := Option.some.inj h
      exact List.mem_cons.2 (.inl (by rw [← hk]))
    next => exact List.mem_cons_of_mem _ (ih h)

/-- With one entry for each key, a key is one of the team's exactly when its group is. -/
theorem mem_keys_teamGroups {s : State} {gang team k : Nat} {q : Group} (hnodup : (s.groups.map (·.1)).Nodup)
    (hq : s.grp? k = some q) :
    k ∈ (s.teamGroups gang team).map (·.1) ↔ q.gang = gang ∧ q.team = team ∧ q.isSeq = false := by
  have hmem : (k, q) ∈ s.groups := mem_of_mfind hq
  rw [List.mem_map]
  constructor
  · rintro ⟨e, he, rfl⟩
    obtain ⟨he, hteam⟩ := mem_teamGroups.1 he
    have heq : e = (e.1, q) := List.inj_on_of_nodup_map hnodup he hmem rfl
    rwa [heq] at hteam
  · exact fun hteam => ⟨(k, q), mem_teamGroups.2 ⟨hmem, hteam⟩, rfl⟩

/-! ### The same change made to several groups -/

/-- Changing groups one after another changes nothing but groups. -/
theorem foldl_updGrp_rest (f : Group → Group) (es : List (Nat × Group)) (s : State) :
    es.foldl (fun s e => s.updGrp e.1 f) s = { s with groups := (es.foldl (fun s e => s.updGrp e.1 f) s).groups } := by
  induction es generalizing s with
  | nil => rfl
  | cons e es ih => exact ih (s.updGrp e.1 f)

/-- It changes those that are listed, and those alone. -/
theorem grp?_foldl_updGrp (f : Group → Group) {es : List (Nat × Group)} (hnodup : (es.map (·.1)).Nodup) (s : State) (k : Nat) :
    (es.foldl (fun s e => s.updGrp e.1 f) s).grp? k = if k ∈ es.map (·.1) then (s.grp? k).map f else s.grp? k := by
  induction es generalizing s with
  | nil => rfl
  | cons e es ih =>
    obtain ⟨hnew, hnodup⟩ := List.nodup_cons.1 hnodup
    rw [List.foldl_cons, ih hnodup, State.grp?_updGrp, List.map_cons]
    by_cases hk : e.1 = k
    · subst hk
      rw [if_neg hnew, if_pos rfl, if_pos List.mem_cons_self]
    · simp only [if_neg hk, List.mem_cons, Ne.symm hk, false_or]

/-! ### The barrier (R181) -/

/-- What arriving makes of the team's mask. -/
def arrivedMask (s : State) (g : Group) : BitVec 16 := (s.team g.gang g.team).barMask ||| BitVec.ofNat 16 (2 ^ g.grp)

/-- The arrival alone. -/
def arrived (s : State) (g : Group) : State := s.updTeam g.gang g.team fun t => { t with barMask := t.barMask ||| BitVec.ofNat 16 (2 ^ g.grp) }

theorem arrivedMask_ne_zero {s : State} {g : Group} (hgrp : g.grp < 16) : arrivedMask s g ≠ 0 := by
  intro hzero
  have hbit : (arrivedMask s g).getLsbD g.grp = true := by
    rw [arrivedMask, BitVec.getLsbD_or, BitVec.getLsbD_ofNat, Nat.testBit_two_pow_self, decide_eq_true hgrp]
    exact Bool.or_true _
  rw [hzero] at hbit
  exact absurd (BitVec.getLsbD_zero.symm.trans hbit) (by decide)

theorem holdsBack_iff (mask : BitVec 16) (g : Group) :
    holdsBack mask g = true ↔ g.live ≠ 0 ∧ (mask.getLsbD g.grp = false ∨ g.inCallee = true) := by
  simp [holdsBack]

/-- Each lane of a group that waits at TBAR passes it. -/
theorem passTbar_eq (g : Group) :
    g.passTbar = { g with lanes := g.lanes.map fun x => if x.st = .tbar then { x with pc := nextPc x.pc, st := .run, wait := 0 } else x } := by
  have hmap : ∀ (f : Lane → Lane) (i : Nat) (xs : List Lane), mapFrom (fun _ => f) i xs = xs.map f := by
    intro f i xs
    induction xs generalizing i with
    | nil => rfl
    | cons x xs ih => exact congrArg (f x :: ·) (ih (i + 1))
  exact congrArg (fun lanes => { g with lanes := lanes }) (hmap _ 0 g.lanes)

section
variable {s : State} {g : Group} (hteam : g.team < (mget ({} : Gang) s.gangs g.gang).teams.length)
include hteam

theorem barMask_arrived : ((arrived s g).team g.gang g.team).barMask = arrivedMask s g := by
  rw [arrived, team_updTeam hteam, arrivedMask]

/-- While a group holds the barrier back, arriving is all that happens. -/
theorem arrive_held (hheld : ∃ e ∈ s.teamGroups g.gang g.team, holdsBack (arrivedMask s g) e.2 = true) : s.arrive g = arrived s g := by
  change (arrived s g).tbarTest g.gang g.team = _
  unfold State.tbarTest
  dsimp only
  rw [barMask_arrived hteam, if_pos (.inr (List.any_eq_true.2 hheld))]

/-- Else the generation ends and every waiting lane of the team goes on. -/
theorem arrive_complete (hgrp : g.grp < 16) (hfree : ¬ ∃ e ∈ s.teamGroups g.gang g.team, holdsBack (arrivedMask s g) e.2 = true) :
    s.arrive g = (s.teamGroups g.gang g.team).foldl (fun s e => s.updGrp e.1 Group.passTbar)
      ((arrived s g).updTeam g.gang g.team fun t => { t with barMask := 0, barGen := !t.barGen }) := by
  change (arrived s g).tbarTest g.gang g.team = _
  unfold State.tbarTest
  dsimp only
  rw [barMask_arrived hteam, show (arrived s g).teamGroups g.gang g.team = s.teamGroups g.gang g.team from rfl, if_neg (not_or.2 ⟨arrivedMask_ne_zero hgrp, fun h => hfree (List.any_eq_true.1 h)⟩)]

end

/-- No lane waits at TBAR where Active is empty. -/
theorem tbar_of_empty {act : Word} (hact : act = 0) (g : Group) (run : Word) :
    ((g.advance (run &&& ~~~act)).onLanes act fun l => { l with st := .tbar }) = g.advance run := by
  have hid : ∀ (i : Nat) (xs : List Lane), mapFrom (fun l x => if (0 : Word).getLsbD l then { x with st := .tbar } else x) i xs = xs := by
    intro i xs
    induction xs generalizing i with
    | nil => rfl
    | cons x xs ih =>
      rw [mapFrom, ih, show (0 : Word).getLsbD i = false from BitVec.getLsbD_zero]
      rfl
  rw [hact, and_not_zero]
  exact congrArg (fun lanes => { g.advance run with lanes := lanes }) (hid 0 (g.advance run).lanes)

/-- Settles O21: the two instructions from their definitions, and an arrival by whether a group holds the barrier back. -/
theorem teamBarrier : Obligations.TeamBarrier := by
  unfold Obligations.TeamBarrier
  have htbara : ∀ h s, exec (.tbara h) s = execTbara h s := fun _ _ => rfl
  have htbar : ∀ h s, exec (.tbar h) s = execTbar h s := fun _ _ => rfl
  refine ⟨fun h s x hact hcallee => ⟨fun hx => ?_, fun hx => ?_⟩, fun h s x hown => ⟨fun hx => ?_, fun hx => ?_⟩, fun s g => ?_⟩
  · rw [exec_of_go hx (htbara h s), if_neg (by simpa [hcallee] using hact)]
  · rw [exec_of_go hx (htbar h s), if_neg (by simp [hcallee]), if_neg hact]
  · refine ⟨s.updGrp x.gid fun g => g.advance x.run, x.g.advance x.run, ?_, onlyGroup_updGrp s x.gid x.g _ (grp_of_issueOf hx),
      stepped_advance _ _, rfl⟩
    rw [exec_of_go hx (htbara h s), if_pos (by simpa using hown)]
  · refine ⟨s.updGrp x.gid fun g => g.advance x.run, x.g.advance x.run, ?_, onlyGroup_updGrp s x.gid x.g _ (grp_of_issueOf hx),
      stepped_advance _ _, rfl⟩
    rw [exec_of_go hx (htbar h s)]
    split
    next => rfl
    next hcallee =>
      obtain hact := hown.resolve_right hcallee
      rw [if_pos hact, updGrp_congr (f' := fun g => g.advance x.run) (grp_of_issueOf hx) (tbar_of_empty hact x.g x.run)]
  · intro mask inTeam held there passed
    have hheld : (∃ e ∈ s.teamGroups g.gang g.team, holdsBack (arrivedMask s g) e.2 = true) ↔ held := by
      simp only [mem_teamGroups, holdsBack_iff]
      exact exists_congr fun e => and_assoc
    refine ⟨fun hthere hh =>
      (arrive_held hthere.2 (hheld.2 hh)).trans (updTeam_congr rfl), fun hthere hfree => ?_⟩
    obtain ⟨hgrp, hteam⟩ := hthere
    have harrive := arrive_complete hteam hgrp (mt hheld.1 hfree)
    have hnext : ((arrived s g).updTeam g.gang g.team fun t => { t with barMask := 0, barGen := !t.barGen }).team g.gang g.team =
        { (arrived s g).team g.gang g.team with barMask := 0, barGen := !((arrived s g).team g.gang g.team).barGen } :=
      team_updTeam (by rwa [arrived, length_teams_updTeam]) _
    rw [arrived, team_updTeam hteam] at hnext
    rw [harrive]
    refine ⟨?_, ?_, ?_, fun k q hq hnodup => ?_⟩
    · rw [foldl_updGrp_rest]
      rfl
    · rw [State.team, foldl_updGrp_rest]
      exact congrArg Team.barMask hnext
    · rw [State.team, foldl_updGrp_rest]
      exact congrArg Team.barGen hnext
    · have hkeys : ((s.teamGroups g.gang g.team).map (·.1)).Nodup := hnodup.sublist (List.filter_sublist.map _)
      have hgroup := grp?_foldl_updGrp Group.passTbar hkeys
        ((arrived s g).updTeam g.gang g.team fun t => { t with barMask := 0, barGen := !t.barGen }) k
      rw [show ((arrived s g).updTeam g.gang g.team fun t => { t with barMask := 0, barGen := !t.barGen }).grp? k = some q from hq] at hgroup
      refine ⟨fun hin => ?_, fun hout => ?_⟩
      · rw [hgroup, if_pos ((mem_keys_teamGroups hnodup hq).2 hin), Option.map_some, passTbar_eq]
      · rw [hgroup, if_neg (mt (mem_keys_teamGroups hnodup hq).1 hout)]

end Sys2Proof.Machine
end

section
/-! The proof of `Obligations.RegisterWindow` (R130–R132). -/

namespace Sys2Proof.Machine

/-! ### A predicate set in every lane -/

theorem setPredAll_rest (g : Group) (k : Nat) (b : Bool) : g.setPredAll k b = { g with p := (g.setPredAll k b).p } := by
  unfold Group.setPredAll Group.setPredBits
  split <;> rfl

theorem setPredAll_lanes (g : Group) (k : Nat) (b : Bool) : (g.setPredAll k b).lanes = g.lanes :=
  (congrArg Group.lanes (setPredAll_rest g k b)).trans rfl

theorem setPredAll_block (g : Group) (k : Nat) (b : Bool) : (g.setPredAll k b).block = g.block :=
  (congrArg Group.block (setPredAll_rest g k b)).trans rfl

theorem pBit_setPredAll (g : Group) (k : Nat) (b : Bool) (j l : Nat) (hl : l < 32) :
    pBit (g.setPredAll k b) j l = if j = k ∧ k < 15 then b else pBit g j l := by
  unfold Group.setPredAll
  rw [pBit_setPredBits _ _ _ _ _ _ hl]
  have hones : (BitVec.allOnes 32).getLsbD l = true := by rw [BitVec.getLsbD_allOnes, decide_eq_true hl]
  simp only [hones, and_true]
  cases b with
  | false => simp
  | true => simp only [if_true, hones]

/-- A predicate is one of the group's fields that no lane holds. -/
theorem pBit_advance (g : Group) (run : Word) (k l : Nat) : pBit (g.advance run) k l = pBit g k l := rfl

/-! ### Granules (R128, R131) -/

/-- The numbers below `m` that are not in a list are at least `m` less its length. -/
theorem length_filter_not_mem (taken : List Nat) (m : Nat) :
    m ≤ ((List.range m).filter fun g => !(taken.contains g)).length + taken.length := by
  have hsplit := List.length_eq_length_filter_add (l := List.range m) fun g => taken.contains g
  have hin : ((List.range m).filter fun g => taken.contains g).length ≤ taken.length :=
    ((List.nodup_range.filter _).subperm fun g hg => List.contains_iff_mem.1 (List.mem_filter.1 hg).2).length_le
  rw [List.length_range] at hsplit
  omega

theorem freshGrans_spec (s : State) (core n : Nat) :
    ((s.freshGrans core n).Nodup ∧ ∀ e ∈ s.freshGrans core n, e < 1024 ∧ e ∉ s.takenGrans core) ∧
      (s.freshGrans core n).length ≤ n ∧ (n + (s.takenGrans core).length ≤ 1024 → (s.freshGrans core n).length = n) := by
  refine ⟨⟨(List.nodup_range.filter _).sublist (List.take_sublist _ _), fun e he => ?_⟩, List.length_take_le _ _, fun hroom => ?_⟩
  · obtain ⟨hlt, hfree⟩ := List.mem_filter.1 (List.mem_of_mem_take he)
    exact ⟨List.mem_range.1 hlt, by simpa using hfree⟩
  · have hfree := length_filter_not_mem (s.takenGrans core) 1024
    exact (List.length_take ..).trans (min_eq_left (by omega))

/-! ### Growing (R130) -/

/-- A granted GROW of a group, field by field. -/
theorem growTo_eq (g : Group) (n pd : Nat) (lanes : Word) (gs : List Nat) : g.growTo n pd lanes gs =
    { (g.advance lanes) with nregs := max g.nregs n, gmap := g.gmap ++ gs, block := .none, p := (g.setPredAll pd true).p } := by
  unfold Group.growTo
  rw [setPredAll_rest]
  unfold Group.setPredAll Group.setPredBits
  split <;> rfl

/-- A GROW that is granted raises the group's window by fresh granules. -/
theorem growTo_grown {s : State} {gid : Nat} {g : Group} (hg : s.grp? gid = some g) (n pd : Nat) (lanes : Word) :
    ∃ g' gs, Grown s (s.growTo gid n pd lanes) gid g n pd lanes g' gs := by
  have heq : s.growTo gid n pd lanes = (s.takeGrans g.core (s.freshGrans g.core ((n - g.nregs) / 8))).updGrp gid fun g' =>
      g'.growTo n pd lanes (s.freshGrans g.core ((n - g.nregs) / 8)) := by
    unfold State.growTo
    rw [hg]
  obtain ⟨hfresh, hamount⟩ := freshGrans_spec s g.core ((n - g.nregs) / 8)
  refine ⟨g.growTo n pd lanes (s.freshGrans g.core ((n - g.nregs) / 8)), s.freshGrans g.core ((n - g.nregs) / 8), ?_⟩
  rw [heq]
  exact {
    rest := rfl
    group := State.grp?_updGrp_same (s := s.takeGrans _ _) hg _
    others := fun j hj => State.grp?_updGrp_other (s := s.takeGrans _ _) (Ne.symm hj) _
    cores := fun c => by
      refine (mget_mput {} s.cores g.core c _).trans ?_
      by_cases hc : g.core = c
      · rw [if_pos hc, if_pos hc.symm, hc]
      · rw [if_neg hc, if_neg (Ne.symm hc)]
        rfl
    fresh := hfresh
    amount := hamount
    nregs := by rw [growTo_eq]
    gmap := by rw [growTo_eq]
    block := by rw [growTo_eq]
    preds := fun k l hl => by
      rw [growTo_eq]
      exact pBit_setPredAll g pd true k l hl
    stepped := by
      exact stepped_of _ _ _ (setPredAll_lanes _ _ _)
    zero := fun hzero k l hk => by
      rw [growTo_eq]
      exact hzero k l hk
    group_rest := by
      rw [growTo_eq]
      rfl }

/-- The granules that the older requests still need are added to those of the new one. -/
theorem foldl_granules (ws : List (Nat × Nat × Nat × Nat)) (need : Nat) :
    ws.foldl (fun k e => k + e.2.1) need = need + (ws.map fun e => e.2.1).sum := by
  induction ws generalizing need with
  | nil => rfl
  | cons w ws ih => rw [List.foldl_cons, ih, List.map_cons, List.sum_cons, Nat.add_assoc]

/-! ### Lowering the window (R130) -/

theorem mfind_filter_key {α : Type} (p : Nat → Bool) (m : Map α) (k : Nat) :
    mfind (m.filter fun e => p e.1) k = if p k then mfind m k else none := by
  induction m with
  | nil => split <;> rfl
  | cons e m ih =>
    rw [List.filter_cons]
    by_cases hk : e.1 = k
    · subst hk
      by_cases hp : p e.1 = true
      · rw [if_pos hp, if_pos hp]
        simp [mfind]
      · rw [if_neg hp, ih, if_neg hp, if_neg hp]
    · have hskip : mfind (e :: m) k = mfind m k := if_neg hk
      rw [hskip, ← ih]
      split
      next => exact if_neg hk
      next => rfl

/-- What stands above the window is lost, and nothing below it. -/
theorem vReg_filter (g : Group) (n k l : Nat) (hl : l < 32) :
    vReg { g with v := g.v.filter fun e => e.1 < 32 * n } k l = if k < n then vReg g k l else 0 := by
  have hfind := mfind_filter_key (fun key => decide (key < 32 * n)) g.v (32 * k + l)
  simp only [vReg, mget, hfind, decide_eq_true_eq, show 32 * k + l < 32 * n ↔ k < n by omega]
  split <;> rfl

/-! ### Refusing (R131, R132) -/

/-- A refused GROW.try clears its predicate and goes on. -/
theorem refuseGrow_try {s : State} {gid n p : Nat} {g : Group} {lanes : Word} {since : Nat} (hg : s.grp? gid = some g)
    (hblock : g.block = .grow n false p lanes since) (hcall : g.gcall = none) :
    s.refuseGrow gid = s.updGrp gid fun g => (({ g with block := .none }).setPredAll p false).advance lanes := by
  simp only [State.refuseGrow, hg, hcall, hblock]

/-- A refused GROW.must traps where it stands. -/
theorem refuseGrow_must {s : State} {gid n p : Nat} {g : Group} {lanes : Word} {since : Nat} (hg : s.grp? gid = some g)
    (hblock : g.block = .grow n true p lanes since) (hcall : g.gcall = none) :
    s.refuseGrow gid = (s.updGrp gid fun g => { g with block := .none }).queueTrap gid (s.lateTrap g 0x09 lanes) := by
  simp only [State.refuseGrow, hg, hcall, hblock]

/-! ### The register deadlock (R132) -/

/-- Every lane of a live group that has not exited waits in TBAR. -/
theorem inTbar_iff {g : Group} (hlive : g.live ≠ 0) : g.inTbar = true ↔ ∀ l, l < 32 → (g.lane l).st = .exited ∨ (g.lane l).st = .tbar := by
  have hzero : g.inTbar = true ↔ g.live &&& ~~~(g.lanesWhere fun x => x.st == .tbar) = 0 := by
    simp only [Group.inTbar, Bool.and_eq_true, bne_iff_ne, beq_iff_eq]
    exact and_iff_right hlive
  rw [hzero, word_eq_zero_iff]
  refine forall_congr' fun l => ?_
  by_cases hl : l < 32
  · rw [BitVec.getLsbD_and, BitVec.getLsbD_not, Group.live, mem_lanesWhere _ _ _ hl, mem_lanesWhere _ _ _ hl]
    by_cases hex : (g.lane l).st = .exited <;> simp [hl, hex]
  · simp [hl, BitVec.getLsbD_of_ge _ _ (Nat.le_of_not_lt hl)]

/-- What a deadlock needs: every live group of the core waits for its GROW or in TBAR. -/
theorem stuck_iff (s : State) (core : Nat) :
    ((s.coreGroups core).filter fun e => e.2.live != 0).all (fun e => (s.wants e.1 e.2).isSome || e.2.inTbar) = true ↔
      ∀ e ∈ s.groups, e.2.core = core → e.2.isSeq = false → s.resident e.2 = true → e.2.live ≠ 0 →
        (s.wants e.1 e.2).isSome = true ∨ ∀ l, l < 32 → (e.2.lane l).st = .exited ∨ (e.2.lane l).st = .tbar := by
  simp only [List.all_eq_true, List.mem_filter, State.coreGroups, Bool.and_eq_true, beq_iff_eq, Bool.not_eq_true', bne_iff_ne,
    Bool.or_eq_true]
  constructor
  · intro h e he hcore hseq hres hlive
    exact (h e ⟨⟨he, ⟨hcore, hseq⟩, hres⟩, hlive⟩).imp_right (inTbar_iff hlive).1
  · rintro h e ⟨⟨he, ⟨hcore, hseq⟩, hres⟩, hlive⟩
    exact (h e he hcore hseq hres hlive).imp_right (inTbar_iff hlive).2

/-- Some request is the oldest, unless there is none. -/
theorem oldest_eq_none {ws : List (Nat × Nat × Nat × Nat)} (h : oldest ws = none) : ws = [] := by
  cases ws with
  | nil => rfl
  | cons w ws =>
    unfold oldest at h
    split at h
    next => split at h <;> cases h
    next => cases h

/-- One round of the check. -/
theorem deadlockCheck_succ (s : State) (core n : Nat) : s.deadlockCheck core (n + 1) =
    if ((s.coreGroups core).filter fun e => e.2.live != 0).all (fun e => (s.wants e.1 e.2).isSome || e.2.inTbar) = true then
      match oldest (s.growWaits core), youngest (s.growWaits core) with
      | some o, some y => if s.grantable core o then s else (s.refuseGrow y.1).deadlockCheck core n
      | _, _ => s
    else s := rfl

theorem oldest_spec {ws : List (Nat × Nat × Nat × Nat)} {e : Nat × Nat × Nat × Nat} (h : oldest ws = some e) :
    e ∈ ws ∧ ∀ w ∈ ws, e.2.2.2 ≤ w.2.2.2 := by
  induction ws generalizing e with
  | nil => cases h
  | cons w ws ih =>
    unfold oldest at h
    split at h
    next o ho =>
      obtain ⟨hmem, hle⟩ := ih ho
      split at h
      next hlt =>
        obtain rfl := Option.some.inj h
        exact ⟨List.mem_cons_of_mem _ hmem, List.forall_mem_cons.2 ⟨le_of_lt hlt, hle⟩⟩
      next hge =>
        obtain rfl := Option.some.inj h
        exact ⟨List.mem_cons_self, List.forall_mem_cons.2 ⟨le_rfl, fun x hx => (Nat.le_of_not_lt hge).trans (hle x hx)⟩⟩
    next ho =>
      obtain rfl := Option.some.inj h
      obtain rfl := oldest_eq_none ho
      exact ⟨List.mem_cons_self, List.forall_mem_cons.2 ⟨le_rfl, fun x hx => absurd hx List.not_mem_nil⟩⟩

/-- Some request is the youngest, unless there is none. -/
theorem youngest_eq_none {ws : List (Nat × Nat × Nat × Nat)} (h : youngest ws = none) : ws = [] := by
  cases ws with
  | nil => rfl
  | cons w ws =>
    unfold youngest at h
    split at h
    next => split at h <;> cases h
    next => cases h

theorem youngest_spec {ws : List (Nat × Nat × Nat × Nat)} {e : Nat × Nat × Nat × Nat} (h : youngest ws = some e) :
    e ∈ ws ∧ ∀ w ∈ ws, w.2.2.2 ≤ e.2.2.2 := by
  induction ws generalizing e with
  | nil => cases h
  | cons w ws ih =>
    unfold youngest at h
    split at h
    next o ho =>
      obtain ⟨hmem, hle⟩ := ih ho
      split at h
      next hlt =>
        obtain rfl := Option.some.inj h
        exact ⟨List.mem_cons_of_mem _ hmem, List.forall_mem_cons.2 ⟨hlt, hle⟩⟩
      next hge =>
        obtain rfl := Option.some.inj h
        exact ⟨List.mem_cons_self, List.forall_mem_cons.2 ⟨le_rfl, fun x hx => (hle x hx).trans (le_of_lt (Nat.lt_of_not_le hge))⟩⟩
    next ho =>
      obtain rfl := Option.some.inj h
      obtain rfl := youngest_eq_none ho
      exact ⟨List.mem_cons_self, List.forall_mem_cons.2 ⟨le_rfl, fun x hx => absurd hx List.not_mem_nil⟩⟩

/-! ### The statement -/

/-- Settles O22, by what each of the two instructions and the two events does, and by one round of the deadlock check. -/
theorem registerWindow : Obligations.RegisterWindow := by
  unfold Obligations.RegisterWindow
  refine ⟨fun h must p imm s x => ⟨fun hx => ⟨fun hact => ?_, fun hact hroom => ?_, fun hact hmore hshort => ?_⟩, fun hx => ?_⟩,
    fun s core gid n p g must lanes since hg hblock hcall => ⟨fun hcore hold hroom => ?_, ?_, ?_, ?_⟩,
    fun s core n => ⟨fun hnot => ?_, fun hnone => ?_, fun o ho hgrant => ?_, fun o y hstuck ho hy hno => ?_,
      fun ws e => oldest_spec, fun ws e => youngest_spec⟩⟩
  · have hexec : exec (.grow h must p imm) s = execGrow h must p imm s := rfl
    have heffect := exec_of_go hx hexec
    rw [if_pos hact] at heffect
    exact ⟨_, _, heffect, onlyGroup_updGrp s x.gid x.g _ (grp_of_issueOf hx), stepped_advance _ _, rfl⟩
  · have hexec : exec (.grow h must p imm) s = execGrow h must p imm s := rfl
    have heffect := exec_of_go hx hexec
    have hgranted : imm.toNat ≤ x.g.nregs ∨ (s.growWaits x.g.core).foldl (fun k e => k + e.2.1) ((imm.toNat - x.g.nregs) / 8) ≤
        s.freeGranules x.g.core := by rwa [foldl_granules]
    rw [if_neg hact, if_pos hgranted] at heffect
    obtain ⟨g', gs, hgrown⟩ := growTo_grown (grp_of_issueOf hx) imm.toNat p x.run
    exact ⟨_, g', gs, heffect, hgrown⟩
  · have hexec : exec (.grow h must p imm) s = execGrow h must p imm s := rfl
    have heffect := exec_of_go hx hexec
    have hrefused : ¬ (imm.toNat ≤ x.g.nregs ∨ (s.growWaits x.g.core).foldl (fun k e => k + e.2.1) ((imm.toNat - x.g.nregs) / 8) ≤
        s.freeGranules x.g.core) := by
      rw [foldl_granules]
      exact not_or.2 ⟨Nat.not_le.2 hmore, Nat.not_le.2 hshort⟩
    rwa [if_neg hact, if_neg hrefused] at heffect
  · have hexec : exec (.shrink h imm) s = execShrink h imm s := rfl
    refine ⟨_, _, exec_of_go hx hexec, onlyGroup_updGrp s x.gid x.g _ (grp_of_issueOf hx), stepped_of _ _ _ ?_, ?_⟩
    · dsimp only
      split <;> rfl
    · by_cases hkept : x.act = 0 ∨ imm.toNat ≥ x.g.nregs
      · simp only [if_pos hkept]
        rfl
      · simp only [if_neg hkept]
        exact ⟨rfl, rfl, fun k l hl => vReg_filter x.g imm.toNat k l hl, rfl⟩
  · have hgrantable : s.grantable core (gid, (n - g.nregs) / 8, 0, since) = true := by
      simp [State.grantable, hroom]
    obtain ⟨g', gs, hgrown⟩ := growTo_grown hg n p lanes
    refine ⟨_, g', gs, ?_, hgrown⟩
    change execGrowGrant core s = _
    simp only [execGrowGrant, hold, hg, hblock, hgrantable, if_true]
  · rintro rfl hres hlate
    change execGrowTimeout gid s = _
    simp only [execGrowTimeout, hg, hblock, hres, decide_eq_true hlate, Bool.and_self, if_true]
  · rintro rfl
    rw [refuseGrow_try hg hblock hcall]
    refine ⟨_, onlyGroup_updGrp s gid g _ hg, stepped_of _ _ _ (setPredAll_lanes _ _ _), ?_, fun k l hl => ?_, ?_⟩
    · exact setPredAll_block _ _ _
    · exact pBit_setPredAll _ p false k l hl
    · rw [setPredAll_rest]
      rfl
  · rintro rfl
    exact ⟨_, refuseGrow_must hg hblock hcall, rfl, rfl, rfl, rfl⟩
  · cases n with
    | zero => rfl
    | succ n => exact if_neg (mt (stuck_iff s core).1 hnot)
  · cases n with
    | zero => rfl
    | succ n =>
      rw [deadlockCheck_succ, hnone]
      exact ite_self s
  · cases n with
    | zero => rfl
    | succ n =>
      rw [deadlockCheck_succ, ho]
      cases youngest (s.growWaits core) with
      | none => exact ite_self s
      | some y =>
        dsimp only
        rw [if_pos hgrant]
        exact ite_self s
  · rw [deadlockCheck_succ, ho, hy, if_pos ((stuck_iff s core).2 hstuck)]
    exact if_neg (by rw [hno]; decide)

end Sys2Proof.Machine
end

section
/-! The proof of `Obligations.SoftwareTraps` (R188, R192). -/

namespace Sys2Proof.Machine

/-- A trap of lanes that run no handler, while fewer than eight are queued, joins the queue (R188). -/
theorem queueTrap_queued {s : State} {gid : Nat} {g : Group} {t : TrapRec} (hg : s.grp? gid = some g) (hseq : g.isSeq = false)
    (hdouble : g.doubleTrap t = false) (hroom : g.trapq.length < 8) : s.queueTrap gid t = s.updGrp gid fun g =>
      { g with trapq := g.trapq ++ [{ t with depth := g.trapq.length + 1 }], trTraps := g.trTraps + 1 } := by
  simp [State.queueTrap, hg, hseq, hdouble, Nat.not_le.2 hroom]

/-- A ninth trap is not taken. -/
theorem queueTrap_full {s : State} {gid : Nat} {g : Group} {t : TrapRec} (hg : s.grp? gid = some g) (hseq : g.isSeq = false)
    (hdouble : g.doubleTrap t = false) (hfull : 8 ≤ g.trapq.length) : s.queueTrap gid t = s := by
  simp [State.queueTrap, hg, hseq, hdouble, hfull]

/-- A trap of the lanes that run a handler, outside a gate callee, holds the group (R192). -/
theorem queueTrap_double {s : State} {gid : Nat} {g : Group} {t : TrapRec} (hg : s.grp? gid = some g) (hseq : g.isSeq = false)
    (hdouble : g.doubleTrap t = true) (hframes : g.frames = []) :
    s.queueTrap gid t = (s.updGrp gid fun g => { g with held := true }).addErr g.ctx (.trap gid t) := by
  have hcallee : g.inCallee = false := by simp [Group.inCallee, Group.callee?, hframes]
  simp only [State.queueTrap, hg, hseq, hdouble, Bool.false_eq_true, if_false, if_true]
  rw [updGrp_congr hg (f' := fun g => { g with held := true }) (by simp [hcallee])]

/-- When a trap is one of the lanes that run the handler in progress. -/
theorem doubleTrap_iff (g : Group) (t : TrapRec) :
    g.doubleTrap t = true ↔ g.hmode = true ∧ ∃ h q, g.trapq = h :: q ∧ t.run &&& h.run ≠ 0 := by
  unfold Group.doubleTrap
  cases g.hmode <;> cases g.trapq <;> simp

/-- A software trap queues its record for the lanes of Active, and the rest of the run advances. -/
theorem softTrap_of_active {x : Issue} (hact : x.act ≠ 0) (cause detail : Nat) (imm : BitVec 32) (s : State) :
    softTrap cause imm.toNat detail x s = (s.updGrp x.gid (fun g => g.advance (x.run &&& ~~~x.act))).queueTrap x.gid
      { cause := cause, mask := x.act, pc := x.pc, addr := 0, regt := BitVec.ofNat 64 (s.regtime x.g), code := imm, word0 := x.word0,
        run := x.act, detail := BitVec.ofNat 32 detail } := by
  have hcode : BitVec.ofNat 32 imm.toNat = imm := by rw [BitVec.ofNat_toNat, BitVec.setWidth_eq]
  rw [softTrap, if_neg hact, Issue.trap, hcode]
  rfl

/-- With an empty Active it advances the run. -/
theorem softTrap_of_empty {x : Issue} (hact : x.act = 0) (cause code detail : Nat) (s : State) :
    softTrap cause code detail x s = s.updGrp x.gid fun g => g.advance x.run := by
  rw [softTrap, if_pos hact, hact, and_not_zero]

/-- Settles O23: the two instructions by their one effect, and a queued trap by whether its lanes run a handler and by its place. -/
theorem softwareTraps : Obligations.SoftwareTraps := by
  unfold Obligations.SoftwareTraps
  have htrap : ∀ h imm s, exec (.trap h imm) s = execTrap h imm s := fun _ _ _ => rfl
  have hbrk : ∀ h imm s, exec (.brk h imm) s = execBrk h imm s := fun _ _ _ => rfl
  refine ⟨fun h imm s x hact => ⟨fun hx => ?_, fun hx => ?_⟩, fun h imm s x hact => ⟨fun hx => ?_, fun hx => ?_⟩,
    fun s gid g t hg hseq => ?_⟩
  · rw [exec_of_go hx (htrap h imm s), softTrap_of_active hact]
  · rw [exec_of_go hx (hbrk h imm s), softTrap_of_active hact]
  · rw [exec_of_go hx (htrap h imm s), softTrap_of_empty hact]
  · rw [exec_of_go hx (hbrk h imm s), softTrap_of_empty hact]
  · dsimp only
    rw [← doubleTrap_iff, Bool.not_eq_true]
    refine ⟨fun hd hf => queueTrap_double hg hseq hd hf, fun hd hroom => ?_, fun hd hfull => queueTrap_full hg hseq hd hfull⟩
    rw [queueTrap_queued hg hseq hd hroom]
    exact onlyGroup_updGrp s gid g _ hg

end Sys2Proof.Machine
end

section
/-! The proof of `Obligations.TrapHandlers` (R190–R192, R356). -/

namespace Sys2Proof.Machine

/-! ### Taking a trap (R190, R192) -/

section
variable {s : State} {gid : Nat} {g : Group} {t : TrapRec} {q : List TrapRec}

/-- A group outside a gate callee takes a trap at its context's trap entry. -/
theorem trapEntry_of_no_frames (hframes : g.frames = []) : s.trapEntry g = (mget {} s.ctxs g.ctx).trapent := by
  simp [State.trapEntry, Group.callee?, hframes]

/-- A trap that can be delivered sends its RUN lanes to the trap entry. -/
theorem takeTrap_delivered (hg : s.grp? gid = some g) (hq : g.trapq = t :: q) (hmode : g.hmode = false) (hheld : g.held = false)
    (hdbg : g.dbgHeld = false) (hframes : g.frames = [])
    (hfree : ¬ ((t.cause = 2 ∨ t.cause = 3) ∧ (mget {} s.cores g.core).dbg.claim ≠ 0 ∧ (mget {} s.cores g.core).dbg.claim = g.ctx))
    (hentry : (mget {} s.ctxs g.ctx).trapent ≠ 0) : s.takeTrap gid = s.updGrp gid fun g' =>
      { (g'.onLanes t.run fun x => { x with pc := (mget {} s.ctxs g.ctx).trapent, wait := 0 }) with hmode := true } := by
  simp only [State.takeTrap, hg, hheld, hdbg, hmode, hq, trapEntry_of_no_frames hframes, Bool.or_self, Bool.false_eq_true, if_false,
    if_neg hfree, if_neg hentry]

/-- A trap with no entry to go to holds the group and is recorded. -/
theorem takeTrap_undeliverable (hg : s.grp? gid = some g) (hq : g.trapq = t :: q) (hmode : g.hmode = false) (hheld : g.held = false)
    (hdbg : g.dbgHeld = false) (hframes : g.frames = [])
    (hfree : ¬ ((t.cause = 2 ∨ t.cause = 3) ∧ (mget {} s.cores g.core).dbg.claim ≠ 0 ∧ (mget {} s.cores g.core).dbg.claim = g.ctx))
    (hentry : (mget {} s.ctxs g.ctx).trapent = 0) :
    s.takeTrap gid = (s.updGrp gid fun g => { g with held := true }).addErr g.ctx (.trap gid t) := by
  have hcallee : g.inCallee = false := by simp [Group.inCallee, Group.callee?, hframes]
  simp only [State.takeTrap, hg, hheld, hdbg, hmode, hq, trapEntry_of_no_frames hframes, Bool.or_self, Bool.false_eq_true, if_false,
    if_neg hfree, if_pos hentry]
  rw [updGrp_congr hg (f' := fun g => { g with held := true }) (by simp [hcallee])]

end

/-! ### Returning from a handler (R191) -/

/-- Where a lane of the handled trap goes on. -/
def returnLane (g : Group) (t : TrapRec) (how : After) (x : Lane) : Lane :=
  if x.st = .exited || x.st = .gret then x
  else match how with
    | .retry => { x with pc := t.pc, st := .run, wait := 0 }
    | .skip => { x with pc := nextPc t.pc, st := .run, wait := 0 }
    | .stay => x
    | .exit => { x with st := if g.inCallee then .gret else .exited }

/-- The group after its handler has ended. -/
theorem returnTrap_cons {g : Group} {t : TrapRec} {q : List TrapRec} (hq : g.trapq = t :: q) (how : After) :
    g.returnTrap how = { ((g.onLanes t.run (returnLane g t how)).mapLanes fun _ x => { x with wait := 0 }) with
      trapq := q, hmode := false, held := false, dbgHeld := false, once := if how = .retry then onceOf t else none } := by
  unfold Group.returnTrap
  rw [hq]
  rfl

/-- Its lanes: those of RUN have been brought back, and every wait starts anew. -/
theorem lane_returnTrap {g : Group} {t : TrapRec} {q : List TrapRec} (hq : g.trapq = t :: q) (how : After) (l : Nat)
    (hl : l < g.lanes.length) : (g.returnTrap how).lane l =
      { (if t.run.getLsbD l then returnLane g t how (g.lane l) else g.lane l) with wait := 0 } := by
  rw [returnTrap_cons hq]
  refine (lane_mapLanes _ _ _ (by rwa [onLanes_lanes_length])).trans ?_
  rw [onLanes_lane _ _ _ _ hl]

theorem length_returnTrap {g : Group} {t : TrapRec} {q : List TrapRec} (hq : g.trapq = t :: q) (how : After) :
    (g.returnTrap how).lanes.length = g.lanes.length := by
  rw [returnTrap_cons hq]
  exact (length_mapFrom _ _ _).trans (onLanes_lanes_length _ _ _)

/-- A lane that has not ended returns to the trap's slot, or to the one after it. -/
theorem returnLane_of_live {g : Group} {t : TrapRec} {x : Lane} (hex : x.st ≠ .exited) (hgret : x.st ≠ .gret) (skip : Bool) :
    returnLane g t (if skip then .skip else .retry) x = { x with pc := if skip then nextPc t.pc else t.pc, st := .run, wait := 0 } := by
  unfold returnLane
  rw [if_neg (by simp [hex, hgret])]
  cases skip <;> rfl

/-! ### Error records (R356) -/

/-- A record takes the next slot of a ring with room. -/
theorem addErr_room {s : State} {ctx : Nat} {c : Ctx} (e : ErrRec) (hc : mfind s.ctxs ctx = some c) (hroom : s.errRoom ctx c = true) :
    s.addErr ctx e = { (s.sendWrite (.entry (errRing ctx) c.errs.length) .store (c.errBase + 64 * (c.errs.length % c.errSlots)) 64
          (leNat (undefinedBytes s.freeCtr 64) ||| 1)) with
        ctxs := mput s.ctxs ctx { c with errs := c.errs ++ [{ what := e, regt := s.now }] }, freeCtr := s.freeCtr + 1 } := by
  simp only [State.addErr, hc, hroom, if_true]

/-- A full ring drops it and counts it. -/
theorem addErr_full {s : State} {ctx : Nat} {c : Ctx} (e : ErrRec) (hc : mfind s.ctxs ctx = some c) (hroom : s.errRoom ctx c = false) :
    (s.addErr ctx e).ctxs = mput s.ctxs ctx { c with errLost := c.errLost + 1 } := by
  simp only [State.addErr, hc, hroom, Bool.false_eq_true, if_false]

/-! ### The statement -/

/-- Settles O24: a delivery by the trap entry, a return lane by lane, and an error record by the room in its ring. -/
theorem trapHandlers : Obligations.TrapHandlers := by
  unfold Obligations.TrapHandlers
  refine ⟨fun s gid g t q hg hq hmode hheld hdbg hframes hfree => ⟨fun hentry => ?_, fun hentry => ?_⟩,
    fun h skip s x t q hx hact => ⟨fun hmode hq => ?_, fun hmode => ?_⟩, fun s ctx c e hc => ⟨fun hroom => ?_, fun hroom => ?_⟩⟩
  · have honly := onlyGroup_updGrp s gid g (fun g' =>
      { (g'.onLanes t.run fun x => { x with pc := (mget {} s.ctxs g.ctx).trapent, wait := 0 }) with hmode := true }) hg
    rw [← takeTrap_delivered hg hq hmode hheld hdbg hframes hfree hentry] at honly
    refine ⟨_, _, rfl, honly, rfl, onLanes_lanes_length _ _ _, fun l hl => onLanes_lane _ _ _ _ hl, ?_⟩
    rw [← hmode]
    rfl
  · exact congrArg Host.Outcome.next (takeTrap_undeliverable hg hq hmode hheld hdbg hframes hfree hentry)
  · have hexec : exec (.tret h skip) s = execTret h skip s := rfl
    have heffect := exec_of_go hx hexec
    rw [if_neg hact, if_pos hmode] at heffect
    refine ⟨_, _, heffect, onlyGroup_updGrp _ _ _ _ (grp_of_issueOf hx), ?_, ?_, ?_, length_returnTrap hq _, fun l hl hrun hex hgret => ?_,
      fun l hl hrun => ?_, ?_⟩
    · rw [returnTrap_cons hq]
    · rw [returnTrap_cons hq]
    · rw [returnTrap_cons hq]
    · rw [lane_returnTrap hq _ l hl, if_pos hrun, returnLane_of_live hex hgret]
    · rw [lane_returnTrap hq _ l hl, hrun]
      rfl
    · rw [returnTrap_cons hq]
      exact ⟨rfl, rfl, rfl, rfl⟩
  · have hexec : exec (.tret h skip) s = execTret h skip s := rfl
    have heffect := exec_of_go hx hexec
    rwa [if_neg hact, if_neg (by simp [hmode])] at heffect
  · rw [addErr_room e hc hroom]
    exact ⟨_, mfind_mput_same _ _ _, rfl, rfl, _, mfind_mput_same _ _ _, _, _, rfl, rfl, rfl, rfl⟩
  · rw [addErr_full e hc hroom]
    exact mfind_mput_same _ _ _

end Sys2Proof.Machine
end

section
/-! The proof of `Obligations.SampleWords` (R100–R110). -/

namespace Sys2Proof

/-- Settles O59: each word is decoded. -/
theorem sampleWords : Obligations.SampleWords := by
  unfold Obligations.SampleWords
  intro h u
  repeat' apply And.intro
  all_goals rfl

end Sys2Proof
end

section
/-! The proof of `Obligations.ResetState` (R3, R64, R231, R350–R353, R373). -/

namespace Sys2Proof.Machine

/-- The reset value of each of the four comparators of a debug unit (R373). -/
theorem comparators_zero {n : Nat} (hn : n < 4) : ([0, 0, 0, 0] : List DWord).getD n 0 = 0 := by
  interval_cases n <;> rfl

/-- Settles O60: a table that lists nothing reads as the reset value of its entries everywhere. -/
theorem resetState : Obligations.ResetState := by
  unfold Obligations.ResetState
  refine ⟨State.reset_memWf, rfl, rfl, rfl, rfl, rfl, rfl, rfl, rfl, rfl, rfl, rfl, rfl, rfl, rfl, rfl, rfl, rfl, rfl, rfl, rfl, fun _ => rfl,
    rfl, rfl, rfl, rfl, rfl, rfl, fun _ _ => ⟨rfl, rfl, rfl⟩, fun _ => ⟨rfl, rfl, rfl, rfl⟩, fun _ => ?slices, fun _ => ⟨rfl, rfl⟩,
    fun _ => ?debug, fun _ => rfl⟩
  case slices => exact ⟨rfl, rfl, rfl, rfl, rfl, rfl, rfl, rfl, rfl, rfl, rfl, fun _ => rfl⟩
  case debug =>
    exact ⟨rfl, rfl, fun n hn => ⟨comparators_zero hn, comparators_zero hn, comparators_zero hn⟩, rfl, rfl, rfl, rfl, rfl, rfl, rfl, rfl⟩

end Sys2Proof.Machine
end

section
/-! The proof of `Obligations.PageWalks`: the level the walk has come to decides how it ends, or leads on. -/

namespace Sys2Proof.Machine

/-- How a walk ends at the entry `e` that level `v` reads. -/
def EndsAt (w : WalkRes) (need : Need) (va : Nat) (v : Level) (e : Nat) : Prop :=
  (bitAt e 0 = false → w = .notPresent) ∧
  (bitAt e 0 = true → badPte v e = true → w = .badEntry v.no) ∧
  (bitAt e 0 = true → badPte v e = false → bitAt e 1 = true →
    if (match need with | .r => bitAt e 2 | .w => bitAt e 3 | .x => bitAt e 4) = true then
      ∃ l, w = .leaf l ∧ l.base = va / 2 ^ v.lo * 2 ^ v.lo ∧ l.size = 2 ^ v.lo ∧
        l.key = (if e / 2 ^ 8 % 4 = 2 then (e / 2 ^ 52 % 512 + 1) * 2 ^ 52 + e / 2 ^ 12 % 2 ^ 40 * 2 ^ 12
          else e / 2 ^ 12 % 2 ^ 40 * 2 ^ 12) ∧ l.lockok = bitAt e 5
    else w = .denied)

theorem permits_leafOf (v : Level) (e addr va : Nat) (need : Need) :
    (leafOf v e addr va).permits need = (match need with | .r => bitAt e 2 | .w => bitAt e 3 | .x => bitAt e 4) := by
  cases need <;> rfl

/-- The walk ends at the level whose entry is no table's. -/
theorem endsAt_of_leafFrom {s : State} {table va : Nat} {u v : Level} {below : List Level} {e addr : Nat} (need : Need)
    (h0 : bitAt e 0 = false → s.leafFrom va table u below = .notPresent)
    (hbad : bitAt e 0 = true → badPte v e = true → s.leafFrom va table u below = .badEntry v.no)
    (hleaf : bitAt e 0 = true → badPte v e = false → bitAt e 1 = true →
      s.leafFrom va table u below = .leaf (leafOf v e addr va)) :
    EndsAt (s.walkFrom va need table u below) need va v e := by
  refine ⟨fun h => by simp [State.walkFrom, h0 h], fun h h' => by simp [State.walkFrom, hbad h h'], fun h h' h1 => ?_⟩
  simp only [State.walkFrom, hleaf h h' h1, ← permits_leafOf v e addr va need]
  split
  · exact ⟨_, rfl, rfl, rfl, rfl, rfl⟩
  · rfl

/-- The walk ends at level `v` as its entry says (R60). -/
theorem endsAt_walkFrom (s : State) (va table : Nat) (need : Need) (v : Level) (below : List Level) :
    EndsAt (s.walkFrom va need table v below) need va v (s.readMem (table + 8 * bits va v.lo v.w) 8) := by
  refine endsAt_of_leafFrom (addr := table + 8 * bits va v.lo v.w) need (fun h => ?_) (fun h h' => ?_) (fun h h' h1 => ?_)
  · cases below <;> simp [State.leafFrom, h]
  · cases below <;> simp [State.leafFrom, h, h']
  · cases below <;> simp [State.leafFrom, h, h', h1]

/-- A table entry above level 1 does not name a 64 KiB table: it would be malformed. -/
theorem bit11_of_table {v : Level} {e : Nat} (hv : v.no ≠ 1) (hbad : badPte v e = false) : bitAt e 11 = false := by
  by_contra h
  simp [badPte, hv, Bool.not_eq_false _ ▸ h] at hbad

section
variable {s : State} {va table e : Nat} {v n : Level} {rest : List Level}

/-- A table entry leads on to the next level's table. -/
theorem walkFrom_table (need : Need) (he : s.readMem (table + 8 * bits va v.lo v.w) 8 = e)
    (ht : bitAt e 0 = true ∧ bitAt e 1 = false ∧ badPte v e = false) (h11 : bitAt e 11 = false) :
    s.walkFrom va need table v (n :: rest) = s.walkFrom va need (bits e 12 40 * 2 ^ 12) n rest := by
  obtain ⟨h0, h1, hbad⟩ := ht
  have h : s.leafFrom va table v (n :: rest) = s.leafFrom va (bits e 12 40 * 2 ^ 12) n rest := by
    rw [State.leafFrom]
    simp [he, h0, h1, hbad, h11]
  simp only [State.walkFrom, h]

/-- An entry of level 1 that names a 64 KiB table leads to an entry of that table, which ends the walk. -/
theorem endsAt_walkFrom_64 (need : Need) (he : s.readMem (table + 8 * bits va v.lo v.w) 8 = e)
    (ht : bitAt e 0 = true ∧ bitAt e 1 = false ∧ badPte v e = false) (h11 : bitAt e 11 = true) :
    EndsAt (s.walkFrom va need table v (n :: rest)) need va level64
      (s.readMem (bits e 12 40 * 2 ^ 12 + 8 * bits va level64.lo level64.w) 8) := by
  obtain ⟨h0, h1, hbad⟩ := ht
  refine endsAt_of_leafFrom (addr := bits e 12 40 * 2 ^ 12 + 8 * bits va level64.lo level64.w)
    need (fun h => ?_) (fun h h' => ?_) (fun h h' _ => ?_)
  · simp [State.leafFrom, -Nat.reducePow, he, h0, h1, hbad, h11, h]
  · simp [State.leafFrom, -Nat.reducePow, he, h0, h1, hbad, h11, h, h']
  · simp [State.leafFrom, -Nat.reducePow, he, h0, h1, hbad, h11, h, h']

end

/-- Settles O34: each level's entry ends the walk or leads to the next level's table. -/
theorem pageWalks : Obligations.PageWalks := by
  intro s ctx va need e4 e3 e2 e1 i pa a4 a3 a2 a1 table ends
  refine ⟨endsAt_walkFrom s va.toNat _ need level4 _, fun he4 h4 => ?_⟩
  have w4 : s.walk ctx va need = s.walkFrom va.toNat need (pa e4) level3 [level2, level1, level0] :=
    walkFrom_table need he4 h4 (bit11_of_table (by decide) h4.2.2)
  simp only [ends, w4]
  refine ⟨endsAt_walkFrom s va.toNat _ need level3 _, fun he3 h3 => ?_⟩
  have w3 : s.walkFrom va.toNat need (pa e4) level3 [level2, level1, level0] =
      s.walkFrom va.toNat need (pa e3) level2 [level1, level0] :=
    walkFrom_table need he3 h3 (bit11_of_table (by decide) h3.2.2)
  rw [w3]
  refine ⟨endsAt_walkFrom s va.toNat _ need level2 _, fun he2 h2 => ?_⟩
  have w2 : s.walkFrom va.toNat need (pa e3) level2 [level1, level0] =
      s.walkFrom va.toNat need (pa e2) level1 [level0] :=
    walkFrom_table need he2 h2 (bit11_of_table (by decide) h2.2.2)
  rw [w2]
  refine ⟨endsAt_walkFrom s va.toNat _ need level1 _, fun he1 h1 => ⟨fun h11 => ?_, fun h11 => ?_⟩⟩
  · have w1 : s.walkFrom va.toNat need (pa e2) level1 [level0] = s.walkFrom va.toNat need (pa e1) level0 [] :=
      walkFrom_table need he1 h1 h11
    rw [w1]
    exact endsAt_walkFrom s va.toNat _ need level0 _
  · exact endsAt_walkFrom_64 need he1 h1 h11

end Sys2Proof.Machine
end

section
/-! The proof of `Obligations.OperationsCounted`, and what issuing an operation of a group does (R15, R16). -/

namespace Sys2Proof.Machine

/-! ### Operations are counted at issue -/

/-- What an operation of a group is held as. -/
def opOf (g : Group) (gid : Nat) (k : Cls) (kind : OpKind) : Op :=
  { gid := gid, cls := some k, pos := (g.cnt.get k).next, ctx := g.ctx, cluster := g.cluster, core := g.core, kind := kind }

theorem addOp_some {s : State} {gid : Nat} {g : Group} (hg : s.grp? gid = some g) (k : Cls) (kind : OpKind) :
    s.addOp gid (some k) kind =
      ({ s with nextId := s.nextId + 1, ops := mput s.ops s.nextId (opOf g gid k kind) }).updGrp gid (fun g => g.count k) := by
  unfold State.addOp
  rw [hg]
  rfl

theorem grp?_addOp {s : State} {gid : Nat} {g : Group} (hg : s.grp? gid = some g) (k : Cls) (kind : OpKind) :
    (s.addOp gid (some k) kind).grp? gid = some (g.count k) := by
  rw [addOp_some hg]
  exact State.grp?_updGrp_same hg _

theorem grp?_addOp_other {s : State} {gid j : Nat} {g : Group} (hg : s.grp? gid = some g) (hj : j ≠ gid) (k : Cls) (kind : OpKind) :
    (s.addOp gid (some k) kind).grp? j = s.grp? j := by
  rw [addOp_some hg]
  exact State.grp?_updGrp_other (Ne.symm hj) _

/-- An operation that is issued is counted, and the run advances. -/
theorem counted_addOp {s : State} {x : Issue} (hg : s.grp? x.gid = some x.g) (k : Cls) (kind : OpKind) :
    Counted s (x.done (s.addOp x.gid (some k) kind) id) x k kind ((x.g.count k).advance x.run) where
  op := by rw [addOp_some hg]; exact mfind_mput_same _ _ _
  ops j hj := by rw [addOp_some hg]; exact mfind_mput_other _ _ (Ne.symm hj)
  next := by rw [addOp_some hg]; rfl
  rest := by rw [addOp_some hg]; rfl
  group := State.grp?_updGrp_same (grp?_addOp hg k kind) _
  others j hj := (State.grp?_updGrp_other (Ne.symm hj) _).trans (grp?_addOp_other hg hj k kind)
  count := rfl
  stepped := stepped_of x.g (x.g.count k) x.run rfl
  group_rest := rfl

/-! ### Operations leave their counter in the order of issue -/

/-- Nothing leaves a counter whose oldest operation has not completed. -/
theorem drain_of_even {c : Counter} (h : c.win.getLsbD 0 = false) (k : Nat) : c.drain k = c := by
  cases k with
  | zero => rfl
  | succ k => rw [Counter.drain, h]; rfl

/-- The oldest operation leaves once it has completed. -/
theorem drain_succ {n : BitVec 6} {win win' : DWord} (base : Nat) (h : win.getLsbD 0 = true) (hn : n ≠ 0) (hw : win >>> 1 = win')
    (k : Nat) : Counter.drain { n := n, win := win, base := base } (k + 1) =
      Counter.drain { n := n - 1, win := win', base := base + 1 } k := by
  rw [Counter.drain, h, bne_iff_ne.mpr hn, ← hw]
  rfl

theorem finish_base {c : Counter} (hw : c.win = 0) (hn : c.n ≠ 0) : c.finish c.base = { n := c.n - 1, win := 0, base := c.base + 1 } := by
  have h : c.finish c.base = Counter.drain { c with win := 1 } 64 := by simp [Counter.finish, hw]
  rw [h, drain_succ c.base (win' := 0) (by decide) hn (by decide) 63]
  exact drain_of_even (by simp) 63

/-- An operation that completes before an older one waits for it. -/
theorem finish_later {c : Counter} (hw : c.win = 0) {p : Nat} (h1 : c.base < p) :
    c.finish p = { c with win := BitVec.ofNat 64 (2 ^ (p - c.base)) } := by
  have h : c.finish p = Counter.drain { c with win := BitVec.ofNat 64 (2 ^ (p - c.base)) } 64 := by
    simp [Counter.finish, hw, Nat.not_lt.mpr h1.le]
  rw [h]
  refine drain_of_even ?_ 64
  obtain ⟨d, hd⟩ : ∃ d, p - c.base = d + 1 := ⟨p - c.base - 1, by omega⟩
  rw [hd]
  exact BitVec.getLsbD_ofNat .. ▸ by simp [pow_succ]

theorem finish_two {c : Counter} (hw : c.win = 0) (hn : c.n ≠ 0) (hn1 : c.n ≠ 1) :
    (c.finish (c.base + 1)).finish c.base = { n := c.n - 2, win := 0, base := c.base + 2 } := by
  have h : (c.finish (c.base + 1)).finish c.base = Counter.drain { c with win := 3 } 64 := by
    rw [finish_later hw (Nat.lt_succ_self _)]
    simp [Counter.finish]
  have hn' : c.n - 1 ≠ 0 := fun h => hn1 (sub_eq_zero.mp h)
  have h2 : c.n - 1 - 1 = c.n - 2 := by bv_omega
  rw [h, drain_succ c.base (win' := 1) (by decide) hn (by decide) 63,
    drain_succ (c.base + 1) (win' := 0) (by decide) hn' (by decide) 62, h2]
  exact drain_of_even (by simp) 62

/-- Settles O37. -/
theorem operationsCounted : Obligations.OperationsCounted := by
  refine ⟨fun s x k kind hg => ⟨_, counted_addOp hg k kind⟩, fun c hw hn => ⟨?_, fun p h1 _ => ?_, fun hn1 => ?_⟩⟩
  · simp [finish_base hw hn]
  · simp [finish_later hw h1]
  · simp [finish_two hw hn hn1]

end Sys2Proof.Machine
end

section
/-! The proof of `Obligations.MatrixProduct`: a tile's rows are cut apart and packed again (R268), and each element of a product is
that of its own row and column (R96). -/

namespace Sys2Proof.Machine

/-! ### Rows of elements (R268) -/

theorem packRow_lt (w : Nat) (xs : List Nat) : packRow w xs < 2 ^ (w * xs.length) := by
  induction xs with
  | nil => simp [packRow]
  | cons x xs ih =>
    have hx : x % 2 ^ w < 2 ^ w := Nat.mod_lt _ (Nat.two_pow_pos w)
    rw [packRow, List.length_cons, Nat.mul_succ, Nat.add_comm (w * _), pow_add]
    calc x % 2 ^ w + 2 ^ w * packRow w xs < 2 ^ w * (packRow w xs + 1) := by rw [Nat.mul_succ]; omega
      _ ≤ 2 ^ w * 2 ^ (w * xs.length) := Nat.mul_le_mul_left _ ih

theorem elem_packRow (w : Nat) (xs : List Nat) (j : Nat) : elem w (packRow w xs) j = xs.getD j 0 % 2 ^ w := by
  induction xs generalizing j with
  | nil => simp [packRow, elem, bits]
  | cons x xs ih =>
    cases j with
    | zero => simp [packRow, elem, bits]
    | succ j =>
      have hdiv : (x % 2 ^ w + 2 ^ w * packRow w xs) / 2 ^ w = packRow w xs := by
        rw [Nat.add_mul_div_left _ _ (Nat.two_pow_pos w), Nat.div_eq_of_lt (Nat.mod_lt _ (Nat.two_pow_pos w)), Nat.zero_add]
      rw [packRow, elem, bits, Nat.mul_succ, Nat.add_comm (w * j), pow_add, ← Nat.div_div_eq_div_mul, hdiv]
      exact (ih j).trans rfl

@[simp] theorem rowsOf_length (stride n : Nat) (bs : List Byte) : (rowsOf stride n bs).length = n := by
  induction n generalizing bs with
  | zero => rfl
  | succ n ih => simp [rowsOf, ih]

/-- Rows that are written out as bytes are read back. -/
theorem rowsOf_flatMap (stride : Nat) (rs : List Nat) (h : ∀ r ∈ rs, r < 2 ^ (8 * stride)) :
    rowsOf stride rs.length (rs.flatMap (leBytes stride)) = rs := by
  induction rs with
  | nil => rfl
  | cons r rs ih =>
    have hr : r < 256 ^ stride := by simpa [pow_mul] using h r List.mem_cons_self
    rw [List.length_cons, rowsOf, List.flatMap_cons, List.take_left' (leBytes_length _ _), List.drop_left' (leBytes_length _ _),
      ih fun x hx => h x (List.mem_cons_of_mem _ hx), leNat_leBytes, Nat.mod_eq_of_lt hr]

/-! ### The rows of a product -/

section
variable (cw n : Nat) (cell : Nat → Nat → Nat → Nat × Bool)

/-- Row `c` of number `i` after the product. -/
def cellRow (i c : Nat) : Nat := packRow cw (((List.range n).map fun j => cell i j (elem cw c j)).map (·.1))

@[simp] theorem mmaRows_length (i : Nat) (cs : List Nat) : (mmaRows cw n cell i cs).1.length = cs.length := by
  induction cs generalizing i with
  | nil => rfl
  | cons c cs ih => simp [mmaRows, ih]

theorem mmaRows_getD (i0 : Nat) (cs : List Nat) (i : Nat) (hi : i < cs.length) :
    (mmaRows cw n cell i0 cs).1.getD i 0 = cellRow cw n cell (i0 + i) (cs.getD i 0) := by
  induction cs generalizing i0 i with
  | nil => simp at hi
  | cons c cs ih =>
    cases i with
    | zero => rfl
    | succ i =>
      rw [mmaRows, List.getD_cons_succ, List.getD_cons_succ, ih _ _ (by simpa using hi), Nat.add_right_comm, Nat.add_assoc]

theorem cellRow_lt (i c : Nat) : cellRow cw n cell i c < 2 ^ (cw * n) := by
  simpa [cellRow] using packRow_lt cw (((List.range n).map fun j => cell i j (elem cw c j)).map (·.1))

theorem elem_cellRow (i c j : Nat) (hj : j < n) : elem cw (cellRow cw n cell i c) j = (cell i j (elem cw c j)).1 % 2 ^ cw := by
  simp [cellRow, elem_packRow, List.getD_eq_getElem?_getD, hj]

theorem mmaRows_lt (i0 : Nat) (cs : List Nat) : ∀ r ∈ (mmaRows cw n cell i0 cs).1, r < 2 ^ (cw * n) := by
  induction cs generalizing i0 with
  | nil => simp [mmaRows]
  | cons c cs ih =>
    intro r hr
    rw [mmaRows, List.mem_cons] at hr
    obtain rfl | hr := hr
    · exact cellRow_lt cw n cell i0 c
    · exact ih _ r hr

end

/-- A row of C has 512 bytes (Table 17-2). -/
theorem acc_width_mul_n (k : MmaK) : k.acc.width * k.n = 8 * 512 := by cases k <;> rfl

/-- An element of the tile that a product leaves is what its cell makes of the one before. -/
theorem elem_productTile (k : MmaK) (cell : Nat → Nat → Nat → Nat × Bool) (c : List Byte) {i j : Nat} (hi : i < 128) (hj : j < k.n) :
    elem k.acc.width ((rowsOf 512 128 ((mmaRows k.acc.width k.n cell 0 (rowsOf 512 128 c)).1.flatMap (leBytes 512))).getD i 0) j =
      (cell i j (elem k.acc.width ((rowsOf 512 128 c).getD i 0) j)).1 % 2 ^ k.acc.width := by
  have hrows := rowsOf_flatMap 512 (mmaRows k.acc.width k.n cell 0 (rowsOf 512 128 c)).1 fun r hr => by
    have hlt := mmaRows_lt _ _ _ _ _ r hr
    rwa [acc_width_mul_n] at hlt
  rw [mmaRows_length, rowsOf_length] at hrows
  rw [hrows, mmaRows_getD _ _ _ _ _ _ (by rwa [rowsOf_length]), elem_cellRow _ _ _ _ _ _ hj, Nat.zero_add]

/-- A mapped list at a place it holds. -/
theorem getD_map_of_lt {α β : Type} (f : α → β) (xs : List α) (d : β) (e : α) {i : Nat} (hi : i < xs.length) :
    (xs.map f).getD i d = f (xs.getD i e) := by
  simp [List.getD_eq_getElem?_getD, hi]

theorem permOf_none : permOf none = id := rfl

/-- One element of a product without scales, from the rows of A and the columns of B (R96). -/
theorem unscaled_cell (k : MmaK) (as bs : List (List Nat)) {i j : Nat} (c : Nat) (hi : i < as.length) (hj : j < bs.length) :
    let int := k == .i8 && (none : Option (List Byte)).isNone
    let af := if int then [] else as.map (fun r => r.map k.val)
    let bf := if int then [] else bs.map (fun r => r.map k.val)
    (if int then sumInt32 c (dotInt (as.getD i []) (bs.getD j []))
     else (mmaFloat k (af.getD i []) (bf.getD j []) (fun _ => none) c, false)).1 =
      if k = .i8 then (sumInt32 c (dotInt (as.getD i []) (bs.getD j []))).1
      else mmaFloat k ((as.getD i []).map k.val) ((bs.getD j []).map k.val) (fun _ => none) c := by
  intro int af bf
  by_cases hk : k = .i8
  · have hint : int = true := by simp [int, hk]
    rw [if_pos hk, hint, if_pos rfl]
  · have hint : int = false := by simp [int, hk]
    have haf : af = as.map (fun r => r.map k.val) := by simp [af, hint]
    have hbf : bf = bs.map (fun r => r.map k.val) := by simp [bf, hint]
    rw [if_neg hk, hint, if_neg Bool.false_ne_true, haf, hbf, getD_map_of_lt _ _ _ [] hi, getD_map_of_lt _ _ _ [] hj]

/-- Settles O44: the product's element is its cell's, whose row and column are those of the tiles. -/
theorem matrixProduct : Obligations.MatrixProduct := by
  intro k a b c i j hi hj _ _ _ w row col old
  let as := (rowsOf 128 128 a).map fun r => ((List.range k.kt).map (permOf none)).map (elem w r)
  let bs := (List.range k.n).map fun j => ((List.range k.kt).map (permOf none)).map
    fun t => elem w ((rowsOf k.wStride k.kt b).getD t 0) j
  have hrow : as.getD i [] = row := by
    rw [getD_map_of_lt _ _ _ 0 (by rwa [rowsOf_length]), permOf_none, List.map_id]
  have hcol : bs.getD j [] = col := by
    rw [getD_map_of_lt _ _ _ 0 (by simpa using hj), permOf_none, List.map_id]
    simp [col, List.getD_eq_getElem?_getD, hj]
  let int := k == .i8 && (none : Option (List Byte)).isNone
  let af := if int then [] else as.map (fun r => r.map k.val)
  let bf := if int then [] else bs.map (fun r => r.map k.val)
  let cell := fun (i j c : Nat) =>
    if int then sumInt32 c (dotInt (as.getD i []) (bs.getD j []))
    else (mmaFloat k (af.getD i []) (bf.getD j []) (fun _ => none) c, false)
  have htile : (mmaTile k none none a b c).1 = (mmaRows k.acc.width k.n cell 0 (rowsOf 512 128 c)).1.flatMap (leBytes 512) := rfl
  have hcell : (cell i j old).1 = _ := unscaled_cell k as bs old (by simpa [as] using hi) (by simpa [bs] using hj)
  rw [htile, elem_productTile k cell c hi hj, hcell, hrow, hcol]

end Sys2Proof.Machine
end

section
/-! Which operations leave the bytes of memory as they are: those that every access to memory goes through. -/

namespace Sys2Proof.Machine

/-! ### Groups, operations and notifications -/

@[simp] theorem addOp_mem (s : State) (gid : Nat) (cls : Option Cls) (kind : OpKind) : (s.addOp gid cls kind).mem = s.mem := by
  unfold State.addOp
  cases s.grp? gid <;> cases cls <;> rfl

@[simp] theorem endOp_mem (s : State) (id : Nat) : (s.endOp id).mem = s.mem := by
  unfold State.endOp
  cases mfind s.ops id with
  | none => rfl
  | some o => dsimp only; cases o.cls <;> rfl

@[simp] theorem updCore_mem (s : State) (k : Nat) (f : CoreSt → CoreSt) : (s.updCore k f).mem = s.mem := rfl
@[simp] theorem updSlice_mem (s : State) (k : Nat) (f : Slice → Slice) : (s.updSlice k f).mem = s.mem := rfl
@[simp] theorem sendOp_mem (s : State) (o : Op) : (s.sendOp o).mem = s.mem := rfl
@[simp] theorem sendWrite_mem (s : State) (job : Job) (kind : MemKind) (key width data : Nat) :
    (s.sendWrite job kind key width data).mem = s.mem := rfl
@[simp] theorem sendOwn_mem (s : State) (tag : Nat) (m : MemDesc) (as : List Acc) : (s.sendOwn tag m as).mem = s.mem := rfl
@[simp] theorem ringPut_mem (s : State) (k : Nat) (n : Notice) : (s.ringPut k n).mem = s.mem := rfl

@[simp] theorem post_mem (s : State) (k : Nat) (n : Notice) : (s.post k n).mem = s.mem := by
  unfold State.post
  split
  · rfl
  · split <;> rfl

@[simp] theorem notify_mem (s : State) (n : Notice) : (s.notify n).mem = s.mem := post_mem _ _ _

/-! ### Effects of a performed write (R66, R72, R242, R316) -/

@[simp] theorem watchK_mem (s : State) (key width : Nat) : (s.watchK key width).mem = s.mem := by
  unfold State.watchK
  split <;> rfl

@[simp] theorem wakeGroup_mem (s : State) (line gid : Nat) : (s.wakeGroup line gid).mem = s.mem := by
  unfold State.wakeGroup
  split
  · rfl
  · split
    · rfl
    · dsimp only; split <;> rfl

/-- A fold of operations that leave memory as it is leaves it as it is. -/
theorem foldl_mem {α : Type} (f : State → α → State) (h : ∀ s x, (f s x).mem = s.mem) (xs : List α) (s : State) :
    (xs.foldl f s).mem = s.mem := by
  induction xs generalizing s with
  | nil => rfl
  | cons x xs ih => exact (ih _).trans (h s x)

@[simp] theorem fireWake_mem (s : State) (line : Nat) : (s.fireWake line).mem = s.mem := by
  unfold State.fireWake
  split
  · exact foldl_mem _ (fun s (w : Watch) => wakeGroup_mem s line w.gid) _ _
  · rfl

@[simp] theorem recordDirty_mem (s : State) (region : Nat) : (s.recordDirty region).mem = s.mem := by
  unfold State.recordDirty
  split
  · rfl
  · split <;> rfl

/-! ### Performing an access (R66) -/

section
variable (s : State) (key width : Nat) (k : MemKind) (ty : Ty) (data data2 : Nat)

theorem perform_old : (s.perform key width k ty data data2).1 = s.readMem key width := by
  unfold State.perform
  dsimp only
  split <;> rfl

theorem perform_none (h : newValue k ty (s.readMem key width) data data2 = none) :
    (s.perform key width k ty data data2).2 = s := by
  unfold State.perform
  simp only [h]

theorem perform_mem : (s.perform key width k ty data data2).2.mem =
    match newValue k ty (s.readMem key width) data data2 with
    | none => s.mem
    | some x => (s.writeMem key width x).mem := by
  unfold State.perform
  dsimp only
  split
  next h => simp only [h]
  next x h =>
    simp only [h, recordDirty_mem, fireWake_mem, watchK_mem]
    split <;> rfl

end

end Sys2Proof.Machine
end

section
/-! The proof of `Obligations.AccessChecks`: the checks of R198 on the accesses of an instruction. -/

namespace Sys2Proof.Machine

/-! ### The fence of a release (R68, R69) -/

/-- A fence that issues where no delta waits and no push is on its way starts nothing. -/
theorem startFence_of_noDeltas {s : State} {gid : Nat} {g : Group} (hg : s.grp? gid = some g) (h : NoDeltas s g.cluster) (sc : Scope) :
    s.startFence gid sc = s := by
  obtain ⟨hdeltas, hops⟩ := h
  have hpush : s.ops.any (fun e => e.2.cluster == g.cluster && e.2.isPush) = false := by
    rw [List.any_eq_false]
    intro e he
    by_cases hc : e.2.cluster = g.cluster
    · simp [hops e he hc]
    · simp [hc]
  have hnone : s.deltas.filter (fun d => d.cluster == g.cluster) = [] :=
    List.filter_eq_nil_iff.mpr fun d hd => by simpa using hdeltas d hd
  unfold State.startFence
  rw [hg]
  dsimp only
  rw [hpush, if_neg Bool.false_ne_true, State.pushWhere, hnone]
  split <;> rfl

/-! ### The checks of R198 -/

/-- The lanes of an instruction's accesses, with their addresses as numbers. -/
def addrsOf (as : List Acc) : List (Nat × Nat) := as.map (fun a => (a.lane, a.va.toNat))

/-- The accesses of lanes of the run that fail a check. -/
theorem failing_addrsOf (x : Issue) (as : List Acc) (p : Nat → Bool) :
    failing x (addrsOf as) p = addrsOf ((as.filter (fun a => x.run.getLsbD a.lane)).filter (fun a => p a.va.toNat)) := by
  rw [failing, addrsOf, addrsOf, List.filter_map, List.filter_filter]
  rfl

section
variable {s : State} {x : Issue} {m : MemDesc} {align : Nat} {as : List Acc}

theorem memIssue_empty (hact : x.act = 0) : s.memIssue x m align as = s.updGrp x.gid (fun g => g.advance x.run) := by
  rw [State.memIssue, if_pos hact]

/-- A check that fails ends the issue with its trap. -/
theorem memIssue_fails {t : State} (hact : x.act ≠ 0)
    (h : s.checkAddrs x m.kind false (fun v => !canonical (BitVec.ofNat 64 v)) 0x0D align (addrsOf as) = some t) :
    s.memIssue x m align as = t.freeEntry x.gid x.reissue := by
  unfold addrsOf at h
  rw [State.memIssue, if_neg hact]
  simp only [h]

/-- The accesses of an instruction whose lanes pass every check go on as they are: no helper lane among them takes 0 instead. -/
theorem accs_kept (run : Word) (hgood : ∀ a ∈ as, canonical a.va = true ∧ a.va.toNat % align = 0) :
    as.map (fun a =>
      if run.getLsbD a.lane then a
      else if !canonical a.va || a.va.toNat % align != 0 || ([] : List Nat).contains a.lane then { a with st := .done, res := 0 } else a) = as := by
  conv_rhs => rw [← List.map_id as]
  refine List.map_congr_left fun a ha => ?_
  obtain ⟨hc, ho⟩ := hgood a ha
  simp [hc, ho]

section
variable (hact : x.act ≠ 0)
  (hcheck : s.checkAddrs x m.kind false (fun v => !canonical (BitVec.ofNat 64 v)) 0x0D align (addrsOf as) = none)
  (hgood : ∀ a ∈ as, canonical a.va = true ∧ a.va.toNat % align = 0) (hhits : s.wpHits x m.kind false (addrsOf as) = [])
include hact hcheck hgood hhits

/-- Accesses that pass every check and that are no release are sent. -/
theorem memIssue_sends (hord : ¬ (m.ord = .rel ∨ m.ord = .ar)) : s.memIssue x m align as = s.sendMem x.gid m as := by
  unfold addrsOf at hcheck hhits
  rw [State.memIssue, if_neg hact]
  simp only [hcheck, hhits, List.map_nil, if_neg hord]
  rw [accs_kept x.run hgood]

/-- The release's fence has nothing to push: its accesses are sent once it is ready. -/
theorem memIssue_release (hord : m.ord = .rel ∨ m.ord = .ar) (hg : s.grp? x.gid = some x.g) (hdeltas : NoDeltas s x.g.cluster) :
    s.memIssue x m align as =
      if s.fenceReady x.gid x.g m.scope then s.sendMem x.gid m as
      else if m.reissue.isSome then
        s.updGrp x.gid (fun g => { (g.onLanes x.act (fun l => { l with st := .fence })) with fences := g.fences ++ [(x.act, m.scope, some (m, as))] })
      else s.updGrp x.gid (fun g => { g with block := .release m.scope m as }) := by
  unfold addrsOf at hcheck hhits
  rw [State.memIssue, if_neg hact]
  simp only [hcheck, hhits, List.map_nil, if_pos hord, startFence_of_noDeltas hg hdeltas, hg]
  rw [accs_kept x.run hgood]

end

theorem ofNat_toNat_eq (a : DWord) : BitVec.ofNat 64 a.toNat = a := by simp

end

/-! ### Watchpoints (R218) -/

/-- Comparator `n` of a debug unit selects an access of kind `k` to global memory at address `a`, by an instruction at `pc`. -/
def Watched (d : Dbg) (k : MemKind) (once : Option (Nat × DWord)) (pc : DWord) (a n : Nat) : Prop :=
  bitAt (bits d.wpctl (8 * n) 6) 0 = true ∧ (∃ b, k.wpBit = some b ∧ bitAt (bits d.wpctl (8 * n) 6) b = true) ∧
    bitAt (bits d.wpctl (8 * n) 6) 5 = false ∧ (d.wplo.getD n 0).toNat ≤ a ∧ a < (d.wphi.getD n 0).toNat ∧ once ≠ some (4 + n, pc)

/-- The lowest comparator that selects an access, if its kind is tested at all. -/
def hitOf (d : Dbg) (k : MemKind) (once : Option (Nat × DWord)) (pc : DWord) (a : Nat) : Option Nat :=
  k.wpBit.bind fun b => d.wpHit b false once pc a

theorem hitOf_eq_some {d : Dbg} {k : MemKind} {once : Option (Nat × DWord)} {pc : DWord} {a n : Nat} :
    hitOf d k once pc a = some n ↔ n < 4 ∧ Watched d k once pc a n ∧ ∀ j, j < n → ¬ Watched d k once pc a j := by
  unfold hitOf
  cases hk : k.wpBit with
  | none => simp [Watched, hk]
  | some b =>
    have hp : ∀ j, (bitAt (bits d.wpctl (8 * j) 6) 0 && bitAt (bits d.wpctl (8 * j) 6) b && bitAt (bits d.wpctl (8 * j) 6) 5 == false &&
        decide ((d.wplo.getD j 0).toNat ≤ a ∧ a < (d.wphi.getD j 0).toNat) && once != some (4 + j, pc)) = true ↔
        Watched d k once pc a j := fun j => by simp [Watched, hk, and_assoc]
    rw [Option.bind_some, Dbg.wpHit, List.find?_range_eq_some]
    simp only [Bool.not_eq_true', ← Bool.not_eq_true, hp, List.mem_range]
    exact and_left_comm

theorem hitOf_isSome {d : Dbg} {k : MemKind} {once : Option (Nat × DWord)} {pc : DWord} {a : Nat} :
    (∃ n, hitOf d k once pc a = some n) ↔ ∃ n, n < 4 ∧ Watched d k once pc a n := by
  classical
  constructor
  · rintro ⟨n, hn⟩
    obtain ⟨h4, hw, _⟩ := hitOf_eq_some.mp hn
    exact ⟨n, h4, hw⟩
  · intro h
    obtain ⟨h4, hw⟩ := Nat.find_spec h
    exact ⟨Nat.find h, hitOf_eq_some.mpr ⟨h4, hw, fun j hj hwj => Nat.find_min h hj ⟨hj.trans h4, hwj⟩⟩⟩

/-- The hit of an access, as the check lists it. -/
def hitEntry (d : Dbg) (x : Issue) (k : MemKind) (p : Nat × Nat) : Option (Nat × Nat × Nat) :=
  (hitOf d k x.g.once x.pc p.2).map fun n => (p.1, p.2, n)

theorem wpHits_eq (s : State) (x : Issue) (k : MemKind) (ps : List (Nat × Nat)) :
    s.wpHits x k false ps = ps.filterMap (hitEntry (mget {} s.cores x.g.core).dbg x k) := by
  unfold State.wpHits hitEntry hitOf
  cases hk : k.wpBit with
  | none => simp
  | some b =>
    dsimp only
    generalize (mget {} s.cores x.g.core).dbg = d
    split
    next h =>
      have hnone : ∀ a, d.wpHit b false x.g.once x.pc a = none := fun a => by simp [Dbg.wpHit, h, bits, bitAt]
      simp [hnone]
    next => rfl

/-- The hits of lanes of the run. -/
theorem wpHits_filter (s : State) (x : Issue) (k : MemKind) (as : List Acc) :
    (s.wpHits x k false (addrsOf as)).filter (fun h => x.run.getLsbD h.1) =
      (as.filter fun a => x.run.getLsbD a.lane).filterMap
        fun a => hitEntry (mget {} s.cores x.g.core).dbg x k (a.lane, a.va.toNat) := by
  rw [wpHits_eq, addrsOf, List.filterMap_map, List.filter_filterMap, List.filterMap_filter]
  refine List.filterMap_congr fun a _ => ?_
  generalize (mget {} s.cores x.g.core).dbg = d
  cases h : hitOf d k x.g.once x.pc a.va.toNat with
  | none => simp [hitEntry, h]
  | some n => simp [hitEntry, h, Option.filter]

/-- The least of some numbers and 3. -/
theorem foldl_min_three {α : Type} (f : α → Nat) (xs : List α) (n : Nat) :
    xs.foldl (fun n p => min n (f p)) n ≤ n ∧ (∀ p ∈ xs, xs.foldl (fun n p => min n (f p)) n ≤ f p) ∧
      (xs.foldl (fun n p => min n (f p)) n = n ∨ ∃ p ∈ xs, xs.foldl (fun n p => min n (f p)) n = f p) := by
  induction xs generalizing n with
  | nil => simp
  | cons y ys ih =>
    obtain ⟨h1, h2, h3⟩ := ih (min n (f y))
    refine ⟨h1.trans (min_le_left _ _), fun p hp => ?_, ?_⟩
    · rcases List.mem_cons.mp hp with rfl | hp
      · exact h1.trans (min_le_right _ _)
      · exact h2 p hp
    · rw [List.foldl_cons]
      rcases h3 with h3 | ⟨p, hp, h3⟩
      · rcases min_choice n (f y) with hm | hm
        · exact Or.inl (h3.trans hm)
        · exact Or.inr ⟨y, List.mem_cons_self, h3.trans hm⟩
      · exact Or.inr ⟨p, List.mem_cons_of_mem _ hp, h3⟩

/-! ### The trap of a check that fails (Table 12-3) -/

section
variable {s : State} {x : Issue} {m : MemDesc} {align : Nat} {as : List Acc}

/-- The accesses of lanes of the run. -/
def ownAccs (x : Issue) (as : List Acc) : List Acc := as.filter (fun a => x.run.getLsbD a.lane)
/-- Those of them whose address is not canonical, and those whose address is not aligned. -/
def wildAccs (x : Issue) (as : List Acc) : List Acc := (ownAccs x as).filter (fun a => !canonical a.va)
def skewAccs (x : Issue) (align : Nat) (as : List Acc) : List Acc := (ownAccs x as).filter (fun a => a.va.toNat % align != 0)

theorem failing_wild : failing x (addrsOf as) (fun v => !canonical (BitVec.ofNat 64 v)) = addrsOf (wildAccs x as) := by
  rw [failing_addrsOf]
  simp only [ofNat_toNat_eq]
  rfl

theorem failing_skew : failing x (addrsOf as) (fun v => v % align != 0) = addrsOf (skewAccs x align as) := failing_addrsOf x as _

/-- A check's trap for the accesses of some lanes, with the address of the first of them. -/
theorem noLane_addrsOf (cause detail : Nat) (a : Acc) (bs : List Acc) :
    x.noLane s cause ((addrsOf bs).map (·.1)) a.va.toNat detail =
      s.queueTrap x.gid (x.trap s cause (if x.once then x.act &&& x.run else maskOf (bs.map (·.lane))) (x.act &&& x.run) a.va 0 detail) := by
  rw [Issue.noLane, ofNat_toNat_eq, addrsOf, List.map_map]
  rfl

theorem checkAddrs_wild {a : Acc} {r : List Acc} (h : wildAccs x as = a :: r) :
    s.checkAddrs x m.kind false (fun v => !canonical (BitVec.ofNat 64 v)) 0x0D align (addrsOf as) =
      some (s.queueTrap x.gid (x.trap s 0x0D (if x.once then x.act &&& x.run else maskOf ((wildAccs x as).map (·.lane))) (x.act &&& x.run) a.va)) := by
  rw [State.checkAddrs, failing_wild, h]
  exact congrArg some (noLane_addrsOf 0x0D 0 a (a :: r))

theorem checkAddrs_skew {a : Acc} {r : List Acc} (hw : wildAccs x as = []) (h : skewAccs x align as = a :: r) :
    s.checkAddrs x m.kind false (fun v => !canonical (BitVec.ofNat 64 v)) 0x0D align (addrsOf as) =
      some (s.queueTrap x.gid (x.trap s 0x12 (if x.once then x.act &&& x.run else maskOf ((skewAccs x align as).map (·.lane))) (x.act &&& x.run) a.va)) := by
  rw [State.checkAddrs, failing_wild, hw, failing_skew, h]
  exact congrArg some (noLane_addrsOf 0x12 0 a (a :: r))

/-- Where addresses are canonical and aligned, the watchpoints decide. -/
theorem checkAddrs_good (hgood : ∀ a ∈ as, canonical a.va = true ∧ a.va.toNat % align = 0) :
    s.checkAddrs x m.kind false (fun v => !canonical (BitVec.ofNat 64 v)) 0x0D align (addrsOf as) =
      match (ownAccs x as).filterMap (fun a => hitEntry (mget {} s.cores x.g.core).dbg x m.kind (a.lane, a.va.toNat)) with
      | h :: r => some (x.noLane s 0x03 ((h :: r).map (·.1)) h.2.1 ((h :: r).foldl (fun n p => min n p.2.2) 3))
      | [] => none := by
  have hown : ∀ a ∈ ownAccs x as, canonical a.va = true ∧ a.va.toNat % align = 0 := fun a ha => hgood a (List.mem_filter.mp ha).1
  have hwild : wildAccs x as = [] := List.filter_eq_nil_iff.mpr fun a ha => by simp [(hown a ha).1]
  have hskew : skewAccs x align as = [] := List.filter_eq_nil_iff.mpr fun a ha => by simp [(hown a ha).2]
  rw [State.checkAddrs, failing_wild, hwild, failing_skew, hskew, wpHits_filter]
  rfl

/-- An access of global memory is watched. -/
def Hit (s : State) (x : Issue) (k : MemKind) (a : Acc) : Prop :=
  ∃ n, n < 4 ∧ Watched (mget {} s.cores x.g.core).dbg k x.g.once x.pc a.va.toNat n

theorem hitEntry_eq_none {k : MemKind} {a : Acc} :
    hitEntry (mget {} s.cores x.g.core).dbg x k (a.lane, a.va.toNat) = none ↔ ¬ Hit s x k a := by
  rw [Hit, ← hitOf_isSome, hitEntry, Option.map_eq_none_iff, Option.eq_none_iff_forall_ne_some, not_exists]

theorem hitEntry_eq_some {k : MemKind} {a : Acc} {e : Nat × Nat × Nat}
    (h : hitEntry (mget {} s.cores x.g.core).dbg x k (a.lane, a.va.toNat) = some e) :
    e.1 = a.lane ∧ e.2.1 = a.va.toNat ∧ e.2.2 < 4 ∧ Watched (mget {} s.cores x.g.core).dbg k x.g.once x.pc a.va.toNat e.2.2 ∧
      ∀ j, j < e.2.2 → ¬ Watched (mget {} s.cores x.g.core).dbg k x.g.once x.pc a.va.toNat j := by
  obtain ⟨n, hn, rfl⟩ := Option.map_eq_some_iff.mp h
  obtain ⟨h4, hw, hmin⟩ := hitOf_eq_some.mp hn
  exact ⟨rfl, rfl, h4, hw, hmin⟩

/-- A watched access of a lane of the run traps: the first of them gives the address, the lowest comparator of all the detail. -/
theorem memIssue_watch (hact : x.act ≠ 0) (hgood : ∀ a ∈ as, canonical a.va = true ∧ a.va.toNat % align = 0)
    (hhit : ∃ a ∈ ownAccs x as, Hit s x m.kind a) :
    ∃ t us a vs, s.memIssue x m align as = (s.queueTrap x.gid t).freeEntry x.gid x.reissue ∧
      ownAccs x as = us ++ a :: vs ∧ (∀ b ∈ us, ¬ Hit s x m.kind b) ∧ Hit s x m.kind a ∧ t.cause = 0x03 ∧ t.pc = x.pc ∧ t.addr = a.va ∧
      t.run = x.act &&& x.run ∧
      (x.once = false → ∀ l, l < 32 → (t.mask.getLsbD l = true ↔ ∃ b ∈ ownAccs x as, b.lane = l ∧ Hit s x m.kind b)) ∧
      t.detail.toNat < 4 ∧ (∃ b ∈ ownAccs x as, Watched (mget {} s.cores x.g.core).dbg m.kind x.g.once x.pc b.va.toNat t.detail.toNat) ∧
      ∀ n, n < t.detail.toNat → ∀ b ∈ ownAccs x as, ¬ Watched (mget {} s.cores x.g.core).dbg m.kind x.g.once x.pc b.va.toNat n := by
  let entry := fun (a : Acc) => hitEntry (mget {} s.cores x.g.core).dbg x m.kind (a.lane, a.va.toNat)
  have hrun : ∀ a ∈ ownAccs x as, x.run.getLsbD a.lane = true := fun a ha => by simpa using (List.mem_filter.mp ha).2
  have hmem : ∀ e, e ∈ (ownAccs x as).filterMap entry ↔ ∃ a ∈ ownAccs x as, entry a = some e := fun e => by simp
  cases hes : (ownAccs x as).filterMap entry with
  | nil =>
    obtain ⟨a, ha, hit⟩ := hhit
    exact absurd hit (hitEntry_eq_none.mp ((List.filterMap_eq_nil_iff.mp hes) a ha))
  | cons e es =>
    obtain ⟨us, a, vs, hown, hus, hae, -⟩ := List.filterMap_eq_cons_iff.mp hes
    obtain ⟨-, haddr, h4, hwa, -⟩ := hitEntry_eq_some hae
    have hlisted : ∀ p, p ∈ e :: es ↔ ∃ b ∈ ownAccs x as, entry b = some p := fun p => hes ▸ hmem p
    obtain ⟨hle3, hle, heq⟩ := foldl_min_three (fun p : Nat × Nat × Nat => p.2.2) (e :: es) 3
    set least := (e :: es).foldl (fun n p => min n p.2.2) 3 with hleast
    have hdetail : (BitVec.ofNat 32 least).toNat = least := by
      rw [BitVec.toNat_ofNat]
      exact Nat.mod_eq_of_lt (by omega)
    have hissue := memIssue_fails hact ((checkAddrs_good (s := s) (x := x) (m := m) hgood).trans (by rw [show List.filterMap _ _ = e :: es from hes]))
    rw [← hleast, haddr, Issue.noLane, ofNat_toNat_eq] at hissue
    refine ⟨_, us, a, vs, hissue, hown, fun b hb => hitEntry_eq_none.mp (hus b hb), ⟨e.2.2, h4, hwa⟩, rfl, rfl, rfl, rfl,
      fun honce l hl => ?_, ?_, ?_, ?_⟩
    · simp only [Issue.trap, honce, Bool.false_eq_true, if_false]
      rw [mem_maskOf_lt (fun n hn => ?_) hl, List.mem_map]
      · constructor
        · rintro ⟨p, hp, rfl⟩
          obtain ⟨b, hb, hbp⟩ := (hlisted p).mp hp
          obtain ⟨hlane, -, hp4, hwb, -⟩ := hitEntry_eq_some hbp
          exact ⟨b, hb, hlane.symm, _, hp4, hwb⟩
        · rintro ⟨b, hb, rfl, hit⟩
          obtain ⟨p, hp⟩ := Option.ne_none_iff_exists'.mp (fun h => hitEntry_eq_none.mp h hit)
          exact ⟨p, (hlisted p).mpr ⟨b, hb, hp⟩, (hitEntry_eq_some hp).1⟩
      · obtain ⟨p, hp, rfl⟩ := List.mem_map.mp hn
        obtain ⟨b, hb, hbp⟩ := (hlisted p).mp hp
        rw [(hitEntry_eq_some hbp).1]
        by_contra hge
        exact absurd (hrun b hb) (by simp [BitVec.getLsbD_of_ge _ _ (Nat.not_lt.mp hge)])
    · change (BitVec.ofNat 32 least).toNat < 4
      omega
    · obtain ⟨p, hp, hpl⟩ : ∃ p ∈ e :: es, least = p.2.2 := by
        refine heq.elim (fun h => ⟨e, List.mem_cons_self, ?_⟩) id
        have := hle e List.mem_cons_self
        omega
      obtain ⟨b, hb, hbp⟩ := (hlisted p).mp hp
      refine ⟨b, hb, ?_⟩
      change Watched _ _ _ _ _ (BitVec.ofNat 32 least).toNat
      rw [hdetail, hpl]
      exact (hitEntry_eq_some hbp).2.2.2.1
    · intro n hn b hb hwb
      have hn : n < least := lt_of_lt_of_eq hn hdetail
      obtain ⟨p, hp⟩ := Option.ne_none_iff_exists'.mp (fun h => hitEntry_eq_none.mp h ⟨n, by omega, hwb⟩)
      obtain ⟨-, -, -, -, hmin⟩ := hitEntry_eq_some hp
      have := hle p ((hlisted p).mpr ⟨b, hb, hp⟩)
      exact hmin n (by omega) hwb

end

/-- Settles O26. -/
theorem accessChecks : Obligations.AccessChecks := by
  intro s x m align as own fails bad off
  refine ⟨memIssue_empty, fun hact a r hb => memIssue_fails hact (checkAddrs_wild hb),
    fun hact hb a r ho => memIssue_fails hact (checkAddrs_skew hb ho), fun hact hgood => ⟨memIssue_watch hact hgood, fun hnone => ?_⟩⟩
  have hnil : as.filterMap (fun a => hitEntry (mget {} s.cores x.g.core).dbg x m.kind (a.lane, a.va.toNat)) = [] :=
    List.filterMap_eq_nil_iff.mpr fun a ha => hitEntry_eq_none.mpr (hnone a ha)
  have hhits : s.wpHits x m.kind false (addrsOf as) = [] := by
    rw [wpHits_eq, addrsOf, List.filterMap_map]
    exact hnil
  have hcheck : s.checkAddrs x m.kind false (fun v => !canonical (BitVec.ofNat 64 v)) 0x0D align (addrsOf as) = none := by
    have hown : (ownAccs x as).filterMap (fun a => hitEntry (mget {} s.cores x.g.core).dbg x m.kind (a.lane, a.va.toNat)) = [] :=
      List.filterMap_eq_nil_iff.mpr fun a ha => hitEntry_eq_none.mpr (hnone a (List.mem_filter.mp ha).1)
    rw [checkAddrs_good hgood, hown]
  refine ⟨fun h1 h2 => ?_, fun hord hg hdeltas => ?_⟩
  · exact memIssue_sends hact hcheck hgood hhits (by simp [h1, h2])
  · rw [memIssue_release hact hcheck hgood hhits hord hg hdeltas]
    exact ⟨fun h => by rw [if_pos h], fun h hr => by rw [if_neg (by simp [h]), if_neg (by simp [hr])]⟩

end Sys2Proof.Machine
end

section
/-! The proof of `Obligations.AccessesPerform`. -/

namespace Sys2Proof.Machine

/-- Byte `j` of a number written little-endian. -/
theorem getD_leBytes (n x j : Nat) (hj : j < n) (d : Byte) : (leBytes n x).getD j d = BitVec.ofNat 8 (x / 2 ^ (8 * j)) := by
  induction n generalizing x j with
  | zero => omega
  | succ n ih =>
    cases j with
    | zero => simp [leBytes]
    | succ j =>
      rw [leBytes, List.getD_cons_succ, ih _ _ (by omega), Nat.div_div_eq_div_mul, show 256 = 2 ^ 8 by rfl, ← pow_add,
        show 8 + 8 * j = 8 * (j + 1) by ring]

/-- The bytes that an access leaves in memory (R66). -/
theorem readByte_perform (s : State) (key width : Nat) (k : MemKind) (ty : Ty) (data data2 a : Nat) :
    (s.perform key width k ty data data2).2.readByte a =
      match newValue k ty (s.readMem key width) data data2 with
      | some v => if key ≤ a ∧ a < key + width then BitVec.ofNat 8 (v / 2 ^ (8 * (a - key))) else s.readByte a
      | none => s.readByte a := by
  rw [State.readByte, perform_mem]
  split
  next h => simp only [h]; rfl
  next x h =>
    simp only [h]
    refine (State.readByte_writeMem s key width x a).trans ?_
    split
    next ha => exact getD_leBytes _ _ _ (by omega) _
    next => rfl

/-- Integers of one type that fit its width are equal when they stand for the same integer. -/
theorem eq_of_intVal_eq {ty : Ty} {x y : Nat} (hx : x < 2 ^ ty.width) (hy : y < 2 ^ ty.width) (h : intVal ty x = intVal ty y) : x = y := by
  have hmod : ∀ z, z < 2 ^ ty.width → intVal ty z % ((2 ^ ty.width : Nat) : Int) = z := fun z hz => by
    rw [Int.emod_eq_emod_iff_emod_sub_eq_zero.mpr (by exact_mod_cast intVal_sub_emod ty z), ← Int.natCast_emod, Nat.mod_eq_of_lt hz]
  exact_mod_cast (hmod x hx).symm.trans ((congrArg (· % ((2 ^ ty.width : Nat) : Int)) h).trans (hmod y hy))

/-- Settles O27: what an access leaves is the value of `newValue`, byte by byte. -/
theorem accessesPerform : Obligations.AccessesPerform := by
  refine ⟨fun s key width k ty data data2 _ => ?_, fun ty old x hold hx => ⟨fun hf => ⟨?_, ?_, ?_⟩, fun hf => ⟨?_, ?_, ?_⟩, rfl, fun n => ?_⟩⟩
  · refine ⟨perform_old .., fun a => ?_, fun h => perform_none _ _ _ _ _ _ _ h⟩
    exact readByte_perform ..
  · simp [atomOp, hf]
  · simp [atomOp, hf, Nat.mod_eq_of_lt hx]
  · rw [atomOp, if_neg (by simp [hf]), Nat.mod_eq_of_lt hx]
    rcases lt_trichotomy (intVal ty old) (intVal ty x) with h | h | h
    · rw [if_neg (by omega), if_pos (by omega)]
    · rw [if_pos (by omega), if_pos (by omega), eq_of_intVal_eq hold hx h]
    · rw [if_pos (by omega), if_neg (by omega)]
  · simp [atomOp, hf]
  · simp [atomOp, hf]
  · simp [atomOp, hf]
  · simp [atomOp, Nat.testBit_xor]

end Sys2Proof.Machine
end

section
/-! The proof of `Obligations.AccessesSent`: accesses whose addresses translate without a walk are sent at once. -/

namespace Sys2Proof.Machine

/-! ### What a translation depends on (R57–R61) -/

theorem leafFrom_congr {s t : State} (hmem : t.mem = s.mem) (va table : Nat) (v : Level) (below : List Level) :
    t.leafFrom va table v below = s.leafFrom va table v below := by
  have hread : ∀ a n, t.readMem a n = s.readMem a n := fun a n => by simp only [State.readMem, hmem]
  induction below generalizing table v with
  | nil => rw [State.leafFrom, State.leafFrom, hread]
  | cons n rest ih =>
    rw [State.leafFrom, State.leafFrom]
    simp only [hread, ih]

theorem walk_congr {s t : State} (hmem : t.mem = s.mem) (hctxs : t.ctxs = s.ctxs) (ctx : Nat) (va : DWord) (need : Need) :
    t.walk ctx va need = s.walk ctx va need := by
  simp only [State.walk, State.walkFrom, leafFrom_congr hmem, hctxs]

theorem translates_congr {s t : State} {g : Group} {va : DWord} {need : Need} {key : Nat} {lk mg : Bool} (hmem : t.mem = s.mem)
    (hctxs : t.ctxs = s.ctxs) (htlb : t.tlb = s.tlb) (h : Translates s g va need key lk mg) : Translates t g va need key lk mg := by
  unfold Translates at h ⊢
  rw [walk_congr hmem hctxs, hctxs]
  simpa only [State.lookup, State.tlbFind, hctxs, htlb] using h

/-- A translation that the tables still give is used as it is (R61). -/
theorem lookupFresh_of_translates {s : State} {g : Group} {va : DWord} {need : Need} {key : Nat} {lk mg : Bool}
    (h : Translates s g va need key lk mg) : s.lookupFresh (dieOf g.cluster) g.ctx va need = (.hit key lk mg, s) := by
  obtain ⟨hit, hw⟩ := h
  unfold State.lookupFresh
  rw [hit]
  dsimp only
  split
  · rfl
  next hwin =>
    obtain ⟨l, hl, hkey, hlk⟩ := hw.resolve_left hwin
    rw [hl]
    simp [hkey, hlk]

/-! ### Copies of the lines that are written (R201) -/

/-- Accesses of `m` drop the copies of the lines they write. -/
def MemDesc.drops (m : MemDesc) : Bool := m.kind.isWrite && m.combines.isNone

/-- What is left in the L1 of core `c` of a cluster once core `core` has written lines `keys`. -/
def l1After (m : MemDesc) (core : Nat) (keys : List Nat) (c : Nat) (l1 : List L1Line) : List L1Line :=
  l1.filter fun y => !(c == core && m.drops && keys.any fun k => lineOf k == y.line)

/-- Between `s` and `t` lines `keys`, written by an access of `m`, have left the L1 of core `core`, and clean copies of them are no longer
held; nothing else has changed. -/
structure Dropped (s t : State) (core : Nat) (m : MemDesc) (keys : List Nat) : Prop where
  rest : t = { s with copies := t.copies, cores := t.cores }
  kept : m.drops = false → t = s
  copies : t.copies.map (fun c => { c with held := false }) = s.copies.map (fun c => { c with held := false })
  cores : ∀ c, t.core c = { s.core c with l1 := l1After m core keys c (s.core c).l1 }

theorem l1After_nil (m : MemDesc) (core c : Nat) (l1 : List L1Line) : l1After m core [] c l1 = l1 :=
  List.filter_eq_self.mpr fun y _ => by simp

theorem l1After_append (m : MemDesc) (core c : Nat) (ks js : List Nat) (l1 : List L1Line) :
    l1After m core js c (l1After m core ks c l1) = l1After m core (ks ++ js) c l1 := by
  unfold l1After
  rw [List.filter_filter]
  refine List.filter_congr fun y _ => ?_
  rw [List.any_append, ← Bool.not_or, ← Bool.and_or_distrib_left, Bool.or_comm (js.any _)]

theorem mem_l1After {m : MemDesc} {core c : Nat} {keys : List Nat} {l1 : List L1Line} {y : L1Line} :
    y ∈ l1After m core keys c l1 ↔ y ∈ l1 ∧ ¬ (c = core ∧ m.kind.isWrite = true ∧ m.combines = none ∧ ∃ k ∈ keys, lineOf k = y.line) := by
  simp only [l1After, List.mem_filter, MemDesc.drops, Bool.not_eq_true', ← Bool.not_eq_true, Bool.and_eq_true, beq_iff_eq, List.any_eq_true,
    Option.isNone_iff_eq_none, and_assoc]

theorem Dropped.refl (s : State) (core : Nat) (m : MemDesc) : Dropped s s core m [] :=
  ⟨rfl, fun _ => rfl, rfl, fun c => by rw [l1After_nil]⟩

theorem Dropped.trans {s t u : State} {core : Nat} {m : MemDesc} {ks js : List Nat} (h : Dropped s t core m ks) (h' : Dropped t u core m js) :
    Dropped s u core m (ks ++ js) where
  rest := h'.rest.trans (congrArg (fun v : State => { v with copies := u.copies, cores := u.cores }) h.rest)
  kept hk := (h'.kept hk).trans (h.kept hk)
  copies := h'.copies.trans h.copies
  cores c := by rw [h'.cores, h.cores, ← l1After_append]

/-- The listed value of a mapped table. -/
theorem mfind_map_snd {α β : Type} (m : Map α) (f : Nat → α → β) (k : Nat) :
    mfind (m.map fun e => (e.1, f e.1 e.2)) k = (mfind m k).map (f k) := by
  induction m with
  | nil => rfl
  | cons e m ih =>
    simp only [List.map_cons, mfind]
    split
    next h => rw [h]; rfl
    next => exact ih

theorem core_dropL1 (s : State) (p : Nat → Nat → Bool) (c : Nat) :
    (s.dropL1 p).core c = { s.core c with l1 := (s.core c).l1.filter (fun x => !(p c x.line)) } := by
  have h := mfind_map_snd s.cores (fun k (e : CoreSt) => { e with l1 := e.l1.filter (fun x => !(p k x.line)) }) c
  refine (congrArg (·.getD {}) h).trans ?_
  unfold State.core mget
  cases mfind s.cores c <;> rfl

theorem l1_of_not_any {s : State} {core line : Nat}
    (h : s.cores.any (fun e => e.1 == core && e.2.l1.any (fun x => x.line == line)) = false) : ∀ y ∈ (s.core core).l1, y.line ≠ line := by
  rw [List.any_eq_false] at h
  unfold State.core mget
  cases hf : mfind s.cores core with
  | none => simp
  | some e =>
    intro y hy hline
    exact h (core, e) (mem_of_mfind hf) (by simpa using ⟨y, hy, hline⟩)

/-- A written line leaves the L1 of the core that writes it. -/
theorem dropped_l1 (s : State) (core : Nat) (m : MemDesc) (key : Nat) (hm : m.drops = true) :
    Dropped s (if s.cores.any (fun e => e.1 == core && e.2.l1.any (fun x => x.line == lineOf key)) then
      s.dropL1 (fun c l => c == core && l == lineOf key) else s) core m [key] := by
  split
  next =>
    refine ⟨rfl, fun h => absurd (hm.symm.trans h) (by decide), rfl, fun c => ?_⟩
    rw [core_dropL1]
    simp [l1After, hm, Bool.beq_comm]
  next h =>
    refine ⟨rfl, fun _ => rfl, rfl, fun c => ?_⟩
    have hnone := l1_of_not_any (Bool.not_eq_true _ ▸ h)
    have hkept : l1After m core [key] c (s.core c).l1 = (s.core c).l1 := List.filter_eq_self.mpr fun y hy => by
      by_cases hc : c = core
      · subst hc
        simp [Ne.symm (hnone y hy)]
      · simp [hc]
    rw [hkept]

/-- Clean copies that are written are no longer held. -/
theorem dropped_unheld (s : State) (core : Nat) (m : MemDesc) (hm : m.drops = true) (p : Copy → Bool) :
    Dropped s { s with copies := s.copies.map (fun c => if p c then { c with held := false } else c) } core m [] := by
  refine ⟨rfl, fun h => absurd (hm.symm.trans h) (by decide), ?_, fun c => by rw [l1After_nil]; rfl⟩
  rw [List.map_map]
  refine List.map_congr_left fun c _ => ?_
  dsimp only [Function.comp]
  split <;> rfl

/-- What one access drops when it is sent (R201). -/
theorem dropped_dropCopies (s : State) (cluster core : Nat) (m : MemDesc) (key : Nat) :
    Dropped s (s.dropCopies cluster core m key) core m [key] := by
  unfold State.dropCopies
  cases hm : m.drops with
  | false =>
    rw [show (m.kind.isWrite && m.combines.isNone) = false from hm]
    refine ⟨rfl, fun _ => rfl, rfl, fun c => ?_⟩
    simp [l1After, hm]
  | true =>
    rw [show (m.kind.isWrite && m.combines.isNone) = true from hm, if_pos rfl]
    have hl1 := dropped_l1 s core m key hm
    generalize (if s.cores.any (fun e => e.1 == core && e.2.l1.any (fun x => x.line == lineOf key)) then
      s.dropL1 (fun c l => c == core && l == lineOf key) else s) = t at hl1 ⊢
    dsimp only
    split
    · exact hl1
    · exact hl1.trans (dropped_unheld t core m hm _)

/-! ### Sending (R199, R211, R216) -/

/-- The access `a`, translated. -/
def sentAcc (key : Nat → Nat) (lk mg : Nat → Bool) (a : Acc) : Acc :=
  { a with st := .wait, key := key a.lane, lockok := lk a.lane, mig := mg a.lane }

/-- An access whose page permits what it asks for is translated without a trap. -/
theorem translated_ok {m : MemDesc} {a : Acc} {key : Nat} {lk mg : Bool} (h : m.kind = .lblset true → lk = true) :
    translated m a key lk mg = ({ a with st := .wait, key := key, lockok := lk, mig := mg }, none) := by
  unfold translated
  split
  next hk => rw [if_pos (h hk)]
  next => rfl

/-- Accesses that translate without a walk are sent, and drop the copies of what they write. -/
theorem lookupAccs_ok {s : State} {g : Group} {m : MemDesc} {key : Nat → Nat} {lk mg : Nat → Bool} (as : List Acc)
    (h : ∀ a ∈ as, a.st = .walk ∧ Translates s g a.va m.kind.need (key a.lane) (lk a.lane) (mg a.lane))
    (hlock : m.kind = .lblset true → ∀ a ∈ as, lk a.lane = true) :
    ∃ t, s.lookupAccs g m as = (as.map (sentAcc key lk mg), [], t) ∧ Dropped s t g.core m (as.map fun a => key a.lane) := by
  induction as generalizing s with
  | nil => exact ⟨s, rfl, Dropped.refl s _ m⟩
  | cons a as ih =>
    obtain ⟨hst, htr⟩ := h a List.mem_cons_self
    have hdrop := dropped_dropCopies s g.cluster g.core m (key a.lane)
    have hlook := lookupFresh_of_translates htr
    obtain ⟨t, ht, hd⟩ := ih (s := s.dropCopies g.cluster g.core m (key a.lane))
      (fun b hb => by
        obtain ⟨hb1, hb2⟩ := h b (List.mem_cons_of_mem _ hb)
        exact ⟨hb1, translates_congr (by rw [hdrop.rest]) (by rw [hdrop.rest]) (by rw [hdrop.rest]) hb2⟩)
      (fun hk b hb => hlock hk b (List.mem_cons_of_mem _ hb))
    refine ⟨t, ?_, hdrop.trans hd⟩
    rw [State.lookupAccs, if_neg (by simp [hst]), hlook]
    simp only [translated_ok fun hk => hlock hk a List.mem_cons_self, ht]
    rfl

/-- What a group is once an operation of class `cls` has been counted on it. -/
def Group.countOn (g : Group) : Option Cls → Group
  | none => g
  | some k => g.count k

/-- An operation of a group, of class `cls` or of none. -/
def opOn (g : Group) (gid : Nat) (cls : Option Cls) (kind : OpKind) : Op :=
  { gid := gid, cls := cls, pos := (match cls with | none => 0 | some k => (g.cnt.get k).next), ctx := g.ctx, cluster := g.cluster,
    core := g.core, kind := kind }

/-- Between `s` and `t` an operation of a group has been issued. -/
structure Issued (s t : State) (gid : Nat) (g : Group) (cls : Option Cls) (kind : OpKind) : Prop where
  rest : t = { s with groups := t.groups, ops := mput s.ops s.nextId (opOn g gid cls kind), nextId := s.nextId + 1 }
  group : t.grp? gid = some (g.countOn cls)
  others : ∀ j, j ≠ gid → t.grp? j = s.grp? j

theorem issued_addOp {s : State} {gid : Nat} {g : Group} (hg : s.grp? gid = some g) (cls : Option Cls) (kind : OpKind) :
    Issued s (s.addOp gid cls kind) gid g cls kind := by
  cases cls with
  | none =>
    have h : s.addOp gid none kind = { s with nextId := s.nextId + 1, ops := mput s.ops s.nextId (opOn g gid none kind) } := by
      unfold State.addOp
      rw [hg]
      rfl
    rw [h]
    exact ⟨rfl, hg, fun _ _ => rfl⟩
  | some k => exact ⟨by rw [addOp_some hg]; rfl, grp?_addOp hg k kind, fun j hj => grp?_addOp_other hg hj k kind⟩

section
variable {s u v : State} {x : Issue} {m : MemDesc} {as : List Acc}

/-- The instruction's accesses have been sent, and `F` leaves its group with lanes `ls` and blocked by `b`. -/
theorem sent_of {F : Group → Group} {ls : List Lane} {b : Block} (hd : Dropped s u x.g.core m (as.map (·.key)))
    (hi : Issued u v x.gid x.g m.cls (.mem m as)) (hF : F (x.g.countOn m.cls) = { x.g.countOn m.cls with lanes := ls, block := b })
    (hlanes : if b = .none ∨ b = .fence m.scope 0 then ls = (x.g.advance x.run).lanes else ls = x.g.lanes) :
    Sent s (v.updGrp x.gid F) x m as b { x.g.countOn m.cls with lanes := ls, block := b } := by
  have hops : v.ops = mput s.ops s.nextId (opOn x.g x.gid m.cls (.mem m as)) := by rw [hi.rest, hd.rest]
  have hcore : ∀ c, (v.updGrp x.gid F).core c = u.core c := fun c => by
    rw [hi.rest]
    rfl
  refine ⟨?_, fun k hk => ?_, ?_, ?_, fun hk => ?_, ?_, fun c => ?_, ?_, fun j hj => ?_, rfl, ?_, ?_, ?_⟩
  · exact (congrArg (mfind · s.nextId) hops).trans (mfind_mput_same _ _ _)
  · exact (congrArg (mfind · k) hops).trans (mfind_mput_other _ _ (Ne.symm hk))
  · rw [hi.rest, hd.rest]
    rfl
  · rw [hi.rest, hd.rest]
    rfl
  · have hdrops : m.drops = false := by
      unfold MemDesc.drops
      rcases hk with hk | hk
      · simp [hk]
      · simp [Option.isNone_eq_false_iff.mpr hk]
    rw [hi.rest, hd.kept hdrops]
    exact ⟨rfl, rfl⟩
  · rw [hi.rest]
    exact hd.copies
  · rw [hcore, hd.cores]
    refine ⟨rfl, fun hc => ?_, fun y => ?_⟩
    · have hl1 : l1After m x.g.core (as.map (·.key)) c (s.core c).l1 = (s.core c).l1 :=
        List.filter_eq_self.mpr fun y _ => by simp [hc]
      rw [hl1]
    · rw [mem_l1After]
      simp
  · rw [← hF]
    exact State.grp?_updGrp_same hi.group F
  · rw [State.grp?_updGrp_other (Ne.symm hj), hi.others j hj, hd.rest]
    rfl
  · cases m.cls <;> rfl
  · split at hlanes
    next h =>
      rw [if_pos h]
      subst hlanes
      exact ⟨(stepped_advance x.g x.run).length, (stepped_advance x.g x.run).lane⟩
    next h => rw [if_neg h]; exact hlanes
  · cases m.cls <;> rfl

/-- Block `b` takes hold of a group that is not being unwound. -/
theorem setBlock_of_block {g : Group} (h : g.block = .none) (b : Block) : g.setBlock b = { g with block := b } := by
  simp [Group.setBlock, Group.unwinding, h]

/-- What a table lists once a value is put in it: that value, or what it listed before. -/
theorem mem_of_mem_mput {α : Type} {tab : Map α} {k : Nat} {y : α} {e : Nat × α} (h : e ∈ mput tab k y) : e = (k, y) ∨ e ∈ tab := by
  induction tab with
  | nil => simpa [mput] using h
  | cons d tab ih =>
    unfold mput at h
    split at h
    · simpa using h
    split at h
    · rw [List.mem_cons] at h ⊢
      tauto
    · rw [List.mem_cons] at h ⊢
      rcases h with h | h
      · exact Or.inr (Or.inl h)
      · exact (ih h).imp_right Or.inr

theorem countOn_block (g : Group) (cls : Option Cls) : (g.countOn cls).block = g.block := by cases cls <;> rfl
theorem countOn_lanes (g : Group) (cls : Option Cls) : (g.countOn cls).lanes = g.lanes := by cases cls <;> rfl

/-- Accesses that no home slice has yet to judge let their run go on (R216). -/
def MemDesc.awaits (m : MemDesc) (as : List Acc) : Bool :=
  as.any fun a => !a.final && ((a.lockok && m.kind.isData) || (match m.kind with | .lblset _ => true | _ => false))

theorem accs_of_issued (hi : Issued u v x.gid x.g m.cls (.mem m as)) :
    mfind v.ops u.nextId = some (opOn x.g x.gid m.cls (.mem m as)) := by
  rw [hi.rest]
  exact mfind_mput_same _ _ _

theorem settle_held (hi : Issued u v x.gid x.g m.cls (.mem m as)) (hblock : x.g.block = .none) (h : m.awaits as = true) :
    v.settle u.nextId = v.updGrp x.gid fun g => { g with block := .verdict u.nextId } := by
  have hheld : (x.g.countOn m.cls).unwinding = false := by simp [Group.unwinding, countOn_block, hblock]
  have hgid : (opOn x.g x.gid m.cls (.mem m as)).gid = x.gid := rfl
  unfold State.settle
  rw [accs_of_issued hi]
  dsimp only [opOn, Op.desc?, Op.accs]
  rw [hi.group]
  exact if_pos (Bool.and_eq_true_iff.mpr ⟨h, congrArg (!·) hheld⟩)

theorem settle_free (hi : Issued u v x.gid x.g m.cls (.mem m as)) (h : m.awaits as = false) : v.settle u.nextId = v.passOn u.nextId := by
  unfold State.settle
  rw [accs_of_issued hi]
  dsimp only [opOn, Op.desc?, Op.accs]
  exact if_neg fun hj => Bool.false_ne_true (h.symm.trans (Bool.and_eq_true_iff.mp hj).1)

/-- Once an operation that is no pushed delta has been issued, no delta of the cluster waits that did not wait before. -/
theorem noDeltas_issued (hi : Issued u v x.gid x.g m.cls (.mem m as)) (h : NoDeltas u x.g.cluster) : NoDeltas v x.g.cluster := by
  obtain ⟨hdeltas, hops⟩ := h
  have hv : v.deltas = u.deltas ∧ v.ops = mput u.ops u.nextId (opOn x.g x.gid m.cls (.mem m as)) := by
    rw [hi.rest]
    exact ⟨rfl, rfl⟩
  refine ⟨fun d hd => hdeltas d (hv.1 ▸ hd), fun e he hc => ?_⟩
  obtain rfl | he := mem_of_mem_mput (hv.2 ▸ he)
  · rfl
  · exact hops e he hc

theorem setBlock_cluster (g : Group) (run : Word) (b : Block) : ((g.advance run).setBlock b).cluster = g.cluster := by
  unfold Group.setBlock
  split <;> rfl

theorem countOn_cluster (g : Group) (cls : Option Cls) : (g.countOn cls).cluster = g.cluster := by cases cls <;> rfl

/-- The run goes on, or waits for what its kind waits for (R69, R206, R210). -/
theorem passOn_issued (hi : Issued u v x.gid x.g m.cls (.mem m as)) (hne : as ≠ []) (hst : ∀ a ∈ as, a.st = .wait) (hrun : m.run = x.run)
    (hre : m.reissue = none) (hdel : m.ord = .none ∨ NoDeltas u x.g.cluster) :
    v.passOn u.nextId = v.updGrp x.gid fun g =>
      if m.kind = .monarm then g.setBlock (.monarm u.nextId 0 x.run)
      else if m.kind = .cinv then g.setBlock (.cinv u.nextId x.run)
      else (g.advance x.run).setBlock (if m.kind.isData && (m.ord = .acq || m.ord = .ar) then .fence m.scope 0 else .none) := by
  have hstay : staying m as = 0 := by
    have hoff : as.filter (fun a => a.st == .off) = [] := List.filter_eq_nil_iff.mpr fun a ha => by simp [hst a ha]
    unfold staying
    rw [hoff]
    split <;> rfl
  have hsome : as.any (fun a => a.st != .off) = true := by
    obtain ⟨a, r, rfl⟩ := List.exists_cons_of_ne_nil hne
    simp [hst a List.mem_cons_self]
  unfold State.passOn
  rw [accs_of_issued hi]
  dsimp only [opOn, Op.desc?, Op.accs]
  simp only [hre, hstay, hsome, hrun, and_not_zero, Bool.true_and, Option.isSome_none, Option.isNone_none, Bool.and_false, Bool.false_and,
    Bool.false_eq_true, if_false, decide_eq_true_eq, State.freeEntry, Bool.and_true, Bool.not_true]
  split
  · rfl
  split
  · rfl
  split
  next hacq =>
    have hord : m.ord ≠ .none := fun h => by simp [h] at hacq
    have hdeltas : NoDeltas v x.g.cluster := noDeltas_issued hi (hdel.resolve_left hord)
    exact startFence_of_noDeltas (State.grp?_updGrp_same hi.group _) (by rw [setBlock_cluster, countOn_cluster]; exact hdeltas) _
  next => rfl

/-- What the accesses of an instruction leave its group waiting for (R216). -/
theorem awaits_sent (hne : as ≠ []) (hst : ∀ a ∈ as, a.st = .wait) :
    m.awaits as = true ↔ (∃ lock, m.kind = .lblset lock) ∨ m.kind.isData = true ∧ as.any (·.lockok) = true := by
  have hfinal : ∀ a ∈ as, a.final = false := fun a ha => by simp [Acc.final, hst a ha]
  obtain ⟨b, hb⟩ := List.exists_mem_of_ne_nil as hne
  unfold MemDesc.awaits
  rw [List.any_eq_true, List.any_eq_true]
  by_cases hl : ∃ lock, m.kind = .lblset lock
  · obtain ⟨lock, hl⟩ := hl
    exact ⟨fun _ => Or.inl ⟨lock, hl⟩, fun _ => ⟨b, hb, by simp [hl, hfinal b hb]⟩⟩
  · have hlbl : (match m.kind with | .lblset _ => true | _ => false) = false := by
      split
      next lock h => exact absurd ⟨lock, h⟩ hl
      next => rfl
    rw [or_iff_right hl]
    constructor
    · rintro ⟨a, ha, h⟩
      have h := (Bool.and_eq_true_iff.mp h).2
      obtain ⟨h1, h2⟩ : a.lockok = true ∧ m.kind.isData = true := by
        rcases (Bool.or_eq_true_iff.mp h) with h | h
        · exact Bool.and_eq_true_iff.mp h
        · exact absurd (h.symm.trans hlbl) (by decide)
      exact ⟨h2, a, ha, h1⟩
    · rintro ⟨h2, a, ha, h1⟩
      exact ⟨a, ha, by simp [hfinal a ha, h1, h2]⟩

/-- What an access that neither arms nor invalidates nor sets a label leaves its group waiting for. -/
theorem blockAfter_data (h1 : m.kind ≠ .monarm) (h2 : m.kind ≠ .cinv) (h3 : ¬ ∃ lock, m.kind = .lblset lock) (lk : Bool) (id : Nat) (run : Word) :
    blockAfter m lk id run =
      if m.kind.isData && lk then .verdict id else if m.kind.isData && (m.ord = .acq || m.ord = .ar) then .fence m.scope 0 else .none := by
  unfold blockAfter
  split
  next h => exact absurd h h1
  next h => exact absurd h h2
  next lock h => exact absurd ⟨lock, h⟩ h3
  next => rfl

/-- Accesses that have been translated leave their group as `blockAfter` says. -/
theorem settle_issued (hi : Issued u v x.gid x.g m.cls (.mem m as)) (hblock : x.g.block = .none) (hne : as ≠ [])
    (hst : ∀ a ∈ as, a.st = .wait) (hrun : m.run = x.run) (hre : m.reissue = none) (hdel : m.ord = .none ∨ NoDeltas u x.g.cluster) :
    ∃ F ls, v.settle u.nextId = v.updGrp x.gid F ∧
      F (x.g.countOn m.cls) = { x.g.countOn m.cls with lanes := ls, block := blockAfter m (as.any (·.lockok)) u.nextId x.run } ∧
      if blockAfter m (as.any (·.lockok)) u.nextId x.run = .none ∨ blockAfter m (as.any (·.lockok)) u.nextId x.run = .fence m.scope 0 then
        ls = (x.g.advance x.run).lanes else ls = x.g.lanes := by
  have hg : (x.g.countOn m.cls).block = .none := (countOn_block _ _).trans hblock
  have hls : (x.g.countOn m.cls).lanes = x.g.lanes := countOn_lanes _ _
  by_cases haw : m.awaits as = true
  · have hb : blockAfter m (as.any (·.lockok)) u.nextId x.run = .verdict u.nextId := by
      rcases (awaits_sent hne hst).mp haw with ⟨lock, h⟩ | ⟨hdata, hany⟩
      · simp [blockAfter, h]
      · rw [blockAfter_data (fun h => by simp [h, MemKind.isData] at hdata) (fun h => by simp [h, MemKind.isData] at hdata)
          (fun ⟨lock, h⟩ => by simp [h, MemKind.isData] at hdata), hdata, hany]
        rfl
    rw [hb]
    exact ⟨_, x.g.lanes, settle_held hi hblock haw, by rw [← hls], by simp⟩
  · have hgo := (settle_free hi (by simpa using haw)).trans (passOn_issued hi hne hst hrun hre hdel)
    rw [awaits_sent hne hst, not_or] at haw
    obtain ⟨hlbl, hdata⟩ := haw
    by_cases hk1 : m.kind = .monarm
    · have hb : blockAfter m (as.any (·.lockok)) u.nextId x.run = .monarm u.nextId 0 x.run := by simp [blockAfter, hk1]
      simp only [if_pos hk1] at hgo
      rw [hb]
      exact ⟨_, x.g.lanes, hgo, by rw [setBlock_of_block hg, ← hls], by simp⟩
    by_cases hk2 : m.kind = .cinv
    · have hb : blockAfter m (as.any (·.lockok)) u.nextId x.run = .cinv u.nextId x.run := by simp [blockAfter, hk2]
      simp only [if_neg hk1, if_pos hk2] at hgo
      rw [hb]
      exact ⟨_, x.g.lanes, hgo, by rw [setBlock_of_block hg, ← hls], by simp⟩
    · rw [blockAfter_data hk1 hk2 hlbl, if_neg (by simpa using hdata)]
      simp only [if_neg hk1, if_neg hk2] at hgo
      refine ⟨_, (x.g.advance x.run).lanes, hgo, ?_, ?_⟩
      · rw [setBlock_of_block (by exact hg)]
        cases m.cls <;> rfl
      · split <;> simp

/-- Accesses whose addresses translate without a walk are sent as they are. -/
theorem sendMem_ok {key : Nat → Nat} {lk mg : Nat → Bool} (hg : s.grp? x.gid = some x.g) (hblock : x.g.block = .none) (hne : as ≠ [])
    (h : ∀ a ∈ as, a.st = .walk ∧ Translates s x.g a.va m.kind.need (key a.lane) (lk a.lane) (mg a.lane))
    (hlock : m.kind = .lblset true → ∀ a ∈ as, lk a.lane = true) (hrun : m.run = x.run) (hre : m.reissue = none)
    (hdel : m.ord = .none ∨ NoDeltas s x.g.cluster) :
    ∃ g', Sent s (s.sendMem x.gid m as) x m (as.map (sentAcc key lk mg))
      (blockAfter m ((as.map (sentAcc key lk mg)).any (·.lockok)) s.nextId x.run) g' := by
  obtain ⟨u, hlook, hd⟩ := lookupAccs_ok as h hlock
  have hid : u.nextId = s.nextId := by rw [hd.rest]
  have hgu : u.grp? x.gid = some x.g := by rw [hd.rest]; exact hg
  have hst : ∀ a ∈ as.map (sentAcc key lk mg), a.st = .wait := by
    intro a ha
    obtain ⟨b, -, rfl⟩ := List.mem_map.mp ha
    rfl
  have hi := issued_addOp hgu m.cls (.mem m (as.map (sentAcc key lk mg)))
  have hsend : s.sendMem x.gid m as = (u.addOp x.gid m.cls (.mem m (as.map (sentAcc key lk mg)))).settle u.nextId := by
    unfold State.sendMem
    rw [hg]
    dsimp only
    rw [hlook]
    dsimp only
    rw [if_neg (by simpa using fun a ha => by simp [sentAcc]), hid]
    rfl
  obtain ⟨F, ls, hsettle, hF, hls⟩ := settle_issued hi hblock (by simpa using hne) hst hrun hre
    (hdel.imp_right fun hnd => by rw [hd.rest]; exact hnd)
  rw [hsend, hsettle, ← hid]
  exact ⟨_, sent_of (by rw [List.map_map]; exact hd) hi hF hls⟩

end

/-- A debug unit with no watchpoint on watches nothing. -/
theorem not_hit_of_wpctl {s : State} {x : Issue} (h : (mget {} s.cores x.g.core).dbg.wpctl = 0) (k : MemKind) (a : Acc) : ¬ Hit s x k a := by
  rintro ⟨n, -, hw, -⟩
  rw [h] at hw
  simp [bits, bitAt] at hw

/-- An instruction whose effect is the issue of its accesses sends them. -/
theorem sends_of {i : Instr} {helpers : Bool} {m : Issue → MemDesc} {align off : Nat} {base : Opnd} {w64 : Bool}
    {dat : Issue → Nat → Nat × Nat}
    (hexec : ∀ s, exec i s = laneInstr i helpers s (fun x s => s.memIssue x (m x) align (x.accsOf (m x) base w64 off (dat x))))
    (hm : ∀ x, (m x).run = x.run ∧ (m x).reissue = x.reissue) : Sends i helpers m align base w64 off dat := by
  intro s x key lk mg hgo hact hre hblock hwp lanes va hok hlock hord hfence
  have hg := grp_of_issueOf hgo
  let as := lanes.map (fun l => ({ lane := l, va := va l, data := (dat x l).1, data2 := (dat x l).2 } : Acc))
  have has : x.accsOf (m x) base w64 off (dat x) = as := by
    unfold Issue.accsOf
    rw [hre]
    rfl
  have hne : as ≠ [] := by
    have hlanes : lanes ≠ [] := by
      simp only [lanes]
      split
      · simp
      · exact lanesOf_ne _ hact
    simpa [as] using hlanes
  have hall : ∀ a ∈ as, ∃ l ∈ lanes, a = { lane := l, va := va l, data := (dat x l).1, data2 := (dat x l).2 } := by
    intro a ha
    obtain ⟨l, hl, rfl⟩ := List.mem_map.mp ha
    exact ⟨l, hl, rfl⟩
  have hgood : ∀ a ∈ as, canonical a.va = true ∧ a.va.toNat % align = 0 := by
    intro a ha
    obtain ⟨l, hl, rfl⟩ := hall a ha
    obtain ⟨h1, h2, -⟩ := hok l hl
    exact ⟨h1, h2⟩
  have hnone : ∀ bs : List Acc, bs.filterMap (fun a => hitEntry (mget {} s.cores x.g.core).dbg x (m x).kind (a.lane, a.va.toNat)) = [] :=
    fun bs => List.filterMap_eq_nil_iff.mpr fun a _ => hitEntry_eq_none.mpr (not_hit_of_wpctl hwp _ a)
  have hhits : s.wpHits x (m x).kind false (addrsOf as) = [] := by
    rw [wpHits_eq, addrsOf, List.filterMap_map]
    exact hnone as
  have hcheck : s.checkAddrs x (m x).kind false (fun v => !canonical (BitVec.ofNat 64 v)) 0x0D align (addrsOf as) = none := by
    rw [checkAddrs_good hgood, hnone]
  have hissue : s.memIssue x (m x) align as = s.sendMem x.gid (m x) as := by
    by_cases hrel : (m x).ord = .rel ∨ (m x).ord = .ar
    · have hnd : NoDeltas s x.g.cluster := hord.resolve_left fun h => by simp [h] at hrel
      rw [memIssue_release hact hcheck hgood hhits hrel hg hnd, if_pos (hfence hrel)]
    · exact memIssue_sends hact hcheck hgood hhits hrel
  obtain ⟨g', hsent⟩ := sendMem_ok (as := as) hg hblock hne
    (fun a ha => by
      obtain ⟨l, hl, rfl⟩ := hall a ha
      obtain ⟨-, -, h3⟩ := hok l hl
      exact ⟨rfl, h3⟩)
    (fun hk a ha => by
      obtain ⟨l, hl, rfl⟩ := hall a ha
      exact hlock hk l hl)
    (hm x).1 ((hm x).2.trans hre) hord
  refine ⟨_, g', exec_of_go hgo (hexec s), ?_⟩
  rw [has, hissue]
  simp only [as, List.map_map, List.any_map] at hsent ⊢
  exact hsent

/-- Settles O25: every instruction of global memory issues its accesses. -/
theorem accessesSent : Obligations.AccessesSent := by
  refine ⟨fun h w64 ty sc ord ch d a off => ⟨?_, ?_⟩, fun h w64 op ty sc ord d a b off => ⟨?_, ?_, ?_⟩,
    fun h w64 lock sc d a b off => ⟨?_, ?_, ?_, ?_, ?_, ?_⟩⟩
  all_goals exact sends_of (fun _ => rfl) fun _ => ⟨rfl, rfl⟩

end Sys2Proof.Machine
end

section
/-! The proof of `Obligations.AccessReports`: what an operation that is reported writes (R17, R199, R204, R217). -/

namespace Sys2Proof.Machine

/-! ### Instants -/

theorem raiseCtime_toNat (g : Group) {t : Nat} (ht : t < 2 ^ 64) : (g.raiseCtime t).ctime.toNat = max g.ctime.toNat t := by
  unfold Group.raiseCtime
  split
  next h => rw [max_eq_right h.le, BitVec.toNat_ofNat, Nat.mod_eq_of_lt ht]
  next h => exact (max_eq_left (Nat.not_lt.mp h)).symm

/-- The latest instant of some accesses, counted from `n` on. -/
theorem foldl_latest (as : List Acc) (n : Nat) :
    as.foldl (fun t a => if a.st == .done then max t a.tc else t) n = max n (latest as) := by
  have h : ∀ (as : List Acc) (n k : Nat), as.foldl (fun t a => if a.st == .done then max t a.tc else t) (max n k) =
      max n (as.foldl (fun t a => if a.st == .done then max t a.tc else t) k) := by
    intro as
    induction as with
    | nil => exact fun _ _ => rfl
    | cons a as ih =>
      intro n k
      simp only [List.foldl_cons]
      split
      · rw [Nat.max_assoc, ih]
      · exact ih n k
  exact (congrArg (fun n => as.foldl _ n) (Nat.max_zero n).symm).trans (h as n 0)

theorem latest_lt {as : List Acc} (h : ∀ a ∈ as, a.tc < 2 ^ 64) : latest as < 2 ^ 64 := by
  have hfold : ∀ (as : List Acc) (n : Nat), n < 2 ^ 64 → (∀ a ∈ as, a.tc < 2 ^ 64) →
      as.foldl (fun t a => if a.st == .done then max t a.tc else t) n < 2 ^ 64 := by
    intro as
    induction as with
    | nil => exact fun n hn _ => hn
    | cons a as ih =>
      intro n hn ha
      refine ih _ ?_ fun b hb => ha b (List.mem_cons_of_mem _ hb)
      dsimp only
      split
      · exact max_lt hn (ha a List.mem_cons_self)
      · exact hn
  exact hfold as 0 (by decide) h

/-! ### One lane's data -/

/-- Register contents that a lane's result leaves over `old`. -/
def laneValue (m : MemDesc) (old : Nat) (a : Acc) : Nat := match m.kind with | .load => loadValue m.ty old a.res | _ => a.res

theorem mfind_poisonLane (g : Group) (k l : Nat) (p : Poison) (w key : Nat) :
    mfind (g.poisonLane (.v k) l p w).poison key = if ∃ j, j < w ∧ key = 32 * (k + j) + l then some p else mfind g.poison key := by
  induction w generalizing g with
  | zero => simp [Group.poisonLane]
  | succ w ih =>
    rw [Group.poisonLane, ih]
    simp only [poisonKey, mfind_mput]
    by_cases h : ∃ j, j < w ∧ key = 32 * (k + j) + l
    · obtain ⟨j, hj, rfl⟩ := h
      rw [if_pos ⟨j, hj, rfl⟩, if_pos ⟨j, by omega, rfl⟩]
    · rw [if_neg h]
      by_cases hw : 32 * (k + w) + l = key
      · rw [if_pos hw, if_pos ⟨w, by omega, hw.symm⟩]
      · rw [if_neg hw, if_neg]
        rintro ⟨j, hj, rfl⟩
        rcases Nat.lt_succ_iff_lt_or_eq.mp hj with hj | rfl
        · exact h ⟨j, hj, rfl⟩
        · exact hw rfl

theorem poisonLane_rest (g : Group) (d : Opnd) (l : Nat) (p : Poison) (w : Nat) : { g.poisonLane d l p w with poison := g.poison } = g := by
  induction w generalizing g with
  | zero => rfl
  | succ w ih =>
    rw [Group.poisonLane]
    cases poisonKey d w l with
    | none => exact ih g
    | some k => exact congrArg (fun h : Group => { h with poison := g.poison }) (ih { g with poison := mput g.poison k p })

theorem poisonLane_v (g : Group) (d : Opnd) (l : Nat) (p : Poison) (w : Nat) : (g.poisonLane d l p w).v = g.v := by
  induction w generalizing g with
  | zero => rfl
  | succ w ih => exact (ih _).trans (by cases poisonKey d w l <;> rfl)

/-- What the data of access `a` leave of group `g`, for a destination of `w` registers from `k`. -/
structure Delivered (m : MemDesc) (k w : Nat) (a : Acc) (g g' : Group) : Prop where
  rest : { g' with v := g.v, poison := g.poison } = g
  vregs : ∀ j l, l < 32 → vReg g' j l =
    if a.st = .done ∧ l = a.lane ∧ k ≤ j ∧ j < k + w then wordOf (laneValue m (g.opnd (.v k) w a.lane) a) (j - k) else vReg g j l
  failed : ∀ c, a.st = .failed c → ∀ j, j < w → mfind g'.poison (32 * (k + j) + a.lane) = some ⟨a.va, c⟩
  poison : ∀ i l, l < 32 → l ≠ a.lane → mfind g'.poison (32 * i + l) = mfind g.poison (32 * i + l)

theorem delivered_deliver (m : MemDesc) {k w : Nat} {a : Acc} {g : Group} (hw : m.dstRegs = w) (hk : k + w ≤ g.nregs) (hl : a.lane < 32) :
    Delivered m k w a g (g.deliver m (.v k) a) := by
  subst hw
  unfold Group.deliver
  split
  next hst =>
    have hput : ∀ y, g.putLane (.v k) m.dstRegs a.lane y = { g with v := putRegs g.v k a.lane m.dstRegs y, poison := if g.poison.isEmpty then g.poison else clearPoison g.poison (.v k) a.lane m.dstRegs } :=
      fun y => if_pos hk
    refine ⟨by rw [hput], fun j l hl' => ?_, fun c hc => ?_, fun i l hl' hne => ?_⟩
    · rw [hput]
      refine (mget_putRegs g.v k a.lane m.dstRegs _ j l hl hl').trans ?_
      simp only [hst, true_and]
      rfl
    · rw [hst] at hc; cases hc
    · rw [hput]
      dsimp only
      split
      · rfl
      · rw [mfind_clearPoison_v, if_neg]
        rintro ⟨j, -, h⟩
        omega
  next c hst =>
    refine ⟨?_, fun j l _ => ?_, fun c' hc j hj => ?_, fun i l hl' hne => ?_⟩
    · exact (congrArg (fun h : Group => { h with v := g.v }) (poisonLane_rest g (.v k) a.lane ⟨a.va, c⟩ m.dstRegs))
    · rw [if_neg (by simp [hst])]
      exact congrArg (fun v => mget 0 v (32 * j + l)) (poisonLane_v g (.v k) a.lane ⟨a.va, c⟩ m.dstRegs)
    · rw [mfind_poisonLane, if_pos ⟨j, hj, rfl⟩]
      rw [hst] at hc
      cases hc
      rfl
    · rw [mfind_poisonLane, if_neg]
      rintro ⟨j, -, h⟩
      omega
  next hdone hfail =>
    exact ⟨rfl, fun j l _ => by rw [if_neg (fun h => hdone h.1)], fun c hc => absurd hc (hfail c), fun _ _ _ _ => rfl⟩

/-! ### The data of every lane -/

theorem regsAt_congr {v v' : Map Word} {k l w : Nat} (h : ∀ j, k ≤ j → j < k + w → mget 0 v (32 * j + l) = mget 0 v' (32 * j + l)) :
    regsAt v k l w = regsAt v' k l w := by
  induction w generalizing k with
  | zero => rfl
  | succ w ih => rw [regsAt, regsAt, h k le_rfl (by omega), ih fun j hj hj' => h j (by omega) (by omega)]

/-- What the data of accesses `as` leave of group `g`, for a destination of `w` registers from `k`. -/
structure AllDelivered (m : MemDesc) (k w : Nat) (as : List Acc) (g g' : Group) : Prop where
  rest : { g' with v := g.v, poison := g.poison } = g
  done : ∀ a ∈ as, a.st = .done → ∀ j, j < w → vReg g' (k + j) a.lane = wordOf (laneValue m (g.opnd (.v k) w a.lane) a) j
  failed : ∀ a ∈ as, ∀ c, a.st = .failed c → ∀ j, j < w → mfind g'.poison (32 * (k + j) + a.lane) = some ⟨a.va, c⟩
  vregs : ∀ j l, l < 32 → ¬ (k ≤ j ∧ j < k + w ∧ ∃ a ∈ as, a.lane = l ∧ a.st = .done) → vReg g' j l = vReg g j l
  poison : ∀ i l, l < 32 → (∀ a ∈ as, a.lane ≠ l) → mfind g'.poison (32 * i + l) = mfind g.poison (32 * i + l)

/-- Lanes do not disturb each other's results. -/
theorem allDelivered_foldl {m : MemDesc} {k w : Nat} (hw : m.dstRegs = w) (as : List Acc) {g : Group} (hk : k + w ≤ g.nregs)
    (hl : ∀ a ∈ as, a.lane < 32) (hnodup : (as.map (·.lane)).Nodup) :
    AllDelivered m k w as g (as.foldl (fun g a => g.deliver m (.v k) a) g) := by
  induction as generalizing g with
  | nil => exact ⟨rfl, by simp, by simp, fun _ _ _ _ => rfl, fun _ _ _ _ => rfl⟩
  | cons a as ih =>
    obtain ⟨hnot, hnodup⟩ := List.nodup_cons.mp hnodup
    have hla := hl a List.mem_cons_self
    have hne : ∀ b ∈ as, b.lane ≠ a.lane := fun b hb h => hnot (List.mem_map.mpr ⟨b, hb, h⟩)
    have h1 := delivered_deliver m hw hk hla
    have hk1 : k + w ≤ (g.deliver m (.v k) a).nregs := by
      have hn : (g.deliver m (.v k) a).nregs = g.nregs := by
        conv_rhs => rw [← h1.rest]
      exact hn ▸ hk
    have h2 := ih hk1 (fun b hb => hl b (List.mem_cons_of_mem _ hb)) hnodup
    refine ⟨?_, fun b hb hst j hj => ?_, fun b hb c hc j hj => ?_, fun j l hl' hno => ?_, fun i l hl' hno => ?_⟩
    · exact (congrArg (fun h : Group => { h with v := g.v, poison := g.poison }) h2.rest).trans h1.rest
    · rcases List.mem_cons.mp hb with rfl | hb
      · refine (h2.vregs (k + j) b.lane hla fun ⟨_, _, c, hc, hlane, _⟩ => hne c hc hlane).trans ?_
        rw [h1.vregs _ _ hla, if_pos ⟨hst, rfl, by omega, by omega⟩, Nat.add_sub_cancel_left]
      · refine (h2.done b hb hst j hj).trans ?_
        have hsame : (g.deliver m (.v k) a).opnd (.v k) w b.lane = g.opnd (.v k) w b.lane :=
          regsAt_congr fun j _ _ => (h1.vregs j b.lane (hl b (List.mem_cons_of_mem _ hb))).trans (if_neg fun h => hne b hb h.2.1)
        rw [hsame]
    · rcases List.mem_cons.mp hb with rfl | hb
      · exact (h2.poison (k + j) b.lane hla fun c hc => hne c hc).trans (h1.failed c hc j hj)
      · exact h2.failed b hb c hc j hj
    · refine (h2.vregs j l hl' fun ⟨h3, h4, b, hb, h5⟩ => hno ⟨h3, h4, b, List.mem_cons_of_mem _ hb, h5⟩).trans ?_
      rw [h1.vregs j l hl', if_neg]
      rintro ⟨hst, rfl, h3, h4⟩
      exact hno ⟨h3, h4, a, List.mem_cons_self, rfl, hst⟩
    · exact (h2.poison i l hl' fun b hb => hno b (List.mem_cons_of_mem _ hb)).trans
        (h1.poison i l hl' (Ne.symm (hno a List.mem_cons_self)))

/-! ### Reports (R17) -/

theorem endOp_some {s : State} {id : Nat} {o : Op} {k : Cls} (ho : mfind s.ops id = some o) (hk : o.cls = some k) :
    s.endOp id = ({ s with ops := mdel s.ops id }).updGrp o.gid (fun g => g.finish k o.pos) := by
  unfold State.endOp
  simp only [ho, hk]

/-- What reporting operation `id` does, once its group has become `F` of what it was. -/
structure Reported (s t : State) (id : Nat) (o : Op) (k : Cls) (g : Group) : Prop where
  group : t.grp? o.gid = some (g.finish k o.pos)
  others : ∀ j, j ≠ o.gid → t.grp? j = s.grp? j
  rest : { t with groups := s.groups, ops := s.ops } = s
  gone : mfind t.ops id = none
  ops : ∀ j, j ≠ id → mfind t.ops j = mfind s.ops j

theorem reported_endOp {s : State} {id : Nat} {o : Op} {k : Cls} {g : Group} (F : Group → Group) (ho : mfind s.ops id = some o)
    (hk : o.cls = some k) (hg : s.grp? o.gid = some g) : Reported s ((s.updGrp o.gid F).endOp id) id o k (F g) := by
  have hend : (s.updGrp o.gid F).endOp id = ({ s.updGrp o.gid F with ops := mdel s.ops id }).updGrp o.gid (fun g => g.finish k o.pos) :=
    endOp_some (by exact ho) hk
  rw [hend]
  refine ⟨State.grp?_updGrp_same (State.grp?_updGrp_same hg F) _, fun j hj => ?_, rfl, ?_, fun j hj => ?_⟩
  · exact (State.grp?_updGrp_other (Ne.symm hj) _).trans (State.grp?_updGrp_other (Ne.symm hj) _)
  · exact (mfind_mdel ..).trans (if_pos rfl)
  · exact (mfind_mdel ..).trans (if_neg (Ne.symm hj))

/-- A lane's value as the register takes it (R199). -/
theorem laneValue_eq (m : MemDesc) (old : Nat) (a : Acc) : laneValue m old a =
    if m.kind = .load then
      match m.ty with
      | .b8 => old / 256 * 256 + a.res % 256
      | .b16 => old / 65536 * 65536 + a.res % 65536
      | .s8 => wrap 32 (toSigned 8 a.res)
      | .s16 => wrap 32 (toSigned 16 a.res)
      | _ => a.res
    else a.res := by
  unfold laneValue
  split
  next h =>
    rw [if_pos h]
    unfold loadValue
    cases m.ty <;> rfl
  next h => rw [if_neg h]

theorem judging_of_block {s : State} {gid id : Nat} {g : Group} (hg : s.grp? gid = some g) (h : g.block ≠ .verdict id) :
    s.judging gid id = false := by
  simp [State.judging, hg, h]

/-- What LOAD_DATA_ARRIVAL makes of the group: every lane's data, and the instant where the kind reports one. -/
def ldArrived (m : MemDesc) (k : Nat) (as : List Acc) (g : Group) : Group :=
  if m.kind.reports then (as.foldl (fun g a => g.deliver m (.v k) a) g).raiseCtime (latest as)
  else as.foldl (fun g a => g.deliver m (.v k) a) g

/-- The first statement: an operation that reports to ld. -/
theorem loadArrival_delivers {s : State} {id k : Nat} {o : Op} {m : MemDesc} {as : List Acc} {g : Group} (ho : mfind s.ops id = some o)
    (hkind : o.kind = .mem m as) (hcls : o.cls = some .ld) (hdst : m.dst = some (.v k)) (hg : s.grp? o.gid = some g)
    (hblock : g.block ≠ .verdict id) (hfinal : ∀ a ∈ as, a.final = true) :
    s.loadArrival id = (s.updGrp o.gid (ldArrived m k as)).endOp id := by
  have hall : as.all Acc.final = true := List.all_eq_true.mpr hfinal
  unfold State.loadArrival
  simp only [ho, hkind, hcls, hall, judging_of_block hg hblock, hdst, Bool.not_false, Bool.and_self, if_true, Option.isNone_some,
    Bool.false_eq_true, if_false]
  rfl

/-- Accesses that have been performed leave nothing to be recorded as an error. -/
theorem reportFails_of_done {s : State} {ctx : Nat} {as : List Acc} (h : ∀ a ∈ as, a.st = .done) : s.reportFails ctx as = s := by
  unfold State.reportFails
  induction as with
  | nil => rfl
  | cons a as ih =>
    rw [List.foldl_cons, h a List.mem_cons_self]
    exact ih fun b hb => h b (List.mem_cons_of_mem _ hb)

/-- Settles O30: the data are delivered lane by lane, and then the operation leaves its counter. -/
theorem accessReports : Obligations.AccessReports := by
  refine ⟨fun s id k o m as g ho hkind hcls hjob hk hdst hg hblock has hnodup hw => ?_, fun s id o m as g ho hkind hcls hrep hg hblock has => ?_⟩
  · have hregs : m.dstRegs = if m.kind = .lblrd then 1 else m.ty.regs := by
      unfold MemDesc.dstRegs
      rcases hk with h | ⟨op, h⟩ | h | h <;> simp [h]
    have hreports : m.kind.reports = true ↔ m.kind ≠ .load ∧ m.kind ≠ .lblrd := by
      rcases hk with h | ⟨op, h⟩ | h | h <;> simp [h, MemKind.reports]
    have hexec : exec (.loadDataArrival id) s = .next (s.loadArrival id) := by
      show execLoadDataArrival id s = _
      unfold execLoadDataArrival
      simp [ho, hjob]
    have hd := allDelivered_foldl hregs as hw (fun a ha => (has a ha).2.1) hnodup
    have hr := reported_endOp (ldArrived m k as) ho hcls hg
    have hlate : latest as < 2 ^ 64 := latest_lt fun a ha => (has a ha).2.2
    have hv : ((ldArrived m k as g).finish .ld o.pos).v = (as.foldl (fun g a => g.deliver m (.v k) a) g).v ∧
        ((ldArrived m k as g).finish .ld o.pos).poison = (as.foldl (fun g a => g.deliver m (.v k) a) g).poison := by
      unfold ldArrived
      split <;> exact ⟨rfl, rfl⟩
    refine ⟨_, _, hexec.trans (congrArg Host.Outcome.next (loadArrival_delivers ho hkind hcls hdst hg hblock fun a ha => (has a ha).1)),
      hr.group, hr.others, hr.rest, hr.gone, hr.ops, ?_, ?_, ?_, fun a ha hst j hj => ?_, fun a ha c hc j hj => ?_, fun j l hl hno => ?_⟩
    · unfold ldArrived
      split <;> exact congrArg (fun h : Group => { h with cnt := g.cnt, ctime := g.ctime }) hd.rest
    · have hcnt : (ldArrived m k as g).cnt = g.cnt := by
        have hfold : (as.foldl (fun g a => g.deliver m (.v k) a) g).cnt = g.cnt := by
          conv_rhs => rw [← hd.rest]
        unfold ldArrived
        split <;> exact hfold
      exact congrArg (fun c : Counters => c.set .ld ((c.get .ld).finish o.pos)) hcnt
    · have hctime : (as.foldl (fun g a => g.deliver m (.v k) a) g).ctime = g.ctime := by
        conv_rhs => rw [← hd.rest]
      by_cases hrep : m.kind.reports = true
      · obtain ⟨h1, h2⟩ := hreports.mp hrep
        have hraise : ((ldArrived m k as g).finish .ld o.pos).ctime.toNat = max g.ctime.toNat (latest as) := by
          rw [ldArrived, if_pos hrep]
          exact (raiseCtime_toNat _ hlate).trans (by rw [hctime])
        rw [hraise, ← foldl_latest]
        simp [h1, h2]
      · have hkeep : ((ldArrived m k as g).finish .ld o.pos).ctime = g.ctime := by
          rw [ldArrived, if_neg hrep]
          exact hctime
        have hno : ¬ (m.kind ≠ .load ∧ m.kind ≠ .lblrd) := fun h => hrep (hreports.mpr h)
        rw [hkeep]
        simp [hno]
    · refine (congrArg (fun v => mget 0 v (32 * (k + j) + a.lane)) hv.1).trans ((hd.done a ha hst j hj).trans ?_)
      exact congrArg (fun y => wordOf y j) (laneValue_eq ..)
    · rw [hv.2]
      exact hd.failed a ha c hc j hj
    · exact (congrArg (fun v => mget 0 v (32 * j + l)) hv.1).trans (hd.vregs j l hl hno)
  · have hexec : exec (.storeCommitReport id) s = .next (s.storeReport id) := rfl
    have hall : as.all Acc.final = true := List.all_eq_true.mpr fun a ha => by simp [Acc.final, (has a ha).1]
    have hreport : s.storeReport id = (s.updGrp o.gid (fun g => g.raiseCtime (latest as))).endOp id := by
      unfold State.storeReport
      simp only [ho, hkind, hcls, hall, judging_of_block hg hblock, hrep, Bool.not_false, Bool.and_self, if_true,
        reportFails_of_done fun a ha => (has a ha).1]
    have hr := reported_endOp (fun g => g.raiseCtime (latest as)) ho hcls hg
    have hlate : latest as < 2 ^ 64 := latest_lt fun a ha => (has a ha).2
    refine ⟨_, _, hexec.trans (congrArg Host.Outcome.next hreport), hr.group, hr.others, hr.rest, hr.gone, rfl, rfl, ?_⟩
    refine (raiseCtime_toNat g hlate).trans ?_
    rw [← foldl_latest]
    exact List.foldl_ext _ _ _ fun c a ha => by simp [(has a ha).1]

end Sys2Proof.Machine
end

section
/-! The proof of `Obligations.ScratchpadAccesses`: the scratchpad and the register mirror as bytes that accesses read and write. -/

namespace Sys2Proof.Machine

/-! ### Accesses one after another -/

/-- `n` consecutive bytes of a view of memory. -/
def viewBytes (view : Nat → Byte) (a n : Nat) : List Byte := (List.range n).map fun j => view (a + j)

/-- Byte `p` after `n` bytes of `x` have been written at `a`. -/
def viewPut (view : Nat → Byte) (a n x p : Nat) : Byte := if a ≤ p ∧ p < a + n then BitVec.ofNat 8 (x / 2 ^ (8 * (p - a))) else view p

/-- An access as it stands once it has been performed on the bytes `view`. -/
def performed (m : MemDesc) (t : Nat) (view : Nat → Byte) (a : Acc) : Acc :=
  { a with st := .done, res := leNat (viewBytes view a.va.toNat m.width), tc := t }

/-- What an access leaves of the bytes `view`. -/
def viewAfter (m : MemDesc) (view : Nat → Byte) (a : Acc) (p : Nat) : Byte :=
  match newValue m.kind m.ty (leNat (viewBytes view a.va.toNat m.width)) a.data a.data2 with
  | some x => viewPut view a.va.toNat m.width x p
  | none => view p

/-- The state after one access of group `gid`. -/
def accStep (u : State) (gid : Nat) (m : MemDesc) (a : Acc) : State :=
  match newValue m.kind m.ty (u.spRead gid a.va.toNat m.width) a.data a.data2 with
  | some x => u.spWrite gid a.va.toNat m.width x
  | none => u

theorem spPerform_cons {u : State} {gid : Nat} {m : MemDesc} {a : Acc} (as : List Acc) {g : Group} (hst : a.st ≠ .done)
    (hg : (accStep u gid m a).grp? gid = some g) :
    u.spPerform gid m (a :: as) =
      ({ a with st := .done, res := u.spRead gid a.va.toNat m.width, tc := (accStep u gid m a).regtime g } ::
        ((accStep u gid m a).spPerform gid m as).1, ((accStep u gid m a).spPerform gid m as).2) := by
  rw [State.spPerform, if_neg hst]
  have h : ∀ t : State, t = accStep u gid m a → (match t.grp? gid with | some g => t.regtime g | none => t.now) = t.regtime g := by
    rintro t rfl
    rw [hg]
  exact congrArg (fun n => (({ a with st := .done, res := u.spRead gid a.va.toNat m.width, tc := n } : Acc) :: _, _)) (h _ rfl)

/-- Two accesses touch no byte in common. -/
def Disjoint' (m : MemDesc) (a b : Acc) : Prop := a.va.toNat + m.width ≤ b.va.toNat ∨ b.va.toNat + m.width ≤ a.va.toNat

theorem viewAfter_outside {m : MemDesc} {view : Nat → Byte} {a : Acc} {p : Nat} (h : p < a.va.toNat ∨ a.va.toNat + m.width ≤ p) :
    viewAfter m view a p = view p := by
  unfold viewAfter
  split
  · exact if_neg (by omega)
  · rfl

theorem viewBytes_congr {view view' : Nat → Byte} {a n : Nat} (h : ∀ p, a ≤ p → p < a + n → view p = view' p) :
    viewBytes view a n = viewBytes view' a n :=
  List.map_congr_left fun j hj => h _ (by omega) (by have := List.mem_range.mp hj; omega)

theorem viewAfter_of_disjoint {m : MemDesc} {view : Nat → Byte} {a b : Acc} (h : Disjoint' m a b) :
    viewBytes (viewAfter m view a) b.va.toNat m.width = viewBytes view b.va.toNat m.width :=
  viewBytes_congr fun p _ _ => viewAfter_outside (by unfold Disjoint' at h; omega)

/-- A way to see the bytes that accesses of a group reach at the addresses `Q`: `P` holds of the states on the way. -/
structure View (gid n t : Nat) (P : State → Group → Prop) (Q : Nat → Prop) (view : State → Group → Nat → Byte) : Prop where
  group : ∀ u g, P u g → u.grp? gid = some g ∧ u.regtime g = t
  read : ∀ u g a, P u g → Q a → u.spRead gid a n = leNat (viewBytes (view u g) a n)
  write : ∀ u g a x, P u g → Q a → ∃ g', P (u.spWrite gid a n x) g' ∧ ∀ p, view (u.spWrite gid a n x) g' p = viewPut (view u g) a n x p

/-- Disjoint accesses see what stood there before any of them. -/
theorem spPerform_view {gid t : Nat} {m : MemDesc} {P : State → Group → Prop} {Q : Nat → Prop} {view : State → Group → Nat → Byte}
    (hv : View gid m.width t P Q view) (as : List Acc) {u : State} {g : Group} (hP : P u g) (hst : ∀ a ∈ as, a.st ≠ .done)
    (hQ : ∀ a ∈ as, Q a.va.toNat) (hdis : as.Pairwise (Disjoint' m)) :
    ∃ g' u', u.spPerform gid m as = (as.map (performed m t (view u g)), u') ∧ P u' g' ∧
      (∀ a ∈ as, ∀ j, j < m.width → view u' g' (a.va.toNat + j) = viewAfter m (view u g) a (a.va.toNat + j)) ∧
      ∀ p, (∀ a ∈ as, p < a.va.toNat ∨ a.va.toNat + m.width ≤ p) → view u' g' p = view u g p := by
  induction as generalizing u g with
  | nil => exact ⟨g, u, rfl, hP, by simp, fun _ _ => rfl⟩
  | cons a as ih =>
    obtain ⟨hda, hdis⟩ := List.pairwise_cons.mp hdis
    have hread := hv.read u g a.va.toNat hP (hQ a List.mem_cons_self)
    obtain ⟨g1, hP1, hview1⟩ : ∃ g1, P (accStep u gid m a) g1 ∧ ∀ p, view (accStep u gid m a) g1 p = viewAfter m (view u g) a p := by
      unfold viewAfter accStep
      rw [hread]
      split
      next x _ => exact hv.write u g a.va.toNat x hP (hQ a List.mem_cons_self)
      next => exact ⟨g, hP, fun _ => rfl⟩
    obtain ⟨g', u', hperf, hP', hin, hout⟩ := ih hP1 (fun b hb => hst b (List.mem_cons_of_mem _ hb))
      (fun b hb => hQ b (List.mem_cons_of_mem _ hb)) hdis
    have hfun : view (accStep u gid m a) g1 = viewAfter m (view u g) a := funext hview1
    have hold : ∀ b ∈ as, viewBytes (view (accStep u gid m a) g1) b.va.toNat m.width = viewBytes (view u g) b.va.toNat m.width := fun b hb => by
      rw [hfun]
      exact viewAfter_of_disjoint (hda b hb)
    refine ⟨g', u', ?_, hP', fun b hb j hj => ?_, fun p hp => ?_⟩
    · obtain ⟨hg1, ht1⟩ := hv.group _ g1 hP1
      rw [spPerform_cons as (hst a List.mem_cons_self) hg1, ht1, hread, hperf, List.map_cons]
      refine congrArg (fun r => (_ :: r, u')) (List.map_congr_left fun b hb => ?_)
      rw [performed, performed, hold b hb]
    · rcases List.mem_cons.mp hb with rfl | hb
      · rw [hout _ fun c hc => ?_, hfun]
        have := hda c hc
        unfold Disjoint' at this
        omega
      · rw [hin b hb j hj]
        unfold viewAfter
        rw [hold b hb]
        split
        next => simp only [viewPut]; rw [if_pos (by omega), if_pos (by omega)]
        next =>
          rw [hfun]
          exact viewAfter_outside (by have := hda b hb; unfold Disjoint' at this; omega)
    · rw [hout p fun b hb => hp b (List.mem_cons_of_mem _ hb), hfun]
      exact viewAfter_outside (hp a List.mem_cons_self)

/-- Accesses that write nothing leave the state as it is. -/
theorem spPerform_reads {gid t : Nat} {m : MemDesc} {P : State → Group → Prop} {Q : Nat → Prop} {view : State → Group → Nat → Byte}
    (hv : View gid m.width t P Q view) (as : List Acc) {u : State} {g : Group} (hP : P u g) (hst : ∀ a ∈ as, a.st ≠ .done)
    (hQ : ∀ a ∈ as, Q a.va.toNat) (hnone : ∀ old x y, newValue m.kind m.ty old x y = none) :
    u.spPerform gid m as = (as.map (performed m t (view u g)), u) := by
  induction as with
  | nil => rfl
  | cons a as ih =>
    obtain ⟨hg, ht⟩ := hv.group u g hP
    have hrest := ih (fun b hb => hst b (List.mem_cons_of_mem _ hb)) (fun b hb => hQ b (List.mem_cons_of_mem _ hb))
    have hstep : accStep u gid m a = u := by simp [accStep, hnone]
    rw [spPerform_cons as (hst a List.mem_cons_self) (hstep.symm ▸ hg), hstep, ht, hv.read u g a.va.toNat hP (hQ a List.mem_cons_self), hrest]
    rfl

/-! ### The scratchpad that a group's code reaches (R53, R333) -/

/-- The group's scratchpad is its team's, or that of the gate callee it runs. -/
def Here (s : State) (g : Group) : Prop :=
  (g.frames = [] ∧ g.team < (mget ({} : Gang) s.gangs g.gang).teams.length) ∨ ∃ f fs, g.frames = f :: fs ∧ f.kern = false

/-- From `s` on nothing but the bytes of the scratchpad of group `x.gid` has changed; the group is now `g`. -/
structure SpOnly (s : State) (x : Issue) (u : State) (g : Group) : Prop where
  rest : { u with groups := s.groups, gangs := s.gangs } = s
  group : u.grp? x.gid = some g
  others : ∀ j, j ≠ x.gid → u.grp? j = s.grp? j
  group_rest : { g with frames := x.g.frames } = x.g
  teams : ∀ i j, i ≠ x.g.gang ∨ j ≠ x.g.team → u.team i j = s.team i j
  team : { u.team x.g.gang x.g.team with sp := (s.team x.g.gang x.g.team).sp } = s.team x.g.gang x.g.team
  size : (u.scratch g).1 = (s.scratch x.g).1
  here : Here u g

theorem spOnly_refl {s : State} {x : Issue} (hg : s.grp? x.gid = some x.g) (hhere : Here s x.g) : SpOnly s x s x.g :=
  ⟨rfl, hg, fun _ _ => rfl, rfl, fun _ _ _ => rfl, rfl, rfl, hhere⟩

theorem getD_setAt_other {α : Type} (f : α → α) {k j : Nat} (xs : List α) {d : α} (h : j ≠ k) : (setAt f k xs).getD j d = xs.getD j d := by
  induction xs generalizing k j with
  | nil => cases k <;> rfl
  | cons y xs ih =>
    cases k with
    | zero =>
      cases j with
      | zero => exact absurd rfl h
      | succ j => rfl
    | succ k =>
      cases j with
      | zero => rfl
      | succ j => exact ih fun hjk => h (congrArg _ hjk)

theorem team_updTeam_other {s : State} {k t : Nat} (f : Team → Team) {i j : Nat} (h : i ≠ k ∨ j ≠ t) : (s.updTeam k t f).team i j = s.team i j := by
  unfold State.team State.updTeam mget
  rw [mfind_mupd]
  split
  next hk =>
    subst hk
    cases mfind s.gangs k with
    | none => rfl
    | some e =>
      have hj : j ≠ t := h.resolve_left fun hne => hne rfl
      exact getD_setAt_other f e.teams hj
  next => rfl

theorem scratch_of_nil {s : State} {g : Group} (h : g.frames = []) :
    s.scratch g = ((s.team g.gang g.team).scratch, (s.team g.gang g.team).sp) := by
  simp [State.scratch, Group.callee?, h]

theorem scratch_of_cons {s : State} {g : Group} {f : Frame} {fs : List Frame} (h : g.frames = f :: fs) (hf : f.kern = false) :
    s.scratch g = (1024 * f.xkib, f.scratch) := by
  simp [State.scratch, Group.callee?, h, hf]

/-- The bytes of the scratchpad that a group reaches. -/
def spView (u : State) (g : Group) (p : Nat) : Byte := mget byteZero (u.scratch g).2 p

theorem mgets_eq_viewBytes (m : Map Byte) (a n : Nat) : mgets byteZero m a n = viewBytes (fun p => mget byteZero m p) a n := by
  induction n generalizing a with
  | zero => rfl
  | succ n ih =>
    rw [mgets, ih, viewBytes, viewBytes, List.range_succ_eq_map, List.map_cons, List.map_map]
    exact congrArg₂ List.cons rfl (List.map_congr_left fun j _ => by simp [Nat.add_assoc, Nat.add_comm 1])

theorem mget_msets_leBytes (m : Map Byte) (a n x p : Nat) :
    mget byteZero (msets byteZero m a (leBytes n x)) p = viewPut (fun p => mget byteZero m p) a n x p := by
  rw [mget_msets, leBytes_length, viewPut]
  split
  next h => exact getD_leBytes _ _ _ (by omega) _
  next => rfl

/-- A write of the scratchpad writes its bytes and nothing else. -/
theorem spOnly_spWrite {s u : State} {x : Issue} {g : Group} {a n y : Nat} (h : SpOnly s x u g) (ha : a < aliasBase) :
    ∃ g', SpOnly s x (u.spWrite x.gid a n y) g' ∧ ∀ p, spView (u.spWrite x.gid a n y) g' p = viewPut (spView u g) a n y p := by
  obtain ⟨hrest, hgroup, hothers, hgr, hteams, hteam, hsize, hhere⟩ := h
  have hgang : g.gang = x.g.gang := by rw [← hgr]
  have hteamno : g.team = x.g.team := by rw [← hgr]
  unfold State.spWrite
  rw [hgroup]
  dsimp only
  rw [if_neg (Nat.not_le.mpr ha)]
  rcases hhere with ⟨hnil, hlt⟩ | ⟨f, fs, hfr, hk⟩
  · simp only [hnil]
    have ht := team_updTeam hlt fun t : Team => { t with sp := msets byteZero t.sp a (leBytes n y) }
    refine ⟨g, ⟨?_, hgroup, hothers, hgr, fun i j hij => ?_, ?_, ?_, Or.inl ⟨hnil, ?_⟩⟩, fun p => ?_⟩
    · exact hrest
    · rw [team_updTeam_other _ (by rwa [hgang, hteamno]), hteams i j hij]
    · rw [hgang, hteamno] at ht
      rw [hgang, hteamno, ht]
      exact hteam
    · rw [← hsize, scratch_of_nil hnil, scratch_of_nil hnil, ht]
    · rw [length_teams_updTeam]
      exact hlt
    · rw [spView, scratch_of_nil hnil, ht]
      refine (mget_msets_leBytes ..).trans ?_
      unfold viewPut spView
      rw [scratch_of_nil hnil]
  · simp only [hfr]
    rw [if_neg (by simp [hk])]
    have hg' := State.grp?_updGrp_same hgroup
      (fun g => { g with frames := { f with scratch := msets byteZero f.scratch a (leBytes n y) } :: fs })
    refine ⟨_, ⟨hrest, hg', fun j hj => (State.grp?_updGrp_other (Ne.symm hj) _).trans (hothers j hj), hgr, hteams, hteam, ?_,
      Or.inr ⟨_, _, rfl, hk⟩⟩, fun p => ?_⟩
    · rw [← hsize, scratch_of_cons hfr hk]
      exact (congrArg Prod.fst (scratch_of_cons (f := { f with scratch := msets byteZero f.scratch a (leBytes n y) }) rfl hk)).trans rfl
    · have hsc : ((u.updGrp x.gid (fun g => { g with frames := { f with scratch := msets byteZero f.scratch a (leBytes n y) } :: fs })).scratch
          { g with frames := { f with scratch := msets byteZero f.scratch a (leBytes n y) } :: fs }).2 = msets byteZero f.scratch a (leBytes n y) :=
        congrArg Prod.snd (scratch_of_cons (f := { f with scratch := msets byteZero f.scratch a (leBytes n y) }) rfl hk)
      rw [spView]
      refine (congrArg (fun m => mget byteZero m p) hsc).trans ((mget_msets_leBytes ..).trans ?_)
      unfold viewPut spView
      rw [scratch_of_cons hfr hk]

/-- Scratchpad addresses as accesses reach them. -/
theorem view_scratchpad {s : State} {x : Issue} (n : Nat) :
    View x.gid n (s.regtime x.g) (SpOnly s x) (· < aliasBase) spView where
  group u g h := ⟨h.group, by
    have hnow : u.now = s.now ∧ u.lagCl = s.lagCl := by rw [← h.rest]; exact ⟨rfl, rfl⟩
    have hcl : g.cluster = x.g.cluster := by rw [← h.group_rest]
    rw [State.regtime, State.regtime, hnow.1, hnow.2, hcl]⟩
  read u g a h ha := by
    unfold State.spRead
    rw [h.group]
    dsimp only
    rw [if_neg (Nat.not_le.mpr ha), mgets_eq_viewBytes]
    rfl
  write u g a y h ha := spOnly_spWrite h ha

/-! ### The register mirror (R53) -/

/-- Byte `p` of a register window. -/
def regByte (v : Map Word) (p : Nat) : Nat := bits (mget 0 v (p / 4)).toNat (8 * (p % 4)) 8

/-- A word with byte `i` replaced by `b`. -/
def putByte (w i b : Nat) : Nat := w % 2 ^ (8 * i) + 2 ^ (8 * i) * (b + 256 * (w / 2 ^ (8 * i + 8)))

theorem bits_putByte {w i b j : Nat} (hw : w < 2 ^ 32) (hb : b < 256) (hi : i < 4) (hj : j < 4) :
    bits (BitVec.ofNat 32 (putByte w i b)).toNat (8 * j) 8 = if j = i then b else bits w (8 * j) 8 := by
  simp only [BitVec.toNat_ofNat, putByte, bits]
  interval_cases i <;> interval_cases j <;> simp <;> omega

/-- One byte written through the mirror. -/
theorem regByte_mset {v : Map Word} {off p : Nat} (b : Byte) :
    regByte (mset 0 v (off / 4) (BitVec.ofNat 32 (putByte (mget 0 v (off / 4)).toNat (off % 4) b.toNat))) p =
      if p = off then b.toNat else regByte v p := by
  unfold regByte
  rw [mget_mset]
  by_cases h : off / 4 = p / 4
  · rw [if_pos h, bits_putByte (BitVec.isLt _) b.isLt (Nat.mod_lt _ (by decide)) (Nat.mod_lt _ (by decide)), h]
    by_cases hp : p % 4 = off % 4
    · rw [if_pos hp, if_pos (by omega)]
    · rw [if_neg hp, if_neg (by omega)]
  · rw [if_neg h, if_neg (by omega)]

/-- Bytes written through the mirror change those bytes of the window and nothing else. -/
theorem aliasWrite_bytes (bs : List Byte) {g : Group} {off : Nat} (hp : g.poison = []) :
    { aliasWrite g off bs with v := g.v } = g ∧
      ∀ p, regByte (aliasWrite g off bs).v p = if off ≤ p ∧ p < off + bs.length then (bs.getD (p - off) 0).toNat else regByte g.v p := by
  induction bs generalizing g off with
  | nil => exact ⟨rfl, fun p => by rw [if_neg (by simp)]; rfl⟩
  | cons b bs ih =>
    let g1 : Group := { g with v := mset 0 g.v (off / 4) (BitVec.ofNat 32 (putByte (mget 0 g.v (off / 4)).toNat (off % 4) b.toNat)) }
    have hstep : aliasWrite g off (b :: bs) = aliasWrite g1 (off + 1) bs := by
      rw [aliasWrite, hp]
      rw [show g1 = { g1 with poison := [] } from hp ▸ rfl]
      rfl
    obtain ⟨h1, h2⟩ := ih (g := g1) (off := off + 1) hp
    rw [hstep]
    refine ⟨congrArg (fun h : Group => { h with v := g.v }) h1, fun p => ?_⟩
    rw [h2 p, regByte_mset]
    rcases lt_trichotomy p off with h | rfl | h
    · rw [if_neg (by omega), if_neg (by omega), if_neg (by omega)]
    · rw [if_neg (by omega), if_pos rfl, if_pos (by simp), Nat.sub_self]
      rfl
    · by_cases hlt : p < off + 1 + bs.length
      · rw [if_pos ⟨h, hlt⟩, if_pos (by rw [List.length_cons]; omega), show p - off = p - (off + 1) + 1 by omega, List.getD_cons_succ]
      · rw [if_neg (by omega), if_neg (by omega), if_neg (by rw [List.length_cons]; omega)]

theorem aliasRead_eq (v : Map Word) (off n : Nat) : aliasRead v off n = viewBytes (fun p => BitVec.ofNat 8 (regByte v p)) off n := by
  induction n generalizing off with
  | zero => rfl
  | succ n ih =>
    rw [aliasRead, ih, viewBytes, viewBytes, List.range_succ_eq_map, List.map_cons, List.map_map]
    exact congrArg₂ List.cons rfl (List.map_congr_left fun j _ => by simp [Nat.add_assoc, Nat.add_comm 1])

/-- From `s` on nothing but the vector registers of group `x.gid` has changed; the group is now `g`. -/
structure RegsOnly (s : State) (x : Issue) (u : State) (g : Group) : Prop where
  rest : { u with groups := s.groups } = s
  group : u.grp? x.gid = some g
  others : ∀ j, j ≠ x.gid → u.grp? j = s.grp? j
  group_rest : { g with v := x.g.v } = x.g
  poison : g.poison = []

/-- The bytes of a group's registers, at their mirror addresses. -/
def aliasView (_ : State) (g : Group) (p : Nat) : Byte := if aliasBase ≤ p then BitVec.ofNat 8 (regByte g.v (p - aliasBase)) else 0

/-- Alias addresses as accesses reach them. -/
theorem view_alias {s : State} {x : Issue} (n : Nat) : View x.gid n (s.regtime x.g) (RegsOnly s x) (aliasBase ≤ ·) aliasView where
  group u g h := ⟨h.group, by
    have hnow : u.now = s.now ∧ u.lagCl = s.lagCl := by rw [← h.rest]; exact ⟨rfl, rfl⟩
    have hcl : g.cluster = x.g.cluster := by rw [← h.group_rest]
    rw [State.regtime, State.regtime, hnow.1, hnow.2, hcl]⟩
  read u g a h ha := by
    unfold State.spRead
    rw [h.group]
    dsimp only
    rw [if_pos ha, aliasRead_eq]
    refine congrArg leNat (List.map_congr_left fun j _ => ?_)
    unfold aliasView
    rw [if_pos (by omega), Nat.sub_add_comm ha]
  write u g a y h ha := by
    obtain ⟨hrest, hbytes⟩ := aliasWrite_bytes (leBytes n y) (off := a - aliasBase) h.poison
    unfold State.spWrite
    rw [h.group]
    dsimp only
    rw [if_pos ha]
    refine ⟨aliasWrite g (a - aliasBase) (leBytes n y), ⟨h.rest, State.grp?_updGrp_same h.group _,
      fun j hj => (State.grp?_updGrp_other (Ne.symm hj) _).trans (h.others j hj), ?_, ?_⟩, fun p => ?_⟩
    · exact (congrArg (fun g : Group => { g with v := x.g.v }) hrest).trans h.group_rest
    · exact (show (aliasWrite g (a - aliasBase) (leBytes n y)).poison = g.poison by conv_rhs => rw [← hrest]).trans h.poison
    · unfold viewPut
      by_cases hp : aliasBase ≤ p
      · rw [aliasView, aliasView, if_pos hp, hbytes, leBytes_length, if_pos hp]
        by_cases hin : a ≤ p ∧ p < a + n
        · rw [if_pos hin, if_pos (by omega), getD_leBytes _ _ _ (by omega), show p - aliasBase - (a - aliasBase) = p - a by omega]
          rw [BitVec.ofNat_toNat, BitVec.setWidth_eq]
        · rw [if_neg hin, if_neg (by omega)]
      · rw [aliasView, aliasView, if_neg hp, if_neg (by omega), if_neg hp]

/-! ### The checks of R198 on scratchpad addresses -/

/-- The address that lane `l` forms. -/
def spAddr (x : Issue) (base : Opnd) (off l : Nat) : Nat := (x.g.opnd base 1 l + off) % 2 ^ 32

/-- The accesses of a scratchpad instruction, before any is performed. -/
def spAccs (x : Issue) (base : Opnd) (off : Nat) (dat : Nat → Nat) : List Acc :=
  (lanesOf x.act).map (fun l => { lane := l, va := BitVec.ofNat 64 (spAddr x base off l), data := dat l })

/-- The addresses that the scratchpad does not reach. -/
def spBad (s : State) (x : Issue) (noAlias : Bool) (v : Nat) : Bool := !(s.spOk x.g v) || (noAlias && v ≥ aliasBase)

theorem spAddr_lt (x : Issue) (base : Opnd) (off l : Nat) : spAddr x base off l < 2 ^ 32 := Nat.mod_lt _ (by decide)

theorem toNat_spAddr (x : Issue) (base : Opnd) (off l : Nat) : (BitVec.ofNat 64 (spAddr x base off l)).toNat = spAddr x base off l := by
  have := spAddr_lt x base off l
  rw [BitVec.toNat_ofNat]
  exact Nat.mod_eq_of_lt (by omega)

section
variable {s : State} {x : Issue} {m : MemDesc} {noAlias : Bool} {base : Opnd} {off : Nat} {dat : Nat → Nat}

theorem lanesOf_and (a b : Word) : lanesOf (a &&& b) = (lanesOf a).filter (fun l => b.getLsbD l) := by
  unfold lanesOf
  rw [List.filter_filter]
  exact List.filter_congr fun l _ => by rw [BitVec.getLsbD_and, Bool.and_comm]

/-- The lanes of the run that fail a check, with their addresses. -/
theorem failing_spAccs (p : Nat → Bool) :
    failing x (addrsOf (spAccs x base off dat)) p =
      ((lanesOf (x.act &&& x.run)).filter (fun l => p (spAddr x base off l))).map (fun l => (l, spAddr x base off l)) := by
  have haddrs : addrsOf (spAccs x base off dat) = (lanesOf x.act).map (fun l => (l, spAddr x base off l)) := by
    rw [addrsOf, spAccs, List.map_map]
    exact List.map_congr_left fun l _ => congrArg (Prod.mk l) (toNat_spAddr x base off l)
  rw [haddrs, failing, List.filter_map, lanesOf_and, List.filter_filter]
  rfl

theorem spBad_eq : spBad s x noAlias = fun v => !(s.spOk x.g v) || (noAlias && v ≥ aliasBase) := rfl

/-- A check that fails ends the issue with its trap. -/
theorem spIssue_fails {t : State} (hact : x.act ≠ 0)
    (h : s.checkAddrs x m.kind true (spBad s x noAlias) 0x0E m.width (addrsOf (spAccs x base off dat)) = some t) :
    s.spIssue x m noAlias base off dat = t := by
  unfold addrsOf spAccs spAddr at h
  rw [spBad_eq] at h
  rw [State.spIssue, if_neg hact]
  simp only [h]

/-- Accesses that pass every check and share no address are performed in the order of their lanes, and counted. -/
theorem spIssue_performs (hact : x.act ≠ 0)
    (hcheck : s.checkAddrs x m.kind true (spBad s x noAlias) 0x0E m.width (addrsOf (spAccs x base off dat)) = none)
    (hhits : s.wpHits x m.kind true (addrsOf (spAccs x base off dat)) = [])
    (hgood : ∀ l, x.act.getLsbD l = true → spBad s x noAlias (spAddr x base off l) = false ∧ spAddr x base off l % m.width = 0)
    (hpoison : m.kind = .store ∨ x.g.poison = [] ∨ ∀ l, x.act.getLsbD l = true → spAddr x base off l < aliasBase)
    (hshared : m.kind.isWrite = true → sharedAddr (spAccs x base off dat) = false) :
    s.spIssue x m noAlias base off dat =
      ((s.spPerform x.gid m (spAccs x base off dat)).2.addOp x.gid m.cls (.mem m (s.spPerform x.gid m (spAccs x base off dat)).1)).updGrp
        x.gid (fun g => g.advance x.run) := by
  have hkept : (spAccs x base off dat).map (fun a =>
      if x.run.getLsbD a.lane then a
      else if (!(s.spOk x.g a.va.toNat) || (noAlias && a.va.toNat ≥ aliasBase)) || a.va.toNat % m.width != 0 || ([] : List Nat).contains a.lane then
        { a with st := .done, res := 0 } else a) = spAccs x base off dat := by
    unfold spAccs
    rw [List.map_map]
    refine List.map_congr_left fun l hl => ?_
    obtain ⟨hb, ha⟩ := hgood l ((mem_lanesOf _ _).mp hl)
    rw [spBad_eq] at hb
    dsimp only [Function.comp] at hb ⊢
    rw [toNat_spAddr, hb, ha]
    simp
  have hpoisoned : (if m.kind = .store ∨ x.g.poison.isEmpty then []
      else (spAccs x base off dat).filter (fun a => x.run.getLsbD a.lane && a.va.toNat ≥ aliasBase &&
        (List.range ((m.width + 3) / 4)).any (fun i => (mfind x.g.poison ((a.va.toNat - aliasBase) / 4 + i)).isSome))) = [] := by
    split
    · rfl
    next h =>
      rw [not_or] at h
      refine List.filter_eq_nil_iff.mpr fun a ha => ?_
      obtain ⟨l, hl, rfl⟩ := List.mem_map.mp ha
      have hlt := ((hpoison.resolve_left h.1).resolve_left fun hp => h.2 (by simp [hp])) l ((mem_lanesOf _ _).mp hl)
      simp only [toNat_spAddr, Bool.and_eq_true, decide_eq_true_eq, not_and]
      intro hge
      omega
  have hwrite : (m.kind.isWrite && sharedAddr (spAccs x base off dat)) = false := by
    cases hw : m.kind.isWrite with
    | false => rfl
    | true => exact hshared hw
  unfold addrsOf spAccs spAddr at hcheck hhits
  unfold spAccs spAddr at hkept hpoisoned hwrite ⊢
  rw [spBad_eq] at hcheck
  rw [State.spIssue, if_neg hact]
  simp only [hcheck, hhits, List.map_nil]
  rw [hpoisoned]
  dsimp only
  rw [hkept, hwrite, if_neg Bool.false_ne_true]

/-- What a check's trap says of the lanes that fail it (Table 12-3). -/
def SpTrap (s : State) (x : Issue) (u : State) (cause : Nat) (bad : Nat → Prop) : Prop :=
  ∃ t : TrapRec, u = s.queueTrap x.gid t ∧ t.cause = cause ∧ t.pc = x.pc ∧ t.run = x.act &&& x.run ∧
    (x.once = false → ∀ l, l < 32 → (t.mask.getLsbD l = true ↔ l ∈ lanesOf (x.act &&& x.run) ∧ bad l))

theorem spTrap_noLane {cause addr : Nat} {p : Nat → Bool} {bad : Nat → Prop} (h : ∀ l, p (spAddr x base off l) = true ↔ bad l) :
    SpTrap s x (x.noLane s cause ((failing x (addrsOf (spAccs x base off dat)) p).map (·.1)) addr 0) cause bad := by
  refine ⟨_, rfl, rfl, rfl, rfl, fun honce l hl => ?_⟩
  simp only [Issue.trap, honce, Bool.false_eq_true, if_false]
  have hfst : ∀ ls : List Nat, ls.map ((fun q : Nat × Nat => q.1) ∘ fun l => (l, spAddr x base off l)) = ls := List.map_id
  rw [failing_spAccs, List.map_map, hfst, mem_maskOf_lt (fun n hn => lt_of_mem_lanesOf (List.mem_filter.mp hn).1) hl, List.mem_filter, h]

theorem failing_ne_nil {p : Nat → Bool} {bad : Nat → Prop} (h : ∀ l, p (spAddr x base off l) = true ↔ bad l) :
    failing x (addrsOf (spAccs x base off dat)) p ≠ [] ↔ ∃ l ∈ lanesOf (x.act &&& x.run), bad l := by
  rw [failing_spAccs, Ne, List.map_eq_nil_iff, List.filter_eq_nil_iff]
  simp [h]

/-- The first check of R198 that fails traps, SCRATCH_RANGE before MISALIGNED_ACCESS. -/
theorem spIssue_traps {out : Nat → Prop} (hact : x.act ≠ 0) (hout : ∀ l, spBad s x noAlias (spAddr x base off l) = true ↔ out l) :
    ((∃ l ∈ lanesOf (x.act &&& x.run), out l) → SpTrap s x (s.spIssue x m noAlias base off dat) 0x0E out) ∧
    ((∀ l ∈ lanesOf (x.act &&& x.run), ¬ out l) → (∃ l ∈ lanesOf (x.act &&& x.run), spAddr x base off l % m.width ≠ 0) →
      SpTrap s x (s.spIssue x m noAlias base off dat) 0x12 (fun l => spAddr x base off l % m.width ≠ 0)) := by
  have hskew : ∀ l, (fun v => v % m.width != 0) (spAddr x base off l) = true ↔ spAddr x base off l % m.width ≠ 0 := fun l => by simp
  constructor
  · intro hex
    obtain ⟨a, r, hf⟩ := List.exists_cons_of_ne_nil ((failing_ne_nil (dat := dat) hout).mpr hex)
    have hcheck : s.checkAddrs x m.kind true (spBad s x noAlias) 0x0E m.width (addrsOf (spAccs x base off dat)) =
        some (x.noLane s 0x0E ((failing x (addrsOf (spAccs x base off dat)) (spBad s x noAlias)).map (·.1)) a.2 0) := by
      rw [State.checkAddrs, hf]
    rw [spIssue_fails hact hcheck]
    exact spTrap_noLane hout
  · intro hnone hex
    obtain ⟨a, r, hf⟩ := List.exists_cons_of_ne_nil ((failing_ne_nil (dat := dat) (p := fun v => v % m.width != 0) hskew).mpr hex)
    have hnil : failing x (addrsOf (spAccs x base off dat)) (spBad s x noAlias) = [] := by
      by_contra h
      obtain ⟨l, hl, ho⟩ := (failing_ne_nil hout).mp h
      exact hnone l hl ho
    have hcheck : s.checkAddrs x m.kind true (spBad s x noAlias) 0x0E m.width (addrsOf (spAccs x base off dat)) =
        some (x.noLane s 0x12 ((failing x (addrsOf (spAccs x base off dat)) (fun v => v % m.width != 0)).map (·.1)) a.2 0) := by
      rw [State.checkAddrs, hnil, hf]
    rw [spIssue_fails hact hcheck]
    exact spTrap_noLane (p := fun v => v % m.width != 0) hskew

/-- Addresses that pass the checks and are not watched. -/
theorem checkAddrs_sp_none (hwp : (mget {} s.cores x.g.core).dbg.wpctl = 0)
    (hgood : ∀ l, x.act.getLsbD l = true → spBad s x noAlias (spAddr x base off l) = false ∧ spAddr x base off l % m.width = 0) :
    s.checkAddrs x m.kind true (spBad s x noAlias) 0x0E m.width (addrsOf (spAccs x base off dat)) = none ∧
      s.wpHits x m.kind true (addrsOf (spAccs x base off dat)) = [] := by
  have hhits : s.wpHits x m.kind true (addrsOf (spAccs x base off dat)) = [] := by
    unfold State.wpHits
    split
    · rfl
    · exact if_pos hwp
  have hown : ∀ l, l ∈ lanesOf (x.act &&& x.run) → x.act.getLsbD l = true := fun l hl => by
    have := (mem_lanesOf _ _).mp hl
    rw [BitVec.getLsbD_and, Bool.and_eq_true] at this
    exact this.1
  have h1 : failing x (addrsOf (spAccs x base off dat)) (spBad s x noAlias) = [] := by
    rw [failing_spAccs, List.map_eq_nil_iff, List.filter_eq_nil_iff]
    exact fun l hl => by simp [(hgood l (hown l hl)).1]
  have h2 : failing x (addrsOf (spAccs x base off dat)) (fun v => v % m.width != 0) = [] := by
    rw [failing_spAccs, List.map_eq_nil_iff, List.filter_eq_nil_iff]
    exact fun l hl => by simp [(hgood l (hown l hl)).2]
  exact ⟨by rw [State.checkAddrs, h1, h2, hhits]; rfl, hhits⟩

end

/-! ### What the accesses leave -/

/-- From `s` on nothing but the scratchpad or the registers of group `x.gid` has changed; the group is now `g`. -/
structure Touched (s : State) (x : Issue) (u : State) (g : Group) : Prop where
  rest : { u with groups := s.groups, gangs := s.gangs } = s
  group : u.grp? x.gid = some g
  others : ∀ j, j ≠ x.gid → u.grp? j = s.grp? j
  group_rest : { g with frames := x.g.frames, v := x.g.v } = x.g
  teams : ∀ i j, i ≠ x.g.gang ∨ j ≠ x.g.team → u.team i j = s.team i j
  team : { u.team x.g.gang x.g.team with sp := (s.team x.g.gang x.g.team).sp } = s.team x.g.gang x.g.team

section
variable {s u : State} {x : Issue} {g : Group}

theorem SpOnly.touched (h : SpOnly s x u g) : Touched s x u g :=
  ⟨h.rest, h.group, h.others, congrArg (fun g : Group => { g with v := x.g.v }) h.group_rest, h.teams, h.team⟩

theorem RegsOnly.gangs (h : RegsOnly s x u g) : u.gangs = s.gangs := by rw [← h.rest]

theorem RegsOnly.frames (h : RegsOnly s x u g) : g.frames = x.g.frames := by rw [← h.group_rest]

theorem RegsOnly.touched (h : RegsOnly s x u g) : Touched s x u g := by
  have hteam : ∀ i j, u.team i j = s.team i j := fun i j => by rw [State.team, State.team, h.gangs]
  exact ⟨congrArg (fun t : State => { t with gangs := s.gangs }) h.rest, h.group, h.others,
    congrArg (fun g : Group => { g with frames := x.g.frames }) h.group_rest, fun i j _ => hteam i j, by rw [hteam]⟩

/-- The operation of accesses `as` has been counted on class `k`, and the run has advanced. -/
def SpCounted (s : State) (x : Issue) (t : State) (g' : Group) (m : MemDesc) (k : Cls) (as : List Acc) : Prop :=
  t.grp? x.gid = some g' ∧ (∀ j, j ≠ x.gid → t.grp? j = s.grp? j) ∧ Stepped x.g g' x.run ∧
    g'.cnt = x.g.cnt.set k (x.g.cnt.get k).issue ∧
    { g' with lanes := x.g.lanes, cnt := x.g.cnt, frames := x.g.frames, v := x.g.v } = x.g ∧
    { t with groups := s.groups, ops := s.ops, nextId := s.nextId, gangs := s.gangs } = s ∧
    (∀ i j, i ≠ x.g.gang ∨ j ≠ x.g.team → t.team i j = s.team i j) ∧
    { t.team x.g.gang x.g.team with sp := (s.team x.g.gang x.g.team).sp } = s.team x.g.gang x.g.team ∧
    mfind t.ops s.nextId = some { gid := x.gid, cls := some k, pos := (x.g.cnt.get k).next, ctx := x.g.ctx, cluster := x.g.cluster,
                                  core := x.g.core, kind := .mem m as }

/-- The state once the operation has been counted and the run has advanced. -/
def spDone (u : State) (x : Issue) (m : MemDesc) (as : List Acc) : State :=
  (u.addOp x.gid m.cls (.mem m as)).updGrp x.gid (fun g => g.advance x.run)

/-- The operation that the accesses of an instruction are held as. -/
theorem spCounted_done (h : Touched s x u g) {m : MemDesc} {k : Cls} (hk : m.cls = some k) (as : List Acc) :
    SpCounted s x (spDone u x m as) ((g.count k).advance x.run) m k as ∧ (spDone u x m as).gangs = u.gangs := by
  have hcnt : g.cnt = x.g.cnt := by rw [← h.group_rest]
  have hlanes : g.lanes = x.g.lanes := by rw [← h.group_rest]
  have hid : u.nextId = s.nextId ∧ u.ops = s.ops := by rw [← h.rest]; exact ⟨rfl, rfl⟩
  have hop : opOf g x.gid k (.mem m as) = opOf x.g x.gid k (.mem m as) := by
    rw [opOf, opOf, hcnt]
    rw [← h.group_rest]
  have hdone : spDone u x m as =
      (({ u with nextId := u.nextId + 1, ops := mput u.ops u.nextId (opOf g x.gid k (.mem m as)) }).updGrp x.gid (fun g => g.count k)).updGrp
        x.gid (fun g => g.advance x.run) := by
    rw [spDone, hk, addOp_some h.group]
  rw [hdone]
  refine ⟨⟨State.grp?_updGrp_same (State.grp?_updGrp_same h.group _) _,
    fun j hj => (State.grp?_updGrp_other (Ne.symm hj) _).trans ((State.grp?_updGrp_other (Ne.symm hj) _).trans (h.others j hj)),
    stepped_of x.g (g.count k) x.run hlanes, ?_, ?_, ?_, h.teams, h.team, ?_⟩, rfl⟩
  · show g.cnt.set k (g.cnt.get k).issue = _
    rw [hcnt]
  · exact congrArg (fun g : Group => { g with cnt := x.g.cnt, lanes := x.g.lanes }) h.group_rest
  · exact congrArg (fun u : State => { u with ops := s.ops, nextId := s.nextId }) h.rest
  · rw [← hid.1]
    exact (mfind_mput_same _ _ _).trans (congrArg some hop)

end

/-! ### Scratchpad instructions whose addresses pass the checks -/

/-- Two accesses of different aligned addresses touch no byte in common. -/
theorem disjoint_of_aligned {a b w : Nat} (ha : a % w = 0) (hb : b % w = 0) (h : a ≠ b) : a + w ≤ b ∨ b + w ≤ a := by
  obtain ⟨i, rfl⟩ := Nat.dvd_of_mod_eq_zero ha
  obtain ⟨j, rfl⟩ := Nat.dvd_of_mod_eq_zero hb
  rcases lt_or_gt_of_ne (fun hij : i = j => h (congrArg _ hij)) with hij | hij
  · exact Or.inl (by rw [← Nat.mul_succ]; exact Nat.mul_le_mul_left w hij)
  · exact Or.inr (by rw [← Nat.mul_succ]; exact Nat.mul_le_mul_left w hij)

theorem sharedAddr_of_pairwise {as : List Acc} (h : as.Pairwise fun a b => a.va ≠ b.va) : sharedAddr as = false := by
  induction as with
  | nil => rfl
  | cons a as ih =>
    obtain ⟨ha, has⟩ := List.pairwise_cons.mp h
    rw [sharedAddr, ih has, Bool.or_false, List.any_eq_false]
    exact fun b hb => by simp [Ne.symm (ha b hb)]

section
variable {s : State} {x : Issue} {m : MemDesc} {noAlias : Bool} {base : Opnd} {off t : Nat} {dat : Nat → Nat}
  {P : State → Group → Prop} {Q : Nat → Prop} {view : State → Group → Nat → Byte}

/-- No two lanes name one address. -/
def Apart (x : Issue) (base : Opnd) (off : Nat) : Prop :=
  ∀ l k, x.act.getLsbD l = true → x.act.getLsbD k = true → spAddr x base off l = spAddr x base off k → l = k

theorem spAccs_pairwise (hapart : Apart x base off) :
    (spAccs x base off dat).Pairwise fun a b => a.va ≠ b.va := by
  refine List.pairwise_map.mpr ((lanesOf_sorted x.act).imp_of_mem fun {l k} hl hk hlt heq => ?_)
  have h := hapart l k ((mem_lanesOf _ _).mp hl) ((mem_lanesOf _ _).mp hk)
    ((toNat_spAddr ..).symm.trans ((congrArg BitVec.toNat heq).trans (toNat_spAddr ..)))
  omega

theorem mem_spAccs {a : Acc} (ha : a ∈ spAccs x base off dat) :
    ∃ l, x.act.getLsbD l = true ∧ a = { lane := l, va := BitVec.ofNat 64 (spAddr x base off l), data := dat l } := by
  obtain ⟨l, hl, rfl⟩ := List.mem_map.mp ha
  exact ⟨l, (mem_lanesOf _ _).mp hl, rfl⟩

theorem spAccs_disjoint (hapart : Apart x base off) (halign : ∀ l, x.act.getLsbD l = true → spAddr x base off l % m.width = 0) :
    (spAccs x base off dat).Pairwise (Disjoint' m) := by
  refine (spAccs_pairwise hapart).imp_of_mem fun {a b} ha hb hne => ?_
  obtain ⟨l, hl, rfl⟩ := mem_spAccs ha
  obtain ⟨k, hk, rfl⟩ := mem_spAccs hb
  unfold Disjoint'
  rw [toNat_spAddr, toNat_spAddr]
  exact disjoint_of_aligned (halign l hl) (halign k hk) fun h => hne (congrArg (BitVec.ofNat 64) h)

/-- The accesses once they have been performed: each with what stood at its address. -/
theorem map_performed (f : Nat → Byte) :
    (spAccs x base off dat).map (performed m t f) = (lanesOf x.act).map (fun l =>
      { lane := l, va := BitVec.ofNat 64 (spAddr x base off l), data := dat l, st := .done,
        res := leNat (viewBytes f (spAddr x base off l) m.width), tc := t }) := by
  rw [spAccs, List.map_map]
  refine List.map_congr_left fun l _ => ?_
  rw [Function.comp, performed, toNat_spAddr]

variable (hv : View x.gid m.width t P Q view) (hP : P s x.g) (hact : x.act ≠ 0)
  (hwp : (mget {} s.cores x.g.core).dbg.wpctl = 0)
  (hgood : ∀ l, x.act.getLsbD l = true → spBad s x noAlias (spAddr x base off l) = false ∧ spAddr x base off l % m.width = 0)
  (hpoison : m.kind = .store ∨ x.g.poison = [] ∨ ∀ l, x.act.getLsbD l = true → spAddr x base off l < aliasBase)
  (hQ : ∀ l, x.act.getLsbD l = true → Q (spAddr x base off l))
include hv hP hact hwp hgood hpoison hQ

theorem spIssue_reads (hnone : ∀ old x y, newValue m.kind m.ty old x y = none) (hread : m.kind.isWrite = false) :
    s.spIssue x m noAlias base off dat = spDone s x m ((spAccs x base off dat).map (performed m t (view s x.g))) := by
  obtain ⟨hcheck, hhits⟩ := checkAddrs_sp_none (s := s) (m := m) (dat := dat) hwp hgood
  have hperf := spPerform_reads hv (spAccs x base off dat) hP
    (fun a ha => by obtain ⟨l, -, rfl⟩ := mem_spAccs ha; exact fun h => by cases h)
    (fun a ha => by obtain ⟨l, hl, rfl⟩ := mem_spAccs ha; rw [toNat_spAddr]; exact hQ l hl) hnone
  rw [spIssue_performs hact hcheck hhits hgood hpoison (fun h => by rw [hread] at h; cases h), hperf]
  rfl

theorem spIssue_writes (hapart : Apart x base off) :
    ∃ u g, s.spIssue x m noAlias base off dat = spDone u x m ((spAccs x base off dat).map (performed m t (view s x.g))) ∧ P u g ∧
      (∀ l, x.act.getLsbD l = true → ∀ j, j < m.width → view u g (spAddr x base off l + j) =
        viewAfter m (view s x.g) { lane := l, va := BitVec.ofNat 64 (spAddr x base off l), data := dat l } (spAddr x base off l + j)) ∧
      ∀ p, (∀ l, x.act.getLsbD l = true → p < spAddr x base off l ∨ spAddr x base off l + m.width ≤ p) → view u g p = view s x.g p := by
  obtain ⟨hcheck, hhits⟩ := checkAddrs_sp_none (s := s) (m := m) (dat := dat) hwp hgood
  obtain ⟨g, u, hperf, hPu, hin, hout⟩ := spPerform_view hv (spAccs x base off dat) hP
    (fun a ha => by obtain ⟨l, -, rfl⟩ := mem_spAccs ha; exact fun h => by cases h)
    (fun a ha => by obtain ⟨l, hl, rfl⟩ := mem_spAccs ha; rw [toNat_spAddr]; exact hQ l hl)
    (spAccs_disjoint hapart fun l hl => (hgood l hl).2)
  refine ⟨u, g, ?_, hPu, fun l hl j hj => ?_, fun p hp => ?_⟩
  · rw [spIssue_performs hact hcheck hhits hgood hpoison (fun _ => sharedAddr_of_pairwise (spAccs_pairwise hapart)), hperf]
    rfl
  · have h := hin _ (List.mem_map.mpr ⟨l, (mem_lanesOf _ _).mpr hl, rfl⟩) j hj
    rwa [toNat_spAddr] at h
  · refine hout p fun a ha => ?_
    obtain ⟨l, hl, rfl⟩ := mem_spAccs ha
    rw [toNat_spAddr]
    exact hp l hl

end

section
variable {s : State} {x : Issue} {base : Opnd} {off : Nat} {noAlias : Bool}

/-- Addresses inside the scratchpad pass the checks. -/
theorem spBad_inside {v : Nat} (hsize : (s.scratch x.g).1 ≤ aliasBase) (h : v < (s.scratch x.g).1) : spBad s x noAlias v = false := by
  have : ¬ aliasBase ≤ v := by omega
  simp [spBad, State.spOk, h, this]

/-- Addresses inside the register mirror pass the checks, except those of ATOMS. -/
theorem spBad_alias {v : Nat} (h1 : aliasBase ≤ v) (h2 : v < aliasBase + 128 * x.g.nregs) : spBad s x false v = false := by
  simp [spBad, State.spOk, h1, h2]

theorem spBad_iff {v : Nat} (hsize : (s.scratch x.g).1 ≤ aliasBase) :
    spBad s x noAlias v = true ↔
      (s.scratch x.g).1 ≤ v ∧ ¬ (noAlias = false ∧ aliasBase ≤ v ∧ v < aliasBase + 128 * x.g.nregs) := by
  unfold spBad State.spOk
  rw [Bool.or_eq_true, Bool.not_eq_true', Bool.or_eq_false_iff, Bool.and_eq_true, decide_eq_false_iff_not, ← Bool.not_eq_true,
    Bool.and_eq_true, decide_eq_true_eq, decide_eq_true_eq]
  cases noAlias
  · simp only [Bool.false_eq_true, false_and, or_false, true_and]
    omega
  · simp only [true_and, Bool.true_eq_false, false_and, not_false_eq_true, and_true]
    omega

/-- What stood at an address of the scratchpad, byte by byte. -/
theorem leNat_spView (a n : Nat) : leNat (viewBytes (spView s x.g) a n) = leNat (mgets byteZero (s.scratch x.g).2 a n) := by
  rw [mgets_eq_viewBytes]
  rfl

/-- Byte `p` of a window, named by its register, lane and place. -/
theorem regByte_eq (g : Group) (p : Nat) : bits (vReg g (p / 128) (p % 128 / 4)).toNat (8 * (p % 4)) 8 = regByte g.v p := by
  rw [vReg, regByte, show 32 * (p / 128) + p % 128 / 4 = p / 4 by omega]

theorem leNat_aliasView {a : Nat} (h : aliasBase ≤ a) (n : Nat) : leNat (viewBytes (aliasView s x.g) a n) =
    leNat ((List.range n).map fun j => BitVec.ofNat 8 (bits (vReg x.g ((a - aliasBase + j) / 128) ((a - aliasBase + j) % 128 / 4)).toNat
      (8 * ((a - aliasBase + j) % 4)) 8)) := by
  refine congrArg leNat (List.map_congr_left fun j _ => ?_)
  rw [regByte_eq, aliasView, if_pos (by omega), Nat.sub_add_comm h]

end

section
variable {h : Hdr} {ty : Ty} {op : AOp} {d a b : Opnd} {off : BitVec 24} {s : State} {x : Issue}

theorem exec_lds (hgo : s.issueOf (.lds h ty d a off) true = .go x) : exec (.lds h ty d a off) s =
    .next (s.spIssue x (x.desc .load ty (ty.width / 8) (some .ld) (dest d) .team .none) false a (offOf off) (fun _ => 0)) :=
  exec_of_go (eff := fun x s => s.spIssue x (x.desc .load ty (ty.width / 8) (some .ld) (dest d) .team .none) false a (offOf off) (fun _ => 0)) hgo rfl

theorem exec_sts (hgo : s.issueOf (.sts h ty a b off) false = .go x) : exec (.sts h ty a b off) s =
    .next (s.spIssue x (x.desc .store ty (ty.width / 8) (some .st) none .team .none) false a (offOf off) (x.g.datum ty b)) :=
  exec_of_go (eff := fun x s =>
    s.spIssue x (x.desc .store ty (ty.width / 8) (some .st) none .team .none) false a (offOf off) (x.g.datum ty b)) hgo rfl

theorem exec_atoms (hgo : s.issueOf (.atoms h op ty d a b off) false = .go x) : exec (.atoms h op ty d a b off) s =
    .next (s.spIssue x (x.desc (.atom op) ty (ty.width / 8) (some (atomCls d)) (dest d) .team .none) true a (offOf off) (x.g.datum ty b)) :=
  exec_of_go (eff := fun x s =>
    s.spIssue x (x.desc (.atom op) ty (ty.width / 8) (some (atomCls d)) (dest d) .team .none) true a (offOf off) (x.g.datum ty b)) hgo rfl

end

/-! ### What each form leaves -/

section
variable {s u : State} {x : Issue} {g : Group} {m : MemDesc} {k : Cls} {base : Opnd} {off : Nat} {dat : Nat → Nat}

/-- A written byte of an access. -/
theorem viewAfter_written {view : Nat → Byte} {l j y : Nat} (hj : j < m.width)
    (hnew : newValue m.kind m.ty (leNat (viewBytes view (spAddr x base off l) m.width)) (dat l) 0 = some y) :
    viewAfter m view { lane := l, va := BitVec.ofNat 64 (spAddr x base off l), data := dat l } (spAddr x base off l + j) =
      BitVec.ofNat 8 (y / 2 ^ (8 * j)) := by
  unfold viewAfter
  rw [toNat_spAddr]
  simp only [hnew]
  rw [viewPut, if_pos (by omega), Nat.add_sub_cancel_left]

/-- Counting and advancing leave the scratchpad that the group reaches. -/
theorem scratch_spDone (as : List Acc) (hgangs : (spDone u x m as).gangs = u.gangs) :
    (spDone u x m as).scratch ((g.count k).advance x.run) = u.scratch g := by
  unfold State.scratch State.team
  rw [hgangs]
  rfl

theorem regByte_lt (v : Map Word) (p : Nat) : regByte v p < 256 := Nat.mod_lt _ (by decide)

theorem regByte_of_view {p y : Nat} (h : aliasView u g (aliasBase + p) = BitVec.ofNat 8 y) : regByte g.v p = y % 256 := by
  rw [aliasView, if_pos (Nat.le_add_right _ _), Nat.add_sub_cancel_left] at h
  have h := congrArg BitVec.toNat h
  rw [BitVec.toNat_ofNat, BitVec.toNat_ofNat] at h
  have := regByte_lt g.v p
  omega

/-- The operation of the accesses, with what stood in the scratchpad. -/
theorem spCounted_scratch (h : SpCounted s x u g m k ((spAccs x base off dat).map (performed m (s.regtime x.g) (spView s x.g)))) :
    SpCounted s x u g m k ((lanesOf x.act).map (fun l =>
      { lane := l, va := BitVec.ofNat 64 (spAddr x base off l), data := dat l, st := .done,
        res := leNat (mgets byteZero (s.scratch x.g).2 (spAddr x base off l) m.width), tc := s.regtime x.g })) := by
  rw [map_performed] at h
  simp only [leNat_spView] at h
  exact h

/-- The operation of the accesses, with what stood in the registers. -/
theorem spCounted_alias (hal : ∀ l, x.act.getLsbD l = true → aliasBase ≤ spAddr x base off l)
    (h : SpCounted s x u g m k ((spAccs x base off dat).map (performed m (s.regtime x.g) (aliasView s x.g)))) :
    SpCounted s x u g m k ((lanesOf x.act).map (fun l =>
      { lane := l, va := BitVec.ofNat 64 (spAddr x base off l), data := dat l, st := .done,
        res := leNat ((List.range m.width).map fun j => BitVec.ofNat 8
          (bits (vReg x.g ((spAddr x base off l - aliasBase + j) / 128) ((spAddr x base off l - aliasBase + j) % 128 / 4)).toNat
            (8 * ((spAddr x base off l - aliasBase + j) % 4)) 8)), tc := s.regtime x.g })) := by
  rw [map_performed] at h
  have hmap : (lanesOf x.act).map (fun l =>
        ({ lane := l, va := BitVec.ofNat 64 (spAddr x base off l), data := dat l, st := .done,
           res := leNat (viewBytes (aliasView s x.g) (spAddr x base off l) m.width), tc := s.regtime x.g } : Acc)) = _ :=
    List.map_congr_left fun l hl => by rw [leNat_aliasView (hal l ((mem_lanesOf _ _).mp hl))]
  rw [hmap] at h
  exact h

/-- What writes of the scratchpad leave, once the operation has been counted. -/
theorem spWrites (h : SpOnly s x u g) (as : List Acc) (hgangs : (spDone u x m as).gangs = u.gangs) {new : Nat → Nat}
    (hin : ∀ l, x.act.getLsbD l = true → ∀ j, j < m.width →
      spView u g (spAddr x base off l + j) = BitVec.ofNat 8 (new l / 2 ^ (8 * j)))
    (hout : ∀ p, (∀ l, x.act.getLsbD l = true → p < spAddr x base off l ∨ spAddr x base off l + m.width ≤ p) →
      spView u g p = spView s x.g p) :
    ((g.count k).advance x.run).v = x.g.v ∧
      ((spDone u x m as).scratch ((g.count k).advance x.run)).1 = (s.scratch x.g).1 ∧
      (∀ l, x.act.getLsbD l = true → ∀ j, j < m.width →
        mget byteZero ((spDone u x m as).scratch ((g.count k).advance x.run)).2 (spAddr x base off l + j) =
          BitVec.ofNat 8 (new l / 2 ^ (8 * j))) ∧
      ∀ p, (∀ l, x.act.getLsbD l = true → p < spAddr x base off l ∨ spAddr x base off l + m.width ≤ p) →
        mget byteZero ((spDone u x m as).scratch ((g.count k).advance x.run)).2 p = mget byteZero (s.scratch x.g).2 p := by
  rw [scratch_spDone as hgangs]
  exact ⟨show g.v = x.g.v by rw [← h.group_rest], h.size, hin, hout⟩

/-- A trap that a check gives, as the outcome of the instruction. -/
theorem spTrap_out {cause : Nat} {bad : Nat → Prop} (h : SpTrap s x u cause bad) :
    ∃ t : TrapRec, (Host.Outcome.next u : Out) = .next (s.queueTrap x.gid t) ∧ t.cause = cause ∧ t.pc = x.pc ∧ t.run = x.act &&& x.run ∧
      (x.once = false → ∀ l, l < 32 → (t.mask.getLsbD l = true ↔ l ∈ lanesOf (x.act &&& x.run) ∧ bad l)) := by
  obtain ⟨t, ht, hfacts⟩ := h
  exact ⟨t, congrArg Host.Outcome.next ht, hfacts⟩

theorem regsOnly_refl (hg : s.grp? x.gid = some x.g) (hpoison : x.g.poison = []) : RegsOnly s x s x.g :=
  ⟨rfl, hg, fun _ _ => rfl, rfl, hpoison⟩

end

/-- Settles O31: scratchpad and register mirror are two views of bytes that the accesses of an instruction read and write. -/
theorem scratchpadAccesses : Obligations.ScratchpadAccesses := by
  intro h ty op d a b off s x w va size sp here quiet inside alias_ old regByte' oldReg accs counted writes same apart ld st k own traps out checks
  refine ⟨fun hgo => ⟨fun hq hin => ?_, fun hq hal => ?_, fun hsize hact => ?_⟩, fun hgo => ⟨fun hq hin hap => ?_, fun hq hal hap => ?_, fun hsize hact => ?_⟩,
    fun hgo => ⟨fun hq hin hap => ?_, fun hsize hact => ?_⟩⟩
  · obtain ⟨hact, hhere, hwp, hsize⟩ := hq
    have hP := spOnly_refl (grp_of_issueOf hgo) hhere
    have hissue := spIssue_reads (m := ld) (noAlias := false) (dat := fun _ => 0) (view_scratchpad w) hP hact hwp
      (fun l hl => ⟨spBad_inside hsize (hin l hl).1, (hin l hl).2⟩) (Or.inr (Or.inr fun l hl => (hin l hl).1.trans_le hsize))
      (fun l hl => (hin l hl).1.trans_le hsize) (fun _ _ _ => rfl) rfl
    obtain ⟨hcount, hgangs⟩ := spCounted_done hP.touched (m := ld) (k := .ld) rfl ((spAccs x a (offOf off) fun _ => 0).map (performed ld (s.regtime x.g) (spView s x.g)))
    exact ⟨_, (x.g.count .ld).advance x.run, (exec_lds hgo).trans (congrArg Host.Outcome.next hissue), spCounted_scratch hcount, hgangs, rfl, rfl⟩
  · obtain ⟨hact, -, hwp, hsize⟩ := hq
    obtain ⟨hpoison, hal⟩ := hal
    have hP := regsOnly_refl (grp_of_issueOf hgo) hpoison
    have hissue := spIssue_reads (m := ld) (noAlias := false) (dat := fun _ => 0) (view_alias w) hP hact hwp
      (fun l hl => ⟨spBad_alias (hal l hl).1 (hal l hl).2.1, (hal l hl).2.2⟩) (Or.inr (Or.inl hpoison))
      (fun l hl => (hal l hl).1) (fun _ _ _ => rfl) rfl
    obtain ⟨hcount, hgangs⟩ := spCounted_done hP.touched (m := ld) (k := .ld) rfl ((spAccs x a (offOf off) fun _ => 0).map (performed ld (s.regtime x.g) (aliasView s x.g)))
    exact ⟨_, (x.g.count .ld).advance x.run, (exec_lds hgo).trans (congrArg Host.Outcome.next hissue),
      spCounted_alias (fun l hl => (hal l hl).1) hcount, hgangs, rfl, rfl⟩
  · rw [exec_lds hgo]
    obtain ⟨hrange, halign⟩ := spIssue_traps (s := s) (m := ld) (noAlias := false) (base := a) (off := offOf off) (dat := fun _ => 0) hact
      (fun l => spBad_iff hsize)
    exact ⟨fun hex => spTrap_out (hrange hex), fun hno hex => spTrap_out (halign hno hex)⟩
  · obtain ⟨hact, hhere, hwp, hsize⟩ := hq
    have hP := spOnly_refl (grp_of_issueOf hgo) hhere
    obtain ⟨u, g, hissue, hPu, hin', hout⟩ := spIssue_writes (m := st) (noAlias := false) (dat := x.g.datum ty b) (view_scratchpad w) hP hact hwp
      (fun l hl => ⟨spBad_inside hsize (hin l hl).1, (hin l hl).2⟩) (Or.inl rfl) (fun l hl => (hin l hl).1.trans_le hsize) hap
    obtain ⟨hcount, hgangs⟩ := spCounted_done hPu.touched (m := st) (k := .st) rfl ((spAccs x a (offOf off) (x.g.datum ty b)).map (performed st (s.regtime x.g) (spView s x.g)))
    exact ⟨_, (g.count .st).advance x.run, (exec_sts hgo).trans (congrArg Host.Outcome.next hissue), spCounted_scratch hcount,
      spWrites hPu _ hgangs (fun l hl j hj => (hin' l hl j hj).trans (viewAfter_written hj rfl)) hout⟩
  · obtain ⟨hact, -, hwp, hsize⟩ := hq
    obtain ⟨hpoison, hal⟩ := hal
    have hP := regsOnly_refl (grp_of_issueOf hgo) hpoison
    obtain ⟨u, g, hissue, hPu, hin', hout⟩ := spIssue_writes (m := st) (noAlias := false) (dat := x.g.datum ty b) (view_alias w) hP hact hwp
      (fun l hl => ⟨spBad_alias (hal l hl).1 (hal l hl).2.1, (hal l hl).2.2⟩) (Or.inl rfl) (fun l hl => (hal l hl).1) hap
    obtain ⟨hcount, hgangs⟩ := spCounted_done hPu.touched (m := st) (k := .st) rfl ((spAccs x a (offOf off) (x.g.datum ty b)).map (performed st (s.regtime x.g) (aliasView s x.g)))
    refine ⟨_, (g.count .st).advance x.run, (exec_sts hgo).trans (congrArg Host.Outcome.next hissue),
      spCounted_alias (fun l hl => (hal l hl).1) hcount, hgangs.trans hPu.gangs, hPu.frames, fun l hl j hj => ?_, fun p hp => ?_⟩
    · have hle : aliasBase ≤ va l := (hal l hl).1
      refine (regByte_eq _ _).trans (regByte_of_view (u := u) (g := g) ?_)
      rw [show aliasBase + (va l - aliasBase + j) = va l + j by omega]
      exact (hin' l hl j hj).trans (viewAfter_written hj rfl)
    · have hsame := hout (aliasBase + p) fun l hl => by
        have h1 : aliasBase ≤ va l := (hal l hl).1
        have h2 := hp l hl
        show aliasBase + p < va l ∨ va l + w ≤ aliasBase + p
        omega
      refine (regByte_eq _ _).trans (Eq.trans (regByte_of_view (u := u) (g := g) (hsame.trans ?_)) ((Nat.mod_eq_of_lt (regByte_lt _ _)).trans (regByte_eq _ _).symm))
      rw [aliasView, if_pos (Nat.le_add_right _ _), Nat.add_sub_cancel_left]
  · rw [exec_sts hgo]
    obtain ⟨hrange, halign⟩ := spIssue_traps (s := s) (m := st) (noAlias := false) (base := a) (off := offOf off) (dat := x.g.datum ty b) hact
      (fun l => spBad_iff hsize)
    exact ⟨fun hex => spTrap_out (hrange hex), fun hno hex => spTrap_out (halign hno hex)⟩
  · obtain ⟨hact, hhere, hwp, hsize⟩ := hq
    have hP := spOnly_refl (grp_of_issueOf hgo) hhere
    obtain ⟨u, g, hissue, hPu, hin', hout⟩ := spIssue_writes (m := x.desc (.atom op) ty w (some (atomCls d)) (dest d) .team .none)
      (noAlias := true) (dat := x.g.datum ty b) (view_scratchpad w) hP hact hwp
      (fun l hl => ⟨spBad_inside hsize (hin l hl).1, (hin l hl).2⟩) (Or.inr (Or.inr fun l hl => (hin l hl).1.trans_le hsize))
      (fun l hl => (hin l hl).1.trans_le hsize) hap
    obtain ⟨hcount, hgangs⟩ := spCounted_done hPu.touched (m := x.desc (.atom op) ty w (some (atomCls d)) (dest d) .team .none) (k := k) rfl
      ((spAccs x a (offOf off) (x.g.datum ty b)).map (performed _ (s.regtime x.g) (spView s x.g)))
    have hold : ∀ l, leNat (viewBytes (spView s x.g) (va l) w) = old l := fun l => leNat_spView _ _
    refine ⟨_, (g.count k).advance x.run, (exec_atoms hgo).trans (congrArg Host.Outcome.next hissue), spCounted_scratch hcount,
      spWrites hPu _ hgangs (fun l hl j hj => (hin' l hl j hj).trans (viewAfter_written hj ?_)) hout⟩
    rw [← hold]
    rfl
  · rw [exec_atoms hgo]
    obtain ⟨hrange, halign⟩ := spIssue_traps (s := s) (m := x.desc (.atom op) ty w (some (atomCls d)) (dest d) .team .none)
      (noAlias := true) (base := a) (off := offOf off) (dat := x.g.datum ty b) hact (fun l => spBad_iff hsize)
    exact ⟨fun hex => spTrap_out (hrange hex), fun hno hex => spTrap_out (halign hno hex)⟩

end Sys2Proof.Machine
end

section
/-! The proof of `Obligations.FencesAndWaits`: what a fence pushes and waits for. -/

namespace Sys2Proof.Machine

/-! ### What a fence waits for (R68) -/

theorem fenceWaits_eq_false_iff {s : State} {gid : Nat} {sc : Scope} :
    s.fenceWaits gid sc = false ↔ (∀ e ∈ s.ops, ∀ rs l, e.2.job = .push rs l → gid ∉ rs) ∧
      (sc = .system → ∀ e ∈ s.ops, e.2.job = .link → e.2.gid ≠ gid) := by
  unfold State.fenceWaits
  rw [List.any_eq_false]
  constructor
  · refine fun h => ⟨fun e he rs l hj hmem => ?_, fun hsc e he hj hgid => ?_⟩
    · have := h e he
      simp [hj, hmem] at this
    · have := h e he
      simp [hj, hsc, hgid] at this
  · rintro ⟨hpush, hlink⟩ e he
    split
    next rs l hj => simpa using hpush e he rs l hj
    next hj => simpa using fun hsc => hlink hsc e he hj
    next => exact Bool.false_ne_true

theorem fenceReady_iff {s : State} {gid : Nat} {g : Group} {sc : Scope} :
    s.fenceReady gid g sc = true ↔ g.cnt.ld.n = 0 ∧ g.cnt.st.n = 0 ∧ s.fenceWaits gid sc = false ∧
      g.ctime.toNat + guardTicks sc ≤ s.regtime g := by
  unfold State.fenceReady
  simp only [Bool.and_eq_true, beq_iff_eq, Bool.not_eq_true', decide_eq_true_eq, and_assoc]

/-! ### Pushed deltas (R71) -/

/-- An entry listed above every key of a map comes last. -/
theorem mput_eq_append {α : Type} {tab : Map α} {k : Nat} (y : α) (h : ∀ e ∈ tab, e.1 < k) : mput tab k y = tab ++ [(k, y)] := by
  induction tab with
  | nil => rfl
  | cons e tab ih =>
    have he := h e List.mem_cons_self
    rw [mput, if_neg (by omega), if_neg (by omega), ih fun a ha => h a (List.mem_cons_of_mem _ ha)]
    rfl

/-- The atomics that push one delta entry home. -/
def pushOp (report : List Nat) (launch : Option Nat) (d : Delta) : Op :=
  { gid := 0, ctx := d.ctx, cluster := d.cluster, job := .push report launch,
    kind := .mem { kind := .red d.op, ty := d.ty, width := d.ty.width / 8 }
      (d.cells.map (fun (c : Nat × Nat) =>
        { lane := c.1, va := BitVec.ofNat 64 (128 * d.line + c.1), key := 128 * d.line + c.1, lockok := d.lockok, mig := d.mig,
          data := c.2, st := .wait })) }

theorem pushDelta_eq (s : State) (report : List Nat) (launch : Option Nat) (d : Delta) : s.pushDelta report launch d =
    { s with deltas := s.deltas.filter (fun e => e != d), nextId := s.nextId + 1,
             ops := mput s.ops s.nextId (pushOp report launch d) } := rfl

section
variable {report : List Nat} {launch : Option Nat}

/-- Pushes change the deltas and the operations alone. -/
theorem foldl_pushDelta_rest (ds : List Delta) (s : State) :
    { ds.foldl (fun s d => s.pushDelta report launch d) s with deltas := s.deltas, ops := s.ops, nextId := s.nextId } = s := by
  induction ds generalizing s with
  | nil => rfl
  | cons d ds ih => exact congrArg (fun t : State => { t with deltas := s.deltas, ops := s.ops, nextId := s.nextId }) (ih (s.pushDelta report launch d))

theorem foldl_pushDelta_deltas (ds : List Delta) (s : State) :
    (ds.foldl (fun s d => s.pushDelta report launch d) s).deltas = s.deltas.filter (fun e => decide (e ∉ ds)) := by
  induction ds generalizing s with
  | nil => simp
  | cons d ds ih =>
    rw [List.foldl_cons, ih, pushDelta_eq, List.filter_filter]
    exact List.filter_congr fun e _ => by simp [List.mem_cons, not_or, Bool.and_comm, bne, beq_eq_decide]

/-- Each delta is pushed by an operation of its own, where operation numbers have not been given ahead. -/
theorem foldl_pushDelta_ops (ds : List Delta) {s : State} (h : ∀ e ∈ s.ops, e.1 < s.nextId) :
    (∀ e ∈ s.ops, e ∈ (ds.foldl (fun s d => s.pushDelta report launch d) s).ops) ∧
      ∀ d ∈ ds, ∃ e ∈ (ds.foldl (fun s d => s.pushDelta report launch d) s).ops, e.2 = pushOp report launch d := by
  induction ds generalizing s with
  | nil => exact ⟨fun e he => he, fun d hd => by cases hd⟩
  | cons d ds ih =>
    have happend : (s.pushDelta report launch d).ops = s.ops ++ [(s.nextId, pushOp report launch d)] := mput_eq_append _ h
    have hfresh : ∀ e ∈ (s.pushDelta report launch d).ops, e.1 < (s.pushDelta report launch d).nextId := by
      intro e he
      rw [happend, List.mem_append, List.mem_singleton] at he
      show e.1 < s.nextId + 1
      rcases he with he | rfl
      · exact (h e he).trans (Nat.lt_succ_self _)
      · exact Nat.lt_succ_self _
    obtain ⟨hkeep, hnew⟩ := ih hfresh
    rw [happend] at hkeep
    refine ⟨fun e he => hkeep e (List.mem_append_left _ he), fun d' hd' => ?_⟩
    rcases List.mem_cons.mp hd' with rfl | hd'
    · exact ⟨_, hkeep _ (List.mem_append_right _ List.mem_cons_self), rfl⟩
    · exact hnew d' hd'

end

/-! ### What a fence starts (R68) -/

section
variable {s : State} {gid : Nat} {g : Group} {sc : Scope}

/-- A narrow fence starts nothing. -/
theorem startFence_narrow (h : wideScope sc = false) : s.startFence gid sc = s := by
  unfold State.startFence
  rw [h]
  split <;> rfl

/-- The pushes that are on their way from the group's cluster report to it too. -/
def reported (s : State) (gid cluster : Nat) : State :=
  if s.ops.any (fun e => e.2.cluster == cluster && e.2.isPush) then
    { s with ops := s.ops.map (fun e => if e.2.cluster == cluster then (e.1, e.2.reportTo gid) else e) }
  else s

theorem reported_rest (s : State) (gid cluster : Nat) : { reported s gid cluster with ops := s.ops } = s := by
  unfold reported
  split <;> rfl

theorem reported_keys {cluster : Nat} (h : ∀ e ∈ s.ops, e.1 < s.nextId) :
    ∀ e ∈ (reported s gid cluster).ops, e.1 < (reported s gid cluster).nextId := by
  have hid : (reported s gid cluster).nextId = s.nextId := by conv_rhs => rw [← reported_rest s gid cluster]
  rw [hid]
  unfold reported
  split
  · intro e he
    obtain ⟨e, he', rfl⟩ := List.mem_map.mp he
    split
    · exact h e he'
    · exact h e he'
  · exact h

/-- A wide fence pushes every delta of its cluster. -/
theorem startFence_wide (hg : s.grp? gid = some g) (h : wideScope sc = true) : s.startFence gid sc =
    (s.deltas.filter (fun d => d.cluster == g.cluster)).foldl (fun s d => s.pushDelta [gid] none d) (reported s gid g.cluster) := by
  have hd : s.deltas = (reported s gid g.cluster).deltas := by conv_lhs => rw [← reported_rest s gid g.cluster]
  rw [hd]
  unfold State.startFence
  rw [hg]
  dsimp only
  rw [if_pos h]
  rfl

/-- A fence changes the deltas and the operations alone. -/
theorem startFence_rest (s : State) (gid : Nat) (sc : Scope) :
    { s.startFence gid sc with deltas := s.deltas, ops := s.ops, nextId := s.nextId } = s := by
  cases hg : s.grp? gid with
  | none =>
    unfold State.startFence
    rw [hg]
  | some g =>
    cases hw : wideScope sc with
    | false => rw [startFence_narrow hw]
    | true =>
      rw [startFence_wide hg hw]
      calc _ = { reported s gid g.cluster with deltas := s.deltas, ops := s.ops, nextId := s.nextId } :=
            congrArg (fun t : State => { t with deltas := s.deltas, ops := s.ops, nextId := s.nextId })
              (foldl_pushDelta_rest _ (reported s gid g.cluster))
        _ = s := congrArg (fun t : State => { t with deltas := s.deltas, nextId := s.nextId }) (reported_rest s gid g.cluster)

theorem startFence_groups (s : State) (gid : Nat) (sc : Scope) : (s.startFence gid sc).groups = s.groups := by
  conv_rhs => rw [← startFence_rest s gid sc]

theorem grp?_startFence (s : State) (gid : Nat) (sc : Scope) (j : Nat) : (s.startFence gid sc).grp? j = s.grp? j := by
  rw [State.grp?, State.grp?, startFence_groups]

theorem startFence_deltas (hg : s.grp? gid = some g) (h : wideScope sc = true) :
    (s.startFence gid sc).deltas = s.deltas.filter (fun d => d.cluster != g.cluster) := by
  have hd : (reported s gid g.cluster).deltas = s.deltas := by conv_rhs => rw [← reported_rest s gid g.cluster]
  rw [startFence_wide hg h, foldl_pushDelta_deltas, hd]
  refine List.filter_congr fun e he => ?_
  by_cases hc : e.cluster = g.cluster
  · simp [he, hc]
  · simp [hc]

/-- Each delta of the cluster goes home as an atomic that reports to the group. -/
theorem startFence_pushes (hg : s.grp? gid = some g) (h : wideScope sc = true) (hkeys : ∀ e ∈ s.ops, e.1 < s.nextId) {d : Delta}
    (hd : d ∈ s.deltas) (hcl : d.cluster = g.cluster) : ∃ e ∈ (s.startFence gid sc).ops, e.2 = pushOp [gid] none d := by
  rw [startFence_wide hg h]
  exact (foldl_pushDelta_ops _ (reported_keys hkeys)).2 d (List.mem_filter.mpr ⟨hd, by simpa using hcl⟩)

end

theorem wideScope_of_ne {sc : Scope} (h1 : sc ≠ .team) (h2 : sc ≠ .cluster) : wideScope sc = true := by
  cases sc with
  | team => exact absurd rfl h1
  | cluster => exact absurd rfl h2
  | _ => rfl

theorem within_iff {c : Counters} {ld st cp mx mt : Nat} : c.within ld st cp mx mt = true ↔
    c.ld.n.toNat ≤ ld ∧ c.st.n.toNat ≤ st ∧ c.cp.n.toNat ≤ cp ∧ c.mx.n.toNat ≤ mx ∧ c.mt.n.toNat ≤ mt := by
  unfold Counters.within
  simp only [Bool.and_eq_true, decide_eq_true_eq, and_assoc]

/-- What FENCE does where its checks let it. -/
theorem exec_fence {h : Hdr} {sc : Scope} {s : State} {x : Issue} (hgo : s.issueOf (.fence h sc) false = .go x) : exec (.fence h sc) s =
    .next (if x.act = 0 then x.done s id else
      if (s.startFence x.gid sc).fenceReady x.gid x.g sc then x.done (s.startFence x.gid sc) id
      else (s.startFence x.gid sc).updGrp x.gid (fun g => { g with block := .fence sc x.run })) := by
  have hg : (s.startFence x.gid sc).grp? x.gid = some x.g := (grp?_startFence ..).trans (grp_of_issueOf hgo)
  have hexec : exec (.fence h sc) s = laneInstr (.fence h sc) false s (fun x s =>
      if x.act = 0 then x.done s id
      else
        match (s.startFence x.gid sc).grp? x.gid with
        | none => s.startFence x.gid sc
        | some g =>
          if (s.startFence x.gid sc).fenceReady x.gid g sc then x.done (s.startFence x.gid sc) id
          else (s.startFence x.gid sc).updGrp x.gid (fun g => { g with block := .fence sc x.run })) := rfl
  refine (exec_of_go hgo hexec).trans (congrArg Host.Outcome.next ?_)
  simp only [hg]

/-- What WAIT does where its checks let it. -/
theorem exec_wait {h : Hdr} {ld st cp mx mt : Nat} {s : State} {x : Issue} (hgo : s.issueOf (.wait h ld st cp mx mt) false = .go x) :
    exec (.wait h ld st cp mx mt) s = .next (if x.act = 0 ∨ x.g.cnt.within ld st cp mx mt then x.done s id
      else s.updGrp x.gid (fun g => { g with block := .wait ld st cp mx mt x.run })) :=
  exec_of_go (eff := fun x s => if x.act = 0 ∨ x.g.cnt.within ld st cp mx mt then x.done s id
      else s.updGrp x.gid (fun g => { g with block := .wait ld st cp mx mt x.run })) hgo rfl

/-- A run that goes on past its instruction. -/
theorem goes_on {s : State} {x : Issue} (hg : s.grp? x.gid = some x.g) : ∃ t g', (Host.Outcome.next (x.done s id) : Out) = .next t ∧
    OnlyGroup s t x.gid g' ∧ Stepped x.g g' x.run ∧ { g' with lanes := x.g.lanes } = x.g :=
  ⟨_, _, rfl, onlyGroup_done hg id, stepped_of x.g x.g x.run rfl, rfl⟩

/-- A blocked run that goes on. -/
theorem unblocked {s : State} {gid : Nat} {g : Group} (hg : s.grp? gid = some g) (lanes : Word) :
    ∃ t g', (Host.Outcome.next (s.updGrp gid (fun g => { (g.advance lanes) with block := .none })) : Out) = .next t ∧
      OnlyGroup s t gid g' ∧ Stepped g g' lanes ∧ { g' with lanes := g.lanes, block := g.block } = g ∧ g'.block = .none :=
  ⟨_, _, rfl, onlyGroup_updGrp s gid g _ hg, stepped_of g { g with block := .none } lanes rfl, rfl, rfl⟩

/-- FENCE_COMPLETE of a group that no AMDONE blocks. -/
theorem exec_fenceComplete {s : State} {gid : Nat} {g : Group} (hg : s.grp? gid = some g) (hb : ∀ run act, g.block ≠ .amdone run act) :
    exec (.fenceComplete gid) s = .next (s.fenceComplete gid) := by
  show execFenceComplete gid s = _
  rw [execFenceComplete, hg]
  dsimp only
  split
  next run act h => exact absurd h (hb run act)
  next => rfl

/-- Settles O32: a fence's conditions, its pushes, and the events that end it. -/
theorem fencesAndWaits : Obligations.FencesAndWaits := by
  refine ⟨fun s gid g sc => ?_, fun s gid g sc hg => ⟨?_, fun h1 h2 => ?_⟩, fun h sc s x hgo => ?_, fun h ld st cp mx mt s x hgo => ?_,
    fun s gid g hg => ⟨fun ld st cp mx mt lanes hb hld hst hcp hmx hmt => ?_, fun sc lanes hb hready => ?_, fun sc m as hb hready => ?_,
      fun sc lanes hb hready => ?_⟩⟩
  · rw [fenceReady_iff, fenceWaits_eq_false_iff, and_assoc]
    cases sc <;> exact Iff.rfl
  · rintro (rfl | rfl | hnone)
    · exact startFence_narrow rfl
    · exact startFence_narrow rfl
    · exact startFence_of_noDeltas hg hnone sc
  · have hw := wideScope_of_ne h1 h2
    refine ⟨startFence_deltas hg hw, startFence_rest s gid sc, fun hkeys d hd hcl => ?_⟩
    obtain ⟨e, he, hop⟩ := startFence_pushes hg hw hkeys hd hcl
    refine ⟨e, he, by rw [hop]; rfl, by rw [hop]; rfl, _, _, by rw [hop]; rfl, rfl, rfl, ?_⟩
    rw [List.map_map]
    rfl
  · rw [exec_fence hgo]
    have hg := grp_of_issueOf hgo
    refine ⟨fun hact => ?_, fun hact hready => ?_, fun hact hready => ?_⟩
    · rw [if_pos hact]
      exact goes_on hg
    · rw [if_neg hact, if_pos hready]
      exact goes_on ((grp?_startFence ..).trans hg)
    · rw [if_neg hact, hready, if_neg Bool.false_ne_true]
  · rw [exec_wait hgo]
    refine ⟨fun h => ?_, fun hact hnot => ?_⟩
    · rw [if_pos (h.imp_right within_iff.mpr)]
      exact goes_on (grp_of_issueOf hgo)
    · rw [if_neg (not_or.mpr ⟨hact, fun h => hnot (within_iff.mp h)⟩)]
  · have hwithin : g.cnt.within ld st cp mx mt = true := within_iff.mpr ⟨hld, hst, hcp, hmx, hmt⟩
    have hexec : exec (.waitReturn gid) s = .next (s.updGrp gid (fun g => { (g.advance lanes) with block := .none })) := by
      show execWaitReturn gid s = _
      simp only [execWaitReturn, hg, hb, hwithin, if_true]
    rw [hexec]
    exact unblocked hg lanes
  · have hdone : s.fenceComplete gid = s.updGrp gid (fun g => { (g.advance lanes) with block := .none }) := by
      simp only [State.fenceComplete, hg, hb, hready, if_true]
    rw [exec_fenceComplete hg (fun _ _ => by rw [hb]; exact Block.noConfusion), hdone]
    exact unblocked hg lanes
  · rw [exec_fenceComplete hg (fun _ _ => by rw [hb]; exact Block.noConfusion), State.fenceComplete, hg]
    simp only [hb, hready, if_true]
  · rw [exec_fenceComplete hg (fun _ _ => by rw [hb]; exact Block.noConfusion), State.fenceComplete, hg]
    simp only [hb, hready, Bool.false_eq_true, if_false]

end Sys2Proof.Machine
end

section
/-! The proof of `Obligations.Monitors`: what arms, wakes and disarms a monitor, and what ends its waits. -/

namespace Sys2Proof.Machine

/-! ### Disarming (R207) -/

section
variable {s : State} {gid : Nat} {g : Group}

theorem grp?_disarm_same (hg : s.grp? gid = some g) : (s.disarm gid).grp? gid = some { g with mon := {} } :=
  State.grp?_updGrp_same hg _

theorem grp?_disarm_other {j : Nat} (h : j ≠ gid) : (s.disarm gid).grp? j = s.grp? j := State.grp?_updGrp_other (Ne.symm h) _

/-- A monitor is disarmed and its group changes by `f`. -/
theorem disarmed_updGrp (hg : s.grp? gid = some g) (f : Group → Group) :
    { (s.disarm gid).updGrp gid f with groups := s.groups, watch := s.watch } = s ∧
      ((s.disarm gid).updGrp gid f).grp? gid = some (f { g with mon := {} }) ∧
      ∀ j, j ≠ gid → ((s.disarm gid).updGrp gid f).grp? j = s.grp? j :=
  ⟨rfl, State.grp?_updGrp_same (grp?_disarm_same hg) f,
    fun _ hj => (State.grp?_updGrp_other (Ne.symm hj) f).trans (grp?_disarm_other hj)⟩

end

/-- A group whose wait for a wake returns `b` in predicate `p`: nothing but that predicate, its monitor and its lanes changes. -/
theorem monReturn (g : Group) (p : Nat) (b : Bool) (run : Word) :
    Stepped g ((({ g with mon := {} } : Group).setPredAll p b).advance run) run ∧
      ((({ g with mon := {} } : Group).setPredAll p b).advance run).mon = {} ∧
      (∀ k l, l < 32 → pBit ((({ g with mon := {} } : Group).setPredAll p b).advance run) k l = if k = p ∧ p < 15 then b else pBit g k l) ∧
      { (({ g with mon := {} } : Group).setPredAll p b).advance run with lanes := g.lanes, mon := g.mon, p := g.p } = g := by
  have hrest := setPredAll_rest { g with mon := {} } p b
  refine ⟨stepped_of _ _ _ (setPredAll_lanes _ _ _), ?_, fun k l hl => pBit_setPredAll _ p b k l hl, ?_⟩
  · show (({ g with mon := {} } : Group).setPredAll p b).mon = {}
    rw [hrest]
  · exact congrArg (fun h : Group => { h with lanes := g.lanes, mon := g.mon, p := g.p }) hrest

/-- MWAIT's outcomes where its checks let it. -/
theorem exec_mwait {h : Hdr} {p : Nat} {a : Opnd} {s : State} {x : Issue} (hgo : s.issueOf (.mwait h p a) false = .go x) :
    exec (.mwait h p a) s = .next (if x.act = 0 then x.done s id
      else if !x.g.mon.armed || x.g.mon.wake then x.done (s.disarm x.gid) (fun g => g.setPredAll p true)
      else if x.g.opnd a 1 x.lead = 0 then x.done (s.disarm x.gid) (fun g => g.setPredAll p false)
      else s.updGrp x.gid (fun g => { g with block := .mwait p (s.regtime x.g + x.g.opnd a 1 x.lead) x.run })) :=
  exec_of_go (eff := fun x s => if x.act = 0 then x.done s id
      else if !x.g.mon.armed || x.g.mon.wake then x.done (s.disarm x.gid) (fun g => g.setPredAll p true)
      else if x.g.opnd a 1 x.lead = 0 then x.done (s.disarm x.gid) (fun g => g.setPredAll p false)
      else s.updGrp x.gid (fun g => { g with block := .mwait p (s.regtime x.g + x.g.opnd a 1 x.lead) x.run })) hgo rfl

/-- An MWAIT that returns `b`. -/
theorem mwait_returns {s : State} {x : Issue} (hg : s.grp? x.gid = some x.g) (p : Nat) (b : Bool) :
    ∃ t g', (Host.Outcome.next (x.done (s.disarm x.gid) (fun g => g.setPredAll p b)) : Out) = .next t ∧
      { t with groups := s.groups, watch := s.watch } = s ∧
      t.grp? x.gid = some g' ∧ (∀ j, j ≠ x.gid → t.grp? j = s.grp? j) ∧
      Stepped x.g g' x.run ∧ g'.mon = {} ∧ (∀ k l, l < 32 → pBit g' k l = if k = p ∧ p < 15 then b else pBit x.g k l) ∧
      { g' with lanes := x.g.lanes, mon := x.g.mon, p := x.g.p } = x.g := by
  obtain ⟨hrest, hgroup, hothers⟩ := disarmed_updGrp hg (fun g => (g.setPredAll p b).advance x.run)
  exact ⟨_, _, rfl, hrest, hgroup, hothers, monReturn x.g p b x.run⟩

/-! ### Waking (R72, R207) -/

/-- A wake of a line that the group does not watch changes nothing. -/
theorem wakeUp_other {g : Group} {line : Nat} (hfr : g.frames = []) (h : line ≠ g.mon.line) : g.wakeUp line = g := by
  have hsame : { g with frames := g.frames.map (fun f => { f with mon := f.mon.fire line }) } = g := by rw [hfr, List.map_nil, ← hfr]
  unfold Group.wakeUp
  simp only [hsame]
  simp [Ne.symm h]

/-- A wake of the line that a waiting group watches ends its wait. -/
theorem wakeUp_waiting {g : Group} {p till : Nat} {lanes : Word} (hb : g.block = .mwait p till lanes) (hfr : g.frames = [])
    (harmed : g.mon.armed = true) :
    g.wakeUp g.mon.line = { ((g.setPredAll p true).advance lanes) with block := .none, mon := {} } := by
  have hsame : { g with frames := g.frames.map (fun f => { f with mon := f.mon.fire g.mon.line }) } = g := by rw [hfr, List.map_nil, ← hfr]
  unfold Group.wakeUp
  simp only [hsame]
  simp [harmed, hb]

theorem grp?_recordDirty {s : State} (region j : Nat) : (s.recordDirty region).grp? j = s.grp? j := by
  unfold State.recordDirty
  split
  · rfl
  · split <;> rfl

theorem watchK_rest (s : State) (key width : Nat) : { s.watchK key width with meets := s.meets } = s := by
  unfold State.watchK
  split <;> rfl

theorem watchK_keeps (s : State) (key width : Nat) :
    (s.watchK key width).groups = s.groups ∧ (s.watchK key width).ctxs = s.ctxs ∧ (s.watchK key width).watch = s.watch := by
  refine ⟨?_, ?_, ?_⟩ <;> conv_rhs => rw [← watchK_rest s key width]

/-- The only watcher of a line is woken by a write. -/
theorem grp?_fireWake {s : State} {line gid : Nat} {g : Group} (hg : s.grp? gid = some g) (hres : s.resident g = true)
    (hwatch : s.watch.filter (fun w => w.line == line) = [{ line := line, gid := gid }]) :
    (s.fireWake line).grp? gid = some (g.wakeUp line) := by
  have hany : s.watch.any (fun w => w.line == line) = true := by
    rw [List.any_eq_true]
    refine ⟨⟨line, gid⟩, ?_, by simp⟩
    exact (List.mem_filter.mp (hwatch ▸ List.mem_cons_self : _ ∈ s.watch.filter (fun w => w.line == line))).1
  unfold State.fireWake
  rw [if_pos hany]
  simp only [hwatch, List.foldl_cons, List.foldl_nil, State.wakeGroup]
  have hg' : ({ s with watch := s.watch.filter (fun w => w.line != line) } : State).grp? gid = some g := hg
  have hres' : ({ s with watch := s.watch.filter (fun w => w.line != line) } : State).resident g = true := hres
  rw [hg']
  dsimp only
  rw [if_pos hres']
  exact State.grp?_updGrp_same hg' _

/-- A write of a line wakes its only watcher. -/
theorem grp?_perform {s : State} {gid key width : Nat} {k : MemKind} {ty : Ty} {data data2 : Nat} {g : Group} (hg : s.grp? gid = some g)
    (hres : s.resident g = true) (hnew : newValue k ty (s.readMem key width) data data2 ≠ none)
    (hwatch : s.watch.filter (fun w => w.line == lineOf key) = [{ line := lineOf key, gid := gid }]) :
    (s.perform key width k ty data data2).2.grp? gid = some (g.wakeUp (lineOf key)) := by
  obtain ⟨y, hy⟩ := Option.ne_none_iff_exists'.mp hnew
  unfold State.perform
  simp only [hy]
  rw [grp?_recordDirty]
  have hfire : ∀ u : State, u.groups = s.groups → u.ctxs = s.ctxs → u.watch = s.watch →
      ((u.watchK key width).fireWake (lineOf key)).grp? gid = some (g.wakeUp (lineOf key)) := fun u h1 h2 h3 => by
    obtain ⟨k1, k2, k3⟩ := watchK_keeps u key width
    refine grp?_fireWake ?_ ?_ ?_
    · rw [State.grp?, k1, h1]
      exact hg
    · rw [State.resident, k2, h2]
      exact hres
    · rw [k3, h3]
      exact hwatch
  split
  · exact hfire _ rfl rfl rfl
  · exact hfire _ rfl rfl rfl

/-! ### The end of an arm's and of an invalidation's wait (R206, R210) -/

theorem pushWhere_none (s : State) {p : Delta → Bool} (h : ∀ d ∈ s.deltas, p d = false) (report : List Nat) (launch : Option Nat) :
    s.pushWhere report launch p = s := by
  have hnil : s.deltas.filter p = [] := List.filter_eq_nil_iff.mpr fun d hd => by simp [h d hd]
  rw [State.pushWhere, hnil]
  rfl

theorem pushing_of_noDeltas {s : State} {cluster : Nat} (h : NoDeltas s cluster) (line : Nat) : s.pushing cluster line = false := by
  unfold State.pushing
  rw [List.any_eq_false]
  intro e he
  by_cases hc : e.2.cluster = cluster
  · simp [h.2 e he hc]
  · simp [hc]

/-- A run that goes on once its one operation is over. -/
theorem unblocked_mdel {u : State} {gid id : Nat} {g : Group} (hg : u.grp? gid = some g) (lanes : Word) :
    ({ (u.updGrp gid (fun g => { (g.advance lanes) with block := .none })) with ops := mdel u.ops id } : State).grp? gid =
        some { (g.advance lanes) with block := .none } ∧
      mfind (mdel u.ops id) id = none ∧ Stepped g { (g.advance lanes) with block := .none } lanes :=
  ⟨State.grp?_updGrp_same hg _, by rw [mfind_mdel, if_pos rfl], stepped_of g { g with block := .none } lanes rfl⟩

/-- MONARM_COMPLETE of an arm that has been performed and whose guard has passed. -/
theorem exec_monarmComplete {s : State} {gid id till : Nat} {lanes : Word} {g : Group} {o : Op} {m : MemDesc} {a : Acc}
    (hg : s.grp? gid = some g) (ho : mfind s.ops id = some o) (hk : o.kind = .mem m [a]) (hb : g.block = .monarm id till lanes)
    (hst : a.st = .done) (hguard : a.tc + lineGuard a.key ≤ s.regtime g) : exec (.monarmComplete gid) s =
      .next { (s.updGrp gid (fun g => { (g.advance lanes) with block := .none })) with ops := mdel s.ops id } := by
  have hfinal : a.final = true := by rw [Acc.final, hst]
  have haccs : (mfind s.ops id).map (·.accs) = some [a] := by rw [ho, Option.map_some, Op.accs, hk]
  show execMonarmComplete gid s = _
  simp only [execMonarmComplete, hg, hb, haccs, hst, hfinal, hguard, decide_true, Bool.and_true, if_true]

theorem lineGuard_eq (key : Nat) : lineGuard key = if key ≥ 2 ^ 52 then 16 else if isHost key then 64 else 2 := rfl

/-- CINV_COMPLETE of a line that has no delta in its cluster. -/
theorem exec_cinvComplete {s : State} {gid id : Nat} {lanes : Word} {g : Group} {o : Op} {m : MemDesc} {a : Acc}
    (hg : s.grp? gid = some g) (ho : mfind s.ops id = some o) (hk : o.kind = .mem m [a]) (hb : g.block = .cinv id lanes)
    (hdeltas : NoDeltas s g.cluster) (hst : a.st ≠ .off) : exec (.cinvComplete gid) s =
      .next { ((s.cinvLine g m.scope a.key).updGrp gid (fun g => { (g.advance lanes) with block := .none })) with
        ops := mdel (s.cinvLine g m.scope a.key).ops id } := by
  have haccs : o.accs.filter (fun a => a.st != .off) = [a] := by
    rw [Op.accs, hk]
    simp [hst]
  have hdesc : o.desc? = some m := by rw [Op.desc?, hk]
  have hpush : s.pushWhere [] none (fun d => d.cluster == g.cluster && [a].any (fun a => lineOf a.key == d.line)) = s :=
    pushWhere_none s (fun d hd => by simp [hdeltas.1 d hd]) _ _
  have hany : [a].any (fun a => s.pushing g.cluster (lineOf a.key)) = false := by simp [pushing_of_noDeltas hdeltas]
  show execCinvComplete gid s = _
  simp only [execCinvComplete, hg, hb, ho, haccs, hdesc, hpush, hany, Bool.false_eq_true, if_false, List.foldl_cons, List.foldl_nil]

/-- Settles O33: a monitor's wait ends at once, by a wake or by its limit; an arm and an invalidation complete. -/
theorem monitors : Obligations.Monitors := by
  refine ⟨fun h p a s x hgo => ?_, fun s gid p till lanes g hg hb hfr => ⟨fun hres htill => ?_, fun harmed => ?_,
    fun line hline => wakeUp_other hfr hline, fun key width k ty data data2 hnew hdirty hres hwatch => ?_⟩,
    fun s gid id till lanes g o m a hg ho hk => ⟨fun hb hst hguard => ?_, fun hb hdeltas hst => ?_⟩⟩
  · have hg := grp_of_issueOf hgo
    intro n returns
    refine ⟨fun hact => ?_, fun hact hwake => ?_, fun hact harmed hwake hn => ?_, fun hact harmed hwake hn => ?_⟩
    · rw [exec_mwait hgo, if_pos hact]
      exact goes_on hg
    · have hnow : (!x.g.mon.armed || x.g.mon.wake) = true := by
        rcases hwake with h | h <;> simp [h]
      simp only [returns, exec_mwait hgo, if_neg hact, if_pos hnow]
      exact mwait_returns hg p true
    · have hwait : ¬ (!x.g.mon.armed || x.g.mon.wake) = true := by simp [harmed, hwake]
      have hzero : x.g.opnd a 1 x.lead = 0 := hn
      simp only [returns, exec_mwait hgo, if_neg hact, if_neg hwait, if_pos hzero]
      exact mwait_returns hg p false
    · have hwait : ¬ (!x.g.mon.armed || x.g.mon.wake) = true := by simp [harmed, hwake]
      rw [exec_mwait hgo, if_neg hact, if_neg hwait, if_neg hn]
  · have hnow : (s.resident g && decide (till ≤ s.regtime g)) = true := by simp [hres, htill]
    have hexec : exec (.mwaitTimeout gid) s =
        .next ((s.disarm gid).updGrp gid (fun g => { ((g.setPredAll p false).advance lanes) with block := .none })) := by
      show execMwaitTimeout gid s = _
      simp only [execMwaitTimeout, hg, hb, hnow, if_true]
    obtain ⟨hrest, hgroup, hothers⟩ := disarmed_updGrp hg (fun g => { ((g.setPredAll p false).advance lanes) with block := .none })
    obtain ⟨hstep, hmon, hpred, -⟩ := monReturn g p false lanes
    exact ⟨_, _, hexec, hrest, hgroup, hothers, ⟨hstep.1, hstep.2⟩, rfl, hmon, hpred⟩
  · rw [wakeUp_waiting hb hfr harmed]
    exact ⟨stepped_of _ { g.setPredAll p true with block := .none, mon := {} } _ (setPredAll_lanes _ _ _), rfl, rfl,
      fun k l hl => pBit_setPredAll g p true k l hl⟩
  · exact grp?_perform hg hres hnew hwatch
  · have hexec := exec_monarmComplete hg ho hk hb hst hguard
    obtain ⟨hgroup, hgone, hstep⟩ := unblocked_mdel (id := id) hg lanes
    exact ⟨_, _, hexec, rfl, hgroup, hgone, hstep, rfl, rfl⟩
  · have hexec := exec_cinvComplete hg ho hk hb hdeltas hst
    have hg' : (s.cinvLine g m.scope a.key).grp? gid = some g := hg
    obtain ⟨hgroup, hgone, hstep⟩ := unblocked_mdel (id := id) hg' lanes
    refine ⟨_, _, hexec, rfl, hgroup, hgone, hstep, rfl, rfl, fun c hc hline hagent => ?_, fun d hd hmine => ?_, fun e he hcl y hy hline => ?_,
      fun e he hline hcl => ?_⟩
    · obtain ⟨c', hc', rfl⟩ := List.mem_map.mp hc
      split at hline
      next h => rw [if_pos h]
      next h =>
        rw [if_neg h] at hagent
        exact absurd (by simpa using ⟨hline, hagent⟩) h
    · have := (List.mem_filter.mp hd).2
      simp [hmine] at this
    · obtain ⟨e', he', rfl⟩ := List.mem_map.mp he
      have := (List.mem_filter.mp hy).2
      simp [hline, hcl] at this
    · have := (List.mem_filter.mp he).2
      simp [hline, hcl] at this

end Sys2Proof.Machine
end

section
/-! What performing an access leaves unchanged besides memory: the fields that a write's wakes and records touch. -/

namespace Sys2Proof.Machine

/-! ### Operations that have been sent stay as they are -/

/-- From `s` to `t` operations may have been sent, and none of those sent before has changed. -/
structure OpsKept (s t : State) : Prop where
  next : s.nextId ≤ t.nextId
  ops : ∀ k, k < s.nextId → mfind t.ops k = mfind s.ops k

theorem OpsKept.of_eq {s t : State} (h1 : t.nextId = s.nextId) (h2 : t.ops = s.ops) : OpsKept s t :=
  ⟨h1.ge, fun _ _ => by rw [h2]⟩

theorem OpsKept.refl (s : State) : OpsKept s s := .of_eq rfl rfl

theorem OpsKept.trans {s t u : State} (h1 : OpsKept s t) (h2 : OpsKept t u) : OpsKept s u :=
  ⟨h1.next.trans h2.next, fun k hk => (h2.ops k (hk.trans_le h1.next)).trans (h1.ops k hk)⟩

theorem opsKept_sendOp (s : State) (o : Op) : OpsKept s (s.sendOp o) :=
  ⟨Nat.le_succ _, fun _ hk => mfind_mput_other _ _ (Nat.ne_of_gt hk)⟩

theorem opsKept_of_send {s t : State} {o : Op} {u : State} (h1 : u.nextId = s.nextId) (h2 : u.ops = s.ops) (h3 : t.nextId = u.nextId + 1)
    (h4 : t.ops = mput u.ops u.nextId o) : OpsKept s t :=
  ⟨by rw [h3, h1]; exact Nat.le_succ _, fun k hk => by rw [h4, mfind_mput_other _ _ (by rw [h1]; exact Nat.ne_of_gt hk), h2]⟩

/-! ### Wakes and records of a write (R72, R242, R316) -/

theorem wakeGroup_keeps (s : State) (line gid : Nat) :
    { s.wakeGroup line gid with groups := s.groups, ops := s.ops, nextId := s.nextId } = s ∧ OpsKept s (s.wakeGroup line gid) := by
  unfold State.wakeGroup
  split
  · exact ⟨rfl, .refl s⟩
  next g _ =>
    split
    · exact ⟨rfl, .of_eq rfl rfl⟩
    · dsimp only
      split
      · exact ⟨rfl, opsKept_of_send (s := s) rfl rfl rfl rfl⟩
      · exact ⟨rfl, .of_eq rfl rfl⟩

theorem foldl_wakeGroup_keeps (line : Nat) (ws : List Watch) (s : State) :
    { ws.foldl (fun s w => s.wakeGroup line w.gid) s with groups := s.groups, ops := s.ops, nextId := s.nextId } = s ∧
      OpsKept s (ws.foldl (fun s w => s.wakeGroup line w.gid) s) := by
  induction ws generalizing s with
  | nil => exact ⟨rfl, .refl s⟩
  | cons w ws ih =>
    obtain ⟨h1, h2⟩ := wakeGroup_keeps s line w.gid
    obtain ⟨h3, h4⟩ := ih (s.wakeGroup line w.gid)
    exact ⟨(congrArg (fun t : State => { t with groups := s.groups, ops := s.ops, nextId := s.nextId }) h3).trans h1, h2.trans h4⟩

theorem fireWake_keeps (s : State) (line : Nat) :
    { s.fireWake line with groups := s.groups, ops := s.ops, nextId := s.nextId, watch := s.watch } = s ∧ OpsKept s (s.fireWake line) := by
  unfold State.fireWake
  split
  · obtain ⟨h1, h2⟩ := foldl_wakeGroup_keeps line (s.watch.filter (fun w => w.line == line))
      { s with watch := s.watch.filter (fun w => w.line != line) }
    exact ⟨congrArg (fun t : State => { t with watch := s.watch }) h1, ⟨h2.next, h2.ops⟩⟩
  · exact ⟨rfl, .refl s⟩

theorem recordDirty_keeps (s : State) (region : Nat) :
    { s.recordDirty region with ops := s.ops, nextId := s.nextId } = s ∧ OpsKept s (s.recordDirty region) := by
  unfold State.recordDirty
  split
  · exact ⟨rfl, .refl s⟩
  · split
    · exact ⟨rfl, opsKept_sendOp _ _⟩
    · exact ⟨rfl, .refl s⟩

/-- With the bitmap of dirty frames off a write grant records nothing (R242). -/
theorem recordDirty_off {s : State} (h : s.hub.dirtyEn = false) (region : Nat) : s.recordDirty region = s := by
  unfold State.recordDirty
  split
  · rfl
  · rw [h, Bool.false_and, Bool.false_and, Bool.false_and, if_neg Bool.false_ne_true]

/-! ### Performing an access (R66) -/

section
variable (s : State) (key width : Nat) (k : MemKind) (ty : Ty) (data data2 : Nat)

/-- `t`, with the fields that performing an access may change as they are in `s`. -/
def settled (s t : State) : State :=
  { t with mem := s.mem, badBytes := s.badBytes, groups := s.groups, ops := s.ops, nextId := s.nextId, watch := s.watch, meets := s.meets }

/-- From `s` to `t` an access has been performed: what may have changed is memory, its errors, and what a write wakes. -/
structure Performs (s t : State) : Prop where
  rest : settled s t = s
  kept : OpsKept s t
  bad : ∀ b ∈ t.badBytes, b ∈ s.badBytes

theorem performs_perform : Performs s (s.perform key width k ty data data2).2 := by
  unfold State.perform
  dsimp only
  split
  · exact ⟨rfl, .refl s, fun _ h => h⟩
  next x _ =>
    have hwakes : ∀ u : State, { u with mem := s.mem, badBytes := s.badBytes } = s → (∀ b ∈ u.badBytes, b ∈ s.badBytes) →
        Performs s (((u.watchK key width).fireWake (lineOf key)).recordDirty (regionOf key)) := fun u hu hb => by
      obtain ⟨hd1, hd2⟩ := recordDirty_keeps ((u.watchK key width).fireWake (lineOf key)) (regionOf key)
      obtain ⟨hf1, hf2⟩ := fireWake_keeps (u.watchK key width) (lineOf key)
      have hk := watchK_rest u key width
      have hukept : OpsKept s (u.watchK key width) :=
        .of_eq (by conv_rhs => rw [← hu, ← hk]) (by conv_rhs => rw [← hu, ← hk])
      refine ⟨?_, (hukept.trans hf2).trans hd2, ?_⟩
      · calc settled s _ = settled s ((u.watchK key width).fireWake (lineOf key)) := congrArg (settled s) hd1
          _ = settled s (u.watchK key width) := (congrArg (settled s) hf1 :)
          _ = settled s u := (congrArg (settled s) hk :)
          _ = s := (congrArg (settled s) hu :)
      · have hbad : (((u.watchK key width).fireWake (lineOf key)).recordDirty (regionOf key)).badBytes = u.badBytes := by
          conv_rhs => rw [← hk, ← hf1, ← hd1]
        rw [hbad]
        exact hb
    split
    · exact hwakes _ rfl fun _ h => h
    · exact hwakes _ rfl fun b h => (List.mem_filter.mp h).1

end

section
variable {s t : State}

theorem Performs.now (h : Performs s t) : t.now = s.now := (congrArg State.now h.rest :)
theorem Performs.lagCl (h : Performs s t) : t.lagCl = s.lagCl := (congrArg State.lagCl h.rest :)
theorem Performs.lagSl (h : Performs s t) : t.lagSl = s.lagSl := (congrArg State.lagSl h.rest :)
theorem Performs.hub (h : Performs s t) : t.hub = s.hub := (congrArg State.hub h.rest :)
theorem Performs.dir (h : Performs s t) : t.dir = s.dir := (congrArg State.dir h.rest :)
theorem Performs.deleg (h : Performs s t) : t.deleg = s.deleg := (congrArg State.deleg h.rest :)
theorem Performs.copies (h : Performs s t) : t.copies = s.copies := (congrArg State.copies h.rest :)
theorem Performs.slices (h : Performs s t) : t.slices = s.slices := (congrArg State.slices h.rest :)
theorem Performs.badBytes_nil (h : Performs s t) (hs : s.badBytes = []) : t.badBytes = [] :=
  List.eq_nil_iff_forall_not_mem.mpr fun b hb => by have := h.bad b hb; rw [hs] at this; cases this
theorem Performs.homeSlice (h : Performs s t) (key : Nat) : t.homeSlice key = s.homeSlice key := by rw [State.homeSlice, State.homeSlice, h.hub]
theorem Performs.homeNow (h : Performs s t) (key : Nat) : t.homeNow key = s.homeNow key := by
  rw [State.homeNow, State.homeNow, h.homeSlice, h.now, h.lagSl]
theorem Performs.clusterNow (h : Performs s t) (c : Nat) : t.clusterNow c = s.clusterNow c := by
  rw [State.clusterNow, State.clusterNow, h.now, h.lagCl]
theorem Performs.slice (h : Performs s t) (k : Nat) : t.slice k = s.slice k := by rw [State.slice, State.slice, h.slices]

end

/-- What performing an access leaves in memory depends on memory alone. -/
theorem perform_mem_congr {s u : State} (h : u.mem = s.mem) (key width : Nat) (k : MemKind) (ty : Ty) (data data2 : Nat) :
    (u.perform key width k ty data data2).2.mem = (s.perform key width k ty data data2).2.mem := by
  have hread : u.readMem key width = s.readMem key width := by rw [State.readMem, State.readMem, h]
  rw [perform_mem, perform_mem, hread, h]
  cases newValue k ty (s.readMem key width) data data2 with
  | none => rfl
  | some x => show (u.writeMem key width x).mem = (s.writeMem key width x).mem; rw [State.writeMem, State.writeMem, h]

end Sys2Proof.Machine
end

section
/-! The proof of `Obligations.HomeRequests`: an access of one lane is performed in its cluster or at its home slice. -/

namespace Sys2Proof.Machine

/-! ### Where an access is performed -/

/-- A performed access of a load places its line. -/
def placed (o : Op) (m : MemDesc) (key : Nat) (p : Acc × State) : Acc × State := if p.1.st = .done then (p.1, p.2.placeLine o m key) else p

theorem placed_done {o : Op} {m : MemDesc} {key : Nat} {b : Acc} (s : State) (h : b.st = .done) :
    placed o m key (b, s) = (b, s.placeLine o m key) := if_pos h

theorem placed_other {o : Op} {m : MemDesc} {key : Nat} {b : Acc} (s : State) (h : b.st ≠ .done) : placed o m key (b, s) = (b, s) := if_neg h

/-- Placing a line changes the L1 of the access's core alone, and only for a load. -/
theorem placeLine_keeps (s : State) (o : Op) (m : MemDesc) (key : Nat) : { s.placeLine o m key with cores := s.cores } = s := by
  unfold State.placeLine
  dsimp only
  split
  · split <;> rfl
  · split <;> rfl
  · rfl

theorem placeLine_of_not_load {m : MemDesc} (s : State) (o : Op) (key : Nat) (hdata : m.kind.isData = true) (h : m.kind ≠ .load) :
    s.placeLine o m key = s := by
  unfold State.placeLine
  cases hk : m.kind with
  | load => exact absurd hk h
  | pref a b => rw [hk] at hdata; cases hdata
  | _ => rfl

/-- An operation of a group ends by its report alone. -/
theorem closeOp_of_instr {s : State} {id : Nat} {o : Op} (ho : mfind s.ops id = some o) (hjob : o.job = .instr) : s.closeOp id = s := by
  unfold State.closeOp
  rw [ho]
  dsimp only
  split
  · rw [hjob]
  · rfl

section
variable {s : State} {id : Nat} {o : Op} {m : MemDesc} {a : Acc}

/-- An access below the host window is not acknowledged over the host link. -/
theorem sendLink_of_device {s : State} (b : Acc) (h : b.key < Config.hostBase) : s.sendLink o m b = s := by
  unfold State.sendLink isHost
  rw [decide_eq_false (Nat.not_le.mpr h)]
  rfl

theorem keyDev_of_device {key : Nat} (h : key < Config.hostBase) : keyDev key = none :=
  if_pos (h.trans (by decide))

theorem isHost_of_device {key : Nat} (h : key < Config.hostBase) : isHost key = false := by
  unfold isHost
  rw [decide_eq_false (Nat.not_le.mpr h)]
  rfl

variable (hjob : o.job = .instr) (hdata : m.kind.isData = true) (hcomb : m.combines = none) (hdeltas : NoDeltas s o.cluster)
include hjob hdata hcomb hdeltas

omit hdata in
theorem pushFirst_of_noDeltas (line : Nat) : s.pushFirst o m line = s := by
  have hmine : ∀ d ∈ s.deltas, (d.cluster == o.cluster && d.line == line) = false := fun d hd => by simp [hdeltas.1 d hd]
  unfold State.pushFirst
  simp only [hcomb, hjob, pushWhere_none s hmine]
  cases m.kind <;> rfl

omit hjob hdata hcomb in
theorem waitsPush_of_noDeltas (line : Nat) : s.waitsPush o m line = false := by
  unfold State.waitsPush
  rw [pushing_of_noDeltas hdeltas]
  split <;> rfl

/-- A data access of device memory with no delta in its way is performed in its cluster or at its home slice. -/
theorem performAcc_of_data (hbad : s.badBytes = []) (hkey : a.key < Config.hostBase) : s.performAcc id o m a =
    placed o m a.key (if s.isLocal o.cluster o.core m a.key then s.performLocal o m a else s.atHome id o m a) := by
  have hcwb : m.kind ≠ .cwb := fun h => by rw [h] at hdata; cases hdata
  have hmon : m.kind ≠ .monarm := fun h => by rw [h] at hdata; cases hdata
  have hisBad : s.isBad a.key m.width = false := by rw [State.isBad, hbad]; rfl
  unfold State.performAcc
  simp only [pushFirst_of_noDeltas hjob hcomb hdeltas, keyDev_of_device hkey, waitsPush_of_noDeltas hdeltas,
    isHost_of_device hkey, hisBad, hcomb, hcwb, hmon, Option.any_none, Bool.false_eq_true, Bool.false_and, Bool.and_false, if_false]
  unfold placed
  split
  next h => rw [if_pos h]
  next h => rw [if_neg h]

end

section
variable {s : State} {id : Nat} {o : Op} {m : MemDesc} {a : Acc}

/-- `t` is what remains once the access of operation `id` stands as `b`, in state `u`. -/
def Accessed (u t : State) (id : Nat) (o : Op) (m : MemDesc) (b : Acc) : Prop :=
  t = { u with ops := mupd u.ops id (fun _ => { o with kind := .mem m [b] }) }

variable (ho : mfind s.ops id = some o) (hjob : o.job = .instr) (hkind : o.kind = .mem m [a]) (hst : a.st = .wait)
  (hdata : m.kind.isData = true) (hcomb : m.combines = none) (hdeltas : NoDeltas s o.cluster) (hbad : s.badBytes = [])
  (hkey : a.key < Config.hostBase) (holder : s.overlapOlder id o m a = false)
include ho hjob hkind hst hdata hcomb hdeltas hbad hkey holder

/-- HOME_REQUEST of an access that nothing holds back performs it. -/
theorem homeRequest_of_data (hfree : s.isLocal o.cluster o.core m a.key = true ∨
      s.sentOlder id o (s.homeSlice a.key) = false ∧ s.noCredit o (s.homeSlice a.key) = false)
    {b : Acc} {u : State} (hperf : placed o m a.key (if s.isLocal o.cluster o.core m a.key then s.performLocal o m a else s.atHome id o m a) = (b, u))
    (hu : mfind u.ops id = some o) (hb : b.key = a.key) :
    Accessed u (s.homeRequest id a.lane) id o m b := by
  have hcinv : m.kind ≠ .cinv := fun h => by rw [h] at hdata; cases hdata
  have hdesc : o.desc? = some m := by rw [Op.desc?, hkind]
  have hfind : o.accs.find? (fun x => x.lane == a.lane) = some a := by rw [Op.accs, hkind]; simp
  have hgo : (!s.isLocal o.cluster o.core m a.key && (s.sentOlder id o (s.homeSlice a.key) || s.noCredit o (s.homeSlice a.key))) = false := by
    rcases hfree with h | ⟨h1, h2⟩
    · simp [h]
    · simp [h1, h2]
  have hset : mupd u.ops id (fun o => o.setAcc a.lane (fun _ => b)) = mupd u.ops id (fun _ => { o with kind := .mem m [b] }) :=
    mupd_congr fun x hx => by
      obtain rfl : o = x := Option.some.inj (hu.symm.trans hx)
      simp [Op.setAcc, hkind]
  have hclose : ({ u with ops := mupd u.ops id (fun _ => { o with kind := .mem m [b] }) } : State).closeOp id =
      { u with ops := mupd u.ops id (fun _ => { o with kind := .mem m [b] }) } :=
    closeOp_of_instr (o := { o with kind := .mem m [b] }) (by rw [mfind_mupd, if_pos rfl, hu]; rfl) hjob
  unfold Accessed State.homeRequest
  simp only [ho, hdesc, hfind, hst, hcinv, holder, hgo, ne_eq, not_true_eq_false, or_self, if_false, Bool.false_eq_true,
    performAcc_of_data hjob hdata hcomb hdeltas hbad hkey, hperf, hset, hclose]
  exact sendLink_of_device b (hb ▸ hkey)

end

/-! ### What the cluster or the home slice does with it -/

section
variable {s : State} {id : Nat} {o : Op} {m : MemDesc} {a : Acc}

/-- Counting a use of a delegated line, or marking a copy read, changes the directory or the copies alone. -/
theorem countUse_keeps (s : State) (cluster key : Nat) : { s.countUse cluster key with dir := s.dir, copies := s.copies } = s := by
  unfold State.countUse
  split <;> rfl

/-- The owner's cache performs the access on memory. -/
theorem performLocal_delegated (hbad : s.badBytes = []) (hd : s.delegated o.cluster (lineOf a.key) = true) :
    ∃ u, s.performLocal o m a = ({ a with st := .done, res := s.readMem a.key m.width, tc := s.clusterNow o.cluster }, u) ∧
      u.mem = (s.perform a.key m.width m.kind m.ty a.data a.data2).2.mem ∧ OpsKept s u := by
  have hc := countUse_keeps s o.cluster a.key
  have hdeleg : (s.countUse o.cluster a.key).delegated o.cluster (lineOf a.key) = true := by
    rw [State.delegated, show (s.countUse o.cluster a.key).deleg = s.deleg from (congrArg State.deleg hc :)]
    exact hd
  have hmem : (s.countUse o.cluster a.key).mem = s.mem := (congrArg State.mem hc :)
  have hp := performs_perform (s.countUse o.cluster a.key) a.key m.width m.kind m.ty a.data a.data2
  have hnobad : ((s.countUse o.cluster a.key).perform a.key m.width m.kind m.ty a.data a.data2).2.badBytes = [] :=
    hp.badBytes_nil ((congrArg State.badBytes hc :).trans hbad)
  have hold : ((s.countUse o.cluster a.key).perform a.key m.width m.kind m.ty a.data a.data2).1 = s.readMem a.key m.width := by
    rw [perform_old, State.readMem, State.readMem, hmem]
  have hnow : ((s.countUse o.cluster a.key).perform a.key m.width m.kind m.ty a.data a.data2).2.clusterNow o.cluster = s.clusterNow o.cluster := by
    rw [hp.clusterNow, State.clusterNow, State.clusterNow, show (s.countUse o.cluster a.key).now = s.now from (congrArg State.now hc :),
      show (s.countUse o.cluster a.key).lagCl = s.lagCl from (congrArg State.lagCl hc :)]
  refine ⟨_, ?_, perform_mem_congr hmem .., OpsKept.trans (t := s.countUse o.cluster a.key) (.of_eq (congrArg State.nextId hc :) (congrArg State.ops hc :)) hp.kept⟩
  have hisBad : State.isBad ((s.countUse o.cluster a.key).perform a.key m.width m.kind m.ty a.data a.data2).2 a.key m.width = false := by
    rw [State.isBad, hnobad]
    rfl
  unfold State.performLocal
  simp only [hdeleg, if_true, hisBad, Bool.and_false, Bool.false_eq_true, if_false, hold, hnow]

/-- A copy serves a load. -/
theorem performLocal_copy (hd : s.delegated o.cluster (lineOf a.key) = false) :
    ∃ u, s.performLocal o m a = ({ a with st := .done, res := s.readAt (s.clusterNow o.cluster) a.key m.width, tc := s.clusterNow o.cluster }, u) ∧
      u.mem = s.mem ∧ u.ops = s.ops := by
  have hc := countUse_keeps s o.cluster a.key
  have hdeleg : (s.countUse o.cluster a.key).delegated o.cluster (lineOf a.key) = false := by
    rw [State.delegated, show (s.countUse o.cluster a.key).deleg = s.deleg from (congrArg State.deleg hc :)]
    exact hd
  refine ⟨s.countUse o.cluster a.key, ?_, (congrArg State.mem hc :), (congrArg State.ops hc :)⟩
  have hnow : (s.countUse o.cluster a.key).clusterNow o.cluster = s.clusterNow o.cluster := by
    rw [State.clusterNow, State.clusterNow, show (s.countUse o.cluster a.key).now = s.now from (congrArg State.now hc :),
      show (s.countUse o.cluster a.key).lagCl = s.lagCl from (congrArg State.lagCl hc :)]
  have hread : (s.countUse o.cluster a.key).readAt (s.clusterNow o.cluster) a.key m.width = s.readAt (s.clusterNow o.cluster) a.key m.width := by
    rw [State.readAt, State.readAt, State.readMem, State.readMem, show (s.countUse o.cluster a.key).mem = s.mem from (congrArg State.mem hc :),
      show (s.countUse o.cluster a.key).past = s.past from (congrArg State.past hc :)]
  unfold State.performLocal
  simp only [hdeleg, Bool.false_eq_true, if_false, hnow, hread]

/-- What its slice's answer makes of an access. -/
def judgedAs (id : Nat) (o : Op) (m : MemDesc) (a : Acc) (p : ReqRes × State) : Acc × State :=
  match p with
  | (.done v tc, s) =>
    if s.isBad a.key m.width && !m.kind.isLabel && m.kind ≠ .store then ({ a with st := .failed 3 }, s)
    else ({ a with st := .done, res := v, tc := tc }, s)
  | (.timed tc, s) => ({ a with st := .timed, tc := tc }, s)
  | (.park tag j, s) => s.parkAcc id o a tag j
  | (.refused l, s) => ({ a with st := .refused l }, s)
  | (.later, s) => (a, s)

/-- A request that goes before no parked one is judged by its slice. -/
theorem atHome_of_free (hst : a.st = .wait) (hdata : m.kind.isData = true) (hfree : s.regionParked (regionOf a.key) s.nextId = false) :
    s.atHome id o m a = judgedAs id o m a (s.request (s.accReq o id m a)) := by
  have hlabel : m.kind.isLabel = false := by
    cases hk : m.kind with
    | lblrd | lblset | lblclr => rw [hk] at hdata; cases hdata
    | _ => rfl
  have hqueued : a.queued = false := by rw [Acc.queued, hst]
  unfold State.atHome
  simp only [hqueued, Bool.false_eq_true, if_false, hfree, hlabel]
  obtain ⟨res, u⟩ := s.request (s.accReq o id m a)
  cases res <;> simp only [judgedAs, hlabel]

/-- A request is parked where the replay queue has room. -/
theorem parkAcc_room (hst : a.st = .wait) (tag : WakeTag) (j : Bool) (hroom : s.replayOcc (s.homeSlice a.key) < Config.replayEntries) :
    s.parkAcc id o a tag j = ({ a with st := .replay tag, arr := s.nextId, credit := false, judged := a.judged || j },
      { s with nextId := s.nextId + 1 }) := by
  unfold State.parkAcc
  simp only [hst, hroom, if_true, reduceCtorEq, if_false]

/-- A request behind a parked one to its region parks too. -/
theorem atHome_of_parked (hst : a.st = .wait) (hparked : s.regionParked (regionOf a.key) s.nextId = true) :
    s.atHome id o m a = s.parkAcc id o a .order false := by
  have hqueued : a.queued = false := by rw [Acc.queued, hst]
  unfold State.atHome
  simp only [hqueued, Bool.false_eq_true, if_false, hparked, if_true]

end

/-- Settles O28: an access is performed where its line may be used, else its home slice's answer decides. -/
theorem homeRequests : Obligations.HomeRequests := by
  intro s id o m a ho hid hjob hkind hst hdata hcomb hdeltas hbad hkey holder put
  have hexec : exec (.homeRequest id a.lane) s = .next (s.homeRequest id a.lane) := by
    show execHomeRequest id a.lane s = _
    simp only [execHomeRequest, ho, hkind]
  have hgo := @homeRequest_of_data s id o m a ho hjob hkind hst hdata hcomb hdeltas hbad hkey holder
  refine ⟨fun hlocal => ⟨_, hexec, fun hd => ?_, fun hd => ?_⟩, fun hpast t => ?_, fun hlocal hsent hcredit => ⟨_, hexec, fun hparked hroom => ?_, fun hfree s' => ?_⟩⟩
  · obtain ⟨u, hperf, hmem, hkept⟩ := performLocal_delegated (m := m) hbad hd
    have hplace := placeLine_keeps u o m a.key
    have hops : mfind (u.placeLine o m a.key).ops id = some o := by
      rw [show (u.placeLine o m a.key).ops = u.ops from (congrArg State.ops hplace :), hkept.ops id hid, ho]
    have hacc := hgo (.inl hlocal) ((congrArg (placed o m a.key) ((if_pos hlocal).trans hperf)).trans (placed_done u rfl)) hops rfl
    rw [hacc]
    exact ⟨(congrArg State.mem hplace :).trans hmem, by rw [mfind_mupd, if_pos rfl, hops]; rfl⟩
  · obtain ⟨u, hperf, hmem, hsame⟩ := performLocal_copy (m := m) hd
    have hplace := placeLine_keeps u o m a.key
    have hops : (u.placeLine o m a.key).ops = s.ops := (congrArg State.ops hplace :).trans hsame
    have hacc := hgo (.inl hlocal) ((congrArg (placed o m a.key) ((if_pos hlocal).trans hperf)).trans (placed_done u rfl)) (hops ▸ ho) rfl
    rw [hacc]
    exact ⟨(congrArg State.mem hplace :).trans hmem, congrArg (fun ops => mupd ops id _) hops⟩
  · rw [State.readAt, hpast]
    rfl
  · have hnot : ¬ s.isLocal o.cluster o.core m a.key = true := by simp [hlocal]
    have hperf := (atHome_of_parked (id := id) (o := o) (m := m) hst hparked).trans (parkAcc_room hst .order false hroom)
    have hacc := hgo (.inr ⟨hsent, hcredit⟩) ((congrArg (placed o m a.key) ((if_neg hnot).trans hperf)).trans (placed_other _ AccSt.noConfusion)) ho rfl
    rw [hacc, Bool.or_false]
  · have hnot : ¬ s.isLocal o.cluster o.core m a.key = true := by simp [hlocal]
    intro holds
    refine ⟨fun v tc hreq hh => ?_, fun tc hreq hh => ?_, fun r hreq hh => ?_, fun tag j hreq hh hroom => ?_⟩ <;> obtain ⟨ho', hbad'⟩ := hh
    · have hisBad : s'.isBad a.key m.width = false := by rw [State.isBad, hbad']; rfl
      have hperf : s.atHome id o m a = ({ a with st := .done, res := v, tc := tc }, s') := by
        rw [atHome_of_free hst hdata hfree, hreq]
        simp only [judgedAs, hisBad, Bool.false_and, Bool.false_eq_true, if_false]
      have hplace := placeLine_keeps s' o m a.key
      have hops : (s'.placeLine o m a.key).ops = s'.ops := (congrArg State.ops hplace :)
      have hacc := hgo (.inr ⟨hsent, hcredit⟩) ((congrArg (placed o m a.key) ((if_neg hnot).trans hperf)).trans (placed_done _ rfl)) (hops ▸ ho') rfl
      rw [hacc, hops]
      exact ⟨(congrArg (fun u : State => { u with ops := put s'.ops { a with st := .done, res := v, tc := tc } }) hplace :), fun hk => by rw [placeLine_of_not_load s' o a.key hdata hk]⟩
    · have hperf : s.atHome id o m a = ({ a with st := .timed, tc := tc }, s') := by rw [atHome_of_free hst hdata hfree, hreq, judgedAs]
      exact hgo (.inr ⟨hsent, hcredit⟩) ((congrArg (placed o m a.key) ((if_neg hnot).trans hperf)).trans (placed_other _ AccSt.noConfusion)) ho' rfl
    · have hperf : s.atHome id o m a = ({ a with st := .refused r }, s') := by rw [atHome_of_free hst hdata hfree, hreq, judgedAs]
      exact hgo (.inr ⟨hsent, hcredit⟩) ((congrArg (placed o m a.key) ((if_neg hnot).trans hperf)).trans (placed_other _ AccSt.noConfusion)) ho' rfl
    · have hperf : s.atHome id o m a = ({ a with st := .replay tag, arr := s'.nextId, credit := false, judged := a.judged || j },
          { s' with nextId := s'.nextId + 1 }) := by
        rw [atHome_of_free hst hdata hfree, hreq, judgedAs]
        exact parkAcc_room hst tag j hroom
      exact hgo (.inr ⟨hsent, hcredit⟩) ((congrArg (placed o m a.key) ((if_neg hnot).trans hperf)).trans (placed_other _ AccSt.noConfusion)) ho' rfl

end Sys2Proof.Machine
end

section
/-! The proof of `Obligations.LabelsDecide`: what a home slice does with a request, label by label. -/

namespace Sys2Proof.Machine

/-! ### A request that its region's label decides (R232) -/

theorem noteReader_keeps (d : Dir) (agent : Nat) :
    (d.noteReader agent).label = d.label ∧ (d.noteReader agent).owner = d.owner ∧ (d.noteReader agent).wcnt = d.wcnt ∧
      (d.noteReader agent).vbnd = d.vbnd := by
  unfold Dir.noteReader
  split
  · exact ⟨rfl, rfl, rfl, rfl⟩
  · split <;> exact ⟨rfl, rfl, rfl, rfl⟩

/-- Recording a request counts it and leaves the label, the owner and the bound as they are; a write leaves the readers too. -/
theorem note_keeps (d : Dir) (agent : Nat) (wr atomic : Bool) :
    (d.note agent wr atomic).label = d.label ∧ (d.note agent wr atomic).owner = d.owner ∧ (d.note agent wr atomic).wcnt = d.wcnt + 1 ∧
      (d.note agent wr atomic).vbnd = d.vbnd ∧ (wr = true → (d.note agent wr atomic).rdr = d.rdr) := by
  have hrun : ∀ e : Dir, e.label = d.label ∧ e.owner = d.owner ∧ e.wcnt = d.wcnt ∧ e.vbnd = d.vbnd ∧ e.rdr = d.rdr →
      ∀ f : Dir, f = (if atomic && !(e.atoms.contains agent) && e.atoms.length < 2 then { e with atoms := e.atoms ++ [agent] } else e) →
      f.label = d.label ∧ f.owner = d.owner ∧ f.wcnt = d.wcnt ∧ f.vbnd = d.vbnd ∧ f.rdr = d.rdr := by
    rintro e he f rfl
    split <;> exact he
  have hlast : ∀ f : Dir, f.label = d.label ∧ f.owner = d.owner ∧ f.wcnt = d.wcnt ∧ f.vbnd = d.vbnd ∧ f.rdr = d.rdr →
      ∀ g : Dir, g = { f with wcnt := f.wcnt + 1, conread := f.conread || (!wr && agent != f.owner) } →
      ∀ h : Dir, h = (if wr then
          if g.wrt.contains agent then g else if g.wrt.length < 2 then { g with wrt := g.wrt ++ [agent] } else { g with wovf := true }
        else g.noteReader agent) →
      h.label = d.label ∧ h.owner = d.owner ∧ h.wcnt = d.wcnt + 1 ∧ h.vbnd = d.vbnd ∧ (wr = true → h.rdr = d.rdr) := by
    rintro f ⟨h1, h2, h3, h4, h5⟩ g rfl h rfl
    split
    next hw =>
      have hcnt : f.wcnt + 1 = d.wcnt + 1 := by rw [h3]
      split
      · exact ⟨h1, h2, hcnt, h4, fun _ => h5⟩
      · split <;> exact ⟨h1, h2, hcnt, h4, fun _ => h5⟩
    next hw =>
      obtain ⟨k1, k2, k3, k4⟩ := noteReader_keeps { f with wcnt := f.wcnt + 1, conread := f.conread || (!wr && agent != f.owner) } agent
      exact ⟨k1.trans h1, k2.trans h2, k3.trans (by rw [← h3]), k4.trans h4, fun h => absurd h hw⟩
  unfold Dir.note
  exact hlast _ (hrun _ (by split <;> exact ⟨rfl, rfl, rfl, rfl, rfl⟩) _ rfl) _ rfl _ rfl

section
variable {s : State} {r : Req} {d : Dir}

/-- The entry of a region once a request has been recorded in it. -/
def notedDir (s : State) (d : Dir) (r : Req) : Dir := { d.note r.agent r.kind.isWrite r.kind.isAtomic with used := s.now }

/-- The state once a request has been recorded. -/
def notedState (s : State) (d : Dir) (r : Req) : State := { s with dir := mput s.dir (regionOf r.key) (notedDir s d r) }

theorem countFrame_uncounted (s : State) (key agent ctx : Nat) : s.countFrame key agent ctx false = s := rfl

theorem refuses_of_unlocked (h : d.lock = false) (agent : Nat) (wr : Bool) : d.refuses agent wr = false := by
  rw [Dir.refuses, h, Bool.false_and]

variable (hd : mfind s.dir (regionOf r.key) = some d) (hjudged : r.judged = false) (hmig : r.mig = false)
  (hwin : d.wcnt + 1 < (s.slice (s.homeSlice r.key)).win) (hclosing : d.closing = none)
include hd hclosing

/-- A request to an open region whose lock does not refuse it is judged. -/
theorem request_judged (hlock : d.lock = false) : s.request r = s.judgeReq d r := by
  unfold State.request
  simp only [hd, hclosing, refuses_of_unlocked hlock, Option.isSome_none, Bool.false_and, Bool.false_eq_true, if_false]

include hjudged hmig hwin

/-- A request that keeps the region's label is performed under it, and the window goes on. -/
theorem request_served (hlock : d.lock = false) (hrecall : d.needsRecall r.agent r.kind.isWrite r.kind.isAtomic = false)
    (hstay : d.judge r.agent r.kind.isWrite r.kind.isAtomic = .stay) {res : ReqRes} {t : State}
    (hserve : (notedState s d r).serve (notedDir s d r) r = (res, t)) (hslices : t.slices = s.slices) (hhub : t.hub = s.hub) :
    s.request r = (res, t) := by
  have hcount : (d.note r.agent r.kind.isWrite r.kind.isAtomic).wcnt = d.wcnt + 1 := (note_keeps ..).2.2.1
  have hhome : t.homeSlice r.key = s.homeSlice r.key := by rw [State.homeSlice, State.homeSlice, hhub]
  have hopen : ¬ (d.note r.agent r.kind.isWrite r.kind.isAtomic).wcnt ≥ (t.slice (t.homeSlice r.key)).win := by
    rw [hcount, hhome, State.slice, hslices]
    exact Nat.not_le.mpr hwin
  rw [request_judged hd hclosing hlock]
  unfold State.judgeReq
  simp only [hjudged, hrecall, hstay, Bool.false_and, Bool.false_eq_true, if_false]
  unfold State.countReq
  rw [hmig, countFrame_uncounted]
  unfold notedState notedDir at hserve
  simp only [hserve, if_neg hopen]

/-- A request that changes the region's label parks behind the close that it starts. -/
theorem request_reclassed (hlock : d.lock = false) (hrecall : d.needsRecall r.agent r.kind.isWrite r.kind.isAtomic = false)
    {l : Label} {own : Nat} (hjudge : d.judge r.agent r.kind.isWrite r.kind.isAtomic = .reclass l own) :
    s.request r = (.park .close true, (notedState s d r).startClose (regionOf r.key) { label := l, owner := own }) := by
  have hcount : (d.note r.agent r.kind.isWrite r.kind.isAtomic).wcnt = d.wcnt + 1 := (note_keeps ..).2.2.1
  have hopen : ¬ (d.note r.agent r.kind.isWrite r.kind.isAtomic).wcnt ≥ (s.slice (s.homeSlice r.key)).win := by
    rw [hcount]
    exact Nat.not_le.mpr hwin
  rw [request_judged hd hclosing hlock]
  unfold State.judgeReq
  simp only [hjudged, hrecall, hjudge, Bool.false_and, Bool.false_eq_true, if_false, if_neg hopen, hmig, countFrame_uncounted]
  rfl

end

/-! ### Serving a request under its label (Table 14-3) -/

section
variable {s u : State} {r : Req} {d : Dir}

/-- What a request reads, and the instant of its home slice. -/
def doneNow (s : State) (r : Req) : ReqRes := .done (s.readMem r.key r.width) (s.now - mget 0 s.lagSl (s.homeSlice r.key))

/-- `u` is `s` but for what serving a request may change before it is performed. -/
structure Serving (s u : State) : Prop where
  mem : u.mem = s.mem
  now : u.now = s.now
  lagSl : u.lagSl = s.lagSl
  hub : u.hub = s.hub
  slices : u.slices = s.slices

theorem Serving.homeNow (h : Serving s u) (key : Nat) : u.homeNow key = s.homeNow key := by
  rw [State.homeNow, State.homeNow, State.homeSlice, State.homeSlice, h.hub, h.now, h.lagSl]

theorem Serving.readMem (h : Serving s u) (key n : Nat) : u.readMem key n = s.readMem key n := by rw [State.readMem, State.readMem, h.mem]

/-- The request is performed now. -/
def servedNow (u : State) (r : Req) : ReqRes × State :=
  (.done (u.perform r.key r.width r.kind r.ty r.data r.data2).1 ((u.perform r.key r.width r.kind r.ty r.data r.data2).2.homeNow r.key),
    (u.perform r.key r.width r.kind r.ty r.data r.data2).2)

/-- What a request that is performed now leaves. -/
structure Written (s u t : State) (r : Req) : Prop where
  mem : t.mem = (s.perform r.key r.width r.kind r.ty r.data r.data2).2.mem
  copies : t.copies = u.copies
  deleg : t.deleg = u.deleg
  slices : t.slices = s.slices
  hub : t.hub = s.hub

theorem servedNow_eq (h : Serving s u) : ∃ t, servedNow u r = (doneNow s r, t) ∧ Written s u t r := by
  have hp := performs_perform u r.key r.width r.kind r.ty r.data r.data2
  refine ⟨_, Prod.ext ?_ rfl, perform_mem_congr h.mem .., hp.copies, hp.deleg, hp.slices.trans h.slices, hp.hub.trans h.hub⟩
  show ReqRes.done _ _ = _
  rw [perform_old, hp.homeNow, h.homeNow, h.readMem]
  rfl

theorem serving_noted (s : State) (d : Dir) (r : Req) : Serving s (notedState s d r) := ⟨rfl, rfl, rfl, rfl, rfl⟩

theorem serve_write (hw : r.kind.isWrite = true) : u.serve d r = u.serveWrite d r := if_pos hw

theorem serve_load (hk : r.kind = .load) : u.serve d r =
    (.done ((u.serveLoad d r).readMem r.key r.width) ((u.serveLoad d r).homeNow r.key), u.serveLoad d r) := by
  have hw : ¬ r.kind.isWrite = true := by rw [hk]; exact Bool.false_ne_true
  exact if_neg hw

/-- A load that changes nothing of memory and time. -/
theorem serve_load_eq (hk : r.kind = .load) {v : State} (hload : u.serveLoad d r = v) (hv : Serving s v) : u.serve d r = (doneNow s r, v) := by
  rw [serve_load hk, hload, hv.readMem, hv.homeNow]
  rfl

end

/-! ### What the classifier decides (Table 14-5) -/

section
variable {d : Dir} {agent : Nat} {wr atomic : Bool}

theorem needsRecall_of_label (h : d.label ≠ .migr) : d.needsRecall agent wr atomic = false := by
  unfold Dir.needsRecall
  rw [beq_eq_false_iff_ne.mpr h]
  rfl

variable (hlock : d.lock = false)
include hlock

theorem judge_cont (h : d.label = .cont) : d.judge agent wr atomic = .stay := by
  unfold Dir.judge
  simp [hlock, h]

theorem judge_uncl (h : d.label = .uncl) : d.judge agent wr false = .stay := by
  unfold Dir.judge
  simp [hlock, h]

theorem judge_ro_read (h : d.label = .ro) : d.judge agent false false = .stay := by
  unfold Dir.judge
  simp [hlock, h]

theorem judge_priv_owner (h : d.label = .priv) (hown : d.owner = agent) : d.judge agent wr false = .stay := by
  unfold Dir.judge
  simp [hlock, h, hown]

theorem judge_pc_owner (h : d.label = .pc) (hown : d.owner = agent) : d.judge agent wr false = .stay := by
  unfold Dir.judge
  simp [hlock, h, hown]

/-- Every write reclassifies an RO region. -/
theorem judge_ro_write (h : d.label = .ro) : ∃ l own, d.judge agent true atomic = .reclass l own := by
  unfold Dir.judge
  simp only [hlock, h, Bool.false_eq_true, if_false, Bool.not_true]
  split
  · exact ⟨_, _, rfl⟩
  · split
    · exact ⟨_, _, rfl⟩
    · split <;> exact ⟨_, _, rfl⟩

end

/-! ### A request under each label -/

section
variable {s u : State} {r : Req} {d : Dir}

theorem notedDir_label : (notedDir s d r).label = d.label := (note_keeps ..).1
theorem notedDir_owner : (notedDir s d r).owner = d.owner := (note_keeps ..).2.1
theorem notedDir_vbnd : (notedDir s d r).vbnd = d.vbnd := (note_keeps ..).2.2.2.1
theorem notedDir_rdr (h : r.kind.isWrite = true) : (notedDir s d r).rdr = d.rdr := (note_keeps ..).2.2.2.2 h

theorem serveLoad_cont (h : d.label = .cont) : u.serveLoad d r = u := by
  unfold State.serveLoad
  rw [h]

theorem serveWrite_cont (h : d.label = .cont) : u.serveWrite d r = servedNow u r := by
  unfold State.serveWrite
  rw [h]
  rfl

/-- An RO region grants a copy until a bound. -/
theorem serveLoad_ro (h : d.label = .ro) (hagent : r.agent ≠ hubAgent) : u.serveLoad d r =
    ({ u with dir := mupd u.dir (regionOf r.key) (fun d => { d with vbnd := max d.vbnd (u.homeNow r.key + (u.slice (u.homeSlice r.key)).lease) }) }).grantCopy
      (lineOf r.key) r.agent (some (u.homeNow r.key + (u.slice (u.homeSlice r.key)).lease)) r.nt := by
  unfold State.serveLoad
  rw [h]
  exact if_neg hagent

/-- A PRIV region delegates a line to its owner. -/
theorem serveLoad_priv (h : d.label = .priv) (hown : d.owner = r.agent) (hagent : r.agent < 48) (hnone : ∀ x ∈ u.deleg, x.line ≠ lineOf r.key) :
    u.serveLoad d r = { u with
      dir := mupd u.dir (regionOf r.key) (fun d => { d with uses := min 7 (d.uses + 1) }),
      deleg := { line := lineOf r.key, cluster := r.agent } :: u.deleg } := by
  have hany : u.deleg.any (fun x => x.line == lineOf r.key) = false := by
    rw [List.any_eq_false]
    exact fun x hx => by simpa using hnone x hx
  have hmine : (decide (r.agent = d.owner) && decide (r.agent < 48)) = true := by simp [hown, hagent]
  unfold State.serveLoad
  simp only [h, hmine, if_true, hany, Bool.false_eq_true, if_false]

/-- An owner's store has the line delegated for write. -/
theorem serveWrite_priv (h : d.label = .priv) (hown : d.owner = r.agent) (hagent : r.agent < 48) (hwatch : ∀ w ∈ u.watch, w.line ≠ lineOf r.key)
    (hdirty : u.hub.dirtyEn = false) : ∃ dir, u.serveWrite d r = servedNow { u with
      dir := dir, deleg := { line := lineOf r.key, cluster := r.agent, write := true } :: u.deleg.filter (fun x => x.line != lineOf r.key) } r := by
  have hany : u.watch.any (fun w => w.line == lineOf r.key) = false := by
    rw [List.any_eq_false]
    exact fun x hx => by simpa using hwatch x hx
  have hmine : (decide (r.agent = d.owner) && decide (r.agent < 48)) = true := by simp [hown, hagent]
  refine ⟨mupd (mupd u.dir (regionOf r.key) (fun d => { d with wst := true })) (regionOf r.key) (fun d => { d with uses := min 7 (d.uses + 1) }), ?_⟩
  unfold State.serveWrite
  simp only [h, hmine, if_true, hany, Bool.false_eq_true, if_false]
  rw [recordDirty_off (by exact hdirty)]
  rfl

/-- A store to an uncached region waits until no copy of its line is left. -/
theorem serveWrite_uncl (h : d.label = .uncl) :
    u.serveWrite d r = if (u.copies.filter (fun c => c.line == lineOf r.key && !(c.bound.any (fun b => b ≤ u.homeNow r.key)))).isEmpty then
        servedNow { u with copies := u.copies.filter (fun c => c.line != lineOf r.key) } r
      else (.park .recall true, { u with copies := u.copies.map (fun c => if c.line == lineOf r.key then { c with inval := true } else c) }) := by
  unfold State.serveWrite
  rw [h]
  rfl

/-- A producer's store with registered consumers is performed H ticks later. -/
theorem serveWrite_pc (h : d.label = .pc) (hown : d.owner = r.agent) (hrdr : d.rdr ≠ []) : ∃ v,
    u.serveWrite d r = (.timed (u.homeNow r.key + d.lag), v) ∧ Serving u v ∧
      v.timed = u.timed ++ [{ tc := u.homeNow r.key + d.lag, key := r.key, width := r.width, kind := r.kind, ty := r.ty, data := r.data, data2 := r.data2, who := r.who }] := by
  have hne : d.rdr.isEmpty = false := by
    rw [← Bool.not_eq_true, List.isEmpty_iff]
    exact hrdr
  unfold State.serveWrite
  simp only [h, hown, if_true, hne, Bool.false_eq_true, if_false]
  exact ⟨_, rfl, ⟨rfl, rfl, rfl, rfl, rfl⟩, rfl⟩

end

/-- Settles O29: label by label, what the classifier decides and what serving the request then does. -/
theorem labelsDecide : Obligations.LabelsDecide := by
  intro s r d hd hjudged hmig hkey hwin hdirty line now bound done written
  refine ⟨fun hclosing => ?_, fun hopen hlock hlabel hw hlockok => ?_, fun hopen hlock => ?_⟩
  · obtain ⟨c, hc⟩ := Option.ne_none_iff_exists'.mp hclosing
    unfold State.request
    simp only [hd, hc, Option.isSome_some, if_true]
  · have hrefuses : d.refuses r.agent r.kind.isWrite = true := by
      rw [Dir.refuses, hlock, hlabel, hw]
      rfl
    have hpref : r.kind.isPref = false := by
      cases hk : r.kind with
      | pref => rw [hk] at hw; cases hw
      | _ => rfl
    unfold State.request
    simp only [hd, hopen, Option.isSome_none, Bool.false_eq_true, if_false, hrefuses, hpref, Bool.not_false, Bool.and_true, if_true, hlockok]
  have hserved := @request_served s r d hd hjudged hmig hwin hopen hlock
  have hn := serving_noted s d r
  have hload : r.kind = .load → r.kind.isWrite = false ∧ r.kind.isAtomic = false := fun h => by rw [h]; exact ⟨rfl, rfl⟩
  have hstore : r.kind = .store → r.kind.isWrite = true ∧ r.kind.isAtomic = false := fun h => by rw [h]; exact ⟨rfl, rfl⟩
  refine ⟨fun hlabel hk => ?_, fun hlabel hw => ?_, fun hlabel hk hagent => ?_, fun hlabel hw => ?_, fun hlabel hown hagent => ⟨fun hk hnone => ?_, fun hk hwatch => ?_⟩,
    fun hlabel hk hown hex => ?_, fun hlabel hk => ⟨fun hnone => ?_, fun hheld => ?_⟩, fun hlabel hk hown hrdr => ?_⟩
  · refine ⟨_, hserved (needsRecall_of_label (by rw [hlabel]; exact Label.noConfusion)) (judge_cont hlock hlabel)
      (serve_load_eq hk (serveLoad_cont (notedDir_label.trans hlabel)) hn) rfl rfl, rfl, rfl, rfl⟩
  · obtain ⟨t, hnow, ht⟩ := servedNow_eq (r := r) hn
    exact ⟨t, hserved (needsRecall_of_label (by rw [hlabel]; exact Label.noConfusion)) (judge_cont hlock hlabel)
      ((serve_write hw).trans ((serveWrite_cont (notedDir_label.trans hlabel)).trans hnow)) ht.slices ht.hub, ht.mem, ht.copies, ht.deleg⟩
  · have hw := (hload hk).1
    have hat := (hload hk).2
    have hserve := serve_load_eq (s := s) hk (serveLoad_ro (u := notedState s d r) (d := notedDir s d r) (notedDir_label.trans hlabel) hagent) ⟨rfl, rfl, rfl, rfl, rfl⟩
    refine ⟨_, _, hserved (needsRecall_of_label (by rw [hlabel]; exact Label.noConfusion)) (by rw [hw, hat]; exact judge_ro_read hlock hlabel)
      hserve rfl rfl, rfl, (mfind_mupd ..).trans ((if_pos rfl).trans (congrArg _ (mfind_mput_same ..))), (notedDir_label (s := s) (r := r)).trans hlabel,
      congrArg (fun b => max b bound) (notedDir_vbnd (s := s) (r := r)), rfl⟩
  · obtain ⟨l, own, hjudge⟩ := judge_ro_write (agent := r.agent) (atomic := r.kind.isAtomic) hlock hlabel
    refine ⟨_, _, request_reclassed hd hjudged hmig hwin hopen hlock (needsRecall_of_label (by rw [hlabel]; exact Label.noConfusion))
      (by rw [hw]; exact hjudge), rfl, (mfind_mupd ..).trans ((if_pos rfl).trans (congrArg _ (mfind_mput_same ..))),
      (notedDir_label (s := s) (r := r)).trans hlabel, Option.some_ne_none _⟩
  · have hserve := serve_load_eq (s := s) hk (serveLoad_priv (u := notedState s d r) (d := notedDir s d r) (notedDir_label.trans hlabel) (notedDir_owner.trans hown) hagent hnone)
      ⟨rfl, rfl, rfl, rfl, rfl⟩
    exact ⟨_, hserved (needsRecall_of_label (by rw [hlabel]; exact Label.noConfusion)) (by rw [(hload hk).2]; exact judge_priv_owner hlock hlabel hown)
      hserve rfl rfl, rfl, rfl, rfl⟩
  · obtain ⟨dir, hwrite⟩ := serveWrite_priv (u := notedState s d r) (d := notedDir s d r) (notedDir_label.trans hlabel) (notedDir_owner.trans hown) hagent hwatch hdirty
    obtain ⟨t, hnow, ht⟩ := servedNow_eq (s := s) (r := r) (u := { notedState s d r with
      dir := dir, deleg := { line := line, cluster := r.agent, write := true } :: s.deleg.filter (fun x => x.line != line) }) ⟨rfl, rfl, rfl, rfl, rfl⟩
    exact ⟨t, hserved (needsRecall_of_label (by rw [hlabel]; exact Label.noConfusion)) (by rw [(hstore hk).2]; exact judge_priv_owner hlock hlabel hown)
      ((serve_write (hstore hk).1).trans (hwrite.trans hnow)) ht.slices ht.hub, ht.mem, ht.copies, ht.deleg⟩
  · obtain ⟨x, hx, hregion⟩ := hex
    have hrecall : d.needsRecall r.agent r.kind.isWrite r.kind.isAtomic = true := by
      rw [(hstore hk).1, (hstore hk).2, Dir.needsRecall, hlabel, hlock]
      simp [hown]
    have hdeleg : (s.regionDeleg (regionOf r.key)).isEmpty = false := by
      rw [← Bool.not_eq_true, List.isEmpty_iff]
      exact List.ne_nil_of_mem (List.mem_filter.mpr ⟨hx, by simpa using hregion⟩)
    rw [request_judged hd hopen hlock]
    unfold State.judgeReq
    simp only [hjudged, hrecall, hdeleg, Bool.false_eq_true, if_false, Bool.not_false, Bool.and_self, if_true]
  · have hwrite := serveWrite_uncl (u := notedState s d r) (d := notedDir s d r) (r := r) (notedDir_label.trans hlabel)
    have hempty : (s.copies.filter (fun c => c.line == lineOf r.key && !(c.bound.any (fun b => b ≤ (notedState s d r).homeNow r.key)))).isEmpty = true := by
      rw [List.isEmpty_iff, List.filter_eq_nil_iff]
      exact fun c hc => by simp [show c.line ≠ lineOf r.key from hnone c hc]
    obtain ⟨t, hnow, ht⟩ := servedNow_eq (s := s) (r := r) (u := { notedState s d r with copies := s.copies.filter (fun c => c.line != line) }) ⟨rfl, rfl, rfl, rfl, rfl⟩
    exact ⟨t, hserved (needsRecall_of_label (by rw [hlabel]; exact Label.noConfusion)) (by rw [(hstore hk).2]; exact judge_uncl hlock hlabel)
      ((serve_write (hstore hk).1).trans (hwrite.trans ((if_pos hempty).trans hnow))) ht.slices ht.hub, ht.mem⟩
  · obtain ⟨c, hc, hcline, hcbound⟩ := hheld
    have hwrite := serveWrite_uncl (u := notedState s d r) (d := notedDir s d r) (r := r) (notedDir_label.trans hlabel)
    have hempty : ¬ (s.copies.filter (fun c => c.line == lineOf r.key && !(c.bound.any (fun b => b ≤ (notedState s d r).homeNow r.key)))).isEmpty = true := by
      rw [List.isEmpty_iff]
      exact List.ne_nil_of_mem (List.mem_filter.mpr ⟨hc, by simp [hcbound, hcline, line]⟩)
    refine ⟨_, hserved (needsRecall_of_label (by rw [hlabel]; exact Label.noConfusion)) (by rw [(hstore hk).2]; exact judge_uncl hlock hlabel)
      ((serve_write (hstore hk).1).trans (hwrite.trans (if_neg hempty))) rfl rfl, rfl, fun c hc hline => ?_⟩
    obtain ⟨c', -, rfl⟩ := List.mem_map.mp hc
    split at hline
    next h => rw [if_pos h]
    next h => exact absurd (by simpa using hline) h
  · intro at_
    obtain ⟨v, hwrite, hv, htimed⟩ := serveWrite_pc (u := notedState s d r) (d := notedDir s d r) (r := r) (notedDir_label.trans hlabel) (notedDir_owner.trans hown)
      (by rw [notedDir_rdr (hstore hk).1]; exact hrdr)
    have hlag : (notedDir s d r).lag = if d.rdr.any (fun a => a ≥ 512) then 2048 else 512 := by rw [Dir.lag, notedDir_rdr (hstore hk).1]
    rw [hlag] at hwrite htimed
    refine ⟨v, hserved (needsRecall_of_label (by rw [hlabel]; exact Label.noConfusion)) (by rw [(hstore hk).2]; exact judge_pc_owner hlock hlabel hown)
      ((serve_write (hstore hk).1).trans hwrite) hv.slices hv.hub, hv.mem, ?_⟩
    rw [htimed, hk]
    rfl

end Sys2Proof.Machine
end

section
/-! The refutation of `Obligations.WalksAndVerdicts` (R212). -/

namespace Sys2Proof.Machine

/-- A load of lane 0 that is walked. -/
def walkedLoad : MemDesc := { kind := .load, ty := .b32, width := 4, cls := some .ld, run := 1, act := 1 }

/-- Its access. -/
def walkedAcc : Acc := { lane := 0, va := 0 }

/-- Its operation, which stands at number 5. -/
def walkedOp : Op := { gid := 1, cls := some .ld, kind := .mem walkedLoad [walkedAcc] }

/-- The group that waits for the walk. -/
def walkingGroup : Group := { block := .walk 5, lanes := List.replicate 32 {} }

/-- A state whose next operation will take number 5 too, with room in the notification ring. -/
def walkingState : State :=
  { groups := [(1, walkingGroup)], ops := [(5, walkedOp)], nextId := 5, hub := { rings := [(0, { en := true })] } }

theorem walk_walkingState : walkingState.walk walkingGroup.ctx walkedAcc.va .r = .notPresent := by decide

set_option maxRecDepth 20000 in
theorem exec_walkEnd_block : (match exec (.walkEnd 1) walkingState with
    | .next t => (t.grp? 1).all fun g => g.block == .walk 5
    | _ => false) = true := by
  decide

/-- The FAULT notification takes the operation's number, and the group stays blocked. -/
theorem exec_walkEnd_blocked {t : State} (ht : exec (.walkEnd 1) walkingState = .next t) {g : Group} (hg : t.grp? 1 = some g) :
    g.block = .walk 5 := by
  have hblocked := exec_walkEnd_block
  rw [ht] at hblocked
  exact beq_iff_eq.1 ((Option.all_some ..).symm.trans ((congrArg (Option.all fun g : Group => g.block == .walk 5) hg).symm.trans hblocked))

/-- Refutes O35: the statement does not ask that the operation's number have been given out. Where it is the next one, the write of the FAULT
notification that parking posts replaces the operation, and the group's walk does not end. -/
theorem not_walksAndVerdicts : ¬ Obligations.WalksAndVerdicts := by
  unfold Obligations.WalksAndVerdicts
  intro h
  obtain ⟨walks, -⟩ := h.1 walkingState 1 5 walkingGroup walkedOp walkedLoad walkedAcc rfl rfl rfl rfl rfl rfl rfl rfl rfl (by decide) rfl rfl rfl
  obtain ⟨-, parks, -⟩ := walks rfl rfl
  obtain ⟨t, g, ht, hg, hblock, -⟩ := parks 0 walk_walkingState rfl rfl
  exact absurd (hblock.symm.trans (exec_walkEnd_blocked ht hg)) (by decide)

end Sys2Proof.Machine
end

section
/-! The refutation of `Obligations.HomeEvents` (R242, R245). -/

namespace Sys2Proof.Machine

/-- A store of lane 0 to the first region, parked behind a close. -/
def parkedStore : MemDesc := { kind := .store, ty := .b32, width := 4, cls := some .st, run := 1, act := 1 }

/-- Its access. -/
def parkedAcc : Acc := { lane := 0, va := 0, key := 0, data := 7, st := .replay .close }

/-- Its operation, which stands at number 5. -/
def parkedOp : Op := { gid := 1, cls := some .st, kind := .mem parkedStore [parkedAcc] }

/-- A state whose next operation will take number 5 too: the line is delegated to the store's cluster for write, and the bitmap of dirty
frames is on. -/
def parkedState : State :=
  { ops := [(5, parkedOp)], nextId := 5, dir := [(0, {})], deleg := [{ line := 0, cluster := 0, write := true }],
    hub := { dirtyEn := true } }

/-- The write that records the dirty frame takes the store's number, and ends with the store. -/
theorem exec_replayWake_ends : (match exec (.replayWake 0 .close) parkedState with
    | .next t => t.ops.isEmpty
    | _ => false) = true := by
  decide

/-- The state as the statement has it. -/
def replayedState : State :=
  { (parkedState.performAcc 5 parkedOp parkedStore parkedAcc).2 with
    ops := mupd (parkedState.performAcc 5 parkedOp parkedStore parkedAcc).2.ops 5
      (fun o => o.setAcc parkedAcc.lane (fun _ => (parkedState.performAcc 5 parkedOp parkedStore parkedAcc).1)) }

theorem replayedState_ops : replayedState.ops.isEmpty = false := by decide

/-- Refutes O36: the statement does not ask that the parked operation's number have been given out. Where it is the next one, the write that
records the dirty frame replaces the operation, and the replay ends that write with it. -/
theorem not_homeEvents : ¬ Obligations.HomeEvents := by
  unfold Obligations.HomeEvents
  rintro ⟨⟨-, -, -, -, -, -, replays, -⟩, -⟩
  obtain ⟨replay, -⟩ := replays parkedState 0 5 .close parkedOp parkedStore parkedAcc rfl rfl (by decide) (by decide)
  have hexec : exec (.replayWake 0 .close) parkedState = .next replayedState := replay rfl rfl (by decide)
  have hends := exec_replayWake_ends
  rw [hexec] at hends
  exact absurd (hends.symm.trans replayedState_ops) (by decide)

end Sys2Proof.Machine
end

section
/-! The proof of `Obligations.LaunchAppends`: LNCH's checks, and the append that its operation ends with. -/

namespace Sys2Proof.Machine

/-- What LNCH does where its checks let it. -/
theorem exec_lnch {h : Hdr} {p q : Nat} {a : Opnd} {s : State} {x : Issue} (hgo : s.issueOf (.lnch h p a q) false = .go x) :
    exec (.lnch h p a q) s = .next (if x.act = 0 then x.done s id else
      match s.localQueue x.g.ctx q with
      | none => s.queueTrap x.gid (x.trap s 0x15 x.act x.act 0 0 q)
      | some k =>
        if x.g.opnd a 1 x.lead % 128 ≠ 0 ∨ x.g.opnd a 1 x.lead + 128 > (s.scratch x.g).1 then
          s.queueTrap x.gid (x.trap s 0x0E x.act x.act (BitVec.ofNat 64 (x.g.opnd a 1 x.lead)))
        else x.done (s.addOp x.gid (some .st) (.lnch p k (mgets byteZero (s.scratch x.g).2 (x.g.opnd a 1 x.lead) 128))) id) :=
  exec_of_go (eff := fun x s => if x.act = 0 then x.done s id else
      match s.localQueue x.g.ctx q with
      | none => s.queueTrap x.gid (x.trap s 0x15 x.act x.act 0 0 q)
      | some k =>
        if x.g.opnd a 1 x.lead % 128 ≠ 0 ∨ x.g.opnd a 1 x.lead + 128 > (s.scratch x.g).1 then
          s.queueTrap x.gid (x.trap s 0x0E x.act x.act (BitVec.ofNat 64 (x.g.opnd a 1 x.lead)))
        else x.done (s.addOp x.gid (some .st) (.lnch p k (mgets byteZero (s.scratch x.g).2 (x.g.opnd a 1 x.lead) 128))) id) hgo rfl

/-- LNCH's operation ends in state `u`, with instant `tc` if its record was appended. -/
def lnchEnds (u : State) (id : Nat) (o : Op) (p : Nat) (tc : Option Nat) : State := (u.forget (lnchTag id)).lnchEnd id o p tc

section
variable {s : State} {id p q : Nat} {bytes : List Byte} {o : Op} {g : Group} {lq : LQ}

/-- An append that reaches each word of the queue. -/
def appendTo (s : State) (id p q : Nat) (bytes : List Byte) (o : Op) (lq : LQ) : State :=
  match s.svcAccess (lnchTag id) none o.ctx lq.headVa 8 none with
  | (.wait, s) => s
  | (.fail e, s) => lnchEnds (s.stopQueue q lq lq.headVa.toNat e) id o p none
  | (.ok head _, s) =>
    match s.svcAccess (lnchTag id) none o.ctx lq.tailVa 8 none with
    | (.wait, s) => s
    | (.fail e, s) => lnchEnds (s.stopQueue q lq lq.tailVa.toNat e) id o p none
    | (.ok tail _, s) =>
      if (tail + 2 ^ 64 - head) % 2 ^ 64 ≥ lq.slots then lnchEnds s id o p none
      else match s.svcAccess (lnchTag id) none o.ctx (lq.slotVa tail) 128 (some (leNat bytes)) with
        | (.wait, s) => s
        | (.fail e, s) => lnchEnds (s.stopQueue q lq (lq.slotVa tail).toNat e) id o p none
        | (.ok _ _, s) =>
          match s.svcAccess (lnchTag id) none o.ctx lq.tailVa 8 (some ((tail + 1) % 2 ^ 64)) with
          | (.wait, s) => s
          | (.fail e, s) => lnchEnds (s.stopQueue q lq lq.tailVa.toNat e) id o p none
          | (.ok _ tc, s) => lnchEnds s id o p (some tc)

/-- LNCH_APPEND once its guard has passed (R182). -/
theorem exec_lnchAppend (ho : mfind s.ops id = some o) (hkind : o.kind = .lnch p q bytes) (hg : s.grp? o.gid = some g)
    (hdeltas : NoDeltas s g.cluster) (hpush : s.fenceWaits o.gid .device = false) (hguard : g.ctime.toNat + 2 ≤ s.regtime g)
    (holder : ∀ e ∈ s.ops, e.1 < id → e.2.gid = o.gid → e.2.cls ≠ some .ld ∧ e.2.cls ≠ some .st) (happending : s.appending id q = false)
    (hlq : mfind s.lqs q = some lq) : exec (.lnchAppend id) s =
      .next (if lq.stopped || lq.ctx != o.ctx then lnchEnds s id o p none else appendTo s id p q bytes o lq) := by
  have hnone : s.ops.any (fun e => e.1 < id && e.2.gid == o.gid && (e.2.cls == some .ld || e.2.cls == some .st)) = false := by
    rw [List.any_eq_false]
    intro e he hmine
    simp only [Bool.and_eq_true, decide_eq_true_eq, beq_iff_eq, Bool.or_eq_true] at hmine
    obtain ⟨⟨hlt, hgid⟩, hcls⟩ := hmine
    obtain ⟨hld, hst⟩ := holder e he hlt hgid
    exact hcls.elim hld hst
  have hlate : ¬ s.regtime g < g.ctime.toNat + 2 := Nat.not_lt.mpr hguard
  show execLnchAppend id s = _
  unfold execLnchAppend
  simp only [ho, hkind, hg, hnone, startFence_of_noDeltas hg hdeltas, hpush, hlate, decide_false, happending, hlq, Bool.or_self,
    Bool.false_eq_true, if_false]
  rfl

/-- An operation that ends without its record appended clears its predicate. -/
theorem lnchEnds_none (u : State) : lnchEnds u id o p none = ((u.forget (lnchTag id)).updGrp o.gid (fun g => g.setPredAll p false)).endOp id := rfl

theorem lnchEnds_some (u : State) (tc : Nat) : lnchEnds u id o p (some tc) =
    ((u.forget (lnchTag id)).updGrp o.gid (fun g => (g.setPredAll p true).raiseCtime tc)).endOp id := rfl

end

/-- Settles O38: the checks of LNCH one by one, and the append word by word. -/
theorem launchAppends : Obligations.LaunchAppends := by
  refine ⟨fun h p q a s x hgo => ?_, fun s id p q bytes o g lq ho hkind hg hdeltas hpush hguard holder happending hlq => ?_⟩
  · intro addr
    have hg := grp_of_issueOf hgo
    rw [exec_lnch hgo]
    refine ⟨fun hact => ?_, fun hact => ⟨fun k hq halign hsize => ?_, fun hq => ?_, fun k hq hbad => ?_⟩⟩
    · rw [if_pos hact]
      exact goes_on hg
    · have hgood : ¬ (x.g.opnd a 1 x.lead % 128 ≠ 0 ∨ x.g.opnd a 1 x.lead + 128 > (s.scratch x.g).1) := by
        show ¬ (addr % 128 ≠ 0 ∨ addr + 128 > (s.scratch x.g).1)
        omega
      rw [if_neg hact]
      simp only [hq, if_neg hgood]
      exact ⟨_, _, rfl, counted_addOp hg .st _⟩
    · rw [if_neg hact]
      simp only [hq]
    · rw [if_neg hact]
      simp only [hq]
      exact congrArg Host.Outcome.next (if_pos hbad)
  · intro tag ends no
    have hexec := exec_lnchAppend ho hkind hg hdeltas hpush hguard holder happending hlq
    refine ⟨fun hstop => ?_, fun hrun hctx => ?_⟩
    · have hno : (lq.stopped || lq.ctx != o.ctx) = true := by
        rcases hstop with h | h <;> simp [h]
      exact hexec.trans (by rw [if_pos hno, lnchEnds_none])
    · have hgo : ¬ (lq.stopped || lq.ctx != o.ctx) = true := by simp [hrun, hctx]
      rw [if_neg hgo] at hexec
      refine ⟨fun r s1 h1 => ?_, fun head tail t1 t2 s1 s2 h1 h2 => ⟨fun hfull => ?_, fun hroom v3 t3 v4 tc s3 s4 h3 h4 => ?_⟩⟩
      · refine hexec.trans (congrArg Host.Outcome.next ?_)
        unfold appendTo
        simp only [show s.svcAccess (lnchTag id) none o.ctx lq.headVa 8 none = (.fail r, s1) from h1]
        exact lnchEnds_none _
      · refine hexec.trans (congrArg Host.Outcome.next ?_)
        unfold appendTo
        simp only [show s.svcAccess (lnchTag id) none o.ctx lq.headVa 8 none = (.ok head t1, s1) from h1,
          show s1.svcAccess (lnchTag id) none o.ctx lq.tailVa 8 none = (.ok tail t2, s2) from h2, if_pos hfull]
        exact lnchEnds_none _
      · refine hexec.trans (congrArg Host.Outcome.next ?_)
        unfold appendTo
        simp only [show s.svcAccess (lnchTag id) none o.ctx lq.headVa 8 none = (.ok head t1, s1) from h1,
          show s1.svcAccess (lnchTag id) none o.ctx lq.tailVa 8 none = (.ok tail t2, s2) from h2, if_neg (Nat.not_le.mpr hroom),
          show s2.svcAccess (lnchTag id) none o.ctx (lq.slotVa tail) 128 (some (leNat bytes)) = (.ok v3 t3, s3) from h3,
          show s3.svcAccess (lnchTag id) none o.ctx lq.tailVa 8 (some ((tail + 1) % 2 ^ 64)) = (.ok v4 tc, s4) from h4]
        exact lnchEnds_some _ tc

end Sys2Proof.Machine
end

section
/-! The proof of `Obligations.GangSignals`: a gang's signal counters, what adds to them and what waits for them. -/

namespace Sys2Proof.Machine

section
variable {s : State} {gid : Nat} {g : Group}

theorem sqsigReady_iff : s.sqsigReady gid g = true ↔ g.cnt.mx.n = 0 ∧ (g.isSeq = true ∨ s.fenceReady gid g .cluster = true) := by
  unfold State.sqsigReady
  rw [Bool.and_eq_true, beq_iff_eq, Bool.or_eq_true]

/-- SQSIG's add, counter by counter. -/
theorem signal_signalAdd {gang : Nat} {e : Gang} (h : mfind s.gangs gang = some e) (n : Nat) (a : Word) (k : Nat) :
    (s.signalAdd gang n a).signal gang k = if k = n then s.signal gang k + a else s.signal gang k := by
  have hgang : mget ({} : Gang) (s.signalAdd gang n a).gangs gang = { e with sigs := mset 0 e.sigs n (mget 0 e.sigs n + a) } := by
    rw [mget, State.signalAdd, mfind_mupd, if_pos rfl, h]
    rfl
  have hold : mget ({} : Gang) s.gangs gang = e := by rw [mget, h]; rfl
  rw [State.signal, State.signal, hgang, hold]
  refine (mget_mset ..).trans ?_
  by_cases hk : k = n
  · rw [if_pos hk.symm, if_pos hk, hk]
  · rw [if_neg (Ne.symm hk), if_neg hk]

/-- The group once its SQWAIT has taken the counter's value `c` where it asks for it. -/
def captured (cap : Option Nat) (c : Word) (g : Group) : Group :=
  match cap with
  | some k => { g with sc := mset 0 g.sc k c }
  | none => g

theorem captured_rest (cap : Option Nat) (c : Word) (g : Group) : { captured cap c g with sc := g.sc } = g := by
  cases cap <;> rfl

theorem captured_lanes (cap : Option Nat) (c : Word) (g : Group) : (captured cap c g).lanes = g.lanes := by
  cases cap <;> rfl

theorem sReg_captured (cap : Option Nat) (c : Word) (g : Group) (k : Nat) :
    sReg (captured cap c g) k = if cap = some k then c else sReg g k := by
  cases cap with
  | none => rw [if_neg (Option.some_ne_none k).symm]; rfl
  | some j =>
    refine (mget_mset ..).trans ?_
    by_cases hk : j = k
    · rw [if_pos hk, if_pos (congrArg some hk)]
    · rw [if_neg hk, if_neg fun h => hk (Option.some.inj h)]
      rfl

variable {n since : Nat} {a run act : Word} {cap : Option Nat}

/-- An SQWAIT whose counter has reached its threshold returns, with the value captured. -/
theorem sqwaitTry_returns (hg : s.grp? gid = some g) (hb : g.block = .sqwait n a cap since false run act)
    (hreached : (s.signal g.gang n - a).toInt ≥ 0) (hready : g.isSeq = true ∨ s.fenceReady gid g .cluster = true) :
    s.sqwaitTry gid = s.updGrp gid (fun g' => { (captured cap (s.signal g.gang n) g').advance run with block := .none }) := by
  have hr : reached (s.signal g.gang n) a = true := decide_eq_true hreached
  have hgo : (g.isSeq || s.fenceReady gid g .cluster) = true := by rw [Bool.or_eq_true]; exact hready
  unfold State.sqwaitTry
  simp only [hg, hb, hr, hgo, Bool.not_true, Bool.and_false, Bool.false_eq_true, if_false, if_true]
  cases cap <;> rfl

/-- An SQWAIT whose counter has not reached its threshold waits on. -/
theorem sqwaitTry_waits (hg : s.grp? gid = some g) (hb : g.block = .sqwait n a cap since false run act)
    (hlow : (s.signal g.gang n - a).toInt < 0) : s.sqwaitTry gid = s := by
  have hr : reached (s.signal g.gang n) a = false := decide_eq_false (Int.not_le.mpr hlow)
  unfold State.sqwaitTry
  simp only [hg, hb, hr, Bool.not_false, Bool.and_self, if_true]

/-- The group that an SQWAIT returns to. -/
theorem sqwait_returned (hg : s.grp? gid = some g) (c : Word) :
    ∃ g', OnlyGroup s (s.updGrp gid (fun g' => { (captured cap c g').advance run with block := .none })) gid g' ∧ Stepped g g' run ∧
      g'.block = .none ∧ { g' with lanes := g.lanes, sc := g.sc, block := g.block } = g ∧
      ∀ k, sReg g' k = if cap = some k then c else sReg g k :=
  ⟨_, onlyGroup_updGrp s gid g _ hg, stepped_of g { captured cap c g with block := .none } run (captured_lanes _ _ _), rfl,
    congrArg (fun h : Group => { h with lanes := g.lanes, block := g.block }) (captured_rest cap c g), fun k => sReg_captured cap c g k⟩

end

section
variable {h : Hdr} {n : Nat} {a : Opnd} {cap : Option Nat} {s : State} {x : Issue}

theorem exec_sqsig (hgo : s.issueOf (.sqsig h n a) false = .go x) : exec (.sqsig h n a) s = .next (if x.act = 0 then x.done s id
    else if s.sqsigReady x.gid x.g then x.done (s.signalAdd x.g.gang n (BitVec.ofNat 32 (x.g.opnd a 1 x.lead))) id
    else s.updGrp x.gid (fun g => { g with block := .sqsig n (BitVec.ofNat 32 (x.g.opnd a 1 x.lead)) x.run })) :=
  exec_of_go (eff := fun x s => if x.act = 0 then x.done s id
    else if s.sqsigReady x.gid x.g then x.done (s.signalAdd x.g.gang n (BitVec.ofNat 32 (x.g.opnd a 1 x.lead))) id
    else s.updGrp x.gid (fun g => { g with block := .sqsig n (BitVec.ofNat 32 (x.g.opnd a 1 x.lead)) x.run })) hgo rfl

/-- The group of an SQWAIT, as it waits. -/
def sqwaiting (n : Nat) (v : Word) (cap : Option Nat) (x : Issue) (s : State) (g : Group) : Group :=
  { g with block := .sqwait n v cap s.clk false x.run x.act }

theorem exec_sqwait (hgo : s.issueOf (.sqwait h n a cap) false = .go x) : exec (.sqwait h n a cap) s = .next (if x.act = 0 then x.done s id
    else (s.updGrp x.gid (sqwaiting n (BitVec.ofNat 32 (x.g.opnd a 1 x.lead)) cap x s)).sqwaitTry x.gid) :=
  exec_of_go (eff := fun x s => if x.act = 0 then x.done s id
    else (s.updGrp x.gid (sqwaiting n (BitVec.ofNat 32 (x.g.opnd a 1 x.lead)) cap x s)).sqwaitTry x.gid) hgo rfl

end

/-- Settles O45: the add of SQSIG, and SQWAIT's wait, return and timeout. -/
theorem gangSignals : Obligations.GangSignals := by
  refine ⟨fun h n a cap s x => ?_, fun s who gid n since a run act cap g hwho hg => ⟨fun hb hmx hready => ?_,
    fun hb => ⟨fun hreached hready => ?_, fun hlate hseq => ?_, fun hlate hseq => ?_⟩⟩⟩
  · intro v ready only
    refine ⟨fun hgo => ⟨fun hact => ?_, fun hact hmx hready hk => ?_, fun hact hnot => ?_⟩,
      fun hgo => ⟨fun hact => ?_, fun hact hreached hready => ?_, fun hact hlow => ?_⟩⟩ <;> have hg := grp_of_issueOf hgo
    · simp only [only, exec_sqsig hgo, if_pos hact]
      exact goes_on hg
    · obtain ⟨e, he⟩ := hk
      have hr : s.sqsigReady x.gid x.g = true := sqsigReady_iff.mpr ⟨hmx, hready⟩
      have honly := onlyGroup_done (s := s.signalAdd x.g.gang n v) (x := x) hg id
      rw [exec_sqsig hgo, if_neg hact, if_pos hr]
      exact ⟨_, _, rfl, honly.group, honly.others, rfl, stepped_of x.g x.g x.run rfl, rfl, fun k => signal_signalAdd he n v k⟩
    · have hr : ¬ s.sqsigReady x.gid x.g = true := fun hr => by
        obtain ⟨h1, h2⟩ := sqsigReady_iff.mp hr
        exact hnot.elim (fun h => h h1) (fun h => h h2)
      rw [exec_sqsig hgo, if_neg hact, if_neg hr]
    · simp only [only, exec_sqwait hgo, if_pos hact]
      exact goes_on hg
    · have hwait := State.grp?_updGrp_same hg (sqwaiting n v cap x s)
      have htry := sqwaitTry_returns (cap := cap) (run := x.run) hwait rfl hreached hready
      obtain ⟨g', ⟨hrest, hgroup, hothers⟩, hstep, hblock, hgrest, hreg⟩ := sqwait_returned (cap := cap) (run := x.run) hwait
        ((s.updGrp x.gid (sqwaiting n v cap x s)).signal (sqwaiting n v cap x s x.g).gang n)
      rw [exec_sqwait hgo, if_neg hact, htry]
      exact ⟨_, g', rfl, ⟨congrArg (fun u : State => { u with groups := s.groups }) hrest, hgroup,
        fun j hj => (hothers j hj).trans (State.grp?_updGrp_other (Ne.symm hj) _)⟩, ⟨hstep.length, hstep.lane⟩, hblock, hreg,
        congrArg (fun g : Group => { g with block := x.g.block }) hgrest⟩
    · have hwait := State.grp?_updGrp_same hg (sqwaiting n v cap x s)
      rw [exec_sqwait hgo, if_neg hact, sqwaitTry_waits hwait rfl hlow]
      rfl
  · have hr : s.sqsigReady gid g = true := sqsigReady_iff.mpr ⟨hmx, hready⟩
    show execSqsigAdd who s = _
    simp only [execSqsigAdd, hwho, hg, hb, hr, if_true]
  · have hexec : exec (.sqwaitReturn who) s = .next (s.sqwaitTry gid) := by
      show execSqwaitReturn who s = _
      simp only [execSqwaitReturn, hwho]
    rw [hexec, sqwaitTry_returns hg hb hreached hready]
    obtain ⟨g', honly, hrest⟩ := sqwait_returned (cap := cap) (run := run) hg (s.signal g.gang n)
    exact ⟨_, g', rfl, honly, hrest⟩
  · show execSqwaitTimeout who s = _
    simp only [execSqwaitTimeout, hwho, hg, hb, if_neg (Nat.not_lt.mpr hlate), hseq, Bool.false_eq_true, if_false]
  · show execSqwaitTimeout who s = _
    simp only [execSqwaitTimeout, hwho, hg, hb, if_neg (Nat.not_lt.mpr hlate), hseq, if_true]

end Sys2Proof.Machine
end

section
/-! What changes of tiles, and of the cores that hold them, leave unchanged. -/

namespace Sys2Proof.Machine

/-! ### Cores and tiles as state (R265) -/

theorem core_updCore (s : State) (k : Nat) (f : CoreSt → CoreSt) (c : Nat) :
    (s.updCore k f).core c = if c = k then f (s.core k) else s.core c := by
  rw [State.core, State.core, State.updCore, mget_mput]
  by_cases h : c = k
  · rw [if_pos h.symm, if_pos h]
    rfl
  · rw [if_neg (Ne.symm h), if_neg h]
    rfl

theorem tile_updTile (s : State) (core t : Nat) (f : Tile → Tile) (c j : Nat) :
    (s.updTile core t f).tile c j = if c = core ∧ j = t then f (s.tile core t) else s.tile c j := by
  rw [State.tile, State.updTile, core_updCore]
  by_cases hc : c = core
  · rw [if_pos hc, mget_mput]
    by_cases hj : j = t
    · rw [if_pos hj.symm, if_pos ⟨hc, hj⟩]
      rfl
    · rw [if_neg (Ne.symm hj), if_neg fun h => hj h.2, hc]
      rfl
  · rw [if_neg hc, if_neg fun h => hc h.1]
    rfl

theorem tile_updCore {s : State} {k : Nat} {f : CoreSt → CoreSt} (h : ∀ c, (f c).tiles = c.tiles) (c j : Nat) :
    (s.updCore k f).tile c j = s.tile c j := by
  rw [State.tile, core_updCore]
  split
  next hc => rw [h, hc]; rfl
  next => rfl

/-- From `u` to `v` only cores have changed: tile `n` of `core` is now `tl`, and no other tile has changed. -/
structure TileChanged (u v : State) (core n : Nat) (tl : Tile) : Prop where
  rest : { v with cores := u.cores } = u
  tile : v.tile core n = tl
  others : ∀ c j, c ≠ core ∨ j ≠ n → v.tile c j = u.tile c j

theorem tileChanged_refl (u : State) (core n : Nat) : TileChanged u u core n (u.tile core n) := ⟨rfl, rfl, fun _ _ _ => rfl⟩

theorem tileChanged_updTile (u : State) (core n : Nat) (f : Tile → Tile) : TileChanged u (u.updTile core n f) core n (f (u.tile core n)) :=
  ⟨rfl, (tile_updTile ..).trans (if_pos ⟨rfl, rfl⟩), fun _ _ h => (tile_updTile ..).trans (if_neg fun hcj => h.elim (fun k => k hcj.1) fun k => k hcj.2)⟩

/-- A change of a core that leaves its tiles as they are. -/
theorem TileChanged.updCore {u v : State} {core n : Nat} {tl : Tile} (h : TileChanged u v core n tl) (k : Nat) {f : CoreSt → CoreSt}
    (hf : ∀ c, (f c).tiles = c.tiles) : TileChanged u (v.updCore k f) core n tl :=
  ⟨h.rest, (tile_updCore hf _ _).trans h.tile, fun c j hcj => (tile_updCore hf c j).trans (h.others c j hcj)⟩

theorem TileChanged.updTile {u v : State} {core n : Nat} {tl : Tile} (h : TileChanged u v core n tl) (f : Tile → Tile) :
    TileChanged u (v.updTile core n f) core n (f tl) := by
  have hv := tileChanged_updTile v core n f
  exact ⟨h.rest, hv.tile.trans (congrArg f h.tile), fun c j hcj => (hv.others c j hcj).trans (h.others c j hcj)⟩

end Sys2Proof.Machine
end

section
/-! The proof of `Obligations.TileStates`: the lane-side tile instructions and the completion of their operations. -/

namespace Sys2Proof.Machine

/-! ### Issue (R270, R272, R273) -/

/-- What a lane-side instruction changes of its tile as it issues. -/
def tileChange (s : State) (core n : Nat) (k : TileOp) : State :=
  match k with
  | .topen => s.updTile core n (fun x => { x with st := .filling, stamps := { fill := some (s.coreTime core) } })
  | .tseal => s.updTile core n (fun x => { x with st := .ready, stamps := { x.stamps with fillEnd := some (s.coreTime core) } })
  | .tdrain => s.updTile core n (fun x => { x with st := .draining })
  | .tfree => (s.noteEnds core).freeTile core n 0
  | _ => s

/-- An offset that a TWR or a TRD may not have (R274). -/
def Wrong (n : Nat) (p : Nat × Nat) : Prop := p.2 % 16 ≠ 0 ∨ tileSize n ≤ p.2

theorem mem_wrongs {n : Nat} {ps : List (Nat × Nat)} {p : Nat × Nat} :
    p ∈ ps.filter (fun p => p.2 % 16 != 0 || p.2 ≥ tileSize n) ↔ p ∈ ps ∧ Wrong n p := by
  rw [List.mem_filter, Bool.or_eq_true, bne_iff_ne, decide_eq_true_eq]
  rfl

/-- The least of some numbers, folded from one of them. -/
theorem foldl_min_eq {α : Type} (f : α → Nat) {v : Nat} (xs : List α) {n : Nat} (hle : v ≤ n) (hall : ∀ x ∈ xs, v ≤ f x)
    (hex : n = v ∨ ∃ x ∈ xs, f x = v) : xs.foldl (fun n x => min n (f x)) n = v := by
  induction xs generalizing n with
  | nil => exact hex.elim id fun ⟨_, h, _⟩ => by cases h
  | cons x xs ih =>
    have hx := hall x List.mem_cons_self
    refine ih (Nat.le_min.mpr ⟨hle, hx⟩) (fun y hy => hall y (List.mem_cons_of_mem _ hy)) ?_
    rcases hex with rfl | ⟨y, hy, rfl⟩
    · exact Or.inl (Nat.min_eq_left hx)
    · rcases List.mem_cons.mp hy with rfl | hy
      · exact Or.inl (Nat.min_eq_right hle)
      · exact Or.inr ⟨y, hy, rfl⟩

section
variable {u : State} {gid n : Nat} {g : Group} {k : TileOp} {run act : Word}

/-- An instruction whose offsets are good changes its tile, counts on mx and advances the run. -/
theorem tileGo_good (hg : u.grp? gid = some g) (hgood : ∀ p ∈ k.offsets act, ¬ Wrong n p) : u.tileGo gid n k run act =
    ((tileChange u g.core n k).addOp gid (some .mx) (.tile n k)).updGrp gid (fun g => g.advance run) := by
  have hnil : (k.offsets act).filter (fun p => p.2 % 16 != 0 || p.2 ≥ tileSize n) = [] :=
    List.eq_nil_iff_forall_not_mem.mpr fun p hp => by
      obtain ⟨h1, h2⟩ := mem_wrongs.mp hp
      exact hgood p h1 h2
  unfold State.tileGo
  simp only [hg, hnil]
  cases k <;> rfl

/-- The trap of the smallest wrong offset (R274). -/
theorem tileGo_bad (hg : u.grp? gid = some g) {p : Nat × Nat} (hp : p ∈ k.offsets act) (hw : Wrong n p)
    (hmin : ∀ q ∈ k.offsets act, Wrong n q → p.2 ≤ q.2) :
    ∃ m : Word, (∀ l, l < 32 → (m.getLsbD l = true ↔ ∃ q ∈ k.offsets act, Wrong n q ∧ q.1 % 32 = l)) ∧
      u.tileGo gid n k run act = u.queueTrap gid { (u.lateTrap g 0x12 act (BitVec.ofNat 64 p.2)) with mask := m } := by
  obtain ⟨b, bs, hbad⟩ := List.exists_cons_of_ne_nil (List.ne_nil_of_mem (mem_wrongs.mpr ⟨hp, hw⟩))
  have hmem : ∀ q, q ∈ b :: bs ↔ q ∈ k.offsets act ∧ Wrong n q := fun q => by rw [← hbad]; exact mem_wrongs
  have hleast : (b :: bs).foldl (fun n p => min n p.2) b.2 = p.2 := by
    have hall : ∀ q ∈ b :: bs, p.2 ≤ q.2 := fun q hq => hmin q ((hmem q).mp hq).1 ((hmem q).mp hq).2
    exact foldl_min_eq Prod.snd _ (hall b List.mem_cons_self) hall (Or.inr ⟨p, (hmem p).mpr ⟨hp, hw⟩, rfl⟩)
  refine ⟨maskOf ((b :: bs).map (·.1)), fun l hl => ?_, ?_⟩
  · rw [mem_maskOf _ _ hl]
    constructor
    · rintro ⟨j, hj, hjl⟩
      obtain ⟨q, hq, rfl⟩ := List.mem_map.mp hj
      exact ⟨q, ((hmem q).mp hq).1, ((hmem q).mp hq).2, hjl⟩
    · rintro ⟨q, hq, hwq, hql⟩
      exact ⟨q.1, List.mem_map.mpr ⟨q, (hmem q).mpr ⟨hq, hwq⟩, rfl⟩, hql⟩
  · unfold State.tileGo
    simp only [hg, hbad, hleast]

end

/-- A tile that has changed, its operation counted and its run advanced. -/
theorem counted_tile {s u v : State} {x : Issue} {n : Nat} {k : TileOp} {tl : Tile}
    (hu : u = s.updGrp x.gid (fun g => { g with word0 := x.word0 })) (hg : s.grp? x.gid = some x.g) (hv : TileChanged u v x.g.core n tl) :
    ∃ t g', (Host.Outcome.next ((v.addOp x.gid (some .mx) (.tile n k)).updGrp x.gid (fun g => g.advance x.run)) : Out) = .next t ∧
      t.grp? x.gid = some g' ∧ (∀ j, j ≠ x.gid → t.grp? j = s.grp? j) ∧ t.mem = s.mem ∧
      Stepped x.g g' x.run ∧ g'.cnt = x.g.cnt.set .mx (x.g.cnt.get .mx).issue ∧
      { g' with lanes := x.g.lanes, cnt := x.g.cnt } = { x.g with word0 := x.word0 } ∧
      (∃ o, mfind t.ops s.nextId = some o ∧ o.kind = .tile n k ∧ o.cls = some .mx ∧ o.gid = x.gid) ∧
      t.tile x.g.core n = tl ∧ ∀ c j, c ≠ x.g.core ∨ j ≠ n → t.tile c j = s.tile c j := by
  subst hu
  have hgroups : ∀ j, v.grp? j = (s.updGrp x.gid (fun g => { g with word0 := x.word0 })).grp? j := fun j =>
    congrArg (fun gs => mfind gs j) (congrArg State.groups hv.rest :)
  have hid : v.nextId = s.nextId := (congrArg State.nextId hv.rest :)
  have hgv := (hgroups x.gid).trans (State.grp?_updGrp_same hg _)
  have hadd := addOp_some hgv .mx (.tile n k)
  have hops : ((v.addOp x.gid (some .mx) (.tile n k)).updGrp x.gid (fun g => g.advance x.run)).ops =
      mput v.ops v.nextId (opOf { x.g with word0 := x.word0 } x.gid .mx (.tile n k)) := by rw [hadd]; rfl
  have hcores : ((v.addOp x.gid (some .mx) (.tile n k)).updGrp x.gid (fun g => g.advance x.run)).cores = v.cores := by rw [hadd]; rfl
  have htile : ∀ c j, ((v.addOp x.gid (some .mx) (.tile n k)).updGrp x.gid (fun g => g.advance x.run)).tile c j = v.tile c j := fun c j => by
    rw [State.tile, State.core, hcores]
    rfl
  refine ⟨_, _, rfl, State.grp?_updGrp_same (grp?_addOp hgv .mx _) _, fun j hj => ?_, ?_, stepped_of x.g _ x.run rfl, rfl, rfl,
    ⟨opOf { x.g with word0 := x.word0 } x.gid .mx (.tile n k), ?_, rfl, rfl, rfl⟩, (htile _ _).trans hv.tile,
    fun c j hcj => (htile c j).trans (hv.others c j hcj)⟩
  · exact (State.grp?_updGrp_other (Ne.symm hj) _).trans ((grp?_addOp_other hgv hj .mx _).trans ((hgroups j).trans (State.grp?_updGrp_other (Ne.symm hj) _)))
  · rw [hadd]
    exact (congrArg State.mem hv.rest :)
  · rw [hops, hid]
    exact mfind_mput_same _ _ _

/-- What instruction `i` does to tile `n`, by its operation `k`: nothing but advance the run with an empty Active, trap for a tile of another
team or a wrong offset, hold the run until `need`, and leave the tile as `tl`. -/
structure TileDoes (s : State) (x : Issue) (i : Instr) (n : Nat) (k : TileOp) (need : Prop) (tl : Tile) : Prop where
  idle : x.act = 0 → ∃ t g', exec i s = .next t ∧ OnlyGroup s t x.gid g' ∧ Stepped x.g g' x.run ∧ { g' with lanes := x.g.lanes } = x.g
  foreign : x.act ≠ 0 → (s.tile x.g.core n).team ≠ some (x.g.gang, x.g.team) →
    exec i s = .next (s.queueTrap x.gid (x.trap s 0x04 x.act x.act))
  goes : x.act ≠ 0 → (s.tile x.g.core n).team = some (x.g.gang, x.g.team) → need → (∀ p ∈ k.offsets x.act, ¬ Wrong n p) →
    ∃ t g', exec i s = .next t ∧ t.grp? x.gid = some g' ∧ (∀ j, j ≠ x.gid → t.grp? j = s.grp? j) ∧ t.mem = s.mem ∧
      Stepped x.g g' x.run ∧ g'.cnt = x.g.cnt.set .mx (x.g.cnt.get .mx).issue ∧
      { g' with lanes := x.g.lanes, cnt := x.g.cnt } = { x.g with word0 := x.word0 } ∧
      (∃ o, mfind t.ops s.nextId = some o ∧ o.kind = .tile n k ∧ o.cls = some .mx ∧ o.gid = x.gid) ∧
      t.tile x.g.core n = tl ∧ ∀ c j, c ≠ x.g.core ∨ j ≠ n → t.tile c j = s.tile c j
  wrong : ∀ p ∈ k.offsets x.act, x.act ≠ 0 → (s.tile x.g.core n).team = some (x.g.gang, x.g.team) → need → Wrong n p →
    (∀ q ∈ k.offsets x.act, Wrong n q → p.2 ≤ q.2) → ∃ m : Word, (∀ l, l < 32 → (m.getLsbD l = true ↔ ∃ q ∈ k.offsets x.act, Wrong n q ∧ q.1 % 32 = l)) ∧
    exec i s = .next ((s.updGrp x.gid (fun g => { g with word0 := x.word0 })).queueTrap x.gid
      { ((s.updGrp x.gid (fun g => { g with word0 := x.word0 })).lateTrap { x.g with word0 := x.word0 } 0x12 x.act (BitVec.ofNat 64 p.2)) with mask := m })
  waits : x.act ≠ 0 → (s.tile x.g.core n).team = some (x.g.gang, x.g.team) → ¬ need → exec i s =
    .next ((s.updGrp x.gid (fun g => { g with word0 := x.word0 })).updGrp x.gid (fun g => { g with block := .tile n k s.clk x.run x.act }))

/-- A lane-side tile instruction does what Table 17-3 says. -/
theorem tileDoes {s : State} {x : Issue} {i : Instr} {n : Nat} {k : Issue → TileOp} {need : Prop} {tl : Tile} (hgo : s.issueOf i false = .go x)
    (hexec : exec i s = laneInstr i false s (tileOp n k)) (hneed : s.tileReady x.g.core n (k x) = true ↔ need)
    (hchange : TileChanged (s.updGrp x.gid (fun g => { g with word0 := x.word0 }))
      (tileChange (s.updGrp x.gid (fun g => { g with word0 := x.word0 })) x.g.core n (k x)) x.g.core n tl) : TileDoes s x i n (k x) need tl := by
  have hg := grp_of_issueOf hgo
  have hgw := State.grp?_updGrp_same hg (fun g => { g with word0 := x.word0 })
  have hex := exec_of_go hgo hexec
  have hready : (s.updGrp x.gid (fun g => { g with word0 := x.word0 })).tileReady x.g.core n (k x) = s.tileReady x.g.core n (k x) := by
    cases k x <;> rfl
  have hmine : x.act ≠ 0 → (s.tile x.g.core n).team = some (x.g.gang, x.g.team) → tileOp n k x s =
      if s.tileReady x.g.core n (k x) then (s.updGrp x.gid (fun g => { g with word0 := x.word0 })).tileGo x.gid n (k x) x.run x.act
      else (s.updGrp x.gid (fun g => { g with word0 := x.word0 })).updGrp x.gid (fun g => { g with block := .tile n (k x) s.clk x.run x.act }) :=
    fun hact hteam => by
      unfold tileOp
      rw [if_neg hact, if_neg (not_not.mpr hteam)]
      dsimp only
      rw [hready]
      rfl
  refine ⟨fun hact => ?_, fun hact hteam => ?_, fun hact hteam hn hgood => ?_, fun p hp hact hteam hn hw hmin => ?_, fun hact hteam hn => ?_⟩
  · rw [hex, tileOp, if_pos hact]
    exact goes_on hg
  · rw [hex, tileOp, if_neg hact, if_pos hteam]
  · rw [hex, hmine hact hteam, if_pos (hneed.mpr hn), tileGo_good hgw hgood]
    exact counted_tile rfl hg hchange
  · obtain ⟨m, hm, hgoes⟩ := tileGo_bad (run := x.run) hgw hp hw hmin
    rw [hex, hmine hact hteam, if_pos (hneed.mpr hn), hgoes]
    exact ⟨m, hm, rfl⟩
  · rw [hex, hmine hact hteam, if_neg fun h => hn (hneed.mp h)]

/-! ### The end of a tile's use (R273) -/

/-- Ended operations that have been noted stay as they are. -/
theorem noteEnds_noted {s : State} {core : Nat} (h : ∀ e ∈ (s.core core).queue, s.over e = true → e.noted = true) :
    s.noteEnds core = s.updCore core (fun c => { c with queue := c.queue.map (fun e => if s.over e then { e with noted := true } else e) }) := by
  have hnil : (s.core core).queue.filter (fun e => s.over e && !e.noted) = [] :=
    List.filter_eq_nil_iff.mpr fun e he => by
      cases ho : s.over e with
      | false => simp
      | true => simp [h e he ho]
  rw [State.noteEnds, hnil]
  rfl

/-- Without tracing a freed tile leaves no record (R378). -/
theorem tileRecord_off {s : State} {core : Nat} (h : (s.core core).dbg.traceOn = false) (t status : Nat) : s.tileRecord core t status = s := by
  unfold State.tileRecord
  simp only [h, Bool.false_and, Bool.not_false, if_true]
  split <;> rfl

theorem tileChanged_free {u : State} {core n : Nat} (htrace : (u.core core).dbg.traceOn = false)
    (hnoted : ∀ e ∈ (u.core core).queue, u.over e = true → e.noted = true) :
    TileChanged u (tileChange u core n .tfree) core n { u.tile core n with st := .empty, sat := false, err := false } := by
  have hoff : ((u.noteEnds core).core core).dbg.traceOn = false := by
    rw [noteEnds_noted hnoted, core_updCore, if_pos rfl]
    exact htrace
  unfold tileChange State.freeTile
  rw [tileRecord_off hoff, noteEnds_noted hnoted]
  have hnote := (tileChanged_refl u core n).updCore core
    (f := fun c => { c with queue := c.queue.map (fun e => if u.over e then { e with noted := true } else e) }) fun _ => rfl
  exact (hnote.updTile (fun x => { x with st := .empty, sat := false, err := false })).updCore core
    (f := fun c => { c with scale := if c.scale = some n then none else c.scale }) fun _ => rfl

/-! ### TSTAT (R275) -/

/-- The status word, bit by bit (Table 17-4). -/
theorem tileStatus_eq (s : State) (core n : Nat) : s.tileStatus core n =
    min 15 (s.queuedOn core n) * 2 ^ 16 + (if (s.tile core n).err then 32 else 0) + (if (s.tile core n).sat then 16 else 0) +
      (if (s.core core).scale = some n then 8 else 0) + (if (s.tile core n).team ≠ none then 4 else 0) + (s.tile core n).st.code := by
  have hscale : b2n ((s.core core).scale == some n) * 2 ^ 3 = if (s.core core).scale = some n then 8 else 0 := by
    by_cases h : (s.core core).scale = some n
    · simp [h, b2n]
    · simp [h, b2n]
  have hteam : b2n (s.tile core n).team.isSome * 2 ^ 2 = if (s.tile core n).team ≠ none then 4 else 0 := by
    cases (s.tile core n).team <;> rfl
  have hflag : ∀ (b : Bool) (m : Nat), b2n b * m = if b then m else 0 := fun b m => by cases b <;> simp [b2n]
  unfold State.tileStatus
  dsimp only
  rw [hscale, hteam, hflag, hflag]
  rfl

/-- What TSTAT does where its checks let it. -/
theorem exec_tstat {h : Hdr} {d : Opnd} {n team : Nat} {s : State} {x : Issue} (hgo : s.issueOf (.tstat h d n team) false = .go x) :
    exec (.tstat h d n team) s = .next (if x.g.isSeq then
      if x.act = 0 then x.done s id
      else match s.teamCore x.g.gang team with
        | none => s.seqFault x.gid 0x04 n 0
        | some core => x.done s (fun g => g.writeD x d 1 false (fun _ => s.tileStatus core n))
      else x.done s (fun g => g.writeD x d 1 false (fun _ => s.tileStatus x.g.core n))) :=
  exec_of_go (eff := fun x s => if x.g.isSeq then
      if x.act = 0 then x.done s id
      else match s.teamCore x.g.gang team with
        | none => s.seqFault x.gid 0x04 n 0
        | some core => x.done s (fun g => g.writeD x d 1 false (fun _ => s.tileStatus core n))
      else x.done s (fun g => g.writeD x d 1 false (fun _ => s.tileStatus x.g.core n))) hgo rfl

/-- With an empty Active no destination is written. -/
theorem writeD_idle {x : Issue} (h : x.act = 0) (g : Group) (d : Opnd) (w : Nat) (z : Bool) (f : Nat → Nat) : g.writeD x d w z f = g := by
  unfold Group.writeD
  exact if_pos h

/-! ### TWR's bytes (R274) -/

/-- The bytes of one quad that several lanes write: each byte is that of a lane chosen for it. -/
def quadStep (ds : List Nat) (x : Nat) (p : List Byte × State) (i : Nat) : List Byte × State :=
  (p.1 ++ [BitVec.ofNat 8 (bits (ds.getD (p.2.choose ds.length).1 x) (8 * i) 8)], (p.2.choose ds.length).2)

/-- Byte `j` of a quad is that of one of the words `ds`. -/
def ByteOf (ds : List Nat) (bs : List Byte) (j : Nat) : Prop := ∃ d ∈ ds, bs.getD j 0 = BitVec.ofNat 8 (d / 2 ^ (8 * j))

theorem getD_mem_or {ds : List Nat} {x : Nat} (hx : x ∈ ds) (k : Nat) : ds.getD k x ∈ ds := by
  by_cases h : k < ds.length
  · rw [List.getD_eq_getElem _ _ h]
    exact List.getElem_mem h
  · rw [List.getD_eq_default _ _ (Nat.not_lt.mp h)]
    exact hx

theorem ofNat_bits (d j : Nat) : (BitVec.ofNat 8 (bits d (8 * j) 8) : Byte) = BitVec.ofNat 8 (d / 2 ^ (8 * j)) := by
  apply BitVec.eq_of_toNat_eq
  rw [BitVec.toNat_ofNat, BitVec.toNat_ofNat, bits, Nat.mod_mod]

theorem quadSteps {ds : List Nat} {x : Nat} (hx : x ∈ ds) (s : State) (n : Nat) :
    ((List.range n).foldl (quadStep ds x) ([], s)).1.length = n ∧
      (∀ j, j < n → ByteOf ds ((List.range n).foldl (quadStep ds x) ([], s)).1 j) ∧
      { ((List.range n).foldl (quadStep ds x) ([], s)).2 with freeCtr := s.freeCtr } = s := by
  induction n with
  | zero => exact ⟨rfl, fun j hj => absurd hj (Nat.not_lt_zero j), rfl⟩
  | succ n ih =>
    obtain ⟨hlen, hbytes, hrest⟩ := ih
    rw [List.range_succ, List.foldl_append, List.foldl_cons, List.foldl_nil]
    refine ⟨by rw [quadStep, List.length_append, hlen]; rfl, fun j hj => ?_, hrest⟩
    rcases Nat.lt_succ_iff_lt_or_eq.mp hj with hj | rfl
    · obtain ⟨d, hd, h⟩ := hbytes j hj
      refine ⟨d, hd, ?_⟩
      rw [quadStep, List.getD_append _ _ _ _ (hlen.symm ▸ hj)]
      exact h
    · refine ⟨_, getD_mem_or hx (((List.range j).foldl (quadStep ds x) ([], s)).2.choose ds.length).1, ?_⟩
      rw [quadStep, List.getD_append_right _ _ _ _ hlen.le, hlen, Nat.sub_self]
      exact ofNat_bits _ _

/-- From `s` to `t` quad `off` of a tile has been written, each byte by one of `ds`. -/
structure Landed (s t : State) (core n off : Nat) (ds : List Nat) : Prop where
  rest : { t with cores := s.cores, freeCtr := s.freeCtr } = s
  inside : ∀ j, j < 16 → ∃ d ∈ ds, mget byteZero (t.tile core n).data (off + j) = BitVec.ofNat 8 (d / 2 ^ (8 * j))
  outside : ∀ j, j < off ∨ off + 16 ≤ j → mget byteZero (t.tile core n).data j = mget byteZero (s.tile core n).data j
  others : ∀ c j, c ≠ core ∨ j ≠ n → t.tile c j = s.tile c j

/-- One write of a quad. -/
theorem landed_updTile {s u : State} {core n off : Nat} {ds : List Nat} {bs : List Byte} (hu : { u with freeCtr := s.freeCtr } = s)
    (hlen : bs.length = 16) (hbytes : ∀ j, j < 16 → ByteOf ds bs j) :
    Landed s (u.updTile core n (fun y => { y with data := msets byteZero y.data off bs, bad := y.bad.filter (fun b => b < off || off + 16 ≤ b) }))
      core n off ds := by
  have hcores : u.cores = s.cores := (congrArg State.cores hu :)
  have htile : ∀ c j, u.tile c j = s.tile c j := fun c j => by rw [State.tile, State.tile, State.core, State.core, hcores]
  have hc := tileChanged_updTile u core n (fun y => { y with data := msets byteZero y.data off bs, bad := y.bad.filter (fun b => b < off || off + 16 ≤ b) })
  have hdata : ∀ j, mget byteZero ((u.updTile core n (fun y => { y with data := msets byteZero y.data off bs, bad := y.bad.filter (fun b => b < off || off + 16 ≤ b) })).tile core n).data j =
      if off ≤ j ∧ j < off + 16 then bs.getD (j - off) 0 else mget byteZero (s.tile core n).data j := fun j => by
    rw [hc.tile, htile]
    refine (mget_msets ..).trans ?_
    rw [hlen]
    rfl
  refine ⟨(congrArg (fun t : State => { t with cores := s.cores }) hu :), fun j hj => ?_, fun j hj => ?_, fun c j hcj => (hc.others c j hcj).trans (htile c j)⟩
  · obtain ⟨d, hd, h⟩ := hbytes j hj
    exact ⟨d, hd, by rw [hdata, if_pos (by omega), Nat.add_sub_cancel_left, h]⟩
  · rw [hdata, if_neg (by omega)]

theorem landed_landQuad (s : State) (core n off : Nat) {ds : List Nat} (hne : ds ≠ []) : Landed s (s.landQuad core n off ds) core n off ds := by
  match ds, hne with
  | [x], _ =>
    exact landed_updTile (u := s) rfl (leBytes_length ..) fun j hj => ⟨x, List.mem_cons_self, getD_leBytes _ _ _ hj _⟩
  | x :: y :: xs, _ =>
    obtain ⟨hlen, hbytes, hrest⟩ := quadSteps (ds := x :: y :: xs) (x := x) List.mem_cons_self s 16
    exact landed_updTile hrest hlen hbytes

/-- The words that lanes write at an offset. -/
def wordsAt (ws : List (Nat × Nat)) (off : Nat) : List Nat := (ws.filter (fun w => w.1 == off)).map (·.2)

theorem mem_wordsAt {ws : List (Nat × Nat)} {off d : Nat} : d ∈ wordsAt ws off ↔ (off, d) ∈ ws := by
  unfold wordsAt
  rw [List.mem_map]
  constructor
  · rintro ⟨⟨a, b⟩, h, rfl⟩
    obtain ⟨h1, h2⟩ := List.mem_filter.mp h
    rw [← beq_iff_eq.mp h2]
    exact h1
  · exact fun h => ⟨(off, d), List.mem_filter.mpr ⟨h, beq_self_eq_true _⟩, rfl⟩

theorem mem_offsetsOf (ws : List (Nat × Nat)) (acc : List Nat) (o : Nat) : o ∈ offsetsOf ws acc ↔ o ∈ acc ∨ ∃ w ∈ ws, w.1 = o := by
  induction ws generalizing acc with
  | nil => simp [offsetsOf]
  | cons w ws ih =>
    rw [offsetsOf, ih]
    by_cases h : acc.contains w.1
    · rw [if_pos h]
      simp only [List.contains_iff_mem] at h
      constructor
      · rintro (ho | ⟨v, hv, hvo⟩)
        · exact Or.inl ho
        · exact Or.inr ⟨v, List.mem_cons_of_mem _ hv, hvo⟩
      · rintro (ho | ⟨v, hv, rfl⟩)
        · exact Or.inl ho
        · rcases List.mem_cons.mp hv with rfl | hv
          · exact Or.inl h
          · exact Or.inr ⟨v, hv, rfl⟩
    · rw [if_neg h]
      simp only [List.mem_cons, exists_eq_or_imp]
      tauto

/-- Quads that lie 16 bytes apart, written one after another. -/
theorem landed_foldl {core n : Nat} {ws : List (Nat × Nat)} (halign : ∀ w ∈ ws, w.1 % 16 = 0) (os : List Nat) (s : State)
    (hos : ∀ o ∈ os, ∃ w ∈ ws, w.1 = o) :
    let t := os.foldl (fun s off => s.landQuad core n off (wordsAt ws off)) s
    { t with cores := s.cores, freeCtr := s.freeCtr } = s ∧
      (∀ o ∈ os, ∀ j, j < 16 → ∃ v ∈ ws, v.1 = o ∧ mget byteZero (t.tile core n).data (o + j) = BitVec.ofNat 8 (v.2 / 2 ^ (8 * j))) ∧
      (∀ j, (∀ o ∈ os, j < o ∨ o + 16 ≤ j) → mget byteZero (t.tile core n).data j = mget byteZero (s.tile core n).data j) ∧
      ∀ c j, c ≠ core ∨ j ≠ n → t.tile c j = s.tile c j := by
  induction os generalizing s with
  | nil => exact ⟨rfl, fun o ho => absurd ho List.not_mem_nil, fun _ _ => rfl, fun _ _ _ => rfl⟩
  | cons o os ih =>
    obtain ⟨⟨o', d⟩, hw, ho⟩ := hos o List.mem_cons_self
    obtain rfl : o' = o := ho
    have hl := landed_landQuad s core n o' (List.ne_nil_of_mem (mem_wordsAt.mpr hw))
    obtain ⟨hrest, hin, hout, hothers⟩ := ih (s.landQuad core n o' (wordsAt ws o')) fun o ho => hos o (List.mem_cons_of_mem _ ho)
    refine ⟨(congrArg (fun t : State => { t with cores := s.cores, freeCtr := s.freeCtr }) hrest :).trans hl.rest, fun o ho j hj => ?_, fun j hj => ?_,
      fun c j hcj => (hothers c j hcj).trans (hl.others c j hcj)⟩
    · by_cases hlate : o ∈ os
      · exact hin o hlate j hj
      · rcases List.mem_cons.mp ho with rfl | ho
        · obtain ⟨v, hv, hbyte⟩ := hl.inside j hj
          refine ⟨(o, v), mem_wordsAt.mp hv, rfl, (hout _ fun o'' ho'' => ?_).trans hbyte⟩
          obtain ⟨w'', hw'', rfl⟩ := hos o'' (List.mem_cons_of_mem _ ho'')
          have h1 : o % 16 = 0 := halign _ hw
          have h2 := halign _ hw''
          have hne : w''.1 ≠ o := fun h => hlate (h ▸ ho'')
          omega
        · exact absurd ho hlate
    · exact (hout j fun o' ho' => hj o' (List.mem_cons_of_mem _ ho')).trans (hl.outside j (hj _ List.mem_cons_self))

/-! ### TRD's registers (R274) -/

theorem vReg_putLane {g : Group} {k w l x : Nat} (hroom : k + w ≤ g.nregs) (hl : l < 32) (j i : Nat) (hi : i < 32) :
    vReg (g.putLane (.v k) w l x) j i = if i = l ∧ k ≤ j ∧ j < k + w then wordOf x (j - k) else vReg g j i := by
  unfold Group.putLane
  dsimp only
  rw [if_pos hroom]
  exact mget_putRegs g.v k l w x j i hl hi

theorem nregs_putLane (g : Group) (k w l x : Nat) : (g.putLane (.v k) w l x).nregs = g.nregs := by
  unfold Group.putLane
  dsimp only
  split <;> rfl

/-- Words put in registers by lane. -/
theorem vReg_putVals {k w : Nat} (vals : List (Nat × Nat)) {g : Group} (hroom : k + w ≤ g.nregs) (hlt : ∀ v ∈ vals, v.1 < 32)
    (hnodup : (vals.map (·.1)).Nodup) :
    (∀ v ∈ vals, ∀ j, j < w → vReg (g.putVals (.v k) w vals) (k + j) v.1 = wordOf v.2 j) ∧
      ∀ j l, l < 32 → (j < k ∨ k + w ≤ j ∨ ∀ v ∈ vals, v.1 ≠ l) → vReg (g.putVals (.v k) w vals) j l = vReg g j l := by
  induction vals generalizing g with
  | nil => exact ⟨fun v hv => absurd hv List.not_mem_nil, fun _ _ _ _ => rfl⟩
  | cons v vals ih =>
    obtain ⟨hnot, hnodup⟩ := List.nodup_cons.mp hnodup
    have hv := hlt v List.mem_cons_self
    have hput := vReg_putLane (x := v.2) hroom hv
    obtain ⟨hin, hout⟩ := ih (g := g.putLane (.v k) w v.1 v.2) (by rw [nregs_putLane]; exact hroom)
      (fun v hv => hlt v (List.mem_cons_of_mem _ hv)) hnodup
    refine ⟨fun v' hv' j hj => ?_, fun j l hl hno => ?_⟩
    · rcases List.mem_cons.mp hv' with rfl | hv'
      · refine (hout (k + j) v'.1 hv (Or.inr (Or.inr fun y hy h => hnot (List.mem_map.mpr ⟨y, hy, h⟩)))).trans ?_
        rw [hput _ _ hv, if_pos ⟨rfl, by omega, by omega⟩, Nat.add_sub_cancel_left]
      · exact hin v' hv' j hj
    · refine (hout j l hl (hno.imp_right fun h => h.imp_right fun h y hy => h y (List.mem_cons_of_mem _ hy))).trans ?_
      rw [hput _ _ hl, if_neg ?_]
      rintro ⟨rfl, h1, h2⟩
      rcases hno with h | h | h
      · omega
      · omega
      · exact h v List.mem_cons_self rfl

/-! ### The end of a tile operation -/

section
variable {s : State} {id n : Nat} {o : Op}

theorem mfind_ops_endOp (s : State) (id : Nat) : mfind (s.endOp id).ops id = none := by
  unfold State.endOp
  cases h : mfind s.ops id with
  | none => exact h
  | some o =>
    dsimp only
    have hgone : mfind (mdel s.ops id) id = none := (mfind_mdel ..).trans (if_pos rfl)
    split <;> exact hgone

theorem vReg_congr {g g' : Group} (h : g'.v = g.v) (j l : Nat) : vReg g' j l = vReg g j l := by rw [vReg, vReg, h]

/-- Reporting an operation leaves its group's registers. -/
theorem endOp_vregs {s : State} {id gid : Nat} {g : Group} (hg : s.grp? gid = some g) :
    ∃ g', (s.endOp id).grp? gid = some g' ∧ g'.v = g.v := by
  unfold State.endOp
  cases mfind s.ops id with
  | none => exact ⟨g, hg, rfl⟩
  | some o =>
    dsimp only
    split
    · exact ⟨g, hg, rfl⟩
    next k _ =>
      have hg' : ({ s with ops := mdel s.ops id } : State).grp? gid = some g := hg
      by_cases h : o.gid = gid
      · subst h
        exact ⟨_, State.grp?_updGrp_same hg' _, rfl⟩
      · exact ⟨g, (State.grp?_updGrp_other h _).trans hg', rfl⟩

theorem endOp_cores (s : State) (id : Nat) : (s.endOp id).cores = s.cores := by
  unfold State.endOp
  split
  · rfl
  · dsimp only
    split <;> rfl

theorem tile_endOp (s : State) (id c j : Nat) : (s.endOp id).tile c j = s.tile c j := by
  rw [State.tile, State.tile, State.core, State.core, endOp_cores]

end

/-- The quads that lanes read from a tile. -/
def quadsRead (s : State) (core n : Nat) (rs : List (Nat × Nat)) : List (Nat × Nat) :=
  rs.map (fun r => (r.1, leNat (mgets byteZero (s.tile core n).data r.2 16)))

/-- The state once the quads of a TRD have been delivered. -/
def trdDone (s : State) (o : Op) (n k : Nat) (rs : List (Nat × Nat)) : State :=
  (s.updGrp o.gid (fun g => g.putVals (.v k) 4 (quadsRead s o.core n rs))).updTile o.core n (fun x =>
    { x with stamps := { x.stamps with outEnd := some (s.coreTime o.core) } })

/-- Settles O41: the lane-side tile instructions share one shape, and their operations end byte by byte. -/
theorem tileStates : Obligations.TileStates := by
  refine ⟨fun h n a b d s x => ?_, fun h d n team s x core hgo hseq hlane => ?_, fun h d n team s x hgo hact hseq hcore => ?_,
    fun s id n o ho => ?_⟩
  · intro tl now free u does
    have hsame : ∀ f : Tile → Tile, TileChanged u (u.updTile x.g.core n f) x.g.core n (f tl) := fun f => tileChanged_updTile u x.g.core n f
    refine ⟨fun hgo => ?_, fun hgo => ?_, fun hgo => ?_, fun hgo => ?_, fun hgo => ?_, fun htrace hnoted hgo => ?_⟩
    · have hd := tileDoes (k := fun _ => .topen) (need := tl.st = .empty) hgo rfl (beq_iff_eq (a := tl.st)) (hsame fun x => { x with st := .filling, stamps := { fill := some now } })
      exact ⟨hd.idle, hd.foreign, hd.goes, hd.wrong, hd.waits⟩
    · have hd := tileDoes (k := fun x => .twr ((lanesOf x.act).map (fun l => (x.g.opnd a 1 l, x.g.opnd b 4 l)))) (need := tl.st = .filling) hgo rfl
        (beq_iff_eq (a := tl.st)) (tileChanged_refl u x.g.core n)
      exact ⟨hd.idle, hd.foreign, hd.goes, hd.wrong, hd.waits⟩
    · have hd := tileDoes (k := fun _ => .tseal) (need := tl.st = .filling) hgo rfl (beq_iff_eq (a := tl.st))
        (hsame fun x => { x with st := .ready, stamps := { x.stamps with fillEnd := some now } })
      exact ⟨hd.idle, hd.foreign, hd.goes, hd.wrong, hd.waits⟩
    · have hneed : s.tileReady x.g.core n .tdrain = true ↔ tl.st = .ready ∧ free := by
        unfold State.tileReady
        dsimp only
        rw [Bool.and_eq_true, beq_iff_eq, beq_iff_eq]
      have hd := tileDoes (k := fun _ => .tdrain) hgo rfl hneed (hsame fun x => { x with st := .draining })
      exact ⟨hd.idle, hd.foreign, hd.goes, hd.wrong, hd.waits⟩
    · have hd := tileDoes (k := fun x => .trd d ((lanesOf x.act).map (fun l => (l, x.g.opnd b 1 l)))) (need := tl.st = .draining) hgo rfl
        (beq_iff_eq (a := tl.st)) (tileChanged_refl u x.g.core n)
      exact ⟨hd.idle, hd.foreign, hd.goes, hd.wrong, hd.waits⟩
    · have hneed : s.tileReady x.g.core n .tfree = true ↔ (tl.st = .ready ∨ tl.st = .draining) ∧ free := by
        unfold State.tileReady
        dsimp only
        rw [Bool.and_eq_true, Bool.or_eq_true, beq_iff_eq, beq_iff_eq, beq_iff_eq]
      have hd := tileDoes (k := fun _ => .tfree) hgo rfl hneed (tileChanged_free (u := u) htrace hnoted)
      exact ⟨hd.idle, hd.foreign, hd.goes, hd.wrong, hd.waits⟩
  · intro tl st
    have hexec : exec (.tstat h d n team) s = .next (x.done s (fun g => g.writeD x d 1 false (fun _ => s.tileStatus core n))) := by
      rw [exec_tstat hgo]
      by_cases hs : x.g.isSeq = true
      · rw [if_pos hs]
        by_cases hact : x.act = 0
        · rw [if_pos hact]
          exact congrArg Host.Outcome.next (updGrp_congr (grp_of_issueOf hgo) (congrArg (fun g : Group => g.advance x.run) (writeD_idle hact x.g d 1 false _).symm))
        · rw [if_neg hact]
          simp only [hseq hs]
      · rw [if_neg hs, hlane (by simpa using hs)]
    have hvalue : s.tileStatus core n = min 15 (s.queuedOn core n) * 2 ^ 16 + (if tl.err then 32 else 0) + (if tl.sat then 16 else 0) +
        (if (s.core core).scale = some n then 8 else 0) + (if tl.team ≠ none then 4 else 0) + st := by
      have hcode : tl.st.code = st := by
        simp only [st]
        cases tl.st <;> rfl
      rw [tileStatus_eq]
      exact congrArg _ hcode
    rw [hexec]
    refine ⟨_, _, rfl, onlyGroup_done (grp_of_issueOf hgo) _, ?_⟩
    rw [← hvalue]
    exact effect_alu0 x d 1 false _ _
  · rw [exec_tstat hgo, if_pos hseq, if_neg hact]
    simp only [hcore]
  · intro byte
    refine ⟨fun ws hkind halign => ?_, fun g k rs hkind hg hroom hnodup hlt hbad herr => ?_, fun hkind => ?_⟩
    · have hexec : exec (.tileOperationComplete id) s =
          .next (((offsetsOf ws []).foldl (fun s off => s.landQuad o.core n off (wordsAt ws off)) s).endOp id) := by
        show execTileOperationComplete id s = _
        simp only [execTileOperationComplete, ho, hkind]
        rfl
      have hoffs : ∀ x, x ∈ offsetsOf ws [] ↔ ∃ w ∈ ws, w.1 = x := fun x => by
        rw [mem_offsetsOf]
        simp
      obtain ⟨hrest, hin, hout, hothers⟩ := landed_foldl (core := o.core) (n := n) halign (offsetsOf ws []) s fun x hx => (hoffs x).mp hx
      refine ⟨_, hexec, mfind_ops_endOp _ _, (endOp_mem ..).trans (congrArg State.mem hrest :), fun w hw j hj => ?_, fun j hj => ?_, fun c j hcj => ?_⟩
      · obtain ⟨v, hv, hvw, hbyte⟩ := hin w.1 ((hoffs _).mpr ⟨w, hw, rfl⟩) j hj
        exact ⟨v, hv, hvw, (congrArg (fun t : Tile => mget byteZero t.data (w.1 + j)) (tile_endOp ..)).trans hbyte⟩
      · refine (congrArg (fun t : Tile => mget byteZero t.data j) (tile_endOp ..)).trans (hout j fun x hx => ?_)
        obtain ⟨w, hw, rfl⟩ := (hoffs x).mp hx
        exact hj w hw
      · exact (tile_endOp ..).trans (hothers c j hcj)
    · have hany : rs.any (fun r => (s.tile o.core n).bad.any (fun b => r.2 ≤ b && b < r.2 + 16)) = false := by
        rw [hbad]
        exact List.any_eq_false.mpr fun _ _ => Bool.false_ne_true
      have hexec : exec (.tileOperationComplete id) s = .next ((trdDone s o n k rs).endOp id) := by
        show execTileOperationComplete id s = _
        simp only [execTileOperationComplete, ho, hkind, hany, herr, Bool.or_self, Bool.false_eq_true, if_false]
        rfl
      have hfst : (quadsRead s o.core n rs).map (·.1) = rs.map (·.1) := by rw [quadsRead, List.map_map]; rfl
      have hvals : ∀ v ∈ quadsRead s o.core n rs, ∃ r ∈ rs, v = (r.1, leNat (mgets byteZero (s.tile o.core n).data r.2 16)) := fun v hv => by
        obtain ⟨r, hr, rfl⟩ := List.mem_map.mp hv
        exact ⟨r, hr, rfl⟩
      obtain ⟨hin, hout⟩ := vReg_putVals (w := 4) (quadsRead s o.core n rs) hroom (fun v hv => by obtain ⟨r, hr, rfl⟩ := hvals v hv; exact hlt r hr) (hfst ▸ hnodup)
      have hgroup : (trdDone s o n k rs).grp? o.gid = some (g.putVals (.v k) 4 (quadsRead s o.core n rs)) := State.grp?_updGrp_same hg _
      obtain ⟨g', hend, hv⟩ := endOp_vregs (id := id) hgroup
      refine ⟨_, g', hexec, mfind_ops_endOp _ _, endOp_mem _ _, hend, fun r hr j hj => ?_, fun j l hl hno => ?_, fun j => ?_⟩
      · exact (vReg_congr hv _ _).trans (hin _ (List.mem_map.mpr ⟨r, hr, rfl⟩) j hj)
      · refine (vReg_congr hv j l).trans (hout j l hl (hno.imp_right fun h => h.imp_right fun h v hv => ?_))
        obtain ⟨r, hr, rfl⟩ := hvals v hv
        exact h r hr
      · have htile := (tile_endOp (trdDone s o n k rs) id o.core n).trans ((tile_updTile ..).trans (if_pos ⟨rfl, rfl⟩))
        exact (congrArg (fun t : Tile => mget byteZero t.data j) htile :)
    · show execTileOperationComplete id s = _
      unfold execTileOperationComplete
      rcases hkind with hk | hk | hk | ⟨hk, hnone⟩
      · simp only [ho, hk]
      · simp only [ho, hk]
      · simp only [ho, hk]
      · have hany : s.ops.any (fun e => e.1 < id && e.2.gid == o.gid && (match e.2.kind with | .tile t' (.twr _) => t' == n | _ => false)) = false := by
          rw [List.any_eq_false]
          intro e he hmine
          rw [Bool.and_eq_true, Bool.and_eq_true, decide_eq_true_eq, beq_iff_eq] at hmine
          obtain ⟨⟨hlt, hgid⟩, hwr⟩ := hmine
          split at hwr
          next t' ws hkind =>
            obtain rfl : t' = n := beq_iff_eq.mp hwr
            exact hnone e he hlt hgid ws hkind
          next => exact absurd hwr Bool.false_ne_true
        simp only [ho, hk]
        exact congrArg Host.Outcome.next (if_neg (fun h => Bool.false_ne_true (hany.symm.trans h)))

end Sys2Proof.Machine
end

/-! The proof of `Obligations.StepRunsDecoded`: what a step comes to is read off the schedule, one check of the attempt after another. -/

section
namespace Sys2Proof.Machine

/-- The issue in progress of the word at `pc` in a fetched block. -/
def curOf (gid : Nat) (run : Word) (pc : DWord) (block : List Byte) : Cur :=
  { gid := gid, run := run, pc := pc, word0 := BitVec.ofNat 32 (leNat ((block.drop (pc.toNat % 64)).take 12)), reissue := none }

/-- The attempt to issue passes its checks and comes to the instruction that the word decodes to. -/
theorem attemptOf_go {s s1 : State} {gid : Nat} {g : Group} {run : Word} {pc : DWord} {block : List Byte} {i : Instr}
    (hg : s.grp? gid = some g) (hmay : s.mayIssue g = true) (hrun : g.nextRun = some (run, pc, none)) (hbp : s.bpMatch g pc = none)
    (hfetch : s.fetchBlock g pc = (.ok block, s1)) (hlast : leNat ((block.drop 60).take 4) = 0)
    (hdec : decode g.isSeq (leNat ((block.drop (pc.toNat % 64)).take 12)) = .ok i) (hlock : s1.interlock gid g i run pc none = false) :
    s.attemptOf gid = .go i { s1 with cur := some (curOf gid run pc block) } := by
  simp [curOf, State.attemptOf, hg, hmay, hrun, hbp, hfetch, hlast, hdec, hlock, State.unpark]

theorem act_issue {s s2 : State} {gid : Nat} {g : Group} {i : Instr} (hg : s.grp? gid = some g) (hturn : s.turnOfOther gid g = false)
    (hgo : s.attemptOf gid = .go i s2) :
    s.act (.issue gid) = pairUp (s2.runIssue i (s2.cur.bind (fun c => s2.partner c i)).isSome) (s2.cur.bind (fun c => s2.partner c i)) := by
  simp [State.act, State.attempt, hg, hturn, hgo]

theorem runIssue_next {s t : State} {c : Cur} {i : Instr} (hcur : s.cur = some c) (ht : exec i s = .next t) (paired : Bool) :
    s.runIssue i paired = .next (t.issued c (match s.grp? c.gid with | some g => g.candidates | none => 0) (s.actOf c i)
      (match i.hdr with | some h => h.uni | none => false) paired) := by
  simp only [State.runIssue, hcur, ht] <;> rfl

theorem step_of_agenda {s : State} {a : Action} {rest : List Action} (h : s.agenda = a :: rest) :
    step s = tick (State.act { s with agenda := rest } a) := by
  simp [step, State.stepOut, h]

theorem pairUp_go {t v : State} {gid : Nat} {j : Instr} (h : t.attemptOf gid = .go j v) :
    pairUp (.next t) (some gid) = v.runIssue j true := by
  simp only [pairUp, h]

theorem pairUp_alone {t : State} {gid : Nat} (h : ∀ j v, t.attemptOf gid ≠ .go j v) : pairUp (.next t) (some gid) = .next t := by
  unfold pairUp
  dsimp only
  split
  next hgo => exact absurd hgo (h _ _)
  · rfl

/-- A fresh block is fetched from memory and kept in the instruction cache. -/
theorem fetchBlock_fresh {s : State} {g : Group} {pc : DWord} {key : Nat} {lk mg : Bool}
    (htr : Translates s g (BitVec.ofNat 64 (pc.toNat / 64 * 64)) .x key lk mg)
    (hmiss : ∀ e ∈ s.icache, ¬ (e.cluster = g.cluster ∧ e.ctx = g.ctx ∧ e.va = pc.toNat / 64 * 64)) :
    s.fetchBlock g pc = (.ok (mgets byteZero s.mem key 64), { s with
      icache := { cluster := g.cluster, ctx := g.ctx, va := pc.toNat / 64 * 64, key := key, bytes := mgets byteZero s.mem key 64 } ::
        s.icache.filter (fun e => !(e.cluster == g.cluster && e.ctx == g.ctx && e.va == pc.toNat / 64 * 64)) }) := by
  have hnone : s.icache.find? (fun e => e.cluster == g.cluster && e.ctx == g.ctx && e.va == pc.toNat / 64 * 64) = none := by
    rw [List.find?_eq_none]
    intro e he h
    simp only [Bool.and_eq_true, beq_iff_eq] at h
    exact hmiss e he ⟨h.1.1, h.1.2, h.2⟩
  simp only [State.fetchBlock, State.translate, lookupFresh_of_translates htr, hnone]

theorem settleK_idle {s : State} (h : s.meets = []) : s.settleK = s := by simp [State.settleK, h]

/-- Counting what a clock does to the groups changes nothing else. -/
theorem counted_rest (s : State) : { s.ageReady.countBlocked with groups := s.groups } = s := by
  simp only [State.countBlocked]
  split <;> rfl

theorem pass_untimed {s : State} (h : s.timed = []) (t c : Nat) :
    s.pass t c = { s with now := s.now + (t - s.hold), hold := s.hold - t, clk := s.clk + c } := by
  simp [State.pass, h]

theorem afterStep_idle {s : State} (ht : s.timed = []) (hm : s.meets = []) :
    s.afterStep.now = s.now + (1 - s.hold) ∧ s.afterStep.mem = s.mem := by
  have hrest := counted_rest s
  have htimed : s.ageReady.countBlocked.timed = [] := (congrArg State.timed hrest :).trans ht
  simp only [State.afterStep, settleK_idle hm]
  rw [pass_untimed htimed]
  have hnow : s.ageReady.countBlocked.now = s.now := (congrArg State.now hrest :)
  have hhold : s.ageReady.countBlocked.hold = s.hold := (congrArg State.hold hrest :)
  exact ⟨by rw [hnow, hhold], (congrArg State.mem hrest :)⟩

/-- Settles O55. -/
theorem stepRunsDecoded : Obligations.StepRunsDecoded := by
  refine ⟨?_, ?_, ?_, fun s => afterStep_idle⟩
  · intro s s1 gid rest g run pc block i s0 word c s2 cands uni hag hg hturn hmay hrun hbp hfetch hlast hdec hlock t ht
    have hstep : step s = tick (pairUp (s2.runIssue i (s2.partner c i).isSome) (s2.partner c i)) := by
      rw [step_of_agenda hag]
      exact congrArg tick (act_issue (s := s0) hg hturn (attemptOf_go hg hmay hrun hbp hfetch hlast hdec hlock))
    have hissue := runIssue_next (s := s2) (c := c) rfl ht
    refine ⟨fun hnone => ?_, fun gid2 hsome => ⟨fun j v hgo w hw => ?_, fun hno => ?_⟩⟩
    · rw [hstep, hnone, hissue]
      rfl
    · rw [hstep, hsome, hissue]
      exact congrArg tick ((pairUp_go hgo).trans hw)
    · rw [hstep, hsome, hissue]
      exact congrArg tick (pairUp_alone hno)
  · intro s g pc key lk mg va htr hmiss
    exact ⟨_, fetchBlock_fresh htr hmiss, rfl⟩
  · intro s e rest he hag t ht
    rw [step_of_agenda hag]
    simp only [State.act, he, Option.isSome_none, Bool.false_eq_true, if_false]
    rw [ht]
    rfl

end Sys2Proof.Machine
end

/-! The proof of `Obligations.StepsAnswer`: every instruction is an event or a lane instruction, every meaning of an event answers, and
each list of the steps that may come next holds events and issues only. -/

section
namespace Sys2Proof.Machine

/-- Whatever the machine's state, `f` answers a next one. -/
def Answers (f : State → Out) : Prop := ∀ s, ∃ t, f s = .next t

theorem answers_next (f : State → State) : Answers (fun s => .next (f s)) := fun s => ⟨f s, rfl⟩

/-- A lane instruction is its effect on the issue in progress. -/
theorem exec_lane {i : Instr} (h : i.hdr ≠ none) (s : State) : ∃ helpers eff, exec i s = laneInstr i helpers s eff := by
  cases i
  all_goals try exact absurd rfl h
  all_goals
    apply Exists.intro
    apply Exists.intro
    rfl

theorem answers_exec {i : Instr} (h : i.hdr = none) : Answers (exec i) := by
  intro s
  cases i
  all_goals try contradiction
  all_goals exact ⟨_, rfl⟩

theorem issueOf_idle {s : State} (i : Instr) (helpers : Bool) (h : s.cur = none) : s.issueOf i helpers = .noIssuer := by
  simp [State.issueOf, h]

theorem issueOf_issuing {s : State} {c : Cur} {g : Group} (i : Instr) (helpers : Bool) (hc : s.cur = some c) (hg : s.grp? c.gid = some g) :
    s.issueOf i helpers ≠ .noIssuer := by
  simp only [State.issueOf, hc, hg]
  split
  · exact IssueRes.noConfusion
  · intro h
    split_ifs at h

theorem laneInstr_answers {s : State} {i : Instr} {helpers : Bool} (eff : Issue → State → State) (h : s.issueOf i helpers ≠ .noIssuer) :
    ∃ t, laneInstr i helpers s eff = .next t := by
  unfold laneInstr
  split
  · contradiction
  · exact ⟨_, rfl⟩
  · exact ⟨_, rfl⟩

theorem exec_issuing {s : State} {c : Cur} {g : Group} (i : Instr) (hc : s.cur = some c) (hg : s.grp? c.gid = some g) :
    ∃ t, exec i s = .next t := by
  by_cases h : i.hdr = none
  · exact answers_exec h s
  · obtain ⟨helpers, eff, he⟩ := exec_lane h s
    rw [he]
    exact laneInstr_answers eff (issueOf_issuing i helpers hc hg)

/-! ### The steps that may come next -/

/-- Every step of a list answers. -/
def AllAnswer (fs : List (State → Out)) : Prop := ∀ f ∈ fs, Answers f

theorem allAnswer_nil : AllAnswer [] := fun _ h => absurd h List.not_mem_nil

theorem allAnswer_cons {f : State → Out} {fs : List (State → Out)} (h : Answers f) (hs : AllAnswer fs) : AllAnswer (f :: fs) :=
  List.forall_mem_cons.mpr ⟨h, hs⟩

theorem allAnswer_append {fs gs : List (State → Out)} (hf : AllAnswer fs) (hg : AllAnswer gs) : AllAnswer (fs ++ gs) :=
  List.forall_mem_append.mpr ⟨hf, hg⟩

theorem allAnswer_map {α : Type} {f : α → State → Out} (l : List α) (h : ∀ a, Answers (f a)) : AllAnswer (l.map f) :=
  List.forall_mem_map.mpr fun a _ => h a

theorem allAnswer_flatMap {α : Type} {f : α → List (State → Out)} (l : List α) (h : ∀ a, AllAnswer (f a)) : AllAnswer (l.flatMap f) :=
  fun g hg => let ⟨a, _, ha⟩ := List.mem_flatMap.mp hg; h a g ha

theorem allAnswer_ite {p : Prop} [Decidable p] {fs gs : List (State → Out)} (hf : AllAnswer fs) (hg : AllAnswer gs) :
    AllAnswer (if p then fs else gs) := by
  split
  · exact hf
  · exact hg

theorem allAnswer_one {f : State → Out} (h : Answers f) : AllAnswer [f] := allAnswer_cons h allAnswer_nil

theorem allAnswer_two {f g : State → Out} (hf : Answers f) (hg : Answers g) : AllAnswer [f, g] := allAnswer_cons hf (allAnswer_one hg)

theorem opSteps_answer (e : Nat × Op) : AllAnswer (opSteps e) := by
  unfold opSteps
  split
  case h_1 =>
    exact allAnswer_append (allAnswer_map _ fun _ _ => ⟨_, rfl⟩) (allAnswer_two (fun _ => ⟨_, rfl⟩) (fun _ => ⟨_, rfl⟩))
  case h_3 =>
    exact allAnswer_cons (fun _ => ⟨_, rfl⟩) (allAnswer_two (fun _ => ⟨_, rfl⟩) (fun _ => ⟨_, rfl⟩))
  case h_9 => exact allAnswer_nil
  case h_10 => exact allAnswer_nil
  all_goals exact allAnswer_one fun _ => ⟨_, rfl⟩

theorem blockSteps_answer (e : Nat × Group) : AllAnswer (blockSteps e) := by
  unfold blockSteps
  split
  case h_1 | h_2 | h_3 => exact allAnswer_nil
  case h_4 => exact allAnswer_ite (allAnswer_one fun _ => ⟨_, rfl⟩) allAnswer_nil
  case h_7 | h_15 | h_16 | h_17 | h_18 | h_19 | h_20 => exact allAnswer_two (fun _ => ⟨_, rfl⟩) (fun _ => ⟨_, rfl⟩)
  all_goals exact allAnswer_one fun _ => ⟨_, rfl⟩

theorem groupSteps_answer (e : Nat × Group) : AllAnswer (groupSteps e) := by
  unfold groupSteps
  refine allAnswer_append (allAnswer_append (allAnswer_append (allAnswer_append (allAnswer_append (allAnswer_append (allAnswer_append
    (allAnswer_append (blockSteps_answer e) ?_) ?_) ?_) ?_) (allAnswer_map _ fun _ _ => ⟨_, rfl⟩)) ?_) ?_) ?_
  case refine_2 => exact allAnswer_ite allAnswer_nil (allAnswer_two (fun _ => ⟨_, rfl⟩) (fun _ => ⟨_, rfl⟩))
  case refine_3 => exact allAnswer_ite (allAnswer_one fun _ => ⟨_, rfl⟩) allAnswer_nil
  case refine_5 => exact allAnswer_ite (allAnswer_one fun _ => ⟨_, rfl⟩) allAnswer_nil
  all_goals exact allAnswer_ite allAnswer_nil (allAnswer_one fun _ => ⟨_, rfl⟩)

theorem swapSteps_answer (s : State) : AllAnswer s.swapSteps :=
  allAnswer_flatMap _ fun _ => allAnswer_map _ fun _ _ => ⟨_, rfl⟩

theorem coreSteps_answer (e : Nat × CoreSt) : AllAnswer (coreSteps e) := by
  unfold coreSteps
  refine allAnswer_append (allAnswer_append (allAnswer_append ?_ (allAnswer_flatMap _ fun c => ?_)) ?_) ?_
  · exact allAnswer_ite allAnswer_nil (allAnswer_one fun _ => ⟨_, rfl⟩)
  · exact allAnswer_ite allAnswer_nil (allAnswer_two (fun _ => ⟨_, rfl⟩) (fun _ => ⟨_, rfl⟩))
  · exact allAnswer_ite (allAnswer_one fun _ => ⟨_, rfl⟩) allAnswer_nil
  · exact allAnswer_ite (allAnswer_one fun _ => ⟨_, rfl⟩) allAnswer_nil

theorem homeSteps_answer (s : State) : AllAnswer s.homeSteps := by
  unfold State.homeSteps
  refine allAnswer_append (allAnswer_append (allAnswer_append (allAnswer_append (allAnswer_append (allAnswer_append
    (allAnswer_flatMap _ fun c => ?_) (allAnswer_map _ fun _ _ => ⟨_, rfl⟩)) (allAnswer_map _ fun _ _ => ⟨_, rfl⟩))
    (allAnswer_flatMap _ fun e => allAnswer_flatMap _ fun a => ?_)) (allAnswer_flatMap _ fun g => ?_)) (allAnswer_flatMap _ fun x => ?_))
    (allAnswer_map _ fun _ _ => ⟨_, rfl⟩)
  · exact allAnswer_append (allAnswer_append (allAnswer_ite (allAnswer_one fun _ => ⟨_, rfl⟩) allAnswer_nil)
      (allAnswer_ite allAnswer_nil (allAnswer_one fun _ => ⟨_, rfl⟩))) (allAnswer_ite allAnswer_nil (allAnswer_one fun _ => ⟨_, rfl⟩))
  · split
    · exact allAnswer_one fun _ => ⟨_, rfl⟩
    · exact allAnswer_nil
  · exact allAnswer_append (allAnswer_ite (allAnswer_one fun _ => ⟨_, rfl⟩) allAnswer_nil)
      (allAnswer_ite (allAnswer_one fun _ => ⟨_, rfl⟩) allAnswer_nil)
  · exact allAnswer_append (allAnswer_ite allAnswer_nil (allAnswer_one fun _ => ⟨_, rfl⟩)) (allAnswer_map _ fun _ _ => ⟨_, rfl⟩)

theorem linkSteps_answer (s : State) : AllAnswer s.linkSteps :=
  allAnswer_append (allAnswer_ite allAnswer_nil (allAnswer_one fun _ => ⟨_, rfl⟩)) (allAnswer_map _ fun _ _ => ⟨_, rfl⟩)

theorem portSteps_answer (p : Nat) : AllAnswer (portSteps p) := by
  intro f hf
  simp only [portSteps, List.mem_cons, List.not_mem_nil, or_false] at hf
  rcases hf with rfl | rfl | rfl | rfl | rfl | rfl | rfl | rfl | rfl | rfl | rfl | rfl | rfl
  all_goals exact fun _ => ⟨_, rfl⟩

theorem scheduled_answers (tag : Nat × Nat) {f : State → Out} (h : Answers f) : Answers (scheduled tag f) := by
  intro s
  unfold scheduled
  split
  · exact h s
  · exact ⟨s, rfl⟩

theorem launchSteps_answer (s : State) : AllAnswer s.launchSteps := by
  unfold State.launchSteps
  refine allAnswer_append (allAnswer_append (allAnswer_append (allAnswer_append (allAnswer_append (allAnswer_flatMap _ fun e => ?_)
    (allAnswer_map _ fun _ _ => ⟨_, rfl⟩)) (allAnswer_map _ fun _ _ => ⟨_, rfl⟩)) (allAnswer_map _ fun _ _ => ⟨_, rfl⟩))
    (allAnswer_map _ fun _ _ => ⟨_, rfl⟩)) (allAnswer_ite (allAnswer_one fun _ => ⟨_, rfl⟩) allAnswer_nil)
  split
  · exact allAnswer_one (scheduled_answers _ fun _ => ⟨_, rfl⟩)
  · exact allAnswer_cons (scheduled_answers _ fun _ => ⟨_, rfl⟩)
      (allAnswer_two (scheduled_answers _ fun _ => ⟨_, rfl⟩) (fun _ => ⟨_, rfl⟩))

/-! ### Issues -/

theorem lookupFresh_groups (s : State) (die ctx : Nat) (va : DWord) (need : Need) : (s.lookupFresh die ctx va need).2.groups = s.groups := by
  unfold State.lookupFresh
  split
  · dsimp only
    split_ifs <;> rfl
  · rfl

theorem install_groups (s : State) (die ctx : Nat) (l : Leaf) : (s.install die ctx l).groups = s.groups := by
  simp only [State.install, State.writeMem]
  split_ifs <;> rfl

theorem translate_groups (s : State) (die ctx : Nat) (va : DWord) (need : Need) : (s.translate die ctx va need).2.groups = s.groups := by
  have h := lookupFresh_groups s die ctx va need
  unfold State.translate
  split
  next he => rwa [he] at h
  next he => rwa [he] at h
  next he => rwa [he] at h
  next he =>
    rw [he] at h
    split
    · exact h
    · exact h
    · exact h
    · exact (install_groups _ _ _ _).trans h

theorem fetchBlock_groups (s : State) (g : Group) (pc : DWord) : (s.fetchBlock g pc).2.groups = s.groups := by
  have h := translate_groups s (dieOf g.cluster) g.ctx (BitVec.ofNat 64 (pc.toNat / 64 * 64)) .x
  unfold State.fetchBlock
  dsimp only
  split
  next he =>
    rw [he] at h
    split
    · split_ifs <;> exact h
    · exact h
  next he => rwa [he] at h

theorem grp?_unpark (s : State) (gid : Nat) (run : Word) (re : Option Nat) (k : Nat) :
    ((s.unpark gid run re).grp? k).isSome = (s.grp? k).isSome := by
  cases re
  · rfl
  · by_cases h : k = gid
    · subst h
      rw [State.unpark, State.grp?_updGrp, if_pos rfl, Option.isSome_map]
    · rw [State.unpark, State.grp?_updGrp_other (Ne.symm h)]

/-- An attempt that issues leaves a group that is issuing. -/
theorem attemptOf_issuing {s t : State} {gid : Nat} {i : Instr} (h : s.attemptOf gid = .go i t) :
    ∃ c g, t.cur = some c ∧ t.grp? c.gid = some g := by
  unfold State.attemptOf at h
  split at h
  · cases h
  next g hg =>
    dsimp only at h
    split at h
    · cases h
    split at h
    · cases h
    next run pc re _ =>
      split at h
      · cases h
      split at h
      · cases h
      next block u hu =>
        split at h
        · cases h
        split at h
        · cases h
        split at h
        · cases h
        cases h
        have hgrp : u.groups = s.groups := by
          have := fetchBlock_groups s g pc
          rwa [hu] at this
        have hsome : ((u.unpark gid run re).grp? gid).isSome = true := by
          rw [grp?_unpark, State.grp?, hgrp]
          exact Option.isSome_of_mem hg
        obtain ⟨g', hg'⟩ := Option.isSome_iff_exists.mp hsome
        exact ⟨_, g', rfl, hg'⟩

theorem runIssue_answers {s : State} {c : Cur} {g : Group} (i : Instr) (paired : Bool) (hc : s.cur = some c) (hg : s.grp? c.gid = some g) :
    ∃ t, s.runIssue i paired = .next t := by
  obtain ⟨t, ht⟩ := exec_issuing i hc hg
  simp only [State.runIssue, hc, ht]
  exact ⟨_, rfl⟩

theorem pairUp_answers (t : State) (other : Option Nat) : ∃ u, pairUp (.next t) other = .next u := by
  cases other
  case none => exact ⟨t, rfl⟩
  case some gid =>
    simp only [pairUp]
    split
    next h =>
      obtain ⟨c, g, hc, hg⟩ := attemptOf_issuing h
      exact runIssue_answers _ _ hc hg
    · exact ⟨t, rfl⟩

theorem attempt_issuing {s t : State} {gid : Nat} {i : Instr} (h : s.attempt gid = .go i t) : ∃ c g, t.cur = some c ∧ t.grp? c.gid = some g := by
  unfold State.attempt at h
  split at h
  · cases h
  split at h
  · cases h
  exact attemptOf_issuing h

theorem act_answers (a : Action) : Answers fun s => s.act a := by
  intro s
  cases a
  case event i =>
    simp only [State.act]
    split
    · exact ⟨s, rfl⟩
    next h => exact answers_exec (Option.isNone_iff_eq_none.mp (by simpa using h)) s
  case issue gid =>
    simp only [State.act]
    split
    · exact ⟨s, rfl⟩
    · exact ⟨_, rfl⟩
    next i t h =>
      obtain ⟨c, g, hc, hg⟩ := attempt_issuing h
      obtain ⟨u, hu⟩ := runIssue_answers i (t.cur.bind fun c => t.partner c i).isSome hc hg
      rw [hu]
      exact pairUp_answers u _
  all_goals exact ⟨_, rfl⟩

/-! ### A step -/

theorem pending_answer (s : State) : AllAnswer s.pending :=
  allAnswer_append (allAnswer_append (allAnswer_append (allAnswer_append (allAnswer_append (allAnswer_append (allAnswer_append
    (allAnswer_append (allAnswer_flatMap _ opSteps_answer) (allAnswer_flatMap _ groupSteps_answer)) (allAnswer_flatMap _ coreSteps_answer))
    (homeSteps_answer s)) (linkSteps_answer s)) (allAnswer_flatMap _ fun p => portSteps_answer p.1)) (launchSteps_answer s))
    (allAnswer_map _ fun gid => act_answers (.issue gid))) (swapSteps_answer s)

theorem firstOf_answers (s : State) {fs : List (State → Out)} (h : AllAnswer fs) : ∃ t, s.firstOf fs = .next t := by
  induction fs with
  | nil => exact ⟨s, rfl⟩
  | cons f fs ih =>
    obtain ⟨hf, hfs⟩ := List.forall_mem_cons.mp h
    obtain ⟨t, ht⟩ := hf s
    simp only [State.firstOf, ht]
    split
    · exact ih hfs
    · exact ⟨t, rfl⟩

theorem step_answers (s : State) : ∃ t, step s = .next t := by
  simp only [step, State.stepOut]
  split
  next a rest _ =>
    obtain ⟨t, ht⟩ : ∃ t, State.act { s with agenda := rest } a = .next t := act_answers a _
    rw [ht]
    exact ⟨_, rfl⟩
  · obtain ⟨t, ht⟩ := firstOf_answers s (pending_answer s)
    rw [ht]
    exact ⟨_, rfl⟩

/-- Settles O56: events answer by their form, lane instructions wherever a group is issuing, and a step is one of the two. -/
theorem stepsAnswer : Obligations.StepsAnswer := by
  refine ⟨fun i s h => answers_exec h s, fun i s h hcur => ?_, fun i s c g => exec_issuing i, step_answers⟩
  obtain ⟨helpers, eff, he⟩ := exec_lane h s
  rw [he, laneInstr, issueOf_idle i helpers hcur]

end Sys2Proof.Machine
end

/-! The refutation of `Obligations.Preemption` (R45, R46). -/

section
namespace Sys2Proof.Machine

/-- A group of context 1 that has stopped. -/
def stoppedGroup : Group := { ctx0 := 1, ctx := 1 }

/-- Context 1 is being pre-empted, and two groups of it are listed under number 5. -/
def stoppedTwice : State := { ctxs := [(1, { stopping := true })], groups := [(5, stoppedGroup), (5, stoppedGroup)] }

theorem saveRecord_length_pos (s : State) (g : Group) : 0 < (s.saveRecord g).length := by
  simp [State.saveRecord, List.length_append]

theorem raisePoison_of_clean {s : State} {gid : Nat} {g : Group} (hg : s.grp? gid = some g) (hp : g.firstPoison = none) (n : Nat) :
    s.raisePoison gid n = s := by
  cases n
  · rfl
  · simp only [State.raisePoison, hg, hp]

/-- Where the record of group `k` has been saved. -/
def State.savedAt (s : State) (k : Nat) : Option Nat := (s.grp? k).map (fun g => g.saved)

theorem savedAt_updGrp_keeps {f : Group → Group} (hf : ∀ g, (f g).saved = g.saved) (s : State) (j k : Nat) :
    (s.updGrp j f).savedAt k = s.savedAt k := by
  simp only [State.savedAt, State.grp?_updGrp]
  split
  · simp [Function.comp_def, hf]
  · rfl

theorem savedAt_congr {s t : State} (h : t.groups = s.groups) (k : Nat) : t.savedAt k = s.savedAt k := by
  simp only [State.savedAt, State.grp?, h]

theorem savedAt_switched (s : State) (ctxs : Map Ctx) (k : Nat) : State.savedAt { s with ctxs := ctxs } k = s.savedAt k := rfl

theorem savedAt_endOp (s : State) (id k : Nat) : (s.endOp id).savedAt k = s.savedAt k := by
  unfold State.endOp
  split
  · rfl
  · dsimp only
    split
    · rfl
    · exact savedAt_updGrp_keeps (fun g => Group.finish_saved g _ _) _ _ _

theorem savedAt_stowGroup (s : State) (j k : Nat) : (s.stowGroup j).savedAt k = s.savedAt k := by
  unfold State.stowGroup
  split
  · rfl
  · refine (savedAt_updGrp_keeps ?_ _ _ _).trans ?_
    · exact fun _ => rfl
    · split
      · exact savedAt_endOp _ _ _
      · rfl

theorem savedAt_promote (s : State) (core p k : Nat) : (s.promote core p).savedAt k = s.savedAt k := by
  unfold State.promote
  dsimp only
  split
  · rfl
  split
  · refine savedAt_updGrp_keeps ?_ _ _ _
    exact fun _ => rfl
  · rfl

/-- The second record is written behind the first one. -/
theorem writeGroups_twice (a : Nat) (g : Group) :
    (stoppedTwice.writeGroups 1 a [(5, stoppedGroup), (5, g)]).2.savedAt 5 = some (a + (stoppedTwice.saveRecord stoppedGroup).length) := rfl

/-- What is left of context 1 once its records have been sent and its groups' waits taken back. -/
def stowedTwice : State :=
  ((stoppedTwice.writeGroups 1 0 [(5, stoppedGroup), (5, stoppedGroup)]).2.stowGroup 5).stowGroup 5

theorem savedAt_stowedTwice : stowedTwice.savedAt 5 = some (stoppedTwice.saveRecord stoppedGroup).length :=
  (savedAt_stowGroup _ _ _).trans ((savedAt_stowGroup _ _ _).trans
    ((writeGroups_twice 0 stoppedGroup).trans (congrArg some (Nat.zero_add _))))

theorem endOp_gangs (s : State) (id : Nat) : (s.endOp id).gangs = s.gangs := by
  unfold State.endOp
  split
  · rfl
  · dsimp only
    split <;> rfl

theorem stowGroup_gangs (s : State) (j : Nat) : (s.stowGroup j).gangs = s.gangs := by
  unfold State.stowGroup
  split
  · rfl
  · dsimp only [State.updGrp]
    split
    · exact endOp_gangs _ _
    · rfl

theorem stowedTwice_gangs : stowedTwice.gangs = [] := (stowGroup_gangs _ _).trans (stowGroup_gangs _ _)

theorem savedAt_stowTiles_of_noGangs {s : State} (h : s.gangs = []) (ctx k : Nat) : (s.stowTiles ctx).savedAt k = s.savedAt k := by
  simp [State.stowTiles, h]

theorem exec_preemptSave_twice : ∃ t, exec (.preemptSave 1) stoppedTwice = .next t ∧
    t.savedAt 5 = some (stoppedTwice.saveRecord stoppedGroup).length := by
  have hclean : ∀ n, stoppedTwice.raisePoison 5 n = stoppedTwice := raisePoison_of_clean rfl rfl
  have hgroups : stoppedTwice.groupsFor 1 = [(5, stoppedGroup), (5, stoppedGroup)] := rfl
  have hguard : (!(mget ({} : Ctx) stoppedTwice.ctxs 1).stopping || (mget ({} : Ctx) stoppedTwice.ctxs 1).out ||
    (mget ({} : Ctx) stoppedTwice.ctxs 1).killing || !([(5, stoppedGroup), (5, stoppedGroup)].all stoppedTwice.saveReady) ||
    stoppedTwice.gangs.any (fun k => k.2.ctx == 1 && k.2.teams.any (fun t => t.copying))) = false := by decide
  have hruns : [(5, stoppedGroup), (5, stoppedGroup)].any (fun e => e.2.unwinding) = false := rfl
  have hlane : stoppedGroup.isSeq = false := rfl
  have hbase : (mget ({} : Ctx) stoppedTwice.ctxs 1).saveBase = 0 := rfl
  have hlanes : [(5, stoppedGroup), (5, stoppedGroup)].filter (fun e => !e.2.isSeq) = [(5, stoppedGroup), (5, stoppedGroup)] := rfl
  have hgangs : (stoppedTwice.writeGroups 1 0 [(5, stoppedGroup), (5, stoppedGroup)]).2.gangs = [] := rfl
  simp only [exec, execPreemptSave, hgroups, hguard, hruns, hlane, hbase, hlanes, hgangs, List.filter_nil, State.writeGangs, List.foldl_cons, List.foldl_nil, hclean, Bool.false_eq_true, if_false]
  refine ⟨_, rfl, ?_⟩
  rw [savedAt_promote, savedAt_promote]
  rw [savedAt_switched, ← stowedTwice]
  rw [savedAt_stowTiles_of_noGangs stowedTwice_gangs, savedAt_stowedTwice]

/-- Refutes O50: the statement does not ask that the machine's groups be listed under different numbers. Where two groups of a context share
one, the record that stands for both is the second, which does not lie at SAVE_BASE. -/
theorem not_preemption : ¬ Obligations.Preemption := by
  unfold Obligations.Preemption
  rintro ⟨saves, -⟩
  obtain ⟨-, written⟩ := saves stoppedTwice 1 { stopping := true } rfl rfl rfl rfl (by decide)
  obtain ⟨t, c', ht, -, -, -, -, first⟩ := written (by decide)
  obtain ⟨hsaved, -⟩ := first 5 stoppedGroup [(5, stoppedGroup)] rfl rfl
  obtain ⟨u, hu, hlen⟩ := exec_preemptSave_twice
  cases hu.symm.trans ht
  have h0 : some 0 = some (stoppedTwice.saveRecord stoppedGroup).length := hsaved.symm.trans hlen
  exact absurd (Option.some.inj h0) (saveRecord_length_pos _ _).ne

end Sys2Proof.Machine
end

/-! The proof of `Obligations.GroupSets` (R36, R38–R40, R42, R180). -/

section
namespace Sys2Proof.Machine

/-! ### The best of a list -/

/-- A fold that keeps the better of two ends with one of its list that none is better than. -/
theorem foldl_best {α β : Type} {f : α → β} {better : β → β → Prop} {step : Option β → α → Option β} (hnone : ∀ e, step none e = some (f e))
    (hkeep : ∀ b e, ¬ better (f e) b → step (some b) e = some b) (htake : ∀ b e, better (f e) b → step (some b) e = some (f e))
    (hirr : ∀ b, ¬ better b b) (htrans : ∀ a b c, better b c → ¬ better a c → ¬ better a b) {l : List α} (hl : l ≠ []) :
    ∃ e ∈ l, l.foldl step none = some (f e) ∧ ∀ k ∈ l, ¬ better (f k) (f e) := by
  induction l using List.reverseRecOn with
  | nil => exact absurd rfl hl
  | append_singleton l x ih =>
    rw [List.foldl_append, List.foldl_cons, List.foldl_nil]
    by_cases hnil : l = []
    · subst hnil
      exact ⟨x, by simp, hnone x, by simp [hirr]⟩
    obtain ⟨e, he, hfold, hbest⟩ := ih hnil
    rw [hfold]
    by_cases hx : better (f x) (f e)
    · refine ⟨x, by simp, htake _ _ hx, ?_⟩
      simp only [List.mem_append, List.mem_singleton]
      rintro k (hk | rfl)
      · exact htrans _ _ _ hx (hbest k hk)
      · exact hirr _
    · refine ⟨e, by simp [he], hkeep _ _ hx, ?_⟩
      simp only [List.mem_append, List.mem_singleton]
      rintro k (hk | rfl)
      · exact hbest k hk
      · exact hx

/-! ### Active and pending groups (R38–R40) -/

/-- The active groups of a pending group's partition. -/
def State.rivals (s : State) (b : Group) : List (Nat × Group) := s.groups.filter (fun e => samePart e.2 b && s.resident e.2 && e.2.active)

theorem coreGroups_rivals (s : State) (b : Group) : (s.coreGroups b.core).filter (fun e => samePart e.2 b && e.2.active) = s.rivals b := by
  rw [State.coreGroups, List.filter_filter, State.rivals]
  apply List.filter_congr
  intro e _
  simp only [samePart]
  cases e.2.core == b.core <;> cases e.2.isSeq <;> simp [Bool.and_comm, Bool.and_assoc]

/-- The group that has been active for longest, and since when, as a fold meets the groups one after another. -/
def oldestStep (m : Option (Nat × Nat)) (e : Nat × Group) : Option (Nat × Nat) :=
  match m with
  | some o => if e.2.activeAt < o.2 then some (e.1, e.2.activeAt) else m
  | none => some (e.1, e.2.activeAt)

/-- A pending group joins the active set, in the place of the group found. -/
def State.displaceBy (s : State) (gid : Nat) : Option (Nat × Nat) → State
  | some (j, _) => s.swapGroups j gid
  | none => s.updGrp gid (fun g => { g with active := true, activeAt := s.clk })

theorem exec_pendingDisplace {s : State} {gid : Nat} {b : Group} (hg : s.grp? gid = some b) (ha : b.active = false) (hs : b.isSeq = false)
    (hr : s.resident b = true) (hclk : b.readyAt + 4096 ≤ s.clk) (hready : s.isReady gid b = true) :
    exec (.pendingDisplace gid) s = .next (s.displaceBy gid ((s.rivals b).foldl oldestStep none)) := by
  simp only [exec, execPendingDisplace, hg, ha, hs, hr, hready, coreGroups_rivals]
  rw [if_neg (by simp [hclk])]
  rfl

theorem foldl_oldestStep {l : List (Nat × Group)} {j : Nat} {e : Group} (he : (j, e) ∈ l)
    (hold : ∀ p ∈ l, p ≠ (j, e) → e.activeAt < p.2.activeAt) : l.foldl oldestStep none = some (j, e.activeAt) := by
  obtain ⟨p, hp, hfold, hbest⟩ := foldl_best (f := fun e : Nat × Group => (e.1, e.2.activeAt)) (better := fun p q : Nat × Nat => p.2 < q.2)
    (step := oldestStep) (fun _ => rfl) (fun b e h => if_neg h) (fun b e h => if_pos h) (fun b => Nat.lt_irrefl _)
    (fun a b c h1 h2 h3 => h2 (Nat.lt_trans h3 h1)) (List.ne_nil_of_mem he)
  have hpe : p = (j, e) := by
    by_contra hne
    exact hbest _ he (hold p hp hne)
  rw [hfold, hpe]

theorem exec_pendingDisplace_early {s : State} {gid : Nat} {b : Group} (hg : s.grp? gid = some b)
    (h : s.clk < b.readyAt + 4096 ∨ s.isReady gid b = false) : exec (.pendingDisplace gid) s = .next s := by
  simp only [exec, execPendingDisplace, hg]
  rw [if_pos]
  rcases h with h | h <;> simp [h]

theorem exec_groupSwap {s : State} {i j : Nat} {a b : Group} (ha : s.grp? i = some a) (hb : s.grp? j = some b)
    (h : (samePart a b && s.resident a && s.resident b && a.active && !b.active && !(s.isReady i a) && s.isReady j b) = true) :
    exec (.groupSwap i j) s = .next (s.swapGroups i j) := by
  simp only [exec, execGroupSwap, ha, hb, h, if_true]

/-! ### The starvation guard (R42) -/

theorem starved_iff (g : Group) {l : Nat} (hl : l < 32) :
    g.starved.getLsbD l = true ↔ g.candidates.getLsbD l = true ∧ (g.lane l).wait ≥ 224 := by
  rw [Group.starved, BitVec.getLsbD_and, mem_lanesWhere _ _ _ hl, Bool.and_eq_true, decide_eq_true_iff]

theorem longestWait_of_none {g : Group} (h : g.starved = 0) : g.longestWait = none := by
  rw [Group.longestWait, h]
  rfl

/-- One waiting run goes before another: it has waited longer, or as long at a lower PC. -/
def waitsLonger (a b : Nat × DWord) : Prop := a.1 > b.1 ∨ (a.1 = b.1 ∧ a.2.toNat < b.2.toNat)

/-- The run that has waited longest, as a fold meets the lanes one after another. -/
def Group.waitStep (g : Group) (m : Option (Nat × DWord)) (l : Nat) : Option (Nat × DWord) :=
  match m with
  | none => some ((g.lane l).wait, (g.lane l).pc)
  | some b =>
    if (g.lane l).wait > b.1 ∨ ((g.lane l).wait = b.1 ∧ (g.lane l).pc.toNat < b.2.toNat) then some ((g.lane l).wait, (g.lane l).pc) else m

theorem longestWait_eq (g : Group) : g.longestWait = ((lanesOf g.starved).foldl g.waitStep none).map (·.2) := rfl

theorem longestWait_of_longest {g : Group} {l : Nat} (hl : g.starved.getLsbD l = true)
    (h : ∀ k, g.starved.getLsbD k = true → (g.lane k).wait < (g.lane l).wait ∨
      ((g.lane k).wait = (g.lane l).wait ∧ (g.lane l).pc.toNat ≤ (g.lane k).pc.toNat)) : g.longestWait = some (g.lane l).pc := by
  obtain ⟨j, hj, hfold, hbest⟩ := foldl_best (f := fun l => ((g.lane l).wait, (g.lane l).pc)) (better := waitsLonger) (step := g.waitStep)
    (fun _ => rfl) (fun b e h => if_neg h) (fun b e h => if_pos h) (fun b => by simp [waitsLonger])
    (fun a b c => by simp only [waitsLonger]; omega) (List.ne_nil_of_mem ((mem_lanesOf _ _).mpr hl))
  have hle := hbest l ((mem_lanesOf _ _).mpr hl)
  have hpc : (g.lane j).pc = (g.lane l).pc := by
    apply BitVec.eq_of_toNat_eq
    have := h j ((mem_lanesOf _ _).mp hj)
    simp only [waitsLonger] at hle
    omega
  rw [longestWait_eq, hfold, Option.map_some, hpc]

theorem exec_starvationGuard {s : State} {gid : Nat} {g : Group} (hg : s.grp? gid = some g) (hpick : g.pick = none) :
    (g.longestWait = none → exec (.starvationGuard gid) s = .next s) ∧
    ∀ p, g.longestWait = some p → exec (.starvationGuard gid) s = .next (s.updGrp gid (fun g => { g with pick := some p })) := by
  constructor
  · intro h
    simp only [exec, execStarvationGuard, hg, hpick, h]
  · intro p h
    simp only [exec, execStarvationGuard, hg, hpick, h]

/-! ### The end of a group (R36, R180) -/

theorem grp?_promote (s : State) (core p j : Nat) : (s.promote core p).grp? j = s.grp? j ∨
    ∃ x, s.grp? j = some x ∧ (s.promote core p).grp? j = some { x with active := true, activeAt := s.clk } := by
  unfold State.promote
  dsimp only
  split
  · exact .inl rfl
  split
  next k _ _ =>
    by_cases hk : k = j
    · subst hk
      cases hx : s.grp? k with
      | none => exact .inl (by rw [State.grp?_updGrp, if_pos rfl, hx]; rfl)
      | some x => exact .inr ⟨x, rfl, State.grp?_updGrp_same hx _⟩
    · exact .inl (State.grp?_updGrp_other hk _)
  · exact .inl rfl

theorem promote_rest (s : State) (core p : Nat) : { s.promote core p with groups := s.groups } = s := by
  unfold State.promote
  dsimp only
  split
  · rfl
  split <;> rfl

/-- A group without records, traps or frames that is not traced leaves nothing behind. -/
theorem groupGone_plain {s : State} {gid : Nat} {g : Group} (hg : s.grp? gid = some g) (hlog : g.log = []) (htrap : g.trapq = [])
    (hframes : g.frames = []) (htraced : s.traced g = false) (status : Nat) : s.groupGone gid status =
      if g.isSeq then (s.dropGroup gid).gangEnd g.gang
      else (if ((s.dropGroup gid).teamGroups g.gang g.team).isEmpty then (s.dropGroup gid).teamEnd g.gang g.team status
        else (s.dropGroup gid).tbarTest g.gang g.team).deadlockCheck g.core 64 := by
  have hsum : s.traceSummary gid = s := by simp [State.traceSummary, hg, htraced]
  simp only [State.groupGone, hg, hlog, htrap, hframes, List.foldl_nil, hsum]

theorem exec_groupEnd {s : State} {gid : Nat} {g : Group} (hg : s.grp? gid = some g) (hr : s.resident g = true) :
    exec (.groupEnd gid) s = .next (if g.over then s.groupGone gid 0 else s) := by
  simp only [exec, execGroupEnd, hg, hr, Bool.true_and]

theorem over_iff (g : Group) : g.over = true ↔ (g.live = 0 ∨ g.dead = true) ∧ g.drained = true ∧ g.gcall = none := by
  simp [Group.over, and_assoc]

/-- The device without a group, its operations and its watchers. -/
def State.without (s : State) (gid : Nat) : State :=
  { s with
    groups := mdel s.groups gid
    ops := s.ops.filter (fun e => e.2.gid != gid || e.2.outlives)
    watch := s.watch.filter (fun w => w.gid != gid) }

theorem dropGroup_eq {s : State} {gid : Nat} {g : Group} (hg : s.grp? gid = some g) :
    s.dropGroup gid = if g.isSeq then s.without gid else (s.without gid).promote g.core (g.grp % 4) := by
  simp only [State.dropGroup, hg]
  rfl

theorem grp?_dropGroup {s : State} {gid : Nat} {g : Group} (hg : s.grp? gid = some g) :
    (s.dropGroup gid).grp? gid = none ∧ (s.dropGroup gid).mem = s.mem ∧
    ∀ j, j ≠ gid → (s.dropGroup gid).grp? j = s.grp? j ∨
      ∃ x, s.grp? j = some x ∧ (s.dropGroup gid).grp? j = some { x with active := true, activeAt := s.clk } := by
  have hdel : ∀ j, (s.without gid).grp? j = if gid = j then none else s.grp? j := fun j => mfind_mdel _ _ _
  have hgone : (s.without gid).grp? gid = none := by rw [hdel, if_pos rfl]
  have hkept : ∀ j, j ≠ gid → (s.without gid).grp? j = s.grp? j := fun j hj => by rw [hdel, if_neg (Ne.symm hj)]
  rw [dropGroup_eq hg]
  split
  · exact ⟨hgone, rfl, fun j hj => .inl (hkept j hj)⟩
  · refine ⟨?_, (congrArg State.mem (promote_rest (s.without gid) g.core (g.grp % 4)) :), fun j hj => ?_⟩
    · rcases grp?_promote (s.without gid) g.core (g.grp % 4) gid with h | ⟨x, hx, -⟩
      · rw [h, hgone]
      · rw [hgone] at hx
        cases hx
    · have h := grp?_promote (s.without gid) g.core (g.grp % 4) j
      rwa [hkept j hj] at h

theorem teamEnd_plain {s : State} {gang team : Nat} {k : Gang} (hk : mfind s.gangs gang = some k) (hlive : (s.team gang team).live = true)
    (htmpl : (mget ({} : Launch) s.launches k.launch).tmpl = none) (hd : NoDeltas s k.cluster) :
    s.teamEnd gang team 0 = (s.updTeam gang team (fun t => { t with live := false })).teamFreed gang team 0 := by
  have hpush : (s.updTeam gang team (fun t => { t with live := false })).pushWhere [] (some k.launch) (fun d => d.cluster == k.cluster) =
      s.updTeam gang team (fun t => { t with live := false }) := pushWhere_none _ (fun d hd' => by simpa using hd.1 d hd') _ _
  have htmpl' : (mget ({} : Launch) (s.updTeam gang team (fun t => { t with live := false })).launches k.launch).tmpl = none := htmpl
  simp only [State.teamEnd, hk, hlive, hpush, htmpl']
  rfl

/-- Settles O48. -/
theorem groupSets : Obligations.GroupSets := by
  refine ⟨?_, ?_, ?_, fun g l hl => starved_iff g hl, ?_, fun s gang team k hk _ hlive htmpl hd => teamEnd_plain hk hlive htmpl hd⟩
  · intro s i j a b ha hb hcore hpart hsa hsb hra hrb haa hba hnr hrr
    have hij : i ≠ j := by
      rintro rfl
      rw [ha, Option.some_inj] at hb
      subst hb
      simp [haa] at hba
    have hsame : samePart a b = true := by simp [samePart, hcore, hpart, hsa, hsb]
    refine ⟨_, exec_groupSwap ha hb (by simp [hsame, hra, hrb, haa, hba, hnr, hrr]), rfl, ?_, ?_, fun k hki hkj => ?_⟩
    · rw [State.swapGroups, State.grp?_updGrp_other (Ne.symm hij), State.grp?_updGrp_same ha]
    · rw [State.swapGroups, State.grp?_updGrp_same (g := b) (by rw [State.grp?_updGrp_other hij, hb])]
    · rw [State.swapGroups, State.grp?_updGrp_other (Ne.symm hkj), State.grp?_updGrp_other (Ne.symm hki)]
  · intro s gid j b e hg ha hs hr rivals
    refine ⟨fun hclk hready he hold => ?_, exec_pendingDisplace_early hg⟩
    rw [exec_pendingDisplace hg ha hs hr hclk hready, foldl_oldestStep (l := s.rivals b) he hold]
    rfl
  · intro s gid g hg hpick
    obtain ⟨hnone, hsome⟩ := exec_starvationGuard hg hpick
    exact ⟨fun h => hnone (longestWait_of_none h), fun l hl h => hsome _ (longestWait_of_longest hl h)⟩
  · intro s gid g hg hr
    rw [exec_groupEnd hg hr]
    refine ⟨fun hno => ?_, fun hend hdr hgc hlog htrap hfr htr => ?_⟩
    · rw [if_neg]
      rw [over_iff]
      rintro ⟨hend, hdr, hgc⟩
      rcases hno with ⟨hlive, hdead⟩ | h | h
      · exact hend.elim hlive (by simp [hdead])
      · simp [h] at hdr
      · exact h hgc
    rw [if_pos ((over_iff g).mpr ⟨hend, hdr, hgc⟩), groupGone_plain hg hlog htrap hfr htr]
    obtain ⟨hgone, hmem, hothers⟩ := grp?_dropGroup hg
    refine ⟨hgone, hmem, hothers, fun hs => ?_, fun hs hne => ?_, fun hs hnil => ?_⟩
    · rw [if_pos hs]
    · rw [if_neg (by simp [hs]), if_neg (by simpa using hne)]
    · rw [if_neg (by simp [hs]), if_pos (by simp [hnil])]

end Sys2Proof.Machine
end

/-! The proof of `Obligations.BringUpAndResets` (R3, R4, R347, R358, R360, R365–R370). -/

section
namespace Sys2Proof.Machine

/-! ### Bring-up (R367, R368) -/

theorem exec_powerGood_started {s : State} (h : s.mgmt.stage ≠ 0) (bist : List StageResult) : exec (.powerGood bist) s = .next s := by
  simp only [exec, execPowerGood, if_pos h]

theorem exec_powerGood_failsBist {s : State} {bist : List StageResult} {r : StageResult} (h0 : s.mgmt.stage = 0) (h : stageFail bist 1 = some r) :
    exec (.powerGood bist) s = .next (s.toLantern 1 r.unit r.code) := by
  simp only [exec, execPowerGood, h0, h]
  rfl

theorem exec_powerGood_badRecord {s : State} {bist : List StageResult} (h0 : s.mgmt.stage = 0) (h1 : stageFail bist 1 = none)
    (h : s.mgmt.signed = false ∨ s.mgmt.stored.seq < s.mgmt.maxSeq) :
    exec (.powerGood bist) s = .next (s.toLantern 2 Config.recordFailure.1 Config.recordFailure.2) := by
  have hbad : (!s.mgmt.signed || decide (s.mgmt.stored.seq < s.mgmt.maxSeq)) = true := by
    rcases h with h | h <;> simp [h]
  simp only [exec, execPowerGood, h0, h1, hbad]
  rfl

theorem stageFail_of_allPass {bist : List StageResult} (h : ∀ r ∈ bist, r.pass = true) (k : Nat) : stageFail bist k = none := by
  rw [stageFail, List.find?_eq_none]
  intro r hr
  simp [h r hr]

theorem exec_powerGood_passes {s : State} {bist : List StageResult} (h0 : s.mgmt.stage = 0) (hpass : ∀ r ∈ bist, r.pass = true)
    (hsig : s.mgmt.signed = true) (hseq : s.mgmt.maxSeq ≤ s.mgmt.stored.seq) : exec (.powerGood bist) s =
      .next { s.acceptRecord with mgmt := { s.acceptRecord.mgmt with stage := 5, badUnits := [] } } := by
  have hgood : (!s.mgmt.signed || decide (s.mgmt.stored.seq < s.mgmt.maxSeq)) = false := by simp [hsig, hseq]
  have hunits : bist.filter (fun r => r.stage == 5 && !r.pass) = [] := List.filter_eq_nil_iff.mpr fun r hr => by simp [hpass r hr]
  simp only [exec, execPowerGood, h0, stageFail_of_allPass hpass, hgood, hunits]
  rfl

/-- A context that the move to full service waits for. -/
def State.runsOn (s : State) (e : Nat × Ctx) : Bool := !e.2.out && s.groups.any (fun g => g.2.ctx0 == e.1)

/-- The contexts that run are being pre-empted for the move. -/
def State.movingOn (s : State) : State :=
  if s.mgmt.moving then s
  else { s with
    mgmt := { s.mgmt with moving := true }
    ctxs := s.ctxs.map (fun e => (e.1, if s.runsOn e then { e.2 with stopping := true, eligible := true } else e.2)) }

theorem exec_fullServiceMove {s : State} (hsvc : s.hub.svc = 1) (hstage : s.mgmt.stage ≥ 5) : exec .fullServiceMove s = .next (
    if s.movingOn.ctxs.any s.runsOn then s.movingOn
    else { s.movingOn.rehome with
      hub := { s.movingOn.rehome.hub with svc := 2 }, mgmt := { s.movingOn.rehome.mgmt with stage := 6, moving := false } }) := by
  simp only [exec, execFullServiceMove]
  rw [if_neg (by omega)]
  rfl

theorem movingOn_runs (s : State) : s.movingOn.ctxs.any s.runsOn = s.ctxs.any s.runsOn := by
  unfold State.movingOn
  split
  · rfl
  · simp only [List.any_map]
    congr 1
    funext e
    simp only [Function.comp_apply]
    by_cases h : s.runsOn e = true
    · rw [if_pos h]
      rfl
    · rw [if_neg h]

theorem movingOn_rest (s : State) : { s.movingOn with mgmt := s.mgmt, ctxs := s.ctxs } = s := by
  unfold State.movingOn
  split <;> rfl

theorem movingOn_moving (s : State) : s.movingOn.mgmt.moving = true := by
  unfold State.movingOn
  split
  next h => exact h
  · rfl

theorem rehome_of_noDir {s : State} (h : s.dir = []) : s.rehome.mem = s.mem := by
  rw [State.rehome, h]
  rfl

/-! ### Clocks and reports (R367, R369) -/

theorem exec_islandClockSet (s : State) (i mhz : Nat) : exec (.islandClockSet i mhz) s = .next (
    if i ≥ 1024 ∨ (i < 816 ∧ mhz > 1300) ∨ mhz > s.mgmt.cfg.clock ∨ (mhz = 0 ∧ (i ≥ 768 ∨
      s.groups.any (fun e => decide (i < 768) && !e.2.isSeq && e.2.core == i / 4 && e.2.grp % 4 == i % 4 && s.resident e.2) = true)) then s
    else { s with mgmt := { s.mgmt with clocks := mput s.mgmt.clocks i mhz } }) := by
  simp only [exec, execIslandClockSet, decide_eq_true_eq]

/-! ### Resets (R358, R370) -/

theorem readByte_kept {s t : State} (h : t.mem = s.mem.filter (fun e => Config.hbmEnd ≤ e.1)) (a : Nat) :
    t.readByte a = if Config.hbmEnd ≤ a then s.readByte a else byteZero := by
  rw [State.readByte, h, mget, mfind_filter_key (fun k => Config.hbmEnd ≤ k)]
  split <;> simp_all [State.readByte, mget]

theorem exec_hostHotReset_hosted {s : State} (h : s.hub.mode ≠ 0) : exec .hostHotReset s = .next s.cutLink.failHost := by
  simp only [exec, execHostHotReset, if_neg h]

/-- In attached mode the contexts end before the engines are reset. -/
def State.contextsEnded (s : State) : State :=
  ((s.ctxs.filter (fun e => e.2.loaded)).map (·.1)).foldl (fun s c => ((s.performKill c).endLaunches c).endCtx c) s

theorem exec_hostHotReset_attached {s : State} (h : s.hub.mode = 0) : exec .hostHotReset s = .next s.contextsEnded.resetEngines.cutLink := by
  simp only [exec, execHostHotReset, if_pos h]
  rfl

theorem ofHost_iff (o : Op) : o.ofHost = (o.job == .host) := by
  unfold Op.ofHost
  cases o.job <;> rfl

/-! ### Links (R358, R360) -/

/-- The link is up again, once the accesses that have waited too long have failed. -/
def State.linkUp (u : State) (w r : Nat) : State := { u with host := { u.host with up := true, reset := false, width := w, rate := r, failed := 0 } }

/-- The accesses that wait for a granule ask for it again. -/
def State.askAgain (v : State) (ops : Map Op) : State :=
  (ops.flatMap (fun e => (e.2.accs.filter (fun a => a.waitsHost)).map (fun a => granuleOf a.key))).foldl
    (fun s k => if (s.gran k).dev then s else s.askGranule k) v

/-- A hot reset in self-hosted mode is notified with the state `v`. -/
def State.tellReset (v u : State) (w r : Nat) : State :=
  if u.host.reset && v.hub.mode == 1 then
    v.post 0 { kind := 6, ctx := 0, body := [(8, u.host.downAt), (4, u.host.failed), (1, w), (1, r)] }
  else v

/-- What a retrained link does to the state `u` in which the accesses that have waited too long have failed. -/
def State.retrain (u : State) (w r : Nat) : State :=
  let v := { u with host := { u.host with up := true, reset := false, width := w, rate := r, failed := 0 } }
  let gs := v.ops.flatMap (fun e => (e.2.accs.filter (fun a => a.waitsHost)).map (fun a => granuleOf a.key))
  let v := gs.foldl (fun s k => if (s.gran k).dev then s else s.askGranule k) v
  if u.host.reset && v.hub.mode == 1 then
    v.post 0 { kind := 6, ctx := 0, body := [(8, u.host.downAt), (4, u.host.failed), (1, w), (1, r)] }
  else v

theorem retrain_eq (u : State) (w r : Nat) : u.retrain w r = ((u.linkUp w r).askAgain u.ops).tellReset u w r := rfl

theorem exec_linkRetrain (s : State) (w r : Nat) : exec (.linkRetrain w r) s = .next (if s.host.up then s else s.linkTimeout.retrain w r) := rfl

theorem askAgain_of_noneWaits (v : State) {ops : Map Op} (h : ∀ e ∈ ops, ∀ a ∈ e.2.accs, a.waitsHost = false) : v.askAgain ops = v := by
  have hnone : ops.flatMap (fun e => (e.2.accs.filter (fun a => a.waitsHost)).map (fun a => granuleOf a.key)) = [] := by
    rw [List.flatMap_eq_nil_iff]
    intro e he
    rw [List.map_eq_nil_iff, List.filter_eq_nil_iff]
    intro a ha
    simp [h e he a ha]
  rw [State.askAgain, hnone]
  rfl

theorem tellReset_quiet {v u : State} (h : u.host.reset = false ∨ v.hub.mode ≠ 1) (w r : Nat) : v.tellReset u w r = v := by
  rw [State.tellReset, if_neg]
  rcases h with h | h <;> simp [h]

theorem tellReset_told {v u : State} (hr : u.host.reset = true) (hm : v.hub.mode = 1) (w r : Nat) : v.tellReset u w r =
    v.post 0 { kind := 6, ctx := 0, body := [(8, u.host.downAt), (4, u.host.failed), (1, w), (1, r)] } := by
  rw [State.tellReset, if_pos (by simp [hr, hm])]

/-- With no access waiting, a retrained link is up, and tells of a reset. -/
theorem retrain_of_noneWaits {u : State} (h : ∀ e ∈ u.ops, ∀ a ∈ e.2.accs, a.waitsHost = false) (w r : Nat) :
    u.retrain w r = (u.linkUp w r).tellReset u w r := by
  rw [retrain_eq, askAgain_of_noneWaits _ h]

theorem exec_hostLinkTimeout (s : State) : exec .hostLinkTimeout s = .next (if s.host.up then s else s.linkTimeout) := rfl

theorem linkTimeout_early {s : State} (h : s.now < s.host.downAt + 100000000) : s.linkTimeout = s := if_neg (Nat.not_le.mpr h)

theorem linkTimeout_late {s : State} (h : s.host.downAt + 100000000 ≤ s.now) :
    s.linkTimeout = s.mapAccs (fun a => if a.waitsHost then { a with st := .failed 4 } else a) := if_pos h

/-- A device is lost: its items fail, its members die, and timed writes on their way to it are lost with it. -/
def State.loseDevice (s : State) (dev : Nat) : State :=
  { s with lost := s.lost ++ [dev], timed := s.timed.filter (fun t => keyDev t.key != some dev), departs := s.departs ++ s.membersOn dev }

theorem exec_deviceLost {s : State} {dev since : Nat} (h : mfind s.noRoute dev = some since) : exec (.deviceLost dev) s = .next (
    if s.lost.contains dev || decide (s.now < since + 10000000) then s else (s.mapAccs (fun a => a.lose dev)).loseDevice dev) := by
  show execDeviceLost dev s = _
  unfold execDeviceLost
  rw [h]
  rfl

theorem mfind_lostRoutes (now : Nat) (gone : List Nat) (m : Map Nat) (d : Nat) :
    mfind (gone.foldl (fun m d => if (mfind m d).isSome then m else mput m d now) m) d =
      match mfind m d with | some x => some x | none => if d ∈ gone then some now else none := by
  induction gone generalizing m with
  | nil => simp; cases mfind m d <;> rfl
  | cons e gone ih =>
    rw [List.foldl_cons, ih]
    by_cases he : d = e
    · subst he
      cases hd : mfind m d <;> simp [hd]
    · have hput : mfind (if (mfind m e).isSome then m else mput m e now) d = mfind m d := by
        split
        · rfl
        · exact mfind_mput_other m now (Ne.symm he)
      rw [hput]
      simp [he]

theorem lose_eq (dev : Nat) : (fun a : Acc => a.lose dev) =
    fun a => if keyDev a.key = some dev ∧ a.final = false ∧ a.st ≠ .walk then { a with st := .failed 5 } else a := by
  funext a
  simp [Acc.lose, and_assoc]

theorem sysWaits_iff (s : State) (c : Nat) : s.sysWaits c = true ↔
    ∃ e ∈ s.ops, e.2.job = .sys c ∨ (e.2.job = .link ∧ e.2.gid = 0 ∧ e.2.cluster = 48 ∧ e.2.core = c) := by
  rw [State.sysWaits, List.any_eq_true]
  refine exists_congr fun e => and_congr_right fun _ => ?_
  cases e.2.job <;> simp [hubAgent, and_assoc]

/-- Settles O53. -/
theorem bringUpAndResets : Obligations.BringUpAndResets := by
  refine ⟨fun s bist => ⟨fun h => exec_powerGood_started h bist, fun h0 => ⟨fun r hr => ?_, fun h1 h => ?_, fun hp hs hq => ?_⟩⟩, fun s hsvc hstage => ?_,
    fun s i mhz => ?_, fun s bus => ⟨?_, ?_⟩, fun s => ?_, fun s => ?_, fun s hup => ?_, fun s w r => ⟨?_, fun hup => ?_⟩,
    fun s link gone => ⟨?_, ?_⟩, fun s dev since hsince => ⟨?_, ?_⟩, fun s c hc => ?_⟩
  · exact ⟨_, exec_powerGood_failsBist h0 hr, rfl, rfl⟩
  · exact ⟨_, exec_powerGood_badRecord h0 h1 h, rfl, nofun, rfl⟩
  · exact ⟨_, exec_powerGood_passes h0 hp hs hq, rfl, rfl, rfl, Nat.max_eq_right hq, rfl, rfl, rfl⟩
  · have hrest := movingOn_rest s
    rw [exec_fullServiceMove hsvc hstage, movingOn_runs]
    refine ⟨fun hout => ?_, fun hruns => ?_⟩
    · have hno : s.ctxs.any s.runsOn = false := by
        rw [List.any_eq_false]
        intro e he hruns
        rw [State.runsOn, Bool.and_eq_true, List.any_eq_true] at hruns
        obtain ⟨ho, g, hg, hctx⟩ := hruns
        rcases hout e he with h | h
        · simp [h] at ho
        · exact h g hg (by simpa using hctx)
      rw [hno, if_neg Bool.false_ne_true]
      refine ⟨_, rfl, rfl, rfl, rfl, fun hdir => ?_⟩
      have hkept : s.movingOn.rehome.mem = s.movingOn.mem := rehome_of_noDir ((congrArg State.dir hrest :).trans hdir)
      exact hkept.trans (congrArg State.mem hrest :)
    · obtain ⟨e, he, ho, g, hg, hctx⟩ := hruns
      have hyes : s.ctxs.any s.runsOn = true :=
        List.any_eq_true.mpr ⟨e, he, by simp only [State.runsOn, ho, Bool.not_false, Bool.true_and, List.any_eq_true]; exact ⟨g, hg, by simp [hctx]⟩⟩
      rw [hyes, if_pos rfl]
      exact ⟨_, rfl, (congrArg (fun u : State => u.hub.svc) hrest :).trans hsvc, movingOn_moving s⟩
  · rw [exec_islandClockSet]
    refine ⟨fun h => ?_, fun hi hc hm h0 => ?_, fun hi hno => ?_⟩
    · rw [if_pos (by tauto)]
    · rw [if_neg (by omega)]
    · have hidle : s.groups.any (fun e => decide (i < 768) && !e.2.isSeq && e.2.core == i / 4 && e.2.grp % 4 == i % 4 && s.resident e.2) = false := by
        rw [List.any_eq_false]
        intro e he hb
        simp only [Bool.and_eq_true, decide_eq_true_eq, Bool.not_eq_true', beq_iff_eq] at hb
        obtain ⟨⟨⟨⟨-, hseq⟩, hcore⟩, hgrp⟩, hres⟩ := hb
        exact hno e he hseq hres ⟨hcore, hgrp⟩
      rw [exec_islandClockSet, hidle, if_neg (by simp; omega)]
  · rintro (h | h)
    · simp only [exec, execMctpFailureReport, h]
    · simp only [exec, execMctpFailureReport, if_neg (Nat.not_lt.mpr h)]
      split <;> rfl
  · intro stage unit code h hbus
    simp only [exec, execMctpFailureReport, h, if_pos hbus]
  · refine ⟨_, rfl, rfl, rfl, rfl, rfl, rfl, rfl, fun a ha => ?_, fun a ha => ?_⟩
    · rw [readByte_kept rfl, if_neg (Nat.not_le.mpr ha)]
    · rw [readByte_kept rfl, if_pos ha]
  · by_cases hm : s.hub.mode = 0
    · refine ⟨_, exec_hostHotReset_attached hm, rfl, rfl, fun h => absurd hm h, fun _ => ⟨rfl, rfl, rfl, rfl, fun a ha => ?_⟩⟩
      rw [readByte_kept rfl, if_neg (Nat.not_le.mpr ha)]
    · refine ⟨_, exec_hostHotReset_hosted hm, rfl, rfl, fun _ => ⟨rfl, ?_, ?_, rfl⟩, fun h => absurd h hm⟩
      · simp only [State.failHost, ofHost_iff]
        rfl
      · simp only [State.failHost, ofHost_iff]
        exact Nat.zero_add _
  · rw [exec_hostLinkTimeout, if_neg (by simp [hup])]
    exact ⟨fun h => by rw [linkTimeout_early h], fun h => by rw [linkTimeout_late h]⟩
  · intro hup
    rw [exec_linkRetrain, if_pos hup]
  · intro u v hno
    have hexec : exec (.linkRetrain w r) s = .next (s.linkTimeout.retrain w r) := by
      rw [exec_linkRetrain, if_neg (by simp [hup])]
    rw [hexec, retrain_of_noneWaits hno]
    exact ⟨fun h => congrArg _ (tellReset_quiet h w r), fun hr hm => congrArg _ (tellReset_told hr hm w r)⟩
  · intro h
    simp only [exec, execFabricLinkFailure]
    rw [if_pos (by simpa using h)]
  · intro hl hnew
    have hgo : ¬ (link ≥ 18 ∨ s.badLinks.contains link = true) := by simpa using ⟨hl, hnew⟩
    simp only [exec, execFabricLinkFailure, if_neg hgo]
    exact ⟨_, rfl, rfl, rfl, mfind_lostRoutes s.now gone s.noRoute⟩
  · intro h
    rw [exec_deviceLost hsince, if_pos (by simpa using h)]
  · intro hnew hlate
    rw [exec_deviceLost hsince, if_neg (by simpa using ⟨hnew, hlate⟩), lose_eq]
    rfl
  · have hexec : exec (.fenceRwRw c) s = .next (
        if c ≥ 8 ∨ s.sysWaits c = true ∨ s.now - s.lagHub < (mget ({} : SysCore) s.sys c).last + 2 then s
        else { s with sys := mput s.sys c { mget ({} : SysCore) s.sys c with fences := (mget ({} : SysCore) s.sys c).fences + 1 } }) := rfl
    intro waits k
    rw [hexec]
    refine ⟨fun h => ?_, fun hno hk => ?_⟩
    · rw [if_pos (.inr (h.imp_left (sysWaits_iff s c).mpr))]
    · rw [if_neg]
      rintro (h | h | h)
      · omega
      · exact hno ((sysWaits_iff s c).mp h)
      · exact Nat.not_lt.mpr hk h

end Sys2Proof.Machine
end

/-! The proof of `Obligations.StorageNetworkAttestation` (R348, R361, R363, R364, R366, R370). -/

section
namespace Sys2Proof.Machine

/-! ### NVMe (R363) -/

/-- An NVMe command names blocks of its lease only. -/
def Lease.inRange (l : Lease) (c : NvmeCmd) : Prop := c.op = .flush ∨ (1 ≤ c.count ∧ l.lo ≤ c.lba ∧ c.lba + c.count - 1 ≤ l.hi)

theorem inRange_iff (l : Lease) (c : NvmeCmd) : (nvmeRanged c.op && !(inLease l.lo l.hi c.lba c.count)) = false ↔ l.inRange c := by
  unfold Lease.inRange inLease
  cases c.op <;> simp [nvmeRanged, and_assoc]

theorem nvmeNeed_eq (o : NvmeOp) : (if o == .read then Need.w else .r) = if o = .read then .w else .r := by
  cases o <;> rfl

theorem nvmePages_eq (c : NvmeCmd) : (if nvmeMoves c.op then pagesOf c.buf c.bytes else []) =
    if c.op = .read ∨ c.op = .write then pagesOf c.buf c.bytes else [] := by
  cases h : c.op <;> simp [nvmeMoves]

theorem exec_nvmeSubmission_idle {s : State} {k : Nat} {l : Lease} (hl : mfind s.leases k = some l) (c : NvmeCmd)
    (h : s.mgmt.cfg.flash = true ∨ l.revoked = true ∨ s.bound l.queue = false) : exec (.nvmeSubmission k c) s = .next s := by
  simp only [exec, execNvmeSubmission, hl]
  rw [if_pos]
  rcases h with h | h | h <;> simp [h]

theorem exec_nvmeSubmission {s : State} {k : Nat} {l : Lease} (hl : mfind s.leases k = some l) (c : NvmeCmd)
    (hf : s.mgmt.cfg.flash = false) (hr : l.revoked = false) (hb : s.bound l.queue = true) :
    (c.op ∉ l.ops → exec (.nvmeSubmission k c) s = .next (s.nvmePost k c.cid 0x01)) ∧
    (c.op ∈ l.ops → ¬ l.inRange c → exec (.nvmeSubmission k c) s = .next (s.nvmePost k c.cid 0x80)) ∧
    (c.op ∈ l.ops → l.inRange c → ∀ r, s.frames l.ctx (if c.op = .read then .w else .r)
        (if c.op = .read ∨ c.op = .write then pagesOf c.buf c.bytes else []) = r →
      exec (.nvmeSubmission k c) s = .next (match r with
        | .error (_, va) => (s.nvmePost k c.cid 0x04).notify { kind := 1, ctx := l.ctx, body := [(4, 0), (4, 0), (8, 0), (8, va)] }
        | .ok ks => { s with leases := mupd s.leases k (fun l => { l with drive := l.drive ++ [(c, ks)] }) })) := by
  simp only [exec, execNvmeSubmission, hl, hf, hr, hb, nvmeNeed_eq, nvmePages_eq, ← inRange_iff]
  refine ⟨fun hop => ?_, fun hop hno => ?_, fun hop hin r hfr => ?_⟩
  · simp [hop]
  · simp [hop, Bool.eq_true_of_not_eq_false hno]
  · have hmem : (!l.ops.contains c.op) = false := by simp [hop]
    simp only [hmem, hin, hfr]
    rfl

/-! ### Flash (R364) -/

/-- A ring's next request once its head word has been written. -/
def flashHead (k : Nat) (r : FlashRing) (x : Nat) : SvcRes × State → State
  | (.wait, s) => s
  | (.fail o, s) => (s.forget (flashTag k)).stopFlash k r.ctx r.headVa o
  | (.ok _ _, s) =>
    { ((s.forget (flashTag k)).ioHold (s.ioCore (1280 + k)) r.head x) with
      flashRings := mupd s.flashRings k (fun u => { u with
        head := u.head + 1, taken := u.taken ++ [parseFlash u (s.ioCore (1280 + k)) u.head x] }) }

/-- A ring's next request once its slot has been read. -/
def flashSlot (k : Nat) (r : FlashRing) : SvcRes × State → State
  | (.wait, s) => s
  | (.fail o, s) => (s.forget (flashTag k)).stopFlash k r.ctx (r.slotVa r.head) o
  | (.ok x _, s) => flashHead k r x (s.svcAccess (flashTag k) none r.ctx (BitVec.ofNat 64 r.headVa) 8 (some ((r.head + 1) % 2 ^ 64)))

/-- A ring's next request once its tail word has been read. -/
def flashTail (k : Nat) (r : FlashRing) : SvcRes × State → State
  | (.wait, s) => s
  | (.fail o, s) => (s.forget (flashTag k)).stopFlash k r.ctx r.tailVa o
  | (.ok tail _, s) =>
    if (tail + 2 ^ 64 - r.head % 2 ^ 64) % 2 ^ 64 = 0 then s.forget (flashTag k)
    else if (tail + 2 ^ 64 - r.head % 2 ^ 64) % 2 ^ 64 > r.slots then (s.forget (flashTag k)).stopFlash k r.ctx 0 0
    else flashSlot k r (s.svcAccess (flashTag k) none r.ctx (BitVec.ofNat 64 (r.slotVa r.head)) 64 none)

theorem exec_flashRequest_idle {s : State} {k : Nat} {r : FlashRing} (hr : mfind s.flashRings k = some r)
    (h : s.mgmt.cfg.flash = false ∨ r.stopped = true ∨ s.bound (1280 + k) = false) : exec (.flashRequest k) s = .next s := by
  simp only [exec, execFlashRequest, hr]
  rw [if_pos]
  rcases h with h | h | h <;> simp [h]

theorem exec_flashRequest {s : State} {k : Nat} {r : FlashRing} (hr : mfind s.flashRings k = some r) (hf : s.mgmt.cfg.flash = true)
    (hs : r.stopped = false) (hb : s.bound (1280 + k) = true) :
    exec (.flashRequest k) s = .next (flashTail k r (s.svcAccess (flashTag k) none r.ctx (BitVec.ofNat 64 r.tailVa) 8 none)) := by
  have hgo : (!s.mgmt.cfg.flash || r.stopped || !s.bound (1280 + k)) = false := by simp [hf, hs, hb]
  simp only [exec, execFlashRequest, hr, hgo, Bool.false_eq_true, if_false]
  rfl

/-- A flash request is over: its ring holds it no more. -/
def flashEnded (k slot : Nat) (s : State) : State :=
  { (s.forget (flashEndTag k slot)) with flashRings := mupd s.flashRings k (fun r => { r with taken := r.taken.filter (fun o => o.slot != slot) }) }

/-- A flash request has been done: its STATUS is written. -/
def flashFinish (k slot : Nat) (ctx : Nat) (va : DWord) : SvcRes × State → State
  | (.wait, s) => s
  | (.ok _ _, s) => flashEnded k slot s
  | (.fail o, s) => flashEnded k slot (s.addErr ctx (.completion va o))

/-- The data of a flash read have been moved to the buffer. -/
def flashSent : Option (List Byte × Nat) × State → Option Nat × State
  | (none, s) => (none, s)
  | (some (_, st), s) => (some st, s)

/-- A flash read, once its buffer's frames are known. -/
def flashRead (s : State) (tag : Nat × Nat) (base n : Nat) : Except (Nat × Nat) (List Nat) → Option Nat × State
  | .error (o, _) => (some (outcomeStatus o), s)
  | .ok ks => flashSent (s.dma tag .store (lineData (frameLines ks 0 n) (mgets byteZero s.flash base n)))

/-- The data of a flash write have been read from the buffer. -/
def flashStored (base : Nat) : Option (List Byte × Nat) × State → Option Nat × State
  | (none, s) => (none, s)
  | (some (bs, st), s) => (some st, if st = 0 then { s with flash := msets byteZero s.flash base bs } else s)

/-- A flash write, once its buffer's frames are known. -/
def flashWrite (s : State) (tag : Nat × Nat) (base n : Nat) : Except (Nat × Nat) (List Nat) → Option Nat × State
  | .error (o, _) => (some (outcomeStatus o), s)
  | .ok ks => flashStored base (s.dma tag .load ((frameLines ks 0 n).map (fun l => (l.1, l.2, 0))))

theorem flashDo_read {q : FlashReq} (h : q.op = 0) (s : State) (tag : Nat × Nat) (ctx : Nat) : s.flashDo tag ctx q =
    flashRead s tag (4096 * q.lba) (4096 * q.count) (s.frames ctx .w ((List.range q.count).map (fun i => (q.buf + 4096 * i) % 2 ^ 64))) := by
  simp only [State.flashDo, h]
  rfl

theorem flashDo_write {q : FlashReq} (h : q.op = 1) (s : State) (tag : Nat × Nat) (ctx : Nat) : s.flashDo tag ctx q =
    flashWrite s tag (4096 * q.lba) (4096 * q.count) (s.frames ctx .r ((List.range q.count).map (fun i => (q.buf + 4096 * i) % 2 ^ 64))) := by
  simp only [State.flashDo, h]
  rfl

/-- What has been done of a flash request, and its STATUS once it has been done. -/
def flashDone (k slot : Nat) (r : FlashRing) : Option Nat × State → State
  | (none, s) => s
  | (some n, s) => flashFinish k slot r.ctx (BitVec.ofNat 64 (r.slotVa slot + 0x18))
      (s.svcAccess (flashEndTag k slot) none r.ctx (BitVec.ofNat 64 (r.slotVa slot + 0x18)) 4 (some (2 ^ 31 + n)))

theorem exec_flashCompletion_waits {s : State} {k slot : Nat} {r : FlashRing} {q : FlashReq} (hr : mfind s.flashRings k = some r)
    (hq : r.taken.find? (fun q => q.slot == slot) = some q) (h : q.op = 3 ∧ ∃ o ∈ r.taken, o.op = 1 ∧ o.slot < slot) :
    exec (.flashCompletion k slot) s = .next s := by
  simp only [exec, execFlashCompletion, hr, hq]
  rw [if_pos (by simpa using h)]

theorem exec_flashCompletion {s : State} {k slot : Nat} {r : FlashRing} {q : FlashReq} (hr : mfind s.flashRings k = some r)
    (hq : r.taken.find? (fun q => q.slot == slot) = some q) (h : ¬ (q.op = 3 ∧ ∃ o ∈ r.taken, o.op = 1 ∧ o.slot < slot)) :
    exec (.flashCompletion k slot) s =
      .next (flashDone k slot r (if q.status = 0 then s.flashDo (flashEndTag k slot) r.ctx q else (some q.status, s))) := by
  simp only [exec, execFlashCompletion, hr, hq]
  rw [if_neg (by simpa using h)]
  rfl

theorem parseFlash_status (r : FlashRing) (core slot x : Nat) : (parseFlash r core slot x).status =
    if (r.ops.contains (flashOp (fieldAt x 0 4)) && decide (fieldAt x 0 4 ≤ 3) && fieldAt x 0x10 8 % 4096 == 0 && fieldAt x 0x1C 36 == 0 &&
      (fieldAt x 0 4 == 3 || (decide (fieldAt x 4 4 ≤ 256) && inLease r.lo r.hi (fieldAt x 8 8) (fieldAt x 4 4)))) then 0 else 2 := rfl

theorem parseFlash_accepts (r : FlashRing) (core slot x : Nat) : (parseFlash r core slot x).status = 0 ↔
    flashOp (fieldAt x 0 4) ∈ r.ops ∧ fieldAt x 0 4 ≤ 3 ∧ fieldAt x 0x10 8 % 4096 = 0 ∧ fieldAt x 0x1C 36 = 0 ∧ (fieldAt x 0 4 = 3 ∨
      fieldAt x 4 4 ≤ 256 ∧ 1 ≤ fieldAt x 4 4 ∧ r.lo ≤ fieldAt x 8 8 ∧ fieldAt x 8 8 + fieldAt x 4 4 - 1 ≤ r.hi) := by
  rw [parseFlash_status]
  simp [inLease, and_assoc, or_iff_not_imp_left]

/-- Settles O54. -/
theorem storageNetworkAttestation : Obligations.StorageNetworkAttestation := by
  refine ⟨fun s k c => ⟨fun h => ?_, fun l hl => ⟨exec_nvmeSubmission_idle hl c, fun hf hr hb => ?_⟩⟩, fun s k l c ks rest hl hd => ⟨fun h => ?_, fun h v u n hn => ?_, fun h hn => ?_⟩,
    fun s k r hr => ⟨fun h => ?_, fun hf hs hb => ?_⟩, fun r core slot x => ?_, fun s k slot r q hr hq => ⟨fun h => ?_, fun h u st hbad hgood => ?_⟩,
    fun s tag ctx q => ?_, fun s port ring tx f => ?_, fun s r => ?_⟩
  · simp only [exec, execNvmeSubmission, h]
  · obtain ⟨hop, hrange, hgo⟩ := exec_nvmeSubmission hl c hf hr hb
    exact ⟨hop, hrange, fun h1 h2 ks hks => hgo h1 h2 _ hks, fun h1 h2 o va hks => hgo h1 h2 _ hks⟩
  · simp only [exec, execNvmeCompletion, hl, hd, if_pos h]
  · intro moved
    have hread : ¬ c.op ≠ .read := fun hne => hne h
    refine ⟨fun hm => ?_, fun hm => ?_⟩
    · simp only [exec, execNvmeCompletion, hl, hd, if_neg hread, hn]
      rw [show s.dma _ _ _ = _ from hm]
    · simp only [exec, execNvmeCompletion, hl, hd, if_neg hread, hn]
      rw [show s.dma _ _ _ = _ from hm]
  · have hread : ¬ c.op ≠ .read := fun hne => hne h
    have hl' : mfind (mupd s.leases k (fun l => { l with moving := some s.freeCtr })) k = some { l with moving := some s.freeCtr } := by
      rw [mfind_mupd, if_pos rfl, hl]
      rfl
    simp only [exec, execNvmeCompletion, hl, hl', hd, if_neg hread, hn]
  · exact exec_flashRequest_idle hr h
  · intro tag v1 s1 h1
    rw [exec_flashRequest hr hf hs hb, h1]
    refine ⟨?_, ?_, ?_⟩
    · rintro rfl
      rfl
    · rintro o rfl
      rfl
    rintro tail t1 rfl
    refine ⟨fun hn => ?_, fun hn => ?_, fun hn0 hn v2 s2 h2 => ?_⟩
    · rw [flashTail, if_pos hn]
    · rw [flashTail, if_neg (by omega), if_pos hn]
    rw [flashTail, if_neg hn0, if_neg (Nat.not_lt.mpr hn), h2]
    refine ⟨?_, ?_, ?_⟩
    · rintro rfl
      rfl
    · rintro o rfl
      rfl
    rintro x t2 rfl v3 s3 h3
    rw [flashSlot, h3]
    refine ⟨?_, ?_, ?_⟩
    · rintro rfl
      rfl
    · rintro o rfl
      rfl
    · rintro v t3 rfl
      rfl
  · have hok := parseFlash_status r core slot x
    have hop : fieldAt x 0 4 = x % 2 ^ 32 := congrArg (· % 2 ^ 32) (Nat.div_one x)
    refine ⟨rfl, rfl, hop, rfl, rfl, rfl, ?_, ?_⟩
    · rw [hok]
      split
      · exact .inl rfl
      · exact .inr rfl
    · exact parseFlash_accepts r core slot x
  · exact exec_flashCompletion_waits hr hq h
  · have hdone : exec (.flashCompletion k slot) s = .next (flashDone k slot r (st, u)) := by
      rw [exec_flashCompletion hr hq h]
      by_cases hs : q.status = 0
      · rw [if_pos hs]
        exact congrArg _ (congrArg _ (hgood hs))
      · obtain ⟨rfl, rfl⟩ := hbad hs
        rw [if_neg hs]
    rw [hdone]
    refine ⟨?_, ?_⟩
    · rintro rfl
      rfl
    · rintro n rfl v w hvw finish
      rw [flashDone, hvw]
      refine ⟨?_, ?_, ?_⟩
      · rintro rfl
        rfl
      · rintro y tc rfl
        rfl
      · rintro o rfl
        rfl
  · refine ⟨fun h => ?_, fun h => ?_, fun ks bs u h hfr hdma => ?_, fun ks v u h hfr hdma => ?_, fun o va h => ?_⟩
    · simp only [State.flashDo, h]
    · simp only [State.flashDo, h]
    · rw [flashDo_write h, hfr]
      exact congrArg (flashStored (4096 * q.lba)) hdma
    · rw [flashDo_read h, hfr]
      exact congrArg flashSent hdma
    · rcases h with ⟨h, hfr⟩ | ⟨h, hfr⟩
      · rw [flashDo_read h, hfr]
        rfl
      · rw [flashDo_write h, hfr]
        rfl
  · refine ⟨fun hp hr hb => ?_, fun h => ?_⟩
    · have hgo : port < 4 ∧ ring < 16 ∧ s.bound (1536 + 32 * port + 2 * ring + b2n tx) = true := ⟨hp, hr, hb⟩
      simp only [exec, execEthernetFrame, if_pos hgo]
      rfl
    · have hno : ¬ (port < 4 ∧ ring < 16 ∧ s.bound (1536 + 32 * port + 2 * ring + b2n tx) = true) := h
      simp only [exec, execEthernetFrame, if_neg hno]
  · have hready : s.spdmReady { r with slot := 0 } = s.mgmt.agreed := Bool.and_true _
    have hdig : exec (.getDigests r) s = .next (s.spdm 0x81 (s.spdmReady { r with slot := 0 }) (Config.digest Config.certChain)) := rfl
    refine ⟨rfl, rfl, ⟨_, rfl, rfl, rfl⟩, ?_, rfl, rfl, rfl⟩
    rw [hdig, hready]
    rfl

end Sys2Proof.Machine
end

/-! The proof of `Obligations.HubCommands` (R29, R45, R55, R57, R61, R242, R339, R340, R353). -/

section
namespace Sys2Proof.Machine

/-! ### The oldest command of a port -/

section
variable {s : State} {p : Nat} {c : Command} {rest : List Command}

theorem hubCmd_of (hq : (s.port p).queue = c :: rest) (hw : s.cmdWaits c = false) {code : Nat} (hc : c.code = code) (f : Command → State → State) :
    hubCmd code p f s = .next (f c s) := by
  simp [hubCmd, hq, hc, hw]

theorem hubCtxCmd_none (hq : (s.port p).queue = c :: rest) (hw : s.cmdWaits c = false) {code : Nat} (hc : c.code = code)
    (h : s.loaded? (c.arg 0) = none) (f : Command → Nat → Ctx → State → State) : hubCtxCmd code p f s = .next (s.cmdDone p 2) := by
  rw [hubCtxCmd, hubCmd_of hq hw hc, h]

theorem hubCtxCmd_some (hq : (s.port p).queue = c :: rest) (hw : s.cmdWaits c = false) {code : Nat} (hc : c.code = code) {x : Ctx}
    (h : s.loaded? (c.arg 0) = some x) (f : Command → Nat → Ctx → State → State) : hubCtxCmd code p f s = .next (f c (c.arg 0) x s) := by
  rw [hubCtxCmd, hubCmd_of hq hw hc, h]

end

/-! ### The end of a command -/

theorem port_updPort (s : State) (p : Nat) (f : Port → Port) (q : Nat) : (s.updPort p f).port q = if p = q then f (s.port p) else s.port q := by
  rw [State.port, State.updPort, mget_mput]
  rfl

/-- A port whose oldest command is complete. -/
def Port.finished (x : Port) (tag status : Nat) (rest : List Command) : Port :=
  { x with queue := rest, tag := tag, code := status, busy := false, pos := none, tc := 0 }

theorem cmdDone_eq {s : State} {p : Nat} {c : Command} {rest : List Command} (hq : (s.port p).queue = c :: rest) (status : Nat) :
    s.cmdDone p status = (s.updPort p (fun x => x.finished c.tag status rest)).issueHeld p := by
  rw [State.cmdDone, State.updPort, hq]
  rfl

theorem cmdDone_of_noneHeld {s : State} {p : Nat} {c : Command} {rest : List Command} (hq : (s.port p).queue = c :: rest)
    (hh : (s.port p).held = []) (status : Nat) : s.cmdDone p status = s.updPort p (fun x => x.finished c.tag status rest) := by
  have hp : ((s.updPort p (fun x => x.finished c.tag status rest)).port p).held = [] := by
    rw [port_updPort, if_pos rfl]
    exact hh
  rw [cmdDone_eq hq, State.issueHeld, hp]

theorem cmdDone_of_held {s : State} {p : Nat} {c h : Command} {rest hs : List Command} (hq : (s.port p).queue = c :: rest)
    (hh : (s.port p).held = h :: hs) (hroom : rest.length < 16) (status : Nat) :
    s.cmdDone p status = ((s.updPort p (fun x => x.finished c.tag status rest)).updPort p (fun x => { x with held := hs })).issueCmd p h := by
  have hp : (s.updPort p (fun x => x.finished c.tag status rest)).port p = (s.port p).finished c.tag status rest := by
    rw [port_updPort, if_pos rfl]
  rw [cmdDone_eq hq, State.issueHeld, hp]
  simp only [Port.finished, hh, if_pos hroom]

theorem issueCmd_rest (s : State) (p : Nat) (c : Command) :
    { s.issueCmd p c with nextId := s.nextId, hub := s.hub, ctxs := s.ctxs } = s := by
  simp only [State.issueCmd]
  split <;> rfl

theorem issueCmd_port (s : State) (p : Nat) (c : Command) (q : Nat) : (s.issueCmd p c).port q =
    if p = q then { s.port p with queue := (s.port p).queue ++ [{ c with seq := s.nextId }] } else s.port q := by
  have h : (s.issueCmd p c).hub = (({ s with nextId := s.nextId + 1 }).updPort p
      (fun x => { x with queue := x.queue ++ [{ c with seq := s.nextId }] })).hub := by
    simp only [State.issueCmd]
    split <;> rfl
  rw [State.port, h]
  exact port_updPort _ _ _ _

/-! ### The commands -/

section
variable {s : State} {p : Nat} {c : Command} {rest : List Command}

/-- The context that a CTX_LOAD installs. -/
def State.loadedCtx (s : State) (c : Command) : Ctx :=
  { parseCtx (s.readMem (s.hub.ctxtab + 256 * c.arg 0) 256) with
    loaded := true
    live := !(s.killAfter (c.arg 0) c)
    stopping := (mget ({} : Ctx) s.ctxs (c.arg 0)).stopping
    eligible := (mget ({} : Ctx) s.ctxs (c.arg 0)).eligible
    admitted := (mget ({} : Ctx) s.ctxs (c.arg 0)).admitted
    out := (mget ({} : Ctx) s.ctxs (c.arg 0)).out
    outAt := (mget ({} : Ctx) s.ctxs (c.arg 0)).outAt
    errs := (mget ({} : Ctx) s.ctxs (c.arg 0)).errs }

theorem exec_ctxLoad (hq : (s.port p).queue = c :: rest) (hw : s.cmdWaits c = false) (hc : c.code = 1) : exec (.ctxLoad p) s = .next (
    if c.arg 0 = 0 ∨ c.arg 0 ≥ 4096 then s.cmdDone p 2
    else if (mget ({} : Ctx) s.ctxs (c.arg 0)).killing then s
    else if (parseCtx (s.readMem (s.hub.ctxtab + 256 * c.arg 0) 256)).ok (s.readMem (s.hub.ctxtab + 256 * c.arg 0) 256) then
      ({ s with ctxs := mput s.ctxs (c.arg 0) (s.loadedCtx c) }).cmdDone p 0
    else (s.addErr (c.arg 0) .descriptor).cmdDone p 2) := by
  simp only [exec, execCtxLoad, hubCmd_of hq hw hc]
  rfl

theorem exec_ctxKill (hq : (s.port p).queue = c :: rest) (hw : s.cmdWaits c = false) (hc : c.code = 6) {x : Ctx}
    (hx : s.loaded? (c.arg 0) = some x) :
    let u := ({ s with ctxs := mupd s.ctxs (c.arg 0) (fun c => { c with killing := true, live := false }) }).killFrames (c.arg 0)
    let v := (u.performKill (c.arg 0)).endLaunches (c.arg 0)
    (u.killWaits (c.arg 0) = true → exec (.ctxKill p) s = .next u) ∧
    (u.killWaits (c.arg 0) = false → (∃ e ∈ v.launches, e.2.ctx = c.arg 0) → exec (.ctxKill p) s = .next v) ∧
    (u.killWaits (c.arg 0) = false → (∀ e ∈ v.launches, e.2.ctx ≠ c.arg 0) → exec (.ctxKill p) s = .next ((v.endCtx (c.arg 0)).cmdDone p 0)) := by
  intro u v
  have hexec : exec (.ctxKill p) s = .next (if u.killWaits (c.arg 0) then u
      else if v.launches.any (fun e => e.2.ctx == c.arg 0) then v else (v.endCtx (c.arg 0)).cmdDone p 0) := by
    simp only [exec, execCtxKill, hubCtxCmd_some hq hw hc hx]
    rfl
  rw [hexec]
  refine ⟨fun h => ?_, fun h hl => ?_, fun h hl => ?_⟩
  · rw [if_pos h]
  · rw [if_neg (by simp [h]), if_pos (by simpa using hl)]
  · rw [if_neg (by simp [h]), if_neg (by simpa using hl)]

/-- A GROUP_RELEASE of the group found, with its outcome. -/
def State.releaseBy (s : State) (p : Nat) : Option (Nat × Group) → Nat → State
  | some (gid, _), 0 => (s.updGrp gid (fun g => g.returnTrap .retry)).cmdDone p 0
  | some (gid, _), 1 => (s.updGrp gid (fun g => g.returnTrap .skip)).cmdDone p 0
  | some (gid, g), 2 =>
    ((s.updGrp gid (fun g => g.returnTrap .exit)).endLanes gid (match g.trapq with | t :: _ => t.run | [] => 0)).cmdDone p 0
  | _, _ => s.cmdDone p 2

theorem releaseBy_refused {who : Option (Nat × Group)} {n : Nat} (h : who = none ∨ 2 < n) : s.releaseBy p who n = s.cmdDone p 2 := by
  unfold State.releaseBy
  split
  · simp at h
  · simp at h
  · simp at h
  · rfl

theorem exec_groupRelease (hq : (s.port p).queue = c :: rest) (hw : s.cmdWaits c = false) (hc : c.code = 7) {x : Ctx}
    (hx : s.loaded? (c.arg 0) = some x) : exec (.groupRelease p) s =
      .next (s.releaseBy p (s.groupNamed (c.arg 0) (c.arg 1) (fun g => (g.held || g.dbgHeld) && !g.trapq.isEmpty)) (c.arg 2)) := by
  simp only [exec, execGroupRelease, hubCtxCmd_some hq hw hc hx]
  rfl

/-- A FAULT_DONE for entry `e` of the group found, with its outcome. -/
def State.faultBy (s : State) (p e : Nat) : Option (Nat × Group) → Nat → State
  | none, _ => s.cmdDone p 2
  | some (gid, _), 0 =>
    ((s.updGrp gid (fun g => { g with log := mupd g.log e (fun x => { x with lanes := x.lanes.map (fun l => (l.1, { l.2 with res := true })) }) })).refreshRecord gid).cmdDone
      p 0
  | some (gid, g), 1 => if g.reissue = some e then s.cmdDone p 2 else (s.unresolvable gid e g (mget {} g.log e)).cmdDone p 0
  | some _, _ => s.cmdDone p 2

theorem faultBy_refused {who : Option (Nat × Group)} {e n : Nat} (h : who = none ∨ 1 < n) : s.faultBy p e who n = s.cmdDone p 2 := by
  unfold State.faultBy
  split
  · rfl
  · simp at h
  · simp at h
  · rfl

theorem exec_faultDone (hq : (s.port p).queue = c :: rest) (hw : s.cmdWaits c = false) (hc : c.code = 8) {x : Ctx}
    (hx : s.loaded? (c.arg 0) = some x) : exec (.faultDone p) s =
      .next (s.faultBy p (c.arg 2) (s.groupNamed (c.arg 0) (c.arg 1) (fun g => c.arg 2 < 4 && (mfind g.log (c.arg 2)).isSome)) (c.arg 3)) := by
  simp only [exec, execFaultDone, hubCtxCmd_some hq hw hc hx]
  generalize s.groupNamed _ _ _ = who, c.arg 3 = n
  rcases who with _ | ⟨gid, g⟩
  · rfl
  · rcases n with _ | _ | n <;> rfl

/-- A HARVEST is over once its completion word has been stored. -/
def State.harvestTold (p : Nat) : UnitRes × State → State
  | (.wait, s) => s
  | (_, s) => (s.forget (cmdTag p)).cmdDone p 0

/-- What a HARVEST does once its range has been read: `true` with the state in which it is done. -/
def State.harvestEnds (c : Command) (p : Nat) : Bool × State → State
  | (false, s) => s
  | (true, s) =>
    if (s.updPort p (fun x => { x with busy := true })).now < ((s.updPort p (fun x => { x with busy := true })).port p).tc + guardTicks .system then
      s.updPort p (fun x => { x with busy := true })
    else State.harvestTold p ((s.updPort p (fun x => { x with busy := true })).ask
      { tag := cmdTag p, agent := hubAgent, key := c.arg 3, width := 8, kind := .store, ty := .b64, data := 1 })

theorem exec_harvest (hq : (s.port p).queue = c :: rest) (hw : s.cmdWaits c = false) (hc : c.code = 3) : exec (.harvest p) s =
    .next (State.harvestEnds c p (if (s.port p).busy then (true, s)
      else s.harvestRange p (c.arg 0) (c.arg 1 + c.arg 2) (c.arg 2 / 4096 + 2) ((s.port p).pos.getD (c.arg 1)))) := by
  simp only [exec, execHarvest, hubCmd_of hq hw hc]
  rfl

/-- The local number of a queue that a context takes (R29). -/
def State.lqNum (s : State) (c : Command) : Nat :=
  if (mget ({} : LQ) s.lqs (c.arg 0)).ctx = c.arg 1 then (mget ({} : LQ) s.lqs (c.arg 0)).num
  else firstFree (s.numsOf (c.arg 1) (c.arg 0)) 64 0

/-- The queue that an LQ_SET assigns. -/
def State.lqOf (s : State) (c : Command) : LQ :=
  { ctx := c.arg 1, num := s.lqNum c, ring := BitVec.ofNat 64 (c.arg 2), slots := bits (c.arg 3) 0 16, ceil := bits (c.arg 3) 16 3,
    headVa := BitVec.ofNat 64 (c.arg 4), tailVa := BitVec.ofNat 64 (c.arg 5) }

/-- A queue is put in its place. -/
def State.lqPut (c : Command) (p : Nat) (s : State) (l : LQ) : State :=
  { (s.forget (takeTag (c.arg 0))) with lqs := mput s.lqs (c.arg 0) l }.forget (cmdTag p)

/-- An LQ_SET once it has read the queue's head word. -/
def State.lqSetEnds (c : Command) (p : Nat) (l : LQ) : SvcRes × State → State
  | (.wait, s) => s
  | (.ok h _, s) => (State.lqPut c p s { l with head := h }).cmdDone p 0
  | (.fail o, s) => ((State.lqPut c p s l).stopQueue (c.arg 0) l l.headVa.toNat o).cmdDone p 0

theorem exec_lqSet (hq : (s.port p).queue = c :: rest) (hw : s.cmdWaits c = false) (hc : c.code = 0x0A) : exec (.lqSet p) s = .next (
    if c.arg 0 ≥ 1024 then s.cmdDone p 2
    else if (mget ({} : LQ) s.lqs (c.arg 0)).cur.isSome then s
    else if c.arg 1 = 0 then ({ (s.forget (takeTag (c.arg 0))) with lqs := mdel s.lqs (c.arg 0) }).cmdDone p 0
    else if (s.loaded? (c.arg 1)).isNone ∨ s.lqNum c ≥ 64 ∨ bits (c.arg 3) 0 16 < 16 ∨ bits (c.arg 3) 0 16 > 4096 ∨ 4096 % bits (c.arg 3) 0 16 ≠ 0 then
      s.cmdDone p 2
    else State.lqSetEnds c p (s.lqOf c) (s.svcAccess (cmdTag p) none (c.arg 1) (s.lqOf c).headVa 8 none)) := by
  simp only [exec, execLqSet, hubCmd_of hq hw hc]
  rfl

/-- An LQ_RESET once it has written the queue's head word. -/
def State.lqResetEnds (c : Command) (p : Nat) (lq : LQ) (tail : Nat) : SvcRes × State → State
  | (.wait, s) => s
  | (.fail o, s) => ((s.forget (cmdTag p)).stopQueue (c.arg 0) lq lq.headVa.toNat o).cmdDone p 0
  | (.ok _ _, s) => ({ (s.forget (cmdTag p)) with lqs := mupd s.lqs (c.arg 0) (fun l => { l with head := tail, stopped := false }) }).cmdDone p 0

/-- An LQ_RESET once it has read the queue's tail word. -/
def State.lqResetTail (c : Command) (p : Nat) (lq : LQ) : SvcRes × State → State
  | (.wait, s) => s
  | (.fail o, s) => ((s.forget (cmdTag p)).stopQueue (c.arg 0) lq lq.tailVa.toNat o).cmdDone p 0
  | (.ok tail _, s) => State.lqResetEnds c p lq tail (s.svcAccess (cmdTag p) none lq.ctx lq.headVa 8 (some tail))

theorem exec_lqReset (hq : (s.port p).queue = c :: rest) (hw : s.cmdWaits c = false) (hc : c.code = 0x0B) :
    (mfind s.lqs (c.arg 0) = none → exec (.lqReset p) s = .next (s.cmdDone p 2)) ∧
    ∀ lq, mfind s.lqs (c.arg 0) = some lq → exec (.lqReset p) s = .next (
      if !lq.stopped then s.cmdDone p 2 else State.lqResetTail c p lq (s.svcAccess (cmdTag p) none lq.ctx lq.tailVa 8 none)) := by
  simp only [exec, execLqReset, hubCmd_of hq hw hc]
  refine ⟨fun h => ?_, fun lq h => ?_⟩
  · rw [h]
  · rw [h]
    rfl

end

/-- Settles O51. -/
theorem hubCommands : Obligations.HubCommands := by
  refine ⟨fun s p c rest hq hw => ?_, fun s p k c rest hq hroom => ?_⟩
  · intro reports id busy
    refine ⟨fun hc => ?_, fun hc fin t hr => ?_, fun hn => ?_, fun x hx => ?_, fun hc => ?_, fun hc => ?_, fun hc => ?_, fun hc => ?_⟩
    · intro x d
      rw [exec_ctxLoad hq hw hc]
      refine ⟨fun h => ?_, fun h1 h2 hk => ?_, fun h1 h2 hk => ⟨fun hok => ?_, fun hok => ?_⟩⟩
      · rw [if_pos h]
      · rw [if_neg (by omega), if_pos hk]
      · rw [if_neg (by omega), if_neg (Bool.eq_false_iff.mp hk), if_neg (Bool.eq_false_iff.mp hok)]
      · rw [if_neg (by omega), if_neg (Bool.eq_false_iff.mp hk), if_pos hok]
        exact ⟨_, _, rfl, mfind_mput_same _ _ _, fun j hj => mfind_mput_other _ _ (Ne.symm hj), rfl, rfl, rfl, rfl, rfl, rfl, rfl, rfl, rfl, rfl, rfl,
          rfl, rfl, rfl, rfl⟩
    · intro u
      rw [exec_harvest hq hw hc, show ite _ _ _ = _ from hr]
      refine ⟨?_, ?_, ?_⟩
      · rintro rfl
        rfl
      · rintro rfl hlt
        exact congrArg _ (if_pos hlt)
      · rintro rfl hge r v hask
        have hend : State.harvestEnds c p (true, t) = State.harvestTold p (r, v) := (if_neg (Nat.not_lt.mpr hge)).trans (congrArg _ hask)
        rw [hend]
        refine ⟨?_, fun hr => ?_⟩
        · rintro rfl
          rfl
        · cases r
          case wait => exact absurd rfl hr
          all_goals rfl
    · exact ⟨fun hc => by simp only [exec, execTlbInval, hubCtxCmd_none hq hw hc hn, reports],
        fun hc => by simp only [exec, execCtxPreempt, hubCtxCmd_none hq hw hc hn, reports],
        fun hc => by simp only [exec, execCtxResume, hubCtxCmd_none hq hw hc hn, reports],
        fun hc => by simp only [exec, execCtxKill, hubCtxCmd_none hq hw hc hn, reports],
        fun hc => by simp only [exec, execGroupRelease, hubCtxCmd_none hq hw hc hn, reports],
        fun hc => by simp only [exec, execFaultDone, hubCtxCmd_none hq hw hc hn, reports],
        fun hc => by simp only [exec, execIcacheInval, hubCtxCmd_none hq hw hc hn, reports]⟩
    · refine ⟨fun hc => ?_, fun hc => ?_, fun hc => ?_, fun hc => ?_, fun hc => ?_, fun hc => ?_, fun hc => ?_⟩
      · simp only [exec, execTlbInval, hubCtxCmd_some hq hw hc hx]
        exact apply_ite Host.Outcome.next _ _ _
      · simp only [exec, execCtxPreempt, hubCtxCmd_some hq hw hc hx]
        exact apply_ite Host.Outcome.next _ _ _
      · simp only [exec, execCtxResume, hubCtxCmd_some hq hw hc hx]
        rfl
      · exact exec_ctxKill hq hw hc hx
      · rw [exec_groupRelease hq hw hc hx]
        refine ⟨fun h => ?_, fun gid g h => ⟨fun h2 => ?_, fun h2 => ?_, fun t ts h2 ht => ?_⟩⟩
        · rw [releaseBy_refused h]
        · rw [show s.groupNamed _ _ _ = _ from h, h2]
          rfl
        · rw [show s.groupNamed _ _ _ = _ from h, h2]
          rfl
        · rw [show s.groupNamed _ _ _ = _ from h, h2]
          simp only [State.releaseBy, ht, reports]
      · rw [exec_faultDone hq hw hc hx]
        refine ⟨fun h => ?_, fun gid g h => ⟨fun h2 => ?_, fun h2 hre => ?_⟩⟩
        · rw [faultBy_refused h]
        · rw [show s.groupNamed _ _ _ = _ from h, h2]
          rfl
        · rw [show s.groupNamed _ _ _ = _ from h, h2]
          simp only [State.faultBy, if_neg hre, reports]
      · simp only [exec, execIcacheInval, hubCtxCmd_some hq hw hc hx]
        rfl
    · simp only [exec, execSyscDone, hubCmd_of hq hw hc]
      refine ⟨fun h => ?_, fun gid g h => ?_⟩
      · rw [show s.syscGroup (c.arg 0) = none from h]
      · rw [show s.syscGroup (c.arg 0) = _ from h]
    · intro ctx slots old num legal l put
      have hslots : bits (c.arg 3) 0 16 = slots := congrArg (· % 2 ^ 16) (Nat.div_one _)
      have hl : s.lqOf c = l := by simp only [State.lqOf, hslots]; rfl
      have hlegal : ((s.loaded? (c.arg 1)).isNone = true ∨ s.lqNum c ≥ 64 ∨ slots < 16 ∨ slots > 4096 ∨ 4096 % slots ≠ 0) ↔ ¬ legal := by
        have hnum : s.lqNum c = num := rfl
        have hnone : (s.loaded? (c.arg 1)).isNone = true ↔ ¬ (s.loaded? ctx).isSome = true := by simp [ctx]
        rw [hnum, hnone]
        constructor
        · rintro (h | h) ⟨hs, hn, hlo, hhi, hdiv⟩
          · exact h hs
          · omega
        · intro h
          by_contra hno
          simp only [not_or, not_not] at hno
          obtain ⟨hs, hn, hlo, hhi, hdiv⟩ := hno
          exact h ⟨hs, by omega, by omega, by omega, hdiv⟩
      rw [exec_lqSet hq hw hc, hslots, hl]
      refine ⟨fun h => ?_, fun h hcur => ?_, fun h hcur h0 => ?_, fun h hcur h0 hbad => ?_, fun h hcur h0 hok r u hr => ?_⟩
      · rw [if_pos h]
      · rw [if_neg (by omega), if_pos (Option.isSome_iff_ne_none.mpr hcur)]
      all_goals
        have hfree : ¬ (mget ({} : LQ) s.lqs (c.arg 0)).cur.isSome = true := by rw [show (mget ({} : LQ) s.lqs (c.arg 0)).cur = none from hcur]; simp
      · rw [if_neg (by omega), if_neg hfree, if_pos h0]
      · rw [if_neg (by omega), if_neg hfree, if_neg h0, if_pos (hlegal.mpr hbad)]
      · rw [if_neg (by omega), if_neg hfree, if_neg h0, if_neg (fun hbad => hlegal.mp hbad hok), hr]
        cases r <;> rfl
    · obtain ⟨hnone, hsome⟩ := exec_lqReset hq hw hc
      refine ⟨hnone, fun lq hlq => ⟨fun h => ?_, fun h tail t1 v t2 s1 s2 h1 h2 => ?_⟩⟩
      · rw [hsome lq hlq, if_pos (by simp [h])]
      · rw [hsome lq hlq, if_neg (by simp [h]), h1, State.lqResetTail, h2]
        rfl
    · simp only [exec, execUnknownCommand, hq]
      rw [if_pos hc]
  · intro t
    rcases hh : (s.port p).held with _ | ⟨h, hs⟩
    · have ht : t = s.updPort p (fun x => x.finished c.tag k rest) := cmdDone_of_noneHeld hq hh k
      have hport : ∀ q, t.port q = if p = q then (s.port p).finished c.tag k rest else s.port q := fun q => by rw [ht, port_updPort]
      have hp : t.port p = (s.port p).finished c.tag k rest := by rw [hport, if_pos rfl]
      rw [hp]
      refine ⟨rfl, rfl, rfl, rfl, fun q hne => by rw [hport, if_neg (Ne.symm hne)], ?_⟩
      rw [ht]
      exact ⟨rfl, rfl, rfl, fun _ => ⟨rfl, rfl⟩, nofun⟩
    · have ht : t = _ := cmdDone_of_held hq hh hroom k
      have hrest := issueCmd_rest ((s.updPort p (fun x => x.finished c.tag k rest)).updPort p (fun x => { x with held := hs })) p h
      have hport : ∀ q, t.port q = if p = q then
          { (s.port p).finished c.tag k rest with held := hs, queue := rest ++ [{ h with seq := s.nextId }] } else s.port q := by
        intro q
        rw [ht, issueCmd_port]
        simp only [port_updPort]
        split <;> rfl
      have hp := hport p
      rw [if_pos rfl] at hp
      rw [hp]
      refine ⟨rfl, rfl, rfl, rfl, fun q hne => by rw [hport, if_neg (Ne.symm hne)], ?_⟩
      rw [ht]
      exact ⟨(congrArg State.mem hrest :), (congrArg State.groups hrest :), (congrArg State.ops hrest :), nofun, fun h' hs' he => by
        obtain ⟨rfl, rfl⟩ := List.cons.inj he
        exact ⟨rfl, rfl⟩⟩

end Sys2Proof.Machine
end

/-! The proof of `Obligations.HubRegisters` (R226, R349–R352, R376, R379, R380). -/

section
namespace Sys2Proof.Machine

/-! ### The hub window (R349–R351) -/

theorem exec_hubRegisterWrite (off n v : Nat) (s : State) : exec (.hubRegisterWrite off n v) s =
    .next (if n = 8 ∧ off % 8 = 0 then s.writeWord off (v % 2 ^ 64) else s.refuseReg) := rfl

theorem writeWord_beyond {off : Nat} (h : 0x4C00000 ≤ off) (s : State) (v : Nat) : s.writeWord off v = s.refuseReg := by
  unfold State.writeWord
  rw [if_neg (by omega), if_neg (by omega), if_neg (by omega), if_neg (by omega), if_neg (by omega), if_neg (by omega), if_neg (by omega),
    if_neg (by omega)]

theorem writeWord_dbg {k : Nat} (hk : k < 192) (s : State) (v : Nat) : s.writeWord (0x3010000 + 0x200 * k) v = s.writeDbg k 0 v := by
  have hcore : (0x3010000 + 0x200 * k - 0x3010000) / 0x200 = k := by omega
  have hreg : (0x3010000 + 0x200 * k) % 0x200 = 0 := by omega
  unfold State.writeWord
  rw [if_neg (by omega), if_neg (by omega), if_neg (by omega), if_neg (by omega), if_neg (by omega), if_neg (by omega), if_pos (by omega), hcore,
    hreg]

/-- A read of SL_DIRENT0 latches the entry that shows. -/
def State.latchEntry (s : State) (k : Nat) : State :=
  s.updSlice k (fun x => { x with latch := some (match s.dirAt k (s.slice k).diridx with | some e => e.2.word e.1 | none => 0) })

theorem exec_slDirent0Read {k : Nat} (hk : k < 96) (s : State) : exec (.slDirent0Read k) s = .next (s.latchEntry k) := by
  simp only [exec, execSlDirent0Read, if_pos hk]
  rfl

/-- What a read of the window latches first: SL_DIRENT0 latches the entry that shows. -/
def State.latchRead (s : State) (off : Nat) : State :=
  if 0x1000000 ≤ off ∧ off < 0x1600000 ∧ off % 0x10000 = 0x8020 then s.latchEntry ((off - 0x1000000) / 0x10000) else s

/-- The state in which a read of the window finds its word, as the model writes it. -/
def State.latchExec (s : State) (off : Nat) : State :=
  if 0x1000000 ≤ off ∧ off < 0x1600000 ∧ off % 0x10000 = 0x8020 then
    match exec (.slDirent0Read ((off - 0x1000000) / 0x10000)) s with | .next t => t | _ => s
  else s

theorem latchExec_eq (s : State) (off : Nat) : s.latchExec off = s.latchRead off := by
  unfold State.latchExec State.latchRead
  split
  next hr => rw [exec_slDirent0Read (by omega)]
  next => rfl

/-- What a read of an aligned word answers, in the state in which it finds its word. -/
def State.answerRead (u : State) (off : Nat) : Nat × State :=
  match u.windowWord off with
  | some v => (v, u)
  | none => (2 ^ 64 - 1, u.refuseReg)

theorem readWindow_eq (s : State) (off n : Nat) : s.readWindow off n =
    if n = 8 ∧ off % 8 = 0 then (s.latchRead off).answerRead off else (2 ^ (8 * n) - 1, s.refuseReg) := by
  rw [← latchExec_eq]
  rfl

/-! ### The directory window (R352) -/

theorem exec_slDiridxWrite {k : Nat} (hk : k < 96) (s : State) (v : Nat) : exec (.slDiridxWrite k v) s =
    .next (s.updSlice k (fun x => { x with diridx := v % 32768, latch := none })) := by
  simp only [exec, execSlDiridxWrite, if_pos hk]
  rfl

theorem exec_slDirpaWrite {k : Nat} (hk : k < 96) (s : State) (v : Nat) : exec (.slDirpaWrite k v) s = .next (s.writeDirPa k v) := by
  simp only [exec, execSlDirpaWrite, if_pos hk]

/-- What a write of SL_DIRPA selects: the entry of its region where the slice holds one. -/
def State.dirPaTo (s : State) (k pa : Nat) : Option Dir → State
  | some d => s.updSlice k (fun x =>
      { x with dirpa := pa, dirmiss := false, latch := none, diridx := (Config.dirIndex k (Fin.ofNat 32768 d.slot)).val })
  | none => s.updSlice k (fun x => { x with dirpa := pa, dirmiss := true, latch := none })

theorem writeDirPa_eq (s : State) (k v : Nat) : s.writeDirPa k v =
    s.dirPaTo k (v / 2 ^ 10 % 2 ^ 42 * 2 ^ 10)
      (if s.regionSlice (v / 2 ^ 10 % 2 ^ 42 * 2 ^ 10 / 1024) = k then mfind s.dir (v / 2 ^ 10 % 2 ^ 42 * 2 ^ 10 / 1024) else none) := rfl

/-! ### The trace unit (R376, R379, R380) -/

theorem reselect_none {s : State} {core : Nat} (h : (s.core core).dbg.sel = none) :
    s.reselect core = s.updDbg core (fun d => { d with sel := s.selectGroup core }) := by
  simp [State.reselect, h]

@[simp] theorem dbg_updDbg (s : State) (core : Nat) (f : Dbg → Dbg) : ((s.updDbg core f).core core).dbg = f (s.core core).dbg := by
  rw [State.updDbg, core_updCore, if_pos rfl]

/-- A change of a debug unit depends on what it makes of the unit as it stands. -/
theorem updDbg_congr {s : State} {core : Nat} {f f' : Dbg → Dbg} (h : f (s.core core).dbg = f' (s.core core).dbg) :
    s.updDbg core f = s.updDbg core f' := by
  simp only [State.updDbg, State.updCore, h]

theorem selectGroup_off {s : State} {core : Nat} (h : (s.core core).dbg.traceOn = false) : s.selectGroup core = none := by
  simp [State.selectGroup, h]

theorem selectGroup_one {s : State} {core gid : Nat} {g : Group} (hg : s.groups = [(gid, g)]) (hon : (s.core core).dbg.traceOn = true)
    (hcore : g.core = core) (hin : (mget ({} : Ctx) s.ctxs g.ctx0).out = false) (hmatch : s.selMatch (s.core core).dbg g = true) :
    s.selectGroup core = some gid := by
  simp only [State.selectGroup, if_pos hon, hg, List.find?_cons, hcore, hmatch, hin, BEq.rfl]
  rfl

/-- Where the group's context is traced and a lane is active, TRMARK writes its record; else it leaves the trace unit alone. -/
def State.marked (s : State) (x : Issue) (a : Opnd) (imm : BitVec 32) : State :=
  if x.act ≠ 0 && s.traced x.g then
    s.trace x.g.core (traceWord (s.traceId x.g 3) x.pc.toNat imm.toNat (x.g.opnd a 1 x.lead) x.act.toNat 0)
  else s

theorem exec_trmark {h : Hdr} {a : Opnd} {imm : BitVec 32} {s : State} {x : Issue} (hgo : s.issueOf (.trmark h a imm) false = .go x) :
    exec (.trmark h a imm) s = .next (x.done (s.marked x a imm) id) :=
  exec_of_go (eff := fun x s => x.done (s.marked x a imm) id) hgo rfl

theorem marked_off {s : State} {x : Issue} (h : x.act = 0 ∨ s.traced x.g = false) (a : Opnd) (imm : BitVec 32) : s.marked x a imm = s := by
  unfold State.marked
  rw [if_neg]
  obtain h | h := h <;> simp [h]

theorem marked_on {s : State} {x : Issue} (ha : x.act ≠ 0) (ht : s.traced x.g = true) (a : Opnd) (imm : BitVec 32) : s.marked x a imm =
    s.trace x.g.core (traceWord (s.traceId x.g 3) x.pc.toNat imm.toNat (x.g.opnd a 1 x.lead) x.act.toNat 0) :=
  if_pos (by rw [decide_eq_true ha, ht]; rfl)

/-- The identity of a GAP record: its core's, and no group's. -/
def State.gapId (s : State) (k : Nat) : TraceId :=
  { kind := 5, cluster := k / 4, core := k, ctx := (s.core k).dbg.traceCtx, regt := s.now - mget 0 s.lagCl (k / 4),
    name := mget 0 s.dbgNames (s.core k).dbg.traceCtx, gang := 0, team := 0, grp := 0 }

/-- What a waiting GAP record does in the slot at its position: a page that fails is skipped, else the record is written. -/
def State.gapTo (s : State) (k : Nat) (g : Gap) : Option (Nat × Leaf) → State
  | none => s.updDbg k (fun d => { d with gap := some { g with
      pos := (g.pos / 64 + 1) * 64, pages := g.pages + 1,
      va := if g.pages = 0 then (s.core k).dbg.slotVa g.pos / 4096 * 4096 else g.va } })
  | some (key, l) => (s.putRecord k (s.core k).dbg g.pos key l (traceWord (s.gapId k) g.dropped g.first g.pages g.regt g.va)).updDbg k
      (fun d => { d with gap := none })

/-- `writeGap`, by the gap record that waits. -/
def State.gapStep (s : State) (k : Nat) : Option Gap → State
  | none => s
  | some g => if (s.core k).dbg.slots = 0 ∨ g.pos - (s.core k).dbg.trhead ≥ (s.core k).dbg.slots then s
      else s.gapTo k g (s.slotKey (s.core k).dbg g.pos)

theorem exec_traceGapWrite (s : State) (k : Nat) : exec (.traceGapWrite k) s = .next (s.gapStep k (s.core k).dbg.gap) := rfl

/-- Settles O52. -/
theorem hubRegisters : Obligations.HubRegisters := by
  refine ⟨fun s off n v => ?_, fun s off n => ?_, fun s k v hk => ⟨exec_slDiridxWrite hk s v, ⟨fun h => ?_, fun d hslice hd => ?_⟩, fun h => ?_, fun r d h => ?_⟩,
    fun s core v => ?_, fun h a imm s x hgo => ⟨fun hno => ?_, fun ha htr => ?_⟩, fun s core => ⟨fun h => ?_, fun g h hno => ?_, fun g h hs hroom => ⟨fun hk => ?_, fun key l hk => ?_⟩⟩⟩
  · intro counted
    simp only [exec_hubRegisterWrite]
    refine ⟨fun h => ?_, fun h => ?_, ?_, rfl, rfl, fun k hk => ?_⟩
    · rw [if_neg (by omega)]
      rfl
    · rw [writeWord_beyond h]
      split <;> rfl
    · rfl
    · rw [if_pos ⟨trivial, by omega⟩, writeWord_dbg hk]
      rfl
  · rw [readWindow_eq]
    rfl
  · rw [exec_slDirpaWrite hk, writeDirPa_eq]
    obtain hslice | hnone := h
    · rw [if_neg hslice]
      rfl
    · rw [hnone, ite_self]
      rfl
  · rw [exec_slDirpaWrite hk, writeDirPa_eq, if_pos hslice, hd]
    rfl
  · rw [exec_slDirent0Read hk, State.latchEntry, h]
  · rw [exec_slDirent0Read hk, State.latchEntry, h]
  · intro u
    refine ⟨congrArg Host.Outcome.next (reselect_none (congrArg Dbg.sel (dbg_updDbg s core _))), selectGroup_off, fun gid g => selectGroup_one⟩
  · rw [exec_trmark hgo, marked_off hno]
    exact goes_on (grp_of_issueOf hgo)
  · rw [exec_trmark hgo, marked_on ha htr]
  · rw [exec_traceGapWrite, h]
    rfl
  · rw [exec_traceGapWrite, h]
    exact congrArg Host.Outcome.next (if_pos hno)
  · rw [exec_traceGapWrite, h, State.gapStep, if_neg (by omega), hk]
    exact congrArg Host.Outcome.next (by rw [State.gapTo]; exact updDbg_congr rfl)
  · rw [exec_traceGapWrite, h, State.gapStep, if_neg (by omega), hk]
    rfl

end Sys2Proof.Machine
end

/-! The proof of `Obligations.MatrixIssue` (R270, R278, R279, R285). -/

section
namespace Sys2Proof.Machine

/-! ### Changes of several tiles of one core -/

/-- From `u` to `v` only tiles of `core` have changed. -/
structure TilesChanged (u v : State) (core : Nat) : Prop where
  rest : { v with cores := u.cores } = u
  same : { v.core core with tiles := (u.core core).tiles } = u.core core
  others : ∀ c, c ≠ core → v.core c = u.core c

theorem tilesChanged_foldl (core : Nat) (f : Tile → Tile) (ns : List Nat) (s : State) :
    TilesChanged s (ns.foldl (fun s n => s.updTile core n f) s) core := by
  induction ns generalizing s with
  | nil => exact ⟨rfl, rfl, fun _ _ => rfl⟩
  | cons n ns ih =>
    obtain ⟨hrest, hcore, hothers⟩ := ih (s.updTile core n f)
    refine ⟨(congrArg (fun t : State => { t with cores := s.cores }) hrest :), ?_, fun c hc => ?_⟩
    · have hstep : { (s.updTile core n f).core core with tiles := (s.core core).tiles } = s.core core := by
        rw [State.updTile, core_updCore, if_pos rfl]
      exact (congrArg (fun x : CoreSt => { x with tiles := (s.core core).tiles }) hcore).trans hstep
    · exact (hothers c hc).trans ((core_updCore ..).trans (if_neg hc))

/-- What the change of a tile keeps, the changes of several keep. -/
theorem keeps_foldl {α : Type} {core : Nat} {f : Tile → Tile} {q : Tile → α} (hq : ∀ x, q (f x) = q x) (ns : List Nat) (s : State) (c j : Nat) :
    q ((ns.foldl (fun s n => s.updTile core n f) s).tile c j) = q (s.tile c j) := by
  induction ns generalizing s with
  | nil => rfl
  | cons n ns ih =>
    refine (ih (s.updTile core n f)).trans ?_
    rw [tile_updTile]
    split
    next h => rw [hq, h.1, h.2]
    next => rfl

/-- What the change of a tile brings about, holds of each tile that is changed. -/
theorem brings_foldl {core : Nat} {f : Tile → Tile} {p : Tile → Prop} (hp : ∀ x, p (f x)) (ns : List Nat) (s : State) {n : Nat}
    (hn : n ∈ ns ∨ p (s.tile core n)) : p ((ns.foldl (fun s n => s.updTile core n f) s).tile core n) := by
  induction ns generalizing s with
  | nil => exact hn.elim (fun h => by cases h) id
  | cons m ns ih =>
    refine ih (s.updTile core m f) (or_iff_not_imp_left.mpr fun hnot => ?_)
    rw [tile_updTile]
    split
    next => exact hp _
    next h => exact hn.elim (fun hmem => (List.mem_cons.mp hmem).elim (fun heq => absurd ⟨rfl, heq⟩ h) fun h' => absurd h' hnot) id

/-! ### Entering the queues (R270, R279) -/

/-- From `s` to `t` operation `op` has entered the queue of one core. -/
structure Entered (s t : State) (gang op : Nat) (m : MOp) (core : Nat) : Prop where
  rest : { t with cores := s.cores } = s
  queue : (t.core core).queue = (s.core core).queue ++ [{ op := op, gang := gang, m := m, scale := s.scaleFor core m }]
  dests : ∀ n ∈ m.dests, (t.tile core n).st = .ready ∧ (t.tile core n).sat = false
  data : ∀ c n, (t.tile c n).data = (s.tile c n).data
  others : ∀ c, c ≠ core → t.core c = s.core c

/-- The tiles of an operation that enters a queue: its inputs' waits end and its destinations are READY. -/
def State.enterTiles (s : State) (m : MOp) (core : Nat) : State :=
  m.dests.foldl (fun s t => s.updTile core t (fun x => { x with st := .ready, sat := false, stamps := {} }))
    (s.stamp core (m.inputs ++ (s.scaleFor core m).toList) (fun x t => { x with wait := first x.wait t }))

theorem entered_enterQueue (s : State) (gang op : Nat) (m : MOp) (core : Nat) : Entered s (s.enterQueue gang op m core) gang op m core := by
  have heq : s.enterQueue gang op m core = (s.enterTiles m core).updCore core
      (fun c => { c with queue := c.queue ++ [{ op := op, gang := gang, m := m, scale := s.scaleFor core m }] }) := rfl
  have hstamp := tilesChanged_foldl core (fun x => { x with stamps := { x.stamps with wait := first x.stamps.wait (s.coreTime core) } })
    (m.inputs ++ (s.scaleFor core m).toList) s
  have hdests := tilesChanged_foldl core (fun x => { x with st := .ready, sat := false, stamps := {} }) m.dests
    (s.stamp core (m.inputs ++ (s.scaleFor core m).toList) (fun x t => { x with wait := first x.wait t }))
  have hqueue : ((s.enterTiles m core).core core).queue = (s.core core).queue :=
    (congrArg CoreSt.queue hdests.same :).trans (congrArg CoreSt.queue hstamp.same :)
  have htile : ∀ c j, (s.enterQueue gang op m core).tile c j = (s.enterTiles m core).tile c j := fun c j => by
    rw [heq]
    exact tile_updCore (f := fun c => { c with queue := c.queue ++ [{ op := op, gang := gang, m := m, scale := s.scaleFor core m }] }) (fun _ => rfl) c j
  refine ⟨?_, ?_, fun n hn => ?_, fun c n => ?_, fun c hc => ?_⟩
  · rw [heq]
    exact (congrArg (fun t : State => { t with cores := s.cores }) hdests.rest).trans hstamp.rest
  · rw [heq, core_updCore, if_pos rfl, hqueue]
  · rw [htile]
    exact brings_foldl (p := fun x => x.st = .ready ∧ x.sat = false) (fun _ => ⟨rfl, rfl⟩) m.dests _ (Or.inl hn)
  · rw [htile]
    exact (keeps_foldl (f := fun x => { x with st := .ready, sat := false, stamps := {} }) (q := Tile.data) (fun _ => rfl) m.dests _ c n).trans
      (keeps_foldl (f := fun x => { x with stamps := { x.stamps with wait := first x.stamps.wait (s.coreTime core) } }) (q := Tile.data) (fun _ => rfl)
        _ s c n)
  · rw [heq, core_updCore, if_neg hc]
    exact (hdests.others c hc).trans (hstamp.others c hc)

theorem scaleFor_congr {s t : State} {core : Nat} (h : t.core core = s.core core) (m : MOp) : t.scaleFor core m = s.scaleFor core m := by
  unfold State.scaleFor State.scaleNow
  rw [h]

theorem tile_congr {s t : State} {core : Nat} (h : t.core core = s.core core) (n : Nat) : t.tile core n = s.tile core n := by
  unfold State.tile
  rw [h]

/-- From `s` to `t` operation `op` has entered the queues of `cores`. -/
structure EnteredAll (s t : State) (gang op : Nat) (m : MOp) (cores : List Nat) : Prop where
  rest : { t with cores := s.cores } = s
  queue : ∀ c ∈ cores, (t.core c).queue = (s.core c).queue ++ [{ op := op, gang := gang, m := m, scale := s.scaleFor c m }]
  dests : ∀ c ∈ cores, ∀ n ∈ m.dests, (t.tile c n).st = .ready ∧ (t.tile c n).sat = false
  data : ∀ c n, (t.tile c n).data = (s.tile c n).data
  others : ∀ c, c ∉ cores → t.core c = s.core c

theorem enteredAll_foldl (gang op : Nat) (m : MOp) {cores : List Nat} (hnodup : cores.Nodup) (s : State) :
    EnteredAll s (cores.foldl (fun s c => s.enterQueue gang op m c) s) gang op m cores := by
  induction cores generalizing s with
  | nil => exact ⟨rfl, fun _ h => absurd h List.not_mem_nil, fun _ h => absurd h List.not_mem_nil, fun _ _ => rfl, fun _ _ => rfl⟩
  | cons k cores ih =>
    obtain ⟨hk, hnodup⟩ := List.nodup_cons.mp hnodup
    have he := entered_enterQueue s gang op m k
    have h := ih hnodup (s.enterQueue gang op m k)
    have hcore : ∀ c ∈ cores, (s.enterQueue gang op m k).core c = s.core c := fun c hc => he.others c fun heq => hk (heq ▸ hc)
    refine ⟨(congrArg (fun t : State => { t with cores := s.cores }) h.rest).trans he.rest, fun c hc => ?_, fun c hc n hn => ?_,
      fun c n => (h.data c n).trans (he.data c n), fun c hc => ?_⟩
    · obtain rfl | hc := List.mem_cons.mp hc
      · exact (congrArg CoreSt.queue (h.others c hk)).trans he.queue
      · have hq := h.queue c hc
        rwa [hcore c hc, scaleFor_congr (hcore c hc)] at hq
    · obtain rfl | hc := List.mem_cons.mp hc
      · rw [List.foldl_cons, tile_congr (h.others c hk)]
        exact he.dests n hn
      · exact h.dests c hc n hn
    · exact (h.others c (mt (List.mem_cons_of_mem k) hc)).trans (he.others c (List.ne_of_not_mem_cons hc))

/-! ### The checks of R279 -/

/-- The permutation that a multiply would use is one. -/
def PermOk (s : State) (core : Nat) (m : MOp) : Prop :=
  ∀ f c a b p, m = .mma f c a b → s.permNow core = some p → ∀ j, j < f.kt → j ∈ p.take f.kt

theorem isPerm_iff {kt : Nat} {p : List Nat} : isPerm kt p = true ↔ ∀ j, j < kt → j ∈ p.take kt := by
  simp [isPerm]

/-- The third part of check 1. -/
def State.permFault (s : State) (core : Nat) (m : MOp) : Option Nat :=
  match m with
  | .mma k _ _ _ => match s.permNow core with | some p => if isPerm k.kt p then none else some 0xFF | none => none
  | _ => none

theorem permFault_none {s : State} {core : Nat} {m : MOp} : s.permFault core m = none ↔ PermOk s core m := by
  cases m with
  | mma k c a b =>
    cases hp : s.permNow core with
    | none => simp [State.permFault, PermOk, hp]
    | some p =>
      have h : s.permFault core (.mma k c a b) = none ↔ isPerm k.kt p = true := by simp [State.permFault, hp]
      rw [h, isPerm_iff]
      constructor
      · rintro h f _ _ _ p' ⟨⟩ hp'
        rw [hp] at hp'
        obtain rfl := Option.some.inj hp'
        exact h
      · exact fun h => h k c a b p rfl hp
  | _ => simp [State.permFault, PermOk]

theorem permFault_some {s : State} {core n : Nat} {m : MOp} (h : s.permFault core m = some n) : n = 0xFF := by
  cases m with
  | mma k c a b =>
    cases hp : s.permNow core with
    | none => simp [State.permFault, hp] at h
    | some p => simp [State.permFault, hp] at h; exact h.2.symm
  | _ => simp [State.permFault] at h

/-- Check 1 of R279 in its three parts. -/
theorem mxFault_eq (s : State) (gang : Nat) (m : MOp) (team core : Nat) : s.mxFault gang m team core =
    (((m.dests ++ m.inputs).find? (fun t => (s.tile core t).team != some (gang, team))).or
      ((m.kinds.find? (fun k => !k.2)).map (·.1))).or (s.permFault core m) := by
  unfold State.mxFault
  cases (m.dests ++ m.inputs).find? (fun t => (s.tile core t).team != some (gang, team)) with
  | some t => rfl
  | none =>
    cases m.kinds.find? (fun k => !k.2) with
    | some k => rfl
    | none => cases m <;> rfl

theorem mxFault_none {s : State} {gang team core : Nat} {m : MOp} : s.mxFault gang m team core = none ↔
    (∀ n ∈ m.dests ++ m.inputs, (s.tile core n).team = some (gang, team)) ∧ (∀ k ∈ m.kinds, k.2 = true) ∧ PermOk s core m := by
  rw [mxFault_eq, Option.or_eq_none_iff, Option.or_eq_none_iff, Option.map_eq_none_iff, List.find?_eq_none, List.find?_eq_none, permFault_none,
    and_assoc]
  simp only [bne_iff_ne, ne_eq, not_not, Bool.not_eq_true', Bool.not_eq_false]

/-- Every operand whose kind is checked is a tile of the operation. -/
theorem mem_of_mem_kinds {m : MOp} {k : Nat × Bool} (h : k ∈ m.kinds) : k.1 ∈ m.dests ++ m.inputs := by
  cases m with
  | ccvt dty src sat d c =>
    simp only [MOp.kinds, List.mem_cons, List.not_mem_nil, or_false] at h
    obtain rfl | rfl := h
    · refine List.mem_append_left _ (List.mem_map.mpr ⟨0, List.mem_range.mpr ?_, rfl⟩)
      unfold ccvtTiles
      split <;> omega
    · exact List.mem_append_right _ (List.mem_singleton.mpr rfl)
  | tscl t => cases t <;> simp_all [MOp.kinds, MOp.dests, MOp.inputs]
  | tperm t => cases t <;> simp_all [MOp.kinds, MOp.dests, MOp.inputs]
  | mma k' c a b =>
    simp only [MOp.kinds, List.mem_cons, List.not_mem_nil, or_false] at h
    obtain rfl | rfl | rfl := h <;> simp [MOp.dests, MOp.inputs]
  | lutmm wb c a b =>
    simp only [MOp.kinds, List.mem_cons, List.not_mem_nil, or_false] at h
    obtain rfl | rfl | rfl := h <;> simp [MOp.dests, MOp.inputs]
  | lutbld d a =>
    simp only [MOp.kinds, List.mem_cons, List.not_mem_nil, or_false] at h
    obtain rfl | rfl := h <;> simp [MOp.dests, MOp.inputs]
  | czero c =>
    simp only [MOp.kinds, List.mem_cons, List.not_mem_nil, or_false] at h
    obtain rfl := h
    simp [MOp.dests]

theorem mxFault_some {s : State} {gang team core n : Nat} {m : MOp} (h : s.mxFault gang m team core = some n) :
    n ∈ m.dests ++ m.inputs ∨ n = 0xFF := by
  rw [mxFault_eq, Option.or_eq_some_iff, Option.or_eq_some_iff] at h
  obtain (h | ⟨-, h⟩) | ⟨-, h⟩ := h
  · exact Or.inl (List.mem_of_find?_eq_some h)
  · obtain ⟨k, hk, rfl⟩ := Option.map_eq_some_iff.mp h
    exact Or.inl (mem_of_mem_kinds (List.mem_of_find?_eq_some hk))
  · exact Or.inr (permFault_some h)

theorem mxUnmet_eq (s : State) (m : MOp) (core : Nat) : s.mxUnmet m core =
    (m.dests.find? (fun t => (s.tile core t).st != .empty)).or
      ((m.inputs ++ (s.scaleFor core m).toList).find? (fun t => (s.tile core t).st != .ready)) := by
  unfold State.mxUnmet
  cases m.dests.find? (fun t => (s.tile core t).st != .empty) <;> rfl

theorem mxUnmet_none {s : State} {core : Nat} {m : MOp} : s.mxUnmet m core = none ↔
    (∀ n ∈ m.dests, (s.tile core n).st = .empty) ∧ ∀ n ∈ m.inputs ++ (s.scaleFor core m).toList, (s.tile core n).st = .ready := by
  rw [mxUnmet_eq, Option.or_eq_none_iff, List.find?_eq_none, List.find?_eq_none]
  simp only [bne_iff_ne, ne_eq, not_not]

/-- Check 1 lets the operation through on every core. -/
def Legal (s : State) (gang : Nat) (ks : List (Nat × Nat)) (m : MOp) : Prop := ∀ k ∈ ks, s.mxFault gang m k.1 k.2 = none

/-- Check 2 lets the operation through on every core. -/
def AllReady (s : State) (ks : List (Nat × Nat)) (m : MOp) : Prop := ∀ k ∈ ks, s.mxUnmet m k.2 = none

section
variable {s : State} {gang sel : Nat} {m : MOp} {ks : List (Nat × Nat)}

theorem mxTest_fault (hsel : s.selCores gang sel = some ks) (h : ¬ Legal s gang ks m) :
    ∃ n, (n ∈ m.dests ++ m.inputs ∨ n = 0xFF) ∧ s.mxTest gang sel m = .fault n := by
  cases hf : ks.findSome? (fun c => s.mxFault gang m c.1 c.2) with
  | none => exact absurd (List.findSome?_eq_none_iff.mp hf) h
  | some n =>
    obtain ⟨k, -, hk⟩ := List.exists_of_findSome?_eq_some hf
    refine ⟨n, mxFault_some hk, ?_⟩
    simp only [State.mxTest, hsel, hf]

theorem mxTest_states (hsel : s.selCores gang sel = some ks) (hl : Legal s gang ks m) (h : ¬ AllReady s ks m) :
    ∃ n, s.mxTest gang sel m = .states n := by
  cases hf : ks.findSome? (fun c => s.mxUnmet m c.2) with
  | none => exact absurd (List.findSome?_eq_none_iff.mp hf) h
  | some n =>
    refine ⟨n, ?_⟩
    simp only [State.mxTest, hsel, List.findSome?_eq_none_iff.mpr hl, hf]

theorem mxTest_rest (hsel : s.selCores gang sel = some ks) (hl : Legal s gang ks m) (hr : AllReady s ks m) : s.mxTest gang sel m =
    if ∀ k ∈ ks, (s.seqLive k.2).length < 8 then .go (ks.map (·.2)) else .full := by
  have hall : (ks.all (fun c => decide ((s.seqLive c.2).length < 8))) = decide (∀ k ∈ ks, (s.seqLive k.2).length < 8) := by
    simp [List.all_eq]
  simp only [State.mxTest, hsel, List.findSome?_eq_none_iff.mpr hl, List.findSome?_eq_none_iff.mpr hr, hall]
  by_cases h : ∀ k ∈ ks, (s.seqLive k.2).length < 8
  · rw [if_pos h, decide_eq_true h]
    rfl
  · rw [if_neg h, decide_eq_false h]
    rfl

end

/-! ### The issue of an operation (R279) -/

/-- The operation has entered the queues and counts on mx. -/
def State.mxEnter (s : State) (x : Issue) (m : MOp) (cores : List Nat) : State :=
  (cores.foldl (fun t c => t.enterQueue x.g.gang s.nextId m c) (s.addOp x.gid (some .mx) (.seqop cores))).updGrp x.gid
    (fun g => { (g.advance 1) with block := .none })

/-- What `exec i s` is where the operation `m` is tried. -/
structure MxDoes (s : State) (x : Issue) (ks : List (Nat × Nat)) (i : Instr) (sel : Nat) (m : MOp) : Prop where
  idle : x.act = 0 → ∃ t g', exec i s = .next t ∧ OnlyGroup s t x.gid g' ∧ Stepped x.g g' x.run ∧ { g' with lanes := x.g.lanes } = x.g
  nocore : x.act ≠ 0 → s.selCores x.g.gang sel = none → exec i s = .next (s.seqFault x.gid 0x04 0xFF 0)
  fault : x.act ≠ 0 → s.selCores x.g.gang sel = some ks → ¬ Legal s x.g.gang ks m →
    ∃ n, (n ∈ m.dests ++ m.inputs ∨ n = 0xFF) ∧ exec i s = .next (s.seqFault x.gid 0x04 n 0)
  unmet : x.act ≠ 0 → s.selCores x.g.gang sel = some ks → Legal s x.g.gang ks m → ¬ AllReady s ks m →
    exec i s = .next (s.updGrp x.gid (fun g => { g with block := .seqop m sel (some s.clk) }))
  full : x.act ≠ 0 → s.selCores x.g.gang sel = some ks → Legal s x.g.gang ks m → AllReady s ks m → ¬ (∀ k ∈ ks, (s.seqLive k.2).length < 8) →
    exec i s = .next (s.updGrp x.gid (fun g => { g with block := .seqop m sel none }))
  goes : x.act ≠ 0 → s.selCores x.g.gang sel = some ks → Legal s x.g.gang ks m → AllReady s ks m → (∀ k ∈ ks, (s.seqLive k.2).length < 8) →
    exec i s = .next (s.mxEnter x m (ks.map (·.2)))

theorem mxDoes {s : State} {x : Issue} {ks : List (Nat × Nat)} {i : Instr} {sel : Nat} {m : MOp} (hne : ks ≠ [])
    (hexec : exec i s = laneInstr i false s (mxOp sel m)) (hgo : s.issueOf i false = .go x) : MxDoes s x ks i sel m := by
  have hg := grp_of_issueOf hgo
  have hidle : x.act = 0 → exec i s = .next (x.done s id) := fun ha => by rw [exec_of_go hgo hexec, mxOp, if_pos ha]
  have htry : x.act ≠ 0 → exec i s = .next (s.mxTry x.gid m sel none) := fun ha => by rw [exec_of_go hgo hexec, mxOp, if_neg ha]
  refine ⟨fun ha => ?_, fun ha hsel => ?_, fun ha hsel hl => ?_, fun ha hsel hl hr => ?_, fun ha hsel hl hr hroom => ?_,
    fun ha hsel hl hr hroom => ?_⟩
  · rw [hidle ha]
    exact goes_on hg
  · have htest : s.mxTest x.g.gang sel m = .fault 0xFF := by simp only [State.mxTest, hsel]
    rw [htry ha]
    simp only [State.mxTry, hg, htest]
  · obtain ⟨n, hn, htest⟩ := mxTest_fault hsel hl
    refine ⟨n, hn, ?_⟩
    rw [htry ha]
    simp only [State.mxTry, hg, htest]
  · obtain ⟨n, htest⟩ := mxTest_states hsel hl hr
    rw [htry ha]
    simp only [State.mxTry, hg, htest]
    rfl
  · have htest := (mxTest_rest hsel hl hr).trans (if_neg hroom)
    rw [htry ha]
    simp only [State.mxTry, hg, htest]
  · have htest := (mxTest_rest hsel hl hr).trans (if_pos hroom)
    have hnonempty : ¬ (ks.map (·.2)).isEmpty = true := by simpa using hne
    rw [htry ha]
    simp only [State.mxTry, hg, htest, if_neg hnonempty]
    rfl

/-- What entering the queues does. -/
theorem mxEnter_does {s : State} {x : Issue} (hg : s.grp? x.gid = some x.g) (m : MOp) {cores : List Nat} (hnodup : cores.Nodup) :
    ∃ t g', (Host.Outcome.next (s.mxEnter x m cores) : Out) = .next t ∧ t.grp? x.gid = some g' ∧ (∀ j, j ≠ x.gid → t.grp? j = s.grp? j) ∧
      t.mem = s.mem ∧ Stepped x.g g' 1 ∧ g'.block = .none ∧ g'.cnt = x.g.cnt.set .mx (x.g.cnt.get .mx).issue ∧
      { g' with lanes := x.g.lanes, cnt := x.g.cnt, block := x.g.block } = x.g ∧
      (∃ o, mfind t.ops s.nextId = some o ∧ o.kind = .seqop cores ∧ o.cls = some .mx ∧ o.gid = x.gid) ∧
      (∀ c ∈ cores, (t.core c).queue = (s.core c).queue ++ [{ op := s.nextId, gang := x.g.gang, m := m, scale := s.scaleFor c m }] ∧
        ∀ n ∈ m.dests, (t.tile c n).st = .ready ∧ (t.tile c n).sat = false) ∧
      (∀ c, c ∉ cores → t.core c = s.core c) ∧ ∀ c n, (t.tile c n).data = (s.tile c n).data := by
  have hadd := addOp_some hg .mx (.seqop cores)
  have hcores : (s.addOp x.gid (some .mx) (.seqop cores)).cores = s.cores := by rw [hadd]; rfl
  have hcore : ∀ c, (s.addOp x.gid (some .mx) (.seqop cores)).core c = s.core c := fun c => by rw [State.core, State.core, hcores]
  have h := enteredAll_foldl x.g.gang s.nextId m hnodup (s.addOp x.gid (some .mx) (.seqop cores))
  have hgroups : ∀ j, (cores.foldl (fun t c => t.enterQueue x.g.gang s.nextId m c) (s.addOp x.gid (some .mx) (.seqop cores))).grp? j =
      (s.addOp x.gid (some .mx) (.seqop cores)).grp? j := fun j => congrArg (fun gs => mfind gs j) (congrArg State.groups h.rest :)
  have hst := stepped_of x.g (x.g.count .mx) 1 rfl
  refine ⟨_, _, rfl, State.grp?_updGrp_same ((hgroups _).trans (grp?_addOp hg .mx _)) _, fun j hj => ?_, ?_, ⟨hst.length, hst.lane⟩, rfl, rfl, rfl,
    ⟨opOf x.g x.gid .mx (.seqop cores), ?_, rfl, rfl, rfl⟩, fun c hc => ⟨?_, h.dests c hc⟩, fun c hc => (h.others c hc).trans (hcore c), fun c n => ?_⟩
  · exact (State.grp?_updGrp_other (Ne.symm hj) _).trans ((hgroups j).trans (grp?_addOp_other hg hj .mx _))
  · exact (congrArg State.mem h.rest :).trans (by rw [hadd]; rfl)
  · refine (congrArg (fun ops => mfind ops s.nextId) (congrArg State.ops h.rest :) :).trans ?_
    rw [hadd]
    exact mfind_mput_same _ _ _
  · refine (h.queue c hc).trans ?_
    rw [hcore, scaleFor_congr (hcore c)]
  · exact (h.data c n).trans (congrArg Tile.data (tile_congr (hcore c) n))

theorem legal_iff {s : State} {gang : Nat} {ks : List (Nat × Nat)} {m : MOp} (hne : ks ≠ []) : Legal s gang ks m ↔
    (∀ p ∈ m.kinds, p.2 = true) ∧ (∀ k ∈ ks, ∀ n ∈ m.dests ++ m.inputs, (s.tile k.2 n).team = some (gang, k.1)) ∧ ∀ k ∈ ks, PermOk s k.2 m := by
  unfold Legal
  simp only [mxFault_none]
  obtain ⟨k, hk⟩ := List.exists_mem_of_ne_nil ks hne
  exact ⟨fun h => ⟨(h k hk).2.1, fun j hj => (h j hj).1, fun j hj => (h j hj).2.2⟩, fun h j hj => ⟨h.2.1 j hj, h.1, h.2.2 j hj⟩⟩

theorem allReady_iff {s : State} {ks : List (Nat × Nat)} {m : MOp} : AllReady s ks m ↔
    ∀ k ∈ ks, (∀ n ∈ m.dests, (s.tile k.2 n).st = .empty) ∧ ∀ n ∈ m.inputs ++ (s.scaleFor k.2 m).toList, (s.tile k.2 n).st = .ready :=
  forall₂_congr fun _ _ => mxUnmet_none

/-! ### The buffers that operands name (R265) -/

theorem bufOf_w {t : Nat} : (bufOf t == .w) = true ↔ t < 32 := by
  unfold bufOf
  by_cases h1 : t < 32
  · simp [h1]
  · by_cases h2 : t < 48 <;> simp [h1, h2]

theorem bufOf_a {t : Nat} : (bufOf t == .a) = true ↔ 32 ≤ t ∧ t < 48 := by
  unfold bufOf
  by_cases h1 : t < 32
  · simp [h1]
  · by_cases h2 : t < 48
    · simp [h1, h2]; omega
    · simp [h1, h2]

theorem bufOf_c {t : Nat} : (bufOf t == .c) = true ↔ 48 ≤ t := by
  unfold bufOf
  by_cases h1 : t < 32
  · simp [h1]; omega
  · by_cases h2 : t < 48
    · simp [h1, h2]
    · simp [h1, h2]; omega

theorem bufOf_not_c {t : Nat} : (bufOf t != .c) = true ↔ t < 48 := by
  rw [bne, Bool.not_eq_true', Bool.eq_false_iff, ne_eq, bufOf_c, not_le]

theorem kinds_mma (k : MmaK) (tc ta tb : Nat) :
    (48 ≤ tc ∧ (32 ≤ ta ∧ ta < 48) ∧ tb < 32) ↔ ∀ p ∈ (MOp.mma k tc ta tb).kinds, p.2 = true := by
  simp only [MOp.kinds, List.forall_mem_cons, bufOf_c, bufOf_a, bufOf_w, List.not_mem_nil, false_implies, implies_true, and_true]

theorem kinds_lutbld (tb ta : Nat) : ((32 ≤ tb ∧ tb < 48) ∧ (32 ≤ tb + 7 ∧ tb + 7 < 48) ∧ (32 ≤ ta ∧ ta < 48) ∧ (ta < tb ∨ tb + 8 ≤ ta)) ↔
    ∀ p ∈ (MOp.lutbld tb ta).kinds, p.2 = true := by
  have hout : (!(decide (tb ≤ ta) && decide (ta < tb + 8))) = true ↔ ta < tb ∨ tb + 8 ≤ ta := by
    simp only [Bool.not_eq_true', Bool.and_eq_false_iff, decide_eq_false_iff_not, not_le, not_lt]
  simp only [MOp.kinds, List.forall_mem_cons, Bool.and_eq_true, bufOf_a, hout, List.not_mem_nil, false_implies, implies_true, and_true, and_assoc]

theorem kinds_lutmm (wb tc ta tb : Nat) : (48 ≤ tc ∧ (32 ≤ ta ∧ ta < 48) ∧ (32 ≤ ta + 7 ∧ ta + 7 < 48) ∧ tb < 32) ↔
    ∀ p ∈ (MOp.lutmm wb tc ta tb).kinds, p.2 = true := by
  simp only [MOp.kinds, List.forall_mem_cons, Bool.and_eq_true, bufOf_a, bufOf_c, bufOf_w, List.not_mem_nil, false_implies, implies_true, and_true,
    and_assoc]

/-- The tiles that a CCVT writes (Table 17-12). -/
def ccvtOut (dty : Ty) (ta : Nat) : List Nat := if dty = .bf16 ∨ dty = .f16 ∨ dty = .f32 then [ta, ta + 1] else [ta]

theorem dests_ccvt (dty : Ty) (src : CSrc) (sat : Bool) (ta tc : Nat) : (MOp.ccvt dty src sat ta tc).dests = ccvtOut dty ta := by
  simp only [MOp.dests, ccvtOut, ccvtTiles]
  split <;> rfl

theorem kinds_ccvt (dty : Ty) (src : CSrc) (sat : Bool) (ta tc : Nat) : ((∀ n ∈ ccvtOut dty ta, 32 ≤ n ∧ n < 48) ∧ 48 ≤ tc) ↔
    ∀ p ∈ (MOp.ccvt dty src sat ta tc).kinds, p.2 = true := by
  simp only [MOp.kinds, List.forall_mem_cons, Bool.and_eq_true, bufOf_a, bufOf_c, List.not_mem_nil, false_implies, implies_true, and_true, ccvtOut,
    ccvtTiles]
  split <;> simp

/-- TSCL and TPERM take a W or A tile, or unbind. -/
theorem kinds_bind (off : Bool) (tb : Nat) : (off = true ∨ tb < 48) ↔
    ∀ p ∈ (if off then none else some tb : Option Nat).toList.map (fun t => (t, bufOf t != .c)), p.2 = true := by
  cases off with
  | true => simp
  | false => simp [-bne_iff_ne, bufOf_not_c]

/-! ### TWAIT and the waits for tile states (R270, R285) -/

/-- TWAIT once its cores are known; `u` is the state in which it is counted as operation `id`. -/
def State.twaitOn (u : State) (x : Issue) (id n st : Nat) (cores : List Nat) : State :=
  if u.allIn n st cores then x.done (u.endOp id) (fun g => g)
  else u.updGrp x.gid (fun g => { g with block := .twait id n st cores u.clk })

theorem allIn_iff {s : State} {n st : Nat} {cores : List Nat} : s.allIn n st cores = true ↔ ∀ c ∈ cores, (s.tile c n).st.code = st := by
  simp [State.allIn]

theorem addOp_clk (s : State) (gid : Nat) (cls : Option Cls) (kind : OpKind) : (s.addOp gid cls kind).clk = s.clk := by
  unfold State.addOp
  split
  · rfl
  · cases cls <;> rfl

theorem allIn_addOp (s : State) (gid : Nat) (cls : Option Cls) (kind : OpKind) (n st : Nat) (cores : List Nat) :
    (s.addOp gid cls kind).allIn n st cores = s.allIn n st cores := by
  have hcores : (s.addOp gid cls kind).cores = s.cores := by
    unfold State.addOp
    split
    · rfl
    · cases cls <;> rfl
  unfold State.allIn State.tile State.core
  rw [hcores]

section
variable {h : Hdr} {n st sel : Nat} {s : State} {x : Issue} (hgo : s.issueOf (.twait h n st sel) false = .go x)
include hgo

theorem exec_twait : exec (.twait h n st sel) s = .next (if x.act = 0 then x.done s id
    else match s.selCores x.g.gang sel with
      | none => s.seqFault x.gid 0x04 n 0
      | some cs =>
        if cs.any (fun c => (s.tile c.2 n).team != some (x.g.gang, c.1)) then s.seqFault x.gid 0x04 n 0
        else (s.addOp x.gid (some .mx) (.seqop [])).twaitOn x s.nextId n st (cs.map (·.2))) :=
  exec_of_go (eff := fun x s => if x.act = 0 then x.done s id
    else match s.selCores x.g.gang sel with
      | none => s.seqFault x.gid 0x04 n 0
      | some cs =>
        if cs.any (fun c => (s.tile c.2 n).team != some (x.g.gang, c.1)) then s.seqFault x.gid 0x04 n 0
        else (s.addOp x.gid (some .mx) (.seqop [])).twaitOn x s.nextId n st (cs.map (·.2))) hgo rfl

theorem exec_twait_nocore (ha : x.act ≠ 0) (hsel : s.selCores x.g.gang sel = none) :
    exec (.twait h n st sel) s = .next (s.seqFault x.gid 0x04 n 0) := by
  rw [exec_twait hgo, if_neg ha]
  simp only [hsel]

theorem exec_twait_foreign {cs : List (Nat × Nat)} (ha : x.act ≠ 0) (hsel : s.selCores x.g.gang sel = some cs)
    (hteam : ∃ c ∈ cs, (s.tile c.2 n).team ≠ some (x.g.gang, c.1)) : exec (.twait h n st sel) s = .next (s.seqFault x.gid 0x04 n 0) := by
  have hany : cs.any (fun c => (s.tile c.2 n).team != some (x.g.gang, c.1)) = true := by simpa [List.any_eq_true] using hteam
  rw [exec_twait hgo, if_neg ha]
  simp only [hsel, if_pos hany]

theorem exec_twait_own {cs : List (Nat × Nat)} (ha : x.act ≠ 0) (hsel : s.selCores x.g.gang sel = some cs)
    (hteam : ∀ c ∈ cs, (s.tile c.2 n).team = some (x.g.gang, c.1)) :
    exec (.twait h n st sel) s = .next ((s.addOp x.gid (some .mx) (.seqop [])).twaitOn x s.nextId n st (cs.map (·.2))) := by
  have hany : ¬ cs.any (fun c => (s.tile c.2 n).team != some (x.g.gang, c.1)) = true := by simpa [List.any_eq_true] using hteam
  rw [exec_twait hgo, if_neg ha]
  simp only [hsel, if_neg hany]

end

/-- A run that goes on as its operation is reported. -/
theorem done_endOp {u : State} {x : Issue} {id : Nat} {o : Op} {k : Cls} {g : Group} (ho : mfind u.ops id = some o) (hk : o.cls = some k)
    (hgid : o.gid = x.gid) (hg : u.grp? x.gid = some g) :
    (x.done (u.endOp id) (fun g => g)).grp? x.gid = some ((g.finish k o.pos).advance x.run) ∧
      (∀ j, j ≠ x.gid → (x.done (u.endOp id) (fun g => g)).grp? j = u.grp? j) ∧
      { x.done (u.endOp id) (fun g => g) with groups := u.groups, ops := u.ops } = u ∧
      (x.done (u.endOp id) (fun g => g)).ops = mdel u.ops id := by
  have hg' : ({ u with ops := mdel u.ops id } : State).grp? x.gid = some g := hg
  rw [endOp_some ho hk, hgid]
  exact ⟨State.grp?_updGrp_same (State.grp?_updGrp_same hg' _) _,
    fun j hj => (State.grp?_updGrp_other (Ne.symm hj) _).trans (State.grp?_updGrp_other (Ne.symm hj) _), rfl, rfl⟩

/-- Counting and reporting an operation change nothing else of a group whose run goes on. -/
theorem reported_advance (g : Group) (k : Cls) (p : Nat) (run : Word) : Stepped g (((g.count k).finish k p).advance run) run ∧
    { ((g.count k).finish k p).advance run with lanes := g.lanes, cnt := g.cnt } = g :=
  ⟨stepped_of g ((g.count k).finish k p) run rfl, rfl⟩

/-- A TWAIT that need not wait: it is counted, reported, and its run goes on. -/
theorem twait_returns {s : State} {x : Issue} (hg : s.grp? x.gid = some x.g) : ∃ t g',
    (Host.Outcome.next (x.done ((s.addOp x.gid (some .mx) (.seqop [])).endOp s.nextId) (fun g => g)) : Out) = .next t ∧ t.grp? x.gid = some g' ∧
      t.mem = s.mem ∧ (∀ j, j ≠ x.gid → t.grp? j = s.grp? j) ∧ t.cores = s.cores ∧ (∀ k, k ≠ s.nextId → mfind t.ops k = mfind s.ops k) ∧
      Stepped x.g g' x.run ∧ { g' with lanes := x.g.lanes, cnt := x.g.cnt } = x.g := by
  have hadd := addOp_some hg .mx (.seqop [])
  have ho : mfind (s.addOp x.gid (some .mx) (.seqop [])).ops s.nextId = some (opOf x.g x.gid .mx (.seqop [])) := by
    rw [hadd]
    exact mfind_mput_same _ _ _
  obtain ⟨hgrp, hothers, hrest, hops⟩ := done_endOp ho rfl rfl (grp?_addOp hg .mx (.seqop []))
  refine ⟨_, _, rfl, hgrp, (congrArg State.mem hrest :).trans (by rw [hadd]; rfl), fun j hj => (hothers j hj).trans (grp?_addOp_other hg hj .mx _),
    (congrArg State.cores hrest :).trans (by rw [hadd]; rfl), fun k hk => ?_, reported_advance x.g .mx _ x.run⟩
  rw [hops, mfind_mdel, if_neg (Ne.symm hk), hadd]
  exact mfind_mput_other _ _ (Ne.symm hk)

/-- Settles O42: the sequencer's matrix operations share one shape, and their waits end as Table 17-3 asks. -/
theorem matrixIssue : Obligations.MatrixIssue := by
  refine ⟨fun h cs tc ta tb wb sel sat off dty src s x ks hnodup hne => ?_, fun h n st sel s x hgo => ⟨fun ha => ?_, exec_twait_nocore hgo, fun cores ha hsel => ?_⟩,
    fun s who gid n st op since cores g hwho hg hblock => ⟨fun hin => ?_, fun hout hlate => ?_⟩,
    fun s who gid sel since t m g hwho hg hblock hlate htest => ?_, fun s who gid n since k run act g hwho hg hblock => ⟨fun hready => ?_, fun hready hlate => ?_⟩⟩
  · intro pick does w a c mma out
    have hdoes : ∀ {i : Instr} {sel : Nat} {m : MOp} {kinds : Prop} {dests inputs : List Nat}, exec i s = laneInstr i false s (mxOp sel m) →
        (kinds ↔ ∀ p ∈ m.kinds, p.2 = true) → m.dests = dests → m.inputs = inputs → does i sel m kinds dests inputs := by
      rintro i sel m kinds dests inputs hexec hkinds rfl rfl hgo perms legal ready room
      have hd := mxDoes hne hexec hgo
      have hlegal : legal ↔ Legal s x.g.gang ks m := (and_congr_left' hkinds).trans (legal_iff hne).symm
      have hready : ready ↔ AllReady s ks m := allReady_iff.symm
      refine ⟨hd.idle, hd.nocore, fun ha hsel => ⟨fun hl hr hroom => ?_, fun hl => hd.fault ha hsel (mt hlegal.mpr hl),
        fun hl hr => hd.unmet ha hsel (hlegal.mp hl) (mt hready.mpr hr), fun hl hr => hd.full ha hsel (hlegal.mp hl) (hready.mp hr)⟩⟩
      obtain ⟨t, g', ht, hgrp, hothers, hmem, hstep, hblock, hcnt, hrest, hop, hcores, hsame, hdata⟩ :=
        mxEnter_does (grp_of_issueOf hgo) m hnodup
      refine ⟨t, g', (hd.goes ha hsel (hlegal.mp hl) (hready.mp hr) hroom).trans ht, hgrp, hothers, hmem, hstep, hblock, hcnt, hrest, hop,
        fun k hk => hcores k.2 (List.mem_map_of_mem hk), fun c hc => hsame c ?_, hdata⟩
      rintro hmem
      obtain ⟨k, hk, heq⟩ := List.mem_map.mp hmem
      exact hc k hk heq
    have hmma : ∀ {i : Instr} {k : MmaK}, exec i s = laneInstr i false s (mxOp pick (.mma k tc ta tb)) → mma i k := fun {i k} hexec =>
      hdoes hexec (kinds_mma k tc ta tb) rfl rfl
    have hpick : pick = coreSel cs := by cases cs <;> rfl
    exact ⟨hmma (hpick ▸ rfl), hmma (hpick ▸ rfl), hmma (hpick ▸ rfl), hmma (hpick ▸ rfl), hmma (hpick ▸ rfl), hmma (hpick ▸ rfl), hmma (hpick ▸ rfl),
      hmma (hpick ▸ rfl), hmma (hpick ▸ rfl), hmma (hpick ▸ rfl), hdoes (hpick ▸ rfl) (kinds_lutbld tb ta) rfl rfl,
      hdoes (hpick ▸ rfl) (kinds_lutmm wb tc ta tb) rfl rfl, hdoes (hpick ▸ rfl) (by simp only [MOp.kinds, List.forall_mem_singleton, bufOf_c]; rfl) rfl rfl,
      hdoes (hpick ▸ rfl) (kinds_ccvt dty src sat ta tc) (dests_ccvt ..) rfl,
      hdoes rfl (kinds_bind off tb) rfl (by cases off <;> rfl), hdoes rfl (kinds_bind off tb) rfl (by cases off <;> rfl)⟩
  · rw [exec_twait hgo, if_pos ha]
    exact goes_on (grp_of_issueOf hgo)
  · intro code
    have hcode : ∀ c, code c = (s.tile c n).st.code := fun c => by
      simp only [code]
      cases (s.tile c n).st <;> rfl
    refine ⟨exec_twait_foreign hgo ha hsel, fun hteam => ⟨fun hall => ?_, fun hsome => ?_⟩⟩
    · have hin : s.allIn n st (cores.map (·.2)) = true := allIn_iff.mpr fun c hc => by
        obtain ⟨k, hk, rfl⟩ := List.mem_map.mp hc
        exact (hcode _).symm.trans (hall k hk)
      rw [exec_twait_own hgo ha hsel hteam, State.twaitOn, allIn_addOp, if_pos hin]
      exact twait_returns (grp_of_issueOf hgo)
    · have hin : ¬ s.allIn n st (cores.map (·.2)) = true := fun hin => by
        obtain ⟨k, hk, hne⟩ := hsome
        exact hne ((hcode _).trans (allIn_iff.mp hin k.2 (List.mem_map_of_mem hk)))
      rw [exec_twait_own hgo ha hsel hteam, State.twaitOn, allIn_addOp, if_neg hin, addOp_clk]
  · simp only [exec, execTileStateReached, hwho, hg, hblock, if_pos (allIn_iff.mpr hin)]
  · have hin : s.allIn n st cores = false := Bool.eq_false_iff.mpr fun hin => by
      obtain ⟨c, hc, hne⟩ := hout
      exact hne (allIn_iff.mp hin c hc)
    simp only [exec, execTileWait, hwho, hg, hblock, hin, Bool.or_false, decide_eq_true_eq, if_neg (Nat.not_lt.mpr hlate)]
  · simp only [exec, execTileWait, hwho, hg, hblock, htest, if_neg (Nat.not_lt.mpr hlate)]
  · simp only [exec, execTileStateReached, hwho, hg, hblock, if_pos hready]
  · simp only [exec, execTileWait, hwho, hg, hblock, hready, Bool.or_false, decide_eq_true_eq, if_neg (Nat.not_lt.mpr hlate)]

end Sys2Proof.Machine
end

/-! The proof of `Obligations.MatrixExecution` (R278, R279, R281–R284). -/

section
namespace Sys2Proof.Machine

/-! ### What changes nothing but stamps (R378) -/

/-- From `u` to `v` only the stamps of tiles of `core` have changed. -/
structure Stamped (u v : State) (core : Nat) : Prop extends TilesChanged u v core where
  tile : ∀ c j, { v.tile c j with stamps := {} } = { u.tile c j with stamps := {} }

theorem TilesChanged.trans {u v w : State} {core : Nat} (h : TilesChanged u v core) (h' : TilesChanged v w core) : TilesChanged u w core :=
  ⟨(congrArg (fun t : State => { t with cores := u.cores }) h'.rest :).trans h.rest,
    (congrArg (fun x : CoreSt => { x with tiles := (u.core core).tiles }) h'.same :).trans h.same,
    fun c hc => (h'.others c hc).trans (h.others c hc)⟩

theorem Stamped.trans {u v w : State} {core : Nat} (h : Stamped u v core) (h' : Stamped v w core) : Stamped u w core :=
  ⟨h.toTilesChanged.trans h'.toTilesChanged, fun c j => (h'.tile c j).trans (h.tile c j)⟩

theorem stamped_stamp (s : State) (core : Nat) (ns : List Nat) (f : Stamps → Nat → Stamps) : Stamped s (s.stamp core ns f) core :=
  ⟨tilesChanged_foldl core (fun x => { x with stamps := f x.stamps (s.coreTime core) }) ns s,
    keeps_foldl (f := fun x => { x with stamps := f x.stamps (s.coreTime core) }) (q := fun x => { x with stamps := {} }) (fun _ => rfl) ns s⟩

section
variable {u v : State} {core : Nat} (h : Stamped u v core) (c j : Nat)
include h

theorem Stamped.data : (v.tile c j).data = (u.tile c j).data := (congrArg Tile.data (h.tile c j) :)
theorem Stamped.st : (v.tile c j).st = (u.tile c j).st := (congrArg Tile.st (h.tile c j) :)
theorem Stamped.bad : (v.tile c j).bad = (u.tile c j).bad := (congrArg Tile.bad (h.tile c j) :)
theorem Stamped.sat : (v.tile c j).sat = (u.tile c j).sat := (congrArg Tile.sat (h.tile c j) :)

end

/-- Where the ends of a core's operations have been noted, noting them again changes nothing. -/
theorem stamped_noteEnds {s : State} {core : Nat} (h : ∀ q ∈ (s.core core).queue, s.over q = true → q.noted = true) :
    Stamped s (s.noteEnds core) core := by
  have hsame : (s.core core).queue.map (fun q => if s.over q then { q with noted := true } else q) = (s.core core).queue :=
    (List.map_congr_left fun q hq => by
      split
      next ho =>
        have hn := h q hq ho
        obtain ⟨op, gang, m, scale, till, out, bad, noted⟩ := q
        obtain rfl : noted = true := hn
        rfl
      next => rfl).trans (List.map_id _)
  have hcore : (s.noteEnds core).core core = s.core core := by
    rw [noteEnds_noted h, core_updCore, if_pos rfl, hsame]
  have hothers : ∀ c, c ≠ core → (s.noteEnds core).core c = s.core c := fun c hc => by
    rw [noteEnds_noted h, core_updCore, if_neg hc]
  refine ⟨⟨?_, by rw [hcore], hothers⟩, fun c j => ?_⟩
  · rw [noteEnds_noted h]
    rfl
  · by_cases hc : c = core
    · subst hc
      rw [tile_congr hcore]
    · rw [tile_congr (hothers c hc)]

/-! ### The start of an operation (R279) -/

/-- A TSCL or TPERM binds as it starts. -/
def State.bindTo (s : State) (core : Nat) : MOp → State
  | .tscl t => s.updCore core (fun c => { c with scale := t })
  | .tperm t => { (s.updCore core (fun c => { c with perm := t.map (s.readPerm core) })) with freeCtr := s.freeCtr + 1 }
  | _ => s

/-- The stamps of an operation that starts. -/
def State.startStamps (s : State) (core : Nat) (e : QEnt) : State :=
  (s.stamp core (e.m.inputs ++ e.scale.toList) (fun x t => { x with cstart := first x.cstart t })).stamp core e.m.dests
    (fun x t => { x with fill := first x.fill t })

theorem stamped_startStamps (s : State) (core : Nat) (e : QEnt) : Stamped s (s.startStamps core e) core :=
  (stamped_stamp ..).trans (stamped_stamp ..)

/-- The state in which an operation's inputs are read. -/
def State.startState (s : State) (core : Nat) (e : QEnt) : State := (s.startStamps core e).bindTo core e.m

/-- The scale tile that is bound once an operation has started. -/
def MOp.scaleTo (m : MOp) (old : Option Nat) : Option Nat := match m with | .tscl n => n | _ => old
/-- The permutation that is bound once an operation has started, where `read` reads one from a tile. -/
def MOp.permTo (m : MOp) (read : Nat → List Nat) (old : Option (List Nat)) : Option (List Nat) := match m with | .tperm n => n.map read | _ => old

/-- What an operation will write, by the byte in error that it reads. -/
def State.startOut (s : State) (core : Nat) (e : QEnt) : Option Nat → List (Nat × List Byte × Bool)
  | none => s.mxResult core e
  | some _ => (s.mxResult core e).map (fun r => (r.1, undefinedBytes (s.freeCtr + r.1) (tileSize r.1), r.2.2))

/-- The entry of an operation that has started in `s`. -/
def State.startEntry (s : State) (core : Nat) (e : QEnt) : QEnt :=
  { e with till := some (s.clk + e.m.clocks), out := s.startOut core e (s.mxBad core e), bad := s.mxBad core e }

theorem mxStart_eq (s : State) (core : Nat) (e : QEnt) : s.mxStart core e =
    ({ s.startState core e with freeCtr := (s.startState core e).freeCtr + 64 }, (s.startState core e).startEntry core e) := by
  obtain ⟨op, gang, m, scale, till, out, bad, noted⟩ := e
  cases m <;> rfl

/-- What binding does. -/
structure Bound (u v : State) (core : Nat) (m : MOp) : Prop where
  rest : { v with cores := u.cores, freeCtr := u.freeCtr } = u
  tile : ∀ c j, v.tile c j = u.tile c j
  others : ∀ c, c ≠ core → v.core c = u.core c
  queue : (v.core core).queue = (u.core core).queue
  scale : (v.core core).scale = m.scaleTo (u.core core).scale
  perm : (v.core core).perm = m.permTo (u.readPerm core) (u.core core).perm

theorem bound_bindTo (u : State) (core : Nat) (m : MOp) : Bound u (u.bindTo core m) core m := by
  cases m with
  | tscl t =>
    have hcore : (u.bindTo core (.tscl t)).core core = { u.core core with scale := t } := (core_updCore ..).trans (if_pos rfl)
    exact ⟨rfl, tile_updCore (f := fun c => { c with scale := t }) fun _ => rfl, fun c hc => (core_updCore ..).trans (if_neg hc),
      (congrArg CoreSt.queue hcore :), (congrArg CoreSt.scale hcore :), (congrArg CoreSt.perm hcore :)⟩
  | tperm t =>
    have hupd := core_updCore u core (fun c => { c with perm := t.map (u.readPerm core) })
    have hcore : (u.bindTo core (.tperm t)).core core = { u.core core with perm := t.map (u.readPerm core) } := (hupd core).trans (if_pos rfl)
    exact ⟨rfl, tile_updCore (f := fun c => { c with perm := t.map (u.readPerm core) }) fun _ => rfl, fun c hc => (hupd c).trans (if_neg hc),
      (congrArg CoreSt.queue hcore :), (congrArg CoreSt.scale hcore :), (congrArg CoreSt.perm hcore :)⟩
  | _ => exact ⟨rfl, fun _ _ => rfl, fun _ _ => rfl, rfl, rfl, rfl⟩

theorem mapFrom_eq {α β : Type} (f : Nat → α → β) (x : α) (xs : List α) (k : Nat) :
    mapFrom f k xs = (List.range xs.length).map (fun i => f (k + i) (xs.getD i x)) := by
  refine List.ext_getElem (by simp [length_mapFrom]) fun i h1 h2 => ?_
  have hi : i < xs.length := by simpa [length_mapFrom] using h1
  have hget := getD_mapFrom f k xs i x (f (k + i) (xs.getD i x)) hi
  rw [List.getD_eq_getElem _ _ h1] at hget
  simpa using hget

theorem length_cutTiles (n : Nat) (bs : List Byte) : (cutTiles n bs).length = n := by
  induction n generalizing bs with
  | zero => rfl
  | succ n ih => rw [cutTiles, List.length_cons, ih]

theorem mapFrom_cutTiles {β : Type} (f : Nat → List Byte → β) (n : Nat) (bs : List Byte) :
    mapFrom f 0 (cutTiles n bs) = (List.range n).map (fun i => f i ((cutTiles n bs).getD i [])) := by
  rw [mapFrom_eq f [], length_cutTiles]
  simp only [Nat.zero_add]

theorem clocks_mma (k : MmaK) : 0 < k.clocks := by cases k <;> decide

/-- Every operation takes time. -/
theorem clocks_pos (m : MOp) : 0 < m.clocks := by
  cases m with
  | mma k c a b => exact clocks_mma k
  | lutbld d a => exact (by decide : 0 < 16)
  | lutmm wb c a b => exact Nat.mul_pos (by decide) (Nat.succ_pos wb)
  | czero c => exact (by decide : 0 < 32)
  | ccvt dty src sat d c =>
    have h : 0 < ccvtTiles dty := by unfold ccvtTiles; split <;> decide
    exact Nat.mul_pos (by decide) h
  | tscl t => exact (by decide : 0 < 1)
  | tperm t => exact (by decide : 0 < 4)

/-- The permutation that a tile without an error binds. -/
theorem readPerm_good {s : State} {core n : Nat} (h : (s.tile core n).bad = []) :
    s.readPerm core n = (((s.tile core n).bytes n).take 256).map BitVec.toNat := by
  unfold State.readPerm
  simp only [h, List.any_nil, Bool.false_eq_true, if_false]

/-- No input in error: none is reported. -/
theorem mxBad_none {s : State} {core : Nat} {e : QEnt} (h : ∀ n ∈ e.m.inputs ++ e.scale.toList, (s.tile core n).bad = []) : s.mxBad core e = none := by
  have hfind : (e.m.inputs ++ e.scale.toList).find? (fun t => !(s.tile core t).bad.isEmpty) = none :=
    List.find?_eq_none.mpr fun n hn => by simp [h n hn]
  unfold State.mxBad
  split
  · rfl
  · rfl
  · exact hfind

/-- What an operation writes depends on its tiles' bytes and, for a multiply, on the bound permutation. -/
theorem mxResult_congr {s t : State} {core : Nat} {e : QEnt} (hbytes : ∀ n, (t.tile core n).bytes n = (s.tile core n).bytes n)
    (hperm : ∀ k c a b, e.m = .mma k c a b → (t.core core).perm = (s.core core).perm) : t.mxResult core e = s.mxResult core e := by
  obtain ⟨op, gang, m, scale, till, out, bad, noted⟩ := e
  cases m with
  | mma k c a b => simp only [State.mxResult, hbytes, hperm k c a b rfl]
  | _ => simp only [State.mxResult, hbytes]

/-- What an operation writes, with the lists of tables and of converted rows by number. -/
def State.resultOf (s : State) (core : Nat) (e : QEnt) : List (Nat × List Byte × Bool) :=
  let bytes := fun (n : Nat) => (s.tile core n).bytes n
  match e.m with
  | .mma k c a b =>
    let r := mmaTile k (s.core core).perm (if k.scaled then e.scale.map bytes else none) (bytes a) (bytes b) (bytes c)
    [(c, r.1, r.2)]
  | .lutbld d a => (List.range 8).map (fun i => (d + i, (cutTiles 8 (lutTables (bytes a))).getD i [], false))
  | .lutmm wb c a b =>
    let r := lutTile (wb + 1) ((List.range 8).flatMap (fun i => bytes (a + i))) (bytes b) (bytes c)
    [(c, r.1, r.2)]
  | .czero c => [(c, [], false)]
  | .ccvt dty src sat d c =>
    let rs := (rowsOf 512 128 (bytes c)).map (ccvtBytes dty src sat)
    let per := if ccvtTiles dty = 2 then 64 else 128
    (List.range (ccvtTiles dty)).map (fun i => (d + i, (cutTiles (ccvtTiles dty) (rs.flatMap (·.1))).getD i [], ((rs.drop (per * i)).take per).any (·.2)))
  | .tscl _ | .tperm _ => []

theorem mxResult_eq (s : State) (core : Nat) (e : QEnt) : s.mxResult core e = s.resultOf core e := by
  obtain ⟨op, gang, m, scale, till, out, bad, noted⟩ := e
  cases m with
  | lutbld d a => exact mapFrom_cutTiles (fun i bs => (d + i, bs, false)) 8 _
  | ccvt dty src sat d c => exact mapFrom_cutTiles _ _ _
  | _ => rfl

/-- What the start of an operation reads and binds. -/
structure Starts (s t : State) (core : Nat) (e : QEnt) : Prop where
  rest : { t with cores := s.cores, freeCtr := s.freeCtr } = s
  tile : ∀ c j, { t.tile c j with stamps := {} } = { s.tile c j with stamps := {} }
  others : ∀ c, c ≠ core → t.core c = s.core c
  queue : (t.core core).queue = (s.core core).queue
  scale : (t.core core).scale = e.m.scaleTo (s.core core).scale
  perm : (t.core core).perm = e.m.permTo (fun n => (((s.tile core n).bytes n).take 256).map BitVec.toNat) (s.core core).perm
  entry : t.startEntry core e = { e with till := some (s.clk + e.m.clocks), out := s.resultOf core e, bad := none }

theorem bytes_congr {x y : Tile} (h : x.data = y.data) (n : Nat) : x.bytes n = y.bytes n := by
  unfold Tile.bytes
  rw [h]

theorem permTo_congr {m : MOp} {f g : Nat → List Nat} (h : ∀ n ∈ m.inputs, f n = g n) (old : Option (List Nat)) : m.permTo f old = m.permTo g old := by
  cases m with
  | tperm t =>
    cases t with
    | none => rfl
    | some n => exact congrArg some (h n (List.mem_singleton.mpr rfl))
  | _ => rfl

theorem permTo_mma {m : MOp} {k : MmaK} {c a b : Nat} (h : m = .mma k c a b) (f : Nat → List Nat) (old : Option (List Nat)) : m.permTo f old = old := by
  rw [h]
  rfl

theorem starts_startState {s u : State} {core : Nat} {e : QEnt} (hu : Stamped s u core)
    (hbad : ∀ n ∈ e.m.inputs ++ e.scale.toList, (s.tile core n).bad = []) : Starts s (u.startState core e) core e := by
  have h1 := hu.trans (stamped_startStamps u core e)
  have hb : Bound (u.startStamps core e) (u.startState core e) core e.m := bound_bindTo ..
  have htile : ∀ c j, { (u.startState core e).tile c j with stamps := {} } = { s.tile c j with stamps := {} } := fun c j =>
    (congrArg (fun x : Tile => { x with stamps := {} }) (hb.tile c j)).trans (h1.tile c j)
  have hbytes : ∀ n, ((u.startState core e).tile core n).bytes n = (s.tile core n).bytes n := fun n =>
    bytes_congr (congrArg Tile.data (htile core n) :) n
  have hclk : (u.startState core e).clk = s.clk := (congrArg State.clk hb.rest :).trans (congrArg State.clk h1.rest :)
  have hnone : (u.startState core e).mxBad core e = none := mxBad_none fun n hn => (congrArg Tile.bad (htile core n) :).trans (hbad n hn)
  have hread : ∀ n ∈ e.m.inputs, (u.startStamps core e).readPerm core n = (((s.tile core n).bytes n).take 256).map BitVec.toNat := fun n hn => by
    rw [readPerm_good ((h1.bad core n).trans (hbad n (List.mem_append_left _ hn))), bytes_congr (h1.data core n)]
  have hperm := hb.perm.trans ((permTo_congr hread _).trans (congrArg _ (congrArg CoreSt.perm h1.same :)))
  refine ⟨(congrArg (fun t : State => { t with cores := s.cores, freeCtr := s.freeCtr }) hb.rest :).trans
      (congrArg (fun t : State => { t with freeCtr := s.freeCtr }) h1.rest :), htile, fun c hc => (hb.others c hc).trans (h1.others c hc),
    hb.queue.trans (congrArg CoreSt.queue h1.same :), hb.scale.trans (congrArg _ (congrArg CoreSt.scale h1.same :)), hperm, ?_⟩
  have hout : (u.startState core e).mxResult core e = s.resultOf core e :=
    (mxResult_congr hbytes fun k c a b hm => hperm.trans (permTo_mma hm ..)).trans (mxResult_eq ..)
  unfold State.startEntry
  rw [hnone, hclk]
  simp only [State.startOut, hout]

/-- An entry of a queue once the operation of `e` has started as `e'`. -/
def QEnt.startAs (e e' q : QEnt) : QEnt := if q.op = e.op ∧ q.till.isNone then e' else q

/-- The core once the operation of `e` has started in `u`. -/
def State.startOp (u : State) (core : Nat) (e : QEnt) : State :=
  ({ u.startState core e with freeCtr := (u.startState core e).freeCtr + 64 }).updCore core (fun c =>
    { c with queue := c.queue.map (e.startAs ((u.startState core e).startEntry core e)) })

/-- SEQ_OP_EXECUTE of a core whose oldest operation has not started. -/
theorem exec_seqOpExecute {s : State} {core : Nat} {e : QEnt} {rest : List QEnt} (hlive : s.seqLive core = e :: rest) (htill : e.till = none) :
    exec (.seqOpExecute core) s = .next ((s.noteEnds core).startOp core e) := by
  simp only [exec, execSeqOpExecute, hlive, htill, Option.isSome_none, Bool.false_eq_true, if_false, mxStart_eq]
  rfl

/-- The live entries once the oldest has started: it runs on, and no other entry of the queue has changed. -/
theorem live_startAs {q : List QEnt} {e e' : QEnt} {rest : List QEnt} {live : QEnt → Bool} (hq : q.filter live = e :: rest) (htill : e.till = none)
    (hlive : live e' = true) (hdead : ∀ x, live x = false → x.till.isNone = false) (hrest : ∀ x ∈ rest, x.op ≠ e.op) :
    (q.map (e.startAs e')).filter live = e' :: rest := by
  have hcomp : ∀ x, (live ∘ e.startAs e') x = live x := fun x => by
    unfold QEnt.startAs
    rw [Function.comp_apply]
    split
    next h =>
      cases hx : live x with
      | true => exact hlive
      | false => exact absurd h.2 (by rw [hdead x hx]; exact Bool.false_ne_true)
    next => rfl
  have hfilter : q.filter (live ∘ e.startAs e') = e :: rest := by rw [funext hcomp, hq]
  have hsame : rest.map (e.startAs e') = rest :=
    (List.map_congr_left fun x hx => if_neg fun h => hrest x hx h.1).trans (List.map_id _)
  rw [List.filter_map, hfilter, List.map_cons, hsame, QEnt.startAs, if_pos ⟨rfl, by rw [htill]; rfl⟩]

/-! ### The contents of a tile -/

theorem mget_sparse (bs : List Byte) (k j : Nat) : mget byteZero (sparse k bs) j = if j < k then byteZero else bs.getD (j - k) 0 := by
  induction bs generalizing k with
  | nil => simp [sparse, mget, byteZero]
  | cons b bs ih =>
    have hrest := ih (k + 1)
    by_cases hjk : j = k
    · subst hjk
      rw [if_pos (Nat.lt_succ_self _)] at hrest
      rw [if_neg (lt_irrefl _), Nat.sub_self, List.getD_cons_zero, sparse]
      split
      next hb => rw [hrest, hb]; rfl
      next => simp [mget, mfind]
    · have htail : mget byteZero (sparse k (b :: bs)) j = mget byteZero (sparse (k + 1) bs) j := by
        rw [sparse]
        split
        · rfl
        · simp only [mget, mfind, if_neg (Ne.symm hjk)]
      rw [htail, hrest]
      by_cases hlt : j < k
      · rw [if_pos hlt, if_pos (by omega)]
      · rw [if_neg hlt, if_neg (by omega), show j - k = j - (k + 1) + 1 by omega, List.getD_cons_succ]

/-! ### The end of an operation (R270, R279) -/

/-- A tile once its new contents have been written. -/
def Tile.filled (x : Tile) (bs : List Byte) (sat : Bool) : Tile := { x with data := sparse 0 bs, bad := [], sat := x.sat || sat }

/-- The writes of an operation that has ended. -/
def State.fills (s : State) (core : Nat) (out : List (Nat × List Byte × Bool)) : State :=
  out.foldl (fun s r => s.fillTile core r.1 r.2.1 r.2.2) s

theorem tilesChanged_updTile (s : State) (core n : Nat) (f : Tile → Tile) : TilesChanged s (s.updTile core n f) core :=
  tilesChanged_foldl core f [n] s

theorem tilesChanged_fills (core : Nat) (out : List (Nat × List Byte × Bool)) (s : State) : TilesChanged s (s.fills core out) core := by
  induction out generalizing s with
  | nil => exact ⟨rfl, rfl, fun _ _ => rfl⟩
  | cons r out ih => exact (tilesChanged_updTile s core r.1 _).trans (ih _)

/-- Each tile that is written holds its new contents; the others are as they were. -/
theorem tile_fills {core : Nat} {out : List (Nat × List Byte × Bool)} (hnodup : (out.map (fun r => r.1)).Nodup) (s : State) :
    (∀ r ∈ out, (s.fills core out).tile core r.1 = (s.tile core r.1).filled r.2.1 r.2.2) ∧
      ∀ n, (∀ r ∈ out, r.1 ≠ n) → (s.fills core out).tile core n = s.tile core n := by
  induction out generalizing s with
  | nil => exact ⟨fun _ h => absurd h List.not_mem_nil, fun _ _ => rfl⟩
  | cons r out ih =>
    obtain ⟨hr, hnodup⟩ := List.nodup_cons.mp hnodup
    obtain ⟨hin, hout⟩ := ih hnodup (s.fillTile core r.1 r.2.1 r.2.2)
    have hstep : ∀ n, (s.fillTile core r.1 r.2.1 r.2.2).tile core n =
        if core = core ∧ n = r.1 then (s.tile core r.1).filled r.2.1 r.2.2 else s.tile core n := fun n => tile_updTile ..
    refine ⟨fun q hq => ?_, fun n hn => ?_⟩
    · obtain rfl | hq := List.mem_cons.mp hq
      · exact (hout q.1 fun p hp heq => hr (List.mem_map.mpr ⟨p, hp, heq⟩)).trans ((hstep _).trans (if_pos ⟨rfl, rfl⟩))
      · have hne : q.1 ≠ r.1 := fun heq => hr (List.mem_map.mpr ⟨q, hq, heq⟩)
        have hq' := hin q hq
        rwa [hstep, if_neg fun h => hne h.2] at hq'
    · exact (hout n fun p hp => hn p (List.mem_cons_of_mem _ hp)).trans
        ((hstep n).trans (if_neg fun h => hn r List.mem_cons_self h.2.symm))

/-- The last stamp of a conversion's source. -/
def State.endStamp (s : State) (core : Nat) : MOp → State
  | .ccvt _ _ _ _ c => s.stamp core [c] (fun x t => { x with outEnd := some t })
  | _ => s

/-- The stamps of an operation that has ended. -/
def State.endStamps (s : State) (core : Nat) (e : QEnt) : State :=
  ((s.stamp core (e.m.inputs ++ e.scale.toList) (fun x t => { x with cend := some t })).stamp core e.m.dests
    (fun x t => { x with fillEnd := first x.fillEnd t })).endStamp core e.m

theorem stamped_endStamps (s : State) (core : Nat) (e : QEnt) : Stamped s (s.endStamps core e) core := by
  have hend : ∀ (u : State) (m : MOp), Stamped u (u.endStamp core m) core := fun u m => by
    cases m with
    | ccvt dty src sat d c => exact stamped_stamp u core [c] (fun x t => { x with outEnd := some t })
    | _ => exact ⟨⟨rfl, rfl, fun _ _ => rfl⟩, fun _ _ => rfl⟩
  exact ((stamped_stamp ..).trans (stamped_stamp ..)).trans (hend _ _)

theorem mxEnded_good {e : QEnt} (h : e.bad = none) (s : State) (core : Nat) : s.mxEnded core e = (s.fills core e.out).endStamps core e := by
  obtain ⟨op, gang, m, scale, till, out, bad, noted⟩ := e
  obtain rfl : bad = none := h
  cases m <;> rfl

/-- Noting the end of the one operation that has ended since. -/
theorem noteEnds_one {s : State} {core : Nat} {e : QEnt} {rest : List QEnt} (hqueue : (s.core core).queue = e :: rest) (hover : s.over e = true)
    (hnoted : e.noted = false) (hrest : ∀ q ∈ rest, s.over q = false) :
    s.noteEnds core = (s.mxEnded core e).updCore core (fun c => { c with queue := c.queue.map (fun q =>
      if (s.mxEnded core e).over q then { q with noted := true } else q) }) := by
  have hes : (s.core core).queue.filter (fun e => s.over e && !e.noted) = [e] := by
    rw [hqueue, List.filter_cons, if_pos (by rw [hover, hnoted]; rfl), List.filter_eq_nil_iff.mpr fun q hq => by rw [hrest q hq]; exact Bool.false_ne_true]
  unfold State.noteEnds
  simp only [hes]
  rfl

/-- The entry is that of operation `op` of a gang. -/
def QEnt.isOf (op gang : Nat) (e : QEnt) : Bool := e.op == op && e.gang == gang

/-- The core's queue without the entries of an operation, once its ends have been noted. -/
def State.leaveQueue (s : State) (core op gang : Nat) : State :=
  (s.noteEnds core).updCore core (fun c => { c with queue := c.queue.filter (fun e => !(e.isOf op gang)) })

/-- Freeing the tiles of a gang's teams that have ended. -/
def State.freeEnded (s : State) (gang : Nat) : State :=
  (mapFrom (fun i (t : Team) => (i, t)) 0 (mget ({} : Gang) s.gangs gang).teams).foldl
    (fun s t => if t.2.live || t.2.copying then s else s.freeTeamTiles t.2.core gang t.1 0) s

theorem mem_mapFrom {α : Type} {xs : List α} {i : Nat} {p : Nat × α} (h : p ∈ mapFrom (fun i t => (i, t)) i xs) : p.2 ∈ xs := by
  induction xs generalizing i with
  | nil => exact absurd h List.not_mem_nil
  | cons x xs ih =>
    obtain rfl | h := List.mem_cons.mp h
    · exact List.mem_cons_self
    · exact List.mem_cons_of_mem _ (ih h)

theorem foldl_same {α β : Type} {f : β → α → β} {xs : List α} (h : ∀ b, ∀ x ∈ xs, f b x = b) (b : β) : xs.foldl f b = b := by
  induction xs with
  | nil => rfl
  | cons x xs ih => rw [List.foldl_cons, h b x List.mem_cons_self, ih fun b y hy => h b y (List.mem_cons_of_mem _ hy)]

/-- A gang whose teams all live has no tile to free. -/
theorem freeEnded_live {s : State} {gang : Nat} (h : ∀ k ∈ (mget ({} : Gang) s.gangs gang).teams, k.live = true) : s.freeEnded gang = s :=
  foldl_same (fun b t ht => by rw [h t.2 (mem_mapFrom ht)]; rfl) s

theorem ite_not_bool {α : Type} (b : Bool) (x y : α) : (if (!b) = true then x else y) = if b = true then y else x := by cases b <;> rfl

theorem exec_seqOpComplete {s : State} {gang id core : Nat} {o : Op} (ho : mfind s.ops id = some o) (hk : o.kind = .seqop [core]) :
    exec (.seqOpComplete gang id) s = .next (
      if (s.core core).queue.any (QEnt.isOf id gang) && (s.core core).queue.all (fun e => !(e.isOf id gang) || s.over e) then
        ((s.leaveQueue core id gang).endOp id).freeEnded gang
      else s) := by
  simp only [exec, execSeqOpComplete, ho, hk, List.isEmpty_cons, Bool.false_eq_true, if_false, List.all_cons, List.all_nil, Bool.and_true,
    List.foldl_cons, List.foldl_nil]
  exact congrArg Host.Outcome.next (ite_not_bool _ _ _)

/-- What remains of a core whose one ended operation has left its queue. -/
structure Left (s t : State) (core : Nat) (e : QEnt) (qs : List QEnt) : Prop where
  rest : { t with cores := s.cores } = s
  queue : (t.core core).queue = qs
  inside : ∀ r ∈ e.out, { t.tile core r.1 with stamps := {} } = { (s.tile core r.1).filled r.2.1 r.2.2 with stamps := {} }
  outside : ∀ n, (∀ r ∈ e.out, r.1 ≠ n) → { t.tile core n with stamps := {} } = { s.tile core n with stamps := {} }
  others : ∀ c, c ≠ core → t.core c = s.core c

/-- Only the entry of the ended operation leaves the queue. -/
theorem filter_noted {e : QEnt} {qs : List QEnt} {ended : QEnt → Bool} {gang : Nat} (hgang : e.gang = gang) (hrest : ∀ q ∈ qs, q.op ≠ e.op ∧ ended q = false) :
    ((e :: qs).map (fun q => if ended q then { q with noted := true } else q)).filter (fun q => !(q.isOf e.op gang)) = qs := by
  have hsame : qs.map (fun q => if ended q then { q with noted := true } else q) = qs :=
    (List.map_congr_left fun q hq => by rw [(hrest q hq).2]; rfl).trans (List.map_id _)
  have hhead : (if ended e then { e with noted := true } else e).isOf e.op gang = true := by
    subst hgang
    split <;> simp [QEnt.isOf]
  rw [List.map_cons, hsame, List.filter_cons, hhead]
  exact List.filter_eq_self.mpr fun q hq => by simp [QEnt.isOf, (hrest q hq).1]

theorem left_leaveQueue {s : State} {core gang : Nat} {e : QEnt} {qs : List QEnt} (hqueue : (s.core core).queue = e :: qs) (hgang : e.gang = gang)
    (hbad : e.bad = none) (hnoted : e.noted = false) (hover : s.over e = true) (hrest : ∀ q ∈ qs, q.op ≠ e.op ∧ s.over q = false)
    (hnodup : (e.out.map (fun r => r.1)).Nodup) : Left s (s.leaveQueue core e.op gang) core e qs := by
  have hfills := tilesChanged_fills core e.out s
  have hstamps := stamped_endStamps (s.fills core e.out) core e
  have hall := hfills.trans hstamps.toTilesChanged
  obtain ⟨hin, hout⟩ := tile_fills hnodup s
  have hnote := noteEnds_one hqueue hover hnoted fun q hq => (hrest q hq).2
  rw [mxEnded_good hbad] at hnote
  have hleave : s.leaveQueue core e.op gang = (s.noteEnds core).updCore core (fun c => { c with queue := c.queue.filter (fun q => !(q.isOf e.op gang)) }) :=
    rfl
  have hclk : ((s.fills core e.out).endStamps core e).clk = s.clk := (congrArg State.clk hall.rest :)
  have hover' : ∀ q, ((s.fills core e.out).endStamps core e).over q = s.over q := fun q => by rw [State.over, State.over, hclk]
  have hq : (((s.fills core e.out).endStamps core e).core core).queue = e :: qs := (congrArg CoreSt.queue hall.same :).trans hqueue
  have htile : ∀ j, (s.leaveQueue core e.op gang).tile core j = ((s.fills core e.out).endStamps core e).tile core j := fun j => by
    rw [hleave, hnote]
    exact (tile_updCore (f := fun c => { c with queue := c.queue.filter (fun q => !(q.isOf e.op gang)) }) (fun _ => rfl) core j).trans
      (tile_updCore (f := fun c => { c with queue := c.queue.map (fun q =>
        if ((s.fills core e.out).endStamps core e).over q then { q with noted := true } else q) }) (fun _ => rfl) core j)
  refine ⟨?_, ?_, fun r hr => ?_, fun n hn => ?_, fun c hc => ?_⟩
  · rw [hleave, hnote]
    exact hall.rest
  · rw [hleave, hnote, core_updCore, if_pos rfl, core_updCore, if_pos rfl, hq]
    simp only [hover']
    exact filter_noted hgang hrest
  · rw [htile, ← hin r hr]
    exact hstamps.tile core r.1
  · rw [htile, ← hout n hn]
    exact hstamps.tile core n
  · rw [hleave, hnote, core_updCore, if_neg hc, core_updCore, if_neg hc]
    exact hall.others c hc

/-- Settles O43. -/
theorem matrixExecution : Obligations.MatrixExecution := by
  refine ⟨fun s core e rest hlive htill hnoted hops hbad => ?_, fun s gang id core e qs o ho hk hqueue hop hgang hbad hnoted hrest hnodup hteams => ⟨fun hover => ?_, fun hover => ?_⟩⟩
  · intro bytes
    have hu := stamped_noteEnds hnoted
    have hs := starts_startState hu hbad
    obtain ⟨u, hueq⟩ : ∃ u, u = (s.noteEnds core).startState core e := ⟨_, rfl⟩
    rw [← hueq] at hs
    have hexec := exec_seqOpExecute hlive htill
    have hnext : (s.noteEnds core).startOp core e = ({ u with freeCtr := u.freeCtr + 64 }).updCore core (fun c =>
        { c with queue := c.queue.map (e.startAs (u.startEntry core e)) }) := by rw [hueq]; rfl
    rw [hnext] at hexec
    have hcore := core_updCore { u with freeCtr := u.freeCtr + 64 } core (fun c => { c with queue := c.queue.map (e.startAs (u.startEntry core e)) })
    have htile : ∀ c j, State.tile (({ u with freeCtr := u.freeCtr + 64 } : State).updCore core (fun c =>
        { c with queue := c.queue.map (e.startAs (u.startEntry core e)) })) c j = u.tile c j :=
      tile_updCore (f := fun c => { c with queue := c.queue.map (e.startAs (u.startEntry core e)) }) fun _ => rfl
    refine ⟨_, u.startEntry core e, hexec, (congrArg State.mem hs.rest :), (congrArg State.groups hs.rest :), (congrArg State.ops hs.rest :), fun c n => ?_,
      fun c hc => ((hcore c).trans (if_neg hc)).trans (hs.others c hc), ?_, ?_, ?_, ?_, ?_⟩
    · rw [htile]
      exact ⟨(congrArg Tile.data (hs.tile c n) :), (congrArg Tile.st (hs.tile c n) :)⟩
    · have hlater : (u.startEntry core e).till = some (s.clk + e.m.clocks) := (congrArg QEnt.till hs.entry :)
      have hclk : u.clk = s.clk := (congrArg State.clk hs.rest :)
      have hq : (State.core (({ u with freeCtr := u.freeCtr + 64 } : State).updCore core (fun c =>
          { c with queue := c.queue.map (e.startAs (u.startEntry core e)) })) core).queue = (s.core core).queue.map (e.startAs (u.startEntry core e)) :=
        (congrArg CoreSt.queue ((hcore core).trans (if_pos rfl)) :).trans (congrArg (List.map _) hs.queue)
      unfold State.seqLive at hlive ⊢
      rw [hq]
      refine (congrArg (fun k => List.filter (fun q : QEnt => !(q.till.any (fun t => t ≤ k))) _) hclk).trans ?_
      exact live_startAs hlive htill (by simp [hlater, (clocks_pos e.m).ne']) (fun q hq => by cases hqt : q.till <;> simp [hqt] at hq ⊢) hops
    · rw [hs.entry]
    · rw [hcore, if_pos rfl]
      exact hs.scale
    · rw [hcore, if_pos rfl]
      exact hs.perm
    · rw [hs.entry]
      rfl
  · rw [exec_seqOpComplete ho hk, if_neg]
    have hmine : e.isOf id gang = true := by simp [QEnt.isOf, hop, hgang]
    rw [hqueue, List.all_cons, hmine, hover]
    simp
  · subst hop
    have hmine : e.isOf e.op gang = true := by simp [QEnt.isOf, hgang]
    have hothers : qs.all (fun q => !(q.isOf e.op gang) || s.over q) = true := List.all_eq_true.mpr fun q hq => by
      simp [QEnt.isOf, (hrest q hq).1]
    have hl := left_leaveQueue hqueue hgang hbad hnoted hover hrest hnodup
    have hcores : ∀ c, ((s.leaveQueue core e.op gang).endOp e.op).core c = (s.leaveQueue core e.op gang).core c := fun c => by
      rw [State.core, State.core, endOp_cores]
    have hlive : ∀ k ∈ (mget ({} : Gang) ((s.leaveQueue core e.op gang).endOp e.op).gangs gang).teams, k.live = true := by
      rw [endOp_gangs, (congrArg State.gangs hl.rest :)]
      exact hteams
    rw [exec_seqOpComplete ho hk, if_pos (by rw [hqueue, List.any_cons, List.all_cons, hmine, hover, hothers]; rfl), freeEnded_live hlive]
    refine ⟨_, rfl, mfind_ops_endOp _ _, (congrArg CoreSt.queue (hcores core)).trans hl.queue, (endOp_mem ..).trans (congrArg State.mem hl.rest :),
      fun r hr => ?_, fun n hn => ?_, fun n => ?_, fun c hc => (hcores c).trans (hl.others c hc)⟩
    · have ht := hl.inside r hr
      rw [tile_endOp, (congrArg Tile.data ht :), (congrArg Tile.sat ht :), (congrArg Tile.bad ht :)]
      exact ⟨fun j => (mget_sparse r.2.1 0 j).trans (if_neg (Nat.not_lt_zero j)), rfl, rfl⟩
    · rw [tile_endOp]
      exact (congrArg Tile.data (hl.outside n hn) :)
    · rw [tile_endOp]
      by_cases hn : ∀ r ∈ e.out, r.1 ≠ n
      · exact (congrArg Tile.st (hl.outside n hn) :)
      · push Not at hn
        obtain ⟨r, hr, rfl⟩ := hn
        exact (congrArg Tile.st (hl.inside r hr) :)

end Sys2Proof.Machine
end

/-! The proof of `Obligations.Queues` (R250–R258). -/

section
namespace Sys2Proof.Machine

/-! ### Sending a queue instruction (R252) -/

/-- The operation that carries a queue instruction. -/
def queueSent (x : Issue) (k : QKind) (dst : Option Opnd) (pd : Nat) (a : Opnd) (entry : Nat → Nat) : QueueOp :=
  { kind := k, handle := x.g.opnd a 1 x.lead, dst := dst, pd := pd, run := x.run, act := x.act, todo := (lanesOf x.act).map (fun l => (l, entry l)) }

section
variable {s : State} {x : Issue} {i : Instr} {k : QKind} {dst : Option Opnd} {pd : Nat} {a : Opnd} {cls : Cls} {entry : Issue → Nat → Nat}
  (hexec : exec i s = laneInstr i false s (queueOp k dst pd a cls entry)) (hgo : s.issueOf i false = .go x)
include hexec hgo

theorem queueOp_idle (ha : x.act = 0) :
    ∃ t g', exec i s = .next t ∧ OnlyGroup s t x.gid g' ∧ Stepped x.g g' x.run ∧ { g' with lanes := x.g.lanes } = x.g := by
  rw [exec_of_go hgo hexec, queueOp, if_pos ha]
  exact goes_on (grp_of_issueOf hgo)

theorem queueOp_sent (ha : x.act ≠ 0) : ∃ t g', exec i s = .next t ∧ { t with groups := s.groups, ops := s.ops, nextId := s.nextId } = s ∧
    t.grp? x.gid = some g' ∧ (∀ j, j ≠ x.gid → t.grp? j = s.grp? j) ∧
    g' = { x.g with block := .queue s.nextId, cnt := x.g.cnt.set cls (x.g.cnt.get cls).issue } ∧ (∀ j, j ≠ s.nextId → mfind t.ops j = mfind s.ops j) ∧
    mfind t.ops s.nextId = some { gid := x.gid, cls := some cls, pos := (x.g.cnt.get cls).next, ctx := x.g.ctx, cluster := x.g.cluster,
                                  core := x.g.core, kind := .queue (queueSent x k dst pd a (entry x)) } := by
  have hg := grp_of_issueOf hgo
  have hadd := addOp_some hg cls (.queue (queueSent x k dst pd a (entry x)))
  have hsent : exec i s = .next ((s.addOp x.gid (some cls) (.queue (queueSent x k dst pd a (entry x)))).updGrp x.gid
      (fun g => { g with block := .queue s.nextId })) := by
    rw [exec_of_go hgo hexec, queueOp, if_neg ha]
    rfl
  refine ⟨_, _, hsent, by rw [hadd]; rfl, State.grp?_updGrp_same (grp?_addOp hg cls _) _, fun j hj => ?_, rfl, fun j hj => ?_, ?_⟩
  · exact (State.grp?_updGrp_other (Ne.symm hj) _).trans (grp?_addOp_other hg hj cls _)
  · rw [hadd]
    exact mfind_mput_other _ _ (Ne.symm hj)
  · rw [hadd]
    exact mfind_mput_same _ _ _

end

/-! ### A queue instruction that has been performed or refused (R252) -/

/-- Filtering keeps what is found where it keeps that entry. -/
theorem mfind_filter_kept {α : Type} {m : Map α} {k : Nat} {v : α} (p : Nat × α → Bool) (hm : mfind m k = some v) (hp : p (k, v) = true) :
    mfind (m.filter p) k = some v := by
  induction m with
  | nil => exact absurd hm (by simp [mfind])
  | cons e m ih =>
    obtain ⟨j, w⟩ := e
    rw [mfind] at hm
    rw [List.filter_cons]
    split at hm
    next hj =>
      obtain rfl := Option.some.inj hm
      subst hj
      rw [if_pos hp, mfind, if_pos rfl]
    next hj =>
      split
      next => rw [mfind, if_neg hj]; exact ih hm
      next => exact ih hm

/-- The results of a queue instruction. -/
def QueueOp.reply (q : QueueOp) : OpKind :=
  match q.kind with
  | .enq | .msg _ => .reply none 0 [] (some (q.pd, q.act, maskOf (q.served.map (fun e => e.1)))) (some q.at_)
  | .deq => .reply q.dst 4 q.served (some (q.pd, q.act, maskOf (q.served.map (fun e => e.1)))) none
  | .stat => .reply q.dst 4 q.served none none

/-- In `t` queue operation `id` is over, its results `k` are to be reported, and its run has gone on; nothing else has changed since `u`. -/
def QueueEnded (id : Nat) (o : Op) (run : Word) (g : Group) (t u : State) (k : OpKind) : Prop :=
  ∃ g', { t with groups := u.groups, ops := u.ops } = u ∧ t.grp? o.gid = some g' ∧ Stepped g g' run ∧ g'.block = .none ∧
    mfind t.ops id = some { o with kind := k }

section
variable {u : State} {id : Nat} {o : Op} {q : QueueOp} {g : Group} (hjob : o.job = .instr) (hg : u.grp? o.gid = some g) (hb : g.block = .queue id)
  (ho : ∃ o1, mfind u.ops id = some o1 ∧ { o1 with kind := o.kind } = o)

theorem queueDone_eq (u : State) (id : Nat) (o : Op) (q : QueueOp) : u.queueDone id o q =
    (State.forget { u with ops := mupd u.ops id (fun o => { o with kind := q.reply }) } (queueTag id)).updGrp o.gid
      (fun g => if g.block = .queue id then { (g.advance q.run) with block := .none } else g) := by
  obtain ⟨kind, handle, dst, pd, run, act, begun, at_, todo, served⟩ := q
  cases kind <;> rfl

include hjob hg hb ho

theorem queueDone_ended : QueueEnded id o q.run g (u.queueDone id o q) u q.reply := by
  obtain ⟨o1, ho1, heq⟩ := ho
  have hjob1 : o1.job = .instr := (congrArg Op.job heq :).trans hjob
  have hkind : { o1 with kind := q.reply } = { o with kind := q.reply } := (congrArg (fun o : Op => { o with kind := q.reply }) heq :)
  have hops : mfind (mupd u.ops id (fun o => { o with kind := q.reply })) id = some { o with kind := q.reply } := by
    rw [mfind_mupd, if_pos rfl, ho1, ← hkind]
    rfl
  have hst := stepped_of g g q.run rfl
  rw [queueDone_eq]
  refine ⟨_, rfl, State.grp?_updGrp_same hg _, ?_, ?_, mfind_filter_kept _ hops ?_⟩
  · rw [if_pos hb]
    exact ⟨hst.length, hst.lane⟩
  · rw [if_pos hb]
  · have hask : Op.askOf { o with kind := q.reply } (queueTag id) = false := by
      unfold Op.askOf
      simp only [hjob]
    simp only [hask, Bool.not_false]

end

/-- Reporting an operation changes no more of a group than its counters. -/
theorem endOp_group {s : State} {gid : Nat} {g : Group} (hg : s.grp? gid = some g) (id : Nat) :
    ∃ g', (s.endOp id).grp? gid = some g' ∧ { g' with cnt := g.cnt } = g := by
  unfold State.endOp
  cases mfind s.ops id with
  | none => exact ⟨g, hg, rfl⟩
  | some o =>
    dsimp only
    split
    · exact ⟨g, hg, rfl⟩
    next k _ =>
      have hg' : ({ s with ops := mdel s.ops id } : State).grp? gid = some g := hg
      by_cases h : o.gid = gid
      · subst h
        exact ⟨_, State.grp?_updGrp_same hg' _, rfl⟩
      · exact ⟨g, (State.grp?_updGrp_other h _).trans hg', rfl⟩

theorem queueRefuse_traps {s : State} {id : Nat} {o : Op} {q : QueueOp} {g : Group} (hg : s.grp? o.gid = some g) (hb : g.block = .queue id) :
    ∃ tr : TrapRec, s.queueRefuse id o q = ((s.endOp id).updGrp o.gid (fun g => { g with block := .none })).queueTrap o.gid tr ∧
      tr.cause = 0x0F ∧ tr.mask = q.act ∧ tr.run = q.act ∧ tr.addr = BitVec.ofNat 64 q.handle := by
  obtain ⟨g', hg', hsame⟩ := endOp_group hg id
  have hb' : g'.block = .queue id := (congrArg Group.block hsame :).trans hb
  refine ⟨(s.endOp id).lateTrap g' 0x0F q.act (BitVec.ofNat 64 q.handle), ?_, rfl, rfl, rfl, rfl⟩
  unfold State.queueRefuse
  simp only [hg', if_pos hb']

/-! ### Serving the lanes (R253, R254) -/

theorem slice_updSlice (s : State) (k : Nat) (f : Slice → Slice) : (s.updSlice k f).slice k = f (s.slice k) := by
  rw [State.slice, State.updSlice, mget_mput, if_pos rfl]

theorem qdesc_updQd (s : State) (h : Handle) (f : QDesc → QDesc) : (s.updQd h f).qdesc h = f (s.qdesc h) := by
  rw [State.qdesc, State.updQd, slice_updSlice]
  exact (mget_mput ..).trans (if_pos rfl)

theorem qdesc_congr {s t : State} (hs : t.slices = s.slices) (h : Handle) : t.qdesc h = s.qdesc h := by
  rw [State.qdesc, State.qdesc, State.slice, State.slice, hs]

/-- The instruction has added an entry. -/
def QueueOp.adds (q : QueueOp) : Bool :=
  match q.kind with
  | .enq | .msg _ => !q.served.isEmpty
  | _ => false

section
variable {u : State} {id : Nat} {o : Op} {h : Handle} {q : QueueOp}

/-- No wake word is written where nothing was added, or the queue has none. -/
theorem queueWake_none (hno : q.adds = false ∨ (u.qdesc h).wake = 0) : u.queueWake id o q h = u.queueDone id o q := by
  have hcond : (!q.adds || decide ((u.qdesc h).wake = 0)) = true := by
    obtain hno | hno := hno
    · rw [hno]; rfl
    · rw [decide_eq_true hno, Bool.or_true]
  have hwake : u.queueWake id o q h = if (!q.adds || decide ((u.qdesc h).wake = 0)) = true then u.queueDone id o q
      else match u.svcAccess (queueTag id) h.dev (u.qdesc h).owner (u.qdesc h).wake 8 (some (u.qdesc h).tail) with
        | (.ok _ _, s) => s.queueDone id o q
        | (.wait, s) => s.setQueue id q
        | (.fail r, s) => (s.queueStall h (u.qdesc h).wake r).queueDone id o q := by
    obtain ⟨kind, handle, dst, pd, run, act, begun, at_, todo, served⟩ := q
    unfold State.queueWake
    cases kind <;> simp only [QueueOp.adds, Bool.or_eq_true, decide_eq_true_eq] <;> rfl
  rw [hwake, if_pos hcond]

/-- The queue is full for what adds to it, empty for what takes from it. -/
def QDesc.shut (d : QDesc) (deq : Bool) : Prop := if deq then d.tail ≤ d.head else d.tail - d.head ≥ d.cap

/-- Where the queue is stalled, full or empty, a lane gets nothing. -/
theorem serveQueue_blocked {l x : Nat} {rest : List (Nat × Nat)} (hen : (u.qdesc h).en = true)
    (hblocked : (u.qdesc h).stall = true ∨ (u.qdesc h).shut (q.kind == .deq)) :
    u.serveQueue id o h q ((l, x) :: rest) = u.serveQueue id o h q rest := by
  have hcond : ((u.qdesc h).stall || (if (q.kind == .deq) = true then decide ((u.qdesc h).tail ≤ (u.qdesc h).head)
      else decide ((u.qdesc h).tail - (u.qdesc h).head ≥ (u.qdesc h).cap))) = true := by
    obtain hs | hs := hblocked
    · rw [hs]; rfl
    · unfold QDesc.shut at hs
      split at hs
      next hk => rw [if_pos hk, decide_eq_true hs, Bool.or_true]
      next hk => rw [if_neg hk, decide_eq_true hs, Bool.or_true]
  rw [State.serveQueue]
  simp only [hen, Bool.not_true, Bool.false_and, Bool.false_eq_true, if_false, hcond, if_true]

/-- Where the queue has room or an entry, the lane's access decides. -/
theorem serveQueue_ok {l x r tc : Nat} {rest : List (Nat × Nat)} {s1 : State} (hen : (u.qdesc h).en = true) (hstall : (u.qdesc h).stall = false)
    (hopen : ¬ (u.qdesc h).shut (q.kind == .deq))
    (hacc : u.svcAccess (queueTag id) h.dev (u.qdesc h).owner ((u.qdesc h).entryVa (if (q.kind == .deq) = true then (u.qdesc h).head else (u.qdesc h).tail))
      (if q.kind = .enq then 16 else (u.qdesc h).size) (if (q.kind == .deq) = true then none else some x) = (.ok r tc, s1)) :
    u.serveQueue id o h q ((l, x) :: rest) =
      ((s1.forget (queueTag id)).updQd h (fun d => if (q.kind == .deq) = true then { d with head := d.head + 1 } else { d with tail := d.tail + 1 })).serveQueue
        id o h { q with served := q.served ++ [(l, if (q.kind == .deq) = true then r else 0)] } rest := by
  have hcond : ((u.qdesc h).stall || (if (q.kind == .deq) = true then decide ((u.qdesc h).tail ≤ (u.qdesc h).head)
      else decide ((u.qdesc h).tail - (u.qdesc h).head ≥ (u.qdesc h).cap))) = false := by
    rw [hstall, Bool.false_or]
    unfold QDesc.shut at hopen
    split at hopen
    next hk => rw [if_pos hk, decide_eq_false hopen]
    next hk => rw [if_neg hk, decide_eq_false hopen]
  rw [State.serveQueue]
  simp only [hen, Bool.not_true, Bool.false_and, Bool.false_eq_true, if_false, hcond, hacc]

end

/-! ### At the slice (R252) -/

/-- The instruction is a QENQ or an AMSG. -/
def QueueOp.adding (q : QueueOp) : Bool := match q.kind with | .enq | .msg _ => true | _ => false
/-- What the queue must be for the instruction, where it matters. -/
def QueueOp.wants (q : QueueOp) : Option Bool := match q.kind with | .deq => some false | .msg _ => some true | .enq | .stat => none

/-- The checks of R252 let the instruction through. -/
def QueueOp.Open (q : QueueOp) (ctx : Nat) (d : QDesc) : Prop :=
  d.en = true ∧ (d.owner = ctx ∨ q.adding = true ∧ d.open_ = true) ∧ ∀ b, q.wants = some b → d.am = b

theorem queueOf_eq {s : State} {ctx : Nat} {q : QueueOp} {h : Handle} (hh : s.handle? q.handle = some h) [Decidable (q.Open ctx (s.qdesc h))] :
    s.queueOf ctx q.handle q.adding q.wants = if q.Open ctx (s.qdesc h) then some h else none := by
  have hcond : ((s.qdesc h).en && ((s.qdesc h).owner == ctx || (q.adding && (s.qdesc h).open_)) && !(q.wants.any (fun b => b != (s.qdesc h).am))) = true ↔
      q.Open ctx (s.qdesc h) := by
    unfold QueueOp.Open
    cases hw : q.wants with
    | none => simp
    | some b => simp [and_assoc, @eq_comm Bool b]
  unfold State.queueOf
  simp only [hh, hcond]

/-- The instruction as its slice records it at `now`. -/
def QueueOp.atSlice (q : QueueOp) (now : Nat) : QueueOp := { q with begun := true, at_ := now }
/-- And with its entries completed. -/
def State.completed (s : State) (o : Op) (h : Handle) (q : QueueOp) (now : Nat) : QueueOp :=
  { q.atSlice now with todo := q.todo.map (s.queueEntry o h (q.atSlice now) now) }

section
variable {s : State} {id : Nat} {o : Op} {q : QueueOp} {h : Handle} (ho : mfind s.ops id = some o) (hk : o.kind = .queue q)
include ho hk

theorem exec_queueRequest : exec (.homeRequest id 0) s = .next (s.queueStep id o q) := by
  simp only [exec, execHomeRequest, ho, hk]

theorem exec_queueUnknown (hh : s.handle? q.handle = none) : exec (.homeRequest id 0) s = .next (s.queueRefuse id o q) := by
  rw [exec_queueRequest ho hk, State.queueStep]
  simp only [hh]

variable (hh : s.handle? q.handle = some h) (hbegun : q.begun = false)
include hh hbegun

theorem exec_queueHeld (hheld : s.sentOlder id o h.slice = true ∨ s.noCredit o h.slice = true ∨ s.queueBusy id h = true) :
    exec (.homeRequest id 0) s = .next s := by
  have hcond : (s.sentOlder id o h.slice || s.noCredit o h.slice || s.queueBusy id h) = true := by
    obtain hc | hc | hc := hheld <;> rw [hc] <;> simp
  rw [exec_queueRequest ho hk, State.queueStep]
  simp only [hh, hbegun, Bool.false_eq_true, if_false, hcond, if_true]

variable (h1 : s.sentOlder id o h.slice = false) (h2 : s.noCredit o h.slice = false) (h3 : s.queueBusy id h = false)
include h1 h2 h3

theorem exec_queueChecked : exec (.homeRequest id 0) s = .next (match s.queueOf o.ctx q.handle q.adding q.wants with
    | none => s.queueRefuse id o q
    | some h => s.beginQueue id o h q) := by
  rw [exec_queueRequest ho hk, State.queueStep]
  simp only [hh, hbegun, Bool.false_eq_true, if_false, h1, h2, h3, Bool.or_self]
  rfl

theorem exec_queueClosed (hclosed : ¬ q.Open o.ctx (s.qdesc h)) : exec (.homeRequest id 0) s = .next (s.queueRefuse id o q) := by
  classical
  rw [exec_queueChecked ho hk hh hbegun h1 h2 h3, queueOf_eq hh, if_neg hclosed]

theorem exec_queueBegun (hopen : q.Open o.ctx (s.qdesc h)) : exec (.homeRequest id 0) s = .next (s.beginQueue id o h q) := by
  classical
  rw [exec_queueChecked ho hk hh hbegun h1 h2 h3, queueOf_eq hh, if_pos hopen]

end

theorem beginQueue_stat {s : State} {id : Nat} {o : Op} {q : QueueOp} {h : Handle} (hk : q.kind = .stat) : s.beginQueue id o h q =
    s.queueDone id o { q.atSlice (s.now - mget 0 s.lagSl h.slice) with
      served := q.todo.map (fun e => (e.1, (s.qdesc h).statWords)), todo := [] } := by
  obtain ⟨kind, handle, dst, pd, run, act, begun, at_, todo, served⟩ := q
  obtain rfl : kind = .stat := hk
  rfl

theorem beginQueue_serve {s : State} {id : Nat} {o : Op} {q : QueueOp} {h : Handle} (hk : q.kind ≠ .stat) : s.beginQueue id o h q =
    (s.setQueue id (s.completed o h q (s.now - mget 0 s.lagSl h.slice))).serveQueue id o h (s.completed o h q (s.now - mget 0 s.lagSl h.slice))
      (s.completed o h q (s.now - mget 0 s.lagSl h.slice)).todo := by
  obtain ⟨kind, handle, dst, pd, run, act, begun, at_, todo, served⟩ := q
  cases kind with
  | stat => exact absurd rfl hk
  | _ => rfl

theorem queueEntry_fst (s : State) (o : Op) (h : Handle) (q : QueueOp) (t : Nat) (e : Nat × Nat) : (s.queueEntry o h q t e).1 = e.1 := by
  unfold State.queueEntry
  split <;> rfl

/-! ### One lane at the slice (R252–R254) -/

section
variable {s : State} {id : Nat} {o : Op} {q : QueueOp} {g : Group} {h : Handle} (ho : mfind s.ops id = some o) (hjob : o.job = .instr)
  (hg : s.grp? o.gid = some g) (hb : g.block = .queue id)
include ho hjob hg hb

theorem ended_setQueue {p p' : QueueOp} (hrun : p.run = q.run) : QueueEnded id o q.run g ((s.setQueue id p').queueDone id o p) s p.reply := by
  have ho' : mfind (s.setQueue id p').ops id = some { o with kind := .queue p' } := by
    rw [State.setQueue]
    exact (mfind_mupd ..).trans (by rw [if_pos rfl, ho]; rfl)
  obtain ⟨g', hrest, hgrp, hstep, hblock, hop⟩ := queueDone_ended (q := p) hjob (u := s.setQueue id p') hg hb ⟨_, ho', rfl⟩
  exact ⟨g', (congrArg (fun t : State => { t with ops := s.ops }) hrest :), hgrp, hrun ▸ hstep, hblock, hop⟩

theorem stat_ended (hk : q.kind = .stat) : QueueEnded id o q.run g (s.beginQueue id o h q) s
    (.reply q.dst 4 (q.todo.map (fun e => (e.1, (s.qdesc h).statWords))) none none) := by
  have hend := queueDone_ended hjob hg hb (q := { q.atSlice (s.now - mget 0 s.lagSl h.slice) with
    served := q.todo.map (fun e => (e.1, (s.qdesc h).statWords)), todo := [] }) ⟨o, ho, rfl⟩
  rw [beginQueue_stat hk]
  obtain ⟨kind, handle, dst, pd, run, act, begun, at_, todo, served⟩ := q
  obtain rfl : kind = .stat := hk
  exact hend

end

/-- The results of an instruction of one lane, whose entry is `got` if it has one. -/
def QueueOp.replyFor (q : QueueOp) (now : Nat) (got : List (Nat × Nat)) : OpKind :=
  if q.adding then .reply none 0 [] (some (q.pd, q.act, maskOf (got.map (fun e => e.1)))) (some now)
  else .reply q.dst 4 got (some (q.pd, q.act, maskOf (got.map (fun e => e.1)))) none

theorem reply_completed {q : QueueOp} (hk : q.kind ≠ .stat) (now : Nat) (got todo : List (Nat × Nat)) :
    QueueOp.reply { q.atSlice now with todo := todo, served := got } = q.replyFor now got := by
  obtain ⟨kind, handle, dst, pd, run, act, begun, at_, todo0, served⟩ := q
  cases kind with
  | stat => exact absurd rfl hk
  | _ => rfl

theorem deq_iff {q : QueueOp} (hk : q.kind ≠ .stat) : (q.kind == .deq) = !q.adding := by
  obtain ⟨kind, handle, dst, pd, run, act, begun, at_, todo0, served⟩ := q
  cases kind with
  | stat => exact absurd rfl hk
  | _ => rfl

/-- What a served lane does to the descriptor: it takes the entry at the head, or adds one at the tail. -/
def QueueOp.moves (q : QueueOp) (d : QDesc) : QDesc := if (q.kind == .deq) = true then { d with head := d.head + 1 } else { d with tail := d.tail + 1 }

/-- The state after an access of the instruction still holds its operation. -/
theorem kept_forget {s : State} {id : Nat} {o : Op} (hjob : o.job = .instr) (ho : ∃ o1, mfind s.ops id = some o1 ∧ { o1 with kind := o.kind } = o) :
    ∃ o1, mfind (s.forget (queueTag id)).ops id = some o1 ∧ { o1 with kind := o.kind } = o := by
  obtain ⟨o1, h1, heq⟩ := ho
  have hjob1 : o1.job = .instr := (congrArg Op.job heq :).trans hjob
  refine ⟨o1, mfind_filter_kept _ h1 ?_, heq⟩
  unfold Op.askOf
  simp only [hjob1, Bool.not_false]

theorem adds_of_not_adding {q : QueueOp} (h : q.adding = false) : q.adds = false := by
  obtain ⟨kind, handle, dst, pd, run, act, begun, at_, todo, served⟩ := q
  cases kind with
  | enq => exact absurd h (by simp [QueueOp.adding])
  | msg hn => exact absurd h (by simp [QueueOp.adding])
  | _ => rfl

section
variable {u s1 : State} {id : Nat} {o : Op} {p : QueueOp} {g : Group} {h : Handle} {l x r tc : Nat}

/-- The last lane of an instruction, which gets nothing. -/
theorem lastBlocked (hen : (u.qdesc h).en = true) (hserved : p.served = []) (hblocked : (u.qdesc h).stall = true ∨ (u.qdesc h).shut (p.kind == .deq)) :
    u.serveQueue id o h p [(l, x)] = u.queueDone id o { p with todo := [] } := by
  have hadds : QueueOp.adds { p with todo := [] } = false := by
    unfold QueueOp.adds
    simp only [hserved, List.isEmpty_nil, Bool.not_true]
    split <;> rfl
  rw [serveQueue_blocked hen hblocked]
  exact queueWake_none (.inl hadds)

/-- The last lane of an instruction, which is served. -/
theorem lastServed (hen : (u.qdesc h).en = true) (hstall : (u.qdesc h).stall = false) (hopen : ¬ (u.qdesc h).shut (p.kind == .deq))
    (hacc : u.svcAccess (queueTag id) h.dev (u.qdesc h).owner ((u.qdesc h).entryVa (if (p.kind == .deq) = true then (u.qdesc h).head else (u.qdesc h).tail))
      (if p.kind = .enq then 16 else (u.qdesc h).size) (if (p.kind == .deq) = true then none else some x) = (.ok r tc, s1))
    (hwake : p.adding = false ∨ (s1.qdesc h).wake = 0) :
    u.serveQueue id o h p [(l, x)] = ((s1.forget (queueTag id)).updQd h p.moves).queueDone id o
      { p with served := p.served ++ [(l, if (p.kind == .deq) = true then r else 0)], todo := [] } := by
  rw [serveQueue_ok hen hstall hopen hacc]
  refine queueWake_none (hwake.imp (fun hno => adds_of_not_adding hno) fun hw => ?_)
  have hmoved : ((s1.forget (queueTag id)).updQd h p.moves).qdesc h = p.moves (s1.qdesc h) := qdesc_updQd ..
  refine (congrArg QDesc.wake hmoved).trans (Eq.trans ?_ hw)
  unfold QueueOp.moves
  split <;> rfl

/-- Once the last lane has been served, the instruction is over. -/
theorem served_ended (hjob : o.job = .instr) (hb : g.block = .queue id) (hg1 : s1.grp? o.gid = some g)
    (ho1 : ∃ o1, mfind s1.ops id = some o1 ∧ { o1 with kind := o.kind } = o) (f : QDesc → QDesc) :
    (((s1.forget (queueTag id)).updQd h f).queueDone id o p).qdesc h = f (s1.qdesc h) ∧
      (((s1.forget (queueTag id)).updQd h f).queueDone id o p).mem = s1.mem ∧
      QueueEnded id o p.run g (((s1.forget (queueTag id)).updQd h f).queueDone id o p) (s1.updQd h f) p.reply := by
  have hend := queueDone_ended (u := (s1.forget (queueTag id)).updQd h f) (q := p) hjob hg1 hb (kept_forget hjob ho1)
  obtain ⟨g', hrest, hgrp, hstep, hblock, hop⟩ := hend
  refine ⟨?_, (congrArg State.mem hrest :), g', (congrArg (fun t : State => { t with ops := s1.ops }) hrest :), hgrp, hstep, hblock, hop⟩
  exact (qdesc_congr (congrArg State.slices hrest :) h).trans (qdesc_updQd (s1.forget (queueTag id)) h f)

end

section
variable {s : State} {id : Nat} {o : Op} {q : QueueOp} {g : Group} {h : Handle} {l v : Nat}

/-- The instant that the slice records. -/
def State.sliceNow (s : State) (h : Handle) : Nat := s.now - mget 0 s.lagSl h.slice
/-- The one lane's entry, completed. -/
def State.oneEntry (s : State) (o : Op) (h : Handle) (q : QueueOp) (l v : Nat) : Nat :=
  (s.queueEntry o h (q.atSlice (s.sliceNow h)) (s.sliceNow h) (l, v)).2
/-- The state in which the slice has recorded the instruction. -/
def State.recorded (s : State) (id : Nat) (o : Op) (h : Handle) (q : QueueOp) : State := s.setQueue id (s.completed o h q (s.sliceNow h))

theorem qdesc_recorded (s : State) (id : Nat) (o : Op) (h : Handle) (q : QueueOp) : (s.recorded id o h q).qdesc h = s.qdesc h := rfl

theorem beginQueue_one (hk : q.kind ≠ .stat) (htodo : q.todo = [(l, v)]) : s.beginQueue id o h q =
    (s.recorded id o h q).serveQueue id o h (s.completed o h q (s.sliceNow h)) [(l, s.oneEntry o h q l v)] := by
  have hone : (s.completed o h q (s.sliceNow h)).todo = [(l, s.oneEntry o h q l v)] := by
    unfold State.completed State.oneEntry
    rw [htodo]
    exact congrArg (fun e => [e]) (Prod.ext (queueEntry_fst ..) rfl)
  rw [beginQueue_serve hk, ← hone]
  rfl

variable (hjob : o.job = .instr) (hb : g.block = .queue id) (hk : q.kind ≠ .stat) (htodo : q.todo = [(l, v)]) (hserved : q.served = [])
  (hen : (s.qdesc h).en = true)
include hjob hb hk htodo hserved hen

theorem one_blocked (ho : mfind s.ops id = some o) (hg : s.grp? o.gid = some g)
    (hblocked : (s.qdesc h).stall = true ∨ (s.qdesc h).shut (q.kind == .deq)) :
    QueueEnded id o q.run g (s.beginQueue id o h q) s (q.replyFor (s.sliceNow h) []) := by
  have hserve := lastBlocked (u := s.recorded id o h q) (id := id) (o := o) (h := h) (p := s.completed o h q (s.sliceNow h)) (l := l)
    (x := s.oneEntry o h q l v) hen hserved hblocked
  have hreply : QueueOp.reply { s.completed o h q (s.sliceNow h) with todo := [] } = q.replyFor (s.sliceNow h) [] := by
    rw [← reply_completed hk (s.sliceNow h) [] []]
    exact congrArg (fun xs => QueueOp.reply { q.atSlice (s.sliceNow h) with todo := [], served := xs }) hserved
  rw [beginQueue_one hk htodo, hserve, ← hreply]
  exact ended_setQueue ho hjob hg hb rfl

theorem one_served {r tc : Nat} {s1 : State} (hstall : (s.qdesc h).stall = false) (hopen : ¬ (s.qdesc h).shut (q.kind == .deq))
    (hg1 : s1.grp? o.gid = some g) (ho1 : ∃ o1, mfind s1.ops id = some o1 ∧ { o1 with kind := o.kind } = o)
    (hacc : (s.recorded id o h q).svcAccess (queueTag id) h.dev (s.qdesc h).owner
      ((s.qdesc h).entryVa (if (q.kind == .deq) = true then (s.qdesc h).head else (s.qdesc h).tail))
      (if q.kind = .enq then 16 else (s.qdesc h).size) (if (q.kind == .deq) = true then none else some (s.oneEntry o h q l v)) = (.ok r tc, s1))
    (hd1 : s1.qdesc h = s.qdesc h) (hwake : q.adding = false ∨ (s.qdesc h).wake = 0) :
    (s.beginQueue id o h q).qdesc h = q.moves (s.qdesc h) ∧ (s.beginQueue id o h q).mem = s1.mem ∧
      QueueEnded id o q.run g (s.beginQueue id o h q) (s1.updQd h q.moves)
        (q.replyFor (s.sliceNow h) [(l, if (q.kind == .deq) = true then r else 0)]) := by
  have hserve := lastServed (u := s.recorded id o h q) (id := id) (o := o) (h := h) (p := s.completed o h q (s.sliceNow h)) (l := l)
    (x := s.oneEntry o h q l v) (r := r) (tc := tc) (s1 := s1) hen hstall hopen hacc (hd1 ▸ hwake)
  have hreply : QueueOp.reply { s.completed o h q (s.sliceNow h) with
      served := q.served ++ [(l, if (q.kind == .deq) = true then r else 0)], todo := [] } =
      q.replyFor (s.sliceNow h) [(l, if (q.kind == .deq) = true then r else 0)] := by
    rw [hserved, List.nil_append, ← reply_completed hk (s.sliceNow h) _ []]
    rfl
  have hend := served_ended (h := h) (p := { s.completed o h q (s.sliceNow h) with
    served := q.served ++ [(l, if (q.kind == .deq) = true then r else 0)], todo := [] }) hjob hb hg1 ho1 q.moves
  rw [hreply, hd1] at hend
  rw [beginQueue_one hk htodo, hserve]
  exact hend

end

/-! ### What the end of lanes leaves of a group (R180, R258) -/

/-- The registers, counters and waits of a group have not changed, and its exited lanes are exited. -/
structure GroupKept (g g' : Group) : Prop where
  v : g'.v = g.v
  sc : g'.sc = g.sc
  cnt : g'.cnt = g.cnt
  block : g'.block = g.block
  gcall : g'.gcall = g.gcall
  am : g'.am = g.am
  isSeq : g'.isSeq = g.isSeq
  length : g'.lanes.length = g.lanes.length
  exited : ∀ l, (g.lane l).st = .exited → (g'.lane l).st = .exited

theorem GroupKept.refl (g : Group) : GroupKept g g := ⟨rfl, rfl, rfl, rfl, rfl, rfl, rfl, rfl, fun _ h => h⟩

theorem GroupKept.trans {g g' g'' : Group} (h : GroupKept g g') (h' : GroupKept g' g'') : GroupKept g g'' :=
  ⟨h'.v.trans h.v, h'.sc.trans h.sc, h'.cnt.trans h.cnt, h'.block.trans h.block, h'.gcall.trans h.gcall, h'.am.trans h.am, h'.isSeq.trans h.isSeq,
    h'.length.trans h.length, fun l hl => h'.exited l (h.exited l hl)⟩

theorem lt_of_exited {g : Group} {l : Nat} (h : (g.lane l).st = .exited) : l < g.lanes.length := by
  by_contra hl
  rw [Group.lane, List.getD_eq_default _ _ (Nat.not_lt.mp hl)] at h
  exact absurd h (by decide)

theorem kept_mapLanes (g : Group) (f : Nat → Lane → Lane) (hf : ∀ l, (g.lane l).st = .exited → (f l (g.lane l)).st = .exited) :
    GroupKept g (g.mapLanes f) :=
  ⟨rfl, rfl, rfl, rfl, rfl, rfl, rfl, length_mapFrom .., fun l hl => by rw [lane_mapLanes _ _ _ (lt_of_exited hl)]; exact hf l hl⟩

theorem kept_passTbar (g : Group) : GroupKept g g.passTbar :=
  kept_mapLanes g _ fun l hl => by rw [if_neg (by rw [hl]; decide)]; exact hl

/-- A barrier lets only lanes that wait at it go. -/
theorem kept_releaseTest (g : Group) (n : Nat) : GroupKept g (g.releaseTest n) := by
  unfold Group.releaseTest
  dsimp only
  split
  next hall =>
    obtain ⟨-, hall⟩ := hall
    refine GroupKept.trans (g' := { g with b := mdel g.b n }) ⟨rfl, rfl, rfl, rfl, rfl, rfl, rfl, rfl, fun _ h => h⟩ (kept_mapLanes _ _ fun l hl => ?_)
    have hl' : (g.lane l).st = .exited := hl
    have hout : (mget 0 g.b n).getLsbD l = false := by
      by_contra hin
      have hwait : (mget 0 g.b n &&& ~~~(g.lanesWhere (fun x => x.st == .rejoin n))).getLsbD l = false := by
        rw [beq_iff_eq.mp hall]
        exact BitVec.getLsbD_zero
      have h32 : l < 32 := BitVec.lt_of_getLsbD (Bool.not_eq_false _ |>.mp hin)
      rw [BitVec.getLsbD_and, Bool.not_eq_false _ |>.mp hin, Bool.true_and, BitVec.getLsbD_not, decide_eq_true h32, Bool.true_and,
        Group.lanesWhere, getLsbD_maskWhere _ _ h32] at hwait
      simp [hl'] at hwait
    rw [hout]
    exact hl
  next => exact GroupKept.refl g

theorem kept_foldl_releaseTest (ns : List Nat) (g : Group) : GroupKept g (ns.foldl Group.releaseTest g) := by
  induction ns generalizing g with
  | nil => exact GroupKept.refl g
  | cons n ns ih => exact (kept_releaseTest g n).trans (ih _)

theorem kept_returnTrap (g : Group) : GroupKept g (g.returnTrap .skip) := by
  cases hq : g.trapq with
  | nil =>
    rw [Group.returnTrap, hq]
    exact GroupKept.refl g
  | cons t rest =>
    have hlane := lane_returnTrap hq .skip
    have hlen := length_returnTrap hq .skip
    rw [returnTrap_cons hq] at hlane hlen ⊢
    refine ⟨rfl, rfl, rfl, rfl, rfl, rfl, rfl, hlen, fun l hl => ?_⟩
    rw [hlane l (lt_of_exited hl)]
    split
    · rw [returnLane, if_pos (by rw [hl]; rfl)]
      exact hl
    · exact hl

/-- The lanes of `m` as EXIT leaves them, before the barriers are tested. -/
def Group.exitLanes (g : Group) (m : Word) : Group :=
  g.onLanes m (fun l => { l with st := if g.inCallee then .gret else .exited })

/-- The barriers without the lanes of `m`. -/
def Group.leaveBarriers (g : Group) (m : Word) : Group := { g with b := (g.b.map (fun e => (e.1, e.2 &&& ~~~m))).filter (fun e => e.2 != 0) }

theorem kept_leaveBarriers (g : Group) (m : Word) : GroupKept g (g.leaveBarriers m) := ⟨rfl, rfl, rfl, rfl, rfl, rfl, rfl, rfl, fun _ h => h⟩

theorem endLanes_eq (g : Group) (m : Word) : g.endLanes m = (List.range 16).foldl Group.releaseTest ((g.exitLanes m).leaveBarriers m) := rfl

theorem kept_endLanes (g : Group) (m : Word) : GroupKept (g.exitLanes m) (g.endLanes m) := by
  rw [endLanes_eq]
  exact (kept_leaveBarriers _ m).trans (kept_foldl_releaseTest _ _)

theorem kept_exitLanes (g : Group) (m : Word) (hc : g.inCallee = false) : GroupKept g (g.exitLanes m) := by
  refine kept_mapLanes _ _ fun l hl => ?_
  rw [hc]
  split
  · rfl
  · exact hl

theorem exited_exitLanes {g : Group} {m : Word} (hc : g.inCallee = false) {l : Nat} (hl : l < g.lanes.length) (hm : m.getLsbD l = true) :
    ((g.exitLanes m).lane l).st = .exited := by
  rw [Group.exitLanes, onLanes_lane _ _ _ _ hl, if_pos hm, hc]
  rfl

/-! ### What the tests that follow leave of a group (R132, R181) -/

/-- From `s` to `t` group `gid` has kept its registers, and no byte of memory and no slice has changed. -/
def KeepsGroup (gid : Nat) (s t : State) : Prop :=
  t.mem = s.mem ∧ t.slices = s.slices ∧ ∀ g, s.grp? gid = some g → ∃ g', t.grp? gid = some g' ∧ GroupKept g g'

theorem KeepsGroup.refl (gid : Nat) (s : State) : KeepsGroup gid s s := ⟨rfl, rfl, fun g hg => ⟨g, hg, GroupKept.refl g⟩⟩

theorem KeepsGroup.trans {gid : Nat} {s t u : State} (h : KeepsGroup gid s t) (h' : KeepsGroup gid t u) : KeepsGroup gid s u := by
  refine ⟨h'.1.trans h.1, h'.2.1.trans h.2.1, fun g hg => ?_⟩
  obtain ⟨g', hg', hk⟩ := h.2.2 g hg
  obtain ⟨g'', hg'', hk'⟩ := h'.2.2 g' hg'
  exact ⟨g'', hg'', hk.trans hk'⟩

theorem keeps_updGrp (s : State) (gid j : Nat) {f : Group → Group} (hf : ∀ g, GroupKept g (f g)) : KeepsGroup gid s (s.updGrp j f) := by
  refine ⟨rfl, rfl, fun g hg => ?_⟩
  by_cases h : j = gid
  · subst h
    exact ⟨f g, State.grp?_updGrp_same hg f, hf g⟩
  · exact ⟨g, (State.grp?_updGrp_other h f).trans hg, GroupKept.refl g⟩

theorem keeps_updGrp_other (s : State) {gid j : Nat} (h : j ≠ gid) (f : Group → Group) : KeepsGroup gid s (s.updGrp j f) :=
  ⟨rfl, rfl, fun g hg => ⟨g, (State.grp?_updGrp_other h f).trans hg, GroupKept.refl g⟩⟩

theorem keeps_of_groups {gid : Nat} {s t : State} (hm : t.mem = s.mem) (hs : t.slices = s.slices) (hg : t.groups = s.groups) : KeepsGroup gid s t :=
  ⟨hm, hs, fun g h => ⟨g, (congrArg (fun gs => mfind gs gid) hg).trans h, GroupKept.refl g⟩⟩

theorem keeps_addErr (s : State) (gid c : Nat) (e : ErrRec) : KeepsGroup gid s (s.addErr c e) :=
  keeps_of_groups (State.addErr_mem ..) (State.addErr_slices ..) (State.addErr_groups ..)

theorem keepsGroup_foldl {α : Type} {gid : Nat} {f : State → α → State} (h : ∀ s x, KeepsGroup gid s (f s x)) (xs : List α) (s : State) :
    KeepsGroup gid s (xs.foldl f s) := by
  induction xs generalizing s with
  | nil => exact KeepsGroup.refl gid s
  | cons x xs ih => exact (h s x).trans (ih _)

theorem keeps_tbarTest (s : State) (gid gang team : Nat) : KeepsGroup gid s (s.tbarTest gang team) := by
  unfold State.tbarTest
  dsimp only
  split
  · exact KeepsGroup.refl gid s
  · exact KeepsGroup.trans (keeps_of_groups rfl rfl rfl) (keepsGroup_foldl (fun s (e : Nat × Group) => keeps_updGrp s gid e.1 kept_passTbar) _ _)

theorem keeps_queueTrap {s : State} {gid j : Nat} (h : j ≠ gid) (t : TrapRec) : KeepsGroup gid s (s.queueTrap j t) := by
  unfold State.queueTrap
  split
  · exact KeepsGroup.refl gid s
  next g _ =>
    split
    · unfold State.seqFault
      split
      · exact KeepsGroup.refl gid s
      · exact (keeps_updGrp_other s h _).trans (keeps_addErr ..)
    · split
      · exact (keeps_updGrp_other s h _).trans (keeps_addErr ..)
      · split
        · exact KeepsGroup.refl gid s
        · exact keeps_updGrp_other s h _

theorem keeps_refuseGrow {s : State} {gid j : Nat} (h : j = gid → ∀ g, s.grp? gid = some g → g.gcall = none ∧ g.block = .none) :
    KeepsGroup gid s (s.refuseGrow j) := by
  by_cases hj : j = gid
  · subst hj
    unfold State.refuseGrow
    split
    · exact KeepsGroup.refl j s
    next g hg =>
      obtain ⟨hcall, hblock⟩ := h rfl g hg
      simp only [hcall, hblock]
      exact KeepsGroup.refl j s
  · unfold State.refuseGrow
    split
    · exact KeepsGroup.refl gid s
    · split
      · exact (keeps_updGrp_other s hj _).trans (keeps_queueTrap hj _)
      · split
        · exact keeps_updGrp_other s hj _
        · exact (keeps_updGrp_other s hj _).trans (keeps_queueTrap hj _)
        · exact KeepsGroup.refl gid s

theorem keeps_deadlockCheck {gid : Nat} (core n : Nat) {s : State} {g : Group} (hg : s.grp? gid = some g) (hcall : g.gcall = none)
    (hblock : g.block = .none) : KeepsGroup gid s (s.deadlockCheck core n) := by
  induction n generalizing s g with
  | zero => exact KeepsGroup.refl gid s
  | succ n ih =>
    rw [deadlockCheck_succ]
    split
    · split
      next o y _ _ =>
        split
        · exact KeepsGroup.refl gid s
        · have hk : KeepsGroup gid s (s.refuseGrow y.1) := keeps_refuseGrow fun _ g' hg' => by
            obtain rfl := Option.some.inj (hg'.symm.trans hg)
            exact ⟨hcall, hblock⟩
          obtain ⟨g', hg', hkg⟩ := hk.2.2 g hg
          exact hk.trans (ih hg' (hkg.gcall.trans hcall) (hkg.block.trans hblock))
      next => exact KeepsGroup.refl gid s
    · exact KeepsGroup.refl gid s

/-! ### AMDONE (R258) -/

/-- What AMDONE does once its fence has started. -/
def State.amdoneTry (s : State) (x : Issue) : State :=
  match s.grp? x.gid with
  | none => s
  | some g => if s.fenceReady x.gid g .device then s.amdoneEnd x.gid x.run x.act else s.updGrp x.gid (fun g => { g with block := .amdone x.run x.act })

theorem exec_amdone {h : Hdr} {s : State} {x : Issue} (hgo : s.issueOf (.amdone h) false = .go x) : exec (.amdone h) s = .next (
    if x.act = 0 then x.done s id
    else if x.g.am.isNone then s.queueTrap x.gid (x.trap s 0x04 x.act x.act)
    else (s.startFence x.gid .device).amdoneTry x) :=
  exec_of_go (eff := fun x s => if x.act = 0 then x.done s id
    else if x.g.am.isNone then s.queueTrap x.gid (x.trap s 0x04 x.act x.act)
    else (s.startFence x.gid .device).amdoneTry x) hgo rfl

/-- The group of an AMDONE once its lanes have ended. -/
def Group.amEnded (g : Group) (m : Word) : Group := if (g.endLanes m).handlerDone then (g.endLanes m).returnTrap .skip else g.endLanes m

theorem kept_amEnded (g : Group) (m : Word) : GroupKept (g.exitLanes m) (g.amEnded m) := by
  unfold Group.amEnded
  split
  · exact (kept_endLanes g m).trans (kept_returnTrap _)
  · exact kept_endLanes g m

/-- The tests that follow the end of lanes. -/
def State.endTests (s : State) (gid : Nat) : State :=
  match s.grp? gid with
  | none => s
  | some g => if g.isSeq then s else (s.tbarTest g.gang g.team).deadlockCheck g.core 64

theorem endLanes_state (s : State) (gid : Nat) (m : Word) :
    s.endLanes gid m = ((s.updGrp gid (fun g => g.amEnded m)).amCount gid m).endTests gid := rfl

theorem keeps_endTests {s : State} {gid : Nat} {g : Group} (hg : s.grp? gid = some g) (hcall : g.gcall = none) (hblock : g.block = .none) :
    KeepsGroup gid s (s.endTests gid) := by
  unfold State.endTests
  simp only [hg]
  split
  · exact KeepsGroup.refl gid s
  · have ht := keeps_tbarTest s gid g.gang g.team
    obtain ⟨g', hg', hk⟩ := ht.2.2 g hg
    exact ht.trans (keeps_deadlockCheck g.core 64 hg' (hk.gcall.trans hcall) (hk.block.trans hblock))

/-- The messages of ended lanes count as done. -/
theorem amCount_done {s : State} {gid : Nat} {g : Group} {sl q : Nat} {left m : Word} (hg : s.grp? gid = some g) (ham : g.am = some (sl, q, left))
    (hall : ∀ l, l < 32 → m.getLsbD l = true → (g.lane l).st = .exited) : ∃ g', (s.amCount gid m).grp? gid = some g' ∧
      { g' with am := g.am } = g ∧ (s.amCount gid m).mem = s.mem ∧
      (mget {} ((s.amCount gid m).slice sl).qd q).done = (mget {} (s.slice sl).qd q).done + popMask (left &&& m) := by
  have hended : left &&& m &&& g.lanesWhere (fun x => x.st == .exited) = left &&& m := by
    refine BitVec.eq_of_getLsbD_eq fun l hl => ?_
    rw [BitVec.getLsbD_and, BitVec.getLsbD_and, Group.lanesWhere, getLsbD_maskWhere _ _ hl]
    cases hm : m.getLsbD l with
    | false => simp
    | true => simp [hall l hl hm]
  unfold State.amCount
  simp only [hg, ham, hended]
  split
  next h0 =>
    rw [h0]
    exact ⟨g, hg, ham ▸ rfl, rfl, (Nat.add_zero _).symm⟩
  next =>
    refine ⟨_, State.grp?_updGrp_same hg _, by rw [← ham], rfl, ?_⟩
    have hslice : ∀ (u : State) (x : Slice), State.slice { u with slices := mput u.slices sl x } sl = x := fun u x =>
      (mget_mput ..).trans (if_pos rfl)
    refine (congrArg (fun x : Slice => (mget ({} : QDesc) x.qd q).done) (hslice _ _)).trans ?_
    exact congrArg QDesc.done ((mget_mput ..).trans (if_pos rfl))

/-- The group of an AMDONE as it ends its lanes: the rest of the run has advanced, and it has been counted. -/
def Group.amCounted (g : Group) (run act : Word) : Group := Group.count { (g.advance (run &&& ~~~act)) with block := .none } .st

theorem amdoneEnd_does {s : State} {gid sl q : Nat} {g : Group} {run act left : Word} (hg : s.grp? gid = some g) (ham : g.am = some (sl, q, left))
    (hc : g.inCallee = false) (hcall : g.gcall = none) (hlen : g.lanes.length = 32) : ∃ g', (s.amdoneEnd gid run act).grp? gid = some g' ∧
      (s.amdoneEnd gid run act).mem = s.mem ∧ g'.v = g.v ∧ g'.sc = g.sc ∧ g'.block = .none ∧
      (∀ l, l < 32 → act.getLsbD l = true → (g'.lane l).st = .exited) ∧ g'.cnt = g.cnt.set .st (g.cnt.get .st).issue ∧
      (mget {} ((s.amdoneEnd gid run act).slice sl).qd q).done = (mget {} (s.slice sl).qd q).done + popMask (left &&& act) := by
  have hg1 : (s.updGrp gid (fun g => { (g.advance (run &&& ~~~act)) with block := .none })).grp? gid =
      some { (g.advance (run &&& ~~~act)) with block := .none } := State.grp?_updGrp_same hg _
  have hadd := addOp_some hg1 .st (.reply none 0 [] none none)
  have hg2 := grp?_addOp hg1 .st (.reply none 0 [] none none)
  obtain ⟨u, hu⟩ : ∃ u, u = (s.updGrp gid (fun g => { (g.advance (run &&& ~~~act)) with block := .none })).addOp gid (some .st)
    (.reply none 0 [] none none) := ⟨_, rfl⟩
  rw [← hu] at hg2
  have hmem : u.mem = s.mem := by rw [hu, hadd]; rfl
  have hslices : u.slices = s.slices := by rw [hu, hadd]; rfl
  have hend : s.amdoneEnd gid run act = ((u.updGrp gid (fun g => g.amEnded act)).amCount gid act).endTests gid := by rw [hu]; rfl
  have hlen2 : (g.amCounted run act).lanes.length = 32 := (onLanes_lanes_length ..).trans hlen
  have hexit : ∀ l, l < 32 → act.getLsbD l = true → (((g.amCounted run act).exitLanes act).lane l).st = .exited := fun l hl hm =>
    exited_exitLanes (g := g.amCounted run act) hc (by rw [hlen2]; exact hl) hm
  have hk := kept_amEnded (g.amCounted run act) act
  have hg3 : (u.updGrp gid (fun g => g.amEnded act)).grp? gid = some ((g.amCounted run act).amEnded act) := State.grp?_updGrp_same hg2 _
  obtain ⟨g4, hg4, hsame, hmem4, hdone⟩ := amCount_done hg3 (hk.am.trans ham) fun l hl hm => hk.exited l (hexit l hl hm)
  have hblock4 : g4.block = .none := (congrArg Group.block hsame :).trans hk.block
  obtain ⟨hmem5, hslices5, hgrp5⟩ := keeps_endTests hg4 ((congrArg Group.gcall hsame :).trans (hk.gcall.trans hcall)) hblock4
  obtain ⟨g5, hg5, hk5⟩ := hgrp5 g4 hg4
  rw [hend]
  refine ⟨g5, hg5, hmem5.trans (hmem4.trans hmem), hk5.v.trans ((congrArg Group.v hsame :).trans hk.v), hk5.sc.trans ((congrArg Group.sc hsame :).trans hk.sc),
    hk5.block.trans hblock4, fun l hl hm => hk5.exited l ?_, hk5.cnt.trans ((congrArg Group.cnt hsame :).trans hk.cnt), ?_⟩
  · have hlanes : g4.lane l = ((g.amCounted run act).amEnded act).lane l := congrArg (fun ls : List Lane => ls.getD l {}) (congrArg Group.lanes hsame :)
    rw [hlanes]
    exact hk.exited l (hexit l hl hm)
  · have hs : ∀ {a b : State}, a.slices = b.slices → (mget {} (a.slice sl).qd q).done = (mget {} (b.slice sl).qd q).done := fun h => by
      rw [State.slice, State.slice, h]
    exact (hs hslices5).trans (hdone.trans (congrArg (· + popMask (left &&& act)) (hs (a := u.updGrp gid (fun g => g.amEnded act)) hslices)))

/-! ### AM_DISPATCH (R256, R257) -/

/-- A batch that is discarded. -/
def State.dropBatch (s : State) (h : Handle) (n e : Nat) : State :=
  (s.forget (dispatchTag h)).updQd h (fun d => { d with head := d.head + n, done := d.done + n, lasterr := e })

section
variable {s s1 s2 : State} {h : Handle} {e t2 : Nat} {ms : List Nat} (hen : (s.qdesc h).en = true) (ham : (s.qdesc h).am = true)
  (hstall : (s.qdesc h).stall = false) (hsome : (s.qdesc h).head < (s.qdesc h).tail) (hroom : s.amRoom h = true) (hdev : h.dev = none)
  (hbatch : s.amBatch h none 0 32 = (.some ms, s1))
  (hread : s1.svcAccess (dispatchTag h) none (s.qdesc h).owner ((s.qdesc h).htab + BitVec.ofNat 64 (64 * bits (ms.headD 0) 128 8)) 64 none = (.ok e t2, s2))
include hen ham hstall hsome hroom hdev hbatch hread

theorem exec_amDispatch_drop (hbad : amHandler e = none) : exec (.amDispatch h.slice h.q) s = .next (s2.dropBatch h ms.length 2) := by
  obtain ⟨dev, slice, q⟩ := h
  obtain rfl : dev = none := hdev
  simp only [exec, execAmDispatch, hen, ham, hstall, hroom, decide_eq_false (Nat.not_le.mpr hsome), Bool.not_true, Bool.or_self, Bool.false_eq_true,
    if_false, hbatch, hread, hbad]
  rfl

theorem exec_amDispatch_start {hd : Nat × Nat × Nat × Nat} (hgood : amHandler e = some hd)
    (hfree : hd.2.2.1 / 8 ≤ s2.freeGranules (4 * (s.qdesc h).cluster + (s.qdesc h).core)) : exec (.amDispatch h.slice h.q) s =
    .next (((s2.forget (dispatchTag h)).updQd h (fun d => { d with head := d.head + ms.length })).startHandler h
      (4 * (s.qdesc h).cluster + (s.qdesc h).core) (s.qdesc h).owner hd ms) := by
  obtain ⟨dev, slice, q⟩ := h
  obtain rfl : dev = none := hdev
  simp only [exec, execAmDispatch, hen, ham, hstall, hroom, decide_eq_false (Nat.not_le.mpr hsome), Bool.not_true, Bool.or_self, Bool.false_eq_true,
    if_false, hbatch, hread, hgood, decide_eq_true hfree, if_true]

end

/-! ### What a trace record leaves (R376, R380) -/

/-- The groups and the slices have not changed. -/
def KeepsGS (s t : State) : Prop := t.groups = s.groups ∧ t.slices = s.slices

theorem KeepsGS.trans {s t u : State} (h : KeepsGS s t) (h' : KeepsGS t u) : KeepsGS s u := ⟨h'.1.trans h.1, h'.2.trans h.2⟩

theorem keepsGS_install (s : State) (die ctx : Nat) (l : Leaf) : KeepsGS s (s.install die ctx l) := by
  refine ⟨install_groups s die ctx l, ?_⟩
  simp only [State.install, State.writeMem]
  split_ifs <;> rfl

theorem keepsGS_dropCopies (s : State) (cluster core : Nat) (m : MemDesc) (key : Nat) : KeepsGS s (s.dropCopies cluster core m key) := by
  unfold State.dropCopies State.dropL1
  dsimp only
  split_ifs <;> exact ⟨rfl, rfl⟩

theorem keepsGS_sendOp (s : State) (o : Op) : KeepsGS s (s.sendOp o) := ⟨rfl, rfl⟩

theorem keepsGS_updDbg (s : State) (k : Nat) (f : Dbg → Dbg) : KeepsGS s (s.updDbg k f) := ⟨rfl, rfl⟩

theorem keepsGS_putRecord (s : State) (k : Nat) (d : Dbg) (slot key : Nat) (l : Leaf) (w : Nat) : KeepsGS s (s.putRecord k d slot key l w) := by
  unfold State.putRecord
  exact (((keepsGS_install s _ _ l).trans (keepsGS_dropCopies _ _ _ _ _)).trans (keepsGS_sendOp _ _)).trans (keepsGS_updDbg _ _ _)

theorem keepsGS_writeGap (s : State) (k : Nat) : KeepsGS s (s.writeGap k) := by
  unfold State.writeGap
  dsimp only
  split
  · exact ⟨rfl, rfl⟩
  · split
    · exact ⟨rfl, rfl⟩
    · split
      · exact keepsGS_updDbg _ _ _
      · exact (keepsGS_putRecord _ _ _ _ _ _ _).trans (keepsGS_updDbg _ _ _)

theorem keepsGS_trace (s : State) (k w : Nat) : KeepsGS s (s.trace k w) := by
  unfold State.trace
  dsimp only
  split
  · exact (keepsGS_writeGap s k).trans (keepsGS_updDbg _ _ _)
  · split
    · exact (keepsGS_writeGap s k).trans (keepsGS_putRecord _ _ _ _ _ _ _)
    · exact (keepsGS_writeGap s k).trans (keepsGS_updDbg _ _ _)

theorem keepsGS_reselect (s : State) (k : Nat) : KeepsGS s (s.reselect k) := by
  unfold State.reselect
  dsimp only
  split
  · exact ⟨rfl, rfl⟩
  · exact keepsGS_updDbg _ _ _

/-- The record of a group's start changes no more of the group than its counts for the next one. -/
theorem traceStart_group {s : State} {gid : Nat} {g : Group} (hg : s.grp? gid = some g) : (s.traceStart gid).slices = s.slices ∧
    ∃ g', (s.traceStart gid).grp? gid = some g' ∧
      { g' with trIssues := g.trIssues, trParks := g.trParks, trTraps := g.trTraps, trBlocked := g.trBlocked } = g := by
  have hkept : ∀ {t : State}, KeepsGS s t → t.grp? gid = some g := fun h => (congrArg (fun gs => mfind gs gid) h.1).trans hg
  unfold State.traceStart
  simp only [hg]
  split
  · have hsel := keepsGS_reselect s g.core
    unfold State.traceSummary
    simp only [hkept hsel]
    split
    · have htr := fun w => hsel.trans (keepsGS_trace _ g.core w)
      exact ⟨(htr _).2, _, State.grp?_updGrp_same (hkept (htr _)) _, rfl⟩
    · exact ⟨hsel.2, g, hkept hsel, rfl⟩
  · exact ⟨rfl, g, hg, rfl⟩

/-! ### A handler group (R257) -/

/-- The registers of a batch's messages, one message in each lane from lane `i` on. -/
def messageRegs (i : Nat) (ms : List Nat) (m : Map Word) : Map Word :=
  (mapFrom (fun l v => (l, v)) i ms).foldl (fun m p => putRegs m 0 p.1 8 p.2) m

theorem mget_messageRegs (ms : List Nat) (i : Nat) (m : Map Word) (hroom : i + ms.length ≤ 32) {k l : Nat} (hk : k < 8) (hl : l < 32) :
    mget 0 (messageRegs i ms m) (32 * k + l) = if i ≤ l ∧ l < i + ms.length then wordOf (ms.getD (l - i) 0) k else mget 0 m (32 * k + l) := by
  induction ms generalizing i m with
  | nil => rw [if_neg (by simp)]; rfl
  | cons v ms ih =>
    rw [List.length_cons] at hroom ⊢
    have hrest := ih (i + 1) (putRegs m 0 i 8 v) (by omega)
    have hcons : messageRegs i (v :: ms) m = messageRegs (i + 1) ms (putRegs m 0 i 8 v) := rfl
    rw [hcons, hrest, mget_putRegs _ _ _ _ _ _ _ (by omega) hl]
    by_cases heq : l = i
    · subst heq
      rw [if_neg (by omega), if_pos ⟨rfl, by omega, by omega⟩, if_pos ⟨le_refl _, by omega⟩, Nat.sub_self, Nat.sub_zero, List.getD_cons_zero]
    · by_cases hin : i + 1 ≤ l ∧ l < i + 1 + ms.length
      · rw [if_pos hin, if_pos (by omega), show l - i = l - (i + 1) + 1 by omega, List.getD_cons_succ]
      · rw [if_neg hin, if_neg fun h => heq h.1, if_neg (by omega)]

/-- The group that a batch starts as. -/
def State.handlerGroup (s : State) (h : Handle) (core ctx code args vr sr : Nat) (ms : List Nat) : Group :=
  { ctx0 := ctx, ctx := ctx, gang := s.nextId, cluster := core / 4, core := core, nregs := vr, sregs := sr, args := BitVec.ofNat 64 args,
    gmap := s.freshGrans core (vr / 8),
    lanes := (List.range 32).map (fun l => if l < ms.length then { pc := BitVec.ofNat 64 code } else { pc := BitVec.ofNat 64 code, st := .exited }),
    v := messageRegs 0 ms [], am := some (h.slice, h.q, maskOf (List.range ms.length)), readyAt := s.clk, activeAt := s.clk,
    active := decide ((((s.coreGroups core).filter (fun e => e.2.grp % 4 == 0 && e.2.active)).length) < 8) }

theorem startHandler_does {s : State} {h : Handle} {core ctx code args vr sr : Nat} {ms : List Nat} (hroom : ms.length ≤ 32) :
    ∃ g', (s.startHandler h core ctx (code, args, vr, sr) ms).grp? (s.nextId + 1) = some g' ∧
      (s.startHandler h core ctx (code, args, vr, sr) ms).slices = s.slices ∧ g'.core = core ∧ g'.ctx = ctx ∧ g'.nregs = vr ∧ g'.sregs = sr ∧
      g'.args = BitVec.ofNat 64 args ∧ g'.am = some (h.slice, h.q, maskOf (List.range ms.length)) ∧ g'.lanes.length = 32 ∧
      (∀ l, l < 32 → (g'.lane l).pc = BitVec.ofNat 64 code ∧ (g'.lane l).st = if l < ms.length then .run else .exited) ∧
      ∀ l, l < ms.length → ∀ k, k < 8 → vReg g' k l = wordOf (ms.getD l 0) k := by
  have hg : (s.startHandler h core ctx (code, args, vr, sr) ms).slices = s.slices ∧ ∃ g',
      (s.startHandler h core ctx (code, args, vr, sr) ms).grp? (s.nextId + 1) = some g' ∧
      { g' with trIssues := 0, trParks := 0, trTraps := 0, trBlocked := 0 } = s.handlerGroup h core ctx code args vr sr ms :=
    traceStart_group (g := s.handlerGroup h core ctx code args vr sr ms) (mfind_mput_same _ _ _)
  obtain ⟨hslices, g', hg', hsame⟩ := hg
  have hlane : ∀ l, l < 32 → g'.lane l = if l < ms.length then { pc := BitVec.ofNat 64 code } else { pc := BitVec.ofNat 64 code, st := .exited } :=
    fun l hl => by
      have hlanes := (congrArg Group.lanes hsame :)
      rw [Group.lane, hlanes, State.handlerGroup]
      simp [hl]
  refine ⟨g', hg', hslices, (congrArg Group.core hsame :), (congrArg Group.ctx hsame :), (congrArg Group.nregs hsame :), (congrArg Group.sregs hsame :),
    (congrArg Group.args hsame :), (congrArg Group.am hsame :), ?_, fun l hl => ?_, fun l hl k hk => ?_⟩
  · rw [(congrArg Group.lanes hsame :)]
    simp [State.handlerGroup]
  · rw [hlane l hl]
    split <;> exact ⟨rfl, rfl⟩
  · have hv := mget_messageRegs ms 0 [] (by omega) hk (l := l) (by omega)
    rw [if_pos ⟨Nat.zero_le _, by omega⟩, Nat.sub_zero] at hv
    rw [vReg, (congrArg Group.v hsame :)]
    exact hv

/-- The first batch of a queue that holds one entry. -/
theorem amBatch_one {s s1 : State} {h : Handle} {v tc : Nat} (htail : (s.qdesc h).tail = (s.qdesc h).head + 1)
    (hread : s.svcAccess (dispatchTag h) h.dev (s.qdesc h).owner ((s.qdesc h).entryVa (s.qdesc h).head) 32 none = (.ok v tc, s1))
    (hd : s1.qdesc h = s.qdesc h) : s.amBatch h none 0 32 = (.some [v], s1) := by
  have hend : ∀ n, s1.amBatch h (some (bits v 128 8)) 1 (n + 1) = (.some [], s1) := fun n => by
    have hempty : decide ((s1.qdesc h).tail ≤ (s1.qdesc h).head + 1) = true := by rw [hd, htail]; exact decide_eq_true (le_refl _)
    rw [State.amBatch]
    simp only [hempty, if_true]
  have hsome : decide ((s.qdesc h).tail ≤ (s.qdesc h).head) = false := decide_eq_false (by omega)
  rw [State.amBatch]
  simp only [hsome, Bool.false_eq_true, if_false, Nat.add_zero, hread, Option.any_none, Nat.zero_add, hend]

/-! ### The slice as agent 48 (R250) -/

/-- What a unit's request comes to for the context. -/
def UnitRes.svc : UnitRes → SvcRes
  | .done v tc => .ok v tc
  | .refused => .fail 2
  | .failed c => .fail (16 + c)
  | .wait => .wait

/-- The same, with the state. -/
def svcStep (p : UnitRes × State) : SvcRes × State :=
  match p with
  | (.done v tc, s) => (.ok v tc, s)
  | (.refused, s) => (.fail 2, s)
  | (.failed c, s) => (.fail (16 + c), s)
  | (.wait, s) => (.wait, s)

theorem svcStep_eq (p : UnitRes × State) : svcStep p = (p.1.svc, p.2) := by
  obtain ⟨r, s⟩ := p
  cases r <;> rfl

/-- A unit's store that no earlier request of its event answers. -/
theorem svcAccess_store {s : State} {tag : Nat × Nat} {ctx n x key : Nat} {va : DWord} {lk mg : Bool}
    (ht : s.svcTrans none ctx va .w = .ok (key, lk, mg)) (q : Ask)
    (hq : q = { tag := tag, agent := 48, ctx := ctx, key := key, width := n, kind := .store, ty := .b64, lockok := lk, mig := mg, data := x })
    (hnew : ∀ e ∈ s.ops, e.2.job ≠ .unit q) : s.svcAccess tag none ctx va n (some x) =
      ((((s.sendOp q.op).homeRequest s.nextId 0).answer s.nextId).svc, (s.sendOp q.op).homeRequest s.nextId 0) := by
  have hfind : s.ops.find? (fun e => e.2.job == .unit q) = none := List.find?_eq_none.mpr fun e he => by simpa using hnew e he
  have hask : s.ask q = (((s.sendOp q.op).homeRequest s.nextId 0).answer s.nextId, (s.sendOp q.op).homeRequest s.nextId 0) := by
    unfold State.ask
    simp only [hfind]
  have hstep : s.svcAccess tag none ctx va n (some x) = svcStep (s.ask q) := by
    subst hq
    unfold State.svcAccess State.svcAsk
    simp only [MemKind.isWrite, if_true, ht, Option.isSome_none, Bool.false_eq_true, if_false]
    rfl
  rw [hstep, hask, svcStep_eq]

theorem answer_one {t : State} {id : Nat} {o : Op} {a : Acc} (ho : mfind t.ops id = some o) (ha : o.accs = [a]) :
    (a.st = .done → t.answer id = .done a.res a.tc) ∧ ((∃ r, a.st = .refused r) → t.answer id = .refused) ∧
      (a.st = .wait ∨ a.st = .timed ∨ (∃ g, a.st = .replay g) → t.answer id = .wait) := by
  have hone : (mfind t.ops id).map (·.accs) = some [a] := by rw [ho, Option.map_some, ha]
  refine ⟨fun hst => ?_, fun ⟨r, hst⟩ => ?_, fun hst => ?_⟩
  · simp only [State.answer, hone, hst]
  · simp only [State.answer, hone, hst]
  · obtain hst | hst | ⟨g, hst⟩ := hst <;> simp only [State.answer, hone, hst]

/-- Settles O39. -/
theorem queues : Obligations.Queues := by
  refine ⟨fun h p hn d a b s x => ?_, fun s id o q g ho hk hjob hbegun hserved hg hb => ?_, fun s o h q t l v hn => ⟨rfl, rfl⟩,
    fun s tag ctx n x key va lk mg ht => ?_, fun h s x hgo => ?_, fun s s1 s2 slice q m e t2 ms => ?_,
    fun s h v tc s1 => amBatch_one⟩
  · intro sent
    have hsent : ∀ {i : Instr} {k : QKind} {dst : Option Opnd} {pd : Nat} {cls : Cls} {entry : Issue → Nat → Nat},
        exec i s = laneInstr i false s (queueOp k dst pd a cls entry) → sent i k dst pd cls (entry x) := fun hexec hgo =>
      ⟨queueOp_idle hexec hgo, queueOp_sent hexec hgo⟩
    exact ⟨hsent (entry := fun x l => x.g.opnd b 4 l) rfl, hsent (entry := fun x l => x.g.opnd b 4 l) rfl, hsent (entry := fun _ _ => 0) rfl,
      hsent (entry := fun _ _ => 0) rfl⟩
  · intro enq am refused
    have hrefused : exec (.homeRequest id 0) s = .next (s.queueRefuse id o q) → refused := fun hexec => by
      obtain ⟨tr, htr, hrest⟩ := queueRefuse_traps hg hb (q := q)
      exact ⟨tr, hexec.trans (congrArg Host.Outcome.next htr), hrest⟩
    have henq : enq = q.adding := by
      obtain ⟨kind, handle, dst, pd, run, act, begun, at_, todo, served⟩ := q
      cases kind <;> rfl
    have ham : am = q.wants := by
      obtain ⟨kind, handle, dst, pd, run, act, begun, at_, todo, served⟩ := q
      cases kind <;> rfl
    refine ⟨fun hh => hrefused (exec_queueUnknown ho hk hh), fun h hh => ⟨exec_queueHeld ho hk hh hbegun, fun h1 h2 h3 => ?_⟩⟩
    intro d now open_ ended s0
    have hopen : open_ ↔ q.Open o.ctx d := by
      simp only [open_, henq, ham]
      rfl
    have hbegins : open_ → exec (.homeRequest id 0) s = .next (s.beginQueue id o h q) := fun ho' =>
      exec_queueBegun ho hk hh hbegun h1 h2 h3 (hopen.mp ho')
    refine ⟨fun hclosed => hrefused (exec_queueClosed ho hk hh hbegun h1 h2 h3 (mt hopen.mpr hclosed)),
      fun hopn hstat => ⟨_, hbegins hopn, stat_ended ho hjob hg hb hstat⟩, fun l v hopn hen hne htodo => ?_⟩
    intro x reply
    have hreply : ∀ got, reply got = q.replyFor (s.sliceNow h) got := fun got => by
      simp only [reply, henq]
      rfl
    have hdeq := deq_iff hne
    have hshut : ∀ b, enq = b → ((if enq then d.tail - d.head ≥ d.cap else d.tail ≤ d.head) ↔ d.shut (q.kind == .deq)) := fun b hb => by
      rw [hdeq, ← henq, hb]
      cases b <;> rfl
    refine ⟨fun hblocked => ⟨_, hbegins hopn, ?_⟩, fun hstall hno hroom r tc s1 hacc hg1 ho1 hd1 => ⟨_, hbegins hopn, ?_⟩,
      fun hstall hyes hroom r tc s1 hacc hg1 ho1 hd1 hwake => ⟨_, hbegins hopn, ?_⟩⟩
    · rw [hreply]
      exact one_blocked hjob hb hne htodo hserved hen ho hg (hblocked.imp_right (hshut enq rfl).mp)
    · have hkd : (q.kind == .deq) = true := by rw [hdeq, ← henq, hno]; rfl
      have hkind : q.kind ≠ .enq := fun hk => by rw [hk] at hkd; exact absurd hkd (by decide)
      have hmoves : q.moves = fun d => { d with head := d.head + 1 } := funext fun d => if_pos hkd
      have hserve := one_served hjob hb hne htodo hserved hen hstall (r := r) (tc := tc) (s1 := s1)
        (fun hs => Nat.not_le.mpr hroom (by rwa [QDesc.shut, if_pos hkd] at hs)) hg1 ho1
        (by rw [if_pos hkd, if_pos hkd, if_neg hkind]; exact hacc) hd1 (.inl (henq ▸ hno))
      rw [hmoves, if_pos hkd] at hserve
      rw [hreply]
      exact hserve
    · have hkd : ¬ (q.kind == .deq) = true := by rw [hdeq, ← henq, hyes]; exact Bool.false_ne_true
      have hmoves : q.moves = fun d => { d with tail := d.tail + 1 } := funext fun d => if_neg hkd
      have hserve := one_served hjob hb hne htodo hserved hen hstall (r := r) (tc := tc) (s1 := s1)
        (fun hs => Nat.not_le.mpr hroom (by rwa [QDesc.shut, if_neg hkd] at hs)) hg1 ho1
        (by rw [if_neg hkd, if_neg hkd]; exact hacc) hd1 (.inr hwake)
      rw [hmoves, if_neg hkd] at hserve
      rw [hreply]
      exact hserve
  · intro ask hnew o a t ho ha
    have hacc := svcAccess_store ht ask rfl hnew
    obtain ⟨hdone, hrefused, hwait⟩ := answer_one ho ha
    rw [hacc]
    exact ⟨fun hst => by rw [hdone hst]; rfl, fun hst => by rw [hrefused hst]; rfl, fun hst => by rw [hwait hst]; rfl⟩
  · intro s1
    have hg := grp_of_issueOf hgo
    have hg1 : s1.grp? x.gid = some x.g := (grp?_startFence ..).trans hg
    refine ⟨fun ha => ?_, fun ha ham => ?_, fun sl q left ha ham => ⟨fun hready => ?_, fun hready hc hcall hseq hlen => ?_⟩⟩
    · rw [exec_amdone hgo, if_pos ha]
      exact goes_on hg
    · rw [exec_amdone hgo, if_neg ha, ham]
      rfl
    · rw [exec_amdone hgo, if_neg ha, ham]
      refine congrArg Host.Outcome.next ?_
      have htry : s1.amdoneTry x = s1.updGrp x.gid (fun g => { g with block := .amdone x.run x.act }) := by
        simp only [State.amdoneTry, hg1, hready, Bool.false_eq_true, if_false]
      exact htry
    · have htry : s1.amdoneTry x = s1.amdoneEnd x.gid x.run x.act := by simp only [State.amdoneTry, hg1, hready, if_true]
      have hexec : exec (.amdone h) s = .next (s1.amdoneEnd x.gid x.run x.act) := by
        rw [exec_amdone hgo, if_neg ha, ham, ← htry]
        rfl
      obtain ⟨g', hg', hmem, hv, hsc, hblock, hexit, hcnt, hdone⟩ := amdoneEnd_does (run := x.run) (act := x.act) hg1 ham hc hcall hlen
      exact ⟨_, g', hexec, hg', hmem, hv, hsc, hblock, hexit, hcnt, hdone⟩
  · intro h d hen ham hstall hsome hroom hbatch hread s3
    refine ⟨exec_amDispatch_drop (h := h) hen ham hstall hsome hroom rfl hbatch hread, fun code args vr sr hgood hfree hlen => ?_⟩
    have hexec := exec_amDispatch_start (h := h) hen ham hstall hsome hroom rfl hbatch hread hgood hfree
    obtain ⟨g', hg', hslices, hcore, hctx, hregs, hsregs, hargs, ham', hlanes, hlane, hmsgs⟩ := startHandler_does
      (s := (s2.forget (dispatchTag h)).updQd h (fun d => { d with head := d.head + (m :: ms).length })) (h := h)
      (core := 4 * d.cluster + d.core) (ctx := d.owner) (code := code) (args := args) (vr := vr) (sr := sr) (ms := m :: ms)
      (by rw [List.length_cons]; omega)
    refine ⟨_, g', hexec, hg', (qdesc_congr hslices h).trans (qdesc_updQd ..), hcore, hctx, hregs, hsregs, hargs, ham', hlanes, fun l hl => ?_,
      fun l hl => hmsgs l (by rw [List.length_cons]; omega)⟩
    obtain ⟨hpc, hst⟩ := hlane l hl
    refine ⟨hpc, hst.trans ?_⟩
    rw [List.length_cons]
    simp only [Nat.lt_succ_iff]

end Sys2Proof.Machine
end

/-! The proof of `Obligations.Launches` (R28–R37). -/

section
namespace Sys2Proof.Machine

/-! ### Taking a record (R29, R31) -/

/-- The state in which a queue's head may be taken. -/
structure Takes (s : State) (q : Nat) (lq : LQ) : Prop where
  found : mfind s.lqs q = some lq
  ctx : lq.ctx ≠ 0
  stopped : lq.stopped = false
  cur : lq.cur = none
  live : (mget {} s.ctxs lq.ctx).live = true
  killing : (mget {} s.ctxs lq.ctx).killing = false

theorem Takes.cond {s : State} {q : Nat} {lq : LQ} (h : Takes s q lq) :
    ¬ (lq.ctx = 0 ∨ lq.stopped = true ∨ lq.cur.isSome = true ∨ (!(mget ({} : Ctx) s.ctxs lq.ctx).live) = true ∨ (mget ({} : Ctx) s.ctxs lq.ctx).killing = true) := by
  obtain ⟨-, hctx, hstopped, hcur, hlive, hkilling⟩ := h
  rintro (h | h | h | h | h)
  · exact hctx h
  · exact absurd (hstopped.symm.trans h) (by decide)
  · rw [hcur] at h; exact absurd h (by decide)
  · rw [hlive] at h; exact absurd h (by decide)
  · exact absurd (hkilling.symm.trans h) (by decide)

/-- The launch that a record becomes. -/
def takenLaunch (lq : LQ) (q : Nat) (r : LRec) : Launch :=
  { ctx := lq.ctx, queue := q, lseq := lq.head, lr := r, met0 := r.dep0 == 0, met1 := r.dep1 == 0, prio := min r.prio lq.ceil }

/-- The launch as it is listed: a malformed one and one that can never fit have their outcome already. -/
def State.judged (s : State) (l : Launch) : Launch :=
  if !l.lr.ok then { l with outcome := 1 } else if s.neverFits l then { l with outcome := 2 } else l

/-- The record's launch is listed, and the queue's head moves. -/
def State.listLaunch (s : State) (q : Nat) (lq : LQ) (l : Launch) : State :=
  { s with nextId := s.nextId + 1, launches := mput s.launches s.nextId l,
           lqs := mput s.lqs q { lq with head := lq.head + 1, cur := if l.outcome = 0 then some s.nextId else none } }

section
variable {s s1 : State} {q : Nat} {lq : LQ} (h : Takes s q lq)
include h

theorem exec_dequeue_wait (hacc : s.svcAccess (takeTag q) none lq.ctx lq.tailVa 8 none = (.wait, s1)) :
    exec (.launchRecordDequeue q) s = .next s1 := by
  simp only [exec, execLaunchRecordDequeue, h.found, if_neg h.cond, hacc]

theorem exec_dequeue_fail {o : Nat} (hacc : s.svcAccess (takeTag q) none lq.ctx lq.tailVa 8 none = (.fail o, s1)) :
    exec (.launchRecordDequeue q) s = .next ((s1.forget (takeTag q)).stopQueue q lq lq.tailVa.toNat o) := by
  simp only [exec, execLaunchRecordDequeue, h.found, if_neg h.cond, hacc]
  rfl

variable {tail t1 : Nat} (hacc : s.svcAccess (takeTag q) none lq.ctx lq.tailVa 8 none = (.ok tail t1, s1))
include hacc

theorem exec_dequeue_empty (hn : (tail + 2 ^ 64 - lq.head % 2 ^ 64) % 2 ^ 64 = 0) :
    exec (.launchRecordDequeue q) s = .next (s1.forget (takeTag q)) := by
  simp only [exec, execLaunchRecordDequeue, h.found, if_neg h.cond, hacc, if_pos hn]

theorem exec_dequeue_overrun (hn : (tail + 2 ^ 64 - lq.head % 2 ^ 64) % 2 ^ 64 > lq.slots) :
    exec (.launchRecordDequeue q) s = .next ((s1.forget (takeTag q)).stopQueue q lq 0 0) := by
  simp only [exec, execLaunchRecordDequeue, h.found, if_neg h.cond, hacc, if_neg (Nat.ne_of_gt (Nat.zero_lt_of_lt hn)), if_pos hn]
  rfl

theorem exec_dequeue_take {rec2 t2 v3 t3 : Nat} {s2 s3 : State} (hn : (tail + 2 ^ 64 - lq.head % 2 ^ 64) % 2 ^ 64 ≠ 0)
    (hslots : (tail + 2 ^ 64 - lq.head % 2 ^ 64) % 2 ^ 64 ≤ lq.slots)
    (hrec : s1.svcAccess (takeTag q) none lq.ctx (lq.slotVa lq.head) 128 none = (.ok rec2 t2, s2))
    (hhead : s2.svcAccess (takeTag q) none lq.ctx lq.headVa 8 (some ((lq.head + 1) % 2 ^ 64)) = (.ok v3 t3, s3)) :
    exec (.launchRecordDequeue q) s = .next (((s3.forget (takeTag q)).listLaunch q lq
      ((s3.forget (takeTag q)).judged (takenLaunch lq q (parseLRec rec2)))).priorityPreempt (s3.forget (takeTag q)).nextId) := by
  simp only [exec, execLaunchRecordDequeue, h.found, if_neg h.cond, hacc, if_neg hn, if_neg (Nat.not_lt.mpr hslots), hrec, hhead]
  rfl

end

/-- Making room for a launch changes contexts alone. -/
theorem makeRoom_rest (l : Launch) (n : Nat) (s : State) : { s.makeRoom l n with ctxs := s.ctxs } = s := by
  induction n generalizing s with
  | zero => rfl
  | succ n ih =>
    rw [State.makeRoom]
    split
    · rfl
    · split
      · rfl
      · exact (congrArg (fun t : State => { t with ctxs := s.ctxs }) (ih _) :)

theorem priorityPreempt_rest (s : State) (id : Nat) : { s.priorityPreempt id with ctxs := s.ctxs } = s := by
  unfold State.priorityPreempt
  split
  · rfl
  · split
    · exact makeRoom_rest ..
    · rfl

/-- What taking a record leaves: its launch and the queue. -/
theorem listLaunch_puts (s : State) (q : Nat) (lq : LQ) (l : Launch) :
    mfind ((s.listLaunch q lq l).priorityPreempt s.nextId).launches s.nextId = some l ∧
      mfind ((s.listLaunch q lq l).priorityPreempt s.nextId).lqs q =
        some { lq with head := lq.head + 1, cur := if l.outcome = 0 then some s.nextId else none } := by
  have hrest := priorityPreempt_rest (s.listLaunch q lq l) s.nextId
  rw [(congrArg State.launches hrest :), (congrArg State.lqs hrest :)]
  exact ⟨mfind_mput_same _ _ _, mfind_mput_same _ _ _⟩

/-! ### Dependences (R32) -/

/-- The event word of a dependence, its threshold, and whether it has been met. -/
def Launch.dep (l : Launch) (which : Nat) : DWord × DWord × Bool :=
  if which = 0 then (l.lr.dep0, l.lr.dep0v, l.met0) else (l.lr.dep1, l.lr.dep1v, l.met1)

section
variable {s s1 : State} {q which id : Nat} {lq : LQ} {l : Launch} (hq : mfind s.lqs q = some lq) (hcur : lq.cur = some id)
  (hl : mfind s.launches id = some l) (hmet : (l.dep which).2.2 = false)
include hq hcur hl hmet

/-- The launch once a dependence has been met. -/
def Launch.meet (which : Nat) (l : Launch) : Launch := if which = 0 then { l with met0 := true } else { l with met1 := true }

/-- What the read of an event word comes to. -/
def State.depRead (q which id need : Nat) : SvcRes × State → State
  | (.wait, s) => s
  | (.fail _, s) => (s.forget (depTag q which)).reject q id 3
  | (.ok v _, s) =>
    if v < need then s.forget (depTag q which)
    else ({ (s.forget (depTag q which)) with launches := mupd (s.forget (depTag q which)).launches id (Launch.meet which) }).priorityPreempt id

theorem exec_dependenceMet : exec (.dependenceMet q which) s =
    .next (State.depRead q which id (l.dep which).2.1.toNat (s.svcAccess (depTag q which) none l.ctx (l.dep which).1 8 none)) := by
  have hbind : (mfind s.lqs q).bind (fun l => l.cur) = some id := by rw [hq]; exact hcur
  have hexec : exec (.dependenceMet q which) s = .next (if (l.dep which).2.2 then s else
      State.depRead q which id (l.dep which).2.1.toNat (s.svcAccess (depTag q which) none l.ctx (l.dep which).1 8 none)) := by
    simp only [exec, execDependenceMet, hbind, hl]
    rfl
  rw [hexec, hmet]
  rfl

end

/-! ### Admission (R31, R33–R35) -/

/-- The queue's round-robin place and its context's age, once a gang has been admitted. -/
def State.admitted (s : State) (q id : Nat) (l : Launch) : State :=
  let u := { s with ctxs := mupd s.ctxs l.ctx (fun c => { c with admitted := s.now }), lastLq := mput s.lastLq l.prio q }
  match mfind u.launches id with
  | some l => if l.started ≥ l.lr.total then { u with lqs := mupd u.lqs q (fun x => { x with cur := none }) } else u
  | none => u

theorem admitted_rest (s : State) (q id : Nat) (l : Launch) :
    (s.admitted q id l).groups = s.groups ∧ (s.admitted q id l).gangs = s.gangs ∧ (s.admitted q id l).launches = s.launches ∧
      (s.admitted q id l).mem = s.mem := by
  unfold State.admitted
  dsimp only
  split
  · split <;> exact ⟨rfl, rfl, rfl, rfl⟩
  · exact ⟨rfl, rfl, rfl, rfl⟩

theorem exec_gangAdmit {s : State} {q id : Nat} {lq : LQ} {l : Launch} {places : List Place} (hq : mfind s.lqs q = some lq)
    (hadm : s.admissible lq = some l) (hcur : lq.cur = some id) (hlen : places.length = l.wants) (hserved : s.servedNext q l = true)
    (ht : l.lr.xtmpl = 0) : exec (.gangAdmit q places) s = .next (match s.startGangs id places with | none => s | some s => s.admitted q id l) := by
  have hcond : ¬ (places.length ≠ l.wants ∨ (!s.servedNext q l) = true) := by simp [hlen, hserved]
  have hread : s.readTemplate id l = (true, s) := if_pos (.inl ht)
  simp only [exec, execGangAdmit, hq, hadm, hcur, if_neg hcond, hread]
  rfl

/-! ### The start of a gang (R35) -/

/-- The gang as it starts. -/
def startedGang (id : Nat) (l : Launch) (p : Place) : Gang :=
  { ctx := l.ctx, launch := id, idx := l.started, gx := l.started % l.lr.ngx, gy := l.started / l.lr.ngx % l.lr.ngy,
    gz := l.started / (l.lr.ngx * l.lr.ngy), cluster := p.cluster, seq := none, teams := p.cores.map (fun c => { core := c, scratch := l.lr.scratch }) }

/-- The state in which a gang without a sequencer gets its teams. -/
def State.gangBegun (s : State) (id : Nat) (l : Launch) (p : Place) : State :=
  { s with nextId := s.nextId + 1, gangs := mput s.gangs s.nextId (startedGang id l p),
           launches := mupd s.launches id (fun l => { l with started := l.started + 1 }),
           icache := s.icache.filter (fun e => !(e.cluster == p.cluster && e.ctx == l.ctx)) }

/-- The start of a gang of one team of one group, without a sequencer and without tiles. -/
theorem startGang_one {s : State} {id core : Nat} {l : Launch} {p : Place} (hseq : l.lr.seqcode = 0) (hgroups : l.lr.groups = 1) (hw : l.lr.wtiles = 0)
    (ha : l.lr.atiles = 0) (hc : l.lr.ctiles = 0) (hcores : p.cores = [core]) :
    s.startGang id l p = ((s.gangBegun id l p).placeScratch s.nextId 0 core l).addTeamGroup l id s.nextId 0 core 0 := by
  have hnames : l.lr.tileNames = [] := by simp [LRec.tileNames, hw, ha, hc]
  unfold State.startGang
  simp only [hseq, if_true, hcores, hgroups, hnames, mapFrom, List.foldl_cons, List.foldl_nil, List.isEmpty_nil, List.range_one, State.gangBegun,
    startedGang]

/-- A new group is active while its partition has room. -/
def State.joinsActive (s : State) (g : Group) : Bool :=
  decide (((s.coreGroups g.core).filter (fun e => e.2.grp % 4 == g.grp % 4 && e.2.active)).length < 8)

/-- The group is listed. -/
def State.listGroup (s : State) (g : Group) : State :=
  { s with nextId := s.nextId + 1, groups := mput s.groups s.nextId { g with active := g.isSeq || s.joinsActive g } }

/-- A group's start in a core that does not trace leaves no record. -/
theorem addGroup_untraced {s : State} {g : Group} (h : (s.core g.core).dbg.traceOn = false) : s.addGroup g = s.listGroup g := by
  have hg : (s.listGroup g).grp? s.nextId = some { g with active := g.isSeq || s.joinsActive g } := mfind_mput_same _ _ _
  have hoff : (s.listGroup g).traced { g with active := g.isSeq || s.joinsActive g } = false := by
    have hcore : (s.listGroup g).core g.core = s.core g.core := rfl
    unfold State.traced
    simp only [hcore, h, Bool.false_and]
  have hstart : s.addGroup g = (s.listGroup g).traceStart s.nextId := rfl
  rw [hstart, State.traceStart]
  simp only [hg, hoff, Bool.false_and, Bool.false_eq_true, if_false]

theorem dbg_takeGrans (s : State) (core : Nat) (gs : List Nat) (c : Nat) : ((s.takeGrans core gs).core c).dbg = (s.core c).dbg := by
  rw [State.takeGrans, core_updCore]
  split
  next h => rw [h]
  next => rfl

/-- The gang once its first team has its scratchpad. -/
def Gang.withScratch (k : Gang) (gs : List Nat) : Gang := { k with teams := setAt (fun t => { t with grans := gs }) 0 k.teams }

/-- What starting such a gang leaves. -/
theorem startGang_does {s : State} {id core : Nat} {l : Launch} {p : Place} (hseq : l.lr.seqcode = 0) (hgroups : l.lr.groups = 1) (hw : l.lr.wtiles = 0)
    (ha : l.lr.atiles = 0) (hc : l.lr.ctiles = 0) (hcores : p.cores = [core]) (htrace : (s.core core).dbg.traceOn = false) :
    ∃ act k gs, (s.startGang id l p).grp? (s.nextId + 1) = some { newGroup l id s.nextId 0 0 core s.clk gs with active := act } ∧
      mfind (s.startGang id l p).gangs s.nextId = some k ∧ { k with teams := (startedGang id l p).teams } = startedGang id l p ∧
      (s.startGang id l p).mem = s.mem := by
  rw [startGang_one hseq hgroups hw ha hc hcores]
  obtain ⟨u, hu⟩ : ∃ u, u = (s.gangBegun id l p).placeScratch s.nextId 0 core l := ⟨_, rfl⟩
  have hid : u.nextId = s.nextId + 1 := by rw [hu]; rfl
  have hclk : u.clk = s.clk := by rw [hu]; rfl
  have hmem : u.mem = s.mem := by rw [hu]; rfl
  have hgang : ∃ k, mfind u.gangs s.nextId = some k ∧ { k with teams := (startedGang id l p).teams } = startedGang id l p := by
    rw [hu]
    refine ⟨(startedGang id l p).withScratch ((s.gangBegun id l p).freshGrans core (l.lr.scratch / 1024)), ?_, rfl⟩
    refine (mfind_mupd ..).trans ?_
    rw [if_pos rfl]
    exact congrArg (Option.map _) (mfind_mput_same _ _ _)
  have hoff : ∀ gs, ((u.takeGrans core gs).core core).dbg.traceOn = false := fun gs => by
    have hcore : (u.core core).dbg = (s.core core).dbg := by
      rw [hu]
      exact dbg_takeGrans (s.gangBegun id l p) core _ core
    rw [dbg_takeGrans, hcore]
    exact htrace
  rw [← hu, State.addTeamGroup]
  dsimp only
  rw [addGroup_untraced (hoff _)]
  obtain ⟨k, hk, hsame⟩ := hgang
  refine ⟨(u.takeGrans core (u.freshGrans core (l.lr.vregs / 8))).joinsActive
    (newGroup l id s.nextId 0 0 core u.clk (u.freshGrans core (l.lr.vregs / 8))), k, u.freshGrans core (l.lr.vregs / 8), ?_, hk, hsame, hmem⟩
  rw [← hid, ← hclk]
  exact mfind_mput_same _ _ _

/-! ### The end of a launch (R36, R68) -/

/-- Everything of the launch has ended. -/
def State.LaunchEnded (s : State) (id : Nat) (l : Launch) : Prop :=
  (∀ e ∈ s.lqs, e.2.cur ≠ some id) ∧ l.started ≤ l.ended ∧ (l.outcome ≠ 0 ∨ l.lr.total ≤ l.started) ∧ ∀ e ∈ s.ops, ∀ rs, e.2.job ≠ .push rs (some id)

theorem pushesOf_iff {s : State} {id : Nat} : s.pushesOf id = false ↔ ∀ e ∈ s.ops, ∀ rs, e.2.job ≠ .push rs (some id) := by
  unfold State.pushesOf
  rw [List.any_eq_false]
  refine forall₂_congr fun e _ => ?_
  cases hj : e.2.job <;> simp

theorem launchEnded_iff {s : State} {id : Nat} {l : Launch} :
    (!s.lqs.any (fun e => e.2.cur == some id) && decide (l.ended ≥ l.started) && (l.outcome != 0 || decide (l.started ≥ l.lr.total)) &&
      !(s.pushesOf id)) = true ↔ s.LaunchEnded id l := by
  unfold State.LaunchEnded
  rw [← pushesOf_iff]
  simp [and_assoc, List.any_eq_false]

/-- A launch that is over: its event is forgotten, and it is listed no more. -/
def State.launchGone (s : State) (id : Nat) : State := { (s.forget (endTag id)) with launches := mdel s.launches id }

section
variable {s : State} {id : Nat} {l : Launch} (hl : mfind s.launches id = some l)
include hl

theorem exec_launchComplete : exec (.launchComplete id) s = .next (
    if (!s.lqs.any (fun e => e.2.cur == some id) && decide (l.ended ≥ l.started) && (l.outcome != 0 || decide (l.started ≥ l.lr.total)) &&
      !(s.pushesOf id)) = true then s.launchDone id l else s) := by
  simp only [exec, execLaunchComplete, hl]

theorem exec_launchComplete_not (h : ¬ s.LaunchEnded id l) : exec (.launchComplete id) s = .next s := by
  rw [exec_launchComplete hl, if_neg (mt launchEnded_iff.mp h)]

theorem exec_launchComplete_ended (h : s.LaunchEnded id l) : exec (.launchComplete id) s = .next (s.launchDone id l) := by
  rw [exec_launchComplete hl, if_pos (launchEnded_iff.mpr h)]

end

/-- What the write of a launch's status word comes to. -/
def toldBy (id : Nat) (l : Launch) : SvcRes × State → State
  | (.wait, s) => s
  | (.ok _ tc, s) => s.tellStatus id tc
  | (.fail o, s) => (s.addErr l.ctx (.completion l.lr.status o)).tellStatus id s.now

/-- What the addition to a launch's event word comes to. -/
def goneBy (id : Nat) (l : Launch) : SvcRes × State → State
  | (.wait, s) => s
  | (.ok _ _, s) => s.launchGone id
  | (.fail o, s) => (s.addErr l.ctx (.completion l.lr.done o)).launchGone id

theorem launchDone_status {s : State} {id : Nat} {l : Launch} (htold : l.told = none) (hst : l.lr.status ≠ 0) :
    s.launchDone id l = toldBy id l (s.svcAccess (endTag id) none l.ctx l.lr.status 4 (some l.statusWord)) := by
  rw [State.launchDone, htold]
  exact if_neg hst

theorem launchDone_event {s : State} {id t : Nat} {l : Launch} (htold : l.told = some t) (hd : l.lr.done ≠ 0) (hlate : t + 64 ≤ s.now) :
    s.launchDone id l = goneBy id l (s.svcAsk (endTag id) none l.ctx l.lr.done 8 (.red .add) 1) := by
  rw [State.launchDone, htold]
  exact (if_neg hd).trans (if_neg (Nat.not_lt.mpr hlate))

/-- Settles O49. -/
theorem launches : Obligations.Launches := by
  refine ⟨fun s s1 q lq hq hctx hstopped hcur hlive hkilling => ?_, fun s s1 q which id lq l hq hcur hl => ?_,
    fun s s1 q id lq l places hq hadm hcur hlen hserved ht => ?_, fun s id core l p hseq hgroups hw ha hc hcores htrace => ?_, fun s id l hl => ?_⟩
  · intro tag stops
    have ht : Takes s q lq := ⟨hq, hctx, hstopped, hcur, hlive, hkilling⟩
    refine ⟨exec_dequeue_wait ht, fun o => exec_dequeue_fail ht, fun tail t1 hacc => ⟨exec_dequeue_empty ht hacc, exec_dequeue_overrun ht hacc,
      fun rec2 t2 v3 t3 s2 s3 hn hslots hrec hhead => ?_⟩⟩
    intro r l s4 puts
    have hexec := exec_dequeue_take ht hacc hn hslots hrec hhead
    have hputs : ∀ l', s4.judged l = l' → puts l' (if l'.outcome = 0 then some s4.nextId else none) := by
      rintro _ rfl
      obtain ⟨h1, h2⟩ := listLaunch_puts s4 q lq (s4.judged l)
      exact ⟨_, _, hexec, h1, h2, rfl, rfl⟩
    refine ⟨fun hbad => hputs _ ?_, fun hok hnever => hputs _ ?_, fun hok hfits => hputs _ ?_⟩
    · exact if_pos (by rw [hbad]; rfl)
    · exact (if_neg (by rw [hok]; decide)).trans (if_pos hnever)
    · exact (if_neg (by rw [hok]; decide)).trans (if_neg (by rw [hfits]; decide))
  · intro va need met tag hunmet
    have hdep : l.dep which = (va, need, if which = 0 then l.met0 else l.met1) := by
      by_cases hw : which = 0
      · simp only [Launch.dep, va, need, if_pos hw]
      · simp only [Launch.dep, va, need, if_neg hw]
    have hmet : (l.dep which).2.2 = false := by rw [hdep]; exact hunmet
    have hexec := exec_dependenceMet hq hcur hl hmet
    rw [hdep] at hexec
    refine ⟨fun hacc => ?_, fun o hacc => ?_, fun v t1 hacc => ⟨fun hlow => ?_, fun hhigh => ?_⟩⟩
    · rw [hexec, hacc]
      rfl
    · rw [hexec, hacc]
      rfl
    · rw [hexec, hacc]
      exact congrArg Host.Outcome.next (if_pos hlow)
    · rw [hexec, hacc]
      exact congrArg Host.Outcome.next (if_neg (Nat.not_lt.mpr hhigh))
  · have hexec := exec_gangAdmit hq hadm hcur hlen hserved ht
    refine ⟨fun hstart => ?_, fun hstart => ?_⟩
    · rw [hstart] at hexec
      obtain ⟨hg, hk, hla, hm⟩ := admitted_rest s1 q id l
      exact ⟨_, hexec, hg, hk, hla, hm⟩
    · rw [hexec, hstart]
  · obtain ⟨act, k, gs, hg, hk, hsame, hmem⟩ := startGang_does (s := s) (id := id) hseq hgroups hw ha hc hcores htrace
    exact ⟨_, k, hg, hk, rfl, rfl, rfl, rfl, rfl, rfl, rfl, rfl, rfl, rfl, rfl, (congrArg Gang.gx hsame :), (congrArg Gang.gy hsame :),
      (congrArg Gang.gz hsame :), (congrArg Gang.cluster hsame :), hmem⟩
  · intro tag ended told gone word
    refine ⟨exec_launchComplete_not hl, fun he htold hst => ?_, fun he htold hst r s1 hacc => ?_, fun t he htold hd => ?_, fun t he htold hd hearly => ?_,
      fun t he htold hd hlate r s1 hacc => ?_⟩
    · rw [exec_launchComplete_ended hl he, State.launchDone, htold]
      exact congrArg Host.Outcome.next (if_pos hst)
    · rw [exec_launchComplete_ended hl he, launchDone_status htold hst]
      refine (congrArg (fun p => Host.Outcome.next (toldBy id l p)) hacc).trans ?_
      cases r <;> rfl
    · rw [exec_launchComplete_ended hl he, State.launchDone, htold]
      exact congrArg Host.Outcome.next (if_pos hd)
    · rw [exec_launchComplete_ended hl he, State.launchDone, htold]
      exact congrArg Host.Outcome.next ((if_neg hd).trans (if_pos hearly))
    · rw [exec_launchComplete_ended hl he, launchDone_event htold hd hlate]
      refine (congrArg (fun p => Host.Outcome.next (goneBy id l p)) hacc).trans ?_
      cases r <;> rfl

end Sys2Proof.Machine
end

section
/-! The proof of `Obligations.GateCalls`: the checks of a gate call, its entry, its return, and forced unwinds. -/

namespace Sys2Proof.Machine

/-! ### The checks of a call (R330) -/

section
variable {s : State} {x : Issue} {kern : Bool} {k gi : Nat}

/-- The innermost frame of a group lets it call on. -/
def mayNest (g : Group) : Bool :=
  match g.frames with
  | [] => true
  | f :: _ => f.nest

theorem mayNest_iff (g : Group) : mayNest g = true ↔ ∀ f fs, g.frames = f :: fs → f.nest = true := by
  unfold mayNest
  cases g.frames with
  | nil => simp
  | cons f fs => simp

/-- The gate's target is one that the call may name. -/
def targetOk (s : State) (kern : Bool) (e : GateEnt) : Bool :=
  if kern then e.tctx == 0 else e.tctx != 0 && e.tctx < 4096 && (mget ({} : Ctx) s.ctxs e.tctx).live

theorem targetOk_iff (e : GateEnt) : targetOk s kern e = true ↔
    if kern then e.tctx = 0 else e.tctx ≠ 0 ∧ e.tctx < 4096 ∧ (mget ({} : Ctx) s.ctxs e.tctx).live = true := by
  unfold targetOk
  cases kern <;> simp [and_assoc]

/-- The gate's counts lie within the windows of the caller and of the callee. -/
def countsOk (g : Group) (kern : Bool) (k : Nat) (e : GateEnt) : Bool :=
  e.argv ≤ g.nregs && e.resv ≤ g.nregs && e.args ≤ g.sregs && e.ress ≤ g.sregs && k < g.sregs &&
    (kern || (e.argv ≤ 8 * e.vgran && e.resv ≤ 8 * e.vgran && e.args ≤ e.scnt && e.ress ≤ e.scnt))

theorem countsOk_iff {g : Group} (e : GateEnt) : countsOk g kern k e = true ↔
    e.argv ≤ g.nregs ∧ e.resv ≤ g.nregs ∧ e.args ≤ g.sregs ∧ e.ress ≤ g.sregs ∧ k < g.sregs ∧
      (kern = false → e.argv ≤ 8 * e.vgran ∧ e.resv ≤ 8 * e.vgran ∧ e.args ≤ e.scnt ∧ e.ress ≤ e.scnt) := by
  unfold countsOk
  cases kern <;> simp [and_assoc]

/-- The checks of R330, one after the other. -/
theorem gateCheck_eq (c : Ctx) (hc : c = mget ({} : Ctx) s.ctxs x.g.ctx) (e : GateEnt) (he : e = parseGate (s.readMem (c.gtBase + 64 * gi) 64)) :
    s.gateCheck x kern k gi =
      if x.g.hmode || x.g.frames.length ≥ 4 || !mayNest x.g || gi ≥ c.gtSize then none
      else if e.valid && e.ok && e.callers.getLsbD c.gclass && targetOk s kern e && !(e.alllanes && x.g.live &&& ~~~x.act != 0) &&
          countsOk x.g kern k e then some e
      else none := by
  subst hc he
  rfl

theorem gateCheck_iff (e : GateEnt) (c : Ctx) (hc : c = mget ({} : Ctx) s.ctxs x.g.ctx) : s.gateCheck x kern k gi = some e ↔
    x.g.hmode = false ∧ x.g.frames.length < 4 ∧ (∀ f fs, x.g.frames = f :: fs → f.nest = true) ∧ gi < c.gtSize ∧
      e = parseGate (s.readMem (c.gtBase + 64 * gi) 64) ∧ e.valid = true ∧ e.ok = true ∧ e.callers.getLsbD c.gclass = true ∧
      (if kern then e.tctx = 0 else e.tctx ≠ 0 ∧ e.tctx < 4096 ∧ (mget ({} : Ctx) s.ctxs e.tctx).live = true) ∧
      (e.alllanes = true → x.g.live &&& ~~~x.act = 0) ∧
      e.argv ≤ x.g.nregs ∧ e.resv ≤ x.g.nregs ∧ e.args ≤ x.g.sregs ∧ e.ress ≤ x.g.sregs ∧ k < x.g.sregs ∧
      (kern = false → e.argv ≤ 8 * e.vgran ∧ e.resv ≤ 8 * e.vgran ∧ e.args ≤ e.scnt ∧ e.ress ≤ e.scnt) := by
  obtain ⟨e0, he0⟩ : ∃ e0, e0 = parseGate (s.readMem (c.gtBase + 64 * gi) 64) := ⟨_, rfl⟩
  rw [gateCheck_eq c hc e0 he0, ← he0, ← mayNest_iff, ← targetOk_iff, ← countsOk_iff (g := x.g)]
  have hgate : (x.g.hmode || x.g.frames.length ≥ 4 || !mayNest x.g || gi ≥ c.gtSize) = true ↔
      ¬ (x.g.hmode = false ∧ x.g.frames.length < 4 ∧ mayNest x.g = true ∧ gi < c.gtSize) := by
    simp only [Bool.or_eq_true, decide_eq_true_eq, Bool.not_eq_true', ge_iff_le]
    grind
  have hall (e : GateEnt) : (!(e.alllanes && x.g.live &&& ~~~x.act != 0)) = true ↔ (e.alllanes = true → x.g.live &&& ~~~x.act = 0) := by
    cases e.alllanes <;> simp
  by_cases hopen : x.g.hmode = false ∧ x.g.frames.length < 4 ∧ mayNest x.g = true ∧ gi < c.gtSize
  · rw [if_neg (fun h => hgate.mp h hopen)]
    simp only [Bool.and_eq_true, hall, ite_eq_iff, Option.some.injEq, reduceCtorEq, and_false, or_false, and_assoc]
    grind
  · rw [if_pos (hgate.mpr hopen)]
    grind

end

/-! ### GCALL, SYSC and GRET at issue (R330, R335, R339) -/

section
variable {h : Hdr} {s : State} {x : Issue}

/-- What a gate call does at issue that its checks let pass. -/
theorem gateIssue_some {kern : Bool} {k gi : Nat} {e : GateEnt} (hact : x.act ≠ 0) (hc : s.gateCheck x kern k gi = some e) :
    gateIssue kern k gi x s =
      if kern then (s.startFence x.gid .device).updGrp x.gid (fun g =>
        { g with gcall := some { k := k, g := gi, kern := kern, e := e, lanes := x.act, since := s.clk } })
      else ((s.startFence x.gid .device).updGrp x.gid (fun g =>
        { g with gcall := some { k := k, g := gi, kern := kern, e := e, lanes := x.act, since := s.clk } })).deadlockCheck x.g.core 64 := by
  unfold gateIssue
  rw [if_neg hact, hc]

theorem gateIssue_none {kern : Bool} {k gi : Nat} (hact : x.act ≠ 0) (hc : s.gateCheck x kern k gi = none) :
    gateIssue kern k gi x s = s.queueTrap x.gid (x.trap s 0x17 x.act x.act 0 0 gi) := by
  unfold gateIssue
  rw [if_neg hact, hc]

theorem gateIssue_idle {kern : Bool} {k gi : Nat} (hact : x.act = 0) : gateIssue kern k gi x s = x.done s id := by
  unfold gateIssue
  rw [if_pos hact]

/-- What GRET does at issue. -/
def gretIssue (x : Issue) (s : State) : State :=
  if x.act = 0 then x.done s id
  else if !x.g.inCallee || x.g.hmode then s.queueTrap x.gid (x.trap s 0x04 x.act x.act)
  else s.updGrp x.gid (fun g => (g.advance (x.run &&& ~~~x.act)).onLanes x.act (fun l => { l with st := .gret }))

theorem exec_gcall {k gi : Nat} (hgo : s.issueOf (.gcall h k gi) false = .go x) : exec (.gcall h k gi) s = .next (gateIssue false k gi x s) :=
  exec_of_go hgo rfl
theorem exec_sysc {k gi : Nat} (hgo : s.issueOf (.sysc h k gi) false = .go x) : exec (.sysc h k gi) s = .next (gateIssue true k gi x s) :=
  exec_of_go hgo rfl
theorem exec_gret (hgo : s.issueOf (.gret h) false = .go x) : exec (.gret h) s = .next (gretIssue x s) :=
  exec_of_go (eff := gretIssue) hgo rfl

end

/-! ### Entering a gate (R332, R339) -/

section
variable {s : State} {gid : Nat} {g : Group} {w : GateWait}

theorem vReg_lanesBelow (g : Group) (n : Nat) (lanes : Word) (k l : Nat) (hl : l < 32) :
    mget 0 (lanesBelow g.v n lanes) (32 * k + l) = if k < n ∧ lanes.getLsbD l then vReg g k l else 0 := by
  have hfind := mfind_filter_key (fun key => decide (key < 32 * n) && lanes.getLsbD (key % 32)) g.v (32 * k + l)
  rw [mget, lanesBelow, hfind]
  simp only [Bool.and_eq_true, decide_eq_true_eq, show 32 * k + l < 32 * n ↔ k < n by omega, Nat.mul_add_mod, Nat.mod_eq_of_lt hl]
  split <;> rfl

theorem sReg_filter_below (g : Group) (n k : Nat) : mget 0 (g.sc.filter fun e => e.1 < n) k = if k < n then sReg g k else 0 := by
  rw [mget, mfind_filter_key (fun key => decide (key < n))]
  simp only [decide_eq_true_eq]
  split <;> rfl

/-- The lanes of a callee: the entered ones at its entry, the others outside it. -/
theorem lane_enter (f : Frame) (gs : List Nat) (l : Nat) (hl : l < g.lanes.length) : (g.enter w f gs).lane l =
    if w.lanes.getLsbD l then { pc := w.e.entry }
    else { g.lane l with st := if (g.lane l).st = .exited then .exited else .outside, wait := 0, depth := 0, stack := [] } :=
  lane_mapLanes g _ l hl

theorem length_enter (f : Frame) (gs : List Nat) : (g.enter w f gs).lanes.length = g.lanes.length := length_mapFrom ..

theorem callReady_of (hw : g.gcall = some w) (hb : g.block = .none) (hq : g.quiet = true) (hf : s.fenceReady gid g .device = true) :
    s.callReady gid g = true := by
  simp [State.callReady, hw, hb, hq, hf]

theorem grp?_trimWatch (t : State) (j : Nat) : (t.trimWatch gid).grp? j = t.grp? j := rfl

/-- A call whose wait has ended takes the place that stands free for it. -/
theorem gateEnter_enters (hg : s.grp? gid = some g) (hw : g.gcall = some w) (hres : s.resident g = true) (hstop : s.stopped g = false)
    (hdead : g.dead = false) (hready : s.callReady gid g = true) (hkern : w.kern = false) {since : Nat} {place : Nat × Nat}
    (hold : oldest (s.growWaits g.core) = some (gid, w.e.vgran, w.e.scratchKib + 4, since)) (hgran : w.e.vgran ≤ s.freeGranules g.core)
    (hroom : w.e.scratchKib + 4 ≤ s.svcFree g.core) (hplace : placeFrame (s.svcUsed g.core) w.e.scratchKib = some place) :
    exec (.gateEnter gid) s = .next (s.enterGate gid g w place) := by
  have hgrant : s.grantable g.core (gid, w.e.vgran, w.e.scratchKib + 4, since) = true := by
    simp [State.grantable, hgran, hroom]
  have hfind : s.findPlace g.core w.e.scratchKib = some (place, s) := by
    unfold State.findPlace
    rw [hplace]
  simp only [exec, execGateEnter, hg, hw, hres, hdead, hstop, hready, hkern, hold, hgrant, hfind, Bool.not_true, Bool.or_self,
    Bool.false_eq_true, if_false, ne_eq, not_true]

/-- The group of a call that has entered its gate. -/
theorem grp?_enterGate (hg : s.grp? gid = some g) (place : Nat × Nat) : (s.enterGate gid g w place).grp? gid =
    some (g.enter w (g.frameFor (s.regtime g) w place) (s.freshGrans g.core w.e.vgran)) :=
  (State.grp?_updGrp_same (s := s.takeGrans g.core (s.freshGrans g.core w.e.vgran)) hg _)

theorem grp?_enterGate_other (place : Nat × Nat) {j : Nat} (hj : j ≠ gid) : (s.enterGate gid g w place).grp? j = s.grp? j :=
  State.grp?_updGrp_other (s := s.takeGrans g.core (s.freshGrans g.core w.e.vgran)) hj.symm _

/-- A kernel call whose wait has ended pushes its frame, and its request is posted when there is room for it. -/
theorem gateEnter_parks (hg : s.grp? gid = some g) (hw : g.gcall = some w) (hres : s.resident g = true) (hstop : s.stopped g = false)
    (hdead : g.dead = false) (hready : s.callReady gid g = true) (hkern : w.kern = true) :
    exec (.gateEnter gid) s = .next ((s.updGrp gid (fun g => g.enterKernel (s.regtime g) w)).postSysc gid) := by
  simp only [exec, execGateEnter, hg, hw, hres, hdead, hstop, hready, hkern, Bool.not_true, Bool.or_self, Bool.false_eq_true, if_false, if_true]

/-- A change of one listed value that a part of the list does not see leaves that part as it was. -/
theorem flatMap_filter_mupd {α β : Type} (p : Nat × α → Bool) (F : Nat × α → List β) {m : Map α} {k : Nat} {f : α → α}
    (h : ∀ x, mfind m k = some x → p (k, f x) = p (k, x) ∧ F (k, f x) = F (k, x)) :
    ((mupd m k f).filter p).flatMap F = (m.filter p).flatMap F := by
  induction m with
  | nil => rfl
  | cons e m ih =>
    unfold mfind at h
    unfold mupd
    split at h
    next hk =>
      obtain ⟨hp, hF⟩ := h e.2 rfl
      subst hk
      rw [if_pos rfl, List.filter_cons, List.filter_cons, hp]
      split
      next => rw [List.flatMap_cons, List.flatMap_cons, hF]
      next => rfl
    next hk =>
      rw [if_neg hk, List.filter_cons, List.filter_cons]
      split
      next => rw [List.flatMap_cons, List.flatMap_cons, ih h]
      next => exact ih h

/-- A kernel call's frame whose request is not posted takes no room in a service area. -/
theorem svcUsed_enterKernel (hkern : w.kern = true) (core : Nat) :
    (s.updGrp gid (fun g => g.enterKernel (s.regtime g) w)).svcUsed core = s.svcUsed core := by
  have hframes (x : Group) : ((x.enterKernel (s.regtime x) w).frames.filter fun f => !f.kern) = x.frames.filter fun f => !f.kern := by
    simp [Group.enterKernel, Group.frameFor, hkern]
  have hheld (x : Group) : ((x.enterKernel (s.regtime x) w).frames.filter fun f => f.kern && f.req != 0 && f.bcore == core) =
      x.frames.filter fun f => f.kern && f.req != 0 && f.bcore == core := by
    simp [Group.enterKernel, Group.frameFor]
  have hone := flatMap_filter_mupd (fun e => e.2.core == core && !e.2.isSeq && s.resident e.2)
    (fun e => (e.2.frames.filter fun f => !f.kern).flatMap fun f => [(f.cbase, 4), (f.xbase, f.xkib)])
    (m := s.groups) (k := gid) (f := fun g => g.enterKernel (s.regtime g) w)
    (fun x _ => ⟨rfl, congrArg (List.flatMap _) (hframes x)⟩)
  have htwo := flatMap_filter_mupd (fun _ => true)
    (fun e => (e.2.frames.filter fun f => f.kern && f.req != 0 && f.bcore == core).map fun f => (f.cbase, 4))
    (m := s.groups) (k := gid) (f := fun g => g.enterKernel (s.regtime g) w)
    (fun x _ => ⟨rfl, congrArg (List.map _) (hheld x)⟩)
  rw [List.filter_true, List.filter_true] at htwo
  exact congrArg₂ (· ++ ·) hone htwo

/-- Posting to a ring changes no group. -/
theorem post_groups (t : State) (k : Nat) (n : Notice) : (t.post k n).groups = t.groups := by
  unfold State.post
  split
  · rfl
  · split <;> rfl

/-- The group of a kernel call whose request has been posted as number `id`, its block at KiB `b`. -/
def posted (id b : Nat) (f : Frame) (fs : List Frame) (g : Group) : Group :=
  { g with frames := { f with req := id, cbase := b, bcore := g.core } :: fs }

/-- Posting the request of a parked kernel call numbers it and gives its block a place. -/
theorem postSysc_posts {f : Frame} {fs : List Frame} {b : Nat} (hg : s.grp? gid = some g) (hb : g.block = .sysc) (hf : g.frames = f :: fs)
    (hreq : f.req = 0) (hfit : firstFit (s.svcUsed g.core) 4 = some b) :
    (s.postSysc gid).groups = (s.updGrp gid (posted s.nextId b f fs)).groups ∧ (s.postSysc gid).mem = s.mem := by
  unfold State.postSysc
  simp only [hg, hb, hf, hreq, hfit, ne_eq, not_true, if_false]
  exact ⟨post_groups .., post_mem ..⟩

end

/-! ### The end of a call (R335, R338) -/

section
variable {g : Group} {f : Frame} {fs : List Frame}

/-- The entries of `n` put over those of `m`, the first of `n` last. -/
def mergeOver {α : Type} (m n : Map α) : Map α := n.foldr (fun e m => mput m e.1 e.2) m

theorem mfind_mergeOver {α : Type} (m n : Map α) (k : Nat) : mfind (mergeOver m n) k = (mfind n k).or (mfind m k) := by
  induction n with
  | nil => rfl
  | cons e n ih =>
    refine (mfind_mput (mergeOver m n) e.1 k e.2).trans ?_
    have hcons : mfind (e :: n) k = if e.1 = k then some e.2 else mfind n k := rfl
    rw [ih, hcons]
    split <;> rfl

/-- A window whose keys of `p` come from `n` and whose others come from `m`. -/
theorem mget_mergeOver {α : Type} (d : α) (p : Nat → Bool) (m n : Map α) (k : Nat) :
    mget d (mergeOver (m.filter fun e => !p e.1) (n.filter fun e => p e.1)) k = if p k then mget d n k else mget d m k := by
  rw [mget, mfind_mergeOver, mfind_filter_key p, mfind_filter_key fun k => !p k]
  cases hp : p k with
  | true => cases h : mfind n k <;> simp [mget, h]
  | false => rfl

/-- The caller as it stood, with the lanes it entered with at the following slot. -/
def backTo (f : Frame) (fs : List Frame) (g : Group) : Group :=
  { g.onLanes f.entered (fun x => { x with pc := f.retpc, st := .run, wait := 0 }) with frames := fs, block := .none, gcall := none }

/-- The status word of a call. -/
def putStatus (f : Frame) (status cause : Nat) (g : Group) : Group := g.putLane (.s f.sdest) 1 0 (status + 256 * cause)

theorem putStatus_rest (f : Frame) (status cause : Nat) (g : Group) :
    { putStatus f status cause g with sc := g.sc, poison := g.poison } = g := by
  unfold putStatus Group.putLane
  dsimp only
  split <;> rfl

theorem putStatus_lane (f : Frame) (status cause : Nat) (g : Group) (l : Nat) : (putStatus f status cause g).lane l = g.lane l :=
  (congrArg (fun g : Group => g.lane l) (putStatus_rest f status cause g) :)

theorem sReg_putStatus (f : Frame) (status cause : Nat) (g : Group) (k : Nat) : sReg (putStatus f status cause g) k =
    if k = f.sdest ∧ k < g.sregs then BitVec.ofNat 32 (status + 256 * cause) else sReg g k := by
  unfold putStatus Group.putLane
  dsimp only
  split
  next hroom =>
    refine (mget_putScalars ..).trans ?_
    by_cases hk : k = f.sdest
    · subst hk
      rw [if_pos ⟨Nat.le_refl _, Nat.lt_succ_self _⟩, if_pos ⟨rfl, hroom⟩, wordOf, Nat.sub_self, Nat.mul_zero, Nat.pow_zero, Nat.div_one]
    · rw [if_neg (by omega), if_neg (fun h => hk h.1)]
      rfl
  next hroom => rw [if_neg (by omega)]

theorem lane_backTo (f : Frame) (fs : List Frame) (g : Group) (l : Nat) (hl : l < g.lanes.length) : (backTo f fs g).lane l =
    if f.entered.getLsbD l then { g.lane l with pc := f.retpc, st := .run, wait := 0 } else g.lane l :=
  onLanes_lane g f.entered _ l hl

/-- The keys of the results that a return brings: the lowest registers of the entered lanes. -/
def resultKey (n : Nat) (lanes : Word) (key : Nat) : Bool := key < 32 * n && lanes.getLsbD (key % 32)

/-- The caller that a frame saved, with the callee's results. -/
def restored (f : Frame) (g : Group) (poison : Map Poison) : Group :=
  { g with lanes := f.lanes,
           v := mergeOver (f.v.filter fun e => !resultKey f.resv f.entered e.1) (g.v.filter fun e => resultKey f.resv f.entered e.1),
           sc := mergeOver (f.sc.filter fun e => e.1 ≥ f.ress) (g.sc.filter fun e => e.1 < f.ress), p := f.p, b := f.b, helper := f.helper,
           mon := f.mon, fpflags := f.fpflags, ctx := f.caller, args := f.args, cstack := f.cstack, nregs := f.nregs, sregs := f.sregs,
           gmap := f.gmap, poison := poison }

theorem leave_callee (hf : g.frames = f :: fs) (hkern : f.kern = false) (status cause : Nat) :
    ∃ poison, g.leave true status cause = putStatus f status cause (backTo f fs (restored f g poison)) := by
  unfold Group.leave
  rw [hf]
  dsimp only
  rw [hkern]
  exact ⟨_, rfl⟩

theorem leave_kernel (hf : g.frames = f :: fs) (hkern : f.kern = true) (status cause : Nat) :
    g.leave true status cause = putStatus f status cause (backTo f fs g) := by
  unfold Group.leave
  rw [hf]
  dsimp only
  rw [if_pos hkern]
  rfl

theorem vReg_restored (f : Frame) (g : Group) (poison : Map Poison) (k l : Nat) (hl : l < 32) :
    vReg (restored f g poison) k l = if k < f.resv ∧ f.entered.getLsbD l then vReg g k l else mget 0 f.v (32 * k + l) := by
  refine (mget_mergeOver 0 (resultKey f.resv f.entered) f.v g.v _).trans ?_
  simp only [resultKey, Bool.and_eq_true, decide_eq_true_eq, show 32 * k + l < 32 * f.resv ↔ k < f.resv by omega, Nat.mul_add_mod,
    Nat.mod_eq_of_lt hl]
  rfl

theorem sReg_restored (f : Frame) (g : Group) (poison : Map Poison) (k : Nat) :
    sReg (restored f g poison) k = if k < f.ress then sReg g k else mget 0 f.sc k := by
  have hkeep : (f.sc.filter fun e => decide (e.1 ≥ f.ress)) = f.sc.filter fun e => !decide (e.1 < f.ress) :=
    List.filter_congr fun e _ => Bool.eq_iff_iff.mpr (by simp)
  have hmerge := mget_mergeOver 0 (fun key => decide (key < f.ress)) f.sc g.sc k
  rw [← hkeep] at hmerge
  simp only [decide_eq_true_eq] at hmerge
  exact hmerge

end

/-! ### GATE_RETURN and GATE_DEADLINE (R335, R338) -/

section
variable {s : State} {gid : Nat} {g : Group} {f : Frame} {fs : List Frame}

/-- Every entered lane has come to GRET. -/
theorem arrived_of (harr : ∀ l, l < 32 → f.entered.getLsbD l = true → (g.lane l).st = .gret) :
    (f.entered &&& ~~~(g.lanesWhere (fun x => x.st == .gret)) == 0) = true := by
  rw [beq_iff_eq, word_eq_zero_iff]
  intro l
  by_cases hl : l < 32
  · rw [BitVec.getLsbD_and, BitVec.getLsbD_not, mem_lanesWhere _ _ _ hl]
    cases hin : f.entered.getLsbD l with
    | false => rfl
    | true => simp [harr l hl hin]
  · exact BitVec.getLsbD_of_ge _ _ (Nat.le_of_not_lt hl)

theorem exec_gateReturn (hg : s.grp? gid = some g) (hf : g.frames = f :: fs) (hkern : f.kern = false) (hres : s.resident g = true)
    (hcall : g.gcall = none) (harr : ∀ l, l < 32 → f.entered.getLsbD l = true → (g.lane l).st = .gret) (hq : g.quiet = true)
    (hb : g.block = .none) : exec (.gateReturn gid) s = .next (
      if (s.startFence gid .device).fenceReady gid g .device then (s.startFence gid .device).endCall gid true 0 0
      else (s.startFence gid .device).updGrp gid (fun g => { g with block := .gret })) := by
  have hg1 : (s.startFence gid .device).grp? gid = some g := (grp?_startFence ..).trans hg
  simp only [exec, execGateReturn, hg, hf, hkern, hres, hcall, arrived_of harr, hq, hb, hg1, Option.isSome_none, Bool.not_true, Bool.or_self,
    Bool.false_eq_true, if_false]

/-- The outermost of one frame whose deadline has passed. -/
theorem outermost_one {p : Frame → Bool} (hf : g.frames = [f]) (hp : p f = true) : g.outermost p = some 1 := by
  simp [Group.outermost, hf, List.findIdx?_cons, hp]

theorem outermost_none {p : Frame → Bool} (hp : ∀ f ∈ g.frames, p f = false) : g.outermost p = none := by
  have hfind : g.frames.reverse.findIdx? p = none := by
    rw [List.findIdx?_eq_none_iff]
    exact fun f hf => hp f (List.mem_reverse.mp hf)
  rw [Group.outermost, hfind]
  rfl

/-- The frames of a group whose deadline has passed. -/
def duePast (s : State) (g : Group) (f : Frame) : Bool := f.deadline.any (fun t => t ≤ s.regtime g)

theorem exec_gateDeadline (hg : s.grp? gid = some g) (hres : s.resident g = true) : exec (.gateDeadline gid) s = .next (
    match g.block, g.outermost (duePast s g) with
    | .unwind d st c f, some k => if k < d then s.unwindFrame gid k 8 0 else s.unwindStep gid g d st c f
    | .unwind d st c f, none => s.unwindStep gid g d st c f
    | _, some k => s.unwindFrame gid k 8 0
    | _, none => s) := by
  simp only [exec, execGateDeadline, hg, hres, Bool.not_true, Bool.false_eq_true, if_false]
  rfl

end

/-- Settles O46: the checks of a gate call, the entry, the return with its results, and the forced unwinds. -/
theorem gateCalls : Obligations.GateCalls := by
  refine ⟨fun h k gi s x => ?_, fun s gid g w hg hw hres hstop hdead hb hq hfence => ?_,
    fun s gid g f fs hg hf hkern hres hcall harr hq hb => ?_, fun g f fs status cause hf => ?_,
    fun s gid till g f hg hres hf hdl hpast => ?_, fun s gid d st c g hg hres hdl hb hdr hfence => ?_⟩
  · intro waits fails only
    refine ⟨fun hgo => ⟨fun hact => ?_, fun hact hc => ?_, fun e hact hc => ?_⟩,
      fun hgo => ⟨fun hact => ?_, fun hact hc => ?_, fun e hact hc => ?_⟩,
      fun hgo => ⟨fun hact => ?_, fun hact hout => ?_, fun hact hin hh => ?_⟩, fun kern e => gateCheck_iff e _ rfl⟩
    · simp only [only, exec_gcall hgo, gateIssue_idle hact]
      exact goes_on (grp_of_issueOf hgo)
    · rw [exec_gcall hgo, gateIssue_none hact hc]
    · rw [exec_gcall hgo, gateIssue_some hact hc]
      rfl
    · simp only [only, exec_sysc hgo, gateIssue_idle hact]
      exact goes_on (grp_of_issueOf hgo)
    · rw [exec_sysc hgo, gateIssue_none hact hc]
    · rw [exec_sysc hgo, gateIssue_some hact hc]
      rfl
    · simp only [only, exec_gret hgo, gretIssue, if_pos hact]
      exact goes_on (grp_of_issueOf hgo)
    · have hbad : (!x.g.inCallee || x.g.hmode) = true := by simpa using hout
      rw [exec_gret hgo, gretIssue, if_neg hact, if_pos hbad]
    · have hgood : ¬ (!x.g.inCallee || x.g.hmode) = true := by simp [hin, hh]
      rw [exec_gret hgo, gretIssue, if_neg hact, if_neg hgood]
      exact ⟨_, _, rfl, onlyGroup_updGrp s x.gid x.g _ (grp_of_issueOf hgo), length_onLanes_advance ..,
        fun l hl => lane_onLanes_advance x.g x.run x.act _ l hl, rfl⟩
  · intro dead
    have hready := callReady_of hw hb hq hfence
    refine ⟨fun place since hkern hold hgran hroom hplace => ?_, fun b hkern hfit => ?_⟩
    · rw [gateEnter_enters hg hw hres hstop hdead hready hkern hold hgran hroom hplace]
      exact ⟨_, _, _, rfl, grp?_enterGate hg place, fun j hj => grp?_enterGate_other place hj, rfl, rfl, rfl, hb, rfl, rfl, rfl, rfl, rfl,
        rfl, rfl, rfl, rfl, rfl, rfl, rfl, rfl, rfl, rfl, rfl, rfl, rfl, rfl, rfl, fun k l hl => vReg_lanesBelow g _ _ k l hl,
        fun k => sReg_filter_below g _ k, length_enter .., fun l hl =>
        ⟨fun hin => (lane_enter _ _ l hl).trans (if_pos hin),
          fun hin => congrArg Lane.st ((lane_enter _ _ l hl).trans (if_neg (Bool.eq_false_iff.mp hin)))⟩⟩
    · rw [gateEnter_parks hg hw hres hstop hdead hready hkern]
      have hg1 := State.grp?_updGrp_same hg (fun g => g.enterKernel (s.regtime g) w)
      obtain ⟨hgroups, hmem⟩ := postSysc_posts (f := g.frameFor (s.regtime g) w (0, 0)) hg1 rfl rfl rfl
        ((congrArg (fun used => firstFit used 4) (svcUsed_enterKernel hkern g.core)).trans hfit)
      have hgrp (j : Nat) : (((s.updGrp gid fun g => g.enterKernel (s.regtime g) w).postSysc gid).grp? j) =
          ((s.updGrp gid fun g => g.enterKernel (s.regtime g) w).updGrp gid
            (posted s.nextId b (g.frameFor (s.regtime g) w (0, 0)) g.frames)).grp? j := congrArg (fun m => mfind m j) hgroups
      refine ⟨_, _, _, rfl, (hgrp gid).trans (State.grp?_updGrp_same hg1 _), fun j hj => ?_, hmem, rfl, rfl, rfl, rfl, hkern, rfl, rfl, rfl, rfl,
        rfl, rfl, rfl⟩
      rw [hgrp, State.grp?_updGrp_other hj.symm, State.grp?_updGrp_other hj.symm]
  · intro s1
    rw [exec_gateReturn hg hf hkern hres hcall harr hq hb]
    exact ⟨fun hready => by rw [if_pos hready], fun hwait => by rw [if_neg (Bool.eq_false_iff.mp hwait)]⟩
  · intro g' word
    refine ⟨fun hkern => ?_, fun hkern => ?_⟩
    · obtain ⟨poison, hleave⟩ := leave_callee hf hkern status cause
      have hrest := putStatus_rest f status cause (backTo f fs (restored f g poison))
      rw [← hleave] at hrest
      refine ⟨(congrArg Group.frames hrest :), (congrArg Group.ctx hrest :), (congrArg Group.nregs hrest :), (congrArg Group.sregs hrest :),
        (congrArg Group.gmap hrest :), (congrArg Group.p hrest :), (congrArg Group.b hrest :), (congrArg Group.fpflags hrest :),
        (congrArg Group.args hrest :), (congrArg Group.cstack hrest :), (congrArg Group.helper hrest :), (congrArg Group.mon hrest :),
        (congrArg Group.block hrest :), (congrArg (fun g : Group => g.lanes.length) hrest :).trans (onLanes_lanes_length ..), fun l hl => ?_,
        fun k l hl => ?_, fun k => ?_⟩
      · simp only [g', hleave, putStatus_lane]
        exact lane_backTo f fs (restored f g poison) l hl
      · exact ((congrArg (fun g : Group => vReg g k l) hrest :)).trans (vReg_restored f g poison k l hl)
      · simp only [g', hleave, sReg_putStatus]
        exact congrArg (ite _ _) (sReg_restored f g poison k)
    · have hleave := leave_kernel hf hkern status cause
      have hrest := putStatus_rest f status cause (backTo f fs g)
      rw [← hleave] at hrest
      refine ⟨(congrArg Group.frames hrest :), (congrArg Group.block hrest :), fun k => ?_, (congrArg Group.v hrest :), fun l hl => ?_⟩
      · simp only [g', hleave, sReg_putStatus]
        rfl
      · simp only [g', hleave, putStatus_lane]
        exact lane_backTo f fs g l hl
  · have hp : duePast s g f = true := by simp [duePast, hdl, hpast]
    rw [exec_gateDeadline hg hres, outermost_one hf hp]
    refine ⟨fun hkern hb => ?_, fun hkern hb => ?_⟩ <;> unfold State.unwindFrame <;>
      simp only [hg, hb, hf, hkern, State.dropWait, Bool.false_eq_true, false_and, if_false, List.length_nil, Nat.zero_add, and_self, if_true]
  · have hnone : g.outermost (duePast s g) = none := outermost_none fun f hf => by simp [duePast, hdl f hf]
    rw [exec_gateDeadline hg hres, hnone, hb]
    simp only [State.unwindStep, hdr, hfence, Bool.not_true, Bool.false_eq_true, if_false, if_true]

end Sys2Proof.Machine
end

section
/-! The proof of `Obligations.CopiesAndBarriers`: copy requests, their channels and chunks, and barrier objects. -/

namespace Sys2Proof.Machine

/-! ### The record (R293) -/

/-- A field of a word of the record. -/
theorem bits_fieldAt (x a w lo k : Nat) (h : lo + k ≤ 8 * w) : bits (fieldAt x a w) lo k = bits x (8 * a + lo) k := by
  unfold fieldAt bits
  obtain ⟨r, hr⟩ : ∃ r, 8 * w = lo + (k + r) := ⟨8 * w - lo - k, by omega⟩
  rw [hr, Nat.pow_add 2 lo, Nat.mod_mul_right_div_self, Nat.pow_add 2 k, Nat.mod_mul_right_mod, Nat.div_div_eq_div_mul, ← Nat.pow_add]

theorem bitAt_fieldAt (x a w lo : Nat) (h : lo + 1 ≤ 8 * w) : bitAt (fieldAt x a w) lo = bitAt x (8 * a + lo) :=
  congrArg (fun n => n == 1) (bits_fieldAt x a w lo 1 h)

/-! ### CPY and CPYR at issue (R293, R298) -/

theorem chan_updChan (s : State) (core k : Nat) (f : Chan → Chan) (ch : Nat) :
    (s.updChan core k f).chan core ch = if ch = k then f (s.chan core k) else s.chan core ch := by
  rw [State.chan, State.updChan, core_updCore, if_pos rfl]
  refine (mget_mput ..).trans ?_
  by_cases h : ch = k
  · rw [if_pos h.symm, if_pos h]
    rfl
  · rw [if_neg (Ne.symm h), if_neg h]
    rfl

theorem core_updChan_rest (s : State) (core k : Nat) (f : Chan → Chan) :
    { (s.updChan core k f).core core with chans := (s.core core).chans } = s.core core := by
  rw [State.updChan, core_updCore, if_pos rfl]

theorem core_updChan_other (s : State) (core k : Nat) (f : Chan → Chan) {c : Nat} (hc : c ≠ core) : (s.updChan core k f).core c = s.core c := by
  rw [State.updChan, core_updCore, if_neg hc]

section
variable {s : State} {x : Issue}

/-- The request that CPY or CPYR makes of the record at `addr`. -/
def copyReq (s : State) (x : Issue) (addr : Nat) (reduce : Bool) : CopyReq :=
  { who := .op s.nextId, gid := x.gid, ctx := x.g.ctx, cluster := x.g.cluster, gang := x.g.gang, team := x.g.team,
    addr := addr, reduce := reduce, r := parseCopy (leNat (mgets byteZero (s.scratch x.g).2 addr 64)),
    before := (s.ops.filter (fun e => e.2.gid == x.gid && holdsCopy e.2)).map (·.1) }

/-- What CPY and CPYR do once they execute for some lane. -/
theorem copyOp_active (reduce : Bool) (a : Opnd) (off : BitVec 24) (hact : x.act ≠ 0) {addr : Nat} (haddr : x.spAddr a off = addr) :
    copyOp reduce a off x s =
      if addr % 64 ≠ 0 ∨ addr + 63 ≥ (s.scratch x.g).1 then s.queueTrap x.gid (x.trap s 0x0E x.act x.act (BitVec.ofNat 64 addr))
      else x.done ((s.addOp x.gid (some .cp) (.copy addr)).addReq x.g.core (copyReq s x addr reduce)) id := by
  subst haddr
  exact if_neg hact

theorem copyOp_idle (reduce : Bool) (a : Opnd) (off : BitVec 24) (hact : x.act = 0) : copyOp reduce a off x s = x.done s id :=
  if_pos hact

/-- Appending a request is no change of anything but its channel. -/
theorem done_addReq (hg : s.grp? x.gid = some x.g) (kind : OpKind) (req : CopyReq) :
    { x.done ((s.addOp x.gid (some .cp) kind).addReq x.g.core req) id with cores := s.cores } = x.done (s.addOp x.gid (some .cp) kind) id := by
  rw [addOp_some hg]
  rfl

theorem core_addOp (hg : s.grp? x.gid = some x.g) (cls : Cls) (kind : OpKind) (c : Nat) : (s.addOp x.gid (some cls) kind).core c = s.core c := by
  rw [addOp_some hg]
  rfl

/-- CPY and CPYR, by what they do at issue. -/
theorem copy_issued {i : Instr} {reduce : Bool} {a : Opnd} {off : BitVec 24} (hgo : s.issueOf i false = .go x)
    (hexec : exec i s = .next (copyOp reduce a off x s)) :
    let addr := (x.g.opnd a 1 x.lead + offOf off) % 2 ^ 32
    let good := addr % 64 = 0 ∧ addr + 63 < (s.scratch x.g).1
    (x.act = 0 → ∃ t g', exec i s = .next t ∧ OnlyGroup s t x.gid g' ∧ Stepped x.g g' x.run ∧ { g' with lanes := x.g.lanes } = x.g) ∧
    (x.act ≠ 0 → good → ∃ t g', exec i s = .next t ∧ Counted s { t with cores := s.cores } x .cp (.copy addr) g' ∧
      (∀ k, k ≠ x.g.core → t.core k = s.core k) ∧ { t.core x.g.core with chans := (s.core x.g.core).chans } = s.core x.g.core ∧
      ∀ ch, t.chan x.g.core ch = if ch = (copyReq s x addr reduce).r.chan then
        { s.chan x.g.core ch with reqs := (s.chan x.g.core ch).reqs ++ [copyReq s x addr reduce] } else s.chan x.g.core ch) ∧
    (x.act ≠ 0 → ¬ good → exec i s = .next (s.queueTrap x.gid (x.trap s 0x0E x.act x.act (BitVec.ofNat 64 addr)))) := by
  have hg := grp_of_issueOf hgo
  intro addr good
  rw [hexec]
  refine ⟨fun hact => ?_, fun hact hgood => ?_, fun hact hbad => ?_⟩
  · rw [copyOp_idle reduce a off hact]
    exact goes_on hg
  · obtain ⟨halign, hroom⟩ := hgood
    rw [copyOp_active reduce a off hact (addr := addr) rfl, if_neg (not_or.mpr ⟨not_not.mpr halign, Nat.not_le.mpr hroom⟩)]
    have hcore := core_addOp (s := s) hg .cp (.copy addr)
    have hchan (ch : Nat) : (s.addOp x.gid (some .cp) (.copy addr)).chan x.g.core ch = s.chan x.g.core ch :=
      congrArg (fun c : CoreSt => mget ({} : Chan) c.chans ch) (hcore x.g.core)
    refine ⟨_, (x.g.count .cp).advance x.run, rfl, ?_, fun k hk => (core_updChan_other (s.addOp x.gid (some .cp) (.copy addr)) x.g.core
      (copyReq s x addr reduce).r.chan (fun c => { c with reqs := c.reqs ++ [copyReq s x addr reduce] }) hk).trans (hcore k), ?_, fun ch => ?_⟩
    · rw [done_addReq hg]
      exact counted_addOp hg .cp (.copy addr)
    · have hrest := core_updChan_rest (s.addOp x.gid (some .cp) (.copy addr)) x.g.core (copyReq s x addr reduce).r.chan
        (fun c => { c with reqs := c.reqs ++ [copyReq s x addr reduce] })
      rw [hcore] at hrest
      exact hrest
    · have hput := chan_updChan (s.addOp x.gid (some .cp) (.copy addr)) x.g.core (copyReq s x addr reduce).r.chan
        (fun c => { c with reqs := c.reqs ++ [copyReq s x addr reduce] }) ch
      rw [hchan, hchan] at hput
      refine hput.trans ?_
      split
      next hch => rw [hch]
      next => rfl
  · rw [copyOp_active reduce a off hact (addr := addr) rfl, if_pos]
    by_contra hnot
    exact hbad ⟨not_not.mp fun h => hnot (Or.inl h), Nat.not_le.mp fun h => hnot (Or.inr h)⟩

end

/-! ### Channels and arbitration (R298, R303) -/

section
variable {s : State} {core ch : Nat} {q : CopyReq}

theorem exec_copyStart (hq : s.chanHead core ch = some q) (hstart : q.started = false) (hbefore : q.before = [])
    (hwho : ∃ id, q.who = .op id) (hbad : copyBad q.r q.reduce false = false)
    (htime : ∀ g, s.grp? q.gid = some g → g.ctime.toNat + 2 ≤ s.coreTime core) :
    exec (.copyStart core ch) s = .next (s.updHead core ch (fun q => { q with started := true })) := by
  obtain ⟨id, hid⟩ := hwho
  have hmig : (CopyFor.op id == CopyFor.mig) = false := rfl
  cases hg : s.grp? q.gid with
  | none =>
    simp only [exec, execCopyStart, hq, hstart, hbefore, hid, hg, hmig, hbad, List.any_nil, Nat.not_lt_zero, decide_false, Bool.or_self,
      Bool.false_eq_true, if_false]
  | some g =>
    have hin : decide (s.coreTime core < g.ctime.toNat + 2) = false := decide_eq_false (Nat.not_lt.mpr (htime g hg))
    simp only [exec, execCopyStart, hq, hstart, hbefore, hid, hg, hmig, hbad, hin, List.any_nil, Bool.or_self, Bool.false_eq_true, if_false]

/-- The highest class of some channels. -/
def topClass (rs : List (Nat × CopyReq)) : Nat := rs.foldl (fun n c => max n c.2.r.cls) 0

theorem le_topClass {rs : List (Nat × CopyReq)} {c : Nat × CopyReq} (hc : c ∈ rs) : c.2.r.cls ≤ topClass rs := by
  have hle (rs : List (Nat × CopyReq)) (n : Nat) : n ≤ rs.foldl (fun n c => max n c.2.r.cls) n ∧
      ∀ c ∈ rs, c.2.r.cls ≤ rs.foldl (fun n c => max n c.2.r.cls) n := by
    induction rs generalizing n with
    | nil => exact ⟨Nat.le_refl _, fun c hc => absurd hc List.not_mem_nil⟩
    | cons r rs ih =>
      obtain ⟨hn, hall⟩ := ih (max n r.2.r.cls)
      refine ⟨(Nat.le_max_left ..).trans hn, fun c hc => ?_⟩
      rcases List.mem_cons.mp hc with rfl | hc
      · exact (Nat.le_max_right ..).trans hn
      · exact hall c hc
  exact (hle rs 0).2 c hc

theorem grantChan_eq (s : State) (core : Nat) : s.grantChan core =
    match (s.readyChans core).find? (fun c => decide ((s.chan core c.1).waited ≥ 64)) with
    | some c => some c
    | none => (s.readyChans core).find? (fun c => c.2.r.cls == topClass (s.readyChans core)) := rfl

/-- The channel granted is a ready one: one that has waited longest, else one of the highest class. -/
theorem grantChan_spec (h : s.grantChan core = some (ch, q)) : (ch, q) ∈ s.readyChans core ∧
    ((∃ c ∈ s.readyChans core, (s.chan core c.1).waited ≥ 64) → (s.chan core ch).waited ≥ 64) ∧
    ((∀ c ∈ s.readyChans core, (s.chan core c.1).waited < 64) → ∀ c ∈ s.readyChans core, c.2.r.cls ≤ q.r.cls) := by
  rw [grantChan_eq] at h
  split at h
  next c hc =>
    obtain rfl := Option.some.inj h
    have hmem := List.mem_of_find?_eq_some hc
    have hwait : (s.chan core ch).waited ≥ 64 := by simpa using List.find?_some hc
    exact ⟨hmem, fun _ => hwait, fun hall => absurd hwait (Nat.not_le.mpr (hall _ hmem))⟩
  next hnone =>
    have hmem := List.mem_of_find?_eq_some h
    have htop : q.r.cls = topClass (s.readyChans core) := by simpa using List.find?_some h
    refine ⟨hmem, ?_, fun _ c hc => htop ▸ le_topClass hc⟩
    rintro ⟨c, hc, hwait⟩
    exact absurd (decide_eq_true hwait) (List.find?_eq_none.mp hnone c hc)

/-- The only ready channel is granted. -/
theorem grantChan_one (h : s.readyChans core = [(ch, q)]) : s.grantChan core = some (ch, q) := by
  have htop : (q.r.cls == topClass [(ch, q)]) = true := by simp [topClass]
  rw [grantChan_eq, h, List.find?_cons, List.find?_cons, htop]
  split
  next c hc =>
    split at hc
    · exact hc.symm
    · cases hc
  next => rfl

theorem exec_chunkArbitration (h : s.readyChans core = [(ch, q)]) (hdead : ∀ g, s.grp? q.gid = some g → g.dead = false) :
    exec (.chunkArbitration core) s = .next (((s.updChan core ch (fun c => { c with waited := 0 })).updCore core
      (fun c => { c with lastChan := ch })).updHead core ch
        (fun q' => { q' with issued := q.issued + 1, flight := q'.flight ++ [{ chunk := q.issued }] })) := by
  have hothers : ((s.readyChans core).filter fun c => c.1 != ch) = [] := by rw [h]; simp
  have halive : (s.grp? q.gid).any (fun g => g.dead) = false := by
    cases hg : s.grp? q.gid with
    | none => rfl
    | some g => exact hdead g hg
  simp only [exec, execChunkArbitration, grantChan_one h, hothers, List.foldl_nil]
  have halive' : (((s.updChan core ch (fun c => { c with waited := 0 })).updCore core (fun c => { c with lastChan := ch })).grp? q.gid).any
      (fun g => g.dead) = false := halive
  rw [halive']
  rfl

end

/-! ### Chunks (R299, R300) -/

section
variable {s : State} {core k : Nat} {q : CopyReq} {f : Flight} {o : Op} {a : Acc}

theorem flightAccs_one (hops : f.ops = [k]) (ho : mfind s.ops k = some o) (haccs : o.accs = [a]) : s.flightAccs f = [a] := by
  simp [State.flightAccs, hops, ho, haccs]

theorem accStatus_done (hdone : a.st = .done) : accStatus [a] = 0 := by
  simp [accStatus, hdone]

theorem final_done (hdone : a.st = .done) : ([a].all Acc.final) = true := by
  simp [Acc.final, hdone]

/-- The one access that writes a piece. -/
def writeAcc (da key n v : Nat) (lk mg : Bool) : Acc :=
  { lane := 0, va := BitVec.ofNat 64 da, key := key, lockok := lk, mig := mg, data := v, data2 := n, st := .wait }

/-- The operation of one access of a chunk. -/
def chunkOp (core : Nat) (q : CopyReq) (kind : MemKind) (n : Nat) (a : Acc) : Op :=
  { gid := 0, ctx := q.ctx, cluster := q.cluster, core := core, job := .chunk, migClass := q.r.mig,
    kind := .mem { kind := kind, ty := .b8, width := n } [a] }

/-- One piece that a chunk writes is sent in one operation of one access. -/
theorem sendParts_one (kind : MemKind) (elems : Nat → Nat) (da key n v : Nat) (lk mg : Bool) :
    s.sendParts core q kind elems [{ i := 0, va := da, at_ := .key key lk mg, n := n, data := v }] =
      ([s.nextId], s.sendOp (chunkOp core q kind n (writeAcc da key (elems n) v lk mg))) := by
  have hn : (n == n) = true := beq_self_eq_true n
  simp only [State.sendParts, partSizes, List.foldl_cons, List.foldl_nil, List.contains_nil, Bool.false_eq_true, if_false, List.nil_append,
    List.filter_cons, List.filter_nil, hn, if_true, List.filterMap_cons, List.filterMap_nil]
  rfl

theorem sideRefuses_dropFlight (p : Place1) (wr : Bool) : (s.dropFlight f).sideRefuses core q p wr = s.sideRefuses core q p wr := rfl

/-- A chunk whose one piece has been read sends what it read to its destination. -/
theorem startWrites_one {p : Piece} {key sa da n : Nat} {lk mg : Bool} (hops : f.ops = [k]) (ho : mfind s.ops k = some o)
    (haccs : o.accs = [a]) (hdone : a.st = .done) (hlane : a.lane = 0) (hps : f.ps = [p]) (hdst : p.dst = .key key lk mg) (hn : p.n = n)
    (hpieces : chunkPieces q.r f.chunk = [(sa, da, n)]) (hred : q.reduce = false) (hsrc : q.srcSide ≠ .tile) (hto : q.dstSide ≠ .tile)
    (hok : s.sideRefuses core q p.dst true = false) : s.startWrites core q f =
      ({ f with stage := .writing, ops := [s.nextId], vals := [] },
        (s.dropFlight f).sendOp (chunkOp core q .store n (writeAcc da key (n / ((fmtTy q.r.fmt).width / 8)) a.res lk mg))) := by
  have haccs' := flightAccs_one hops ho haccs
  have hfind : [a].find? (fun a => a.lane == 0) = some a := by simp [hlane]
  have hrefuse : ([p].any fun p => (s.dropFlight f).sideRefuses core q p.dst true) = false := by
    simpa [sideRefuses_dropFlight] using hok
  have hsend := sendParts_one (s := s.dropFlight f) (core := core) (q := q) .store (fun n => n / ((fmtTy q.r.fmt).width / 8)) da key n a.res lk mg
  unfold State.startWrites
  simp only [haccs', accStatus_done hdone, ne_eq, not_true, if_false, if_neg hsrc, if_neg hto, hrefuse, Bool.false_eq_true, hred, hpieces,
    hps, List.zip_cons_cons, List.zip_nil_left, mapFrom, mergeParts, hdst, hn, hfind]
  rw [hsend]
  rfl

/-- A chunk whose one write has been acknowledged is over. -/
theorem endWrites_one (hops : f.ops = [k]) (ho : mfind s.ops k = some o) (haccs : o.accs = [a]) (hdone : a.st = .done)
    (hred : q.reduce = false) : s.endWrites core q f =
      ({ f with stage := .over, ops := [], vals := [], res := { status := 0, tc := a.tc, sat := 0 } }, s.dropFlight f) := by
  have haccs' := flightAccs_one hops ho haccs
  unfold State.endWrites
  simp only [haccs', accStatus_done hdone, hred, Bool.false_eq_true, if_false, List.foldl_cons, List.foldl_nil, Nat.zero_max]
  rfl

theorem advance_reading (hstage : f.stage = .reading) (hops : f.ops = [k]) (ho : mfind s.ops k = some o) (haccs : o.accs = [a])
    (hdone : a.st = .done) : s.advanceFlight core q true f = s.startWrites core q f := by
  unfold State.advanceFlight
  simp only [hstage, flightAccs_one hops ho haccs, final_done hdone, Bool.and_self, if_true]

theorem advance_writing (hstage : f.stage = .writing) (hops : f.ops = [k]) (ho : mfind s.ops k = some o) (haccs : o.accs = [a])
    (hdone : a.st = .done) : s.advanceFlight core q true f = s.endWrites core q f := by
  unfold State.advanceFlight
  simp only [hstage, flightAccs_one hops ho haccs, final_done hdone, if_true]

/-- The report of the one chunk in flight, which is over. -/
theorem exec_chunkReport {ch : Nat} (hq : s.chanHead core ch = some q) (hfl : q.flight = [f]) (hstage : f.stage = .over) :
    exec (.chunkReport core ch .ok) s = .next (((s.updHead core ch (fun _ => q)).updHead core ch
      (fun _ => { q with flight := [] })).reportChunk core ch { q with flight := [] } f.chunk f.res) := by
  have hadv : s.advanceFlights core q true q.flight = ([f], s) := by
    rw [hfl]
    simp only [State.advanceFlights, State.advanceFlight, hstage]
  have hsame : { q with flight := [f] } = q := by rw [← hfl]
  have hone : ([f].filter fun f => f.stage == .over) = [f] := by simp [hstage]
  have herase : eraseFirst (fun x => x.chunk == f.chunk) [f] = [] := by simp [eraseFirst]
  simp only [exec, execChunkReport, hq, hadv, hsame, hone, herase, List.length_singleton, Nat.le_refl, if_true, List.getElem?_cons_zero,
    ne_eq, not_true, and_false, if_false]

/-! ### Reports (R296, R299) -/

variable {ch c : Nat} {r : ChunkRes}

/-- A completed chunk, counted. -/
def countedOk (q : CopyReq) (c : Nat) (r : ChunkRes) : CopyReq :=
  { q with reported := q.reported + 1, satcnt := q.satcnt + r.sat, bytes := q.bytes + chunkLen q.r c }

/-- The lowest failed chunk is known from now on. -/
def lowestNow (q : CopyReq) (c : Nat) : Bool := q.fcount == 0 || decide (c < q.ffirst)

/-- A failed chunk, counted. -/
def countedBad (q : CopyReq) (c : Nat) (r : ChunkRes) : CopyReq :=
  { q with reported := q.reported + 1, fcount := q.fcount + 1, fstat := if lowestNow q c then r.status else q.fstat,
           ffirst := if lowestNow q c then c else q.ffirst }

theorem reportChunk_ok (hst : r.status = 0) : s.reportChunk core ch q c r =
    if (countedOk q c r).reported = copyChunks q.r then
      (s.updHead core ch (fun _ => countedOk q c r)).copyEnd core ch (countedOk q c r)
        (fun s => s.boCount (countedOk q c r) (chunkLen q.r c) 0 r.tc)
    else (s.updHead core ch (fun _ => countedOk q c r)).boCount (countedOk q c r) (chunkLen q.r c) 0 r.tc := by
  have hbad : (r.status != 0) = false := by simp [hst]
  have hnot : ¬ r.status = 1 := by omega
  unfold State.reportChunk
  simp only [hbad, Bool.false_and, Bool.false_eq_true, if_false, if_neg hnot]
  rfl

theorem reportChunk_bad (hst : 1 < r.status) (hmore : q.reported + 1 ≠ copyChunks q.r) : s.reportChunk core ch q c r =
    ((s.updHead core ch (fun _ => countedBad q c r)).addErr q.ctx (.chunk q.addr c r.status)).boCount (countedBad q c r) (chunkLen q.r c) 1 0 := by
  have hbad : (r.status != 0) = true := by simp; omega
  have hnot : ¬ r.status = 1 := by omega
  unfold State.reportChunk
  simp only [hbad, Bool.true_and, if_true, if_neg hnot, if_neg hmore, Nat.add_zero]
  rfl

end

/-! ### Barrier objects (R75, R296, R302) -/

section
variable {s : State} {x : Issue} {gid : Nat} {g : Group}

theorem boDone_done {addr : Nat} (h : toSigned 48 (s.spRead gid addr 16 / 2 ^ 64) ≤ 0) :
    s.boDone gid addr = some (s.spRead gid addr 16 % 2 ^ 64) := if_pos h

theorem boDone_waits {addr : Nat} (h : ¬ toSigned 48 (s.spRead gid addr 16 / 2 ^ 64) ≤ 0) : s.boDone gid addr = none := if_neg h

/-- BOWAIT returns by its count: its run advances, P[D] is set and %ctime raised. -/
theorem boReturn_group (hg : s.grp? gid = some g) (p v : Nat) (lanes : Word) :
    ∃ g', OnlyGroup s (s.updGrp gid (fun g => g.boReturn p (v % 2 ^ 64) lanes)) gid g' ∧ Stepped g g' lanes ∧ g'.block = .none ∧
      g'.ctime.toNat = max g.ctime.toNat (v % 2 ^ 64) ∧ (∀ k l, l < 32 → pBit g' k l = if k = p ∧ p < 15 then true else pBit g k l) ∧
      { g' with lanes := g.lanes, ctime := g.ctime, p := g.p, block := g.block } = g := by
  have hst := stepped_of g { (g.setPredAll p true).raiseCtime (v % 2 ^ 64) with block := .none } lanes (setPredAll_lanes g p true)
  refine ⟨_, onlyGroup_updGrp s gid g _ hg, hst, rfl,
    (raiseCtime_toNat (g.setPredAll p true) (Nat.mod_lt _ (Nat.two_pow_pos 64))).trans (by rw [setPredAll_rest]),
    fun k l hl => pBit_setPredAll g p true k l hl, ?_⟩
  unfold Group.boReturn
  rw [setPredAll_rest]
  rfl

/-- BOWAIT's predicate is cleared, and its run advances. -/
theorem cleared_group (p : Nat) (lanes : Word) : Stepped g ((g.setPredAll p false).advance lanes) lanes ∧
    (∀ k l, l < 32 → pBit ((g.setPredAll p false).advance lanes) k l = if k = p ∧ p < 15 then false else pBit g k l) ∧
    { (g.setPredAll p false).advance lanes with lanes := g.lanes, p := g.p } = g := by
  refine ⟨stepped_of g (g.setPredAll p false) lanes (setPredAll_lanes g p false), fun k l hl => pBit_setPredAll g p false k l hl, ?_⟩
  rw [setPredAll_rest]
  rfl

/-- The address checks of a barrier object. -/
theorem boCheck_eq (addr : Nat) : s.boCheck x addr =
    if addr ≥ (s.scratch x.g).1 then some (s.queueTrap x.gid (x.trap s 0x0E x.act x.act (BitVec.ofNat 64 addr)))
    else if addr % 16 ≠ 0 then some (s.queueTrap x.gid (x.trap s 0x12 x.act x.act (BitVec.ofNat 64 addr)))
    else none := rfl

/-- A barrier-object instruction whose object lies at `addr`: the checks, and then `f`. -/
def boOp (x : Issue) (addr : Nat) (f : State → State) (s : State) : State :=
  if x.act = 0 then x.done s id
  else match s.boCheck x addr with
    | some t => t
    | none => f s

theorem boOp_idle (addr : Nat) (f : State → State) (hact : x.act = 0) : boOp x addr f s = x.done s id := if_pos hact

theorem boOp_beyond {addr : Nat} (f : State → State) (hact : x.act ≠ 0) (h : addr ≥ (s.scratch x.g).1) :
    boOp x addr f s = s.queueTrap x.gid (x.trap s 0x0E x.act x.act (BitVec.ofNat 64 addr)) := by
  rw [boOp, if_neg hact, boCheck_eq, if_pos h]

theorem boOp_misaligned {addr : Nat} (f : State → State) (hact : x.act ≠ 0) (h : addr < (s.scratch x.g).1) (h16 : addr % 16 ≠ 0) :
    boOp x addr f s = s.queueTrap x.gid (x.trap s 0x12 x.act x.act (BitVec.ofNat 64 addr)) := by
  rw [boOp, if_neg hact, boCheck_eq, if_neg (Nat.not_le.mpr h), if_pos h16]

theorem boOp_passes {addr : Nat} (f : State → State) (hact : x.act ≠ 0) (h : addr < (s.scratch x.g).1) (h16 : addr % 16 = 0) :
    boOp x addr f s = f s := by
  rw [boOp, if_neg hact, boCheck_eq, if_neg (Nat.not_le.mpr h), if_neg (not_not.mpr h16)]

/-- BOWAIT once its checks have passed. -/
def bowaitOp (x : Issue) (pd addr n : Nat) (s : State) : State :=
  match s.boDone x.gid addr with
  | some t => s.updGrp x.gid (fun g => g.boReturn pd t x.run)
  | none =>
    if n = 0 then x.done s (fun g => g.setPredAll pd false)
    else s.updGrp x.gid (fun g => { g with block := .bowait pd addr (s.regtime x.g + n) x.run })

theorem exec_boinit {h : Hdr} {a b : Opnd} {off : BitVec 24} (hgo : s.issueOf (.boinit h a b off) false = .go x) :
    exec (.boinit h a b off) s = .next (boOp x ((x.g.opnd a 1 x.lead + offOf off) % 2 ^ 32)
      (fun s => x.done (s.spWrite x.gid ((x.g.opnd a 1 x.lead + offOf off) % 2 ^ 32) 16 (2 ^ 64 * x.g.opnd b 1 x.lead)) id) s) :=
  exec_of_go (eff := fun x s => boOp x ((x.g.opnd a 1 x.lead + offOf off) % 2 ^ 32)
      (fun s => x.done (s.spWrite x.gid ((x.g.opnd a 1 x.lead + offOf off) % 2 ^ 32) 16 (2 ^ 64 * x.g.opnd b 1 x.lead)) id) s) hgo rfl

theorem exec_bowait {h : Hdr} {p : Nat} {a b : Opnd} {off : BitVec 24} (hgo : s.issueOf (.bowait h p a b off) false = .go x) :
    exec (.bowait h p a b off) s = .next (boOp x ((x.g.opnd a 1 x.lead + offOf off) % 2 ^ 32)
      (bowaitOp x p ((x.g.opnd a 1 x.lead + offOf off) % 2 ^ 32) (x.g.opnd b 1 x.lead)) s) :=
  exec_of_go (eff := fun x s => boOp x ((x.g.opnd a 1 x.lead + offOf off) % 2 ^ 32)
      (bowaitOp x p ((x.g.opnd a 1 x.lead + offOf off) % 2 ^ 32) (x.g.opnd b 1 x.lead)) s) hgo rfl

theorem exec_bowaitReturn {p addr till : Nat} {lanes : Word} (hg : s.grp? gid = some g) (hb : g.block = .bowait p addr till lanes)
    (hres : s.resident g = true) (h : toSigned 48 (s.spRead gid addr 16 / 2 ^ 64) ≤ 0) : exec (.bowaitReturn gid) s =
      .next (s.updGrp gid (fun g => g.boReturn p (s.spRead gid addr 16 % 2 ^ 64) lanes)) := by
  simp only [exec, execBowaitReturn, hg, hb, hres, if_true, boDone_done h]

theorem exec_bowaitTimeout {p addr till : Nat} {lanes : Word} (hg : s.grp? gid = some g) (hb : g.block = .bowait p addr till lanes)
    (hres : s.resident g = true) (h : ¬ toSigned 48 (s.spRead gid addr 16 / 2 ^ 64) ≤ 0) (htill : till ≤ s.regtime g) :
    exec (.bowaitTimeout gid) s = .next (s.updGrp gid (fun g => { ((g.setPredAll p false).advance lanes) with block := .none })) := by
  simp only [exec, execBowaitTimeout, hg, hb, hres, htill, boDone_waits h, decide_true, Option.isNone_none, Bool.and_self, if_true]

/-- One update of a barrier object that lies in the group's scratchpad. -/
theorem boCount_eq {q : CopyReq} (bytes failed tc : Nat) (hg : s.grp? q.gid = some g) (hbo : q.r.bo = true) (halign : q.r.bobj % 16 = 0)
    (hroom : q.r.bobj + 16 ≤ (s.scratch g).1) : s.boCount q bytes failed tc = s.spWrite q.gid q.r.bobj 16
      (max (s.spRead q.gid q.r.bobj 16 % 2 ^ 64) tc +
        2 ^ 64 * ((s.spRead q.gid q.r.bobj 16 / 2 ^ 64 % 2 ^ 48 + 2 ^ 48 - bytes % 2 ^ 48) % 2 ^ 48) +
        2 ^ 112 * min 65535 (s.spRead q.gid q.r.bobj 16 / 2 ^ 112 + failed)) := by
  have hin : decide (q.r.bobj + 16 > (s.scratch g).1) = false := decide_eq_false (Nat.not_lt.mpr hroom)
  have h16 : (q.r.bobj % 16 != 0) = false := by simp [halign]
  unfold State.boCount
  simp only [hbo, h16, hg, hin, Bool.not_true, Bool.or_self, Bool.false_eq_true, if_false]

/-! The scratchpad of a group that runs in its own team: what is written is read back. -/

variable {addr v : Nat}

theorem spWrite_own (hg : s.grp? gid = some g) (hfr : g.frames = []) (haddr : addr < aliasBase) :
    s.spWrite gid addr 16 v = s.updTeam g.gang g.team (fun t => { t with sp := msets byteZero t.sp addr (leBytes 16 v) }) := by
  unfold State.spWrite
  simp only [hg, if_neg (Nat.not_le.mpr haddr), hfr]

theorem spRead_own (hg : s.grp? gid = some g) (hfr : g.frames = []) {a : Nat} (n : Nat) (ha : a < aliasBase) :
    s.spRead gid a n = leNat (mgets byteZero (s.team g.gang g.team).sp a n) := by
  unfold State.spRead
  simp only [hg, if_neg (Nat.not_le.mpr ha), scratch_of_nil hfr]

/-- What the scratchpad reads after such a write. -/
theorem spRead_spWrite (hg : s.grp? gid = some g) (hfr : g.frames = []) (hteam : g.team < (mget ({} : Gang) s.gangs g.gang).teams.length)
    (haddr : addr < aliasBase) {a : Nat} (n : Nat) (ha : a < aliasBase) : (s.spWrite gid addr 16 v).spRead gid a n =
      leNat (mgets byteZero (msets byteZero (s.team g.gang g.team).sp addr (leBytes 16 v)) a n) := by
  have hteam' := team_updTeam hteam fun t : Team => { t with sp := msets byteZero t.sp addr (leBytes 16 v) }
  rw [spWrite_own hg hfr haddr]
  refine (spRead_own (s := s.updTeam g.gang g.team _) hg hfr n ha).trans ?_
  rw [hteam']

end

/-- Settles O40: copy requests at issue, on their channels and in their chunks, and barrier objects. -/
theorem copiesAndBarriers : Obligations.CopiesAndBarriers := by
  refine ⟨⟨fun h a off s x => ?_, fun x => ?_, fun s core ch q hq hstart hbefore hwho hbad htime => ?_,
    fun s core ch q => ⟨grantChan_spec, exec_chunkArbitration⟩, fun s core k key sa da n q f o a p lk mg hops hk ho haccs hdone hlane => ?_,
    fun s core ch q f hq hfl hstage => exec_chunkReport hq hfl hstage, fun s core ch c q r => ?_, fun s core ctx r => rfl⟩,
    fun h p a b off s x => ?_, fun s gid p addr till lanes g hg hb hres => ?_,
    fun s q g bytes failed tc hg hbo halign hroom => boCount_eq bytes failed tc hg hbo halign hroom,
    fun s gid addr v g hg hfr hteam haddr hv => ?_⟩
  · exact ⟨fun hgo => copy_issued hgo (exec_of_go hgo rfl), fun hgo => copy_issued hgo (exec_of_go hgo rfl)⟩
  · refine ⟨rfl, rfl, rfl, ?_, rfl, rfl, rfl, bits_fieldAt x 0x24 4 0 2 (by decide), bits_fieldAt x 0x24 4 2 2 (by decide),
      bits_fieldAt x 0x24 4 12 4 (by decide), bits_fieldAt x 0x24 4 16 2 (by decide), bitAt_fieldAt x 0x24 4 18 (by decide),
      bitAt_fieldAt x 0x24 4 19 (by decide), bits_fieldAt x 0x24 4 20 2 (by decide), bits_fieldAt x 0x24 4 22 2 (by decide),
      bits_fieldAt x 0x28 4 0 9 (by decide), bits_fieldAt x 0x28 4 16 9 (by decide)⟩
    have hrows := bits_fieldAt x 0x14 4 0 17 (by decide)
    rwa [bits, Nat.pow_zero, Nat.div_one] at hrows
  · exact exec_copyStart hq hstart hbefore hwho hbad htime
  · refine ⟨fun hstage hps hdst hn hpieces hred hsrc hto hok => ?_, fun hstage hred => ?_⟩
    · rw [advance_reading hstage hops ho haccs hdone,
        startWrites_one hops ho haccs hdone hlane hps hdst hn hpieces hred hsrc hto hok]
      exact ⟨_, _, _, { kind := .store, ty := .b8, width := n }, writeAcc da key _ a.res lk mg, rfl, rfl, rfl, rfl, mfind_mput_same .., rfl, rfl,
        rfl, rfl, rfl, rfl, rfl⟩
    · rw [advance_writing hstage hops ho haccs hdone, endWrites_one hops ho haccs hdone hred]
      refine ⟨_, _, rfl, rfl, rfl, rfl, ?_⟩
      rw [State.dropFlight, hops]
      exact (mfind_mdel ..).trans (if_pos rfl)
  · intro n ok lower bad
    have hlower : lowestNow q c = decide lower := by rw [Bool.eq_iff_iff]; simp [lowestNow, lower]
    have hbad : countedBad q c r = bad := by simp only [countedBad, bad, hlower, decide_eq_true_eq]
    refine ⟨fun hst hmore => (reportChunk_ok hst).trans (if_neg hmore), fun hst hmore => ?_, fun id hst hlast hwho => ?_⟩
    · rw [reportChunk_bad hst hmore, hbad]
    · refine (reportChunk_ok hst).trans ((if_pos hlast).trans ?_)
      unfold State.copyEnd
      have hwho' : (countedOk q c r).who = .op id := hwho
      simp only [hwho']
      rfl
  · intro addr n v traps idle
    refine ⟨fun hgo => ?_, fun hgo => ?_⟩ <;> have hg := grp_of_issueOf hgo
    · have hexec := exec_boinit hgo
      refine ⟨fun hact => ?_, fun hact => ⟨fun hout => ?_, fun hin h16 => ?_⟩, fun hact hin h16 => ?_⟩
      · simp only [idle, hexec, boOp_idle _ _ hact]
        exact goes_on hg
      · rw [hexec, boOp_beyond _ hact hout]
      · rw [hexec, boOp_misaligned _ hact hin h16]
      · rw [hexec, boOp_passes _ hact hin h16]
    · have hexec := exec_bowait hgo
      refine ⟨fun hact => ?_, fun hact => ⟨fun hout => ?_, fun hin h16 => ?_⟩, fun hact hin h16 => ?_⟩
      · simp only [idle, hexec, boOp_idle _ _ hact]
        exact goes_on hg
      · rw [hexec, boOp_beyond _ hact hout]
      · rw [hexec, boOp_misaligned _ hact hin h16]
      · rw [boOp_passes _ hact hin h16, bowaitOp] at hexec
        refine ⟨fun hv => ?_, fun hv hn => ?_, fun hv hn => ?_⟩
        · rw [boDone_done hv] at hexec
          obtain ⟨g', honly, hst, -, hct, hp, hrest⟩ := boReturn_group hg p v x.run
          exact ⟨_, g', hexec, honly, hst, hct, hp, hrest⟩
        · rw [boDone_waits hv] at hexec
          dsimp only at hexec
          rw [if_pos hn] at hexec
          obtain ⟨hst, hp, hrest⟩ := cleared_group (g := x.g) p x.run
          exact ⟨_, _, hexec, onlyGroup_done hg _, hst, hp, hrest⟩
        · rw [boDone_waits hv] at hexec
          dsimp only at hexec
          rw [if_neg hn] at hexec
          exact hexec
  · intro v
    refine ⟨fun hv => ?_, fun hv htill => ?_⟩
    · obtain ⟨g', honly, hst, hblock, hct, hp, -⟩ := boReturn_group hg p v lanes
      exact ⟨_, g', exec_bowaitReturn hg hb hres hv, honly, hst, hblock, hct, hp⟩
    · obtain ⟨hst, hp, -⟩ := cleared_group (g := g) p lanes
      exact ⟨_, _, exec_bowaitTimeout hg hb hres hv htill, onlyGroup_updGrp s gid g _ hg, ⟨hst.length, hst.lane⟩, rfl, hp⟩
  · have hlt : addr < aliasBase := by omega
    refine ⟨?_, ?_, fun p hp hapart => ?_⟩
    · have hlen := mgets_msets byteZero (leBytes 16 v) (s.team g.gang g.team).sp addr
      rw [leBytes_length] at hlen
      rw [spRead_spWrite hg hfr hteam hlt 16 hlt, hlen, leNat_leBytes]
      exact Nat.mod_eq_of_lt hv
    · rw [spWrite_own hg hfr hlt]
      rfl
    · rw [spRead_spWrite hg hfr hteam hlt 1 hp, spRead_own hg hfr 1 hp, mgets_msets_apart]
      rw [leBytes_length]
      omega

end Sys2Proof.Machine
end

section
/-! The proof of `Obligations.Meetings`: the meeting instructions, and what the Chime unit makes of them. -/

namespace Sys2Proof.Machine

/-! ### The instructions at issue (R309) -/

section
variable {s s1 : State} {x : Issue} {a : Opnd} {need : Need} {fail : Issue → Nat → State → State} {eff : Issue → MeetRef → State → State}

/-- The address of the record that a meeting instruction names. -/
def meetVa (x : Issue) (a : Opnd) : DWord := BitVec.ofNat 64 (x.g.opnd a 2 x.lead)

theorem meetOp_idle (hact : x.act = 0) : meetOp a need fail eff x s = x.done s id := if_pos hact

theorem meetOp_noncanonical (hact : x.act ≠ 0) (hc : canonical (meetVa x a) = false) :
    meetOp a need fail eff x s = s.queueTrap x.gid (x.trap s 0x0D x.act x.act (meetVa x a)) := by
  have htrap : x.meetTrap s (meetVa x a) = some (s.queueTrap x.gid (x.trap s 0x0D x.act x.act (meetVa x a))) := by
    unfold Issue.meetTrap
    rw [hc]
    rfl
  rw [meetVa] at htrap
  rw [meetOp, if_neg hact]
  dsimp only
  rw [htrap]
  rfl

theorem meetOp_misaligned (hact : x.act ≠ 0) (hc : canonical (meetVa x a) = true) (h4k : (meetVa x a).toNat % 4096 ≠ 0) :
    meetOp a need fail eff x s = s.queueTrap x.gid (x.trap s 0x12 x.act x.act (meetVa x a)) := by
  have htrap : x.meetTrap s (meetVa x a) = some (s.queueTrap x.gid (x.trap s 0x12 x.act x.act (meetVa x a))) := by
    unfold Issue.meetTrap
    rw [hc, if_neg (by simp), if_pos h4k]
  rw [meetVa] at htrap
  rw [meetOp, if_neg hact]
  dsimp only
  rw [htrap]
  rfl

/-- A record address that passes both traps is translated. -/
theorem meetOp_translates (hact : x.act ≠ 0) (hc : canonical (meetVa x a) = true) (h4k : (meetVa x a).toNat % 4096 = 0) :
    meetOp a need fail eff x s = match s.meetRef x.g (meetVa x a) need with
      | (.error e, s) => fail x e s
      | (.ok m, s) => eff x m s := by
  have htrap : x.meetTrap s (meetVa x a) = none := by
    unfold Issue.meetTrap
    rw [hc, if_neg (by simp), if_neg (by simp [h4k])]
  rw [meetVa] at htrap
  rw [meetOp, if_neg hact]
  dsimp only
  rw [htrap]
  rfl

theorem meetOp_error {e : Nat} (hact : x.act ≠ 0) (hc : canonical (meetVa x a) = true) (h4k : (meetVa x a).toNat % 4096 = 0)
    (href : s.meetRef x.g (meetVa x a) need = (.error e, s1)) : meetOp a need fail eff x s = fail x e s1 := by
  rw [meetOp_translates hact hc h4k, href]

theorem meetOp_ok {ref : MeetRef} (hact : x.act ≠ 0) (hc : canonical (meetVa x a) = true) (h4k : (meetVa x a).toNat % 4096 = 0)
    (href : s.meetRef x.g (meetVa x a) need = (.ok ref, s1)) : meetOp a need fail eff x s = eff x ref s1 := by
  rw [meetOp_translates hact hc h4k, href]

/-- A record address that the tables translate names its record. -/
theorem meetRef_of_translates {va : DWord} {key : Nat} {lk mg : Bool} (h : Translates s x.g va need key lk mg) :
    ∃ ref, s.meetRef x.g va need = (.ok ref, s) ∧ ref.key = key ∧ ref.lockok = lk ∧ ref.va = va.toNat := by
  have htr : s.translate (dieOf x.g.cluster) x.g.ctx va need = (.ok key lk mg, s) := by
    rw [State.translate, lookupFresh_of_translates h]
  unfold State.meetRef
  rw [htr]
  exact ⟨_, rfl, rfl, rfl, rfl⟩

end

section
variable {h : Hdr} {d a b c : Opnd} {s : State} {x : Issue}

/-- A counted status that answers a meeting instruction at once. -/
def countedStatus (d : Opnd) (x : Issue) (e : Nat) (s : State) : State := x.statusOp d (some .mt) e s

def joinEff (d b : Opnd) (x : Issue) (ref : MeetRef) (s : State) : State :=
  x.statusOp d (some .mt) (s.join x ref (x.g.opnd b 1 x.lead)).1 (s.join x ref (x.g.opnd b 1 x.lead)).2

/-- The stream that an MCONT offers. -/
def offered (b c : Opnd) (x : Issue) (ref : MeetRef) : Stream :=
  { meet := ref.key, member := x.g.opnd b 2 x.lead / 2 ^ 32, tag := x.g.opnd b 2 x.lead % 2 ^ 32, buf := BitVec.ofNat 64 (x.g.opnd c 2 x.lead),
    lockok := ref.lockok }

def contEff (d b c : Opnd) (x : Issue) (ref : MeetRef) (s : State) : State :=
  x.done (((s.addOp x.gid (some .mt) (.mcont d x.act (offered b c x ref))).admitStream ref.key s.nextId).pump ref.key) (fun g => g)

def rsltEff (d b c : Opnd) (x : Issue) (ref : MeetRef) (s : State) : State :=
  x.hold s.nextId ((s.addOp x.gid none (.mrslt d x.act ref.key (x.g.opnd b 2 x.lead / 2 ^ 32) (x.g.opnd b 2 x.lead % 2 ^ 32)
    (BitVec.ofNat 64 (x.g.opnd c 2 x.lead)))).result s.nextId d x.act ref.key (x.g.opnd b 2 x.lead / 2 ^ 32) (x.g.opnd b 2 x.lead % 2 ^ 32))

def leaveEff (d b : Opnd) (x : Issue) (ref : MeetRef) (s : State) : State :=
  x.statusOp d (some .mt) (s.depart x ref.key (x.g.opnd b 1 x.lead)).1 (s.depart x ref.key (x.g.opnd b 1 x.lead)).2

/-- What MSTAT answers of a header's fields. -/
def statAnswer (d b : Opnd) (x : Issue) (key n k op live : Nat) (stall : Bool) (s : State) : State :=
  if x.g.opnd b 1 x.lead ≥ n then x.heldOp (Opnd.up d 2) 1 0x02000000 s
  else x.heldOp d 4 (op + 2 ^ 32 * ((k * 2 ^ 16 + live) % 2 ^ 32) + 2 ^ 64 * (b2n stall * 2 ^ 8 + s.memberState key (x.g.opnd b 1 x.lead)) +
    2 ^ 96 * s.memberTag key (x.g.opnd b 1 x.lead)) s

def statEff (d b : Opnd) (x : Issue) (ref : MeetRef) (s : State) : State :=
  match mfind s.meets ref.key with
  | some mt => statAnswer d b x ref.key mt.n mt.k mt.open_ mt.live mt.stall s
  | none => statAnswer d b x ref.key (s.chime ref.key ref.key 4) (s.chime ref.key (ref.key + 4) 4) (s.chime ref.key (ref.key + 0x10) 4)
      (s.chime ref.key (ref.key + 0x14) 2) (bitAt (s.chime ref.key (ref.key + 0x18) 4) 9) s

/-- MSTAT's answer as the model makes it: the header's fields first. -/
def statTuple (d b : Opnd) (x : Issue) (ref : MeetRef) (s : State) : State :=
  let key := ref.key
  let m := x.g.opnd b 1 x.lead
  let (n, k, op, live, stall) := match mfind s.meets key with
    | some mt => (mt.n, mt.k, mt.open_, mt.live, mt.stall)
    | none => (s.chime key key 4, s.chime key (key + 4) 4, s.chime key (key + 0x10) 4, s.chime key (key + 0x14) 2,
        bitAt (s.chime key (key + 0x18) 4) 9)
  if m ≥ n then x.heldOp (Opnd.up d 2) 1 0x02000000 s
  else
    x.heldOp d 4 (op + 2 ^ 32 * ((k * 2 ^ 16 + live) % 2 ^ 32) + 2 ^ 64 * (b2n stall * 2 ^ 8 + s.memberState key m) + 2 ^ 96 * s.memberTag key m) s

theorem statTuple_eq (ref : MeetRef) : statTuple d b x ref s = statEff d b x ref s := by
  unfold statTuple statEff
  dsimp only
  cases mfind s.meets ref.key <;> rfl

theorem exec_mjoin (hgo : s.issueOf (.mjoin h d a b) false = .go x) :
    exec (.mjoin h d a b) s = .next (meetOp a .w (countedStatus d) (joinEff d b) x s) :=
  exec_of_go (eff := meetOp a .w (countedStatus d) (joinEff d b)) hgo rfl
theorem exec_mcont (hgo : s.issueOf (.mcont h d a b c) false = .go x) :
    exec (.mcont h d a b c) s = .next (meetOp a .w (countedStatus d) (contEff d b c) x s) :=
  exec_of_go (eff := meetOp a .w (countedStatus d) (contEff d b c)) hgo rfl
theorem exec_mrslt (hgo : s.issueOf (.mrslt h d a b c) false = .go x) :
    exec (.mrslt h d a b c) s = .next (meetOp a .w (fun x e s => x.heldOp d 1 e s) (rsltEff d b c) x s) :=
  exec_of_go (eff := meetOp a .w (fun x e s => x.heldOp d 1 e s) (rsltEff d b c)) hgo rfl

/-- MLEAVE goes on once its group's mt counter is zero. -/
theorem exec_mleave (hgo : s.issueOf (.mleave h d a b) false = .go x) (hmt : x.act ≠ 0 → x.g.cnt.mt.n = 0) :
    exec (.mleave h d a b) s = .next (meetOp a .w (countedStatus d) (leaveEff d b) x s) := by
  have hexec := exec_of_go (eff := fun x s => if x.act ≠ 0 ∧ x.g.cnt.mt.n ≠ 0 then s
    else meetOp a .w (countedStatus d) (leaveEff d b) x s) hgo rfl
  rwa [if_neg (fun hw => hw.2 (hmt hw.1))] at hexec

theorem exec_mstat (hgo : s.issueOf (.mstat h d a b) false = .go x) :
    exec (.mstat h d a b) s = .next (meetOp a .r (fun x e s => x.heldOp (Opnd.up d 2) 1 (e * 2 ^ 24) s) (statTuple d b) x s) :=
  exec_of_go (eff := meetOp a .r (fun x e s => x.heldOp (Opnd.up d 2) 1 (e * 2 ^ 24) s) (statTuple d b)) hgo rfl

/-- MSTAT's words, of a member that the meeting has. -/
theorem statAnswer_in {key n k op live : Nat} {stall : Bool} (hm : x.g.opnd b 1 x.lead < n) :
    statAnswer d b x key n k op live stall s = x.heldOp d 4 (op + 2 ^ 32 * ((k * 2 ^ 16 + live) % 2 ^ 32) +
      2 ^ 64 * ((if stall then 2 ^ 8 else 0) + s.memberState key (x.g.opnd b 1 x.lead)) + 2 ^ 96 * s.memberTag key (x.g.opnd b 1 x.lead)) s := by
  have hstall : b2n stall * 2 ^ 8 = if stall then 2 ^ 8 else 0 := by cases stall <;> rfl
  rw [statAnswer, if_neg (Nat.not_le.mpr hm), hstall]

end

/-! ### Answers on their way (R309) -/

section
variable {s : State} {x : Issue}

theorem addOp_none (hg : s.grp? x.gid = some x.g) (kind : OpKind) : s.addOp x.gid none kind =
    { s with nextId := s.nextId + 1, ops := mput s.ops s.nextId { gid := x.gid, cls := none, pos := 0, ctx := x.g.ctx, cluster := x.g.cluster,
                                                                  core := x.g.core, kind := kind } } := by
  unfold State.addOp
  rw [hg]

/-- A counted status. -/
theorem statusOp_spec (hg : s.grp? x.gid = some x.g) (d : Opnd) (v : Nat) :
    ∃ g' o, (x.statusOp d (some .mt) v s).grp? x.gid = some g' ∧ Stepped x.g g' x.run ∧ g'.cnt = x.g.cnt.set .mt (x.g.cnt.get .mt).issue ∧
      { g' with lanes := x.g.lanes, cnt := x.g.cnt } = x.g ∧ mfind (x.statusOp d (some .mt) v s).ops s.nextId = some o ∧ o.cls = some .mt ∧
      o.gid = x.gid ∧ o.kind = .reply (some d) 1 ((lanesOf x.act).map (fun l => (l, v))) none none := by
  have hadd := grp?_addOp hg .mt (.reply (some d) 1 ((lanesOf x.act).map (fun l => (l, v))) none none)
  obtain ⟨o, ho, hcls, hgid, hkind⟩ : ∃ o,
      mfind (s.addOp x.gid (some .mt) (.reply (some d) 1 ((lanesOf x.act).map (fun l => (l, v))) none none)).ops s.nextId =
      some o ∧ o.cls = some .mt ∧ o.gid = x.gid ∧ o.kind = .reply (some d) 1 ((lanesOf x.act).map (fun l => (l, v))) none none :=
    ⟨_, (counted_addOp hg .mt _).op, rfl, rfl, rfl⟩
  refine ⟨(x.g.count .mt).advance x.run, { o with after := s.nextId }, ?_, stepped_of x.g (x.g.count .mt) x.run rfl, rfl, rfl, ?_,
    hcls, hgid, hkind⟩
  · exact State.grp?_updGrp_same (s := { s.addOp x.gid (some .mt) _ with ops := _ }) hadd _
  · refine (mfind_mupd ..).trans ?_
    rw [if_pos rfl]
    exact congrArg (Option.map fun o : Op => { o with after := s.nextId }) ho

/-- An uncounted status that holds its run. -/
theorem heldOp_spec (hg : s.grp? x.gid = some x.g) (d : Opnd) (w v : Nat) :
    ∃ g' o, (x.heldOp d w v s).grp? x.gid = some g' ∧ { g' with block := x.g.block } = x.g ∧ g'.block = .meet s.nextId x.run ∧
      mfind (x.heldOp d w v s).ops s.nextId = some o ∧ o.cls = none ∧ o.gid = x.gid ∧
      o.kind = .reply (some d) w ((lanesOf x.act).map (fun l => (l, v))) none none := by
  unfold Issue.heldOp Issue.hold
  rw [addOp_none hg]
  exact ⟨_, _, State.grp?_updGrp_same (s := { s with nextId := _, ops := _ }) hg _, rfl, rfl, mfind_mput_same .., rfl, rfl, rfl⟩

end

/-! ### Members (R310, R314) -/

section
variable {s : State} {x : Issue} {ref : MeetRef} {m : Nat} {mt : Meet}

/-- The meetings of a list, each once. -/
def distinct (l : List Nat) : List Nat := l.foldl (fun l e => if l.contains e then l else e :: l) []

theorem length_distinct (l : List Nat) : (distinct l).length = l.dedup.length := by
  have hfold (l acc : List Nat) (hacc : acc.Nodup) : (l.foldl (fun l e => if l.contains e then l else e :: l) acc).Nodup ∧
      ∀ k, k ∈ l.foldl (fun l e => if l.contains e then l else e :: l) acc ↔ k ∈ acc ∨ k ∈ l := by
    induction l generalizing acc with
    | nil => exact ⟨hacc, fun k => by simp⟩
    | cons e l ih =>
      rw [List.foldl_cons]
      by_cases he : e ∈ acc
      · rw [if_pos (by simpa using he)]
        obtain ⟨hn, hm⟩ := ih acc hacc
        refine ⟨hn, fun k => (hm k).trans ?_⟩
        rw [List.mem_cons]
        grind
      · rw [if_neg (by simpa using he)]
        obtain ⟨hn, hm⟩ := ih (e :: acc) (List.nodup_cons.mpr ⟨he, hacc⟩)
        refine ⟨hn, fun k => (hm k).trans ?_⟩
        rw [List.mem_cons, List.mem_cons]
        grind
  obtain ⟨hn, hm⟩ := hfold l [] List.nodup_nil
  refine List.Perm.length_eq ((List.perm_ext_iff_of_nodup hn l.nodup_dedup).mpr fun k => ?_)
  rw [hm k, List.mem_dedup]
  simp

/-- What joining an active meeting turns on. -/
theorem join_eq (hmt : mfind s.meets ref.key = some mt) : ∃ t, s.join x ref m =
    if ref.pinned = false then (2, s)
    else if m ≥ mt.n || s.memberState ref.key m == 1 || (distinct ((mget ({} : Gang) s.gangs x.g.gang).meets.map (·.1))).length ≥ 4 then (2, s)
    else (0, t) := by
  unfold State.join
  cases hp : ref.pinned with
  | false => exact ⟨s, by simp⟩
  | true =>
    simp only [Bool.not_true, Bool.false_eq_true, if_false, hmt, Option.isNone_some, Bool.not_false, Bool.true_and, reduceCtorEq]
    exact ⟨_, rfl⟩

/-- What leaving an active meeting turns on. -/
theorem depart_eq {key : Nat} (hmt : mfind s.meets key = some mt) : ∃ t, s.depart x key m =
    if m ≥ mt.n || (s.memberState key m != 1 && s.memberState key m != 2) || s.memberCtx key m != x.g.ctx then (2, s) else (0, t) := by
  unfold State.depart
  rw [hmt]
  exact ⟨_, rfl⟩

end

/-! ### The judgement of contributions and of results (R311, R313, R317) -/

section
variable {s : State} {key ctx m r : Nat} {mt : Meet}

/-- A contribution is refused: its member may not offer it. -/
def unfit (s : State) (key ctx m r : Nat) (mt : Meet) : Bool :=
  m ≥ mt.n || s.memberState key m != 1 || s.memberCtx key m != ctx || (s.memberHave key m && decide (r ≤ s.memberTag key m)) ||
    decide (toSigned 32 (r + 2 ^ 32 - mt.open_) > 1)

theorem unfit_iff : unfit s key ctx m r mt = true ↔ mt.n ≤ m ∨ s.memberState key m ≠ 1 ∨ s.memberCtx key m ≠ ctx ∨
    (s.memberHave key m = true ∧ r ≤ s.memberTag key m) ∨ toSigned 32 (r + 2 ^ 32 - mt.open_) > 1 := by
  simp [unfit, or_assoc]

/-- The judgement of an active meeting. -/
theorem judgeMeet_eq (hmt : mfind s.meets key = some mt) : s.judgeMeet key ctx m r =
    if mt.stall then .status 7
    else if unfit s key ctx m r mt then .status 2
    else if toSigned 32 (r + 2 ^ 32 - mt.open_) ≥ 0 then .stream r false 0
    else if toSigned 32 (r + 2 ^ 32 - mt.open_) ≥ -(mt.lag : Int) then
      if mt.late = 2 then .drop else .stream mt.open_ true (if mt.late = 1 then (toSigned 32 (r + 2 ^ 32 - mt.open_)).natAbs else 0)
    else .lapse := by
  unfold State.judgeMeet
  rw [hmt]
  rfl

/-- An own-tag stream waits for the lower-numbered members. -/
def heldBack (s : State) (key : Nat) (mt : Meet) (member round : Nat) (folded : Bool) : Bool :=
  mt.ord && !folded && !(s.lowerArrived key mt member round)

theorem heldBack_iff {member round : Nat} {folded : Bool} : heldBack s key mt member round folded = true ↔
    mt.ord = true ∧ folded = false ∧ ∃ j, j < member ∧ s.memberState key j = 1 ∧ (round, j) ∉ mt.mine := by
  have hlow : s.lowerArrived key mt member round = false ↔ ∃ j, j < member ∧ s.memberState key j = 1 ∧ (round, j) ∉ mt.mine := by
    rw [← Bool.not_eq_true, State.lowerArrived, List.all_eq_true]
    push Not
    simp only [List.mem_range]
    refine exists_congr fun j => and_congr_right fun _ => ?_
    simp
  rw [heldBack, Bool.and_eq_true, Bool.and_eq_true, Bool.not_eq_true', Bool.not_eq_true', hlow, and_assoc]

variable {id : Nat} {o : Op} {d : Opnd} {lanes : Word} {st : Stream}

theorem admitStream_status {v : Nat} (ho : mfind s.ops id = some o) (hk : o.kind = .mcont d lanes st) (hst : st.st = .waiting)
    (hj : s.judgeMeet key o.ctx st.member st.tag = .status v) : s.admitStream key id = s.reply id d 1 lanes v none := by
  unfold State.admitStream
  simp only [ho, hk, hst, hj, ne_eq, not_true, if_false]

theorem admitStream_stream {round w : Nat} {folded : Bool} (ho : mfind s.ops id = some o) (hk : o.kind = .mcont d lanes st)
    (hst : st.st = .waiting) (hmt : mfind s.meets key = some mt) (hj : s.judgeMeet key o.ctx st.member st.tag = .stream round folded w) :
    s.admitStream key id = if heldBack s key mt st.member round folded then s
      else (s.setMemberTag key st.member st.tag).startStream id o key { st with round := round, folded := folded, wexp := w } := by
  unfold State.admitStream
  simp only [ho, hk, hst, hj, hmt, ne_eq, not_true, if_false, Option.any_some]
  rfl

/-- What an MRSLT meets at an active meeting. -/
theorem result_eq (hmt : mfind s.meets key = some mt) : s.result id d lanes key m r =
    if m ≥ mt.n || (s.memberState key m != 1 && s.memberState key m != 2) || decide (toSigned 32 (r + 2 ^ 32 - mt.open_) > 1) then
      s.reply id d 1 lanes 2 none
    else if toSigned 32 (r + 2 ^ 32 - mt.open_) < -((max mt.lag 1 : Nat) : Int) then s.reply id d 1 lanes 0x0B none
    else if toSigned 32 (r + 2 ^ 32 - mt.open_) < 0 then s.serveResult id
    else if mt.stall then s.reply id d 1 lanes 7 none
    else s := by
  unfold State.result
  rw [hmt]
  rfl

/-- The member may ask for a result of that tag. -/
theorem mayAsk_iff :
    (m ≥ mt.n || (s.memberState key m != 1 && s.memberState key m != 2) || decide (toSigned 32 (r + 2 ^ 32 - mt.open_) > 1)) = true ↔
    ¬ (m < mt.n ∧ (s.memberState key m = 1 ∨ s.memberState key m = 2)) ∨ toSigned 32 (r + 2 ^ 32 - mt.open_) > 1 := by
  simp only [Bool.or_eq_true, Bool.and_eq_true, decide_eq_true_eq, bne_iff_ne, ne_eq, ge_iff_le]
  grind

end

/-! ### Statuses return (R306, R309, R313) -/

section
variable {s : State} {id : Nat} {o : Op} {g : Group}

/-- The group once a reply has reached it. -/
def replied (d : Opnd) (w : Nat) (vals : List (Nat × Nat)) (tc : Option Nat) (g : Group) : Group :=
  match tc with
  | none => g.putVals d w vals
  | some t => (g.putVals d w vals).raiseCtime t

theorem deliverReply_eq {d : Opnd} {w : Nat} {vals : List (Nat × Nat)} {tc : Option Nat} (ho : mfind s.ops id = some o)
    (hk : o.kind = .reply (some d) w vals none tc) : s.deliverReply id = (s.updGrp o.gid (replied d w vals tc)).endOp id := by
  unfold State.deliverReply
  simp only [ho, hk]
  cases tc <;> rfl

/-- A list of registers is written to the group alone: its lanes and what it waits for stay. -/
theorem putVals_rest (g : Group) (d : Opnd) (w : Nat) (vals : List (Nat × Nat)) :
    { g.putVals d w vals with v := g.v, sc := g.sc, poison := g.poison } = g := by
  have hlane (g : Group) (l x : Nat) : { g.putLane d w l x with v := g.v, sc := g.sc, poison := g.poison } = g := by
    unfold Group.putLane
    split
    · split <;> rfl
    · split <;> rfl
    · rfl
  unfold Group.putVals
  induction vals generalizing g with
  | nil => rfl
  | cons v vals ih =>
    rw [List.foldl_cons]
    have h := ih (g.putLane d w v.1 v.2)
    have h1 := hlane g v.1 v.2
    calc _ = { { vals.foldl (fun g (v : Nat × Nat) => g.putLane d w v.1 v.2) (g.putLane d w v.1 v.2) with
          v := (g.putLane d w v.1 v.2).v, sc := (g.putLane d w v.1 v.2).sc, poison := (g.putLane d w v.1 v.2).poison } with
          v := g.v, sc := g.sc, poison := g.poison } := rfl
      _ = _ := by rw [h, h1]

theorem replied_block (d : Opnd) (w : Nat) (vals : List (Nat × Nat)) (tc : Option Nat) (g : Group) :
    (replied d w vals tc g).block = g.block := by
  have h : (g.putVals d w vals).block = g.block := (congrArg Group.block (putVals_rest g d w vals) :)
  cases tc <;> exact h

/-- An answered run goes on from its MRSLT or MSTAT. -/
def answered (id : Nat) (g : Group) : Group :=
  match g.block with
  | .meet k lanes => if k = id then { (g.advance lanes) with block := .none } else g
  | _ => g

theorem answered_of {lanes : Word} (hb : g.block = .meet id lanes) : answered id g = { (g.advance lanes) with block := .none } := by
  unfold answered
  rw [hb]
  exact if_pos rfl

theorem statusReturn_held {d : Option Opnd} {w : Nat} {vals : List (Nat × Nat)} {pd : Option (Nat × Word × Word)} {tc : Option Nat}
    (hk : o.kind = .reply d w vals pd tc) (hcls : o.cls = none) : s.statusReturn id o = (s.deliverReply id).updGrp o.gid (answered id) := by
  unfold State.statusReturn
  simp only [hk, hcls]
  rfl

/-- A held answer reaches its group, and its run goes on. -/
theorem statusReturn_goes {d : Opnd} {w : Nat} {vals : List (Nat × Nat)} {tc : Option Nat} {lanes : Word} (ho : mfind s.ops id = some o)
    (hk : o.kind = .reply (some d) w vals none tc) (hcls : o.cls = none) (hg : s.grp? o.gid = some g) (hb : g.block = .meet id lanes) :
    ∃ g', (s.statusReturn id o).grp? o.gid = some g' ∧ mfind (s.statusReturn id o).ops id = none ∧ Stepped (replied d w vals tc g) g' lanes ∧
      g'.block = .none := by
  have hend : (s.updGrp o.gid (replied d w vals tc)).endOp id =
      { s.updGrp o.gid (replied d w vals tc) with ops := mdel s.ops id } := by
    unfold State.endOp
    have ho' : mfind (s.updGrp o.gid (replied d w vals tc)).ops id = some o := ho
    simp only [ho', hcls]
    rfl
  have hg' := State.grp?_updGrp_same hg (replied d w vals tc)
  rw [statusReturn_held hk hcls, deliverReply_eq ho hk, hend]
  have hb' := (replied_block d w vals tc g).trans hb
  refine ⟨_, State.grp?_updGrp_same (s := { s.updGrp o.gid (replied d w vals tc) with ops := mdel s.ops id }) hg' _,
    (mfind_mdel ..).trans (if_pos rfl), ?_, ?_⟩
  · rw [answered_of hb']
    exact ⟨(stepped_advance _ lanes).length, (stepped_advance _ lanes).lane⟩
  · rw [answered_of hb']

theorem statusReturn_counted {d : Opnd} {w : Nat} {vals : List (Nat × Nat)} (ho : mfind s.ops id = some o)
    (hk : o.kind = .reply (some d) w vals none none) (hcls : o.cls = some .mt) (hg : s.grp? o.gid = some g) :
    s.statusReturn id o = (s.updGrp o.gid (fun g => g.putVals d w vals)).endOp id := by
  unfold State.statusReturn
  simp only [hk, hcls, hg, Option.isNone_some, Bool.false_eq_true, if_false]
  exact deliverReply_eq ho hk

theorem ownBefore_false (h : ∀ e ∈ s.ops, e.1 < o.after → ∀ k, e.2.job ≠ .own k) : s.ownBefore o = false := by
  unfold State.ownBefore
  rw [List.any_eq_false]
  intro e he hown
  rw [Bool.and_eq_true, decide_eq_true_eq] at hown
  obtain ⟨hlt, hjob⟩ := hown
  split at hjob
  next k hk => exact h e he hlt k hk
  next => exact absurd hjob (by simp)

theorem exec_statusReturn_reply {d : Opnd} {w : Nat} {vals : List (Nat × Nat)} (ho : mfind s.ops id = some o) (hown : s.ownBefore o = false)
    (hk : o.kind = .reply (some d) w vals none none) : exec (.meetingStatusReturn id) s = .next (s.statusReturn id o) := by
  simp only [exec, execMeetingStatusReturn, ho, hown, hk, Bool.false_eq_true, if_false]

variable {own : Word} {d : Opnd} {key m tag st : Nat} {buf : DWord}

/-- The operation of an MRSLT, answered. -/
def resultReply (s : State) (id : Nat) (d : Opnd) (own : Word) (st : Nat) (o : Op) : Op :=
  { o with kind := .reply (some d) 1 ((lanesOf own).map (fun l => (l, if accStatus (s.resultAccs id) = 0 then st else accStatus (s.resultAccs id))))
             none (some (latest (s.resultAccs id))),
           after := s.nextId }

theorem endResult_op (ho : mfind s.ops id = some o) (hjob : o.job = .instr) :
    mfind (s.endResult id d own st).ops id = some (resultReply s id d own st o) := by
  have hkept := mfind_filter_kept (fun e : Nat × Op => !(e.2.job == .result id)) ho (by rw [hjob]; rfl)
  refine (mfind_mupd ..).trans ?_
  rw [if_pos rfl]
  exact congrArg (Option.map (resultReply s id d own st)) hkept

theorem exec_statusReturn_result (ho : mfind s.ops id = some o) (hown : s.ownBefore o = false) (hjob : o.job = .instr)
    (hk : o.kind = .mrslt d own key m tag buf (some st)) : exec (.meetingStatusReturn id) s = .next (
      if (s.resultAccs id).all Acc.final then (s.endResult id d own st).statusReturn id (resultReply s id d own st o) else s) := by
  simp only [exec, execMeetingStatusReturn, ho, hown, hk, Bool.false_eq_true, if_false, endResult_op ho hjob]

end

/-! ### Arrivals and deaths (R311, R312, R315, R316) -/

section
variable {s : State} {key : Nat}

theorem exec_memberDeath_none {member : Nat} (h : ∀ d ∈ s.departs, ¬ (d.meet = key ∧ d.member = member)) :
    exec (.memberDeath key member) s = .next s := by
  have hnone : s.departs.find? (fun d => d.meet == key && d.member == member) = none := by
    rw [List.find?_eq_none]
    intro d hd hmine
    simp only [Bool.and_eq_true, beq_iff_eq] at hmine
    exact h d hd hmine
  simp only [exec, execMemberDeath, hnone]

/-- The streams of a member that has died are cut short. -/
def cutAll (s : State) (key member : Nat) : State :=
  ((s.streams key).filter (fun e => e.2.2.2.2.member == member)).foldl (fun s e => s.cutStream key e) s

/-- The departure of a joined member. -/
theorem exec_memberDeath {d : Depart} {member : Nat} (hd : s.departs = [d]) (hkey : d.meet = key) (hm : d.member = member) (hdev : d.dev = none)
    (hmeet : (mfind s.meets key).isSome = true) (hst : s.memberState key member = 1) (hctx : s.memberCtx key member = d.ctx)
    (hgang : s.memberGang key member = d.gang) : exec (.memberDeath key member) s =
      .next (((cutAll (({ s with departs := [] } : State).setMemberState key member 3) key member).changeLive key (fun n => n - 1)).pump key
        |>.idleMeet key) := by
  have hfind : [d].find? (fun d => d.meet == key && d.member == member) = some d := by simp [hkey, hm]
  have herase : eraseFirst (fun e => e == d) [d] = [] := by simp [eraseFirst]
  have hst' : ({ s with departs := [] } : State).memberState key member = 1 := hst
  have hctx' : ({ s with departs := [] } : State).memberCtx key member = d.ctx := hctx
  have hgang' : ({ s with departs := [] } : State).memberGang key member = d.gang := hgang
  have hmeet' : (mfind s.meets key).isNone = false := by simpa using hmeet
  simp only [exec, execMemberDeath, hd, hfind, herase, hdev, hst', hctx', hgang', hmeet', beq_self_eq_true, bne_self_eq_false, Bool.and_self,
    Bool.not_true, Bool.or_self, Bool.false_eq_true, if_false]
  rfl

variable {id : Nat} {o : Op} {d : Opnd} {lanes : Word} {st : Stream} {m : Meet} {status failed sat : Nat}

/-- What a whole contribution leaves in the record of a round of minimum or maximum. -/
def recorded (s : State) (key : Nat) (st : Stream) (m : Meet) (sat : Nat) : State :=
  let slot := key + m.slotOff st.round
  let c := slot + 0x40 + st.member / 8
  let b := s.chime key c 1
  let s1 := (if bitAt b (st.member % 8) then s else s.put48 key c 1 (b + 2 ^ (st.member % 8))).bump key (slot + 0xC) 4 sat
  if st.folded then s1.bump key (slot + 8) 4 1
  else (s1.bump key (slot + 4) 4 1).updMeet key (fun m => { m with mine := (st.round, st.member) :: m.mine })

theorem exec_contribution (hs : s.streams key = [(id, o, d, lanes, st)]) (hm : mfind s.meets key = some m) (hst : st.st = .ended status failed sat) :
    (failed ≠ 0 → exec (.contributionArrival key st.member) s =
      .next (((s.taint key o.ctx st (m.streamChunks - failed) m.streamChunks).reply id d 1 lanes status none).quorum key)) ∧
    (failed = 0 → m.op ≠ 0 → exec (.contributionArrival key st.member) s =
      .next (((recorded s key st m sat).reply id d 1 lanes status none).quorum key)) := by
  refine ⟨fun hf => ?_, fun hf hop => ?_⟩
  · simp only [exec, execContributionArrival, hs, hm, List.find?_cons, beq_self_eq_true, hst, Bool.and_self, if_pos hf]
  · simp only [exec, execContributionArrival, hs, hm, List.find?_cons, beq_self_eq_true, hst, Bool.and_self, if_neg (not_not.mpr hf), if_neg hop]
    rfl

/-- The open round may close: its arrivals meet K, and none of its streams is incomplete. -/
def mayClose (s : State) (key : Nat) (m : Meet) : Prop :=
  m.open_ ≠ 0xFFFFFFFF ∧ m.k ≤ s.chime key (key + m.slotOff m.open_ + 4) 4 ∧
    ∀ e ∈ s.streams key, e.2.2.2.2.round = m.open_ → e.2.2.2.2.st = .waiting

/-- The unit's stores as the open round closes and the next slot is cleared. -/
def closedRound (s : State) (key : Nat) (m : Meet) : State :=
  ((((s.put48 key (key + m.slotOff m.open_) 4 m.open_).put48 key (key + m.slotOff m.open_ + 0x18) 8 (s.homeNow key)).updMeet key
    (fun n => { n with open_ := m.open_ + 1 })).writeHeader key).clearSlot key (m.open_ + 2)

/-- The results that wait for a round are served. -/
def serveAll (s : State) (key r : Nat) : State := (s.waiters key (some r)).foldl (fun s w => s.serveResult w.1) s

theorem closeRounds_eq (n : Nat) (hm : mfind s.meets key = some m) : s.closeRounds key (n + 1) =
    if m.open_ = 0xFFFFFFFF || s.chime key (key + m.slotOff m.open_ + 4) 4 < m.k ||
        (s.streams key).any (fun e => e.2.2.2.2.round == m.open_ && e.2.2.2.2.st != .waiting) then s
    else (serveAll (closedRound s key m) key m.open_).closeRounds key n := by
  rw [State.closeRounds, hm]
  rfl

theorem mayClose_iff : (decide (m.open_ = 0xFFFFFFFF) || decide (s.chime key (key + m.slotOff m.open_ + 4) 4 < m.k) ||
    (s.streams key).any (fun e => e.2.2.2.2.round == m.open_ && e.2.2.2.2.st != .waiting)) = true ↔ ¬ mayClose s key m := by
  unfold mayClose
  simp only [Bool.or_eq_true, decide_eq_true_eq, List.any_eq_true, Bool.and_eq_true, beq_iff_eq, bne_iff_ne]
  rw [not_and_or, not_and_or, not_not, Nat.not_le, or_assoc]
  refine or_congr_right (or_congr_right ?_)
  push Not
  rfl

end

/-- Each meeting instruction at issue: an idle run, and the two traps of a record address. -/
theorem meet_issued {i : Instr} {s : State} {x : Issue} {a : Opnd} {need : Need} {fail : Issue → Nat → State → State}
    {eff : Issue → MeetRef → State → State} (hg : s.grp? x.gid = some x.g) (hexec : exec i s = .next (meetOp a need fail eff x s)) :
    (x.act = 0 → ∃ t g', exec i s = .next t ∧ OnlyGroup s t x.gid g' ∧ Stepped x.g g' x.run ∧ { g' with lanes := x.g.lanes } = x.g) ∧
    (x.act ≠ 0 → canonical (meetVa x a) = false → exec i s = .next (s.queueTrap x.gid (x.trap s 0x0D x.act x.act (meetVa x a)))) ∧
    (x.act ≠ 0 → canonical (meetVa x a) = true → (meetVa x a).toNat % 4096 ≠ 0 →
      exec i s = .next (s.queueTrap x.gid (x.trap s 0x12 x.act x.act (meetVa x a)))) := by
  refine ⟨fun hact => ?_, fun hact hc => ?_, fun hact hc h4k => ?_⟩
  · rw [hexec, meetOp_idle hact]
    exact goes_on hg
  · rw [hexec, meetOp_noncanonical hact hc]
  · rw [hexec, meetOp_misaligned hact hc h4k]

/-- Settles O47: the meeting instructions at issue, the Chime unit's judgements, and its events. -/
theorem meetings : Obligations.Meetings := by
  refine ⟨fun h d a b c s s1 x => ?_, fun s x d w v hg => ⟨statusOp_spec hg d v, heldOp_spec hg d w v⟩,
    fun s x ref m mt hmt => ?_, fun s key ctx m r mt hmt => ?_, fun s key id o d lanes st mt ho hk hst hmt => ?_,
    fun s id key m r d lanes mt hmt => ?_, fun s id o d lanes g ho hg hjob hbefore => ?_, fun s key member => ?_, fun s key k => ?_,
    fun s key id o d lanes st m status failed sat hs hm hst => exec_contribution hs hm hst, fun s key n m hm => ?_⟩
  · intro va m tag mem buf joins conts rslts leaves stats
    refine ⟨fun i hi => ?_, fun hact hc h4k => ⟨fun e href => ⟨fun hgo => ?_, fun hgo => ?_, fun hgo => ?_, fun hgo hmt => ?_⟩,
      fun ref href => ⟨fun hgo => ?_, fun hgo => ?_, fun hgo => ?_, fun hgo hmt => ?_⟩, fun e hgo href => ?_,
      fun ref mt hgo href hmt => ?_, fun ref hgo href hmt => ?_⟩, fun need key lk mg htr => meetRef_of_translates htr⟩
    · rcases hi with ⟨hgo, rfl⟩ | ⟨hgo, rfl⟩ | ⟨hgo, rfl⟩ | ⟨hgo, rfl, hmt⟩ | ⟨hgo, rfl⟩
      · exact meet_issued (grp_of_issueOf hgo) (exec_mjoin hgo)
      · exact meet_issued (grp_of_issueOf hgo) (exec_mcont hgo)
      · exact meet_issued (grp_of_issueOf hgo) (exec_mrslt hgo)
      · exact meet_issued (grp_of_issueOf hgo) (exec_mleave hgo hmt)
      · exact meet_issued (grp_of_issueOf hgo) (exec_mstat hgo)
    · exact (exec_mjoin hgo).trans (congrArg _ (meetOp_error hact hc h4k href))
    · exact (exec_mcont hgo).trans (congrArg _ (meetOp_error hact hc h4k href))
    · exact (exec_mrslt hgo).trans (congrArg _ (meetOp_error hact hc h4k href))
    · exact (exec_mleave hgo fun _ => hmt).trans (congrArg _ (meetOp_error hact hc h4k href))
    · exact (exec_mjoin hgo).trans (congrArg _ (meetOp_ok hact hc h4k href))
    · exact (exec_mcont hgo).trans (congrArg _ (meetOp_ok hact hc h4k href))
    · exact (exec_mrslt hgo).trans (congrArg _ (meetOp_ok hact hc h4k href))
    · exact (exec_mleave hgo fun _ => hmt).trans (congrArg _ (meetOp_ok hact hc h4k href))
    · exact (exec_mstat hgo).trans (congrArg _ (meetOp_error hact hc h4k href))
    · have hexec := (exec_mstat hgo).trans (congrArg _ ((meetOp_ok hact hc h4k href).trans (statTuple_eq ref)))
      rw [statEff, hmt] at hexec
      exact ⟨fun hin => hexec.trans (congrArg _ (statAnswer_in hin)), fun hout => hexec.trans (congrArg _ (if_pos hout))⟩
    · intro w hin
      have hexec := (exec_mstat hgo).trans (congrArg _ ((meetOp_ok hact hc h4k href).trans (statTuple_eq ref)))
      rw [statEff, hmt] at hexec
      exact hexec.trans (congrArg _ (statAnswer_in hin))
  · intro gang st few
    obtain ⟨t, hjoin⟩ := join_eq (x := x) (m := m) hmt
    obtain ⟨u, hleave⟩ := depart_eq (x := x) (m := m) hmt
    rw [length_distinct] at hjoin
    have hfull : (m ≥ mt.n || s.memberState ref.key m == 1 || (gang.meets.map (fun e => e.1)).dedup.length ≥ 4) = true ↔
        mt.n ≤ m ∨ st = 1 ∨ ¬ few := by
      simp [few, st, or_assoc]
    have hgone : (m ≥ mt.n || (s.memberState ref.key m != 1 && s.memberState ref.key m != 2) || s.memberCtx ref.key m != x.g.ctx) = true ↔
        mt.n ≤ m ∨ (st ≠ 1 ∧ st ≠ 2) ∨ s.memberCtx ref.key m ≠ x.g.ctx := by
      simp [st, or_assoc]
    rw [hjoin, hleave]
    refine ⟨fun hno => ?_, fun hp hm hst hfew => ?_, fun hno => if_pos (hgone.mpr hno), fun hm hst hctx => ?_⟩
    · cases hp : ref.pinned with
      | false => exact if_pos rfl
      | true => exact (if_neg (by simp)).trans (if_pos (hfull.mpr (hno.resolve_left (by simp [hp]))))
    · have hok : ¬ (mt.n ≤ m ∨ st = 1 ∨ ¬ few) := by
        rintro (h | h | h)
        · exact absurd hm (Nat.not_lt.mpr h)
        · exact hst h
        · exact h hfew
      rw [if_neg (by simp [hp]), if_neg fun h => hok (hfull.mp h)]
    · have hok : ¬ (mt.n ≤ m ∨ (st ≠ 1 ∧ st ≠ 2) ∨ s.memberCtx ref.key m ≠ x.g.ctx) := by
        rintro (h | ⟨h1, h2⟩ | h)
        · exact absurd hm (Nat.not_lt.mpr h)
        · exact hst.elim h1 h2
        · exact h hctx
      rw [if_neg fun h => hok (hgone.mp h)]
  · intro d
    rw [judgeMeet_eq hmt]
    refine ⟨fun hstall => if_pos hstall, fun hstall hno => ?_, fun hstall hm hst hctx hhave => ?_⟩
    · rw [hstall, if_neg Bool.false_ne_true, if_pos (unfit_iff.mpr hno)]
    · have hfit (hd : d ≤ 1) : ¬ unfit s key ctx m r mt = true := by
        rw [unfit_iff]
        rintro (h | h | h | ⟨h, hr⟩ | h)
        · exact absurd hm (Nat.not_lt.mpr h)
        · exact h hst
        · exact h hctx
        · exact absurd (hhave h) (Nat.not_lt.mpr hr)
        · exact absurd hd (Int.not_le.mpr h)
      rw [hstall, if_neg Bool.false_ne_true]
      refine ⟨fun hd => ?_, fun hneg hlag => ?_, fun hlag => ?_⟩
      · rw [if_neg (hfit (by omega)), if_pos (by omega)]
      · rw [if_neg (hfit (by omega)), if_neg (Int.not_le.mpr hneg), if_pos hlag]
      · rw [if_neg (hfit (by omega)), if_neg (by omega), if_neg (Int.not_le.mpr hlag)]
  · refine ⟨fun v hj => admitStream_status ho hk hst hj, fun round folded w hj => ?_⟩
    intro held
    rw [admitStream_stream ho hk hst hmt hj]
    exact ⟨fun hh => if_pos (heldBack_iff.mpr hh), fun hh => if_neg fun h => hh (heldBack_iff.mp h)⟩
  · intro e member
    have hask := mayAsk_iff (s := s) (key := key) (m := m) (r := r) (mt := mt)
    rw [result_eq hmt]
    refine ⟨fun hno => if_pos (hask.mpr hno), fun hm hold => ?_, fun hm hneg hlag => ?_, fun hm h0 h1 => ?_⟩
    · rw [if_neg (fun h => (hask.mp h).elim (fun h => h hm) (fun h => ?_)), if_pos hold]
      omega
    · rw [if_neg (fun h => (hask.mp h).elim (fun h => h hm) (fun h => ?_)), if_neg (Int.not_lt.mpr hlag), if_pos hneg]
      omega
    · rw [if_neg (fun h => (hask.mp h).elim (fun h => h hm) (fun h => Int.not_le.mpr h h1)), if_neg (by omega), if_neg (Int.not_lt.mpr h0)]
  · have hown := ownBefore_false hbefore
    refine ⟨fun w vals hk => ⟨fun hcls => ?_, fun hcls hb => ?_⟩, fun own key m tag buf st hk hcls hb => ?_⟩
    · rw [exec_statusReturn_reply ho hown hk, statusReturn_counted ho hk hcls hg]
    · rw [exec_statusReturn_reply ho hown hk]
      exact ⟨_, (statusReturn_goes ho hk hcls hg hb).imp fun g' h => ⟨rfl, h⟩⟩
    · intro as
      rw [exec_statusReturn_result ho hown hjob hk]
      refine ⟨fun hw => if_neg (Bool.eq_false_iff.mp hw) ▸ rfl, fun hdone => ?_⟩
      rw [if_pos hdone]
      exact ⟨_, (statusReturn_goes (s := s.endResult id d own st) (o := resultReply s id d own st o) (endResult_op ho hjob) rfl hcls hg hb).imp
        fun g' h => ⟨rfl, h⟩⟩
  · exact ⟨exec_memberDeath_none, fun d hd hkey hm hdev hmeet hst hctx hgang => exec_memberDeath hd hkey hm hdev hmeet hst hctx hgang⟩
  · refine ⟨fun hsame => ?_, fun hnew => ?_⟩
    · simp only [exec, execKWrite, if_pos hsame]
    · simp only [exec, execKWrite, if_neg hnew]
  · intro r slot full s2
    rw [closeRounds_eq n hm]
    exact ⟨fun hno => if_pos (mayClose_iff.mpr hno), fun hyes => if_neg (fun h => mayClose_iff.mp h hyes)⟩

end Sys2Proof.Machine
end

section
/-! The proof of `Obligations.FloatingFunctions` (R95, R161–R164; log 10, 12, 78). -/

namespace Sys2Proof.Machine

/-! ### Quotients and roots kept with a sticky bit (R161) -/

/-- The root is found bit by bit, between `r` and `r + 2^k`. -/
theorem isqrtGo_eq {n : Nat} (k r : Nat) (hlow : r * r ≤ n) (hhigh : n < (r + 2 ^ k) * (r + 2 ^ k)) : isqrtGo n k r = Nat.sqrt n := by
  induction k generalizing r with
  | zero =>
    rw [isqrtGo]
    exact (Nat.eq_sqrt.2 ⟨hlow, by simpa using hhigh⟩)
  | succ k ih =>
    rw [isqrtGo]
    split
    next h => exact ih _ h (by rwa [add_assoc, ← two_mul, ← pow_succ'])
    next h => exact ih _ hlow (not_le.1 h)

theorem isqrt_eq_sqrt (n : Nat) : isqrt n = Nat.sqrt n := by
  refine isqrtGo_eq _ 0 (Nat.zero_le n) ?_
  rw [Nat.zero_add, ← pow_add]
  exact Nat.lt_log2_self.trans_le (Nat.pow_le_pow_right two_pos (by omega))

/-- A number kept to the half, with the last bit sticky. -/
theorem standsFor_double {s : Nat} {z : ℝ} {c : Prop} [Decidable c] (hc : c ↔ z = s) (hlow : (s : ℝ) ≤ z) (hhigh : z < s + 1) :
    StandsFor (2 * s + if c then 0 else 1) (2 * z) := by
  by_cases h : c
  · rw [if_pos h, hc.1 h]
    exact .inl (by push_cast; ring)
  · rw [if_neg h]
    have hlt : (s : ℝ) < z := lt_of_le_of_ne hlow fun heq => h (hc.2 heq.symm)
    refine .inr ⟨by omega, ?_, ?_⟩
    · push_cast
      linarith
    · push_cast
      linarith

theorem standsFor_stickyQuot (n : Nat) {d : Nat} (hd : d ≠ 0) : StandsFor (stickyQuot n d) (2 * (n / d)) := by
  have hd' : (0 : ℝ) < d := by exact_mod_cast Nat.pos_of_ne_zero hd
  have hsplit : (n : ℝ) = d * (n / d : Nat) + (n % d : Nat) := by exact_mod_cast (Nat.div_add_mod n d).symm
  have hmod : ((n % d : Nat) : ℝ) < d := by exact_mod_cast Nat.mod_lt n (Nat.pos_of_ne_zero hd)
  have hmod0 : (0 : ℝ) ≤ (n % d : Nat) := Nat.cast_nonneg _
  refine standsFor_double ?_ ?_ ?_
  · rw [div_eq_iff hd'.ne', hsplit, mul_comm, add_eq_left]
    exact_mod_cast Iff.rfl
  · rw [le_div_iff₀ hd']
    linarith
  · rw [div_lt_iff₀ hd']
    linarith

/-- The root of an integer lies from its integer root to one above it. -/
theorem sqrt_bounds (n : Nat) : ((Nat.sqrt n : Nat) : ℝ) ≤ Real.sqrt n ∧ Real.sqrt n < (Nat.sqrt n : Nat) + 1 := by
  refine ⟨Real.nat_sqrt_le_real_sqrt, ?_⟩
  rw [Real.sqrt_lt' (by positivity)]
  exact_mod_cast Nat.lt_succ_sqrt' n

theorem standsFor_sqrt (n : Nat) : StandsFor (2 * Nat.sqrt n + if Nat.sqrt n * Nat.sqrt n = n then 0 else 1) (2 * Real.sqrt n) := by
  refine standsFor_double ?_ (sqrt_bounds n).1 (sqrt_bounds n).2
  rw [Real.sqrt_eq_iff_mul_self_eq (Nat.cast_nonneg n) (Nat.cast_nonneg _), eq_comm]
  exact_mod_cast Iff.rfl

/-- A reciprocal of a root lies from the integer root of the quotient to one above it. -/
theorem rsqrt_bounds (k : Nat) {d : Nat} (hd : d ≠ 0) :
    ((Nat.sqrt (2 ^ (2 * k) / d) : Nat) : ℝ) ≤ 2 ^ k / Real.sqrt d ∧ 2 ^ k / Real.sqrt d < (Nat.sqrt (2 ^ (2 * k) / d) : Nat) + 1 := by
  have hd' : (0 : ℝ) < d := by exact_mod_cast Nat.pos_of_ne_zero hd
  have hroot : 2 ^ k / Real.sqrt d = Real.sqrt (2 ^ (2 * k) / d) := by
    rw [Real.sqrt_div (by positivity), mul_comm 2 k, pow_mul, Real.sqrt_sq (by positivity)]
  have hq : ((2 ^ (2 * k) / d : Nat) : ℝ) ≤ 2 ^ (2 * k) / d := by exact_mod_cast Nat.cast_div_le (α := ℝ) (m := 2 ^ (2 * k)) (n := d)
  rw [hroot]
  refine ⟨(sqrt_bounds _).1.trans (Real.sqrt_le_sqrt hq), ?_⟩
  rw [Real.sqrt_lt' (by positivity), div_lt_iff₀ hd']
  have hlt := (Nat.div_lt_iff_lt_mul (Nat.pos_of_ne_zero hd)).1 (Nat.lt_succ_sqrt' (2 ^ (2 * k) / d))
  exact_mod_cast hlt

theorem standsFor_rsqrt (k : Nat) {d : Nat} (hd : d ≠ 0) :
    StandsFor (2 * Nat.sqrt (2 ^ (2 * k) / d) + if Nat.sqrt (2 ^ (2 * k) / d) * Nat.sqrt (2 ^ (2 * k) / d) * d = 2 ^ (2 * k) then 0 else 1)
      (2 * (2 ^ k / Real.sqrt d)) := by
  have hd' : (0 : ℝ) < d := by exact_mod_cast Nat.pos_of_ne_zero hd
  refine standsFor_double ?_ (rsqrt_bounds k hd).1 (rsqrt_bounds k hd).2
  generalize Nat.sqrt (2 ^ (2 * k) / d) = s
  have hpow : (2 : ℝ) ^ (2 * k) = 2 ^ k * 2 ^ k := by rw [two_mul, pow_add]
  rw [div_eq_iff (Real.sqrt_pos.2 hd').ne', ← mul_self_inj (a := (2 : ℝ) ^ k) (by positivity) (by positivity), mul_mul_mul_comm,
    Real.mul_self_sqrt hd'.le, ← hpow, eq_comm]
  exact_mod_cast Iff.rfl

/-! ### The operations of R161 -/

/-- Half of an exponent, rounded down. -/
def halfExp (e : Int) : Int := (if e % 2 ≠ 0 then e - 1 else e) / 2
/-- The magnitude that goes with an exponent of `2 · halfExp e`. -/
def evenMag (a : Nat) (e : Int) : Nat := if e % 2 ≠ 0 then 2 * a else a

theorem evenMag_ne_zero {a : Nat} (ha : a ≠ 0) (e : Int) : evenMag a e ≠ 0 := by
  unfold evenMag
  split <;> omega

theorem evenMag_spec (a : Nat) (e : Int) : (a : ℝ) * 2 ^ e = evenMag a e * (2 ^ halfExp e * 2 ^ halfExp e) := by
  rw [← zpow_add₀ two_ne_zero]
  unfold evenMag halfExp
  split
  next h =>
    rw [show (e - 1) / 2 + (e - 1) / 2 = e - 1 by omega, zpow_sub_one₀ two_ne_zero]
    push_cast
    ring
  next h => rw [show e / 2 + e / 2 = e by omega]

theorem sqrt_evenMag (a : Nat) (e : Int) : Real.sqrt (a * 2 ^ e) = Real.sqrt (evenMag a e) * 2 ^ halfExp e := by
  have hpos : (0 : ℝ) ≤ 2 ^ halfExp e := (zpow_pos two_pos _).le
  rw [evenMag_spec, Real.sqrt_mul (Nat.cast_nonneg _), Real.sqrt_mul_self hpos]

theorem le_log2 {k m : Nat} (h : 2 ^ k ≤ m) : k ≤ Nat.log2 m := by
  rw [Nat.log2_eq_log_two]
  exact Nat.le_log_of_pow_le one_lt_two h

/-- An operation whose value has an integer standing for it, with two bits to spare, rounds the value once. -/
theorem flushed_of_standsFor {ty : Ty} (hty : ty = .f32 ∨ ty = .f64) {rnd : Rnd} {ftz neg : Bool} {m : Nat} {x v : ℝ} {e : Int}
    (hx : StandsFor m x) (hm : 2 ^ (Ty.mant ty + 2) ≤ m) (hv : v = x * 2 ^ e) : Flushed ty rnd ftz neg v (fresult ty rnd ftz (.fin neg m e, 0)) := by
  have hne : m ≠ 0 := by
    rintro rfl
    exact absurd hm (by simp)
  refine flushed_fresult hty ?_
  rw [hv, roundTo, if_neg hne]
  exact rounded_roundMag (isFloat_of_lane hty) (.inr (.inl (ieee_of_lane hty))) hx hne (.inr (le_log2 hm)) e

theorem fdivV_fin (ty : Ty) (n k : Bool) {a b : Nat} (ha : a ≠ 0) (hb : b ≠ 0) (e f : Int) : fdivV ty (.fin n a e) (.fin k b f) =
    (.fin (n != k) (stickyQuot (a * 2 ^ (Ty.mant ty + 4 + Nat.log2 b)) b) (e - f - (Ty.mant ty + 4 + Nat.log2 b : Nat) - 1), 0) := by
  rw [fdivV, if_neg hb, if_neg ha]

theorem two_mul_div_le_stickyQuot (n d : Nat) : 2 * (n / d) ≤ stickyQuot n d := Nat.le_add_right _ _

theorem flushed_fdivV {ty : Ty} (hty : ty = .f32 ∨ ty = .f64) (rnd : Rnd) (ftz n k : Bool) {a b : Nat} (ha : a ≠ 0) (hb : b ≠ 0) (e f : Int) :
    Flushed ty rnd ftz (n != k) (a * 2 ^ e / (b * 2 ^ f)) (fresult ty rnd ftz (fdivV ty (.fin n a e) (.fin k b f))) := by
  rw [fdivV_fin ty n k ha hb]
  refine flushed_of_standsFor hty (standsFor_stickyQuot _ hb) ?_ ?_
  · refine le_trans ?_ (two_mul_div_le_stickyQuot _ _)
    have hq : 2 ^ (Ty.mant ty + 3) ≤ a * 2 ^ (Ty.mant ty + 4 + Nat.log2 b) / b := by
      rw [Nat.le_div_iff_mul_le (Nat.pos_of_ne_zero hb)]
      calc 2 ^ (Ty.mant ty + 3) * b ≤ 2 ^ (Ty.mant ty + 3) * 2 ^ (Nat.log2 b + 1) := Nat.mul_le_mul_left _ Nat.lt_log2_self.le
        _ = 1 * 2 ^ (Ty.mant ty + 4 + Nat.log2 b) := by rw [← pow_add, one_mul]; congr 1; omega
        _ ≤ a * 2 ^ (Ty.mant ty + 4 + Nat.log2 b) := Nat.mul_le_mul_right _ (Nat.pos_of_ne_zero ha)
    calc 2 ^ (Ty.mant ty + 2) ≤ 2 ^ (Ty.mant ty + 3) := Nat.pow_le_pow_right two_pos (by omega)
      _ ≤ _ := hq.trans (Nat.le_mul_of_pos_left _ two_pos)
  · have hb' : (b : ℝ) ≠ 0 := by exact_mod_cast hb
    rw [zpow_sub_one₀ two_ne_zero, zpow_sub₀ two_ne_zero, zpow_sub₀ two_ne_zero, zpow_natCast]
    push_cast
    field_simp

theorem flushed_frcpV {ty : Ty} (hty : ty = .f32 ∨ ty = .f64) (rnd : Rnd) (ftz n : Bool) {a : Nat} (ha : a ≠ 0) (e : Int) :
    Flushed ty rnd ftz n (1 / (a * 2 ^ e)) (fresult ty rnd ftz (frcpV ty (.fin n a e))) := by
  have hdiv := flushed_fdivV hty rnd ftz false n one_ne_zero ha 0 e
  rwa [Bool.false_bne, Nat.cast_one, zpow_zero, mul_one] at hdiv

theorem fsqrtV_fin (ty : Ty) {a : Nat} (ha : a ≠ 0) (e : Int) : fsqrtV ty (.fin false a e) =
    (.fin false (2 * Nat.sqrt (evenMag a e * 2 ^ (2 * (Ty.mant ty + 4))) +
        if Nat.sqrt (evenMag a e * 2 ^ (2 * (Ty.mant ty + 4))) * Nat.sqrt (evenMag a e * 2 ^ (2 * (Ty.mant ty + 4))) =
          evenMag a e * 2 ^ (2 * (Ty.mant ty + 4)) then 0 else 1) (halfExp e - (Ty.mant ty + 4 : Nat) - 1), 0) := by
  rw [fsqrtV, if_neg ha, if_neg Bool.false_ne_true]
  dsimp only
  rw [isqrt_eq_sqrt]
  rfl

theorem flushed_fsqrtV {ty : Ty} (hty : ty = .f32 ∨ ty = .f64) (rnd : Rnd) (ftz : Bool) {a : Nat} (ha : a ≠ 0) (e : Int) :
    Flushed ty rnd ftz false (Real.sqrt (a * 2 ^ e)) (fresult ty rnd ftz (fsqrtV ty (.fin false a e))) := by
  rw [fsqrtV_fin ty ha]
  have hmag := Nat.pos_of_ne_zero (evenMag_ne_zero ha e)
  refine flushed_of_standsFor hty (standsFor_sqrt _) ?_ ?_
  · have hroot : 2 ^ (Ty.mant ty + 4) ≤ Nat.sqrt (evenMag a e * 2 ^ (2 * (Ty.mant ty + 4))) := by
      rw [Nat.le_sqrt, ← pow_add, ← two_mul]
      exact Nat.le_mul_of_pos_left _ hmag
    calc 2 ^ (Ty.mant ty + 2) ≤ 2 ^ (Ty.mant ty + 4) := Nat.pow_le_pow_right two_pos (by omega)
      _ ≤ _ := by omega
  · rw [sqrt_evenMag, zpow_sub_one₀ two_ne_zero, zpow_sub₀ two_ne_zero, zpow_natCast]
    push_cast
    rw [Real.sqrt_mul (Nat.cast_nonneg _), mul_comm 2 (Ty.mant ty + 4), pow_mul, Real.sqrt_sq (by positivity)]
    field_simp

theorem frsqV_fin (ty : Ty) {a : Nat} (ha : a ≠ 0) (e : Int) : frsqV ty (.fin false a e) =
    let d := evenMag a e
    let k := Ty.mant ty + 5 + Nat.log2 d
    (.fin false (2 * Nat.sqrt (2 ^ (2 * k) / d) + if Nat.sqrt (2 ^ (2 * k) / d) * Nat.sqrt (2 ^ (2 * k) / d) * d = 2 ^ (2 * k) then 0 else 1)
      (-halfExp e - k - 1), 0) := by
  rw [frsqV, if_neg ha, if_neg Bool.false_ne_true]
  dsimp only
  rw [isqrt_eq_sqrt]
  rfl

theorem flushed_frsqV {ty : Ty} (hty : ty = .f32 ∨ ty = .f64) (rnd : Rnd) (ftz : Bool) {a : Nat} (ha : a ≠ 0) (e : Int) :
    Flushed ty rnd ftz false (1 / Real.sqrt (a * 2 ^ e)) (fresult ty rnd ftz (frsqV ty (.fin false a e))) := by
  rw [frsqV_fin ty ha]
  have hmag := evenMag_ne_zero ha e
  dsimp only
  refine flushed_of_standsFor hty (standsFor_rsqrt _ hmag) ?_ ?_
  · have hroot : 2 ^ (Ty.mant ty + 4) ≤ Nat.sqrt (2 ^ (2 * (Ty.mant ty + 5 + Nat.log2 (evenMag a e))) / evenMag a e) := by
      rw [Nat.le_sqrt, Nat.le_div_iff_mul_le (Nat.pos_of_ne_zero hmag)]
      calc 2 ^ (Ty.mant ty + 4) * 2 ^ (Ty.mant ty + 4) * evenMag a e
          ≤ 2 ^ (Ty.mant ty + 4) * 2 ^ (Ty.mant ty + 4) * 2 ^ (Nat.log2 (evenMag a e) + 1) := Nat.mul_le_mul_left _ Nat.lt_log2_self.le
        _ = 2 ^ (Ty.mant ty + 4 + (Ty.mant ty + 4) + (Nat.log2 (evenMag a e) + 1)) := by rw [← pow_add, ← pow_add]
        _ ≤ _ := Nat.pow_le_pow_right two_pos (by omega)
    calc 2 ^ (Ty.mant ty + 2) ≤ 2 ^ (Ty.mant ty + 4) := Nat.pow_le_pow_right two_pos (by omega)
      _ ≤ _ := by omega
  · have hd : (0 : ℝ) < evenMag a e := by exact_mod_cast Nat.pos_of_ne_zero hmag
    have hs := (Real.sqrt_pos.2 hd).ne'
    generalize Ty.mant ty + 5 + Nat.log2 (evenMag a e) = k
    rw [sqrt_evenMag, zpow_sub_one₀ two_ne_zero, zpow_sub₀ two_ne_zero, zpow_neg, zpow_natCast]
    field_simp


/-! ### FRND, FSCALE and FCLASS (R163) -/

/-- The fields of a finite operand, flushed or not, bound the magnitude that it stands for. -/
theorem fvalZ_fin_bounds {ty : Ty} (hty : ty = .f32 ∨ ty = .f64) {ftz : Bool} {x m : Nat} {n : Bool} {e : Int}
    (hx : fvalZ ftz ty x = .fin n m e) :
    n = bitAt x (ty.width - 1) ∧ m < 2 * binade ty ∧ Ty.emin ty - Ty.mant ty ≤ e ∧ e ≤ Ty.emax ty - Ty.mant ty := by
  unfold fvalZ at hx
  split at hx
  next =>
    cases hx
    have hpos := binade_pos ty
    refine ⟨rfl, by omega, ?_, ?_⟩
    · rcases hty with rfl | rfl <;> decide
    · rcases hty with rfl | rfl <;> decide
  next => exact fval_fin_bounds (isFloat_of_lane hty) hx

/-- An integer that the format has is written as it is. -/
theorem roundMag_natCode {ty : Ty} (hty : ty = .f32 ∨ ty = .f64) (rnd : Rnd) (neg : Bool) {k m : Nat} {e : Int} (hk : k ≠ 0) (hm : m ≠ 0)
    (hkm : (k : ℝ) = m * 2 ^ e) (hlt : m < 2 * binade ty) (hlow : Ty.emin ty - Ty.mant ty ≤ e) (hhigh : (Nat.log2 m : Int) + e ≤ Ty.emax ty) :
    ∃ i, (roundMag ty rnd .nan neg k 0).1 = Ty.signBit ty neg + i ∧ i ≤ Ty.maxCode ty ∧ magOf ty i = k := by
  have hfloat := isFloat_of_lane hty
  obtain ⟨c, hc, hgrid⟩ := exists_code (ieee_of_lane hty) hm hlt hlow hhigh
  have hround := rounded_roundMag hfloat (rnd := rnd) (neg := neg) (ovf := .nan) (.inr (.inl (ieee_of_lane hty))) (m := k) (x := k) (.inl rfl) hk
    (.inl rfl) 0
  rw [zpow_zero, mul_one, hkm, ← hgrid] at hround
  refine ⟨c, by rw [rounded_of_code hfloat hc hround], hc, ?_⟩
  have hmag := magOf_eq_gridMag hfloat hc
  rw [hgrid, ← hkm] at hmag
  exact_mod_cast hmag

theorem log2_le_mant {ty : Ty} {m : Nat} (hm : m ≠ 0) (hlt : m < 2 * binade ty) : Nat.log2 m ≤ Ty.mant ty := by
  have hlog : 2 ^ Nat.log2 m ≤ m := Nat.log2_self_le hm
  have hpow : 2 ^ Nat.log2 m < 2 ^ (Ty.mant ty + 1) := by
    rw [pow_succ']
    exact hlog.trans_lt hlt
  exact Nat.lt_succ_iff.1 ((Nat.pow_lt_pow_iff_right one_lt_two).1 hpow)

theorem frndBits_of_ne_zero (ty : Ty) (rnd : Rnd) (n : Bool) {m : Nat} (hm : m ≠ 0) {e : Int} (he : ¬ e < -4200) :
    frndBits ty rnd (.fin n m e) = if (shiftRound rnd n m (-e)).1 = 0 then (Ty.signBit ty n, 0)
      else ((roundMag ty rnd .nan n (shiftRound rnd n m (-e)).1 0).1, 0) := by
  simp only [frndBits, if_neg hm, if_neg he]

/-- FRND of a number: the integer that the mode chooses, with the number's sign and no flag. -/
theorem frndBits_fin {ty : Ty} (hty : ty = .f32 ∨ ty = .f64) (rnd : Rnd) (n : Bool) {m : Nat} {e : Int} (hlt : m < 2 * binade ty)
    (hlow : Ty.emin ty - Ty.mant ty ≤ e) (hhigh : e ≤ Ty.emax ty - Ty.mant ty) :
    ∃ j i : Nat, frndBits ty rnd (.fin n m e) = (Ty.signBit ty n + i, 0) ∧ i ≤ Ty.maxCode ty ∧ magOf ty i = j ∧ NearestInt rnd n (m * 2 ^ e) j := by
  have hnear := (shiftRound_nearestInt rnd n m e).1
  have hfloor : -4200 ≤ Ty.emin ty - Ty.mant ty := by rcases hty with rfl | rfl <;> decide
  have hzero : magOf ty 0 = (0 : Nat) := by rcases hty with rfl | rfl <;> simp [magOf, fval, ratOf, bits, Ty.ieee, Ty.ebits, Ty.mant, Ty.fmt, Ty.width]
  by_cases hm : m = 0
  · refine ⟨0, 0, by simp only [frndBits, if_pos hm, Nat.add_zero], Nat.zero_le _, hzero, ?_⟩
    have hcut : (shiftRound rnd n 0 (-e)).1 = 0 := by
      unfold shiftRound
      split
      · simp
      · cases rnd <;> simp [roundUp]
    rw [hm] at hnear ⊢
    rwa [hcut] at hnear
  · rw [frndBits_of_ne_zero ty rnd n hm (by omega)]
    generalize hk : (shiftRound rnd n m (-e)).1 = k at hnear
    by_cases hk0 : k = 0
    · rw [if_pos hk0]
      exact ⟨0, 0, rfl, Nat.zero_le _, hzero, by rwa [hk0] at hnear⟩
    · rw [if_neg hk0]
      have hlog := log2_le_mant hm hlt
      have hcode : ∃ i, (roundMag ty rnd .nan n k 0).1 = Ty.signBit ty n + i ∧ i ≤ Ty.maxCode ty ∧ magOf ty i = k := by
        by_cases he : 0 ≤ e
        · refine roundMag_natCode hty rnd n hk0 hm ?_ hlt hlow (by omega)
          rw [shiftRound, if_pos (by omega), neg_neg] at hk
          rw [← hk]
          push_cast
          rw [← zpow_natCast, Int.toNat_of_nonneg he]
        · have hkb : k ≤ binade ty := by
            rw [shiftRound, if_neg (by omega)] at hk
            dsimp only at hk
            have hdiv : m / 2 ^ (-e).toNat ≤ m / 2 := Nat.div_le_div_left (by
              calc 2 = 2 ^ 1 := rfl
                _ ≤ 2 ^ (-e).toNat := Nat.pow_le_pow_right two_pos (by omega)) two_pos
            split at hk <;> omega
          have hpos := binade_pos ty
          have hkb2 : k < 2 * binade ty := by omega
          have hmant : (Ty.mant ty : Int) ≤ Ty.emax ty ∧ Ty.emin ty - Ty.mant ty ≤ 0 := by rcases hty with rfl | rfl <;> decide
          exact roundMag_natCode hty rnd n hk0 hk0 (by simp) hkb2 hmant.2 (by have := log2_le_mant hk0 hkb2; omega)
      obtain ⟨i, hi, hmax, hmag⟩ := hcode
      exact ⟨k, i, by rw [hi], hmax, hmag, hnear⟩

theorem frndBits_inf {ty : Ty} (hty : ty = .f32 ∨ ty = .f64) (rnd : Rnd) {x : Nat} {n : Bool} (hx : fval ty x = .inf n) :
    frndBits ty rnd (.inf n) = (x % 2 ^ ty.width, 0) := by
  have hfields : n = bitAt x (ty.width - 1) ∧ bits x (Ty.mant ty) (Ty.ebits ty) = 2 ^ Ty.ebits ty - 1 ∧ bits x 0 (Ty.mant ty) = 0 := by
    unfold fval at hx
    dsimp only at hx
    split at hx
    next hexp =>
      split at hx
      next hfrac =>
        cases hx
        simp only [Bool.and_eq_true, beq_iff_eq] at hexp
        exact ⟨rfl, hexp.2, hfrac⟩
      next => cases hx
    next =>
      split at hx
      next => cases hx
      next => split at hx <;> cases hx
  obtain ⟨rfl, hexp, hfrac⟩ := hfields
  refine Prod.ext ?_ rfl
  unfold bits at hexp hfrac
  unfold frndBits Ty.signBit bitAt
  rcases hty with rfl | rfl
  · simp only [Ty.width, Ty.ebits, Ty.mant, Ty.fmt, Ty.maxCode, Ty.ieee, beq_iff_eq] at hexp hfrac ⊢
    norm_num at hexp hfrac ⊢
    split <;> omega
  · simp only [Ty.width, Ty.ebits, Ty.mant, Ty.fmt, Ty.maxCode, Ty.ieee, beq_iff_eq] at hexp hfrac ⊢
    norm_num at hexp hfrac ⊢
    split <;> omega

/-- A magnitude far above the format's greatest one gives the result of its mode, whatever its exponent. -/
theorem roundTo_above (ty : Ty) (rnd : Rnd) (neg : Bool) {m : Nat} (hm : m ≠ 0) {e : Int} (he : Ty.emax ty < Nat.log2 m + e) :
    roundTo ty rnd .nan (.fin neg m e) = overflowBits ty rnd .nan neg := by
  rw [roundTo, if_neg hm, roundMag]
  exact if_pos he

/-- A magnitude far below the format's least one gives zero, or the least one in a mode that goes up, whatever its exponent. -/
theorem roundTo_below {ty : Ty} (hty : ty = .f32 ∨ ty = .f64) (rnd : Rnd) (neg : Bool) {m : Nat} (hm : m ≠ 0) {e : Int}
    (he : (Nat.log2 m : Int) + e + Ty.mant ty + 2 < Ty.emin ty) :
    roundTo ty rnd .nan (.fin neg m e) = (Ty.signBit ty neg + (if upward rnd neg then 1 else 0), fUF ||| fNX) := by
  have hrange : Ty.emin ty ≤ Ty.emax ty ∧ 1 ≤ Ty.maxCode ty := by rcases hty with rfl | rfl <;> decide
  have hshift : shiftRound rnd neg m (Ty.emin ty - Ty.mant ty - e) = (if upward rnd neg then 1 else 0, true) := by
    obtain ⟨sh, hsh⟩ : ∃ sh : Nat, Ty.emin ty - Ty.mant ty - e = sh := ⟨_, (Int.toNat_of_nonneg (by omega)).symm⟩
    have hbig : 2 * m < 2 ^ sh := by
      calc 2 * m < 2 * 2 ^ (Nat.log2 m + 1) := by have : m < 2 ^ (Nat.log2 m + 1) := Nat.lt_log2_self; omega
        _ = 2 ^ (Nat.log2 m + 2) := by ring
        _ ≤ 2 ^ sh := Nat.pow_le_pow_right two_pos (by omega)
    have hdiv : m / 2 ^ sh = 0 := Nat.div_eq_of_lt (by omega)
    have hmod : m % 2 ^ sh = m := Nat.mod_eq_of_lt (by omega)
    rw [hsh, shiftRound_pos neg m (by omega), hdiv, hmod]
    cases rnd <;> cases neg <;> simp [roundUp, upward, hm, hbig.not_gt]
  rw [roundTo, if_neg hm, roundMag]
  dsimp only
  rw [if_neg (by omega), max_eq_left (by omega), hshift, sub_self, Int.toNat_zero, Nat.zero_mul, Nat.add_zero, if_neg (by dsimp only; split <;> omega),
    if_pos rfl]
  refine Prod.ext rfl (if_pos ?_)
  simp only [Bool.and_eq_true, Bool.not_eq_true', Bool.and_eq_false_iff, decide_eq_true_eq, beq_eq_false_iff_ne]
  exact ⟨by omega, .inl (by omega)⟩

/-- Beyond 4200 binades, a further scale makes no difference. -/
theorem roundTo_clamp {ty : Ty} (hty : ty = .f32 ∨ ty = .f64) (rnd : Rnd) (neg : Bool) {m : Nat} (hm : m ≠ 0) (hlt : m < 2 * binade ty) {e : Int}
    (hlow : Ty.emin ty - Ty.mant ty ≤ e) (hhigh : e ≤ Ty.emax ty - Ty.mant ty) (b : Int) :
    roundTo ty rnd .nan (.fin neg m (e + max (-4200) (min 4200 b))) = roundTo ty rnd .nan (.fin neg m (e + b)) := by
  have hlog := log2_le_mant hm hlt
  have hrange : Ty.emax ty + Ty.mant ty + 2 < Ty.emin ty + 4200 ∧ Ty.emax ty < Ty.emin ty - Ty.mant ty + 4200 := by
    rcases hty with rfl | rfl <;> decide
  rcases lt_or_ge b (-4200) with hb | hb
  · rw [roundTo_below hty rnd neg hm (by omega), roundTo_below hty rnd neg hm (by omega)]
  rcases lt_or_ge 4200 b with hb' | hb'
  · rw [roundTo_above ty rnd neg hm (by omega), roundTo_above ty rnd neg hm (by omega)]
  · rw [min_eq_right hb', max_eq_right hb]

theorem flushed_fscaleV {ty : Ty} (hty : ty = .f32 ∨ ty = .f64) (rnd : Rnd) (ftz neg : Bool) {m : Nat} (hm : m ≠ 0) (hlt : m < 2 * binade ty) {e : Int}
    (hlow : Ty.emin ty - Ty.mant ty ≤ e) (hhigh : e ≤ Ty.emax ty - Ty.mant ty) (b : Int) :
    Flushed ty rnd ftz neg (m * 2 ^ (e + b)) (fresult ty rnd ftz (fscaleV (.fin neg m e) b)) := by
  refine flushed_fresult hty ?_
  rw [roundTo_clamp hty rnd neg hm hlt hlow hhigh]
  exact rounded_roundTo (isFloat_of_lane hty) (.inr (.inl (ieee_of_lane hty))) hm _

/-- A number that is not zero is subnormal when its integer lacks the leading bit of a normal one. -/
theorem isSubnormal_iff {ty : Ty} (hty : ty = .f32 ∨ ty = .f64) {x m : Nat} {n : Bool} {e : Int} (hx : fval ty x = .fin n m e) (hm : m ≠ 0) :
    isSubnormal ty x = true ↔ m < 2 ^ Ty.mant ty := by
  have hne : ty ≠ .e4m3 := by rintro rfl; rcases hty with h | h <;> cases h
  have hfrac : bits x 0 (Ty.mant ty) < 2 ^ Ty.mant ty := Nat.mod_lt _ (Nat.two_pow_pos _)
  unfold fval at hx
  dsimp only at hx
  unfold isSubnormal
  split at hx
  next => split at hx <;> cases hx
  next =>
    rw [if_neg fun h => hne h.1] at hx
    split at hx
    next hexp =>
      cases hx
      simp [hexp, hm, hfrac]
    next hexp =>
      cases hx
      simp [hexp]

theorem fclassBits_eq {ty : Ty} (hty : ty = .f32 ∨ ty = .f64) (x : Nat) : fclassBits ty x = match fval ty x with
    | .nan true => 1 | .nan false => 2 | .inf true => 2 ^ 2 | .inf false => 2 ^ 9
    | .fin n m _ => if m = 0 then (if n then 2 ^ 5 else 2 ^ 6) else if m < 2 ^ Ty.mant ty then (if n then 2 ^ 4 else 2 ^ 7)
        else (if n then 2 ^ 3 else 2 ^ 8) := by
  unfold fclassBits
  cases hx : fval ty x with
  | nan s => cases s <;> rfl
  | inf n => cases n <;> rfl
  | fin n m e =>
    dsimp only
    by_cases hm : m = 0
    · rw [if_pos hm, if_pos hm]
    · rw [if_neg hm, if_neg hm]
      simp only [isSubnormal_iff hty hx hm]


/-! ### FDOT2 (R164) -/

theorem fresult_unflushed (ty : Ty) (rnd : Rnd) (v : FVal) : fresult ty rnd false (v, 0) = roundTo ty rnd .nan v := by
  unfold fresult
  dsimp only
  rw [zero_or_flags]
  rfl

theorem fsumV_any_nan (rnd : Rnd) {xs : List FVal} (h : xs.any FVal.isNaN = true) : (fsumV rnd xs).1 = .nan false := by
  unfold fsumV
  rw [if_pos h]

theorem fdot2Bits_eq {ty : Ty} (hty : ty = .f16 ∨ ty = .bf16) (rnd : Rnd) (a b c : Nat) : fdot2Bits ty rnd a b c =
    let p := fun i => fmulV (fval ty (a / 2 ^ (16 * i) % 2 ^ 16)) (fval ty (b / 2 ^ (16 * i) % 2 ^ 16))
    fresult .f32 rnd false ((fsumV rnd [(p 0).1, (p 1).1, fval .f32 c]).1, (p 0).2 ||| (p 1).2 ||| (fsumV rnd [(p 0).1, (p 1).1, fval .f32 c]).2) := by
  rcases hty with rfl | rfl <;> rfl

/-- The sum of two products and C is exact before its one rounding. -/
theorem rounded_fdot2 (rnd : Rnd) (n0 n1 k0 k1 n : Bool) (m0 m1 j0 j1 m : Nat) (e0 e1 f0 f1 e : Int) {neg : Bool} {v : ℝ} (hv : 0 < v) {w : ℚ}
    (hw : w = ratOf (.fin n0 m0 e0) * ratOf (.fin k0 j0 f0) + ratOf (.fin n1 m1 e1) * ratOf (.fin k1 j1 f1) + ratOf (.fin n m e))
    (hwv : (w : ℝ) = if neg then -v else v) {s : FRes}
    (hs : s = fsumV rnd [(fmulV (.fin n0 m0 e0) (.fin k0 j0 f0)).1, (fmulV (.fin n1 m1 e1) (.fin k1 j1 f1)).1, .fin n m e]) :
    Rounded .f32 rnd .nan neg v (fresult .f32 rnd false s) := by
  obtain ⟨hmul0, hrat0⟩ := fmul_rat n0 k0 m0 j0 e0 f0
  obtain ⟨hmul1, hrat1⟩ := fmul_rat n1 k1 m1 j1 e1 f1
  rw [hmul0, hmul1] at hs
  obtain ⟨n', m', e', hsum, hrat, -⟩ := fsumV_finite rnd
    (xs := [.fin (n0 != k0) (m0 * j0) (e0 + f0), .fin (n1 != k1) (m1 * j1) (e1 + f1), .fin n m e]) (by simp [em])
  have hval : ratOf (.fin n' m' e') = w := by
    rw [hrat, hw, ← hrat0, ← hrat1]
    simp [add_assoc]
  rw [← hval] at hwv
  obtain ⟨hm, rfl, rfl⟩ := fin_of_ratOf hv hwv
  rw [hs, hsum, fresult_unflushed]
  exact rounded_roundTo rfl (.inr (.inl rfl)) hm e'

theorem isNaN_fmulV {x y : FVal} (h : x.isNaN = true ∨ y.isNaN = true) : (fmulV x y).1.isNaN = true := by
  rw [(fmulV_nan h).1]
  rfl

/-! ### The special functions: fixed values and NaNs (R95, R162) -/

theorem isSubnormal_of_nan {x : Nat} {s : Bool} (hx : fval .f32 x = .nan s) : isSubnormal .f32 x = false := by
  by_contra hsub
  have hfields : bits x 23 8 = 0 := by
    simp only [isSubnormal, Bool.and_eq_true, beq_iff_eq, Bool.not_eq_false] at hsub
    exact hsub.1
  rw [fval] at hx
  simp [Ty.ieee, Ty.mant, Ty.ebits, Ty.fmt, Ty.width, hfields] at hx

theorem special_of_spSpecial {fn : SpFn} {ftz : Bool} {x : Nat} {r : FRes} (h : spSpecial fn (fvalZ ftz .f32 x) = some r) :
    special fn ftz x = fresult .f32 .rn ftz r := by
  unfold special
  dsimp only
  rw [h]

theorem special_nan (fn : SpFn) (ftz : Bool) {x : Nat} {s : Bool} (hx : fval .f32 x = .nan s) :
    special fn ftz x = (0x7FC00000, if s then fNV else 0) := by
  have hv : fvalZ ftz .f32 x = .nan s := by
    rw [fvalZ, isSubnormal_of_nan hx, Bool.and_false, if_neg Bool.false_ne_true, hx]
  rw [special_of_spSpecial (r := (.nan false, if s then fNV else 0)) (by rw [hv]; cases fn <;> rfl), fresult_nan (.inl rfl)]
  rfl

theorem special_negative {fn : SpFn} (hfn : fn = .log2 ∨ fn = .rsq) {ftz : Bool} {x m : Nat} {e : Int} (hx : fvalZ ftz .f32 x = .fin true m e)
    (hm : m ≠ 0) : special fn ftz x = (0x7FC00000, fNV) := by
  have hsp : spSpecial fn (.fin true m e) = some (.nan false, fNV) := by
    rcases hfn with rfl | rfl <;> simp [spSpecial, hm]
  rw [special_of_spSpecial (by rw [hx]; exact hsp), fresult_nan (.inl rfl)]
  rfl

/-! ### The exact cases (R161, R162) -/

theorem special_of_spExact {fn : SpFn} {x m : Nat} {n : Bool} {e : Int} {y : FVal} (hx : fval .f32 x = .fin n m e)
    (hsp : spSpecial fn (.fin n m e) = none) (hex : spExact fn n m e = some y) : special fn false x = roundTo .f32 .rn .nan y := by
  have hv : fvalZ false .f32 x = .fin n m e := hx
  unfold special
  dsimp only
  rw [hv, hsp]
  dsimp only
  rw [hex]
  exact fresult_unflushed .f32 .rn y

/-- A value that FP32 has is written as it is. -/
theorem roundTo_code (neg : Bool) {m : Nat} {e : Int} (hm : m ≠ 0) (hlt : m < 2 ^ 24) (hlow : -149 ≤ e) (hhigh : (Nat.log2 m : Int) + e ≤ 127) :
    ∃ c, c ≤ Ty.maxCode .f32 ∧ gridMag .f32 c = m * 2 ^ e ∧ roundTo .f32 .rn .nan (.fin neg m e) = (Ty.signBit .f32 neg + c, 0) := by
  obtain ⟨c, hc, hgrid⟩ := exists_code (ty := .f32) rfl hm hlt hlow hhigh
  refine ⟨c, hc, hgrid, rounded_of_code rfl hc (ovf := .nan) (rnd := .rn) ?_⟩
  rw [hgrid]
  exact rounded_roundTo rfl (.inr (.inl rfl)) hm e

theorem rounded_roundTo_pow (neg : Bool) {i : Int} (hlow : -149 ≤ i) (hhigh : i ≤ 127) :
    Rounded .f32 .rn .nan neg (2 ^ i) (roundTo .f32 .rn .nan (.fin neg 1 i)) ∧ (roundTo .f32 .rn .nan (.fin neg 1 i)).2 = 0 := by
  obtain ⟨c, -, -, hround⟩ := roundTo_code neg one_ne_zero (by norm_num) hlow (by simpa [Nat.log2] using hhigh)
  have h := rounded_roundTo (ty := .f32) rfl (rnd := .rn) (ovf := .nan) (neg := neg) (.inr (.inl rfl)) one_ne_zero i
  rw [Nat.cast_one, one_mul] at h
  exact ⟨h, by rw [hround]⟩

/-- An integer as an FP32 number. -/
theorem ratOf_roundTo_int {j : Int} (hj : j.natAbs < 2 ^ 24) :
    ratOf (fval .f32 (roundTo .f32 .rn .nan (.fin (decide (j < 0)) j.natAbs 0)).1) = j ∧
      (roundTo .f32 .rn .nan (.fin (decide (j < 0)) j.natAbs 0)).2 = 0 := by
  by_cases hj0 : j = 0
  · subst hj0
    rw [show (Int.natAbs 0) = 0 from rfl, roundTo_zero]
    exact ⟨by simp [Ty.signBit, fval, ratOf, bits, Ty.ieee, Ty.ebits, Ty.mant, Ty.fmt, Ty.width], rfl⟩
  · have hne : j.natAbs ≠ 0 := by simpa using hj0
    have hlog : Nat.log2 j.natAbs ≤ 23 := log2_le_mant (ty := .f32) hne hj
    obtain ⟨c, hc, hgrid, hround⟩ := roundTo_code (decide (j < 0)) hne hj (by norm_num : (-149 : Int) ≤ 0) (by omega)
    obtain ⟨m, e, hval, hmag⟩ := fval_signBit_add_fin (ty := .f32) rfl (decide (j < 0)) hc
    rw [hround]
    refine ⟨?_, rfl⟩
    rw [hval]
    rw [hgrid, zpow_zero, mul_one] at hmag
    have hmag' : (m : ℚ) * 2 ^ e = j.natAbs := by
      have hcast : (((m : ℚ) * 2 ^ e : ℚ) : ℝ) = ((j.natAbs : ℚ) : ℝ) := by
        push_cast
        exact hmag
      exact_mod_cast hcast
    rw [ratOf, mul_assoc, hmag', Nat.cast_natAbs]
    by_cases hneg : j < 0
    · rw [if_pos (decide_eq_true hneg), abs_of_neg hneg]
      push_cast
      ring
    · rw [if_neg (by simpa using hneg), abs_of_nonneg (not_lt.1 hneg), one_mul]

/-- The bounds of an FP32 number. -/
theorem f32_bounds {x m : Nat} {n : Bool} {e : Int} (hx : fval .f32 x = .fin n m e) : m < 2 ^ 24 ∧ -149 ≤ e ∧ e ≤ 104 := by
  obtain ⟨-, hlt, hlow, hhigh⟩ := fval_fin_bounds (ty := .f32) rfl hx
  exact ⟨hlt, hlow, hhigh⟩

/-- An integer of at most eight bits is found as an exact case of FEXP2. -/
theorem spExact_exp2 {n : Bool} {m : Nat} {e i : Int} (hm : m < 2 ^ 24) (hi : ratOf (.fin n m e) = i) (hlow : -149 ≤ i) (hhigh : i ≤ 127) :
    spExact .exp2 n m e = some (.fin false 1 i) := by
  by_cases hm0 : m = 0
  · subst hm0
    have hi0 : i = 0 := by
      rw [ratOf, Nat.cast_zero, mul_zero, zero_mul] at hi
      exact_mod_cast hi.symm
    rw [hi0]
    rfl
  have hmag : (m : ℚ) * 2 ^ e = i.natAbs := by
    have habs : |ratOf (.fin n m e)| = (m : ℚ) * 2 ^ e := by
      rw [ratOf, mul_assoc, abs_mul, abs_of_nonneg (a := (m : ℚ) * 2 ^ e) (by positivity)]
      cases n <;> simp
    rw [← habs, hi, Nat.cast_natAbs]
    push_cast
    rfl
  have hi0 : 1 ≤ i.natAbs := by
    rw [Nat.one_le_iff_ne_zero]
    intro h0
    rw [h0, Nat.cast_zero, mul_eq_zero] at hmag
    exact hmag.elim (fun h => hm0 (by exact_mod_cast h)) (zpow_ne_zero _ two_ne_zero)
  have hi8 : i.natAbs < 2 ^ 8 := by norm_num; omega
  have hpow := zpow_pos (two_pos (α := ℚ)) e
  have he : -24 < e := by
    by_contra hle
    have hsmall : (2 : ℚ) ^ e ≤ 2 ^ (-24 : Int) := zpow_le_zpow_right₀ one_le_two (by omega)
    have hlt : (m : ℚ) < 2 ^ 24 := by exact_mod_cast hm
    have h1 : (1 : ℚ) ≤ m * 2 ^ e := by rw [hmag]; exact_mod_cast hi0
    have hone : (m : ℚ) * 2 ^ e < 1 := by
      calc (m : ℚ) * 2 ^ e < 2 ^ 24 * 2 ^ e := mul_lt_mul_of_pos_right hlt hpow
        _ ≤ 2 ^ 24 * 2 ^ (-24 : Int) := mul_le_mul_of_nonneg_left hsmall (by positivity)
        _ = 1 := by norm_num
    linarith
  have htop : (Nat.log2 m : Int) + e < 9 := by
    have hself : ((2 ^ Nat.log2 m : Nat) : ℚ) ≤ m := by exact_mod_cast Nat.log2_self_le hm0
    have hlt : (2 : ℚ) ^ ((Nat.log2 m : Int) + e) < 2 ^ (8 : Int) := by
      rw [zpow_add₀ two_ne_zero, zpow_natCast]
      calc (2 : ℚ) ^ Nat.log2 m * 2 ^ e ≤ m * 2 ^ e := mul_le_mul_of_nonneg_right (by exact_mod_cast hself) hpow.le
        _ = i.natAbs := hmag
        _ < 2 ^ (8 : Int) := by exact_mod_cast hi8
    have := (zpow_lt_zpow_iff_right₀ one_lt_two).1 hlt
    omega
  obtain ⟨hnear, hinexact⟩ := shiftRound_nearestInt .rz n m e
  rw [hmag] at hnear hinexact
  have hk : (shiftRound .rz n m (-e)).1 = i.natAbs := by
    obtain ⟨hle, hmax⟩ : ((shiftRound .rz n m (-e)).1 : ℚ) ≤ i.natAbs ∧ ∀ k : Nat, (k : ℚ) ≤ i.natAbs → k ≤ (shiftRound .rz n m (-e)).1 := hnear
    exact le_antisymm (by exact_mod_cast hle) (hmax _ le_rfl)
  have hexact : (shiftRound .rz n m (-e)).2 = false := by
    rw [Bool.eq_false_iff]
    exact fun h => hinexact.1 h (by rw [hk])
  have hsign : (if n then -(i.natAbs : Int) else i.natAbs) = i := by
    have hrat : (if n then (-1 : ℚ) else 1) * i.natAbs = i := by rw [← hmag, ← hi, ratOf, mul_assoc]
    cases n with
    | true =>
      have : -((i.natAbs : Int) : ℚ) = i := by simpa using hrat
      exact_mod_cast this
    | false =>
      have : ((i.natAbs : Int) : ℚ) = i := by simpa using hrat
      exact_mod_cast this
  unfold spExact
  dsimp only
  rw [if_neg hm0, if_neg (by omega : ¬ e < -40), hk, hexact, hsign, if_pos]
  simp only [Bool.and_eq_true, decide_eq_true_eq, Bool.not_false]
  exact ⟨⟨⟨⟨htop, trivial⟩, by omega⟩, hlow⟩, hhigh⟩

theorem log2_pow (k : Nat) : Nat.log2 (2 ^ k) = k := Nat.log2_two_pow


/-- The exact reciprocal of a power of two. -/
theorem special_rcp_pow {x k : Nat} {n : Bool} {e : Int} (hx : fval .f32 x = .fin n (2 ^ k) e) (hlow : -149 ≤ -(k + e)) (hhigh : -(k + e) ≤ 127) :
    special .rcp false x = roundTo .f32 .rn .nan (.fin n 1 (-(k + e))) := by
  have hne : (2 : Nat) ^ k ≠ 0 := (Nat.two_pow_pos k).ne'
  refine special_of_spExact hx ?_ ?_
  · simp only [spSpecial, if_neg hne]
  · simp only [spExact, log2_pow]
    rw [if_pos (by simp; omega)]

/-- The exact reciprocal root of an even power of two. -/
theorem special_rsq_pow {x k : Nat} {e : Int} (hx : fval .f32 x = .fin false (2 ^ k) e) (heven : (k + e) % 2 = 0) :
    special .rsq false x = roundTo .f32 .rn .nan (.fin false 1 (-((k + e) / 2))) := by
  have hne : (2 : Nat) ^ k ≠ 0 := (Nat.two_pow_pos k).ne'
  refine special_of_spExact hx ?_ ?_
  · simp only [spSpecial, if_neg hne, Bool.false_eq_true, if_false]
  · simp only [spExact, log2_pow]
    rw [if_pos (by simp [heven]), show -(k + e) / 2 = -((k + e) / 2) by omega]

/-- The exact logarithm of a power of two. -/
theorem special_log2_pow {x k : Nat} {e : Int} (hx : fval .f32 x = .fin false (2 ^ k) e) :
    special .log2 false x = roundTo .f32 .rn .nan (.fin (decide ((k : Int) + e < 0)) ((k : Int) + e).natAbs 0) := by
  have hne : (2 : Nat) ^ k ≠ 0 := (Nat.two_pow_pos k).ne'
  refine special_of_spExact hx ?_ ?_
  · simp only [spSpecial, if_neg hne, Bool.false_eq_true, if_false]
  · simp only [spExact, log2_pow]
    rw [if_pos (by simp)]

/-! ### The other results (R162; log 10, 78) -/

/-- The value rounded to nearest. -/
def nearResult (y : FVal) : Nat := (roundTo .f32 .rn .nan y).1

/-- Where no fixed value and no exact case applies, the result is one that Table 5-8 allows or the nearest one, with the flags of an inexact
result. -/
theorem special_free {fn : SpFn} {x m : Nat} {n : Bool} {e : Int} (hx : fval .f32 x = .fin n m e)
    (hsp : spSpecial fn (.fin n m e) = none) (hex : spExact fn n m e = none) :
    ∃ c, special fn false x = (c, spFlags c) ∧
      (c = nearResult (spApprox fn n m e) ∨ c < 2 ^ 32 ∧ spAllowed fn m e (spApprox fn n m e) c = true) := by
  have hv : fvalZ false .f32 x = .fin n m e := hx
  unfold special
  dsimp only
  rw [hv, hsp]
  dsimp only
  rw [hex]
  dsimp only
  simp only [Bool.false_and, Bool.false_eq_true, if_false]
  split
  next => exact ⟨_, rfl, .inl rfl⟩
  next =>
    split
    next h => exact ⟨_, rfl, .inr ⟨Nat.mod_lt _ (by norm_num), h⟩⟩
    next => exact ⟨_, rfl, .inl rfl⟩

/-- The least binade of FP32 has the numbers whose integers lack the leading bit. -/
theorem f32_binade {c m : Nat} {n : Bool} {e : Int} (hc : fval .f32 c = .fin n m e) :
    (m = 0 ∨ (Nat.log2 m : Int) + e < -126) ↔ m < 2 ^ 23 := by
  have hfrac : bits c 0 23 < 2 ^ 23 := Nat.mod_lt _ (by norm_num)
  have hlow := (f32_bounds hc).2.1
  have hexp : m < 2 ^ 23 → e = -149 := by
    intro hlt
    unfold fval at hc
    dsimp only at hc
    split at hc
    next => split at hc <;> cases hc
    next =>
      rw [if_neg fun h => by cases h.1] at hc
      split at hc
      next =>
        cases hc
        rfl
      next =>
        cases hc
        exact absurd hlt (not_lt.2 (Nat.le_add_right _ _))
  constructor
  · rintro (rfl | h)
    · norm_num
    · by_contra hge
      have := le_log2 (not_lt.1 hge)
      omega
  · intro hlt
    by_cases hm : m = 0
    · exact .inl hm
    · have hlog : Nat.log2 m < 23 := by
        rw [Nat.log2_eq_log_two]
        exact Nat.log_lt_of_lt_pow hm hlt
      have := hexp hlt
      omega

theorem spFlags_eq (c : Nat) : spFlags c = match fval .f32 c with
    | .inf _ => fOF ||| fNX
    | .fin _ m _ => if m < 2 ^ 23 then fUF ||| fNX else fNX
    | .nan _ => fNX := by
  unfold spFlags
  cases hc : fval .f32 c with
  | nan s => rfl
  | inf n => rfl
  | fin n m e =>
    have hiff := f32_binade hc
    dsimp only
    by_cases h : m < 2 ^ 23
    · rw [if_pos h, if_pos]
      simpa using hiff.2 h
    · rw [if_neg h, if_neg]
      simpa using mt hiff.1 h

/-! ### Reciprocals within their bound (R161) -/

/-- `a` units of `2^s` are the number `V` cut to a unit far below its last place, and no coarser multiple lies between the two. -/
structure CutFine (V : ℝ) (a : Nat) (s : Int) : Prop where
  low : (a : ℝ) * 2 ^ s ≤ V
  high : V < (a + 1) * 2 ^ s
  wide : 2 ^ 150 ≤ a
  apart : ∀ N : Nat, 2 ^ 120 ∣ N → a ≤ N → V ≤ N * 2 ^ s

theorem two_pow_split {u s : Int} (h : s ≤ u) : (2 : ℝ) ^ u = ((2 ^ (u - s).toNat : Nat) : ℝ) * 2 ^ s := by
  push_cast
  rw [← zpow_natCast, Int.toNat_of_nonneg (by omega), ← zpow_add₀ two_ne_zero, sub_add_cancel]

/-- No multiple of a coarser unit lies between the number and its cut. -/
theorem CutFine.le_of_le {V : ℝ} {a : Nat} {s : Int} (h : CutFine V a s) {N : Nat} {u : Int} (hu : s + 120 ≤ u) (hle : (a : ℝ) * 2 ^ s ≤ N * 2 ^ u) :
    V ≤ N * 2 ^ u := by
  have hpow := zpow_pos (two_pos (α := ℝ)) s
  have hsplit := two_pow_split (show s ≤ u by omega)
  rw [hsplit, ← mul_assoc] at hle ⊢
  have hdvd : 2 ^ 120 ∣ N * 2 ^ (u - s).toNat := (pow_dvd_pow 2 (by omega)).mul_left N
  have := h.apart _ hdvd (by exact_mod_cast le_of_mul_le_mul_right hle hpow)
  exact_mod_cast this

/-- A multiple of a coarser unit that does not reach beyond the number does not reach beyond its cut. -/
theorem CutFine.ge_of_ge {V : ℝ} {a : Nat} {s : Int} (h : CutFine V a s) {N : Nat} {u : Int} (hu : s ≤ u) (hle : (N : ℝ) * 2 ^ u ≤ V) :
    (N : ℝ) * 2 ^ u ≤ a * 2 ^ s := by
  have hpow := zpow_pos (two_pos (α := ℝ)) s
  have hlt := hle.trans_lt h.high
  rw [two_pow_split hu, ← mul_assoc] at hlt ⊢
  refine mul_le_mul_of_nonneg_right ?_ hpow.le
  have : ((N * 2 ^ (u - s).toNat : Nat) : ℝ) < (a + 1 : Nat) := by
    push_cast at hlt ⊢
    exact lt_of_mul_lt_mul_right hlt hpow.le
  have hnat : N * 2 ^ (u - s).toNat ≤ a := Nat.lt_succ_iff.1 (by exact_mod_cast this)
  exact_mod_cast hnat

/-- The binade of the number is that of its cut. -/
theorem CutFine.binade_bounds {V : ℝ} {a : Nat} {s : Int} (h : CutFine V a s) :
    (2 : ℝ) ^ ((Nat.log2 a : Int) + s) ≤ a * 2 ^ s ∧ V < 2 ^ ((Nat.log2 a : Int) + s + 1) := by
  have hne : a ≠ 0 := by have := h.wide; rintro rfl; norm_num at this
  have hpow := zpow_pos (two_pos (α := ℝ)) s
  have hself : ((2 ^ Nat.log2 a : Nat) : ℝ) ≤ a := by exact_mod_cast Nat.log2_self_le hne
  have hlt : a + 1 ≤ 2 ^ (Nat.log2 a + 1) := Nat.lt_log2_self
  constructor
  · rw [zpow_add₀ two_ne_zero, zpow_natCast]
    exact mul_le_mul_of_nonneg_right (by exact_mod_cast hself) hpow.le
  · rw [show (Nat.log2 a : Int) + s + 1 = (Nat.log2 a + 1 : Nat) + s by push_cast; ring, zpow_add₀ two_ne_zero, zpow_natCast]
    exact h.high.trans_le (mul_le_mul_of_nonneg_right (by exact_mod_cast hlt) hpow.le)

theorem CutFine.log_eq {V : ℝ} {a : Nat} {s : Int} (h : CutFine V a s) : Int.log 2 V = (Nat.log2 a : Int) + s := by
  obtain ⟨hlow, hhigh⟩ := h.binade_bounds
  have hV : 0 < V := (zpow_pos two_pos _).trans_le (hlow.trans h.low)
  refine le_antisymm (Int.lt_add_one_iff.1 ?_) ?_
  · exact (Int.lt_zpow_iff_log_lt one_lt_two hV).1 (by exact_mod_cast hhigh)
  · exact (Int.zpow_le_iff_le_log one_lt_two hV).1 (by exact_mod_cast hlow.trans h.low)

/-- One unit in the last place of the number. -/
def lastPlace (a : Nat) (s : Int) : Int := max (-126) ((Nat.log2 a : Int) + s) - 23

theorem CutFine.log2_ge {V : ℝ} {a : Nat} {s : Int} (h : CutFine V a s) : 150 ≤ Nat.log2 a := le_log2 h.wide

/-- A result within a unit in the last place of the cut is within a unit of the number. -/
theorem CutFine.within_ulp {V : ℝ} {a : Nat} {s : Int} (h : CutFine V a s) {k : Nat}
    (hk : |gridMag .f32 k - a * 2 ^ s| ≤ 2 ^ lastPlace a s) : |gridMag .f32 k - V| ≤ 2 ^ lastPlace a s := by
  obtain ⟨hlow, hhigh⟩ := abs_le.1 hk
  have hVlow := h.low
  rw [abs_le]
  refine ⟨?_, by linarith⟩
  obtain ⟨b, j, rfl, hj, hjlt⟩ := exists_binade .f32 k
  have hgrid := gridMag_binade .f32 hj hjlt.le
  generalize hu : (b : Int) + Ty.emin .f32 - Ty.mant .f32 = u at hgrid
  have hu0 : -149 ≤ u := by
    rw [← hu]
    show (-149 : Int) ≤ b + (-126) - 23
    omega
  have hwide := h.log2_ge
  have huq : lastPlace a s - 1 ≤ u := by
    by_contra hlt
    have hq : lastPlace a s = (Nat.log2 a : Int) + s - 23 := by unfold lastPlace at *; omega
    rw [hq] at hlt hlow
    have hpowu := zpow_pos (two_pos (α := ℝ)) u
    have hjlt' : (j : ℝ) < 2 ^ 24 := by exact_mod_cast hjlt
    have hsmall : gridMag .f32 (j + b * binade .f32) < 2 ^ ((Nat.log2 a : Int) + s - 1) := by
      rw [hgrid]
      calc (j : ℝ) * 2 ^ u < 2 ^ 24 * 2 ^ u := mul_lt_mul_of_pos_right hjlt' hpowu
        _ = 2 ^ (u + 24) := by rw [zpow_add₀ two_ne_zero]; norm_num; ring
        _ ≤ _ := zpow_le_zpow_right₀ one_le_two (by omega)
    have hbin := h.binade_bounds.1
    have htop := zpow_pos (two_pos (α := ℝ)) ((Nat.log2 a : Int) + s)
    rw [zpow_sub₀ two_ne_zero] at hlow hsmall
    norm_num at hlow hsmall
    linarith
  have hsum : (gridMag .f32 (j + b * binade .f32) + 2 ^ lastPlace a s : ℝ) =
      (j * 2 ^ (u - (lastPlace a s - 1)).toNat + 2 : Nat) * 2 ^ (lastPlace a s - 1) := by
    rw [hgrid, two_pow_split huq, Nat.cast_add, add_mul, Nat.cast_mul, mul_assoc]
    congr 1
    rw [zpow_sub_one₀ two_ne_zero]
    push_cast
    ring
  have hV := h.le_of_le (N := j * 2 ^ (u - (lastPlace a s - 1)).toNat + 2) (u := lastPlace a s - 1) (by unfold lastPlace; omega)
    (by rw [← hsum]; linarith)
  rw [← hsum] at hV
  linarith


/-- The code after the greatest finite one stands for the next magnitude. -/
theorem gridMag_inf : gridMag .f32 0x7F800000 = 2 ^ 128 := by
  have hgrid := gridMag_binade .f32 (b := 253) (k := 2 ^ 24) (.inr (by decide)) (by decide)
  rw [show 0x7F800000 = 2 ^ 24 + 253 * binade .f32 by decide, hgrid, show Ty.emin .f32 = -126 from rfl, show Ty.mant .f32 = 23 from rfl]
  norm_num

theorem maxCode_f32 : Ty.maxCode .f32 = 0x7F7FFFFF := by decide

/-- Where a number of FP32's range lies in the grid: the multiple of its last place at or below it is a code. -/
theorem CutFine.floor_code {V : ℝ} {a : Nat} {s : Int} (h : CutFine V a s) (hmin : (2 : ℝ) ^ (-149 : Int) ≤ V) (hmax : V < 2 ^ (128 : Int)) :
    ∃ c, c ≤ Ty.maxCode .f32 ∧ gridMag .f32 c ≤ a * 2 ^ s ∧ V < gridMag .f32 c + 2 ^ lastPlace a s := by
  have hwide := h.log2_ge
  obtain ⟨hblow, hbhigh⟩ := h.binade_bounds
  have hV : 0 < V := (zpow_pos two_pos _).trans_le hmin
  have hq := zpow_pos (two_pos (α := ℝ)) (lastPlace a s)
  have hqV : (2 : ℝ) ^ lastPlace a s ≤ V := by
    rcases le_total (-126) ((Nat.log2 a : Int) + s) with htop | htop
    · exact (zpow_le_zpow_right₀ one_le_two (by unfold lastPlace; omega)).trans (hblow.trans h.low)
    · exact (zpow_le_zpow_right₀ one_le_two (by unfold lastPlace; omega)).trans hmin
  set k := ⌊V / 2 ^ lastPlace a s⌋₊ with hk
  have hklow : (k : ℝ) * 2 ^ lastPlace a s ≤ V := by
    rw [← le_div_iff₀ hq]
    exact Nat.floor_le (by positivity)
  have hkhigh : V < k * 2 ^ lastPlace a s + 2 ^ lastPlace a s := by
    have := (div_lt_iff₀ hq).1 (Nat.lt_floor_add_one (V / 2 ^ lastPlace a s))
    linarith
  have hk0 : k ≠ 0 := (Nat.floor_pos.2 ((one_le_div hq).2 hqV)).ne'
  have hk24 : k < 2 ^ 24 := by
    have hlt : (k : ℝ) * 2 ^ lastPlace a s < 2 ^ 24 * 2 ^ lastPlace a s := by
      calc (k : ℝ) * 2 ^ lastPlace a s ≤ V := hklow
        _ < 2 ^ ((Nat.log2 a : Int) + s + 1) := hbhigh
        _ ≤ 2 ^ ((24 : Int) + lastPlace a s) := zpow_le_zpow_right₀ one_le_two (by unfold lastPlace; omega)
        _ = 2 ^ 24 * 2 ^ lastPlace a s := by rw [zpow_add₀ two_ne_zero]; norm_num
    have := lt_of_mul_lt_mul_right hlt hq.le
    exact_mod_cast this
  have htop : (Nat.log2 k : Int) + lastPlace a s ≤ 127 := by
    have hself : ((2 ^ Nat.log2 k : Nat) : ℝ) ≤ k := by exact_mod_cast Nat.log2_self_le hk0
    have hlt : (2 : ℝ) ^ ((Nat.log2 k : Int) + lastPlace a s) < 2 ^ (128 : Int) := by
      rw [zpow_add₀ two_ne_zero, zpow_natCast]
      exact ((mul_le_mul_of_nonneg_right (by exact_mod_cast hself) hq.le).trans hklow).trans_lt hmax
    have := (zpow_lt_zpow_iff_right₀ one_lt_two).1 hlt
    omega
  obtain ⟨c, hc, hgrid⟩ := exists_code (ty := .f32) rfl hk0 hk24 (show (-149 : Int) ≤ _ by unfold lastPlace; omega) htop
  refine ⟨c, hc, ?_, by rwa [hgrid]⟩
  rw [hgrid]
  exact h.ge_of_ge (by unfold lastPlace; omega) hklow

/-- The number's cut, rounded to nearest, is within a unit in the last place of the number. -/
theorem CutFine.near {V : ℝ} {a : Nat} {s : Int} (h : CutFine V a s) (hmin : (2 : ℝ) ^ (-149 : Int) ≤ V) (hmax : V < 2 ^ (128 : Int)) (n : Bool) :
    ∃ k, k ≤ 0x7F800000 ∧ nearResult (.fin n a s) = Ty.signBit .f32 n + k ∧ |gridMag .f32 k - V| ≤ 2 ^ lastPlace a s := by
  have hne : a ≠ 0 := by have := h.wide; rintro rfl; norm_num at this
  have hround := rounded_roundTo (ty := .f32) rfl (rnd := .rn) (ovf := .nan) (neg := n) (.inr (.inl rfl)) hne s
  obtain ⟨c, hc, hclow, hchigh⟩ := h.floor_code hmin hmax
  have hVlow := h.low
  by_cases hb : Beyond .f32 .rn n (a * 2 ^ s)
  · refine ⟨0x7F800000, le_rfl, ?_, ?_⟩
    · rw [nearResult, hround.beyond hb]
      rfl
    · have hedge : (2 : ℝ) ^ 128 - 2 ^ (103 : Int) ≤ a * 2 ^ s := by
        unfold Beyond at hb
        dsimp only at hb
        rw [if_pos rfl, if_neg (by decide), magOf_eq_gridMag rfl le_rfl, gridMag_maxCode rfl, show Ty.emax .f32 = 127 from rfl,
          show Ty.mant .f32 = 23 from rfl, show binade .f32 = 2 ^ 23 from rfl] at hb
        norm_num at hb ⊢
        linarith
      have htop : 127 ≤ (Nat.log2 a : Int) + s := by
        have hlt : (2 : ℝ) ^ (127 : Int) < 2 ^ ((Nat.log2 a : Int) + s + 1) := by
          refine lt_of_lt_of_le ?_ ((hedge.trans hVlow).trans h.binade_bounds.2.le)
          norm_num
        have := (zpow_lt_zpow_iff_right₀ one_lt_two).1 hlt
        omega
      have hq : (2 : ℝ) ^ (103 : Int) ≤ 2 ^ lastPlace a s := zpow_le_zpow_right₀ one_le_two (by unfold lastPlace; omega)
      have hmax' : V < 2 ^ 128 := by exact_mod_cast hmax
      rw [gridMag_inf, abs_of_nonneg (by linarith)]
      linarith
  · obtain ⟨k, hk, hcode, hnear, -, -⟩ := hround.within hb
    refine ⟨k, ?_, hcode, ?_⟩
    · rw [maxCode_f32] at hk
      omega
    · unfold Nearest at hnear
      rw [if_pos rfl] at hnear
      obtain ⟨hle, -⟩ := hnear c hc
      rw [magOf_eq_gridMag rfl hk, magOf_eq_gridMag rfl hc, abs_of_nonneg (a := a * 2 ^ s - gridMag .f32 c) (by linarith), abs_le] at hle
      rw [abs_le]
      constructor <;> linarith

/-- What a code stands for where an infinity counts as the magnitude after the greatest finite one. -/
theorem edgeVal_spec {c : Nat} (hc : c < 2 ^ 32) {v : FVal} (hv : edgeVal c = some v) :
    ∃ n k, c = Ty.signBit .f32 n + k ∧ k ≤ 0x7F800000 ∧ ∃ m e, v = .fin n m e ∧ (m : ℝ) * 2 ^ e = gridMag .f32 k := by
  obtain ⟨n, k, hcode, hk31⟩ : ∃ n k, c = Ty.signBit .f32 n + k ∧ k < 2 ^ 31 := by
    by_cases hlt : c < 2 ^ 31
    · exact ⟨false, c, by simp [Ty.signBit], hlt⟩
    · exact ⟨true, c - 2 ^ 31, by simp [Ty.signBit, Ty.width]; omega, by omega⟩
  refine ⟨n, k, hcode, ?_⟩
  unfold edgeVal at hv
  rcases lt_trichotomy k 0x7F800000 with hlt | rfl | hgt
  · obtain ⟨m, e, hval, hmag⟩ := fval_signBit_add_fin (ty := .f32) rfl n (c := k) (by rw [maxCode_f32]; omega)
    rw [hcode, hval] at hv
    cases hv
    exact ⟨hlt.le, m, e, rfl, hmag⟩
  · have hval : fval .f32 (Ty.signBit .f32 n + 0x7F800000) = .inf n := by cases n <;> decide
    rw [hcode, hval] at hv
    cases hv
    exact ⟨le_rfl, 1, 128, rfl, by rw [gridMag_inf]; norm_num⟩
  · exfalso
    have hexp : bits c 23 8 = 255 ∧ bits c 0 23 ≠ 0 := by
      rw [hcode]
      unfold bits
      cases n <;> simp only [Ty.signBit, Ty.width] <;> norm_num <;> omega
    have hval : ∃ q, fval .f32 c = .nan q := by
      refine ⟨!Ty.isOcp .f32 && decide (bits c 0 (Ty.mant .f32) < 2 ^ (Ty.mant .f32 - 1)), ?_⟩
      unfold fval
      dsimp only
      rw [if_pos (by rw [show Ty.mant .f32 = 23 from rfl, show Ty.ebits .f32 = 8 from rfl, hexp.1]; decide)]
      exact if_neg hexp.2
    obtain ⟨q, hval⟩ := hval
    rw [hval] at hv
    cases hv

/-- The comparison of two finite values is exact. -/
theorem within_fin {n n' : Bool} {m m' : Nat} {e e' u : Int} (h : within (.fin n m e) (.fin n' m' e') 1 u = true) :
    |ratOf (.fin n m e) - ratOf (.fin n' m' e')| ≤ 2 ^ u := by
  unfold within at h
  dsimp only at h
  generalize hg : leastExp [.fin n m e, .fin n' m' e', .fin false 1 u] u = g at h
  have hmem1 := leastExp_le_of_mem (xs := [.fin n m e, .fin n' m' e', .fin false 1 u]) (n := n) (m := m) (e := e) (by simp) u
  have hmem2 := leastExp_le_of_mem (xs := [.fin n m e, .fin n' m' e', .fin false 1 u]) (n := n') (m := m') (e := e') (by simp) u
  have hgu := leastExp_le_start [.fin n m e, .fin n' m' e', .fin false 1 u] u
  rw [hg] at hmem1 hmem2 hgu
  have hpow := zpow_pos (two_pos (α := ℚ)) g
  rw [← scaled_rat g n m e hmem1, ← scaled_rat g n' m' e' hmem2, ← sub_mul, abs_mul, abs_of_pos hpow]
  have hu : (2 : ℚ) ^ u = ((2 ^ (u - g).toNat : Nat) : ℚ) * 2 ^ g := by
    push_cast
    rw [← zpow_natCast, Int.toNat_of_nonneg (by omega), ← zpow_add₀ two_ne_zero, sub_add_cancel]
  rw [hu]
  refine mul_le_mul_of_nonneg_right ?_ hpow.le
  rw [decide_eq_true_eq, one_mul] at h
  have hcast : (((scaled g (.fin n m e) - scaled g (.fin n' m' e')).natAbs : Nat) : ℚ) ≤ ((2 ^ (u - g).toNat : Nat) : ℚ) := by exact_mod_cast h
  rwa [Nat.cast_natAbs, Int.cast_abs, Int.cast_sub] at hcast

/-- A code that Table 5-8 allows for a reciprocal is within a unit in the last place of the number. -/
theorem CutFine.allowed {V : ℝ} {a : Nat} {s : Int} (h : CutFine V a s) (hmin : (2 : ℝ) ^ (-148 : Int) ≤ V) {fn : SpFn} (hfn : fn = .rcp ∨ fn = .rsq)
    {m : Nat} {e : Int} {n : Bool} {c : Nat} (hc : c < 2 ^ 32) (hok : spAllowed fn m e (.fin n a s) c = true) :
    ∃ k, k ≤ 0x7F800000 ∧ c = Ty.signBit .f32 n + k ∧ |gridMag .f32 k - V| ≤ 2 ^ lastPlace a s := by
  have hne : a ≠ 0 := by have := h.wide; rintro rfl; norm_num at this
  obtain ⟨v, hv, hwithin⟩ : ∃ v, edgeVal c = some v ∧ within v (.fin n a s) 1 (lastPlace a s) = true := by
    unfold spAllowed at hok
    cases hv : edgeVal c with
    | none => rw [hv] at hok; cases hok
    | some v =>
      rw [hv] at hok
      refine ⟨v, rfl, ?_⟩
      have hulp : ulpExp (.fin n a s) = lastPlace a s := by rw [ulpExp, if_neg hne]; rfl
      rcases hfn with rfl | rfl <;> rwa [← hulp]
  obtain ⟨n', k, hcode, hk, m', e', rfl, hmag⟩ := edgeVal_spec hc hv
  have hrat := within_fin hwithin
  have hreal : |(if n' then -1 else 1) * gridMag .f32 k - (if n then -1 else 1) * (a * 2 ^ s)| ≤ 2 ^ lastPlace a s := by
    rw [← hmag]
    have hcast : ((|ratOf (.fin n' m' e') - ratOf (.fin n a s)| : ℚ) : ℝ) ≤ ((2 ^ lastPlace a s : ℚ) : ℝ) := by exact_mod_cast hrat
    simp only [ratOf] at hcast
    push_cast at hcast
    simpa only [mul_assoc, apply_ite (Rat.cast (K := ℝ)), Rat.cast_neg, Rat.cast_one] using hcast
  have hgrid : 0 ≤ gridMag .f32 k := by
    rw [← hmag]
    positivity
  have hbig : (2 : ℝ) ^ lastPlace a s < a * 2 ^ s := by
    have htop : lastPlace a s < (Nat.log2 a : Int) + s := by
      have hlt : (2 : ℝ) ^ (-148 : Int) < 2 ^ ((Nat.log2 a : Int) + s + 1) := hmin.trans_lt h.binade_bounds.2
      have := (zpow_lt_zpow_iff_right₀ one_lt_two).1 hlt
      unfold lastPlace
      omega
    exact (zpow_lt_zpow_right₀ one_lt_two htop).trans_le h.binade_bounds.1
  have hpow := zpow_pos (two_pos (α := ℝ)) (lastPlace a s)
  obtain ⟨rfl, hdist⟩ : n' = n ∧ |gridMag .f32 k - a * 2 ^ s| ≤ 2 ^ lastPlace a s := by
    rw [abs_le] at hreal ⊢
    cases n <;> cases n' <;> simp only [Bool.false_eq_true, if_true, if_false] at hreal
    · exact ⟨rfl, by constructor <;> linarith⟩
    · linarith
    · linarith
    · exact ⟨rfl, by constructor <;> linarith⟩
  exact ⟨k, hk, hcode, h.within_ulp hdist⟩


theorem dvd_gap {M A B : Nat} (hA : M ∣ A) (hB : M ∣ B) (hlt : A < B + M) : A ≤ B := by
  obtain ⟨i, rfl⟩ := hA
  obtain ⟨j, rfl⟩ := hB
  have hlt' : M * i < M * (j + 1) := by rwa [mul_add, mul_one]
  exact Nat.mul_le_mul_left M (Nat.lt_succ_iff.1 (lt_of_mul_lt_mul_left hlt' (Nat.zero_le M)))

/-- The model's reciprocal is a cut of the exact one. -/
theorem cutFine_rcp {m : Nat} (hm : m ≠ 0) (hlt : m < 2 ^ 24) (e : Int) : CutFine (1 / (m * 2 ^ e)) (2 ^ 200 / m) (-e - 200) := by
  have hm' : (0 : ℝ) < m := by exact_mod_cast Nat.pos_of_ne_zero hm
  have hV : 1 / ((m : ℝ) * 2 ^ e) = 2 ^ 200 / m * 2 ^ (-e - 200) := by
    rw [zpow_sub₀ two_ne_zero, zpow_neg]
    field_simp
  have hs := zpow_pos (two_pos (α := ℝ)) (-e - 200)
  rw [hV]
  refine ⟨mul_le_mul_of_nonneg_right ?_ hs.le, mul_lt_mul_of_pos_right ?_ hs, ?_, fun N hN hle => mul_le_mul_of_nonneg_right ?_ hs.le⟩
  · exact_mod_cast Nat.cast_div_le (α := ℝ) (m := 2 ^ 200) (n := m)
  · rw [div_lt_iff₀ hm']
    exact_mod_cast Nat.lt_mul_of_div_lt (Nat.lt_succ_self (2 ^ 200 / m)) (Nat.pos_of_ne_zero hm)
  · rw [Nat.le_div_iff_mul_le (Nat.pos_of_ne_zero hm)]
    calc 2 ^ 150 * m ≤ 2 ^ 150 * 2 ^ 24 := Nat.mul_le_mul_left _ hlt.le
      _ ≤ 2 ^ 200 := by norm_num
  · rw [div_le_iff₀ hm']
    have hgap : 2 ^ 200 < N * m + 2 ^ 120 := by
      have h1 : 2 ^ 200 < (2 ^ 200 / m + 1) * m := Nat.lt_mul_of_div_lt (Nat.lt_succ_self _) (Nat.pos_of_ne_zero hm)
      have h2 : (2 ^ 200 / m + 1) * m ≤ (N + 1) * m := Nat.mul_le_mul_right m (Nat.succ_le_succ hle)
      have h3 : m < 2 ^ 120 := hlt.trans (by norm_num)
      rw [Nat.succ_mul N m] at h2
      omega
    exact_mod_cast dvd_gap (pow_dvd_pow 2 (by norm_num)) (hN.mul_right m) hgap

/-- The model's reciprocal root is a cut of the exact one. -/
theorem cutFine_rsq {m : Nat} (hm : m ≠ 0) (hlt : m < 2 ^ 24) (e : Int) :
    CutFine (1 / Real.sqrt (m * 2 ^ e)) (Nat.sqrt (2 ^ 400 / evenMag m e)) (-halfExp e - 200) := by
  have hd := evenMag_ne_zero hm e
  have hdlt : evenMag m e < 2 ^ 25 := by
    unfold evenMag
    split <;> omega
  have hV : 1 / Real.sqrt (m * 2 ^ e) = 2 ^ 200 / Real.sqrt (evenMag m e) * 2 ^ (-halfExp e - 200) := by
    rw [sqrt_evenMag, zpow_sub₀ two_ne_zero, zpow_neg]
    have hd' : (0 : ℝ) < evenMag m e := by exact_mod_cast Nat.pos_of_ne_zero hd
    have hs := (Real.sqrt_pos.2 hd').ne'
    field_simp
  have hs := zpow_pos (two_pos (α := ℝ)) (-halfExp e - 200)
  obtain ⟨hlow, hhigh⟩ := rsqrt_bounds 200 hd
  rw [show 2 * 200 = 400 from rfl] at hlow hhigh
  rw [hV]
  generalize evenMag m e = d at *
  have hd' : (0 : ℝ) < d := by exact_mod_cast Nat.pos_of_ne_zero hd
  have hdpos := Nat.pos_of_ne_zero hd
  refine ⟨mul_le_mul_of_nonneg_right hlow hs.le, mul_lt_mul_of_pos_right hhigh hs, ?_, fun N hN hle => mul_le_mul_of_nonneg_right ?_ hs.le⟩
  · rw [Nat.le_sqrt, Nat.le_div_iff_mul_le hdpos]
    calc 2 ^ 150 * 2 ^ 150 * d ≤ 2 ^ 150 * 2 ^ 150 * 2 ^ 25 := Nat.mul_le_mul_left _ hdlt.le
      _ = 2 ^ (150 + 150 + 25) := by rw [pow_add, pow_add]
      _ ≤ 2 ^ 400 := Nat.pow_le_pow_right two_pos (by norm_num)
  · rw [div_le_iff₀ (Real.sqrt_pos.2 hd')]
    have hgap : 2 ^ 400 ≤ N * N * d := by
      refine dvd_gap (M := 2 ^ 240) (pow_dvd_pow 2 (by norm_num)) ?_ ?_
      · refine Dvd.dvd.mul_right ?_ d
        rw [show 2 ^ 240 = 2 ^ 120 * 2 ^ 120 by norm_num]
        exact mul_dvd_mul hN hN
      · have hsq : 2 ^ 400 < (Nat.sqrt (2 ^ 400 / d) + 1) * (Nat.sqrt (2 ^ 400 / d) + 1) * d :=
          Nat.lt_mul_of_div_lt (Nat.lt_succ_sqrt _) hdpos
        have hroot : Nat.sqrt (2 ^ 400 / d) ≤ 2 ^ 200 := by
          rw [← Nat.sqrt_eq' (2 ^ 200), ← pow_mul]
          exact Nat.sqrt_le_sqrt (Nat.div_le_self _ _)
        generalize Nat.sqrt (2 ^ 400 / d) = r at *
        have hN2 : r * r * d ≤ N * N * d := Nat.mul_le_mul_right d (Nat.mul_le_mul hle hle)
        have hrest : (2 * r + 1) * d < 2 ^ 240 := by
          calc (2 * r + 1) * d ≤ (2 * 2 ^ 200 + 1) * 2 ^ 25 := Nat.mul_le_mul (by omega) hdlt.le
            _ < 2 ^ 240 := by norm_num
        calc 2 ^ 400 < (r + 1) * (r + 1) * d := hsq
          _ = r * r * d + (2 * r + 1) * d := by ring
          _ < N * N * d + 2 ^ 240 := Nat.add_lt_add_of_le_of_lt hN2 hrest
    have hreal : ((2 : ℝ) ^ 200) ^ 2 ≤ (N * Real.sqrt d) ^ 2 := by
      rw [mul_pow, Real.sq_sqrt hd'.le, ← pow_mul, pow_two (N : ℝ)]
      exact_mod_cast hgap
    exact (pow_le_pow_iff_left₀ (by positivity) (by positivity) two_ne_zero).1 hreal

theorem spApprox_rcp (n : Bool) (m : Nat) (e : Int) : spApprox .rcp n m e = .fin n (2 ^ 200 / m) (-e - 200) := rfl

theorem spApprox_rsq (n : Bool) (m : Nat) (e : Int) :
    spApprox .rsq n m e = .fin false (Nat.sqrt (2 ^ 400 / evenMag m e)) (-halfExp e - 200) := by
  rw [← isqrt_eq_sqrt]
  have hodd : (e % 2 ≠ 0) = (e % 2 = 1) := by
    rw [eq_iff_iff]
    omega
  simp only [evenMag, halfExp, hodd]
  rfl


/-- The reciprocal of an FP32 number is in FP32's range once it does not overflow. -/
theorem rcp_range {m : Nat} (hlt : m < 2 ^ 24) {e : Int} (he : e ≤ 104) (hbig : (2 : ℝ) ^ (-128 : Int) < m * 2 ^ e) :
    (2 : ℝ) ^ (-148 : Int) ≤ 1 / (m * 2 ^ e) ∧ 1 / ((m : ℝ) * 2 ^ e) < 2 ^ (128 : Int) := by
  have hpos : (0 : ℝ) < m * 2 ^ e := (zpow_pos two_pos _).trans hbig
  constructor
  · rw [le_div_iff₀ hpos]
    have hm' : (m : ℝ) ≤ 2 ^ 24 := by exact_mod_cast hlt.le
    have he' : (2 : ℝ) ^ e ≤ 2 ^ (104 : Int) := zpow_le_zpow_right₀ one_le_two he
    calc (2 : ℝ) ^ (-148 : Int) * (m * 2 ^ e) ≤ 2 ^ (-148 : Int) * (2 ^ 24 * 2 ^ (104 : Int)) := by gcongr
      _ ≤ 1 := by norm_num
  · rw [div_lt_iff₀ hpos]
    calc (1 : ℝ) = 2 ^ (128 : Int) * 2 ^ (-128 : Int) := by norm_num
      _ < 2 ^ (128 : Int) * (m * 2 ^ e) := mul_lt_mul_of_pos_left hbig (by positivity)

/-- The reciprocal root of an FP32 number is well inside FP32's range. -/
theorem rsq_range {m : Nat} (hm : m ≠ 0) (hlt : m < 2 ^ 24) {e : Int} (hlow : -149 ≤ e) (hhigh : e ≤ 104) :
    (2 : ℝ) ^ (-148 : Int) ≤ 1 / Real.sqrt (m * 2 ^ e) ∧ 1 / Real.sqrt (m * 2 ^ e) < 2 ^ (76 : Int) := by
  have hm1 : (1 : ℝ) ≤ m := by exact_mod_cast Nat.pos_of_ne_zero hm
  have hm' : (m : ℝ) ≤ 2 ^ 24 := by exact_mod_cast hlt.le
  have he1 : (2 : ℝ) ^ (-149 : Int) ≤ 2 ^ e := zpow_le_zpow_right₀ one_le_two hlow
  have he' : (2 : ℝ) ^ e ≤ 2 ^ (104 : Int) := zpow_le_zpow_right₀ one_le_two hhigh
  have hpos : (0 : ℝ) < m * 2 ^ e := by positivity
  have hroot := Real.sqrt_pos.2 hpos
  constructor
  · rw [le_div_iff₀ hroot, ← le_div_iff₀' (by positivity), Real.sqrt_le_left (by positivity)]
    calc (m : ℝ) * 2 ^ e ≤ 2 ^ 24 * 2 ^ (104 : Int) := by gcongr
      _ ≤ (1 / 2 ^ (-148 : Int)) ^ 2 := by norm_num
  · rw [div_lt_iff₀ hroot, ← div_lt_iff₀' (by positivity), Real.lt_sqrt (by positivity)]
    calc ((1 : ℝ) / 2 ^ (76 : Int)) ^ 2 < 1 * 2 ^ (-149 : Int) := by norm_num
      _ ≤ m * 2 ^ e := by gcongr

/-- The magnitude of a code, an infinity counting as 2^128. -/
theorem edge_eq_gridMag {k : Nat} (hk : k ≤ 0x7F800000) : (if k = 0x7F800000 then (2 : ℝ) ^ 128 else (magOf .f32 k : ℝ)) = gridMag .f32 k := by
  split
  next h => rw [h, gridMag_inf]
  next h => exact magOf_eq_gridMag rfl (by rw [maxCode_f32]; omega)

/-- What a `.approx` form writes where its exact value is `V`: a result within a unit in the last place. -/
theorem CutFine.result {V : ℝ} {a : Nat} {s : Int} (h : CutFine V a s) (hmin : (2 : ℝ) ^ (-148 : Int) ≤ V) (hmax : V < 2 ^ (128 : Int)) {fn : SpFn}
    (hfn : fn = .rcp ∨ fn = .rsq) {m : Nat} {e : Int} {n : Bool} {c : Nat}
    (hc : c = nearResult (.fin n a s) ∨ c < 2 ^ 32 ∧ spAllowed fn m e (.fin n a s) c = true) :
    ∃ k, k ≤ 0x7F800000 ∧ c = Ty.signBit .f32 n + k ∧ |gridMag .f32 k - V| ≤ 2 ^ (max (-126) (Int.log 2 V) - 23) := by
  rw [h.log_eq]
  rcases hc with rfl | ⟨hlt, hok⟩
  · exact h.near ((zpow_le_zpow_right₀ one_le_two (by norm_num)).trans hmin) hmax n
  · exact h.allowed hmin hfn hlt hok

/-- Settles O11, clause by clause. -/
theorem floatingFunctions : Obligations.FloatingFunctions := by
  unfold Obligations.FloatingFunctions
  refine ⟨fun h ty rnd ftz z d a b c => ⟨?_, ?_, ?_, ?_, ?_, ?_, ?_, ?_, ?_, ?_, ?_, ?_, ?_, ?_, ?_⟩, fun ty rnd ftz n k s u a b e f hty ha hb => ?_,
    fun ty rnd ftz x b hty => ⟨fun n m e hx => ?_, fun n hx => frndBits_inf hty rnd hx, fun n s => ⟨rfl, rfl, rfl⟩, fclassBits_eq hty x⟩,
    fun ty rnd a b c hty => ⟨?_, ?_⟩, fun ftz => ?_, fun fn ftz s x hx => special_nan fn ftz hx,
    fun ftz x m e hx hm => ⟨special_negative (.inl rfl) hx hm, special_negative (.inr rfl) hx hm⟩, fun x n m k e hx => ⟨?_, ?_, ?_, ?_⟩,
    fun fn x m n e hx hsp hex => ?_⟩
  · exact writes_alu (f := fun g l => fresult ty rnd ftz (fdivV ty (g.fp ty ftz a l) (g.fp ty ftz b l))) fun _ => rfl
  · exact writes_alu (f := fun g l => fresult ty rnd ftz (fsqrtV ty (g.fp ty ftz a l))) fun _ => rfl
  · exact writes_alu (f := fun g l => fresult ty rnd ftz (frcpV ty (g.fp ty ftz a l))) fun _ => rfl
  · exact writes_alu (f := fun g l => fresult ty rnd ftz (frsqV ty (g.fp ty ftz a l))) fun _ => rfl
  · exact writes_alu (f := fun g l => frndBits ty rnd (g.fp ty ftz a l)) fun _ => rfl
  · exact writes_alu (f := fun g l => fresult ty rnd ftz (fscaleV (g.fp ty ftz a l) (toSigned 32 (g.opnd b 1 l)))) fun _ => rfl
  · exact writes_alu0 (f := fun g l => fclassBits ty (g.opndT ty a l)) fun _ => rfl
  · exact writes_alu (f := fun g l => fdot2Bits ty rnd (g.opnd a 1 l) (g.opnd b 1 l) (g.opndT .f32 c l)) fun _ => rfl
  · exact writes_alu (f := fun g l => special .exp2 ftz (g.opndT .f32 a l)) fun _ => rfl
  · exact writes_alu (f := fun g l => special .log2 ftz (g.opndT .f32 a l)) fun _ => rfl
  · exact writes_alu (f := fun g l => special .sin ftz (g.opndT .f32 a l)) fun _ => rfl
  · exact writes_alu (f := fun g l => special .cos ftz (g.opndT .f32 a l)) fun _ => rfl
  · exact writes_alu (f := fun g l => special .tanh ftz (g.opndT .f32 a l)) fun _ => rfl
  · exact writes_alu (f := fun g l => special .rcp ftz (g.opndT .f32 a l)) fun _ => rfl
  · exact writes_alu (f := fun g l => special .rsq ftz (g.opndT .f32 a l)) fun _ => rfl
  · refine ⟨flushed_fdivV hty rnd ftz n k ha hb e f, flushed_fsqrtV hty rnd ftz ha e, flushed_frcpV hty rnd ftz n ha e,
      flushed_frsqV hty rnd ftz ha e, ?_, ?_, ?_, rfl, rfl, rfl, rfl, rfl, rfl, ?_, ?_, rfl, rfl, rfl, ?_, ?_, rfl, ?_, ?_, rfl, rfl, rfl⟩
    · simp [fdivV, hb]
    · simp [fdivV, ha]
    · simp [fdivV]
    · simp [fsqrtV]
    · simp [fsqrtV, ha]
    · simp [frcpV, fdivV]
    · simp [frcpV, fdivV]
    · simp [frsqV]
    · simp [frsqV, ha]
  · obtain ⟨hn, hlt, hlow, hhigh⟩ := fvalZ_fin_bounds hty hx
    rw [← hn]
    refine ⟨rfl, frndBits_fin hty rnd n hlt hlow hhigh, ?_, fun hm => flushed_fscaleV hty rnd ftz n hm hlt hlow hhigh b⟩
    rintro rfl
    exact fresult_zero hty rnd ftz n _
  · intro n0 n1 k0 k1 n m0 m1 j0 j1 m e0 e1 f0 f1 e ha0 ha1 hb0 hb1 hc w neg v hv hw
    rw [fdot2Bits_eq hty]
    dsimp only at *
    rw [ha0, ha1, hb0, hb1, hc]
    refine rounded_fdot2 rnd n0 n1 k0 k1 n m0 m1 j0 j1 m e0 e1 f0 f1 e hv (w := w) ?_ hw ?_
    · rw [← ha0, ← ha1, ← hb0, ← hb1, ← hc]
    · refine Prod.ext rfl ?_
      show (0 : Flags) ||| 0 ||| _ = _
      rw [zero_or_flags, zero_or_flags]
  · intro hnan
    rw [fdot2Bits_eq hty]
    dsimp only at *
    rw [fsumV_any_nan, fresult_nan (.inl rfl)]
    · rfl
    · simp only [List.any_cons, List.any_nil, Bool.or_false, Bool.or_eq_true]
      rcases hnan with h | h | h | h | h
      · exact .inl (isNaN_fmulV (.inl h))
      · exact .inr (.inl (isNaN_fmulV (.inl h)))
      · exact .inl (isNaN_fmulV (.inr h))
      · exact .inr (.inl (isNaN_fmulV (.inr h)))
      · exact .inr (.inr h)
  · cases ftz <;> decide
  · intro i hi hlow hhigh
    rw [special_of_spExact hx rfl (spExact_exp2 (f32_bounds hx).1 hi hlow hhigh)]
    exact rounded_roundTo_pow false hlow hhigh
  · rintro rfl rfl
    obtain ⟨hm, hlow, hhigh⟩ := f32_bounds hx
    have hk : k < 24 := (Nat.pow_lt_pow_iff_right one_lt_two).1 hm
    rw [special_log2_pow hx]
    have hint := ratOf_roundTo_int (j := (k : Int) + e) (by norm_num; omega)
    push_cast at hint
    exact hint
  · rintro rfl hlow hhigh
    rw [special_rcp_pow hx hlow hhigh]
    exact rounded_roundTo_pow n hlow hhigh
  · rintro rfl rfl heven
    obtain ⟨hm, hlow, hhigh⟩ := f32_bounds hx
    have hk : k < 24 := (Nat.pow_lt_pow_iff_right one_lt_two).1 hm
    rw [special_rsq_pow hx heven]
    exact rounded_roundTo_pow false (by omega) (by omega)
  · obtain ⟨hmlt, hlow, hhigh⟩ := f32_bounds hx
    obtain ⟨c, hspecial, hc⟩ := special_free hx hsp hex
    rw [hspecial]
    refine ⟨spFlags_eq c, ?_, ?_, hc.symm.imp_left And.right⟩
    · rintro rfl hbig
      have hm : m ≠ 0 := by rintro rfl; cases hsp
      obtain ⟨hmin, hmax⟩ := rcp_range hmlt hhigh hbig
      rw [spApprox_rcp] at hc
      obtain ⟨k, hk, hcode, hdist⟩ := (cutFine_rcp hm hmlt e).result hmin hmax (.inl rfl) hc
      exact ⟨k, hk, hcode, by rwa [edge_eq_gridMag hk]⟩
    · rintro rfl
      have hm : m ≠ 0 := by rintro rfl; cases hsp
      obtain ⟨hmin, hmax⟩ := rsq_range hm hmlt hlow hhigh
      rw [spApprox_rsq] at hc
      obtain ⟨k, hk, hcode, hdist⟩ := (cutFine_rsq hm hmlt e).result hmin (hmax.trans (zpow_lt_zpow_right₀ one_lt_two (by norm_num))) (.inr rfl) hc
      have hne : k ≠ 0x7F800000 := by
        rintro rfl
        rw [gridMag_inf] at hdist
        have hlog : Int.log 2 (1 / Real.sqrt (m * 2 ^ e)) < 76 :=
          (Int.lt_zpow_iff_log_lt one_lt_two ((zpow_pos two_pos _).trans_le hmin)).1 (by exact_mod_cast hmax)
        have hunit : (2 : ℝ) ^ (max (-126) (Int.log 2 (1 / Real.sqrt (m * 2 ^ e))) - 23) ≤ 2 ^ (53 : Int) :=
          zpow_le_zpow_right₀ one_le_two (by omega)
        have hfar := (abs_le.1 hdist).2
        norm_num at hmax hunit hfar
        linarith
      rw [Ty.signBit, if_neg Bool.false_ne_true, Nat.zero_add] at hcode
      rw [← edge_eq_gridMag hk, if_neg hne] at hdist
      exact ⟨k, lt_of_le_of_ne hk hne, hcode, hdist⟩

end Sys2Proof.Machine
end

/-! The proof of `Obligations.MemoryFormKept` (the canonical form of memory: log 2).

Memory changes in two ways: a write of bytes (`msets`, `mset`, `mdel`), which keeps the canonical form, and a reset, which drops bytes.
So each function of the model has one rule here: `f_mem`, that it leaves memory alone, or `f_listed`, that it keeps the
canonical form. The rules follow the calls, up to `exec` and `step`. -/

section
namespace Sys2Proof.Machine

/-- Memory in the canonical form (log 2): `Sound s` is `Listed s.mem`. -/
def Listed (m : Map Byte) : Prop := mwf byteZero m = true

/-- What a step answers lists its memory in the canonical form. -/
def NextListed : Out → Prop | .next t => Listed t.mem | _ => True

theorem mem_snd {α : Type} {p : α × State} {r : α} {t : State} (he : p = (r, t)) : t.mem = p.2.mem := by rw [he]

theorem listed_snd {α : Type} {p : α × State} {r : α} {t : State} (h : Listed p.2.mem) (he : p = (r, t)) :
    Listed t.mem := by rwa [he] at h

theorem listed_of_mem {s t : State} (h : Listed s.mem) (he : t.mem = s.mem) : Listed t.mem := he ▸ h

theorem foldl_listed {α : Type} (f : State → α → State) (hf : ∀ s x, Listed s.mem → Listed (f s x).mem) (xs : List α) {s : State}
    (h : Listed s.mem) : Listed (xs.foldl f s).mem := by
  induction xs generalizing s with
  | nil => exact h
  | cons x xs ih => exact ih (hf s x h)

theorem foldl_snd_listed {α β : Type} (f : β × State → α → β × State) (hf : ∀ p x, Listed p.2.mem → Listed (f p x).2.mem) (xs : List α)
    {p : β × State} (h : Listed p.2.mem) : Listed (xs.foldl f p).2.mem := by
  induction xs generalizing p with
  | nil => exact h
  | cons x xs ih => exact ih (hf p x h)

theorem foldl_snd_mem {α β : Type} (f : β × State → α → β × State) (hf : ∀ p x, (f p x).2.mem = p.2.mem) (xs : List α) (p : β × State) :
    (xs.foldl f p).2.mem = p.2.mem := by
  induction xs generalizing p with
  | nil => rfl
  | cons x xs ih => exact (ih _).trans (hf p x)

/-! ### What issues, translates and traps (R55, R58, R188) -/

@[simp] theorem countBlocked_mem (s : State) : s.countBlocked.mem = s.mem := by
  unfold State.countBlocked
  split <;> simp

@[simp] theorem dropReissue_mem (s : State) (gid : Nat) (re : Option Nat) : (s.dropReissue gid re).mem = s.mem := by
  unfold State.dropReissue
  split <;> simp

@[simp] theorem seqFault_mem (s : State) (gid cause tile detail : Nat) : (s.seqFault gid cause tile detail).mem = s.mem := by
  unfold State.seqFault
  split <;> simp

@[simp] theorem queueTrap_mem (s : State) (gid : Nat) (t : TrapRec) : (s.queueTrap gid t).mem = s.mem := by
  unfold State.queueTrap
  (repeat' split) <;> simp

@[simp] theorem runTrap_mem (s : State) (gid : Nat) (g : Group) (cause : Nat) (run : Word) (pc addr : DWord) (word0 : Word) (detail : Nat) :
    (s.runTrap gid g cause run pc addr word0 detail).mem = s.mem := by
  unfold State.runTrap
  simp

@[simp] theorem unpark_mem (s : State) (gid : Nat) (run : Word) (re : Option Nat) : (s.unpark gid run re).mem = s.mem := by
  unfold State.unpark
  split <;> simp

@[simp] theorem choose_mem (s : State) (n : Nat) : (s.choose n).2.mem = s.mem := (rfl)

@[simp] theorem lookupFresh_mem (s : State) (die ctx : Nat) (va : DWord) (need : Need) : (s.lookupFresh die ctx va need).2.mem = s.mem := by
  unfold State.lookupFresh
  dsimp only
  (repeat' split) <;> simp

@[simp] theorem writeMem_listed (s : State) (a n x : Nat) (h : Listed s.mem) : Listed (s.writeMem a n x).mem := mwf_msets _ _ _ _ h

@[simp] theorem install_listed (s : State) (die ctx : Nat) (l : Leaf) (h : Listed s.mem) : Listed (s.install die ctx l).mem := by
  unfold State.install
  dsimp only
  (repeat' split) <;> simp [h]

@[simp] theorem translate_listed (s : State) (die ctx : Nat) (va : DWord) (need : Need) (h : Listed s.mem) :
    Listed (s.translate die ctx va need).2.mem := by
  unfold State.translate
  split <;> rename_i he <;> (repeat' split) <;> simp [mem_snd he, h]

@[simp] theorem fetchBlock_listed (s : State) (g : Group) (pc : DWord) (h : Listed s.mem) : Listed (s.fetchBlock g pc).2.mem := by
  unfold State.fetchBlock
  dsimp only
  split <;> rename_i he <;> (repeat' split) <;> simp [mem_snd he, h]

@[simp] theorem ageReady_mem (s : State) : s.ageReady.mem = s.mem := (rfl)

/-! ### Home slices, labels and copies (R225 to R245) -/

@[simp] theorem reply_mem (s : State) (id : Nat) (d : Opnd) (w : Nat) (lanes : Word) (v : Nat) (tc : Option Nat) :
    (s.reply id d w lanes v tc).mem = s.mem := (rfl)

@[simp] theorem pushDelta_mem (s : State) (report : List Nat) (launch : Option Nat) (d : Delta) :
    (s.pushDelta report launch d).mem = s.mem := (rfl)

@[simp] theorem pushWhere_mem (s : State) (report : List Nat) (launch : Option Nat) (p : Delta → Bool) :
    (s.pushWhere report launch p).mem = s.mem := foldl_mem _ (fun s d => pushDelta_mem s report launch d) _ _

@[simp] theorem pushFirst_mem (s : State) (o : Op) (m : MemDesc) (line : Nat) : (s.pushFirst o m line).mem = s.mem := by
  unfold State.pushFirst
  dsimp only
  (repeat' split) <;> simp

@[simp] theorem trimWatch_mem (s : State) (gid : Nat) : (s.trimWatch gid).mem = s.mem := (rfl)

@[simp] theorem armMonitor_mem (s : State) (gid line : Nat) (wake : Bool) : (s.armMonitor gid line wake).mem = s.mem := by
  unfold State.armMonitor
  dsimp only
  (repeat' split) <;> simp

@[simp] theorem overflow_listed (s : State) (id : Nat) (a : Acc) (h : Listed s.mem) : Listed (s.overflow id a).2.mem := by
  unfold State.overflow
  dsimp only
  (repeat' split) <;> simp [h]

@[simp] theorem parkAcc_listed (s : State) (id : Nat) (o : Op) (a : Acc) (tag : WakeTag) (judged : Bool) (h : Listed s.mem) :
    Listed (s.parkAcc id o a tag judged).2.mem := by
  unfold State.parkAcc
  dsimp only
  (repeat' split) <;> simp [h]

@[simp] theorem askGranule_mem (s : State) (k : Nat) : (s.askGranule k).mem = s.mem := by
  unfold State.askGranule
  dsimp only
  (repeat' split) <;> simp

@[simp] theorem startClose_mem (s : State) (region : Nat) (c : Close) : (s.startClose region c).mem = s.mem := (rfl)

@[simp] theorem reclassify_mem (s : State) (region : Nat) (l : Label) (owner : Nat) : (s.reclassify region l owner).mem = s.mem := by
  grind [State.reclassify, startClose_mem]

@[simp] theorem overIf_mem (s : State) (tag : Nat × Nat) : (s.overIf tag).mem = s.mem := by
  unfold State.overIf
  split <;> simp

@[simp] theorem closeGranule_mem (s : State) (k : Nat) : (s.closeGranule k).mem = s.mem :=
  foldl_mem _ (fun s e => by split <;> simp) _ _

@[simp] theorem askHost_mem (s : State) (k : Nat) : (s.askHost k).mem = s.mem := by
  unfold State.askHost
  dsimp only
  (repeat' split) <;> simp

@[simp] theorem perform_listed (s : State) (key width : Nat) (k : MemKind) (ty : Ty) (data data2 : Nat) (h : Listed s.mem) :
    Listed (s.perform key width k ty data data2).2.mem := by
  unfold State.perform
  dsimp only
  (repeat' split) <;> simp [h]

@[simp] theorem dropL1_mem (s : State) (p : Nat → Nat → Bool) : (s.dropL1 p).mem = s.mem := (rfl)

@[simp] theorem dropRegion_mem (s : State) (region : Nat) : (s.dropRegion region).mem = s.mem := (rfl)

@[simp] theorem storeLabel_listed (s : State) (region : Nat) (d : Dir) (h : Listed s.mem) : Listed (s.storeLabel region d).mem := by
  unfold State.storeLabel
  split <;> simp [h]

@[simp] theorem finishClose_listed (s : State) (region : Nat) (h : Listed s.mem) : Listed (s.finishClose region).mem := by
  unfold State.finishClose
  dsimp only
  (repeat' split) <;> simp [h]

@[simp] theorem dirRoom_listed (s : State) (region : Nat) (h : Listed s.mem) : Listed (s.dirRoom region).2.mem := by
  unfold State.dirRoom
  dsimp only
  (repeat' split) <;> simp [h]

/-- The state in which a region has room keeps the form too. -/
theorem dirRoom_some {s t u : State} {region : Nat} (h : Listed s.mem) (he : s.dirRoom region = (some t, u)) : Listed t.mem := by
  have hall : ∀ t, (s.dirRoom region).1 = some t → Listed t.mem := by
    unfold State.dirRoom
    dsimp only
    (repeat' split) <;> simp [h]
  exact hall t (by rw [he])

@[simp] theorem labelOn_mem (s : State) (d : Dir) (r : Req) : (s.labelOn d r).2.mem = s.mem := by
  unfold State.labelOn
  dsimp only
  (repeat' split) <;> simp

@[simp] theorem labelReq_listed (s : State) (r : Req) (h : Listed s.mem) : Listed (s.labelReq r).2.mem := by
  unfold State.labelReq
  dsimp only
  split
  · simp [h]
  · split
    next he => simp [mem_snd he, h]
    next he => simp [dirRoom_some h he]
  · simp [h]

@[simp] theorem serveWrite_listed (s : State) (d : Dir) (r : Req) (h : Listed s.mem) : Listed (s.serveWrite d r).2.mem := by
  unfold State.serveWrite
  dsimp only
  (repeat' split) <;> simp [h]

@[simp] theorem grantCopy_mem (s : State) (line agent : Nat) (bound : Option Nat) (nt : Bool) :
    (s.grantCopy line agent bound nt).mem = s.mem := (rfl)

@[simp] theorem serveLoad_mem (s : State) (d : Dir) (r : Req) : (s.serveLoad d r).mem = s.mem := by
  unfold State.serveLoad
  dsimp only
  (repeat' split) <;> simp

@[simp] theorem serve_listed (s : State) (d : Dir) (r : Req) (h : Listed s.mem) : Listed (s.serve d r).2.mem := by
  unfold State.serve
  split <;> simp [h]

@[simp] theorem countFrame_mem (s : State) (key agent ctx : Nat) (counted : Bool) : (s.countFrame key agent ctx counted).mem = s.mem := by
  unfold State.countFrame
  dsimp only
  (repeat' split) <;> simp

@[simp] theorem countReq_listed (s : State) (region : Nat) (noted : Dir) (r : Req) (h : Listed s.mem) :
    Listed (s.countReq region noted r).2.mem := by
  unfold State.countReq
  dsimp only
  (repeat' split) <;> simp [h]

@[simp] theorem judgeReq_listed (s : State) (d : Dir) (r : Req) (h : Listed s.mem) : Listed (s.judgeReq d r).2.mem := by
  unfold State.judgeReq
  dsimp only
  (repeat' split) <;> simp [h]

@[simp] theorem request_listed (s : State) (r : Req) (h : Listed s.mem) : Listed (s.request r).2.mem := by
  grind [State.request, judgeReq_listed, dirRoom_some, dirRoom_listed, State.updSlice_mem]

@[simp] theorem atHome_listed (s : State) (id : Nat) (o : Op) (m : MemDesc) (a : Acc) (h : Listed s.mem) :
    Listed (s.atHome id o m a).2.mem := by
  grind [State.atHome, parkAcc_listed, labelReq_listed, request_listed]

@[simp] theorem combineAt_mem (s : State) (cluster ctx key : Nat) (op : AOp) (ty : Ty) (x : Nat) (lk mg : Bool) :
    (s.combineAt cluster ctx key op ty x lk mg).2.mem = s.mem := (rfl)

@[simp] theorem countUse_mem (s : State) (cluster key : Nat) : (s.countUse cluster key).mem = s.mem := by
  unfold State.countUse
  split <;> simp

@[simp] theorem performLocal_listed (s : State) (o : Op) (m : MemDesc) (a : Acc) (h : Listed s.mem) :
    Listed (s.performLocal o m a).2.mem := by
  unfold State.performLocal
  dsimp only
  (repeat' split) <;> simp [h]

@[simp] theorem fillL1_mem (s : State) (core line : Nat) : (s.fillL1 core line).mem = s.mem := (rfl)

@[simp] theorem placeLine_mem (s : State) (o : Op) (m : MemDesc) (key : Nat) : (s.placeLine o m key).mem = s.mem := by
  unfold State.placeLine
  dsimp only
  (repeat' split) <;> simp

@[simp] theorem performAcc_listed (s : State) (id : Nat) (o : Op) (m : MemDesc) (a : Acc) (h : Listed s.mem) :
    Listed (s.performAcc id o m a).2.mem := by
  have ht : Listed (s.pushFirst o m (lineOf a.key)).mem := by simpa using h
  unfold State.performAcc
  dsimp only
  generalize s.pushFirst o m (lineOf a.key) = t at ht ⊢
  by_cases hlost : (keyDev a.key).any (fun d => t.lost.contains d) = true
  · rwa [if_pos hlost]
  rw [if_neg hlost]
  by_cases hwait : t.waitsPush o m (lineOf a.key) = true
  · rwa [if_pos hwait]
  rw [if_neg hwait]
  clear hlost hwait
  split
  · exact ht
  split
  · simpa using ht
  · grind [parkAcc_listed, askGranule_mem, askHost_mem, perform_listed, atHome_listed, combineAt_mem, performLocal_listed, placeLine_mem]

@[simp] theorem sendLink_mem (s : State) (o : Op) (m : MemDesc) (a : Acc) : (s.sendLink o m a).mem = s.mem := by
  unfold State.sendLink
  split <;> simp

@[simp] theorem closeOp_mem (s : State) (id : Nat) : (s.closeOp id).mem = s.mem := by
  unfold State.closeOp
  (repeat' split) <;> simp

@[simp] theorem homeRequest_listed (s : State) (id lane : Nat) (h : Listed s.mem) : Listed (s.homeRequest id lane).mem := by
  unfold State.homeRequest
  dsimp only
  (repeat' split) <;> simp [h]

/-! ### Meetings (R309 to R317) -/

@[simp] theorem put48_listed (s : State) (mk key n x : Nat) (h : Listed s.mem) : Listed (s.put48 mk key n x).mem :=
  homeRequest_listed _ _ _ h

@[simp] theorem writeHeader_listed (s : State) (key : Nat) (h : Listed s.mem) : Listed (s.writeHeader key).mem := by
  grind [State.writeHeader, put48_listed]

@[simp] theorem setMemberTag_listed (s : State) (key m r : Nat) (h : Listed s.mem) : Listed (s.setMemberTag key m r).mem := by
  unfold State.setMemberTag
  simp [h]

@[simp] theorem memberDisc_listed (s : State) (key m : Nat) (h : Listed s.mem) : Listed (s.memberDisc key m).mem := by
  unfold State.memberDisc
  simp [h]

@[simp] theorem updMeet_mem (s : State) (key : Nat) (f : Meet → Meet) : (s.updMeet key f).mem = s.mem := (rfl)

@[simp] theorem setMemberState_listed (s : State) (key m st : Nat) (h : Listed s.mem) : Listed (s.setMemberState key m st).mem := by
  unfold State.setMemberState
  simp [h]

@[simp] theorem put48s_listed (s : State) (mk fuel key : Nat) (bs : List Byte) (h : Listed s.mem) :
    Listed (s.put48s mk fuel key bs).mem := by
  fun_induction State.put48s s mk fuel key bs <;> simp_all

@[simp] theorem clearSlot_listed (s : State) (key r : Nat) (h : Listed s.mem) : Listed (s.clearSlot key r).mem := by
  unfold State.clearSlot
  split
  · exact h
  · exact put48s_listed _ _ _ _ _ (put48s_listed _ _ _ _ _ h)

@[simp] theorem bufKeys_listed (s : State) (mk cluster ctx : Nat) (ls : List (Nat × Nat)) (h : Listed s.mem) :
    Listed (s.bufKeys mk cluster ctx ls).2.mem := by
  induction ls generalizing s with
  | nil => exact h
  | cons l ls ih =>
    obtain ⟨va, n⟩ := l
    have htr := translate_listed s (dieOf cluster) ctx (BitVec.ofNat 64 va) .w h
    unfold State.bufKeys
    split
    next he =>
      rw [he] at htr
      split
      · exact htr
      · split <;> rename_i he2 <;> exact listed_snd (ih _ htr) he2
    next he => rwa [he] at htr

@[simp] theorem putResult_listed (s : State) (mk op ctx : Nat) (ks : List (Nat × Nat × Bool × Bool)) (bs : List Byte) (h : Listed s.mem) :
    Listed (s.putResult mk op ctx ks bs).mem := by
  induction ks generalizing s bs with
  | nil => exact h
  | cons k ks ih => exact ih _ _ (homeRequest_listed _ _ _ h)

@[simp] theorem serveResult_listed (s : State) (id : Nat) (h : Listed s.mem) : Listed (s.serveResult id).mem := by
  unfold State.serveResult
  dsimp only
  split
  · exact h
  split
  · split
    · exact h
    split
    · simp [h]
    · split <;> rename_i he <;> have ht := listed_snd (bufKeys_listed _ _ _ _ _ h) he <;> simp [ht]
  · exact h

@[simp] theorem closeRounds_listed (s : State) (key n : Nat) (h : Listed s.mem) : Listed (s.closeRounds key n).mem := by
  induction n generalizing s with
  | zero => exact h
  | succ n ih =>
    unfold State.closeRounds
    dsimp only
    split
    · exact h
    split
    · exact h
    · exact ih _ (foldl_listed _ (fun s w hs => serveResult_listed s w.1 hs) _ (by grind [put48_listed, updMeet_mem, writeHeader_listed,
      clearSlot_listed]))

@[simp] theorem strike_listed (s : State) (key : Nat) (h : Listed s.mem) : Listed (s.strike key).mem := by
  unfold State.strike
  dsimp only
  split
  · exact h
  · refine closeRounds_listed _ _ _ ?_
    split
    · refine foldl_listed _ (fun s w hs => by simpa using hs) _ ?_
      split
      · exact h
      · exact writeHeader_listed _ _ h
    · split
      · exact h
      · exact writeHeader_listed _ _ h

@[simp] theorem changeLive_listed (s : State) (key : Nat) (f : Nat → Nat) (h : Listed s.mem) : Listed (s.changeLive key f).mem :=
  strike_listed _ _ (writeHeader_listed _ _ h)

@[simp] theorem updChan_mem (s : State) (core ch : Nat) (f : Chan → Chan) : (s.updChan core ch f).mem = s.mem := (rfl)

@[simp] theorem addReq_mem (s : State) (core : Nat) (r : CopyReq) : (s.addReq core r).mem = s.mem := (rfl)

@[simp] theorem startStream_mem (s : State) (id : Nat) (o : Op) (key : Nat) (st : Stream) : (s.startStream id o key st).mem = s.mem := by
  unfold State.startStream
  split <;> simp

@[simp] theorem admitStream_listed (s : State) (key id : Nat) (h : Listed s.mem) : Listed (s.admitStream key id).mem := by
  grind [State.admitStream, reply_mem, writeHeader_listed, setMemberTag_listed, memberDisc_listed, updMeet_mem, setMemberState_listed,
    changeLive_listed, startStream_mem]

@[simp] theorem pump_listed (s : State) (key : Nat) (h : Listed s.mem) : Listed (s.pump key).mem :=
  foldl_listed _ (fun s e hs => admitStream_listed s key e.1 hs) _ h

@[simp] theorem quorum_listed (s : State) (key : Nat) (h : Listed s.mem) : Listed (s.quorum key).mem := by
  unfold State.quorum
  simp [h]

@[simp] theorem settleK_listed (s : State) (h : Listed s.mem) : Listed s.settleK.mem := by
  unfold State.settleK
  split
  · refine foldl_listed _ (fun s e hs => ?_) _ h
    exact quorum_listed _ _ hs
  · exact h

/-! ### Time (R64) -/

@[simp] theorem applyTimed_listed (s : State) (t : Timed) (h : Listed s.mem) : Listed (s.applyTimed t).mem := by
  unfold State.applyTimed
  dsimp only
  (repeat' split) <;> simp [h]

@[simp] theorem applyDue_listed (s : State) (todo : List Timed) (h : Listed s.mem) : Listed (s.applyDue todo).mem := by
  fun_induction State.applyDue s todo <;> simp_all

@[simp] theorem pass_listed (s : State) (ticks clks : Nat) (h : Listed s.mem) : Listed (s.pass ticks clks).mem := by
  unfold State.pass
  dsimp only
  (repeat' split) <;> simp [h]

@[simp] theorem afterStep_listed (s : State) (h : Listed s.mem) : Listed s.afterStep.mem := by
  unfold State.afterStep
  simp [h]

/-! ### Effects of lane instructions -/

@[simp] theorem done_mem (x : Issue) (s : State) (f : Group → Group) : (Issue.done x s f).mem = s.mem := (rfl)

@[simp] theorem alu_mem (d : Opnd) (w : Nat) (z : Bool) (f : Group → Nat → Bits) (x : Issue) (s : State) : (alu d w z f x s).mem = s.mem :=
  (rfl)

@[simp] theorem alu0_mem (d : Opnd) (w : Nat) (z : Bool) (f : Group → Nat → Nat) (x : Issue) (s : State) : (alu0 d w z f x s).mem = s.mem :=
  (rfl)

@[simp] theorem cmpOp_mem (pd : Nat) (f : Group → Nat → Bool × Flags) (x : Issue) (s : State) : (cmpOp pd f x s).mem = s.mem := (rfl)

@[simp] theorem stackKey_listed (s : State) (g : Group) (va : DWord) (wr : Bool) (h : Listed s.mem) :
    Listed (s.stackKey g va wr).2.mem := by
  unfold State.stackKey
  dsimp only
  (repeat' split) <;> simp [h]

@[simp] theorem jumpMem_listed (s : State) (g : Group) (l i : Nat) (store : Option DWord) (x : Lane) (h : Listed s.mem) :
    Listed (s.jumpMem g l i store x).2.mem := by
  unfold State.jumpMem
  dsimp only
  split <;> rename_i he <;> simp [mem_snd he, h]

@[simp] theorem jumpLane_listed (s : State) (g : Group) (pc : DWord) (l : Nat) (j : Jump) (h : Listed s.mem) :
    Listed (s.jumpLane g pc l j).2.mem := by
  unfold State.jumpLane
  dsimp only
  (repeat' split) <;> simp [h]

@[simp] theorem jumpLanes_listed (s : State) (g : Group) (pc : DWord) (j : Nat → Jump) (todo : List Nat) (h : Listed s.mem) :
    Listed (s.jumpLanes g pc j todo).2.mem := by
  induction todo generalizing s with
  | nil => exact h
  | cons l ls ih => exact ih _ (jumpLane_listed _ _ _ _ _ h)

@[simp] theorem failAll_mem (x : Issue) (s : State) (fails : List Fail) : (Issue.failAll x s fails).mem = s.mem := by
  unfold Issue.failAll
  simp [foldl_mem]

@[simp] theorem parkIn_mem (s : State) (gid e : Nat) (uni : Bool) (word0 lanes : Word) (slots : List (Nat × LogLane)) :
    (s.parkIn gid e uni word0 lanes slots).mem = s.mem := by
  unfold State.parkIn
  split <;> simp

@[simp] theorem dropCopies_mem (s : State) (cluster core : Nat) (m : MemDesc) (key : Nat) :
    (s.dropCopies cluster core m key).mem = s.mem := by
  unfold State.dropCopies
  dsimp only
  (repeat' split) <;> simp

@[simp] theorem sendStack_mem (s : State) (x : Issue) (spill : Bool) (as : List (Acc × Lane)) : (s.sendStack x spill as).mem = s.mem := by
  unfold State.sendStack
  (repeat' split) <;> simp [foldl_mem]

@[simp] theorem jump_listed (j : Group → Nat → Jump) (x : Issue) (s : State) (h : Listed s.mem) : Listed (jump j x s).mem := by
  unfold jump
  dsimp only
  (repeat' split) <;> simp [h]

@[simp] theorem amCount_mem (s : State) (gid : Nat) (m : Word) : (s.amCount gid m).mem = s.mem := by
  unfold State.amCount
  dsimp only
  (repeat' split) <;> simp

@[simp] theorem refuseGrow_mem (s : State) (gid : Nat) : (s.refuseGrow gid).mem = s.mem := by
  unfold State.refuseGrow
  (repeat' split) <;> simp

@[simp] theorem deadlockCheck_mem (s : State) (core fuel : Nat) : (s.deadlockCheck core fuel).mem = s.mem := by
  fun_induction State.deadlockCheck s core fuel <;> simp_all

@[simp] theorem tbarTest_mem (s : State) (gang team : Nat) : (s.tbarTest gang team).mem = s.mem := by
  unfold State.tbarTest
  dsimp only
  split
  · rfl
  · exact foldl_mem _ (fun s (e : Nat × Group) => State.updGrp_mem s e.1 _) _ _

@[simp] theorem endLanes_mem (s : State) (gid : Nat) (m : Word) : (s.endLanes gid m).mem = s.mem := by
  unfold State.endLanes
  dsimp only
  (repeat' split) <;> simp

@[simp] theorem arrive_mem (s : State) (g : Group) : (s.arrive g).mem = s.mem := by
  unfold State.arrive
  simp

@[simp] theorem softTrap_mem (cause code detail : Nat) (x : Issue) (s : State) : (softTrap cause code detail x s).mem = s.mem := by
  unfold softTrap
  split <;> simp

@[simp] theorem takeGrans_mem (s : State) (core : Nat) (gs : List Nat) : (s.takeGrans core gs).mem = s.mem := (rfl)

@[simp] theorem growTo_mem (s : State) (gid n pd : Nat) (lanes : Word) : (s.growTo gid n pd lanes).mem = s.mem := by
  unfold State.growTo
  split <;> simp

@[simp] theorem xTrap_mem (x : Issue) (a b : Opnd) (bad : Nat) (s : State) : (xTrap x a b bad s).mem = s.mem := by
  unfold xTrap
  simp

@[simp] theorem noLane_mem (x : Issue) (s : State) (cause : Nat) (lanes : List Nat) (addr detail : Nat) :
    (Issue.noLane x s cause lanes addr detail).mem = s.mem := by
  unfold Issue.noLane
  simp

theorem checkAddrs_mem {s t : State} {x : Issue} {kind : MemKind} {spm : Bool} {bad : Nat → Bool} {cause align : Nat} {as : List
    (Nat × Nat)}
    (he : s.checkAddrs x kind spm bad cause align as = some t) : t.mem = s.mem := by
  grind [State.checkAddrs, noLane_mem]

@[simp] theorem freeEntry_mem (s : State) (gid : Nat) (e : Option Nat) : (s.freeEntry gid e).mem = s.mem := by
  unfold State.freeEntry
  split <;> simp

@[simp] theorem startFence_mem (s : State) (gid : Nat) (sc : Scope) : (s.startFence gid sc).mem = s.mem := by
  unfold State.startFence
  dsimp only
  (repeat' split) <;> simp

@[simp] theorem lookupAccs_mem (s : State) (g : Group) (m : MemDesc) (todo : List Acc) : (s.lookupAccs g m todo).2.2.mem = s.mem := by
  induction todo generalizing s with
  | nil => rfl
  | cons a as ih => grind [State.lookupAccs, lookupFresh_mem, dropCopies_mem]

@[simp] theorem passOn_mem (s : State) (id : Nat) : (s.passOn id).mem = s.mem := by
  unfold State.passOn
  dsimp only
  (repeat' split) <;> simp

@[simp] theorem settle_mem (s : State) (id : Nat) : (s.settle id).mem = s.mem := by
  unfold State.settle
  dsimp only
  (repeat' split) <;> simp

@[simp] theorem sendMem_mem (s : State) (gid : Nat) (m : MemDesc) (as : List Acc) : (s.sendMem gid m as).mem = s.mem := by
  unfold State.sendMem
  dsimp only
  (repeat' split) <;> simp

@[simp] theorem memIssue_mem (s : State) (x : Issue) (m : MemDesc) (align : Nat) (as : List Acc) :
    (s.memIssue x m align as).mem = s.mem := by
  grind [State.memIssue, checkAddrs_mem, sendMem_mem, startFence_mem, State.updGrp_mem, freeEntry_mem, queueTrap_mem]

@[simp] theorem anyOrder_mem (s : State) (k : Nat) (as : List Acc) : (s.anyOrder k as).2.mem = s.mem := by
  induction k generalizing s as with
  | zero => rfl
  | succ n ih =>
    cases as with
    | nil => rfl
    | cons a as => exact (ih _ _).trans (choose_mem s (a :: as).length)

@[simp] theorem spWrite_mem (s : State) (gid a n x : Nat) : (s.spWrite gid a n x).mem = s.mem := by
  unfold State.spWrite
  (repeat' split) <;> simp

@[simp] theorem spPerform_mem (s : State) (gid : Nat) (m : MemDesc) (todo : List Acc) : (s.spPerform gid m todo).2.mem = s.mem := by
  induction todo generalizing s with
  | nil => rfl
  | cons a as ih => grind [State.spPerform, spWrite_mem]

@[simp] theorem spIssue_mem (s : State) (x : Issue) (m : MemDesc) (noAlias : Bool) (base : Opnd) (off : Nat) (dat : Nat → Nat) :
    (s.spIssue x m noAlias base off dat).mem = s.mem := by
  grind [State.spIssue, checkAddrs_mem, queueTrap_mem, anyOrder_mem, spPerform_mem, State.updGrp_mem, addOp_mem]

@[simp] theorem disarm_mem (s : State) (gid : Nat) : (s.disarm gid).mem = s.mem := (rfl)

@[simp] theorem prefIssue_listed (s : State) (x : Issue) (m : MemDesc) (as : List Acc) (h : Listed s.mem) :
    Listed (s.prefIssue x m as).mem := by
  unfold State.prefIssue
  dsimp only
  simp only [apply_ite State.mem, State.sendOp_mem, ite_self]
  refine foldl_snd_listed _ (fun p a hp => ?_) _ h
  split
  · exact translate_listed _ _ _ _ _ hp
  · exact translate_listed _ _ _ _ _ hp

@[simp] theorem queueOp_mem (kind : QKind) (dst : Option Opnd) (pd : Nat) (a : Opnd) (cls : Cls) (entry : Issue → Nat → Nat) (x : Issue)
    (s : State) :
    (queueOp kind dst pd a cls entry x s).mem = s.mem := by
  unfold queueOp
  split <;> simp

@[simp] theorem amdoneEnd_mem (s : State) (gid : Nat) (run act : Word) : (s.amdoneEnd gid run act).mem = s.mem := by
  unfold State.amdoneEnd
  simp

@[simp] theorem copyOp_mem (reduce : Bool) (a : Opnd) (off : BitVec 24) (x : Issue) (s : State) :
    (copyOp reduce a off x s).mem = s.mem := by
  unfold copyOp
  dsimp only
  (repeat' split) <;> simp

theorem boCheck_mem {s t : State} {x : Issue} {addr : Nat} (he : s.boCheck x addr = some t) : t.mem = s.mem := by
  grind [State.boCheck, queueTrap_mem]

theorem meetTrap_mem {s t : State} {x : Issue} {va : DWord} (he : x.meetTrap s va = some t) : t.mem = s.mem := by
  grind [Issue.meetTrap, queueTrap_mem]

@[simp] theorem meetRef_listed (s : State) (g : Group) (va : DWord) (need : Need) (h : Listed s.mem) :
    Listed (s.meetRef g va need).2.mem := by
  unfold State.meetRef
  dsimp only
  split <;> rename_i he <;> simp [mem_snd he, h]

theorem meetOp_listed {a : Opnd} {need : Need} {fail : Issue → Nat → State → State} {eff : Issue → MeetRef → State → State} {x : Issue}
    {s : State}
    (hfail : ∀ e s, Listed s.mem → Listed (fail x e s).mem) (heff : ∀ m s, Listed s.mem → Listed (eff x m s).mem) (h : Listed s.mem) :
    Listed (meetOp a need fail eff x s).mem := by
  unfold meetOp
  grind [done_mem, meetTrap_mem, meetRef_listed]

@[simp] theorem statusOp_mem (x : Issue) (d : Opnd) (cls : Option Cls) (v : Nat) (s : State) :
    (Issue.statusOp x d cls v s).mem = s.mem := by
  unfold Issue.statusOp
  simp

theorem activate_mem {s t : State} {ref : MeetRef} (he : s.activate ref = some t) : t.mem = s.mem := by
  unfold State.activate at he
  split at he
  · cases he
  · split at he
    · cases he
    · cases he
      rfl

@[simp] theorem join_listed (s : State) (x : Issue) (ref : MeetRef) (m : Nat) (h : Listed s.mem) : Listed (s.join x ref m).2.mem := by
  grind [State.join, activate_mem, clearSlot_listed, setMemberState_listed, put48_listed, changeLive_listed, pump_listed]

@[simp] theorem hold_mem (x : Issue) (id : Nat) (s : State) : (Issue.hold x id s).mem = s.mem := (rfl)

@[simp] theorem heldOp_mem (x : Issue) (d : Opnd) (w v : Nat) (s : State) : (Issue.heldOp x d w v s).mem = s.mem := by
  unfold Issue.heldOp
  simp

@[simp] theorem result_listed (s : State) (id : Nat) (d : Opnd) (lanes : Word) (key m r : Nat) (h : Listed s.mem) :
    Listed (s.result id d lanes key m r).mem := by
  unfold State.result
  dsimp only
  (repeat' split) <;> simp [h]

@[simp] theorem idleMeet_mem (s : State) (key : Nat) : (s.idleMeet key).mem = s.mem := by
  unfold State.idleMeet
  dsimp only
  (repeat' split) <;> simp

@[simp] theorem depart_listed (s : State) (x : Issue) (key m : Nat) (h : Listed s.mem) : Listed (s.depart x key m).2.mem := by
  grind [State.depart, setMemberState_listed, pump_listed, changeLive_listed, idleMeet_mem]

/-! ### Tiles, traces and the sequencer (R270 to R285) -/

@[simp] theorem updTile_mem (s : State) (core t : Nat) (f : Tile → Tile) : (s.updTile core t f).mem = s.mem := (rfl)

@[simp] theorem updDbg_mem (s : State) (k : Nat) (f : Dbg → Dbg) : (s.updDbg k f).mem = s.mem := (rfl)

@[simp] theorem putRecord_listed (s : State) (k : Nat) (d : Dbg) (slot key : Nat) (l : Leaf) (w : Nat) (h : Listed s.mem) :
    Listed (s.putRecord k d slot key l w).mem := by
  unfold State.putRecord
  simp [h]

@[simp] theorem writeGap_listed (s : State) (k : Nat) (h : Listed s.mem) : Listed (s.writeGap k).mem := by
  unfold State.writeGap
  dsimp only
  (repeat' split) <;> simp [h]

@[simp] theorem trace_listed (s : State) (k w : Nat) (h : Listed s.mem) : Listed (s.trace k w).mem := by
  unfold State.trace
  dsimp only
  (repeat' split) <;> simp [h]

@[simp] theorem tileRecord_listed (s : State) (core t status : Nat) (h : Listed s.mem) : Listed (s.tileRecord core t status).mem := by
  unfold State.tileRecord
  dsimp only
  (repeat' split) <;> simp [h]

@[simp] theorem freeTile_listed (s : State) (core t status : Nat) (h : Listed s.mem) : Listed (s.freeTile core t status).mem := by
  unfold State.freeTile
  simp [h]

@[simp] theorem fillTile_mem (s : State) (core t : Nat) (bs : List Byte) (sat : Bool) : (s.fillTile core t bs sat).mem = s.mem := (rfl)

@[simp] theorem stamp_mem (s : State) (core : Nat) (ts : List Nat) (f : Stamps → Nat → Stamps) : (s.stamp core ts f).mem = s.mem :=
  foldl_mem _ (fun s t => updTile_mem s core t _) _ _

@[simp] theorem storageError_mem (s : State) (core t : Nat) : (s.storageError core t).mem = s.mem := by
  unfold State.storageError
  split <;> simp

@[simp] theorem mxEnded_mem (s : State) (core : Nat) (e : QEnt) : (s.mxEnded core e).mem = s.mem := by
  unfold State.mxEnded
  have hfill := foldl_mem (fun (s : State) (r : Nat × List Byte × Bool) => s.fillTile core r.1 r.2.1 r.2.2) (fun s r =>
    fillTile_mem _ _ _ _ _) e.out s
  grind [stamp_mem, storageError_mem]

@[simp] theorem noteEnds_mem (s : State) (core : Nat) : (s.noteEnds core).mem = s.mem := by
  unfold State.noteEnds
  simp [foldl_mem]

@[simp] theorem tileGo_listed (s : State) (gid t : Nat) (k : TileOp) (run act : Word) (h : Listed s.mem) :
    Listed (s.tileGo gid t k run act).mem := by
  unfold State.tileGo
  dsimp only
  (repeat' split) <;> simp [h]

@[simp] theorem tileOp_listed (t : Nat) (k : Issue → TileOp) (x : Issue) (s : State) (h : Listed s.mem) : Listed (tileOp t k x s).mem := by
  grind [tileOp, done_mem, queueTrap_mem, State.updGrp_mem, tileGo_listed]

@[simp] theorem enterQueue_mem (s : State) (gang op : Nat) (m : MOp) (core : Nat) : (s.enterQueue gang op m core).mem = s.mem := by
  unfold State.enterQueue
  dsimp only
  rw [State.updCore_mem]
  exact (foldl_mem _ (fun s t => updTile_mem s core t _) _ _).trans (stamp_mem _ _ _ _)

@[simp] theorem mxTry_mem (s : State) (gid : Nat) (m : MOp) (sel : Nat) (since : Option Nat) : (s.mxTry gid m sel since).mem = s.mem := by
  unfold State.mxTry
  (repeat' split) <;> simp [foldl_mem]

@[simp] theorem mxOp_mem (sel : Nat) (m : MOp) (x : Issue) (s : State) : (mxOp sel m x s).mem = s.mem := by
  unfold mxOp
  split <;> simp

@[simp] theorem signalAdd_mem (s : State) (gang n : Nat) (a : Word) : (s.signalAdd gang n a).mem = s.mem := (rfl)

@[simp] theorem sqwaitTry_mem (s : State) (gid : Nat) : (s.sqwaitTry gid).mem = s.mem := by
  unfold State.sqwaitTry
  dsimp only
  (repeat' split) <;> simp

@[simp] theorem gateIssue_mem (kern : Bool) (k gi : Nat) (x : Issue) (s : State) : (gateIssue kern k gi x s).mem = s.mem := by
  unfold gateIssue
  dsimp only
  (repeat' split) <;> simp

/-! ### Reports, fences, walks and traps (R199 to R217) -/

@[simp] theorem stackEnd_mem (s : State) (id : Nat) : (s.stackEnd id).mem = s.mem := by
  unfold State.stackEnd
  dsimp only
  (repeat' split) <;> simp

@[simp] theorem reportFails_mem (s : State) (ctx : Nat) (as : List Acc) : (s.reportFails ctx as).mem = s.mem :=
  foldl_mem _ (fun s a => by split <;> simp) _ _

@[simp] theorem deliverReply_mem (s : State) (id : Nat) : (s.deliverReply id).mem = s.mem := by
  unfold State.deliverReply
  dsimp only
  (repeat' split) <;> simp

@[simp] theorem loadArrival_mem (s : State) (id : Nat) : (s.loadArrival id).mem = s.mem := by
  unfold State.loadArrival
  dsimp only
  (repeat' split) <;> simp

@[simp] theorem pushReport_mem (s : State) (id : Nat) (o : Op) (report : List Nat) : (s.pushReport id o report).mem = s.mem := by
  unfold State.pushReport
  exact (foldl_mem _ (fun s a => by split <;> simp) _ _).trans (foldl_mem _ (fun s g => State.updGrp_mem s g _) _ _)

@[simp] theorem storeReport_mem (s : State) (id : Nat) : (s.storeReport id).mem = s.mem := by
  unfold State.storeReport
  dsimp only
  (repeat' split) <;> simp

@[simp] theorem laneFences_mem (s : State) (gid : Nat) (todo : List (Word × Scope × Option (MemDesc × List Acc))) :
    (s.laneFences gid todo).mem = s.mem := by
  fun_induction State.laneFences s gid todo <;> simp_all

@[simp] theorem fenceComplete_mem (s : State) (gid : Nat) : (s.fenceComplete gid).mem = s.mem := by
  unfold State.fenceComplete
  dsimp only
  (repeat' split) <;> simp

@[simp] theorem walkAccs_listed (s : State) (g : Group) (m : MemDesc) (todo : List Acc) (h : Listed s.mem) :
    Listed (s.walkAccs g m todo).2.2.2.mem := by
  induction todo generalizing s with
  | nil => exact h
  | cons a as ih => grind [State.walkAccs, install_listed, dropCopies_mem]

@[simp] theorem walkEnd_listed (s : State) (gid : Nat) (h : Listed s.mem) : Listed (s.walkEnd gid).mem := by
  unfold State.walkEnd
  dsimp only
  (repeat' split) <;> simp [h]

@[simp] theorem labelVerdict_mem (s : State) (gid : Nat) : (s.labelVerdict gid).mem = s.mem := by
  unfold State.labelVerdict
  dsimp only
  (repeat' split) <;> simp

@[simp] theorem takeTrap_mem (s : State) (gid : Nat) : (s.takeTrap gid).mem = s.mem := by
  unfold State.takeTrap
  dsimp only
  (repeat' split) <;> simp

@[simp] theorem mxStart_mem (s : State) (core : Nat) (e : QEnt) : (s.mxStart core e).1.mem = s.mem := by
  unfold State.mxStart
  split <;> simp

@[simp] theorem freeTeamTiles_listed (s : State) (core gang team status : Nat) (h : Listed s.mem) :
    Listed (s.freeTeamTiles core gang team status).mem := by
  unfold State.freeTeamTiles
  refine foldl_listed _ (fun s e hs => ?_) _ (by simpa using h)
  grind [freeTile_listed, State.updCore_mem]

/-! ### Launches and gangs (R28 to R37, R180) -/

@[simp] theorem ask_listed (s : State) (q : Ask) (h : Listed s.mem) : Listed (s.ask q).2.mem := by
  grind [State.ask, homeRequest_listed, State.sendOp_mem]

@[simp] theorem svcAsk_listed (s : State) (tag : Nat × Nat) (dev : Option Nat) (ctx : Nat) (va : DWord) (n : Nat) (kind : MemKind)
    (data : Nat) (h : Listed s.mem) :
    Listed (s.svcAsk tag dev ctx va n kind data).2.mem := by
  grind [State.svcAsk, ask_listed]

@[simp] theorem svcAccess_listed (s : State) (tag : Nat × Nat) (dev : Option Nat) (ctx : Nat) (va : DWord) (n : Nat) (store : Option Nat)
    (h : Listed s.mem) :
    Listed (s.svcAccess tag dev ctx va n store).2.mem := by
  unfold State.svcAccess
  split <;> simp [h]

theorem Listed.svcAccess {s t : State} {tag : Nat × Nat} {dev : Option Nat} {ctx : Nat} {va : DWord} {n : Nat} {store : Option Nat}
    {r : SvcRes}
    (h : Listed s.mem) (he : s.svcAccess tag dev ctx va n store = (r, t)) : Listed t.mem :=
  listed_snd (svcAccess_listed _ _ _ _ _ _ _ h) he

@[simp] theorem stopQueue_mem (s : State) (q : Nat) (lq : LQ) (va outcome : Nat) : (s.stopQueue q lq va outcome).mem = s.mem := by
  unfold State.stopQueue
  simp

@[simp] theorem stopOn_mem (s : State) (tag : Nat × Nat) (q : Nat) (lq : LQ) (va : DWord) (outcome : Nat) :
    (s.stopOn tag q lq va outcome).mem = s.mem := by
  unfold State.stopOn
  simp

@[simp] theorem emptied_mem (s : State) : s.emptied.mem = s.mem := (rfl)

@[simp] theorem afterStops_mem (s : State) : s.afterStops.mem = s.mem := (rfl)

@[simp] theorem makeRoom_mem (s : State) (l : Launch) (fuel : Nat) : (s.makeRoom l fuel).mem = s.mem := by
  fun_induction State.makeRoom s l fuel <;> simp_all

@[simp] theorem priorityPreempt_mem (s : State) (id : Nat) : (s.priorityPreempt id).mem = s.mem := by
  unfold State.priorityPreempt
  (repeat' split) <;> simp

@[simp] theorem reject_mem (s : State) (q id outcome : Nat) : (s.reject q id outcome).mem = s.mem := (rfl)

@[simp] theorem readTemplate_listed (s : State) (id : Nat) (l : Launch) (h : Listed s.mem) : Listed (s.readTemplate id l).2.mem := by
  grind [State.readTemplate, State.forget_mem, svcAccess_listed, choose_mem]

@[simp] theorem traceSummary_listed (s : State) (gid : Nat) (h : Listed s.mem) : Listed (s.traceSummary gid).mem := by
  unfold State.traceSummary
  (repeat' split) <;> simp [h]

@[simp] theorem reselect_mem (s : State) (k : Nat) : (s.reselect k).mem = s.mem := by
  unfold State.reselect
  split <;> simp

@[simp] theorem traceStart_listed (s : State) (gid : Nat) (h : Listed s.mem) : Listed (s.traceStart gid).mem := by
  unfold State.traceStart
  (repeat' split) <;> simp [h]

@[simp] theorem addGroup_listed (s : State) (g : Group) (h : Listed s.mem) : Listed (s.addGroup g).mem := by
  unfold State.addGroup
  simp [h]

@[simp] theorem placeScratch_mem (s : State) (gang team core : Nat) (l : Launch) : (s.placeScratch gang team core l).mem = s.mem := (rfl)

@[simp] theorem addTeamGroup_listed (s : State) (l : Launch) (id gang team core grp : Nat) (h : Listed s.mem) :
    Listed (s.addTeamGroup l id gang team core grp).mem := by
  grind [State.addTeamGroup, addGroup_listed, takeGrans_mem]

@[simp] theorem startGang_listed (s : State) (id : Nat) (l : Launch) (p : Place) (h : Listed s.mem) : Listed (s.startGang id l p).mem := by
  unfold State.startGang
  dsimp only
  refine foldl_listed _ (fun u t hu => ?_) _ ?_
  · have hgroups := foldl_listed (fun (u : State) g => u.addTeamGroup l id s.nextId t.1 t.2 g) (fun u g hu =>
      addTeamGroup_listed _ _ _ _ _ _ _ hu)
      (List.range l.lr.groups) (s := u.placeScratch s.nextId t.1 t.2 l) (by simpa using hu)
    split
    · exact hgroups
    · exact hgroups
  · split
    · exact h
    · exact addGroup_listed _ _ h

theorem startGangs_listed {s t : State} {id : Nat} {ps : List Place} (h : Listed s.mem) (he : s.startGangs id ps = some t) :
    Listed t.mem := by
  induction ps generalizing s with
  | nil => cases he; exact h
  | cons p ps ih => grind [State.startGangs, startGang_listed]

@[simp] theorem lnchEnd_mem (s : State) (id : Nat) (o : Op) (pd : Nat) (tc : Option Nat) : (s.lnchEnd id o pd tc).mem = s.mem := by
  unfold State.lnchEnd
  simp

@[simp] theorem withdraw_mem (s : State) (f : Frame) : (s.withdraw f).mem = s.mem := by
  unfold State.withdraw
  split <;> simp

@[simp] theorem promote_mem (s : State) (core p : Nat) : (s.promote core p).mem = s.mem := by
  unfold State.promote
  dsimp only
  (repeat' split) <;> simp

@[simp] theorem dropGroup_mem (s : State) (gid : Nat) : (s.dropGroup gid).mem = s.mem := by
  unfold State.dropGroup
  dsimp only
  (repeat' split) <;> simp

@[simp] theorem sendDepartures_mem (s : State) (k : Gang) : (s.sendDepartures k).mem = s.mem := (rfl)

@[simp] theorem gangEnd_mem (s : State) (gang : Nat) : (s.gangEnd gang).mem = s.mem := by
  unfold State.gangEnd
  dsimp only
  (repeat' split) <;> simp

@[simp] theorem teamFreed_listed (s : State) (gang team status : Nat) (h : Listed s.mem) : Listed (s.teamFreed gang team status).mem := by
  grind [State.teamFreed, State.updTeam_mem, gangEnd_mem, freeTeamTiles_listed]

@[simp] theorem teamEnd_listed (s : State) (gang team status : Nat) (h : Listed s.mem) : Listed (s.teamEnd gang team status).mem := by
  unfold State.teamEnd
  dsimp only
  (repeat' split) <;> simp [h]

@[simp] theorem groupGone_listed (s : State) (gid status : Nat) (h : Listed s.mem) : Listed (s.groupGone gid status).mem := by
  unfold State.groupGone
  split
  · exact h
  next g hg =>
    have hlog : (g.log.foldl (fun s e => e.2.lanes.foldl (fun s l => s.addErr g.ctx (.item (l.2.va.signExtend 64) 0xC)) s) s).mem = s.mem :=
      foldl_mem _ (fun s e => foldl_mem _ (fun s l => by simp) _ _) _ _
    have htraps : ∀ s : State, (g.trapq.foldl (fun s t => s.addErr g.ctx (.trap gid t)) s).mem = s.mem :=
      fun s => foldl_mem _ (fun s t => by simp) _ _
    have hframes : ∀ s : State, (g.frames.foldl (fun s f => s.withdraw f) s).mem = s.mem := fun s => foldl_mem _ (fun s f => by simp) _ _
    have hall := (hframes _).trans ((htraps _).trans hlog)
    dsimp only
    generalize List.foldl _ _ g.frames = t at hall ⊢
    have ht : Listed ((t.traceSummary gid).dropGroup gid).mem := by
      rw [dropGroup_mem]
      exact traceSummary_listed _ _ (by rwa [hall])
    split
    · rwa [gangEnd_mem]
    · rw [deadlockCheck_mem]
      split
      · exact teamEnd_listed _ _ _ _ ht
      · rwa [tbarTest_mem]

@[simp] theorem tellStatus_mem (s : State) (id tc : Nat) : (s.tellStatus id tc).mem = s.mem := (rfl)

@[simp] theorem launchDone_listed (s : State) (id : Nat) (l : Launch) (h : Listed s.mem) : Listed (s.launchDone id l).mem := by
  grind [State.launchDone, tellStatus_mem, svcAccess_listed, State.addErr_mem, State.forget_mem, svcAsk_listed]

@[simp] theorem swapGroups_mem (s : State) (out inn : Nat) : (s.swapGroups out inn).mem = s.mem := (rfl)

/-! ### Pre-emption (R45 to R48) -/

@[simp] theorem raisePoison_mem (s : State) (gid fuel : Nat) : (s.raisePoison gid fuel).mem = s.mem := by
  induction fuel generalizing s with
  | zero => rfl
  | succ n ih => grind [State.raisePoison, State.updGrp_mem, State.addErr_mem, queueTrap_mem]

@[simp] theorem saveBytes_mem (s : State) (ctx a : Nat) (bs : List Byte) : (s.saveBytes ctx a bs).mem = s.mem := (rfl)

@[simp] theorem writeGroups_mem (s : State) (ctx start : Nat) (es : List (Nat × Group)) : (s.writeGroups ctx start es).2.mem = s.mem := by
  fun_induction State.writeGroups s ctx start es <;> simp_all

@[simp] theorem writeGangs_mem (s : State) (ctx start : Nat) (es : List (Nat × Gang)) : (s.writeGangs ctx start es).mem = s.mem := by
  fun_induction State.writeGangs s ctx start es <;> simp_all

@[simp] theorem stowTiles_mem (s : State) (ctx : Nat) : (s.stowTiles ctx).mem = s.mem := by
  refine foldl_mem _ (fun s e => foldl_mem _ (fun s t => ?_) _ _) _ _
  dsimp only
  split <;> rfl

@[simp] theorem stowGroup_mem (s : State) (gid : Nat) : (s.stowGroup gid).mem = s.mem := by
  unfold State.stowGroup
  dsimp only
  (repeat' split) <;> simp

@[simp] theorem rewait_mem (s : State) (gid : Nat) : (s.rewait gid).mem = s.mem := by
  unfold State.rewait
  (repeat' split) <;> simp

@[simp] theorem regrant_mem (s : State) (gid : Nat) : (s.regrant gid).mem = s.mem := by
  unfold State.regrant
  split <;> simp

theorem restoreGroup_mem {s t : State} {gid cluster core d : Nat} {move : Nat → Nat}
    (he : s.restoreGroup gid cluster core d move = some t) :
    t.mem = s.mem := by
  grind [State.restoreGroup, State.updGrp_mem, rewait_mem, regrant_mem]

theorem restoreGroups_mem {s t : State} {cluster d : Nat} {coreOf move : Nat → Nat} {es : List (Nat × Group)}
    (he : s.restoreGroups cluster d coreOf move es = some t) : t.mem = s.mem := by
  induction es generalizing s with
  | nil => cases he; rfl
  | cons e es ih =>
    unfold State.restoreGroups at he
    split at he
    · cases he
    next hone => exact (ih he).trans (restoreGroup_mem hone)

theorem restoreTiles_mem {s t : State} {gang : Nat} {coreOf : Nat → Nat} {xs : List SavedTiles}
    (he : s.restoreTiles gang coreOf xs = some t) :
    t.mem = s.mem := by
  induction xs generalizing s with
  | nil => cases he; rfl
  | cons x xs ih => grind [State.restoreTiles, State.updCore_mem]

theorem restoreGang_mem {s t : State} {gk : Nat} {k : Gang} {d : Nat} {p : Place} (he : s.restoreGang gk k d p = some t) :
    t.mem = s.mem := by
  unfold State.restoreGang at he
  dsimp only at he
  split at he
  · cases he
  · obtain ⟨u, hu, ht⟩ := Option.bind_eq_some_iff.1 he
    refine (restoreTiles_mem ht).trans ((restoreGroups_mem hu).trans ?_)
    exact foldl_mem _ (fun s t => by simp) _ _

theorem restoreGangs_mem {s t : State} {d : Nat} {gs : List (Nat × Gang)} {ps : List Place} (he : s.restoreGangs d gs ps = some t) :
    t.mem = s.mem := by
  induction gs generalizing s ps with
  | nil =>
    cases ps with
    | nil => cases he; rfl
    | cons p ps => cases he
  | cons g gs ih =>
    cases ps with
    | nil => cases he
    | cons p ps =>
      obtain ⟨u, hu, ht⟩ := Option.bind_eq_some_iff.1 he
      exact (ih ht).trans (restoreGang_mem hu)

/-! ### Queues and active messages (R250 to R258) -/

@[simp] theorem queueRefuse_mem (s : State) (id : Nat) (o : Op) (q : QueueOp) : (s.queueRefuse id o q).mem = s.mem := by
  unfold State.queueRefuse
  dsimp only
  (repeat' split) <;> simp

@[simp] theorem queueDone_mem (s : State) (id : Nat) (o : Op) (q : QueueOp) : (s.queueDone id o q).mem = s.mem := (rfl)

@[simp] theorem setQueue_mem (s : State) (id : Nat) (q : QueueOp) : (s.setQueue id q).mem = s.mem := (rfl)

@[simp] theorem updQd_mem (s : State) (qh : Handle) (f : QDesc → QDesc) : (s.updQd qh f).mem = s.mem := (rfl)

@[simp] theorem queueStall_mem (s : State) (qh : Handle) (va : DWord) (outcome : Nat) : (s.queueStall qh va outcome).mem = s.mem := by
  unfold State.queueStall
  split <;> simp

@[simp] theorem queueWake_listed (s : State) (id : Nat) (o : Op) (q : QueueOp) (qh : Handle) (h : Listed s.mem) :
    Listed (s.queueWake id o q qh).mem := by
  grind [State.queueWake, queueDone_mem, svcAccess_listed, setQueue_mem, queueStall_mem]

@[simp] theorem serveQueue_listed (s : State) (id : Nat) (o : Op) (qh : Handle) (q : QueueOp) (todo : List (Nat × Nat)) (h : Listed s.mem) :
    Listed (s.serveQueue id o qh q todo).mem := by
  induction todo generalizing s q with
  | nil => exact queueWake_listed _ _ _ _ _ h
  | cons e rest ih => grind [State.serveQueue, svcAccess_listed, queueDone_mem, setQueue_mem, State.forget_mem, queueStall_mem, updQd_mem]

@[simp] theorem beginQueue_listed (s : State) (id : Nat) (o : Op) (qh : Handle) (q : QueueOp) (h : Listed s.mem) :
    Listed (s.beginQueue id o qh q).mem := by
  grind [State.beginQueue, queueDone_mem, serveQueue_listed, setQueue_mem]

@[simp] theorem queueStep_listed (s : State) (id : Nat) (o : Op) (q : QueueOp) (h : Listed s.mem) : Listed (s.queueStep id o q).mem := by
  unfold State.queueStep
  dsimp only
  (repeat' split) <;> simp [h]

@[simp] theorem retry_listed (s : State) (tag : WakeTag) (todo : List (Nat × Acc)) (h : Listed s.mem) : Listed (s.retry tag todo).mem := by
  induction todo generalizing s with
  | nil => exact h
  | cons e rest ih => grind [State.retry, performAcc_listed, closeOp_mem, sendLink_mem]

@[simp] theorem dropAgentL1_mem (s : State) (agent line : Nat) : (s.dropAgentL1 agent line).mem = s.mem := by
  unfold State.dropAgentL1
  split <;> simp

@[simp] theorem replayWake_listed (s : State) (slice : Nat) (tag : WakeTag) (h : Listed s.mem) : Listed (s.replayWake slice tag).mem := by
  unfold State.replayWake
  simp [h]

@[simp] theorem amBatch_listed (s : State) (qh : Handle) (want : Option Nat) (i fuel : Nat) (h : Listed s.mem) :
    Listed (s.amBatch qh want i fuel).2.mem := by
  induction fuel generalizing s want i with
  | zero => exact h
  | succ n ih => grind [State.amBatch, svcAccess_listed]

@[simp] theorem startHandler_listed (s : State) (qh : Handle) (core ctx : Nat) (hd : Nat × Nat × Nat × Nat) (ms : List Nat)
    (h : Listed s.mem) :
    Listed (s.startHandler qh core ctx hd ms).mem := by
  unfold State.startHandler
  simp [h]

/-! ### Copies and barrier objects (R293 to R303) -/

theorem copyEnd_listed {s : State} {core ch : Nat} {q : CopyReq} {last : State → State} (hlast : ∀ s, Listed s.mem → Listed (last s).mem)
    (h : Listed s.mem) : Listed (s.copyEnd core ch q last).mem := by
  grind [State.copyEnd, updChan_mem, spWrite_mem, endOp_mem, teamFreed_listed]

@[simp] theorem chunkErrs_mem (s : State) (ctx rec_ first n code : Nat) : (s.chunkErrs ctx rec_ first n code).mem = s.mem := by
  unfold State.chunkErrs
  dsimp only
  (repeat' split) <;> simp [foldl_mem]

@[simp] theorem boCount_mem (s : State) (q : CopyReq) (bytes failed tc : Nat) : (s.boCount q bytes failed tc).mem = s.mem := by
  unfold State.boCount
  dsimp only
  (repeat' split) <;> simp

@[simp] theorem updHead_mem (s : State) (core ch : Nat) (f : CopyReq → CopyReq) : (s.updHead core ch f).mem = s.mem := (rfl)

@[simp] theorem sidePlace_listed (s : State) (q : CopyReq) (side : Side) (base a : Nat) (need : Need) (h : Listed s.mem) :
    Listed (s.sidePlace q side base a need).2.mem := by
  cases side <;> grind [State.sidePlace, translate_listed]

@[simp] theorem placePieces_listed (s : State) (core : Nat) (q : CopyReq) (ss ds : Side) (todo : List (Nat × Nat × Nat))
    (h : Listed s.mem) :
    Listed (s.placePieces core q ss ds todo).2.mem := by
  induction todo generalizing s with
  | nil => exact h
  | cons e ps ih => grind [State.placePieces, sidePlace_listed]

@[simp] theorem dropFlight_mem (s : State) (f : Flight) : (s.dropFlight f).mem = s.mem := (rfl)

@[simp] theorem spoil_listed (s : State) (core : Nat) (todo : List Piece) (h : Listed s.mem) : Listed (s.spoil core todo).mem := by
  induction todo generalizing s with
  | nil => exact h
  | cons p ps ih => grind [State.spoil, updTile_mem, perform_listed]

@[simp] theorem endFlight_listed (s : State) (core : Nat) (f : Flight) (r : ChunkRes) (h : Listed s.mem) :
    Listed (s.endFlight core f r).2.mem := by
  grind [State.endFlight, dropFlight_mem, spoil_listed]

@[simp] theorem sendParts_mem (s : State) (core : Nat) (q : CopyReq) (kind : MemKind) (elems : Nat → Nat) (ps : List Part) :
    (s.sendParts core q kind elems ps).2.mem = s.mem := by
  unfold State.sendParts
  exact foldl_snd_mem _ (fun p n => by simp) _ _

@[simp] theorem startReads_listed (s : State) (core : Nat) (q : CopyReq) (f : Flight) (h : Listed s.mem) :
    Listed (s.startReads core q f).2.mem := by
  have hplace := placePieces_listed s core q q.srcSide q.dstSide (chunkPieces q.r f.chunk) h
  unfold State.startReads
  dsimp only
  split
  next he =>
    rwa [he] at hplace
  next he =>
    rw [he] at hplace
    split
    · split
      · refine endFlight_listed _ _ _ _ (foldl_listed _ (fun s t hs => ?_) _ ?_)
        · rwa [storageError_mem]
        · rwa [stamp_mem]
      · simpa using hplace
    · simpa using hplace

@[simp] theorem startWrites_listed (s : State) (core : Nat) (q : CopyReq) (f : Flight) (h : Listed s.mem) :
    Listed (s.startWrites core q f).2.mem := by
  have hdrop : Listed (s.dropFlight f).mem := by simpa using h
  unfold State.startWrites
  dsimp only
  split
  · exact endFlight_listed _ _ _ _ hdrop
  split
  · exact hdrop
  split
  · refine foldl_listed _ (fun s p hs => ?_) _ hdrop
    split
    · simpa using hs
    · exact hs
  · simpa using hdrop

@[simp] theorem endWrites_listed (s : State) (core : Nat) (q : CopyReq) (f : Flight) (h : Listed s.mem) :
    Listed (s.endWrites core q f).2.mem := by
  unfold State.endWrites
  simp [h]

@[simp] theorem advanceFlight_listed (s : State) (core : Nat) (q : CopyReq) (ahead : Bool) (f : Flight) (h : Listed s.mem) :
    Listed (s.advanceFlight core q ahead f).2.mem := by
  unfold State.advanceFlight
  (repeat' split) <;> simp [h]

@[simp] theorem advanceFlights_listed (s : State) (core : Nat) (q : CopyReq) (ahead : Bool) (fs : List Flight) (h : Listed s.mem) :
    Listed (s.advanceFlights core q ahead fs).2.mem := by
  induction fs generalizing s ahead with
  | nil => exact h
  | cons f fs ih => exact ih _ _ (advanceFlight_listed _ _ _ _ _ h)

@[simp] theorem reportChunk_listed (s : State) (core ch : Nat) (q : CopyReq) (c : Nat) (r : ChunkRes) (h : Listed s.mem) :
    Listed (s.reportChunk core ch q c r).mem := by
  grind [State.reportChunk, updHead_mem, State.addErr_mem, notify_mem, boCount_mem, copyEnd_listed]

/-! ### The death of members (R317) -/

@[simp] theorem bump_listed (s : State) (mk key n by_ : Nat) (h : Listed s.mem) : Listed (s.bump mk key n by_).mem := by
  unfold State.bump
  simp [h]

@[simp] theorem taint_listed (s : State) (key ctx : Nat) (st : Stream) (added chunks : Nat) (h : Listed s.mem) :
    Listed (s.taint key ctx st added chunks).mem := by
  grind [State.taint, put48_listed, bump_listed, State.addErr_mem]

@[simp] theorem abandonFlight_mem (s : State) (f : Flight) : (s.abandonFlight f).mem = s.mem := (rfl)

@[simp] theorem cutStream_listed (s : State) (key : Nat) (e : Nat × Op × Opnd × Word × Stream) (h : Listed s.mem) :
    Listed (s.cutStream key e).mem := by
  unfold State.cutStream
  split
  · exact h
  next m hm =>
    dsimp only
    have habandon : ∀ (s : State) (qs : List CopyReq), (qs.foldl (fun s q => q.flight.foldl (fun s f =>
      s.abandonFlight f) s) s).mem = s.mem :=
      fun s qs => foldl_mem _ (fun s q => foldl_mem _ (fun s f => abandonFlight_mem s f) _ _) _ _
    rw [endOp_mem]
    have hrest : ∀ (t : State) b, Listed t.mem → Listed (if b = true then t.addErr e.2.1.ctx (.item e.2.2.2.2.buf 0xC) else t).mem := by
      intro t b ht
      split
      · simpa using ht
      · exact ht
    split
    · exact hrest _ _ (by simpa [habandon] using h)
    · exact taint_listed _ _ _ _ _ _ (hrest _ _ (by simpa [habandon] using h))

/-! ### Gates (R330 to R339) -/

@[simp] theorem postSysc_mem (s : State) (gid : Nat) : (s.postSysc gid).mem = s.mem := by
  unfold State.postSysc
  dsimp only
  (repeat' split) <;> simp

theorem packGroups_mem {s t : State} {used : List (Nat × Nat)} {gs : List Nat} (he : s.packGroups used gs = some t) : t.mem = s.mem := by
  induction gs generalizing s used with
  | nil => cases he; rfl
  | cons g gs ih => grind [State.packGroups, State.updGrp_mem]

theorem findPlace_mem {s t : State} {core kib : Nat} {p : Nat × Nat} (he : s.findPlace core kib = some (p, t)) : t.mem = s.mem := by
  unfold State.findPlace at he
  dsimp only at he
  split at he
  · cases he
    rfl
  · obtain ⟨u, hu, ht⟩ := Option.bind_eq_some_iff.1 he
    obtain ⟨q, -, hq⟩ := Option.map_eq_some_iff.1 ht
    cases hq
    exact packGroups_mem hu

@[simp] theorem enterGate_mem (s : State) (gid : Nat) (g : Group) (w : GateWait) (place : Nat × Nat) :
    (s.enterGate gid g w place).mem = s.mem := (rfl)

@[simp] theorem endCall_mem (s : State) (gid : Nat) (results : Bool) (status cause : Nat) :
    (s.endCall gid results status cause).mem = s.mem := by
  unfold State.endCall
  dsimp only
  (repeat' split) <;> simp

@[simp] theorem dropWait_mem (s : State) (g : Group) : (s.dropWait g).mem = s.mem := by
  unfold State.dropWait
  split <;> simp

@[simp] theorem unwindFrame_mem (s : State) (gid depth status cause : Nat) : (s.unwindFrame gid depth status cause).mem = s.mem := by
  unfold State.unwindFrame
  (repeat' split) <;> simp

@[simp] theorem performUnwind_mem (s : State) (gid depth status cause : Nat) : (s.performUnwind gid depth status cause).mem = s.mem := by
  unfold State.performUnwind
  split <;> simp [foldl_mem]

@[simp] theorem unwindStep_mem (s : State) (gid : Nat) (g : Group) (depth status cause : Nat) (fenced : Bool) :
    (s.unwindStep gid g depth status cause fenced).mem = s.mem := by
  unfold State.unwindStep
  dsimp only
  (repeat' split) <;> simp

/-! ### The hub and its windows (R349 to R353) -/

@[simp] theorem updPort_mem (s : State) (p : Nat) (f : Port → Port) : (s.updPort p f).mem = s.mem := (rfl)

@[simp] theorem issueCmd_mem (s : State) (p : Nat) (c : Command) : (s.issueCmd p c).mem = s.mem := by
  unfold State.issueCmd
  split <;> simp

@[simp] theorem issueHeld_mem (s : State) (p : Nat) : (s.issueHeld p).mem = s.mem := by
  unfold State.issueHeld
  (repeat' split) <;> simp

@[simp] theorem cmdDone_mem (s : State) (p status : Nat) : (s.cmdDone p status).mem = s.mem := by
  unfold State.cmdDone
  simp

@[simp] theorem invalidate_mem (s : State) (ctx va n mask : Nat) : (s.invalidate ctx va n mask).mem = s.mem := by
  unfold State.invalidate
  simp

@[simp] theorem clearBits_listed (s : State) (p lo hi : Nat) (todo : List Nat) (h : Listed s.mem) :
    Listed (s.clearBits p lo hi todo).2.mem := by
  induction todo generalizing s with
  | nil => exact h
  | cons w ws ih => grind [State.clearBits, ask_listed]

@[simp] theorem harvestLeaf_listed (s : State) (p : Nat) (l : Leaf) (h : Listed s.mem) : Listed (s.harvestLeaf p l).2.mem := by
  grind [State.harvestLeaf, clearBits_listed, ask_listed]

@[simp] theorem harvestRange_listed (s : State) (p root till fuel va : Nat) (h : Listed s.mem) :
    Listed (s.harvestRange p root till fuel va).2.mem := by
  induction fuel generalizing s va with
  | zero => exact h
  | succ n ih => grind [State.harvestRange, harvestLeaf_listed, updPort_mem, State.forget_mem]

@[simp] theorem refreshRecord_mem (s : State) (gid : Nat) : (s.refreshRecord gid).mem = s.mem := by
  unfold State.refreshRecord
  (repeat' split) <;> simp

@[simp] theorem killFrame_mem (s : State) (gid : Nat) (g : Group) (depth : Nat) : (s.killFrame gid g depth).mem = s.mem := by
  unfold State.killFrame
  split <;> simp

@[simp] theorem killFrames_mem (s : State) (id : Nat) : (s.killFrames id).mem = s.mem :=
  foldl_mem _ (fun s e => by grind [killFrame_mem]) _ _

theorem execLaunchComplete_listed (launch : Nat) (s : State) (h : Listed s.mem) : NextListed (execLaunchComplete launch s) := by
  unfold execLaunchComplete
  show Listed (State.mem _)
  grind [launchDone_listed]

@[simp] theorem endLaunches_listed (s : State) (id : Nat) (h : Listed s.mem) : Listed (s.endLaunches id).mem := by
  unfold State.endLaunches
  refine foldl_listed _ (fun s (e : Nat × Launch) hs => ?_) _ h
  exact execLaunchComplete_listed e.1 s hs

@[simp] theorem cancelOp_mem (s : State) (id : Nat) (o : Op) : (s.cancelOp id o).mem = s.mem := by
  unfold State.cancelOp
  split
  · exact foldl_mem _ (fun s a => by split <;> simp) _ _
  · simp
  · simp
  · simp
  · simp
  · simp
  · exact (foldl_mem _ (fun s a => by simp) _ _).trans (foldl_mem _ (fun s a => by simp) _ _)
  · simp
  · rfl
  · rfl
  · rfl

@[simp] theorem cancelReq_mem (s : State) (q : CopyReq) : (s.cancelReq q).mem = s.mem := by
  unfold State.cancelReq
  (repeat' split) <;> simp [foldl_mem]

@[simp] theorem cancelReqs_mem (s : State) (p : CopyReq → Bool) : (s.cancelReqs p).mem = s.mem :=
  foldl_mem _ (fun _ _ => foldl_mem _ (fun _ _ => foldl_mem _ (fun s q => cancelReq_mem s q) _ _) _ _) _ _

@[simp] theorem killGroup_listed (s : State) (gid : Nat) (h : Listed s.mem) : Listed (s.killGroup gid).mem := by
  unfold State.killGroup
  simp [h]

@[simp] theorem killLaunch_mem (s : State) (id : Nat) : (s.killLaunch id).mem = s.mem := (rfl)

@[simp] theorem killQueues_mem (s : State) (id : Nat) : (s.killQueues id).mem = s.mem := foldl_mem _ (fun s x => by simp) _ _

@[simp] theorem performKill_listed (s : State) (id : Nat) (h : Listed s.mem) : Listed (s.performKill id).mem := by
  unfold State.performKill
  dsimp only
  rw [killQueues_mem]
  refine foldl_listed _ (fun s e hs => by simpa using hs) _ ?_
  refine foldl_listed _ (fun s e hs => foldl_listed _ (fun s t hs => ?_) _ hs) _ ?_
  · split
    · exact teamFreed_listed _ _ _ _ hs
    · exact hs
  refine foldl_listed _ (fun s e hs => killGroup_listed _ _ hs) _ ?_
  dsimp only
  rw [cancelReqs_mem]
  exact foldl_listed _ (fun s e hs => by simpa using hs) _ h

@[simp] theorem endCtx_mem (s : State) (id : Nat) : (s.endCtx id).mem = s.mem := (rfl)

@[simp] theorem unresolvable_mem (s : State) (gid e : Nat) (g : Group) (x : LogEntry) : (s.unresolvable gid e g x).mem = s.mem := by
  grind [State.unresolvable, State.updGrp_mem, queueTrap_mem, refreshRecord_mem]

@[simp] theorem syscRelease_mem (s : State) (gid a status : Nat) : (s.syscRelease gid a status).mem = s.mem := by
  unfold State.syscRelease
  dsimp only
  (repeat' split) <;> simp

@[simp] theorem writeDirPa_mem (s : State) (slice v : Nat) : (s.writeDirPa slice v).mem = s.mem := by
  unfold State.writeDirPa
  dsimp only
  (repeat' split) <;> simp

@[simp] theorem writeDirIdx_mem (s : State) (slice v : Nat) : (s.writeDirIdx slice v).mem = s.mem := (rfl)

@[simp] theorem refuseReg_mem (s : State) : s.refuseReg.mem = s.mem := (rfl)

@[simp] theorem writeGlobal_mem (s : State) (r v : Nat) : (s.writeGlobal r v).mem = s.mem := by
  unfold State.writeGlobal
  dsimp only
  (repeat' split) <;> simp

@[simp] theorem writePort_mem (s : State) (p r v : Nat) : (s.writePort p r v).mem = s.mem := by
  unfold State.writePort
  dsimp only
  (repeat' split) <;> simp

@[simp] theorem flushRing_mem (s : State) (k : Nat) (todo : List (Nat × Notice)) : (s.flushRing k todo).mem = s.mem := by
  fun_induction State.flushRing s k todo <;> simp_all

@[simp] theorem writeRing_mem (s : State) (k r v : Nat) : (s.writeRing k r v).mem = s.mem := by
  unfold State.writeRing
  dsimp only
  (repeat' split) <;> simp

@[simp] theorem deviceErr_mem (s : State) (off v : Nat) : (s.deviceErr off v).mem = s.mem := (rfl)

@[simp] theorem writeQd_mem (s : State) (k q r off v : Nat) : (s.writeQd k q r off v).mem = s.mem := by
  unfold State.writeQd
  dsimp only
  (repeat' split) <;> simp

@[simp] theorem writeSlice_mem (s : State) (k r off v : Nat) : (s.writeSlice k r off v).mem = s.mem := by
  simp [State.writeSlice, apply_ite State.mem]

@[simp] theorem writeTrsel_mem (s : State) (core value : Nat) : (s.writeTrsel core value).mem = s.mem := by
  unfold State.writeTrsel
  simp

@[simp] theorem writeDbg_mem (s : State) (k r v : Nat) : (s.writeDbg k r v).mem = s.mem := by
  simp [State.writeDbg, apply_ite State.mem]

@[simp] theorem writeWord_mem (s : State) (off v : Nat) : (s.writeWord off v).mem = s.mem := by
  unfold State.writeWord
  dsimp only
  (repeat' split) <;> simp

@[simp] theorem cutLink_mem (s : State) : s.cutLink.mem = s.mem := (rfl)

/-! ### Resets, links and storage (R358 to R370) -/

@[simp] theorem resetEngines_listed (s : State) (h : Listed s.mem) : Listed s.resetEngines.mem := mwf_filter _ _ _ h

@[simp] theorem failHost_mem (s : State) : s.failHost.mem = s.mem := (rfl)

@[simp] theorem mapAccs_mem (s : State) (f : Acc → Acc) : (s.mapAccs f).mem = s.mem := by
  unfold State.mapAccs
  simp [foldl_mem]

@[simp] theorem linkTimeout_mem (s : State) : s.linkTimeout.mem = s.mem := by
  unfold State.linkTimeout
  split <;> simp

@[simp] theorem toLantern_mem (s : State) (stage unit code : Nat) : (s.toLantern stage unit code).mem = s.mem := (rfl)

@[simp] theorem acceptRecord_mem (s : State) : s.acceptRecord.mem = s.mem := (rfl)

@[simp] theorem rehome_listed (s : State) (h : Listed s.mem) : Listed s.rehome.mem :=
  foldl_listed _ (fun _ _ hs => storeLabel_listed _ _ _ hs) _ h

@[simp] theorem nvmePost_mem (s : State) (lease cid status : Nat) : (s.nvmePost lease cid status).mem = s.mem := (rfl)

@[simp] theorem dma_listed (s : State) (tag : Nat × Nat) (kind : MemKind) (todo : List (Nat × Nat × Nat)) (h : Listed s.mem) :
    Listed (s.dma tag kind todo).2.mem := by
  induction todo generalizing s with
  | nil => exact h
  | cons e ls ih => grind [State.dma, ask_listed]

@[simp] theorem stopFlash_mem (s : State) (k ctx va outcome : Nat) : (s.stopFlash k ctx va outcome).mem = s.mem := by
  unfold State.stopFlash
  simp

@[simp] theorem ioHold_mem (s : State) (core slot x : Nat) : (s.ioHold core slot x).mem = s.mem := (rfl)

@[simp] theorem flashDo_listed (s : State) (tag : Nat × Nat) (ctx : Nat) (q : FlashReq) (h : Listed s.mem) :
    Listed (s.flashDo tag ctx q).2.mem := by
  unfold State.flashDo
  dsimp only
  split
  · grind [dma_listed]
  · grind [dma_listed]
  · exact h
  · exact h

@[simp] theorem spdm_mem (s : State) (code : Nat) (ok : Bool) (data : List Byte) : (s.spdm code ok data).mem = s.mem := (rfl)

/-! ### What is left of accesses, meetings and tiles -/

@[simp] theorem cinvLine_mem (s : State) (g : Group) (sc : Scope) (key : Nat) : (s.cinvLine g sc key).mem = s.mem := (rfl)

@[simp] theorem endResult_mem (s : State) (op : Nat) (d : Opnd) (lanes : Word) (st : Nat) : (s.endResult op d lanes st).mem = s.mem := (rfl)

@[simp] theorem statusReturn_mem (s : State) (op : Nat) (o : Op) : (s.statusReturn op o).mem = s.mem := by
  unfold State.statusReturn
  dsimp only
  (repeat' split) <;> simp

@[simp] theorem landQuad_mem (s : State) (core t o : Nat) (ds : List Nat) : (s.landQuad core t o ds).mem = s.mem := by
  unfold State.landQuad
  split
  · rfl
  · simp
  · rw [updTile_mem]
    refine foldl_snd_mem _ (fun p i => ?_) _ _
    dsimp only
    rw [choose_mem]

/-! ### Reads of the window, and what stands in an agenda -/

@[simp] theorem slew_mem (s : State) (kind unit lag : Nat) : (s.slew kind unit lag).mem = s.mem := by
  unfold State.slew
  dsimp only
  (repeat' split) <;> simp

/-- A read of SL_DIRENT0 latches an entry of the directory. -/
theorem execSlDirent0Read_mem (slice : Nat) (s : State) : ∃ t, execSlDirent0Read slice s = .next t ∧ t.mem = s.mem := by
  refine ⟨_, rfl, ?_⟩
  split
  · rfl
  · rfl

@[simp] theorem readWindow_mem (s : State) (off bytes : Nat) : (s.readWindow off bytes).2.mem = s.mem := by
  obtain ⟨t, hread, hmem⟩ := execSlDirent0Read_mem ((off - 0x1000000) / 0x10000) s
  unfold State.readWindow
  split
  · simp only [hread]
    split
    · rw [apply_ite State.mem, hmem, ite_self]
    · rw [refuseReg_mem, apply_ite State.mem, hmem, ite_self]
  · exact refuseReg_mem s

@[simp] theorem sysAccess_mem (s : State) (core : Nat) (kind : MemKind) (key width data data2 : Nat) :
    (s.sysAccess core kind key width data data2).mem = s.mem := by
  unfold State.sysAccess
  dsimp only
  (repeat' split) <;> simp

@[simp] theorem hostAccess_mem (s : State) (kind : MemKind) (key width data data2 : Nat) :
    (s.hostAccess kind key width data data2).mem = s.mem := by
  unfold State.hostAccess
  split <;> simp

@[simp] theorem routeBack_mem (s : State) (dev : Nat) : (s.routeBack dev).mem = s.mem := (rfl)

@[simp] theorem traceIssue_listed (s : State) (gid : Nat) (pc : DWord) (word0 act : Word) (uni paired : Bool) (h : Listed s.mem) :
    Listed (s.traceIssue gid pc word0 act uni paired).mem := by
  unfold State.traceIssue
  dsimp only
  (repeat' split) <;> simp [h]

@[simp] theorem issued_listed (s : State) (c : Cur) (cands act : Word) (uni paired : Bool) (h : Listed s.mem) :
    Listed (s.issued c cands act uni paired).mem := by
  grind [State.issued, State.updGrp_mem, freeEntry_mem, traceIssue_listed]

/-! ### Events -/

theorem hubCmd_listed {f : Command → State → State} (hf : ∀ c s, Listed s.mem → Listed (f c s).mem) {code p : Nat} {s : State}
    (h : Listed s.mem) : NextListed (hubCmd code p f s) := by
  unfold hubCmd
  show Listed (State.mem _)
  split
  · split
    · exact hf _ _ h
    · exact h
  · exact h

theorem hubCtxCmd_listed {f : Command → Nat → Ctx → State → State} (hf : ∀ c k x s, Listed s.mem → Listed (f c k x s).mem) {code p : Nat}
    {s : State}
    (h : Listed s.mem) : NextListed (hubCtxCmd code p f s) := by
  refine hubCmd_listed (fun c s h => ?_) h
  split
  · exact hf _ _ _ _ h
  · rwa [cmdDone_mem]

theorem execGrowGrant_listed (core : Nat) (s : State) (h : Listed s.mem) : NextListed (execGrowGrant core s) := by
  unfold execGrowGrant
  show Listed (State.mem _)
  grind [growTo_mem]

theorem execGrowTimeout_listed (gid : Nat) (s : State) (h : Listed s.mem) : NextListed (execGrowTimeout gid s) := by
  unfold execGrowTimeout
  show Listed (State.mem _)
  grind [refuseGrow_mem]

theorem execLoadDataArrival_listed (op : Nat) (s : State) (h : Listed s.mem) : NextListed (execLoadDataArrival op s) := by
  unfold execLoadDataArrival
  show Listed (State.mem _)
  grind [stackEnd_mem, loadArrival_mem]

theorem execStoreCommitReport_listed (op : Nat) (s : State) (h : Listed s.mem) : NextListed (execStoreCommitReport op s) := by
  unfold execStoreCommitReport
  show Listed (State.mem _)
  simp [h]

theorem execFenceComplete_listed (gid : Nat) (s : State) (h : Listed s.mem) : NextListed (execFenceComplete gid s) := by
  unfold execFenceComplete
  show Listed (State.mem _)
  grind [amdoneEnd_mem, fenceComplete_mem]

theorem execWaitReturn_listed (gid : Nat) (s : State) (h : Listed s.mem) : NextListed (execWaitReturn gid s) := by
  unfold execWaitReturn
  show Listed (State.mem _)
  grind [State.updGrp_mem]

theorem execWalkEnd_listed (gid : Nat) (s : State) (h : Listed s.mem) : NextListed (execWalkEnd gid s) := by
  unfold execWalkEnd
  show Listed (State.mem _)
  simp [h]

theorem execOperandLogReissue_listed (gid entry : Nat) (s : State) (h : Listed s.mem) : NextListed (execOperandLogReissue gid entry s) := by
  unfold execOperandLogReissue
  show Listed (State.mem _)
  grind [State.updGrp_mem]

theorem execLabelVerdict_listed (gid : Nat) (s : State) (h : Listed s.mem) : NextListed (execLabelVerdict gid s) := by
  unfold execLabelVerdict
  show Listed (State.mem _)
  grind [stackEnd_mem, labelVerdict_mem]

theorem execTrapDelivery_listed (gid : Nat) (s : State) (h : Listed s.mem) : NextListed (execTrapDelivery gid s) := by
  unfold execTrapDelivery
  show Listed (State.mem _)
  simp [h]

theorem execMwaitTimeout_listed (gid : Nat) (s : State) (h : Listed s.mem) : NextListed (execMwaitTimeout gid s) := by
  unfold execMwaitTimeout
  show Listed (State.mem _)
  grind [State.updGrp_mem, disarm_mem]

theorem execBowaitReturn_listed (gid : Nat) (s : State) (h : Listed s.mem) : NextListed (execBowaitReturn gid s) := by
  unfold execBowaitReturn
  show Listed (State.mem _)
  grind [State.updGrp_mem]

theorem execBowaitTimeout_listed (gid : Nat) (s : State) (h : Listed s.mem) : NextListed (execBowaitTimeout gid s) := by
  unfold execBowaitTimeout
  show Listed (State.mem _)
  grind [State.updGrp_mem]

theorem execSqsigAdd_listed (who : Who) (s : State) (h : Listed s.mem) : NextListed (execSqsigAdd who s) := by
  unfold execSqsigAdd
  show Listed (State.mem _)
  grind [State.updGrp_mem, signalAdd_mem]

theorem execSqwaitReturn_listed (who : Who) (s : State) (h : Listed s.mem) : NextListed (execSqwaitReturn who s) := by
  unfold execSqwaitReturn
  show Listed (State.mem _)
  grind [sqwaitTry_mem]

theorem execSqwaitTimeout_listed (who : Who) (s : State) (h : Listed s.mem) : NextListed (execSqwaitTimeout who s) := by
  unfold execSqwaitTimeout
  show Listed (State.mem _)
  grind [seqFault_mem, queueTrap_mem, State.updGrp_mem]

theorem execTileStateReached_listed (who : Who) (s : State) (h : Listed s.mem) : NextListed (execTileStateReached who s) := by
  unfold execTileStateReached
  show Listed (State.mem _)
  grind [tileGo_listed, State.updGrp_mem, mxTry_mem, endOp_mem]

theorem execTileWait_listed (who : Who) (s : State) (h : Listed s.mem) : NextListed (execTileWait who s) := by
  unfold execTileWait
  show Listed (State.mem _)
  split <;> grind [queueTrap_mem, State.updGrp_mem, seqFault_mem, endOp_mem]

theorem execSeqOpExecute_listed (core : Nat) (s : State) (h : Listed s.mem) : NextListed (execSeqOpExecute core s) := by
  unfold execSeqOpExecute
  show Listed (State.mem _)
  grind [mxStart_mem, noteEnds_mem, State.updCore_mem]

theorem execSeqOpComplete_listed (gang op : Nat) (s : State) (h : Listed s.mem) : NextListed (execSeqOpComplete gang op s) := by
  unfold execSeqOpComplete
  show Listed (State.mem _)
  split
  · exact h
  split
  · split
    · split
      · simpa using h
      · split <;> simpa using h
    · dsimp only
      split
      · exact h
      · refine foldl_listed _ (fun s t hs => ?_) _ ?_
        · split
          · exact hs
          · exact freeTeamTiles_listed _ _ _ _ _ hs
        · rw [endOp_mem]
          refine listed_of_mem h ((foldl_mem _ (fun s c => State.updCore_mem s c _) _ _).trans
            (foldl_mem _ (fun s c => noteEnds_mem s c) _ _))
  · exact h

theorem execLaunchRecordDequeue_listed (q : Nat) (s : State) (h : Listed s.mem) : NextListed (execLaunchRecordDequeue q s) := by
  unfold execLaunchRecordDequeue
  show Listed (State.mem _)
  split
  · exact h
  dsimp only
  split
  · exact h
  split
  next he => exact h.svcAccess he
  next he => simpa using h.svcAccess he
  next he =>
    have h1 := h.svcAccess he
    split
    · simpa using h1
    split
    · simpa using h1
    split
    next he => exact h1.svcAccess he
    next he => simpa using h1.svcAccess he
    next he =>
      have h2 := h1.svcAccess he
      split
      next he => exact h2.svcAccess he
      next he => simpa using h2.svcAccess he
      next he => simpa using h2.svcAccess he

theorem execDependenceMet_listed (q which : Nat) (s : State) (h : Listed s.mem) : NextListed (execDependenceMet q which s) := by
  unfold execDependenceMet
  show Listed (State.mem _)
  grind [svcAccess_listed, reject_mem, State.forget_mem, priorityPreempt_mem]

theorem execGangAdmit_listed (q : Nat) (places : List Place) (s : State) (h : Listed s.mem) : NextListed (execGangAdmit q places s) := by
  unfold execGangAdmit
  show Listed (State.mem _)
  split
  · exact h
  · split <;> grind [readTemplate_listed, startGangs_listed, priorityPreempt_mem]

theorem execLnchAppend_listed (op : Nat) (s : State) (h : Listed s.mem) : NextListed (execLnchAppend op s) := by
  unfold execLnchAppend
  show Listed (State.mem _)
  have hf : ∀ o : Op, Listed (s.startFence o.gid .device).mem := fun o => by simpa using h
  split
  · exact h
  next o ho =>
    split
    · dsimp only
      have h0 := hf o
      generalize s.startFence o.gid .device = t at h0 ⊢
      split
      all_goals
        split
        · exact h0
        split
        · simpa using h0
        split
        · simpa using h0
        split
        next he => exact h0.svcAccess he
        next he => simpa using h0.svcAccess he
        next he =>
          have h1 := h0.svcAccess he
          split
          next he => exact h1.svcAccess he
          next he => simpa using h1.svcAccess he
          next he =>
            have h2 := h1.svcAccess he
            split
            · simpa using h2
            split
            next he => exact h2.svcAccess he
            next he => simpa using h2.svcAccess he
            next he =>
              have h3 := h2.svcAccess he
              split
              next he => exact h3.svcAccess he
              next he => simpa using h3.svcAccess he
              next he => simpa using h3.svcAccess he
    · exact h

theorem execGroupEnd_listed (gid : Nat) (s : State) (h : Listed s.mem) : NextListed (execGroupEnd gid s) := by
  unfold execGroupEnd
  show Listed (State.mem _)
  grind [groupGone_listed]

theorem execGroupSwap_listed (gout gin : Nat) (s : State) (h : Listed s.mem) : NextListed (execGroupSwap gout gin s) := by
  unfold execGroupSwap
  show Listed (State.mem _)
  grind [swapGroups_mem]

theorem execPendingDisplace_listed (gid : Nat) (s : State) (h : Listed s.mem) : NextListed (execPendingDisplace gid s) := by
  unfold execPendingDisplace
  show Listed (State.mem _)
  grind [swapGroups_mem, State.updGrp_mem]

theorem execStarvationGuard_listed (gid : Nat) (s : State) (h : Listed s.mem) : NextListed (execStarvationGuard gid s) := by
  unfold execStarvationGuard
  show Listed (State.mem _)
  grind [State.updGrp_mem]

theorem execPreemptSave_listed (ctx : Nat) (s : State) (h : Listed s.mem) : NextListed (execPreemptSave ctx s) := by
  unfold execPreemptSave
  show Listed (State.mem _)
  dsimp only
  have hraise : ((s.groupsFor ctx).foldl (fun s e => s.raisePoison e.1 (32 * 1024)) s).mem = s.mem :=
    foldl_mem _ (fun s (e : Nat × Group) => raisePoison_mem s e.1 _) _ _
  split
  · exact h
  split
  · exact listed_of_mem h hraise
  · refine listed_of_mem h ((foldl_mem _ (fun s (e : Nat × Group) => by split <;> simp) _ _).trans ?_)
    show (State.stowTiles _ ctx).mem = s.mem
    rw [stowTiles_mem]
    refine (foldl_mem _ (fun s (e : Nat × Group) => stowGroup_mem s e.1) _ _).trans ?_
    rw [writeGangs_mem, writeGroups_mem, hraise]

theorem execContextRestore_listed (ctx : Nat) (places : List Place) (s : State) (h : Listed s.mem) :
    NextListed (execContextRestore ctx places s) := by
  unfold execContextRestore
  show Listed (State.mem _)
  dsimp only
  split
  all_goals
    split
    · exact h
    split
    · exact h
    next t ht =>
      have hmem := restoreGangs_mem ht
      exact listed_of_mem (by rwa [hmem]) (foldl_mem _ (fun s k => deadlockCheck_mem s k 64) _ _)

theorem execDeltaPush_listed (cluster line : Nat) (s : State) (h : Listed s.mem) : NextListed (execDeltaPush cluster line s) := by
  unfold execDeltaPush
  show Listed (State.mem _)
  simp [h]

theorem execOwnershipTransfer_listed (granule : Nat) (s : State) (h : Listed s.mem) : NextListed (execOwnershipTransfer granule s) := by
  unfold execOwnershipTransfer
  show Listed (State.mem _)
  dsimp only
  split
  · split <;> simpa using h
  · have hclose : Listed (s.closeGranule granule).mem := by rwa [closeGranule_mem]
    split
    · rw [State.setGran_mem]
      refine listed_of_mem ?_ (foldl_mem _ (fun s (w : Watch) => fireWake_mem s w.line) _ _)
      exact foldl_listed _ (fun s e hs => finishClose_listed s e.1 hs) _ hclose
    · exact hclose
  · split <;> simpa using h

theorem execDomainJoin_listed (time : Nat) (s : State) (h : Listed s.mem) : NextListed (execDomainJoin time s) := by
  unfold execDomainJoin
  show Listed (State.mem _)
  grind [pass_listed]

theorem execHomeRequest_listed (op lane : Nat) (s : State) (h : Listed s.mem) : NextListed (execHomeRequest op lane s) := by
  unfold execHomeRequest
  show Listed (State.mem _)
  grind [queueStep_listed, homeRequest_listed]

theorem execReopen_listed (region : Nat) (s : State) (h : Listed s.mem) : NextListed (execReopen region s) := by
  unfold execReopen
  show Listed (State.mem _)
  grind [finishClose_listed, retry_listed]

theorem execInvalidationAck_listed (line agent : Nat) (s : State) (h : Listed s.mem) : NextListed (execInvalidationAck line agent s) := by
  unfold execInvalidationAck
  show Listed (State.mem _)
  grind [dropAgentL1_mem]

theorem execRecallReturn_listed (line : Nat) (s : State) (h : Listed s.mem) : NextListed (execRecallReturn line s) := by
  unfold execRecallReturn
  show Listed (State.mem _)
  grind [dropAgentL1_mem]

theorem execLeaseExtension_listed (region : Nat) (s : State) (h : Listed s.mem) : NextListed (execLeaseExtension region s) := by
  unfold execLeaseExtension
  show Listed (State.mem _)
  grind

theorem execExtensionAck_listed (region agent : Nat) (s : State) (h : Listed s.mem) : NextListed (execExtensionAck region agent s) := by
  unfold execExtensionAck
  show Listed (State.mem _)
  grind

theorem execTimedUpdate_listed (agent slice : Nat) (s : State) (h : Listed s.mem) : NextListed (execTimedUpdate agent slice s) := by
  unfold execTimedUpdate
  show Listed (State.mem _)
  grind

theorem execReplayWake_listed (slice : Nat) (tag : WakeTag) (s : State) (h : Listed s.mem) : NextListed (execReplayWake slice tag s) := by
  unfold execReplayWake
  show Listed (State.mem _)
  simp [h]

theorem execOverflowFetch_listed (slice : Nat) (s : State) (h : Listed s.mem) : NextListed (execOverflowFetch slice s) := by
  unfold execOverflowFetch
  show Listed (State.mem _)
  grind [State.updSlice_mem, performAcc_listed, sendLink_mem, closeOp_mem]

theorem execAmDispatch_listed (slice q : Nat) (s : State) (h : Listed s.mem) : NextListed (execAmDispatch slice q s) := by
  unfold execAmDispatch
  show Listed (State.mem _)
  grind [amBatch_listed, queueStall_mem, State.forget_mem, updQd_mem, svcAccess_listed, startHandler_listed]

theorem execCopyStart_listed (core ch : Nat) (s : State) (h : Listed s.mem) : NextListed (execCopyStart core ch s) := by
  unfold execCopyStart
  show Listed (State.mem _)
  grind [copyEnd_listed, chunkErrs_mem, boCount_mem, updHead_mem]

theorem execChunkArbitration_listed (core : Nat) (s : State) (h : Listed s.mem) : NextListed (execChunkArbitration core s) := by
  unfold execChunkArbitration
  show Listed (State.mem _)
  split
  · exact h
  · dsimp only
    rw [updHead_mem, State.updCore_mem, updChan_mem]
    exact listed_of_mem h (foldl_mem _ (fun s (c : Nat × CopyReq) => updChan_mem s core c.1 _) _ _)

theorem execChunkReport_listed (core ch : Nat) (link : LinkFate) (s : State) (h : Listed s.mem) :
    NextListed (execChunkReport core ch link s) := by
  unfold execChunkReport
  show Listed (State.mem _)
  grind [advanceFlights_listed, updHead_mem, choose_mem, reportChunk_listed, spoil_listed]

theorem execContributionArrival_listed (key member : Nat) (s : State) (h : Listed s.mem) :
    NextListed (execContributionArrival key member s) := by
  unfold execContributionArrival
  show Listed (State.mem _)
  grind [taint_listed, put48_listed, bump_listed, updMeet_mem, reply_mem, quorum_listed]

theorem execMemberDeath_listed (key member : Nat) (s : State) (h : Listed s.mem) : NextListed (execMemberDeath key member s) := by
  unfold execMemberDeath
  show Listed (State.mem _)
  split
  · exact h
  · dsimp only
    split
    all_goals
      split
      · exact h
      · rw [idleMeet_mem]
        refine pump_listed _ _ (changeLive_listed _ _ _ (foldl_listed _ (fun s e hs => cutStream_listed s key e hs) _ ?_))
        exact setMemberState_listed _ _ _ _ h

theorem execKWrite_listed (key k : Nat) (s : State) (h : Listed s.mem) : NextListed (execKWrite key k s) := by
  unfold execKWrite
  show Listed (State.mem _)
  grind [put48_listed, quorum_listed]

theorem execGateEnter_listed (gid : Nat) (s : State) (h : Listed s.mem) : NextListed (execGateEnter gid s) := by
  unfold execGateEnter
  show Listed (State.mem _)
  split <;> grind [postSysc_mem, State.updGrp_mem, deadlockCheck_mem, findPlace_mem, enterGate_mem]

theorem execGateReturn_listed (gid : Nat) (s : State) (h : Listed s.mem) : NextListed (execGateReturn gid s) := by
  unfold execGateReturn
  show Listed (State.mem _)
  grind [startFence_mem, endCall_mem, State.updGrp_mem]

theorem execGateDeadline_listed (gid : Nat) (s : State) (h : Listed s.mem) : NextListed (execGateDeadline gid s) := by
  unfold execGateDeadline
  show Listed (State.mem _)
  grind [unwindFrame_mem, unwindStep_mem]

theorem execCtxLoad_listed (port : Nat) (s : State) (h : Listed s.mem) : NextListed (execCtxLoad port s) := by
  unfold execCtxLoad
  show Listed (State.mem _)
  grind [cmdDone_mem, State.addErr_mem]

theorem execTlbInval_listed (port : Nat) (s : State) (h : Listed s.mem) : NextListed (execTlbInval port s) := by
  unfold execTlbInval
  show Listed (State.mem _)
  grind [updPort_mem, invalidate_mem, cmdDone_mem]

theorem execHarvest_listed (port : Nat) (s : State) (h : Listed s.mem) : NextListed (execHarvest port s) := by
  unfold execHarvest
  show Listed (State.mem _)
  grind [harvestRange_listed, updPort_mem, ask_listed, cmdDone_mem, State.forget_mem]

theorem execCtxPreempt_listed (port : Nat) (s : State) (h : Listed s.mem) : NextListed (execCtxPreempt port s) := by
  unfold execCtxPreempt
  show Listed (State.mem _)
  grind [updPort_mem, cmdDone_mem]

theorem execCtxResume_listed (port : Nat) (s : State) (h : Listed s.mem) : NextListed (execCtxResume port s) := by
  unfold execCtxResume
  show Listed (State.mem _)
  grind [cmdDone_mem]

theorem execCtxKill_listed (port : Nat) (s : State) (h : Listed s.mem) : NextListed (execCtxKill port s) := by
  unfold execCtxKill
  show Listed (State.mem _)
  grind [killFrames_mem, endLaunches_listed, performKill_listed, cmdDone_mem, endCtx_mem]

theorem execGroupRelease_listed (port : Nat) (s : State) (h : Listed s.mem) : NextListed (execGroupRelease port s) := by
  unfold execGroupRelease
  show Listed (State.mem _)
  grind [cmdDone_mem, State.updGrp_mem, endLanes_mem]

theorem execFaultDone_listed (port : Nat) (s : State) (h : Listed s.mem) : NextListed (execFaultDone port s) := by
  unfold execFaultDone
  show Listed (State.mem _)
  grind [cmdDone_mem, refreshRecord_mem, State.updGrp_mem, unresolvable_mem]

theorem execSyscDone_listed (port : Nat) (s : State) (h : Listed s.mem) : NextListed (execSyscDone port s) := by
  unfold execSyscDone
  show Listed (State.mem _)
  grind [cmdDone_mem, refreshRecord_mem, syscRelease_mem]

theorem execLqSet_listed (port : Nat) (s : State) (h : Listed s.mem) : NextListed (execLqSet port s) := by
  unfold execLqSet
  show Listed (State.mem _)
  grind [cmdDone_mem, State.forget_mem, svcAccess_listed, stopQueue_mem]

theorem execLqReset_listed (port : Nat) (s : State) (h : Listed s.mem) : NextListed (execLqReset port s) := by
  unfold execLqReset
  show Listed (State.mem _)
  split <;> grind [cmdDone_mem, stopQueue_mem, State.forget_mem, svcAccess_listed]

theorem execIcacheInval_listed (port : Nat) (s : State) (h : Listed s.mem) : NextListed (execIcacheInval port s) := by
  unfold execIcacheInval
  show Listed (State.mem _)
  grind [cmdDone_mem]

theorem execUnknownCommand_listed (port : Nat) (s : State) (h : Listed s.mem) : NextListed (execUnknownCommand port s) := by
  unfold execUnknownCommand
  show Listed (State.mem _)
  grind [cmdDone_mem]

theorem execSlDirpaWrite_listed (slice value : Nat) (s : State) (h : Listed s.mem) : NextListed (execSlDirpaWrite slice value s) := by
  unfold execSlDirpaWrite
  show Listed (State.mem _)
  grind [writeDirPa_mem]

theorem execSlDiridxWrite_listed (slice value : Nat) (s : State) (h : Listed s.mem) : NextListed (execSlDiridxWrite slice value s) := by
  unfold execSlDiridxWrite
  show Listed (State.mem _)
  grind [writeDirIdx_mem]

theorem execSlDirent0Read_listed (slice : Nat) (s : State) (h : Listed s.mem) : NextListed (execSlDirent0Read slice s) := by
  unfold execSlDirent0Read
  show Listed (State.mem _)
  grind [State.updSlice_mem]

theorem execHubRegisterWrite_listed (off bytes value : Nat) (s : State) (h : Listed s.mem) :
    NextListed (execHubRegisterWrite off bytes value s) := by
  unfold execHubRegisterWrite
  show Listed (State.mem _)
  grind [writeWord_mem, refuseReg_mem]

theorem execHostHotReset_listed (s : State) (h : Listed s.mem) : NextListed (execHostHotReset s) := by
  unfold execHostHotReset
  show Listed (State.mem _)
  dsimp only
  split
  · rw [cutLink_mem]
    refine resetEngines_listed _ (foldl_listed _ (fun s c hs => ?_) _ h)
    rw [endCtx_mem]
    exact endLaunches_listed _ _ (performKill_listed _ _ hs)
  · simpa using h

theorem execHostLinkTimeout_listed (s : State) (h : Listed s.mem) : NextListed (execHostLinkTimeout s) := by
  unfold execHostLinkTimeout
  show Listed (State.mem _)
  grind [linkTimeout_mem]

theorem execDeviceLost_listed (dev : Nat) (s : State) (h : Listed s.mem) : NextListed (execDeviceLost dev s) := by
  unfold execDeviceLost
  show Listed (State.mem _)
  grind [mapAccs_mem]

theorem execDeviceReset_listed (s : State) (h : Listed s.mem) : NextListed (execDeviceReset s) := by
  exact mwf_filter _ _ _ h

theorem execPowerGood_listed (bist : List StageResult) (s : State) (h : Listed s.mem) : NextListed (execPowerGood bist s) := by
  unfold execPowerGood
  show Listed (State.mem _)
  grind [toLantern_mem, acceptRecord_mem]

theorem execFullServiceMove_listed (s : State) (h : Listed s.mem) : NextListed (execFullServiceMove s) := by
  unfold execFullServiceMove
  show Listed (State.mem _)
  grind [rehome_listed]

theorem execIslandClockSet_listed (island mhz : Nat) (s : State) (h : Listed s.mem) : NextListed (execIslandClockSet island mhz s) := by
  unfold execIslandClockSet
  show Listed (State.mem _)
  grind

theorem execNvmeSubmission_listed (lease : Nat) (cmd : NvmeCmd) (s : State) (h : Listed s.mem) :
    NextListed (execNvmeSubmission lease cmd s) := by
  unfold execNvmeSubmission
  show Listed (State.mem _)
  grind [nvmePost_mem, notify_mem]

theorem execNvmeCompletion_listed (lease : Nat) (s : State) (h : Listed s.mem) : NextListed (execNvmeCompletion lease s) := by
  unfold execNvmeCompletion
  show Listed (State.mem _)
  grind [nvmePost_mem, State.forget_mem, dma_listed]

theorem execFlashRequest_listed (ring : Nat) (s : State) (h : Listed s.mem) : NextListed (execFlashRequest ring s) := by
  unfold execFlashRequest
  show Listed (State.mem _)
  split
  · exact h
  dsimp only
  split
  · exact h
  split
  next he => exact h.svcAccess he
  next he => simpa using h.svcAccess he
  next he =>
    have h1 := h.svcAccess he
    split
    · simpa using h1
    split
    · simpa using h1
    split
    next he => exact h1.svcAccess he
    next he => simpa using h1.svcAccess he
    next he =>
      have h2 := h1.svcAccess he
      split
      next he => exact h2.svcAccess he
      next he => simpa using h2.svcAccess he
      next he => simpa using h2.svcAccess he

theorem execFlashCompletion_listed (ring entry : Nat) (s : State) (h : Listed s.mem) : NextListed (execFlashCompletion ring entry s) := by
  unfold execFlashCompletion
  show Listed (State.mem _)
  split <;> grind [flashDo_listed, State.forget_mem, svcAccess_listed, State.addErr_mem]

theorem execEthernetFrame_listed (port ring : Nat) (tx : Bool) (frame : List (BitVec 8)) (s : State) (h : Listed s.mem) :
    NextListed (execEthernetFrame port ring tx frame s) := by
  unfold execEthernetFrame
  show Listed (State.mem _)
  grind

theorem execGetVersion_listed (req : SpdmReq) (s : State) (h : Listed s.mem) : NextListed (execGetVersion req s) := by
  unfold execGetVersion
  show Listed (State.mem _)
  simp [h]

theorem execGetCapabilities_listed (req : SpdmReq) (s : State) (h : Listed s.mem) : NextListed (execGetCapabilities req s) := by
  unfold execGetCapabilities
  show Listed (State.mem _)
  simp [h]

theorem execNegotiateAlgorithms_listed (req : SpdmReq) (s : State) (h : Listed s.mem) : NextListed (execNegotiateAlgorithms req s) := by
  unfold execNegotiateAlgorithms
  show Listed (State.mem _)
  simp [h]

theorem execGetDigests_listed (req : SpdmReq) (s : State) (h : Listed s.mem) : NextListed (execGetDigests req s) := by
  unfold execGetDigests
  show Listed (State.mem _)
  simp [h]

theorem execGetCertificate_listed (req : SpdmReq) (s : State) (h : Listed s.mem) : NextListed (execGetCertificate req s) := by
  unfold execGetCertificate
  show Listed (State.mem _)
  simp [h]

theorem execChallenge_listed (req : SpdmReq) (s : State) (h : Listed s.mem) : NextListed (execChallenge req s) := by
  unfold execChallenge
  show Listed (State.mem _)
  simp [h]

theorem execGetMeasurements_listed (req : SpdmReq) (s : State) (h : Listed s.mem) : NextListed (execGetMeasurements req s) := by
  unfold execGetMeasurements
  show Listed (State.mem _)
  simp [h]

theorem execTraceGapWrite_listed (core : Nat) (s : State) (h : Listed s.mem) : NextListed (execTraceGapWrite core s) := by
  unfold execTraceGapWrite
  show Listed (State.mem _)
  simp [h]

theorem execGranuleHoldExpiry_listed (granule : Nat) (s : State) (h : Listed s.mem) : NextListed (execGranuleHoldExpiry granule s) := by
  unfold execGranuleHoldExpiry
  show Listed (State.mem _)
  grind [askHost_mem, askGranule_mem]

theorem linkUp_listed (u : State) (w r : Nat) (h : Listed u.mem) : Listed (u.linkUp w r).mem := h

theorem askAgain_mem (v : State) (ops : Map Op) : (v.askAgain ops).mem = v.mem := by
  refine foldl_mem _ (fun s k => ?_) _ _
  split
  · rfl
  · exact askGranule_mem s k

theorem tellReset_mem (v u : State) (w r : Nat) : (v.tellReset u w r).mem = v.mem := by
  unfold State.tellReset
  split
  · exact post_mem _ _ _
  · rfl

theorem retrain_listed (u : State) (w r : Nat) (h : Listed u.mem) : Listed (u.retrain w r).mem := by
  rw [retrain_eq, tellReset_mem, askAgain_mem]
  exact linkUp_listed u w r h

theorem execLinkRetrain_listed (width rate : Nat) (s : State) (h : Listed s.mem) : NextListed (execLinkRetrain width rate s) := by
  change NextListed (exec (.linkRetrain width rate) s)
  rw [exec_linkRetrain]
  show Listed (State.mem _)
  split
  · exact h
  · exact retrain_listed _ _ _ (listed_of_mem h (linkTimeout_mem s))

theorem execFabricLinkFailure_listed (link : Nat) (noRoute : List Nat) (s : State) (h : Listed s.mem) :
    NextListed (execFabricLinkFailure link noRoute s) := by
  unfold execFabricLinkFailure
  show Listed (State.mem _)
  grind

theorem execMigrationRequest_listed (core ctx : Nat) (r : CopyRec) (s : State) (h : Listed s.mem) :
    NextListed (execMigrationRequest core ctx r s) := by
  unfold execMigrationRequest
  show Listed (State.mem _)
  simp [h]

theorem execFenceRwRw_listed (sysCore : Nat) (s : State) (h : Listed s.mem) : NextListed (execFenceRwRw sysCore s) := by
  unfold execFenceRwRw
  show Listed (State.mem _)
  grind

theorem execMonarmComplete_listed (gid : Nat) (s : State) (h : Listed s.mem) : NextListed (execMonarmComplete gid s) := by
  unfold execMonarmComplete
  show Listed (State.mem _)
  dsimp only
  (repeat' split) <;> simp [h]

theorem execCinvComplete_listed (gid : Nat) (s : State) (h : Listed s.mem) : NextListed (execCinvComplete gid s) := by
  unfold execCinvComplete
  show Listed (State.mem _)
  split
  · exact h
  next g hg =>
    split
    · split
      · exact h
      next o ho =>
        dsimp only
        have hpush : ∀ p, Listed (s.pushWhere [] none p).mem := fun p => by simpa using h
        have hdrop : ∀ (t : State) (sc : Scope), Listed t.mem →
            Listed ((o.accs.filter (fun a => a.st != .off)).foldl (fun s a => s.cinvLine g sc a.key) t).mem :=
          fun t sc ht => foldl_listed _ (fun s a hs => by rwa [cinvLine_mem]) _ ht
        split
        · exact hpush _
        · exact hdrop _ _ (hpush _)
    · exact h

theorem execMeetingStatusReturn_listed (op : Nat) (s : State) (h : Listed s.mem) : NextListed (execMeetingStatusReturn op s) := by
  unfold execMeetingStatusReturn
  show Listed (State.mem _)
  grind [endResult_mem, statusReturn_mem]

theorem execTileOperationComplete_listed (op : Nat) (s : State) (h : Listed s.mem) : NextListed (execTileOperationComplete op s) := by
  unfold execTileOperationComplete
  show Listed (State.mem _)
  split
  · exact h
  split
  · split
    · rw [endOp_mem]
      exact listed_of_mem h (foldl_mem _ (fun s off => landQuad_mem s _ _ off _) _ _)
    · grind [endOp_mem, storageError_mem, updTile_mem, State.updGrp_mem]
    · split
      · exact h
      · simpa using h
    · simpa using h
  · exact h

theorem execDbgTrselWrite_listed (core value : Nat) (s : State) (h : Listed s.mem) : NextListed (execDbgTrselWrite core value s) := by
  unfold execDbgTrselWrite
  show Listed (State.mem _)
  simp [h]

theorem execMctpFailureReport_listed (bus : Nat) (s : State) (h : Listed s.mem) : NextListed (execMctpFailureReport bus s) := by
  unfold execMctpFailureReport
  show Listed (State.mem _)
  grind

/-! ### Lane instructions -/

theorem laneInstr_listed {eff : Issue → State → State} (heff : ∀ x s, Listed s.mem → Listed (eff x s).mem) {i : Instr} {helpers : Bool}
    {s : State} (h : Listed s.mem) : NextListed (laneInstr i helpers s eff) := by
  unfold laneInstr
  split
  · trivial
  · show Listed (State.mem _)
    rwa [queueTrap_mem]
  · exact heff _ _ h

theorem execExit_listed (hd : Hdr) (s : State) (h : Listed s.mem) : NextListed (execExit hd s) := by
  refine laneInstr_listed (fun x s hs => ?_) h
  grind [endLanes_mem, State.updGrp_mem]

theorem execTbar_listed (hd : Hdr) (s : State) (h : Listed s.mem) : NextListed (execTbar hd s) := by
  refine laneInstr_listed (fun x s hs => ?_) h
  grind [arrive_mem, deadlockCheck_mem, State.updGrp_mem]

theorem execTbara_listed (hd : Hdr) (s : State) (h : Listed s.mem) : NextListed (execTbara hd s) := by
  refine laneInstr_listed (fun x s hs => ?_) h
  grind [arrive_mem, State.updGrp_mem]

theorem execLnch_listed (hd : Hdr) (pd : Nat) (a : Opnd) (q : Nat) (s : State) (h : Listed s.mem) : NextListed (execLnch hd pd a q s) := by
  refine laneInstr_listed (fun x s hs => ?_) h
  grind [addOp_mem, done_mem, queueTrap_mem]

theorem execTret_listed (hd : Hdr) (skip : Bool) (s : State) (h : Listed s.mem) : NextListed (execTret hd skip s) := by
  refine laneInstr_listed (fun x s hs => ?_) h
  grind [done_mem, queueTrap_mem, State.updGrp_mem]

theorem execGrow_listed (hd : Hdr) (must : Bool) (pd : Nat) (imm : BitVec 32) (s : State) (h : Listed s.mem) :
    NextListed (execGrow hd must pd imm s) := by
  refine laneInstr_listed (fun x s hs => ?_) h
  grind [deadlockCheck_mem, done_mem, growTo_mem, State.updGrp_mem]

theorem execWrsr_listed (hd : Hdr) (a : Opnd) (sr : SReg) (s : State) (h : Listed s.mem) : NextListed (execWrsr hd a sr s) := by
  refine laneInstr_listed (fun x s hs => ?_) h
  grind [done_mem, queueTrap_mem]

theorem execXget_listed (hd : Hdr) (d a b : Opnd) (s : State) (h : Listed s.mem) : NextListed (execXget hd d a b s) := by
  refine laneInstr_listed (fun x s hs => ?_) h
  grind [done_mem, queueTrap_mem, xTrap_mem]

theorem execXput_listed (hd : Hdr) (a b c : Opnd) (s : State) (h : Listed s.mem) : NextListed (execXput hd a b c s) := by
  refine laneInstr_listed (fun x s hs => ?_) h
  grind [done_mem, xTrap_mem]

theorem execFence_listed (hd : Hdr) (sc : Scope) (s : State) (h : Listed s.mem) : NextListed (execFence hd sc s) := by
  refine laneInstr_listed (fun x s hs => ?_) h
  grind [done_mem, startFence_mem, State.updGrp_mem]

theorem execWait_listed (hd : Hdr) (nld nst ncp nmx nmt : Nat) (s : State) (h : Listed s.mem) :
    NextListed (execWait hd nld nst ncp nmx nmt s) := by
  refine laneInstr_listed (fun x s hs => ?_) h
  grind [done_mem, State.updGrp_mem]

theorem execMwait_listed (hd : Hdr) (pd : Nat) (a : Opnd) (s : State) (h : Listed s.mem) : NextListed (execMwait hd pd a s) := by
  refine laneInstr_listed (fun x s hs => ?_) h
  grind [disarm_mem, done_mem, State.updGrp_mem]

theorem execPref_listed (hd : Hdr) (w64 : Bool) (chint : CacheH) (a : Opnd) (off : BitVec 24) (s : State) (h : Listed s.mem) :
    NextListed (execPref hd w64 chint a off s) := by
  refine laneInstr_listed (fun x s hs => ?_) h
  rw [done_mem, freeEntry_mem]
  exact prefIssue_listed s x _ _ hs

theorem execAmdone_listed (hd : Hdr) (s : State) (h : Listed s.mem) : NextListed (execAmdone hd s) := by
  refine laneInstr_listed (fun x s hs => ?_) h
  grind [amdoneEnd_mem, done_mem, queueTrap_mem, startFence_mem, State.updGrp_mem]

theorem execBoinit_listed (hd : Hdr) (a b : Opnd) (off : BitVec 24) (s : State) (h : Listed s.mem) :
    NextListed (execBoinit hd a b off s) := by
  refine laneInstr_listed (fun x s hs => ?_) h
  grind [boCheck_mem, done_mem, spWrite_mem]

theorem execBowait_listed (hd : Hdr) (pd : Nat) (a b : Opnd) (off : BitVec 24) (s : State) (h : Listed s.mem) :
    NextListed (execBowait hd pd a b off s) := by
  refine laneInstr_listed (fun x s hs => ?_) h
  grind [boCheck_mem, done_mem, State.updGrp_mem]

theorem execMjoin_listed (hd : Hdr) (d a b : Opnd) (s : State) (h : Listed s.mem) : NextListed (execMjoin hd d a b s) := by
  refine laneInstr_listed (fun x s hs => ?_) h
  grind [join_listed, meetOp_listed, statusOp_mem]

theorem execMcont_listed (hd : Hdr) (d a b c : Opnd) (s : State) (h : Listed s.mem) : NextListed (execMcont hd d a b c s) := by
  refine laneInstr_listed (fun x s hs => ?_) h
  grind [addOp_mem, admitStream_listed, done_mem, meetOp_listed, pump_listed, statusOp_mem]

theorem execMrslt_listed (hd : Hdr) (d a b c : Opnd) (s : State) (h : Listed s.mem) : NextListed (execMrslt hd d a b c s) := by
  refine laneInstr_listed (fun x s hs => ?_) h
  grind [addOp_mem, heldOp_mem, hold_mem, meetOp_listed, result_listed]

theorem execMleave_listed (hd : Hdr) (d a b : Opnd) (s : State) (h : Listed s.mem) : NextListed (execMleave hd d a b s) := by
  refine laneInstr_listed (fun x s hs => ?_) h
  grind [depart_listed, meetOp_listed, statusOp_mem]

theorem execMstat_listed (hd : Hdr) (d a b : Opnd) (s : State) (h : Listed s.mem) : NextListed (execMstat hd d a b s) := by
  refine laneInstr_listed (fun x s hs => ?_) h
  grind [heldOp_mem, meetOp_listed]

theorem execTstat_listed (hd : Hdr) (d : Opnd) (t team : Nat) (s : State) (h : Listed s.mem) : NextListed (execTstat hd d t team s) := by
  refine laneInstr_listed (fun x s hs => ?_) h
  grind [done_mem, seqFault_mem]

theorem execTwait_listed (hd : Hdr) (t st sel : Nat) (s : State) (h : Listed s.mem) : NextListed (execTwait hd t st sel s) := by
  refine laneInstr_listed (fun x s hs => ?_) h
  grind [addOp_mem, done_mem, endOp_mem, seqFault_mem, State.updGrp_mem]

theorem execSqsig_listed (hd : Hdr) (n : Nat) (a : Opnd) (s : State) (h : Listed s.mem) : NextListed (execSqsig hd n a s) := by
  refine laneInstr_listed (fun x s hs => ?_) h
  grind [done_mem, signalAdd_mem, State.updGrp_mem]

theorem execSqwait_listed (hd : Hdr) (n : Nat) (a : Opnd) (cap : Option Nat) (s : State) (h : Listed s.mem) :
    NextListed (execSqwait hd n a cap s) := by
  refine laneInstr_listed (fun x s hs => ?_) h
  grind [done_mem, sqwaitTry_mem, State.updGrp_mem]

theorem execGret_listed (hd : Hdr) (s : State) (h : Listed s.mem) : NextListed (execGret hd s) := by
  refine laneInstr_listed (fun x s hs => ?_) h
  grind [done_mem, queueTrap_mem, State.updGrp_mem]

theorem execTrmark_listed (hd : Hdr) (a : Opnd) (imm : BitVec 32) (s : State) (h : Listed s.mem) : NextListed (execTrmark hd a imm s) := by
  refine laneInstr_listed (fun x s hs => ?_) h
  grind [done_mem, trace_listed]

/-- Every instruction keeps the canonical form. -/
theorem exec_listed (i : Instr) (s : State) (h : Listed s.mem) : NextListed (exec i s) := by
  cases i with
  | bra | brx | call | callx | ret =>
    exact laneInstr_listed (fun x s hs => jump_listed _ x s hs) h
  | trap | brk =>
    exact laneInstr_listed (fun x s hs => listed_of_mem hs (softTrap_mem _ _ _ x s)) h
  | ld | st | atom | cas | red | monarm | cwb | cinv | lblrd | lblset | lblclr =>
    exact laneInstr_listed (fun x s hs => listed_of_mem hs (memIssue_mem s x _ _ _)) h
  | lds | sts | atoms =>
    exact laneInstr_listed (fun x s hs => listed_of_mem hs (spIssue_mem s x _ _ _ _ _)) h
  | qenq | qdeq | qstat | amsg =>
    exact laneInstr_listed (fun x s hs => listed_of_mem hs (queueOp_mem _ _ _ _ _ _ x s)) h
  | cpy | cpyr =>
    exact laneInstr_listed (fun x s hs => listed_of_mem hs (copyOp_mem _ _ _ x s)) h
  | topen | twr | tseal | tdrain | trd | tfree =>
    exact laneInstr_listed (fun x s hs => tileOp_listed _ _ x s hs) h
  | mmab16 | mmah16 | mmaf8a | mmaf8b | mmaf6a | mmaf6b | mmaf4 | mmai8 | mmaf32 | mmad64 | lutbld | lutmm | czero | ccvt | tscl | tperm =>
    exact laneInstr_listed (fun x s hs => listed_of_mem hs (mxOp_mem _ _ x s)) h
  | gcall | sysc =>
    exact laneInstr_listed (fun x s hs => listed_of_mem hs (gateIssue_mem _ _ _ x s)) h
  | exit => exact execExit_listed (h := h) ..
  | tbar => exact execTbar_listed (h := h) ..
  | tbara => exact execTbara_listed (h := h) ..
  | lnch => exact execLnch_listed (h := h) ..
  | tret => exact execTret_listed (h := h) ..
  | grow => exact execGrow_listed (h := h) ..
  | wrsr => exact execWrsr_listed (h := h) ..
  | xget => exact execXget_listed (h := h) ..
  | xput => exact execXput_listed (h := h) ..
  | fence => exact execFence_listed (h := h) ..
  | wait => exact execWait_listed (h := h) ..
  | mwait => exact execMwait_listed (h := h) ..
  | pref => exact execPref_listed (h := h) ..
  | amdone => exact execAmdone_listed (h := h) ..
  | boinit => exact execBoinit_listed (h := h) ..
  | bowait => exact execBowait_listed (h := h) ..
  | mjoin => exact execMjoin_listed (h := h) ..
  | mcont => exact execMcont_listed (h := h) ..
  | mrslt => exact execMrslt_listed (h := h) ..
  | mleave => exact execMleave_listed (h := h) ..
  | mstat => exact execMstat_listed (h := h) ..
  | tstat => exact execTstat_listed (h := h) ..
  | twait => exact execTwait_listed (h := h) ..
  | sqsig => exact execSqsig_listed (h := h) ..
  | sqwait => exact execSqwait_listed (h := h) ..
  | gret => exact execGret_listed (h := h) ..
  | trmark => exact execTrmark_listed (h := h) ..
  | growGrant => exact execGrowGrant_listed (h := h) ..
  | growTimeout => exact execGrowTimeout_listed (h := h) ..
  | loadDataArrival => exact execLoadDataArrival_listed (h := h) ..
  | storeCommitReport => exact execStoreCommitReport_listed (h := h) ..
  | fenceComplete => exact execFenceComplete_listed (h := h) ..
  | waitReturn => exact execWaitReturn_listed (h := h) ..
  | walkEnd => exact execWalkEnd_listed (h := h) ..
  | operandLogReissue => exact execOperandLogReissue_listed (h := h) ..
  | labelVerdict => exact execLabelVerdict_listed (h := h) ..
  | trapDelivery => exact execTrapDelivery_listed (h := h) ..
  | mwaitTimeout => exact execMwaitTimeout_listed (h := h) ..
  | bowaitReturn => exact execBowaitReturn_listed (h := h) ..
  | bowaitTimeout => exact execBowaitTimeout_listed (h := h) ..
  | sqsigAdd => exact execSqsigAdd_listed (h := h) ..
  | sqwaitReturn => exact execSqwaitReturn_listed (h := h) ..
  | sqwaitTimeout => exact execSqwaitTimeout_listed (h := h) ..
  | tileStateReached => exact execTileStateReached_listed (h := h) ..
  | tileWait => exact execTileWait_listed (h := h) ..
  | seqOpExecute => exact execSeqOpExecute_listed (h := h) ..
  | seqOpComplete => exact execSeqOpComplete_listed (h := h) ..
  | launchRecordDequeue => exact execLaunchRecordDequeue_listed (h := h) ..
  | dependenceMet => exact execDependenceMet_listed (h := h) ..
  | gangAdmit => exact execGangAdmit_listed (h := h) ..
  | lnchAppend => exact execLnchAppend_listed (h := h) ..
  | groupEnd => exact execGroupEnd_listed (h := h) ..
  | launchComplete => exact execLaunchComplete_listed (h := h) ..
  | groupSwap => exact execGroupSwap_listed (h := h) ..
  | pendingDisplace => exact execPendingDisplace_listed (h := h) ..
  | starvationGuard => exact execStarvationGuard_listed (h := h) ..
  | preemptSave => exact execPreemptSave_listed (h := h) ..
  | contextRestore => exact execContextRestore_listed (h := h) ..
  | deltaPush => exact execDeltaPush_listed (h := h) ..
  | ownershipTransfer => exact execOwnershipTransfer_listed (h := h) ..
  | domainJoin => exact execDomainJoin_listed (h := h) ..
  | homeRequest => exact execHomeRequest_listed (h := h) ..
  | reopen => exact execReopen_listed (h := h) ..
  | invalidationAck => exact execInvalidationAck_listed (h := h) ..
  | recallReturn => exact execRecallReturn_listed (h := h) ..
  | leaseExtension => exact execLeaseExtension_listed (h := h) ..
  | extensionAck => exact execExtensionAck_listed (h := h) ..
  | timedUpdate => exact execTimedUpdate_listed (h := h) ..
  | replayWake => exact execReplayWake_listed (h := h) ..
  | overflowFetch => exact execOverflowFetch_listed (h := h) ..
  | amDispatch => exact execAmDispatch_listed (h := h) ..
  | copyStart => exact execCopyStart_listed (h := h) ..
  | chunkArbitration => exact execChunkArbitration_listed (h := h) ..
  | chunkReport => exact execChunkReport_listed (h := h) ..
  | contributionArrival => exact execContributionArrival_listed (h := h) ..
  | memberDeath => exact execMemberDeath_listed (h := h) ..
  | kWrite => exact execKWrite_listed (h := h) ..
  | gateEnter => exact execGateEnter_listed (h := h) ..
  | gateReturn => exact execGateReturn_listed (h := h) ..
  | gateDeadline => exact execGateDeadline_listed (h := h) ..
  | ctxLoad => exact execCtxLoad_listed (h := h) ..
  | tlbInval => exact execTlbInval_listed (h := h) ..
  | harvest => exact execHarvest_listed (h := h) ..
  | ctxPreempt => exact execCtxPreempt_listed (h := h) ..
  | ctxResume => exact execCtxResume_listed (h := h) ..
  | ctxKill => exact execCtxKill_listed (h := h) ..
  | groupRelease => exact execGroupRelease_listed (h := h) ..
  | faultDone => exact execFaultDone_listed (h := h) ..
  | syscDone => exact execSyscDone_listed (h := h) ..
  | lqSet => exact execLqSet_listed (h := h) ..
  | lqReset => exact execLqReset_listed (h := h) ..
  | icacheInval => exact execIcacheInval_listed (h := h) ..
  | unknownCommand => exact execUnknownCommand_listed (h := h) ..
  | slDirpaWrite => exact execSlDirpaWrite_listed (h := h) ..
  | slDiridxWrite => exact execSlDiridxWrite_listed (h := h) ..
  | slDirent0Read => exact execSlDirent0Read_listed (h := h) ..
  | hubRegisterWrite => exact execHubRegisterWrite_listed (h := h) ..
  | hostHotReset => exact execHostHotReset_listed (h := h) ..
  | hostLinkTimeout => exact execHostLinkTimeout_listed (h := h) ..
  | deviceLost => exact execDeviceLost_listed (h := h) ..
  | deviceReset => exact execDeviceReset_listed (h := h) ..
  | powerGood => exact execPowerGood_listed (h := h) ..
  | fullServiceMove => exact execFullServiceMove_listed (h := h) ..
  | islandClockSet => exact execIslandClockSet_listed (h := h) ..
  | nvmeSubmission => exact execNvmeSubmission_listed (h := h) ..
  | nvmeCompletion => exact execNvmeCompletion_listed (h := h) ..
  | flashRequest => exact execFlashRequest_listed (h := h) ..
  | flashCompletion => exact execFlashCompletion_listed (h := h) ..
  | ethernetFrame => exact execEthernetFrame_listed (h := h) ..
  | getVersion req => exact execGetVersion_listed req s h
  | getCapabilities req => exact execGetCapabilities_listed req s h
  | negotiateAlgorithms => exact execNegotiateAlgorithms_listed (h := h) ..
  | getDigests => exact execGetDigests_listed (h := h) ..
  | getCertificate => exact execGetCertificate_listed (h := h) ..
  | challenge => exact execChallenge_listed (h := h) ..
  | getMeasurements => exact execGetMeasurements_listed (h := h) ..
  | traceGapWrite => exact execTraceGapWrite_listed (h := h) ..
  | granuleHoldExpiry => exact execGranuleHoldExpiry_listed (h := h) ..
  | linkRetrain => exact execLinkRetrain_listed (h := h) ..
  | fabricLinkFailure => exact execFabricLinkFailure_listed (h := h) ..
  | migrationRequest => exact execMigrationRequest_listed (h := h) ..
  | fenceRwRw => exact execFenceRwRw_listed (h := h) ..
  | monarmComplete => exact execMonarmComplete_listed (h := h) ..
  | cinvComplete => exact execCinvComplete_listed (h := h) ..
  | meetingStatusReturn => exact execMeetingStatusReturn_listed (h := h) ..
  | tileOperationComplete => exact execTileOperationComplete_listed (h := h) ..
  | dbgTrselWrite => exact execDbgTrselWrite_listed (h := h) ..
  | mctpFailureReport => exact execMctpFailureReport_listed (h := h) ..
  | _ =>
    apply laneInstr_listed _ h
    exact fun _ _ hs => hs

/-! ### Issues (R41, R42) -/

/-- An attempt that goes on or stops does so in a state whose memory is in the canonical form. -/
def AttemptListed : Attempt → Prop
  | .wait => True
  | .stopped t => Listed t.mem
  | .go _ t => Listed t.mem

theorem attemptOf_listed (s : State) (gid : Nat) (h : Listed s.mem) : AttemptListed (s.attemptOf gid) := by
  unfold State.attemptOf
  split
  · trivial
  split
  · trivial
  split
  · trivial
  have hstop : ∀ (t : State) (g : Group) run re cause pc addr w0 detail, Listed t.mem →
      Listed ((((t.unpark gid run re).runTrap gid g cause run pc addr w0 detail)).dropReissue gid re).mem := by
    intro t g run re cause pc addr w0 detail ht
    rwa [dropReissue_mem, runTrap_mem, unpark_mem]
  dsimp only
  split
  · exact hstop _ _ _ _ _ _ _ _ _ h
  split
  next he => exact hstop _ _ _ _ _ _ _ _ _ (listed_snd (fetchBlock_listed _ _ _ h) he)
  next he =>
    have hu := listed_snd (fetchBlock_listed _ _ _ h) he
    split
    · exact hstop _ _ _ _ _ _ _ _ _ hu
    split
    · exact hstop _ _ _ _ _ _ _ _ _ hu
    split
    · trivial
    · show Listed (State.mem (State.unpark _ _ _ _))
      rwa [unpark_mem]

theorem attempt_listed (s : State) (gid : Nat) (h : Listed s.mem) : AttemptListed (s.attempt gid) := by
  unfold State.attempt
  split
  · trivial
  split
  · trivial
  · exact attemptOf_listed s gid h

theorem runIssue_listed (s : State) (i : Instr) (paired : Bool) (h : Listed s.mem) : NextListed (s.runIssue i paired) := by
  unfold State.runIssue
  split
  · exact h
  next c _ =>
    have hi := exec_listed i s h
    dsimp only
    split
    next t he =>
      rw [he] at hi
      exact issued_listed t c _ _ _ paired hi
    · exact hi

theorem pairUp_listed (o : Out) (other : Option Nat) (h : NextListed o) : NextListed (pairUp o other) := by
  unfold pairUp
  split
  next t gid =>
    have ha := attemptOf_listed t gid h
    split
    next j u he =>
      rw [he] at ha
      exact runIssue_listed u j true ha
    · exact h
  · exact h

/-! ### Steps -/

/-- The step `f` keeps the canonical form. -/
def Keeps (f : State → Out) : Prop := ∀ s, Listed s.mem → NextListed (f s)

theorem act_listed (a : Action) : Keeps (fun s => s.act a) := by
  intro s h
  cases a with
  | pass t c => exact pass_listed s t _ h
  | event i =>
    simp only [State.act]
    split
    · exact h
    · exact exec_listed i s h
  | slew k u lag => exact listed_of_mem h (slew_mem s k u lag)
  | sysAccess core kind key width data data2 => exact listed_of_mem h (sysAccess_mem s core kind key width data data2)
  | hubRead core off bytes => exact listed_of_mem h (sysAccess_mem s core .load _ bytes 0 0)
  | hostAccess kind key width data data2 => exact listed_of_mem h (hostAccess_mem s kind key width data data2)
  | routeBack dev => exact listed_of_mem h (routeBack_mem s dev)
  | issue gid =>
    have ha := attempt_listed s gid h
    simp only [State.act]
    split
    · exact h
    next t he =>
      rw [he] at ha
      exact ha
    next i t he =>
      rw [he] at ha
      exact pairUp_listed _ _ (runIssue_listed t i _ ha)

theorem keeps_exec (i : Instr) : Keeps (exec i) := fun s h => exec_listed i s h

/-- Every step of a list keeps the canonical form. -/
def AllKeep (fs : List (State → Out)) : Prop := ∀ f ∈ fs, Keeps f

theorem allKeep_nil : AllKeep [] := fun _ h => absurd h List.not_mem_nil

theorem allKeep_cons {f : State → Out} {fs : List (State → Out)} (h : Keeps f) (hs : AllKeep fs) : AllKeep (f :: fs) :=
  List.forall_mem_cons.mpr ⟨h, hs⟩

theorem allKeep_one {f : State → Out} (h : Keeps f) : AllKeep [f] := allKeep_cons h allKeep_nil

theorem allKeep_two {f g : State → Out} (hf : Keeps f) (hg : Keeps g) : AllKeep [f, g] := allKeep_cons hf (allKeep_one hg)

theorem allKeep_append {fs gs : List (State → Out)} (hf : AllKeep fs) (hg : AllKeep gs) : AllKeep (fs ++ gs) :=
  List.forall_mem_append.mpr ⟨hf, hg⟩

theorem allKeep_map {α : Type} {f : α → State → Out} (l : List α) (h : ∀ a, Keeps (f a)) : AllKeep (l.map f) :=
  List.forall_mem_map.mpr fun a _ => h a

theorem allKeep_flatMap {α : Type} {f : α → List (State → Out)} (l : List α) (h : ∀ a, AllKeep (f a)) : AllKeep (l.flatMap f) :=
  fun g hg => let ⟨a, _, ha⟩ := List.mem_flatMap.mp hg; h a g ha

theorem allKeep_ite {p : Prop} [Decidable p] {fs gs : List (State → Out)} (hf : AllKeep fs) (hg : AllKeep gs) :
    AllKeep (if p then fs else gs) := by
  split
  · exact hf
  · exact hg

theorem opSteps_keep (e : Nat × Op) : AllKeep (opSteps e) := by
  unfold opSteps
  split
  · exact allKeep_append (allKeep_map _ fun a => keeps_exec (.homeRequest e.1 a.lane))
      (allKeep_two (keeps_exec (.loadDataArrival e.1)) (keeps_exec (.storeCommitReport e.1)))
  · exact allKeep_one (keeps_exec (.homeRequest e.1 0))
  · exact allKeep_cons (keeps_exec (.loadDataArrival e.1))
      (allKeep_two (keeps_exec (.storeCommitReport e.1)) (keeps_exec (.meetingStatusReturn e.1)))
  · exact allKeep_one (keeps_exec (.lnchAppend e.1))
  · exact allKeep_one (keeps_exec (.tileOperationComplete e.1))
  · exact allKeep_one fun s => keeps_exec (.seqOpComplete _ e.1) s
  next m _ => exact allKeep_one (keeps_exec (.contributionArrival m.meet m.member))
  · exact allKeep_one (keeps_exec (.meetingStatusReturn e.1))
  · exact allKeep_nil
  · exact allKeep_nil

theorem blockSteps_keep (e : Nat × Group) : AllKeep (blockSteps e) := by
  unfold blockSteps
  split
  case h_1 | h_2 | h_3 => exact allKeep_nil
  case h_4 => exact allKeep_ite (allKeep_one (keeps_exec (.gateEnter e.1))) allKeep_nil
  case h_5 => exact allKeep_one (keeps_exec (.walkEnd e.1))
  case h_6 => exact allKeep_one (keeps_exec (.labelVerdict e.1))
  case h_7 op _ _ => exact allKeep_two (keeps_exec (.loadDataArrival op)) (keeps_exec (.labelVerdict e.1))
  case h_8 | h_9 | h_10 => exact allKeep_one (keeps_exec (.fenceComplete e.1))
  case h_11 => exact allKeep_one (keeps_exec (.waitReturn e.1))
  case h_12 => exact allKeep_one (keeps_exec (.monarmComplete e.1))
  case h_13 => exact allKeep_one (keeps_exec (.mwaitTimeout e.1))
  case h_14 => exact allKeep_one (keeps_exec (.cinvComplete e.1))
  case h_15 => exact allKeep_two (keeps_exec (.bowaitReturn e.1)) (keeps_exec (.bowaitTimeout e.1))
  case h_16 => exact allKeep_two (keeps_exec (.growGrant e.2.core)) (keeps_exec (.growTimeout e.1))
  case h_17 | h_18 | h_19 => exact allKeep_two (keeps_exec (.tileStateReached (whoOf e))) (keeps_exec (.tileWait (whoOf e)))
  case h_20 => exact allKeep_two (keeps_exec (.sqwaitReturn (whoOf e))) (keeps_exec (.sqwaitTimeout (whoOf e)))
  case h_21 => exact allKeep_one (keeps_exec (.sqsigAdd (whoOf e)))
  case h_22 op _ _ => exact allKeep_one (keeps_exec (.meetingStatusReturn op))
  case h_23 => exact allKeep_one (keeps_exec (.gateDeadline e.1))

theorem groupSteps_keep (e : Nat × Group) : AllKeep (groupSteps e) := by
  unfold groupSteps
  refine allKeep_append (allKeep_append (allKeep_append (allKeep_append (allKeep_append (allKeep_append (allKeep_append
    (allKeep_append (blockSteps_keep e) ?_) ?_) ?_) ?_) ?_) ?_) ?_) ?_
  · exact allKeep_ite allKeep_nil (allKeep_one (keeps_exec (.fenceComplete e.1)))
  · exact allKeep_ite allKeep_nil (allKeep_two (keeps_exec (.gateReturn e.1)) (keeps_exec (.gateDeadline e.1)))
  · exact allKeep_ite (allKeep_one (keeps_exec (.gateEnter e.1))) allKeep_nil
  · exact allKeep_ite allKeep_nil (allKeep_one (keeps_exec (.trapDelivery e.1)))
  · exact allKeep_map _ fun x => keeps_exec (.operandLogReissue e.1 x.1)
  · exact allKeep_ite (allKeep_one (keeps_exec (.groupEnd e.1))) allKeep_nil
  · exact allKeep_ite allKeep_nil (allKeep_one (keeps_exec (.starvationGuard e.1)))
  · exact allKeep_ite allKeep_nil (allKeep_one (keeps_exec (.pendingDisplace e.1)))

theorem swapSteps_keep (s : State) : AllKeep s.swapSteps :=
  allKeep_flatMap _ fun b => allKeep_map _ fun a => keeps_exec (.groupSwap a.1 b.1)

theorem coreSteps_keep (e : Nat × CoreSt) : AllKeep (coreSteps e) := by
  unfold coreSteps
  refine allKeep_append (allKeep_append (allKeep_append ?_ (allKeep_flatMap _ fun c => ?_)) ?_) ?_
  · exact allKeep_ite allKeep_nil (allKeep_one (keeps_exec (.seqOpExecute e.1)))
  · exact allKeep_ite allKeep_nil (allKeep_two (keeps_exec (.copyStart e.1 c.1)) (keeps_exec (.chunkReport e.1 c.1 .ok)))
  · exact allKeep_ite (allKeep_one (keeps_exec (.chunkArbitration e.1))) allKeep_nil
  · exact allKeep_ite (allKeep_one (keeps_exec (.traceGapWrite e.1))) allKeep_nil

theorem homeSteps_keep (s : State) : AllKeep s.homeSteps := by
  unfold State.homeSteps
  refine allKeep_append (allKeep_append (allKeep_append (allKeep_append (allKeep_append (allKeep_append
    (allKeep_flatMap _ fun c => ?_) (allKeep_map _ fun d => keeps_exec (.recallReturn d.line))) (allKeep_map _ fun e => keeps_exec
      (.reopen e.1)))
    (allKeep_flatMap _ fun e => allKeep_flatMap _ fun a => ?_)) (allKeep_flatMap _ fun g => ?_)) (allKeep_flatMap _ fun x => ?_))
    (allKeep_map _ fun e => keeps_exec (.leaseExtension e.1))
  · exact allKeep_append (allKeep_append (allKeep_ite (allKeep_one (keeps_exec (.invalidationAck c.line c.agent))) allKeep_nil)
      (allKeep_ite allKeep_nil (allKeep_one (keeps_exec (.timedUpdate c.agent _)))))
      (allKeep_ite allKeep_nil (allKeep_one (keeps_exec (.extensionAck _ c.agent))))
  · split
    · exact allKeep_one (keeps_exec (.replayWake _ _))
    · exact allKeep_nil
  · exact allKeep_append (allKeep_ite (allKeep_one (keeps_exec (.ownershipTransfer g.1))) allKeep_nil)
      (allKeep_ite (allKeep_one (keeps_exec (.granuleHoldExpiry g.1))) allKeep_nil)
  · exact allKeep_append (allKeep_ite allKeep_nil (allKeep_one (keeps_exec (.overflowFetch x.1))))
      (allKeep_map _ fun q => keeps_exec (.amDispatch x.1 q.1))

theorem linkSteps_keep (s : State) : AllKeep s.linkSteps :=
  allKeep_append (allKeep_ite allKeep_nil (allKeep_one (keeps_exec .hostLinkTimeout))) (allKeep_map _ fun e => keeps_exec (.deviceLost e.1))

theorem portSteps_keep (p : Nat) : AllKeep (portSteps p) :=
  allKeep_cons (keeps_exec (.ctxLoad p)) <| allKeep_cons (keeps_exec (.tlbInval p)) <| allKeep_cons (keeps_exec (.harvest p)) <|
  allKeep_cons (keeps_exec (.ctxPreempt p)) <| allKeep_cons (keeps_exec (.ctxResume p)) <| allKeep_cons (keeps_exec (.ctxKill p)) <|
  allKeep_cons (keeps_exec (.groupRelease p)) <| allKeep_cons (keeps_exec (.faultDone p)) <| allKeep_cons (keeps_exec (.syscDone p)) <|
  allKeep_cons (keeps_exec (.lqSet p)) <| allKeep_cons (keeps_exec (.lqReset p)) <|
  allKeep_two (keeps_exec (.icacheInval p)) (keeps_exec (.unknownCommand p))

theorem scheduled_keeps (tag : Nat × Nat) {f : State → Out} (hf : Keeps f) : Keeps (scheduled tag f) := by
  intro s h
  unfold scheduled
  split
  · exact hf s h
  · exact h

theorem launchSteps_keep (s : State) : AllKeep s.launchSteps := by
  unfold State.launchSteps
  refine allKeep_append (allKeep_append (allKeep_append (allKeep_append (allKeep_append (allKeep_flatMap _ fun e => ?_)
    (allKeep_map _ fun e => keeps_exec (.launchComplete e.1))) (allKeep_map _ fun d => keeps_exec (.memberDeath d.meet d.member)))
    (allKeep_map _ fun c => keeps_exec (.preemptSave c.1))) (allKeep_map _ fun c s => keeps_exec (.contextRestore c.1 _) s))
    (allKeep_ite (allKeep_one (keeps_exec .fullServiceMove)) allKeep_nil)
  split
  · exact allKeep_one (scheduled_keeps _ (keeps_exec (.launchRecordDequeue e.1)))
  · exact allKeep_cons (scheduled_keeps _ (keeps_exec (.dependenceMet e.1 0)))
      (allKeep_two (scheduled_keeps _ (keeps_exec (.dependenceMet e.1 1))) fun s => keeps_exec (.gangAdmit e.1 _) s)

theorem pending_keep (s : State) : AllKeep s.pending :=
  allKeep_append (allKeep_append (allKeep_append (allKeep_append (allKeep_append (allKeep_append (allKeep_append
    (allKeep_append (allKeep_flatMap _ opSteps_keep) (allKeep_flatMap _ groupSteps_keep)) (allKeep_flatMap _ coreSteps_keep))
    (homeSteps_keep s)) (linkSteps_keep s)) (allKeep_flatMap _ fun p => portSteps_keep p.1)) (launchSteps_keep s))
    (allKeep_map _ fun gid => act_listed (.issue gid))) (swapSteps_keep s)

theorem firstOf_listed (s : State) (h : Listed s.mem) {fs : List (State → Out)} (hfs : AllKeep fs) : NextListed (s.firstOf fs) := by
  induction fs with
  | nil => exact h
  | cons f fs ih =>
    obtain ⟨hf, hrest⟩ := List.forall_mem_cons.mp hfs
    have hnext := hf s h
    unfold State.firstOf
    split
    next t he =>
      rw [he] at hnext
      split
      · exact ih hrest
      · exact hnext
    · exact hnext

theorem tick_listed (o : Out) (h : NextListed o) : NextListed (tick o) := by
  unfold tick
  split
  · exact afterStep_listed _ h
  · exact h

theorem step_listed (s : State) (h : Listed s.mem) : NextListed (step s) := by
  unfold step State.stepOut
  split
  next a rest _ => exact tick_listed _ (act_listed a { s with agenda := rest } h)
  · exact tick_listed _ (firstOf_listed s h (pending_keep s))

/-- Settles O58: whatever a step does to memory it does by `msets`, which keeps the canonical form, or by dropping bytes. -/
theorem memoryFormKept : Obligations.MemoryFormKept := by
  intro s t hs hstep
  have h := step_listed s hs
  rw [hstep] at h
  exact h

end Sys2Proof.Machine
end
